-- ==== Sys2Proof/Word.lean ====
section
/-!
DEFINITION. The number formats of R23 and the plain arithmetic the rules use: two's complement fields read and written
as integers, clamping to a range, rounding half away from zero.
-/
namespace Sys2Proof

/-- The integer a two's complement field of `w` bits holds (R23). -/
def signedOf (w v : Nat) : Int :=
  if v % 2 ^ w < 2 ^ (w - 1) then (v % 2 ^ w : Nat) else (v % 2 ^ w : Nat) - (2 ^ w : Nat)

/-- The two's complement field of `w` bits that holds an integer (R23). -/
def ofSigned (w : Nat) (x : Int) : Nat := (x % (2 ^ w : Nat)).toNat

/-- The value of the range nearest to `v`. -/
def clampNat (least most v : Nat) : Nat := if v < least then least else if most < v then most else v

/-- The integer of the range nearest to `x`. -/
def clampInt (least most x : Int) : Int := if x < least then least else if most < x then most else x

/-- `num / den` rounded to the nearest integer, halves away from zero. -/
def roundHalfAway (num : Int) (den : Nat) : Int :=
  if 0 ≤ num then (2 * num + den) / (2 * den : Nat) else -((2 * (-num) + den) / (2 * den : Nat))

/-- Bits `hi` down to `lo` of a number. -/
def bitsOf (v hi lo : Nat) : Nat := (v / 2 ^ lo) % 2 ^ (hi + 1 - lo)

/-- The number with bit `k` set to `b`. -/
def withBit (v k : Nat) (b : Bool) : Nat :=
  if b then v ||| 2 ^ k else if v.testBit k then v - 2 ^ k else v

/-- A Boolean as a one-bit field. -/
def bit (b : Bool) : Nat := if b then 1 else 0

/-- How many bits of a mask of `w` bits are 1. -/
def popCount (w v : Nat) : Nat := ((List.range w).filter (fun k => v.testBit k)).length

end Sys2Proof
end

