-- ==== Sys2Proof/Syntax.lean ====
section
/-!
DEFINITION. The commands the block takes: one constructor per row of the opcode table, and the data types their
operands use. An operand is what the row's rule names (a lane, an address, a value) or what the outside world
measured, sent or decided (log entry 7).
-/
namespace Sys2Proof

/-- A line lane L0 to L7 (R14); cluster Dn and table t use the same numbers. -/
abbrev Lane := Fin 8

/-- A host lane H0 to H15 (R14). -/
abbrev HostLane := Fin 16

/-- A register word (R15). -/
abbrev Word := BitVec 32

/-- What a calibration measured of one ADC slice: corrections in 1/16 LSB, 2^-12 and 10 fs (R96). -/
structure SliceEst where
  slice : Fin 65
  offset : Int
  gain : Int
  skew : Int
deriving DecidableEq, Repr

/-- What triggers the disable sequence (R177). -/
inductive DisableTrigger where
  | txEnCleared | laneOff | pllCal | fullCommit
deriving DecidableEq, Repr


/-! ## Images (R61 to R67) -/

/-- What a port group carries (R66). -/
inductive Payload where
  | eth400 | eth800 | eth1600 | transparent
deriving DecidableEq, Repr

/-- A port group: lead lane, lane count, payload, whether Extended Host Mode is permitted, the profile set as a mask
(bit 0 Ristretto, 1 Espresso, 2 Lungo) and the initial profile (R66). -/
structure PortGroup where
  lead : Nat
  count : Nat
  payload : Payload
  extended : Bool
  profiles : Nat
  initial : Nat
deriving DecidableEq, Repr

/-- A record of the STRUCTURE section with its fields as codes, or one that cannot be parsed (R66, R68). PAYLOAD 0 to 3 are
400GbE, 800GbE, 1.6TbE and transparent, HOST_MODE 0 standard and 1 Extended Host Mode permitted: R66 gives the codes no
numbers (log entry 69). -/
inductive StructRecord where
  | portGroup (lead count payload hostMode profiles initial : Nat)
  | xbarMap (lane hostA : Nat) (hostB : Option Nat)
  | engineHome (engine lane : Nat) (idle : Nat)
  | program (cluster index : Nat)
  | steal (cluster cw ccw thresh : Nat)
  | depth (lane homeQ relBuf : Nat)
  | clockPlan (island allowed initial : Nat)
  | unparsable
deriving DecidableEq, Repr

/-- The block a preset write of LANE_DEFAULTS names (R62). -/
inductive PresetBlock where
  | receive | equaliser | transmit | host
deriving DecidableEq, Repr

/-- An engine program of the MICROCODE section: its length in bytes, and its bytes as one number, the first one lowest (R62,
R221). -/
structure Program where
  bytes : Nat
  code : Nat
deriving DecidableEq, Repr

/-- Bits `hi` to `lo` of word `w` of a program; its words have 64 bits (R221). -/
def Program.field (p : Program) (w hi lo : Nat) : Nat := p.code / 2 ^ (64 * w + lo) % 2 ^ (hi + 1 - lo)

/-- ENTRY (R221). -/
def Program.entry (p : Program) : Nat := p.field 0 48 40

/-- The profiles a program declares, as a mask: bit 1 P_ESPRESSO, bit 2 P_LUNGO (R221). -/
def Program.profiles (p : Program) : Nat := 2 * p.field 0 33 32

/-- The 512 words that an engine's store holds of a program (R220). -/
def Program.packed (p : Program) : Nat := p.code % 2 ^ 32768

/-- The parts of an image whose encoding the spec does not give, as the compiler wrote them: structure records with the byte
offset of each, programs, presets, and for each port group, by its lead lane, the offset and length of each of its records
(R62, R66; log entry 69). -/
structure ImageParts where
  records : List (Nat × StructRecord)
  programs : List Program
  laneDefaults : List (PresetBlock × Nat × Nat)
  groupMap : List (Nat × List (Nat × Nat))
deriving DecidableEq, Repr

/-- The bytes that a slot of the boot flash holds, and those parts of them (R57, R61). -/
structure ImageFile where
  bytes : List (BitVec 8)
  parts : ImageParts
deriving DecidableEq, Repr

/-- An entry of the section table, with the outcome of its CRC check (R61, R62). -/
structure ImgSection where
  type : Nat
  required : Bool
  offset : Nat
  length : Nat
  crcOk : Bool
deriving DecidableEq, Repr

/-- An image as read from a slot: header fields, section table, the outcomes of its CRC checks, the digest that the signature
covers with the signature, the digest of its firmware, and its other contents (R61 to R66, R71). -/
structure Image where
  magicOk : Bool
  fmtMajor : Nat
  fmtMinor : Nat
  target : Nat
  minStep : Nat
  imgLen : Nat
  seq : Nat
  build : Nat
  hdrCrcOk : Bool
  sections : List ImgSection
  digest : Nat
  keyIndex : Nat
  sigR : Nat
  sigS : Nat
  records : List (Nat × StructRecord)
  programs : List Program
  firmware : Nat
  laneDefaults : List (PresetBlock × Nat × Nat)
  groupMap : List (Nat × List (Nat × Nat))
deriving DecidableEq, Repr

/-! ## Alignment markers of the released stream -/

/-- An AM period of the released stream ends in a codeword's payload: the place of the candidate modulo 20 bits, the common
marker bits in which it differs, and whether it lies where the last one did (R270, R273). -/
structure AmSeen where
  place : Fin 20
  errBits : Nat
  samePos : Bool
deriving DecidableEq, Repr

/-! ## Host lanes -/

/-- A request in a training frame of the host: a preset with its five tap values, one coefficient step, or none
(R260). -/
inductive TrainReq where
  | preset (taps : List Int)
  | step (tap : Fin 5) (delta : Int)
  | hold
deriving DecidableEq, Repr

/-- What the slicer measured of one decided level over a window: mean (Q12.4) and standard deviation (UQ12.4), or
nothing where no symbol was decided there (R156). -/
structure LevelStat where
  seen : Bool
  mean : Int
  sigma : Nat
deriving DecidableEq, Repr

/-- What a sleep vote is about: a direction of a line lane, or the device (R377). -/
inductive VoteObject where
  | lane (n : Lane) (egress : Bool)
  | device
deriving DecidableEq, Repr

/-- A write of an expert DVFS field: the packed points of PWR_DVFS_CTRL, or VOUT_MV (R387). -/
inductive DvfsWrite where
  | points (req : BitVec 16)
  | vout (mv : Nat)
deriving DecidableEq, Repr

/-! ## Icris -/

/-- A report of a timestamp point: kind 0 LRX, 1 LTX, 2 HRX, 3 HTX, line or host lane, reference cycle, symbol and
phase word, the frame counter or AM ordinal; whether the strait was full; and for LRX the TIME cycles since the level
detector found the last SYNC of a side-channel frame, corrected by its fixed detection latency (R289, R290, R306). -/
structure PointReport where
  kind : Fin 4
  index : Fin 16
  cycle : BitVec 64
  symbol : BitVec 8
  phase : BitVec 16
  ordinal : BitVec 16
  full : Bool
  sync : BitVec 24
deriving DecidableEq, Repr

/-- What the envelope sees (R350): LANE_MASK; the lowest sensed OBIAS current of the last 2 us, in tenths of an envelope unit;
two consecutive raw samples of the lane's monitor channel. -/
inductive EnvCondition where
  | mask
  | overCurrent (tenths : Nat)
  | monOver (first second : BitVec 12)
deriving DecidableEq, Repr

/-- A register transaction on the peripheral bus: target, register, bytes less one, direction, data (R357). -/
structure PbJob where
  addr : BitVec 7
  reg : BitVec 8
  len : Fin 4
  read : Bool
  data : BitVec 32
deriving DecidableEq, Repr

/-! ## Thermal -/

/-- A diode reading: forward voltage and temperature, Q12.4 degrees C (R396). -/
structure DiodeReading where
  forwardMv : Nat
  temp : Int
deriving DecidableEq, Repr

/-! ## Self-test (R415 to R423) -/

/-- Slots in which self-tests run: engine tests, islands and the peripheral slot (R417). -/
inductive TestSlot where
  | engine | island | peripheral
deriving DecidableEq, Repr

/-- What a self-test found: failed logic, memory or other whole-unit part, failed ADC slices and DAC cells of a lane,
and failed SerDes of a host island as a mask (R420). -/
structure BistReport where
  logic : Bool
  slices : List (Fin 65)
  cells : List (Fin 135)
  serdes : BitVec 4
deriving DecidableEq, Repr

/-! ## NVM (R471, R472) -/

/-- What an NVM write serves: a SEC command, ENV_SAVE, a change of the host password, INFO_WRITE (R471, R472). -/
inductive NvmJob where
  | sec | envSave | password | info
deriving DecidableEq, Repr

/-- What the load of the NVM finds: the CRC outcome of each region, of each copy of the rollback floor, and the level of
TESTMODE at reset (R460, R465, R469, R471). -/
structure NvmLoad where
  lifecycleOk : Bool
  keysOk : Bool
  secretOk : Bool
  floorOk : BitVec 3
  safetyOk : Bool
  factoryOk : Bool
  infoOk : Bool
  testMode : Bool
deriving DecidableEq, Repr

/-! ## CMIS (R434, R442, R444) -/

/-- A CMIS control field that the host wrote, beside those with rows of their own: LowPwrAllowRequestHW, the pattern of a
line transmitter, the patterns of a host lane (R442, R444). -/
inductive CmisControl where
  | lowPwrAllowHw (on : Bool)
  | linePattern (n : Lane) (sel : BitVec 3)
  | hostPattern (h : HostLane) (tx chk : BitVec 3)
deriving DecidableEq, Repr

/-- A staged control set of a line lane: its presets, those of its host lanes, TX_EN and the polarities (R444). -/
structure ControlSet where
  receive : BitVec 2
  equaliser : BitVec 2
  transmit : BitVec 2
  host : BitVec 2
  txEn : Bool
  linePol : Bool
  hostTxPol : Bool
  hostRxPol : Bool
deriving DecidableEq, Repr


/-- The commands of the block: one constructor per row of the opcode table, with the operands the row names and what the outside world measured, sent or decided. -/
inductive Instr where
  /-- REGISTER_WRITE (R17): A write to a register field that has no row of its own takes effect under its access type, shadowing or clamping rule. -/
  | registerWrite (a w : Word)
  /-- NARROW_ACCESS (R16): A byte or halfword access from the firmware port is ignored or reads zero and sets BUS_ERR. -/
  | narrowAccess (write : Bool)
  /-- UNMAPPED_ACCESS (R16): An access to an unmapped address reads zero or is discarded and sets BUS_ERR. -/
  | unmappedAccess (a : Word) (write : Bool)
  /-- SNAPSHOT_READ (R19): A read of the lowest word of a multi-word value snapshots the whole value for the higher words. -/
  | snapshotRead (a : Word)
  /-- INT_STATUS_CLEAR (R27): A write of 1 to a W1C interrupt status bit clears it, and INT_N is released within 1 us if no enabled bit remains. -/
  | intStatusClear (a w : Word)
  /-- INT_FORCE_WRITE (R27): A write of 1 to an _INT_FORCE bit sets the matching status bit as if the event had occurred. -/
  | intForceWrite (a w : Word)
  /-- PRESET_WRITE (R21): A preset write restores preset control of every field the preset owns and loads their values. -/
  | presetWrite (b : PresetBlock) (n : HostLane) (v : BitVec 2)
  /-- EXPERT_OVERRIDE_WRITE (R21): A write to a preset-owned E field removes it from preset control and sets its OVERRIDE bit. -/
  | expertOverrideWrite (a w : Word)
  /-- STRAIT_OVERFLOW (R37): A word offered to a full dropping strait is discarded and counted, and the affected lane is taken to FAULT where the strait says so. -/
  | straitOverflow (id : BitVec 7) (lanes : BitVec 4)
  /-- STRAIT_ERR_CLR (R41): CLR of GLB_STRAIT_ERR clears OVF_COUNT and LAST_ID, with a drop in the same cycle counted after the clear. -/
  | straitErrClr
  /-- RG_STOPPED_ACCESS (R334): A register access to a powered-down island completes within 2 us with a zero read or a discarded write, sets BUS_ERR and counts RG_STOPPED. -/
  | rgStoppedAccess (a : Word) (write : Bool)
  /-- CODEWORD_BOUNDARY_APPLY (R45): At a receive or line TX codeword boundary, pending shadow commits, restores, swaps and snapshots apply in the fixed order. -/
  | codewordBoundaryApply (n : Lane) (tx : Bool)
  /-- FRAME_BOUNDARY_APPLY (R45): At an inner-frame boundary, profile changes, negotiation results, partial-commit structures and frame-marked corrections apply. -/
  | frameBoundaryApply (n : Lane)
  /-- TX_FRAME_BOUNDARY (R196): At a line TX frame boundary the encoder sends the frame marker and the service-channel content and advances the transmit frame counter. -/
  | txFrameBoundary (n : Lane) (a b : BitVec 983072)
  /-- VDD_AON_POWER_GOOD (R477): VDD_AON power-good starts the cold start-up sequence with AON on its ring clock and every optics pin safe. -/
  | vddAonPowerGood
  /-- NVM_LOAD_DONE (R338): Completion of the NVM load and the control-DAC calibration sets PU_DONE and applies the power-up values. -/
  | nvmLoadDone (l : NvmLoad)
  /-- SUPPLY_READY (R477): PGOOD_IN high together with REF_OK releases MGMT, TIME and the NVM read port and starts the ROM firmware and the PLL calibrations. -/
  | supplyReady (voutLinear : Bool)
  /-- SUPPLY_READY_TIMEOUT (R376): PGOOD_IN or REF_OK not ready within 10 ms cycles the regulator and retries, then stays in Deep with WAKE_FAIL after the fourth attempt. -/
  | supplyReadyTimeout
  /-- WAKE_RETRY (R376): After 10 ms with the regulator off, the wake sequence repeats from the OPERATION on command. -/
  | wakeRetry
  /-- IMG_VALIDATION_DONE (R68): Completion of reading and checking an image applies the checks in fixed order and ends in acceptance or a refusal code. -/
  | imgValidationDone (f : ImageFile)
  /-- BOOT_COMMIT_DONE (R477): Completion of the boot commit and the domain power-up starts full CMIS service and the start-up BIST stage. -/
  | bootCommitDone (badLrx badLtx : BitVec 8)
  /-- BOOT_BIST_DONE (R421): Completion of the start-up BIST of BOOT_MASK sets BOOT_BIST_DONE and leads to lane enable or Standby. -/
  | bootBistDone
  /-- IMG_VALIDATE (R71): IMG_CMD OP VALIDATE starts validation of the named slot without committing it. -/
  | imgValidate (slot : BitVec 1)
  /-- IMG_COMMIT_FULL (R72): IMG_CMD OP COMMIT_FULL takes every lane to OFF, loads the candidate and restarts the datapath. -/
  | imgCommitFull (slot : BitVec 1)
  /-- IMG_COMMIT_PARTIAL (R73): IMG_CMD OP COMMIT_PARTIAL checks scope and profiles and starts the partial commit of one port group. -/
  | imgCommitPartial (slot : BitVec 1) (lead : Lane)
  /-- IMG_ABORT (R79): IMG_CMD OP ABORT before B2 ends isolation and leaves the structure unchanged; otherwise it is ignored. -/
  | imgAbort
  /-- IMG_MAKE_BOOT (R80): IMG_CMD OP MAKE_BOOT re-validates the slot and writes the older boot-record copy. -/
  | imgMakeBoot (slot : BitVec 1)
  /-- IMG_OP_INVALID (R81): An IMG_CMD with a reserved OP or SLOT code is refused with IMG_ERR_RANGE. -/
  | imgOpInvalid (op : BitVec 4) (slot : BitVec 2) (lead : Lane)
  /-- PC_ISOLATE (R75): At B1 the group's clusters are isolated from every steal neighbourhood. -/
  | pcIsolate
  /-- PC_PAUSE (R75): At B2 and at each lane's P and Q, ingress and egress of the group pause for two frames. -/
  | pcPause (n : Lane) (egress : Bool)
  /-- PC_TABLE_WRITE (R75): Once the last pre-pause codeword is released, the new tables, depths, clock plans and microcode are written with the engines ISOLATED. -/
  | pcTableWrite
  /-- PC_RESUME (R75): At P + 2 frames each lane resumes under the new structure, and at the last lane isolation ends and PC_DONE sets. -/
  | pcResume (n : Lane) (egress : Bool)
  /-- IMG_PC_CLR (R81): CLR of IMG_PC_STATUS clears COUNT and DISCARD. -/
  | imgPcClr
  /-- LRX_ENABLE (R119): ENABLE written 1 while in OFF moves the line lane to CAL. -/
  | lrxEnable (n : Lane)
  /-- LRX_DISABLE (R119): ENABLE written 0 moves the line lane to OFF from any state and clears FAULT_CAUSE. -/
  | lrxDisable (n : Lane)
  /-- LRX_RESTART (R119): RESTART moves the lane to ACQUIRE at WAIT_SD or to CAL, clearing RETRY and FAULT_CAUSE. -/
  | lrxRestart (n : Lane)
  /-- LRX_COMMIT (R124): COMMIT of LRX_CTRL requests the shadowed receive configuration to apply at the next codeword boundary. -/
  | lrxCommit (n : Lane)
  /-- LRX_CNT_CLR (R124): CNT_CLR of LRX_CTRL clears all LRX counters. -/
  | lrxCntClr (n : Lane)
  /-- LRX_CAL_DONE (R112): Completion of line PLL lock wait, ADC foreground calibration and offset initialisation moves the lane from CAL to ACQUIRE. -/
  | lrxCalDone (n : Lane) (est : List SliceEst) (ofs : BitVec 8) (linRx linTx : BitVec 1024)
  /-- LRX_CAL_TIMEOUT (R112): CAL_TMO_US expiring in CAL takes the lane to FAULT with cause CAL_TIMEOUT. -/
  | lrxCalTimeout (n : Lane)
  /-- SD_ASSERT (R108): Debounced signal-detect assertion completes WAIT_SD and may act as a wake source. -/
  | sdAssert (n : Lane)
  /-- SD_DEASSERT (R109): Debounced signal-detect deassertion returns the lane to WAIT_SD and counts SD_LOSS where in service. -/
  | sdDeassert (n : Lane)
  /-- AGC_WINDOW (R89): At the end of each 64-lane-cycle level window the AGC updates the VGA code and evaluates hold, capture and level-drop conditions. -/
  | agcWindow (n : Lane) (level : Nat) (ofsStep : Int)
  /-- AGC_TRIM_STEP (R91): Every 10 us in FROZEN the averaged error may move the VGA code one trim step at the next codeword boundary. -/
  | agcTrimStep (n : Lane) (avgErr : Int)
  /-- CDR_LOCK_INTERVAL (R105): At the end of each 1,450-lane-cycle interval the CDR decides lock or loss of lock. -/
  | cdrLockInterval (n : Lane) (errs : List Int)
  /-- ACQ_TIMEOUT (R115): A sub-phase timeout fails the acquisition attempt and retries or enters FAULT. -/
  | acqTimeout (n : Lane) (phase : Fin 5)
  /-- TRAIN_TIMEOUT (R115): TRAIN_TMO_US expiring in TRAIN takes the lane to FAULT with cause TRAIN_TIMEOUT. -/
  | trainTimeout (n : Lane)
  /-- LRX_FAULT_AUTO_RESTART (R118): FAULT_HOLD_US after entry with AUTO_RESTART, the lane restarts into ACQUIRE or CAL. -/
  | lrxFaultAutoRestart (n : Lane)
  /-- ADC_OVERRANGE (R101): A lane cycle with a sample at an ADC end counts an overrange event and feeds its fault source in service states. -/
  | adcOverrange (n : Lane)
  /-- ADC_SHADOW_DONE (R97): After 2^20 shadow samples the spare's corrections are estimated and checked for the swap. -/
  | adcShadowDone (n : Lane) (offset gain skew : Int)
  /-- SWAP_DEFER_EXPIRY (R98): A swap deferred by a supply warning that does not recover within 1 ms is discarded and the step restarts. -/
  | swapDeferExpiry (n : Lane) (tx : Bool)
  /-- WAKE_PATTERN_DETECT (R110): Eight valid on-off burst pairs report the wake pattern and may act as a wake source. -/
  | wakePatternDetect (n : Lane)
  /-- LOCKED_TO_SERVICE (R120): When the first new codeword is released, the ledger is valid, host lanes are ready and SERVICE_EN is 1, the lane enters SERVICE. -/
  | lockedToService (n : Lane)
  /-- SERVICE_EXIT (R120): SERVICE_EN written 0 in SERVICE returns the lane to LOCKED at the next frame boundary. -/
  | serviceExit (n : Lane)
  /-- RX_SLEEP_WAKE (R121): A wake of a sleeping line receiver runs the resume steps of RX Doze or RX Nap. -/
  | rxSleepWake (n : Lane)
  /-- RX_RESUME_DONE (R121): Completion of the receive resume returns the lane to its state, or on failure to ACQUIRE with WARM_FAIL counted. -/
  | rxResumeDone (n : Lane) (ok recOk : Bool)
  /-- LEQ_COMMIT (R151): COMMIT of LEQ_CTRL requests the shadowed equaliser configuration to apply at the next codeword boundary. -/
  | leqCommit (n : Lane)
  /-- COEF_SNAP (R153): COEF_SNAP requests a copy of the live coefficients into the readback bank at the next codeword boundary. -/
  | coefSnap (n : Lane)
  /-- LEQ_CNT_CLR (R159): CNT_CLR of LEQ_CTRL clears the equaliser counters. -/
  | leqCntClr (n : Lane)
  /-- HIST_START (R157): HIST_START clears the bins and starts a histogram capture of 2^HIST_LEN lane cycles. -/
  | histStart (n : Lane)
  /-- HIST_DONE (R157): The histogram capture length expires and HIST_DONE is set. -/
  | histDone (n : Lane) (bins : List Nat)
  /-- LEQ_ADAPT_UPDATE (R140): At each update interval the FFE and DFE taps are updated by the rule of the adaptation mode. -/
  | leqAdaptUpdate (n : Lane) (accs : List Int) (accD : Int)
  /-- FOM_WINDOW_END (R144): At the end of each figure-of-merit window FOM, MSE, level statistics and automatic LLR thresholds update. -/
  | fomWindowEnd (n : Lane) (mse : Nat) (levels : List LevelStat)
  /-- DFE_BURST (R133): Four consecutive symbols with large slicer error count one DFE burst. -/
  | dfeBurst (n : Lane)
  /-- TX_ENABLE_REQUEST (R174): TX_EN written 1 requests the transmit enable, which goes ahead or waits pending. -/
  | txEnableRequest (n : Lane)
  /-- TX_ENABLE_GO (R176): When all enable conditions first hold, the direction enters DRV_ON and the envelope grants or refuses DRV_ENn. -/
  | txEnableGo (n : Lane)
  /-- TXEN_TIMEOUT (R175): TXEN_TMO_US of pending time takes the transmit direction to FAULT with cause TXEN_TIMEOUT. -/
  | txenTimeout (n : Lane)
  /-- DRV_SETTLE_EXPIRY (R176): After DRV_SETTLE_US the driver fault is checked, LSR_ENn is granted and the bias ramp starts. -/
  | drvSettleExpiry (n : Lane) (drvFltHigh : Bool)
  /-- BIAS_TIMEOUT (R176): Bias not ready within LSR_SETTLE_US takes the direction to FAULT with cause BIAS_TIMEOUT. -/
  | biasTimeout (n : Lane)
  /-- TX_ACTIVATE (R176): At the next line TX frame boundary after bias ready the DAC unmutes and the direction becomes ACTIVE. -/
  | txActivate (n : Lane)
  /-- TX_DISABLE (R177): A disable trigger starts the disable sequence, or acts per state in CAL, DISABLE, OFF and FAULT. -/
  | txDisable (n : Lane) (trigger : DisableTrigger)
  /-- TX_DISABLE_MUTE (R177): At the next codeword boundary of the disable sequence the DAC mutes. -/
  | txDisableMute (n : Lane)
  /-- DRV_HOLD_EXPIRY (R177): DRV_HOLD_US after LSR_ENn deasserts, DRV_ENn deasserts and the direction goes to OFF or CAL. -/
  | drvHoldExpiry (n : Lane)
  /-- LTX_RESTART (R181): RESTART in FAULT moves the transmit direction to CAL pending, except with cause DAC_NO_CELL. -/
  | ltxRestart (n : Lane)
  /-- LTX_COMMIT (R190): COMMIT of LTX_CTRL requests the shadowed transmit configuration to apply at the next codeword boundary. -/
  | ltxCommit (n : Lane)
  /-- LTX_CNT_CLR (R190): CNT_CLR of LTX_CTRL clears the transmit counters. -/
  | ltxCntClr (n : Lane)
  /-- DRV_FAULT (R179): A debounced low DRV_FLT_Nn while DRV_ENn is asserted counts and is a DRV_FAULT cause. -/
  | drvFault (n : Lane)
  /-- TX_FAULT_DAC_OFF (R178): Ten microseconds into the fault sequence the DAC is powered down. -/
  | txFaultDacOff (n : Lane)
  /-- TX_FAULT_AUTO_RESTART (R180): FAULT_HOLD_US after a PLL_LOL or SXL_OVERFLOW fault, the direction restarts into CAL pending. -/
  | txFaultAutoRestart (n : Lane)
  /-- DAC_CAL_DONE (R169): Completion of the DAC foreground or interleave-skew calibration clears that hold reason or gives DAC_CAL_FAIL. -/
  | dacCalDone (n : Lane) (trims : List Int) (intlv : Int)
  /-- DAC_CELL_TRIM_DONE (R170): Completion of a background cell trim readies the cell to take its target position. -/
  | dacCellTrimDone (n : Lane) (trim : Int)
  /-- DAC_CLIP (R163): A lane cycle with a clamped DAC code counts CLIP_CNT and sets CLIP. -/
  | dacClip (n : Lane)
  /-- MASK_AVERAGE_END (R167): At the end of each spectral average the bins are reported and mask violations counted. -/
  | maskAverageEnd (n : Lane) (blocks : List (List (Option (BitVec 7))))
  /-- WAKE_SEND (R185): WAKE_SEND starts the wake pattern at the next line TX frame boundary. -/
  | wakeSend (n : Lane)
  /-- WAKE_PATTERN_END (R185): After WAKE_BURSTS bursts codeword transmission resumes at the next frame boundary and WAKE_DONE sets. -/
  | wakePatternEnd (n : Lane)
  /-- TX_SLEEP_WAKE (R186): A wake of a sleeping line transmitter runs the wake steps of TX Doze or TX Nap. -/
  | txSleepWake (n : Lane) (drvFltHigh recOk : Bool)
  /-- MARKER_CANDIDATE (R198): Hunter 2 reports a candidate marker position, which hunter 1 takes or which replaces a weaker held one. -/
  | markerCandidate (n : Lane) (pos : BitVec 19) (bits : BitVec 256)
  /-- FRAME_MARKER_CHECK (R199): The marker at an expected position is judged good or bad once its last segment has arrived. -/
  | frameMarkerCheck (n : Lane) (shadow : Bool) (bits : BitVec 256) (ago : BitVec 20)
  /-- SERVICE_FRAME_RECEIVED (R202): The service-channel content of a frame is decoded, corrected and CRC-checked, or discarded. -/
  | serviceFrameReceived (n : Lane) (bits : BitVec 3840)
  /-- MSG_ACK_RX (R203): A partner ACK equal to the pending SEQ releases the next message. -/
  | msgAckRx (n : Lane) (ack : BitVec 8)
  /-- MSG_ABILITY_RX (R210): A partner ABILITY page is recorded and the negotiation result is computed. -/
  | msgAbilityRx (n : Lane) (seq : BitVec 8) (page : BitVec 128)
  /-- MSG_CONFIRM_RX (R211): A partner CONFIRM is compared with the local result for DONE or a new attempt. -/
  | msgConfirmRx (n : Lane) (seq : BitVec 8) (result : BitVec 32)
  /-- MSG_RENEG_RX (R213): A received RENEG message starts renegotiation or is only acknowledged if already negotiating. -/
  | msgRenegRx (n : Lane) (seq : BitVec 8) (reason : BitVec 8)
  /-- MSG_PROFILE_CHANGE_RX (R215): A received PROFILE_CHANGE is checked and answered with PROFILE_REPLY, or acknowledged if FORCED. -/
  | msgProfileChangeRx (n : Lane) (seq : BitVec 8) (prof : Fin 3) (forced : Bool) (txn : BitVec 8)
  /-- MSG_PROFILE_REPLY_RX (R215): A received PROFILE_REPLY ends the request with refusal or schedules the switch boundary. -/
  | msgProfileReplyRx (n : Lane) (seq : BitVec 8) (refuse : Bool) (status : Fin 9) (txn : BitVec 8)
  /-- MSG_TX_TAP_REQ_RX (R204): A received TX_TAP_REQ is applied to the transmit FIR if TAP_ACCEPT is 1 and answered. -/
  | msgTxTapReqRx (n : Lane) (seq : BitVec 8) (taps : List Int)
  /-- MSG_TX_TAP_REPLY_RX (R446): A received TX_TAP_REPLY completes the pending CDB TX tap command. -/
  | msgTxTapReplyRx (n : Lane) (seq : BitVec 8) (applied : Bool)
  /-- MSG_UNKNOWN_RX (R203): A message of reserved TYPE is acknowledged, not acted on and counted in MSG_UNKNOWN. -/
  | msgUnknownRx (n : Lane) (seq : BitVec 8)
  /-- SIDE_CHANNEL_FRAME_RX (R208): A demodulated side-channel frame is CRC-checked and its message or Icris version 1 record taken. -/
  | sideChannelFrameRx (n : Lane) (frame : BitVec 256)
  /-- NEG_TIMEOUT (R211): NEG_TMO_US in ADVERTISE or CONFIRM starts a new attempt or fails negotiation. -/
  | negTimeout (n : Lane)
  /-- HELLO_TIMEOUT (R211): No side-channel frame within HELLO_TMO_US ends LISTEN in DONE with the IEEE 802.3dj result. -/
  | helloTimeout (n : Lane)
  /-- RENEG (R213): RENEG written 1 starts renegotiation of the lane. -/
  | reneg (n : Lane)
  /-- LFR_CNT_CLR (R219): CNT_CLR of LFR_CTRL clears the framing counters. -/
  | lfrCntClr (n : Lane)
  /-- PROFILE_CHANGE (R214): CHANGE of LFR_PROFILE checks the local lane and sends PROFILE_CHANGE or reports the failure. -/
  | profileChange (n : Lane)
  /-- PROFILE_TIMEOUT (R215): No reply within NEG_TMO_US ends the profile request with TIMEOUT. -/
  | profileTimeout (n : Lane)
  /-- PROFILE_SWITCH (R216): At the switch boundary frames F and F + 1 are discarded and the new profile starts. -/
  | profileSwitch (n : Lane)
  /-- COMPAT_FORMAT_SWITCH (R207): At the next TX frame boundary after the group's mode becomes compatibility, the transmitter switches format, muted for one frame. -/
  | compatFormatSwitch (n : Lane)
  /-- CODEWORD_ENQUEUE (R226): Framing writes an arriving codeword with its descriptor into its home queue. -/
  | codewordEnqueue (n : Lane) (index : BitVec 8) (samples : List Int)
  /-- ENGINE_REQUEST (R233): An IDLE engine chooses home work, a steal or a background task and requests it. -/
  | engineRequest (e : Fin 128) (phase : Int)
  /-- QUEUE_GRANT (R234): A queue arbiter grants at most one codeword per cycle and claims the S-CC links. -/
  | queueGrant (n : Lane) (phase : Int)
  /-- CODEWORD_EXPIRY (R227): The queue head passing its latest start time is expired as EXP_Q and bypassed. -/
  | codewordExpiry (n : Lane) (phase : Int)
  /-- STEAL_TRANSFER_DONE (R235): The last LLR word of a stolen or home-taken codeword reaches the engine, which starts loading. -/
  | stealTransferDone (e : Fin 128)
  /-- ENGINE_LOAD_DONE (R222): Completion of the 8-cycle load checks the input syndrome and starts iterating or emits CLEAN. -/
  | engineLoadDone (e : Fin 128)
  /-- ENGINE_ITERATION_DONE (R222): Completion of an iteration's syndrome check ends the decode as CORRECTED or UNCORR, or continues. -/
  | engineIterationDone (e : Fin 128)
  /-- ENGINE_STOP_POINT (R229): Reaching its stop point ends the engine's decode as EXP_RUN and requests the emit port. -/
  | engineStopPoint (e : Fin 128) (phase : Int)
  /-- EMIT_PORT_GRANT (R229): The S-DX port grants an emission in deadline order. -/
  | emitPortGrant (n : Lane)
  /-- EMIT_DONE (R222): The eighth payload word written ends the emission and returns the engine to IDLE. -/
  | emitDone (n : Lane)
  /-- RELEASE_BUFFER_WRITE (R237): An S-DX word is written into the release-buffer slot of its codeword. -/
  | releaseBufferWrite (n : Lane)
  /-- CODEWORD_RELEASE (R237): A codeword is released exactly its release hold after its arrival time. -/
  | codewordRelease (n : Lane) (ui : BitVec 24) (am : Option AmSeen)
  /-- ENGINE_DEADLINE_FAIL (R243): An engine that has not written its last word 12 ns after its DEADLINE fails and is reset. -/
  | engineDeadlineFail (e : Fin 128) (phase : Int)
  /-- MICROCODE_ECC_ERROR (R244): A microcode fetch ECC error is corrected, or a double-bit error ends the codeword and refreshes the store. -/
  | microcodeEccError (e : Fin 128) (double : Bool)
  /-- BG_TASK_DUE (R245): A refresh or histogram-gathering period expires and a background task is queued. -/
  | bgTaskDue (e : Fin 128) (refresh : Bool)
  /-- ENGINE_REFRESH_DONE (R245): Completion of a microcode store reload returns the engine to IDLE. -/
  | engineRefreshDone (e : Fin 128)
  /-- HIST_GATHER_DONE (R245): Completion of histogram gathering updates the lane histograms. -/
  | histGatherDone (e : Fin 128)
  /-- HEALTH_WINDOW_TICK (R425): Each health window ages unserved background tasks and calibration steps. -/
  | healthWindowTick
  /-- ARC_CNT_CLR (R249): CNT_CLR of ARC_CTRL clears all archipelago counters. -/
  | arcCntClr
  /-- ARC_CL_CNT_CLR (R249): CNT_CLR of ARC_CL_CFG clears one cluster's counters. -/
  | arcClCntClr (n : Lane)
  /-- HIF_ENABLE (R251): ENABLE written 1 on a mapped host lane in OFF moves it to CAL. -/
  | hifEnable (h : HostLane)
  /-- HIF_DISABLE (R254): ENABLE written 0 moves the host lane to OFF and clears FAULT_CAUSE. -/
  | hifDisable (h : HostLane)
  /-- HIF_RETRAIN (R254): RETRAIN moves a host lane in ALIGN, READY or FAULT to TRAIN, except with cause WINDOW. -/
  | hifRetrain (h : HostLane)
  /-- HIF_COMMIT (R284): COMMIT of HIF_CTRL applies the host shadow at the next host cycle boundary. -/
  | hifCommit (h : HostLane)
  /-- HIF_SLIP (R276): SLIP moves the deskew delay by SLIP_BITS or is refused or ignored. -/
  | hifSlip (h : HostLane)
  /-- ALIGN_DONE_WRITE (R277): ALIGN_DONE written 1 in a transparent group moves both lanes to READY. -/
  | alignDoneWrite (h : HostLane)
  /-- HIF_CNT_CLR (R284): CNT_CLR of HIF_CTRL clears the host lane counters. -/
  | hifCntClr (h : HostLane)
  /-- HIF_GLB_CNT_CLR (R284): CNT_CLR of HIF_GLB_CTRL clears the global host counters and RS monitor counts. -/
  | hifGlbCntClr
  /-- HOST_CAL_DONE (R251): Completion of host PLL lock wait and calibration moves the host lane to TRAIN. -/
  | hostCalDone (h : HostLane) (linRx linTx : BitVec 1024)
  /-- HOST_CAL_TIMEOUT (R251): CAL lasting 10 ms takes the host lane to FAULT with CAL_TIMEOUT. -/
  | hostCalTimeout (h : HostLane)
  /-- TRAINING_FRAME_RX (R260): A host training request for a preset or coefficient update is applied within the tap limits and answered. -/
  | trainingFrameRx (h : HostLane) (req : TrainReq) (advertises : Bool)
  /-- HOST_FOM_WINDOW_END (R261): A host figure-of-merit window ends and the sweep or tuning keeps or reverts a step. -/
  | hostFomWindowEnd (h : HostLane) (errSq : Nat) (acked : Bool) (lvl accD1 accD2 : Int)
  /-- TRAINING_COMPLETE (R252): Both ends report receiver ready, TX_READY sets and the lane goes to ALIGN or switches to Extended Host Mode. -/
  | trainingComplete (h : HostLane)
  /-- TRAINING_ATTEMPT_FAIL (R253): A failed training attempt counts and retries or enters FAULT with TRAIN_FAIL. -/
  | trainingAttemptFail (h : HostLane)
  /-- EHM_TRAIN_TIMEOUT (R264): Extended training not complete within EHM_TRN_TMO_MS falls back to standard training. -/
  | ehmTrainTimeout (n : Lane)
  /-- AM_PERIOD (R270): At each AM period the matcher decides AM lock, loss of AM lock and the pair skew. -/
  | amPeriod (h : HostLane) (errBits : Nat) (samePos : Bool) (arrival : Nat)
  /-- ALIGN_TIMEOUT (R251): ALIGN_TMO_US without AM lock takes the host lane to FAULT with ALIGN_TIMEOUT. -/
  | alignTimeout (h : HostLane)
  /-- HOST_CDR_LOCK_INTERVAL (R258): At the end of each 850-host-cycle interval the host CDR decides lock or loss of lock. -/
  | hostCdrLockInterval (h : HostLane) (errs : List Int)
  /-- RELOCK_TIMEOUT (R258): No CDR relock within RELOCK_US takes the host lane to FAULT with RELOCK_FAIL. -/
  | relockTimeout (h : HostLane)
  /-- HOST_FAULT_AUTO_RESTART (R254): 1,000 us after a FAULT entry with AUTO_RESTART, the host lane restarts into its cause's state. -/
  | hostFaultAutoRestart (h : HostLane)
  /-- HOST_SLEEP_WAKE (R280): A wake of a sleeping host direction runs its wake steps, or counts WARM_FAIL on failure. -/
  | hostSleepWake (h : HostLane) (tx ok relocked recOk : Bool)
  /-- RS_CODEWORD_MONITOR (R278): The RS monitor decodes an RS(544,514) codeword for counting only. -/
  | rsCodewordMonitor (n : Lane) (egress inRange : Bool) (symErr : Option (Fin 16))
  /-- TOD_SET_NOW (R286): TIM_TOD_CMD OP SET_NOW loads TIM_TOD_SET into the TOD. -/
  | todSetNow
  /-- TOD_SET_AT_TIME_IN (R286): TIM_TOD_CMD OP SET_AT_TIME_IN arms a TOD set at the next valid TIME_IN edge. -/
  | todSetAtTimeIn
  /-- TOD_SET_TIMEOUT (R286): No valid TIME_IN edge within two periods ends SET_AT_TIME_IN with SET_FAIL. -/
  | todSetTimeout
  /-- TOD_STEP (R286): TIM_TOD_CMD OP STEP adds the signed offset to the TOD, or is refused. -/
  | todStep
  /-- TOD_SLEW (R286): TIM_TOD_CMD OP SLEW changes the TOD increment until the offset is absorbed, or is refused. -/
  | todSlew
  /-- TOD_SLEW_DONE (R286): The slew offset fully absorbed restores the nominal increment and clears SLEWING. -/
  | todSlewDone
  /-- TIMESTAMP_EVENT (R289): A marker event report over S-LT or S-HT is turned into a timestamp. -/
  | timestampEvent (r : PointReport)
  /-- CROSS_CAPTURE (R290): Every 1,024 TIME cycles each island's reference-cycle count is captured. -/
  | crossCapture (island : Fin 12) (count : BitVec 64) (interval : BitVec 12)
  /-- DRIFT_MONITOR (R291): Every 10 ms the replica path is measured and the change applied to D_point. -/
  | driftMonitor (point : Fin 48) (delta : Int) (ana : BitVec 16)
  /-- TSF_READ (R292): A read of TIM_TSF_DATA0 moves the oldest FIFO entry into the data registers. -/
  | tsfRead
  /-- TSF_FLUSH (R318): FLUSH of TIM_TSF_CFG empties the timestamp FIFO. -/
  | tsfFlush
  /-- TIM_CNT_CLR (R318): CNT_CLR of TIM_CTRL clears the global Icris counters. -/
  | timCntClr
  /-- TIM_LN_CNT_CLR (R318): CNT_CLR of TIM_LN_CFG clears a lane's exchange counters. -/
  | timLnCntClr (n : Lane)
  /-- LEDGER_PUBLISH (R295): At each receive frame boundary the latency ledger is computed and published. -/
  | ledgerPublish (n : Lane)
  /-- ICRIS_REGION_WRITE (R300): TIME writes the Icris region of a frame to the lane over S-TL. -/
  | icrisRegionWrite (n : Lane) (late : Bool)
  /-- ICRIS_INITIATE (R301): The initiation interval expires and the next frame carries an initiation. -/
  | icrisInitiate (n : Lane)
  /-- ECHO_RECEIVED (R302): An echo yields t1 to t4 and the link results are computed, excluded or averaged. -/
  | echoReceived (n : Lane)
  /-- INITIATION_MISS (R301): An initiation without echo within 8 intervals counts EXCH_MISS. -/
  | initiationMiss (n : Lane) (seq : BitVec 16)
  /-- EXCH_STALE (R304): No accepted exchange for 16 intervals in RUN moves the exchange to STALE. -/
  | exchStale (n : Lane)
  /-- RESTART_AVG (R304): RESTART_AVG clears the average and the ratio and enters RATIO. -/
  | restartAvg (n : Lane)
  /-- DPLL_UPDATE (R313): A DPLL phase-error update steers the TIME clock and moves the DPLL between its states. -/
  | dpllUpdate
  /-- DPLL_MISSED_UPDATE (R313): Two consecutive missing updates put the DPLL in HOLDOVER. -/
  | dpllMissedUpdate
  /-- TIME_IN_EDGE (R314): An active TIME_IN edge is validated, timestamped and used by the DPLL, a pending set or as a wake source. -/
  | timeInEdge (offset : BitVec 17)
  /-- TIME_IN_MISS (R314): A missing TIME_IN edge sets IN_MISS. -/
  | timeInMiss
  /-- TIME_OUT_PULSE (R315): At each TOD multiple of PERIOD_MS a TIME_OUT pulse is driven. -/
  | timeOutPulse
  /-- SUSPECT_END (R316): Twenty microseconds after supply recovery timestamps are no longer marked SUSPECT. -/
  | suspectEnd
  /-- REF_LOST (R320): No REFCLK edge for 64 ns sets REF_LOST and every PLL enters HOLD. -/
  | refLost
  /-- REF_COUNT_DONE (R320): A REFCLK frequency count over 4,096 monitor cycles may set REF_BAD. -/
  | refCountDone (count : BitVec 16)
  /-- REF_BACK (R327): REFCLK present for 20 us with a good count sets REF_BACK and recloses the PLLs if within REF_HOLD_US. -/
  | refBack
  /-- REF_OK (R320): REFCLK good for 200 us sets REF_OK and lets held PLLs relock. -/
  | refOk
  /-- REF_HOLD_EXPIRY (R327): REF_HOLD_US after an outage every PLL in HOLD declares loss of lock. -/
  | refHoldExpiry
  /-- PLL_RELOCK_TIMEOUT (R327): A held PLL not locked within 200 us of REF_OK recalibrates. -/
  | pllRelockTimeout (p : Fin 5)
  /-- PLL_LOCK_WINDOW (R324): Each 1,024-REFCLK-cycle window tests the PLL for lock or loss of lock. -/
  | pllLockWindow (p : Fin 5) (errPpm : Int) (phaseOk slip : Bool)
  /-- PLL_CAL_REQ (R323): CAL_REQ requests calibration of a PLL, starting after served transmit disables. -/
  | pllCalReq (mask : BitVec 5)
  /-- PLL_CAL_START (R323): Once no served lane transmits, the requested PLL calibration starts. -/
  | pllCalStart (p : Fin 5)
  /-- PLL_CAL_DONE (R322): A PLL calibration completes LOCKED or FAILED and records its time. -/
  | pllCalDone (p : Fin 5) (band : BitVec 6)
  /-- CLK_CNT_CLR (R335): CNT_CLR of CLK_CTRL clears the clock counters. -/
  | clkCntClr
  /-- OPT_TRIGGER (R337): At each lane trigger the optics output codes are formed, limited by the envelope and driven. -/
  | optTrigger (n : Lane) (compliance openLoop : Bool)
  /-- OBIAS_CONDITION_EVENT (R345): A compliance or open-loop condition held for 10 us is one event to its fault source. -/
  | obiasConditionEvent (n : Lane) (openLoop : Bool)
  /-- ENVELOPE_TRIP (R350): A MASK, OVER_CURRENT or MON_OVER condition trips the lane, clamps OBIAS and starts the off time. -/
  | envelopeTrip (n : Lane) (c : EnvCondition)
  /-- PROBE_TIMEOUT (R351): The probe window expiring without ACTIVE trips the lane with cause PROBE. -/
  | probeTimeout (n : Lane)
  /-- OFF_TIME_EXPIRY (R351): OFF_MIN_MS after a trip the envelope permits the lane again. -/
  | offTimeExpiry (n : Lane)
  /-- ENV_SAVE (R348): ENV_SAVE stores the envelope limits and power-up values in NVM in Manufacturing, or is ignored. -/
  | envSave
  /-- OPT_CNT_CLR (R361): CNT_CLR of OPT_CTRL clears the lane's optics counters. -/
  | optCntClr (n : Lane)
  /-- MON_OUTPUT (R355): A monitor chain produces an output sample with its VALID and cross-fade state. -/
  | monOutput (c : Fin 24) (codes : List (BitVec 12))
  /-- MON_SWAP (R356): SWAP starts a cross-fade to the shadow coefficient bank at the next output. -/
  | monSwap (c : Fin 24)
  /-- MON_CNT_CLR (R361): CNT_CLR of MON_CTRL clears SEQ of every channel. -/
  | monCntClr
  /-- PB_TRANSACTION (R357): GO of PB_CMD queues a peripheral-bus transaction, refused if it violates PB_PROT. -/
  | pbTransaction (firmware : Option PbJob)
  /-- PB_TRANSACTION_DONE (R357): A peripheral-bus transaction ends OK or NACK after retries. -/
  | pbTransactionDone (nack : Bool) (data : BitVec 32)
  /-- PB_TIMEOUT (R357): Clock stretching beyond 25 ms ends the transaction with TIMEOUT. -/
  | pbTimeout
  /-- SLEEP_REQUEST (R366): ING_SLEEP or EGR_SLEEP written 1 requests low power for a direction and starts a vote. -/
  | sleepRequest (n : Lane) (egress : Bool)
  /-- SLEEP_REQUEST_CLEAR (R369): A sleep request written 0 wakes the whole direction with source MANAGEMENT. -/
  | sleepRequestClear (n : Lane) (egress : Bool)
  /-- BUDGET_WRITE (R367): A budget write re-chooses the block states and wakes blocks above the new budget. -/
  | budgetWrite (n : Lane) (egress : Bool) (us : BitVec 16)
  /-- VOTE_PREPARE (R378): PREPARE goes to all voters of a transition, which answer READY or REFUSE. -/
  | votePrepare (obj : VoteObject)
  /-- VOTE_TIMEOUT (R378): A voter not answering within VOTE_TMO_US refuses with TIMEOUT. -/
  | voteTimeout (obj : VoteObject) (block : Fin 9) (inst : Fin 16)
  /-- VOTE_COMMIT_STEP (R378): The next block commits its sleep state ISLAND_GAP_US after the previous one. -/
  | voteCommitStep (obj : VoteObject)
  /-- LATE_REFUSAL (R379): A voter refusing during COMMIT stops it and wakes committed blocks in reverse order. -/
  | lateRefusal (obj : VoteObject) (block : Fin 9) (inst : Fin 16)
  /-- SLEEP_RETRY (R380): RETRY_US × 2^k after a refusal the vote retries, or GIVEUP sets. -/
  | sleepRetry (obj : VoteObject)
  /-- TRIM_ENTRY (R368): After TRIM_DWELL_US without a load event the decode island enters Trim. -/
  | trimEntry (n : Lane)
  /-- WAKE_TIMER_EXPIRY (R369): The AON wake timer expiring is a TIMER wake source. -/
  | wakeTimerExpiry
  /-- LPMODE_ASSERT (R372): LPMODE asserted with LPMODE_EN takes the device to Standby. -/
  | lpmodeAssert
  /-- LPMODE_DEASSERT (R373): LPMODE deasserted wakes the device from Standby. -/
  | lpmodeDeassert
  /-- STANDBY_SW_WRITE (R372): STANDBY_SW written 1 enters Standby; an enabled wake then ends it. -/
  | standbySwWrite
  /-- STANDBY_WAKE (R373): A wake from Standby powers up domains, calibrates PLLs, restores mirrors and enables lanes. -/
  | standbyWake (badLrx badLtx : BitVec 8)
  /-- DEEP (R374): DEEP written 1 takes the device to Deep, or is refused with DEEP_REFUSED. -/
  | deep
  /-- DEEP_WAKE_EVENT (R375): A wake source in Deep starts the wake sequence with the regulator turned on. -/
  | deepWakeEvent (src : Fin 8)
  /-- DEEP_IMAGE_REREAD_DONE (R375): The image reread after a Deep wake is checked against the stored digest. -/
  | deepImageRereadDone (bytes : List (BitVec 8)) (recOk : Bool)
  /-- DVFS_REQUEST (R385): A write of PWR_DVFS_CTRL REQ sets a software DVFS request and starts an ordered change. -/
  | dvfsRequest (req : BitVec 16)
  /-- DVFS_VOUT_CONFIRMED (R386): READ_VOUT within 5 mV of target and the monitor above warning lets the clocks raise. -/
  | dvfsVoutConfirmed
  /-- DVFS_STEP_DWELL (R386): After 0.5 us at an intermediate point the clock moves to the next point. -/
  | dvfsStepDwell
  /-- DVFS_TIMEOUT (R386): No confirmation within DVFS_TMO_US restores the old VOUT and points with PWR_ERR_PMBUS. -/
  | dvfsTimeout
  /-- DVFS_EXPERT_WRITE (R387): In expert mode a point or VOUT_MV write is one step, or is refused with PWR_ERR_ORDER. -/
  | dvfsExpertWrite (w : DvfsWrite)
  /-- PM_ALERT (R388): PM_ALERT_N low reads STATUS_WORD, sets PM_ALERT and feeds the regulator fault source. -/
  | pmAlert
  /-- SUPPLY_WARNING_START (R390): A rail entering warning starts a warning interval and records it. -/
  | supplyWarningStart (rail : Fin 7) (mv : BitVec 12)
  /-- SUPPLY_WARNING_END (R390): Every rail recovered ends the warning interval and releases held actions. -/
  | supplyWarningEnd (rail : Fin 7) (lowest mv : BitVec 12)
  /-- SUPPLY_MONITOR_RESET (R391): A rail below its reset level resets the device and records the cause. -/
  | supplyMonitorReset (rail : Fin 7) (mv : BitVec 12)
  /-- RESET_N_ASSERT (R476): RESET_N low for 1 us resets every domain outside AON. -/
  | resetNAssert
  /-- RESET_N_RELEASE (R476): RESET_N release restarts the start-up sequence at step 2. -/
  | resetNRelease
  /-- DOMAIN_STAGGER_STEP (R392): The next domain starts or stops ISLAND_GAP_US after the previous one. -/
  | domainStaggerStep
  /-- PWR_CNT_CLR (R393): CNT_CLR of PWR_CTRL clears the power counters. -/
  | pwrCntClr
  /-- THERMAL_MODEL_UPDATE (R394): Every 10 us the RC model updates and T_hot is compared with the levels. -/
  | thermalModelUpdate (counts : List Nat) (rails : List Int)
  /-- DIODE_MEASURE (R396): Every 1 ms the diodes are measured and the case node corrected. -/
  | diodeMeasure (ds : List DiodeReading)
  /-- AON_DIODE_COMPARE (R399): Every 100 us AON compares each diode with CRIT_C in hardware. -/
  | aonDiodeCompare (temps : List Int)
  /-- AON_THERMAL_CROSSING (R405): In Deep the AON comparator crossing AON_WAKE_C is a THERMAL wake source. -/
  | aonThermalCrossing (before after : Int)
  /-- GRACE_EXPIRY (R400): The grace timer expiring with THROTTLE_REQ set starts enforcement with one step. -/
  | graceExpiry
  /-- THROTTLE_STEP (R401): An enforcement step applies the first possible profile, DVFS or shutdown action on the target lane. -/
  | throttleStep
  /-- RECOVER_EXPIRY (R402): RECOVER_MS below WARN_C undoes the most recent throttle step. -/
  | recoverExpiry
  /-- RESTORE (R402): RESTORE written 1 undoes the throttle steps below WARN_C. -/
  | restore
  /-- CRIT_CLR (R404): CRIT_CLR written 1 below RESUME_C clears CRIT_LATCH and wakes the device. -/
  | critClr
  /-- CRIT_AUTO_CLEAR (R404): With CRIT_AUTO, RECOVER_MS below RESUME_C clears CRIT_LATCH. -/
  | critAutoClear
  /-- THM_CNT_CLR (R407): CNT_CLR of THM_CTRL clears the thermal counters. -/
  | thmCntClr
  /-- FAULT_SOURCE_EVENT (R409): An event reported to a fault source counts in its window and may make the fault lasting. -/
  | faultSourceEvent (src inst : Fin 16) (k : BitVec 10)
  /-- FAULT_WINDOW_CLOSE (R409): WIN_US after opening, a fault window closes and COUNT clears. -/
  | faultWindowClose (src inst : Fin 16)
  /-- HLT_SRC_CFG_WRITE (R411): A write of WIN_US, THRESH or ACTION closes the source's open windows. -/
  | hltSrcCfgWrite (src : Fin 16) (word1 : Bool) (v : Word)
  /-- LASTING_CLEAR (R413): A write of 1 to HLT_SRC_LASTING clears a lasting fault. -/
  | lastingClear (src : Fin 16) (mask : BitVec 16)
  /-- BIST_ENGINE (R415): HLT_BIST_CMD KIND ENGINE requests a test of one engine. -/
  | bistEngine (unit : BitVec 7) (preempt : Bool)
  /-- BIST_LANE (R415): HLT_BIST_CMD KIND LANE requests a test of one line lane. -/
  | bistLane (unit : BitVec 7) (preempt : Bool)
  /-- BIST_HOST (R415): HLT_BIST_CMD KIND HOST requests a test of one host island. -/
  | bistHost (unit : BitVec 7) (preempt : Bool)
  /-- BIST_XBAR (R415): HLT_BIST_CMD KIND XBAR requests a test of the XBAR island. -/
  | bistXbar (unit : BitVec 7) (preempt : Bool)
  /-- BIST_CTRL_DAC (R415): HLT_BIST_CMD KIND CTRL_DAC requests a test of one lane's control DACs. -/
  | bistCtrlDac (unit : BitVec 7) (preempt : Bool)
  /-- BIST_MON_ADC (R415): HLT_BIST_CMD KIND MON_ADC requests a test of the monitor ADC and chains. -/
  | bistMonAdc (unit : BitVec 7) (preempt : Bool)
  /-- BIST_KEYSTORE (R419): HLT_BIST_CMD KIND KEYSTORE requests a key-store test, permitted only in Manufacturing or Returned. -/
  | bistKeystore (unit : BitVec 7) (preempt : Bool)
  /-- BIST_ENVELOPE (R419): HLT_BIST_CMD KIND ENVELOPE requests an envelope test, permitted only in Manufacturing or Returned. -/
  | bistEnvelope (unit : BitVec 7) (preempt : Bool)
  /-- BIST_START (R417): A pending test starts when a slot is free and its conditions hold. -/
  | bistStart (slot : TestSlot) (clockOk : Bool) (mv : BitVec 10)
  /-- BIST_WAIT_TIMEOUT (R417): A software request not started within BIST_WAIT_MS ends UNTESTED. -/
  | bistWaitTimeout
  /-- BIST_CONDITION_LOST (R416): Clock or voltage leaving its window aborts a running test as UNTESTED. -/
  | bistConditionLost (kind : Fin 8) (unit : BitVec 7)
  /-- BIST_DONE (R420): A test ends PASS or FAIL and a failed unit is marked. -/
  | bistDone (kind : Fin 8) (unit : BitVec 7) (r : BistReport)
  /-- BIST_REINIT_DONE (R418): Re-initialisation completes and deferred lane requests apply in order. -/
  | bistReinitDone (kind : Fin 8) (unit : BitVec 7)
  /-- BG_BIST_DUE (R422): A background engine BIST task falls due in its spread period. -/
  | bgBistDue (e : Fin 128)
  /-- ADC_STEP_DUE (R426): ADC_INTERVAL_US after the previous step, a background ADC step falls due and is admitted. -/
  | adcStepDue (n : Lane)
  /-- DAC_STEP_DUE (R426): DAC_INTERVAL_US after the previous step, a background DAC step falls due and starts. -/
  | dacStepDue (n : Lane)
  /-- HLT_CNT_CLR (R432): CNT_CLR of HLT_CTRL clears TOTAL, the BIST counters, ESC_CNT, RX_CNT and TX_CNT. -/
  | hltCntClr
  /-- WATCHDOG_MISS (R435): A core missing its watchdog report starts a firmware restart, or FW_HALT on a second within 10 s. -/
  | watchdogMiss (core : Fin 4)
  /-- FW_RESTART_DONE (R435): The firmware reread and digest check complete and the firmware restarts with state kept. -/
  | fwRestartDone (bytes : List (BitVec 8))
  /-- HOST_BUS_WRITE (R436): An I2C or I3C private write transaction stores bytes in the current page. -/
  | hostBusWrite (target : BitVec 7) (off : BitVec 8) (data : List (BitVec 8))
  /-- HOST_BUS_READ (R436): An I2C or I3C private read transaction returns bytes of the current page. -/
  | hostBusRead (target : BitVec 7) (off : BitVec 8) (count : BitVec 9)
  /-- I3C_ENTDAA (R437): ENTDAA assigns a dynamic address and switches the bus to I3C SDR. -/
  | i3cEntdaa (dyn : BitVec 7)
  /-- I3C_SETDASA (R437): SETDASA assigns a dynamic address from the static address and switches to I3C. -/
  | i3cSetdasa (target dyn : BitVec 7)
  /-- I3C_SETNEWDA (R437): SETNEWDA changes the dynamic address. -/
  | i3cSetnewda (target dyn : BitVec 7)
  /-- I3C_RSTDAA (R437): RSTDAA returns the host bus to I2C mode. -/
  | i3cRstdaa
  /-- I3C_GETPID (R437): GETPID returns the provisional ID. -/
  | i3cGetpid (target : BitVec 7)
  /-- I3C_GETBCR (R437): GETBCR returns the bus characteristics register. -/
  | i3cGetbcr (target : BitVec 7)
  /-- I3C_GETDCR (R437): GETDCR returns the device characteristics register. -/
  | i3cGetdcr (target : BitVec 7)
  /-- I3C_GETSTATUS (R437): GETSTATUS returns the device status. -/
  | i3cGetstatus (target : BitVec 7)
  /-- I3C_GETMWL (R437): GETMWL returns the maximum write length of 128. -/
  | i3cGetmwl (target : BitVec 7)
  /-- I3C_SETMWL (R437): SETMWL sets the maximum write length. -/
  | i3cSetmwl (target : BitVec 7) (v : BitVec 16)
  /-- I3C_GETMRL (R437): GETMRL returns the maximum read length of 256. -/
  | i3cGetmrl (target : BitVec 7)
  /-- I3C_SETMRL (R437): SETMRL sets the maximum read length. -/
  | i3cSetmrl (target : BitVec 7) (v : BitVec 16)
  /-- I3C_UNSUPPORTED_CCC (R437): Any other CCC is NACKed. -/
  | i3cUnsupportedCcc
  /-- WINDOW_READ (R438): WIN_CMD 1 reads the word at WIN_ADDR into WIN_DATA, or reports BUSY or DENIED. -/
  | windowRead
  /-- WINDOW_WRITE (R438): WIN_CMD 2 writes WIN_DATA to WIN_ADDR, or reports BUSY or DENIED. -/
  | windowWrite
  /-- SPI_WRITE (R439): An SPI frame with command 0x02 writes 1 to 512 words from the address. -/
  | spiWrite (a : Word) (data : List (BitVec 8))
  /-- SPI_READ (R439): An SPI frame with command 0x0B reads 1 to 512 words from the address. -/
  | spiRead (a : Word) (count : BitVec 10)
  /-- SPI_UNKNOWN_CMD (R439): An unknown SPI command byte ignores the frame and sets SPI_ERR. -/
  | spiUnknownCmd
  /-- CMIS_CONTROL_ACT (R434): The firmware acts on a host write to a CMIS control field within 10 ms. -/
  | cmisControlAct (c : CmisControl)
  /-- CMIS_DPDEINIT (R444): A DPDeinit write sets ENABLE and TX_EN of the lane to its inverse. -/
  | cmisDpdeinit (n : Lane) (v : Bool)
  /-- CMIS_APPLY_DPINIT (R444): ApplyDPInit applies a staged control set through COMMIT. -/
  | cmisApplyDpinit (n : Lane) (c : ControlSet)
  /-- CMIS_LOWPWR_REQUEST_SW (R444): LowPwrRequestSW drives STANDBY_SW. -/
  | cmisLowpwrRequestSw (v : Bool)
  /-- MC_PAGE_HOST_WRITE (R443): A host write to a module-controller page lands in its buffer and notifies the controller. -/
  | mcPageHostWrite (bank : BitVec 1) (page : BitVec 8) (off : BitVec 7) (data : List (BitVec 8))
  /-- CDB_QUERY_STATUS (R446): CDB 0000h returns the command status. -/
  | cdbQueryStatus
  /-- CDB_ENTER_PASSWORD (R446): CDB 0001h compares the host password with the NVM verifier. -/
  | cdbEnterPassword (pw : Word)
  /-- CDB_CHANGE_PASSWORD (R446): CDB 0002h replaces the host password verifier in NVM. -/
  | cdbChangePassword (pw : Word)
  /-- CDB_ABORT (R446): CDB 0004h aborts a running download command. -/
  | cdbAbort
  /-- CDB_MODULE_FEATURES (R446): CDB 0040h returns the module features. -/
  | cdbModuleFeatures
  /-- CDB_FW_MGMT_FEATURES (R446): CDB 0041h returns the firmware management features. -/
  | cdbFwMgmtFeatures
  /-- CDB_GET_FW_INFO (R446): CDB 0100h returns the sequence, build and flags of both slots. -/
  | cdbGetFwInfo (a b : List (BitVec 8))
  /-- CDB_START_FW_DOWNLOAD (R447): CDB 0101h names and erases the inactive slot as the download target. -/
  | cdbStartFwDownload (size : Word)
  /-- CDB_ABORT_FW_DOWNLOAD (R446): CDB 0102h ends the download and leaves the slot unusable. -/
  | cdbAbortFwDownload
  /-- CDB_WRITE_FW_BLOCK_LPL (R446): CDB 0103h writes an LPL block at its offset in the target slot. -/
  | cdbWriteFwBlockLpl (off : Word) (len : BitVec 8)
  /-- CDB_WRITE_FW_BLOCK_EPL (R446): CDB 0104h writes an EPL block at its offset in the target slot. -/
  | cdbWriteFwBlockEpl (off : Word) (len : BitVec 12)
  /-- CDB_COMPLETE_FW_DOWNLOAD (R446): CDB 0107h runs VALIDATE on the target slot. -/
  | cdbCompleteFwDownload
  /-- CDB_RUN_FW_IMAGE (R446): CDB 0109h runs COMMIT_FULL. -/
  | cdbRunFwImage
  /-- CDB_COMMIT_FW_IMAGE (R446): CDB 010Ah runs MAKE_BOOT of the running slot. -/
  | cdbCommitFwImage
  /-- CDB_TX_TAP_REQUEST (R446): CDB 8010h sends TX_TAP_REQ to the partner and waits for its reply. -/
  | cdbTxTapRequest (n : Lane) (taps : List Int)
  /-- CDB_PARTIAL_COMMIT (R446): CDB 8020h runs COMMIT_PARTIAL for the named lead lane. -/
  | cdbPartialCommit (lead : Lane)
  /-- CDB_UNSUPPORTED (R446): Any other CDB command ends with the unsupported status. -/
  | cdbUnsupported
  /-- CDB_TX_TAP_TIMEOUT (R446): No TX_TAP_REPLY within NEG_TMO_US ends the CDB TX tap command as failed. -/
  | cdbTxTapTimeout
  /-- EVF_READ (R449): A read of EVF_DATA returns the next committed word or the not-valid tag. -/
  | evfRead
  /-- EVF_FLUSH (R459): FLUSH of EVF_CFG empties the event FIFO once no record is open. -/
  | evfFlush
  /-- EVF_FORMAT_WRITE (R453): A FORMAT write takes effect when the FIFO is empty, with FMT_PENDING until then. -/
  | evfFormatWrite (format2 : Bool)
  /-- MGT_CNT_CLR (R459): CNT_CLR of MGT_CTRL clears the MGT and EVF counters. -/
  | mgtCntClr
  /-- MBX_IN_WORD_WRITE (R456): A word written to MGT_MBX_IN_DATA enters, completes or is discarded from an inbound message. -/
  | mbxInWordWrite (w : Word)
  /-- MBX_TIMEOUT (R456): An accepted message without a new word for MBX_TMO_US is rewound with MSG_TIMEOUT. -/
  | mbxTimeout
  /-- MBX_IN_ABORT (R456): IN_ABORT rewinds the open inbound message at once. -/
  | mbxInAbort
  /-- MBX_SIZE_WRITE (R454): A MBX_SIZE write applies when both directions are empty, or is refused with MBX_BUSY. -/
  | mbxSizeWrite (v : BitVec 2)
  /-- MBX_OUT_READ (R449): A read of MGT_MBX_OUT_DATA returns the next outbound word or the not-valid tag. -/
  | mbxOutRead
  /-- MSG_VERSION (R457): A VERSION message is answered with the supported versions and sizes. -/
  | msgVersion
  /-- MSG_REG_READ (R457): A REG_READ message reads count words and replies with them. -/
  | msgRegRead
  /-- MSG_REG_WRITE (R457): A REG_WRITE message writes count words and replies. -/
  | msgRegWrite
  /-- MSG_EVENT_READ (R457): An EVENT_READ message replies with whole records from the event FIFO. -/
  | msgEventRead
  /-- MSG_INFO_READ (R457): An INFO_READ message replies with bytes of the module-information region. -/
  | msgInfoRead
  /-- MSG_INFO_WRITE (R457): An INFO_WRITE message writes the module-information region in Manufacturing only. -/
  | msgInfoWrite
  /-- MSG_TYPE_UNKNOWN (R457): A message of unknown TYPE is answered with MSG_TYPE. -/
  | msgTypeUnknown
  /-- LC_ADVANCE (R462): SEC_CMD OP LC_ADVANCE moves the lifecycle state forward if permitted. -/
  | lcAdvance (target : BitVec 4) (flags : BitVec 3)
  /-- NONCE (R466): SEC_CMD OP NONCE draws a new 256-bit nonce and sets NONCE_VALID. -/
  | nonce (arg : BitVec 4) (flags : BitVec 3)
  /-- NONCE_EXPIRY (R466): A nonce older than 60 s becomes invalid. -/
  | nonceExpiry
  /-- KEY_PROGRAM (R464): SEC_CMD OP KEY_PROGRAM writes a public key into an EMPTY slot. -/
  | keyProgram (slot : BitVec 4) (flags : BitVec 3)
  /-- KEY_REVOKE (R467): SEC_CMD OP KEY_REVOKE revokes a key slot, with a token where required. -/
  | keyRevoke (slot : BitVec 4) (flags : BitVec 3)
  /-- DEBUG_UNLOCK (R468): SEC_CMD OP DEBUG_UNLOCK clears secrets and opens debug or scan. -/
  | debugUnlock (scope : BitVec 4) (flags : BitVec 3)
  /-- ROLLBACK_SET (R465): SEC_CMD OP ROLLBACK_SET raises the rollback floor. -/
  | rollbackSet (arg : BitVec 4) (flags : BitVec 3)
  /-- FACTORY_SAVE (R467): SEC_CMD OP FACTORY_SAVE stores Icris offsets and optics constants in Manufacturing. -/
  | factorySave (arg : BitVec 4) (flags : BitVec 3)
  /-- SEC_OP_INVALID (R474): A SEC_CMD with an unlisted OP code ends with STATE. -/
  | secOpInvalid (op : Option (Fin 8)) (arg : BitVec 4) (flags : BitVec 3)
  /-- TOKEN_VERIFY_DONE (R466): Completion of token signature verification consumes the nonce and passes or fails the command. -/
  | tokenVerifyDone
  /-- NVM_WRITE_DONE (R472): An NVM write and its readback complete, or end with NVM on mismatch. -/
  | nvmWriteDone (job : NvmJob) (ok : Bool)
  /-- FLASH_WRITE_DONE (R80): A QSPI boot-flash write or erase completes, either a boot-record copy for MAKE_BOOT or a firmware-download erase or block, and its readback is checked. -/
  | flashWriteDone (bootRecord ok : Bool)
deriving DecidableEq, Repr

end Sys2Proof
end

