-- ==== Sys2Proof/Decode.lean ====
section
/-!
DEFINITION. The opcode table gives its rows no bits, so no word spells a command.
-/
namespace Sys2Proof

/-- The command a word of the opcode table's bits spells: none, because no row gives bits. -/
def decodeTableWord (_nbits _w : Nat) : Option Instr := none

end Sys2Proof
end

