-- ==== Sys2Proof/Config.lean ====
section
/-!
DEFINITION. What the spec leaves open: free values, which no proof can see. Each use names its log entry.
-/
namespace Sys2Proof

/-- The value that the n-th unconstrained choice of a run takes (log entry 2): the step reads it at the counter
`State.fresh` and advances the counter, so every use has a value of its own. -/
opaque Config.freeValue : Nat → BitVec 256

/-- Tap at distance 3 or 5 from the centre of a half-band stage of the monitor chain, in units of 2^-16: R353 gives the stages
no coefficients (log entry 72). -/
opaque Config.halfBandTap : Nat → BitVec 16

/-- FW_VERSION (R60) of a firmware section, named by the first word of its digest: the spec gives the section's
contents no layout (log entry 20). -/
opaque Config.fwVersion : Nat → BitVec 16

/-- Byte at offset `off` of the lane monitors of CMIS page 11h, from the outputs of the 24 monitor channels: the
channels and the coefficients stand in NVM, whose layout R442 does not give (log entry 21). -/
opaque Config.opticalByte (off : Nat) (outputs : List Nat) : BitVec 8

/-- Provisional ID (0), bus characteristics (1) and device characteristics (2) of the I3C target: R437 gives them no
value (log entry 22). -/
opaque Config.i3cId : Nat → BitVec 48

/-- Which side the device takes where the spec leaves one of two open, at a place in the data path and for the operands
it works on: a rounding it does not state, two paths of equal metric (log entry 57). -/
opaque Config.openBit : Nat → Int → Nat → Bool

/-- Symbol k, as a level 0 to 3, of the test patterns 1 PRBS13Q, 2 PRBS31Q and 3 SSPRQ, which R184 leaves to IEEE Std
802.3 (log entry 58). -/
opaque Config.ieeePattern : Nat → Nat → BitVec 2

/-- Fraction bits of the window weights and cosines that the spectral monitor holds: R166 names the functions and not their
precision (log entry 59). -/
opaque Config.spectrumBits : Nat

/-- Level of symbol `k` of the compatibility format for a frame's payload, before the precoder: R206 leaves signalling, inner
code and framing to IEEE Std 802.3dj (log entry 61). -/
opaque Config.compatLevel : Nat → Nat → BitVec 2

/-- Level of symbol `j` of a compatibility frame that has not started yet, at a time: it depends on a payload still to come
(log entry 61). -/
opaque Config.compatAhead : Nat → Nat → BitVec 2

/-- The symbol of the compatibility format that DAC sample `k` of a frame lies in: R206 gives its rate by the standard (log
entry 61). -/
opaque Config.compatHold : Nat → Nat

/-- The payload that the compatibility decode path gives for a codeword's received samples: R240 leaves the code to IEEE Std
802.3dj (log entry 61). -/
opaque Config.compatPayload : List Int → BitVec 3840

/-- An instruction of the TAP as the device acts on it: the instructions of IEEE Std 1149.1 and 1149.6 and the private ones of
R468. -/
inductive TapInstr where
  | bypass | sample | preload | extest | extestPulse | extestTrain | coreDebug | internalScan
deriving DecidableEq, Repr, Inhabited

/-- Width of the TAP's instruction register, which R468 and R469 leave to the device (log entry 54). -/
opaque Config.tapWidth : Nat

/-- The instruction that a code other than all ones selects: no code is given (log entry 54). -/
opaque Config.tapCode : Nat → TapInstr

/-- Length of the data registers behind the private instructions (log entry 54). -/
opaque Config.privateLength : Nat

/-- Number of cells of the boundary chain (log entry 54). -/
opaque Config.chainLength : Nat

/-- The ball that boundary cell `k` observes or drives, in an order of its own (log entry 54). -/
opaque Config.chainBall : Nat → Nat

/-! ## Thermal model (R394 to R397): characterised values that stand in the management firmware (log entry 39) -/

/-- What one update moves node `k` of an island, or its case node (4), by, of its difference to the node before, in 2^-32; for node 0
of the island's power, in degrees C per mW. -/
opaque Config.thermalIn (island k : Nat) : Nat

/-- What one update moves node `k` of an island by, of its difference to the node after, in 2^-32. -/
opaque Config.thermalOut (island k : Nat) : Nat

/-- Leakage of an island on a rail at its estimate, mW (R395). -/
opaque Config.leakage (rail island : Nat) (estimate : Int) : Nat

/-- Weight of an island's activity count in the share of a rail (R395). -/
opaque Config.activityWeight (rail island : Nat) : Nat

/-- Part of an island in the power of a rail on which nothing counts, less one: R395 gives no proportion there. -/
opaque Config.idlePart (rail island : Nat) : Nat

/-- Full scale of a rail-current sensor, mA (R397). -/
opaque Config.railFullScale (rail : Nat) : Nat

/-- Current of a rail that the activity counters predict, mA (R397). -/
opaque Config.railPredicted (rail : Nat) (counts : List Nat) : Nat

/-- Node 2 temperature at the location of a diode, from the node 2 temperatures of the islands, 2^-20 degrees C (R396). -/
opaque Config.diodeModel (diode : Nat) (node2 : List Int) : Int

end Sys2Proof
end

