-- ==== Sys2Proof/Machine/Code.lean ====
section
/-!
DEFINITION. Code A, its scrambler, the frame marker and the Reed-Solomon code of the service channel (R191 to R195, R201,
R202), as plain functions of the bits. A block is a number of 16 bits whose bit `i` is bit `16 b + i` of the codeword.
-/
namespace Sys2Proof.Machine

/-! ## Code A (R191 to R193) -/

/-- `rot(v, s)[i] = v[(i + s) mod 16]`, which is also P^s · v (R192, R193). -/
def rot16 (v s : Nat) : Nat := (v % 65536) / 2 ^ (s % 16) + (v % 65536) * 2 ^ (16 - s % 16) % 65536

/-- The rows in which information block `b` is non-zero (R192). -/
def infoRows (b : Nat) : List Nat :=
  let q := b / 15 % 13
  [b % 15, (b + 1 + q) % 15, (b + 14 - q) % 15]

/-- Shift of a non-zero information block (R192). -/
def infoShift (r b : Nat) : Nat := (r * (b + 1) + 3 * (b / 15 % 13)) % 16

/-- Block (r, b) of the parity-check matrix H: its shift, or none where it is zero (R192). -/
def hBlock (r b : Nat) : Option Nat :=
  if b ≤ 240 then (if (infoRows b).contains r then some (infoShift r b) else none)
  else if b = 241 then (if r = 7 then some 0 else if r = 0 ∨ r = 14 then some 1 else none)
  else if r + 242 = b ∨ r + 241 = b then some 0
  else none

/-- The non-zero blocks of a row with their shifts, in column order. -/
def hRow (r : Nat) : List (Nat × Nat) :=
  (List.range 256).filterMap (fun b => (hBlock r b).map (fun s => (b, s)))

/-- XOR of a list. -/
def xorAll (l : List Nat) : Nat := l.foldl (· ^^^ ·) 0

/-- The 16 checks of a row on a word of blocks; zero where all hold (R192). -/
def rowCheck (w : List Nat) (r : Nat) : Nat := xorAll ((hRow r).map (fun e => rot16 (w.getD e.1 0) e.2))

/-- The word is a codeword: H times it is zero (R192). -/
def syndromeZero (w : List Nat) : Bool := (List.range 15).all (fun r => rowCheck w r = 0)

/-- `lam[r]` of the information blocks `u[0]` to `u[240]` (R193). -/
def lam (u : List Nat) (r : Nat) : Nat :=
  xorAll ((List.range 241).map (fun b => if (infoRows b).contains r then rot16 (u.getD b 0) (infoShift r b) else 0))

/-- Parity blocks `p[k + 1]`, latest last, from `p[k]`, for the steps `ks` (R193). -/
def parityChain (l : List Nat) (p0 : Nat) : List Nat → Nat → List Nat
  | [], _ => []
  | k :: ks, pk =>
    let next := l.getD k 0 ^^^ pk ^^^ (if k = 7 then p0 else 0)
    next :: parityChain l p0 ks next

/-- The parity blocks `p[0]` to `p[14]` (R193). -/
def parityBlocks (u : List Nat) : List Nat :=
  let l := (List.range 15).map (lam u)
  let p0 := xorAll l
  let p1 := l.getD 0 0 ^^^ rot16 p0 1
  p0 :: p1 :: parityChain l p0 ((List.range 13).map (· + 1)) p1

/-- The 256 blocks of the codeword with service bits `svc` and the payload of 3,840 bits (R191, R193). -/
def encodeA (svc payload : Nat) : List Nat :=
  let u := svc % 65536 :: (List.range 240).map (fun b => payload / 2 ^ (16 * b) % 65536)
  u ++ parityBlocks u

/-- Bit `i` of a word of blocks (R191). -/
def bitOfWord (w : List Nat) (i : Nat) : Bool := (w.getD (i / 16) 0).testBit (i % 16)

/-- Symbol `j` of a codeword: its MSB is bit 2j, its LSB bit 2j + 1 (R191). -/
def symbolBits (w : List Nat) (j : Nat) : Bool × Bool := (bitOfWord w (2 * j), bitOfWord w (2 * j + 1))

/-- The payload bits of a word: blocks 1 to 240 as one number (R191). -/
def payloadOf (w : List Nat) : Nat := ((List.range 240).map (fun b => w.getD (b + 1) 0 % 65536 * 2 ^ (16 * b))).sum

/-! ## The scrambler (R194) -/

/-- One step of PRBS31, x^31 + x^28 + 1: the output bit and the next state, newest bit lowest. -/
def prbs31Step (x : Nat) : Bool × Nat :=
  let b := x.testBit 30 != x.testBit 27
  (b, x % 2 ^ 30 * 2 + bit b)

/-- The state after `k` steps. -/
def prbs31After : Nat → Nat → Nat
  | 0, x => x
  | k + 1, x => prbs31After k (prbs31Step x).2

/-- `k` bits of the sequence from a state, the first one lowest. -/
def prbs31Bits : Nat → Nat → Nat
  | 0, _ => 0
  | k + 1, x => bit (prbs31Step x).1 + 2 * prbs31Bits k (prbs31Step x).2

/-- The scrambler sequence over `k` payload bits from payload bit `first` of a frame on; the state is all ones at payload
bit 0 of codeword 0 (R194). -/
def scrambler (first k : Nat) : Nat := prbs31Bits k (prbs31After first (2 ^ 31 - 1))

/-- Scrambles, or removes the sequence from, word `i` of 480 bits of the payload of codeword `index` (R194, R222). -/
def scrambleWord (index i data : Nat) : Nat := (data % 2 ^ 480) ^^^ scrambler (3840 * index + 480 * i) 480

/-! ## Marker (R195, R197) -/

/-- The frame marker's segments (R195). -/
def markerSegments : List Nat :=
  [0xF3A0, 0x5C27, 0x9E14, 0x2BD8, 0xC461, 0x7A9F, 0x0E5B, 0xB2C6, 0x61F4, 0xD83A, 0x4F0D, 0xA579, 0x38E2, 0x97B5, 0x1C4E,
   0xE6D3]

/-- The `w` lowest bits of a number in the opposite order. -/
def reverseBits (w v : Nat) : Nat := ((List.range w).map (fun i => bit (v.testBit i) * 2 ^ (w - 1 - i))).sum

/-- The 16 service bits that carry marker segment `j`, most significant bit first (R195). -/
def markerBits (j : Nat) : Nat := reverseBits 16 (markerSegments.getD j 0)

/-- M: how many of 256 received bits agree with the marker; bits `16 j` to `16 j + 15` are service bits 0 to 15 of
codeword `j` (R197). -/
def markCount (bits : Nat) : Nat :=
  256 - ((List.range 16).map (fun j => popCount 16 (bits / 2 ^ (16 * j) % 65536 ^^^ markerBits j))).sum

/-! ## The field of 256 elements (R201) -/

/-- Multiply by α, with x^8 + x^4 + x^3 + x^2 + 1. -/
def gfTimesAlpha (a : Nat) : Nat := if a < 128 then 2 * a else (2 * a) % 256 ^^^ 0x1D

/-- `a · b` from the lowest `k` bits of `b` on. -/
def gfMulFrom : Nat → Nat → Nat → Nat
  | 0, _, _ => 0
  | k + 1, a, b => (if b % 2 = 1 then a else 0) ^^^ gfMulFrom k (gfTimesAlpha a) (b / 2)

/-- The product of two elements. -/
def gfMul (a b : Nat) : Nat := if a = 0 ∨ b = 0 then 0 else gfMulFrom 8 a b

/-- `a` to the power `k`. -/
def gfPow (a : Nat) : Nat → Nat
  | 0 => 1
  | k + 1 => gfMul a (gfPow a k)

/-- The inverse, a to the power 254; 0 for 0. -/
def gfInv (a : Nat) : Nat :=
  let sq (x : Nat) := gfMul x x
  let a2 := sq a
  let a4 := sq a2
  let a8 := sq a4
  let a16 := sq a8
  let a32 := sq a16
  let a64 := sq a32
  let a128 := sq a64
  gfMul a128 (gfMul a64 (gfMul a32 (gfMul a16 (gfMul a8 (gfMul a4 a2)))))

/-- α^0, α^1 and so on: `k` powers from `x` = α^i on. -/
def alphaPowers : Nat → Nat → List Nat
  | 0, _ => []
  | k + 1, x => x :: alphaPowers k (gfTimesAlpha x)

/-! ## RS(120, 40) (R201, R202) -/

/-- Sum of two polynomials, lowest coefficient first. -/
def polyAdd : List Nat → List Nat → List Nat
  | [], q => q
  | p, [] => p
  | a :: p, b :: q => (a ^^^ b) :: polyAdd p q

/-- A polynomial times an element. -/
def polyScale (c : Nat) (p : List Nat) : List Nat := if c = 0 then [] else p.map (gfMul c)

/-- The value of a polynomial at `x`. -/
def polyAt (p : List Nat) (x : Nat) : Nat := p.foldr (fun c acc => c ^^^ gfMul x acc) 0

/-- The generator polynomial with roots α^0 to α^79, lowest coefficient first (R201). -/
def rsGenerator : List Nat := (alphaPowers 80 1).foldl (fun g r => polyAdd (0 :: g) (polyScale r g)) [1]

/-- One data byte through the division by the generator; `rem` holds the 80 check bytes, highest power first. -/
def rsStep (gen : List Nat) (rem : List Nat) (d : Nat) : List Nat :=
  match rem with
  | [] => []
  | h :: t => (List.zipWith (fun a g => a ^^^ gfMul (h ^^^ d) g) (t ++ [0]) gen)

/-- The block of 120 bytes: 40 data bytes, then the check bytes that make it a multiple of the generator (R201). -/
def rsEncode (data : List Nat) : List Nat :=
  let d := (List.range 40).map (fun i => data.getD i 0 % 256)
  let gen := (rsGenerator.take 80).reverse
  d ++ d.foldl (rsStep gen) (List.replicate 80 0)

/-- The 80 syndromes of a block of 120 bytes, position 0 the highest power. -/
def rsSyndromes (r : List Nat) : List Nat :=
  (alphaPowers 80 1).map (fun x => r.foldl (fun acc c => c ^^^ gfMul x acc) 0)

/-- State of the search for the error locator: locator, its last copy, the copy's discrepancy, length, and shift. -/
structure RsSearch where
  loc : List Nat
  old : List Nat
  disc : Nat
  len : Nat
  gap : Nat

/-- One step of the Berlekamp-Massey search over syndrome `k`. -/
def rsSearchStep (syn : List Nat) (q : RsSearch) (k : Nat) : RsSearch :=
  let d := xorAll ((List.range (q.len + 1)).map (fun i => gfMul (q.loc.getD i 0) (syn.getD (k - i) 0)))
  if d = 0 then { q with gap := q.gap + 1 }
  else
    let step := List.replicate q.gap 0 ++ polyScale (gfMul d (gfInv q.disc)) q.old
    if 2 * q.len ≤ k then ⟨polyAdd q.loc step, q.loc, d, k + 1 - q.len, 1⟩
    else { q with loc := polyAdd q.loc step, gap := q.gap + 1 }

/-- The error locator and its length. -/
def rsLocator (syn : List Nat) : RsSearch := (List.range 80).foldl (rsSearchStep syn) ⟨[1], [1], 1, 0, 1⟩

/-- The formal derivative: the odd coefficients. -/
def polyDerive (p : List Nat) : List Nat := (List.range (p.length - 1)).map (fun i => if i % 2 = 0 then p.getD (i + 1) 0
  else 0)

/-- The error at position `i`: its byte by Forney's formula where the locator has a root there, else 0. -/
def rsErrorAt (syn loc : List Nat) (i : Nat) : Nat :=
  let x := gfPow 2 (119 - i)
  let xi := gfInv x
  if polyAt loc xi ≠ 0 then 0
  else
    let omega := (List.range 80).map (fun k => xorAll ((List.range (k + 1)).map (fun j => gfMul (loc.getD j 0) (syn.getD
      (k - j) 0))))
    gfMul x (gfMul (polyAt omega xi) (gfInv (polyAt (polyDerive loc) xi)))

/-- A received block decoded: the corrected block and the number of bytes corrected, up to 40; none where no codeword lies
within 40 byte errors (R201, R202). -/
def rsDecode (r : List Nat) : Option (List Nat × Nat) :=
  let r := (List.range 120).map (fun i => r.getD i 0 % 256)
  if rsEncode r = r then some (r, 0)
  else
    let syn := rsSyndromes r
    let q := rsLocator syn
    if 40 < q.len then none
    else
      let err := (List.range 120).map (rsErrorAt syn q.loc)
      let c := List.zipWith (· ^^^ ·) r err
      let n := (err.filter (· ≠ 0)).length
      if n ≤ 40 ∧ rsEncode c = c then some (c, n) else none

/-! ## The service channel of a frame (R201, R202) -/

/-- The 480 bytes of a frame for a content of 160 bytes: content byte `c` is data position `c / 4` of block `c mod 4`, and
frame byte `k` is position `k / 4` of block `k mod 4` (R201, R202). -/
def frameBytes (content : List Nat) : List Nat :=
  let blocks := (List.range 4).map (fun b => rsEncode ((List.range 40).map (fun i => content.getD (4 * i + b) 0)))
  (List.range 480).map (fun k => (blocks.getD (k % 4) []).getD (k / 4) 0)

/-- The four received blocks of a frame's bytes (R201). -/
def frameBlocks (bytes : List Nat) : List (List Nat) :=
  (List.range 4).map (fun b => (List.range 120).map (fun i => bytes.getD (4 * i + b) 0))

/-- The content of a received frame, with the bytes corrected over the blocks that decode and the number of blocks that do
not (R202). -/
def frameContent (bytes : List Nat) : List Nat × Nat × Nat :=
  let out := (frameBlocks bytes).map rsDecode
  let block (b : Nat) : List Nat := match out.getD b none with
    | some r => r.1
    | none => []
  ((List.range 160).map (fun c => (block (c % 4)).getD (c / 4) 0),
    (out.map (fun o => match o with | some r => r.2 | none => 0)).sum, (out.filter (fun o => o.isNone)).length)

/-- Service bits 0 to 15 of codeword `k` of a frame: the marker in codewords 0 to 15, then two frame bytes, each MSB first
(R195, R201). -/
def serviceBits (bytes : List Nat) (k : Nat) : Nat :=
  if k < 16 then markerBits k
  else reverseBits 8 (bytes.getD (2 * (k - 16)) 0) + 256 * reverseBits 8 (bytes.getD (2 * (k - 16) + 1) 0)

end Sys2Proof.Machine
end

