-- ==== Sys2Proof/Machine/Equaliser.lean ====
section
/-!
DEFINITION. The equaliser's symbol arithmetic as plain functions of samples and coefficients: feed-forward filter, slicer and
decision feedback, sequence estimator, and the 3-bit soft decisions (R126, R128, R131, R135, R136, R148 to R150).
-/
namespace Sys2Proof.Machine

/-! ## Levels and slicer (R126) -/

/-- Level `j` of PAM4: -96, -32, +32, +96 for 0 to 3. -/
def pamLevel (j : Nat) : Int := 64 * j - 96

/-- A value of the FFE output or the slicer input: 9 bits, saturating at the ends. -/
def saturate9 (y : Int) : Int := clampInt (-256) 255 y

/-- The level a slicer input decides; a value equal to a threshold decides the upper level. -/
def decideLevel (y : Int) : Nat := if y < -64 then 0 else if y < 0 then 1 else if y < 64 then 2 else 3

/-- The slicer error e = y - â. -/
def slicerError (y : Int) : Int := y - pamLevel (decideLevel y)

/-- The Gray-coded bits of a level, MSB first. -/
def grayBits (j : Nat) : Bool × Bool := (decide (2 ≤ j), decide (j = 1 ∨ j = 2))

/-- The level of a bit pair, MSB first. -/
def grayLevel (b : Bool × Bool) : Nat :=
  match b with
  | (false, false) => 0
  | (false, true) => 1
  | (true, true) => 2
  | (true, false) => 3

/-- `num / den` where the spec states no rounding: one of the two neighbours, which of them being open (log entry 57). -/
def roundOpen (place : Nat) (num : Int) (den : Nat) : Int :=
  num / den + (if num % den ≠ 0 ∧ Config.openBit place num den then 1 else 0)

/-! ## Filters (R128, R131) -/

/-- Sum of the products of two lists. -/
def dot (a b : List Int) : Int := (List.zipWith (· * ·) a b).sum

/-- The FFE outputs for a run of samples, one for each window of 41; `taps` is c40 to c0, Q2.10, so the window of symbol k is
x(k - 30) to x(k + 10) (R128). -/
def ffeStream (taps : List Int) : List Int → List Int
  | [] => []
  | x :: xs => if (x :: xs).length < 41 then []
    else saturate9 (roundHalfAway (dot taps (x :: xs)) 1024) :: ffeStream taps xs

/-- The slicer inputs of a run of FFE outputs: d1 (Q1.8) times the level decided before is subtracted (R131). -/
def dfeStream (d1 : Int) (prev : Int) : List Int → List Int
  | [] => []
  | y :: ys =>
    let v := saturate9 (y - roundOpen 0 (d1 * prev) 256)
    v :: dfeStream d1 (pamLevel (decideLevel v)) ys

/-! ## Sequence estimator (R135, R136) -/

/-- Squared difference of an FFE output and the model output for levels a(k), a(k - 1), a(k - 2), in 2^-14 LSB²; T1 and T2
are Q1.7 (R135). -/
def branchMetric (t1 t2 y : Int) (a b c : Nat) : Nat :=
  let d := 128 * (y - pamLevel a) - t1 * pamLevel b - t2 * pamLevel c
  (d * d).toNat

/-- The least number of a list, 0 of none. -/
def leastOf : List Nat → Nat
  | [] => 0
  | a :: l => l.foldl min a

/-- State (b, c) of the trellis is element 4 b + c: a(k - 1) and a(k - 2) (R135). -/
def trellis : List (Nat × Nat) := (List.range 16).map (fun i => (i / 4, i % 4))

/-- Forward step: the metrics of the 16 states after an output. -/
def mlseForward (t1 t2 y : Int) (m : List Nat) : List Nat :=
  trellis.map (fun e => leastOf ((List.range 4).map (fun c => m.getD (4 * e.2 + c) 0 + branchMetric t1 t2 y e.1 e.2 c)))

/-- Backward step: the metrics of the 16 states before an output. -/
def mlseBackward (t1 t2 y : Int) (m : List Nat) : List Nat :=
  trellis.map (fun e => leastOf ((List.range 4).map (fun a => m.getD (4 * a + e.1) 0 + branchMetric t1 t2 y a e.1 e.2)))

/-- For each output of a run, the least metric over the whole run's paths of each of the four levels decided there; paths
start and end in any state (R135, R136). The second result is the backward metric of the run's start. -/
def mlseStream (t1 t2 : Int) (fwd : List Nat) : List Int → List (List Nat) × List Nat
  | [] => ([], List.replicate 16 0)
  | y :: ys =>
    let r := mlseStream t1 t2 (mlseForward t1 t2 y fwd) ys
    let here := (List.range 4).map (fun a => leastOf (trellis.map (fun e =>
      fwd.getD (4 * e.1 + e.2) 0 + branchMetric t1 t2 y a e.1 e.2 + r.2.getD (4 * a + e.1) 0)))
    (here :: r.1, mlseBackward t1 t2 y r.2)

/-- Twice the MSE times the soft value of a bit, in 2^-14 LSB²: the least metric with the bit 1 less the least with it 0
(R136). -/
def softNum (metrics : List Nat) (bitOf : Nat → Bool) : Int :=
  let least (b : Bool) : Int := leastOf (((List.range 4).filter (fun j => bitOf j = b)).map (fun j => metrics.getD j 0))
  least true - least false

/-! ## Soft decisions (R148 to R150) -/

/-- A 3-bit code: the hard decision in bit 2, the reliability in bits 1 and 0 (R148). -/
def llrCode (hard : Bool) (m : Nat) : Nat := 4 * bit hard + m

/-- How many thresholds (UQ8.2) a distance exceeds; one equal to it is not exceeded (R149). -/
def reliability (thr : List Nat) (d : Nat) : Nat := (thr.filter (fun t => t < 4 * d)).length

/-- The six bits of a symbol without the MLSE, the MSB's code above the LSB's (R148, R149). -/
def llrSlicer (thr : List Nat) (v : Int) : Nat :=
  let b := grayBits (decideLevel v)
  8 * llrCode b.1 (reliability thr v.natAbs) + llrCode b.2 (reliability thr ((v.natAbs : Int) - 64).natAbs)

/-- The code of a bit with the MLSE: |L| above an edge B (UQ4.4) counts, with the MSE in UQ16.8; on a tie of the paths the
hard decision is open (R136, R150, log entry 57). -/
def llrPath (edges : List Nat) (mse : Nat) (num : Int) : Nat :=
  let hard := decide (num < 0) || (decide (num = 0) && Config.openBit 1 num mse)
  llrCode hard (edges.filter (fun b => 2 * mse * b * 2 ^ 14 < num.natAbs * 2 ^ 12)).length

/-- The six bits of a symbol with the MLSE (R148, R150). -/
def llrMlse (edges : List Nat) (mse : Nat) (metrics : List Nat) : Nat :=
  8 * llrPath edges mse (softNum metrics (fun j => (grayBits j).1)) +
    llrPath edges mse (softNum metrics (fun j => (grayBits j).2))

/-- Six-bit symbols as one word, symbol s in bits 6 s + 5 to 6 s (R148). -/
def packSix : List Nat → Nat
  | [] => 0
  | c :: l => c % 64 + 64 * packSix l

/-- The code of bit `i` of a codeword in such a word: bit 2 j is the MSB of symbol j (R148, R191). -/
def llrOfBit (w i : Nat) : Nat := w / 2 ^ (6 * (i / 2) + (if i % 2 = 0 then 3 else 0)) % 8

/-- Symbols of warm-up before and of path memory after the codeword (R135). -/
def mlseMargin : Nat := 48

/-- The 2,048 six-bit symbols of a codeword whose samples run from 78 symbols before it to 58 after it. Without the MLSE the
decision feedback starts 48 symbols early from a plain decision (R128, R131, R135, R148 to R150, log entry 57). -/
def softWord (taps : List Int) (d1 : Int) (mlse : Option (Int × Int)) (thr edges : List Nat) (mse : Nat)
    (xs : List Int) : Nat :=
  let ys := ffeStream taps.reverse xs
  let six := match mlse with
    | some t => (mlseStream t.1 t.2 (List.replicate 16 0) ys).1.map (llrMlse edges mse)
    | none => (dfeStream d1 (pamLevel (decideLevel (ys.getD 0 0))) ys).map (llrSlicer thr)
  packSix ((List.range 2048).map (fun k => (six.drop mlseMargin).getD k 0))

end Sys2Proof.Machine
end

