-- ==== Sys2Proof/Machine/Decoder.lean ====
section
/-!
DEFINITION. What a decode engine computes of a codeword: internal LLRs, the layered normalised min-sum pass, hard decisions and
the syndrome, as plain functions (R222 to R224). Values are in units of 0.5.
-/
namespace Sys2Proof.Machine

/-- The posterior and check-message memories of an engine: 256 blocks of 16 posteriors, and for each row block of H the 16
messages of each non-zero block (R220, R222). -/
structure Decoding where
  post : List (List Int)
  msg : List (List (List Int))
deriving DecidableEq, Repr

/-- An engine with nothing loaded. -/
def Decoding.empty : Decoding := ⟨[], []⟩

/-- The internal LLR of an input code under a map of four magnitudes, lowest five bits for m = 0 (R223). -/
def internalLlr (map code : Nat) : Int :=
  let mag : Int := (map / 2 ^ (5 * (code % 4)) % 32 : Nat)
  if code / 4 % 2 = 0 then mag else -mag

/-- The input hard decisions of a codeword, as blocks of 16 bits (R148, R222). -/
def inputHard (llr : Nat) : List Nat :=
  (List.range 256).map (fun b => ((List.range 16).map (fun i => llrOfBit llr (16 * b + i) / 4 * 2 ^ i)).sum)

/-- Load: the LLRs, and messages of 0 (R222, step 1). -/
def decodeLoad (map llr : Nat) : Decoding :=
  ⟨(List.range 256).map (fun b => (List.range 16).map (fun i => internalLlr map (llrOfBit llr (16 * b + i)))),
   (List.range 15).map (fun r => (hRow r).map (fun _ => List.replicate 16 0))⟩

/-- The elements of a block as the checks of a row meet them: check i meets element (i + s) mod 16 (R192). -/
def rotateList (l : List Int) (s : Nat) : List Int := l.drop (s % 16) ++ l.take (s % 16)

/-- The magnitude of a check message: the least magnitude times NORM eighths, less OFFSET, at most 31; the rounding of the
eighths is open (R221, R222, log entry 57). -/
def messageSize (norm offset m : Nat) : Nat := min 31 ((roundOpen 3 (m * norm) 8).toNat - offset)

/-- The message of a check to one of its bits, from the values of its other bits (R222). -/
def checkMessage (norm offset : Nat) (others : List Int) : Int :=
  let size : Int := messageSize norm offset (leastOf (others.map Int.natAbs))
  if (others.filter (· < 0)).length % 2 = 0 then size else -size

/-- One layer: row block `r` of H (R222, step 2). Posteriors saturate at 63.5. -/
def decodeLayer (norm offset : Nat) (d : Decoding) (r : Nat) : Decoding :=
  let row := hRow r
  let old := d.msg.getD r []
  let vals := (row.zip old).map (fun e => List.zipWith (· - ·) (rotateList (d.post.getD e.1.1 []) e.1.2) e.2)
  let new := vals.zipIdx.map (fun v => (List.range 16).map (fun i =>
    checkMessage norm offset ((vals.eraseIdx v.2).map (fun w => w.getD i 0))))
  let post := (row.zip (vals.zip new)).foldl (fun p e => p.set e.1.1
    (rotateList (List.zipWith (fun a b => clampInt (-127) 127 (a + b)) e.2.1 e.2.2) (16 - e.1.2))) d.post
  ⟨post, d.msg.set r new⟩

/-- One iteration: the 15 layers in order (R222). -/
def decodeIteration (norm offset : Nat) (d : Decoding) : Decoding := (List.range 15).foldl (decodeLayer norm offset) d

/-- The hard decisions: the sign of a posterior, the input's decision where it is 0 (R222). -/
def hardDecision (d : Decoding) (input : List Nat) : List Nat :=
  (List.range 256).map (fun b => ((List.range 16).map (fun i =>
    let p := (d.post.getD b []).getD i 0
    (if 0 < p then 0 else if p < 0 then 1 else bit (bitOfWord input (16 * b + i))) * 2 ^ i)).sum)

/-- Bits in which two words of blocks differ (R224). -/
def bitsChanged (a b : List Nat) : Nat := (List.zipWith (fun x y => popCount 16 (x ^^^ y)) a b).sum

end Sys2Proof.Machine
end

