-- ==== Sys2Proof/Machine/Fields.lean ====
section
/-! DEFINITION. The register fields of the SLX-3208 and the state its rules name without giving it a register: one name each, with block, offset, bits, access type, reset value, range and shadowing (chapters 00 to 17, R505 to R507). A field of access `hid` has no address. -/
namespace Sys2Proof.Machine

/-- The register blocks of R505, with their lane, channel and cluster parts apart. -/
inductive Block where
  | glb
  | img
  | lrx
  | leq
  | ltx
  | lfr
  | arc
  | arcCl
  | hif
  | hifGlb
  | tim
  | timLn
  | timHost
  | clk
  | pll
  | optLn
  | optGlb
  | mon
  | monCh
  | optTbl
  | pwr
  | pwrLn
  | thm
  | hlt
  | hltLn
  | mgt
  | evf
  | sec
deriving DecidableEq, Repr

/-- Access types of R17; `hid` marks state without an address. -/
inductive Access where
  | ro | rw | w1c | w1s | wo | sc | lk | hid
deriving DecidableEq, Repr

set_option maxHeartbeats 1000000 in
/-- Every register field and every piece of unaddressed scalar state. -/
inductive Field where
  /-- GLB_STEPPING bits 31:16 (chapter 00, R13) -/
  | glbPart
  /-- GLB_STEPPING bits 11:8 (chapter 00, R13) -/
  | glbGrade
  /-- GLB_STEPPING bits 7:4 (chapter 00, R13) -/
  | glbStepMajor
  /-- GLB_STEPPING bits 3:0 (chapter 00, R13) -/
  | glbStepMinor
  /-- GLB_ISLAND_STATUS bits 23:23 (chapter 01, R40) -/
  | glbAonRun
  /-- GLB_ISLAND_STATUS bits 22:22 (chapter 01, R40) -/
  | glbMgmtRun
  /-- GLB_ISLAND_STATUS bits 21:21 (chapter 01, R40) -/
  | glbTimeRun
  /-- GLB_ISLAND_STATUS bits 20:20 (chapter 01, R40) -/
  | glbXbarRun
  /-- GLB_ISLAND_STATUS bits 19:16 (chapter 01, R40) -/
  | glbHostRun
  /-- GLB_ISLAND_STATUS bits 15:8 (chapter 01, R40) -/
  | glbDecodeRun
  /-- GLB_ISLAND_STATUS bits 7:0 (chapter 01, R40) -/
  | glbLaneRun
  /-- GLB_STRAIT_ERR bits 31:31 (chapter 01, R40) -/
  | glbStraitClr
  /-- GLB_STRAIT_ERR bits 23:16 (chapter 01, R40) -/
  | glbStraitLastId
  /-- GLB_STRAIT_ERR bits 15:0 (chapter 01, R40) -/
  | glbStraitOvfCount
  /-- IMG_CMD bits 31:31 (chapter 02, R81) -/
  | imgCmdGo
  /-- IMG_CMD bits 10:8 (chapter 02, R81) -/
  | imgCmdGroupLead
  /-- IMG_CMD bits 5:4 (chapter 02, R81) -/
  | imgCmdSlot
  /-- IMG_CMD bits 3:0 (chapter 02, R81) -/
  | imgCmdOp
  /-- IMG_STATUS bits 31:31 (chapter 02, R81) -/
  | imgCandidateValid
  /-- IMG_STATUS bits 30:30 (chapter 02, R81) -/
  | imgCandidateSlot
  /-- IMG_STATUS bits 26:24 (chapter 02, R81) -/
  | imgErrLane
  /-- IMG_STATUS bits 23:16 (chapter 02, R81) -/
  | imgErrSection
  /-- IMG_STATUS bits 15:8 (chapter 02, R81) -/
  | imgErr
  /-- IMG_STATUS bits 3:0 (chapter 02, R81) -/
  | imgState
  /-- IMG_ERR_DETAIL bits 23:23 (chapter 02, R81) -/
  | imgDetPool
  /-- IMG_ERR_DETAIL bits 22:22 (chapter 02, R81) -/
  | imgDetWhich
  /-- IMG_ERR_DETAIL bits 21:20 (chapter 02, R81) -/
  | imgDetProfile
  /-- IMG_ERR_DETAIL bits 19:16 (chapter 02, R81) -/
  | imgDetMid
  /-- IMG_ERR_DETAIL bits 15:8 (chapter 02, R81) -/
  | imgDetRequired
  /-- IMG_ERR_DETAIL bits 7:0 (chapter 02, R81) -/
  | imgDetConfigured
  /-- IMG_ACTIVE_INFO bits 31:16 (chapter 02, R81) -/
  | imgActiveFmtMinor
  /-- IMG_ACTIVE_INFO bits 15:8 (chapter 02, R81) -/
  | imgActiveFmtMajor
  /-- IMG_ACTIVE_INFO bits 1:1 (chapter 02, R81) -/
  | imgActiveFallback
  /-- IMG_ACTIVE_INFO bits 0:0 (chapter 02, R81) -/
  | imgActiveSlot
  /-- IMG_ACTIVE_SEQ bits 31:0 (chapter 02, R81) -/
  | imgActiveSeq
  /-- IMG_ACTIVE_SEQ bits 31:0 (chapter 02, R81) -/
  | imgCandSeq
  /-- IMG_ACTIVE_BUILD bits 63:0 (chapter 02, R81) -/
  | imgActiveBuild
  /-- IMG_PC_STATUS bits 31:31 (chapter 02, R81) -/
  | imgPcClr
  /-- IMG_PC_STATUS bits 26:24 (chapter 02, R81) -/
  | imgPcLastGroup
  /-- IMG_PC_STATUS bits 23:20 (chapter 02, R81) -/
  | imgPcCount
  /-- IMG_PC_STATUS bits 19:0 (chapter 02, R81) -/
  | imgPcDiscard
  /-- IMG_PC_LAST_RESUME bits 127:0 (chapter 02, R81) -/
  | imgPcLastResume
  /-- IMG_SKIP_COUNT bits 7:0 (chapter 02, R81) -/
  | imgSkipped
  /-- LRX_CTRL bits 31:31 (chapter 03, R124) -/
  | lrxCommit
  /-- LRX_CTRL bits 30:30 (chapter 03, R124) -/
  | lrxRestart
  /-- LRX_CTRL bits 29:29 (chapter 03, R124) -/
  | lrxCntClr
  /-- LRX_CTRL bits 5:5 (chapter 03, R124) -/
  | lrxWakePatEn
  /-- LRX_CTRL bits 4:4 (chapter 03, R124) -/
  | lrxWakeSdEn
  /-- LRX_CTRL bits 3:3 (chapter 03, R124) -/
  | lrxAutoRestart
  /-- LRX_CTRL bits 2:2 (chapter 03, R124) -/
  | lrxServiceEn
  /-- LRX_CTRL bits 0:0 (chapter 03, R124) -/
  | lrxEnable
  /-- LRX_STATE bits 27:24 (chapter 03, R124) -/
  | lrxFaultCause
  /-- LRX_STATE bits 19:16 (chapter 03, R124) -/
  | lrxRetry
  /-- LRX_STATE bits 12:12 (chapter 03, R124) -/
  | lrxSleep
  /-- LRX_STATE bits 11:11 (chapter 03, R124) -/
  | lrxSd
  /-- LRX_STATE bits 10:8 (chapter 03, R124) -/
  | lrxAgcState
  /-- LRX_STATE bits 7:7 (chapter 03, R124) -/
  | lrxCdrLock
  /-- LRX_STATE bits 6:4 (chapter 03, R124) -/
  | lrxAcqPhase
  /-- LRX_STATE bits 2:0 (chapter 03, R124) -/
  | lrxState
  /-- LRX_PRESET bits 12:8 (chapter 03, R124) -/
  | lrxOverride
  /-- LRX_PRESET bits 1:0 (chapter 03, R124) -/
  | lrxPreset
  /-- LRX_FE_CFG bits 16:16 (chapter 03, R124) -/
  | lrxVgaManEn
  /-- LRX_FE_CFG bits 15:8 (chapter 03, R124) -/
  | lrxVgaManCode
  /-- LRX_FE_CFG bits 3:0 (chapter 03, R124) -/
  | lrxCtlePeak
  /-- LRX_AGC_CFG bits 31:24 (chapter 03, R124) -/
  | lrxTrimRange
  /-- LRX_AGC_CFG bits 23:23 (chapter 03, R124) -/
  | lrxTrimEn
  /-- LRX_AGC_CFG bits 17:16 (chapter 03, R124) -/
  | lrxAgcSh
  /-- LRX_AGC_CFG bits 6:0 (chapter 03, R124) -/
  | lrxAgcTarget
  /-- LRX_AGC_STATUS bits 31:24 (chapter 03, R124) -/
  | lrxVgaCode
  /-- LRX_AGC_STATUS bits 23:16 (chapter 03, R124) -/
  | lrxTrim
  /-- LRX_AGC_STATUS bits 15:0 (chapter 03, R124) -/
  | lrxLevel
  /-- LRX_CAPTURE_CFG bits 15:8 (chapter 03, R124) -/
  | lrxSvcCaptureDb
  /-- LRX_CAPTURE_CFG bits 7:0 (chapter 03, R124) -/
  | lrxCaptureDb
  /-- LRX_OFS bits 16:16 (chapter 03, R124) -/
  | lrxOfsLimit
  /-- LRX_OFS bits 15:8 (chapter 03, R124) -/
  | lrxOfsCode
  /-- LRX_OFS bits 1:0 (chapter 03, R124) -/
  | lrxOfsBw
  /-- LRX_SD_CFG bits 16:16 (chapter 03, R124) -/
  | lrxHyst
  /-- LRX_SD_CFG bits 7:0 (chapter 03, R124) -/
  | lrxSdThresh
  /-- LRX_CDR_CFG bits 31:31 (chapter 03, R124) -/
  | lrxCdrHold
  /-- LRX_CDR_CFG bits 28:24 (chapter 03, R124) -/
  | lrxKiShTrk
  /-- LRX_CDR_CFG bits 19:16 (chapter 03, R124) -/
  | lrxKpShTrk
  /-- LRX_CDR_CFG bits 12:8 (chapter 03, R124) -/
  | lrxKiShAcq
  /-- LRX_CDR_CFG bits 3:0 (chapter 03, R124) -/
  | lrxKpShAcq
  /-- LRX_CDR_FREQ bits 23:0 (chapter 03, R124) -/
  | lrxCdrFreq
  /-- LRX_CDR_PHASE bits 31:0 (chapter 03, R124) -/
  | lrxCdrPhase
  /-- LRX_TMO_ACQ0 bits 31:16 (chapter 03, R124) -/
  | lrxCdrTmoUs
  /-- LRX_TMO_ACQ0 bits 15:0 (chapter 03, R124) -/
  | lrxAgcTmoUs
  /-- LRX_TMO_ACQ1 bits 31:16 (chapter 03, R124) -/
  | lrxFrameTmoUs
  /-- LRX_TMO_ACQ1 bits 15:0 (chapter 03, R124) -/
  | lrxFfeTmoUs
  /-- LRX_TMO_CAL bits 31:28 (chapter 03, R124) -/
  | lrxRetryMax
  /-- LRX_TMO_CAL bits 27:16 (chapter 03, R124) -/
  | lrxFaultHoldUs
  /-- LRX_TMO_CAL bits 15:0 (chapter 03, R124) -/
  | lrxCalTmoUs
  /-- LRX_TMO_TRAIN bits 19:0 (chapter 03, R124) -/
  | lrxTrainTmoUs
  /-- LRX_ADC_STATUS bits 26:26 (chapter 03, R124) -/
  | lrxSwapDeferred
  /-- LRX_ADC_STATUS bits 25:25 (chapter 03, R124) -/
  | lrxCalActive
  /-- LRX_ADC_STATUS bits 24:24 (chapter 03, R124) -/
  | lrxNoSpare
  /-- LRX_ADC_STATUS bits 22:16 (chapter 03, R124) -/
  | lrxAdcFailed
  /-- LRX_ADC_STATUS bits 14:8 (chapter 03, R124) -/
  | lrxAdcTarget
  /-- LRX_ADC_STATUS bits 6:0 (chapter 03, R124) -/
  | lrxAdcSpare
  /-- LRX_SLICE_SEL bits 21:16 (chapter 03, R124) -/
  | lrxSlicePos
  /-- LRX_SLICE_SEL bits 6:0 (chapter 03, R124) -/
  | lrxSliceSel
  /-- LRX_SLICE_CAL bits 31:28 (chapter 03, R124) -/
  | lrxSliceState
  /-- LRX_SLICE_CAL bits 27:18 (chapter 03, R124) -/
  | lrxSkew
  /-- LRX_SLICE_CAL bits 17:8 (chapter 03, R124) -/
  | lrxGain
  /-- LRX_SLICE_CAL bits 7:0 (chapter 03, R124) -/
  | lrxOffset
  /-- lrx bits 31:0 (chapter 03, R124) -/
  | lrxOvrCnt
  /-- lrx bits 31:16 (chapter 03, R124) -/
  | lrxCaptureSvcCnt
  /-- lrx bits 15:0 (chapter 03, R124) -/
  | lrxCdrLolCnt
  /-- lrx bits 31:16 (chapter 03, R124) -/
  | lrxSdLossCnt
  /-- lrx bits 15:8 (chapter 03, R124) -/
  | lrxAcqRetryCnt
  /-- lrx bits 7:0 (chapter 03, R124) -/
  | lrxAcqCaptureCnt
  /-- lrx bits 31:16 (chapter 03, R124) -/
  | lrxWarmFailCnt
  /-- lrx bits 15:0 (chapter 03, R124) -/
  | lrxLevelDropCnt
  /-- LEQ_CTRL bits 31:31 (chapter 04, R159) -/
  | leqCommit
  /-- LEQ_CTRL bits 30:30 (chapter 04, R159) -/
  | leqCoefSnap
  /-- LEQ_CTRL bits 29:29 (chapter 04, R159) -/
  | leqCntClr
  /-- LEQ_CTRL bits 28:28 (chapter 04, R159) -/
  | leqHistStart
  /-- LEQ_CTRL bits 0:0 (chapter 04, R159) -/
  | leqAdaptEn
  /-- LEQ_STATUS bits 12:12 (chapter 04, R159) -/
  | leqCkptValid
  /-- LEQ_STATUS bits 11:8 (chapter 04, R159) -/
  | leqHoldCause
  /-- LEQ_STATUS bits 6:6 (chapter 04, R159) -/
  | leqMlsePending
  /-- LEQ_STATUS bits 5:5 (chapter 04, R159) -/
  | leqMlseActive
  /-- LEQ_STATUS bits 4:4 (chapter 04, R159) -/
  | leqBlindConv
  /-- LEQ_STATUS bits 2:0 (chapter 04, R159) -/
  | leqMode
  /-- LEQ_PRESET bits 15:8 (chapter 04, R159) -/
  | leqOverride
  /-- LEQ_PRESET bits 1:0 (chapter 04, R159) -/
  | leqPreset
  /-- LEQ_ADAPT_CFG bits 26:24 (chapter 04, R159) -/
  | leqUpdSh
  /-- LEQ_ADAPT_CFG bits 20:16 (chapter 04, R159) -/
  | leqMuShDfe
  /-- LEQ_ADAPT_CFG bits 12:8 (chapter 04, R159) -/
  | leqMuShDd
  /-- LEQ_ADAPT_CFG bits 3:0 (chapter 04, R159) -/
  | leqMuShBlind
  /-- LEQ_DFE_CFG bits 31:31 (chapter 04, R159) -/
  | leqDfeEn
  /-- LEQ_DFE_CFG bits 7:0 (chapter 04, R159) -/
  | leqDfeMax
  /-- LEQ_DFE_STATUS bits 16:16 (chapter 04, R159) -/
  | leqAtLimit
  /-- LEQ_DFE_STATUS bits 8:0 (chapter 04, R159) -/
  | leqD1
  /-- LEQ_MLSE_CFG bits 31:31 (chapter 04, R159) -/
  | leqMlseEn
  /-- LEQ_MLSE_CFG bits 15:8 (chapter 04, R159) -/
  | leqMlseT2
  /-- LEQ_MLSE_CFG bits 7:0 (chapter 04, R159) -/
  | leqMlseT1
  /-- LEQ_LLR_CFG bits 31:31 (chapter 04, R159) -/
  | leqLlrAuto
  /-- LEQ_LLR_CFG bits 23:16 (chapter 04, R159) -/
  | leqB3
  /-- LEQ_LLR_CFG bits 15:8 (chapter 04, R159) -/
  | leqB2
  /-- LEQ_LLR_CFG bits 7:0 (chapter 04, R159) -/
  | leqB1
  /-- LEQ_LLR_THR bits 29:20 (chapter 04, R159) -/
  | leqThrT3
  /-- LEQ_LLR_THR bits 29:20 (chapter 04, R159) -/
  | leqThrActT3
  /-- LEQ_LLR_THR bits 19:10 (chapter 04, R159) -/
  | leqThrT2
  /-- LEQ_LLR_THR bits 19:10 (chapter 04, R159) -/
  | leqThrActT2
  /-- LEQ_LLR_THR bits 9:0 (chapter 04, R159) -/
  | leqThrT1
  /-- LEQ_LLR_THR bits 9:0 (chapter 04, R159) -/
  | leqThrActT1
  /-- LEQ_FOM_CFG bits 31:24 (chapter 04, R159) -/
  | leqEyeQ
  /-- LEQ_FOM_CFG bits 17:16 (chapter 04, R159) -/
  | leqFomWin
  /-- LEQ_FOM_CFG bits 15:0 (chapter 04, R159) -/
  | leqBlindFom
  /-- LEQ_FOM_LOCK0 bits 31:16 (chapter 04, R159) -/
  | leqFomLockEspresso
  /-- LEQ_FOM_LOCK0 bits 15:0 (chapter 04, R159) -/
  | leqFomLockRistretto
  /-- LEQ_FOM_LOCK1 bits 31:16 (chapter 04, R159) -/
  | leqFomLockCompat
  /-- LEQ_FOM_LOCK1 bits 15:0 (chapter 04, R159) -/
  | leqFomLockLungo
  /-- LEQ_FOM bits 31:31 (chapter 04, R159) -/
  | leqFomValid
  /-- LEQ_FOM bits 15:0 (chapter 04, R159) -/
  | leqFom
  /-- LEQ_MSE bits 23:0 (chapter 04, R159) -/
  | leqMse
  /-- LEQ_START bits 11:0 (chapter 04, R159) -/
  | leqStartMain
  /-- LEQ_LEVELk bits 31:16 (chapter 04, R159) -/
  | leqLevelSigma
  /-- LEQ_LEVELk bits 15:0 (chapter 04, R159) -/
  | leqLevelMean
  /-- LEQ_EYE bits 17:16 (chapter 04, R159) -/
  | leqEyeWorst
  /-- LEQ_EYE bits 15:0 (chapter 04, R159) -/
  | leqEyeMin
  /-- LEQ_HIST_CFG bits 31:31 (chapter 04, R159) -/
  | leqHistDone
  /-- LEQ_HIST_CFG bits 8:8 (chapter 04, R159) -/
  | leqHistSrc
  /-- LEQ_HIST_CFG bits 4:0 (chapter 04, R159) -/
  | leqHistLen
  /-- leq bits 31:16 (chapter 04, R159) -/
  | leqDivergeCnt
  /-- leq bits 15:0 (chapter 04, R159) -/
  | leqFomLowCnt
  /-- leq bits 31:0 (chapter 04, R159) -/
  | leqDfeBurstCnt
  /-- LEQ_FFE_TAPi bits 31:31 (chapter 04, R159) -/
  | leqTapFreeze
  /-- LEQ_FFE_TAPi bits 11:0 (chapter 04, R159) -/
  | leqTapCoef
  /-- LEQ_HISTb bits 31:0 (chapter 04, R159) -/
  | leqHist
  /-- LTX_CTRL bits 31:31 (chapter 05, R190) -/
  | ltxCommit
  /-- LTX_CTRL bits 30:30 (chapter 05, R190) -/
  | ltxCntClr
  /-- LTX_CTRL bits 29:29 (chapter 05, R190) -/
  | ltxRestart
  /-- LTX_CTRL bits 28:28 (chapter 05, R190) -/
  | ltxWakeSend
  /-- LTX_CTRL bits 2:2 (chapter 05, R190) -/
  | ltxAutoRestart
  /-- LTX_CTRL bits 0:0 (chapter 05, R190) -/
  | ltxTxEn
  /-- LTX_STATE bits 27:24 (chapter 05, R190) -/
  | ltxFaultCause
  /-- LTX_STATE bits 19:16 (chapter 05, R190) -/
  | ltxHoldReason
  /-- LTX_STATE bits 13:12 (chapter 05, R190) -/
  | ltxSleep
  /-- LTX_STATE bits 8:8 (chapter 05, R190) -/
  | ltxTxenPending
  /-- LTX_STATE bits 3:0 (chapter 05, R190) -/
  | ltxState
  /-- LTX_PRESET bits 9:8 (chapter 05, R190) -/
  | ltxOverride
  /-- LTX_PRESET bits 1:0 (chapter 05, R190) -/
  | ltxPreset
  /-- LTX_SEQ_CFG0 bits 31:16 (chapter 05, R190) -/
  | ltxLsrSettleUs
  /-- LTX_SEQ_CFG0 bits 15:0 (chapter 05, R190) -/
  | ltxDrvSettleUs
  /-- LTX_SEQ_CFG1 bits 31:16 (chapter 05, R190) -/
  | ltxTxenTmoUs
  /-- LTX_SEQ_CFG1 bits 15:0 (chapter 05, R190) -/
  | ltxFaultHoldUs
  /-- LTX_SEQ_CFG2 bits 9:0 (chapter 05, R190) -/
  | ltxDrvHoldUs
  /-- LTX_PAT_CFG bits 24:24 (chapter 05, R190) -/
  | ltxPrecodeAct
  /-- LTX_PAT_CFG bits 16:16 (chapter 05, R190) -/
  | ltxPolInv
  /-- LTX_PAT_CFG bits 15:8 (chapter 05, R190) -/
  | ltxWakeBursts
  /-- LTX_PAT_CFG bits 5:4 (chapter 05, R190) -/
  | ltxPatLevel
  /-- LTX_PAT_CFG bits 2:0 (chapter 05, R190) -/
  | ltxPatSel
  /-- LTX_LUT_CFG bits 0:0 (chapter 05, R190) -/
  | ltxLutEn
  /-- LTX_DAC_STATUS bits 26:26 (chapter 05, R190) -/
  | ltxSwapDeferred
  /-- LTX_DAC_STATUS bits 25:25 (chapter 05, R190) -/
  | ltxCalActive
  /-- LTX_DAC_STATUS bits 24:24 (chapter 05, R190) -/
  | ltxNoSpare
  /-- LTX_DAC_STATUS bits 19:16 (chapter 05, R190) -/
  | ltxFailedCnt
  /-- LTX_DAC_STATUS bits 14:8 (chapter 05, R190) -/
  | ltxDacTarget
  /-- LTX_DAC_STATUS bits 7:0 (chapter 05, R190) -/
  | ltxNextIn
  /-- LTX_CELL_SEL bits 22:16 (chapter 05, R190) -/
  | ltxCellPos
  /-- LTX_CELL_SEL bits 7:0 (chapter 05, R190) -/
  | ltxCellSel
  /-- LTX_CELL_CAL bits 31:28 (chapter 05, R190) -/
  | ltxCellState
  /-- LTX_CELL_CAL bits 5:0 (chapter 05, R190) -/
  | ltxCellTrim
  /-- LTX_INTLV bits 6:0 (chapter 05, R190) -/
  | ltxIntlvSkew
  /-- LTX_MASK_CFG bits 31:31 (chapter 05, R190) -/
  | ltxMaskEn
  /-- LTX_MASK_CFG bits 30:30 (chapter 05, R190) -/
  | ltxMaskAct
  /-- LTX_MASK_CFG bits 19:16 (chapter 05, R190) -/
  | ltxMaskAvg
  /-- LTX_MASK_CFG bits 12:8 (chapter 05, R190) -/
  | ltxMaskSh
  /-- LTX_MASK_STATUS bits 31:31 (chapter 05, R190) -/
  | ltxMaskValid
  /-- LTX_MASK_STATUS bits 30:30 (chapter 05, R190) -/
  | ltxMaskViol
  /-- LTX_MASK_STATUS bits 21:16 (chapter 05, R190) -/
  | ltxMaskWorstBin
  /-- LTX_MASK_STATUS bits 15:0 (chapter 05, R190) -/
  | ltxMaskWorstExcess
  /-- ltx bits 31:0 (chapter 05, R190) -/
  | ltxClipCnt
  /-- ltx bits 31:16 (chapter 05, R190) -/
  | ltxMaskViolCnt
  /-- ltx bits 15:0 (chapter 05, R190) -/
  | ltxFaultCnt
  /-- ltx bits 31:16 (chapter 05, R190) -/
  | ltxDrvFltCnt
  /-- ltx bits 15:0 (chapter 05, R190) -/
  | ltxWakeSent
  /-- LTX_FIR_TAPi bits 11:0 (chapter 05, R190) -/
  | ltxFirTap
  /-- LTX_LUTw bits 31:24 (chapter 05, R190) -/
  | ltxLut3
  /-- LTX_LUTw bits 23:16 (chapter 05, R190) -/
  | ltxLut2
  /-- LTX_LUTw bits 15:8 (chapter 05, R190) -/
  | ltxLut1
  /-- LTX_LUTw bits 7:0 (chapter 05, R190) -/
  | ltxLut0
  /-- LTX_MASK_LIMw bits 31:16 (chapter 05, R190) -/
  | ltxMaskLimOdd
  /-- LTX_MASK_LIMw bits 31:16 (chapter 05, R190) -/
  | ltxMaskBinOdd
  /-- LTX_MASK_LIMw bits 15:0 (chapter 05, R190) -/
  | ltxMaskLimEven
  /-- LTX_MASK_LIMw bits 15:0 (chapter 05, R190) -/
  | ltxMaskBinEven
  /-- LFR_CTRL bits 31:31 (chapter 06, R219) -/
  | lfrCntClr
  /-- LFR_CTRL bits 30:30 (chapter 06, R219) -/
  | lfrReneg
  /-- LFR_CTRL bits 5:5 (chapter 06, R219) -/
  | lfrTapAccept
  /-- LFR_CTRL bits 4:4 (chapter 06, R219) -/
  | lfrDjPrecode
  /-- LFR_CTRL bits 3:3 (chapter 06, R219) -/
  | lfrCompatEn
  /-- LFR_CTRL bits 2:2 (chapter 06, R219) -/
  | lfrNativeEn
  /-- LFR_STATUS bits 31:28 (chapter 06, R219) -/
  | lfrNegState
  /-- LFR_STATUS bits 27:24 (chapter 06, R219) -/
  | lfrNegErr
  /-- LFR_STATUS bits 21:21 (chapter 06, R219) -/
  | lfrNoRate
  /-- LFR_STATUS bits 20:20 (chapter 06, R219) -/
  | lfrGroupWait
  /-- LFR_STATUS bits 19:19 (chapter 06, R219) -/
  | lfrDiscRate
  /-- LFR_STATUS bits 11:11 (chapter 06, R219) -/
  | lfrFillRx
  /-- LFR_STATUS bits 10:10 (chapter 06, R219) -/
  | lfrFillTx
  /-- LFR_STATUS bits 9:9 (chapter 06, R219) -/
  | lfrShadowValid
  /-- LFR_STATUS bits 8:8 (chapter 06, R219) -/
  | lfrFrameLock
  /-- LFR_NEG_RESULT bits 31:28 (chapter 06, R219) -/
  | lfrResVer
  /-- LFR_NEG_RESULT bits 27:26 (chapter 06, R219) -/
  | lfrResMode
  /-- LFR_NEG_RESULT bits 25:24 (chapter 06, R219) -/
  | lfrResProfile
  /-- LFR_NEG_RESULT bits 23:22 (chapter 06, R219) -/
  | lfrResIcris
  /-- LFR_NEG_RESULT bits 21:21 (chapter 06, R219) -/
  | lfrResPrecodeTx
  /-- LFR_NEG_RESULT bits 20:20 (chapter 06, R219) -/
  | lfrResPrecodeRx
  /-- LFR_NEG_RESULT bits 19:18 (chapter 06, R219) -/
  | lfrResPartner
  /-- LFR_PARTNER_PAGEw bits 31:0 (chapter 06, R219) -/
  | lfrPartnerPage
  /-- LFR_PROFILE bits 31:31 (chapter 06, R219) -/
  | lfrProfChange
  /-- LFR_PROFILE bits 30:30 (chapter 06, R219) -/
  | lfrProfAsym
  /-- LFR_PROFILE bits 29:28 (chapter 06, R219) -/
  | lfrProfActive
  /-- LFR_PROFILE bits 27:24 (chapter 06, R219) -/
  | lfrProfStatus
  /-- LFR_PROFILE bits 23:23 (chapter 06, R219) -/
  | lfrProfSide
  /-- LFR_PROFILE bits 22:22 (chapter 06, R219) -/
  | lfrProfBusyRefused
  /-- LFR_PROFILE bits 1:0 (chapter 06, R219) -/
  | lfrProfReq
  /-- LFR_HUNT_CFG bits 24:16 (chapter 06, R219) -/
  | lfrMarkGood
  /-- LFR_HUNT_CFG bits 8:0 (chapter 06, R219) -/
  | lfrMarkCand
  /-- LFR_HUNT_STATUS bits 31:31 (chapter 06, R219) -/
  | lfrH1Valid
  /-- LFR_HUNT_STATUS bits 29:28 (chapter 06, R219) -/
  | lfrH1Count
  /-- LFR_HUNT_STATUS bits 24:16 (chapter 06, R219) -/
  | lfrH1Match
  /-- LFR_HUNT_STATUS bits 8:0 (chapter 06, R219) -/
  | lfrH2Match
  /-- LFR_NEG_TMO bits 19:16 (chapter 06, R219) -/
  | lfrNegRetryMax
  /-- LFR_NEG_TMO bits 15:0 (chapter 06, R219) -/
  | lfrNegTmoUs
  /-- LFR_HELLO_TMO bits 19:0 (chapter 06, R219) -/
  | lfrHelloTmoUs
  /-- LFR_FRAME_CNT bits 31:16 (chapter 06, R219) -/
  | lfrFrameRx
  /-- LFR_FRAME_CNT bits 15:0 (chapter 06, R219) -/
  | lfrFrameTx
  /-- lfr bits 31:16 (chapter 06, R219) -/
  | lfrMarkBadCnt
  /-- lfr bits 15:0 (chapter 06, R219) -/
  | lfrLolCnt
  /-- lfr bits 31:16 (chapter 06, R219) -/
  | lfrFrameSlipCnt
  /-- lfr bits 15:0 (chapter 06, R219) -/
  | lfrRenegRxCnt
  /-- lfr bits 31:0 (chapter 06, R219) -/
  | lfrSvcCorrCnt
  /-- lfr bits 31:16 (chapter 06, R219) -/
  | lfrSvcFailCnt
  /-- lfr bits 15:0 (chapter 06, R219) -/
  | lfrSvcCrcCnt
  /-- lfr bits 31:16 (chapter 06, R219) -/
  | lfrFillRxCnt
  /-- lfr bits 15:0 (chapter 06, R219) -/
  | lfrMsgUnknownCnt
  /-- lfr bits 31:0 (chapter 06, R219) -/
  | lfrPcDiscardCnt
  /-- ARC_CTRL bits 31:31 (chapter 07, R249) -/
  | arcCntClr
  /-- ARC_CTRL bits 3:3 (chapter 07, R249) -/
  | arcStealEn
  /-- ARC_CTRL bits 2:2 (chapter 07, R249) -/
  | arcThermalNosteal
  /-- ARC_CTRL bits 1:0 (chapter 07, R249) -/
  | arcThreshStep
  /-- ARC_ATC bits 31:0 (chapter 07, R249) -/
  | arcAtc
  /-- ARC_POOL bits 23:16 (chapter 07, R249) -/
  | arcPoolFailed
  /-- ARC_POOL bits 15:8 (chapter 07, R249) -/
  | arcPoolOut
  /-- ARC_POOL bits 7:0 (chapter 07, R249) -/
  | arcPoolIn
  /-- ARC_ENG_FAILEDw bits 31:0 (chapter 07, R249) -/
  | arcEngFailedMap
  /-- ARC_ENG_FAILEDw bits 31:0 (chapter 07, R249) -/
  | arcEngBistMap
  /-- ARC_ENG_SEL bits 6:0 (chapter 07, R249) -/
  | arcEngSel
  /-- ARC_ENG_STATUS bits 31:28 (chapter 07, R249) -/
  | arcEngState
  /-- ARC_ENG_STATUS bits 26:24 (chapter 07, R249) -/
  | arcEngLane
  /-- ARC_ENG_STATUS bits 23:16 (chapter 07, R249) -/
  | arcEngIndex
  /-- ARC_ENG_STATUS bits 15:12 (chapter 07, R249) -/
  | arcEngIter
  /-- ARC_ENG_STATUS bits 11:11 (chapter 07, R249) -/
  | arcEngReserve
  /-- ARC_ENG_STATUS bits 10:10 (chapter 07, R249) -/
  | arcEngHeld
  /-- ARC_ENG_STATUS bits 7:0 (chapter 07, R249) -/
  | arcEngEcc1
  /-- ARC_INT_STATUS bits 7:0 (chapter 07, R249) -/
  | arcIntCluster
  /-- ARC_CL_CFG bits 31:31 (chapter 07, R249) -/
  | arcClCntClr
  /-- ARC_CL_CFG bits 15:12 (chapter 07, R249) -/
  | arcClIterLimitL
  /-- ARC_CL_CFG bits 11:8 (chapter 07, R249) -/
  | arcClIterLimitE
  /-- ARC_CL_LLR_MAP bits 19:15 (chapter 07, R249) -/
  | arcClMag3
  /-- ARC_CL_LLR_MAP bits 14:10 (chapter 07, R249) -/
  | arcClMag2
  /-- ARC_CL_LLR_MAP bits 9:5 (chapter 07, R249) -/
  | arcClMag1
  /-- ARC_CL_LLR_MAP bits 4:0 (chapter 07, R249) -/
  | arcClMag0
  /-- ARC_CL_STEAL bits 29:24 (chapter 07, R249) -/
  | arcClThreshEff
  /-- ARC_CL_STEAL bits 21:16 (chapter 07, R249) -/
  | arcClStealThresh
  /-- ARC_CL_STEAL bits 10:8 (chapter 07, R249) -/
  | arcClReachCcw
  /-- ARC_CL_STEAL bits 2:0 (chapter 07, R249) -/
  | arcClReachCw
  /-- ARC_CL_STATUS bits 31:30 (chapter 07, R249) -/
  | arcClPoint
  /-- ARC_CL_STATUS bits 29:29 (chapter 07, R249) -/
  | arcClThermal
  /-- ARC_CL_STATUS bits 28:28 (chapter 07, R249) -/
  | arcClIsolated
  /-- ARC_CL_STATUS bits 27:27 (chapter 07, R249) -/
  | arcClHomeLow
  /-- ARC_CL_STATUS bits 26:26 (chapter 07, R249) -/
  | arcClQFull
  /-- ARC_CL_STATUS bits 22:16 (chapter 07, R249) -/
  | arcClQHwm
  /-- ARC_CL_STATUS bits 14:8 (chapter 07, R249) -/
  | arcClQDepth
  /-- ARC_CL_STATUS bits 4:0 (chapter 07, R249) -/
  | arcClBusy
  /-- ARC_CL_BG bits 31:16 (chapter 07, R249) -/
  | arcClRefreshMs
  /-- ARC_CL_BG bits 15:0 (chapter 07, R249) -/
  | arcClHistMs
  /-- ARC_CL_BG_STATUS bits 31:24 (chapter 07, R249) -/
  | arcClAgeMax
  /-- ARC_CL_BG_STATUS bits 18:16 (chapter 07, R249) -/
  | arcClPending
  /-- ARC_CL_BG_STATUS bits 15:8 (chapter 07, R249) -/
  | arcClPreempt
  /-- ARC_CL_BG_STATUS bits 0:0 (chapter 07, R249) -/
  | arcClStarveBlocked
  /-- ARC_CL_HOLD bits 19:0 (chapter 07, R249) -/
  | arcClHoldUi
  /-- ARC_CL_DEPTH bits 22:16 (chapter 07, R249) -/
  | arcClReleaseBuf
  /-- ARC_CL_DEPTH bits 6:0 (chapter 07, R249) -/
  | arcClHomeQ
  /-- arcCl bits 31:0 (chapter 07, R249) -/
  | arcClDecodedCnt
  /-- arcCl bits 31:0 (chapter 07, R249) -/
  | arcClUncorrCnt
  /-- arcCl bits 31:16 (chapter 07, R249) -/
  | arcClExpRunCnt
  /-- arcCl bits 15:0 (chapter 07, R249) -/
  | arcClExpQCnt
  /-- arcCl bits 31:0 (chapter 07, R249) -/
  | arcClStolenOutCnt
  /-- arcCl bits 31:0 (chapter 07, R249) -/
  | arcClStolenInCnt
  /-- arcCl bits 31:16 (chapter 07, R249) -/
  | arcClRaceLostCnt
  /-- arcCl bits 15:8 (chapter 07, R249) -/
  | arcClRbMissCnt
  /-- arcCl bits 7:0 (chapter 07, R249) -/
  | arcClRbLateCnt
  /-- arcCl bits 31:0 (chapter 07, R249) -/
  | arcClCorrBitsCnt
  /-- arcCl bits 31:0 (chapter 07, R249) -/
  | arcClIterSumCnt
  /-- ARC_CL_HISTi bits 31:0 (chapter 07, R249) -/
  | arcClHist
  /-- HIF_CTRL bits 31:31 (chapter 08, R284) -/
  | hifCommit
  /-- HIF_CTRL bits 30:30 (chapter 08, R284) -/
  | hifCntClr
  /-- HIF_CTRL bits 29:29 (chapter 08, R284) -/
  | hifRetrain
  /-- HIF_CTRL bits 28:28 (chapter 08, R284) -/
  | hifSlipCmd
  /-- HIF_CTRL bits 19:19 (chapter 08, R284) -/
  | hifSlipDir
  /-- HIF_CTRL bits 15:8 (chapter 08, R284) -/
  | hifSlipBits
  /-- HIF_CTRL bits 7:7 (chapter 08, R284) -/
  | hifAlignDone
  /-- HIF_CTRL bits 5:5 (chapter 08, R284) -/
  | hifRxPolInv
  /-- HIF_CTRL bits 4:4 (chapter 08, R284) -/
  | hifTxPolInv
  /-- HIF_CTRL bits 3:3 (chapter 08, R284) -/
  | hifAutoRestart
  /-- HIF_CTRL bits 0:0 (chapter 08, R284) -/
  | hifEnable
  /-- HIF_STATE bits 27:24 (chapter 08, R284) -/
  | hifFaultCause
  /-- HIF_STATE bits 23:22 (chapter 08, R284) -/
  | hifSleepTx
  /-- HIF_STATE bits 21:20 (chapter 08, R284) -/
  | hifSleepRx
  /-- HIF_STATE bits 16:16 (chapter 08, R284) -/
  | hifRate
  /-- HIF_STATE bits 15:12 (chapter 08, R284) -/
  | hifTrnRetry
  /-- HIF_STATE bits 7:7 (chapter 08, R284) -/
  | hifAmLock
  /-- HIF_STATE bits 6:6 (chapter 08, R284) -/
  | hifCdrLock
  /-- HIF_STATE bits 5:5 (chapter 08, R284) -/
  | hifRxReady
  /-- HIF_STATE bits 4:4 (chapter 08, R284) -/
  | hifTxReady
  /-- HIF_STATE bits 2:0 (chapter 08, R284) -/
  | hifState
  /-- HIF_PRESET bits 11:8 (chapter 08, R284) -/
  | hifOverride
  /-- HIF_PRESET bits 1:0 (chapter 08, R284) -/
  | hifPreset
  /-- HIF_RX_CFG bits 31:31 (chapter 08, R284) -/
  | hifAdaptEn
  /-- HIF_RX_CFG bits 29:28 (chapter 08, R284) -/
  | hifFomWin
  /-- HIF_RX_CFG bits 24:24 (chapter 08, R284) -/
  | hifDfeEn
  /-- HIF_RX_CFG bits 20:16 (chapter 08, R284) -/
  | hifCtleMax
  /-- HIF_RX_CFG bits 12:8 (chapter 08, R284) -/
  | hifCtleMin
  /-- HIF_RX_CFG bits 7:7 (chapter 08, R284) -/
  | hifCtleManEn
  /-- HIF_RX_CFG bits 4:0 (chapter 08, R284) -/
  | hifCtleManCode
  /-- HIF_RX_STATUS bits 31:31 (chapter 08, R284) -/
  | hifRxValid
  /-- HIF_RX_STATUS bits 28:24 (chapter 08, R284) -/
  | hifRxCtle
  /-- HIF_RX_STATUS bits 15:0 (chapter 08, R284) -/
  | hifRxFom
  /-- HIF_DFE bits 24:16 (chapter 08, R284) -/
  | hifDfeD2
  /-- HIF_DFE bits 8:0 (chapter 08, R284) -/
  | hifDfeD1
  /-- HIF_CDR_CFG bits 28:24 (chapter 08, R284) -/
  | hifKiSh
  /-- HIF_CDR_CFG bits 19:16 (chapter 08, R284) -/
  | hifKpSh
  /-- HIF_CDR_CFG bits 15:0 (chapter 08, R284) -/
  | hifRelockUs
  /-- HIF_CDR_FREQ bits 23:0 (chapter 08, R284) -/
  | hifCdrFreq
  /-- HIF_TRN_CFG bits 31:31 (chapter 08, R284) -/
  | hifTrnEn
  /-- HIF_TRN_CFG bits 30:24 (chapter 08, R284) -/
  | hifTrnMaxReq
  /-- HIF_TRN_CFG bits 19:16 (chapter 08, R284) -/
  | hifTrnRetryMax
  /-- HIF_TRN_CFG bits 15:0 (chapter 08, R284) -/
  | hifAlignTmoUs
  /-- HIF_FOM_READY bits 19:16 (chapter 08, R284) -/
  | hifInitPreset
  /-- HIF_FOM_READY bits 15:0 (chapter 08, R284) -/
  | hifFomReady
  /-- HIF_TX_TAPi bits 11:0 (chapter 08, R284) -/
  | hifTxTap
  /-- HIF_SLIP bits 16:16 (chapter 08, R284) -/
  | hifSlipLimit
  /-- HIF_SLIP bits 13:0 (chapter 08, R284) -/
  | hifSlipPos
  /-- HIF_ALIGN_WORD bits 31:0 (chapter 08, R284) -/
  | hifAlignWord
  /-- HIF_ALIGN_MASK bits 31:0 (chapter 08, R284) -/
  | hifAlignMask
  /-- HIF_PAT bits 18:16 (chapter 08, R284) -/
  | hifTxPat
  /-- HIF_PAT bits 10:8 (chapter 08, R284) -/
  | hifRxChk
  /-- HIF_PAT bits 0:0 (chapter 08, R284) -/
  | hifChkLock
  /-- hif bits 31:16 (chapter 08, R284) -/
  | hifCdrLolCnt
  /-- hif bits 15:0 (chapter 08, R284) -/
  | hifAmLolCnt
  /-- hif bits 31:16 (chapter 08, R284) -/
  | hifTrnFailCnt
  /-- hif bits 15:0 (chapter 08, R284) -/
  | hifAlignHitsCnt
  /-- hif bits 31:0 (chapter 08, R284) -/
  | hifPrbsErrCnt
  /-- hif bits 15:0 (chapter 08, R284) -/
  | hifWarmFailCnt
  /-- HIF_GLB_CTRL bits 31:31 (chapter 08, R284) -/
  | hifGlbCntClr
  /-- HIF_GLB_CTRL bits 7:0 (chapter 08, R284) -/
  | hifGlbEhmEn
  /-- HIF_EHM_TMO bits 31:16 (chapter 08, R284) -/
  | hifGlbEhmTrnTmoMs
  /-- HIF_EHM_STATUS bits 31:0 (chapter 08, R284) -/
  | hifGlbEhmState
  /-- HIF_EHM_FB bits 15:0 (chapter 08, R284) -/
  | hifGlbEhmFbCount
  /-- HIF_XBAR_MAPn bits 18:17 (chapter 08, R284) -/
  | hifGlbMapGbMode
  /-- HIF_XBAR_MAPn bits 12:12 (chapter 08, R284) -/
  | hifGlbMapBValid
  /-- HIF_XBAR_MAPn bits 11:8 (chapter 08, R284) -/
  | hifGlbMapHostB
  /-- HIF_XBAR_MAPn bits 3:0 (chapter 08, R284) -/
  | hifGlbMapHostA
  /-- HIF_PAIRn bits 31:31 (chapter 08, R284) -/
  | hifGlbPairReady
  /-- HIF_PAIRn bits 30:30 (chapter 08, R284) -/
  | hifGlbPairDeskewOvr
  /-- HIF_PAIRn bits 29:29 (chapter 08, R284) -/
  | hifGlbPairAmLockIng
  /-- HIF_PAIRn bits 15:0 (chapter 08, R284) -/
  | hifGlbPairSkew
  /-- HIF_PAIR_HITSn bits 15:0 (chapter 08, R284) -/
  | hifGlbPairHits
  /-- HIF_RSMON bits 31:0 (chapter 08, R284) -/
  | hifGlbRsCwTotalLo
  /-- HIF_RSMON bits 15:0 (chapter 08, R284) -/
  | hifGlbRsCwTotalHi
  /-- HIF_RSMON bits 31:0 (chapter 08, R284) -/
  | hifGlbRsCwCorr
  /-- HIF_RSMON bits 31:0 (chapter 08, R284) -/
  | hifGlbRsCwUncorr
  /-- HIF_RSMON bits 31:0 (chapter 08, R284) -/
  | hifGlbRsSymErr
  /-- HIF_RSMON bits 1:1 (chapter 08, R284) -/
  | hifGlbRsMonSkew
  /-- HIF_RSMON bits 0:0 (chapter 08, R284) -/
  | hifGlbRsMonLock
  /-- HIF_GLB_INT_STATUS bits 31:16 (chapter 08, R284) -/
  | hifGlbIntLane
  /-- TIM_CTRL bits 31:31 (chapter 09, R318) -/
  | timCntClr
  /-- TIM_CTRL bits 1:1 (chapter 09, R318) -/
  | timRngEn
  /-- TIM_CTRL bits 0:0 (chapter 09, R318) -/
  | timTsEn
  /-- TIM_STATUS bits 5:5 (chapter 09, R318) -/
  | timTsInvalid
  /-- TIM_STATUS bits 4:4 (chapter 09, R318) -/
  | timSlewing
  /-- TIM_STATUS bits 3:3 (chapter 09, R318) -/
  | timDriftValid
  /-- TIM_STATUS bits 2:2 (chapter 09, R318) -/
  | timCalValid
  /-- TIM_STATUS bits 1:1 (chapter 09, R318) -/
  | timSuspect
  /-- TIM_STATUS bits 0:0 (chapter 09, R318) -/
  | timTodValid
  /-- TIM_TOD bits 127:0 (chapter 09, R318) -/
  | timTod
  /-- TIM_TOD bits 127:0 (chapter 09, R318) -/
  | timTodSet
  /-- TIM_TOD_CMD bits 31:31 (chapter 09, R318) -/
  | timTodGo
  /-- TIM_TOD_CMD bits 15:8 (chapter 09, R318) -/
  | timSlewPpm
  /-- TIM_TOD_CMD bits 1:0 (chapter 09, R318) -/
  | timTodOp
  /-- TIM_TOD_ADJ_NS bits 31:0 (chapter 09, R318) -/
  | timAdjNs
  /-- TIM_TOD_ADJ_FRAC bits 15:0 (chapter 09, R318) -/
  | timAdjFrac
  /-- TIM_FREQ bits 31:0 (chapter 09, R318) -/
  | timFreq
  /-- TIM_DPLL_CFG bits 31:16 (chapter 09, R318) -/
  | timDpllLockNs
  /-- TIM_DPLL_CFG bits 12:12 (chapter 09, R318) -/
  | timDpllStepEn
  /-- TIM_DPLL_CFG bits 11:8 (chapter 09, R318) -/
  | timDpllBw
  /-- TIM_DPLL_CFG bits 6:4 (chapter 09, R318) -/
  | timDpllLinkLane
  /-- TIM_DPLL_CFG bits 1:0 (chapter 09, R318) -/
  | timDpllSrc
  /-- TIM_DPLL_STATUS bits 7:4 (chapter 09, R318) -/
  | timDpllBwAct
  /-- TIM_DPLL_STATUS bits 3:3 (chapter 09, R318) -/
  | timDpllBwClamped
  /-- TIM_DPLL_STATUS bits 2:0 (chapter 09, R318) -/
  | timDpllState
  /-- TIM_DPLL_PHASE bits 31:0 (chapter 09, R318) -/
  | timDpllPhasePs
  /-- TIM_IN_CFG bits 31:31 (chapter 09, R318) -/
  | timInEn
  /-- TIM_IN_CFG bits 30:30 (chapter 09, R318) -/
  | timInEdge
  /-- TIM_IN_CFG bits 9:0 (chapter 09, R318) -/
  | timInPeriodMs
  /-- TIM_OUT_CFG bits 31:31 (chapter 09, R318) -/
  | timOutEn
  /-- TIM_OUT_CFG bits 30:30 (chapter 09, R318) -/
  | timOutPol
  /-- TIM_OUT_CFG bits 25:16 (chapter 09, R318) -/
  | timOutPeriodMs
  /-- TIM_OUT_CFG bits 15:0 (chapter 09, R318) -/
  | timOutWidthUs
  /-- TIM_IO_OFS bits 31:16 (chapter 09, R318) -/
  | timInOfsPs
  /-- TIM_IO_OFS bits 15:0 (chapter 09, R318) -/
  | timOutOfsPs
  /-- TIM_IN_TS bits 127:0 (chapter 09, R318) -/
  | timInTs
  /-- TIM_TSF_DATA5 bits 31:31 (chapter 09, R318) -/
  | timTsfNotValid
  /-- TIM_TSF_DATA5 bits 27:24 (chapter 09, R318) -/
  | timTsfKind
  /-- TIM_TSF_DATA5 bits 19:16 (chapter 09, R318) -/
  | timTsfIndex
  /-- TIM_TSF_DATA5 bits 9:9 (chapter 09, R318) -/
  | timTsfLostBefore
  /-- TIM_TSF_DATA5 bits 8:8 (chapter 09, R318) -/
  | timTsfSuspect
  /-- TIM_TSF_DATA5 bits 127:0 (chapter 09, R318) -/
  | timTsfTs
  /-- TIM_TSF_DATA5 bits 15:0 (chapter 09, R318) -/
  | timTsfFrame
  /-- TIM_TSF_CFG bits 31:31 (chapter 09, R318) -/
  | timTsfFlush
  /-- TIM_TSF_CFG bits 20:16 (chapter 09, R318) -/
  | timTsfDecim
  /-- TIM_TSF_CFG bits 12:8 (chapter 09, R318) -/
  | timTsfKinds
  /-- TIM_TSF_CFG bits 7:0 (chapter 09, R318) -/
  | timTsfLanes
  /-- TIM_TSF_STATUS bits 7:0 (chapter 09, R318) -/
  | timTsfLevel
  /-- TIM_RNG_CFG0 bits 17:0 (chapter 09, R318) -/
  | timLambda0
  /-- TIM_RNG_CFG1 bits 31:16 (chapter 09, R318) -/
  | timAsymTolNs
  /-- TIM_RNG_CFG1 bits 15:0 (chapter 09, R318) -/
  | timS0
  /-- TIM_RNG_STATUS bits 31:31 (chapter 09, R318) -/
  | timRngAvail
  /-- TIM_RNG_STATUS bits 30:30 (chapter 09, R318) -/
  | timRngCheckFail
  /-- TIM_RNG_STATUS bits 7:0 (chapter 09, R318) -/
  | timRngSet
  /-- TIM_RNG_LEN bits 31:16 (chapter 09, R318) -/
  | timRngLenTxM
  /-- TIM_RNG_LEN bits 15:0 (chapter 09, R318) -/
  | timRngLenRxM
  /-- TIM_RNG_ASYM bits 31:0 (chapter 09, R318) -/
  | timRngAsymEstNs
  /-- TIM_RNG_RES bits 15:0 (chapter 09, R318) -/
  | timRngResNs
  /-- tim bits 31:16 (chapter 09, R318) -/
  | timTsLostCnt
  /-- tim bits 15:0 (chapter 09, R318) -/
  | timInGlitchCnt
  /-- tim bits 31:0 (chapter 09, R318) -/
  | timTsSuspectCnt
  /-- tim bits 31:16 (chapter 09, R318) -/
  | timTsfOvfCnt
  /-- tim bits 15:0 (chapter 09, R318) -/
  | timTodStepsCnt
  /-- TIM_LN_CFG bits 31:31 (chapter 09, R318) -/
  | timLnCntClr
  /-- TIM_LN_CFG bits 30:30 (chapter 09, R318) -/
  | timLnRestartAvg
  /-- TIM_LN_CFG bits 27:16 (chapter 09, R318) -/
  | timLnRejectPs
  /-- TIM_LN_CFG bits 8:8 (chapter 09, R318) -/
  | timLnExchEn
  /-- TIM_LN_CFG bits 7:4 (chapter 09, R318) -/
  | timLnRateExp
  /-- TIM_LN_CFG bits 3:0 (chapter 09, R318) -/
  | timLnAvgSh
  /-- TIM_LN_STATUS bits 12:12 (chapter 09, R318) -/
  | timLnPeriodShort
  /-- TIM_LN_STATUS bits 11:11 (chapter 09, R318) -/
  | timLnRatioValid
  /-- TIM_LN_STATUS bits 10:10 (chapter 09, R318) -/
  | timLnRangeMember
  /-- TIM_LN_STATUS bits 9:9 (chapter 09, R318) -/
  | timLnSuspect
  /-- TIM_LN_STATUS bits 8:8 (chapter 09, R318) -/
  | timLnResultValid
  /-- TIM_LN_STATUS bits 5:4 (chapter 09, R318) -/
  | timLnVer
  /-- TIM_LN_STATUS bits 2:0 (chapter 09, R318) -/
  | timLnXstate
  /-- TIM_LN_OPT bits 31:16 (chapter 09, R318) -/
  | timLnOptTx
  /-- TIM_LN_OPT bits 15:0 (chapter 09, R318) -/
  | timLnOptRx
  /-- TIM_LN_ASYM bits 31:0 (chapter 09, R318) -/
  | timLnAsymPs
  /-- timLn bits 31:0 (chapter 09, R318) -/
  | timLnDlyTxNs
  /-- timLn bits 15:0 (chapter 09, R318) -/
  | timLnDlyTxFrac
  /-- timLn bits 31:0 (chapter 09, R318) -/
  | timLnDlyRxNs
  /-- timLn bits 15:0 (chapter 09, R318) -/
  | timLnDlyRxFrac
  /-- timLn bits 31:0 (chapter 09, R318) -/
  | timLnOffsetNs
  /-- timLn bits 15:0 (chapter 09, R318) -/
  | timLnOffsetFrac
  /-- timLn bits 31:0 (chapter 09, R318) -/
  | timLnRatio
  /-- timLn bits 31:0 (chapter 09, R318) -/
  | timLnIngLat
  /-- timLn bits 31:0 (chapter 09, R318) -/
  | timLnEgrLat
  /-- timLn bits 31:0 (chapter 09, R318) -/
  | timLnEgrSkew
  /-- timLn bits 9:8 (chapter 09, R318) -/
  | timLnLedProfile
  /-- timLn bits 7:0 (chapter 09, R318) -/
  | timLnLedFlags
  /-- timLn bits 31:16 (chapter 09, R318) -/
  | timLnLrxAfe
  /-- timLn bits 15:0 (chapter 09, R318) -/
  | timLnHtxDrv
  /-- timLn bits 31:16 (chapter 09, R318) -/
  | timLnHrxAfe
  /-- timLn bits 15:0 (chapter 09, R318) -/
  | timLnLtxDrv
  /-- timLn bits 17:0 (chapter 09, R318) -/
  | timLnWl
  /-- timLn bits 31:0 (chapter 09, R318) -/
  | timLnSkewTx
  /-- timLn bits 31:0 (chapter 09, R318) -/
  | timLnSkewRx
  /-- timLn bits 31:0 (chapter 09, R318) -/
  | timLnExchOkCnt
  /-- timLn bits 31:16 (chapter 09, R318) -/
  | timLnExchMissCnt
  /-- timLn bits 15:0 (chapter 09, R318) -/
  | timLnExchRejectCnt
  /-- timLn bits 31:16 (chapter 09, R318) -/
  | timLnExchSuspectCnt
  /-- timLn bits 15:0 (chapter 09, R318) -/
  | timLnRegionLateCnt
  /-- TIM_TS_LRX bits 127:0 (chapter 09, R318) -/
  | timLnTsLrx
  /-- TIM_TS_LTX bits 127:0 (chapter 09, R318) -/
  | timLnTsLtx
  /-- TIM_TS_FRAME bits 31:16 (chapter 09, R318) -/
  | timLnRxFrame
  /-- TIM_TS_FRAME bits 15:0 (chapter 09, R318) -/
  | timLnTxFrame
  /-- TIM_TS_HRX bits 127:0 (chapter 09, R318) -/
  | timHostTsHrx
  /-- TIM_TS_HTX bits 127:0 (chapter 09, R318) -/
  | timHostTsHtx
  /-- TIM_HL_STATUS bits 2:2 (chapter 09, R318) -/
  | timHostSuspect
  /-- TIM_HL_STATUS bits 1:1 (chapter 09, R318) -/
  | timHostHtxActive
  /-- TIM_HL_STATUS bits 0:0 (chapter 09, R318) -/
  | timHostHrxActive
  /-- CLK_CTRL bits 31:31 (chapter 10, R335) -/
  | clkCntClr
  /-- CLK_CTRL bits 16:16 (chapter 10, R335) -/
  | clkForceB
  /-- CLK_CTRL bits 12:8 (chapter 10, R335) -/
  | clkCalReq
  /-- CLK_CTRL bits 4:0 (chapter 10, R335) -/
  | clkAutoRelock
  /-- CLK_REF_CFG bits 9:0 (chapter 10, R335) -/
  | clkRefHoldUs
  /-- CLK_REF_STATUS bits 3:3 (chapter 10, R335) -/
  | clkRefBack
  /-- CLK_REF_STATUS bits 2:2 (chapter 10, R335) -/
  | clkRefOk
  /-- CLK_REF_STATUS bits 1:1 (chapter 10, R335) -/
  | clkRefBad
  /-- CLK_REF_STATUS bits 0:0 (chapter 10, R335) -/
  | clkRefLost
  /-- CLK_SRC_STATUS bits 8:8 (chapter 10, R335) -/
  | clkBackup
  /-- CLK_SRC_STATUS bits 1:0 (chapter 10, R335) -/
  | clkXbarSrc
  /-- clk bits 31:16 (chapter 10, R335) -/
  | clkRefGlitchCnt
  /-- clk bits 15:0 (chapter 10, R335) -/
  | clkRefLossCnt
  /-- clk bits 15:0 (chapter 10, R335) -/
  | clkRgStoppedCnt
  /-- CLK_PLLp_STATUS bits 31:24 (chapter 10, R335) -/
  | pllLockErrPpm
  /-- CLK_PLLp_STATUS bits 21:16 (chapter 10, R335) -/
  | pllBand
  /-- CLK_PLLp_STATUS bits 9:9 (chapter 10, R335) -/
  | pllCalPend
  /-- CLK_PLLp_STATUS bits 8:8 (chapter 10, R335) -/
  | pllLock
  /-- CLK_PLLp_STATUS bits 2:0 (chapter 10, R335) -/
  | pllState
  /-- CLK_PLLp_COUNT bits 31:16 (chapter 10, R335) -/
  | pllLolCnt
  /-- CLK_PLLp_COUNT bits 15:0 (chapter 10, R335) -/
  | pllCalCnt
  /-- CLK_PLLp_CAL_TIME bits 127:0 (chapter 10, R335) -/
  | pllCalTime
  /-- OPT_CTRL bits 31:31 (chapter 11, R361) -/
  | optLnCntClr
  /-- OPT_CTRL bits 15:0 (chapter 11, R361) -/
  | optLnUpdCyc
  /-- OPT_STATUS bits 9:8 (chapter 11, R361) -/
  | optLnSineAct
  /-- OPT_STATUS bits 7:7 (chapter 11, R361) -/
  | optLnProbe
  /-- OPT_STATUS bits 6:6 (chapter 11, R361) -/
  | optLnOffTime
  /-- OPT_STATUS bits 5:5 (chapter 11, R361) -/
  | optLnClamp
  /-- OPT_STATUS bits 4:4 (chapter 11, R361) -/
  | optLnModLimited
  /-- OPT_STATUS bits 3:3 (chapter 11, R361) -/
  | optLnOpen
  /-- OPT_STATUS bits 2:2 (chapter 11, R361) -/
  | optLnCompliance
  /-- OPT_STATUS bits 1:1 (chapter 11, R361) -/
  | optLnRamp
  /-- OPT_STATUS bits 0:0 (chapter 11, R361) -/
  | optLnBiasReady
  /-- OPT_OUT_CFG bits 23:16 (chapter 11, R361) -/
  | optOutRampStep
  /-- OPT_OUT_CFG bits 10:8 (chapter 11, R361) -/
  | optOutTable
  /-- OPT_OUT_CFG bits 5:4 (chapter 11, R361) -/
  | optOutSrc
  /-- OPT_OUT_CFG bits 1:0 (chapter 11, R361) -/
  | optOutRange
  /-- OPT_OUT_BASE bits 26:16 (chapter 11, R361) -/
  | optOutAmp
  /-- OPT_OUT_BASE bits 11:0 (chapter 11, R361) -/
  | optOutBase
  /-- OPT_OUT_FSTEP bits 31:0 (chapter 11, R361) -/
  | optOutFstep
  /-- OPT_OUT_STATUS bits 17:16 (chapter 11, R361) -/
  | optOutRangeAct
  /-- OPT_OUT_STATUS bits 11:0 (chapter 11, R361) -/
  | optOutCode
  /-- OPT_PU bits 31:31 (chapter 11, R361) -/
  | optLnPuEn
  /-- OPT_PU bits 13:12 (chapter 11, R361) -/
  | optLnPuRange
  /-- OPT_PU bits 11:0 (chapter 11, R361) -/
  | optLnPuValue
  /-- OPT_ENV_BIAS bits 27:16 (chapter 11, R361) -/
  | optLnMaxBias
  /-- OPT_ENV_BIAS bits 11:0 (chapter 11, R361) -/
  | optLnIdleBiasMax
  /-- OPT_ENV_MOD bits 31:20 (chapter 11, R361) -/
  | optLnMonMax
  /-- OPT_ENV_MOD bits 16:12 (chapter 11, R361) -/
  | optLnMonCh
  /-- OPT_ENV_MOD bits 11:0 (chapter 11, R361) -/
  | optLnMaxModSwing
  /-- OPT_ENV_STATUS bits 18:16 (chapter 11, R361) -/
  | optLnTripCause
  /-- OPT_ENV_STATUS bits 15:0 (chapter 11, R361) -/
  | optLnOffRemainMs
  /-- optLn bits 31:16 (chapter 11, R361) -/
  | optLnTripCnt
  /-- optLn bits 15:0 (chapter 11, R361) -/
  | optLnEnvClampCnt
  /-- optLn bits 31:16 (chapter 11, R361) -/
  | optLnComplianceCnt
  /-- optLn bits 15:0 (chapter 11, R361) -/
  | optLnOpenCnt
  /-- OPT_GLB_CTRL bits 31:31 (chapter 11, R361) -/
  | optGlbEnvSave
  /-- OPT_GLB_CTRL bits 23:16 (chapter 11, R361) -/
  | optGlbTblHold
  /-- OPT_GLB_CTRL bits 7:0 (chapter 11, R361) -/
  | optGlbLaneMask
  /-- OPT_ENV_DUTY bits 31:16 (chapter 11, R361) -/
  | optGlbOffMinMs
  /-- OPT_ENV_DUTY bits 15:0 (chapter 11, R361) -/
  | optGlbOnMaxUs
  /-- OPT_GLB_STATUS bits 3:3 (chapter 11, R361) -/
  | optGlbSavePending
  /-- OPT_GLB_STATUS bits 2:2 (chapter 11, R361) -/
  | optGlbNvmBad
  /-- OPT_GLB_STATUS bits 1:1 (chapter 11, R361) -/
  | optGlbLocked
  /-- OPT_GLB_STATUS bits 0:0 (chapter 11, R361) -/
  | optGlbPuDone
  /-- OPT_GLB_INT_STATUS bits 23:16 (chapter 11, R361) -/
  | optGlbIntLane
  /-- PB_CFG bits 1:0 (chapter 11, R361) -/
  | pbSpeed
  /-- PB_CMD bits 31:31 (chapter 11, R361) -/
  | pbGo
  /-- PB_CMD bits 30:30 (chapter 11, R361) -/
  | pbRead
  /-- PB_CMD bits 25:24 (chapter 11, R361) -/
  | pbLen
  /-- PB_CMD bits 22:16 (chapter 11, R361) -/
  | pbAddr
  /-- PB_CMD bits 7:0 (chapter 11, R361) -/
  | pbReg
  /-- PB_DATA bits 31:0 (chapter 11, R361) -/
  | pbData
  /-- PB_STATUS bits 4:4 (chapter 11, R361) -/
  | pbBusy
  /-- PB_STATUS bits 2:0 (chapter 11, R361) -/
  | pbResult
  /-- PB_PROTi bits 31:31 (chapter 11, R361) -/
  | pbProtValid
  /-- PB_PROTi bits 22:16 (chapter 11, R361) -/
  | pbProtAddr
  /-- PB_PROTi bits 15:8 (chapter 11, R361) -/
  | pbProtReg
  /-- PB_PROTi bits 7:0 (chapter 11, R361) -/
  | pbProtMax
  /-- MON_CTRL bits 31:31 (chapter 11, R361) -/
  | monCntClr
  /-- MON_CTRL bits 23:0 (chapter 11, R361) -/
  | monEn
  /-- MON_CFG bits 31:24 (chapter 11, R361) -/
  | monChStepThr
  /-- MON_CFG bits 20:16 (chapter 11, R361) -/
  | monChAssoc
  /-- MON_CFG bits 12:12 (chapter 11, R361) -/
  | monChGain
  /-- MON_CFG bits 9:9 (chapter 11, R361) -/
  | monChFirDec
  /-- MON_CFG bits 8:8 (chapter 11, R361) -/
  | monChFirEn
  /-- MON_CFG bits 5:4 (chapter 11, R361) -/
  | monChHb
  /-- MON_CFG bits 2:0 (chapter 11, R361) -/
  | monChCicR
  /-- MON_OUT bits 31:31 (chapter 11, R361) -/
  | monChValid
  /-- MON_OUT bits 23:16 (chapter 11, R361) -/
  | monChSeq
  /-- MON_OUT bits 15:0 (chapter 11, R361) -/
  | monChData
  /-- MON_STATUS bits 31:31 (chapter 11, R361) -/
  | monChSwap
  /-- MON_STATUS bits 2:2 (chapter 11, R361) -/
  | monChBank
  /-- MON_STATUS bits 1:1 (chapter 11, R361) -/
  | monChXfade
  /-- MON_COEFw bits 31:16 (chapter 11, R361) -/
  | monChCoefOdd
  /-- MON_COEFw bits 15:0 (chapter 11, R361) -/
  | monChCoefEven
  /-- OPT_TBLt bits 31:16 (chapter 11, R361) -/
  | optTblOdd
  /-- OPT_TBLt bits 15:0 (chapter 11, R361) -/
  | optTblEven
  /-- PWR_CTRL bits 31:31 (chapter 12, R393) -/
  | pwrCntClr
  /-- PWR_CTRL bits 30:30 (chapter 12, R393) -/
  | pwrDeep
  /-- PWR_CTRL bits 8:8 (chapter 12, R393) -/
  | pwrStandbySw
  /-- PWR_CTRL bits 7:7 (chapter 12, R393) -/
  | pwrLpmodeEn
  /-- PWR_STATUS bits 22:16 (chapter 12, R393) -/
  | pwrWarnRails
  /-- PWR_STATUS bits 11:11 (chapter 12, R393) -/
  | pwrDvfsBusy
  /-- PWR_STATUS bits 10:10 (chapter 12, R393) -/
  | pwrWarn
  /-- PWR_STATUS bits 9:9 (chapter 12, R393) -/
  | pwrRetFail
  /-- PWR_STATUS bits 8:8 (chapter 12, R393) -/
  | pwrRetValid
  /-- PWR_STATUS bits 3:0 (chapter 12, R393) -/
  | pwrDevState
  /-- PWR_WAKE_EN bits 6:1 (chapter 12, R393) -/
  | pwrWakeEn
  /-- PWR_WAKE_SOURCE bits 31:31 (chapter 12, R393) -/
  | pwrWakeHeld
  /-- PWR_WAKE_SOURCE bits 27:24 (chapter 12, R393) -/
  | pwrWakeFrom
  /-- PWR_WAKE_SOURCE bits 19:16 (chapter 12, R393) -/
  | pwrWakeSource
  /-- PWR_WAKE_SOURCE bits 4:0 (chapter 12, R393) -/
  | pwrWakeObject
  /-- PWR_WAKE_SLEPT bits 31:0 (chapter 12, R393) -/
  | pwrWakeSleptTicks
  /-- PWR_WAKE_TIMER bits 31:0 (chapter 12, R393) -/
  | pwrWakeTimerMs
  /-- PWR_LAST_REFUSAL bits 31:31 (chapter 12, R393) -/
  | pwrRefLate
  /-- PWR_LAST_REFUSAL bits 27:24 (chapter 12, R393) -/
  | pwrRefTarget
  /-- PWR_LAST_REFUSAL bits 20:16 (chapter 12, R393) -/
  | pwrRefObject
  /-- PWR_LAST_REFUSAL bits 15:12 (chapter 12, R393) -/
  | pwrRefVoter
  /-- PWR_LAST_REFUSAL bits 11:8 (chapter 12, R393) -/
  | pwrRefInstance
  /-- PWR_LAST_REFUSAL bits 7:0 (chapter 12, R393) -/
  | pwrRefReason
  /-- PWR_SLEEP_CFG bits 31:16 (chapter 12, R393) -/
  | pwrRetryUs
  /-- PWR_SLEEP_CFG bits 15:12 (chapter 12, R393) -/
  | pwrRetryMax
  /-- PWR_SLEEP_CFG bits 9:0 (chapter 12, R393) -/
  | pwrVoteTmoUs
  /-- PWR_LOAD_CFG bits 6:0 (chapter 12, R393) -/
  | pwrIslandGapUs
  /-- PWR_DVFS_CTRL bits 31:31 (chapter 12, R393) -/
  | pwrDvfsMode
  /-- PWR_DVFS_CTRL bits 15:0 (chapter 12, R393) -/
  | pwrDvfsReq
  /-- PWR_DVFS_VOUT bits 25:16 (chapter 12, R393) -/
  | pwrVoutMv
  /-- PWR_DVFS_VOUT bits 9:0 (chapter 12, R393) -/
  | pwrVoutActMv
  /-- PWR_DVFS_STATUS bits 31:31 (chapter 12, R393) -/
  | pwrDvfsStBusy
  /-- PWR_DVFS_STATUS bits 29:28 (chapter 12, R393) -/
  | pwrDvfsErr
  /-- PWR_DVFS_STATUS bits 15:0 (chapter 12, R393) -/
  | pwrDvfsPoint
  /-- PWR_DVFS_TMO bits 15:0 (chapter 12, R393) -/
  | pwrDvfsTmoUs
  /-- PWR_PMBUS_CFG bits 31:31 (chapter 12, R393) -/
  | pwrPecEn
  /-- PWR_PMBUS_CFG bits 24:24 (chapter 12, R393) -/
  | pwrSpeed
  /-- PWR_PMBUS_CFG bits 22:16 (chapter 12, R393) -/
  | pwrPmAddr
  /-- PWR_RESET_CAUSE bits 18:16 (chapter 12, R393) -/
  | pwrResetRail
  /-- PWR_RESET_CAUSE bits 2:0 (chapter 12, R393) -/
  | pwrResetCause
  /-- PWR_DEEP_WAKE bits 15:0 (chapter 12, R393) -/
  | pwrDeepWakeMs
  /-- pwr bits 31:16 (chapter 12, R393) -/
  | pwrWarnCnt
  /-- pwr bits 15:0 (chapter 12, R393) -/
  | pwrRefusalCnt
  /-- pwr bits 15:0 (chapter 12, R393) -/
  | pwrWakeFailCnt
  /-- PWR_LN_BUDGET bits 31:16 (chapter 12, R393) -/
  | pwrLnEgrBudgetUs
  /-- PWR_LN_BUDGET bits 15:0 (chapter 12, R393) -/
  | pwrLnIngBudgetUs
  /-- PWR_LN_CTRL bits 31:31 (chapter 12, R393) -/
  | pwrLnIngSleep
  /-- PWR_LN_CTRL bits 30:30 (chapter 12, R393) -/
  | pwrLnEgrSleep
  /-- PWR_LN_CTRL bits 29:29 (chapter 12, R393) -/
  | pwrLnLinkWake
  /-- PWR_LN_CTRL bits 1:0 (chapter 12, R393) -/
  | pwrLnTrimPoint
  /-- PWR_LN_TRIM bits 23:16 (chapter 12, R393) -/
  | pwrLnTrimWakeQ
  /-- PWR_LN_TRIM bits 15:0 (chapter 12, R393) -/
  | pwrLnTrimDwellUs
  /-- PWR_LN_STATUS bits 31:31 (chapter 12, R393) -/
  | pwrLnIngGiveup
  /-- PWR_LN_STATUS bits 30:30 (chapter 12, R393) -/
  | pwrLnEgrGiveup
  /-- PWR_LN_STATUS bits 27:24 (chapter 12, R393) -/
  | pwrLnIngRetry
  /-- PWR_LN_STATUS bits 23:20 (chapter 12, R393) -/
  | pwrLnEgrRetry
  /-- PWR_LN_STATUS bits 15:12 (chapter 12, R393) -/
  | pwrLnLrxPstate
  /-- PWR_LN_STATUS bits 11:8 (chapter 12, R393) -/
  | pwrLnLtxPstate
  /-- PWR_LN_STATUS bits 4:4 (chapter 12, R393) -/
  | pwrLnTrim
  /-- PWR_LN_STATUS bits 3:2 (chapter 12, R393) -/
  | pwrLnIngPhase
  /-- PWR_LN_STATUS bits 1:0 (chapter 12, R393) -/
  | pwrLnEgrPhase
  /-- THM_CTRL bits 31:31 (chapter 13, R407) -/
  | thmCntClr
  /-- THM_CTRL bits 30:30 (chapter 13, R407) -/
  | thmCritClr
  /-- THM_CTRL bits 29:29 (chapter 13, R407) -/
  | thmRestore
  /-- THM_CTRL bits 1:1 (chapter 13, R407) -/
  | thmCritAuto
  /-- THM_CTRL bits 0:0 (chapter 13, R407) -/
  | thmAutoRestore
  /-- THM_THRESH bits 26:24 (chapter 13, R407) -/
  | thmHystC
  /-- THM_THRESH bits 23:16 (chapter 13, R407) -/
  | thmCritC
  /-- THM_THRESH bits 15:8 (chapter 13, R407) -/
  | thmThrC
  /-- THM_THRESH bits 7:0 (chapter 13, R407) -/
  | thmWarnC
  /-- THM_TIMING bits 31:16 (chapter 13, R407) -/
  | thmStepMs
  /-- THM_TIMING bits 15:0 (chapter 13, R407) -/
  | thmGraceMs
  /-- THM_RECOVER bits 23:16 (chapter 13, R407) -/
  | thmResumeC
  /-- THM_RECOVER bits 15:0 (chapter 13, R407) -/
  | thmRecoverMs
  /-- THM_SENSOR_CFG bits 11:8 (chapter 13, R407) -/
  | thmCalSh
  /-- THM_SENSOR_CFG bits 7:0 (chapter 13, R407) -/
  | thmSensorFailC
  /-- THM_STATUS bits 31:16 (chapter 13, R407) -/
  | thmHotT
  /-- THM_STATUS bits 12:8 (chapter 13, R407) -/
  | thmHotIsland
  /-- THM_STATUS bits 6:6 (chapter 13, R407) -/
  | thmCritLatch
  /-- THM_STATUS bits 5:5 (chapter 13, R407) -/
  | thmThrottleReq
  /-- THM_STATUS bits 4:4 (chapter 13, R407) -/
  | thmWarn
  /-- THM_STATUS bits 2:0 (chapter 13, R407) -/
  | thmState
  /-- THM_ISLAND_Ti bits 31:31 (chapter 13, R407) -/
  | thmIslandSensorFail
  /-- THM_ISLAND_Ti bits 30:16 (chapter 13, R407) -/
  | thmIslandPowerMw
  /-- THM_ISLAND_Ti bits 15:0 (chapter 13, R407) -/
  | thmIslandTemp
  /-- THM_DIODEk bits 31:31 (chapter 13, R407) -/
  | thmDiodeBroken
  /-- THM_DIODEk bits 27:16 (chapter 13, R407) -/
  | thmDiodeResid
  /-- THM_DIODEk bits 15:0 (chapter 13, R407) -/
  | thmDiodeTemp
  /-- THM_LN_THROTTLEn bits 9:8 (chapter 13, R407) -/
  | thmLnOrigProfile
  /-- THM_LN_THROTTLEn bits 6:5 (chapter 13, R407) -/
  | thmLnProfileSteps
  /-- THM_LN_THROTTLEn bits 4:3 (chapter 13, R407) -/
  | thmLnDvfsSteps
  /-- THM_LN_THROTTLEn bits 0:0 (chapter 13, R407) -/
  | thmLnShutdown
  /-- THM_AON_CFG bits 8:8 (chapter 13, R407) -/
  | thmAonDir
  /-- THM_AON_CFG bits 7:0 (chapter 13, R407) -/
  | thmAonWakeC
  /-- thm bits 31:16 (chapter 13, R407) -/
  | thmThrottleCnt
  /-- thm bits 15:0 (chapter 13, R407) -/
  | thmCritCnt
  /-- thm bits 31:16 (chapter 13, R407) -/
  | thmStepCnt
  /-- thm bits 15:0 (chapter 13, R407) -/
  | thmSensorFailCnt
  /-- HLT_CTRL bits 31:31 (chapter 14, R432) -/
  | hltCntClr
  /-- HLT_CTRL bits 0:0 (chapter 14, R432) -/
  | hltBgBistEn
  /-- HLT_STARVE_LIMIT bits 31:16 (chapter 14, R432) -/
  | hltAgeWinMs
  /-- HLT_STARVE_LIMIT bits 7:0 (chapter 14, R432) -/
  | hltStarveLimit
  /-- HLT_BIST_CMD bits 31:31 (chapter 14, R432) -/
  | hltBistGo
  /-- HLT_BIST_CMD bits 12:12 (chapter 14, R432) -/
  | hltBistPreempt
  /-- HLT_BIST_CMD bits 11:8 (chapter 14, R432) -/
  | hltBistKind
  /-- HLT_BIST_CMD bits 6:0 (chapter 14, R432) -/
  | hltBistUnit
  /-- HLT_BIST_STATUS bits 31:28 (chapter 14, R432) -/
  | hltBistState
  /-- HLT_BIST_STATUS bits 27:24 (chapter 14, R432) -/
  | hltBistResult
  /-- HLT_BIST_STATUS bits 17:16 (chapter 14, R432) -/
  | hltBistIslandSlots
  /-- HLT_BIST_STATUS bits 13:8 (chapter 14, R432) -/
  | hltBistEngines
  /-- HLT_BIST_STATUS bits 4:4 (chapter 14, R432) -/
  | hltBistRefused
  /-- HLT_BIST_STATUS bits 0:0 (chapter 14, R432) -/
  | hltBistPeriph
  /-- HLT_BIST_CFG bits 31:16 (chapter 14, R432) -/
  | hltBgPeriodS
  /-- HLT_BIST_CFG bits 15:8 (chapter 14, R432) -/
  | hltBootMask
  /-- HLT_BIST_CFG bits 7:0 (chapter 14, R432) -/
  | hltBistWaitMs
  /-- HLT_SVC_PREEMPT bits 31:16 (chapter 14, R432) -/
  | hltSvcPreemptHost
  /-- HLT_SVC_PREEMPT bits 7:0 (chapter 14, R432) -/
  | hltSvcPreemptLine
  /-- HLT_BIST_FAIL bits 31:31 (chapter 14, R432) -/
  | hltFailXbar
  /-- HLT_BIST_FAIL bits 30:30 (chapter 14, R432) -/
  | hltFailMonAdc
  /-- HLT_BIST_FAIL bits 29:29 (chapter 14, R432) -/
  | hltFailEnvelope
  /-- HLT_BIST_FAIL bits 28:28 (chapter 14, R432) -/
  | hltFailKeystore
  /-- HLT_BIST_FAIL bits 19:16 (chapter 14, R432) -/
  | hltFailHost
  /-- HLT_BIST_FAIL bits 15:8 (chapter 14, R432) -/
  | hltFailCtrlDac
  /-- HLT_BIST_FAIL bits 7:0 (chapter 14, R432) -/
  | hltFailLane
  /-- hlt bits 31:16 (chapter 14, R432) -/
  | hltRunCnt
  /-- hlt bits 15:0 (chapter 14, R432) -/
  | hltFailCnt
  /-- hlt bits 31:16 (chapter 14, R432) -/
  | hltAbortCnt
  /-- hlt bits 15:0 (chapter 14, R432) -/
  | hltUntestedCnt
  /-- HLT_CAL_CFG0 bits 31:16 (chapter 14, R432) -/
  | hltDacIntervalUs
  /-- HLT_CAL_CFG0 bits 15:0 (chapter 14, R432) -/
  | hltAdcIntervalUs
  /-- HLT_CAL_CFG1 bits 31:24 (chapter 14, R432) -/
  | hltDacBgEn
  /-- HLT_CAL_CFG1 bits 23:16 (chapter 14, R432) -/
  | hltAdcBgEn
  /-- HLT_CAL_CFG1 bits 3:0 (chapter 14, R432) -/
  | hltCalMaxLanes
  /-- HLT_CAL_ESC bits 15:0 (chapter 14, R432) -/
  | hltEscCnt
  /-- HLT_SRC_SEL bits 11:8 (chapter 14, R432) -/
  | hltSelSource
  /-- HLT_SRC_SEL bits 3:0 (chapter 14, R432) -/
  | hltSelInstance
  /-- HLT_SRC_INST bits 31:31 (chapter 14, R432) -/
  | hltInstOpen
  /-- HLT_SRC_INST bits 30:30 (chapter 14, R432) -/
  | hltInstLasting
  /-- HLT_SRC_INST bits 9:0 (chapter 14, R432) -/
  | hltInstCount
  /-- HLT_SRC_ELAPSED bits 25:0 (chapter 14, R432) -/
  | hltInstElapsedUs
  /-- HLT_SRC_TOTAL bits 31:0 (chapter 14, R432) -/
  | hltInstTotal
  /-- HLT_SRC_CFGs bits 25:0 (chapter 14, R432) -/
  | hltWinUs
  /-- HLT_SRC_CFGs bits 31:30 (chapter 14, R432) -/
  | hltAction
  /-- HLT_SRC_CFGs bits 9:0 (chapter 14, R432) -/
  | hltThresh
  /-- HLT_SRC_LASTINGs bits 15:0 (chapter 14, R432) -/
  | hltSrcLasting
  /-- HLT_CAL_LNn bits 31:0 (chapter 14, R432) -/
  | hltLnRxCnt
  /-- HLT_CAL_LNn bits 31:0 (chapter 14, R432) -/
  | hltLnTxCnt
  /-- HLT_CAL_LNn bits 127:0 (chapter 14, R432) -/
  | hltLnRxTime
  /-- HLT_CAL_LNn bits 127:0 (chapter 14, R432) -/
  | hltLnTxTime
  /-- HLT_CAL_LNn bits 31:31 (chapter 14, R432) -/
  | hltLnEscAdc
  /-- HLT_CAL_LNn bits 15:8 (chapter 14, R432) -/
  | hltLnDacAge
  /-- HLT_CAL_LNn bits 7:0 (chapter 14, R432) -/
  | hltLnAdcAge
  /-- GLB_INT_TOP bits 17:0 (chapter 15, R459) -/
  | glbIntTop
  /-- GLB_INT_TOP bits 31:0 (chapter 15, R459) -/
  | glbIntLane
  /-- MGT_CTRL bits 31:31 (chapter 15, R459) -/
  | mgtCntClr
  /-- MGT_CTRL bits 9:8 (chapter 15, R459) -/
  | mgtModMonMcPresent
  /-- MGT_CTRL bits 7:0 (chapter 15, R459) -/
  | mgtWdogMs
  /-- MGT_FW_STATUS bits 31:31 (chapter 15, R459) -/
  | mgtFwHalt
  /-- MGT_FW_STATUS bits 30:30 (chapter 15, R459) -/
  | mgtRomFw
  /-- MGT_FW_STATUS bits 15:0 (chapter 15, R459) -/
  | mgtFwVersion
  /-- MGT_HB_CFG bits 16:16 (chapter 15, R459) -/
  | mgtI3cMode
  /-- MGT_HB_CFG bits 6:0 (chapter 15, R459) -/
  | mgtHbAddr
  /-- MGT_MC_NOTIFY bits 15:0 (chapter 15, R459) -/
  | mgtMcNotify
  /-- MGT_MC_PAGEi bits 31:31 (chapter 15, R459) -/
  | mgtMcPageValid
  /-- MGT_MC_PAGEi bits 8:8 (chapter 15, R459) -/
  | mgtMcPageBank
  /-- MGT_MC_PAGEi bits 7:0 (chapter 15, R459) -/
  | mgtMcPagePage
  /-- MGT_MBX_CFG bits 31:31 (chapter 15, R459) -/
  | mgtInAbort
  /-- MGT_MBX_CFG bits 30:16 (chapter 15, R459) -/
  | mgtMbxTmoUs
  /-- MGT_MBX_CFG bits 1:0 (chapter 15, R459) -/
  | mgtMbxSize
  /-- MGT_MBX_IN_DATA bits 31:0 (chapter 15, R459) -/
  | mgtMbxInData
  /-- MGT_MBX_IN_STATUS bits 31:28 (chapter 15, R459) -/
  | mgtMbxInResult
  /-- MGT_MBX_IN_STATUS bits 27:27 (chapter 15, R459) -/
  | mgtMbxOpen
  /-- MGT_MBX_IN_STATUS bits 13:0 (chapter 15, R459) -/
  | mgtMbxFree
  /-- MGT_MBX_OUT_DATA bits 31:0 (chapter 15, R459) -/
  | mgtMbxOutData
  /-- MGT_MBX_OUT_STATUS bits 13:0 (chapter 15, R459) -/
  | mgtMbxAvail
  /-- MGT_MBX_OUT_DATA bits 31:16 (chapter 15, R459) -/
  | mgtRefusedCnt
  /-- MGT_MBX_OUT_DATA bits 15:0 (chapter 15, R459) -/
  | mgtFwRestartCnt
  /-- EVF_DATA bits 31:0 (chapter 15, R459) -/
  | evfData
  /-- EVF_CFG bits 31:31 (chapter 15, R459) -/
  | evfFormat
  /-- EVF_CFG bits 30:30 (chapter 15, R459) -/
  | evfDeferEn
  /-- EVF_CFG bits 29:29 (chapter 15, R459) -/
  | evfFlush
  /-- EVF_CFG bits 28:15 (chapter 15, R459) -/
  | evfHwm
  /-- EVF_CFG bits 13:0 (chapter 15, R459) -/
  | evfLwm
  /-- EVF_STATUS bits 31:31 (chapter 15, R459) -/
  | evfFull
  /-- EVF_STATUS bits 30:30 (chapter 15, R459) -/
  | evfOverrun
  /-- EVF_STATUS bits 29:29 (chapter 15, R459) -/
  | evfXoff
  /-- EVF_STATUS bits 28:28 (chapter 15, R459) -/
  | evfFmtPending
  /-- EVF_STATUS bits 14:0 (chapter 15, R459) -/
  | evfLevel
  /-- EVF_PTR bits 31:16 (chapter 15, R459) -/
  | evfWptr
  /-- EVF_PTR bits 15:0 (chapter 15, R459) -/
  | evfRptr
  /-- EVF_CNT bits 31:16 (chapter 15, R459) -/
  | evfDroppedCnt
  /-- EVF_CNT bits 15:0 (chapter 15, R459) -/
  | evfDeferredCnt
  /-- SEC_LC bits 16:16 (chapter 16, R474) -/
  | secNonceValid
  /-- SEC_LC bits 13:13 (chapter 16, R474) -/
  | secNvmErr
  /-- SEC_LC bits 12:12 (chapter 16, R474) -/
  | secKsFail
  /-- SEC_LC bits 11:11 (chapter 16, R474) -/
  | secScanOpen
  /-- SEC_LC bits 10:10 (chapter 16, R474) -/
  | secDebugOpen
  /-- SEC_LC bits 9:9 (chapter 16, R474) -/
  | secRollbackErr
  /-- SEC_LC bits 8:8 (chapter 16, R474) -/
  | secLcErr
  /-- SEC_LC bits 2:0 (chapter 16, R474) -/
  | secLcState
  /-- SEC_CMD bits 31:31 (chapter 16, R474) -/
  | secCmdGo
  /-- SEC_CMD bits 18:16 (chapter 16, R474) -/
  | secCmdFlags
  /-- SEC_CMD bits 11:8 (chapter 16, R474) -/
  | secCmdArg
  /-- SEC_CMD bits 3:0 (chapter 16, R474) -/
  | secCmdOp
  /-- SEC_STATUS bits 31:31 (chapter 16, R474) -/
  | secBusy
  /-- SEC_STATUS bits 30:30 (chapter 16, R474) -/
  | secPendingNvm
  /-- SEC_STATUS bits 3:0 (chapter 16, R474) -/
  | secResult
  /-- sec bits 127:0 (chapter 16, R474) -/
  | secUid
  /-- sec bits 255:0 (chapter 16, R474) -/
  | secNonce
  /-- sec bits 1:0 (chapter 16, R474) -/
  | secKeyIndex
  /-- sec bits 383:0 (chapter 16, R474) -/
  | secTokenR
  /-- sec bits 383:0 (chapter 16, R474) -/
  | secTokenS
  /-- sec bits 767:0 (chapter 16, R474) -/
  | secKeyData
  /-- SEC_KEY_SLOTk bits 6:4 (chapter 16, R474) -/
  | secKeyFlags
  /-- SEC_KEY_SLOTk bits 1:0 (chapter 16, R474) -/
  | secKeyState
  /-- SEC_ROLLBACK bits 31:0 (chapter 16, R474) -/
  | secRollbackFloor
  /-- SEC_KEY_SLOTk bits 31:0 (chapter 16, R474) -/
  | secRollbackNew
  /-- GLB_BOOT_STATUS bits 27:24 (chapter 17, R482) -/
  | glbBootFailStage
  /-- GLB_BOOT_STATUS bits 8:8 (chapter 17, R482) -/
  | glbBootFallback
  /-- GLB_BOOT_STATUS bits 3:0 (chapter 17, R482) -/
  | glbBootStage
  /-- GLB_BOOT_TIME0 bits 31:0 (chapter 17, R482) -/
  | glbActiveUs
  /-- GLB_BOOT_TIME1 bits 31:0 (chapter 17, R482) -/
  | glbCommitUs
  /-- IMG_INT_STATUS bits 6:0 (chapter 02, R81) -/
  | imgIntStatus
  /-- IMG_INT_STATUS bits 6:0 (chapter 02, R81) -/
  | imgIntEnable
  /-- IMG_INT_STATUS bits 6:0 (chapter 02, R81) -/
  | imgIntForce
  /-- LRX_INT_STATUS bits 10:0 (chapter 03, R124) -/
  | lrxIntStatus
  /-- LRX_INT_STATUS bits 10:0 (chapter 03, R124) -/
  | lrxIntEnable
  /-- LRX_INT_STATUS bits 10:0 (chapter 03, R124) -/
  | lrxIntForce
  /-- LEQ_INT_STATUS bits 6:0 (chapter 04, R159) -/
  | leqIntStatus
  /-- LEQ_INT_STATUS bits 6:0 (chapter 04, R159) -/
  | leqIntEnable
  /-- LEQ_INT_STATUS bits 6:0 (chapter 04, R159) -/
  | leqIntForce
  /-- LTX_INT_STATUS bits 9:0 (chapter 05, R190) -/
  | ltxIntStatus
  /-- LTX_INT_STATUS bits 9:0 (chapter 05, R190) -/
  | ltxIntEnable
  /-- LTX_INT_STATUS bits 9:0 (chapter 05, R190) -/
  | ltxIntForce
  /-- LFR_INT_STATUS bits 9:0 (chapter 06, R219) -/
  | lfrIntStatus
  /-- LFR_INT_STATUS bits 9:0 (chapter 06, R219) -/
  | lfrIntEnable
  /-- LFR_INT_STATUS bits 9:0 (chapter 06, R219) -/
  | lfrIntForce
  /-- ARC_INT_STATUS bits 10:0 (chapter 07, R249) -/
  | arcIntStatus
  /-- ARC_INT_STATUS bits 10:0 (chapter 07, R249) -/
  | arcIntEnable
  /-- ARC_INT_STATUS bits 10:0 (chapter 07, R249) -/
  | arcIntForce
  /-- ARC_CL_INT_STATUS bits 6:0 (chapter 07, R249) -/
  | arcClIntStatus
  /-- ARC_CL_INT_STATUS bits 6:0 (chapter 07, R249) -/
  | arcClIntEnable
  /-- ARC_CL_INT_STATUS bits 6:0 (chapter 07, R249) -/
  | arcClIntForce
  /-- HIF_INT_STATUS bits 9:0 (chapter 08, R284) -/
  | hifIntStatus
  /-- HIF_INT_STATUS bits 9:0 (chapter 08, R284) -/
  | hifIntEnable
  /-- HIF_INT_STATUS bits 9:0 (chapter 08, R284) -/
  | hifIntForce
  /-- HIF_GLB_INT_STATUS bits 3:0 (chapter 08, R284) -/
  | hifGlbIntStatus
  /-- HIF_GLB_INT_STATUS bits 3:0 (chapter 08, R284) -/
  | hifGlbIntEnable
  /-- HIF_GLB_INT_STATUS bits 3:0 (chapter 08, R284) -/
  | hifGlbIntForce
  /-- TIM_INT_STATUS bits 12:0 (chapter 09, R318) -/
  | timIntStatus
  /-- TIM_INT_STATUS bits 12:0 (chapter 09, R318) -/
  | timIntEnable
  /-- TIM_INT_STATUS bits 12:0 (chapter 09, R318) -/
  | timIntForce
  /-- CLK_INT_STATUS bits 12:0 (chapter 10, R335) -/
  | clkIntStatus
  /-- CLK_INT_STATUS bits 12:0 (chapter 10, R335) -/
  | clkIntEnable
  /-- CLK_INT_STATUS bits 12:0 (chapter 10, R335) -/
  | clkIntForce
  /-- OPT_INT_STATUS bits 6:0 (chapter 11, R361) -/
  | optLnIntStatus
  /-- OPT_INT_STATUS bits 6:0 (chapter 11, R361) -/
  | optLnIntEnable
  /-- OPT_INT_STATUS bits 6:0 (chapter 11, R361) -/
  | optLnIntForce
  /-- OPT_GLB_INT_STATUS bits 4:0 (chapter 11, R361) -/
  | optGlbIntStatus
  /-- OPT_GLB_INT_STATUS bits 4:0 (chapter 11, R361) -/
  | optGlbIntEnable
  /-- OPT_GLB_INT_STATUS bits 4:0 (chapter 11, R361) -/
  | optGlbIntForce
  /-- MON_CTRL bits 23:0 (chapter 11, R361) -/
  | monIntStatus
  /-- MON_CTRL bits 23:0 (chapter 11, R361) -/
  | monIntEnable
  /-- MON_CTRL bits 23:0 (chapter 11, R361) -/
  | monIntForce
  /-- PWR_INT_STATUS bits 10:0 (chapter 12, R393) -/
  | pwrIntStatus
  /-- PWR_INT_STATUS bits 10:0 (chapter 12, R393) -/
  | pwrIntEnable
  /-- PWR_INT_STATUS bits 10:0 (chapter 12, R393) -/
  | pwrIntForce
  /-- THM_INT_STATUS bits 6:0 (chapter 13, R407) -/
  | thmIntStatus
  /-- THM_INT_STATUS bits 6:0 (chapter 13, R407) -/
  | thmIntEnable
  /-- THM_INT_STATUS bits 6:0 (chapter 13, R407) -/
  | thmIntForce
  /-- HLT_INT_STATUS bits 6:0 (chapter 14, R432) -/
  | hltIntStatus
  /-- HLT_INT_STATUS bits 6:0 (chapter 14, R432) -/
  | hltIntEnable
  /-- HLT_INT_STATUS bits 6:0 (chapter 14, R432) -/
  | hltIntForce
  /-- GLB_INT_STATUS bits 1:0 (chapter 15, R459) -/
  | glbIntStatus
  /-- GLB_INT_STATUS bits 1:0 (chapter 15, R459) -/
  | glbIntEnable
  /-- GLB_INT_STATUS bits 1:0 (chapter 15, R459) -/
  | glbIntForce
  /-- MGT_INT_STATUS bits 7:0 (chapter 15, R459) -/
  | mgtIntStatus
  /-- MGT_INT_STATUS bits 7:0 (chapter 15, R459) -/
  | mgtIntEnable
  /-- MGT_INT_STATUS bits 7:0 (chapter 15, R459) -/
  | mgtIntForce
  /-- EVF_INT_STATUS bits 3:0 (chapter 15, R459) -/
  | evfIntStatus
  /-- EVF_INT_STATUS bits 3:0 (chapter 15, R459) -/
  | evfIntEnable
  /-- EVF_INT_STATUS bits 3:0 (chapter 15, R459) -/
  | evfIntForce
  /-- SEC_INT_STATUS bits 5:0 (chapter 16, R474) -/
  | secIntStatus
  /-- SEC_INT_STATUS bits 5:0 (chapter 16, R474) -/
  | secIntEnable
  /-- SEC_INT_STATUS bits 5:0 (chapter 16, R474) -/
  | secIntForce
  /-- `State.now` at VDD_AON power-good or RESET_N release, the reference of ACTIVE_US and COMMIT_US (R482) -/
  | glbStageRef
  /-- Cold start-up step reached, 0 before VDD_AON power-good, 1 to 12 as in R477 -/
  | glbSeqStep
  /-- RESET_N held low (R476) -/
  | glbResetLow
  /-- Word the last register read returned (R15) -/
  | glbBusTrace
  /-- Bit n: power domain LANEn is on (R362) -/
  | pwrDomLane
  /-- Bit n: power domain DECODEn is on (R362) -/
  | pwrDomDecode
  /-- Bit g: power domain HOSTg is on (R362) -/
  | pwrDomHost
  /-- Power domain XBAR is on (R362) -/
  | pwrDomXbar
  /-- Power domain TIME is on (R362) -/
  | pwrDomTime
  /-- Power domain MGMT is on, so registers can be reached (R362, R370) -/
  | pwrDomMgmt
  /-- Consecutive AGC windows in tolerance in RUN (R90) -/
  | lrxGoodWin
  /-- Consecutive windows at or above the capture level (R92, R93) -/
  | lrxCapWin
  /-- Consecutive windows at or below the level-drop level (R94) -/
  | lrxDropWin
  /-- Level-drop detection armed (R94) -/
  | lrxDropArmed
  /-- Capture restarts in the present acquisition attempt (R92) -/
  | lrxCapRestarts
  /-- VGA code frozen at frame lock (R91) -/
  | lrxFrozenCode
  /-- Trim step waiting for the codeword boundary: 1 up, 2 down (R91) -/
  | lrxTrimStep
  /-- Consecutive CDR intervals with less than 2 ppm change (R105) -/
  | lrxQuietInt
  /-- Tracking gains in use (R104) -/
  | lrxTrkGains
  /-- Switch to the tracking gains waits for the codeword boundary (R104) -/
  | lrxTrkPend
  /-- Slice map: element p is the slice of position p (R95) -/
  | lrxSliceOfPos
  /-- Element s: slice s is marked failed (R100) -/
  | lrxSliceBad
  /-- Element s: offset correction of slice s, Q4.4 LSB (R96) -/
  | lrxSliceOfs
  /-- Element s: gain correction of slice s (R96) -/
  | lrxSliceGain
  /-- Element s: skew correction of slice s (R96) -/
  | lrxSliceSkew
  /-- The slice map holds valid corrections, so CAL may skip the foreground calibration (R116) -/
  | lrxMapValid
  /-- A calibrated spare waits to take its target position (R97) -/
  | lrxSwapReady
  /-- An automatic restart from FAULT is pending (R118) -/
  | lrxRestartArm
  /-- Lane held in OFF by a BIST failure (R420) -/
  | lrxHeldOff
  /-- The retained record lets CAL skip its foreground calibrations (R373) -/
  | lrxRecValid
  /-- The first codeword under the negotiated profile has been released (R120) -/
  | lrxReleased
  /-- The negotiated profile waits for the first receive frame boundary after entry to LOCKED (R120, R212) -/
  | lrxProfApply
  /-- A receive resume is running (R121) -/
  | lrxWakeRun
  /-- DRV_ENn granted and asserted (R176, R182) -/
  | ltxDrvEn
  /-- LSR_ENn granted and asserted (R176, R182) -/
  | ltxLsrEn
  /-- DAC muted (R168) -/
  | ltxMuted
  /-- DAC powered (R173) -/
  | ltxDacOn
  /-- DAC foreground calibration complete (R169) -/
  | ltxDacCal
  /-- Foreground calibration in progress: 0 none, 1 whole, 2 interleave skew only (R169) -/
  | ltxDacCalRun
  /-- Foreground calibration results wait for supply recovery (R188) -/
  | ltxCalWait
  /-- The pending timeout is running, not paused (R175) -/
  | ltxTmoRun
  /-- DRV_HOLD_US is running in the disable sequence (R177) -/
  | ltxHoldRun
  /-- The DAC power-down of the fault sequence is due (R178) -/
  | ltxDacOffRun
  /-- An automatic restart from FAULT is pending (R180) -/
  | ltxRestartArm
  /-- Transmit held in OFF by a BIST failure (R420) -/
  | ltxHeldOff
  /-- Cell map: element p is the cell of position p (R168) -/
  | ltxCellOfPos
  /-- Element c: cell c is retired (R172) -/
  | ltxCellBad
  /-- Element c: trim of cell c (R169) -/
  | ltxCellTrimOf
  /-- Element k, 0 to 7: the good cells out of service, longest waiting first; 255 none (R170) -/
  | ltxOutCell
  /-- Element c: trim that a calibration below warning measured of cell c (R188) -/
  | ltxCellTrimNew
  /-- Interleave skew that a calibration below warning measured (R188) -/
  | ltxIntlvNew
  /-- A trimmed cell waits to take its target position (R170) -/
  | ltxSwapReady
  /-- A PAT_SEL commit waits for the frame boundary (R184) -/
  | ltxPatPend
  /-- WAKE_SEND accepted, pattern starts at the next frame boundary (R185) -/
  | ltxWakePend
  /-- The wake pattern is being sent (R185) -/
  | ltxWakeRun
  /-- A wake from sleep is running (R186) -/
  | ltxNapWake
  /-- Bias ready: transmission starts at the next frame boundary (R176) -/
  | ltxActPend
  /-- Outputs of the PLL gated off (R326) -/
  | pllGated
  /-- 1 a calibration is running, 2 stopped by an outage until REF_OK (R322, R330) -/
  | pllCalRun
  /-- A CAL_REQ has been accepted and not yet satisfied (R323) -/
  | pllReqPend
  /-- Consecutive lock windows in tolerance (R324) -/
  | pllQuietWin
  /-- The present outage was declared a loss of lock (R327) -/
  | pllDeclared
  /-- The loss-of-lock source is lasting: AUTO_RELOCK has no effect (R329) -/
  | pllNoRelock
  /-- A REFCLK outage is in progress within REF_HOLD_US (R327) -/
  | clkOutage
  /-- Instance n of source i: window open, n = source, element = instance (R409) -/
  | hltWinOpen
  /-- Events in the open window, n = source, element = instance (R409) -/
  | hltWinCount
  /-- `State.now` at which the window opened (R409) -/
  | hltWinAt
  /-- All events of an instance (R409, R410) -/
  | hltTotal
  /-- The restart duty of a trip has not ended (R351) -/
  | optTripped
  /-- The probe window is open (R351) -/
  | optProbeRun
  /-- Element k: phase accumulator of output k (R342) -/
  | optPhase
  /-- OBIAS ramp value (R341) -/
  | optRampVal
  /-- The ramp-down of the disable sequence is running (R341) -/
  | optRampDown
  /-- Element k: BASE written since the last trigger (R344) -/
  | optBaseWr
  /-- OBIAS released from the clamp by a BASE write or the power-up values (R338) -/
  | optReleased
  /-- OMOD and OAUX take their fault values at the next trigger (R339) -/
  | optFault
  /-- SEQ of the next record (R451) -/
  | evfSeq
  /-- Time of day in units of 2^-16 ns (R285) -/
  | timTodNow
  /-- Element i: coefficient c(i) in use (R128) -/
  | leqTapLive
  /-- Element i: written value of tap i (R152) -/
  | leqTapShadow
  /-- Element i: tap i written since the last commit (R152) -/
  | leqTapWritten
  /-- Element i: tap i of the checkpoint (R143) -/
  | leqTapCkpt
  /-- Element i: tap i at blind convergence (R143) -/
  | leqTapBlind
  /-- Element i: adaptation update of tap i waiting for the codeword boundary (R154) -/
  | leqTapDelta
  /-- DFE coefficient d1 in use (R131) -/
  | leqD1Live
  /-- d1 of the checkpoint (R143) -/
  | leqD1Ckpt
  /-- d1 at blind convergence (R143) -/
  | leqD1Blind
  /-- Adaptation update of d1 waiting for the codeword boundary (R154) -/
  | leqD1Delta
  /-- An adaptation update waits for the codeword boundary (R154) -/
  | leqAdaptPend
  /-- A checkpoint restore waits for the codeword boundary (R143) -/
  | leqRestorePend
  /-- AT_LIMIT of the live d1 (R132) -/
  | leqSnapAtLimit
  /-- Consecutive windows at or above BLIND_FOM in the FFE sub-phase (R141) -/
  | leqConvWin
  /-- Consecutive DD windows below BLIND_FOM (R143) -/
  | leqLowWin
  /-- Restore trigger armed (R143) -/
  | leqDivArmed
  /-- Consecutive windows below the lock threshold (R147) -/
  | leqFomLowWin
  /-- Consecutive windows at or above the lock threshold (R147) -/
  | leqFomHighWin
  /-- FOM_LOW event armed (R147) -/
  | leqFomArmed
  /-- Automatic LLR thresholds wait for the codeword boundary (R149) -/
  | leqThrPend
  /-- Element k: automatic threshold T(k+1) that waits (R149) -/
  | leqThrNew
  /-- A histogram capture runs (R157) -/
  | leqHistRun
  /-- Source of the running histogram capture (R157) -/
  | leqHistSrcRun
  /-- MLSE_EN in use (R137) -/
  | leqMlseEnAct
  /-- T1 in use (R137) -/
  | leqMlseT1Act
  /-- T2 in use (R137) -/
  | leqMlseT2Act
  /-- A blind-convergence set exists (R143) -/
  | leqCkptHas
  /-- An automatic restart from FAULT is pending (R254) -/
  | hifRestartArm
  /-- The RELOCK_US wait for the CDR runs (R258) -/
  | hifRelockRun
  /-- Host lane held in OFF by a BIST failure (R420) -/
  | hifHeldOff
  /-- Instance n, element k: latched CMIS flag of kind k (R445) -/
  | cmisFlag
  /-- Instance n, element k: mask of CMIS flag k (R445) -/
  | cmisMask
  /-- AM_TOL, common marker bits that may differ (R270); the spec gives it no register -/
  | hifAmTol
  /-- Instance n: the advertisement of the group with lead lane n is off after a fallback (R265) -/
  | hifEhmAdvOff
  /-- Element n: the gearbox of line lane n forms its stream (R272) -/
  | hifPairRun
  /-- Element n: the pair is paused until the next AM after a skew shift (R271) -/
  | hifPairHold
  /-- Element i: written value of HIF_TX_TAPi (R260, R284) -/
  | hifTapShadow
  /-- Element i: HIF_TX_TAPi written since the last apply (R284) -/
  | hifTapWritten
  /-- Receiver adaptation in TRAIN: 0 none, 1 CTLE sweep, 2 host TX tuning, 3 ended (R257, R261) -/
  | hifTrnPhase
  /-- Training complete, waiting for the other lanes of the group (R264) -/
  | hifTrnDone
  /-- CTLE code with the best FOM of the sweep (R257) -/
  | hifTrnSweepCode
  /-- Best FOM of the sweep plus 1, 0 before the first window (R257) -/
  | hifTrnSweepFom
  /-- Requests sent to the host transmitter in this attempt (R261) -/
  | hifTrnReqs
  /-- Tap under tuning, in the order of R261 -/
  | hifTuneTap
  /-- Tuning step: 1 incremented, 2 decremented (R261) -/
  | hifTuneStage
  /-- FOM a tuning step must better (R261) -/
  | hifTuneFom
  /-- A step of this pass was kept (R261) -/
  | hifTuneKept
  /-- The device reports its receiver ready (R256, R261) -/
  | hifLocalReady
  /-- The host's frames carried the Extended Host Mode advertisement (R264) -/
  | hifHostAdv
  /-- Status returned for the last host request: 0 not updated, 1 updated, 2 at limit (R260) -/
  | hifTrnAnswer
  /-- Consecutive CDR intervals with less than 2 ppm change (R105, R258) -/
  | hifQuietInt
  /-- Consecutive AM matches at one position (R270) -/
  | hifAmMatch
  /-- Consecutive AM periods without a match at the locked position (R270) -/
  | hifAmMiss
  /-- Arrival time of the last AM in bit times (R270) -/
  | hifAmArrival
  /-- VGA frozen since the end of TRAIN (R255) -/
  | hifVgaFrozen
  /-- Offset estimate of the spare that waits for supply recovery (R98, R122) -/
  | lrxNewOfs
  /-- Gain estimate of the spare that waits for supply recovery (R98, R122) -/
  | lrxNewGain
  /-- Skew estimate of the spare that waits for supply recovery (R98, R122) -/
  | lrxNewSkew
  /-- Level of the LPMODE pin: asserted (R372) -/
  | pwrLpmode
  /-- Vote of the device: 0 none, 1 PREPARE, 2 COMMIT (R378) -/
  | pwrDevPhase
  /-- State the device votes for: 6 Standby, 7 Deep (R377) -/
  | pwrDevTarget
  /-- Retries made of the device's transition (R380) -/
  | pwrDevRetry
  /-- A retry of the device's transition is due (R380) -/
  | pwrDevRetryArm
  /-- A retry of the ingress vote is due (R380) -/
  | pwrIngRetryArm
  /-- A retry of the egress vote is due (R380) -/
  | pwrEgrRetryArm
  /-- `State.now` at which the ingress direction fell asleep (R371) -/
  | pwrIngAsleepAt
  /-- `State.now` at which the egress direction fell asleep (R371) -/
  | pwrEgrAsleepAt
  /-- `State.now` at which the device entered Standby or Deep (R371) -/
  | pwrDevAsleepAt
  /-- Domain stagger: 0 none, 1 powering up, 2 powering down (R392) -/
  | pwrStagDir
  /-- Next domain of the stagger in the order XBAR, DECODE0-7, LANE0-7, HOST0-3 (R392, R477) -/
  | pwrStagIdx
  /-- Failed attempts of the present wake series (R376) -/
  | pwrWakeTries
  /-- The core regulator is turned on (R363) -/
  | pwrRegOn
  /-- PGOOD_IN high and REF_OK were reported ready (R477) -/
  | pwrPgood
  /-- PGOOD_IN and REF_OK are awaited after OPERATION on (R376) -/
  | pwrSupplyWait
  /-- The 10 ms with the regulator off run (R376) -/
  | pwrRegOffWait
  /-- VOUT_MODE is the linear format (R388) -/
  | pwrVoutLinear
  /-- DVFS change: 0 none, 1 raise waits for VOUT, 2 stepping clocks, 3 lowering waits for VOUT (R386) -/
  | pwrDvfsPhase
  /-- Set point a change goes to, mV (R386) -/
  | pwrVoutTarget
  /-- Set point before the change, mV (R386) -/
  | pwrVoutPrev
  /-- Points a change goes to, 2 bits per island (R386) -/
  | pwrDvfsTarget
  /-- Points before the change (R386) -/
  | pwrDvfsOld
  /-- `State.now` at which the warning interval began (R390) -/
  | pwrWarnAt
  /-- Rails that entered warning in this interval (R390) -/
  | pwrWarnSeen
  /-- Lowest level of the interval, 5 mV steps (R390) -/
  | pwrWarnLow
  /-- An LRX retention record is held (R382) -/
  | pwrRecLrx
  /-- An LTX retention record is held (R382) -/
  | pwrRecLtx
  /-- An LEQ retention record is held (R382) -/
  | pwrRecLeq
  /-- Bit h: a HIF retention record of host lane h is held (R382) -/
  | pwrRecHif
  /-- The present wake is a cold start (R477) -/
  | pwrStartup
  /-- NVM writes pending: bit 0 of a SEC command, 1 of the host password, 2 of INFO_WRITE (R374, R472) -/
  | secNvmBusy
  /-- ENV_SAVE is writing the NVM (R348) -/
  | optSaveBusy
  /-- A wake of the sleeping receive direction is due (R280) -/
  | hifWakeRx
  /-- A wake of the sleeping transmit direction is due (R280) -/
  | hifWakeTx
  /-- The group's mode: 0 none, 1 native, 2 compatibility (R207) -/
  | lfrGroupMode
  /-- SEQ of the last message sent (R203) -/
  | lfrTxSeq
  /-- TYPE of the message that waits for its acknowledgement, 0 none (R203) -/
  | lfrTxType
  /-- LEN of that message -/
  | lfrTxLen
  /-- BODY of that message, first byte lowest -/
  | lfrTxBody
  /-- What the message belongs to: attempt of a CONFIRM, transaction of an acceptance -/
  | lfrTxTag
  /-- SEQ of the message last acted on, sent as ACK (R203) -/
  | lfrRxSeq
  /-- Number of the negotiation attempt -/
  | lfrNegTag
  /-- Further negotiation attempts made (R211) -/
  | lfrAttempt
  /-- Result word of the present attempt (R210) -/
  | lfrCand
  /-- Our CONFIRM of the attempt has been acknowledged (R211) -/
  | lfrConfAcked
  /-- The partner's CONFIRM of the attempt has come (R211) -/
  | lfrConfGot
  /-- Result word in the partner's CONFIRM (R211) -/
  | lfrPartConf
  /-- A valid side-channel frame came in LISTEN (R211) -/
  | lfrHelloSeen
  /-- A lane other than the lead advertises only the mode of the group (R212) -/
  | lfrLeadOnly
  /-- Transaction number of the last PROFILE_CHANGE sent (R203) -/
  | lfrTxn
  /-- A profile request of this lane is pending (R214) -/
  | lfrReqOpen
  /-- The pending request is a FORCED change (R217) -/
  | lfrReqForced
  /-- The partner accepted the pending request (R215) -/
  | lfrReqAcc
  /-- Profile of the pending request, latched (R219) -/
  | lfrReqProf
  /-- An acceptance sent waits for its acknowledgement (R215) -/
  | lfrReplyWait
  /-- Profile that acceptance names -/
  | lfrReplyProf
  /-- A profile switch waits for the next receive frame boundary (R216) -/
  | lfrSwPend
  /-- Profile of that switch -/
  | lfrSwProf
  /-- Profile left at the last switch, for its record (R453) -/
  | lfrSwOld
  /-- The first release under a switched profile has not come (R216) -/
  | lfrAwaitRel
  /-- Profile of the partner's ingress as far as known (R217) -/
  | lfrPartProf
  /-- Codewords of frames F and F + 1 still to be discarded (R120, R216) -/
  | lfrDiscLeft
  /-- Those discards are counted (R216) -/
  | lfrDiscCnt
  /-- Consecutive bad markers in frame lock (R199) -/
  | lfrBadRun
  /-- Symbol position of hunter 1's candidate or of the lock (R198) -/
  | lfrH1Pos
  /-- Symbol position of the shadow candidate (R200) -/
  | lfrShPos
  /-- Good markers of the shadow candidate (R200) -/
  | lfrShCount
  /-- The transmitter sends the compatibility format (R207) -/
  | lfrCompatTx
  /-- A change of the transmitted format waits for a line TX frame boundary (R207) -/
  | lfrCompatPend
  /-- The transmitter is muted for the frame of a format change (R207) -/
  | lfrCompatMute
  /-- The side channel is modulated (R208) -/
  | lfrSideOn
  /-- Content of the service channel of the frame last sent (R202) -/
  | lfrOutFrame
  /-- Status of the last CDB command: 0 none yet, 0x01 done, 0x83 in progress, 0x40 failed, 0x41 unknown command, 0x42 parameter, 0x46 password (R446) -/
  | cdbStatus
  /-- First reply byte (R446) -/
  | cdbReply0
  /-- A TX tap request waits for the partner's reply (R446) -/
  | cdbTapRun
  /-- Its lane -/
  | cdbTapLane
  /-- OP of the image command in progress, 0 none (R79) -/
  | imgOpRun
  /-- SLOT latched at GO -/
  | imgOpSlot
  /-- GROUP_LEAD latched at GO -/
  | imgOpLead
  /-- The retained record lets CAL skip the DAC cell calibration (R373) -/
  | ltxRecValid
  /-- Element e: state of engine e while its island runs and it has not failed (R220) -/
  | arcEngSt
  /-- Element e: engine e is FAILED (R243) -/
  | arcEngBad
  /-- Element e: corrected microcode ECC errors (R244) -/
  | arcEngEcc
  /-- Element e: an uncorrectable microcode ECC error has come (R243) -/
  | arcEngEcc2
  /-- Element e: activity in BACKGROUND: 1 refresh, 2 histogram gathering (R245) -/
  | arcEngRun
  /-- Element 16 n + b: outcomes of lane n in bin b since the last gathering (R224, R245) -/
  | arcTally
  /-- Payload of the codeword last released to the lane (R237, R238) -/
  | arcClOut
  /-- Receive frame counter of the lane (R196) -/
  | lfrRxFrame
  /-- Ingress codewords that a partial commit still discards (R75, R77) -/
  | lfrPcLeft
  /-- The 24 accumulator bits below FRAC (R285) -/
  | timTodLow
  /-- Offset a slew has still to absorb, signed, 2^-40 ns (R286) -/
  | timSlewLeft
  /-- A SET_AT_TIME_IN waits for its edge (R286) -/
  | timTodArm
  /-- Instance i (lane island 0-7, host island 8-11), element 0 the older, 1 the newer capture: reference-cycle count (R290) -/
  | timCapC
  /-- TOD of the start of that cycle, in 1/2,000 of 2^-40 ns (R290) -/
  | timCapT
  /-- Instance i: captures still needed before timestamps are valid (R290) -/
  | timCapNeed
  /-- Element p (LRX 0-7, LTX 8-15, HRX 16-31, HTX 32-47): factory D_point, signed 2^-16 ns (R291) -/
  | timDFact
  /-- Element p: drift correction in use, signed 2^-16 ns (R291) -/
  | timDUse
  /-- Element p: drift correction that waits for a boundary (R291) -/
  | timDNew
  /-- Element p: a drift correction waits (R291) -/
  | timDPend
  /-- Element p: calibrated analog delay of the point's stage, UQ14.2 ps (R291, R294) -/
  | timAna
  /-- The drift monitor measured after the last CAL (R291) -/
  | timDriftSeen
  /-- The first drift measurement after CAL is awaited (R291) -/
  | timDriftWait
  /-- FIFO entries were dropped since the last one written (R292) -/
  | timTsfLost
  /-- Element 16 kind + index: events since the last one recorded (R292) -/
  | timTsfTick
  /-- No accepted exchange for 16 intervals in RUN (R304) -/
  | timLnStale
  /-- Arrival of the point the present version 1 record selects, 2^-16 ns (R306) -/
  | timLnV1Arr
  /-- Departure of the point of the previous version 1 record, 2^-16 ns (R305) -/
  | timLnDepPrev
  /-- Icris region or record last written for the lane, first byte lowest (R299, R305) -/
  | timLnRegion
  /-- A phase error waits for the loop (R313) -/
  | timDpllDue
  /-- That phase error, signed 2^-16 ns (R312) -/
  | timDpllErr
  /-- Consecutive updates within LOCK_NS (R313) -/
  | timDpllRun
  /-- Consecutive missing updates (R313) -/
  | timDpllMiss
  /-- A valid TIME_IN edge came since enable (R314) -/
  | timInHas
  /-- Time of the last valid edge on the TIME clock, 2^-16 ns (R314) -/
  | timInLast
  /-- TOD at which the last TIME_OUT pulse starts, 2^-16 ns (R315) -/
  | timOutStart
  /-- Width of that pulse, us (R315) -/
  | timOutWide
  /-- 64 plus the band a calibration found below supply warning, committed at recovery; 0 none (R330) -/
  | pllBandHeld
  /-- A complete frequency count lay inside the window since the reference returned (R320) -/
  | clkCountOk
  /-- Optics ticks since a compliance or open-loop condition was last present, at most 1,000 (R341) -/
  | optGoodTicks
  /-- Element k: RANGE at the last trigger (R344) -/
  | optRangeOld
  /-- Optics ticks the ramp-down has run (R347) -/
  | optDownTicks
  /-- `State.now` at the last trip (R351) -/
  | optOffAt
  /-- `State.now` at the last event after which the chain settles (R355) -/
  | monEventAt
  /-- Outputs of the running cross-fade so far (R356) -/
  | monXfK
  /-- Element k: the rail-current sensor of VDD_CORE, VDD_CNV, VDD_HV, VDD_PLL is broken (R397) -/
  | thmRailBroken
  /-- Element k: diode k has been read (R397) -/
  | thmDiodeSeen
  /-- Element k: consecutive updates at or above level k: 0 warning, 1 throttle, 2 critical (R398) -/
  | thmLvlCnt
  /-- Element k: level k is crossed (R398) -/
  | thmLvlOn
  /-- A critical condition waits for the table writes of a partial commit (R79, R403) -/
  | thmCritWait
  /-- A throttle step waits for the table writes of a partial commit (R79) -/
  | thmStepWait
  /-- An ADC step is due (R426) -/
  | hltAdcDue
  /-- A DAC step is due (R426) -/
  | hltDacDue
  /-- The device secret and the password verifier are loaded from NVM (R468, R471) -/
  | secSecretIn
  /-- A KEYSTORE test failed: the next boot refuses every image (R470) -/
  | secKsBoot
  /-- Element k: public key of slot k (R464) -/
  | secKeyPoint
  /-- SEC command in progress, 0 none (R467) -/
  | secOpRun
  /-- Its ARG -/
  | secArgRun
  /-- Its FLAGS -/
  | secFlagsRun
  /-- Where it stands: 1 a token is verified, 2 the NVM is written (R466, R472) -/
  | secPhase
  /-- Copies of the lifecycle state written (R463) -/
  | secLcCopy
  /-- The SECRET region is closed until reset (R468) -/
  | secSecretClosed
  /-- Device secret of the SECRET region (R471) -/
  | secDevice
  /-- Host password verifier of the SECRET region, HMAC-SHA-384 under the device secret (R446, R471) -/
  | secPassword
  /-- The SECRET region holds a password verifier (R471) -/
  | secPwSet
  /-- The host password has been entered since the last reset (R446) -/
  | cdbPwOk
  /-- PWD_REQ of the NVM (R446) -/
  | cdbPwReq
  /-- Password that CDB 0002h is writing (R446) -/
  | cdbNewPw
  /-- FORMAT that waits for an empty FIFO (R453) -/
  | evfFormatNew
  /-- Words of the open inbound message still to come (R456) -/
  | mbxLeft
  /-- Words of a refused message still to be discarded (R456) -/
  | mbxDiscard
  /-- Every word is discarded until IN_ABORT (R456) -/
  | mbxDiscardAll
  /-- A firmware restart is in progress (R435) -/
  | mgtFwDown
  /-- Core that missed its report (R435) -/
  | mgtFwCore
  /-- `State.now` at the last missed report (R435) -/
  | mgtFwMissAt
  /-- A report has been missed (R435) -/
  | mgtFwMissed
  /-- IMG_ERR_DETAIL bits 23 to 0 as a read returns them (R81) -/
  | imgDetRaw
  /-- Lanes of the partial commit in progress (R73) -/
  | imgPcLanes
  /-- B1 of the partial commit has passed (R75) -/
  | imgPcIso
  /-- Lanes whose ingress pause has begun (R75) -/
  | imgPcP
  /-- Lanes whose ingress has resumed (R75) -/
  | imgPcPEnd
  /-- Lanes whose egress pause has begun (R75) -/
  | imgPcQ
  /-- Lanes whose egress has resumed (R75) -/
  | imgPcQEnd
  /-- The table writes of the partial commit are complete (R75) -/
  | imgPcWritten
  /-- Preferred slot that the boot record named (R59) -/
  | imgBootPref
  /-- The boot tries the non-preferred slot (R59) -/
  | imgBootSecond
  /-- Failure code of the preferred slot at boot (R59) -/
  | imgBootErr
  /-- PREFERRED_SLOT of a boot-record copy, held in the boot flash (R57) -/
  | flashRecSlot
  /-- RECORD_SEQ of a boot-record copy, held in the boot flash (R57) -/
  | flashRecSeq
  /-- CRC-32 of a boot-record copy, held in the boot flash (R57, R59) -/
  | flashRecCrc
  /-- The CDB command in progress waits for an image operation (R446) -/
  | cdbImg
  /-- The CDB command in progress waits for a flash erase or write (R447) -/
  | cdbFlash
  /-- Lanes whose group permitted Extended Host Mode before the table writes (R78) -/
  | imgPcOldExt
  /-- Slot of the image record (R382) -/
  | pwrRecImgSlot
  /-- DPDeinit of the line lanes (R444, R478) -/
  | cmisDpDeinit
  /-- A full commit at run time restarts the datapath from PLL calibration (R72) -/
  | imgRestart
  /-- The MODULE_INFO region failed its CRC at load (R471) -/
  | infoBad
  /-- The device is held in Deep after a failed wake series (R376) -/
  | pwrSeriesFail
  /-- PageSelect of the host bus (R436) -/
  | hbPage
  /-- BankSelect of the host bus (R436) -/
  | hbBank
  /-- Dynamic address of the host bus in I3C mode (R437) -/
  | hbDyn
  /-- Maximum write length (R437) -/
  | hbMwl
  /-- Maximum read length (R437) -/
  | hbMrl
  /-- A firmware download is open (R446, R447) -/
  | cdbDlOpen
  /-- Its target slot (R447) -/
  | cdbDlSlot
  /-- Element k: slot k was erased by a download that has not completed, held in the boot flash (R446, R447) -/
  | imgSlotBad
  /-- Integral path of the CDR, 2^-40 UI per lane cycle, signed (R102) -/
  | lrxCdrInt
  /-- Unwrapped phase of the CDR, 2^-40 UI, modulo 65,536 UI (R102, R106) -/
  | lrxCdrAcc
  /-- PAT_SEL of the last COMMIT (R184) -/
  | ltxPatNew
  /-- Element j: running sum of the power of bin j (R166) -/
  | ltxMaskSum
  /-- Blocks in the running average of the mask monitor (R166) -/
  | ltxMaskCnt
  /-- Trim of the cell that waits to take its target position (R170) -/
  | ltxTrimNew
  /-- Bursts of the wake pattern that WAKE_SEND asked for (R185) -/
  | ltxWakeN
  /-- Integral path of the host CDR in 2^-40 UI per host cycle, two's complement (R258) -/
  | hifCdrInt
  /-- VGA code of the host receiver (R255) -/
  | hifVga
  /-- Element n: consecutive AM matches at one position in the released stream of line lane n (R273) -/
  | hifIngMatch
  /-- Element n: consecutive AM periods without a match in the released stream of line lane n (R273) -/
  | hifIngMiss
  /-- Element n: place, modulo 20 bits, at which the first AM found begins in the released stream (R273) -/
  | hifIngPos
  /-- Frames since the test pattern's first one (R184) -/
  | ltxPatFrames
  /-- Frames since the wake pattern's first one (R185) -/
  | ltxWakeFrames
  /-- Icris version in use, from the frame boundary after DONE (R45, R210) -/
  | lfrIcrisUse
  /-- Precoded reception expected, from the frame boundary after DONE (R45, R210) -/
  | lfrPrecRxUse
  /-- A negotiation result waits for the receive frame boundary (R45) -/
  | lfrResPend
  /-- ATC at the first symbol of the receive frame under way, line UI (R48, R226) -/
  | lfrArrBase
  /-- Released payload pauses from the last old codeword to the first new one (R77, R216) -/
  | lfrGapOn
  /-- Side-channel frame under way, first byte lowest (R208) -/
  | lfrSideFrame
  /-- TIME clock cycle at which it started (R208) -/
  | lfrSideAt
  /-- The lane's own UI count, started at frame lock, at the first symbol of the receive frame under way (R48, R237) -/
  | lfrUiBase
  /-- 3,840-bit units received since frame lock in compatibility mode, modulo 4,096 (R240) -/
  | lfrUnits
  /-- ATC at the last stop of the core PLL's outputs (R225) -/
  | clkAtcHeld
  /-- TIME clock cycle at which they last started (R225) -/
  | clkAtcAt
  /-- Cause, plus 1, of an entry to FAULT that waits for the table writes of a partial commit (R79) -/
  | lrxFaultWait
  /-- A SET_NOW takes effect at the next TIME cycle (R286) -/
  | timTodPend
  /-- Sum of all sets and steps of the TOD, signed 2^-40 ns (R286, R290) -/
  | timJump
  /-- That sum before the last set or step (R317) -/
  | timJumpOld
  /-- TOD less that sum at the last set or step, 2^-40 ns (R317) -/
  | timJumpAt
  /-- Element p: the 64-entry linearity table that waits for a boundary, signed 2^-16 ns, entry k in bits 16 k + 15 to 16 k (R291) -/
  | timLinNew
  /-- Element p: the linearity table in use (R291) -/
  | timLinUse
  /-- The marker of the frame whose content is awaited has a timestamp (R299, R302) -/
  | timLnRxFresh
  /-- The marker of the frame that is sent has a timestamp (R300) -/
  | timLnTxFresh
  /-- The last LRX timestamp was marked suspect (R316) -/
  | timLnSusRx
  /-- The last LTX timestamp was marked suspect (R316) -/
  | timLnSusTx
  /-- The point that the present version 1 record selects has arrived (R306) -/
  | timLnV1Fresh
  /-- Estimate of the lane island at the entry that saved the LRX record, signed Q12.4 degrees C (R373, R382) -/
  | pwrRecTjLrx
  /-- Estimate of the lane island at the entry that saved the LTX record, signed Q12.4 degrees C (R373, R382) -/
  | pwrRecTjLtx
  /-- The calibration that has ended in a band serves a CAL_REQ (R413) -/
  | pllReqServed
  /-- Last reading of the VDD_IO monitor, mV (R389, R442) -/
  | pwrVddIoMv
  /-- Bit k: a download has completed in slot k since the no-image state was entered (R60, R446) -/
  | imgSlotNew
  /-- The candidate was read from a slot written since the no-image state was entered (R60) -/
  | imgCandNew
  /-- A FIR tap or a LUT entry has been written since the last commit of them (R167) -/
  | ltxShapeSet
  /-- Request that the training frames carry: 0 none, 1 preset, 2 increment, 3 decrement (R261) -/
  | hifTrnAsk
  /-- Preset or tap of that request, tap i for c(i - 3) (R260, R261) -/
  | hifTrnAskArg
  /-- CTLE_MAX that the sweep read at its start (R257, R284) -/
  | hifSweepMax
  /-- CTLE_MAN_EN that the sweep read at its start (R257, R284) -/
  | hifSweepMan
  /-- State.now plus 1 at a loss of CDR lock that met a lane one period short of AM loss, else 0 (R281) -/
  | hifLossAt
  /-- TIME cycles from the last detected SYNC to the last LRX point (R306) -/
  | timLnSyncAge
  /-- The version 1 record last sent has no timing point yet (R306) -/
  | timLnSelOn
  /-- Earliest departure of that point, signed 2^-16 ns of the TOD without its jumps (R306) -/
  | timLnSelAt
  /-- The timestamp of the last selected departure was marked suspect (R316) -/
  | timLnDepSus
  /-- The timestamp of the last selected arrival was marked suspect (R316) -/
  | timLnV1Sus
  /-- A TOD discontinuity followed the last LRX timestamp (R303, R317) -/
  | timLnDiscRx
  /-- A TOD discontinuity followed the last LTX timestamp (R299, R317) -/
  | timLnDiscTx
  /-- A TOD discontinuity followed the last selected arrival (R303, R317) -/
  | timLnDiscV1
  /-- Source of a wake that waits for the end of a Standby or Deep entry; 0 none (R369, R372) -/
  | pwrWakePend
  /-- The retries of the device transition are used up (R380) -/
  | pwrDevGiveup
  /-- VOUT_MV of an expert lowering that waits below warning, mV; 0 none (R387, R390) -/
  | pwrVoutHeld
  /-- VOUT_TRANSITION_RATE written to the regulator, mV/us (R388) -/
  | pwrVoutRate
  /-- TX FIFO phase of the line transmitter (R382) -/
  | ltxFifoPhase
  /-- TX FIFO phase of a host lane (R382) -/
  | hifFifoPhase
  /-- Element i: hot spot node of island i, signed, 2^-20 degrees C (R394) -/
  | thmNode0
  /-- Element i: silicon node of island i, signed, 2^-20 degrees C (R394) -/
  | thmNode1
  /-- Element i: die region node of island i, signed, 2^-20 degrees C (R394) -/
  | thmNode2
  /-- Element i: lid coupling node of island i, signed, 2^-20 degrees C (R394) -/
  | thmNode3
  /-- Case node, signed, 2^-20 degrees C (R394, R396) -/
  | thmCase
  /-- Element k: consecutive updates in which the sensor of rail k differed by more than 50 % from the prediction (R397) -/
  | thmRailOff
  /-- The copies of the SECRET region were held when a KEYSTORE test cleared them (R419) -/
  | secSecretHad
  /-- The KEYS region failed its CRC at load: its slots stand as EMPTY (R471) -/
  | secKeysBad
deriving DecidableEq, Repr

/-- What the register tables say of a field: block, byte offset, bits, access type, reset value, array count and
byte stride, 32-bit words of a multi-word value (R19), whether it is shadowed (R45), and the range a write is clamped to. -/
structure Desc where
  block : Block
  off : Nat
  hi : Nat
  lo : Nat
  access : Access
  reset : Nat
  count : Nat
  stride : Nat
  words : Nat
  shadow : Bool
  least : Nat
  most : Nat
deriving DecidableEq, Repr

/-- The register tables of chapters 00 to 17. -/
def Field.desc : Field → Desc
  | .glbPart => ⟨.glb, 0x4, 31, 16, .ro, 0x3208, 1, 4, 1, false, 0, 65535⟩
  | .glbGrade => ⟨.glb, 0x4, 11, 8, .ro, 0x0, 1, 4, 1, false, 0, 15⟩
  | .glbStepMajor => ⟨.glb, 0x4, 7, 4, .ro, 0x2, 1, 4, 1, false, 0, 15⟩
  | .glbStepMinor => ⟨.glb, 0x4, 3, 0, .ro, 0x1, 1, 4, 1, false, 0, 15⟩
  | .glbAonRun => ⟨.glb, 0x40, 23, 23, .ro, 0x1, 1, 4, 1, false, 0, 1⟩
  | .glbMgmtRun => ⟨.glb, 0x40, 22, 22, .ro, 0x1, 1, 4, 1, false, 0, 1⟩
  | .glbTimeRun => ⟨.glb, 0x40, 21, 21, .ro, 0x0, 1, 4, 1, false, 0, 1⟩
  | .glbXbarRun => ⟨.glb, 0x40, 20, 20, .ro, 0x0, 1, 4, 1, false, 0, 1⟩
  | .glbHostRun => ⟨.glb, 0x40, 19, 16, .ro, 0x0, 1, 4, 1, false, 0, 15⟩
  | .glbDecodeRun => ⟨.glb, 0x40, 15, 8, .ro, 0x0, 1, 4, 1, false, 0, 255⟩
  | .glbLaneRun => ⟨.glb, 0x40, 7, 0, .ro, 0x0, 1, 4, 1, false, 0, 255⟩
  | .glbStraitClr => ⟨.glb, 0x44, 31, 31, .sc, 0x0, 1, 4, 1, false, 0, 1⟩
  | .glbStraitLastId => ⟨.glb, 0x44, 23, 16, .ro, 0x0, 1, 4, 1, false, 0, 255⟩
  | .glbStraitOvfCount => ⟨.glb, 0x44, 15, 0, .ro, 0x0, 1, 4, 1, false, 0, 65535⟩
  | .imgCmdGo => ⟨.img, 0x0, 31, 31, .sc, 0x0, 1, 4, 1, false, 0, 1⟩
  | .imgCmdGroupLead => ⟨.img, 0x0, 10, 8, .rw, 0x0, 1, 4, 1, false, 0, 7⟩
  | .imgCmdSlot => ⟨.img, 0x0, 5, 4, .rw, 0x0, 1, 4, 1, false, 0, 3⟩
  | .imgCmdOp => ⟨.img, 0x0, 3, 0, .rw, 0x0, 1, 4, 1, false, 0, 15⟩
  | .imgCandidateValid => ⟨.img, 0x4, 31, 31, .ro, 0x0, 1, 4, 1, false, 0, 1⟩
  | .imgCandidateSlot => ⟨.img, 0x4, 30, 30, .ro, 0x0, 1, 4, 1, false, 0, 1⟩
  | .imgErrLane => ⟨.img, 0x4, 26, 24, .ro, 0x0, 1, 4, 1, false, 0, 7⟩
  | .imgErrSection => ⟨.img, 0x4, 23, 16, .ro, 0x0, 1, 4, 1, false, 0, 255⟩
  | .imgErr => ⟨.img, 0x4, 15, 8, .ro, 0x0, 1, 4, 1, false, 0, 255⟩
  | .imgState => ⟨.img, 0x4, 3, 0, .ro, 0x1, 1, 4, 1, false, 0, 15⟩
  | .imgDetPool => ⟨.img, 0x8, 23, 23, .ro, 0x0, 1, 4, 1, false, 0, 1⟩
  | .imgDetWhich => ⟨.img, 0x8, 22, 22, .ro, 0x0, 1, 4, 1, false, 0, 1⟩
  | .imgDetProfile => ⟨.img, 0x8, 21, 20, .ro, 0x0, 1, 4, 1, false, 0, 3⟩
  | .imgDetMid => ⟨.img, 0x8, 19, 16, .ro, 0x0, 1, 4, 1, false, 0, 15⟩
  | .imgDetRequired => ⟨.img, 0x8, 15, 8, .ro, 0x0, 1, 4, 1, false, 0, 255⟩
  | .imgDetConfigured => ⟨.img, 0x8, 7, 0, .ro, 0x0, 1, 4, 1, false, 0, 255⟩
  | .imgActiveFmtMinor => ⟨.img, 0xc, 31, 16, .ro, 0x0, 1, 4, 1, false, 0, 65535⟩
  | .imgActiveFmtMajor => ⟨.img, 0xc, 15, 8, .ro, 0x0, 1, 4, 1, false, 0, 255⟩
  | .imgActiveFallback => ⟨.img, 0xc, 1, 1, .ro, 0x0, 1, 4, 1, false, 0, 1⟩
  | .imgActiveSlot => ⟨.img, 0xc, 0, 0, .ro, 0x0, 1, 4, 1, false, 0, 1⟩
  | .imgActiveSeq => ⟨.img, 0x10, 31, 0, .ro, 0x0, 1, 4, 1, false, 0, 4294967295⟩
  | .imgCandSeq => ⟨.img, 0x1c, 31, 0, .ro, 0x0, 1, 4, 1, false, 0, 4294967295⟩
  | .imgActiveBuild => ⟨.img, 0x14, 63, 0, .ro, 0x0, 1, 4, 2, false, 0, 18446744073709551615⟩
  | .imgPcClr => ⟨.img, 0x20, 31, 31, .sc, 0x0, 1, 4, 1, false, 0, 1⟩
  | .imgPcLastGroup => ⟨.img, 0x20, 26, 24, .ro, 0x0, 1, 4, 1, false, 0, 7⟩
  | .imgPcCount => ⟨.img, 0x20, 23, 20, .ro, 0x0, 1, 4, 1, false, 0, 15⟩
  | .imgPcDiscard => ⟨.img, 0x20, 19, 0, .ro, 0x0, 1, 4, 1, false, 0, 1048575⟩
  | .imgPcLastResume => ⟨.img, 0x30, 127, 0, .ro, 0x0, 1, 4, 4, false, 0, 340282366920938463463374607431768211455⟩
  | .imgSkipped => ⟨.img, 0x24, 7, 0, .ro, 0x0, 1, 4, 1, false, 0, 255⟩
  | .lrxCommit => ⟨.lrx, 0x0, 31, 31, .sc, 0x0, 1, 4, 1, false, 0, 1⟩
  | .lrxRestart => ⟨.lrx, 0x0, 30, 30, .sc, 0x0, 1, 4, 1, false, 0, 1⟩
  | .lrxCntClr => ⟨.lrx, 0x0, 29, 29, .sc, 0x0, 1, 4, 1, false, 0, 1⟩
  | .lrxWakePatEn => ⟨.lrx, 0x0, 5, 5, .rw, 0x0, 1, 4, 1, false, 0, 1⟩
  | .lrxWakeSdEn => ⟨.lrx, 0x0, 4, 4, .rw, 0x0, 1, 4, 1, false, 0, 1⟩
  | .lrxAutoRestart => ⟨.lrx, 0x0, 3, 3, .rw, 0x1, 1, 4, 1, false, 0, 1⟩
  | .lrxServiceEn => ⟨.lrx, 0x0, 2, 2, .rw, 0x1, 1, 4, 1, false, 0, 1⟩
  | .lrxEnable => ⟨.lrx, 0x0, 0, 0, .rw, 0x0, 1, 4, 1, false, 0, 1⟩
  | .lrxFaultCause => ⟨.lrx, 0x4, 27, 24, .ro, 0x0, 1, 4, 1, false, 0, 15⟩
  | .lrxRetry => ⟨.lrx, 0x4, 19, 16, .ro, 0x0, 1, 4, 1, false, 0, 15⟩
  | .lrxSleep => ⟨.lrx, 0x4, 12, 12, .ro, 0x0, 1, 4, 1, false, 0, 1⟩
  | .lrxSd => ⟨.lrx, 0x4, 11, 11, .ro, 0x0, 1, 4, 1, false, 0, 1⟩
  | .lrxAgcState => ⟨.lrx, 0x4, 10, 8, .ro, 0x0, 1, 4, 1, false, 0, 7⟩
  | .lrxCdrLock => ⟨.lrx, 0x4, 7, 7, .ro, 0x0, 1, 4, 1, false, 0, 1⟩
  | .lrxAcqPhase => ⟨.lrx, 0x4, 6, 4, .ro, 0x0, 1, 4, 1, false, 0, 7⟩
  | .lrxState => ⟨.lrx, 0x4, 2, 0, .ro, 0x0, 1, 4, 1, false, 0, 7⟩
  | .lrxOverride => ⟨.lrx, 0x8, 12, 8, .ro, 0x0, 1, 4, 1, false, 0, 31⟩
  | .lrxPreset => ⟨.lrx, 0x8, 1, 0, .rw, 0x0, 1, 4, 1, true, 0, 3⟩
  | .lrxVgaManEn => ⟨.lrx, 0xc, 16, 16, .rw, 0x0, 1, 4, 1, true, 0, 1⟩
  | .lrxVgaManCode => ⟨.lrx, 0xc, 15, 8, .rw, 0x30, 1, 4, 1, true, 0, 255⟩
  | .lrxCtlePeak => ⟨.lrx, 0xc, 3, 0, .rw, 0x6, 1, 4, 1, true, 0, 15⟩
  | .lrxTrimRange => ⟨.lrx, 0x10, 31, 24, .rw, 0x30, 1, 4, 1, true, 8, 96⟩
  | .lrxTrimEn => ⟨.lrx, 0x10, 23, 23, .rw, 0x1, 1, 4, 1, true, 0, 1⟩
  | .lrxAgcSh => ⟨.lrx, 0x10, 17, 16, .rw, 0x1, 1, 4, 1, true, 0, 3⟩
  | .lrxAgcTarget => ⟨.lrx, 0x10, 6, 0, .rw, 0x30, 1, 4, 1, true, 24, 80⟩
  | .lrxVgaCode => ⟨.lrx, 0x14, 31, 24, .ro, 0x30, 1, 4, 1, false, 0, 255⟩
  | .lrxTrim => ⟨.lrx, 0x14, 23, 16, .ro, 0x0, 1, 4, 1, false, 0, 255⟩
  | .lrxLevel => ⟨.lrx, 0x14, 15, 0, .ro, 0x0, 1, 4, 1, false, 0, 65535⟩
  | .lrxSvcCaptureDb => ⟨.lrx, 0x18, 15, 8, .rw, 0x60, 1, 4, 1, false, 16, 255⟩
  | .lrxCaptureDb => ⟨.lrx, 0x18, 7, 0, .rw, 0x30, 1, 4, 1, false, 16, 255⟩
  | .lrxOfsLimit => ⟨.lrx, 0x1c, 16, 16, .ro, 0x0, 1, 4, 1, false, 0, 1⟩
  | .lrxOfsCode => ⟨.lrx, 0x1c, 15, 8, .ro, 0x0, 1, 4, 1, false, 0, 255⟩
  | .lrxOfsBw => ⟨.lrx, 0x1c, 1, 0, .rw, 0x1, 1, 4, 1, true, 0, 3⟩
  | .lrxHyst => ⟨.lrx, 0x20, 16, 16, .rw, 0x0, 1, 4, 1, false, 0, 1⟩
  | .lrxSdThresh => ⟨.lrx, 0x20, 7, 0, .rw, 0x1e, 1, 4, 1, false, 10, 125⟩
  | .lrxCdrHold => ⟨.lrx, 0x24, 31, 31, .rw, 0x0, 1, 4, 1, true, 0, 1⟩
  | .lrxKiShTrk => ⟨.lrx, 0x24, 28, 24, .rw, 0xf, 1, 4, 1, true, 8, 24⟩
  | .lrxKpShTrk => ⟨.lrx, 0x24, 19, 16, .rw, 0x6, 1, 4, 1, true, 3, 12⟩
  | .lrxKiShAcq => ⟨.lrx, 0x24, 12, 8, .rw, 0xb, 1, 4, 1, true, 8, 24⟩
  | .lrxKpShAcq => ⟨.lrx, 0x24, 3, 0, .rw, 0x4, 1, 4, 1, true, 3, 12⟩
  | .lrxCdrFreq => ⟨.lrx, 0x28, 23, 0, .ro, 0x0, 1, 4, 1, false, 0, 16777215⟩
  | .lrxCdrPhase => ⟨.lrx, 0x2c, 31, 0, .ro, 0x0, 1, 4, 1, false, 0, 4294967295⟩
  | .lrxCdrTmoUs => ⟨.lrx, 0x30, 31, 16, .rw, 0xc8, 1, 4, 1, false, 0, 65535⟩
  | .lrxAgcTmoUs => ⟨.lrx, 0x30, 15, 0, .rw, 0x14, 1, 4, 1, false, 0, 65535⟩
  | .lrxFrameTmoUs => ⟨.lrx, 0x34, 31, 16, .rw, 0x64, 1, 4, 1, false, 0, 65535⟩
  | .lrxFfeTmoUs => ⟨.lrx, 0x34, 15, 0, .rw, 0x7d0, 1, 4, 1, false, 0, 65535⟩
  | .lrxRetryMax => ⟨.lrx, 0x38, 31, 28, .rw, 0x3, 1, 4, 1, false, 0, 15⟩
  | .lrxFaultHoldUs => ⟨.lrx, 0x38, 27, 16, .rw, 0x3e8, 1, 4, 1, false, 0, 4095⟩
  | .lrxCalTmoUs => ⟨.lrx, 0x38, 15, 0, .rw, 0x2710, 1, 4, 1, false, 0, 65535⟩
  | .lrxTrainTmoUs => ⟨.lrx, 0x3c, 19, 0, .rw, 0x7a120, 1, 4, 1, false, 0, 1048575⟩
  | .lrxSwapDeferred => ⟨.lrx, 0x40, 26, 26, .ro, 0x0, 1, 4, 1, false, 0, 1⟩
  | .lrxCalActive => ⟨.lrx, 0x40, 25, 25, .ro, 0x0, 1, 4, 1, false, 0, 1⟩
  | .lrxNoSpare => ⟨.lrx, 0x40, 24, 24, .ro, 0x0, 1, 4, 1, false, 0, 1⟩
  | .lrxAdcFailed => ⟨.lrx, 0x40, 22, 16, .ro, 0x7f, 1, 4, 1, false, 0, 127⟩
  | .lrxAdcTarget => ⟨.lrx, 0x40, 14, 8, .ro, 0x0, 1, 4, 1, false, 0, 127⟩
  | .lrxAdcSpare => ⟨.lrx, 0x40, 6, 0, .ro, 0x40, 1, 4, 1, false, 0, 127⟩
  | .lrxSlicePos => ⟨.lrx, 0x44, 21, 16, .ro, 0x0, 1, 4, 1, false, 0, 63⟩
  | .lrxSliceSel => ⟨.lrx, 0x44, 6, 0, .rw, 0x0, 1, 4, 1, false, 0, 64⟩
  | .lrxSliceState => ⟨.lrx, 0x48, 31, 28, .ro, 0x0, 1, 4, 1, false, 0, 15⟩
  | .lrxSkew => ⟨.lrx, 0x48, 27, 18, .ro, 0x0, 1, 4, 1, false, 0, 1023⟩
  | .lrxGain => ⟨.lrx, 0x48, 17, 8, .ro, 0x0, 1, 4, 1, false, 0, 1023⟩
  | .lrxOffset => ⟨.lrx, 0x48, 7, 0, .ro, 0x0, 1, 4, 1, false, 0, 255⟩
  | .lrxOvrCnt => ⟨.lrx, 0x50, 31, 0, .ro, 0x0, 1, 4, 1, false, 0, 4294967295⟩
  | .lrxCaptureSvcCnt => ⟨.lrx, 0x54, 31, 16, .ro, 0x0, 1, 4, 1, false, 0, 65535⟩
  | .lrxCdrLolCnt => ⟨.lrx, 0x54, 15, 0, .ro, 0x0, 1, 4, 1, false, 0, 65535⟩
  | .lrxSdLossCnt => ⟨.lrx, 0x58, 31, 16, .ro, 0x0, 1, 4, 1, false, 0, 65535⟩
  | .lrxAcqRetryCnt => ⟨.lrx, 0x58, 15, 8, .ro, 0x0, 1, 4, 1, false, 0, 255⟩
  | .lrxAcqCaptureCnt => ⟨.lrx, 0x58, 7, 0, .ro, 0x0, 1, 4, 1, false, 0, 255⟩
  | .lrxWarmFailCnt => ⟨.lrx, 0x5c, 31, 16, .ro, 0x0, 1, 4, 1, false, 0, 65535⟩
  | .lrxLevelDropCnt => ⟨.lrx, 0x5c, 15, 0, .ro, 0x0, 1, 4, 1, false, 0, 65535⟩
  | .leqCommit => ⟨.leq, 0x0, 31, 31, .sc, 0x0, 1, 4, 1, false, 0, 1⟩
  | .leqCoefSnap => ⟨.leq, 0x0, 30, 30, .sc, 0x0, 1, 4, 1, false, 0, 1⟩
  | .leqCntClr => ⟨.leq, 0x0, 29, 29, .sc, 0x0, 1, 4, 1, false, 0, 1⟩
  | .leqHistStart => ⟨.leq, 0x0, 28, 28, .sc, 0x0, 1, 4, 1, false, 0, 1⟩
  | .leqAdaptEn => ⟨.leq, 0x0, 0, 0, .rw, 0x1, 1, 4, 1, false, 0, 1⟩
  | .leqCkptValid => ⟨.leq, 0x4, 12, 12, .ro, 0x0, 1, 4, 1, false, 0, 1⟩
  | .leqHoldCause => ⟨.leq, 0x4, 11, 8, .ro, 0x0, 1, 4, 1, false, 0, 15⟩
  | .leqMlsePending => ⟨.leq, 0x4, 6, 6, .ro, 0x0, 1, 4, 1, false, 0, 1⟩
  | .leqMlseActive => ⟨.leq, 0x4, 5, 5, .ro, 0x0, 1, 4, 1, false, 0, 1⟩
  | .leqBlindConv => ⟨.leq, 0x4, 4, 4, .ro, 0x0, 1, 4, 1, false, 0, 1⟩
  | .leqMode => ⟨.leq, 0x4, 2, 0, .ro, 0x0, 1, 4, 1, false, 0, 7⟩
  | .leqOverride => ⟨.leq, 0x8, 15, 8, .ro, 0x0, 1, 4, 1, false, 0, 255⟩
  | .leqPreset => ⟨.leq, 0x8, 1, 0, .rw, 0x0, 1, 4, 1, true, 0, 3⟩
  | .leqUpdSh => ⟨.leq, 0xc, 26, 24, .rw, 0x2, 1, 4, 1, true, 0, 6⟩
  | .leqMuShDfe => ⟨.leq, 0xc, 20, 16, .rw, 0xc, 1, 4, 1, true, 6, 20⟩
  | .leqMuShDd => ⟨.leq, 0xc, 12, 8, .rw, 0xc, 1, 4, 1, true, 6, 20⟩
  | .leqMuShBlind => ⟨.leq, 0xc, 3, 0, .rw, 0x6, 1, 4, 1, true, 2, 14⟩
  | .leqDfeEn => ⟨.leq, 0x10, 31, 31, .rw, 0x1, 1, 4, 1, true, 0, 1⟩
  | .leqDfeMax => ⟨.leq, 0x10, 7, 0, .rw, 0x60, 1, 4, 1, true, 0, 115⟩
  | .leqAtLimit => ⟨.leq, 0x14, 16, 16, .ro, 0x0, 1, 4, 1, false, 0, 1⟩
  | .leqD1 => ⟨.leq, 0x14, 8, 0, .ro, 0x0, 1, 4, 1, false, 0, 511⟩
  | .leqMlseEn => ⟨.leq, 0x18, 31, 31, .rw, 0x0, 1, 4, 1, true, 0, 1⟩
  | .leqMlseT2 => ⟨.leq, 0x18, 15, 8, .rw, 0x10, 1, 4, 1, true, 0, 255⟩
  | .leqMlseT1 => ⟨.leq, 0x18, 7, 0, .rw, 0x40, 1, 4, 1, true, 0, 255⟩
  | .leqLlrAuto => ⟨.leq, 0x1c, 31, 31, .rw, 0x1, 1, 4, 1, true, 0, 1⟩
  | .leqB3 => ⟨.leq, 0x1c, 23, 16, .rw, 0x48, 1, 4, 1, true, 0, 255⟩
  | .leqB2 => ⟨.leq, 0x1c, 15, 8, .rw, 0x28, 1, 4, 1, true, 0, 255⟩
  | .leqB1 => ⟨.leq, 0x1c, 7, 0, .rw, 0x10, 1, 4, 1, true, 0, 255⟩
  | .leqThrT3 => ⟨.leq, 0x20, 29, 20, .rw, 0x2d, 1, 4, 1, true, 0, 1023⟩
  | .leqThrActT3 => ⟨.leq, 0x24, 29, 20, .ro, 0x2d, 1, 4, 1, false, 0, 1023⟩
  | .leqThrT2 => ⟨.leq, 0x20, 19, 10, .rw, 0x19, 1, 4, 1, true, 0, 1023⟩
  | .leqThrActT2 => ⟨.leq, 0x24, 19, 10, .ro, 0x19, 1, 4, 1, false, 0, 1023⟩
  | .leqThrT1 => ⟨.leq, 0x20, 9, 0, .rw, 0xa, 1, 4, 1, true, 0, 1023⟩
  | .leqThrActT1 => ⟨.leq, 0x24, 9, 0, .ro, 0xa, 1, 4, 1, false, 0, 1023⟩
  | .leqEyeQ => ⟨.leq, 0x28, 31, 24, .rw, 0x30, 1, 4, 1, true, 0, 255⟩
  | .leqFomWin => ⟨.leq, 0x28, 17, 16, .rw, 0x1, 1, 4, 1, true, 0, 3⟩
  | .leqBlindFom => ⟨.leq, 0x28, 15, 0, .rw, 0xb00, 1, 4, 1, true, 0, 65535⟩
  | .leqFomLockEspresso => ⟨.leq, 0x2c, 31, 16, .rw, 0xfc0, 1, 4, 1, false, 0, 65535⟩
  | .leqFomLockRistretto => ⟨.leq, 0x2c, 15, 0, .rw, 0x1280, 1, 4, 1, false, 0, 65535⟩
  | .leqFomLockCompat => ⟨.leq, 0x30, 31, 16, .rw, 0x1000, 1, 4, 1, false, 0, 65535⟩
  | .leqFomLockLungo => ⟨.leq, 0x30, 15, 0, .rw, 0xf00, 1, 4, 1, false, 0, 65535⟩
  | .leqFomValid => ⟨.leq, 0x34, 31, 31, .ro, 0x0, 1, 4, 1, false, 0, 1⟩
  | .leqFom => ⟨.leq, 0x34, 15, 0, .ro, 0x0, 1, 4, 1, false, 0, 65535⟩
  | .leqMse => ⟨.leq, 0x38, 23, 0, .ro, 0x0, 1, 4, 1, false, 0, 16777215⟩
  | .leqStartMain => ⟨.leq, 0x3c, 11, 0, .rw, 0x600, 1, 4, 1, true, 256, 2047⟩
  | .leqLevelSigma => ⟨.leq, 0x40, 31, 16, .ro, 0x7fff, 4, 4, 1, false, 0, 65535⟩
  | .leqLevelMean => ⟨.leq, 0x40, 15, 0, .ro, 0x0, 4, 4, 1, false, 0, 65535⟩
  | .leqEyeWorst => ⟨.leq, 0x50, 17, 16, .ro, 0x0, 1, 4, 1, false, 0, 3⟩
  | .leqEyeMin => ⟨.leq, 0x50, 15, 0, .ro, 0x0, 1, 4, 1, false, 0, 65535⟩
  | .leqHistDone => ⟨.leq, 0x54, 31, 31, .ro, 0x0, 1, 4, 1, false, 0, 1⟩
  | .leqHistSrc => ⟨.leq, 0x54, 8, 8, .rw, 0x0, 1, 4, 1, false, 0, 1⟩
  | .leqHistLen => ⟨.leq, 0x54, 4, 0, .rw, 0x14, 1, 4, 1, false, 10, 26⟩
  | .leqDivergeCnt => ⟨.leq, 0x60, 31, 16, .ro, 0x0, 1, 4, 1, false, 0, 65535⟩
  | .leqFomLowCnt => ⟨.leq, 0x60, 15, 0, .ro, 0x0, 1, 4, 1, false, 0, 65535⟩
  | .leqDfeBurstCnt => ⟨.leq, 0x64, 31, 0, .ro, 0x0, 1, 4, 1, false, 0, 4294967295⟩
  | .leqTapFreeze => ⟨.leq, 0x100, 31, 31, .rw, 0x0, 41, 4, 1, true, 0, 1⟩
  | .leqTapCoef => ⟨.leq, 0x100, 11, 0, .rw, 0x0, 41, 4, 1, false, 0, 4095⟩
  | .leqHist => ⟨.leq, 0x400, 31, 0, .ro, 0x0, 128, 4, 1, false, 0, 4294967295⟩
  | .ltxCommit => ⟨.ltx, 0x0, 31, 31, .sc, 0x0, 1, 4, 1, false, 0, 1⟩
  | .ltxCntClr => ⟨.ltx, 0x0, 30, 30, .sc, 0x0, 1, 4, 1, false, 0, 1⟩
  | .ltxRestart => ⟨.ltx, 0x0, 29, 29, .sc, 0x0, 1, 4, 1, false, 0, 1⟩
  | .ltxWakeSend => ⟨.ltx, 0x0, 28, 28, .sc, 0x0, 1, 4, 1, false, 0, 1⟩
  | .ltxAutoRestart => ⟨.ltx, 0x0, 2, 2, .rw, 0x1, 1, 4, 1, false, 0, 1⟩
  | .ltxTxEn => ⟨.ltx, 0x0, 0, 0, .rw, 0x0, 1, 4, 1, false, 0, 1⟩
  | .ltxFaultCause => ⟨.ltx, 0x4, 27, 24, .ro, 0x0, 1, 4, 1, false, 0, 15⟩
  | .ltxHoldReason => ⟨.ltx, 0x4, 19, 16, .ro, 0x0, 1, 4, 1, false, 0, 15⟩
  | .ltxSleep => ⟨.ltx, 0x4, 13, 12, .ro, 0x0, 1, 4, 1, false, 0, 3⟩
  | .ltxTxenPending => ⟨.ltx, 0x4, 8, 8, .ro, 0x0, 1, 4, 1, false, 0, 1⟩
  | .ltxState => ⟨.ltx, 0x4, 3, 0, .ro, 0x0, 1, 4, 1, false, 0, 15⟩
  | .ltxOverride => ⟨.ltx, 0x8, 9, 8, .ro, 0x0, 1, 4, 1, false, 0, 3⟩
  | .ltxPreset => ⟨.ltx, 0x8, 1, 0, .rw, 0x0, 1, 4, 1, true, 0, 3⟩
  | .ltxLsrSettleUs => ⟨.ltx, 0xc, 31, 16, .rw, 0x1f4, 1, 4, 1, false, 10, 10000⟩
  | .ltxDrvSettleUs => ⟨.ltx, 0xc, 15, 0, .rw, 0x32, 1, 4, 1, false, 1, 1000⟩
  | .ltxTxenTmoUs => ⟨.ltx, 0x10, 31, 16, .rw, 0x1388, 1, 4, 1, false, 100, 65535⟩
  | .ltxFaultHoldUs => ⟨.ltx, 0x10, 15, 0, .rw, 0x3e8, 1, 4, 1, false, 10, 65535⟩
  | .ltxDrvHoldUs => ⟨.ltx, 0x14, 9, 0, .rw, 0x14, 1, 4, 1, false, 1, 1000⟩
  | .ltxPrecodeAct => ⟨.ltx, 0x18, 24, 24, .ro, 0x0, 1, 4, 1, false, 0, 1⟩
  | .ltxPolInv => ⟨.ltx, 0x18, 16, 16, .rw, 0x0, 1, 4, 1, true, 0, 1⟩
  | .ltxWakeBursts => ⟨.ltx, 0x18, 15, 8, .rw, 0x20, 1, 4, 1, false, 24, 255⟩
  | .ltxPatLevel => ⟨.ltx, 0x18, 5, 4, .rw, 0x0, 1, 4, 1, true, 0, 3⟩
  | .ltxPatSel => ⟨.ltx, 0x18, 2, 0, .rw, 0x0, 1, 4, 1, true, 0, 5⟩
  | .ltxLutEn => ⟨.ltx, 0x1c, 0, 0, .rw, 0x1, 1, 4, 1, true, 0, 1⟩
  | .ltxSwapDeferred => ⟨.ltx, 0x20, 26, 26, .ro, 0x0, 1, 4, 1, false, 0, 1⟩
  | .ltxCalActive => ⟨.ltx, 0x20, 25, 25, .ro, 0x0, 1, 4, 1, false, 0, 1⟩
  | .ltxNoSpare => ⟨.ltx, 0x20, 24, 24, .ro, 0x0, 1, 4, 1, false, 0, 1⟩
  | .ltxFailedCnt => ⟨.ltx, 0x20, 19, 16, .ro, 0x0, 1, 4, 1, false, 0, 15⟩
  | .ltxDacTarget => ⟨.ltx, 0x20, 14, 8, .ro, 0x0, 1, 4, 1, false, 0, 127⟩
  | .ltxNextIn => ⟨.ltx, 0x20, 7, 0, .ro, 0x7f, 1, 4, 1, false, 0, 255⟩
  | .ltxCellPos => ⟨.ltx, 0x24, 22, 16, .ro, 0x0, 1, 4, 1, false, 0, 127⟩
  | .ltxCellSel => ⟨.ltx, 0x24, 7, 0, .rw, 0x0, 1, 4, 1, false, 0, 134⟩
  | .ltxCellState => ⟨.ltx, 0x28, 31, 28, .ro, 0x0, 1, 4, 1, false, 0, 15⟩
  | .ltxCellTrim => ⟨.ltx, 0x28, 5, 0, .ro, 0x0, 1, 4, 1, false, 0, 63⟩
  | .ltxIntlvSkew => ⟨.ltx, 0x2c, 6, 0, .ro, 0x0, 1, 4, 1, false, 0, 127⟩
  | .ltxMaskEn => ⟨.ltx, 0x30, 31, 31, .rw, 0x0, 1, 4, 1, true, 0, 1⟩
  | .ltxMaskAct => ⟨.ltx, 0x30, 30, 30, .rw, 0x0, 1, 4, 1, true, 0, 1⟩
  | .ltxMaskAvg => ⟨.ltx, 0x30, 19, 16, .rw, 0x8, 1, 4, 1, true, 4, 12⟩
  | .ltxMaskSh => ⟨.ltx, 0x30, 12, 8, .rw, 0x8, 1, 4, 1, true, 4, 16⟩
  | .ltxMaskValid => ⟨.ltx, 0x34, 31, 31, .ro, 0x0, 1, 4, 1, false, 0, 1⟩
  | .ltxMaskViol => ⟨.ltx, 0x34, 30, 30, .ro, 0x0, 1, 4, 1, false, 0, 1⟩
  | .ltxMaskWorstBin => ⟨.ltx, 0x34, 21, 16, .ro, 0x0, 1, 4, 1, false, 0, 63⟩
  | .ltxMaskWorstExcess => ⟨.ltx, 0x34, 15, 0, .ro, 0x0, 1, 4, 1, false, 0, 65535⟩
  | .ltxClipCnt => ⟨.ltx, 0x40, 31, 0, .ro, 0x0, 1, 4, 1, false, 0, 4294967295⟩
  | .ltxMaskViolCnt => ⟨.ltx, 0x44, 31, 16, .ro, 0x0, 1, 4, 1, false, 0, 65535⟩
  | .ltxFaultCnt => ⟨.ltx, 0x44, 15, 0, .ro, 0x0, 1, 4, 1, false, 0, 65535⟩
  | .ltxDrvFltCnt => ⟨.ltx, 0x48, 31, 16, .ro, 0x0, 1, 4, 1, false, 0, 65535⟩
  | .ltxWakeSent => ⟨.ltx, 0x48, 15, 0, .ro, 0x0, 1, 4, 1, false, 0, 65535⟩
  | .ltxFirTap => ⟨.ltx, 0x100, 11, 0, .rw, 0x0, 9, 4, 1, true, 0, 4095⟩
  | .ltxLut3 => ⟨.ltx, 0x200, 31, 24, .rw, 0x0, 16, 4, 1, true, 0, 255⟩
  | .ltxLut2 => ⟨.ltx, 0x200, 23, 16, .rw, 0x0, 16, 4, 1, true, 0, 255⟩
  | .ltxLut1 => ⟨.ltx, 0x200, 15, 8, .rw, 0x0, 16, 4, 1, true, 0, 255⟩
  | .ltxLut0 => ⟨.ltx, 0x200, 7, 0, .rw, 0x0, 16, 4, 1, true, 0, 255⟩
  | .ltxMaskLimOdd => ⟨.ltx, 0x300, 31, 16, .rw, 0x7fff, 16, 4, 1, true, 0, 65535⟩
  | .ltxMaskBinOdd => ⟨.ltx, 0x380, 31, 16, .ro, 0x8000, 16, 4, 1, false, 0, 65535⟩
  | .ltxMaskLimEven => ⟨.ltx, 0x300, 15, 0, .rw, 0x7fff, 17, 4, 1, true, 0, 65535⟩
  | .ltxMaskBinEven => ⟨.ltx, 0x380, 15, 0, .ro, 0x8000, 17, 4, 1, false, 0, 65535⟩
  | .lfrCntClr => ⟨.lfr, 0x0, 31, 31, .sc, 0x0, 1, 4, 1, false, 0, 1⟩
  | .lfrReneg => ⟨.lfr, 0x0, 30, 30, .sc, 0x0, 1, 4, 1, false, 0, 1⟩
  | .lfrTapAccept => ⟨.lfr, 0x0, 5, 5, .rw, 0x0, 1, 4, 1, true, 0, 1⟩
  | .lfrDjPrecode => ⟨.lfr, 0x0, 4, 4, .rw, 0x0, 1, 4, 1, true, 0, 1⟩
  | .lfrCompatEn => ⟨.lfr, 0x0, 3, 3, .rw, 0x1, 1, 4, 1, true, 0, 1⟩
  | .lfrNativeEn => ⟨.lfr, 0x0, 2, 2, .rw, 0x1, 1, 4, 1, true, 0, 1⟩
  | .lfrNegState => ⟨.lfr, 0x4, 31, 28, .ro, 0x0, 1, 4, 1, false, 0, 15⟩
  | .lfrNegErr => ⟨.lfr, 0x4, 27, 24, .ro, 0x0, 1, 4, 1, false, 0, 15⟩
  | .lfrNoRate => ⟨.lfr, 0x4, 21, 21, .ro, 0x0, 1, 4, 1, false, 0, 1⟩
  | .lfrGroupWait => ⟨.lfr, 0x4, 20, 20, .ro, 0x0, 1, 4, 1, false, 0, 1⟩
  | .lfrDiscRate => ⟨.lfr, 0x4, 19, 19, .ro, 0x0, 1, 4, 1, false, 0, 1⟩
  | .lfrFillRx => ⟨.lfr, 0x4, 11, 11, .ro, 0x0, 1, 4, 1, false, 0, 1⟩
  | .lfrFillTx => ⟨.lfr, 0x4, 10, 10, .ro, 0x0, 1, 4, 1, false, 0, 1⟩
  | .lfrShadowValid => ⟨.lfr, 0x4, 9, 9, .ro, 0x0, 1, 4, 1, false, 0, 1⟩
  | .lfrFrameLock => ⟨.lfr, 0x4, 8, 8, .ro, 0x0, 1, 4, 1, false, 0, 1⟩
  | .lfrResVer => ⟨.lfr, 0x8, 31, 28, .ro, 0x0, 1, 4, 1, false, 0, 15⟩
  | .lfrResMode => ⟨.lfr, 0x8, 27, 26, .ro, 0x0, 1, 4, 1, false, 0, 3⟩
  | .lfrResProfile => ⟨.lfr, 0x8, 25, 24, .ro, 0x0, 1, 4, 1, false, 0, 3⟩
  | .lfrResIcris => ⟨.lfr, 0x8, 23, 22, .ro, 0x0, 1, 4, 1, false, 0, 3⟩
  | .lfrResPrecodeTx => ⟨.lfr, 0x8, 21, 21, .ro, 0x0, 1, 4, 1, false, 0, 1⟩
  | .lfrResPrecodeRx => ⟨.lfr, 0x8, 20, 20, .ro, 0x0, 1, 4, 1, false, 0, 1⟩
  | .lfrResPartner => ⟨.lfr, 0x8, 19, 18, .ro, 0x0, 1, 4, 1, false, 0, 3⟩
  | .lfrPartnerPage => ⟨.lfr, 0xc, 31, 0, .ro, 0x0, 4, 4, 1, false, 0, 4294967295⟩
  | .lfrProfChange => ⟨.lfr, 0x1c, 31, 31, .sc, 0x0, 1, 4, 1, false, 0, 1⟩
  | .lfrProfAsym => ⟨.lfr, 0x1c, 30, 30, .ro, 0x0, 1, 4, 1, false, 0, 1⟩
  | .lfrProfActive => ⟨.lfr, 0x1c, 29, 28, .ro, 0x0, 1, 4, 1, false, 0, 3⟩
  | .lfrProfStatus => ⟨.lfr, 0x1c, 27, 24, .ro, 0x0, 1, 4, 1, false, 0, 15⟩
  | .lfrProfSide => ⟨.lfr, 0x1c, 23, 23, .ro, 0x0, 1, 4, 1, false, 0, 1⟩
  | .lfrProfBusyRefused => ⟨.lfr, 0x1c, 22, 22, .ro, 0x0, 1, 4, 1, false, 0, 1⟩
  | .lfrProfReq => ⟨.lfr, 0x1c, 1, 0, .rw, 0x0, 1, 4, 1, false, 0, 2⟩
  | .lfrMarkGood => ⟨.lfr, 0x20, 24, 16, .rw, 0xf0, 1, 4, 1, false, 224, 256⟩
  | .lfrMarkCand => ⟨.lfr, 0x20, 8, 0, .rw, 0xe8, 1, 4, 1, false, 192, 256⟩
  | .lfrH1Valid => ⟨.lfr, 0x24, 31, 31, .ro, 0x0, 1, 4, 1, false, 0, 1⟩
  | .lfrH1Count => ⟨.lfr, 0x24, 29, 28, .ro, 0x0, 1, 4, 1, false, 0, 3⟩
  | .lfrH1Match => ⟨.lfr, 0x24, 24, 16, .ro, 0x0, 1, 4, 1, false, 0, 511⟩
  | .lfrH2Match => ⟨.lfr, 0x24, 8, 0, .ro, 0x0, 1, 4, 1, false, 0, 511⟩
  | .lfrNegRetryMax => ⟨.lfr, 0x28, 19, 16, .rw, 0x3, 1, 4, 1, false, 0, 15⟩
  | .lfrNegTmoUs => ⟨.lfr, 0x28, 15, 0, .rw, 0x2710, 1, 4, 1, false, 100, 65535⟩
  | .lfrHelloTmoUs => ⟨.lfr, 0x2c, 19, 0, .rw, 0x186a0, 1, 4, 1, false, 60000, 400000⟩
  | .lfrFrameRx => ⟨.lfr, 0x30, 31, 16, .ro, 0x0, 1, 4, 1, false, 0, 65535⟩
  | .lfrFrameTx => ⟨.lfr, 0x30, 15, 0, .ro, 0x0, 1, 4, 1, false, 0, 65535⟩
  | .lfrMarkBadCnt => ⟨.lfr, 0x40, 31, 16, .ro, 0x0, 1, 4, 1, false, 0, 65535⟩
  | .lfrLolCnt => ⟨.lfr, 0x40, 15, 0, .ro, 0x0, 1, 4, 1, false, 0, 65535⟩
  | .lfrFrameSlipCnt => ⟨.lfr, 0x44, 31, 16, .ro, 0x0, 1, 4, 1, false, 0, 65535⟩
  | .lfrRenegRxCnt => ⟨.lfr, 0x44, 15, 0, .ro, 0x0, 1, 4, 1, false, 0, 65535⟩
  | .lfrSvcCorrCnt => ⟨.lfr, 0x48, 31, 0, .ro, 0x0, 1, 4, 1, false, 0, 4294967295⟩
  | .lfrSvcFailCnt => ⟨.lfr, 0x4c, 31, 16, .ro, 0x0, 1, 4, 1, false, 0, 65535⟩
  | .lfrSvcCrcCnt => ⟨.lfr, 0x4c, 15, 0, .ro, 0x0, 1, 4, 1, false, 0, 65535⟩
  | .lfrFillRxCnt => ⟨.lfr, 0x50, 31, 16, .ro, 0x0, 1, 4, 1, false, 0, 65535⟩
  | .lfrMsgUnknownCnt => ⟨.lfr, 0x50, 15, 0, .ro, 0x0, 1, 4, 1, false, 0, 65535⟩
  | .lfrPcDiscardCnt => ⟨.lfr, 0x54, 31, 0, .ro, 0x0, 1, 4, 1, false, 0, 4294967295⟩
  | .arcCntClr => ⟨.arc, 0x0, 31, 31, .sc, 0x0, 1, 4, 1, false, 0, 1⟩
  | .arcStealEn => ⟨.arc, 0x0, 3, 3, .rw, 0x1, 1, 4, 1, false, 0, 1⟩
  | .arcThermalNosteal => ⟨.arc, 0x0, 2, 2, .rw, 0x1, 1, 4, 1, false, 0, 1⟩
  | .arcThreshStep => ⟨.arc, 0x0, 1, 0, .rw, 0x1, 1, 4, 1, false, 0, 3⟩
  | .arcAtc => ⟨.arc, 0x4, 31, 0, .ro, 0x0, 1, 4, 1, false, 0, 4294967295⟩
  | .arcPoolFailed => ⟨.arc, 0x8, 23, 16, .ro, 0x0, 1, 4, 1, false, 0, 255⟩
  | .arcPoolOut => ⟨.arc, 0x8, 15, 8, .ro, 0x0, 1, 4, 1, false, 0, 255⟩
  | .arcPoolIn => ⟨.arc, 0x8, 7, 0, .ro, 0x0, 1, 4, 1, false, 0, 255⟩
  | .arcEngFailedMap => ⟨.arc, 0x10, 31, 0, .ro, 0x0, 4, 4, 1, false, 0, 4294967295⟩
  | .arcEngBistMap => ⟨.arc, 0x20, 31, 0, .ro, 0x0, 4, 4, 1, false, 0, 4294967295⟩
  | .arcEngSel => ⟨.arc, 0x30, 6, 0, .rw, 0x0, 1, 4, 1, false, 0, 127⟩
  | .arcEngState => ⟨.arc, 0x34, 31, 28, .ro, 0x8, 1, 4, 1, false, 0, 15⟩
  | .arcEngLane => ⟨.arc, 0x34, 26, 24, .ro, 0x0, 1, 4, 1, false, 0, 7⟩
  | .arcEngIndex => ⟨.arc, 0x34, 23, 16, .ro, 0x0, 1, 4, 1, false, 0, 255⟩
  | .arcEngIter => ⟨.arc, 0x34, 15, 12, .ro, 0x0, 1, 4, 1, false, 0, 15⟩
  | .arcEngReserve => ⟨.arc, 0x34, 11, 11, .ro, 0x0, 1, 4, 1, false, 0, 1⟩
  | .arcEngHeld => ⟨.arc, 0x34, 10, 10, .ro, 0x0, 1, 4, 1, false, 0, 1⟩
  | .arcEngEcc1 => ⟨.arc, 0x34, 7, 0, .ro, 0x0, 1, 4, 1, false, 0, 255⟩
  | .arcIntCluster => ⟨.arc, 0xf0, 7, 0, .ro, 0x0, 1, 4, 1, false, 0, 255⟩
  | .arcClCntClr => ⟨.arcCl, 0x0, 31, 31, .sc, 0x0, 1, 4, 1, false, 0, 1⟩
  | .arcClIterLimitL => ⟨.arcCl, 0x0, 15, 12, .rw, 0xc, 1, 4, 1, false, 1, 12⟩
  | .arcClIterLimitE => ⟨.arcCl, 0x0, 11, 8, .rw, 0x6, 1, 4, 1, false, 1, 6⟩
  | .arcClMag3 => ⟨.arcCl, 0x4, 19, 15, .rw, 0xc, 1, 4, 1, false, 0, 31⟩
  | .arcClMag2 => ⟨.arcCl, 0x4, 14, 10, .rw, 0x7, 1, 4, 1, false, 0, 31⟩
  | .arcClMag1 => ⟨.arcCl, 0x4, 9, 5, .rw, 0x4, 1, 4, 1, false, 0, 31⟩
  | .arcClMag0 => ⟨.arcCl, 0x4, 4, 0, .rw, 0x1, 1, 4, 1, false, 0, 31⟩
  | .arcClThreshEff => ⟨.arcCl, 0x8, 29, 24, .ro, 0x6, 1, 4, 1, false, 0, 63⟩
  | .arcClStealThresh => ⟨.arcCl, 0x8, 21, 16, .ro, 0x6, 1, 4, 1, false, 0, 63⟩
  | .arcClReachCcw => ⟨.arcCl, 0x8, 10, 8, .ro, 0x3, 1, 4, 1, false, 0, 7⟩
  | .arcClReachCw => ⟨.arcCl, 0x8, 2, 0, .ro, 0x4, 1, 4, 1, false, 0, 7⟩
  | .arcClPoint => ⟨.arcCl, 0xc, 31, 30, .ro, 0x0, 1, 4, 1, false, 0, 3⟩
  | .arcClThermal => ⟨.arcCl, 0xc, 29, 29, .ro, 0x0, 1, 4, 1, false, 0, 1⟩
  | .arcClIsolated => ⟨.arcCl, 0xc, 28, 28, .ro, 0x0, 1, 4, 1, false, 0, 1⟩
  | .arcClHomeLow => ⟨.arcCl, 0xc, 27, 27, .ro, 0x0, 1, 4, 1, false, 0, 1⟩
  | .arcClQFull => ⟨.arcCl, 0xc, 26, 26, .ro, 0x0, 1, 4, 1, false, 0, 1⟩
  | .arcClQHwm => ⟨.arcCl, 0xc, 22, 16, .ro, 0x0, 1, 4, 1, false, 0, 127⟩
  | .arcClQDepth => ⟨.arcCl, 0xc, 14, 8, .ro, 0x0, 1, 4, 1, false, 0, 127⟩
  | .arcClBusy => ⟨.arcCl, 0xc, 4, 0, .ro, 0x0, 1, 4, 1, false, 0, 31⟩
  | .arcClRefreshMs => ⟨.arcCl, 0x10, 31, 16, .rw, 0x3e8, 1, 4, 1, false, 10, 65535⟩
  | .arcClHistMs => ⟨.arcCl, 0x10, 15, 0, .rw, 0x64, 1, 4, 1, false, 1, 65535⟩
  | .arcClAgeMax => ⟨.arcCl, 0x14, 31, 24, .ro, 0x0, 1, 4, 1, false, 0, 255⟩
  | .arcClPending => ⟨.arcCl, 0x14, 18, 16, .ro, 0x0, 1, 4, 1, false, 0, 7⟩
  | .arcClPreempt => ⟨.arcCl, 0x14, 15, 8, .ro, 0x0, 1, 4, 1, false, 0, 255⟩
  | .arcClStarveBlocked => ⟨.arcCl, 0x14, 0, 0, .ro, 0x0, 1, 4, 1, false, 0, 1⟩
  | .arcClHoldUi => ⟨.arcCl, 0x18, 19, 0, .ro, 0x0, 1, 4, 1, false, 0, 1048575⟩
  | .arcClReleaseBuf => ⟨.arcCl, 0x1c, 22, 16, .ro, 0x0, 1, 4, 1, false, 0, 127⟩
  | .arcClHomeQ => ⟨.arcCl, 0x1c, 6, 0, .ro, 0x0, 1, 4, 1, false, 0, 127⟩
  | .arcClDecodedCnt => ⟨.arcCl, 0x20, 31, 0, .ro, 0x0, 1, 4, 1, false, 0, 4294967295⟩
  | .arcClUncorrCnt => ⟨.arcCl, 0x24, 31, 0, .ro, 0x0, 1, 4, 1, false, 0, 4294967295⟩
  | .arcClExpRunCnt => ⟨.arcCl, 0x28, 31, 16, .ro, 0x0, 1, 4, 1, false, 0, 65535⟩
  | .arcClExpQCnt => ⟨.arcCl, 0x28, 15, 0, .ro, 0x0, 1, 4, 1, false, 0, 65535⟩
  | .arcClStolenOutCnt => ⟨.arcCl, 0x2c, 31, 0, .ro, 0x0, 1, 4, 1, false, 0, 4294967295⟩
  | .arcClStolenInCnt => ⟨.arcCl, 0x30, 31, 0, .ro, 0x0, 1, 4, 1, false, 0, 4294967295⟩
  | .arcClRaceLostCnt => ⟨.arcCl, 0x34, 31, 16, .ro, 0x0, 1, 4, 1, false, 0, 65535⟩
  | .arcClRbMissCnt => ⟨.arcCl, 0x34, 15, 8, .ro, 0x0, 1, 4, 1, false, 0, 255⟩
  | .arcClRbLateCnt => ⟨.arcCl, 0x34, 7, 0, .ro, 0x0, 1, 4, 1, false, 0, 255⟩
  | .arcClCorrBitsCnt => ⟨.arcCl, 0x38, 31, 0, .ro, 0x0, 1, 4, 1, false, 0, 4294967295⟩
  | .arcClIterSumCnt => ⟨.arcCl, 0x3c, 31, 0, .ro, 0x0, 1, 4, 1, false, 0, 4294967295⟩
  | .arcClHist => ⟨.arcCl, 0x80, 31, 0, .ro, 0x0, 16, 4, 1, false, 0, 4294967295⟩
  | .hifCommit => ⟨.hif, 0x0, 31, 31, .sc, 0x0, 1, 4, 1, false, 0, 1⟩
  | .hifCntClr => ⟨.hif, 0x0, 30, 30, .sc, 0x0, 1, 4, 1, false, 0, 1⟩
  | .hifRetrain => ⟨.hif, 0x0, 29, 29, .sc, 0x0, 1, 4, 1, false, 0, 1⟩
  | .hifSlipCmd => ⟨.hif, 0x0, 28, 28, .sc, 0x0, 1, 4, 1, false, 0, 1⟩
  | .hifSlipDir => ⟨.hif, 0x0, 19, 19, .rw, 0x0, 1, 4, 1, false, 0, 1⟩
  | .hifSlipBits => ⟨.hif, 0x0, 15, 8, .rw, 0x1, 1, 4, 1, false, 1, 255⟩
  | .hifAlignDone => ⟨.hif, 0x0, 7, 7, .rw, 0x0, 1, 4, 1, false, 0, 1⟩
  | .hifRxPolInv => ⟨.hif, 0x0, 5, 5, .rw, 0x0, 1, 4, 1, true, 0, 1⟩
  | .hifTxPolInv => ⟨.hif, 0x0, 4, 4, .rw, 0x0, 1, 4, 1, true, 0, 1⟩
  | .hifAutoRestart => ⟨.hif, 0x0, 3, 3, .rw, 0x1, 1, 4, 1, false, 0, 1⟩
  | .hifEnable => ⟨.hif, 0x0, 0, 0, .rw, 0x0, 1, 4, 1, false, 0, 1⟩
  | .hifFaultCause => ⟨.hif, 0x4, 27, 24, .ro, 0x0, 1, 4, 1, false, 0, 15⟩
  | .hifSleepTx => ⟨.hif, 0x4, 23, 22, .ro, 0x0, 1, 4, 1, false, 0, 3⟩
  | .hifSleepRx => ⟨.hif, 0x4, 21, 20, .ro, 0x0, 1, 4, 1, false, 0, 3⟩
  | .hifRate => ⟨.hif, 0x4, 16, 16, .ro, 0x0, 1, 4, 1, false, 0, 1⟩
  | .hifTrnRetry => ⟨.hif, 0x4, 15, 12, .ro, 0x0, 1, 4, 1, false, 0, 15⟩
  | .hifAmLock => ⟨.hif, 0x4, 7, 7, .ro, 0x0, 1, 4, 1, false, 0, 1⟩
  | .hifCdrLock => ⟨.hif, 0x4, 6, 6, .ro, 0x0, 1, 4, 1, false, 0, 1⟩
  | .hifRxReady => ⟨.hif, 0x4, 5, 5, .ro, 0x0, 1, 4, 1, false, 0, 1⟩
  | .hifTxReady => ⟨.hif, 0x4, 4, 4, .ro, 0x0, 1, 4, 1, false, 0, 1⟩
  | .hifState => ⟨.hif, 0x4, 2, 0, .ro, 0x0, 1, 4, 1, false, 0, 7⟩
  | .hifOverride => ⟨.hif, 0x8, 11, 8, .ro, 0x0, 1, 4, 1, false, 0, 15⟩
  | .hifPreset => ⟨.hif, 0x8, 1, 0, .rw, 0x0, 1, 4, 1, true, 0, 3⟩
  | .hifAdaptEn => ⟨.hif, 0xc, 31, 31, .rw, 0x1, 1, 4, 1, false, 0, 1⟩
  | .hifFomWin => ⟨.hif, 0xc, 29, 28, .rw, 0x1, 1, 4, 1, true, 0, 3⟩
  | .hifDfeEn => ⟨.hif, 0xc, 24, 24, .rw, 0x1, 1, 4, 1, true, 0, 1⟩
  | .hifCtleMax => ⟨.hif, 0xc, 20, 16, .rw, 0x12, 1, 4, 1, true, 0, 23⟩
  | .hifCtleMin => ⟨.hif, 0xc, 12, 8, .rw, 0x4, 1, 4, 1, true, 0, 31⟩
  | .hifCtleManEn => ⟨.hif, 0xc, 7, 7, .rw, 0x0, 1, 4, 1, false, 0, 1⟩
  | .hifCtleManCode => ⟨.hif, 0xc, 4, 0, .rw, 0x8, 1, 4, 1, false, 0, 23⟩
  | .hifRxValid => ⟨.hif, 0x10, 31, 31, .ro, 0x0, 1, 4, 1, false, 0, 1⟩
  | .hifRxCtle => ⟨.hif, 0x10, 28, 24, .ro, 0x0, 1, 4, 1, false, 0, 31⟩
  | .hifRxFom => ⟨.hif, 0x10, 15, 0, .ro, 0x0, 1, 4, 1, false, 0, 65535⟩
  | .hifDfeD2 => ⟨.hif, 0x14, 24, 16, .ro, 0x0, 1, 4, 1, false, 0, 511⟩
  | .hifDfeD1 => ⟨.hif, 0x14, 8, 0, .ro, 0x0, 1, 4, 1, false, 0, 511⟩
  | .hifKiSh => ⟨.hif, 0x18, 28, 24, .rw, 0xd, 1, 4, 1, true, 8, 20⟩
  | .hifKpSh => ⟨.hif, 0x18, 19, 16, .rw, 0x5, 1, 4, 1, true, 3, 10⟩
  | .hifRelockUs => ⟨.hif, 0x18, 15, 0, .rw, 0xc8, 1, 4, 1, false, 10, 65535⟩
  | .hifCdrFreq => ⟨.hif, 0x1c, 23, 0, .ro, 0x0, 1, 4, 1, false, 0, 16777215⟩
  | .hifTrnEn => ⟨.hif, 0x20, 31, 31, .rw, 0x1, 1, 4, 1, false, 0, 1⟩
  | .hifTrnMaxReq => ⟨.hif, 0x20, 30, 24, .rw, 0x40, 1, 4, 1, false, 8, 127⟩
  | .hifTrnRetryMax => ⟨.hif, 0x20, 19, 16, .rw, 0x3, 1, 4, 1, false, 0, 15⟩
  | .hifAlignTmoUs => ⟨.hif, 0x20, 15, 0, .rw, 0x1388, 1, 4, 1, false, 100, 65535⟩
  | .hifInitPreset => ⟨.hif, 0x24, 19, 16, .rw, 0x1, 1, 4, 1, false, 0, 15⟩
  | .hifFomReady => ⟨.hif, 0x24, 15, 0, .rw, 0x1300, 1, 4, 1, false, 0, 65535⟩
  | .hifTxTap => ⟨.hif, 0x30, 11, 0, .rw, 0x0, 5, 4, 1, false, 0, 4095⟩
  | .hifSlipLimit => ⟨.hif, 0x44, 16, 16, .ro, 0x0, 1, 4, 1, false, 0, 1⟩
  | .hifSlipPos => ⟨.hif, 0x44, 13, 0, .ro, 0x0, 1, 4, 1, false, 0, 16383⟩
  | .hifAlignWord => ⟨.hif, 0x48, 31, 0, .rw, 0x0, 1, 4, 1, false, 0, 4294967295⟩
  | .hifAlignMask => ⟨.hif, 0x4c, 31, 0, .rw, 0xffffffff, 1, 4, 1, false, 0, 4294967295⟩
  | .hifTxPat => ⟨.hif, 0x50, 18, 16, .rw, 0x0, 1, 4, 1, false, 0, 3⟩
  | .hifRxChk => ⟨.hif, 0x50, 10, 8, .rw, 0x0, 1, 4, 1, false, 0, 2⟩
  | .hifChkLock => ⟨.hif, 0x50, 0, 0, .ro, 0x0, 1, 4, 1, false, 0, 1⟩
  | .hifCdrLolCnt => ⟨.hif, 0x60, 31, 16, .ro, 0x0, 1, 4, 1, false, 0, 65535⟩
  | .hifAmLolCnt => ⟨.hif, 0x60, 15, 0, .ro, 0x0, 1, 4, 1, false, 0, 65535⟩
  | .hifTrnFailCnt => ⟨.hif, 0x64, 31, 16, .ro, 0x0, 1, 4, 1, false, 0, 65535⟩
  | .hifAlignHitsCnt => ⟨.hif, 0x64, 15, 0, .ro, 0x0, 1, 4, 1, false, 0, 65535⟩
  | .hifPrbsErrCnt => ⟨.hif, 0x68, 31, 0, .ro, 0x0, 1, 4, 1, false, 0, 4294967295⟩
  | .hifWarmFailCnt => ⟨.hif, 0x6c, 15, 0, .ro, 0x0, 1, 4, 1, false, 0, 65535⟩
  | .hifGlbCntClr => ⟨.hifGlb, 0x0, 31, 31, .sc, 0x0, 1, 4, 1, false, 0, 1⟩
  | .hifGlbEhmEn => ⟨.hifGlb, 0x0, 7, 0, .rw, 0xff, 1, 4, 1, false, 0, 255⟩
  | .hifGlbEhmTrnTmoMs => ⟨.hifGlb, 0x4, 31, 16, .rw, 0x12c, 1, 4, 1, false, 50, 2000⟩
  | .hifGlbEhmState => ⟨.hifGlb, 0x8, 31, 0, .ro, 0x0, 1, 4, 1, false, 0, 4294967295⟩
  | .hifGlbEhmFbCount => ⟨.hifGlb, 0xc, 15, 0, .ro, 0x0, 1, 4, 1, false, 0, 65535⟩
  | .hifGlbMapGbMode => ⟨.hifGlb, 0x20, 18, 17, .ro, 0x0, 8, 4, 1, false, 0, 3⟩
  | .hifGlbMapBValid => ⟨.hifGlb, 0x20, 12, 12, .ro, 0x0, 8, 4, 1, false, 0, 1⟩
  | .hifGlbMapHostB => ⟨.hifGlb, 0x20, 11, 8, .ro, 0x0, 8, 4, 1, false, 0, 15⟩
  | .hifGlbMapHostA => ⟨.hifGlb, 0x20, 3, 0, .ro, 0x0, 8, 4, 1, false, 0, 15⟩
  | .hifGlbPairReady => ⟨.hifGlb, 0x40, 31, 31, .ro, 0x0, 8, 4, 1, false, 0, 1⟩
  | .hifGlbPairDeskewOvr => ⟨.hifGlb, 0x40, 30, 30, .ro, 0x0, 8, 4, 1, false, 0, 1⟩
  | .hifGlbPairAmLockIng => ⟨.hifGlb, 0x40, 29, 29, .ro, 0x0, 8, 4, 1, false, 0, 1⟩
  | .hifGlbPairSkew => ⟨.hifGlb, 0x40, 15, 0, .ro, 0x0, 8, 4, 1, false, 0, 65535⟩
  | .hifGlbPairHits => ⟨.hifGlb, 0x60, 15, 0, .ro, 0x0, 8, 4, 1, false, 0, 65535⟩
  | .hifGlbRsCwTotalLo => ⟨.hifGlb, 0x100, 31, 0, .ro, 0x0, 16, 32, 1, false, 0, 4294967295⟩
  | .hifGlbRsCwTotalHi => ⟨.hifGlb, 0x104, 15, 0, .ro, 0x0, 16, 32, 1, false, 0, 65535⟩
  | .hifGlbRsCwCorr => ⟨.hifGlb, 0x108, 31, 0, .ro, 0x0, 16, 32, 1, false, 0, 4294967295⟩
  | .hifGlbRsCwUncorr => ⟨.hifGlb, 0x10c, 31, 0, .ro, 0x0, 16, 32, 1, false, 0, 4294967295⟩
  | .hifGlbRsSymErr => ⟨.hifGlb, 0x110, 31, 0, .ro, 0x0, 16, 32, 1, false, 0, 4294967295⟩
  | .hifGlbRsMonSkew => ⟨.hifGlb, 0x114, 1, 1, .ro, 0x0, 16, 32, 1, false, 0, 1⟩
  | .hifGlbRsMonLock => ⟨.hifGlb, 0x114, 0, 0, .ro, 0x0, 16, 32, 1, false, 0, 1⟩
  | .hifGlbIntLane => ⟨.hifGlb, 0xf0, 31, 16, .ro, 0x0, 1, 4, 1, false, 0, 65535⟩
  | .timCntClr => ⟨.tim, 0x0, 31, 31, .sc, 0x0, 1, 4, 1, false, 0, 1⟩
  | .timRngEn => ⟨.tim, 0x0, 1, 1, .rw, 0x1, 1, 4, 1, false, 0, 1⟩
  | .timTsEn => ⟨.tim, 0x0, 0, 0, .rw, 0x1, 1, 4, 1, false, 0, 1⟩
  | .timTsInvalid => ⟨.tim, 0x4, 5, 5, .ro, 0x0, 1, 4, 1, false, 0, 1⟩
  | .timSlewing => ⟨.tim, 0x4, 4, 4, .ro, 0x0, 1, 4, 1, false, 0, 1⟩
  | .timDriftValid => ⟨.tim, 0x4, 3, 3, .ro, 0x0, 1, 4, 1, false, 0, 1⟩
  | .timCalValid => ⟨.tim, 0x4, 2, 2, .ro, 0x0, 1, 4, 1, false, 0, 1⟩
  | .timSuspect => ⟨.tim, 0x4, 1, 1, .ro, 0x0, 1, 4, 1, false, 0, 1⟩
  | .timTodValid => ⟨.tim, 0x4, 0, 0, .ro, 0x0, 1, 4, 1, false, 0, 1⟩
  | .timTod => ⟨.tim, 0x10, 127, 0, .ro, 0x0, 1, 4, 4, false, 0, 340282366920938463463374607431768211455⟩
  | .timTodSet => ⟨.tim, 0x20, 127, 0, .rw, 0x0, 1, 4, 4, false, 0, 340282366920938463463374607431768211455⟩
  | .timTodGo => ⟨.tim, 0x30, 31, 31, .sc, 0x0, 1, 4, 1, false, 0, 1⟩
  | .timSlewPpm => ⟨.tim, 0x30, 15, 8, .rw, 0x64, 1, 4, 1, false, 1, 200⟩
  | .timTodOp => ⟨.tim, 0x30, 1, 0, .rw, 0x0, 1, 4, 1, false, 0, 3⟩
  | .timAdjNs => ⟨.tim, 0x34, 31, 0, .rw, 0x0, 1, 4, 1, false, 0, 4294967295⟩
  | .timAdjFrac => ⟨.tim, 0x38, 15, 0, .rw, 0x0, 1, 4, 1, false, 0, 65535⟩
  | .timFreq => ⟨.tim, 0x3c, 31, 0, .rw, 0x0, 1, 4, 1, false, 0, 4294967295⟩
  | .timDpllLockNs => ⟨.tim, 0x40, 31, 16, .rw, 0x1, 1, 4, 1, false, 1, 65535⟩
  | .timDpllStepEn => ⟨.tim, 0x40, 12, 12, .rw, 0x1, 1, 4, 1, false, 0, 1⟩
  | .timDpllBw => ⟨.tim, 0x40, 11, 8, .rw, 0x3, 1, 4, 1, false, 0, 9⟩
  | .timDpllLinkLane => ⟨.tim, 0x40, 6, 4, .rw, 0x0, 1, 4, 1, false, 0, 7⟩
  | .timDpllSrc => ⟨.tim, 0x40, 1, 0, .rw, 0x0, 1, 4, 1, false, 0, 3⟩
  | .timDpllBwAct => ⟨.tim, 0x44, 7, 4, .ro, 0x0, 1, 4, 1, false, 0, 15⟩
  | .timDpllBwClamped => ⟨.tim, 0x44, 3, 3, .ro, 0x0, 1, 4, 1, false, 0, 1⟩
  | .timDpllState => ⟨.tim, 0x44, 2, 0, .ro, 0x0, 1, 4, 1, false, 0, 7⟩
  | .timDpllPhasePs => ⟨.tim, 0x48, 31, 0, .ro, 0x0, 1, 4, 1, false, 0, 4294967295⟩
  | .timInEn => ⟨.tim, 0x50, 31, 31, .rw, 0x0, 1, 4, 1, false, 0, 1⟩
  | .timInEdge => ⟨.tim, 0x50, 30, 30, .rw, 0x0, 1, 4, 1, false, 0, 1⟩
  | .timInPeriodMs => ⟨.tim, 0x50, 9, 0, .rw, 0x3e8, 1, 4, 1, false, 1, 1000⟩
  | .timOutEn => ⟨.tim, 0x54, 31, 31, .rw, 0x0, 1, 4, 1, false, 0, 1⟩
  | .timOutPol => ⟨.tim, 0x54, 30, 30, .rw, 0x0, 1, 4, 1, false, 0, 1⟩
  | .timOutPeriodMs => ⟨.tim, 0x54, 25, 16, .rw, 0x3e8, 1, 4, 1, false, 1, 1000⟩
  | .timOutWidthUs => ⟨.tim, 0x54, 15, 0, .rw, 0x64, 1, 4, 1, false, 1, 65535⟩
  | .timInOfsPs => ⟨.tim, 0x58, 31, 16, .rw, 0x0, 1, 4, 1, false, 0, 65535⟩
  | .timOutOfsPs => ⟨.tim, 0x58, 15, 0, .rw, 0x0, 1, 4, 1, false, 0, 65535⟩
  | .timInTs => ⟨.tim, 0x60, 127, 0, .ro, 0x0, 1, 4, 4, false, 0, 340282366920938463463374607431768211455⟩
  | .timTsfNotValid => ⟨.tim, 0x80, 31, 31, .ro, 0x1, 1, 4, 1, false, 0, 1⟩
  | .timTsfKind => ⟨.tim, 0x80, 27, 24, .ro, 0x0, 1, 4, 1, false, 0, 15⟩
  | .timTsfIndex => ⟨.tim, 0x80, 19, 16, .ro, 0x0, 1, 4, 1, false, 0, 15⟩
  | .timTsfLostBefore => ⟨.tim, 0x80, 9, 9, .ro, 0x0, 1, 4, 1, false, 0, 1⟩
  | .timTsfSuspect => ⟨.tim, 0x80, 8, 8, .ro, 0x0, 1, 4, 1, false, 0, 1⟩
  | .timTsfTs => ⟨.tim, 0x84, 127, 0, .ro, 0x0, 1, 4, 4, false, 0, 340282366920938463463374607431768211455⟩
  | .timTsfFrame => ⟨.tim, 0x94, 15, 0, .ro, 0x0, 1, 4, 1, false, 0, 65535⟩
  | .timTsfFlush => ⟨.tim, 0x98, 31, 31, .sc, 0x0, 1, 4, 1, false, 0, 1⟩
  | .timTsfDecim => ⟨.tim, 0x98, 20, 16, .rw, 0x0, 1, 4, 1, false, 0, 16⟩
  | .timTsfKinds => ⟨.tim, 0x98, 12, 8, .rw, 0x0, 1, 4, 1, false, 0, 31⟩
  | .timTsfLanes => ⟨.tim, 0x98, 7, 0, .rw, 0x0, 1, 4, 1, false, 0, 255⟩
  | .timTsfLevel => ⟨.tim, 0x9c, 7, 0, .ro, 0x0, 1, 4, 1, false, 0, 255⟩
  | .timLambda0 => ⟨.tim, 0xa0, 17, 0, .rw, 0x1ffb8, 1, 4, 1, false, 0, 262143⟩
  | .timAsymTolNs => ⟨.tim, 0xa4, 31, 16, .rw, 0x64, 1, 4, 1, false, 0, 65535⟩
  | .timS0 => ⟨.tim, 0xa4, 15, 0, .rw, 0x178d, 1, 4, 1, false, 0, 65535⟩
  | .timRngAvail => ⟨.tim, 0xa8, 31, 31, .ro, 0x0, 1, 4, 1, false, 0, 1⟩
  | .timRngCheckFail => ⟨.tim, 0xa8, 30, 30, .ro, 0x0, 1, 4, 1, false, 0, 1⟩
  | .timRngSet => ⟨.tim, 0xa8, 7, 0, .ro, 0x0, 1, 4, 1, false, 0, 255⟩
  | .timRngLenTxM => ⟨.tim, 0xac, 31, 16, .ro, 0x0, 1, 4, 1, false, 0, 65535⟩
  | .timRngLenRxM => ⟨.tim, 0xac, 15, 0, .ro, 0x0, 1, 4, 1, false, 0, 65535⟩
  | .timRngAsymEstNs => ⟨.tim, 0xb0, 31, 0, .ro, 0x0, 1, 4, 1, false, 0, 4294967295⟩
  | .timRngResNs => ⟨.tim, 0xb4, 15, 0, .ro, 0x0, 1, 4, 1, false, 0, 65535⟩
  | .timTsLostCnt => ⟨.tim, 0xc0, 31, 16, .ro, 0x0, 1, 4, 1, false, 0, 65535⟩
  | .timInGlitchCnt => ⟨.tim, 0xc0, 15, 0, .ro, 0x0, 1, 4, 1, false, 0, 65535⟩
  | .timTsSuspectCnt => ⟨.tim, 0xc4, 31, 0, .ro, 0x0, 1, 4, 1, false, 0, 4294967295⟩
  | .timTsfOvfCnt => ⟨.tim, 0xc8, 31, 16, .ro, 0x0, 1, 4, 1, false, 0, 65535⟩
  | .timTodStepsCnt => ⟨.tim, 0xc8, 15, 0, .ro, 0x0, 1, 4, 1, false, 0, 65535⟩
  | .timLnCntClr => ⟨.timLn, 0x0, 31, 31, .sc, 0x0, 1, 4, 1, false, 0, 1⟩
  | .timLnRestartAvg => ⟨.timLn, 0x0, 30, 30, .sc, 0x0, 1, 4, 1, false, 0, 1⟩
  | .timLnRejectPs => ⟨.timLn, 0x0, 27, 16, .rw, 0x3e8, 1, 4, 1, false, 100, 4095⟩
  | .timLnExchEn => ⟨.timLn, 0x0, 8, 8, .rw, 0x1, 1, 4, 1, false, 0, 1⟩
  | .timLnRateExp => ⟨.timLn, 0x0, 7, 4, .rw, 0xa, 1, 4, 1, false, 4, 14⟩
  | .timLnAvgSh => ⟨.timLn, 0x0, 3, 0, .rw, 0x6, 1, 4, 1, false, 0, 10⟩
  | .timLnPeriodShort => ⟨.timLn, 0x4, 12, 12, .ro, 0x0, 1, 4, 1, false, 0, 1⟩
  | .timLnRatioValid => ⟨.timLn, 0x4, 11, 11, .ro, 0x0, 1, 4, 1, false, 0, 1⟩
  | .timLnRangeMember => ⟨.timLn, 0x4, 10, 10, .ro, 0x0, 1, 4, 1, false, 0, 1⟩
  | .timLnSuspect => ⟨.timLn, 0x4, 9, 9, .ro, 0x0, 1, 4, 1, false, 0, 1⟩
  | .timLnResultValid => ⟨.timLn, 0x4, 8, 8, .ro, 0x0, 1, 4, 1, false, 0, 1⟩
  | .timLnVer => ⟨.timLn, 0x4, 5, 4, .ro, 0x0, 1, 4, 1, false, 0, 3⟩
  | .timLnXstate => ⟨.timLn, 0x4, 2, 0, .ro, 0x0, 1, 4, 1, false, 0, 7⟩
  | .timLnOptTx => ⟨.timLn, 0x8, 31, 16, .rw, 0x0, 1, 4, 1, false, 0, 65535⟩
  | .timLnOptRx => ⟨.timLn, 0x8, 15, 0, .rw, 0x0, 1, 4, 1, false, 0, 65535⟩
  | .timLnAsymPs => ⟨.timLn, 0xc, 31, 0, .rw, 0x0, 1, 4, 1, false, 0, 4294967295⟩
  | .timLnDlyTxNs => ⟨.timLn, 0x10, 31, 0, .ro, 0x0, 1, 4, 1, false, 0, 4294967295⟩
  | .timLnDlyTxFrac => ⟨.timLn, 0x14, 15, 0, .ro, 0x0, 1, 4, 1, false, 0, 65535⟩
  | .timLnDlyRxNs => ⟨.timLn, 0x18, 31, 0, .ro, 0x0, 1, 4, 1, false, 0, 4294967295⟩
  | .timLnDlyRxFrac => ⟨.timLn, 0x1c, 15, 0, .ro, 0x0, 1, 4, 1, false, 0, 65535⟩
  | .timLnOffsetNs => ⟨.timLn, 0x20, 31, 0, .ro, 0x0, 1, 4, 1, false, 0, 4294967295⟩
  | .timLnOffsetFrac => ⟨.timLn, 0x24, 15, 0, .ro, 0x0, 1, 4, 1, false, 0, 65535⟩
  | .timLnRatio => ⟨.timLn, 0x28, 31, 0, .ro, 0x0, 1, 4, 1, false, 0, 4294967295⟩
  | .timLnIngLat => ⟨.timLn, 0x30, 31, 0, .ro, 0x0, 1, 4, 1, false, 0, 4294967295⟩
  | .timLnEgrLat => ⟨.timLn, 0x34, 31, 0, .ro, 0x0, 1, 4, 1, false, 0, 4294967295⟩
  | .timLnEgrSkew => ⟨.timLn, 0x38, 31, 0, .ro, 0x0, 1, 4, 1, false, 0, 4294967295⟩
  | .timLnLedProfile => ⟨.timLn, 0x3c, 9, 8, .ro, 0x0, 1, 4, 1, false, 0, 3⟩
  | .timLnLedFlags => ⟨.timLn, 0x3c, 7, 0, .ro, 0x0, 1, 4, 1, false, 0, 255⟩
  | .timLnLrxAfe => ⟨.timLn, 0x40, 31, 16, .ro, 0x0, 1, 4, 1, false, 0, 65535⟩
  | .timLnHtxDrv => ⟨.timLn, 0x40, 15, 0, .ro, 0x0, 1, 4, 1, false, 0, 65535⟩
  | .timLnHrxAfe => ⟨.timLn, 0x44, 31, 16, .ro, 0x0, 1, 4, 1, false, 0, 65535⟩
  | .timLnLtxDrv => ⟨.timLn, 0x44, 15, 0, .ro, 0x0, 1, 4, 1, false, 0, 65535⟩
  | .timLnWl => ⟨.timLn, 0x48, 17, 0, .rw, 0x0, 1, 4, 1, false, 0, 262143⟩
  | .timLnSkewTx => ⟨.timLn, 0x4c, 31, 0, .ro, 0x0, 1, 4, 1, false, 0, 4294967295⟩
  | .timLnSkewRx => ⟨.timLn, 0x50, 31, 0, .ro, 0x0, 1, 4, 1, false, 0, 4294967295⟩
  | .timLnExchOkCnt => ⟨.timLn, 0x60, 31, 0, .ro, 0x0, 1, 4, 1, false, 0, 4294967295⟩
  | .timLnExchMissCnt => ⟨.timLn, 0x64, 31, 16, .ro, 0x0, 1, 4, 1, false, 0, 65535⟩
  | .timLnExchRejectCnt => ⟨.timLn, 0x64, 15, 0, .ro, 0x0, 1, 4, 1, false, 0, 65535⟩
  | .timLnExchSuspectCnt => ⟨.timLn, 0x68, 31, 16, .ro, 0x0, 1, 4, 1, false, 0, 65535⟩
  | .timLnRegionLateCnt => ⟨.timLn, 0x68, 15, 0, .ro, 0x0, 1, 4, 1, false, 0, 65535⟩
  | .timLnTsLrx => ⟨.timLn, 0x80, 127, 0, .ro, 0x0, 1, 4, 4, false, 0, 340282366920938463463374607431768211455⟩
  | .timLnTsLtx => ⟨.timLn, 0x90, 127, 0, .ro, 0x0, 1, 4, 4, false, 0, 340282366920938463463374607431768211455⟩
  | .timLnRxFrame => ⟨.timLn, 0xa0, 31, 16, .ro, 0x0, 1, 4, 1, false, 0, 65535⟩
  | .timLnTxFrame => ⟨.timLn, 0xa0, 15, 0, .ro, 0x0, 1, 4, 1, false, 0, 65535⟩
  | .timHostTsHrx => ⟨.timHost, 0x0, 127, 0, .ro, 0x0, 1, 4, 4, false, 0, 340282366920938463463374607431768211455⟩
  | .timHostTsHtx => ⟨.timHost, 0x10, 127, 0, .ro, 0x0, 1, 4, 4, false, 0, 340282366920938463463374607431768211455⟩
  | .timHostSuspect => ⟨.timHost, 0x20, 2, 2, .ro, 0x0, 1, 4, 1, false, 0, 1⟩
  | .timHostHtxActive => ⟨.timHost, 0x20, 1, 1, .ro, 0x0, 1, 4, 1, false, 0, 1⟩
  | .timHostHrxActive => ⟨.timHost, 0x20, 0, 0, .ro, 0x0, 1, 4, 1, false, 0, 1⟩
  | .clkCntClr => ⟨.clk, 0x0, 31, 31, .sc, 0x0, 1, 4, 1, false, 0, 1⟩
  | .clkForceB => ⟨.clk, 0x0, 16, 16, .rw, 0x0, 1, 4, 1, false, 0, 1⟩
  | .clkCalReq => ⟨.clk, 0x0, 12, 8, .sc, 0x0, 1, 4, 1, false, 0, 31⟩
  | .clkAutoRelock => ⟨.clk, 0x0, 4, 0, .rw, 0x1f, 1, 4, 1, false, 0, 31⟩
  | .clkRefHoldUs => ⟨.clk, 0x4, 9, 0, .rw, 0x64, 1, 4, 1, false, 10, 1000⟩
  | .clkRefBack => ⟨.clk, 0x8, 3, 3, .ro, 0x0, 1, 4, 1, false, 0, 1⟩
  | .clkRefOk => ⟨.clk, 0x8, 2, 2, .ro, 0x0, 1, 4, 1, false, 0, 1⟩
  | .clkRefBad => ⟨.clk, 0x8, 1, 1, .ro, 0x0, 1, 4, 1, false, 0, 1⟩
  | .clkRefLost => ⟨.clk, 0x8, 0, 0, .ro, 0x1, 1, 4, 1, false, 0, 1⟩
  | .clkBackup => ⟨.clk, 0xc, 8, 8, .ro, 0x1, 1, 4, 1, false, 0, 1⟩
  | .clkXbarSrc => ⟨.clk, 0xc, 1, 0, .ro, 0x2, 1, 4, 1, false, 0, 3⟩
  | .clkRefGlitchCnt => ⟨.clk, 0x20, 31, 16, .ro, 0x0, 1, 4, 1, false, 0, 65535⟩
  | .clkRefLossCnt => ⟨.clk, 0x20, 15, 0, .ro, 0x0, 1, 4, 1, false, 0, 65535⟩
  | .clkRgStoppedCnt => ⟨.clk, 0x24, 15, 0, .ro, 0x0, 1, 4, 1, false, 0, 65535⟩
  | .pllLockErrPpm => ⟨.pll, 0x0, 31, 24, .ro, 0x0, 1, 4, 1, false, 0, 255⟩
  | .pllBand => ⟨.pll, 0x0, 21, 16, .ro, 0x0, 1, 4, 1, false, 0, 63⟩
  | .pllCalPend => ⟨.pll, 0x0, 9, 9, .ro, 0x0, 1, 4, 1, false, 0, 1⟩
  | .pllLock => ⟨.pll, 0x0, 8, 8, .ro, 0x0, 1, 4, 1, false, 0, 1⟩
  | .pllState => ⟨.pll, 0x0, 2, 0, .ro, 0x0, 1, 4, 1, false, 0, 7⟩
  | .pllLolCnt => ⟨.pll, 0x4, 31, 16, .ro, 0x0, 1, 4, 1, false, 0, 65535⟩
  | .pllCalCnt => ⟨.pll, 0x4, 15, 0, .ro, 0x0, 1, 4, 1, false, 0, 65535⟩
  | .pllCalTime => ⟨.pll, 0x8, 127, 0, .ro, 0x0, 1, 4, 4, false, 0, 340282366920938463463374607431768211455⟩
  | .optLnCntClr => ⟨.optLn, 0x0, 31, 31, .sc, 0x0, 1, 4, 1, false, 0, 1⟩
  | .optLnUpdCyc => ⟨.optLn, 0x0, 15, 0, .rw, 0x64, 1, 4, 1, false, 20, 65535⟩
  | .optLnSineAct => ⟨.optLn, 0x4, 9, 8, .ro, 0x0, 1, 4, 1, false, 0, 3⟩
  | .optLnProbe => ⟨.optLn, 0x4, 7, 7, .ro, 0x0, 1, 4, 1, false, 0, 1⟩
  | .optLnOffTime => ⟨.optLn, 0x4, 6, 6, .ro, 0x0, 1, 4, 1, false, 0, 1⟩
  | .optLnClamp => ⟨.optLn, 0x4, 5, 5, .ro, 0x1, 1, 4, 1, false, 0, 1⟩
  | .optLnModLimited => ⟨.optLn, 0x4, 4, 4, .ro, 0x0, 1, 4, 1, false, 0, 1⟩
  | .optLnOpen => ⟨.optLn, 0x4, 3, 3, .ro, 0x0, 1, 4, 1, false, 0, 1⟩
  | .optLnCompliance => ⟨.optLn, 0x4, 2, 2, .ro, 0x0, 1, 4, 1, false, 0, 1⟩
  | .optLnRamp => ⟨.optLn, 0x4, 1, 1, .ro, 0x0, 1, 4, 1, false, 0, 1⟩
  | .optLnBiasReady => ⟨.optLn, 0x4, 0, 0, .ro, 0x0, 1, 4, 1, false, 0, 1⟩
  | .optOutRampStep => ⟨.optLn, 0x10, 23, 16, .rw, 0x40, 3, 16, 1, false, 1, 255⟩
  | .optOutTable => ⟨.optLn, 0x10, 10, 8, .rw, 0x0, 3, 16, 1, false, 0, 7⟩
  | .optOutSrc => ⟨.optLn, 0x10, 5, 4, .rw, 0x0, 3, 16, 1, false, 0, 2⟩
  | .optOutRange => ⟨.optLn, 0x10, 1, 0, .rw, 0x3, 3, 16, 1, false, 0, 3⟩
  | .optOutAmp => ⟨.optLn, 0x14, 26, 16, .rw, 0x0, 3, 16, 1, false, 0, 2047⟩
  | .optOutBase => ⟨.optLn, 0x14, 11, 0, .rw, 0x0, 3, 16, 1, false, 0, 4095⟩
  | .optOutFstep => ⟨.optLn, 0x18, 31, 0, .rw, 0x0, 3, 16, 1, false, 0, 4294967295⟩
  | .optOutRangeAct => ⟨.optLn, 0x1c, 17, 16, .ro, 0x0, 3, 16, 1, false, 0, 3⟩
  | .optOutCode => ⟨.optLn, 0x1c, 11, 0, .ro, 0x0, 3, 16, 1, false, 0, 4095⟩
  | .optLnPuEn => ⟨.optLn, 0x40, 31, 31, .lk, 0x0, 1, 4, 1, false, 0, 1⟩
  | .optLnPuRange => ⟨.optLn, 0x40, 13, 12, .lk, 0x0, 3, 4, 1, false, 0, 3⟩
  | .optLnPuValue => ⟨.optLn, 0x40, 11, 0, .lk, 0x0, 3, 4, 1, false, 0, 4095⟩
  | .optLnMaxBias => ⟨.optLn, 0x50, 27, 16, .lk, 0x0, 1, 4, 1, false, 0, 4095⟩
  | .optLnIdleBiasMax => ⟨.optLn, 0x50, 11, 0, .lk, 0x0, 1, 4, 1, false, 0, 4095⟩
  | .optLnMonMax => ⟨.optLn, 0x54, 31, 20, .lk, 0x0, 1, 4, 1, false, 0, 4095⟩
  | .optLnMonCh => ⟨.optLn, 0x54, 16, 12, .lk, 0x0, 1, 4, 1, false, 0, 31⟩
  | .optLnMaxModSwing => ⟨.optLn, 0x54, 11, 0, .lk, 0x0, 1, 4, 1, false, 0, 4095⟩
  | .optLnTripCause => ⟨.optLn, 0x58, 18, 16, .ro, 0x0, 1, 4, 1, false, 0, 7⟩
  | .optLnOffRemainMs => ⟨.optLn, 0x58, 15, 0, .ro, 0x0, 1, 4, 1, false, 0, 65535⟩
  | .optLnTripCnt => ⟨.optLn, 0x60, 31, 16, .ro, 0x0, 1, 4, 1, false, 0, 65535⟩
  | .optLnEnvClampCnt => ⟨.optLn, 0x60, 15, 0, .ro, 0x0, 1, 4, 1, false, 0, 65535⟩
  | .optLnComplianceCnt => ⟨.optLn, 0x64, 31, 16, .ro, 0x0, 1, 4, 1, false, 0, 65535⟩
  | .optLnOpenCnt => ⟨.optLn, 0x64, 15, 0, .ro, 0x0, 1, 4, 1, false, 0, 65535⟩
  | .optGlbEnvSave => ⟨.optGlb, 0x0, 31, 31, .sc, 0x0, 1, 4, 1, false, 0, 1⟩
  | .optGlbTblHold => ⟨.optGlb, 0x0, 23, 16, .rw, 0x0, 1, 4, 1, false, 0, 255⟩
  | .optGlbLaneMask => ⟨.optGlb, 0x0, 7, 0, .lk, 0x0, 1, 4, 1, false, 0, 255⟩
  | .optGlbOffMinMs => ⟨.optGlb, 0x4, 31, 16, .lk, 0x0, 1, 4, 1, false, 1000, 65535⟩
  | .optGlbOnMaxUs => ⟨.optGlb, 0x4, 15, 0, .lk, 0x0, 1, 4, 1, false, 100, 2000⟩
  | .optGlbSavePending => ⟨.optGlb, 0x8, 3, 3, .ro, 0x0, 1, 4, 1, false, 0, 1⟩
  | .optGlbNvmBad => ⟨.optGlb, 0x8, 2, 2, .ro, 0x0, 1, 4, 1, false, 0, 1⟩
  | .optGlbLocked => ⟨.optGlb, 0x8, 1, 1, .ro, 0x0, 1, 4, 1, false, 0, 1⟩
  | .optGlbPuDone => ⟨.optGlb, 0x8, 0, 0, .ro, 0x0, 1, 4, 1, false, 0, 1⟩
  | .optGlbIntLane => ⟨.optGlb, 0xf0, 23, 16, .ro, 0x0, 1, 4, 1, false, 0, 255⟩
  | .pbSpeed => ⟨.optGlb, 0x100, 1, 0, .rw, 0x1, 1, 4, 1, false, 0, 2⟩
  | .pbGo => ⟨.optGlb, 0x104, 31, 31, .sc, 0x0, 1, 4, 1, false, 0, 1⟩
  | .pbRead => ⟨.optGlb, 0x104, 30, 30, .rw, 0x0, 1, 4, 1, false, 0, 1⟩
  | .pbLen => ⟨.optGlb, 0x104, 25, 24, .rw, 0x0, 1, 4, 1, false, 0, 3⟩
  | .pbAddr => ⟨.optGlb, 0x104, 22, 16, .rw, 0x0, 1, 4, 1, false, 0, 127⟩
  | .pbReg => ⟨.optGlb, 0x104, 7, 0, .rw, 0x0, 1, 4, 1, false, 0, 255⟩
  | .pbData => ⟨.optGlb, 0x108, 31, 0, .rw, 0x0, 1, 4, 1, false, 0, 4294967295⟩
  | .pbBusy => ⟨.optGlb, 0x10c, 4, 4, .ro, 0x0, 1, 4, 1, false, 0, 1⟩
  | .pbResult => ⟨.optGlb, 0x10c, 2, 0, .ro, 0x0, 1, 4, 1, false, 0, 7⟩
  | .pbProtValid => ⟨.optGlb, 0x120, 31, 31, .lk, 0x0, 8, 4, 1, false, 0, 1⟩
  | .pbProtAddr => ⟨.optGlb, 0x120, 22, 16, .lk, 0x0, 8, 4, 1, false, 0, 127⟩
  | .pbProtReg => ⟨.optGlb, 0x120, 15, 8, .lk, 0x0, 8, 4, 1, false, 0, 255⟩
  | .pbProtMax => ⟨.optGlb, 0x120, 7, 0, .lk, 0x0, 8, 4, 1, false, 0, 255⟩
  | .monCntClr => ⟨.mon, 0x0, 31, 31, .sc, 0x0, 1, 4, 1, false, 0, 1⟩
  | .monEn => ⟨.mon, 0x4, 23, 0, .rw, 0x0, 1, 4, 1, false, 0, 16777215⟩
  | .monChStepThr => ⟨.monCh, 0x0, 31, 24, .rw, 0x10, 1, 4, 1, false, 0, 255⟩
  | .monChAssoc => ⟨.monCh, 0x0, 20, 16, .rw, 0x1f, 1, 4, 1, false, 0, 31⟩
  | .monChGain => ⟨.monCh, 0x0, 12, 12, .rw, 0x0, 1, 4, 1, false, 0, 1⟩
  | .monChFirDec => ⟨.monCh, 0x0, 9, 9, .rw, 0x0, 1, 4, 1, false, 0, 1⟩
  | .monChFirEn => ⟨.monCh, 0x0, 8, 8, .rw, 0x0, 1, 4, 1, false, 0, 1⟩
  | .monChHb => ⟨.monCh, 0x0, 5, 4, .rw, 0x0, 1, 4, 1, false, 0, 3⟩
  | .monChCicR => ⟨.monCh, 0x0, 2, 0, .rw, 0x3, 1, 4, 1, false, 0, 6⟩
  | .monChValid => ⟨.monCh, 0x4, 31, 31, .ro, 0x0, 1, 4, 1, false, 0, 1⟩
  | .monChSeq => ⟨.monCh, 0x4, 23, 16, .ro, 0x0, 1, 4, 1, false, 0, 255⟩
  | .monChData => ⟨.monCh, 0x4, 15, 0, .ro, 0x0, 1, 4, 1, false, 0, 65535⟩
  | .monChSwap => ⟨.monCh, 0x8, 31, 31, .sc, 0x0, 1, 4, 1, false, 0, 1⟩
  | .monChBank => ⟨.monCh, 0x8, 2, 2, .ro, 0x0, 1, 4, 1, false, 0, 1⟩
  | .monChXfade => ⟨.monCh, 0x8, 1, 1, .ro, 0x0, 1, 4, 1, false, 0, 1⟩
  | .monChCoefOdd => ⟨.monCh, 0x10, 31, 16, .rw, 0x0, 8, 4, 1, false, 0, 65535⟩
  | .monChCoefEven => ⟨.monCh, 0x10, 15, 0, .rw, 0x0, 8, 4, 1, false, 0, 65535⟩
  | .optTblOdd => ⟨.optTbl, 0x0, 31, 16, .rw, 0x0, 512, 4, 1, false, 0, 65535⟩
  | .optTblEven => ⟨.optTbl, 0x0, 15, 0, .rw, 0x0, 512, 4, 1, false, 0, 65535⟩
  | .pwrCntClr => ⟨.pwr, 0x0, 31, 31, .sc, 0x0, 1, 4, 1, false, 0, 1⟩
  | .pwrDeep => ⟨.pwr, 0x0, 30, 30, .sc, 0x0, 1, 4, 1, false, 0, 1⟩
  | .pwrStandbySw => ⟨.pwr, 0x0, 8, 8, .rw, 0x0, 1, 4, 1, false, 0, 1⟩
  | .pwrLpmodeEn => ⟨.pwr, 0x0, 7, 7, .rw, 0x1, 1, 4, 1, false, 0, 1⟩
  | .pwrWarnRails => ⟨.pwr, 0x4, 22, 16, .ro, 0x0, 1, 4, 1, false, 0, 127⟩
  | .pwrDvfsBusy => ⟨.pwr, 0x4, 11, 11, .ro, 0x0, 1, 4, 1, false, 0, 1⟩
  | .pwrWarn => ⟨.pwr, 0x4, 10, 10, .ro, 0x0, 1, 4, 1, false, 0, 1⟩
  | .pwrRetFail => ⟨.pwr, 0x4, 9, 9, .ro, 0x0, 1, 4, 1, false, 0, 1⟩
  | .pwrRetValid => ⟨.pwr, 0x4, 8, 8, .ro, 0x0, 1, 4, 1, false, 0, 1⟩
  | .pwrDevState => ⟨.pwr, 0x4, 3, 0, .ro, 0x0, 1, 4, 1, false, 0, 15⟩
  | .pwrWakeEn => ⟨.pwr, 0x8, 6, 1, .rw, 0x4, 1, 4, 1, false, 0, 63⟩
  | .pwrWakeHeld => ⟨.pwr, 0xc, 31, 31, .ro, 0x0, 1, 4, 1, false, 0, 1⟩
  | .pwrWakeFrom => ⟨.pwr, 0xc, 27, 24, .ro, 0x0, 1, 4, 1, false, 0, 15⟩
  | .pwrWakeSource => ⟨.pwr, 0xc, 19, 16, .ro, 0x0, 1, 4, 1, false, 0, 15⟩
  | .pwrWakeObject => ⟨.pwr, 0xc, 4, 0, .ro, 0x0, 1, 4, 1, false, 0, 31⟩
  | .pwrWakeSleptTicks => ⟨.pwr, 0x10, 31, 0, .ro, 0x0, 1, 4, 1, false, 0, 4294967295⟩
  | .pwrWakeTimerMs => ⟨.pwr, 0x14, 31, 0, .rw, 0x0, 1, 4, 1, false, 0, 4294967295⟩
  | .pwrRefLate => ⟨.pwr, 0x18, 31, 31, .ro, 0x0, 1, 4, 1, false, 0, 1⟩
  | .pwrRefTarget => ⟨.pwr, 0x18, 27, 24, .ro, 0x0, 1, 4, 1, false, 0, 15⟩
  | .pwrRefObject => ⟨.pwr, 0x18, 20, 16, .ro, 0x0, 1, 4, 1, false, 0, 31⟩
  | .pwrRefVoter => ⟨.pwr, 0x18, 15, 12, .ro, 0x0, 1, 4, 1, false, 0, 15⟩
  | .pwrRefInstance => ⟨.pwr, 0x18, 11, 8, .ro, 0x0, 1, 4, 1, false, 0, 15⟩
  | .pwrRefReason => ⟨.pwr, 0x18, 7, 0, .ro, 0x0, 1, 4, 1, false, 0, 255⟩
  | .pwrRetryUs => ⟨.pwr, 0x1c, 31, 16, .rw, 0x3e8, 1, 4, 1, false, 100, 65535⟩
  | .pwrRetryMax => ⟨.pwr, 0x1c, 15, 12, .rw, 0x3, 1, 4, 1, false, 0, 15⟩
  | .pwrVoteTmoUs => ⟨.pwr, 0x1c, 9, 0, .rw, 0x64, 1, 4, 1, false, 10, 1000⟩
  | .pwrIslandGapUs => ⟨.pwr, 0x20, 6, 0, .rw, 0x2, 1, 4, 1, false, 1, 100⟩
  | .pwrDvfsMode => ⟨.pwr, 0x30, 31, 31, .rw, 0x0, 1, 4, 1, false, 0, 1⟩
  | .pwrDvfsReq => ⟨.pwr, 0x30, 15, 0, .rw, 0x0, 1, 4, 1, false, 0, 65535⟩
  | .pwrVoutMv => ⟨.pwr, 0x34, 25, 16, .rw, 0x320, 1, 4, 1, false, 650, 800⟩
  | .pwrVoutActMv => ⟨.pwr, 0x34, 9, 0, .ro, 0x320, 1, 4, 1, false, 0, 1023⟩
  | .pwrDvfsStBusy => ⟨.pwr, 0x38, 31, 31, .ro, 0x0, 1, 4, 1, false, 0, 1⟩
  | .pwrDvfsErr => ⟨.pwr, 0x38, 29, 28, .ro, 0x0, 1, 4, 1, false, 0, 3⟩
  | .pwrDvfsPoint => ⟨.pwr, 0x38, 15, 0, .ro, 0x0, 1, 4, 1, false, 0, 65535⟩
  | .pwrDvfsTmoUs => ⟨.pwr, 0x3c, 15, 0, .rw, 0x7d0, 1, 4, 1, false, 200, 65535⟩
  | .pwrPecEn => ⟨.pwr, 0x40, 31, 31, .rw, 0x1, 1, 4, 1, false, 0, 1⟩
  | .pwrSpeed => ⟨.pwr, 0x40, 24, 24, .rw, 0x0, 1, 4, 1, false, 0, 1⟩
  | .pwrPmAddr => ⟨.pwr, 0x40, 22, 16, .rw, 0x40, 1, 4, 1, false, 0, 127⟩
  | .pwrResetRail => ⟨.pwr, 0x44, 18, 16, .ro, 0x0, 1, 4, 1, false, 0, 7⟩
  | .pwrResetCause => ⟨.pwr, 0x44, 2, 0, .ro, 0x1, 1, 4, 1, false, 0, 7⟩
  | .pwrDeepWakeMs => ⟨.pwr, 0x48, 15, 0, .ro, 0x0, 1, 4, 1, false, 0, 65535⟩
  | .pwrWarnCnt => ⟨.pwr, 0x50, 31, 16, .ro, 0x0, 1, 4, 1, false, 0, 65535⟩
  | .pwrRefusalCnt => ⟨.pwr, 0x50, 15, 0, .ro, 0x0, 1, 4, 1, false, 0, 65535⟩
  | .pwrWakeFailCnt => ⟨.pwr, 0x54, 15, 0, .ro, 0x0, 1, 4, 1, false, 0, 65535⟩
  | .pwrLnEgrBudgetUs => ⟨.pwrLn, 0x0, 31, 16, .rw, 0x0, 1, 4, 1, false, 0, 65535⟩
  | .pwrLnIngBudgetUs => ⟨.pwrLn, 0x0, 15, 0, .rw, 0x0, 1, 4, 1, false, 0, 65535⟩
  | .pwrLnIngSleep => ⟨.pwrLn, 0x4, 31, 31, .rw, 0x0, 1, 4, 1, false, 0, 1⟩
  | .pwrLnEgrSleep => ⟨.pwrLn, 0x4, 30, 30, .rw, 0x0, 1, 4, 1, false, 0, 1⟩
  | .pwrLnLinkWake => ⟨.pwrLn, 0x4, 29, 29, .rw, 0x1, 1, 4, 1, false, 0, 1⟩
  | .pwrLnTrimPoint => ⟨.pwrLn, 0x4, 1, 0, .rw, 0x2, 1, 4, 1, false, 1, 3⟩
  | .pwrLnTrimWakeQ => ⟨.pwrLn, 0x8, 23, 16, .rw, 0x4, 1, 4, 1, false, 1, 63⟩
  | .pwrLnTrimDwellUs => ⟨.pwrLn, 0x8, 15, 0, .rw, 0x3e8, 1, 4, 1, false, 10, 65535⟩
  | .pwrLnIngGiveup => ⟨.pwrLn, 0xc, 31, 31, .ro, 0x0, 1, 4, 1, false, 0, 1⟩
  | .pwrLnEgrGiveup => ⟨.pwrLn, 0xc, 30, 30, .ro, 0x0, 1, 4, 1, false, 0, 1⟩
  | .pwrLnIngRetry => ⟨.pwrLn, 0xc, 27, 24, .ro, 0x0, 1, 4, 1, false, 0, 15⟩
  | .pwrLnEgrRetry => ⟨.pwrLn, 0xc, 23, 20, .ro, 0x0, 1, 4, 1, false, 0, 15⟩
  | .pwrLnLrxPstate => ⟨.pwrLn, 0xc, 15, 12, .ro, 0x0, 1, 4, 1, false, 0, 15⟩
  | .pwrLnLtxPstate => ⟨.pwrLn, 0xc, 11, 8, .ro, 0x0, 1, 4, 1, false, 0, 15⟩
  | .pwrLnTrim => ⟨.pwrLn, 0xc, 4, 4, .ro, 0x0, 1, 4, 1, false, 0, 1⟩
  | .pwrLnIngPhase => ⟨.pwrLn, 0xc, 3, 2, .ro, 0x0, 1, 4, 1, false, 0, 3⟩
  | .pwrLnEgrPhase => ⟨.pwrLn, 0xc, 1, 0, .ro, 0x0, 1, 4, 1, false, 0, 3⟩
  | .thmCntClr => ⟨.thm, 0x0, 31, 31, .sc, 0x0, 1, 4, 1, false, 0, 1⟩
  | .thmCritClr => ⟨.thm, 0x0, 30, 30, .sc, 0x0, 1, 4, 1, false, 0, 1⟩
  | .thmRestore => ⟨.thm, 0x0, 29, 29, .sc, 0x0, 1, 4, 1, false, 0, 1⟩
  | .thmCritAuto => ⟨.thm, 0x0, 1, 1, .rw, 0x0, 1, 4, 1, false, 0, 1⟩
  | .thmAutoRestore => ⟨.thm, 0x0, 0, 0, .rw, 0x1, 1, 4, 1, false, 0, 1⟩
  | .thmHystC => ⟨.thm, 0x4, 26, 24, .rw, 0x3, 1, 4, 1, false, 0, 7⟩
  | .thmCritC => ⟨.thm, 0x4, 23, 16, .lk, 0x73, 1, 4, 1, false, 105, 120⟩
  | .thmThrC => ⟨.thm, 0x4, 15, 8, .rw, 0x69, 1, 4, 1, false, 0, 255⟩
  | .thmWarnC => ⟨.thm, 0x4, 7, 0, .rw, 0x64, 1, 4, 1, false, 0, 255⟩
  | .thmStepMs => ⟨.thm, 0x8, 31, 16, .rw, 0x32, 1, 4, 1, false, 10, 1000⟩
  | .thmGraceMs => ⟨.thm, 0x8, 15, 0, .rw, 0xc8, 1, 4, 1, false, 10, 2000⟩
  | .thmResumeC => ⟨.thm, 0xc, 23, 16, .rw, 0x5f, 1, 4, 1, false, 80, 110⟩
  | .thmRecoverMs => ⟨.thm, 0xc, 15, 0, .rw, 0x3e8, 1, 4, 1, false, 100, 65535⟩
  | .thmCalSh => ⟨.thm, 0x10, 11, 8, .rw, 0x4, 1, 4, 1, false, 2, 8⟩
  | .thmSensorFailC => ⟨.thm, 0x10, 7, 0, .rw, 0x6a, 1, 4, 1, false, 101, 120⟩
  | .thmHotT => ⟨.thm, 0x14, 31, 16, .ro, 0x0, 1, 4, 1, false, 0, 65535⟩
  | .thmHotIsland => ⟨.thm, 0x14, 12, 8, .ro, 0x0, 1, 4, 1, false, 0, 31⟩
  | .thmCritLatch => ⟨.thm, 0x14, 6, 6, .ro, 0x0, 1, 4, 1, false, 0, 1⟩
  | .thmThrottleReq => ⟨.thm, 0x14, 5, 5, .ro, 0x0, 1, 4, 1, false, 0, 1⟩
  | .thmWarn => ⟨.thm, 0x14, 4, 4, .ro, 0x0, 1, 4, 1, false, 0, 1⟩
  | .thmState => ⟨.thm, 0x14, 2, 0, .ro, 0x0, 1, 4, 1, false, 0, 7⟩
  | .thmIslandSensorFail => ⟨.thm, 0x40, 31, 31, .ro, 0x0, 24, 4, 1, false, 0, 1⟩
  | .thmIslandPowerMw => ⟨.thm, 0x40, 30, 16, .ro, 0x0, 24, 4, 1, false, 0, 32767⟩
  | .thmIslandTemp => ⟨.thm, 0x40, 15, 0, .ro, 0x0, 24, 4, 1, false, 0, 65535⟩
  | .thmDiodeBroken => ⟨.thm, 0xa0, 31, 31, .ro, 0x0, 4, 4, 1, false, 0, 1⟩
  | .thmDiodeResid => ⟨.thm, 0xa0, 27, 16, .ro, 0x0, 4, 4, 1, false, 0, 4095⟩
  | .thmDiodeTemp => ⟨.thm, 0xa0, 15, 0, .ro, 0x0, 4, 4, 1, false, 0, 65535⟩
  | .thmLnOrigProfile => ⟨.thm, 0xc0, 9, 8, .ro, 0x0, 8, 4, 1, false, 0, 3⟩
  | .thmLnProfileSteps => ⟨.thm, 0xc0, 6, 5, .ro, 0x0, 8, 4, 1, false, 0, 3⟩
  | .thmLnDvfsSteps => ⟨.thm, 0xc0, 4, 3, .ro, 0x0, 8, 4, 1, false, 0, 3⟩
  | .thmLnShutdown => ⟨.thm, 0xc0, 0, 0, .ro, 0x0, 8, 4, 1, false, 0, 1⟩
  | .thmAonDir => ⟨.thm, 0xe0, 8, 8, .rw, 0x0, 1, 4, 1, false, 0, 1⟩
  | .thmAonWakeC => ⟨.thm, 0xe0, 7, 0, .rw, 0x5f, 1, 4, 1, false, 0, 120⟩
  | .thmThrottleCnt => ⟨.thm, 0xe4, 31, 16, .ro, 0x0, 1, 4, 1, false, 0, 65535⟩
  | .thmCritCnt => ⟨.thm, 0xe4, 15, 0, .ro, 0x0, 1, 4, 1, false, 0, 65535⟩
  | .thmStepCnt => ⟨.thm, 0xe8, 31, 16, .ro, 0x0, 1, 4, 1, false, 0, 65535⟩
  | .thmSensorFailCnt => ⟨.thm, 0xe8, 15, 0, .ro, 0x0, 1, 4, 1, false, 0, 65535⟩
  | .hltCntClr => ⟨.hlt, 0x0, 31, 31, .sc, 0x0, 1, 4, 1, false, 0, 1⟩
  | .hltBgBistEn => ⟨.hlt, 0x0, 0, 0, .rw, 0x1, 1, 4, 1, false, 0, 1⟩
  | .hltAgeWinMs => ⟨.hlt, 0x4, 31, 16, .rw, 0xa, 1, 4, 1, false, 1, 1000⟩
  | .hltStarveLimit => ⟨.hlt, 0x4, 7, 0, .rw, 0x10, 1, 4, 1, false, 1, 255⟩
  | .hltBistGo => ⟨.hlt, 0x10, 31, 31, .sc, 0x0, 1, 4, 1, false, 0, 1⟩
  | .hltBistPreempt => ⟨.hlt, 0x10, 12, 12, .rw, 0x0, 1, 4, 1, false, 0, 1⟩
  | .hltBistKind => ⟨.hlt, 0x10, 11, 8, .rw, 0x0, 1, 4, 1, false, 0, 15⟩
  | .hltBistUnit => ⟨.hlt, 0x10, 6, 0, .rw, 0x0, 1, 4, 1, false, 0, 127⟩
  | .hltBistState => ⟨.hlt, 0x14, 31, 28, .ro, 0x0, 1, 4, 1, false, 0, 15⟩
  | .hltBistResult => ⟨.hlt, 0x14, 27, 24, .ro, 0x0, 1, 4, 1, false, 0, 15⟩
  | .hltBistIslandSlots => ⟨.hlt, 0x14, 17, 16, .ro, 0x0, 1, 4, 1, false, 0, 3⟩
  | .hltBistEngines => ⟨.hlt, 0x14, 13, 8, .ro, 0x0, 1, 4, 1, false, 0, 63⟩
  | .hltBistRefused => ⟨.hlt, 0x14, 4, 4, .ro, 0x0, 1, 4, 1, false, 0, 1⟩
  | .hltBistPeriph => ⟨.hlt, 0x14, 0, 0, .ro, 0x0, 1, 4, 1, false, 0, 1⟩
  | .hltBgPeriodS => ⟨.hlt, 0x18, 31, 16, .rw, 0xe10, 1, 4, 1, false, 60, 65535⟩
  | .hltBootMask => ⟨.hlt, 0x18, 15, 8, .rw, 0x3f, 1, 4, 1, false, 0, 255⟩
  | .hltBistWaitMs => ⟨.hlt, 0x18, 7, 0, .rw, 0x64, 1, 4, 1, false, 1, 255⟩
  | .hltSvcPreemptHost => ⟨.hlt, 0x1c, 31, 16, .rw, 0x0, 1, 4, 1, false, 0, 65535⟩
  | .hltSvcPreemptLine => ⟨.hlt, 0x1c, 7, 0, .rw, 0x0, 1, 4, 1, false, 0, 255⟩
  | .hltFailXbar => ⟨.hlt, 0x20, 31, 31, .ro, 0x0, 1, 4, 1, false, 0, 1⟩
  | .hltFailMonAdc => ⟨.hlt, 0x20, 30, 30, .ro, 0x0, 1, 4, 1, false, 0, 1⟩
  | .hltFailEnvelope => ⟨.hlt, 0x20, 29, 29, .ro, 0x0, 1, 4, 1, false, 0, 1⟩
  | .hltFailKeystore => ⟨.hlt, 0x20, 28, 28, .ro, 0x0, 1, 4, 1, false, 0, 1⟩
  | .hltFailHost => ⟨.hlt, 0x20, 19, 16, .ro, 0x0, 1, 4, 1, false, 0, 15⟩
  | .hltFailCtrlDac => ⟨.hlt, 0x20, 15, 8, .ro, 0x0, 1, 4, 1, false, 0, 255⟩
  | .hltFailLane => ⟨.hlt, 0x20, 7, 0, .ro, 0x0, 1, 4, 1, false, 0, 255⟩
  | .hltRunCnt => ⟨.hlt, 0x24, 31, 16, .ro, 0x0, 1, 4, 1, false, 0, 65535⟩
  | .hltFailCnt => ⟨.hlt, 0x24, 15, 0, .ro, 0x0, 1, 4, 1, false, 0, 65535⟩
  | .hltAbortCnt => ⟨.hlt, 0x28, 31, 16, .ro, 0x0, 1, 4, 1, false, 0, 65535⟩
  | .hltUntestedCnt => ⟨.hlt, 0x28, 15, 0, .ro, 0x0, 1, 4, 1, false, 0, 65535⟩
  | .hltDacIntervalUs => ⟨.hlt, 0x40, 31, 16, .rw, 0x3e8, 1, 4, 1, false, 10, 65535⟩
  | .hltAdcIntervalUs => ⟨.hlt, 0x40, 15, 0, .rw, 0x3e8, 1, 4, 1, false, 10, 65535⟩
  | .hltDacBgEn => ⟨.hlt, 0x44, 31, 24, .rw, 0xff, 1, 4, 1, false, 0, 255⟩
  | .hltAdcBgEn => ⟨.hlt, 0x44, 23, 16, .rw, 0xff, 1, 4, 1, false, 0, 255⟩
  | .hltCalMaxLanes => ⟨.hlt, 0x44, 3, 0, .rw, 0x4, 1, 4, 1, false, 1, 8⟩
  | .hltEscCnt => ⟨.hlt, 0x48, 15, 0, .ro, 0x0, 1, 4, 1, false, 0, 65535⟩
  | .hltSelSource => ⟨.hlt, 0x50, 11, 8, .rw, 0x0, 1, 4, 1, false, 0, 15⟩
  | .hltSelInstance => ⟨.hlt, 0x50, 3, 0, .rw, 0x0, 1, 4, 1, false, 0, 15⟩
  | .hltInstOpen => ⟨.hlt, 0x54, 31, 31, .ro, 0x0, 1, 4, 1, false, 0, 1⟩
  | .hltInstLasting => ⟨.hlt, 0x54, 30, 30, .ro, 0x0, 1, 4, 1, false, 0, 1⟩
  | .hltInstCount => ⟨.hlt, 0x54, 9, 0, .ro, 0x0, 1, 4, 1, false, 0, 1023⟩
  | .hltInstElapsedUs => ⟨.hlt, 0x58, 25, 0, .ro, 0x0, 1, 4, 1, false, 0, 67108863⟩
  | .hltInstTotal => ⟨.hlt, 0x5c, 31, 0, .ro, 0x0, 1, 4, 1, false, 0, 4294967295⟩
  | .hltWinUs => ⟨.hlt, 0x100, 25, 0, .rw, 0x0, 16, 8, 1, false, 100, 60000000⟩
  | .hltAction => ⟨.hlt, 0x104, 31, 30, .rw, 0x0, 16, 8, 1, false, 0, 3⟩
  | .hltThresh => ⟨.hlt, 0x104, 9, 0, .rw, 0x0, 16, 8, 1, false, 1, 1023⟩
  | .hltSrcLasting => ⟨.hlt, 0x200, 15, 0, .w1c, 0x0, 16, 4, 1, false, 0, 65535⟩
  | .hltLnRxCnt => ⟨.hltLn, 0x0, 31, 0, .ro, 0x0, 1, 4, 1, false, 0, 4294967295⟩
  | .hltLnTxCnt => ⟨.hltLn, 0x4, 31, 0, .ro, 0x0, 1, 4, 1, false, 0, 4294967295⟩
  | .hltLnRxTime => ⟨.hltLn, 0x10, 127, 0, .ro, 0x0, 1, 4, 4, false, 0, 340282366920938463463374607431768211455⟩
  | .hltLnTxTime => ⟨.hltLn, 0x20, 127, 0, .ro, 0x0, 1, 4, 4, false, 0, 340282366920938463463374607431768211455⟩
  | .hltLnEscAdc => ⟨.hltLn, 0x30, 31, 31, .ro, 0x0, 1, 4, 1, false, 0, 1⟩
  | .hltLnDacAge => ⟨.hltLn, 0x30, 15, 8, .ro, 0x0, 1, 4, 1, false, 0, 255⟩
  | .hltLnAdcAge => ⟨.hltLn, 0x30, 7, 0, .ro, 0x0, 1, 4, 1, false, 0, 255⟩
  | .glbIntTop => ⟨.glb, 0xe0, 17, 0, .ro, 0x0, 1, 4, 1, false, 0, 262143⟩
  | .glbIntLane => ⟨.glb, 0xe4, 31, 0, .ro, 0x0, 1, 4, 1, false, 0, 4294967295⟩
  | .mgtCntClr => ⟨.mgt, 0x0, 31, 31, .sc, 0x0, 1, 4, 1, false, 0, 1⟩
  | .mgtModMonMcPresent => ⟨.mgt, 0x0, 9, 8, .rw, 0x0, 1, 4, 1, false, 0, 3⟩
  | .mgtWdogMs => ⟨.mgt, 0x0, 7, 0, .rw, 0x64, 1, 4, 1, false, 20, 255⟩
  | .mgtFwHalt => ⟨.mgt, 0x4, 31, 31, .ro, 0x0, 1, 4, 1, false, 0, 1⟩
  | .mgtRomFw => ⟨.mgt, 0x4, 30, 30, .ro, 0x0, 1, 4, 1, false, 0, 1⟩
  | .mgtFwVersion => ⟨.mgt, 0x4, 15, 0, .ro, 0x0, 1, 4, 1, false, 0, 65535⟩
  | .mgtI3cMode => ⟨.mgt, 0x10, 16, 16, .ro, 0x0, 1, 4, 1, false, 0, 1⟩
  | .mgtHbAddr => ⟨.mgt, 0x10, 6, 0, .rw, 0x50, 1, 4, 1, false, 0, 127⟩
  | .mgtMcNotify => ⟨.mgt, 0x14, 15, 0, .w1c, 0x0, 1, 4, 1, false, 0, 65535⟩
  | .mgtMcPageValid => ⟨.mgt, 0x20, 31, 31, .rw, 0x0, 16, 4, 1, false, 0, 1⟩
  | .mgtMcPageBank => ⟨.mgt, 0x20, 8, 8, .rw, 0x0, 16, 4, 1, false, 0, 1⟩
  | .mgtMcPagePage => ⟨.mgt, 0x20, 7, 0, .rw, 0x0, 16, 4, 1, false, 0, 255⟩
  | .mgtInAbort => ⟨.mgt, 0x60, 31, 31, .sc, 0x0, 1, 4, 1, false, 0, 1⟩
  | .mgtMbxTmoUs => ⟨.mgt, 0x60, 30, 16, .rw, 0x2710, 1, 4, 1, false, 1000, 32767⟩
  | .mgtMbxSize => ⟨.mgt, 0x60, 1, 0, .rw, 0x2, 1, 4, 1, false, 0, 3⟩
  | .mgtMbxInData => ⟨.mgt, 0x64, 31, 0, .wo, 0x0, 1, 4, 1, false, 0, 4294967295⟩
  | .mgtMbxInResult => ⟨.mgt, 0x68, 31, 28, .ro, 0x0, 1, 4, 1, false, 0, 15⟩
  | .mgtMbxOpen => ⟨.mgt, 0x68, 27, 27, .ro, 0x0, 1, 4, 1, false, 0, 1⟩
  | .mgtMbxFree => ⟨.mgt, 0x68, 13, 0, .ro, 0x1000, 1, 4, 1, false, 0, 16383⟩
  | .mgtMbxOutData => ⟨.mgt, 0x6c, 31, 0, .ro, 0x80000000, 1, 4, 1, false, 0, 4294967295⟩
  | .mgtMbxAvail => ⟨.mgt, 0x70, 13, 0, .ro, 0x0, 1, 4, 1, false, 0, 16383⟩
  | .mgtRefusedCnt => ⟨.mgt, 0x80, 31, 16, .ro, 0x0, 1, 4, 1, false, 0, 65535⟩
  | .mgtFwRestartCnt => ⟨.mgt, 0x80, 15, 0, .ro, 0x0, 1, 4, 1, false, 0, 65535⟩
  | .evfData => ⟨.evf, 0x0, 31, 0, .ro, 0x80000000, 1, 4, 1, false, 0, 4294967295⟩
  | .evfFormat => ⟨.evf, 0x4, 31, 31, .rw, 0x1, 1, 4, 1, false, 0, 1⟩
  | .evfDeferEn => ⟨.evf, 0x4, 30, 30, .rw, 0x0, 1, 4, 1, false, 0, 1⟩
  | .evfFlush => ⟨.evf, 0x4, 29, 29, .sc, 0x0, 1, 4, 1, false, 0, 1⟩
  | .evfHwm => ⟨.evf, 0x4, 28, 15, .rw, 0x3000, 1, 4, 1, false, 0, 16383⟩
  | .evfLwm => ⟨.evf, 0x4, 13, 0, .rw, 0x2000, 1, 4, 1, false, 0, 16383⟩
  | .evfFull => ⟨.evf, 0x8, 31, 31, .ro, 0x0, 1, 4, 1, false, 0, 1⟩
  | .evfOverrun => ⟨.evf, 0x8, 30, 30, .ro, 0x0, 1, 4, 1, false, 0, 1⟩
  | .evfXoff => ⟨.evf, 0x8, 29, 29, .ro, 0x0, 1, 4, 1, false, 0, 1⟩
  | .evfFmtPending => ⟨.evf, 0x8, 28, 28, .ro, 0x0, 1, 4, 1, false, 0, 1⟩
  | .evfLevel => ⟨.evf, 0x8, 14, 0, .ro, 0x0, 1, 4, 1, false, 0, 32767⟩
  | .evfWptr => ⟨.evf, 0xc, 31, 16, .ro, 0x0, 1, 4, 1, false, 0, 65535⟩
  | .evfRptr => ⟨.evf, 0xc, 15, 0, .ro, 0x0, 1, 4, 1, false, 0, 65535⟩
  | .evfDroppedCnt => ⟨.evf, 0x10, 31, 16, .ro, 0x0, 1, 4, 1, false, 0, 65535⟩
  | .evfDeferredCnt => ⟨.evf, 0x10, 15, 0, .ro, 0x0, 1, 4, 1, false, 0, 65535⟩
  | .secNonceValid => ⟨.sec, 0x0, 16, 16, .ro, 0x0, 1, 4, 1, false, 0, 1⟩
  | .secNvmErr => ⟨.sec, 0x0, 13, 13, .ro, 0x0, 1, 4, 1, false, 0, 1⟩
  | .secKsFail => ⟨.sec, 0x0, 12, 12, .ro, 0x0, 1, 4, 1, false, 0, 1⟩
  | .secScanOpen => ⟨.sec, 0x0, 11, 11, .ro, 0x0, 1, 4, 1, false, 0, 1⟩
  | .secDebugOpen => ⟨.sec, 0x0, 10, 10, .ro, 0x0, 1, 4, 1, false, 0, 1⟩
  | .secRollbackErr => ⟨.sec, 0x0, 9, 9, .ro, 0x0, 1, 4, 1, false, 0, 1⟩
  | .secLcErr => ⟨.sec, 0x0, 8, 8, .ro, 0x0, 1, 4, 1, false, 0, 1⟩
  | .secLcState => ⟨.sec, 0x0, 2, 0, .ro, 0x0, 1, 4, 1, false, 0, 7⟩
  | .secCmdGo => ⟨.sec, 0x4, 31, 31, .sc, 0x0, 1, 4, 1, false, 0, 1⟩
  | .secCmdFlags => ⟨.sec, 0x4, 18, 16, .rw, 0x0, 1, 4, 1, false, 0, 7⟩
  | .secCmdArg => ⟨.sec, 0x4, 11, 8, .rw, 0x0, 1, 4, 1, false, 0, 15⟩
  | .secCmdOp => ⟨.sec, 0x4, 3, 0, .rw, 0x0, 1, 4, 1, false, 0, 15⟩
  | .secBusy => ⟨.sec, 0x8, 31, 31, .ro, 0x0, 1, 4, 1, false, 0, 1⟩
  | .secPendingNvm => ⟨.sec, 0x8, 30, 30, .ro, 0x0, 1, 4, 1, false, 0, 1⟩
  | .secResult => ⟨.sec, 0x8, 3, 0, .ro, 0x0, 1, 4, 1, false, 0, 15⟩
  | .secUid => ⟨.sec, 0x10, 127, 0, .ro, 0x0, 1, 4, 4, false, 0, 340282366920938463463374607431768211455⟩
  | .secNonce => ⟨.sec, 0x20, 255, 0, .ro, 0x0, 1, 4, 8, false, 0, 115792089237316195423570985008687907853269984665640564039457584007913129639935⟩
  | .secKeyIndex => ⟨.sec, 0x40, 1, 0, .rw, 0x0, 1, 4, 1, false, 0, 3⟩
  | .secTokenR => ⟨.sec, 0x44, 383, 0, .rw, 0x0, 1, 4, 12, false, 0, 39402006196394479212279040100143613805079739270465446667948293404245721771497210611414266254884915640806627990306815⟩
  | .secTokenS => ⟨.sec, 0x74, 383, 0, .rw, 0x0, 1, 4, 12, false, 0, 39402006196394479212279040100143613805079739270465446667948293404245721771497210611414266254884915640806627990306815⟩
  | .secKeyData => ⟨.sec, 0x100, 767, 0, .rw, 0x0, 1, 4, 24, false, 0, 1552518092300708935148979488462502555256886017116696611139052038026050952686376886330878408828646477950487730697131073206171580044114814391444287275041181139204454976020849905550265285631598444825262999193716468750892846853816057855⟩
  | .secKeyFlags => ⟨.sec, 0xb0, 6, 4, .ro, 0x0, 4, 4, 1, false, 0, 7⟩
  | .secKeyState => ⟨.sec, 0xb0, 1, 0, .ro, 0x0, 4, 4, 1, false, 0, 3⟩
  | .secRollbackFloor => ⟨.sec, 0xc0, 31, 0, .ro, 0x0, 1, 4, 1, false, 0, 4294967295⟩
  | .secRollbackNew => ⟨.sec, 0xc4, 31, 0, .rw, 0x0, 1, 4, 1, false, 0, 4294967295⟩
  | .glbBootFailStage => ⟨.glb, 0x50, 27, 24, .ro, 0xf, 1, 4, 1, false, 0, 15⟩
  | .glbBootFallback => ⟨.glb, 0x50, 8, 8, .ro, 0x0, 1, 4, 1, false, 0, 1⟩
  | .glbBootStage => ⟨.glb, 0x50, 3, 0, .ro, 0x3, 1, 4, 1, false, 0, 15⟩
  | .glbActiveUs => ⟨.glb, 0x54, 31, 0, .ro, 0x0, 1, 4, 1, false, 0, 4294967295⟩
  | .glbCommitUs => ⟨.glb, 0x58, 31, 0, .ro, 0x0, 1, 4, 1, false, 0, 4294967295⟩
  | .imgIntStatus => ⟨.img, 0x40, 6, 0, .w1c, 0x0, 1, 4, 1, false, 0, 127⟩
  | .imgIntEnable => ⟨.img, 0x44, 6, 0, .rw, 0x0, 1, 4, 1, false, 0, 127⟩
  | .imgIntForce => ⟨.img, 0x48, 6, 0, .w1s, 0x0, 1, 4, 1, false, 0, 127⟩
  | .lrxIntStatus => ⟨.lrx, 0xf0, 10, 0, .w1c, 0x0, 1, 4, 1, false, 0, 2047⟩
  | .lrxIntEnable => ⟨.lrx, 0xf4, 10, 0, .rw, 0x0, 1, 4, 1, false, 0, 2047⟩
  | .lrxIntForce => ⟨.lrx, 0xf8, 10, 0, .w1s, 0x0, 1, 4, 1, false, 0, 2047⟩
  | .leqIntStatus => ⟨.leq, 0xf0, 6, 0, .w1c, 0x0, 1, 4, 1, false, 0, 127⟩
  | .leqIntEnable => ⟨.leq, 0xf4, 6, 0, .rw, 0x0, 1, 4, 1, false, 0, 127⟩
  | .leqIntForce => ⟨.leq, 0xf8, 6, 0, .w1s, 0x0, 1, 4, 1, false, 0, 127⟩
  | .ltxIntStatus => ⟨.ltx, 0xf0, 9, 0, .w1c, 0x0, 1, 4, 1, false, 0, 1023⟩
  | .ltxIntEnable => ⟨.ltx, 0xf4, 9, 0, .rw, 0x0, 1, 4, 1, false, 0, 1023⟩
  | .ltxIntForce => ⟨.ltx, 0xf8, 9, 0, .w1s, 0x0, 1, 4, 1, false, 0, 1023⟩
  | .lfrIntStatus => ⟨.lfr, 0xf0, 9, 0, .w1c, 0x0, 1, 4, 1, false, 0, 1023⟩
  | .lfrIntEnable => ⟨.lfr, 0xf4, 9, 0, .rw, 0x0, 1, 4, 1, false, 0, 1023⟩
  | .lfrIntForce => ⟨.lfr, 0xf8, 9, 0, .w1s, 0x0, 1, 4, 1, false, 0, 1023⟩
  | .arcIntStatus => ⟨.arc, 0xf0, 10, 0, .w1c, 0x0, 1, 4, 1, false, 0, 2047⟩
  | .arcIntEnable => ⟨.arc, 0xf4, 10, 0, .rw, 0x0, 1, 4, 1, false, 0, 2047⟩
  | .arcIntForce => ⟨.arc, 0xf8, 10, 0, .w1s, 0x0, 1, 4, 1, false, 0, 2047⟩
  | .arcClIntStatus => ⟨.arcCl, 0xf0, 6, 0, .w1c, 0x0, 1, 4, 1, false, 0, 127⟩
  | .arcClIntEnable => ⟨.arcCl, 0xf4, 6, 0, .rw, 0x0, 1, 4, 1, false, 0, 127⟩
  | .arcClIntForce => ⟨.arcCl, 0xf8, 6, 0, .w1s, 0x0, 1, 4, 1, false, 0, 127⟩
  | .hifIntStatus => ⟨.hif, 0xf0, 9, 0, .w1c, 0x0, 1, 4, 1, false, 0, 1023⟩
  | .hifIntEnable => ⟨.hif, 0xf4, 9, 0, .rw, 0x0, 1, 4, 1, false, 0, 1023⟩
  | .hifIntForce => ⟨.hif, 0xf8, 9, 0, .w1s, 0x0, 1, 4, 1, false, 0, 1023⟩
  | .hifGlbIntStatus => ⟨.hifGlb, 0xf0, 3, 0, .w1c, 0x0, 1, 4, 1, false, 0, 15⟩
  | .hifGlbIntEnable => ⟨.hifGlb, 0xf4, 3, 0, .rw, 0x0, 1, 4, 1, false, 0, 15⟩
  | .hifGlbIntForce => ⟨.hifGlb, 0xf8, 3, 0, .w1s, 0x0, 1, 4, 1, false, 0, 15⟩
  | .timIntStatus => ⟨.tim, 0xf0, 12, 0, .w1c, 0x0, 1, 4, 1, false, 0, 8191⟩
  | .timIntEnable => ⟨.tim, 0xf4, 12, 0, .rw, 0x0, 1, 4, 1, false, 0, 8191⟩
  | .timIntForce => ⟨.tim, 0xf8, 12, 0, .w1s, 0x0, 1, 4, 1, false, 0, 8191⟩
  | .clkIntStatus => ⟨.clk, 0xf0, 12, 0, .w1c, 0x0, 1, 4, 1, false, 0, 8191⟩
  | .clkIntEnable => ⟨.clk, 0xf4, 12, 0, .rw, 0x0, 1, 4, 1, false, 0, 8191⟩
  | .clkIntForce => ⟨.clk, 0xf8, 12, 0, .w1s, 0x0, 1, 4, 1, false, 0, 8191⟩
  | .optLnIntStatus => ⟨.optLn, 0xf0, 6, 0, .w1c, 0x0, 1, 4, 1, false, 0, 127⟩
  | .optLnIntEnable => ⟨.optLn, 0xf4, 6, 0, .rw, 0x0, 1, 4, 1, false, 0, 127⟩
  | .optLnIntForce => ⟨.optLn, 0xf8, 6, 0, .w1s, 0x0, 1, 4, 1, false, 0, 127⟩
  | .optGlbIntStatus => ⟨.optGlb, 0xf0, 4, 0, .w1c, 0x0, 1, 4, 1, false, 0, 31⟩
  | .optGlbIntEnable => ⟨.optGlb, 0xf4, 4, 0, .rw, 0x0, 1, 4, 1, false, 0, 31⟩
  | .optGlbIntForce => ⟨.optGlb, 0xf8, 4, 0, .w1s, 0x0, 1, 4, 1, false, 0, 31⟩
  | .monIntStatus => ⟨.mon, 0xf0, 23, 0, .w1c, 0x0, 1, 4, 1, false, 0, 16777215⟩
  | .monIntEnable => ⟨.mon, 0xf4, 23, 0, .rw, 0x0, 1, 4, 1, false, 0, 16777215⟩
  | .monIntForce => ⟨.mon, 0xf8, 23, 0, .w1s, 0x0, 1, 4, 1, false, 0, 16777215⟩
  | .pwrIntStatus => ⟨.pwr, 0xf0, 10, 0, .w1c, 0x0, 1, 4, 1, false, 0, 2047⟩
  | .pwrIntEnable => ⟨.pwr, 0xf4, 10, 0, .rw, 0x0, 1, 4, 1, false, 0, 2047⟩
  | .pwrIntForce => ⟨.pwr, 0xf8, 10, 0, .w1s, 0x0, 1, 4, 1, false, 0, 2047⟩
  | .thmIntStatus => ⟨.thm, 0xf0, 6, 0, .w1c, 0x0, 1, 4, 1, false, 0, 127⟩
  | .thmIntEnable => ⟨.thm, 0xf4, 6, 0, .rw, 0x0, 1, 4, 1, false, 0, 127⟩
  | .thmIntForce => ⟨.thm, 0xf8, 6, 0, .w1s, 0x0, 1, 4, 1, false, 0, 127⟩
  | .hltIntStatus => ⟨.hlt, 0xf0, 6, 0, .w1c, 0x0, 1, 4, 1, false, 0, 127⟩
  | .hltIntEnable => ⟨.hlt, 0xf4, 6, 0, .rw, 0x0, 1, 4, 1, false, 0, 127⟩
  | .hltIntForce => ⟨.hlt, 0xf8, 6, 0, .w1s, 0x0, 1, 4, 1, false, 0, 127⟩
  | .glbIntStatus => ⟨.glb, 0xf0, 1, 0, .w1c, 0x0, 1, 4, 1, false, 0, 3⟩
  | .glbIntEnable => ⟨.glb, 0xf4, 1, 0, .rw, 0x0, 1, 4, 1, false, 0, 3⟩
  | .glbIntForce => ⟨.glb, 0xf8, 1, 0, .w1s, 0x0, 1, 4, 1, false, 0, 3⟩
  | .mgtIntStatus => ⟨.mgt, 0xf0, 7, 0, .w1c, 0x0, 1, 4, 1, false, 0, 255⟩
  | .mgtIntEnable => ⟨.mgt, 0xf4, 7, 0, .rw, 0x0, 1, 4, 1, false, 0, 255⟩
  | .mgtIntForce => ⟨.mgt, 0xf8, 7, 0, .w1s, 0x0, 1, 4, 1, false, 0, 255⟩
  | .evfIntStatus => ⟨.evf, 0xf0, 3, 0, .w1c, 0x0, 1, 4, 1, false, 0, 15⟩
  | .evfIntEnable => ⟨.evf, 0xf4, 3, 0, .rw, 0x0, 1, 4, 1, false, 0, 15⟩
  | .evfIntForce => ⟨.evf, 0xf8, 3, 0, .w1s, 0x0, 1, 4, 1, false, 0, 15⟩
  | .secIntStatus => ⟨.sec, 0xf0, 5, 0, .w1c, 0x0, 1, 4, 1, false, 0, 63⟩
  | .secIntEnable => ⟨.sec, 0xf4, 5, 0, .rw, 0x0, 1, 4, 1, false, 0, 63⟩
  | .secIntForce => ⟨.sec, 0xf8, 5, 0, .w1s, 0x0, 1, 4, 1, false, 0, 63⟩
  | .glbStageRef => ⟨.glb, 0x0, 63, 0, .hid, 0x0, 1, 4, 1, false, 0, 18446744073709551615⟩
  | .glbSeqStep => ⟨.glb, 0x0, 3, 0, .hid, 0x0, 1, 4, 1, false, 0, 15⟩
  | .glbResetLow => ⟨.glb, 0x0, 0, 0, .hid, 0x0, 1, 4, 1, false, 0, 1⟩
  | .glbBusTrace => ⟨.glb, 0x0, 31, 0, .hid, 0x0, 1, 4, 1, false, 0, 4294967295⟩
  | .pwrDomLane => ⟨.pwr, 0x0, 7, 0, .hid, 0x0, 1, 4, 1, false, 0, 255⟩
  | .pwrDomDecode => ⟨.pwr, 0x0, 7, 0, .hid, 0x0, 1, 4, 1, false, 0, 255⟩
  | .pwrDomHost => ⟨.pwr, 0x0, 3, 0, .hid, 0x0, 1, 4, 1, false, 0, 15⟩
  | .pwrDomXbar => ⟨.pwr, 0x0, 0, 0, .hid, 0x0, 1, 4, 1, false, 0, 1⟩
  | .pwrDomTime => ⟨.pwr, 0x0, 0, 0, .hid, 0x0, 1, 4, 1, false, 0, 1⟩
  | .pwrDomMgmt => ⟨.pwr, 0x0, 0, 0, .hid, 0x0, 1, 4, 1, false, 0, 1⟩
  | .lrxGoodWin => ⟨.lrx, 0x0, 3, 0, .hid, 0x0, 1, 4, 1, false, 0, 15⟩
  | .lrxCapWin => ⟨.lrx, 0x0, 2, 0, .hid, 0x0, 1, 4, 1, false, 0, 7⟩
  | .lrxDropWin => ⟨.lrx, 0x0, 2, 0, .hid, 0x0, 1, 4, 1, false, 0, 7⟩
  | .lrxDropArmed => ⟨.lrx, 0x0, 0, 0, .hid, 0x1, 1, 4, 1, false, 0, 1⟩
  | .lrxCapRestarts => ⟨.lrx, 0x0, 3, 0, .hid, 0x0, 1, 4, 1, false, 0, 15⟩
  | .lrxFrozenCode => ⟨.lrx, 0x0, 7, 0, .hid, 0x30, 1, 4, 1, false, 0, 255⟩
  | .lrxTrimStep => ⟨.lrx, 0x0, 1, 0, .hid, 0x0, 1, 4, 1, false, 0, 3⟩
  | .lrxQuietInt => ⟨.lrx, 0x0, 3, 0, .hid, 0x0, 1, 4, 1, false, 0, 15⟩
  | .lrxTrkGains => ⟨.lrx, 0x0, 0, 0, .hid, 0x0, 1, 4, 1, false, 0, 1⟩
  | .lrxTrkPend => ⟨.lrx, 0x0, 0, 0, .hid, 0x0, 1, 4, 1, false, 0, 1⟩
  | .lrxSliceOfPos => ⟨.lrx, 0x0, 6, 0, .hid, 0x0, 1, 4, 1, false, 0, 127⟩
  | .lrxSliceBad => ⟨.lrx, 0x0, 0, 0, .hid, 0x0, 1, 4, 1, false, 0, 1⟩
  | .lrxSliceOfs => ⟨.lrx, 0x0, 7, 0, .hid, 0x0, 1, 4, 1, false, 0, 255⟩
  | .lrxSliceGain => ⟨.lrx, 0x0, 9, 0, .hid, 0x0, 1, 4, 1, false, 0, 1023⟩
  | .lrxSliceSkew => ⟨.lrx, 0x0, 9, 0, .hid, 0x0, 1, 4, 1, false, 0, 1023⟩
  | .lrxMapValid => ⟨.lrx, 0x0, 0, 0, .hid, 0x0, 1, 4, 1, false, 0, 1⟩
  | .lrxSwapReady => ⟨.lrx, 0x0, 0, 0, .hid, 0x0, 1, 4, 1, false, 0, 1⟩
  | .lrxRestartArm => ⟨.lrx, 0x0, 0, 0, .hid, 0x0, 1, 4, 1, false, 0, 1⟩
  | .lrxHeldOff => ⟨.lrx, 0x0, 0, 0, .hid, 0x0, 1, 4, 1, false, 0, 1⟩
  | .lrxRecValid => ⟨.lrx, 0x0, 0, 0, .hid, 0x0, 1, 4, 1, false, 0, 1⟩
  | .lrxReleased => ⟨.lrx, 0x0, 0, 0, .hid, 0x0, 1, 4, 1, false, 0, 1⟩
  | .lrxProfApply => ⟨.lrx, 0x0, 0, 0, .hid, 0x0, 1, 4, 1, false, 0, 1⟩
  | .lrxWakeRun => ⟨.lrx, 0x0, 0, 0, .hid, 0x0, 1, 4, 1, false, 0, 1⟩
  | .ltxDrvEn => ⟨.ltx, 0x0, 0, 0, .hid, 0x0, 1, 4, 1, false, 0, 1⟩
  | .ltxLsrEn => ⟨.ltx, 0x0, 0, 0, .hid, 0x0, 1, 4, 1, false, 0, 1⟩
  | .ltxMuted => ⟨.ltx, 0x0, 0, 0, .hid, 0x1, 1, 4, 1, false, 0, 1⟩
  | .ltxDacOn => ⟨.ltx, 0x0, 0, 0, .hid, 0x0, 1, 4, 1, false, 0, 1⟩
  | .ltxDacCal => ⟨.ltx, 0x0, 0, 0, .hid, 0x0, 1, 4, 1, false, 0, 1⟩
  | .ltxDacCalRun => ⟨.ltx, 0x0, 1, 0, .hid, 0x0, 1, 4, 1, false, 0, 3⟩
  | .ltxCalWait => ⟨.ltx, 0x0, 0, 0, .hid, 0x0, 1, 4, 1, false, 0, 1⟩
  | .ltxTmoRun => ⟨.ltx, 0x0, 0, 0, .hid, 0x0, 1, 4, 1, false, 0, 1⟩
  | .ltxHoldRun => ⟨.ltx, 0x0, 0, 0, .hid, 0x0, 1, 4, 1, false, 0, 1⟩
  | .ltxDacOffRun => ⟨.ltx, 0x0, 0, 0, .hid, 0x0, 1, 4, 1, false, 0, 1⟩
  | .ltxRestartArm => ⟨.ltx, 0x0, 0, 0, .hid, 0x0, 1, 4, 1, false, 0, 1⟩
  | .ltxHeldOff => ⟨.ltx, 0x0, 0, 0, .hid, 0x0, 1, 4, 1, false, 0, 1⟩
  | .ltxCellOfPos => ⟨.ltx, 0x0, 7, 0, .hid, 0x0, 1, 4, 1, false, 0, 255⟩
  | .ltxCellBad => ⟨.ltx, 0x0, 0, 0, .hid, 0x0, 1, 4, 1, false, 0, 1⟩
  | .ltxCellTrimOf => ⟨.ltx, 0x0, 5, 0, .hid, 0x0, 1, 4, 1, false, 0, 63⟩
  | .ltxOutCell => ⟨.ltx, 0x0, 7, 0, .hid, 0xff, 1, 4, 1, false, 0, 255⟩
  | .ltxCellTrimNew => ⟨.ltx, 0x0, 7, 0, .hid, 0x0, 1, 4, 1, false, 0, 255⟩
  | .ltxIntlvNew => ⟨.ltx, 0x0, 8, 0, .hid, 0x0, 1, 4, 1, false, 0, 511⟩
  | .ltxSwapReady => ⟨.ltx, 0x0, 0, 0, .hid, 0x0, 1, 4, 1, false, 0, 1⟩
  | .ltxPatPend => ⟨.ltx, 0x0, 0, 0, .hid, 0x0, 1, 4, 1, false, 0, 1⟩
  | .ltxWakePend => ⟨.ltx, 0x0, 0, 0, .hid, 0x0, 1, 4, 1, false, 0, 1⟩
  | .ltxWakeRun => ⟨.ltx, 0x0, 0, 0, .hid, 0x0, 1, 4, 1, false, 0, 1⟩
  | .ltxNapWake => ⟨.ltx, 0x0, 0, 0, .hid, 0x0, 1, 4, 1, false, 0, 1⟩
  | .ltxActPend => ⟨.ltx, 0x0, 0, 0, .hid, 0x0, 1, 4, 1, false, 0, 1⟩
  | .pllGated => ⟨.pll, 0x0, 0, 0, .hid, 0x1, 1, 4, 1, false, 0, 1⟩
  | .pllCalRun => ⟨.pll, 0x0, 1, 0, .hid, 0x0, 1, 4, 1, false, 0, 3⟩
  | .pllReqPend => ⟨.pll, 0x0, 0, 0, .hid, 0x0, 1, 4, 1, false, 0, 1⟩
  | .pllQuietWin => ⟨.pll, 0x0, 2, 0, .hid, 0x0, 1, 4, 1, false, 0, 7⟩
  | .pllDeclared => ⟨.pll, 0x0, 0, 0, .hid, 0x0, 1, 4, 1, false, 0, 1⟩
  | .pllNoRelock => ⟨.pll, 0x0, 0, 0, .hid, 0x0, 1, 4, 1, false, 0, 1⟩
  | .clkOutage => ⟨.clk, 0x0, 0, 0, .hid, 0x0, 1, 4, 1, false, 0, 1⟩
  | .hltWinOpen => ⟨.hlt, 0x0, 0, 0, .hid, 0x0, 1, 4, 1, false, 0, 1⟩
  | .hltWinCount => ⟨.hlt, 0x0, 9, 0, .hid, 0x0, 1, 4, 1, false, 0, 1023⟩
  | .hltWinAt => ⟨.hlt, 0x0, 63, 0, .hid, 0x0, 1, 4, 1, false, 0, 18446744073709551615⟩
  | .hltTotal => ⟨.hlt, 0x0, 31, 0, .hid, 0x0, 1, 4, 1, false, 0, 4294967295⟩
  | .optTripped => ⟨.optLn, 0x0, 0, 0, .hid, 0x0, 1, 4, 1, false, 0, 1⟩
  | .optProbeRun => ⟨.optLn, 0x0, 0, 0, .hid, 0x0, 1, 4, 1, false, 0, 1⟩
  | .optPhase => ⟨.optLn, 0x0, 31, 0, .hid, 0x0, 1, 4, 1, false, 0, 4294967295⟩
  | .optRampVal => ⟨.optLn, 0x0, 11, 0, .hid, 0x0, 1, 4, 1, false, 0, 4095⟩
  | .optRampDown => ⟨.optLn, 0x0, 0, 0, .hid, 0x0, 1, 4, 1, false, 0, 1⟩
  | .optBaseWr => ⟨.optLn, 0x0, 0, 0, .hid, 0x0, 1, 4, 1, false, 0, 1⟩
  | .optReleased => ⟨.optLn, 0x0, 0, 0, .hid, 0x0, 1, 4, 1, false, 0, 1⟩
  | .optFault => ⟨.optLn, 0x0, 0, 0, .hid, 0x0, 1, 4, 1, false, 0, 1⟩
  | .evfSeq => ⟨.evf, 0x0, 7, 0, .hid, 0x0, 1, 4, 1, false, 0, 255⟩
  | .timTodNow => ⟨.tim, 0x0, 111, 0, .hid, 0x0, 1, 4, 1, false, 0, 5192296858534827628530496329220095⟩
  | .leqTapLive => ⟨.leq, 0x0, 11, 0, .hid, 0x0, 1, 4, 1, false, 0, 4095⟩
  | .leqTapShadow => ⟨.leq, 0x0, 11, 0, .hid, 0x0, 1, 4, 1, false, 0, 4095⟩
  | .leqTapWritten => ⟨.leq, 0x0, 0, 0, .hid, 0x0, 1, 4, 1, false, 0, 1⟩
  | .leqTapCkpt => ⟨.leq, 0x0, 11, 0, .hid, 0x0, 1, 4, 1, false, 0, 4095⟩
  | .leqTapBlind => ⟨.leq, 0x0, 11, 0, .hid, 0x0, 1, 4, 1, false, 0, 4095⟩
  | .leqTapDelta => ⟨.leq, 0x0, 31, 0, .hid, 0x0, 1, 4, 1, false, 0, 4294967295⟩
  | .leqD1Live => ⟨.leq, 0x0, 8, 0, .hid, 0x0, 1, 4, 1, false, 0, 511⟩
  | .leqD1Ckpt => ⟨.leq, 0x0, 8, 0, .hid, 0x0, 1, 4, 1, false, 0, 511⟩
  | .leqD1Blind => ⟨.leq, 0x0, 8, 0, .hid, 0x0, 1, 4, 1, false, 0, 511⟩
  | .leqD1Delta => ⟨.leq, 0x0, 31, 0, .hid, 0x0, 1, 4, 1, false, 0, 4294967295⟩
  | .leqAdaptPend => ⟨.leq, 0x0, 0, 0, .hid, 0x0, 1, 4, 1, false, 0, 1⟩
  | .leqRestorePend => ⟨.leq, 0x0, 0, 0, .hid, 0x0, 1, 4, 1, false, 0, 1⟩
  | .leqSnapAtLimit => ⟨.leq, 0x0, 0, 0, .hid, 0x0, 1, 4, 1, false, 0, 1⟩
  | .leqConvWin => ⟨.leq, 0x0, 2, 0, .hid, 0x0, 1, 4, 1, false, 0, 7⟩
  | .leqLowWin => ⟨.leq, 0x0, 1, 0, .hid, 0x0, 1, 4, 1, false, 0, 3⟩
  | .leqDivArmed => ⟨.leq, 0x0, 0, 0, .hid, 0x1, 1, 4, 1, false, 0, 1⟩
  | .leqFomLowWin => ⟨.leq, 0x0, 1, 0, .hid, 0x0, 1, 4, 1, false, 0, 3⟩
  | .leqFomHighWin => ⟨.leq, 0x0, 1, 0, .hid, 0x0, 1, 4, 1, false, 0, 3⟩
  | .leqFomArmed => ⟨.leq, 0x0, 0, 0, .hid, 0x1, 1, 4, 1, false, 0, 1⟩
  | .leqThrPend => ⟨.leq, 0x0, 0, 0, .hid, 0x0, 1, 4, 1, false, 0, 1⟩
  | .leqThrNew => ⟨.leq, 0x0, 9, 0, .hid, 0x0, 1, 4, 1, false, 0, 1023⟩
  | .leqHistRun => ⟨.leq, 0x0, 0, 0, .hid, 0x0, 1, 4, 1, false, 0, 1⟩
  | .leqHistSrcRun => ⟨.leq, 0x0, 0, 0, .hid, 0x0, 1, 4, 1, false, 0, 1⟩
  | .leqMlseEnAct => ⟨.leq, 0x0, 0, 0, .hid, 0x0, 1, 4, 1, false, 0, 1⟩
  | .leqMlseT1Act => ⟨.leq, 0x0, 7, 0, .hid, 0x40, 1, 4, 1, false, 0, 255⟩
  | .leqMlseT2Act => ⟨.leq, 0x0, 7, 0, .hid, 0x10, 1, 4, 1, false, 0, 255⟩
  | .leqCkptHas => ⟨.leq, 0x0, 0, 0, .hid, 0x0, 1, 4, 1, false, 0, 1⟩
  | .hifRestartArm => ⟨.hif, 0x0, 0, 0, .hid, 0x0, 1, 4, 1, false, 0, 1⟩
  | .hifRelockRun => ⟨.hif, 0x0, 0, 0, .hid, 0x0, 1, 4, 1, false, 0, 1⟩
  | .hifHeldOff => ⟨.hif, 0x0, 0, 0, .hid, 0x0, 1, 4, 1, false, 0, 1⟩
  | .cmisFlag => ⟨.mgt, 0x0, 0, 0, .hid, 0x0, 1, 4, 1, false, 0, 1⟩
  | .cmisMask => ⟨.mgt, 0x0, 0, 0, .hid, 0x0, 1, 4, 1, false, 0, 1⟩
  | .hifAmTol => ⟨.hifGlb, 0x0, 3, 0, .hid, 0x4, 1, 4, 1, false, 0, 15⟩
  | .hifEhmAdvOff => ⟨.hifGlb, 0x0, 0, 0, .hid, 0x0, 1, 4, 1, false, 0, 1⟩
  | .hifPairRun => ⟨.hifGlb, 0x0, 0, 0, .hid, 0x0, 1, 4, 1, false, 0, 1⟩
  | .hifPairHold => ⟨.hifGlb, 0x0, 0, 0, .hid, 0x0, 1, 4, 1, false, 0, 1⟩
  | .hifTapShadow => ⟨.hif, 0x0, 11, 0, .hid, 0x0, 1, 4, 1, false, 0, 4095⟩
  | .hifTapWritten => ⟨.hif, 0x0, 0, 0, .hid, 0x0, 1, 4, 1, false, 0, 1⟩
  | .hifTrnPhase => ⟨.hif, 0x0, 1, 0, .hid, 0x0, 1, 4, 1, false, 0, 3⟩
  | .hifTrnDone => ⟨.hif, 0x0, 0, 0, .hid, 0x0, 1, 4, 1, false, 0, 1⟩
  | .hifTrnSweepCode => ⟨.hif, 0x0, 4, 0, .hid, 0x0, 1, 4, 1, false, 0, 31⟩
  | .hifTrnSweepFom => ⟨.hif, 0x0, 16, 0, .hid, 0x0, 1, 4, 1, false, 0, 131071⟩
  | .hifTrnReqs => ⟨.hif, 0x0, 7, 0, .hid, 0x0, 1, 4, 1, false, 0, 255⟩
  | .hifTuneTap => ⟨.hif, 0x0, 2, 0, .hid, 0x0, 1, 4, 1, false, 0, 7⟩
  | .hifTuneStage => ⟨.hif, 0x0, 1, 0, .hid, 0x0, 1, 4, 1, false, 0, 3⟩
  | .hifTuneFom => ⟨.hif, 0x0, 15, 0, .hid, 0x0, 1, 4, 1, false, 0, 65535⟩
  | .hifTuneKept => ⟨.hif, 0x0, 0, 0, .hid, 0x0, 1, 4, 1, false, 0, 1⟩
  | .hifLocalReady => ⟨.hif, 0x0, 0, 0, .hid, 0x0, 1, 4, 1, false, 0, 1⟩
  | .hifHostAdv => ⟨.hif, 0x0, 0, 0, .hid, 0x0, 1, 4, 1, false, 0, 1⟩
  | .hifTrnAnswer => ⟨.hif, 0x0, 1, 0, .hid, 0x0, 1, 4, 1, false, 0, 3⟩
  | .hifQuietInt => ⟨.hif, 0x0, 3, 0, .hid, 0x0, 1, 4, 1, false, 0, 15⟩
  | .hifAmMatch => ⟨.hif, 0x0, 1, 0, .hid, 0x0, 1, 4, 1, false, 0, 3⟩
  | .hifAmMiss => ⟨.hif, 0x0, 2, 0, .hid, 0x0, 1, 4, 1, false, 0, 7⟩
  | .hifAmArrival => ⟨.hif, 0x0, 63, 0, .hid, 0x0, 1, 4, 1, false, 0, 18446744073709551615⟩
  | .hifVgaFrozen => ⟨.hif, 0x0, 0, 0, .hid, 0x0, 1, 4, 1, false, 0, 1⟩
  | .lrxNewOfs => ⟨.lrx, 0x0, 7, 0, .hid, 0x0, 1, 4, 1, false, 0, 255⟩
  | .lrxNewGain => ⟨.lrx, 0x0, 9, 0, .hid, 0x0, 1, 4, 1, false, 0, 1023⟩
  | .lrxNewSkew => ⟨.lrx, 0x0, 9, 0, .hid, 0x0, 1, 4, 1, false, 0, 1023⟩
  | .pwrLpmode => ⟨.pwr, 0x0, 0, 0, .hid, 0x0, 1, 4, 1, false, 0, 1⟩
  | .pwrDevPhase => ⟨.pwr, 0x0, 1, 0, .hid, 0x0, 1, 4, 1, false, 0, 3⟩
  | .pwrDevTarget => ⟨.pwr, 0x0, 3, 0, .hid, 0x0, 1, 4, 1, false, 0, 15⟩
  | .pwrDevRetry => ⟨.pwr, 0x0, 3, 0, .hid, 0x0, 1, 4, 1, false, 0, 15⟩
  | .pwrDevRetryArm => ⟨.pwr, 0x0, 0, 0, .hid, 0x0, 1, 4, 1, false, 0, 1⟩
  | .pwrIngRetryArm => ⟨.pwrLn, 0x0, 0, 0, .hid, 0x0, 1, 4, 1, false, 0, 1⟩
  | .pwrEgrRetryArm => ⟨.pwrLn, 0x0, 0, 0, .hid, 0x0, 1, 4, 1, false, 0, 1⟩
  | .pwrIngAsleepAt => ⟨.pwrLn, 0x0, 63, 0, .hid, 0x0, 1, 4, 1, false, 0, 18446744073709551615⟩
  | .pwrEgrAsleepAt => ⟨.pwrLn, 0x0, 63, 0, .hid, 0x0, 1, 4, 1, false, 0, 18446744073709551615⟩
  | .pwrDevAsleepAt => ⟨.pwr, 0x0, 63, 0, .hid, 0x0, 1, 4, 1, false, 0, 18446744073709551615⟩
  | .pwrStagDir => ⟨.pwr, 0x0, 1, 0, .hid, 0x0, 1, 4, 1, false, 0, 3⟩
  | .pwrStagIdx => ⟨.pwr, 0x0, 4, 0, .hid, 0x0, 1, 4, 1, false, 0, 31⟩
  | .pwrWakeTries => ⟨.pwr, 0x0, 2, 0, .hid, 0x0, 1, 4, 1, false, 0, 7⟩
  | .pwrRegOn => ⟨.pwr, 0x0, 0, 0, .hid, 0x0, 1, 4, 1, false, 0, 1⟩
  | .pwrPgood => ⟨.pwr, 0x0, 0, 0, .hid, 0x0, 1, 4, 1, false, 0, 1⟩
  | .pwrSupplyWait => ⟨.pwr, 0x0, 0, 0, .hid, 0x0, 1, 4, 1, false, 0, 1⟩
  | .pwrRegOffWait => ⟨.pwr, 0x0, 0, 0, .hid, 0x0, 1, 4, 1, false, 0, 1⟩
  | .pwrVoutLinear => ⟨.pwr, 0x0, 0, 0, .hid, 0x1, 1, 4, 1, false, 0, 1⟩
  | .pwrDvfsPhase => ⟨.pwr, 0x0, 2, 0, .hid, 0x0, 1, 4, 1, false, 0, 7⟩
  | .pwrVoutTarget => ⟨.pwr, 0x0, 9, 0, .hid, 0x320, 1, 4, 1, false, 0, 1023⟩
  | .pwrVoutPrev => ⟨.pwr, 0x0, 9, 0, .hid, 0x320, 1, 4, 1, false, 0, 1023⟩
  | .pwrDvfsTarget => ⟨.pwr, 0x0, 15, 0, .hid, 0x0, 1, 4, 1, false, 0, 65535⟩
  | .pwrDvfsOld => ⟨.pwr, 0x0, 15, 0, .hid, 0x0, 1, 4, 1, false, 0, 65535⟩
  | .pwrWarnAt => ⟨.pwr, 0x0, 63, 0, .hid, 0x0, 1, 4, 1, false, 0, 18446744073709551615⟩
  | .pwrWarnSeen => ⟨.pwr, 0x0, 6, 0, .hid, 0x0, 1, 4, 1, false, 0, 127⟩
  | .pwrWarnLow => ⟨.pwr, 0x0, 7, 0, .hid, 0xff, 1, 4, 1, false, 0, 255⟩
  | .pwrRecLrx => ⟨.pwrLn, 0x0, 0, 0, .hid, 0x0, 1, 4, 1, false, 0, 1⟩
  | .pwrRecLtx => ⟨.pwrLn, 0x0, 0, 0, .hid, 0x0, 1, 4, 1, false, 0, 1⟩
  | .pwrRecLeq => ⟨.pwrLn, 0x0, 0, 0, .hid, 0x0, 1, 4, 1, false, 0, 1⟩
  | .pwrRecHif => ⟨.pwr, 0x0, 15, 0, .hid, 0x0, 1, 4, 1, false, 0, 65535⟩
  | .pwrStartup => ⟨.pwr, 0x0, 0, 0, .hid, 0x0, 1, 4, 1, false, 0, 1⟩
  | .secNvmBusy => ⟨.sec, 0x0, 2, 0, .hid, 0x0, 1, 4, 1, false, 0, 7⟩
  | .optSaveBusy => ⟨.optGlb, 0x0, 0, 0, .hid, 0x0, 1, 4, 1, false, 0, 1⟩
  | .hifWakeRx => ⟨.hif, 0x0, 0, 0, .hid, 0x0, 1, 4, 1, false, 0, 1⟩
  | .hifWakeTx => ⟨.hif, 0x0, 0, 0, .hid, 0x0, 1, 4, 1, false, 0, 1⟩
  | .lfrGroupMode => ⟨.lfr, 0x0, 1, 0, .hid, 0x0, 1, 4, 1, false, 0, 3⟩
  | .lfrTxSeq => ⟨.lfr, 0x0, 7, 0, .hid, 0x0, 1, 4, 1, false, 0, 255⟩
  | .lfrTxType => ⟨.lfr, 0x0, 7, 0, .hid, 0x0, 1, 4, 1, false, 0, 255⟩
  | .lfrTxLen => ⟨.lfr, 0x0, 7, 0, .hid, 0x0, 1, 4, 1, false, 0, 255⟩
  | .lfrTxBody => ⟨.lfr, 0x0, 159, 0, .hid, 0x0, 1, 4, 1, false, 0, 1461501637330902918203684832716283019655932542975⟩
  | .lfrTxTag => ⟨.lfr, 0x0, 15, 0, .hid, 0x0, 1, 4, 1, false, 0, 65535⟩
  | .lfrRxSeq => ⟨.lfr, 0x0, 7, 0, .hid, 0x0, 1, 4, 1, false, 0, 255⟩
  | .lfrNegTag => ⟨.lfr, 0x0, 15, 0, .hid, 0x0, 1, 4, 1, false, 0, 65535⟩
  | .lfrAttempt => ⟨.lfr, 0x0, 7, 0, .hid, 0x0, 1, 4, 1, false, 0, 255⟩
  | .lfrCand => ⟨.lfr, 0x0, 31, 0, .hid, 0x0, 1, 4, 1, false, 0, 4294967295⟩
  | .lfrConfAcked => ⟨.lfr, 0x0, 0, 0, .hid, 0x0, 1, 4, 1, false, 0, 1⟩
  | .lfrConfGot => ⟨.lfr, 0x0, 0, 0, .hid, 0x0, 1, 4, 1, false, 0, 1⟩
  | .lfrPartConf => ⟨.lfr, 0x0, 31, 0, .hid, 0x0, 1, 4, 1, false, 0, 4294967295⟩
  | .lfrHelloSeen => ⟨.lfr, 0x0, 0, 0, .hid, 0x0, 1, 4, 1, false, 0, 1⟩
  | .lfrLeadOnly => ⟨.lfr, 0x0, 0, 0, .hid, 0x0, 1, 4, 1, false, 0, 1⟩
  | .lfrTxn => ⟨.lfr, 0x0, 7, 0, .hid, 0x0, 1, 4, 1, false, 0, 255⟩
  | .lfrReqOpen => ⟨.lfr, 0x0, 0, 0, .hid, 0x0, 1, 4, 1, false, 0, 1⟩
  | .lfrReqForced => ⟨.lfr, 0x0, 0, 0, .hid, 0x0, 1, 4, 1, false, 0, 1⟩
  | .lfrReqAcc => ⟨.lfr, 0x0, 0, 0, .hid, 0x0, 1, 4, 1, false, 0, 1⟩
  | .lfrReqProf => ⟨.lfr, 0x0, 1, 0, .hid, 0x0, 1, 4, 1, false, 0, 3⟩
  | .lfrReplyWait => ⟨.lfr, 0x0, 0, 0, .hid, 0x0, 1, 4, 1, false, 0, 1⟩
  | .lfrReplyProf => ⟨.lfr, 0x0, 1, 0, .hid, 0x0, 1, 4, 1, false, 0, 3⟩
  | .lfrSwPend => ⟨.lfr, 0x0, 0, 0, .hid, 0x0, 1, 4, 1, false, 0, 1⟩
  | .lfrSwProf => ⟨.lfr, 0x0, 1, 0, .hid, 0x0, 1, 4, 1, false, 0, 3⟩
  | .lfrSwOld => ⟨.lfr, 0x0, 1, 0, .hid, 0x0, 1, 4, 1, false, 0, 3⟩
  | .lfrAwaitRel => ⟨.lfr, 0x0, 0, 0, .hid, 0x0, 1, 4, 1, false, 0, 1⟩
  | .lfrPartProf => ⟨.lfr, 0x0, 1, 0, .hid, 0x0, 1, 4, 1, false, 0, 3⟩
  | .lfrDiscLeft => ⟨.lfr, 0x0, 9, 0, .hid, 0x0, 1, 4, 1, false, 0, 1023⟩
  | .lfrDiscCnt => ⟨.lfr, 0x0, 0, 0, .hid, 0x0, 1, 4, 1, false, 0, 1⟩
  | .lfrBadRun => ⟨.lfr, 0x0, 2, 0, .hid, 0x0, 1, 4, 1, false, 0, 7⟩
  | .lfrH1Pos => ⟨.lfr, 0x0, 19, 0, .hid, 0x0, 1, 4, 1, false, 0, 1048575⟩
  | .lfrShPos => ⟨.lfr, 0x0, 19, 0, .hid, 0x0, 1, 4, 1, false, 0, 1048575⟩
  | .lfrShCount => ⟨.lfr, 0x0, 1, 0, .hid, 0x0, 1, 4, 1, false, 0, 3⟩
  | .lfrCompatTx => ⟨.lfr, 0x0, 0, 0, .hid, 0x0, 1, 4, 1, false, 0, 1⟩
  | .lfrCompatPend => ⟨.lfr, 0x0, 0, 0, .hid, 0x0, 1, 4, 1, false, 0, 1⟩
  | .lfrCompatMute => ⟨.lfr, 0x0, 0, 0, .hid, 0x0, 1, 4, 1, false, 0, 1⟩
  | .lfrSideOn => ⟨.lfr, 0x0, 0, 0, .hid, 0x0, 1, 4, 1, false, 0, 1⟩
  | .lfrOutFrame => ⟨.lfr, 0x0, 1279, 0, .hid, 0x0, 1, 4, 1, false, 0, 20815864389328798163850480654728171077230524494533409610638224700807216119346720596024478883464648369684843227908562015582767132496646929816279813211354641525848259018778440691546366699323167100945918841095379622423387354295096957733925002768876520583464697770622321657076833170056511209332449663781837603694136444406281042053396870977465916057756101739472373801429441421111406337458175⟩
  | .cdbStatus => ⟨.mgt, 0x0, 7, 0, .hid, 0x0, 1, 4, 1, false, 0, 255⟩
  | .cdbReply0 => ⟨.mgt, 0x0, 7, 0, .hid, 0x0, 1, 4, 1, false, 0, 255⟩
  | .cdbTapRun => ⟨.mgt, 0x0, 0, 0, .hid, 0x0, 1, 4, 1, false, 0, 1⟩
  | .cdbTapLane => ⟨.mgt, 0x0, 2, 0, .hid, 0x0, 1, 4, 1, false, 0, 7⟩
  | .imgOpRun => ⟨.img, 0x0, 3, 0, .hid, 0x0, 1, 4, 1, false, 0, 15⟩
  | .imgOpSlot => ⟨.img, 0x0, 1, 0, .hid, 0x0, 1, 4, 1, false, 0, 3⟩
  | .imgOpLead => ⟨.img, 0x0, 2, 0, .hid, 0x0, 1, 4, 1, false, 0, 7⟩
  | .ltxRecValid => ⟨.ltx, 0x0, 0, 0, .hid, 0x0, 1, 4, 1, false, 0, 1⟩
  | .arcEngSt => ⟨.arc, 0x0, 3, 0, .hid, 0x0, 1, 4, 1, false, 0, 15⟩
  | .arcEngBad => ⟨.arc, 0x0, 0, 0, .hid, 0x0, 1, 4, 1, false, 0, 1⟩
  | .arcEngEcc => ⟨.arc, 0x0, 7, 0, .hid, 0x0, 1, 4, 1, false, 0, 255⟩
  | .arcEngEcc2 => ⟨.arc, 0x0, 0, 0, .hid, 0x0, 1, 4, 1, false, 0, 1⟩
  | .arcEngRun => ⟨.arc, 0x0, 1, 0, .hid, 0x0, 1, 4, 1, false, 0, 3⟩
  | .arcTally => ⟨.arcCl, 0x0, 31, 0, .hid, 0x0, 1, 4, 1, false, 0, 4294967295⟩
  | .arcClOut => ⟨.arcCl, 0x0, 3839, 0, .hid, 0x0, 1, 4, 1, false, 0, 9019518416950528558373478086511232658951474842525520401496114928154304263954966638953020103274038169821978036310387105187439981983038679543190552246151273693942430142430214083685203206060500793611640634047888641084801170845605063334103743639179436252101154643375533557849579891726251950146428978850105516362034204960607121369958942503226437204196452448471269253300696978879636095437453409277681885696982308658433120767281076066105051771156066244607221345945266065486445664418226651139092674586681359212098059833861221228710626721320869724746184863955622162546234638825771342548855451709230916475881564603234959416156932444801211659142200921408360597108039135985669806212057156206663539212378905677937882406546561037396635425165843343857133953586158290319569289376437788637610819165094090272546217161805776234786903154610120291328498719159205664801129636695538349715728280593823253491223728898318034697583114552626234434370877814140762055366083260852745620423716424511260012738181745813374647152733067517775871845874530787928515094116349419316639753203075339289947427722432809910728602878067223827332337510877965115796034585470544985654584014864170694475775⟩
  | .lfrRxFrame => ⟨.lfr, 0x0, 15, 0, .hid, 0x0, 1, 4, 1, false, 0, 65535⟩
  | .lfrPcLeft => ⟨.lfr, 0x0, 9, 0, .hid, 0x0, 1, 4, 1, false, 0, 1023⟩
  | .timTodLow => ⟨.tim, 0x0, 23, 0, .hid, 0x0, 1, 4, 1, false, 0, 16777215⟩
  | .timSlewLeft => ⟨.tim, 0x0, 79, 0, .hid, 0x0, 1, 4, 1, false, 0, 1208925819614629174706175⟩
  | .timTodArm => ⟨.tim, 0x0, 0, 0, .hid, 0x0, 1, 4, 1, false, 0, 1⟩
  | .timCapC => ⟨.tim, 0x0, 63, 0, .hid, 0x0, 1, 4, 1, false, 0, 18446744073709551615⟩
  | .timCapT => ⟨.tim, 0x0, 159, 0, .hid, 0x0, 1, 4, 1, false, 0, 1461501637330902918203684832716283019655932542975⟩
  | .timCapNeed => ⟨.tim, 0x0, 1, 0, .hid, 0x2, 1, 4, 1, false, 0, 3⟩
  | .timDFact => ⟨.tim, 0x0, 31, 0, .hid, 0x0, 1, 4, 1, false, 0, 4294967295⟩
  | .timDUse => ⟨.tim, 0x0, 31, 0, .hid, 0x0, 1, 4, 1, false, 0, 4294967295⟩
  | .timDNew => ⟨.tim, 0x0, 31, 0, .hid, 0x0, 1, 4, 1, false, 0, 4294967295⟩
  | .timDPend => ⟨.tim, 0x0, 0, 0, .hid, 0x0, 1, 4, 1, false, 0, 1⟩
  | .timAna => ⟨.tim, 0x0, 15, 0, .hid, 0x0, 1, 4, 1, false, 0, 65535⟩
  | .timDriftSeen => ⟨.timLn, 0x0, 0, 0, .hid, 0x0, 1, 4, 1, false, 0, 1⟩
  | .timDriftWait => ⟨.timLn, 0x0, 0, 0, .hid, 0x0, 1, 4, 1, false, 0, 1⟩
  | .timTsfLost => ⟨.tim, 0x0, 0, 0, .hid, 0x0, 1, 4, 1, false, 0, 1⟩
  | .timTsfTick => ⟨.tim, 0x0, 16, 0, .hid, 0x0, 1, 4, 1, false, 0, 131071⟩
  | .timLnStale => ⟨.timLn, 0x0, 0, 0, .hid, 0x0, 1, 4, 1, false, 0, 1⟩
  | .timLnV1Arr => ⟨.timLn, 0x0, 111, 0, .hid, 0x0, 1, 4, 1, false, 0, 5192296858534827628530496329220095⟩
  | .timLnDepPrev => ⟨.timLn, 0x0, 111, 0, .hid, 0x0, 1, 4, 1, false, 0, 5192296858534827628530496329220095⟩
  | .timLnRegion => ⟨.timLn, 0x0, 383, 0, .hid, 0x0, 1, 4, 1, false, 0, 39402006196394479212279040100143613805079739270465446667948293404245721771497210611414266254884915640806627990306815⟩
  | .timDpllDue => ⟨.tim, 0x0, 0, 0, .hid, 0x0, 1, 4, 1, false, 0, 1⟩
  | .timDpllErr => ⟨.tim, 0x0, 119, 0, .hid, 0x0, 1, 4, 1, false, 0, 1329227995784915872903807060280344575⟩
  | .timDpllRun => ⟨.tim, 0x0, 3, 0, .hid, 0x0, 1, 4, 1, false, 0, 15⟩
  | .timDpllMiss => ⟨.tim, 0x0, 1, 0, .hid, 0x0, 1, 4, 1, false, 0, 3⟩
  | .timInHas => ⟨.tim, 0x0, 0, 0, .hid, 0x0, 1, 4, 1, false, 0, 1⟩
  | .timInLast => ⟨.tim, 0x0, 111, 0, .hid, 0x0, 1, 4, 1, false, 0, 5192296858534827628530496329220095⟩
  | .timOutStart => ⟨.tim, 0x0, 111, 0, .hid, 0x0, 1, 4, 1, false, 0, 5192296858534827628530496329220095⟩
  | .timOutWide => ⟨.tim, 0x0, 19, 0, .hid, 0x0, 1, 4, 1, false, 0, 1048575⟩
  | .pllBandHeld => ⟨.pll, 0x0, 6, 0, .hid, 0x0, 1, 4, 1, false, 0, 127⟩
  | .clkCountOk => ⟨.clk, 0x0, 0, 0, .hid, 0x0, 1, 4, 1, false, 0, 1⟩
  | .optGoodTicks => ⟨.optLn, 0x0, 9, 0, .hid, 0x3e8, 1, 4, 1, false, 0, 1023⟩
  | .optRangeOld => ⟨.optLn, 0x0, 1, 0, .hid, 0x3, 1, 4, 1, false, 0, 3⟩
  | .optDownTicks => ⟨.optLn, 0x0, 15, 0, .hid, 0x0, 1, 4, 1, false, 0, 65535⟩
  | .optOffAt => ⟨.optLn, 0x0, 63, 0, .hid, 0x0, 1, 4, 1, false, 0, 18446744073709551615⟩
  | .monEventAt => ⟨.monCh, 0x0, 63, 0, .hid, 0x0, 1, 4, 1, false, 0, 18446744073709551615⟩
  | .monXfK => ⟨.monCh, 0x0, 6, 0, .hid, 0x0, 1, 4, 1, false, 0, 127⟩
  | .thmRailBroken => ⟨.thm, 0x0, 0, 0, .hid, 0x0, 1, 4, 1, false, 0, 1⟩
  | .thmDiodeSeen => ⟨.thm, 0x0, 0, 0, .hid, 0x0, 1, 4, 1, false, 0, 1⟩
  | .thmLvlCnt => ⟨.thm, 0x0, 1, 0, .hid, 0x0, 1, 4, 1, false, 0, 3⟩
  | .thmLvlOn => ⟨.thm, 0x0, 0, 0, .hid, 0x0, 1, 4, 1, false, 0, 1⟩
  | .thmCritWait => ⟨.thm, 0x0, 0, 0, .hid, 0x0, 1, 4, 1, false, 0, 1⟩
  | .thmStepWait => ⟨.thm, 0x0, 0, 0, .hid, 0x0, 1, 4, 1, false, 0, 1⟩
  | .hltAdcDue => ⟨.hltLn, 0x0, 0, 0, .hid, 0x0, 1, 4, 1, false, 0, 1⟩
  | .hltDacDue => ⟨.hltLn, 0x0, 0, 0, .hid, 0x0, 1, 4, 1, false, 0, 1⟩
  | .secSecretIn => ⟨.sec, 0x0, 0, 0, .hid, 0x0, 1, 4, 1, false, 0, 1⟩
  | .secKsBoot => ⟨.sec, 0x0, 0, 0, .hid, 0x0, 1, 4, 1, false, 0, 1⟩
  | .secKeyPoint => ⟨.sec, 0x0, 767, 0, .hid, 0x0, 1, 4, 1, false, 0, 1552518092300708935148979488462502555256886017116696611139052038026050952686376886330878408828646477950487730697131073206171580044114814391444287275041181139204454976020849905550265285631598444825262999193716468750892846853816057855⟩
  | .secOpRun => ⟨.sec, 0x0, 3, 0, .hid, 0x0, 1, 4, 1, false, 0, 15⟩
  | .secArgRun => ⟨.sec, 0x0, 3, 0, .hid, 0x0, 1, 4, 1, false, 0, 15⟩
  | .secFlagsRun => ⟨.sec, 0x0, 2, 0, .hid, 0x0, 1, 4, 1, false, 0, 7⟩
  | .secPhase => ⟨.sec, 0x0, 1, 0, .hid, 0x0, 1, 4, 1, false, 0, 3⟩
  | .secLcCopy => ⟨.sec, 0x0, 1, 0, .hid, 0x0, 1, 4, 1, false, 0, 3⟩
  | .secSecretClosed => ⟨.sec, 0x0, 0, 0, .hid, 0x0, 1, 4, 1, false, 0, 1⟩
  | .secDevice => ⟨.sec, 0x0, 255, 0, .hid, 0x0, 1, 4, 1, false, 0, 115792089237316195423570985008687907853269984665640564039457584007913129639935⟩
  | .secPassword => ⟨.sec, 0x0, 383, 0, .hid, 0x0, 1, 4, 1, false, 0, 39402006196394479212279040100143613805079739270465446667948293404245721771497210611414266254884915640806627990306815⟩
  | .secPwSet => ⟨.sec, 0x0, 0, 0, .hid, 0x0, 1, 4, 1, false, 0, 1⟩
  | .cdbPwOk => ⟨.mgt, 0x0, 0, 0, .hid, 0x0, 1, 4, 1, false, 0, 1⟩
  | .cdbPwReq => ⟨.mgt, 0x0, 0, 0, .hid, 0x0, 1, 4, 1, false, 0, 1⟩
  | .cdbNewPw => ⟨.mgt, 0x0, 31, 0, .hid, 0x0, 1, 4, 1, false, 0, 4294967295⟩
  | .evfFormatNew => ⟨.evf, 0x0, 0, 0, .hid, 0x0, 1, 4, 1, false, 0, 1⟩
  | .mbxLeft => ⟨.mgt, 0x0, 9, 0, .hid, 0x0, 1, 4, 1, false, 0, 1023⟩
  | .mbxDiscard => ⟨.mgt, 0x0, 10, 0, .hid, 0x0, 1, 4, 1, false, 0, 2047⟩
  | .mbxDiscardAll => ⟨.mgt, 0x0, 0, 0, .hid, 0x0, 1, 4, 1, false, 0, 1⟩
  | .mgtFwDown => ⟨.mgt, 0x0, 0, 0, .hid, 0x0, 1, 4, 1, false, 0, 1⟩
  | .mgtFwCore => ⟨.mgt, 0x0, 1, 0, .hid, 0x0, 1, 4, 1, false, 0, 3⟩
  | .mgtFwMissAt => ⟨.mgt, 0x0, 63, 0, .hid, 0x0, 1, 4, 1, false, 0, 18446744073709551615⟩
  | .mgtFwMissed => ⟨.mgt, 0x0, 0, 0, .hid, 0x0, 1, 4, 1, false, 0, 1⟩
  | .imgDetRaw => ⟨.img, 0x0, 23, 0, .hid, 0x0, 1, 4, 1, false, 0, 16777215⟩
  | .imgPcLanes => ⟨.img, 0x0, 7, 0, .hid, 0x0, 1, 4, 1, false, 0, 255⟩
  | .imgPcIso => ⟨.img, 0x0, 0, 0, .hid, 0x0, 1, 4, 1, false, 0, 1⟩
  | .imgPcP => ⟨.img, 0x0, 7, 0, .hid, 0x0, 1, 4, 1, false, 0, 255⟩
  | .imgPcPEnd => ⟨.img, 0x0, 7, 0, .hid, 0x0, 1, 4, 1, false, 0, 255⟩
  | .imgPcQ => ⟨.img, 0x0, 7, 0, .hid, 0x0, 1, 4, 1, false, 0, 255⟩
  | .imgPcQEnd => ⟨.img, 0x0, 7, 0, .hid, 0x0, 1, 4, 1, false, 0, 255⟩
  | .imgPcWritten => ⟨.img, 0x0, 0, 0, .hid, 0x0, 1, 4, 1, false, 0, 1⟩
  | .imgBootPref => ⟨.img, 0x0, 0, 0, .hid, 0x0, 1, 4, 1, false, 0, 1⟩
  | .imgBootSecond => ⟨.img, 0x0, 0, 0, .hid, 0x0, 1, 4, 1, false, 0, 1⟩
  | .imgBootErr => ⟨.img, 0x0, 7, 0, .hid, 0x0, 1, 4, 1, false, 0, 255⟩
  | .flashRecSlot => ⟨.img, 0x0, 0, 0, .hid, 0x0, 1, 4, 1, false, 0, 1⟩
  | .flashRecSeq => ⟨.img, 0x0, 31, 0, .hid, 0x0, 1, 4, 1, false, 0, 4294967295⟩
  | .flashRecCrc => ⟨.img, 0x0, 31, 0, .hid, 0x0, 1, 4, 1, false, 0, 4294967295⟩
  | .cdbImg => ⟨.mgt, 0x0, 0, 0, .hid, 0x0, 1, 4, 1, false, 0, 1⟩
  | .cdbFlash => ⟨.mgt, 0x0, 0, 0, .hid, 0x0, 1, 4, 1, false, 0, 1⟩
  | .imgPcOldExt => ⟨.img, 0x0, 7, 0, .hid, 0x0, 1, 4, 1, false, 0, 255⟩
  | .pwrRecImgSlot => ⟨.pwr, 0x0, 0, 0, .hid, 0x0, 1, 4, 1, false, 0, 1⟩
  | .cmisDpDeinit => ⟨.mgt, 0x0, 7, 0, .hid, 0x0, 1, 4, 1, false, 0, 255⟩
  | .imgRestart => ⟨.img, 0x0, 0, 0, .hid, 0x0, 1, 4, 1, false, 0, 1⟩
  | .infoBad => ⟨.mgt, 0x0, 0, 0, .hid, 0x0, 1, 4, 1, false, 0, 1⟩
  | .pwrSeriesFail => ⟨.pwr, 0x0, 0, 0, .hid, 0x0, 1, 4, 1, false, 0, 1⟩
  | .hbPage => ⟨.mgt, 0x0, 7, 0, .hid, 0x0, 1, 4, 1, false, 0, 255⟩
  | .hbBank => ⟨.mgt, 0x0, 7, 0, .hid, 0x0, 1, 4, 1, false, 0, 255⟩
  | .hbDyn => ⟨.mgt, 0x0, 6, 0, .hid, 0x0, 1, 4, 1, false, 0, 127⟩
  | .hbMwl => ⟨.mgt, 0x0, 15, 0, .hid, 0x80, 1, 4, 1, false, 0, 65535⟩
  | .hbMrl => ⟨.mgt, 0x0, 15, 0, .hid, 0x100, 1, 4, 1, false, 0, 65535⟩
  | .cdbDlOpen => ⟨.mgt, 0x0, 0, 0, .hid, 0x0, 1, 4, 1, false, 0, 1⟩
  | .cdbDlSlot => ⟨.mgt, 0x0, 0, 0, .hid, 0x0, 1, 4, 1, false, 0, 1⟩
  | .imgSlotBad => ⟨.img, 0x0, 0, 0, .hid, 0x0, 1, 4, 1, false, 0, 1⟩
  | .lrxCdrInt => ⟨.lrx, 0x0, 63, 0, .hid, 0x0, 1, 4, 1, false, 0, 18446744073709551615⟩
  | .lrxCdrAcc => ⟨.lrx, 0x0, 55, 0, .hid, 0x0, 1, 4, 1, false, 0, 72057594037927935⟩
  | .ltxPatNew => ⟨.ltx, 0x0, 2, 0, .hid, 0x0, 1, 4, 1, false, 0, 7⟩
  | .ltxMaskSum => ⟨.ltx, 0x0, 191, 0, .hid, 0x0, 1, 4, 1, false, 0, 6277101735386680763835789423207666416102355444464034512895⟩
  | .ltxMaskCnt => ⟨.ltx, 0x0, 12, 0, .hid, 0x0, 1, 4, 1, false, 0, 8191⟩
  | .ltxTrimNew => ⟨.ltx, 0x0, 5, 0, .hid, 0x0, 1, 4, 1, false, 0, 63⟩
  | .ltxWakeN => ⟨.ltx, 0x0, 7, 0, .hid, 0x0, 1, 4, 1, false, 0, 255⟩
  | .hifCdrInt => ⟨.hif, 0x0, 63, 0, .hid, 0x0, 1, 4, 1, false, 0, 18446744073709551615⟩
  | .hifVga => ⟨.hif, 0x0, 7, 0, .hid, 0x30, 1, 4, 1, false, 0, 255⟩
  | .hifIngMatch => ⟨.hifGlb, 0x0, 1, 0, .hid, 0x0, 1, 4, 1, false, 0, 3⟩
  | .hifIngMiss => ⟨.hifGlb, 0x0, 2, 0, .hid, 0x0, 1, 4, 1, false, 0, 7⟩
  | .hifIngPos => ⟨.hifGlb, 0x0, 4, 0, .hid, 0x0, 1, 4, 1, false, 0, 31⟩
  | .ltxPatFrames => ⟨.ltx, 0x0, 31, 0, .hid, 0x0, 1, 4, 1, false, 0, 4294967295⟩
  | .ltxWakeFrames => ⟨.ltx, 0x0, 7, 0, .hid, 0x0, 1, 4, 1, false, 0, 255⟩
  | .lfrIcrisUse => ⟨.lfr, 0x0, 1, 0, .hid, 0x0, 1, 4, 1, false, 0, 3⟩
  | .lfrPrecRxUse => ⟨.lfr, 0x0, 0, 0, .hid, 0x0, 1, 4, 1, false, 0, 1⟩
  | .lfrResPend => ⟨.lfr, 0x0, 0, 0, .hid, 0x0, 1, 4, 1, false, 0, 1⟩
  | .lfrArrBase => ⟨.lfr, 0x0, 23, 0, .hid, 0x0, 1, 4, 1, false, 0, 16777215⟩
  | .lfrGapOn => ⟨.lfr, 0x0, 0, 0, .hid, 0x0, 1, 4, 1, false, 0, 1⟩
  | .lfrSideFrame => ⟨.lfr, 0x0, 255, 0, .hid, 0x0, 1, 4, 1, false, 0, 115792089237316195423570985008687907853269984665640564039457584007913129639935⟩
  | .lfrSideAt => ⟨.lfr, 0x0, 63, 0, .hid, 0x0, 1, 4, 1, false, 0, 18446744073709551615⟩
  | .lfrUiBase => ⟨.lfr, 0x0, 23, 0, .hid, 0x0, 1, 4, 1, false, 0, 16777215⟩
  | .lfrUnits => ⟨.lfr, 0x0, 11, 0, .hid, 0x0, 1, 4, 1, false, 0, 4095⟩
  | .clkAtcHeld => ⟨.clk, 0x0, 31, 0, .hid, 0x0, 1, 4, 1, false, 0, 4294967295⟩
  | .clkAtcAt => ⟨.clk, 0x0, 63, 0, .hid, 0x0, 1, 4, 1, false, 0, 18446744073709551615⟩
  | .lrxFaultWait => ⟨.lrx, 0x0, 3, 0, .hid, 0x0, 1, 4, 1, false, 0, 15⟩
  | .timTodPend => ⟨.tim, 0x0, 0, 0, .hid, 0x0, 1, 4, 1, false, 0, 1⟩
  | .timJump => ⟨.tim, 0x0, 159, 0, .hid, 0x0, 1, 4, 1, false, 0, 1461501637330902918203684832716283019655932542975⟩
  | .timJumpOld => ⟨.tim, 0x0, 159, 0, .hid, 0x0, 1, 4, 1, false, 0, 1461501637330902918203684832716283019655932542975⟩
  | .timJumpAt => ⟨.tim, 0x0, 159, 0, .hid, 0x0, 1, 4, 1, false, 0, 1461501637330902918203684832716283019655932542975⟩
  | .timLinNew => ⟨.tim, 0x0, 1023, 0, .hid, 0x0, 1, 4, 1, false, 0, 179769313486231590772930519078902473361797697894230657273430081157732675805500963132708477322407536021120113879871393357658789768814416622492847430639474124377767893424865485276302219601246094119453082952085005768838150682342462881473913110540827237163350510684586298239947245938479716304835356329624224137215⟩
  | .timLinUse => ⟨.tim, 0x0, 1023, 0, .hid, 0x0, 1, 4, 1, false, 0, 179769313486231590772930519078902473361797697894230657273430081157732675805500963132708477322407536021120113879871393357658789768814416622492847430639474124377767893424865485276302219601246094119453082952085005768838150682342462881473913110540827237163350510684586298239947245938479716304835356329624224137215⟩
  | .timLnRxFresh => ⟨.timLn, 0x0, 0, 0, .hid, 0x0, 1, 4, 1, false, 0, 1⟩
  | .timLnTxFresh => ⟨.timLn, 0x0, 0, 0, .hid, 0x0, 1, 4, 1, false, 0, 1⟩
  | .timLnSusRx => ⟨.timLn, 0x0, 0, 0, .hid, 0x0, 1, 4, 1, false, 0, 1⟩
  | .timLnSusTx => ⟨.timLn, 0x0, 0, 0, .hid, 0x0, 1, 4, 1, false, 0, 1⟩
  | .timLnV1Fresh => ⟨.timLn, 0x0, 0, 0, .hid, 0x0, 1, 4, 1, false, 0, 1⟩
  | .pwrRecTjLrx => ⟨.pwrLn, 0x0, 15, 0, .hid, 0x0, 1, 4, 1, false, 0, 65535⟩
  | .pwrRecTjLtx => ⟨.pwrLn, 0x0, 15, 0, .hid, 0x0, 1, 4, 1, false, 0, 65535⟩
  | .pllReqServed => ⟨.pll, 0x0, 0, 0, .hid, 0x0, 1, 4, 1, false, 0, 1⟩
  | .pwrVddIoMv => ⟨.pwr, 0x0, 11, 0, .hid, 0x708, 1, 4, 1, false, 0, 4095⟩
  | .imgSlotNew => ⟨.img, 0x0, 1, 0, .hid, 0x0, 1, 4, 1, false, 0, 3⟩
  | .imgCandNew => ⟨.img, 0x0, 0, 0, .hid, 0x0, 1, 4, 1, false, 0, 1⟩
  | .ltxShapeSet => ⟨.ltx, 0x0, 0, 0, .hid, 0x0, 1, 4, 1, false, 0, 1⟩
  | .hifTrnAsk => ⟨.hif, 0x0, 1, 0, .hid, 0x0, 1, 4, 1, false, 0, 3⟩
  | .hifTrnAskArg => ⟨.hif, 0x0, 3, 0, .hid, 0x0, 1, 4, 1, false, 0, 15⟩
  | .hifSweepMax => ⟨.hif, 0x0, 4, 0, .hid, 0x0, 1, 4, 1, false, 0, 31⟩
  | .hifSweepMan => ⟨.hif, 0x0, 0, 0, .hid, 0x0, 1, 4, 1, false, 0, 1⟩
  | .hifLossAt => ⟨.hif, 0x0, 63, 0, .hid, 0x0, 1, 4, 1, false, 0, 18446744073709551615⟩
  | .timLnSyncAge => ⟨.timLn, 0x0, 23, 0, .hid, 0x0, 1, 4, 1, false, 0, 16777215⟩
  | .timLnSelOn => ⟨.timLn, 0x0, 0, 0, .hid, 0x0, 1, 4, 1, false, 0, 1⟩
  | .timLnSelAt => ⟨.timLn, 0x0, 159, 0, .hid, 0x0, 1, 4, 1, false, 0, 1461501637330902918203684832716283019655932542975⟩
  | .timLnDepSus => ⟨.timLn, 0x0, 0, 0, .hid, 0x0, 1, 4, 1, false, 0, 1⟩
  | .timLnV1Sus => ⟨.timLn, 0x0, 0, 0, .hid, 0x0, 1, 4, 1, false, 0, 1⟩
  | .timLnDiscRx => ⟨.timLn, 0x0, 0, 0, .hid, 0x0, 1, 4, 1, false, 0, 1⟩
  | .timLnDiscTx => ⟨.timLn, 0x0, 0, 0, .hid, 0x0, 1, 4, 1, false, 0, 1⟩
  | .timLnDiscV1 => ⟨.timLn, 0x0, 0, 0, .hid, 0x0, 1, 4, 1, false, 0, 1⟩
  | .pwrWakePend => ⟨.pwr, 0x0, 2, 0, .hid, 0x0, 1, 4, 1, false, 0, 7⟩
  | .pwrDevGiveup => ⟨.pwr, 0x0, 0, 0, .hid, 0x0, 1, 4, 1, false, 0, 1⟩
  | .pwrVoutHeld => ⟨.pwr, 0x0, 9, 0, .hid, 0x0, 1, 4, 1, false, 0, 1023⟩
  | .pwrVoutRate => ⟨.pwr, 0x0, 7, 0, .hid, 0x0, 1, 4, 1, false, 0, 255⟩
  | .ltxFifoPhase => ⟨.ltx, 0x0, 7, 0, .hid, 0x0, 1, 4, 1, false, 0, 255⟩
  | .hifFifoPhase => ⟨.hif, 0x0, 7, 0, .hid, 0x0, 1, 4, 1, false, 0, 255⟩
  | .thmNode0 => ⟨.thm, 0x0, 39, 0, .hid, 0x0, 1, 4, 1, false, 0, 1099511627775⟩
  | .thmNode1 => ⟨.thm, 0x0, 39, 0, .hid, 0x0, 1, 4, 1, false, 0, 1099511627775⟩
  | .thmNode2 => ⟨.thm, 0x0, 39, 0, .hid, 0x0, 1, 4, 1, false, 0, 1099511627775⟩
  | .thmNode3 => ⟨.thm, 0x0, 39, 0, .hid, 0x0, 1, 4, 1, false, 0, 1099511627775⟩
  | .thmCase => ⟨.thm, 0x0, 39, 0, .hid, 0x0, 1, 4, 1, false, 0, 1099511627775⟩
  | .thmRailOff => ⟨.thm, 0x0, 9, 0, .hid, 0x0, 1, 4, 1, false, 0, 1023⟩
  | .secSecretHad => ⟨.sec, 0x0, 0, 0, .hid, 0x0, 1, 4, 1, false, 0, 1⟩
  | .secKeysBad => ⟨.sec, 0x0, 0, 0, .hid, 0x0, 1, 4, 1, false, 0, 1⟩

/-- Width of a field in bits. -/
def Field.width (f : Field) : Nat := f.desc.hi + 1 - f.desc.lo

/-- Default window, threshold and action of each fault source (R411). -/
def sourceDefault : Nat → Nat × Nat × Nat
  | 0 => (1000000, 4, 2)
  | 1 => (1000000, 4, 2)
  | 2 => (1000, 1000, 1)
  | 3 => (10000000, 4, 2)
  | 4 => (1000000, 4, 2)
  | 5 => (10000, 16, 1)
  | 6 => (100000, 64, 1)
  | 7 => (10000000, 8, 1)
  | 8 => (10000000, 3, 2)
  | 9 => (10000000, 4, 2)
  | 10 => (100000, 2, 2)
  | 11 => (1000000, 3, 2)
  | 12 => (100000, 3, 2)
  | 13 => (100000, 3, 2)
  | 14 => (1000000, 3, 1)
  | _ => (1000000, 8, 1)

/-- FIR taps h(0) to h(8) and LUT_EN of the line transmit presets (R189). -/
def ltxPresetTap (preset i : Nat) : Nat :=
  match preset, i with
  | 1, 1 => 0xF80 | 1, 2 => 0x2C0 | 1, 3 => 0xF40
  | 2, 2 => 0x3C0 | 2, 3 => 0xFC0
  | 0, 1 => 0xFC0 | 0, 2 => 0x340 | 0, 3 => 0xF80
  | 3, 1 => 0xFC0 | 3, 2 => 0x340 | 3, 3 => 0xF80
  | _, _ => 0

/-- Reset value of element `i` of a field: the register table's value, by element where the table
gives one (R95, R124, R158, R168, R189, R283, R356, R411). -/
def Field.resetAt (f : Field) (i : Nat) : Nat :=
  match f with
  | .leqTapLive => if i = 10 then 0x600 else 0
  | .leqTapCoef => if i = 10 then 0x600 else 0
  | .ltxFirTap => ltxPresetTap 0 i
  | .hifTxTap => if i = 3 then 0x380 else if i = 2 ∨ i = 4 then 0xFC0 else 0
  | .monChCoefOdd => if i = 7 then 0x7FFF else 0
  | .hltWinUs => (sourceDefault i).1
  | .hltThresh => (sourceDefault i).2.1
  | .hltAction => (sourceDefault i).2.2
  | .lrxSliceOfPos => i % 2 ^ 7
  | .ltxCellOfPos => i % 2 ^ 8
  | .ltxOutCell => if i < 8 then 127 + i else 255
  | .optLnMonCh => 31
  | .optLnMonMax => 4095
  | .optGlbOnMaxUs => 2000
  | .optGlbOffMinMs => 1000
  | f => f.desc.reset

/-- Addressed fields, part 0. -/
def Field.part0 : List Field :=
  [.glbPart, .glbGrade, .glbStepMajor, .glbStepMinor, .glbAonRun, .glbMgmtRun, .glbTimeRun, .glbXbarRun, .glbHostRun, .glbDecodeRun, .glbLaneRun, .glbStraitClr, .glbStraitLastId, .glbStraitOvfCount, .imgCmdGo, .imgCmdGroupLead, .imgCmdSlot, .imgCmdOp, .imgCandidateValid, .imgCandidateSlot, .imgErrLane, .imgErrSection, .imgErr, .imgState, .imgDetPool, .imgDetWhich, .imgDetProfile, .imgDetMid, .imgDetRequired, .imgDetConfigured, .imgActiveFmtMinor, .imgActiveFmtMajor, .imgActiveFallback, .imgActiveSlot, .imgActiveSeq, .imgCandSeq, .imgActiveBuild, .imgPcClr, .imgPcLastGroup, .imgPcCount, .imgPcDiscard, .imgPcLastResume, .imgSkipped, .lrxCommit, .lrxRestart, .lrxCntClr, .lrxWakePatEn, .lrxWakeSdEn, .lrxAutoRestart, .lrxServiceEn, .lrxEnable, .lrxFaultCause, .lrxRetry, .lrxSleep, .lrxSd, .lrxAgcState, .lrxCdrLock, .lrxAcqPhase, .lrxState, .lrxOverride]

/-- Addressed fields, part 1. -/
def Field.part1 : List Field :=
  [.lrxPreset, .lrxVgaManEn, .lrxVgaManCode, .lrxCtlePeak, .lrxTrimRange, .lrxTrimEn, .lrxAgcSh, .lrxAgcTarget, .lrxVgaCode, .lrxTrim, .lrxLevel, .lrxSvcCaptureDb, .lrxCaptureDb, .lrxOfsLimit, .lrxOfsCode, .lrxOfsBw, .lrxHyst, .lrxSdThresh, .lrxCdrHold, .lrxKiShTrk, .lrxKpShTrk, .lrxKiShAcq, .lrxKpShAcq, .lrxCdrFreq, .lrxCdrPhase, .lrxCdrTmoUs, .lrxAgcTmoUs, .lrxFrameTmoUs, .lrxFfeTmoUs, .lrxRetryMax, .lrxFaultHoldUs, .lrxCalTmoUs, .lrxTrainTmoUs, .lrxSwapDeferred, .lrxCalActive, .lrxNoSpare, .lrxAdcFailed, .lrxAdcTarget, .lrxAdcSpare, .lrxSlicePos, .lrxSliceSel, .lrxSliceState, .lrxSkew, .lrxGain, .lrxOffset, .lrxOvrCnt, .lrxCaptureSvcCnt, .lrxCdrLolCnt, .lrxSdLossCnt, .lrxAcqRetryCnt, .lrxAcqCaptureCnt, .lrxWarmFailCnt, .lrxLevelDropCnt, .leqCommit, .leqCoefSnap, .leqCntClr, .leqHistStart, .leqAdaptEn, .leqCkptValid, .leqHoldCause]

/-- Addressed fields, part 2. -/
def Field.part2 : List Field :=
  [.leqMlsePending, .leqMlseActive, .leqBlindConv, .leqMode, .leqOverride, .leqPreset, .leqUpdSh, .leqMuShDfe, .leqMuShDd, .leqMuShBlind, .leqDfeEn, .leqDfeMax, .leqAtLimit, .leqD1, .leqMlseEn, .leqMlseT2, .leqMlseT1, .leqLlrAuto, .leqB3, .leqB2, .leqB1, .leqThrT3, .leqThrActT3, .leqThrT2, .leqThrActT2, .leqThrT1, .leqThrActT1, .leqEyeQ, .leqFomWin, .leqBlindFom, .leqFomLockEspresso, .leqFomLockRistretto, .leqFomLockCompat, .leqFomLockLungo, .leqFomValid, .leqFom, .leqMse, .leqStartMain, .leqLevelSigma, .leqLevelMean, .leqEyeWorst, .leqEyeMin, .leqHistDone, .leqHistSrc, .leqHistLen, .leqDivergeCnt, .leqFomLowCnt, .leqDfeBurstCnt, .leqTapFreeze, .leqTapCoef, .leqHist, .ltxCommit, .ltxCntClr, .ltxRestart, .ltxWakeSend, .ltxAutoRestart, .ltxTxEn, .ltxFaultCause, .ltxHoldReason, .ltxSleep]

/-- Addressed fields, part 3. -/
def Field.part3 : List Field :=
  [.ltxTxenPending, .ltxState, .ltxOverride, .ltxPreset, .ltxLsrSettleUs, .ltxDrvSettleUs, .ltxTxenTmoUs, .ltxFaultHoldUs, .ltxDrvHoldUs, .ltxPrecodeAct, .ltxPolInv, .ltxWakeBursts, .ltxPatLevel, .ltxPatSel, .ltxLutEn, .ltxSwapDeferred, .ltxCalActive, .ltxNoSpare, .ltxFailedCnt, .ltxDacTarget, .ltxNextIn, .ltxCellPos, .ltxCellSel, .ltxCellState, .ltxCellTrim, .ltxIntlvSkew, .ltxMaskEn, .ltxMaskAct, .ltxMaskAvg, .ltxMaskSh, .ltxMaskValid, .ltxMaskViol, .ltxMaskWorstBin, .ltxMaskWorstExcess, .ltxClipCnt, .ltxMaskViolCnt, .ltxFaultCnt, .ltxDrvFltCnt, .ltxWakeSent, .ltxFirTap, .ltxLut3, .ltxLut2, .ltxLut1, .ltxLut0, .ltxMaskLimOdd, .ltxMaskBinOdd, .ltxMaskLimEven, .ltxMaskBinEven, .lfrCntClr, .lfrReneg, .lfrTapAccept, .lfrDjPrecode, .lfrCompatEn, .lfrNativeEn, .lfrNegState, .lfrNegErr, .lfrNoRate, .lfrGroupWait, .lfrDiscRate, .lfrFillRx]

/-- Addressed fields, part 4. -/
def Field.part4 : List Field :=
  [.lfrFillTx, .lfrShadowValid, .lfrFrameLock, .lfrResVer, .lfrResMode, .lfrResProfile, .lfrResIcris, .lfrResPrecodeTx, .lfrResPrecodeRx, .lfrResPartner, .lfrPartnerPage, .lfrProfChange, .lfrProfAsym, .lfrProfActive, .lfrProfStatus, .lfrProfSide, .lfrProfBusyRefused, .lfrProfReq, .lfrMarkGood, .lfrMarkCand, .lfrH1Valid, .lfrH1Count, .lfrH1Match, .lfrH2Match, .lfrNegRetryMax, .lfrNegTmoUs, .lfrHelloTmoUs, .lfrFrameRx, .lfrFrameTx, .lfrMarkBadCnt, .lfrLolCnt, .lfrFrameSlipCnt, .lfrRenegRxCnt, .lfrSvcCorrCnt, .lfrSvcFailCnt, .lfrSvcCrcCnt, .lfrFillRxCnt, .lfrMsgUnknownCnt, .lfrPcDiscardCnt, .arcCntClr, .arcStealEn, .arcThermalNosteal, .arcThreshStep, .arcAtc, .arcPoolFailed, .arcPoolOut, .arcPoolIn, .arcEngFailedMap, .arcEngBistMap, .arcEngSel, .arcEngState, .arcEngLane, .arcEngIndex, .arcEngIter, .arcEngReserve, .arcEngHeld, .arcEngEcc1, .arcIntCluster, .arcClCntClr, .arcClIterLimitL]

/-- Addressed fields, part 5. -/
def Field.part5 : List Field :=
  [.arcClIterLimitE, .arcClMag3, .arcClMag2, .arcClMag1, .arcClMag0, .arcClThreshEff, .arcClStealThresh, .arcClReachCcw, .arcClReachCw, .arcClPoint, .arcClThermal, .arcClIsolated, .arcClHomeLow, .arcClQFull, .arcClQHwm, .arcClQDepth, .arcClBusy, .arcClRefreshMs, .arcClHistMs, .arcClAgeMax, .arcClPending, .arcClPreempt, .arcClStarveBlocked, .arcClHoldUi, .arcClReleaseBuf, .arcClHomeQ, .arcClDecodedCnt, .arcClUncorrCnt, .arcClExpRunCnt, .arcClExpQCnt, .arcClStolenOutCnt, .arcClStolenInCnt, .arcClRaceLostCnt, .arcClRbMissCnt, .arcClRbLateCnt, .arcClCorrBitsCnt, .arcClIterSumCnt, .arcClHist, .hifCommit, .hifCntClr, .hifRetrain, .hifSlipCmd, .hifSlipDir, .hifSlipBits, .hifAlignDone, .hifRxPolInv, .hifTxPolInv, .hifAutoRestart, .hifEnable, .hifFaultCause, .hifSleepTx, .hifSleepRx, .hifRate, .hifTrnRetry, .hifAmLock, .hifCdrLock, .hifRxReady, .hifTxReady, .hifState, .hifOverride]

/-- Addressed fields, part 6. -/
def Field.part6 : List Field :=
  [.hifPreset, .hifAdaptEn, .hifFomWin, .hifDfeEn, .hifCtleMax, .hifCtleMin, .hifCtleManEn, .hifCtleManCode, .hifRxValid, .hifRxCtle, .hifRxFom, .hifDfeD2, .hifDfeD1, .hifKiSh, .hifKpSh, .hifRelockUs, .hifCdrFreq, .hifTrnEn, .hifTrnMaxReq, .hifTrnRetryMax, .hifAlignTmoUs, .hifInitPreset, .hifFomReady, .hifTxTap, .hifSlipLimit, .hifSlipPos, .hifAlignWord, .hifAlignMask, .hifTxPat, .hifRxChk, .hifChkLock, .hifCdrLolCnt, .hifAmLolCnt, .hifTrnFailCnt, .hifAlignHitsCnt, .hifPrbsErrCnt, .hifWarmFailCnt, .hifGlbCntClr, .hifGlbEhmEn, .hifGlbEhmTrnTmoMs, .hifGlbEhmState, .hifGlbEhmFbCount, .hifGlbMapGbMode, .hifGlbMapBValid, .hifGlbMapHostB, .hifGlbMapHostA, .hifGlbPairReady, .hifGlbPairDeskewOvr, .hifGlbPairAmLockIng, .hifGlbPairSkew, .hifGlbPairHits, .hifGlbRsCwTotalLo, .hifGlbRsCwTotalHi, .hifGlbRsCwCorr, .hifGlbRsCwUncorr, .hifGlbRsSymErr, .hifGlbRsMonSkew, .hifGlbRsMonLock, .hifGlbIntLane, .timCntClr]

/-- Addressed fields, part 7. -/
def Field.part7 : List Field :=
  [.timRngEn, .timTsEn, .timTsInvalid, .timSlewing, .timDriftValid, .timCalValid, .timSuspect, .timTodValid, .timTod, .timTodSet, .timTodGo, .timSlewPpm, .timTodOp, .timAdjNs, .timAdjFrac, .timFreq, .timDpllLockNs, .timDpllStepEn, .timDpllBw, .timDpllLinkLane, .timDpllSrc, .timDpllBwAct, .timDpllBwClamped, .timDpllState, .timDpllPhasePs, .timInEn, .timInEdge, .timInPeriodMs, .timOutEn, .timOutPol, .timOutPeriodMs, .timOutWidthUs, .timInOfsPs, .timOutOfsPs, .timInTs, .timTsfNotValid, .timTsfKind, .timTsfIndex, .timTsfLostBefore, .timTsfSuspect, .timTsfTs, .timTsfFrame, .timTsfFlush, .timTsfDecim, .timTsfKinds, .timTsfLanes, .timTsfLevel, .timLambda0, .timAsymTolNs, .timS0, .timRngAvail, .timRngCheckFail, .timRngSet, .timRngLenTxM, .timRngLenRxM, .timRngAsymEstNs, .timRngResNs, .timTsLostCnt, .timInGlitchCnt, .timTsSuspectCnt]

/-- Addressed fields, part 8. -/
def Field.part8 : List Field :=
  [.timTsfOvfCnt, .timTodStepsCnt, .timLnCntClr, .timLnRestartAvg, .timLnRejectPs, .timLnExchEn, .timLnRateExp, .timLnAvgSh, .timLnPeriodShort, .timLnRatioValid, .timLnRangeMember, .timLnSuspect, .timLnResultValid, .timLnVer, .timLnXstate, .timLnOptTx, .timLnOptRx, .timLnAsymPs, .timLnDlyTxNs, .timLnDlyTxFrac, .timLnDlyRxNs, .timLnDlyRxFrac, .timLnOffsetNs, .timLnOffsetFrac, .timLnRatio, .timLnIngLat, .timLnEgrLat, .timLnEgrSkew, .timLnLedProfile, .timLnLedFlags, .timLnLrxAfe, .timLnHtxDrv, .timLnHrxAfe, .timLnLtxDrv, .timLnWl, .timLnSkewTx, .timLnSkewRx, .timLnExchOkCnt, .timLnExchMissCnt, .timLnExchRejectCnt, .timLnExchSuspectCnt, .timLnRegionLateCnt, .timLnTsLrx, .timLnTsLtx, .timLnRxFrame, .timLnTxFrame, .timHostTsHrx, .timHostTsHtx, .timHostSuspect, .timHostHtxActive, .timHostHrxActive, .clkCntClr, .clkForceB, .clkCalReq, .clkAutoRelock, .clkRefHoldUs, .clkRefBack, .clkRefOk, .clkRefBad, .clkRefLost]

/-- Addressed fields, part 9. -/
def Field.part9 : List Field :=
  [.clkBackup, .clkXbarSrc, .clkRefGlitchCnt, .clkRefLossCnt, .clkRgStoppedCnt, .pllLockErrPpm, .pllBand, .pllCalPend, .pllLock, .pllState, .pllLolCnt, .pllCalCnt, .pllCalTime, .optLnCntClr, .optLnUpdCyc, .optLnSineAct, .optLnProbe, .optLnOffTime, .optLnClamp, .optLnModLimited, .optLnOpen, .optLnCompliance, .optLnRamp, .optLnBiasReady, .optOutRampStep, .optOutTable, .optOutSrc, .optOutRange, .optOutAmp, .optOutBase, .optOutFstep, .optOutRangeAct, .optOutCode, .optLnPuEn, .optLnPuRange, .optLnPuValue, .optLnMaxBias, .optLnIdleBiasMax, .optLnMonMax, .optLnMonCh, .optLnMaxModSwing, .optLnTripCause, .optLnOffRemainMs, .optLnTripCnt, .optLnEnvClampCnt, .optLnComplianceCnt, .optLnOpenCnt, .optGlbEnvSave, .optGlbTblHold, .optGlbLaneMask, .optGlbOffMinMs, .optGlbOnMaxUs, .optGlbSavePending, .optGlbNvmBad, .optGlbLocked, .optGlbPuDone, .optGlbIntLane, .pbSpeed, .pbGo, .pbRead]

/-- Addressed fields, part 10. -/
def Field.part10 : List Field :=
  [.pbLen, .pbAddr, .pbReg, .pbData, .pbBusy, .pbResult, .pbProtValid, .pbProtAddr, .pbProtReg, .pbProtMax, .monCntClr, .monEn, .monChStepThr, .monChAssoc, .monChGain, .monChFirDec, .monChFirEn, .monChHb, .monChCicR, .monChValid, .monChSeq, .monChData, .monChSwap, .monChBank, .monChXfade, .monChCoefOdd, .monChCoefEven, .optTblOdd, .optTblEven, .pwrCntClr, .pwrDeep, .pwrStandbySw, .pwrLpmodeEn, .pwrWarnRails, .pwrDvfsBusy, .pwrWarn, .pwrRetFail, .pwrRetValid, .pwrDevState, .pwrWakeEn, .pwrWakeHeld, .pwrWakeFrom, .pwrWakeSource, .pwrWakeObject, .pwrWakeSleptTicks, .pwrWakeTimerMs, .pwrRefLate, .pwrRefTarget, .pwrRefObject, .pwrRefVoter, .pwrRefInstance, .pwrRefReason, .pwrRetryUs, .pwrRetryMax, .pwrVoteTmoUs, .pwrIslandGapUs, .pwrDvfsMode, .pwrDvfsReq, .pwrVoutMv, .pwrVoutActMv]

/-- Addressed fields, part 11. -/
def Field.part11 : List Field :=
  [.pwrDvfsStBusy, .pwrDvfsErr, .pwrDvfsPoint, .pwrDvfsTmoUs, .pwrPecEn, .pwrSpeed, .pwrPmAddr, .pwrResetRail, .pwrResetCause, .pwrDeepWakeMs, .pwrWarnCnt, .pwrRefusalCnt, .pwrWakeFailCnt, .pwrLnEgrBudgetUs, .pwrLnIngBudgetUs, .pwrLnIngSleep, .pwrLnEgrSleep, .pwrLnLinkWake, .pwrLnTrimPoint, .pwrLnTrimWakeQ, .pwrLnTrimDwellUs, .pwrLnIngGiveup, .pwrLnEgrGiveup, .pwrLnIngRetry, .pwrLnEgrRetry, .pwrLnLrxPstate, .pwrLnLtxPstate, .pwrLnTrim, .pwrLnIngPhase, .pwrLnEgrPhase, .thmCntClr, .thmCritClr, .thmRestore, .thmCritAuto, .thmAutoRestore, .thmHystC, .thmCritC, .thmThrC, .thmWarnC, .thmStepMs, .thmGraceMs, .thmResumeC, .thmRecoverMs, .thmCalSh, .thmSensorFailC, .thmHotT, .thmHotIsland, .thmCritLatch, .thmThrottleReq, .thmWarn, .thmState, .thmIslandSensorFail, .thmIslandPowerMw, .thmIslandTemp, .thmDiodeBroken, .thmDiodeResid, .thmDiodeTemp, .thmLnOrigProfile, .thmLnProfileSteps, .thmLnDvfsSteps]

/-- Addressed fields, part 12. -/
def Field.part12 : List Field :=
  [.thmLnShutdown, .thmAonDir, .thmAonWakeC, .thmThrottleCnt, .thmCritCnt, .thmStepCnt, .thmSensorFailCnt, .hltCntClr, .hltBgBistEn, .hltAgeWinMs, .hltStarveLimit, .hltBistGo, .hltBistPreempt, .hltBistKind, .hltBistUnit, .hltBistState, .hltBistResult, .hltBistIslandSlots, .hltBistEngines, .hltBistRefused, .hltBistPeriph, .hltBgPeriodS, .hltBootMask, .hltBistWaitMs, .hltSvcPreemptHost, .hltSvcPreemptLine, .hltFailXbar, .hltFailMonAdc, .hltFailEnvelope, .hltFailKeystore, .hltFailHost, .hltFailCtrlDac, .hltFailLane, .hltRunCnt, .hltFailCnt, .hltAbortCnt, .hltUntestedCnt, .hltDacIntervalUs, .hltAdcIntervalUs, .hltDacBgEn, .hltAdcBgEn, .hltCalMaxLanes, .hltEscCnt, .hltSelSource, .hltSelInstance, .hltInstOpen, .hltInstLasting, .hltInstCount, .hltInstElapsedUs, .hltInstTotal, .hltWinUs, .hltAction, .hltThresh, .hltSrcLasting, .hltLnRxCnt, .hltLnTxCnt, .hltLnRxTime, .hltLnTxTime, .hltLnEscAdc, .hltLnDacAge]

/-- Addressed fields, part 13. -/
def Field.part13 : List Field :=
  [.hltLnAdcAge, .glbIntTop, .glbIntLane, .mgtCntClr, .mgtModMonMcPresent, .mgtWdogMs, .mgtFwHalt, .mgtRomFw, .mgtFwVersion, .mgtI3cMode, .mgtHbAddr, .mgtMcNotify, .mgtMcPageValid, .mgtMcPageBank, .mgtMcPagePage, .mgtInAbort, .mgtMbxTmoUs, .mgtMbxSize, .mgtMbxInData, .mgtMbxInResult, .mgtMbxOpen, .mgtMbxFree, .mgtMbxOutData, .mgtMbxAvail, .mgtRefusedCnt, .mgtFwRestartCnt, .evfData, .evfFormat, .evfDeferEn, .evfFlush, .evfHwm, .evfLwm, .evfFull, .evfOverrun, .evfXoff, .evfFmtPending, .evfLevel, .evfWptr, .evfRptr, .evfDroppedCnt, .evfDeferredCnt, .secNonceValid, .secNvmErr, .secKsFail, .secScanOpen, .secDebugOpen, .secRollbackErr, .secLcErr, .secLcState, .secCmdGo, .secCmdFlags, .secCmdArg, .secCmdOp, .secBusy, .secPendingNvm, .secResult, .secUid, .secNonce, .secKeyIndex, .secTokenR]

/-- Addressed fields, part 14. -/
def Field.part14 : List Field :=
  [.secTokenS, .secKeyData, .secKeyFlags, .secKeyState, .secRollbackFloor, .secRollbackNew, .glbBootFailStage, .glbBootFallback, .glbBootStage, .glbActiveUs, .glbCommitUs, .imgIntStatus, .imgIntEnable, .imgIntForce, .lrxIntStatus, .lrxIntEnable, .lrxIntForce, .leqIntStatus, .leqIntEnable, .leqIntForce, .ltxIntStatus, .ltxIntEnable, .ltxIntForce, .lfrIntStatus, .lfrIntEnable, .lfrIntForce, .arcIntStatus, .arcIntEnable, .arcIntForce, .arcClIntStatus, .arcClIntEnable, .arcClIntForce, .hifIntStatus, .hifIntEnable, .hifIntForce, .hifGlbIntStatus, .hifGlbIntEnable, .hifGlbIntForce, .timIntStatus, .timIntEnable, .timIntForce, .clkIntStatus, .clkIntEnable, .clkIntForce, .optLnIntStatus, .optLnIntEnable, .optLnIntForce, .optGlbIntStatus, .optGlbIntEnable, .optGlbIntForce, .monIntStatus, .monIntEnable, .monIntForce, .pwrIntStatus, .pwrIntEnable, .pwrIntForce, .thmIntStatus, .thmIntEnable, .thmIntForce, .hltIntStatus]

/-- Addressed fields, part 15. -/
def Field.part15 : List Field :=
  [.hltIntEnable, .hltIntForce, .glbIntStatus, .glbIntEnable, .glbIntForce, .mgtIntStatus, .mgtIntEnable, .mgtIntForce, .evfIntStatus, .evfIntEnable, .evfIntForce, .secIntStatus, .secIntEnable, .secIntForce]

/-- Every field with an address. -/
def Field.addressed : List Field :=
  Field.part0 ++ Field.part1 ++ Field.part2 ++ Field.part3 ++ Field.part4 ++ Field.part5 ++ Field.part6 ++ Field.part7 ++ Field.part8 ++ Field.part9 ++ Field.part10 ++ Field.part11 ++ Field.part12 ++ Field.part13 ++ Field.part14 ++ Field.part15

/-! Bit positions in the interrupt status registers (R27). -/
namespace Irq
abbrev imgSkippedSection : Nat := 6
abbrev imgNoImage : Nat := 5
abbrev imgBootFallback : Nat := 4
abbrev imgPcFail : Nat := 3
abbrev imgPcDone : Nat := 2
abbrev imgCmdFail : Nat := 1
abbrev imgCmdDone : Nat := 0
abbrev lrxLevelDrop : Nat := 10
abbrev lrxOfsLimit : Nat := 9
abbrev lrxTrimLimit : Nat := 8
abbrev lrxSliceFail : Nat := 7
abbrev lrxWakePat : Nat := 6
abbrev lrxSdAssert : Nat := 5
abbrev lrxSdLoss : Nat := 4
abbrev lrxCdrLol : Nat := 3
abbrev lrxCapture : Nat := 2
abbrev lrxFault : Nat := 1
abbrev lrxStateChg : Nat := 0
abbrev leqCommitHeld : Nat := 6
abbrev leqMlseApplied : Nat := 5
abbrev leqHistDone : Nat := 4
abbrev leqDfeLimit : Nat := 3
abbrev leqDiverge : Nat := 2
abbrev leqFomLow : Nat := 1
abbrev leqBlindConv : Nat := 0
abbrev ltxWakeDone : Nat := 9
abbrev ltxCommitHeld : Nat := 8
abbrev ltxClip : Nat := 7
abbrev ltxMaskViol : Nat := 6
abbrev ltxCellFail : Nat := 5
abbrev ltxDrvFlt : Nat := 4
abbrev ltxTxenPending : Nat := 3
abbrev ltxTxActive : Nat := 2
abbrev ltxFault : Nat := 1
abbrev ltxStateChg : Nat := 0
abbrev lfrSvcFail : Nat := 9
abbrev lfrFillRx : Nat := 8
abbrev lfrReneg : Nat := 7
abbrev lfrProfileFail : Nat := 6
abbrev lfrProfileDone : Nat := 5
abbrev lfrNegFail : Nat := 4
abbrev lfrNegDone : Nat := 3
abbrev lfrFrameSlip : Nat := 2
abbrev lfrFrameLol : Nat := 1
abbrev lfrFrameLock : Nat := 0
abbrev arcHomeLow : Nat := 10
abbrev arcEngFail : Nat := 9
abbrev arcEccDouble : Nat := 8
abbrev arcClQFull : Nat := 6
abbrev arcClStarveBlocked : Nat := 5
abbrev arcClRbLate : Nat := 4
abbrev arcClRbMiss : Nat := 3
abbrev arcClExpQ : Nat := 2
abbrev arcClExpRun : Nat := 1
abbrev arcClUncorr : Nat := 0
abbrev hifCommitHeld : Nat := 9
abbrev hifTrnFail : Nat := 8
abbrev hifSlipIgnored : Nat := 7
abbrev hifSlipLimit : Nat := 6
abbrev hifTxReady : Nat := 5
abbrev hifRxReady : Nat := 4
abbrev hifAmLol : Nat := 3
abbrev hifCdrLol : Nat := 2
abbrev hifFault : Nat := 1
abbrev hifStateChg : Nat := 0
abbrev hifGlbMonSkew : Nat := 3
abbrev hifGlbDeskewOvr : Nat := 2
abbrev hifGlbEhmFallback : Nat := 1
abbrev hifGlbEhmActive : Nat := 0
abbrev timLedgerInvalid : Nat := 12
abbrev timExchStale : Nat := 11
abbrev timSuspect : Nat := 10
abbrev timRngCheckFail : Nat := 9
abbrev timTsfOvf : Nat := 8
abbrev timTsfHalf : Nat := 7
abbrev timTsLost : Nat := 6
abbrev timInMiss : Nat := 5
abbrev timDpllHoldover : Nat := 4
abbrev timDpllLock : Nat := 3
abbrev timAdjRefused : Nat := 2
abbrev timSetFail : Nat := 1
abbrev timTodDone : Nat := 0
abbrev clkCalDone : Nat := 8
abbrev clkPllLol : Nat := 3
abbrev clkRefOk : Nat := 2
abbrev clkRefGlitch : Nat := 1
abbrev clkRefLost : Nat := 0
abbrev optLnRangeClamp : Nat := 6
abbrev optLnModLimited : Nat := 5
abbrev optLnBiasReady : Nat := 4
abbrev optLnOpen : Nat := 3
abbrev optLnCompliance : Nat := 2
abbrev optLnEnvClamp : Nat := 1
abbrev optLnTrip : Nat := 0
abbrev optGlbTblWrIgnored : Nat := 4
abbrev optGlbSaveDone : Nat := 3
abbrev optGlbNvmBad : Nat := 2
abbrev optGlbPbErr : Nat := 1
abbrev optGlbPbDone : Nat := 0
abbrev monValidRise : Nat := 0
abbrev pwrDeepRefused : Nat := 10
abbrev pwrRetFail : Nat := 9
abbrev pwrPmAlert : Nat := 8
abbrev pwrPwrErrPmbus : Nat := 7
abbrev pwrPwrErrOrder : Nat := 6
abbrev pwrWarnEnd : Nat := 5
abbrev pwrWarn : Nat := 4
abbrev pwrGiveup : Nat := 3
abbrev pwrRefusal : Nat := 2
abbrev pwrWakeFail : Nat := 1
abbrev pwrWake : Nat := 0
abbrev thmCritCleared : Nat := 6
abbrev thmCritical : Nat := 5
abbrev thmSensorFail : Nat := 4
abbrev thmRestore : Nat := 3
abbrev thmStep : Nat := 2
abbrev thmThrottleReq : Nat := 1
abbrev thmWarn : Nat := 0
abbrev hltStarve : Nat := 6
abbrev hltCalEscalate : Nat := 5
abbrev hltBistAbort : Nat := 4
abbrev hltBistFail : Nat := 3
abbrev hltBistDone : Nat := 2
abbrev hltBootBistDone : Nat := 1
abbrev hltLasting : Nat := 0
abbrev glbStraitOvf : Nat := 1
abbrev glbBusErr : Nat := 0
abbrev mgtFwHalt : Nat := 7
abbrev mgtFwRestart : Nat := 6
abbrev mgtSpiErr : Nat := 5
abbrev mgtMcWrite : Nat := 4
abbrev mgtMbxBusy : Nat := 3
abbrev mgtOutAvail : Nat := 2
abbrev mgtInRefused : Nat := 1
abbrev mgtCmis : Nat := 0
abbrev evfDropped : Nat := 3
abbrev evfOverrun : Nat := 2
abbrev evfXoff : Nat := 1
abbrev evfNotEmpty : Nat := 0
abbrev secNvmErr : Nat := 5
abbrev secTokenFail : Nat := 4
abbrev secUnlock : Nat := 3
abbrev secLcChange : Nat := 2
abbrev secCmdFail : Nat := 1
abbrev secCmdDone : Nat := 0
end Irq

end Sys2Proof.Machine
end

