-- ==== Sys2Proof/Machine/State.lean ====
section
/-!
DEFINITION. The state of the SLX-3208: every register field and named internal variable in one canonical store, the
values in use of the shadowed fields, the NVM contents, the queues and buffers, and the commands that wait.
-/
namespace Sys2Proof.Machine

/-- One place of the field store: field `f` of instance `n` (lane, host lane, PLL, channel, cluster), element `i` of
an array. -/
structure Key where
  f : Field
  n : Nat
  i : Nat
deriving DecidableEq, Repr

/-- Order of keys: by field, then instance, then element. -/
def Key.lt (a b : Key) : Bool :=
  if a.f.ctorIdx = b.f.ctorIdx then
    if a.n = b.n then decide (a.i < b.i) else decide (a.n < b.n)
  else decide (a.f.ctorIdx < b.f.ctorIdx)

/-- The value of a place that the store does not list: the reset value. -/
def Key.default (k : Key) : Nat := k.f.resetAt k.i

/-- Field values, listed only where they differ from the reset value, in rising key order. -/
abbrev Store := List (Key × Nat)

/-- The value at a place. -/
def Store.get (m : Store) (k : Key) : Nat :=
  match m.find? (fun e => e.1 = k) with
  | some e => e.2
  | none => k.default

/-- Put an entry before the first one with a greater key. -/
def Store.insert (k : Key) (v : Nat) : Store → Store
  | [] => [(k, v)]
  | e :: m => if e.1.lt k then e :: Store.insert k v m else (k, v) :: e :: m

/-- Write a place: the value is cut to the field's width, and a reset value is not listed. -/
def Store.set (m : Store) (k : Key) (v : Nat) : Store :=
  let w := v % 2 ^ k.f.width
  let rest := m.filter (fun e => e.1 ≠ k)
  if w = k.default then rest else Store.insert k w rest

/-- Put the places that a test picks back to their reset values. -/
def Store.resetWhere (m : Store) (p : Key → Bool) : Store := m.filter (fun e => !p e.1)

/-- Bytes by address, the form in which byte memories are kept: addresses strictly rising, no zero listed (log entry 8). -/
abbrev Memory := List Host.Cell

/-- Why a command stops for good: nothing in the spec stops the block, so no constructor is needed
(the type is empty; every command answers with a state). -/
inductive Fault where
deriving DecidableEq, Repr

/-- Why a command has no meaning here. -/
inductive Refusal where
  /-- Raised by an arm of `exec` whose command is not modelled yet; safe, because nothing can be proved of it. -/
  | notModelled (mnemonic : String)
deriving DecidableEq, Repr

/-- Who asked for a self-test; tests start in this order (R417). -/
inductive TestOrigin where
  | boot | software | background
deriving DecidableEq, Repr

/-- Where a self-test stands (R415 to R418). -/
inductive TestPhase where
  | pending | running | reinit
deriving DecidableEq, Repr

/-- A self-test that is requested, runs or re-initialises its unit (R415). -/
structure BistTest where
  kind : Nat
  unit : Nat
  origin : TestOrigin
  phase : TestPhase
  preempt : Bool
deriving DecidableEq, Repr

/-- A service request that waits for a unit under test (R423). -/
inductive SvcReq where
  | lrxEnable (n : Nat) | txEnable (n : Nat) | lrxRestart (n : Nat) | ltxRestart (n : Nat) | reneg (n : Nat)
  | profileChange (n : Nat) | lrxCommit (n : Nat) | leqCommit (n : Nat) | ltxCommit (n : Nat)
  | hifEnable (h : Nat) | hifRetrain (h : Nat) | hifCommit (h : Nat) | sleep (n : Nat) (egress : Bool)
deriving DecidableEq, Repr

/-- A voter: its code in PWR_LAST_REFUSAL and its instance (R377, R393). -/
structure Voter where
  block : Nat
  inst : Nat
deriving DecidableEq, Repr

/-- A block's step of the COMMIT phase: the voter, whether it is the egress side of a host or line lane, and the state
it takes (R378). -/
structure SleepStep where
  voter : Voter
  egress : Bool
  target : Nat
deriving DecidableEq, Repr

/-- A transition in COMMIT: object (line lane, or 8 the device), direction, state sought, the blocks still to commit
in order, and the committed ones, latest first (R378, R379). -/
structure Vote where
  obj : Nat
  egress : Bool
  target : Nat
  todo : List SleepStep
  done : List SleepStep
deriving DecidableEq, Repr

/-- A service-channel message that waits to be sent: lane, TYPE, LEN, BODY with the first byte lowest, and what it
belongs to (R203). -/
structure SvcMsg where
  lane : Nat
  type : Nat
  len : Nat
  body : Nat
  tag : Nat
deriving DecidableEq, Repr

/-- A codeword in the archipelago: its descriptor, with ARRIVAL and DEADLINE in line UI modulo 2^24, and its 12,288 bits of
LLR codes (R148, R220, R226). -/
structure Codeword where
  lane : Nat
  profile : Nat
  frame : Nat
  index : Nat
  arrival : Nat
  deadline : Nat
  llrMap : Nat
  iterLimit : Nat
  llr : Nat
deriving DecidableEq, Repr

/-- Where an engine's decode stands (R220, R222). -/
inductive EngStage where
  | receive | load | iterate | waitPort | emit
deriving DecidableEq, Repr

/-- The codeword an engine holds with its posterior and check-message memories: the links its transfer reserved in the
order of the path, the time of the grant in 1/16 UI modulo 2^28, and the longest receiving cycle in 1/144 UI (R220,
R222, R235). -/
structure EngWork where
  eng : Nat
  cw : Codeword
  stage : EngStage
  iter : Nat
  links : List Nat
  grantAt : Nat
  cycle : Nat
  dec : Decoding
deriving DecidableEq, Repr

/-- A request for a cluster's S-DX port, by an engine, or by the bypass, the compatibility decoder or an expiry
(engine 128): the payload it emits and the words already written (R222, R224, R229). -/
structure Emission where
  cluster : Nat
  bypass : Bool
  eng : Nat
  cw : Codeword
  data : Nat
  sent : Nat
deriving DecidableEq, Repr

/-- A word in a strait: the strait's ID, the lane, frame, codeword and place of the word that its tag names, and its bits
(R36, R37). -/
structure StraitWord where
  strait : Nat
  lane : Nat
  frame : Nat
  index : Nat
  word : Nat
  data : Nat
deriving DecidableEq, Repr

/-- A codeword the release buffer of a lane awaits or holds: the lane's UI count at which it is released, the words written so
far and their bits (R48, R237). -/
structure RelSlot where
  lane : Nat
  frame : Nat
  index : Nat
  profile : Nat
  due : Nat
  words : Nat
  data : Nat
deriving DecidableEq, Repr

/-- A background task of a cluster: kind 0 self-test of an engine, 1 refresh of an engine, 2 histogram gathering; its
age, whether it has reached the limit, once it runs or preempts the engine that serves it and the reserve engine held to
decoding, and whether that engine runs it (R245, R246). -/
structure BgTask where
  cluster : Nat
  kind : Nat
  eng : Nat
  age : Nat
  starved : Bool
  server : Option Nat
  hold : Option Nat
  run : Bool
deriving DecidableEq, Repr

/-- An entry of the timestamp FIFO: kind 0 LRX, 1 LTX, 2 HRX, 3 HTX, 4 TIME_IN; time in 2^-16 ns (R292, R318). -/
structure TsfEntry where
  kind : Nat
  index : Nat
  lost : Bool
  suspect : Bool
  time : Nat
  frame : Nat
deriving DecidableEq, Repr

/-- An initiation in flight: its departure, once known, and whether it is suspect or a discontinuity lies after it
(R301, R303). -/
structure Initiation where
  seq : Nat
  dep : Option Nat
  suspect : Bool
  disc : Bool
deriving DecidableEq, Repr

/-- A partner initiation that waits for its echo (R301). -/
structure EchoDue where
  seq : Nat
  arr : Nat
  suspect : Bool
  disc : Bool
deriving DecidableEq, Repr

/-- An echo that came: the initiation it answers, T_ARR, T_DEP and the arrival of its own marker in 2^-16 ns, the suspect and
DISC flags, the partner's optics constants and DEVICE_ID (R299, R302, R305). -/
structure EchoIn where
  seq : Nat
  t2 : Nat
  t3 : Nat
  t4 : Nat
  suspect : Bool
  disc : Bool
  optTx : Nat
  optRx : Nat
  device : Nat
deriving DecidableEq, Repr

/-- An accepted exchange: time differences and the two departure differences of the rate ratio in 2^-16 ns, the optics
sums of either direction in quarter ps and the fibre asymmetry in ps (R302, R310). -/
structure Sample where
  t1 : Nat
  d41 : Int
  d32 : Int
  d21 : Int
  d43 : Int
  dt1 : Int
  dt2 : Int
  optF : Int
  optR : Int
  asym : Int
deriving DecidableEq, Repr

/-- The exchange of a line lane: last INIT_SEQ, initiation due, initiations in flight oldest first, pending echo, t1 and
t2 of the echoed initiations and the accepted exchanges latest first, consecutive rejections, a discontinuity since
the last initiation, the partner's DEVICE_ID, a version 1 echo whose departure the next record brings, an echo that is
complete (R299 to R304, R307, R309). -/
structure LinkExchange where
  seq : Nat
  due : Bool
  out : List Initiation
  echo : Option EchoDue
  hist : List (Nat × Nat)
  acc : List Sample
  rejects : Nat
  disc : Bool
  partner : Option Nat
  held : Option EchoIn
  got : Option EchoIn
deriving DecidableEq, Repr

/-- An exchange that has not begun. -/
def LinkExchange.none : LinkExchange := ⟨0, false, [], .none, [], [], 0, false, .none, .none, .none⟩

/-- Kinds of throttle step (R401). -/
inductive StepKind where
  | profile | dvfs | shutdown
deriving DecidableEq, Repr

/-- A throttle step in force: its lane, and for a profile step the profile before it (R401, R402). -/
structure ThermalStep where
  kind : StepKind
  lane : Nat
  old : Nat
deriving DecidableEq, Repr

/-- A frame that a line lane sends: its payload stream before scrambling with filler in its place or not, its service-channel
content, whether it has the compatibility format, its pattern selection with PAT_LEVEL and the frames since that pattern's
first, and the precoder with its last output before the frame (R161, R184, R194, R202, R205, R207). -/
structure TxFrame where
  stream : Nat
  fill : Bool
  content : Nat
  compat : Bool
  pattern : Nat
  level : Nat
  patFrame : Nat
  precode : Bool
  pre : Nat
deriving DecidableEq, Repr

/-- Service bits 0 to 15 of a decoded codeword, as they reach framing over the S-RG path of a cluster (R191, R222). -/
structure ServiceBits where
  frame : Nat
  index : Nat
  bits : Nat
deriving DecidableEq, Repr

/-- What the encoder and the gearbox of a line lane hold: the payload stream of the frame under way, the precoder's last
output before it, the frame before it; and what the last released codeword gave host lanes A and B (R161, R162, R194, R272,
R273). -/
structure LaneData where
  stream : Nat
  pre : Nat
  last : TxFrame
  toA : Nat
  toB : Nat
  service : List ServiceBits
deriving DecidableEq, Repr

/-- A lane that has sent and released nothing. -/
def LaneData.none : LaneData := ⟨0, 0, ⟨0, true, 0, false, 0, 0, 0, false, 0⟩, 0, 0, []⟩

/-- States of the TAP controller (IEEE Std 1149.1, R469). -/
inductive TapState where
  | reset | idle | selectDr | captureDr | shiftDr | exit1Dr | pauseDr | exit2Dr | updateDr | selectIr | captureIr | shiftIr
  | exit1Ir | pauseIr | exit2Ir | updateIr
deriving DecidableEq, Repr

/-- The levels of TMS, TDI and TRST_N at a rising edge of TCK. -/
structure TckCycle where
  tms : Bool
  tdi : Bool
  trstN : Bool
deriving DecidableEq, Repr

/-- The TAP: its controller, the shift stages of the instruction register and of the selected data register, the instruction
at work, and the update stages of the boundary cells, cell `k` as bit `k` (R8, R468, R469). -/
structure Tap where
  ctl : TapState
  irShift : Nat
  drShift : Nat
  instr : TapInstr
  cells : Nat
deriving DecidableEq, Repr

/-- The TAP in Test-Logic-Reset, where the pull-down of TRST_N holds it. The device has no identification register, so BYPASS is
selected (DEDUCED, log entry 54). -/
def Tap.atReset : Tap := ⟨.reset, 0, 0, .bypass, 0⟩

/-- The state of the device. -/
structure State where
  /-- Commands that wait, first in first out. -/
  pending : List Instr
  /-- TIME clock cycles (2 ns) since the model's reset; advanced by idle steps (log entry 1). -/
  now : Nat
  /-- How many free values the run has taken (log entry 2); the model's own. -/
  fresh : Nat
  /-- Register fields as a read returns them, and the internal variables. -/
  regs : Store
  /-- Values in use of the shadowed fields (R45). -/
  live : Store
  /-- What the NVM holds for the fields that load from it (R348, R460, R471). -/
  nvm : Store
  /-- Words of the event FIFO that a reader can see, oldest first (R448 to R453). -/
  evf : List Nat
  /-- The image whose structure, microcode and firmware run (R72); none before the first commit and in the no-image
  state. -/
  running : Option Image
  /-- The validated candidate in the staging SRAM (R71). -/
  candidate : Option Image
  /-- The image record that Deep keeps (R382). -/
  imgRecord : Option Image
  /-- Retention records of the line lanes through Deep (R382). -/
  retained : Store
  /-- Transitions in their COMMIT phase (R378). -/
  votes : List Vote
  /-- Self-tests requested, running or re-initialising, in the order requested (R415 to R418). -/
  tests : List BistTest
  /-- Service requests that wait for a unit under test, in the order written (R423). -/
  deferred : List SvcReq
  /-- Messages that wait behind the one in flight of their lane, in the order sent (R203). -/
  svcQ : List SvcMsg
  /-- Encoders and gearboxes of the eight line lanes (R194, R272, R273). -/
  data : List LaneData
  /-- Words in the straits, in the order accepted (R35, R36; log entry 67). -/
  straits : List StraitWord
  /-- Microcode stores of the 128 engines: 512 words of 64 bits, word w in bits 64 w + 63 to 64 w (R220). -/
  stores : List Nat
  /-- Codewords in the home queues, oldest first (R226, R228). -/
  homeQ : List Codeword
  /-- Codewords that engines hold (R222). -/
  work : List EngWork
  /-- Requests of IDLE engines, with the lane whose queue they ask (R233, R234). -/
  asks : List (Nat × Nat)
  /-- Requests for the S-DX ports, in the order made (R229). -/
  emits : List Emission
  /-- Emissions that hold their cluster's port (R229). -/
  ports : List Emission
  /-- Release buffers, oldest codeword first (R237). -/
  slots : List RelSlot
  /-- Pending and running background tasks (R245). -/
  bg : List BgTask
  /-- Timestamp FIFO, oldest entry first (R292). -/
  tsf : List TsfEntry
  /-- Exchanges of the eight line lanes (R299 to R307). -/
  exch : List LinkExchange
  /-- Frequencies of the last updates of the time DPLL, latest first, Q20.12 ppb (R313). -/
  dpllHist : List Int
  /-- Throttle steps in force, latest first (R401, R402). -/
  thermal : List ThermalStep
  /-- Whole inbound mailbox messages, oldest first, as words (R454 to R457). -/
  mbxIn : List (List Nat)
  /-- Words of the open inbound message (R456). -/
  mbxOpen : List Nat
  /-- Outbound messages with the words not yet read, oldest first (R454). -/
  mbxOut : List (List Nat)
  /-- CMIS pages that the device serves: bank · 0x8000 + page · 0x80 + byte offset; the lower page at 0x7F80 (R441). -/
  pages : Memory
  /-- Module-controller page buffers: buffer i at 0x80 · i (R443). -/
  bufs : Memory
  /-- The MODULE_INFO region of the NVM (R471). -/
  info : Memory
  /-- Higher words that a read of a lowest word has snapshot, by address, rising (R19). -/
  snaps : List (Nat × Nat)
  /-- Lower words written to multi-word values whose highest word has not been written, by address, rising (R19). -/
  staged : List (Nat × Nat)
  /-- What the last command that returns bytes or words answered (R15, R436 to R439). -/
  answer : List Nat
  /-- Transactions of the peripheral bus, the one that runs first, with whether firmware asked for them (R357). -/
  pb : List (PbJob × Bool)
  /-- The test access port (R8, R469). -/
  tap : Tap
  /-- TCK cycles that a tester has yet to give, which no row of the table stands for (log entry 54). -/
  tck : List TckCycle
deriving DecidableEq, Repr

/-- The device at power-on, before VDD_AON power-good: every field at its reset value, nothing queued (R508). -/
def State.reset : State :=
  { pending := [], now := 0, fresh := 0, regs := [], live := [], nvm := [], evf := [], running := none,
    candidate := none, imgRecord := none, retained := [], votes := [], tests := [], deferred := [], svcQ := [],
    data := List.replicate 8 LaneData.none, straits := [], stores := List.replicate 128 0,
    homeQ := [], work := [], asks := [], emits := [], ports := [], slots := [], bg := [],
    tsf := [], exch := List.replicate 8 LinkExchange.none, dpllHist := [], thermal := [], mbxIn := [], mbxOpen := [],
    mbxOut := [], pages := [], bufs := [], info := [],
    snaps := [], staged := [], answer := [], pb := [], tap := Tap.atReset, tck := [] }

end Sys2Proof.Machine
end

