-- ==== Sys2Proof/Machine/Ops.lean ====
section
/-!
DEFINITION. The named operations over the state: reading and writing fields, counters, interrupt bits, the time of
day, and the event FIFO's writer.
-/
namespace Sys2Proof.Machine

/-- The outcome of a command in this machine. -/
abbrev Out := Host.Outcome State Fault Refusal

/-- Field `f` of instance `n`, element `i`. -/
def State.rd (s : State) (f : Field) (n : Nat := 0) (i : Nat := 0) : Nat := s.regs.get ⟨f, n, i⟩

/-- Whether a field is not zero. -/
def State.on (s : State) (f : Field) (n : Nat := 0) (i : Nat := 0) : Bool := s.rd f n i != 0

/-- A field read as a two's complement number (R23). -/
def State.rdInt (s : State) (f : Field) (n : Nat := 0) (i : Nat := 0) : Int := signedOf f.width (s.rd f n i)

/-- Write a field; the value is cut to its width. -/
def State.wr (s : State) (f : Field) (v : Nat) (n : Nat := 0) (i : Nat := 0) : State :=
  { s with regs := s.regs.set ⟨f, n, i⟩ v }

/-- Write a two's complement field. -/
def State.wrInt (s : State) (f : Field) (v : Int) (n : Nat := 0) (i : Nat := 0) : State :=
  s.wr f (ofSigned f.width v) n i

/-- Write a one-bit field. -/
def State.wrb (s : State) (f : Field) (b : Bool) (n : Nat := 0) (i : Nat := 0) : State := s.wr f (bit b) n i

/-- The value in use of a shadowed field (R45). -/
def State.use (s : State) (f : Field) (n : Nat := 0) (i : Nat := 0) : Nat := s.live.get ⟨f, n, i⟩

/-- Put a value of a shadowed field in use. -/
def State.setUse (s : State) (f : Field) (v : Nat) (n : Nat := 0) (i : Nat := 0) : State :=
  { s with live := s.live.set ⟨f, n, i⟩ v }

/-- What the NVM holds for a field. -/
def State.nvmGet (s : State) (f : Field) (n : Nat := 0) (i : Nat := 0) : Nat := s.nvm.get ⟨f, n, i⟩

/-- Store a field's value in the NVM. -/
def State.nvmSet (s : State) (f : Field) (v : Nat) (n : Nat := 0) (i : Nat := 0) : State :=
  { s with nvm := s.nvm.set ⟨f, n, i⟩ v }

/-- Apply a change only where a condition holds. -/
def State.when (s : State) (c : Bool) (g : State → State) : State := if c then g s else s

/-- Apply a change for each element of a list, in order. -/
def State.each {α : Type} (s : State) (l : List α) (g : α → State → State) : State := l.foldl (fun t a => g a t) s

/-- Put the places of the fields that a test picks back to reset, registers and values in use (R508). -/
def State.resetFields (s : State) (p : Key → Bool) : State :=
  { s with regs := s.regs.resetWhere p, live := s.live.resetWhere p }

/-- A counter that saturates at its all-ones value (R18). -/
def State.bump (s : State) (f : Field) (n : Nat := 0) (i : Nat := 0) (k : Nat := 1) : State :=
  s.wr f (min (s.rd f n i + k) (2 ^ f.width - 1)) n i

/-- Clear a list of counters of one instance. -/
def State.clear (s : State) (l : List Field) (n : Nat := 0) : State := s.each l (fun f t => t.wr f 0 n)

/-- Set bit `k` of a status register (R17, R27). -/
def State.raise (s : State) (f : Field) (k : Nat) (n : Nat := 0) : State := s.wr f (s.rd f n ||| 2 ^ k) n

/-- One bit of a mask field. -/
def State.maskBit (s : State) (f : Field) (k : Nat) (n : Nat := 0) : Bool := (s.rd f n).testBit k

/-- Set or clear one bit of a mask field. -/
def State.setMask (s : State) (f : Field) (k : Nat) (b : Bool) (n : Nat := 0) : State :=
  s.wr f (withBit (s.rd f n) k b) n

/-- Write several fields of one instance. -/
def State.puts (s : State) (l : List (Field × Nat)) (n : Nat := 0) : State := s.each l (fun e t => t.wr e.1 e.2 n)

/-- Bit `k` of element `i` of a mask array. -/
def State.maskBit' (s : State) (f : Field) (i k : Nat) : Bool := (s.rd f 0 i).testBit k

/-- Set or clear bit `k` of element `i` of a mask array. -/
def State.setMask' (s : State) (f : Field) (i k : Nat) (b : Bool) : State := s.wr f (withBit (s.rd f 0 i) k b) 0 i

/-- Write a value both as the shadow a read returns and as the value in use (R45). -/
def State.wrNow (s : State) (f : Field) (v : Nat) (n : Nat := 0) (i : Nat := 0) : State :=
  (s.wr f v n i).setUse f v n i

/-- The value in use as a two's complement number. -/
def State.useInt (s : State) (f : Field) (n : Nat := 0) (i : Nat := 0) : Int := signedOf f.width (s.use f n i)

/-- A free value (log entry 2), and the state after taking it. -/
def State.free (s : State) : Nat × State :=
  ((Config.freeValue s.fresh).toNat, { s with fresh := s.fresh + 1 })

/-- Leave a field at a free value (log entry 2). -/
def State.wrFree (s : State) (f : Field) (n : Nat := 0) (i : Nat := 0) : State := s.free.2.wr f s.free.1 n i

/-- Microseconds between two readings of `State.now`. -/
def usBetween (t0 t1 : Nat) : Nat := (t1 - t0) / 500

/-- The Icris format of R25: 2^-16 ns units packed into four words. -/
def packTime (t : Nat) : Nat :=
  let ns := t / 65536
  t % 65536 + (ns % 1000000000) * 2 ^ 32 + (ns / 1000000000 % 2 ^ 48) * 2 ^ 64

/-- The time in 2^-16 ns units that four words in the Icris format of R25 spell. -/
def unpackTime (v : Nat) : Nat :=
  ((v / 2 ^ 64 % 2 ^ 48) * 1000000000 + v / 2 ^ 32 % 2 ^ 32) * 65536 + v % 65536

/-- The time of day in the layout of R25. -/
def State.todWords (s : State) : Nat := packTime (s.rd .timTodNow)

/-! ## The event FIFO's writer (R448 to R453) -/

/-- Words the event FIFO RAM holds (R450). -/
def evfWords : Nat := 16384

/-- HWM with 16,384 stored as 0 (R450). -/
def State.evfHigh (s : State) : Nat := if s.rd .evfHwm = 0 then 16384 else s.rd .evfHwm

/-- Record types that DEFER_EN holds back while EVT_XOFF is asserted (R453). -/
def deferrable (ty : Nat) : Bool := [0x02, 0x10, 0x11, 0x12, 0x41, 0x42].contains ty

/-- The words of a format 2 record (R451). -/
def State.record2 (s : State) (ty obj : Nat) (payload : List Nat) : List Nat :=
  let t := s.rd .timTodNow / 65536
  [ty % 128 * 2 ^ 24 + obj % 256 * 2 ^ 16 + payload.length % 256 * 2 ^ 8 + s.rd .evfSeq,
   s.rd .timTodValid * 2 ^ 30 + t % 1000000000,
   t / 1000000000 % 2 ^ 31] ++ payload.map (· % 2 ^ 31)

/-- The words of a format 1 record: length word, NS and payload (R452). -/
def State.record1 (s : State) (ty : Nat) (payload : List Nat) (abort : Bool) : List Nat :=
  [bit abort * 2 ^ 30 + ty % 256 * 2 ^ 16 + (payload.length + 1) % 2 ^ 16,
   s.rd .timTodNow / 65536 % 1000000000] ++ payload

/-- Put words that fit into the FIFO: the pointers advance by 2 per word, EVT_XOFF asserts at HWM, NOT_EMPTY is set
where the FIFO was empty (R448, R450). -/
def State.evfPut (s : State) (ws : List Nat) : State :=
  let t := { s with evf := s.evf ++ ws }
  let t := t.wr .evfWptr (s.rd .evfWptr + 2 * ws.length)
  let t := t.when (s.evf.isEmpty && !ws.isEmpty) (fun u => u.raise .evfIntStatus Irq.evfNotEmpty)
  t.when (!s.on .evfXoff && decide (s.evfHigh ≤ t.evf.length))
    (fun u => (u.wr .evfXoff 1).raise .evfIntStatus Irq.evfXoff)

/-- A record that does not fit: OVERRUN, and in format 2 the record vanishes and is counted; in format 1 the words
that fit stay, with ABORT set (R449, R451, R452). -/
def State.evfFail (s : State) (ty : Nat) (payload : List Nat) : State :=
  let room := evfWords - s.evf.length
  let t := (s.wr .evfOverrun 1).raise .evfIntStatus Irq.evfOverrun
  if s.on .evfFormat then
    (t.bump .evfDroppedCnt).raise .evfIntStatus Irq.evfDropped
  else if room = 0 then (t.bump .evfDroppedCnt).raise .evfIntStatus Irq.evfDropped
  else if room = 1 then t.evfPut [2 ^ 30 + ty % 256 * 2 ^ 16]
  else t.evfPut (s.record1 ty (payload.take (room - 2)) true)

/-- Generate an event record of type `ty` about an object (R393) with a payload (R451 to R453). -/
def State.emit (s : State) (ty obj : Nat) (payload : List Nat) : State :=
  let t := s.wr .evfSeq (s.rd .evfSeq + 1)
  if s.on .evfDeferEn && s.on .evfXoff && deferrable ty then t.bump .evfDeferredCnt
  else
    let ws := if s.on .evfFormat then s.record2 ty obj payload else s.record1 ty payload false
    if s.evf.length + ws.length ≤ evfWords then t.evfPut ws else t.evfFail ty payload

/-- The offset DAC of a line lane sits at an end of its range (R87). -/
def ofsAtEnd (code : Int) : Bool := decide (code ≤ -128 ∨ 127 ≤ code)

/-! ## Self-tests as other blocks see them (R415, R418, R423) -/

/-- A unit of a kind is isolated: its test runs or its re-initialisation does. -/
def State.underTest (s : State) (kind unit : Nat) : Bool :=
  s.tests.any (fun t => t.kind == kind && t.unit == unit && t.phase != .pending)

/-- A test of a unit ends with a result: its event record, and for a software request RESULT, GO and BIST_DONE (R432,
R453). -/
def State.testResult (s : State) (kind unit res : Nat) (origin : TestOrigin) : State :=
  let s := s.emit 0x21 (if kind = 1 ∨ kind = 4 then unit else 8) [kind * 256 + unit % 128 + res * 4096]
  if origin = .software then (s.puts [(.hltBistResult, res), (.hltBistGo, 0)]).raise .hltIntStatus Irq.hltBistDone else s

/-- Move the running test of a unit to its re-initialisation. -/
def State.testReinit (s : State) (kind unit : Nat) : State :=
  { s with tests := s.tests.map (fun (t : BistTest) =>
      if t.kind = kind ∧ t.unit = unit ∧ t.phase = TestPhase.running then { t with phase := .reinit } else t) }

/-- The running test of a unit ends early with a result counted by `cnt`, and the unit re-initialises (R416, R423). -/
def State.endTest (s : State) (kind unit : Nat) (cnt : Field) : State :=
  match s.tests.find? (fun t => t.kind == kind && t.unit == unit && t.phase == .running) with
  | none => s
  | some t =>
    let abort : Bool := cnt == .hltAbortCnt
    let s := (s.testReinit kind unit).when (t.origin == .software) (fun u => u.wr .hltBistState 3)
    ((s.bump cnt).when abort (fun u => u.raise .hltIntStatus Irq.hltBistAbort)).testResult kind unit
      (if abort then 3 else 2) t.origin

/-- Carry out a service request to a unit, or keep it until the unit under test has re-initialised; with the
unit's preempt flag the test ends ABORTED first (R423). -/
def State.service (s : State) (kind unit : Nat) (flag : Bool) (r : SvcReq) (g : State → State) : State :=
  if s.underTest kind unit then
    let s := s.when flag (fun u => u.endTest kind unit .hltAbortCnt)
    { s with deferred := s.deferred ++ [r] }
  else g s

/-- A service request to a line lane, which a test of the lane or of its control DACs holds up. -/
def State.laneService (s : State) (n : Nat) (r : SvcReq) (g : State → State) : State :=
  s.service (if s.underTest 1 n then 1 else 4) n (s.maskBit .hltSvcPreemptLine n) r g

/-- A service request to a host lane. -/
def State.hostService (s : State) (h : Nat) (r : SvcReq) (g : State → State) : State :=
  s.service 2 (h / 4) (s.maskBit .hltSvcPreemptHost h) r g

/-! ## The archipelago time count (R225) -/

/-- ATC in 1/16 UI: 1,360/3 line UI a TIME cycle of 2 ns while the core PLL's outputs run, held while they are gated. -/
def State.atc16 (s : State) : Nat :=
  16 * s.rd .clkAtcHeld + (if s.on .pllGated 4 then 0 else 21760 * (s.now - s.rd .clkAtcAt) / 3)

/-- ATC, 32 bits, in line UI. -/
def State.atc (s : State) : Nat := s.atc16 / 16 % 2 ^ 32

/-- Span of the 24-bit time stamps in 1/16 UI. -/
def atcSpan : Nat := 2 ^ 28

/-- The compensated ATC of an island in 1/16 UI modulo the span: `phase` is how far the moment lies in the TIME cycle
under way plus the island's residual error of at most 0.706 ns, both in 1/16 UI (R225, log entry 68). -/
def State.compAtc (s : State) (phase : Int) : Nat :=
  ((s.atc16 + clampInt (-2560) 9813 phase) % (atcSpan : Int)).toNat

/-- The core PLL's outputs are gated: ATC stops (R225, R326). -/
def State.atcStop (s : State) : State := s.wr .clkAtcHeld s.atc

/-- The core PLL's outputs run again: ATC goes on from where it stopped (R225, R326). -/
def State.atcRun (s : State) : State := if s.on .pllGated 4 then s.wr .clkAtcAt s.now else s

/-! ## Straits (R35 to R37, R40, R332, R333) -/

/-- What happens to a word offered to a full strait (R37). -/
inductive StraitFull where
  | drop | loseStamp | wait | stall | cannot
deriving DecidableEq, Repr

/-- A strait: its width in bits, its depth in words, and what an offer does when it is full (R37). -/
structure Strait where
  width : Nat
  depth : Nat
  full : StraitFull
deriving DecidableEq, Repr

/-- The straits by ID (R37). -/
def straitOf (id : Nat) : Option Strait :=
  if id < 0x08 then some ⟨1024, 8, .drop⟩
  else if id < 0x10 then some ⟨512, 16, .wait⟩
  else if id < 0x18 then some ⟨1024, 13, .cannot⟩
  else if id < 0x20 then some ⟨1024, 8, .drop⟩
  else if id < 0x28 then some ⟨352, 16, .drop⟩
  else if id < 0x34 then some ⟨96, 8, .loseStamp⟩
  else if id < 0x3C then some ⟨64, 4, .wait⟩
  else if id = 0x3C then some ⟨32, 4, .stall⟩
  else if 0x40 ≤ id ∧ id < 0x57 then some ⟨56, 2, .stall⟩
  else none

/-- A strait drops a word offered to it when full (R37). -/
def dropping (id : Nat) : Bool :=
  match straitOf id with
  | some x => x.full == .drop || x.full == .loseStamp
  | none => false

/-- Words that a strait still takes. -/
def State.straitRoom (s : State) (id : Nat) : Nat :=
  ((straitOf id).map Strait.depth).getD 0 - (s.straits.filter (fun w => w.strait = id)).length

/-- Offer words to a strait: those that fit, in order (R36). -/
def State.straitPut (s : State) (id : Nat) (ws : List StraitWord) : State :=
  { s with straits := s.straits ++ ws.take (s.straitRoom id) }

/-- The word that a strait delivers next. -/
def State.straitHead (s : State) (id : Nat) : Option StraitWord := s.straits.find? (fun w => w.strait = id)

/-- Flush straits: their words are discarded and not counted (R333). -/
def State.straitFlush (s : State) (p : StraitWord → Bool) : State := { s with straits := s.straits.filter (fun w => !p w) }

/-- `k` words dropped at a full strait: OVF_COUNT, LAST_ID and STRAIT_OVF (R37, R40). -/
def State.straitDrop (s : State) (id k : Nat) : State :=
  ((s.bump .glbStraitOvfCount 0 0 k).wr .glbStraitLastId id).raise .glbIntStatus Irq.glbStraitOvf

/-! ## What ends with an island -/

/-- The codewords, engines and tasks of a decode island that stops (R220, R382). The release buffers lie in XBAR and stay
(R31). -/
def State.arcClusterOff (s : State) (c : Nat) : State :=
  { s with
    homeQ := s.homeQ.filter (fun w => w.lane ≠ c), work := s.work.filter (fun w => w.eng / 16 ≠ c),
    asks := s.asks.filter (fun a => a.1 / 16 ≠ c && a.2 ≠ c), emits := s.emits.filter (fun e => e.cluster ≠ c),
    ports := s.ports.filter (fun e => e.cluster ≠ c), bg := s.bg.filter (fun b => b.cluster ≠ c) }

/-- What the release buffers and the straits of XBAR hold is lost with the island's power (R31, R362). -/
def State.xbarOff (s : State) : State :=
  { s.straitFlush (fun w => decide (0x08 ≤ w.strait ∧ w.strait < 0x10)) with slots := [] }

/-- A word of a strait that is flushed as XBAR restarts: S-DX, S-XH, S-HX and S-XL (R333). -/
def onXbar (w : StraitWord) : Bool := decide (0x08 ≤ w.strait ∧ w.strait < 0x10 ∨ 0x18 ≤ w.strait ∧ w.strait < 0x28)

/-! ## Icris as other blocks see it (R290, R303, R317) -/

/-- The exchange of a line lane. -/
def State.ex (s : State) (n : Nat) : LinkExchange := (s.exch[n]?).getD LinkExchange.none

/-- What the encoder and the gearbox of a line lane hold. -/
def State.ld (s : State) (n : Nat) : LaneData := (s.data[n]?).getD LaneData.none

/-- Replace what the encoder and the gearbox of a line lane hold. -/
def State.setLd (s : State) (n : Nat) (d : LaneData) : State := { s with data := s.data.set n d }

/-- Replace the exchange of a line lane. -/
def State.setEx (s : State) (n : Nat) (e : LinkExchange) : State := { s with exch := s.exch.set n e }

/-- Average and ratio of a lane clear (R303, R304, R317). -/
def State.exchClear (s : State) (n : Nat) : State :=
  (s.setEx n { s.ex n with hist := [], acc := [], rejects := 0 }).wr .timLnStale 0 n

/-- Initiations in flight end as EXCH_MISS (R317). -/
def State.exchMiss (s : State) (n : Nat) : State :=
  let e := s.ex n
  (s.setEx n { e with out := [], echo := .none, due := false, held := .none, got := .none }).bump .timLnExchMissCnt n 0 e.out.length

/-- A TOD discontinuity: what lies between two times of an exchange is marked, average and ratio of every lane clear
(R286, R303, R304). -/
def State.todDisc (s : State) : State :=
  s.each (List.range 8) (fun n t =>
    let e := t.ex n
    let t := t.puts [(.timLnDiscRx, 1), (.timLnDiscTx, 1), (.timLnDiscV1, 1)] n
    (t.setEx n { e with out := e.out.map (fun i => { i with disc := true }), disc := true,
                        echo := e.echo.map (fun c => { c with disc := true }),
                        held := e.held.map (fun c => { c with disc := true }),
                        got := e.got.map (fun c => { c with disc := true }) }).exchClear n)

/-- The islands of a PLL stop producing timestamps until two captures have completed (R290). -/
def State.capStop (s : State) (p : Nat) : State :=
  s.each ((List.range 12).filter (fun i => if i < 8 then i / 4 = p else 2 + (i - 8) / 2 = p))
    (fun i t => t.wr .timCapNeed 2 i)

/-- The new corrections of a point take effect together at its boundary (R291). -/
def State.driftApply (s : State) (p : Nat) : State :=
  if s.on .timDPend 0 p then
    ((s.wr .timDUse (s.rd .timDNew 0 p) 0 p).wr .timLinUse (s.rd .timLinNew 0 p) 0 p).wr .timDPend 0 0 p
  else s

/-- The linearity tables of points `p` and `q`, measured at an entry to CAL, wait for their boundaries (R291). -/
def State.linMeasured (s : State) (p q : Nat) (a b : BitVec 1024) : State :=
  (((s.wr .timLinNew a.toNat 0 p).wr .timDPend 1 0 p).wr .timLinNew b.toNat 0 q).wr .timDPend 1 0 q

end Sys2Proof.Machine
end

