-- ==== Sys2Proof/Machine/Bytes.lean ====
section
/-!
DEFINITION. Byte memories in their canonical form: addresses strictly rising, no zero listed; an unlisted byte reads as 0
(log entry 8).
-/
namespace Sys2Proof.Machine

/-- The byte at an address. -/
def Memory.get (m : Memory) (a : Nat) : Nat :=
  match m.find? (fun e => e.1 == a) with
  | some e => e.2.toNat
  | none => 0

/-- Put a cell before the first one with a greater address. -/
def Memory.insert (a : Nat) (v : BitVec 8) : Memory → Memory
  | [] => [(a, v)]
  | e :: m => if e.1 < a then e :: Memory.insert a v m else (a, v) :: e :: m

/-- Write the byte at an address; a zero is not listed. -/
def Memory.set (m : Memory) (a v : Nat) : Memory :=
  let rest := m.filter (fun e => e.1 != a)
  if BitVec.ofNat 8 v = 0#8 then rest else Memory.insert a (BitVec.ofNat 8 v) rest

/-- Write several bytes from an address on. -/
def Memory.setMany (m : Memory) (a : Nat) : List Nat → Memory
  | [] => m
  | v :: l => Memory.setMany (m.set a v) (a + 1) l

/-- Bytes from an address on. -/
def Memory.getMany (m : Memory) (a k : Nat) : List Nat := (List.range k).map (fun i => m.get (a + i))

/-- Addresses strictly rising. -/
def risingCells : Memory → Bool
  | a :: b :: m => decide (a.1 < b.1) && risingCells (b :: m)
  | _ => true

/-- The canonical form: addresses strictly rising, no zero listed. -/
def Memory.wf (m : Memory) : Bool := risingCells m && m.all (fun e => e.2 != 0#8)

/-- A 32-bit word of four bytes, the lowest byte in bits 7 to 0 (R441). -/
def wordOf (b0 b1 b2 b3 : Nat) : Nat := b0 + 2 ^ 8 * b1 + 2 ^ 16 * b2 + 2 ^ 24 * b3

/-- The four bytes of a word, lowest first (R439, R441). -/
def bytesOf (w : Nat) : List Nat := [w % 256, w / 2 ^ 8 % 256, w / 2 ^ 16 % 256, w / 2 ^ 24 % 256]

/-- The word at an address of a memory. -/
def Memory.word (m : Memory) (a : Nat) : Nat := wordOf (m.get a) (m.get (a + 1)) (m.get (a + 2)) (m.get (a + 3))

/-- Bytes grouped into words, the last one filled with zeros. -/
def packWords : List Nat → List Nat
  | [] => []
  | [a] => [wordOf a 0 0 0]
  | [a, b] => [wordOf a b 0 0]
  | [a, b, c] => [wordOf a b c 0]
  | a :: b :: c :: d :: l => wordOf a b c d :: packWords l

/-- The whole words of a run of bytes, lowest byte first; a last word that is not whole is discarded (R439). -/
def wholeWords : List Nat → List Nat
  | a :: b :: c :: d :: l => wordOf a b c d :: wholeWords l
  | _ => []

/-- Byte `k` of a body. -/
def byteOf (body k : Nat) : Nat := body / 2 ^ (8 * k) % 256

end Sys2Proof.Machine
end

