-- ==== Sys2Proof/Machine/Crypto.lean ====
section
/-!
DEFINITION. The integrity functions of images and tokens: CRC-32, SHA-384 and the verification of ECDSA P-384 signatures (R62,
R464, R466; their standards, log entry 13).
-/
namespace Sys2Proof.Machine

/-- The CRC-32 of IEEE Std 802.3 over a list of bytes, least significant bit first, complemented (R62, log entry 17). -/
def crc32 (l : List Nat) : Nat :=
  let shift (c : Nat) : Nat := if c % 2 = 1 then (c / 2) ^^^ 0xEDB88320 else c / 2
  (l.foldl (fun c b => (List.range 8).foldl (fun c _ => shift c) (c ^^^ b)) 0xFFFFFFFF) ^^^ 0xFFFFFFFF

/-- The number that bytes spell, the first one lowest (R61). -/
def littleEndian : List Nat → Nat
  | [] => 0
  | b :: l => b % 256 + 256 * littleEndian l

/-- The number that bytes spell, the first one highest. -/
def bigEndian (l : List Nat) : Nat := l.foldl (fun a b => 256 * a + b % 256) 0

/-! ## SHA-384 -/

/-- The greatest number below `acc + 2^k` whose power `e` does not exceed `n`, from a start `acc`. -/
def rootBelow (e n : Nat) : Nat → Nat → Nat
  | 0, acc => acc
  | k + 1, acc => rootBelow e n k (if (acc + 2 ^ k) ^ e ≤ n then acc + 2 ^ k else acc)

/-- The first 64 bits after the point of the root of order `e` of a small number. -/
def rootBits (e p : Nat) : Nat := rootBelow e (p * 2 ^ (64 * e)) 68 0 % 2 ^ 64

/-- The first 80 primes. -/
def smallPrimes : List Nat :=
  (List.range 410).filter (fun n => decide (2 ≤ n) && ((List.range 21).drop 2).all (fun d => n == d || n % d != 0))

/-- Initial hash value: the square roots of the 9th to the 16th prime (FIPS PUB 180-4). -/
def shaInit : List Nat := ((smallPrimes.drop 8).take 8).map (rootBits 2)

/-- Round constants: the cube roots of the first 80 primes (FIPS PUB 180-4). -/
def shaK : List Nat := smallPrimes.map (rootBits 3)

/-- Rotation of a 64-bit word to the right. -/
def rotr64 (x k : Nat) : Nat := x / 2 ^ k + x % 2 ^ k * 2 ^ (64 - k)

/-- Sum of words modulo 2^64. -/
def add64 (l : List Nat) : Nat := l.sum % 2 ^ 64

/-- The message schedule, latest word first: `k` more words. -/
def shaSchedule : Nat → List Nat → List Nat
  | 0, w => w
  | k + 1, w =>
    let x := w.getD 1 0
    let y := w.getD 14 0
    let s1 := rotr64 x 19 ^^^ rotr64 x 61 ^^^ x / 2 ^ 6
    let s0 := rotr64 y 1 ^^^ rotr64 y 8 ^^^ y / 2 ^ 7
    shaSchedule k (add64 [s1, w.getD 6 0, s0, w.getD 15 0] :: w)

/-- One round on the eight working variables, with a word and its constant. -/
def shaRound (v : List Nat) (wk : Nat × Nat) : List Nat :=
  match v with
  | [a, b, c, d, e, f, g, h] =>
    let s1 := rotr64 e 14 ^^^ rotr64 e 18 ^^^ rotr64 e 41
    let s0 := rotr64 a 28 ^^^ rotr64 a 34 ^^^ rotr64 a 39
    let t1 := add64 [h, s1, (e &&& f) ^^^ ((2 ^ 64 - 1 - e) &&& g), wk.2, wk.1]
    let t2 := s0 + ((a &&& b) ^^^ (a &&& c) ^^^ (b &&& c))
    [add64 [t1, t2], a, b, c, add64 [d, t1], e, f, g]
  | _ => v

/-- One block of 16 words. -/
def shaBlock (h block : List Nat) : List Nat :=
  let w := (shaSchedule 64 block.reverse).reverse
  let v := (w.zip shaK).foldl shaRound h
  List.zipWith (fun a b => (a + b) % 2 ^ 64) h v

/-- Blocks of 16 words: `k` of them. -/
def shaBlocks : Nat → List Nat → List Nat → List Nat
  | 0, h, _ => h
  | k + 1, h, w => shaBlocks k (shaBlock h (w.take 16)) (w.drop 16)

/-- Bytes as 64-bit words. -/
def wordsOfBytes (l : List Nat) : List Nat :=
  (List.range (l.length / 8)).map (fun k => bigEndian ((l.drop (8 * k)).take 8))

/-- The SHA-384 digest of a list of bytes, as the number its bytes spell. -/
def sha384 (l : List Nat) : Nat :=
  let pad := l ++ 0x80 :: List.replicate ((239 - l.length % 128) % 128) 0
  let w := wordsOfBytes pad ++ [0, 8 * l.length]
  ((shaBlocks (w.length / 16) shaInit w).take 6).foldl (fun a x => 2 ^ 64 * a + x) 0

/-- Bytes of a digest, highest first. -/
def digestBytes (d : Nat) : List Nat := (List.range 48).map (fun k => d / 2 ^ (8 * (47 - k)) % 256)

/-- HMAC-SHA-384 of a text under a key of at most 128 bytes (R471). -/
def hmacSha384 (key text : List Nat) : Nat :=
  let k := key ++ List.replicate (128 - key.length) 0
  sha384 (k.map (· ^^^ 0x5C) ++ digestBytes (sha384 (k.map (· ^^^ 0x36) ++ text)))

/-! ## ECDSA P-384 -/

/-- Prime of the field of P-384. -/
def p384 : Nat := 2 ^ 384 - 2 ^ 128 - 2 ^ 96 + 2 ^ 32 - 1

/-- Constant b of the curve P-384. -/
def p384b : Nat :=
  0xb3312fa7e23ee7e4988e056be3f82d19181d9c6efe8141120314088f5013875ac656398d8a2ed19d2a85c8edd3ec2aef

/-- Order of the base point. -/
def n384 : Nat :=
  0xffffffffffffffffffffffffffffffffffffffffffffffffc7634d81f4372ddf581a0db248b0a77aecec196accc52973

/-- A point, x in the low 384 bits and y above, lies on the curve (R464). -/
def onCurve (point : Nat) : Bool :=
  let x := point % 2 ^ 384
  let y := point / 2 ^ 384
  decide (x < p384 ∧ y < p384) && y * y % p384 == (x * x * x + (p384 - 3) * x + p384b) % p384

/-- A point as (X : Y : Z) with x = X / Z² and y = Y / Z³; Z = 0 is the point at infinity. -/
structure JPoint where
  x : Nat
  y : Nat
  z : Nat
deriving DecidableEq, Repr

/-- The base point. -/
def basePoint : JPoint :=
  ⟨0xaa87ca22be8b05378eb1c71ef320ad746e1d3b628ba79b9859f741e082542a385502f25dbf55296c3a545e3872760ab7,
   0x3617de4a96262c6f5d9e98bf9292dc29f8f41dbd289a147ce9da3113b5f0b8c00a60b1ce1d7e819d7a431d7c90ea0e5f, 1⟩

/-- Difference in the field. -/
def fieldSub (a b : Nat) : Nat := (a + p384 - b % p384) % p384

/-- Twice a point. -/
def JPoint.double (p : JPoint) : JPoint :=
  let zz := p.z * p.z % p384
  let yy := p.y * p.y % p384
  let b := p.x * yy % p384
  let a := 3 * fieldSub p.x zz * (p.x + zz) % p384
  let x := fieldSub (a * a) (8 * b)
  ⟨x, fieldSub (a * fieldSub (4 * b) x) (8 * yy * yy), 2 * p.y * p.z % p384⟩

/-- Sum of two points. -/
def JPoint.add (p q : JPoint) : JPoint :=
  if p.z = 0 then q
  else if q.z = 0 then p
  else
    let pz := p.z * p.z % p384
    let qz := q.z * q.z % p384
    let u1 := p.x * qz % p384
    let u2 := q.x * pz % p384
    let s1 := p.y * qz * q.z % p384
    let s2 := q.y * pz * p.z % p384
    let h := fieldSub u2 u1
    let r := fieldSub s2 s1
    if h = 0 then (if r = 0 then p.double else ⟨1, 1, 0⟩)
    else
      let hh := h * h % p384
      let hhh := hh * h % p384
      let v := u1 * hh % p384
      let x := fieldSub (r * r) (hhh + 2 * v)
      ⟨x, fieldSub (r * fieldSub v x) (s1 * hhh), p.z * q.z % p384 * h % p384⟩

/-- `a G + b Q` over the lowest `k` bits of `a` and `b`, with G + Q at hand. -/
def twoMul (g q gq : JPoint) (a b : Nat) : Nat → JPoint
  | 0 => ⟨1, 1, 0⟩
  | k + 1 =>
    let i := 383 - k
    let p := (twoMul g q gq a b k).double
    match a.testBit i, b.testBit i with
    | false, false => p
    | true, false => p.add g
    | false, true => p.add q
    | true, true => p.add gq

/-- `a` to the power of the lowest bits of `e`, highest first, modulo `m`: the top `k` of 384 bits. -/
def powMod (a e m : Nat) : Nat → Nat
  | 0 => 1
  | k + 1 =>
    let x := powMod a e m k
    let x := x * x % m
    if e.testBit (383 - k) then x * a % m else x

/-- The signature (r, s) over a digest verifies under a public key, x in the low 384 bits and y above. -/
def ecdsaVerify (key digest r s : Nat) : Bool :=
  let q : JPoint := ⟨key % 2 ^ 384, key / 2 ^ 384, 1⟩
  let w := powMod s (n384 - 2) n384 384
  let p := twoMul basePoint q (basePoint.add q) (digest * w % n384) (r * w % n384) 384
  let zz := p.z * p.z % p384
  decide (1 ≤ r ∧ r < n384 ∧ 1 ≤ s ∧ s < n384) && onCurve key && p.z != 0 &&
    (p.x == r * zz % p384 || (decide (r + n384 < p384) && p.x == (r + n384) * zz % p384))

end Sys2Proof.Machine
end

