-- ==== Sys2Proof/Machine/Access.lean ====
section
/-!
DEFINITION. Which island a register block lives in, and what an access to a register does before the field is
reached: no management clock, a powered-down island, an ordinary access.
-/
namespace Sys2Proof.Machine

/-- The power domain of a block's register shell is on (R37, R334, R362). -/
def State.powered (s : State) (b : Block) (n : Nat) : Bool :=
  match b with
  | .lrx | .leq | .ltx | .lfr => s.maskBit .pwrDomLane n
  | .arcCl => s.maskBit .pwrDomDecode n
  | .hif => s.maskBit .pwrDomHost (n / 4)
  | .hifGlb => s.on .pwrDomXbar
  | .tim | .timLn | .timHost => s.on .pwrDomTime
  | _ => s.on .pwrDomMgmt

/-- An access outside the normal path is reported (R16). -/
def State.busErr (s : State) : State := s.raise .glbIntStatus Irq.glbBusErr

/-- A register access to a powered-down island: BUS_ERR, and RG_STOPPED counts (R334). -/
def State.rgStopped (s : State) : State := s.busErr.bump .clkRgStoppedCnt

/-- A write or command bit of block `b`, instance `n`, does `g`: nothing while MGMT does not run (R370, R477), the
outcome of R334 where the island is powered down. -/
def State.access (s : State) (b : Block) (n : Nat) (g : State → State) : State :=
  if !s.on .pwrDomMgmt then s else if s.powered b n then g s else s.rgStopped

end Sys2Proof.Machine
end

