-- ==== Sys2Proof/Machine/Structure.lean ====
section
/-!
DEFINITION. The structure an image gives the device: its records over the defaults of R66, the translation of
format-3 images (R65), and the port groups, crossbar map and depths that the running image puts in force.
-/
namespace Sys2Proof

/-- The value for an index given by the last record that names it, else the default. -/
def pick {α : Type} (l : List (Nat × StructRecord)) (f : StructRecord → Option α) (d : α) : α :=
  l.foldl (fun acc e => (f e.2).getD acc) d

/-- The payload that a PAYLOAD code names (R66, log entry 69). -/
def payloadOfCode (c : Nat) : Payload :=
  match c with
  | 0 => .eth400
  | 1 => .eth800
  | 2 => .eth1600
  | _ => .transparent

/-- Port groups of an image: its records, or eight groups of one lane (R66). -/
def Image.groups (i : Image) : List PortGroup :=
  let l := i.records.filterMap (fun e => match e.2 with
    | .portGroup lead count payload mode profiles initial =>
      some (⟨lead, count, payloadOfCode payload, mode == 1, profiles, initial⟩ : PortGroup)
    | _ => none)
  if l.isEmpty then (List.range 8).map (fun n => ⟨n, 1, .eth400, false, 7, 1⟩) else l

/-- Host lanes A and B of a line lane (R43, R66). -/
def Image.xbar (i : Image) (n : Nat) : Nat × Option Nat :=
  pick i.records (fun r => match r with
    | .xbarMap lane a b => if lane = n then some (a, b) else none
    | _ => none) (2 * n, some (2 * n + 1))

/-- Home lane and IDLE_RESERVE of an engine (R66). -/
def Image.home (i : Image) (e : Nat) : Nat × Bool :=
  pick i.records (fun r => match r with
    | .engineHome en lane idle => if en = e then some (lane, idle != 0) else none
    | _ => none) (e / 16, e % 16 == 15)

/-- Program index of a cluster (R66). -/
def Image.program (i : Image) (c : Nat) : Nat :=
  pick i.records (fun r => match r with
    | .program cl p => if cl = c then some p else none
    | _ => none) 0

/-- REACH_CW, REACH_CCW and STEAL_THRESH of a cluster; format 3 has 1, 1 and 6 (R65, R66). -/
def Image.steal (i : Image) (c : Nat) : Nat × Nat × Nat :=
  pick i.records (fun r => match r with
    | .steal cl cw ccw t => if cl = c then some (cw, ccw, t) else none
    | _ => none) (if i.fmtMajor = 3 then (1, 1, 6) else (4, 3, 6))

/-- HOME_Q and RELEASE_BUF of a lane (R65, R66). -/
def Image.depth (i : Image) (n : Nat) : Nat × Nat :=
  pick i.records (fun r => match r with
    | .depth lane q b => if lane = n then some (q, if i.fmtMajor = 3 then 88 else b) else none
    | _ => none) (48, 88)

/-- ALLOWED_POINTS as a mask and INITIAL_POINT of a decode island (R66). -/
def Image.clockPlan (i : Image) (c : Nat) : Nat × Nat :=
  pick i.records (fun r => match r with
    | .clockPlan isl a p => if isl = c then some (a, p) else none
    | _ => none) (15, 0)

/-- The group of an image that holds a lane. -/
def Image.groupOf (i : Image) (n : Nat) : PortGroup :=
  (i.groups.find? (fun g => decide (g.lead ≤ n) && decide (n < g.lead + g.count))).getD ⟨n, 1, .eth400, false, 7, 1⟩

/-- Line lanes of a group. -/
def PortGroup.lanes (g : PortGroup) : List Nat := (List.range g.count).map (· + g.lead)

end Sys2Proof

namespace Sys2Proof.Machine

/-- The group that holds a line lane; a group of one lane with the defaults while no image runs. -/
def State.groupOf (s : State) (n : Nat) : PortGroup :=
  match s.running with
  | some i => i.groupOf n
  | none => ⟨n, 1, .eth400, false, 7, 1⟩

/-- Transparent port (R43). -/
def State.transparent (s : State) (n : Nat) : Bool := (s.groupOf n).payload == .transparent

/-- Home-queue slots of a lane in force. -/
def State.homeQDepth (s : State) (n : Nat) : Nat := match s.running with | some i => (i.depth n).1 | none => 48

/-- Release-buffer slots of a lane in force. -/
def State.relBufDepth (s : State) (n : Nat) : Nat := match s.running with | some i => (i.depth n).2 | none => 88

/-! ## Microcode (R72, R220, R245) -/

/-- The slot of a cluster in the active microcode SRAM: the program that its record selects (R72, R221). -/
def State.microSlot (s : State) (c : Nat) : Nat :=
  match s.running with
  | some i => ((i.programs[i.program c]?).map (fun p => p.packed)).getD 0
  | none => 0

/-- The stores of engines are loaded from their clusters' slots (R72, R75, R242, R244, R245). -/
def State.loadStores (s : State) (engs : List Nat) : State :=
  { s with stores := engs.foldl (fun l e => l.set e (s.microSlot (e / 16))) s.stores }

/-- The stores of a cluster lose their contents with its power (R362). -/
def State.clearStores (s : State) (c : Nat) : State :=
  { s with stores := (List.range 16).foldl (fun l k => l.set (16 * c + k) 0) s.stores }

/-- Engines of a cluster. -/
def clusterEngines (c : Nat) : List Nat := (List.range 16).map (· + 16 * c)

/-- NORM and OFFSET of the program in an engine's store (R221). -/
def State.minSum (s : State) (e : Nat) : Nat × Nat :=
  let w := (s.stores[e]?).getD 0 / 2 ^ 64
  (w % 16, w / 16 % 16)

end Sys2Proof.Machine
end

