-- ==== Sys2Proof/Machine/LaneOps.lean ====
section
/-!
DEFINITION. The operations that several blocks share: counting an event of a fault source, the state machines of the
line receive, line transmit and host lanes with what each entry does, the equaliser's start values and mode, and the
envelope trip.
-/
namespace Sys2Proof.Machine

/-! ## Fault windows (R408 to R414) -/

/-- CMIS flags of R445. -/
inductive CmisFlag where
  | tempAlarm | tempWarn | supplyWarn | rxLos | rxLol | txFault | hostTxLos | hostCdrLol | dpChanged
deriving DecidableEq, Repr

/-- Latch a CMIS flag of lane `n`; an unmasked one sets CMIS in MGT_INT_STATUS (R445). -/
def State.cmis (s : State) (k : CmisFlag) (n : Nat := 0) : State :=
  (s.wr .cmisFlag 1 n k.ctorIdx).when (!s.on .cmisMask n k.ctorIdx)
    (fun t => t.raise .mgtIntStatus Irq.mgtCmis)

/-- CMIS data path states of R444. -/
inductive DataPathState where
  | deactivated | init | deinit | activated
deriving DecidableEq, Repr

/-- The data path state of the host lanes of a line lane; FAULT, which R444 does not list, reads DPDeactivated (log entry
21). -/
def State.dataPath (s : State) (n : Nat) : DataPathState :=
  match s.rd .lrxState n with
  | 0 | 7 => .deactivated
  | 5 => if s.maskBit .cmisDpDeinit n then .deinit else .activated
  | _ => .init

/-- CMIS code of a data path state (CMIS revision 5.2, log entry 21). -/
def DataPathState.code : DataPathState → Nat
  | .deactivated => 1
  | .init => 2
  | .deinit => 3
  | .activated => 4

/-- OBJECT of an instance of a source (R393): line lanes as they are, host lanes from 0x10, else the device. -/
def sourceObject (src inst : Nat) : Nat :=
  if src ≤ 8 ∨ src = 12 ∨ src = 13 then inst else if src = 9 ∨ src = 10 then 0x10 + inst else 8

/-- The CMIS flag that LASTING of a source raises (R445). -/
def sourceCmis (src inst : Nat) (s : State) : State :=
  if src = 1 ∨ src = 4 then s.cmis .rxLol inst else if src = 10 then s.cmis .hostCdrLol inst else s

/-- Count `k` events of one tick at an instance of a source (R409, R410). The Boolean says that the source's object
action is due. -/
def State.countEvent (s : State) (src inst : Nat) (k : Nat := 1) : State × Bool :=
  let s := s.bump .hltTotal src inst k
  if s.maskBit' .hltSrcLasting src inst then (s, false)
  else
    let count := if s.on .hltWinOpen src inst then min (s.rd .hltWinCount src inst + k) 1023 else min k 1023
    let s := if s.on .hltWinOpen src inst then s
      else (s.wr .hltWinOpen 1 src inst).wr .hltWinAt s.now src inst
    let s := s.wr .hltWinCount count src inst
    let action := s.rd .hltAction 0 src
    if s.rd .hltThresh 0 src ≤ count ∧ action ≠ 0 then
      let s := ((s.wr .hltWinOpen 0 src inst).wr .hltWinCount 0 src inst).setMask' .hltSrcLasting src inst true
      let s := (s.raise .hltIntStatus Irq.hltLasting).emit 0x20 (sourceObject src inst) [src * 256 + inst]
      (sourceCmis src inst s, decide (2 ≤ action))
    else (s, false)

/-- Clear a lasting fault, leaving no window open (R413). -/
def State.clearLasting (s : State) (src inst : Nat) : State :=
  if s.maskBit' .hltSrcLasting src inst then
    ((s.setMask' .hltSrcLasting src inst false).wr .hltWinOpen 0 src inst).wr .hltWinCount 0 src inst
  else s

/-- Clear the lasting faults of several sources of one instance. -/
def State.clearLastings (s : State) (srcs : List Nat) (inst : Nat) : State :=
  s.each srcs (fun src t => t.clearLasting src inst)

/-! ## Clocks and power as the lanes see them -/

/-- The line PLL that serves a line lane (R321). -/
def linePll (n : Nat) : Nat := n / 4

/-- The host PLL that serves a host lane (R321). -/
def hostPll (h : Nat) : Nat := 2 + h / 8

/-- PLL state LOCKED (R335). -/
def State.pllLocked (s : State) (p : Nat) : Bool := s.rd .pllState p = 2

/-- The PLL is locked for the blocks it serves: LOCKED, or in HOLD through an outage that is not yet a loss of lock (R327). -/
def State.pllRuns (s : State) (p : Nat) : Bool :=
  s.pllLocked p || (s.rd .pllState p = 3 && !s.on .pllDeclared p && !s.on .pllGated p)

/-- The PLLs that a receive lane in CAL waits for: its line PLL, and the core PLL, whose loss sends it there too (R112, R326,
R329). -/
def State.rxPlls (s : State) (n : Nat) : Bool := s.pllRuns (linePll n) && s.pllRuns 4

/-- The supply is below warning (R390). -/
def State.warning (s : State) : Bool := s.on .pwrWarn

/-! ## Equaliser (R129, R138, R142) -/

/-- Taps of the FFE. -/
def tapIndices : List Nat := List.range 41

/-- The start values of the FFE and the DFE, with which the checkpoint clears (R129, R143). -/
def State.leqStart (s : State) (n : Nat) : State :=
  let s := s.each tapIndices (fun i t => t.wr .leqTapLive (if i = 10 then s.use .leqStartMain n else 0) n i)
  let s := s.each tapIndices (fun i t => t.wr .leqTapDelta 0 n i)
  s.puts [(.leqD1Live, 0), (.leqD1Delta, 0), (.leqCkptValid, 0), (.leqCkptHas, 0), (.leqAdaptPend, 0), (.leqRestorePend, 0),
    (.leqSnapAtLimit, 0)] n

/-- The timing error detector of the CDR works on equaliser decisions, not on raw samples (R103, R130). -/
def State.cdrDecisionDirected (s : State) (n : Nat) : Bool :=
  let st := s.rd .lrxState n
  (st = 2 && (s.rd .lrxAcqPhase n = 4 || (s.rd .lrxAcqPhase n = 3 && s.on .leqBlindConv n))) ||
    st = 3 || st = 4 || st = 5

/-- HOLD_CAUSE in DD conditions (R142): ADAPT_EN 0, CDR not locked, receive sleep, supply below warning. -/
def State.leqHold (s : State) (n : Nat) : Nat :=
  bit (!s.on .leqAdaptEn n) + 2 * bit (!s.on .lrxCdrLock n) + 4 * bit (s.on .lrxSleep n) + 8 * bit s.warning

/-- Whether the lane state calls for DD: from blind convergence on, as the CDR's detector (R103, R138, R141). -/
def State.leqDd (s : State) (n : Nat) : Bool := s.cdrDecisionDirected n

/-- MODE and HOLD_CAUSE follow the lane state and the hold conditions. A CDR sub-phase that a loss of lock began is
HELD; DD begins only at an update interval (R138, R141, R142). -/
def State.leqFollow (s : State) (n : Nat) : State :=
  let st := s.rd .lrxState n
  let mode := s.rd .leqMode n
  if st = 7 then s.puts [(.leqMode, 3), (.leqHoldCause, 0)] n
  else if s.leqDd n then
    s.puts [(.leqMode, if s.leqHold n = 0 then (if mode = 0 then 2 else mode) else 3), (.leqHoldCause, s.leqHold n)] n
  else if st = 2 ∧ s.rd .lrxAcqPhase n = 2 ∧ 2 ≤ mode then s.puts [(.leqMode, 3), (.leqHoldCause, s.leqHold n)] n
  else if st = 2 ∧ s.rd .lrxAcqPhase n = 3 then s.puts [(.leqMode, 1), (.leqHoldCause, 0)] n
  else s.puts [(.leqMode, 0), (.leqHoldCause, 0)] n

/-- Put d1, held within DFE_MAX; AT_LIMIT tells a value that reaches or would pass it (R132). -/
def State.leqD1Put (s : State) (n : Nat) (d : Int) : State :=
  let lim : Int := s.use .leqDfeMax n
  (s.wrInt .leqD1Live (clampInt (-lim) lim d) n).wrb .leqSnapAtLimit (decide (d ≠ 0 ∧ (lim ≤ d ∨ d ≤ -lim))) n

/-- The MLSE request in use differs from the MLSE at work (R137). -/
def State.mlseChanged (s : State) (n : Nat) : Bool :=
  s.use .leqMlseEn n != s.rd .leqMlseEnAct n || s.use .leqMlseT1 n != s.rd .leqMlseT1Act n ||
    s.use .leqMlseT2 n != s.rd .leqMlseT2Act n

/-- The MLSE request takes effect; a DFE that comes back starts at 0 (R134, R137). -/
def State.mlsePut (s : State) (n : Nat) : State :=
  let was := s.on .leqMlseActive n
  let en := s.use .leqMlseEn n
  let s := s.puts [(.leqMlseEnAct, en), (.leqMlseT1Act, s.use .leqMlseT1 n), (.leqMlseT2Act, s.use .leqMlseT2 n),
    (.leqMlseActive, en), (.leqMlsePending, 0)] n
  s.when (was && en == 0) (fun t => t.leqD1Put n 0)

/-- A change of the MLSE takes effect, with its interrupt (R137). -/
def State.mlseApply (s : State) (n : Nat) : State := (s.mlsePut n).raise .leqIntStatus Irq.leqMlseApplied n

/-- Put the shadow of each field of a list in use (R45). -/
def State.applyShadow (s : State) (l : List Field) (n : Nat) (i : Nat := 0) : State :=
  s.each l (fun f t => t.setUse f (t.rd f n i) n i)

/-- An FFE coefficient held at its limits: the main tap within 0.25 to 1.999, every other within 1.0 (R128). -/
def ffeLimit (i : Nat) (v : Int) : Int := if i = 10 then clampInt 0x100 0x7FF v else clampInt (-0x400) 0x400 v

/-- The shadowed fields of the equaliser but for the taps (R151). -/
def leqShadowed : List Field :=
  [.leqPreset, .leqUpdSh, .leqMuShDfe, .leqMuShDd, .leqMuShBlind, .leqDfeEn, .leqDfeMax, .leqMlseEn, .leqMlseT2,
   .leqMlseT1, .leqLlrAuto, .leqB3, .leqB2, .leqB1, .leqThrT3, .leqThrT2, .leqThrT1, .leqEyeQ, .leqFomWin, .leqBlindFom,
   .leqStartMain]

/-- The checkpoint, or else the set of blind convergence, is restored (R143). -/
def State.leqRestore (s : State) (n : Nat) : State :=
  let s := s.wr .leqRestorePend 0 n
  if s.on .leqCkptValid n then
    (s.each tapIndices (fun i t => t.wr .leqTapLive (t.rd .leqTapCkpt n i) n i)).leqD1Put n (s.rdInt .leqD1Ckpt n)
  else if s.on .leqCkptHas n then
    (s.each tapIndices (fun i t => t.wr .leqTapLive (t.rd .leqTapBlind n i) n i)).leqD1Put n (s.rdInt .leqD1Blind n)
  else s

/-- The LLR edges of the shadow rise strictly, as a commit of them requires (R159). -/
def State.edgesOk (s : State) (n : Nat) : Bool :=
  decide (s.rd .leqB1 n < s.rd .leqB2 n ∧ s.rd .leqB2 n < s.rd .leqB3 n)

/-- Manual thresholds are in use where LLR_AUTO is 0 (R149). -/
def State.thrManual (s : State) (n : Nat) : State :=
  s.when (s.use .leqLlrAuto n == 0) (fun t => t.puts [(.leqThrActT1, t.use .leqThrT1 n),
    (.leqThrActT2, t.use .leqThrT2 n), (.leqThrActT3, t.use .leqThrT3 n), (.leqThrPend, 0)] n)

/-- Shadowed fields of the equaliser and taps apply: edges that do not rise stay as they were, a written tap takes its
value, an MLSE change waits but in OFF, a DFE enabled again starts at 0 and one off holds d1 (R128, R132, R134, R137, R149,
R151, R152, R159). -/
def State.leqApplyOf (s : State) (n : Nat) (l : List Field) (taps : List Nat) : State :=
  let wasEn := s.use .leqDfeEn n
  let l := if s.edgesOk n then l else l.filter (fun f => f != .leqB1 && f != .leqB2 && f != .leqB3)
  let s := (s.applyShadow l n).each taps (fun i t => t.applyShadow [.leqTapFreeze] n i)
  let s := s.each (taps.filter (fun i => s.on .leqTapWritten n i)) (fun i t =>
    ((t.wrInt .leqTapLive (ffeLimit i (t.rdInt .leqTapShadow n i)) n i).wr .leqTapWritten 0 n i).wr .leqTapDelta 0 n i)
  let s := s.leqD1Put n (s.rdInt .leqD1Live n)
  let s := s.when (s.use .leqDfeEn n == 0) (fun t => t.wr .leqD1Delta 0 n)
  let s := s.when (wasEn == 0 && s.use .leqDfeEn n != 0) (fun t => (t.wr .leqD1Delta 0 n).leqD1Put n 0)
  let s := if s.rd .lrxState n = 0 then s.when (s.mlseChanged n) (fun t => t.mlseApply n)
    else s.wrb .leqMlsePending (s.mlseChanged n) n
  s.thrManual n

/-- The whole equaliser shadow applies (R151). -/
def State.leqCommitApply (s : State) (n : Nat) : State := (s.leqApplyOf n leqShadowed tapIndices).wr .leqCommit 0 n

/-- The adaptation update that waits, with its limits; each one that holds d1 at its limit sets DFE_LIMIT (R128, R132, R154). -/
def State.leqAdaptApply (s : State) (n : Nat) : State :=
  let s := s.each tapIndices (fun i t => (t.wrInt .leqTapLive (ffeLimit i (t.rdInt .leqTapLive n i +
    t.rdInt .leqTapDelta n i)) n i).wr .leqTapDelta 0 n i)
  let s := s.when (s.on .leqD1Delta n) (fun t =>
    let u := t.leqD1Put n (t.rdInt .leqD1Live n + t.rdInt .leqD1Delta n)
    u.when (u.on .leqSnapAtLimit n) (fun v => v.raise .leqIntStatus Irq.leqDfeLimit n))
  s.puts [(.leqD1Delta, 0), (.leqAdaptPend, 0)] n

/-- The adaptation update that waits is dropped: adaptation holds, and accumulation restarts after it (R142). -/
def State.leqAdaptDrop (s : State) (n : Nat) : State :=
  (s.each tapIndices (fun i t => t.wr .leqTapDelta 0 n i)).puts [(.leqD1Delta, 0), (.leqAdaptPend, 0)] n

/-- The readback bank takes the live set (R153). -/
def State.leqSnapshot (s : State) (n : Nat) : State :=
  (s.each tapIndices (fun i t => t.wr .leqTapCoef (t.rd .leqTapLive n i) n i)).puts
    [(.leqD1, s.rd .leqD1Live n), (.leqAtLimit, s.rd .leqSnapAtLimit n), (.leqCoefSnap, 0)] n

/-- Automatic thresholds that wait come into use (R149). -/
def State.thrTake (s : State) (n : Nat) : State :=
  s.when (s.on .leqThrPend n) (fun t => t.puts [(.leqThrActT1, t.rd .leqThrNew n 0), (.leqThrActT2, t.rd .leqThrNew n 1),
    (.leqThrActT3, t.rd .leqThrNew n 2), (.leqThrPend, 0)] n)

/-- What waits in the equaliser for a receive codeword boundary applies, in the order of R154; a commit is held below
warning, an update is dropped while adaptation holds (R142, R155). -/
def State.leqBoundary (s : State) (n : Nat) : State :=
  let restored := s.on .leqRestorePend n
  let s := s.when restored (fun t => (t.leqRestore n).leqAdaptDrop n)
  let s := s.when (s.on .leqCommit n && !s.warning) (fun t => t.leqCommitApply n)
  let held := s.rd .leqMode n == 3 || (s.leqDd n && s.leqHold n != 0)
  let s := s.when (s.on .leqAdaptPend n) (fun t => if held then t.leqAdaptDrop n else t.leqAdaptApply n)
  (s.thrTake n).when (s.on .leqCoefSnap n) (fun t => t.leqSnapshot n)

/-! ## Host lanes (R251 to R254, R272) -/

/-- Host lanes that the crossbar maps to a line lane: A, and B where the map names one (R267). -/
def State.hostsOf (s : State) (n : Nat) : List Nat :=
  s.rd .hifGlbMapHostA 0 n :: (if s.on .hifGlbMapBValid 0 n then [s.rd .hifGlbMapHostB 0 n] else [])

/-- Host lanes in use for a line lane: lane A alone in Extended Host Mode and compatibility mode (R267). -/
def State.activeHosts (s : State) (n : Nat) : List Nat :=
  let m := s.rd .hifGlbMapGbMode 0 n
  if m = 1 ∨ m = 2 then [s.rd .hifGlbMapHostA 0 n] else s.hostsOf n

/-- The line lane a host lane is mapped to, if any. -/
def State.lineOf (s : State) (h : Nat) : Option Nat := (List.range 8).find? (fun n => (s.hostsOf n).contains h)

/-- PAIR_READY of each line lane: its lanes in use READY, of a pair with the skew in range and no shift of it waiting for its
deskew; where it falls the gearbox stops (R271, R272). -/
def State.pairFollow (s : State) : State :=
  s.each (List.range 8) (fun n t =>
    let ready := (t.activeHosts n).all (fun h => t.rd .hifState h = 4) &&
      (decide ((t.activeHosts n).length < 2) || (!t.on .hifGlbPairDeskewOvr 0 n && !t.on .hifPairHold 0 n))
    (t.wrb .hifGlbPairReady ready 0 n).when (!ready) (fun u => u.wr .hifPairRun 0 0 n))

/-- Move a host lane to a state: RX_READY follows READY, with which the sleep of both directions ends; STATE_CHG and a HOST_STATE
record where it changes; the phase the TX FIFO of a READY lane runs with is free (R251, R252, R280, R382, R453, log entry 2). -/
def State.hifSet (s : State) (h st : Nat) : State :=
  let old := s.rd .hifState h
  if old = st then s
  else
    let s := ((s.wr .hifState st h).raise .hifIntStatus Irq.hifStateChg h).emit 0x12 (0x10 + h)
      [st + old * 16 + s.rd .hifFaultCause h * 256]
    let s := s.when (st = 4) (fun t => ((t.wr .hifRxReady 1 h).wrFree .hifFifoPhase h).raise .hifIntStatus Irq.hifRxReady h)
    let s := s.when (old = 4) (fun t => (t.wr .hifRxReady 0 h).when (!t.on .hifSleepRx h)
      (fun u => u.cmis .hostTxLos h))
    let s := s.when (old = 4) (fun t => t.puts [(.hifSleepTx, 0), (.hifSleepRx, 0), (.hifWakeTx, 0), (.hifWakeRx, 0)] h)
    let s := s.when (st ≤ 2 || st = 7) (fun t => (t.wr .hifTxReady 0 h).wr .hifAmLock 0 h)
    s.pairFollow

/-- Causes of R254 with an automatic restart. -/
def hifAutoCause (cause : Nat) : Bool := decide (1 ≤ cause ∧ cause ≤ 6)

/-- Entry of a host lane to FAULT (R254, R411, R414). -/
def State.hifFault (s : State) (h cause : Nat) : State :=
  if s.rd .hifState h = 7 then
    if cause = 8 then (s.wr .hifFaultCause 8 h).wr .hifRestartArm 0 h else s
  else
    let s := ((s.wr .hifFaultCause cause h).hifSet h 7).raise .hifIntStatus Irq.hifFault h
    let s := (s.wrb .hifRestartArm (hifAutoCause cause) h).wr .hifRelockRun 0 h
    let r := s.countEvent 9 h
    if r.2 then (r.1.wr .hifFaultCause 8 h).wr .hifRestartArm 0 h else r.1

/-- Entry of a host lane to CAL (R251, R333). The cause of the last fault stays (R254). -/
def State.hifToCal (s : State) (h : Nat) : State :=
  let s := s.straitFlush (fun w => [0x18 + h / 4, 0x1C + h / 4, 0x30 + h / 4].contains w.strait && w.lane == h)
  (s.puts [(.hifRestartArm, 0), (.hifRelockRun, 0), (.hifRxValid, 0), (.hifCdrLock, 0), (.hifAmLock, 0)] h).hifSet h 1

/-- The device requests the preset named by INIT_PRESET of the host transmitter; with TRN_EN 0 or below warning no request goes
out (R261, R262, R282). -/
def State.hifAskPreset (s : State) (h : Nat) : State :=
  let send := s.on .hifTrnEn h && !s.warning
  s.puts [(.hifTrnReqs, bit send), (.hifTrnAsk, bit send), (.hifTrnAskArg, if send then s.rd .hifInitPreset h else 0)] h

/-- A new training attempt: the CTLE sweep from CTLE_MIN, or the manual code, with the limits of this moment and no request
sent but the preset (R253, R257, R261, R262, R282, R284). The VGA starts as R512 has it of a line lane (DESIGN CHOICE, log entry 63). -/
def State.hifTrainStart (s : State) (h : Nat) : State :=
  let man := s.on .hifCtleManEn h
  let s := (s.puts [(.hifTrnDone, 0), (.hifTrnSweepCode, s.use .hifCtleMin h), (.hifTrnSweepFom, 0), (.hifVga, 48),
    (.hifTuneTap, 0), (.hifTuneStage, 0), (.hifTuneFom, 0), (.hifTuneKept, 0), (.hifSweepMax, s.use .hifCtleMax h),
    (.hifSweepMan, bit man)] h).hifAskPreset h
  s.puts [(.hifLocalReady, 0), (.hifHostAdv, 0), (.hifTxReady, 0), (.hifVgaFrozen, 0), (.hifTrnPhase, 1), (.hifRxCtle,
    if man then s.rd .hifCtleManCode h else s.use .hifCtleMin h)] h

/-- A transparent lane in ALIGN whose ALIGN_DONE is 1 is READY, once its CDR does not wait for lock (R251, R254, R277). -/
def State.hifAmDone (s : State) (h : Nat) : State :=
  match s.lineOf h with
  | some n => if s.transparent n && s.on .hifAlignDone h && !s.on .hifRelockRun h then s.hifSet h 4 else s
  | none => s

/-- Start of alignment: no AM seen (R251, R270, R277). -/
def State.hifAmStart (s : State) (h : Nat) : State :=
  (s.puts [(.hifAmMatch, 0), (.hifAmMiss, 0), (.hifAmLock, 0)] h).hifAmDone h

/-- Training of a host lane starts; on entry to TRAIN from another state the retry count starts from 0 (R253). -/
def State.hifToTrain (s : State) (h : Nat) : State :=
  let s := (s.puts [(.hifRestartArm, 0), (.hifRelockRun, 0)] h).when (s.rd .hifState h != 2) (fun t => t.wr .hifTrnRetry 0 h)
  (s.hifSet h 2).hifTrainStart h

/-- Entry of a host lane to ALIGN (R251, R253, R270); the VGA freezes at the end of TRAIN (R255). -/
def State.hifToAlign (s : State) (h : Nat) : State :=
  ((s.puts [(.hifRestartArm, 0), (.hifTrnRetry, 0), (.hifTrnPhase, 0), (.hifVgaFrozen, 1)] h).hifSet h 3).hifAmStart h

/-- Entry to ALIGN with the CDR out of lock: it locks again from its held state within RELOCK_US. TX_READY, which 'stays set
in ALIGN and READY', is set again where a restart from FAULT leads here (R252, R254, R258; DESIGN CHOICE, log entry 63). -/
def State.hifRelock (s : State) (h : Nat) : State :=
  ((s.puts [(.hifCdrLock, 0), (.hifQuietInt, 0), (.hifRelockRun, 1)] h).hifToAlign h).wr .hifTxReady 1 h

/-- Every PCS lane of a port is AM-locked, in egress on its host lanes, in ingress in the released streams (R279). -/
def State.monLanes (s : State) (g : PortGroup) (egress : Bool) : Bool :=
  if egress then (g.lanes.flatMap s.activeHosts).all (fun h => s.on .hifAmLock h)
  else g.lanes.all (fun n => s.on .hifGlbPairAmLockIng 0 n)

/-- The shadowed fields of a host lane (R284). -/
def hifShadowed : List Field :=
  [.hifPreset, .hifTxPolInv, .hifRxPolInv, .hifDfeEn, .hifFomWin, .hifCtleMin, .hifCtleMax, .hifKpSh, .hifKiSh]

/-- A host FIR coefficient held within its range: c(0) in 0.5 to 1.0, every other within 0.25 (R260). -/
def hifTapLimit (i : Nat) (v : Int) : Int := if i = 3 then clampInt 512 1024 v else clampInt (-256) 256 v

/-- Put tap `i` in use, held so that the magnitudes sum to 1.0 at most (R260). -/
def State.hifSetTap (s : State) (h i : Nat) (v : Int) : State :=
  let others : Nat := ((List.range 5).filter (· ≠ i)).foldl (fun a k => a + (s.rdInt .hifTxTap h k).natAbs) 0
  let room : Int := (1024 - others : Nat)
  let w := hifTapLimit i v
  s.wrInt .hifTxTap (if i = 3 then max 512 (min w room) else clampInt (-room) room w) h i

/-- Shadowed fields and written taps of a host lane apply, main tap first (R260, R284). -/
def State.hifApplyOf (s : State) (h : Nat) (l : List Field) (taps : List Nat) : State :=
  let s := s.applyShadow l h
  let s := if s.use .hifDfeEn h = 0 then s.puts [(.hifDfeD1, 0), (.hifDfeD2, 0)] h else s
  let new := taps.filter (fun i => s.on .hifTapWritten h i)
  let target := new.map (fun i => (i, s.rdInt .hifTapShadow h i))
  let s := s.each new (fun i t => (t.wr .hifTapWritten 0 h i).wr .hifTxTap (if i = 3 then 512 else 0) h i)
  let s := s.each (target.filter (fun e => e.1 = 3)) (fun e t => t.hifSetTap h e.1 e.2)
  s.each (target.filter (fun e => e.1 ≠ 3)) (fun e t => t.hifSetTap h e.1 e.2)

/-- The whole host shadow applies (R284). -/
def State.hifApply (s : State) (h : Nat) : State := (s.hifApplyOf h hifShadowed (List.range 5)).wr .hifCommit 0 h

/-- A host lane goes to OFF, where a waiting shadow applies at once (R251, R284). -/
def State.hifOff (s : State) (h : Nat) : State :=
  let s := (s.puts [(.hifRestartArm, 0), (.hifRelockRun, 0), (.hifRxValid, 0), (.hifCdrLock, 0), (.hifTrnPhase, 0),
    (.hifTrnDone, 0)] h).hifSet h 0
  s.hifApply h

/-- EHM_STATE of every lane of a group (R264). -/
def State.setEhm (s : State) (g : PortGroup) (v : Nat) : State :=
  s.each g.lanes (fun n t =>
    let w := t.rd .hifGlbEhmState
    t.wr .hifGlbEhmState (w - w / 16 ^ n % 16 * 16 ^ n + v * 16 ^ n))

/-- The line mode of a lane's group becomes compatibility: host lane A carries it alone and lane B is in OFF; a group in
Extended Host Mode trains again in standard mode (R206, R266, R267). -/
def State.hostsCompat (s : State) (g : PortGroup) : State :=
  let ext := g.lanes.any (fun n => s.rd .hifGlbMapGbMode 0 n == 1)
  let s := s.each g.lanes (fun n t =>
    let a := t.rd .hifGlbMapHostA 0 n
    let t := t.wr .hifGlbMapGbMode 2 0 n
    let t := t.when (t.on .hifGlbMapBValid 0 n) (fun u => u.hifOff (u.rd .hifGlbMapHostB 0 n))
    t.when (ext && t.on .hifEnable a && decide (t.rd .hifState a ≠ 0) && !(t.rd .hifState a = 7 && t.rd .hifFaultCause a = 8))
      (fun u => (u.wr .hifRate 0 a).hifToTrain a))
  (s.when ext (fun t => t.setEhm g 1)).pairFollow

/-- An enabled host lane that its line lane had no use for comes back from OFF (R251, R267, R372, R401, R420). -/
def State.hifReturn (s : State) (n h : Nat) : State :=
  s.when (s.on .hifEnable h && !s.on .hifHeldOff h && s.rd .hifState h == 0 && s.rd .pwrDevState != 1 &&
    s.rd .pwrDevState != 2 && !s.on .thmLnShutdown 0 n) (fun t => t.hifToCal h)

/-- The group leaves compatibility mode: lane B of each line lane comes back (R206, R267). -/
def State.hostsNative (s : State) (g : PortGroup) : State :=
  (s.each (g.lanes.filter (fun n => s.rd .hifGlbMapGbMode 0 n == 2)) (fun n t =>
    (t.wr .hifGlbMapGbMode 0 0 n).when (t.on .hifGlbMapBValid 0 n) (fun u => u.hifReturn n (u.rd .hifGlbMapHostB 0 n)))).pairFollow

/-- GB_MODE of a line lane in standard mode: 3 transparent, 0 Ethernet pair, and 2 where the lane's mode is
compatibility (R267). -/
def State.gbBase (s : State) (n : Nat) : Nat :=
  if s.rd .hifGlbMapGbMode 0 n = 2 then 2 else if s.transparent n then 3 else 0

/-- Host lanes the crossbar maps to a group. -/
def State.groupHosts (s : State) (g : PortGroup) : List Nat := g.lanes.flatMap s.hostsOf

/-- No host lane of the group is out of OFF: its host mode is standard again, with the advertisement (R264, R265). -/
def State.ehmReset (s : State) (g : PortGroup) : State :=
  let s := s.each g.lanes (fun n t => t.wr .hifGlbMapGbMode (t.gbBase n) 0 n)
  (s.setEhm g (if g.extended then 5 else 0)).wr .hifEhmAdvOff 0 g.lead

/-- A host lane leaves OFF for CAL where it is mapped and nothing holds it (R251, R265, R372, R401, R420). -/
def State.hifStart (s : State) (h : Nat) : State :=
  if s.rd .hifState h = 0 ∧ !s.on .hifHeldOff h ∧ (s.lineOf h).isSome ∧ s.rd .pwrDevState ≠ 1 ∧ s.rd .pwrDevState ≠ 2 ∧
      !s.on .thmLnShutdown 0 ((s.lineOf h).getD 0) ∧ s.rd .glbBootStage ≠ 9 then
    let g := s.groupOf ((s.lineOf h).getD 0)
    let s := s.when ((s.groupHosts g).all (fun k => s.rd .hifState k = 0)) (fun t => t.ehmReset g)
    let odd := g.lanes.any (fun n => s.rd .hifGlbMapGbMode 0 n = 1 && !(s.activeHosts n).contains h && (s.hostsOf
      n).contains h)
    let compatB := g.lanes.any (fun n => s.rd .hifGlbMapGbMode 0 n = 2 && s.on .hifGlbMapBValid 0 n &&
      s.rd .hifGlbMapHostB 0 n = h)
    if odd || compatB then s else s.hifToCal h
  else s

/-! ## Service channel and profile as the lane states see them (R203, R207, R211, R218, R219) -/

/-- Send a message: it takes the next SEQ, skipping 0, or waits behind the one in flight (R203). -/
def State.svcSend (s : State) (n type len body : Nat) (tag : Nat := 0) : State :=
  if s.rd .lfrTxType n = 0 then
    let q := s.rd .lfrTxSeq n
    s.puts [(.lfrTxSeq, if q = 255 then 1 else q + 1), (.lfrTxType, type), (.lfrTxLen, len), (.lfrTxBody, body),
      (.lfrTxTag, tag)] n
  else { s with svcQ := s.svcQ ++ [⟨n, type, len, body, tag⟩] }

/-- A message not yet acknowledged is dropped, with those behind it; no SEQ is used again (R203). -/
def State.svcDrop (s : State) (n : Nat) : State :=
  { s.wr .lfrTxType 0 n with svcQ := s.svcQ.filter (fun m => m.lane ≠ n) }

/-- The CDB command in progress ends with a status (R446). -/
def State.cdbEnd (s : State) (status : Nat) : State := s.puts [(.cdbStatus, status), (.cdbTapRun, 0)]

/-- ASYM compares the two directions' profiles (R217). -/
def State.asymFollow (s : State) (n : Nat) : State :=
  s.wrb .lfrProfAsym (s.rd .lfrProfActive n != s.rd .lfrPartProf n) n

/-- A profile request ends with a status and a side; one other than DONE sets PROFILE_FAIL (R214, R219, R453). -/
def State.profEnd (s : State) (n status side : Nat) : State :=
  let s := s.puts [(.lfrProfStatus, status), (.lfrProfSide, side), (.lfrProfChange, 0), (.lfrReqOpen, 0), (.lfrReqAcc, 0),
    (.lfrReqForced, 0)] n
  let old := if status = 0 then s.rd .lfrSwOld n else s.rd .lfrProfActive n
  let new := if status = 0 then s.rd .lfrProfActive n else s.rd .lfrReqProf n
  (s.emit 0x41 n [old + new * 4 + status * 16 + side * 256]).raise .lfrIntStatus
    (if status = 0 then Irq.lfrProfileDone else Irq.lfrProfileFail) n

/-- Before its switch boundary a request ends with ABORTED and nothing changes; after it the change is complete. SIDE of an
aborted request reads 0, local, where R218 names none (R218, DESIGN CHOICE, log entry 65). -/
def State.profAbort (s : State) (n : Nat) : State :=
  let s := s.when (s.on .lfrAwaitRel n) (fun t => (t.wr .lfrAwaitRel 0 n).profEnd n 0 0)
  let s := s.puts [(.lfrSwPend, 0), (.lfrReplyWait, 0)] n
  s.when (s.on .lfrReqOpen n) (fun t => t.profEnd n 8 0)

/-- Ingress AM lock of a line lane is lost (R270, R273). The released stream of a lane that leaves its traffic ends, and
the lock with it (DESIGN CHOICE, log entry 67). -/
def State.ingressUnlock (s : State) (n : Nat) : State :=
  ((s.wr .hifGlbPairAmLockIng 0 0 n).wr .hifIngMatch 0 0 n).wr .hifIngMiss 0 0 n

/-- The lane leaves TRAIN, LOCKED and SERVICE: messages dropped, requests ended, negotiation IDLE (R203, R211, R218). -/
def State.lfrLeave (s : State) (n : Nat) : State :=
  let s := (((s.profAbort n).svcDrop n).exchMiss n).ingressUnlock n
  let s := s.when (s.on .cdbTapRun && s.rd .cdbTapLane == n) (fun t => t.cdbEnd 0x40)
  s.puts [(.lfrNegState, 0), (.lfrProfAsym, 0), (.lfrCand, 0), (.lfrConfGot, 0), (.lfrDiscLeft, 0), (.lfrGapOn, 0),
    (.lfrIcrisUse, 0), (.lfrPrecRxUse, 0), (.lfrResPend, 0)] n

/-- Compatibility mode is open to Ethernet groups of 2 or 4 lanes (R206). -/
def compatAdmitted (g : PortGroup) : Bool := (g.count == 2 || g.count == 4) && g.payload != .transparent

/-- NATIVE_EN and COMPAT_EN in force for the group of a lane, the second only where R206 admits the mode (R207). -/
def State.rates (s : State) (n : Nat) : Bool × Bool :=
  (s.use .lfrNativeEn n != 0, s.use .lfrCompatEn n != 0 && compatAdmitted (s.groupOf n))

/-- The transmitter of a lane takes a format: at once unless it is ACTIVE, where it waits for the frame boundary (R207). -/
def State.compatFormat (s : State) (n : Nat) (compat : Bool) : State :=
  if s.rd .ltxState n = 4 then s.wrb .lfrCompatPend (s.on .lfrCompatTx n != compat) n
  else s.puts [(.lfrCompatTx, bit compat), (.lfrCompatPend, 0)] n

/-- The lead lane's enables take effect for a lane at renegotiation and at entry to CAL. Before the group has a mode they
choose the format its transmitter sends: compatibility where they leave that rate alone, else native; where they leave no
rate, NO_RATE and the native format (R207, R219). -/
def State.lfrLatch (s : State) (n : Nat) : State :=
  let lead := (s.groupOf n).lead
  let s := s.each [.lfrTapAccept, .lfrDjPrecode, .lfrCompatEn, .lfrNativeEn] (fun f t => t.setUse f (t.rd f lead) n)
  let r := s.rates n
  let s := s.wrb .lfrNoRate (!r.1 && !r.2) n
  if s.rd .lfrGroupMode n = 0 ∨ s.on .lfrNoRate n then s.compatFormat n (!r.1 && r.2) else s

/-- The rate of a lane's first attempt after CAL: the group's mode, the lead lane's rate, or native unless only
compatibility is permitted (R207). -/
def State.rateFirst (s : State) (n : Nat) : Nat :=
  let lead := (s.groupOf n).lead
  let r := s.rates n
  if s.rd .lfrGroupMode n ≠ 0 then s.rd .lfrGroupMode n - 1
  else if lead ≠ n then s.rd .lfrDiscRate lead else bit (!r.1 && r.2)

/-- The group takes a mode, and host lanes follow it; transmitters change format at a frame boundary, and the side channel
runs in compatibility mode (R206 to R208, R266, R267). -/
def State.setGroupMode (s : State) (n mode : Nat) : State :=
  let g := s.groupOf n
  let s := s.each g.lanes (fun k t =>
    let r := t.rates k
    let t := t.puts [(.lfrGroupMode, mode), (.lfrDiscRate, mode - 1), (.lfrSideOn, bit (mode = 2))] k
    t.compatFormat k (decide (mode = 2) || (decide (mode = 0) && !r.1 && r.2)))
  if mode = 2 then s.hostsCompat g else s.hostsNative g

/-! ## Holding lanes in OFF -/

/-- The device lets lanes leave OFF: it is neither in Standby nor on its way there (R372), and the lane's thermal
shutdown and a failed self-test do not hold it in OFF (R401, R420); in the no-image state every lane stays there (R60). -/
def State.laneFree (s : State) (n : Nat) : Bool :=
  s.rd .pwrDevState != 1 && s.rd .pwrDevState != 2 && !s.on .thmLnShutdown 0 n && !s.on .lrxHeldOff n && !s.on .hltFailXbar &&
    s.rd .glbBootStage != 9

/-! ## Line receive (R112 to R119) -/

/-- Move the lane to a state: STATE_CHG and a LANE_STATE record where it changes; what ends with TRAIN, LOCKED and
SERVICE ends, a receive sleep, runs of windows and a waiting trim step among it; a change of the data path state latches its flag (R91, R93,
R94, R112, R121, R147, R203, R393, R445, R453). -/
def State.lrxSet (s : State) (n st : Nat) : State :=
  let old := s.rd .lrxState n
  if old = st then s
  else
    let path := s.dataPath n
    let was := decide (3 ≤ old ∧ old ≤ 5)
    let now := decide (3 ≤ st ∧ st ≤ 5)
    let s := s.when (was != now) (fun t => t.puts [(.lrxCapWin, 0), (.lrxDropWin, 0), (.lrxTrimStep, 0)] n)
    let s := s.when (decide (4 ≤ old ∧ old ≤ 5) && !decide (4 ≤ st ∧ st ≤ 5)) (fun t =>
      t.puts [(.leqFomLowWin, 0), (.leqFomHighWin, 0)] n)
    let s := s.when (was && !now) (fun t => (t.lfrLeave n).puts [(.lrxSleep, 0), (.lrxWakeRun, 0), (.pwrLnLrxPstate, 0)] n)
    let s := s.wr .lrxState st n
    let s := s.when (s.dataPath n != path) (fun t => t.cmis .dpChanged n)
    (s.raise .lrxIntStatus Irq.lrxStateChg n).emit 0x10 n
    [st + old * 16 + s.rd .lrxFaultCause n * 256]

/-- The receive boundary grid runs: not in OFF, CAL and FAULT (R127). -/
def State.rxGrid (s : State) (n : Nat) : Bool := decide (2 ≤ s.rd .lrxState n ∧ s.rd .lrxState n ≤ 5)

/-- The AGC's state where VGA_MAN_EN is 0: RUN, HOLD or FROZEN by the lane state. In OFF, CAL, WAIT_SD and FAULT, for which
R512 names none, it is RUN (DESIGN CHOICE, log entry 60) (R89, R512). -/
def State.agcCalled (s : State) (n : Nat) : Nat :=
  let st := s.rd .lrxState n
  if st = 3 ∨ st = 4 ∨ st = 5 then 2 else if st = 2 ∧ 2 ≤ s.rd .lrxAcqPhase n then 1 else 0

/-- The shadowed fields of the line receive block (R124). -/
def lrxShadowed : List Field :=
  [.lrxPreset, .lrxVgaManEn, .lrxVgaManCode, .lrxCtlePeak, .lrxTrimRange, .lrxTrimEn, .lrxAgcSh, .lrxAgcTarget,
   .lrxOfsBw, .lrxCdrHold, .lrxKiShTrk, .lrxKpShTrk, .lrxKiShAcq, .lrxKpShAcq]

/-- A background step in progress is abandoned, the slice map unchanged; the scheduler starts it again later (R98). -/
def State.lrxAbandon (s : State) (n : Nat) : State :=
  let s := s.when (s.on .lrxCalActive n) (fun t => t.wr .hltAdcDue 1 n)
  ((s.wr .lrxCalActive 0 n).wr .lrxSwapReady 0 n).wr .lrxSwapDeferred 0 n

/-- Shadowed fields of the receive block apply. VGA_MAN_EN = 1 enters MANUAL, which ends a waiting trim step, the run of
capture windows and a calibration step, as a step runs in FROZEN alone; 0 leaves it (R45, R89, R98, R512, log entry 60). -/
def State.lrxApplyOf (s : State) (n : Nat) (l : List Field) : State :=
  let was := s.use .lrxVgaManEn n != 0
  let s := s.applyShadow l n
  let now := s.use .lrxVgaManEn n != 0
  if now then
    ((s.wr .lrxVgaCode (min (s.use .lrxVgaManCode n) 192) n).puts [(.lrxAgcState, 3), (.lrxCapWin, 0), (.lrxTrimStep,
      0)] n).when
      (!was) (fun t => t.lrxAbandon n)
  else if was then
    let s := s.wr .lrxAgcState (s.agcCalled n) n
    s.when (s.rd .lrxAgcState n = 2) (fun t => (t.wr .lrxFrozenCode (t.rd .lrxVgaCode n) n).wr .lrxTrim 0 n)
  else s

/-- The whole receive shadow applies (R45, R124). -/
def State.lrxApply (s : State) (n : Nat) : State := (s.lrxApplyOf n lrxShadowed).wr .lrxCommit 0 n

/-- A trim step that waits moves the VGA code and TRIM by one step of 0.125 dB; TRIM counts a step that the end of the code
range swallows too, which R91 leaves open (R91, DESIGN CHOICE, log entry 60). -/
def State.trimApply (s : State) (n : Nat) : State :=
  let d : Int := if s.rd .lrxTrimStep n = 1 then 1 else -1
  let s := s.wr .lrxTrimStep 0 n
  (s.wr .lrxVgaCode (clampInt 0 192 (s.rd .lrxVgaCode n + d)).toNat n).wrInt .lrxTrim (s.rdInt .lrxTrim n + d) n

/-! ## Admission of ADC calibration steps (R98, R426 to R428, R431) -/

/-- A due ADC step is startable: TRAIN, LOCKED or SERVICE, AGC FROZEN, awake, a spare left, not under test, and no
supply warning (R98, R100, R426, R431). -/
def State.adcStartable (s : State) (n : Nat) : Bool :=
  s.on .hltAdcDue n && s.maskBit .hltAdcBgEn n && decide (3 ≤ s.rd .lrxState n ∧ s.rd .lrxState n ≤ 5) &&
    s.rd .lrxAgcState n == 2 && !s.on .lrxSleep n && !s.on .lrxNoSpare n && !s.underTest 1 n && !s.warning

/-- Start the step of a lane; `esc` says that it escalated (R97, R428). -/
def State.adcStart (s : State) (n : Nat) (esc : Bool) : State :=
  let s := s.puts [(.lrxCalActive, 1), (.lrxSwapReady, 0), (.lrxSwapDeferred, 0)] n
  let s := s.puts [(.hltAdcDue, 0), (.hltLnAdcAge, 0), (.hltLnEscAdc, bit esc)] n
  s.when esc (fun t => (t.bump .hltEscCnt).raise .hltIntStatus Irq.hltCalEscalate)

/-- Admit startable steps, the oldest first and the lower lane on equal age, while fewer than CAL_MAX_LANES lanes shadow
a step; at most `k` of them (R427). -/
def State.adcAdmit (s : State) : Nat → State
  | 0 => s
  | k + 1 =>
    let running := ((List.range 8).filter (fun n => s.on .lrxCalActive n)).length
    let best := ((List.range 8).filter (fun n => s.adcStartable n)).foldl (fun (w : Option Nat) n => match w with
      | some m => if s.rd .hltLnAdcAge m < s.rd .hltLnAdcAge n then some n else w
      | none => some n) none
    match best with
    | some n => if running < s.rd .hltCalMaxLanes then (s.adcStart n false).adcAdmit k else s
    | none => s

/-- The spare takes the corrections of its step and the target position, and the displaced slice becomes the spare; the next target is
the next position, and the swap counts as a calibration (R97, R99, R429, R430). -/
def State.sliceSwap (s : State) (n : Nat) : State :=
  let spare := s.rd .lrxAdcSpare n
  let p := s.rd .lrxAdcTarget n
  let old := s.rd .lrxSliceOfPos n p
  let s := ((s.wr .lrxSliceOfs (s.rd .lrxNewOfs n) n spare).wr .lrxSliceGain (s.rd .lrxNewGain n) n spare).wr .lrxSliceSkew
    (s.rd .lrxNewSkew n) n spare
  let s := (s.wr .lrxSliceOfPos spare n p).puts [(.lrxAdcSpare, old), (.lrxAdcTarget, (p + 1) % 64), (.lrxSwapReady, 0),
    (.lrxCalActive, 0), (.lrxSwapDeferred, 0)] n
  ((s.bump .hltLnRxCnt n).wr .hltLnRxTime s.todWords n).adcAdmit 1

/-- Everything that waits for a receive codeword boundary applies (R45, R91, R97, R104, R154). -/
def State.rxBoundary (s : State) (n : Nat) : State :=
  let s := s.leqBoundary n
  let s := s.when (s.on .lrxCommit n) (fun t => t.lrxApply n)
  let s := s.when (s.on .lrxTrkPend n) (fun t => t.puts [(.lrxTrkGains, 1), (.lrxTrkPend, 0)] n)
  let s := s.when (s.on .lrxTrimStep n) (fun t => if t.warning then t else t.trimApply n)
  s.when (s.on .lrxSwapReady n && !s.on .lrxSwapDeferred n && !s.warning) (fun t => t.sliceSwap n)

/-- Entry to ACQUIRE at a sub-phase without start values; frame lock is given up. AGC_STATE keeps the state it had until
the AGC sub-phase starts, also in WAIT_SD and CAL, where R89 names none (R113, R116, DESIGN CHOICE, log entry 60). -/
def State.lrxAcquireAt (s : State) (n ph : Nat) : State :=
  let s := (((s.lrxAbandon n).wr .lrxAcqPhase ph n).wr .lrxQuietInt 0 n).wr .lfrFrameLock 0 n
  let s := s.puts [(.lfrH1Valid, 0), (.lfrH1Count, 0), (.lfrShadowValid, 0), (.lfrShCount, 0), (.lfrBadRun, 0),
    (.lfrH2Match, 0)] n
  let s := ((s.lrxSet n 2).wr .lrxTrkGains 0 n).wr .lrxTrkPend 0 n
  s.leqFollow n

/-- The integral path of the CDR takes its start value (R92, R115). -/
def State.cdrStart (s : State) (n : Nat) : State := s.puts [(.lrxCdrInt, 0), (.lrxCdrFreq, 0)] n

/-- Start of the AGC sub-phase: VGA start value 48 (or the manual code), CDR and equaliser start values (R512, R129,
R115). -/
def State.lrxStartAgc (s : State) (n : Nat) : State :=
  let man := s.use .lrxVgaManEn n != 0
  let s := s.lrxAcquireAt n 1
  let s := ((s.wr .lrxVgaCode (if man then min (s.use .lrxVgaManCode n) 192 else 48) n).wr
    .lrxAgcState (if man then 3 else 0) n).wr .lrxGoodWin 0 n
  let s := (s.cdrStart n).puts [(.lrxCapWin, 0), (.lrxCdrLock, 0), (.lrxTrim, 0)] n
  let s := ((s.leqStart n).wr .leqFomValid 0 n).wr .leqBlindConv 0 n
  s.leqFollow n

/-- Entry to ACQUIRE at WAIT_SD with the equaliser's start values, which an asserted SD completes at once where a rate is
permitted. The count of capture restarts starts again, after a loss of SD in ACQUIRE too, of which R109 says only that it uses
no retry (DESIGN CHOICE, log entry 60) (R92, R113, R129, R138, R207). -/
def State.lrxWaitSd (s : State) (n : Nat) : State :=
  let s := (s.leqStart n).wr .lrxCapRestarts 0 n
  if s.on .lrxSd n && !s.on .lfrNoRate n then s.lrxStartAgc n else s.lrxAcquireAt n 0

/-- Entry to the CDR sub-phase with the AGC in HOLD (R113, R116). -/
def State.lrxCdrPhase (s : State) (n : Nat) : State :=
  let s := (s.lrxAcquireAt n 2).wr .lrxCdrLock 0 n
  (s.when (s.rd .lrxAgcState n != 3) (fun t => t.wr .lrxAgcState 1 n)).leqFollow n

/-- Entry to the FFE sub-phase: an MLSE change that waits takes effect, blind adaptation starts (R137, R138). -/
def State.lrxFfePhase (s : State) (n : Nat) : State :=
  let pend := s.on .leqMlsePending n
  let s := (s.lrxAcquireAt n 3).when pend
    (fun t => t.mlseApply n)
  ((s.puts [(.leqBlindConv, 0), (.leqConvWin, 0), (.leqLowWin, 0)] n).leqD1Put n 0).leqFollow n

/-- A lane takes a rate; where the lead lane's rate changes, the other lanes of the group that acquire restart at AGC. Their
counts of capture restarts go on, as R207 does not call the restart a new attempt (DESIGN CHOICE, log entry 60) (R92, R207). -/
def State.ratePut (s : State) (n rate : Nat) : State :=
  let g := s.groupOf n
  if g.lead = n ∧ rate ≠ s.rd .lfrDiscRate n then
    s.each g.lanes (fun k t =>
      let t := t.wr .lfrDiscRate rate k
      if k ≠ n ∧ t.rd .lrxState k = 2 ∧ t.rd .lrxAcqPhase k ≠ 0 then t.lrxStartAgc k else t)
  else s.wr .lfrDiscRate rate n

/-- Entry to CAL: start values, steps abandoned, straits flushed (R112, R129, R333). -/
def State.lrxToCal (s : State) (n : Nat) : State :=
  let s := (((s.lrxAbandon n).lrxSet n 1).lfrLatch n).straitFlush (fun w => [n, 0x20 + n, 0x28 + n,
    0x34 + n].contains w.strait)
  let s := s.ratePut n (s.rateFirst n)
  let s := s.wr .lrxCdrLock 0 n
  let s := ((s.leqStart n).wr .leqFomValid 0 n).wr .lfrFrameLock 0 n
  ((s.puts [(.leqBlindConv, 0), (.lrxAcqPhase, 0), (.lrxTrimStep, 0),
    (.timDriftSeen, 0), (.timDriftWait, 1)] n).leqFollow n).rxBoundary n

/-- Causes of R118 that restart by themselves. -/
def lrxAutoCause (cause : Nat) : Bool := decide (1 ≤ cause ∧ cause ≤ 7)

/-- Entry to FAULT: cause recorded, FAULT set, one lane-fault event; at the source's threshold the cause becomes WINDOW
and no automatic restart follows. From B2 of a partial commit of its group to the table writes the entry waits for them;
of several causes the first waits, or WINDOW (R79, R118, R411, R414; DESIGN CHOICE, log entry 66). -/
def State.lrxFault (s : State) (n cause : Nat) : State :=
  if s.rd .imgState = 5 ∧ !s.on .imgPcWritten ∧ s.maskBit .imgPcLanes n ∧ s.rd .lrxState n ≠ 7 then
    if !s.on .lrxFaultWait n ∨ cause = 8 then s.wr .lrxFaultWait (cause + 1) n else s
  else if s.rd .lrxState n = 7 then
    if cause = 8 then (s.wr .lrxFaultCause 8 n).wr .lrxRestartArm 0 n else s
  else
    let s := (((s.lrxAbandon n).wr .lrxFaultCause cause n).lrxSet n 7).raise .lrxIntStatus Irq.lrxFault n
    let s := (s.wrb .lrxRestartArm (lrxAutoCause cause) n).wr .lfrFrameLock 0 n
    let r := s.countEvent 3 n
    let s := if r.2 then (r.1.wr .lrxFaultCause 8 n).wr .lrxRestartArm 0 n else r.1
    ((s.wr .lrxTrimStep 0 n).leqFollow n).rxBoundary n

/-- The rate alternates from one attempt of the lead lane to the next where both are permitted and the group has no
mode; the other lanes of the group restart at AGC (R207). -/
def State.rateAlternate (s : State) (n : Nat) : State :=
  let g := s.groupOf n
  let r := s.rates n
  if g.lead = n ∧ r.1 ∧ r.2 ∧ s.rd .lfrGroupMode n = 0 then
    s.ratePut n (1 - s.rd .lfrDiscRate n)
  else s

/-- A failed acquisition attempt; the lead lane's next one takes the other rate, also after a FAULT (R115, R207). -/
def State.lrxAttemptFail (s : State) (n cause : Nat) : State :=
  let s := (s.bump .lrxAcqRetryCnt n).wr .lrxCapRestarts 0 n
  if s.rd .lrxRetry n < s.rd .lrxRetryMax n then
    ((s.wr .lrxRetry (s.rd .lrxRetry n + 1) n).rateAlternate n).lrxStartAgc n
  else (s.rateAlternate n).lrxFault n cause

/-- Re-acquisition from TRAIN, LOCKED or SERVICE (R116). -/
def State.lrxInTraffic (s : State) (n : Nat) : Bool :=
  let st := s.rd .lrxState n
  st = 3 || st = 4 || st = 5

/-! ## Optics as the transmit sequences see it (R339, R346, R350) -/

/-- The largest code of range `r` whose current does not exceed `eu` (R336). -/
def euCode (eu r : Nat) : Nat := min 4095 (eu * 2 ^ (3 - r))

/-- The control DACs or the envelope of a lane are under a test that holds its enable pins low (R352, R419). -/
def State.pinsUnderTest (s : State) (n : Nat) : Bool := s.underTest 4 n || s.underTest 7 0

/-- OBIAS goes to its discharge clamp, the ramp ends (R346, R359). -/
def State.optClamp (s : State) (n : Nat) : State :=
  ((((s.wr .optLnClamp 1 n).wr .optLnRamp 0 n).wr .optLnBiasReady 0 n).wr .optRampVal 0 n).wr .optRampDown 0 n

/-! ## Line transmit (R173 to R183) -/

/-- Move the transmit direction to a state: STATE_CHG and a TX_STATE record where it changes; a transmit sleep ends with
ACTIVE (R173, R186, R393, R453). -/
def State.ltxSet (s : State) (n st : Nat) : State :=
  let old := s.rd .ltxState n
  if old = st then s
  else ((s.puts [(.ltxState, st), (.ltxSleep, 0), (.ltxNapWake, 0), (.pwrLnLtxPstate, 0)] n).raise .ltxIntStatus
    Irq.ltxStateChg n).emit 0x11 n
    [st + old * 16 + s.rd .ltxFaultCause n * 256]

/-- Conditions of R174 that fail, as HOLD_REASON shows them: lane OFF, a PLL not locked or with a calibration asked of it,
DAC calibration, envelope off time (R174, R177). -/
def State.ltxHold (s : State) (n : Nat) : Nat :=
  bit (s.rd .lrxState n = 0) + 2 * bit (!s.pllRuns (linePll n) || s.on .pllReqPend (linePll n)) + 4 * bit (!s.on
    .ltxDacCal n) +
    8 * bit (s.on .optLnOffTime n)

/-- Elements of the fields of the line transmit block that a COMMIT applies at a codeword boundary (R190). -/
def ltxShadowed : List (Field × Nat) :=
  [Field.ltxPreset, .ltxPolInv, .ltxPatLevel, .ltxLutEn, .ltxMaskEn, .ltxMaskAct, .ltxMaskAvg,
    .ltxMaskSh].map (fun f => (f, 0)) ++
    (List.range 9).map (fun i => (Field.ltxFirTap, i)) ++
    (List.range 16).flatMap (fun i => [Field.ltxLut0, .ltxLut1, .ltxLut2, .ltxLut3].map (fun f => (f, i))) ++
    (List.range 17).map (fun i => (Field.ltxMaskLimEven, i)) ++ (List.range 16).map (fun i => (Field.ltxMaskLimOdd, i))

/-- The mask monitor discards its running average; a new one starts at the next block (R167). -/
def State.maskDiscard (s : State) (n : Nat) : State :=
  (s.each (List.range 33) (fun j t => t.wr .ltxMaskSum 0 n j)).wr .ltxMaskCnt 0 n

/-- A field whose change ends the running average of the mask monitor (R167). -/
def maskBreaks (f : Field) : Bool := f == .ltxMaskSh || f == .ltxMaskAvg || f == .ltxPatSel

/-- FIR and LUT contents, a commit of which ends the average (R167). -/
def shapeField (f : Field) : Bool := [Field.ltxFirTap, .ltxLut0, .ltxLut1, .ltxLut2, .ltxLut3].contains f

/-- Shadowed elements of the transmit block apply. VALID counts from the setting of MASK_EN; a changed block
rate, average length or pattern and a commit of written FIR or LUT contents end the mask monitor's average (R45, R166, R167). -/
def State.ltxApplyOf (s : State) (n : Nat) (l : List (Field × Nat)) : State :=
  let wasMask := s.use .ltxMaskEn n
  let shape := s.on .ltxShapeSet n && l.any (fun e => shapeField e.1)
  let breaks := shape || l.any (fun e => maskBreaks e.1 && s.rd e.1 n e.2 != s.use e.1 n e.2)
  let s := (s.each l (fun e t => t.applyShadow [e.1] n e.2)).when shape (fun t => t.wr .ltxShapeSet 0 n)
  let s := s.when breaks (fun t => t.maskDiscard n)
  s.when (wasMask == 0 && s.use .ltxMaskEn n != 0) (fun t => (t.wr .ltxMaskValid 0 n).maskDiscard n)

/-- The pattern selection of a commit takes effect (R184). -/
def State.patApply (s : State) (n : Nat) : State :=
  let new := s.rd .ltxPatNew n
  let s := s.when (new != s.use .ltxPatSel n) (fun t => (t.maskDiscard n).wr .ltxPatFrames 0 n)
  (s.setUse .ltxPatSel new n).wr .ltxPatPend 0 n

/-- The transmit shadow applies. PAT_SEL takes effect at once in OFF, else at a frame boundary in ACTIVE, with the value
that it had at the commit (R45, R184, R190). -/
def State.ltxApply (s : State) (n : Nat) : State :=
  let s := (s.ltxApplyOf n ltxShadowed).wr .ltxPatNew (s.rd .ltxPatSel n) n
  let s := if s.rd .ltxState n = 0 then s.patApply n
    else s.wrb .ltxPatPend (s.rd .ltxPatSel n != s.use .ltxPatSel n) n
  s.wr .ltxCommit 0 n

/-- Good cells out of service, longest waiting first (R170). -/
def State.outCells (s : State) (n : Nat) : List Nat :=
  ((List.range 8).map (fun k => s.rd .ltxOutCell n k)).filter (· ≠ 255)

/-- Set the waiting cells; the first is trimmed next (R170). -/
def State.setOutCells (s : State) (n : Nat) (l : List Nat) : State :=
  let s := s.each (List.range 8) (fun k t => t.wr .ltxOutCell (l.getD k 255) n k)
  match l with
  | c :: _ => s.wr .ltxNextIn c n
  | [] => s

/-- The longest-waiting good cell takes the place of each failed active cell (R172). -/
def State.cellRepair (s : State) (n : Nat) : State :=
  s.each (List.range 127) (fun p t =>
    if t.on .ltxCellBad n (t.rd .ltxCellOfPos n p) then
      match t.outCells n with
      | c :: rest => (t.wr .ltxCellOfPos c n p).setOutCells n rest
      | [] => t
    else t)

/-- The slice map and the cell map as the failure marks leave them, from the default maps: the spare serves in place of the
first failed slice, and failed cells give way to cells out of service (R100, R172). -/
def State.mapsOfMarks (s : State) (n : Nat) : State :=
  let k := s.rd .lrxAdcFailed n
  let s := s.when (s.on .lrxNoSpare n) (fun t =>
    (t.when (decide (k < 64)) (fun u => u.wr .lrxSliceOfPos 64 n k)).wr .lrxAdcSpare 0x7F n)
  (s.setOutCells n ((s.outCells n).filter (fun c => !s.on .ltxCellBad n c))).cellRepair n

/-- The trimmed cell takes its trim and the target position, the displaced cell goes out of service, and the swap counts as
a calibration (R170). -/
def State.cellSwap (s : State) (n : Nat) : State :=
  match s.outCells n with
  | [] => s.puts [(.ltxSwapReady, 0), (.ltxCalActive, 0), (.ltxSwapDeferred, 0)] n
  | c :: rest =>
    let p := s.rd .ltxDacTarget n
    let old := s.rd .ltxCellOfPos n p
    let s := ((s.wr .ltxCellTrimOf (s.rd .ltxTrimNew n) n c).wr .ltxCellOfPos c n p).setOutCells n (rest ++ (if s.on
      .ltxCellBad n old then [] else [old]))
    let s := s.puts [(.ltxDacTarget, (p + 1) % 127), (.ltxSwapReady, 0), (.ltxCalActive, 0), (.ltxSwapDeferred, 0)] n
    (s.bump .hltLnTxCnt n).wr .hltLnTxTime s.todWords n

/-- Everything that waits for a line TX codeword boundary applies (R45, R170, R171, R172, R188). -/
def State.txBoundary (s : State) (n : Nat) : State :=
  let s := s.when (s.on .ltxCommit n && !s.warning) (fun t => t.ltxApply n)
  let s := s.cellRepair n
  s.when (s.on .ltxSwapReady n) (fun t => if t.warning then t.wr .ltxSwapDeferred 1 n else t.cellSwap n)

/-- What a disable, fault or sleep entry ends: the background step and the wake pattern (R171, R183). -/
def State.ltxAbandon (s : State) (n : Nat) : State :=
  let s := s.when (s.on .ltxCalActive n) (fun t => t.wr .hltDacDue 1 n)
  let s := ((s.wr .ltxCalActive 0 n).wr .ltxSwapReady 0 n).wr .ltxSwapDeferred 0 n
  ((s.wr .ltxWakeSend 0 n).wr .ltxWakePend 0 n).wr .ltxWakeRun 0 n

/-- The transmit direction powers down to OFF, where what waits for a boundary applies at once (R45, R177). -/
def State.ltxOff (s : State) (n : Nat) : State :=
  let s := s.ltxAbandon n
  let s := ((((s.wr .ltxDrvEn 0 n).wr .ltxLsrEn 0 n).wr .ltxMuted 1 n).wr .ltxDacOn 0 n).wr .ltxDacCal 0 n
  let s := s.puts [(.ltxDacCalRun, 0), (.ltxCalWait, 0), (.ltxHoldRun, 0), (.ltxActPend, 0)] n
  let s := (s.wr .ltxPrecodeAct 0 n).ltxSet n 0
  (s.when (s.on .ltxPatPend n) (fun t => t.patApply n)).txBoundary n

/-- Entry to CAL from OFF, which starts the foreground calibration; a valid retained record leaves only the interleave
skew (R169, R173, R373). -/
def State.ltxToCal (s : State) (n : Nat) : State :=
  let run := if s.on .ltxRecValid n then 2 else 1
  ((s.puts [(.ltxDacOn, 1), (.ltxDacCal, 0), (.ltxCalWait, 0), (.ltxRecValid, 0)] n).wr .ltxDacCalRun run n).ltxSet n 1

/-- The pending flag, HOLD_REASON and the pending timeout follow the conditions of R174 (R174, R175). -/
def State.ltxRecheck (s : State) (n : Nat) : State :=
  let s := s.when (s.on .ltxTxEn n && s.rd .ltxState n = 0 && s.rd .lrxState n != 0 && !s.on .ltxHeldOff n)
    (fun t => t.ltxToCal n)
  let r := s.ltxHold n
  let pend := s.on .ltxTxEn n && decide (s.rd .ltxState n ≤ 1) && r != 0
  let s := s.when (pend && !s.on .ltxTxenPending n) (fun t => t.raise .ltxIntStatus Irq.ltxTxenPending n)
  let s := (s.wrb .ltxTxenPending pend n).wr .ltxHoldReason (if pend then r else 0) n
  s.wrb .ltxTmoRun (pend && (r.testBit 1 || r.testBit 2)) n

/-- Place of a cause in the fault cause table of R180, first row lowest. -/
def ltxPriority (cause : Nat) : Nat := [0x4, 0x5, 0x2, 0x9, 0x8, 0xB, 0x6, 0x7, 0x3, 0x1, 0xA].idxOf cause

/-- Causes of R180 with an automatic restart. -/
def ltxAutoCause (cause : Nat) : Bool := cause = 6 || cause = 7

/-- The fault sequence of R178 for a cause, with the rules of R180 for a direction already in FAULT. -/
def State.ltxFault (s : State) (n cause : Nat) : State :=
  if s.rd .ltxState n = 7 then
    let s := s.bump .ltxFaultCnt n
    if ltxPriority cause < ltxPriority (s.rd .ltxFaultCause n) then
      (s.wr .ltxFaultCause cause n).wrb .ltxRestartArm (ltxAutoCause cause) n
    else s
  else
    let s := (((s.ltxAbandon n).wr .ltxLsrEn 0 n).wr .ltxMuted 1 n).wr .ltxDrvEn 0 n
    let s := (((s.optClamp n).wr .optFault 1 n).wr .optReleased 0 n)
    let s := ((s.wr .ltxHoldRun 0 n).wr .ltxActPend 0 n).wr .ltxDacOffRun 1 n
    let s := ((s.wr .ltxFaultCause cause n).ltxSet n 7).raise .ltxIntStatus Irq.ltxFault n
    let s := ((s.bump .ltxFaultCnt n).wrb .ltxRestartArm (ltxAutoCause cause) n).wr .ltxTxenPending 0 n
    let s := ((s.wr .ltxHoldReason 0 n).wr .ltxTmoRun 0 n).cmis .txFault n
    let r := s.countEvent 8 n
    if r.2 then (r.1.wr .ltxFaultCause 0xA n).wr .ltxRestartArm 0 n else r.1

/-- The object action of the mask source: FAULT with cause WINDOW (R411, R414). -/
def State.ltxFaultWindow (s : State) (n : Nat) : State :=
  if s.rd .ltxState n = 7 then (s.wr .ltxFaultCause 0xA n).wr .ltxRestartArm 0 n else s.ltxFault n 0xA

/-- Steps 4 and 5 of the disable sequence: DRV_ENn deasserted, then OFF, or CAL pending (R177). -/
def State.ltxDisableEnd (s : State) (n : Nat) : State :=
  let s := (s.wr .ltxDrvEn 0 n).wr .ltxHoldRun 0 n
  if !s.on .ltxTxEn n || s.rd .lrxState n = 0 then (s.ltxOff n).ltxRecheck n
  else (s.ltxSet n 1).ltxRecheck n

/-- Step 3 of the disable sequence: LSR_ENn deasserted, the bias ramps down, DRV_HOLD_US starts (R177, R341). -/
def State.ltxLaserOff (s : State) (n : Nat) : State :=
  let s := ((s.wr .ltxMuted 1 n).wr .ltxLsrEn 0 n).wr .ltxHoldRun 1 n
  ((s.wr .optRampDown 1 n).wr .optLnRamp 1 n).wr .optLnBiasReady 0 n

/-- A disable trigger, by the state it finds; FAULT is left by a write of TX_EN or RESTART alone (R177, R181, R183, R187). -/
def State.ltxDisable (s : State) (n : Nat) : State :=
  let st := s.rd .ltxState n
  if st = 2 ∨ st = 3 ∨ st = 4 then
    let asleep := s.on .ltxSleep n
    let s := ((s.ltxAbandon n).ltxSet n 5).wr .ltxActPend 0 n
    if !s.on .ltxLsrEn n then s.ltxDisableEnd n
    else if asleep then s.ltxLaserOff n
    else s
  else if st = 1 then
    if !s.on .ltxTxEn n || s.rd .lrxState n = 0 then (s.ltxOff n).ltxRecheck n else s.ltxRecheck n
  else s.ltxRecheck n

/-- TX_EN written 0 in FAULT: the direction goes to OFF and its cause clears (R181). -/
def State.ltxFaultEnd (s : State) (n : Nat) : State :=
  if s.rd .ltxState n = 7 then (s.puts [(.ltxFaultCause, 0), (.ltxRestartArm, 0)] n).ltxOff n else s

/-- A capture that OFF ends: what its bins counted is not stated, so they are free (R157, log entry 2). -/
def State.histEnd (s : State) (n : Nat) : State :=
  if s.on .leqHistRun n then (s.each (List.range 128) (fun b t => t.wrFree .leqHist n b)).puts [(.leqHistRun, 0),
    (.leqHistStart, 0)] n else s

/-- The lane goes to OFF from any state, its transmit forced off; the equaliser takes its start values, and the signal
detector goes with ENABLE (R108, R112, R119, R138, R157, R177). A commit that waits applies at once, as the grid stops (R45).
The status BLIND_CONV stays until CAL, where R159 says no more than 'in this acquisition' (DESIGN CHOICE, log entry 60). -/
def State.lrxOff (s : State) (n : Nat) : State :=
  let s := (((s.lrxAbandon n).wr .lrxFaultCause 0 n).lrxSet n 0).wr .lrxRestartArm 0 n
  let s := s.puts [(.lrxRetry, 0), (.lrxCdrLock, 0), (.lrxAcqPhase, 0)] n
  let s := (s.when (!s.on .lrxEnable n) (fun t => t.wr .lrxSd 0 n)).histEnd n
  let s := (s.leqStart n).puts [(.lfrFrameLock, 0), (.leqFomValid, 0)] n
  let s := s.puts [(.lrxMapValid, 0), (.lrxReleased, 0), (.lrxProfApply, 0)] n
  let s := s.when ((s.groupOf n).lanes.all (fun k => s.rd .lrxState k == 0)) (fun t => t.setGroupMode n 0)
  let s := (s.leqFollow n).rxBoundary n
  s.ltxDisable n

/-! ## The envelope (R349, R350) -/

/-- The envelope trips a lane: pins dropped as the ENVELOPE cause, OBIAS clamped, off time started (R350, R351). -/
def State.envTrip (s : State) (n cause : Nat) : State :=
  let granted := s.on .ltxDrvEn n || s.on .ltxLsrEn n || s.rd .ltxState n = 7
  let s := (((s.optClamp n).wr .optFault 1 n).wr .optLnTripCause cause n).bump .optLnTripCnt n
  let s := ((s.raise .optLnIntStatus Irq.optLnTrip n).wr .optLnOffTime 1 n).puts [(.optLnOffRemainMs,
    s.rd .optGlbOffMinMs), (.optOffAt, s.now)] n
  let s := (((s.wr .optTripped 1 n).wr .optProbeRun 0 n).wr .optLnProbe 0 n).emit 0x22 n [cause]
  if granted then s.ltxFault n 4 else s.ltxRecheck n

/-- The envelope permits the lane's pins: its LANE_MASK bit is 1 and no failed test stands against it (R349, R420). -/
def State.envGrants (s : State) (n : Nat) : Bool :=
  s.maskBit .optGlbLaneMask n && !s.maskBit .hltFailCtrlDac n && !s.on .hltFailEnvelope &&
    !(s.on .hltFailMonAdc && s.rd .optLnMonCh n != 31)

end Sys2Proof.Machine
end

