-- ==== Sys2Proof/Machine/Faults.lean ====
section
/-!
DEFINITION. An event at a fault source with what follows from it: the count, the lasting fault and the source's object
action (R409 to R411, R414).
-/
namespace Sys2Proof.Machine

/-- The clock-running bits that software reads follow the domains and the outputs of the PLLs that serve them (R40,
R325, R326). -/
def State.refreshRun (s : State) : State :=
  let gate (p m : Nat) : Nat := if s.on .pllGated p then 0 else m
  let lane := s.rd .pwrDomLane
  let host := s.rd .pwrDomHost
  s.puts [(.glbLaneRun, gate 0 (lane % 16) + gate 1 (lane / 16 * 16)), (.glbDecodeRun, gate 4 (s.rd .pwrDomDecode)),
    (.glbHostRun, gate 2 (host % 4) + gate 3 (host / 4 * 4)),
    (.glbXbarRun, if s.rd .clkXbarSrc = 2 then 0 else s.rd .pwrDomXbar), (.glbTimeRun, s.rd .pwrDomTime)]

/-- The source XBAR runs on: PLL-A where it is LOCKED, else PLL-B, else the present one while its outputs run on a held
setting; FORCE_B leaves PLL-B alone. A restart flushes its straits (R325, R327, R333). -/
def State.xbarFollow (s : State) : State :=
  let cur := s.rd .clkXbarSrc
  let src := if s.on .clkForceB then (if s.pllLocked 1 || !s.on .pllGated 1 then 1 else 2)
    else if s.pllLocked 0 then 0
    else if s.pllLocked 1 then 1
    else if cur < 2 ∧ !s.on .pllGated cur then cur
    else 2
  let s := s.when (cur == 2 && src != 2) (fun t => t.straitFlush onXbar)
  (s.wr .clkXbarSrc src).refreshRun

/-- Move a PLL to a state, with a record where it changes; XBAR takes its source by the new states (R325, R453). -/
def State.pllSet (s : State) (p st : Nat) : State :=
  if s.rd .pllState p = st then s.xbarFollow else ((s.wr .pllState st p).emit 0x31 8 [p + 16 * st]).xbarFollow

/-- The outputs of a PLL are gated: islands on it stop, MGMT moves to its backup, and codewords in stopped decode
islands are discarded; ATC stops with the core PLL, and its islands give no timestamps until two captures after it runs again (R225,
R290, R326, R328, R333). -/
def State.pllGate (s : State) (p : Nat) : State :=
  let s := ((s.when (p == 4 && !s.on .pllGated 4) State.atcStop).wr .pllGated 1 p).capStop p
  let s := s.when (p == 4) (fun t =>
    let t := (t.wr .clkBackup 1).each (List.range 8) (fun c u => u.arcClusterOff c)
    t.each (List.range 128) (fun e u => (u.wr .arcEngSt 0 0 e).wr .arcEngRun 0 0 e))
  s.xbarFollow

/-- The lasting loss-of-lock source takes the PLL to FAILED, where AUTO_RELOCK has no effect (R329). -/
def State.pllFailed (s : State) (p : Nat) : State :=
  ((s.puts [(.pllNoRelock, 1), (.pllLock, 0), (.pllCalRun, 0)] p).pllSet p 5).pllGate p


/-- The object action of a source (R411). Sources 3, 8 and 9 act where their state machine enters FAULT; 14 and 15
have none. -/
def State.objectAction (s : State) (src inst : Nat) : State :=
  match src with
  | 0 | 1 | 2 | 4 | 5 | 6 => s.lrxFault inst 8
  | 7 => s.ltxFaultWindow inst
  | 10 => s.hifFault inst 8
  | 11 => s.pllFailed inst
  | 12 => s.envTrip inst 5
  | 13 => s.envTrip inst 6
  | _ => s

/-- `k` events of one tick at an instance of a source (R409, R410, R411). -/
def State.faultEvent (s : State) (src inst : Nat) (k : Nat := 1) : State :=
  let r := s.countEvent src inst k
  if r.2 then r.1.objectAction src inst else r.1

end Sys2Proof.Machine
end

