-- ==== Sys2Proof/Machine/PowerOps.lean ====
section
/-!
DEFINITION. What the power controller does for every block: recording and carrying out wakes, entering Standby and
Deep, starting and stopping domains, the supply-dependent point of the decode islands.
-/
namespace Sys2Proof.Machine

/-! ## Operating points (R384 to R387) -/

/-- The point a packed field gives to island `c`. -/
def pointOf (v c : Nat) : Nat := v / 4 ^ c % 4

/-- Set the point of island `c` in a packed field. -/
def setPoint (v c p : Nat) : Nat := v - pointOf v c * 4 ^ c + p * 4 ^ c

/-- Supply voltage a point needs, mV (R384). -/
def pointMv (p : Nat) : Nat := 800 - 50 * p

/-- The home lane runs Ristretto (R42, R239). -/
def State.ristretto (s : State) (n : Nat) : Bool := s.rd .lfrProfActive n = 0

/-- ALLOWED_POINTS of a decode island (R66). -/
def State.allowedPoints (s : State) (c : Nat) : Nat :=
  match s.running with
  | some i => (i.clockPlan c).1
  | none => 15

/-- A point outside ALLOWED_POINTS moves to the nearest allowed point of higher performance; Ristretto stops at V2
(R239, R385). -/
def State.adjustPoint (s : State) (c p : Nat) : Nat :=
  let p := if s.ristretto c then min p 2 else p
  let ok := (List.range (p + 1)).filter (fun q => (s.allowedPoints c).testBit q)
  match ok.getLast? with
  | some q => q
  | none => ((List.range 4).find? (fun q => (s.allowedPoints c).testBit q)).getD 0

/-- Point of an island before Trim: the lower of the software request and the thermal forced point; V0 where the regulator's
VOUT_MODE is not linear (R385, R388). -/
def State.basePoint (s : State) (c : Nat) : Nat :=
  if s.on .pwrVoutLinear then s.adjustPoint c (max (pointOf (s.rd .pwrDvfsReq) c) (s.rd .thmLnDvfsSteps 0 c)) else 0

/-- Point an island should run at, Trim included (R368, R385). -/
def State.wantPoint (s : State) (c : Nat) : Nat :=
  if s.on .pwrLnTrim c && s.on .pwrVoutLinear then
    s.adjustPoint c (max (s.basePoint c) (s.rd .pwrLnTrimPoint c))
  else s.basePoint c

/-- Set point of VDD_CORE for the held points of the powered islands (R385). -/
def State.wantMv (s : State) : Nat :=
  let l := ((List.range 8).filter (fun c => s.maskBit .pwrDomDecode c)).map (fun c => pointMv (s.basePoint c))
  l.foldl max (if l.isEmpty then 800 else 0)

/-- Pack a point for each island. -/
def packPoints (f : Nat → Nat) : Nat := (List.range 8).foldl (fun a c => a + f c * 4 ^ c) 0

/-- Start or continue the ordered change towards the requested points: voltage first for a raise. A request that meets a
change replaces its target; a voltage that is being raised goes as high as either asks. Expert mode lowers no voltage by
itself (R386, R387). -/
def State.dvfsKick (s : State) : State :=
  let target := packPoints s.wantPoint
  let mv := s.wantMv
  let s := s.wr .pwrDvfsTarget target
  if s.on .pwrDvfsPhase then
    s.when (s.rd .pwrDvfsPhase == 1) (fun t => t.wr .pwrVoutTarget (max mv (t.rd .pwrVoutTarget)))
  else if !s.on .pwrVoutLinear then s
  else
    let go (p : Nat) : State := s.puts [(.pwrDvfsPhase, p), (.pwrDvfsBusy, 1), (.pwrDvfsStBusy, 1), (.pwrDvfsOld,
      s.rd .pwrDvfsPoint)]
    if s.rd .pwrVoutActMv < mv then (go 1).puts [(.pwrVoutPrev, s.rd .pwrVoutActMv), (.pwrVoutTarget, mv)]
    else if target ≠ s.rd .pwrDvfsPoint then go 2
    else if mv < s.rd .pwrVoutActMv ∧ !s.warning ∧ !s.on .pwrDvfsMode then
      (go 3).puts [(.pwrVoutPrev, s.rd .pwrVoutActMv), (.pwrVoutTarget, mv)]
    else s

/-- One clock step of every island towards its target: raises wait for the voltage and for the supply, lowerings do
not (R247, R386, R390). -/
def State.dvfsStep (s : State) : State :=
  let step := fun (c : Nat) =>
    let p := pointOf (s.rd .pwrDvfsPoint) c
    let q := pointOf (s.rd .pwrDvfsTarget) c
    if p < q then p + 1
    else if q < p ∧ !s.warning ∧ pointMv (p - 1) ≤ s.rd .pwrVoutActMv then p - 1
    else p
  s.wr .pwrDvfsPoint (packPoints step)

/-! ## Wakes (R369, R371) -/

/-- 32.768 kHz ticks since a reading of `State.now`, saturating (R371). -/
def State.ticksSince (s : State) (t0 : Nat) : Nat := min ((s.now - t0) * 32768 / 500000000) (2 ^ 32 - 1)

/-- Record a wake: source, object, state left, time spent, WAKE and its event record (R371, R453). -/
def State.wakeRecord (s : State) (src obj frm ticks : Nat) (held : Bool) : State :=
  let s := s.puts [(.pwrWakeHeld, bit held), (.pwrWakeFrom, frm), (.pwrWakeSource, src), (.pwrWakeObject, obj),
    (.pwrWakeSleptTicks, ticks)]
  (s.raise .pwrIntStatus Irq.pwrWake).emit 0x02 obj [frm * 2 ^ 24 + src * 2 ^ 16 + obj, bit held]

/-- Sleep and wake fields of a host lane in a direction: host TX for ingress, host RX for egress (R366). -/
def hostSleepField (egress : Bool) : Field := if egress then .hifSleepRx else .hifSleepTx

/-- The wake steps of a host lane run (R280). -/
def hostWakeField (egress : Bool) : Field := if egress then .hifWakeRx else .hifWakeTx

/-- State code in which a host lane of a direction sleeps, 0 where it is awake or waking (R364). -/
def State.hostPstate (s : State) (egress : Bool) (h : Nat) : Nat :=
  let k := s.rd (hostSleepField egress) h
  if k = 0 ∨ s.on (hostWakeField egress) h then 0 else if egress then k + 3 else k + 1

/-- State code in which the line block of a direction sleeps, 0 where it is awake or waking (R364). -/
def State.linePstate (s : State) (n : Nat) (egress : Bool) : Nat :=
  if egress then (if s.on .ltxSleep n && !s.on .ltxNapWake n then s.rd .pwrLnLtxPstate n else 0)
  else if s.on .lrxSleep n && !s.on .lrxWakeRun n then s.rd .pwrLnLrxPstate n else 0

/-- Some block of a direction sleeps and is not waking. -/
def State.dirAsleep (s : State) (n : Nat) (egress : Bool) : Bool :=
  s.linePstate n egress != 0 || (s.hostsOf n).any (fun h => s.hostPstate egress h != 0)

/-- Where the phase of a direction rests outside a vote: asleep or idle (R379, R393). -/
def State.restPhase (s : State) (n : Nat) (egress : Bool) : Nat := if s.dirAsleep n egress then 3 else 0

/-- The phase field of a direction. -/
def phaseField (egress : Bool) : Field := if egress then .pwrLnEgrPhase else .pwrLnIngPhase

/-- The line block of a direction starts its wake steps. -/
def State.wakeLine (s : State) (n : Nat) (egress : Bool) : State :=
  if egress then s.when (s.on .ltxSleep n) (fun t => t.wr .ltxNapWake 1 n)
  else s.when (s.on .lrxSleep n) (fun t => t.wr .lrxWakeRun 1 n)

/-- A host lane of a direction starts its wake steps. -/
def State.wakeHost (s : State) (h : Nat) (egress : Bool) : State :=
  s.when (s.on (hostSleepField egress) h) (fun t => t.wr (hostWakeField egress) 1 h)

/-- The blocks of a direction start their wake steps; a vote of the direction ends (R369, R379, R381). -/
def State.wakeBlocks (s : State) (n : Nat) (egress : Bool) : State :=
  let s := { s with votes := s.votes.filter (fun v => !(v.obj == n && v.egress == egress)) }
  ((s.wr (phaseField egress) 0 n).wakeLine n egress).each (s.hostsOf n) (fun h t => t.wakeHost h egress)

/-- The island leaves Trim and returns to its point before (R368). -/
def State.trimEnd (s : State) (n : Nat) : State := s.when (s.on .pwrLnTrim n) (fun t => (t.wr .pwrLnTrim 0 n).dvfsKick)

/-- What a wake of a direction wakes and the state each leaves, of those whose state `leaves` picks: the lane for its line block or
for the island in Trim, else each host lane (R371, R393; DEDUCED, log entry 73). -/
def State.wakeObjects (s : State) (n : Nat) (egress : Bool) (leaves : Nat → Bool) : List (Nat × Nat) :=
  let p := s.linePstate n egress
  if p ≠ 0 ∧ leaves p then [(n, p)]
  else if !egress ∧ s.on .pwrLnTrim n ∧ leaves 1 then [(n, 1)]
  else (s.hostsOf n).filterMap (fun h =>
    let q := s.hostPstate egress h
    if q ≠ 0 ∧ leaves q then some (0x10 + h, q) else none)

/-- The wakes of a direction are recorded; one that meets a COMMIT before any block sleeps leaves Active (R371, R381). -/
def State.wakeRecords (s : State) (src n : Nat) (egress : Bool) (leaves : Nat → Bool) : State :=
  let l := s.wakeObjects n egress leaves
  let l := if l.isEmpty && s.votes.any (fun v => v.obj == n && v.egress == egress) then [(n, 0)] else l
  let t := s.ticksSince (s.rd (if egress then .pwrEgrAsleepAt else .pwrIngAsleepAt) n)
  s.each l (fun e u => u.wakeRecord src e.1 e.2 (if e.2 = 0 then 0 else t) false)

/-- A source wakes a direction: recorded, the blocks wake, and a source other than MANAGEMENT clears the sleep request, with
which Trim ends (R368, R369, R371). -/
def State.wakeDir (s : State) (src n : Nat) (egress : Bool) : State :=
  let keep := src == 3 && s.on (if egress then .pwrLnEgrSleep else .pwrLnIngSleep) n
  let s := s.wakeRecords src n egress (fun p => p != 1 || !keep)
  let s := s.when (src != 3) (fun t => t.wr (if egress then .pwrLnEgrSleep else .pwrLnIngSleep) 0 n)
  let s := s.when (!egress && !s.on .pwrLnIngSleep n) (fun t => t.trimEnd n)
  (s.wr (if egress then .pwrEgrRetryArm else .pwrIngRetryArm) 0 n).wakeBlocks n egress

/-- Trim ends with wake source LOAD (R368). -/
def State.trimLoad (s : State) (n : Nat) : State :=
  if s.on .pwrLnTrim n then
    (s.wakeRecord 7 n 1 (s.ticksSince (s.rd .pwrIngAsleepAt n)) false).trimEnd n
  else s

/-- The committed blocks of an abandoned transition wake, the last to commit first: those of a direction with their wake steps,
those of the device from OFF (R379, R381). -/
def State.wakeDone (s : State) (device : Bool) (done : List SleepStep) : State :=
  s.each done (fun st t =>
    let n := st.voter.inst
    match st.voter.block with
    | 0 => if device then (t.when (t.on .lrxEnable n && t.rd .lrxState n == 0 && t.laneFree n) (fun u => (u.lrxToCal n).ltxRecheck n))
      else t.wakeLine n false
    | 3 => if device then t.ltxRecheck n else t.wakeLine n true
    | 4 => if device then t.when (t.on .hifEnable n) (fun u => u.hifStart n) else t.wakeHost n st.egress
    | _ => t)

/-- LPMODE or a critical temperature holds the device in Standby (R372, R404). -/
def State.standbyHeld (s : State) : Bool := (s.on .pwrLpmode && s.on .pwrLpmodeEn) || s.on .thmCritLatch

/-- The wake from Standby begins: domains power up under R392; a vote for Deep that it meets ends (R373, R381). -/
def State.standbyWakeStart (s : State) (src : Nat) : State :=
  let s := s.wakeRecord src 8 6 (s.ticksSince (s.rd .pwrDevAsleepAt)) false
  ({ s with votes := s.votes.filter (fun v => v.obj != 8) } : State).puts [(.pwrStandbySw, 0), (.pwrDevPhase, 0),
    (.pwrDevTarget, 0), (.pwrWakePend, 0), (.pwrDevState, 3), (.pwrStagDir, 1), (.pwrStagIdx, 0), (.pwrWakeTries, 0)]

/-- Nothing holds Standby any more: it ends, or ends as soon as the entry that runs has ended (R369, R372; DEDUCED, log
entry 73). -/
def State.standbyRelease (s : State) (src : Nat) : State :=
  if s.rd .pwrDevState = 2 then s.standbyWakeStart src
  else if s.rd .pwrDevState = 1 then s.puts [(.pwrWakePend, src), (.pwrStandbySw, 0)] else s

/-- A wake of the device that cannot end its state is recorded and does nothing else (R371). -/
def State.wakeHeld (s : State) (src : Nat) : State :=
  let low := s.rd .pwrDevState = 1 ∨ s.rd .pwrDevState = 2
  if low then s.wakeRecord src 8 6 (s.ticksSince (s.rd .pwrDevAsleepAt)) true else s.wakeRecord src 8 0 0 true

/-- A transition of the device is abandoned: in COMMIT the committed blocks wake and the wake is recorded (R379, R381). -/
def State.deviceAbandon (s : State) (src : Nat) : State :=
  let s := s.when (s.rd .pwrDevPhase == 2) (fun t => t.wakeRecord src 8 0 0 false)
  let done := ((s.votes.find? (fun v => v.obj == 8)).map (fun v => v.done)).getD []
  let s := ({ s with votes := s.votes.filter (fun v => v.obj != 8) } : State).puts [(.pwrDevTarget, 0), (.pwrDevPhase, 0)]
  s.wakeDone true done

/-- AON starts the wake from Deep: the source recorded, OPERATION on sent to the regulator (R375). -/
def State.deepWakeStart (s : State) (src : Nat) : State :=
  let s := s.wakeRecord src 8 7 (s.ticksSince (s.rd .pwrDevAsleepAt)) false
  s.puts [(.pwrDevState, 6), (.pwrRegOn, 1), (.pwrSupplyWait, 1), (.pwrRegOffWait, 0), (.pwrWakeTries, 0),
    (.pwrSeriesFail, 0), (.pwrWakePend, 0)]

/-- A device-level wake source acts in Standby or Deep, and during the entry to either, where PWR_WAKE_EN enables it; the vote
for one of them it ends. During an entry it waits for the end of it (R369, R371, R372, R381; DEDUCED, log entry 73). -/
def State.wakeDevice (s : State) (src : Nat) : State :=
  let st := s.rd .pwrDevState
  if !s.maskBit .pwrWakeEn (src - 1) then s
  else if st = 2 ∨ st = 1 then (if s.standbyHeld then s.wakeHeld src else s.standbyRelease src)
  else if src = 1 ∨ src = 2 then s
  else if st = 4 then s.wr .pwrWakePend src
  else if st = 5 then s.deepWakeStart src
  else if st = 0 ∧ (s.rd .pwrDevPhase = 1 ∨ s.rd .pwrDevPhase = 2) then
    if s.standbyHeld then s.wakeHeld src else (s.deviceAbandon src).wr .pwrStandbySw 0
  else s

/-- SIGNAL_DETECT (1) or WAKE_PATTERN (2) of a line receiver: in a sleep state it wakes the ingress direction, with
LINK_WAKE both; in Standby it is a device source (R111, R369). -/
def State.lineWake (s : State) (src n : Nat) : State :=
  if s.rd .pwrDevState = 1 ∨ s.rd .pwrDevState = 2 then s.wakeDevice src
  else if s.on .lrxSleep n && s.on (if src = 1 then .lrxWakeSdEn else .lrxWakePatEn) n then
    let link := s.on .pwrLnLinkWake n
    let s := s.wakeDir src n false
    s.when link (fun t => t.wakeDir src n true)
  else s

/-! ## Rails (R389) -/

/-- Set point of a rail in mV: VDD_CORE as R385 sets it, every other rail its nominal value (R389, R484). -/
def State.railMv (s : State) (rail : Nat) : Nat :=
  if rail = 0 then s.rd .pwrVoutTarget else [800, 850, 1200, 850, 1800, 750, 1800].getD rail 0

/-- A level in 5 mV steps, as the record of a warning interval gives it (R390). -/
def steps5 (mv : Nat) : Nat := min 255 (mv / 5)

/-- Set point that the monitor of a rail compares with: during a change of VDD_CORE the lower of the old and the new one
(R389). -/
def State.monitorMv (s : State) (rail : Nat) : Nat :=
  if rail = 0 ∧ (s.rd .pwrDvfsPhase = 1 ∨ s.rd .pwrDvfsPhase = 3) then min (s.rd .pwrVoutPrev) (s.rd .pwrVoutTarget)
  else s.railMv rail

/-- The monitor of a rail judges it; VDD_CORE only once PGOOD_IN has risen, as the regulator is off before (R363, R389;
DEDUCED, log entry 73). -/
def State.monitored (s : State) (rail : Nat) : Bool := rail != 0 || s.on .pwrPgood

/-! ## Domains (R362, R392) -/

/-- Domains of the stagger in power-up order: XBAR, DECODE0-7, LANE0-7, HOST0-3 (R477). -/
def domainCount : Nat := 21

/-- Block and instance of a register in domain `d` of the stagger. -/
def inDomain (d : Nat) (b : Block) (n : Nat) : Bool :=
  if d = 0 then b == .hifGlb
  else if d ≤ 8 then b == .arcCl && n == d - 1
  else if d ≤ 16 then (b == .lrx || b == .leq || b == .ltx || b == .lfr) && n == d - 9
  else b == .hif && n / 4 == d - 17

/-- What MGMT's mirror and the retention records keep of a domain that powers down: RW and LK fields, the
converter maps and failure marks, and the FAULT of a transmit direction (R372, R382, R404). -/
def mirrored (f : Field) : Bool :=
  f.desc.access == .rw || f.desc.access == .lk ||
    [Field.lrxSliceOfPos, .lrxSliceBad, .lrxSliceOfs, .lrxSliceGain, .lrxSliceSkew, .lrxAdcSpare, .lrxAdcFailed,
     .lrxNoSpare, .lrxVgaCode, .lrxOfsCode, .lrxCdrFreq, .lrxSd, .ltxState, .ltxFaultCause, .ltxRestartArm, .ltxCellOfPos, .ltxCellBad, .ltxCellTrimOf, .ltxOutCell,
     .ltxIntlvSkew, .ltxNoSpare, .ltxFailedCnt, .lrxHeldOff, .ltxHeldOff, .hifHeldOff,
     .hifGlbMapGbMode, .hifGlbMapBValid, .hifGlbMapHostB, .hifGlbMapHostA, .lfrProfActive, .arcClStealThresh,
     .arcClReachCw, .arcClReachCcw, .arcClHomeQ, .arcClReleaseBuf, .arcClHoldUi, .arcClHomeLow].contains f

/-- Marks of failed hardware and broken sensors that only a device reset clears (R100, R172, R242, R243, R397, R420). -/
def failureMark (f : Field) : Bool :=
  [Field.lrxSliceBad, .lrxNoSpare, .lrxAdcFailed, .ltxCellBad, .ltxNoSpare, .ltxFailedCnt, .arcEngBad, .arcEngEcc2,
    .arcClHomeLow,
   .lrxHeldOff, .ltxHeldOff, .hifHeldOff, .hltFailXbar, .hltFailCtrlDac, .hltFailMonAdc, .hltFailEnvelope,
   .hltFailLane, .hltFailHost, .hltFailKeystore, .secKsFail,
   .thmDiodeBroken, .thmRailBroken, .thmIslandSensorFail].contains f

/-- What a lane's blocks show of the fields in use after their registers came back: AGC MANUAL, the MLSE, manual
thresholds, the start values of the equaliser (R89, R137, R138, R149, R372). -/
def State.laneReload (s : State) (n : Nat) : State :=
  let s := s.when (s.use .lrxVgaManEn n != 0) (fun t => t.wr .lrxAgcState 3 n)
  ((s.mlsePut n).thrManual n).leqStart n

/-- Power a domain on or off (R362); off, its unmirrored fields return to reset, and its buffers and stores are lost; a decode
island's engines load their programs as it powers up (R72, R372). -/
def State.setDomain (s : State) (d : Nat) (up : Bool) : State :=
  let s := if d = 0 then s.wrb .pwrDomXbar up
    else if d ≤ 8 then s.setMask .pwrDomDecode (d - 1) up
    else if d ≤ 16 then s.setMask .pwrDomLane (d - 9) up
    else s.setMask .pwrDomHost (d - 17) up
  let s := s.when (!up) (fun t => { t with regs := t.regs.resetWhere (fun k =>
    inDomain d k.f.desc.block k.n && !mirrored k.f) })
  let s := s.when (!up && decide (9 ≤ d ∧ d ≤ 16)) (fun t => t.laneReload (d - 9))
  let s := s.when (!up && decide (1 ≤ d ∧ d ≤ 8)) (fun t => (t.arcClusterOff (d - 1)).each (List.range 16)
    (fun k u => (u.wr .arcEngSt 0 0 (16 * (d - 1) + k)).wr .arcEngRun 0 0 (16 * (d - 1) + k)))
  let s := s.when (decide (1 ≤ d ∧ d ≤ 8)) (fun t =>
    if up then t.loadStores (clusterEngines (d - 1)) else t.clearStores (d - 1))
  (s.when (!up && d == 0) State.xbarOff).refreshRun

/-! ## Retention records (R382) -/

/-- Kinds of retention record. -/
inductive RecordKind where
  | lrx | leq | ltx | hif
deriving DecidableEq, Repr

/-- Contents of a record: the fields of its lane (R382). -/
def recordFields : RecordKind → List Field
  | .lrx => [.lrxCtlePeak, .lrxVgaCode, .lrxOfsCode, .lrxCdrFreq, .lrxSliceOfPos, .lrxSliceBad, .lrxSliceOfs, .lrxSliceGain,
      .lrxSliceSkew, .lrxAdcSpare, .lrxAdcFailed, .lrxNoSpare]
  | .leq => [.leqTapCoef, .leqD1]
  | .ltx => [.ltxFirTap, .ltxLut0, .ltxLut1, .ltxLut2, .ltxLut3, .ltxCellOfPos, .ltxCellBad, .ltxCellTrimOf, .ltxOutCell,
      .ltxIntlvSkew, .ltxFifoPhase, .ltxNoSpare, .ltxFailedCnt]
  | .hif => [.hifRxCtle, .hifVga, .hifDfeD1, .hifDfeD2, .hifCdrFreq, .hifSlipPos, .hifTxTap, .hifFifoPhase]

/-- Fields of the retention records of the line lanes that outlast Deep (R382). -/
def retentionField (f : Field) : Bool := (recordFields .lrx ++ recordFields .ltx).contains f

/-- A record of lane `n` is saved to the retention SRAM, with Tj at entry in those of a line lane (R373, R382). -/
def State.saveRecord (s : State) (kind : RecordKind) (n : Nat) : State :=
  let p (k : Key) : Bool := (recordFields kind).contains k.f && k.n == n
  let saved := s.regs.filter (fun e => p e.1)
  let s := { s with retained := saved.foldl (fun (m : Store) (e : Key × Nat) => m.set e.1 e.2) (s.retained.resetWhere p) }
  let tj := s.rdInt .thmIslandTemp 0 n
  match kind with
  | .lrx => (s.wrInt .pwrRecTjLrx tj n).wr .pwrRecLrx 1 n
  | .leq => s.wr .pwrRecLeq 1 n
  | .ltx => (s.wrInt .pwrRecTjLtx tj n).wr .pwrRecLtx 1 n
  | .hif => s.setMask .pwrRecHif n true

/-- A valid record stands in the retention SRAM, the image's among them (R382, R383). -/
def State.retValid (s : State) : Bool :=
  s.imgRecord.isSome || s.on .pwrRecHif ||
    (List.range 8).any (fun n => s.on .pwrRecLrx n || s.on .pwrRecLeq n || s.on .pwrRecLtx n)

/-- A record whose CRC fails is discarded (R382). -/
def State.recordBad (s : State) (kind : RecordKind) (n : Nat) : State :=
  let s := (s.wr .pwrRetFail 1).raise .pwrIntStatus Irq.pwrRetFail
  match kind with
  | .lrx => s.wr .pwrRecLrx 0 n
  | .leq => s.wr .pwrRecLeq 0 n
  | .ltx => s.wr .pwrRecLtx 0 n
  | .hif => s.setMask .pwrRecHif n false

/-! ## Standby and Deep (R372, R374) -/

/-- Every running test ends ABORTED (R423). -/
def State.abortTests (s : State) : State :=
  s.each (s.tests.filter (fun t => t.phase == .running)) (fun t u => u.endTest t.kind t.unit .hltAbortCnt)

/-- Where the image controller rests: RUNNING, or NO_IMAGE (R60, R81). -/
def State.imgIdle (s : State) : Nat := if s.running.isSome then 2 else 0

/-- Record a failure: its code, and the lane, section and detail it names; what it does not name is free (R68, R81, log
entry 2). -/
def State.imgFail (s : State) (code : Nat) (lane sec det : Option Nat) : State :=
  let s := s.wr .imgErr code
  let s := match lane with
    | some n => s.wr .imgErrLane n
    | none => s.wrFree .imgErrLane
  let s := match sec with
    | some n => s.wr .imgErrSection n
    | none => s.wrFree .imgErrSection
  let d := match det with
    | some v => (v, s)
    | none => s.free
  d.2.puts [(.imgDetRaw, d.1), (.imgDetPool, d.1 / 2 ^ 23), (.imgDetWhich, d.1 / 2 ^ 22), (.imgDetProfile, d.1 / 2 ^ 20), (.imgDetMid, d.1 / 2 ^ 16),
    (.imgDetRequired, d.1 / 2 ^ 8), (.imgDetConfigured, d.1)]

/-- An image command of OP ends or is refused: its interrupt and record (R81, R453). -/
def State.imgReport (s : State) (op err : Nat) : State :=
  (s.emit 0x40 8 [op + err * 256]).raise .imgIntStatus
    (if op = 3 then (if err = 0 then Irq.imgPcDone else Irq.imgPcFail)
     else if err = 0 then Irq.imgCmdDone else Irq.imgCmdFail)

/-- The running image command ends, and with it a CDB command that waits for it (R81, R446). -/
def State.imgEnd (s : State) (err : Nat) : State :=
  let op := s.rd .imgOpRun
  let s := (s.puts [(.imgState, s.imgIdle), (.imgCmdGo, 0), (.imgOpRun, 0)]).imgReport op err
  s.when (s.on .cdbImg) (fun t => (t.puts [(.cdbImg, 0), (.cdbReply0, err)]).cdbEnd (if err = 0 then 0x01 else 0x40))

/-- Lanes of the partial commit in progress (R73). -/
def State.pcLanes (s : State) : List Nat := (List.range 8).filter (fun n => s.maskBit .imgPcLanes n)

/-- A partial commit before B2 is aborted: isolation ends, the structure stays (R79). -/
def State.pcAbort (s : State) : State :=
  if s.rd .imgState = 4 then
    ((s.each s.pcLanes (fun c t => t.wr .arcClIsolated 0 c)).imgFail 0x14 none none none).imgEnd 0x14
  else s

/-- A line lane's receive or transmit record is saved on the way to Standby, where its block was calibrated (R372, R382). -/
def State.laneSave (s : State) (n : Nat) (egress : Bool) : State :=
  if egress then s.when (s.on .ltxDacCal n) (fun t => t.saveRecord .ltx n)
  else s.when (s.on .lrxMapValid n) (fun t => t.saveRecord .lrx n)

/-- Standby entry: tests abort, transmits run the disable sequence, every lane is held in OFF with ENABLE kept, the
records are saved, and the domains power down in reverse order (R372, R382, R423). -/
def State.standbyEnter (s : State) : State :=
  let s := s.abortTests
  let s := s.each (List.range 8) (fun n t =>
    (t.laneSave n false).laneSave n true)
  let s := s.each (List.range 8) (fun n t => (t.lrxOff n).optClamp n)
  let s := s.each (List.range 16) (fun h t => t.hifOff h)
  let s := { s with votes := [] }
  let s := s.each (List.range 8) (fun n t => t.puts [(.pwrLnIngPhase, 0), (.pwrLnEgrPhase, 0), (.pwrLnLrxPstate, 0),
    (.pwrLnLtxPstate, 0), (.pwrLnTrim, 0)] n)
  s.puts [(.pwrDevState, 1), (.pwrDevPhase, 0), (.pwrDevTarget, 0), (.pwrDevRetryArm, 0), (.pwrWakePend, 0), (.pwrDevAsleepAt,
    s.now), (.pwrStagDir, 2), (.pwrStagIdx, domainCount)]

/-- The blocks that lie in AON and keep their values in Deep (R393). -/
def aonBlock (b : Block) : Bool := b == .pwr || b == .pwrLn

/-- Every register outside AON takes its reset value and the queues empty (R374, R476). -/
def State.resetOutsideAon (s : State) : State :=
  let s := s.resetFields (fun k => !aonBlock k.f.desc.block && k.f != .glbStageRef && k.f != .glbSeqStep &&
    k.f != .thmAonDir && k.f != .thmAonWakeC && k.f != .secKsBoot)
  let s := s.each (List.range 8) (fun c t => t.arcClusterOff c)
  let s := (s.each (List.range 8) (fun c t => t.clearStores c)).xbarOff
  { s with straits := [], data := List.replicate 8 LaneData.none, evf := [], tests := [], deferred := [], votes := [], svcQ := [], running := none, candidate := none,
           tsf := [], exch := List.replicate 8 LinkExchange.none, dpllHist := [], thermal := [], mbxIn := [], mbxOpen := [],
           mbxOut := [], pages := [], bufs := [], snaps := [], staged := [], answer := [], pb := [] }

/-- PWR_DEEP_WAKE: 45 ms plus the image length at 50 MB/s, rounded up (R375). -/
def deepWakeMs (i : Option Image) : Nat := match i with
  | some i => 45 + (i.imgLen + 49999) / 50000
  | none => 45

/-- Deep: the records are saved with the failure marks, which hold until device reset (R100, R172; DEDUCED, log entry
64), MGMT, TIME, OPT, NVM and the core regulator turn off (R374, R382). -/
def State.deepEnter (s : State) : State :=
  let s := { s with imgRecord := s.running, retained := s.regs.filter (fun e => retentionField e.1.f || failureMark e.1.f) }
  let s := s.puts [(.pwrRecImgSlot, s.rd .imgActiveSlot), (.pwrDeepWakeMs, deepWakeMs s.running)]
  let s := s.resetOutsideAon.each (s.regs.filter (fun e => failureMark e.1.f)) (fun e t => t.wrNow e.1.f e.2 e.1.n e.1.i)
  s.puts [(.pwrDevState, 5), (.pwrDevPhase, 0), (.pwrDevTarget, 0), (.pwrDevRetryArm, 0), (.pwrDomMgmt, 0), (.pwrDomTime, 0), (.pwrDomXbar, 0), (.pwrDomLane, 0),
    (.pwrDomDecode, 0), (.pwrDomHost, 0), (.pwrRegOn, 0), (.pwrPgood, 0), (.pwrStagDir, 0)]

/-- The command DEEP executes: its vote, a retry of it, or the entry (R17, R374, R380). -/
def State.deepRuns (s : State) : Bool :=
  s.rd .pwrDevState == 4 || (s.rd .pwrDevTarget == 7 && (s.on .pwrDevPhase || s.on .pwrDevRetryArm))

/-- Every enabled line lane that nothing holds in OFF has left CAL: DEV_STATE reads ACTIVE, and at start-up the stage and ACTIVE_US follow
(R373, R477). -/
def State.activeCheck (s : State) : State :=
  let done := (List.range 8).all (fun n => !s.on .lrxEnable n || !s.laneFree n || decide (2 ≤ s.rd .lrxState n))
  if done && s.rd .pwrDevState = 3 && s.rd .glbBootStage ≠ 6 then s.wr .pwrDevState 0
  else if done && (s.rd .pwrDevState = 6 || s.rd .pwrDevState = 3) && s.rd .glbBootStage = 6 then
    let us := min (usBetween (s.rd .glbStageRef) s.now) (2 ^ 32 - 1)
    s.puts [(.pwrDevState, 0), (.glbBootStage, 7), (.glbSeqStep, 12), (.glbActiveUs, us)]
  else s

end Sys2Proof.Machine
end

