-- ==== Sys2Proof/Machine/IcrisOps.lean ====
section
/-!
DEFINITION. Icris exchange: its state, the initiations it takes from the partner, and exact fractions for its results
(R299 to R307).
-/
namespace Sys2Proof

/-- A fraction; the denominator is not 0. -/
structure Frac where
  num : Int
  den : Nat
deriving DecidableEq, Repr

/-- Sum of two fractions. -/
def Frac.add (a b : Frac) : Frac := ⟨a.num * b.den + b.num * a.den, a.den * b.den⟩

/-- An integer over a natural number. -/
def Frac.of (n : Int) (d : Nat := 1) : Frac := ⟨n, d⟩

/-- A fraction times an integer, over a natural number. -/
def Frac.scale (a : Frac) (n : Int) (d : Nat := 1) : Frac := ⟨a.num * n, a.den * d⟩

/-- Difference of two fractions. -/
def Frac.sub (a b : Frac) : Frac := a.add (b.scale (-1))

/-- Product of two fractions. -/
def Frac.mul (a b : Frac) : Frac := ⟨a.num * b.num, a.den * b.den⟩

/-- Quotient of two fractions; the divisor is not 0. -/
def Frac.div (a b : Frac) : Frac :=
  if 0 ≤ b.num then ⟨a.num * b.den, a.den * b.num.toNat⟩ else ⟨-(a.num * b.den), a.den * (-b.num).toNat⟩

/-- Mean of the fractions of a list that is not empty. -/
def Frac.mean (l : List Frac) : Frac := (l.foldl Frac.add ⟨0, 1⟩).scale 1 l.length

/-- Nearest integer, halves away from zero. -/
def Frac.round (a : Frac) : Int := roundHalfAway a.num a.den

/-- `a ≤ b`. -/
def Frac.le (a b : Frac) : Bool := decide (a.num * b.den ≤ b.num * a.den)

/-- Magnitude. -/
def Frac.abs (a : Frac) : Frac := ⟨a.num.natAbs, a.den⟩

end Sys2Proof

namespace Sys2Proof.Machine

/-- Icris version in use, which the lane's negotiation set (R45, R299, R305). -/
def State.icrisVer (s : State) (n : Nat) : Nat := if s.rd .lfrNegState n = 3 then s.rd .lfrIcrisUse n else 0

/-- Echoed initiations that the rate ratio spans: 16, and 4 in version 1 (R302, R307). -/
def State.ratioSpan (s : State) (n : Nat) : Nat := if s.icrisVer n = 1 then 4 else 16

/-- XSTATE of a lane: 0 OFF, 1 WAIT, 2 RATIO, 3 RUN, 4 STALE. The negotiated version is the one in use, and while NEG_STATE is
not DONE that of the last result in LFR_NEG_RESULT, none before the first (R304, R306). -/
def State.xState (s : State) (n : Nat) : Nat :=
  let done := s.rd .lfrNegState n = 3
  if !s.on .timLnExchEn n ∨ (if done then s.icrisVer n else s.rd .lfrResIcris n) = 0 then 0
  else if !(done ∧ s.on .lfrFrameLock n ∧ s.rd .ltxState n = 4) ∨ s.dirAsleep n false ∨ s.dirAsleep n true ∨
      (s.icrisVer n = 1 ∧ s.on .timLnPeriodShort n) then 1
  else if (s.ex n).hist.length < s.ratioSpan n ∨ (s.ex n).acc = [] then 2
  else if s.on .timLnStale n then 4
  else 3

/-- The TOD with its 40 bits below the nanosecond. -/
def State.todFull (s : State) : Nat := s.rd .timTodNow * 2 ^ 24 + s.rd .timTodLow

/-- The TOD without its sets and steps, in 2^-16 ns (R286, R290). -/
def State.steadyTime (s : State) : Int := ((s.todFull : Int) - s.rdInt .timJump) / 2 ^ 24

/-- A record goes out in the side-channel frame that starts: INIT_SEQ advances, the waiting echo is sent, and the record waits for
its point, the first that departs 1.005 ms after this moment. SUSPECT covers T_DEP_PREV and T_ARR (R305, R306, R316). -/
def State.recordV1 (s : State) (n : Nat) : State :=
  let e := s.ex n
  let seq := (e.seq + 1) % 65536
  let disc := e.disc || (e.echo.map (fun c => c.disc)).getD false
  let sus := s.on .timLnDepSus n || (e.echo.map (fun c => c.suspect)).getD false
  let flags := 1 + 2 * bit e.echo.isSome + 4 * bit sus + 8 * bit disc
  let record := 1 + 2 ^ 8 * flags + 2 ^ 16 * seq + 2 ^ 32 * ((e.echo.map (fun c => c.seq)).getD 0) +
    2 ^ 48 * (s.rd .timLnDepPrev n % 2 ^ 48) + 2 ^ 96 * (((e.echo.map (fun c => c.arr)).getD 0) % 2 ^ 48)
  let s := s.setEx n { e with
    seq := seq
    out := e.out ++ [⟨seq, none, false, disc⟩]
    echo := none
    disc := false }
  (s.puts [(.timLnRegion, record), (.timLnSelOn, 1)] n).wrInt .timLnSelAt (s.steadyTime + 1005000 * 65536) n

/-- What a partner region or record says: version, whether it starts an initiation whose marker was good and its number,
the SUSPECT and DISC flags, and the echo in it (R299, R305). -/
structure IcrisRecord where
  ver : Nat
  init : Bool
  seq : Nat
  suspect : Bool
  disc : Bool
  echo : Option EchoIn

/-- A time in a region: FRAC, NS and SEC, low byte first (R299). -/
def regionTime (v : Nat) : Nat := v % 65536 + 65536 * (v / 65536 % 2 ^ 32 + 1000000000 * (v / 2 ^ 48 % 2 ^ 48))

/-- A version 2 region, byte 4 lowest; `arr` is when its marker arrived in 2^-16 ns, `sus` whether that time is suspect
(R299). -/
def regionOf (v arr : Nat) (sus good : Bool) : IcrisRecord :=
  let flags := byteOf v 1
  let disc := flags.testBit 5
  ⟨byteOf v 0, flags.testBit 0 && good, v / 2 ^ 16 % 65536, flags.testBit 2, disc,
    if flags.testBit 1 then some ⟨v / 2 ^ 32 % 65536, regionTime (v / 2 ^ 144 % 2 ^ 96),
      regionTime (v / 2 ^ 48 % 2 ^ 96), arr,
      flags.testBit 2 || flags.testBit 3 || sus, disc, v / 2 ^ 240 % 65536, v / 2 ^ 256 % 65536, v / 2 ^ 272 % 2 ^ 32⟩ else none⟩

/-- A version 1 record, byte 0 lowest; T_DEP_PREV belongs to the record before it, so the echo's departure comes with
the next one (R305, R307). -/
def recordOf (v arr : Nat) (sus : Bool) : IcrisRecord :=
  let flags := byteOf v 1
  let disc := flags.testBit 3
  ⟨byteOf v 0, flags.testBit 0, v / 2 ^ 16 % 65536, flags.testBit 2, disc,
    if flags.testBit 1 then
      some ⟨v / 2 ^ 32 % 65536, v / 2 ^ 96 % 2 ^ 48, 0, arr, flags.testBit 2 || sus, disc, 0, 0, 0⟩ else none⟩

/-- A partner region or record came: one of another version counts as a miss; an initiation is kept for its echo and
supersedes an earlier one; an echo waits for ECHO_RECEIVED, in version 1 for the next record, which carries its departure
`dep` with its own SUSPECT and DISC. `arr` is its arrival in 2^-16 ns, none where no timestamp was taken, `sus` and `broken` that
time's suspect mark and whether a discontinuity has followed it (R290, R299, R301, R303, R305, R307, R316, R317). -/
def State.icrisIn (s : State) (n : Nat) (r : IcrisRecord) (arr : Option Nat) (sus broken : Bool) (dep : Nat) : State :=
  if s.xState n < 2 then s
  else if r.ver ≠ s.icrisVer n then s.bump .timLnExchMissCnt n
  else
    let s := s.when r.disc (fun t => t.exchClear n)
    let e := s.ex n
    let echo := if arr.isSome then r.echo.map (fun c => { c with disc := c.disc || broken }) else none
    let v1 := s.icrisVer n = 1
    s.setEx n { e with
      echo := if r.init then arr.map (fun a => ⟨r.seq, a, sus, broken⟩) else e.echo
      held := if v1 then echo else none
      got := if v1 then e.held.map (fun c =>
        { c with t3 := dep, suspect := c.suspect || r.suspect, disc := c.disc || r.disc }) else echo }

end Sys2Proof.Machine
end

