-- ==== Sys2Proof/Machine/Operands.lean ====
section
/-!
DEFINITION. How measured operands become the values the registers hold: the figure of merit of a mean square error
(R144), and the loop and lock decision of a clock recovery interval (R102 to R105).
-/
namespace Sys2Proof.Machine

/-- `10^v · mse^2560 ≤ (5,120 · 256)^2560`: the figure of merit in 1/256 dB is at least `v` (R144). -/
def fomAtLeast (mse v : Nat) : Bool := decide (10 ^ v * mse ^ 2560 ≤ 1310720 ^ 2560)

/-- The greatest number below `acc + 2^bits` that `fomAtLeast` admits, found bit by bit. -/
def fomSearch (mse : Nat) : Nat → Nat → Nat
  | 0, acc => acc
  | k + 1, acc => fomSearch mse k (if fomAtLeast mse (acc + 2 ^ k) then acc + 2 ^ k else acc)

/-- The figure of merit of a mean square error (UQ16.8), UQ8.8 dB rounded down and clamped (R144). -/
def fomFloor (mse : Nat) : Nat := if mse = 0 then 65535 else fomSearch mse 16 0

/-- The figure of merit is a whole number of 1/256 dB, or clamped, so no rounding is left open. -/
def fomExact (mse : Nat) : Bool :=
  mse = 0 || fomFloor mse = 65535 || decide (1310720 < mse) ||
    decide (10 ^ fomFloor mse * mse ^ 2560 = 1310720 ^ 2560)

/-- The figure of merit as the device rounds it: which neighbour of the exact value it takes is free (R144, log
entry 9). -/
def State.fomOf (s : State) (mse : Nat) : Nat × State :=
  if fomExact mse then (fomFloor mse, s) else (fomFloor mse + s.free.1 % 2, s.free.2)

/-- The greatest number below `acc + 2^bits` whose 256th part, in dB, does not exceed 20·log10 of `t`. -/
def targetSearch (t : Nat) : Nat → Nat → Nat
  | 0, acc => acc
  | k + 1, acc => targetSearch t k (if 10 ^ (acc + 2 ^ k) ≤ t ^ 5120 then acc + 2 ^ k else acc)

/-- The level error E = LEVEL - 20·log10(TARGET) in 1/256 dB, rounded down; E is no whole number of 1/256 dB, so
E ≥ c exactly when this is at least c, and E ≤ c exactly when it is below c (R88). -/
def levelErr (level target : Nat) : Int := (level : Int) - targetSearch target 14 0 - 1

/-- The fast update's step `round_half_away(E · 8 · 2^-AGC_SH)` in VGA codes, from E rounded down as `levelErr` gives it: E itself
is no whole number of 1/256 dB, so no step is a tie (R89). -/
def agcStep (err : Int) (sh : Nat) : Int := (err + 16 * 2 ^ sh) / (32 * 2 ^ sh)

/-! ## The clock recovery loop (R102, R104, R105) -/

/-- The loop within an interval: integral path in 2^-40 UI per lane cycle, advance of the phase, and the departure of the
phase correction from the integral path with its greatest magnitude, in 2^-40 UI. -/
structure CdrLoop where
  integ : Int
  phase : Int
  depart : Int
  most : Nat
deriving DecidableEq, Repr

/-- One lane cycle with a timing error in 2^-16 UI: KI = 2^-KI_SH, KP = 2^-KP_SH (R102, R104, log entry 60). -/
def CdrLoop.cycle (kp ki : Nat) (a : CdrLoop) (err : Int) : CdrLoop :=
  let integ := a.integ + err * 2 ^ (24 - ki)
  let prop := err * 2 ^ (24 - kp)
  ⟨integ, a.phase + integ + prop, a.depart + prop, max a.most (a.depart + prop).natAbs⟩

/-- `k` lane cycles; cycles that the list does not reach have no timing error, and a loop in hold sees none (R105, R107). -/
def CdrLoop.run (kp ki : Nat) (a : CdrLoop) : Nat → List Int → CdrLoop
  | 0, _ => a
  | k, [] => { a with phase := a.phase + k * a.integ }
  | k + 1, e :: l => (a.cycle kp ki e).run kp ki k l

/-- 1 UI per cycle of `ui` UI in 1/256 ppm (R106). -/
def ppmOf (ui : Nat) : Nat := 256000000 / ui

/-- An integral path in 2^-40 UI per cycle of `ui` UI as Q16.8 ppm; R106 states no rounding (log entry 57). -/
def cdrFreqOf (ui : Nat) (integ : Int) : Int := roundOpen 4 (integ * ppmOf ui) (2 ^ 40)

/-- An integral path within 300 ppm (R105). -/
def cdrInRange (ui : Nat) (integ : Int) : Bool := decide (integ.natAbs * ppmOf ui ≤ 76800 * 2 ^ 40)

/-- The integral path changed by less than 2 ppm (R105). -/
def cdrQuiet (ui : Nat) (old new : Int) : Bool := decide ((new - old).natAbs * ppmOf ui < 512 * 2 ^ 40)

/-- A loss of lock in an interval: the phase correction departs by more than 0.5 UI, or the frequency leaves 300 ppm. The
departure is judged at every cycle of the interval, the frequency on the integral path at its end (DESIGN CHOICE, log entry 60)
(R105). -/
def cdrLost (ui : Nat) (a : CdrLoop) : Bool := decide (2 ^ 39 < a.most) || !cdrInRange ui a.integ

/-- Line UI of a lane cycle (R48, R102). -/
def lineUi : Nat := 160

/-- Host UI of a host cycle at 106.25 GBd, and at 212.5 GBd (R255, R263). -/
def hostUi (rate : Nat) : Nat := 128 * (1 + rate)

end Sys2Proof.Machine
end

