-- ==== Sys2Proof/Machine/LineEq.lean ====
section
/-!
DEFINITION. The commands and events of the line equaliser: commits and snapshots, the histogram, adaptation, the
figure of merit with what follows from it (R125 to R159).
-/
namespace Sys2Proof.Machine

/-- COMMIT of LEQ_CTRL: at the next receive boundary, at once where none runs, held below warning (R151, R155). -/
def State.leqCommitNow (s : State) (n : Nat) : State :=
  if s.warning then (s.wr .leqCommit 1 n).raise .leqIntStatus Irq.leqCommitHeld n
  else if s.rxGrid n then s.wr .leqCommit 1 n
  else s.leqCommitApply n

/-- LEQ_COMMIT (R151, R423). -/
def execLeqCommit (n : Lane) (s : State) : Out :=
  .next (s.access .leq n (fun s => s.laneService n (.leqCommit n) (fun t => t.leqCommitNow n)))

/-- COEF_SNAP (R127, R153). -/
def execCoefSnap (n : Lane) (s : State) : Out :=
  .next (s.access .leq n (fun s => if s.rxGrid n then s.wr .leqCoefSnap 1 n else s.leqSnapshot n))

/-- LEQ_CNT_CLR (R159). -/
def execLeqCntClr (n : Lane) (s : State) : Out :=
  .next (s.access .leq n (fun s => s.clear [.leqDivergeCnt, .leqFomLowCnt, .leqDfeBurstCnt] n))

/-- HIST_START: bins cleared, a capture starts or restarts; not in OFF. The bit reads 1 while the capture runs (R17, R157). -/
def execHistStart (n : Lane) (s : State) : Out :=
  .next (s.access .leq n (fun s =>
    if s.rd .lrxState n = 0 then s
    else
      let s := s.each (List.range 128) (fun b t => t.wr .leqHist 0 n b)
      s.puts [(.leqHistRun, 1), (.leqHistStart, 1), (.leqHistSrcRun, s.rd .leqHistSrc n), (.leqHistDone, 0)] n))

/-- HIST_DONE: the capture's length expires; `bins` holds what each bin counted (R157). -/
def execHistDone (n : Lane) (bins : List Nat) (s : State) : Out :=
  .next (if s.on .leqHistRun n then
    let s := s.each (List.range 128) (fun b t => t.wr .leqHist (min (bins.getD b 0) (2 ^ 32 - 1)) n b)
    (s.puts [(.leqHistRun, 0), (.leqHistStart, 0), (.leqHistDone, 1)] n).raise .leqIntStatus Irq.leqHistDone n
  else s)

/-- The tap updates of an interval: sign-sign blind or sign-data with the mode's shift; frozen taps, and in DD the
cursor tap c9, stay (R130, R139, R140). They take effect at the next codeword boundary, where the deltas of several
intervals add up and the limit of R128 applies once (R154, DESIGN CHOICE, log entry 60). -/
def State.leqPend (s : State) (n sh : Nat) (dd : Bool) (accs : List Int) (accD : Int) : State :=
  let s := s.each tapIndices (fun i t =>
    if t.use .leqTapFreeze n i ≠ 0 ∨ (dd ∧ i = 9) then t
    else t.wrInt .leqTapDelta (t.rdInt .leqTapDelta n i - roundHalfAway (accs.getD i 0) (2 ^ sh)) n i)
  let dfe := dd && s.use .leqDfeEn n != 0 && !s.on .leqMlseActive n
  let s := s.when dfe (fun t => t.wrInt .leqD1Delta (t.rdInt .leqD1Delta n + roundHalfAway accD (2 ^ t.use .leqMuShDfe n)) n)
  s.wr .leqAdaptPend 1 n

/-- LEQ_ADAPT_UPDATE: the end of an update interval with the accumulators of the taps and of d1 (R138 to R142). The
interval in which the mode changes to DD applies nothing; the holds of R142 are holds of DD. -/
def execLeqAdaptUpdate (n : Lane) (accs : List Int) (accD : Int) (s : State) : Out :=
  let mode := s.rd .leqMode n
  .next (if s.leqDd n then
    if s.leqHold n ≠ 0 then s.leqFollow n
    else if mode = 2 then s.leqPend n (s.use .leqMuShDd n) true accs accD
    else (s.leqFollow n).wr .leqMode 2 n
  else if mode = 1 then s.leqPend n (s.use .leqMuShBlind n) false accs accD
  else s)

/-! ## Figure of merit (R141, R143 to R149, R156) -/

/-- Lock threshold of the lane: compatibility mode, or the profile negotiated or initially set (R146). -/
def State.fomLock (s : State) (n : Nat) : Nat :=
  if s.rd .lfrGroupMode n = 2 then s.rd .leqFomLockCompat n
  else
    let prof := if s.rd .lfrNegState n = 3 then s.rd .lfrResProfile n else (s.groupOf n).initial
    if prof = 0 then s.rd .leqFomLockRistretto n
    else if prof = 1 then s.rd .leqFomLockEspresso n
    else s.rd .leqFomLockLungo n

/-- Lock threshold of the mode that runs: compatibility mode, or the profile in force (R146, R147). -/
def State.fomRunning (s : State) (n : Nat) : Nat :=
  match s.rd .lfrProfActive n with
  | 0 => s.rd .leqFomLockRistretto n
  | 1 => s.rd .leqFomLockEspresso n
  | 2 => s.rd .leqFomLockLungo n
  | _ => s.rd .leqFomLockCompat n

/-- Blind convergence: the set is kept, BLIND_CONV, and the FRAME sub-phase begins; MODE follows at the next update
interval. The cursor tap c9 holds its value from here on (R130, R141, R143). -/
def State.leqConverge (s : State) (n : Nat) : State :=
  let s := s.each tapIndices (fun i t => t.wr .leqTapBlind (t.rd .leqTapLive n i) n i)
  let s := s.puts [(.leqD1Blind, s.rd .leqD1Live n), (.leqCkptHas, 1), (.leqBlindConv, 1), (.leqDivArmed, 1)] n
  let s := (s.raise .leqIntStatus Irq.leqBlindConv n).puts [(.lrxAcqPhase, 4)] n
  ((s.wr .leqTapDelta 0 n 9).leqFollow n).wr .leqMode 1 n

/-- Blind windows: four at or above BLIND_FOM converge (R141). -/
def State.leqBlindWindow (s : State) (n fom : Nat) : State :=
  if s.use .leqBlindFom n ≤ fom then
    if 3 ≤ s.rd .leqConvWin n then s.leqConverge n else s.wr .leqConvWin (s.rd .leqConvWin n + 1) n
  else s.wr .leqConvWin 0 n

/-- DD windows: the checkpoint and its restore. A window that ends while MODE is HELD is no window in DD and breaks no run of
them, which R143 leaves open (DESIGN CHOICE, log entry 60) (R143). -/
def State.leqGuard (s : State) (n fom : Nat) : State :=
  let s := if s.fomLock n ≤ fom then
      (s.each tapIndices (fun i t => t.wr .leqTapCkpt (t.rd .leqTapLive n i) n i)).puts
        [(.leqD1Ckpt, s.rd .leqD1Live n), (.leqCkptValid, 1)] n
    else s
  if s.use .leqBlindFom n ≤ fom then s.puts [(.leqLowWin, 0), (.leqDivArmed, 1)] n
  else if 1 ≤ s.rd .leqLowWin n then
    if s.on .leqDivArmed n then
      ((s.puts [(.leqRestorePend, 1), (.leqDivArmed, 0)] n).bump .leqDivergeCnt n).raise .leqIntStatus Irq.leqDiverge n
    else s
  else s.wr .leqLowWin 1 n

/-- LOCKED and SERVICE: FOM_LOW after two windows below the running mode's threshold, rearmed by two at or above
(R147). -/
def State.fomLow (s : State) (n fom : Nat) : State :=
  if fom < s.fomRunning n then
    let s := s.puts [(.leqFomHighWin, 0), (.leqFomLowWin, min 2 (s.rd .leqFomLowWin n + 1))] n
    if s.rd .leqFomLowWin n = 2 ∧ s.on .leqFomArmed n then
      ((s.wr .leqFomArmed 0 n).bump .leqFomLowCnt n).raise .leqIntStatus Irq.leqFomLow n
    else s
  else
    let s := s.puts [(.leqFomLowWin, 0), (.leqFomHighWin, min 2 (s.rd .leqFomHighWin n + 1))] n
    if s.rd .leqFomHighWin n = 2 then s.wr .leqFomArmed 1 n else s

/-- The eye between levels j and j+1 at EYE_Q standard deviations, Q12.4 times 16 (R156). -/
def eyeOf (q : Nat) (a b : LevelStat) : Int := 16 * (b.mean - a.mean) - q * (a.sigma + b.sigma)

/-- Level statistics and the worst eye of a window; an eye of a level that was not decided is not evaluated (R156);
which Q12.4 neighbour EYE_MIN takes is free (log entry 9). With no eye evaluated EYE_MIN and WORST keep their values, and of
equal eyes WORST names the lowest (DESIGN CHOICE, log entry 60). -/
def State.levelStats (s : State) (n : Nat) (levels : List LevelStat) : State :=
  let lv := fun (j : Nat) => levels.getD j ⟨false, 0, 0⟩
  let s := s.each (List.range 4) (fun j t =>
    if (lv j).seen then (t.wrInt .leqLevelMean (lv j).mean n j).wr .leqLevelSigma (lv j).sigma n j
    else (t.wr .leqLevelMean 0 n j).wr .leqLevelSigma 0x7FFF n j)
  let q := s.use .leqEyeQ n
  let eyes := (List.range 3).filter (fun j => (lv j).seen && (lv (j + 1)).seen)
  let best := eyes.foldl (fun acc j => match acc with
    | none => some (j, eyeOf q (lv j) (lv (j + 1)))
    | some (i, e) => if eyeOf q (lv j) (lv (j + 1)) < e then some (j, eyeOf q (lv j) (lv (j + 1))) else some (i, e)) none
  match best with
  | some (j, e) =>
    let r := if e % 16 = 0 then (0, s) else (s.free.1 % 2, s.free.2)
    (r.2.wrInt .leqEyeMin (clampInt (-32768) 32767 (e / 16 + (r.1 : Int))) n).wr .leqEyeWorst j n
  | none => s

/-- The nearest quarter LSB of B · MSE / 64, B in UQ4.4 and MSE in UQ16.8, halves away from zero (R149). -/
def autoThr (b mse : Nat) : Nat := min 1023 (roundHalfAway (b * mse) 65536).toNat

/-- LFR_NEG_RESULT as a word (R203, R219). -/
def State.negWord (s : State) (n : Nat) : Nat :=
  s.rd .lfrResVer n * 2 ^ 28 + s.rd .lfrResMode n * 2 ^ 26 + s.rd .lfrResProfile n * 2 ^ 24 + s.rd .lfrResIcris n * 2 ^ 22 +
    s.rd .lfrResPrecodeTx n * 2 ^ 21 + s.rd .lfrResPrecodeRx n * 2 ^ 20 + s.rd .lfrResPartner n * 2 ^ 18

/-- Every lane of the group is in DONE with an equal result (R212). -/
def State.groupAgrees (s : State) (n : Nat) : Bool :=
  (s.groupOf n).lanes.all (fun k => s.rd .lfrNegState k == 3 && s.negWord k == s.negWord n)

/-- The conditions of R212 for LOCKED, which the service channel and the figure of merit both bear on: DONE on every
lane of the group with equal results, and FOM at the threshold of the negotiated mode. -/
def State.trainToLocked (s : State) (n : Nat) : State :=
  if s.rd .lrxState n = 3 ∧ !s.on .lrxSleep n ∧ s.groupAgrees n ∧ s.on .leqFomValid n ∧ s.fomLock n ≤ s.rd .leqFom n then
    (s.lrxSet n 4).puts [(.lrxProfApply, 1), (.lrxReleased, 0)] n
  else s

/-- FOM_WINDOW_END: the end of a figure-of-merit window with its mean square error (UQ16.8) and level statistics. FOM and
MSE follow in every state in which the equaliser runs, VALID from the FFE sub-phase on; new thresholds wait for a codeword
boundary where the grid runs (R127, R141, R143, R144, R147, R149, R156,
R212). -/
def execFomWindowEnd (n : Lane) (mse : Nat) (levels : List LevelStat) (s : State) : Out :=
  let st := s.rd .lrxState n
  let ph := s.rd .lrxAcqPhase n
  .next (if st = 0 then s
  else
    let m := min mse (2 ^ 24 - 1)
    let r := s.fomOf m
    let fom := min r.1 65535
    let s := (r.2.puts [(.leqFom, fom), (.leqMse, m)] n).levelStats n levels
    let s := s.when (decide ((st = 2 ∧ 3 ≤ ph) ∨ s.lrxInTraffic n)) (fun t => t.wr .leqFomValid 1 n)
    let s := if s.use .leqLlrAuto n = 0 then s
      else
        let s := ((s.wr .leqThrNew (autoThr (s.use .leqB1 n) m) n 0).wr .leqThrNew (autoThr (s.use .leqB2 n) m) n 1).wr
          .leqThrNew (autoThr (s.use .leqB3 n) m) n 2
        (s.wr .leqThrPend 1 n).when (!s.rxGrid n) (fun t => t.thrTake n)
    let s := if st = 2 ∧ ph = 3 then s.leqBlindWindow n fom
      else if s.rd .leqMode n = 2 then s.leqGuard n fom else s
    let s := if st = 4 ∨ st = 5 then s.fomLow n fom else s
    if st = 3 then s.trainToLocked n else s)

/-- DFE_BURST: four consecutive symbols with |e| above 24 LSB (R133). -/
def execDfeBurst (n : Lane) (s : State) : Out := .next (s.bump .leqDfeBurstCnt n)

end Sys2Proof.Machine
end

