-- ==== Sys2Proof/Machine/LineRx.lean ====
section
/-!
DEFINITION. The commands and events of the line receive path: enables, calibration and slices, AGC, clock recovery,
signal detect, the lane state machine and receive sleep (R82 to R124, R512).
-/
namespace Sys2Proof.Machine

/-! ## Commands (R119, R124) -/

/-- ENABLE of a line lane written 1 (R119, R420). -/
def State.lrxEnableOn (s : State) (n : Nat) : State :=
  if s.on .lrxHeldOff n then s
  else
    let s := s.wr .lrxEnable 1 n
    if s.rd .lrxState n = 0 ∧ s.laneFree n then (s.lrxToCal n).ltxRecheck n else s

/-- LRX_ENABLE: ENABLE written 1; under test the mirror takes it at once (R119, R418, R423). -/
def execLrxEnable (n : Lane) (s : State) : Out :=
  .next (s.access .lrx n (fun s =>
    (s.when (s.underTest 1 n && !s.on .lrxHeldOff n) (fun t => t.wr .lrxEnable 1 n)).laneService n (.lrxEnable n)
      (fun t => t.lrxEnableOn n)))

/-- LRX_DISABLE: ENABLE written 0 moves the lane to OFF from any state and clears its cause and lasting faults (R119,
R413, R423). -/
def execLrxDisable (n : Lane) (s : State) : Out :=
  .next (s.access .lrx n (fun s =>
    let s := { s with deferred := s.deferred.filter (· ≠ SvcReq.lrxEnable n) }
    (((s.wr .lrxEnable 0 n).lrxOff n).clearLastings [0, 1, 2, 3, 4, 5, 6] n).activeCheck))

/-- RESTART of a line lane (R119, R213, R413). -/
def State.lrxRestartNow (s : State) (n : Nat) : State :=
  let st := s.rd .lrxState n
  if st = 3 ∨ st = 4 ∨ st = 5 ∨ (st = 7 ∧ s.rd .lrxFaultCause n ≠ 9) then
    let s := s.when (st == 7) (fun t => (t.wr .lrxFaultCause 0 n).clearLastings [0, 1, 2, 3, 4, 5, 6] n)
    let s := s.puts [(.lrxRetry, 0), (.lrxRestartArm, 0)] n
    let s := if s.rxPlls n then s.lrxWaitSd n else s.lrxToCal n
    s.when (s.rd .ltxState n == 4) (fun t => t.svcSend n 3 1 2)
  else s

/-- LRX_RESTART (R119, R423). -/
def execLrxRestart (n : Lane) (s : State) : Out :=
  .next (s.access .lrx n (fun s => s.laneService n (.lrxRestart n) (fun t => t.lrxRestartNow n)))

/-- COMMIT of LRX_CTRL: at the next receive boundary, or at once where none runs (R45, R124, R127). -/
def State.lrxCommitNow (s : State) (n : Nat) : State := if s.rxGrid n then s.wr .lrxCommit 1 n else s.lrxApply n

/-- LRX_COMMIT (R124, R423). -/
def execLrxCommit (n : Lane) (s : State) : Out :=
  .next (s.access .lrx n (fun s => s.laneService n (.lrxCommit n) (fun t => t.lrxCommitNow n)))

/-- LRX_CNT_CLR (R124). -/
def execLrxCntClr (n : Lane) (s : State) : Out :=
  .next (s.access .lrx n (fun s => s.clear [.lrxOvrCnt, .lrxCaptureSvcCnt, .lrxCdrLolCnt, .lrxSdLossCnt,
    .lrxAcqRetryCnt, .lrxAcqCaptureCnt, .lrxWarmFailCnt, .lrxLevelDropCnt] n))

/-! ## ADC slices (R95 to R101) -/

/-- Corrections of a slice within the limits of R96: 8 LSB, 12.5 %, 5.12 ps. -/
def sliceOk (offset gain skew : Int) : Bool :=
  decide (offset.natAbs ≤ 128 ∧ gain.natAbs ≤ 512 ∧ skew.natAbs ≤ 512)

/-- Store a slice's corrections; the end of a field stands for a limit that its width cannot hold. -/
def State.setSlice (s : State) (n i : Nat) (offset gain skew : Int) : State :=
  ((s.wrInt .lrxSliceOfs (clampInt (-128) 127 offset) n i).wrInt .lrxSliceGain (clampInt (-512) 511 gain) n i).wrInt
    .lrxSliceSkew (clampInt (-512) 511 skew) n i

/-- Position a slice serves, if any. -/
def State.posOfSlice (s : State) (n i : Nat) : Option Nat :=
  if s.rd .lrxAdcSpare n = i then none else (List.range 64).find? (fun p => s.rd .lrxSliceOfPos n p = i)

/-- A slice fails: the first failure uses up the spare, the second takes the lane to FAULT. A slice marked failed that fails
again is no new failure, which R100 leaves open: the lane runs on (R100, DESIGN CHOICE, log entry 60). -/
def State.sliceFail (s : State) (n i : Nat) : State :=
  if s.on .lrxSliceBad n i then s
  else if s.on .lrxNoSpare n then (s.wr .lrxSliceBad 1 n i).lrxFault n 9
  else
    let pos := s.posOfSlice n i
    let s := match pos with
      | some p => s.wr .lrxSliceOfPos (s.rd .lrxAdcSpare n) n p
      | none => s
    let s := ((s.wr .lrxSliceBad 1 n i).lrxAbandon n).puts [(.lrxAdcFailed, i), (.lrxNoSpare, 1), (.lrxAdcSpare, 0x7F)] n
    s.raise .lrxIntStatus Irq.lrxSliceFail n

/-- The offset DAC takes a code; arriving at an end of its range sets OFS_LIMIT in LRX_INT_STATUS (R87, R124). -/
def State.ofsPut (s : State) (n : Nat) (code : Int) : State :=
  let code := clampInt (-128) 127 code
  (s.wrInt .lrxOfsCode code n).when (ofsAtEnd code && !ofsAtEnd (s.rdInt .lrxOfsCode n)) (fun t =>
    t.raise .lrxIntStatus Irq.lrxOfsLimit n)

/-- LRX_CAL_DONE: PLLs locked, foreground calibration and offset initialisation complete; ACQUIRE, or FAULT where two
slices failed (R96, R100, R112, R116, R373, R430, R477). `est` is what the calibration measured; it is skipped where
the slice map or the retained record holds valid corrections. `ofs` is the code that the initialisation gives the offset DAC;
a valid record holds it instead; the linearity of the interpolators of the line points is measured (R112, R291, R382). -/
def execLrxCalDone (n : Lane) (est : List SliceEst) (ofs : BitVec 8) (linRx linTx : BitVec 1024) (s : State) : Out :=
  .next (if s.rd .lrxState n = 1 ∧ s.rxPlls n then
    let s := s.linMeasured n (8 + n) linRx linTx
    let skip := s.on .lrxMapValid n || s.on .lrxRecValid n
    let s := if skip then s
      else
        let s := s.each est (fun e t =>
          let t := t.setSlice n e.slice e.offset e.gain e.skew
          if sliceOk e.offset e.gain e.skew then t else t.sliceFail n e.slice)
        (s.bump .hltLnRxCnt n).wr .hltLnRxTime s.todWords n
    let s := s.when (!s.on .lrxRecValid n) (fun t => t.ofsPut n ofs.toInt)
    let s := s.puts [(.lrxMapValid, 1), (.lrxRecValid, 0)] n
    let s := if s.rd .lrxState n = 1 then s.lrxWaitSd n else s
    s.activeCheck
  else s)

/-- LRX_CAL_TIMEOUT (R112). -/
def execLrxCalTimeout (n : Lane) (s : State) : Out :=
  .next (if s.rd .lrxState n = 1 then (s.lrxFault n 1).activeCheck else s)

/-- ADC_SHADOW_DONE: the spare's estimate is checked and readies the swap, whose codeword boundary takes the corrections too;
below warning both wait (R97, R98, R100, R122, R429). -/
def execAdcShadowDone (n : Lane) (offset gain skew : Int) (s : State) : Out :=
  .next (if s.on .lrxCalActive n ∧ !s.on .lrxSwapReady n then
    let spare := s.rd .lrxAdcSpare n
    if !sliceOk offset gain skew then s.sliceFail n spare
    else
      let s := ((s.wrInt .lrxNewOfs (clampInt (-128) 127 offset) n).wrInt .lrxNewGain (clampInt (-512) 511 gain) n).wrInt
        .lrxNewSkew (clampInt (-512) 511 skew) n
      s.puts [(.lrxSwapReady, 1), (.lrxSwapDeferred, bit s.warning)] n
  else s)

/-- SWAP_DEFER_EXPIRY: a deferred swap is discarded and the step starts again (R98, R171). -/
def execSwapDeferExpiry (n : Lane) (tx : Bool) (s : State) : Out :=
  .next (if tx then (if s.on .ltxSwapDeferred n then s.puts [(.ltxSwapReady, 0), (.ltxSwapDeferred, 0)] n else s)
  else if s.on .lrxSwapDeferred n then s.puts [(.lrxSwapReady, 0), (.lrxSwapDeferred, 0)] n else s)

/-- ADC_OVERRANGE: one lane cycle with a sample at an ADC end (R101). -/
def execAdcOverrange (n : Lane) (s : State) : Out :=
  .next (if s.rd .lrxState n ≤ 1 then s
  else
    let s := s.bump .lrxOvrCnt n
    if s.lrxInTraffic n then s.faultEvent 2 n else s)

/-! ## Signal detect and wake pattern (R108 to R111) -/

/-- A rate is permitted, so WAIT_SD can complete (R207). -/
def State.ratePermitted (s : State) (n : Nat) : Bool := !s.on .lfrNoRate n

/-- The signal detector is powered: ENABLE is 1 and the device is not in Deep (R108). -/
def State.sdPowered (s : State) (n : Nat) : Bool := s.on .lrxEnable n && s.rd .pwrDevState != 5

/-- SD_ASSERT: SD, SD_ASSERT, the end of WAIT_SD, or a wake source (R108, R111, R113). -/
def execSdAssert (n : Lane) (s : State) : Out :=
  .next (if s.on .lrxSd n || !s.sdPowered n then s
  else
    let s := (s.wr .lrxSd 1 n).raise .lrxIntStatus Irq.lrxSdAssert n
    let s := s.lineWake 1 n
    if s.rd .lrxState n = 2 ∧ s.rd .lrxAcqPhase n = 0 ∧ s.ratePermitted n then s.lrxStartAgc n else s)

/-- SD_DEASSERT: back to WAIT_SD, counted in TRAIN, LOCKED and SERVICE (R109, R116, R445). -/
def execSdDeassert (n : Lane) (s : State) : Out :=
  .next (if !s.on .lrxSd n then s
  else
    let s := (s.wr .lrxSd 0 n).cmis .rxLos n
    if s.on .lrxSleep n then s
    else if s.lrxInTraffic n then
      let s := (s.bump .lrxSdLossCnt n).raise .lrxIntStatus Irq.lrxSdLoss n
      s.lrxWaitSd n
    else if s.rd .lrxState n = 2 then s.lrxWaitSd n
    else s)

/-- WAKE_PATTERN_DETECT: the detector works on the comparator's output, so while that is powered (R108, R110, R111). -/
def execWakePatternDetect (n : Lane) (s : State) : Out :=
  .next (if s.sdPowered n then (s.raise .lrxIntStatus Irq.lrxWakePat n).lineWake 2 n else s)

/-! ## AGC (R87 to R94, R512) -/

/-- An event of R116 takes a lane in traffic to `g`, or to FAULT where it makes its source lasting (R116, R117). -/
def State.reacquire (s : State) (src n : Nat) (g : State → State) : State :=
  let r := s.countEvent src n
  if r.2 then r.1.lrxFault n 8 else g r.1

/-- Windows of the AGC sub-phase in RUN. A window that finds the code at 192 and the level still low counts as one in
tolerance, as the lane still acquires with the VGA stopped there (R84, R89, R90, DEDUCED, log entry 60). -/
def State.agcRun (s : State) (n : Nat) (err : Int) : State :=
  let sh := s.use .lrxAgcSh n
  let stopped := decide (err < -128) && s.rd .lrxVgaCode n == 192
  let s := s.wr .lrxVgaCode (clampInt 0 192 ((s.rd .lrxVgaCode n : Int) - agcStep err sh)).toNat n
  if stopped ∨ (-128 ≤ err ∧ err < 128) then
    if 7 ≤ s.rd .lrxGoodWin n then (s.puts [(.lrxAgcState, 1), (.lrxGoodWin, 0), (.lrxCapWin, 0)] n).lrxCdrPhase n
    else s.wr .lrxGoodWin (s.rd .lrxGoodWin n + 1) n
  else s.wr .lrxGoodWin 0 n

/-- A capture during acquisition: restart at the AGC sub-phase, the ninth fails the attempt (R92). -/
def State.acqCapture (s : State) (n : Nat) : State :=
  let s := (s.bump .lrxAcqCaptureCnt n).wr .lrxCapWin 0 n
  if 8 ≤ s.rd .lrxCapRestarts n then s.lrxAttemptFail n 2
  else (s.wr .lrxCapRestarts (s.rd .lrxCapRestarts n + 1) n).lrxStartAgc n

/-- Windows in TRAIN, LOCKED and SERVICE: capture events and level drops. Windows in ACQUIRE neither count towards a level drop
nor rearm its detection, as R94 speaks of these states alone (DESIGN CHOICE, log entry 60) (R93, R94). -/
def State.agcService (s : State) (n : Nat) (err : Int) : State :=
  let c : Int := 16 * s.rd .lrxSvcCaptureDb n
  let low := decide (err < -c)
  let s := if low then s.wr .lrxDropWin (min 4 (s.rd .lrxDropWin n + 1)) n else s.puts [(.lrxDropWin, 0),
    (.lrxDropArmed, 1)] n
  let s := s.when (s.rd .lrxDropWin n == 4 && s.on .lrxDropArmed n) (fun t =>
    ((t.bump .lrxLevelDropCnt n).raise .lrxIntStatus Irq.lrxLevelDrop n).wr .lrxDropArmed 0 n)
  if s.rd .lrxAgcState n = 3 then s
  else if c ≤ err then
    if 3 ≤ s.rd .lrxCapWin n then
      let s := ((s.bump .lrxCaptureSvcCnt n).raise .lrxIntStatus Irq.lrxCapture n).wr .lrxCapWin 0 n
      s.reacquire 0 n (fun t => (t.wr .lrxCapRestarts 0 n).lrxStartAgc n)
    else s.wr .lrxCapWin (s.rd .lrxCapWin n + 1) n
  else s.wr .lrxCapWin 0 n

/-- The offset loop's step of a window (R87). -/
def State.ofsLoop (s : State) (n : Nat) (step : Int) : State := s.ofsPut n (s.rdInt .lrxOfsCode n + clampInt (-1) 1 step)

/-- AGC_WINDOW: the end of a level window of 64 lane cycles (R87 to R94, R512). `level` is LEVEL in UQ8.8 dB, `ofsStep`
the step the offset loop takes. -/
def execAgcWindow (n : Lane) (level : Nat) (ofsStep : Int) (s : State) : Out :=
  let st := s.rd .lrxState n
  .next (if 2 ≤ st ∧ st ≤ 5 ∧ !s.on .lrxSleep n then
    let s := (s.wr .lrxLevel level n).ofsLoop n ofsStep
    let err := levelErr (level % 65536) (s.use .lrxAgcTarget n)
    let ph := s.rd .lrxAcqPhase n
    if 3 ≤ st then s.agcService n err
    else if ph = 1 then (if s.rd .lrxAgcState n = 3 then s.lrxCdrPhase n else s.agcRun n err)
    else if 2 ≤ ph ∧ s.rd .lrxAgcState n = 1 then
      if 16 * s.rd .lrxCaptureDb n ≤ err then
        if 3 ≤ s.rd .lrxCapWin n then s.acqCapture n else s.wr .lrxCapWin (s.rd .lrxCapWin n + 1) n
      else s.wr .lrxCapWin 0 n
    else s
  else s)

/-- AGC_TRIM_STEP: 10 µs in FROZEN; `avgErr` is the averaged E in 1/256 dB. Where TRIM_RANGE has been lowered below the present
trim, a step inward that still ends outside it passes the limit too and is refused with TRIM_LIMIT (DESIGN CHOICE, log entry
60) (R91, R122). -/
def execAgcTrimStep (n : Lane) (avgErr : Int) (s : State) : Out :=
  .next (if s.lrxInTraffic n ∧ s.rd .lrxAgcState n = 2 ∧ !s.on .lrxSleep n ∧ s.use .lrxTrimEn n ≠ 0 ∧ !s.warning ∧
      64 < avgErr.natAbs then
    let d : Int := if 0 < avgErr then -1 else 1
    let trim := s.rdInt .lrxTrim n + d
    if s.use .lrxTrimRange n < 2 * trim.natAbs then s.raise .lrxIntStatus Irq.lrxTrimLimit n
    else s.wr .lrxTrimStep (if d = 1 then 1 else 2) n
  else s)

/-! ## Clock recovery and the lane state machine (R104 to R107, R112 to R121) -/

/-- A loss of lock of the line CDR; re-acquisition keeps what R116 lists, and the integral path is not listed (R105, R115,
R116). -/
def State.lrxCdrLoss (s : State) (n : Nat) : State :=
  let s := s.puts [(.lrxCdrLock, 0), (.lrxQuietInt, 0)] n
  if s.lrxInTraffic n then
    let s := (s.bump .lrxCdrLolCnt n).raise .lrxIntStatus Irq.lrxCdrLol n
    s.reacquire 1 n (fun t => (t.cdrStart n).lrxCdrPhase n)
  else s.lrxAttemptFail n 3

/-- Gain shifts in use: the acquisition set until frame lock, then the tracking set (R104). -/
def State.cdrGains (s : State) (n : Nat) : Nat × Nat :=
  if s.on .lrxTrkGains n then (s.use .lrxKpShTrk n, s.use .lrxKiShTrk n) else (s.use .lrxKpShAcq n, s.use .lrxKiShAcq n)

/-- The loop runs an interval of 1,450 lane cycles; in hold it sees no timing error. FREQ and PHASE follow; the truncation
of PHASE to interpolator steps is free (R102, R104, R106, R107, log entry 57). -/
def State.cdrRun (s : State) (n : Nat) (hold : Bool) (errs : List Int) : State × CdrLoop :=
  let g := s.cdrGains n
  let a := CdrLoop.run g.1 g.2 ⟨s.rdInt .lrxCdrInt n, 0, 0, 0⟩ 1450 (if hold then [] else errs)
  let acc := ((s.rd .lrxCdrAcc n : Int) + a.phase) % 2 ^ 56
  (((s.wrInt .lrxCdrInt a.integ n).wrInt .lrxCdrFreq (cdrFreqOf lineUi a.integ) n).puts
    [(.lrxCdrAcc, acc.toNat), (.lrxCdrPhase, (roundOpen 5 acc (2 ^ 24)).toNat)] n, a)

/-- CDR_LOCK_INTERVAL: the end of an interval of 1,450 lane cycles with the timing error of each in 2^-16 UI. In RX Doze the
rotator turns on at the held frequency. In FAULT, where R118 says that the CDR holds, PHASE and FREQ stand still: the model does
not take this for the hold of R107 (DESIGN CHOICE, log entry 60) (R102 to R107, R118, R121). -/
def execCdrLockInterval (n : Lane) (errs : List Int) (s : State) : Out :=
  let st := s.rd .lrxState n
  let ph := s.rd .lrxAcqPhase n
  .next (if !((st = 2 ∧ 2 ≤ ph) ∨ s.lrxInTraffic n) then s
  else if s.on .lrxSleep n then (if s.rd .pwrLnLrxPstate n = 4 then (s.cdrRun n true []).1 else s)
  else
    let old := s.rdInt .lrxCdrInt n
    let r := s.cdrRun n (s.use .lrxCdrHold n != 0) errs
    let new := r.2.integ
    let s := r.1
    if s.on .lrxCdrLock n then (if cdrLost lineUi r.2 then s.lrxCdrLoss n else s)
    else if cdrQuiet lineUi old new && cdrInRange lineUi new then
      if 7 ≤ s.rd .lrxQuietInt n then
        let s := s.puts [(.lrxCdrLock, 1), (.lrxQuietInt, 0)] n
        if st = 2 ∧ ph = 2 then s.lrxFfePhase n else s.leqFollow n
      else s.wr .lrxQuietInt (s.rd .lrxQuietInt n + 1) n
    else s.wr .lrxQuietInt 0 n)

/-- ACQ_TIMEOUT: the timer of sub-phase `phase` expires; in discovery the next attempt takes the other rate (R113 to
R115, R207). -/
def execAcqTimeout (n : Lane) (phase : Fin 5) (s : State) : Out :=
  .next (if s.rd .lrxState n = 2 ∧ s.rd .lrxAcqPhase n = phase.val ∧ phase.val ≠ 0 then
    s.lrxAttemptFail n (phase.val + 1)
  else s)

/-- TRAIN_TIMEOUT (R115). -/
def execTrainTimeout (n : Lane) (s : State) : Out :=
  .next (if s.rd .lrxState n = 3 then s.lrxFault n 6 else s)

/-- LRX_FAULT_AUTO_RESTART: FAULT_HOLD_US after the entry (R118). -/
def execLrxFaultAutoRestart (n : Lane) (s : State) : Out :=
  .next (if s.rd .lrxState n = 7 ∧ s.on .lrxRestartArm n ∧ s.on .lrxAutoRestart n then
    let toCal := s.rd .lrxFaultCause n = 1 ∨ !s.rxPlls n
    let s := s.puts [(.lrxRestartArm, 0), (.lrxRetry, 0), (.lrxFaultCause, 0)] n
    if toCal then s.lrxToCal n else s.lrxWaitSd n
  else s)

/-- LOCKED_TO_SERVICE: released, ledger valid, host lanes ready, SERVICE_EN; a sleeping lane keeps its state (R120, R121). -/
def execLockedToService (n : Lane) (s : State) : Out :=
  .next (if s.rd .lrxState n = 4 ∧ !s.on .lrxSleep n ∧ s.on .lrxReleased n ∧ (s.rd .timLnLedFlags n).testBit 0 ∧
      (s.activeHosts n).all (fun h => s.on .hifTxReady h) ∧ s.on .lrxServiceEn n then s.lrxSet n 5 else s)

/-- SERVICE_EXIT: the frame boundary after SERVICE_EN was written 0; a sleeping lane keeps its state (R120, R121). -/
def execServiceExit (n : Lane) (s : State) : Out :=
  .next (if s.rd .lrxState n = 5 ∧ !s.on .lrxSleep n ∧ !s.on .lrxServiceEn n then s.lrxSet n 4 else s)

/-- RX_SLEEP_WAKE: the resume steps of RX Doze or RX Nap start (R121). -/
def execRxSleepWake (n : Lane) (s : State) : Out :=
  .next (if s.on .lrxSleep n then s.wr .lrxWakeRun 1 n else s)

/-- RX_RESUME_DONE: the lane is back in its state, or acquires again with WARM_FAIL. The window that a resume from RX Nap has
checked rearms level-drop detection. From RX Nap a record that fails its CRC takes the lane through a full calibration, which
the model does not count in WARM_FAIL (DESIGN CHOICE, log entry 60) (R94, R121, R382). -/
def execRxResumeDone (n : Lane) (ok recOk : Bool) (s : State) : Out :=
  .next (if s.on .lrxSleep n ∧ s.on .lrxWakeRun n then
    let nap := s.rd .pwrLnLrxPstate n = 5
    let s := s.puts [(.lrxSleep, 0), (.lrxWakeRun, 0), (.pwrLnLrxPstate, 0)] n
    if nap ∧ !recOk then (((s.recordBad .lrx n).recordBad .leq n).wr .lrxMapValid 0 n).lrxToCal n
    else if ok then (s.when nap (fun t => t.wr .lrxDropArmed 1 n)).leqFollow n
    else
      let s := s.bump .lrxWarmFailCnt n
      if nap then (s.wr .lrxCapRestarts 0 n).lrxStartAgc n else s.lrxCdrPhase n
  else s)

end Sys2Proof.Machine
end

