-- ==== Sys2Proof/Machine/Symbols.lean ====
section
/-!
DEFINITION. The transmitter's symbol arithmetic as plain functions: mapping and precoder, FIR, pre-distortion, DAC codes and
cells, test and wake patterns, and the spectral estimate (R161 to R168, R184, R185).
-/
namespace Sys2Proof.Machine

/-! ## Mapping (R161) -/

/-- The symbol of a level, -3 to +3 in steps of 2. -/
def symbolOf (q : Nat) : Int := 2 * q - 3

/-- POL_INV negates the symbol. -/
def invertLevel (inv : Bool) (q : Nat) : Nat := if inv then 3 - q else q

/-- The precoder 1/(1+D) modulo 4 over a run of levels, from its last output on. -/
def precodeRun : Nat → List Nat → List Nat
  | _, [] => []
  | p, g :: l => let x := (g + 4 - p % 4) % 4; x :: precodeRun x l

/-! ## Shaping (R162, R163, R165) -/

/-- 1,024 times the FIR output for symbol k, from a(k + 2) down to a(k - 6), and the taps h(0) to h(8) in Q2.10 (R162). -/
def firOutput (taps window : List Int) : Int := 42 * dot taps window

/-- The LUT entry that symbol k selects, from the levels of a(k - 1), a(k), a(k + 1) (R165). -/
def lutIndex (before here after : Nat) : Nat := 16 * before + 4 * here + after

/-- The DAC code before clipping, from 1,024 times u0 and the LUT entry in Q6.2 (R163). -/
def rawCode (fir p : Int) : Int := roundHalfAway (fir + 256 * p + 127 * 1024) 2048

/-- The code is clipped to 0 to 127 (R163). -/
def dacCode (fir p : Int) : Nat := (clampInt 0 127 (rawCode fir p)).toNat

/-- The code leaves 0 to 127 before clipping (R163). -/
def codeClips (fir p : Int) : Bool := decide (rawCode fir p < 0 ∨ 127 < rawCode fir p)

/-! ## DAC (R168) -/

/-- Positions that a code turns on: 0 to c - 1. -/
def positionsOn (c : Nat) : List Nat := List.range c

/-- The even and the odd latch of the cell at a position, for the codes of an even symbol and the odd symbol after it. -/
def cellLatches (even odd pos : Nat) : Bool × Bool := (decide (pos < even), decide (pos < odd))

/-- The selector at the cell's output: the latch of the symbol's parity. -/
def cellOutput (latches : Bool × Bool) (k : Nat) : Bool := if k % 2 = 0 then latches.1 else latches.2

/-! ## Patterns (R184, R185) -/

/-- Level of symbol `k` of a test pattern; `level` is PAT_LEVEL (R184). -/
def patternLevel (sel level k : Nat) : Nat :=
  if sel = 4 then (if k % 16 < 8 then 3 else 0)
  else if sel = 5 then level
  else (Config.ieeePattern sel k).toNat

/-- Lane cycles of a burst of the wake pattern, and of the gap after it (R185). -/
def wakeCycles : Nat := 1417

/-- The code of symbol `k` of the wake pattern, nothing in a gap: PRBS13Q past FIR, LUT and precoder. The sequence runs on
through the gaps, where R185 does not say whether a burst starts it again (DESIGN CHOICE, log entry 58) (R185). -/
def wakeCode (k : Nat) : Option Nat :=
  if k / 160 / wakeCycles % 2 = 1 then none else some ([0, 42, 85, 127].getD (Config.ieeePattern 1 k).toNat 0)

/-! ## Spectral mask monitor (R166, R167) -/

/-- A block of the monitor: 64 codes, nothing for a muted symbol (R166). -/
abbrev MaskBlock := List (Option Nat)

/-- A block counts unless one of its symbols is muted (R166). -/
def maskTaken (b : MaskBlock) : Bool := decide (b.length = 64) && b.all (fun c => c.isSome)

/-- Half-angle step: cos(x/2) from cos(x), both in units of 2^-120. -/
def halfAngle (c : Nat) : Nat := rootBelow 2 ((2 ^ 120 + c) * 2 ^ 119) 121 0

/-- cos(2π/64) in units of 2^-120, from cos(π/2) = 0 by half angles. -/
def cosStep : Nat := halfAngle (halfAngle (halfAngle (halfAngle 0)))

/-- cos(2πk/64) and cos(2π(k+1)/64) in units of 2^-120, by the addition formula. -/
def cosPair : Nat → Int × Int
  | 0 => (2 ^ 120, cosStep)
  | k + 1 => let p := cosPair k; (p.2, 2 * cosStep * p.2 / 2 ^ 120 - p.1)

/-- cos(2πk/64) in units of 2^-120, folded to the first quarter, with its zeros exact. -/
def cosFixed (k : Nat) : Int :=
  let j := k % 64
  let m := if j ≤ 32 then j else 64 - j
  if m < 16 then (cosPair m).1 else if m = 16 then 0 else -(cosPair (32 - m)).1

/-- cos(2πk/64) as the monitor holds it: to a number of bits that R166 does not give, between two neighbours (log entry 59). -/
def cosHeld (k : Nat) : Int := roundOpen 9 (cosFixed k * 2 ^ Config.spectrumBits) (2 ^ 120)

/-- Weight `m` of the 64-point Hann window, (1 - cos(2πm/64))/2, as the monitor holds it (R166; the periodic form of the
window, DESIGN CHOICE, log entry 59). -/
def hannHeld (m : Nat) : Int := roundOpen 10 ((2 ^ 120 - cosFixed m) * 2 ^ Config.spectrumBits) (2 ^ 121)

/-- The windowed output levels of a block (R166). -/
def hannBlock (b : MaskBlock) : List Int := b.zipIdx.map (fun e => (2 * (e.1.getD 0 : Int) - 127) * hannHeld e.2)

/-- |X(j)|² of a block, bin j of its 64-point DFT: squared cosine and sine sums (R166). -/
def binPower (b : MaskBlock) (j : Nat) : Nat :=
  let w := hannBlock b
  let sum (phase : Nat) : Int := dot w ((List.range 64).map (fun m => cosHeld (j * m + phase)))
  ((sum 0) ^ 2 + (sum 16) ^ 2).toNat

/-- The powers of bins 0 to 32 added to a running sum (R166). -/
def maskAdd (sum : List Nat) (b : MaskBlock) : List Nat := (List.range 33).map (fun j => sum.getD j 0 + binPower b j)

/-- `10 · log10 (p / total)` is at least `v / 256` dB, for `v` at most 0. -/
def ratioAtLeast (p total : Nat) (v : Int) : Bool := decide (total ^ 2560 ≤ p ^ 2560 * 10 ^ v.natAbs)

/-- The greatest Q8.8 value from `-acc` down that a ratio reaches, found bit by bit below 2^bits. -/
def ratioSearch (p total : Nat) : Nat → Nat → Nat
  | 0, acc => acc
  | k + 1, acc => ratioSearch p total k (if ratioAtLeast p total (-(acc + 2 ^ k - 1 : Int)) then acc else acc + 2 ^ k)

/-- A bin's power relative to the sum of all bins: Q8.8 dB, floored at -128.0 dB; where it lies between two values, which
one it takes is open (R166, log entry 57). -/
def binDb (p total : Nat) : Int :=
  let low : Int := -(ratioSearch p total 16 0 : Int)
  if p = 0 ∨ low ≤ -32768 then -32768
  else if p ^ 2560 * 10 ^ low.natAbs = total ^ 2560 then low
  else low + bit (Config.openBit 2 p total)

end Sys2Proof.Machine
end

