-- ==== Sys2Proof/Machine/LineTx.lean ====
section
/-!
DEFINITION. The commands and events of the line transmit path: the enable, disable and fault sequences, DAC calibration
and its cells, the mask monitor, the wake pattern and transmit sleep (R160 to R190).
-/
namespace Sys2Proof.Machine

/-! ## Enable (R174 to R176) -/

/-- TX_EN written 1: the request goes ahead or waits (R174, R420). -/
def State.ltxEnableOn (s : State) (n : Nat) : State :=
  if s.on .ltxHeldOff n then s else (s.wr .ltxTxEn 1 n).ltxRecheck n

/-- TX_ENABLE_REQUEST; under test the mirror takes TX_EN at once (R174, R418, R423). -/
def execTxEnableRequest (n : Lane) (s : State) : Out :=
  .next (s.access .ltx n (fun s =>
    (s.when (s.underTest 1 n && !s.on .ltxHeldOff n) (fun t => t.wr .ltxTxEn 1 n)).laneService n (.txEnable n)
      (fun t => t.ltxEnableOn n)))

/-- TX_ENABLE_GO: all conditions hold; DRV_ON with the DAC muted, and the envelope grants or refuses DRV_ENn (R176,
R349). -/
def execTxEnableGo (n : Lane) (s : State) : Out :=
  .next (if s.rd .ltxState n = 1 ∧ s.on .ltxTxEn n ∧ s.ltxHold n = 0 ∧ !s.pinsUnderTest n then
    let s := (s.puts [(.ltxTxenPending, 0), (.ltxHoldReason, 0), (.ltxTmoRun, 0), (.ltxMuted, 1)] n).ltxSet n 2
    if s.envGrants n then s.wr .ltxDrvEn 1 n else s.ltxFault n 5
  else s)

/-- TXEN_TIMEOUT: the pending time has run TXEN_TMO_US (R175). -/
def execTxenTimeout (n : Lane) (s : State) : Out :=
  .next (if s.on .ltxTmoRun n then s.ltxFault n 1 else s)

/-- The envelope grants LSR_ENn: the clamp opens and the bias ramp starts; the first grant after an off time opens the
probe window, which runs on through a fault (R176, R341, R346, R351). -/
def State.laserOn (s : State) (n : Nat) : State :=
  let s := s.puts [(.ltxLsrEn, 1), (.optLnClamp, 0), (.optLnRamp, 1), (.optRampDown, 0), (.optLnBiasReady, 0)] n
  s.when (s.on .optTripped n) (fun t => t.puts [(.optProbeRun, 1), (.optLnProbe, 1)] n)

/-- A debounced low level of DRV_FLT_Nn counts (R179). -/
def State.drvLow (s : State) (n : Nat) : State := (s.bump .ltxDrvFltCnt n).raise .ltxIntStatus Irq.ltxDrvFlt n

/-- DRV_SETTLE_EXPIRY: DRV_FLT_Nn checked, LSR_ENn requested (R176, R179, R349). -/
def execDrvSettleExpiry (n : Lane) (drvFltHigh : Bool) (s : State) : Out :=
  .next (if s.rd .ltxState n = 2 ∧ s.on .ltxDrvEn n then
    if !drvFltHigh then (s.drvLow n).ltxFault n 2
    else if !s.envGrants n then s.ltxFault n 5
    else (s.laserOn n).ltxSet n 3
  else s)

/-- BIAS_TIMEOUT: bias not ready within LSR_SETTLE_US (R176). -/
def execBiasTimeout (n : Lane) (s : State) : Out :=
  .next (if s.rd .ltxState n = 3 ∧ !s.on .ltxActPend n then s.ltxFault n 3 else s)

/-- TX_ACTIVATE: the frame boundary after bias ready; a restart duty that reaches ACTIVE ends. The phase its FIFO runs with is free
(R176, R351, R382, log entry 2). -/
def execTxActivate (n : Lane) (s : State) : Out :=
  .next (if s.rd .ltxState n = 3 ∧ s.on .ltxActPend n then
    let s := s.puts [(.ltxActPend, 0), (.ltxMuted, 0), (.optTripped, 0), (.optProbeRun, 0), (.optLnProbe, 0)] n
    ((s.ltxSet n 4).wrFree .ltxFifoPhase n).raise .ltxIntStatus Irq.ltxTxActive n
  else s)

/-! ## Disable (R177) -/

/-- TX_EN written 0 (R177, R181, R413, R423). -/
def State.ltxEnableOff (s : State) (n : Nat) : State :=
  let s := { s with deferred := s.deferred.filter (· ≠ SvcReq.txEnable n) }
  (((s.wr .ltxTxEn 0 n).ltxDisable n).ltxFaultEnd n).clearLastings [7, 8, 12, 13] n

/-- TX_DISABLE: each trigger acts where its condition holds (R177). -/
def execTxDisable (n : Lane) (trigger : DisableTrigger) (s : State) : Out :=
  .next (match trigger with
    | .txEnCleared => s.access .ltx n (fun t => t.ltxEnableOff n)
    | .laneOff => if s.rd .lrxState n = 0 then s.ltxDisable n else s
    | .pllCal => if s.on .pllReqPend (linePll n) then s.ltxDisable n else s
    | .fullCommit => if s.rd .imgState = 6 then (s.wr .ltxTxEn 0 n).ltxDisable n else s)

/-- TX_DISABLE_MUTE: the codeword boundary of the disable sequence mutes the DAC; LSR_ENn deasserts (R177). -/
def execTxDisableMute (n : Lane) (s : State) : Out :=
  .next (if s.rd .ltxState n = 5 ∧ s.on .ltxLsrEn n ∧ !s.on .ltxHoldRun n then s.ltxLaserOff n else s)

/-- DRV_HOLD_EXPIRY (R177). -/
def execDrvHoldExpiry (n : Lane) (s : State) : Out :=
  .next (if s.rd .ltxState n = 5 ∧ s.on .ltxHoldRun n then s.ltxDisableEnd n else s)

/-! ## Commands and faults (R178 to R181, R190) -/

/-- The direction leaves FAULT for CAL; a calibration that had not ended starts again (R169, R181). -/
def State.ltxLeaveFault (s : State) (n : Nat) : State :=
  let s := s.puts [(.ltxFaultCause, 0), (.ltxRestartArm, 0), (.ltxDacOffRun, 0), (.ltxDacOn, 1)] n
  let s := s.when (!s.on .ltxDacCal n && !s.on .ltxDacCalRun n) (fun t => t.wr .ltxDacCalRun 1 n)
  s.ltxSet n 1

/-- RESTART of the transmit direction (R181, R413). -/
def State.ltxRestartNow (s : State) (n : Nat) : State :=
  if s.rd .ltxState n = 7 ∧ s.rd .ltxFaultCause n ≠ 8 then
    ((s.ltxLeaveFault n).clearLastings [7, 8, 12, 13] n).ltxRecheck n
  else s

/-- LTX_RESTART (R181, R423). -/
def execLtxRestart (n : Lane) (s : State) : Out :=
  .next (s.access .ltx n (fun s => s.laneService n (.ltxRestart n) (fun t => t.ltxRestartNow n)))

/-- COMMIT of LTX_CTRL: at the next line TX codeword boundary, at once in OFF, held below warning (R45, R188, R190). -/
def State.ltxCommitNow (s : State) (n : Nat) : State :=
  if s.warning then (s.wr .ltxCommit 1 n).raise .ltxIntStatus Irq.ltxCommitHeld n
  else if s.rd .ltxState n = 0 then s.ltxApply n
  else s.wr .ltxCommit 1 n

/-- LTX_COMMIT (R190, R423). -/
def execLtxCommit (n : Lane) (s : State) : Out :=
  .next (s.access .ltx n (fun s => s.laneService n (.ltxCommit n) (fun t => t.ltxCommitNow n)))

/-- LTX_CNT_CLR (R190). -/
def execLtxCntClr (n : Lane) (s : State) : Out :=
  .next (s.access .ltx n (fun s => s.clear [.ltxClipCnt, .ltxMaskViolCnt, .ltxFaultCnt, .ltxDrvFltCnt, .ltxWakeSent] n))

/-- DRV_FAULT: a debounced low DRV_FLT_Nn, monitored while DRV_ENn is asserted (R179). -/
def execDrvFault (n : Lane) (s : State) : Out :=
  .next (if s.on .ltxDrvEn n then
    let s := s.drvLow n
    let st := s.rd .ltxState n
    if st = 2 ∨ st = 3 ∨ st = 4 then s.ltxFault n 2 else s
  else s)

/-- TX_FAULT_DAC_OFF: step 4 of the fault sequence (R178). -/
def execTxFaultDacOff (n : Lane) (s : State) : Out :=
  .next (if s.rd .ltxState n = 7 ∧ s.on .ltxDacOffRun n then s.puts [(.ltxDacOn, 0), (.ltxDacOffRun, 0)] n else s)

/-- TX_FAULT_AUTO_RESTART: FAULT_HOLD_US after a cause that restarts by itself (R180). -/
def execTxFaultAutoRestart (n : Lane) (s : State) : Out :=
  .next (if s.rd .ltxState n = 7 ∧ s.on .ltxRestartArm n ∧ s.on .ltxAutoRestart n then
    (s.ltxLeaveFault n).ltxRecheck n
  else s)

/-! ## DAC calibration and cells (R168 to R172) -/

/-- A cell fails and is retired; the eighth leaves no spare, the ninth no cell for a position (R172). -/
def State.cellFail (s : State) (n c : Nat) : State :=
  if s.on .ltxCellBad n c then s
  else
    let spares := s.outCells n
    let s := (s.wr .ltxCellBad 1 n c).wr .ltxFailedCnt (min 9 (s.rd .ltxFailedCnt n + 1)) n
    let s := (s.raise .ltxIntStatus Irq.ltxCellFail n).when (spares.contains c) (fun t => t.setOutCells n (spares.erase c))
    let s := s.when (8 ≤ s.rd .ltxFailedCnt n) (fun t =>
      t.puts [(.ltxNoSpare, 1), (.ltxCalActive, 0), (.ltxSwapReady, 0), (.ltxSwapDeferred, 0)] n)
    let s := s.when (s.rd .ltxState n == 0) (fun t => t.cellRepair n)
    s.when (s.rd .ltxFailedCnt n == 9) (fun t => t.ltxFault n 8)

/-- The results of a foreground calibration are committed: trims, then the interleave skew (R169, R172, R180). -/
def State.dacCalApply (s : State) (n : Nat) (trims : List (Nat × Int)) (intlv : Int) : State :=
  let s := s.each trims (fun e t => if -32 ≤ e.2 ∧ e.2 ≤ 31 then t.wrInt .ltxCellTrimOf e.2 n e.1 else t.cellFail n e.1)
  let s := s.puts [(.ltxDacCalRun, 0), (.ltxCalWait, 0)] n
  if -64 ≤ intlv ∧ intlv ≤ 63 then ((s.wrInt .ltxIntlvSkew intlv n).wr .ltxDacCal 1 n).ltxRecheck n
  else s.ltxFault n 0xB

/-- DAC_CAL_DONE: the measured cell trims, cell 0 first, and the interleave skew in 25 fs; results below warning wait
(R169, R188). -/
def execDacCalDone (n : Lane) (trims : List Int) (intlv : Int) (s : State) : Out :=
  .next (if s.rd .ltxState n = 1 ∧ s.on .ltxDacCalRun n ∧ s.pllRuns (linePll n) then
    let whole := s.rd .ltxDacCalRun n = 1
    let l := if whole then ((trims.take 135).zipIdx.map (fun e => (e.2, e.1))).filter (fun e => !s.on .ltxCellBad n e.1)
      else []
    if s.warning then
      let s := s.each (List.range 135) (fun c t => t.wr .ltxCellTrimNew 0x7F n c)
      let s := s.each l (fun e t => t.wrInt .ltxCellTrimNew (clampInt (-128) 126 e.2) n e.1)
      (s.wrInt .ltxIntlvNew (clampInt (-256) 255 intlv) n).wr .ltxCalWait 1 n
    else s.dacCalApply n l intlv
  else s)

/-- Results that waited for the supply are committed (R188). A waiting trim of 0x7F stands for none. -/
def State.dacCalRelease (s : State) (n : Nat) : State :=
  if s.on .ltxCalWait n ∧ s.rd .ltxState n = 1 ∧ s.on .ltxDacCalRun n then
    let l := ((List.range 135).map (fun c => (c, s.rdInt .ltxCellTrimNew n c))).filter (fun e => e.2 ≠ 127)
    s.dacCalApply n l (s.rdInt .ltxIntlvNew n)
  else s.wr .ltxCalWait 0 n

/-- DAC_CELL_TRIM_DONE: the cell is ready to take its trim and target position, or fails (R170 to R172). -/
def execDacCellTrimDone (n : Lane) (trim : Int) (s : State) : Out :=
  .next (if s.on .ltxCalActive n ∧ !s.on .ltxSwapReady n then
    let c := s.rd .ltxNextIn n
    if -32 ≤ trim ∧ trim ≤ 31 then (s.wrInt .ltxTrimNew trim n).wr .ltxSwapReady 1 n
    else (s.wr .ltxCalActive 0 n).cellFail n c
  else s)

/-- DAC_CLIP: a lane cycle with a clamped code, counted in ACTIVE; R163 names no state (R163, DESIGN CHOICE, log entry
62). -/
def execDacClip (n : Lane) (s : State) : Out :=
  .next (if s.rd .ltxState n = 4 then (s.bump .ltxClipCnt n).raise .ltxIntStatus Irq.ltxClip n else s)

/-! ## Mask monitor (R166, R167) -/

/-- Limit of mask bin `j` in use, in 1/256 dB. -/
def State.maskLimit (s : State) (n j : Nat) : Int :=
  s.useInt (if j % 2 = 0 then .ltxMaskLimEven else .ltxMaskLimOdd) n (j / 2)

/-- The bin with the largest excess over its limit, the lowest of equals, with that excess. -/
def State.maskWorst (s : State) (n : Nat) (bins : List (Nat × Int)) : Option (Nat × Int) :=
  bins.foldl (fun w e =>
    let x := e.2 - s.maskLimit n e.1
    if x ≤ 0 then w
    else match w with
      | some v => if v.2 < x then some (e.1, x) else w
      | none => some (e.1, x)) none

/-- The end of an average: each bin's power relative to the sum of all, floored, violations counted (R166, R167). -/
def State.maskReport (s : State) (n : Nat) : State :=
  let sums := (List.range 33).map (fun j => s.rd .ltxMaskSum n j)
  let l := sums.zipIdx.map (fun e => (e.2, binDb e.1 sums.sum))
  let s := s.each l (fun e t => t.wrInt (if e.1 % 2 = 0 then .ltxMaskBinEven else .ltxMaskBinOdd) e.2 n (e.1 / 2))
  let s := (s.wr .ltxMaskValid 1 n).maskDiscard n
  match s.maskWorst n l with
  | none => s.wr .ltxMaskViol 0 n
  | some (j, x) =>
    let s := s.puts [(.ltxMaskViol, 1), (.ltxMaskWorstBin, j), (.ltxMaskWorstExcess, x.toNat)] n
    let s := (s.bump .ltxMaskViolCnt n).raise .ltxIntStatus Irq.ltxMaskViol n
    s.when (s.use .ltxMaskAct n != 0) (fun t => t.faultEvent 7 n)

/-- A block of the monitor: one with a muted symbol is skipped; 2^MASK_AVG blocks complete an average (R166). -/
def State.maskBlock (s : State) (n : Nat) (b : MaskBlock) : State :=
  if !maskTaken b then s
  else
    let sums := maskAdd ((List.range 33).map (fun j => s.rd .ltxMaskSum n j)) b
    let s := (s.each sums.zipIdx (fun e t => t.wr .ltxMaskSum e.1 n e.2)).bump .ltxMaskCnt n
    if 2 ^ s.use .ltxMaskAvg n ≤ s.rd .ltxMaskCnt n then s.maskReport n else s

/-- MASK_AVERAGE_END: the blocks of DAC codes taken since the last such event, one every 2^MASK_SH lane cycles, nothing
standing for a muted symbol. The average ends with its last block (R166, R167). -/
def execMaskAverageEnd (n : Lane) (blocks : List (List (Option (BitVec 7)))) (s : State) : Out :=
  .next (if s.use .ltxMaskEn n ≠ 0 ∧ s.rd .ltxState n ≠ 0 then
    s.each blocks (fun b t => t.maskBlock n (b.map (fun c => c.map (·.toNat))))
  else s)

/-! ## Wake pattern and sleep (R185, R186) -/

/-- WAKE_SEND: accepted in ACTIVE, from a sleep state after a wake, with the WAKE_BURSTS of this moment; a sleep vote of the
egress ends (R185, R190, R379). -/
def execWakeSend (n : Lane) (s : State) : Out :=
  .next (s.access .ltx n (fun s =>
    if s.rd .ltxState n = 4 ∧ !s.on .ltxWakeSend n then
      let s := (s.ltxAbandon n).puts [(.ltxWakeSend, 1), (.ltxWakePend, 1), (.ltxWakeN, s.rd .ltxWakeBursts n)] n
      s.when (s.on .ltxSleep n) (fun t => t.wr .ltxNapWake 1 n)
    else s))

/-- WAKE_PATTERN_END: the bursts have run and codeword transmission resumes (R185). -/
def execWakePatternEnd (n : Lane) (s : State) : Out :=
  .next (if s.on .ltxWakeRun n then
    ((s.puts [(.ltxWakeRun, 0), (.ltxWakeSend, 0)] n).raise .ltxIntStatus Irq.ltxWakeDone n).bump .ltxWakeSent n
  else s)

/-- TX_SLEEP_WAKE: the wake steps end with the unmute. From TX Nap the envelope grants DRV_ENn again and DRV_FLT_Nn is
checked; a record that fails its CRC takes the direction through the disable sequence and a full calibration (R179,
R182, R186, R382; DEDUCED, log entry 73). -/
def execTxSleepWake (n : Lane) (drvFltHigh recOk : Bool) (s : State) : Out :=
  .next (if s.rd .ltxState n = 4 ∧ s.on .ltxSleep n ∧ s.on .ltxNapWake n then
    let nap := s.rd .ltxSleep n = 2
    if nap ∧ !recOk then
      ((s.recordBad .ltx n).puts [(.ltxDacCal, 0), (.ltxDacCalRun, 1)] n).ltxDisable n
    else if nap ∧ !s.envGrants n then s.ltxFault n 5
    else
      let s := s.when nap (fun t => t.wr .ltxDrvEn 1 n)
      if nap ∧ !drvFltHigh then (s.drvLow n).ltxFault n 2
      else
        let s := s.puts [(.ltxSleep, 0), (.ltxNapWake, 0), (.ltxMuted, 0), (.ltxDacOn, 1), (.pwrLnLtxPstate, 0)] n
        s.raise .ltxIntStatus Irq.ltxStateChg n
  else s)

end Sys2Proof.Machine
end

