-- ==== Sys2Proof/Machine/Presets.lean ====
section
/-!
DEFINITION. Presets: the values each preset loads, the fields it owns, and what a preset write and an expert write do to
them (R21, R123, R158, R189, R283).
-/
namespace Sys2Proof.Machine

/-- Fields and values of a line receive preset (R123). -/
def lrxPresetVals (p : Nat) : List (Field × Nat) :=
  let v : Nat × Nat := match p with
    | 1 => (10, 44)
    | 2 => (3, 52)
    | _ => (6, 48)
  [(.lrxCtlePeak, v.1), (.lrxAgcTarget, v.2)] ++
    (if p = 3 then [(.lrxKpShAcq, 5), (.lrxKiShAcq, 13), (.lrxKpShTrk, 8), (.lrxKiShTrk, 19), (.lrxOfsBw, 0)]
     else [(.lrxKpShAcq, 4), (.lrxKiShAcq, 11), (.lrxKpShTrk, 6), (.lrxKiShTrk, 15), (.lrxOfsBw, 1)])

/-- Fields and values of an equaliser preset (R158). -/
def leqPresetVals (p : Nat) : List (Field × Nat) :=
  [(.leqMlseEn, bit (p = 1)), (.leqMlseT1, 0x40), (.leqMlseT2, 0x10), (.leqDfeEn, bit (p ≠ 3)),
   (.leqDfeMax, if p = 2 then 0x40 else 0x60), (.leqMuShBlind, if p = 2 then 7 else 6),
   (.leqMuShDd, if p = 2 then 13 else 12), (.leqMuShDfe, if p = 2 then 13 else 12),
   (.leqStartMain, if p = 1 then 0x700 else if p = 2 then 0x500 else 0x600)]

/-- Fields and values of a host preset (R283). -/
def hifPresetVals (p : Nat) : List (Field × Nat) :=
  match p with
  | 1 => [(.hifCtleMin, 0), (.hifCtleMax, 10), (.hifDfeEn, 1), (.hifKpSh, 5), (.hifKiSh, 13), (.hifFomWin, 1)]
  | 2 => [(.hifCtleMin, 10), (.hifCtleMax, 23), (.hifDfeEn, 1), (.hifKpSh, 4), (.hifKiSh, 11), (.hifFomWin, 2)]
  | _ => [(.hifCtleMin, 4), (.hifCtleMax, 18), (.hifDfeEn, 1), (.hifKpSh, 5), (.hifKiSh, 13), (.hifFomWin, 1)]

/-- Configuration fields with their elements that a write has set: they wait for COMMIT, and in OFF they apply at once, those
written and no others (R124, R151, R190, R284). -/
def State.configSettle (s : State) (b : PresetBlock) (n : Nat) (l : List (Field × Nat)) : State :=
  match b with
  | .receive => if s.rd .lrxState n = 0 then s.lrxApplyOf n (l.map (·.1)) else s
  | .equaliser =>
    let tap (e : Field × Nat) : Bool := e.1 == .leqTapCoef || e.1 == .leqTapFreeze
    if s.rd .lrxState n = 0 then s.leqApplyOf n ((l.filter (fun e => !tap e)).map (·.1)) ((l.filter tap).map (·.2)) else s
  | .transmit =>
    if s.rd .ltxState n = 0 then
      (s.ltxApplyOf n l).when (l.any (fun e => e.1 == .ltxPatSel)) (fun t => (t.wr .ltxPatNew (t.rd .ltxPatSel n)
        n).patApply n)
    else s
  | .host => if s.rd .hifState n = 0 then 
      s.hifApplyOf n ((l.filter (fun e => e.1 != .hifTxTap)).map (·.1)) ((l.filter (fun e => e.1 == .hifTxTap)).map (·.2))
    else s

/-- A preset write: every owned field returns to preset control with the preset's value (R21). -/
def State.presetWrite (s : State) (b : PresetBlock) (n v : Nat) : State :=
  let own (l : List (Field × Nat)) (c : Field) (t : State) : State :=
    (t.puts ((c, 0) :: l) n).configSettle b n (l.map (fun e => (e.1, 0)))
  match b with
  | .receive => own ((.lrxPreset, v) :: lrxPresetVals v) .lrxOverride s
  | .equaliser => own ((.leqPreset, v) :: leqPresetVals v) .leqOverride s
  | .transmit =>
    let s := (s.puts [(.ltxPreset, v), (.ltxOverride, 0), (.ltxLutEn, bit (v ≠ 3)), (.ltxShapeSet, 1)] n).each (List.range 9)
      (fun i t => t.wr .ltxFirTap (ltxPresetTap v i) n i)
    s.configSettle b n ([(.ltxPreset, 0), (.ltxLutEn, 0)] ++ (List.range 9).map (fun i => (.ltxFirTap, i)))
  | .host =>
    let p := if v = 3 then 0 else v
    own ((.hifPreset, p) :: hifPresetVals p) .hifOverride s

/-- The block of a preset write as a register block (R21). -/
def presetBlock : PresetBlock → Block
  | .receive => .lrx
  | .equaliser => .leq
  | .transmit => .ltx
  | .host => .hif

/-- PRESET_WRITE (R21); the line blocks have eight lanes. -/
def execPresetWrite (b : PresetBlock) (n : HostLane) (v : BitVec 2) (s : State) : Out :=
  let k : Nat := if b = .host then n else n % 8
  .next (s.access (presetBlock b) k (fun s => s.presetWrite b k v.toNat))

/-- The OVERRIDE field of the preset that owns a field, and the bit that stands for it (R21, R124, R159, R190, R284). -/
def presetOwner (f : Field) : Option (Field × Nat) :=
  match f with
  | .lrxCtlePeak => some (.lrxOverride, 0)
  | .lrxAgcTarget => some (.lrxOverride, 1)
  | .lrxKpShAcq | .lrxKiShAcq => some (.lrxOverride, 2)
  | .lrxKpShTrk | .lrxKiShTrk => some (.lrxOverride, 3)
  | .lrxOfsBw => some (.lrxOverride, 4)
  | .leqMlseEn => some (.leqOverride, 0)
  | .leqMlseT1 | .leqMlseT2 => some (.leqOverride, 1)
  | .leqDfeEn => some (.leqOverride, 2)
  | .leqDfeMax => some (.leqOverride, 3)
  | .leqMuShBlind => some (.leqOverride, 4)
  | .leqMuShDd => some (.leqOverride, 5)
  | .leqMuShDfe => some (.leqOverride, 6)
  | .leqStartMain => some (.leqOverride, 7)
  | .ltxFirTap => some (.ltxOverride, 0)
  | .ltxLutEn => some (.ltxOverride, 1)
  | .hifCtleMin | .hifCtleMax => some (.hifOverride, 0)
  | .hifDfeEn => some (.hifOverride, 1)
  | .hifKpSh | .hifKiSh => some (.hifOverride, 2)
  | .hifFomWin => some (.hifOverride, 3)
  | _ => none

/-- An expert write of an owned field takes it out of preset control (R21). -/
def State.expertMark (s : State) (f : Field) (n : Nat) : State :=
  match presetOwner f with
  | some o => s.setMask o.1 o.2 true n
  | none => s

end Sys2Proof.Machine
end

