-- ==== Sys2Proof/Machine/Gearbox.lean ====
section
/-!
DEFINITION. The gearbox of a line lane as plain functions of the bits: how the streams of its host lanes become codeword
payloads and back, the matcher of a transparent pair, and the CRC of a side-channel frame (R208, R272, R273, R275, R277).
-/
namespace Sys2Proof.Machine

/-- `k` pairs of 10-bit groups, a group of A before one of B, the first one lowest (R272, R275). -/
def interleave : Nat → Nat → Nat → Nat
  | 0, _, _ => 0
  | k + 1, a, b => a % 1024 + 2 ^ 10 * (b % 1024) + 2 ^ 20 * interleave k (a / 1024) (b / 1024)

/-- The payload of codeword `k` of a frame from the streams of A and B: 192 groups of each, or lane A alone (R272). -/
def gearPayload (single : Bool) (a b k : Nat) : Nat :=
  if single then a / 2 ^ (3840 * k) % 2 ^ 3840
  else interleave 192 (a / 2 ^ (1920 * k) % 2 ^ 1920) (b / 2 ^ (1920 * k) % 2 ^ 1920)

/-- The payload stream of a frame: 256 codewords, the first one lowest (R194, R272). -/
def gearStream (single : Bool) (a b : Nat) : Nat :=
  (List.range 256).foldl (fun v k => v + gearPayload single a b k * 2 ^ (3840 * k)) 0

/-- The groups of `k` pairs dealt out: those of A and those of B (R273, R275). -/
def deal : Nat → Nat → Nat × Nat
  | 0, _ => (0, 0)
  | k + 1, x =>
    let r := deal k (x / 2 ^ 20)
    (x % 1024 + 1024 * r.1, x / 1024 % 1024 + 1024 * r.2)

/-- Group boundaries that lie in host cycle `c` of `w` bits, as bit positions from the start of the cycle: multiples of 10 of
the lane's stream. -/
def groupStarts (w c : Nat) : List Nat :=
  ((List.range (w / 10 + 1)).map (fun i => 10 * i + (10 - w * c % 10) % 10)).filter (fun p => decide (p < w))

/-- The group boundaries of a host cycle at which the 32 bits that follow agree with a word under a mask (R277). -/
def matches32 (w stream word mask c : Nat) : List Nat :=
  let here := stream / 2 ^ (w * c) % 2 ^ (w + 32)
  (groupStarts w c).filter (fun p => (here / 2 ^ p % 2 ^ 32 ^^^ word) &&& mask == 0)

/-- The CRC-16 of a side-channel frame: polynomial 0x1021, initial value 0xFFFF, most significant bit first (R208). -/
def crc16 (l : List Nat) : Nat :=
  let shift (c : Nat) : Nat := if 32768 ≤ c then (2 * c) % 65536 ^^^ 0x1021 else 2 * c
  l.foldl (fun c b => (List.range 8).foldl (fun c _ => shift c) (c ^^^ (256 * (b % 256)))) 0xFFFF

end Sys2Proof.Machine
end

