-- ==== Sys2Proof/Machine/TxLine.lean ====
section
/-!
DEFINITION. What a line lane puts on its output, as a function of the state: the codewords of the frame under way, the levels of
its symbols; and what a host transmitter sends (R161 to R168, R184, R185, R191 to R195,
R201 to R207, R251, R273, R280).
-/
namespace Sys2Proof.Machine

/-! ## Frames (R191 to R195, R201, R205) -/

/-- The 160 bytes of a frame's content (R202). -/
def TxFrame.bytes (f : TxFrame) : List Nat := frameBytes ((List.range 160).map (fun k => f.content / 2 ^ (8 * k) % 256))

/-- The payload of codeword `j` before scrambling; 0 in filler (R194, R205). -/
def TxFrame.payload (f : TxFrame) (j : Nat) : Nat := if f.fill then 0 else f.stream / 2 ^ (3840 * j) % 2 ^ 3840

/-- Codeword `j` of a native frame: service bits, scrambled payload, parity (R191 to R195). -/
def TxFrame.codeword (f : TxFrame) (j : Nat) : List Nat :=
  encodeA (serviceBits f.bytes j) (f.payload j ^^^ scrambler (3840 * j) 3840)

/-- Symbols of a frame (R195). -/
def frameSymbols : Nat := 524288

/-- The level of symbol `k` of a frame ahead of the precoder: a test pattern, the compatibility format, or the codeword's bits
under the Gray mapping (R161, R184, R191, R206). -/
def TxFrame.grayAt (f : TxFrame) (k : Nat) : Nat :=
  if f.pattern ≠ 0 then patternLevel f.pattern f.level (frameSymbols * f.patFrame + k)
  else if f.compat then (Config.compatLevel (if f.fill then 0 else f.stream) k).toNat
  else grayLevel (symbolBits (f.codeword (k / 2048)) (k % 2048))

/-- The levels of a frame's symbols after the precoder (R161). -/
def TxFrame.levels (f : TxFrame) : List Nat :=
  let g := (List.range frameSymbols).map f.grayAt
  if f.precode then precodeRun f.pre g else g

/-- The precoder's last output of a frame, 0 where it does not run (R161). -/
def TxFrame.precodeEnd (f : TxFrame) : Nat := if f.precode then f.levels.getLastD 0 else 0

/-- The level of symbol `k` of a frame after the precoder (R161). -/
def TxFrame.levelAt (f : TxFrame) (k : Nat) : Nat := if f.precode then f.levels.getD k 0 else f.grayAt k

/-! ## The frame sent -/

/-- The frame that a lane sends (R194, R202). -/
def State.txFrame (s : State) (n : Nat) : TxFrame :=
  { stream := (s.ld n).stream, fill := s.on .lfrFillTx n, content := s.rd .lfrOutFrame n, compat := s.on .lfrCompatTx n,
    pattern := s.use .ltxPatSel n, level := s.use .ltxPatLevel n, patFrame := s.rd .ltxPatFrames n,
    precode := s.on .ltxPrecodeAct n, pre := (s.ld n).pre }

/-! ## The host output (R251, R259, R273, R280, R284) -/

/-- What a host transmitter sends: zero differential level, training frames, a test pattern with its TX_PAT code, or
payload. -/
inductive HostOutput where
  | zero | training | pattern (sel : Nat) | payload (bits : Nat)
deriving DecidableEq, Repr

/-- The released payload of a lane pauses: in a profile change from the last old codeword on, in a partial commit from
the last codeword before it on, to the first new release (R77, R216). -/
def State.releaseGap (s : State) (n : Nat) : Bool :=
  let waits := s.slots.filter (fun r => r.lane == n)
  let paused := s.rd .imgState == 5 && s.maskBit .imgPcP n && !s.maskBit .imgPcPEnd n
  (s.on .lfrAwaitRel n && waits.all (fun r => r.profile == s.rd .lfrProfActive n)) ||
    (s.on .lfrGapOn n && (!paused || waits.isEmpty))

/-- The released payload of a line lane reaches its host lanes (R267, R273, R275). -/
def State.payloadOut (s : State) (n : Nat) : Bool :=
  s.rd .lrxState n == 5 && !s.on .lrxSleep n && !s.releaseGap n &&
    ((s.activeHosts n).length == 1 || s.transparent n || s.on .hifGlbPairAmLockIng 0 n)

/-- What host lane `h` sends (R251, R273, R280, R284). -/
def State.hostOut (s : State) (h : Nat) : HostOutput :=
  let st := s.rd .hifState h
  if s.on .hifSleepTx h then .zero
  else if st = 2 then .training
  else if st ≠ 3 ∧ st ≠ 4 then .zero
  else if st = 4 ∧ s.on .hifTxPat h then .pattern (s.rd .hifTxPat h)
  else match s.lineOf h with
    | some n => if s.payloadOut n && (s.activeHosts n).contains h then
        .payload (if s.rd .hifGlbMapHostA 0 n = h then (s.ld n).toA else (s.ld n).toB)
      else .pattern 1
    | none => .pattern 1

/-- The host lane whose recovered frequency drives the transmit phase interpolator of a line lane: the later of a pair (R49,
R259, R271). -/
def State.laterHost (s : State) (n : Nat) : Option Nat :=
  match s.activeHosts n with
  | [] => none
  | [a] => some a
  | a :: b :: _ => if 0 < s.rdInt .hifGlbPairSkew 0 n then some b else some a

/-- Frequency of the line TX phase interpolator, and of the host TX phase interpolators of a line lane, Q16.8 ppm (R259). -/
def State.lineTxFreq (s : State) (n : Nat) : Int := ((s.laterHost n).map (fun h => s.rdInt .hifCdrFreq h)).getD 0

/-- Frequency of the transmit phase interpolator of a host lane: the one that its line receiver recovers (R259). -/
def State.hostTxFreq (s : State) (h : Nat) : Int := ((s.lineOf h).map (fun n => s.rdInt .lrxCdrFreq n)).getD 0

end Sys2Proof.Machine
end

