-- ==== Sys2Proof/Machine/Framing.lean ====
section
/-!
DEFINITION. Framing and the service channel of the line lanes: marker hunting, frame lock, messages, negotiation, and
profile changes (R195 to R219).
-/
namespace Sys2Proof.Machine

/-! ## Negotiation (R209 to R213) -/

/-- Committed depths of a lane meet the minimums of a profile (R53, R70). -/
def State.depthOk (s : State) (n prof : Nat) : Bool :=
  let need : Nat × Nat := if prof = 0 then (0, 3) else if prof = 1 then (21, 39) else (47, 82)
  decide (need.1 ≤ s.homeQDepth n) && decide (need.2 ≤ s.relBufDepth n)

/-- Code of a payload in an ABILITY body (R209). -/
def payloadCode : Payload → Nat
  | .eth400 => 0
  | .eth800 => 1
  | .eth1600 => 2
  | .transparent => 3

/-- A body as one number, first byte lowest. -/
def bytesLe (l : List Nat) : Nat := l.foldr (fun b acc => b % 256 + 256 * acc) 0

/-- The ABILITY body of a lane: the lead lane's enables and request, and the profiles permitted and within committed
depths on every lane of the group (R209, R212). -/
def State.abilityPage (s : State) (n : Nat) : Nat :=
  let g := s.groupOf n
  let r := s.rates n
  let modes := if s.on .lfrLeadOnly n && g.lead ≠ n then s.rd .lfrGroupMode n else bit r.1 + 2 * bit r.2
  let profs := (List.range 3).foldl (fun a p =>
    if g.profiles.testBit p && g.lanes.all (fun k => s.depthOk k p) then a + 2 ^ p else a) 0
  bytesLe [3, 2, 0x08, 0x32, modes, profs + 16 * s.rd .lfrProfReq g.lead, 3, 16 * g.count + (n - g.lead),
    payloadCode g.payload, s.use .lfrDjPrecode n + 2 * s.use .lfrTapAccept n]

/-- The more protective profile of two requests in a permitted set, else the most protective member (R210). -/
def negProfile (own other permitted : Nat) : Nat :=
  let reqs := [own, other].filter permitted.testBit
  match reqs with
  | [] => if permitted.testBit 2 then 2 else if permitted.testBit 1 then 1 else 0
  | a :: l => l.foldl max a

/-- The result of two pages: a NEG_ERR code, or the result word. Icris runs in version 1 in compatibility mode (R213,
R305, DEDUCED); PARTNER takes PART 0x1604 for the SLX-1604, whose code R209 does not give (DESIGN CHOICE); both log
entry 65 (R210). -/
def negCompute (own page : Nat) (nativeRate : Bool) : Nat ⊕ Nat :=
  let b := byteOf own
  let p := byteOf page
  let ver := min (b 0) (p 0)
  if ver < max (b 1) (p 1) then .inl 1
  else if b 7 / 16 ≠ p 7 / 16 ∨ b 8 ≠ p 8 ∨ b 7 % 8 ≠ p 7 % 8 then .inl 2
  else
    let native := nativeRate && (b 4).testBit 0 && (p 4).testBit 0
    if !native && !((b 4).testBit 1 && (p 4).testBit 1) then .inl 3
    else
      let permitted := (b 5 &&& p 5) % 8
      if native && permitted == 0 then .inl 4
      else
        let prof := if native then negProfile (b 5 / 16 % 4) (p 5 / 16 % 4) permitted else 3
        let icris := b 6 &&& p 6
        let icrisVer := if native && icris.testBit 1 then 2 else if icris.testBit 0 then 1 else 0
        let part := p 2 + 256 * p 3
        .inr (ver * 2 ^ 28 + (if native then 1 else 2) * 2 ^ 26 + prof * 2 ^ 24 + icrisVer * 2 ^ 22 +
          bit ((p 9).testBit 0) * 2 ^ 21 + bit ((b 9).testBit 0) * 2 ^ 20 +
          (if part = 0x3208 then 1 else if part = 0x1604 then 2 else 0) * 2 ^ 18)

/-- What a negotiation result gives the ingress applies at a receive frame boundary: the Icris version in use, which
clears the exchange where it changes, and the precoding that the receiver expects (R45, R210, R317). -/
def State.negApply (s : State) (n : Nat) : State :=
  if s.on .lfrResPend n then
    let s := s.when (s.rd .lfrIcrisUse n != s.rd .lfrResIcris n) (fun t => t.exchClear n)
    s.puts [(.lfrIcrisUse, s.rd .lfrResIcris n), (.lfrPrecRxUse, s.rd .lfrResPrecodeRx n), (.lfrResPend, 0)] n
  else s

/-- The precoder follows the negotiation result in the compatibility format, at a line TX frame boundary (R45, R161, R206). -/
def State.precodeApply (s : State) (n : Nat) : State :=
  s.wrb .ltxPrecodeAct (s.on .lfrCompatTx n && s.rd .lfrResMode n == 2 && s.on .lfrResPrecodeTx n) n

/-- LFR_NEG_RESULT takes a result word, which applies at the next frame boundaries (R45, R219). -/
def State.setNegResult (s : State) (n w : Nat) : State :=
  s.puts [(.lfrResVer, w / 2 ^ 28), (.lfrResMode, w / 2 ^ 26 % 4), (.lfrResProfile, w / 2 ^ 24 % 4),
    (.lfrResIcris, w / 2 ^ 22 % 4), (.lfrResPrecodeTx, w / 2 ^ 21 % 2), (.lfrResPrecodeRx, w / 2 ^ 20 % 2),
    (.lfrResPartner, w / 2 ^ 18 % 4), (.lfrPartProf, w / 2 ^ 24 % 4), (.lfrResPend, 1)] n

/-- FAILED, which sends ABILITY (R211). -/
def State.negFail (s : State) (n err : Nat) : State :=
  let s := (s.puts [(.lfrNegState, 4), (.lfrNegErr, err)] n).raise .lfrIntStatus Irq.lfrNegFail n
  s.svcSend n 1 16 (s.abilityPage n)

/-- A new attempt in ADVERTISE, or in LISTEN (R211). -/
def State.negStart (s : State) (n state : Nat) : State :=
  let s := s.puts [(.lfrNegState, state), (.lfrCand, 0), (.lfrConfAcked, 0), (.lfrConfGot, 0),
    (.lfrNegTag, s.rd .lfrNegTag n + 1)] n
  s.svcSend n 1 16 (s.abilityPage n)

/-- Negotiation begins: ADVERTISE, or LISTEN with the side channel in compatibility mode (R208, R211). -/
def State.negBegin (s : State) (n : Nat) : State :=
  let s := s.wr .lfrAttempt 0 n
  if s.rd .lfrGroupMode n = 2 then
    ((s.when (!s.on .lfrSideOn n) (fun t => t.puts [(.lfrSideOn, 1), (.lfrSideFrame,
      0)] n)).wr .lfrHelloSeen 0 n).negStart n 5
  else s.negStart n 1

/-- Another attempt, or FAILED when the attempts are exhausted. The Boolean says whether one began (R211). -/
def State.negRetry (s : State) (n err : Nat) : State × Bool :=
  if s.rd .lfrAttempt n < s.rd .lfrNegRetryMax n then ((s.wr .lfrAttempt (s.rd .lfrAttempt n + 1) n).negStart n 1, true)
  else (s.negFail n err, false)

/-- Partner's page as one number. -/
def State.partnerPage (s : State) (n : Nat) : Nat :=
  (List.range 4).foldl (fun a w => a + s.rd .lfrPartnerPage n w * 2 ^ (32 * w)) 0

/-- Entry to TRAIN: AGC frozen, captures of the attempt forgotten, the tracking gains due at the next boundary, an
unacknowledged RENEG dropped, negotiation begins (R92, R104, R112, R115, R209, R213, R512). -/
def State.trainEnter (s : State) (n : Nat) : State :=
  let s := ((s.lrxSet n 3).svcDrop n).puts [(.lrxRetry, 0), (.lrxCapRestarts, 0), (.lrxTrkPend, 1)] n
  let s := s.when (s.rd .lrxAgcState n != 3) (fun t =>
    t.puts [(.lrxAgcState, 2), (.lrxFrozenCode, t.rd .lrxVgaCode n), (.lrxTrim, 0)] n)
  (s.leqFollow n).negBegin n

/-- Renegotiation of a lane: a pending profile request ends, the lead lane's enables take effect, and the lane goes to
TRAIN; where no rate is left the group leaves its mode and waits in WAIT_SD, its sleeping lanes with it. A lane that sleeps
takes no message and keeps its state (R121, R207, R213, R218, R219). -/
def State.renegNow (s : State) (n : Nat) (reason : Option Nat) : State :=
  if s.lrxInTraffic n ∧ !s.on .lrxSleep n then
    let g := s.groupOf n
    let s := (s.profAbort n).puts [(.lrxProfApply, 0), (.lfrLeadOnly, bit (reason = some 1))] n
    let s := match reason with
      | some r => s.svcSend n 3 1 r
      | none => s
    let s := s.each g.lanes (fun k t => t.lfrLatch k)
    if s.on .lfrNoRate n then (s.setGroupMode n 0).each g.lanes (fun k t =>
      t.when (decide (2 ≤ t.rd .lrxState k ∧ t.rd .lrxState k ≤ 5)) (fun u => u.lrxWaitSd k))
    else ((s.lrxSet n 3).leqFollow n).negBegin n
  else s

/-- The group returns to ACQUIRE at a new rate: its lanes with traffic at WAIT_SD, those that acquire at AGC (R207, R213). -/
def State.modeRestart (s : State) (n : Nat) : State :=
  s.each (s.groupOf n).lanes (fun k t =>
    if t.lrxInTraffic k then t.lrxWaitSd k
    else if t.rd .lrxState k = 2 ∧ t.rd .lrxAcqPhase k ≠ 0 then t.lrxStartAgc k
    else t)

/-- DONE: result recorded. Unequal results in a group renegotiate with reason 1; a changed mode takes the group back to
ACQUIRE; otherwise the lanes may go to LOCKED (R211 to R213, R453). -/
def State.negDone (s : State) (n w : Nat) : State :=
  let g := s.groupOf n
  let s := ((s.setNegResult n w).wr .lfrNegState 3 n).raise .lfrIntStatus Irq.lfrNegDone n
  let s := s.emit 0x42 n [w / 2 ^ 18]
  if g.lanes.any (fun k => s.rd .lfrNegState k = 3 && s.negWord k != w) then
    s.each g.lanes (fun k t => t.renegNow k (some 1))
  else if w / 2 ^ 26 % 4 ≠ s.rd .lfrGroupMode n then
    (s.setGroupMode n (w / 2 ^ 26 % 4)).modeRestart n
  else s.each g.lanes (fun k t => t.trainToLocked k)

/-- The partner's CONFIRM and the acknowledgement of ours decide: DONE, or a new attempt (R211). -/
def State.negCheck (s : State) (n : Nat) : State :=
  if s.rd .lfrNegState n = 2 ∧ s.on .lfrConfGot n then
    if s.rd .lfrPartConf n / 2 ^ 22 ≠ s.rd .lfrCand n / 2 ^ 22 then (s.negRetry n 6).1
    else if s.on .lfrConfAcked n then s.negDone n (s.rd .lfrCand n)
    else s
  else s

/-- The result of the attempt from the partner's page: CONFIRM, or FAILED at once (R210, R211). -/
def State.negPage (s : State) (n : Nat) : State :=
  match negCompute (s.abilityPage n) (s.partnerPage n) (s.rd .lfrGroupMode n != 2) with
  | .inl e => s.negFail n e
  | .inr w => (((s.puts [(.lfrNegState, 2), (.lfrCand, w), (.lfrConfAcked, 0)] n).svcSend n 2 8 w
      (s.rd .lfrNegTag n))).negCheck n

/-! ## Frame lock (R197 to R200) -/

/-- Frame lock declared: the lead lane's rate becomes the group's mode and the lane enters TRAIN (R198, R207). -/
def State.frameLock (s : State) (n : Nat) : State :=
  let s := (s.puts [(.lfrFrameLock, 1), (.lfrBadRun, 0)] n).raise .lfrIntStatus Irq.lfrFrameLock n
  let s := s.when ((s.groupOf n).lead == n && s.rd .lfrGroupMode n == 0)
    (fun t => t.setGroupMode n (1 + t.rd .lfrDiscRate n))
  s.trainEnter n

/-- The lane's own UI count starts at a frame marker; what the release buffer still holds by the old count is dropped (R48,
R237, DEDUCED, log entry 68). -/
def State.uiStart (s : State) (n : Nat) : State :=
  { s.puts [(.lfrUiBase, 0), (.lfrUnits, 0)] n with slots := s.slots.filter (fun r => r.lane ≠ n) }

/-- The shadow candidate of a lost lock in hunter 1; with count 3 it locks at once, the frame under way starting at its last
marker. `arrival` is when the lost marker was expected, as ATC (R48, R200). -/
def State.shadowTake (s : State) (n pos count m arrival : Nat) : State :=
  let after := (pos + 2 ^ 19 - s.rd .lfrH1Pos n) % 2 ^ 19
  let s := s.puts [(.lfrH1Valid, 1), (.lfrH1Pos, pos), (.lfrH1Count, count), (.lfrH1Match, m)] n
  if count = 3 then
    let s := s.wr .lfrArrBase (arrival + after + (if after < 32768 then 0 else 2 ^ 24 - 2 ^ 19)) n
    let s := s.uiStart n
    ((s.bump .lfrFrameSlipCnt n).raise .lfrIntStatus Irq.lfrFrameSlip n).frameLock n
  else s

/-- Loss of frame lock: an event of its source, which takes the lane to FAULT where it is lasting; else re-acquisition at
FRAME with the shadow candidate in hunter 1 (R116, R117, R199, R200). -/
def State.frameLoss (s : State) (n arrival : Nat) : State :=
  let shadow := s.on .lfrShadowValid n
  let pos := s.rd .lfrShPos n
  let count := s.rd .lfrShCount n
  let m := s.rd .lfrH2Match n
  let s := (s.bump .lfrLolCnt n).raise .lfrIntStatus Irq.lfrFrameLol n
  s.reacquire 4 n (fun t =>
    let t := (t.lrxAcquireAt n 4).when (t.rd .lrxAgcState n != 3) (fun u => u.wr .lrxAgcState 1 n)
    if shadow then t.shadowTake n pos count m arrival else t)

/-- The lane hunts in the FRAME sub-phase. -/
def State.hunting (s : State) (n : Nat) : Bool :=
  s.rd .lrxState n = 2 && s.rd .lrxAcqPhase n = 4 && !s.on .lfrFrameLock n

/-- MARKER_CANDIDATE: hunter 2 evaluates the received bits at the places of the marker from symbol position `pos` on.
While the lane hunts H2_MATCH holds the best count of the hunt, and in lock that of the shadow candidate (R197, R198,
R200, R219). -/
def execMarkerCandidate (n : Lane) (pos : BitVec 19) (bits : BitVec 256) (s : State) : Out :=
  let m := markCount bits.toNat
  let p := pos.toNat
  let first := bit (s.rd .lfrMarkGood n ≤ m)
  .next (if m < s.rd .lfrMarkCand n ∨ s.on .lrxSleep n then s
    else if s.hunting n then
      let s := s.wr .lfrH2Match (max m (s.rd .lfrH2Match n)) n
      if !s.on .lfrH1Valid n ∨ (p ≠ s.rd .lfrH1Pos n ∧ s.rd .lfrH1Match n < m) then
        s.puts [(.lfrH1Valid, 1), (.lfrH1Pos, p), (.lfrH1Match, m), (.lfrH1Count, first)] n
      else s
    else if s.on .lfrFrameLock n ∧ p ≠ s.rd .lfrH1Pos n then
      if !s.on .lfrShadowValid n ∨ (p ≠ s.rd .lfrShPos n ∧ s.rd .lfrH2Match n < m) then
        s.puts [(.lfrShadowValid, 1), (.lfrShPos, p), (.lfrH2Match, m), (.lfrShCount, first)] n
      else s
    else s)

/-- FRAME_MARKER_CHECK: the received bits at the expected marker of hunter 1, of the lock, or of the shadow candidate,
and how many UI ago the symbol that it starts with reached framing, the fixed front-end depth included. At lock that
boundary is the frame reference, and in lock the count of ATC at it is taken anew (R48, R197 to R200, R226, log entry
68). -/
def execFrameMarkerCheck (n : Lane) (shadow : Bool) (bits : BitVec 256) (ago : BitVec 20) (s : State) : Out :=
  let m := markCount bits.toNat
  let arrival := (s.atc + 2 ^ 24 - ago.toNat) % 2 ^ 24
  let good := decide (s.rd .lfrMarkGood n ≤ m)
  .next (if s.on .lrxSleep n then s
    else if s.hunting n then
      if s.on .lfrH1Valid n ∧ !shadow then
        if good then
          let c := s.rd .lfrH1Count n + 1
          let s := s.puts [(.lfrH1Match, m), (.lfrH1Count, c)] n
          if c = 3 then ((s.wr .lfrArrBase arrival n).uiStart n).frameLock n else s
        else s.puts [(.lfrH1Match, m), (.lfrH1Valid, 0), (.lfrH1Count, 0)] n
      else s
    else if s.on .lfrFrameLock n then
      if shadow then
        if s.on .lfrShadowValid n then
          if good then s.puts [(.lfrH2Match, m), (.lfrShCount, min 3 (s.rd .lfrShCount n + 1))] n
          else s.puts [(.lfrH2Match, m), (.lfrShadowValid, 0), (.lfrShCount, 0)] n
        else s
      else if good then s.puts [(.lfrH1Match, m), (.lfrBadRun, 0), (.lfrArrBase, arrival)] n
      else
        let s := (s.puts [(.lfrH1Match, m), (.lfrBadRun, s.rd .lfrBadRun n + 1)] n).bump .lfrMarkBadCnt n
        if s.rd .lfrBadRun n = 4 then s.frameLoss n arrival else s
    else s)

/-! ## Messages (R202 to R204, R208) -/

/-- The bytes of a frame from its service bits, those of codeword 16 lowest: each byte MSB first (R201). -/
def serviceBytes (bits : Nat) : List Nat := (List.range 480).map (fun k => reverseBits 8 (bits / 2 ^ (8 * k) % 256))

/-- A number from bytes `lo` on, `k` of them, lowest first. -/
def leBytes (l : List Nat) (lo k : Nat) : Nat := bytesLe ((List.range k).map (fun i => l.getD (lo + i) 0))

/-- The CRC-32 in bytes 156 to 159 matches bytes 0 to 155 (R202). -/
def contentOk (content : List Nat) : Bool := leBytes content 156 4 == crc32 (content.take 156)

/-- What valid content says to the lane: header, FILL flag, and the Icris region, whose initiation counts where the frame's
marker was good (R196, R202, R205, R299, R301). -/
def State.contentIn (s : State) (n : Nat) (c : List Nat) (arrival : Option Nat) : State :=
  let fill := (leBytes c 2 2).testBit 0
  let s := s.wr .lfrFrameRx (leBytes c 0 2) n
  let s := s.when (fill && !s.on .lfrFillRx n) (fun t => t.raise .lfrIntStatus Irq.lfrFillRx n)
  let s := s.when fill (fun t => t.bump .lfrFillRxCnt n)
  let s := s.wrb .lfrFillRx fill n
  if s.rd .lfrGroupMode n = 2 then s
  else s.icrisIn n (regionOf (leBytes c 4 48) (arrival.getD 0) (s.on .timLnSusRx n) (s.rd .lfrBadRun n == 0)) arrival
    (s.on .timLnSusRx n) (s.on .timLnDiscRx n) 0

/-- The 3,840 service bits of the frame that has ended: those that the archipelago sent, and the bits as received of the other
codewords, which arrive before any decoding (R195, R201, R222; DEDUCED, log entry 55). -/
def State.frameService (s : State) (n received : Nat) : Nat :=
  let frame := (s.rd .lfrRxFrame n + 255) % 256
  ((List.range 240).map (fun i =>
    let sent := (s.ld n).service.find? (fun b => b.frame == frame && b.index == 16 + i)
    (sent.map (·.bits)).getD (received / 2 ^ (16 * i)) % 2 ^ 16 * 2 ^ (16 * i))).sum

/-- SERVICE_FRAME_RECEIVED: the service bits of codewords 16 to 255 of a frame, whose marker arrived at the last LRX
timestamp; the operand holds them as received. The four blocks are corrected and the CRC checked; content that fails either is
discarded (R201, R202, R222, R302). -/
def execServiceFrameReceived (n : Lane) (bits : BitVec 3840) (s : State) : Out :=
  .next (if s.on .lfrFrameLock n ∧ !s.on .lrxSleep n then
    let arrival := if s.on .timLnRxFresh n then some (unpackTime (s.rd .timLnTsLrx n)) else none
    let s := s.wr .timLnRxFresh 0 n
    let r := frameContent (serviceBytes (s.frameService n bits.toNat))
    let s := s.bump .lfrSvcCorrCnt n 0 r.2.1
    if r.2.2 ≠ 0 then (s.bump .lfrSvcFailCnt n 0 r.2.2).raise .lfrIntStatus Irq.lfrSvcFail n
    else if !contentOk r.1 then s.bump .lfrSvcCrcCnt n
    else s.contentIn n r.1 arrival
  else s)

/-- Messages are taken and acknowledged in TRAIN, LOCKED and SERVICE, by a lane that is awake (R121, R203). -/
def State.msgOpen (s : State) (n : Nat) : Bool := s.lrxInTraffic n && !s.on .lrxSleep n

/-- A valid message is taken once, where its SEQ is new (R203). -/
def State.msgTake (s : State) (n : Nat) (seq : Nat) (g : State → State) : State :=
  if s.msgOpen n ∧ seq ≠ 0 ∧ seq ≠ s.rd .lfrRxSeq n then g (s.wr .lfrRxSeq seq n) else s

/-- The partner acknowledges the message in flight: the next one goes out, and what waited for the acknowledgement
follows (R203, R211, R215). -/
def State.msgAcked (s : State) (n ack : Nat) : State :=
  if s.msgOpen n ∧ s.rd .lfrTxType n ≠ 0 ∧ ack = s.rd .lfrTxSeq n then
    let type := s.rd .lfrTxType n
    let tag := s.rd .lfrTxTag n
    let s := s.wr .lfrTxType 0 n
    let s : State := match s.svcQ.find? (fun m => m.lane = n) with
      | some m => ({ s with svcQ := s.svcQ.erase m } : State).svcSend n m.type m.len m.body m.tag
      | none => s
    if type = 2 ∧ tag = s.rd .lfrNegTag n then (s.wr .lfrConfAcked 1 n).negCheck n
    else if type = 5 ∧ tag ≠ 0 ∧ s.on .lfrReplyWait n then
      let p := s.rd .lfrReplyProf n
      let s := s.wr .lfrReplyWait 0 n
      if p = s.rd .lfrProfActive n then (s.wr .lfrPartProf p n).asymFollow n
      else s.puts [(.lfrSwPend, 1), (.lfrSwProf, p), (.lfrPartProf, p)] n
    else s
  else s

/-- MSG_ACK_RX (R203). -/
def execMsgAckRx (n : Lane) (ack : BitVec 8) (s : State) : Out := .next (s.msgAcked n ack.toNat)

/-- A partner ABILITY page: recorded; in ADVERTISE and LISTEN the result is computed, in CONFIRM a new attempt begins
from it (R210, R211). -/
def State.rxAbility (s : State) (n page : Nat) : State :=
  let s := s.each (List.range 4) (fun w t => t.wr .lfrPartnerPage (page / 2 ^ (32 * w)) n w)
  let st := s.rd .lfrNegState n
  if st = 1 ∨ st = 5 then s.negPage n
  else if st = 2 then
    let r := s.negRetry n 5
    if r.2 then r.1.negPage n else r.1
  else s

/-- MSG_ABILITY_RX (R210). -/
def execMsgAbilityRx (n : Lane) (seq : BitVec 8) (page : BitVec 128) (s : State) : Out :=
  .next (s.msgTake n seq.toNat (fun t => t.rxAbility n page.toNat))

/-- A partner CONFIRM (R211). -/
def State.rxConfirm (s : State) (n w : Nat) : State :=
  if s.rd .lfrNegState n = 1 ∨ s.rd .lfrNegState n = 2 then
    (s.puts [(.lfrConfGot, 1), (.lfrPartConf, w)] n).negCheck n
  else s

/-- MSG_CONFIRM_RX (R211). -/
def execMsgConfirmRx (n : Lane) (seq : BitVec 8) (result : BitVec 32) (s : State) : Out :=
  .next (s.msgTake n seq.toNat (fun t => t.rxConfirm n result.toNat))

/-- A received RENEG (R213). -/
def State.rxReneg (s : State) (n : Nat) : State :=
  let s := (s.bump .lfrRenegRxCnt n).raise .lfrIntStatus Irq.lfrReneg n
  if s.rd .lfrNegState n = 1 ∨ s.rd .lfrNegState n = 2 then s else s.renegNow n none

/-- MSG_RENEG_RX (R213). -/
def execMsgRenegRx (n : Lane) (seq : BitVec 8) (_reason : BitVec 8) (s : State) : Out :=
  .next (s.msgTake n seq.toNat (fun t => t.rxReneg n))

/-! ## Profile change (R214 to R218) -/

/-- A partial commit is in progress for the lane (R79). -/
def State.pcBusyLane (s : State) (n : Nat) : Bool :=
  (s.rd .imgState = 4 || s.rd .imgState = 5) && s.maskBit .imgPcLanes n

/-- The local checks of R214 in order, with or without step 3: the failing status, if any. -/
def State.profCheck (s : State) (n prof : Nat) (step3 : Bool) : Option Nat :=
  let st := s.rd .lrxState n
  if !((st = 4 ∨ st = 5) ∧ s.rd .lfrNegState n = 3 ∧ s.rd .lfrResMode n = 1) then some 5
  else if s.pcBusyLane n then some 3
  else if step3 && !(s.groupOf n).profiles.testBit prof then some 4
  else if !s.depthOk n prof then some 2
  else none

/-- A request opens: PENDING, and PROFILE_CHANGE is sent with a new transaction number (R214, R217). -/
def State.profOpen (s : State) (n prof : Nat) (forced : Bool) : State :=
  let txn := (s.rd .lfrTxn n + 1) % 256
  let s := s.puts [(.lfrTxn, txn), (.lfrReqOpen, 1), (.lfrReqForced, bit forced), (.lfrReqAcc, bit forced),
    (.lfrReqProf, prof), (.lfrProfStatus, 1), (.lfrProfSide, 0), (.lfrProfChange, 1)] n
  s.svcSend n 4 3 (bytesLe [prof, bit forced, txn])

/-- CHANGE of LFR_PROFILE written 1 (R214, R218, R219). -/
def State.profChangeNow (s : State) (n : Nat) : State :=
  if s.on .lfrReqOpen n then (s.wr .lfrProfBusyRefused 1 n).raise .lfrIntStatus Irq.lfrProfileFail n
  else
    let prof := s.rd .lfrProfReq n
    let s := s.wr .lfrReqProf prof n
    match s.profCheck n prof true with
    | some e => s.profEnd n e 0
    | none =>
      let s := s.wr .lfrProfBusyRefused 0 n
      if prof = s.rd .lfrProfActive n then s.puts [(.lfrProfStatus, 0), (.lfrProfSide, 0)] n
      else s.profOpen n prof false

/-- PROFILE_CHANGE (R214, R423). -/
def execProfileChange (n : Lane) (s : State) : Out :=
  .next (s.access .lfr n (fun s => s.laneService n (.profileChange n) (fun t => t.profChangeNow n)))

/-- A FORCED change of the thermal throttle: refused without a trace, or sent, with the switch at the next receive
frame boundary (R217, R218, R401). -/
def State.profForce (s : State) (n prof : Nat) : Option State :=
  match s.profCheck n prof false with
  | some _ => none
  | none => some (((s.profAbort n).profOpen n prof true).puts [(.lfrSwPend, 1), (.lfrSwProf, prof)] n)

/-- PROFILE_TIMEOUT: no reply within NEG_TMO_US (R215). -/
def execProfileTimeout (n : Lane) (s : State) : Out :=
  .next (if s.on .lfrReqOpen n ∧ !s.on .lfrReqAcc n then s.profEnd n 6 1 else s)

/-- The switch boundary: the new profile starts, codewords of frames F and F + 1 are discarded and counted (R216,
R217). -/
def State.profSwitch (s : State) (n : Nat) : State :=
  if s.on .lfrSwPend n then
    let s := s.puts [(.lfrSwOld, s.rd .lfrProfActive n), (.lfrProfActive, s.rd .lfrSwProf n), (.lfrSwPend, 0),
      (.lfrAwaitRel, 1), (.lfrDiscLeft, 512), (.lfrDiscCnt, 1)] n
    let s := s.when (s.on .lfrReqOpen n && !s.on .lfrReqForced n) (fun t => t.wr .lfrPartProf (t.rd .lfrProfActive n) n)
    (s.asymFollow n).dvfsKick
  else s

/-- PROFILE_SWITCH (R216). -/
def execProfileSwitch (n : Lane) (s : State) : Out := .next (s.profSwitch n)

/-- The first release under a switched profile (R216). -/
def State.profReleased (s : State) (n : Nat) : State :=
  if s.on .lfrAwaitRel n then (s.wr .lfrAwaitRel 0 n).profEnd n 0 0 else s

/-- A received PROFILE_CHANGE: FORCED is accepted as it is; a crossed one is settled by R218; any other is checked.
SIDE of a request that ends with CROSSED reads 0, local, where R218 names none (DESIGN CHOICE, log entry 65) (R215, R217,
R218). -/
def State.rxProfChange (s : State) (n prof txn : Nat) (forced : Bool) : State :=
  let refuse (u : State) (e : Nat) : State := u.svcSend n 5 3 (bytesLe [1, e, txn])
  let answer (u : State) : State :=
    match u.profCheck n prof true with
    | some e => refuse u e
    | none => (u.puts [(.lfrReplyWait, 1), (.lfrReplyProf, prof)] n).svcSend n 5 3 (bytesLe [0, 0, txn]) (txn + 1)
  if forced then ((s.svcSend n 5 3 (bytesLe [0, 0, txn])).wr .lfrPartProf prof n).asymFollow n
  else if s.on .lfrReqOpen n ∧ !s.on .lfrReqAcc n then
    if prof = s.rd .lfrReqProf n then s.puts [(.lfrReqAcc, 1), (.lfrSwPend, 1), (.lfrSwProf, prof)] n
    else if prof < s.rd .lfrReqProf n then s
    else answer (s.profEnd n 7 0)
  else answer s

/-- MSG_PROFILE_CHANGE_RX (R215). -/
def execMsgProfileChangeRx (n : Lane) (seq : BitVec 8) (prof : Fin 3) (forced : Bool) (txn : BitVec 8) (s : State) :
    Out :=
  .next (s.msgTake n seq.toNat (fun t => t.rxProfChange n prof txn.toNat forced))

/-- A received PROFILE_REPLY to the pending transaction (R215). -/
def State.rxProfReply (s : State) (n : Nat) (refuse : Bool) (status txn : Nat) : State :=
  if s.on .lfrReqOpen n ∧ !s.on .lfrReqAcc n ∧ txn = s.rd .lfrTxn n then
    if refuse then s.profEnd n status 1
    else s.puts [(.lfrReqAcc, 1), (.lfrSwPend, 1), (.lfrSwProf, s.rd .lfrReqProf n)] n
  else s

/-- MSG_PROFILE_REPLY_RX (R215). -/
def execMsgProfileReplyRx (n : Lane) (seq : BitVec 8) (refuse : Bool) (status : Fin 9) (txn : BitVec 8) (s : State) :
    Out :=
  .next (s.msgTake n seq.toNat (fun t => t.rxProfReply n refuse status txn.toNat))

/-! ## Taps of a partner (R162, R164, R204) -/

/-- A transmit tap held at its limits (R162). -/
def firLimit (i : Nat) (v : Int) : Int := if i = 2 then clampInt 0x100 0x400 v else clampInt (-0x200) 0x200 v

/-- A received TX_TAP_REQ: with TAP_ACCEPT the taps go through the shadow, limits and commit as a register write of
each, which takes it out of preset control (R21, R164, R204). -/
def State.rxTapReq (s : State) (n : Nat) (taps : List Int) : State :=
  if s.use .lfrTapAccept n ≠ 0 then
    let s := s.each ((taps.take 9).zipIdx) (fun e t =>
      (t.wrInt .ltxFirTap (firLimit e.2 e.1) n e.2).expertMark .ltxFirTap n)
    (s.ltxCommitNow n).svcSend n 7 1 0
  else s.svcSend n 7 1 1

/-- MSG_TX_TAP_REQ_RX (R204). -/
def execMsgTxTapReqRx (n : Lane) (seq : BitVec 8) (taps : List Int) (s : State) : Out :=
  .next (s.msgTake n seq.toNat (fun t => t.rxTapReq n taps))

/-- A received TX_TAP_REPLY completes the CDB command (R446). -/
def State.rxTapReply (s : State) (n : Nat) (applied : Bool) : State :=
  if s.on .cdbTapRun ∧ s.rd .cdbTapLane = n then
    (s.wr .cdbReply0 (bit (!applied))).cdbEnd (if applied then 0x01 else 0x40)
  else s

/-- MSG_TX_TAP_REPLY_RX (R204, R446). -/
def execMsgTxTapReplyRx (n : Lane) (seq : BitVec 8) (applied : Bool) (s : State) : Out :=
  .next (s.msgTake n seq.toNat (fun t => t.rxTapReply n applied))

/-- MSG_UNKNOWN_RX (R203). -/
def execMsgUnknownRx (n : Lane) (seq : BitVec 8) (s : State) : Out :=
  .next (s.msgTake n seq.toNat (fun t => t.bump .lfrMsgUnknownCnt n))

/-- A message as its TYPE and BODY spell it (R203). -/
def State.rxMessage (s : State) (n type body : Nat) : State :=
  match type with
  | 0 => s
  | 1 => s.rxAbility n (body % 2 ^ 128)
  | 2 => s.rxConfirm n (body % 2 ^ 32)
  | 3 => s.rxReneg n
  | 4 => s.rxProfChange n (min 2 (byteOf body 0)) (byteOf body 2) ((byteOf body 1).testBit 0)
  | 5 => s.rxProfReply n (byteOf body 0 != 0) (byteOf body 1) (byteOf body 2)
  | 6 => s.rxTapReq n ((List.range 9).map (fun i => signedOf 12 (body / 2 ^ (16 * i) % 2 ^ 12)))
  | 7 => s.rxTapReply n (byteOf body 0 == 0)
  | _ => s.bump .lfrMsgUnknownCnt n

/-- The CRC-16 of a side-channel frame of 32 bytes holds, its high byte first (R208, log entry 65). -/
def sideOk (frame : Nat) : Bool :=
  crc16 ((List.range 30).map (byteOf frame)) == 256 * byteOf frame 30 + byteOf frame 31

/-- SYNC of a side-channel frame, 0xB38E, its high byte first (R208, log entry 65). -/
def sideSync : Nat := 0x8EB3

/-- SIDE_CHANNEL_FRAME_RX: the 32 bytes of a side-channel frame, in compatibility mode, first byte lowest. A CRC mismatch
counts; else acknowledgement, then the message, or the Icris record of a frame without one (R208, R211, R305). -/
def execSideChannelFrameRx (n : Lane) (frame : BitVec 256) (s : State) : Out :=
  let v := frame.toNat
  let type := byteOf v 2
  let body := v / 2 ^ 48 % 2 ^ 192
  .next (if s.rd .lfrGroupMode n = 2 ∧ v % 65536 = sideSync then
    if !sideOk v then s.bump .lfrSvcCrcCnt n
    else if s.lrxInTraffic n then
      let s := (s.wr .lfrHelloSeen 1 n).msgAcked n (byteOf v 4)
      if type = 0 then
        if byteOf body 0 = 0 then s
        else
          let arr := if s.on .timLnV1Fresh n then some (s.rd .timLnV1Arr n) else none
          (s.wr .timLnV1Fresh 0 n).icrisIn n (recordOf body (arr.getD 0) (s.on .timLnV1Sus n)) arr
            (s.on .timLnV1Sus n) (s.on .timLnDiscV1 n) (body / 2 ^ 48 % 2 ^ 48)
      else s.msgTake n (byteOf v 3) (fun t => t.rxMessage n type body)
    else s
  else s)

/-! ## Timers and commands (R211, R213, R219) -/

/-- NEG_TIMEOUT (R211). -/
def execNegTimeout (n : Lane) (s : State) : Out :=
  .next (if s.rd .lfrNegState n = 1 ∨ s.rd .lfrNegState n = 2 then (s.negRetry n 5).1 else s)

/-- HELLO_TIMEOUT: the IEEE Std 802.3dj result, and the side channel stops (R208, R211). -/
def execHelloTimeout (n : Lane) (s : State) : Out :=
  .next (if s.rd .lfrNegState n = 5 ∧ !s.on .lfrHelloSeen n then
    let pre := s.use .lfrDjPrecode n
    ((s.wr .lfrSideOn 0 n).svcDrop n).negDone n (2 * 2 ^ 26 + 3 * 2 ^ 24 + pre * 2 ^ 21 + pre * 2 ^ 20 + 3 * 2 ^ 18)
  else s)

/-- RENEG (R213, R423). -/
def execReneg (n : Lane) (s : State) : Out :=
  .next (s.access .lfr n (fun s => s.laneService n (.reneg n) (fun t => t.renegNow n (some 0))))

/-- LFR_CNT_CLR (R219). -/
def execLfrCntClr (n : Lane) (s : State) : Out :=
  .next (s.access .lfr n (fun s => s.clear [.lfrMarkBadCnt, .lfrLolCnt, .lfrFrameSlipCnt, .lfrRenegRxCnt, .lfrSvcCorrCnt,
    .lfrSvcFailCnt, .lfrSvcCrcCnt, .lfrFillRxCnt, .lfrMsgUnknownCnt, .lfrPcDiscardCnt] n))

/-- COMPAT_FORMAT_SWITCH: the transmitter takes the format of the group's mode, muted for one frame (R207). -/
def execCompatFormatSwitch (n : Lane) (s : State) : Out :=
  .next (if s.on .lfrCompatPend n then
    let s := s.puts [(.lfrCompatPend, 0), (.lfrCompatTx, 1 - s.rd .lfrCompatTx n)] n
    s.when (s.rd .ltxState n == 4) (fun t => (t.puts [(.lfrCompatMute, 1), (.ltxMuted, 1)] n).precodeApply n)
  else s)

/-! ## The transmitted frame (R196, R202, R203, R205) -/

/-- FILL: the egress pause of a partial commit, host lanes that are not a ready pair, a gearbox that waits for the AM after
PAIR_READY, or a host lane whose receive direction sleeps or checks a pattern (R205, R272, R275, R280, R284). -/
def State.fillTx (s : State) (n : Nat) : Bool :=
  (s.maskBit .imgPcQ n && !s.maskBit .imgPcQEnd n) || !s.on .hifGlbPairReady 0 n ||
    (!s.transparent n && !s.on .hifPairRun 0 n) ||
    (s.activeHosts n).any (fun h => s.on .hifSleepRx h || s.on .hifRxChk h)

/-- The message slot: the message that waits for its acknowledgement in TRAIN, LOCKED and SERVICE, a RENEG always, else
TYPE 0; ACK outside those states is 0 (R203). -/
def State.msgSlot (s : State) (n : Nat) : Nat :=
  let type := s.rd .lfrTxType n
  let send := type != 0 && (s.lrxInTraffic n || type == 3)
  (if send then type + 2 ^ 8 * s.rd .lfrTxSeq n + 2 ^ 24 * s.rd .lfrTxLen n + 2 ^ 32 * s.rd .lfrTxBody n else 0) +
    2 ^ 16 * (if s.lrxInTraffic n then s.rd .lfrRxSeq n else 0)

/-- Close a frame content with the CRC of its bytes 0 to 155 (R202). -/
def closeFrame (content : Nat) : Nat :=
  let c := content % 2 ^ 1248
  c + 2 ^ 1248 * crc32 ((List.range 156).map (byteOf c))

/-- The content of the frame that starts: header, flags with FORMAT 3, message slot; the Icris region follows within the
frame (R202, R300). -/
def State.outStart (s : State) (n : Nat) : State :=
  let flags := s.rd .lfrFillTx n + 2 * s.rd .lfrFrameLock n + 4 * bit (s.rd .lrxState n = 5) + 3 * 2 ^ 12
  s.wr .lfrOutFrame (closeFrame (s.rd .lfrFrameTx n + 2 ^ 16 * flags + 2 ^ 416 * s.msgSlot n)) n

/-- The frame under way carries filler, or payload again: FILL_TX and the FILL flag of its content (R75, R205). -/
def State.fillMark (s : State) (n : Nat) (fill : Bool) : State :=
  let c := s.rd .lfrOutFrame n
  (s.wrb .lfrFillTx fill n).when (!s.on .lfrCompatTx n) (fun t => t.wr .lfrOutFrame (closeFrame (withBit c 16 fill)) n)

/-- The Icris region enters the content of the frame under way (R202, R300). -/
def State.outRegion (s : State) (n : Nat) : State :=
  let c := s.rd .lfrOutFrame n
  s.wr .lfrOutFrame (closeFrame (c % 2 ^ 32 + 2 ^ 32 * s.rd .timLnRegion n + c / 2 ^ 416 * 2 ^ 416)) n

/-! ## The side channel as it is sent (R208, R305, R343) -/

/-- A frame that starts without a message carries an Icris record while version 1 runs (R305, R332). -/
def State.sideRecord (s : State) (n : Nat) : Bool :=
  s.msgSlot n % 256 == 0 && s.on .pwrDomTime && s.maskBit .glbLaneRun n && decide (2 ≤ s.xState n) && s.icrisVer n == 1

/-- The side-channel frame that starts: the message slot, with the Icris record as the body of a frame without a message where
`record` (R208, R305). -/
def State.sideBuild (s : State) (n : Nat) (record : Bool) : Nat :=
  let slot := s.msgSlot n
  let body := if slot % 256 ≠ 0 then slot / 2 ^ 32 % 2 ^ 192
    else if record then s.rd .timLnRegion n % 2 ^ 192 else 0
  let v := sideSync + 2 ^ 16 * (slot % 2 ^ 32) + 2 ^ 48 * body
  let crc := crc16 ((List.range 30).map (byteOf v))
  v + 2 ^ 240 * (crc / 256) + 2 ^ 248 * (crc % 256)

/-- Cycles of the TIME clock in a Manchester chip of 50 µs (R208, R343). -/
def chipCycles : Nat := 25000

/-- At a trigger: the side channel takes its next frame when the 512 chips of the last one are over (R208). -/
def State.sideRun (s : State) (n : Nat) : State :=
  if !s.on .lfrSideOn n then s.wr .lfrSideFrame 0 n
  else if s.rd .lfrSideFrame n = 0 ∨ s.rd .lfrSideAt n + 512 * chipCycles ≤ s.now then
    let record := s.sideRecord n
    let s := s.when record (fun t => t.recordV1 n)
    s.puts [(.lfrSideFrame, s.sideBuild n record), (.lfrSideAt, s.now)] n
  else s

/-- The chip of this moment is the upper one: bytes in order, each MSB first, a 1 sent upper chip first (R208, log entry
65). -/
def State.sideChip (s : State) (n : Nat) : Bool :=
  let k := (s.now - s.rd .lfrSideAt n) / chipCycles
  (byteOf (s.rd .lfrSideFrame n) (k / 16)).testBit (7 - k / 2 % 8) == decide (k % 2 = 0)

/-! ## Boundaries (R45, R46, R127, R195) -/

/-- CODEWORD_BOUNDARY_APPLY: a receive codeword boundary, or a line TX one (R45, R99, R127, R154, R170). -/
def execCodewordBoundaryApply (n : Lane) (tx : Bool) (s : State) : Out :=
  .next (if tx then (if s.rd .ltxState n = 0 then s else s.txBoundary n)
  else if s.rxGrid n then s.rxBoundary n else s)

/-- The negotiated profile applies at the first receive frame boundary after the entry to LOCKED; the codewords of that
frame and the next are discarded uncounted (R120, R206, R212). -/
def State.profNegotiated (s : State) (n : Nat) : State :=
  if s.on .lrxProfApply n then
    let prof := if s.rd .lfrGroupMode n = 2 then 3 else s.rd .lfrResProfile n
    let s := s.puts [(.lfrProfActive, prof), (.lfrPartProf, prof), (.lrxProfApply, 0), (.lfrDiscLeft, 512),
      (.lfrDiscCnt, 0)] n
    (s.asymFollow n).dvfsKick
  else s

/-- FRAME_BOUNDARY_APPLY: a receive frame boundary of a lane in frame lock, 524,288 UI after the last one. The counter
advances, profiles, negotiation results and drift corrections apply, then what waits for a codeword boundary (R45, R46, R48,
R120, R196, R212, R216, R291). -/
def execFrameBoundaryApply (n : Lane) (s : State) : Out :=
  .next (if s.on .lfrFrameLock n && s.rxGrid n then
    let past := roundOpen 6 (2 ^ 19 * 256000000 : Nat) (256000000 + s.rdInt .lrxCdrFreq n).toNat
    let s := s.puts [(.lfrRxFrame, s.rd .lfrRxFrame n + 1), (.lfrUiBase, s.rd .lfrUiBase n + 2 ^ 19),
      (.lfrArrBase, (s.rd .lfrArrBase n + past).toNat)] n
    ((((s.profNegotiated n).profSwitch n).negApply n).driftApply n).rxBoundary n
  else s)

/-- The pattern checker of a host receive lane in ALIGN or READY: whether it locks and how many errors it counts follows a pattern that the spec
leaves to IEEE Std 802.3, so both are free (R284, log entry 58). -/
def State.chkRun (s : State) (h : Nat) : State :=
  if s.on .hifRxChk h && decide (3 ≤ s.rd .hifState h ∧ s.rd .hifState h ≤ 4) then
    let s := s.wrFree .hifChkLock h
    s.free.2.bump .hifPrbsErrCnt h 0 s.free.1
  else s

/-- Host cycles of a line frame (R49). -/
def hostCycles : Nat := 1920

/-- The matchers of the host lanes of a line lane over the cycles of a frame; `a` and `b` are what the deskew buffers of
lanes A and B pass (R277). -/
def State.matchRun (s : State) (n a b : Nat) : State :=
  let live (h : Nat) : Bool := decide (3 ≤ s.rd .hifState h ∧ s.rd .hifState h ≤ 4)
  let hits (h v c : Nat) : List Nat :=
    matches32 (256 * (1 + s.rd .hifRate h)) v (s.rd .hifAlignWord h) (s.rd .hifAlignMask h) c
  let count (p : Nat → Bool) : Nat := ((List.range hostCycles).filter p).length
  match s.activeHosts n with
  | [x] => s.when (live x) (fun t => t.bump .hifAlignHitsCnt x 0 (count (fun c => hits x a c != [])))
  | [x, y] =>
    let s := s.when (live x) (fun t => t.bump .hifAlignHitsCnt x 0 (count (fun c => hits x a c != [])))
    let s := s.when (live y) (fun t => t.bump .hifAlignHitsCnt y 0 (count (fun c => hits y b c != [])))
    s.when (live x && live y) (fun t => t.bump .hifGlbPairHits 0 n
      (count (fun c => (hits x a c).any (fun p => (hits y b c).contains p))))
  | _ => s

/-- What a line TX frame boundary changes before the new frame: format, drift, precoder, waiting shadow, pattern, wake pattern
and the end of a mute (R46, R184, R185, R196, R207, R291). -/
def State.txFrameStart (s : State) (n : Nat) : State :=
  let s := (((s.wr .lfrFrameTx (s.rd .lfrFrameTx n + 1) n).driftApply (8 + n)).precodeApply n).txBoundary n
  let s := s.wr .ltxPatFrames (s.rd .ltxPatFrames n + 1) n
  let active := s.rd .ltxState n == 4
  let s := s.when (s.on .ltxPatPend n && active) (fun t => t.patApply n)
  let s := s.when (s.on .ltxWakeRun n) (fun t => t.wr .ltxWakeFrames (t.rd .ltxWakeFrames n + 1) n)
  let s := s.when (s.on .ltxWakePend n && active && !s.on .ltxSleep n) (fun t =>
    t.puts [(.ltxWakePend, 0), (.ltxWakeRun, 1), (.ltxWakeFrames, 0)] n)
  s.when (s.on .lfrCompatMute n) (fun t => (t.wr .lfrCompatMute 0 n).when
    (t.rd .ltxState n == 4 && !t.on .ltxSleep n) (fun u => u.wr .ltxMuted 0 n))

/-- TX_FRAME_BOUNDARY: a line TX frame boundary, with the bits that the deskew buffers of host lanes A and B pass in the frame
that starts, the first one lowest, and 32 bits beyond them; their matchers and checkers run whatever the line does. The frame before it is kept for the filters that reach back; the
encoder takes the frame's payload stream, and in the native format the service channel's content goes out (R161, R162, R184,
R185, R194, R196, R202, R203, R205, R207, R272, R277, R291). -/
def execTxFrameBoundary (n : Lane) (a b : BitVec 983072) (s : State) : Out :=
  let s := (s.each (s.activeHosts n) (fun h t => t.chkRun h)).matchRun n a.toNat b.toNat
  .next (if s.rd .ltxState n = 0 then s
  else
    let old := s.txFrame n
    let pre := old.precodeEnd
    let s := s.txFrameStart n
    let s := (s.wrb .lfrFillTx (s.fillTx n) n).wr .timLnTxFresh 0 n
    let s := s.setLd n { s.ld n with
      stream := gearStream ((s.activeHosts n).length < 2) a.toNat b.toNat, last := old, pre := pre }
    if s.on .lfrCompatTx n then s else s.outStart n)

/-! ## Straits (R36, R37, R40, R41) -/

/-- What a dropped word does to the lanes behind the strait; `lanes` says which lanes of a host island it concerned. -/
def State.straitEffect (s : State) (id lanes : Nat) : State :=
  let hosts (g : Nat) : List Nat := ((List.range 4).filter (fun k => lanes.testBit k)).map (fun k => 4 * g + k)
  let hostFault (g : Nat) : State := s.each (hosts g) (fun h t =>
    t.when (decide (2 ≤ t.rd .hifState h ∧ t.rd .hifState h ≤ 4)) (fun u => u.hifFault h 5))
  if id < 0x08 then (if s.rxGrid id then s.lrxFault id 7 else s)
  else if id < 0x1C then hostFault (id - 0x18)
  else if id < 0x20 then hostFault (id - 0x1C)
  else if id < 0x28 then
    let st := s.rd .ltxState (id - 0x20)
    if st = 2 ∨ st = 3 ∨ st = 4 ∨ st = 7 then s.ltxFault (id - 0x20) 7 else s
  else (s.bump .timTsLostCnt).raise .timIntStatus Irq.timTsLost

/-- `k` words dropped at a full strait, with what follows for the lanes behind it (R37, R40). -/
def State.straitLoss (s : State) (id lanes k : Nat) : State := (s.straitDrop id k).straitEffect id lanes

/-- STRAIT_OVERFLOW: a word offered to a full dropping strait; no other strait drops one (R36, R37, R40, R290). -/
def execStraitOverflow (id : BitVec 7) (lanes : BitVec 4) (s : State) : Out :=
  .next (if dropping id.toNat then s.straitLoss id.toNat lanes.toNat 1 else s)

/-- STRAIT_ERR_CLR (R41). -/
def execStraitErrClr (s : State) : Out :=
  .next (s.access .glb 0 (fun s => s.puts [(.glbStraitOvfCount, 0), (.glbStraitLastId, 0)]))

end Sys2Proof.Machine
end

