-- ==== Sys2Proof/Machine/Archipelago.lean ====
section
/-!
DEFINITION. The decode archipelago: home queues, engines, work stealing, the emit ports, the release buffers, and
background work (R220 to R249). Times are the compensated ATC of the island concerned, in 1/16 UI modulo 2^28.
-/
namespace Sys2Proof.Machine

/-! ## Times and structure (R225, R227, R230, R231) -/

/-- Time `b` lies at or after time `a`, modulo the span (R226). -/
def notBefore (a b : Nat) : Bool := decide ((b + atcSpan - a % atcSpan) % atcSpan < atcSpan / 2)

/-- Cycle of a cluster clock at a DVFS point, in 1/144 line UI: 160, 188.9, 226.7 and 266.7 UI (R227). -/
def cycleOf (point : Nat) : Nat :=
  match point with
  | 0 => 23040
  | 1 => 27200
  | 2 => 32640
  | _ => 38400

/-- Cycles of a full-budget decode: load, iterations and emit (R51, R222). -/
def budgetCycles (profile : Nat) : Nat := if profile = 1 then 220 else 424

/-- Present DVFS point of a cluster (R247). -/
def State.arcPoint (s : State) (c : Nat) : Nat := pointOf (s.rd .pwrDvfsPoint) c

/-- Home lane of an engine, and whether it is idle-reserve (R66). -/
def State.engHome (s : State) (e : Nat) : Nat × Bool :=
  match s.running with
  | some i => i.home e
  | none => (e / 16, e % 16 == 15)

/-- The table writes of a partial commit run: every lane of the group has paused and released its last codeword before the
pause (R75). -/
def State.pcWrites (s : State) : Bool :=
  s.rd .imgState == 5 && !s.on .imgPcWritten && s.rd .imgPcP == s.rd .imgPcLanes &&
    s.slots.all (fun r => !s.maskBit .imgPcLanes r.lane)

/-- Present state of an engine: ISOLATED during the table writes of its group (R220, R242). -/
def State.engState (s : State) (e : Nat) : Nat :=
  if s.on .arcEngBad 0 e then 7 else if !s.maskBit .glbDecodeRun (e / 16) then 8
  else if s.pcWrites && s.maskBit .imgPcLanes (e / 16) then 6 else s.rd .arcEngSt 0 e

/-- An engine is held to decoding by a preemption (R246). -/
def State.engHeld (s : State) (e : Nat) : Bool := s.bg.any (fun b => b.hold == some e)

/-- The home lane of a cluster runs Ristretto (R231, R239). -/
def State.runsRistretto (s : State) (m : Nat) : Bool :=
  s.rd .lfrProfActive m == 0 && decide (4 ≤ s.rd .lrxState m ∧ s.rd .lrxState m ≤ 5)

/-- The queue of a lane. -/
def State.queue (s : State) (v : Nat) : List Codeword := s.homeQ.filter (fun w => w.lane = v)

/-- The program of a cluster declares a profile (R221, R231). -/
def State.declares (s : State) (c profile : Nat) : Bool :=
  match s.running with
  | some i => ((i.programs[i.program c]?).map (fun p => p.profiles.testBit profile)).getD false
  | none => false

/-- THRESH_EFF of a lane (R231). -/
def State.threshEff (s : State) (v : Nat) : Nat :=
  max 1 (s.rd .arcClStealThresh v - s.rd .arcThreshStep * s.arcPoint v)

/-- The links and receiving clusters of a path of `h` hops from Dv to Dm, in order from Dv, going down the ring where
the thief sees the queue clockwise. Link 2a leads from a to a - 1, link 2a + 1 from a to a + 1. -/
def ringPath (v h : Nat) (down : Bool) : List (Nat × Nat) :=
  (List.range h).map (fun j =>
    let a := if down then (v + 16 - j) % 8 else (v + j) % 8
    (2 * a + bit (!down), if down then (a + 7) % 8 else (a + 1) % 8))

/-- A path may carry a transfer: the clocks of all its clusters run, and while a partial commit isolates clusters none of them
is isolated, or all are and the transfer is a home take inside the group (R75, R230, R332). -/
def State.pathOpen (s : State) (v : Nat) (path : List (Nat × Nat)) (steal : Bool) : Bool :=
  let cs := v :: path.map (·.2)
  cs.all (fun c => s.maskBit .glbDecodeRun c) &&
    (cs.all (fun c => !s.on .arcClIsolated c) || (!steal && cs.all (fun c => s.on .arcClIsolated c)))

/-- The path over which Dm reaches the queue of Dv: the shorter of the two that the reach and the isolation leave,
clockwise on equal length (R230). Reach bounds steals only. -/
def State.pathTo (s : State) (m v : Nat) (steal : Bool) : Option (List (Nat × Nat)) :=
  let cw := (v + 8 - m) % 8
  let ccw := (m + 8 - v) % 8
  let a := ringPath v cw true
  let b := ringPath v ccw false
  let aOk := s.pathOpen v a steal && (!steal || decide (cw ≤ s.rd .arcClReachCw m))
  let bOk := s.pathOpen v b steal && (!steal || decide (ccw ≤ s.rd .arcClReachCcw m))
  if m = v then none
  else if aOk ∧ (!bOk ∨ cw ≤ ccw) then some a
  else if bOk then some b
  else none

/-- A link is free once its last word has left it: the j-th link of a path 3(j + 1) + 12 cycles after the grant (R235). -/
def State.linkFree (s : State) (link atc : Nat) : Bool :=
  s.work.all (fun w => (w.links.zipIdx).all (fun e =>
    e.1 ≠ link || decide ((3 * (e.2 + 1) + 12) * w.cycle ≤ 9 * ((atc + atcSpan - w.grantAt) % atcSpan))))

/-- Longest cycle among the receiving clusters of a path (R231). -/
def State.pathCycle (s : State) (path : List (Nat × Nat)) : Nat :=
  path.foldl (fun a e => max a (cycleOf (s.arcPoint e.2))) 0

/-- ATC + T_xfer + budget(Dm) ≤ DEADLINE of the head (R231). -/
def State.inTime (s : State) (m : Nat) (path : List (Nat × Nat)) (cw : Codeword) (atc : Nat) : Bool :=
  let need := (3 * path.length + 12) * s.pathCycle path + budgetCycles cw.profile * cycleOf (s.arcPoint m)
  notBefore (atc + (need + 8) / 9) (16 * cw.deadline)

/-- The latest start time of a codeword in Dc at 1/16-UI resolution; R227 does not say which way it is rounded, so that
bit is free (log entry 9). -/
def State.latestStart (s : State) (c : Nat) (cw : Codeword) : Nat × State :=
  let need := budgetCycles cw.profile * cycleOf (s.arcPoint c)
  let down := (16 * cw.deadline + atcSpan - (need + 8) / 9) % atcSpan
  if need % 9 = 0 then (down, s) else ((down + s.free.1 % 2) % atcSpan, s.free.2)

/-! ## Outcomes (R224) -/

/-- Outcomes of R224 with their histogram bins. -/
inductive CwOutcome where
  | clean | corrected (iter bits : Nat) | uncorr (limit : Nat) | expRun | expQ
deriving DecidableEq, Repr

/-- Histogram bin of an outcome (R224). -/
def CwOutcome.bin : CwOutcome → Nat
  | .clean => 0
  | .corrected i _ => i
  | .uncorr _ => 13
  | .expRun => 14
  | .expQ => 15

/-- A codeword ends with an outcome in cluster `c`: the lane's counters, the cluster's tally, interrupts, fault sources
and the end of Trim (R224, R368). -/
def State.cwEnd (s : State) (c : Nat) (cw : Codeword) (o : CwOutcome) : State :=
  let v := cw.lane
  let s := s.bump .arcTally c (16 * v + o.bin)
  match o with
  | .clean => s.bump .arcClDecodedCnt v
  | .corrected i bits => ((s.bump .arcClDecodedCnt v).bump .arcClIterSumCnt v 0 i).bump .arcClCorrBitsCnt v 0 bits
  | .uncorr limit =>
    let s := ((s.bump .arcClDecodedCnt v).bump .arcClIterSumCnt v 0 limit).bump .arcClUncorrCnt v
    (s.raise .arcClIntStatus Irq.arcClUncorr v).faultEvent 5 v
  | .expRun =>
    let s := ((s.bump .arcClDecodedCnt v).bump .arcClExpRunCnt v).raise .arcClIntStatus Irq.arcClExpRun v
    (s.faultEvent 6 v).trimLoad v
  | .expQ => (((s.bump .arcClExpQCnt v).raise .arcClIntStatus Irq.arcClExpQ v).faultEvent 6 v).trimLoad v

/-- Ask for the S-DX port of a cluster (R229). -/
def State.askPort (s : State) (e : Emission) : State := { s with emits := s.emits ++ [e] }

/-- Framing takes the service bits of a codeword of its present frame or the one before; what it held for the codeword, or
for older frames, goes (R222; DEDUCED, log entry 55). -/
def State.serviceIn (s : State) (cw : Codeword) (bits : Nat) : State :=
  let d := s.ld cw.lane
  let now := s.rd .lfrRxFrame cw.lane
  let old := d.service.filter (fun b => (b.frame == now % 256 || b.frame == (now + 255) % 256) &&
    !(b.frame == cw.frame && b.index == cw.index))
  s.setLd cw.lane { d with service := ⟨cw.frame, cw.index, bits⟩ :: old }

/-- Cluster `c` sends a codeword on: its payload bits ask for the S-DX port, and its service bits go to framing (R222). -/
def State.sendHard (s : State) (c eng : Nat) (bypass : Bool) (cw : Codeword) (hard : List Nat) : State :=
  (s.askPort ⟨c, bypass, eng, cw, payloadOf hard, 0⟩).serviceIn cw (hard.getD 0 0)

/-- A queued codeword expires: its input hard decisions go out through the bypass path (R224, R227, R228). -/
def State.expireQ (s : State) (cw : Codeword) : State :=
  (s.cwEnd cw.lane cw .expQ).sendHard cw.lane 128 false cw (inputHard cw.llr)

/-! ## Queue (R48, R226 to R228, R239, R240) -/

/-- Release hold of a profile in line UI; in compatibility mode 64 lane cycles (R50, R237, R240). -/
def holdOf (prof : Nat) : Nat :=
  match prof with
  | 0 => 5033
  | 1 => 79833
  | 2 => 165966
  | _ => 10240

/-- The LLR codes of a codeword under the equaliser's coefficients, thresholds and edges in use; with DFE_EN 0 the decision
feedback subtracts nothing (R128, R131, R134, R135, R148 to R150). -/
def State.softCodes (s : State) (v : Nat) (samples : List Int) : Nat :=
  softWord ((List.range 41).map (fun i => s.rdInt .leqTapLive v i))
    (if s.use .leqDfeEn v = 0 then 0 else s.rdInt .leqD1Live v)
    (if s.on .leqMlseActive v then some (s.rdInt .leqMlseT1Act v, s.rdInt .leqMlseT2Act v) else none)
    [s.rd .leqThrActT1 v, s.rd .leqThrActT2 v, s.rd .leqThrActT3 v] [s.use .leqB1 v, s.use .leqB2 v, s.use .leqB3 v]
    (s.rd .leqMse v) samples

/-- When codeword `index` of the frame under way arrives: in the lane's own UI count, and as ATC, which counts at the
nominal rate and so sees the line UI scaled by the measured offset. In compatibility mode a unit takes 4,096 UI (R48,
R225, R226, R240, R241; log entry 68). -/
def State.arrivalOf (s : State) (v index : Nat) : Nat × Nat :=
  let compat := s.rd .lfrGroupMode v = 2
  let ui := if compat then 4096 * s.rd .lfrUnits v else s.rd .lfrUiBase v + 2048 * (index + 1)
  let past := if compat then 4096 * s.rd .lfrUnits v else 2048 * (index + 1)
  let atc := roundOpen 6 (past * 256000000 : Nat) (256000000 + s.rdInt .lrxCdrFreq v).toNat
  (ui % 2 ^ 24, ((s.rd .lfrArrBase v + atc) % (2 ^ 24 : Int)).toNat)

/-- A codeword of the lane reaches the archipelago (R226). In Ristretto and compatibility mode it takes the bypass or the
compatibility decoder (R239, R240). -/
def State.enqueue (s : State) (v index : Nat) (samples : List Int) : State :=
  let prof := s.rd .lfrProfActive v
  let offset := if prof = 1 then 77113 else 163246
  let map := s.rd .arcClMag0 v + 32 * (s.rd .arcClMag1 v + 32 * (s.rd .arcClMag2 v + 32 * s.rd .arcClMag3 v))
  let limit := if prof = 1 then s.rd .arcClIterLimitE v else s.rd .arcClIterLimitL v
  let at' := s.arrivalOf v index
  let cw : Codeword := ⟨v, prof, s.rd .lfrRxFrame v % 256, index, at'.2, (at'.2 + offset) % 2 ^ 24, map, limit,
    s.softCodes v samples⟩
  let slot : RelSlot := ⟨v, cw.frame, index, prof, (at'.1 + holdOf prof) % 2 ^ 24, 0, 0⟩
  let s : State := { s with slots := s.slots ++ [slot] }
  if prof = 3 then s.askPort ⟨v, true, 128, cw, (Config.compatPayload samples).toNat, 0⟩
  else if prof = 0 then s.sendHard v 128 true cw (inputHard cw.llr)
  else if s.homeQDepth v ≤ (s.queue v).length then
    ((s.wr .arcClQFull 1 v).raise .arcClIntStatus Irq.arcClQFull v).expireQ cw
  else
    let s := { s with homeQ := s.homeQ ++ [cw] }
    let depth := (s.queue v).length
    let s := s.wr .arcClQHwm (max (s.rd .arcClQHwm v) depth) v
    s.when (decide (s.rd .pwrLnTrimWakeQ v < depth)) (fun t => t.trimLoad v)

/-- Framing writes a codeword's 12,288 LLR bits through S-LD: 13 words of 960 bits at most. While DECODEn is stopped they wait
in the strait; what exceeds its depth is dropped (R37, R39, R332, log entry 67). -/
def State.straitStopped (s : State) (v index : Nat) (samples : List Int) : State :=
  let llr := s.softCodes v samples
  let ws := (List.range 13).map (fun j => (⟨v, v, s.rd .lfrRxFrame v % 256, index, j,
    llr / 2 ^ (960 * j) % 2 ^ 960⟩ : StraitWord))
  let lost := 13 - s.straitRoom v
  (s.straitPut v ws).when (decide (0 < lost)) (fun t => t.straitLoss v 0 lost)

/-- CODEWORD_ENQUEUE: framing writes codeword `index`, whose FFE input samples are given with those that its filters
reach before and after it. Codewords of the frames that a profile change, an entry to LOCKED or a partial commit
discards are counted as those rules say (R48, R77, R120, R216, R226, R240). -/
def execCodewordEnqueue (n : Lane) (index : BitVec 8) (samples : List Int) (s : State) : Out :=
  let st := s.rd .lrxState n
  let s := s.when (s.rd .lfrGroupMode n == 2 && s.on .lfrFrameLock n) (fun t => t.wr .lfrUnits (t.rd .lfrUnits n + 1) n)
  .next (if !((st = 4 ∨ st = 5) ∧ !s.on .lrxSleep n ∧ !s.on .lrxProfApply n) then s
    else if s.on .lfrPcLeft n then (s.wr .lfrPcLeft (s.rd .lfrPcLeft n - 1) n).bump .imgPcDiscard
    else if s.on .lfrDiscLeft n then
      (s.wr .lfrDiscLeft (s.rd .lfrDiscLeft n - 1) n).when (s.on .lfrDiscCnt n) (fun t => t.bump .lfrPcDiscardCnt n)
    else if !s.maskBit .glbDecodeRun n then s.straitStopped n index.toNat samples
    else s.enqueue n index.toNat samples)

/-- CODEWORD_EXPIRY: the compensated ATC of Dn passed the latest start time of the head (R227). -/
def execCodewordExpiry (n : Lane) (phase : Int) (s : State) : Out :=
  .next (match s.queue n with
    | [] => s
    | cw :: _ =>
      let r := s.latestStart n cw
      if notBefore (s.compAtc phase) r.1 then r.2
      else ({ r.2 with homeQ := r.2.homeQ.erase cw } : State).expireQ cw)

/-! ## Engines and grants (R230 to R236) -/

/-- Set an engine's state. -/
def State.setEng (s : State) (e st : Nat) : State := s.wr .arcEngSt st 0 e

/-- The head that an engine's home queue offers: startable in its own cluster, or in time over the ring; none in a
cluster whose home lane runs Ristretto (R227, R232, R233, R239). -/
def State.homeOffer (s : State) (e atc : Nat) : Bool × State :=
  let v := (s.engHome e).1
  let m := e / 16
  if s.runsRistretto m then (false, s) else
  match s.queue v with
  | [] => (false, s)
  | cw :: _ =>
    if m = v then
      let r := s.latestStart v cw
      (notBefore atc r.1, r.2)
    else match s.pathTo m v false with
      | some p => (p.all (fun l => s.linkFree l.1 atc) && s.inTime m p cw atc, s)
      | none => (false, s)

/-- The queue of Lv is eligible for a thief in Dm (R231). -/
def State.eligible (s : State) (m v atc : Nat) : Bool :=
  match s.queue v, s.pathTo m v true with
  | cw :: _, some p =>
    decide (s.threshEff v < (s.queue v).length) && s.declares m cw.profile && p.all (fun l => s.linkFree l.1 atc) &&
      s.inTime m p cw atc
  | _, _ => false

/-- Dm steals at all (R231). -/
def State.mayStealFrom (s : State) (m : Nat) : Bool :=
  s.on .arcStealEn && !s.runsRistretto m && !(s.on .arcThermalNosteal && s.on .thmLnDvfsSteps 0 m)

/-- The better of two eligible queues: deeper, then the older head, then the lower lane (R233). -/
def State.betterQueue (s : State) (a b : Nat) : Nat :=
  let qa := s.queue a
  let qb := s.queue b
  if qb.length < qa.length then a
  else if qa.length < qb.length then b
  else match qa, qb with
    | x :: _, y :: _ => if x.arrival ≠ y.arrival ∧ notBefore (16 * y.arrival) (16 * x.arrival) then b else a
    | _, _ => a

/-- A self-test of an engine could start now: no supply warning, VDD_CORE in its window, and one of the 32 slots free (R246,
R416, R417). -/
def State.bistOpen (s : State) : Bool :=
  !s.warning && decide (700 ≤ s.rd .pwrVoutActMv ∧ s.rd .pwrVoutActMv ≤ 800) &&
    decide ((s.tests.filter (fun b => b.kind == 0 && b.phase == .running)).length < 32)

/-- A self-test of an engine waits, and if `preempt` asks so one that takes its unit at once (R242, R246). -/
def State.bistWaits (s : State) (e : Nat) (preempt : Bool) : Bool :=
  s.tests.any (fun b => b.kind == 0 && b.unit == e && b.phase == .pending && (!preempt || b.preempt))

/-- Task `a` is served before `b`: self-test, refresh, histogram, and by age within each kind (R246). -/
def bgBefore (a b : BgTask) : Bool := decide (a.kind < b.kind) || (a.kind == b.kind && decide (b.age < a.age))

/-- The task of a list that is served first; of equals the one that fell due first (R246). -/
def bgFirst (l : List BgTask) : Option BgTask := l.foldl (fun w b => match w with
  | some x => if bgBefore b x then some b else w
  | none => some b) none

/-- The task an engine serves: self-tests first, which BIST_START begins, then refresh, then histogram, the oldest first
(R246). A preempting task runs only on its server. -/
def State.bgPick (s : State) (e : Nat) : Option BgTask :=
  if s.bistOpen && s.bistWaits e false then none
  else bgFirst (s.bg.filter (fun b => b.cluster = e / 16 && b.kind != 0 && b.server.isNone && (b.kind == 2 || b.eng == e)))

/-- An engine serves a background task (R220, R245, R246). -/
def State.bgServe (s : State) (e : Nat) (b : BgTask) : State :=
  let s := { s with bg := s.bg.map (fun x => if x = b then { b with server := some e, age := 0, run := true } else x) }
  (s.setEng e 4).wr .arcEngRun b.kind 0 e

/-- The idle-reserve engine of the cluster of a task that may be held to decoding while the task runs (R246). -/
def State.reserveFor (s : State) (b : BgTask) : Option Nat :=
  (clusterEngines b.cluster).find? (fun e => (s.engHome e).2 && decide (s.engState e ≤ 4) && !s.engHeld e &&
    !(b.kind ≤ 1 && b.eng == e))

/-- A starved task of a cluster waits for want of a reserve engine (R246). -/
def State.starveBlocked (s : State) (c : Nat) : Bool :=
  s.bg.any (fun b => b.cluster == c && b.starved && b.server.isNone && (s.reserveFor b).isNone)

/-- The starved task that this engine serves next (R246). -/
def State.starvedFor (s : State) (e : Nat) : Option BgTask :=
  bgFirst (s.bg.filter (fun b => b.starved && b.server == some e && !b.run && (b.kind != 0 || s.bistOpen)))

/-- ENGINE_REQUEST: an IDLE engine chooses its work. One that a starved task waits for takes that task first; one that a
self-test takes at once leaves its work to the test where that can start; one held to decoding takes no task (R233, R242,
R246). -/
def execEngineRequest (e : Fin 128) (phase : Int) (s : State) : Out :=
  let e : Nat := e
  let t := s.compAtc phase
  .next (if s.engState e ≠ 0 then s
    else if s.bistOpen && s.bistWaits e true && !s.engHeld e then s
    else match s.starvedFor e with
    | some b => if b.kind = 0 then s else s.bgServe e b
    | none =>
      let r := s.homeOffer e t
      let s := { r.2 with asks := r.2.asks.filter (fun a => a.1 ≠ e) }
      let home := (s.engHome e).1
      let m := e / 16
      if r.1 then { s with asks := s.asks ++ [(e, home)] }
      else
        let qs := if s.mayStealFrom m then (List.range 8).filter (fun v => v ≠ home && s.eligible m v t) else []
        match qs with
        | v :: l => { s with asks := s.asks ++ [(e, l.foldl s.betterQueue v)] }
        | [] =>
          if s.engHeld e then s
          else match s.bgPick e with
            | some b => s.bgServe e b
            | none => s)

/-- Class, hops and engine of a request for the queue of Lv: what the arbiter orders by (R234). -/
def State.askKey (s : State) (v e : Nat) : Nat :=
  let m := e / 16
  let steal := (s.engHome e).1 ≠ v
  let hops := if m = v then 0 else ((s.pathTo m v steal).map List.length).getD 7
  (if steal then 2 else if m = v then 0 else 1) * 2048 + hops * 128 + e

/-- An engine not granted counts one RACE_LOST in its cluster (R234). -/
def State.raceLost (s : State) (e : Nat) : State := s.bump .arcClRaceLostCnt (e / 16)

/-- The head of the queue of Lv goes to an engine: to load at once in its own cluster, else over the ring (R228, R235,
R236). -/
def State.grant (s : State) (v e : Nat) (cw : Codeword) (path : List (Nat × Nat)) (atc : Nat) : State :=
  let own := e / 16 = v
  let w : EngWork := ⟨e, cw, if own then .load else .receive, 0, path.map (·.1), atc, s.pathCycle path, .empty⟩
  let s := { s with homeQ := s.homeQ.erase cw, work := s.work.filter (fun (x : EngWork) => x.eng ≠ e) ++ [w] }
  let s := s.setEng e (if own then 2 else 1)
  s.when ((s.engHome e).1 != v) (fun t => (t.bump .arcClStolenOutCnt v).bump .arcClStolenInCnt (e / 16))

/-- QUEUE_GRANT: the arbiter of the queue of Ln takes one requester; a path that meets a claimed link is withdrawn, and a head
past its latest start time expires instead (R227, R234, R235). -/
def execQueueGrant (n : Lane) (phase : Int) (s : State) : Out :=
  let v : Nat := n
  let t := s.compAtc phase
  let engs := (s.asks.filter (fun a => a.2 = v)).map (·.1)
  let s1 := { s with asks := s.asks.filter (fun a => a.2 ≠ v) }
  .next (match engs with
    | [] => s
    | e0 :: l =>
      let win := l.foldl (fun a e => if s.askKey v e < s.askKey v a then e else a) e0
      let lose := s1.each (engs.filter (· ≠ win)) (fun e u => u.raceLost e)
      match s.queue v with
      | [] => lose.raceLost win
      | cw :: _ =>
        let r := lose.latestStart v cw
        if !notBefore t r.1 then
          (({ r.2 with homeQ := r.2.homeQ.erase cw } : State).raceLost win).expireQ cw
        else if s.engState win ≠ 0 then r.2
        else if win / 16 = v then r.2.grant v win cw [] t
        else match s.pathTo (win / 16) v ((s.engHome win).1 != v) with
          | some p => if p.all (fun x => s.linkFree x.1 t) then r.2.grant v win cw p t else r.2.raceLost win
          | none => r.2.raceLost win)

/-! ## Decoding (R222, R229, R235, R243, R244) -/

/-- What an engine holds. -/
def State.workOf (s : State) (e : Nat) : Option EngWork := s.work.find? (fun w => w.eng = e)

/-- Change what an engine holds. -/
def State.setWork (s : State) (e : Nat) (g : EngWork → EngWork) : State :=
  { s with work := s.work.map (fun w => if w.eng = e then g w else w) }

/-- STEAL_TRANSFER_DONE: the last LLR word has reached the engine, which loads (R235). -/
def execStealTransferDone (e : Fin 128) (s : State) : Out :=
  .next (match s.workOf e with
    | some w => if w.stage = .receive then (s.setWork e (fun x => { x with stage := .load })).setEng e 2 else s
    | none => s)

/-- A decode ends: outcome counted, port requested for the payload that the outcome emits, service bits sent to framing (R222,
R224, R229). -/
def State.decodeEnd (s : State) (e : Nat) (w : EngWork) (o : CwOutcome) (hard : List Nat) : State :=
  let s := s.setWork e (fun x => { x with stage := .waitPort })
  (s.cwEnd (e / 16) w.cw o).sendHard (e / 16) e false w.cw hard

/-- The hard decisions that an engine has now: its posteriors', or the input's before they are loaded (R222, R224). -/
def EngWork.hard (w : EngWork) : List Nat := hardDecision w.dec (inputHard w.cw.llr)

/-- ENGINE_LOAD_DONE: with the syndrome of the input hard decisions zero the codeword is CLEAN, else the posteriors are loaded
(R222, R223). -/
def execEngineLoadDone (e : Fin 128) (s : State) : Out :=
  .next (match s.workOf e with
    | some w =>
      let input := inputHard w.cw.llr
      if w.stage ≠ .load then s
      else if syndromeZero input then s.decodeEnd e w .clean input
      else s.setWork e (fun x => { x with stage := .iterate, dec := decodeLoad w.cw.llrMap w.cw.llr })
    | none => s)

/-- ENGINE_ITERATION_DONE: a layered min-sum pass with NORM and OFFSET of the engine's program, and its syndrome check (R222,
R224). -/
def execEngineIterationDone (e : Fin 128) (s : State) : Out :=
  .next (match s.workOf e with
    | some w =>
      if w.stage ≠ .iterate then s
      else
        let i := w.iter + 1
        let w := { w with iter := i, dec := decodeIteration (s.minSum e).1 (s.minSum e).2 w.dec }
        let s := s.setWork e (fun _ => w)
        if syndromeZero w.hard then s.decodeEnd e w (.corrected i (bitsChanged w.hard (inputHard w.cw.llr))) w.hard
        else if w.cw.iterLimit ≤ i then s.decodeEnd e w (.uncorr i) w.hard
        else s
    | none => s)

/-- Time to emit everything ahead of an engine's codeword in port order, in 1/144 UI: 8 cycles for each (R229). -/
def State.aheadOf (s : State) (e : Nat) (w : EngWork) : Nat :=
  let before (x : Emission) : Bool := x.bypass || (x.cw.deadline != w.cw.deadline && notBefore (16 * x.cw.deadline) (16
    * w.cw.deadline)) ||
    (x.cw.deadline == w.cw.deadline && decide (x.eng < e))
  8 * cycleOf (s.arcPoint (e / 16)) *
    ((s.ports.filter (fun x => x.cluster = e / 16)).length + (s.emits.filter (fun x => decide (x.cluster = e / 16) &&
      before x)).length)

/-- ENGINE_STOP_POINT: the compensated ATC has passed DEADLINE less 320 UI less the time to emit what is ahead (R229,
R236). -/
def execEngineStopPoint (e : Fin 128) (phase : Int) (s : State) : Out :=
  .next (match s.workOf e with
    | some w =>
      let stop := (16 * w.cw.deadline + atcSpan - 16 * 320 - (s.aheadOf e w + 8) / 9 % atcSpan) % atcSpan
      if (w.stage = .receive ∨ w.stage = .load ∨ w.stage = .iterate) ∧ notBefore stop (s.compAtc phase) then
        s.decodeEnd e w .expRun w.hard
      else s
    | none => s)

/-- The request that a port serves first: the bypass in arrival order, then the earliest DEADLINE, then the lower
engine (R229). -/
def portPick (l : List Emission) : Option Emission :=
  match l.find? (fun e => e.bypass) with
  | some e => some e
  | none => l.foldl (fun w e => match w with
    | none => some e
    | some x =>
      if e.cw.deadline = x.cw.deadline then (if e.eng < x.eng then some e else w)
      else if notBefore (16 * x.cw.deadline) (16 * e.cw.deadline) then w else some e) none

/-- EMIT_PORT_GRANT of cluster Dn (R229). -/
def execEmitPortGrant (n : Lane) (s : State) : Out :=
  .next (if s.ports.any (fun p => p.cluster = n) then s
    else match portPick (s.emits.filter (fun e => e.cluster = n)) with
    | none => s
    | some e =>
      let s := { s with emits := s.emits.erase e, ports := s.ports ++ [e] }
      if e.eng < 128 then (s.setWork e.eng (fun x => { x with stage := .emit })).setEng e.eng 3 else s)

/-- The S-DX words of an emission that are still to be written (R37, R222). -/
def Emission.words (e : Emission) : List StraitWord :=
  (List.range' e.sent (8 - e.sent)).map (fun j =>
    ⟨0x08 + e.cluster, e.cw.lane, e.cw.frame, e.cw.index, j, e.data / 2 ^ (480 * j) % 2 ^ 480⟩)

/-- EMIT_DONE of cluster Dn: the words of the emission enter S-DX. Those that find no space wait for it, and with the
eighth word the port is free and the engine IDLE (R37, R222, R332). -/
def execEmitDone (n : Lane) (s : State) : Out :=
  .next (match s.ports.find? (fun p => p.cluster = n.val) with
    | none => s
    | some e =>
      let room := s.straitRoom (0x08 + n)
      let t := s.straitPut (0x08 + n) e.words
      if e.sent + room < 8 then
        { t with ports := t.ports.map (fun p => if p = e then { e with sent := e.sent + room } else p) }
      else
        let t := { t with ports := t.ports.erase e }
        if e.eng < 128 then ({ t with work := t.work.filter (fun w => w.eng ≠ e.eng) } : State).setEng e.eng 0 else t)

/-- Each lane whose PROFILE_SET contains Espresso or Lungo and that has fewer than 8 home engines is HOME_LOW (R243). -/
def State.homeLow (s : State) (lanes : List Nat) : State :=
  s.each lanes (fun v t =>
    let n := ((List.range 128).filter (fun e => t.engHome e = (v, false) && !t.on .arcEngBad 0 e)).length
    let low := decide (2 ≤ (t.groupOf v).profiles % 8) && decide (n < 8)
    (t.wrb .arcClHomeLow low v).when low (fun u => u.raise .arcIntStatus Irq.arcHomeLow))

/-- Engine `e` gives back the task that it runs, which waits again unstarved, and if `all` the tasks that preempt on it
too (R245, R246). -/
def BgTask.giveBack (e : Nat) (all : Bool) (b : BgTask) : BgTask :=
  if b.server = some e ∧ b.run then { b with server := none, hold := none, run := false, starved := false }
  else if b.server = some e ∧ all then { b with server := none, hold := none }
  else b

/-- An engine is FAILED until device reset; what it held is lost to R238. Tasks that name it end, and a histogram that it
gathered or was to gather waits again (R243). -/
def State.engFail (s : State) (e : Nat) : State :=
  let s := { s with
    work := s.work.filter (fun w => w.eng ≠ e), emits := s.emits.filter (fun x => x.eng ≠ e),
    ports := s.ports.filter (fun x => x.eng ≠ e), asks := s.asks.filter (fun a => a.1 ≠ e),
    bg := (s.bg.filter (fun (b : BgTask) => !(b.kind ≤ 1 && b.eng == e))).map (fun (b : BgTask) =>
      let b := b.giveBack e true
      if b.hold = some e then { b with hold := none } else b) }
  let s := ((s.wr .arcEngBad 1 0 e).wr .arcEngRun 0 0 e).raise .arcIntStatus Irq.arcEngFail
  s.homeLow (List.range 8)

/-- ENGINE_DEADLINE_FAIL: the last S-DX word is not written 12.000 ns after DEADLINE; suspended while XBAR is stopped (R243,
R332). -/
def execEngineDeadlineFail (e : Fin 128) (phase : Int) (s : State) : Out :=
  .next (match s.workOf e with
    | some w =>
      if s.on .glbXbarRun ∧ notBefore (16 * (w.cw.deadline + 2720)) (s.compAtc phase) then s.engFail e else s
    | none => s)

/-- The codeword of an engine ends as EXP_RUN before its time with the hard decisions given; one that already waits for
the port or is being emitted goes on without the engine (R242, R244). -/
def State.engAbandon (s : State) (e : Nat) (hard : EngWork → List Nat) : State :=
  let free (x : Emission) : Emission := if x.eng = e then { x with eng := 128 } else x
  match s.workOf e with
  | some w =>
    let s := { s with work := s.work.filter (fun x => x.eng ≠ e) }
    if w.stage = .waitPort ∨ w.stage = .emit then { s with emits := s.emits.map free, ports := s.ports.map free }
    else (s.cwEnd (e / 16) w.cw .expRun).sendHard (e / 16) 128 false w.cw (hard w)
  | none => s

/-- MICROCODE_ECC_ERROR: single errors are counted; a double error ends the codeword with its input hard decisions and
refreshes the store, and the second one fails the engine. A histogram that the engine gathered waits again; one under test or
isolated fetches no microcode (R220, R243 to R245). -/
def execMicrocodeEccError (e : Fin 128) (double : Bool) (s : State) : Out :=
  let n : Nat := e
  .next (if 5 ≤ s.engState n then s
    else if !double then s.bump .arcEngEcc 0 n
    else
      let s := (s.raise .arcIntStatus Irq.arcEccDouble).engAbandon n (fun w => inputHard w.cw.llr)
      if s.on .arcEngEcc2 0 n then s.engFail n
      else
        let s := { s with bg := s.bg.map (fun (b : BgTask) => if b.kind = 2 then b.giveBack n false else b) }
        ((s.wr .arcEngEcc2 1 0 n).setEng n 4).wr .arcEngRun 1 0 n)

/-! ## Release (R237, R238, R273) -/

/-- RELEASE_BUFFER_WRITE of cluster Dn: XBAR takes the next word of S-DX, removes the scrambler sequence and writes the
word into the slot of its codeword; payload for a codeword already released is discarded and counted at its last word
(R36, R194, R237, R238, R332). -/
def execReleaseBufferWrite (n : Lane) (s : State) : Out :=
  .next (match s.straitHead (0x08 + n) with
    | none => s
    | some w =>
      if !s.on .glbXbarRun then s
      else
        let s := { s with straits := s.straits.erase w }
        let here (r : RelSlot) : Bool := r.lane == w.lane && r.frame == w.frame && r.index == w.index
        let data (r : RelSlot) : Nat := if r.profile = 3 then w.data else scrambleWord w.index w.word w.data
        if s.slots.any here then
          { s with slots := s.slots.map (fun r =>
            if here r then { r with words := r.words + 1, data := r.data + data r * 2 ^ (480 * w.word) } else r) }
        else if w.word = 7 then (s.bump .arcClRbLateCnt w.lane).raise .arcClIntStatus Irq.arcClRbLate w.lane
        else s)

/-- An AM period of the released stream of an Ethernet lane ends: lock after two matches at one place, which gives the
symbol the distribution counts from, and loss after four periods without one (R270, R273). -/
def State.ingressAm (s : State) (n : Nat) (a : AmSeen) : State :=
  let found := decide (a.errBits ≤ s.rd .hifAmTol)
  if s.transparent n then s
  else if !s.on .hifGlbPairAmLockIng 0 n then
    let k := if found then (if a.samePos && s.on .hifIngMatch 0 n then 2 else 1) else 0
    let s := s.when (k == 1) (fun t => t.wr .hifIngPos a.place 0 n)
    if k = 2 then ((s.wr .hifGlbPairAmLockIng 1 0 n).wr .hifIngMatch 0 0 n).wr .hifIngMiss 0 0 n else s.wr .hifIngMatch k 0 n
  else if found && a.samePos then s.wr .hifIngMiss 0 0 n
  else if s.rd .hifIngMiss 0 n < 3 then s.wr .hifIngMiss (s.rd .hifIngMiss 0 n + 1) 0 n
  else s.ingressUnlock n

/-- The gearbox deals a released payload out: 10-bit symbols in turn to A and B, from the first symbol of the first AM in an
Ethernet pair and from the payload's start in a transparent one; all of it to a single lane (R273, R275). -/
def State.dealOut (s : State) (n payload : Nat) : State :=
  let place := if s.transparent n then 0 else s.rd .hifIngPos 0 n
  let w := (20 - place) % 20
  let ab := deal 192 (s.rd .arcClOut n / 2 ^ (3840 - w) + payload * 2 ^ w)
  let ab := if (s.activeHosts n).length < 2 then (payload, 0) else ab
  (s.setLd n { s.ld n with toA := ab.1, toB := ab.2 }).wr .arcClOut payload n

/-- CODEWORD_RELEASE: at UI `ui` of the lane's own count the codeword due is released, with zeros in place of an incomplete
payload; `am` tells of an AM period that ends in it (R48, R216, R237, R238, R273). -/
def execCodewordRelease (n : Lane) (ui : BitVec 24) (am : Option AmSeen) (s : State) : Out :=
  .next (match s.slots.find? (fun r => r.lane = n.val ∧ r.due = ui.toNat) with
    | none => s
    | some r =>
      if !s.on .glbXbarRun then s
      else
        let s := { s with slots := s.slots.erase r }
        let full := decide (r.words = 8)
        let s := s.when (!full) (fun t => ((t.bump .arcClRbMissCnt n).raise .arcClIntStatus Irq.arcClRbMiss n).faultEvent 6 n)
        let s := s.dealOut n (if full then r.data else 0)
        let s := match am with
          | some a => s.ingressAm n a
          | none => s
        let s := s.when (!(s.rd .imgState == 5 && s.maskBit .imgPcP n && !s.maskBit .imgPcPEnd n)) (fun t => t.wr
          .lfrGapOn 0 n)
        if r.profile = s.rd .lfrProfActive n then (s.wr .lrxReleased 1 n).profReleased n else s)

/-! ## Background work (R245, R246) -/

/-- The engine that a starved task preempts: the one it names, unless that one is held to decoding, or for histogram
gathering the cluster's highest-numbered non-reserve engine (R246). -/
def State.serverFor (s : State) (b : BgTask) : Option Nat :=
  if b.kind ≤ 1 then (if s.engHeld b.eng then none else some b.eng)
  else ((clusterEngines b.cluster).filter (fun e => !(s.engHome e).2 && decide (s.engState e ≤ 4))).getLast?

/-- STARVE_PREEMPT of a task: its server finishes, takes no new work and runs it while an idle-reserve engine is held to
decoding; a held engine is not preempted itself. Without both the task waits, blocked where a reserve engine is missing (R246). -/
def State.starve (s : State) (b : BgTask) : State :=
  let put (x : BgTask) : State := { s with bg := s.bg.map (fun y => if y = b then x else y) }
  match s.reserveFor b, s.serverFor b with
  | some r, some v =>
    ((put { b with starved := true, server := some v, hold := some r }).bump .arcClPreempt b.cluster).raise .hltIntStatus
      Irq.hltStarve
  | none, _ => (put { b with starved := true }).when (!s.starveBlocked b.cluster)
      (fun t => t.raise .arcClIntStatus Irq.arcClStarveBlocked b.cluster)
  | some _, none => put { b with starved := true }

/-- The tasks that wait with an age at the limit preempt in their order, at most `k` of them (R246). -/
def State.starveAll (s : State) (limit : Nat) : Nat → State
  | 0 => s
  | k + 1 =>
    match bgFirst (s.bg.filter (fun b => b.server.isNone && decide (limit ≤ b.age) &&
      !(b.starved && ((s.reserveFor b).isNone || (s.serverFor b).isNone)))) with
    | some b => (s.starve b).starveAll limit k
    | none => s

/-- One health window over the background tasks: those that no engine runs age by one, and those whose age reaches the limit
preempt (R246, R425). -/
def State.bgAge (s : State) : State :=
  let s := { s with bg := s.bg.map (fun (b : BgTask) => if b.run then b else { b with age := min 255 (b.age + 1) }) }
  s.starveAll (s.rd .hltStarveLimit) s.bg.length

/-- A task that an engine has run leaves the list, and with it the hold on a reserve engine, for which the next starved task may
wait (R246). -/
def State.bgDone (s : State) (e : Nat) : State :=
  let s := { s with bg := s.bg.filter (fun b => !(b.server == some e && b.run)) }
  let s := (s.setEng e 0).wr .arcEngRun 0 0 e
  s.starveAll (s.rd .hltStarveLimit) s.bg.length

/-- BG_TASK_DUE: a refresh of an engine or the histogram gathering of its cluster falls due (R245). -/
def execBgTaskDue (e : Fin 128) (refresh : Bool) (s : State) : Out :=
  let n : Nat := e
  let kind := if refresh then 1 else 2
  .next (if !s.maskBit .glbDecodeRun (n / 16) ∨ (refresh ∧ s.engState n = 7) ∨
      s.bg.any (fun b => b.cluster == n / 16 && b.kind == kind && (!refresh || b.eng == n)) then s
    else { s with bg := s.bg ++ [⟨n / 16, kind, if refresh then n else 0, 0, false, none, none, false⟩] })


/-- ENGINE_REFRESH_DONE: the engine's store holds its cluster's program again (R244, R245). -/
def execEngineRefreshDone (e : Fin 128) (s : State) : Out :=
  .next (if s.engState e = 4 ∧ s.rd .arcEngRun 0 e = 1 then (s.loadStores [e]).bgDone e else s)

/-- HIST_GATHER_DONE: the tallies of the cluster go to the lane histograms (R245). -/
def execHistGatherDone (e : Fin 128) (s : State) : Out :=
  let c := e.val / 16
  .next (if s.engState e = 4 ∧ s.rd .arcEngRun 0 e = 2 then
    let s := s.each (List.range 128) (fun k t =>
      (t.bump .arcClHist (k / 16) (k % 16) (t.rd .arcTally c k)).wr .arcTally 0 c k)
    s.bgDone e
  else s)

/-! ## Clears (R249) -/

/-- Counters of a cluster with its lane; the histogram and Q_FULL and Q_HWM clear with them. -/
def State.arcClClear (s : State) (c : Nat) : State :=
  let s := s.clear [.arcClDecodedCnt, .arcClUncorrCnt, .arcClExpRunCnt, .arcClExpQCnt, .arcClStolenOutCnt,
    .arcClStolenInCnt, .arcClRaceLostCnt, .arcClRbMissCnt, .arcClRbLateCnt, .arcClCorrBitsCnt, .arcClIterSumCnt,
    .arcClPreempt, .arcClQFull, .arcClQHwm] c
  s.each (List.range 16) (fun i t => t.wr .arcClHist 0 c i)

/-- ARC_CL_CNT_CLR (R249). -/
def execArcClCntClr (n : Lane) (s : State) : Out := .next (s.access .arcCl n (fun t => t.arcClClear n))

/-- ARC_CNT_CLR (R249). -/
def execArcCntClr (s : State) : Out :=
  .next (s.access .arc 0 (fun t => (t.each (List.range 8) (fun c u => u.arcClClear c)).each (List.range 128)
    (fun e u => u.wr .arcEngEcc 0 0 e)))

end Sys2Proof.Machine
end

