-- ==== Sys2Proof/Machine/Icris.lean ====
section
/-!
DEFINITION. The Icris time subsystem: the time of day, timestamps, the latency ledger, the exchange, dispersion ranging,
the time DPLL and its pins (R285 to R318).
-/
namespace Sys2Proof.Machine

/-! ## Time of day (R285, R286) -/

/-- Put the TOD at a number of 2^-40 ns; SEC wraps at 48 bits. -/
def State.setTodFull (s : State) (v : Int) : State :=
  let w := (v % (2 ^ 48 * 1000000000 * 2 ^ 40 : Nat)).toNat
  s.puts [(.timTodNow, w / 2 ^ 24), (.timTodLow, w % 2 ^ 24)]

/-- TIM_TOD_ADJ in 2^-16 ns. -/
def State.todAdj (s : State) : Int := s.rdInt .timAdjNs * 65536 + s.rd .timAdjFrac

/-- A slew ends; what it had still to absorb is discarded (R286). -/
def State.slewCancel (s : State) : State :=
  if s.on .timSlewing then (s.puts [(.timSlewing, 0), (.timSlewLeft, 0)]).todDisc else s

/-- An operation of TIM_TOD_CMD has completed. -/
def State.todDone (s : State) : State := (s.puts [(.timTodGo, 0), (.timTodArm, 0)]).raise .timIntStatus Irq.timTodDone

/-- A discontinuity of `d` units of 2^-40 ns: the jump is kept apart from the captures, TOD_STEPS counts (R286, R290,
R317). -/
def State.todJump (s : State) (d : Int) : State :=
  let old := s.rdInt .timJump
  let s := ((s.wrInt .timJumpAt (s.todFull - old)).wrInt .timJumpOld old).wrInt .timJump (old + d)
  ((s.setTodFull (s.todFull + d)).bump .timTodStepsCnt).todDisc

/-- A set: the TOD is valid, a slew ends (R285, R286). -/
def State.todSetTo (s : State) (v : Int) : State :=
  let s := s.slewCancel
  (s.todJump (v - s.todFull)).wr .timTodValid 1

/-- A step of the TOD by 2^-16 ns units (R286, R313). -/
def State.todStepBy (s : State) (d : Int) : State := s.todJump (d * 2 ^ 24)

/-- A TIME clock cycle without a command: 2 ns pass, and the TOD takes its increment, which a slew changes, or the value of a
SET_NOW (R285, R286; log entries 1 and 9). -/
def State.tick (s : State) : State :=
  let s := { s with now := s.now + 1 }
  if !s.on .pwrDomTime then s
  else if s.on .timTodPend then
    ((s.wr .timTodPend 0).todSetTo (unpackTime (s.rd .timTodSet) * 2 ^ 24)).todDone
  else if s.on .timSlewing then
    let left := s.rdInt .timSlewLeft
    let part := 2 ^ 41 * s.rd .timSlewPpm
    let bump := part / 1000000 + (if part % 1000000 = 0 then 0 else s.free.1 % 2)
    let s := if part % 1000000 = 0 then s else s.free.2
    let d : Int := clampInt (-(bump : Int)) bump left
    (s.setTodFull (s.todFull + 2 ^ 41 + d)).wrInt .timSlewLeft (left - d)
  else s.setTodFull (s.todFull + 2 ^ 41)

/-- TOD_SET_NOW: a slew is cancelled, and the TOD takes the value at the next TIME cycle (R286). -/
def execTodSetNow (s : State) : Out :=
  .next (s.access .tim 0 (fun s => s.slewCancel.puts [(.timTodPend, 1), (.timTodArm, 0), (.timTodGo, 1)]))

/-- TOD_SET_AT_TIME_IN: a slew is cancelled, and the set waits for the next valid edge (R286). -/
def execTodSetAtTimeIn (s : State) : Out :=
  .next (s.access .tim 0 (fun s => s.slewCancel.puts [(.timTodArm, 1), (.timTodGo, 1)]))

/-- TOD_SET_TIMEOUT (R286). -/
def execTodSetTimeout (s : State) : Out :=
  .next (if s.on .timTodArm then (s.puts [(.timTodArm, 0), (.timTodGo, 0)]).raise .timIntStatus Irq.timSetFail else s)

/-- STEP and SLEW act only in sources FREE and HOST, else ADJ_REFUSED (R286). -/
def State.adjust (s : State) (g : State → State) : State :=
  if s.rd .timDpllSrc ≤ 1 then g s else (s.wr .timTodGo 0).raise .timIntStatus Irq.timAdjRefused

/-- TOD_STEP (R286). -/
def execTodStep (s : State) : Out :=
  .next (s.access .tim 0 (fun s => s.adjust (fun s => (s.todStepBy s.todAdj).todDone)))

/-- TOD_SLEW (R286). -/
def execTodSlew (s : State) : Out :=
  .next (s.access .tim 0 (fun s => s.adjust (fun s =>
    ((s.puts [(.timSlewing, 1), (.timTodGo, 1), (.timTodArm, 0)]).wrInt .timSlewLeft (s.todAdj * 2 ^ 24)).todDisc)))

/-- TOD_SLEW_DONE: what the slew had still to absorb is in the TOD (R286). -/
def execTodSlewDone (s : State) : Out :=
  .next (if s.on .timSlewing then
    ((((s.setTodFull (s.todFull + s.rdInt .timSlewLeft)).puts [(.timSlewing, 0), (.timSlewLeft, 0)]).todDisc)).todDone
  else s)

/-! ## Timestamps (R288 to R292) -/

/-- Island of a timestamp point: lane islands 0 to 7, host islands 8 to 11. -/
def pointIsland (kind index : Nat) : Nat := if kind < 2 then index % 8 else 8 + index / 4

/-- PLL that serves an island. -/
def islandPll (i : Nat) : Nat := if i < 8 then linePll i else hostPll (4 * (i - 8))

/-- Number of a point: LRX 0 to 7, LTX 8 to 15, HRX 16 to 31, HTX 32 to 47. -/
def pointOfKind (kind index : Nat) : Nat :=
  if kind = 0 then index % 8 else if kind = 1 then 8 + index % 8 else if kind = 2 then 16 + index else 32 + index

/-- The conditions of R288 under which a point produces timestamps, with timestamping enabled. -/
def State.pointOn (s : State) (kind index : Nat) : Bool :=
  let ether (n : Nat) : Bool := !s.transparent n
  let compatOk (n : Nat) : Bool := s.rd .lfrGroupMode n != 2 || ether n
  s.on .timTsEn && s.on .pwrDomTime && match kind with
  | 0 => s.on .lfrFrameLock index && compatOk index
  | 1 => s.rd .ltxState index == 4 && !s.on .ltxSleep index && compatOk index
  | 2 => s.on .hifAmLock index && ((s.lineOf index).map ether).getD true
  | _ => match s.lineOf index with
    | some n => s.on .hifGlbPairAmLockIng 0 n && ether n
    | none => false

/-- D_point: the factory constant and the drift correction in use (R291). -/
def State.dPoint (s : State) (p : Nat) : Int := s.rdInt .timDFact 0 p + s.rdInt .timDUse 0 p

/-- The measured frequency offset of the point's lane, Q16.8 ppm; a transmit point runs at the frequency that drives its phase
interpolator (R259, R289; DEDUCED, log entry 71). -/
def State.pointFreq (s : State) (kind index : Nat) : Int :=
  match kind with
  | 0 => s.rdInt .lrxCdrFreq index
  | 1 => s.lineTxFreq index
  | 2 => s.rdInt .hifCdrFreq index
  | _ => s.hostTxFreq index

/-- Correction of the interpolator step that phase word `p` falls in, 2^-16 ns (R291; its form is log entry 71). -/
def State.linAt (s : State) (point p : Nat) : Int := signedOf 16 (s.rd .timLinUse 0 point / 2 ^ (16 * (p / 1024)) % 65536)

/-- The time of a report in 2^-16 ns of the TOD without its jumps (R289): captured time interpolated to the cycle, symbol and
phase at the scaled UI, less or plus D_point (R290, R291). -/
def State.pointSteady (s : State) (kind index cycle symbol phase : Nat) : Frac :=
  let i := pointIsland kind index
  let c0 := s.rd .timCapC i 0
  let dc := s.rd .timCapC i 1 - c0
  let t0 := s.rdInt .timCapT i 0
  let dt := s.rdInt .timCapT i 1 - t0
  let ref : Frac := (Frac.of t0).add (Frac.of (((cycle : Int) - c0) * dt) dc)
  let ref := ref.scale 1 (2000 * 2 ^ 24)
  let ui : Frac := if kind < 2 then ⟨3, 680⟩ else ⟨4, 425⟩
  let off := ((ui.scale (65536 * symbol + phase)).scale 256000000).scale 1
    (256000000 + s.pointFreq kind index).toNat
  let p := pointOfKind kind index
  let d := s.dPoint p
  (ref.add off).add (Frac.of (s.linAt p phase + (if kind = 0 ∨ kind = 2 then -d else d)))

/-- A time `t` of the TOD without its jumps lies no later than the cycle of the last jump, which counts from the next one (R317). -/
def State.beforeJump (s : State) (t : Frac) : Bool := decide (t.round * 2 ^ 24 < s.rdInt .timJumpAt + 2 ^ 41)

/-- The timestamp of a report in 2^-16 ns, rounded to the nearest unit (R289, R317). -/
def State.pointTime (s : State) (kind index cycle symbol phase : Nat) : Int :=
  let t := s.pointSteady kind index cycle symbol phase
  (t.add (Frac.of (if s.beforeJump t then s.rdInt .timJumpOld else s.rdInt .timJump) (2 ^ 24))).round

/-- A selected point goes to the timestamp FIFO, one event in 2^DECIM (R292). -/
def State.tsfPut (s : State) (kind index line time frame : Nat) : State :=
  if !(s.maskBit .timTsfKinds kind && (kind == 4 || s.maskBit .timTsfLanes line)) then s
  else
    let at_ := 16 * kind + index
    let k := s.rd .timTsfTick 0 at_ + 1
    if k < 2 ^ s.rd .timTsfDecim then s.wr .timTsfTick k 0 at_
    else
      let s := s.wr .timTsfTick 0 0 at_
      if 128 ≤ s.tsf.length then
        ((s.wr .timTsfLost 1).bump .timTsfOvfCnt).raise .timIntStatus Irq.timTsfOvf
      else
        let e : TsfEntry := ⟨kind, index, s.on .timTsfLost, s.on .timSuspect, time, frame⟩
        let s := { s with tsf := s.tsf ++ [e] }
        let s := s.puts [(.timTsfLost, 0), (.timTsfLevel, s.tsf.length)]
        s.when (s.tsf.length == 64) (fun t => t.raise .timIntStatus Irq.timTsfHalf)

/-- The departure of the record `seq` is now known, with the suspect mark of its timestamp (R305, R306, R316). -/
def setDeparture (seq t : Nat) (sus : Bool) (l : List Initiation) : List Initiation :=
  l.map (fun i => if i.seq = seq then { i with dep := some t, suspect := sus } else i)

/-- An LRX point, `age` TIME cycles after the last SYNC, is the first at least 1.000 ms after it (R306). -/
def State.selectsRx (s : State) (n age : Nat) : Bool :=
  decide (500000 ≤ age ∧ (s.rd .timLnSyncAge n < 500000 ∨ age < s.rd .timLnSyncAge n))

/-- An LRX timestamp: its registers, PERIOD_SHORT, and the point that a version 1 record selects; `broken` where a jump of the TOD
has followed it (R292, R306, R316 to R318). -/
def State.stampRx (s : State) (n t ordinal age : Nat) (broken : Bool) : State :=
  let sus := bit (s.on .timSuspect)
  let last := unpackTime (s.rd .timLnTsLrx n)
  let s := s.when (s.rd .lfrGroupMode n == 2) (fun u => u.wrb .timLnPeriodShort (decide (t - last < 20000 * 65536)) n)
  let s := s.puts [(.timLnTsLrx, packTime t), (.timLnRxFrame, ordinal), (.timLnRxFresh, 1), (.timLnSusRx, sus),
    (.timLnDiscRx, bit broken)] n
  let s := s.when (s.rd .lfrGroupMode n == 2 && s.selectsRx n age) (fun u => u.puts [(.timLnV1Arr, t), (.timLnV1Fresh, 1),
    (.timLnV1Sus, sus), (.timLnDiscV1, bit broken)] n)
  (s.wr .timLnSyncAge age n).tsfPut 0 n n t ordinal

/-- An LTX timestamp, at `steady` without the jumps of the TOD: its registers, and the departure of the version 1 record that
waits for its point (R292, R306, R316 to R318). -/
def State.stampTx (s : State) (n t ordinal : Nat) (steady : Int) (broken : Bool) : State :=
  let sus := s.on .timSuspect
  let s := s.puts [(.timLnTsLtx, packTime t), (.timLnTxFrame, ordinal), (.timLnTxFresh, 1), (.timLnSusTx, bit sus),
    (.timLnDiscTx, bit broken)] n
  let s := s.when (s.on .timLnSelOn n && decide (s.rdInt .timLnSelAt n ≤ steady)) (fun u =>
    (u.setEx n { u.ex n with out := setDeparture (u.ex n).seq t sus (u.ex n).out }).puts
      [(.timLnSelOn, 0), (.timLnDepPrev, t), (.timLnDepSus, bit sus)] n)
  s.tsfPut 1 n n t ordinal

/-- A timestamp is ready: the registers of its point and the FIFO (R292, R316, R318). -/
def State.stamp (s : State) (r : PointReport) (index t : Nat) (steady : Frac) : State :=
  let sus := bit (s.on .timSuspect)
  let broken := s.beforeJump steady
  let s := s.when (s.on .timSuspect) (fun u => u.bump .timTsSuspectCnt)
  let ordinal := r.ordinal.toNat
  match (r.kind : Nat) with
  | 0 => s.stampRx index t ordinal r.sync.toNat broken
  | 1 => s.stampTx index t ordinal steady.round broken
  | 2 => (s.puts [(.timHostTsHrx, packTime t), (.timHostSuspect, sus)] index).tsfPut 2 index
      ((s.lineOf index).getD 0) t ordinal
  | _ => (s.puts [(.timHostTsHtx, packTime t), (.timHostSuspect, sus)] index).tsfPut 3 index
      ((s.lineOf index).getD 0) t ordinal

/-- TIMESTAMP_EVENT: a report is lost at a full strait, unused while its point or its capture source is off, else it
becomes a timestamp. The line through the last two captures serves for a cycle after them too, since R300 leaves 100 ns
(R288 to R290; DESIGN CHOICE, log entry 71). -/
def execTimestampEvent (r : PointReport) (s : State) : Out :=
  let k : Nat := r.kind
  let i := if k < 2 then (r.index : Nat) % 8 else r.index
  let isl := pointIsland k i
  .next (if !s.pointOn k i then s
    else if r.full then s.straitLoss (if k < 2 then 0x28 + i else 0x30 + i / 4) 0 1
    else if s.on .timCapNeed isl ∨ s.rd .timCapC isl 1 ≤ s.rd .timCapC isl 0 then s
    else
      let t := s.pointTime k i r.cycle.toNat r.symbol.toNat r.phase.toNat
      s.stamp r i (t % (2 ^ 112 : Nat)).toNat (s.pointSteady k i r.cycle.toNat r.symbol.toNat r.phase.toNat))

/-- CROSS_CAPTURE: an island's reference-cycle count with the interval from its edge to the TIME edge in 0.5 ps; none
while the serving PLL has lost lock or is calibrated (R290). -/
def execCrossCapture (island : Fin 12) (count : BitVec 64) (interval : BitVec 12) (s : State) : Out :=
  let i : Nat := island
  .next (if s.on .pwrDomTime ∧ s.pllRuns (islandPll i) then
    let s := (s.wr .timCapC (s.rd .timCapC i 1) i 0).wr .timCapT (s.rd .timCapT i 1) i 0
    let s := s.wr .timCapC count.toNat i 1
    let s := s.wrInt .timCapT ((s.todFull - s.rdInt .timJump) * 2000 - interval.toNat * 2 ^ 40) i 1
    s.wr .timCapNeed (s.rd .timCapNeed i - 1) i
  else s)

/-- DRIFT_MONITOR: the change of a point's path since the factory measurement, in 2^-16 ns, and the calibrated delay of
its analog stage; the correction waits for the boundary (R291, R294). -/
def execDriftMonitor (point : Fin 48) (delta : Int) (ana : BitVec 16) (s : State) : Out :=
  let p : Nat := point
  .next (if s.on .pwrDomTime then
    let s := ((s.wrInt .timDNew delta 0 p).wr .timDPend 1 0 p).wr .timAna ana.toNat 0 p
    s.when (decide (p < 8)) (fun t => t.puts [(.timDriftSeen, 1), (.timDriftWait, 0)] p)
  else s)

/-- TSF_READ: the oldest entry moves into the data registers, or NOT_VALID (R292, R318). -/
def execTsfRead (s : State) : Out :=
  .next (s.access .tim 0 (fun s => match s.tsf with
    | [] => s.wr .timTsfNotValid 1
    | e :: l => ({ s with tsf := l } : State).puts [(.timTsfNotValid, 0), (.timTsfKind, e.kind), (.timTsfIndex, e.index),
        (.timTsfLostBefore, bit e.lost), (.timTsfSuspect, bit e.suspect), (.timTsfTs, packTime e.time),
        (.timTsfFrame, e.frame), (.timTsfLevel, l.length)]))

/-- TSF_FLUSH (R318). -/
def execTsfFlush (s : State) : Out :=
  .next (s.access .tim 0 (fun s => ({ s with tsf := [] } : State).wr .timTsfLevel 0))

/-- TIM_CNT_CLR (R318). -/
def execTimCntClr (s : State) : Out :=
  .next (s.access .tim 0 (fun s => s.clear [.timTsLostCnt, .timInGlitchCnt, .timTsSuspectCnt, .timTsfOvfCnt,
    .timTodStepsCnt]))

/-- TIM_LN_CNT_CLR (R318). -/
def execTimLnCntClr (n : Lane) (s : State) : Out :=
  .next (s.access .timLn n (fun s => s.clear [.timLnExchOkCnt, .timLnExchMissCnt, .timLnExchRejectCnt,
    .timLnExchSuspectCnt, .timLnRegionLateCnt] n))

/-! ## Latency ledger (R294 to R298) -/

/-- Digital stages of the ingress path in 1/3,400 ns: UI 15, lane cycle 2,400, host cycle 4,096 (R49, R237, R298). -/
def ingressStages (prof : Nat) : Nat :=
  match prof with
  | 0 => 170 * 2400 + (2048 + 5033) * 15 + 32 * 4096
  | 1 => 170 * 2400 + (2048 + 79833) * 15 + 32 * 4096
  | 2 => 170 * 2400 + (2048 + 165966) * 15 + 32 * 4096
  | _ => 172 * 2400 + 61440 + 64 * 2400 + 32 * 4096

/-- Digital stages of the egress path in 1/3,400 ns (R53, R298). -/
def egressStages (compat : Bool) : Nat := 12 * 4096 + 23654 * 15 + (if compat then 48 else 44) * 2400

/-- A latency in 1/65,536 ns, truncated: the stages scaled by a frequency offset (Q16.8 ppm), and the analog delay in
quarter ps (R294, R295). -/
def latencyOf (stages : Nat) (freq : Int) (ana : Nat) : Nat :=
  let f := (256000000 + freq).toNat
  65536 * (stages * 256000000 * 4000 + ana * 3400 * f) / (3400 * f * 4000)

/-- DRIFT_VALID: a measurement has followed the last CAL of every lane that went through one (R291). -/
def State.driftValid (s : State) : Bool :=
  (List.range 8).any (fun k => s.on .timDriftSeen k) && (List.range 8).all (fun k => !s.on .timDriftWait k)

/-- The ledger condition of a lane (R120, R295). -/
def State.ingValid (s : State) (n : Nat) : Bool :=
  (s.rd .lrxState n == 4 || s.rd .lrxState n == 5) && !s.on .lrxProfApply n && s.on .timCalValid &&
    s.driftValid && (s.activeHosts n).all (fun h => s.on .hifTxReady h)

/-- LEDGER_PUBLISH: a line lane with one host lane in use has no pair skew (R263, R294 to R296, R298, R316). -/
def execLedgerPublish (n : Lane) (s : State) : Out :=
  let compat := s.rd .lfrGroupMode n = 2
  let ing := s.ingValid n
  let egr := ing && s.on .hifGlbPairReady 0 n
  let paused := (s.maskBit .imgPcP n && !s.maskBit .imgPcPEnd n) || (s.maskBit .imgPcQ n && !s.maskBit .imgPcQEnd n)
  let fill := s.on .lfrFillRx n
  let trans := s.on .lfrDiscLeft n && s.on .lfrDiscCnt n
  let sleep := s.dirAsleep n false || s.dirAsleep n true
  let prof := if compat then 3 else if s.on .lfrAwaitRel n then s.rd .lfrSwOld n else s.rd .lfrProfActive n
  let flags := bit ing + 2 * bit egr + 4 * bit paused + 8 * bit fill + 16 * bit trans + 32 * bit (s.on .timSuspect) +
    64 * bit compat + 128 * bit sleep
  .next (if s.on .pwrDomTime then
    let fell := (s.rd .timLnLedFlags n).testBit 0 && !ing && s.rd .lrxState n == 5
    let s := s.when fell (fun t => t.raise .timIntStatus Irq.timLedgerInvalid)
    let s := s.wr .timLnLedFlags flags n
    if paused ∨ fill ∨ sleep then s
    else
      let later := s.laterHost n
      let lrx := s.rd .timAna 0 n
      let htx := ((s.activeHosts n).head?.map (fun h => s.rd .timAna 0 (32 + h))).getD 0
      let hrx := (later.map (fun h => s.rd .timAna 0 (16 + h))).getD 0
      let ltx := s.rd .timAna 0 (8 + n)
      let hostFreq := s.lineTxFreq n
      let skew := if (s.activeHosts n).length < 2 then 0 else Int.tdiv (s.rdInt .hifGlbPairSkew 0 n * 80) 17
      let s := s.puts [(.timLnLrxAfe, lrx), (.timLnHtxDrv, htx), (.timLnHrxAfe, hrx), (.timLnLtxDrv, ltx),
        (.timLnIngLat, latencyOf (ingressStages prof) (s.rdInt .lrxCdrFreq n) (lrx + htx)),
        (.timLnEgrLat, latencyOf (egressStages compat) hostFreq (hrx + ltx)), (.timLnLedProfile, prof)] n
      s.wrInt .timLnEgrSkew skew n
  else s)

/-! ## Exchange (R299 to R307) -/

/-- A time in 2^-16 ns as FRAC, NS and SEC, low byte first (R299). -/
def timeBytes (t : Nat) : Nat :=
  t % 65536 + 65536 * (t / 65536 % 1000000000) + 2 ^ 48 * (t / 65536 / 1000000000 % 2 ^ 48)

/-- The Icris region of a frame (R299, R300): an initiation where one is due, and an echo where a partner initiation
arrived at least 50 ns before this frame's marker departs. A marker that left no timestamp leaves the region late (R290, R300;
DEDUCED, log entry 71). -/
def State.regionV2 (s : State) (n : Nat) (late : Bool) : State :=
  let e := s.ex n
  let dep := unpackTime (s.rd .timLnTsLtx n)
  let late := late || !s.on .timLnTxFresh n
  let live := !late
  let sus := s.on .timLnSusTx n
  let init := live && e.due
  let echo := if live then e.echo.filter (fun c => decide (c.arr + 50 * 65536 ≤ dep)) else none
  let seq := (e.seq + 1) % 65536
  let disc := e.disc || s.on .timLnDiscTx n || (echo.map (fun c => c.disc)).getD false
  let flags := bit init + 2 * bit echo.isSome + 4 * bit sus +
    8 * bit ((echo.map (fun c => c.suspect)).getD false) + 16 * s.rd .timTodValid + 32 * bit disc
  let arr := (echo.map (fun c => c.arr)).getD 0
  let region := 2 + 2 ^ 8 * flags + 2 ^ 16 * (if init then seq else 0) + 2 ^ 32 * ((echo.map (fun c => c.seq)).getD 0) +
    2 ^ 48 * timeBytes dep + 2 ^ 144 * timeBytes arr + 2 ^ 240 * s.rd .timLnOptTx n + 2 ^ 256 * s.rd .timLnOptRx n +
    2 ^ 272 * (s.rd .secUid % 2 ^ 32) + 2 ^ 304 * n + 2 ^ 312 * s.rd .timLnRateExp n
  let out : List Initiation := if init then e.out ++ [⟨seq, some dep, sus, disc⟩] else e.out
  let s := s.setEx n { e with
    due := e.due && !init && !late
    seq := if init then seq else e.seq
    out := out
    echo := if echo.isSome then none else e.echo
    disc := e.disc && !init }
  (s.puts [(.timLnRegion, region), (.timLnTxFresh, 0)] n).when late (fun t => t.bump .timLnRegionLateCnt n)

/-- ICRIS_REGION_WRITE: nothing in OFF and WAIT, nor in version 1, whose record rides in the side-channel frames; a stopped LANEn
takes nothing over S-TL (R300, R304, R305, R332). -/
def execIcrisRegionWrite (n : Lane) (late : Bool) (s : State) : Out :=
  .next (if s.on .pwrDomTime ∧ 2 ≤ s.xState n ∧ s.icrisVer n = 2 then
    if !s.maskBit .glbLaneRun n then s.bump .timLnRegionLateCnt n else (s.regionV2 n late).outRegion n
  else s)

/-- ICRIS_INITIATE: the interval of R301 has passed; version 1 initiates with every record. -/
def execIcrisInitiate (n : Lane) (s : State) : Out :=
  .next (if 2 ≤ s.xState n ∧ s.icrisVer n = 2 then s.setEx n { s.ex n with due := true } else s)

/-- INITIATION_MISS (R301). -/
def execInitiationMiss (n : Lane) (seq : BitVec 16) (s : State) : Out :=
  let e := s.ex n
  .next (if e.out.any (fun i => i.seq = seq.toNat) then
    (s.setEx n { e with out := e.out.filter (fun i => i.seq ≠ seq.toNat) }).bump .timLnExchMissCnt n
  else s)

/-- EXCH_STALE (R304). -/
def execExchStale (n : Lane) (s : State) : Out :=
  .next (if s.xState n = 3 then (s.wr .timLnStale 1 n).raise .timIntStatus Irq.timExchStale else s)

/-- RESTART_AVG (R304). -/
def execRestartAvg (n : Lane) (s : State) : Out := .next (s.access .timLn n (fun s => s.exchClear n))

/-- Difference of two times, modulo 2^32 ns in version 1 (R307). -/
def timeDiff (v1 : Bool) (a b : Nat) : Int := if v1 then signedOf 48 (((a : Int) - b) % (2 ^ 48 : Nat)).toNat else (a :
  Int) - b

/-- RTT of a sample in 2^-16 ns (R302). -/
def Sample.rtt (x : Sample) : Frac :=
  (Frac.of x.d41).sub ((Frac.of (x.d32 * x.dt1)).div (Frac.of x.dt2))

/-- A of a sample in 2^-16 ns: half the difference of the optics sums (R302). -/
def Sample.optics (x : Sample) : Frac := Frac.of ((x.optF - x.optR) * 65536) 8000

/-- ASYM / 2 of a sample in 2^-16 ns. -/
def Sample.half (x : Sample) : Frac := Frac.of (x.asym * 65536) 2000

/-- D_TX of a sample (R302). -/
def Sample.dTx (x : Sample) : Frac := ((x.rtt.scale 1 2).add x.optics).add x.half

/-- D_RX of a sample (R302). -/
def Sample.dRx (x : Sample) : Frac := ((x.rtt.scale 1 2).sub x.optics).sub x.half

/-- OFFSET of a sample (R302). -/
def Sample.offset (x : Sample) : Frac := (Frac.of x.d21).sub x.dTx

/-- (r - 1) of a sample in 2^-12 ppb (R302). -/
def Sample.ratio (x : Sample) : Frac := (Frac.of ((x.dt2 - x.dt1) * 4096000000000)).div (Frac.of x.dt1)

/-- The accepted exchanges that the means of a lane take (R303). -/
def State.window (s : State) (n : Nat) : List Sample := (s.ex n).acc.take (2 ^ s.rd .timLnAvgSh n)

/-- The result registers of a lane: sliding means, rounded to their LSB (R303, R318). -/
def State.results (s : State) (n : Nat) : State :=
  let w := s.window n
  let put (s : State) (v : Int) (ns frac : Field) : State :=
    (s.wrInt ns (v / 65536) n).wr frac (v % 65536).toNat n
  let s := put s (Frac.mean (w.map Sample.dTx)).round .timLnDlyTxNs .timLnDlyTxFrac
  let s := put s (Frac.mean (w.map Sample.dRx)).round .timLnDlyRxNs .timLnDlyRxFrac
  let s := put s (Frac.mean (w.map Sample.offset)).round .timLnOffsetNs .timLnOffsetFrac
  s.wrInt .timLnRatio (Frac.mean (w.map Sample.ratio)).round n

/-! ## Dispersion ranging (R309 to R311) -/

/-- The ranging set, where ranging is enabled: lanes in RUN with a known wavelength whose partner reports a DEVICE_ID, that of
the lowest of them (R305, R309). -/
def State.rangeSet (s : State) : List Nat :=
  let c := (List.range 8).filter (fun n => s.on .timRngEn && s.xState n = 3 && s.on .timLnWl n && (s.ex n).partner.isSome)
  match c with
  | [] => []
  | a :: _ => c.filter (fun n => (s.ex n).partner = (s.ex a).partner)

/-- Group delay of a wavelength (0.01 nm) in ps per km (R310). -/
def State.tau (s : State) (wl : Nat) : Frac :=
  let l0 := s.rd .timLambda0
  Frac.of (s.rd .timS0 * (wl ^ 4 + l0 ^ 4)) (65536 * 8 * 10000 * wl ^ 2)

/-- Mean raw difference of a lane in a direction, in 2^-16 ns, referred to the instant `t0` of this TOD from the one at which the
partner read its clock, t1 + D_TX for t2 and t4 − D_RX for t3, less the optics constants (R302, R310). -/
def State.rawDiff (s : State) (n t0 : Nat) (forward : Bool) : Frac :=
  Frac.mean ((s.window n).map (fun x =>
    let read := if forward then (Frac.of (x.t1 : Nat)).add x.dTx else (Frac.of ((x.t1 : Int) + x.d41)).sub x.dRx
    let drift := ((Frac.of (t0 : Nat)).sub read).mul ((Frac.of (x.dt2 - x.dt1)).div (Frac.of x.dt1))
    if forward then ((Frac.of x.d21).add drift).sub (Frac.of (x.optF * 65536) 4000)
    else ((Frac.of x.d43).sub drift).sub (Frac.of (x.optR * 65536) 4000)))

/-- Slope of the least-squares fit of `y` against `x`: numerator and denominator (R310). -/
def fitSlope (xs ys : List Frac) : Frac × Frac :=
  let mx := Frac.mean xs
  let my := Frac.mean ys
  ((xs.zip ys).foldl (fun a p => a.add ((p.1.sub mx).mul (p.2.sub my))) ⟨0, 1⟩,
    xs.foldl (fun a p => a.add ((p.sub mx).mul (p.sub mx))) ⟨0, 1⟩)

/-- The set is usable: two lanes or more whose wavelengths span 10 nm (R309). -/
def State.rangeUsable (s : State) : Bool :=
  let wls := s.rangeSet.map (fun n => s.rd .timLnWl n)
  decide (2 ≤ s.rangeSet.length ∧ wls.foldl min (2 ^ 18) + 1000 ≤ wls.foldl max 0)

/-- Ranging over the present set (R309 to R311). -/
def State.ranging (s : State) : State :=
  let set := s.rangeSet
  let wls := set.map (fun n => s.rd .timLnWl n)
  let wMax := wls.foldl max 0
  let wMin := wls.foldl min (2 ^ 18)
  if !s.rangeUsable then s
  else
    let low := set.headD 0
    let t0 := ((s.window low).head?.map (fun x => x.t1)).getD 0
    let f := set.map (fun n => s.rawDiff n t0 true)
    let g := set.map (fun n => s.rawDiff n t0 false)
    let taus := wls.map s.tau
    let s := s.each (set.zip (f.zip g)) (fun p t =>
      let skew (a b : Frac) : Int := ((a.sub b).scale 16000 65536).round
      (t.wrInt .timLnSkewTx (skew p.2.1 (f.headD ⟨0, 1⟩)) p.1).wrInt .timLnSkewRx (skew p.2.2 (g.headD ⟨0, 1⟩)) p.1)
    let a := fitSlope taus f
    let b := fitSlope taus g
    -- lengths in km: slopes in 2^-16 ns per (ps / km), times 1,000 / 65,536
    let lenT := (a.1.div a.2).scale 1000 65536
    let lenR := (b.1.div b.2).scale 1000 65536
    let metres (x : Frac) : Nat := (clampInt 0 65535 (x.scale 1000).round).toNat
    let s := s.puts [(.timRngLenTxM, metres lenT), (.timRngLenRxM, metres lenR)]
    let span := (s.tau wMax).sub (s.tau wMin)
    let sum := (lenT.add lenR).mul span
    let halfRtt := (Frac.mean (set.map (fun n => Frac.mean ((s.window n).map Sample.rtt)))).scale 1 131072
    if sum.num = 0 then ((s.wrFree .timRngAsymEstNs).wrFree .timRngResNs).wrFree .timRngCheckFail
    else
      let est := (halfRtt.mul ((lenT.sub lenR).mul span)).div sum
      let res := (halfRtt.div sum).abs.round
      let s := (s.wrInt .timRngAsymEstNs est.round).wr .timRngResNs (min res.toNat 65535)
      let fail := !((est.sub (Frac.of (s.rdInt .timLnAsymPs low) 1000)).abs.le (Frac.of (s.rd .timAsymTolNs)))
      (s.wrb .timRngCheckFail fail).when fail (fun t => t.raise .timIntStatus Irq.timRngCheckFail)

/-! ## An echo (R302, R303) -/

/-- A phase error for the time DPLL, in 2^-16 ns (R312). -/
def State.phaseError (s : State) (e : Int) : State := (s.wr .timDpllDue 1).wrInt .timDpllErr e

/-- An exchange that is not excluded: it joins the rate ratio, and once that is established its round trip is accepted or
rejected (R302 to R304). -/
def State.exchange (s : State) (n : Nat) (t1 : Nat) (e : EchoIn) (v1 : Bool) : State :=
  let x := s.ex n
  let span := s.ratioSpan n
  let hist := ((t1, e.t2) :: x.hist).take (span + 1)
  let s := s.setEx n { x with hist := hist, partner := if v1 then none else some e.device }
  let old := (hist.getLast?).getD (t1, e.t2)
  let dt1 := timeDiff v1 t1 old.1
  let dt2 := timeDiff v1 e.t2 old.2
  if hist.length < span ∨ dt1 = 0 ∨ dt2 = 0 then s
  else
    let oTx := if v1 then s.free.1 % 65536 else e.optTx
    let s := if v1 then s.free.2 else s
    let oRx := if v1 then s.free.1 % 65536 else e.optRx
    let s := if v1 then s.free.2 else s
    let y : Sample := ⟨t1, timeDiff v1 e.t4 t1, timeDiff v1 e.t3 e.t2, timeDiff v1 e.t2 t1,
      timeDiff v1 e.t4 e.t3, dt1, dt2, s.rd .timLnOptTx n + oRx, oTx + s.rd .timLnOptRx n,
      s.rdInt .timLnAsymPs n⟩
    let w := s.window n
    let x := s.ex n
    let far := !w.isEmpty &&
      !((y.rtt.sub (Frac.mean (w.map Sample.rtt))).abs.le (Frac.of (s.rd .timLnRejectPs n * 65536) 1000))
    if far then
      let k := x.rejects + 1
      let x := if 8 ≤ k then { x with acc := [], rejects := 0 } else { x with rejects := k }
      (s.setEx n x).bump .timLnExchRejectCnt n
    else
      let s := (s.setEx n { x with acc := (y :: x.acc).take 1024, rejects := 0 }).bump .timLnExchOkCnt n
      let s := ((s.wr .timLnStale 0 n).results n).ranging
      s.when (s.rd .timDpllSrc == 3 && s.rd .timDpllLinkLane == n) (fun t => t.phaseError (-(y.offset.round)))

/-- ECHO_RECEIVED: the echo that the last region or record completed (R299, R302, R303). -/
def execEchoReceived (n : Lane) (s : State) : Out :=
  .next (match (s.ex n).got with
    | none => s
    | some e =>
      let x := { s.ex n with got := none }
      let s := s.setEx n x
      match x.out.find? (fun i => i.seq = e.seq) with
      | some ⟨_, some t1, sus, disc⟩ =>
        let s := s.setEx n { x with out := x.out.filter (fun i => i.seq ≠ e.seq) }
        if disc || e.disc then (s.exchClear n).bump .timLnExchRejectCnt n
        else if sus || e.suspect then (s.wr .timLnSuspect 1 n).bump .timLnExchSuspectCnt n
        else (s.wr .timLnSuspect 0 n).exchange n t1 e (s.icrisVer n = 1)
      | _ => s)

/-! ## Time DPLL, TIME_IN and TIME_OUT (R312 to R316) -/

/-- Bandwidths of codes 0 to 9 in 0.1 Hz (R313). -/
def dpllBands : List Nat := [1, 2, 5, 10, 20, 50, 100, 200, 500, 1000]

/-- A bandwidth of at most one tenth of the update rate (R313). -/
def State.bandOk (s : State) (b : Nat) : Bool :=
  match s.rd .timDpllSrc with
  | 2 => decide (b * s.rd .timInPeriodMs ≤ 1000)
  | 3 =>
    let n := s.rd .timDpllLinkLane
    if s.icrisVer n = 1 then decide (b * 10000 ≤ 390625)
    else decide (b * 3 * 2 ^ 19 * (432332 / 2 ^ s.rd .timLnRateExp n) ≤ 680000000000)
  | _ => true

/-- BW_ACT and BW_CLAMPED: the bandwidth of the loop, which runs in sources TIME_IN and LINK (R312, R313). -/
def State.dpllBand (s : State) : Nat × Bool :=
  if s.rd .timDpllSrc < 2 then (0, false) else
  let want := s.rd .timDpllBw
  let ok := (List.range (want + 1)).filter (fun c => s.bandOk (dpllBands.getD c 0))
  (ok.getLast?.getD 0, !s.bandOk (dpllBands.getD want 0))

/-- The steering of an update, which R312 leaves to the loop: free within ±200,000 ppb (log entry 2). -/
def State.steer (s : State) : State :=
  let f := clampInt (-819200000) 819200000 (signedOf 32 s.free.1)
  let s := s.free.2.wrInt .timFreq f
  { s with dpllHist := (f :: s.dpllHist).take 64 }

/-- DPLL_UPDATE: a phase error in source TIME_IN or LINK moves the DPLL, in ACQUIRE one above 1,000 ns by a step of the
TOD in place of steering; none while the supply is below warning or REFCLK is out (R312, R313, R327). -/
def execDpllUpdate (s : State) : Out :=
  .next (if !(s.on .timDpllDue ∧ 2 ≤ s.rd .timDpllSrc) ∨ s.warning ∨ s.on .clkRefLost ∨ s.on .clkRefBad then s.wr
    .timDpllDue 0
    else
      let e := s.rdInt .timDpllErr
      let ps := e * 1000 / 65536
      let r := if e * 1000 % 65536 = 0 then (0, s) else (s.free.1 % 2, s.free.2)
      let s := r.2.puts [(.timDpllDue, 0), (.timDpllMiss, 0)]
      let s := s.wrInt .timDpllPhasePs (clampInt (-(2 ^ 31)) (2 ^ 31 - 1) (ps + r.1))
      let lock := s.rd .timDpllLockNs * 65536
      let s := s.when (s.rd .timDpllState == 3 || s.rd .timDpllState == 0) (fun t =>
        t.puts [(.timDpllState, 1), (.timDpllRun, 0)])
      let s := s.when (s.rd .timDpllState == 2 && decide (4 * lock < e.natAbs)) (fun t =>
        t.puts [(.timDpllState, 1), (.timDpllRun, 0)])
      let step := s.rd .timDpllState == 1 && s.on .timDpllStepEn && decide (1000 * 65536 < e.natAbs)
      let s := s.when step (fun t => t.todStepBy (-e))
      let run := if e.natAbs ≤ lock then min 8 (s.rd .timDpllRun + 1) else 0
      let s := s.wr .timDpllRun run
      let s := s.when (s.rd .timDpllState == 1 && run == 8) (fun t =>
        (t.wr .timDpllState 2).raise .timIntStatus Irq.timDpllLock)
      if step then s else s.steer)

/-- DPLL_MISSED_UPDATE: the second in a row takes LOCKED or ACQUIRE to HOLDOVER at the mean of the last 64 frequencies
(R313, log entry 9). -/
def execDpllMissedUpdate (s : State) : Out :=
  .next (if (s.rd .timDpllState = 1 ∨ s.rd .timDpllState = 2) ∧ !s.warning then
    let k := s.rd .timDpllMiss + 1
    if k < 2 then s.wr .timDpllMiss k
    else
      let s := (s.puts [(.timDpllState, 3), (.timDpllMiss, 2), (.timDpllRun, 0)]).raise .timIntStatus Irq.timDpllHoldover
      let n := s.dpllHist.length
      if n = 0 then s
      else
        let sum : Int := s.dpllHist.foldl (· + ·) 0
        let r : Nat × State := if sum % n = 0 then (0, s) else (s.free.1 % 2, s.free.2)
        r.2.wrInt .timFreq (sum / n + (r.1 : Nat))
  else s)

/-- Signed ps in 2^-16 ns, rounded to a neighbour that is free (log entry 9). -/
def State.psUnits (s : State) (ps : Int) : Int × State :=
  let v := ps * 65536
  if v % 1000 = 0 then (v / 1000, s) else (v / 1000 + (s.free.1 % 2 : Nat), s.free.2)

/-- TIME_IN_EDGE: an active edge `offset` (2^-16 ns) into the present TIME cycle; in Deep any one wakes the device
(R286, R312, R314, R369). -/
def execTimeInEdge (offset : BitVec 17) (s : State) : Out :=
  .next (if s.rd .pwrDevState = 5 then s.wakeDevice 4
    else if !s.on .timInEn then s
    else
      let at_ := s.now * 131072 + offset.toNat
      let gap : Int := ((at_ : Int) - s.rd .timInLast) - s.rd .timInPeriodMs * 1000000 * 65536
      let valid := !s.on .timInHas || decide (gap.natAbs * 100 ≤ s.rd .timInPeriodMs * 1000000 * 65536)
      if !s.on .pwrDomTime then s
      else if !valid then s.bump .timInGlitchCnt
      else
        let s := s.puts [(.timInHas, 1), (.timInLast, at_)]
        let r := s.psUnits (s.rdInt .timInOfsPs)
        let s := r.2
        let t := ((s.rd .timTodNow : Int) + offset.toNat + r.1) % (2 ^ 112 : Nat)
        let s := s.when (s.on .timSuspect) (fun u => u.bump .timTsSuspectCnt)
        let s := (s.wr .timInTs (packTime t.toNat)).tsfPut 4 0 0 t.toNat 0
        let s := s.when (s.rd .timDpllSrc == 2) (fun u =>
          let period : Int := u.rd .timInPeriodMs * 1000000 * 65536
          let m := t % period
          u.phaseError (if 2 * m ≤ period then m else m - period))
        let s := s.when (s.on .timTodArm) (fun u =>
          (u.todSetTo ((unpackTime (u.rd .timTodSet) : Int) * 2 ^ 24 - offset.toNat * 2 ^ 24)).todDone)
        s.wakeDevice 4)

/-- TIME_IN_MISS (R314). -/
def execTimeInMiss (s : State) : Out :=
  .next (if s.on .timInEn ∧ s.on .pwrDomTime then s.raise .timIntStatus Irq.timInMiss else s)

/-- TIME_OUT_PULSE: the pulse of the TOD multiple just reached, shifted by OUT_OFS_PS (R315). -/
def execTimeOutPulse (s : State) : Out :=
  .next (if s.on .timOutEn ∧ s.on .pwrDomTime then
    let period := s.rd .timOutPeriodMs * 1000000 * 65536
    let r := s.psUnits (s.rdInt .timOutOfsPs)
    let start : Int := (((s.rd .timTodNow / period * period : Nat) : Int) + r.1) % (2 ^ 112 : Nat)
    let us := s.rd .timOutPeriodMs * 1000
    r.2.puts [(.timOutStart, start.toNat), (.timOutWide, if us ≤ s.rd .timOutWidthUs then us / 2 else s.rd .timOutWidthUs)]
  else s)

/-- SUSPECT_END: 20 us after the supply recovered (R316). -/
def execSuspectEnd (s : State) : Out := .next (if s.warning then s else s.wr .timSuspect 0)

end Sys2Proof.Machine
end

