-- ==== Sys2Proof/Machine/Clocks.lean ====
section
/-!
DEFINITION. The reference clock and the synthesisers: outages, lock and loss of lock, calibrations, and what they do to
the blocks they serve (R319 to R335). PLL indices are those of R321; the core PLL is 4.
-/
namespace Sys2Proof.Machine

/-- Every PLL. -/
def plls : List Nat := List.range 5

/-- Line lanes a PLL serves. -/
def pllLines (p : Nat) : List Nat := (List.range 8).filter (fun n => linePll n = p)

/-- Host lanes a PLL serves. -/
def pllHosts (p : Nat) : List Nat := (List.range 16).filter (fun h => hostPll h = p)

/-- REF_LOST or REF_BAD is set (R320). -/
def State.refOut (s : State) : Bool := s.on .clkRefLost || s.on .clkRefBad

/-- What the blocks a PLL serves do at a loss of lock or a calibration; `lol` tells the loss, which alone faults transmits
and counts in one already in FAULT, from the requested calibration. DAC results that wait are void (R169, R180, R323,
R326). -/
def State.pllEffects (s : State) (p : Nat) (lol : Bool) : State :=
  let s := s.capStop p
  let toCal (n : Nat) (t : State) : State :=
    t.when (decide (2 ≤ t.rd .lrxState n ∧ t.rd .lrxState n ≤ 5)) (fun u => u.lrxToCal n)
  let s := if p = 4 then s.each (List.range 8) toCal else s.each (pllLines p) toCal
  let s := s.each (pllLines p) (fun n t =>
    let st := t.rd .ltxState n
    let t := (t.when (lol && (decide (2 ≤ st ∧ st ≤ 4) || st == 7)) (fun u => u.ltxFault n 6)).wr .ltxCalWait 0 n
    let t := t.when (t.on .ltxDacCal n && st != 0) (fun u => u.puts [(.ltxDacCal, 0), (.ltxDacCalRun, 2)] n)
    t.ltxRecheck n)
  s.each (pllHosts p) (fun h t =>
    let st := t.rd .hifState h
    t.when (decide (1 ≤ st ∧ st ≤ 4) || st == 7) (fun u => u.hifToCal h))

/-- A calibration starts; it serves a request that waits for the supply too (R322, R330). -/
def State.pllCalStart (s : State) (p : Nat) : State :=
  let s := s.when (s.maskBit .clkCalReq p) (fun t => (t.setMask .clkCalReq p false).wr .pllReqPend 1 p)
  ((s.puts [(.pllCalRun, if s.refOut then 2 else 1), (.pllCalPend, 0), (.pllLock, 0), (.pllQuietWin, 0), (.pllDeclared, 0),
    (.pllBandHeld, 0)] p).pllSet p 1).pllGate p

/-- A served line lane still transmits or disables (R323). -/
def State.pllTransmits (s : State) (p : Nat) : Bool :=
  (pllLines p).any (fun n => decide (2 ≤ s.rd .ltxState n ∧ s.rd .ltxState n ≤ 5))

/-- A PLL regains lock: its outputs run, and what waited for them goes on; with the core PLL the decode islands restart
and ATC goes on (R174, R225, R325, R327, R328, R333). -/
def State.pllLockedNow (s : State) (p : Nat) : State :=
  let s := s.when (p == 4 && s.on .pllGated 4) (fun t => t.atcRun.straitFlush (fun w => decide (w.strait < 0x18)))
  let s := (s.puts [(.pllLock, 1), (.pllGated, 0), (.pllDeclared, 0)] p).pllSet p 2
  let s := s.when (p == 4) (fun t => t.wr .clkBackup 0)
  s.xbarFollow.each (pllLines p) (fun n t => t.ltxRecheck n)

/-- Steps 2 and 3 of a loss of lock with the effects on the served blocks (R326). -/
def State.pllLol (s : State) (p : Nat) : State :=
  let s := ((s.bump .pllLolCnt p).wr .pllLock 0 p).raise .clkIntStatus (Irq.clkPllLol + p)
  (s.pllEffects p true).faultEvent 11 p

/-- PLL_LOCK_WINDOW: a window's frequency error (ppm), whether the phase detector stayed within 1/8 period, and a cycle
slip (R324, R326, R327, R330). -/
def execPllLockWindow (p : Fin 5) (errPpm : Int) (phaseOk slip : Bool) (s : State) : Out :=
  let p : Nat := p
  let st := s.rd .pllState p
  .next (if s.refOut ∨ st = 0 ∨ st = 5 ∨ st = 3 then s
    else
      let s := s.wrInt .pllLockErrPpm (clampInt (-128) 127 errPpm) p
      if st = 2 then
        if 100 < errPpm.natAbs ∨ slip then
          let s := s.pllGate p
          let s := s.pllSet p (if s.maskBit .clkAutoRelock p then 1 else 5)
          let s := s.pllLol p
          if s.rd .pllState p = 5 ∨ (s.on .pllReqPend p ∧ s.pllTransmits p) then s else s.pllCalStart p
        else s
      else
        let q := if errPpm.natAbs ≤ 20 ∧ phaseOk ∧ !slip then min 4 (s.rd .pllQuietWin p + 1) else 0
        let s := (s.wr .pllQuietWin q p).when (decide (100 < errPpm.natAbs) || slip) (fun t => t.wr .pllLock 0 p)
        if q < 4 then s else if st = 4 then s.pllLockedNow p else s.wr .pllLock 1 p)

/-- A request for a calibration of one PLL: none while it calibrates or is off; it disables the line transmitters that the PLL
serves (R177, R323, R330). -/
def State.pllRequest (s : State) (p : Nat) : State :=
  if s.on .pllCalRun p ∨ s.rd .pllState p = 0 then s
  else (s.puts [(.pllReqPend, 1), (.pllCalPend, 1)] p).each (pllLines p) (fun n t => t.ltxDisable n)

/-- PLL_CAL_REQ: a write of CAL_REQ; a PLL that calibrates or is off ignores it, and below supply warning it waits (R323,
R330). -/
def execPllCalReq (mask : BitVec 5) (s : State) : Out :=
  .next (s.access .clk 0 (fun s => s.each (plls.filter (fun p => mask.toNat.testBit p)) (fun p t =>
    if t.warning ∧ !t.on .pllCalRun p ∧ t.rd .pllState p ≠ 0 then (t.setMask .clkCalReq p true).wr .pllCalPend 1 p
    else t.pllRequest p)))

/-- PLL_CAL_START: the requested calibration starts once no served lane transmits (R323). -/
def execPllCalStart (p : Fin 5) (s : State) : Out :=
  .next (if s.on .pllReqPend p ∧ !s.on .pllCalRun p ∧ !s.pllTransmits p ∧ !s.refOut then
    let lost := !s.pllLocked p
    let s := s.pllCalStart p
    if lost then s else s.pllEffects p false
  else s)

/-- A requested calibration ends in LOCKED: the lasting loss-of-lock fault clears (R413). -/
def State.pllServed (s : State) (p : Nat) : State :=
  s.when (s.on .pllReqServed p) (fun t => (t.wr .pllReqServed 0 p).clearLasting 11 p)

/-- A calibration ends LOCKED with its band (R322, R329). -/
def State.pllCalLocked (s : State) (p band : Nat) : State :=
  ((s.puts [(.pllBand, band), (.pllNoRelock, 0), (.pllBandHeld, 0)] p).pllServed p).pllLockedNow p

/-- PLL_CAL_DONE: LOCKED where the lock test passed in the band, or FAILED where no band locks; below supply warning a
new band waits in HOLD. At start-up the core PLL's lock starts the other four (R322 to R324, R330). -/
def execPllCalDone (p : Fin 5) (band : BitVec 6) (s : State) : Out :=
  let p : Nat := p
  let ok := s.on .pllLock p
  .next (if s.rd .pllCalRun p = 1 ∧ !s.refOut then
    let s := (s.puts [(.pllCalRun, 0), (.pllReqServed, bit (ok && s.on .pllReqPend p)), (.pllReqPend, 0),
      (.pllCalTime, s.todWords)] p).bump .pllCalCnt p
    let s := s.raise .clkIntStatus (Irq.clkCalDone + p)
    let s := if !ok then ((s.when (s.on .pwrStartup) (fun t => t.wr .glbBootFailStage 3)).wr .pllLock 0 p).pllSet p 5
      else if s.warning ∧ band.toNat ≠ s.rd .pllBand p then (s.wr .pllBandHeld (64 + band.toNat) p).pllSet p 3
      else s.pllCalLocked p band.toNat
    s.when (p == 4 && (s.rd .pwrDevState == 6 || s.on .imgRestart)) (fun t => t.each (List.range 4) (fun q u =>
      if u.rd .pllState q = 0 then u.pllCalStart q else u))
  else s)

/-- An outage begins: every PLL that runs holds, and a running calibration stops (R327, R330). -/
def State.refOutage (s : State) : State :=
  let s := (s.puts [(.clkRefOk, 0), (.clkRefBack, 0), (.clkCountOk, 0)]).raise .clkIntStatus Irq.clkRefLost
  let s := s.wr .clkOutage 1
  s.each plls (fun p t =>
    let t := t.when (t.rd .pllCalRun p == 1) (fun u => u.puts [(.pllCalRun, 2), (.pllQuietWin, 0), (.pllLock, 0)] p)
    t.when (t.rd .pllState p == 2 || t.rd .pllState p == 4) (fun u =>
      (u.wrb .pllDeclared (u.rd .pllState p == 4) p).pllSet p 3))

/-- REF_LOST (R320, R327). -/
def execRefLost (s : State) : Out :=
  .next (if s.on .clkRefLost then s
    else if s.on .clkRefBad then
      (s.puts [(.clkRefLost, 1), (.clkRefBack, 0), (.clkCountOk, 0)]).raise .clkIntStatus Irq.clkRefLost
    else (s.refOutage).wr .clkRefLost 1)

/-- REF_COUNT_DONE: REFCLK cycles counted in 4,096 monitor cycles, nominally 2,560; more than 128 away sets REF_BAD
(R320). -/
def execRefCountDone (count : BitVec 16) (s : State) : Out :=
  let far := decide (128 < ((count.toNat : Int) - 2560).natAbs)
  .next (if !far then s.wr .clkCountOk 1
    else if s.refOut then
      (s.puts [(.clkRefBad, 1), (.clkCountOk, 0), (.clkRefBack, 0)]).when (!s.on .clkRefBad)
        (fun t => t.raise .clkIntStatus Irq.clkRefLost)
    else (s.refOutage).wr .clkRefBad 1)

/-- The outage outlasts REF_HOLD_US: every PLL in HOLD declares loss of lock; its outputs keep running (R327). -/
def State.refLoss (s : State) : State :=
  let s := (s.wr .clkOutage 0).bump .clkRefLossCnt
  s.each plls (fun p t => if t.rd .pllState p = 3 then (t.wr .pllDeclared 1 p).pllLol p else t)

/-- REF_BACK: the flags clear; within REF_HOLD_US every PLL re-closes from the held state. A REF_HOLD_US below the 20 µs that
REF_BACK needs has expired by then (R320, R327). -/
def execRefBack (s : State) : Out :=
  .next (if s.refOut ∧ s.on .clkCountOk then
    let s := s.when (s.on .clkOutage && decide (s.rd .clkRefHoldUs < 20)) (fun t => t.refLoss)
    let s := s.puts [(.clkRefBack, 1), (.clkRefLost, 0), (.clkRefBad, 0)]
    if s.on .clkOutage then
      let s := ((s.wr .clkOutage 0).bump .clkRefGlitchCnt).raise .clkIntStatus Irq.clkRefGlitch
      s.each plls (fun p t => if t.rd .pllState p = 3 ∧ !t.on .pllDeclared p ∧ !t.on .pllBandHeld p then (t.pllSet p
        2).pllServed p else t)
    else s
  else s)

/-- REF_OK: held PLLs relock, and stopped calibrations restart (R320, R327, R330). -/
def execRefOk (s : State) : Out :=
  .next (if s.refOut ∨ !s.on .clkRefBack then s
    else
      let s := (s.wr .clkRefOk 1).raise .clkIntStatus Irq.clkRefOk
      s.each plls (fun p t =>
        if t.rd .pllState p = 3 ∧ t.on .pllDeclared p then (t.wr .pllQuietWin 0 p).pllSet p 4
        else if t.rd .pllCalRun p = 2 then (t.wr .pllCalRun 1 p).pllSet p 1
        else t))

/-- REF_HOLD_EXPIRY: REF_HOLD_US after the outage (R327). -/
def execRefHoldExpiry (s : State) : Out := .next (if s.on .clkOutage ∧ s.refOut then s.refLoss else s)

/-- PLL_RELOCK_TIMEOUT: a PLL not locked from its held band recalibrates (R327). -/
def execPllRelockTimeout (p : Fin 5) (s : State) : Out :=
  .next (if s.rd .pllState p = 4 then s.pllCalStart p else s)

/-- CLK_CNT_CLR (R335). -/
def execClkCntClr (s : State) : Out :=
  .next (s.access .clk 0 (fun s => (s.clear [.clkRefGlitchCnt, .clkRefLossCnt, .clkRgStoppedCnt]).each plls
    (fun p t => t.clear [.pllLolCnt, .pllCalCnt] p)))

end Sys2Proof.Machine
end

