-- ==== Sys2Proof/Machine/Fifo.lean ====
section
/-!
DEFINITION. The FIFO blocks of MGMT: reading, flushing and reformatting the event FIFO, and the mailbox (R448 to R457).
-/
namespace Sys2Proof.Machine

/-- The not-valid tag that an empty FIFO answers (R449). -/
def emptyTag : Nat := 0x80000000

/-- Record what a read answered (R15). -/
def State.answerWord (s : State) (w : Nat) : State := { s.wr .glbBusTrace w with answer := [w] }

/-! ## Event FIFO (R449, R450, R453) -/

/-- A FORMAT that waits takes effect once the FIFO is empty (R453). -/
def State.evfSettle (s : State) : State :=
  if s.evf.isEmpty && s.on .evfFmtPending then s.puts [(.evfFormat, s.rd .evfFormatNew), (.evfFmtPending, 0)] else s

/-- XOFF deasserts when LEVEL falls to LWM (R450). -/
def State.evfXoffFollow (s : State) : State :=
  s.when (decide (s.evf.length ≤ s.rd .evfLwm)) (fun t => t.wr .evfXoff 0)

/-- A read of EVF_DATA: the next word, or the tag with no pointer changed (R449). -/
def State.evfPop (s : State) : Nat × State :=
  match s.evf with
  | [] => (emptyTag, s)
  | w :: rest => (w, ((({ s with evf := rest } : State).wr .evfRptr (s.rd .evfRptr + 2)).evfXoffFollow).evfSettle)

/-- EVF_READ (R449). -/
def execEvfRead (s : State) : Out := .next (s.access .evf 0 (fun s => s.evfPop.2.answerWord s.evfPop.1))

/-- The FIFO empties (R459). -/
def State.evfFlushNow (s : State) : State :=
  ((({ s with evf := [] } : State).wr .evfRptr (s.rd .evfWptr)).evfXoffFollow).evfSettle

/-- EVF_FLUSH: no record is ever open between steps (R459, log entry 14). -/
def execEvfFlush (s : State) : Out := .next (s.access .evf 0 (fun s => s.evfFlushNow))

/-- A FORMAT write takes effect when the FIFO is empty (R453). -/
def State.evfFormatSet (s : State) (v : Nat) : State :=
  if s.evf.isEmpty then s.puts [(.evfFormat, v), (.evfFmtPending, 0)]
  else s.puts [(.evfFormatNew, v), (.evfFmtPending, bit (v != s.rd .evfFormat))]

/-- EVF_FORMAT_WRITE (R453). -/
def execEvfFormatWrite (format2 : Bool) (s : State) : Out :=
  .next (s.access .evf 0 (fun s => s.evfFormatSet (bit format2)))

/-- MGT_CNT_CLR: the MGT and EVF counters, and OVERRUN (R459). -/
def execMgtCntClr (s : State) : Out :=
  .next (s.access .mgt 0 (fun s =>
    s.clear [.mgtRefusedCnt, .mgtFwRestartCnt, .evfDroppedCnt, .evfDeferredCnt, .evfOverrun]))

/-! ## Mailbox (R454 to R457) -/

/-- Bytes of a mailbox direction (R454). -/
def State.mbxBytes (s : State) : Nat := 1024 * 2 ^ s.rd .mgtMbxSize

/-- Bytes of messages. -/
def bytesIn (l : List (List Nat)) : Nat := 4 * (l.map List.length).sum

/-- Free inbound bytes (R456). -/
def State.mbxFree (s : State) : Nat := s.mbxBytes - (bytesIn s.mbxIn + 4 * s.mbxOpen.length)

/-- Why word 0 of a message is refused: the STATUS code (R456, R457). -/
def State.headerRefusal (s : State) (w : Nat) : Option Nat :=
  let ver := w % 256
  let len := bitsOf w 27 16
  if ver ≠ 1 ∧ ver ≠ 2 then some 3
  else if len < 8 ∨ len % 4 ≠ 0 then some 4
  else if 2048 < len ∨ s.mbxBytes < len ∨ (ver = 1 ∧ 1024 < len) then some 1
  else if s.mbxFree < len then some 2
  else none

/-- A word written to MGT_MBX_IN_DATA: discarded, added to the open message, or the header of a new one (R456). -/
def State.mbxWord (s : State) (w : Nat) : State :=
  if s.on .mbxDiscardAll then s
  else if s.on .mbxDiscard then s.wr .mbxDiscard (s.rd .mbxDiscard - 1)
  else if s.on .mgtMbxOpen then
    let msg := s.mbxOpen ++ [w]
    if s.rd .mbxLeft ≤ 1 then
      ({ s with mbxIn := s.mbxIn ++ [msg], mbxOpen := [] } : State).puts [(.mgtMbxOpen, 0), (.mbxLeft, 0)]
    else ({ s with mbxOpen := msg } : State).wr .mbxLeft (s.rd .mbxLeft - 1)
  else match s.headerRefusal w with
    | some code =>
      let s := s.puts [(.mgtMbxInResult, code), (.mbxDiscard, (bitsOf w 27 16 - 4) / 4), (.mbxDiscardAll, bit (code == 4))]
      (s.raise .mgtIntStatus Irq.mgtInRefused).bump .mgtRefusedCnt
    | none => ({ s with mbxOpen := [w] } : State).puts [(.mgtMbxOpen, 1), (.mbxLeft, bitsOf w 27 16 / 4 - 1)]

/-- MBX_IN_WORD_WRITE (R456). -/
def execMbxInWordWrite (w : Word) (s : State) : Out := .next (s.access .mgt 0 (fun s => s.mbxWord w.toNat))

/-- The open message is rewound (R456). -/
def State.mbxRewind (s : State) : State := ({ s with mbxOpen := [] } : State).puts [(.mgtMbxOpen, 0), (.mbxLeft, 0)]

/-- MBX_TIMEOUT: MBX_TMO_US without a new word (R456). -/
def execMbxTimeout (s : State) : Out :=
  .next (if s.on .mgtMbxOpen then s.mbxRewind.wr .mgtMbxInResult 7 else s)

/-- IN_ABORT: the open message is rewound, and the discarding after MSG_FORMAT ends (R456). -/
def State.mbxAbort (s : State) : State := s.mbxRewind.wr .mbxDiscardAll 0

/-- MBX_IN_ABORT (R456). -/
def execMbxInAbort (s : State) : Out := .next (s.access .mgt 0 (fun s => s.mbxAbort))

/-- A MBX_SIZE write applies where both directions are empty and no message is open (R454). -/
def State.mbxResize (s : State) (v : Nat) : State :=
  if s.mbxIn.isEmpty && s.mbxOut.isEmpty && !s.on .mgtMbxOpen then s.wr .mgtMbxSize v
  else s.raise .mgtIntStatus Irq.mgtMbxBusy

/-- MBX_SIZE_WRITE (R454). -/
def execMbxSizeWrite (v : BitVec 2) (s : State) : Out := .next (s.access .mgt 0 (fun s => s.mbxResize v.toNat))

/-- A read of MGT_MBX_OUT_DATA: the next outbound word, or the tag (R449). -/
def State.mbxPop (s : State) : Nat × State :=
  match s.mbxOut with
  | (w :: msg) :: rest => (w, { s with mbxOut := if msg.isEmpty then rest else msg :: rest })
  | _ => (emptyTag, s)

/-- MBX_OUT_READ (R449). -/
def execMbxOutRead (s : State) : Out := .next (s.access .mgt 0 (fun s => s.mbxPop.2.answerWord s.mbxPop.1))

/-- The firmware answers the oldest inbound message: a reply with its TYPE, TAG and VER becomes visible and the message is
removed (R455, R457). -/
def State.mbxReply (s : State) (status : Nat) (body : List Nat) : State :=
  match s.mbxIn with
  | msg :: rest =>
    let w0 := msg.getD 0 0
    let head := (8 + 4 * body.length) * 2 ^ 16 + bitsOf w0 15 8 * 2 ^ 8 + w0 % 256
    let s := { s with mbxIn := rest, mbxOut := s.mbxOut ++ [head :: (status * 2 ^ 16 + msg.getD 1 0 % 2 ^ 16) :: body] }
    s.raise .mgtIntStatus Irq.mgtOutAvail
  | [] => s

/-- Most bytes that a reply to a message may have: those of its type, within the message limit of its version and the
direction's size (R455 to R457). -/
def State.replyLimit (s : State) (msg : List Nat) : Nat :=
  let w0 := msg.getD 0 0
  let most := match bitsOf w0 15 8 with
    | 1 => 20
    | 2 => 2048
    | 4 => 2048
    | 5 => 2048
    | _ => 8
  min most (min s.mbxBytes (if w0 % 256 = 1 then 1024 else 2048))

/-- The application firmware runs: neither the ROM firmware, nor a restart, nor FW_HALT (R60, R435). -/
def State.fwUp (s : State) : Bool := s.on .pwrDomMgmt && !s.on .mgtRomFw && !s.on .mgtFwDown && !s.on .mgtFwHalt

/-- The firmware takes the oldest message where it has the type expected and the outbound direction has room for the
longest reply (R457). -/
def State.mbxTake (s : State) (type : Nat → Bool) (g : List Nat → State → State) : State :=
  match s.mbxIn with
  | msg :: _ =>
    if s.fwUp && type (bitsOf (msg.getD 0 0) 15 8) && !s.maskBit .secNvmBusy 2 &&
        decide (bytesIn s.mbxOut + s.replyLimit msg ≤ s.mbxBytes) then g msg s
    else s
  | [] => s

/-- MSG_VERSION: versions 1 and 2, MBX_SIZE in KiB, the message limit (R457, log entry 15). -/
def execMsgVersion (s : State) : Out :=
  .next (s.mbxTake (· == 1) (fun _ s => s.mbxReply 0 [6, 2 ^ s.rd .mgtMbxSize, 2048]))

/-- Words of a record of the event FIFO, by its first word (R451, R452). -/
def recordWords (format2 : Bool) (w : Nat) : Nat := if format2 then 3 + bitsOf w 15 8 else 1 + w % 2 ^ 16

/-- Whole records from the event FIFO, up to `room` words, at most `fuel` of them (R457). -/
def State.takeRecords (s : State) (room : Nat) : Nat → List Nat × State
  | 0 => ([], s)
  | fuel + 1 =>
    match s.evf with
    | [] => ([], s)
    | w :: _ =>
      let k := recordWords (s.on .evfFormat) w
      if room < k ∨ s.evf.length < k then ([], s)
      else
        let words := s.evf.take k
        let t := ((({ s with evf := s.evf.drop k } : State).wr .evfRptr (s.rd .evfRptr + 2 * k)).evfXoffFollow).evfSettle
        let r := t.takeRecords (room - k) fuel
        (words ++ r.1, r.2)

/-- MSG_EVENT_READ (R457). -/
def execMsgEventRead (s : State) : Out :=
  .next (s.mbxTake (· == 4) (fun msg s =>
    let most := msg.getD 2 0
    if msg.length ≠ 3 ∨ most < 1 ∨ 510 < most then s.mbxReply 4 []
    else
      let r := s.takeRecords (min most ((s.replyLimit msg - 8) / 4)) 510
      r.2.mbxReply 0 r.1))

/-- Bytes of the MODULE_INFO region (R471). -/
def infoBytes : Nat := 458752

/-- MSG_INFO_READ: bytes of the module-information region, four to a word, lowest first (R457, log entry 15). -/
def execMsgInfoRead (s : State) : Out :=
  .next (s.mbxTake (· == 5) (fun msg s =>
    let off := msg.getD 2 0
    let k := msg.getD 3 0
    if msg.length ≠ 4 ∨ k = 0 then s.mbxReply 4 []
    else if infoBytes < off + k then s.mbxReply 6 []
    else if s.replyLimit msg < 8 + k then s.mbxReply 1 []
    else s.mbxReply 0 (packWords (s.info.getMany off k))))

/-- MSG_INFO_WRITE: Manufacturing only; the NVM write follows (R457, R472). -/
def execMsgInfoWrite (s : State) : Out :=
  .next (s.mbxTake (· == 6) (fun msg s =>
    let off := msg.getD 2 0
    let k := msg.getD 3 0
    if s.rd .secLcState ≠ 1 then s.mbxReply 6 []
    else if k = 0 ∨ msg.length ≠ 4 + (k + 3) / 4 then s.mbxReply 4 []
    else if infoBytes < off + k then s.mbxReply 6 []
    else s.setMask .secNvmBusy 2 true))

/-- The NVM write of an INFO_WRITE ends; the STATUS of a readback mismatch is not stated (R457, R472, log entry 2). -/
def State.infoDone (s : State) (ok : Bool) : State :=
  let s := s.setMask .secNvmBusy 2 false
  match s.mbxIn with
  | msg :: _ =>
    if ok then
      let bytes := (msg.drop 4).flatMap bytesOf
      ({ s with info := s.info.setMany (msg.getD 2 0) (bytes.take (msg.getD 3 0)) } : State).mbxReply 0 []
    else s.free.2.mbxReply (s.free.1 % 256) []
  | [] => s

/-- MSG_TYPE_UNKNOWN (R457). -/
def execMsgTypeUnknown (s : State) : Out :=
  .next (s.mbxTake (fun t => t == 0 || decide (6 < t)) (fun _ s => s.mbxReply 5 []))

end Sys2Proof.Machine
end

