-- ==== Sys2Proof/Machine/Host.lean ====
section
/-!
DEFINITION. The commands and events of the host lanes, the crossbar pairs and the RS codeword monitor (R250 to R284).
-/
namespace Sys2Proof.Machine

/-! ## Groups and Extended Host Mode (R263 to R267) -/

/-- EHM_STATE of a lane. -/
def State.ehm (s : State) (n : Nat) : Nat := s.rd .hifGlbEhmState / 16 ^ n % 16

/-- The group offers Extended Host Mode (R264, R265). -/
def State.ehmOffers (s : State) (g : PortGroup) : Bool :=
  g.extended && s.maskBit .hifGlbEhmEn g.lead && !s.on .hifEhmAdvOff g.lead &&
    g.lanes.all (fun n => s.rd .hifGlbMapGbMode 0 n != 2) && (s.groupHosts g).all (fun h => s.on .hifTrnEn h)

/-- Every host lane in use of a group trains in standard mode at 106.25 GBd (R264 to R267); a lane whose ENABLE is 0 or that
is held in OFF stays as it is. -/
def State.groupTrain (s : State) (g : PortGroup) : State :=
  let s := s.each g.lanes (fun n t => t.wr .hifGlbMapGbMode (t.gbBase n) 0 n)
  s.each (g.lanes.flatMap s.activeHosts) (fun h t =>
    if t.on .hifEnable h && !t.on .hifHeldOff h && !(t.rd .hifState h = 7 && t.rd .hifFaultCause h = 8) then
      (t.wr .hifRate 0 h).hifToTrain h
    else t)

/-- Fallback: standard training without the advertisement (R264). -/
def State.ehmFallback (s : State) (g : PortGroup) : State :=
  let s := ((s.setEhm g 4).bump .hifGlbEhmFbCount).raise .hifGlbIntStatus Irq.hifGlbEhmFallback
  (s.wr .hifEhmAdvOff 1 g.lead).groupTrain g

/-- The even lanes move to 212.5 GBd and train again, the odd lanes go to OFF (R264). -/
def State.ehmSwitch (s : State) (g : PortGroup) : State :=
  let s := s.setEhm g 2
  let s := s.each g.lanes (fun n t => t.wr .hifGlbMapGbMode 1 0 n)
  s.each g.lanes (fun n t =>
    let a := t.rd .hifGlbMapHostA 0 n
    let t := ((t.wr .hifRate 1 a).hifSet a 2).hifTrainStart a
    if t.on .hifGlbMapBValid 0 n then t.hifOff (t.rd .hifGlbMapHostB 0 n) else t)

/-- A lane of the group whose training ended waits for the others; the last one decides the host mode (R264). -/
def State.groupTrained (s : State) (g : PortGroup) : State :=
  let active := g.lanes.flatMap s.activeHosts
  let waiting := active.filter (fun h => s.on .hifTrnDone h)
  if active.all (fun h => s.on .hifTrnDone h || s.rd .hifState h == 3 || s.rd .hifState h == 4) then
    if s.ehm g.lead = 2 then
      let s := (s.setEhm g 3).raise .hifGlbIntStatus Irq.hifGlbEhmActive
      s.each waiting (fun h t => (t.wr .hifTrnDone 0 h).hifToAlign h)
    else if g.lanes.all (fun n => s.on .hifHostAdv (s.rd .hifGlbMapHostA 0 n)) then s.ehmSwitch g
    else (s.setEhm g 1).each waiting (fun h t => (t.wr .hifTrnDone 0 h).hifToAlign h)
  else s

/-! ## Enable, retrain, commit, slip (R251, R254, R276, R277, R284) -/

/-- ENABLE of a host lane written 1 (R251). -/
def State.hifEnableOn (s : State) (h : Nat) : State :=
  if s.on .hifHeldOff h then s else (s.wr .hifEnable 1 h).hifStart h

/-- HIF_ENABLE: ENABLE written 1; under test the mirror takes it at once (R251, R418, R423). -/
def execHifEnable (h : HostLane) (s : State) : Out :=
  .next (s.access .hif h (fun s =>
    (s.when (s.underTest 2 (h / 4) && !s.on .hifHeldOff h) (fun t => t.wr .hifEnable 1 h)).hostService h (.hifEnable h)
      (fun t => t.hifEnableOn h)))

/-- HIF_DISABLE: ENABLE written 0 moves the lane to OFF from any state; the last lane of a group ends its host mode (R254, R264,
R413, R423). -/
def execHifDisable (h : HostLane) (s : State) : Out :=
  .next (s.access .hif h (fun s =>
    let s := { s with deferred := s.deferred.filter (· ≠ SvcReq.hifEnable h) }
    let s := ((s.wr .hifEnable 0 h).hifOff h).wr .hifFaultCause 0 h
    let s := s.clearLastings [9, 10] h
    let g := s.groupOf ((s.lineOf h).getD 0)
    s.when (decide ((s.lineOf h).isSome) && (s.groupHosts g).all (fun k => s.rd .hifState k = 0)) (fun t => t.ehmReset g)))

/-- RETRAIN of a host lane (R254, R265, R281). -/
def State.hifRetrainNow (s : State) (h : Nat) : State :=
  let st := s.rd .hifState h
  match s.lineOf h with
  | none => s
  | some n =>
    let g := s.groupOf n
    if 2 ≤ s.ehm g.lead ∧ s.ehm g.lead ≤ 4 then
      ((s.wr .hifEhmAdvOff 0 g.lead).setEhm g 5).groupTrain g
    else if st = 3 ∨ st = 4 ∨ (st = 7 ∧ s.rd .hifFaultCause h ≠ 8) then s.hifToTrain h
    else s

/-- HIF_RETRAIN (R254, R423). -/
def execHifRetrain (h : HostLane) (s : State) : Out :=
  .next (s.access .hif h (fun s => s.hostService h (.hifRetrain h) (fun t => t.hifRetrainNow h)))

/-- COMMIT of a host lane: held below warning, otherwise applied at the next host cycle (R282, R284). -/
def State.hifCommitNow (s : State) (h : Nat) : State :=
  if s.warning then (s.wr .hifCommit 1 h).raise .hifIntStatus Irq.hifCommitHeld h else s.hifApply h

/-- HIF_COMMIT (R282, R284, R423). -/
def execHifCommit (h : HostLane) (s : State) : Out :=
  .next (s.access .hif h (fun s => s.hostService h (.hifCommit h) (fun t => t.hifCommitNow h)))

/-- SKEW of a transparent pair: SLIP_POS of A minus SLIP_POS of B. -/
def State.slipSkew (s : State) (n : Nat) : State :=
  s.when (s.rd .hifGlbMapGbMode 0 n == 3 && s.on .hifGlbMapBValid 0 n) fun s => s.wrInt .hifGlbPairSkew ((s.rd
    .hifSlipPos (s.rd .hifGlbMapHostA 0 n) : Int) - s.rd .hifSlipPos (s.rd .hifGlbMapHostB 0 n)) 0 n

/-- HIF_SLIP: SLIP_POS moves by SLIP_BITS, is refused at its range, or is ignored in an Ethernet group (R276). -/
def execHifSlip (h : HostLane) (s : State) : Out :=
  .next (s.access .hif h (fun s =>
    match s.lineOf h with
    | none => s
    | some n =>
      if !s.transparent n then s.raise .hifIntStatus Irq.hifSlipIgnored h
      else
        let p : Int := s.rd .hifSlipPos h
        let q : Int := if s.on .hifSlipDir h then p - s.rd .hifSlipBits h else p + s.rd .hifSlipBits h
        if 0 ≤ q ∧ q ≤ 12287 then ((s.wr .hifSlipPos q.toNat h).wr .hifSlipLimit 0 h).slipSkew n
        else (s.wr .hifSlipLimit 1 h).raise .hifIntStatus Irq.hifSlipLimit h))

/-- ALIGN_DONE_WRITE: ALIGN_DONE written 1; in a transparent group both lanes of the pair leave ALIGN for READY (R277). -/
def execAlignDoneWrite (h : HostLane) (s : State) : Out :=
  .next (s.access .hif h (fun s =>
    let s := s.wr .hifAlignDone 1 h
    match s.lineOf h with
    | none => s
    | some n =>
      if s.transparent n then
        s.each (s.hostsOf n) (fun k t => if t.rd .hifState k = 3 ∧ !t.on .hifRelockRun k then t.hifSet k 4 else t)
      else s))

/-- HIF_CNT_CLR: CNT_CLR of HIF_CTRL (R284). -/
def execHifCntClr (h : HostLane) (s : State) : Out :=
  .next (s.access .hif h (fun s =>
    s.clear [.hifCdrLolCnt, .hifAmLolCnt, .hifTrnFailCnt, .hifAlignHitsCnt, .hifPrbsErrCnt, .hifWarmFailCnt] h))

/-- HIF_GLB_CNT_CLR: CNT_CLR of HIF_GLB_CTRL (R284). -/
def execHifGlbCntClr (s : State) : Out :=
  .next (s.access .hifGlb 0 (fun s =>
    let s := (s.wr .hifGlbEhmFbCount 0).each (List.range 8) (fun n t => t.wr .hifGlbPairHits 0 0 n)
    s.each (List.range 16) (fun i t =>
      t.each [.hifGlbRsCwTotalLo, .hifGlbRsCwTotalHi, .hifGlbRsCwCorr, .hifGlbRsCwUncorr, .hifGlbRsSymErr]
        (fun f u => u.wr f 0 0 i))))

/-! ## Calibration and training (R251 to R253, R256, R257, R260 to R262) -/

/-- HOST_CAL_DONE: the host PLL is locked and the calibration done, with the linearity of the interpolators of the host
points; the lane goes to TRAIN (R251, R291). -/
def execHostCalDone (h : HostLane) (linRx linTx : BitVec 1024) (s : State) : Out :=
  .next (if s.rd .hifState h = 1 ∧ s.pllRuns (hostPll h) then
    ((s.linMeasured (16 + h) (32 + h) linRx linTx).wr .hifRate 0 h).hifToTrain h else s)

/-- HOST_CAL_TIMEOUT: CAL has lasted 10 ms (R251). -/
def execHostCalTimeout (h : HostLane) (s : State) : Out :=
  .next (if s.rd .hifState h = 1 then s.hifFault h 1 else s)

/-- TRAINING_FRAME_RX: the host's request is applied within the limits of R260 and answered. -/
def execTrainingFrameRx (h : HostLane) (req : TrainReq) (advertises : Bool) (s : State) : Out :=
  .next (if s.rd .hifState h = 2 ∧ s.on .hifTrnEn h then
    let s := s.when advertises (fun t => t.wr .hifHostAdv 1 h)
    match req with
    | .hold => s.wr .hifTrnAnswer 0 h
    | .step tap d =>
      let want := s.rdInt .hifTxTap h tap + d
      let s := s.hifSetTap h tap want
      s.wr .hifTrnAnswer (if s.rdInt .hifTxTap h tap = want then 1 else 2) h
    | .preset taps =>
      let new := (List.range 5).map (fun i => (i, taps.getD i 0))
      let s := s.each (List.range 5) (fun i t => t.wr .hifTxTap (if i = 3 then 512 else 0) h i)
      let s := s.each (new.filter (fun e => e.1 = 3)) (fun e t => t.hifSetTap h e.1 e.2)
      let s := s.each (new.filter (fun e => e.1 ≠ 3)) (fun e t => t.hifSetTap h e.1 e.2)
      s.wr .hifTrnAnswer (if new.all (fun e => s.rdInt .hifTxTap h e.1 = e.2) then 1 else 2) h
  else s)

/-- The adaptation ends: the lane reports receiver ready if FOM has reached FOM_READY, else it holds the report (R256, R261). -/
def State.hifTuneEnd (s : State) (h : Nat) : State :=
  (s.puts [(.hifTrnPhase, 3), (.hifTuneStage, 0), (.hifTrnAsk, 0), (.hifTrnAskArg, 0)] h).wrb .hifLocalReady
    (decide (s.rd .hifFomReady h ≤ s.rd .hifRxFom h)) h

/-- The taps that the tuning passes over, as HIF_TX_TAP numbers them: first pre-cursor, first post-cursor, then the other
pre-cursors from the nearest outwards (R260, R261). -/
def tuneTaps : List Nat := [2, 4, 1, 0]

/-- A request of the tuning for its present tap, 2 increment or 3 decrement, after which `next` follows; with TRN_MAX_REQ requests
sent the tuning ends instead (R261). -/
def State.hifTuneAsk (s : State) (h kind : Nat) (next : State → State) : State :=
  if s.rd .hifTrnMaxReq h ≤ s.rd .hifTrnReqs h then s.hifTuneEnd h
  else next ((s.bump .hifTrnReqs h).puts [(.hifTrnAsk, kind), (.hifTrnAskArg, tuneTaps.getD (s.rd .hifTuneTap h) 0)] h)

/-- One increment of the present tap is requested (R261). -/
def State.hifTuneTry (s : State) (h : Nat) : State := s.hifTuneAsk h 2 (fun t => t.wr .hifTuneStage 1 h)

/-- The next tap; a pass without a kept step ends the tuning (R261). -/
def State.hifTuneNext (s : State) (h : Nat) : State :=
  let last := s.rd .hifTuneTap h = 3
  if last ∧ !s.on .hifTuneKept h then s.hifTuneEnd h
  else
    let s := s.when last (fun t => t.wr .hifTuneKept 0 h)
    (s.wr .hifTuneTap (if last then 0 else s.rd .hifTuneTap h + 1) h).hifTuneTry h

/-- One FOM window of the tuning after the host's acknowledgement: a step that raised FOM by 0.10 dB stays, an increment that
did not gives way to a decrement, and a decrement that did not to the original value, whose FOM stays the one to exceed (R261). -/
def State.hifTuneStep (s : State) (h : Nat) : State :=
  let fom := s.rd .hifRxFom h
  if 10 * s.rd .hifTuneFom h + 256 ≤ 10 * fom then (s.puts [(.hifTuneKept, 1), (.hifTuneFom, fom)] h).hifTuneNext h
  else if s.rd .hifTuneStage h = 1 then
    s.hifTuneAsk h 3 (fun t => t.hifTuneAsk h 3 (fun u => u.wr .hifTuneStage 2 h))
  else s.hifTuneAsk h 2 (fun t => t.hifTuneNext h)

/-- The first request of the tuning: one increment of the first tap (R261). -/
def State.hifTuneFirst (s : State) (h : Nat) : State := (s.wr .hifTuneFom (s.rd .hifRxFom h) h).hifTuneTry h

/-- One FOM window of the CTLE sweep (R257); at its end tuning starts, or with TRN_EN 0 the adaptation ends (R262). -/
def State.hifSweepStep (s : State) (h : Nat) : State :=
  let fom := s.rd .hifRxFom h
  let code := s.rd .hifRxCtle h
  let s := s.when (decide (s.rd .hifTrnSweepFom h < fom + 1))
    (fun t => t.puts [(.hifTrnSweepFom, fom + 1), (.hifTrnSweepCode, code)] h)
  if !s.on .hifSweepMan h ∧ code < s.rd .hifSweepMax h then s.wr .hifRxCtle (code + 1) h
  else
    let s := s.when (!s.on .hifSweepMan h) (fun t => t.wr .hifRxCtle (t.rd .hifTrnSweepCode h) h)
    if !s.on .hifTrnEn h then s.hifTuneEnd h
    else s.puts [(.hifTrnPhase, 2), (.hifTuneTap, 0), (.hifTuneStage, 0), (.hifTuneFom, fom), (.hifTuneKept, 0)] h

/-- The sign-data update of the host DFE with MU_SH 12; held below warning and while ADAPT_EN is 0, taps at 0 with
DFE_EN 0 (R140, R255, R257, R282). -/
def State.hifDfe (s : State) (h : Nat) (accD1 accD2 : Int) : State :=
  if s.use .hifDfeEn h = 0 then s.puts [(.hifDfeD1, 0), (.hifDfeD2, 0)] h
  else if s.on .hifAdaptEn h && !s.warning then
    (s.wrInt .hifDfeD1 (clampInt (-0x73) 0x73 (s.rdInt .hifDfeD1 h + roundHalfAway accD1 4096)) h).wrInt .hifDfeD2
      (clampInt (-64) 64 (s.rdInt .hifDfeD2 h + roundHalfAway accD2 4096)) h
  else s

/-- The fast update of the VGA with AGC_SH 1 in TRAIN, round_half_away(E * 8 / 2): `err` is the level error of the slicer in
1/256 dB; the code keeps to the range of R84 (R89, R255; DEDUCED, log entry 63). -/
def State.hifVgaStep (s : State) (h : Nat) (err : Int) : State :=
  if s.on .hifVgaFrozen h then s
  else s.wr .hifVga (clampInt 0 192 ((s.rd .hifVga h : Int) - roundHalfAway err 64)).toNat h

/-- What a window does in training. Below warning no request goes out: neither the preset that starts the sweep nor a tap
request. With TRN_EN 0 the receiver is ready once a window finds FOM at FOM_READY (R257, R261, R262, R282). -/
def State.hifTrainWindow (s : State) (h : Nat) (acked : Bool) : State :=
  match s.rd .hifTrnPhase h with
  | 1 =>
    if s.on .hifTrnEn h && s.rd .hifTrnReqs h == 0 then s.hifAskPreset h
    else s.hifSweepStep h
  | 2 =>
    if s.warning then s
    else if s.rd .hifTuneStage h = 0 then s.hifTuneFirst h
    else if acked then s.hifTuneStep h else s
  | 3 => s.when (!s.on .hifTrnEn h) (fun t => t.wrb .hifLocalReady (decide (s.rd .hifFomReady h ≤ s.rd .hifRxFom h)) h)
  | _ => s

/-- HOST_FOM_WINDOW_END: FOM from the window's mean square error, the level and the DFE, then the sweep or the tuning
(R255 to R257, R261). -/
def execHostFomWindowEnd (h : HostLane) (errSq : Nat) (acked : Bool) (lvl accD1 accD2 : Int) (s : State) : Out :=
  let st := s.rd .hifState h
  .next (if (st = 2 ∨ st = 3 ∨ st = 4) ∧ s.rd .hifSleepRx h = 0 then
    let r := s.fomOf errSq
    let s := ((r.2.puts [(.hifRxFom, r.1), (.hifRxValid, 1)] h).hifDfe h accD1 accD2).hifVgaStep h lvl
    if st = 2 then s.hifTrainWindow h acked else s
  else s)

/-- TRAINING_COMPLETE: both ends are ready; TX_READY, then ALIGN or Extended Host Mode (R252, R261, R262, R264). -/
def execTrainingComplete (h : HostLane) (s : State) : Out :=
  .next (if s.rd .hifState h = 2 ∧ s.on .hifLocalReady h then
    let s := (s.wr .hifTxReady 1 h).raise .hifIntStatus Irq.hifTxReady h
    match s.lineOf h with
    | none => s.hifToAlign h
    | some n =>
      let g := s.groupOf n
      if s.ehm g.lead = 2 ∨ s.ehmOffers g then (s.wr .hifTrnDone 1 h).groupTrained g
      else
        let s := s.when (g.extended && s.ehm g.lead != 4) (fun t => t.setEhm g 1)
        s.hifToAlign h
  else s)

/-- TRAINING_ATTEMPT_FAIL: the attempt counts and a new one starts, or the lane enters FAULT; an attempt of extended
training falls back and is not counted (R253, R264). -/
def execTrainingAttemptFail (h : HostLane) (s : State) : Out :=
  .next (if s.rd .hifState h = 2 then
    if s.on .hifRate h then s.ehmFallback (s.groupOf ((s.lineOf h).getD 0))
    else
      let s := (s.bump .hifTrnFailCnt h).raise .hifIntStatus Irq.hifTrnFail h
      if s.rd .hifTrnRetryMax h < s.rd .hifTrnRetry h + 1 then s.hifFault h 2
      else (s.wr .hifTrnRetry (s.rd .hifTrnRetry h + 1) h).hifTrainStart h
  else s)

/-- EHM_TRAIN_TIMEOUT: extended training of the group of lane `n` did not complete (R264). -/
def execEhmTrainTimeout (n : Lane) (s : State) : Out :=
  .next (if s.ehm n = 2 then s.ehmFallback (s.groupOf n) else s)

/-! ## Alignment (R251, R270 to R272) -/

/-- The deskew of an Ethernet pair for a skew of `k` bits: the earlier lane waits in its buffer for |k| bits and the later one
passes; AM lock sets the delays, which SLIP_POS shows (R271, R276). -/
def State.deskewPut (s : State) (a b : Nat) (k : Int) : State :=
  (s.wr .hifSlipPos k.toNat a).wr .hifSlipPos (-k).toNat b

/-- The skew of an Ethernet pair after an AM of one of its lanes, the deskew range, and the pause of a shift of more
than 2 bits, which the next AM ends with the new delays (R271). -/
def State.pairSkew (s : State) (n : Nat) : State :=
  if s.rd .hifGlbMapGbMode 0 n = 0 ∧ s.on .hifGlbMapBValid 0 n then
    let a := s.rd .hifGlbMapHostA 0 n
    let b := s.rd .hifGlbMapHostB 0 n
    if s.on .hifAmLock a && s.on .hifAmLock b then
      let old := s.rdInt .hifGlbPairSkew 0 n
      let k : Int := (s.rd .hifAmArrival b : Int) - s.rd .hifAmArrival a
      let s := s.wrInt .hifGlbPairSkew (clampInt (-32768) 32767 k) 0 n
      if 12288 < k.natAbs then
        let s := (s.wr .hifGlbPairDeskewOvr 1 0 n).raise .hifGlbIntStatus Irq.hifGlbDeskewOvr
        (s.hifFault (if 0 < k then b else a) 4).pairFollow
      else
        let shifted := s.on .hifPairRun 0 n && decide (2 < (k - old).natAbs)
        let s := ((s.wr .hifGlbPairDeskewOvr 0 0 n).wrb .hifPairHold shifted 0 n).pairFollow
        s.when (!shifted) (fun t => t.deskewPut a b k)
    else s
  else s

/-- The gearbox forms the stream from the first AM after PAIR_READY (R272). -/
def State.pairGearbox (s : State) (n : Nat) (wasReady : Bool) : State :=
  s.when (wasReady && s.on .hifGlbPairReady 0 n) (fun t => t.wr .hifPairRun 1 0 n)

/-- AM_PERIOD: lock, loss of lock, the lane's arrival time and its pair's skew at one AM period; the drift corrections
of its points apply. In the cycle of a loss of CDR lock a loss of AM lock is counted, and the lane acts on the former (R252, R270
to R272, R281, R291). -/
def execAmPeriod (h : HostLane) (errBits : Nat) (samePos : Bool) (arrival : Nat) (s : State) : Out :=
  let st := s.rd .hifState h
  .next (match s.lineOf h with
  | none => s
  | some n =>
    if (st = 3 ∨ st = 4) ∧ !s.transparent n ∧ s.on .hifCdrLock h ∧ s.rd .hifSleepRx h = 0 then
      let s := (s.driftApply (16 + h)).driftApply (32 + h)
      let found := decide (errBits ≤ s.rd .hifAmTol)
      let wasReady := s.on .hifGlbPairReady 0 n
      let s :=
        if !s.on .hifAmLock h then
          let k := if found then (if samePos then s.rd .hifAmMatch h + 1 else 1) else 0
          if 2 ≤ k then
            let s := s.puts [(.hifAmLock, 1), (.hifAmMatch, 0), (.hifAmMiss, 0), (.hifAmArrival, arrival)] h
            if s.rd .hifState h = 3 then s.hifSet h 4 else s
          else s.wr .hifAmMatch k h
        else if found && samePos then s.puts [(.hifAmMiss, 0), (.hifAmArrival, arrival)] h
        else if s.rd .hifAmMiss h < 3 then s.wr .hifAmMiss (s.rd .hifAmMiss h + 1) h
        else
          ((s.bump .hifAmLolCnt h).raise .hifIntStatus Irq.hifAmLol h).hifToAlign h
      (s.pairSkew n).pairGearbox n wasReady
    else if s.rd .hifLossAt h = s.now + 1 ∧ s.on .hifRelockRun h ∧ !(errBits ≤ s.rd .hifAmTol ∧ samePos) then
      ((s.wr .hifLossAt 0 h).bump .hifAmLolCnt h).raise .hifIntStatus Irq.hifAmLol h
    else s)

/-- ALIGN_TIMEOUT: ALIGN_TMO_US without AM lock, Ethernet only (R251). -/
def execAlignTimeout (h : HostLane) (s : State) : Out :=
  .next (if s.rd .hifState h = 3 ∧ !s.transparent ((s.lineOf h).getD 0) then s.hifFault h 3 else s)

/-! ## Clock recovery (R258) -/

/-- A loss of lock of the host CDR in ALIGN or READY; a loss of AM lock that the same cycle may bring is still to count (R258,
R281). -/
def State.hifCdrLoss (s : State) (h : Nat) : State :=
  let due := s.on .hifAmLock h && s.rd .hifAmMiss h == 3
  let s := s.wr .hifLossAt (if due then s.now + 1 else 0) h
  let s := (s.bump .hifCdrLolCnt h).raise .hifIntStatus Irq.hifCdrLol h
  (s.hifRelock h).faultEvent 10 h

/-- The gains of the host CDR in use, and the integral path after an interval of 850 host cycles (R258). -/
def State.hifCdrRun (s : State) (h : Nat) (errs : List Int) : State × CdrLoop :=
  let a := CdrLoop.run (s.use .hifKpSh h) (s.use .hifKiSh h) ⟨s.rdInt .hifCdrInt h, 0, 0, 0⟩ 850 errs
  ((s.wrInt .hifCdrInt a.integ h).wrInt .hifCdrFreq (cdrFreqOf (hostUi (s.rd .hifRate h)) a.integ) h, a)

/-- The host CDR locks: the wait of RELOCK_US ends, and a transparent lane whose ALIGN_DONE is 1 leaves ALIGN (R254, R258,
R277). -/
def State.hifCdrLocked (s : State) (h : Nat) : State :=
  let s := s.puts [(.hifCdrLock, 1), (.hifQuietInt, 0), (.hifRelockRun, 0)] h
  if s.rd .hifState h = 3 then s.hifAmDone h else s

/-- HOST_CDR_LOCK_INTERVAL: the end of an interval of 850 host cycles with the timing error of each in 2^-16 UI; lock and
loss of lock (R102, R105, R258). -/
def execHostCdrLockInterval (h : HostLane) (errs : List Int) (s : State) : Out :=
  let st := s.rd .hifState h
  .next (if (st = 2 ∨ st = 3 ∨ st = 4) ∧ s.rd .hifSleepRx h = 0 then
    let old := s.rdInt .hifCdrInt h
    let ui := hostUi (s.rd .hifRate h)
    let r := s.hifCdrRun h errs
    let s := r.1
    if s.on .hifCdrLock h then
      if cdrLost ui r.2 then
        let s := s.puts [(.hifCdrLock, 0), (.hifQuietInt, 0)] h
        if st = 2 then s else s.hifCdrLoss h
      else s
    else if cdrQuiet ui old r.2.integ && cdrInRange ui r.2.integ then
      if 7 ≤ s.rd .hifQuietInt h then s.hifCdrLocked h else s.wr .hifQuietInt (s.rd .hifQuietInt h + 1) h
    else s.wr .hifQuietInt 0 h
  else s)

/-- RELOCK_TIMEOUT: the CDR did not lock again within RELOCK_US (R254, R258). -/
def execRelockTimeout (h : HostLane) (s : State) : Out :=
  .next (if s.on .hifRelockRun h ∧ !s.on .hifCdrLock h then s.hifFault h 6 else s)

/-- HOST_FAULT_AUTO_RESTART: 1,000 µs after the entry the lane restarts into its cause's state (R254). -/
def execHostFaultAutoRestart (h : HostLane) (s : State) : Out :=
  .next (if s.rd .hifState h = 7 ∧ s.on .hifRestartArm h ∧ s.on .hifAutoRestart h then
    match s.rd .hifFaultCause h with
    | 1 => s.hifToCal h
    | 4 | 5 => s.hifRelock h
    | _ => s.hifToTrain h
  else s)

/-! ## Sleep and the RS monitor (R278 to R280) -/

/-- HOST_SLEEP_WAKE: a sleeping direction wakes; a receive wake that fails its check counts WARM_FAIL and aligns or
trains again; a record that fails its CRC takes the lane to CAL (R280, R382). -/
def execHostSleepWake (h : HostLane) (tx ok relocked recOk : Bool) (s : State) : Out :=
  .next (if s.rd (if tx then .hifSleepTx else .hifSleepRx) h = 2 ∧ !recOk then (s.recordBad .hif h).hifToCal h
  else if tx then
    if s.on .hifSleepTx h then (s.puts [(.hifSleepTx, 0), (.hifWakeTx, 0)] h).raise .hifIntStatus Irq.hifStateChg h else s
  else if s.on .hifSleepRx h then
    let s := (s.puts [(.hifSleepRx, 0), (.hifWakeRx, 0)] h).raise .hifIntStatus Irq.hifStateChg h
    if ok then s
    else
      let s := s.bump .hifWarmFailCnt h
      if relocked then s.hifToAlign h else (s.wr .hifCdrLock 0 h).hifToTrain h
  else s)

/-- RS_CODEWORD_MONITOR: one RS(544,514) codeword of an Ethernet group, counted only (R2, R278, R279). `symErr` is the
number of symbol errors, none where the decoder cannot correct it. -/
def execRsCodewordMonitor (n : Lane) (egress inRange : Bool) (symErr : Option (Fin 16)) (s : State) : Out :=
  let g := s.groupOf n
  let i := 2 * g.lead + bit egress
  .next (if g.payload = .transparent then s
  else if !s.monLanes g egress then s.wr .hifGlbRsMonLock 0 0 i
  else if !inRange then
    let s := s.when (!s.on .hifGlbRsMonSkew 0 i) (fun t => t.raise .hifGlbIntStatus Irq.hifGlbMonSkew)
    (s.wr .hifGlbRsMonSkew 1 0 i).wr .hifGlbRsMonLock 0 0 i
  else
    let total := min (s.rd .hifGlbRsCwTotalLo 0 i + s.rd .hifGlbRsCwTotalHi 0 i * 2 ^ 32 + 1) (2 ^ 48 - 1)
    let s := (s.wr .hifGlbRsMonSkew 0 0 i).wr .hifGlbRsMonLock 1 0 i
    let s := (s.wr .hifGlbRsCwTotalLo (total % 2 ^ 32) 0 i).wr .hifGlbRsCwTotalHi (total / 2 ^ 32) 0 i
    match symErr with
    | none => s.bump .hifGlbRsCwUncorr 0 i
    | some e => if e.val = 0 then s else (s.bump .hifGlbRsCwCorr 0 i).bump .hifGlbRsSymErr 0 i e)

end Sys2Proof.Machine
end

