-- ==== Sys2Proof/Machine/Power.lean ====
section
/-!
DEFINITION. The commands and events of the power controller: sleep requests and votes, Standby and Deep, DVFS, supply
and reset events, domain stagger (R362 to R393, R476).
-/
namespace Sys2Proof.Machine

/-! ## Choice of states and votes (R366, R367, R377 to R381) -/

/-- The deepest of the candidates (state code, latency in µs) that a budget admits (R364, R367). -/
def pickState (budget : Nat) (l : List (Nat × Nat)) : Nat :=
  match l.find? (fun c => decide (c.2 ≤ budget)) with
  | some c => c.1
  | none => 0

/-- State a line receiver should take (R367). -/
def State.lrxCandidate (s : State) (n : Nat) : Nat :=
  if s.rd .lrxState n = 4 ∨ s.rd .lrxState n = 5 then pickState (s.rd .pwrLnIngBudgetUs n) [(5, 150), (4, 8)] else 0

/-- State a line transmitter should take (R187, R367). -/
def State.ltxCandidate (s : State) (n : Nat) : Nat :=
  if s.rd .ltxState n = 4 ∧ !s.on .ltxWakeSend n then
    pickState (s.rd .pwrLnEgrBudgetUs n) ((if s.rd .ltxDrvSettleUs n ≤ 85 then [(3, 120)] else []) ++ [(2, 5)])
  else 0

/-- State a host lane of a direction should take (R367). -/
def State.hifCandidate (s : State) (n h : Nat) (egress : Bool) : Nat :=
  if s.rd .hifState h = 4 then
    if egress then pickState (s.rd .pwrLnEgrBudgetUs n) [(5, 150), (4, 8)]
    else pickState (s.rd .pwrLnIngBudgetUs n) [(3, 120), (2, 5)]
  else 0

/-- The blocks of a direction that have a deeper state to take, in commit order (R367, R378). -/
def State.sleepPlan (s : State) (n : Nat) (egress : Bool) : List SleepStep :=
  let deeper := fun (h : Nat) => !s.on (hostWakeField egress) h && decide (s.hostPstate egress h < s.hifCandidate n h egress)
  let hosts := ((s.activeHosts n).filter deeper).map (fun h => (⟨⟨4, h⟩, egress, s.hifCandidate n h egress⟩ : SleepStep))
  let c := if egress then s.ltxCandidate n else s.lrxCandidate n
  let waking := s.on (if egress then .ltxNapWake else .lrxWakeRun) n
  let line := !waking && decide (s.linePstate n egress < c)
  if hosts.isEmpty && !line then []
  else if egress then (if line then [⟨⟨3, n⟩, true, c⟩] else []) ++ [⟨⟨2, n⟩, true, 0⟩] ++ hosts
  else hosts ++ [⟨⟨2, n⟩, false, 0⟩] ++ (if line then [⟨⟨1, n⟩, false, c⟩, ⟨⟨0, n⟩, false, c⟩] else [])

/-- The blocks of a device transition: each lane's egress, then its ingress, lanes ascending, then the host lanes that the
crossbar maps to no lane (DESIGN CHOICE, log entry 12), then the device-wide voters (R377, R378). -/
def State.devicePlan (s : State) (target : Nat) : List SleepStep :=
  let hosts := fun (e : Bool) (l : List Nat) => l.map (fun h => (⟨⟨4, h⟩, e, target⟩ : SleepStep))
  let free := (List.range 16).filter (fun h => (s.lineOf h).isNone)
  (List.range 8).flatMap (fun n =>
    [⟨⟨3, n⟩, true, target⟩, ⟨⟨2, n⟩, true, target⟩] ++ hosts true (s.hostsOf n) ++ hosts false (s.hostsOf n) ++
      [⟨⟨2, n⟩, false, target⟩, ⟨⟨1, n⟩, false, target⟩, ⟨⟨0, n⟩, false, target⟩]) ++
    hosts true free ++ hosts false free ++
    [⟨⟨5, 0⟩, false, target⟩, ⟨⟨6, 0⟩, false, target⟩, ⟨⟨7, 0⟩, false, target⟩, ⟨⟨8, 0⟩, false, target⟩]

/-- The unit of a block is under test (R424). -/
def State.voterTested (s : State) (v : Voter) : Bool :=
  if v.block = 4 then s.underTest 2 (v.inst / 4)
  else if v.block ≤ 3 then s.underTest 1 v.inst || s.underTest 4 v.inst else false

/-- PREPARE ends the test of a voting block: its preempt flag is set, or LPMODE or DEEP asks for the transition of the device, which
always preempt (R423, R424). -/
def State.voterFlag (s : State) (v : Voter) (device : Bool) : Bool :=
  if device ∧ (s.rd .pwrDevTarget = 7 ∨ (s.on .pwrLpmode ∧ s.on .pwrLpmodeEn)) then true
  else if v.block = 4 then s.maskBit .hltSvcPreemptHost v.inst else s.maskBit .hltSvcPreemptLine v.inst

/-- Why a voter refuses, as the REASON code of R393 (R377). On the way from Standby to Deep every lane is in OFF already, so
the lane voters have nothing to refuse (R374; DEDUCED, log entry 12). -/
def State.refusal (s : State) (v : Voter) : Option Nat :=
  let low := decide (s.rd .pwrDevState = 2)
  match v.block with
  | 0 => if low ∨ s.rd .lrxState v.inst = 4 ∨ s.rd .lrxState v.inst = 5 then none
    else some 1
  | 1 => if s.on .leqCommit v.inst then some 2 else none
  | 2 =>
    if low then none
    else if s.rd .lfrProfStatus v.inst = 1 then some 3
    else if s.rd .lfrNegState v.inst ≠ 3 then some 4
    else if (s.rd .imgState = 4 ∨ s.rd .imgState = 5) ∧ s.maskBit .imgPcLanes v.inst then some 6
    else none
  | 3 =>
    if low then none
    else if s.rd .ltxState v.inst ≠ 4 then some 1
    else if s.on .ltxWakeSend v.inst || s.on .ltxWakeRun v.inst then some 5
    else if s.on .ltxCommit v.inst then some 2
    else none
  | 4 =>
    if low then none
    else if s.rd .hifState v.inst ≠ 4 then some 1
    else if s.on .hifCommit v.inst then some 2
    else none
  | 5 => if 3 ≤ s.rd .imgState then some 6 else none
  | 7 => if s.on .timTodGo then some 8 else none
  | 8 => if s.on .optSaveBusy || s.on .secNvmBusy || s.rd .secPhase == 2 then some 9 else none
  | _ => none

/-- Object code of a vote (R393). -/
def voteObj : VoteObject → Nat
  | .lane n _ => n
  | .device => 8

/-- Direction of a vote. -/
def voteEgress : VoteObject → Bool
  | .lane _ e => e
  | .device => false

/-- Phase of a vote: 0 idle, 1 PREPARE, 2 COMMIT, 3 asleep. -/
def State.phaseOf (s : State) : VoteObject → Nat
  | .lane n e => s.rd (if e then .pwrLnEgrPhase else .pwrLnIngPhase) n
  | .device => s.rd .pwrDevPhase

/-- Set the phase of a vote. -/
def State.setPhase (s : State) (o : VoteObject) (p : Nat) : State :=
  match o with
  | .lane n e => s.wr (if e then .pwrLnEgrPhase else .pwrLnIngPhase) p n
  | .device => s.wr .pwrDevPhase p

/-- The request that a vote serves still stands. -/
def State.requested (s : State) : VoteObject → Bool
  | .lane n e => s.on (if e then .pwrLnEgrSleep else .pwrLnIngSleep) n
  | .device => (s.on .pwrLpmode && s.on .pwrLpmodeEn) || s.on .pwrStandbySw || s.rd .pwrDevTarget == 7

/-- The blocks of a vote, in commit order. -/
def State.planOf (s : State) : VoteObject → List SleepStep
  | .lane n e => s.sleepPlan n e
  | .device => s.devicePlan (s.rd .pwrDevTarget)

/-- State sought, for PWR_LAST_REFUSAL. -/
def planTarget (l : List SleepStep) : Nat := l.foldl (fun a st => max a st.target) 0

/-- Record a refusal and arm the retry (R379, R380, R453). -/
def State.recordRefusal (s : State) (o : VoteObject) (v : Voter) (reason target : Nat) (late : Bool) : State :=
  let s := s.puts [(.pwrRefLate, bit late), (.pwrRefTarget, target), (.pwrRefObject, voteObj o), (.pwrRefVoter, v.block),
    (.pwrRefInstance, v.inst), (.pwrRefReason, reason)]
  let s := (s.bump .pwrRefusalCnt).raise .pwrIntStatus Irq.pwrRefusal
  let s := s.emit 0x05 (voteObj o) [target * 2 ^ 24 + voteObj o * 2 ^ 16 + v.block * 2 ^ 12 + v.inst * 2 ^ 8 + reason,
    bit late]
  match o with
  | .lane n e => s.wr (if e then .pwrEgrRetryArm else .pwrIngRetryArm) 1 n
  | .device => s.wr .pwrDevRetryArm 1

/-- Where the phase of a vote rests when no vote runs (R379). -/
def State.rest (s : State) : VoteObject → Nat
  | .lane n e => s.restPhase n e
  | .device => 0

/-- A transition may start: no supply warning, the device Active, no retry due and none given up. From Standby the device votes
for Deep alone (R374, R380, R381). -/
def State.voteStart (s : State) (o : VoteObject) : State :=
  if s.warning then s
  else match o with
  | .lane n e =>
    if s.rd .pwrDevState = 0 ∧ !(s.planOf o).isEmpty ∧ (s.phaseOf o = 0 ∨ s.phaseOf o = 3) ∧
        !s.on (if e then .pwrLnEgrGiveup else .pwrLnIngGiveup) n ∧ !s.on (if e then .pwrEgrRetryArm else .pwrIngRetryArm) n then
      s.setPhase o 1
    else s
  | .device =>
    let deep := s.rd .pwrDevTarget = 7
    if s.on .pwrDevPhase ∨ s.on .pwrDevGiveup ∨ s.on .pwrDevRetryArm then s
    else if s.rd .pwrDevState = 0 then (s.when (!decide deep) (fun t => t.wr .pwrDevTarget 6)).setPhase o 1
    else if s.rd .pwrDevState = 2 ∧ deep then s.setPhase o 1
    else s

/-- A fresh request for the device transition: GIVEUP and the retries clear, and its vote starts (R372, R374, R380). -/
def State.deviceRequest (s : State) (target : Nat) : State :=
  (s.puts [(.pwrDevTarget, target), (.pwrDevRetry, 0), (.pwrDevGiveup, 0), (.pwrDevRetryArm, 0)]).voteStart .device

/-- SLEEP_REQUEST: ING_SLEEP or EGR_SLEEP written 1; a change from 0 clears GIVEUP and the retries (R366, R380, R423). -/
def State.sleepRequest (s : State) (n : Nat) (egress : Bool) : State :=
  let f : Field := if egress then .pwrLnEgrSleep else .pwrLnIngSleep
  let fresh := !s.on f n
  let s := s.wr f 1 n
  let s := s.when fresh (fun t => t.puts (if egress then [(.pwrLnEgrGiveup, 0), (.pwrLnEgrRetry, 0), (.pwrEgrRetryArm, 0)]
    else [(.pwrLnIngGiveup, 0), (.pwrLnIngRetry, 0), (.pwrIngRetryArm, 0)]) n)
  if n < 8 then s.voteStart (.lane (Fin.ofNat 8 n) egress) else s

/-- SLEEP_REQUEST (R366). -/
def execSleepRequest (n : Lane) (egress : Bool) (s : State) : Out :=
  .next (s.access .pwrLn n (fun s => s.laneService n (.sleep n egress) (fun t => t.sleepRequest n egress)))

/-- SLEEP_REQUEST_CLEAR: the whole direction wakes, source MANAGEMENT (R367, R369, R381). -/
def execSleepRequestClear (n : Lane) (egress : Bool) (s : State) : Out :=
  .next (s.access .pwrLn n (fun s =>
    let s := { s.wr (if egress then .pwrLnEgrSleep else .pwrLnIngSleep) 0 n with
      deferred := s.deferred.filter (· ≠ SvcReq.sleep n egress) }
    s.wakeDir 3 n egress))

/-- Wake latency of a lane state, us (R364). -/
def stateLatency (p : Nat) : Nat :=
  match p with
  | 1 => 3
  | 2 => 5
  | 3 => 120
  | 4 => 8
  | 5 => 150
  | _ => 0

/-- The blocks whose state's latency exceeds a new budget wake, source MANAGEMENT; a vote for such a state is abandoned and
the direction wakes (R367, R371, R381). -/
def State.budgetWake (s : State) (n : Nat) (egress : Bool) : State :=
  let b := s.rd (if egress then .pwrLnEgrBudgetUs else .pwrLnIngBudgetUs) n
  let tooSlow (p : Nat) : Bool := decide (b < stateLatency p)
  if s.votes.any (fun v => v.obj == n && v.egress == egress && (v.todo ++ v.done).any (fun st => tooSlow st.target)) then
    let s := s.wakeDir 3 n egress
    s.when (!egress && tooSlow 1) (fun t => t.trimEnd n)
  else
    let s := s.wakeRecords 3 n egress tooSlow
    let s := s.when (tooSlow (s.linePstate n egress)) (fun t => t.wakeLine n egress)
    let s := s.each (s.hostsOf n) (fun h t => t.when (tooSlow (t.hostPstate egress h)) (fun u => u.wakeHost h egress))
    let s := s.when (!egress && tooSlow 1) (fun t => t.trimEnd n)
    s.when (s.rd (phaseField egress) n == 3) (fun t => t.wr (phaseField egress) (t.restPhase n egress) n)

/-- BUDGET_WRITE: GIVEUP and the retries clear, blocks above the budget wake, and the choice is made again (R366, R367,
R380). -/
def execBudgetWrite (n : Lane) (egress : Bool) (us : BitVec 16) (s : State) : Out :=
  .next (s.access .pwrLn n (fun s =>
    let s := s.puts (if egress then [(.pwrLnEgrBudgetUs, us.toNat), (.pwrLnEgrGiveup, 0), (.pwrLnEgrRetry, 0), (.pwrEgrRetryArm, 0)]
      else [(.pwrLnIngBudgetUs, us.toNat), (.pwrLnIngGiveup, 0), (.pwrLnIngRetry, 0), (.pwrIngRetryArm, 0)]) n
    let s := s.budgetWake n egress
    if s.requested (.lane n egress) then s.voteStart (.lane n egress) else s))

/-- VOTE_PREPARE: every voter answers; a refusal is recorded, else COMMIT begins; a request that stands with a
candidate and no vote running is evaluated again (R367, R377 to R379, R381, R424). -/
def execVotePrepare (obj : VoteObject) (s : State) : Out :=
  let s := if s.requested obj && s.phaseOf obj != 1 then s.voteStart obj else s
  .next (if s.phaseOf obj = 1 then
    if !s.requested obj then s.setPhase obj (s.rest obj)
    else
      let plan := s.planOf obj
      let tested := plan.filter (fun st => s.voterTested st.voter)
      match tested.find? (fun st => !s.voterFlag st.voter (obj == .device)) with
      | some st => (s.recordRefusal obj ⟨6, st.voter.inst⟩ 7 (planTarget plan) false).setPhase obj (s.rest obj)
      | none =>
        if !tested.isEmpty then
          s.each tested (fun st t => if st.voter.block = 4 then t.endTest 2 (st.voter.inst / 4) .hltAbortCnt
            else (t.endTest 1 st.voter.inst .hltAbortCnt).endTest 4 st.voter.inst .hltAbortCnt)
        else match plan.find? (fun st => (s.refusal st.voter).isSome) with
        | some st =>
          (s.recordRefusal obj st.voter ((s.refusal st.voter).getD 0) (planTarget plan) false).setPhase obj (s.rest obj)
        | none =>
          let v : Vote := ⟨voteObj obj, voteEgress obj, planTarget plan, plan, []⟩
          ({ s with votes := s.votes.filter (fun (w : Vote) => !(w.obj == v.obj && w.egress == v.egress)) ++ [v]
            }).setPhase obj 2
  else s)

/-- VOTE_TIMEOUT: a voter that does not answer refuses with TIMEOUT (R378). -/
def execVoteTimeout (obj : VoteObject) (block : Fin 9) (inst : Fin 16) (s : State) : Out :=
  .next (if s.phaseOf obj = 1 then
    (s.recordRefusal obj ⟨block, inst⟩ 10 (planTarget (s.planOf obj)) false).setPhase obj (s.rest obj)
  else s)

/-- A block saves its retention record and enters its state; a line RX that sleeps ends Trim, one of whose conditions is that it
does not (R121, R186, R280, R367, R378, R382). -/
def State.commitBlock (s : State) (st : SleepStep) : State :=
  let n := st.voter.inst
  match st.voter.block with
  | 0 =>
    let s := (s.lrxAbandon n).trimEnd n
    let s := s.puts [(.lrxSleep, 1), (.pwrLnLrxPstate, st.target), (.lrxWakeRun, 0), (.lrxCapWin, 0), (.lrxDropWin, 0)] n
    let s := s.when (st.target == 5) (fun t => t.saveRecord .lrx n)
    s.leqFollow n
  | 1 => s.when (st.target == 5) (fun t => t.saveRecord .leq n)
  | 3 =>
    let s := s.ltxAbandon n
    let s := (s.puts [(.ltxSleep, st.target - 1), (.pwrLnLtxPstate, st.target), (.ltxNapWake, 0), (.ltxMuted, 1)] n).raise
      .ltxIntStatus Irq.ltxStateChg n
    let s := s.when (st.target == 3) (fun t => t.saveRecord .ltx n)
    (s.when (st.target == 3) (fun t => t.puts [(.ltxDrvEn, 0), (.ltxDacOn, 0)] n)).maskDiscard n
  | 4 =>
    let k := if st.egress then st.target - 3 else st.target - 1
    let s := (s.wr (hostSleepField st.egress) k n).raise .hifIntStatus Irq.hifStateChg n
    s.when (k == 2) (fun t => t.saveRecord .hif n)
  | _ => s

/-- A block of a device transition saves its record and enters its state: the transmit runs the disable sequence, the lane goes to
OFF with ENABLE kept; a host lane with its second direction (R372, R378, R382). -/
def State.commitDevice (s : State) (st : SleepStep) : State :=
  let n := st.voter.inst
  match st.voter.block with
  | 0 => (s.laneSave n false).lrxOff n
  | 3 => (s.laneSave n true).ltxDisable n
  | 4 => if st.egress then s else s.hifOff n
  | _ => s

/-- The end of a transition's COMMIT phase (R372, R374, R378). -/
def State.voteEnd (s : State) (o : VoteObject) (target : Nat) : State :=
  let s := { s with votes := s.votes.filter (fun (w : Vote) => !(w.obj == voteObj o && w.egress == voteEgress o)) }
  match o with
  | .lane n e => (s.setPhase o 3).wr (if e then .pwrEgrAsleepAt else .pwrIngAsleepAt) s.now n
  | .device =>
    if s.rd .pwrDevState = 2 ∧ target = 7 then s.deepEnter
    else if s.rd .pwrDevState = 0 then s.standbyEnter.when (target == 7) (fun t => t.wr .pwrDevState 4)
    else s.setPhase o 0

/-- A refusal during COMMIT: the committed blocks wake in reverse order and the state before PREPARE returns (R379). -/
def State.refuseLate (s : State) (o : VoteObject) (v : Vote) (who : Voter) (reason : Nat) : State :=
  let s := { s with votes := s.votes.filter (fun (w : Vote) => !(w.obj == v.obj && w.egress == v.egress)) }
  let s := s.wakeDone (o == .device) v.done
  (s.recordRefusal o who reason v.target true).setPhase o (s.rest o)

/-- VOTE_COMMIT_STEP: the next block commits, or refuses late as its commit falls due (R378, R379). -/
def execVoteCommitStep (obj : VoteObject) (s : State) : Out :=
  .next (match s.votes.find? (fun w => w.obj == voteObj obj && w.egress == voteEgress obj) with
  | none => s
  | some v =>
    match v.todo with
    | [] => s.voteEnd obj v.target
    | st :: rest =>
      if (s.refusal st.voter).isSome then s.refuseLate obj v st.voter 11
      else
        let s := if obj = .device then s.commitDevice st else s.commitBlock st
        let v' : Vote := { v with todo := rest, done := st :: v.done }
        let s := { s with votes := s.votes.map (fun w => if w.obj = v.obj ∧ w.egress = v.egress then v' else w) }
        if rest.isEmpty then s.voteEnd obj v.target else s)

/-- LATE_REFUSAL: a voter of a running COMMIT refuses (R379). -/
def execLateRefusal (obj : VoteObject) (block : Fin 9) (inst : Fin 16) (s : State) : Out :=
  .next (match s.votes.find? (fun w => w.obj == voteObj obj && w.egress == voteEgress obj) with
  | none => s
  | some v => s.refuseLate obj v ⟨block, inst⟩ 11)

/-- SLEEP_RETRY: the next retry, or GIVEUP after RETRY_MAX of them (R380). -/
def execSleepRetry (obj : VoteObject) (s : State) : Out :=
  .next (match obj with
  | .lane n e =>
    let arm : Field := if e then .pwrEgrRetryArm else .pwrIngRetryArm
    let cnt : Field := if e then .pwrLnEgrRetry else .pwrLnIngRetry
    if s.on arm n ∧ s.requested obj then
      let s := s.wr arm 0 n
      if s.rd cnt n < s.rd .pwrRetryMax then (s.wr cnt (s.rd cnt n + 1) n).voteStart obj
      else (s.wr (if e then .pwrLnEgrGiveup else .pwrLnIngGiveup) 1 n).raise .pwrIntStatus Irq.pwrGiveup
    else s
  | .device =>
    if s.on .pwrDevRetryArm ∧ s.requested obj then
      let s := s.wr .pwrDevRetryArm 0
      if s.rd .pwrDevRetry < s.rd .pwrRetryMax then (s.wr .pwrDevRetry (s.rd .pwrDevRetry + 1)).voteStart obj
      else (s.wr .pwrDevGiveup 1).raise .pwrIntStatus Irq.pwrGiveup
    else s)

/-- TRIM_ENTRY (R366 to R368). -/
def execTrimEntry (n : Lane) (s : State) : Out :=
  .next (if s.on .pwrLnIngSleep n ∧ 3 ≤ s.rd .pwrLnIngBudgetUs n ∧ !s.on .lrxSleep n ∧ !s.on .pwrLnTrim n ∧
      s.maskBit .pwrDomDecode n ∧ !s.warning then
    ((s.wr .pwrLnTrim 1 n).when (!s.dirAsleep n false) (fun t => t.wr .pwrIngAsleepAt t.now n)).dvfsKick
  else s)

/-! ## Device states (R369 to R376) -/

/-- WAKE_TIMER_EXPIRY: source TIMER (R369). -/
def execWakeTimerExpiry (s : State) : Out := .next (if s.on .pwrWakeTimerMs then s.wakeDevice 5 else s)

/-- A request for Standby starts the device's vote, unless one for Standby or Deep runs; before start-up ends only the level counts,
and during an entry it drops a wake that waits (R372, R377, R481). -/
def State.standbyRequest (s : State) : State :=
  let s := s.wr .pwrWakePend 0
  if s.rd .pwrDevState = 0 ∧ !s.deepRuns ∧ !s.on .pwrDevPhase then s.deviceRequest 6 else s

/-- LPMODE_ASSERT (R372). -/
def execLpmodeAssert (s : State) : Out :=
  let s := s.wr .pwrLpmode 1
  .next (if s.on .pwrLpmodeEn then s.standbyRequest else s)

/-- LPMODE_DEASSERT: wakes the device from Standby unless STANDBY_SW or CRIT_LATCH holds it; a vote is abandoned (R369,
R373, R381, R404). -/
def execLpmodeDeassert (s : State) : Out :=
  let s := s.wr .pwrLpmode 0
  .next (if s.rd .pwrDevState = 1 ∨ s.rd .pwrDevState = 2 then
    if s.on .thmCritLatch then s.wakeHeld 3
    else if s.on .pwrStandbySw then s
    else s.standbyRelease 3
  else if s.rd .pwrDevState = 0 ∧ !s.on .pwrStandbySw ∧ s.rd .pwrDevTarget ≠ 7 then s.deviceAbandon 3
  else s)

/-- STANDBY_SW_WRITE: STANDBY_SW written 1 (R372). -/
def execStandbySwWrite (s : State) : Out :=
  .next (s.access .pwr 0 (fun s => (s.wr .pwrStandbySw 1).standbyRequest))

/-- An image operation, ENV_SAVE or an NVM write is pending, or start-up has not committed an image (R374, R481). -/
def State.deepBlocked (s : State) : Bool :=
  decide (3 ≤ s.rd .imgState) || s.rd .imgState == 1 || s.on .optSaveBusy || s.on .secNvmBusy ||
    s.rd .secPhase == 2

/-- DEEP written 1: its vote starts; one for Standby that runs goes on to Deep (R374, R377). -/
def execDeep (s : State) : Out :=
  .next (s.access .pwr 0 (fun s =>
    if s.deepRuns then s
    else if s.deepBlocked then s.raise .pwrIntStatus Irq.pwrDeepRefused
    else if s.rd .pwrDevState = 0 ∨ s.rd .pwrDevState = 2 then
      if s.on .pwrDevPhase then
        ({ s with votes := s.votes.map (fun (v : Vote) => if v.obj = 8 then { v with target := 7 } else v) } : State).wr
          .pwrDevTarget 7
      else s.deviceRequest 7
    else s))

/-- DEEP_WAKE_EVENT: a wake source in Deep; MANAGEMENT is the host bus address or SPI select (R369, R375). -/
def execDeepWakeEvent (src : Fin 8) (s : State) : Out :=
  .next (if s.rd .pwrDevState = 5 ∧ 3 ≤ src.val ∧ src.val ≤ 6 then s.wakeDevice src else s)

/-! ## DVFS (R385 to R388) -/

/-- A write of the points: an ordered change, or one step in expert mode (R385, R387). -/
def State.writePoints (s : State) (req : Nat) : State :=
  if s.on .pwrDvfsMode then
    if (List.range 8).all (fun c => decide (pointMv (pointOf req c) ≤ s.rd .pwrVoutActMv)) then
      (s.wr .pwrDvfsReq req).dvfsKick
    else (s.wr .pwrDvfsErr 1).raise .pwrIntStatus Irq.pwrPwrErrOrder
  else (s.puts [(.pwrDvfsReq, req), (.pwrDvfsErr, 0)]).dvfsKick

/-- A write of VOUT_MV: stored, and in expert mode one step, or refused; a lowering waits below warning (R387, R390). -/
def State.writeVout (s : State) (mv : Nat) : State :=
  let mv := clampNat 650 800 mv
  if !s.on .pwrDvfsMode then s.wr .pwrVoutMv mv
  else if (List.range 8).all (fun c => decide (pointMv (pointOf (s.rd .pwrDvfsPoint) c) ≤ mv)) then
    let s := s.puts [(.pwrVoutMv, mv), (.pwrDvfsBusy, 1), (.pwrDvfsStBusy, 1)]
    if mv < s.rd .pwrVoutActMv ∧ s.warning then s.wr .pwrVoutHeld mv
    else s.puts [(.pwrVoutHeld, 0), (.pwrVoutPrev, s.rd .pwrVoutActMv), (.pwrVoutTarget, mv), (.pwrDvfsPhase,
      if s.rd .pwrVoutActMv ≤ mv then 1 else 3)]
  else (s.wr .pwrDvfsErr 1).raise .pwrIntStatus Irq.pwrPwrErrOrder

/-- DVFS_REQUEST (R385, R386). -/
def execDvfsRequest (req : BitVec 16) (s : State) : Out := .next (s.access .pwr 0 (fun s => s.writePoints req.toNat))

/-- DVFS_EXPERT_WRITE (R387). -/
def execDvfsExpertWrite (w : DvfsWrite) (s : State) : Out :=
  .next (s.access .pwr 0 (fun s => match w with
  | .points req => s.writePoints req.toNat
  | .vout mv => s.writeVout mv))

/-- The change is complete, or goes on: with a raise of the voltage that a newer target needs, with the clocks, with a lowering
of the voltage (R386, R390). -/
def State.dvfsSettle (s : State) : State :=
  let mv := s.wantMv
  if s.rd .pwrVoutActMv < mv then
    s.puts [(.pwrVoutPrev, s.rd .pwrVoutActMv), (.pwrVoutTarget, mv), (.pwrDvfsPhase, 1)]
  else if s.rd .pwrDvfsPoint ≠ s.rd .pwrDvfsTarget then s.wr .pwrDvfsPhase 2
  else
    if mv < s.rd .pwrVoutActMv ∧ !s.warning ∧ !s.on .pwrDvfsMode then
      s.puts [(.pwrVoutPrev, s.rd .pwrVoutActMv), (.pwrVoutTarget, mv), (.pwrDvfsPhase, 3)]
    else s.puts [(.pwrDvfsPhase, 0), (.pwrDvfsBusy, bit (s.on .pwrVoutHeld)), (.pwrDvfsStBusy, bit (s.on .pwrVoutHeld))]

/-- DVFS_VOUT_CONFIRMED: the voltage is there; the clocks raise, or the lowering ends (R386). -/
def execDvfsVoutConfirmed (s : State) : Out :=
  .next (if s.rd .pwrDvfsPhase = 1 ∨ s.rd .pwrDvfsPhase = 3 then
    ((s.puts [(.pwrVoutActMv, s.rd .pwrVoutTarget)]).wr .pwrDvfsPhase 2).dvfsSettle
  else s)

/-- DVFS_STEP_DWELL: the clocks move one point (R247, R386). -/
def execDvfsStepDwell (s : State) : Out :=
  .next (if s.rd .pwrDvfsPhase = 2 then s.dvfsStep.dvfsSettle else s)

/-- DVFS_TIMEOUT: the old voltage and points stay, PWR_ERR_PMBUS (R386). -/
def execDvfsTimeout (s : State) : Out :=
  .next (if s.rd .pwrDvfsPhase = 1 ∨ s.rd .pwrDvfsPhase = 3 then
    (s.puts [(.pwrVoutActMv, s.rd .pwrVoutPrev), (.pwrVoutTarget, s.rd .pwrVoutPrev), (.pwrDvfsTarget, s.rd .pwrDvfsPoint),
      (.pwrDvfsPhase, 0), (.pwrDvfsBusy, 0), (.pwrDvfsStBusy, 0), (.pwrDvfsErr, 2)]).raise .pwrIntStatus Irq.pwrPwrErrPmbus
  else s)

/-- PM_ALERT (R388). -/
def execPmAlert (s : State) : Out := .next ((s.raise .pwrIntStatus Irq.pwrPmAlert).faultEvent 14 0)

/-! ## Resets and domains (R383, R391, R392, R476) -/

/-- A reset that keeps AON powered: every domain outside AON and the PWR registers reset, retention is discarded, the
sequence stands at step 1 (R383, R391, R476, R508). -/
def State.deviceReset (s : State) (cause rail : Nat) : State :=
  let pin := s.rd .pwrLpmode
  let s := { s.resetOutsideAon with imgRecord := none, retained := [] }
  let s := s.resetFields (fun k => k.f.desc.block == .pwr || k.f.desc.block == .pwrLn)
  s.puts [(.pwrResetCause, cause), (.pwrResetRail, rail), (.pwrDevState, 6), (.pwrStartup, 1), (.glbSeqStep, 1),
    (.glbBootStage, 0), (.pwrLpmode, pin)]

/-- SUPPLY_MONITOR_RESET: a monitored rail stands at `mv`, below 88 % of its set point: power-on reset for VDD_AON (rail
5), else a device reset, after which the rails below warning still stand in WARN_RAILS and hold the sequence (R389,
R391, R476). -/
def execSupplyMonitorReset (rail : Fin 7) (mv : BitVec 12) (s : State) : Out :=
  .next (if !s.monitored rail ∨ 88 * s.monitorMv rail ≤ 100 * mv.toNat then s
  else if rail.val = 5 then
    ({ State.reset with pending := s.pending, now := s.now, fresh := s.fresh, nvm := s.nvm, info := s.info }).puts
      [(.pwrResetCause, 1), (.pwrResetRail, 5), (.secKsBoot, s.rd .secKsBoot), (.pwrLpmode, s.rd .pwrLpmode)]
  else
    let rails := s.rd .pwrWarnRails ||| 2 ^ rail.val
    (s.deviceReset 4 rail).puts [(.pwrWarn, 1), (.pwrWarnRails, rails), (.pwrWarnSeen, rails), (.pwrWarnAt, s.now),
      (.pwrWarnLow, steps5 mv.toNat)])

/-- RESET_N_ASSERT: RESET_N has been low for 1 µs (R476). -/
def execResetNAssert (s : State) : Out := .next ((s.deviceReset 2 0).wr .glbResetLow 1)

/-- RESET_N_RELEASE: the sequence restarts at step 2 (R476, R482). -/
def execResetNRelease (s : State) : Out :=
  .next (if s.on .glbResetLow then
    s.puts [(.glbResetLow, 0), (.glbStageRef, s.now), (.glbSeqStep, 2), (.glbBootStage, 1)]
  else s)

/-- The line and host PLLs stop with the domains (R362). -/
def State.pllsOff (s : State) : State :=
  (s.each (List.range 4) (fun p t => ((t.puts [(.pllState, 0), (.pllLock, 0), (.pllGated, 1), (.pllCalRun, 0), (.pllReqPend, 0),
    (.pllCalPend, 0)] p).setMask .clkCalReq p false).capStop p)).wr .clkXbarSrc 2 |>.refreshRun

/-- Outside a device transition the next domain of a thermally shut-down lane turns off: the lane island once its
transmit is OFF or in FAULT, then a host island whose four lanes all belong to such lanes (R392, R401). -/
def State.shutdownDomain (s : State) : State :=
  let down (n : Nat) : Bool := s.on .thmLnShutdown 0 n
  match (List.range 8).find? (fun n => down n && s.maskBit .pwrDomLane n &&
      (s.rd .ltxState n == 0 || s.rd .ltxState n == 7)) with
  | some n => s.setDomain (9 + n) false
  | none =>
    match (List.range 4).find? (fun g => s.maskBit .pwrDomHost g && (List.range 4).all (fun k =>
        ((s.lineOf (4 * g + k)).map down).getD false)) with
    | some g => s.setDomain (17 + g) false
    | none => s

/-- The domains are off: the device is in Standby, or enters Deep; a wake that waits starts (R369, R372, R374). -/
def State.entryEnd (s : State) : State :=
  let src := s.rd .pwrWakePend
  let s := s.wr .pwrWakePend 0
  if s.rd .pwrDevState = 4 then s.deepEnter.when (src != 0) (fun t => t.deepWakeStart src)
  else (s.wr .pwrDevState 2).when (src != 0 && !s.standbyHeld && !s.on .pwrStandbySw) (fun t => t.standbyWakeStart src)

/-- DOMAIN_STAGGER_STEP: the next domain starts or stops; a lane's domain waits for its transmit (R372, R374, R392). -/
def execDomainStaggerStep (s : State) : Out :=
  let i := s.rd .pwrStagIdx
  .next (if s.rd .pwrStagDir = 1 then
    if i < domainCount then
      let s := s.setDomain i true
      if i + 1 = domainCount then s.puts [(.pwrStagDir, 0), (.pwrStagIdx, domainCount)] else s.wr .pwrStagIdx (i + 1)
    else s.wr .pwrStagDir 0
  else if s.rd .pwrStagDir = 2 then
    if i = 0 then s.wr .pwrStagDir 0
    else if 9 ≤ i - 1 ∧ i - 1 ≤ 16 ∧ s.rd .ltxState (i - 1 - 9) ≠ 0 ∧ s.rd .ltxState (i - 1 - 9) ≠ 7 then s
    else
      let s := (s.setDomain (i - 1) false).wr .pwrStagIdx (i - 1)
      if i = 1 then
        let s := (s.wr .pwrStagDir 0).pllsOff
        s.entryEnd
      else s
  else s.shutdownDomain)

/-- PWR_CNT_CLR (R393). -/
def execPwrCntClr (s : State) : Out :=
  .next (s.access .pwr 0 (fun s => s.clear [.pwrWarnCnt, .pwrRefusalCnt, .pwrWakeFailCnt]))

end Sys2Proof.Machine
end

