-- ==== Sys2Proof/Machine/CommitOps.lean ====
section
/-!
DEFINITION. What an image gives the registers, and the end of a partial commit (R72, R75, R78, R243, R269, R281).
-/
namespace Sys2Proof.Machine

/-- The steal neighbourhood that an image gives a cluster (R66, R75, R243). -/
def State.loadSteal (s : State) (i : Image) (n : Nat) : State :=
  let st := i.steal n
  s.puts [(.arcClReachCw, st.1), (.arcClReachCcw, st.2.1), (.arcClStealThresh, st.2.2)] n

/-- The other image-derived fields of a lane: depths, crossbar map, gearbox mode (R66, R243, R267, R508). -/
def State.loadLane (s : State) (i : Image) (n : Nat) : State :=
  let x := i.xbar n
  let d := i.depth n
  let s := s.puts [(.arcClHomeQ, d.1), (.arcClReleaseBuf, d.2)] n
  let s := ((s.wr .hifGlbMapHostA x.1 0 n).wrb .hifGlbMapBValid x.2.isSome 0 n).wr .hifGlbMapHostB (x.2.getD 0) 0 n
  s.wr .hifGlbMapGbMode (if s.rd .hifGlbMapGbMode 0 n = 1 then 1 else s.gbBase n) 0 n

/-- Sections of an image that the validator skips (R63). -/
def skippedSections (i : Image) : Nat := (i.sections.filter (fun e => !(1 ≤ e.type && e.type ≤ 5) && !e.required)).length

/-- IMG_SKIP_COUNT reloads at a commit (R63, R81). -/
def State.loadSkipped (s : State) (i : Image) : State :=
  (s.wr .imgSkipped (skippedSections i)).when (decide (0 < skippedSections i))
    (fun t => t.raise .imgIntStatus Irq.imgSkippedSection)

/-- The host lanes of a group under a new structure: a changed host mode retrains the group; a line lane whose pair
changed re-enters ALIGN, and a lane in TRAIN starts again. In compatibility mode a new lane B goes to OFF and a new lane A comes
back from it (R78, R267, R269, R281). -/
def State.remapHosts (s : State) (old : State) (g : PortGroup) : State :=
  if g.lanes.any (fun n => s.maskBit .imgPcOldExt n != g.extended) then
    ((s.setEhm g (if g.extended then 5 else 0)).wr .hifEhmAdvOff 0 g.lead).each [g]
      (fun g t => (t.each g.lanes (fun n u => u.wr .hifGlbMapGbMode (if u.rd .hifGlbMapGbMode 0 n = 2 then 2 else 0) 0
        n)).groupTrain g)
  else
    s.each (g.lanes.filter (fun n => old.hostsOf n != s.hostsOf n ||
        old.rd .hifGlbMapGbMode 0 n != s.rd .hifGlbMapGbMode 0 n)) (fun n t =>
      let t := t.when (t.rd .hifGlbMapGbMode 0 n == 2) (fun u =>
        (u.when (u.on .hifGlbMapBValid 0 n) (fun v => v.hifOff (v.rd .hifGlbMapHostB 0 n))).hifReturn n (u.rd .hifGlbMapHostA 0 n))
      t.each (t.activeHosts n) (fun h u =>
        if u.rd .hifState h = 3 ∨ u.rd .hifState h = 4 then u.hifToAlign h
        else if u.rd .hifState h = 2 then u.hifTrainStart h
        else u))

/-- The depths and the maps of the table writes: from here on the host lanes align on the new mapping (R75, R78). -/
def State.pcTables (s : State) (i : Image) : State :=
  let t := s.each s.pcLanes (fun n t => t.loadLane i n)
  (t.each (i.groups.filter (fun g => s.pcLanes.contains g.lead)) (fun g t => t.remapHosts s g)).pairFollow

/-- The last lane of a partial commit resumes: the new neighbourhoods apply, isolation ends, HOME_LOW is evaluated, PC_DONE
(R75, R81, R243). -/
def State.pcFinish (s : State) : State :=
  match s.running with
  | none => s
  | some i =>
    let lanes := s.pcLanes
    let s := s.each lanes (fun n t => ((t.loadSteal i n).wr .arcClIsolated 0 n).wr .lfrPcLeft 0 n)
    let s := ((s.homeLow lanes).bump .imgPcCount).puts
      [(.imgPcLastGroup, s.rd .imgOpLead), (.imgPcLastResume, s.todWords), (.imgPcPEnd, s.rd .imgPcLanes)]
    (s.loadSkipped i).imgEnd 0

end Sys2Proof.Machine
end

