-- ==== Sys2Proof/Machine/Waveform.lean ====
section
/-!
DEFINITION. Waveforms of optics control as plain functions: the sine of a control output (R342), and the decimation chain of the
monitor ADC (R353, R356).
-/
namespace Sys2Proof.Machine

/-! ## Sine (R342) -/

/-- π in units of 2^-100, rounded down. -/
def piFixed : Nat := 3982441812995697363688351113952

/-- sin(π m / 2048) for m up to 1024 in units of 2^-100, from the power series; its error is far below one rounding of a
sample. -/
def sineFixed (m : Nat) : Int :=
  let x := piFixed * m / 2048
  let x2 : Int := x * x / 2 ^ 100
  ((List.range 16).foldl (fun (p : Int × Int) (i : Nat) =>
    (-(p.1 * x2 / 2 ^ 100) / (((2 * i + 2) * (2 * i + 3) : Nat) : Int), p.2 + p.1)) ((x : Int), 0)).2

/-- The sine of phase bits 31 to 20, Q1.15: exact at 0 and the peaks, of which +1 saturates, and elsewhere rounded to a
neighbour that R342 leaves open (log entries 6 and 57). -/
def sineSample (k : Nat) : Int :=
  let j := k % 2048
  let m := if j ≤ 1024 then j else 2048 - j
  let neg := decide (2048 ≤ k)
  if m = 0 then 0
  else if m = 1024 then (if neg then -32768 else 32767)
  else roundOpen 8 ((if neg then -sineFixed m else sineFixed m) * 2 ^ 15) (2 ^ 100)

/-! ## Decimation chain (R353, R356); samples stand latest first -/

/-- A filter at every place where all its taps meet a sample. -/
def slide (taps x : List Int) : List Int := (List.range (x.length + 1 - taps.length)).map (fun i => dot taps (x.drop i))

/-- Every `m`-th sample, from the latest on. -/
def everyNth (m : Nat) (x : List Int) : List Int := (List.range ((x.length + m - 1) / m)).map (fun i => x.getD (m * i) 0)

/-- The third-order CIC decimating by `r`, with gain r^3 (R353). -/
def cicStage (r : Nat) (x : List Int) : List Int :=
  let box := List.replicate r (1 : Int)
  everyNth r (slide box (slide box (slide box x)))

/-- The 11 taps of a half-band stage in units of 2^-16: the centre is 1/2, the even ones are 0, unity DC gain; the outer
two pairs are not stated and open (log entry 72). -/
def halfBandTaps : List Int :=
  let a := (Config.halfBandTap 5).toInt
  let b := (Config.halfBandTap 3).toInt
  [a, 0, b, 0, 2 ^ 14 - a - b, 2 ^ 15, 2 ^ 14 - a - b, 0, b, 0, a]

/-- `h` half-band stages, each decimating by 2 (R353). -/
def halfBands : Nat → List Int → List Int
  | 0, x => x
  | h + 1, x => halfBands h (everyNth 2 (slide halfBandTaps x))

/-- Taps h(0) to h(30) from h(0) to h(15) (R353). -/
def firTaps (half : List Int) : List Int := half ++ (half.take 15).reverse

/-- Input samples that one output of a chain reaches back over (R353). -/
def chainSpan (r h : Nat) (fir : Bool) : Nat :=
  let n := (List.range h).foldl (fun n _ => 2 * (n - 1) + 11) (if fir then 31 else 1)
  r * (n - 1) + 3 * (r - 1) + 1

/-- The latest output of a chain for the raw 12-bit codes, latest first, as a fraction of full scale: CIC, half-band
stages and, where `half` gives its coefficients, the FIR. GAIN 1 doubles a code, saturating; codes not listed are 0
(R353). -/
def chainOutput (r h : Nat) (gain : Bool) (half : Option (List Int)) (codes : List Nat) : Int × Nat :=
  let x : List Int := (List.range (chainSpan r h half.isSome)).map (fun i =>
    let c := codes.getD i 0
    (((if gain then min (2 * c) 4095 else c) : Nat) : Int))
  let y := halfBands h (cicStage r x)
  match half with
  | none => (y.headD 0, 4096 * r ^ 3 * 2 ^ (16 * h))
  | some t => ((slide (firTaps t) y).headD 0, 4096 * r ^ 3 * 2 ^ (16 * h) * 2 ^ 15)

/-- An output in UQ0.16, saturating; between two codes it is a neighbour that R353 leaves open (log entries 57 and 72). -/
def chainCode (num : Int) (den : Nat) : Nat := (clampInt 0 65535 (roundOpen 7 (num * 65536) den)).toNat

end Sys2Proof.Machine
end

