-- ==== Sys2Proof/Machine/Optics.lean ====
section
/-!
DEFINITION. Optics control: the control outputs and their trigger, the safety envelope, the monitor chain and the
peripheral bus (R336 to R361).
-/
namespace Sys2Proof.Machine

/-! ## Monitor chain (R353 to R356) -/

/-- Twice the group delay of a channel, in input samples (R354). -/
def State.monDelay2 (s : State) (c : Nat) : Nat :=
  let r := 2 ^ s.rd .monChCicR c
  let h := 2 ^ s.rd .monChHb c
  3 * (r - 1) + 10 * r * (h - 1) + (if s.on .monChFirEn c then 30 * r * h else 0)

/-- The shadow coefficient bank becomes the bank in use, and the other way round (R356). -/
def State.monBanks (s : State) (c : Nat) : State :=
  let swap (f : Field) (i : Nat) (t : State) : State :=
    let a := t.rd f c i
    (t.wr f (t.use f c i) c i).setUse f a c i
  let s := s.each (List.range 8) (fun i t => swap .monChCoefEven i (swap .monChCoefOdd i t))
  s.puts [(.monChBank, 1 - s.rd .monChBank c), (.monChXfade, 0), (.monXfK, 0)] c

/-- An event after which a channel's chain must settle (R355). -/
def State.monEvent (s : State) (c : Nat) : State := (s.wr .monEventAt s.now c).wr .monChValid 0 c

/-- A channel switch, which ends a cross-fade with the new bank (R355, R356). -/
def State.monSwitch (s : State) (c : Nat) : State :=
  (s.when (s.on .monChXfade c) (fun t => t.monBanks c)).monEvent c

/-- A step on an output: its associated channels settle (R344, R355). -/
def State.monStep (s : State) (out : Nat) (range : Bool) (change : Nat) : State :=
  s.each (List.range 24) (fun c t =>
    t.when (t.rd .monChAssoc c == out && (range || decide (t.rd .monChStepThr c < change))) (fun u => u.monEvent c))

/-- The FIR coefficients h(0) to h(15) of a channel, in use or in the shadow bank; none without the FIR (R353, R356). -/
def State.monFir (s : State) (c : Nat) (shadow : Bool) : Option (List Int) :=
  if s.on .monChFirEn c then
    some ((List.range 16).map (fun i =>
      let f := if i % 2 = 0 then Field.monChCoefEven else Field.monChCoefOdd
      signedOf 16 (if shadow then s.rd f c (i / 2) else s.use f c (i / 2))))
  else none

/-- The output of a channel's chain with a bank, as a fraction of full scale (R353). -/
def State.monChain (s : State) (c : Nat) (shadow : Bool) (codes : List Nat) : Int × Nat :=
  chainOutput (2 ^ s.rd .monChCicR c) (s.rd .monChHb c) (s.on .monChGain c) (s.monFir c shadow) codes

/-- MON_OUTPUT: an output of channel `c` from the raw SAR codes of its input, the latest first; in a cross-fade both
banks filter them (R353, R355, R356). -/
def execMonOutput (c : Fin 24) (codes : List (BitVec 12)) (s : State) : Out :=
  .next (if !s.maskBit .monEn c ∨ !s.on .pwrDomMgmt then s
    else
      let s := s.when (s.on .monChSwap c && !s.on .monChXfade c) (fun t =>
        t.puts [(.monChSwap, 0), (.monChXfade, 1), (.monXfK, 0)] c)
      let x := codes.map (fun v => v.toNat)
      let old := s.monChain c false x
      let r : Nat × State := if s.on .monChXfade c then
          let k := s.rd .monXfK c + 1
          let t := s.wr .monXfK k c
          (chainCode ((64 - k : Nat) * old.1 + k * (s.monChain c true x).1) (64 * old.2), if k = 64 then t.monBanks c else t)
        else (chainCode old.1 old.2, s)
      let s := (r.2.wr .monChData r.1 c).wr .monChSeq (r.2.rd .monChSeq c + 1) c
      let valid := decide (600 * (s.monDelay2 c + 1) ≤ s.now - s.rd .monEventAt c)
      let s := s.when (valid && !s.on .monChValid c) (fun t => t.raise .monIntStatus c)
      s.wrb .monChValid valid c)

/-- MON_SWAP (R356). -/
def execMonSwap (c : Fin 24) (s : State) : Out :=
  .next (s.access .monCh c (fun s => s.wr .monChSwap 1 c))

/-- MON_CNT_CLR (R361). -/
def execMonCntClr (s : State) : Out :=
  .next (s.access .mon 0 (fun s => s.each (List.range 24) (fun c t => t.wr .monChSeq 0 c)))

/-! ## The trigger (R337 to R344) -/

/-- Sample `j` of a waveform table, Q1.15 (R342). -/
def State.tableSample (s : State) (t j : Nat) : Int :=
  if j % 2 = 0 then s.rdInt .optTblEven t (j / 2) else s.rdInt .optTblOdd t (j / 2)

/-- Why an output with SRC 1 plays the sine: 1 START, 2 TEST, 3 TABLE, 0 it plays its table (R342). -/
def State.sineCase (s : State) (n k : Nat) : Nat :=
  if s.rd .ltxState n ≠ 4 then 1
  else if s.use .ltxPatSel n ≠ 0 ∨ s.underTest 4 n ∨ s.underTest 1 n then 2
  else if s.maskBit .optGlbTblHold (s.rd .optOutTable n k) then 3
  else 0

/-- The waveform term of an output for an amplitude, at the phase its accumulator holds (R337, R342). -/
def State.waveform (s : State) (n k amp : Nat) : Int :=
  let phase := s.rd .optPhase n k
  let sine := sineSample (phase / 2 ^ 20)
  let v : Int := match s.rd .optOutSrc n k with
    | 0 => 0
    | 1 => if s.sineCase n k = 0 then s.tableSample (s.rd .optOutTable n k) (phase / 2 ^ 22) else sine
    | _ => sine
  if s.rd .optOutSrc n k = 0 then 0 else roundHalfAway (amp * v) 32768

/-- A written RANGE takes effect: BASE, and the ramp value during a ramp, are rescaled unless BASE was written too
(R344). -/
def State.rangeApply (s : State) (n k : Nat) : State :=
  let old := s.rd .optRangeOld n k
  let new := s.rd .optOutRange n k
  if old = new then s.wr .optBaseWr 0 n k
  else
    let scale (c : Nat) : Int := roundHalfAway (c * 2 ^ old) (2 ^ new)
    let base := scale (s.rd .optOutBase n k)
    let keep := s.on .optBaseWr n k
    let s := s.when (!keep) (fun t =>
      let t := t.wr .optOutBase (min base.toNat 4095) n k
      let t := t.when (decide (4095 < base)) (fun u => u.raise .optLnIntStatus Irq.optLnRangeClamp n)
      t.when (k == 0 && t.on .optLnRamp n) (fun u => u.wr .optRampVal (min (scale (u.rd .optRampVal n)).toNat 4095) n))
    ((s.wr .optRangeOld new n k).wr .optBaseWr 0 n k).monStep (3 * n + k) true 0

/-- One trigger of the bias ramp: up toward BASE while LSR_ENn is asserted, or down to the idle limit (R341). -/
def State.rampStep (s : State) (n : Nat) : State :=
  let step := s.rd .optOutRampStep n 0
  let v := s.rd .optRampVal n
  if !s.on .optLnRamp n then s.wr .optDownTicks 0 n
  else if s.on .optRampDown n then
    let least := euCode (s.rd .optLnIdleBiasMax n) (s.rd .optOutRange n 0)
    let w := if v ≤ least then v else max least (v - step)
    let s := s.puts [(.optRampVal, w), (.optDownTicks, min 65535 (s.rd .optDownTicks n + s.rd .optLnUpdCyc n))] n
    s.when (decide (w ≤ least)) (fun t => t.puts [(.optLnRamp, 0), (.optRampDown, 0)] n)
  else
    let base := s.rd .optOutBase n 0
    let w := if v < base then min base (v + step) else max base (v - step)
    let s := s.wr .optRampVal w n
    s.when (w == base) (fun t => t.wr .optLnRamp 0 n)

/-- Bias ready: the ramp is at BASE and no condition was present for 10 us (R341); it lets the transmit go on (R176). -/
def State.biasReady (s : State) (n : Nat) : State :=
  if s.on .ltxLsrEn n ∧ !s.on .optLnClamp n ∧ !s.on .optLnRamp n ∧ !s.on .optLnBiasReady n ∧
      s.rd .optGoodTicks n = 1000 then
    let s := (s.wr .optLnBiasReady 1 n).raise .optLnIntStatus Irq.optLnBiasReady n
    s.when (s.rd .ltxState n == 3) (fun t => t.wr .ltxActPend 1 n)
  else s

/-- The conditions of R345 that were present since the last trigger. -/
def State.condTrack (s : State) (n : Nat) (compliance openLoop : Bool) : State :=
  let s := s.when (!compliance) (fun t => t.wr .optLnCompliance 0 n)
  let s := s.when (!openLoop) (fun t => t.wr .optLnOpen 0 n)
  s.wr .optGoodTicks (if compliance || openLoop then 0 else min 1000 (s.rd .optGoodTicks n + s.rd .optLnUpdCyc n)) n

/-- The OBIAS code of a trigger before the envelope: base or ramp, then the side channel and the waveform held within
MAX_MOD_SWING (R337, R343). -/
def State.biasCode (s : State) (n : Nat) (chip : Bool) : Int × State :=
  let base := if s.on .optLnRamp n then s.rd .optRampVal n else s.rd .optOutBase n 0
  let swing := s.rd .optLnMaxModSwing n * 2 ^ (3 - s.rd .optOutRange n 0)
  let terms := s.on .optLnBiasReady n
  let side := if terms && s.on .lfrSideOn n then (roundHalfAway (s.rd .optOutBase n 0) 100).toNat else 0
  let fits := decide (2 * side ≤ swing)
  let sideIn := if fits then side else swing / 2
  let amp := if terms && s.rd .optOutSrc n 0 != 0 then s.rd .optOutAmp n 0 else 0
  let ampIn := if fits then min amp ((swing - 2 * side) / 2) else 0
  let limited := decide (sideIn < side ∨ ampIn < amp)
  let s := s.when limited (fun t => t.raise .optLnIntStatus Irq.optLnModLimited n)
  let s := s.wrb .optLnModLimited limited n
  ((base : Int) + (if chip then (sideIn : Int) else -sideIn) + s.waveform n 0 ampIn, s)

/-- OBIAS at a trigger; the envelope's own test holds it clamped (R337, R341, R343, R346, R347, R352). -/
def State.biasDrive (s : State) (n : Nat) : State :=
  if s.on .optLnClamp n ∨ s.underTest 7 0 then (s.wr .optOutCode 0 n 0).monStep (3 * n) false (s.rd .optOutCode n 0)
  else
    let r := s.biasCode n (s.sideChip n)
    let s := r.2
    let code := (clampInt 0 4095 r.1).toNat
    let ramping := s.on .optRampDown n && decide (s.rd .optDownTicks n ≤ 10000)
    let eu := if s.on .ltxLsrEn n || ramping then s.rd .optLnMaxBias n else s.rd .optLnIdleBiasMax n
    let most := euCode eu (s.rd .optOutRange n 0)
    let s := s.when (decide (most < code)) (fun t =>
      (t.bump .optLnEnvClampCnt n).raise .optLnIntStatus Irq.optLnEnvClamp n)
    let v := min code most
    let old := s.rd .optOutCode n 0
    let s := s.when (!s.on .optLnRamp n) (fun t => t.wr .optRampVal (min (t.rd .optOutBase n 0) most) n)
    ((s.wr .optOutCode v n 0).wr .optOutRangeAct (s.rd .optOutRange n 0) n 0).monStep (3 * n)
      (s.rd .optOutRange n 0 != s.rd .optOutRangeAct n 0) ((v : Int) - old).natAbs

/-- OMOD and OAUX at a trigger: the fault values while the transmit fault or Standby holds them; a range that changes is a step
(R337, R339, R340, R355). -/
def State.auxDrive (s : State) (n k : Nat) : State :=
  let held := s.on .optFault n || s.rd .pwrDevState == 2
  let pu := s.on .optLnPuEn n
  let code : Int := if held then (if pu then s.rd .optLnPuValue n k else 0)
    else (s.rd .optOutBase n k : Int) + s.waveform n k (s.rd .optOutAmp n k)
  let v := (clampInt 0 4095 code).toNat
  let range := if held && pu then s.rd .optLnPuRange n k else s.rd .optOutRange n k
  let old := s.rd .optOutCode n k
  ((s.wr .optOutCode v n k).wr .optOutRangeAct range n k).monStep (3 * n + k) (range != s.rd .optOutRangeAct n k)
    ((v : Int) - old).natAbs

/-- SINE_ACT: the case in which an output with SRC 1 plays the sine, 0 where none does; START and TEST are common to the outputs of
a lane (R342). -/
def State.sineAct (s : State) (n : Nat) : Nat :=
  ([0, 1, 2].filter (fun k => s.rd .optOutSrc n k == 1)).foldl (fun a k => max a (s.sineCase n k)) 0

/-- OPT_TRIGGER: the three outputs of lane `n`, the side channel on OBIAS among them; the Booleans tell the
conditions of R345 present since the last trigger (R337 to R345). In Standby the bias is clamped and the others take
their fault values; before PU_DONE, in Deep and in the lane's control DAC test nothing is driven (R340, R352). -/
def execOptTrigger (n : Lane) (compliance openLoop : Bool) (s : State) : Out :=
  let n : Nat := n
  .next (if !s.on .optGlbPuDone ∨ !s.on .pwrDomMgmt ∨ s.underTest 4 n then s
    else
      let s := s.when (s.rd .pwrDevState == 2) (fun t => t.optClamp n)
      let s := s.when (s.on .ltxLsrEn n) (fun t => t.wr .optFault 0 n)
      let s := s.each [0, 1, 2] (fun k t => (t.rangeApply n k).wr .optPhase (t.rd .optPhase n k + t.rd .optOutFstep n k) n k)
      let s := ((((s.condTrack n compliance openLoop).rampStep n).biasReady n).sideRun n).biasDrive n
      let s := (s.auxDrive n 1).auxDrive n 2
      s.wr .optLnSineAct (s.sineAct n) n)

/-! ## Conditions and the envelope (R345 to R352) -/

/-- OBIAS_CONDITION_EVENT: a compliance condition at a code above 0, or an open-loop condition at 64 codes or more, held for 10 us
(R345). -/
def execObiasConditionEvent (n : Lane) (openLoop : Bool) (s : State) : Out :=
  .next (if s.on .optLnClamp n ∨ !s.on .optGlbPuDone ∨ s.rd .optOutCode n 0 < (if openLoop then 64 else 1) then s
    else if openLoop then
      (((s.puts [(.optLnOpen, 1), (.optGoodTicks,
        0)] n).bump .optLnOpenCnt n).raise .optLnIntStatus Irq.optLnOpen n).faultEvent
        13 n
    else
      (((s.puts [(.optLnCompliance, 1), (.optGoodTicks, 0)] n).bump .optLnComplianceCnt n).raise .optLnIntStatus
        Irq.optLnCompliance n).faultEvent 12 n)

/-- LSR_ENn or DRV_ENn of a lane is granted. -/
def State.pinsGranted (s : State) (n : Nat) : Bool := s.on .ltxDrvEn n || s.on .ltxLsrEn n

/-- A condition of R350 holds: a cleared LANE_MASK bit with pins granted; a current above 1.10 MAX_BIAS + 8 EU; two samples above
MON_MAX with pins granted. -/
def State.envOver (s : State) (n : Nat) (c : EnvCondition) : Bool :=
  match c with
  | .mask => s.pinsGranted n && !s.maskBit .optGlbLaneMask n
  | .overCurrent tenths => !s.on .optLnClamp n && decide (11 * s.rd .optLnMaxBias n + 80 < tenths)
  | .monOver a b => s.pinsGranted n && s.rd .optLnMonCh n != 31 &&
      decide (s.rd .optLnMonMax n < a.toNat ∧ s.rd .optLnMonMax n < b.toNat)

/-- TRIP_CAUSE of a condition (R361). -/
def envCause : EnvCondition → Nat
  | .mask => 1
  | .overCurrent _ => 2
  | .monOver _ _ => 3

/-- ENVELOPE_TRIP: MASK, OVER_CURRENT or MON_OVER, where its condition holds (R350). -/
def execEnvelopeTrip (n : Lane) (c : EnvCondition) (s : State) : Out :=
  .next (if s.envOver n c then s.envTrip n (envCause c) else s)

/-- PROBE_TIMEOUT (R351). -/
def execProbeTimeout (n : Lane) (s : State) : Out :=
  .next (if s.on .optProbeRun n ∧ s.rd .ltxState n ≠ 4 then s.envTrip n 4 else s)

/-- OFF_TIME_EXPIRY: the envelope permits the lane again (R174, R351). -/
def execOffTimeExpiry (n : Lane) (s : State) : Out :=
  .next (if s.on .optLnOffTime n then (s.puts [(.optLnOffTime, 0), (.optLnOffRemainMs, 0)] n).ltxRecheck n else s)

/-- ENV_SAVE: only in Manufacturing; below supply warning its write waits with the other NVM writes, and SAVE_PENDING reads 1
(R348, R360). -/
def execEnvSave (s : State) : Out :=
  .next (s.access .optGlb 0 (fun s =>
    if s.rd .secLcState ≠ 1 then s else s.puts [(.optGlbEnvSave, 1), (.optSaveBusy, 1)]))

/-- OPT_CNT_CLR (R361). -/
def execOptCntClr (n : Lane) (s : State) : Out :=
  .next (s.access .optLn n (fun s =>
    s.clear [.optLnTripCnt, .optLnEnvClampCnt, .optLnComplianceCnt, .optLnOpenCnt] n))

/-! ## Peripheral bus (R357, R358) -/

/-- A transaction ends: RESULT, PB_ERR where it is not OK, and of a PB_CMD transaction GO and PB_DONE (R357, R361). -/
def State.pbEnd (s : State) (firmware : Bool) (result : Nat) : State :=
  let s := (s.wr .pbResult result).when (!firmware) (fun t => (t.wr .pbGo 0).raise .optGlbIntStatus Irq.optGlbPbDone)
  s.when (result != 0) (fun t => t.raise .optGlbIntStatus Irq.optGlbPbErr)

/-- A write that an entry of PB_PROT forbids, from whatever source (R358). -/
def State.pbForbidden (s : State) (j : PbJob) : Bool :=
  !j.read && (List.range 8).any (fun i => s.on .pbProtValid 0 i && s.rd .pbProtAddr 0 i == j.addr.toNat &&
    s.rd .pbProtReg 0 i == j.reg.toNat && decide (s.rd .pbProtMax 0 i < j.data.toNat % 256))

/-- The first transaction of the queue starts; one that is refused ends before its START and the next has its turn (R357,
R358). -/
def State.pbStart (s : State) : List (PbJob × Bool) → State
  | [] => { s with pb := [] }
  | w :: rest => if s.pbForbidden w.1 then (s.pbEnd w.2 3).pbStart rest else { s with pb := w :: rest }

/-- A transaction is requested: it starts on an idle bus, else waits for its turn (R357). -/
def State.pbRequest (s : State) (w : PbJob × Bool) : State :=
  if s.pb.isEmpty then s.pbStart [w] else { s with pb := s.pb ++ [w] }

/-- The transaction that PB_CMD and PB_DATA spell (R361). -/
def State.pbCommand (s : State) : PbJob :=
  ⟨BitVec.ofNat 7 (s.rd .pbAddr), BitVec.ofNat 8 (s.rd .pbReg), Fin.ofNat 4 (s.rd .pbLen), s.on .pbRead,
    BitVec.ofNat 32 (s.rd .pbData)⟩

/-- PB_TRANSACTION: GO of PB_CMD, which reads 1 from here to the end of its transaction, or a transaction that management
firmware asks for (R357, R358). -/
def execPbTransaction (firmware : Option PbJob) (s : State) : Out :=
  .next (match firmware with
    | some j => if s.on .pwrDomMgmt then s.pbRequest (j, true) else s
    | none => s.access .optGlb 0 (fun s =>
        if s.on .pbGo then s else (s.wr .pbGo 1).pbRequest (s.pbCommand, false)))

/-- The transaction that runs ends, and the next one starts (R357). -/
def State.pbFinish (s : State) (result : Nat) : State :=
  match s.pb with
  | [] => s
  | w :: rest => (s.pbEnd w.2 result).pbStart rest

/-- PB_TRANSACTION_DONE: OK, with the bytes of a read in PB_DATA for PB_CMD, or NACK (R357). -/
def execPbTransactionDone (nack : Bool) (data : BitVec 32) (s : State) : Out :=
  .next (match s.pb with
    | [] => s
    | (j, firmware) :: _ =>
      if nack then s.pbFinish 1
      else (s.when (j.read && !firmware) (fun t =>
        t.wr .pbData (data.toNat % 2 ^ (8 * ((j.len : Nat) + 1))))).pbFinish 0)

/-- PB_TIMEOUT (R357). -/
def execPbTimeout (s : State) : Out := .next (s.pbFinish 2)

end Sys2Proof.Machine
end

