-- ==== Sys2Proof/Machine/Thermal.lean ====
section
/-!
DEFINITION. The thermal model's updates, broken sensors, the throttle protocol, its steps and undos, and the critical
temperature (R394 to R407). Temperatures are Q12.4 degrees C.
-/
namespace Sys2Proof.Machine

/-- Islands a diode calibrates (R396). -/
def diodeIslands (k : Nat) : List Nat :=
  match k with
  | 0 => (List.range 8).map (· + 8)
  | 1 => List.range 8
  | 2 => [16, 17, 18, 19, 20]
  | _ => [21, 22, 23]

/-- Islands on a rail: VDD_CORE, VDD_CNV, VDD_HV, VDD_PLL (R362, R395). -/
def railIslands (k : Nat) : List Nat :=
  match k with
  | 0 => List.range 23
  | 1 => List.range 8
  | 2 => [16, 17, 18, 19]
  | _ => [22]

/-- Plausible maximum of a rail current, mA (R397). -/
def railMaxMa (k : Nat) : Int :=
  match k with
  | 0 => 28000
  | 1 => 8000
  | 2 => 4000
  | _ => 2000

/-- Power of a rail, mW: the measured current at the rail's set point (R395). -/
def State.railMw (s : State) (rails : List Int) (k : Nat) : Int := rails.getD k 0 * s.railMv k / 1000

/-- Leakage of an island on a rail at the island's own estimate (R395). -/
def State.leak (s : State) (k i : Nat) : Int := Config.leakage k i (s.rdInt .thmIslandTemp 0 i)

/-- Weighted counts of the islands on a rail, in index order; where nothing counts, the parts that the spec leaves open (R395, log
entry 39). -/
def railWeights (counts : List Nat) (k : Nat) : List (Nat × Nat) :=
  let l := (railIslands k).map (fun j => (j, Config.activityWeight k j * counts.getD j 0))
  if (l.map (·.2)).sum = 0 then (railIslands k).map (fun j => (j, Config.idlePart k j + 1)) else l

/-- Share of an island in the power of a rail, mW: its leakage, and of what the leakage leaves a part in proportion to its weight.
The parts add up to the rail's power (R395). -/
def State.railShare (s : State) (counts : List Nat) (rails : List Int) (k i : Nat) : Int :=
  if !(railIslands k).contains i then 0
  else
    let w := railWeights counts k
    let rest := s.railMw rails k - ((railIslands k).map (fun j => s.leak k j)).sum
    let part (p : Nat → Bool) : Int := rest * ((w.filter (fun e => p e.1)).map (·.2)).sum / (w.map (·.2)).sum
    s.leak k i + part (fun j => decide (j ≤ i)) - part (fun j => decide (j < i))

/-- Power of an island, mW, over the rails it is on (R395). -/
def State.islandPower (s : State) (counts : List Nat) (rails : List Int) (i : Nat) : Int :=
  ((List.range 4).map (fun k => s.railShare counts rails k i)).sum

/-! ## The RC network (R394) -/

/-- Node `k` of an island: 0 hot spot, 1 silicon, 2 die region, 3 lid coupling. -/
def nodeField (k : Nat) : Field :=
  match k with
  | 0 => .thmNode0
  | 1 => .thmNode1
  | 2 => .thmNode2
  | _ => .thmNode3

/-- Temperature of node `k` of an island; after node 3 comes the case node that all share (R394). -/
def State.node (s : State) (i k : Nat) : Int := if k = 4 then s.rdInt .thmCase else s.rdInt (nodeField k) 0 i

/-- Node `k` of an island after one update: heat comes from the node before, or as power at node 0, and goes to the node after
(R394; DEDUCED, log entry 39). -/
def State.nodeNext (s : State) (i k : Nat) (mw : Int) : Int :=
  let t := s.node i
  let drive : Int := if k = 0 then mw * 2 ^ 20 else t (k - 1) - t k
  t k + (Config.thermalIn i k * drive + Config.thermalOut i k * (t (k + 1) - t k)) / 2 ^ 32

/-- The case node after one update (R394). -/
def State.caseNext (s : State) : Int :=
  s.node 0 4 + ((List.range 24).map (fun i => Config.thermalIn i 4 * (s.node i 3 - s.node i 4))).sum / 2 ^ 32

/-- One update of every node (R394). -/
def State.rcStep (s : State) (power : Nat → Int) : State :=
  (s.each (List.range 24) (fun i t => t.each (List.range 4) (fun k u => u.wrInt (nodeField k) (s.nodeNext i k (power i)) 0
    i))).wrInt .thmCase s.caseNext

/-- Whole degrees as Q12.4. -/
def State.celsius (s : State) (f : Field) : Int := 16 * (s.rd f : Int)

/-- Move THM_STATUS.STATE, with a record (R453). -/
def State.thmSet (s : State) (st : Nat) : State :=
  if s.rd .thmState = st then s else (s.wr .thmState st).emit 0x30 8 [st, s.rd .thmHotT * 65536]

/-- A sensor is found broken: its islands are marked until reset (R397). -/
def State.sensorBroken (s : State) (islands : List Nat) : State :=
  let s := s.each islands (fun i t => t.wr .thmIslandSensorFail 1 0 i)
  (s.bump .thmSensorFailCnt).raise .thmIntStatus Irq.thmSensorFail

/-! ## Critical temperature (R403, R404) -/

/-- The Standby entry of a critical condition: without a vote; before B2 a partial commit is aborted, and one whose table
writes are complete ends, as its lanes have no boundary left. An entry to Deep that runs ends in Standby; at start-up tests
abort, and lane enable finds the latch (R79, R403, R406, R423, R480; DEDUCED, log entry 39). -/
def State.critStandby (s : State) : State :=
  let s := s.wr .thmCritWait 0
  let st := s.rd .pwrDevState
  if st = 0 ∨ st = 3 then ((if s.rd .imgState = 5 then s.pcFinish else s.pcAbort)).standbyEnter
  else if st = 4 then s.puts [(.pwrDevState, 1), (.pwrWakePend, 0)]
  else if st = 6 then s.abortTests
  else s

/-- A critical condition: every transmit direction runs the fault sequence at once, the latch, then Standby, after the table writes of a partial commit at or
past B2 (R79, R403). -/
def State.critical (s : State) : State :=
  if s.on .thmCritLatch then s
  else
    let s := s.each (List.range 8) (fun n t => t.ltxFault n 9)
    let s := (((s.puts [(.thmCritLatch, 1), (.thmThrottleReq, 0), (.thmStepWait, 0)]).bump .thmCritCnt).raise .thmIntStatus
      Irq.thmCritical).thmSet 4
    if s.rd .imgState = 5 ∧ !s.on .imgPcWritten then s.wr .thmCritWait 1 else s.critStandby

/-- T_hot and every diode lie below RESUME_C (R404). -/
def State.cool (s : State) : Bool :=
  decide (s.rdInt .thmHotT < s.celsius .thmResumeC) &&
    (List.range 4).all (fun k => decide (s.rdInt .thmDiodeTemp 0 k < s.celsius .thmResumeC))

/-- CRIT_LATCH clears: every thermal step with it, and the device wakes with source THERMAL unless LPMODE or STANDBY_SW
holds Standby (R404). -/
def State.critClear (s : State) : State :=
  let s := (s.puts [(.thmCritLatch, 0), (.thmThrottleReq, 0), (.thmCritWait, 0)]).raise .thmIntStatus Irq.thmCritCleared
  let s := s.each (List.range 8) (fun n t => (((t.wr .thmLnOrigProfile 0 0 n).wr .thmLnProfileSteps 0 0 n).wr
    .thmLnDvfsSteps 0 0 n).wr .thmLnShutdown 0 0 n)
  let s := s.each [1, 2] (fun k t => (t.wr .thmLvlCnt 0 0 k).wr .thmLvlOn 0 0 k)
  let s := (({ s with thermal := [] } : State).thmSet 0).dvfsKick
  if !s.standbyHeld ∧ !s.on .pwrStandbySw then s.standbyRelease 6 else s

/-- CRIT_CLR (R404). -/
def execCritClr (s : State) : Out :=
  .next (s.access .thm 0 (fun s => if s.on .thmCritLatch ∧ s.cool then s.critClear else s))

/-- CRIT_AUTO_CLEAR (R404). -/
def execCritAutoClear (s : State) : Out :=
  .next (if s.on .thmCritLatch ∧ s.on .thmCritAuto ∧ s.cool then s.critClear else s)

/-! ## Steps (R400 to R402) -/

/-- A step is recorded as the most recent one. -/
def State.stepTaken (s : State) (k : StepKind) (n old : Nat) : State :=
  let s := { s with thermal := ⟨k, n, old⟩ :: s.thermal }
  (s.bump .thmStepCnt).raise .thmIntStatus Irq.thmStep

/-- The profile a lane's ingress runs or is being forced to; a host request accepted and not yet made counts for nothing, as the
step ends it ABORTED (R218, R401, R406). -/
def State.forcedFrom (s : State) (n : Nat) : Nat :=
  if s.on .lfrSwPend n && s.on .lfrReqForced n then s.rd .lfrSwProf n else s.rd .lfrProfActive n

/-- The first possible action on a lane: profile, operating point, shutdown; none where it is shut down (R401). -/
def State.stepOn (s : State) (n : Nat) : Option State :=
  if s.on .thmLnShutdown 0 n then none
  else
    let prof := s.forcedFrom n
    let forced := if 0 < prof ∧ prof < 3 ∧ s.rd .lfrGroupMode n ≠ 2 then s.profForce n (prof - 1) else none
    match forced with
    | some t =>
      let t := t.when (!t.on .thmLnProfileSteps 0 n) (fun u => u.wr .thmLnOrigProfile prof 0 n)
      some ((t.wr .thmLnProfileSteps (t.rd .thmLnProfileSteps 0 n + 1) 0 n).stepTaken .profile n prof)
    | none =>
      let k := s.rd .thmLnDvfsSteps 0 n
      if k < (if s.ristretto n then 2 else 3) then
        some (((s.wr .thmLnDvfsSteps (k + 1) 0 n).dvfsKick).stepTaken .dvfs n k)
      else
        let t := (s.wr .thmLnShutdown 1 0 n).lrxOff n
        let t := t.each (t.hostsOf n) (fun h u => u.hifOff h)
        some (t.stepTaken .shutdown n 0)

/-- Lanes from the hottest down, the lowest first on a tie: the higher of the LANE and DECODE estimates (R401). -/
def State.hotLanes (s : State) : List Nat :=
  let t (n : Nat) : Int := max (s.rdInt .thmIslandTemp 0 n) (s.rdInt .thmIslandTemp 0 (8 + n))
  let ins (n : Nat) (l : List Nat) : List Nat := l.takeWhile (fun m => decide (t n ≤ t m)) ++ n :: l.dropWhile (fun m
    => decide (t n ≤ t m))
  (List.range 8).foldl (fun l n => ins n l) []

/-- One enforcement step, on the hottest lane that can act; during the table writes of a partial commit it waits (R79,
R401). -/
def State.enforce (s : State) : State :=
  if s.rd .imgState = 5 ∧ !s.on .imgPcWritten then s.wr .thmStepWait 1
  else (s.hotLanes.findSome? (fun n => s.stepOn n)).getD s

/-- GRACE_EXPIRY (R400). -/
def execGraceExpiry (s : State) : Out :=
  .next (if s.rd .thmState = 1 ∧ s.on .thmThrottleReq then (s.thmSet 2).enforce else s)

/-- THROTTLE_STEP: STEP_MS after the last, a step while T_hot is at or above THR_C (R400, R401). -/
def execThrottleStep (s : State) : Out :=
  .next (if s.rd .thmState = 2 ∧ s.on .thmThrottleReq ∧ s.celsius .thmThrC ≤ s.rdInt .thmHotT then s.enforce else s)

/-- The most recent step is undone; a profile change that its checks refuse keeps the step (R402). -/
def State.undo (s : State) : Option State :=
  match s.thermal with
  | [] => none
  | ⟨.profile, n, old⟩ :: l =>
    (s.profForce n old).map (fun t =>
      let t := t.wr .thmLnProfileSteps (t.rd .thmLnProfileSteps 0 n - 1) 0 n
      ({ t with thermal := l } : State).raise .thmIntStatus Irq.thmRestore)
  | ⟨.dvfs, n, old⟩ :: l =>
    some ((({ s with thermal := l } : State).wr .thmLnDvfsSteps old 0 n).dvfsKick.raise .thmIntStatus Irq.thmRestore)
  | ⟨.shutdown, n, _⟩ :: l =>
    let s := (({ s with thermal := l } : State).wr .thmLnShutdown 0 0 n).setDomain (9 + n) true
    let s := s.each (s.hostsOf n) (fun h t => t.when (!t.maskBit .pwrDomHost (h / 4)) (fun u => u.setDomain (17 + h / 4)
      true))
    let s := s.when (s.on .lrxEnable n) (fun t => t.lrxEnableOn n)
    let s := s.each (s.hostsOf n) (fun h t => t.when (t.on .hifEnable h) (fun u => u.hifEnableOn h))
    some (s.raise .thmIntStatus Irq.thmRestore)

/-- Without a request, STATE is NORMAL once no step is in force (R400). -/
def State.thmSettle (s : State) : State :=
  if s.rd .thmState = 3 ∧ s.thermal = [] then s.thmSet 0 else s

/-- T_hot lies below WARN_C, with no request and no critical latch, so steps may be undone (R402). -/
def State.mayUndo (s : State) : Bool :=
  !s.on .thmThrottleReq && !s.on .thmCritLatch && decide (s.rdInt .thmHotT < s.celsius .thmWarnC)

/-- RECOVER_EXPIRY (R402). -/
def execRecoverExpiry (s : State) : Out :=
  .next (if s.rd .thmState = 3 ∧ s.on .thmAutoRestore ∧ s.mayUndo then (s.undo.getD s).thmSettle else s)

/-- Undo every step that can be undone, the most recent first. -/
def State.undoAll (s : State) : Nat → State
  | 0 => s
  | k + 1 => match s.undo with
    | some t => State.undoAll t k
    | none => s

/-- RESTORE (R402). -/
def execRestore (s : State) : Out :=
  .next (s.access .thm 0 (fun s => if s.mayUndo then (s.undoAll s.thermal.length).thmSettle else s))

/-! ## Levels (R398, R400) -/

/-- A level is crossed, or its condition clears (R398, R400). -/
def State.levelChange (s : State) (k : Nat) (on : Bool) : State :=
  match k, on with
  | 0, true => ((s.wr .thmWarn 1).raise .thmIntStatus Irq.thmWarn).cmis .tempWarn
  | 0, false => s.wr .thmWarn 0
  | 1, true =>
    if s.on .thmCritLatch then s
    else ((((s.wr .thmThrottleReq 1).bump .thmThrottleCnt).raise .thmIntStatus Irq.thmThrottleReq).cmis .tempAlarm).thmSet 1
  | 1, false =>
    if s.on .thmThrottleReq then (s.wr .thmThrottleReq 0).thmSet (if s.thermal = [] then 0 else 3) else s
  | _, true => s.critical
  | _, false => s

/-- Compare T_hot with level `k`: on after 3 consecutive updates, off below the level less HYST_C (R398). -/
def State.levelCheck (s : State) (k : Nat) : State :=
  let level := s.celsius (if k = 0 then .thmWarnC else if k = 1 then .thmThrC else .thmCritC)
  let hot := s.rdInt .thmHotT
  if s.on .thmLvlOn 0 k then
    if hot < level - s.celsius .thmHystC then (s.wr .thmLvlOn 0 0 k).levelChange k false else s
  else if level ≤ hot then
    let c := s.rd .thmLvlCnt 0 k + 1
    if 3 ≤ c then ((s.wr .thmLvlCnt 0 0 k).wr .thmLvlOn 1 0 k).levelChange k true else s.wr .thmLvlCnt c 0 k
  else s.wr .thmLvlCnt 0 0 k

/-- A rail-current reading is judged: below -2 % of full scale, above the plausible maximum, or more than 50 % off the prediction in
1,000 consecutive updates, which are 10 ms (R397). -/
def State.railRead (s : State) (counts : List Nat) (k : Nat) (ma : Int) : State :=
  let want := Config.railPredicted k counts
  let off := decide (want < 2 * (ma - want).natAbs)
  let run := if off then min 1000 (s.rd .thmRailOff 0 k + 1) else 0
  let bad := decide (100 * ma < -2 * (Config.railFullScale k : Int)) || decide (railMaxMa k < ma) || run == 1000
  (s.wr .thmRailOff run 0 k).when (bad && !s.on .thmRailBroken 0 k) (fun u =>
    (u.wr .thmRailBroken 1 0 k).sensorBroken (railIslands k))

/-- An island reports its power and its estimate, node 0 in sixteenths of a degree; one that a broken sensor serves reports
SENSOR_FAIL_C at least (R394, R395, R397). -/
def State.islandReport (s : State) (i : Nat) (mw : Int) : State :=
  let node0 := s.node i 0 / 2 ^ 16
  let est := if s.on .thmIslandSensorFail 0 i then max node0 (s.celsius .thmSensorFailC) else node0
  (s.wrInt .thmIslandTemp est 0 i).wr .thmIslandPowerMw (clampInt 0 32767 mw).toNat 0 i

/-- THERMAL_MODEL_UPDATE: the activity counts of the islands and the rail currents in mA, which give each island its power; the RC
model moves, and T_hot is compared with the levels (R394, R395, R397, R398). -/
def execThermalModelUpdate (counts : List Nat) (rails : List Int) (s : State) : Out :=
  .next (if !s.on .pwrDomMgmt then s
    else
      let s := s.each (rails.take 4).zipIdx (fun e t => t.railRead counts e.2 e.1)
      let power (i : Nat) : Int := s.islandPower counts rails i
      let s := (s.rcStep power).each (List.range 24) (fun i t => t.islandReport i (power i))
      let hot := (List.range 24).foldl (fun (b : Nat) i =>
        if s.rdInt .thmIslandTemp 0 b < s.rdInt .thmIslandTemp 0 i then i else b) 0
      let s := (s.wrInt .thmHotT (s.rdInt .thmIslandTemp 0 hot)).wr .thmHotIsland hot
      ((s.levelCheck 0).levelCheck 1).levelCheck 2)

/-- One diode of DIODE_MEASURE, compared with the model's node 2 at its location (R396, R397). -/
def State.diodeRead (s : State) (k : Nat) (d : DiodeReading) : State :=
  if s.on .thmDiodeBroken 0 k then s
  else
    let jump := s.on .thmDiodeSeen 0 k && decide (320 < (d.temp - s.rdInt .thmDiodeTemp 0 k).natAbs)
    let s := (s.wrInt .thmDiodeTemp d.temp 0 k).wr .thmDiodeSeen 1 0 k
    if d.forwardMv < 300 ∨ 900 < d.forwardMv ∨ jump then
      let s := (s.wr .thmDiodeBroken 1 0 k).sensorBroken (diodeIslands k)
      if (List.range 4).all (fun j => s.on .thmDiodeBroken 0 j) then s.critical else s
    else
      let model := Config.diodeModel k ((diodeIslands k).map (fun i => s.node i 2))
      let diff := d.temp * 2 ^ 16 - model
      let s := s.wrInt .thmDiodeResid (clampInt (-2048) 2047 (-diff / 2 ^ 16)) 0 k
      s.wrInt .thmCase (s.rdInt .thmCase + diff / 2 ^ s.rd .thmCalSh)

/-- DIODE_MEASURE: forward voltage and temperature of each diode (R396, R397). -/
def execDiodeMeasure (ds : List DiodeReading) (s : State) : Out :=
  .next (if s.on .pwrDomMgmt then s.each (ds.take 4).zipIdx (fun e t => t.diodeRead e.2 e.1) else s)

/-- AON_DIODE_COMPARE: the hardware comparison of each diode with CRIT_C; in Deep only R405 applies (R399, R405). -/
def execAonDiodeCompare (temps : List Int) (s : State) : Out :=
  .next (if s.rd .pwrDevState ≠ 5 ∧ (temps.take 4).any (fun t => decide (s.celsius .thmCritC ≤ t)) then s.critical else s)

/-- AON_THERMAL_CROSSING: diode 0 moves from one temperature to another; a crossing of AON_WAKE_C in the direction of
AON_DIR is a wake source in Standby and Deep (R369, R405). -/
def execAonThermalCrossing (before after : Int) (s : State) : Out :=
  let level := s.celsius .thmAonWakeC
  .next (if (if s.on .thmAonDir then after < level ∧ level ≤ before else before < level ∧ level ≤ after) then
    s.wakeDevice 6 else s)

/-- THM_CNT_CLR (R407). -/
def execThmCntClr (s : State) : Out :=
  .next (s.access .thm 0 (fun s => s.clear [.thmThrottleCnt, .thmCritCnt, .thmStepCnt, .thmSensorFailCnt]))

end Sys2Proof.Machine
end

