-- ==== Sys2Proof/Machine/Health.lean ====
section
/-!
DEFINITION. The health block: fault windows, self-tests and the calibration scheduler (R408 to R432).
-/
namespace Sys2Proof.Machine

/-! ## Fault windows (R409 to R414) -/

/-- Instances of a fault source (R411). -/
def sourceInstances (src : Nat) : Nat :=
  if src ≤ 8 ∨ src = 12 ∨ src = 13 then 8 else if src = 9 ∨ src = 10 then 16 else if src = 11 then 5 else 1

/-- FAULT_SOURCE_EVENT: `k` events of one tick at an instance of a source. Sources 3, 8 and 9 change the cause of an
object that is in FAULT (R409 to R411, R414). -/
def execFaultSourceEvent (src inst : Fin 16) (k : BitVec 10) (s : State) : Out :=
  .next (if sourceInstances src ≤ inst.val ∨ k = 0 then s
  else
    let r := s.countEvent src inst k.toNat
    if !r.2 then r.1
    else if src.val = 3 then r.1.when (r.1.rd .lrxState inst == 7) (fun t => t.lrxFault inst 8)
    else if src.val = 8 then r.1.when (r.1.rd .ltxState inst == 7) (fun t => t.ltxFaultWindow inst)
    else if src.val = 9 then r.1.when (r.1.rd .hifState inst == 7) (fun t => t.hifFault inst 8)
    else r.1.objectAction src inst)

/-- FAULT_WINDOW_CLOSE: WIN_US after it opened (R409). -/
def execFaultWindowClose (src inst : Fin 16) (s : State) : Out :=
  .next ((s.wr .hltWinOpen 0 src inst).wr .hltWinCount 0 src inst)

/-- LASTING_CLEAR: bits of HLT_SRC_LASTING written 1 (R413). -/
def execLastingClear (src : Fin 16) (mask : BitVec 16) (s : State) : Out :=
  .next (s.access .hlt 0 (fun s => s.each ((List.range 16).filter (fun i => mask.getLsbD i))
    (fun i t => t.clearLasting src i)))

/-! ## Requests for a self-test (R415 to R419) -/

/-- Units of a kind (R415). -/
def testUnits (kind : Nat) : Nat :=
  match kind with
  | 0 => 128
  | 1 => 8
  | 2 => 4
  | 4 => 8
  | _ => 1

/-- KEYSTORE and ENVELOPE run in Manufacturing and Returned only (R415, R419). -/
def State.testPermitted (s : State) (kind : Nat) : Bool :=
  decide (kind < 6) || ((kind == 6 || kind == 7) && (s.rd .secLcState == 1 || s.rd .secLcState == 3))

/-- HLT_BIST_CMD with GO: refused while a request is open; NOT_PERMITTED ends it at once (R415, R419, R432). -/
def State.bistGo (s : State) (kind unit : Nat) (preempt : Bool) : State :=
  let s := s.puts [(.hltBistKind, kind), (.hltBistUnit, unit), (.hltBistPreempt, bit preempt)]
  if s.on .hltBistGo then s.wr .hltBistRefused 1
  else
    let s := s.wr .hltBistRefused 0
    if !s.testPermitted kind ∨ testUnits kind ≤ unit then s.testResult kind unit 4 .software
    else
      let t : BistTest := ⟨kind, unit, .software, .pending, preempt⟩
      { s.puts [(.hltBistGo, 1), (.hltBistState, 1)] with tests := s.tests ++ [t] }

/-- BIST_ENGINE (R415). -/
def execBistEngine (unit : BitVec 7) (preempt : Bool) (s : State) : Out :=
  .next (s.access .hlt 0 (fun t => t.bistGo 0 unit.toNat preempt))

/-- BIST_LANE (R415). -/
def execBistLane (unit : BitVec 7) (preempt : Bool) (s : State) : Out :=
  .next (s.access .hlt 0 (fun t => t.bistGo 1 unit.toNat preempt))

/-- BIST_HOST (R415). -/
def execBistHost (unit : BitVec 7) (preempt : Bool) (s : State) : Out :=
  .next (s.access .hlt 0 (fun t => t.bistGo 2 unit.toNat preempt))

/-- BIST_XBAR (R415). -/
def execBistXbar (unit : BitVec 7) (preempt : Bool) (s : State) : Out :=
  .next (s.access .hlt 0 (fun t => t.bistGo 3 unit.toNat preempt))

/-- BIST_CTRL_DAC (R415). -/
def execBistCtrlDac (unit : BitVec 7) (preempt : Bool) (s : State) : Out :=
  .next (s.access .hlt 0 (fun t => t.bistGo 4 unit.toNat preempt))

/-- BIST_MON_ADC (R415). -/
def execBistMonAdc (unit : BitVec 7) (preempt : Bool) (s : State) : Out :=
  .next (s.access .hlt 0 (fun t => t.bistGo 5 unit.toNat preempt))

/-- BIST_KEYSTORE (R419). -/
def execBistKeystore (unit : BitVec 7) (preempt : Bool) (s : State) : Out :=
  .next (s.access .hlt 0 (fun t => t.bistGo 6 unit.toNat preempt))

/-- BIST_ENVELOPE (R419). -/
def execBistEnvelope (unit : BitVec 7) (preempt : Bool) (s : State) : Out :=
  .next (s.access .hlt 0 (fun t => t.bistGo 7 unit.toNat preempt))

/-- The tests of the start-up stage: the kinds of BOOT_MASK (R421). -/
def State.bootTests (s : State) : State :=
  let ks := (List.range 8).filter (fun k => s.maskBit .hltBootMask k && s.testPermitted k)
  { s with tests := s.tests ++ ks.flatMap (fun k => (List.range (testUnits k)).map (fun u => ⟨k, u, .boot, .pending,
    false⟩)) }

/-- The unit of a test can come to be tested: an engine that is not FAILED or stopped, an island that is powered (R243, R326,
R415). -/
def State.testable (s : State) (t : BistTest) : Bool :=
  match t.kind with
  | 0 => decide (s.engState t.unit < 7)
  | 1 => s.maskBit .pwrDomLane t.unit
  | 2 => s.maskBit .pwrDomHost t.unit
  | 3 => s.on .pwrDomXbar
  | _ => true

/-- A boot test is still to be awaited; one whose unit cannot be tested is not (R421; DEDUCED, log entry 41). -/
def State.bootTestOpen (s : State) (t : BistTest) : Bool := t.origin == .boot && (t.phase != .pending || s.testable t)

/-! ## Start (R415 to R418) -/

/-- Slot of a kind (R415). -/
def slotOf (kind : Nat) : TestSlot := if kind = 0 then .engine else if kind ≤ 3 then .island else .peripheral

/-- Tests that a kind of slot runs at once (R417). -/
def slotSize : TestSlot → Nat
  | .engine => 32
  | .island => 2
  | .peripheral => 1

/-- Order of pending tests within a slot: BOOT, software, background, then the unit, XBAR before LANE before HOST (R417,
R421). -/
def testKey (t : BistTest) : Nat :=
  let unit := match t.kind with
    | 1 => 1 + t.unit
    | 2 => 9 + t.unit
    | 3 => 0
    | 5 => 8
    | 6 => 9
    | 7 => 10
    | _ => t.unit
  t.origin.ctorIdx * 256 + unit

/-- Line lanes whose transmit is in OFF or FAULT. -/
def State.txQuiet (s : State) (n : Nat) : Bool := s.rd .ltxState n == 0 || s.rd .ltxState n == 7

/-- Prerequisite of a test (R415, R473); an engine that has found work is not idle, and one held to decoding takes no test
(R242, R246). -/
def State.testReady (s : State) (t : BistTest) : Bool :=
  let quietRx (n : Nat) : Bool := s.rd .lrxState n == 0 || s.rd .lrxState n == 7
  let quietHost (h : Nat) : Bool := s.rd .hifState h == 0 || s.rd .hifState h == 7
  match t.kind with
  | 0 => !s.engHeld t.unit && ((s.engState t.unit == 0 && s.asks.all (fun a => a.1 != t.unit)) ||
    (t.preempt && decide (s.engState t.unit ≤ 4)))
  | 1 => s.maskBit .pwrDomLane t.unit && ((quietRx t.unit && s.txQuiet t.unit) || t.preempt)
  | 2 => s.maskBit .pwrDomHost t.unit && ((List.range 4).all (fun k => quietHost (4 * t.unit + k)) || t.preempt)
  | 3 => s.on .pwrDomXbar && (List.range 8).all (fun n => s.rd .lrxState n == 0)
  | 4 => s.txQuiet t.unit
  | 5 => true
  | 6 => s.testPermitted 6 && !s.on .secBusy
  | _ => s.testPermitted 7 && (List.range 8).all s.txQuiet

/-- The key registers, the secrets' copies, the nonce and the token registers clear (R419, R468, R470). -/
def State.clearSecrets (s : State) : State :=
  let s := s.puts [(.secKeyData, 0), (.secTokenR, 0), (.secTokenS, 0), (.secKeyIndex, 0), (.secNonce, 0), (.secNonceValid, 0),
    (.secSecretIn, 0)]
  s.each (List.range 4) (fun k t => ((t.wr .secKeyState 0 0 k).wr .secKeyFlags 0 0 k).wr .secKeyPoint 0 0 k)

/-- Key registers and secrets reload from NVM (R419, R471). -/
def State.loadSecrets (s : State) : State :=
  (s.wr .secSecretIn 1).each (List.range 4) (fun k t =>
    ((t.wr .secKeyState (t.nvmGet .secKeyState 0 k) 0 k).wr .secKeyFlags (t.nvmGet .secKeyFlags 0 k) 0 k).wr .secKeyPoint
      (t.nvmGet .secKeyPoint 0 k) 0 k)

/-- What a KEYSTORE test cleared comes back, unless the SECRET region failed its CRC or was closed, or the KEYS region failed its own
(R419, R468, R471). -/
def State.reloadSecrets (s : State) : State :=
  let t := s.when (!s.on .secKeysBad) State.loadSecrets
  t.wrb .secSecretIn (s.on .secSecretHad && !s.on .secSecretClosed)

/-- Isolate a unit for its test (R418, R419, R431). -/
def State.testIsolate (s : State) (t : BistTest) : State :=
  let u := t.unit
  match t.kind with
  | 0 =>
    let s := (s.engAbandon u EngWork.hard).setEng u 5
    { s.wr .arcEngRun 0 0 u with
      asks := s.asks.filter (fun a => a.1 ≠ u),
      bg := s.bg.map (fun b => if b.kind = 0 ∧ b.eng = u then { b with server := some u, age := 0, run := true }
        else b.giveBack u false) }
  | 1 => ((((s.ltxOff u).lrxOff u).optClamp u).setDomain (9 + u) false).setDomain (9 + u) true
  | 2 => ((s.each (List.range 4) (fun k v => v.hifOff (4 * u + k))).setDomain (17 + u) false).setDomain (17 + u) true
  | 3 => (s.setDomain 0 false).setDomain 0 true
  | 6 => (s.wr .secSecretHad (s.rd .secSecretIn)).clearSecrets
  | _ => s

/-- BIST_START: the first pending test of a kind of slot whose prerequisite holds starts where a slot is free, the
island's clock is in its window, VDD_CORE reads 0.70 to 0.80 V and the supply is not below warning (R416 to R418). -/
def execBistStart (slot : TestSlot) (clockOk : Bool) (mv : BitVec 10) (s : State) : Out :=
  let mine := s.tests.filter (fun t => slotOf t.kind == slot)
  let running := (mine.filter (fun t => t.phase == .running)).length
  let best := (mine.filter (fun t => t.phase == .pending && s.testReady t && !s.underTest t.kind t.unit)).foldl
    (fun (w : Option BistTest) t => match w with
      | some x => if testKey t < testKey x then some t else w
      | none => some t) none
  .next (match best with
  | some t =>
    if running < slotSize slot ∧ clockOk ∧ 700 ≤ mv.toNat ∧ mv.toNat ≤ 800 ∧ !s.warning then
      let s := s.testIsolate t
      let s := s.when (t.origin == .software) (fun u => u.wr .hltBistState 2)
      { s with tests := s.tests.map (fun x => if x = t then { t with phase := .running } else x) }
    else s
  | none => s)

/-- BIST_WAIT_TIMEOUT: a software request that has not started ends UNTESTED (R417). -/
def execBistWaitTimeout (s : State) : Out :=
  .next (match s.tests.find? (fun t => t.origin == .software && t.phase == .pending) with
  | some t =>
    let s := { s with tests := s.tests.erase t }
    ((s.wr .hltBistState 0).bump .hltUntestedCnt).testResult t.kind t.unit 2 .software
  | none => s)

/-- BIST_CONDITION_LOST: clock or voltage leaves its window during a test (R416). -/
def execBistConditionLost (kind : Fin 8) (unit : BitVec 7) (s : State) : Out :=
  .next (s.endTest kind unit.toNat .hltUntestedCnt)

/-! ## Results (R420) -/

/-- Whether a report of a kind tells of a failure. -/
def reportFails (r : BistReport) (kind : Nat) : Bool :=
  r.logic || (kind == 1 && (!r.slices.isEmpty || !r.cells.isEmpty)) || (kind == 2 && r.serdes != 0)

/-- A line lane is held in OFF, ENABLE and TX_EN reading 0 (R420). -/
def State.laneHold (s : State) (n : Nat) : State :=
  let s := (s.lrxOff n).puts [(.lrxEnable, 0), (.lrxHeldOff, 1), (.ltxTxEn, 0), (.ltxHeldOff, 1)] n
  (s.ltxRecheck n).setMask .hltFailLane n true

/-- What a failure marks (R420, R470). -/
def State.testFailed (s : State) (kind unit : Nat) (r : BistReport) : State :=
  match kind with
  | 0 => s.engFail unit
  | 1 =>
    let s := s.each r.slices (fun i t => t.sliceFail unit i)
    let s := s.each r.cells (fun c t => t.cellFail unit c)
    s.when r.logic (fun t => t.laneHold unit)
  | 2 =>
    let bad := (List.range 4).filter (fun k => r.logic || r.serdes.getLsbD k)
    (s.each bad (fun k t => t.wr .hifHeldOff 1 (4 * unit + k))).setMask .hltFailHost unit true
  | 3 => s.wr .hltFailXbar 1
  | 4 => s.setMask .hltFailCtrlDac unit true
  | 5 => s.wr .hltFailMonAdc 1
  | 6 => s.puts [(.hltFailKeystore, 1), (.secKsFail, 1), (.secKsBoot, 1)]
  | _ => s.wr .hltFailEnvelope 1

/-- BIST_DONE: the running test of a unit ends with what it found, and the unit re-initialises (R418, R420). -/
def execBistDone (kind : Fin 8) (unit : BitVec 7) (r : BistReport) (s : State) : Out :=
  let k : Nat := kind
  let u := unit.toNat
  .next (match s.tests.find? (fun t => t.kind == k && t.unit == u && t.phase == .running) with
  | none => s
  | some t =>
    let s := (s.testReinit k u).bump .hltRunCnt
    let s := s.when (t.origin == .software) (fun v => v.wr .hltBistState 3)
    let s := if reportFails r k then
        (((s.bump .hltFailCnt).raise .hltIntStatus Irq.hltBistFail).testFailed k u r).when (t.origin == .boot && s.on
          .pwrStartup)
          (fun v => v.wr .glbBootFailStage 5)
      else s
    s.testResult k u (bit (reportFails r k)) t.origin)

/-! ## Re-initialisation and service requests (R418, R423) -/

/-- The unit whose test defers a request: kind and number. -/
def SvcReq.unit : SvcReq → Nat × Nat
  | .lrxEnable n | .txEnable n | .lrxRestart n | .ltxRestart n | .reneg n | .profileChange n | .lrxCommit n | .leqCommit n
  | .ltxCommit n | .sleep n _ => (1, n)
  | .hifEnable h | .hifRetrain h | .hifCommit h => (2, h / 4)

/-- Carry out a service request. -/
def State.serve (s : State) (r : SvcReq) : State :=
  match r with
  | .lrxEnable n => s.lrxEnableOn n
  | .txEnable n => s.ltxEnableOn n
  | .lrxRestart n => s.lrxRestartNow n
  | .ltxRestart n => s.ltxRestartNow n
  | .reneg n => s.renegNow n none
  | .profileChange n => s.profChangeNow n
  | .lrxCommit n => s.lrxCommitNow n
  | .leqCommit n => s.leqCommitNow n
  | .ltxCommit n => s.ltxCommitNow n
  | .hifEnable h => s.hifEnableOn h
  | .hifRetrain h => s.hifRetrainNow h
  | .hifCommit h => s.hifCommitNow h
  | .sleep n e => s.sleepRequest n e

/-- A unit is in use again (R418, R419). -/
def State.testRestart (s : State) (kind unit : Nat) : State :=
  match kind with
  | 0 =>
    { (s.loadStores [unit]).setEng unit 0 with bg := s.bg.filter (fun b => !(b.kind == 0 && b.eng == unit)) }
  | 1 => if s.on .lrxEnable unit && s.rd .lrxState unit == 0 && s.laneFree unit then (s.lrxToCal unit).ltxRecheck unit else s
  | 2 => s.each ((List.range 4).filter (fun k => s.on .hifEnable (4 * unit + k))) (fun k t => t.hifStart (4 * unit + k))
  | 3 => s.straitFlush onXbar
  | 6 => s.reloadSecrets
  | _ => s

/-- BIST_REINIT_DONE: the unit restarts and the deferred requests apply in the order written (R418, R423). -/
def execBistReinitDone (kind : Fin 8) (unit : BitVec 7) (s : State) : Out :=
  let k : Nat := kind
  let u := unit.toNat
  .next (match s.tests.find? (fun t => t.kind == k && t.unit == u && t.phase == .reinit) with
  | none => s
  | some t =>
    let s := { s with tests := s.tests.erase t }
    let due (r : SvcReq) : Bool := r.unit == (k, u) || (k == 4 && r.unit == (1, u))
    let mine := if (k = 1 ∨ k = 4) ∧ (s.underTest 1 u ∨ s.underTest 4 u) then [] else s.deferred.filter due
    let s := { s with deferred := s.deferred.filter (fun r => !mine.contains r) }
    let s := s.when (t.origin == .software && s.rd .hltBistState == 3) (fun v => v.wr .hltBistState 0)
    (s.testRestart k u).each mine (fun r v => v.serve r))

/-- BG_BIST_DUE: the background test of an engine falls due (R245, R422). -/
def execBgBistDue (e : Fin 128) (s : State) : Out :=
  let n : Nat := e
  .next (if s.on .hltBgBistEn ∧ s.engState n < 7 ∧ !s.tests.any (fun t => t.kind == 0 && t.unit == n) then
    { s with tests := s.tests ++ [⟨0, n, .background, .pending, false⟩],
             bg := s.bg ++ [⟨n / 16, 0, n, 0, false, none, none, false⟩] }
  else s)

/-! ## Calibration scheduler (R425 to R431) -/

/-- ADC_STEP_DUE: a step of a lane falls due, and startable steps are admitted (R426, R427). -/
def execAdcStepDue (n : Lane) (s : State) : Out :=
  let s := s.when (s.maskBit .hltAdcBgEn n && !s.on .lrxCalActive n) (fun t => t.wr .hltAdcDue 1 n)
  .next (s.adcAdmit 8)

/-- Due DAC steps start wherever the conditions of R171 hold (R171, R172, R426, R427). -/
def State.dacAdmit (s : State) : State :=
  s.each ((List.range 8).filter (fun n => s.on .hltDacDue n && s.maskBit .hltDacBgEn n && s.rd .ltxState n == 4 &&
      !s.on .ltxWakeSend n && !s.on .ltxSleep n && !s.on .ltxNoSpare n && !s.underTest 1 n && !s.warning))
    (fun n t => (t.puts [(.ltxCalActive, 1), (.ltxSwapReady, 0), (.ltxSwapDeferred, 0)] n).wr .hltDacDue 0 n)

/-- DAC_STEP_DUE: a step of a lane falls due and starts where it is startable (R426). -/
def execDacStepDue (n : Lane) (s : State) : Out :=
  let s := s.when (s.maskBit .hltDacBgEn n && !s.on .ltxCalActive n) (fun t => t.wr .hltDacDue 1 n)
  .next s.dacAdmit

/-- HEALTH_WINDOW_TICK: startable steps are admitted, those left age by one and at LIMIT escalate; background tasks of
the clusters age (R246, R425, R428, R431). -/
def execHealthWindowTick (s : State) : Out :=
  let s := s.bgAge.dacAdmit.adcAdmit 8
  .next (s.each ((List.range 8).filter (fun n => s.adcStartable n)) (fun n t =>
    let age := min 255 (t.rd .hltLnAdcAge n + 1)
    if t.rd .hltStarveLimit ≤ age then t.adcStart n true else t.wr .hltLnAdcAge age n))

/-- HLT_CNT_CLR: TOTAL, the BIST counters, ESC_CNT, RX_CNT and TX_CNT clear; the times stay (R430, R432). -/
def execHltCntClr (s : State) : Out :=
  .next (s.access .hlt 0 (fun s =>
    let s := s.clear [.hltRunCnt, .hltFailCnt, .hltAbortCnt, .hltUntestedCnt, .hltEscCnt]
    let s := s.each (List.range 8) (fun n t => t.clear [.hltLnRxCnt, .hltLnTxCnt] n)
    s.resetFields (fun k => k.f == .hltTotal)))

end Sys2Proof.Machine
end

