-- ==== Sys2Proof/Machine/Security.lean ====
section
/-!
DEFINITION. Lifecycle, keys, tokens, debug unlock and NVM writes (R460 to R474).
-/
namespace Sys2Proof.Machine

/-! ## The key store (R464) -/

/-- A slot is VALID with BOOT (R464). -/
def State.bootSlot (s : State) (k : Nat) : Bool := s.rd .secKeyState 0 k == 1 && s.maskBit' .secKeyFlags k 0

/-- A slot's state, flags and key as they go to the KEYS region. -/
def State.storeSlot (s : State) (k st flags point : Nat) : State :=
  let s := ((s.nvmSet .secKeyState st 0 k).nvmSet .secKeyFlags flags 0 k).nvmSet .secKeyPoint point 0 k
  ((s.wr .secKeyState st 0 k).wr .secKeyFlags flags 0 k).wr .secKeyPoint point 0 k

/-! ## The end of a command (R472, R474) -/

/-- A SEC command ends with a result: 0 OK, 1 STATE, 2 TOKEN, 3 NONCE, 4 COND, 5 SLOT, 6 NVM, 7 BUSY, 8 KS_FAIL. -/
def State.secEnd (s : State) (r : Nat) : State :=
  let s := s.puts [(.secResult, r), (.secBusy, 0), (.secCmdGo, 0), (.secOpRun, 0), (.secPhase, 0)]
  let s := s.setMask .secNvmBusy 0 false
  s.raise .secIntStatus (if r = 0 then Irq.secCmdDone else Irq.secCmdFail)

/-- The command writes the NVM (R472). -/
def State.secWrite (s : State) : State :=
  (s.puts [(.secBusy, 1), (.secCmdGo, 1), (.secPhase, 2), (.secLcCopy, 0)]).setMask .secNvmBusy 0 true

/-! ## Tokens (R466) -/

/-- A token check: nonce, slot with one of the flags needed, then the signature, which takes time. `other` names the slot
that may not sign. -/
def State.tokenCheck (s : State) (flags : Nat) (other : Option Nat) : State :=
  let k := s.rd .secKeyIndex
  if s.on .secKsFail then s.secEnd 8
  else if !s.on .secNonceValid then s.secEnd 3
  else if s.rd .secKeyState 0 k ≠ 1 ∨ (flags ≠ 0 ∧ s.rd .secKeyFlags 0 k &&& flags = 0) ∨ other = some k then
    (s.wr .secNonceValid 0).secEnd 2
  else s.puts [(.secBusy, 1), (.secCmdGo, 1), (.secPhase, 1)]

/-! ## The commands (R462 to R468, R473) -/

/-- Debug or internal scan is open (R468). -/
def State.secOpen (s : State) : Bool := s.on .secDebugOpen || s.on .secScanOpen

/-- An image operation or the boot is in progress (R79, R473). -/
def State.imgBusy (s : State) : Bool := decide (3 ≤ s.rd .imgState) || s.rd .imgState == 1

/-- SAVE_PENDING: below warning ENV_SAVE or another NVM write waits (R360). -/
def State.savePending (s : State) : Bool := s.warning && (s.on .optSaveBusy || s.on .secNvmBusy || s.rd .secPhase == 2)

/-- LC_ADVANCE to a state (R462, R467, R468, R473). -/
def State.lcAdvance (s : State) (target : Nat) : State :=
  let lc := s.rd .secLcState
  if (lc = 0 ∧ target = 1) ∨ (lc ≤ 1 ∧ target = 4) then if s.imgBusy then s.secEnd 7 else s.secWrite
  else if lc = 1 ∧ target = 2 then
    if s.imgBusy then s.secEnd 7
    else if s.on .secKsFail then s.secEnd 8
    else if (List.range 4).any s.bootSlot ∧ s.on .optGlbLocked ∧ !s.savePending ∧ s.rd .imgState = 2 ∧
        !s.secOpen then s.secWrite
    else s.secEnd 4
  else if (lc = 2 ∧ target = 3) ∨ ((lc = 2 ∨ lc = 3) ∧ target = 4) then
    if s.imgBusy then s.secEnd 7 else s.tokenCheck 4 none
  else s.secEnd 1

/-- KEY_PROGRAM: the point and flags into an EMPTY slot (R464, R467, R468). -/
def State.keyProgram (s : State) (slot : Nat) : State :=
  if 2 ≤ s.rd .secLcState then s.secEnd 1
  else if s.on .secKsFail then s.secEnd 8
  else if s.secOpen then s.secEnd 4
  else if 4 ≤ slot ∨ s.rd .secKeyState 0 slot ≠ 0 ∨ !onCurve (s.rd .secKeyData) then s.secEnd 5
  else s.secWrite

/-- KEY_REVOKE of a VALID slot; from Deployed on it needs a token of another slot (R464, R467, R468). -/
def State.keyRevoke (s : State) (slot : Nat) : State :=
  let lc := s.rd .secLcState
  if 4 ≤ lc then s.secEnd 1
  else if s.on .secKsFail then s.secEnd 8
  else if s.secOpen then s.secEnd 4
  else if 4 ≤ slot ∨ s.rd .secKeyState 0 slot ≠ 1 then s.secEnd 5
  else if !((List.range 4).any (fun k => k != slot && s.bootSlot k)) then s.secEnd 4
  else if lc ≤ 1 then s.secWrite
  else s.tokenCheck 0 (some slot)

/-- The scopes open after the secrets are cleared (R468). -/
def State.debugOpen (s : State) (scope : Nat) : State :=
  let s := s.clearSecrets.puts [(.cdbPwOk, 0), (.secSecretClosed, 1)]
  let s := s.when (scope.testBit 0) (fun t => t.wr .secDebugOpen 1)
  let s := s.when (scope.testBit 1) (fun t => t.wr .secScanOpen 1)
  s.raise .secIntStatus Irq.secUnlock

/-- DEBUG_UNLOCK of a scope (R461, R467, R468). -/
def State.debugUnlock (s : State) (scope : Nat) : State :=
  let lc := s.rd .secLcState
  if lc ≤ 1 then (s.debugOpen scope).secEnd 0
  else if lc = 3 then s.tokenCheck 2 none
  else s.secEnd 1

/-- ROLLBACK_SET: the floor rises to NEW (R465, R467). -/
def State.rollbackSet (s : State) : State :=
  if 4 ≤ s.rd .secLcState then s.secEnd 1
  else if s.rd .secRollbackNew < s.rd .secRollbackFloor ∨ s.rd .imgActiveSeq < s.rd .secRollbackNew then s.secEnd 4
  else s.secWrite

/-- NONCE: a fresh nonce from the random source (R466, R467). -/
def State.nonceDraw (s : State) : State :=
  if 4 ≤ s.rd .secLcState then s.secEnd 1
  else ((s.wrFree .secNonce).wr .secNonceValid 1).secEnd 0

/-- SEC_CMD with GO: while a command runs it ends with BUSY and has no effect; otherwise the command by OP (R467, R473,
R474). -/
def State.secGo (s : State) (op arg flags : Nat) : State :=
  let s := s.puts [(.secCmdOp, op), (.secCmdArg, arg), (.secCmdFlags, flags)]
  if s.on .secBusy then (s.wr .secResult 7).raise .secIntStatus Irq.secCmdFail
  else
    let s := s.puts [(.secOpRun, op), (.secArgRun, arg), (.secFlagsRun, flags)]
    match op with
    | 1 => s.lcAdvance arg
    | 2 => s.nonceDraw
    | 3 => s.keyProgram arg
    | 4 => s.keyRevoke arg
    | 5 => s.debugUnlock arg
    | 6 => s.rollbackSet
    | 7 => if s.rd .secLcState = 1 then s.secWrite else s.secEnd 1
    | _ => s.secEnd 1

/-- LC_ADVANCE (R462). -/
def execLcAdvance (target : BitVec 4) (flags : BitVec 3) (s : State) : Out :=
  .next (s.access .sec 0 (fun t => t.secGo 1 target.toNat flags.toNat))

/-- NONCE (R466). -/
def execNonce (arg : BitVec 4) (flags : BitVec 3) (s : State) : Out :=
  .next (s.access .sec 0 (fun t => t.secGo 2 arg.toNat flags.toNat))

/-- NONCE_EXPIRY: 60 s after NONCE (R466). -/
def execNonceExpiry (s : State) : Out := .next (s.wr .secNonceValid 0)

/-- KEY_PROGRAM (R464). -/
def execKeyProgram (slot : BitVec 4) (flags : BitVec 3) (s : State) : Out :=
  .next (s.access .sec 0 (fun t => t.secGo 3 slot.toNat flags.toNat))

/-- KEY_REVOKE (R464, R467). -/
def execKeyRevoke (slot : BitVec 4) (flags : BitVec 3) (s : State) : Out :=
  .next (s.access .sec 0 (fun t => t.secGo 4 slot.toNat flags.toNat))

/-- DEBUG_UNLOCK (R468). -/
def execDebugUnlock (scope : BitVec 4) (flags : BitVec 3) (s : State) : Out :=
  .next (s.access .sec 0 (fun t => t.secGo 5 scope.toNat flags.toNat))

/-- ROLLBACK_SET (R465). -/
def execRollbackSet (arg : BitVec 4) (flags : BitVec 3) (s : State) : Out :=
  .next (s.access .sec 0 (fun t => t.secGo 6 arg.toNat flags.toNat))

/-- FACTORY_SAVE (R467). -/
def execFactorySave (arg : BitVec 4) (flags : BitVec 3) (s : State) : Out :=
  .next (s.access .sec 0 (fun t => t.secGo 7 arg.toNat flags.toNat))

/-- SEC_OP_INVALID: OP 0, or 8 to 15 as `op` modulo 8 says, ends with STATE (R474). -/
def execSecOpInvalid (op : Option (Fin 8)) (arg : BitVec 4) (flags : BitVec 3) (s : State) : Out :=
  let code := match op with
    | some k => 8 + k.val
    | none => 0
  .next (s.access .sec 0 (fun t => t.secGo code arg.toNat flags.toNat))

/-- The 52 bytes that a token signs: the SEC_CMD word with GO 0, SEC_UID and SEC_NONCE; a multi-word value goes lowest byte
first (R466, R474, DEDUCED, log entry 69). -/
def State.tokenText (s : State) : List Nat :=
  let cmd := s.rd .secOpRun + s.rd .secArgRun * 2 ^ 8 + s.rd .secFlagsRun * 2 ^ 16
  (List.range 4).map (byteOf cmd) ++ (List.range 16).map (byteOf (s.rd .secUid)) ++ (List.range 32).map (byteOf (s.rd
    .secNonce))

/-- The token's signature verifies under the key of the slot it names (R466). -/
def State.tokenOk (s : State) : Bool :=
  ecdsaVerify (s.rd .secKeyPoint 0 (s.rd .secKeyIndex)) (sha384 s.tokenText) (s.rd .secTokenR) (s.rd .secTokenS)

/-- TOKEN_VERIFY_DONE: the signature is checked and the nonce consumed; the command goes on or ends with TOKEN (R466,
R473). -/
def execTokenVerifyDone (s : State) : Out :=
  .next (if s.rd .secPhase = 1 then
    let ok := s.tokenOk
    let s := s.wr .secNonceValid 0
    if !ok then (s.raise .secIntStatus Irq.secTokenFail).secEnd 2
    else if s.rd .secOpRun = 5 then (s.debugOpen (s.rd .secArgRun)).secEnd 0
    else s.secWrite
  else s)

/-! ## NVM writes (R463, R472) -/

/-- The verifier of a host password: HMAC-SHA-384 under the device secret; both go highest byte first (R471, DEDUCED,
log entry 24). -/
def State.passwordMac (s : State) (pw : Nat) : Nat :=
  hmacSha384 ((digestBytes (s.nvmGet .secDevice)).drop 16) ((digestBytes pw).drop 44)


/-- Entry to a lifecycle state erases what R462 lists. -/
def State.lcEnter (s : State) (st : Nat) : State :=
  let old := s.rd .secLcState
  let s := s.wr .secLcState st
  let noPw := fun (t : State) => (t.nvmSet .secPwSet 0).nvmSet .secPassword 0
  if st = 4 then
    let s := s.each (List.range 4) (fun k t => t.storeSlot k 0 0 0)
    ((noPw s).nvmSet .secDevice 0).wr .secSecretIn 0
  else if old = 2 ∧ st = 3 then (noPw s.free.2).nvmSet .secDevice s.free.1
  else s

/-- The next copy of the lifecycle state is read back: copy 1 puts it in force, copy 2 ends the command (R463). -/
def State.lcCopy (s : State) : State :=
  let c := s.rd .secLcCopy
  let st := s.rd .secArgRun
  let s := (s.nvmSet .secLcState st 0 c).wr .secLcCopy (c + 1)
  let s := s.when (c == 1) (fun t => t.lcEnter st)
  if c = 2 then (s.raise .secIntStatus Irq.secLcChange).secEnd 0 else s

/-- What the NVM write of a SEC command stores (R464, R465, R467). -/
def State.secStore (s : State) : State :=
  let k := s.rd .secArgRun
  match s.rd .secOpRun with
  | 1 => s.lcCopy
  | 3 => (s.storeSlot k 1 (s.rd .secFlagsRun) (s.rd .secKeyData)).secEnd 0
  | 4 => (s.storeSlot k 2 (s.rd .secKeyFlags 0 k) (s.rd .secKeyPoint 0 k)).secEnd 0
  | 6 =>
    let v := s.rd .secRollbackNew
    ((s.each (List.range 3) (fun i t => t.nvmSet .secRollbackFloor v 0 i)).wr .secRollbackFloor v).secEnd 0
  | _ =>
    let s := s.each (List.range 48) (fun p t => t.nvmSet .timDFact (ofSigned 32 (t.dPoint p)) 0 p)
    let s := s.each (List.range 8) (fun n t =>
      (t.nvmSet .timLnOptTx (t.rd .timLnOptTx n) n).nvmSet .timLnOptRx (t.rd .timLnOptRx n) n)
    (s.nvmSet .timCalValid 1).secEnd 0

/-- A field that ENV_SAVE stores: the LK fields of the safety region (R348, R471). -/
def safetyField (f : Field) : Bool := f.desc.access == .lk

/-- ENV_SAVE stores the limits, the power-up values and the protected peripherals (R348, R471). -/
def State.envStore (s : State) : State :=
  let rest := s.nvm.filter (fun e => !safetyField e.1.f)
  { s with nvm := (s.regs.filter (fun e => safetyField e.1.f)).foldl (fun m e => m.set e.1 e.2) rest }

/-- NVM_WRITE_DONE: a write and its readback complete; below warning a write waits. `ok` says that the readback agreed
(R348, R360, R472). -/
def execNvmWriteDone (job : NvmJob) (ok : Bool) (s : State) : Out :=
  .next (if s.warning then s
  else match job with
  | .sec => if s.rd .secPhase = 2 then (if ok then s.secStore else s.secEnd 6) else s
  | .envSave =>
    if s.on .optSaveBusy then
      let s := s.puts [(.optSaveBusy, 0), (.optGlbEnvSave, 0)]
      if ok then s.envStore.raise .optGlbIntStatus Irq.optGlbSaveDone else s
    else s
  | .password =>
    if s.maskBit .secNvmBusy 1 then
      let s := s.setMask .secNvmBusy 1 false
      if ok then ((s.nvmSet .secPassword (s.passwordMac (s.rd .cdbNewPw))).nvmSet .secPwSet 1).cdbEnd 0x01 else s.cdbEnd 0x40
    else s
  | .info =>
    if s.maskBit .secNvmBusy 2 then s.infoDone ok else s)

end Sys2Proof.Machine
end

