-- ==== Sys2Proof/Machine/Validate.lean ====
section
/-!
DEFINITION. The layout of the boot flash and of an image (R57,
  R61), the validator with its checks in their fixed order (R63 to
R68, R465), and the scope of a partial commit (R73).
-/
namespace Sys2Proof

open Machine

/-! ## The boot flash and the image (R57, R61, R62) -/

/-- The regions of the boot flash that the device reads, as offset and size: boot record copies 0 and 1, slots A and B
(R57). -/
def flashRegions : List (Nat × Nat) := [(0, 0x1000), (0x1000, 0x1000), (0x10000, 8323072), (0x810000, 8323072)]

/-- Base of slot 0 (A) or 1 (B) in the boot flash (R57). -/
def slotBase (slot : Nat) : Nat := if slot = 0 then 0x10000 else 0x810000

/-- Byte `k` of what a slot holds, which the device reads at `slotBase` plus `k`; nothing beyond the slot is read (R57). -/
def ImageFile.byte (f : ImageFile) (k : Nat) : Nat := if k < 8323072 then (f.bytes.getD k 0).toNat else 0

/-- `k` bytes from `lo` on. -/
def ImageFile.range (f : ImageFile) (lo k : Nat) : List Nat := (List.range k).map (fun i => f.byte (lo + i))

/-- The little-endian field of `k` bytes at `lo` (R61). -/
def ImageFile.at (f : ImageFile) (lo k : Nat) : Nat := littleEndian (f.range lo k)

/-- MAGIC (R61). -/
def imageMagic : Nat := 0x44575943

/-- Entry `k` of the section table: TYPE, FLAGS, OFFSET, LENGTH, and whether the section's CRC-32 matches (R61, R62). A
section that reaches beyond a slot is refused by its layout first. -/
def ImageFile.section (f : ImageFile) (k : Nat) : ImgSection :=
  let e := 0x40 + 16 * k
  let off := f.at (e + 4) 4
  let len := f.at (e + 8) 4
  ⟨f.byte e, f.byte (e + 1) % 2 == 1, off, len, crc32 (f.range off (min len 8323072)) == f.at (e + 12) 4⟩

/-- The image in a slot. Integers are little-endian, r and s of the signature too (R61, R62, log entry 69). -/
def Image.ofFile (f : ImageFile) : Image :=
  let count := f.at 0x1C 2
  let len := f.at 0x0C 4
  let sections := (List.range count).map f.section
  let sig := len - 128
  { magicOk := f.at 0 4 == imageMagic, fmtMajor := f.at 4 2, fmtMinor := f.at 6 2, target := f.at 8 2, minStep := f.at 0x0A 2,
    imgLen := len, seq := f.at 0x10 4, build := f.at 0x14 8,
    hdrCrcOk := crc32 (f.range 0 0x20 ++ f.range 0x40 (16 * count)) == f.at 0x20 4, sections := sections,
    digest := sha384 (f.range 0 sig), keyIndex := f.byte sig, sigR := f.at (sig + 32) 48, sigS := f.at (sig + 80) 48,
    records := f.parts.records, programs := f.parts.programs,
    firmware := sha384 (((sections.find? (fun e => e.type == 3)).map (fun e => f.range e.offset (min e.length
      8323072))).getD []),
    laneDefaults := f.parts.laneDefaults, groupMap := f.parts.groupMap }

end Sys2Proof

namespace Sys2Proof.Machine

/-- A failed check: refusal code, lane, section-table index, and IMG_ERR_DETAIL, each where the check names one (R68,
R81). -/
structure ImgFailure where
  code : Nat
  lane : Option Nat
  sec : Option Nat
  det : Option Nat
deriving DecidableEq, Repr

/-- A check: nothing where the condition holds, else the failure. -/
def refuseIf (c : Bool) (code : Nat) (lane sec det : Option Nat) : Option ImgFailure :=
  if c then some ⟨code, lane, sec, det⟩ else none

/-! ## Steps 1 to 4 (R63, R64, R465) -/

/-- End of the section table (R61, R64). -/
def tableEnd (i : Image) : Nat := 0x40 + 16 * i.sections.length

/-- Step 1: MAGIC, version, target, length (R63, R64). -/
def checkHeader (i : Image) : Option ImgFailure :=
  let h := some 0xFF
  (refuseIf (!i.magicOk) 0x01 none h none).or <|
  (refuseIf (i.fmtMajor != 3 && i.fmtMajor != 4) 0x02 none h none).or <|
  (refuseIf (i.target != 0x3208 || decide (0x21 < i.minStep)) 0x03 none h none).or <|
  refuseIf (decide (8323072 < i.imgLen) || decide (i.imgLen < tableEnd i + 128) || i.imgLen % 4 != 0 ||
    i.sections.isEmpty || decide (16 < i.sections.length)) 0x04 none h none

/-- Byte ranges of two sections overlap. -/
def overlap (a b : ImgSection) : Bool := decide (a.offset < b.offset + b.length ∧ b.offset < a.offset + a.length)

/-- The first entry of the section table that R64 refuses; one with LENGTH 0 passes. -/
def layoutFailure (i : Image) : Option Nat :=
  (List.range i.sections.length).find? (fun k => match i.sections[k]? with
    | some e => e.length != 0 && (e.offset % 64 != 0 || decide (e.offset < tableEnd i) ||
        decide (i.imgLen - 128 < e.offset + e.length) || (i.sections.take k).any (fun x => x.length != 0 && overlap x e))
    | none => false)

/-- Step 2: HDR_CRC, the section layout, the section CRCs in table order (R64, R68). -/
def checkSections (i : Image) : Option ImgFailure :=
  if !i.hdrCrcOk then some ⟨0x05, none, some 0xFF, none⟩
  else match layoutFailure i with
    | some k => some ⟨0x04, none, some k, some (0x40 + 16 * k)⟩
    | none => ((List.range i.sections.length).find? (fun k => (i.sections[k]?).any (fun e => !e.crcOk))).map
        (fun k => ⟨0x05, none, some k, none⟩)

/-- Steps 3 and 4: a VALID slot with BOOT and the signature, in a lifecycle state that boots images; the rollback floor
(R62, R461, R465, R470). -/
def State.checkSignature (s : State) (i : Image) (boot : Bool) : Option ImgFailure :=
  let slot := i.keyIndex < 4 ∧ s.rd .secKeyState 0 i.keyIndex = 1 ∧ s.maskBit' .secKeyFlags i.keyIndex 0
  let sig := ecdsaVerify (s.rd .secKeyPoint 0 i.keyIndex) i.digest i.sigR i.sigS
  let lc := s.rd .secLcState
  (refuseIf (!(decide slot && sig) || lc == 0 || lc == 4 || (boot && s.on .secKsBoot)) 0x06 none (some 0xFF) none).or <|
  refuseIf (decide (i.seq < s.rd .secRollbackFloor)) 0x07 none (some 0xFF) none

/-! ## Step 5: sections and records (R63, R66, R68) -/

/-- Section-table index of a type. -/
def sectionOf (i : Image) (type : Nat) : Option Nat := i.sections.findIdx? (fun e => e.type == type)

/-- Section presence. R68 gives the checks of this step no order among them: a repeated TYPE or a required unknown section is
looked for first, in table order, then a missing required section (DESIGN CHOICE, log entry 69). ERR_SECTION of a required section that is present with LENGTH 0 names its entry: R68 gives 0xFF for a
missing one and nothing for this (DESIGN CHOICE, log entry 69) (R62, R63, R68). -/
def checkPresence (i : Image) : Option ImgFailure :=
  let bad := (List.range i.sections.length).find? (fun k => match i.sections[k]? with
    | some e =>
      let known := decide (1 ≤ e.type ∧ e.type ≤ 5)
      (known && (i.sections.take k).any (fun x => x.type == e.type)) || (!known && e.required)
    | none => false)
  match bad with
  | some k => some ⟨0x08, none, some k, none⟩
  | none =>
    (([1, 2, 3] ++ if i.fmtMajor = 3 then [] else [5]).find? (fun ty =>
      !(i.sections.any (fun e => e.type == ty && decide (0 < e.length))))).map
      (fun ty => ⟨0x08, none, some ((sectionOf i ty).getD 0xFF), none⟩)

/-- The object of a record: its kind and number (R66). -/
def recObject : StructRecord → Nat × Nat
  | .portGroup lead _ _ _ _ _ => (1, lead)
  | .xbarMap n _ _ => (2, n)
  | .engineHome e _ _ => (3, e)
  | .program c _ => (4, c)
  | .steal c _ _ _ => (5, c)
  | .depth n _ _ => (6, n)
  | .clockPlan c _ _ => (7, c)
  | .unparsable => (0, 0)

/-- Every field of a record of an image is in its range; a home lane is one of the group that holds the engine's cluster
lane (R66). -/
def recInRange (i : Image) : StructRecord → Bool
  | .portGroup lead count payload mode profiles initial => decide (lead < 8) && [1, 2, 4, 8].contains count &&
      decide (payload ≤ 3 ∧ mode ≤ 1 ∧ 1 ≤ profiles ∧ profiles ≤ 7) && profiles.testBit initial
  | .xbarMap n a b => decide (n < 8) && decide (a < 16) && b.all (fun h => decide (h < 16))
  | .engineHome e n idle => decide (e < 128) && (i.groupOf (e / 16)).lanes.contains n && decide (idle ≤ 1)
  | .program c p => decide (c < 8) && decide (p ≤ 7)
  | .steal c cw ccw t => decide (c < 8) && decide (cw ≤ 4) && decide (ccw ≤ 4) && decide (1 ≤ t ∧ t ≤ 63)
  | .depth n q b => decide (n < 8) && decide (16 ≤ q ∧ q ≤ 64) && decide (3 ≤ b ∧ b ≤ 96)
  | .clockPlan c a p => decide (c < 8) && decide (1 ≤ a ∧ a ≤ 15) && decide (p = 0)
  | .unparsable => false

/-- The lane of a record: its own, or that of its cluster. -/
def recLane : StructRecord → Option Nat
  | .portGroup lead _ _ _ _ _ => some lead
  | .engineHome e _ _ => some (e / 16)
  | .xbarMap n _ _ | .program n _ | .steal n _ _ _ | .depth n _ _ | .clockPlan n _ _ => some n
  | .unparsable => none

/-- The records in order: one that cannot be parsed or repeats an object, one with a field out of range; then more than
four idle-reserve engines in a cluster (R66, R68). -/
def checkRecords (i : Image) : Option ImgFailure :=
  let sec := sectionOf i 1
  let bad := (List.range i.records.length).findSome? (fun k => match i.records[k]? with
    | some (at_, r) =>
      if r = .unparsable ∨ (i.records.take k).any (fun x => recObject x.2 == recObject r) then some (⟨0x08, none, sec,
        some at_⟩ : ImgFailure)
      else if !recInRange i r then some ⟨0x0C, recLane r, sec, some at_⟩
      else none
    | none => none)
  bad.or <| ((List.range 8).find? (fun c => decide (4 < ((List.range 16).filter (fun k => (i.home (16 * c +
    k)).2)).length))).map
    (fun c => ⟨0x0C, some c, sec, (i.records.filter (fun e => match e.2 with
      | .engineHome en _ idle => en / 16 == c && idle == 1
      | _ => false)).getLast?.map (·.1)⟩)

/-! ## Step 6: the rules of R67 -/

/-- Offset of the record of an object, if the image has one. -/
def recordAt (i : Image) (object : Nat × Nat) : Option Nat :=
  (i.records.find? (fun e => recObject e.2 == object)).map (·.1)

/-- A group stands at a position for its size and has the lanes that its payload needs (R43, R67). -/
def groupOk (g : PortGroup) : Bool :=
  g.lead % g.count == 0 && decide (g.lead + g.count ≤ 8) && (g.count != 8 || g.payload == .transparent) &&
    (g.payload != .eth1600 || g.count == 4) && (g.payload != .eth800 || g.count == 2) &&
    (g.payload != .eth400 || g.count == 1)

/-- Groups, lanes in ascending order: exactly one group holds the lane, and that group is a permitted one (R43, R67, R68). -/
def checkGroups (i : Image) : Option ImgFailure :=
  let holders (n : Nat) : List PortGroup := i.groups.filter (fun g => g.lanes.contains n)
  ((List.range 8).find? (fun n => (holders n).length != 1 || (holders n).any (fun g => !groupOk g))).map
    (fun n => ⟨0x09, some n, sectionOf i 1, (holders n).head?.bind (fun g => recordAt i (1, g.lead))⟩)

/-- Host lanes that lanes below `n` use. -/
def hostsBelow (i : Image) (n : Nat) : List Nat :=
  (List.range n).flatMap (fun k => (i.xbar k).1 :: (i.xbar k).2.toList)

/-- Crossbar (R67, R267): an ordered pair of unused lanes of the group's host set; lane A even and lane B odd where the group
permits Extended Host Mode. -/
def checkXbar (i : Image) : Option ImgFailure :=
  ((List.range 8).find? (fun n =>
    let g := i.groupOf n
    let mine (h : Nat) : Bool := decide (2 * g.lead ≤ h ∧ h < 2 * (g.lead + g.count)) && !(hostsBelow i n).contains h
    match i.xbar n with
    | (a, some b) => !(mine a && mine b && a != b) || (g.extended && (a % 2 != 0 || b % 2 != 1))
    | (_, none) => true)).map (fun n => ⟨0x0A, some n, sectionOf i 1, recordAt i (2, n)⟩)

/-- Homes (R67). A record that names a lane outside the engine's group has been refused at step 5 (R66). -/
def checkHomes (i : Image) : Option ImgFailure :=
  (List.range 8).findSome? (fun n =>
    let lanes := (i.groupOf n).lanes
    match (List.range 16).find? (fun k => !lanes.contains (i.home (16 * n + k)).1) with
    | some k => some (⟨0x0B, some n, sectionOf i 1, recordAt i (3, 16 * n + k)⟩ : ImgFailure)
    | none =>
      let homes := ((List.range 128).filter (fun e => i.home e == (n, false))).length
      refuseIf (decide (2 ≤ (i.groupOf n).profiles) && decide (homes < 8)) 0x0B (some n) (sectionOf i 1) none)

/-- Clocks (R67). -/
def checkClocks (i : Image) : Option ImgFailure :=
  ((List.range 8).find? (fun c => !(i.clockPlan c).1.testBit (i.clockPlan c).2)).map
    (fun c => ⟨0x0E, some c, sectionOf i 1, recordAt i (7, c)⟩)

/-- A program is well formed: whole 64-bit words, at most 4,096 bytes, its entry vector inside it (R67, R221). -/
def programOk (p : Program) : Bool :=
  p.bytes % 8 == 0 && decide (p.bytes ≤ 4096) && decide (2 ≤ p.entry ∧ p.entry < p.bytes / 8)

/-- Microcode (R67, R221). A section with no program or more than 8 is refused with IMG_ERR_MICROCODE, for which the spec names
no code (DESIGN CHOICE, log entry 69). The programs, then each cluster's choice and its support for the lanes served at home. -/
def checkMicrocode (i : Image) : Option ImgFailure :=
  if i.programs.isEmpty || decide (8 < i.programs.length) || i.programs.any (fun p => !programOk p) then
    some ⟨0x0F, none, sectionOf i 2, none⟩
  else ((List.range 8).find? (fun c => match i.programs[i.program c]? with
    | none => true
    | some p => (c :: (List.range 16).map (fun k => (i.home (16 * c + k)).1)).any (fun n =>
        let want := (i.groupOf n).profiles
        (want.testBit 1 && !p.profiles.testBit 1) || (want.testBit 2 && !p.profiles.testBit 2)))).map
    (fun c => ⟨0x0F, some c, sectionOf i 2, recordAt i (4, c)⟩)

/-- Minimum depths of a profile: home queue and release buffer (R53). -/
def minDepth (prof : Nat) : Nat × Nat := if prof = 0 then (0, 3) else if prof = 1 then (21, 39) else (47, 82)

/-- IMG_ERR_DETAIL of a depth failure (R81). -/
def depthDetail (pool which prof req conf : Nat) : Nat :=
  pool * 2 ^ 23 + which * 2 ^ 22 + prof * 2 ^ 20 + req % 256 * 2 ^ 8 + conf % 256

/-- Depths per lane, then the pool (R67, R68, R81). -/
def checkDepths (i : Image) : Option ImgFailure :=
  let lane (n : Nat) : Option ImgFailure := (List.range 3).findSome? (fun p =>
    let d := i.depth n
    let m := minDepth p
    let fail (which req conf : Nat) : Option ImgFailure :=
      refuseIf (decide (conf < req)) 0x0D (some n) (sectionOf i 1) (some (depthDetail 0 which p req conf))
    if (i.groupOf n).profiles.testBit p then (fail 0 m.1 d.1).or (fail 1 m.2 d.2) else none)
  let sum := ((List.range 8).map (fun n => (i.depth n).2)).sum
  ((List.range 8).findSome? lane).or <|
    refuseIf (decide (720 < sum)) 0x0D (some 0) (sectionOf i 1) (some (depthDetail 1 1 0 720 sum))

/-- The validator (R68). -/
def State.validate (s : State) (i : Image) (boot : Bool) : Option ImgFailure :=
  (checkHeader i).or <| (checkSections i).or <| (s.checkSignature i boot).or <| (checkPresence i).or <|
  (checkRecords i).or <| (checkGroups i).or <| (checkXbar i).or <| (checkHomes i).or <| (checkClocks i).or <|
  (checkMicrocode i).or <| checkDepths i

/-! ## Scope of a partial commit (R73) -/

/-- Two images agree in everything outside a lane set, the PROGRAM index of a cluster with the program it names included.
LANE_DEFAULTS, which R73 does not list, are not compared (DESIGN CHOICE, log entry 69). -/
def sameOutside (a b : Image) (lanes : List Nat) : Bool :=
  let out := (List.range 8).filter (fun n => !lanes.contains n)
  let groups (i : Image) := i.groups.filter (fun g => !lanes.contains g.lead)
  let prog (i : Image) (c : Nat) := i.programs[i.program c]?
  a.firmware == b.firmware && (groups a).all (fun g => (groups b).contains g) && (groups b).all (fun g => (groups
    a).contains g) &&
    out.all (fun n => a.xbar n == b.xbar n && a.steal n == b.steal n && a.depth n == b.depth n &&
      a.clockPlan n == b.clockPlan n && a.program n == b.program n && prog a n == prog b n &&
      (List.range 16).all (fun k => a.home (16 * n + k) == b.home (16 * n + k)))

end Sys2Proof.Machine
end

