-- ==== Sys2Proof/Machine/Images.lean ====
section
/-!
DEFINITION. Image commands and events: validation, full and partial commit, the boot record, the firmware watchdog (R57 to
R81, R435).
-/
namespace Sys2Proof.Machine

/-! ## The full commit (R72, R508) -/

/-- Blocks that a full commit resets (R508). -/
def datapathBlock (b : Block) : Bool :=
  b == .lrx || b == .leq || b == .ltx || b == .lfr || b == .arc || b == .arcCl || b == .hif || b == .hifGlb

/-- Registers of the active image (R65, R71, R81). -/
def State.activeImage (s : State) (i : Image) (slot : Nat) (fallback : Bool) : State :=
  s.puts [(.imgActiveFmtMajor, i.fmtMajor), (.imgActiveFmtMinor, i.fmtMinor), (.imgActiveSlot, slot),
    (.imgActiveFallback, bit fallback), (.imgActiveSeq, i.seq), (.imgActiveBuild, i.build)]

/-- LANE_DEFAULTS apply as preset writes (R62). -/
def State.laneDefaults (s : State) (i : Image) : State :=
  s.each i.laneDefaults (fun e t => t.presetWrite e.1 e.2.1 e.2.2)

/-- A full commit loads: the datapath registers reset, records are discarded, the image becomes the active one, its
fields load, LANE_DEFAULTS apply (R72, R508). -/
def State.loadImage (s : State) (i : Image) (slot : Nat) (fallback : Bool) : State :=
  let s := (s.each (List.range 8) (fun c t => t.arcClusterOff c)).xbarOff
  let s := { s with votes := [], svcQ := [], deferred := [], running := some i }
  let s := s.loadStores (List.range 128)
  let s := s.resetFields (fun k => datapathBlock k.f.desc.block && !failureMark k.f)
  let s := s.each (List.range 8) (fun n t => t.mapsOfMarks n)
  let s := s.each (List.range 8) (fun n t => t.puts [(.pwrRecLrx, 0), (.pwrRecLtx, 0), (.pwrRecLeq, 0)] n)
  let s := s.puts [(.pwrRecHif, 0)]
  let s := (s.activeImage i slot fallback).loadSkipped i
  let s := s.each (List.range 8) (fun n t => ((t.loadLane i n).loadSteal i n).wr .lfrProfReq (i.groupOf n).initial n)
  ((s.laneDefaults i).puts [(.mgtRomFw, 0), (.mgtFwDown, 0)]).dvfsKick

/-! ## Commands (R71 to R74, R79 to R81) -/

/-- An image command is refused: its code, no effect on a running command (R79, R81). -/
def State.imgRefuse (s : State) (op code : Nat) (lane : Option Nat := none) : State :=
  let s := (s.imgFail code lane none none).imgReport op code
  if s.imgBusy then s else s.wr .imgCmdGo 0

/-- A command begins: OP, SLOT and GROUP_LEAD are latched (R81). -/
def State.imgBegin (s : State) (op slot lead st : Nat) : State :=
  s.puts [(.imgCmdGo, 1), (.imgOpRun, op), (.imgOpSlot, slot), (.imgOpLead, lead), (.imgState, st)]

/-- COMMIT_FULL: every test ends, every lane goes to OFF; in the no-image state a candidate from a slot that was not written since
is none (R60, R72, R119, R177, R423). -/
def State.imgCommitFullNow (s : State) : State :=
  if s.candidate.isNone ∨ (s.running.isNone ∧ !s.on .imgCandNew) then s.imgRefuse 2 0x15
  else
    let s := (s.imgBegin 2 (s.rd .imgCandidateSlot) 0 6).abortTests
    let s := s.each (List.range 8) (fun n t => (t.puts [(.ltxTxEn, 0)] n).lrxOff n)
    s.each (List.range 16) (fun h t => t.hifOff h)

/-- COMMIT_PARTIAL: candidate, lead lane, version, scope, profiles, then changes under way (R63, R73, R74, R218). -/
def State.imgCommitPartialNow (s : State) (lead : Nat) : State :=
  match s.candidate, s.running with
  | none, _ => s.imgRefuse 3 0x15
  | some _, none => s.imgRefuse 3 0x0C
  | some c, some r =>
    let g := r.groupOf lead
    if g.lead ≠ lead then s.imgRefuse 3 0x0C
    else if c.fmtMajor = 3 then s.imgRefuse 3 0x02
    else if !sameOutside r c g.lanes then s.imgRefuse 3 0x10
    else match g.lanes.find? (fun n => !(decide (s.rd .lfrProfActive n < 3) && (c.groupOf n).profiles.testBit (s.rd
      .lfrProfActive n))) with
      | some n => s.imgRefuse 3 0x11 (some n)
      | none =>
        if g.lanes.any (fun n => s.on .lfrReqAcc n || s.on .lfrSwPend n || s.on .lfrAwaitRel n || s.on .lfrReplyWait n) then
          s.imgRefuse 3 0x12
        else (s.imgBegin 3 (s.rd .imgCandidateSlot) lead 4).puts [(.imgPcLanes, (g.lanes.map (2 ^ ·)).sum), (.imgPcIso,
          0), (.imgPcP, 0), (.imgPcPEnd, 0),
          (.imgPcQ, 0), (.imgPcQEnd, 0), (.imgPcWritten, 0)]

/-- GO of IMG_CMD with an OP, SLOT and GROUP_LEAD (R79, R81, R468, R481). -/
def State.imgGo (s : State) (op slot lead : Nat) : State :=
  let s := s.puts [(.imgCmdOp, op), (.imgCmdSlot, slot), (.imgCmdGroupLead, lead)]
  if op = 4 ∧ s.imgBusy then s.pcAbort
  else if s.imgBusy then s.imgRefuse op 0x12
  else if op = 0 ∨ 5 < op ∨ 2 ≤ slot then s.imgRefuse op 0x0C
  else if op = 4 then s.wr .imgCmdGo 0
  else if (op = 1 ∨ op = 5) ∧ s.secOpen then s.free.2.imgRefuse op (s.free.1 % 256)
  else if op = 1 ∨ op = 5 then s.imgBegin op slot lead 3
  else if op = 2 then s.imgCommitFullNow
  else s.imgCommitPartialNow lead

/-- IMG_VALIDATE (R71). -/
def execImgValidate (slot : BitVec 1) (s : State) : Out := .next (s.access .img 0 (fun t => t.imgGo 1 slot.toNat 0))

/-- IMG_COMMIT_FULL (R72). -/
def execImgCommitFull (slot : BitVec 1) (s : State) : Out := .next (s.access .img 0 (fun t => t.imgGo 2 slot.toNat 0))

/-- IMG_COMMIT_PARTIAL (R73). -/
def execImgCommitPartial (slot : BitVec 1) (lead : Lane) (s : State) : Out :=
  .next (s.access .img 0 (fun t => t.imgGo 3 slot.toNat lead))

/-- IMG_ABORT (R79). -/
def execImgAbort (s : State) : Out := .next (s.access .img 0 (fun t => t.imgGo 4 0 0))

/-- IMG_MAKE_BOOT (R80). -/
def execImgMakeBoot (slot : BitVec 1) (s : State) : Out := .next (s.access .img 0 (fun t => t.imgGo 5 slot.toNat 0))

/-- IMG_OP_INVALID: a word with a reserved OP or SLOT code; any other word is no such command (R81). -/
def execImgOpInvalid (op : BitVec 4) (slot : BitVec 2) (lead : Lane) (s : State) : Out :=
  .next (s.access .img 0 (fun t =>
    if op = 0 ∨ 5 < op.toNat ∨ 2 ≤ slot.toNat then t.imgGo op.toNat slot.toNat lead else t))

/-! ## The end of a validation (R59, R60, R68, R71, R80) -/

/-- The no-image state: lanes in OFF, the ROM firmware runs, NO_IMAGE is set. A candidate validated before is dropped, since
only an image written and validated since may leave this state (R60, R480). -/
def State.noImage (s : State) : State :=
  let s := s.each (List.range 8) (fun n t => (((t.wr .ltxTxEn 0 n).wr .lrxEnable 0 n).lrxOff n).ltxFaultEnd n)
  let s := s.each (List.range 16) (fun h t => (t.wr .hifEnable 0 h).hifOff h)
  let s := ({ s with running := none, candidate := none } : State).puts [(.imgCandidateValid, 0), (.imgSlotNew, 0), (.imgCandNew, 0),
    (.imgState, 0), (.mgtRomFw, 1), (.imgActiveFmtMajor, 0), (.glbBootStage, 9),
    (.glbSeqStep, 8), (.imgCmdGo, 0), (.imgOpRun, 0)]
  s.raise .imgIntStatus Irq.imgNoImage

/-- The outcome of the boot's validation of a slot: commit, the other slot, or no image (R59, R477, R480). -/
def State.bootValidated (s : State) (i : Image) : State :=
  match s.validate i true with
  | none =>
    let s := { s with candidate := some i }
    let s := s.puts [(.glbBootStage, 4), (.glbSeqStep, 8), (.secKsBoot, 0)]
    if s.on .imgBootSecond then
      let e := s.rd .imgBootErr
      (s.puts [(.imgDetRaw, e), (.imgDetRequired, 0), (.imgDetConfigured, e), (.imgDetPool, 0), (.imgDetWhich, 0),
        (.imgDetProfile, 0), (.imgDetMid, 0), (.glbBootFallback, 1)]).raise .imgIntStatus Irq.imgBootFallback
    else s
  | some f =>
    let s := (s.imgFail f.code f.lane f.sec f.det).wr .glbBootFailStage 3
    if s.on .imgBootSecond then (s.wr .secKsBoot 0).noImage else s.puts [(.imgBootSecond, 1), (.imgBootErr, f.code)]

/-- The image as found in the slot being read: a slot that a download erased and did not complete is unusable (R446,
R447). -/
def State.slotImage (s : State) (i : Image) : Image :=
  let slot := if s.rd .imgState = 1 then (if s.on .imgBootSecond then 1 - s.rd .imgBootPref else s.rd .imgBootPref)
    else s.rd .imgOpSlot
  if s.nvmGet .imgSlotBad 0 slot = 1 then { i with magicOk := false } else i

/-- IMG_VALIDATION_DONE: what the slot holds is read and checked, at boot or for VALIDATE or MAKE_BOOT (R59, R68, R69,
R71, R80). -/
def execImgValidationDone (f : ImageFile) (s : State) : Out :=
  let i := s.slotImage (Image.ofFile f)
  .next (if s.rd .imgState = 1 ∧ s.rd .glbBootStage = 3 ∧ s.imgRecord.isNone then s.bootValidated i
  else if s.rd .imgState = 3 then
    match s.validate i false with
    | none =>
      if s.rd .imgOpRun = 5 then s.wr .imgState 7
      else
        (({ s with candidate := some i } : State).puts [(.imgCandidateValid, 1), (.imgCandidateSlot, s.rd .imgOpSlot),
          (.imgCandNew, bit (s.maskBit .imgSlotNew (s.rd .imgOpSlot))),
          (.imgCandSeq, i.seq)]).imgEnd 0
    | some f =>
      let s := s.imgFail f.code f.lane f.sec f.det
      let s := if s.rd .imgOpRun = 1 then ({ s with candidate := none } : State).wr .imgCandidateValid 0 else s
      s.imgEnd f.code
  else s)

/-! ## The partial commit (R75 to R78) -/

/-- PC_ISOLATE: B1, the first ingress frame boundary of the lead lane; the tests of the group's engines end (R75,
R423). -/
def execPcIsolate (s : State) : Out :=
  .next (if s.rd .imgState = 4 ∧ !s.on .imgPcIso then
    let lanes := s.pcLanes
    let s := (s.wr .imgPcIso 1).each lanes (fun c t => t.wr .arcClIsolated 1 c)
    s.each (s.tests.filter (fun t => t.kind == 0 && lanes.contains (t.unit / 16) && t.phase == .running))
      (fun t u => u.endTest 0 t.unit .hltAbortCnt)
  else s)

/-- PC_PAUSE: an ingress or line TX frame boundary of a lane. The lead lane's first ingress boundary after B1 is B2, unless
a supply warning holds it; from B2 each lane's own boundary pauses its direction for two frames. The row follows the frame
boundary that it names, so the frame under way is the first of the pause (R75, R79, log entry 66). -/
def execPcPause (n : Lane) (egress : Bool) (s : State) : Out :=
  let s := s.when (!egress && s.rd .imgState == 4 && s.on .imgPcIso && s.rd .imgOpLead == n.val && !s.warning)
    (fun t => t.puts [(.imgState, 5), (.imgPcOldExt, ((List.range 8).map (fun k => bit (t.groupOf k).extended * 2 ^ k)).sum)])
  .next (if s.rd .imgState = 5 ∧ s.maskBit .imgPcLanes n then
    if egress then (if s.maskBit .imgPcQ n then s else (s.setMask .imgPcQ n true).fillMark n true)
    else if s.maskBit .imgPcP n then s
    else (s.setMask .imgPcP n true).puts [(.lfrPcLeft, 512), (.lfrGapOn, 1)] n
  else s)

/-- PC_TABLE_WRITE: the table writes of the group end: tables, depths, maps, clock plans and microcode are new, the
host lanes align on a new mapping, the stores hold the new programs, with which a refresh under way is done, and thermal actions and lane faults that waited follow
(R72, R75, R78, R79, R242). -/
def execPcTableWrite (s : State) : Out :=
  .next (match s.candidate with
  | some c =>
    if s.pcWrites then
      let engs := s.pcLanes.flatMap clusterEngines
      let s := (({ s with running := some c } : State).loadStores engs).each (engs.filter (fun e =>
        s.rd .arcEngSt 0 e == 4 && s.rd .arcEngRun 0 e == 1)) (fun e t => t.bgDone e)
      let s := ((s.pcTables c).wr .imgPcWritten 1).dvfsKick
      let s := s.each (s.pcLanes.filter (fun n => s.on .lrxFaultWait n)) (fun n t =>
        (t.wr .lrxFaultWait 0 n).lrxFault n (t.rd .lrxFaultWait n - 1))
      let s := s.when (s.on .thmCritWait) (fun t => t.critStandby)
      s.when (s.on .thmStepWait) (fun t => (t.wr .thmStepWait 0).enforce)
    else s
  | none => s)

/-- PC_RESUME: two frames after its pause, at the frame boundary that this row follows, a direction resumes; egress
codewords of the pause count, and the last lane's ingress ends the commit (R75, R77, R205). -/
def execPcResume (n : Lane) (egress : Bool) (s : State) : Out :=
  .next (if egress then
    if s.maskBit .imgPcQ n ∧ !s.maskBit .imgPcQEnd n ∧ s.on .imgPcWritten then
      let s := s.setMask .imgPcQEnd n true
      (s.fillMark n (s.fillTx n)).when (s.rd .ltxState n == 4) (fun t => t.bump .imgPcDiscard 0 0 512)
    else s
  else if s.rd .imgState = 5 ∧ s.on .imgPcWritten ∧ s.maskBit .imgPcP n ∧ !s.maskBit .imgPcPEnd n then
    let s := (s.setMask .imgPcPEnd n true).wr .lfrPcLeft 0 n
    if s.rd .imgPcPEnd = s.rd .imgPcLanes then s.pcFinish else s
  else s)

/-- IMG_PC_CLR (R81). -/
def execImgPcClr (s : State) : Out := .next (s.access .img 0 (fun s => s.puts [(.imgPcCount, 0), (.imgPcDiscard, 0)]))

/-! ## The boot flash (R57, R80, R447) -/

/-- CRC-32 of a boot-record copy: PREFERRED_SLOT in one byte, then RECORD_SEQ (R57, log entry 69). -/
def recordCrc (slot seq : Nat) : Nat := crc32 ((slot % 2) :: (List.range 4).map (fun i => byteOf seq i))

/-- A boot-record copy is valid: its CRC-32 matches its contents (R57, R59). -/
def State.recordOk (s : State) (c : Nat) : Bool :=
  s.nvmGet .flashRecCrc 0 c == recordCrc (s.nvmGet .flashRecSlot 0 c) (s.nvmGet .flashRecSeq 0 c)

/-- RECORD_SEQ of a copy, 0 where it is invalid. -/
def State.seqOf (s : State) (c : Nat) : Nat := if s.recordOk c then s.nvmGet .flashRecSeq 0 c else 0

/-- Copy of the boot record that MAKE_BOOT writes: an invalid one first, else the lower RECORD_SEQ, copy 1 on equality
(R80). -/
def State.recordTarget (s : State) : Nat :=
  if !s.recordOk 0 then 0
  else if !s.recordOk 1 then 1
  else if s.nvmGet .flashRecSeq 0 0 < s.nvmGet .flashRecSeq 0 1 then 0 else 1

/-- Higher RECORD_SEQ of the valid copies. -/
def State.recordSeq (s : State) : Nat := max (s.seqOf 0) (s.seqOf 1)

/-- The slot that the boot record prefers: the valid copy with the higher RECORD_SEQ, copy 0 on equality, slot A without one
(R59). -/
def State.preferredSlot (s : State) : Nat :=
  let c := if s.recordOk 1 && (!s.recordOk 0 || decide (s.nvmGet .flashRecSeq 0 0 < s.nvmGet .flashRecSeq 0 1)) then 1 else 0
  if s.recordOk c then s.nvmGet .flashRecSlot 0 c else 0

/-- Write a boot-record copy with its CRC-32 (R57, R80). -/
def State.putRecord (s : State) (c slot seq : Nat) : State :=
  ((s.nvmSet .flashRecSlot slot 0 c).nvmSet .flashRecSeq seq 0 c).nvmSet .flashRecCrc (recordCrc slot (seq % 2 ^ 32)) 0 c

/-- A boot-record copy whose readback disagreed is invalid (R80). -/
def State.spoilRecord (s : State) (c : Nat) : State :=
  s.nvmSet .flashRecCrc (recordCrc (s.nvmGet .flashRecSlot 0 c) (s.nvmGet .flashRecSeq 0 c) + 1) 0 c

/-- FLASH_WRITE_DONE: a boot-record copy or a download's erase or block is written and read back (R80, R446, R447). -/
def execFlashWriteDone (bootRecord ok : Bool) (s : State) : Out :=
  .next (if bootRecord then
    if s.rd .imgState = 7 then
      let c := s.recordTarget
      let q := s.recordSeq
      if ok then
        (s.putRecord c (s.rd .imgOpSlot) (q + 1)).imgEnd 0
      else ((s.spoilRecord c).imgFail 0x13 none none none).imgEnd 0x13
    else s
  else if s.on .cdbFlash then (s.wr .cdbFlash 0).cdbEnd (if ok then 0x01 else 0x40)
  else s)

/-! ## The firmware watchdog (R435) -/

/-- WATCHDOG_MISS: the firmware restarts, or a second miss within 10 s halts it (R435). -/
def execWatchdogMiss (core : Fin 4) (s : State) : Out :=
  .next (if !s.on .pwrDomMgmt || s.on .mgtFwHalt then s
  else if s.on .mgtFwMissed && decide (s.now - s.rd .mgtFwMissAt < 5000000000) then
    (s.puts [(.mgtFwHalt, 1), (.mgtFwDown, 0)]).raise .mgtIntStatus Irq.mgtFwHalt
  else s.puts [(.mgtFwDown, 1), (.mgtFwCore, core), (.mgtFwMissed, 1), (.mgtFwMissAt, s.now)])

/-- FW_RESTART_DONE: the FIRMWARE section as reread from the active image's slot. Where its SHA-384 digest is the one
recorded at commit the firmware runs again, its state kept; otherwise the no-image state (R60, R71, R435). -/
def execFwRestartDone (bytes : List (BitVec 8)) (s : State) : Out :=
  let digest := sha384 (bytes.map BitVec.toNat)
  .next (if s.on .mgtFwDown then
    let s := s.wr .mgtFwDown 0
    if s.running.any (fun i => i.firmware == digest) then ((s.bump .mgtFwRestartCnt).raise .mgtIntStatus
      Irq.mgtFwRestart).emit 0x50 8 [s.rd .mgtFwCore]
    else s.noImage
  else s)

end Sys2Proof.Machine
end

