-- ==== Sys2Proof/Machine/Boot.lean ====
section
/-!
DEFINITION. Start-up, the wake from Deep, and what ends a commit (R338, R375, R376, R421, R475 to R482).
-/
namespace Sys2Proof.Machine

/-! ## Steps 1 to 3 (R338, R477) -/

/-- VDD_AON_POWER_GOOD: AON leaves power-on reset; DEV_STATE reads DEEP_WAKE (R477). -/
def execVddAonPowerGood (s : State) : Out :=
  .next (if s.rd .glbSeqStep = 0 then
    s.puts [(.glbSeqStep, 1), (.glbBootStage, 0), (.glbStageRef, s.now), (.pwrDevState, 6), (.pwrStartup, 1),
      (.pwrResetCause, 1)]
  else s)

/-- The lifecycle state that two copies agree on, else Scrapped with LC_ERR; a copy 2 that lags is rewritten (R460,
R463). -/
def State.loadLifecycle (s : State) : State :=
  let c (i : Nat) : Nat := s.nvmGet .secLcState 0 i
  if c 0 = c 1 then (s.wr .secLcState (c 0)).nvmSet .secLcState (c 0) 0 2
  else if c 0 = c 2 then s.wr .secLcState (c 0)
  else if c 1 = c 2 then s.wr .secLcState (c 1)
  else s.puts [(.secLcState, 4), (.secLcErr, 1), (.glbBootFailStage, 1)]

/-- The rollback floor: the highest valid copy, or 0 with ROLLBACK_ERR (R465). -/
def State.loadFloor (s : State) (ok : BitVec 3) : State :=
  let good := (List.range 3).filter (fun i => ok.getLsbD i)
  (s.wr .secRollbackFloor ((good.map (fun i => s.nvmGet .secRollbackFloor 0 i)).foldl max 0)).wrb .secRollbackErr good.isEmpty

/-- The safety region: its LK fields and LOCKED, or the blank column and NVM_BAD (R348, R471, R480). -/
def State.loadSafety (s : State) (ok : Bool) : State :=
  if ok then
    (s.each (s.nvm.filter (fun e => safetyField e.1.f)) (fun e t => t.wr e.1.f e.2 e.1.n e.1.i)).wr .optGlbLocked 1
  else (s.puts [(.optGlbNvmBad, 1), (.glbBootFailStage, 1)]).raise .optGlbIntStatus Irq.optGlbNvmBad

/-- The power-up values: in a lane whose PU_EN is 1 they become BASE and RANGE and are driven, OBIAS within IDLE_BIAS_MAX, and the
clamp releases (R338, R347). -/
def State.powerUpValues (s : State) : State :=
  s.each ((List.range 8).filter (fun n => s.on .optLnPuEn n)) (fun n t =>
    (t.puts [(.optLnClamp, 0), (.optReleased, 1)] n).each (List.range 3) (fun k u =>
      let v := u.rd .optLnPuValue n k
      let r := u.rd .optLnPuRange n k
      let u := ((u.wr .optOutBase v n k).wr .optBaseWr 0 n k).wr .optOutCode
        (if k = 0 then min v (euCode (u.rd .optLnIdleBiasMax n) r) else v) n k
      ((u.wr .optOutRange r n k).wr .optRangeOld r n k).wr .optOutRangeAct r n k))

/-- Factory constants: point offsets, OPT_TX, OPT_RX, CAL_VALID (R291, R467, R471). -/
def State.loadFactory (s : State) (ok : Bool) : State :=
  if ok then
    let s := s.each (List.range 48) (fun p t => t.wr .timDFact (t.nvmGet .timDFact 0 p) 0 p)
    (s.each (List.range 8) (fun n t => t.puts [(.timLnOptTx, t.nvmGet .timLnOptTx n), (.timLnOptRx,
      t.nvmGet .timLnOptRx n)] n)).wr
      .timCalValid (s.nvmGet .timCalValid)
  else s.wr .timCalValid 0

/-- The NVM load (R338, R460, R464, R465, R469, R471). -/
def State.nvmLoad (s : State) (l : NvmLoad) : State :=
  let s := ((s.loadLifecycle.loadSecrets).loadFloor l.floorOk).loadSafety l.safetyOk
  let s := if l.keysOk then s else s.each (List.range 4) (fun k t => ((t.wr .secKeyState 0 0 k).wr .secKeyFlags 0 0 k).wr .secKeyPoint 0 0 k)
  let s := s.puts [(.secSecretIn, bit l.secretOk), (.secKeysBad, bit (!l.keysOk)), (.secUid, s.nvmGet .secUid), (.cdbPwReq, s.nvmGet .cdbPwReq),
    (.infoBad, bit (!l.infoOk))]
  let ok := l.lifecycleOk && l.keysOk && l.secretOk && l.floorOk == 7#3 && l.safetyOk && l.factoryOk && l.infoOk
  let s := ((s.loadFactory l.factoryOk).when (!ok) (fun t =>
    (t.wr .secNvmErr 1).raise .secIntStatus Irq.secNvmErr)).powerUpValues
  let s := s.wr .optGlbPuDone 1
  s.when (l.testMode && decide (s.rd .secLcState ≤ 1)) (fun t => t.debugOpen 3)

/-- NVM_LOAD_DONE: the NVM is loaded and the control DACs are calibrated; at start-up OPERATION on goes to the regulator
(R338, R340, R477). A reset by a supply monitor waits until every rail is above its warning level (R476). -/
def execNvmLoadDone (l : NvmLoad) (s : State) : Out :=
  .next (if s.rd .pwrDevState = 6 ∧ !s.on .optGlbPuDone ∧ !s.on .glbResetLow ∧ !s.warning then
    let s := s.nvmLoad l
    if s.on .pwrStartup ∧ s.rd .glbSeqStep ≤ 2 then
      s.puts [(.glbSeqStep, 3), (.glbBootStage, 2), (.pwrRegOn, 1), (.pwrSupplyWait, 1), (.pwrWakeTries, 0)]
    else s
  else s)

/-! ## The supply (R375, R376, R477) -/

/-- CMIS pages 00h to 02h load from MODULE_INFO; pages of a region that failed its CRC read 0 (R471, log entry 16). -/
def State.loadPages (s : State) : State :=
  if s.on .infoBad then s else { s with pages := s.pages.setMany 0 (s.info.getMany 0 384) }

/-- SUPPLY_READY: PGOOD_IN high and REF_OK. MGMT, TIME and the NVM read port start, the ROM firmware reads VOUT_MODE, writes
VOUT_TRANSITION_RATE as 1 mV/us and reads the boot record, the core PLL calibrates; without the linear format every island
stands at V0 (R59, R323, R375, R388, R477). -/
def execSupplyReady (voutLinear : Bool) (s : State) : Out :=
  .next (if s.rd .pwrDevState = 6 ∧ s.on .pwrSupplyWait ∧ s.on .clkRefOk then
    let s := s.puts [(.pwrPgood, 1), (.pwrSupplyWait, 0), (.pwrWakeTries, 0), (.pwrDomMgmt, 1), (.pwrDomTime, 1),
      (.mgtRomFw, 1),
      (.glbSeqStep, 5), (.glbBootStage, 3), (.imgState, 1), (.pwrVoutLinear, bit voutLinear), (.pwrVoutRate, 1)]
    let s := s.when (s.on .pwrStartup) (fun t => t.emit 0x01 8 [t.rd .pwrResetCause])
    let s := s.when (!voutLinear) (fun t => (t.puts [(.pwrDvfsErr, 2), (.pwrDvfsPoint, 0), (.pwrDvfsTarget, 0),
      (.pwrDvfsPhase, 0), (.pwrDvfsBusy, 0), (.pwrDvfsStBusy, 0), (.pwrVoutTarget, 800), (.pwrVoutActMv, 800)]).raise
      .pwrIntStatus Irq.pwrPwrErrPmbus)
    ((s.loadPages.puts [(.imgBootPref, s.preferredSlot), (.imgBootSecond, 0)]).pllCalStart 4).refreshRun
  else s)

/-- Four attempts have failed: the device stays in Deep, or goes there from Standby, with WAKE_FAIL (R376, R480). -/
def State.wakeFailed (s : State) : State :=
  let s := if s.rd .pwrDevState = 3 then s.deepEnter else s
  let s := s.puts [(.pwrDevState, 5), (.pwrRegOn, 0), (.pwrSupplyWait, 0), (.pwrRegOffWait, 0), (.pwrWakeTries, 0),
    (.pwrStagDir, 0),
    (.pwrSeriesFail, 1)]
  let s := s.when (s.on .pwrStartup) (fun t => t.wr .glbBootFailStage 2)
  (s.bump .pwrWakeFailCnt).raise .pwrIntStatus Irq.pwrWakeFail

/-- SUPPLY_READY_TIMEOUT: 10 ms without readiness. The regulator turns off and the attempt repeats, three times at most; a
wake from Standby checks REF_OK only and cycles no regulator (R376). -/
def execSupplyReadyTimeout (s : State) : Out :=
  .next (if s.rd .pwrDevState = 6 ∧ s.on .pwrSupplyWait then
    if s.rd .pwrWakeTries < 3 then
      s.puts [(.pwrWakeTries, s.rd .pwrWakeTries + 1), (.pwrRegOn, 0), (.pwrSupplyWait, 0), (.pwrRegOffWait, 1)]
    else s.wakeFailed
  else if s.rd .pwrDevState = 3 ∧ !s.on .clkRefOk then
    if s.rd .pwrWakeTries < 3 then s.wr .pwrWakeTries (s.rd .pwrWakeTries + 1) else s.wakeFailed
  else s)

/-- WAKE_RETRY: 10 ms after the regulator went off the sequence repeats from OPERATION on (R376). -/
def execWakeRetry (s : State) : Out :=
  .next (if s.on .pwrRegOffWait then s.puts [(.pwrRegOffWait, 0), (.pwrRegOn, 1), (.pwrSupplyWait, 1)] else s)

/-- DEEP_IMAGE_REREAD_DONE: the bytes of the recorded image's slot; it is committed where the SHA-384 digest of those that its
signature covers matches the record's and the record passes its CRC (`recOk`); otherwise the device boots from the boot record (R375, R382, log entry 69). -/
def execDeepImageRereadDone (bytes : List (BitVec 8)) (recOk : Bool) (s : State) : Out :=
  .next (match s.imgRecord with
  | some i =>
    if s.rd .imgState = 1 ∧ s.rd .glbBootStage = 3 then
      if !recOk then ({ s with imgRecord := none }.wr .pwrRetFail 1).raise .pwrIntStatus Irq.pwrRetFail
      else if sha384 ((bytes.take (i.imgLen - 128)).map BitVec.toNat) = i.digest then ({ s with candidate := some i } :
        State).puts [(.glbBootStage, 4), (.glbSeqStep, 8)]
      else { s with imgRecord := none }
    else s
  | none => s)

/-! ## Commit, BIST and lane enable (R72, R375, R477, R478, R480) -/

/-- Step 11: every line lane whose DPDeinit is 0 with its transmit and host lanes, or Standby (R375, R403, R478, R480,
R481). -/
def State.startLanes (s : State) : State :=
  if s.standbyHeld ∨ s.on .pwrStandbySw then
    let s := s.when (s.on .pwrLpmode && s.on .pwrLpmodeEn) (fun t => t.wr .glbBootFailStage 6)
    (s.standbyEnter).puts [(.glbBootStage, 8), (.pwrStartup, 0)]
  else
    let s := s.puts [(.glbBootStage, 6), (.glbSeqStep, 11), (.pwrStartup, 0)]
    let s := s.each ((List.range 8).filter (fun n => !s.maskBit .cmisDpDeinit n)) (fun n t =>
      ((t.lrxEnableOn n).ltxEnableOn n).each (t.hostsOf n) (fun h u => u.hifEnableOn h))
    s.activeCheck

/-- Every PLL is LOCKED, FAILED, or holds through an outage after lock (R477, R480). -/
def State.pllsSettled (s : State) : Bool :=
  plls.all (fun p => s.rd .pllState p == 2 || s.rd .pllState p == 3 || s.rd .pllState p == 5)

/-- The line and host PLLs calibrate again after the core PLL (R72, R323). -/
def State.pllsRestart (s : State) : State := ((s.pllsOff).wr .imgRestart 1).pllCalStart 4

/-- A record holds and Tj differs by at most 10 °C from Tj at entry, both taken of the lane's island (R373; DESIGN
CHOICE, log entry 73). -/
def State.recordNear (s : State) (rec tj : Field) (n : Nat) : Bool :=
  s.on rec n && decide ((s.rdInt .thmIslandTemp 0 n - s.rdInt tj n).natAbs ≤ 160)

/-- A record of a line lane whose CRC fails on wake: it is discarded with what the block kept of it, but for the failure marks
(R100, R172, R382). -/
def State.recordLost (s : State) (kind : RecordKind) (n : Nat) : State :=
  ((s.recordBad kind n).resetFields (fun k => (recordFields kind).contains k.f && k.f.desc.access != .rw && !failureMark
    k.f &&
    k.n == n))

/-- Retention records of the line lanes restore; `badLrx` and `badLtx` mark those whose CRC fails. Failure marks hold
beside the records (R100, R172, R373, R382). -/
def State.restoreRecords (s : State) (badLrx badLtx : BitVec 8) : State :=
  let s := s.each (List.range 8) (fun n t =>
    let t := t.when (t.on .pwrRecLrx n && badLrx.getLsbD n) (fun u => u.recordLost .lrx n)
    let t := t.when (t.on .pwrRecLtx n && badLtx.getLsbD n) (fun u => u.recordLost .ltx n)
    (t.wrb .lrxRecValid (t.recordNear .pwrRecLrx .pwrRecTjLrx n) n).wrb .ltxRecValid (t.recordNear .pwrRecLtx
      .pwrRecTjLtx n) n)
  let s := s.each (s.retained.filter (fun e => failureMark e.1.f)) (fun e t => t.wrNow e.1.f e.2 e.1.n e.1.i)
  let s := s.each (List.range 8) (fun n t => t.mapsOfMarks n)
  s.each s.retained (fun e t =>
    if (e.1.f.desc.block = .lrx ∧ t.on .pwrRecLrx e.1.n) ∨ (e.1.f.desc.block = .ltx ∧ t.on .pwrRecLtx e.1.n) then
      t.wrNow e.1.f e.2 e.1.n e.1.i
    else t)

/-- A full commit at run time discards the records; the failure marks stand until device reset (R100, R508). -/
def State.dropRecords (s : State) : State := { s with retained := s.retained.filter (fun e => failureMark e.1.f) }

/-- Slot of the image that the boot commits (R59). -/
def State.bootSlotOf (s : State) : Nat :=
  if s.on .imgBootSecond then 1 - s.rd .imgBootPref else s.rd .imgBootPref

/-- BOOT_COMMIT_DONE: the commit is complete. At boot and after Deep the domains are up and self-test or lane enable
follows; at run time the datapath restarts from PLL calibration once no lane transmits. `badLrx` and `badLtx` say
which retention records fail their CRC (R72, R375, R382, R477). -/
def execBootCommitDone (badLrx badLtx : BitVec 8) (s : State) : Out :=
  .next (match s.candidate with
  | none => s
  | some i =>
    if s.rd .imgState = 1 ∧ s.rd .glbBootStage = 4 ∧ s.pllsSettled then
      let deep := s.imgRecord.isSome
      let slot := if deep then s.rd .pwrRecImgSlot else s.bootSlotOf
      let recs := (List.range 8).map (fun n => (s.rd .pwrRecLrx n, s.rd .pwrRecLtx n))
      let s := s.loadImage i slot (!deep && s.on .imgBootSecond)
      let s := s.each (List.range domainCount) (fun d t => t.setDomain d true)
      let s := ({ s with candidate := none, imgRecord := none } : State).puts [(.imgState, 2), (.glbSeqStep, 9),
        (.glbCommitUs, min (usBetween (s.rd .glbStageRef) s.now) (2 ^ 32 - 1))]
      let s := s.xbarFollow
      if deep then
        let s := s.each (recs.zipIdx) (fun e t => t.puts [(.pwrRecLrx, e.1.1), (.pwrRecLtx, e.1.2)] e.2)
        ({ s.restoreRecords badLrx badLtx with retained := [] } : State).startLanes
      else (s.bootTests).puts [(.glbBootStage, 5), (.glbSeqStep, 10)]
    else if s.rd .imgState = 6 ∧ (List.range 8).all s.txQuiet then
      let cold := s.rd .glbBootStage = 9
      let s := (s.loadImage i (s.rd .imgOpSlot) false).dropRecords
      let s := s.when cold (fun t => (t.each (List.range domainCount) (fun d u => u.setDomain d true)).puts
        [(.glbBootStage, 5), (.glbSeqStep, 10),
        (.glbCommitUs, min (usBetween (t.rd .glbStageRef) t.now) (2 ^ 32 - 1))])
      (s.imgEnd 0).pllsRestart.bootTests
    else s)

/-- STANDBY_WAKE: domains up, PLLs calibrate, records checked, enabled lanes enter CAL; a device that start-up held in Standby
enables its lanes (R373, R382, R480). `badLrx` and `badLtx` mark records that fail their CRC. -/
def execStandbyWake (badLrx badLtx : BitVec 8) (s : State) : Out :=
  .next (if s.rd .pwrDevState = 3 ∧ s.on .clkRefOk then
    let s := s.each (List.range domainCount) (fun d t => if t.rd .pwrStagIdx ≤ d then t.setDomain d true else t)
    let s := s.puts [(.pwrStagDir, 0), (.pwrStagIdx, 0), (.pwrWakeTries, 0)]
    let s := s.each (List.range 4) (fun p t => t.pllCalStart p)
    let s := s.restoreRecords badLrx badLtx
    if s.rd .glbBootStage = 8 then s.startLanes
    else
      let s := s.each (List.range 8) (fun n t => if t.on .lrxEnable n && t.laneFree n then (t.lrxToCal n).ltxRecheck n else t)
      let s := s.each (List.range 16) (fun h t => if t.on .hifEnable h then t.hifStart h else t)
      s.activeCheck
  else s)

/-- BOOT_BIST_DONE: the tests of BOOT_MASK have ended, then lane enable or Standby (R421, R478, R480). After a full commit
at run time the stage codes stay (R72, R482). -/
def execBootBistDone (s : State) : Out :=
  .next (if (s.rd .glbBootStage = 5 ∨ s.on .imgRestart) ∧ s.pllsSettled ∧ s.tests.all (fun t => !s.bootTestOpen t) then
    let s := ({ s with tests := s.tests.filter (fun (t : BistTest) => t.origin != .boot) } : State).raise .hltIntStatus Irq.hltBootBistDone
    let keep := s.rd .glbBootStage ≠ 5
    let stage := s.rd .glbBootStage
    let s := (s.wr .imgRestart 0).startLanes
    if keep then s.wr .glbBootStage stage else s
  else s)

end Sys2Proof.Machine
end

