-- ==== Sys2Proof/Machine/Flags.lean ====
section
/-!
DEFINITION. The interrupt tree with the INT_N pin, and the CMIS module and data path states: flags that follow from the
registers (R27, R444, R458).
-/
namespace Sys2Proof.Machine

/-- An enabled bit of a status register is set. -/
def State.intOn (s : State) (status enable : Field) (n : Nat := 0) : Bool := s.rd status n &&& s.rd enable n != 0

/-- Lanes, host lanes or clusters of a list with an enabled status bit set, as a mask. -/
def State.intMask (s : State) (status enable : Field) (k : Nat) : Nat :=
  ((List.range k).map (fun n => bit (s.intOn status enable n) * 2 ^ n)).sum

/-- ARC_INT_STATUS.CLUSTER: clusters with an enabled status bit set (R249). -/
def State.intCluster (s : State) : Nat := s.intMask .arcClIntStatus .arcClIntEnable 8

/-- The LANE field of HIF_GLB_INT_STATUS (R458). -/
def State.intHost (s : State) : Nat := s.intMask .hifIntStatus .hifIntEnable 16

/-- The LANE field of OPT_GLB_INT_STATUS (R458). -/
def State.intOptics (s : State) : Nat := s.intMask .optLnIntStatus .optLnIntEnable 8

/-- GLB_INT_LANE: bit 8b + n is block b (LRX, LEQ, LTX, LFR) of lane n (R458, R459). -/
def State.intLane (s : State) : Nat :=
  s.intMask .lrxIntStatus .lrxIntEnable 8 + 2 ^ 8 * s.intMask .leqIntStatus .leqIntEnable 8 +
    2 ^ 16 * s.intMask .ltxIntStatus .ltxIntEnable 8 + 2 ^ 24 * s.intMask .lfrIntStatus .lfrIntEnable 8

/-- GLB_INT_TOP, one bit per block in the order of R459. -/
def State.intTop (s : State) : Nat :=
  let lane := s.intLane
  let bits : List Bool := [lane % 2 ^ 8 != 0, lane / 2 ^ 8 % 2 ^ 8 != 0, lane / 2 ^ 16 % 2 ^ 8 != 0, lane / 2 ^ 24 != 0,
    s.intOn .arcIntStatus .arcIntEnable || s.intCluster != 0, s.intOn .hifGlbIntStatus .hifGlbIntEnable || s.intHost != 0,
    s.intOn .timIntStatus .timIntEnable, s.intOn .clkIntStatus .clkIntEnable,
    s.intOn .optGlbIntStatus .optGlbIntEnable || s.intOptics != 0, s.intOn .monIntStatus .monIntEnable,
    s.intOn .pwrIntStatus .pwrIntEnable, s.intOn .thmIntStatus .thmIntEnable, s.intOn .hltIntStatus .hltIntEnable,
    s.intOn .mgtIntStatus .mgtIntEnable, s.intOn .evfIntStatus .evfIntEnable, s.intOn .secIntStatus .secIntEnable,
    s.intOn .imgIntStatus .imgIntEnable, s.intOn .glbIntStatus .glbIntEnable]
  (bits.zipIdx.map (fun e => bit e.1 * 2 ^ e.2)).sum

/-- The no-image state (R60). -/
def State.inNoImage (s : State) : Bool := s.on .pwrDomMgmt && s.rd .glbBootStage = 9

/-- INT_N is asserted: an enabled status bit, or a condition that asserts it whatever the enables read; in Deep the
failed wake series alone (R27, R376, R458). -/
def State.intN (s : State) : Bool :=
  s.on .pwrSeriesFail ||
    (s.on .pwrDomMgmt && (s.intTop != 0 || s.inNoImage || s.on .mgtFwHalt || s.on .thmCritLatch || s.on .thmThrottleReq))

/-- CMIS module states of R444. -/
inductive ModuleState where
  | lowPwr | pwrUp | ready | pwrDn | fault
deriving DecidableEq, Repr

/-- The CMIS module state; DEEP_ENTRY and DEEP, which R444 does not list, read as the states next to them (log entry
21). -/
def State.moduleState (s : State) : ModuleState :=
  if s.inNoImage || s.on .thmCritLatch || s.on .mgtFwHalt then .fault
  else match s.rd .pwrDevState with
    | 0 => .ready
    | 1 | 4 => .pwrDn
    | 2 | 5 => .lowPwr
    | _ => .pwrUp

/-- CMIS code of a module state (CMIS revision 5.2, log entry 21). -/
def ModuleState.code : ModuleState → Nat
  | .lowPwr => 1
  | .pwrUp => 2
  | .ready => 3
  | .pwrDn => 4
  | .fault => 5

end Sys2Proof.Machine
end

