-- ==== Sys2Proof/Machine/Pages.lean ====
section
/-!
DEFINITION. The CMIS pages: what a byte reads as, what a write of it does, and the module-controller buffers (R436,
R438, R441 to R445). Where single bytes lie inside a page follows CMIS revision 5.2 (log entry 21).
-/
namespace Sys2Proof.Machine

/-- Window address of the lower page (R441). -/
def lowerBase : Nat := 0x7F80

/-- Window address of the upper half of a page in a bank (R441). -/
def pageBase (bank page : Nat) : Nat := bank * 0x8000 + page * 0x80

/-- Page of the register window (R438). -/
def winPage : Nat := 0xB0

/-- Pages that the device serves itself (R442). -/
def devicePage (p : Nat) : Bool :=
  [0x00, 0x01, 0x02, 0x10, 0x11, 0x13, 0x14, 0x9F, 0xB0].contains p || decide (0xA0 ≤ p ∧ p ≤ 0xAF)

/-- The bank of a device page: pages 10h, 11h, 13h and 14h have banks 0 and 1, the others one copy (R441, R442). -/
def pageBank (bank page : Nat) : Nat := if 0x10 ≤ page ∧ page ≤ 0x14 then bank else 0

/-- Pages that the ROM firmware serves beside the lower page (R60, R477). -/
def romPage (p : Nat) : Bool := p == 0x00 || p == 0x9F || decide (0xA0 ≤ p ∧ p ≤ 0xAF)

/-- The firmware that runs serves a page (R60, R442, R477). -/
def State.pageServed (s : State) (page : Nat) : Bool := !s.on .mgtRomFw || romPage page

/-- The buffer that holds a module-controller page: none while MC_PRESENT is 0 (R443). -/
def State.mcBuffer (s : State) (bank page : Nat) : Option Nat :=
  if s.maskBit .mgtModMonMcPresent 0 && page != 0xFF then
    (List.range 16).find? (fun i => s.on .mgtMcPageValid 0 i && s.rd .mgtMcPagePage 0 i == page &&
      s.rd .mgtMcPageBank 0 i == bank)
  else none

/-! ## CMIS flags and masks (R445) -/

/-- The lane flag of a byte of page 11h. -/
def laneFlag (off : Nat) : Option CmisFlag :=
  match off with
  | 134 => some .dpChanged
  | 135 => some .txFault
  | 136 => some .hostTxLos
  | 137 => some .hostCdrLol
  | 147 => some .rxLos
  | 148 => some .rxLol
  | _ => none

/-- The lane flag that a byte of page 10h masks. -/
def laneMask (off : Nat) : Option CmisFlag :=
  match off with
  | 226 => some .rxLos
  | 227 => some .rxLol
  | _ => if 213 ≤ off ∧ off ≤ 216 then laneFlag (off - 79) else none

/-- Module flags and their bits in byte 9, and their masks in byte 32, of the lower page. -/
def moduleFlags : List (CmisFlag × Nat) := [(.tempAlarm, 0), (.tempWarn, 2), (.supplyWarn, 7)]

/-- The instance of a lane flag that bit `j` of its byte in a bank stands for: host lanes by bank, media lanes in bank 0, the
line lane of a host lane for its data path. -/
def State.flagInst (s : State) (k : CmisFlag) (bank j : Nat) : Option Nat :=
  match k with
  | .hostTxLos | .hostCdrLol => some (8 * bank + j)
  | .dpChanged => s.lineOf (8 * bank + j)
  | _ => if bank = 0 then some j else none

/-- A byte of one bit per lane. -/
def byteOfBits (g : Nat → Bool) : Nat := ((List.range 8).map (fun j => bit (g j) * 2 ^ j)).sum

/-- A byte of lane flags or masks. -/
def State.flagByte (s : State) (f : Field) (k : CmisFlag) (bank : Nat) : Nat :=
  byteOfBits (fun j => match s.flagInst k bank j with | some n => s.on f n k.ctorIdx | none => false)

/-- A byte of module flags or masks. -/
def State.moduleByte (s : State) (f : Field) : Nat :=
  (moduleFlags.map (fun e => bit (s.on f 0 e.1.ctorIdx) * 2 ^ e.2)).sum

/-- A mask is written; a flag that becomes unmasked sets CMIS (R445). -/
def State.setCmisMask (s : State) (k : CmisFlag) (n : Nat) (b : Bool) : State :=
  let s := s.wrb .cmisMask b n k.ctorIdx
  s.when (!b && s.on .cmisFlag n k.ctorIdx) (fun t => t.raise .mgtIntStatus Irq.mgtCmis)

/-! ## Bytes (R436, R441 to R444) -/

/-- A byte of the lower page, by offset 0 to 127. -/
def State.lowerByte (s : State) (off : Nat) : Nat :=
  let temp := s.rd .thmHotT * 16 % 2 ^ 16
  let own := !s.maskBit .mgtModMonMcPresent 1
  match off with
  | 3 => s.moduleState.code * 2 + bit (!s.intN)
  | 9 => s.moduleByte .cmisFlag
  | 14 => if own then temp / 2 ^ 8 else s.pages.get (lowerBase + off)
  | 15 => if own then temp % 2 ^ 8 else s.pages.get (lowerBase + off)
  | 16 => if own then s.rd .pwrVddIoMv * 10 / 2 ^ 8 else s.pages.get (lowerBase + off)
  | 17 => if own then s.rd .pwrVddIoMv * 10 % 2 ^ 8 else s.pages.get (lowerBase + off)
  | 32 => s.moduleByte .cmisMask
  | 37 => s.rd .cdbStatus
  | 126 => s.rd .hbBank
  | 127 => s.rd .hbPage
  | _ => s.pages.get (lowerBase + off)

/-- Data path code of a host lane: that of its line lane (R444). -/
def State.hostPath (s : State) (h : Nat) : Nat :=
  match s.lineOf h with
  | some n => (s.dataPath n).code
  | none => DataPathState.deactivated.code

/-- Offsets of the lane monitors of page 11h (log entry 21). -/
def opticalOff (off : Nat) : Bool := decide (154 ≤ off ∧ off ≤ 201)

/-- A byte of a device page, by offset 128 to 255. -/
def State.deviceByte (s : State) (bank page off : Nat) : Nat :=
  let raw := s.pages.get (pageBase (pageBank bank page) page + (off - 128))
  if page = 0x11 ∧ off < 132 then
    let h := 8 * bank + 2 * (off - 128)
    s.hostPath h + 16 * s.hostPath (h + 1)
  else if page = 0x11 ∧ opticalOff off then
    if bank = 0 then (Config.opticalByte off ((List.range 24).map (fun c => s.rd .monChData c))).toNat else 0
  else if page = 0x11 then (match laneFlag off with | some k => s.flagByte .cmisFlag k bank | none => raw)
  else if page = 0x10 then (match laneMask off with | some k => s.flagByte .cmisMask k bank | none => raw)
  else if page = 0x9F ∧ off = 136 then s.rd .cdbReply0
  else raw

/-- What a byte of an upper half reads as. -/
def State.upperByte (s : State) (bank page off : Nat) : Nat :=
  if !s.pageServed page then 0
  else if devicePage page then s.deviceByte bank page off
  else match s.mcBuffer bank page with
    | some i => s.bufs.get (0x80 * i + (off - 128))
    | none => 0

/-- What a byte reads as, by offset 0 to 255, with a page and bank selected. -/
def State.pageByte (s : State) (bank page off : Nat) : Nat :=
  if off < 128 then s.lowerByte off else s.upperByte bank page off

/-- What reading a byte does: latched flags clear on read (R445). -/
def State.pageTouch (s : State) (bank page off : Nat) : State :=
  if off = 9 then s.each moduleFlags (fun e t => t.wr .cmisFlag 0 0 e.1.ctorIdx)
  else if page = 0x11 ∧ 128 ≤ off then
    match laneFlag off with
    | some k => s.each ((List.range 8).filterMap (fun j => s.flagInst k bank j)) (fun n t => t.wr .cmisFlag 0 n k.ctorIdx)
    | none => s
  else s

/-- Bytes from an offset on, within one half. -/
def State.pageRead (s : State) (bank page off k : Nat) : List Nat × State :=
  let offs := (List.range k).map (· + off)
  (offs.map (fun o => s.pageByte bank page o), s.each offs (fun o t => t.pageTouch bank page o))

/-- Offsets of the lower page that show other state. -/
def lowerFixed (off : Nat) : Bool := [3, 9, 37].contains off

/-- The code of a window access that has not completed, 0 where none waits (R438). -/
def State.winCode (s : State) : Nat := s.pages.get (pageBase 0 winPage + 8) % 128

/-- A byte of the window page is written: a WIN_CMD while an access is in progress is ignored and reads BUSY, one that
names no access reads 0 at once, WIN_STATUS is not writable (R438). -/
def State.winWrite (s : State) (off v : Nat) : State :=
  let a := pageBase 0 winPage + (off - 128)
  if off = 0x88 then
    if s.winCode ≠ 0 then { s with pages := s.pages.set (a + 1) 3 }
    else if v % 128 = 1 ∨ v % 128 = 2 then { s with pages := s.pages.set a v }
    else s
  else if off = 0x89 then s
  else { s with pages := s.pages.set a v }

/-- A byte of a device page is written; pages 00h to 02h come from NVM alone (R442). -/
def State.deviceWrite (s : State) (bank page off v : Nat) : State :=
  if page ≤ 2 then s
  else if page = winPage then s.winWrite off v
  else if page = 0x10 ∧ (laneMask off).isSome then
    match laneMask off with
    | some k => s.each (List.range 8) (fun j t =>
        match t.flagInst k bank j with
        | some n => t.setCmisMask k n (v.testBit j)
        | none => t)
    | none => s
  else if page = 0x11 ∧ (off < 132 ∨ (laneFlag off).isSome ∨ opticalOff off) then s
  else { s with pages := s.pages.set (pageBase (pageBank bank page) page + (off - 128)) v }

/-- A byte of the lower page is written. -/
def State.lowerWrite (s : State) (off v : Nat) : State :=
  if off = 126 then s.wr .hbBank v
  else if off = 127 then s.wr .hbPage v
  else if off = 32 then s.each moduleFlags (fun e t => t.setCmisMask e.1 0 (v.testBit e.2))
  else if lowerFixed off then s
  else { s with pages := s.pages.set (lowerBase + off) v }

/-- A byte is written: the lower page, a device page, a buffer; an unassigned page discards it (R443). -/
def State.pageWrite (s : State) (bank page off v : Nat) : State :=
  if off < 128 then s.lowerWrite off v
  else if !s.pageServed page then s
  else if devicePage page then s.deviceWrite bank page off v
  else match s.mcBuffer bank page with
    | some i => { s with bufs := s.bufs.set (0x80 * i + (off - 128)) v }
    | none => s

/-- Bytes are written from an offset on. -/
def State.pageWrites (s : State) (bank page off : Nat) (l : List Nat) : State :=
  s.each l.zipIdx (fun e t => t.pageWrite bank page (off + e.2) e.1)

/-- A host write to a module-controller page: the bytes land in its buffer, with the NOTIFY bit and an MC_WRITE record
(R443, R453). -/
def State.mcHostWrite (s : State) (bank page off : Nat) (l : List Nat) : State :=
  match s.mcBuffer bank page with
  | some i =>
    let s := (s.pageWrites bank page off l).setMask .mgtMcNotify i true
    (s.raise .mgtIntStatus Irq.mgtMcWrite).emit 0x51 8 [i]
  | none => s

/-! ## The CMIS window of the device address space (R441) -/

/-- The byte of a window address: the lower page, or a page and offset of a bank; none for page FFh of bank 1 (R441). -/
def windowPlace (a : Nat) : Option (Nat × Nat × Nat) :=
  if lowerBase ≤ a ∧ a < lowerBase + 128 then some (0, 0, a - lowerBase)
  else
    let page := a % 0x8000 / 0x80
    if page = 0xFF then none else some (a / 0x8000, page, 128 + a % 0x80)

/-- A word of the window. -/
def State.windowWord (s : State) (a : Nat) : Option (Nat × State) :=
  (windowPlace a).map (fun p =>
    let r := s.pageRead p.1 p.2.1 p.2.2 4
    ((packWords r.1).getD 0 0, r.2))

/-- A word is written to the window: a buffer changes without notification (R443). -/
def State.windowSet (s : State) (a w : Nat) : Option State :=
  (windowPlace a).map (fun p => s.pageWrites p.1 p.2.1 p.2.2 (bytesOf w))

end Sys2Proof.Machine
end

