-- ==== Sys2Proof/Machine/Views.lean ====
section
/-!
DEFINITION. What a read of a field returns: the stored value, or for a field that shows other state, that state.
-/
namespace Sys2Proof.Machine

/-- Engines in a state that a test picks. -/
def State.enginesIn (s : State) (p : Nat → Bool) : Nat := ((List.range 128).filter (fun e => p (s.engState e))).length

/-- The codeword an engine holds. -/
def State.shownWork (s : State) : Option EngWork := s.workOf (s.rd .arcEngSel)

/-- SLICE_STATE: 0 active, 1 spare idle, 2 spare shadowing, 3 failed (R124). -/
def State.sliceState (s : State) (n i : Nat) : Nat :=
  if s.on .lrxSliceBad n i then 3
  else if s.rd .lrxAdcSpare n = i then (if s.on .lrxCalActive n then 2 else 1)
  else 0

/-- Position of a transmit cell, 0x7F out of service (R190). -/
def State.posOfCell (s : State) (n c : Nat) : Nat :=
  if s.on .ltxCellBad n c then 0x7F
  else ((List.range 127).find? (fun p => s.rd .ltxCellOfPos n p = c)).getD 0x7F

/-- CELL_STATE: 0 active, 1 out of service, 2 trimming, 3 failed (R190). -/
def State.cellState (s : State) (n c : Nat) : Nat :=
  if s.on .ltxCellBad n c then 3
  else if s.on .ltxCalActive n && s.rd .ltxNextIn n == c then 2
  else if s.posOfCell n c = 0x7F then 1
  else 0

/-- Release hold of a lane in use, line UI: 5,033, 79,833 or 165,966, and 64 lane cycles in compatibility mode (R237,
R240). -/
def State.holdUi (s : State) (n : Nat) : Nat :=
  if 4 ≤ s.rd .lrxState n ∧ s.rd .lrxState n ≤ 5 then [5033, 79833, 165966, 10240].getD (s.rd .lfrProfActive n) 0 else 0

/-- Pending background tasks of a cluster: those that no engine runs (R246). -/
def State.bgPending (s : State) (c : Nat) : List BgTask := s.bg.filter (fun b => b.cluster = c && !b.run)

/-- Source and instance selected by HLT_SRC_SEL. -/
def State.shownSrc (s : State) : Nat × Nat := (s.rd .hltSelSource, s.rd .hltSelInstance)

/-- Running or re-initialising tests of a kind of slot (R417). -/
def State.testsIn (s : State) (slot : TestSlot) : Nat :=
  (s.tests.filter (fun t => slotOf t.kind == slot && t.phase == .running)).length

/-- An island that TIME serves has no valid cross-capture (R290). -/
def State.tsInvalid (s : State) : Bool :=
  (List.range 12).any (fun i => s.on .timCapNeed i &&
    (if i < 8 then s.maskBit .pwrDomLane i else s.maskBit .pwrDomHost (i - 8)))

/-- The value that a read of field `f` shows. -/
def State.view (s : State) (f : Field) (n i : Nat) : Nat :=
  match f with
  | .glbIntTop => s.intTop
  | .glbIntLane => s.intLane
  | .arcIntCluster => s.intCluster
  | .hifGlbIntLane => s.intHost
  | .optGlbIntLane => s.intOptics
  | .lrxSlicePos => (s.posOfSlice n (s.rd .lrxSliceSel n)).getD 0
  | .lrxSliceState => s.sliceState n (s.rd .lrxSliceSel n)
  | .lrxOfsLimit => bit (ofsAtEnd (s.rdInt .lrxOfsCode n))
  | .lrxSkew => s.rd .lrxSliceSkew n (s.rd .lrxSliceSel n)
  | .lrxGain => s.rd .lrxSliceGain n (s.rd .lrxSliceSel n)
  | .lrxOffset => s.rd .lrxSliceOfs n (s.rd .lrxSliceSel n)
  | .ltxCellPos => s.posOfCell n (s.rd .ltxCellSel n)
  | .ltxCellState => s.cellState n (s.rd .ltxCellSel n)
  | .ltxCellTrim => s.rd .ltxCellTrimOf n (s.rd .ltxCellSel n)
  | .hifGlbRsMonLock => bit (s.on .hifGlbRsMonLock 0 i && s.monLanes (s.groupOf (i / 2)) (i % 2 == 1))
  | .arcAtc => s.atc
  | .arcPoolFailed => s.enginesIn (· == 7)
  | .arcPoolOut => s.enginesIn (fun e => decide (5 ≤ e ∧ e ≤ 7))
  | .arcPoolIn => s.enginesIn (fun e => decide (e ≤ 4))
  | .arcEngFailedMap => ((List.range 32).map (fun j => bit (s.engState (32 * i + j) = 7) * 2 ^ j)).sum
  | .arcEngBistMap => ((List.range 32).map (fun j => bit (s.engState (32 * i + j) = 5) * 2 ^ j)).sum
  | .arcEngState => s.engState (s.rd .arcEngSel)
  | .arcEngLane => (s.shownWork.map (fun w => w.cw.lane)).getD 0
  | .arcEngIndex => (s.shownWork.map (fun w => w.cw.index)).getD 0
  | .arcEngIter => (s.shownWork.map (fun w => w.iter)).getD 0
  | .arcEngReserve => bit (s.engHome (s.rd .arcEngSel)).2
  | .arcEngHeld => bit (s.engHeld (s.rd .arcEngSel))
  | .arcEngEcc1 => s.rd .arcEngEcc 0 (s.rd .arcEngSel)
  | .arcClPoint => s.arcPoint n
  | .arcClThermal => bit (s.on .thmLnDvfsSteps 0 n)
  | .arcClThreshEff => s.threshEff n
  | .arcClQDepth => (s.queue n).length
  | .arcClBusy => ((List.range 16).filter (fun k => 1 ≤ s.engState (16 * n + k) && s.engState (16 * n + k) ≤ 4)).length
  | .arcClStarveBlocked => bit (s.starveBlocked n)
  | .arcClAgeMax => (s.bgPending n).foldl (fun a b => max a b.age) 0
  | .arcClPending => ((List.range 3).map (fun k => bit ((s.bgPending n).any (fun b => b.kind = k)) * 2 ^ k)).sum
  | .arcClHoldUi => s.holdUi n
  | .pwrDeep => bit s.deepRuns
  | .pwrRetValid => bit s.retValid
  | .timTsInvalid => bit s.tsInvalid
  | .timDriftValid => bit s.driftValid
  | .lfrGroupWait => bit (s.rd .lrxState n = 3 && !s.groupAgrees n)
  | .hifChkLock => if s.on .hifRxChk n then s.rd .hifChkLock n else 0
  | .clkCalReq => ((List.range 5).map (fun p => bit (s.maskBit .clkCalReq p || s.on .pllReqPend p) * 2 ^ p)).sum
  | .timTod => s.todWords
  | .timTsfLevel => s.tsf.length
  | .timDpllBwAct => s.dpllBand.1
  | .timDpllBwClamped => bit s.dpllBand.2
  | .timRngSet => s.rangeSet.foldl (fun a k => a + 2 ^ k) 0
  | .timRngAvail => bit s.rangeUsable
  | .timLnRangeMember => bit (s.rangeSet.contains n)
  | .timLnRatioValid => bit (2 ≤ s.xState n && s.ratioSpan n ≤ (s.ex n).hist.length)
  | .timLnResultValid => bit (s.xState n = 3)
  | .timLnVer => s.icrisVer n
  | .timLnXstate => s.xState n
  | .timHostHrxActive => bit (s.pointOn 2 n)
  | .timHostHtxActive => bit (s.pointOn 3 n)
  | .optLnClamp => bit (s.on .optLnClamp n || s.underTest 4 n || s.underTest 7 0)
  | .optOutCode => if s.underTest 4 n then 0 else s.rd .optOutCode n i
  | .pbBusy => bit (!s.pb.isEmpty)
  | .optGlbSavePending => bit s.savePending
  | .optLnOffRemainMs => s.rd .optLnOffRemainMs n - usBetween (s.rd .optOffAt n) s.now / 1000
  | .hltBistIslandSlots => s.testsIn .island
  | .hltBistEngines => s.testsIn .engine
  | .hltBistPeriph => s.testsIn .peripheral
  | .hltInstOpen => s.rd .hltWinOpen s.shownSrc.1 s.shownSrc.2
  | .hltInstLasting => bit (s.maskBit' .hltSrcLasting s.shownSrc.1 s.shownSrc.2)
  | .hltInstCount => if s.on .hltWinOpen s.shownSrc.1 s.shownSrc.2 then s.rd .hltWinCount s.shownSrc.1 s.shownSrc.2 else 0
  | .hltInstElapsedUs => if s.on .hltWinOpen s.shownSrc.1 s.shownSrc.2 then
      usBetween (s.rd .hltWinAt s.shownSrc.1 s.shownSrc.2) s.now else 0
  | .hltInstTotal => s.rd .hltTotal s.shownSrc.1 s.shownSrc.2
  | .mgtFwVersion => (s.running.map (fun i => (Config.fwVersion i.firmware).toNat)).getD 0
  | .mgtMbxFree => s.mbxFree
  | .mgtMbxAvail => bytesIn s.mbxOut
  | .evfFull => bit (s.evf.length = evfWords)
  | .evfLevel => s.evf.length
  | .evfFormat => if s.on .evfFmtPending then s.rd .evfFormatNew else s.rd .evfFormat
  | .secPendingNvm => bit s.savePending
  | _ => s.rd f n i

end Sys2Proof.Machine
end

