-- ==== Sys2Proof/Machine/Bus.lean ====
section
/-!
DEFINITION. The register fabric: which register an address names, what a read returns and does, and what a write of each
access type does (R15 to R19, R27, R334, R505 to R507).
-/
namespace Sys2Proof.Machine

/-! ## Addresses (R505, R506) -/

/-- A run of register blocks in the address map: base, distance and number of instances, bytes of each. -/
structure Span where
  block : Block
  base : Nat
  stride : Nat
  count : Nat
  size : Nat
deriving DecidableEq, Repr

/-- The address map of R505, with the parts of each block apart; the first span that holds an address counts. -/
def addressMap : List Span :=
  [⟨.glb, 0x10000, 0x1000, 1, 0x1000⟩, ⟨.lrx, 0x100000, 0x10000, 8, 0x4000⟩, ⟨.leq, 0x104000, 0x10000, 8, 0x4000⟩,
   ⟨.ltx, 0x108000, 0x10000, 8, 0x4000⟩, ⟨.lfr, 0x10C000, 0x10000, 8, 0x4000⟩, ⟨.arc, 0x200000, 0x1000, 1, 0x1000⟩,
   ⟨.arcCl, 0x210000, 0x1000, 8, 0x1000⟩, ⟨.hif, 0x300000, 0x1000, 16, 0x1000⟩, ⟨.hifGlb, 0x310000, 0x1000, 1, 0x1000⟩,
   ⟨.tim, 0x400000, 0x1000, 1, 0x1000⟩, ⟨.timLn, 0x401000, 0x100, 8, 0x100⟩, ⟨.timHost, 0x402000, 0x40, 16, 0x40⟩,
   ⟨.pll, 0x500100, 0x20, 5, 0x20⟩, ⟨.clk, 0x500000, 0x1000, 1, 0x1000⟩, ⟨.optLn, 0x600000, 0x400, 8, 0x400⟩,
   ⟨.optGlb, 0x602000, 0x1000, 1, 0x1000⟩, ⟨.monCh, 0x604100, 0x40, 24, 0x40⟩, ⟨.mon, 0x604000, 0x1000, 1, 0x1000⟩,
   ⟨.optTbl, 0x608000, 0x800, 8, 0x800⟩, ⟨.pwrLn, 0x700100, 0x10, 8, 0x10⟩, ⟨.pwr, 0x700000, 0x1000, 1, 0x1000⟩,
   ⟨.thm, 0x710000, 0x1000, 1, 0x1000⟩, ⟨.hltLn, 0x720400, 0x40, 8, 0x40⟩, ⟨.hlt, 0x720000, 0x1000, 1, 0x1000⟩,
   ⟨.mgt, 0x800000, 0x1000, 1, 0x1000⟩, ⟨.evf, 0x808000, 0x1000, 1, 0x1000⟩, ⟨.sec, 0x900000, 0x1000, 1, 0x1000⟩,
   ⟨.img, 0xA00000, 0x1000, 1, 0x1000⟩]

/-- A register: its block and instance, the offset of its lowest word in the block, its words, and the word addressed. -/
structure Reg where
  block : Block
  inst : Nat
  base : Nat
  words : Nat
  word : Nat
deriving DecidableEq, Repr

/-- Registers of more than one word: block, offset, words, and number of and distance between like ones (R506). -/
def wideRegs : List (Block × Nat × Nat × Nat × Nat) :=
  [(.img, 0x14, 2, 1, 0x1000), (.img, 0x30, 4, 1, 0x1000), (.hifGlb, 0x100, 6, 16, 0x20), (.tim, 0x10, 4, 1, 0x1000),
   (.tim, 0x20, 4, 1, 0x1000), (.tim, 0x60, 4, 1, 0x1000), (.tim, 0x84, 4, 1, 0x1000), (.timLn, 0x10, 7, 1, 0x1000),
   (.timLn, 0x30, 6, 1, 0x1000), (.timLn, 0x80, 4, 1, 0x1000), (.timLn, 0x90, 4, 1, 0x1000), (.timHost, 0x0, 4, 1, 0x1000),
   (.timHost, 0x10, 4, 1, 0x1000), (.pll, 0x8, 4, 1, 0x1000), (.hlt, 0x100, 2, 16, 0x8), (.hltLn, 0x0, 13, 1, 0x1000),
   (.sec, 0x10, 4, 1, 0x1000), (.sec, 0x20, 8, 1, 0x1000), (.sec, 0x44, 12, 1, 0x1000), (.sec, 0x74, 12, 1, 0x1000),
   (.sec, 0x100, 24, 1, 0x1000)]

/-- The lowest offset and the words of the register at an offset of a block. -/
def regSpan (b : Block) (off : Nat) : Nat × Nat :=
  match wideRegs.find? (fun w => w.1 == b && decide (w.2.1 ≤ off) && decide ((off - w.2.1) / w.2.2.2.2 < w.2.2.2.1) &&
      decide ((off - w.2.1) % w.2.2.2.2 < 4 * w.2.2.1)) with
  | some w => (w.2.1 + (off - w.2.1) / w.2.2.2.2 * w.2.2.2.2, w.2.2.1)
  | none => (off, 1)

/-- A field in a register: its element and the place of its lowest bit. -/
structure Slot where
  field : Field
  elem : Nat
  lo : Nat
deriving DecidableEq, Repr

/-- Where a field lies in the register at `base` with `words` words of a block, if it does. -/
def fieldSlot (b : Block) (base words : Nat) (f : Field) : Option Slot :=
  let d := f.desc
  if d.block ≠ b ∨ base + 4 * words ≤ d.off then none
  else
    let i := min ((base + 4 * words - 1 - d.off) / d.stride) (d.count - 1)
    let o := d.off + i * d.stride
    if base ≤ o ∧ o < base + 4 * words then some ⟨f, i, 8 * (o - base) + d.lo⟩ else none

/-- The fields of a register. -/
def Reg.slots (r : Reg) : List Slot := Field.addressed.filterMap (fieldSlot r.block r.base r.words)

/-- The register an address names; none where it is unmapped (R16, R505). Address bits 1 and 0 are ignored. -/
def regAt (a : Nat) : Option Reg :=
  let a := a - a % 4
  match addressMap.find? (fun p => decide (p.base ≤ a) && decide ((a - p.base) / p.stride < p.count) &&
      decide ((a - p.base) % p.stride < p.size)) with
  | none => none
  | some p =>
    let off := (a - p.base) % p.stride
    let w := regSpan p.block off
    let r : Reg := ⟨p.block, (a - p.base) / p.stride, w.1, w.2, (off - w.1) / 4⟩
    if r.slots.isEmpty then none else some r

/-- How an access ends: it completes, it met an unmapped address, or a powered-down island (R16, R334). -/
inductive BusEnd where
  | ok | unmapped | stopped
deriving DecidableEq, Repr

/-- The address lies in the CMIS window (R505). -/
def inCmis (a : Nat) : Bool := decide (a < 0x10000)

/-- The address lies in the NVM read window (R505). -/
def inNvm (a : Nat) : Bool := decide (0xB00000 ≤ a ∧ a < 0xB80000)

/-- Addresses that the host-bus window and the mailbox do not reach (R438, R457, R505). -/
def deniedAt (a : Nat) : Bool := inCmis a || inNvm a || decide (0x900000 ≤ a ∧ a < 0x901000)

/-! ## Reads (R16, R19, R418) -/

/-- The unit of R415 whose registers a block holds: kind and unit. -/
def testedUnit (b : Block) (n : Nat) : Option (Nat × Nat) :=
  match b with
  | .lrx | .leq | .ltx | .lfr => some (1, n)
  | .hif => some (2, n / 4)
  | .hifGlb => some (3, 0)
  | _ => none

/-- The registers of a block are answered from the mirror: its unit is under test (R418). -/
def State.mirrorOnly (s : State) (b : Block) (n : Nat) : Bool :=
  match testedUnit b n with
  | some u => s.underTest u.1 u.2
  | none => false

/-- What a field reads as: WO and INT_FORCE fields 0, under test 0 but for RW and LK fields (R16, R17, R27, R418). -/
def State.readField (s : State) (mirror : Bool) (n : Nat) (l : Slot) : Nat :=
  match l.field.desc.access with
  | .wo | .w1s | .hid => 0
  | .rw | .lk => if mirror then s.rd l.field n l.elem else s.view l.field n l.elem
  | _ => if mirror then 0 else s.view l.field n l.elem

/-- A register as one number; reserved bits read 0. -/
def State.regValue (s : State) (r : Reg) : Nat :=
  let mirror := s.mirrorOnly r.block r.inst
  r.slots.foldl (fun v l => v ||| s.readField mirror r.inst l % 2 ^ l.field.width * 2 ^ l.lo) 0

/-- Word `k` of a number. -/
def wordAt (v k : Nat) : Nat := v / 2 ^ (32 * k) % 2 ^ 32

/-- Put a word at an address of a list in rising order. -/
def putWord (a w : Nat) : List (Nat × Nat) → List (Nat × Nat)
  | [] => [(a, w)]
  | e :: l => if e.1 < a then e :: putWord a w l else if e.1 = a then (a, w) :: l else (a, w) :: e :: l

/-- The word at an address of such a list. -/
def wordIn (l : List (Nat × Nat)) (a : Nat) : Option Nat := (l.find? (fun e => e.1 == a)).map (·.2)

/-- Read a word of a register: the lowest word of a wide one snapshots the higher ones, which return the snapshot (R19);
before any snapshot they return the present value (log entry 18). -/
def State.readReg (s : State) (a : Nat) (r : Reg) : Nat × State :=
  let v := s.regValue r
  if r.words = 1 then (wordAt v 0, s)
  else if r.word = 0 then
    let snap := (List.range (r.words - 1)).foldl (fun l k => putWord (a + 4 * (k + 1)) (wordAt v (k + 1)) l) s.snaps
    (wordAt v 0, { s with snaps := snap })
  else ((wordIn s.snaps a).getD (wordAt v r.word), s)

/-- What a command does where it goes on; every command does (R16). -/
def State.did (s : State) (g : State → Out) : State :=
  match g s with
  | .next t => t
  | .fault _ => s
  | .refused _ => s

/-- A read of a register, with the three that advance a FIFO; a bin read during a capture is not final, and free (R157, R292,
R449, log entry 2). -/
def State.readAt (s : State) (a : Nat) (r : Reg) : Nat × State :=
  if r.block = .evf ∧ r.base = 0 then s.evfPop
  else if r.block = .mgt ∧ r.base = 0x6C then s.mbxPop
  else if r.block = .tim ∧ r.base = 0x80 then (s.did execTsfRead).readReg a r
  else if r.block = .leq ∧ 0x400 ≤ r.base ∧ r.base < 0x600 ∧ s.on .leqHistRun r.inst then (s.free.1 % 2 ^ 32, s.free.2)
  else s.readReg a r

/-- A word of the NVM read window: SECRET reads 0, MODULE_INFO its bytes; the spec gives the other regions no layout, so
their words are free (R468, R471, log entry 2). -/
def State.nvmWord (s : State) (a : Nat) : Nat × State :=
  let o := a - 0xB00000
  if 0x2000 ≤ o ∧ o < 0x3000 then (0, s)
  else if 0x10000 ≤ o then (s.info.word (o - 0x10000), s)
  else (s.free.1 % 2 ^ 32, s.free.2)

/-- A read that ends in a way. -/
def readEnds (e : BusEnd) (r : Nat × State) : (Nat × BusEnd) × State := ((r.1, e), r.2)

/-- A word read through the fabric, and how the access ended (R15, R16, R334). -/
def State.busRead (s : State) (addr : Nat) : (Nat × BusEnd) × State :=
  let a := addr - addr % 4
  if inCmis a then
    match s.windowWord a with
    | some r => readEnds .ok r
    | none => readEnds .unmapped (0, s.busErr)
  else if inNvm a then readEnds .ok (s.nvmWord a)
  else match regAt a with
    | none => readEnds .unmapped (0, s.busErr)
    | some r =>
      if s.powered r.block r.inst then readEnds .ok (s.readAt a r)
      else readEnds .stopped (0, s.rgStopped)

/-! ## What a write of a field does (R17, R21, R45, R461) -/

/-- The value a field takes: clamped to the nearest end of its range (R219, R361 and the like). -/
def clampField (f : Field) (v : Nat) : Nat := clampNat f.desc.least f.desc.most v

/-- A shadowed or plain field takes its value; an owned one leaves its preset (R21, R45). -/
def State.putPlain (s : State) (f : Field) (n i v : Nat) : State :=
  (s.wr f (clampField f v) n i).expertMark f n

/-- STANDBY_SW written: 1 asks for Standby; 0 ends a Standby that nothing else holds, or the vote for it (R372, R381, log
entry 23). -/
def State.standbySw (s : State) (v : Nat) : State :=
  if v = 1 then s.did execStandbySwWrite
  else
    let s := s.wr .pwrStandbySw 0
    if s.rd .pwrDevState = 1 ∨ s.rd .pwrDevState = 2 then (if s.standbyHeld then s.wakeHeld 3 else s.standbyRelease 3)
    else if s.rd .pwrDevState = 0 ∧ s.rd .pwrDevTarget ≠ 7 ∧ !(s.on .pwrLpmode ∧ s.on .pwrLpmodeEn) then s.deviceAbandon 3
    else s

/-- The source of the time DPLL changes: FREERUN in FREE and HOST, else ACQUIRE; FREE follows the nominal ratio (R312,
R313). -/
def State.dpllSource (s : State) (v : Nat) : State :=
  if s.rd .timDpllSrc = v then s
  else
    let s := ({ s with dpllHist := [] } : State).puts [(.timDpllSrc, v), (.timDpllState, bit (2 ≤ v)), (.timDpllRun, 0),
      (.timDpllMiss, 0), (.timDpllDue, 0)]
    s.when (v == 0) (fun t => t.wr .timFreq 0)

/-- BASE of an output is written; it releases a clamped OBIAS of a lane that no power-up value released,
but not in Standby (R338, R340, R344). -/
def State.basePut (s : State) (n k v : Nat) : State :=
  let s := (s.wr .optOutBase v n k).wr .optBaseWr 1 n k
  if k = 0 ∧ s.on .optLnClamp n ∧ !s.on .optReleased n ∧ !s.on .optFault n ∧ s.on .optGlbPuDone ∧ s.rd .pwrDevState ≠ 2 then
    s.puts [(.optLnClamp, 0), (.optReleased, 1)] n
  else s

/-- LANE_MASK is written: a lane that loses its bit with pins granted trips (R349, R350). -/
def State.laneMaskPut (s : State) (v : Nat) : State :=
  let old := s.rd .optGlbLaneMask
  (s.wr .optGlbLaneMask v).each (List.range 8) (fun n t =>
    if old.testBit n ∧ !v.testBit n ∧ t.pinsGranted n then t.envTrip n 1 else t)

/-- MON_EN is written: every channel that changes is switched (R355). -/
def State.monEnPut (s : State) (v : Nat) : State :=
  let old := s.rd .monEn
  (s.wr .monEn v).each ((List.range 24).filter (fun c => old.testBit c != v.testBit c)) (fun c t => t.monSwitch c)

/-- A field of a channel's chain is written: a change switches the channel (R355). -/
def State.monPut (s : State) (f : Field) (c v : Nat) : State :=
  let v := clampField f v
  if s.rd f c = v then s else (s.wr f v c).monSwitch c

/-- ENABLE, TX_EN and the like: the command of the value written. -/
def State.enablePut (s : State) (v : Nat) (on off : State → Out) : State := s.did (if v = 1 then on else off)

/-- ING_SLEEP or EGR_SLEEP is written: the command where it changes or withdraws a request that waits (R366, R423). -/
def State.sleepPut (s : State) (lane : Lane) (egress : Bool) (v : Nat) : State :=
  if s.rd (if egress then .pwrLnEgrSleep else .pwrLnIngSleep) lane = v ∧ !s.deferred.contains (.sleep lane egress) then s
  else s.enablePut v (execSleepRequest lane egress) (execSleepRequestClear lane egress)

/-- The bits of a time value that are not reserved: FRAC, NS and SEC (R25). -/
def timeMask : Nat := (2 ^ 16 - 1) + (2 ^ 80 - 1) * 2 ^ 32

/-- A write of an RW or LK field that its lifecycle state permits (R17, R461). -/
def State.putField (s : State) (f : Field) (n i v : Nat) : State :=
  let lane : Fin 8 := Fin.ofNat 8 n
  let host : Fin 16 := Fin.ofNat 16 n
  match f with
  | .lrxPreset => s.presetWrite .receive n v
  | .leqPreset => s.presetWrite .equaliser n v
  | .ltxPreset => s.presetWrite .transmit n v
  | .hifPreset => s.presetWrite .host n v
  | .lrxEnable => s.enablePut v (execLrxEnable lane) (execLrxDisable lane)
  | .ltxTxEn => s.enablePut v (execTxEnableRequest lane) (execTxDisable lane .txEnCleared)
  | .hifEnable => s.enablePut v (execHifEnable host) (execHifDisable host)
  | .hifAlignDone => if v = 1 then s.did (execAlignDoneWrite host) else s.wr .hifAlignDone 0 n
  | .leqAdaptEn => (s.wr .leqAdaptEn v n).leqFollow n
  | .leqStartMain => (s.wrInt .leqStartMain (clampInt 0x100 0x7FF (signedOf 12 v)) n).expertMark .leqStartMain n
  | .leqTapCoef => (s.wrInt .leqTapShadow (ffeLimit i (signedOf 12 v)) n i).wr .leqTapWritten 1 n i
  | .ltxFirTap => ((s.wrInt .ltxFirTap (firLimit i (signedOf 12 v)) n i).expertMark .ltxFirTap n).wr .ltxShapeSet 1 n
  | .ltxLut0 | .ltxLut1 | .ltxLut2 | .ltxLut3 => (s.putPlain f n i v).wr .ltxShapeSet 1 n
  | .hifTxTap => (s.wrInt .hifTapShadow (hifTapLimit i (signedOf 12 v)) n i).wr .hifTapWritten 1 n i
  | .pwrLnIngSleep => s.sleepPut lane false v
  | .pwrLnEgrSleep => s.sleepPut lane true v
  | .pwrLnIngBudgetUs => s.did (execBudgetWrite lane false (BitVec.ofNat 16 v))
  | .pwrLnEgrBudgetUs => s.did (execBudgetWrite lane true (BitVec.ofNat 16 v))
  | .pwrStandbySw => if s.rd .pwrStandbySw = v then s else s.standbySw v
  | .pwrLpmodeEn =>
    let s := s.wr .pwrLpmodeEn v
    if v = 1 ∧ s.on .pwrLpmode then s.standbyRequest else s
  | .pwrLnTrimPoint => (s.putPlain f n i v).when (s.on .pwrLnTrim n) (fun t => t.dvfsKick)
  | .pwrDvfsReq => s.writePoints v
  | .pwrVoutMv => s.writeVout v
  | .evfFormat => s.evfFormatSet v
  | .mgtMbxSize => if s.rd .mgtMbxSize = v then s else s.mbxResize v
  | .timDpllSrc => s.dpllSource v
  | .timFreq =>
    if s.rd .timDpllSrc = 1 then s.wrInt .timFreq (clampInt (-819200000) 819200000 (signedOf 32 v)) else s
  | .timLnExchEn => (s.wr .timLnExchEn v n).when (v == 0 && s.on .timLnExchEn n) (fun t => t.exchClear n)
  | .timTodSet => s.wr .timTodSet (v &&& timeMask)
  | .timInEn => (s.wr f v).when (s.rd f != v) (fun t => t.wr .timInHas 0)
  | .clkForceB => (s.wr .clkForceB v).xbarFollow
  | .monEn => s.monEnPut v
  | .monChCicR | .monChHb | .monChFirEn | .monChFirDec | .monChGain => s.monPut f n v
  | .optOutBase => s.basePut n i v
  | .optTblOdd | .optTblEven =>
    if s.maskBit .optGlbTblHold n then s.wr f v n i else s.raise .optGlbIntStatus Irq.optGlbTblWrIgnored
  | .optGlbLaneMask => s.laneMaskPut v
  | .optLnMonCh => if 24 ≤ v ∧ v ≤ 30 then s else s.wr .optLnMonCh v n
  | _ => s.putPlain f n i v

/-- LK fields accept writes in Blank and Manufacturing only (R461). -/
def State.lkOpen (s : State) : Bool := decide (s.rd .secLcState ≤ 1)

/-- The RW and LK part of a register write. -/
def State.putSlots (s : State) (r : Reg) (v : Nat) : State :=
  s.each r.slots (fun l t =>
    let w := v / 2 ^ l.lo % 2 ^ l.field.width
    match l.field.desc.access with
    | .rw => t.putField l.field r.inst l.elem w
    | .lk => if t.lkOpen then t.putField l.field r.inst l.elem w else t
    | _ => t)

/-- Field `f` is one of the configuration fields that a block's COMMIT applies. -/
def shadowedIn (l : Slot) : Bool :=
  l.field.desc.shadow || l.field == .leqTapCoef || l.field == .hifTxTap

/-- The preset block of a register block. -/
def blockPreset (b : Block) : Option PresetBlock :=
  match b with
  | .lrx => some .receive
  | .leq => some .equaliser
  | .ltx => some .transmit
  | .hif => some .host
  | _ => none

/-- What follows the fields of a register together: configuration in OFF, limits that one field sets for another, the
windows of a fault source, the validity of a page assignment (R124, R197, R284, R347, R398, R412, R443, R450). -/
def State.regSettle (s : State) (r : Reg) : State :=
  let n := r.inst
  let s := match blockPreset r.block with
    | some b => s.configSettle b n ((r.slots.filter shadowedIn).map (fun l => (l.field, l.elem)))
    | none => s
  if r.block = .lfr ∧ r.base = 0x20 then s.wr .lfrMarkCand (min (s.rd .lfrMarkCand n) (s.rd .lfrMarkGood n)) n
  else if r.block = .hif ∧ r.base = 0xC then
    (s.wr .hifCtleMin (min (s.rd .hifCtleMin n) (s.rd .hifCtleMax n)) n).configSettle .host n [(.hifCtleMin, 0)]
  else if r.block = .optLn ∧ r.base = 0x50 then
    s.wr .optLnIdleBiasMax (min (s.rd .optLnIdleBiasMax n) (s.rd .optLnMaxBias n)) n
  else if r.block = .thm ∧ r.base = 0x4 then
    let warn := clampNat 80 110 (s.rd .thmWarnC)
    s.puts [(.thmWarnC, warn), (.thmThrC, clampNat warn 110 (s.rd .thmThrC))]
  else if r.block = .evf ∧ r.base = 0x4 then
    s.when (decide (s.evfHigh ≤ s.rd .evfLwm)) (fun t => t.wr .evfHwm (t.rd .evfLwm + 1))
  else if r.block = .hlt ∧ 0x100 ≤ r.base ∧ r.base < 0x180 then
    s.each (List.range 16) (fun i t => (t.wr .hltWinOpen 0 ((r.base - 0x100) / 8) i).wr .hltWinCount 0 ((r.base - 0x100)
      / 8) i)
  else if r.block = .mgt ∧ 0x20 ≤ r.base ∧ r.base < 0x60 then
    let i := (r.base - 0x20) / 4
    s.when (devicePage (s.rd .mgtMcPagePage 0 i)) (fun t => t.wr .mgtMcPageValid 0 0 i)
  else s

/-- Bits of a status register that an event sets itself: the summary field of ARC_INT_STATUS is not one (R249, R458). -/
def ownBits (f : Field) : Nat := if f = .arcIntStatus ∨ f = .arcIntForce then 0x700 else 2 ^ f.width - 1

/-- The W1C part of a register write: lasting faults clear under R413, other bits as they are (R17, R27). -/
def State.clearSlots (s : State) (r : Reg) (v : Nat) : State :=
  s.each r.slots (fun l t =>
    let w := v / 2 ^ l.lo % 2 ^ l.field.width
    if l.field.desc.access ≠ .w1c then t
    else if l.field = .hltSrcLasting then
      t.each ((List.range 16).filter (fun k => w.testBit k)) (fun k u => u.clearLasting l.elem k)
    else
      let old := t.rd l.field r.inst l.elem
      t.wr l.field (old - (old &&& w)) r.inst l.elem)

/-- The status register that an INT_FORCE register sets: the one two words below (R27, R507). -/
def State.forceSlots (s : State) (r : Reg) (v : Nat) : State :=
  if r.slots.any (fun l => l.field.desc.access == .w1s) then
    let status : Reg := { r with base := r.base - 8 }
    s.each (status.slots.filter (fun l => l.field.desc.access == .w1c)) (fun l t =>
      t.wr l.field (t.rd l.field r.inst l.elem ||| (v / 2 ^ l.lo &&& ownBits l.field)) r.inst l.elem)
  else s

/-- GO of HLT_BIST_CMD: a test of KIND and UNIT (R415, R432). -/
def State.bistCmd (s : State) : State :=
  s.bistGo (s.rd .hltBistKind) (s.rd .hltBistUnit) (s.on .hltBistPreempt)

/-- GO of TIM_TOD_CMD by OP: SET_NOW, SET_AT_TIME_IN, STEP, SLEW (R286). -/
def State.todCmd (s : State) : State :=
  match s.rd .timTodOp with
  | 0 => s.did execTodSetNow
  | 1 => s.did execTodSetAtTimeIn
  | 2 => s.did execTodStep
  | _ => s.did execTodSlew

/-- A write of 1 to a command bit starts it; a bit that reads 1 ignores it unless its description says otherwise (R17,
R79, R218, R286, R432, R473). -/
def State.commandOpen (s : State) (f : Field) (n : Nat) : Bool :=
  s.view f n 0 == 0 || f == .imgCmdGo || f == .leqHistStart || f == .lfrProfChange || f == .hltBistGo || f == .secCmdGo ||
    (f == .timTodGo && s.on .timSlewing && decide (s.rd .timTodOp ≤ 1))

/-- What the command bits start. -/
def State.startCommand (s : State) (f : Field) (n v : Nat) : State :=
  let lane : Fin 8 := Fin.ofNat 8 n
  let host : Fin 16 := Fin.ofNat 16 n
  match f with
  | .glbStraitClr => s.did execStraitErrClr
  | .imgCmdGo => s.imgGo (s.rd .imgCmdOp) (s.rd .imgCmdSlot) (s.rd .imgCmdGroupLead)
  | .imgPcClr => s.did execImgPcClr
  | .lrxCommit => s.did (execLrxCommit lane)
  | .lrxRestart => s.did (execLrxRestart lane)
  | .lrxCntClr => s.did (execLrxCntClr lane)
  | .leqCommit => s.did (execLeqCommit lane)
  | .leqCoefSnap => s.did (execCoefSnap lane)
  | .leqCntClr => s.did (execLeqCntClr lane)
  | .leqHistStart => s.did (execHistStart lane)
  | .ltxCommit => s.did (execLtxCommit lane)
  | .ltxCntClr => s.did (execLtxCntClr lane)
  | .ltxRestart => s.did (execLtxRestart lane)
  | .ltxWakeSend => s.did (execWakeSend lane)
  | .lfrCntClr => s.did (execLfrCntClr lane)
  | .lfrReneg => s.did (execReneg lane)
  | .lfrProfChange => s.did (execProfileChange lane)
  | .arcCntClr => s.did execArcCntClr
  | .arcClCntClr => s.did (execArcClCntClr lane)
  | .hifCommit => s.did (execHifCommit host)
  | .hifCntClr => s.did (execHifCntClr host)
  | .hifRetrain => s.did (execHifRetrain host)
  | .hifSlipCmd => s.did (execHifSlip host)
  | .hifGlbCntClr => s.did execHifGlbCntClr
  | .timCntClr => s.did execTimCntClr
  | .timTodGo => s.todCmd
  | .timTsfFlush => s.did execTsfFlush
  | .timLnCntClr => s.did (execTimLnCntClr lane)
  | .timLnRestartAvg => s.did (execRestartAvg lane)
  | .clkCntClr => s.did execClkCntClr
  | .clkCalReq => s.did (execPllCalReq (BitVec.ofNat 5 (v - (v &&& s.view .clkCalReq 0 0))))
  | .optLnCntClr => s.did (execOptCntClr lane)
  | .optGlbEnvSave => s.did execEnvSave
  | .pbGo => s.did (execPbTransaction none)
  | .monCntClr => s.did execMonCntClr
  | .monChSwap => s.did (execMonSwap (Fin.ofNat 24 n))
  | .pwrCntClr => s.did execPwrCntClr
  | .pwrDeep => s.did execDeep
  | .thmCntClr => s.did execThmCntClr
  | .thmCritClr => s.did execCritClr
  | .thmRestore => s.did execRestore
  | .hltCntClr => s.did execHltCntClr
  | .hltBistGo => s.bistCmd
  | .mgtCntClr => s.did execMgtCntClr
  | .mgtInAbort => s.mbxAbort
  | .evfFlush => s.evfFlushNow
  | .secCmdGo => s.secGo (s.rd .secCmdOp) (s.rd .secCmdArg) (s.rd .secCmdFlags)
  | _ => s

/-- The command part of a register write: command bits in the order of the register, and the mailbox word (R17, R456). -/
def State.commandSlots (s : State) (r : Reg) (v : Nat) : State :=
  s.each r.slots (fun l t =>
    let w := v / 2 ^ l.lo % 2 ^ l.field.width
    match l.field.desc.access with
    | .sc =>
      if w ≠ 0 ∧ (l.field = .clkCalReq ∨ t.commandOpen l.field r.inst) then t.startCommand l.field r.inst w else t
    | .wo => t.mbxWord w
    | _ => t)

/-- A whole register is written: RW and LK fields, then status bits, then commands. -/
def State.writeReg (s : State) (r : Reg) (v : Nat) : State :=
  ((((s.putSlots r v).regSettle r).clearSlots r v).forceSlots r v).commandSlots r v

/-- A register that software can write in part. -/
def Reg.writable (r : Reg) : Bool := r.slots.any (fun l => l.field.desc.access == .rw || l.field.desc.access == .lk)

/-- A word of a register is written: a value of several words takes effect with its highest word; words not written keep
their present value (R19). -/
def State.writeAt (s : State) (a : Nat) (r : Reg) (w : Nat) : State :=
  if r.words = 1 then s.writeReg r w
  else if !r.writable then s
  else if r.word + 1 < r.words then { s with staged := putWord a w s.staged }
  else
    let low := a - 4 * r.word
    let now := s.regValue r
    let v := ((List.range r.word).map (fun k => (wordIn s.staged (low + 4 * k)).getD (wordAt now k) * 2 ^ (32 * k))).sum +
      w * 2 ^ (32 * r.word)
    ({ s with staged := s.staged.filter (fun e => decide (e.1 < low) || decide (a < e.1)) } : State).writeReg r v

/-- A word written through the fabric, and how the access ended (R15, R16, R334, R471). -/
def State.busWrite (s : State) (addr w : Nat) : BusEnd × State :=
  let a := addr - addr % 4
  if inCmis a then
    match s.windowSet a w with
    | some t => (.ok, t)
    | none => (.unmapped, s.busErr)
  else if inNvm a then (.ok, s.busErr)
  else match regAt a with
    | none => (.unmapped, s.busErr)
    | some r => if s.powered r.block r.inst then (.ok, s.writeAt a r w) else (.stopped, s.rgStopped)

/-! ## The rows of the fabric -/

/-- The fabric answers: MGMT runs (R370, R477). -/
def State.fabric (s : State) (g : State → State) : State := if s.on .pwrDomMgmt then g s else s

/-- REGISTER_WRITE (R17). -/
def execRegisterWrite (a w : Word) (s : State) : Out :=
  .next (s.fabric (fun s => (s.busWrite a.toNat w.toNat).2))

/-- HLT_SRC_CFG_WRITE: word 0 (WIN_US) or 1 (ACTION, THRESH) of a source. The pair is one value, so it takes effect with
word 1; every open window of the source closes then (R19, R411, R412, R506). -/
def execHltSrcCfgWrite (src : Fin 16) (word1 : Bool) (v : Word) (s : State) : Out :=
  .next (s.fabric (fun s => (s.busWrite (0x720100 + 8 * src + 4 * bit word1) v.toNat).2))

/-- NARROW_ACCESS: a byte or halfword access of the firmware's port (R16). -/
def execNarrowAccess (write : Bool) (s : State) : Out :=
  .next (s.fabric (fun s => if write then s.busErr else s.busErr.answerWord 0))

/-- An address that no register or window answers (R16, R505). -/
def unmappedAt (a : Nat) : Bool :=
  let a := a - a % 4
  if inCmis a then (windowPlace a).isNone else !inNvm a && (regAt a).isNone

/-- UNMAPPED_ACCESS; a mapped address is no such access (R16). -/
def execUnmappedAccess (a : Word) (write : Bool) (s : State) : Out :=
  .next (s.fabric (fun s =>
    if unmappedAt a.toNat then (if write then s.busErr else s.busErr.answerWord 0) else s))

/-- SNAPSHOT_READ: a read of a word; that of a lowest word snapshots the others (R19, R25). -/
def execSnapshotRead (a : Word) (s : State) : Out :=
  .next (s.fabric (fun s =>
    let r := s.busRead a.toNat
    r.2.answerWord r.1.1))

/-- A write to a register that a test picks; another address is no such write. -/
def State.writeWhere (s : State) (a w : Nat) (p : Reg → Bool) : State :=
  match regAt a with
  | some r => if p r then (s.busWrite a w).2 else s
  | none => s

/-- The register is an interrupt status register (R507). -/
def Reg.isStatus (r : Reg) : Bool := r.base == (if r.block == .img then 0x40 else 0xF0)

/-- INT_STATUS_CLEAR (R17, R27, R458). -/
def execIntStatusClear (a w : Word) (s : State) : Out :=
  .next (s.fabric (fun s => s.writeWhere a.toNat w.toNat Reg.isStatus))

/-- INT_FORCE_WRITE (R17, R27, R458). -/
def execIntForceWrite (a w : Word) (s : State) : Out :=
  .next (s.fabric (fun s => s.writeWhere a.toNat w.toNat (fun r => r.slots.any (fun l => l.field.desc.access == .w1s))))

/-- EXPERT_OVERRIDE_WRITE: a write to a register with preset-owned fields (R21). -/
def execExpertOverrideWrite (a w : Word) (s : State) : Out :=
  .next (s.fabric (fun s => s.writeWhere a.toNat w.toNat (fun r => r.slots.any (fun l => (presetOwner l.field).isSome))))

/-- RG_STOPPED_ACCESS: an access to a powered-down island; any other address is no such access (R334). -/
def execRgStoppedAccess (a : Word) (write : Bool) (s : State) : Out :=
  .next (s.fabric (fun s =>
    match regAt a.toNat with
    | some r =>
      if s.powered r.block r.inst then s else if write then s.rgStopped else s.rgStopped.answerWord 0
    | none => s))

end Sys2Proof.Machine
end

