-- ==== Sys2Proof/Machine/Management.lean ====
section
/-!
DEFINITION. The ways into the device: host bus, I3C, register window, SPI target, CMIS controls, CDB and the register
messages of the mailbox (R434 to R447, R457).
-/
namespace Sys2Proof.Machine

/-- Record the bytes or words a command answers. -/
def State.answers (s : State) (l : List Nat) : State := { s with answer := l }

/-! ## Host bus (R370, R436, R437) -/

/-- The address that the host bus answers: the dynamic one in I3C mode, else HB_ADDR (R436, R437). -/
def State.busAddr (s : State) : Nat := if s.on .mgtI3cMode then s.rd .hbDyn else s.rd .mgtHbAddr

/-- A transaction to a target address: another device's is not answered; while MGMT does not serve the bus the device's is
NACKed, and in Deep wakes it (R369, R370). -/
def State.hostBus (s : State) (target addr : Nat) (g : State → State) : State :=
  if target ≠ addr then s.answers []
  else if s.on .pwrDomMgmt then g s
  else (s.when (s.rd .pwrDevState == 5) (fun t => t.wakeDevice 3)).answers []

/-- A write transaction from an offset on: bytes past the end of the half are NACKed and discarded; the answer is how
many were acknowledged (R435, R436, R443, R477). -/
def State.hostWrite (s : State) (off : Nat) (data : List Nat) : State :=
  let l := data.take (if off < 128 then 128 - off else 256 - off)
  let page := s.rd .hbPage
  let bank := s.rd .hbBank
  if s.on .mgtFwDown || (128 ≤ off && !s.pageServed page) then s.answers [0]
  else
    let s := if off < 128 ∨ devicePage page then s.pageWrites bank page off l else s.mcHostWrite bank page off l
    s.answers [l.length]

/-- HOST_BUS_WRITE (R436). -/
def execHostBusWrite (target : BitVec 7) (off : BitVec 8) (data : List (BitVec 8)) (s : State) : Out :=
  .next (s.hostBus target.toNat s.busAddr (fun s => s.hostWrite off.toNat (data.map BitVec.toNat)))

/-- HOST_BUS_READ: bytes of the page selected, up to offset 0xFF (R436, log entry 21). -/
def execHostBusRead (target : BitVec 7) (off : BitVec 8) (count : BitVec 9) (s : State) : Out :=
  .next (s.hostBus target.toNat s.busAddr (fun s =>
    let r := s.pageRead (s.rd .hbBank) (s.rd .hbPage) off.toNat (min count.toNat (256 - off.toNat))
    r.2.answers r.1))

/-- The host bus switches to I3C SDR with a dynamic address (R437). -/
def State.i3cEnter (s : State) (dyn : Nat) : State := s.puts [(.mgtI3cMode, 1), (.hbDyn, dyn)]

/-- I3C_ENTDAA: an address is assigned to a device that holds none (R437, log entry 22). -/
def execI3cEntdaa (dyn : BitVec 7) (s : State) : Out :=
  .next (if s.on .pwrDomMgmt && !s.on .mgtI3cMode then s.i3cEnter dyn.toNat else s)

/-- I3C_SETDASA to the static address HB_ADDR (R437, log entry 22). -/
def execI3cSetdasa (target dyn : BitVec 7) (s : State) : Out :=
  .next (s.hostBus target.toNat (s.rd .mgtHbAddr) (fun s =>
    if s.on .mgtI3cMode then s.answers [] else s.i3cEnter dyn.toNat))

/-- A directed CCC to the device's dynamic address, in I3C mode only (R437, log entry 22). -/
def State.i3c (s : State) (target : BitVec 7) (g : State → State) : State :=
  s.hostBus target.toNat s.busAddr (fun s => if s.on .mgtI3cMode then g s else s.answers [])

/-- I3C_SETNEWDA (R437). -/
def execI3cSetnewda (target dyn : BitVec 7) (s : State) : Out := .next (s.i3c target (fun s => s.wr .hbDyn dyn.toNat))

/-- I3C_RSTDAA: back to I2C mode (R437). -/
def execI3cRstdaa (s : State) : Out :=
  .next (if s.on .pwrDomMgmt then s.puts [(.mgtI3cMode, 0), (.hbDyn, 0)] else s)

/-- The bytes of a number, highest first, as a CCC sends them. -/
def bytesHigh (k v : Nat) : List Nat := (List.range k).map (fun i => v / 2 ^ (8 * (k - 1 - i)) % 256)

/-- I3C_GETPID; the value is open (R437, log entry 22). -/
def execI3cGetpid (target : BitVec 7) (s : State) : Out :=
  .next (s.i3c target (fun s => s.answers (bytesHigh 6 (Config.i3cId 0).toNat)))

/-- I3C_GETBCR; the value is open (R437, log entry 22). -/
def execI3cGetbcr (target : BitVec 7) (s : State) : Out :=
  .next (s.i3c target (fun s => s.answers [(Config.i3cId 1).toNat % 256]))

/-- I3C_GETDCR; the value is open (R437, log entry 22). -/
def execI3cGetdcr (target : BitVec 7) (s : State) : Out :=
  .next (s.i3c target (fun s => s.answers [(Config.i3cId 2).toNat % 256]))

/-- I3C_GETSTATUS; the value is open at every read (R437, log entry 22). -/
def execI3cGetstatus (target : BitVec 7) (s : State) : Out :=
  .next (s.i3c target (fun s => s.free.2.answers (bytesHigh 2 s.free.1)))

/-- I3C_GETMWL (R437). -/
def execI3cGetmwl (target : BitVec 7) (s : State) : Out :=
  .next (s.i3c target (fun s => s.answers (bytesHigh 2 (s.rd .hbMwl))))

/-- I3C_SETMWL: at most 128 (R437, log entry 22). -/
def execI3cSetmwl (target : BitVec 7) (v : BitVec 16) (s : State) : Out :=
  .next (s.i3c target (fun s => s.wr .hbMwl (min v.toNat 128)))

/-- I3C_GETMRL (R437). -/
def execI3cGetmrl (target : BitVec 7) (s : State) : Out :=
  .next (s.i3c target (fun s => s.answers (bytesHigh 2 (s.rd .hbMrl))))

/-- I3C_SETMRL: at most 256 (R437, log entry 22). -/
def execI3cSetmrl (target : BitVec 7) (v : BitVec 16) (s : State) : Out :=
  .next (s.i3c target (fun s => s.wr .hbMrl (min v.toNat 256)))

/-- I3C_UNSUPPORTED_CCC: NACKed (R437). -/
def execI3cUnsupportedCcc (s : State) : Out := .next (s.answers [])

/-- MC_PAGE_HOST_WRITE: a host write to a module-controller page (R443). -/
def execMcPageHostWrite (bank : BitVec 1) (page : BitVec 8) (off : BitVec 7) (data : List (BitVec 8)) (s : State) : Out :=
  .next (if s.on .pwrDomMgmt && !s.on .mgtFwDown && s.pageServed page.toNat && !devicePage page.toNat then
    s.mcHostWrite bank.toNat page.toNat (128 + off.toNat) ((data.map BitVec.toNat).take (128 - off.toNat))
  else s)

/-! ## The register window (R438, R440) -/

/-- Address of byte `k` of the window page. -/
def winByte (k : Nat) : Nat := pageBase 0 winPage + k

/-- WIN_ADDR and WIN_DATA. -/
def State.winAddr (s : State) : Nat := s.pages.word (winByte 0)

/-- A window access ends: WIN_STATUS, WIN_CMD reads 0, WIN_ADDR advances under AUTO_INC (R438). -/
def State.winDone (s : State) (status : Nat) : State :=
  let inc := (s.pages.get (winByte 8)).testBit 7
  let next := (s.winAddr + 4) % 2 ^ 32
  let m := (s.pages.set (winByte 8) 0).set (winByte 9) status
  { s with pages := if inc then m.setMany (winByte 0) (bytesOf next) else m }

/-- WIN_STATUS of an access that reached the fabric: BUS_ERR where the access set it (R16, R334, R438). -/
def winStatus (e : BusEnd) : Nat := if e = .ok then 0 else 1

/-- WINDOW_READ: the access of a WIN_CMD that named a read (R438, R505). -/
def execWindowRead (s : State) : Out :=
  .next (if s.fwUp ∧ s.winCode = 1 then
    if deniedAt s.winAddr then ({ s with pages := s.pages.setMany (winByte 4) (bytesOf 0) } : State).winDone 2
    else
      let r := s.busRead s.winAddr
      ({ r.2 with pages := r.2.pages.setMany (winByte 4) (bytesOf r.1.1) } : State).winDone (winStatus r.1.2)
  else s)

/-- WINDOW_WRITE: the access of a WIN_CMD that named a write (R438, R505). -/
def execWindowWrite (s : State) : Out :=
  .next (if s.fwUp ∧ s.winCode = 2 then
    if deniedAt s.winAddr then s.winDone 2
    else
      let r := s.busWrite s.winAddr (s.pages.word (winByte 4))
      r.2.winDone (winStatus r.1)
  else s)

/-! ## SPI target (R369, R370, R439) -/

/-- A frame on the SPI target; in Deep the select wakes the device (R369, R370). -/
def State.spi (s : State) (g : State → State) : State :=
  if s.on .pwrDomMgmt then g s
  else (s.when (s.rd .pwrDevState == 5) (fun t => t.wakeDevice 3)).answers []

/-- Addresses of a burst of `k` words: those to the mailbox data registers and the event FIFO stay (R439). -/
def burst (a k : Nat) : List Nat :=
  let a := a - a % 4
  if a = 0x800064 ∨ a = 0x80006C ∨ a = 0x808000 then List.replicate k a
  else (List.range k).map (fun i => (a + 4 * i) % 2 ^ 32)

/-- Read words one after the other. -/
def State.readMany (s : State) (l : List Nat) : List Nat × State :=
  l.foldl (fun acc a =>
    let r := acc.2.busRead a
    (acc.1 ++ [r.1.1], r.2)) ([], s)

/-- SPI_WRITE: the data bytes of a frame of 1 to 512 words; a frame that ends inside a word discards that word (R439). -/
def execSpiWrite (a : Word) (data : List (BitVec 8)) (s : State) : Out :=
  .next (s.spi (fun s =>
    let l := (wholeWords (data.map BitVec.toNat)).take 512
    s.each ((burst a.toNat l.length).zip l) (fun e t => (t.busWrite e.1 e.2).2)))

/-- SPI_READ: 1 to 512 words (R439). -/
def execSpiRead (a : Word) (count : BitVec 10) (s : State) : Out :=
  .next (s.spi (fun s =>
    let r := s.readMany (burst a.toNat (min count.toNat 512))
    r.2.answers r.1))

/-- SPI_UNKNOWN_CMD: the frame is ignored and SPI_ERR is set (R439). -/
def execSpiUnknownCmd (s : State) : Out :=
  .next (s.spi (fun s => (s.raise .mgtIntStatus Irq.mgtSpiErr).answers []))

/-! ## CMIS controls (R434, R444, R478) -/

/-- CMIS_CONTROL_ACT: the firmware acts on a control field (R434, R442, R444). -/
def execCmisControlAct (c : CmisControl) (s : State) : Out :=
  .next (if !s.fwUp then s
  else match c with
    | .lowPwrAllowHw on => s.putField .pwrLpmodeEn 0 0 (bit on)
    | .linePattern n sel =>
      s.access .ltx n (fun s => ((s.putField .ltxPatSel n 0 sel.toNat).configSettle .transmit n [(.ltxPatSel,
        0)]).did (execLtxCommit n))
    | .hostPattern h tx chk =>
      s.access .hif h (fun s => (s.putField .hifTxPat h 0 tx.toNat).putField .hifRxChk h 0 chk.toNat))

/-- CMIS_DPDEINIT: ENABLE and TX_EN of the lane follow its inverse; before step 11 of start-up the bit alone is stored
(R444, R478). -/
def execCmisDpdeinit (n : Lane) (v : Bool) (s : State) : Out :=
  .next (if !s.fwUp then s
  else
    let path := s.dataPath n
    let s := s.setMask .cmisDpDeinit n v
    let s := s.when (s.dataPath n != path) (fun t => t.cmis .dpChanged n)
    if s.rd .glbSeqStep < 11 then s
    else if v then (s.did (execTxDisable n .txEnCleared)).did (execLrxDisable n)
    else (s.did (execLrxEnable n)).did (execTxEnableRequest n))

/-- CMIS_APPLY_DPINIT: the staged set goes to the presets, TX_EN and the polarities, through COMMIT (R444). -/
def execCmisApplyDpinit (n : Lane) (c : ControlSet) (s : State) : Out :=
  .next (if !s.fwUp then s
  else s.access .lrx n (fun s =>
    let s := ((s.presetWrite .receive n c.receive.toNat).presetWrite .equaliser n c.equaliser.toNat).presetWrite .transmit n
      c.transmit.toNat
    let s := (s.wr .ltxPolInv (bit c.linePol) n).configSettle .transmit n [(.ltxPolInv, 0)]
    let s := s.each (s.hostsOf n) (fun h t => t.access .hif h (fun t =>
      (((t.presetWrite .host h c.host.toNat).puts [(.hifTxPolInv, bit c.hostTxPol), (.hifRxPolInv,
        bit c.hostRxPol)] h).configSettle
        .host h [(.hifTxPolInv, 0), (.hifRxPolInv, 0)]).did (execHifCommit (Fin.ofNat 16 h))))
    let s := (((s.did (execLrxCommit n)).did (execLeqCommit n)).did (execLtxCommit n))
    s.enablePut (bit c.txEn) (execTxEnableRequest n) (execTxDisable n .txEnCleared)))

/-- CMIS_LOWPWR_REQUEST_SW: LowPwrRequestSW drives STANDBY_SW (R444). -/
def execCmisLowpwrRequestSw (v : Bool) (s : State) : Out :=
  .next (if !s.fwUp then s else s.putField .pwrStandbySw 0 0 (bit v))

/-! ## CDB (R60, R446, R447, R477, R481) -/

/-- A CDB command is served: one at a time, before step 9 only those of R60, some only with the password (R446, R481, log
entry 24). -/
def State.cdb (s : State) (rom password : Bool) (g : State → State) : State :=
  if !s.on .pwrDomMgmt || s.on .mgtFwDown || s.on .mgtFwHalt || s.rd .cdbStatus == 0x83 then s
  else if s.on .mgtRomFw && !rom then s.wr .cdbStatus 0x81
  else if password && s.on .cdbPwReq && !s.on .cdbPwOk then s.cdbEnd 0x46
  else g s

/-- A command that waits for an image operation: refused with ERR in the first reply byte, or in progress until it ends
(R79, R446). -/
def State.cdbImage (s : State) (op slot lead : Nat) : State :=
  let free := !s.imgBusy
  let t := s.imgGo op slot lead
  if free ∧ t.imgBusy then t.puts [(.cdbImg, 1), (.cdbStatus, 0x83)]
  else (t.wr .cdbReply0 (t.rd .imgErr)).cdbEnd 0x40

/-- A command that waits for the flash (R447). -/
def State.cdbFlashStart (s : State) : State := s.puts [(.cdbFlash, 1), (.cdbStatus, 0x83)]

/-- CDB_QUERY_STATUS: the status of the last command (R446). -/
def execCdbQueryStatus (s : State) : Out :=
  .next (if s.on .pwrDomMgmt && !s.on .mgtFwDown && !s.on .mgtFwHalt then s.answers [s.rd .cdbStatus] else s)

/-- CDB_ENTER_PASSWORD: compared with the verifier of the NVM (R446, R471). -/
def execCdbEnterPassword (pw : Word) (s : State) : Out :=
  .next (s.cdb true false (fun s =>
    if s.on .secSecretIn ∧ s.nvmGet .secPwSet = 1 ∧ s.nvmGet .secPassword = s.passwordMac pw.toNat then
      (s.wr .cdbPwOk 1).cdbEnd 0x01
    else s.cdbEnd 0x46))

/-- CDB_CHANGE_PASSWORD: the password of the NVM is replaced; not while the SECRET region is closed (R446, R468, R472). -/
def execCdbChangePassword (pw : Word) (s : State) : Out :=
  .next (s.cdb false false (fun s =>
    if s.on .secSecretClosed then s.cdbEnd 0x40
    else (s.puts [(.cdbNewPw, pw.toNat), (.cdbStatus, 0x83)]).setMask .secNvmBusy 1 true))

/-- CDB_ABORT: ends a flash operation of 0101h to 0104h; ignored for others (R446). -/
def execCdbAbort (s : State) : Out :=
  .next (if s.on .pwrDomMgmt && !s.on .mgtFwDown && s.on .cdbFlash then (s.wr .cdbFlash 0).cdbEnd 0x40 else s)

/-- Two images, LPL blocks up to 116 bytes, EPL blocks up to 2,048 bytes (R446). -/
def cdbFeatures : List Nat := [2, 116, 2048]

/-- CDB_MODULE_FEATURES (R446). -/
def execCdbModuleFeatures (s : State) : Out := .next (s.cdb false false (fun s => (s.answers cdbFeatures).cdbEnd 0x01))

/-- CDB_FW_MGMT_FEATURES (R446). -/
def execCdbFwMgmtFeatures (s : State) : Out := .next (s.cdb false false (fun s => (s.answers cdbFeatures).cdbEnd 0x01))

/-- IMG_SEQ, BUILD_ID, running and committed flag of a slot, from the header it holds; 0 of one without MAGIC (R61, R446). -/
def State.fwInfo (s : State) (k : Nat) (header : List (BitVec 8)) : List Nat :=
  let f : ImageFile := ⟨header, ⟨[], [], [], []⟩⟩
  let ok := f.at 0 4 == imageMagic
  [if ok then f.at 0x10 4 else 0, if ok then f.at 0x14 8 else 0, bit (s.running.isSome && s.rd .imgActiveSlot == k),
   bit (ok && s.preferredSlot == k)]

/-- CDB_GET_FW_INFO: the headers as read from slots A and B (R446). -/
def execCdbGetFwInfo (a b : List (BitVec 8)) (s : State) : Out :=
  .next (s.cdb true false (fun s => (s.answers (s.fwInfo 0 a ++ s.fwInfo 1 b)).cdbEnd 0x01))

/-- Bytes of a slot (R58, R447). -/
def slotBytes : Nat := 8323072

/-- CDB_START_FW_DOWNLOAD: the slot that does not hold the active image is named and erased (R447, R461). -/
def execCdbStartFwDownload (size : Word) (s : State) : Out :=
  .next (s.cdb true true (fun s =>
    if s.rd .secLcState = 4 then s.cdbEnd 0x40
    else if slotBytes < size.toNat then s.cdbEnd 0x42
    else
      let slot := 1 - s.rd .imgActiveSlot
      ((s.puts [(.cdbDlOpen, 1), (.cdbDlSlot, slot)]).nvmSet .imgSlotBad 1 0 slot).cdbFlashStart))

/-- CDB_ABORT_FW_DOWNLOAD: the download ends, the slot stays unusable (R446). -/
def execCdbAbortFwDownload (s : State) : Out :=
  .next (s.cdb true true (fun s => if s.on .cdbDlOpen then (s.wr .cdbDlOpen 0).cdbEnd 0x01 else s.cdbEnd 0x40))

/-- A block of the download is written at its offset; outside the slot it is refused (R446, R447). -/
def State.cdbBlock (s : State) (off len most : Nat) : State :=
  if !s.on .cdbDlOpen then s.cdbEnd 0x40
  else if len = 0 ∨ most < len ∨ slotBytes < off + len then s.cdbEnd 0x42
  else s.cdbFlashStart

/-- CDB_WRITE_FW_BLOCK_LPL (R446, R447). -/
def execCdbWriteFwBlockLpl (off : Word) (len : BitVec 8) (s : State) : Out :=
  .next (s.cdb true true (fun s => s.cdbBlock off.toNat len.toNat 116))

/-- CDB_WRITE_FW_BLOCK_EPL (R446, R447). -/
def execCdbWriteFwBlockEpl (off : Word) (len : BitVec 12) (s : State) : Out :=
  .next (s.cdb true true (fun s => s.cdbBlock off.toNat len.toNat 2048))

/-- CDB_COMPLETE_FW_DOWNLOAD: VALIDATE of the target slot (R71, R446). -/
def execCdbCompleteFwDownload (s : State) : Out :=
  .next (s.cdb true true (fun s =>
    if s.on .cdbDlOpen then
      (((s.wr .cdbDlOpen 0).nvmSet .imgSlotBad 0 0 (s.rd .cdbDlSlot)).setMask .imgSlotNew (s.rd .cdbDlSlot) true).cdbImage 1 (s.rd .cdbDlSlot) 0
    else s.cdbEnd 0x40))

/-- CDB_RUN_FW_IMAGE: COMMIT_FULL (R72, R446). -/
def execCdbRunFwImage (s : State) : Out :=
  .next (s.cdb true true (fun s => s.cdbImage 2 (s.rd .imgCandidateSlot) 0))

/-- CDB_COMMIT_FW_IMAGE: MAKE_BOOT of the running slot (R80, R446). -/
def execCdbCommitFwImage (s : State) : Out :=
  .next (s.cdb true true (fun s => s.cdbImage 5 (s.rd .imgActiveSlot) 0))

/-- CDB_TX_TAP_REQUEST: a TX_TAP_REQ to the partner of a lane that carries messages; the reply or NEG_TMO_US ends it
(R203, R204, R446). -/
def execCdbTxTapRequest (n : Lane) (taps : List Int) (s : State) : Out :=
  .next (s.cdb false false (fun s =>
    if taps.length = 9 ∧ 3 ≤ s.rd .lrxState n ∧ s.rd .lrxState n ≤ 5 then
      let body := bytesLe (taps.flatMap (fun h => (bytesHigh 2 (ofSigned 16 h)).reverse))
      (s.svcSend n 6 18 body).puts [(.cdbTapRun, 1), (.cdbTapLane, n), (.cdbStatus, 0x83)]
    else s.cdbEnd (if taps.length = 9 then 0x40 else 0x42)))

/-- CDB_TX_TAP_TIMEOUT (R446). -/
def execCdbTxTapTimeout (s : State) : Out := .next (if s.on .cdbTapRun then s.cdbEnd 0x40 else s)

/-- CDB_PARTIAL_COMMIT (R73, R446). -/
def execCdbPartialCommit (lead : Lane) (s : State) : Out :=
  .next (s.cdb false true (fun s => s.cdbImage 3 (s.rd .imgCandidateSlot) lead))

/-- CDB_UNSUPPORTED (R446). -/
def execCdbUnsupported (s : State) : Out := .next (s.cdb false false (fun s => s.cdbEnd 0x41))

/-! ## Register messages of the mailbox (R457) -/

/-- The words from an address on, up to one that the mailbox may not reach: those read, and whether all were (R457). -/
def State.msgRead (s : State) (a : Nat) : Nat → (List Nat × Bool) × State
  | 0 => (([], true), s)
  | k + 1 =>
    if deniedAt a then (([], false), s)
    else
      let r := s.busRead a
      if r.1.2 = .unmapped then (([], false), r.2)
      else
        let l := r.2.msgRead ((a + 4) % 2 ^ 32) k
        ((r.1.1 :: l.1.1, l.1.2), l.2)

/-- The words written from an address on, up to one that the mailbox may not reach: whether all were (R457). -/
def State.msgWrite (s : State) (a : Nat) : List Nat → Bool × State
  | [] => (true, s)
  | w :: l =>
    if deniedAt a then (false, s)
    else
      let r := s.busWrite a w
      if r.1 = .unmapped then (false, r.2) else r.2.msgWrite ((a + 4) % 2 ^ 32) l

/-- MSG_REG_READ (R457, log entry 15). -/
def execMsgRegRead (s : State) : Out :=
  .next (s.mbxTake (· == 2) (fun msg s =>
    let k := msg.getD 3 0
    if msg.length ≠ 4 ∨ k < 1 ∨ 510 < k then s.mbxReply 4 []
    else if s.replyLimit msg < 8 + 4 * k then s.mbxReply 1 []
    else
      let r := s.msgRead (msg.getD 2 0) k
      r.2.mbxReply (if r.1.2 then 0 else 6) r.1.1))

/-- MSG_REG_WRITE (R457, log entry 15). -/
def execMsgRegWrite (s : State) : Out :=
  .next (s.mbxTake (· == 3) (fun msg s =>
    let k := msg.getD 3 0
    if k < 1 ∨ 508 < k ∨ msg.length ≠ 4 + k then s.mbxReply 4 []
    else
      let r := s.msgWrite (msg.getD 2 0) (msg.drop 4)
      r.2.mbxReply (if r.1 then 0 else 6) []))

end Sys2Proof.Machine
end

