-- ==== Sys2Proof/Machine/Supply.lean ====
section
/-!
DEFINITION. The supply-warning interval: what each block holds while it lasts and releases when every rail has recovered
(R98, R142, R155, R188, R282, R316, R330, R360, R381, R390).
-/
namespace Sys2Proof.Machine

/-- A commit that waits in a line lane is held (R155, R188). -/
def State.commitsHeld (s : State) (n : Nat) : State :=
  (s.when (s.on .leqCommit n) (fun t => t.raise .leqIntStatus Irq.leqCommitHeld n)).when (s.on .ltxCommit n)
    (fun t => t.raise .ltxIntStatus Irq.ltxCommitHeld n)

/-- A slice swap that waits for a boundary is deferred (R98). -/
def State.swapDefer (s : State) (n : Nat) : State := s.when (s.on .lrxSwapReady n) (fun t => t.wr .lrxSwapDeferred 1 n)

/-- The set point as record 0x03 holds it in [25:16]: a value above 1,023 mV does not fit, and the spec states none (R453, log
entry 2). -/
def State.setPointBits (s : State) (rail : Nat) : Nat × State :=
  if s.railMv rail < 1024 then (s.railMv rail, s) else (s.free.1 % 1024, s.free.2)

/-- The interval begins: record, count, fault source, and what every block holds (R98, R142, R155, R188, R316, R381,
R390, R445). -/
def State.warnBegin (s : State) (rail level : Nat) : State :=
  let s := s.puts [(.pwrWarn, 1), (.pwrWarnAt, s.now), (.pwrWarnSeen, 2 ^ rail), (.pwrWarnLow, level)]
  let s := (s.bump .pwrWarnCnt).raise .pwrIntStatus Irq.pwrWarn
  let v := s.setPointBits rail
  let s := v.2.emit 0x03 8 [rail + v.1 * 2 ^ 16]
  let s := s.when (s.on .pwrDomTime) (fun t => (t.wr .timSuspect 1).raise .timIntStatus Irq.timSuspect)
  let s := s.each (List.range 8) (fun n t =>
    let t := (((t.commitsHeld n).swapDefer n).leqFollow n)
    t.each [false, true] (fun e u => u.when (u.rd (phaseField e) n == 1) (fun w => w.wr (phaseField e) (w.restPhase n e) n)))
  let s := s.when (s.rd .pwrDevPhase == 1) (fun t => t.wr .pwrDevPhase 0)
  (s.cmis .supplyWarn).faultEvent 15 0

/-- The VDD_IO monitor keeps its reading, which CMIS shows as the supply voltage (R442, log entry 21). -/
def State.vddIoSeen (s : State) (rail mv : Nat) : State := if rail = 4 then s.wr .pwrVddIoMv mv else s

/-- SUPPLY_WARNING_START: a monitored rail stands at `mv`, below 94 % of its set point; the first one opens the interval
(R389, R390). -/
def execSupplyWarningStart (rail : Fin 7) (mv : BitVec 12) (s : State) : Out :=
  .next (if !s.monitored rail ∨ 94 * s.monitorMv rail ≤ 100 * mv.toNat then s
  else
    let s := (s.setMask .pwrWarnRails rail true).vddIoSeen rail mv.toNat
    if s.warning then (s.setMask .pwrWarnSeen rail true).wr .pwrWarnLow (min (s.rd .pwrWarnLow) (steps5 mv.toNat))
    else s.warnBegin rail (steps5 mv.toNat))

/-- What a line lane held goes on: a deferred swap at its next boundary, DAC results, and commits at the next boundary
or, where none runs, now (R45, R98, R155, R171, R188). -/
def State.laneRelease (s : State) (n : Nat) : State :=
  let s := s.puts [(.lrxSwapDeferred, 0), (.ltxSwapDeferred, 0)] n
  let s := s.when (s.on .ltxCalWait n) (fun t => t.dacCalRelease n)
  let s := s.when (!s.rxGrid n) (fun t => t.rxBoundary n)
  (s.when (s.rd .ltxState n == 0) (fun t => t.txBoundary n)).leqFollow n

/-- What a PLL held goes on: a requested calibration, or the band a calibration found (R330). -/
def State.pllRelease (s : State) (p : Nat) : State :=
  let s := s.when (s.maskBit .clkCalReq p) (fun t => ((t.setMask .clkCalReq p false).wr .pllCalPend 0 p).pllRequest p)
  if s.on .pllBandHeld p then
    let band := s.rd .pllBandHeld p - 64
    if s.refOut then s.puts [(.pllBand, band), (.pllBandHeld, 0)] p else s.pllCalLocked p band
  else s

/-- The interval ends: held actions go on (R98, R155, R188, R282, R330, R360, R390, R431). -/
def State.warnEnd (s : State) : State :=
  let us := min (usBetween (s.rd .pwrWarnAt) s.now) (2 ^ 31 - 1)
  let s := (s.wr .pwrWarn 0).raise .pwrIntStatus Irq.pwrWarnEnd
  let s := s.emit 0x04 8 [s.rd .pwrWarnSeen, us, s.rd .pwrWarnLow]
  let s := s.each (List.range 8) (fun n t => t.laneRelease n)
  let s := s.each (List.range 16) (fun h t => t.when (t.on .hifCommit h) (fun u => u.hifApply h))
  let s := s.each (List.range 5) (fun p t => t.pllRelease p)
  let s := s.when (s.on .pwrVoutHeld) (fun t => (t.wr .pwrVoutHeld 0).writeVout (t.rd .pwrVoutHeld))
  s.dvfsKick.dacAdmit.adcAdmit 8

/-- SUPPLY_WARNING_END: a rail has risen to `mv`, above its warning level plus 1 % of the set point, from its lowest
level; when every rail has recovered, the interval ends (R389, R390). -/
def execSupplyWarningEnd (rail : Fin 7) (lowest mv : BitVec 12) (s : State) : Out :=
  .next (if s.maskBit .pwrWarnRails rail ∧ 95 * s.monitorMv rail < 100 * mv.toNat then
    let s := ((s.setMask .pwrWarnRails rail false).vddIoSeen rail mv.toNat).wr .pwrWarnLow (min (s.rd .pwrWarnLow)
      (steps5 lowest.toNat))
    if s.rd .pwrWarnRails = 0 then s.warnEnd else s
  else s)

end Sys2Proof.Machine
end

