-- ==== Sys2Proof/Machine/Dispatch.lean ====
section
/-!
DEFINITION. Which meaning each command has: one arm per constructor (R17 to R480, by the rule each row names).
-/
namespace Sys2Proof.Machine

def exec (i : Instr) (s : State) : Host.Outcome State Fault Refusal :=
  match i with
  | .registerWrite a w => Sys2Proof.Machine.execRegisterWrite a w s
  | .narrowAccess write => Sys2Proof.Machine.execNarrowAccess write s
  | .unmappedAccess a write => Sys2Proof.Machine.execUnmappedAccess a write s
  | .snapshotRead a => Sys2Proof.Machine.execSnapshotRead a s
  | .intStatusClear a w => Sys2Proof.Machine.execIntStatusClear a w s
  | .intForceWrite a w => Sys2Proof.Machine.execIntForceWrite a w s
  | .presetWrite b n v => Sys2Proof.Machine.execPresetWrite b n v s
  | .expertOverrideWrite a w => Sys2Proof.Machine.execExpertOverrideWrite a w s
  | .straitOverflow id lanes => Sys2Proof.Machine.execStraitOverflow id lanes s
  | .straitErrClr => Sys2Proof.Machine.execStraitErrClr s
  | .rgStoppedAccess a write => Sys2Proof.Machine.execRgStoppedAccess a write s
  | .codewordBoundaryApply n tx => Sys2Proof.Machine.execCodewordBoundaryApply n tx s
  | .frameBoundaryApply n => Sys2Proof.Machine.execFrameBoundaryApply n s
  | .txFrameBoundary n a b => Sys2Proof.Machine.execTxFrameBoundary n a b s
  | .vddAonPowerGood => Sys2Proof.Machine.execVddAonPowerGood s
  | .nvmLoadDone l => Sys2Proof.Machine.execNvmLoadDone l s
  | .supplyReady voutLinear => Sys2Proof.Machine.execSupplyReady voutLinear s
  | .supplyReadyTimeout => Sys2Proof.Machine.execSupplyReadyTimeout s
  | .wakeRetry => Sys2Proof.Machine.execWakeRetry s
  | .imgValidationDone f => Sys2Proof.Machine.execImgValidationDone f s
  | .bootCommitDone badLrx badLtx => Sys2Proof.Machine.execBootCommitDone badLrx badLtx s
  | .bootBistDone => Sys2Proof.Machine.execBootBistDone s
  | .imgValidate slot => Sys2Proof.Machine.execImgValidate slot s
  | .imgCommitFull slot => Sys2Proof.Machine.execImgCommitFull slot s
  | .imgCommitPartial slot lead => Sys2Proof.Machine.execImgCommitPartial slot lead s
  | .imgAbort => Sys2Proof.Machine.execImgAbort s
  | .imgMakeBoot slot => Sys2Proof.Machine.execImgMakeBoot slot s
  | .imgOpInvalid op slot lead => Sys2Proof.Machine.execImgOpInvalid op slot lead s
  | .pcIsolate => Sys2Proof.Machine.execPcIsolate s
  | .pcPause n egress => Sys2Proof.Machine.execPcPause n egress s
  | .pcTableWrite => Sys2Proof.Machine.execPcTableWrite s
  | .pcResume n egress => Sys2Proof.Machine.execPcResume n egress s
  | .imgPcClr => Sys2Proof.Machine.execImgPcClr s
  | .lrxEnable n => Sys2Proof.Machine.execLrxEnable n s
  | .lrxDisable n => Sys2Proof.Machine.execLrxDisable n s
  | .lrxRestart n => Sys2Proof.Machine.execLrxRestart n s
  | .lrxCommit n => Sys2Proof.Machine.execLrxCommit n s
  | .lrxCntClr n => Sys2Proof.Machine.execLrxCntClr n s
  | .lrxCalDone n est ofs linRx linTx => Sys2Proof.Machine.execLrxCalDone n est ofs linRx linTx s
  | .lrxCalTimeout n => Sys2Proof.Machine.execLrxCalTimeout n s
  | .sdAssert n => Sys2Proof.Machine.execSdAssert n s
  | .sdDeassert n => Sys2Proof.Machine.execSdDeassert n s
  | .agcWindow n level ofsStep => Sys2Proof.Machine.execAgcWindow n level ofsStep s
  | .agcTrimStep n avgErr => Sys2Proof.Machine.execAgcTrimStep n avgErr s
  | .cdrLockInterval n errs => Sys2Proof.Machine.execCdrLockInterval n errs s
  | .acqTimeout n phase => Sys2Proof.Machine.execAcqTimeout n phase s
  | .trainTimeout n => Sys2Proof.Machine.execTrainTimeout n s
  | .lrxFaultAutoRestart n => Sys2Proof.Machine.execLrxFaultAutoRestart n s
  | .adcOverrange n => Sys2Proof.Machine.execAdcOverrange n s
  | .adcShadowDone n offset gain skew => Sys2Proof.Machine.execAdcShadowDone n offset gain skew s
  | .swapDeferExpiry n tx => Sys2Proof.Machine.execSwapDeferExpiry n tx s
  | .wakePatternDetect n => Sys2Proof.Machine.execWakePatternDetect n s
  | .lockedToService n => Sys2Proof.Machine.execLockedToService n s
  | .serviceExit n => Sys2Proof.Machine.execServiceExit n s
  | .rxSleepWake n => Sys2Proof.Machine.execRxSleepWake n s
  | .rxResumeDone n ok recOk => Sys2Proof.Machine.execRxResumeDone n ok recOk s
  | .leqCommit n => Sys2Proof.Machine.execLeqCommit n s
  | .coefSnap n => Sys2Proof.Machine.execCoefSnap n s
  | .leqCntClr n => Sys2Proof.Machine.execLeqCntClr n s
  | .histStart n => Sys2Proof.Machine.execHistStart n s
  | .histDone n bins => Sys2Proof.Machine.execHistDone n bins s
  | .leqAdaptUpdate n accs accD => Sys2Proof.Machine.execLeqAdaptUpdate n accs accD s
  | .fomWindowEnd n mse levels => Sys2Proof.Machine.execFomWindowEnd n mse levels s
  | .dfeBurst n => Sys2Proof.Machine.execDfeBurst n s
  | .txEnableRequest n => Sys2Proof.Machine.execTxEnableRequest n s
  | .txEnableGo n => Sys2Proof.Machine.execTxEnableGo n s
  | .txenTimeout n => Sys2Proof.Machine.execTxenTimeout n s
  | .drvSettleExpiry n drvFltHigh => Sys2Proof.Machine.execDrvSettleExpiry n drvFltHigh s
  | .biasTimeout n => Sys2Proof.Machine.execBiasTimeout n s
  | .txActivate n => Sys2Proof.Machine.execTxActivate n s
  | .txDisable n trigger => Sys2Proof.Machine.execTxDisable n trigger s
  | .txDisableMute n => Sys2Proof.Machine.execTxDisableMute n s
  | .drvHoldExpiry n => Sys2Proof.Machine.execDrvHoldExpiry n s
  | .ltxRestart n => Sys2Proof.Machine.execLtxRestart n s
  | .ltxCommit n => Sys2Proof.Machine.execLtxCommit n s
  | .ltxCntClr n => Sys2Proof.Machine.execLtxCntClr n s
  | .drvFault n => Sys2Proof.Machine.execDrvFault n s
  | .txFaultDacOff n => Sys2Proof.Machine.execTxFaultDacOff n s
  | .txFaultAutoRestart n => Sys2Proof.Machine.execTxFaultAutoRestart n s
  | .dacCalDone n trims intlv => Sys2Proof.Machine.execDacCalDone n trims intlv s
  | .dacCellTrimDone n trim => Sys2Proof.Machine.execDacCellTrimDone n trim s
  | .dacClip n => Sys2Proof.Machine.execDacClip n s
  | .maskAverageEnd n blocks => Sys2Proof.Machine.execMaskAverageEnd n blocks s
  | .wakeSend n => Sys2Proof.Machine.execWakeSend n s
  | .wakePatternEnd n => Sys2Proof.Machine.execWakePatternEnd n s
  | .txSleepWake n drvFltHigh recOk => Sys2Proof.Machine.execTxSleepWake n drvFltHigh recOk s
  | .markerCandidate n pos bits => Sys2Proof.Machine.execMarkerCandidate n pos bits s
  | .frameMarkerCheck n shadow bits ago => Sys2Proof.Machine.execFrameMarkerCheck n shadow bits ago s
  | .serviceFrameReceived n bits => Sys2Proof.Machine.execServiceFrameReceived n bits s
  | .msgAckRx n ack => Sys2Proof.Machine.execMsgAckRx n ack s
  | .msgAbilityRx n seq page => Sys2Proof.Machine.execMsgAbilityRx n seq page s
  | .msgConfirmRx n seq result => Sys2Proof.Machine.execMsgConfirmRx n seq result s
  | .msgRenegRx n seq reason => Sys2Proof.Machine.execMsgRenegRx n seq reason s
  | .msgProfileChangeRx n seq prof forced txn => Sys2Proof.Machine.execMsgProfileChangeRx n seq prof forced txn s
  | .msgProfileReplyRx n seq refuse status txn => Sys2Proof.Machine.execMsgProfileReplyRx n seq refuse status txn s
  | .msgTxTapReqRx n seq taps => Sys2Proof.Machine.execMsgTxTapReqRx n seq taps s
  | .msgTxTapReplyRx n seq applied => Sys2Proof.Machine.execMsgTxTapReplyRx n seq applied s
  | .msgUnknownRx n seq => Sys2Proof.Machine.execMsgUnknownRx n seq s
  | .sideChannelFrameRx n frame => Sys2Proof.Machine.execSideChannelFrameRx n frame s
  | .negTimeout n => Sys2Proof.Machine.execNegTimeout n s
  | .helloTimeout n => Sys2Proof.Machine.execHelloTimeout n s
  | .reneg n => Sys2Proof.Machine.execReneg n s
  | .lfrCntClr n => Sys2Proof.Machine.execLfrCntClr n s
  | .profileChange n => Sys2Proof.Machine.execProfileChange n s
  | .profileTimeout n => Sys2Proof.Machine.execProfileTimeout n s
  | .profileSwitch n => Sys2Proof.Machine.execProfileSwitch n s
  | .compatFormatSwitch n => Sys2Proof.Machine.execCompatFormatSwitch n s
  | .codewordEnqueue n index samples => Sys2Proof.Machine.execCodewordEnqueue n index samples s
  | .engineRequest e phase => Sys2Proof.Machine.execEngineRequest e phase s
  | .queueGrant n phase => Sys2Proof.Machine.execQueueGrant n phase s
  | .codewordExpiry n phase => Sys2Proof.Machine.execCodewordExpiry n phase s
  | .stealTransferDone e => Sys2Proof.Machine.execStealTransferDone e s
  | .engineLoadDone e => Sys2Proof.Machine.execEngineLoadDone e s
  | .engineIterationDone e => Sys2Proof.Machine.execEngineIterationDone e s
  | .engineStopPoint e phase => Sys2Proof.Machine.execEngineStopPoint e phase s
  | .emitPortGrant n => Sys2Proof.Machine.execEmitPortGrant n s
  | .emitDone n => Sys2Proof.Machine.execEmitDone n s
  | .releaseBufferWrite n => Sys2Proof.Machine.execReleaseBufferWrite n s
  | .codewordRelease n ui am => Sys2Proof.Machine.execCodewordRelease n ui am s
  | .engineDeadlineFail e phase => Sys2Proof.Machine.execEngineDeadlineFail e phase s
  | .microcodeEccError e double => Sys2Proof.Machine.execMicrocodeEccError e double s
  | .bgTaskDue e refresh => Sys2Proof.Machine.execBgTaskDue e refresh s
  | .engineRefreshDone e => Sys2Proof.Machine.execEngineRefreshDone e s
  | .histGatherDone e => Sys2Proof.Machine.execHistGatherDone e s
  | .healthWindowTick => Sys2Proof.Machine.execHealthWindowTick s
  | .arcCntClr => Sys2Proof.Machine.execArcCntClr s
  | .arcClCntClr n => Sys2Proof.Machine.execArcClCntClr n s
  | .hifEnable h => Sys2Proof.Machine.execHifEnable h s
  | .hifDisable h => Sys2Proof.Machine.execHifDisable h s
  | .hifRetrain h => Sys2Proof.Machine.execHifRetrain h s
  | .hifCommit h => Sys2Proof.Machine.execHifCommit h s
  | .hifSlip h => Sys2Proof.Machine.execHifSlip h s
  | .alignDoneWrite h => Sys2Proof.Machine.execAlignDoneWrite h s
  | .hifCntClr h => Sys2Proof.Machine.execHifCntClr h s
  | .hifGlbCntClr => Sys2Proof.Machine.execHifGlbCntClr s
  | .hostCalDone h linRx linTx => Sys2Proof.Machine.execHostCalDone h linRx linTx s
  | .hostCalTimeout h => Sys2Proof.Machine.execHostCalTimeout h s
  | .trainingFrameRx h req advertises => Sys2Proof.Machine.execTrainingFrameRx h req advertises s
  | .hostFomWindowEnd h errSq acked lvl accD1 accD2 => Sys2Proof.Machine.execHostFomWindowEnd h errSq acked lvl accD1 accD2 s
  | .trainingComplete h => Sys2Proof.Machine.execTrainingComplete h s
  | .trainingAttemptFail h => Sys2Proof.Machine.execTrainingAttemptFail h s
  | .ehmTrainTimeout n => Sys2Proof.Machine.execEhmTrainTimeout n s
  | .amPeriod h errBits samePos arrival => Sys2Proof.Machine.execAmPeriod h errBits samePos arrival s
  | .alignTimeout h => Sys2Proof.Machine.execAlignTimeout h s
  | .hostCdrLockInterval h errs => Sys2Proof.Machine.execHostCdrLockInterval h errs s
  | .relockTimeout h => Sys2Proof.Machine.execRelockTimeout h s
  | .hostFaultAutoRestart h => Sys2Proof.Machine.execHostFaultAutoRestart h s
  | .hostSleepWake h tx ok relocked recOk => Sys2Proof.Machine.execHostSleepWake h tx ok relocked recOk s
  | .rsCodewordMonitor n egress inRange symErr => Sys2Proof.Machine.execRsCodewordMonitor n egress inRange symErr s
  | .todSetNow => Sys2Proof.Machine.execTodSetNow s
  | .todSetAtTimeIn => Sys2Proof.Machine.execTodSetAtTimeIn s
  | .todSetTimeout => Sys2Proof.Machine.execTodSetTimeout s
  | .todStep => Sys2Proof.Machine.execTodStep s
  | .todSlew => Sys2Proof.Machine.execTodSlew s
  | .todSlewDone => Sys2Proof.Machine.execTodSlewDone s
  | .timestampEvent r => Sys2Proof.Machine.execTimestampEvent r s
  | .crossCapture island count interval => Sys2Proof.Machine.execCrossCapture island count interval s
  | .driftMonitor point delta ana => Sys2Proof.Machine.execDriftMonitor point delta ana s
  | .tsfRead => Sys2Proof.Machine.execTsfRead s
  | .tsfFlush => Sys2Proof.Machine.execTsfFlush s
  | .timCntClr => Sys2Proof.Machine.execTimCntClr s
  | .timLnCntClr n => Sys2Proof.Machine.execTimLnCntClr n s
  | .ledgerPublish n => Sys2Proof.Machine.execLedgerPublish n s
  | .icrisRegionWrite n late => Sys2Proof.Machine.execIcrisRegionWrite n late s
  | .icrisInitiate n => Sys2Proof.Machine.execIcrisInitiate n s
  | .echoReceived n => Sys2Proof.Machine.execEchoReceived n s
  | .initiationMiss n seq => Sys2Proof.Machine.execInitiationMiss n seq s
  | .exchStale n => Sys2Proof.Machine.execExchStale n s
  | .restartAvg n => Sys2Proof.Machine.execRestartAvg n s
  | .dpllUpdate => Sys2Proof.Machine.execDpllUpdate s
  | .dpllMissedUpdate => Sys2Proof.Machine.execDpllMissedUpdate s
  | .timeInEdge offset => Sys2Proof.Machine.execTimeInEdge offset s
  | .timeInMiss => Sys2Proof.Machine.execTimeInMiss s
  | .timeOutPulse => Sys2Proof.Machine.execTimeOutPulse s
  | .suspectEnd => Sys2Proof.Machine.execSuspectEnd s
  | .refLost => Sys2Proof.Machine.execRefLost s
  | .refCountDone count => Sys2Proof.Machine.execRefCountDone count s
  | .refBack => Sys2Proof.Machine.execRefBack s
  | .refOk => Sys2Proof.Machine.execRefOk s
  | .refHoldExpiry => Sys2Proof.Machine.execRefHoldExpiry s
  | .pllRelockTimeout p => Sys2Proof.Machine.execPllRelockTimeout p s
  | .pllLockWindow p errPpm phaseOk slip => Sys2Proof.Machine.execPllLockWindow p errPpm phaseOk slip s
  | .pllCalReq mask => Sys2Proof.Machine.execPllCalReq mask s
  | .pllCalStart p => Sys2Proof.Machine.execPllCalStart p s
  | .pllCalDone p band => Sys2Proof.Machine.execPllCalDone p band s
  | .clkCntClr => Sys2Proof.Machine.execClkCntClr s
  | .optTrigger n compliance openLoop => Sys2Proof.Machine.execOptTrigger n compliance openLoop s
  | .obiasConditionEvent n openLoop => Sys2Proof.Machine.execObiasConditionEvent n openLoop s
  | .envelopeTrip n c => Sys2Proof.Machine.execEnvelopeTrip n c s
  | .probeTimeout n => Sys2Proof.Machine.execProbeTimeout n s
  | .offTimeExpiry n => Sys2Proof.Machine.execOffTimeExpiry n s
  | .envSave => Sys2Proof.Machine.execEnvSave s
  | .optCntClr n => Sys2Proof.Machine.execOptCntClr n s
  | .monOutput c codes => Sys2Proof.Machine.execMonOutput c codes s
  | .monSwap c => Sys2Proof.Machine.execMonSwap c s
  | .monCntClr => Sys2Proof.Machine.execMonCntClr s
  | .pbTransaction firmware => Sys2Proof.Machine.execPbTransaction firmware s
  | .pbTransactionDone nack data => Sys2Proof.Machine.execPbTransactionDone nack data s
  | .pbTimeout => Sys2Proof.Machine.execPbTimeout s
  | .sleepRequest n egress => Sys2Proof.Machine.execSleepRequest n egress s
  | .sleepRequestClear n egress => Sys2Proof.Machine.execSleepRequestClear n egress s
  | .budgetWrite n egress us => Sys2Proof.Machine.execBudgetWrite n egress us s
  | .votePrepare obj => Sys2Proof.Machine.execVotePrepare obj s
  | .voteTimeout obj block inst => Sys2Proof.Machine.execVoteTimeout obj block inst s
  | .voteCommitStep obj => Sys2Proof.Machine.execVoteCommitStep obj s
  | .lateRefusal obj block inst => Sys2Proof.Machine.execLateRefusal obj block inst s
  | .sleepRetry obj => Sys2Proof.Machine.execSleepRetry obj s
  | .trimEntry n => Sys2Proof.Machine.execTrimEntry n s
  | .wakeTimerExpiry => Sys2Proof.Machine.execWakeTimerExpiry s
  | .lpmodeAssert => Sys2Proof.Machine.execLpmodeAssert s
  | .lpmodeDeassert => Sys2Proof.Machine.execLpmodeDeassert s
  | .standbySwWrite => Sys2Proof.Machine.execStandbySwWrite s
  | .standbyWake badLrx badLtx => Sys2Proof.Machine.execStandbyWake badLrx badLtx s
  | .deep => Sys2Proof.Machine.execDeep s
  | .deepWakeEvent src => Sys2Proof.Machine.execDeepWakeEvent src s
  | .deepImageRereadDone bytes recOk => Sys2Proof.Machine.execDeepImageRereadDone bytes recOk s
  | .dvfsRequest req => Sys2Proof.Machine.execDvfsRequest req s
  | .dvfsVoutConfirmed => Sys2Proof.Machine.execDvfsVoutConfirmed s
  | .dvfsStepDwell => Sys2Proof.Machine.execDvfsStepDwell s
  | .dvfsTimeout => Sys2Proof.Machine.execDvfsTimeout s
  | .dvfsExpertWrite w => Sys2Proof.Machine.execDvfsExpertWrite w s
  | .pmAlert => Sys2Proof.Machine.execPmAlert s
  | .supplyWarningStart rail mv => Sys2Proof.Machine.execSupplyWarningStart rail mv s
  | .supplyWarningEnd rail lowest mv => Sys2Proof.Machine.execSupplyWarningEnd rail lowest mv s
  | .supplyMonitorReset rail mv => Sys2Proof.Machine.execSupplyMonitorReset rail mv s
  | .resetNAssert => Sys2Proof.Machine.execResetNAssert s
  | .resetNRelease => Sys2Proof.Machine.execResetNRelease s
  | .domainStaggerStep => Sys2Proof.Machine.execDomainStaggerStep s
  | .pwrCntClr => Sys2Proof.Machine.execPwrCntClr s
  | .thermalModelUpdate counts rails => Sys2Proof.Machine.execThermalModelUpdate counts rails s
  | .diodeMeasure ds => Sys2Proof.Machine.execDiodeMeasure ds s
  | .aonDiodeCompare temps => Sys2Proof.Machine.execAonDiodeCompare temps s
  | .aonThermalCrossing before after => Sys2Proof.Machine.execAonThermalCrossing before after s
  | .graceExpiry => Sys2Proof.Machine.execGraceExpiry s
  | .throttleStep => Sys2Proof.Machine.execThrottleStep s
  | .recoverExpiry => Sys2Proof.Machine.execRecoverExpiry s
  | .restore => Sys2Proof.Machine.execRestore s
  | .critClr => Sys2Proof.Machine.execCritClr s
  | .critAutoClear => Sys2Proof.Machine.execCritAutoClear s
  | .thmCntClr => Sys2Proof.Machine.execThmCntClr s
  | .faultSourceEvent src inst k => Sys2Proof.Machine.execFaultSourceEvent src inst k s
  | .faultWindowClose src inst => Sys2Proof.Machine.execFaultWindowClose src inst s
  | .hltSrcCfgWrite src word1 v => Sys2Proof.Machine.execHltSrcCfgWrite src word1 v s
  | .lastingClear src mask => Sys2Proof.Machine.execLastingClear src mask s
  | .bistEngine unit preempt => Sys2Proof.Machine.execBistEngine unit preempt s
  | .bistLane unit preempt => Sys2Proof.Machine.execBistLane unit preempt s
  | .bistHost unit preempt => Sys2Proof.Machine.execBistHost unit preempt s
  | .bistXbar unit preempt => Sys2Proof.Machine.execBistXbar unit preempt s
  | .bistCtrlDac unit preempt => Sys2Proof.Machine.execBistCtrlDac unit preempt s
  | .bistMonAdc unit preempt => Sys2Proof.Machine.execBistMonAdc unit preempt s
  | .bistKeystore unit preempt => Sys2Proof.Machine.execBistKeystore unit preempt s
  | .bistEnvelope unit preempt => Sys2Proof.Machine.execBistEnvelope unit preempt s
  | .bistStart slot clockOk mv => Sys2Proof.Machine.execBistStart slot clockOk mv s
  | .bistWaitTimeout => Sys2Proof.Machine.execBistWaitTimeout s
  | .bistConditionLost kind unit => Sys2Proof.Machine.execBistConditionLost kind unit s
  | .bistDone kind unit r => Sys2Proof.Machine.execBistDone kind unit r s
  | .bistReinitDone kind unit => Sys2Proof.Machine.execBistReinitDone kind unit s
  | .bgBistDue e => Sys2Proof.Machine.execBgBistDue e s
  | .adcStepDue n => Sys2Proof.Machine.execAdcStepDue n s
  | .dacStepDue n => Sys2Proof.Machine.execDacStepDue n s
  | .hltCntClr => Sys2Proof.Machine.execHltCntClr s
  | .watchdogMiss core => Sys2Proof.Machine.execWatchdogMiss core s
  | .fwRestartDone bytes => Sys2Proof.Machine.execFwRestartDone bytes s
  | .hostBusWrite target off data => Sys2Proof.Machine.execHostBusWrite target off data s
  | .hostBusRead target off count => Sys2Proof.Machine.execHostBusRead target off count s
  | .i3cEntdaa dyn => Sys2Proof.Machine.execI3cEntdaa dyn s
  | .i3cSetdasa target dyn => Sys2Proof.Machine.execI3cSetdasa target dyn s
  | .i3cSetnewda target dyn => Sys2Proof.Machine.execI3cSetnewda target dyn s
  | .i3cRstdaa => Sys2Proof.Machine.execI3cRstdaa s
  | .i3cGetpid target => Sys2Proof.Machine.execI3cGetpid target s
  | .i3cGetbcr target => Sys2Proof.Machine.execI3cGetbcr target s
  | .i3cGetdcr target => Sys2Proof.Machine.execI3cGetdcr target s
  | .i3cGetstatus target => Sys2Proof.Machine.execI3cGetstatus target s
  | .i3cGetmwl target => Sys2Proof.Machine.execI3cGetmwl target s
  | .i3cSetmwl target v => Sys2Proof.Machine.execI3cSetmwl target v s
  | .i3cGetmrl target => Sys2Proof.Machine.execI3cGetmrl target s
  | .i3cSetmrl target v => Sys2Proof.Machine.execI3cSetmrl target v s
  | .i3cUnsupportedCcc => Sys2Proof.Machine.execI3cUnsupportedCcc s
  | .windowRead => Sys2Proof.Machine.execWindowRead s
  | .windowWrite => Sys2Proof.Machine.execWindowWrite s
  | .spiWrite a data => Sys2Proof.Machine.execSpiWrite a data s
  | .spiRead a count => Sys2Proof.Machine.execSpiRead a count s
  | .spiUnknownCmd => Sys2Proof.Machine.execSpiUnknownCmd s
  | .cmisControlAct c => Sys2Proof.Machine.execCmisControlAct c s
  | .cmisDpdeinit n v => Sys2Proof.Machine.execCmisDpdeinit n v s
  | .cmisApplyDpinit n c => Sys2Proof.Machine.execCmisApplyDpinit n c s
  | .cmisLowpwrRequestSw v => Sys2Proof.Machine.execCmisLowpwrRequestSw v s
  | .mcPageHostWrite bank page off data => Sys2Proof.Machine.execMcPageHostWrite bank page off data s
  | .cdbQueryStatus => Sys2Proof.Machine.execCdbQueryStatus s
  | .cdbEnterPassword pw => Sys2Proof.Machine.execCdbEnterPassword pw s
  | .cdbChangePassword pw => Sys2Proof.Machine.execCdbChangePassword pw s
  | .cdbAbort => Sys2Proof.Machine.execCdbAbort s
  | .cdbModuleFeatures => Sys2Proof.Machine.execCdbModuleFeatures s
  | .cdbFwMgmtFeatures => Sys2Proof.Machine.execCdbFwMgmtFeatures s
  | .cdbGetFwInfo a b => Sys2Proof.Machine.execCdbGetFwInfo a b s
  | .cdbStartFwDownload size => Sys2Proof.Machine.execCdbStartFwDownload size s
  | .cdbAbortFwDownload => Sys2Proof.Machine.execCdbAbortFwDownload s
  | .cdbWriteFwBlockLpl off len => Sys2Proof.Machine.execCdbWriteFwBlockLpl off len s
  | .cdbWriteFwBlockEpl off len => Sys2Proof.Machine.execCdbWriteFwBlockEpl off len s
  | .cdbCompleteFwDownload => Sys2Proof.Machine.execCdbCompleteFwDownload s
  | .cdbRunFwImage => Sys2Proof.Machine.execCdbRunFwImage s
  | .cdbCommitFwImage => Sys2Proof.Machine.execCdbCommitFwImage s
  | .cdbTxTapRequest n taps => Sys2Proof.Machine.execCdbTxTapRequest n taps s
  | .cdbPartialCommit lead => Sys2Proof.Machine.execCdbPartialCommit lead s
  | .cdbUnsupported => Sys2Proof.Machine.execCdbUnsupported s
  | .cdbTxTapTimeout => Sys2Proof.Machine.execCdbTxTapTimeout s
  | .evfRead => Sys2Proof.Machine.execEvfRead s
  | .evfFlush => Sys2Proof.Machine.execEvfFlush s
  | .evfFormatWrite format2 => Sys2Proof.Machine.execEvfFormatWrite format2 s
  | .mgtCntClr => Sys2Proof.Machine.execMgtCntClr s
  | .mbxInWordWrite w => Sys2Proof.Machine.execMbxInWordWrite w s
  | .mbxTimeout => Sys2Proof.Machine.execMbxTimeout s
  | .mbxInAbort => Sys2Proof.Machine.execMbxInAbort s
  | .mbxSizeWrite v => Sys2Proof.Machine.execMbxSizeWrite v s
  | .mbxOutRead => Sys2Proof.Machine.execMbxOutRead s
  | .msgVersion => Sys2Proof.Machine.execMsgVersion s
  | .msgRegRead => Sys2Proof.Machine.execMsgRegRead s
  | .msgRegWrite => Sys2Proof.Machine.execMsgRegWrite s
  | .msgEventRead => Sys2Proof.Machine.execMsgEventRead s
  | .msgInfoRead => Sys2Proof.Machine.execMsgInfoRead s
  | .msgInfoWrite => Sys2Proof.Machine.execMsgInfoWrite s
  | .msgTypeUnknown => Sys2Proof.Machine.execMsgTypeUnknown s
  | .lcAdvance target flags => Sys2Proof.Machine.execLcAdvance target flags s
  | .nonce arg flags => Sys2Proof.Machine.execNonce arg flags s
  | .nonceExpiry => Sys2Proof.Machine.execNonceExpiry s
  | .keyProgram slot flags => Sys2Proof.Machine.execKeyProgram slot flags s
  | .keyRevoke slot flags => Sys2Proof.Machine.execKeyRevoke slot flags s
  | .debugUnlock scope flags => Sys2Proof.Machine.execDebugUnlock scope flags s
  | .rollbackSet arg flags => Sys2Proof.Machine.execRollbackSet arg flags s
  | .factorySave arg flags => Sys2Proof.Machine.execFactorySave arg flags s
  | .secOpInvalid op arg flags => Sys2Proof.Machine.execSecOpInvalid op arg flags s
  | .tokenVerifyDone => Sys2Proof.Machine.execTokenVerifyDone s
  | .nvmWriteDone job ok => Sys2Proof.Machine.execNvmWriteDone job ok s
  | .flashWriteDone bootRecord ok => Sys2Proof.Machine.execFlashWriteDone bootRecord ok s

end Sys2Proof.Machine
end

