-- ==== Sys2Proof/Machine/Pins.lean ====
section
/-!
DEFINITION. What the output balls show, by the state of the device (R27, R168, R173, R251, R338 to R340, R346, R352,
  R370, R418,
R469, R489), with the boundary cells that EXTEST puts in their place.
-/
namespace Sys2Proof.Machine

/-- Output balls. -/
inductive Pin where
  | drvEn (n : Fin 8)
  | lsrEn (n : Fin 8)
  | obias (n : Fin 8)
  | omod (n : Fin 8)
  | oaux (n : Fin 8)
  | ltx (n : Fin 8)
  | htx (h : Fin 16)
  | intN
  | spiMiso
  | tdo
  | evtXoff
  | timeOut
  | qspiCsN
deriving DecidableEq, Repr

/-- What a ball shows: a logic level, high impedance (with its passive pull-down where it has one), the discharge clamp,
a control DAC code, zero differential level, what its interface sends, or the level of its boundary cell. -/
inductive PinState where
  | low
  | high
  | highZ
  | clamp
  | code (v : Nat)
  | zeroDiff
  | sends
  | cell (b : Bool)
deriving DecidableEq, Repr

/-- VDD_AON is below its reset level (R475, R489). -/
def State.unpowered (s : State) : Bool := s.rd .glbSeqStep == 0

/-- EXTEST is the instruction of the TAP, plain or with a pulse or a train of IEEE Std 1149.6 (R469). -/
def State.extest (s : State) : Bool :=
  s.tap.instr == .extest || s.tap.instr == .extestPulse || s.tap.instr == .extestTrain

/-- The code of a ball in the numbering of `Config.chainBall`; OBIASn, OMODn and OAUXn, which are no digital or line pins, have
none (R469, log entry 54). -/
def Pin.code : Pin → Option Nat
  | .drvEn n => some n
  | .lsrEn n => some (8 + n)
  | .ltx n => some (16 + n)
  | .htx h => some (24 + h)
  | .intN => some 40
  | .spiMiso => some 41
  | .evtXoff => some 42
  | .timeOut => some 43
  | .qspiCsN => some 44
  | .obias _ | .omod _ | .oaux _ | .tdo => none

/-- A boundary cell that only observes: those of DRV_ENn and LSR_ENn (R469). -/
def observeOnly (ball : Nat) : Bool := decide (ball < 16)

/-- The level that the boundary chain drives on a ball while EXTEST is loaded (R469). -/
def State.cellOf (s : State) (ball : Nat) : Option Bool :=
  if !s.extest || observeOnly ball then none
  else ((List.range Config.chainLength).find? (fun k => Config.chainBall k == ball)).map (fun k => s.tap.cells.testBit k)

/-- The device is in Deep (R340, R370). -/
def State.inDeep (s : State) : Bool := s.rd .pwrDevState == 5

/-- A logic output that nothing drives while unpowered: the pull-down holds it low. -/
def levelPin (b : Bool) : PinState := if b then .high else .low

/-- OMODn (1) and OAUXn (2): high impedance unpowered, in Deep and under CTRL_DAC BIST; 0 V until PU_DONE (R338, R340,
R352). -/
def State.controlPin (s : State) (n k : Nat) : PinState :=
  if s.unpowered || s.inDeep || s.underTest 4 n then .highZ
  else if !s.on .optGlbPuDone then .code 0
  else .code (s.view .optOutCode n k)

/-- LTXn_P/N: zero differential level but in ACTIVE, awake, unmuted and not under test (R168, R173, R186, R418). -/
def State.lineTxPin (s : State) (n : Nat) : PinState :=
  if s.unpowered then .highZ
  else if s.rd .ltxState n = 4 ∧ !s.on .ltxMuted n ∧ !s.on .ltxSleep n ∧ !s.underTest 1 n then .sends
  else .zeroDiff

/-- HTXh_P/N: zero differential level but in TRAIN, ALIGN and READY, awake and neither under test nor a
host lane of a line lane under test (R251, R278, R326, R418). -/
def State.hostTxPin (s : State) (h : Nat) : PinState :=
  if s.unpowered then .highZ
  else if 2 ≤ s.rd .hifState h ∧ s.rd .hifState h ≤ 4 ∧ !s.on .hifSleepTx h ∧ !s.underTest 2 (h / 4) ∧
      !(s.lineOf h).any (fun n => s.underTest 1 n) then .sends
  else .zeroDiff

/-- DRV_ENn and LSR_ENn: driven low under test and while EXTEST is loaded (R352, R418, R469). -/
def State.enablePin (s : State) (f : Field) (n : Nat) : PinState :=
  levelPin (s.on f n && !s.underTest 1 n && !s.pinsUnderTest n && !s.extest)

/-- TDO drives the last stage of the register that shifts, and is high-impedance otherwise, unpowered, in Deep, and until
start-up step 3 (R469, R489). -/
def State.tdoPin (s : State) : PinState :=
  if decide (s.rd .glbSeqStep ≤ 2) || s.on .glbResetLow || s.inDeep then .highZ
  else match s.tap.ctl with
    | .shiftDr => levelPin (s.tap.drShift.testBit 0)
    | .shiftIr => levelPin (s.tap.irShift.testBit 0)
    | _ => .highZ

/-- What the device itself puts on a ball (R489). SPI_MISO is high-impedance outside a transfer, and no transfer is open between
commands. -/
def State.ownPin (s : State) (p : Pin) : PinState :=
  match p with
  | .drvEn n => s.enablePin .ltxDrvEn n
  | .lsrEn n => s.enablePin .ltxLsrEn n
  | .obias n =>
    if s.unpowered then .highZ
    else if s.inDeep || s.underTest 1 n || s.extest || s.view .optLnClamp n 0 == 1 then .clamp
    else .code (s.view .optOutCode n 0)
  | .omod n => s.controlPin n 1
  | .oaux n => s.controlPin n 2
  | .ltx n => s.lineTxPin n
  | .htx h => s.hostTxPin h
  | .intN => if !s.unpowered && s.intN then .low else .highZ
  | .spiMiso => .highZ
  | .tdo => s.tdoPin
  | .evtXoff => levelPin (s.on .pwrDomMgmt && s.on .evfXoff)
  | .timeOut => if s.on .pwrDomTime && s.on .timOutEn then .sends else .low
  | .qspiCsN => if s.on .pwrDomMgmt then .sends else .high

/-- What a ball shows: the level of its boundary cell while EXTEST drives it, else what the device puts on it (R469, R489). -/
def State.pin (s : State) (p : Pin) : PinState :=
  match p.code.bind s.cellOf with
  | some b => if s.unpowered then s.ownPin p else .cell b
  | none => s.ownPin p

end Sys2Proof.Machine
end

