-- ==== Sys2Proof/Machine/Tap.lean ====
section
/-!
DEFINITION. The test access port of IEEE Std 1149.1 and 1149.6 (R8, R468, R469): its controller, the instruction and bypass
registers, the boundary chain, and one TCK cycle. It reaches no register of the device.
-/
namespace Sys2Proof.Machine

/-- The controller's next state (IEEE Std 1149.1). -/
def TapState.next (tms : Bool) : TapState → TapState
  | .reset => if tms then .reset else .idle
  | .idle | .updateDr | .updateIr => if tms then .selectDr else .idle
  | .selectDr => if tms then .selectIr else .captureDr
  | .captureDr | .shiftDr => if tms then .exit1Dr else .shiftDr
  | .exit1Dr => if tms then .updateDr else .pauseDr
  | .pauseDr => if tms then .exit2Dr else .pauseDr
  | .exit2Dr => if tms then .updateDr else .shiftDr
  | .selectIr => if tms then .reset else .captureIr
  | .captureIr | .shiftIr => if tms then .exit1Ir else .shiftIr
  | .exit1Ir => if tms then .updateIr else .pauseIr
  | .pauseIr => if tms then .exit2Ir else .pauseIr
  | .exit2Ir => if tms then .updateIr else .shiftIr

/-- The instruction that a code selects: all ones is BYPASS, and a private one whose scope DEBUG_UNLOCK has not opened acts as
BYPASS (R468). -/
def State.tapDecode (s : State) (code : Nat) : TapInstr :=
  if code = 2 ^ Config.tapWidth - 1 then .bypass
  else match Config.tapCode code with
    | .coreDebug => if s.on .secDebugOpen then .coreDebug else .bypass
    | .internalScan => if s.on .secScanOpen then .internalScan else .bypass
    | i => i

/-- The data register that an instruction selects has one stage, but for the boundary chain; of the registers behind the private
instructions the spec gives nothing, their length neither (log entry 54). -/
def drLength : TapInstr → Nat
  | .bypass => 1
  | .sample | .preload | .extest | .extestPulse | .extestTrain => Config.chainLength
  | .coreDebug | .internalScan => Config.privateLength

/-- The level at a digital output ball, where the device holds it to one; what an input ball or an interface carries is free
(log entry 54). -/
def State.ballLevel (s : State) (ball : Nat) : Option Bool :=
  let outs : List Pin := (List.finRange 8).map Pin.drvEn ++ (List.finRange 8).map Pin.lsrEn ++
    [.intN, .spiMiso, .evtXoff, .timeOut, .qspiCsN]
  (outs.find? (fun p => p.code == some ball)).bind (fun p => match s.pin p with
    | .low => some false
    | .high => some true
    | .cell b => some b
    | _ => none)

/-- Stage `k` of the data register takes a level. -/
def State.captureBit (s : State) (k : Nat) (b : Bool) : State :=
  { s with tap := { s.tap with drShift := withBit s.tap.drShift k b } }

/-- Capture-DR: the bypass stage takes 0, each boundary cell the level of its ball, and a private register what it holds, which
is free. -/
def State.tapCapture (s : State) : State :=
  match s.tap.instr with
  | .bypass => { s with tap := { s.tap with drShift := 0 } }
  | .coreDebug | .internalScan => { s.free.2 with tap := { s.tap with drShift := s.free.1 } }
  | _ =>
    let start : State := { s with tap := { s.tap with drShift := 0 } }
    start.each (List.range Config.chainLength) (fun k t =>
      match s.ballLevel (Config.chainBall k) with
      | some b => t.captureBit k b
      | none => t.free.2.captureBit k (t.free.1.testBit 0))

/-- A register of `k` stages shifts by one, TDI entering at the far end. -/
def shiftIn (k v : Nat) (tdi : Bool) : Nat := v / 2 % 2 ^ (k - 1) + bit tdi * 2 ^ (k - 1)

/-- What the rising edge does in the state that it finds: a capture or a shift. Capture-IR loads 01 into the last stages, as
the standard asks. -/
def State.tapEdge (s : State) (tdi : Bool) : State :=
  match s.tap.ctl with
  | .captureIr => { s with tap := { s.tap with irShift := 1 } }
  | .shiftIr => { s with tap := { s.tap with irShift := shiftIn Config.tapWidth s.tap.irShift tdi } }
  | .captureDr => s.tapCapture
  | .shiftDr => { s with tap := { s.tap with drShift := shiftIn (drLength s.tap.instr) s.tap.drShift tdi } }
  | _ => s

/-- What the falling edge does in the state that the controller has reached: the instruction or the boundary cells update, and
Test-Logic-Reset selects BYPASS. -/
def State.tapUpdate (s : State) : State :=
  match s.tap.ctl with
  | .reset => { s with tap := { s.tap with instr := .bypass } }
  | .updateIr => { s with tap := { s.tap with instr := s.tapDecode s.tap.irShift } }
  | .updateDr => match s.tap.instr with
    | .preload | .extest | .extestPulse | .extestTrain => { s with tap := { s.tap with cells := s.tap.drShift } }
    | _ => s
  | _ => s

/-- One TCK cycle; TRST_N low holds the TAP in Test-Logic-Reset (R469). -/
def State.tckCycle (s : State) (c : TckCycle) : State :=
  if !c.trstN then { s with tap := { s.tap with ctl := .reset, instr := .bypass } }
  else
    let s := s.tapEdge c.tdi
    ({ s with tap := { s.tap with ctl := s.tap.ctl.next c.tms } } : State).tapUpdate

/-- The TCK cycle at the front of those that a tester has yet to give, with VDD_AON present (DESIGN CHOICE, log entry 54). -/
def State.tapServe (s : State) : State :=
  match s.tck with
  | [] => s
  | c :: rest =>
    let s : State := { s with tck := rest }
    if s.unpowered then { s with tap := Tap.atReset } else s.tckCycle c

/-- A step without a command: a TIME clock cycle, and a TCK cycle where a tester gives one (log entries 1 and 54). -/
def State.idle (s : State) : State := s.tick.tapServe

end Sys2Proof.Machine
end

