-- ==== Sys2Proof/Machine/Form.lean ====
section
/-!
DEFINITION. The canonical form of a state: in every field store the keys rise, every value fits its field and none is the
reset value; in every byte memory the addresses rise and no zero is listed. Equal contents are then equal data.
-/
namespace Sys2Proof.Machine

/-- Keys strictly rising. -/
def risingKeys : Store → Bool
  | a :: b :: m => a.1.lt b.1 && risingKeys (b :: m)
  | _ => true

/-- An entry that may stand in a store: its value fits the field and is not the reset value. -/
def entryOk (e : Key × Nat) : Bool := decide (e.2 < 2 ^ e.1.f.width) && e.2 != e.1.default

/-- The canonical form of a store. -/
def Store.wf (m : Store) : Bool := risingKeys m && m.all entryOk

/-- The canonical form of a state. -/
def State.wf (s : State) : Bool :=
  s.regs.wf && s.live.wf && s.nvm.wf && s.retained.wf && s.pages.wf && s.bufs.wf && s.info.wf

end Sys2Proof.Machine
end

