-- ==== Sys2Proof/Safety.lean ====
section
/-!
DEFINITION. What claims call a safe state, and the invariant of every step.
-/
namespace Sys2Proof.Machine

/-- One exchange and one encoder for each of the eight line lanes (R191, R299), one microcode store for each of the 128
engines (R220). -/
def State.shaped (s : State) : Prop := s.exch.length = 8 ∧ s.data.length = 8 ∧ s.stores.length = 128

/-- What every step keeps: stores and byte memories in canonical form (so every field holds a value of its width), the number
of units that the device has, no more words in the event FIFO than its RAM holds (R450). -/
def State.Inv (s : State) : Prop := s.wf = true ∧ s.shaped ∧ s.evf.length ≤ evfWords

/-- Software's access to a register of block `b`, instance `n`, reaches it: MGMT runs and the island is powered (R334,
R370, R477). -/
def State.reaches (s : State) (b : Block) (n : Nat) : Prop := s.on .pwrDomMgmt = true ∧ s.powered b n = true

/-- Of all the state, only the register fields `l` of instance `n` differ from `s`. -/
def Changes (s t : State) (n : Nat) (l : List Field) : Prop :=
  t = { s with regs := t.regs } ∧ ∀ f m i, (f ∈ l → m ≠ n) → t.rd f m i = s.rd f m i

/-- Of the register fields, as read and as in use, only those of the blocks `l` differ from `r`. -/
structure OnlyIn (l : List Block) (r s : State) : Prop where
  read : ∀ f n i, f.desc.block ∉ l → s.rd f n i = r.rd f n i
  inUse : ∀ f n i, f.desc.block ∉ l → s.use f n i = r.use f n i

/-- The NVM is as in `r`: the fields that load from it, the image slots' marks and the MODULE_INFO region (R471). -/
structure SameNvm (r s : State) : Prop where
  nvm : s.nvm = r.nvm
  info : s.info = r.info

/-- Every byte outside the `k` bytes from address `a` on reads as before. -/
def SameOutside (m m' : Memory) (a k : Nat) : Prop := ∀ x, (x < a ∨ a + k ≤ x) → m'.get x = m.get x

/-- The blocks whose registers a command may change; none named for one that may reach any block. -/
def touches (c : Instr) : Option (List Block) :=
  match c with
  | .bgTaskDue .. | .icrisInitiate .. | .bgBistDue .. | .i3cUnsupportedCcc | .cdbQueryStatus => some []
  | .engineRequest .. | .stealTransferDone .. | .emitDone .. => some [.arc]
  | .releaseBufferWrite .. => some [.arcCl]
  | .narrowAccess .. | .unmappedAccess .. | .resetNRelease => some [.glb]
  | .trainingFrameRx .. | .hostFomWindowEnd .. => some [.hif]
  | .rsCodewordMonitor .. => some [.hifGlb]
  | .faultWindowClose .. => some [.hlt]
  | .histDone .. | .leqAdaptUpdate .. | .dfeBurst .. => some [.leq]
  | .markerCandidate .. | .msgUnknownRx .. | .negTimeout .. => some [.lfr]
  | .agcTrimStep .. | .rxSleepWake .. => some [.lrx]
  | .txFaultDacOff .. | .dacClip .. | .wakePatternEnd .. => some [.ltx]
  | .watchdogMiss .. | .i3cEntdaa .. | .i3cRstdaa | .cdbEnterPassword .. | .cdbAbort | .cdbModuleFeatures |
    .cdbFwMgmtFeatures | .cdbGetFwInfo .. | .cdbStartFwDownload .. | .cdbAbortFwDownload | .cdbWriteFwBlockLpl .. |
    .cdbWriteFwBlockEpl .. | .cdbUnsupported | .cdbTxTapTimeout | .mbxTimeout | .msgVersion | .msgInfoRead |
    .msgTypeUnknown => some [.mgt]
  | .pbTransactionDone .. | .pbTimeout => some [.optGlb]
  | .wakeRetry | .dvfsVoutConfirmed | .dvfsStepDwell | .dvfsTimeout => some [.pwr]
  | .nonceExpiry => some [.sec]
  | .todSetTimeout | .crossCapture .. | .dpllMissedUpdate | .timeInMiss | .timeOutPulse | .suspectEnd => some [.tim]
  | .initiationMiss .. => some [.timLn]
  | .engineDeadlineFail .. => some [.arc, .arcCl]
  | .emitPortGrant .. => some [.arc, .evf]
  | .straitErrClr | .rgStoppedAccess .. | .mbxOutRead => some [.clk, .glb]
  | .bistWaitTimeout | .bistConditionLost .. => some [.evf, .hlt]
  | .msgProfileChangeRx .. | .msgProfileReplyRx .. | .profileTimeout .. => some [.evf, .lfr]
  | .mcPageHostWrite .. | .msgEventRead => some [.evf, .mgt]
  | .vddAonPowerGood | .deepImageRereadDone .. => some [.glb, .pwr]
  | .dacStepDue .. => some [.hltLn, .ltx]
  | .pcPause .. => some [.img, .lfr]
  | .msgTxTapReqRx .. | .compatFormatSwitch .. => some [.lfr, .ltx]
  | .msgTxTapReplyRx .. | .cdbTxTapRequest .. => some [.lfr, .mgt]
  | .profileSwitch .. => some [.lfr, .pwr]
  | .serviceFrameReceived .. | .icrisRegionWrite .. => some [.lfr, .timLn]
  | .swapDeferExpiry .. => some [.lrx, .ltx]
  | .txDisableMute .. => some [.ltx, .optLn]
  | .cdbChangePassword .. | .msgInfoWrite | .tokenVerifyDone => some [.mgt, .sec]
  | .monOutput .. => some [.mon, .monCh]
  | .sleepRetry .. | .trimEntry .. | .lpmodeAssert => some [.pwr, .pwrLn]
  | .todSlewDone | .driftMonitor .. | .ledgerPublish .. | .echoReceived .. | .exchStale .. | .dpllUpdate => some
    [.tim, .timLn]
  | .engineRefreshDone .. | .histGatherDone .. => some [.arc, .arcCl, .hlt]
  | .arcClCntClr .. => some [.arcCl, .clk, .glb]
  | .evfRead | .evfFlush | .evfFormatWrite .. => some [.clk, .evf, .glb]
  | .hifCntClr .. => some [.clk, .glb, .hif]
  | .hifGlbCntClr => some [.clk, .glb, .hifGlb]
  | .lastingClear .. => some [.clk, .glb, .hlt]
  | .imgPcClr => some [.clk, .glb, .img]
  | .coefSnap .. | .leqCntClr .. | .histStart .. => some [.clk, .glb, .leq]
  | .lfrCntClr .. => some [.clk, .glb, .lfr]
  | .lrxCntClr .. => some [.clk, .glb, .lrx]
  | .ltxCntClr .. => some [.clk, .glb, .ltx]
  | .mbxInWordWrite .. | .mbxInAbort | .mbxSizeWrite .. => some [.clk, .glb, .mgt]
  | .monSwap .. | .monCntClr => some [.clk, .glb, .monCh]
  | .envSave | .pbTransaction .. => some [.clk, .glb, .optGlb]
  | .optCntClr .. => some [.clk, .glb, .optLn]
  | .clkCntClr => some [.clk, .glb, .pll]
  | .dvfsRequest .. | .dvfsExpertWrite .. | .pwrCntClr => some [.clk, .glb, .pwr]
  | .thmCntClr => some [.clk, .glb, .thm]
  | .tsfRead | .tsfFlush | .timCntClr => some [.clk, .glb, .tim]
  | .timLnCntClr .. | .restartAvg .. => some [.clk, .glb, .timLn]
  | .flashWriteDone .. => some [.evf, .img, .mgt]
  | .txFaultAutoRestart .. => some [.evf, .ltx, .pwrLn]
  | .voteTimeout .. => some [.evf, .pwr, .pwrLn]
  | .critAutoClear => some [.evf, .pwr, .thm]
  | .adcStepDue .. => some [.hlt, .hltLn, .lrx]
  | .nvmWriteDone .. => some [.mgt, .optGlb, .sec]
  | .arcCntClr => some [.arc, .arcCl, .clk, .glb]
  | .pcIsolate => some [.arcCl, .evf, .hlt, .img]
  | .bistEngine .. | .bistLane .. | .bistHost .. | .bistXbar .. | .bistCtrlDac .. | .bistMonAdc .. | .bistKeystore ..
    | .bistEnvelope .. => some [.clk, .evf, .glb, .hlt]
  | .mgtCntClr => some [.clk, .evf, .glb, .mgt]
  | .refLost | .refCountDone .. | .refOk => some [.clk, .evf, .glb, .pll]
  | .hifSlip .. => some [.clk, .glb, .hif, .hifGlb]
  | .hltCntClr => some [.clk, .glb, .hlt, .hltLn]
  | .wakeSend .. => some [.clk, .glb, .hltLn, .ltx]
  | .lcAdvance .. | .nonce .. | .keyProgram .. | .keyRevoke .. | .debugUnlock .. | .rollbackSet .. | .factorySave ..
    | .secOpInvalid .. => some [.clk, .glb, .mgt, .sec]
  | .standbySwWrite | .deep => some [.clk, .glb, .pwr, .pwrLn]
  | .todSetNow | .todSetAtTimeIn | .todStep | .todSlew => some [.clk, .glb, .tim, .timLn]
  | .trainingComplete .. | .ehmTrainTimeout .. | .hostFaultAutoRestart .. => some [.evf, .hif, .hifGlb, .mgt]
  | .votePrepare .. => some [.evf, .hlt, .pwr, .pwrLn]
  | .drvHoldExpiry .. => some [.evf, .hltLn, .ltx, .pwrLn]
  | .txActivate .. | .offTimeExpiry .. => some [.evf, .ltx, .optLn, .pwrLn]
  | .healthWindowTick => some [.arcCl, .hlt, .hltLn, .lrx, .ltx]
  | .hifCommit .. => some [.clk, .evf, .glb, .hif, .hlt]
  | .leqCommit .. => some [.clk, .evf, .glb, .hlt, .leq]
  | .profileChange .. => some [.clk, .evf, .glb, .hlt, .lfr]
  | .ltxCommit .. => some [.clk, .evf, .glb, .hlt, .ltx]
  | .snapshotRead .. | .windowRead | .msgRegRead => some [.clk, .evf, .glb, .mgt, .tim]
  | .critClr => some [.clk, .evf, .glb, .pwr, .thm]
  | .hostCalTimeout .. | .trainingAttemptFail .. | .alignTimeout .. | .relockTimeout .. => some [.evf, .hif, .hifGlb,
    .hlt, .mgt]
  | .hostCalDone .. => some [.evf, .hif, .hifGlb, .mgt, .tim]
  | .codewordBoundaryApply .. => some [.hlt, .hltLn, .leq, .lrx, .ltx]
  | .optTrigger .. => some [.lfr, .ltx, .monCh, .optLn, .timLn]
  | .pcResume .. => some [.arc, .arcCl, .evf, .img, .lfr, .mgt]
  | .pllRelockTimeout .. => some [.arc, .clk, .evf, .glb, .pll, .tim]
  | .alignDoneWrite .. => some [.clk, .evf, .glb, .hif, .hifGlb, .mgt]
  | .lrxCommit .. => some [.clk, .evf, .glb, .hlt, .hltLn, .lrx]
  | .txEnableRequest .. | .ltxRestart .. => some [.clk, .evf, .glb, .hlt, .ltx, .pwrLn]
  | .sleepRequest .. => some [.clk, .evf, .glb, .hlt, .pwr, .pwrLn]
  | .amPeriod .. => some [.evf, .hif, .hifGlb, .hlt, .mgt, .tim]
  | .hostSleepWake .. => some [.evf, .hif, .hifGlb, .mgt, .pwr, .pwrLn]
  | .hifEnable .. | .hifDisable .. | .hifRetrain .. => some [.clk, .evf, .glb, .hif, .hifGlb, .hlt, .mgt]
  | .presetWrite .. => some [.clk, .glb, .hif, .hltLn, .leq, .lrx, .ltx]
  | .txEnableGo .. | .txenTimeout .. | .drvSettleExpiry .. | .biasTimeout .. | .drvFault .. | .dacCalDone .. |
    .dacCellTrimDone .. | .envelopeTrip .. | .probeTimeout .. => some [.evf, .hlt, .hltLn, .ltx, .mgt, .optLn,
    .pwrLn]
  | .txFrameBoundary .. => some [.hif, .hifGlb, .hltLn, .lfr, .ltx, .tim, .timLn]
  | .sleepRequestClear .. | .budgetWrite .. => some [.clk, .evf, .glb, .hif, .lrx, .ltx, .pwr, .pwrLn]
  | .txDisable .. => some [.clk, .evf, .glb, .hlt, .hltLn, .ltx, .optLn, .pwrLn]
  | .pllCalReq .. => some [.clk, .evf, .glb, .hltLn, .ltx, .optLn, .pll, .pwrLn]
  | .lockedToService .. | .serviceExit .. | .fomWindowEnd .. => some [.evf, .hifGlb, .leq, .lfr, .lrx, .mgt, .pwrLn,
    .timLn]
  | .txSleepWake .. => some [.evf, .hlt, .hltLn, .ltx, .mgt, .optLn, .pwr, .pwrLn]
  | .frameBoundaryApply .. => some [.hlt, .hltLn, .leq, .lfr, .lrx, .pwr, .tim, .timLn]
  | .pllCalDone .. => some [.arc, .clk, .evf, .glb, .hlt, .ltx, .pll, .pwrLn, .tim]
  | .supplyReady .. => some [.arc, .clk, .evf, .glb, .img, .mgt, .pll, .pwr, .tim]
  | .sdDeassert .. => some [.evf, .hifGlb, .hltLn, .leq, .lfr, .lrx, .mgt, .pwrLn, .timLn]
  | .msgAckRx .. | .msgAbilityRx .. | .msgConfirmRx .. | .msgRenegRx .. | .helloTimeout .. => some [.evf, .hif,
    .hifGlb, .hltLn, .leq, .lfr, .lrx, .mgt, .pwrLn, .timLn]
  | .agcWindow .. | .cdrLockInterval .. | .acqTimeout .. | .trainTimeout .. | .lrxFaultAutoRestart .. |
    .adcShadowDone .. => some [.evf, .hifGlb, .hlt, .hltLn, .leq, .lfr, .lrx, .mgt, .pwrLn, .timLn]
  | .cmisApplyDpinit .. => some [.clk, .evf, .glb, .hif, .hlt, .hltLn, .leq, .lrx, .ltx, .optLn, .pwrLn]
  | .frameMarkerCheck .. => some [.evf, .hif, .hifGlb, .hlt, .hltLn, .leq, .lfr, .lrx, .mgt, .pwrLn, .timLn]
  | .sideChannelFrameRx .. => some [.evf, .hif, .hifGlb, .hltLn, .leq, .lfr, .lrx, .ltx, .mgt, .pwrLn, .timLn]
  | .rxResumeDone .. => some [.evf, .hifGlb, .hlt, .hltLn, .leq, .lfr, .lrx, .mgt, .pwr, .pwrLn, .timLn]
  | .lrxRestart .. => some [.clk, .evf, .glb, .hifGlb, .hlt, .hltLn, .leq, .lfr, .lrx, .mgt, .pwrLn, .timLn]
  | .lrxCalTimeout .. => some [.evf, .glb, .hifGlb, .hlt, .hltLn, .leq, .lfr, .lrx, .mgt, .pwr, .pwrLn, .timLn]
  | .reneg .. => some [.clk, .evf, .glb, .hif, .hifGlb, .hlt, .hltLn, .leq, .lfr, .lrx, .mgt, .pwrLn, .timLn]
  | .lrxEnable .. => some [.clk, .evf, .glb, .hifGlb, .hlt, .hltLn, .leq, .lfr, .lrx, .ltx, .mgt, .pwrLn, .timLn]
  | .lrxCalDone .. => some [.evf, .glb, .hifGlb, .hlt, .hltLn, .leq, .lfr, .lrx, .mgt, .pwr, .pwrLn, .tim, .timLn]
  | .sdAssert .. | .wakePatternDetect .. | .lateRefusal .. | .wakeTimerExpiry | .lpmodeDeassert | .deepWakeEvent .. |
    .aonThermalCrossing .. | .hostBusWrite .. | .hostBusRead .. | .i3cSetdasa .. | .i3cSetnewda .. | .i3cGetpid .. |
    .i3cGetbcr .. | .i3cGetdcr .. | .i3cGetstatus .. | .i3cGetmwl .. | .i3cSetmwl .. | .i3cGetmrl .. | .i3cSetmrl ..
    | .spiUnknownCmd => some [.evf, .hif, .hifGlb, .hlt, .hltLn, .leq, .lfr, .lrx, .ltx, .mgt, .pwr, .pwrLn, .timLn]
  | .supplyWarningEnd .. => some [.clk, .evf, .glb, .hif, .hlt, .hltLn, .leq, .lrx, .ltx, .mgt, .optLn, .pll, .pwr,
    .pwrLn]
  | .timeInEdge .. => some [.evf, .hif, .hifGlb, .hlt, .hltLn, .leq, .lfr, .lrx, .ltx, .mgt, .pwr, .pwrLn, .tim,
    .timLn]
  | .bistReinitDone .. => some [.arc, .evf, .hif, .hifGlb, .hlt, .hltLn, .leq, .lfr, .lrx, .ltx, .mgt, .pwr, .pwrLn,
    .sec, .timLn]
  | .cdbCompleteFwDownload | .cdbRunFwImage | .cdbCommitFwImage | .cdbPartialCommit .. => some [.arcCl, .evf, .hif,
    .hifGlb, .hlt, .hltLn, .img, .leq, .lfr, .lrx, .ltx, .mgt, .optLn, .pwrLn, .timLn]
  | .fwRestartDone .. => some [.evf, .glb, .hif, .hifGlb, .hlt, .hltLn, .img, .leq, .lfr, .lrx, .ltx, .mgt, .optLn,
    .pwrLn, .timLn]
  | .straitOverflow .. => some [.evf, .glb, .hif, .hifGlb, .hlt, .hltLn, .leq, .lfr, .lrx, .ltx, .mgt, .optLn,
    .pwrLn, .tim, .timLn]
  | .graceExpiry | .throttleStep => some [.evf, .hif, .hifGlb, .hlt, .hltLn, .leq, .lfr, .lrx, .ltx, .mgt, .optLn,
    .pwr, .pwrLn, .thm, .timLn]
  | .lrxDisable .. | .cmisDpdeinit .. => some [.clk, .evf, .glb, .hif, .hifGlb, .hlt, .hltLn, .leq, .lfr, .lrx, .ltx,
    .mgt, .optLn, .pwr, .pwrLn, .timLn]
  | .spiRead .. => some [.clk, .evf, .glb, .hif, .hifGlb, .hlt, .hltLn, .leq, .lfr, .lrx, .ltx, .mgt, .pwr, .pwrLn,
    .tim, .timLn]
  | .bootBistDone => some [.evf, .glb, .hif, .hifGlb, .hlt, .hltLn, .img, .leq, .lfr, .lrx, .ltx, .mgt, .optLn, .pwr,
    .pwrLn, .timLn]
  | .imgValidationDone .. => some [.evf, .glb, .hif, .hifGlb, .hlt, .hltLn, .img, .leq, .lfr, .lrx, .ltx, .mgt,
    .optLn, .pwrLn, .sec, .timLn]
  | .timestampEvent .. => some [.evf, .glb, .hif, .hifGlb, .hlt, .hltLn, .leq, .lfr, .lrx, .ltx, .mgt, .optLn,
    .pwrLn, .tim, .timHost, .timLn]
  | .bistDone .. => some [.arc, .arcCl, .evf, .glb, .hif, .hifGlb, .hlt, .hltLn, .leq, .lfr, .lrx, .ltx, .mgt,
    .optLn, .pwrLn, .sec, .timLn]
  | .imgValidate .. | .imgCommitFull .. | .imgCommitPartial .. | .imgAbort | .imgMakeBoot .. | .imgOpInvalid .. =>
    some [.arcCl, .clk, .evf, .glb, .hif, .hifGlb, .hlt, .hltLn, .img, .leq, .lfr, .lrx, .ltx, .mgt, .optLn, .pwrLn,
    .timLn]
  | .recoverExpiry => some [.arc, .arcCl, .evf, .glb, .hif, .hifGlb, .hlt, .hltLn, .leq, .lfr, .lrx, .ltx, .mgt,
    .optLn, .pwr, .pwrLn, .thm, .timLn]
  | .pcTableWrite | .thermalModelUpdate .. | .diodeMeasure .. | .aonDiodeCompare .. => some [.arc, .arcCl, .evf,
    .hif, .hifGlb, .hlt, .hltLn, .img, .leq, .lfr, .lrx, .ltx, .mgt, .optLn, .pwr, .pwrLn, .thm, .timLn]
  | .adcOverrange .. | .maskAverageEnd .. | .hostCdrLockInterval .. | .refBack | .refHoldExpiry | .pllLockWindow .. |
    .pllCalStart .. | .obiasConditionEvent .. | .faultSourceEvent .. => some [.arc, .clk, .evf, .glb, .hif, .hifGlb,
    .hlt, .hltLn, .leq, .lfr, .lrx, .ltx, .mgt, .optLn, .pll, .pwrLn, .tim, .timLn]
  | .codewordRelease .. => some [.arc, .arcCl, .clk, .evf, .glb, .hif, .hifGlb, .hlt, .hltLn, .leq, .lfr, .lrx, .ltx,
    .mgt, .optLn, .pll, .pwrLn, .tim, .timLn]
  | .restore => some [.arc, .arcCl, .clk, .evf, .glb, .hif, .hifGlb, .hlt, .hltLn, .leq, .lfr, .lrx, .ltx, .mgt,
    .optLn, .pwr, .pwrLn, .thm, .timLn]
  | .pmAlert | .supplyWarningStart .. => some [.arc, .clk, .evf, .glb, .hif, .hifGlb, .hlt, .hltLn, .leq, .lfr, .lrx,
    .ltx, .mgt, .optLn, .pll, .pwr, .pwrLn, .tim, .timLn]
  | .queueGrant .. | .codewordExpiry .. | .engineLoadDone .. | .engineIterationDone .. | .engineStopPoint .. |
    .microcodeEccError .. => some [.arc, .arcCl, .clk, .evf, .glb, .hif, .hifGlb, .hlt, .hltLn, .leq, .lfr, .lrx,
    .ltx, .mgt, .optLn, .pll, .pwr, .pwrLn, .tim, .timLn]
  | .codewordEnqueue .. => some [.arc, .arcCl, .clk, .evf, .glb, .hif, .hifGlb, .hlt, .hltLn, .img, .leq, .lfr, .lrx,
    .ltx, .mgt, .optLn, .pll, .pwr, .pwrLn, .tim, .timLn]
  | .bistStart .. => some [.arc, .arcCl, .clk, .evf, .glb, .hif, .hifGlb, .hlt, .hltLn, .leq, .lfr, .lrx, .ltx, .mgt,
    .optLn, .pll, .pwr, .pwrLn, .sec, .tim, .timLn]
  | .registerWrite .. | .intStatusClear .. | .intForceWrite .. | .expertOverrideWrite .. | .nvmLoadDone .. |
    .supplyReadyTimeout | .bootCommitDone .. | .voteCommitStep .. | .standbyWake .. | .supplyMonitorReset .. |
    .resetNAssert | .domainStaggerStep | .hltSrcCfgWrite .. | .windowWrite | .spiWrite .. | .cmisControlAct .. |
    .cmisLowpwrRequestSw .. | .msgRegWrite => none

/-- The commands that may write the NVM or its marks of the image slots. -/
def writesNvm (c : Instr) : Bool :=
  match c with
  | .nvmWriteDone .. | .flashWriteDone .. | .nvmLoadDone .. | .cdbStartFwDownload .. | .cdbCompleteFwDownload => true
  | _ => false

/-- DRV_ENn and LSR_ENn of every lane are as its transmit state has them: both low in OFF, CAL and FAULT, DRV_ENn alone high
in DRV_ON, both high in LSR_ON and ACTIVE; and no retained record holds one of the three (R173, R382). -/
def State.pinsFollow (s : State) : Prop :=
  s.retained.all (fun e => !([Field.ltxState, .ltxDrvEn, .ltxLsrEn].contains e.1.f)) = true ∧
    (List.range 8).all (fun n =>
      match s.rd .ltxState n with
      | 0 | 1 | 7 => !s.on .ltxDrvEn n && !s.on .ltxLsrEn n
      | 2 => s.on .ltxDrvEn n && !s.on .ltxLsrEn n
      | 3 | 4 => s.on .ltxDrvEn n && s.on .ltxLsrEn n
      | _ => true) = true

end Sys2Proof.Machine
end

