-- ==== Sys2Proof/Certificates/Slice0/Obligations.lean ====
section
/-!
DEFINITION. The statements for the provers. Each clause of a statement is about one command, the state before it and what
holds after it: under its hypotheses on the state and the operands, exec answers a next state of which the rest holds.
-/
open Sys2Proof Sys2Proof.Machine

/-- Where a command waits at the front of the queue, a step is that command's effect on the state with the rest of the
queue. With an empty queue and no TCK cycle waiting a step passes one cycle of the TIME clock: the count of cycles
advances by 1; with TIME off nothing else changes; with TIME on, no slew and no set waiting the time of day advances
by 2 ns, wrapping with its 48 bits of seconds, and nothing else changes; a set that TOD_SET_NOW took puts the TOD at
the written time, makes it valid, counts a step and ends the command with TOD_DONE. Where a tester gives a TCK cycle
and VDD_AON is present, the step of an empty queue takes it too: the registers are those of the clock cycle alone;
with TRST_N low the test controller is in Test-Logic-Reset with BYPASS, else it takes the state that TMS selects. That
an empty queue passes a cycle, and takes a TCK cycle, is the model's choice (log entries 1 and 54). From rules R8,
R285, R286, R440, R469. -/
def Obligations.StepServesQueue : Prop :=
  (∀ (c : Instr) (q : List Instr) (s : State), s.pending = c :: q → step s = exec c { s with pending := q }) ∧
  (∀ s : State, s.pending = [] → s.tck = [] → s.on .pwrDomTime = false → step s = .next { s with now := s.now + 1 }) ∧
  (∀ s : State, s.Inv → s.pending = [] → s.tck = [] → s.on .pwrDomTime = true → s.on .timSlewing = false →
    s.on .timTodPend = false → ∃ t, step s = .next t ∧
    t.todFull = (s.todFull + 2 ^ 41) % (2 ^ 48 * 1000000000 * 2 ^ 40) ∧ t.now = s.now + 1 ∧
    Changes { s with now := s.now + 1 } t 0 [.timTodNow, .timTodLow]) ∧
  (∀ s : State, s.Inv → s.pending = [] → s.tck = [] → s.on .pwrDomTime = true → s.on .timTodPend = true → ∃ t, step s = .next t ∧
    t.todFull = unpackTime (s.rd .timTodSet) * 2 ^ 24 % (2 ^ 48 * 1000000000 * 2 ^ 40) ∧ t.now = s.now + 1 ∧
    t.rd .timTodPend = 0 ∧ t.rd .timTodValid = 1 ∧ t.rd .timTodGo = 0 ∧ (t.rd .timIntStatus).testBit Irq.timTodDone = true ∧
    t.rd .timTodStepsCnt = min (s.rd .timTodStepsCnt + 1) (2 ^ Field.width .timTodStepsCnt - 1) ∧ OnlyIn [.tim, .timLn] s t) ∧
  (∀ (c : TckCycle) (rest : List TckCycle) (s : State), s.pending = [] → s.tck = c :: rest → s.unpowered = false →
    ∃ t, step s = .next t ∧ t.tck = rest ∧ t.regs = s.tick.regs ∧
    (c.trstN = false → t.tap.ctl = .reset ∧ t.tap.instr = .bypass) ∧ (c.trstN = true → t.tap.ctl = s.tap.ctl.next c.tms))

/-- At reset the queue and the event FIFO are empty, no domain runs, every transmit lane is in OFF with both enables
low and its bias output clamped, every line and host receiver and PLL is OFF, the device address of the host bus is
0x50, the thermal levels are 100, 105 and 115 °C, and the FIFO levels, the mailbox size and the event format have the
values of their register tables. The driver and laser enables are low, the optics outputs and the line outputs high
impedance, INT_N released and QSPI_CS_N high, as unpowered. From rules R173, R338, R394, R436, R450, R454, R477, R489,
R508. -/
def Obligations.ResetState : Prop :=
  State.reset.pending = [] ∧ State.reset.evf = [] ∧
  (∀ f ∈ [Field.pwrDomMgmt, .pwrDomTime, .pwrDomXbar, .pwrDomLane, .pwrDomDecode, .pwrDomHost], State.reset.rd f = 0) ∧
  (∀ n < 8, State.reset.rd .ltxState n = 0 ∧ State.reset.rd .ltxDrvEn n = 0 ∧ State.reset.rd .ltxLsrEn n = 0 ∧
    State.reset.rd .optLnClamp n = 1 ∧ State.reset.rd .lrxState n = 0) ∧
  (∀ h < 16, State.reset.rd .hifState h = 0) ∧ (∀ p < 5, State.reset.rd .pllState p = 0) ∧
  State.reset.rd .mgtHbAddr = 0x50 ∧ State.reset.rd .thmWarnC = 100 ∧ State.reset.rd .thmThrC = 105 ∧
  State.reset.rd .thmCritC = 115 ∧ State.reset.rd .evfHwm = 0x3000 ∧ State.reset.rd .evfLwm = 0x2000 ∧
  State.reset.rd .mgtMbxSize = 2 ∧ State.reset.rd .evfFormat = 1 ∧
  (∀ n : Fin 8, State.reset.pin (.drvEn n) = .low ∧ State.reset.pin (.lsrEn n) = .low ∧ State.reset.pin (.obias n) = .highZ ∧
    State.reset.pin (.omod n) = .highZ ∧ State.reset.pin (.oaux n) = .highZ ∧ State.reset.pin (.ltx n) = .highZ) ∧
  State.reset.pin .intN = .highZ ∧ State.reset.pin .qspiCsN = .high

/-- The state after reset has its stores in canonical form, one exchange per line lane, an event FIFO within its RAM,
and the transmit enables as the transmit states have them. From rules R173, R299, R450. -/
def Obligations.ResetInvariants : Prop :=
  State.reset.Inv ∧ State.reset.pinsFollow

/-- From every state whose stores and byte memories are in canonical form, with one exchange for each of the eight
line lanes and no more words in the event FIFO than its RAM holds, a step that answers a next state answers one with
the same properties. The canonical form is how the model holds state. From rules R17, R299, R450. -/
def Obligations.StepKeepsInvariant : Prop :=
  ∀ s t : State, s.Inv → step s = .next t → t.Inv

/-- In every state that meets the invariant, each field as read, as in use and as the NVM holds it, in every instance
and element, is below 2 to the power of its width. From rules R15, R17, R506. -/
def Obligations.FieldsKeepTheirWidth : Prop :=
  ∀ (s : State) (f : Field) (n i : Nat), s.Inv →
  s.rd f n i < 2 ^ f.width ∧ s.use f n i < 2 ^ f.width ∧ s.nvmGet f n i < 2 ^ f.width

/-- For every command and every state, the command answers a next state, neither a fault nor a refusal, and the queue
of waiting commands is the same there. From rules R16, R17, R440. -/
def Obligations.EveryCommandAnswers : Prop :=
  ∀ (c : Instr) (s : State), ∃ t, exec c s = .next t ∧ t.pending = s.pending

/-- For every command that the table of blocks names a list for, the fields of every block outside its list, as read
and as in use, in every instance and element, are the same after it. From rules R17, R505, R506. -/
def Obligations.CommandsStayInTheirBlocks : Prop :=
  ∀ (c : Instr) (s t : State) (l : List Block), touches c = some l → exec c s = .next t → OnlyIn l s t

/-- Every command except the ends of an NVM write, an NVM load and a flash write, and the start and the completion of
a firmware download, leaves the NVM, the marks of the image slots and the module-information region as they were. From
rules R446, R447, R463, R469, R471. -/
def Obligations.NvmWriters : Prop :=
  ∀ (c : Instr) (s t : State), writesNvm c = false → exec c s = .next t → SameNvm s t

/-- From every state in which, for each of the eight lanes, DRV_EN and LSR_EN are low in OFF, CAL and FAULT, DRV_EN
alone is high in DRV_ON, and both are high in LSR_ON and ACTIVE, and in which no retained record holds a transmit
state or one of these enables, every step to a next state keeps all of this. From rules R173, R178, R382. -/
def Obligations.TransmitEnablesFollowStates : Prop :=
  ∀ s t : State, s.Inv → s.pinsFollow → step s = .next t → t.pinsFollow

/-- Where the NVM load of power-up runs, the lifecycle state becomes the value that at least two of the three NVM
copies hold; where no two copies agree it becomes Scrapped (4) and LC_ERR is set. A register read of SEC_LC shows the
state in use in its STATE bits. Rule R460. -/
def Obligations.LifecycleStateOfTheCopies : Prop :=
  (∀ (l : NvmLoad) (s : State) (v : Nat), s.Inv → s.rd .pwrDevState = 6 → s.on .optGlbPuDone = false →
    s.on .glbResetLow = false → s.warning = false →
    2 ≤ ((List.range 3).filter (fun i => s.nvmGet .secLcState 0 i == v)).length →
    ∃ t, exec (.nvmLoadDone l) s = .next t ∧ t.rd .secLcState = v) ∧
  (∀ (l : NvmLoad) (s : State), s.rd .pwrDevState = 6 → s.on .optGlbPuDone = false → s.on .glbResetLow = false →
    s.warning = false → s.nvmGet .secLcState 0 0 ≠ s.nvmGet .secLcState 0 1 →
    s.nvmGet .secLcState 0 0 ≠ s.nvmGet .secLcState 0 2 → s.nvmGet .secLcState 0 1 ≠ s.nvmGet .secLcState 0 2 →
    ∃ t, exec (.nvmLoadDone l) s = .next t ∧ t.rd .secLcState = 4 ∧ t.rd .secLcErr = 1) ∧
  (∀ s : State, s.Inv → s.on .pwrDomMgmt = true →
    ∃ t, exec (.snapshotRead 0x900000) s = .next t ∧ t.answer.map (fun w => w % 8) = [s.rd .secLcState])

/-- A debounced low DRV_FLT of a lane whose DRV_EN is low changes nothing. With DRV_EN high it increments DRV_FLT_CNT,
which saturates, and sets DRV_FLT; in DRV_ON, LSR_ON or ACTIVE the lane goes to FAULT, with cause DRV_FAULT unless the
fault window of transmit faults acts on the lane at once; in another state the lane's state stays. Rule R179. -/
def Obligations.DriverFaultMonitor : Prop :=
  ∀ (n : Lane) (s : State),
  (s.on .ltxDrvEn n = false → exec (.drvFault n) s = .next s) ∧
  (s.on .ltxDrvEn n = true → ∃ t, exec (.drvFault n) s = .next t ∧
    t.rd .ltxDrvFltCnt n = min (s.rd .ltxDrvFltCnt n + 1) (2 ^ Field.width .ltxDrvFltCnt - 1) ∧
    (t.rd .ltxIntStatus n).testBit Irq.ltxDrvFlt = true ∧
    (2 ≤ s.rd .ltxState n → s.rd .ltxState n ≤ 4 →
      t.rd .ltxState n = 7 ∧ (s.rd .hltAction 0 8 ≤ 1 → t.rd .ltxFaultCause n = 2)) ∧
    (s.rd .ltxState n < 2 ∨ 4 < s.rd .ltxState n → t.rd .ltxState n = s.rd .ltxState n))

/-- After RESET_N_ASSERT, and after SUPPLY_MONITOR_RESET of any monitored rail at a level below 88 % of its nominal,
no lane has a retention record for its receiver, its equaliser or its transmitter, no host lane has one, no field is
retained, no image is recorded, and RET_VALID reads 0. Rule R383. -/
def Obligations.ResetDiscardsRetention : Prop :=
  ∀ (c : Instr) (rail : Fin 7) (s : State), c = .resetNAssert ∨
    (∃ mv : BitVec 12, c = .supplyMonitorReset rail mv ∧ s.monitored rail = true ∧ 100 * mv.toNat < 88 * s.monitorMv rail) →
  ∃ t, exec c s = .next t ∧ (∀ n < 8, t.rd .pwrRecLrx n = 0 ∧ t.rd .pwrRecLeq n = 0 ∧ t.rd .pwrRecLtx n = 0) ∧
    t.rd .pwrRecHif = 0 ∧ t.retained = [] ∧ t.imgRecord = none ∧ t.view .pwrRetValid 0 0 = 0

/-- For every 16 service bits and every payload, the word that the encoder forms has 256 blocks, meets all 240 checks
of the parity-check matrix, carries the service bits in block 0 and the payload bits in blocks 1 to 240; and
scrambling a word of 480 payload bits of any codeword twice gives its bits back. From rules R191, R192, R193, R194. -/
def Obligations.CodeACodewords : Prop :=
  (∀ svc payload : Nat, (encodeA svc payload).length = 256 ∧ syndromeZero (encodeA svc payload) = true ∧
    (encodeA svc payload).getD 0 0 = svc % 65536 ∧ payloadOf (encodeA svc payload) = payload % 2 ^ 3840) ∧
  (∀ index i data : Nat, scrambleWord index i (scrambleWord index i data) = data % 2 ^ 480)

/-- On a lane whose registers the access reaches: ENABLE written 1 takes a free lane in OFF, not under test and not
held off, to CAL with the CDR unlocked and no frame lock, and changes nothing on a lane that a failed test holds off;
ENABLE written 0 takes the lane to OFF from any state and clears the fault cause, the attempts and the lasting faults;
RESTART of a lane not under test sends it, in traffic or in FAULT other than by slice failure, to ACQUIRE where both
its PLLs run, else to CAL, with its attempts at 0, and changes nothing in any other state. It concludes, from
conditions on the state and the operands alone, that exec answers a next state with the command's own effect, of:
lrxEnable, lrxDisable, lrxRestart. From rules R112, R119, R413, R420, R423. -/
def Obligations.LaneReceiveEnableDisable : Prop :=
  (∀ (n : Lane) (s : State), s.reaches .lrx n → s.underTest 1 n = false → s.underTest 4 n = false →
    s.on .lrxHeldOff n = false → s.laneFree n = true → s.rd .lrxState n = 0 → ∃ t, exec (.lrxEnable n) s = .next t ∧
      t.rd .lrxEnable n = 1 ∧ t.rd .lrxState n = 1 ∧ t.rd .lrxCdrLock n = 0 ∧ t.rd .lrxAcqPhase n = 0 ∧
      t.rd .lfrFrameLock n = 0 ∧ t.nvm = s.nvm) ∧
  (∀ (n : Lane) (s : State), s.reaches .lrx n → s.underTest 1 n = false → s.underTest 4 n = false →
    s.on .lrxHeldOff n = true → exec (.lrxEnable n) s = .next s) ∧
  (∀ (n : Lane) (s : State), s.reaches .lrx n → ∃ t, exec (.lrxDisable n) s = .next t ∧
      t.rd .lrxEnable n = 0 ∧ t.rd .lrxState n = 0 ∧ t.rd .lrxFaultCause n = 0 ∧ t.rd .lrxRetry n = 0 ∧
      t.rd .lrxCdrLock n = 0 ∧ (∀ k ∈ List.range 7, (t.rd .hltSrcLasting 0 k).testBit n = false)) ∧
  (∀ (n : Lane) (s : State), s.reaches .lrx n → s.underTest 1 n = false → s.underTest 4 n = false →
    (s.lrxInTraffic n = true ∨ (s.rd .lrxState n = 7 ∧ s.rd .lrxFaultCause n ≠ 9)) → s.rxPlls n = true →
    ∃ t, exec (.lrxRestart n) s = .next t ∧
      t.rd .lrxState n = 2 ∧
      (t.rd .lrxAcqPhase n = (if s.on .lrxSd n = true ∧ s.on .lfrNoRate n = false then 1 else 0)) ∧
      t.rd .lrxRetry n = 0 ∧ t.rd .lrxSleep n = 0 ∧ (s.rd .lrxState n = 7 → t.rd .lrxFaultCause n = 0)) ∧
  (∀ (n : Lane) (s : State), s.reaches .lrx n → s.underTest 1 n = false → s.underTest 4 n = false →
    (s.lrxInTraffic n = true ∨ (s.rd .lrxState n = 7 ∧ s.rd .lrxFaultCause n ≠ 9)) → s.rxPlls n = false →
    ∃ t, exec (.lrxRestart n) s = .next t ∧
      t.rd .lrxState n = 1 ∧ t.rd .lrxRetry n = 0 ∧ t.rd .lrxCdrLock n = 0) ∧
  (∀ (n : Lane) (s : State), s.reaches .lrx n → s.underTest 1 n = false → s.underTest 4 n = false →
    s.lrxInTraffic n = false → (s.rd .lrxState n = 7 → s.rd .lrxFaultCause n = 9) → exec (.lrxRestart n) s = .next s)

/-- LRX_CAL_DONE in CAL with the line and core PLLs running and corrections valid or within limits enters ACQUIRE,
with the offset DAC at the code of the initialisation unless a retained record holds it. LRX_CAL_TIMEOUT in CAL, where
the fault window of its source does not act on the lane at once, enters FAULT with cause 1. LRX_COMMIT waits for a
receive boundary where the grid runs and applies every shadowed field at once elsewhere. A spare within the limits of
R96 readies its swap with its corrections, deferred where the supply warning stands; a deferred swap that expires is
discarded. RX_SLEEP_WAKE starts the wake steps of a sleeping lane; a resume that succeeds, in Nap with a sound record,
ends the sleep in the state before it; one that fails counts and restarts at AGC from Nap, at CDR from Doze. It
concludes, from conditions on the state and the operands alone, that exec answers a next state with the command's own
effect, of: lrxCalDone, lrxCalTimeout, lrxCommit, adcShadowDone, swapDeferExpiry, rxSleepWake, rxResumeDone. From
rules R96, R97, R98, R112, R116, R121, R124, R127. -/
def Obligations.LaneReceiveCalibrationAndSleep : Prop :=
  (∀ (n : Lane) (est : List SliceEst) (ofs : BitVec 8) (linRx : BitVec 1024) (linTx : BitVec 1024) (s : State),
    s.rd .lrxState n = 1 → s.rxPlls n = true →
    ((s.on .lrxMapValid n || s.on .lrxRecValid n) = true ∨ ∀ e ∈ est, sliceOk e.offset e.gain e.skew = true) →
    ∃ t, exec (.lrxCalDone n est ofs linRx linTx) s = .next t ∧
      t.rd .lrxState n = 2 ∧ t.rd .lrxMapValid n = 1 ∧ t.rd .lrxRecValid n = 0 ∧
      (t.rd .lrxAcqPhase n = (if s.on .lrxSd n = true ∧ s.on .lfrNoRate n = false then 1 else 0)) ∧
      (s.on .lrxRecValid n = false → t.rdInt .lrxOfsCode n = ofs.toInt)) ∧
  (∀ (n : Lane) (s : State), s.rd .lrxState n = 1 → s.rd .hltAction 0 3 ≤ 1 →
    ∃ t, exec (.lrxCalTimeout n) s = .next t ∧
      t.rd .lrxState n = 7 ∧ t.rd .lrxFaultCause n = 1 ∧ (t.rd .lrxIntStatus n).testBit Irq.lrxFault = true ∧
      t.rd .lfrFrameLock n = 0) ∧
  (∀ (n : Lane) (s : State), s.reaches .lrx n → s.underTest 1 n = false → s.underTest 4 n = false →
    s.rxGrid n = true → ∃ t, exec (.lrxCommit n) s = .next t ∧
      t.rd .lrxCommit n = 1 ∧ Changes s t n [.lrxCommit]) ∧
  (∀ (n : Lane) (s : State), s.Inv → s.reaches .lrx n → s.underTest 1 n = false → s.underTest 4 n = false →
    s.rxGrid n = false → ∃ t, exec (.lrxCommit n) s = .next t ∧
      t.rd .lrxCommit n = 0 ∧ (∀ f ∈ lrxShadowed, t.use f n = s.rd f n)) ∧
  (∀ (n : Lane) (offset : Int) (gain : Int) (skew : Int) (s : State), s.on .lrxCalActive n = true →
    s.on .lrxSwapReady n = false → sliceOk offset gain skew = true →
    ∃ t, exec (.adcShadowDone n offset gain skew) s = .next t ∧
      t.rd .lrxSwapReady n = 1 ∧ t.rdInt .lrxNewOfs n = clampInt (-128) 127 offset ∧
      t.rdInt .lrxNewGain n = clampInt (-512) 511 gain ∧ t.rdInt .lrxNewSkew n = clampInt (-512) 511 skew ∧
      t.rd .lrxSwapDeferred n = bit s.warning ∧
      Changes s t n [.lrxSwapReady, .lrxSwapDeferred, .lrxNewOfs, .lrxNewGain, .lrxNewSkew]) ∧
  (∀ (n : Lane) (tx : Bool) (s : State), (tx = true → s.on .ltxSwapDeferred n = true) →
    (tx = false → s.on .lrxSwapDeferred n = true) → ∃ t, exec (.swapDeferExpiry n tx) s = .next t ∧
      (t.rd (if tx then .ltxSwapReady else .lrxSwapReady) n = 0) ∧
      (t.rd (if tx then .ltxSwapDeferred else .lrxSwapDeferred) n = 0) ∧
      (Changes s t n (if tx then [.ltxSwapReady, .ltxSwapDeferred] else [.lrxSwapReady, .lrxSwapDeferred]))) ∧
  (∀ (n : Lane) (s : State), s.on .lrxSleep n = true → ∃ t, exec (.rxSleepWake n) s = .next t ∧
      t.rd .lrxWakeRun n = 1 ∧ Changes s t n [.lrxWakeRun]) ∧
  (∀ (n : Lane) (ok : Bool) (recOk : Bool) (s : State), s.on .lrxSleep n = true → s.on .lrxWakeRun n = true →
    ok = true → (s.rd .pwrLnLrxPstate n = 5 → recOk = true) → ∃ t, exec (.rxResumeDone n ok recOk) s = .next t ∧
      t.rd .lrxSleep n = 0 ∧ t.rd .lrxWakeRun n = 0 ∧ t.rd .pwrLnLrxPstate n = 0 ∧
      t.rd .lrxState n = s.rd .lrxState n ∧ OnlyIn [.lrx, .pwrLn, .leq] s t) ∧
  (∀ (n : Lane) (ok : Bool) (recOk : Bool) (s : State), s.on .lrxSleep n = true → s.on .lrxWakeRun n = true →
    ok = false → (s.rd .pwrLnLrxPstate n = 5 → recOk = true) → ∃ t, exec (.rxResumeDone n ok recOk) s = .next t ∧
      t.rd .lrxState n = 2 ∧ (t.rd .lrxAcqPhase n = (if s.rd .pwrLnLrxPstate n = 5 then 1 else 2)) ∧
      t.rd .lrxWarmFailCnt n = min (s.rd .lrxWarmFailCnt n + 1) (2 ^ Field.width .lrxWarmFailCnt - 1))

/-- A rise of SD of a powered comparator sets SD and SD_ASSERT, and starts AGC on a lane that waits for it at a
permitted rate, awake, outside Standby; a fall of SD clears it, and takes a lane in traffic that does not sleep back
to WAIT_SD, counted in SD_LOSS_CNT. A wake pattern sets WAKE_PAT and leaves the lane's state where the comparator is
powered, and changes nothing where it is not; an over-range cycle out of OFF and CAL counts, in OFF and CAL it changes
nothing. An awake lane in LOCKED with codewords released, a valid ledger, its host lanes transmit-ready and SERVICE_EN
enters SERVICE; a frame boundary with SERVICE_EN cleared returns an awake lane from SERVICE to LOCKED; either changes
registers of the receiver, the event FIFO and management alone. It concludes, from conditions on the state and the
operands alone, that exec answers a next state with the command's own effect, of: sdAssert, sdDeassert,
wakePatternDetect, adcOverrange, lockedToService, serviceExit. From rules R101, R108, R109, R110, R113, R116, R120. -/
def Obligations.LaneReceiveSignalAndService : Prop :=
  (∀ (n : Lane) (s : State), s.sdPowered n = true → s.on .lrxSd n = false → s.rd .lrxState n = 2 →
    s.rd .lrxAcqPhase n = 0 → s.ratePermitted n = true → s.on .lrxSleep n = false → s.rd .pwrDevState ≠ 1 →
    s.rd .pwrDevState ≠ 2 → ∃ t, exec (.sdAssert n) s = .next t ∧
      t.rd .lrxSd n = 1 ∧ (t.rd .lrxIntStatus n).testBit Irq.lrxSdAssert = true ∧ t.rd .lrxState n = 2 ∧
      t.rd .lrxAcqPhase n = 1 ∧ t.rd .lrxCdrFreq n = 0) ∧
  (∀ (n : Lane) (s : State), s.sdPowered n = true → s.on .lrxSd n = false → ∃ t, exec (.sdAssert n) s = .next t ∧
      t.rd .lrxSd n = 1 ∧ (t.rd .lrxIntStatus n).testBit Irq.lrxSdAssert = true) ∧
  (∀ (n : Lane) (s : State), s.on .lrxSd n = true → ∃ t, exec (.sdDeassert n) s = .next t ∧
      t.rd .lrxSd n = 0) ∧
  (∀ (n : Lane) (s : State), s.on .lrxSd n = true → s.on .lrxSleep n = false → s.lrxInTraffic n = true →
    ∃ t, exec (.sdDeassert n) s = .next t ∧
      t.rd .lrxSd n = 0 ∧ t.rd .lrxState n = 2 ∧ t.rd .lrxAcqPhase n = 0 ∧
      t.rd .lrxSdLossCnt n = min (s.rd .lrxSdLossCnt n + 1) (2 ^ Field.width .lrxSdLossCnt - 1) ∧
      (t.rd .lrxIntStatus n).testBit Irq.lrxSdLoss = true) ∧
  (∀ (n : Lane) (s : State), s.sdPowered n = true → ∃ t, exec (.wakePatternDetect n) s = .next t ∧
      (t.rd .lrxIntStatus n).testBit Irq.lrxWakePat = true ∧ t.rd .lrxState n = s.rd .lrxState n) ∧
  (∀ (n : Lane) (s : State), s.sdPowered n = false → exec (.wakePatternDetect n) s = .next s) ∧
  (∀ (n : Lane) (s : State), 2 ≤ s.rd .lrxState n → ∃ t, exec (.adcOverrange n) s = .next t ∧
      t.rd .lrxOvrCnt n = min (s.rd .lrxOvrCnt n + 1) (2 ^ Field.width .lrxOvrCnt - 1)) ∧
  (∀ (n : Lane) (s : State), s.rd .lrxState n ≤ 1 → exec (.adcOverrange n) s = .next s) ∧
  (∀ (n : Lane) (s : State), s.rd .lrxState n = 4 → s.on .lrxSleep n = false → s.on .lrxReleased n = true →
    (s.rd .timLnLedFlags n).testBit 0 = true → (s.activeHosts n).all (fun h => s.on .hifTxReady h) = true →
    s.on .lrxServiceEn n = true → ∃ t, exec (.lockedToService n) s = .next t ∧
      t.rd .lrxState n = 5 ∧ OnlyIn [.lrx, .mgt, .evf] s t) ∧
  (∀ (n : Lane) (s : State), s.rd .lrxState n = 5 → s.on .lrxSleep n = false → s.on .lrxServiceEn n = false →
    ∃ t, exec (.serviceExit n) s = .next t ∧
      t.rd .lrxState n = 4 ∧ OnlyIn [.lrx, .mgt, .evf] s t)

/-- In the AGC sub-phase of an awake lane a level window in RUN more than 0.5 dB off the target moves the VGA code by
the step of R89, within its range, and stores LEVEL. In traffic a trim step that is enabled, due, within TRIM_RANGE
and not below supply warning waits for the boundary. In the CDR sub-phase of an awake lane the eighth quiet interval
in range of the unlocked loop locks the CDR and ends the sub-phase, an earlier one counts, any other restarts the
count. A sub-phase timeout with attempts left counts and restarts at AGC; with none left it enters FAULT with the
sub-phase's cause, and a TRAIN timeout enters FAULT with cause 6, where the fault window does not act on the lane at
once. The automatic restart leaves FAULT for ACQUIRE where the PLLs run, for CAL after a calibration timeout. It
concludes, from conditions on the state and the operands alone, that exec answers a next state with the command's own
effect, of: agcWindow, agcTrimStep, cdrLockInterval, acqTimeout, trainTimeout, lrxFaultAutoRestart. From rules R87,
R89, R90, R91, R105, R106, R113, R114, R115, R118. -/
def Obligations.LaneReceiveAcquisition : Prop :=
  (∀ (n : Lane) (level : Nat) (ofsStep : Int) (s : State), s.rd .lrxState n = 2 → s.on .lrxSleep n = false →
    s.rd .lrxAcqPhase n = 1 → s.rd .lrxAgcState n = 0 →
    (levelErr (level % 65536) (s.use .lrxAgcTarget n)).natAbs ≥ 129 →
    ∃ t, exec (.agcWindow n level ofsStep) s = .next t ∧
      t.rd .lrxLevel n = level % 65536 ∧
      t.rd .lrxVgaCode n = (clampInt 0 192 ((s.rd .lrxVgaCode n : Int) - agcStep (levelErr (level % 65536) (s.use
        .lrxAgcTarget n)) (s.use .lrxAgcSh n))).toNat % 256 ∧ t.rd .lrxGoodWin n = 0 ∧ t.rd .lrxAcqPhase n = 1 ∧
      OnlyIn [.lrx] s t) ∧
  (∀ (n : Lane) (avgErr : Int) (s : State), s.lrxInTraffic n = true → s.rd .lrxAgcState n = 2 →
    s.on .lrxSleep n = false → s.use .lrxTrimEn n ≠ 0 → s.warning = false → 64 < avgErr.natAbs →
    (2 * (s.rdInt .lrxTrim n + (if 0 < avgErr then -1 else 1)).natAbs ≤ s.use .lrxTrimRange n) →
    ∃ t, exec (.agcTrimStep n avgErr) s = .next t ∧
      (t.rd .lrxTrimStep n = (if 0 < avgErr then 2 else 1)) ∧ Changes s t n [.lrxTrimStep]) ∧
  (∀ (n : Lane) (errs : List Int) (s : State), s.rd .lrxState n = 2 → s.rd .lrxAcqPhase n = 2 →
    s.on .lrxSleep n = false → s.on .lrxCdrLock n = false →
    ((cdrInRange lineUi ((CdrLoop.run (s.cdrGains n).1 (s.cdrGains n).2 ⟨s.rdInt .lrxCdrInt n, 0, 0,
      0⟩ 1450 (if s.use .lrxCdrHold n ≠ 0 then [] else errs)).integ) && cdrQuiet lineUi (s.rdInt .lrxCdrInt n)
      ((CdrLoop.run (s.cdrGains n).1 (s.cdrGains n).2 ⟨s.rdInt .lrxCdrInt n, 0, 0,
      0⟩ 1450 (if s.use .lrxCdrHold n ≠ 0 then [] else errs)).integ)) = true) → 7 ≤ s.rd .lrxQuietInt n →
    ∃ t, exec (.cdrLockInterval n errs) s = .next t ∧
      t.rd .lrxCdrLock n = 1 ∧ t.rd .lrxState n = 2 ∧ t.rd .lrxAcqPhase n = 3 ∧ t.rd .lrxQuietInt n = 0) ∧
  (∀ (n : Lane) (errs : List Int) (s : State), s.rd .lrxState n = 2 → s.rd .lrxAcqPhase n = 2 →
    s.on .lrxSleep n = false → s.on .lrxCdrLock n = false →
    ((cdrInRange lineUi ((CdrLoop.run (s.cdrGains n).1 (s.cdrGains n).2 ⟨s.rdInt .lrxCdrInt n, 0, 0,
      0⟩ 1450 (if s.use .lrxCdrHold n ≠ 0 then [] else errs)).integ) && cdrQuiet lineUi (s.rdInt .lrxCdrInt n)
      ((CdrLoop.run (s.cdrGains n).1 (s.cdrGains n).2 ⟨s.rdInt .lrxCdrInt n, 0, 0,
      0⟩ 1450 (if s.use .lrxCdrHold n ≠ 0 then [] else errs)).integ)) = true) → s.rd .lrxQuietInt n < 7 →
    ∃ t, exec (.cdrLockInterval n errs) s = .next t ∧
      t.rd .lrxQuietInt n = s.rd .lrxQuietInt n + 1 ∧
      Changes s t n [.lrxQuietInt, .lrxCdrFreq, .lrxCdrPhase, .lrxCdrInt, .lrxCdrAcc]) ∧
  (∀ (n : Lane) (errs : List Int) (s : State), s.rd .lrxState n = 2 → s.rd .lrxAcqPhase n = 2 →
    s.on .lrxSleep n = false → s.on .lrxCdrLock n = false →
    ((cdrInRange lineUi ((CdrLoop.run (s.cdrGains n).1 (s.cdrGains n).2 ⟨s.rdInt .lrxCdrInt n, 0, 0,
      0⟩ 1450 (if s.use .lrxCdrHold n ≠ 0 then [] else errs)).integ) && cdrQuiet lineUi (s.rdInt .lrxCdrInt n)
      ((CdrLoop.run (s.cdrGains n).1 (s.cdrGains n).2 ⟨s.rdInt .lrxCdrInt n, 0, 0,
      0⟩ 1450 (if s.use .lrxCdrHold n ≠ 0 then [] else errs)).integ)) = false) →
    ∃ t, exec (.cdrLockInterval n errs) s = .next t ∧
      t.rd .lrxQuietInt n = 0 ∧ Changes s t n [.lrxQuietInt, .lrxCdrFreq, .lrxCdrPhase, .lrxCdrInt, .lrxCdrAcc]) ∧
  (∀ (n : Lane) (phase : Fin 5) (s : State), s.rd .lrxState n = 2 → phase.val ≠ 0 → s.rd .lrxAcqPhase n = phase.val →
    s.rd .lrxRetry n < s.rd .lrxRetryMax n → ∃ t, exec (.acqTimeout n phase) s = .next t ∧
      t.rd .lrxState n = 2 ∧ t.rd .lrxAcqPhase n = 1 ∧
      t.rd .lrxRetry n = (s.rd .lrxRetry n + 1) % 2 ^ Field.width .lrxRetry ∧
      t.rd .lrxAcqRetryCnt n = min (s.rd .lrxAcqRetryCnt n + 1) (2 ^ Field.width .lrxAcqRetryCnt - 1)) ∧
  (∀ (n : Lane) (phase : Fin 5) (s : State), s.rd .lrxState n = 2 → phase.val ≠ 0 → s.rd .lrxAcqPhase n = phase.val →
    s.rd .lrxRetryMax n ≤ s.rd .lrxRetry n → s.rd .hltAction 0 3 ≤ 1 → ∃ t, exec (.acqTimeout n phase) s = .next t ∧
      t.rd .lrxState n = 7 ∧ t.rd .lrxFaultCause n = phase.val + 1) ∧
  (∀ (n : Lane) (s : State), s.rd .lrxState n = 3 → s.rd .hltAction 0 3 ≤ 1 →
    ∃ t, exec (.trainTimeout n) s = .next t ∧
      t.rd .lrxState n = 7 ∧ t.rd .lrxFaultCause n = 6 ∧ (t.rd .lrxIntStatus n).testBit Irq.lrxFault = true) ∧
  (∀ (n : Lane) (s : State), s.rd .lrxState n = 7 → s.on .lrxRestartArm n = true → s.on .lrxAutoRestart n = true →
    s.rd .lrxFaultCause n ≠ 1 → s.rxPlls n = true → ∃ t, exec (.lrxFaultAutoRestart n) s = .next t ∧
      t.rd .lrxState n = 2 ∧ t.rd .lrxFaultCause n = 0 ∧ t.rd .lrxRetry n = 0) ∧
  (∀ (n : Lane) (s : State), s.rd .lrxState n = 7 → s.on .lrxRestartArm n = true → s.on .lrxAutoRestart n = true →
    s.rd .lrxFaultCause n = 1 → ∃ t, exec (.lrxFaultAutoRestart n) s = .next t ∧
      t.rd .lrxState n = 1 ∧ t.rd .lrxFaultCause n = 0)

/-- LEQ_COMMIT waits for a receive boundary where the grid runs, is held below warning with COMMIT_HELD, and applies
every shadowed field at once elsewhere; COEF_SNAP waits likewise where the grid runs and else copies the live taps and
d1 at once; HIST_START clears the 128 bins and starts a capture, and in OFF changes nothing; HIST_DONE of a running
capture stores the 128 counts, saturated, and sets HIST_DONE. A DD update that nothing holds, in DD, moves every tap
that is not frozen, other than the cursor c9, by the rounded accumulator, to wait for a boundary; in another mode it
resumes DD; one that is held, out of FAULT, enters HELD and records HOLD_CAUSE. A window of an awake lane in an
equaliser sub-phase of ACQUIRE stores MSE and a valid FOM; in TRAIN it locks the lane where negotiation is DONE on the
group with equal results and FOM reaches the threshold; an error burst counts. It concludes, from conditions on the
state and the operands alone, that exec answers a next state with the command's own effect, of: leqCommit, coefSnap,
histStart, histDone, leqAdaptUpdate, fomWindowEnd, dfeBurst. From rules R130, R133, R138, R140, R142, R143, R144,
R151, R153, R155, R157, R212. -/
def Obligations.LineEqualiser : Prop :=
  (∀ (n : Lane) (s : State), s.reaches .leq n → s.underTest 1 n = false → s.underTest 4 n = false →
    s.warning = false → s.rxGrid n = true → ∃ t, exec (.leqCommit n) s = .next t ∧
      t.rd .leqCommit n = 1 ∧ Changes s t n [.leqCommit]) ∧
  (∀ (n : Lane) (s : State), s.reaches .leq n → s.underTest 1 n = false → s.underTest 4 n = false →
    s.warning = true → ∃ t, exec (.leqCommit n) s = .next t ∧
      t.rd .leqCommit n = 1 ∧ (t.rd .leqIntStatus n).testBit Irq.leqCommitHeld = true ∧
      Changes s t n [.leqCommit, .leqIntStatus]) ∧
  (∀ (n : Lane) (s : State), s.Inv → s.reaches .leq n → s.underTest 1 n = false → s.underTest 4 n = false →
    s.warning = false → s.rxGrid n = false → ∃ t, exec (.leqCommit n) s = .next t ∧
      t.rd .leqCommit n = 0 ∧ (∀ f ∈ leqShadowed, t.use f n = s.rd f n) ∧ OnlyIn [.leq] s t) ∧
  (∀ (n : Lane) (s : State), s.reaches .leq n → s.rxGrid n = true → ∃ t, exec (.coefSnap n) s = .next t ∧
      t.rd .leqCoefSnap n = 1 ∧ Changes s t n [.leqCoefSnap]) ∧
  (∀ (n : Lane) (s : State), s.reaches .leq n → s.rxGrid n = false → ∃ t, exec (.coefSnap n) s = .next t ∧
      (∀ i ∈ tapIndices, t.rd .leqTapCoef n i = s.rd .leqTapLive n i % 2 ^ Field.width .leqTapCoef) ∧
      t.rd .leqD1 n = s.rd .leqD1Live n % 2 ^ Field.width .leqD1 ∧ t.rd .leqCoefSnap n = 0 ∧
      Changes s t n [.leqTapCoef, .leqD1, .leqAtLimit, .leqCoefSnap]) ∧
  (∀ (n : Lane) (s : State), s.reaches .leq n → s.rd .lrxState n ≠ 0 → ∃ t, exec (.histStart n) s = .next t ∧
      t.rd .leqHistRun n = 1 ∧ t.rd .leqHistDone n = 0 ∧ (∀ b ∈ List.range 128, t.rd .leqHist n b = 0) ∧
      t.rd .leqHistStart n = 1 ∧ Changes s t n [.leqHist, .leqHistRun, .leqHistStart, .leqHistSrcRun, .leqHistDone]) ∧
  (∀ (n : Lane) (s : State), s.reaches .leq n → s.rd .lrxState n = 0 → exec (.histStart n) s = .next s) ∧
  (∀ (n : Lane) (bins : List Nat) (s : State), s.on .leqHistRun n = true → ∃ t, exec (.histDone n bins) s = .next t ∧
      t.rd .leqHistRun n = 0 ∧ t.rd .leqHistDone n = 1 ∧
      (∀ b ∈ List.range 128, t.rd .leqHist n b = min (bins.getD b 0) (2 ^ 32 - 1)) ∧
      (t.rd .leqIntStatus n).testBit Irq.leqHistDone = true ∧
      Changes s t n [.leqHist, .leqHistRun, .leqHistStart, .leqHistDone, .leqIntStatus]) ∧
  (∀ (n : Lane) (accs : List Int) (accD : Int) (s : State), s.leqDd n = true → s.leqHold n = 0 →
    s.rd .leqMode n = 2 → ∃ t, exec (.leqAdaptUpdate n accs accD) s = .next t ∧
      t.rd .leqAdaptPend n = 1 ∧
      (∀ i ∈ tapIndices, t.rdInt .leqTapDelta n i = (if s.use .leqTapFreeze n i ≠ 0 ∨ i =
        9 then s.rdInt .leqTapDelta n i else signedOf (Field.width .leqTapDelta) (ofSigned (Field.width .leqTapDelta)
        (s.rdInt .leqTapDelta n i - roundHalfAway (accs.getD i 0) (2 ^ s.use .leqMuShDd n))))) ∧
      Changes s t n [.leqTapDelta, .leqD1Delta, .leqAdaptPend]) ∧
  (∀ (n : Lane) (accs : List Int) (accD : Int) (s : State), s.leqDd n = true → s.leqHold n ≠ 0 →
    s.rd .lrxState n ≠ 7 → ∃ t, exec (.leqAdaptUpdate n accs accD) s = .next t ∧
      t.rd .leqMode n = 3 ∧ t.rd .leqHoldCause n = s.leqHold n ∧ Changes s t n [.leqMode, .leqHoldCause]) ∧
  (∀ (n : Lane) (accs : List Int) (accD : Int) (s : State), s.leqDd n = true → s.leqHold n = 0 →
    s.rd .leqMode n ≠ 2 → ∃ t, exec (.leqAdaptUpdate n accs accD) s = .next t ∧
      t.rd .leqMode n = 2 ∧ t.rd .leqHoldCause n = 0 ∧ Changes s t n [.leqMode, .leqHoldCause]) ∧
  (∀ (n : Lane) (mse : Nat) (levels : List LevelStat) (s : State), s.rd .lrxState n = 2 → 3 ≤ s.rd .lrxAcqPhase n →
    s.on .lrxSleep n = false → fomExact (min mse (2 ^ 24 - 1)) = true →
    ∃ t, exec (.fomWindowEnd n mse levels) s = .next t ∧
      t.rd .leqMse n = min mse (2 ^ 24 - 1) ∧ t.rd .leqFom n = min (fomFloor (min mse (2 ^ 24 - 1))) 65535 ∧
      t.rd .leqFomValid n = 1 ∧ t.rd .lrxState n = 2) ∧
  (∀ (n : Lane) (mse : Nat) (levels : List LevelStat) (s : State), s.rd .lrxState n = 3 → s.on .lrxSleep n = false →
    fomExact (min mse (2 ^ 24 - 1)) = true →
    (s.groupOf n).lanes.all (fun k => s.rd .lfrNegState k = 3 && s.negWord k == s.negWord n) = true →
    s.fomLock n ≤ min (fomFloor (min mse (2 ^ 24 - 1))) 65535 → ∃ t, exec (.fomWindowEnd n mse levels) s = .next t ∧
      t.rd .lrxState n = 4 ∧ t.rd .leqFom n = min (fomFloor (min mse (2 ^ 24 - 1))) 65535 ∧ t.rd .lrxProfApply n = 1 ∧
      t.rd .lrxReleased n = 0) ∧
  (∀ (n : Lane) (s : State), True → ∃ t, exec (.dfeBurst n) s = .next t ∧
      t.rd .leqDfeBurstCnt n = min (s.rd .leqDfeBurstCnt n + 1) (2 ^ Field.width .leqDfeBurstCnt - 1) ∧
      Changes s t n [.leqDfeBurstCnt])

/-- On a lane whose registers the access reaches, TX_EN written 1 in OFF, of a lane not under test or held off, with
the line receiver in OFF, is recorded and waits with the reasons of R174; on a lane that a failed test holds off it
changes nothing. TX_ENABLE_GO in CAL with TX_EN, no reason left and no test of its control pins enters DRV_ON muted
with DRV_EN granted; where the envelope refuses it enters FAULT with cause 5 and both pins low. DRV_SETTLE_EXPIRY in
DRV_ON with DRV_FLT high and the envelope's grant gets LSR_EN and the bias ramp in LSR_ON; with DRV_FLT low it enters
FAULT with cause 2. TX_ACTIVATE after bias ready unmutes in ACTIVE with TX_ACTIVE set. The pending and the bias timer
enter FAULT with causes 1 and 3. FAULT is entered with these causes where the fault window of the transmit source does
not act on the lane at once. It concludes, from conditions on the state and the operands alone, that exec answers a
next state with the command's own effect, of: txEnableRequest, txEnableGo, txenTimeout, drvSettleExpiry, biasTimeout,
txActivate. From rules R174, R175, R176, R341, R346, R349, R351. -/
def Obligations.LaneTransmitEnable : Prop :=
  (∀ (n : Lane) (s : State), s.reaches .ltx n → s.underTest 1 n = false → s.underTest 4 n = false →
    s.on .ltxHeldOff n = false → s.rd .lrxState n = 0 → s.rd .ltxState n = 0 →
    ∃ t, exec (.txEnableRequest n) s = .next t ∧
      t.rd .ltxTxEn n = 1 ∧ t.rd .ltxTxenPending n = 1 ∧ t.rd .ltxHoldReason n = s.ltxHold n ∧ t.rd .ltxState n = 0) ∧
  (∀ (n : Lane) (s : State), s.reaches .ltx n → s.underTest 1 n = false → s.underTest 4 n = false →
    s.on .ltxHeldOff n = true → exec (.txEnableRequest n) s = .next s) ∧
  (∀ (n : Lane) (s : State), s.rd .ltxState n = 1 → s.on .ltxTxEn n = true → s.ltxHold n = 0 →
    s.pinsUnderTest n = false → s.envGrants n = true → ∃ t, exec (.txEnableGo n) s = .next t ∧
      t.rd .ltxState n = 2 ∧ t.rd .ltxDrvEn n = 1 ∧ t.rd .ltxMuted n = 1 ∧ t.rd .ltxTxenPending n = 0 ∧
      OnlyIn [.ltx, .pwrLn, .evf] s t) ∧
  (∀ (n : Lane) (s : State), s.rd .ltxState n = 1 → s.on .ltxTxEn n = true → s.ltxHold n = 0 →
    s.pinsUnderTest n = false → s.envGrants n = false → s.rd .hltAction 0 8 ≤ 1 →
    ∃ t, exec (.txEnableGo n) s = .next t ∧
      t.rd .ltxState n = 7 ∧ t.rd .ltxFaultCause n = 5 ∧ t.rd .ltxDrvEn n = 0 ∧ t.rd .ltxLsrEn n = 0) ∧
  (∀ (n : Lane) (s : State), s.on .ltxTmoRun n = true → s.rd .ltxState n ≠ 7 → s.rd .hltAction 0 8 ≤ 1 →
    ∃ t, exec (.txenTimeout n) s = .next t ∧
      t.rd .ltxState n = 7 ∧ t.rd .ltxFaultCause n = 1 ∧ (t.rd .ltxIntStatus n).testBit Irq.ltxFault = true) ∧
  (∀ (n : Lane) (drvFltHigh : Bool) (s : State), s.rd .ltxState n = 2 → s.on .ltxDrvEn n = true → drvFltHigh = true →
    s.envGrants n = true → ∃ t, exec (.drvSettleExpiry n drvFltHigh) s = .next t ∧
      t.rd .ltxState n = 3 ∧ t.rd .ltxLsrEn n = 1 ∧ t.rd .optLnClamp n = 0 ∧ t.rd .optLnRamp n = 1 ∧
      OnlyIn [.ltx, .optLn, .pwrLn, .evf] s t) ∧
  (∀ (n : Lane) (drvFltHigh : Bool) (s : State), s.rd .ltxState n = 2 → s.on .ltxDrvEn n = true →
    drvFltHigh = false → s.rd .hltAction 0 8 ≤ 1 → ∃ t, exec (.drvSettleExpiry n drvFltHigh) s = .next t ∧
      t.rd .ltxState n = 7 ∧ t.rd .ltxFaultCause n = 2 ∧ t.rd .ltxLsrEn n = 0) ∧
  (∀ (n : Lane) (s : State), s.rd .ltxState n = 3 → s.on .ltxActPend n = false → s.rd .hltAction 0 8 ≤ 1 →
    ∃ t, exec (.biasTimeout n) s = .next t ∧
      t.rd .ltxState n = 7 ∧ t.rd .ltxFaultCause n = 3 ∧ t.rd .optLnClamp n = 1) ∧
  (∀ (n : Lane) (s : State), s.rd .ltxState n = 3 → s.on .ltxActPend n = true →
    ∃ t, exec (.txActivate n) s = .next t ∧
      t.rd .ltxState n = 4 ∧ t.rd .ltxMuted n = 0 ∧ (t.rd .ltxIntStatus n).testBit Irq.ltxTxActive = true ∧
      t.rd .optLnProbe n = 0 ∧ OnlyIn [.ltx, .optLn, .pwrLn, .evf] s t)

/-- TX_EN cleared in ACTIVE awake with the laser on enters DISABLE with both pins as before; in FAULT it enters OFF
with the cause cleared and both pins low. TX_DISABLE_MUTE in DISABLE with the laser on, before the hold, mutes the
DAC, drops LSR_EN, starts the hold and ramps the bias down. DRV_HOLD_EXPIRY in DISABLE with TX_EN clear drops DRV_EN
and powers the direction down to OFF. A driver fault counts, and in DRV_ON, LSR_ON or ACTIVE, where the fault window
does not act on the lane at once, enters FAULT 2 muted with both pins low and OBIAS clamped. TX_FAULT_DAC_OFF switches
the DAC off in FAULT. RESTART of a lane not under test, in FAULT with a cause other than 8, and the automatic restart
leave FAULT for CAL with the cause cleared; RESTART changes nothing elsewhere. It concludes, from conditions on the
state and the operands alone, that exec answers a next state with the command's own effect, of: txDisable,
txDisableMute, drvHoldExpiry, ltxRestart, drvFault, txFaultDacOff, txFaultAutoRestart. From rules R177, R178, R179,
R180, R181, R413. -/
def Obligations.LaneTransmitDisableAndFault : Prop :=
  (∀ (n : Lane) (trigger : DisableTrigger) (s : State), s.Inv → trigger = .txEnCleared → s.reaches .ltx n →
    s.rd .ltxState n = 4 → s.on .ltxLsrEn n = true → s.on .ltxSleep n = false →
    ∃ t, exec (.txDisable n trigger) s = .next t ∧
      t.rd .ltxTxEn n = 0 ∧ t.rd .ltxState n = 5 ∧ t.rd .ltxLsrEn n = 1 ∧ t.rd .ltxDrvEn n = s.rd .ltxDrvEn n) ∧
  (∀ (n : Lane) (trigger : DisableTrigger) (s : State), trigger = .txEnCleared → s.reaches .ltx n →
    s.rd .ltxState n = 7 → ∃ t, exec (.txDisable n trigger) s = .next t ∧
      t.rd .ltxTxEn n = 0 ∧ t.rd .ltxState n = 0 ∧ t.rd .ltxFaultCause n = 0 ∧ t.rd .ltxDrvEn n = 0 ∧
      t.rd .ltxLsrEn n = 0) ∧
  (∀ (n : Lane) (s : State), s.rd .ltxState n = 5 → s.on .ltxLsrEn n = true → s.on .ltxHoldRun n = false →
    ∃ t, exec (.txDisableMute n) s = .next t ∧
      t.rd .ltxMuted n = 1 ∧ t.rd .ltxLsrEn n = 0 ∧ t.rd .ltxHoldRun n = 1 ∧ t.rd .optLnRamp n = 1 ∧
      t.rd .optLnBiasReady n = 0 ∧
      Changes s t n [.ltxMuted, .ltxLsrEn, .ltxHoldRun, .optRampDown, .optLnRamp, .optLnBiasReady]) ∧
  (∀ (n : Lane) (s : State), s.rd .ltxState n = 5 → s.on .ltxHoldRun n = true → s.on .ltxTxEn n = false →
    ∃ t, exec (.drvHoldExpiry n) s = .next t ∧
      t.rd .ltxState n = 0 ∧ t.rd .ltxDrvEn n = 0 ∧ t.rd .ltxLsrEn n = 0 ∧ t.rd .ltxDacOn n = 0 ∧
      t.rd .ltxTxenPending n = 0) ∧
  (∀ (n : Lane) (s : State), s.reaches .ltx n → s.underTest 1 n = false → s.underTest 4 n = false →
    s.rd .ltxState n = 7 → s.rd .ltxFaultCause n ≠ 8 → ∃ t, exec (.ltxRestart n) s = .next t ∧
      t.rd .ltxState n = 1 ∧ t.rd .ltxFaultCause n = 0 ∧
      ([7, 8, 12, 13].all (fun k => !(t.rd .hltSrcLasting 0 k).testBit n)) = true) ∧
  (∀ (n : Lane) (s : State), s.reaches .ltx n → s.underTest 1 n = false → s.underTest 4 n = false →
    (s.rd .ltxState n ≠ 7 ∨ s.rd .ltxFaultCause n = 8) → exec (.ltxRestart n) s = .next s) ∧
  (∀ (n : Lane) (s : State), s.on .ltxDrvEn n = true →
    (s.rd .ltxState n = 2 ∨ s.rd .ltxState n = 3 ∨ s.rd .ltxState n = 4) → s.rd .hltAction 0 8 ≤ 1 →
    ∃ t, exec (.drvFault n) s = .next t ∧
      t.rd .ltxDrvFltCnt n = min (s.rd .ltxDrvFltCnt n + 1) (2 ^ Field.width .ltxDrvFltCnt - 1) ∧
      t.rd .ltxState n = 7 ∧ t.rd .ltxFaultCause n = 2 ∧ t.rd .ltxDrvEn n = 0 ∧ t.rd .ltxLsrEn n = 0 ∧
      t.rd .ltxMuted n = 1 ∧ t.rd .optLnClamp n = 1) ∧
  (∀ (n : Lane) (s : State), s.rd .ltxState n = 7 → s.on .ltxDacOffRun n = true →
    ∃ t, exec (.txFaultDacOff n) s = .next t ∧
      t.rd .ltxDacOn n = 0 ∧ Changes s t n [.ltxDacOn, .ltxDacOffRun]) ∧
  (∀ (n : Lane) (s : State), s.rd .ltxState n = 7 → s.on .ltxRestartArm n = true → s.on .ltxAutoRestart n = true →
    ∃ t, exec (.txFaultAutoRestart n) s = .next t ∧
      t.rd .ltxState n = 1 ∧ t.rd .ltxFaultCause n = 0 ∧ t.rd .ltxRestartArm n = 0 ∧ t.rd .ltxDacOn n = 1)

/-- LTX_COMMIT of a lane not under test waits for a boundary out of OFF, applies every shadowed field and PAT_SEL at
once in OFF, and is held below warning with COMMIT_HELD. A skew calibration within limits, with the line PLL running
and above warning, stores the skew and sets DAC_CAL in CAL; a trim within limits readies the swap, and one outside
retires a good cell with CELL_FAIL; clipping in ACTIVE counts and sets CLIP. The enabled mask monitor, out of OFF,
skips a block with a muted symbol, adds any other to its running average, and with 2^MASK_AVG blocks reports the
average: with MASK_ACT 0, MASK_VIOL is set and counted where a bin exceeds its limit and clear where none does.
WAKE_SEND in ACTIVE, not armed, arms the wake pattern, and starts the wake of a sleeping direction; the pattern's end
counts it and sets WAKE_DONE; the wake of a direction asleep in ACTIVE, whose steps run, unmutes it with the DAC on,
with the driver granted, DRV_FLT high and a sound record from TX Nap. It concludes, from conditions on the state and
the operands alone, that exec answers a next state with the command's own effect, of: ltxCommit, dacCalDone,
dacCellTrimDone, dacClip, maskAverageEnd, wakeSend, wakePatternEnd, txSleepWake. From rules R163, R166, R167, R169,
R170, R172, R188, R190, R182, R185, R186, R349. -/
def Obligations.LaneTransmitDacMaskAndWake : Prop :=
  (∀ (n : Lane) (s : State), s.reaches .ltx n → s.underTest 1 n = false → s.underTest 4 n = false →
    s.warning = false → s.rd .ltxState n ≠ 0 → ∃ t, exec (.ltxCommit n) s = .next t ∧
      t.rd .ltxCommit n = 1 ∧ Changes s t n [.ltxCommit]) ∧
  (∀ (n : Lane) (s : State), s.Inv → s.reaches .ltx n → s.underTest 1 n = false → s.underTest 4 n = false →
    s.warning = false → s.rd .ltxState n = 0 → ∃ t, exec (.ltxCommit n) s = .next t ∧
      t.rd .ltxCommit n = 0 ∧ (∀ e ∈ ltxShadowed, t.use e.1 n e.2 = s.rd e.1 n e.2) ∧
      t.use .ltxPatSel n = s.rd .ltxPatSel n ∧ OnlyIn [.ltx] s t) ∧
  (∀ (n : Lane) (s : State), s.reaches .ltx n → s.underTest 1 n = false → s.underTest 4 n = false →
    s.warning = true → ∃ t, exec (.ltxCommit n) s = .next t ∧
      t.rd .ltxCommit n = 1 ∧ (t.rd .ltxIntStatus n).testBit Irq.ltxCommitHeld = true ∧
      Changes s t n [.ltxCommit, .ltxIntStatus]) ∧
  (∀ (n : Lane) (trims : List Int) (intlv : Int) (s : State), s.rd .ltxState n = 1 → s.rd .ltxDacCalRun n = 2 →
    s.pllRuns (linePll n) = true → s.warning = false → (-64 ≤ intlv ∧ intlv ≤ 63) →
    ∃ t, exec (.dacCalDone n trims intlv) s = .next t ∧
      t.rdInt .ltxIntlvSkew n = intlv ∧ t.rd .ltxDacCal n = 1 ∧ t.rd .ltxDacCalRun n = 0 ∧ t.rd .ltxState n = 1) ∧
  (∀ (n : Lane) (trim : Int) (s : State), s.on .ltxCalActive n = true → s.on .ltxSwapReady n = false →
    (-32 ≤ trim ∧ trim ≤ 31) → ∃ t, exec (.dacCellTrimDone n trim) s = .next t ∧
      t.rd .ltxSwapReady n = 1 ∧ t.rdInt .ltxTrimNew n = trim ∧ Changes s t n [.ltxSwapReady, .ltxTrimNew]) ∧
  (∀ (n : Lane) (trim : Int) (s : State), s.on .ltxCalActive n = true → s.on .ltxSwapReady n = false →
    (trim < -32 ∨ 31 < trim) → s.on .ltxCellBad n (s.rd .ltxNextIn n) = false →
    ∃ t, exec (.dacCellTrimDone n trim) s = .next t ∧
      t.rd .ltxCalActive n = 0 ∧ t.rd .ltxCellBad n (s.rd .ltxNextIn n) = 1 ∧
      (t.rd .ltxIntStatus n).testBit Irq.ltxCellFail = true ∧ t.rd .ltxFailedCnt n = min 9 (s.rd .ltxFailedCnt n + 1)) ∧
  (∀ (n : Lane) (s : State), s.rd .ltxState n = 4 → ∃ t, exec (.dacClip n) s = .next t ∧
      t.rd .ltxClipCnt n = min (s.rd .ltxClipCnt n + 1) (2 ^ Field.width .ltxClipCnt - 1) ∧
      (t.rd .ltxIntStatus n).testBit Irq.ltxClip = true ∧ Changes s t n [.ltxClipCnt, .ltxIntStatus]) ∧
  (∀ (n : Lane) (b : List (Option (BitVec 7))) (s : State), s.use .ltxMaskEn n ≠ 0 → s.rd .ltxState n ≠ 0 →
    maskTaken (b.map (fun c => c.map BitVec.toNat)) = false → exec (.maskAverageEnd n [b]) s = .next s) ∧
  (∀ (n : Lane) (b : List (Option (BitVec 7))) (s : State), s.use .ltxMaskEn n ≠ 0 → s.rd .ltxState n ≠ 0 →
    maskTaken (b.map (fun c => c.map BitVec.toNat)) = true → s.rd .ltxMaskCnt n + 1 < 2 ^ s.use .ltxMaskAvg n →
    ∃ t, exec (.maskAverageEnd n [b]) s = .next t ∧
      t.rd .ltxMaskCnt n = s.rd .ltxMaskCnt n + 1 ∧
      (List.range 33).map (fun j => t.rd .ltxMaskSum n j) = (maskAdd ((List.range 33).map (fun j => s.rd .ltxMaskSum n
        j)) (b.map (fun c => c.map BitVec.toNat))).map (fun x => x % 2 ^ Field.width .ltxMaskSum) ∧
      Changes s t n [.ltxMaskSum, .ltxMaskCnt]) ∧
  (∀ (n : Lane) (b : List (Option (BitVec 7))) (s : State), s.use .ltxMaskEn n ≠ 0 → s.rd .ltxState n ≠ 0 →
    maskTaken (b.map (fun c => c.map BitVec.toNat)) = true → s.rd .ltxMaskCnt n + 1 = 2 ^ s.use .ltxMaskAvg n →
    s.use .ltxMaskAct n = 0 → ∃ t, exec (.maskAverageEnd n [b]) s = .next t ∧
      t.rd .ltxMaskValid n = 1 ∧ t.rd .ltxMaskCnt n = 0 ∧
      (t.rd .ltxMaskViol n = (if s.maskWorst n (((maskAdd ((List.range 33).map (fun j => s.rd .ltxMaskSum n j)) (b.map
        (fun c => c.map BitVec.toNat))).map (fun x => x % 2 ^ Field.width .ltxMaskSum)).zipIdx.map (fun e => (e.2,
        binDb e.1 ((maskAdd ((List.range 33).map (fun j => s.rd .ltxMaskSum n j)) (b.map (fun c => c.map
        BitVec.toNat))).map (fun x => x % 2 ^ Field.width .ltxMaskSum)).sum))) = none then 0 else 1)) ∧
      (t.rd .ltxMaskViolCnt n = (if s.maskWorst n (((maskAdd ((List.range 33).map (fun j => s.rd .ltxMaskSum n j))
        (b.map (fun c => c.map BitVec.toNat))).map (fun x => x % 2 ^ Field.width .ltxMaskSum)).zipIdx.map (fun e =>
        (e.2, binDb e.1 ((maskAdd ((List.range 33).map (fun j => s.rd .ltxMaskSum n j)) (b.map (fun c => c.map
        BitVec.toNat))).map (fun x => x % 2 ^ Field.width .ltxMaskSum)).sum))) =
        none then s.rd .ltxMaskViolCnt n else min (s.rd .ltxMaskViolCnt n +
        1) (2 ^ Field.width .ltxMaskViolCnt - 1))) ∧ OnlyIn [.ltx] s t) ∧
  (∀ (n : Lane) (s : State), s.reaches .ltx n → s.rd .ltxState n = 4 → s.on .ltxWakeSend n = false →
    ∃ t, exec (.wakeSend n) s = .next t ∧
      t.rd .ltxWakeSend n = 1 ∧ t.rd .ltxWakePend n = 1 ∧ (s.on .ltxSleep n = true → t.rd .ltxNapWake n = 1) ∧
      OnlyIn [.ltx, .hltLn] s t) ∧
  (∀ (n : Lane) (s : State), s.on .ltxWakeRun n = true → ∃ t, exec (.wakePatternEnd n) s = .next t ∧
      t.rd .ltxWakeRun n = 0 ∧ t.rd .ltxWakeSend n = 0 ∧ (t.rd .ltxIntStatus n).testBit Irq.ltxWakeDone = true ∧
      t.rd .ltxWakeSent n = min (s.rd .ltxWakeSent n + 1) (2 ^ Field.width .ltxWakeSent - 1) ∧
      Changes s t n [.ltxWakeRun, .ltxWakeSend, .ltxIntStatus, .ltxWakeSent]) ∧
  (∀ (n : Lane) (drvFltHigh : Bool) (recOk : Bool) (s : State), s.rd .ltxState n = 4 → s.on .ltxSleep n = true →
    s.on .ltxNapWake n = true → (s.rd .ltxSleep n = 2 → s.envGrants n = true ∧ drvFltHigh = true ∧ recOk = true) →
    ∃ t, exec (.txSleepWake n drvFltHigh recOk) s = .next t ∧
      t.rd .ltxSleep n = 0 ∧ t.rd .ltxMuted n = 0 ∧ t.rd .ltxDacOn n = 1 ∧ t.rd .pwrLnLtxPstate n = 0 ∧
      t.rd .ltxState n = 4 ∧ (s.rd .ltxSleep n = 2 → t.rd .ltxDrvEn n = 1) ∧
      Changes s t n [.ltxSleep, .ltxNapWake, .ltxMuted, .ltxDacOn, .ltxDrvEn, .pwrLnLtxPstate, .ltxIntStatus])

/-- While a lane hunts, awake, with no candidate held, a marker of at least MARK_CAND matches is held with its
position and score, and one below MARK_CAND changes nothing; the third good check in a row of the candidate, on a lane
not under test, declares lock, raises FRAME_LOCK, enters TRAIN and starts negotiation, or the hello of the side
channel in compatibility mode; a failed check drops the candidate. In lock a candidate at another position is held as
the shadow and the lock stays; a good check clears the run of bad markers and notes the frame's arrival; a bad one of
the first three counts; the fourth in a row, with no shadow, in SERVICE, where the fault window does not act on the
lane at once, drops the lock with FRAME_LOL and re-acquires at FRAME. A waiting format change of an active transmitter
takes place and mutes it for the frame; of any other it takes place alone. It concludes, from conditions on the state
and the operands alone, that exec answers a next state with the command's own effect, of: markerCandidate,
frameMarkerCheck, compatFormatSwitch. From rules R197, R198, R199, R200, R206, R207. -/
def Obligations.MarkerHuntAndFrameLock : Prop :=
  (∀ (n : Lane) (pos : BitVec 19) (bits : BitVec 256) (s : State), s.hunting n = true → s.on .lrxSleep n = false →
    s.on .lfrH1Valid n = false → s.rd .lfrMarkCand n ≤ markCount bits.toNat →
    ∃ t, exec (.markerCandidate n pos bits) s = .next t ∧
      t.rd .lfrH1Valid n = 1 ∧ t.rd .lfrH1Pos n = pos.toNat ∧ t.rd .lfrH1Match n = markCount bits.toNat ∧
      (t.rd .lfrH1Count n = (if s.rd .lfrMarkGood n ≤ markCount bits.toNat then 1 else 0)) ∧
      t.rd .lfrH2Match n = max (markCount bits.toNat) (s.rd .lfrH2Match n) % 2 ^ Field.width .lfrH2Match ∧
      Changes s t n [.lfrH1Valid, .lfrH1Pos, .lfrH1Match, .lfrH1Count, .lfrH2Match]) ∧
  (∀ (n : Lane) (pos : BitVec 19) (bits : BitVec 256) (s : State), markCount bits.toNat < s.rd .lfrMarkCand n →
    exec (.markerCandidate n pos bits) s = .next s) ∧
  (∀ (n : Lane) (pos : BitVec 19) (bits : BitVec 256) (s : State), s.hunting n = false →
    s.on .lfrFrameLock n = true → pos.toNat ≠ s.rd .lfrH1Pos n → s.on .lfrShadowValid n = false →
    s.on .lrxSleep n = false → s.rd .lfrMarkCand n ≤ markCount bits.toNat →
    ∃ t, exec (.markerCandidate n pos bits) s = .next t ∧
      t.rd .lfrShadowValid n = 1 ∧ t.rd .lfrShPos n = pos.toNat ∧ t.rd .lfrH2Match n = markCount bits.toNat ∧
      t.rd .lfrFrameLock n = s.rd .lfrFrameLock n ∧
      Changes s t n [.lfrShadowValid, .lfrShPos, .lfrH2Match, .lfrShCount]) ∧
  (∀ (n : Lane) (shadow : Bool) (bits : BitVec 256) (ago : BitVec 20) (s : State), s.on .lrxSleep n = false →
    s.hunting n = true → s.on .lfrH1Valid n = true → shadow = false → s.rd .lfrMarkGood n ≤ markCount bits.toNat →
    s.rd .lfrH1Count n = 2 → s.underTest 1 n = false → ∃ t, exec (.frameMarkerCheck n shadow bits ago) s = .next t ∧
      t.rd .lfrFrameLock n = 1 ∧ t.rd .lrxState n = 3 ∧ (t.rd .lfrIntStatus n).testBit Irq.lfrFrameLock = true ∧
      t.rd .lfrBadRun n = 0 ∧ t.rd .lrxRetry n = 0 ∧
      (t.rd .lfrNegState n = (if t.rd .lfrGroupMode n = 2 then 5 else 1))) ∧
  (∀ (n : Lane) (shadow : Bool) (bits : BitVec 256) (ago : BitVec 20) (s : State), s.on .lrxSleep n = false →
    s.hunting n = true → s.on .lfrH1Valid n = true → shadow = false → markCount bits.toNat < s.rd .lfrMarkGood n →
    ∃ t, exec (.frameMarkerCheck n shadow bits ago) s = .next t ∧
      t.rd .lfrH1Valid n = 0 ∧ t.rd .lfrH1Count n = 0 ∧ Changes s t n [.lfrH1Match, .lfrH1Valid, .lfrH1Count]) ∧
  (∀ (n : Lane) (shadow : Bool) (bits : BitVec 256) (ago : BitVec 20) (s : State), s.on .lrxSleep n = false →
    s.hunting n = false → s.on .lfrFrameLock n = true → shadow = false → s.rd .lfrMarkGood n ≤ markCount bits.toNat →
    ∃ t, exec (.frameMarkerCheck n shadow bits ago) s = .next t ∧
      t.rd .lfrBadRun n = 0 ∧ t.rd .lfrH1Match n = markCount bits.toNat ∧
      t.rd .lfrArrBase n = (s.atc + 2 ^ 24 - ago.toNat) % 2 ^ 24 ∧
      Changes s t n [.lfrH1Match, .lfrBadRun, .lfrArrBase]) ∧
  (∀ (n : Lane) (shadow : Bool) (bits : BitVec 256) (ago : BitVec 20) (s : State), s.Inv → s.on .lrxSleep n = false →
    s.hunting n = false → s.on .lfrFrameLock n = true → shadow = false → markCount bits.toNat < s.rd .lfrMarkGood n →
    s.rd .lfrBadRun n < 3 → ∃ t, exec (.frameMarkerCheck n shadow bits ago) s = .next t ∧
      t.rd .lfrBadRun n = s.rd .lfrBadRun n + 1 ∧ t.rd .lfrFrameLock n = 1 ∧
      t.rd .lfrMarkBadCnt n = min (s.rd .lfrMarkBadCnt n + 1) (2 ^ Field.width .lfrMarkBadCnt - 1) ∧
      Changes s t n [.lfrH1Match, .lfrBadRun, .lfrMarkBadCnt]) ∧
  (∀ (n : Lane) (shadow : Bool) (bits : BitVec 256) (ago : BitVec 20) (s : State), s.on .lrxSleep n = false →
    s.hunting n = false → s.on .lfrFrameLock n = true → shadow = false → markCount bits.toNat < s.rd .lfrMarkGood n →
    s.rd .lfrBadRun n = 3 → s.on .lfrShadowValid n = false → s.rd .lrxState n = 5 → s.rd .hltAction 0 4 ≤ 1 →
    ∃ t, exec (.frameMarkerCheck n shadow bits ago) s = .next t ∧
      t.rd .lfrFrameLock n = 0 ∧ t.rd .lrxState n = 2 ∧ t.rd .lrxAcqPhase n = 4 ∧
      (t.rd .lfrIntStatus n).testBit Irq.lfrFrameLol = true ∧ t.rd .lfrNegState n = 0) ∧
  (∀ (n : Lane) (s : State), s.on .lfrCompatPend n = true → s.rd .ltxState n = 4 →
    ∃ t, exec (.compatFormatSwitch n) s = .next t ∧
      t.rd .lfrCompatPend n = 0 ∧ t.rd .lfrCompatTx n = 1 - s.rd .lfrCompatTx n ∧ t.rd .ltxMuted n = 1 ∧
      Changes s t n [.lfrCompatPend, .lfrCompatTx, .lfrCompatMute, .ltxMuted, .ltxPrecodeAct]) ∧
  (∀ (n : Lane) (s : State), s.on .lfrCompatPend n = true → s.rd .ltxState n ≠ 4 →
    ∃ t, exec (.compatFormatSwitch n) s = .next t ∧
      t.rd .lfrCompatTx n = 1 - s.rd .lfrCompatTx n ∧ Changes s t n [.lfrCompatPend, .lfrCompatTx])

/-- A service frame of an awake lane in frame lock adds the corrected bytes of its decoded bits; failed blocks are
counted with SVC_FAIL; else a failed CRC is counted; else the frame counter and the FILL flag are taken, with FILL
counted and its rise raised. Without lock, or asleep, nothing changes. A message of TRAIN, LOCKED or SERVICE with a
SEQ other than 0 and the last takes that SEQ: an unknown type is counted; a tap request is refused with its reply and
no tap changed where TAP_ACCEPT is not in force, and applied within limits and answered where it is; a tap reply ends
the CDB command of its lane. Any other message changes nothing; an acknowledgement of the SEQ in flight frees the
slot, any other nothing. A side-channel frame in compatibility mode with a bad checksum is counted; a sound one with
an unknown message is counted so; without sync, or out of traffic, nothing changes. It concludes, from conditions on
the state and the operands alone, that exec answers a next state with the command's own effect, of:
serviceFrameReceived, msgUnknownRx, msgTxTapReqRx, msgTxTapReplyRx, msgAckRx, sideChannelFrameRx. From rules R202,
R203, R204, R205, R208, R446. -/
def Obligations.ServiceChannelMessages : Prop :=
  (∀ (n : Lane) (bits : BitVec 3840) (s : State), (s.on .lfrFrameLock n = false ∨ s.on .lrxSleep n = true) →
    exec (.serviceFrameReceived n bits) s = .next s) ∧
  (∀ (n : Lane) (bits : BitVec 3840) (s : State), s.on .lfrFrameLock n = true → s.on .lrxSleep n = false →
    ∃ t, exec (.serviceFrameReceived n bits) s = .next t ∧
      t.rd .lfrSvcCorrCnt n = min (s.rd .lfrSvcCorrCnt n + (frameContent (serviceBytes (s.frameService n
        bits.toNat))).2.1) (2 ^ Field.width .lfrSvcCorrCnt - 1) ∧
      ((frameContent (serviceBytes (s.frameService n bits.toNat))).2.2 ≠ 0 → t.rd .lfrSvcFailCnt n =
        min (s.rd .lfrSvcFailCnt n + (frameContent (serviceBytes (s.frameService n bits.toNat))).2.2) (2 ^ Field.width
        .lfrSvcFailCnt - 1) ∧ (t.rd .lfrIntStatus n).testBit Irq.lfrSvcFail = true ∧ Changes s t n [.lfrSvcCorrCnt,
        .lfrSvcFailCnt, .lfrIntStatus, .timLnRxFresh]) ∧
      ((frameContent (serviceBytes (s.frameService n bits.toNat))).2.2 = 0 →
        contentOk (frameContent (serviceBytes (s.frameService n bits.toNat))).1 = false → t.rd .lfrSvcCrcCnt n =
        min (s.rd .lfrSvcCrcCnt n + 1) (2 ^ Field.width .lfrSvcCrcCnt - 1) ∧ Changes s t n [.lfrSvcCorrCnt,
        .lfrSvcCrcCnt, .timLnRxFresh]) ∧
      ((frameContent (serviceBytes (s.frameService n bits.toNat))).2.2 = 0 →
        contentOk (frameContent (serviceBytes (s.frameService n bits.toNat))).1 = true → t.rd .lfrFrameRx n =
        leBytes (frameContent (serviceBytes (s.frameService n bits.toNat))).1 0 2 ∧ t.rd .lfrFillRx n =
        bit ((leBytes (frameContent (serviceBytes (s.frameService n bits.toNat))).1 2 2).testBit 0) ∧
        t.rd .lfrFillRxCnt n = (if (leBytes (frameContent (serviceBytes (s.frameService n bits.toNat))).1 2 2).testBit
        0 then min (s.rd .lfrFillRxCnt n + 1) (2 ^ Field.width .lfrFillRxCnt - 1) else s.rd .lfrFillRxCnt n) ∧
        ((leBytes (frameContent (serviceBytes (s.frameService n bits.toNat))).1 2 2).testBit 0 = true →
        s.on .lfrFillRx n = false → (t.rd .lfrIntStatus n).testBit Irq.lfrFillRx = true)) ∧ OnlyIn [.lfr, .timLn] s t) ∧
  (∀ (n : Lane) (seq : BitVec 8) (s : State), s.msgOpen n = true → seq.toNat ≠ 0 → seq.toNat ≠ s.rd .lfrRxSeq n →
    ∃ t, exec (.msgUnknownRx n seq) s = .next t ∧
      t.rd .lfrRxSeq n = seq.toNat ∧
      t.rd .lfrMsgUnknownCnt n = min (s.rd .lfrMsgUnknownCnt n + 1) (2 ^ Field.width .lfrMsgUnknownCnt - 1) ∧
      Changes s t n [.lfrRxSeq, .lfrMsgUnknownCnt]) ∧
  (∀ (n : Lane) (seq : BitVec 8) (s : State), (s.msgOpen n = false ∨ seq.toNat = 0 ∨ seq.toNat = s.rd .lfrRxSeq n) →
    exec (.msgUnknownRx n seq) s = .next s) ∧
  (∀ (n : Lane) (seq : BitVec 8) (taps : List Int) (s : State), s.msgOpen n = true → seq.toNat ≠ 0 →
    seq.toNat ≠ s.rd .lfrRxSeq n → s.use .lfrTapAccept n = 0 → ∃ t, exec (.msgTxTapReqRx n seq taps) s = .next t ∧
      t.rd .lfrRxSeq n = seq.toNat ∧ (∀ k ∈ List.range 9, t.rdInt .ltxFirTap n k = s.rdInt .ltxFirTap n k) ∧
      (s.rd .lfrTxType n = 0 → t.rd .lfrTxType n = 7 ∧ t.rd .lfrTxBody n = 1) ∧ OnlyIn [.lfr] s t) ∧
  (∀ (n : Lane) (seq : BitVec 8) (taps : List Int) (s : State), s.msgOpen n = true → seq.toNat ≠ 0 →
    seq.toNat ≠ s.rd .lfrRxSeq n → s.use .lfrTapAccept n ≠ 0 → taps.length = 9 →
    ∃ t, exec (.msgTxTapReqRx n seq taps) s = .next t ∧
      t.rd .lfrRxSeq n = seq.toNat ∧ (∀ k ∈ List.range 9, t.rdInt .ltxFirTap n k = firLimit k taps[k]!) ∧
      (t.rd .ltxOverride n).testBit 0 = true ∧ (s.rd .lfrTxType n = 0 → t.rd .lfrTxType n = 7 ∧ t.rd .lfrTxBody n = 0)) ∧
  (∀ (n : Lane) (seq : BitVec 8) (applied : Bool) (s : State), s.msgOpen n = true → seq.toNat ≠ 0 →
    seq.toNat ≠ s.rd .lfrRxSeq n → s.on .cdbTapRun = true → s.rd .cdbTapLane = n →
    ∃ t, exec (.msgTxTapReplyRx n seq applied) s = .next t ∧
      t.rd .cdbTapRun = 0 ∧ (t.rd .cdbStatus = (if applied = true then 0x01 else 0x40)) ∧
      t.rd .lfrRxSeq n = seq.toNat ∧ t.rd .cdbReply0 = bit (!applied)) ∧
  (∀ (n : Lane) (seq : BitVec 8) (applied : Bool) (s : State), s.msgOpen n = true → seq.toNat ≠ 0 →
    seq.toNat ≠ s.rd .lfrRxSeq n → s.on .cdbTapRun = false → ∃ t, exec (.msgTxTapReplyRx n seq applied) s = .next t ∧
      t.rd .lfrRxSeq n = seq.toNat ∧ Changes s t n [.lfrRxSeq]) ∧
  (∀ (n : Lane) (ack : BitVec 8) (s : State), s.msgOpen n = true → s.rd .lfrTxType n = 1 →
    ack.toNat = s.rd .lfrTxSeq n → s.svcQ = [] → ∃ t, exec (.msgAckRx n ack) s = .next t ∧
      t.rd .lfrTxType n = 0 ∧ Changes s t n [.lfrTxType]) ∧
  (∀ (n : Lane) (ack : BitVec 8) (s : State),
    (s.msgOpen n = false ∨ s.rd .lfrTxType n = 0 ∨ ack.toNat ≠ s.rd .lfrTxSeq n) → exec (.msgAckRx n ack) s = .next s) ∧
  (∀ (n : Lane) (frame : BitVec 256) (s : State), s.rd .lfrGroupMode n = 2 → frame.toNat % 65536 = sideSync →
    sideOk frame.toNat = false → ∃ t, exec (.sideChannelFrameRx n frame) s = .next t ∧
      t.rd .lfrSvcCrcCnt n = min (s.rd .lfrSvcCrcCnt n + 1) (2 ^ Field.width .lfrSvcCrcCnt - 1) ∧
      Changes s t n [.lfrSvcCrcCnt]) ∧
  (∀ (n : Lane) (frame : BitVec 256) (s : State), s.rd .lfrGroupMode n = 2 → frame.toNat % 65536 = sideSync →
    sideOk frame.toNat = true → s.msgOpen n = true → 8 ≤ byteOf frame.toNat 2 → byteOf frame.toNat 3 ≠ 0 →
    byteOf frame.toNat 3 ≠ s.rd .lfrRxSeq n → s.rd .lfrTxType n = 0 →
    ∃ t, exec (.sideChannelFrameRx n frame) s = .next t ∧
      t.rd .lfrHelloSeen n = 1 ∧ t.rd .lfrRxSeq n = byteOf frame.toNat 3 ∧
      t.rd .lfrMsgUnknownCnt n = min (s.rd .lfrMsgUnknownCnt n + 1) (2 ^ Field.width .lfrMsgUnknownCnt - 1) ∧
      Changes s t n [.lfrHelloSeen, .lfrRxSeq, .lfrMsgUnknownCnt]) ∧
  (∀ (n : Lane) (frame : BitVec 256) (s : State),
    (s.rd .lfrGroupMode n ≠ 2 ∨ frame.toNat % 65536 ≠ sideSync ∨ (sideOk frame.toNat = true ∧ s.lrxInTraffic n =
      false)) → exec (.sideChannelFrameRx n frame) s = .next s)

/-- A taken partner page in ADVERTISE gives CONFIRM with the result that it and our page compute, or FAILED with the
error that they give; in DONE it is stored alone; a taken CONFIRM in ADVERTISE is stored; in CONFIRM one with the
candidate's top bits, ours acknowledged, of a lane alone in its group that stays in its mode, gives DONE with the
result. NEG_TIMEOUT starts another attempt or, the attempts exhausted, FAILED with error 5. HELLO_TIMEOUT without a
hello in compatibility mode ends the side channel with the plain result where no group-mate is DONE, and with one
changes nothing. A received RENEG is counted, in ADVERTISE and CONFIRM with no other effect, in DONE of a native lane
alone in its group it starts ADVERTISE in TRAIN. RENEG of software does so for such a lane awake in traffic, changes
nothing out of traffic or asleep, and waits for a lane under test that it does not preempt. It concludes, from
conditions on the state and the operands alone, that exec answers a next state with the command's own effect, of:
msgAbilityRx, msgConfirmRx, msgRenegRx, negTimeout, helloTimeout, reneg. From rules R209, R210, R211, R212, R213,
R423. -/
def Obligations.Negotiation : Prop :=
  (∀ (n : Lane) (seq : BitVec 8) (page : BitVec 128) (s : State), s.msgOpen n = true → seq.toNat ≠ 0 →
    seq.toNat ≠ s.rd .lfrRxSeq n → s.rd .lfrNegState n = 3 → ∃ t, exec (.msgAbilityRx n seq page) s = .next t ∧
      t.rd .lfrRxSeq n = seq.toNat ∧
      (List.range 4).all (fun k => t.rd .lfrPartnerPage n k == page.toNat / 2 ^ (32 * k) % 2 ^ 32) = true ∧
      t.rd .lfrNegState n = 3 ∧ Changes s t n [.lfrRxSeq, .lfrPartnerPage]) ∧
  (∀ (n : Lane) (seq : BitVec 8) (page : BitVec 128) (e : Nat) (s : State), s.msgOpen n = true → seq.toNat ≠ 0 →
    seq.toNat ≠ s.rd .lfrRxSeq n → s.rd .lfrNegState n = 1 →
    negCompute (s.abilityPage n) page.toNat (s.rd .lfrGroupMode n != 2) = .inl e →
    ∃ t, exec (.msgAbilityRx n seq page) s = .next t ∧
      t.rd .lfrNegState n = 4 ∧ t.rd .lfrNegErr n = e ∧ (t.rd .lfrIntStatus n).testBit Irq.lfrNegFail = true) ∧
  (∀ (n : Lane) (seq : BitVec 8) (page : BitVec 128) (w : Nat) (s : State), s.msgOpen n = true → seq.toNat ≠ 0 →
    seq.toNat ≠ s.rd .lfrRxSeq n → s.rd .lfrNegState n = 1 → s.on .lfrConfGot n = false →
    negCompute (s.abilityPage n) page.toNat (s.rd .lfrGroupMode n != 2) = .inr w →
    ∃ t, exec (.msgAbilityRx n seq page) s = .next t ∧
      t.rd .lfrNegState n = 2 ∧ t.rd .lfrCand n = w % 2 ^ 32 ∧ t.rd .lfrRxSeq n = seq.toNat ∧ OnlyIn [.lfr] s t) ∧
  (∀ (n : Lane) (seq : BitVec 8) (result : BitVec 32) (s : State), s.msgOpen n = true → seq.toNat ≠ 0 →
    seq.toNat ≠ s.rd .lfrRxSeq n → s.rd .lfrNegState n = 1 → ∃ t, exec (.msgConfirmRx n seq result) s = .next t ∧
      t.rd .lfrRxSeq n = seq.toNat ∧ t.rd .lfrConfGot n = 1 ∧ t.rd .lfrPartConf n = result.toNat ∧
      t.rd .lfrNegState n = 1 ∧ Changes s t n [.lfrRxSeq, .lfrConfGot, .lfrPartConf]) ∧
  (∀ (n : Lane) (seq : BitVec 8) (result : BitVec 32) (s : State), s.msgOpen n = true → seq.toNat ≠ 0 →
    seq.toNat ≠ s.rd .lfrRxSeq n → s.rd .lfrNegState n = 2 → result.toNat / 2 ^ 22 = s.rd .lfrCand n / 2 ^ 22 →
    s.on .lfrConfAcked n = true → s.rd .lfrCand n % 2 ^ 18 = 0 → (s.groupOf n).lanes = [n.val] →
    s.rd .lfrCand n / 2 ^ 26 % 4 = s.rd .lfrGroupMode n → ∃ t, exec (.msgConfirmRx n seq result) s = .next t ∧
      t.rd .lfrNegState n = 3 ∧ (t.rd .lfrIntStatus n).testBit Irq.lfrNegDone = true ∧
      t.rd .lfrResVer n = s.rd .lfrCand n / 2 ^ 28 ∧ t.rd .lfrResProfile n = s.rd .lfrCand n / 2 ^ 24 % 4) ∧
  (∀ (n : Lane) (seq : BitVec 8) (reason : BitVec 8) (s : State), s.msgOpen n = true → seq.toNat ≠ 0 →
    seq.toNat ≠ s.rd .lfrRxSeq n → (s.rd .lfrNegState n = 1 ∨ s.rd .lfrNegState n = 2) →
    ∃ t, exec (.msgRenegRx n seq reason) s = .next t ∧
      t.rd .lfrRxSeq n = seq.toNat ∧
      t.rd .lfrRenegRxCnt n = min (s.rd .lfrRenegRxCnt n + 1) (2 ^ Field.width .lfrRenegRxCnt - 1) ∧
      (t.rd .lfrIntStatus n).testBit Irq.lfrReneg = true ∧ t.rd .lfrNegState n = s.rd .lfrNegState n ∧
      Changes s t n [.lfrRxSeq, .lfrRenegRxCnt, .lfrIntStatus]) ∧
  (∀ (n : Lane) (seq : BitVec 8) (reason : BitVec 8) (s : State), s.msgOpen n = true → seq.toNat ≠ 0 →
    seq.toNat ≠ s.rd .lfrRxSeq n → s.rd .lfrNegState n = 3 → s.rd .lfrNativeEn (s.groupOf n).lead = 1 →
    s.rd .lfrGroupMode n ≠ 2 → (s.groupOf n).lanes = [n.val] → ∃ t, exec (.msgRenegRx n seq reason) s = .next t ∧
      t.rd .lrxState n = 3 ∧ t.rd .lfrNegState n = 1 ∧ t.rd .lfrAttempt n = 0 ∧ t.rd .lrxProfApply n = 0) ∧
  (∀ (n : Lane) (s : State), (s.rd .lfrNegState n = 1 ∨ s.rd .lfrNegState n = 2) →
    s.rd .lfrAttempt n < s.rd .lfrNegRetryMax n → ∃ t, exec (.negTimeout n) s = .next t ∧
      t.rd .lfrNegState n = 1 ∧ t.rd .lfrAttempt n = s.rd .lfrAttempt n + 1 ∧ t.rd .lfrCand n = 0 ∧
      t.rd .lfrConfGot n = 0 ∧ OnlyIn [.lfr] s t) ∧
  (∀ (n : Lane) (s : State), (s.rd .lfrNegState n = 1 ∨ s.rd .lfrNegState n = 2) →
    s.rd .lfrNegRetryMax n ≤ s.rd .lfrAttempt n → ∃ t, exec (.negTimeout n) s = .next t ∧
      t.rd .lfrNegState n = 4 ∧ t.rd .lfrNegErr n = 5 ∧ (t.rd .lfrIntStatus n).testBit Irq.lfrNegFail = true ∧
      OnlyIn [.lfr] s t) ∧
  (∀ (n : Lane) (s : State), s.rd .lfrNegState n = 5 → s.on .lfrHelloSeen n = true →
    exec (.helloTimeout n) s = .next s) ∧
  (∀ (n : Lane) (s : State), s.rd .lfrNegState n = 5 → s.on .lfrHelloSeen n = false → s.rd .lfrGroupMode n = 2 →
    (s.groupOf n).lanes.all (fun k => k == n || s.rd .lfrNegState k != 3) = true →
    ∃ t, exec (.helloTimeout n) s = .next t ∧
      t.rd .lfrSideOn n = 0 ∧ t.rd .lfrTxType n = 0 ∧ t.rd .lfrNegState n = 3 ∧ t.rd .lfrResMode n = 2 ∧
      t.rd .lfrResProfile n = 3 ∧ t.rd .lfrResPartner n = 3 ∧ (t.rd .lfrIntStatus n).testBit Irq.lfrNegDone = true) ∧
  (∀ (n : Lane) (s : State), s.reaches .lfr n → s.underTest 1 n = false → s.underTest 4 n = false →
    (s.lrxInTraffic n = false ∨ s.on .lrxSleep n = true) → exec (.reneg n) s = .next s) ∧
  (∀ (n : Lane) (s : State), s.reaches .lfr n → s.underTest 1 n = false → s.underTest 4 n = false →
    s.lrxInTraffic n = true → s.on .lrxSleep n = false → s.rd .lfrNativeEn (s.groupOf n).lead = 1 →
    s.rd .lfrGroupMode n ≠ 2 → (s.groupOf n).lanes = [n.val] → ∃ t, exec (.reneg n) s = .next t ∧
      t.rd .lrxState n = 3 ∧ t.rd .lfrNegState n = 1 ∧ t.rd .lfrLeadOnly n = 0) ∧
  (∀ (n : Lane) (s : State), s.reaches .lfr n → s.underTest 1 n = true → s.maskBit .hltSvcPreemptLine n = false →
    ∃ t, exec (.reneg n) s = .next t ∧
      t = { s with deferred := s.deferred ++ [.reneg n] })

/-- PROFILE_CHANGE of a lane not under test: while one is open it sets BUSY_REFUSED and PROFILE_FAIL; in ACQUIRE it
ends with status 5; where the checks pass, the active profile again is DONE without a message, and any other opens,
PENDING, with the next transaction number. PROFILE_TIMEOUT ends an open request without an answer with status 6, and
else changes nothing. PROFILE_SWITCH makes the pending profile the active one and discards 512 codewords; with none
pending it changes nothing. A taken request is answered: a forced one accepted, one in TRAIN refused with status 5,
one that passes the checks accepted and kept for the switch. A taken reply to the open transaction accepts it for the
switch or ends it with its status; one to another transaction changes nothing else. It concludes, from conditions on
the state and the operands alone, that exec answers a next state with the command's own effect, of: profileChange,
profileTimeout, profileSwitch, msgProfileChangeRx, msgProfileReplyRx. From rules R214, R215, R216, R217, R218, R219.
-/
def Obligations.ProfileChange : Prop :=
  (∀ (n : Lane) (s : State), s.reaches .lfr n → s.underTest 1 n = false → s.underTest 4 n = false →
    s.on .lfrReqOpen n = true → ∃ t, exec (.profileChange n) s = .next t ∧
      t.rd .lfrProfBusyRefused n = 1 ∧ (t.rd .lfrIntStatus n).testBit Irq.lfrProfileFail = true ∧
      Changes s t n [.lfrProfBusyRefused, .lfrIntStatus]) ∧
  (∀ (n : Lane) (s : State), s.reaches .lfr n → s.underTest 1 n = false → s.underTest 4 n = false →
    s.on .lfrReqOpen n = false → s.rd .lrxState n = 2 → ∃ t, exec (.profileChange n) s = .next t ∧
      t.rd .lfrProfStatus n = 5 ∧ t.rd .lfrReqOpen n = 0 ∧ (t.rd .lfrIntStatus n).testBit Irq.lfrProfileFail = true ∧
      t.rd .lfrProfActive n = s.rd .lfrProfActive n) ∧
  (∀ (n : Lane) (s : State), s.reaches .lfr n → s.underTest 1 n = false → s.underTest 4 n = false →
    s.on .lfrReqOpen n = false → s.profCheck n (s.rd .lfrProfReq n) true = none →
    s.rd .lfrProfReq n = s.rd .lfrProfActive n → ∃ t, exec (.profileChange n) s = .next t ∧
      t.rd .lfrProfStatus n = 0 ∧ t.rd .lfrProfBusyRefused n = 0 ∧ t.rd .lfrTxType n = s.rd .lfrTxType n ∧
      OnlyIn [.lfr] s t) ∧
  (∀ (n : Lane) (s : State), s.reaches .lfr n → s.underTest 1 n = false → s.underTest 4 n = false →
    s.on .lfrReqOpen n = false → s.profCheck n (s.rd .lfrProfReq n) true = none →
    s.rd .lfrProfReq n ≠ s.rd .lfrProfActive n → ∃ t, exec (.profileChange n) s = .next t ∧
      t.rd .lfrProfStatus n = 1 ∧ t.rd .lfrReqOpen n = 1 ∧ t.rd .lfrTxn n = (s.rd .lfrTxn n + 1) % 256 ∧
      t.rd .lfrProfActive n = s.rd .lfrProfActive n ∧ (s.rd .lfrTxType n = 0 → t.rd .lfrTxType n = 4) ∧
      OnlyIn [.lfr] s t) ∧
  (∀ (n : Lane) (s : State), s.on .lfrReqOpen n = true → s.on .lfrReqAcc n = false →
    ∃ t, exec (.profileTimeout n) s = .next t ∧
      t.rd .lfrReqOpen n = 0 ∧ t.rd .lfrProfStatus n = 6 ∧ t.rd .lfrProfSide n = 1 ∧
      (t.rd .lfrIntStatus n).testBit Irq.lfrProfileFail = true ∧ t.rd .lfrProfActive n = s.rd .lfrProfActive n ∧
      OnlyIn [.lfr, .evf] s t) ∧
  (∀ (n : Lane) (s : State), (s.on .lfrReqOpen n = false ∨ s.on .lfrReqAcc n = true) →
    exec (.profileTimeout n) s = .next s) ∧
  (∀ (n : Lane) (s : State), s.on .lfrSwPend n = false → exec (.profileSwitch n) s = .next s) ∧
  (∀ (n : Lane) (s : State), s.Inv → s.on .lfrSwPend n = true → ∃ t, exec (.profileSwitch n) s = .next t ∧
      t.rd .lfrProfActive n = s.rd .lfrSwProf n ∧ t.rd .lfrSwOld n = s.rd .lfrProfActive n ∧ t.rd .lfrSwPend n = 0 ∧
      t.rd .lfrDiscLeft n = 512 ∧ t.rd .lfrAwaitRel n = 1 ∧ OnlyIn [.lfr, .pwr] s t) ∧
  (∀ (n : Lane) (seq : BitVec 8) (prof : Fin 3) (forced : Bool) (txn : BitVec 8) (s : State), s.msgOpen n = true →
    seq.toNat ≠ 0 → seq.toNat ≠ s.rd .lfrRxSeq n → forced = true → s.rd .lfrTxType n = 0 →
    ∃ t, exec (.msgProfileChangeRx n seq prof forced txn) s = .next t ∧
      t.rd .lfrRxSeq n = seq.toNat ∧ t.rd .lfrPartProf n = prof ∧ t.rd .lfrTxType n = 5 ∧
      t.rd .lfrTxBody n = 65536 * txn.toNat ∧ t.rd .lfrProfActive n = s.rd .lfrProfActive n ∧ OnlyIn [.lfr] s t) ∧
  (∀ (n : Lane) (seq : BitVec 8) (prof : Fin 3) (forced : Bool) (txn : BitVec 8) (s : State), s.msgOpen n = true →
    seq.toNat ≠ 0 → seq.toNat ≠ s.rd .lfrRxSeq n → forced = false → s.rd .lfrTxType n = 0 →
    s.on .lfrReqOpen n = false → s.rd .lrxState n = 3 →
    ∃ t, exec (.msgProfileChangeRx n seq prof forced txn) s = .next t ∧
      t.rd .lfrTxType n = 5 ∧ t.rd .lfrTxBody n = 1 + 256 * 5 + 65536 * txn.toNat ∧
      t.rd .lfrReplyWait n = s.rd .lfrReplyWait n ∧ OnlyIn [.lfr] s t) ∧
  (∀ (n : Lane) (seq : BitVec 8) (prof : Fin 3) (forced : Bool) (txn : BitVec 8) (s : State), s.msgOpen n = true →
    seq.toNat ≠ 0 → seq.toNat ≠ s.rd .lfrRxSeq n → forced = false → s.rd .lfrTxType n = 0 →
    s.on .lfrReqOpen n = false → s.profCheck n prof true = none →
    ∃ t, exec (.msgProfileChangeRx n seq prof forced txn) s = .next t ∧
      t.rd .lfrTxType n = 5 ∧ t.rd .lfrTxBody n = 65536 * txn.toNat ∧ t.rd .lfrReplyWait n = 1 ∧
      t.rd .lfrReplyProf n = prof ∧ t.rd .lfrProfActive n = s.rd .lfrProfActive n ∧ OnlyIn [.lfr] s t) ∧
  (∀ (n : Lane) (seq : BitVec 8) (refuse : Bool) (status : Fin 9) (txn : BitVec 8) (s : State), s.Inv →
    s.msgOpen n = true → seq.toNat ≠ 0 → seq.toNat ≠ s.rd .lfrRxSeq n → s.on .lfrReqOpen n = true →
    s.on .lfrReqAcc n = false → txn.toNat = s.rd .lfrTxn n → refuse = false →
    ∃ t, exec (.msgProfileReplyRx n seq refuse status txn) s = .next t ∧
      t.rd .lfrReqAcc n = 1 ∧ t.rd .lfrSwPend n = 1 ∧ t.rd .lfrSwProf n = s.rd .lfrReqProf n ∧
      t.rd .lfrRxSeq n = seq.toNat ∧ Changes s t n [.lfrRxSeq, .lfrReqAcc, .lfrSwPend, .lfrSwProf]) ∧
  (∀ (n : Lane) (seq : BitVec 8) (refuse : Bool) (status : Fin 9) (txn : BitVec 8) (s : State), s.msgOpen n = true →
    seq.toNat ≠ 0 → seq.toNat ≠ s.rd .lfrRxSeq n → s.on .lfrReqOpen n = true → s.on .lfrReqAcc n = false →
    txn.toNat = s.rd .lfrTxn n → refuse = true → ∃ t, exec (.msgProfileReplyRx n seq refuse status txn) s = .next t ∧
      t.rd .lfrReqOpen n = 0 ∧ t.rd .lfrProfStatus n = status ∧ t.rd .lfrProfSide n = 1 ∧
      t.rd .lfrSwPend n = s.rd .lfrSwPend n ∧ OnlyIn [.lfr, .evf] s t) ∧
  (∀ (n : Lane) (seq : BitVec 8) (refuse : Bool) (status : Fin 9) (txn : BitVec 8) (s : State), s.msgOpen n = true →
    seq.toNat ≠ 0 → seq.toNat ≠ s.rd .lfrRxSeq n → txn.toNat ≠ s.rd .lfrTxn n →
    ∃ t, exec (.msgProfileReplyRx n seq refuse status txn) s = .next t ∧
      t.rd .lfrRxSeq n = seq.toNat ∧ Changes s t n [.lfrRxSeq])

/-- A receive codeword boundary applies the committed shadow of the receiver, and, above supply warning, of the
equaliser, where the grid runs, and elsewhere changes nothing; a line transmit boundary applies the committed transmit
shadow outside OFF above warning, and in OFF changes nothing. A receive frame boundary in frame lock on a running grid
advances the receive frame counter, starts the negotiated profile at its first one with 512 codewords to discard, and
switches a pending one; elsewhere it changes nothing. A transmit frame boundary outside OFF advances FRAME_TX modulo
65,536, gives FILL, and in the native format sends a content whose header holds the counter, in the other none; in OFF
it leaves FRAME_TX and changes registers of the host lanes alone. A word dropped by a strait of the dropping kind
counts in STRAIT_OVF with its identifier and interrupt; other straits change nothing. One of a line receive strait
takes its lane, where its grid runs and the fault window does not act at once, to FAULT with cause 7, and elsewhere
changes no state of a lane; one of a line transmit strait so takes a direction in ACTIVE to FAULT with cause 7; one of
a timestamp strait counts TS_LOST. STRAIT_ERR_CLR clears the count and the identifier. It concludes, from conditions
on the state and the operands alone, that exec answers a next state with the command's own effect, of:
codewordBoundaryApply, frameBoundaryApply, txFrameBoundary, straitOverflow, straitErrClr. From rules R36, R37, R40,
R41, R45, R46, R127, R154, R196, R202, R205, R212. -/
def Obligations.BoundariesAndStraits : Prop :=
  (∀ (n : Lane) (tx : Bool) (s : State), tx = false → s.rxGrid n = false →
    exec (.codewordBoundaryApply n tx) s = .next s) ∧
  (∀ (n : Lane) (tx : Bool) (s : State), tx = true → s.rd .ltxState n = 0 →
    exec (.codewordBoundaryApply n tx) s = .next s) ∧
  (∀ (n : Lane) (tx : Bool) (s : State), s.Inv → tx = false → s.rxGrid n = true → s.on .lrxCommit n = true →
    ∃ t, exec (.codewordBoundaryApply n tx) s = .next t ∧
      t.rd .lrxCommit n = 0 ∧ (∀ f ∈ lrxShadowed, t.use f n = s.rd f n)) ∧
  (∀ (n : Lane) (tx : Bool) (s : State), s.Inv → tx = false → s.rxGrid n = true → s.on .leqCommit n = true →
    s.warning = false → ∃ t, exec (.codewordBoundaryApply n tx) s = .next t ∧
      t.rd .leqCommit n = 0 ∧ (∀ f ∈ leqShadowed, t.use f n = s.rd f n)) ∧
  (∀ (n : Lane) (tx : Bool) (s : State), s.Inv → tx = true → s.rd .ltxState n ≠ 0 → s.on .ltxCommit n = true →
    s.warning = false → ∃ t, exec (.codewordBoundaryApply n tx) s = .next t ∧
      t.rd .ltxCommit n = 0 ∧ (∀ e ∈ ltxShadowed, t.use e.1 n e.2 = s.rd e.1 n e.2)) ∧
  (∀ (n : Lane) (s : State), (s.on .lfrFrameLock n = false ∨ s.rxGrid n = false) →
    exec (.frameBoundaryApply n) s = .next s) ∧
  (∀ (n : Lane) (s : State), s.Inv → s.on .lfrFrameLock n = true → s.rxGrid n = true → s.on .lrxProfApply n = true →
    s.on .lfrSwPend n = false → ∃ t, exec (.frameBoundaryApply n) s = .next t ∧
      t.rd .lfrRxFrame n = (s.rd .lfrRxFrame n + 1) % 2 ^ Field.width .lfrRxFrame ∧
      (t.rd .lfrProfActive n = (if s.rd .lfrGroupMode n = 2 then 3 else s.rd .lfrResProfile n)) ∧
      t.rd .lrxProfApply n = 0 ∧ t.rd .lfrDiscLeft n = 512) ∧
  (∀ (n : Lane) (s : State), s.Inv → s.on .lfrFrameLock n = true → s.rxGrid n = true → s.on .lrxProfApply n = false →
    s.on .lfrSwPend n = true → ∃ t, exec (.frameBoundaryApply n) s = .next t ∧
      t.rd .lfrProfActive n = s.rd .lfrSwProf n ∧ t.rd .lfrSwPend n = 0) ∧
  (∀ (n : Lane) (a : BitVec 983072) (b : BitVec 983072) (s : State), s.rd .ltxState n = 0 →
    ∃ t, exec (.txFrameBoundary n a b) s = .next t ∧
      t.rd .lfrFrameTx n = s.rd .lfrFrameTx n ∧ OnlyIn [.hif, .hifGlb] s t) ∧
  (∀ (n : Lane) (a : BitVec 983072) (b : BitVec 983072) (s : State), s.rd .ltxState n ≠ 0 →
    s.on .lfrCompatTx n = false → ∃ t, exec (.txFrameBoundary n a b) s = .next t ∧
      t.rd .lfrFrameTx n = (s.rd .lfrFrameTx n + 1) % 2 ^ Field.width .lfrFrameTx ∧
      t.rd .lfrFillTx n = bit (s.fillTx n) ∧ t.rd .lfrOutFrame n % 2 ^ 16 = t.rd .lfrFrameTx n) ∧
  (∀ (n : Lane) (a : BitVec 983072) (b : BitVec 983072) (s : State), s.rd .ltxState n ≠ 0 →
    s.on .lfrCompatTx n = true → ∃ t, exec (.txFrameBoundary n a b) s = .next t ∧
      t.rd .lfrFrameTx n = (s.rd .lfrFrameTx n + 1) % 2 ^ Field.width .lfrFrameTx ∧
      t.rd .lfrOutFrame n = s.rd .lfrOutFrame n) ∧
  (∀ (id : BitVec 7) (lanes : BitVec 4) (s : State), dropping id.toNat = false →
    exec (.straitOverflow id lanes) s = .next s) ∧
  (∀ (id : BitVec 7) (lanes : BitVec 4) (s : State), dropping id.toNat = true →
    ∃ t, exec (.straitOverflow id lanes) s = .next t ∧
      t.rd .glbStraitOvfCount = min (s.rd .glbStraitOvfCount + 1) (2 ^ Field.width .glbStraitOvfCount - 1) ∧
      t.rd .glbStraitLastId = id.toNat ∧ (t.rd .glbIntStatus).testBit Irq.glbStraitOvf = true) ∧
  (∀ (id : BitVec 7) (lanes : BitVec 4) (s : State), id.toNat < 8 → s.rxGrid id.toNat = true →
    s.rd .hltAction 0 3 ≤ 1 → ∃ t, exec (.straitOverflow id lanes) s = .next t ∧
      t.rd .lrxState id.toNat = 7 ∧ t.rd .lrxFaultCause id.toNat = 7) ∧
  (∀ (id : BitVec 7) (lanes : BitVec 4) (s : State), id.toNat < 8 → s.rxGrid id.toNat = false →
    ∃ t, exec (.straitOverflow id lanes) s = .next t ∧
      t.rd .lrxState id.toNat = s.rd .lrxState id.toNat ∧ OnlyIn [.glb] s t) ∧
  (∀ (id : BitVec 7) (lanes : BitVec 4) (s : State), 0x20 ≤ id.toNat → id.toNat < 0x28 →
    s.rd .ltxState (id.toNat - 0x20) = 4 → s.rd .hltAction 0 8 ≤ 1 →
    ∃ t, exec (.straitOverflow id lanes) s = .next t ∧
      t.rd .ltxState (id.toNat - 0x20) = 7 ∧ t.rd .ltxFaultCause (id.toNat - 0x20) = 7) ∧
  (∀ (id : BitVec 7) (lanes : BitVec 4) (s : State), 0x28 ≤ id.toNat → id.toNat < 0x34 →
    ∃ t, exec (.straitOverflow id lanes) s = .next t ∧
      t.rd .timTsLostCnt = min (s.rd .timTsLostCnt + 1) (2 ^ Field.width .timTsLostCnt - 1) ∧
      (t.rd .timIntStatus).testBit Irq.timTsLost = true ∧ OnlyIn [.glb, .tim] s t) ∧
  (∀ (s : State), s.reaches .glb 0 → ∃ t, exec (.straitErrClr) s = .next t ∧
      t.rd .glbStraitOvfCount = 0 ∧ t.rd .glbStraitLastId = 0 ∧ Changes s t 0 [.glbStraitOvfCount, .glbStraitLastId])

/-- A codeword the grid of a lane hands over outside LOCKED and SERVICE is dropped; in LOCKED, awake and with no
profile change at work, one in a discard window counts the window down and, where it counts, is counted. With neither,
a Ristretto codeword takes a release slot due 5033 UI after its arrival and asks for the bypass port with its hard
decisions; a compatibility codeword under frame lock takes one due 10,240 UI after its arrival and asks likewise. An
Espresso or Lungo codeword finding room joins the end of the home queue with its arrival, soft codes and deadline,
takes a slot due 79,833 or 165,966 UI after its arrival and raises the high-water mark; at a full queue, with no
action of the fault window, it is counted and flagged as EXP_Q with Q_FULL and goes to the port at once. A queue's
head that is past its latest start (no action, no Trim) leaves the queue as EXP_Q with its hard decisions; before it,
nothing expires. It concludes, from conditions on the state and the operands alone, that exec answers a next state
with the command's own effect, of: codewordEnqueue, codewordExpiry. From rules R48, R226, R227, R228, R239, R120,
R216, R224. -/
def Obligations.CodewordQueueing : Prop :=
  (∀ (n : Lane) (index : BitVec 8) (samples : List Int) (s : State), s.rd .lrxState n ≤ 3 →
    s.rd .lfrGroupMode n ≠ 2 → exec (.codewordEnqueue n index samples) s = .next s) ∧
  (∀ (n : Lane) (index : BitVec 8) (samples : List Int) (s : State), s.Inv → s.rd .lrxState n = 5 →
    s.rd .lfrGroupMode n ≠ 2 → s.on .lrxSleep n = false → s.on .lrxProfApply n = false → s.on .lfrPcLeft n = false →
    s.on .lfrDiscLeft n = true → ∃ t, exec (.codewordEnqueue n index samples) s = .next t ∧
      t.rd .lfrDiscLeft n = s.rd .lfrDiscLeft n - 1 ∧
      (s.on .lfrDiscCnt n = true → t.rd .lfrPcDiscardCnt n = min (s.rd .lfrPcDiscardCnt n +
        1) (2 ^ Field.width .lfrPcDiscardCnt - 1)) ∧ Changes s t n [.lfrDiscLeft, .lfrPcDiscardCnt]) ∧
  (∀ (n : Lane) (index : BitVec 8) (samples : List Int) (s : State), s.rd .lrxState n = 5 →
    s.rd .lfrGroupMode n ≠ 2 → s.on .lrxSleep n = false → s.on .lrxProfApply n = false → s.on .lfrPcLeft n = false →
    s.on .lfrDiscLeft n = false → s.maskBit .glbDecodeRun n = true → s.rd .lfrProfActive n = 0 →
    ∃ t, exec (.codewordEnqueue n index samples) s = .next t ∧
      t.homeQ = s.homeQ ∧ t.slots.take s.slots.length = s.slots ∧ t.slots.length = s.slots.length + 1 ∧
      (t.slots.getLast?).map (fun r => (r.lane, r.index, r.due, r.words)) = some (n.val, index.toNat,
        ((s.arrivalOf n index.toNat).1 + 5033) % 2 ^ 24, 0) ∧
      (t.emits.getLast?).map (fun e => (e.cluster, e.bypass, e.eng, e.cw.index, e.data)) = some (n.val, true, 128,
        index.toNat, payloadOf (inputHard (s.softCodes n samples))) ∧ t.emits.length = s.emits.length + 1 ∧
      t.regs = s.regs) ∧
  (∀ (n : Lane) (index : BitVec 8) (samples : List Int) (s : State), s.rd .lrxState n = 5 →
    s.rd .lfrGroupMode n = 2 → s.on .lfrFrameLock n = true → s.on .lrxSleep n = false → s.on .lrxProfApply n = false →
    s.on .lfrPcLeft n = false → s.on .lfrDiscLeft n = false → s.maskBit .glbDecodeRun n = true →
    s.rd .lfrProfActive n = 3 → ∃ t, exec (.codewordEnqueue n index samples) s = .next t ∧
      t.homeQ = s.homeQ ∧ t.slots.length = s.slots.length + 1 ∧
      (t.slots.getLast?).map (fun r => (r.lane, r.index, r.due, r.words)) = some (n.val, index.toNat,
        (((s.wr .lfrUnits (s.rd .lfrUnits n + 1) n).arrivalOf n index.toNat).1 + 10240) % 2 ^ 24, 0) ∧
      (t.emits.getLast?).map (fun e => (e.cluster, e.bypass, e.eng, e.cw.index)) = some (n.val, true, 128,
        index.toNat) ∧ t.rd .lfrUnits n = (s.rd .lfrUnits n + 1) % 2 ^ Field.width .lfrUnits ∧
      Changes { s with slots := t.slots, emits := t.emits } t n [.lfrUnits]) ∧
  (∀ (n : Lane) (index : BitVec 8) (samples : List Int) (s : State), s.rd .lrxState n = 5 →
    s.rd .lfrGroupMode n ≠ 2 → s.on .lrxSleep n = false → s.on .lrxProfApply n = false → s.on .lfrPcLeft n = false →
    s.on .lfrDiscLeft n = false → s.maskBit .glbDecodeRun n = true →
    (s.rd .lfrProfActive n = 1 ∨ s.rd .lfrProfActive n = 2) → (s.queue n).length < s.homeQDepth n →
    ∃ t, exec (.codewordEnqueue n index samples) s = .next t ∧
      t.homeQ.take s.homeQ.length = s.homeQ ∧
      ((t.homeQ.getLast?).map (fun w => (w.lane, w.index, w.arrival, w.deadline, w.llr)) = some (n.val, index.toNat,
        (s.arrivalOf n index.toNat).2, ((s.arrivalOf n index.toNat).2 + (if s.rd .lfrProfActive n =
        1 then 77113 else 163246)) % 2 ^ 24, s.softCodes n samples)) ∧ t.homeQ.length = s.homeQ.length + 1 ∧
      t.emits = s.emits ∧
      ((t.slots.getLast?).map (fun r => (r.lane, r.index, r.due, r.words)) = some (n.val, index.toNat,
        ((s.arrivalOf n index.toNat).1 + (if s.rd .lfrProfActive n = 1 then 79833 else 165966)) % 2 ^ 24, 0)) ∧
      t.rd .arcClQHwm n = max (s.rd .arcClQHwm n) ((s.queue n).length + 1) % 2 ^ Field.width .arcClQHwm) ∧
  (∀ (n : Lane) (index : BitVec 8) (samples : List Int) (s : State), s.rd .lrxState n = 5 →
    s.rd .lfrGroupMode n ≠ 2 → s.on .lrxSleep n = false → s.on .lrxProfApply n = false → s.on .lfrPcLeft n = false →
    s.on .lfrDiscLeft n = false → s.maskBit .glbDecodeRun n = true →
    (s.rd .lfrProfActive n = 1 ∨ s.rd .lfrProfActive n = 2) → s.homeQDepth n ≤ (s.queue n).length →
    s.rd .hltAction 0 6 ≤ 1 → s.on .pwrLnTrim n = false → ∃ t, exec (.codewordEnqueue n index samples) s = .next t ∧
      t.rd .arcClQFull n = 1 ∧
      t.rd .arcClExpQCnt n = min (s.rd .arcClExpQCnt n + 1) (2 ^ Field.width .arcClExpQCnt - 1) ∧
      (t.rd .arcClIntStatus n).testBit Irq.arcClQFull = true ∧ (t.rd .arcClIntStatus n).testBit Irq.arcClExpQ = true ∧
      t.homeQ = s.homeQ ∧ t.emits.length = s.emits.length + 1) ∧
  (∀ (n : Lane) (phase : Int) (s : State), s.queue n = [] → exec (.codewordExpiry n phase) s = .next s) ∧
  (∀ (n : Lane) (phase : Int) (cw : Codeword) (q : List Codeword) (s : State), s.queue n = cw :: q →
    notBefore (s.compAtc phase) (s.latestStart n cw).1 = true → ∃ t, exec (.codewordExpiry n phase) s = .next t ∧
      t = (s.latestStart n cw).2) ∧
  (∀ (n : Lane) (phase : Int) (cw : Codeword) (q : List Codeword) (s : State), s.queue n = cw :: q →
    notBefore (s.compAtc phase) (s.latestStart n cw).1 = false → cw.lane = n → s.rd .hltAction 0 6 ≤ 1 →
    s.on .pwrLnTrim n = false → ∃ t, exec (.codewordExpiry n phase) s = .next t ∧
      t.homeQ = s.homeQ.erase cw ∧
      t.rd .arcClExpQCnt n = min (s.rd .arcClExpQCnt n + 1) (2 ^ Field.width .arcClExpQCnt - 1) ∧
      (t.rd .arcClIntStatus n).testBit Irq.arcClExpQ = true ∧
      t.emits = s.emits ++ [⟨n, false, 128, cw, payloadOf (inputHard cw.llr), 0⟩])

/-- An engine that is not IDLE asks for nothing. An IDLE one with no test and no task listed whose home queue offers
its head asks the home arbiter; with no test, no codeword queued and a refresh listed for it, it serves the refresh;
with no work at all it only withdraws its request. A grant with no requester changes nothing. The sole requester of a
queue, in its own cluster and with that lane as its home, loads a head still within its latest start, which leaves the
queue and no stolen codeword is counted; a head past it expires with EXP_Q and the engine's cluster counts a lost
race, as it does where the queue is empty. An engine that received its transfer loads. It concludes, from conditions
on the state and the operands alone, that exec answers a next state with the command's own effect, of: engineRequest,
queueGrant, stealTransferDone. From rules R220, R227, R228, R230, R232, R233, R234, R235, R236, R246. -/
def Obligations.EngineGrants : Prop :=
  (∀ (e : Fin 128) (phase : Int) (s : State), s.engState e ≠ 0 → exec (.engineRequest e phase) s = .next s) ∧
  (∀ (e : Fin 128) (phase : Int) (s : State), s.engState e = 0 → s.tests = [] → s.bg = [] →
    (s.homeOffer e (s.compAtc phase)).1 = true → ∃ t, exec (.engineRequest e phase) s = .next t ∧
      t.asks.getLast? = some (e.val, (s.engHome e).1) ∧ t.homeQ = s.homeQ ∧ t.regs = s.regs) ∧
  (∀ (e : Fin 128) (phase : Int) (s : State), s.engState e = 0 → s.tests = [] → s.homeQ = [] →
    s.bg = [⟨e.val / 16, 1, e, 0, false, none, none, false⟩] → ∃ t, exec (.engineRequest e phase) s = .next t ∧
      t.rd .arcEngSt 0 e = 4 ∧ t.rd .arcEngRun 0 e = 1 ∧ t.bg = [⟨e.val / 16, 1, e, 0, false, some e.val, none, true⟩]) ∧
  (∀ (e : Fin 128) (phase : Int) (s : State), s.engState e = 0 → s.tests = [] → s.homeQ = [] → s.bg = [] →
    ∃ t, exec (.engineRequest e phase) s = .next t ∧
      t = { s with asks := s.asks.filter (fun a => a.1 ≠ e.val) }) ∧
  (∀ (n : Lane) (phase : Int) (s : State), (∀ a ∈ s.asks, a.2 ≠ n) → exec (.queueGrant n phase) s = .next s) ∧
  (∀ (n : Lane) (phase : Int) (e : Fin 128) (cw : Codeword) (q : List Codeword) (s : State),
    s.asks = [(e.val, n.val)] → s.queue n = cw :: q → s.engState e = 0 → e.val / 16 = n → (s.engHome e).1 = n →
    notBefore (s.compAtc phase) (s.latestStart n cw).1 = true → ∃ t, exec (.queueGrant n phase) s = .next t ∧
      t.homeQ = s.homeQ.erase cw ∧ t.asks = [] ∧ t.rd .arcEngSt 0 e = 2 ∧
      (t.workOf e).map (fun w => (w.cw, w.stage)) = some (cw, EngStage.load) ∧
      t.rd .arcClStolenOutCnt n = s.rd .arcClStolenOutCnt n ∧ OnlyIn [.arc] s t) ∧
  (∀ (n : Lane) (phase : Int) (e : Fin 128) (cw : Codeword) (q : List Codeword) (s : State),
    s.asks = [(e.val, n.val)] → s.queue n = cw :: q → cw.lane = n →
    notBefore (s.compAtc phase) (s.latestStart n cw).1 = false → ∃ t, exec (.queueGrant n phase) s = .next t ∧
      t.homeQ = s.homeQ.erase cw ∧ t.asks = [] ∧ t.work = s.work ∧
      (t.rd .arcClIntStatus n).testBit Irq.arcClExpQ = true ∧
      t.rd .arcClRaceLostCnt (e / 16) = min (s.rd .arcClRaceLostCnt (e / 16) +
        1) (2 ^ Field.width .arcClRaceLostCnt - 1)) ∧
  (∀ (n : Lane) (phase : Int) (e : Fin 128) (s : State), s.asks = [(e.val, n.val)] → s.queue n = [] →
    ∃ t, exec (.queueGrant n phase) s = .next t ∧
      t.asks = [] ∧
      t.rd .arcClRaceLostCnt (e / 16) = min (s.rd .arcClRaceLostCnt (e / 16) +
        1) (2 ^ Field.width .arcClRaceLostCnt - 1) ∧ t.homeQ = s.homeQ ∧ t.work = s.work) ∧
  (∀ (e : Fin 128) (w : EngWork) (s : State), s.workOf e = some w → w.stage = .receive →
    ∃ t, exec (.stealTransferDone e) s = .next t ∧
      (t.workOf e).map (·.stage) = some EngStage.load ∧ t.rd .arcEngSt 0 e = 2 ∧ t.homeQ = s.homeQ ∧
      Changes { s with work := t.work } t 0 [.arcEngSt]) ∧
  (∀ (e : Fin 128) (s : State), s.workOf e = none → exec (.stealTransferDone e) s = .next s)

/-- A zero syndrome of the input hard decisions at the end of the load ends the decode, counted, with them at the
port; a nonzero one loads the posteriors and iterates. An iteration below the limit is one min-sum pass, after which a
nonzero syndrome goes on iterating; a zero syndrome of the hard decisions ends the decode at any iteration, with its
iteration and bit counts and those decisions; a nonzero one at the limit ends it as UNCORR with them (no action of the
fault window). The stop point ends a decode that is receiving, loading or iterating as EXP_RUN with its present
decisions (no action, no Trim), and nothing before it. An idle port serves the one request of its cluster, of an
engine or of the bypass; a busy one serves none. As many words as S-DX has room for enter it; with the eighth an
engine is IDLE and its work gone. Past its deadline an engine is FAILED with ENG_FAIL; before it, with no work or with
XBAR stopped, nothing happens. With no work none of these commands changes anything. It concludes, from conditions on
the state and the operands alone, that exec answers a next state with the command's own effect, of: engineLoadDone,
engineIterationDone, engineStopPoint, emitPortGrant, emitDone, engineDeadlineFail. From rules R222, R223, R224, R229,
R242, R243, R244, R332. -/
def Obligations.EngineDecodes : Prop :=
  (∀ (e : Fin 128) (w : EngWork) (s : State), s.workOf e = some w → w.stage = .load →
    ∃ t, exec (.engineLoadDone e) s = .next t ∧
      (syndromeZero (inputHard w.cw.llr) = true → t.rd .arcClDecodedCnt w.cw.lane =
        min (s.rd .arcClDecodedCnt w.cw.lane + 1) (2 ^ Field.width .arcClDecodedCnt - 1) ∧ t.emits =
        s.emits ++ [⟨e / 16, false, e, w.cw, payloadOf (inputHard w.cw.llr), 0⟩] ∧ (t.workOf e).map (·.stage) =
        some EngStage.waitPort) ∧
      (syndromeZero (inputHard w.cw.llr) = false → (t.workOf e).map (fun x => (x.stage, x.dec)) =
        some (EngStage.iterate, decodeLoad w.cw.llrMap w.cw.llr) ∧ t.emits = s.emits ∧ t.regs = s.regs) ∧
      OnlyIn [.arcCl, .arc] s t) ∧
  (∀ (e : Fin 128) (s : State), s.workOf e = none → exec (.engineLoadDone e) s = .next s) ∧
  (∀ (e : Fin 128) (w : EngWork) (s : State), s.workOf e = some w → w.stage = .iterate →
    syndromeZero (hardDecision (decodeIteration (s.minSum e).1 (s.minSum e).2 w.dec) (inputHard w.cw.llr)) = true →
    ∃ t, exec (.engineIterationDone e) s = .next t ∧
      t.rd .arcClIterSumCnt w.cw.lane = min (s.rd .arcClIterSumCnt w.cw.lane + (w.iter +
        1)) (2 ^ Field.width .arcClIterSumCnt - 1) ∧
      t.rd .arcClCorrBitsCnt w.cw.lane = min (s.rd .arcClCorrBitsCnt w.cw.lane +
        bitsChanged (hardDecision (decodeIteration (s.minSum e).1 (s.minSum e).2 w.dec) (inputHard w.cw.llr))
        (inputHard w.cw.llr)) (2 ^ Field.width .arcClCorrBitsCnt - 1) ∧
      t.emits = s.emits ++ [⟨e / 16, false, e, w.cw, payloadOf (hardDecision (decodeIteration (s.minSum e).1 (s.minSum
        e).2 w.dec) (inputHard w.cw.llr)), 0⟩] ∧ OnlyIn [.arcCl, .arc] s t) ∧
  (∀ (e : Fin 128) (w : EngWork) (s : State), s.workOf e = some w → w.stage = .iterate →
    w.iter + 1 < w.cw.iterLimit → ∃ t, exec (.engineIterationDone e) s = .next t ∧
      (t.workOf e).map (fun x => (x.iter, x.dec)) = some (w.iter + 1,
        (decodeIteration (s.minSum e).1 (s.minSum e).2 w.dec)) ∧
      (syndromeZero (hardDecision (decodeIteration (s.minSum e).1 (s.minSum e).2 w.dec) (inputHard w.cw.llr)) =
        false → (t.workOf e).map (·.stage) = some EngStage.iterate ∧ t.emits = s.emits ∧ t.regs = s.regs)) ∧
  (∀ (e : Fin 128) (w : EngWork) (s : State), s.workOf e = some w → w.stage = .iterate →
    w.cw.iterLimit ≤ w.iter + 1 → s.rd .hltAction 0 5 ≤ 1 → ∃ t, exec (.engineIterationDone e) s = .next t ∧
      (syndromeZero (hardDecision (decodeIteration (s.minSum e).1 (s.minSum e).2 w.dec) (inputHard w.cw.llr)) =
        false → t.rd .arcClUncorrCnt w.cw.lane = min (s.rd .arcClUncorrCnt w.cw.lane +
        1) (2 ^ Field.width .arcClUncorrCnt - 1) ∧ (t.rd .arcClIntStatus w.cw.lane).testBit Irq.arcClUncorr = true) ∧
      t.emits = s.emits ++ [⟨e / 16, false, e, w.cw, payloadOf (hardDecision (decodeIteration (s.minSum e).1 (s.minSum
        e).2 w.dec) (inputHard w.cw.llr)), 0⟩]) ∧
  (∀ (e : Fin 128) (s : State), s.workOf e = none → exec (.engineIterationDone e) s = .next s) ∧
  (∀ (e : Fin 128) (phase : Int) (w : EngWork) (s : State), s.workOf e = some w →
    (w.stage = .receive ∨ w.stage = .load ∨ w.stage = .iterate) →
    notBefore ((16 * w.cw.deadline + atcSpan - 16 * 320 - (s.aheadOf e w +
      8) / 9 % atcSpan) % atcSpan) (s.compAtc phase) = true → s.rd .hltAction 0 6 ≤ 1 →
    s.on .pwrLnTrim w.cw.lane = false → ∃ t, exec (.engineStopPoint e phase) s = .next t ∧
      t.rd .arcClExpRunCnt w.cw.lane = min (s.rd .arcClExpRunCnt w.cw.lane +
        1) (2 ^ Field.width .arcClExpRunCnt - 1) ∧ (t.rd .arcClIntStatus w.cw.lane).testBit Irq.arcClExpRun = true ∧
      t.emits = s.emits ++ [⟨e / 16, false, e, w.cw, payloadOf w.hard, 0⟩]) ∧
  (∀ (e : Fin 128) (phase : Int) (w : EngWork) (s : State), s.workOf e = some w →
    (w.stage = .receive ∨ w.stage = .load ∨ w.stage = .iterate) →
    notBefore ((16 * w.cw.deadline + atcSpan - 16 * 320 - (s.aheadOf e w +
      8) / 9 % atcSpan) % atcSpan) (s.compAtc phase) = false → exec (.engineStopPoint e phase) s = .next s) ∧
  (∀ (e : Fin 128) (phase : Int) (s : State), s.workOf e = none → exec (.engineStopPoint e phase) s = .next s) ∧
  (∀ (n : Lane) (x : Emission) (s : State), s.ports = [] → s.emits = [x] → x.cluster = n → x.bypass = false →
    x.eng < 128 → ∃ t, exec (.emitPortGrant n) s = .next t ∧
      t.ports = [x] ∧ t.emits = [] ∧ t.rd .arcEngSt 0 x.eng = 3) ∧
  (∀ (n : Lane) (x : Emission) (s : State), s.ports = [] → s.emits = [x] → x.cluster = n → x.eng = 128 →
    ∃ t, exec (.emitPortGrant n) s = .next t ∧
      t = { s with ports := [x], emits := [] }) ∧
  (∀ (n : Lane) (s : State), s.ports.any (fun p => p.cluster = n) = true → exec (.emitPortGrant n) s = .next s) ∧
  (∀ (n : Lane) (x : Emission) (s : State), s.ports = [x] → x.cluster = n → x.eng < 128 →
    8 ≤ x.sent + s.straitRoom (8 + n) → ∃ t, exec (.emitDone n) s = .next t ∧
      t.ports = [] ∧ t.straits = s.straits ++ x.words ∧ t.rd .arcEngSt 0 x.eng = 0 ∧ t.workOf x.eng = none ∧
      Changes { s with ports := [], straits := t.straits, work := t.work } t 0 [.arcEngSt]) ∧
  (∀ (n : Lane) (x : Emission) (s : State), s.ports = [x] → x.cluster = n → x.sent + s.straitRoom (8 + n) < 8 →
    ∃ t, exec (.emitDone n) s = .next t ∧
      t =
        { s with ports := [{ x with sent := x.sent + s.straitRoom (8 + n) }], straits := s.straits ++ x.words.take (s.straitRoom (8 + n)) }) ∧
  (∀ (n : Lane) (s : State), (∀ p ∈ s.ports, p.cluster ≠ n) → exec (.emitDone n) s = .next s) ∧
  (∀ (e : Fin 128) (phase : Int) (w : EngWork) (s : State), s.workOf e = some w → s.on .glbXbarRun = true →
    notBefore (16 * (w.cw.deadline + 2720)) (s.compAtc phase) = true →
    ∃ t, exec (.engineDeadlineFail e phase) s = .next t ∧
      t.rd .arcEngBad 0 e = 1 ∧ t.engState e = 7 ∧ (t.rd .arcIntStatus).testBit Irq.arcEngFail = true ∧
      t.workOf e = none) ∧
  (∀ (e : Fin 128) (phase : Int) (w : EngWork) (s : State), s.workOf e = some w → s.on .glbXbarRun = true →
    notBefore (16 * (w.cw.deadline + 2720)) (s.compAtc phase) = false → exec (.engineDeadlineFail e phase) s = .next s) ∧
  (∀ (e : Fin 128) (phase : Int) (s : State), (s.workOf e = none ∨ s.on .glbXbarRun = false) →
    exec (.engineDeadlineFail e phase) s = .next s)

/-- XBAR, running, takes the head word of a cluster's S-DX: a word of the codeword that waits is stored, descrambled
outside compatibility, at its place; the last word of a codeword that does not wait is discarded with RB_LATE. The
first slot of the lane, due now, is released with its payload when complete, with the lane's released bit where its
profile is the active one; incomplete, as zeros with RB_MISS (no action of the fault window); with nothing due no slot
changes the machine. A single microcode error is counted; a first double one refreshes an idle engine, a second one
fails it with ENG_FAIL. A due task joins an empty list and a second histogram gathering of the cluster does not. The
end of a refresh or of a gathering frees the engine and its task; a gathering's tallies join the histogram and are
cleared. It concludes, from conditions on the state and the operands alone, that exec answers a next state with the
command's own effect, of: releaseBufferWrite, codewordRelease, microcodeEccError, bgTaskDue, engineRefreshDone,
histGatherDone. From rules R36, R48, R194, R216, R237, R238, R242, R243, R244, R245, R246, R332. -/
def Obligations.ReleaseAndBackgroundWork : Prop :=
  (∀ (n : Lane) (w : StraitWord) (r : RelSlot) (s : State), s.straitHead (8 + n) = some w → s.on .glbXbarRun = true →
    s.slots = [r] → r.lane = w.lane → r.frame = w.frame → r.index = w.index →
    ∃ t, exec (.releaseBufferWrite n) s = .next t ∧
      t =
        { s with straits := s.straits.erase w, slots := [{ r with words := r.words + 1, data := r.data + (if r.profile = 3 then w.data else scrambleWord w.index w.word w.data) * 2 ^ (480 * w.word) }] }) ∧
  (∀ (n : Lane) (w : StraitWord) (s : State), s.straitHead (8 + n) = some w → s.on .glbXbarRun = true →
    s.slots.any (fun r => r.lane == w.lane && r.frame == w.frame && r.index == w.index) = false → w.word = 7 →
    ∃ t, exec (.releaseBufferWrite n) s = .next t ∧
      t.straits = s.straits.erase w ∧
      t.rd .arcClRbLateCnt w.lane = min (s.rd .arcClRbLateCnt w.lane + 1) (2 ^ Field.width .arcClRbLateCnt - 1) ∧
      (t.rd .arcClIntStatus w.lane).testBit Irq.arcClRbLate = true ∧
      Changes { s with straits := t.straits } t w.lane [.arcClRbLateCnt, .arcClIntStatus]) ∧
  (∀ (n : Lane) (s : State), (s.straitHead (8 + n) = none ∨ s.on .glbXbarRun = false) →
    exec (.releaseBufferWrite n) s = .next s) ∧
  (∀ (n : Lane) (ui : BitVec 24) (r : RelSlot) (q : List RelSlot) (s : State), s.slots = r :: q → r.lane = n →
    r.due = ui.toNat → s.on .glbXbarRun = true → r.words = 8 → r.profile ≠ s.rd .lfrProfActive n →
    ∃ t, exec (.codewordRelease n ui none) s = .next t ∧
      t.slots = q ∧ t.rd .arcClOut n = r.data % 2 ^ Field.width .arcClOut ∧ OnlyIn [.arcCl, .lfr] s t) ∧
  (∀ (n : Lane) (ui : BitVec 24) (r : RelSlot) (q : List RelSlot) (s : State), s.slots = r :: q → r.lane = n →
    r.due = ui.toNat → s.on .glbXbarRun = true → r.words = 8 → r.profile = s.rd .lfrProfActive n →
    ∃ t, exec (.codewordRelease n ui none) s = .next t ∧
      t.slots = q ∧ t.rd .arcClOut n = r.data % 2 ^ Field.width .arcClOut ∧ t.rd .lrxReleased n = 1) ∧
  (∀ (n : Lane) (ui : BitVec 24) (r : RelSlot) (q : List RelSlot) (s : State), s.slots = r :: q → r.lane = n →
    r.due = ui.toNat → s.on .glbXbarRun = true → r.words ≠ 8 → s.rd .hltAction 0 6 ≤ 1 →
    ∃ t, exec (.codewordRelease n ui none) s = .next t ∧
      t.slots = q ∧ t.rd .arcClOut n = 0 ∧
      t.rd .arcClRbMissCnt n = min (s.rd .arcClRbMissCnt n + 1) (2 ^ Field.width .arcClRbMissCnt - 1) ∧
      (t.rd .arcClIntStatus n).testBit Irq.arcClRbMiss = true) ∧
  (∀ (n : Lane) (ui : BitVec 24) (am : Option AmSeen) (s : State), (∀ r ∈ s.slots, r.lane = n → r.due ≠ ui.toNat) →
    exec (.codewordRelease n ui am) s = .next s) ∧
  (∀ (e : Fin 128) (double : Bool) (s : State), s.engState e < 7 → double = false →
    ∃ t, exec (.microcodeEccError e double) s = .next t ∧
      t.rd .arcEngEcc 0 e = min (s.rd .arcEngEcc 0 e + 1) (2 ^ Field.width .arcEngEcc - 1) ∧
      Changes s t 0 [.arcEngEcc]) ∧
  (∀ (e : Fin 128) (double : Bool) (s : State), s.engState e < 7 → double = true → s.on .arcEngEcc2 0 e = true →
    ∃ t, exec (.microcodeEccError e double) s = .next t ∧
      t.engState e = 7 ∧ (t.rd .arcIntStatus).testBit Irq.arcEngFail = true ∧
      (t.rd .arcIntStatus).testBit Irq.arcEccDouble = true) ∧
  (∀ (e : Fin 128) (double : Bool) (s : State), s.engState e < 7 → double = true → s.on .arcEngEcc2 0 e = false →
    s.workOf e = none → ∃ t, exec (.microcodeEccError e double) s = .next t ∧
      t.rd .arcEngSt 0 e = 4 ∧ t.rd .arcEngRun 0 e = 1 ∧ t.rd .arcEngEcc2 0 e = 1 ∧
      (t.rd .arcIntStatus).testBit Irq.arcEccDouble = true) ∧
  (∀ (e : Fin 128) (refresh : Bool) (s : State), s.maskBit .glbDecodeRun (e / 16) = true → s.engState e ≠ 7 →
    s.bg = [] → ∃ t, exec (.bgTaskDue e refresh) s = .next t ∧
      t =
        { s with bg := [⟨e / 16, if refresh = true then 1 else 2, if refresh = true then e.val else 0, 0, false, none, none, false⟩] }) ∧
  (∀ (e : Fin 128) (refresh : Bool) (s : State), refresh = false →
    s.bg.any (fun b => b.cluster == e.val / 16 && b.kind == 2) = true → exec (.bgTaskDue e refresh) s = .next s) ∧
  (∀ (e : Fin 128) (s : State), s.engState e = 4 → s.rd .arcEngRun 0 e = 1 →
    s.bg = [⟨e.val / 16, 1, e, 0, false, some e.val, none, true⟩] → ∃ t, exec (.engineRefreshDone e) s = .next t ∧
      t.rd .arcEngSt 0 e = 0 ∧ t.rd .arcEngRun 0 e = 0 ∧ t.bg = [] ∧ OnlyIn [.arc] s t) ∧
  (∀ (e : Fin 128) (s : State), s.engState e ≠ 4 → exec (.engineRefreshDone e) s = .next s) ∧
  (∀ (e : Fin 128) (s : State), s.engState e = 4 → s.rd .arcEngRun 0 e = 2 →
    s.bg = [⟨e.val / 16, 2, 0, 0, false, some e.val, none, true⟩] → ∃ t, exec (.histGatherDone e) s = .next t ∧
      t.rd .arcEngSt 0 e = 0 ∧ t.bg = [] ∧
      (∀ v ∈ List.range 8, ∀ b ∈ List.range 16, t.rd .arcClHist v b = min (s.rd .arcClHist v b +
        s.rd .arcTally (e / 16) (16 * v + b)) (2 ^ Field.width .arcClHist - 1) ∧ t.rd .arcTally (e / 16) (16 * v +
        b) = 0))

/-- Where software reaches the lane and its host block is under no test: ENABLE written 1 is ignored while the lane is
held in OFF; on a lane in OFF of a device in Active, with a usable line lane and a standard or transparent gearbox, it
is recorded and enters CAL with STATE_CHG; on a lane not in OFF it is only recorded. RETRAIN outside an Extended Host
group takes a lane in ALIGN, READY or a FAULT other than WINDOW to TRAIN, phase 1, with no retries counted and
TX_READY 0, and changes nothing in OFF, CAL, TRAIN or FAULT by WINDOW. COMMIT below warning is held with COMMIT_HELD;
else every shadowed field takes effect. Where software reaches the lane: ENABLE written 0 goes to OFF from any state,
clears the cause, CDR_LOCK and the lasting fault sources 9 and 10; a slip outside a transparent group only raises
SLIP_IGNORED, in one it moves the position forward within its range, and past it keeps it with SLIP_LIMIT; ALIGN_DONE
is recorded, and in a transparent group takes a lane in ALIGN that is not relocking to READY. It concludes, from
conditions on the state and the operands alone, that exec answers a next state with the command's own effect, of:
hifEnable, hifDisable, hifRetrain, hifCommit, hifSlip, alignDoneWrite. From rules R251, R254, R265, R276, R277, R282,
R284, R413, R423. -/
def Obligations.HostLaneControl : Prop :=
  (∀ (h : HostLane) (s : State), s.reaches .hif h → s.underTest 2 (h / 4) = false → s.on .hifHeldOff h = true →
    exec (.hifEnable h) s = .next s) ∧
  (∀ (h : HostLane) (n : Nat) (s : State), s.reaches .hif h → s.underTest 2 (h / 4) = false →
    s.on .hifHeldOff h = false → s.rd .hifState h = 0 → s.lineOf h = some n → s.rd .pwrDevState = 0 →
    s.on .thmLnShutdown 0 n = false →
    (∀ k ∈ List.range 8, s.rd .hifGlbMapGbMode 0 k ≠ 1 ∧ s.rd .hifGlbMapGbMode 0 k ≠ 2) →
    ∃ t, exec (.hifEnable h) s = .next t ∧
      t.rd .hifEnable h = 1 ∧ t.rd .hifState h = 1 ∧ (t.rd .hifIntStatus h).testBit Irq.hifStateChg = true) ∧
  (∀ (h : HostLane) (s : State), s.reaches .hif h → s.underTest 2 (h / 4) = false → s.on .hifHeldOff h = false →
    s.rd .hifState h ≠ 0 → ∃ t, exec (.hifEnable h) s = .next t ∧
      t.rd .hifEnable h = 1 ∧ Changes s t h [.hifEnable]) ∧
  (∀ (h : HostLane) (s : State), s.reaches .hif h → ∃ t, exec (.hifDisable h) s = .next t ∧
      t.rd .hifEnable h = 0 ∧ t.rd .hifState h = 0 ∧ t.rd .hifFaultCause h = 0 ∧ t.rd .hifCdrLock h = 0 ∧
      (t.rd .hltSrcLasting 0 9).testBit h = false ∧ (t.rd .hltSrcLasting 0 10).testBit h = false) ∧
  (∀ (h : HostLane) (n : Nat) (s : State), s.reaches .hif h → s.underTest 2 (h / 4) = false → s.lineOf h = some n →
    s.ehm (s.groupOf n).lead = 0 →
    (s.rd .hifState h = 3 ∨ s.rd .hifState h = 4 ∨ (s.rd .hifState h = 7 ∧ s.rd .hifFaultCause h ≠ 8)) →
    ∃ t, exec (.hifRetrain h) s = .next t ∧
      t.rd .hifState h = 2 ∧ t.rd .hifTrnRetry h = 0 ∧ t.rd .hifTrnPhase h = 1 ∧ t.rd .hifTxReady h = 0) ∧
  (∀ (h : HostLane) (n : Nat) (s : State), s.reaches .hif h → s.underTest 2 (h / 4) = false → s.lineOf h = some n →
    s.ehm (s.groupOf n).lead = 0 → (s.rd .hifState h ≤ 2 ∨ (s.rd .hifState h = 7 ∧ s.rd .hifFaultCause h = 8)) →
    exec (.hifRetrain h) s = .next s) ∧
  (∀ (h : HostLane) (s : State), s.reaches .hif h → s.underTest 2 (h / 4) = false → s.warning = true →
    ∃ t, exec (.hifCommit h) s = .next t ∧
      t.rd .hifCommit h = 1 ∧ (t.rd .hifIntStatus h).testBit Irq.hifCommitHeld = true ∧
      Changes s t h [.hifCommit, .hifIntStatus]) ∧
  (∀ (h : HostLane) (s : State), s.Inv → s.reaches .hif h → s.underTest 2 (h / 4) = false → s.warning = false →
    ∃ t, exec (.hifCommit h) s = .next t ∧
      t.rd .hifCommit h = 0 ∧ (∀ f ∈ hifShadowed, t.use f h = s.rd f h) ∧ OnlyIn [.hif] s t) ∧
  (∀ (h : HostLane) (n : Nat) (s : State), s.reaches .hif h → s.lineOf h = some n → s.transparent n = false →
    ∃ t, exec (.hifSlip h) s = .next t ∧
      (t.rd .hifIntStatus h).testBit Irq.hifSlipIgnored = true ∧ Changes s t h [.hifIntStatus]) ∧
  (∀ (h : HostLane) (n : Nat) (s : State), s.reaches .hif h → s.lineOf h = some n → s.transparent n = true →
    s.on .hifSlipDir h = false → s.rd .hifSlipPos h + s.rd .hifSlipBits h ≤ 12287 →
    ∃ t, exec (.hifSlip h) s = .next t ∧
      t.rd .hifSlipPos h = s.rd .hifSlipPos h + s.rd .hifSlipBits h ∧ t.rd .hifSlipLimit h = 0 ∧
      OnlyIn [.hif, .hifGlb] s t) ∧
  (∀ (h : HostLane) (n : Nat) (s : State), s.reaches .hif h → s.lineOf h = some n → s.transparent n = true →
    s.on .hifSlipDir h = false → 12287 < s.rd .hifSlipPos h + s.rd .hifSlipBits h →
    ∃ t, exec (.hifSlip h) s = .next t ∧
      t.rd .hifSlipPos h = s.rd .hifSlipPos h ∧ t.rd .hifSlipLimit h = 1 ∧
      (t.rd .hifIntStatus h).testBit Irq.hifSlipLimit = true ∧ Changes s t h [.hifSlipLimit, .hifIntStatus]) ∧
  (∀ (h : HostLane) (n : Nat) (s : State), s.reaches .hif h → s.lineOf h = some n → s.transparent n = false →
    ∃ t, exec (.alignDoneWrite h) s = .next t ∧
      t.rd .hifAlignDone h = 1 ∧ Changes s t h [.hifAlignDone]) ∧
  (∀ (h : HostLane) (n : Nat) (s : State), s.reaches .hif h → s.lineOf h = some n → s.transparent n = true →
    s.rd .hifState h = 3 → s.on .hifRelockRun h = false → ∃ t, exec (.alignDoneWrite h) s = .next t ∧
      t.rd .hifAlignDone h = 1 ∧ t.rd .hifState h = 4 ∧ t.rd .hifRxReady h = 1)

/-- In CAL with the host PLL running, calibration done enters TRAIN, phase 1, at the standard rate; elsewhere it
changes nothing; a timeout in CAL faults with cause 1 (where no action of the fault window follows). A training frame
is taken only in TRAIN with training on: hold answers no change, a step of one tap answers whether the tap took it and
moves no other tap. A FOM window in READY, awake, records FOM and VALID and moves no CTLE sweep; in OFF, CAL or FAULT
it changes nothing. With local readiness and no Extended Host offer the training of an Ethernet lane completes into
ALIGN with TX_READY; otherwise in TRAIN it waits. A failed attempt at the standard rate counts and starts another, or
at the retry limit faults with cause 2 (no action of the fault window). Extended training that times out falls back,
counted, and stops advertising; in any other state of the group nothing happens. An armed automatic restart takes a
lane from FAULT with cause 1 to CAL and with cause 3 to TRAIN; not armed, it changes nothing. It concludes, from
conditions on the state and the operands alone, that exec answers a next state with the command's own effect, of:
hostCalDone, hostCalTimeout, trainingFrameRx, hostFomWindowEnd, trainingComplete, trainingAttemptFail,
ehmTrainTimeout, hostFaultAutoRestart. From rules R251, R252, R253, R256, R257, R260, R261, R264. -/
def Obligations.HostTraining : Prop :=
  (∀ (h : HostLane) (linRx : BitVec 1024) (linTx : BitVec 1024) (s : State), s.rd .hifState h = 1 →
    s.pllRuns (hostPll h) = true → ∃ t, exec (.hostCalDone h linRx linTx) s = .next t ∧
      t.rd .hifState h = 2 ∧ t.rd .hifRate h = 0 ∧ t.rd .hifTrnPhase h = 1 ∧ t.rd .hifTrnRetry h = 0 ∧
      OnlyIn [.hif, .hifGlb, .evf, .tim] s t) ∧
  (∀ (h : HostLane) (linRx : BitVec 1024) (linTx : BitVec 1024) (s : State),
    (s.rd .hifState h ≠ 1 ∨ s.pllRuns (hostPll h) = false) → exec (.hostCalDone h linRx linTx) s = .next s) ∧
  (∀ (h : HostLane) (s : State), s.rd .hifState h = 1 → s.rd .hltAction 0 9 ≤ 1 →
    ∃ t, exec (.hostCalTimeout h) s = .next t ∧
      t.rd .hifState h = 7 ∧ t.rd .hifFaultCause h = 1 ∧ (t.rd .hifIntStatus h).testBit Irq.hifFault = true) ∧
  (∀ (h : HostLane) (req : TrainReq) (advertises : Bool) (s : State),
    (s.rd .hifState h ≠ 2 ∨ s.on .hifTrnEn h = false) → exec (.trainingFrameRx h req advertises) s = .next s) ∧
  (∀ (h : HostLane) (req : TrainReq) (advertises : Bool) (s : State), s.rd .hifState h = 2 →
    s.on .hifTrnEn h = true → req = .hold → ∃ t, exec (.trainingFrameRx h req advertises) s = .next t ∧
      t.rd .hifTrnAnswer h = 0 ∧ (advertises = true → t.rd .hifHostAdv h = 1) ∧
      Changes s t h [.hifTrnAnswer, .hifHostAdv]) ∧
  (∀ (h : HostLane) (req : TrainReq) (advertises : Bool) (tap : Fin 5) (d : Int) (s : State), s.rd .hifState h = 2 →
    s.on .hifTrnEn h = true → req = .step tap d → ∃ t, exec (.trainingFrameRx h req advertises) s = .next t ∧
      (t.rd .hifTrnAnswer h = (if t.rdInt .hifTxTap h tap = s.rdInt .hifTxTap h tap + d then 1 else 2)) ∧
      (∀ k ∈ List.range 5, k ≠ tap → t.rdInt .hifTxTap h k = s.rdInt .hifTxTap h k) ∧
      Changes s t h [.hifTrnAnswer, .hifHostAdv, .hifTxTap]) ∧
  (∀ (h : HostLane) (errSq : Nat) (acked : Bool) (lvl : Int) (accD1 : Int) (accD2 : Int) (s : State),
    s.rd .hifState h = 4 → s.rd .hifSleepRx h = 0 →
    ∃ t, exec (.hostFomWindowEnd h errSq acked lvl accD1 accD2) s = .next t ∧
      t.rd .hifRxFom h = (s.fomOf errSq).1 % 2 ^ Field.width .hifRxFom ∧ t.rd .hifRxValid h = 1 ∧
      t.rd .hifRxCtle h = s.rd .hifRxCtle h ∧ OnlyIn [.hif] s t) ∧
  (∀ (h : HostLane) (errSq : Nat) (acked : Bool) (lvl : Int) (accD1 : Int) (accD2 : Int) (s : State),
    (s.rd .hifState h ≤ 1 ∨ s.rd .hifState h = 7) → exec (.hostFomWindowEnd h errSq acked lvl accD1 accD2) s = .next s) ∧
  (∀ (h : HostLane) (n : Nat) (s : State), s.rd .hifState h = 2 → s.on .hifLocalReady h = true →
    s.lineOf h = some n → s.ehm (s.groupOf n).lead = 0 → s.ehmOffers (s.groupOf n) = false → s.transparent n = false →
    ∃ t, exec (.trainingComplete h) s = .next t ∧
      t.rd .hifState h = 3 ∧ t.rd .hifTxReady h = 1 ∧ (t.rd .hifIntStatus h).testBit Irq.hifTxReady = true ∧
      t.rd .hifVgaFrozen h = 1) ∧
  (∀ (h : HostLane) (s : State), (s.rd .hifState h ≠ 2 ∨ s.on .hifLocalReady h = false) →
    exec (.trainingComplete h) s = .next s) ∧
  (∀ (h : HostLane) (s : State), s.Inv → s.rd .hifState h = 2 → s.on .hifRate h = false →
    s.rd .hifTrnRetry h < s.rd .hifTrnRetryMax h → ∃ t, exec (.trainingAttemptFail h) s = .next t ∧
      t.rd .hifState h = 2 ∧ t.rd .hifTrnRetry h = s.rd .hifTrnRetry h + 1 ∧
      t.rd .hifTrnFailCnt h = min (s.rd .hifTrnFailCnt h + 1) (2 ^ Field.width .hifTrnFailCnt - 1) ∧
      (t.rd .hifIntStatus h).testBit Irq.hifTrnFail = true ∧ t.rd .hifTrnPhase h = 1 ∧ OnlyIn [.hif] s t) ∧
  (∀ (h : HostLane) (s : State), s.rd .hifState h = 2 → s.on .hifRate h = false →
    s.rd .hifTrnRetryMax h ≤ s.rd .hifTrnRetry h → s.rd .hltAction 0 9 ≤ 1 →
    ∃ t, exec (.trainingAttemptFail h) s = .next t ∧
      t.rd .hifState h = 7 ∧ t.rd .hifFaultCause h = 2) ∧
  (∀ (n : Lane) (s : State), s.ehm n ≠ 2 → exec (.ehmTrainTimeout n) s = .next s) ∧
  (∀ (n : Lane) (s : State), s.ehm n = 2 → ∃ t, exec (.ehmTrainTimeout n) s = .next t ∧
      t.rd .hifGlbEhmFbCount = min (s.rd .hifGlbEhmFbCount + 1) (2 ^ Field.width .hifGlbEhmFbCount - 1) ∧
      (t.rd .hifGlbIntStatus).testBit Irq.hifGlbEhmFallback = true ∧ t.rd .hifEhmAdvOff (s.groupOf n).lead = 1 ∧
      OnlyIn [.hif, .hifGlb, .evf] s t) ∧
  (∀ (h : HostLane) (s : State), s.rd .hifState h = 7 → s.on .hifRestartArm h = true →
    s.on .hifAutoRestart h = true → s.rd .hifFaultCause h = 1 → ∃ t, exec (.hostFaultAutoRestart h) s = .next t ∧
      t.rd .hifState h = 1 ∧ t.rd .hifRestartArm h = 0 ∧ t.rd .hifFaultCause h = 1) ∧
  (∀ (h : HostLane) (s : State), s.rd .hifState h = 7 → s.on .hifRestartArm h = true →
    s.on .hifAutoRestart h = true → s.rd .hifFaultCause h = 3 → ∃ t, exec (.hostFaultAutoRestart h) s = .next t ∧
      t.rd .hifState h = 2 ∧ t.rd .hifTrnRetry h = 0) ∧
  (∀ (h : HostLane) (s : State),
    (s.rd .hifState h ≠ 7 ∨ s.on .hifRestartArm h = false ∨ s.on .hifAutoRestart h = false) →
    exec (.hostFaultAutoRestart h) s = .next s)

/-- For a lane of an Ethernet group in Extended Host or compatibility mode, awake and with CDR_LOCK: the second
alignment marker in place locks it and takes ALIGN to READY with RX_READY; the fourth marker missed in READY counts
AM_LOL and goes back to ALIGN. A marker period of an unmapped lane, or, where the CDR was not lost in this cycle, of
one without CDR_LOCK or in OFF, CAL or TRAIN, changes nothing. No AM lock in time in ALIGN faults with cause 3, no
relock in time with cause 6 (no action of the fault window). The eighth quiet interval in range locks the CDR of a
lane in TRAIN; in READY, outside a transparent group, a lost loop counts CDR_LOL, relocks and goes to ALIGN. With a
good retention record a waking direction leaves sleep, a receive direction keeps its state; a receive wake that
neither holds nor relocks counts WARM_FAIL and trains. The codeword monitor of an Ethernet group locks and counts an
uncorrectable codeword, reports lanes out of range with MON_SKEW and unlocks with any lane unlocked; in a transparent
group it does nothing. It concludes, from conditions on the state and the operands alone, that exec answers a next
state with the command's own effect, of: amPeriod, alignTimeout, relockTimeout, hostCdrLockInterval, hostSleepWake,
rsCodewordMonitor. From rules R105, R251, R258, R270, R272, R278, R279, R280. -/
def Obligations.HostAlignmentAndClock : Prop :=
  (∀ (h : HostLane) (errBits : Nat) (samePos : Bool) (arrival : Nat) (n : Nat) (s : State), s.lineOf h = some n →
    s.transparent n = false → s.on .hifCdrLock h = true → s.rd .hifSleepRx h = 0 → s.rd .hifGlbMapGbMode 0 n ≠ 0 →
    s.rd .hifState h = 3 → s.on .hifAmLock h = false → errBits ≤ s.rd .hifAmTol → samePos = true →
    s.rd .hifAmMatch h = 1 → ∃ t, exec (.amPeriod h errBits samePos arrival) s = .next t ∧
      t.rd .hifAmLock h = 1 ∧ t.rd .hifState h = 4 ∧ t.rd .hifRxReady h = 1 ∧ t.rd .hifAmMiss h = 0) ∧
  (∀ (h : HostLane) (errBits : Nat) (samePos : Bool) (arrival : Nat) (n : Nat) (s : State), s.lineOf h = some n →
    s.transparent n = false → s.on .hifCdrLock h = true → s.rd .hifSleepRx h = 0 → s.rd .hifGlbMapGbMode 0 n ≠ 0 →
    s.rd .hifState h = 4 → s.on .hifAmLock h = true → s.rd .hifAmTol < errBits → s.rd .hifAmMiss h = 3 →
    ∃ t, exec (.amPeriod h errBits samePos arrival) s = .next t ∧
      t.rd .hifState h = 3 ∧ t.rd .hifAmLock h = 0 ∧
      t.rd .hifAmLolCnt h = min (s.rd .hifAmLolCnt h + 1) (2 ^ Field.width .hifAmLolCnt - 1) ∧
      (t.rd .hifIntStatus h).testBit Irq.hifAmLol = true ∧ t.rd .hifRxReady h = 0) ∧
  (∀ (h : HostLane) (errBits : Nat) (samePos : Bool) (arrival : Nat) (s : State),
    (s.lineOf h = none ∨ ((s.on .hifCdrLock h = false ∨ s.rd .hifState h ≤ 2) ∧ s.rd .hifLossAt h ≠ s.now + 1)) →
    exec (.amPeriod h errBits samePos arrival) s = .next s) ∧
  (∀ (h : HostLane) (n : Nat) (s : State), s.rd .hifState h = 3 → s.lineOf h = some n → s.transparent n = false →
    s.rd .hltAction 0 9 ≤ 1 → ∃ t, exec (.alignTimeout h) s = .next t ∧
      t.rd .hifState h = 7 ∧ t.rd .hifFaultCause h = 3) ∧
  (∀ (h : HostLane) (s : State), s.rd .hifState h ≠ 3 → exec (.alignTimeout h) s = .next s) ∧
  (∀ (h : HostLane) (s : State), s.on .hifRelockRun h = true → s.on .hifCdrLock h = false → s.rd .hifState h ≠ 7 →
    s.rd .hltAction 0 9 ≤ 1 → ∃ t, exec (.relockTimeout h) s = .next t ∧
      t.rd .hifState h = 7 ∧ t.rd .hifFaultCause h = 6 ∧ t.rd .hifRelockRun h = 0) ∧
  (∀ (h : HostLane) (s : State), (s.on .hifRelockRun h = false ∨ s.on .hifCdrLock h = true) →
    exec (.relockTimeout h) s = .next s) ∧
  (∀ (h : HostLane) (errs : List Int) (s : State), s.rd .hifState h = 2 → s.rd .hifSleepRx h = 0 →
    s.on .hifCdrLock h = false →
    (cdrQuiet (hostUi (s.rd .hifRate h)) (s.rdInt .hifCdrInt h) (CdrLoop.run (s.use .hifKpSh h) (s.use .hifKiSh h)
      ⟨s.rdInt .hifCdrInt h, 0, 0, 0⟩ 850 errs).integ && cdrInRange (hostUi (s.rd .hifRate h)) (CdrLoop.run (s.use
      .hifKpSh h) (s.use .hifKiSh h) ⟨s.rdInt .hifCdrInt h, 0, 0, 0⟩ 850 errs).integ) = true →
    s.rd .hifQuietInt h = 7 → ∃ t, exec (.hostCdrLockInterval h errs) s = .next t ∧
      t.rd .hifCdrLock h = 1 ∧ t.rd .hifState h = 2 ∧ t.rd .hifQuietInt h = 0 ∧ t.rd .hifRelockRun h = 0 ∧
      Changes s t h [.hifCdrLock, .hifQuietInt, .hifRelockRun, .hifCdrFreq, .hifCdrInt]) ∧
  (∀ (h : HostLane) (errs : List Int) (s : State), s.rd .hifState h = 4 → s.rd .hifSleepRx h = 0 →
    s.on .hifCdrLock h = true →
    cdrLost (hostUi (s.rd .hifRate h)) (CdrLoop.run (s.use .hifKpSh h) (s.use .hifKiSh h) ⟨s.rdInt .hifCdrInt h, 0, 0,
      0⟩ 850 errs) = true → s.rd .hltAction 0 10 ≤ 1 →
    (s.lineOf h = none ∨ s.transparent ((s.lineOf h).getD 0) = false) →
    ∃ t, exec (.hostCdrLockInterval h errs) s = .next t ∧
      t.rd .hifCdrLock h = 0 ∧ t.rd .hifState h = 3 ∧ t.rd .hifRelockRun h = 1 ∧
      t.rd .hifCdrLolCnt h = min (s.rd .hifCdrLolCnt h + 1) (2 ^ Field.width .hifCdrLolCnt - 1) ∧
      (t.rd .hifIntStatus h).testBit Irq.hifCdrLol = true) ∧
  (∀ (h : HostLane) (errs : List Int) (s : State), (s.rd .hifState h ≤ 1 ∨ s.rd .hifSleepRx h ≠ 0) →
    exec (.hostCdrLockInterval h errs) s = .next s) ∧
  (∀ (h : HostLane) (tx : Bool) (ok : Bool) (relocked : Bool) (recOk : Bool) (s : State), recOk = true → tx = true →
    s.on .hifSleepTx h = true → ∃ t, exec (.hostSleepWake h tx ok relocked recOk) s = .next t ∧
      t.rd .hifSleepTx h = 0 ∧ t.rd .hifWakeTx h = 0 ∧ Changes s t h [.hifSleepTx, .hifWakeTx, .hifIntStatus]) ∧
  (∀ (h : HostLane) (tx : Bool) (ok : Bool) (relocked : Bool) (recOk : Bool) (s : State), recOk = true → tx = false →
    s.on .hifSleepRx h = true → ok = true → ∃ t, exec (.hostSleepWake h tx ok relocked recOk) s = .next t ∧
      t.rd .hifSleepRx h = 0 ∧ t.rd .hifState h = s.rd .hifState h ∧
      Changes s t h [.hifSleepRx, .hifWakeRx, .hifIntStatus]) ∧
  (∀ (h : HostLane) (tx : Bool) (ok : Bool) (relocked : Bool) (recOk : Bool) (s : State), recOk = true → tx = false →
    s.on .hifSleepRx h = true → ok = false → relocked = false →
    ∃ t, exec (.hostSleepWake h tx ok relocked recOk) s = .next t ∧
      t.rd .hifSleepRx h = 0 ∧ t.rd .hifState h = 2 ∧ t.rd .hifCdrLock h = 0 ∧
      t.rd .hifWarmFailCnt h = min (s.rd .hifWarmFailCnt h + 1) (2 ^ Field.width .hifWarmFailCnt - 1)) ∧
  (∀ (n : Lane) (egress : Bool) (inRange : Bool) (symErr : Option (Fin 16)) (s : State), s.transparent n = true →
    exec (.rsCodewordMonitor n egress inRange symErr) s = .next s) ∧
  (∀ (n : Lane) (egress : Bool) (inRange : Bool) (symErr : Option (Fin 16)) (s : State),
    (s.groupOf n).payload ≠ .transparent → s.monLanes (s.groupOf n) egress = true → inRange = true → symErr = none →
    ∃ t, exec (.rsCodewordMonitor n egress inRange symErr) s = .next t ∧
      t.rd .hifGlbRsMonLock 0 (2 * (s.groupOf n).lead + bit egress) = 1 ∧
      t.rd .hifGlbRsCwUncorr 0 (2 * (s.groupOf n).lead + bit egress) =
        min (s.rd .hifGlbRsCwUncorr 0 (2 * (s.groupOf n).lead + bit egress) +
        1) (2 ^ Field.width .hifGlbRsCwUncorr - 1) ∧ OnlyIn [.hifGlb] s t) ∧
  (∀ (n : Lane) (egress : Bool) (inRange : Bool) (symErr : Option (Fin 16)) (s : State),
    (s.groupOf n).payload ≠ .transparent → s.monLanes (s.groupOf n) egress = true → inRange = false →
    ∃ t, exec (.rsCodewordMonitor n egress inRange symErr) s = .next t ∧
      t.rd .hifGlbRsMonLock 0 (2 * (s.groupOf n).lead + bit egress) = 0 ∧
      t.rd .hifGlbRsMonSkew 0 (2 * (s.groupOf n).lead + bit egress) = 1 ∧
      Changes s t 0 [.hifGlbRsMonLock, .hifGlbRsMonSkew, .hifGlbIntStatus]) ∧
  (∀ (n : Lane) (egress : Bool) (inRange : Bool) (symErr : Option (Fin 16)) (s : State),
    (s.groupOf n).payload ≠ .transparent → s.monLanes (s.groupOf n) egress = false →
    ∃ t, exec (.rsCodewordMonitor n egress inRange symErr) s = .next t ∧
      t.rd .hifGlbRsMonLock 0 (2 * (s.groupOf n).lead + bit egress) = 0 ∧ Changes s t 0 [.hifGlbRsMonLock])

/-- Where software reaches the TIME block: TOD_SET_NOW with no slew asks for the value at the next TIME cycle and
disarms a set at TIME_IN, and ends a running slew first, with the TOD as it stands; TOD_SET_AT_TIME_IN with no slew
only arms. Its timeout disarms with SET_FAIL, and does nothing with no set armed. In sources FREE and HOST a step
whose sum stays inside the TOD's range adds the adjustment, counted, with TOD_DONE; SLEW begins to absorb it and
leaves the TOD as it is. In TIME_IN and LINK both only end with ADJ_REFUSED. The end of a slew, within the range, puts
what was left into the TOD with TOD_DONE; with no slew it does nothing. It concludes, from conditions on the state and
the operands alone, that exec answers a next state with the command's own effect, of: todSetNow, todSetAtTimeIn,
todSetTimeout, todStep, todSlew, todSlewDone. From rules R285, R286, R312, R313. -/
def Obligations.TimeOfDay : Prop :=
  (∀ (s : State), s.reaches .tim 0 → s.on .timSlewing = false → ∃ t, exec (.todSetNow) s = .next t ∧
      t.rd .timTodPend = 1 ∧ t.rd .timTodGo = 1 ∧ t.rd .timTodArm = 0 ∧ t.rd .timTodNow = s.rd .timTodNow ∧
      t.rd .timTodSet = s.rd .timTodSet ∧ Changes s t 0 [.timTodPend, .timTodGo, .timTodArm]) ∧
  (∀ (s : State), s.reaches .tim 0 → s.on .timSlewing = true → ∃ t, exec (.todSetNow) s = .next t ∧
      t.rd .timSlewing = 0 ∧ t.rdInt .timSlewLeft = 0 ∧ t.todFull = s.todFull ∧ t.rd .timTodPend = 1 ∧
      t.rd .timTodArm = 0 ∧ OnlyIn [.tim, .timLn] s t) ∧
  (∀ (s : State), s.reaches .tim 0 → s.on .timSlewing = false → ∃ t, exec (.todSetAtTimeIn) s = .next t ∧
      t.rd .timTodArm = 1 ∧ t.rd .timTodGo = 1 ∧ Changes s t 0 [.timTodArm, .timTodGo]) ∧
  (∀ (s : State), s.on .timTodArm = true → ∃ t, exec (.todSetTimeout) s = .next t ∧
      t.rd .timTodArm = 0 ∧ t.rd .timTodGo = 0 ∧ (t.rd .timIntStatus).testBit Irq.timSetFail = true ∧
      Changes s t 0 [.timTodArm, .timTodGo, .timIntStatus]) ∧
  (∀ (s : State), s.on .timTodArm = false → exec (.todSetTimeout) s = .next s) ∧
  (∀ (s : State), s.reaches .tim 0 → s.rd .timDpllSrc ≤ 1 → 0 ≤ (s.todFull : Int) + s.todAdj * 2 ^ 24 →
    (s.todFull : Int) + s.todAdj * 2 ^ 24 < 2 ^ 48 * 1000000000 * 2 ^ 40 → ∃ t, exec (.todStep) s = .next t ∧
      (t.todFull : Int) = s.todFull + s.todAdj * 2 ^ 24 ∧ (t.rd .timIntStatus).testBit Irq.timTodDone = true ∧
      t.rd .timTodStepsCnt = min (s.rd .timTodStepsCnt + 1) (2 ^ Field.width .timTodStepsCnt - 1) ∧
      OnlyIn [.tim, .timLn] s t) ∧
  (∀ (s : State), s.reaches .tim 0 → 2 ≤ s.rd .timDpllSrc → ∃ t, exec (.todStep) s = .next t ∧
      t.rd .timTodGo = 0 ∧ (t.rd .timIntStatus).testBit Irq.timAdjRefused = true ∧
      Changes s t 0 [.timTodGo, .timIntStatus]) ∧
  (∀ (s : State), s.Inv → s.reaches .tim 0 → s.rd .timDpllSrc ≤ 1 → ∃ t, exec (.todSlew) s = .next t ∧
      t.rd .timSlewing = 1 ∧ t.rd .timTodGo = 1 ∧ t.rdInt .timSlewLeft = s.todAdj * 2 ^ 24 ∧
      t.rd .timTodNow = s.rd .timTodNow ∧ OnlyIn [.tim, .timLn] s t) ∧
  (∀ (s : State), s.reaches .tim 0 → 2 ≤ s.rd .timDpllSrc → ∃ t, exec (.todSlew) s = .next t ∧
      t.rd .timTodGo = 0 ∧ (t.rd .timIntStatus).testBit Irq.timAdjRefused = true ∧
      t.rd .timSlewing = s.rd .timSlewing ∧ Changes s t 0 [.timTodGo, .timIntStatus]) ∧
  (∀ (s : State), s.on .timSlewing = true → 0 ≤ (s.todFull : Int) + s.rdInt .timSlewLeft →
    (s.todFull : Int) + s.rdInt .timSlewLeft < 2 ^ 48 * 1000000000 * 2 ^ 40 → ∃ t, exec (.todSlewDone) s = .next t ∧
      (t.todFull : Int) = s.todFull + s.rdInt .timSlewLeft ∧ t.rd .timSlewing = 0 ∧ t.rdInt .timSlewLeft = 0 ∧
      (t.rd .timIntStatus).testBit Irq.timTodDone = true) ∧
  (∀ (s : State), s.on .timSlewing = false → exec (.todSlewDone) s = .next s)

/-- With timestamping disabled a report leaves no trace. A line receiver's report at a full strait counts TS_LOST and
a strait overflow of its identifier; one of a lane not in compatibility mode, with captures that serve and not
selected for the FIFO, puts its timestamp and frame into the registers. With the PLL of its island running a capture
pushes the last pair back and stores its own, free of the TOD's jumps; without, it does nothing. A drift result waits
for its boundary with its analog delay, a line receiver's counted as seen; with TIME off it does nothing. TSF_READ
moves the oldest entry out or sets NOT_VALID, TSF_FLUSH empties the FIFO. The ledger clears both VALID flags of a lane
whose condition fails, with LEDGER_INVALID when a lane in SERVICE loses it; it publishes profile and analog delays
where the path neither pauses, fills nor sleeps, and keeps the ingress latency while it fills. It concludes, from
conditions on the state and the operands alone, that exec answers a next state with the command's own effect, of:
timestampEvent, crossCapture, driftMonitor, tsfRead, tsfFlush, ledgerPublish. From rules R288, R289, R290, R291, R292,
R294, R295. -/
def Obligations.TimestampsAndDrift : Prop :=
  (∀ (r : PointReport) (s : State), s.on .timTsEn = false → exec (.timestampEvent r) s = .next s) ∧
  (∀ (r : PointReport) (n : Lane) (s : State), r.kind = 0 → r.index = n.castLE (by decide) → s.pointOn 0 n = true →
    r.full = true → ∃ t, exec (.timestampEvent r) s = .next t ∧
      t.rd .timTsLostCnt = min (s.rd .timTsLostCnt + 1) (2 ^ Field.width .timTsLostCnt - 1) ∧
      (t.rd .timIntStatus).testBit Irq.timTsLost = true ∧
      t.rd .glbStraitOvfCount = min (s.rd .glbStraitOvfCount + 1) (2 ^ Field.width .glbStraitOvfCount - 1) ∧
      t.rd .glbStraitLastId = 0x28 + n.val ∧ OnlyIn [.glb, .tim] s t) ∧
  (∀ (r : PointReport) (n : Lane) (s : State), r.kind = 0 → r.index = n.castLE (by decide) → s.pointOn 0 n = true →
    r.full = false → s.on .timCapNeed n = false → s.rd .timCapC n 0 < s.rd .timCapC n 1 →
    s.maskBit .timTsfKinds 0 = false → s.rd .lfrGroupMode n ≠ 2 → ∃ t, exec (.timestampEvent r) s = .next t ∧
      t.rd .timLnTsLrx n = packTime (s.pointTime 0 n r.cycle.toNat r.symbol.toNat r.phase.toNat % (2 ^ 112 :
        Nat)).toNat ∧ t.rd .timLnRxFrame n = r.ordinal.toNat ∧ t.tsf = s.tsf ∧ OnlyIn [.tim, .timLn] s t) ∧
  (∀ (island : Fin 12) (count : BitVec 64) (interval : BitVec 12) (s : State), s.on .pwrDomTime = true →
    s.pllRuns (islandPll island) = true →
    -(2 ^ 159) ≤ (s.todFull - s.rdInt .timJump) * 2000 - interval.toNat * 2 ^ 40 →
    (s.todFull - s.rdInt .timJump) * 2000 - interval.toNat * 2 ^ 40 < 2 ^ 159 →
    ∃ t, exec (.crossCapture island count interval) s = .next t ∧
      t.rd .timCapC island 0 = s.rd .timCapC island 1 ∧ t.rd .timCapT island 0 = s.rd .timCapT island 1 ∧
      t.rd .timCapC island 1 = count.toNat ∧
      t.rdInt .timCapT island 1 = (s.todFull - s.rdInt .timJump) * 2000 - interval.toNat * 2 ^ 40 ∧
      Changes s t island [.timCapC, .timCapT, .timCapNeed]) ∧
  (∀ (island : Fin 12) (count : BitVec 64) (interval : BitVec 12) (s : State), s.pllRuns (islandPll island) = false →
    exec (.crossCapture island count interval) s = .next s) ∧
  (∀ (point : Fin 48) (delta : Int) (ana : BitVec 16) (s : State), s.on .pwrDomTime = true → -(2 ^ 15) ≤ delta →
    delta < 2 ^ 15 → ∃ t, exec (.driftMonitor point delta ana) s = .next t ∧
      t.rdInt .timDNew 0 point = delta ∧ t.rd .timDPend 0 point = 1 ∧ t.rd .timAna 0 point = ana.toNat ∧
      (point.val < 8 → t.rd .timDriftSeen point = 1) ∧ OnlyIn [.tim, .timLn] s t) ∧
  (∀ (point : Fin 48) (delta : Int) (ana : BitVec 16) (s : State), s.on .pwrDomTime = false →
    exec (.driftMonitor point delta ana) s = .next s) ∧
  (∀ (s : State), s.reaches .tim 0 → s.tsf = [] → ∃ t, exec (.tsfRead) s = .next t ∧
      t.rd .timTsfNotValid = 1 ∧ Changes s t 0 [.timTsfNotValid]) ∧
  (∀ (e : TsfEntry) (q : List TsfEntry) (s : State), s.reaches .tim 0 → s.tsf = e :: q → e.kind < 8 →
    e.frame < 65536 → q.length < 128 → e.time < 2 ^ 112 → ∃ t, exec (.tsfRead) s = .next t ∧
      t.tsf = q ∧ t.rd .timTsfNotValid = 0 ∧ t.rd .timTsfKind = e.kind ∧ t.rd .timTsfTs = packTime e.time ∧
      t.rd .timTsfFrame = e.frame ∧ t.rd .timTsfLevel = q.length ∧ OnlyIn [.tim] s t) ∧
  (∀ (s : State), s.reaches .tim 0 → ∃ t, exec (.tsfFlush) s = .next t ∧
      t = ({ s with tsf := [] } : State).wr .timTsfLevel 0) ∧
  (∀ (n : Lane) (s : State), s.on .pwrDomTime = true → s.ingValid n = false →
    ∃ t, exec (.ledgerPublish n) s = .next t ∧
      t.rd .timLnLedFlags n % 4 = 0 ∧
      (s.rd .lrxState n = 5 → (s.rd .timLnLedFlags n).testBit 0 = true →
        (t.rd .timIntStatus).testBit Irq.timLedgerInvalid = true) ∧ OnlyIn [.tim, .timLn] s t) ∧
  (∀ (n : Lane) (s : State), s.Inv → s.on .pwrDomTime = true → s.maskBit .imgPcP n = false →
    s.maskBit .imgPcQ n = false → s.on .lfrFillRx n = false → s.dirAsleep n false = false →
    s.dirAsleep n true = false → s.rd .lfrGroupMode n ≠ 2 → s.on .lfrAwaitRel n = false →
    ∃ t, exec (.ledgerPublish n) s = .next t ∧
      t.rd .timLnLedProfile n = s.rd .lfrProfActive n ∧ t.rd .timLnLrxAfe n = s.rd .timAna 0 n ∧
      t.rd .timLnLtxDrv n = s.rd .timAna 0 (8 + n) ∧ OnlyIn [.tim, .timLn] s t) ∧
  (∀ (n : Lane) (s : State), s.on .pwrDomTime = true → s.on .lfrFillRx n = true →
    ∃ t, exec (.ledgerPublish n) s = .next t ∧
      t.rd .timLnIngLat n = s.rd .timLnIngLat n ∧ (t.rd .timLnLedFlags n).testBit 3 = true ∧ OnlyIn [.tim, .timLn] s t)

/-- In OFF and WAIT, or in version 1, the command for the region writes nothing; in version 2 it is counted late at a
stopped LANEn and leaves the exchange as it is; a late one is written as a region without an initiation, counted late;
else, with a departure timestamp and no echo due, an initiation that is due enters it with the next sequence number,
and waits with its departure, suspect and discontinuity marks. The interval of version 2 makes an initiation due
outside OFF and WAIT. With no echo received, ECHO_RECEIVED does nothing; one that answers no initiation is dropped;
one whose initiation met a discontinuity clears the average and counts a reject; a suspect one is excluded and
counted; a good first one of version 2 joins the rate ratio and names its partner. An initiation without an echo is
counted as a miss and dropped; an unknown one changes nothing. A result that ages in RUN is STALE with its interrupt,
in other states nothing. RESTART_AVG clears average, ratio and STALE. It concludes, from conditions on the state and
the operands alone, that exec answers a next state with the command's own effect, of: icrisRegionWrite, icrisInitiate,
echoReceived, initiationMiss, exchStale, restartAvg. From rules R299, R300, R301, R302, R303, R304, R305. -/
def Obligations.IcrisExchange : Prop :=
  (∀ (n : Lane) (late : Bool) (s : State), (s.xState n < 2 ∨ s.icrisVer n ≠ 2) →
    exec (.icrisRegionWrite n late) s = .next s) ∧
  (∀ (n : Lane) (late : Bool) (s : State), s.on .pwrDomTime = true → 2 ≤ s.xState n → s.icrisVer n = 2 →
    s.maskBit .glbLaneRun n = false → ∃ t, exec (.icrisRegionWrite n late) s = .next t ∧
      t.rd .timLnRegionLateCnt n = min (s.rd .timLnRegionLateCnt n + 1) (2 ^ Field.width .timLnRegionLateCnt - 1) ∧
      t.exch = s.exch ∧ Changes s t n [.timLnRegionLateCnt]) ∧
  (∀ (n : Lane) (late : Bool) (s : State), s.on .pwrDomTime = true → 2 ≤ s.xState n → s.icrisVer n = 2 →
    s.maskBit .glbLaneRun n = true → late = true → ∃ t, exec (.icrisRegionWrite n late) s = .next t ∧
      t.rd .timLnRegionLateCnt n = min (s.rd .timLnRegionLateCnt n + 1) (2 ^ Field.width .timLnRegionLateCnt - 1) ∧
      (t.ex n).out = (s.ex n).out ∧ (t.ex n).seq = (s.ex n).seq ∧ t.rd .timLnRegion n % 256 = 2 ∧
      OnlyIn [.timLn, .lfr] s t) ∧
  (∀ (n : Lane) (late : Bool) (s : State), s.on .pwrDomTime = true → 2 ≤ s.xState n → s.icrisVer n = 2 →
    s.maskBit .glbLaneRun n = true → late = false → s.on .timLnTxFresh n = true → (s.ex n).due = true →
    (s.ex n).echo = none → s.exch.length = 8 → ∃ t, exec (.icrisRegionWrite n late) s = .next t ∧
      (t.ex n).seq = ((s.ex n).seq + 1) % 65536 ∧ (t.ex n).due = false ∧
      (t.ex n).out = (s.ex n).out ++ [⟨((s.ex n).seq + 1) % 65536, some (unpackTime (s.rd .timLnTsLtx n)),
        s.on .timLnSusTx n, (s.ex n).disc || s.on .timLnDiscTx n⟩] ∧ (t.rd .timLnRegion n).testBit 8 = true) ∧
  (∀ (n : Lane) (s : State), 2 ≤ s.xState n → s.icrisVer n = 2 → ∃ t, exec (.icrisInitiate n) s = .next t ∧
      t = s.setEx n { s.ex n with due := true }) ∧
  (∀ (n : Lane) (s : State), s.xState n < 2 → exec (.icrisInitiate n) s = .next s) ∧
  (∀ (n : Lane) (s : State), (s.ex n).got = none → exec (.echoReceived n) s = .next s) ∧
  (∀ (n : Lane) (e : EchoIn) (s : State), (s.ex n).got = some e → s.exch.length = 8 → (s.ex n).out = [] →
    ∃ t, exec (.echoReceived n) s = .next t ∧
      t = s.setEx n { s.ex n with got := none }) ∧
  (∀ (n : Lane) (e : EchoIn) (d : Nat) (s : State), (s.ex n).got = some e → s.exch.length = 8 →
    (s.ex n).out = [⟨e.seq, some d, false, true⟩] → ∃ t, exec (.echoReceived n) s = .next t ∧
      (t.ex n).out = [] ∧ (t.ex n).got = none ∧ (t.ex n).acc = [] ∧ (t.ex n).hist = [] ∧
      t.rd .timLnExchRejectCnt n = min (s.rd .timLnExchRejectCnt n + 1) (2 ^ Field.width .timLnExchRejectCnt - 1) ∧
      OnlyIn [.timLn] s t) ∧
  (∀ (n : Lane) (e : EchoIn) (d : Nat) (s : State), (s.ex n).got = some e → s.exch.length = 8 →
    (s.ex n).out = [⟨e.seq, some d, false, false⟩] → e.disc = false → e.suspect = true →
    ∃ t, exec (.echoReceived n) s = .next t ∧
      (t.ex n).out = [] ∧ (t.ex n).got = none ∧ (t.ex n).acc = (s.ex n).acc ∧ (t.ex n).hist = (s.ex n).hist ∧
      t.rd .timLnSuspect n = 1 ∧
      t.rd .timLnExchSuspectCnt n = min (s.rd .timLnExchSuspectCnt n + 1) (2 ^ Field.width .timLnExchSuspectCnt - 1) ∧
      OnlyIn [.timLn] s t) ∧
  (∀ (n : Lane) (e : EchoIn) (d : Nat) (s : State), (s.ex n).got = some e → s.exch.length = 8 →
    (s.ex n).out = [⟨e.seq, some d, false, false⟩] → e.disc = false → e.suspect = false → s.icrisVer n = 2 →
    (s.ex n).hist = [] → ∃ t, exec (.echoReceived n) s = .next t ∧
      (t.ex n).out = [] ∧ (t.ex n).got = none ∧ (t.ex n).hist = [(d, e.t2)] ∧ (t.ex n).partner = some e.device ∧
      t.rd .timLnSuspect n = 0 ∧ OnlyIn [.timLn] s t) ∧
  (∀ (n : Lane) (seq : BitVec 16) (s : State), (s.ex n).out.any (fun i => i.seq = seq.toNat) = true →
    s.exch.length = 8 → ∃ t, exec (.initiationMiss n seq) s = .next t ∧
      (t.ex n).out = (s.ex n).out.filter (fun i => i.seq ≠ seq.toNat) ∧
      t.rd .timLnExchMissCnt n = min (s.rd .timLnExchMissCnt n + 1) (2 ^ Field.width .timLnExchMissCnt - 1) ∧
      OnlyIn [.timLn] s t) ∧
  (∀ (n : Lane) (seq : BitVec 16) (s : State), (s.ex n).out = [] → exec (.initiationMiss n seq) s = .next s) ∧
  (∀ (n : Lane) (s : State), s.xState n = 3 → ∃ t, exec (.exchStale n) s = .next t ∧
      t.rd .timLnStale n = 1 ∧ (t.rd .timIntStatus).testBit Irq.timExchStale = true ∧ OnlyIn [.tim, .timLn] s t) ∧
  (∀ (n : Lane) (s : State), s.xState n ≠ 3 → exec (.exchStale n) s = .next s) ∧
  (∀ (n : Lane) (s : State), s.reaches .timLn n → s.exch.length = 8 → ∃ t, exec (.restartAvg n) s = .next t ∧
      (t.ex n).acc = [] ∧ (t.ex n).hist = [] ∧ t.rd .timLnStale n = 0 ∧
      Changes { s with exch := t.exch } t n [.timLnStale])

/-- An update with no phase error waiting, in source FREE or HOST, below warning or with REFCLK out only clears the
request; the eighth in a row within LOCK_NS in ACQUIRE, without stepping, locks with its interrupt. The first missed
update in LOCKED is counted, the second goes to HOLDOVER with its interrupt; in IDLE, HOLDOVER or below warning none
counts. Outside Deep an edge at a disabled TIME_IN leaves no trace; the first at an enabled one, with no offset and no
use elsewhere, is stored as the TOD of its instant; one no time after the last is a glitch and only counted; a missing
one of an enabled input raises TIME_IN_MISS. A TIME_OUT pulse without offset starts at the last multiple of its period
with its width; disabled, there is none. SUSPECT_END clears the suspect flag unless the supply is below warning. The
steered frequency is the model's free value (log entry 2). It concludes, from conditions on the state and the operands
alone, that exec answers a next state with the command's own effect, of: dpllUpdate, dpllMissedUpdate, timeInEdge,
timeInMiss, timeOutPulse, suspectEnd. From rules R312, R313, R314, R315, R316. -/
def Obligations.TimeDpllAndPins : Prop :=
  (∀ (s : State), (s.on .timDpllDue = false ∨ s.rd .timDpllSrc ≤ 1 ∨ s.warning = true ∨ s.on .clkRefLost = true) →
    ∃ t, exec (.dpllUpdate) s = .next t ∧
      t.rd .timDpllDue = 0 ∧ Changes s t 0 [.timDpllDue]) ∧
  (∀ (s : State), s.on .timDpllDue = true → 2 ≤ s.rd .timDpllSrc → s.warning = false → s.on .clkRefLost = false →
    s.on .clkRefBad = false → s.rd .timDpllState = 1 → s.on .timDpllStepEn = false →
    (s.rdInt .timDpllErr).natAbs ≤ s.rd .timDpllLockNs * 65536 → s.rd .timDpllRun = 7 →
    ∃ t, exec (.dpllUpdate) s = .next t ∧
      t.rd .timDpllState = 2 ∧ (t.rd .timIntStatus).testBit Irq.timDpllLock = true ∧ t.rd .timDpllDue = 0 ∧
      t.rd .timDpllMiss = 0 ∧ OnlyIn [.tim] s t) ∧
  (∀ (s : State), s.rd .timDpllState = 2 → s.warning = false → s.rd .timDpllMiss = 1 →
    ∃ t, exec (.dpllMissedUpdate) s = .next t ∧
      t.rd .timDpllState = 3 ∧ (t.rd .timIntStatus).testBit Irq.timDpllHoldover = true ∧ t.rd .timDpllRun = 0 ∧
      OnlyIn [.tim] s t) ∧
  (∀ (s : State), s.rd .timDpllState = 2 → s.warning = false → s.rd .timDpllMiss = 0 →
    ∃ t, exec (.dpllMissedUpdate) s = .next t ∧
      t.rd .timDpllMiss = 1 ∧ Changes s t 0 [.timDpllMiss]) ∧
  (∀ (s : State), (s.rd .timDpllState = 0 ∨ s.rd .timDpllState = 3 ∨ s.warning = true) →
    exec (.dpllMissedUpdate) s = .next s) ∧
  (∀ (offset : BitVec 17) (s : State), s.rd .pwrDevState ≠ 5 → s.on .timInEn = false →
    exec (.timeInEdge offset) s = .next s) ∧
  (∀ (offset : BitVec 17) (s : State), s.rd .pwrDevState ≠ 5 → s.on .timInEn = true → s.on .pwrDomTime = true →
    s.on .timInHas = false → s.rdInt .timInOfsPs = 0 → s.maskBit .timTsfKinds 4 = false → s.rd .timDpllSrc ≤ 1 →
    s.on .timTodArm = false → s.maskBit .pwrWakeEn 3 = false → s.rd .timTodNow + offset.toNat < 2 ^ 112 →
    ∃ t, exec (.timeInEdge offset) s = .next t ∧
      t.rd .timInHas = 1 ∧ t.rd .timInTs = packTime (s.rd .timTodNow + offset.toNat) ∧
      t.rd .timTodNow = s.rd .timTodNow ∧ OnlyIn [.tim] s t) ∧
  (∀ (offset : BitVec 17) (s : State), s.rd .pwrDevState ≠ 5 → s.on .timInEn = true → s.on .pwrDomTime = true →
    s.on .timInHas = true → s.rd .timInPeriodMs = 1000 → s.rd .timInLast = s.now * 131072 →
    ∃ t, exec (.timeInEdge offset) s = .next t ∧
      t.rd .timInGlitchCnt = min (s.rd .timInGlitchCnt + 1) (2 ^ Field.width .timInGlitchCnt - 1) ∧
      Changes s t 0 [.timInGlitchCnt]) ∧
  (∀ (s : State), s.on .timInEn = true → s.on .pwrDomTime = true → ∃ t, exec (.timeInMiss) s = .next t ∧
      (t.rd .timIntStatus).testBit Irq.timInMiss = true ∧ Changes s t 0 [.timIntStatus]) ∧
  (∀ (s : State), s.on .timInEn = false → exec (.timeInMiss) s = .next s) ∧
  (∀ (s : State), s.on .timOutEn = true → s.on .pwrDomTime = true → s.rdInt .timOutOfsPs = 0 →
    s.rd .timTodNow < 2 ^ 112 → s.rd .timOutWidthUs < s.rd .timOutPeriodMs * 1000 →
    ∃ t, exec (.timeOutPulse) s = .next t ∧
      t.rd .timOutStart = s.rd .timTodNow / (s.rd .timOutPeriodMs * 1000000 * 65536) * (s.rd .timOutPeriodMs * 1000000
        * 65536) ∧ t.rd .timOutWide = s.rd .timOutWidthUs ∧ Changes s t 0 [.timOutStart, .timOutWide]) ∧
  (∀ (s : State), s.on .timOutEn = false → exec (.timeOutPulse) s = .next s) ∧
  (∀ (s : State), s.warning = false → ∃ t, exec (.suspectEnd) s = .next t ∧
      t.rd .timSuspect = 0 ∧ Changes s t 0 [.timSuspect]) ∧
  (∀ (s : State), s.warning = true → exec (.suspectEnd) s = .next s)

/-- With the reference out, or in OFF, HOLD or FAILED, a lock window changes nothing. In LOCKED one within 100 ppm
without a slip is only measured; a worse one (no action of the fault window) counts a loss with its interrupt and
gates the outputs: it calibrates where AUTO_RELOCK allows and no request is pending, and fails where it does not. The
fourth good window in RELOCK locks with its outputs running, in CAL it only sets LOCK. CAL_REQ of software for no PLL,
or for one that calibrates or is OFF, does nothing; else it waits, a served lane that transmits awake going to
DISABLE, or below warning is held. A requested calibration starts with no served lane transmitting, the reference
present and none running, counting no loss; else it does not. The end of a running one, of a line or host PLL, is
LOCKED with its band, count, time and interrupt where the lock test passed, FAILED with the band kept where it did
not, and HOLD with a new band below warning. A PLL that does not relock in time calibrates. A first REF_LOST sets its
flag and interrupt, begins an outage and holds every LOCKED PLL; a repeated one changes nothing. A count within 128 of
2,560 is good; one more than 128 above it sets REF_BAD and begins an outage. REF_BACK after a good count clears the
flags and, in an outage that REF_HOLD_US of 20 or more has not ended, counts a glitch with its interrupt and returns a
held PLL, undeclared and with no band waiting, to LOCKED; reference present or no good count, nothing. REF_OK after
REF_BACK sets its flag and interrupt and starts a PLL whose loss was declared to relock. The hold's expiry in an
outage counts a loss and declares a held PLL lost with its interrupt (no action); without an outage it changes
nothing. It concludes, from conditions on the state and the operands alone, that exec answers a next state with the
command's own effect, of: pllLockWindow, pllCalReq, pllCalStart, pllCalDone, pllRelockTimeout, refLost, refCountDone,
refBack, refOk, refHoldExpiry. From rules R322, R323, R324, R326, R327, R328, R329, R330, R320. -/
def Obligations.PllsAndReferenceClock : Prop :=
  (∀ (p : Fin 5) (errPpm : Int) (phaseOk : Bool) (slip : Bool) (s : State),
    (s.refOut = true ∨ s.rd .pllState p = 0 ∨ s.rd .pllState p = 5 ∨ s.rd .pllState p = 3) →
    exec (.pllLockWindow p errPpm phaseOk slip) s = .next s) ∧
  (∀ (p : Fin 5) (errPpm : Int) (phaseOk : Bool) (slip : Bool) (s : State), s.refOut = false → s.rd .pllState p = 2 →
    errPpm.natAbs ≤ 100 → slip = false → errPpm < 128 → -128 ≤ errPpm →
    ∃ t, exec (.pllLockWindow p errPpm phaseOk slip) s = .next t ∧
      t.rdInt .pllLockErrPpm p = errPpm ∧ Changes s t p [.pllLockErrPpm]) ∧
  (∀ (p : Fin 5) (errPpm : Int) (phaseOk : Bool) (slip : Bool) (s : State), s.refOut = false → s.rd .pllState p = 4 →
    errPpm.natAbs ≤ 20 → phaseOk = true → slip = false → s.rd .pllQuietWin p = 3 →
    ∃ t, exec (.pllLockWindow p errPpm phaseOk slip) s = .next t ∧
      t.rd .pllState p = 2 ∧ t.rd .pllLock p = 1 ∧ t.rd .pllGated p = 0 ∧ t.rd .pllQuietWin p = 4 ∧
      t.rd .pllDeclared p = 0) ∧
  (∀ (p : Fin 5) (errPpm : Int) (phaseOk : Bool) (slip : Bool) (s : State), s.refOut = false → s.rd .pllState p = 2 →
    (100 < errPpm.natAbs ∨ slip = true) → s.maskBit .clkAutoRelock p = true → s.on .pllReqPend p = false →
    s.rd .hltAction 0 11 ≤ 1 → ∃ t, exec (.pllLockWindow p errPpm phaseOk slip) s = .next t ∧
      t.rd .pllState p = 1 ∧ t.rd .pllLock p = 0 ∧ t.rd .pllGated p = 1 ∧ t.rd .pllCalRun p = 1 ∧
      t.rd .pllLolCnt p = min (s.rd .pllLolCnt p + 1) (2 ^ Field.width .pllLolCnt - 1) ∧
      (t.rd .clkIntStatus).testBit (Irq.clkPllLol + p) = true) ∧
  (∀ (p : Fin 5) (errPpm : Int) (phaseOk : Bool) (slip : Bool) (s : State), s.refOut = false → s.rd .pllState p = 2 →
    slip = true → s.maskBit .clkAutoRelock p = false → s.rd .hltAction 0 11 ≤ 1 →
    ∃ t, exec (.pllLockWindow p errPpm phaseOk slip) s = .next t ∧
      t.rd .pllState p = 5 ∧ t.rd .pllLock p = 0 ∧ t.rd .pllGated p = 1 ∧
      (t.rd .clkIntStatus).testBit (Irq.clkPllLol + p) = true) ∧
  (∀ (p : Fin 5) (errPpm : Int) (phaseOk : Bool) (slip : Bool) (s : State), s.refOut = false → s.rd .pllState p = 1 →
    errPpm.natAbs ≤ 20 → phaseOk = true → slip = false → s.rd .pllQuietWin p = 3 →
    ∃ t, exec (.pllLockWindow p errPpm phaseOk slip) s = .next t ∧
      t.rd .pllState p = 1 ∧ t.rd .pllLock p = 1 ∧ t.rd .pllQuietWin p = 4 ∧
      Changes s t p [.pllLockErrPpm, .pllQuietWin, .pllLock]) ∧
  (∀ (mask : BitVec 5) (s : State), s.reaches .clk 0 → mask = 0 → exec (.pllCalReq mask) s = .next s) ∧
  (∀ (mask : BitVec 5) (p : Fin 5) (s : State), s.reaches .clk 0 → s.warning = false → mask.toNat = 2 ^ p.val →
    s.on .pllCalRun p = false → s.rd .pllState p ≠ 0 → ∃ t, exec (.pllCalReq mask) s = .next t ∧
      t.rd .pllReqPend p = 1 ∧ t.rd .pllCalPend p = 1 ∧ t.rd .pllState p = s.rd .pllState p ∧
      (∀ n ∈ pllLines p, 2 ≤ s.rd .ltxState n → s.rd .ltxState n ≤ 4 → s.on .ltxLsrEn n = true → s.on .ltxSleep n =
        false → t.rd .ltxState n = 5)) ∧
  (∀ (mask : BitVec 5) (p : Fin 5) (s : State), s.Inv → s.reaches .clk 0 → s.warning = true →
    mask.toNat = 2 ^ p.val → s.on .pllCalRun p = false → s.rd .pllState p ≠ 0 →
    ∃ t, exec (.pllCalReq mask) s = .next t ∧
      (t.rd .clkCalReq).testBit p = true ∧ t.rd .pllCalPend p = 1 ∧ t.rd .pllReqPend p = s.rd .pllReqPend p ∧
      OnlyIn [.clk, .pll] s t) ∧
  (∀ (mask : BitVec 5) (p : Fin 5) (s : State), s.reaches .clk 0 → mask.toNat = 2 ^ p.val →
    (s.on .pllCalRun p = true ∨ s.rd .pllState p = 0) → exec (.pllCalReq mask) s = .next s) ∧
  (∀ (p : Fin 5) (s : State),
    (s.on .pllReqPend p = false ∨ s.on .pllCalRun p = true ∨ s.pllTransmits p = true ∨ s.refOut = true) →
    exec (.pllCalStart p) s = .next s) ∧
  (∀ (p : Fin 5) (s : State), s.on .pllReqPend p = true → s.on .pllCalRun p = false → s.pllTransmits p = false →
    s.refOut = false → ∃ t, exec (.pllCalStart p) s = .next t ∧
      t.rd .pllState p = 1 ∧ t.rd .pllCalRun p = 1 ∧ t.rd .pllCalPend p = 0 ∧ t.rd .pllLock p = 0 ∧
      t.rd .pllGated p = 1 ∧ t.rd .pllLolCnt p = s.rd .pllLolCnt p) ∧
  (∀ (p : Fin 5) (band : BitVec 6) (s : State), (s.rd .pllCalRun p ≠ 1 ∨ s.refOut = true) →
    exec (.pllCalDone p band) s = .next s) ∧
  (∀ (p : Fin 5) (band : BitVec 6) (s : State), s.rd .pllCalRun p = 1 → s.refOut = false → s.on .pllLock p = true →
    s.warning = false → p ≠ 4 → ∃ t, exec (.pllCalDone p band) s = .next t ∧
      t.rd .pllState p = 2 ∧ t.rd .pllBand p = band.toNat ∧ t.rd .pllLock p = 1 ∧ t.rd .pllGated p = 0 ∧
      t.rd .pllCalRun p = 0 ∧ t.rd .pllReqPend p = 0 ∧
      t.rd .pllCalCnt p = min (s.rd .pllCalCnt p + 1) (2 ^ Field.width .pllCalCnt - 1) ∧
      t.rd .pllCalTime p = s.todWords % 2 ^ Field.width .pllCalTime ∧
      (t.rd .clkIntStatus).testBit (Irq.clkCalDone + p) = true) ∧
  (∀ (p : Fin 5) (band : BitVec 6) (s : State), s.rd .pllCalRun p = 1 → s.refOut = false → s.on .pllLock p = false →
    p ≠ 4 → ∃ t, exec (.pllCalDone p band) s = .next t ∧
      t.rd .pllState p = 5 ∧ t.rd .pllLock p = 0 ∧ t.rd .pllCalRun p = 0 ∧
      (t.rd .clkIntStatus).testBit (Irq.clkCalDone + p) = true ∧ t.rd .pllBand p = s.rd .pllBand p) ∧
  (∀ (p : Fin 5) (band : BitVec 6) (s : State), s.rd .pllCalRun p = 1 → s.refOut = false → s.on .pllLock p = true →
    s.warning = true → band.toNat ≠ s.rd .pllBand p → p ≠ 4 → ∃ t, exec (.pllCalDone p band) s = .next t ∧
      t.rd .pllState p = 3 ∧ t.rd .pllBand p = s.rd .pllBand p ∧ t.rd .pllBandHeld p = 64 + band.toNat ∧
      t.rd .pllCalRun p = 0) ∧
  (∀ (p : Fin 5) (s : State), s.rd .pllState p = 4 → ∃ t, exec (.pllRelockTimeout p) s = .next t ∧
      t.rd .pllState p = 1 ∧ t.rd .pllGated p = 1 ∧ (t.rd .pllCalRun p = (if s.refOut = true then 2 else 1))) ∧
  (∀ (p : Fin 5) (s : State), s.rd .pllState p ≠ 4 → exec (.pllRelockTimeout p) s = .next s) ∧
  (∀ (s : State), s.on .clkRefLost = true → exec (.refLost) s = .next s) ∧
  (∀ (s : State), s.refOut = false → ∃ t, exec (.refLost) s = .next t ∧
      t.rd .clkRefLost = 1 ∧ t.rd .clkRefOk = 0 ∧ t.rd .clkOutage = 1 ∧
      (t.rd .clkIntStatus).testBit Irq.clkRefLost = true ∧
      (∀ p ∈ List.range 5, s.rd .pllState p = 2 → t.rd .pllState p = 3 ∧ t.rd .pllDeclared p = 0)) ∧
  (∀ (count : BitVec 16) (s : State), 2432 ≤ count.toNat → count.toNat ≤ 2688 →
    ∃ t, exec (.refCountDone count) s = .next t ∧
      t.rd .clkCountOk = 1 ∧ Changes s t 0 [.clkCountOk]) ∧
  (∀ (count : BitVec 16) (s : State), 2688 < count.toNat → s.refOut = false →
    ∃ t, exec (.refCountDone count) s = .next t ∧
      t.rd .clkRefBad = 1 ∧ t.rd .clkRefLost = 0 ∧ (t.rd .clkIntStatus).testBit Irq.clkRefLost = true ∧
      t.rd .clkOutage = 1) ∧
  (∀ (s : State), (s.refOut = false ∨ s.on .clkCountOk = false) → exec (.refBack) s = .next s) ∧
  (∀ (p : Fin 5) (s : State), s.refOut = true → s.on .clkCountOk = true → s.on .clkOutage = true →
    s.rd .pllState p = 3 → s.on .pllDeclared p = false → s.on .pllBandHeld p = false → 20 ≤ s.rd .clkRefHoldUs →
    ∃ t, exec (.refBack) s = .next t ∧
      t.rd .clkRefLost = 0 ∧ t.rd .clkRefBad = 0 ∧ t.rd .clkRefBack = 1 ∧ t.rd .pllState p = 2 ∧ t.rd .clkOutage = 0 ∧
      t.rd .clkRefGlitchCnt = min (s.rd .clkRefGlitchCnt + 1) (2 ^ Field.width .clkRefGlitchCnt - 1) ∧
      (t.rd .clkIntStatus).testBit Irq.clkRefGlitch = true ∧ OnlyIn [.clk, .pll, .evf, .hlt, .glb, .ltx] s t) ∧
  (∀ (s : State), (s.refOut = true ∨ s.on .clkRefBack = false) → exec (.refOk) s = .next s) ∧
  (∀ (p : Fin 5) (s : State), s.refOut = false → s.on .clkRefBack = true → s.rd .pllState p = 3 →
    s.on .pllDeclared p = true → ∃ t, exec (.refOk) s = .next t ∧
      t.rd .clkRefOk = 1 ∧ (t.rd .clkIntStatus).testBit Irq.clkRefOk = true ∧ t.rd .pllState p = 4 ∧
      t.rd .pllQuietWin p = 0) ∧
  (∀ (s : State), (s.on .clkOutage = false ∨ s.refOut = false) → exec (.refHoldExpiry) s = .next s) ∧
  (∀ (s : State), s.on .clkOutage = true → s.refOut = true → (∀ p ∈ List.range 5, s.rd .pllState p ≠ 3) →
    ∃ t, exec (.refHoldExpiry) s = .next t ∧
      t.rd .clkOutage = 0 ∧ t.rd .clkRefLossCnt = min (s.rd .clkRefLossCnt + 1) (2 ^ Field.width .clkRefLossCnt - 1) ∧
      Changes s t 0 [.clkOutage, .clkRefLossCnt]) ∧
  (∀ (p : Fin 5) (s : State), s.on .clkOutage = true → s.refOut = true → s.rd .pllState p = 3 →
    s.rd .hltAction 0 11 ≤ 1 → ∃ t, exec (.refHoldExpiry) s = .next t ∧
      t.rd .clkOutage = 0 ∧ t.rd .pllDeclared p = 1 ∧ t.rd .pllState p = 3 ∧ t.rd .pllLock p = 0 ∧
      (t.rd .clkIntStatus).testBit (Irq.clkPllLol + p) = true)

/-- Before PU_DONE a trigger changes nothing. After it, with MGMT on, outside Standby and with no output test of the
lane, the bias code is 0 under the clamp, and with the clamp off and the laser on it is at most the code of MAX_BIAS
in the output's range, with fault values gone. A COMPLIANCE or OPEN condition is flagged and counted with its
interrupt where the clamp is off and the code is at least 1, or 64 (no action of the fault window); else it leaves no
trace. The envelope trips (no action) on a sensed current above 1.10 MAX_BIAS and 8 units with the clamp off, and on
two monitor samples above MON_MAX of a lane whose pins are granted: cause, off time, laser pin low, clamp on; at the
limits, with the mask set or no pin granted it does not. PROBE trips where the lane is not ACTIVE at its end. The end
of a running off time clears it and keeps the lane's state. ENV_SAVE is ignored outside Manufacturing; there it
starts, and below warning SAVE_PENDING reads 1. It concludes, from conditions on the state and the operands alone,
that exec answers a next state with the command's own effect, of: optTrigger, obiasConditionEvent, envelopeTrip,
probeTimeout, offTimeExpiry, envSave. From rules R337, R340, R341, R343, R345, R346, R348, R350, R351. -/
def Obligations.OpticsTriggerAndEnvelope : Prop :=
  (∀ (n : Lane) (compliance : Bool) (openLoop : Bool) (s : State), s.on .optGlbPuDone = false →
    exec (.optTrigger n compliance openLoop) s = .next s) ∧
  (∀ (n : Lane) (compliance : Bool) (openLoop : Bool) (s : State), s.on .optGlbPuDone = true →
    s.on .pwrDomMgmt = true → s.underTest 4 n = false → s.rd .pwrDevState ≠ 2 → s.on .optLnClamp n = true →
    ∃ t, exec (.optTrigger n compliance openLoop) s = .next t ∧
      t.rd .optOutCode n 0 = 0) ∧
  (∀ (n : Lane) (compliance : Bool) (openLoop : Bool) (s : State), s.on .optGlbPuDone = true →
    s.on .pwrDomMgmt = true → s.underTest 4 n = false → s.rd .pwrDevState ≠ 2 → s.on .optLnClamp n = false →
    s.on .ltxLsrEn n = true → ∃ t, exec (.optTrigger n compliance openLoop) s = .next t ∧
      t.rd .optOutCode n 0 ≤ euCode (s.rd .optLnMaxBias n) (s.rd .optOutRange n 0) ∧ t.rd .optFault n = 0 ∧
      OnlyIn [.lfr, .ltx, .monCh, .optLn, .timLn] s t) ∧
  (∀ (n : Lane) (openLoop : Bool) (s : State),
    (s.on .optLnClamp n = true ∨ s.on .optGlbPuDone = false ∨ s.rd .optOutCode n 0 < (if openLoop =
      true then 64 else 1)) → exec (.obiasConditionEvent n openLoop) s = .next s) ∧
  (∀ (n : Lane) (openLoop : Bool) (s : State), s.on .optLnClamp n = false → s.on .optGlbPuDone = true →
    openLoop = true → 64 ≤ s.rd .optOutCode n 0 → s.rd .hltAction 0 13 ≤ 1 →
    ∃ t, exec (.obiasConditionEvent n openLoop) s = .next t ∧
      t.rd .optLnOpen n = 1 ∧
      t.rd .optLnOpenCnt n = min (s.rd .optLnOpenCnt n + 1) (2 ^ Field.width .optLnOpenCnt - 1) ∧
      (t.rd .optLnIntStatus n).testBit Irq.optLnOpen = true) ∧
  (∀ (n : Lane) (openLoop : Bool) (s : State), s.on .optLnClamp n = false → s.on .optGlbPuDone = true →
    openLoop = false → 1 ≤ s.rd .optOutCode n 0 → s.rd .hltAction 0 12 ≤ 1 →
    ∃ t, exec (.obiasConditionEvent n openLoop) s = .next t ∧
      t.rd .optLnCompliance n = 1 ∧
      t.rd .optLnComplianceCnt n = min (s.rd .optLnComplianceCnt n + 1) (2 ^ Field.width .optLnComplianceCnt - 1) ∧
      (t.rd .optLnIntStatus n).testBit Irq.optLnCompliance = true) ∧
  (∀ (n : Lane) (c : EnvCondition) (s : State), c = .mask →
    (s.pinsGranted n = false ∨ s.maskBit .optGlbLaneMask n = true) → exec (.envelopeTrip n c) s = .next s) ∧
  (∀ (n : Lane) (c : EnvCondition) (d : Nat) (s : State), c = .overCurrent d → 11 * s.rd .optLnMaxBias n + 80 < d →
    s.on .optLnClamp n = false → s.rd .hltAction 0 8 ≤ 1 → ∃ t, exec (.envelopeTrip n c) s = .next t ∧
      t.rd .optLnTripCause n = 2 ∧ t.rd .optLnOffTime n = 1 ∧
      t.rd .optLnTripCnt n = min (s.rd .optLnTripCnt n + 1) (2 ^ Field.width .optLnTripCnt - 1) ∧
      t.rd .ltxLsrEn n = 0 ∧ t.rd .optLnClamp n = 1) ∧
  (∀ (n : Lane) (c : EnvCondition) (d : Nat) (s : State), c = .overCurrent d →
    (d ≤ 11 * s.rd .optLnMaxBias n + 80 ∨ s.on .optLnClamp n = true) → exec (.envelopeTrip n c) s = .next s) ∧
  (∀ (n : Lane) (c : EnvCondition) (a : BitVec 12) (b : BitVec 12) (s : State), c = .monOver a b →
    (s.pinsGranted n = false ∨ s.rd .optLnMonCh n = 31 ∨ a.toNat ≤ s.rd .optLnMonMax n ∨ b.toNat ≤
      s.rd .optLnMonMax n) → exec (.envelopeTrip n c) s = .next s) ∧
  (∀ (n : Lane) (c : EnvCondition) (a : BitVec 12) (b : BitVec 12) (s : State), c = .monOver a b →
    s.pinsGranted n = true → s.rd .optLnMonCh n ≠ 31 → s.rd .optLnMonMax n < a.toNat → s.rd .optLnMonMax n < b.toNat →
    s.rd .hltAction 0 8 ≤ 1 → ∃ t, exec (.envelopeTrip n c) s = .next t ∧
      t.rd .optLnTripCause n = 3 ∧ t.rd .optLnOffTime n = 1 ∧ t.rd .ltxLsrEn n = 0 ∧ t.rd .ltxDrvEn n = 0 ∧
      t.rd .optLnClamp n = 1) ∧
  (∀ (n : Lane) (s : State), (s.on .optProbeRun n = false ∨ s.rd .ltxState n = 4) →
    exec (.probeTimeout n) s = .next s) ∧
  (∀ (n : Lane) (s : State), s.on .optProbeRun n = true → s.rd .ltxState n ≠ 4 → s.rd .hltAction 0 8 ≤ 1 →
    ∃ t, exec (.probeTimeout n) s = .next t ∧
      t.rd .optLnTripCause n = 4 ∧ t.rd .optLnOffTime n = 1 ∧ t.rd .ltxLsrEn n = 0) ∧
  (∀ (n : Lane) (s : State), s.on .optLnOffTime n = true → ∃ t, exec (.offTimeExpiry n) s = .next t ∧
      t.rd .optLnOffTime n = 0 ∧ t.rd .optLnOffRemainMs n = 0 ∧ t.rd .ltxState n = s.rd .ltxState n ∧
      OnlyIn [.optLn, .ltx] s t) ∧
  (∀ (n : Lane) (s : State), s.on .optLnOffTime n = false → exec (.offTimeExpiry n) s = .next s) ∧
  (∀ (s : State), s.reaches .optGlb 0 → s.rd .secLcState ≠ 1 → exec (.envSave) s = .next s) ∧
  (∀ (s : State), s.reaches .optGlb 0 → s.rd .secLcState = 1 → ∃ t, exec (.envSave) s = .next t ∧
      t.rd .optGlbEnvSave = 1 ∧ t.rd .optSaveBusy = 1 ∧ (s.warning = true → t.view .optGlbSavePending 0 0 = 1) ∧
      Changes s t 0 [.optGlbEnvSave, .optSaveBusy])

/-- A disabled channel gives no output; an enabled one with MGMT on, no cross-fade and no swap waiting gives its
chain's code with the next sequence number, valid once the settling time has passed; a swap that software asks for is
recorded. A transaction of PB_CMD while one of it is unfinished is ignored; with the bus free a forbidden write ends
PROTECTED with PB_DONE and PB_ERR, any other starts and PB_BUSY reads 1; with the bus in use it waits behind the
others, as one of the firmware does. The end of the one transaction running is NACK or TIMEOUT with PB_ERR, or OK with
the read bytes in PB_DATA; where it came from PB_CMD, GO clears, with PB_DONE at a NACK or an OK; the next allowed one
that waits then runs. With none running these ends change nothing. It concludes, from conditions on the state and the
operands alone, that exec answers a next state with the command's own effect, of: monOutput, monSwap, pbTransaction,
pbTransactionDone, pbTimeout. From rules R353, R355, R356, R357, R358, R361. -/
def Obligations.MonitorChainAndPeripheralBus : Prop :=
  (∀ (c : Fin 24) (codes : List (BitVec 12)) (s : State), s.maskBit .monEn c = false →
    exec (.monOutput c codes) s = .next s) ∧
  (∀ (c : Fin 24) (codes : List (BitVec 12)) (s : State), s.maskBit .monEn c = true → s.on .pwrDomMgmt = true →
    s.on .monChXfade c = false → s.on .monChSwap c = false → ∃ t, exec (.monOutput c codes) s = .next t ∧
      t.rd .monChData c = chainCode (s.monChain c false (codes.map (fun v => v.toNat))).1 (s.monChain c false
        (codes.map (fun v => v.toNat))).2 % 2 ^ Field.width .monChData ∧
      t.rd .monChSeq c = (s.rd .monChSeq c + 1) % 2 ^ Field.width .monChSeq ∧
      t.rd .monChValid c = bit (decide (600 * (s.monDelay2 c + 1) ≤ s.now - s.rd .monEventAt c)) ∧
      OnlyIn [.mon, .monCh] s t) ∧
  (∀ (c : Fin 24) (s : State), s.reaches .monCh c → ∃ t, exec (.monSwap c) s = .next t ∧
      t.rd .monChSwap c = 1 ∧ Changes s t c [.monChSwap]) ∧
  (∀ (s : State), s.reaches .optGlb 0 → s.on .pbGo = true → exec (.pbTransaction none) s = .next s) ∧
  (∀ (s : State), s.reaches .optGlb 0 → s.on .pbGo = false → s.pb = [] → s.pbForbidden s.pbCommand = true →
    ∃ t, exec (.pbTransaction none) s = .next t ∧
      t.rd .pbResult = 3 ∧ t.rd .pbGo = 0 ∧ t.pb = [] ∧ (t.rd .optGlbIntStatus).testBit Irq.optGlbPbDone = true ∧
      (t.rd .optGlbIntStatus).testBit Irq.optGlbPbErr = true ∧ Changes s t 0 [.pbGo, .pbResult, .optGlbIntStatus]) ∧
  (∀ (s : State), s.reaches .optGlb 0 → s.on .pbGo = false → s.pb = [] → s.pbForbidden s.pbCommand = false →
    ∃ t, exec (.pbTransaction none) s = .next t ∧
      t.pb = [(s.pbCommand, false)] ∧ t.view .pbBusy 0 0 = 1 ∧ t.rd .pbGo = 1 ∧
      Changes { s with pb := t.pb } t 0 [.pbGo]) ∧
  (∀ (s : State), s.reaches .optGlb 0 → s.on .pbGo = false → s.pb ≠ [] →
    ∃ t, exec (.pbTransaction none) s = .next t ∧
      t.pb = s.pb ++ [(s.pbCommand, false)] ∧ t.rd .pbGo = 1 ∧ Changes { s with pb := t.pb } t 0 [.pbGo]) ∧
  (∀ (j : PbJob) (s : State), s.on .pwrDomMgmt = true → s.pb ≠ [] → ∃ t, exec (.pbTransaction (some j)) s = .next t ∧
      t = { s with pb := s.pb ++ [(j, true)] }) ∧
  (∀ (nack : Bool) (data : BitVec 32) (s : State), s.pb = [] → exec (.pbTransactionDone nack data) s = .next s) ∧
  (∀ (nack : Bool) (data : BitVec 32) (j : PbJob) (fw : Bool) (s : State), s.pb = [(j, fw)] → nack = true →
    ∃ t, exec (.pbTransactionDone nack data) s = .next t ∧
      t.rd .pbResult = 1 ∧ t.pb = [] ∧
      (fw = false → t.rd .pbGo = 0 ∧ (t.rd .optGlbIntStatus).testBit Irq.optGlbPbDone = true) ∧
      (t.rd .optGlbIntStatus).testBit Irq.optGlbPbErr = true ∧
      Changes { s with pb := [] } t 0 [.pbGo, .pbResult, .optGlbIntStatus]) ∧
  (∀ (nack : Bool) (data : BitVec 32) (j : PbJob) (fw : Bool) (s : State), s.pb = [(j, fw)] → nack = false →
    fw = false → j.read = true → ∃ t, exec (.pbTransactionDone nack data) s = .next t ∧
      t.rd .pbResult = 0 ∧ t.pb = [] ∧ t.rd .pbGo = 0 ∧ t.rd .pbData = data.toNat % 2 ^ (8 * (j.len.val + 1)) ∧
      (t.rd .optGlbIntStatus).testBit Irq.optGlbPbDone = true ∧
      Changes { s with pb := [] } t 0 [.pbGo, .pbResult, .pbData, .optGlbIntStatus]) ∧
  (∀ (nack : Bool) (data : BitVec 32) (j : PbJob) (fw : Bool) (k : PbJob × Bool) (q : List (PbJob × Bool)) (s :
      State), s.pb = (j, fw) :: k :: q → s.pbForbidden k.1 = false →
    ∃ t, exec (.pbTransactionDone nack data) s = .next t ∧
      t.pb = k :: q) ∧
  (∀ (j : PbJob) (fw : Bool) (s : State), s.pb = [(j, fw)] → ∃ t, exec (.pbTimeout) s = .next t ∧
      t.rd .pbResult = 2 ∧ t.pb = [] ∧ (fw = false → t.rd .pbGo = 0) ∧
      (t.rd .optGlbIntStatus).testBit Irq.optGlbPbErr = true ∧
      Changes { s with pb := [] } t 0 [.pbGo, .pbResult, .optGlbIntStatus]) ∧
  (∀ (s : State), s.pb = [] → exec (.pbTimeout) s = .next s)

/-- Where software reaches the lane's power block, with no lane or output test of it: below warning a sleep request is
recorded, a fresh one clearing GIVEUP and the retries, and starts no vote; a fresh egress one with a deeper state to
take, in Active without warning, starts PREPARE. Written 0, the direction rests with its vote gone and its line block
waking from sleep, the ingress leaving Trim. An ingress budget is stored and clears GIVEUP and the retries. PREPARE of
a withdrawn request ends where the direction rests; with no voter refusing or under test COMMIT begins with its plan;
a transmitter with a commit waiting refuses with reason 2, recorded, counted, with its interrupt and retry; a silent
voter refuses with 10; outside PREPARE a timeout does nothing. The last step of an egress Doze puts the transmitter to
sleep, muted, with its time; a late refusal wakes it and is recorded with 11. Without a vote neither does anything. An
armed retry of a standing egress request past RETRY_MAX gives up; one not armed does nothing. Trim begins under a
sleep request with a budget of 3, awake, the island on and no warning; with no request, less budget or a warning it
does not. It concludes, from conditions on the state and the operands alone, that exec answers a next state with the
command's own effect, of: sleepRequest, sleepRequestClear, budgetWrite, votePrepare, voteTimeout, voteCommitStep,
lateRefusal, sleepRetry, trimEntry. From rules R366, R367, R368, R377, R378, R379, R380, R381. -/
def Obligations.SleepRequestsAndVotes : Prop :=
  (∀ (n : Lane) (egress : Bool) (s : State), s.reaches .pwrLn n → s.underTest 1 n = false → s.underTest 4 n = false →
    egress = false → s.warning = true → ∃ t, exec (.sleepRequest n egress) s = .next t ∧
      t.rd .pwrLnIngSleep n = 1 ∧
      (s.on .pwrLnIngSleep n = false → t.rd .pwrLnIngGiveup n = 0 ∧ t.rd .pwrLnIngRetry n = 0) ∧
      t.rd .pwrLnIngPhase n = s.rd .pwrLnIngPhase n ∧
      Changes s t n [.pwrLnIngSleep, .pwrLnIngGiveup, .pwrLnIngRetry, .pwrIngRetryArm]) ∧
  (∀ (n : Lane) (egress : Bool) (s : State), s.reaches .pwrLn n → s.underTest 1 n = false → s.underTest 4 n = false →
    egress = true → s.warning = false → s.rd .pwrDevState = 0 → s.sleepPlan n true ≠ [] → s.rd .pwrLnEgrPhase n = 0 →
    s.on .pwrLnEgrSleep n = false → ∃ t, exec (.sleepRequest n egress) s = .next t ∧
      t.rd .pwrLnEgrSleep n = 1 ∧ t.rd .pwrLnEgrPhase n = 1 ∧ OnlyIn [.pwr, .pwrLn] s t) ∧
  (∀ (n : Lane) (egress : Bool) (s : State), s.reaches .pwrLn n → egress = true →
    ∃ t, exec (.sleepRequestClear n egress) s = .next t ∧
      t.rd .pwrLnEgrSleep n = 0 ∧ t.rd .pwrLnEgrPhase n = 0 ∧ (s.on .ltxSleep n = true → t.rd .ltxNapWake n = 1) ∧
      (∀ v ∈ t.votes, ¬ (v.obj = n ∧ v.egress = true))) ∧
  (∀ (n : Lane) (egress : Bool) (s : State), s.reaches .pwrLn n → egress = false →
    ∃ t, exec (.sleepRequestClear n egress) s = .next t ∧
      t.rd .pwrLnIngSleep n = 0 ∧ t.rd .pwrLnIngPhase n = 0 ∧ (s.on .lrxSleep n = true → t.rd .lrxWakeRun n = 1) ∧
      t.rd .pwrLnTrim n = 0) ∧
  (∀ (n : Lane) (egress : Bool) (us : BitVec 16) (s : State), s.reaches .pwrLn n → egress = false →
    ∃ t, exec (.budgetWrite n egress us) s = .next t ∧
      t.rd .pwrLnIngBudgetUs n = us.toNat ∧ t.rd .pwrLnIngGiveup n = 0 ∧ t.rd .pwrLnIngRetry n = 0) ∧
  (∀ (n : Lane) (e : Bool) (obj : VoteObject) (s : State), obj = .lane n e → s.requested obj = false →
    s.phaseOf obj = 1 → ∃ t, exec (.votePrepare obj) s = .next t ∧
      t.phaseOf obj = s.rest obj ∧ t.votes = s.votes ∧ OnlyIn [.pwrLn] s t) ∧
  (∀ (n : Lane) (e : Bool) (obj : VoteObject) (s : State), obj = .lane n e → s.requested obj = true →
    s.phaseOf obj = 1 → (s.planOf obj).all (fun st => !s.voterTested st.voter && (s.refusal st.voter).isNone) = true →
    ∃ t, exec (.votePrepare obj) s = .next t ∧
      t.phaseOf obj = 2 ∧
      (t.votes.getLast?).map (fun v => (v.obj, v.egress, v.todo, v.done)) = some (n.val, e, s.planOf obj, []) ∧
      OnlyIn [.pwrLn] s t) ∧
  (∀ (n : Lane) (obj : VoteObject) (s : State), obj = .lane n true → s.requested obj = true → s.phaseOf obj = 1 →
    s.tests = [] → s.sleepPlan n true ≠ [] → s.sleepPlan n true = [⟨⟨3, n⟩, true, 2⟩, ⟨⟨2, n⟩, true, 0⟩] →
    s.on .ltxWakeRun n = false → s.rd .ltxState n = 4 → s.on .ltxWakeSend n = false → s.on .ltxCommit n = true →
    ∃ t, exec (.votePrepare obj) s = .next t ∧
      t.phaseOf obj = s.rest obj ∧ t.rd .pwrRefVoter = 3 ∧ t.rd .pwrRefReason = 2 ∧ t.rd .pwrRefObject = n ∧
      t.rd .pwrEgrRetryArm n = 1 ∧
      t.rd .pwrRefusalCnt = min (s.rd .pwrRefusalCnt + 1) (2 ^ Field.width .pwrRefusalCnt - 1) ∧
      (t.rd .pwrIntStatus).testBit Irq.pwrRefusal = true ∧ OnlyIn [.pwr, .pwrLn, .evf] s t) ∧
  (∀ (n : Lane) (e : Bool) (obj : VoteObject) (block : Fin 9) (inst : Fin 16) (s : State), obj = .lane n e →
    s.phaseOf obj = 1 → ∃ t, exec (.voteTimeout obj block inst) s = .next t ∧
      t.phaseOf obj = s.rest obj ∧ t.rd .pwrRefVoter = block ∧ t.rd .pwrRefInstance = inst ∧ t.rd .pwrRefReason = 10 ∧
      (t.rd .pwrIntStatus).testBit Irq.pwrRefusal = true ∧ OnlyIn [.pwr, .pwrLn, .evf] s t) ∧
  (∀ (obj : VoteObject) (block : Fin 9) (inst : Fin 16) (s : State), s.phaseOf obj ≠ 1 →
    exec (.voteTimeout obj block inst) s = .next s) ∧
  (∀ (obj : VoteObject) (s : State), s.votes.all (fun v => v.obj != voteObj obj) = true →
    exec (.voteCommitStep obj) s = .next s) ∧
  (∀ (n : Lane) (obj : VoteObject) (s : State), obj = .lane n true →
    s.votes = [⟨n, true, 2, [⟨⟨3, n⟩, true, 2⟩], []⟩] → s.rd .ltxState n = 4 → s.on .ltxWakeSend n = false →
    s.on .ltxWakeRun n = false → s.on .ltxCommit n = false → ∃ t, exec (.voteCommitStep obj) s = .next t ∧
      t.votes = [] ∧ t.phaseOf obj = 3 ∧ t.rd .ltxSleep n = 1 ∧ t.rd .pwrLnLtxPstate n = 2 ∧ t.rd .ltxMuted n = 1 ∧
      t.rd .pwrEgrAsleepAt n = s.now % 2 ^ Field.width .pwrEgrAsleepAt) ∧
  (∀ (obj : VoteObject) (block : Fin 9) (inst : Fin 16) (s : State),
    s.votes.all (fun v => v.obj != voteObj obj) = true → exec (.lateRefusal obj block inst) s = .next s) ∧
  (∀ (n : Lane) (obj : VoteObject) (block : Fin 9) (inst : Fin 16) (s : State), obj = .lane n true →
    s.votes = [⟨n, true, 2, [⟨⟨2, n⟩, true, 0⟩], [⟨⟨3, n⟩, true, 2⟩]⟩] → s.on .ltxSleep n = true →
    ∃ t, exec (.lateRefusal obj block inst) s = .next t ∧
      t.votes = [] ∧ t.phaseOf obj = t.rest obj ∧ t.rd .ltxNapWake n = 1 ∧ t.rd .pwrRefLate = 1 ∧
      t.rd .pwrRefReason = 11 ∧ t.rd .pwrRefVoter = block ∧ t.rd .pwrEgrRetryArm n = 1) ∧
  (∀ (n : Lane) (obj : VoteObject) (s : State), obj = .lane n true → s.on .pwrEgrRetryArm n = true →
    s.requested obj = true → s.rd .pwrRetryMax ≤ s.rd .pwrLnEgrRetry n → ∃ t, exec (.sleepRetry obj) s = .next t ∧
      t.rd .pwrLnEgrGiveup n = 1 ∧ t.rd .pwrEgrRetryArm n = 0 ∧ (t.rd .pwrIntStatus).testBit Irq.pwrGiveup = true ∧
      OnlyIn [.pwr, .pwrLn] s t) ∧
  (∀ (n : Lane) (obj : VoteObject) (s : State), obj = .lane n true → s.on .pwrEgrRetryArm n = false →
    exec (.sleepRetry obj) s = .next s) ∧
  (∀ (n : Lane) (s : State), s.on .pwrLnIngSleep n = true → 3 ≤ s.rd .pwrLnIngBudgetUs n → s.on .lrxSleep n = false →
    s.on .pwrLnTrim n = false → s.maskBit .pwrDomDecode n = true → s.warning = false →
    ∃ t, exec (.trimEntry n) s = .next t ∧
      t.rd .pwrLnTrim n = 1 ∧ t.rd .lrxSleep n = 0 ∧ OnlyIn [.pwr, .pwrLn] s t) ∧
  (∀ (n : Lane) (s : State), (s.on .pwrLnIngSleep n = false ∨ s.rd .pwrLnIngBudgetUs n < 3 ∨ s.warning = true) →
    exec (.trimEntry n) s = .next s)

/-- LPMODE is only noted where LPMODE_EN is 0; where it is 1, in Active with no transition and no warning, it starts
the device's vote for Standby, as does STANDBY_SW. LPMODE released in Standby starts the wake where nothing else holds
it, stays in Standby under CRIT_LATCH, and in Active abandons a vote for Standby that STANDBY_SW does not ask for.
DEEP not yet running is refused with DEEP_REFUSED while an image operation, an ENV_SAVE or an NVM write is pending;
else in Active or Standby, with no vote and no warning, it starts its vote. In Deep an enabled source 3 to 6 starts
the wake with the regulator on; any other, or outside Deep, changes nothing. An enabled wake timer ends a Standby that
nothing holds; unset, or in Active with no vote, it does nothing. In STANDBY_WAKE with the reference good, no lane or
host enabled and start-up complete, the wake powers every domain, calibrates the line and host PLLs and ends Active;
outside it, or before REF_OK, nothing happens. It concludes, from conditions on the state and the operands alone, that
exec answers a next state with the command's own effect, of: lpmodeAssert, lpmodeDeassert, standbySwWrite, deep,
deepWakeEvent, wakeTimerExpiry, standbyWake. From rules R369, R371, R372, R373, R374, R375, R376. -/
def Obligations.StandbyAndDeep : Prop :=
  (∀ (s : State), s.on .pwrLpmodeEn = false → ∃ t, exec (.lpmodeAssert) s = .next t ∧
      t.rd .pwrLpmode = 1 ∧ Changes s t 0 [.pwrLpmode]) ∧
  (∀ (s : State), s.on .pwrLpmodeEn = true → s.rd .pwrDevState = 0 → s.warning = false → s.rd .pwrDevTarget = 0 →
    s.on .pwrDevPhase = false → ∃ t, exec (.lpmodeAssert) s = .next t ∧
      t.rd .pwrLpmode = 1 ∧ t.rd .pwrDevTarget = 6 ∧ t.rd .pwrDevPhase = 1 ∧ t.rd .pwrDevRetry = 0 ∧
      t.rd .pwrDevGiveup = 0 ∧ t.rd .pwrDevState = 0 ∧
      Changes s t 0 [.pwrLpmode, .pwrWakePend, .pwrDevTarget, .pwrDevPhase, .pwrDevRetry, .pwrDevGiveup,
        .pwrDevRetryArm]) ∧
  (∀ (s : State), s.rd .pwrDevState = 2 → s.on .thmCritLatch = false → s.on .pwrStandbySw = false →
    ∃ t, exec (.lpmodeDeassert) s = .next t ∧
      t.rd .pwrLpmode = 0 ∧ t.rd .pwrDevState = 3 ∧ t.rd .pwrStagDir = 1 ∧ t.rd .pwrStagIdx = 0 ∧
      OnlyIn [.pwr, .evf] s t) ∧
  (∀ (s : State), s.rd .pwrDevState = 2 → s.on .thmCritLatch = true → ∃ t, exec (.lpmodeDeassert) s = .next t ∧
      t.rd .pwrLpmode = 0 ∧ t.rd .pwrDevState = 2 ∧ OnlyIn [.pwr, .evf] s t) ∧
  (∀ (s : State), s.rd .pwrDevState = 0 → s.on .pwrStandbySw = false → s.rd .pwrDevTarget ≠ 7 →
    ∃ t, exec (.lpmodeDeassert) s = .next t ∧
      t.rd .pwrLpmode = 0 ∧ t.rd .pwrDevPhase = 0 ∧ t.rd .pwrDevState = 0 ∧ (∀ v ∈ t.votes, v.obj ≠ 8)) ∧
  (∀ (s : State), s.reaches .pwr 0 → s.rd .pwrDevState = 0 → s.warning = false → s.rd .pwrDevTarget = 0 →
    s.on .pwrDevPhase = false → ∃ t, exec (.standbySwWrite) s = .next t ∧
      t.rd .pwrStandbySw = 1 ∧ t.rd .pwrDevTarget = 6 ∧ t.rd .pwrDevPhase = 1 ∧
      Changes s t 0 [.pwrStandbySw, .pwrWakePend, .pwrDevTarget, .pwrDevPhase, .pwrDevRetry, .pwrDevGiveup,
        .pwrDevRetryArm]) ∧
  (∀ (s : State), s.reaches .pwr 0 → s.deepRuns = false → s.deepBlocked = true → ∃ t, exec (.deep) s = .next t ∧
      (t.rd .pwrIntStatus).testBit Irq.pwrDeepRefused = true ∧ Changes s t 0 [.pwrIntStatus]) ∧
  (∀ (s : State), s.reaches .pwr 0 → s.deepRuns = false → s.deepBlocked = false →
    (s.rd .pwrDevState = 0 ∨ s.rd .pwrDevState = 2) → s.on .pwrDevPhase = false → s.warning = false →
    ∃ t, exec (.deep) s = .next t ∧
      t.rd .pwrDevTarget = 7 ∧ t.rd .pwrDevPhase = 1 ∧ t.rd .pwrDevRetry = 0 ∧
      Changes s t 0 [.pwrDevTarget, .pwrDevPhase, .pwrDevRetry, .pwrDevGiveup, .pwrDevRetryArm]) ∧
  (∀ (src : Fin 8) (s : State), s.rd .pwrDevState = 5 → (src.val = 3 ∨ src.val = 4 ∨ src.val = 5 ∨ src.val = 6) →
    s.maskBit .pwrWakeEn (src.val - 1) = true → ∃ t, exec (.deepWakeEvent src) s = .next t ∧
      t.rd .pwrDevState = 6 ∧ t.rd .pwrRegOn = 1 ∧ t.rd .pwrSupplyWait = 1 ∧ t.rd .pwrWakeTries = 0 ∧
      OnlyIn [.pwr, .evf] s t) ∧
  (∀ (src : Fin 8) (s : State),
    (s.rd .pwrDevState ≠ 5 ∨ src.val < 3 ∨ src.val = 7 ∨ s.maskBit .pwrWakeEn (src.val - 1) = false) →
    exec (.deepWakeEvent src) s = .next s) ∧
  (∀ (s : State), s.on .pwrWakeTimerMs = true → s.maskBit .pwrWakeEn 4 = true → s.rd .pwrDevState = 2 →
    s.standbyHeld = false → ∃ t, exec (.wakeTimerExpiry) s = .next t ∧
      t.rd .pwrDevState = 3 ∧ t.rd .pwrStagDir = 1 ∧ t.rd .pwrStandbySw = 0 ∧ OnlyIn [.pwr, .evf] s t) ∧
  (∀ (s : State), (s.on .pwrWakeTimerMs = false ∨ (s.rd .pwrDevState = 0 ∧ s.on .pwrDevPhase = false)) →
    exec (.wakeTimerExpiry) s = .next s) ∧
  (∀ (badLrx : BitVec 8) (badLtx : BitVec 8) (s : State), (s.rd .pwrDevState ≠ 3 ∨ s.on .clkRefOk = false) →
    exec (.standbyWake badLrx badLtx) s = .next s) ∧
  (∀ (badLrx : BitVec 8) (badLtx : BitVec 8) (s : State), s.rd .pwrDevState = 3 → s.on .clkRefOk = true →
    s.refOut = false → s.rd .glbBootStage = 7 → s.tests = [] → (∀ n ∈ List.range 8, s.on .lrxEnable n = false) →
    (∀ h ∈ List.range 16, s.on .hifEnable h = false) → s.rd .pwrStagIdx = 0 →
    ∃ t, exec (.standbyWake badLrx badLtx) s = .next t ∧
      t.rd .pwrDevState = 0 ∧ t.rd .pwrDomXbar = 1 ∧ t.rd .pwrDomLane = 255 ∧ t.rd .pwrDomHost = 15 ∧
      t.rd .pwrDomDecode = 255 ∧ t.rd .pwrWakeTries = 0 ∧
      (∀ p ∈ List.range 4, t.rd .pllState p = 1 ∧ t.rd .pllCalRun p = 1))

/-- Where software reaches PWR: a request outside expert mode is stored and clears the error; in expert mode one with
a point above what the present voltage carries is refused with PWR_ERR_ORDER. VOUT_MV of 650 to 800 mV outside expert
mode is only stored; in expert mode one that every present point allows starts a raise or a lowering from the present
voltage, BUSY, and a lowering below warning is held. A confirmed voltage becomes the actual one, and where no newer
request needs more the raise is over; with no voltage change it does nothing. Below warning a dwell moves each point
that is to fall one step and raises none; outside the clock phase it does nothing. A PMBus timeout of a voltage change
returns to the old voltage and keeps the points, with PWR_ERR_PMBUS, and ends the change; with none running it does
nothing. PM_ALERT raises its interrupt and changes no point. It concludes, from conditions on the state and the
operands alone, that exec answers a next state with the command's own effect, of: dvfsRequest, dvfsExpertWrite,
dvfsVoutConfirmed, dvfsStepDwell, dvfsTimeout, pmAlert. From rules R384, R385, R386, R387, R388, R390. -/
def Obligations.OperatingPoints : Prop :=
  (∀ (req : BitVec 16) (s : State), s.reaches .pwr 0 → s.on .pwrDvfsMode = false →
    ∃ t, exec (.dvfsRequest req) s = .next t ∧
      t.rd .pwrDvfsReq = req.toNat ∧ t.rd .pwrDvfsErr = 0 ∧ OnlyIn [.pwr] s t) ∧
  (∀ (req : BitVec 16) (s : State), s.reaches .pwr 0 → s.on .pwrDvfsMode = true →
    (List.range 8).all (fun k => decide (pointMv (pointOf req.toNat k) ≤ s.rd .pwrVoutActMv)) = false →
    ∃ t, exec (.dvfsRequest req) s = .next t ∧
      t.rd .pwrDvfsErr = 1 ∧ t.rd .pwrDvfsReq = s.rd .pwrDvfsReq ∧
      (t.rd .pwrIntStatus).testBit Irq.pwrPwrErrOrder = true ∧ Changes s t 0 [.pwrDvfsErr, .pwrIntStatus]) ∧
  (∀ (w : DvfsWrite) (mv : Nat) (s : State), s.reaches .pwr 0 → w = .vout mv → s.on .pwrDvfsMode = false → 650 ≤ mv →
    mv ≤ 800 → ∃ t, exec (.dvfsExpertWrite w) s = .next t ∧
      t.rd .pwrVoutMv = mv ∧ Changes s t 0 [.pwrVoutMv]) ∧
  (∀ (w : DvfsWrite) (mv : Nat) (s : State), s.Inv → s.reaches .pwr 0 → w = .vout mv → s.on .pwrDvfsMode = true →
    650 ≤ mv → mv ≤ 800 →
    (List.range 8).all (fun k => decide (pointMv (pointOf (s.rd .pwrDvfsPoint) k) ≤ mv)) = true →
    (s.warning = false ∨ s.rd .pwrVoutActMv ≤ mv) → ∃ t, exec (.dvfsExpertWrite w) s = .next t ∧
      t.rd .pwrVoutMv = mv ∧ t.rd .pwrVoutTarget = mv ∧ t.rd .pwrDvfsBusy = 1 ∧
      (t.rd .pwrDvfsPhase = (if s.rd .pwrVoutActMv ≤ mv then 1 else 3)) ∧ t.rd .pwrVoutPrev = s.rd .pwrVoutActMv ∧
      OnlyIn [.pwr] s t) ∧
  (∀ (s : State), (s.rd .pwrDvfsPhase = 1 ∨ s.rd .pwrDvfsPhase = 3) → s.rd .pwrVoutTarget < 1024 →
    s.wantMv ≤ s.rd .pwrVoutTarget → ∃ t, exec (.dvfsVoutConfirmed) s = .next t ∧
      t.rd .pwrVoutActMv = s.rd .pwrVoutTarget ∧ t.rd .pwrDvfsPhase ≠ 1 ∧ OnlyIn [.pwr] s t) ∧
  (∀ (s : State), (s.rd .pwrDvfsPhase = 0 ∨ s.rd .pwrDvfsPhase = 2) → exec (.dvfsVoutConfirmed) s = .next s) ∧
  (∀ (s : State), s.rd .pwrDvfsPhase = 2 → s.warning = true → ∃ t, exec (.dvfsStepDwell) s = .next t ∧
      (∀ k ∈ List.range 8, pointOf (t.rd .pwrDvfsPoint) k = (if pointOf (s.rd .pwrDvfsPoint) k <
        pointOf (s.rd .pwrDvfsTarget) k then pointOf (s.rd .pwrDvfsPoint) k +
        1 else pointOf (s.rd .pwrDvfsPoint) k)) ∧ OnlyIn [.pwr, .arcCl] s t) ∧
  (∀ (s : State), s.rd .pwrDvfsPhase ≠ 2 → exec (.dvfsStepDwell) s = .next s) ∧
  (∀ (s : State), s.Inv → (s.rd .pwrDvfsPhase = 1 ∨ s.rd .pwrDvfsPhase = 3) → ∃ t, exec (.dvfsTimeout) s = .next t ∧
      t.rd .pwrDvfsPhase = 0 ∧ t.rd .pwrDvfsBusy = 0 ∧ t.rd .pwrDvfsErr = 2 ∧ t.rd .pwrVoutActMv = s.rd .pwrVoutPrev ∧
      t.rd .pwrDvfsTarget = s.rd .pwrDvfsPoint ∧ t.rd .pwrDvfsPoint = s.rd .pwrDvfsPoint ∧
      (t.rd .pwrIntStatus).testBit Irq.pwrPwrErrPmbus = true ∧ OnlyIn [.pwr] s t) ∧
  (∀ (s : State), (s.rd .pwrDvfsPhase = 0 ∨ s.rd .pwrDvfsPhase = 2) → exec (.dvfsTimeout) s = .next s) ∧
  (∀ (s : State), ∃ t, exec (.pmAlert) s = .next t ∧
      (t.rd .pwrIntStatus).testBit Irq.pwrPmAlert = true ∧ t.rd .pwrDvfsPoint = s.rd .pwrDvfsPoint ∧
      OnlyIn [.pwr, .hlt, .evf] s t) ∧
  (∀ (w : DvfsWrite) (mv : Nat) (s : State), s.Inv → s.reaches .pwr 0 → w = .vout mv → s.on .pwrDvfsMode = true →
    650 ≤ mv → mv < s.rd .pwrVoutActMv → s.warning = true → mv ≤ 800 →
    (List.range 8).all (fun k => decide (pointMv (pointOf (s.rd .pwrDvfsPoint) k) ≤ mv)) = true →
    ∃ t, exec (.dvfsExpertWrite w) s = .next t ∧
      t.rd .pwrVoutMv = mv ∧ t.rd .pwrVoutHeld = mv ∧ t.rd .pwrDvfsBusy = 1 ∧
      t.rd .pwrVoutTarget = s.rd .pwrVoutTarget ∧ t.rd .pwrDvfsPhase = s.rd .pwrDvfsPhase ∧ OnlyIn [.pwr] s t)

/-- RESET_N asserted records cause 2, puts the device into start-up at step 1 of the sequence with RESET_LOW, no image
and an empty event FIFO, and keeps the LPMODE pin and the NVM; released while low it restarts at step 2, else it does
nothing. A rail not monitored, or at 88 % of its monitored set point or more, resets nothing; VDD_AON below that is a
power-on reset with cause 1, any other monitored rail a device reset at step 1 with cause 4 and that rail, lanes in
OFF, no image; the NVM is kept. A stagger step up powers the decode domain that is due and no other; a step down for
lane 2's domain waits while its transmitter is neither OFF nor in FAULT, and with it in OFF turns the domain off with
the lane's receiver in OFF and its ENABLE kept. It concludes, from conditions on the state and the operands alone,
that exec answers a next state with the command's own effect, of: resetNAssert, resetNRelease, supplyMonitorReset,
domainStaggerStep. From rules R362, R383, R391, R392, R476, R477, R480, R482. -/
def Obligations.ResetsAndDomains : Prop :=
  (∀ (s : State), s.Inv → ∃ t, exec (.resetNAssert) s = .next t ∧
      t.rd .pwrResetCause = 2 ∧ t.rd .pwrDevState = 6 ∧ t.rd .pwrStartup = 1 ∧ t.rd .glbSeqStep = 1 ∧
      t.rd .glbResetLow = 1 ∧ t.rd .pwrLpmode = s.rd .pwrLpmode ∧ t.running = none ∧ t.evf = [] ∧ t.nvm = s.nvm ∧
      t.info = s.info) ∧
  (∀ (s : State), s.on .glbResetLow = true → ∃ t, exec (.resetNRelease) s = .next t ∧
      t.rd .glbResetLow = 0 ∧ t.rd .glbSeqStep = 2 ∧ t.rd .glbBootStage = 1 ∧ OnlyIn [.glb] s t) ∧
  (∀ (s : State), s.on .glbResetLow = false → exec (.resetNRelease) s = .next s) ∧
  (∀ (rail : Fin 7) (mv : BitVec 12) (s : State),
    (s.monitored rail = false ∨ 88 * s.monitorMv rail ≤ 100 * mv.toNat) →
    exec (.supplyMonitorReset rail mv) s = .next s) ∧
  (∀ (rail : Fin 7) (mv : BitVec 12) (s : State), rail = 5 → 100 * mv.toNat < 88 * s.monitorMv rail →
    ∃ t, exec (.supplyMonitorReset rail mv) s = .next t ∧
      t.rd .pwrResetCause = 1 ∧ t.rd .pwrResetRail = 5 ∧ t.nvm = s.nvm ∧ t.info = s.info ∧
      (∀ n ∈ List.range 8, t.rd .lrxState n = 0)) ∧
  (∀ (rail : Fin 7) (mv : BitVec 12) (s : State), rail ≠ 5 → s.monitored rail = true →
    100 * mv.toNat < 88 * s.monitorMv rail → ∃ t, exec (.supplyMonitorReset rail mv) s = .next t ∧
      t.rd .pwrResetCause = 4 ∧ t.rd .pwrResetRail = rail ∧ t.rd .pwrDevState = 6 ∧ t.rd .glbSeqStep = 1 ∧
      t.running = none ∧ t.nvm = s.nvm ∧ (∀ n ∈ List.range 8, t.rd .lrxState n = 0 ∧ t.rd .ltxState n = 0)) ∧
  (∀ (s : State), s.rd .pwrStagDir = 1 → 1 ≤ s.rd .pwrStagIdx → s.rd .pwrStagIdx ≤ 8 →
    ∃ t, exec (.domainStaggerStep) s = .next t ∧
      t.rd .pwrStagIdx = s.rd .pwrStagIdx + 1 ∧ (t.rd .pwrDomDecode).testBit (s.rd .pwrStagIdx - 1) = true ∧
      t.rd .pwrDomXbar = s.rd .pwrDomXbar ∧ OnlyIn [.pwr, .glb] s t) ∧
  (∀ (s : State), s.rd .pwrStagDir = 2 → s.rd .pwrStagIdx = 12 → s.rd .ltxState 2 ≠ 0 → s.rd .ltxState 2 ≠ 7 →
    exec (.domainStaggerStep) s = .next s) ∧
  (∀ (s : State), s.rd .pwrStagDir = 2 → s.rd .pwrStagIdx = 12 → s.rd .ltxState 2 = 0 →
    ∃ t, exec (.domainStaggerStep) s = .next t ∧
      t.rd .pwrStagIdx = 11 ∧ (t.rd .pwrDomLane).testBit 2 = false ∧ t.rd .lrxState 2 = 0 ∧
      t.rd .lrxEnable 2 = s.rd .lrxEnable 2)

/-- With MGMT off an update does nothing. With it on, every node takes the RC model's next value where its register
holds it, and every island reports its power, clamped to its register, and, where no broken sensor serves it, its node
0 in sixteenths of a degree where the register holds that; T_hot is the highest estimate, of the hottest island named.
A rail reading above the plausible maximum of VDD_CORE marks that sensor broken and its islands SENSOR_FAIL, counted
once, with its interrupt. A first reading of diode 0 between 300 and 900 mV is stored, with its residue and the case
node, and nothing else changes; one below 300 mV marks the diode and its islands, counted, with its interrupt, and
with another diode working is not critical. In Deep, or below CRIT_C, the hardware comparison does nothing; a diode at
CRIT_C or above in Standby sets the latch, its state, count and interrupt, and every transmit not in FAULT goes to
FAULT with cause 9 (no action of the fault window). A crossing of AON_WAKE_C in the chosen direction, with its source
enabled, wakes the device in Deep; any other does nothing. It concludes, from conditions on the state and the operands
alone, that exec answers a next state with the command's own effect, of: thermalModelUpdate, diodeMeasure,
aonDiodeCompare, aonThermalCrossing. From rules R394, R396, R397, R398, R399, R403, R405. -/
def Obligations.TemperaturesAndSensors : Prop :=
  (∀ (counts : List Nat) (rails : List Int) (s : State), s.on .pwrDomMgmt = false →
    exec (.thermalModelUpdate counts rails) s = .next s) ∧
  (∀ (counts : List Nat) (rails : List Int) (s : State), s.on .pwrDomMgmt = true →
    ∃ t, exec (.thermalModelUpdate counts rails) s = .next t ∧
      (∀ i ∈ List.range 24, ∀ k ∈ List.range 4, -(2 ^ 39) ≤ s.nodeNext i k (s.islandPower counts rails i) →
        s.nodeNext i k (s.islandPower counts rails i) < 2 ^ 39 → t.node i k =
        s.nodeNext i k (s.islandPower counts rails i)) ∧
      (∀ i ∈ List.range 24, -32768 ≤ t.node i 0 / 2 ^ 16 → t.node i 0 / 2 ^ 16 < 32768 →
        t.on .thmIslandSensorFail 0 i = false → t.rdInt .thmIslandTemp 0 i = t.node i 0 / 2 ^ 16) ∧
      (∀ i ∈ List.range 24, t.rd .thmIslandPowerMw 0 i = (clampInt 0 32767 (s.islandPower counts rails i)).toNat)) ∧
  (∀ (counts : List Nat) (rails : List Int) (s : State), s.on .pwrDomMgmt = true →
    ∃ t, exec (.thermalModelUpdate counts rails) s = .next t ∧
      (∀ i ∈ List.range 24, t.rdInt .thmIslandTemp 0 i ≤ t.rdInt .thmHotT) ∧
      t.rdInt .thmIslandTemp 0 (t.rd .thmHotIsland) = t.rdInt .thmHotT) ∧
  (∀ (counts : List Nat) (rails : List Int) (ma : Int) (s : State), s.on .pwrDomMgmt = true → rails = [ma] →
    28000 < ma → s.on .thmRailBroken 0 0 = false → ∃ t, exec (.thermalModelUpdate counts rails) s = .next t ∧
      t.on .thmRailBroken 0 0 = true ∧ (∀ i ∈ List.range 23, t.on .thmIslandSensorFail 0 i = true) ∧
      t.rd .thmSensorFailCnt = min (s.rd .thmSensorFailCnt + 1) (2 ^ Field.width .thmSensorFailCnt - 1) ∧
      (t.rd .thmIntStatus).testBit Irq.thmSensorFail = true) ∧
  (∀ (ds : List DiodeReading) (d : DiodeReading) (s : State), s.on .pwrDomMgmt = true → ds = [d] →
    s.on .thmDiodeBroken 0 0 = false → s.on .thmDiodeSeen 0 0 = false → 300 ≤ d.forwardMv → d.forwardMv ≤ 900 →
    d.temp < 2048 → -2048 ≤ d.temp → ∃ t, exec (.diodeMeasure ds) s = .next t ∧
      t.rdInt .thmDiodeTemp 0 0 = d.temp ∧ t.rd .thmDiodeSeen 0 0 = 1 ∧
      t.rd .thmSensorFailCnt = s.rd .thmSensorFailCnt ∧
      Changes s t 0 [.thmDiodeTemp, .thmDiodeSeen, .thmDiodeResid, .thmCase]) ∧
  (∀ (ds : List DiodeReading) (d : DiodeReading) (s : State), s.on .pwrDomMgmt = true → ds = [d] →
    s.on .thmDiodeBroken 0 0 = false → d.forwardMv < 300 → s.on .thmDiodeBroken 0 1 = false →
    ∃ t, exec (.diodeMeasure ds) s = .next t ∧
      t.on .thmDiodeBroken 0 0 = true ∧ t.on .thmIslandSensorFail 0 8 = true ∧
      t.rd .thmSensorFailCnt = min (s.rd .thmSensorFailCnt + 1) (2 ^ Field.width .thmSensorFailCnt - 1) ∧
      (t.rd .thmIntStatus).testBit Irq.thmSensorFail = true ∧ t.rd .thmCritLatch = s.rd .thmCritLatch ∧
      OnlyIn [.thm] s t) ∧
  (∀ (temps : List Int) (s : State),
    (s.rd .pwrDevState = 5 ∨ temps.all (fun x => decide (x < s.celsius .thmCritC)) = true) →
    exec (.aonDiodeCompare temps) s = .next s) ∧
  (∀ (temps : List Int) (x : Int) (s : State), s.rd .pwrDevState = 2 → temps = [x] → s.celsius .thmCritC ≤ x →
    s.on .thmCritLatch = false → s.rd .imgState ≠ 4 → s.rd .imgState ≠ 5 → s.rd .hltAction 0 8 ≤ 1 →
    ∃ t, exec (.aonDiodeCompare temps) s = .next t ∧
      t.rd .thmCritLatch = 1 ∧ t.rd .thmState = 4 ∧
      t.rd .thmCritCnt = min (s.rd .thmCritCnt + 1) (2 ^ Field.width .thmCritCnt - 1) ∧
      (t.rd .thmIntStatus).testBit Irq.thmCritical = true ∧
      (∀ n ∈ List.range 8, s.rd .ltxState n = 7 ∨ (t.rd .ltxState n = 7 ∧ t.rd .ltxFaultCause n = 9))) ∧
  (∀ (before : Int) (after : Int) (s : State),
    ((s.on .thmAonDir = true ∧ (s.celsius .thmAonWakeC ≤ after ∨ before < s.celsius .thmAonWakeC)) ∨
      (s.on .thmAonDir = false ∧ (s.celsius .thmAonWakeC ≤ before ∨ after < s.celsius .thmAonWakeC)) ∨
      s.maskBit .pwrWakeEn 5 = false) → exec (.aonThermalCrossing before after) s = .next s) ∧
  (∀ (before : Int) (after : Int) (s : State), s.rd .pwrDevState = 5 → s.on .thmAonDir = true →
    after < s.celsius .thmAonWakeC → s.celsius .thmAonWakeC ≤ before → s.maskBit .pwrWakeEn 5 = true →
    ∃ t, exec (.aonThermalCrossing before after) s = .next t ∧
      t.rd .pwrDevState = 6 ∧ t.rd .pwrRegOn = 1 ∧ t.rd .pwrSupplyWait = 1 ∧ OnlyIn [.pwr, .evf] s t)

/-- Without a standing request in its state, neither the grace period's end nor a throttle step does anything; a step
also needs T_hot at THR_C. With every lane shut down the grace period's end only goes to ENFORCE. With lane 0 the
hottest, not shut down and in compatibility mode, both raise its operating-point limit first, recorded and with STEP,
and at the lowest point a step shuts it down, its receiver to OFF with ENABLE kept. RECOVER_EXPIRY undoes the one
operating-point step in force, with RESTORE, and goes to NORMAL, only where AUTO_RESTORE allows it and T_hot lies
below WARN_C with no request or latch; RESTORE undoes two steps, the latest first, under the latter. The critical
latch clears by command, or with CRIT_AUTO by itself, only where T_hot and every diode lie below RESUME_C, and every
step and shutdown with it; else nothing happens. A rail not monitored, or at 94 % of its monitored set point or more,
starts no warning. Below that the first rail sets the warning and its flag for timestamps, counts it, raises its
interrupt and ends every PREPARE (no action of the fault window); a later one joins the list with the lower level. A
listed rail above 95 % leaves the list with its lowest level; others keep the warning; with the last it clears with
its interrupt, the host commits that were held apply, and no calibration or save waits for the supply. A rail not
listed, or not above 95 %, changes nothing. It concludes, from conditions on the state and the operands alone, that
exec answers a next state with the command's own effect, of: graceExpiry, throttleStep, recoverExpiry, restore,
critClr, critAutoClear, supplyWarningStart, supplyWarningEnd. From rules R98, R142, R188, R282, R316, R360, R381,
R389, R390, R400, R401, R402. -/
def Obligations.ThrottleAndSupplyWarning : Prop :=
  (∀ (s : State), (s.rd .thmState ≠ 1 ∨ s.on .thmThrottleReq = false) → exec (.graceExpiry) s = .next s) ∧
  (∀ (s : State), s.rd .thmState = 1 → s.on .thmThrottleReq = true → s.rd .imgState ≠ 5 →
    (∀ n ∈ List.range 8, s.on .thmLnShutdown 0 n = true) → ∃ t, exec (.graceExpiry) s = .next t ∧
      t.rd .thmState = 2 ∧ OnlyIn [.thm, .evf] s t) ∧
  (∀ (s : State), (s.rd .thmState ≠ 2 ∨ s.on .thmThrottleReq = false ∨ s.rdInt .thmHotT < s.celsius .thmThrC) →
    exec (.throttleStep) s = .next s) ∧
  (∀ (s : State), s.rd .thmState = 1 → s.on .thmThrottleReq = true → s.rd .imgState ≠ 5 → s.hotLanes.head? = some 0 →
    s.on .thmLnShutdown 0 0 = false → s.rd .lfrGroupMode 0 = 2 → s.rd .thmLnDvfsSteps 0 0 < 2 →
    ∃ t, exec (.graceExpiry) s = .next t ∧
      t.rd .thmState = 2 ∧ t.rd .thmLnDvfsSteps 0 0 = s.rd .thmLnDvfsSteps 0 0 + 1 ∧
      t.thermal = ⟨.dvfs, 0, s.rd .thmLnDvfsSteps 0 0⟩ :: s.thermal ∧
      (t.rd .thmIntStatus).testBit Irq.thmStep = true ∧ OnlyIn [.thm, .pwr, .evf] s t) ∧
  (∀ (s : State), s.rd .thmState = 2 → s.on .thmThrottleReq = true → s.celsius .thmThrC ≤ s.rdInt .thmHotT →
    s.rd .imgState ≠ 5 → s.hotLanes.head? = some 0 → s.on .thmLnShutdown 0 0 = false → s.rd .lfrGroupMode 0 = 2 →
    s.rd .thmLnDvfsSteps 0 0 < 2 → ∃ t, exec (.throttleStep) s = .next t ∧
      t.rd .thmLnDvfsSteps 0 0 = s.rd .thmLnDvfsSteps 0 0 + 1 ∧
      t.thermal = ⟨.dvfs, 0, s.rd .thmLnDvfsSteps 0 0⟩ :: s.thermal ∧
      t.rd .thmStepCnt = min (s.rd .thmStepCnt + 1) (2 ^ Field.width .thmStepCnt - 1) ∧
      (t.rd .thmIntStatus).testBit Irq.thmStep = true ∧ OnlyIn [.thm, .pwr] s t) ∧
  (∀ (s : State), s.rd .thmState = 2 → s.on .thmThrottleReq = true → s.celsius .thmThrC ≤ s.rdInt .thmHotT →
    s.rd .imgState ≠ 5 → s.hotLanes.head? = some 0 → s.on .thmLnShutdown 0 0 = false → s.rd .lfrGroupMode 0 = 2 →
    s.rd .thmLnDvfsSteps 0 0 = 3 → ∃ t, exec (.throttleStep) s = .next t ∧
      t.rd .thmLnShutdown 0 0 = 1 ∧ t.rd .lrxState 0 = 0 ∧ t.rd .lrxEnable 0 = s.rd .lrxEnable 0 ∧
      t.thermal = ⟨.shutdown, 0, 0⟩ :: s.thermal) ∧
  (∀ (s : State), (s.rd .thmState ≠ 3 ∨ s.on .thmAutoRestore = false ∨ s.mayUndo = false) →
    exec (.recoverExpiry) s = .next s) ∧
  (∀ (n : Lane) (old : Nat) (s : State), s.rd .thmState = 3 → s.on .thmAutoRestore = true → s.mayUndo = true →
    s.thermal = [⟨.dvfs, n, old⟩] → old < 4 → ∃ t, exec (.recoverExpiry) s = .next t ∧
      t.thermal = [] ∧ t.rd .thmLnDvfsSteps 0 n = old ∧ t.rd .thmState = 0 ∧
      (t.rd .thmIntStatus).testBit Irq.thmRestore = true ∧ OnlyIn [.thm, .pwr, .evf] s t) ∧
  (∀ (s : State), s.reaches .thm 0 → s.mayUndo = false → exec (.restore) s = .next s) ∧
  (∀ (n : Lane) (old : Nat) (s : State), s.reaches .thm 0 → s.mayUndo = true → s.rd .thmState = 3 →
    s.thermal = [⟨.dvfs, n, 1⟩, ⟨.dvfs, n, old⟩] → old < 4 → ∃ t, exec (.restore) s = .next t ∧
      t.thermal = [] ∧ t.rd .thmLnDvfsSteps 0 n = old ∧ t.rd .thmState = 0 ∧
      (t.rd .thmIntStatus).testBit Irq.thmRestore = true ∧ OnlyIn [.thm, .pwr, .evf] s t) ∧
  (∀ (s : State), s.reaches .thm 0 → (s.on .thmCritLatch = false ∨ s.cool = false) → exec (.critClr) s = .next s) ∧
  (∀ (s : State), s.reaches .thm 0 → s.on .thmCritLatch = true → s.cool = true → ∃ t, exec (.critClr) s = .next t ∧
      t.rd .thmCritLatch = 0 ∧ t.rd .thmThrottleReq = 0 ∧ t.rd .thmState = 0 ∧ t.thermal = [] ∧
      (t.rd .thmIntStatus).testBit Irq.thmCritCleared = true ∧
      (∀ n ∈ List.range 8, t.rd .thmLnShutdown 0 n = 0 ∧ t.rd .thmLnDvfsSteps 0 n = 0) ∧ OnlyIn [.thm, .pwr, .evf] s t) ∧
  (∀ (s : State), (s.on .thmCritLatch = false ∨ s.on .thmCritAuto = false ∨ s.cool = false) →
    exec (.critAutoClear) s = .next s) ∧
  (∀ (s : State), s.on .thmCritLatch = true → s.on .thmCritAuto = true → s.cool = true →
    ∃ t, exec (.critAutoClear) s = .next t ∧
      t.rd .thmCritLatch = 0 ∧ t.rd .thmThrottleReq = 0 ∧ t.rd .thmState = 0 ∧ t.thermal = [] ∧
      (t.rd .thmIntStatus).testBit Irq.thmCritCleared = true ∧
      (∀ n ∈ List.range 8, t.rd .thmLnShutdown 0 n = 0 ∧ t.rd .thmLnDvfsSteps 0 n = 0) ∧ OnlyIn [.thm, .pwr, .evf] s t) ∧
  (∀ (rail : Fin 7) (mv : BitVec 12) (s : State),
    (s.monitored rail = false ∨ 94 * s.monitorMv rail ≤ 100 * mv.toNat) →
    exec (.supplyWarningStart rail mv) s = .next s) ∧
  (∀ (rail : Fin 7) (mv : BitVec 12) (s : State), s.monitored rail = true → 100 * mv.toNat < 94 * s.monitorMv rail →
    s.warning = true → ∃ t, exec (.supplyWarningStart rail mv) s = .next t ∧
      (t.rd .pwrWarnRails).testBit rail = true ∧ (t.rd .pwrWarnSeen).testBit rail = true ∧
      t.rd .pwrWarnLow = min (s.rd .pwrWarnLow) (steps5 mv.toNat) ∧
      Changes s t 0 [.pwrWarnRails, .pwrWarnSeen, .pwrWarnLow, .pwrVddIoMv]) ∧
  (∀ (rail : Fin 7) (mv : BitVec 12) (s : State), s.monitored rail = true → 100 * mv.toNat < 94 * s.monitorMv rail →
    s.warning = false → s.rd .hltAction 0 15 ≤ 1 → ∃ t, exec (.supplyWarningStart rail mv) s = .next t ∧
      t.rd .pwrWarn = 1 ∧ (t.rd .pwrWarnRails).testBit rail = true ∧ t.rd .pwrWarnLow = steps5 mv.toNat ∧
      t.rd .pwrWarnCnt = min (s.rd .pwrWarnCnt + 1) (2 ^ Field.width .pwrWarnCnt - 1) ∧
      (t.rd .pwrIntStatus).testBit Irq.pwrWarn = true ∧ (s.on .pwrDomTime = true → t.rd .timSuspect = 1) ∧
      (∀ n ∈ List.range 8, t.rd .pwrLnIngPhase n ≠ 1 ∧ t.rd .pwrLnEgrPhase n ≠ 1) ∧ t.rd .pwrDevPhase ≠ 1) ∧
  (∀ (rail : Fin 7) (lowest : BitVec 12) (mv : BitVec 12) (s : State),
    (s.maskBit .pwrWarnRails rail = false ∨ 100 * mv.toNat ≤ 95 * s.monitorMv rail) →
    exec (.supplyWarningEnd rail lowest mv) s = .next s) ∧
  (∀ (rail : Fin 7) (lowest : BitVec 12) (mv : BitVec 12) (other : Fin 7) (s : State),
    95 * s.monitorMv rail < 100 * mv.toNat → s.rd .pwrWarnRails = 2 ^ rail.val + 2 ^ other.val → other ≠ rail →
    ∃ t, exec (.supplyWarningEnd rail lowest mv) s = .next t ∧
      t.rd .pwrWarnRails = 2 ^ other.val ∧ t.rd .pwrWarnLow = min (s.rd .pwrWarnLow) (steps5 lowest.toNat) ∧
      Changes s t 0 [.pwrWarnRails, .pwrWarnLow, .pwrVddIoMv]) ∧
  (∀ (rail : Fin 7) (lowest : BitVec 12) (mv : BitVec 12) (s : State), 95 * s.monitorMv rail < 100 * mv.toNat →
    s.rd .pwrWarnRails = 2 ^ rail.val → ∃ t, exec (.supplyWarningEnd rail lowest mv) s = .next t ∧
      t.rd .pwrWarnRails = 0 ∧ t.rd .pwrWarn = 0 ∧ (t.rd .pwrIntStatus).testBit Irq.pwrWarnEnd = true ∧
      (∀ h ∈ List.range 16, t.rd .hifCommit h = 0) ∧ t.rd .clkCalReq % 32 = 0 ∧ t.view .optGlbSavePending 0 0 = 0)

/-- Events at an instance that its source does not have, or none, change nothing. At a lasting instance they only
count in TOTAL; below the threshold, in an open window, they count there and in TOTAL. With action 1 the events that
reach the threshold close the window, mark the instance lasting and raise LASTING; with action 2 an event of source 5
that reaches it faults the line receiver with cause 8 and disarms its restart (source 3 at action 1 at most). A window
closes with its count; LASTING_CLEAR clears the marked bits of its source and no other. A preset write returns every
owned field to preset control and writes the preset's values: of a line receiver in OFF, in use at once; of an
equaliser, with the fields in use as they were; of a transmitter, its taps and LUT_EN; of a host lane, where preset 3
is taken as 0. It concludes, from conditions on the state and the operands alone, that exec answers a next state with
the command's own effect, of: faultSourceEvent, faultWindowClose, lastingClear, presetWrite. From rules R21, R45,
R123, R124, R158, R190, R283, R409, R410, R411, R413. -/
def Obligations.FaultWindowsAndPresets : Prop :=
  (∀ (src : Fin 16) (inst : Fin 16) (k : BitVec 10) (s : State), (sourceInstances src ≤ inst.val ∨ k = 0) →
    exec (.faultSourceEvent src inst k) s = .next s) ∧
  (∀ (src : Fin 16) (inst : Fin 16) (k : BitVec 10) (s : State), inst.val < sourceInstances src → k ≠ 0 →
    s.maskBit' .hltSrcLasting src inst = true → ∃ t, exec (.faultSourceEvent src inst k) s = .next t ∧
      t.rd .hltTotal src inst = min (s.rd .hltTotal src inst + k.toNat) (2 ^ Field.width .hltTotal - 1) ∧
      Changes s t src [.hltTotal]) ∧
  (∀ (src : Fin 16) (inst : Fin 16) (k : BitVec 10) (s : State), inst.val < sourceInstances src → k ≠ 0 →
    s.maskBit' .hltSrcLasting src inst = false → s.on .hltWinOpen src inst = true →
    s.rd .hltWinCount src inst + k.toNat < s.rd .hltThresh 0 src → s.rd .hltThresh 0 src ≤ 1023 →
    ∃ t, exec (.faultSourceEvent src inst k) s = .next t ∧
      t.rd .hltWinCount src inst = s.rd .hltWinCount src inst + k.toNat ∧
      t.rd .hltTotal src inst = min (s.rd .hltTotal src inst + k.toNat) (2 ^ Field.width .hltTotal - 1) ∧
      Changes s t src [.hltTotal, .hltWinCount]) ∧
  (∀ (src : Fin 16) (inst : Fin 16) (k : BitVec 10) (s : State), inst.val < sourceInstances src → k ≠ 0 →
    s.maskBit' .hltSrcLasting src inst = false → s.rd .hltThresh 0 src ≤ k.toNat → s.rd .hltAction 0 src = 1 →
    ∃ t, exec (.faultSourceEvent src inst k) s = .next t ∧
      t.maskBit' .hltSrcLasting src inst = true ∧ t.rd .hltWinOpen src inst = 0 ∧ t.rd .hltWinCount src inst = 0 ∧
      (t.rd .hltIntStatus).testBit Irq.hltLasting = true) ∧
  (∀ (src : Fin 16) (inst : Fin 16) (k : BitVec 10) (s : State), src.val = 5 → inst.val < 8 → k ≠ 0 →
    s.maskBit' .hltSrcLasting src inst = false → s.rd .hltThresh 0 src ≤ k.toNat → s.rd .hltAction 0 src = 2 →
    s.rd .hltAction 0 3 ≤ 1 → s.rd .lrxState inst ≠ 7 → ∃ t, exec (.faultSourceEvent src inst k) s = .next t ∧
      t.maskBit' .hltSrcLasting src inst = true ∧ t.rd .lrxState inst = 7 ∧ t.rd .lrxFaultCause inst = 8 ∧
      t.rd .lrxRestartArm inst = 0) ∧
  (∀ (src : Fin 16) (inst : Fin 16) (s : State), ∃ t, exec (.faultWindowClose src inst) s = .next t ∧
      t.rd .hltWinOpen src inst = 0 ∧ t.rd .hltWinCount src inst = 0 ∧ Changes s t src [.hltWinOpen, .hltWinCount]) ∧
  (∀ (src : Fin 16) (mask : BitVec 16) (s : State), s.reaches .hlt 0 →
    ∃ t, exec (.lastingClear src mask) s = .next t ∧
      (List.range 16).all (fun i => t.maskBit' .hltSrcLasting src i == (s.maskBit' .hltSrcLasting src i &&
        !mask.getLsbD i)) = true ∧ OnlyIn [.hlt] s t) ∧
  (∀ (b : PresetBlock) (n : HostLane) (v : BitVec 2) (s : State), b = .receive → n.val < 8 → s.reaches .lrx n →
    s.rd .lrxState n = 0 → ∃ t, exec (.presetWrite b n v) s = .next t ∧
      t.rd .lrxPreset n = v.toNat ∧ t.rd .lrxOverride n = 0 ∧
      (∀ e ∈ lrxPresetVals v.toNat, t.rd e.1 n = e.2 ∧ t.use e.1 n = e.2) ∧ OnlyIn [.lrx] s t) ∧
  (∀ (b : PresetBlock) (n : HostLane) (v : BitVec 2) (s : State), b = .equaliser → n.val < 8 → s.reaches .leq n →
    s.rd .lrxState n ≠ 0 → ∃ t, exec (.presetWrite b n v) s = .next t ∧
      t.rd .leqPreset n = v.toNat ∧ t.rd .leqOverride n = 0 ∧
      (∀ e ∈ leqPresetVals v.toNat, t.rd e.1 n = e.2 ∧ t.use e.1 n = s.use e.1 n) ∧ OnlyIn [.leq] s t) ∧
  (∀ (b : PresetBlock) (n : HostLane) (v : BitVec 2) (s : State), b = .transmit → n.val < 8 → s.reaches .ltx n →
    s.rd .ltxState n ≠ 0 → ∃ t, exec (.presetWrite b n v) s = .next t ∧
      t.rd .ltxPreset n = v.toNat ∧ t.rd .ltxOverride n = 0 ∧ t.rd .ltxLutEn n = bit (v.toNat ≠ 3) ∧
      (∀ k ∈ List.range 9, t.rd .ltxFirTap n k = ltxPresetTap v.toNat k % 2 ^ Field.width .ltxFirTap) ∧
      OnlyIn [.ltx] s t) ∧
  (∀ (b : PresetBlock) (n : HostLane) (v : BitVec 2) (s : State), b = .host → s.reaches .hif n →
    s.rd .hifState n ≠ 0 → ∃ t, exec (.presetWrite b n v) s = .next t ∧
      (t.rd .hifPreset n = (if v.toNat = 3 then 0 else v.toNat)) ∧ t.rd .hifOverride n = 0 ∧
      (∀ e ∈ hifPresetVals (if v.toNat = 3 then 0 else v.toNat), t.rd e.1 n = e.2) ∧ OnlyIn [.hif] s t)

/-- Where software reaches the health block and no request is open, a test of each kind 0 to 5 on a unit it has waits,
GO set and PENDING; KEYSTORE and ENVELOPE of unit 0 do so in Manufacturing and Returned, and in other states end
NOT_PERMITTED with BIST_DONE, as a LANE test does of a unit beyond its kind's. With one open a LANE test is refused. A
software request not started in time ends UNTESTED with BIST_DONE. A background test of an engine neither FAILED nor
stopped joins an empty list of tests and the background tasks where enabled. A calibration step that falls due is
marked where enabled with none active and none startable; an ADC step not enabled is not; a DAC step of an awake
ACTIVE lane with a spare, no test and no warning starts at once. A window tick with no task waiting, no transmitter
ACTIVE and one startable ADC lane without a place ages it by one. With no test, or with the clock or the voltage (700
to 800 mV) out of range or a warning, none starts. A MON_ADC test touches no unit; a boot LANE test of a powered lane
with both directions in OFF starts with the lane powered up again, in OFF, its ENABLE kept and its outputs clamped.
The end of a running test of software without a failure counts a run, result PASS, GO clear, BIST_DONE, and
re-initialises; a MON_ADC failure marks the unit, counts with BIST_FAIL; a LANE logic failure holds both directions in
OFF, ENABLE and TX_EN 0, and marks the lane. Lost conditions end a running test UNTESTED. With nothing running neither
end acts. After re-initialisation a LANE test leaves the list, and the sleep request and commit it deferred are
carried out; else nothing. It concludes, from conditions on the state and the operands alone, that exec answers a next
state with the command's own effect, of: bistEngine, bistLane, bistHost, bistXbar, bistCtrlDac, bistMonAdc,
bistKeystore, bistEnvelope, bistWaitTimeout, bgBistDue, adcStepDue, dacStepDue, healthWindowTick, bistStart, bistDone,
bistConditionLost, bistReinitDone. From rules R415, R416, R417, R418, R419, R420, R421, R422, R423, R426, R432. -/
def Obligations.SelfTests : Prop :=
  (∀ (unit : BitVec 7) (preempt : Bool) (s : State), s.reaches .hlt 0 → s.on .hltBistGo = false → unit.toNat ≤ 127 →
    ∃ t, exec (.bistEngine unit preempt) s = .next t ∧
      t.tests = s.tests ++ [⟨0, unit.toNat, .software, .pending, preempt⟩] ∧ t.rd .hltBistGo = 1 ∧
      t.rd .hltBistState = 1 ∧ t.rd .hltBistRefused = 0 ∧ t.rd .hltBistKind = 0 ∧ OnlyIn [.hlt] s t) ∧
  (∀ (unit : BitVec 7) (preempt : Bool) (s : State), s.reaches .hlt 0 → s.on .hltBistGo = false → unit.toNat ≤ 7 →
    ∃ t, exec (.bistLane unit preempt) s = .next t ∧
      t.tests = s.tests ++ [⟨1, unit.toNat, .software, .pending, preempt⟩] ∧ t.rd .hltBistGo = 1 ∧
      t.rd .hltBistState = 1 ∧ t.rd .hltBistRefused = 0 ∧ t.rd .hltBistKind = 1 ∧ OnlyIn [.hlt] s t) ∧
  (∀ (unit : BitVec 7) (preempt : Bool) (s : State), s.reaches .hlt 0 → s.on .hltBistGo = false → unit.toNat ≤ 3 →
    ∃ t, exec (.bistHost unit preempt) s = .next t ∧
      t.tests = s.tests ++ [⟨2, unit.toNat, .software, .pending, preempt⟩] ∧ t.rd .hltBistGo = 1 ∧
      t.rd .hltBistState = 1 ∧ t.rd .hltBistRefused = 0 ∧ t.rd .hltBistKind = 2 ∧ OnlyIn [.hlt] s t) ∧
  (∀ (unit : BitVec 7) (preempt : Bool) (s : State), s.reaches .hlt 0 → s.on .hltBistGo = false → unit.toNat ≤ 0 →
    ∃ t, exec (.bistXbar unit preempt) s = .next t ∧
      t.tests = s.tests ++ [⟨3, unit.toNat, .software, .pending, preempt⟩] ∧ t.rd .hltBistGo = 1 ∧
      t.rd .hltBistState = 1 ∧ t.rd .hltBistRefused = 0 ∧ t.rd .hltBistKind = 3 ∧ OnlyIn [.hlt] s t) ∧
  (∀ (unit : BitVec 7) (preempt : Bool) (s : State), s.reaches .hlt 0 → s.on .hltBistGo = false → unit.toNat ≤ 7 →
    ∃ t, exec (.bistCtrlDac unit preempt) s = .next t ∧
      t.tests = s.tests ++ [⟨4, unit.toNat, .software, .pending, preempt⟩] ∧ t.rd .hltBistGo = 1 ∧
      t.rd .hltBistState = 1 ∧ t.rd .hltBistRefused = 0 ∧ t.rd .hltBistKind = 4 ∧ OnlyIn [.hlt] s t) ∧
  (∀ (unit : BitVec 7) (preempt : Bool) (s : State), s.reaches .hlt 0 → s.on .hltBistGo = false → unit.toNat ≤ 0 →
    ∃ t, exec (.bistMonAdc unit preempt) s = .next t ∧
      t.tests = s.tests ++ [⟨5, unit.toNat, .software, .pending, preempt⟩] ∧ t.rd .hltBistGo = 1 ∧
      t.rd .hltBistState = 1 ∧ t.rd .hltBistRefused = 0 ∧ t.rd .hltBistKind = 5 ∧ OnlyIn [.hlt] s t) ∧
  (∀ (unit : BitVec 7) (preempt : Bool) (s : State), s.reaches .hlt 0 → s.on .hltBistGo = false → unit = 0 →
    (s.rd .secLcState = 1 ∨ s.rd .secLcState = 3) → ∃ t, exec (.bistKeystore unit preempt) s = .next t ∧
      t.tests = s.tests ++ [⟨6, 0, .software, .pending, preempt⟩] ∧ t.rd .hltBistGo = 1 ∧ t.rd .hltBistState = 1 ∧
      t.rd .hltBistRefused = 0 ∧ t.rd .hltBistKind = 6 ∧ OnlyIn [.hlt] s t) ∧
  (∀ (unit : BitVec 7) (preempt : Bool) (s : State), s.reaches .hlt 0 → s.on .hltBistGo = false →
    s.rd .secLcState ≠ 1 → s.rd .secLcState ≠ 3 → ∃ t, exec (.bistKeystore unit preempt) s = .next t ∧
      t.tests = s.tests ∧ t.rd .hltBistGo = 0 ∧ t.rd .hltBistResult = 4 ∧
      (t.rd .hltIntStatus).testBit Irq.hltBistDone = true ∧ OnlyIn [.hlt, .evf] s t) ∧
  (∀ (unit : BitVec 7) (preempt : Bool) (s : State), s.reaches .hlt 0 → s.on .hltBistGo = false → unit = 0 →
    (s.rd .secLcState = 1 ∨ s.rd .secLcState = 3) → ∃ t, exec (.bistEnvelope unit preempt) s = .next t ∧
      t.tests = s.tests ++ [⟨7, 0, .software, .pending, preempt⟩] ∧ t.rd .hltBistGo = 1 ∧ t.rd .hltBistState = 1 ∧
      t.rd .hltBistRefused = 0 ∧ t.rd .hltBistKind = 7 ∧ OnlyIn [.hlt] s t) ∧
  (∀ (unit : BitVec 7) (preempt : Bool) (s : State), s.reaches .hlt 0 → s.on .hltBistGo = false →
    s.rd .secLcState ≠ 1 → s.rd .secLcState ≠ 3 → ∃ t, exec (.bistEnvelope unit preempt) s = .next t ∧
      t.tests = s.tests ∧ t.rd .hltBistGo = 0 ∧ t.rd .hltBistResult = 4 ∧
      (t.rd .hltIntStatus).testBit Irq.hltBistDone = true ∧ OnlyIn [.hlt, .evf] s t) ∧
  (∀ (unit : BitVec 7) (preempt : Bool) (s : State), s.reaches .hlt 0 → s.on .hltBistGo = true →
    ∃ t, exec (.bistLane unit preempt) s = .next t ∧
      t.rd .hltBistRefused = 1 ∧ t.tests = s.tests ∧ OnlyIn [.hlt] s t) ∧
  (∀ (unit : BitVec 7) (preempt : Bool) (s : State), s.reaches .hlt 0 → s.on .hltBistGo = false → 8 ≤ unit.toNat →
    ∃ t, exec (.bistLane unit preempt) s = .next t ∧
      t.rd .hltBistResult = 4 ∧ t.tests = s.tests ∧ (t.rd .hltIntStatus).testBit Irq.hltBistDone = true ∧
      OnlyIn [.hlt, .evf] s t) ∧
  (∀ (x : BistTest) (s : State), s.tests = [x] → x.origin = .software → x.phase = .pending →
    ∃ t, exec (.bistWaitTimeout) s = .next t ∧
      t.tests = [] ∧ t.rd .hltBistState = 0 ∧ t.rd .hltBistGo = 0 ∧ t.rd .hltBistResult = 2 ∧
      t.rd .hltUntestedCnt = min (s.rd .hltUntestedCnt + 1) (2 ^ Field.width .hltUntestedCnt - 1) ∧
      (t.rd .hltIntStatus).testBit Irq.hltBistDone = true ∧ OnlyIn [.hlt, .evf] s t) ∧
  (∀ (s : State), s.tests = [] → exec (.bistWaitTimeout) s = .next s) ∧
  (∀ (e : Fin 128) (s : State), s.on .hltBgBistEn = true → s.engState e < 7 → s.tests = [] →
    ∃ t, exec (.bgBistDue e) s = .next t ∧
      t =
        { s with tests := [⟨0, e, .background, .pending, false⟩], bg := s.bg ++ [⟨e / 16, 0, e, 0, false, none, none, false⟩] }) ∧
  (∀ (e : Fin 128) (s : State), s.on .hltBgBistEn = false → exec (.bgBistDue e) s = .next s) ∧
  (∀ (n : Lane) (s : State), s.maskBit .hltAdcBgEn n = true → s.on .lrxCalActive n = false → s.rd .lrxState n ≤ 2 →
    (∀ k ∈ List.range 8, s.adcStartable k = false) → ∃ t, exec (.adcStepDue n) s = .next t ∧
      t.rd .hltAdcDue n = 1 ∧ Changes s t n [.hltAdcDue]) ∧
  (∀ (n : Lane) (s : State), s.maskBit .hltAdcBgEn n = false → (∀ k ∈ List.range 8, s.adcStartable k = false) →
    exec (.adcStepDue n) s = .next s) ∧
  (∀ (n : Lane) (s : State), s.maskBit .hltDacBgEn n = true → s.on .ltxCalActive n = false →
    (∀ k ∈ List.range 8, s.rd .ltxState k ≠ 4) → ∃ t, exec (.dacStepDue n) s = .next t ∧
      t.rd .hltDacDue n = 1 ∧ Changes s t n [.hltDacDue]) ∧
  (∀ (n : Lane) (s : State), s.Inv → s.maskBit .hltDacBgEn n = true → s.on .ltxCalActive n = false →
    s.rd .ltxState n = 4 → s.on .ltxWakeSend n = false → s.on .ltxSleep n = false → s.on .ltxNoSpare n = false →
    s.underTest 1 n = false → s.warning = false → ∃ t, exec (.dacStepDue n) s = .next t ∧
      t.rd .ltxCalActive n = 1 ∧ t.rd .hltDacDue n = 0 ∧ t.rd .ltxSwapReady n = 0 ∧ OnlyIn [.ltx, .hlt] s t) ∧
  (∀ (n : Lane) (s : State), (∀ b ∈ s.bg, b.server.isSome = true) → (∀ k ∈ List.range 8, s.rd .ltxState k ≠ 4) →
    (∀ k ∈ List.range 8, s.adcStartable k = (k == n.val)) → s.rd .hltCalMaxLanes = 0 →
    s.rd .hltLnAdcAge n + 1 < s.rd .hltStarveLimit → s.rd .hltLnAdcAge n < 255 →
    ∃ t, exec (.healthWindowTick) s = .next t ∧
      t.rd .hltLnAdcAge n = s.rd .hltLnAdcAge n + 1 ∧ Changes s t n [.hltLnAdcAge]) ∧
  (∀ (slot : TestSlot) (clockOk : Bool) (mv : BitVec 10) (s : State), s.tests = [] →
    exec (.bistStart slot clockOk mv) s = .next s) ∧
  (∀ (slot : TestSlot) (clockOk : Bool) (mv : BitVec 10) (s : State),
    (clockOk = false ∨ mv.toNat < 700 ∨ 800 < mv.toNat ∨ s.warning = true) →
    exec (.bistStart slot clockOk mv) s = .next s) ∧
  (∀ (slot : TestSlot) (clockOk : Bool) (mv : BitVec 10) (s : State), slot = .peripheral → clockOk = true →
    700 ≤ mv.toNat → mv.toNat ≤ 800 → s.warning = false → s.tests = [⟨5, 0, .software, .pending, false⟩] →
    ∃ t, exec (.bistStart slot clockOk mv) s = .next t ∧
      t.tests = [⟨5, 0, .software, .running, false⟩] ∧ t.rd .hltBistState = 2 ∧
      Changes { s with tests := t.tests } t 0 [.hltBistState]) ∧
  (∀ (slot : TestSlot) (clockOk : Bool) (mv : BitVec 10) (n : Lane) (s : State), slot = .island → clockOk = true →
    700 ≤ mv.toNat → mv.toNat ≤ 800 → s.warning = false → s.tests = [⟨1, n, .boot, .pending, false⟩] →
    s.maskBit .pwrDomLane n = true → s.rd .lrxState n = 0 → s.rd .ltxState n = 0 →
    ∃ t, exec (.bistStart slot clockOk mv) s = .next t ∧
      t.tests = [⟨1, n, .boot, .running, false⟩] ∧ t.maskBit .pwrDomLane n = true ∧ t.rd .lrxState n = 0 ∧
      t.rd .lrxEnable n = s.rd .lrxEnable n ∧ t.rd .optLnClamp n = 1) ∧
  (∀ (kind : Fin 8) (unit : BitVec 7) (r : BistReport) (s : State), (∀ x ∈ s.tests, x.phase ≠ .running) →
    exec (.bistDone kind unit r) s = .next s) ∧
  (∀ (kind : Fin 8) (unit : BitVec 7) (r : BistReport) (s : State),
    s.tests = [⟨kind, unit.toNat, .software, .running, false⟩] → reportFails r kind = false →
    ∃ t, exec (.bistDone kind unit r) s = .next t ∧
      t.tests = [⟨kind, unit.toNat, .software, .reinit, false⟩] ∧
      t.rd .hltRunCnt = min (s.rd .hltRunCnt + 1) (2 ^ Field.width .hltRunCnt - 1) ∧ t.rd .hltBistResult = 0 ∧
      t.rd .hltBistState = 3 ∧ t.rd .hltBistGo = 0 ∧ t.rd .hltFailCnt = s.rd .hltFailCnt ∧
      (t.rd .hltIntStatus).testBit Irq.hltBistDone = true ∧ OnlyIn [.hlt, .evf] s t) ∧
  (∀ (kind : Fin 8) (unit : BitVec 7) (r : BistReport) (s : State), kind = 5 →
    s.tests = [⟨5, unit.toNat, .software, .running, false⟩] → r.logic = true →
    ∃ t, exec (.bistDone kind unit r) s = .next t ∧
      t.rd .hltFailMonAdc = 1 ∧ t.rd .hltFailCnt = min (s.rd .hltFailCnt + 1) (2 ^ Field.width .hltFailCnt - 1) ∧
      t.rd .hltBistResult = 1 ∧ (t.rd .hltIntStatus).testBit Irq.hltBistFail = true ∧ OnlyIn [.hlt, .evf] s t) ∧
  (∀ (kind : Fin 8) (unit : BitVec 7) (r : BistReport) (s : State), kind = 1 → unit.toNat < 8 →
    s.tests = [⟨1, unit.toNat, .boot, .running, false⟩] → r = ⟨true, [], [], 0⟩ →
    ∃ t, exec (.bistDone kind unit r) s = .next t ∧
      t.rd .lrxHeldOff unit.toNat = 1 ∧ t.rd .ltxHeldOff unit.toNat = 1 ∧ t.rd .lrxEnable unit.toNat = 0 ∧
      t.rd .ltxTxEn unit.toNat = 0 ∧ t.rd .lrxState unit.toNat = 0 ∧ (t.rd .hltFailLane).testBit unit.toNat = true) ∧
  (∀ (kind : Fin 8) (unit : BitVec 7) (s : State), (∀ x ∈ s.tests, x.phase ≠ .running) →
    exec (.bistConditionLost kind unit) s = .next s) ∧
  (∀ (kind : Fin 8) (unit : BitVec 7) (s : State), s.tests = [⟨kind, unit.toNat, .software, .running, false⟩] →
    ∃ t, exec (.bistConditionLost kind unit) s = .next t ∧
      t.tests = [⟨kind, unit.toNat, .software, .reinit, false⟩] ∧ t.rd .hltBistResult = 2 ∧
      t.rd .hltUntestedCnt = min (s.rd .hltUntestedCnt + 1) (2 ^ Field.width .hltUntestedCnt - 1) ∧
      OnlyIn [.hlt, .evf] s t) ∧
  (∀ (kind : Fin 8) (unit : BitVec 7) (s : State), (∀ x ∈ s.tests, x.phase ≠ .reinit) →
    exec (.bistReinitDone kind unit) s = .next s) ∧
  (∀ (kind : Fin 8) (unit : BitVec 7) (n : Lane) (s : State), kind = 1 → unit.toNat = n →
    s.tests = [⟨1, n, .software, .reinit, false⟩] → s.deferred = [.sleep n true, .lrxCommit n] →
    s.on .lrxEnable n = false → s.rd .hltBistState = 3 → s.warning = true → s.rxGrid n = true →
    ∃ t, exec (.bistReinitDone kind unit) s = .next t ∧
      t.tests = [] ∧ t.deferred = [] ∧ t.rd .hltBistState = 0 ∧ t.rd .pwrLnEgrSleep n = 1 ∧ t.rd .lrxCommit n = 1)

/-- Where software reaches the security block: while a command runs NONCE ends BUSY with CMD_FAIL and leaves the
nonce. With none running: outside Scrapped NONCE makes the nonce valid, which an expiry ends. From Blank with no image
operation, LC_ADVANCE to Manufacturing starts its NVM write and changes no state yet; from Manufacturing to Returned
it ends STATE. In Blank and Manufacturing, with the keystore sound and no scope open, KEY_PROGRAM of an EMPTY slot
with a point of the curve starts its write, KEY_REVOKE of a VALID one with another boot key left starts its own and of
one not VALID ends with SLOT. From Deployed on KEY_PROGRAM ends STATE. DEBUG_UNLOCK up to Manufacturing opens the
scopes it names at once and clears the key data and the nonce, with UNLOCK; in Deployed it ends STATE and opens
nothing. Outside Scrapped ROLLBACK_SET between the floor and the image's sequence starts its write, and below the
floor ends with COND. FACTORY_SAVE starts its write in Manufacturing and ends STATE elsewhere, as an invalid OP does.
The nonce's value is the model's free value (log entry 2). It concludes, from conditions on the state and the operands
alone, that exec answers a next state with the command's own effect, of: nonce, nonceExpiry, lcAdvance, keyProgram,
keyRevoke, debugUnlock, rollbackSet, factorySave, secOpInvalid. From rules R461, R462, R464, R465, R466, R467, R468,
R472, R473, R474. -/
def Obligations.SecurityCommands : Prop :=
  (∀ (arg : BitVec 4) (flags : BitVec 3) (s : State), s.reaches .sec 0 → s.on .secBusy = true →
    ∃ t, exec (.nonce arg flags) s = .next t ∧
      t.rd .secResult = 7 ∧ (t.rd .secIntStatus).testBit Irq.secCmdFail = true ∧ t.rd .secNonce = s.rd .secNonce ∧
      t.rd .secNonceValid = s.rd .secNonceValid ∧ OnlyIn [.sec] s t) ∧
  (∀ (arg : BitVec 4) (flags : BitVec 3) (s : State), s.reaches .sec 0 → s.on .secBusy = false →
    s.rd .secLcState < 4 → ∃ t, exec (.nonce arg flags) s = .next t ∧
      t.rd .secNonceValid = 1 ∧ t.rd .secResult = 0 ∧ (t.rd .secIntStatus).testBit Irq.secCmdDone = true ∧
      OnlyIn [.sec] s t) ∧
  (∀ (s : State), ∃ t, exec (.nonceExpiry) s = .next t ∧
      t.rd .secNonceValid = 0 ∧ Changes s t 0 [.secNonceValid]) ∧
  (∀ (target : BitVec 4) (flags : BitVec 3) (s : State), s.reaches .sec 0 → s.on .secBusy = false →
    s.rd .secLcState = 0 → target = 1 → s.imgBusy = false → ∃ t, exec (.lcAdvance target flags) s = .next t ∧
      t.rd .secBusy = 1 ∧ t.rd .secCmdGo = 1 ∧ t.rd .secPhase = 2 ∧ t.maskBit .secNvmBusy 0 = true ∧
      OnlyIn [.sec] s t ∧ t.rd .secArgRun = 1 ∧ t.rd .secLcState = 0) ∧
  (∀ (target : BitVec 4) (flags : BitVec 3) (s : State), s.reaches .sec 0 → s.on .secBusy = false →
    s.rd .secLcState = 1 → target = 3 → ∃ t, exec (.lcAdvance target flags) s = .next t ∧
      t.rd .secResult = 1 ∧ t.rd .secBusy = 0 ∧ (t.rd .secIntStatus).testBit Irq.secCmdFail = true ∧ OnlyIn [.sec] s t) ∧
  (∀ (slot : BitVec 4) (flags : BitVec 3) (s : State), s.reaches .sec 0 → s.on .secBusy = false →
    2 ≤ s.rd .secLcState → ∃ t, exec (.keyProgram slot flags) s = .next t ∧
      t.rd .secResult = 1 ∧ t.rd .secBusy = 0 ∧ (t.rd .secIntStatus).testBit Irq.secCmdFail = true ∧ OnlyIn [.sec] s t) ∧
  (∀ (slot : BitVec 4) (flags : BitVec 3) (s : State), s.reaches .sec 0 → s.on .secBusy = false →
    s.rd .secLcState < 2 → s.on .secKsFail = false → s.secOpen = false → slot.toNat < 4 →
    s.rd .secKeyState 0 slot.toNat = 0 → onCurve (s.rd .secKeyData) = true →
    ∃ t, exec (.keyProgram slot flags) s = .next t ∧
      t.rd .secBusy = 1 ∧ t.rd .secCmdGo = 1 ∧ t.rd .secPhase = 2 ∧ t.maskBit .secNvmBusy 0 = true ∧ OnlyIn [.sec] s t) ∧
  (∀ (slot : BitVec 4) (flags : BitVec 3) (s : State), s.reaches .sec 0 → s.on .secBusy = false →
    s.rd .secLcState < 2 → s.on .secKsFail = false → s.secOpen = false → slot.toNat < 4 →
    s.rd .secKeyState 0 slot.toNat = 1 → (List.range 4).any (fun k => k != slot.toNat && s.bootSlot k) = true →
    ∃ t, exec (.keyRevoke slot flags) s = .next t ∧
      t.rd .secBusy = 1 ∧ t.rd .secCmdGo = 1 ∧ t.rd .secPhase = 2 ∧ t.maskBit .secNvmBusy 0 = true ∧ OnlyIn [.sec] s t) ∧
  (∀ (slot : BitVec 4) (flags : BitVec 3) (s : State), s.reaches .sec 0 → s.on .secBusy = false →
    s.rd .secLcState < 2 → s.on .secKsFail = false → s.secOpen = false → slot.toNat < 4 →
    s.rd .secKeyState 0 slot.toNat ≠ 1 → ∃ t, exec (.keyRevoke slot flags) s = .next t ∧
      t.rd .secResult = 5 ∧ (t.rd .secIntStatus).testBit Irq.secCmdFail = true ∧ OnlyIn [.sec] s t) ∧
  (∀ (scope : BitVec 4) (flags : BitVec 3) (s : State), s.reaches .sec 0 → s.on .secBusy = false →
    s.rd .secLcState ≤ 1 → ∃ t, exec (.debugUnlock scope flags) s = .next t ∧
      (t.rd .secDebugOpen = (if scope.toNat.testBit 0 then 1 else s.rd .secDebugOpen)) ∧
      (t.rd .secScanOpen = (if scope.toNat.testBit 1 then 1 else s.rd .secScanOpen)) ∧ t.rd .secKeyData = 0 ∧
      t.rd .secNonce = 0 ∧ t.rd .secResult = 0 ∧ (t.rd .secIntStatus).testBit Irq.secUnlock = true) ∧
  (∀ (scope : BitVec 4) (flags : BitVec 3) (s : State), s.reaches .sec 0 → s.on .secBusy = false →
    s.rd .secLcState = 2 → ∃ t, exec (.debugUnlock scope flags) s = .next t ∧
      t.rd .secResult = 1 ∧ t.rd .secBusy = 0 ∧ (t.rd .secIntStatus).testBit Irq.secCmdFail = true ∧
      OnlyIn [.sec] s t ∧ t.rd .secDebugOpen = s.rd .secDebugOpen) ∧
  (∀ (arg : BitVec 4) (flags : BitVec 3) (s : State), s.reaches .sec 0 → s.on .secBusy = false →
    s.rd .secLcState < 4 → s.rd .secRollbackFloor ≤ s.rd .secRollbackNew → s.rd .secRollbackNew ≤ s.rd .imgActiveSeq →
    ∃ t, exec (.rollbackSet arg flags) s = .next t ∧
      t.rd .secBusy = 1 ∧ t.rd .secCmdGo = 1 ∧ t.rd .secPhase = 2 ∧ t.maskBit .secNvmBusy 0 = true ∧ OnlyIn [.sec] s t) ∧
  (∀ (arg : BitVec 4) (flags : BitVec 3) (s : State), s.reaches .sec 0 → s.on .secBusy = false →
    s.rd .secLcState < 4 → s.rd .secRollbackNew < s.rd .secRollbackFloor →
    ∃ t, exec (.rollbackSet arg flags) s = .next t ∧
      t.rd .secResult = 4 ∧ t.rd .secRollbackFloor = s.rd .secRollbackFloor ∧ OnlyIn [.sec] s t) ∧
  (∀ (arg : BitVec 4) (flags : BitVec 3) (s : State), s.reaches .sec 0 → s.on .secBusy = false →
    s.rd .secLcState = 1 → ∃ t, exec (.factorySave arg flags) s = .next t ∧
      t.rd .secBusy = 1 ∧ t.rd .secCmdGo = 1 ∧ t.rd .secPhase = 2 ∧ t.maskBit .secNvmBusy 0 = true ∧ OnlyIn [.sec] s t) ∧
  (∀ (arg : BitVec 4) (flags : BitVec 3) (s : State), s.reaches .sec 0 → s.on .secBusy = false →
    s.rd .secLcState ≠ 1 → ∃ t, exec (.factorySave arg flags) s = .next t ∧
      t.rd .secResult = 1 ∧ t.rd .secBusy = 0 ∧ (t.rd .secIntStatus).testBit Irq.secCmdFail = true ∧ OnlyIn [.sec] s t) ∧
  (∀ (op : Option (Fin 8)) (arg : BitVec 4) (flags : BitVec 3) (s : State), s.reaches .sec 0 →
    s.on .secBusy = false → ∃ t, exec (.secOpInvalid op arg flags) s = .next t ∧
      t.rd .secResult = 1 ∧ t.rd .secBusy = 0 ∧ (t.rd .secIntStatus).testBit Irq.secCmdFail = true ∧ OnlyIn [.sec] s t)

/-- A token's check ends only while one runs: a wrong token consumes the nonce and ends with TOKEN, TOKEN_FAIL and
phase 0; a right one for a debug unlock consumes it and opens the debug scope named, for any other command it starts
the NVM write. Below warning no NVM write ends. With the supply good, a security write read back wrong ends with NVM
and stores nothing; read back right, a programmed key becomes VALID in its slot with its point in the NVM, the
rollback floor takes NEW in the register and its three copies, and copy 1 of a lifecycle change puts the state in
force and goes on to copy 2. ENV_SAVE's write ends with SAVE_DONE and the safety region holding the registers, as lane
3's MAX_BIAS; a password's stores its code, set, and ends the CDB command with success. It concludes, from conditions
on the state and the operands alone, that exec answers a next state with the command's own effect, of:
tokenVerifyDone, nvmWriteDone. From rules R348, R360, R462, R463, R464, R465, R466, R468, R472, R473. -/
def Obligations.TokensAndNvmWrites : Prop :=
  (∀ (s : State), s.rd .secPhase ≠ 1 → exec (.tokenVerifyDone) s = .next s) ∧
  (∀ (s : State), s.rd .secPhase = 1 → s.tokenOk = false → ∃ t, exec (.tokenVerifyDone) s = .next t ∧
      t.rd .secNonceValid = 0 ∧ t.rd .secResult = 2 ∧ t.rd .secBusy = 0 ∧ t.rd .secPhase = 0 ∧
      (t.rd .secIntStatus).testBit Irq.secTokenFail = true ∧ OnlyIn [.sec] s t) ∧
  (∀ (s : State), s.rd .secPhase = 1 → s.tokenOk = true → s.rd .secOpRun = 5 → (s.rd .secArgRun).testBit 0 = true →
    ∃ t, exec (.tokenVerifyDone) s = .next t ∧
      t.rd .secNonceValid = 0 ∧ t.rd .secDebugOpen = 1 ∧ t.rd .secResult = 0 ∧ t.rd .secPhase = 0) ∧
  (∀ (s : State), s.rd .secPhase = 1 → s.tokenOk = true → s.rd .secOpRun ≠ 5 →
    ∃ t, exec (.tokenVerifyDone) s = .next t ∧
      t.rd .secNonceValid = 0 ∧ t.rd .secPhase = 2 ∧ t.rd .secBusy = 1 ∧ t.maskBit .secNvmBusy 0 = true ∧
      OnlyIn [.sec] s t) ∧
  (∀ (job : NvmJob) (ok : Bool) (s : State), s.warning = true → exec (.nvmWriteDone job ok) s = .next s) ∧
  (∀ (job : NvmJob) (ok : Bool) (s : State), s.warning = false → job = .sec → s.rd .secPhase = 2 → ok = false →
    ∃ t, exec (.nvmWriteDone job ok) s = .next t ∧
      t.rd .secResult = 6 ∧ t.rd .secBusy = 0 ∧ t.nvm = s.nvm ∧ t.maskBit .secNvmBusy 0 = false ∧ OnlyIn [.sec] s t) ∧
  (∀ (job : NvmJob) (ok : Bool) (s : State), s.Inv → s.warning = false → job = .sec → s.rd .secPhase = 2 →
    ok = true → s.rd .secOpRun = 3 → s.rd .secArgRun < 4 → ∃ t, exec (.nvmWriteDone job ok) s = .next t ∧
      t.rd .secKeyState 0 (s.rd .secArgRun) = 1 ∧ t.nvmGet .secKeyState 0 (s.rd .secArgRun) = 1 ∧
      t.nvmGet .secKeyPoint 0 (s.rd .secArgRun) = s.rd .secKeyData ∧ t.rd .secResult = 0 ∧ OnlyIn [.sec] s t) ∧
  (∀ (job : NvmJob) (ok : Bool) (s : State), s.Inv → s.warning = false → job = .sec → s.rd .secPhase = 2 →
    ok = true → s.rd .secOpRun = 6 → ∃ t, exec (.nvmWriteDone job ok) s = .next t ∧
      t.rd .secRollbackFloor = s.rd .secRollbackNew ∧
      (∀ k ∈ List.range 3, t.nvmGet .secRollbackFloor 0 k = s.rd .secRollbackNew) ∧ t.rd .secResult = 0 ∧
      OnlyIn [.sec] s t) ∧
  (∀ (job : NvmJob) (ok : Bool) (s : State), s.warning = false → job = .sec → s.rd .secPhase = 2 → ok = true →
    s.rd .secOpRun = 1 → s.rd .secLcCopy = 1 → s.rd .secArgRun < 4 → ∃ t, exec (.nvmWriteDone job ok) s = .next t ∧
      t.rd .secLcState = s.rd .secArgRun ∧ t.nvmGet .secLcState 0 1 = s.rd .secArgRun ∧ t.rd .secLcCopy = 2 ∧
      t.rd .secBusy = s.rd .secBusy) ∧
  (∀ (job : NvmJob) (ok : Bool) (s : State), s.Inv → s.warning = false → job = .envSave → s.on .optSaveBusy = true →
    ok = true → ∃ t, exec (.nvmWriteDone job ok) s = .next t ∧
      t.rd .optSaveBusy = 0 ∧ t.rd .optGlbEnvSave = 0 ∧ (t.rd .optGlbIntStatus).testBit Irq.optGlbSaveDone = true ∧
      t.nvmGet .optLnMaxBias 3 = s.rd .optLnMaxBias 3 ∧ OnlyIn [.optGlb] s t) ∧
  (∀ (job : NvmJob) (ok : Bool) (s : State), s.warning = false → job = .password → s.maskBit .secNvmBusy 1 = true →
    ok = true → ∃ t, exec (.nvmWriteDone job ok) s = .next t ∧
      t.nvmGet .secPassword = s.passwordMac (s.rd .cdbNewPw) ∧ t.nvmGet .secPwSet = 1 ∧ t.rd .cdbStatus = 1 ∧
      t.maskBit .secNvmBusy 1 = false)

/-- Where software reaches the FIFO: a read while it is empty answers the not-valid tag and moves no pointer; of
another, with more left than the low mark, it answers the oldest word, which leaves, and advances the read pointer by
2. A flush empties the FIFO, puts the read pointer at the write pointer and lifts XOFF. A format takes effect at once
in an empty FIFO, and else waits where it differs from the present one. The mailbox's event command with no message
waiting changes nothing; with the firmware up and nothing outbound, one for 510 bytes is answered with no record while
the FIFO is empty, and with the record of four words in format 2 that it holds, the read pointer 8 on. Where software
reaches MGMT and nothing is discarded: a header that is not refused opens a message of its length; the last word of an
open one makes it visible; a header of version 3 is refused with code 3, counted, with IN_REFUSED, and opens nothing.
While the rest is discarded a word changes nothing. A timeout discards the open message with code 7, and with none
open does nothing; an abort discards it and ends discarding. A size applies with both directions empty and no message
open; with a message outbound it is ignored with MBX_BUSY. A read of the outbound direction answers the next word,
which leaves, or the not-valid tag. With the firmware up and nothing outbound: VERSION is answered with its body; type
9 with code 5; a read of four module-information bytes with them, or past the end with code 6; a write of one word
waits for its NVM write in Manufacturing and elsewhere is answered with code 6. With the firmware down VERSION waits.
Body layouts are the model's choice (log entry 15). It concludes, from conditions on the state and the operands alone,
that exec answers a next state with the command's own effect, of: evfRead, evfFlush, evfFormatWrite, msgEventRead,
mbxInWordWrite, mbxTimeout, mbxInAbort, mbxSizeWrite, mbxOutRead, msgVersion, msgTypeUnknown, msgInfoRead,
msgInfoWrite. From rules R449, R450, R453, R457, R459, R454, R455, R456. -/
def Obligations.EventFifoAndMailbox : Prop :=
  (∀ (s : State), s.reaches .evf 0 → s.evf = [] → ∃ t, exec (.evfRead) s = .next t ∧
      t.answer = [emptyTag] ∧ t.evf = [] ∧ t.rd .evfRptr = s.rd .evfRptr ∧ OnlyIn [.glb] s t) ∧
  (∀ (w : Nat) (q : List Nat) (s : State), s.reaches .evf 0 → s.evf = w :: q → q ≠ [] → s.rd .evfLwm < q.length →
    ∃ t, exec (.evfRead) s = .next t ∧
      t.answer = [w] ∧ t.evf = q ∧ t.rd .evfRptr = (s.rd .evfRptr + 2) % 2 ^ Field.width .evfRptr ∧
      t.rd .evfXoff = s.rd .evfXoff ∧ OnlyIn [.glb, .evf] s t) ∧
  (∀ (s : State), s.reaches .evf 0 → ∃ t, exec (.evfFlush) s = .next t ∧
      t.evf = [] ∧ t.rd .evfRptr = s.rd .evfWptr % 2 ^ Field.width .evfRptr ∧ t.rd .evfXoff = 0 ∧ OnlyIn [.evf] s t) ∧
  (∀ (format2 : Bool) (s : State), s.reaches .evf 0 → s.evf = [] → ∃ t, exec (.evfFormatWrite format2) s = .next t ∧
      t.rd .evfFormat = bit format2 ∧ t.rd .evfFmtPending = 0 ∧ Changes s t 0 [.evfFormat, .evfFmtPending]) ∧
  (∀ (format2 : Bool) (s : State), s.reaches .evf 0 → s.evf ≠ [] → ∃ t, exec (.evfFormatWrite format2) s = .next t ∧
      t.rd .evfFormat = s.rd .evfFormat ∧ t.rd .evfFmtPending = bit (bit format2 ≠ s.rd .evfFormat) ∧
      t.rd .evfFormatNew = bit format2 ∧ Changes s t 0 [.evfFmtPending, .evfFormatNew]) ∧
  (∀ (s : State), s.mbxIn = [] → exec (.msgEventRead) s = .next s) ∧
  (∀ (tag : Nat) (s : State), s.mbxIn = [[2 + 4 * 2 ^ 8 + 12 * 2 ^ 16, tag, 510]] → tag < 65536 → s.fwUp = true →
    s.maskBit .secNvmBusy 2 = false → s.mbxOut = [] → s.evf = [] → ∃ t, exec (.msgEventRead) s = .next t ∧
      t.mbxIn = [] ∧ t.mbxOut = [[2 + 4 * 2 ^ 8 + 8 * 2 ^ 16, tag]] ∧
      (t.rd .mgtIntStatus).testBit Irq.mgtOutAvail = true ∧
      Changes { s with mbxIn := t.mbxIn, mbxOut := t.mbxOut } t 0 [.mgtIntStatus]) ∧
  (∀ (tag : Nat) (s : State), s.mbxIn = [[2 + 4 * 2 ^ 8 + 12 * 2 ^ 16, tag, 510]] → tag < 65536 → s.fwUp = true →
    s.maskBit .secNvmBusy 2 = false → s.mbxOut = [] → s.evf = [0x21100100, 5, 6, 9] → s.on .evfFormat = true →
    ∃ t, exec (.msgEventRead) s = .next t ∧
      t.mbxIn = [] ∧ t.mbxOut = [[2 + 4 * 2 ^ 8 + 24 * 2 ^ 16, tag, 0x21100100, 5, 6, 9]] ∧ t.evf = [] ∧
      t.rd .evfRptr = (s.rd .evfRptr + 8) % 2 ^ Field.width .evfRptr) ∧
  (∀ (w : Word) (s : State), s.reaches .mgt 0 → s.on .mbxDiscardAll = false → s.on .mbxDiscard = false →
    s.on .mgtMbxOpen = false → s.headerRefusal w.toNat = none → ∃ t, exec (.mbxInWordWrite w) s = .next t ∧
      t.mbxOpen = [w.toNat] ∧ t.rd .mgtMbxOpen = 1 ∧ t.rd .mbxLeft = bitsOf w.toNat 27 16 / 4 - 1 ∧
      t.mbxIn = s.mbxIn ∧ Changes { s with mbxOpen := t.mbxOpen } t 0 [.mgtMbxOpen, .mbxLeft]) ∧
  (∀ (w : Word) (s : State), s.reaches .mgt 0 → s.on .mbxDiscardAll = false → s.on .mbxDiscard = false →
    s.on .mgtMbxOpen = true → s.rd .mbxLeft = 1 → ∃ t, exec (.mbxInWordWrite w) s = .next t ∧
      t.mbxIn = s.mbxIn ++ [s.mbxOpen ++ [w.toNat]] ∧ t.mbxOpen = [] ∧ t.rd .mgtMbxOpen = 0) ∧
  (∀ (w : Word) (s : State), s.reaches .mgt 0 → s.on .mbxDiscardAll = false → s.on .mbxDiscard = false →
    s.on .mgtMbxOpen = false → w.toNat % 256 = 3 → ∃ t, exec (.mbxInWordWrite w) s = .next t ∧
      t.rd .mgtMbxInResult = 3 ∧
      t.rd .mgtRefusedCnt = min (s.rd .mgtRefusedCnt + 1) (2 ^ Field.width .mgtRefusedCnt - 1) ∧
      (t.rd .mgtIntStatus).testBit Irq.mgtInRefused = true ∧ t.mbxOpen = s.mbxOpen ∧ t.mbxIn = s.mbxIn ∧
      OnlyIn [.mgt] s t) ∧
  (∀ (w : Word) (s : State), s.reaches .mgt 0 → s.on .mbxDiscardAll = true → exec (.mbxInWordWrite w) s = .next s) ∧
  (∀ (s : State), s.on .mgtMbxOpen = true → ∃ t, exec (.mbxTimeout) s = .next t ∧
      t.mbxOpen = [] ∧ t.rd .mgtMbxOpen = 0 ∧ t.rd .mgtMbxInResult = 7 ∧ t.mbxIn = s.mbxIn ∧ OnlyIn [.mgt] s t) ∧
  (∀ (s : State), s.on .mgtMbxOpen = false → exec (.mbxTimeout) s = .next s) ∧
  (∀ (s : State), s.reaches .mgt 0 → ∃ t, exec (.mbxInAbort) s = .next t ∧
      t.mbxOpen = [] ∧ t.rd .mgtMbxOpen = 0 ∧ t.rd .mbxDiscardAll = 0 ∧ t.mbxIn = s.mbxIn ∧ OnlyIn [.mgt] s t) ∧
  (∀ (v : BitVec 2) (s : State), s.reaches .mgt 0 → s.mbxIn = [] → s.mbxOut = [] → s.on .mgtMbxOpen = false →
    ∃ t, exec (.mbxSizeWrite v) s = .next t ∧
      t.rd .mgtMbxSize = v.toNat ∧ Changes s t 0 [.mgtMbxSize]) ∧
  (∀ (v : BitVec 2) (s : State), s.reaches .mgt 0 → s.mbxOut ≠ [] → ∃ t, exec (.mbxSizeWrite v) s = .next t ∧
      (t.rd .mgtIntStatus).testBit Irq.mgtMbxBusy = true ∧ t.rd .mgtMbxSize = s.rd .mgtMbxSize ∧
      Changes s t 0 [.mgtIntStatus]) ∧
  (∀ (s : State), s.reaches .mgt 0 → s.mbxOut = [] → ∃ t, exec (.mbxOutRead) s = .next t ∧
      t.answer = [emptyTag] ∧ t.mbxOut = [] ∧ OnlyIn [.glb] s t) ∧
  (∀ (w : Nat) (v : Nat) (q : List (List Nat)) (s : State), s.reaches .mgt 0 → s.mbxOut = [w, v] :: q →
    ∃ t, exec (.mbxOutRead) s = .next t ∧
      t.answer = [w] ∧ t.mbxOut = [v] :: q ∧ OnlyIn [.glb] s t) ∧
  (∀ (w : Nat) (q : List (List Nat)) (s : State), s.reaches .mgt 0 → s.mbxOut = [w] :: q →
    ∃ t, exec (.mbxOutRead) s = .next t ∧
      t.answer = [w] ∧ t.mbxOut = q ∧ OnlyIn [.glb] s t) ∧
  (∀ (tag : Nat) (s : State), s.mbxIn = [[2 + 1 * 2 ^ 8 + 8 * 2 ^ 16, tag]] → tag < 65536 → s.fwUp = true →
    s.maskBit .secNvmBusy 2 = false → s.mbxOut = [] → ∃ t, exec (.msgVersion) s = .next t ∧
      t.mbxIn = [] ∧ t.mbxOut = [[2 + 1 * 2 ^ 8 + 20 * 2 ^ 16, tag, 6, 2 ^ s.rd .mgtMbxSize, 2048]] ∧
      (t.rd .mgtIntStatus).testBit Irq.mgtOutAvail = true ∧ OnlyIn [.mgt] s t) ∧
  (∀ (s : State), s.fwUp = false → exec (.msgVersion) s = .next s) ∧
  (∀ (tag : Nat) (s : State), s.mbxIn = [[2 + 9 * 2 ^ 8 + 8 * 2 ^ 16, tag]] → tag < 65536 → s.fwUp = true →
    s.maskBit .secNvmBusy 2 = false → s.mbxOut = [] → ∃ t, exec (.msgTypeUnknown) s = .next t ∧
      t.mbxIn = [] ∧ t.mbxOut = [[2 + 9 * 2 ^ 8 + 8 * 2 ^ 16, 5 * 2 ^ 16 + tag]] ∧ OnlyIn [.mgt] s t) ∧
  (∀ (tag : Nat) (off : Nat) (s : State), s.mbxIn = [[2 + 5 * 2 ^ 8 + 16 * 2 ^ 16, tag, off, 4]] → tag < 65536 →
    off + 4 ≤ infoBytes → s.fwUp = true → s.maskBit .secNvmBusy 2 = false → s.mbxOut = [] →
    ∃ t, exec (.msgInfoRead) s = .next t ∧
      t.mbxIn = [] ∧ t.mbxOut = [[2 + 5 * 2 ^ 8 + 12 * 2 ^ 16, tag] ++ packWords (s.info.getMany off 4)] ∧
      t.info = s.info) ∧
  (∀ (tag : Nat) (off : Nat) (s : State), s.mbxIn = [[2 + 5 * 2 ^ 8 + 16 * 2 ^ 16, tag, off, 4]] → tag < 65536 →
    infoBytes < off + 4 → s.fwUp = true → s.maskBit .secNvmBusy 2 = false → s.mbxOut = [] →
    ∃ t, exec (.msgInfoRead) s = .next t ∧
      t.mbxOut = [[2 + 5 * 2 ^ 8 + 8 * 2 ^ 16, 6 * 2 ^ 16 + tag]] ∧ t.info = s.info) ∧
  (∀ (tag : Nat) (w : Nat) (s : State), s.mbxIn = [[2 + 6 * 2 ^ 8 + 20 * 2 ^ 16, tag, 0, 4, w]] →
    s.rd .secLcState = 1 → s.fwUp = true → s.maskBit .secNvmBusy 2 = false → s.mbxOut = [] →
    ∃ t, exec (.msgInfoWrite) s = .next t ∧
      t.maskBit .secNvmBusy 2 = true ∧ t.mbxIn = s.mbxIn ∧ t.info = s.info ∧ OnlyIn [.sec] s t) ∧
  (∀ (tag : Nat) (w : Nat) (s : State), s.mbxIn = [[2 + 6 * 2 ^ 8 + 20 * 2 ^ 16, tag, 0, 4, w]] → tag < 65536 →
    s.rd .secLcState ≠ 1 → s.fwUp = true → s.maskBit .secNvmBusy 2 = false → s.mbxOut = [] →
    ∃ t, exec (.msgInfoWrite) s = .next t ∧
      t.mbxIn = [] ∧ t.mbxOut = [[2 + 6 * 2 ^ 8 + 8 * 2 ^ 16, 6 * 2 ^ 16 + tag]] ∧ t.info = s.info)

/-- Where software reaches the image controller: in RUNNING with no debug scope open, VALIDATE and MAKE_BOOT start
checking their slot, the running image and the NVM as they were; VALIDATE in a partial commit is refused with 0x12.
COMMIT_FULL and COMMIT_PARTIAL without a candidate are refused with 0x15, COMMIT_FULL also where no image runs and the
candidate's slot was not written since; COMMIT_FULL with one takes every line and host lane to OFF; COMMIT_PARTIAL,
with candidate and running image the same format-4 image, a group of the one lane, its profile among the group's and
no switch pending, takes that group into the commit. ABORT of a partial commit before B2 without an image ends it with
0x14 and PC_FAIL, and in RUNNING does nothing. An OP of 0 or above 5, or a slot above 1 (OP not 3 or 4), is refused
with 0x0C. A VALIDATE of bytes that pass makes their image the candidate with its slot; one that fails leaves none and
reports its code; MAKE_BOOT of bytes that pass goes on to write the boot record; with no validation running its end
changes nothing. It concludes, from conditions on the state and the operands alone, that exec answers a next state
with the command's own effect, of: imgValidate, imgMakeBoot, imgCommitFull, imgCommitPartial, imgAbort, imgOpInvalid,
imgValidationDone. From rules R59, R68, R71, R72, R73, R74, R79, R80, R81. -/
def Obligations.ImageCommands : Prop :=
  (∀ (slot : BitVec 1) (s : State), s.reaches .img 0 → s.rd .imgState = 2 → s.secOpen = false →
    ∃ t, exec (.imgValidate slot) s = .next t ∧
      t.rd .imgState = 3 ∧ t.rd .imgOpRun = 1 ∧ t.rd .imgOpSlot = slot.toNat ∧ t.rd .imgCmdGo = 1 ∧
      t.candidate = s.candidate ∧ t.running = s.running ∧ OnlyIn [.img] s t) ∧
  (∀ (slot : BitVec 1) (s : State), s.reaches .img 0 → s.rd .imgState = 4 →
    ∃ t, exec (.imgValidate slot) s = .next t ∧
      t.rd .imgErr = 0x12 ∧ t.rd .imgState = 4 ∧ (t.rd .imgIntStatus).testBit Irq.imgCmdFail = true ∧
      t.rd .imgOpRun = s.rd .imgOpRun ∧ OnlyIn [.img, .evf] s t) ∧
  (∀ (slot : BitVec 1) (s : State), s.reaches .img 0 → s.rd .imgState = 2 → s.secOpen = false →
    ∃ t, exec (.imgMakeBoot slot) s = .next t ∧
      t.rd .imgState = 3 ∧ t.rd .imgOpRun = 5 ∧ t.rd .imgOpSlot = slot.toNat ∧ t.nvm = s.nvm ∧ OnlyIn [.img] s t) ∧
  (∀ (slot : BitVec 1) (s : State), s.reaches .img 0 → s.rd .imgState = 2 →
    (s.candidate = none ∨ (s.running = none ∧ s.on .imgCandNew = false)) →
    ∃ t, exec (.imgCommitFull slot) s = .next t ∧
      t.rd .imgErr = 0x15 ∧ t.rd .imgState = 2 ∧ t.rd .imgCmdGo = 0 ∧
      (t.rd .imgIntStatus).testBit Irq.imgCmdFail = true ∧ OnlyIn [.img, .evf] s t) ∧
  (∀ (slot : BitVec 1) (i : Image) (s : State), s.reaches .img 0 → s.rd .imgState = 2 → s.candidate = some i →
    (s.running ≠ none ∨ s.on .imgCandNew = true) → ∃ t, exec (.imgCommitFull slot) s = .next t ∧
      t.rd .imgState = 6 ∧ t.rd .imgOpRun = 2 ∧ t.rd .imgCmdGo = 1 ∧
      (∀ n ∈ List.range 8, t.rd .lrxState n = 0 ∧ t.rd .ltxTxEn n = 0) ∧ (∀ h ∈ List.range 16, t.rd .hifState h = 0) ∧
      t.candidate = some i) ∧
  (∀ (slot : BitVec 1) (lead : Lane) (s : State), s.reaches .img 0 → s.rd .imgState = 2 → s.candidate = none →
    ∃ t, exec (.imgCommitPartial slot lead) s = .next t ∧
      t.rd .imgErr = 0x15 ∧ t.rd .imgState = 2 ∧ (t.rd .imgIntStatus).testBit Irq.imgPcFail = true ∧
      OnlyIn [.img, .evf] s t) ∧
  (∀ (slot : BitVec 1) (lead : Lane) (i : Image) (s : State), s.reaches .img 0 → s.rd .imgState = 2 →
    s.candidate = some i → s.running = some i → i.fmtMajor = 4 → (i.groupOf lead).lead = lead →
    (i.groupOf lead).lanes = [lead.val] → s.rd .lfrProfActive lead < 3 →
    (i.groupOf lead).profiles.testBit (s.rd .lfrProfActive lead) = true → sameOutside i i [lead.val] = true →
    s.on .lfrReqAcc lead = false → s.on .lfrSwPend lead = false → s.on .lfrAwaitRel lead = false →
    s.on .lfrReplyWait lead = false → ∃ t, exec (.imgCommitPartial slot lead) s = .next t ∧
      t.rd .imgState = 4 ∧ t.rd .imgOpRun = 3 ∧ t.rd .imgOpLead = lead ∧ t.rd .imgPcLanes = 2 ^ lead.val ∧
      t.running = some i ∧ OnlyIn [.img] s t) ∧
  (∀ (s : State), s.reaches .img 0 → s.rd .imgState = 4 → s.rd .imgOpRun = 3 → s.running = none →
    s.on .cdbImg = false → ∃ t, exec (.imgAbort) s = .next t ∧
      t.rd .imgState = 0 ∧ t.rd .imgErr = 0x14 ∧ t.rd .imgOpRun = 0 ∧
      (t.rd .imgIntStatus).testBit Irq.imgPcFail = true ∧ OnlyIn [.img, .arcCl, .evf] s t) ∧
  (∀ (s : State), s.reaches .img 0 → s.rd .imgState = 2 → ∃ t, exec (.imgAbort) s = .next t ∧
      t.rd .imgCmdGo = 0 ∧ t.rd .imgState = 2 ∧ t.rd .imgErr = s.rd .imgErr ∧ OnlyIn [.img] s t) ∧
  (∀ (op : BitVec 4) (slot : BitVec 2) (lead : Lane) (s : State), s.reaches .img 0 → s.rd .imgState = 2 →
    (op = 0 ∨ 5 < op.toNat ∨ 2 ≤ slot.toNat) → op ≠ 4 → op ≠ 3 → ∃ t, exec (.imgOpInvalid op slot lead) s = .next t ∧
      t.rd .imgErr = 0x0C ∧ t.rd .imgState = 2 ∧ t.rd .imgCmdGo = 0 ∧
      (t.rd .imgIntStatus).testBit Irq.imgCmdFail = true ∧ OnlyIn [.img, .evf] s t) ∧
  (∀ (f : ImageFile) (s : State), s.rd .imgState = 3 → s.rd .imgOpRun = 1 →
    s.validate (s.slotImage (Image.ofFile f)) false = none → s.running = none → s.on .cdbImg = false →
    ∃ t, exec (.imgValidationDone f) s = .next t ∧
      t.candidate = some (s.slotImage (Image.ofFile f)) ∧ t.rd .imgCandidateValid = 1 ∧
      t.rd .imgCandidateSlot = s.rd .imgOpSlot % 2 ∧ t.rd .imgState = 0 ∧ t.rd .imgCmdGo = 0 ∧
      (t.rd .imgIntStatus).testBit Irq.imgCmdDone = true ∧ OnlyIn [.img, .evf] s t) ∧
  (∀ (f : ImageFile) (e : ImgFailure) (s : State), s.rd .imgState = 3 → s.rd .imgOpRun = 1 →
    s.validate (s.slotImage (Image.ofFile f)) false = some e → e.code < 256 → s.running = none →
    s.on .cdbImg = false → ∃ t, exec (.imgValidationDone f) s = .next t ∧
      t.candidate = none ∧ t.rd .imgCandidateValid = 0 ∧ t.rd .imgErr = e.code ∧ t.rd .imgState = 0 ∧
      (t.rd .imgIntStatus).testBit Irq.imgCmdFail = true ∧ OnlyIn [.img, .evf] s t) ∧
  (∀ (f : ImageFile) (s : State), s.rd .imgState ≠ 1 → s.rd .imgState ≠ 3 → exec (.imgValidationDone f) s = .next s) ∧
  (∀ (f : ImageFile) (s : State), s.rd .imgState = 3 → s.rd .imgOpRun = 5 →
    s.validate (s.slotImage (Image.ofFile f)) false = none → ∃ t, exec (.imgValidationDone f) s = .next t ∧
      t.rd .imgState = 7 ∧ Changes s t 0 [.imgState])

/-- In a partial commit of one lane with no test running, B1 isolates its cluster, once. With it isolated and no
warning the ingress pause of its lead begins B2 and a gap of 512 codewords; an egress pause there begins FILL. With
every ingress paused, its codewords released, no refresh running and nothing waiting, the table write makes the
candidate the running image with its stores loaded; without a candidate it does nothing. The egress resume of an
ACTIVE lane counts 512 discarded codewords; the last ingress resume ends isolation and pause, counts the commit and
ends it with PC_DONE. IMG_PC_CLR clears both counts. A boot record read back right names its slot with the next
sequence and ends MAKE_BOOT; one read back wrong is not valid and reports 0x13. The end of another flash write ends
the CDB command that waits for it. A first missed watchdog takes the firmware down, a second within 10 s halts it; a
restart with the running image's firmware digest is counted and keeps the image; with any other no image is left and
every line lane is in OFF, disabled; with no restart running its end does nothing. It concludes, from conditions on
the state and the operands alone, that exec answers a next state with the command's own effect, of: pcIsolate,
pcPause, pcTableWrite, pcResume, imgPcClr, flashWriteDone, watchdogMiss, fwRestartDone. From rules R57, R75, R77, R78,
R79, R80, R81, R435, R446. -/
def Obligations.PartialCommitAndFlash : Prop :=
  (∀ (s : State), (s.rd .imgState ≠ 4 ∨ s.on .imgPcIso = true) → exec (.pcIsolate) s = .next s) ∧
  (∀ (n : Lane) (s : State), s.rd .imgState = 4 → s.on .imgPcIso = false → s.rd .imgPcLanes = 2 ^ n.val →
    s.tests = [] → ∃ t, exec (.pcIsolate) s = .next t ∧
      t.rd .imgPcIso = 1 ∧ t.rd .arcClIsolated n = 1 ∧ OnlyIn [.img, .arcCl] s t) ∧
  (∀ (n : Lane) (egress : Bool) (s : State), s.rd .imgState = 4 → s.on .imgPcIso = true → s.rd .imgOpLead = n →
    s.warning = false → egress = false → s.maskBit .imgPcLanes n = true → s.maskBit .imgPcP n = false →
    ∃ t, exec (.pcPause n egress) s = .next t ∧
      t.rd .imgState = 5 ∧ t.maskBit .imgPcP n = true ∧ t.rd .lfrPcLeft n = 512 ∧ t.rd .lfrGapOn n = 1 ∧
      OnlyIn [.img, .lfr] s t) ∧
  (∀ (n : Lane) (egress : Bool) (s : State), s.rd .imgState = 5 → egress = true → s.maskBit .imgPcLanes n = true →
    s.maskBit .imgPcQ n = false → ∃ t, exec (.pcPause n egress) s = .next t ∧
      t.maskBit .imgPcQ n = true ∧ t.rd .lfrFillTx n = 1 ∧ t.rd .imgPcP = s.rd .imgPcP ∧ OnlyIn [.img, .lfr] s t) ∧
  (∀ (n : Lane) (egress : Bool) (s : State), s.rd .imgState = 2 → exec (.pcPause n egress) s = .next s) ∧
  (∀ (i : Image) (s : State), s.candidate = some i → s.rd .imgState = 5 → s.on .imgPcWritten = false →
    s.rd .imgPcP = s.rd .imgPcLanes → s.slots = [] → s.on .thmCritWait = false → s.on .thmStepWait = false →
    (∀ n ∈ List.range 8, s.on .lrxFaultWait n = false) → (∀ e ∈ List.range 128, s.rd .arcEngSt 0 e ≠ 4) →
    ∃ t, exec (.pcTableWrite) s = .next t ∧
      t.running = some i ∧ t.rd .imgPcWritten = 1 ∧
      t.stores = (({ s with running := some i } : State).loadStores (s.pcLanes.flatMap clusterEngines)).stores ∧
      t.homeQ = s.homeQ ∧ t.work = s.work) ∧
  (∀ (s : State), s.candidate = none → exec (.pcTableWrite) s = .next s) ∧
  (∀ (n : Lane) (egress : Bool) (s : State), egress = true → s.maskBit .imgPcQ n = true →
    s.maskBit .imgPcQEnd n = false → s.on .imgPcWritten = true → s.rd .ltxState n = 4 →
    ∃ t, exec (.pcResume n egress) s = .next t ∧
      t.maskBit .imgPcQEnd n = true ∧
      t.rd .imgPcDiscard = min (s.rd .imgPcDiscard + 512) (2 ^ Field.width .imgPcDiscard - 1) ∧
      t.rd .lfrFillTx n = bit (s.fillTx n) ∧ OnlyIn [.img, .lfr] s t) ∧
  (∀ (n : Lane) (egress : Bool) (i : Image) (s : State), egress = false → s.rd .imgState = 5 →
    s.on .imgPcWritten = true → s.rd .imgPcLanes = 2 ^ n.val → s.rd .imgPcP = 2 ^ n.val → s.rd .imgPcPEnd = 0 →
    s.running = some i → s.rd .imgOpRun = 3 → s.on .cdbImg = false → i.records = [] → i.fmtMajor = 4 →
    s.rd .imgPcOldExt = 0 → ∃ t, exec (.pcResume n egress) s = .next t ∧
      t.rd .imgState = 2 ∧ t.rd .imgOpRun = 0 ∧
      t.rd .imgPcCount = min (s.rd .imgPcCount + 1) (2 ^ Field.width .imgPcCount - 1) ∧ t.rd .arcClIsolated n = 0 ∧
      t.rd .lfrPcLeft n = 0 ∧ (t.rd .imgIntStatus).testBit Irq.imgPcDone = true) ∧
  (∀ (s : State), s.reaches .img 0 → ∃ t, exec (.imgPcClr) s = .next t ∧
      t.rd .imgPcCount = 0 ∧ t.rd .imgPcDiscard = 0 ∧ Changes s t 0 [.imgPcCount, .imgPcDiscard]) ∧
  (∀ (bootRecord : Bool) (ok : Bool) (s : State), bootRecord = true → s.rd .imgState = 7 → ok = true →
    s.rd .imgOpSlot < 2 → s.recordSeq + 1 < 2 ^ 32 → s.running = none → s.on .cdbImg = false →
    ∃ t, exec (.flashWriteDone bootRecord ok) s = .next t ∧
      t.nvmGet .flashRecSlot 0 s.recordTarget = s.rd .imgOpSlot ∧
      t.nvmGet .flashRecSeq 0 s.recordTarget = s.recordSeq + 1 ∧ t.recordOk s.recordTarget = true ∧
      t.rd .imgState = 0 ∧ (t.rd .imgIntStatus).testBit Irq.imgCmdDone = true) ∧
  (∀ (bootRecord : Bool) (ok : Bool) (s : State), bootRecord = true → s.rd .imgState = 7 → ok = false →
    s.running = none → s.on .cdbImg = false → s.rd .imgOpRun = 5 →
    ∃ t, exec (.flashWriteDone bootRecord ok) s = .next t ∧
      t.recordOk s.recordTarget = false ∧ t.rd .imgErr = 0x13 ∧ t.rd .imgState = 0 ∧
      (t.rd .imgIntStatus).testBit Irq.imgCmdFail = true) ∧
  (∀ (bootRecord : Bool) (ok : Bool) (s : State), bootRecord = false → s.on .cdbFlash = true →
    ∃ t, exec (.flashWriteDone bootRecord ok) s = .next t ∧
      t.rd .cdbFlash = 0 ∧ (t.rd .cdbStatus = (if ok = true then 1 else 0x40))) ∧
  (∀ (core : Fin 4) (s : State), s.on .pwrDomMgmt = true → s.on .mgtFwHalt = false → s.on .mgtFwMissed = false →
    ∃ t, exec (.watchdogMiss core) s = .next t ∧
      t.rd .mgtFwDown = 1 ∧ t.rd .mgtFwCore = core ∧ t.rd .mgtFwMissed = 1 ∧ t.rd .mgtFwHalt = 0 ∧ OnlyIn [.mgt] s t) ∧
  (∀ (core : Fin 4) (s : State), s.on .pwrDomMgmt = true → s.on .mgtFwHalt = false → s.on .mgtFwMissed = true →
    s.rd .mgtFwMissAt ≤ s.now → s.now - s.rd .mgtFwMissAt < 5000000000 → ∃ t, exec (.watchdogMiss core) s = .next t ∧
      t.rd .mgtFwHalt = 1 ∧ t.rd .mgtFwDown = 0 ∧ (t.rd .mgtIntStatus).testBit Irq.mgtFwHalt = true ∧
      OnlyIn [.mgt] s t) ∧
  (∀ (bytes : List (BitVec 8)) (s : State), s.on .mgtFwDown = false → exec (.fwRestartDone bytes) s = .next s) ∧
  (∀ (bytes : List (BitVec 8)) (s : State), s.on .mgtFwDown = true →
    s.running.any (fun i => i.firmware == sha384 (bytes.map BitVec.toNat)) = true →
    ∃ t, exec (.fwRestartDone bytes) s = .next t ∧
      t.rd .mgtFwDown = 0 ∧
      t.rd .mgtFwRestartCnt = min (s.rd .mgtFwRestartCnt + 1) (2 ^ Field.width .mgtFwRestartCnt - 1) ∧
      (t.rd .mgtIntStatus).testBit Irq.mgtFwRestart = true ∧ t.running = s.running ∧ OnlyIn [.mgt, .evf] s t) ∧
  (∀ (bytes : List (BitVec 8)) (s : State), s.on .mgtFwDown = true →
    s.running.any (fun i => i.firmware == sha384 (bytes.map BitVec.toNat)) = false →
    ∃ t, exec (.fwRestartDone bytes) s = .next t ∧
      t.rd .mgtFwDown = 0 ∧ t.running = none ∧ t.rd .imgState = 0 ∧ t.rd .mgtRomFw = 1 ∧
      (t.rd .imgIntStatus).testBit Irq.imgNoImage = true ∧
      (∀ n ∈ List.range 8, t.rd .lrxState n = 0 ∧ t.rd .lrxEnable n = 0))

/-- VDD_AON rising starts the device once, at step 1 with cause 1. The NVM load, in start-up or the wake from Deep
before PU_DONE, with RESET_N high, no warning and outside the test mode, ends with PU_DONE, the lifecycle state of two
agreeing copies and the UID; a safety region that fails sets NVM_BAD, one that is good is locked; with no good copy
the floor reads 0 with its error; factory data that fail are not valid; any region that fails sets NVM_ERR. At
start-up it goes on to OPERATION on, after Deep it leaves the regulator; else it changes nothing. Supply readiness
with the reference good starts MGMT and TIME, the ROM firmware, the image controller's boot with the slot preferred
and the calibration of a core PLL in OFF, and a VOUT_MODE that is not linear is a PMBus error; elsewhere it changes
nothing. In start-up three timeouts turn the regulator off for another attempt, a fourth ends in Deep with WAKE_FAIL,
at start-up with stage code 2; in STANDBY_WAKE without the reference three only count and a fourth ends in Deep;
elsewhere none does anything. A retry turns the regulator on again. It concludes, from conditions on the state and the
operands alone, that exec answers a next state with the command's own effect, of: vddAonPowerGood, nvmLoadDone,
supplyReady, supplyReadyTimeout, wakeRetry. From rules R338, R340, R375, R376, R469, R471, R477, R480. -/
def Obligations.StartUpSteps : Prop :=
  (∀ (s : State), s.rd .glbSeqStep = 0 → ∃ t, exec (.vddAonPowerGood) s = .next t ∧
      t.rd .pwrDevState = 6 ∧ t.rd .glbSeqStep = 1 ∧ t.rd .glbBootStage = 0 ∧ t.rd .pwrStartup = 1 ∧
      t.rd .pwrResetCause = 1 ∧ t.rd .glbStageRef = s.now % 2 ^ Field.width .glbStageRef ∧
      Changes s t 0 [.glbSeqStep, .glbBootStage, .glbStageRef, .pwrDevState, .pwrStartup, .pwrResetCause]) ∧
  (∀ (s : State), s.rd .glbSeqStep ≠ 0 → exec (.vddAonPowerGood) s = .next s) ∧
  (∀ (l : NvmLoad) (s : State),
    (s.rd .pwrDevState ≠ 6 ∨ s.on .optGlbPuDone = true ∨ s.on .glbResetLow = true ∨ s.warning = true) →
    exec (.nvmLoadDone l) s = .next s) ∧
  (∀ (l : NvmLoad) (s : State), s.rd .pwrDevState = 6 → s.on .optGlbPuDone = false → s.on .glbResetLow = false →
    s.warning = false → l.testMode = false → s.on .pwrStartup = true → s.rd .glbSeqStep ≤ 2 →
    s.nvmGet .secLcState 0 0 = s.nvmGet .secLcState 0 1 → s.nvmGet .secLcState 0 0 < 8 →
    ∃ t, exec (.nvmLoadDone l) s = .next t ∧
      t.rd .optGlbPuDone = 1 ∧ t.rd .secLcState = s.nvmGet .secLcState 0 0 ∧
      t.rd .secUid = s.nvmGet .secUid % 2 ^ Field.width .secUid ∧
      (l.safetyOk = false → t.rd .optGlbNvmBad = 1 ∧ (t.rd .optGlbIntStatus).testBit Irq.optGlbNvmBad = true) ∧
      (l.safetyOk = true → t.rd .optGlbLocked = 1) ∧
      (l.floorOk = 0#3 → t.rd .secRollbackFloor = 0 ∧ t.rd .secRollbackErr = 1) ∧
      (l.factoryOk = false → t.rd .timCalValid = 0) ∧
      ((l.lifecycleOk && l.keysOk && l.secretOk && l.floorOk == 7#3 && l.safetyOk && l.factoryOk && l.infoOk) =
        false → t.rd .secNvmErr = 1) ∧ t.rd .glbSeqStep = 3 ∧ t.rd .pwrRegOn = 1 ∧ t.rd .pwrSupplyWait = 1 ∧
      t.rd .pwrWakeTries = 0) ∧
  (∀ (l : NvmLoad) (s : State), s.rd .pwrDevState = 6 → s.on .optGlbPuDone = false → s.on .glbResetLow = false →
    s.warning = false → l.testMode = false → s.on .pwrStartup = false → s.rd .glbSeqStep ≤ 2 →
    s.nvmGet .secLcState 0 0 = s.nvmGet .secLcState 0 1 → s.nvmGet .secLcState 0 0 < 8 →
    ∃ t, exec (.nvmLoadDone l) s = .next t ∧
      t.rd .optGlbPuDone = 1 ∧ t.rd .secLcState = s.nvmGet .secLcState 0 0 ∧
      t.rd .secUid = s.nvmGet .secUid % 2 ^ Field.width .secUid ∧
      (l.safetyOk = false → t.rd .optGlbNvmBad = 1 ∧ (t.rd .optGlbIntStatus).testBit Irq.optGlbNvmBad = true) ∧
      (l.safetyOk = true → t.rd .optGlbLocked = 1) ∧
      (l.floorOk = 0#3 → t.rd .secRollbackFloor = 0 ∧ t.rd .secRollbackErr = 1) ∧
      (l.factoryOk = false → t.rd .timCalValid = 0) ∧
      ((l.lifecycleOk && l.keysOk && l.secretOk && l.floorOk == 7#3 && l.safetyOk && l.factoryOk && l.infoOk) =
        false → t.rd .secNvmErr = 1) ∧ t.rd .pwrRegOn = s.rd .pwrRegOn ∧ t.rd .pwrSupplyWait = s.rd .pwrSupplyWait) ∧
  (∀ (v : Bool) (s : State), (s.rd .pwrDevState ≠ 6 ∨ s.on .pwrSupplyWait = false ∨ s.on .clkRefOk = false) →
    exec (.supplyReady v) s = .next s) ∧
  (∀ (v : Bool) (s : State), s.rd .pwrDevState = 6 → s.on .pwrSupplyWait = true → s.on .clkRefOk = true →
    s.rd .pllState 4 = 0 → ∃ t, exec (.supplyReady v) s = .next t ∧
      t.rd .pwrPgood = 1 ∧ t.rd .pwrSupplyWait = 0 ∧ t.rd .pwrWakeTries = 0 ∧ t.rd .pwrDomMgmt = 1 ∧
      t.rd .pwrDomTime = 1 ∧ t.rd .mgtRomFw = 1 ∧ t.rd .glbSeqStep = 5 ∧ t.rd .glbBootStage = 3 ∧ t.rd .imgState = 1 ∧
      t.rd .imgBootPref = s.preferredSlot ∧ t.rd .pllState 4 = 1 ∧
      (v = false → t.rd .pwrDvfsErr = 2 ∧ (t.rd .pwrIntStatus).testBit Irq.pwrPwrErrPmbus = true)) ∧
  (∀ (s : State), (s.rd .pwrDevState ≠ 6 ∨ s.on .pwrSupplyWait = false) →
    (s.rd .pwrDevState ≠ 3 ∨ s.on .clkRefOk = true) → exec (.supplyReadyTimeout) s = .next s) ∧
  (∀ (s : State), s.rd .pwrDevState = 6 → s.on .pwrSupplyWait = true → s.rd .pwrWakeTries < 3 →
    ∃ t, exec (.supplyReadyTimeout) s = .next t ∧
      t.rd .pwrWakeTries = s.rd .pwrWakeTries + 1 ∧ t.rd .pwrRegOn = 0 ∧ t.rd .pwrSupplyWait = 0 ∧
      t.rd .pwrRegOffWait = 1 ∧ Changes s t 0 [.pwrWakeTries, .pwrRegOn, .pwrSupplyWait, .pwrRegOffWait]) ∧
  (∀ (s : State), s.rd .pwrDevState = 6 → s.on .pwrSupplyWait = true → 3 ≤ s.rd .pwrWakeTries →
    ∃ t, exec (.supplyReadyTimeout) s = .next t ∧
      t.rd .pwrDevState = 5 ∧ t.rd .pwrRegOn = 0 ∧ t.rd .pwrSupplyWait = 0 ∧ t.rd .pwrWakeTries = 0 ∧
      t.rd .pwrWakeFailCnt = min (s.rd .pwrWakeFailCnt + 1) (2 ^ Field.width .pwrWakeFailCnt - 1) ∧
      (t.rd .pwrIntStatus).testBit Irq.pwrWakeFail = true ∧ (s.on .pwrStartup = true → t.rd .glbBootFailStage = 2)) ∧
  (∀ (s : State), s.rd .pwrDevState = 3 → s.on .clkRefOk = false → s.rd .pwrWakeTries < 3 →
    ∃ t, exec (.supplyReadyTimeout) s = .next t ∧
      t.rd .pwrWakeTries = s.rd .pwrWakeTries + 1 ∧ t.rd .pwrDevState = 3 ∧ Changes s t 0 [.pwrWakeTries]) ∧
  (∀ (s : State), s.rd .pwrDevState = 3 → s.on .clkRefOk = false → 3 ≤ s.rd .pwrWakeTries →
    ∃ t, exec (.supplyReadyTimeout) s = .next t ∧
      t.rd .pwrDevState = 5 ∧ t.rd .pwrRegOn = 0 ∧ (t.rd .pwrIntStatus).testBit Irq.pwrWakeFail = true ∧
      t.rd .pwrDomMgmt = 0) ∧
  (∀ (s : State), s.on .pwrRegOffWait = true → ∃ t, exec (.wakeRetry) s = .next t ∧
      t.rd .pwrRegOffWait = 0 ∧ t.rd .pwrRegOn = 1 ∧ t.rd .pwrSupplyWait = 1 ∧
      Changes s t 0 [.pwrRegOffWait, .pwrRegOn, .pwrSupplyWait]) ∧
  (∀ (s : State), s.on .pwrRegOffWait = false → exec (.wakeRetry) s = .next s)

/-- Without a record, or outside its stage of the boot, a re-read of the image after Deep changes nothing; a record
whose CRC fails is dropped with RET_FAIL; with a good one, bytes of the recorded digest go on to the commit of that
image and others drop the record. The boot commit of a candidate, with the PLLs settled and no record, powers every
domain, makes it the running image, RUNNING, and goes on to self-test; with a record it restores its slot, drops the
record and the retention, and enables the lanes where nothing holds Standby. A full commit at run time with every
transmitter quiet makes the candidate run from its slot and calibrates the core PLL, and after a cold start goes on to
self-test. Elsewhere, or with no candidate, it changes nothing. The end of the boot tests with none open and the PLLs
settled: where nothing holds Standby and no lane is held in OFF, the line lanes whose DPDeinit is 0 are enabled at
step 11; where LPMODE holds it, stage 8 with code 6; with a test open, or not at this stage, nothing. It concludes,
from conditions on the state and the operands alone, that exec answers a next state with the command's own effect, of:
deepImageRereadDone, bootCommitDone, bootBistDone. From rules R59, R72, R375, R421, R477, R478, R480. -/
def Obligations.BootCommitAndLaneEnable : Prop :=
  (∀ (bytes : List (BitVec 8)) (recOk : Bool) (s : State), s.imgRecord = none →
    exec (.deepImageRereadDone bytes recOk) s = .next s) ∧
  (∀ (bytes : List (BitVec 8)) (recOk : Bool) (s : State), (s.rd .imgState ≠ 1 ∨ s.rd .glbBootStage ≠ 3) →
    exec (.deepImageRereadDone bytes recOk) s = .next s) ∧
  (∀ (bytes : List (BitVec 8)) (recOk : Bool) (i : Image) (s : State), s.imgRecord = some i → s.rd .imgState = 1 →
    s.rd .glbBootStage = 3 → recOk = true → sha384 ((bytes.take (i.imgLen - 128)).map BitVec.toNat) = i.digest →
    ∃ t, exec (.deepImageRereadDone bytes recOk) s = .next t ∧
      t.candidate = some i ∧ t.imgRecord = some i ∧ t.rd .glbBootStage = 4 ∧ t.rd .glbSeqStep = 8 ∧
      Changes { s with candidate := some i } t 0 [.glbBootStage, .glbSeqStep]) ∧
  (∀ (bytes : List (BitVec 8)) (recOk : Bool) (i : Image) (s : State), s.imgRecord = some i → s.rd .imgState = 1 →
    s.rd .glbBootStage = 3 → recOk = true → sha384 ((bytes.take (i.imgLen - 128)).map BitVec.toNat) ≠ i.digest →
    ∃ t, exec (.deepImageRereadDone bytes recOk) s = .next t ∧
      t = { s with imgRecord := none }) ∧
  (∀ (bytes : List (BitVec 8)) (recOk : Bool) (s : State), s.imgRecord ≠ none → s.rd .imgState = 1 →
    s.rd .glbBootStage = 3 → recOk = false → ∃ t, exec (.deepImageRereadDone bytes recOk) s = .next t ∧
      t.imgRecord = none ∧ t.candidate = s.candidate ∧ t.rd .pwrRetFail = 1 ∧
      (t.rd .pwrIntStatus).testBit Irq.pwrRetFail = true ∧
      Changes { s with imgRecord := none } t 0 [.pwrRetFail, .pwrIntStatus]) ∧
  (∀ (a : BitVec 8) (b : BitVec 8) (s : State),
    (s.candidate = none ∨ ((s.rd .imgState ≠ 1 ∨ s.rd .glbBootStage ≠ 4 ∨ s.pllsSettled = false) ∧
      (s.rd .imgState ≠ 6 ∨ (List.range 8).all s.txQuiet = false))) → exec (.bootCommitDone a b) s = .next s) ∧
  (∀ (a : BitVec 8) (b : BitVec 8) (i : Image) (s : State), s.candidate = some i → s.rd .imgState = 1 →
    s.rd .glbBootStage = 4 → s.pllsSettled = true → s.imgRecord = none → ∃ t, exec (.bootCommitDone a b) s = .next t ∧
      t.candidate = none ∧ t.rd .imgState = 2 ∧ t.rd .glbBootStage = 5 ∧ t.rd .glbSeqStep = 10 ∧
      t.rd .imgActiveSlot = s.bootSlotOf ∧ t.running = some i ∧ t.rd .pwrDomLane = 255 ∧ t.rd .pwrDomHost = 15 ∧
      t.rd .pwrDomXbar = 1 ∧ t.rd .pwrDomDecode = 255) ∧
  (∀ (a : BitVec 8) (b : BitVec 8) (i : Image) (s : State), s.candidate = some i → s.rd .imgState = 1 →
    s.rd .glbBootStage = 4 → s.pllsSettled = true → s.imgRecord ≠ none → s.standbyHeld = false →
    s.on .pwrStandbySw = false → s.rd .pwrRecImgSlot < 2 → ∃ t, exec (.bootCommitDone a b) s = .next t ∧
      t.candidate = none ∧ t.imgRecord = none ∧ t.rd .imgState = 2 ∧ t.rd .imgActiveSlot = s.rd .pwrRecImgSlot ∧
      t.running = some i ∧ t.rd .glbBootStage ∈ [6, 7] ∧ t.retained = []) ∧
  (∀ (a : BitVec 8) (b : BitVec 8) (i : Image) (s : State), s.Inv → s.candidate = some i → s.rd .imgState = 6 →
    (List.range 8).all s.txQuiet = true → ∃ t, exec (.bootCommitDone a b) s = .next t ∧
      t.rd .imgState = 2 ∧ t.running = some i ∧ t.rd .imgActiveSlot = s.rd .imgOpSlot ∧ t.rd .imgRestart = 1 ∧
      t.rd .pllState 4 = 1 ∧ (s.rd .glbBootStage = 9 → t.rd .glbBootStage = 5)) ∧
  (∀ (s : State),
    ((s.rd .glbBootStage ≠ 5 ∧ s.on .imgRestart = false) ∨ s.pllsSettled = false ∨
      s.tests.all (fun t => !s.bootTestOpen t) = false) → exec (.bootBistDone) s = .next s) ∧
  (∀ (s : State), s.rd .glbBootStage = 5 → s.pllsSettled = true → s.tests = [] → s.standbyHeld = false →
    s.on .pwrStandbySw = false → (∀ n ∈ List.range 8, s.on .lrxHeldOff n = false) →
    ∃ t, exec (.bootBistDone) s = .next t ∧
      (t.rd .hltIntStatus).testBit Irq.hltBootBistDone = true ∧ t.rd .glbBootStage ∈ [6, 7] ∧ t.rd .glbSeqStep = 11 ∧
      t.rd .pwrStartup = 0 ∧ t.rd .imgRestart = 0 ∧
      (List.range 8).all (fun n => s.maskBit .cmisDpDeinit n || t.on .lrxEnable n) = true) ∧
  (∀ (s : State), s.rd .glbBootStage = 5 → s.pllsSettled = true → s.tests = [] → s.on .pwrLpmode = true →
    s.on .pwrLpmodeEn = true → ∃ t, exec (.bootBistDone) s = .next t ∧
      t.rd .glbBootStage = 8 ∧ t.rd .glbBootFailStage = 6 ∧ t.rd .pwrStartup = 0 ∧
      (t.rd .hltIntStatus).testBit Irq.hltBootBistDone = true)

/-- With MGMT off none of these rows does anything. With it on: a narrow access, one to an unmapped address, one to a
powered-down island and a write of the NVM window raise BUS_ERR, the island's also counted; their reads return 0,
their writes keep the last answer. Of a mapped, or powered, address those rows do nothing. A write of the throttle
register clamps WARN_C, THR_C from the new WARN_C up, stores HYST_C, and changes the locked CRIT_C in Blank and
Manufacturing only. The overflow clear written 1 clears its count, written 0 nothing. A write of the AGC register of a
powered lane under no test, receiver not in OFF, stores its fields clamped and marks the owned ones overridden,
through either row; the override row does nothing at a register without owned fields. A write of a line receiver's
status clears the bits it names, one of its force register sets those it has; at other registers, or at none, the rows
do nothing. With MGMT and TIME on, a read of the lowest TOD word returns it and snapshots the next three; one of the
second word with a snapshot held returns that and keeps it. A read of an address without a register returns 0 with
BUS_ERR. Word 0 of a fault-source pair, with nothing staged, is only staged; word 1 after it puts window, action and
threshold, clamped, into use, and closes the source's windows. It concludes, from conditions on the state and the
operands alone, that exec answers a next state with the command's own effect, of: narrowAccess, unmappedAccess,
registerWrite, rgStoppedAccess, expertOverrideWrite, intStatusClear, intForceWrite, snapshotRead, hltSrcCfgWrite. From
rules R15, R16, R17, R19, R21, R292, R334, R411, R412, R461, R505, R506. -/
def Obligations.RegisterFabric : Prop :=
  (∀ (a : Word) (w : Word) (s : State), s.on .pwrDomMgmt = false → exec (.registerWrite a w) s = .next s) ∧
  (∀ (x : Bool) (s : State), s.on .pwrDomMgmt = false → exec (.narrowAccess x) s = .next s) ∧
  (∀ (a : Word) (x : Bool) (s : State), s.on .pwrDomMgmt = false → exec (.unmappedAccess a x) s = .next s) ∧
  (∀ (a : Word) (s : State), s.on .pwrDomMgmt = false → exec (.snapshotRead a) s = .next s) ∧
  (∀ (a : Word) (w : Word) (s : State), s.on .pwrDomMgmt = false → exec (.intStatusClear a w) s = .next s) ∧
  (∀ (a : Word) (w : Word) (s : State), s.on .pwrDomMgmt = false → exec (.intForceWrite a w) s = .next s) ∧
  (∀ (a : Word) (w : Word) (s : State), s.on .pwrDomMgmt = false → exec (.expertOverrideWrite a w) s = .next s) ∧
  (∀ (a : Word) (x : Bool) (s : State), s.on .pwrDomMgmt = false → exec (.rgStoppedAccess a x) s = .next s) ∧
  (∀ (i : Fin 16) (x : Bool) (w : Word) (s : State), s.on .pwrDomMgmt = false →
    exec (.hltSrcCfgWrite i x w) s = .next s) ∧
  (∀ (x : Bool) (s : State), s.on .pwrDomMgmt = true → ∃ t, exec (.narrowAccess x) s = .next t ∧
      (t.rd .glbIntStatus).testBit Irq.glbBusErr = true ∧ (t.answer = if x then s.answer else [0]) ∧ OnlyIn [.glb] s t) ∧
  (∀ (a : Word) (x : Bool) (s : State), s.on .pwrDomMgmt = true → unmappedAt a.toNat = true →
    ∃ t, exec (.unmappedAccess a x) s = .next t ∧
      (t.rd .glbIntStatus).testBit Irq.glbBusErr = true ∧ (t.answer = if x then s.answer else [0]) ∧ OnlyIn [.glb] s t) ∧
  (∀ (a : Word) (x : Bool) (s : State), unmappedAt a.toNat = false → exec (.unmappedAccess a x) s = .next s) ∧
  (∀ (a : Word) (w : Word) (s : State), s.on .pwrDomMgmt = true → unmappedAt a.toNat = true →
    ∃ t, exec (.registerWrite a w) s = .next t ∧
      (t.rd .glbIntStatus).testBit Irq.glbBusErr = true ∧ Changes s t 0 [.glbIntStatus]) ∧
  (∀ (a : Word) (w : Word) (s : State), s.on .pwrDomMgmt = true → inCmis a.toNat = false → inNvm a.toNat = true →
    ∃ t, exec (.registerWrite a w) s = .next t ∧
      (t.rd .glbIntStatus).testBit Irq.glbBusErr = true ∧ Changes s t 0 [.glbIntStatus]) ∧
  (∀ (a : Word) (w : Word) (r : Reg) (s : State), s.on .pwrDomMgmt = true → inCmis a.toNat = false →
    inNvm a.toNat = false → regAt a.toNat = some r → s.powered r.block r.inst = false →
    ∃ t, exec (.registerWrite a w) s = .next t ∧
      (t.rd .glbIntStatus).testBit Irq.glbBusErr = true ∧
      t.rd .clkRgStoppedCnt = min (s.rd .clkRgStoppedCnt + 1) (2 ^ Field.width .clkRgStoppedCnt - 1) ∧
      Changes s t 0 [.glbIntStatus, .clkRgStoppedCnt]) ∧
  (∀ (a : Word) (x : Bool) (r : Reg) (s : State), s.on .pwrDomMgmt = true → regAt a.toNat = some r →
    s.powered r.block r.inst = false → ∃ t, exec (.rgStoppedAccess a x) s = .next t ∧
      (t.rd .glbIntStatus).testBit Irq.glbBusErr = true ∧
      t.rd .clkRgStoppedCnt = min (s.rd .clkRgStoppedCnt + 1) (2 ^ Field.width .clkRgStoppedCnt - 1) ∧
      (t.answer = if x then s.answer else [0]) ∧ OnlyIn [.glb, .clk] s t) ∧
  (∀ (a : Word) (x : Bool) (r : Reg) (s : State), regAt a.toNat = some r → s.powered r.block r.inst = true →
    exec (.rgStoppedAccess a x) s = .next s) ∧
  (∀ (a : Word) (x : Bool) (s : State), regAt a.toNat = none → exec (.rgStoppedAccess a x) s = .next s) ∧
  (∀ (a : Word) (w : Word) (s : State), s.on .pwrDomMgmt = true → a.toNat = 0x710004 →
    ∃ t, exec (.registerWrite a w) s = .next t ∧
      t.rd .thmWarnC = clampNat 80 110 (w.toNat % 2 ^ 8) ∧
      t.rd .thmThrC = clampNat (clampNat 80 110 (w.toNat % 2 ^ 8)) 110 (w.toNat / 2 ^ 8 % 2 ^ 8) ∧
      t.rd .thmHystC = w.toNat / 2 ^ 24 % 8 ∧
      (s.rd .secLcState ≤ 1 → t.rd .thmCritC = clampNat 105 120 (w.toNat / 2 ^ 16 % 2 ^ 8)) ∧
      (¬ s.rd .secLcState ≤ 1 → t.rd .thmCritC = s.rd .thmCritC) ∧
      Changes s t 0 [.thmWarnC, .thmThrC, .thmHystC, .thmCritC]) ∧
  (∀ (a : Word) (w : Word) (s : State), s.on .pwrDomMgmt = true → a.toNat = 0x10044 → 2 ^ 31 ≤ w.toNat →
    s.on .glbStraitClr = false → ∃ t, exec (.registerWrite a w) s = .next t ∧
      t.rd .glbStraitOvfCount = 0 ∧ OnlyIn [.glb] s t) ∧
  (∀ (a : Word) (w : Word) (s : State), s.on .pwrDomMgmt = true → a.toNat = 0x10044 → w.toNat < 2 ^ 31 →
    exec (.registerWrite a w) s = .next s) ∧
  (∀ (a : Word) (w : Word) (n : Lane) (s : State), s.on .pwrDomMgmt = true → s.powered .lrx n = true →
    s.underTest 1 n = false → s.underTest 4 n = false → a.toNat = 0x100010 + 0x10000 * n → 1 ≤ s.rd .lrxState n →
    ∃ t, exec (.registerWrite a w) s = .next t ∧
      t.rd .lrxAgcTarget n = clampNat 24 80 (w.toNat % 2 ^ 7) ∧ t.rd .lrxAgcSh n = w.toNat / 2 ^ 16 % 4 ∧
      t.maskBit .lrxOverride 1 n = true ∧ t.rd .lrxTrimEn n = w.toNat / 2 ^ 23 % 2 ∧
      t.rd .lrxTrimRange n = clampNat 8 96 (w.toNat / 2 ^ 24) ∧
      Changes s t n [.lrxAgcTarget, .lrxAgcSh, .lrxOverride, .lrxTrimEn, .lrxTrimRange]) ∧
  (∀ (a : Word) (w : Word) (n : Lane) (s : State), s.on .pwrDomMgmt = true → s.powered .lrx n = true →
    s.underTest 1 n = false → s.underTest 4 n = false → a.toNat = 0x100010 + 0x10000 * n → 1 ≤ s.rd .lrxState n →
    ∃ t, exec (.expertOverrideWrite a w) s = .next t ∧
      t.rd .lrxAgcTarget n = clampNat 24 80 (w.toNat % 2 ^ 7) ∧ t.rd .lrxAgcSh n = w.toNat / 2 ^ 16 % 4 ∧
      t.maskBit .lrxOverride 1 n = true ∧ t.rd .lrxTrimEn n = w.toNat / 2 ^ 23 % 2 ∧
      t.rd .lrxTrimRange n = clampNat 8 96 (w.toNat / 2 ^ 24) ∧
      Changes s t n [.lrxAgcTarget, .lrxAgcSh, .lrxOverride, .lrxTrimEn, .lrxTrimRange]) ∧
  (∀ (a : Word) (w : Word) (r : Reg) (s : State), regAt a.toNat = some r →
    r.slots.any (fun l => (presetOwner l.field).isSome) = false → exec (.expertOverrideWrite a w) s = .next s) ∧
  (∀ (a : Word) (w : Word) (n : Lane) (s : State), s.Inv → s.on .pwrDomMgmt = true → s.powered .lrx n = true →
    a.toNat = 0x1000F0 + 0x10000 * n → ∃ t, exec (.intStatusClear a w) s = .next t ∧
      t.rd .lrxIntStatus n = s.rd .lrxIntStatus n - (s.rd .lrxIntStatus n &&& w.toNat) ∧ Changes s t n [.lrxIntStatus]) ∧
  (∀ (a : Word) (w : Word) (r : Reg) (s : State), regAt a.toNat = some r → r.isStatus = false →
    exec (.intStatusClear a w) s = .next s) ∧
  (∀ (a : Word) (w : Word) (n : Lane) (s : State), s.Inv → s.on .pwrDomMgmt = true → s.powered .lrx n = true →
    a.toNat = 0x1000F8 + 0x10000 * n → ∃ t, exec (.intForceWrite a w) s = .next t ∧
      t.rd .lrxIntStatus n = s.rd .lrxIntStatus n ||| w.toNat % 2 ^ 11 ∧ Changes s t n [.lrxIntStatus]) ∧
  (∀ (a : Word) (w : Word) (s : State), regAt a.toNat = none → exec (.intForceWrite a w) s = .next s) ∧
  (∀ (a : Word) (s : State), s.on .pwrDomMgmt = true → s.on .pwrDomTime = true → a.toNat = 0x400010 →
    ∃ t, exec (.snapshotRead a) s = .next t ∧
      t.answer = [s.todWords % 2 ^ 32] ∧ wordIn t.snaps 0x400014 = some (s.todWords / 2 ^ 32 % 2 ^ 32) ∧
      wordIn t.snaps 0x400018 = some (s.todWords / 2 ^ 64 % 2 ^ 32) ∧
      wordIn t.snaps 0x40001C = some (s.todWords / 2 ^ 96 % 2 ^ 32) ∧ OnlyIn [.glb] s t) ∧
  (∀ (a : Word) (v : Nat) (s : State), s.on .pwrDomMgmt = true → s.on .pwrDomTime = true → a.toNat = 0x400014 →
    wordIn s.snaps 0x400014 = some v → ∃ t, exec (.snapshotRead a) s = .next t ∧
      t.answer = [v] ∧ t.snaps = s.snaps ∧ OnlyIn [.glb] s t) ∧
  (∀ (a : Word) (s : State), s.on .pwrDomMgmt = true → inCmis a.toNat = false → inNvm a.toNat = false →
    regAt a.toNat = none → ∃ t, exec (.snapshotRead a) s = .next t ∧
      t.answer = [0] ∧ (t.rd .glbIntStatus).testBit Irq.glbBusErr = true ∧ OnlyIn [.glb] s t) ∧
  (∀ (i : Fin 16) (x : Bool) (w : Word) (s : State), s.on .pwrDomMgmt = true → x = false → s.staged = [] →
    ∃ t, exec (.hltSrcCfgWrite i x w) s = .next t ∧
      t.staged = [(0x720100 + 8 * i.val, w.toNat)] ∧ t = { s with staged := t.staged }) ∧
  (∀ (i : Fin 16) (x : Bool) (w : Word) (v : Word) (s : State), s.on .pwrDomMgmt = true → x = true →
    s.staged = [(0x720100 + 8 * i.val, v.toNat)] → ∃ t, exec (.hltSrcCfgWrite i x w) s = .next t ∧
      t.rd .hltWinUs 0 i = clampNat 100 60000000 (v.toNat % 2 ^ 26) ∧ t.rd .hltAction 0 i = w.toNat / 2 ^ 30 ∧
      t.rd .hltThresh 0 i = clampNat 1 1023 (w.toNat % 2 ^ 10) ∧ t.staged = [] ∧
      (List.range 16).all (fun k => !t.on .hltWinOpen i k) = true ∧ OnlyIn [.hlt] s t)

/-- A transaction to another address is not answered, nor is a write while MGMT is off outside Deep; in Deep a read
with source MANAGEMENT enabled starts the wake, unanswered. While the firmware restarts a write takes no byte. Else a
write of two bytes at 126 selects bank and page; one into page A0h stores its bytes there and nowhere else and answers
how many it took, at offset 255 only the first. With MGMT on a read answers the bytes of the selected page from its
offset, up to offset 255, and writes no page. A host write by MC_PAGE_HOST_WRITE of a page not served, of a device
page or of one without a buffer, or with MGMT off or the firmware down, changes nothing; of a module-controller page
with a buffer, within the page, it fills the buffer, sets its NOTIFY bit with MC_WRITE, and writes no page. With MGMT
on: ENTDAA, and SETDASA of the device's address, assign a dynamic address in I2C mode; ENTDAA in I3C mode or with MGMT
off does nothing; SETNEWDA changes it in I3C mode and RSTDAA drops it. In I3C mode GETPID answers six bytes, GETBCR
and GETDCR one, GETSTATUS two, GETMWL and GETMRL their value high byte first; SETMWL and SETMRL store at most 128 and
256. An unsupported code is NACKed, and in I2C mode so are GETPID, GETBCR, GETMWL and GETSTATUS. The last sentence,
the values of the identification bytes and the two limits are the model's choice (log entry 22). It concludes, from
conditions on the state and the operands alone, that exec answers a next state with the command's own effect, of:
hostBusWrite, hostBusRead, mcPageHostWrite, i3cEntdaa, i3cSetdasa, i3cSetnewda, i3cRstdaa, i3cGetpid, i3cGetbcr,
i3cGetdcr, i3cGetstatus, i3cGetmwl, i3cGetmrl, i3cSetmwl, i3cSetmrl, i3cUnsupportedCcc. From rules R369, R370, R435,
R436, R441, R443, R437. -/
def Obligations.HostBusAndI3c : Prop :=
  (∀ (g : BitVec 7) (off : BitVec 8) (d : List (BitVec 8)) (s : State), g.toNat ≠ s.busAddr →
    ∃ t, exec (.hostBusWrite g off d) s = .next t ∧
      t = { s with answer := [] }) ∧
  (∀ (g : BitVec 7) (off : BitVec 8) (k : BitVec 9) (s : State), g.toNat ≠ s.busAddr →
    ∃ t, exec (.hostBusRead g off k) s = .next t ∧
      t = { s with answer := [] }) ∧
  (∀ (g : BitVec 7) (off : BitVec 8) (d : List (BitVec 8)) (s : State), g.toNat = s.busAddr →
    s.on .pwrDomMgmt = false → s.rd .pwrDevState ≠ 5 → ∃ t, exec (.hostBusWrite g off d) s = .next t ∧
      t = { s with answer := [] }) ∧
  (∀ (g : BitVec 7) (off : BitVec 8) (k : BitVec 9) (s : State), g.toNat = s.busAddr → s.on .pwrDomMgmt = false →
    s.rd .pwrDevState = 5 → s.maskBit .pwrWakeEn 2 = true → ∃ t, exec (.hostBusRead g off k) s = .next t ∧
      t.answer = [] ∧ t.rd .pwrDevState = 6 ∧ t.rd .pwrSupplyWait = 1) ∧
  (∀ (g : BitVec 7) (off : BitVec 8) (d : List (BitVec 8)) (s : State), g.toNat = s.busAddr →
    s.on .pwrDomMgmt = true → s.on .mgtFwDown = true → ∃ t, exec (.hostBusWrite g off d) s = .next t ∧
      t = { s with answer := [0] }) ∧
  (∀ (g : BitVec 7) (off : BitVec 8) (d : List (BitVec 8)) (b : BitVec 8) (p : BitVec 8) (s : State),
    g.toNat = s.busAddr → s.on .pwrDomMgmt = true → s.on .mgtFwDown = false → off = 126 → d = [b, p] →
    ∃ t, exec (.hostBusWrite g off d) s = .next t ∧
      t.rd .hbBank = b.toNat ∧ t.rd .hbPage = p.toNat ∧ t.answer = [2] ∧
      Changes { s with answer := [2] } t 0 [.hbBank, .hbPage]) ∧
  (∀ (g : BitVec 7) (off : BitVec 8) (d : List (BitVec 8)) (s : State), g.toNat = s.busAddr →
    s.on .pwrDomMgmt = true → s.on .mgtFwDown = false → s.rd .hbPage = 0xA0 → 128 ≤ off.toNat →
    off.toNat + d.length ≤ 256 → ∃ t, exec (.hostBusWrite g off d) s = .next t ∧
      t.answer = [d.length] ∧ t.pages.getMany (0x5000 + (off.toNat - 128)) d.length = d.map BitVec.toNat ∧
      SameOutside s.pages t.pages (0x5000 + (off.toNat - 128)) d.length ∧
      t = { s with pages := t.pages, answer := t.answer }) ∧
  (∀ (g : BitVec 7) (off : BitVec 8) (d : List (BitVec 8)) (v : BitVec 8) (w : BitVec 8) (s : State),
    g.toNat = s.busAddr → s.on .pwrDomMgmt = true → s.on .mgtFwDown = false → s.rd .hbPage = 0xA0 → off = 255 →
    d = [v, w] → ∃ t, exec (.hostBusWrite g off d) s = .next t ∧
      t.answer = [1] ∧ t.pages.get 0x507F = v.toNat ∧ t.pages.get 0x5080 = s.pages.get 0x5080) ∧
  (∀ (g : BitVec 7) (off : BitVec 8) (k : BitVec 9) (s : State), g.toNat = s.busAddr → s.on .pwrDomMgmt = true →
    ∃ t, exec (.hostBusRead g off k) s = .next t ∧
      t.answer = (List.range (min k.toNat (256 - off.toNat))).map (fun x => s.pageByte (s.rd .hbBank) (s.rd .hbPage)
        (off.toNat + x)) ∧ t.pages = s.pages ∧ OnlyIn [.mgt] s t) ∧
  (∀ (b : BitVec 1) (p : BitVec 8) (off : BitVec 7) (d : List (BitVec 8)) (s : State),
    (s.on .pwrDomMgmt = false ∨ s.on .mgtFwDown = true ∨ s.pageServed p.toNat = false ∨ devicePage p.toNat = true ∨
      s.mcBuffer b.toNat p.toNat = none) → exec (.mcPageHostWrite b p off d) s = .next s) ∧
  (∀ (b : BitVec 1) (p : BitVec 8) (off : BitVec 7) (d : List (BitVec 8)) (m : Nat) (s : State),
    s.on .pwrDomMgmt = true → s.on .mgtFwDown = false → s.pageServed p.toNat = true → devicePage p.toNat = false →
    s.mcBuffer b.toNat p.toNat = some m → off.toNat + d.length ≤ 128 →
    ∃ t, exec (.mcPageHostWrite b p off d) s = .next t ∧
      t.maskBit .mgtMcNotify m = true ∧ (t.rd .mgtIntStatus).testBit Irq.mgtMcWrite = true ∧
      t.bufs.getMany (0x80 * m + off.toNat) d.length = d.map BitVec.toNat ∧ t.pages = s.pages) ∧
  (∀ (a : BitVec 7) (s : State), s.on .pwrDomMgmt = true → s.on .mgtI3cMode = false →
    ∃ t, exec (.i3cEntdaa a) s = .next t ∧
      t.rd .mgtI3cMode = 1 ∧ t.rd .hbDyn = a.toNat ∧ Changes s t 0 [.mgtI3cMode, .hbDyn]) ∧
  (∀ (a : BitVec 7) (s : State), (s.on .pwrDomMgmt = false ∨ s.on .mgtI3cMode = true) →
    exec (.i3cEntdaa a) s = .next s) ∧
  (∀ (g : BitVec 7) (a : BitVec 7) (s : State), s.on .pwrDomMgmt = true → g.toNat = s.rd .mgtHbAddr →
    s.on .mgtI3cMode = false → ∃ t, exec (.i3cSetdasa g a) s = .next t ∧
      t.rd .mgtI3cMode = 1 ∧ t.rd .hbDyn = a.toNat ∧ Changes s t 0 [.mgtI3cMode, .hbDyn]) ∧
  (∀ (g : BitVec 7) (a : BitVec 7) (s : State), s.on .pwrDomMgmt = true → g.toNat = s.rd .hbDyn →
    s.on .mgtI3cMode = true → ∃ t, exec (.i3cSetnewda g a) s = .next t ∧
      t.rd .hbDyn = a.toNat ∧ Changes s t 0 [.hbDyn]) ∧
  (∀ (s : State), s.on .pwrDomMgmt = true → ∃ t, exec (.i3cRstdaa) s = .next t ∧
      t.rd .mgtI3cMode = 0 ∧ t.rd .hbDyn = 0 ∧ Changes s t 0 [.mgtI3cMode, .hbDyn]) ∧
  (∀ (g : BitVec 7) (s : State), s.on .pwrDomMgmt = true → g.toNat = s.rd .hbDyn → s.on .mgtI3cMode = true →
    ∃ t, exec (.i3cGetpid g) s = .next t ∧
      t.answer.length = 6 ∧ t = { s with answer := t.answer }) ∧
  (∀ (g : BitVec 7) (s : State), s.on .pwrDomMgmt = true → g.toNat = s.rd .hbDyn → s.on .mgtI3cMode = true →
    ∃ t, exec (.i3cGetbcr g) s = .next t ∧
      t.answer.length = 1 ∧ t = { s with answer := t.answer }) ∧
  (∀ (g : BitVec 7) (s : State), s.on .pwrDomMgmt = true → g.toNat = s.rd .hbDyn → s.on .mgtI3cMode = true →
    ∃ t, exec (.i3cGetdcr g) s = .next t ∧
      t.answer.length = 1 ∧ t = { s with answer := t.answer }) ∧
  (∀ (g : BitVec 7) (s : State), s.on .pwrDomMgmt = true → g.toNat = s.rd .hbDyn → s.on .mgtI3cMode = true →
    ∃ t, exec (.i3cGetstatus g) s = .next t ∧
      t.answer.length = 2 ∧ t.regs = s.regs ∧ t.pages = s.pages) ∧
  (∀ (g : BitVec 7) (s : State), s.on .pwrDomMgmt = true → g.toNat = s.rd .hbDyn → s.on .mgtI3cMode = true →
    ∃ t, exec (.i3cGetmwl g) s = .next t ∧
      t.answer = [s.rd .hbMwl / 256 % 256, s.rd .hbMwl % 256] ∧ t = { s with answer := t.answer }) ∧
  (∀ (g : BitVec 7) (s : State), s.on .pwrDomMgmt = true → g.toNat = s.rd .hbDyn → s.on .mgtI3cMode = true →
    ∃ t, exec (.i3cGetmrl g) s = .next t ∧
      t.answer = [s.rd .hbMrl / 256 % 256, s.rd .hbMrl % 256] ∧ t = { s with answer := t.answer }) ∧
  (∀ (g : BitVec 7) (v : BitVec 16) (s : State), s.on .pwrDomMgmt = true → g.toNat = s.rd .hbDyn →
    s.on .mgtI3cMode = true → ∃ t, exec (.i3cSetmwl g v) s = .next t ∧
      t.rd .hbMwl = min v.toNat 128 ∧ Changes s t 0 [.hbMwl]) ∧
  (∀ (g : BitVec 7) (v : BitVec 16) (s : State), s.on .pwrDomMgmt = true → g.toNat = s.rd .hbDyn →
    s.on .mgtI3cMode = true → ∃ t, exec (.i3cSetmrl g v) s = .next t ∧
      t.rd .hbMrl = min v.toNat 256 ∧ Changes s t 0 [.hbMrl]) ∧
  (∀ (s : State), True → ∃ t, exec (.i3cUnsupportedCcc) s = .next t ∧
      t = { s with answer := [] }) ∧
  (∀ (g : BitVec 7) (s : State), s.on .pwrDomMgmt = true → g.toNat = s.busAddr → s.on .mgtI3cMode = false →
    ∃ t, exec (.i3cGetpid g) s = .next t ∧
      t = { s with answer := [] }) ∧
  (∀ (g : BitVec 7) (s : State), s.on .pwrDomMgmt = true → g.toNat = s.busAddr → s.on .mgtI3cMode = false →
    ∃ t, exec (.i3cGetbcr g) s = .next t ∧
      t = { s with answer := [] }) ∧
  (∀ (g : BitVec 7) (s : State), s.on .pwrDomMgmt = true → g.toNat = s.busAddr → s.on .mgtI3cMode = false →
    ∃ t, exec (.i3cGetmwl g) s = .next t ∧
      t = { s with answer := [] }) ∧
  (∀ (g : BitVec 7) (s : State), s.on .pwrDomMgmt = true → g.toNat = s.busAddr → s.on .mgtI3cMode = false →
    ∃ t, exec (.i3cGetstatus g) s = .next t ∧
      t = { s with answer := [] })

/-- With the firmware up a window access that waits completes: at a denied address a read answers zeros and both give
status 2; a read of the stepping register answers it and steps WIN_ADDR under AUTO_INC, a write of the AON threshold
register stores it clamped; with none waiting, or the firmware down, neither does anything. With MGMT off outside Deep
an SPI write is not answered; with it on, two words go to consecutive registers, a read of two from the event FIFO
answers two tags of an empty one or its two oldest words, and an unknown command sets SPI_ERR. With the firmware up
the CMIS controls set LPMODE_EN, the pattern of a transmitter in OFF, and a host lane's patterns, clamped; DPDeinit is
recorded before step 11; from then on 1 takes a lane under no test, transmitter in OFF, to OFF with both enables 0,
and 0 enables one in OFF that is not held; DPInit of a lane in OFF writes its presets and polarity; LowPwrRequestSW
writes STANDBY_SW where it differs. With the firmware down none acts. Register messages read and write one word, and
are refused with code 6 at a denied address; with none waiting they do nothing. It concludes, from conditions on the
state and the operands alone, that exec answers a next state with the command's own effect, of: windowRead,
windowWrite, spiWrite, spiRead, spiUnknownCmd, cmisControlAct, cmisDpdeinit, cmisApplyDpinit, cmisLowpwrRequestSw,
msgRegRead, msgRegWrite. From rules R369, R370, R434, R438, R439, R444, R457, R478, R505. -/
def Obligations.WindowSpiAndControls : Prop :=
  (∀ (s : State), (s.fwUp = false ∨ s.winCode ≠ 1) → exec (.windowRead) s = .next s) ∧
  (∀ (s : State), s.fwUp = true → s.winCode = 1 → deniedAt s.winAddr = true → ∃ t, exec (.windowRead) s = .next t ∧
      t.pages.getMany 0x5804 4 = [0, 0, 0, 0] ∧ t.pages.get 0x5809 = 2 ∧ t.pages.get 0x5808 = 0 ∧
      t = { s with pages := t.pages }) ∧
  (∀ (s : State), s.Inv → s.fwUp = true → s.winCode = 1 → s.winAddr = 0x10004 → s.pages.get 0x5808 = 0x81 →
    ∃ t, exec (.windowRead) s = .next t ∧
      t.pages.getMany 0x5804 4 = bytesOf (0x3208 * 2 ^ 16 + s.rd .glbGrade * 2 ^ 8 + 0x21) ∧ t.pages.get 0x5809 = 0 ∧
      t.pages.get 0x5808 = 0 ∧ t.pages.word 0x5800 = 0x10008 ∧ t = { s with pages := t.pages }) ∧
  (∀ (s : State), (s.fwUp = false ∨ s.winCode ≠ 2) → exec (.windowWrite) s = .next s) ∧
  (∀ (s : State), s.fwUp = true → s.winCode = 2 → deniedAt s.winAddr = true → ∃ t, exec (.windowWrite) s = .next t ∧
      t.pages.get 0x5809 = 2 ∧ t.pages.get 0x5808 = 0 ∧ t = { s with pages := t.pages }) ∧
  (∀ (s : State), s.fwUp = true → s.winCode = 2 → s.winAddr = 0x7100E0 → ∃ t, exec (.windowWrite) s = .next t ∧
      t.rd .thmAonWakeC = min (s.pages.word 0x5804 % 2 ^ 8) 120 ∧ t.rd .thmAonDir = s.pages.word 0x5804 / 2 ^ 8 % 2 ∧
      t.pages.get 0x5809 = 0 ∧ t.pages.get 0x5808 = 0 ∧ OnlyIn [.thm] s t) ∧
  (∀ (a : Word) (d : List (BitVec 8)) (s : State), s.on .pwrDomMgmt = false → s.rd .pwrDevState ≠ 5 →
    ∃ t, exec (.spiWrite a d) s = .next t ∧
      t = { s with answer := [] }) ∧
  (∀ (a : Word) (d : List (BitVec 8)) (v : Word) (w : Word) (s : State), s.on .pwrDomMgmt = true → a = 0x71000C →
    wholeWords (d.map BitVec.toNat) = [v.toNat, w.toNat] → ∃ t, exec (.spiWrite a d) s = .next t ∧
      t.rd .thmResumeC = clampNat 80 110 (v.toNat / 2 ^ 16 % 2 ^ 8) ∧
      t.rd .thmRecoverMs = clampNat 100 65535 (v.toNat % 2 ^ 16) ∧
      t.rd .thmCalSh = clampNat 2 8 (w.toNat / 2 ^ 8 % 2 ^ 4) ∧
      t.rd .thmSensorFailC = clampNat 101 120 (w.toNat % 2 ^ 8) ∧
      Changes s t 0 [.thmResumeC, .thmRecoverMs, .thmCalSh, .thmSensorFailC]) ∧
  (∀ (a : Word) (k : BitVec 10) (s : State), s.on .pwrDomMgmt = true → a = 0x808000 → k = 2 → s.evf = [] →
    ∃ t, exec (.spiRead a k) s = .next t ∧
      t.answer = [emptyTag, emptyTag] ∧ OnlyIn [] s t) ∧
  (∀ (a : Word) (k : BitVec 10) (u : Nat) (v : Nat) (x : Nat) (s : State), s.on .pwrDomMgmt = true → a = 0x808000 →
    k = 2 → s.evf = [u, v, x] → s.on .evfXoff = false → ∃ t, exec (.spiRead a k) s = .next t ∧
      t.answer = [u, v] ∧ t.evf = [x] ∧ OnlyIn [.evf] s t) ∧
  (∀ (s : State), s.on .pwrDomMgmt = true → ∃ t, exec (.spiUnknownCmd) s = .next t ∧
      (t.rd .mgtIntStatus).testBit Irq.mgtSpiErr = true ∧ t.answer = [] ∧
      Changes { s with answer := [] } t 0 [.mgtIntStatus]) ∧
  (∀ (x : CmisControl) (s : State), s.fwUp = false → exec (.cmisControlAct x) s = .next s) ∧
  (∀ (x : CmisControl) (b : Bool) (s : State), s.fwUp = true → x = .lowPwrAllowHw b → s.on .pwrLpmode = false →
    ∃ t, exec (.cmisControlAct x) s = .next t ∧
      t.rd .pwrLpmodeEn = bit b ∧ Changes s t 0 [.pwrLpmodeEn]) ∧
  (∀ (x : CmisControl) (n : Lane) (v : BitVec 3) (s : State), s.fwUp = true → x = .linePattern n v →
    s.powered .ltx n = true → s.rd .ltxState n = 0 → ∃ t, exec (.cmisControlAct x) s = .next t ∧
      t.rd .ltxPatSel n = v.toNat ∧ t.use .ltxPatSel n = v.toNat) ∧
  (∀ (x : CmisControl) (h : HostLane) (v : BitVec 3) (w : BitVec 3) (s : State), s.fwUp = true →
    x = .hostPattern h v w → s.powered .hif h = true → ∃ t, exec (.cmisControlAct x) s = .next t ∧
      t.rd .hifTxPat h = clampNat (Field.desc .hifTxPat).least (Field.desc .hifTxPat).most v.toNat ∧
      t.rd .hifRxChk h = clampNat (Field.desc .hifRxChk).least (Field.desc .hifRxChk).most w.toNat ∧
      Changes s t h [.hifTxPat, .hifRxChk]) ∧
  (∀ (n : Lane) (v : Bool) (s : State), s.fwUp = false → exec (.cmisDpdeinit n v) s = .next s) ∧
  (∀ (n : Lane) (v : Bool) (s : State), s.fwUp = true → s.rd .glbSeqStep < 11 →
    ∃ t, exec (.cmisDpdeinit n v) s = .next t ∧
      t.maskBit .cmisDpDeinit n = v ∧ OnlyIn [.mgt] s t) ∧
  (∀ (n : Lane) (v : Bool) (s : State), s.fwUp = true → 11 ≤ s.rd .glbSeqStep → v = true → s.powered .lrx n = true →
    s.underTest 1 n = false → s.underTest 4 n = false → s.rd .ltxState n = 0 →
    ∃ t, exec (.cmisDpdeinit n v) s = .next t ∧
      t.maskBit .cmisDpDeinit n = true ∧ t.rd .lrxEnable n = 0 ∧ t.rd .ltxTxEn n = 0 ∧ t.rd .lrxState n = 0) ∧
  (∀ (n : Lane) (v : Bool) (s : State), s.fwUp = true → 11 ≤ s.rd .glbSeqStep → v = false →
    s.on .lrxHeldOff n = false → s.powered .lrx n = true → s.underTest 1 n = false → s.underTest 4 n = false →
    s.rd .lrxState n = 0 → ∃ t, exec (.cmisDpdeinit n v) s = .next t ∧
      t.maskBit .cmisDpDeinit n = false ∧ t.rd .lrxEnable n = 1) ∧
  (∀ (n : Lane) (x : ControlSet) (s : State), s.fwUp = true → s.powered .lrx n = true → s.underTest 1 n = false →
    s.underTest 4 n = false → s.rd .lrxState n = 0 → s.rd .ltxState n = 0 → x.txEn = false →
    ∃ t, exec (.cmisApplyDpinit n x) s = .next t ∧
      t.rd .lrxPreset n = x.receive.toNat ∧ t.rd .leqPreset n = x.equaliser.toNat ∧
      t.rd .ltxPreset n = x.transmit.toNat ∧ t.rd .ltxPolInv n = bit x.linePol ∧ t.rd .ltxTxEn n = 0 ∧
      t.rd .lrxOverride n = 0) ∧
  (∀ (v : Bool) (s : State), s.fwUp = false → exec (.cmisLowpwrRequestSw v) s = .next s) ∧
  (∀ (v : Bool) (s : State), s.fwUp = true → s.rd .pwrStandbySw = bit v → exec (.cmisLowpwrRequestSw v) s = .next s) ∧
  (∀ (v : Bool) (s : State), s.fwUp = true → v = true → s.rd .pwrStandbySw = 0 →
    ∃ t, exec (.cmisLowpwrRequestSw v) s = .next t ∧
      t.rd .pwrStandbySw = 1) ∧
  (∀ (s : State), s.mbxIn = [] → exec (.msgRegRead) s = .next s) ∧
  (∀ (tag : Nat) (s : State), s.Inv → s.mbxIn = [[2 + 2 * 2 ^ 8 + 16 * 2 ^ 16, tag, 0x10004, 1]] → tag < 65536 →
    s.fwUp = true → s.maskBit .secNvmBusy 2 = false → s.mbxOut = [] → ∃ t, exec (.msgRegRead) s = .next t ∧
      t.mbxIn = [] ∧
      t.mbxOut = [[2 + 2 * 2 ^ 8 + 12 * 2 ^ 16, tag, 0x3208 * 2 ^ 16 + s.rd .glbGrade * 2 ^ 8 + 0x21]] ∧
      (t.rd .mgtIntStatus).testBit Irq.mgtOutAvail = true ∧ OnlyIn [.mgt] s t) ∧
  (∀ (tag : Nat) (s : State), s.mbxIn = [[2 + 2 * 2 ^ 8 + 16 * 2 ^ 16, tag, 0x900010, 1]] → tag < 65536 →
    s.fwUp = true → s.maskBit .secNvmBusy 2 = false → s.mbxOut = [] → ∃ t, exec (.msgRegRead) s = .next t ∧
      t.mbxIn = [] ∧ t.mbxOut = [[2 + 2 * 2 ^ 8 + 8 * 2 ^ 16, 6 * 2 ^ 16 + tag]] ∧ OnlyIn [.mgt] s t) ∧
  (∀ (s : State), s.mbxIn = [] → exec (.msgRegWrite) s = .next s) ∧
  (∀ (tag : Nat) (w : Nat) (s : State), s.mbxIn = [[2 + 3 * 2 ^ 8 + 20 * 2 ^ 16, tag, 0x7100E0, 1, w]] →
    tag < 65536 → w < 2 ^ 32 → s.fwUp = true → s.maskBit .secNvmBusy 2 = false → s.mbxOut = [] →
    ∃ t, exec (.msgRegWrite) s = .next t ∧
      t.mbxIn = [] ∧ t.mbxOut = [[2 + 3 * 2 ^ 8 + 8 * 2 ^ 16, tag]] ∧ t.rd .thmAonWakeC = min (w % 2 ^ 8) 120 ∧
      t.rd .thmAonDir = w / 2 ^ 8 % 2 ∧ OnlyIn [.mgt, .thm] s t) ∧
  (∀ (tag : Nat) (w : Nat) (s : State), s.mbxIn = [[2 + 3 * 2 ^ 8 + 20 * 2 ^ 16, tag, 0x900010, 1, w]] →
    tag < 65536 → s.fwUp = true → s.maskBit .secNvmBusy 2 = false → s.mbxOut = [] →
    ∃ t, exec (.msgRegWrite) s = .next t ∧
      t.mbxIn = [] ∧ t.mbxOut = [[2 + 3 * 2 ^ 8 + 8 * 2 ^ 16, 6 * 2 ^ 16 + tag]] ∧ OnlyIn [.mgt] s t)

/-- A command is served with MGMT and the firmware up, no CDB command running and no ROM firmware. QUERY_STATUS
answers the status. The right password opens the protected commands, a wrong one ends 0x46; a change waits for its NVM
write, or ends 0x40 with the secrets closed. ABORT ends a flash write with 0x40, and without one does nothing. The
feature commands answer their limits, GET_FW_INFO both headers. With no password required: a download of a length that
fits opens the slot not active and erases it, a longer one ends 0x42; abandoned, it closes; a block of a length and
place that fit waits for its write, others end 0x42, and 0x40 with no download open; its completion, from RUNNING with
no scope open, makes the slot's bytes count and starts VALIDATE, and ends 0x40 with none open. With one required and
not given a download ends 0x46. From RUNNING, RUN starts COMMIT_FULL with a candidate that may run and ends 0x40 with
0x15 without, COMMIT starts MAKE_BOOT of the active slot, a partial commit without a candidate ends 0x40 with 0x15. A
tap request of a lane past WAIT_SD with the side channel free goes out and waits; outside ACQUIRE to SERVICE, or not
answered in time, it ends 0x40. Any other command ends 0x41. Status codes not given by the source are the model's
choice (log entry 24). It concludes, from conditions on the state and the operands alone, that exec answers a next
state with the command's own effect, of: cdbQueryStatus, cdbEnterPassword, cdbChangePassword, cdbAbort,
cdbModuleFeatures, cdbFwMgmtFeatures, cdbGetFwInfo, cdbStartFwDownload, cdbAbortFwDownload, cdbWriteFwBlockLpl,
cdbWriteFwBlockEpl, cdbCompleteFwDownload, cdbRunFwImage, cdbCommitFwImage, cdbPartialCommit, cdbTxTapRequest,
cdbTxTapTimeout, cdbUnsupported. From rules R60, R71, R72, R73, R80, R203, R446, R447. -/
def Obligations.CdbCommands : Prop :=
  (∀ (s : State), s.on .pwrDomMgmt = true → s.on .mgtFwDown = false → s.on .mgtFwHalt = false →
    ∃ t, exec (.cdbQueryStatus) s = .next t ∧
      t = { s with answer := [s.rd .cdbStatus] }) ∧
  (∀ (pw : Word) (s : State), s.on .pwrDomMgmt = true → s.on .mgtFwDown = false → s.on .mgtFwHalt = false →
    s.rd .cdbStatus ≠ 0x83 → s.on .mgtRomFw = false → s.on .secSecretIn = true → s.nvmGet .secPwSet = 1 →
    s.nvmGet .secPassword = s.passwordMac pw.toNat → ∃ t, exec (.cdbEnterPassword pw) s = .next t ∧
      t.rd .cdbPwOk = 1 ∧ t.rd .cdbStatus = 1 ∧ Changes s t 0 [.cdbPwOk, .cdbStatus, .cdbTapRun]) ∧
  (∀ (pw : Word) (s : State), s.on .pwrDomMgmt = true → s.on .mgtFwDown = false → s.on .mgtFwHalt = false →
    s.rd .cdbStatus ≠ 0x83 → s.on .mgtRomFw = false →
    (s.on .secSecretIn = false ∨ s.nvmGet .secPwSet ≠ 1 ∨ s.nvmGet .secPassword ≠ s.passwordMac pw.toNat) →
    ∃ t, exec (.cdbEnterPassword pw) s = .next t ∧
      t.rd .cdbStatus = 0x46 ∧ Changes s t 0 [.cdbStatus, .cdbTapRun]) ∧
  (∀ (pw : Word) (s : State), s.on .pwrDomMgmt = true → s.on .mgtFwDown = false → s.on .mgtFwHalt = false →
    s.rd .cdbStatus ≠ 0x83 → s.on .mgtRomFw = false → s.on .secSecretClosed = true →
    ∃ t, exec (.cdbChangePassword pw) s = .next t ∧
      t.rd .cdbStatus = 0x40 ∧ Changes s t 0 [.cdbStatus, .cdbTapRun]) ∧
  (∀ (pw : Word) (s : State), s.on .pwrDomMgmt = true → s.on .mgtFwDown = false → s.on .mgtFwHalt = false →
    s.rd .cdbStatus ≠ 0x83 → s.on .mgtRomFw = false → s.on .secSecretClosed = false →
    ∃ t, exec (.cdbChangePassword pw) s = .next t ∧
      t.rd .cdbNewPw = pw.toNat ∧ t.rd .cdbStatus = 0x83 ∧ t.maskBit .secNvmBusy 1 = true ∧
      Changes s t 0 [.cdbNewPw, .cdbStatus, .secNvmBusy]) ∧
  (∀ (s : State), s.on .pwrDomMgmt = true → s.on .mgtFwDown = false → s.on .cdbFlash = true →
    ∃ t, exec (.cdbAbort) s = .next t ∧
      t.rd .cdbFlash = 0 ∧ t.rd .cdbStatus = 0x40 ∧ Changes s t 0 [.cdbFlash, .cdbStatus, .cdbTapRun]) ∧
  (∀ (s : State), s.on .cdbFlash = false → exec (.cdbAbort) s = .next s) ∧
  (∀ (s : State), s.on .pwrDomMgmt = true → s.on .mgtFwDown = false → s.on .mgtFwHalt = false →
    s.rd .cdbStatus ≠ 0x83 → s.on .mgtRomFw = false → ∃ t, exec (.cdbModuleFeatures) s = .next t ∧
      t.answer = [2, 116, 2048] ∧ t.rd .cdbStatus = 1 ∧
      Changes { s with answer := t.answer } t 0 [.cdbStatus, .cdbTapRun]) ∧
  (∀ (s : State), s.on .pwrDomMgmt = true → s.on .mgtFwDown = false → s.on .mgtFwHalt = false →
    s.rd .cdbStatus ≠ 0x83 → s.on .mgtRomFw = false → ∃ t, exec (.cdbFwMgmtFeatures) s = .next t ∧
      t.answer = [2, 116, 2048] ∧ t.rd .cdbStatus = 1 ∧
      Changes { s with answer := t.answer } t 0 [.cdbStatus, .cdbTapRun]) ∧
  (∀ (a : List (BitVec 8)) (b : List (BitVec 8)) (s : State), s.on .pwrDomMgmt = true → s.on .mgtFwDown = false →
    s.on .mgtFwHalt = false → s.rd .cdbStatus ≠ 0x83 → s.on .mgtRomFw = false →
    ∃ t, exec (.cdbGetFwInfo a b) s = .next t ∧
      t.answer = s.fwInfo 0 a ++ s.fwInfo 1 b ∧ t.rd .cdbStatus = 1 ∧
      Changes { s with answer := t.answer } t 0 [.cdbStatus, .cdbTapRun]) ∧
  (∀ (v : Word) (s : State), s.on .pwrDomMgmt = true → s.on .mgtFwDown = false → s.on .mgtFwHalt = false →
    s.rd .cdbStatus ≠ 0x83 → s.on .mgtRomFw = false → s.on .cdbPwReq = false → s.rd .secLcState ≠ 4 →
    v.toNat ≤ slotBytes → ∃ t, exec (.cdbStartFwDownload v) s = .next t ∧
      t.rd .cdbDlOpen = 1 ∧ t.rd .cdbDlSlot = 1 - s.rd .imgActiveSlot ∧ t.rd .cdbFlash = 1 ∧ t.rd .cdbStatus = 0x83 ∧
      t.nvmGet .imgSlotBad 0 (1 - s.rd .imgActiveSlot) = 1 ∧ OnlyIn [.mgt] s t) ∧
  (∀ (v : Word) (s : State), s.on .pwrDomMgmt = true → s.on .mgtFwDown = false → s.on .mgtFwHalt = false →
    s.rd .cdbStatus ≠ 0x83 → s.on .mgtRomFw = false → s.on .cdbPwReq = false → s.rd .secLcState ≠ 4 →
    slotBytes < v.toNat → ∃ t, exec (.cdbStartFwDownload v) s = .next t ∧
      t.nvm = s.nvm ∧ t.rd .cdbStatus = 0x42 ∧ Changes s t 0 [.cdbStatus, .cdbTapRun]) ∧
  (∀ (v : Word) (s : State), s.on .pwrDomMgmt = true → s.on .mgtFwDown = false → s.on .mgtFwHalt = false →
    s.rd .cdbStatus ≠ 0x83 → s.on .mgtRomFw = false → s.on .cdbPwReq = true → s.on .cdbPwOk = false →
    ∃ t, exec (.cdbStartFwDownload v) s = .next t ∧
      t.nvm = s.nvm ∧ t.rd .cdbStatus = 0x46 ∧ Changes s t 0 [.cdbStatus, .cdbTapRun]) ∧
  (∀ (s : State), s.on .pwrDomMgmt = true → s.on .mgtFwDown = false → s.on .mgtFwHalt = false →
    s.rd .cdbStatus ≠ 0x83 → s.on .mgtRomFw = false → s.on .cdbPwReq = false → s.on .cdbDlOpen = true →
    ∃ t, exec (.cdbAbortFwDownload) s = .next t ∧
      t.rd .cdbDlOpen = 0 ∧ t.rd .cdbStatus = 1 ∧ t.nvm = s.nvm ∧ Changes s t 0 [.cdbDlOpen, .cdbStatus, .cdbTapRun]) ∧
  (∀ (o : Word) (k : BitVec 8) (s : State), s.on .pwrDomMgmt = true → s.on .mgtFwDown = false →
    s.on .mgtFwHalt = false → s.rd .cdbStatus ≠ 0x83 → s.on .mgtRomFw = false → s.on .cdbPwReq = false →
    s.on .cdbDlOpen = true → 1 ≤ k.toNat → k.toNat ≤ 116 → o.toNat + k.toNat ≤ slotBytes →
    ∃ t, exec (.cdbWriteFwBlockLpl o k) s = .next t ∧
      t.rd .cdbFlash = 1 ∧ t.rd .cdbStatus = 0x83 ∧ Changes s t 0 [.cdbFlash, .cdbStatus]) ∧
  (∀ (o : Word) (k : BitVec 8) (s : State), s.on .pwrDomMgmt = true → s.on .mgtFwDown = false →
    s.on .mgtFwHalt = false → s.rd .cdbStatus ≠ 0x83 → s.on .mgtRomFw = false → s.on .cdbPwReq = false →
    s.on .cdbDlOpen = true → (116 < k.toNat ∨ slotBytes < o.toNat + k.toNat) →
    ∃ t, exec (.cdbWriteFwBlockLpl o k) s = .next t ∧
      t.rd .cdbStatus = 0x42 ∧ Changes s t 0 [.cdbStatus, .cdbTapRun]) ∧
  (∀ (o : Word) (k : BitVec 8) (s : State), s.on .pwrDomMgmt = true → s.on .mgtFwDown = false →
    s.on .mgtFwHalt = false → s.rd .cdbStatus ≠ 0x83 → s.on .mgtRomFw = false → s.on .cdbPwReq = false →
    s.on .cdbDlOpen = false → ∃ t, exec (.cdbWriteFwBlockLpl o k) s = .next t ∧
      t.rd .cdbStatus = 0x40 ∧ Changes s t 0 [.cdbStatus, .cdbTapRun]) ∧
  (∀ (o : Word) (k : BitVec 12) (s : State), s.on .pwrDomMgmt = true → s.on .mgtFwDown = false →
    s.on .mgtFwHalt = false → s.rd .cdbStatus ≠ 0x83 → s.on .mgtRomFw = false → s.on .cdbPwReq = false →
    s.on .cdbDlOpen = true → 1 ≤ k.toNat → k.toNat ≤ 2048 → o.toNat + k.toNat ≤ slotBytes →
    ∃ t, exec (.cdbWriteFwBlockEpl o k) s = .next t ∧
      t.rd .cdbFlash = 1 ∧ t.rd .cdbStatus = 0x83 ∧ Changes s t 0 [.cdbFlash, .cdbStatus]) ∧
  (∀ (o : Word) (k : BitVec 12) (s : State), s.on .pwrDomMgmt = true → s.on .mgtFwDown = false →
    s.on .mgtFwHalt = false → s.rd .cdbStatus ≠ 0x83 → s.on .mgtRomFw = false → s.on .cdbPwReq = false →
    s.on .cdbDlOpen = true → (2048 < k.toNat ∨ slotBytes < o.toNat + k.toNat) →
    ∃ t, exec (.cdbWriteFwBlockEpl o k) s = .next t ∧
      t.rd .cdbStatus = 0x42 ∧ Changes s t 0 [.cdbStatus, .cdbTapRun]) ∧
  (∀ (o : Word) (k : BitVec 12) (s : State), s.on .pwrDomMgmt = true → s.on .mgtFwDown = false →
    s.on .mgtFwHalt = false → s.rd .cdbStatus ≠ 0x83 → s.on .mgtRomFw = false → s.on .cdbPwReq = false →
    s.on .cdbDlOpen = false → ∃ t, exec (.cdbWriteFwBlockEpl o k) s = .next t ∧
      t.rd .cdbStatus = 0x40 ∧ Changes s t 0 [.cdbStatus, .cdbTapRun]) ∧
  (∀ (s : State), s.on .pwrDomMgmt = true → s.on .mgtFwDown = false → s.on .mgtFwHalt = false →
    s.rd .cdbStatus ≠ 0x83 → s.on .mgtRomFw = false → s.on .cdbPwReq = false → s.on .cdbDlOpen = true →
    s.rd .imgState = 2 → s.secOpen = false → s.rd .cdbDlSlot < 2 → ∃ t, exec (.cdbCompleteFwDownload) s = .next t ∧
      t.rd .cdbDlOpen = 0 ∧ t.nvmGet .imgSlotBad 0 (s.rd .cdbDlSlot) = 0 ∧ t.rd .imgState = 3 ∧ t.rd .imgOpRun = 1 ∧
      t.rd .imgOpSlot = s.rd .cdbDlSlot ∧ t.rd .cdbStatus = 0x83) ∧
  (∀ (s : State), s.on .pwrDomMgmt = true → s.on .mgtFwDown = false → s.on .mgtFwHalt = false →
    s.rd .cdbStatus ≠ 0x83 → s.on .mgtRomFw = false → s.on .cdbPwReq = false → s.on .cdbDlOpen = false →
    ∃ t, exec (.cdbCompleteFwDownload) s = .next t ∧
      t.nvm = s.nvm ∧ t.rd .cdbStatus = 0x40 ∧ Changes s t 0 [.cdbStatus, .cdbTapRun]) ∧
  (∀ (s : State), s.on .pwrDomMgmt = true → s.on .mgtFwDown = false → s.on .mgtFwHalt = false →
    s.rd .cdbStatus ≠ 0x83 → s.on .mgtRomFw = false → s.on .cdbPwReq = false → s.rd .imgState = 2 →
    (s.candidate = none ∨ (s.running = none ∧ s.on .imgCandNew = false)) → s.rd .imgCandidateSlot < 2 →
    ∃ t, exec (.cdbRunFwImage) s = .next t ∧
      t.rd .cdbStatus = 0x40 ∧ t.rd .cdbReply0 = 0x15 ∧ t.rd .imgState = 2) ∧
  (∀ (i : Image) (s : State), s.on .pwrDomMgmt = true → s.on .mgtFwDown = false → s.on .mgtFwHalt = false →
    s.rd .cdbStatus ≠ 0x83 → s.on .mgtRomFw = false → s.on .cdbPwReq = false → s.rd .imgState = 2 →
    s.candidate = some i → (s.running ≠ none ∨ s.on .imgCandNew = true) → s.rd .imgCandidateSlot < 2 →
    ∃ t, exec (.cdbRunFwImage) s = .next t ∧
      t.rd .cdbStatus = 0x83 ∧ t.rd .cdbImg = 1 ∧ t.rd .imgState = 6 ∧ t.rd .imgOpRun = 2) ∧
  (∀ (s : State), s.Inv → s.on .pwrDomMgmt = true → s.on .mgtFwDown = false → s.on .mgtFwHalt = false →
    s.rd .cdbStatus ≠ 0x83 → s.on .mgtRomFw = false → s.on .cdbPwReq = false → s.rd .imgState = 2 →
    s.secOpen = false → ∃ t, exec (.cdbCommitFwImage) s = .next t ∧
      t.rd .cdbStatus = 0x83 ∧ t.rd .cdbImg = 1 ∧ t.rd .imgState = 3 ∧ t.rd .imgOpRun = 5 ∧
      t.rd .imgOpSlot = s.rd .imgActiveSlot) ∧
  (∀ (n : Lane) (s : State), s.on .pwrDomMgmt = true → s.on .mgtFwDown = false → s.on .mgtFwHalt = false →
    s.rd .cdbStatus ≠ 0x83 → s.on .mgtRomFw = false → s.on .cdbPwReq = false → s.rd .imgState = 2 →
    s.candidate = none → s.rd .imgCandidateSlot < 2 → ∃ t, exec (.cdbPartialCommit n) s = .next t ∧
      t.rd .cdbStatus = 0x40 ∧ t.rd .cdbReply0 = 0x15 ∧ (t.rd .imgIntStatus).testBit Irq.imgPcFail = true) ∧
  (∀ (n : Lane) (q : List Int) (s : State), s.on .pwrDomMgmt = true → s.on .mgtFwDown = false →
    s.on .mgtFwHalt = false → s.rd .cdbStatus ≠ 0x83 → s.on .mgtRomFw = false → q.length = 9 → 3 ≤ s.rd .lrxState n →
    s.rd .lrxState n ≤ 5 → s.rd .lfrTxType n = 0 → ∃ t, exec (.cdbTxTapRequest n q) s = .next t ∧
      t.rd .cdbTapRun = 1 ∧ t.rd .cdbTapLane = n ∧ t.rd .cdbStatus = 0x83 ∧ t.rd .lfrTxType n = 6 ∧
      t.rd .lfrTxLen n = 18 ∧ OnlyIn [.mgt, .lfr] s t) ∧
  (∀ (n : Lane) (q : List Int) (s : State), s.on .pwrDomMgmt = true → s.on .mgtFwDown = false →
    s.on .mgtFwHalt = false → s.rd .cdbStatus ≠ 0x83 → s.on .mgtRomFw = false → q.length = 9 →
    (s.rd .lrxState n < 3 ∨ 5 < s.rd .lrxState n) → ∃ t, exec (.cdbTxTapRequest n q) s = .next t ∧
      t.rd .cdbStatus = 0x40 ∧ Changes s t 0 [.cdbStatus, .cdbTapRun]) ∧
  (∀ (s : State), s.on .cdbTapRun = true → ∃ t, exec (.cdbTxTapTimeout) s = .next t ∧
      t.rd .cdbStatus = 0x40 ∧ Changes s t 0 [.cdbStatus, .cdbTapRun]) ∧
  (∀ (s : State), s.on .cdbTapRun = false → exec (.cdbTxTapTimeout) s = .next s) ∧
  (∀ (s : State), s.on .pwrDomMgmt = true → s.on .mgtFwDown = false → s.on .mgtFwHalt = false →
    s.rd .cdbStatus ≠ 0x83 → s.on .mgtRomFw = false → ∃ t, exec (.cdbUnsupported) s = .next t ∧
      t.rd .cdbStatus = 0x41 ∧ Changes s t 0 [.cdbStatus, .cdbTapRun])

/-- Where software's access reaches the block, each counter clear puts the counters of its block, or of the lane it
names, to 0. A clear of one block or lane changes no other field; one over several instances changes fields of its
blocks alone. Where MGMT runs and the block is powered down, the clear of a line receiver, a host lane, a cluster or
TIME clears nothing and raises BUS_ERR. It concludes, from conditions on the state and the operands alone, that exec
answers a next state with the command's own effect, of: lrxCntClr, leqCntClr, ltxCntClr, lfrCntClr, timLnCntClr,
optCntClr, hifCntClr, mgtCntClr, timCntClr, pwrCntClr, thmCntClr, clkCntClr, monCntClr, arcClCntClr, arcCntClr,
hifGlbCntClr, hltCntClr. From rules R124, R159, R190, R219, R249, R284, R318, R334, R361, R398, R432, R458. -/
def Obligations.CounterClears : Prop :=
  (∀ (n : Lane) (s : State), s.reaches .lrx n → ∃ t, exec (.lrxCntClr n) s = .next t ∧
      t.rd .lrxOvrCnt n = 0 ∧ t.rd .lrxCaptureSvcCnt n = 0 ∧ t.rd .lrxCdrLolCnt n = 0 ∧ t.rd .lrxSdLossCnt n = 0 ∧
      t.rd .lrxAcqRetryCnt n = 0 ∧ t.rd .lrxAcqCaptureCnt n = 0 ∧ t.rd .lrxWarmFailCnt n = 0 ∧
      t.rd .lrxLevelDropCnt n = 0 ∧
      Changes s t n [.lrxOvrCnt, .lrxCaptureSvcCnt, .lrxCdrLolCnt, .lrxSdLossCnt, .lrxAcqRetryCnt, .lrxAcqCaptureCnt,
        .lrxWarmFailCnt, .lrxLevelDropCnt]) ∧
  (∀ (n : Lane) (s : State), s.reaches .leq n → ∃ t, exec (.leqCntClr n) s = .next t ∧
      t.rd .leqDivergeCnt n = 0 ∧ t.rd .leqFomLowCnt n = 0 ∧ t.rd .leqDfeBurstCnt n = 0 ∧
      Changes s t n [.leqDivergeCnt, .leqFomLowCnt, .leqDfeBurstCnt]) ∧
  (∀ (n : Lane) (s : State), s.reaches .ltx n → ∃ t, exec (.ltxCntClr n) s = .next t ∧
      t.rd .ltxClipCnt n = 0 ∧ t.rd .ltxMaskViolCnt n = 0 ∧ t.rd .ltxFaultCnt n = 0 ∧ t.rd .ltxDrvFltCnt n = 0 ∧
      t.rd .ltxWakeSent n = 0 ∧
      Changes s t n [.ltxClipCnt, .ltxMaskViolCnt, .ltxFaultCnt, .ltxDrvFltCnt, .ltxWakeSent]) ∧
  (∀ (n : Lane) (s : State), s.reaches .lfr n → ∃ t, exec (.lfrCntClr n) s = .next t ∧
      t.rd .lfrMarkBadCnt n = 0 ∧ t.rd .lfrLolCnt n = 0 ∧ t.rd .lfrFrameSlipCnt n = 0 ∧ t.rd .lfrRenegRxCnt n = 0 ∧
      t.rd .lfrSvcCorrCnt n = 0 ∧ t.rd .lfrSvcFailCnt n = 0 ∧ t.rd .lfrSvcCrcCnt n = 0 ∧ t.rd .lfrFillRxCnt n = 0 ∧
      t.rd .lfrMsgUnknownCnt n = 0 ∧ t.rd .lfrPcDiscardCnt n = 0 ∧
      Changes s t n [.lfrMarkBadCnt, .lfrLolCnt, .lfrFrameSlipCnt, .lfrRenegRxCnt, .lfrSvcCorrCnt, .lfrSvcFailCnt,
        .lfrSvcCrcCnt, .lfrFillRxCnt, .lfrMsgUnknownCnt, .lfrPcDiscardCnt]) ∧
  (∀ (n : Lane) (s : State), s.reaches .timLn n → ∃ t, exec (.timLnCntClr n) s = .next t ∧
      t.rd .timLnExchOkCnt n = 0 ∧ t.rd .timLnExchMissCnt n = 0 ∧ t.rd .timLnExchRejectCnt n = 0 ∧
      t.rd .timLnExchSuspectCnt n = 0 ∧ t.rd .timLnRegionLateCnt n = 0 ∧
      Changes s t n [.timLnExchOkCnt, .timLnExchMissCnt, .timLnExchRejectCnt, .timLnExchSuspectCnt,
        .timLnRegionLateCnt]) ∧
  (∀ (n : Lane) (s : State), s.reaches .optLn n → ∃ t, exec (.optCntClr n) s = .next t ∧
      t.rd .optLnTripCnt n = 0 ∧ t.rd .optLnEnvClampCnt n = 0 ∧ t.rd .optLnComplianceCnt n = 0 ∧
      t.rd .optLnOpenCnt n = 0 ∧ Changes s t n [.optLnTripCnt, .optLnEnvClampCnt, .optLnComplianceCnt, .optLnOpenCnt]) ∧
  (∀ (n : HostLane) (s : State), s.reaches .hif n → ∃ t, exec (.hifCntClr n) s = .next t ∧
      t.rd .hifCdrLolCnt n = 0 ∧ t.rd .hifAmLolCnt n = 0 ∧ t.rd .hifTrnFailCnt n = 0 ∧ t.rd .hifAlignHitsCnt n = 0 ∧
      t.rd .hifPrbsErrCnt n = 0 ∧ t.rd .hifWarmFailCnt n = 0 ∧
      Changes s t n [.hifCdrLolCnt, .hifAmLolCnt, .hifTrnFailCnt, .hifAlignHitsCnt, .hifPrbsErrCnt, .hifWarmFailCnt]) ∧
  (∀ (s : State), s.reaches .mgt 0 → ∃ t, exec (.mgtCntClr) s = .next t ∧
      t.rd .mgtRefusedCnt = 0 ∧ t.rd .mgtFwRestartCnt = 0 ∧ t.rd .evfDroppedCnt = 0 ∧ t.rd .evfDeferredCnt = 0 ∧
      t.rd .evfOverrun = 0 ∧
      Changes s t 0 [.mgtRefusedCnt, .mgtFwRestartCnt, .evfDroppedCnt, .evfDeferredCnt, .evfOverrun]) ∧
  (∀ (s : State), s.reaches .tim 0 → ∃ t, exec (.timCntClr) s = .next t ∧
      t.rd .timTsLostCnt = 0 ∧ t.rd .timInGlitchCnt = 0 ∧ t.rd .timTsSuspectCnt = 0 ∧ t.rd .timTsfOvfCnt = 0 ∧
      t.rd .timTodStepsCnt = 0 ∧
      Changes s t 0 [.timTsLostCnt, .timInGlitchCnt, .timTsSuspectCnt, .timTsfOvfCnt, .timTodStepsCnt]) ∧
  (∀ (s : State), s.reaches .pwr 0 → ∃ t, exec (.pwrCntClr) s = .next t ∧
      t.rd .pwrWarnCnt = 0 ∧ t.rd .pwrRefusalCnt = 0 ∧ t.rd .pwrWakeFailCnt = 0 ∧
      Changes s t 0 [.pwrWarnCnt, .pwrRefusalCnt, .pwrWakeFailCnt]) ∧
  (∀ (s : State), s.reaches .thm 0 → ∃ t, exec (.thmCntClr) s = .next t ∧
      t.rd .thmThrottleCnt = 0 ∧ t.rd .thmCritCnt = 0 ∧ t.rd .thmStepCnt = 0 ∧ t.rd .thmSensorFailCnt = 0 ∧
      Changes s t 0 [.thmThrottleCnt, .thmCritCnt, .thmStepCnt, .thmSensorFailCnt]) ∧
  (∀ (s : State), s.reaches .clk 0 → ∃ t, exec (.clkCntClr) s = .next t ∧
      t.rd .clkRefGlitchCnt = 0 ∧ t.rd .clkRefLossCnt = 0 ∧ t.rd .clkRgStoppedCnt = 0 ∧
      (∀ p ∈ List.range 5, t.rd .pllLolCnt p = 0 ∧ t.rd .pllCalCnt p = 0) ∧
      (∀ p ∈ List.range 5, t.rd .pllState p = s.rd .pllState p) ∧ OnlyIn [.clk, .pll] s t) ∧
  (∀ (s : State), s.reaches .mon 0 → ∃ t, exec (.monCntClr) s = .next t ∧
      (∀ k ∈ List.range 24, t.rd .monChSeq k = 0) ∧ OnlyIn [.monCh] s t) ∧
  (∀ (n : Lane) (s : State), s.reaches .arcCl n → ∃ t, exec (.arcClCntClr n) s = .next t ∧
      t.rd .arcClDecodedCnt n = 0 ∧ t.rd .arcClUncorrCnt n = 0 ∧ t.rd .arcClExpRunCnt n = 0 ∧
      t.rd .arcClExpQCnt n = 0 ∧ t.rd .arcClStolenOutCnt n = 0 ∧ t.rd .arcClStolenInCnt n = 0 ∧
      t.rd .arcClRaceLostCnt n = 0 ∧ t.rd .arcClRbMissCnt n = 0 ∧ t.rd .arcClRbLateCnt n = 0 ∧
      t.rd .arcClCorrBitsCnt n = 0 ∧ t.rd .arcClIterSumCnt n = 0 ∧ t.rd .arcClPreempt n = 0 ∧ t.rd .arcClQFull n = 0 ∧
      t.rd .arcClQHwm n = 0 ∧ (∀ k ∈ List.range 16, t.rd .arcClHist n k = 0) ∧ OnlyIn [.arcCl, .arc] s t) ∧
  (∀ (s : State), s.reaches .arc 0 → ∃ t, exec (.arcCntClr) s = .next t ∧
      (∀ e ∈ List.range 128, t.rd .arcEngEcc 0 e = 0) ∧
      (∀ k ∈ List.range 8, t.rd .arcClDecodedCnt k = 0 ∧ t.rd .arcClUncorrCnt k = 0 ∧ t.rd .arcClExpRunCnt k = 0 ∧
        t.rd .arcClExpQCnt k = 0 ∧ t.rd .arcClStolenOutCnt k = 0 ∧ t.rd .arcClStolenInCnt k = 0 ∧
        t.rd .arcClRaceLostCnt k = 0 ∧ t.rd .arcClRbMissCnt k = 0 ∧ t.rd .arcClRbLateCnt k = 0 ∧
        t.rd .arcClCorrBitsCnt k = 0 ∧ t.rd .arcClIterSumCnt k = 0 ∧ t.rd .arcClPreempt k = 0 ∧ t.rd .arcClQFull k =
        0 ∧ t.rd .arcClQHwm k = 0) ∧ (∀ k ∈ List.range 8, ∀ b ∈ List.range 16, t.rd .arcClHist k b = 0) ∧
      OnlyIn [.arcCl, .arc] s t) ∧
  (∀ (s : State), s.reaches .hifGlb 0 → ∃ t, exec (.hifGlbCntClr) s = .next t ∧
      t.rd .hifGlbEhmFbCount = 0 ∧ (∀ k ∈ List.range 8, t.rd .hifGlbPairHits 0 k = 0) ∧
      (∀ k ∈ List.range 16, t.rd .hifGlbRsCwCorr 0 k = 0 ∧ t.rd .hifGlbRsCwUncorr 0 k = 0 ∧ t.rd .hifGlbRsSymErr 0 k =
        0 ∧ t.rd .hifGlbRsCwTotalLo 0 k = 0 ∧ t.rd .hifGlbRsCwTotalHi 0 k = 0) ∧ OnlyIn [.hifGlb] s t) ∧
  (∀ (s : State), s.reaches .hlt 0 → ∃ t, exec (.hltCntClr) s = .next t ∧
      t.rd .hltRunCnt = 0 ∧ t.rd .hltFailCnt = 0 ∧ t.rd .hltAbortCnt = 0 ∧ t.rd .hltUntestedCnt = 0 ∧
      t.rd .hltEscCnt = 0 ∧ (∀ k ∈ List.range 8, t.rd .hltLnRxCnt k = 0 ∧ t.rd .hltLnTxCnt k = 0) ∧
      (∀ a ∈ List.range 16, ∀ b ∈ List.range 16, t.rd .hltTotal a b = 0) ∧ OnlyIn [.hlt, .hltLn] s t) ∧
  (∀ (n : Lane) (s : State), s.on .pwrDomMgmt = true → s.powered .lrx n = false →
    ∃ t, exec (.lrxCntClr n) s = .next t ∧
      (t.rd .glbIntStatus).testBit Irq.glbBusErr = true ∧ Changes s t 0 [.glbIntStatus, .clkRgStoppedCnt]) ∧
  (∀ (n : HostLane) (s : State), s.on .pwrDomMgmt = true → s.powered .hif n = false →
    ∃ t, exec (.hifCntClr n) s = .next t ∧
      (t.rd .glbIntStatus).testBit Irq.glbBusErr = true ∧ Changes s t 0 [.glbIntStatus, .clkRgStoppedCnt]) ∧
  (∀ (n : Lane) (s : State), s.on .pwrDomMgmt = true → s.powered .arcCl n = false →
    ∃ t, exec (.arcClCntClr n) s = .next t ∧
      (t.rd .glbIntStatus).testBit Irq.glbBusErr = true ∧ Changes s t 0 [.glbIntStatus, .clkRgStoppedCnt]) ∧
  (∀ (s : State), s.on .pwrDomMgmt = true → s.powered .tim 0 = false → ∃ t, exec (.timCntClr) s = .next t ∧
      (t.rd .glbIntStatus).testBit Irq.glbBusErr = true ∧ Changes s t 0 [.glbIntStatus, .clkRgStoppedCnt])
end

