-- ==== Sys2Proof/Laws/Store.lean ====
section
/-!
SUPPORT. Laws of the field store and the byte memories: what a read returns after a write, and that writing keeps the
canonical form.
-/

set_option Elab.async false
set_option linter.all false

namespace Sys2Proof.Machine

/-! ## Reading after writing -/

theorem Store.find_insert_self (m : Store) (k : Key) (v : Nat) (h : ∀ e ∈ m, e.1 ≠ k) :
    (Store.insert k v m).find? (fun e => e.1 = k) = some (k, v) := by
  induction m with
  | nil => simp [Store.insert]
  | cons e m ih =>
    have he : e.1 ≠ k := h e (by simp)
    by_cases hl : e.1.lt k = true
    · simp only [Store.insert, hl, if_true]
      rw [List.find?_cons_of_neg (by simpa using he)]
      exact ih (fun x hx => h x (by simp [hx]))
    · simp [Store.insert, hl]

theorem Store.find_insert_other (m : Store) (k k' : Key) (v : Nat) (h : k' ≠ k) :
    (Store.insert k v m).find? (fun e => e.1 = k') = m.find? (fun e => e.1 = k') := by
  have hk : ¬ (k = k') := fun e => h e.symm
  induction m with
  | nil => simp [Store.insert, hk]
  | cons e m ih =>
    by_cases hl : e.1.lt k = true
    · simp only [Store.insert, hl, if_true, List.find?_cons]
      rw [ih]
    · simp only [Store.insert, hl]
      rw [if_neg (by simp), List.find?_cons_of_neg (by simpa using hk)]

theorem Store.find_filter_other (m : Store) (k k' : Key) (h : k' ≠ k) :
    (m.filter (fun e => e.1 ≠ k)).find? (fun e => e.1 = k') = m.find? (fun e => e.1 = k') := by
  induction m with
  | nil => rfl
  | cons e m ih =>
    by_cases he : e.1 = k
    · have : ¬ (e.1 = k') := fun x => h (x ▸ he)
      simp only [List.filter_cons, he, ne_eq, not_true_eq_false, decide_false, Bool.false_eq_true, if_false, List.find?_cons]
      rw [ih]
      simp [show ¬ (k = k') from fun x => h x.symm]
    · simp only [List.filter_cons, he, ne_eq, not_false_eq_true, decide_true, if_true, List.find?_cons]
      rw [ih]

theorem Store.find_filter_self (m : Store) (k : Key) :
    (m.filter (fun e => e.1 ≠ k)).find? (fun e => e.1 = k) = none := by
  rw [List.find?_eq_none]
  intro e he
  simpa using (List.mem_filter.mp he).2

theorem Store.get_of_find_eq (m m' : Store) (k : Key)
    (h : m.find? (fun e => e.1 = k) = m'.find? (fun e => e.1 = k)) : m.get k = m'.get k := by
  unfold Store.get; rw [h]

theorem Store.get_of_find_none (m : Store) (k : Key) (h : m.find? (fun e => e.1 = k) = none) : m.get k = k.default := by
  unfold Store.get; rw [h]

theorem Store.get_of_find_some (m : Store) (k : Key) (e : Key × Nat) (h : m.find? (fun e => e.1 = k) = some e) :
    m.get k = e.2 := by
  unfold Store.get; rw [h]

/-- What a place reads after a write. -/
theorem Store.get_set (m : Store) (k k' : Key) (v : Nat) :
    (m.set k v).get k' = if k' = k then v % 2 ^ k.f.width else m.get k' := by
  by_cases hk : k' = k
  · subst hk
    simp only [Store.set, if_true]
    split
    · rename_i hd
      rw [Store.get_of_find_none _ _ (Store.find_filter_self m k'), hd]
    · exact Store.get_of_find_some _ _ (k', v % 2 ^ k'.f.width)
        (Store.find_insert_self _ _ _ (fun e he => by simpa using (List.mem_filter.mp he).2))
  · simp only [Store.set, hk, if_false]
    split
    · exact Store.get_of_find_eq _ _ _ (Store.find_filter_other _ _ _ hk)
    · exact Store.get_of_find_eq _ _ _ ((Store.find_insert_other _ _ _ _ hk).trans (Store.find_filter_other _ _ _ hk))

theorem Store.find_reset_in (m : Store) (p : Key → Bool) (k : Key) (hp : p k = true) :
    (m.resetWhere p).find? (fun e => e.1 = k) = none := by
  unfold Store.resetWhere
  rw [List.find?_eq_none]
  intro e he hek
  have h1 := (List.mem_filter.mp he).2
  have h2 : e.1 = k := by simpa using hek
  rw [h2, hp] at h1
  exact Bool.noConfusion h1

theorem Store.find_reset_out (m : Store) (p : Key → Bool) (k : Key) (hp : p k = false) :
    (m.resetWhere p).find? (fun e => e.1 = k) = m.find? (fun e => e.1 = k) := by
  unfold Store.resetWhere
  induction m with
  | nil => rfl
  | cons e l ih =>
    by_cases hpe : p e.1 = true
    · have hne : ¬ (e.1 = k) := fun x => by rw [x, hp] at hpe; exact Bool.noConfusion hpe
      rw [List.filter_cons_of_neg (by simp [hpe]), List.find?_cons_of_neg (by simpa using hne)]
      exact ih
    · rw [List.filter_cons_of_pos (by simpa using hpe)]
      by_cases he : e.1 = k
      · rw [List.find?_cons_of_pos (by simpa using he), List.find?_cons_of_pos (by simpa using he)]
      · rw [List.find?_cons_of_neg (by simpa using he), List.find?_cons_of_neg (by simpa using he)]
        exact ih

/-- What a place reads after places are put back to reset. -/
theorem Store.get_resetWhere (m : Store) (p : Key → Bool) (k : Key) :
    (m.resetWhere p).get k = if p k then k.default else m.get k := by
  by_cases hp : p k = true
  · rw [if_pos hp, Store.get_of_find_none _ _ (Store.find_reset_in m p k hp)]
  · have hp' : p k = false := by simpa using hp
    rw [if_neg hp]
    exact Store.get_of_find_eq _ _ _ (Store.find_reset_out m p k hp')

/-! ## The canonical form of a store -/

/-- Keys above a bound, in rising order, each entry admissible: the canonical form as a recursion proofs can use. -/
def Store.above (b : Option Key) : Store → Prop
  | [] => True
  | e :: m => (∀ k, b = some k → k.lt e.1 = true) ∧ entryOk e = true ∧ Store.above (some e.1) m

theorem Key.lt_irrefl (a : Key) : a.lt a = false := by simp [Key.lt]

theorem Key.lt_trans (a b c : Key) (h1 : a.lt b = true) (h2 : b.lt c = true) : a.lt c = true := by
  unfold Key.lt at *
  split at h1 <;> split at h2 <;> (repeat' split at h1) <;> (repeat' split at h2) <;> simp_all <;>
    (repeat' split) <;> omega

theorem Key.lt_total (a b : Key) (h1 : a.lt b = false) (h2 : a ≠ b) : b.lt a = true := by
  obtain ⟨f, n, i⟩ := a
  obtain ⟨g, m, j⟩ := b
  unfold Key.lt at *
  by_cases hf : f.ctorIdx = g.ctorIdx
  · have hfg : f = g := by
      have := congrArg Field.ofNat hf
      simpa [Field.ofNat_ctorIdx] using this
    subst hfg
    by_cases hn : n = m
    · subst hn
      have : i ≠ j := fun e => h2 (by rw [e])
      simp at h1 ⊢
      omega
    · simp [hn, Ne.symm hn] at h1 ⊢
      omega
  · have : ¬ (g.ctorIdx = f.ctorIdx) := fun e => hf e.symm
    simp [hf, this] at h1 ⊢
    omega

theorem Store.above_of_wf (m : Store) (h : m.wf = true) : m.above none := by
  have key : ∀ (b : Option Key) (l : Store), (∀ k e, b = some k → l.head? = some e → k.lt e.1 = true) →
      risingKeys l = true → l.all entryOk = true → l.above b := by
    intro b l
    induction l generalizing b with
    | nil => intros; trivial
    | cons e l ih =>
      intro hb hr ha
      simp only [List.all_cons, Bool.and_eq_true] at ha
      refine ⟨fun k hk => hb k e hk rfl, ha.1, ih (some e.1) ?_ ?_ ha.2⟩
      · intro k x hk hx
        cases l with
        | nil => simp at hx
        | cons y l =>
          simp only [risingKeys, Bool.and_eq_true] at hr
          simp only [List.head?_cons, Option.some.injEq] at hx hk
          rw [← hk, ← hx]; exact hr.1
      · cases l with
        | nil => rfl
        | cons y l => simp only [risingKeys, Bool.and_eq_true] at hr; exact hr.2
  simp only [Store.wf, Bool.and_eq_true] at h
  exact key none m (by intro k e hk; simp at hk) h.1 h.2

theorem Store.wf_of_above (m : Store) (b : Option Key) (h : m.above b) : m.wf = true := by
  induction m generalizing b with
  | nil => rfl
  | cons e m ih =>
    obtain ⟨_, he, hm⟩ := h
    have hw := ih _ hm
    simp only [Store.wf, Bool.and_eq_true, List.all_cons] at hw ⊢
    refine ⟨?_, he, hw.2⟩
    cases m with
    | nil => rfl
    | cons y l =>
      simp only [risingKeys, Bool.and_eq_true]
      exact ⟨hm.1 _ rfl, hw.1⟩

theorem Store.above_weaken (m : Store) (b b' : Option Key) (h : m.above b)
    (hb : ∀ k', b' = some k' → ∃ k, b = some k ∧ (k' = k ∨ k'.lt k = true)) : m.above b' := by
  cases m with
  | nil => trivial
  | cons e m =>
    refine ⟨fun k' hk' => ?_, h.2⟩
    obtain ⟨k, hk, hc⟩ := hb k' hk'
    cases hc with
    | inl he => rw [he]; exact h.1 k hk
    | inr hl => exact Key.lt_trans _ _ _ hl (h.1 k hk)

theorem Store.above_filter (m : Store) (b : Option Key) (p : Key × Nat → Bool) (h : m.above b) :
    Store.above b (m.filter p) := by
  induction m generalizing b with
  | nil => trivial
  | cons e m ih =>
    by_cases hp : p e = true
    · rw [List.filter_cons_of_pos hp]
      exact ⟨h.1, h.2.1, ih _ h.2.2⟩
    · rw [List.filter_cons_of_neg hp]
      refine ih b (Store.above_weaken m (some e.1) b h.2.2 (fun k' hk' => ⟨e.1, rfl, Or.inr (h.1 k' hk')⟩))

theorem Store.above_insert (m : Store) (b : Option Key) (k : Key) (v : Nat) (h : m.above b)
    (hb : ∀ k', b = some k' → k'.lt k = true) (hv : entryOk (k, v) = true) (hn : ∀ e ∈ m, e.1 ≠ k) :
    Store.above b (Store.insert k v m) := by
  induction m generalizing b with
  | nil => exact ⟨hb, hv, trivial⟩
  | cons e m ih =>
    by_cases hl : e.1.lt k = true
    · simp only [Store.insert, hl, if_true]
      refine ⟨h.1, h.2.1, ih _ h.2.2 ?_ (fun x hx => hn x (by simp [hx]))⟩
      intro k' hk'
      simp only [Option.some.injEq] at hk'
      rw [← hk']; exact hl
    · simp only [Store.insert, hl]
      refine ⟨hb, hv, ?_, h.2⟩
      intro k' hk'
      simp only [Option.some.injEq] at hk'
      rw [← hk']
      exact Key.lt_total _ _ (by simpa using hl) (hn e (by simp))

/-- Keeping some entries keeps the canonical form. -/
theorem Store.wf_filter (m : Store) (p : Key × Nat → Bool) (h : m.wf = true) : Store.wf (m.filter p) = true :=
  Store.wf_of_above _ none (Store.above_filter m none p (Store.above_of_wf m h))

/-- Putting places back to reset keeps the canonical form. -/
theorem Store.wf_resetWhere (m : Store) (p : Key → Bool) (h : m.wf = true) : (m.resetWhere p).wf = true :=
  Store.wf_filter m _ h

/-- A write keeps the canonical form. -/
theorem Store.wf_set (m : Store) (k : Key) (v : Nat) (h : m.wf = true) : (m.set k v).wf = true := by
  have hf := Store.above_filter m none (fun e => e.1 ≠ k) (Store.above_of_wf m h)
  simp only [Store.set]
  split
  · exact Store.wf_of_above _ none hf
  · rename_i hd
    refine Store.wf_of_above _ none (Store.above_insert _ none k _ hf (by intro k' hk'; simp at hk') ?_
      (fun e he => by simpa using (List.mem_filter.mp he).2))
    simp only [entryOk, Bool.and_eq_true, decide_eq_true_eq, bne_iff_ne, ne_eq]
    exact ⟨Nat.mod_lt _ (Nat.two_pow_pos _), hd⟩

theorem Store.wf_nil : Store.wf [] = true := rfl

/-! ## Byte memories -/

/-- Addresses above a bound, in rising order, no zero: the canonical form as a recursion proofs can use. -/
def Memory.above (b : Option Nat) : Memory → Prop
  | [] => True
  | e :: m => (∀ a, b = some a → a < e.1) ∧ e.2 ≠ 0#8 ∧ Memory.above (some e.1) m

theorem Memory.above_of_wf (m : Memory) (h : m.wf = true) : Memory.above none m := by
  have key : ∀ (b : Option Nat) (l : Memory), (∀ k e, b = some k → l.head? = some e → k < e.1) →
      risingCells l = true → l.all (fun e => e.2 != 0#8) = true → Memory.above b l := by
    intro b l
    induction l generalizing b with
    | nil => intros; trivial
    | cons e l ih =>
      intro hb hr ha
      simp only [List.all_cons, Bool.and_eq_true, bne_iff_ne] at ha
      refine ⟨fun k hk => hb k e hk rfl, ha.1, ih (some e.1) ?_ ?_ ha.2⟩
      · intro k x hk hx
        cases l with
        | nil => simp at hx
        | cons y l =>
          simp only [risingCells, Bool.and_eq_true, decide_eq_true_eq] at hr
          simp only [List.head?_cons, Option.some.injEq] at hx hk
          rw [← hk, ← hx]; exact hr.1
      · cases l with
        | nil => rfl
        | cons y l => simp only [risingCells, Bool.and_eq_true] at hr; exact hr.2
  simp only [Memory.wf, Bool.and_eq_true] at h
  exact key none m (by intro k e hk; simp at hk) h.1 h.2

theorem Memory.wf_of_above (m : Memory) (b : Option Nat) (h : Memory.above b m) : m.wf = true := by
  induction m generalizing b with
  | nil => rfl
  | cons e m ih =>
    obtain ⟨_, he, hm⟩ := h
    have hw := ih _ hm
    simp only [Memory.wf, Bool.and_eq_true, List.all_cons, bne_iff_ne] at hw ⊢
    refine ⟨?_, he, hw.2⟩
    cases m with
    | nil => rfl
    | cons y l =>
      simp only [risingCells, Bool.and_eq_true, decide_eq_true_eq]
      exact ⟨hm.1 _ rfl, hw.1⟩

theorem Memory.above_weaken (m : Memory) (b b' : Option Nat) (h : Memory.above b m)
    (hb : ∀ k', b' = some k' → ∃ k, b = some k ∧ k' ≤ k) : Memory.above b' m := by
  cases m with
  | nil => trivial
  | cons e m =>
    refine ⟨fun k' hk' => ?_, h.2⟩
    obtain ⟨k, hk, hc⟩ := hb k' hk'
    exact Nat.lt_of_le_of_lt hc (h.1 k hk)

theorem Memory.above_filter (m : Memory) (b : Option Nat) (p : Nat × BitVec 8 → Bool) (h : Memory.above b m) :
    Memory.above b (m.filter p) := by
  induction m generalizing b with
  | nil => trivial
  | cons e m ih =>
    by_cases hp : p e = true
    · rw [List.filter_cons_of_pos hp]
      exact ⟨h.1, h.2.1, ih _ h.2.2⟩
    · rw [List.filter_cons_of_neg hp]
      exact ih b (Memory.above_weaken m (some e.1) b h.2.2
        (fun k' hk' => ⟨e.1, rfl, Nat.le_of_lt (h.1 k' hk')⟩))

theorem Memory.above_insert (m : Memory) (b : Option Nat) (a : Nat) (v : BitVec 8) (h : Memory.above b m)
    (hb : ∀ k, b = some k → k < a) (hv : v ≠ 0#8) (hn : ∀ e ∈ m, e.1 ≠ a) : Memory.above b (Memory.insert a v m) := by
  induction m generalizing b with
  | nil => exact ⟨hb, hv, trivial⟩
  | cons e m ih =>
    by_cases hl : e.1 < a
    · simp only [Memory.insert, hl, if_true]
      refine ⟨h.1, h.2.1, ih _ h.2.2 ?_ (fun x hx => hn x (by simp [hx]))⟩
      intro k hk
      simp only [Option.some.injEq] at hk
      rw [← hk]; exact hl
    · simp only [Memory.insert, hl]
      refine ⟨hb, hv, ?_, h.2⟩
      intro k hk
      simp only [Option.some.injEq] at hk
      rw [← hk]
      have := hn e (by simp)
      exact Nat.lt_of_le_of_ne (Nat.le_of_not_lt hl) (Ne.symm this)

/-- A byte write keeps the canonical form. -/
theorem Memory.wf_set (m : Memory) (a v : Nat) (h : m.wf = true) : (m.set a v).wf = true := by
  have hf := Memory.above_filter m none (fun e => e.1 != a) (Memory.above_of_wf m h)
  simp only [Memory.set]
  split
  · exact Memory.wf_of_above _ none hf
  · rename_i hd
    exact Memory.wf_of_above _ none (Memory.above_insert _ none a _ hf (by intro k hk; simp at hk) hd
      (fun e he => by simpa using (List.mem_filter.mp he).2))

/-- Writing several bytes keeps the canonical form. -/
theorem Memory.wf_setMany (l : List Nat) (m : Memory) (a : Nat) (h : m.wf = true) : (m.setMany a l).wf = true := by
  induction l generalizing m a with
  | nil => exact h
  | cons v l ih => exact ih _ _ (Memory.wf_set m a v h)

theorem Memory.wf_nil : Memory.wf [] = true := rfl

theorem Memory.find_insert_self (m : Memory) (a : Nat) (v : BitVec 8) (h : ∀ e ∈ m, e.1 ≠ a) :
    (Memory.insert a v m).find? (fun e => e.1 == a) = some (a, v) := by
  induction m with
  | nil => simp [Memory.insert]
  | cons e m ih =>
    have he : e.1 ≠ a := h e (by simp)
    by_cases hl : e.1 < a
    · simp only [Memory.insert, hl, if_true]
      rw [List.find?_cons_of_neg (by simpa using he)]
      exact ih (fun x hx => h x (by simp [hx]))
    · simp [Memory.insert, hl]

theorem Memory.find_insert_other (m : Memory) (a b : Nat) (v : BitVec 8) (h : b ≠ a) :
    (Memory.insert a v m).find? (fun e => e.1 == b) = m.find? (fun e => e.1 == b) := by
  induction m with
  | nil => simp [Memory.insert, Ne.symm h]
  | cons e m ih =>
    by_cases hl : e.1 < a
    · simp only [Memory.insert, hl, if_true, List.find?_cons]
      rw [ih]
    · simp only [Memory.insert, hl]
      rw [if_neg (by simp), List.find?_cons_of_neg (by simpa using Ne.symm h)]

theorem Memory.find_filter_other (m : Memory) (a b : Nat) (h : b ≠ a) :
    (m.filter (fun e => e.1 != a)).find? (fun e => e.1 == b) = m.find? (fun e => e.1 == b) := by
  induction m with
  | nil => rfl
  | cons e m ih =>
    by_cases he : e.1 = a
    · have hb : ¬ (e.1 = b) := fun x => h (x.symm.trans he)
      rw [List.filter_cons_of_neg (by simp [he]), List.find?_cons_of_neg (by simpa using hb)]
      exact ih
    · rw [List.filter_cons_of_pos (by simpa using he)]
      by_cases hb : e.1 = b
      · rw [List.find?_cons_of_pos (by simpa using hb), List.find?_cons_of_pos (by simpa using hb)]
      · rw [List.find?_cons_of_neg (by simpa using hb), List.find?_cons_of_neg (by simpa using hb)]
        exact ih

/-- What a byte reads after a byte write. -/
theorem Memory.get_set (m : Memory) (a b v : Nat) : (m.set a v).get b = if b = a then v % 256 else m.get b := by
  by_cases hb : b = a
  · subst hb
    have hn : (m.filter (fun e => e.1 != b)).find? (fun e => e.1 == b) = none := by
      rw [List.find?_eq_none]
      intro e he
      have h1 := (List.mem_filter.mp he).2
      simpa using h1
    simp only [Memory.set, if_true]
    split
    · rename_i hd
      have : v % 256 = 0 := by simpa using congrArg BitVec.toNat hd
      rw [this]
      unfold Memory.get
      rw [hn]
    · unfold Memory.get
      rw [Memory.find_insert_self _ _ _ (fun e he => by simpa using (List.mem_filter.mp he).2)]
      simp
  · simp only [Memory.set, hb, if_false]
    split
    · unfold Memory.get; rw [Memory.find_filter_other _ _ _ hb]
    · unfold Memory.get; rw [Memory.find_insert_other _ _ _ _ hb, Memory.find_filter_other _ _ _ hb]

end Sys2Proof.Machine
end

