-- ==== Sys2Proof/Laws/Keeps.lean ====
section
/-!
SUPPORT. What every operation keeps: the queue of waiting commands and the invariant. `Keeps r s` says that `s` has the
queue of `r`, and the invariant where `r` has it; each operation has one lemma that carries it over.
-/

set_option Elab.async false
set_option linter.all false

namespace Sys2Proof.Machine

/-- The queue of `r`, and the invariant where `r` has it. -/
structure Keeps (r s : State) : Prop where
  queue : s.pending = r.pending
  inv : r.Inv → s.Inv

/-- A command's outcome is a next state, and that state keeps queue and invariant. -/
inductive OutKeeps (r : State) : Out → Prop
  | next {s : State} (h : Keeps r s) : OutKeeps r (.next s)

/-- The same of an operation that may not apply. -/
inductive OptKeeps (r : State) : Option State → Prop
  | none : OptKeeps r .none
  | some {s : State} (h : Keeps r s) : OptKeeps r (.some s)

theorem Keeps.refl (r : State) : Keeps r r := ⟨rfl, id⟩

theorem Keeps.trans {r s t : State} (h : Keeps r s) (g : Keeps s t) : Keeps r t :=
  ⟨g.queue.trans h.queue, fun i => g.inv (h.inv i)⟩

theorem Keeps.inv_of {r s : State} (h : Keeps r s) (i : r.Inv) : s.Inv := h.inv i

theorem OutKeeps.elim {r s : State} {o : Out} (h : OutKeeps r o) (e : o = .next s) : Keeps r s := by
  subst e; cases h; assumption

theorem OutKeeps.answers {r : State} {o : Out} (h : OutKeeps r o) : ∃ s, o = .next s ∧ Keeps r s := by
  cases h; exact ⟨_, rfl, by assumption⟩

theorem OptKeeps.elim {r s : State} {o : Option State} (h : OptKeeps r o) (e : o = .some s) : Keeps r s := by
  subst e; cases h; assumption

theorem OptKeeps.getD {r s : State} {o : Option State} (h : OptKeeps r o) (g : Keeps r s) : Keeps r (o.getD s) := by
  cases o with
  | none => exact g
  | some t => exact h.elim rfl

theorem Keeps.cond {r a b : State} {c : Prop} {d : Decidable c} (ha : Keeps r a) (hb : Keeps r b) :
    Keeps r (@ite State c d a b) := by
  cases d <;> assumption

theorem OutKeeps.cond {r : State} {a b : Out} {c : Prop} {d : Decidable c} (ha : OutKeeps r a) (hb : OutKeeps r b) :
    OutKeeps r (@ite Out c d a b) := by
  cases d <;> assumption

theorem OptKeeps.cond {r : State} {a b : Option State} {c : Prop} {d : Decidable c} (ha : OptKeeps r a)
    (hb : OptKeeps r b) : OptKeeps r (@ite (Option State) c d a b) := by
  cases d <;> assumption

theorem Keeps.cond_snd {α : Type} {r : State} {a b : α × State} {c : Prop} {d : Decidable c} (ha : Keeps r a.2)
    (hb : Keeps r b.2) : Keeps r (@ite (α × State) c d a b).2 := by
  cases d <;> assumption

theorem Keeps.when {r s : State} {c : Bool} {g : State → State} (h : Keeps r s) (hg : ∀ u, Keeps r u → Keeps r (g u)) :
    Keeps r (s.when c g) := by
  unfold State.when; split
  · exact hg s h
  · exact h

theorem Keeps.each {α : Type} {r s : State} {l : List α} {g : α → State → State} (h : Keeps r s)
    (hg : ∀ a u, Keeps r u → Keeps r (g a u)) : Keeps r (s.each l g) := by
  unfold State.each
  induction l generalizing s with
  | nil => exact h
  | cons a l ih => exact ih (hg a s h)

theorem Keeps.foldl {α : Type} {r s : State} {l : List α} {g : State → α → State} (h : Keeps r s)
    (hg : ∀ a u, Keeps r u → Keeps r (g u a)) : Keeps r (l.foldl g s) := by
  induction l generalizing s with
  | nil => exact h
  | cons a l ih => exact ih (hg a s h)

/-- A change of the parts that neither the queue nor the invariant looks at. -/
theorem Keeps.other {r s : State} {now fresh running candidate imgRecord votes tests deferred svcQ straits homeQ work asks emits
    ports slots bg tsf dpllHist thermal mbxIn mbxOpen mbxOut snaps staged answer pb tap tck} (h : Keeps r s) :
    Keeps r ⟨s.pending, now, fresh, s.regs, s.live, s.nvm, s.evf, running, candidate, imgRecord, s.retained, votes, tests,
      deferred, svcQ, s.data, straits, s.stores, homeQ, work, asks, emits, ports, slots, bg, tsf, s.exch, dpllHist, thermal, mbxIn, mbxOpen, mbxOut,
      s.pages, s.bufs, s.info, snaps, staged, answer, pb, tap, tck⟩ := ⟨h.queue, h.inv⟩

theorem State.Inv.regs {s : State} {m : Store} (h : s.Inv) (hm : s.regs.wf = true → m.wf = true) :
    State.Inv { s with regs := m } := by
  obtain ⟨hw, he, hf⟩ := h
  refine ⟨?_, he, hf⟩
  simp only [State.wf, Bool.and_eq_true] at hw ⊢
  exact ⟨⟨⟨⟨⟨⟨hm hw.1.1.1.1.1.1, hw.1.1.1.1.1.2⟩, hw.1.1.1.1.2⟩, hw.1.1.1.2⟩, hw.1.1.2⟩, hw.1.2⟩, hw.2⟩

theorem State.Inv.live {s : State} {m : Store} (h : s.Inv) (hm : s.live.wf = true → m.wf = true) :
    State.Inv { s with live := m } := by
  obtain ⟨hw, he, hf⟩ := h
  refine ⟨?_, he, hf⟩
  simp only [State.wf, Bool.and_eq_true] at hw ⊢
  exact ⟨⟨⟨⟨⟨⟨hw.1.1.1.1.1.1, hm hw.1.1.1.1.1.2⟩, hw.1.1.1.1.2⟩, hw.1.1.1.2⟩, hw.1.1.2⟩, hw.1.2⟩, hw.2⟩

theorem State.Inv.nvm {s : State} {m : Store} (h : s.Inv) (hm : s.nvm.wf = true → m.wf = true) :
    State.Inv { s with nvm := m } := by
  obtain ⟨hw, he, hf⟩ := h
  refine ⟨?_, he, hf⟩
  simp only [State.wf, Bool.and_eq_true] at hw ⊢
  exact ⟨⟨⟨⟨⟨⟨hw.1.1.1.1.1.1, hw.1.1.1.1.1.2⟩, hm hw.1.1.1.1.2⟩, hw.1.1.1.2⟩, hw.1.1.2⟩, hw.1.2⟩, hw.2⟩

theorem State.Inv.pages {s : State} {m : Memory} (h : s.Inv) (hm : s.pages.wf = true → m.wf = true) :
    State.Inv { s with pages := m } := by
  obtain ⟨hw, he, hf⟩ := h
  refine ⟨?_, he, hf⟩
  simp only [State.wf, Bool.and_eq_true] at hw ⊢
  exact ⟨⟨⟨⟨⟨⟨hw.1.1.1.1.1.1, hw.1.1.1.1.1.2⟩, hw.1.1.1.1.2⟩, hw.1.1.1.2⟩, hm hw.1.1.2⟩, hw.1.2⟩, hw.2⟩

theorem State.Inv.bufs {s : State} {m : Memory} (h : s.Inv) (hm : s.bufs.wf = true → m.wf = true) :
    State.Inv { s with bufs := m } := by
  obtain ⟨hw, he, hf⟩ := h
  refine ⟨?_, he, hf⟩
  simp only [State.wf, Bool.and_eq_true] at hw ⊢
  exact ⟨⟨⟨⟨⟨⟨hw.1.1.1.1.1.1, hw.1.1.1.1.1.2⟩, hw.1.1.1.1.2⟩, hw.1.1.1.2⟩, hw.1.1.2⟩, hm hw.1.2⟩, hw.2⟩

theorem State.Inv.info {s : State} {m : Memory} (h : s.Inv) (hm : s.info.wf = true → m.wf = true) :
    State.Inv { s with info := m } := by
  obtain ⟨hw, he, hf⟩ := h
  refine ⟨?_, he, hf⟩
  simp only [State.wf, Bool.and_eq_true] at hw ⊢
  exact ⟨⟨⟨⟨⟨⟨hw.1.1.1.1.1.1, hw.1.1.1.1.1.2⟩, hw.1.1.1.1.2⟩, hw.1.1.1.2⟩, hw.1.1.2⟩, hw.1.2⟩, hm hw.2⟩

theorem State.Inv.retained {s : State} {m : Store} (h : s.Inv) (hm : s.Inv → m.wf = true) :
    State.Inv { s with retained := m } := by
  have hm' := hm h
  obtain ⟨hw, he, hf⟩ := h
  refine ⟨?_, he, hf⟩
  simp only [State.wf, Bool.and_eq_true] at hw ⊢
  exact ⟨⟨⟨⟨⟨⟨hw.1.1.1.1.1.1, hw.1.1.1.1.1.2⟩, hw.1.1.1.1.2⟩, hm'⟩, hw.1.1.2⟩, hw.1.2⟩, hw.2⟩

theorem State.Inv.regs_wf {s : State} (h : s.Inv) : s.regs.wf = true := by
  have := h.1
  simp only [State.wf, Bool.and_eq_true] at this
  exact this.1.1.1.1.1.1

theorem State.Inv.retained_wf {s : State} (h : s.Inv) : s.retained.wf = true := by
  have := h.1
  simp only [State.wf, Bool.and_eq_true] at this
  exact this.1.1.1.2

theorem State.Inv.evf {s : State} {l : List Nat} (h : s.Inv) (hl : l.length ≤ evfWords) :
    State.Inv { s with evf := l } := ⟨h.1, h.2.1, hl⟩

theorem Keeps.pages {r s : State} {m : Memory} (h : Keeps r s) (hm : s.pages.wf = true → m.wf = true) :
    Keeps r { s with pages := m } := ⟨h.queue, fun i => (h.inv i).pages hm⟩

theorem Keeps.bufs {r s : State} {m : Memory} (h : Keeps r s) (hm : s.bufs.wf = true → m.wf = true) :
    Keeps r { s with bufs := m } := ⟨h.queue, fun i => (h.inv i).bufs hm⟩

theorem Keeps.info {r s : State} {m : Memory} (h : Keeps r s) (hm : s.info.wf = true → m.wf = true) :
    Keeps r { s with info := m } := ⟨h.queue, fun i => (h.inv i).info hm⟩

theorem Keeps.nvm {r s : State} {m : Store} (h : Keeps r s) (hm : s.Inv → s.nvm.wf = true → m.wf = true) :
    Keeps r { s with nvm := m } := ⟨h.queue, fun i => (h.inv i).nvm (hm (h.inv i))⟩

theorem Keeps.retained {r s : State} {m : Store} (h : Keeps r s) (hm : s.Inv → m.wf = true) :
    Keeps r { s with retained := m } := ⟨h.queue, fun i => (h.inv i).retained hm⟩

theorem Keeps.evf {r s : State} {l : List Nat} (h : Keeps r s) (hl : s.evf.length ≤ evfWords → l.length ≤ evfWords) :
    Keeps r { s with evf := l } := ⟨h.queue, fun i => (h.inv i).evf (hl (h.inv i).2.2)⟩

theorem Keeps.resetRegs {r s : State} {p : Key → Bool} (h : Keeps r s) :
    Keeps r { s with regs := s.regs.resetWhere p } := ⟨h.queue, fun i => (h.inv i).regs (Store.wf_resetWhere _ p)⟩

/-- The parts that a loss of power outside AON empties. -/
theorem Keeps.emptied {r s : State} {now fresh running candidate imgRecord votes tests deferred svcQ straits homeQ work asks emits
    ports slots bg tsf dpllHist thermal mbxIn mbxOpen mbxOut snaps staged answer pb tap tck} (h : Keeps r s) :
    Keeps r ⟨s.pending, now, fresh, s.regs, s.live, s.nvm, [], running, candidate, imgRecord, s.retained, votes, tests,
      deferred, svcQ, List.replicate 8 LaneData.none, straits, s.stores, homeQ, work, asks, emits, ports, slots, bg, tsf, List.replicate 8 LinkExchange.none, dpllHist, thermal,
      mbxIn, mbxOpen, mbxOut, [], [], s.info, snaps, staged, answer, pb, tap, tck⟩ := by
  refine ⟨h.queue, fun i => ⟨?_, ⟨rfl, rfl, (h.inv i).2.1.2.2⟩, Nat.zero_le _⟩⟩
  have hw := (h.inv i).1
  simp only [State.wf, Bool.and_eq_true] at hw ⊢
  exact ⟨⟨⟨⟨⟨⟨hw.1.1.1.1.1.1, hw.1.1.1.1.1.2⟩, hw.1.1.1.1.2⟩, hw.1.1.1.2⟩, rfl⟩, rfl⟩, hw.2⟩

/-- A change of the two records of Deep. -/
theorem Keeps.records {r s : State} {m : Store} {i : Option Image} (h : Keeps r s) (hm : s.Inv → m.wf = true) :
    Keeps r { s with imgRecord := i, retained := m } := ⟨h.queue, fun k => (h.inv k).retained hm⟩

/-! ## The primitive operations -/

theorem State.wr_keeps {r s : State} {f : Field} {v n i : Nat} (h : Keeps r s) : Keeps r (s.wr f v n i) :=
  ⟨h.queue, fun k => (h.inv k).regs (Store.wf_set _ _ v)⟩

theorem State.setUse_keeps {r s : State} {f : Field} {v n i : Nat} (h : Keeps r s) : Keeps r (s.setUse f v n i) :=
  ⟨h.queue, fun k => (h.inv k).live (Store.wf_set _ _ v)⟩

theorem State.nvmSet_keeps {r s : State} {f : Field} {v n i : Nat} (h : Keeps r s) : Keeps r (s.nvmSet f v n i) :=
  ⟨h.queue, fun k => (h.inv k).nvm (Store.wf_set _ _ v)⟩

theorem State.resetFields_keeps {r s : State} {p : Key → Bool} (h : Keeps r s) : Keeps r (s.resetFields p) :=
  ⟨h.queue, fun k => ((h.inv k).regs (Store.wf_resetWhere _ p)).live (Store.wf_resetWhere _ p)⟩

theorem State.setEx_keeps {r s : State} {n : Nat} {e : LinkExchange} (h : Keeps r s) : Keeps r (s.setEx n e) :=
  ⟨h.queue, fun k => ⟨(h.inv k).1, ⟨by simpa [State.setEx] using (h.inv k).2.1.1, (h.inv k).2.1.2⟩, (h.inv k).2.2⟩⟩

theorem State.setLd_keeps {r s : State} {n : Nat} {d : LaneData} (h : Keeps r s) : Keeps r (s.setLd n d) :=
  ⟨h.queue, fun k => ⟨(h.inv k).1, ⟨(h.inv k).2.1.1, by simpa [State.setLd] using (h.inv k).2.1.2.1, (h.inv k).2.1.2.2⟩,
    (h.inv k).2.2⟩⟩

/-- The microcode stores take other contents. -/
theorem Keeps.stores {r s : State} {l : List Nat} (h : Keeps r s) (hl : l.length = s.stores.length) :
    Keeps r { s with stores := l } :=
  ⟨h.queue, fun k => ⟨(h.inv k).1, ⟨(h.inv k).2.1.1, (h.inv k).2.1.2.1, hl.trans (h.inv k).2.1.2.2⟩, (h.inv k).2.2⟩⟩

/-- Setting elements of a list keeps its length. -/
theorem length_foldl_set {α β : Type} (f : α → Nat) (g : α → β) (l : List α) (m : List β) :
    (l.foldl (fun m a => m.set (f a) (g a)) m).length = m.length := by
  induction l generalizing m with
  | nil => rfl
  | cons a l ih => rw [List.foldl_cons, ih, List.length_set]

theorem State.free_keeps {r s : State} (h : Keeps r s) : Keeps r s.free.2 := ⟨h.queue, h.inv⟩

end Sys2Proof.Machine
end

