-- ==== Sys2Proof/Laws/KeepsOps.lean ====
section
/-!
SUPPORT. The operations of Ops keep the queue and the invariant.
-/
set_option Elab.async false
set_option linter.all false
namespace Sys2Proof.Machine

theorem State.wrInt_keeps {r : State} {s : State} {f : Field} {v : Int} {n : Nat} {i : Nat} (hk : Keeps r s) :
    Keeps r (State.wrInt s f v n i) := by
  unfold State.wrInt
  repeat' first
    | intro _
    | (with_reducible first | assumption | exact Keeps.refl _ | apply State.wr_keeps)
    | extract_lets

theorem State.wrb_keeps {r : State} {s : State} {f : Field} {b : Bool} {n : Nat} {i : Nat} (hk : Keeps r s) :
    Keeps r (State.wrb s f b n i) := by
  unfold State.wrb
  repeat' first
    | intro _
    | (with_reducible first | assumption | exact Keeps.refl _ | apply State.wr_keeps)
    | extract_lets

theorem State.bump_keeps {r : State} {s : State} {f : Field} {n : Nat} {i : Nat} {k : Nat} (hk : Keeps r s) :
    Keeps r (State.bump s f n i k) := by
  unfold State.bump
  repeat' first
    | intro _
    | (with_reducible first | assumption | exact Keeps.refl _ | apply State.wr_keeps)
    | extract_lets

theorem State.clear_keeps {r : State} {s : State} {l : List Field} {n : Nat} (hk : Keeps r s) :
    Keeps r (State.clear s l n) := by
  unfold State.clear
  repeat' first
    | intro _
    | (with_reducible first | assumption | exact Keeps.refl _ | apply State.wr_keeps | apply Keeps.each)
    | extract_lets | dsimp only

theorem State.raise_keeps {r : State} {s : State} {f : Field} {k : Nat} {n : Nat} (hk : Keeps r s) :
    Keeps r (State.raise s f k n) := by
  unfold State.raise
  repeat' first
    | intro _
    | (with_reducible first | assumption | exact Keeps.refl _ | apply State.wr_keeps)
    | extract_lets

theorem State.setMask_keeps {r : State} {s : State} {f : Field} {k : Nat} {b : Bool} {n : Nat} (hk : Keeps r s) :
    Keeps r (State.setMask s f k b n) := by
  unfold State.setMask
  repeat' first
    | intro _
    | (with_reducible first | assumption | exact Keeps.refl _ | apply State.wr_keeps)
    | extract_lets

theorem State.puts_keeps {r : State} {s : State} {l : List (Field × Nat)} {n : Nat} (hk : Keeps r s) :
    Keeps r (State.puts s l n) := by
  unfold State.puts
  repeat' first
    | intro _
    | (with_reducible first | assumption | exact Keeps.refl _ | apply State.wr_keeps | apply Keeps.each)
    | extract_lets | dsimp only

theorem State.setMask'_keeps {r : State} {s : State} {f : Field} {i k : Nat} {b : Bool} (hk : Keeps r s) :
    Keeps r (State.setMask' s f i k b) := by
  unfold State.setMask'
  repeat' first
    | intro _
    | (with_reducible first | assumption | exact Keeps.refl _ | apply State.wr_keeps)
    | extract_lets

theorem State.wrNow_keeps {r : State} {s : State} {f : Field} {v : Nat} {n : Nat} {i : Nat} (hk : Keeps r s) :
    Keeps r (State.wrNow s f v n i) := by
  unfold State.wrNow
  repeat' first
    | intro _
    | (with_reducible first | assumption | exact Keeps.refl _ | apply State.wr_keeps | apply State.setUse_keeps)
    | extract_lets

theorem State.wrFree_keeps {r : State} {s : State} {f : Field} {n : Nat} {i : Nat} (hk : Keeps r s) :
    Keeps r (State.wrFree s f n i) := by
  unfold State.wrFree
  repeat' first
    | intro _
    | (with_reducible first | assumption | exact Keeps.refl _ | apply State.free_keeps | apply State.wr_keeps)
    | extract_lets | dsimp only

theorem State.evfPut_keeps {r s : State} {ws : List Nat} (hk : Keeps r s) (hl : s.evf.length + ws.length ≤ evfWords) :
    Keeps r (s.evfPut ws) := by
  have h1 : Keeps r { s with evf := s.evf ++ ws } := Keeps.evf hk (fun _ => by simpa using hl)
  unfold State.evfPut
  refine Keeps.when (Keeps.when (State.wr_keeps h1) ?_) ?_ <;> intro u hu
  · exact State.raise_keeps hu
  · exact State.raise_keeps (State.wr_keeps hu)

theorem State.evfFail_keeps {r s : State} {ty : Nat} {payload : List Nat} (hk : Keeps r s)
    (hl : s.evf.length ≤ evfWords) : Keeps r (s.evfFail ty payload) := by
  have h1 : Keeps r ((s.wr .evfOverrun 1).raise .evfIntStatus Irq.evfOverrun) :=
    State.raise_keeps (State.wr_keeps hk)
  have he : ((s.wr .evfOverrun 1).raise .evfIntStatus Irq.evfOverrun).evf = s.evf := rfl
  unfold State.evfFail
  dsimp only
  split
  · exact State.raise_keeps (State.bump_keeps h1)
  · split
    · exact State.raise_keeps (State.bump_keeps h1)
    · split
      · refine State.evfPut_keeps h1 ?_
        rw [he]; simp only [List.length_cons, List.length_nil]; omega
      · refine State.evfPut_keeps h1 ?_
        rw [he]; simp only [State.record1, List.length_append, List.length_cons, List.length_nil, List.length_take]; omega

theorem State.evfPut_pending (s : State) (ws : List Nat) : (s.evfPut ws).pending = s.pending := by
  unfold State.evfPut State.when
  dsimp only
  split <;> split <;> rfl

theorem State.evfFail_pending (s : State) (ty : Nat) (payload : List Nat) :
    (s.evfFail ty payload).pending = s.pending := by
  unfold State.evfFail
  dsimp only
  split
  · rfl
  · split
    · rfl
    · split <;> exact State.evfPut_pending _ _

theorem State.emit_keeps {r s : State} {ty obj : Nat} {payload : List Nat} (hk : Keeps r s) :
    Keeps r (s.emit ty obj payload) := by
  refine ⟨?_, fun hr => ?_⟩
  · rw [← hk.queue]
    unfold State.emit
    dsimp only
    split
    · rfl
    · split <;> first | exact State.evfPut_pending _ _ | exact State.evfFail_pending _ _ _ | (split <;> first | exact State.evfPut_pending _ _ | exact State.evfFail_pending _ _ _)
  · have hl : s.evf.length ≤ evfWords := (hk.inv hr).2.2
    have h1 : Keeps r (s.wr .evfSeq (s.rd .evfSeq + 1)) := State.wr_keeps hk
    refine Keeps.inv_of ?_ hr
    unfold State.emit
    dsimp only
    split
    · exact State.bump_keeps h1
    · split <;> split
      · exact State.evfPut_keeps h1 (by assumption)
      · exact State.evfFail_keeps h1 hl
      · exact State.evfPut_keeps h1 (by assumption)
      · exact State.evfFail_keeps h1 hl

theorem State.testResult_keeps {r : State} {s : State} {kind unit res : Nat} {origin : TestOrigin} (hk : Keeps r s) :
    Keeps r (State.testResult s kind unit res origin) := by
  unfold State.testResult
  repeat' first
    | intro _
    | (with_reducible first | assumption | exact Keeps.refl _ | apply State.emit_keeps | apply State.puts_keeps | apply State.raise_keeps | apply Keeps.cond)
    | extract_lets | split

theorem State.testReinit_keeps {r : State} {s : State} {kind unit : Nat} (hk : Keeps r s) :
    Keeps r (State.testReinit s kind unit) := by
  unfold State.testReinit
  repeat' first
    | intro _
    | (with_reducible first | assumption | exact Keeps.refl _ | apply Keeps.cond)
    | extract_lets | dsimp only | split
    | (with_reducible first | apply Keeps.other)

theorem State.endTest_keeps {r : State} {s : State} {kind unit : Nat} {cnt : Field} (hk : Keeps r s) :
    Keeps r (State.endTest s kind unit cnt) := by
  unfold State.endTest
  repeat' first
    | intro _
    | (with_reducible first | assumption | exact Keeps.refl _ | apply State.testReinit_keeps | apply State.wr_keeps | apply State.bump_keeps | apply State.raise_keeps | apply State.testResult_keeps | apply Keeps.when | apply Keeps.cond)
    | extract_lets | dsimp only | split

theorem State.service_keeps {r0 : State} {s : State} {kind unit : Nat} {flag : Bool} {r : SvcReq} {g : State → State} (hgg : ∀ u, Keeps r0 u → Keeps r0 (g u)) (hk : Keeps r0 s) :
    Keeps r0 (State.service s kind unit flag r g) := by
  unfold State.service
  repeat' first
    | intro _
    | (with_reducible first | apply hgg | assumption | exact Keeps.refl _ | apply State.endTest_keeps | apply Keeps.when | apply Keeps.cond)
    | extract_lets | dsimp only | split
    | (with_reducible first | apply Keeps.other)

theorem State.laneService_keeps {r0 : State} {s : State} {n : Nat} {r : SvcReq} {g : State → State} (hgg : ∀ u, Keeps r0 u → Keeps r0 (g u)) (hk : Keeps r0 s) :
    Keeps r0 (State.laneService s n r g) := by
  unfold State.laneService
  repeat' first
    | intro _
    | (with_reducible first | apply hgg | assumption | exact Keeps.refl _ | apply State.service_keeps | apply Keeps.cond)
    | extract_lets | split

theorem State.hostService_keeps {r0 : State} {s : State} {h : Nat} {r : SvcReq} {g : State → State} (hgg : ∀ u, Keeps r0 u → Keeps r0 (g u)) (hk : Keeps r0 s) :
    Keeps r0 (State.hostService s h r g) := by
  unfold State.hostService
  repeat' first
    | intro _
    | (with_reducible first | apply hgg | assumption | exact Keeps.refl _ | apply State.service_keeps)
    | extract_lets

theorem State.atcStop_keeps {r : State} {s : State} (hk : Keeps r s) :
    Keeps r (State.atcStop s) := by
  unfold State.atcStop
  repeat' first
    | intro _
    | (with_reducible first | assumption | exact Keeps.refl _ | apply State.wr_keeps)
    | extract_lets

theorem State.atcRun_keeps {r : State} {s : State} (hk : Keeps r s) :
    Keeps r (State.atcRun s) := by
  unfold State.atcRun
  repeat' first
    | intro _
    | (with_reducible first | assumption | exact Keeps.refl _ | apply State.wr_keeps | apply Keeps.cond)
    | extract_lets | split

theorem State.straitPut_keeps {r : State} {s : State} {id : Nat} {ws : List StraitWord} (hk : Keeps r s) :
    Keeps r (State.straitPut s id ws) := by
  unfold State.straitPut
  repeat' first
    | intro _
    | (with_reducible first | assumption | exact Keeps.refl _)
    | extract_lets
    | (with_reducible first | apply Keeps.other)

theorem State.straitFlush_keeps {r : State} {s : State} {p : StraitWord → Bool} (hk : Keeps r s) :
    Keeps r (State.straitFlush s p) := by
  unfold State.straitFlush
  repeat' first
    | intro _
    | (with_reducible first | assumption | exact Keeps.refl _)
    | extract_lets | dsimp only
    | (with_reducible first | apply Keeps.other)

theorem State.straitDrop_keeps {r : State} {s : State} {id k : Nat} (hk : Keeps r s) :
    Keeps r (State.straitDrop s id k) := by
  unfold State.straitDrop
  repeat' first
    | intro _
    | (with_reducible first | assumption | exact Keeps.refl _ | apply State.bump_keeps | apply State.wr_keeps | apply State.raise_keeps)
    | extract_lets

theorem State.arcClusterOff_keeps {r : State} {s : State} {c : Nat} (hk : Keeps r s) :
    Keeps r (State.arcClusterOff s c) := by
  unfold State.arcClusterOff
  repeat' first
    | intro _
    | (with_reducible first | assumption | exact Keeps.refl _)
    | extract_lets | dsimp only
    | (with_reducible first | apply Keeps.other)

theorem State.xbarOff_keeps {r : State} {s : State} (hk : Keeps r s) :
    Keeps r (State.xbarOff s) := by
  unfold State.xbarOff
  repeat' first
    | intro _
    | (with_reducible first | assumption | exact Keeps.refl _ | apply State.straitFlush_keeps)
    | extract_lets | dsimp only
    | (with_reducible first | apply Keeps.other)

theorem State.exchClear_keeps {r : State} {s : State} {n : Nat} (hk : Keeps r s) :
    Keeps r (State.exchClear s n) := by
  unfold State.exchClear
  repeat' first
    | intro _
    | (with_reducible first | assumption | exact Keeps.refl _ | apply State.setEx_keeps | apply State.wr_keeps)
    | extract_lets
    | (with_reducible first | apply Keeps.other)

theorem State.exchMiss_keeps {r : State} {s : State} {n : Nat} (hk : Keeps r s) :
    Keeps r (State.exchMiss s n) := by
  unfold State.exchMiss
  repeat' first
    | intro _
    | (with_reducible first | assumption | exact Keeps.refl _ | apply State.setEx_keeps | apply State.bump_keeps)
    | extract_lets
    | (with_reducible first | apply Keeps.other)

theorem State.todDisc_keeps {r : State} {s : State} (hk : Keeps r s) :
    Keeps r (State.todDisc s) := by
  unfold State.todDisc
  repeat' first
    | intro _
    | (with_reducible first | assumption | exact Keeps.refl _ | apply State.puts_keeps | apply State.setEx_keeps | apply State.exchClear_keeps | apply Keeps.each)
    | extract_lets | dsimp only
    | (with_reducible first | apply Keeps.other)

theorem State.capStop_keeps {r : State} {s : State} {p : Nat} (hk : Keeps r s) :
    Keeps r (State.capStop s p) := by
  unfold State.capStop
  repeat' first
    | intro _
    | (with_reducible first | assumption | exact Keeps.refl _ | apply State.wr_keeps | apply Keeps.each | apply Keeps.cond)
    | extract_lets | dsimp only | split

theorem State.driftApply_keeps {r : State} {s : State} {p : Nat} (hk : Keeps r s) :
    Keeps r (State.driftApply s p) := by
  unfold State.driftApply
  repeat' first
    | intro _
    | (with_reducible first | assumption | exact Keeps.refl _ | apply State.wr_keeps | apply Keeps.cond)
    | extract_lets | split

theorem State.linMeasured_keeps {r : State} {s : State} {p q : Nat} {a b : BitVec 1024} (hk : Keeps r s) :
    Keeps r (State.linMeasured s p q a b) := by
  unfold State.linMeasured
  repeat' first
    | intro _
    | (with_reducible first | assumption | exact Keeps.refl _ | apply State.wr_keeps)
    | extract_lets

end Sys2Proof.Machine
end

