-- ==== Sys2Proof/Laws/KeepsAccess.lean ====
section
/-!
SUPPORT. The operations of Access keep the queue and the invariant.
-/
set_option Elab.async false
set_option linter.all false
namespace Sys2Proof.Machine

theorem State.busErr_keeps {r : State} {s : State} (hk : Keeps r s) :
    Keeps r (State.busErr s) := by
  unfold State.busErr
  repeat' first
    | intro _
    | (with_reducible first | assumption | exact Keeps.refl _ | apply State.raise_keeps)
    | extract_lets

theorem State.rgStopped_keeps {r : State} {s : State} (hk : Keeps r s) :
    Keeps r (State.rgStopped s) := by
  unfold State.rgStopped
  repeat' first
    | intro _
    | (with_reducible first | assumption | exact Keeps.refl _ | apply State.busErr_keeps | apply State.bump_keeps)
    | extract_lets

theorem State.access_keeps {r : State} {s : State} {b : Block} {n : Nat} {g : State → State} (hgg : ∀ u, Keeps r u → Keeps r (g u)) (hk : Keeps r s) :
    Keeps r (State.access s b n g) := by
  unfold State.access
  repeat' first
    | intro _
    | (with_reducible first | apply hgg | assumption | exact Keeps.refl _ | apply State.rgStopped_keeps | apply Keeps.cond)
    | extract_lets | split

end Sys2Proof.Machine
end

