-- ==== Sys2Proof/Laws/KeepsOperands.lean ====
section
/-!
SUPPORT. The operations of Operands keep the queue and the invariant.
-/
set_option Elab.async false
set_option linter.all false
namespace Sys2Proof.Machine

theorem State.fomOf_keeps {r : State} {s : State} {mse : Nat} (hk : Keeps r s) :
    Keeps r (State.fomOf s mse).2 := by
  unfold State.fomOf
  repeat' first
    | intro _
    | (with_reducible first | assumption | exact Keeps.refl _ | apply State.free_keeps | apply Keeps.cond_snd | apply Keeps.cond)
    | extract_lets | dsimp only | split

end Sys2Proof.Machine
end

