-- ==== Sys2Proof/Laws/KeepsStructure.lean ====
section
/-!
SUPPORT. The operations of Structure keep the queue and the invariant.
-/
set_option Elab.async false
set_option linter.all false
namespace Sys2Proof.Machine

theorem State.loadStores_keeps {r s : State} {engs : List Nat} (hk : Keeps r s) : Keeps r (s.loadStores engs) := by
  unfold State.loadStores
  exact Keeps.stores hk (length_foldl_set _ _ _ _)

theorem State.clearStores_keeps {r s : State} {c : Nat} (hk : Keeps r s) : Keeps r (s.clearStores c) := by
  unfold State.clearStores
  exact Keeps.stores hk (length_foldl_set _ _ _ _)

end Sys2Proof.Machine
end

