-- ==== Sys2Proof/Laws/KeepsLaneOps.lean ====
section
/-!
SUPPORT. The operations of LaneOps keep the queue and the invariant.
-/
set_option Elab.async false
set_option linter.all false
namespace Sys2Proof.Machine

theorem State.cmis_keeps {r : State} {s : State} {k : CmisFlag} {n : Nat} (hk : Keeps r s) :
    Keeps r (State.cmis s k n) := by
  unfold State.cmis
  repeat' first
    | intro _
    | (with_reducible first | assumption | exact Keeps.refl _ | apply State.wr_keeps | apply State.raise_keeps | apply Keeps.when)
    | extract_lets | dsimp only

theorem sourceCmis_keeps {r : State} {src inst : Nat} {s : State} (hk : Keeps r s) :
    Keeps r (sourceCmis src inst s) := by
  unfold sourceCmis
  repeat' first
    | intro _
    | (with_reducible first | assumption | exact Keeps.refl _ | apply State.cmis_keeps | apply Keeps.cond)
    | extract_lets | split

theorem State.countEvent_keeps {r : State} {s : State} {src inst : Nat} {k : Nat} (hk : Keeps r s) :
    Keeps r (State.countEvent s src inst k).1 := by
  unfold State.countEvent
  repeat' first
    | intro _
    | (with_reducible first | assumption | exact Keeps.refl _ | apply State.bump_keeps | apply State.wr_keeps | apply State.setMask'_keeps | apply State.raise_keeps | apply State.emit_keeps | apply sourceCmis_keeps | apply Keeps.cond | apply Keeps.cond)
    | extract_lets | dsimp only | split

theorem State.clearLasting_keeps {r : State} {s : State} {src inst : Nat} (hk : Keeps r s) :
    Keeps r (State.clearLasting s src inst) := by
  unfold State.clearLasting
  repeat' first
    | intro _
    | (with_reducible first | assumption | exact Keeps.refl _ | apply State.setMask'_keeps | apply State.wr_keeps | apply Keeps.cond)
    | extract_lets | split

theorem State.clearLastings_keeps {r : State} {s : State} {srcs : List Nat} {inst : Nat} (hk : Keeps r s) :
    Keeps r (State.clearLastings s srcs inst) := by
  unfold State.clearLastings
  repeat' first
    | intro _
    | (with_reducible first | assumption | exact Keeps.refl _ | apply State.clearLasting_keeps | apply Keeps.each)
    | extract_lets | dsimp only

theorem State.leqStart_keeps {r : State} {s : State} {n : Nat} (hk : Keeps r s) :
    Keeps r (State.leqStart s n) := by
  unfold State.leqStart
  repeat' first
    | intro _
    | (with_reducible first | assumption | exact Keeps.refl _ | apply State.wr_keeps | apply State.puts_keeps | apply Keeps.each | apply Keeps.cond)
    | extract_lets | dsimp only | split

theorem State.leqFollow_keeps {r : State} {s : State} {n : Nat} (hk : Keeps r s) :
    Keeps r (State.leqFollow s n) := by
  unfold State.leqFollow
  repeat' first
    | intro _
    | (with_reducible first | assumption | exact Keeps.refl _ | apply State.puts_keeps | apply Keeps.cond)
    | extract_lets | split

theorem State.leqD1Put_keeps {r : State} {s : State} {n : Nat} {d : Int} (hk : Keeps r s) :
    Keeps r (State.leqD1Put s n d) := by
  unfold State.leqD1Put
  repeat' first
    | intro _
    | (with_reducible first | assumption | exact Keeps.refl _ | apply State.wrInt_keeps | apply State.wrb_keeps)
    | extract_lets

theorem State.mlsePut_keeps {r : State} {s : State} {n : Nat} (hk : Keeps r s) :
    Keeps r (State.mlsePut s n) := by
  unfold State.mlsePut
  repeat' first
    | intro _
    | (with_reducible first | assumption | exact Keeps.refl _ | apply State.puts_keeps | apply State.leqD1Put_keeps | apply Keeps.when)
    | extract_lets | dsimp only

theorem State.mlseApply_keeps {r : State} {s : State} {n : Nat} (hk : Keeps r s) :
    Keeps r (State.mlseApply s n) := by
  unfold State.mlseApply
  repeat' first
    | intro _
    | (with_reducible first | assumption | exact Keeps.refl _ | apply State.mlsePut_keeps | apply State.raise_keeps)
    | extract_lets

theorem State.applyShadow_keeps {r : State} {s : State} {l : List Field} {n : Nat} {i : Nat} (hk : Keeps r s) :
    Keeps r (State.applyShadow s l n i) := by
  unfold State.applyShadow
  repeat' first
    | intro _
    | (with_reducible first | assumption | exact Keeps.refl _ | apply State.setUse_keeps | apply Keeps.each)
    | extract_lets | dsimp only

theorem State.leqRestore_keeps {r : State} {s : State} {n : Nat} (hk : Keeps r s) :
    Keeps r (State.leqRestore s n) := by
  unfold State.leqRestore
  repeat' first
    | intro _
    | (with_reducible first | assumption | exact Keeps.refl _ | apply State.wr_keeps | apply State.leqD1Put_keeps | apply Keeps.each | apply Keeps.cond)
    | extract_lets | dsimp only | split

theorem State.thrManual_keeps {r : State} {s : State} {n : Nat} (hk : Keeps r s) :
    Keeps r (State.thrManual s n) := by
  unfold State.thrManual
  repeat' first
    | intro _
    | (with_reducible first | assumption | exact Keeps.refl _ | apply State.puts_keeps | apply Keeps.when)
    | extract_lets | dsimp only

theorem State.leqApplyOf_keeps {r : State} {s : State} {n : Nat} {l : List Field} {taps : List Nat} (hk : Keeps r s) :
    Keeps r (State.leqApplyOf s n l taps) := by
  unfold State.leqApplyOf
  repeat' first
    | intro _
    | (with_reducible first | assumption | exact Keeps.refl _ | apply State.applyShadow_keeps | apply State.wrInt_keeps | apply State.wr_keeps | apply State.leqD1Put_keeps | apply State.mlseApply_keeps | apply State.wrb_keeps | apply State.thrManual_keeps | apply Keeps.each | apply Keeps.when | apply Keeps.cond)
    | extract_lets | dsimp only | split

theorem State.leqCommitApply_keeps {r : State} {s : State} {n : Nat} (hk : Keeps r s) :
    Keeps r (State.leqCommitApply s n) := by
  unfold State.leqCommitApply
  repeat' first
    | intro _
    | (with_reducible first | assumption | exact Keeps.refl _ | apply State.leqApplyOf_keeps | apply State.wr_keeps)
    | extract_lets

theorem State.leqAdaptApply_keeps {r : State} {s : State} {n : Nat} (hk : Keeps r s) :
    Keeps r (State.leqAdaptApply s n) := by
  unfold State.leqAdaptApply
  repeat' first
    | intro _
    | (with_reducible first | assumption | exact Keeps.refl _ | apply State.wrInt_keeps | apply State.wr_keeps | apply State.leqD1Put_keeps | apply State.raise_keeps | apply State.puts_keeps | apply Keeps.each | apply Keeps.when)
    | extract_lets | dsimp only

theorem State.leqAdaptDrop_keeps {r : State} {s : State} {n : Nat} (hk : Keeps r s) :
    Keeps r (State.leqAdaptDrop s n) := by
  unfold State.leqAdaptDrop
  repeat' first
    | intro _
    | (with_reducible first | assumption | exact Keeps.refl _ | apply State.wr_keeps | apply State.puts_keeps | apply Keeps.each)
    | extract_lets | dsimp only

theorem State.leqSnapshot_keeps {r : State} {s : State} {n : Nat} (hk : Keeps r s) :
    Keeps r (State.leqSnapshot s n) := by
  unfold State.leqSnapshot
  repeat' first
    | intro _
    | (with_reducible first | assumption | exact Keeps.refl _ | apply State.wr_keeps | apply State.puts_keeps | apply Keeps.each)
    | extract_lets | dsimp only

theorem State.thrTake_keeps {r : State} {s : State} {n : Nat} (hk : Keeps r s) :
    Keeps r (State.thrTake s n) := by
  unfold State.thrTake
  repeat' first
    | intro _
    | (with_reducible first | assumption | exact Keeps.refl _ | apply State.puts_keeps | apply Keeps.when)
    | extract_lets | dsimp only

theorem State.leqBoundary_keeps {r : State} {s : State} {n : Nat} (hk : Keeps r s) :
    Keeps r (State.leqBoundary s n) := by
  unfold State.leqBoundary
  repeat' first
    | intro _
    | (with_reducible first | assumption | exact Keeps.refl _ | apply State.leqRestore_keeps | apply State.leqAdaptDrop_keeps | apply State.leqCommitApply_keeps | apply State.leqAdaptApply_keeps | apply State.thrTake_keeps | apply State.leqSnapshot_keeps | apply Keeps.when | apply Keeps.cond)
    | extract_lets | dsimp only | split

theorem State.pairFollow_keeps {r : State} {s : State} (hk : Keeps r s) :
    Keeps r (State.pairFollow s) := by
  unfold State.pairFollow
  repeat' first
    | intro _
    | (with_reducible first | assumption | exact Keeps.refl _ | apply State.wrb_keeps | apply State.wr_keeps | apply Keeps.each | apply Keeps.when)
    | extract_lets | dsimp only | split

theorem State.hifSet_keeps {r : State} {s : State} {h st : Nat} (hk : Keeps r s) :
    Keeps r (State.hifSet s h st) := by
  unfold State.hifSet
  repeat' first
    | intro _
    | (with_reducible first | assumption | exact Keeps.refl _ | apply State.wr_keeps | apply State.raise_keeps | apply State.emit_keeps | apply State.wrFree_keeps | apply State.cmis_keeps | apply State.puts_keeps | apply State.pairFollow_keeps | apply Keeps.when | apply Keeps.cond)
    | extract_lets | dsimp only | split

theorem State.hifFault_keeps {r : State} {s : State} {h cause : Nat} (hk : Keeps r s) :
    Keeps r (State.hifFault s h cause) := by
  unfold State.hifFault
  repeat' first
    | intro _
    | (with_reducible first | assumption | exact Keeps.refl _ | apply State.wr_keeps | apply State.hifSet_keeps | apply State.raise_keeps | apply State.wrb_keeps | apply State.countEvent_keeps | apply Keeps.cond | apply Keeps.cond_snd)
    | extract_lets | dsimp only | split

theorem State.hifToCal_keeps {r : State} {s : State} {h : Nat} (hk : Keeps r s) :
    Keeps r (State.hifToCal s h) := by
  unfold State.hifToCal
  repeat' first
    | intro _
    | (with_reducible first | assumption | exact Keeps.refl _ | apply State.straitFlush_keeps | apply State.puts_keeps | apply State.hifSet_keeps)
    | extract_lets | dsimp only | split

theorem State.hifAskPreset_keeps {r : State} {s : State} {h : Nat} (hk : Keeps r s) :
    Keeps r (State.hifAskPreset s h) := by
  unfold State.hifAskPreset
  repeat' first
    | intro _
    | (with_reducible first | assumption | exact Keeps.refl _ | apply State.puts_keeps | apply Keeps.cond)
    | extract_lets | split

theorem State.hifTrainStart_keeps {r : State} {s : State} {h : Nat} (hk : Keeps r s) :
    Keeps r (State.hifTrainStart s h) := by
  unfold State.hifTrainStart
  repeat' first
    | intro _
    | (with_reducible first | assumption | exact Keeps.refl _ | apply State.puts_keeps | apply State.hifAskPreset_keeps | apply Keeps.cond)
    | extract_lets | split

theorem State.hifAmDone_keeps {r : State} {s : State} {h : Nat} (hk : Keeps r s) :
    Keeps r (State.hifAmDone s h) := by
  unfold State.hifAmDone
  repeat' first
    | intro _
    | (with_reducible first | assumption | exact Keeps.refl _ | apply State.hifSet_keeps | apply Keeps.cond)
    | extract_lets | dsimp only | split

theorem State.hifAmStart_keeps {r : State} {s : State} {h : Nat} (hk : Keeps r s) :
    Keeps r (State.hifAmStart s h) := by
  unfold State.hifAmStart
  repeat' first
    | intro _
    | (with_reducible first | assumption | exact Keeps.refl _ | apply State.puts_keeps | apply State.hifAmDone_keeps)
    | extract_lets | split

theorem State.hifToTrain_keeps {r : State} {s : State} {h : Nat} (hk : Keeps r s) :
    Keeps r (State.hifToTrain s h) := by
  unfold State.hifToTrain
  repeat' first
    | intro _
    | (with_reducible first | assumption | exact Keeps.refl _ | apply State.puts_keeps | apply State.wr_keeps | apply State.hifSet_keeps | apply State.hifTrainStart_keeps | apply Keeps.when)
    | extract_lets | dsimp only | split

theorem State.hifToAlign_keeps {r : State} {s : State} {h : Nat} (hk : Keeps r s) :
    Keeps r (State.hifToAlign s h) := by
  unfold State.hifToAlign
  repeat' first
    | intro _
    | (with_reducible first | assumption | exact Keeps.refl _ | apply State.puts_keeps | apply State.hifSet_keeps | apply State.hifAmStart_keeps)
    | extract_lets | split

theorem State.hifRelock_keeps {r : State} {s : State} {h : Nat} (hk : Keeps r s) :
    Keeps r (State.hifRelock s h) := by
  unfold State.hifRelock
  repeat' first
    | intro _
    | (with_reducible first | assumption | exact Keeps.refl _ | apply State.puts_keeps | apply State.hifToAlign_keeps | apply State.wr_keeps)
    | extract_lets | split

theorem State.hifSetTap_keeps {r : State} {s : State} {h i : Nat} {v : Int} (hk : Keeps r s) :
    Keeps r (State.hifSetTap s h i v) := by
  unfold State.hifSetTap
  repeat' first
    | intro _
    | (with_reducible first | assumption | exact Keeps.refl _ | apply State.wrInt_keeps | apply Keeps.foldl | apply Keeps.cond)
    | extract_lets | dsimp only | split

theorem State.hifApplyOf_keeps {r : State} {s : State} {h : Nat} {l : List Field} {taps : List Nat} (hk : Keeps r s) :
    Keeps r (State.hifApplyOf s h l taps) := by
  unfold State.hifApplyOf
  repeat' first
    | intro _
    | (with_reducible first | assumption | exact Keeps.refl _ | apply State.applyShadow_keeps | apply State.puts_keeps | apply State.wr_keeps | apply State.hifSetTap_keeps | apply Keeps.each | apply Keeps.cond | apply Keeps.cond_snd)
    | extract_lets | dsimp only | split

theorem State.hifApply_keeps {r : State} {s : State} {h : Nat} (hk : Keeps r s) :
    Keeps r (State.hifApply s h) := by
  unfold State.hifApply
  repeat' first
    | intro _
    | (with_reducible first | assumption | exact Keeps.refl _ | apply State.hifApplyOf_keeps | apply State.wr_keeps)
    | extract_lets | split

theorem State.hifOff_keeps {r : State} {s : State} {h : Nat} (hk : Keeps r s) :
    Keeps r (State.hifOff s h) := by
  unfold State.hifOff
  repeat' first
    | intro _
    | (with_reducible first | assumption | exact Keeps.refl _ | apply State.puts_keeps | apply State.hifSet_keeps | apply State.hifApply_keeps)
    | extract_lets | split

theorem State.setEhm_keeps {r : State} {s : State} {g : PortGroup} {v : Nat} (hk : Keeps r s) :
    Keeps r (State.setEhm s g v) := by
  unfold State.setEhm
  repeat' first
    | intro _
    | (with_reducible first | assumption | exact Keeps.refl _ | apply State.wr_keeps | apply Keeps.each)
    | extract_lets | dsimp only | split

theorem State.hostsCompat_keeps {r : State} {s : State} {g : PortGroup} (hk : Keeps r s) :
    Keeps r (State.hostsCompat s g) := by
  unfold State.hostsCompat
  repeat' first
    | intro _
    | (with_reducible first | assumption | exact Keeps.refl _ | apply State.wr_keeps | apply State.hifOff_keeps | apply State.hifToTrain_keeps | apply State.setEhm_keeps | apply State.pairFollow_keeps | apply Keeps.each | apply Keeps.when)
    | extract_lets | dsimp only | split

theorem State.hifReturn_keeps {r : State} {s : State} {n h : Nat} (hk : Keeps r s) :
    Keeps r (State.hifReturn s n h) := by
  unfold State.hifReturn
  repeat' first
    | intro _
    | (with_reducible first | assumption | exact Keeps.refl _ | apply State.hifToCal_keeps | apply Keeps.when)
    | extract_lets | dsimp only | split

theorem State.hostsNative_keeps {r : State} {s : State} {g : PortGroup} (hk : Keeps r s) :
    Keeps r (State.hostsNative s g) := by
  unfold State.hostsNative
  repeat' first
    | intro _
    | (with_reducible first | assumption | exact Keeps.refl _ | apply State.wr_keeps | apply State.hifReturn_keeps | apply State.pairFollow_keeps | apply Keeps.each | apply Keeps.when)
    | extract_lets | dsimp only | split

theorem State.ehmReset_keeps {r : State} {s : State} {g : PortGroup} (hk : Keeps r s) :
    Keeps r (State.ehmReset s g) := by
  unfold State.ehmReset
  repeat' first
    | intro _
    | (with_reducible first | assumption | exact Keeps.refl _ | apply State.wr_keeps | apply State.setEhm_keeps | apply Keeps.each | apply Keeps.cond)
    | extract_lets | dsimp only | split

theorem State.hifStart_keeps {r : State} {s : State} {h : Nat} (hk : Keeps r s) :
    Keeps r (State.hifStart s h) := by
  unfold State.hifStart
  repeat' first
    | intro _
    | (with_reducible first | assumption | exact Keeps.refl _ | apply State.ehmReset_keeps | apply State.hifToCal_keeps | apply Keeps.when | apply Keeps.cond | apply OptKeeps.getD)
    | extract_lets | dsimp only | split

theorem State.svcSend_keeps {r : State} {s : State} {n type len body : Nat} {tag : Nat} (hk : Keeps r s) :
    Keeps r (State.svcSend s n type len body tag) := by
  unfold State.svcSend
  repeat' first
    | intro _
    | (with_reducible first | assumption | exact Keeps.refl _ | apply State.puts_keeps | apply Keeps.cond)
    | extract_lets | split
    | (with_reducible first | apply Keeps.other)

theorem State.svcDrop_keeps {r : State} {s : State} {n : Nat} (hk : Keeps r s) :
    Keeps r (State.svcDrop s n) := by
  unfold State.svcDrop
  repeat' first
    | intro _
    | (with_reducible first | assumption | exact Keeps.refl _ | apply State.wr_keeps)
    | extract_lets | dsimp only
    | (with_reducible first | apply Keeps.other)

theorem State.cdbEnd_keeps {r : State} {s : State} {status : Nat} (hk : Keeps r s) :
    Keeps r (State.cdbEnd s status) := by
  unfold State.cdbEnd
  repeat' first
    | intro _
    | (with_reducible first | assumption | exact Keeps.refl _ | apply State.puts_keeps)
    | extract_lets

theorem State.asymFollow_keeps {r : State} {s : State} {n : Nat} (hk : Keeps r s) :
    Keeps r (State.asymFollow s n) := by
  unfold State.asymFollow
  repeat' first
    | intro _
    | (with_reducible first | assumption | exact Keeps.refl _ | apply State.wrb_keeps)
    | extract_lets

theorem State.profEnd_keeps {r : State} {s : State} {n status side : Nat} (hk : Keeps r s) :
    Keeps r (State.profEnd s n status side) := by
  unfold State.profEnd
  repeat' first
    | intro _
    | (with_reducible first | assumption | exact Keeps.refl _ | apply State.puts_keeps | apply State.emit_keeps | apply State.raise_keeps | apply Keeps.cond)
    | extract_lets | split

theorem State.profAbort_keeps {r : State} {s : State} {n : Nat} (hk : Keeps r s) :
    Keeps r (State.profAbort s n) := by
  unfold State.profAbort
  repeat' first
    | intro _
    | (with_reducible first | assumption | exact Keeps.refl _ | apply State.wr_keeps | apply State.profEnd_keeps | apply State.puts_keeps | apply Keeps.when)
    | extract_lets | dsimp only

theorem State.ingressUnlock_keeps {r : State} {s : State} {n : Nat} (hk : Keeps r s) :
    Keeps r (State.ingressUnlock s n) := by
  unfold State.ingressUnlock
  repeat' first
    | intro _
    | (with_reducible first | assumption | exact Keeps.refl _ | apply State.wr_keeps)
    | extract_lets | split

theorem State.lfrLeave_keeps {r : State} {s : State} {n : Nat} (hk : Keeps r s) :
    Keeps r (State.lfrLeave s n) := by
  unfold State.lfrLeave
  repeat' first
    | intro _
    | (with_reducible first | assumption | exact Keeps.refl _ | apply State.profAbort_keeps | apply State.svcDrop_keeps | apply State.exchMiss_keeps | apply State.ingressUnlock_keeps | apply State.cdbEnd_keeps | apply State.puts_keeps | apply Keeps.when)
    | extract_lets | dsimp only

theorem State.compatFormat_keeps {r : State} {s : State} {n : Nat} {compat : Bool} (hk : Keeps r s) :
    Keeps r (State.compatFormat s n compat) := by
  unfold State.compatFormat
  repeat' first
    | intro _
    | (with_reducible first | assumption | exact Keeps.refl _ | apply State.wrb_keeps | apply State.puts_keeps | apply Keeps.cond)
    | extract_lets | split

theorem State.lfrLatch_keeps {r : State} {s : State} {n : Nat} (hk : Keeps r s) :
    Keeps r (State.lfrLatch s n) := by
  unfold State.lfrLatch
  repeat' first
    | intro _
    | (with_reducible first | assumption | exact Keeps.refl _ | apply State.setUse_keeps | apply State.wrb_keeps | apply State.compatFormat_keeps | apply Keeps.each | apply Keeps.cond | apply Keeps.cond_snd)
    | extract_lets | dsimp only | split

theorem State.setGroupMode_keeps {r : State} {s : State} {n mode : Nat} (hk : Keeps r s) :
    Keeps r (State.setGroupMode s n mode) := by
  unfold State.setGroupMode
  repeat' first
    | intro _
    | (with_reducible first | assumption | exact Keeps.refl _ | apply State.puts_keeps | apply State.compatFormat_keeps | apply State.hostsCompat_keeps | apply State.hostsNative_keeps | apply Keeps.each | apply Keeps.cond | apply Keeps.cond_snd)
    | extract_lets | dsimp only | split

theorem State.lrxSet_keeps {r : State} {s : State} {n st : Nat} (hk : Keeps r s) :
    Keeps r (State.lrxSet s n st) := by
  unfold State.lrxSet
  repeat' first
    | intro _
    | (with_reducible first | assumption | exact Keeps.refl _ | apply State.puts_keeps | apply State.lfrLeave_keeps | apply State.wr_keeps | apply State.cmis_keeps | apply State.raise_keeps | apply State.emit_keeps | apply Keeps.when | apply Keeps.cond)
    | extract_lets | dsimp only | split

theorem State.lrxAbandon_keeps {r : State} {s : State} {n : Nat} (hk : Keeps r s) :
    Keeps r (State.lrxAbandon s n) := by
  unfold State.lrxAbandon
  repeat' first
    | intro _
    | (with_reducible first | assumption | exact Keeps.refl _ | apply State.wr_keeps | apply Keeps.when)
    | extract_lets | dsimp only

theorem State.lrxApplyOf_keeps {r : State} {s : State} {n : Nat} {l : List Field} (hk : Keeps r s) :
    Keeps r (State.lrxApplyOf s n l) := by
  unfold State.lrxApplyOf
  repeat' first
    | intro _
    | (with_reducible first | assumption | exact Keeps.refl _ | apply State.applyShadow_keeps | apply State.wr_keeps | apply State.puts_keeps | apply State.lrxAbandon_keeps | apply Keeps.when | apply Keeps.cond)
    | extract_lets | dsimp only | split

theorem State.lrxApply_keeps {r : State} {s : State} {n : Nat} (hk : Keeps r s) :
    Keeps r (State.lrxApply s n) := by
  unfold State.lrxApply
  repeat' first
    | intro _
    | (with_reducible first | assumption | exact Keeps.refl _ | apply State.lrxApplyOf_keeps | apply State.wr_keeps)
    | extract_lets

theorem State.trimApply_keeps {r : State} {s : State} {n : Nat} (hk : Keeps r s) :
    Keeps r (State.trimApply s n) := by
  unfold State.trimApply
  repeat' first
    | intro _
    | (with_reducible first | assumption | exact Keeps.refl _ | apply State.wr_keeps | apply State.wrInt_keeps | apply Keeps.cond)
    | extract_lets | split

theorem State.adcStart_keeps {r : State} {s : State} {n : Nat} {esc : Bool} (hk : Keeps r s) :
    Keeps r (State.adcStart s n esc) := by
  unfold State.adcStart
  repeat' first
    | intro _
    | (with_reducible first | assumption | exact Keeps.refl _ | apply State.puts_keeps | apply State.bump_keeps | apply State.raise_keeps | apply Keeps.when)
    | extract_lets | dsimp only

theorem State.adcAdmit_keeps {r s : State} {k : Nat} (hk : Keeps r s) : Keeps r (s.adcAdmit k) := by
  induction k generalizing s with
  | zero => exact hk
  | succ k ih =>
    unfold State.adcAdmit
    dsimp only
    split
    · split
      · exact ih (State.adcStart_keeps hk)
      · exact hk
    · exact hk

theorem State.sliceSwap_keeps {r : State} {s : State} {n : Nat} (hk : Keeps r s) :
    Keeps r (State.sliceSwap s n) := by
  unfold State.sliceSwap
  repeat' first
    | intro _
    | (with_reducible first | assumption | exact Keeps.refl _ | apply State.wr_keeps | apply State.puts_keeps | apply State.bump_keeps | apply State.adcAdmit_keeps)
    | extract_lets

theorem State.rxBoundary_keeps {r : State} {s : State} {n : Nat} (hk : Keeps r s) :
    Keeps r (State.rxBoundary s n) := by
  unfold State.rxBoundary
  repeat' first
    | intro _
    | (with_reducible first | assumption | exact Keeps.refl _ | apply State.leqBoundary_keeps | apply State.lrxApply_keeps | apply State.puts_keeps | apply State.trimApply_keeps | apply State.sliceSwap_keeps | apply Keeps.when | apply Keeps.cond)
    | extract_lets | dsimp only | split

theorem State.lrxAcquireAt_keeps {r : State} {s : State} {n ph : Nat} (hk : Keeps r s) :
    Keeps r (State.lrxAcquireAt s n ph) := by
  unfold State.lrxAcquireAt
  repeat' first
    | intro _
    | (with_reducible first | assumption | exact Keeps.refl _ | apply State.lrxAbandon_keeps | apply State.wr_keeps | apply State.puts_keeps | apply State.lrxSet_keeps | apply State.leqFollow_keeps)
    | extract_lets

theorem State.cdrStart_keeps {r : State} {s : State} {n : Nat} (hk : Keeps r s) :
    Keeps r (State.cdrStart s n) := by
  unfold State.cdrStart
  repeat' first
    | intro _
    | (with_reducible first | assumption | exact Keeps.refl _ | apply State.puts_keeps)
    | extract_lets

theorem State.lrxStartAgc_keeps {r : State} {s : State} {n : Nat} (hk : Keeps r s) :
    Keeps r (State.lrxStartAgc s n) := by
  unfold State.lrxStartAgc
  repeat' first
    | intro _
    | (with_reducible first | assumption | exact Keeps.refl _ | apply State.lrxAcquireAt_keeps | apply State.wr_keeps | apply State.cdrStart_keeps | apply State.puts_keeps | apply State.leqStart_keeps | apply State.leqFollow_keeps | apply Keeps.cond)
    | extract_lets | split

theorem State.lrxWaitSd_keeps {r : State} {s : State} {n : Nat} (hk : Keeps r s) :
    Keeps r (State.lrxWaitSd s n) := by
  unfold State.lrxWaitSd
  repeat' first
    | intro _
    | (with_reducible first | assumption | exact Keeps.refl _ | apply State.leqStart_keeps | apply State.wr_keeps | apply State.lrxStartAgc_keeps | apply State.lrxAcquireAt_keeps | apply Keeps.cond)
    | extract_lets | split

theorem State.lrxCdrPhase_keeps {r : State} {s : State} {n : Nat} (hk : Keeps r s) :
    Keeps r (State.lrxCdrPhase s n) := by
  unfold State.lrxCdrPhase
  repeat' first
    | intro _
    | (with_reducible first | assumption | exact Keeps.refl _ | apply State.lrxAcquireAt_keeps | apply State.wr_keeps | apply State.leqFollow_keeps | apply Keeps.when)
    | extract_lets | dsimp only

theorem State.lrxFfePhase_keeps {r : State} {s : State} {n : Nat} (hk : Keeps r s) :
    Keeps r (State.lrxFfePhase s n) := by
  unfold State.lrxFfePhase
  repeat' first
    | intro _
    | (with_reducible first | assumption | exact Keeps.refl _ | apply State.lrxAcquireAt_keeps | apply State.mlseApply_keeps | apply State.puts_keeps | apply State.leqD1Put_keeps | apply State.leqFollow_keeps | apply Keeps.when)
    | extract_lets | dsimp only

theorem State.ratePut_keeps {r : State} {s : State} {n rate : Nat} (hk : Keeps r s) :
    Keeps r (State.ratePut s n rate) := by
  unfold State.ratePut
  repeat' first
    | intro _
    | (with_reducible first | assumption | exact Keeps.refl _ | apply State.wr_keeps | apply State.lrxStartAgc_keeps | apply Keeps.each | apply Keeps.cond)
    | extract_lets | dsimp only | split

theorem State.lrxToCal_keeps {r : State} {s : State} {n : Nat} (hk : Keeps r s) :
    Keeps r (State.lrxToCal s n) := by
  unfold State.lrxToCal
  repeat' first
    | intro _
    | (with_reducible first | assumption | exact Keeps.refl _ | apply State.lrxAbandon_keeps | apply State.lrxSet_keeps | apply State.lfrLatch_keeps | apply State.straitFlush_keeps | apply State.ratePut_keeps | apply State.wr_keeps | apply State.leqStart_keeps | apply State.puts_keeps | apply State.leqFollow_keeps | apply State.rxBoundary_keeps)
    | extract_lets | dsimp only | split

theorem State.lrxFault_keeps {r : State} {s : State} {n cause : Nat} (hk : Keeps r s) :
    Keeps r (State.lrxFault s n cause) := by
  unfold State.lrxFault
  repeat' first
    | intro _
    | (with_reducible first | assumption | exact Keeps.refl _ | apply State.wr_keeps | apply State.lrxAbandon_keeps | apply State.lrxSet_keeps | apply State.raise_keeps | apply State.wrb_keeps | apply State.countEvent_keeps | apply State.leqFollow_keeps | apply State.rxBoundary_keeps | apply Keeps.cond | apply Keeps.cond_snd)
    | extract_lets | dsimp only | split

theorem State.rateAlternate_keeps {r : State} {s : State} {n : Nat} (hk : Keeps r s) :
    Keeps r (State.rateAlternate s n) := by
  unfold State.rateAlternate
  repeat' first
    | intro _
    | (with_reducible first | assumption | exact Keeps.refl _ | apply State.ratePut_keeps | apply Keeps.cond | apply Keeps.cond_snd)
    | extract_lets | dsimp only | split

theorem State.lrxAttemptFail_keeps {r : State} {s : State} {n cause : Nat} (hk : Keeps r s) :
    Keeps r (State.lrxAttemptFail s n cause) := by
  unfold State.lrxAttemptFail
  repeat' first
    | intro _
    | (with_reducible first | assumption | exact Keeps.refl _ | apply State.bump_keeps | apply State.wr_keeps | apply State.rateAlternate_keeps | apply State.lrxStartAgc_keeps | apply State.lrxFault_keeps | apply Keeps.cond)
    | extract_lets | split

theorem State.optClamp_keeps {r : State} {s : State} {n : Nat} (hk : Keeps r s) :
    Keeps r (State.optClamp s n) := by
  unfold State.optClamp
  repeat' first
    | intro _
    | (with_reducible first | assumption | exact Keeps.refl _ | apply State.wr_keeps)
    | extract_lets

theorem State.ltxSet_keeps {r : State} {s : State} {n st : Nat} (hk : Keeps r s) :
    Keeps r (State.ltxSet s n st) := by
  unfold State.ltxSet
  repeat' first
    | intro _
    | (with_reducible first | assumption | exact Keeps.refl _ | apply State.puts_keeps | apply State.raise_keeps | apply State.emit_keeps | apply Keeps.cond)
    | extract_lets | split

theorem State.maskDiscard_keeps {r : State} {s : State} {n : Nat} (hk : Keeps r s) :
    Keeps r (State.maskDiscard s n) := by
  unfold State.maskDiscard
  repeat' first
    | intro _
    | (with_reducible first | assumption | exact Keeps.refl _ | apply State.wr_keeps | apply Keeps.each)
    | extract_lets | dsimp only

theorem State.ltxApplyOf_keeps {r : State} {s : State} {n : Nat} {l : List (Field × Nat)} (hk : Keeps r s) :
    Keeps r (State.ltxApplyOf s n l) := by
  unfold State.ltxApplyOf
  repeat' first
    | intro _
    | (with_reducible first | assumption | exact Keeps.refl _ | apply State.applyShadow_keeps | apply State.wr_keeps | apply State.maskDiscard_keeps | apply Keeps.each | apply Keeps.when)
    | extract_lets | dsimp only

theorem State.patApply_keeps {r : State} {s : State} {n : Nat} (hk : Keeps r s) :
    Keeps r (State.patApply s n) := by
  unfold State.patApply
  repeat' first
    | intro _
    | (with_reducible first | assumption | exact Keeps.refl _ | apply State.maskDiscard_keeps | apply State.wr_keeps | apply State.setUse_keeps | apply Keeps.when)
    | extract_lets | dsimp only

theorem State.ltxApply_keeps {r : State} {s : State} {n : Nat} (hk : Keeps r s) :
    Keeps r (State.ltxApply s n) := by
  unfold State.ltxApply
  repeat' first
    | intro _
    | (with_reducible first | assumption | exact Keeps.refl _ | apply State.ltxApplyOf_keeps | apply State.wr_keeps | apply State.patApply_keeps | apply State.wrb_keeps | apply Keeps.cond)
    | extract_lets | split

theorem State.setOutCells_keeps {r : State} {s : State} {n : Nat} {l : List Nat} (hk : Keeps r s) :
    Keeps r (State.setOutCells s n l) := by
  unfold State.setOutCells
  repeat' first
    | intro _
    | (with_reducible first | assumption | exact Keeps.refl _ | apply State.wr_keeps | apply Keeps.each | apply OptKeeps.getD)
    | extract_lets | dsimp only | split

theorem State.cellRepair_keeps {r : State} {s : State} {n : Nat} (hk : Keeps r s) :
    Keeps r (State.cellRepair s n) := by
  unfold State.cellRepair
  repeat' first
    | intro _
    | (with_reducible first | assumption | exact Keeps.refl _ | apply State.wr_keeps | apply State.setOutCells_keeps | apply Keeps.each | apply Keeps.cond)
    | extract_lets | dsimp only | split

theorem State.mapsOfMarks_keeps {r : State} {s : State} {n : Nat} (hk : Keeps r s) :
    Keeps r (State.mapsOfMarks s n) := by
  unfold State.mapsOfMarks
  repeat' first
    | intro _
    | (with_reducible first | assumption | exact Keeps.refl _ | apply State.wr_keeps | apply State.setOutCells_keeps | apply State.cellRepair_keeps | apply Keeps.when)
    | extract_lets | dsimp only

theorem State.cellSwap_keeps {r : State} {s : State} {n : Nat} (hk : Keeps r s) :
    Keeps r (State.cellSwap s n) := by
  unfold State.cellSwap
  repeat' first
    | intro _
    | (with_reducible first | assumption | exact Keeps.refl _ | apply State.puts_keeps | apply State.wr_keeps | apply State.setOutCells_keeps | apply State.bump_keeps | apply Keeps.cond)
    | extract_lets | dsimp only | split

theorem State.txBoundary_keeps {r : State} {s : State} {n : Nat} (hk : Keeps r s) :
    Keeps r (State.txBoundary s n) := by
  unfold State.txBoundary
  repeat' first
    | intro _
    | (with_reducible first | assumption | exact Keeps.refl _ | apply State.ltxApply_keeps | apply State.cellRepair_keeps | apply State.wr_keeps | apply State.cellSwap_keeps | apply Keeps.when | apply Keeps.cond)
    | extract_lets | dsimp only | split

theorem State.ltxAbandon_keeps {r : State} {s : State} {n : Nat} (hk : Keeps r s) :
    Keeps r (State.ltxAbandon s n) := by
  unfold State.ltxAbandon
  repeat' first
    | intro _
    | (with_reducible first | assumption | exact Keeps.refl _ | apply State.wr_keeps | apply Keeps.when)
    | extract_lets | dsimp only

theorem State.ltxOff_keeps {r : State} {s : State} {n : Nat} (hk : Keeps r s) :
    Keeps r (State.ltxOff s n) := by
  unfold State.ltxOff
  repeat' first
    | intro _
    | (with_reducible first | assumption | exact Keeps.refl _ | apply State.ltxAbandon_keeps | apply State.wr_keeps | apply State.puts_keeps | apply State.ltxSet_keeps | apply State.patApply_keeps | apply State.txBoundary_keeps | apply Keeps.when)
    | extract_lets | dsimp only

theorem State.ltxToCal_keeps {r : State} {s : State} {n : Nat} (hk : Keeps r s) :
    Keeps r (State.ltxToCal s n) := by
  unfold State.ltxToCal
  repeat' first
    | intro _
    | (with_reducible first | assumption | exact Keeps.refl _ | apply State.puts_keeps | apply State.wr_keeps | apply State.ltxSet_keeps | apply Keeps.cond)
    | extract_lets | split

theorem State.ltxRecheck_keeps {r : State} {s : State} {n : Nat} (hk : Keeps r s) :
    Keeps r (State.ltxRecheck s n) := by
  unfold State.ltxRecheck
  repeat' first
    | intro _
    | (with_reducible first | assumption | exact Keeps.refl _ | apply State.ltxToCal_keeps | apply State.raise_keeps | apply State.wrb_keeps | apply State.wr_keeps | apply Keeps.when | apply Keeps.cond)
    | extract_lets | dsimp only | split

theorem State.ltxFault_keeps {r : State} {s : State} {n cause : Nat} (hk : Keeps r s) :
    Keeps r (State.ltxFault s n cause) := by
  unfold State.ltxFault
  repeat' first
    | intro _
    | (with_reducible first | assumption | exact Keeps.refl _ | apply State.bump_keeps | apply State.wr_keeps | apply State.wrb_keeps | apply State.ltxAbandon_keeps | apply State.optClamp_keeps | apply State.ltxSet_keeps | apply State.raise_keeps | apply State.cmis_keeps | apply State.countEvent_keeps | apply Keeps.cond | apply Keeps.cond_snd)
    | extract_lets | dsimp only | split

theorem State.ltxFaultWindow_keeps {r : State} {s : State} {n : Nat} (hk : Keeps r s) :
    Keeps r (State.ltxFaultWindow s n) := by
  unfold State.ltxFaultWindow
  repeat' first
    | intro _
    | (with_reducible first | assumption | exact Keeps.refl _ | apply State.wr_keeps | apply State.ltxFault_keeps | apply Keeps.cond)
    | extract_lets | split

theorem State.ltxDisableEnd_keeps {r : State} {s : State} {n : Nat} (hk : Keeps r s) :
    Keeps r (State.ltxDisableEnd s n) := by
  unfold State.ltxDisableEnd
  repeat' first
    | intro _
    | (with_reducible first | assumption | exact Keeps.refl _ | apply State.wr_keeps | apply State.ltxOff_keeps | apply State.ltxRecheck_keeps | apply State.ltxSet_keeps | apply Keeps.cond)
    | extract_lets | split

theorem State.ltxLaserOff_keeps {r : State} {s : State} {n : Nat} (hk : Keeps r s) :
    Keeps r (State.ltxLaserOff s n) := by
  unfold State.ltxLaserOff
  repeat' first
    | intro _
    | (with_reducible first | assumption | exact Keeps.refl _ | apply State.wr_keeps)
    | extract_lets

theorem State.ltxDisable_keeps {r : State} {s : State} {n : Nat} (hk : Keeps r s) :
    Keeps r (State.ltxDisable s n) := by
  unfold State.ltxDisable
  repeat' first
    | intro _
    | (with_reducible first | assumption | exact Keeps.refl _ | apply State.ltxAbandon_keeps | apply State.ltxSet_keeps | apply State.wr_keeps | apply State.ltxDisableEnd_keeps | apply State.ltxLaserOff_keeps | apply State.ltxOff_keeps | apply State.ltxRecheck_keeps | apply Keeps.cond)
    | extract_lets | split

theorem State.ltxFaultEnd_keeps {r : State} {s : State} {n : Nat} (hk : Keeps r s) :
    Keeps r (State.ltxFaultEnd s n) := by
  unfold State.ltxFaultEnd
  repeat' first
    | intro _
    | (with_reducible first | assumption | exact Keeps.refl _ | apply State.puts_keeps | apply State.ltxOff_keeps | apply Keeps.cond)
    | extract_lets | split

theorem State.histEnd_keeps {r : State} {s : State} {n : Nat} (hk : Keeps r s) :
    Keeps r (State.histEnd s n) := by
  unfold State.histEnd
  repeat' first
    | intro _
    | (with_reducible first | assumption | exact Keeps.refl _ | apply State.wrFree_keeps | apply State.puts_keeps | apply Keeps.each | apply Keeps.cond)
    | extract_lets | dsimp only | split

theorem State.lrxOff_keeps {r : State} {s : State} {n : Nat} (hk : Keeps r s) :
    Keeps r (State.lrxOff s n) := by
  unfold State.lrxOff
  repeat' first
    | intro _
    | (with_reducible first | assumption | exact Keeps.refl _ | apply State.lrxAbandon_keeps | apply State.wr_keeps | apply State.lrxSet_keeps | apply State.puts_keeps | apply State.histEnd_keeps | apply State.leqStart_keeps | apply State.setGroupMode_keeps | apply State.leqFollow_keeps | apply State.rxBoundary_keeps | apply State.ltxDisable_keeps | apply Keeps.when)
    | extract_lets | dsimp only

theorem State.envTrip_keeps {r : State} {s : State} {n cause : Nat} (hk : Keeps r s) :
    Keeps r (State.envTrip s n cause) := by
  unfold State.envTrip
  repeat' first
    | intro _
    | (with_reducible first | assumption | exact Keeps.refl _ | apply State.optClamp_keeps | apply State.wr_keeps | apply State.bump_keeps | apply State.raise_keeps | apply State.puts_keeps | apply State.emit_keeps | apply State.ltxFault_keeps | apply State.ltxRecheck_keeps | apply Keeps.cond)
    | extract_lets | split

end Sys2Proof.Machine
end

