-- ==== Sys2Proof/Laws/KeepsFaults.lean ====
section
/-!
SUPPORT. The operations of Faults keep the queue and the invariant.
-/
set_option Elab.async false
set_option linter.all false
namespace Sys2Proof.Machine

theorem State.refreshRun_keeps {r : State} {s : State} (hk : Keeps r s) :
    Keeps r (State.refreshRun s) := by
  unfold State.refreshRun
  repeat' first
    | intro _
    | (with_reducible first | assumption | exact Keeps.refl _ | apply State.puts_keeps | apply Keeps.cond)
    | extract_lets | split

theorem State.xbarFollow_keeps {r : State} {s : State} (hk : Keeps r s) :
    Keeps r (State.xbarFollow s) := by
  unfold State.xbarFollow
  repeat' first
    | intro _
    | (with_reducible first | assumption | exact Keeps.refl _ | apply State.straitFlush_keeps | apply State.wr_keeps | apply State.refreshRun_keeps | apply Keeps.when | apply Keeps.cond)
    | extract_lets | dsimp only | split

theorem State.pllSet_keeps {r : State} {s : State} {p st : Nat} (hk : Keeps r s) :
    Keeps r (State.pllSet s p st) := by
  unfold State.pllSet
  repeat' first
    | intro _
    | (with_reducible first | assumption | exact Keeps.refl _ | apply State.xbarFollow_keeps | apply State.wr_keeps | apply State.emit_keeps | apply Keeps.cond)
    | extract_lets | split

theorem State.pllGate_keeps {r : State} {s : State} {p : Nat} (hk : Keeps r s) :
    Keeps r (State.pllGate s p) := by
  unfold State.pllGate
  repeat' first
    | intro _
    | (with_reducible first | assumption | exact Keeps.refl _ | apply State.atcStop_keeps | apply State.wr_keeps | apply State.capStop_keeps | apply State.arcClusterOff_keeps | apply State.xbarFollow_keeps | apply Keeps.each | apply Keeps.when)
    | extract_lets | dsimp only

theorem State.pllFailed_keeps {r : State} {s : State} {p : Nat} (hk : Keeps r s) :
    Keeps r (State.pllFailed s p) := by
  unfold State.pllFailed
  repeat' first
    | intro _
    | (with_reducible first | assumption | exact Keeps.refl _ | apply State.puts_keeps | apply State.pllSet_keeps | apply State.pllGate_keeps)
    | extract_lets

theorem State.objectAction_keeps {r : State} {s : State} {src inst : Nat} (hk : Keeps r s) :
    Keeps r (State.objectAction s src inst) := by
  unfold State.objectAction
  repeat' first
    | intro _
    | (with_reducible first | assumption | exact Keeps.refl _ | apply State.lrxFault_keeps | apply State.ltxFaultWindow_keeps | apply State.hifFault_keeps | apply State.pllFailed_keeps | apply State.envTrip_keeps)
    | extract_lets | dsimp only | split

theorem State.faultEvent_keeps {r : State} {s : State} {src inst : Nat} {k : Nat} (hk : Keeps r s) :
    Keeps r (State.faultEvent s src inst k) := by
  unfold State.faultEvent
  repeat' first
    | intro _
    | (with_reducible first | assumption | exact Keeps.refl _ | apply State.countEvent_keeps | apply State.objectAction_keeps | apply Keeps.cond | apply Keeps.cond_snd)
    | extract_lets | dsimp only | split

end Sys2Proof.Machine
end

