-- ==== Sys2Proof/Laws/KeepsPowerOps.lean ====
section
/-!
SUPPORT. The operations of PowerOps keep the queue and the invariant.
-/
set_option Elab.async false
set_option linter.all false
namespace Sys2Proof.Machine

theorem State.dvfsKick_keeps {r : State} {s : State} (hk : Keeps r s) :
    Keeps r (State.dvfsKick s) := by
  unfold State.dvfsKick
  repeat' first
    | intro _
    | (with_reducible first | assumption | exact Keeps.refl _ | apply State.wr_keeps | apply State.puts_keeps | apply Keeps.when | apply Keeps.cond)
    | extract_lets | dsimp only | split

theorem State.dvfsStep_keeps {r : State} {s : State} (hk : Keeps r s) :
    Keeps r (State.dvfsStep s) := by
  unfold State.dvfsStep
  repeat' first
    | intro _
    | (with_reducible first | assumption | exact Keeps.refl _ | apply State.wr_keeps | apply Keeps.cond)
    | extract_lets | dsimp only | split

theorem State.wakeRecord_keeps {r : State} {s : State} {src obj frm ticks : Nat} {held : Bool} (hk : Keeps r s) :
    Keeps r (State.wakeRecord s src obj frm ticks held) := by
  unfold State.wakeRecord
  repeat' first
    | intro _
    | (with_reducible first | assumption | exact Keeps.refl _ | apply State.puts_keeps | apply State.raise_keeps | apply State.emit_keeps)
    | extract_lets

theorem State.wakeLine_keeps {r : State} {s : State} {n : Nat} {egress : Bool} (hk : Keeps r s) :
    Keeps r (State.wakeLine s n egress) := by
  unfold State.wakeLine
  repeat' first
    | intro _
    | (with_reducible first | assumption | exact Keeps.refl _ | apply State.wr_keeps | apply Keeps.when | apply Keeps.cond)
    | extract_lets | dsimp only | split

theorem State.wakeHost_keeps {r : State} {s : State} {h : Nat} {egress : Bool} (hk : Keeps r s) :
    Keeps r (State.wakeHost s h egress) := by
  unfold State.wakeHost
  repeat' first
    | intro _
    | (with_reducible first | assumption | exact Keeps.refl _ | apply State.wr_keeps | apply Keeps.when)
    | extract_lets | dsimp only

theorem State.wakeBlocks_keeps {r : State} {s : State} {n : Nat} {egress : Bool} (hk : Keeps r s) :
    Keeps r (State.wakeBlocks s n egress) := by
  unfold State.wakeBlocks
  repeat' first
    | intro _
    | (with_reducible first | assumption | exact Keeps.refl _ | apply State.wr_keeps | apply State.wakeLine_keeps | apply State.wakeHost_keeps | apply Keeps.each)
    | extract_lets | dsimp only
    | (with_reducible first | apply Keeps.other)

theorem State.trimEnd_keeps {r : State} {s : State} {n : Nat} (hk : Keeps r s) :
    Keeps r (State.trimEnd s n) := by
  unfold State.trimEnd
  repeat' first
    | intro _
    | (with_reducible first | assumption | exact Keeps.refl _ | apply State.wr_keeps | apply State.dvfsKick_keeps | apply Keeps.when)
    | extract_lets | dsimp only

theorem State.wakeRecords_keeps {r : State} {s : State} {src n : Nat} {egress : Bool} {leaves : Nat → Bool} (hk : Keeps r s) :
    Keeps r (State.wakeRecords s src n egress leaves) := by
  unfold State.wakeRecords
  repeat' first
    | intro _
    | (with_reducible first | assumption | exact Keeps.refl _ | apply State.wakeRecord_keeps | apply Keeps.each | apply Keeps.cond | apply Keeps.cond_snd)
    | extract_lets | dsimp only | split

theorem State.wakeDir_keeps {r : State} {s : State} {src n : Nat} {egress : Bool} (hk : Keeps r s) :
    Keeps r (State.wakeDir s src n egress) := by
  unfold State.wakeDir
  repeat' first
    | intro _
    | (with_reducible first | assumption | exact Keeps.refl _ | apply State.wakeRecords_keeps | apply State.wr_keeps | apply State.trimEnd_keeps | apply State.wakeBlocks_keeps | apply Keeps.when | apply Keeps.cond)
    | extract_lets | dsimp only | split

theorem State.trimLoad_keeps {r : State} {s : State} {n : Nat} (hk : Keeps r s) :
    Keeps r (State.trimLoad s n) := by
  unfold State.trimLoad
  repeat' first
    | intro _
    | (with_reducible first | assumption | exact Keeps.refl _ | apply State.wakeRecord_keeps | apply State.trimEnd_keeps | apply Keeps.cond)
    | extract_lets | split

theorem State.wakeDone_keeps {r : State} {s : State} {device : Bool} {done : List SleepStep} (hk : Keeps r s) :
    Keeps r (State.wakeDone s device done) := by
  unfold State.wakeDone
  repeat' first
    | intro _
    | (with_reducible first | assumption | exact Keeps.refl _ | apply State.lrxToCal_keeps | apply State.ltxRecheck_keeps | apply State.wakeLine_keeps | apply State.hifStart_keeps | apply State.wakeHost_keeps | apply Keeps.each | apply Keeps.when | apply Keeps.cond)
    | extract_lets | dsimp only | split

theorem State.standbyWakeStart_keeps {r : State} {s : State} {src : Nat} (hk : Keeps r s) :
    Keeps r (State.standbyWakeStart s src) := by
  unfold State.standbyWakeStart
  repeat' first
    | intro _
    | (with_reducible first | assumption | exact Keeps.refl _ | apply State.wakeRecord_keeps | apply State.puts_keeps)
    | extract_lets | dsimp only
    | (with_reducible first | apply Keeps.other)

theorem State.standbyRelease_keeps {r : State} {s : State} {src : Nat} (hk : Keeps r s) :
    Keeps r (State.standbyRelease s src) := by
  unfold State.standbyRelease
  repeat' first
    | intro _
    | (with_reducible first | assumption | exact Keeps.refl _ | apply State.standbyWakeStart_keeps | apply State.puts_keeps | apply Keeps.cond)
    | extract_lets | split

theorem State.wakeHeld_keeps {r : State} {s : State} {src : Nat} (hk : Keeps r s) :
    Keeps r (State.wakeHeld s src) := by
  unfold State.wakeHeld
  repeat' first
    | intro _
    | (with_reducible first | assumption | exact Keeps.refl _ | apply State.wakeRecord_keeps | apply Keeps.cond)
    | extract_lets | split

theorem State.deviceAbandon_keeps {r : State} {s : State} {src : Nat} (hk : Keeps r s) :
    Keeps r (State.deviceAbandon s src) := by
  unfold State.deviceAbandon
  repeat' first
    | intro _
    | (with_reducible first | assumption | exact Keeps.refl _ | apply State.wakeRecord_keeps | apply State.puts_keeps | apply State.wakeDone_keeps | apply Keeps.when | apply OptKeeps.getD)
    | extract_lets | dsimp only
    | (with_reducible first | apply Keeps.other)

theorem State.deepWakeStart_keeps {r : State} {s : State} {src : Nat} (hk : Keeps r s) :
    Keeps r (State.deepWakeStart s src) := by
  unfold State.deepWakeStart
  repeat' first
    | intro _
    | (with_reducible first | assumption | exact Keeps.refl _ | apply State.wakeRecord_keeps | apply State.puts_keeps)
    | extract_lets

theorem State.wakeDevice_keeps {r : State} {s : State} {src : Nat} (hk : Keeps r s) :
    Keeps r (State.wakeDevice s src) := by
  unfold State.wakeDevice
  repeat' first
    | intro _
    | (with_reducible first | assumption | exact Keeps.refl _ | apply State.wakeHeld_keeps | apply State.standbyRelease_keeps | apply State.wr_keeps | apply State.deepWakeStart_keeps | apply State.deviceAbandon_keeps | apply Keeps.cond)
    | extract_lets | split

theorem State.lineWake_keeps {r : State} {s : State} {src n : Nat} (hk : Keeps r s) :
    Keeps r (State.lineWake s src n) := by
  unfold State.lineWake
  repeat' first
    | intro _
    | (with_reducible first | assumption | exact Keeps.refl _ | apply State.wakeDevice_keeps | apply State.wakeDir_keeps | apply Keeps.when | apply Keeps.cond)
    | extract_lets | dsimp only | split

theorem State.laneReload_keeps {r : State} {s : State} {n : Nat} (hk : Keeps r s) :
    Keeps r (State.laneReload s n) := by
  unfold State.laneReload
  repeat' first
    | intro _
    | (with_reducible first | assumption | exact Keeps.refl _ | apply State.wr_keeps | apply State.mlsePut_keeps | apply State.thrManual_keeps | apply State.leqStart_keeps | apply Keeps.when)
    | extract_lets | dsimp only

theorem State.setDomain_keeps {r : State} {s : State} {d : Nat} {up : Bool} (hk : Keeps r s) :
    Keeps r (State.setDomain s d up) := by
  unfold State.setDomain
  repeat' first
    | intro _
    | (with_reducible first | assumption | exact Keeps.refl _ | apply State.wrb_keeps | apply State.setMask_keeps | apply State.laneReload_keeps | apply State.arcClusterOff_keeps | apply State.wr_keeps | apply State.loadStores_keeps | apply State.clearStores_keeps | apply State.xbarOff_keeps | apply State.refreshRun_keeps | apply Keeps.each | apply Keeps.when | apply Keeps.cond)
    | extract_lets | dsimp only | split
    | (with_reducible first | apply Keeps.resetRegs | apply Keeps.other)

/-- Writes into a store keep its canonical form. -/
theorem Store.wf_foldl_set (l m : Store) (h : m.wf = true) :
    Store.wf (l.foldl (fun (m : Store) (e : Key × Nat) => m.set e.1 e.2) m) = true := by
  induction l generalizing m with
  | nil => exact h
  | cons e l ih => exact ih _ (Store.wf_set _ _ _ h)

theorem State.saveRecord_keeps {r s : State} {kind : RecordKind} {n : Nat} (hk : Keeps r s) :
    Keeps r (s.saveRecord kind n) := by
  have h (l : Store) (p : Key → Bool) :
      Keeps r { s with retained := l.foldl (fun (m : Store) (e : Key × Nat) => m.set e.1 e.2) (s.retained.resetWhere p) } :=
    Keeps.retained hk (fun i => Store.wf_foldl_set l _ (Store.wf_resetWhere _ p i.retained_wf))
  unfold State.saveRecord
  cases kind
  · exact State.wr_keeps (State.wrInt_keeps (h _ _))
  · exact State.wr_keeps (h _ _)
  · exact State.wr_keeps (State.wrInt_keeps (h _ _))
  · exact State.setMask_keeps (h _ _)

theorem State.recordBad_keeps {r : State} {s : State} {kind : RecordKind} {n : Nat} (hk : Keeps r s) :
    Keeps r (State.recordBad s kind n) := by
  unfold State.recordBad
  repeat' first
    | intro _
    | (with_reducible first | assumption | exact Keeps.refl _ | apply State.wr_keeps | apply State.raise_keeps | apply State.setMask_keeps)
    | extract_lets | dsimp only | split

theorem State.abortTests_keeps {r : State} {s : State} (hk : Keeps r s) :
    Keeps r (State.abortTests s) := by
  unfold State.abortTests
  repeat' first
    | intro _
    | (with_reducible first | assumption | exact Keeps.refl _ | apply State.endTest_keeps | apply Keeps.each)
    | extract_lets | dsimp only

theorem State.imgFail_keeps {r : State} {s : State} {code : Nat} {lane sec det : Option Nat} (hk : Keeps r s) :
    Keeps r (State.imgFail s code lane sec det) := by
  unfold State.imgFail
  repeat' first
    | intro _
    | (with_reducible first | assumption | exact Keeps.refl _ | apply State.wr_keeps | apply State.wrFree_keeps | apply State.free_keeps | apply State.puts_keeps)
    | extract_lets | dsimp only | split

theorem State.imgReport_keeps {r : State} {s : State} {op err : Nat} (hk : Keeps r s) :
    Keeps r (State.imgReport s op err) := by
  unfold State.imgReport
  repeat' first
    | intro _
    | (with_reducible first | assumption | exact Keeps.refl _ | apply State.emit_keeps | apply State.raise_keeps | apply Keeps.cond)
    | extract_lets | split

theorem State.imgEnd_keeps {r : State} {s : State} {err : Nat} (hk : Keeps r s) :
    Keeps r (State.imgEnd s err) := by
  unfold State.imgEnd
  repeat' first
    | intro _
    | (with_reducible first | assumption | exact Keeps.refl _ | apply State.puts_keeps | apply State.imgReport_keeps | apply State.cdbEnd_keeps | apply Keeps.when | apply Keeps.cond)
    | extract_lets | dsimp only | split

theorem State.pcAbort_keeps {r : State} {s : State} (hk : Keeps r s) :
    Keeps r (State.pcAbort s) := by
  unfold State.pcAbort
  repeat' first
    | intro _
    | (with_reducible first | assumption | exact Keeps.refl _ | apply State.wr_keeps | apply State.imgFail_keeps | apply State.imgEnd_keeps | apply Keeps.each | apply Keeps.cond)
    | extract_lets | dsimp only | split

theorem State.laneSave_keeps {r : State} {s : State} {n : Nat} {egress : Bool} (hk : Keeps r s) :
    Keeps r (State.laneSave s n egress) := by
  unfold State.laneSave
  repeat' first
    | intro _
    | (with_reducible first | assumption | exact Keeps.refl _ | apply State.saveRecord_keeps | apply Keeps.when | apply Keeps.cond)
    | extract_lets | dsimp only | split

theorem State.standbyEnter_keeps {r : State} {s : State} (hk : Keeps r s) :
    Keeps r (State.standbyEnter s) := by
  unfold State.standbyEnter
  repeat' first
    | intro _
    | (with_reducible first | assumption | exact Keeps.refl _ | apply State.abortTests_keeps | apply State.laneSave_keeps | apply State.lrxOff_keeps | apply State.optClamp_keeps | apply State.hifOff_keeps | apply State.puts_keeps | apply Keeps.each)
    | extract_lets | dsimp only | split
    | (with_reducible first | apply Keeps.other)

theorem State.resetOutsideAon_keeps {r : State} {s : State} (hk : Keeps r s) :
    Keeps r (State.resetOutsideAon s) := by
  unfold State.resetOutsideAon
  repeat' first
    | intro _
    | (with_reducible first | assumption | exact Keeps.refl _ | apply State.resetFields_keeps | apply State.arcClusterOff_keeps | apply State.clearStores_keeps | apply State.xbarOff_keeps | apply Keeps.each)
    | extract_lets | dsimp only
    | (with_reducible first | refine Keeps.evf ?_ (fun _ => Nat.zero_le _) | apply Keeps.emptied | apply Keeps.other)

theorem State.deepEnter_keeps {r s : State} (hk : Keeps r s) : Keeps r s.deepEnter := by
  unfold State.deepEnter
  refine State.puts_keeps (Keeps.each (State.resetOutsideAon_keeps (State.puts_keeps (Keeps.records hk ?_))) ?_)
  · exact fun i => Store.wf_filter _ _ i.regs_wf
  · exact fun _ _ hu => State.wrNow_keeps hu

theorem State.activeCheck_keeps {r : State} {s : State} (hk : Keeps r s) :
    Keeps r (State.activeCheck s) := by
  unfold State.activeCheck
  repeat' first
    | intro _
    | (with_reducible first | assumption | exact Keeps.refl _ | apply State.wr_keeps | apply State.puts_keeps | apply Keeps.cond)
    | extract_lets | dsimp only | split

end Sys2Proof.Machine
end

