-- ==== Sys2Proof/Laws/KeepsLineRx.lean ====
section
/-!
SUPPORT. The operations of LineRx keep the queue and the invariant.
-/
set_option Elab.async false
set_option linter.all false
namespace Sys2Proof.Machine

theorem State.lrxEnableOn_keeps {r : State} {s : State} {n : Nat} (hk : Keeps r s) :
    Keeps r (State.lrxEnableOn s n) := by
  unfold State.lrxEnableOn
  repeat' first
    | intro _
    | (with_reducible first | assumption | exact Keeps.refl _ | apply State.wr_keeps | apply State.lrxToCal_keeps | apply State.ltxRecheck_keeps | apply Keeps.cond)
    | extract_lets | split

theorem execLrxEnable_keeps {r : State} {n : Lane} {s : State} (hk : Keeps r s) :
    OutKeeps r (execLrxEnable n s) := by
  unfold execLrxEnable
  repeat' first
    | intro _
    | (with_reducible first | assumption | exact Keeps.refl _ | apply OutKeeps.next | apply State.access_keeps | apply State.wr_keeps | apply State.laneService_keeps | apply State.lrxEnableOn_keeps | apply Keeps.when)
    | extract_lets | dsimp only

theorem execLrxDisable_keeps {r : State} {n : Lane} {s : State} (hk : Keeps r s) :
    OutKeeps r (execLrxDisable n s) := by
  unfold execLrxDisable
  repeat' first
    | intro _
    | (with_reducible first | assumption | exact Keeps.refl _ | apply OutKeeps.next | apply State.access_keeps | apply State.wr_keeps | apply State.lrxOff_keeps | apply State.clearLastings_keeps | apply State.activeCheck_keeps)
    | extract_lets | dsimp only
    | (with_reducible first | apply Keeps.other)

theorem State.lrxRestartNow_keeps {r : State} {s : State} {n : Nat} (hk : Keeps r s) :
    Keeps r (State.lrxRestartNow s n) := by
  unfold State.lrxRestartNow
  repeat' first
    | intro _
    | (with_reducible first | assumption | exact Keeps.refl _ | apply State.wr_keeps | apply State.clearLastings_keeps | apply State.puts_keeps | apply State.lrxWaitSd_keeps | apply State.lrxToCal_keeps | apply State.svcSend_keeps | apply Keeps.when | apply Keeps.cond)
    | extract_lets | dsimp only | split

theorem execLrxRestart_keeps {r : State} {n : Lane} {s : State} (hk : Keeps r s) :
    OutKeeps r (execLrxRestart n s) := by
  unfold execLrxRestart
  repeat' first
    | intro _
    | (with_reducible first | assumption | exact Keeps.refl _ | apply OutKeeps.next | apply State.access_keeps | apply State.laneService_keeps | apply State.lrxRestartNow_keeps)
    | extract_lets | dsimp only

theorem State.lrxCommitNow_keeps {r : State} {s : State} {n : Nat} (hk : Keeps r s) :
    Keeps r (State.lrxCommitNow s n) := by
  unfold State.lrxCommitNow
  repeat' first
    | intro _
    | (with_reducible first | assumption | exact Keeps.refl _ | apply State.wr_keeps | apply State.lrxApply_keeps | apply Keeps.cond)
    | extract_lets | split

theorem execLrxCommit_keeps {r : State} {n : Lane} {s : State} (hk : Keeps r s) :
    OutKeeps r (execLrxCommit n s) := by
  unfold execLrxCommit
  repeat' first
    | intro _
    | (with_reducible first | assumption | exact Keeps.refl _ | apply OutKeeps.next | apply State.access_keeps | apply State.laneService_keeps | apply State.lrxCommitNow_keeps)
    | extract_lets | dsimp only

theorem execLrxCntClr_keeps {r : State} {n : Lane} {s : State} (hk : Keeps r s) :
    OutKeeps r (execLrxCntClr n s) := by
  unfold execLrxCntClr
  repeat' first
    | intro _
    | (with_reducible first | assumption | exact Keeps.refl _ | apply OutKeeps.next | apply State.access_keeps | apply State.clear_keeps)
    | extract_lets | dsimp only

theorem State.setSlice_keeps {r : State} {s : State} {n i : Nat} {offset gain skew : Int} (hk : Keeps r s) :
    Keeps r (State.setSlice s n i offset gain skew) := by
  unfold State.setSlice
  repeat' first
    | intro _
    | (with_reducible first | assumption | exact Keeps.refl _ | apply State.wrInt_keeps)
    | extract_lets

theorem State.sliceFail_keeps {r : State} {s : State} {n i : Nat} (hk : Keeps r s) :
    Keeps r (State.sliceFail s n i) := by
  unfold State.sliceFail
  repeat' first
    | intro _
    | (with_reducible first | assumption | exact Keeps.refl _ | apply State.wr_keeps | apply State.lrxFault_keeps | apply State.lrxAbandon_keeps | apply State.puts_keeps | apply State.raise_keeps | apply Keeps.cond)
    | extract_lets | dsimp only | split

theorem State.ofsPut_keeps {r : State} {s : State} {n : Nat} {code : Int} (hk : Keeps r s) :
    Keeps r (State.ofsPut s n code) := by
  unfold State.ofsPut
  repeat' first
    | intro _
    | (with_reducible first | assumption | exact Keeps.refl _ | apply State.wrInt_keeps | apply State.raise_keeps | apply Keeps.when)
    | extract_lets | dsimp only

theorem execLrxCalDone_keeps {r : State} {n : Lane} {est : List SliceEst} {ofs : BitVec 8} {linRx linTx : BitVec 1024} {s : State} (hk : Keeps r s) :
    OutKeeps r (execLrxCalDone n est ofs linRx linTx s) := by
  unfold execLrxCalDone
  repeat' first
    | intro _
    | (with_reducible first | assumption | exact Keeps.refl _ | apply OutKeeps.next | apply State.linMeasured_keeps | apply State.setSlice_keeps | apply State.sliceFail_keeps | apply State.bump_keeps | apply State.wr_keeps | apply State.ofsPut_keeps | apply State.puts_keeps | apply State.lrxWaitSd_keeps | apply State.activeCheck_keeps | apply Keeps.each | apply Keeps.when | apply OutKeeps.cond | apply Keeps.cond)
    | extract_lets | dsimp only | split

theorem execLrxCalTimeout_keeps {r : State} {n : Lane} {s : State} (hk : Keeps r s) :
    OutKeeps r (execLrxCalTimeout n s) := by
  unfold execLrxCalTimeout
  repeat' first
    | intro _
    | (with_reducible first | assumption | exact Keeps.refl _ | apply OutKeeps.next | apply State.lrxFault_keeps | apply State.activeCheck_keeps | apply OutKeeps.cond | apply Keeps.cond)
    | extract_lets | split

theorem execAdcShadowDone_keeps {r : State} {n : Lane} {offset gain skew : Int} {s : State} (hk : Keeps r s) :
    OutKeeps r (execAdcShadowDone n offset gain skew s) := by
  unfold execAdcShadowDone
  repeat' first
    | intro _
    | (with_reducible first | assumption | exact Keeps.refl _ | apply OutKeeps.next | apply State.sliceFail_keeps | apply State.wrInt_keeps | apply State.puts_keeps | apply OutKeeps.cond | apply Keeps.cond)
    | extract_lets | split

theorem execSwapDeferExpiry_keeps {r : State} {n : Lane} {tx : Bool} {s : State} (hk : Keeps r s) :
    OutKeeps r (execSwapDeferExpiry n tx s) := by
  unfold execSwapDeferExpiry
  repeat' first
    | intro _
    | (with_reducible first | assumption | exact Keeps.refl _ | apply OutKeeps.next | apply State.puts_keeps | apply OutKeeps.cond | apply Keeps.cond)
    | extract_lets | split

theorem execAdcOverrange_keeps {r : State} {n : Lane} {s : State} (hk : Keeps r s) :
    OutKeeps r (execAdcOverrange n s) := by
  unfold execAdcOverrange
  repeat' first
    | intro _
    | (with_reducible first | assumption | exact Keeps.refl _ | apply OutKeeps.next | apply State.bump_keeps | apply State.faultEvent_keeps | apply OutKeeps.cond | apply Keeps.cond)
    | extract_lets | split

theorem execSdAssert_keeps {r : State} {n : Lane} {s : State} (hk : Keeps r s) :
    OutKeeps r (execSdAssert n s) := by
  unfold execSdAssert
  repeat' first
    | intro _
    | (with_reducible first | assumption | exact Keeps.refl _ | apply OutKeeps.next | apply State.wr_keeps | apply State.raise_keeps | apply State.lineWake_keeps | apply State.lrxStartAgc_keeps | apply OutKeeps.cond | apply Keeps.cond)
    | extract_lets | split

theorem execSdDeassert_keeps {r : State} {n : Lane} {s : State} (hk : Keeps r s) :
    OutKeeps r (execSdDeassert n s) := by
  unfold execSdDeassert
  repeat' first
    | intro _
    | (with_reducible first | assumption | exact Keeps.refl _ | apply OutKeeps.next | apply State.wr_keeps | apply State.cmis_keeps | apply State.bump_keeps | apply State.raise_keeps | apply State.lrxWaitSd_keeps | apply OutKeeps.cond | apply Keeps.cond)
    | extract_lets | split

theorem execWakePatternDetect_keeps {r : State} {n : Lane} {s : State} (hk : Keeps r s) :
    OutKeeps r (execWakePatternDetect n s) := by
  unfold execWakePatternDetect
  repeat' first
    | intro _
    | (with_reducible first | assumption | exact Keeps.refl _ | apply OutKeeps.next | apply State.raise_keeps | apply State.lineWake_keeps | apply OutKeeps.cond | apply Keeps.cond)
    | extract_lets | split

theorem State.reacquire_keeps {r : State} {s : State} {src n : Nat} {g : State → State} (hgg : ∀ u, Keeps r u → Keeps r (g u)) (hk : Keeps r s) :
    Keeps r (State.reacquire s src n g) := by
  unfold State.reacquire
  repeat' first
    | intro _
    | (with_reducible first | apply hgg | assumption | exact Keeps.refl _ | apply State.countEvent_keeps | apply State.lrxFault_keeps | apply Keeps.cond | apply Keeps.cond_snd)
    | extract_lets | dsimp only | split

theorem State.agcRun_keeps {r : State} {s : State} {n : Nat} {err : Int} (hk : Keeps r s) :
    Keeps r (State.agcRun s n err) := by
  unfold State.agcRun
  repeat' first
    | intro _
    | (with_reducible first | assumption | exact Keeps.refl _ | apply State.wr_keeps | apply State.puts_keeps | apply State.lrxCdrPhase_keeps | apply Keeps.cond)
    | extract_lets | split

theorem State.acqCapture_keeps {r : State} {s : State} {n : Nat} (hk : Keeps r s) :
    Keeps r (State.acqCapture s n) := by
  unfold State.acqCapture
  repeat' first
    | intro _
    | (with_reducible first | assumption | exact Keeps.refl _ | apply State.bump_keeps | apply State.wr_keeps | apply State.lrxAttemptFail_keeps | apply State.lrxStartAgc_keeps | apply Keeps.cond)
    | extract_lets | split

theorem State.agcService_keeps {r : State} {s : State} {n : Nat} {err : Int} (hk : Keeps r s) :
    Keeps r (State.agcService s n err) := by
  unfold State.agcService
  repeat' first
    | intro _
    | (with_reducible first | assumption | exact Keeps.refl _ | apply State.wr_keeps | apply State.puts_keeps | apply State.bump_keeps | apply State.raise_keeps | apply State.reacquire_keeps | apply State.lrxStartAgc_keeps | apply Keeps.when | apply Keeps.cond)
    | extract_lets | dsimp only | split

theorem State.ofsLoop_keeps {r : State} {s : State} {n : Nat} {step : Int} (hk : Keeps r s) :
    Keeps r (State.ofsLoop s n step) := by
  unfold State.ofsLoop
  repeat' first
    | intro _
    | (with_reducible first | assumption | exact Keeps.refl _ | apply State.ofsPut_keeps)
    | extract_lets

theorem execAgcWindow_keeps {r : State} {n : Lane} {level : Nat} {ofsStep : Int} {s : State} (hk : Keeps r s) :
    OutKeeps r (execAgcWindow n level ofsStep s) := by
  unfold execAgcWindow
  repeat' first
    | intro _
    | (with_reducible first | assumption | exact Keeps.refl _ | apply OutKeeps.next | apply State.wr_keeps | apply State.ofsLoop_keeps | apply State.agcService_keeps | apply State.lrxCdrPhase_keeps | apply State.agcRun_keeps | apply State.acqCapture_keeps | apply OutKeeps.cond | apply Keeps.cond)
    | extract_lets | split

theorem execAgcTrimStep_keeps {r : State} {n : Lane} {avgErr : Int} {s : State} (hk : Keeps r s) :
    OutKeeps r (execAgcTrimStep n avgErr s) := by
  unfold execAgcTrimStep
  repeat' first
    | intro _
    | (with_reducible first | assumption | exact Keeps.refl _ | apply OutKeeps.next | apply State.raise_keeps | apply State.wr_keeps | apply OutKeeps.cond | apply Keeps.cond)
    | extract_lets | split

theorem State.lrxCdrLoss_keeps {r : State} {s : State} {n : Nat} (hk : Keeps r s) :
    Keeps r (State.lrxCdrLoss s n) := by
  unfold State.lrxCdrLoss
  repeat' first
    | intro _
    | (with_reducible first | assumption | exact Keeps.refl _ | apply State.puts_keeps | apply State.bump_keeps | apply State.raise_keeps | apply State.reacquire_keeps | apply State.cdrStart_keeps | apply State.lrxCdrPhase_keeps | apply State.lrxAttemptFail_keeps | apply Keeps.cond)
    | extract_lets | dsimp only | split

theorem State.cdrRun_keeps {r : State} {s : State} {n : Nat} {hold : Bool} {errs : List Int} (hk : Keeps r s) :
    Keeps r (State.cdrRun s n hold errs).1 := by
  unfold State.cdrRun
  repeat' first
    | intro _
    | (with_reducible first | assumption | exact Keeps.refl _ | apply State.wrInt_keeps | apply State.puts_keeps | apply State.lrxCdrPhase_keeps | apply Keeps.cond | apply Keeps.cond | apply Keeps.cond_snd)
    | extract_lets | dsimp only | split

theorem execCdrLockInterval_keeps {r : State} {n : Lane} {errs : List Int} {s : State} (hk : Keeps r s) :
    OutKeeps r (execCdrLockInterval n errs s) := by
  unfold execCdrLockInterval
  repeat' first
    | intro _
    | (with_reducible first | assumption | exact Keeps.refl _ | apply OutKeeps.next | apply State.cdrRun_keeps | apply State.lrxCdrLoss_keeps | apply State.puts_keeps | apply State.lrxFfePhase_keeps | apply State.leqFollow_keeps | apply State.wr_keeps | apply OutKeeps.cond | apply Keeps.cond | apply Keeps.cond_snd)
    | extract_lets | dsimp only | split

theorem execAcqTimeout_keeps {r : State} {n : Lane} {phase : Fin 5} {s : State} (hk : Keeps r s) :
    OutKeeps r (execAcqTimeout n phase s) := by
  unfold execAcqTimeout
  repeat' first
    | intro _
    | (with_reducible first | assumption | exact Keeps.refl _ | apply OutKeeps.next | apply State.lrxAttemptFail_keeps | apply OutKeeps.cond | apply Keeps.cond)
    | extract_lets | split

theorem execTrainTimeout_keeps {r : State} {n : Lane} {s : State} (hk : Keeps r s) :
    OutKeeps r (execTrainTimeout n s) := by
  unfold execTrainTimeout
  repeat' first
    | intro _
    | (with_reducible first | assumption | exact Keeps.refl _ | apply OutKeeps.next | apply State.lrxFault_keeps | apply OutKeeps.cond | apply Keeps.cond)
    | extract_lets | split

theorem execLrxFaultAutoRestart_keeps {r : State} {n : Lane} {s : State} (hk : Keeps r s) :
    OutKeeps r (execLrxFaultAutoRestart n s) := by
  unfold execLrxFaultAutoRestart
  repeat' first
    | intro _
    | (with_reducible first | assumption | exact Keeps.refl _ | apply OutKeeps.next | apply State.puts_keeps | apply State.lrxToCal_keeps | apply State.lrxWaitSd_keeps | apply OutKeeps.cond | apply Keeps.cond)
    | extract_lets | split

theorem execLockedToService_keeps {r : State} {n : Lane} {s : State} (hk : Keeps r s) :
    OutKeeps r (execLockedToService n s) := by
  unfold execLockedToService
  repeat' first
    | intro _
    | (with_reducible first | assumption | exact Keeps.refl _ | apply OutKeeps.next | apply State.lrxSet_keeps | apply OutKeeps.cond | apply Keeps.cond)
    | extract_lets | dsimp only | split

theorem execServiceExit_keeps {r : State} {n : Lane} {s : State} (hk : Keeps r s) :
    OutKeeps r (execServiceExit n s) := by
  unfold execServiceExit
  repeat' first
    | intro _
    | (with_reducible first | assumption | exact Keeps.refl _ | apply OutKeeps.next | apply State.lrxSet_keeps | apply OutKeeps.cond | apply Keeps.cond)
    | extract_lets | split

theorem execRxSleepWake_keeps {r : State} {n : Lane} {s : State} (hk : Keeps r s) :
    OutKeeps r (execRxSleepWake n s) := by
  unfold execRxSleepWake
  repeat' first
    | intro _
    | (with_reducible first | assumption | exact Keeps.refl _ | apply OutKeeps.next | apply State.wr_keeps | apply OutKeeps.cond | apply Keeps.cond)
    | extract_lets | split

theorem execRxResumeDone_keeps {r : State} {n : Lane} {ok recOk : Bool} {s : State} (hk : Keeps r s) :
    OutKeeps r (execRxResumeDone n ok recOk s) := by
  unfold execRxResumeDone
  repeat' first
    | intro _
    | (with_reducible first | assumption | exact Keeps.refl _ | apply OutKeeps.next | apply State.puts_keeps | apply State.recordBad_keeps | apply State.wr_keeps | apply State.lrxToCal_keeps | apply State.leqFollow_keeps | apply State.bump_keeps | apply State.lrxStartAgc_keeps | apply State.lrxCdrPhase_keeps | apply Keeps.when | apply OutKeeps.cond | apply Keeps.cond)
    | extract_lets | dsimp only | split

end Sys2Proof.Machine
end

