-- ==== Sys2Proof/Laws/KeepsLineTx.lean ====
section
/-!
SUPPORT. The operations of LineTx keep the queue and the invariant.
-/
set_option Elab.async false
set_option linter.all false
namespace Sys2Proof.Machine

theorem State.ltxEnableOn_keeps {r : State} {s : State} {n : Nat} (hk : Keeps r s) :
    Keeps r (State.ltxEnableOn s n) := by
  unfold State.ltxEnableOn
  repeat' first
    | intro _
    | (with_reducible first | assumption | exact Keeps.refl _ | apply State.wr_keeps | apply State.ltxRecheck_keeps | apply Keeps.cond)
    | extract_lets | split

theorem execTxEnableRequest_keeps {r : State} {n : Lane} {s : State} (hk : Keeps r s) :
    OutKeeps r (execTxEnableRequest n s) := by
  unfold execTxEnableRequest
  repeat' first
    | intro _
    | (with_reducible first | assumption | exact Keeps.refl _ | apply OutKeeps.next | apply State.access_keeps | apply State.wr_keeps | apply State.laneService_keeps | apply State.ltxEnableOn_keeps | apply Keeps.when)
    | extract_lets | dsimp only

theorem execTxEnableGo_keeps {r : State} {n : Lane} {s : State} (hk : Keeps r s) :
    OutKeeps r (execTxEnableGo n s) := by
  unfold execTxEnableGo
  repeat' first
    | intro _
    | (with_reducible first | assumption | exact Keeps.refl _ | apply OutKeeps.next | apply State.puts_keeps | apply State.ltxSet_keeps | apply State.wr_keeps | apply State.ltxFault_keeps | apply OutKeeps.cond | apply Keeps.cond)
    | extract_lets | split

theorem execTxenTimeout_keeps {r : State} {n : Lane} {s : State} (hk : Keeps r s) :
    OutKeeps r (execTxenTimeout n s) := by
  unfold execTxenTimeout
  repeat' first
    | intro _
    | (with_reducible first | assumption | exact Keeps.refl _ | apply OutKeeps.next | apply State.ltxFault_keeps | apply OutKeeps.cond | apply Keeps.cond)
    | extract_lets | split

theorem State.laserOn_keeps {r : State} {s : State} {n : Nat} (hk : Keeps r s) :
    Keeps r (State.laserOn s n) := by
  unfold State.laserOn
  repeat' first
    | intro _
    | (with_reducible first | assumption | exact Keeps.refl _ | apply State.puts_keeps | apply Keeps.when)
    | extract_lets | dsimp only

theorem State.drvLow_keeps {r : State} {s : State} {n : Nat} (hk : Keeps r s) :
    Keeps r (State.drvLow s n) := by
  unfold State.drvLow
  repeat' first
    | intro _
    | (with_reducible first | assumption | exact Keeps.refl _ | apply State.bump_keeps | apply State.raise_keeps)
    | extract_lets

theorem execDrvSettleExpiry_keeps {r : State} {n : Lane} {drvFltHigh : Bool} {s : State} (hk : Keeps r s) :
    OutKeeps r (execDrvSettleExpiry n drvFltHigh s) := by
  unfold execDrvSettleExpiry
  repeat' first
    | intro _
    | (with_reducible first | assumption | exact Keeps.refl _ | apply OutKeeps.next | apply State.drvLow_keeps | apply State.ltxFault_keeps | apply State.laserOn_keeps | apply State.ltxSet_keeps | apply OutKeeps.cond | apply Keeps.cond)
    | extract_lets | split

theorem execBiasTimeout_keeps {r : State} {n : Lane} {s : State} (hk : Keeps r s) :
    OutKeeps r (execBiasTimeout n s) := by
  unfold execBiasTimeout
  repeat' first
    | intro _
    | (with_reducible first | assumption | exact Keeps.refl _ | apply OutKeeps.next | apply State.ltxFault_keeps | apply OutKeeps.cond | apply Keeps.cond)
    | extract_lets | split

theorem execTxActivate_keeps {r : State} {n : Lane} {s : State} (hk : Keeps r s) :
    OutKeeps r (execTxActivate n s) := by
  unfold execTxActivate
  repeat' first
    | intro _
    | (with_reducible first | assumption | exact Keeps.refl _ | apply OutKeeps.next | apply State.puts_keeps | apply State.ltxSet_keeps | apply State.wrFree_keeps | apply State.raise_keeps | apply OutKeeps.cond | apply Keeps.cond)
    | extract_lets | split

theorem State.ltxEnableOff_keeps {r : State} {s : State} {n : Nat} (hk : Keeps r s) :
    Keeps r (State.ltxEnableOff s n) := by
  unfold State.ltxEnableOff
  repeat' first
    | intro _
    | (with_reducible first | assumption | exact Keeps.refl _ | apply State.wr_keeps | apply State.ltxDisable_keeps | apply State.ltxFaultEnd_keeps | apply State.clearLastings_keeps)
    | extract_lets
    | (with_reducible first | apply Keeps.other)

theorem execTxDisable_keeps {r : State} {n : Lane} {trigger : DisableTrigger} {s : State} (hk : Keeps r s) :
    OutKeeps r (execTxDisable n trigger s) := by
  unfold execTxDisable
  repeat' first
    | intro _
    | (with_reducible first | assumption | exact Keeps.refl _ | apply OutKeeps.next | apply State.access_keeps | apply State.ltxEnableOff_keeps | apply State.ltxDisable_keeps | apply State.wr_keeps | apply OutKeeps.cond | apply Keeps.cond)
    | extract_lets | dsimp only | split

theorem execTxDisableMute_keeps {r : State} {n : Lane} {s : State} (hk : Keeps r s) :
    OutKeeps r (execTxDisableMute n s) := by
  unfold execTxDisableMute
  repeat' first
    | intro _
    | (with_reducible first | assumption | exact Keeps.refl _ | apply OutKeeps.next | apply State.ltxLaserOff_keeps | apply OutKeeps.cond | apply Keeps.cond)
    | extract_lets | split

theorem execDrvHoldExpiry_keeps {r : State} {n : Lane} {s : State} (hk : Keeps r s) :
    OutKeeps r (execDrvHoldExpiry n s) := by
  unfold execDrvHoldExpiry
  repeat' first
    | intro _
    | (with_reducible first | assumption | exact Keeps.refl _ | apply OutKeeps.next | apply State.ltxDisableEnd_keeps | apply OutKeeps.cond | apply Keeps.cond)
    | extract_lets | split

theorem State.ltxLeaveFault_keeps {r : State} {s : State} {n : Nat} (hk : Keeps r s) :
    Keeps r (State.ltxLeaveFault s n) := by
  unfold State.ltxLeaveFault
  repeat' first
    | intro _
    | (with_reducible first | assumption | exact Keeps.refl _ | apply State.puts_keeps | apply State.wr_keeps | apply State.ltxSet_keeps | apply Keeps.when)
    | extract_lets | dsimp only

theorem State.ltxRestartNow_keeps {r : State} {s : State} {n : Nat} (hk : Keeps r s) :
    Keeps r (State.ltxRestartNow s n) := by
  unfold State.ltxRestartNow
  repeat' first
    | intro _
    | (with_reducible first | assumption | exact Keeps.refl _ | apply State.ltxLeaveFault_keeps | apply State.clearLastings_keeps | apply State.ltxRecheck_keeps | apply Keeps.cond)
    | extract_lets | split

theorem execLtxRestart_keeps {r : State} {n : Lane} {s : State} (hk : Keeps r s) :
    OutKeeps r (execLtxRestart n s) := by
  unfold execLtxRestart
  repeat' first
    | intro _
    | (with_reducible first | assumption | exact Keeps.refl _ | apply OutKeeps.next | apply State.access_keeps | apply State.laneService_keeps | apply State.ltxRestartNow_keeps)
    | extract_lets | dsimp only

theorem State.ltxCommitNow_keeps {r : State} {s : State} {n : Nat} (hk : Keeps r s) :
    Keeps r (State.ltxCommitNow s n) := by
  unfold State.ltxCommitNow
  repeat' first
    | intro _
    | (with_reducible first | assumption | exact Keeps.refl _ | apply State.wr_keeps | apply State.raise_keeps | apply State.ltxApply_keeps | apply Keeps.cond)
    | extract_lets | split

theorem execLtxCommit_keeps {r : State} {n : Lane} {s : State} (hk : Keeps r s) :
    OutKeeps r (execLtxCommit n s) := by
  unfold execLtxCommit
  repeat' first
    | intro _
    | (with_reducible first | assumption | exact Keeps.refl _ | apply OutKeeps.next | apply State.access_keeps | apply State.laneService_keeps | apply State.ltxCommitNow_keeps)
    | extract_lets | dsimp only

theorem execLtxCntClr_keeps {r : State} {n : Lane} {s : State} (hk : Keeps r s) :
    OutKeeps r (execLtxCntClr n s) := by
  unfold execLtxCntClr
  repeat' first
    | intro _
    | (with_reducible first | assumption | exact Keeps.refl _ | apply OutKeeps.next | apply State.access_keeps | apply State.clear_keeps)
    | extract_lets | dsimp only

theorem execDrvFault_keeps {r : State} {n : Lane} {s : State} (hk : Keeps r s) :
    OutKeeps r (execDrvFault n s) := by
  unfold execDrvFault
  repeat' first
    | intro _
    | (with_reducible first | assumption | exact Keeps.refl _ | apply OutKeeps.next | apply State.drvLow_keeps | apply State.ltxFault_keeps | apply OutKeeps.cond | apply Keeps.cond)
    | extract_lets | split

theorem execTxFaultDacOff_keeps {r : State} {n : Lane} {s : State} (hk : Keeps r s) :
    OutKeeps r (execTxFaultDacOff n s) := by
  unfold execTxFaultDacOff
  repeat' first
    | intro _
    | (with_reducible first | assumption | exact Keeps.refl _ | apply OutKeeps.next | apply State.puts_keeps | apply OutKeeps.cond | apply Keeps.cond)
    | extract_lets | split

theorem execTxFaultAutoRestart_keeps {r : State} {n : Lane} {s : State} (hk : Keeps r s) :
    OutKeeps r (execTxFaultAutoRestart n s) := by
  unfold execTxFaultAutoRestart
  repeat' first
    | intro _
    | (with_reducible first | assumption | exact Keeps.refl _ | apply OutKeeps.next | apply State.ltxLeaveFault_keeps | apply State.ltxRecheck_keeps | apply OutKeeps.cond | apply Keeps.cond)
    | extract_lets | split

theorem State.cellFail_keeps {r : State} {s : State} {n c : Nat} (hk : Keeps r s) :
    Keeps r (State.cellFail s n c) := by
  unfold State.cellFail
  repeat' first
    | intro _
    | (with_reducible first | assumption | exact Keeps.refl _ | apply State.wr_keeps | apply State.raise_keeps | apply State.setOutCells_keeps | apply State.puts_keeps | apply State.cellRepair_keeps | apply State.ltxFault_keeps | apply Keeps.when | apply Keeps.cond)
    | extract_lets | dsimp only | split

theorem State.dacCalApply_keeps {r : State} {s : State} {n : Nat} {trims : List (Nat × Int)} {intlv : Int} (hk : Keeps r s) :
    Keeps r (State.dacCalApply s n trims intlv) := by
  unfold State.dacCalApply
  repeat' first
    | intro _
    | (with_reducible first | assumption | exact Keeps.refl _ | apply State.wrInt_keeps | apply State.cellFail_keeps | apply State.puts_keeps | apply State.wr_keeps | apply State.ltxRecheck_keeps | apply State.ltxFault_keeps | apply Keeps.each | apply Keeps.cond | apply Keeps.cond_snd)
    | extract_lets | dsimp only | split

theorem execDacCalDone_keeps {r : State} {n : Lane} {trims : List Int} {intlv : Int} {s : State} (hk : Keeps r s) :
    OutKeeps r (execDacCalDone n trims intlv s) := by
  unfold execDacCalDone
  repeat' first
    | intro _
    | (with_reducible first | assumption | exact Keeps.refl _ | apply OutKeeps.next | apply State.wr_keeps | apply State.wrInt_keeps | apply State.dacCalApply_keeps | apply Keeps.each | apply OutKeeps.cond | apply Keeps.cond | apply Keeps.cond_snd)
    | extract_lets | dsimp only | split

theorem State.dacCalRelease_keeps {r : State} {s : State} {n : Nat} (hk : Keeps r s) :
    Keeps r (State.dacCalRelease s n) := by
  unfold State.dacCalRelease
  repeat' first
    | intro _
    | (with_reducible first | assumption | exact Keeps.refl _ | apply State.dacCalApply_keeps | apply State.wr_keeps | apply Keeps.cond | apply Keeps.cond_snd)
    | extract_lets | dsimp only | split

theorem execDacCellTrimDone_keeps {r : State} {n : Lane} {trim : Int} {s : State} (hk : Keeps r s) :
    OutKeeps r (execDacCellTrimDone n trim s) := by
  unfold execDacCellTrimDone
  repeat' first
    | intro _
    | (with_reducible first | assumption | exact Keeps.refl _ | apply OutKeeps.next | apply State.wrInt_keeps | apply State.wr_keeps | apply State.cellFail_keeps | apply OutKeeps.cond | apply Keeps.cond)
    | extract_lets | split

theorem execDacClip_keeps {r : State} {n : Lane} {s : State} (hk : Keeps r s) :
    OutKeeps r (execDacClip n s) := by
  unfold execDacClip
  repeat' first
    | intro _
    | (with_reducible first | assumption | exact Keeps.refl _ | apply OutKeeps.next | apply State.bump_keeps | apply State.raise_keeps | apply OutKeeps.cond | apply Keeps.cond)
    | extract_lets | split

theorem State.maskReport_keeps {r : State} {s : State} {n : Nat} (hk : Keeps r s) :
    Keeps r (State.maskReport s n) := by
  unfold State.maskReport
  repeat' first
    | intro _
    | (with_reducible first | assumption | exact Keeps.refl _ | apply State.wrInt_keeps | apply State.wr_keeps | apply State.maskDiscard_keeps | apply State.puts_keeps | apply State.bump_keeps | apply State.raise_keeps | apply State.faultEvent_keeps | apply Keeps.each | apply Keeps.when | apply Keeps.cond | apply Keeps.cond_snd)
    | extract_lets | dsimp only | split

theorem State.maskBlock_keeps {r : State} {s : State} {n : Nat} {b : MaskBlock} (hk : Keeps r s) :
    Keeps r (State.maskBlock s n b) := by
  unfold State.maskBlock
  repeat' first
    | intro _
    | (with_reducible first | assumption | exact Keeps.refl _ | apply State.wr_keeps | apply State.bump_keeps | apply State.maskReport_keeps | apply Keeps.each | apply Keeps.cond | apply Keeps.cond_snd)
    | extract_lets | dsimp only | split

theorem execMaskAverageEnd_keeps {r : State} {n : Lane} {blocks : List (List (Option (BitVec 7)))} {s : State} (hk : Keeps r s) :
    OutKeeps r (execMaskAverageEnd n blocks s) := by
  unfold execMaskAverageEnd
  repeat' first
    | intro _
    | (with_reducible first | assumption | exact Keeps.refl _ | apply OutKeeps.next | apply State.maskBlock_keeps | apply Keeps.each | apply OutKeeps.cond | apply Keeps.cond)
    | extract_lets | dsimp only | split

theorem execWakeSend_keeps {r : State} {n : Lane} {s : State} (hk : Keeps r s) :
    OutKeeps r (execWakeSend n s) := by
  unfold execWakeSend
  repeat' first
    | intro _
    | (with_reducible first | assumption | exact Keeps.refl _ | apply OutKeeps.next | apply State.access_keeps | apply State.ltxAbandon_keeps | apply State.puts_keeps | apply State.wr_keeps | apply Keeps.when | apply OutKeeps.cond | apply Keeps.cond)
    | extract_lets | dsimp only | split

theorem execWakePatternEnd_keeps {r : State} {n : Lane} {s : State} (hk : Keeps r s) :
    OutKeeps r (execWakePatternEnd n s) := by
  unfold execWakePatternEnd
  repeat' first
    | intro _
    | (with_reducible first | assumption | exact Keeps.refl _ | apply OutKeeps.next | apply State.puts_keeps | apply State.raise_keeps | apply State.bump_keeps | apply OutKeeps.cond | apply Keeps.cond)
    | extract_lets | split

theorem execTxSleepWake_keeps {r : State} {n : Lane} {drvFltHigh recOk : Bool} {s : State} (hk : Keeps r s) :
    OutKeeps r (execTxSleepWake n drvFltHigh recOk s) := by
  unfold execTxSleepWake
  repeat' first
    | intro _
    | (with_reducible first | assumption | exact Keeps.refl _ | apply OutKeeps.next | apply State.recordBad_keeps | apply State.puts_keeps | apply State.ltxDisable_keeps | apply State.ltxFault_keeps | apply State.wr_keeps | apply State.drvLow_keeps | apply State.raise_keeps | apply Keeps.when | apply OutKeeps.cond | apply Keeps.cond)
    | extract_lets | dsimp only | split

end Sys2Proof.Machine
end

