-- ==== Sys2Proof/Laws/KeepsLineEq.lean ====
section
/-!
SUPPORT. The operations of LineEq keep the queue and the invariant.
-/
set_option Elab.async false
set_option linter.all false
namespace Sys2Proof.Machine

theorem State.leqCommitNow_keeps {r : State} {s : State} {n : Nat} (hk : Keeps r s) :
    Keeps r (State.leqCommitNow s n) := by
  unfold State.leqCommitNow
  repeat' first
    | intro _
    | (with_reducible first | assumption | exact Keeps.refl _ | apply State.wr_keeps | apply State.raise_keeps | apply State.leqCommitApply_keeps | apply Keeps.cond)
    | extract_lets | split

theorem execLeqCommit_keeps {r : State} {n : Lane} {s : State} (hk : Keeps r s) :
    OutKeeps r (execLeqCommit n s) := by
  unfold execLeqCommit
  repeat' first
    | intro _
    | (with_reducible first | assumption | exact Keeps.refl _ | apply OutKeeps.next | apply State.access_keeps | apply State.laneService_keeps | apply State.leqCommitNow_keeps)
    | extract_lets | dsimp only

theorem execCoefSnap_keeps {r : State} {n : Lane} {s : State} (hk : Keeps r s) :
    OutKeeps r (execCoefSnap n s) := by
  unfold execCoefSnap
  repeat' first
    | intro _
    | (with_reducible first | assumption | exact Keeps.refl _ | apply OutKeeps.next | apply State.access_keeps | apply State.wr_keeps | apply State.leqSnapshot_keeps | apply OutKeeps.cond | apply Keeps.cond)
    | extract_lets | dsimp only | split

theorem execLeqCntClr_keeps {r : State} {n : Lane} {s : State} (hk : Keeps r s) :
    OutKeeps r (execLeqCntClr n s) := by
  unfold execLeqCntClr
  repeat' first
    | intro _
    | (with_reducible first | assumption | exact Keeps.refl _ | apply OutKeeps.next | apply State.access_keeps | apply State.clear_keeps)
    | extract_lets | dsimp only

theorem execHistStart_keeps {r : State} {n : Lane} {s : State} (hk : Keeps r s) :
    OutKeeps r (execHistStart n s) := by
  unfold execHistStart
  repeat' first
    | intro _
    | (with_reducible first | assumption | exact Keeps.refl _ | apply OutKeeps.next | apply State.access_keeps | apply State.wr_keeps | apply State.puts_keeps | apply Keeps.each | apply OutKeeps.cond | apply Keeps.cond)
    | extract_lets | dsimp only | split

theorem execHistDone_keeps {r : State} {n : Lane} {bins : List Nat} {s : State} (hk : Keeps r s) :
    OutKeeps r (execHistDone n bins s) := by
  unfold execHistDone
  repeat' first
    | intro _
    | (with_reducible first | assumption | exact Keeps.refl _ | apply OutKeeps.next | apply State.wr_keeps | apply State.puts_keeps | apply State.raise_keeps | apply Keeps.each | apply OutKeeps.cond | apply Keeps.cond | apply OptKeeps.getD)
    | extract_lets | dsimp only | split

theorem State.leqPend_keeps {r : State} {s : State} {n sh : Nat} {dd : Bool} {accs : List Int} {accD : Int} (hk : Keeps r s) :
    Keeps r (State.leqPend s n sh dd accs accD) := by
  unfold State.leqPend
  repeat' first
    | intro _
    | (with_reducible first | assumption | exact Keeps.refl _ | apply State.wrInt_keeps | apply State.wr_keeps | apply Keeps.each | apply Keeps.when | apply Keeps.cond | apply OptKeeps.getD)
    | extract_lets | dsimp only | split

theorem execLeqAdaptUpdate_keeps {r : State} {n : Lane} {accs : List Int} {accD : Int} {s : State} (hk : Keeps r s) :
    OutKeeps r (execLeqAdaptUpdate n accs accD s) := by
  unfold execLeqAdaptUpdate
  repeat' first
    | intro _
    | (with_reducible first | assumption | exact Keeps.refl _ | apply OutKeeps.next | apply State.leqFollow_keeps | apply State.leqPend_keeps | apply State.wr_keeps | apply OutKeeps.cond | apply Keeps.cond)
    | extract_lets | split

theorem State.leqConverge_keeps {r : State} {s : State} {n : Nat} (hk : Keeps r s) :
    Keeps r (State.leqConverge s n) := by
  unfold State.leqConverge
  repeat' first
    | intro _
    | (with_reducible first | assumption | exact Keeps.refl _ | apply State.wr_keeps | apply State.puts_keeps | apply State.raise_keeps | apply State.leqFollow_keeps | apply Keeps.each)
    | extract_lets | dsimp only

theorem State.leqBlindWindow_keeps {r : State} {s : State} {n fom : Nat} (hk : Keeps r s) :
    Keeps r (State.leqBlindWindow s n fom) := by
  unfold State.leqBlindWindow
  repeat' first
    | intro _
    | (with_reducible first | assumption | exact Keeps.refl _ | apply State.leqConverge_keeps | apply State.wr_keeps | apply Keeps.cond)
    | extract_lets | split

theorem State.leqGuard_keeps {r : State} {s : State} {n fom : Nat} (hk : Keeps r s) :
    Keeps r (State.leqGuard s n fom) := by
  unfold State.leqGuard
  repeat' first
    | intro _
    | (with_reducible first | assumption | exact Keeps.refl _ | apply State.wr_keeps | apply State.puts_keeps | apply State.bump_keeps | apply State.raise_keeps | apply Keeps.each | apply Keeps.cond)
    | extract_lets | dsimp only | split

theorem State.fomLow_keeps {r : State} {s : State} {n fom : Nat} (hk : Keeps r s) :
    Keeps r (State.fomLow s n fom) := by
  unfold State.fomLow
  repeat' first
    | intro _
    | (with_reducible first | assumption | exact Keeps.refl _ | apply State.puts_keeps | apply State.wr_keeps | apply State.bump_keeps | apply State.raise_keeps | apply Keeps.cond)
    | extract_lets | split

theorem State.levelStats_keeps {r : State} {s : State} {n : Nat} {levels : List LevelStat} (hk : Keeps r s) :
    Keeps r (State.levelStats s n levels) := by
  unfold State.levelStats
  extract_lets lv s1 q eyes best
  have h1 : Keeps r s1 := by
    refine Keeps.each hk (fun _ u hu => ?_)
    split
    · with_reducible exact State.wr_keeps (State.wrInt_keeps hu)
    · with_reducible exact State.wr_keeps (State.wr_keeps hu)
  clear_value best s1
  repeat' first
    | intro _
    | (with_reducible first | assumption | exact Keeps.refl _ | apply State.wrInt_keeps | apply State.wr_keeps | apply State.free_keeps | apply Keeps.each | apply Keeps.foldl | apply Keeps.cond | apply Keeps.cond_snd | apply OptKeeps.getD)
    | extract_lets | dsimp only | split

theorem State.trainToLocked_keeps {r : State} {s : State} {n : Nat} (hk : Keeps r s) :
    Keeps r (State.trainToLocked s n) := by
  unfold State.trainToLocked
  repeat' first
    | intro _
    | (with_reducible first | assumption | exact Keeps.refl _ | apply State.lrxSet_keeps | apply State.puts_keeps | apply Keeps.cond)
    | extract_lets | split

theorem execFomWindowEnd_keeps {r : State} {n : Lane} {mse : Nat} {levels : List LevelStat} {s : State} (hk : Keeps r s) :
    OutKeeps r (execFomWindowEnd n mse levels s) := by
  unfold execFomWindowEnd
  repeat' first
    | intro _
    | (with_reducible first | assumption | exact Keeps.refl _ | apply OutKeeps.next | apply State.fomOf_keeps | apply State.puts_keeps | apply State.levelStats_keeps | apply State.wr_keeps | apply State.thrTake_keeps | apply State.leqBlindWindow_keeps | apply State.leqGuard_keeps | apply State.fomLow_keeps | apply State.trainToLocked_keeps | apply Keeps.when | apply OutKeeps.cond | apply Keeps.cond | apply Keeps.cond_snd)
    | extract_lets | dsimp only | split

theorem execDfeBurst_keeps {r : State} {n : Lane} {s : State} (hk : Keeps r s) :
    OutKeeps r (execDfeBurst n s) := by
  unfold execDfeBurst
  repeat' first
    | intro _
    | (with_reducible first | assumption | exact Keeps.refl _ | apply OutKeeps.next | apply State.bump_keeps)
    | extract_lets

end Sys2Proof.Machine
end

