-- ==== Sys2Proof/Laws/KeepsIcrisOps.lean ====
section
/-!
SUPPORT. The operations of IcrisOps keep the queue and the invariant.
-/
set_option Elab.async false
set_option linter.all false
namespace Sys2Proof.Machine

theorem State.recordV1_keeps {r : State} {s : State} {n : Nat} (hk : Keeps r s) :
    Keeps r (State.recordV1 s n) := by
  unfold State.recordV1
  repeat' first
    | intro _
    | (with_reducible first | assumption | exact Keeps.refl _ | apply State.setEx_keeps | apply State.puts_keeps | apply State.wrInt_keeps | apply OptKeeps.getD)
    | extract_lets | dsimp only
    | (with_reducible first | apply Keeps.other)

theorem State.icrisIn_keeps {r0 : State} {s : State} {n : Nat} {r : IcrisRecord} {arr : Option Nat} {sus broken : Bool} {dep : Nat} (hk : Keeps r0 s) :
    Keeps r0 (State.icrisIn s n r arr sus broken dep) := by
  unfold State.icrisIn
  repeat' first
    | intro _
    | (with_reducible first | assumption | exact Keeps.refl _ | apply State.bump_keeps | apply State.exchClear_keeps | apply State.setEx_keeps | apply Keeps.when | apply Keeps.cond)
    | extract_lets | dsimp only | split
    | (with_reducible first | apply Keeps.other)

end Sys2Proof.Machine
end

