-- ==== Sys2Proof/Laws/KeepsPresets.lean ====
section
/-!
SUPPORT. The operations of Presets keep the queue and the invariant.
-/
set_option Elab.async false
set_option linter.all false
namespace Sys2Proof.Machine

theorem State.configSettle_keeps {r : State} {s : State} {b : PresetBlock} {n : Nat} {l : List (Field × Nat)} (hk : Keeps r s) :
    Keeps r (State.configSettle s b n l) := by
  unfold State.configSettle
  repeat' first
    | intro _
    | (with_reducible first | assumption | exact Keeps.refl _ | apply State.lrxApplyOf_keeps | apply State.leqApplyOf_keeps | apply State.ltxApplyOf_keeps | apply State.wr_keeps | apply State.patApply_keeps | apply State.hifApplyOf_keeps | apply Keeps.when | apply Keeps.cond | apply Keeps.cond_snd)
    | extract_lets | dsimp only | split

theorem State.presetWrite_keeps {r : State} {s : State} {b : PresetBlock} {n v : Nat} (hk : Keeps r s) :
    Keeps r (State.presetWrite s b n v) := by
  unfold State.presetWrite
  repeat' first
    | intro _
    | (with_reducible first | assumption | exact Keeps.refl _ | apply State.puts_keeps | apply State.configSettle_keeps | apply State.wr_keeps | apply Keeps.each | apply Keeps.cond)
    | extract_lets | dsimp only | split

theorem execPresetWrite_keeps {r : State} {b : PresetBlock} {n : HostLane} {v : BitVec 2} {s : State} (hk : Keeps r s) :
    OutKeeps r (execPresetWrite b n v s) := by
  unfold execPresetWrite
  repeat' first
    | intro _
    | (with_reducible first | assumption | exact Keeps.refl _ | apply OutKeeps.next | apply State.access_keeps | apply State.presetWrite_keeps | apply OutKeeps.cond | apply Keeps.cond)
    | extract_lets | dsimp only | split

theorem State.expertMark_keeps {r : State} {s : State} {f : Field} {n : Nat} (hk : Keeps r s) :
    Keeps r (State.expertMark s f n) := by
  unfold State.expertMark
  repeat' first
    | intro _
    | (with_reducible first | assumption | exact Keeps.refl _ | apply State.setMask_keeps)
    | extract_lets | dsimp only | split

end Sys2Proof.Machine
end

