-- ==== Sys2Proof/Laws/KeepsFraming.lean ====
section
/-!
SUPPORT. The operations of Framing keep the queue and the invariant.
-/
set_option Elab.async false
set_option linter.all false
namespace Sys2Proof.Machine

theorem State.negApply_keeps {r : State} {s : State} {n : Nat} (hk : Keeps r s) :
    Keeps r (State.negApply s n) := by
  unfold State.negApply
  repeat' first
    | intro _
    | (with_reducible first | assumption | exact Keeps.refl _ | apply State.exchClear_keeps | apply State.puts_keeps | apply Keeps.when | apply Keeps.cond)
    | extract_lets | dsimp only | split

theorem State.precodeApply_keeps {r : State} {s : State} {n : Nat} (hk : Keeps r s) :
    Keeps r (State.precodeApply s n) := by
  unfold State.precodeApply
  repeat' first
    | intro _
    | (with_reducible first | assumption | exact Keeps.refl _ | apply State.wrb_keeps)
    | extract_lets

theorem State.setNegResult_keeps {r : State} {s : State} {n w : Nat} (hk : Keeps r s) :
    Keeps r (State.setNegResult s n w) := by
  unfold State.setNegResult
  repeat' first
    | intro _
    | (with_reducible first | assumption | exact Keeps.refl _ | apply State.puts_keeps)
    | extract_lets

theorem State.negFail_keeps {r : State} {s : State} {n err : Nat} (hk : Keeps r s) :
    Keeps r (State.negFail s n err) := by
  unfold State.negFail
  repeat' first
    | intro _
    | (with_reducible first | assumption | exact Keeps.refl _ | apply State.puts_keeps | apply State.raise_keeps | apply State.svcSend_keeps)
    | extract_lets

theorem State.negStart_keeps {r : State} {s : State} {n state : Nat} (hk : Keeps r s) :
    Keeps r (State.negStart s n state) := by
  unfold State.negStart
  repeat' first
    | intro _
    | (with_reducible first | assumption | exact Keeps.refl _ | apply State.puts_keeps | apply State.svcSend_keeps)
    | extract_lets

theorem State.negBegin_keeps {r : State} {s : State} {n : Nat} (hk : Keeps r s) :
    Keeps r (State.negBegin s n) := by
  unfold State.negBegin
  repeat' first
    | intro _
    | (with_reducible first | assumption | exact Keeps.refl _ | apply State.wr_keeps | apply State.puts_keeps | apply State.negStart_keeps | apply Keeps.when | apply Keeps.cond)
    | extract_lets | dsimp only | split

theorem State.negRetry_keeps {r : State} {s : State} {n err : Nat} (hk : Keeps r s) :
    Keeps r (State.negRetry s n err).1 := by
  unfold State.negRetry
  repeat' first
    | intro _
    | (with_reducible first | assumption | exact Keeps.refl _ | apply State.wr_keeps | apply State.negStart_keeps | apply State.negFail_keeps | apply Keeps.cond | apply Keeps.cond)
    | extract_lets | dsimp only | split

theorem State.trainEnter_keeps {r : State} {s : State} {n : Nat} (hk : Keeps r s) :
    Keeps r (State.trainEnter s n) := by
  unfold State.trainEnter
  repeat' first
    | intro _
    | (with_reducible first | assumption | exact Keeps.refl _ | apply State.lrxSet_keeps | apply State.svcDrop_keeps | apply State.puts_keeps | apply State.leqFollow_keeps | apply State.negBegin_keeps | apply Keeps.when)
    | extract_lets | dsimp only

theorem State.renegNow_keeps {r : State} {s : State} {n : Nat} {reason : Option Nat} (hk : Keeps r s) :
    Keeps r (State.renegNow s n reason) := by
  unfold State.renegNow
  repeat' first
    | intro _
    | (with_reducible first | assumption | exact Keeps.refl _ | apply State.profAbort_keeps | apply State.puts_keeps | apply State.svcSend_keeps | apply State.lfrLatch_keeps | apply State.setGroupMode_keeps | apply State.lrxWaitSd_keeps | apply State.lrxSet_keeps | apply State.leqFollow_keeps | apply State.negBegin_keeps | apply Keeps.each | apply Keeps.when | apply Keeps.cond)
    | extract_lets | dsimp only | split

theorem State.modeRestart_keeps {r : State} {s : State} {n : Nat} (hk : Keeps r s) :
    Keeps r (State.modeRestart s n) := by
  unfold State.modeRestart
  repeat' first
    | intro _
    | (with_reducible first | assumption | exact Keeps.refl _ | apply State.lrxWaitSd_keeps | apply State.lrxStartAgc_keeps | apply Keeps.each | apply Keeps.cond)
    | extract_lets | dsimp only | split

theorem State.negDone_keeps {r : State} {s : State} {n w : Nat} (hk : Keeps r s) :
    Keeps r (State.negDone s n w) := by
  unfold State.negDone
  repeat' first
    | intro _
    | (with_reducible first | assumption | exact Keeps.refl _ | apply State.setNegResult_keeps | apply State.wr_keeps | apply State.raise_keeps | apply State.emit_keeps | apply State.renegNow_keeps | apply State.setGroupMode_keeps | apply State.modeRestart_keeps | apply State.trainToLocked_keeps | apply Keeps.each | apply Keeps.cond)
    | extract_lets | dsimp only | split

theorem State.negCheck_keeps {r : State} {s : State} {n : Nat} (hk : Keeps r s) :
    Keeps r (State.negCheck s n) := by
  unfold State.negCheck
  repeat' first
    | intro _
    | (with_reducible first | assumption | exact Keeps.refl _ | apply State.negRetry_keeps | apply State.negDone_keeps | apply Keeps.cond)
    | extract_lets | dsimp only | split

theorem State.negPage_keeps {r : State} {s : State} {n : Nat} (hk : Keeps r s) :
    Keeps r (State.negPage s n) := by
  unfold State.negPage
  repeat' first
    | intro _
    | (with_reducible first | assumption | exact Keeps.refl _ | apply State.negFail_keeps | apply State.puts_keeps | apply State.svcSend_keeps | apply State.negCheck_keeps)
    | extract_lets | dsimp only | split

theorem State.frameLock_keeps {r : State} {s : State} {n : Nat} (hk : Keeps r s) :
    Keeps r (State.frameLock s n) := by
  unfold State.frameLock
  repeat' first
    | intro _
    | (with_reducible first | assumption | exact Keeps.refl _ | apply State.puts_keeps | apply State.raise_keeps | apply State.setGroupMode_keeps | apply State.trainEnter_keeps | apply Keeps.when)
    | extract_lets | dsimp only

theorem State.uiStart_keeps {r : State} {s : State} {n : Nat} (hk : Keeps r s) :
    Keeps r (State.uiStart s n) := by
  unfold State.uiStart
  repeat' first
    | intro _
    | (with_reducible first | assumption | exact Keeps.refl _ | apply State.puts_keeps)
    | extract_lets | dsimp only
    | (with_reducible first | apply Keeps.other)

theorem State.shadowTake_keeps {r : State} {s : State} {n pos count m arrival : Nat} (hk : Keeps r s) :
    Keeps r (State.shadowTake s n pos count m arrival) := by
  unfold State.shadowTake
  repeat' first
    | intro _
    | (with_reducible first | assumption | exact Keeps.refl _ | apply State.puts_keeps | apply State.wr_keeps | apply State.uiStart_keeps | apply State.bump_keeps | apply State.raise_keeps | apply State.frameLock_keeps | apply Keeps.cond)
    | extract_lets | split

theorem State.frameLoss_keeps {r : State} {s : State} {n arrival : Nat} (hk : Keeps r s) :
    Keeps r (State.frameLoss s n arrival) := by
  unfold State.frameLoss
  repeat' first
    | intro _
    | (with_reducible first | assumption | exact Keeps.refl _ | apply State.bump_keeps | apply State.raise_keeps | apply State.reacquire_keeps | apply State.lrxAcquireAt_keeps | apply State.wr_keeps | apply State.shadowTake_keeps | apply Keeps.when | apply Keeps.cond)
    | extract_lets | dsimp only | split

theorem execMarkerCandidate_keeps {r : State} {n : Lane} {pos : BitVec 19} {bits : BitVec 256} {s : State} (hk : Keeps r s) :
    OutKeeps r (execMarkerCandidate n pos bits s) := by
  unfold execMarkerCandidate
  repeat' first
    | intro _
    | (with_reducible first | assumption | exact Keeps.refl _ | apply OutKeeps.next | apply State.wr_keeps | apply State.puts_keeps | apply OutKeeps.cond | apply Keeps.cond)
    | extract_lets | split

theorem execFrameMarkerCheck_keeps {r : State} {n : Lane} {shadow : Bool} {bits : BitVec 256} {ago : BitVec 20} {s : State} (hk : Keeps r s) :
    OutKeeps r (execFrameMarkerCheck n shadow bits ago s) := by
  unfold execFrameMarkerCheck
  repeat' first
    | intro _
    | (with_reducible first | assumption | exact Keeps.refl _ | apply OutKeeps.next | apply State.puts_keeps | apply State.wr_keeps | apply State.uiStart_keeps | apply State.frameLock_keeps | apply State.bump_keeps | apply State.frameLoss_keeps | apply OutKeeps.cond | apply Keeps.cond)
    | extract_lets | split

theorem State.contentIn_keeps {r : State} {s : State} {n : Nat} {c : List Nat} {arrival : Option Nat} (hk : Keeps r s) :
    Keeps r (State.contentIn s n c arrival) := by
  unfold State.contentIn
  repeat' first
    | intro _
    | (with_reducible first | assumption | exact Keeps.refl _ | apply State.wr_keeps | apply State.raise_keeps | apply State.bump_keeps | apply State.wrb_keeps | apply State.icrisIn_keeps | apply Keeps.when | apply Keeps.cond | apply OptKeeps.getD)
    | extract_lets | dsimp only | split

theorem execServiceFrameReceived_keeps {r : State} {n : Lane} {bits : BitVec 3840} {s : State} (hk : Keeps r s) :
    OutKeeps r (execServiceFrameReceived n bits s) := by
  unfold execServiceFrameReceived
  repeat' first
    | intro _
    | (with_reducible first | assumption | exact Keeps.refl _ | apply OutKeeps.next | apply State.wr_keeps | apply State.bump_keeps | apply State.raise_keeps | apply State.contentIn_keeps | apply OutKeeps.cond | apply Keeps.cond | apply Keeps.cond_snd)
    | extract_lets | dsimp only | split

theorem State.msgTake_keeps {r : State} {s : State} {n : Nat} {seq : Nat} {g : State → State} (hgg : ∀ u, Keeps r u → Keeps r (g u)) (hk : Keeps r s) :
    Keeps r (State.msgTake s n seq g) := by
  unfold State.msgTake
  repeat' first
    | intro _
    | (with_reducible first | apply hgg | assumption | exact Keeps.refl _ | apply State.wr_keeps | apply Keeps.cond)
    | extract_lets | split

theorem State.msgAcked_keeps {r : State} {s : State} {n ack : Nat} (hk : Keeps r s) :
    Keeps r (State.msgAcked s n ack) := by
  unfold State.msgAcked
  repeat' first
    | intro _
    | (with_reducible first | assumption | exact Keeps.refl _ | apply State.wr_keeps | apply State.svcSend_keeps | apply State.negCheck_keeps | apply State.asymFollow_keeps | apply State.puts_keeps | apply Keeps.cond)
    | extract_lets | dsimp only | split
    | (with_reducible first | apply Keeps.other)

theorem execMsgAckRx_keeps {r : State} {n : Lane} {ack : BitVec 8} {s : State} (hk : Keeps r s) :
    OutKeeps r (execMsgAckRx n ack s) := by
  unfold execMsgAckRx
  repeat' first
    | intro _
    | (with_reducible first | assumption | exact Keeps.refl _ | apply OutKeeps.next | apply State.msgAcked_keeps)
    | extract_lets

theorem State.rxAbility_keeps {r : State} {s : State} {n page : Nat} (hk : Keeps r s) :
    Keeps r (State.rxAbility s n page) := by
  unfold State.rxAbility
  repeat' first
    | intro _
    | (with_reducible first | assumption | exact Keeps.refl _ | apply State.wr_keeps | apply State.negPage_keeps | apply State.negRetry_keeps | apply Keeps.each | apply Keeps.cond | apply Keeps.cond_snd)
    | extract_lets | dsimp only | split

theorem execMsgAbilityRx_keeps {r : State} {n : Lane} {seq : BitVec 8} {page : BitVec 128} {s : State} (hk : Keeps r s) :
    OutKeeps r (execMsgAbilityRx n seq page s) := by
  unfold execMsgAbilityRx
  repeat' first
    | intro _
    | (with_reducible first | assumption | exact Keeps.refl _ | apply OutKeeps.next | apply State.msgTake_keeps | apply State.rxAbility_keeps)
    | extract_lets | dsimp only

theorem State.rxConfirm_keeps {r : State} {s : State} {n w : Nat} (hk : Keeps r s) :
    Keeps r (State.rxConfirm s n w) := by
  unfold State.rxConfirm
  repeat' first
    | intro _
    | (with_reducible first | assumption | exact Keeps.refl _ | apply State.puts_keeps | apply State.negCheck_keeps | apply Keeps.cond)
    | extract_lets | split

theorem execMsgConfirmRx_keeps {r : State} {n : Lane} {seq : BitVec 8} {result : BitVec 32} {s : State} (hk : Keeps r s) :
    OutKeeps r (execMsgConfirmRx n seq result s) := by
  unfold execMsgConfirmRx
  repeat' first
    | intro _
    | (with_reducible first | assumption | exact Keeps.refl _ | apply OutKeeps.next | apply State.msgTake_keeps | apply State.rxConfirm_keeps)
    | extract_lets | dsimp only

theorem State.rxReneg_keeps {r : State} {s : State} {n : Nat} (hk : Keeps r s) :
    Keeps r (State.rxReneg s n) := by
  unfold State.rxReneg
  repeat' first
    | intro _
    | (with_reducible first | assumption | exact Keeps.refl _ | apply State.bump_keeps | apply State.raise_keeps | apply State.renegNow_keeps | apply Keeps.cond)
    | extract_lets | split

theorem execMsgRenegRx_keeps {r : State} {n : Lane} {seq : BitVec 8} {_reason : BitVec 8} {s : State} (hk : Keeps r s) :
    OutKeeps r (execMsgRenegRx n seq _reason s) := by
  unfold execMsgRenegRx
  repeat' first
    | intro _
    | (with_reducible first | assumption | exact Keeps.refl _ | apply OutKeeps.next | apply State.msgTake_keeps | apply State.rxReneg_keeps)
    | extract_lets | dsimp only

theorem State.profOpen_keeps {r : State} {s : State} {n prof : Nat} {forced : Bool} (hk : Keeps r s) :
    Keeps r (State.profOpen s n prof forced) := by
  unfold State.profOpen
  repeat' first
    | intro _
    | (with_reducible first | assumption | exact Keeps.refl _ | apply State.puts_keeps | apply State.svcSend_keeps)
    | extract_lets

theorem State.profChangeNow_keeps {r : State} {s : State} {n : Nat} (hk : Keeps r s) :
    Keeps r (State.profChangeNow s n) := by
  unfold State.profChangeNow
  repeat' first
    | intro _
    | (with_reducible first | assumption | exact Keeps.refl _ | apply State.wr_keeps | apply State.raise_keeps | apply State.profEnd_keeps | apply State.puts_keeps | apply State.profOpen_keeps | apply Keeps.cond)
    | extract_lets | dsimp only | split

theorem execProfileChange_keeps {r : State} {n : Lane} {s : State} (hk : Keeps r s) :
    OutKeeps r (execProfileChange n s) := by
  unfold execProfileChange
  repeat' first
    | intro _
    | (with_reducible first | assumption | exact Keeps.refl _ | apply OutKeeps.next | apply State.access_keeps | apply State.laneService_keeps | apply State.profChangeNow_keeps)
    | extract_lets | dsimp only

theorem State.profForce_keeps {r : State} {s : State} {n prof : Nat} (hk : Keeps r s) :
    OptKeeps r (State.profForce s n prof) := by
  unfold State.profForce
  repeat' first
    | intro _
    | (with_reducible first | assumption | exact Keeps.refl _ | apply State.profAbort_keeps | apply State.profOpen_keeps | apply State.puts_keeps)
    | exact OptKeeps.none
    | (with_reducible first | apply OptKeeps.some)
    | extract_lets | dsimp only | split

theorem execProfileTimeout_keeps {r : State} {n : Lane} {s : State} (hk : Keeps r s) :
    OutKeeps r (execProfileTimeout n s) := by
  unfold execProfileTimeout
  repeat' first
    | intro _
    | (with_reducible first | assumption | exact Keeps.refl _ | apply OutKeeps.next | apply State.profEnd_keeps | apply OutKeeps.cond | apply Keeps.cond)
    | extract_lets | split

theorem State.profSwitch_keeps {r : State} {s : State} {n : Nat} (hk : Keeps r s) :
    Keeps r (State.profSwitch s n) := by
  unfold State.profSwitch
  repeat' first
    | intro _
    | (with_reducible first | assumption | exact Keeps.refl _ | apply State.puts_keeps | apply State.wr_keeps | apply State.asymFollow_keeps | apply State.dvfsKick_keeps | apply Keeps.when | apply Keeps.cond)
    | extract_lets | dsimp only | split

theorem execProfileSwitch_keeps {r : State} {n : Lane} {s : State} (hk : Keeps r s) :
    OutKeeps r (execProfileSwitch n s) := by
  unfold execProfileSwitch
  repeat' first
    | intro _
    | (with_reducible first | assumption | exact Keeps.refl _ | apply OutKeeps.next | apply State.profSwitch_keeps)
    | extract_lets

theorem State.profReleased_keeps {r : State} {s : State} {n : Nat} (hk : Keeps r s) :
    Keeps r (State.profReleased s n) := by
  unfold State.profReleased
  repeat' first
    | intro _
    | (with_reducible first | assumption | exact Keeps.refl _ | apply State.wr_keeps | apply State.profEnd_keeps | apply Keeps.cond)
    | extract_lets | split

theorem State.rxProfChange_keeps {r : State} {s : State} {n prof txn : Nat} {forced : Bool} (hk : Keeps r s) :
    Keeps r (State.rxProfChange s n prof txn forced) := by
  unfold State.rxProfChange
  repeat' first
    | intro _
    | (with_reducible first | assumption | exact Keeps.refl _ | apply State.svcSend_keeps | apply State.puts_keeps | apply State.wr_keeps | apply State.asymFollow_keeps | apply State.profEnd_keeps | apply Keeps.cond)
    | extract_lets | dsimp only | split

theorem execMsgProfileChangeRx_keeps {r : State} {n : Lane} {seq : BitVec 8} {prof : Fin 3} {forced : Bool} {txn : BitVec 8} {s : State} (hk : Keeps r s) :
    OutKeeps r (execMsgProfileChangeRx n seq prof forced txn s) := by
  unfold execMsgProfileChangeRx
  repeat' first
    | intro _
    | (with_reducible first | assumption | exact Keeps.refl _ | apply OutKeeps.next | apply State.msgTake_keeps | apply State.rxProfChange_keeps)
    | extract_lets | dsimp only

theorem State.rxProfReply_keeps {r : State} {s : State} {n : Nat} {refuse : Bool} {status txn : Nat} (hk : Keeps r s) :
    Keeps r (State.rxProfReply s n refuse status txn) := by
  unfold State.rxProfReply
  repeat' first
    | intro _
    | (with_reducible first | assumption | exact Keeps.refl _ | apply State.profEnd_keeps | apply State.puts_keeps | apply Keeps.cond)
    | extract_lets | split

theorem execMsgProfileReplyRx_keeps {r : State} {n : Lane} {seq : BitVec 8} {refuse : Bool} {status : Fin 9} {txn : BitVec 8} {s : State} (hk : Keeps r s) :
    OutKeeps r (execMsgProfileReplyRx n seq refuse status txn s) := by
  unfold execMsgProfileReplyRx
  repeat' first
    | intro _
    | (with_reducible first | assumption | exact Keeps.refl _ | apply OutKeeps.next | apply State.msgTake_keeps | apply State.rxProfReply_keeps)
    | extract_lets | dsimp only

theorem State.rxTapReq_keeps {r : State} {s : State} {n : Nat} {taps : List Int} (hk : Keeps r s) :
    Keeps r (State.rxTapReq s n taps) := by
  unfold State.rxTapReq
  repeat' first
    | intro _
    | (with_reducible first | assumption | exact Keeps.refl _ | apply State.wrInt_keeps | apply State.expertMark_keeps | apply State.ltxCommitNow_keeps | apply State.svcSend_keeps | apply Keeps.each | apply Keeps.cond | apply Keeps.cond_snd)
    | extract_lets | dsimp only | split

theorem execMsgTxTapReqRx_keeps {r : State} {n : Lane} {seq : BitVec 8} {taps : List Int} {s : State} (hk : Keeps r s) :
    OutKeeps r (execMsgTxTapReqRx n seq taps s) := by
  unfold execMsgTxTapReqRx
  repeat' first
    | intro _
    | (with_reducible first | assumption | exact Keeps.refl _ | apply OutKeeps.next | apply State.msgTake_keeps | apply State.rxTapReq_keeps)
    | extract_lets | dsimp only

theorem State.rxTapReply_keeps {r : State} {s : State} {n : Nat} {applied : Bool} (hk : Keeps r s) :
    Keeps r (State.rxTapReply s n applied) := by
  unfold State.rxTapReply
  repeat' first
    | intro _
    | (with_reducible first | assumption | exact Keeps.refl _ | apply State.wr_keeps | apply State.cdbEnd_keeps | apply Keeps.cond)
    | extract_lets | split

theorem execMsgTxTapReplyRx_keeps {r : State} {n : Lane} {seq : BitVec 8} {applied : Bool} {s : State} (hk : Keeps r s) :
    OutKeeps r (execMsgTxTapReplyRx n seq applied s) := by
  unfold execMsgTxTapReplyRx
  repeat' first
    | intro _
    | (with_reducible first | assumption | exact Keeps.refl _ | apply OutKeeps.next | apply State.msgTake_keeps | apply State.rxTapReply_keeps)
    | extract_lets | dsimp only

theorem execMsgUnknownRx_keeps {r : State} {n : Lane} {seq : BitVec 8} {s : State} (hk : Keeps r s) :
    OutKeeps r (execMsgUnknownRx n seq s) := by
  unfold execMsgUnknownRx
  repeat' first
    | intro _
    | (with_reducible first | assumption | exact Keeps.refl _ | apply OutKeeps.next | apply State.msgTake_keeps | apply State.bump_keeps)
    | extract_lets | dsimp only

theorem State.rxMessage_keeps {r : State} {s : State} {n type body : Nat} (hk : Keeps r s) :
    Keeps r (State.rxMessage s n type body) := by
  unfold State.rxMessage
  repeat' first
    | intro _
    | (with_reducible first | assumption | exact Keeps.refl _ | apply State.rxAbility_keeps | apply State.rxConfirm_keeps | apply State.rxReneg_keeps | apply State.rxProfChange_keeps | apply State.rxProfReply_keeps | apply State.rxTapReq_keeps | apply State.rxTapReply_keeps | apply State.bump_keeps)
    | extract_lets | dsimp only | split

theorem execSideChannelFrameRx_keeps {r : State} {n : Lane} {frame : BitVec 256} {s : State} (hk : Keeps r s) :
    OutKeeps r (execSideChannelFrameRx n frame s) := by
  unfold execSideChannelFrameRx
  repeat' first
    | intro _
    | (with_reducible first | assumption | exact Keeps.refl _ | apply OutKeeps.next | apply State.bump_keeps | apply State.wr_keeps | apply State.msgAcked_keeps | apply State.icrisIn_keeps | apply State.msgTake_keeps | apply State.rxMessage_keeps | apply OutKeeps.cond | apply Keeps.cond | apply OptKeeps.getD)
    | extract_lets | dsimp only | split

theorem execNegTimeout_keeps {r : State} {n : Lane} {s : State} (hk : Keeps r s) :
    OutKeeps r (execNegTimeout n s) := by
  unfold execNegTimeout
  repeat' first
    | intro _
    | (with_reducible first | assumption | exact Keeps.refl _ | apply OutKeeps.next | apply State.negRetry_keeps | apply OutKeeps.cond | apply Keeps.cond)
    | extract_lets | dsimp only | split

theorem execHelloTimeout_keeps {r : State} {n : Lane} {s : State} (hk : Keeps r s) :
    OutKeeps r (execHelloTimeout n s) := by
  unfold execHelloTimeout
  repeat' first
    | intro _
    | (with_reducible first | assumption | exact Keeps.refl _ | apply OutKeeps.next | apply State.wr_keeps | apply State.svcDrop_keeps | apply State.negDone_keeps | apply OutKeeps.cond | apply Keeps.cond)
    | extract_lets | split

theorem execReneg_keeps {r : State} {n : Lane} {s : State} (hk : Keeps r s) :
    OutKeeps r (execReneg n s) := by
  unfold execReneg
  repeat' first
    | intro _
    | (with_reducible first | assumption | exact Keeps.refl _ | apply OutKeeps.next | apply State.access_keeps | apply State.laneService_keeps | apply State.renegNow_keeps)
    | extract_lets | dsimp only

theorem execLfrCntClr_keeps {r : State} {n : Lane} {s : State} (hk : Keeps r s) :
    OutKeeps r (execLfrCntClr n s) := by
  unfold execLfrCntClr
  repeat' first
    | intro _
    | (with_reducible first | assumption | exact Keeps.refl _ | apply OutKeeps.next | apply State.access_keeps | apply State.clear_keeps)
    | extract_lets | dsimp only

theorem execCompatFormatSwitch_keeps {r : State} {n : Lane} {s : State} (hk : Keeps r s) :
    OutKeeps r (execCompatFormatSwitch n s) := by
  unfold execCompatFormatSwitch
  repeat' first
    | intro _
    | (with_reducible first | assumption | exact Keeps.refl _ | apply OutKeeps.next | apply State.puts_keeps | apply State.precodeApply_keeps | apply Keeps.when | apply OutKeeps.cond | apply Keeps.cond)
    | extract_lets | dsimp only | split

theorem State.outStart_keeps {r : State} {s : State} {n : Nat} (hk : Keeps r s) :
    Keeps r (State.outStart s n) := by
  unfold State.outStart
  repeat' first
    | intro _
    | (with_reducible first | assumption | exact Keeps.refl _ | apply State.wr_keeps)
    | extract_lets

theorem State.fillMark_keeps {r : State} {s : State} {n : Nat} {fill : Bool} (hk : Keeps r s) :
    Keeps r (State.fillMark s n fill) := by
  unfold State.fillMark
  repeat' first
    | intro _
    | (with_reducible first | assumption | exact Keeps.refl _ | apply State.wrb_keeps | apply State.wr_keeps | apply Keeps.when)
    | extract_lets | dsimp only

theorem State.outRegion_keeps {r : State} {s : State} {n : Nat} (hk : Keeps r s) :
    Keeps r (State.outRegion s n) := by
  unfold State.outRegion
  repeat' first
    | intro _
    | (with_reducible first | assumption | exact Keeps.refl _ | apply State.wr_keeps)
    | extract_lets

theorem State.sideRun_keeps {r : State} {s : State} {n : Nat} (hk : Keeps r s) :
    Keeps r (State.sideRun s n) := by
  unfold State.sideRun
  repeat' first
    | intro _
    | (with_reducible first | assumption | exact Keeps.refl _ | apply State.wr_keeps | apply State.recordV1_keeps | apply State.puts_keeps | apply Keeps.when | apply Keeps.cond)
    | extract_lets | dsimp only | split

theorem execCodewordBoundaryApply_keeps {r : State} {n : Lane} {tx : Bool} {s : State} (hk : Keeps r s) :
    OutKeeps r (execCodewordBoundaryApply n tx s) := by
  unfold execCodewordBoundaryApply
  repeat' first
    | intro _
    | (with_reducible first | assumption | exact Keeps.refl _ | apply OutKeeps.next | apply State.txBoundary_keeps | apply State.rxBoundary_keeps | apply OutKeeps.cond | apply Keeps.cond)
    | extract_lets | split

theorem State.profNegotiated_keeps {r : State} {s : State} {n : Nat} (hk : Keeps r s) :
    Keeps r (State.profNegotiated s n) := by
  unfold State.profNegotiated
  repeat' first
    | intro _
    | (with_reducible first | assumption | exact Keeps.refl _ | apply State.puts_keeps | apply State.asymFollow_keeps | apply State.dvfsKick_keeps | apply Keeps.cond)
    | extract_lets | split

theorem execFrameBoundaryApply_keeps {r : State} {n : Lane} {s : State} (hk : Keeps r s) :
    OutKeeps r (execFrameBoundaryApply n s) := by
  unfold execFrameBoundaryApply
  repeat' first
    | intro _
    | (with_reducible first | assumption | exact Keeps.refl _ | apply OutKeeps.next | apply State.puts_keeps | apply State.profNegotiated_keeps | apply State.profSwitch_keeps | apply State.negApply_keeps | apply State.driftApply_keeps | apply State.rxBoundary_keeps | apply OutKeeps.cond | apply Keeps.cond)
    | extract_lets | split

theorem State.chkRun_keeps {r : State} {s : State} {h : Nat} (hk : Keeps r s) :
    Keeps r (State.chkRun s h) := by
  unfold State.chkRun
  repeat' first
    | intro _
    | (with_reducible first | assumption | exact Keeps.refl _ | apply State.wrFree_keeps | apply State.free_keeps | apply State.bump_keeps | apply Keeps.cond | apply Keeps.cond_snd)
    | extract_lets | dsimp only | split

theorem State.matchRun_keeps {r : State} {s : State} {n a b : Nat} (hk : Keeps r s) :
    Keeps r (State.matchRun s n a b) := by
  unfold State.matchRun
  repeat' first
    | intro _
    | (with_reducible first | assumption | exact Keeps.refl _ | apply State.bump_keeps | apply Keeps.when)
    | extract_lets | dsimp only | split

theorem State.txFrameStart_keeps {r : State} {s : State} {n : Nat} (hk : Keeps r s) :
    Keeps r (State.txFrameStart s n) := by
  unfold State.txFrameStart
  repeat' first
    | intro _
    | (with_reducible first | assumption | exact Keeps.refl _ | apply State.wr_keeps | apply State.driftApply_keeps | apply State.precodeApply_keeps | apply State.txBoundary_keeps | apply State.patApply_keeps | apply State.puts_keeps | apply Keeps.when)
    | extract_lets | dsimp only | split

theorem execTxFrameBoundary_keeps {r : State} {n : Lane} {a b : BitVec 983072} {s : State} (hk : Keeps r s) :
    OutKeeps r (execTxFrameBoundary n a b s) := by
  unfold execTxFrameBoundary
  repeat' first
    | intro _
    | (with_reducible first | assumption | exact Keeps.refl _ | apply OutKeeps.next | apply State.chkRun_keeps | apply State.matchRun_keeps | apply State.txFrameStart_keeps | apply State.wrb_keeps | apply State.wr_keeps | apply State.setLd_keeps | apply State.outStart_keeps | apply Keeps.each | apply OutKeeps.cond | apply Keeps.cond)
    | extract_lets | dsimp only | split
    | (with_reducible first | apply Keeps.other)

theorem State.straitEffect_keeps {r : State} {s : State} {id lanes : Nat} (hk : Keeps r s) :
    Keeps r (State.straitEffect s id lanes) := by
  unfold State.straitEffect
  repeat' first
    | intro _
    | (with_reducible first | assumption | exact Keeps.refl _ | apply State.hifFault_keeps | apply State.lrxFault_keeps | apply State.ltxFault_keeps | apply State.bump_keeps | apply State.raise_keeps | apply Keeps.each | apply Keeps.when | apply Keeps.cond)
    | extract_lets | dsimp only | split

theorem State.straitLoss_keeps {r : State} {s : State} {id lanes k : Nat} (hk : Keeps r s) :
    Keeps r (State.straitLoss s id lanes k) := by
  unfold State.straitLoss
  repeat' first
    | intro _
    | (with_reducible first | assumption | exact Keeps.refl _ | apply State.straitDrop_keeps | apply State.straitEffect_keeps)
    | extract_lets

theorem execStraitOverflow_keeps {r : State} {id : BitVec 7} {lanes : BitVec 4} {s : State} (hk : Keeps r s) :
    OutKeeps r (execStraitOverflow id lanes s) := by
  unfold execStraitOverflow
  repeat' first
    | intro _
    | (with_reducible first | assumption | exact Keeps.refl _ | apply OutKeeps.next | apply State.straitLoss_keeps | apply OutKeeps.cond | apply Keeps.cond)
    | extract_lets | split

theorem execStraitErrClr_keeps {r : State} {s : State} (hk : Keeps r s) :
    OutKeeps r (execStraitErrClr s) := by
  unfold execStraitErrClr
  repeat' first
    | intro _
    | (with_reducible first | assumption | exact Keeps.refl _ | apply OutKeeps.next | apply State.access_keeps | apply State.puts_keeps)
    | extract_lets | dsimp only

end Sys2Proof.Machine
end

