-- ==== Sys2Proof/Laws/KeepsArchipelago.lean ====
section
/-!
SUPPORT. The operations of Archipelago keep the queue and the invariant.
-/
set_option Elab.async false
set_option linter.all false
namespace Sys2Proof.Machine

theorem State.latestStart_keeps {r : State} {s : State} {c : Nat} {cw : Codeword} (hk : Keeps r s) :
    Keeps r (State.latestStart s c cw).2 := by
  unfold State.latestStart
  repeat' first
    | intro _
    | (with_reducible first | assumption | exact Keeps.refl _ | apply State.free_keeps | apply Keeps.cond_snd | apply Keeps.cond)
    | extract_lets | dsimp only | split

theorem State.cwEnd_keeps {r : State} {s : State} {c : Nat} {cw : Codeword} {o : CwOutcome} (hk : Keeps r s) :
    Keeps r (State.cwEnd s c cw o) := by
  unfold State.cwEnd
  repeat' first
    | intro _
    | (with_reducible first | assumption | exact Keeps.refl _ | apply State.bump_keeps | apply State.raise_keeps | apply State.faultEvent_keeps | apply State.trimLoad_keeps)
    | extract_lets | dsimp only | split

theorem State.askPort_keeps {r : State} {s : State} {e : Emission} (hk : Keeps r s) :
    Keeps r (State.askPort s e) := by
  unfold State.askPort
  repeat' first
    | intro _
    | (with_reducible first | assumption | exact Keeps.refl _)
    | extract_lets
    | (with_reducible first | apply Keeps.other)

theorem State.serviceIn_keeps {r : State} {s : State} {cw : Codeword} {bits : Nat} (hk : Keeps r s) :
    Keeps r (State.serviceIn s cw bits) := by
  unfold State.serviceIn
  repeat' first
    | intro _
    | (with_reducible first | assumption | exact Keeps.refl _ | apply State.service_keeps | apply State.setLd_keeps)
    | extract_lets | dsimp only
    | (with_reducible first | apply Keeps.other)

theorem State.sendHard_keeps {r : State} {s : State} {c eng : Nat} {bypass : Bool} {cw : Codeword} {hard : List Nat} (hk : Keeps r s) :
    Keeps r (State.sendHard s c eng bypass cw hard) := by
  unfold State.sendHard
  repeat' first
    | intro _
    | (with_reducible first | assumption | exact Keeps.refl _ | apply State.askPort_keeps | apply State.serviceIn_keeps | apply OptKeeps.getD)
    | extract_lets

theorem State.expireQ_keeps {r : State} {s : State} {cw : Codeword} (hk : Keeps r s) :
    Keeps r (State.expireQ s cw) := by
  unfold State.expireQ
  repeat' first
    | intro _
    | (with_reducible first | assumption | exact Keeps.refl _ | apply State.cwEnd_keeps | apply State.sendHard_keeps)
    | extract_lets

theorem State.enqueue_keeps {r : State} {s : State} {v index : Nat} {samples : List Int} (hk : Keeps r s) :
    Keeps r (State.enqueue s v index samples) := by
  unfold State.enqueue
  repeat' first
    | intro _
    | (with_reducible first | assumption | exact Keeps.refl _ | apply State.askPort_keeps | apply State.sendHard_keeps | apply State.wr_keeps | apply State.raise_keeps | apply State.expireQ_keeps | apply State.trimLoad_keeps | apply Keeps.when | apply Keeps.cond | apply Keeps.cond_snd)
    | extract_lets | dsimp only | split
    | (with_reducible first | apply Keeps.other)

theorem State.straitStopped_keeps {r : State} {s : State} {v index : Nat} {samples : List Int} (hk : Keeps r s) :
    Keeps r (State.straitStopped s v index samples) := by
  unfold State.straitStopped
  repeat' first
    | intro _
    | (with_reducible first | assumption | exact Keeps.refl _ | apply State.straitPut_keeps | apply State.straitLoss_keeps | apply Keeps.when)
    | extract_lets | dsimp only

theorem execCodewordEnqueue_keeps {r : State} {n : Lane} {index : BitVec 8} {samples : List Int} {s : State} (hk : Keeps r s) :
    OutKeeps r (execCodewordEnqueue n index samples s) := by
  unfold execCodewordEnqueue
  repeat' first
    | intro _
    | (with_reducible first | assumption | exact Keeps.refl _ | apply OutKeeps.next | apply State.wr_keeps | apply State.bump_keeps | apply State.straitStopped_keeps | apply State.enqueue_keeps | apply Keeps.when | apply OutKeeps.cond | apply Keeps.cond)
    | extract_lets | dsimp only | split

theorem execCodewordExpiry_keeps {r : State} {n : Lane} {phase : Int} {s : State} (hk : Keeps r s) :
    OutKeeps r (execCodewordExpiry n phase s) := by
  unfold execCodewordExpiry
  repeat' first
    | intro _
    | (with_reducible first | assumption | exact Keeps.refl _ | apply OutKeeps.next | apply State.latestStart_keeps | apply State.expireQ_keeps | apply OutKeeps.cond | apply Keeps.cond | apply Keeps.cond_snd)
    | extract_lets | dsimp only | split
    | (with_reducible first | apply Keeps.other)

theorem State.setEng_keeps {r : State} {s : State} {e st : Nat} (hk : Keeps r s) :
    Keeps r (State.setEng s e st) := by
  unfold State.setEng
  repeat' first
    | intro _
    | (with_reducible first | assumption | exact Keeps.refl _ | apply State.wr_keeps)
    | extract_lets

theorem State.homeOffer_keeps {r : State} {s : State} {e atc : Nat} (hk : Keeps r s) :
    Keeps r (State.homeOffer s e atc).2 := by
  unfold State.homeOffer
  repeat' first
    | intro _
    | (with_reducible first | assumption | exact Keeps.refl _ | apply State.latestStart_keeps | apply Keeps.cond_snd | apply Keeps.cond)
    | extract_lets | dsimp only | split

theorem State.bgServe_keeps {r : State} {s : State} {e : Nat} {b : BgTask} (hk : Keeps r s) :
    Keeps r (State.bgServe s e b) := by
  unfold State.bgServe
  repeat' first
    | intro _
    | (with_reducible first | assumption | exact Keeps.refl _ | apply State.setEng_keeps | apply State.wr_keeps | apply Keeps.cond)
    | extract_lets | dsimp only | split
    | (with_reducible first | apply Keeps.other)

theorem execEngineRequest_keeps {r : State} {e : Fin 128} {phase : Int} {s : State} (hk : Keeps r s) :
    OutKeeps r (execEngineRequest e phase s) := by
  unfold execEngineRequest
  dsimp only
  repeat' first
    | intro _
    | (with_reducible first | assumption | exact Keeps.refl _ | apply OutKeeps.next | apply State.bgServe_keeps | apply State.homeOffer_keeps | apply Keeps.foldl | apply OutKeeps.cond | apply Keeps.cond | apply Keeps.cond_snd)
    | extract_lets | dsimp only | split
    | (with_reducible first | apply Keeps.other)

theorem State.raceLost_keeps {r : State} {s : State} {e : Nat} (hk : Keeps r s) :
    Keeps r (State.raceLost s e) := by
  unfold State.raceLost
  repeat' first
    | intro _
    | (with_reducible first | assumption | exact Keeps.refl _ | apply State.bump_keeps)
    | extract_lets

theorem State.grant_keeps {r : State} {s : State} {v e : Nat} {cw : Codeword} {path : List (Nat × Nat)} {atc : Nat} (hk : Keeps r s) :
    Keeps r (State.grant s v e cw path atc) := by
  unfold State.grant
  repeat' first
    | intro _
    | (with_reducible first | assumption | exact Keeps.refl _ | apply State.setEng_keeps | apply State.bump_keeps | apply Keeps.when | apply Keeps.cond)
    | extract_lets | dsimp only | split
    | (with_reducible first | apply Keeps.other)

theorem execQueueGrant_keeps {r : State} {n : Lane} {phase : Int} {s : State} (hk : Keeps r s) :
    OutKeeps r (execQueueGrant n phase s) := by
  unfold execQueueGrant
  repeat' first
    | intro _
    | (with_reducible first | assumption | exact Keeps.refl _ | apply OutKeeps.next | apply State.raceLost_keeps | apply State.latestStart_keeps | apply State.expireQ_keeps | apply State.grant_keeps | apply Keeps.each | apply Keeps.foldl | apply OutKeeps.cond | apply Keeps.cond | apply Keeps.cond_snd)
    | extract_lets | dsimp only | split
    | (with_reducible first | apply Keeps.other)

theorem State.setWork_keeps {r : State} {s : State} {e : Nat} {g : EngWork → EngWork} (hk : Keeps r s) :
    Keeps r (State.setWork s e g) := by
  unfold State.setWork
  repeat' first
    | intro _
    | (with_reducible first | assumption | exact Keeps.refl _ | apply Keeps.cond)
    | extract_lets | dsimp only | split
    | (with_reducible first | apply Keeps.other)

theorem execStealTransferDone_keeps {r : State} {e : Fin 128} {s : State} (hk : Keeps r s) :
    OutKeeps r (execStealTransferDone e s) := by
  unfold execStealTransferDone
  repeat' first
    | intro _
    | (with_reducible first | assumption | exact Keeps.refl _ | apply OutKeeps.next | apply State.setWork_keeps | apply State.setEng_keeps | apply OutKeeps.cond | apply Keeps.cond)
    | extract_lets | dsimp only | split
    | (with_reducible first | apply Keeps.other)

theorem State.decodeEnd_keeps {r : State} {s : State} {e : Nat} {w : EngWork} {o : CwOutcome} {hard : List Nat} (hk : Keeps r s) :
    Keeps r (State.decodeEnd s e w o hard) := by
  unfold State.decodeEnd
  repeat' first
    | intro _
    | (with_reducible first | assumption | exact Keeps.refl _ | apply State.setWork_keeps | apply State.cwEnd_keeps | apply State.sendHard_keeps)
    | extract_lets | dsimp only
    | (with_reducible first | apply Keeps.other)

theorem execEngineLoadDone_keeps {r : State} {e : Fin 128} {s : State} (hk : Keeps r s) :
    OutKeeps r (execEngineLoadDone e s) := by
  unfold execEngineLoadDone
  repeat' first
    | intro _
    | (with_reducible first | assumption | exact Keeps.refl _ | apply OutKeeps.next | apply State.decodeEnd_keeps | apply State.setWork_keeps | apply OutKeeps.cond | apply Keeps.cond)
    | extract_lets | dsimp only | split
    | (with_reducible first | apply Keeps.other)

theorem execEngineIterationDone_keeps {r : State} {e : Fin 128} {s : State} (hk : Keeps r s) :
    OutKeeps r (execEngineIterationDone e s) := by
  unfold execEngineIterationDone
  repeat' first
    | intro _
    | (with_reducible first | assumption | exact Keeps.refl _ | apply OutKeeps.next | apply State.setWork_keeps | apply State.decodeEnd_keeps | apply OutKeeps.cond | apply Keeps.cond | apply Keeps.cond_snd)
    | extract_lets | dsimp only | split
    | (with_reducible first | apply Keeps.other)

theorem execEngineStopPoint_keeps {r : State} {e : Fin 128} {phase : Int} {s : State} (hk : Keeps r s) :
    OutKeeps r (execEngineStopPoint e phase s) := by
  unfold execEngineStopPoint
  repeat' first
    | intro _
    | (with_reducible first | assumption | exact Keeps.refl _ | apply OutKeeps.next | apply State.decodeEnd_keeps | apply OutKeeps.cond | apply Keeps.cond)
    | extract_lets | dsimp only | split

theorem execEmitPortGrant_keeps {r : State} {n : Lane} {s : State} (hk : Keeps r s) :
    OutKeeps r (execEmitPortGrant n s) := by
  unfold execEmitPortGrant
  repeat' first
    | intro _
    | (with_reducible first | assumption | exact Keeps.refl _ | apply OutKeeps.next | apply State.setWork_keeps | apply State.emit_keeps | apply State.setEng_keeps | apply OutKeeps.cond | apply Keeps.cond)
    | extract_lets | dsimp only | split
    | (with_reducible first | apply Keeps.other)

theorem execEmitDone_keeps {r : State} {n : Lane} {s : State} (hk : Keeps r s) :
    OutKeeps r (execEmitDone n s) := by
  unfold execEmitDone
  repeat' first
    | intro _
    | (with_reducible first | assumption | exact Keeps.refl _ | apply OutKeeps.next | apply State.straitPut_keeps | apply State.setEng_keeps | apply OutKeeps.cond | apply Keeps.cond)
    | extract_lets | dsimp only | split
    | (with_reducible first | apply Keeps.other)

theorem State.homeLow_keeps {r : State} {s : State} {lanes : List Nat} (hk : Keeps r s) :
    Keeps r (State.homeLow s lanes) := by
  unfold State.homeLow
  repeat' first
    | intro _
    | (with_reducible first | assumption | exact Keeps.refl _ | apply State.wrb_keeps | apply State.raise_keeps | apply Keeps.each | apply Keeps.when)
    | extract_lets | dsimp only

theorem State.engFail_keeps {r : State} {s : State} {e : Nat} (hk : Keeps r s) :
    Keeps r (State.engFail s e) := by
  unfold State.engFail
  repeat' first
    | intro _
    | (with_reducible first | assumption | exact Keeps.refl _ | apply State.wr_keeps | apply State.raise_keeps | apply State.homeLow_keeps | apply Keeps.cond)
    | extract_lets | dsimp only | split
    | (with_reducible first | apply Keeps.other)

theorem execEngineDeadlineFail_keeps {r : State} {e : Fin 128} {phase : Int} {s : State} (hk : Keeps r s) :
    OutKeeps r (execEngineDeadlineFail e phase s) := by
  unfold execEngineDeadlineFail
  repeat' first
    | intro _
    | (with_reducible first | assumption | exact Keeps.refl _ | apply OutKeeps.next | apply State.engFail_keeps | apply OutKeeps.cond | apply Keeps.cond)
    | extract_lets | dsimp only | split

theorem State.engAbandon_keeps {r : State} {s : State} {e : Nat} {hard : EngWork → List Nat} (hk : Keeps r s) :
    Keeps r (State.engAbandon s e hard) := by
  unfold State.engAbandon
  repeat' first
    | intro _
    | (with_reducible first | assumption | exact Keeps.refl _ | apply State.free_keeps | apply State.emit_keeps | apply State.cwEnd_keeps | apply State.sendHard_keeps | apply Keeps.cond)
    | extract_lets | dsimp only | split
    | (with_reducible first | apply Keeps.other)

theorem execMicrocodeEccError_keeps {r : State} {e : Fin 128} {double : Bool} {s : State} (hk : Keeps r s) :
    OutKeeps r (execMicrocodeEccError e double s) := by
  unfold execMicrocodeEccError
  repeat' first
    | intro _
    | (with_reducible first | assumption | exact Keeps.refl _ | apply OutKeeps.next | apply State.bump_keeps | apply State.raise_keeps | apply State.engAbandon_keeps | apply State.engFail_keeps | apply State.wr_keeps | apply State.setEng_keeps | apply OutKeeps.cond | apply Keeps.cond)
    | extract_lets | dsimp only | split
    | (with_reducible first | apply Keeps.other)

theorem execReleaseBufferWrite_keeps {r : State} {n : Lane} {s : State} (hk : Keeps r s) :
    OutKeeps r (execReleaseBufferWrite n s) := by
  unfold execReleaseBufferWrite
  repeat' first
    | intro _
    | (with_reducible first | assumption | exact Keeps.refl _ | apply OutKeeps.next | apply State.bump_keeps | apply State.raise_keeps | apply OutKeeps.cond | apply Keeps.cond)
    | extract_lets | dsimp only | split
    | (with_reducible first | apply Keeps.other)

theorem State.ingressAm_keeps {r : State} {s : State} {n : Nat} {a : AmSeen} (hk : Keeps r s) :
    Keeps r (State.ingressAm s n a) := by
  unfold State.ingressAm
  repeat' first
    | intro _
    | (with_reducible first | assumption | exact Keeps.refl _ | apply State.wr_keeps | apply State.ingressUnlock_keeps | apply Keeps.when | apply Keeps.cond)
    | extract_lets | dsimp only | split

theorem State.dealOut_keeps {r : State} {s : State} {n payload : Nat} (hk : Keeps r s) :
    Keeps r (State.dealOut s n payload) := by
  unfold State.dealOut
  repeat' first
    | intro _
    | (with_reducible first | assumption | exact Keeps.refl _ | apply State.setLd_keeps | apply State.wr_keeps | apply Keeps.cond | apply Keeps.cond_snd)
    | extract_lets | dsimp only | split
    | (with_reducible first | apply Keeps.other)

theorem execCodewordRelease_keeps {r : State} {n : Lane} {ui : BitVec 24} {am : Option AmSeen} {s : State} (hk : Keeps r s) :
    OutKeeps r (execCodewordRelease n ui am s) := by
  unfold execCodewordRelease
  repeat' first
    | intro _
    | (with_reducible first | assumption | exact Keeps.refl _ | apply OutKeeps.next | apply State.bump_keeps | apply State.raise_keeps | apply State.faultEvent_keeps | apply State.dealOut_keeps | apply State.ingressAm_keeps | apply State.wr_keeps | apply State.profReleased_keeps | apply Keeps.when | apply OutKeeps.cond | apply Keeps.cond)
    | extract_lets | dsimp only | split
    | (with_reducible first | apply Keeps.other)

theorem State.starve_keeps {r : State} {s : State} {b : BgTask} (hk : Keeps r s) :
    Keeps r (State.starve s b) := by
  unfold State.starve
  dsimp only
  repeat' first
    | intro _
    | (with_reducible first | assumption | exact Keeps.refl _ | apply State.bump_keeps | apply State.raise_keeps | apply Keeps.when | apply Keeps.cond)
    | extract_lets | dsimp only | split
    | (with_reducible first | apply Keeps.other)

theorem State.starveAll_keeps {r s : State} {limit k : Nat} (hk : Keeps r s) : Keeps r (s.starveAll limit k) := by
  induction k generalizing s with
  | zero => exact hk
  | succ k ih =>
    unfold State.starveAll
    split
    · exact ih (State.starve_keeps hk)
    · exact hk

theorem State.bgAge_keeps {r : State} {s : State} (hk : Keeps r s) :
    Keeps r (State.bgAge s) := by
  unfold State.bgAge
  repeat' first
    | intro _
    | (with_reducible first | assumption | exact Keeps.refl _ | apply State.starveAll_keeps | apply Keeps.cond)
    | extract_lets | dsimp only | split
    | (with_reducible first | apply Keeps.other)

theorem State.bgDone_keeps {r : State} {s : State} {e : Nat} (hk : Keeps r s) :
    Keeps r (State.bgDone s e) := by
  unfold State.bgDone
  repeat' first
    | intro _
    | (with_reducible first | assumption | exact Keeps.refl _ | apply State.setEng_keeps | apply State.wr_keeps | apply State.starveAll_keeps)
    | extract_lets | dsimp only
    | (with_reducible first | apply Keeps.other)

theorem execBgTaskDue_keeps {r : State} {e : Fin 128} {refresh : Bool} {s : State} (hk : Keeps r s) :
    OutKeeps r (execBgTaskDue e refresh s) := by
  unfold execBgTaskDue
  repeat' first
    | intro _
    | (with_reducible first | assumption | exact Keeps.refl _ | apply OutKeeps.next | apply OutKeeps.cond | apply Keeps.cond)
    | extract_lets | dsimp only | split
    | (with_reducible first | apply Keeps.other)

theorem execEngineRefreshDone_keeps {r : State} {e : Fin 128} {s : State} (hk : Keeps r s) :
    OutKeeps r (execEngineRefreshDone e s) := by
  unfold execEngineRefreshDone
  repeat' first
    | intro _
    | (with_reducible first | assumption | exact Keeps.refl _ | apply OutKeeps.next | apply State.loadStores_keeps | apply State.bgDone_keeps | apply OutKeeps.cond | apply Keeps.cond)
    | extract_lets | split

theorem execHistGatherDone_keeps {r : State} {e : Fin 128} {s : State} (hk : Keeps r s) :
    OutKeeps r (execHistGatherDone e s) := by
  unfold execHistGatherDone
  repeat' first
    | intro _
    | (with_reducible first | assumption | exact Keeps.refl _ | apply OutKeeps.next | apply State.bump_keeps | apply State.wr_keeps | apply State.bgDone_keeps | apply Keeps.each | apply OutKeeps.cond | apply Keeps.cond)
    | extract_lets | dsimp only | split

theorem State.arcClClear_keeps {r : State} {s : State} {c : Nat} (hk : Keeps r s) :
    Keeps r (State.arcClClear s c) := by
  unfold State.arcClClear
  repeat' first
    | intro _
    | (with_reducible first | assumption | exact Keeps.refl _ | apply State.clear_keeps | apply State.wr_keeps | apply Keeps.each)
    | extract_lets | dsimp only

theorem execArcClCntClr_keeps {r : State} {n : Lane} {s : State} (hk : Keeps r s) :
    OutKeeps r (execArcClCntClr n s) := by
  unfold execArcClCntClr
  repeat' first
    | intro _
    | (with_reducible first | assumption | exact Keeps.refl _ | apply OutKeeps.next | apply State.access_keeps | apply State.arcClClear_keeps)
    | extract_lets | dsimp only

theorem execArcCntClr_keeps {r : State} {s : State} (hk : Keeps r s) :
    OutKeeps r (execArcCntClr s) := by
  unfold execArcCntClr
  repeat' first
    | intro _
    | (with_reducible first | assumption | exact Keeps.refl _ | apply OutKeeps.next | apply State.access_keeps | apply State.arcClClear_keeps | apply State.wr_keeps | apply Keeps.each)
    | extract_lets | dsimp only

end Sys2Proof.Machine
end

