-- ==== Sys2Proof/Laws/KeepsIcris.lean ====
section
/-!
SUPPORT. The operations of Icris keep the queue and the invariant.
-/
set_option Elab.async false
set_option linter.all false
namespace Sys2Proof.Machine

theorem State.setTodFull_keeps {r : State} {s : State} {v : Int} (hk : Keeps r s) :
    Keeps r (State.setTodFull s v) := by
  unfold State.setTodFull
  repeat' first
    | intro _
    | (with_reducible first | assumption | exact Keeps.refl _ | apply State.puts_keeps)
    | extract_lets

theorem State.slewCancel_keeps {r : State} {s : State} (hk : Keeps r s) :
    Keeps r (State.slewCancel s) := by
  unfold State.slewCancel
  repeat' first
    | intro _
    | (with_reducible first | assumption | exact Keeps.refl _ | apply State.puts_keeps | apply State.todDisc_keeps | apply Keeps.cond)
    | extract_lets | split

theorem State.todDone_keeps {r : State} {s : State} (hk : Keeps r s) :
    Keeps r (State.todDone s) := by
  unfold State.todDone
  repeat' first
    | intro _
    | (with_reducible first | assumption | exact Keeps.refl _ | apply State.puts_keeps | apply State.raise_keeps)
    | extract_lets

theorem State.todJump_keeps {r : State} {s : State} {d : Int} (hk : Keeps r s) :
    Keeps r (State.todJump s d) := by
  unfold State.todJump
  repeat' first
    | intro _
    | (with_reducible first | assumption | exact Keeps.refl _ | apply State.wrInt_keeps | apply State.setTodFull_keeps | apply State.bump_keeps | apply State.todDisc_keeps)
    | extract_lets

theorem State.todSetTo_keeps {r : State} {s : State} {v : Int} (hk : Keeps r s) :
    Keeps r (State.todSetTo s v) := by
  unfold State.todSetTo
  repeat' first
    | intro _
    | (with_reducible first | assumption | exact Keeps.refl _ | apply State.slewCancel_keeps | apply State.todJump_keeps | apply State.wr_keeps)
    | extract_lets

theorem State.todStepBy_keeps {r : State} {s : State} {d : Int} (hk : Keeps r s) :
    Keeps r (State.todStepBy s d) := by
  unfold State.todStepBy
  repeat' first
    | intro _
    | (with_reducible first | assumption | exact Keeps.refl _ | apply State.todJump_keeps)
    | extract_lets

theorem State.tick_keeps {r : State} {s : State} (hk : Keeps r s) :
    Keeps r (State.tick s) := by
  unfold State.tick
  repeat' first
    | intro _
    | (with_reducible first | assumption | exact Keeps.refl _ | apply State.wr_keeps | apply State.todSetTo_keeps | apply State.todDone_keeps | apply State.bump_keeps | apply State.free_keeps | apply State.setTodFull_keeps | apply State.wrInt_keeps | apply Keeps.cond | apply Keeps.cond_snd)
    | extract_lets | dsimp only | split
    | (with_reducible first | apply Keeps.other)

theorem execTodSetNow_keeps {r : State} {s : State} (hk : Keeps r s) :
    OutKeeps r (execTodSetNow s) := by
  unfold execTodSetNow
  repeat' first
    | intro _
    | (with_reducible first | assumption | exact Keeps.refl _ | apply OutKeeps.next | apply State.access_keeps | apply State.slewCancel_keeps | apply State.puts_keeps)
    | extract_lets | dsimp only

theorem execTodSetAtTimeIn_keeps {r : State} {s : State} (hk : Keeps r s) :
    OutKeeps r (execTodSetAtTimeIn s) := by
  unfold execTodSetAtTimeIn
  repeat' first
    | intro _
    | (with_reducible first | assumption | exact Keeps.refl _ | apply OutKeeps.next | apply State.access_keeps | apply State.slewCancel_keeps | apply State.puts_keeps)
    | extract_lets | dsimp only

theorem execTodSetTimeout_keeps {r : State} {s : State} (hk : Keeps r s) :
    OutKeeps r (execTodSetTimeout s) := by
  unfold execTodSetTimeout
  repeat' first
    | intro _
    | (with_reducible first | assumption | exact Keeps.refl _ | apply OutKeeps.next | apply State.puts_keeps | apply State.raise_keeps | apply OutKeeps.cond | apply Keeps.cond)
    | extract_lets | split

theorem State.adjust_keeps {r : State} {s : State} {g : State → State} (hgg : ∀ u, Keeps r u → Keeps r (g u)) (hk : Keeps r s) :
    Keeps r (State.adjust s g) := by
  unfold State.adjust
  repeat' first
    | intro _
    | (with_reducible first | apply hgg | assumption | exact Keeps.refl _ | apply State.wr_keeps | apply State.raise_keeps | apply Keeps.cond)
    | extract_lets | split

theorem execTodStep_keeps {r : State} {s : State} (hk : Keeps r s) :
    OutKeeps r (execTodStep s) := by
  unfold execTodStep
  repeat' first
    | intro _
    | (with_reducible first | assumption | exact Keeps.refl _ | apply OutKeeps.next | apply State.access_keeps | apply State.adjust_keeps | apply State.todStepBy_keeps | apply State.todDone_keeps)
    | extract_lets | dsimp only

theorem execTodSlew_keeps {r : State} {s : State} (hk : Keeps r s) :
    OutKeeps r (execTodSlew s) := by
  unfold execTodSlew
  repeat' first
    | intro _
    | (with_reducible first | assumption | exact Keeps.refl _ | apply OutKeeps.next | apply State.access_keeps | apply State.adjust_keeps | apply State.puts_keeps | apply State.wrInt_keeps | apply State.todDisc_keeps)
    | extract_lets | dsimp only

theorem execTodSlewDone_keeps {r : State} {s : State} (hk : Keeps r s) :
    OutKeeps r (execTodSlewDone s) := by
  unfold execTodSlewDone
  repeat' first
    | intro _
    | (with_reducible first | assumption | exact Keeps.refl _ | apply OutKeeps.next | apply State.setTodFull_keeps | apply State.puts_keeps | apply State.todDisc_keeps | apply State.todDone_keeps | apply OutKeeps.cond | apply Keeps.cond)
    | extract_lets | split

theorem State.tsfPut_keeps {r : State} {s : State} {kind index line time frame : Nat} (hk : Keeps r s) :
    Keeps r (State.tsfPut s kind index line time frame) := by
  unfold State.tsfPut
  repeat' first
    | intro _
    | (with_reducible first | assumption | exact Keeps.refl _ | apply State.wr_keeps | apply State.bump_keeps | apply State.raise_keeps | apply State.puts_keeps | apply Keeps.when | apply Keeps.cond)
    | extract_lets | dsimp only | split
    | (with_reducible first | apply Keeps.other)

theorem State.stampRx_keeps {r : State} {s : State} {n t ordinal age : Nat} {broken : Bool} (hk : Keeps r s) :
    Keeps r (State.stampRx s n t ordinal age broken) := by
  unfold State.stampRx
  repeat' first
    | intro _
    | (with_reducible first | assumption | exact Keeps.refl _ | apply State.wrb_keeps | apply State.puts_keeps | apply State.wr_keeps | apply State.tsfPut_keeps | apply Keeps.when)
    | extract_lets | dsimp only

theorem State.stampTx_keeps {r : State} {s : State} {n t ordinal : Nat} {steady : Int} {broken : Bool} (hk : Keeps r s) :
    Keeps r (State.stampTx s n t ordinal steady broken) := by
  unfold State.stampTx
  repeat' first
    | intro _
    | (with_reducible first | assumption | exact Keeps.refl _ | apply State.puts_keeps | apply State.setEx_keeps | apply State.tsfPut_keeps | apply Keeps.when)
    | extract_lets | dsimp only
    | (with_reducible first | apply Keeps.other)

theorem State.stamp_keeps {r0 : State} {s : State} {r : PointReport} {index t : Nat} {steady : Frac} (hk : Keeps r0 s) :
    Keeps r0 (State.stamp s r index t steady) := by
  unfold State.stamp
  repeat' first
    | intro _
    | (with_reducible first | assumption | exact Keeps.refl _ | apply State.bump_keeps | apply State.stampRx_keeps | apply State.stampTx_keeps | apply State.puts_keeps | apply State.tsfPut_keeps | apply Keeps.when | apply OptKeeps.getD)
    | extract_lets | dsimp only | split

theorem execTimestampEvent_keeps {r0 : State} {r : PointReport} {s : State} (hk : Keeps r0 s) :
    OutKeeps r0 (execTimestampEvent r s) := by
  unfold execTimestampEvent
  repeat' first
    | intro _
    | (with_reducible first | assumption | exact Keeps.refl _ | apply OutKeeps.next | apply State.straitLoss_keeps | apply State.stamp_keeps | apply OutKeeps.cond | apply Keeps.cond)
    | extract_lets | split

theorem execCrossCapture_keeps {r : State} {island : Fin 12} {count : BitVec 64} {interval : BitVec 12} {s : State} (hk : Keeps r s) :
    OutKeeps r (execCrossCapture island count interval s) := by
  unfold execCrossCapture
  repeat' first
    | intro _
    | (with_reducible first | assumption | exact Keeps.refl _ | apply OutKeeps.next | apply State.wr_keeps | apply State.wrInt_keeps | apply OutKeeps.cond | apply Keeps.cond)
    | extract_lets | split

theorem execDriftMonitor_keeps {r : State} {point : Fin 48} {delta : Int} {ana : BitVec 16} {s : State} (hk : Keeps r s) :
    OutKeeps r (execDriftMonitor point delta ana s) := by
  unfold execDriftMonitor
  repeat' first
    | intro _
    | (with_reducible first | assumption | exact Keeps.refl _ | apply OutKeeps.next | apply State.wrInt_keeps | apply State.wr_keeps | apply State.puts_keeps | apply Keeps.when | apply OutKeeps.cond | apply Keeps.cond)
    | extract_lets | dsimp only | split

theorem execTsfRead_keeps {r : State} {s : State} (hk : Keeps r s) :
    OutKeeps r (execTsfRead s) := by
  unfold execTsfRead
  repeat' first
    | intro _
    | (with_reducible first | assumption | exact Keeps.refl _ | apply OutKeeps.next | apply State.access_keeps | apply State.wr_keeps | apply State.puts_keeps)
    | extract_lets | dsimp only | split
    | (with_reducible first | apply Keeps.other)

theorem execTsfFlush_keeps {r : State} {s : State} (hk : Keeps r s) :
    OutKeeps r (execTsfFlush s) := by
  unfold execTsfFlush
  repeat' first
    | intro _
    | (with_reducible first | assumption | exact Keeps.refl _ | apply OutKeeps.next | apply State.access_keeps | apply State.wr_keeps)
    | extract_lets | dsimp only
    | (with_reducible first | apply Keeps.other)

theorem execTimCntClr_keeps {r : State} {s : State} (hk : Keeps r s) :
    OutKeeps r (execTimCntClr s) := by
  unfold execTimCntClr
  repeat' first
    | intro _
    | (with_reducible first | assumption | exact Keeps.refl _ | apply OutKeeps.next | apply State.access_keeps | apply State.clear_keeps)
    | extract_lets | dsimp only

theorem execTimLnCntClr_keeps {r : State} {n : Lane} {s : State} (hk : Keeps r s) :
    OutKeeps r (execTimLnCntClr n s) := by
  unfold execTimLnCntClr
  repeat' first
    | intro _
    | (with_reducible first | assumption | exact Keeps.refl _ | apply OutKeeps.next | apply State.access_keeps | apply State.clear_keeps)
    | extract_lets | dsimp only

theorem execLedgerPublish_keeps {r : State} {n : Lane} {s : State} (hk : Keeps r s) :
    OutKeeps r (execLedgerPublish n s) := by
  unfold execLedgerPublish
  repeat' first
    | intro _
    | (with_reducible first | assumption | exact Keeps.refl _ | apply OutKeeps.next | apply State.raise_keeps | apply State.wr_keeps | apply State.puts_keeps | apply State.wrInt_keeps | apply Keeps.when | apply OutKeeps.cond | apply Keeps.cond | apply OptKeeps.getD)
    | extract_lets | dsimp only | split

theorem State.regionV2_keeps {r : State} {s : State} {n : Nat} {late : Bool} (hk : Keeps r s) :
    Keeps r (State.regionV2 s n late) := by
  unfold State.regionV2
  repeat' first
    | intro _
    | (with_reducible first | assumption | exact Keeps.refl _ | apply State.setEx_keeps | apply State.puts_keeps | apply State.bump_keeps | apply Keeps.when | apply Keeps.cond | apply OptKeeps.getD)
    | extract_lets | dsimp only | split
    | (with_reducible first | apply Keeps.other)

theorem execIcrisRegionWrite_keeps {r : State} {n : Lane} {late : Bool} {s : State} (hk : Keeps r s) :
    OutKeeps r (execIcrisRegionWrite n late s) := by
  unfold execIcrisRegionWrite
  repeat' first
    | intro _
    | (with_reducible first | assumption | exact Keeps.refl _ | apply OutKeeps.next | apply State.bump_keeps | apply State.regionV2_keeps | apply State.outRegion_keeps | apply OutKeeps.cond | apply Keeps.cond)
    | extract_lets | split

theorem execIcrisInitiate_keeps {r : State} {n : Lane} {s : State} (hk : Keeps r s) :
    OutKeeps r (execIcrisInitiate n s) := by
  unfold execIcrisInitiate
  repeat' first
    | intro _
    | (with_reducible first | assumption | exact Keeps.refl _ | apply OutKeeps.next | apply State.setEx_keeps | apply OutKeeps.cond | apply Keeps.cond)
    | extract_lets | split
    | (with_reducible first | apply Keeps.other)

theorem execInitiationMiss_keeps {r : State} {n : Lane} {seq : BitVec 16} {s : State} (hk : Keeps r s) :
    OutKeeps r (execInitiationMiss n seq s) := by
  unfold execInitiationMiss
  repeat' first
    | intro _
    | (with_reducible first | assumption | exact Keeps.refl _ | apply OutKeeps.next | apply State.setEx_keeps | apply State.bump_keeps | apply OutKeeps.cond | apply Keeps.cond)
    | extract_lets | dsimp only | split
    | (with_reducible first | apply Keeps.other)

theorem execExchStale_keeps {r : State} {n : Lane} {s : State} (hk : Keeps r s) :
    OutKeeps r (execExchStale n s) := by
  unfold execExchStale
  repeat' first
    | intro _
    | (with_reducible first | assumption | exact Keeps.refl _ | apply OutKeeps.next | apply State.wr_keeps | apply State.raise_keeps | apply OutKeeps.cond | apply Keeps.cond)
    | extract_lets | split

theorem execRestartAvg_keeps {r : State} {n : Lane} {s : State} (hk : Keeps r s) :
    OutKeeps r (execRestartAvg n s) := by
  unfold execRestartAvg
  repeat' first
    | intro _
    | (with_reducible first | assumption | exact Keeps.refl _ | apply OutKeeps.next | apply State.access_keeps | apply State.exchClear_keeps)
    | extract_lets | dsimp only

theorem State.results_keeps {r : State} {s : State} {n : Nat} (hk : Keeps r s) :
    Keeps r (State.results s n) := by
  unfold State.results
  repeat' first
    | intro _
    | (with_reducible first | assumption | exact Keeps.refl _ | apply State.wrInt_keeps | apply State.wr_keeps)
    | extract_lets

theorem State.ranging_keeps {r : State} {s : State} (hk : Keeps r s) :
    Keeps r (State.ranging s) := by
  unfold State.ranging
  repeat' first
    | intro _
    | (with_reducible first | assumption | exact Keeps.refl _ | apply State.wrInt_keeps | apply State.puts_keeps | apply State.wrFree_keeps | apply State.wr_keeps | apply State.wrb_keeps | apply State.raise_keeps | apply Keeps.each | apply Keeps.when | apply Keeps.foldl | apply Keeps.cond | apply Keeps.cond_snd | apply OptKeeps.getD)
    | extract_lets | dsimp only | split

theorem State.phaseError_keeps {r : State} {s : State} {e : Int} (hk : Keeps r s) :
    Keeps r (State.phaseError s e) := by
  unfold State.phaseError
  repeat' first
    | intro _
    | (with_reducible first | assumption | exact Keeps.refl _ | apply State.wr_keeps | apply State.wrInt_keeps)
    | extract_lets

theorem State.exchange_keeps {r : State} {s : State} {n : Nat} {t1 : Nat} {e : EchoIn} {v1 : Bool} (hk : Keeps r s) :
    Keeps r (State.exchange s n t1 e v1) := by
  unfold State.exchange
  repeat' first
    | intro _
    | (with_reducible first | assumption | exact Keeps.refl _ | apply State.setEx_keeps | apply State.free_keeps | apply State.bump_keeps | apply State.wr_keeps | apply State.results_keeps | apply State.ranging_keeps | apply State.phaseError_keeps | apply Keeps.when | apply Keeps.cond | apply Keeps.cond_snd | apply OptKeeps.getD)
    | extract_lets | dsimp only | split
    | (with_reducible first | apply Keeps.other)

theorem execEchoReceived_keeps {r : State} {n : Lane} {s : State} (hk : Keeps r s) :
    OutKeeps r (execEchoReceived n s) := by
  unfold execEchoReceived
  repeat' first
    | intro _
    | (with_reducible first | assumption | exact Keeps.refl _ | apply OutKeeps.next | apply State.setEx_keeps | apply State.exchClear_keeps | apply State.bump_keeps | apply State.wr_keeps | apply State.exchange_keeps | apply OutKeeps.cond | apply Keeps.cond)
    | extract_lets | dsimp only | split
    | (with_reducible first | apply Keeps.other)

theorem State.steer_keeps {r : State} {s : State} (hk : Keeps r s) :
    Keeps r (State.steer s) := by
  unfold State.steer
  repeat' first
    | intro _
    | (with_reducible first | assumption | exact Keeps.refl _ | apply State.free_keeps | apply State.wrInt_keeps)
    | extract_lets | dsimp only
    | (with_reducible first | apply Keeps.other)

theorem execDpllUpdate_keeps {r : State} {s : State} (hk : Keeps r s) :
    OutKeeps r (execDpllUpdate s) := by
  unfold execDpllUpdate
  repeat' first
    | intro _
    | (with_reducible first | assumption | exact Keeps.refl _ | apply OutKeeps.next | apply State.wr_keeps | apply State.free_keeps | apply State.puts_keeps | apply State.wrInt_keeps | apply State.todStepBy_keeps | apply State.raise_keeps | apply State.steer_keeps | apply Keeps.when | apply OutKeeps.cond | apply Keeps.cond | apply Keeps.cond_snd)
    | extract_lets | dsimp only | split

theorem execDpllMissedUpdate_keeps {r : State} {s : State} (hk : Keeps r s) :
    OutKeeps r (execDpllMissedUpdate s) := by
  unfold execDpllMissedUpdate
  repeat' first
    | intro _
    | (with_reducible first | assumption | exact Keeps.refl _ | apply OutKeeps.next | apply State.wr_keeps | apply State.puts_keeps | apply State.raise_keeps | apply State.free_keeps | apply State.wrInt_keeps | apply Keeps.foldl | apply OutKeeps.cond | apply Keeps.cond | apply Keeps.cond_snd)
    | extract_lets | dsimp only | split

theorem State.psUnits_keeps {r : State} {s : State} {ps : Int} (hk : Keeps r s) :
    Keeps r (State.psUnits s ps).2 := by
  unfold State.psUnits
  repeat' first
    | intro _
    | (with_reducible first | assumption | exact Keeps.refl _ | apply State.free_keeps | apply Keeps.cond_snd | apply Keeps.cond)
    | extract_lets | dsimp only | split

theorem execTimeInEdge_keeps {r : State} {offset : BitVec 17} {s : State} (hk : Keeps r s) :
    OutKeeps r (execTimeInEdge offset s) := by
  unfold execTimeInEdge
  repeat' first
    | intro _
    | (with_reducible first | assumption | exact Keeps.refl _ | apply OutKeeps.next | apply State.wakeDevice_keeps | apply State.bump_keeps | apply State.puts_keeps | apply State.psUnits_keeps | apply State.wr_keeps | apply State.tsfPut_keeps | apply State.phaseError_keeps | apply State.todSetTo_keeps | apply State.todDone_keeps | apply Keeps.when | apply OutKeeps.cond | apply Keeps.cond | apply Keeps.cond_snd)
    | extract_lets | dsimp only | split

theorem execTimeInMiss_keeps {r : State} {s : State} (hk : Keeps r s) :
    OutKeeps r (execTimeInMiss s) := by
  unfold execTimeInMiss
  repeat' first
    | intro _
    | (with_reducible first | assumption | exact Keeps.refl _ | apply OutKeeps.next | apply State.raise_keeps | apply OutKeeps.cond | apply Keeps.cond)
    | extract_lets | split

theorem execTimeOutPulse_keeps {r : State} {s : State} (hk : Keeps r s) :
    OutKeeps r (execTimeOutPulse s) := by
  unfold execTimeOutPulse
  repeat' first
    | intro _
    | (with_reducible first | assumption | exact Keeps.refl _ | apply OutKeeps.next | apply State.psUnits_keeps | apply State.puts_keeps | apply OutKeeps.cond | apply Keeps.cond | apply Keeps.cond_snd)
    | extract_lets | dsimp only | split

theorem execSuspectEnd_keeps {r : State} {s : State} (hk : Keeps r s) :
    OutKeeps r (execSuspectEnd s) := by
  unfold execSuspectEnd
  repeat' first
    | intro _
    | (with_reducible first | assumption | exact Keeps.refl _ | apply OutKeeps.next | apply State.wr_keeps | apply OutKeeps.cond | apply Keeps.cond)
    | extract_lets | split

end Sys2Proof.Machine
end

