-- ==== Sys2Proof/Laws/KeepsClocks.lean ====
section
/-!
SUPPORT. The operations of Clocks keep the queue and the invariant.
-/
set_option Elab.async false
set_option linter.all false
namespace Sys2Proof.Machine

theorem State.pllEffects_keeps {r : State} {s : State} {p : Nat} {lol : Bool} (hk : Keeps r s) :
    Keeps r (State.pllEffects s p lol) := by
  unfold State.pllEffects
  repeat' first
    | intro _
    | (with_reducible first | assumption | exact Keeps.refl _ | apply State.capStop_keeps | apply State.lrxToCal_keeps | apply State.ltxFault_keeps | apply State.wr_keeps | apply State.puts_keeps | apply State.ltxRecheck_keeps | apply State.hifToCal_keeps | apply Keeps.each | apply Keeps.when | apply Keeps.cond)
    | extract_lets | dsimp only | split

theorem State.pllCalStart_keeps {r : State} {s : State} {p : Nat} (hk : Keeps r s) :
    Keeps r (State.pllCalStart s p) := by
  unfold State.pllCalStart
  repeat' first
    | intro _
    | (with_reducible first | assumption | exact Keeps.refl _ | apply State.setMask_keeps | apply State.wr_keeps | apply State.puts_keeps | apply State.pllSet_keeps | apply State.pllGate_keeps | apply Keeps.when | apply Keeps.cond)
    | extract_lets | dsimp only | split

theorem State.pllLockedNow_keeps {r : State} {s : State} {p : Nat} (hk : Keeps r s) :
    Keeps r (State.pllLockedNow s p) := by
  unfold State.pllLockedNow
  repeat' first
    | intro _
    | (with_reducible first | assumption | exact Keeps.refl _ | apply State.atcRun_keeps | apply State.straitFlush_keeps | apply State.puts_keeps | apply State.pllSet_keeps | apply State.wr_keeps | apply State.xbarFollow_keeps | apply State.ltxRecheck_keeps | apply Keeps.each | apply Keeps.when)
    | extract_lets | dsimp only

theorem State.pllLol_keeps {r : State} {s : State} {p : Nat} (hk : Keeps r s) :
    Keeps r (State.pllLol s p) := by
  unfold State.pllLol
  repeat' first
    | intro _
    | (with_reducible first | assumption | exact Keeps.refl _ | apply State.bump_keeps | apply State.wr_keeps | apply State.raise_keeps | apply State.pllEffects_keeps | apply State.faultEvent_keeps)
    | extract_lets

theorem execPllLockWindow_keeps {r : State} {p : Fin 5} {errPpm : Int} {phaseOk slip : Bool} {s : State} (hk : Keeps r s) :
    OutKeeps r (execPllLockWindow p errPpm phaseOk slip s) := by
  unfold execPllLockWindow
  repeat' first
    | intro _
    | (with_reducible first | assumption | exact Keeps.refl _ | apply OutKeeps.next | apply State.wrInt_keeps | apply State.pllGate_keeps | apply State.pllSet_keeps | apply State.pllLol_keeps | apply State.pllCalStart_keeps | apply State.wr_keeps | apply State.pllLockedNow_keeps | apply Keeps.when | apply OutKeeps.cond | apply Keeps.cond)
    | extract_lets | dsimp only | split

theorem State.pllRequest_keeps {r : State} {s : State} {p : Nat} (hk : Keeps r s) :
    Keeps r (State.pllRequest s p) := by
  unfold State.pllRequest
  repeat' first
    | intro _
    | (with_reducible first | assumption | exact Keeps.refl _ | apply State.puts_keeps | apply State.ltxDisable_keeps | apply Keeps.each | apply Keeps.cond)
    | extract_lets | dsimp only | split

theorem execPllCalReq_keeps {r : State} {mask : BitVec 5} {s : State} (hk : Keeps r s) :
    OutKeeps r (execPllCalReq mask s) := by
  unfold execPllCalReq
  repeat' first
    | intro _
    | (with_reducible first | assumption | exact Keeps.refl _ | apply OutKeeps.next | apply State.access_keeps | apply State.setMask_keeps | apply State.wr_keeps | apply State.pllRequest_keeps | apply Keeps.each | apply OutKeeps.cond | apply Keeps.cond)
    | extract_lets | dsimp only | split

theorem execPllCalStart_keeps {r : State} {p : Fin 5} {s : State} (hk : Keeps r s) :
    OutKeeps r (execPllCalStart p s) := by
  unfold execPllCalStart
  repeat' first
    | intro _
    | (with_reducible first | assumption | exact Keeps.refl _ | apply OutKeeps.next | apply State.pllCalStart_keeps | apply State.pllEffects_keeps | apply OutKeeps.cond | apply Keeps.cond)
    | extract_lets | split

theorem State.pllServed_keeps {r : State} {s : State} {p : Nat} (hk : Keeps r s) :
    Keeps r (State.pllServed s p) := by
  unfold State.pllServed
  repeat' first
    | intro _
    | (with_reducible first | assumption | exact Keeps.refl _ | apply State.wr_keeps | apply State.clearLasting_keeps | apply Keeps.when)
    | extract_lets | dsimp only

theorem State.pllCalLocked_keeps {r : State} {s : State} {p band : Nat} (hk : Keeps r s) :
    Keeps r (State.pllCalLocked s p band) := by
  unfold State.pllCalLocked
  repeat' first
    | intro _
    | (with_reducible first | assumption | exact Keeps.refl _ | apply State.puts_keeps | apply State.pllServed_keeps | apply State.pllLockedNow_keeps)
    | extract_lets

theorem execPllCalDone_keeps {r : State} {p : Fin 5} {band : BitVec 6} {s : State} (hk : Keeps r s) :
    OutKeeps r (execPllCalDone p band s) := by
  unfold execPllCalDone
  repeat' first
    | intro _
    | (with_reducible first | assumption | exact Keeps.refl _ | apply OutKeeps.next | apply State.puts_keeps | apply State.bump_keeps | apply State.raise_keeps | apply State.wr_keeps | apply State.pllSet_keeps | apply State.pllCalLocked_keeps | apply State.pllCalStart_keeps | apply Keeps.each | apply Keeps.when | apply OutKeeps.cond | apply Keeps.cond)
    | extract_lets | dsimp only | split

theorem State.refOutage_keeps {r : State} {s : State} (hk : Keeps r s) :
    Keeps r (State.refOutage s) := by
  unfold State.refOutage
  repeat' first
    | intro _
    | (with_reducible first | assumption | exact Keeps.refl _ | apply State.puts_keeps | apply State.raise_keeps | apply State.wr_keeps | apply State.wrb_keeps | apply State.pllSet_keeps | apply Keeps.each | apply Keeps.when)
    | extract_lets | dsimp only

theorem execRefLost_keeps {r : State} {s : State} (hk : Keeps r s) :
    OutKeeps r (execRefLost s) := by
  unfold execRefLost
  repeat' first
    | intro _
    | (with_reducible first | assumption | exact Keeps.refl _ | apply OutKeeps.next | apply State.puts_keeps | apply State.raise_keeps | apply State.refOutage_keeps | apply State.wr_keeps | apply OutKeeps.cond | apply Keeps.cond)
    | extract_lets | split

theorem execRefCountDone_keeps {r : State} {count : BitVec 16} {s : State} (hk : Keeps r s) :
    OutKeeps r (execRefCountDone count s) := by
  unfold execRefCountDone
  repeat' first
    | intro _
    | (with_reducible first | assumption | exact Keeps.refl _ | apply OutKeeps.next | apply State.wr_keeps | apply State.puts_keeps | apply State.raise_keeps | apply State.refOutage_keeps | apply Keeps.when | apply OutKeeps.cond | apply Keeps.cond)
    | extract_lets | dsimp only | split

theorem State.refLoss_keeps {r : State} {s : State} (hk : Keeps r s) :
    Keeps r (State.refLoss s) := by
  unfold State.refLoss
  repeat' first
    | intro _
    | (with_reducible first | assumption | exact Keeps.refl _ | apply State.wr_keeps | apply State.bump_keeps | apply State.pllLol_keeps | apply Keeps.each | apply Keeps.cond)
    | extract_lets | dsimp only | split

theorem execRefBack_keeps {r : State} {s : State} (hk : Keeps r s) :
    OutKeeps r (execRefBack s) := by
  unfold execRefBack
  repeat' first
    | intro _
    | (with_reducible first | assumption | exact Keeps.refl _ | apply OutKeeps.next | apply State.refLoss_keeps | apply State.puts_keeps | apply State.wr_keeps | apply State.bump_keeps | apply State.raise_keeps | apply State.pllSet_keeps | apply State.pllServed_keeps | apply Keeps.each | apply Keeps.when | apply OutKeeps.cond | apply Keeps.cond)
    | extract_lets | dsimp only | split

theorem execRefOk_keeps {r : State} {s : State} (hk : Keeps r s) :
    OutKeeps r (execRefOk s) := by
  unfold execRefOk
  repeat' first
    | intro _
    | (with_reducible first | assumption | exact Keeps.refl _ | apply OutKeeps.next | apply State.wr_keeps | apply State.raise_keeps | apply State.pllSet_keeps | apply Keeps.each | apply OutKeeps.cond | apply Keeps.cond)
    | extract_lets | dsimp only | split

theorem execRefHoldExpiry_keeps {r : State} {s : State} (hk : Keeps r s) :
    OutKeeps r (execRefHoldExpiry s) := by
  unfold execRefHoldExpiry
  repeat' first
    | intro _
    | (with_reducible first | assumption | exact Keeps.refl _ | apply OutKeeps.next | apply State.refLoss_keeps | apply OutKeeps.cond | apply Keeps.cond)
    | extract_lets | split

theorem execPllRelockTimeout_keeps {r : State} {p : Fin 5} {s : State} (hk : Keeps r s) :
    OutKeeps r (execPllRelockTimeout p s) := by
  unfold execPllRelockTimeout
  repeat' first
    | intro _
    | (with_reducible first | assumption | exact Keeps.refl _ | apply OutKeeps.next | apply State.pllCalStart_keeps | apply OutKeeps.cond | apply Keeps.cond)
    | extract_lets | split

theorem execClkCntClr_keeps {r : State} {s : State} (hk : Keeps r s) :
    OutKeeps r (execClkCntClr s) := by
  unfold execClkCntClr
  repeat' first
    | intro _
    | (with_reducible first | assumption | exact Keeps.refl _ | apply OutKeeps.next | apply State.access_keeps | apply State.clear_keeps | apply Keeps.each)
    | extract_lets | dsimp only

end Sys2Proof.Machine
end

