-- ==== Sys2Proof/Laws/KeepsOptics.lean ====
section
/-!
SUPPORT. The operations of Optics keep the queue and the invariant.
-/
set_option Elab.async false
set_option linter.all false
namespace Sys2Proof.Machine

theorem State.monBanks_keeps {r : State} {s : State} {c : Nat} (hk : Keeps r s) :
    Keeps r (State.monBanks s c) := by
  unfold State.monBanks
  repeat' first
    | intro _
    | (with_reducible first | assumption | exact Keeps.refl _ | apply State.wr_keeps | apply State.setUse_keeps | apply State.puts_keeps | apply Keeps.each)
    | extract_lets | dsimp only

theorem State.monEvent_keeps {r : State} {s : State} {c : Nat} (hk : Keeps r s) :
    Keeps r (State.monEvent s c) := by
  unfold State.monEvent
  repeat' first
    | intro _
    | (with_reducible first | assumption | exact Keeps.refl _ | apply State.wr_keeps)
    | extract_lets

theorem State.monSwitch_keeps {r : State} {s : State} {c : Nat} (hk : Keeps r s) :
    Keeps r (State.monSwitch s c) := by
  unfold State.monSwitch
  repeat' first
    | intro _
    | (with_reducible first | assumption | exact Keeps.refl _ | apply State.monBanks_keeps | apply State.monEvent_keeps | apply Keeps.when)
    | extract_lets | dsimp only

theorem State.monStep_keeps {r : State} {s : State} {out : Nat} {range : Bool} {change : Nat} (hk : Keeps r s) :
    Keeps r (State.monStep s out range change) := by
  unfold State.monStep
  repeat' first
    | intro _
    | (with_reducible first | assumption | exact Keeps.refl _ | apply State.monEvent_keeps | apply Keeps.each | apply Keeps.when)
    | extract_lets | dsimp only

theorem execMonOutput_keeps {r : State} {c : Fin 24} {codes : List (BitVec 12)} {s : State} (hk : Keeps r s) :
    OutKeeps r (execMonOutput c codes s) := by
  unfold execMonOutput
  repeat' first
    | intro _
    | (with_reducible first | assumption | exact Keeps.refl _ | apply OutKeeps.next | apply State.puts_keeps | apply State.wr_keeps | apply State.monBanks_keeps | apply State.raise_keeps | apply State.wrb_keeps | apply Keeps.when | apply OutKeeps.cond | apply Keeps.cond | apply Keeps.cond_snd)
    | extract_lets | dsimp only | split

theorem execMonSwap_keeps {r : State} {c : Fin 24} {s : State} (hk : Keeps r s) :
    OutKeeps r (execMonSwap c s) := by
  unfold execMonSwap
  repeat' first
    | intro _
    | (with_reducible first | assumption | exact Keeps.refl _ | apply OutKeeps.next | apply State.access_keeps | apply State.wr_keeps)
    | extract_lets | dsimp only

theorem execMonCntClr_keeps {r : State} {s : State} (hk : Keeps r s) :
    OutKeeps r (execMonCntClr s) := by
  unfold execMonCntClr
  repeat' first
    | intro _
    | (with_reducible first | assumption | exact Keeps.refl _ | apply OutKeeps.next | apply State.access_keeps | apply State.wr_keeps | apply Keeps.each)
    | extract_lets | dsimp only

theorem State.rangeApply_keeps {r : State} {s : State} {n k : Nat} (hk : Keeps r s) :
    Keeps r (State.rangeApply s n k) := by
  unfold State.rangeApply
  repeat' first
    | intro _
    | (with_reducible first | assumption | exact Keeps.refl _ | apply State.wr_keeps | apply State.raise_keeps | apply State.monStep_keeps | apply Keeps.when | apply Keeps.cond)
    | extract_lets | dsimp only | split

theorem State.rampStep_keeps {r : State} {s : State} {n : Nat} (hk : Keeps r s) :
    Keeps r (State.rampStep s n) := by
  unfold State.rampStep
  repeat' first
    | intro _
    | (with_reducible first | assumption | exact Keeps.refl _ | apply State.wr_keeps | apply State.puts_keeps | apply Keeps.when | apply Keeps.cond)
    | extract_lets | dsimp only | split

theorem State.biasReady_keeps {r : State} {s : State} {n : Nat} (hk : Keeps r s) :
    Keeps r (State.biasReady s n) := by
  unfold State.biasReady
  repeat' first
    | intro _
    | (with_reducible first | assumption | exact Keeps.refl _ | apply State.wr_keeps | apply State.raise_keeps | apply Keeps.when | apply Keeps.cond)
    | extract_lets | dsimp only | split

theorem State.condTrack_keeps {r : State} {s : State} {n : Nat} {compliance openLoop : Bool} (hk : Keeps r s) :
    Keeps r (State.condTrack s n compliance openLoop) := by
  unfold State.condTrack
  repeat' first
    | intro _
    | (with_reducible first | assumption | exact Keeps.refl _ | apply State.wr_keeps | apply Keeps.when | apply Keeps.cond)
    | extract_lets | dsimp only | split

theorem State.biasCode_keeps {r : State} {s : State} {n : Nat} {chip : Bool} (hk : Keeps r s) :
    Keeps r (State.biasCode s n chip).2 := by
  unfold State.biasCode
  repeat' first
    | intro _
    | (with_reducible first | assumption | exact Keeps.refl _ | apply State.raise_keeps | apply State.wrb_keeps | apply Keeps.when | apply Keeps.cond_snd | apply Keeps.cond)
    | extract_lets | dsimp only | split

theorem State.biasDrive_keeps {r : State} {s : State} {n : Nat} (hk : Keeps r s) :
    Keeps r (State.biasDrive s n) := by
  unfold State.biasDrive
  repeat' first
    | intro _
    | (with_reducible first | assumption | exact Keeps.refl _ | apply State.wr_keeps | apply State.monStep_keeps | apply State.biasCode_keeps | apply State.bump_keeps | apply State.raise_keeps | apply Keeps.when | apply Keeps.cond | apply Keeps.cond_snd)
    | extract_lets | dsimp only | split

theorem State.auxDrive_keeps {r : State} {s : State} {n k : Nat} (hk : Keeps r s) :
    Keeps r (State.auxDrive s n k) := by
  unfold State.auxDrive
  repeat' first
    | intro _
    | (with_reducible first | assumption | exact Keeps.refl _ | apply State.wr_keeps | apply State.monStep_keeps | apply Keeps.cond)
    | extract_lets | split

theorem execOptTrigger_keeps {r : State} {n : Lane} {compliance openLoop : Bool} {s : State} (hk : Keeps r s) :
    OutKeeps r (execOptTrigger n compliance openLoop s) := by
  unfold execOptTrigger
  repeat' first
    | intro _
    | (with_reducible first | assumption | exact Keeps.refl _ | apply OutKeeps.next | apply State.optClamp_keeps | apply State.wr_keeps | apply State.rangeApply_keeps | apply State.condTrack_keeps | apply State.rampStep_keeps | apply State.biasReady_keeps | apply State.sideRun_keeps | apply State.biasDrive_keeps | apply State.auxDrive_keeps | apply Keeps.each | apply Keeps.when | apply OutKeeps.cond | apply Keeps.cond)
    | extract_lets | dsimp only | split

theorem execObiasConditionEvent_keeps {r : State} {n : Lane} {openLoop : Bool} {s : State} (hk : Keeps r s) :
    OutKeeps r (execObiasConditionEvent n openLoop s) := by
  unfold execObiasConditionEvent
  repeat' first
    | intro _
    | (with_reducible first | assumption | exact Keeps.refl _ | apply OutKeeps.next | apply State.puts_keeps | apply State.bump_keeps | apply State.raise_keeps | apply State.faultEvent_keeps | apply OutKeeps.cond | apply Keeps.cond)
    | extract_lets | split

theorem execEnvelopeTrip_keeps {r : State} {n : Lane} {c : EnvCondition} {s : State} (hk : Keeps r s) :
    OutKeeps r (execEnvelopeTrip n c s) := by
  unfold execEnvelopeTrip
  repeat' first
    | intro _
    | (with_reducible first | assumption | exact Keeps.refl _ | apply OutKeeps.next | apply State.envTrip_keeps | apply OutKeeps.cond | apply Keeps.cond)
    | extract_lets | split

theorem execProbeTimeout_keeps {r : State} {n : Lane} {s : State} (hk : Keeps r s) :
    OutKeeps r (execProbeTimeout n s) := by
  unfold execProbeTimeout
  repeat' first
    | intro _
    | (with_reducible first | assumption | exact Keeps.refl _ | apply OutKeeps.next | apply State.envTrip_keeps | apply OutKeeps.cond | apply Keeps.cond)
    | extract_lets | split

theorem execOffTimeExpiry_keeps {r : State} {n : Lane} {s : State} (hk : Keeps r s) :
    OutKeeps r (execOffTimeExpiry n s) := by
  unfold execOffTimeExpiry
  repeat' first
    | intro _
    | (with_reducible first | assumption | exact Keeps.refl _ | apply OutKeeps.next | apply State.puts_keeps | apply State.ltxRecheck_keeps | apply OutKeeps.cond | apply Keeps.cond)
    | extract_lets | split

theorem execEnvSave_keeps {r : State} {s : State} (hk : Keeps r s) :
    OutKeeps r (execEnvSave s) := by
  unfold execEnvSave
  repeat' first
    | intro _
    | (with_reducible first | assumption | exact Keeps.refl _ | apply OutKeeps.next | apply State.access_keeps | apply State.puts_keeps | apply OutKeeps.cond | apply Keeps.cond)
    | extract_lets | dsimp only | split

theorem execOptCntClr_keeps {r : State} {n : Lane} {s : State} (hk : Keeps r s) :
    OutKeeps r (execOptCntClr n s) := by
  unfold execOptCntClr
  repeat' first
    | intro _
    | (with_reducible first | assumption | exact Keeps.refl _ | apply OutKeeps.next | apply State.access_keeps | apply State.clear_keeps)
    | extract_lets | dsimp only

theorem State.pbEnd_keeps {r : State} {s : State} {firmware : Bool} {result : Nat} (hk : Keeps r s) :
    Keeps r (State.pbEnd s firmware result) := by
  unfold State.pbEnd
  repeat' first
    | intro _
    | (with_reducible first | assumption | exact Keeps.refl _ | apply State.wr_keeps | apply State.raise_keeps | apply Keeps.when)
    | extract_lets | dsimp only

theorem State.pbStart_keeps {r s : State} {k : List (PbJob × Bool)} (hk : Keeps r s) : Keeps r (s.pbStart k) := by
  induction k generalizing s with
  | nil =>
    unfold State.pbStart
    with_reducible exact Keeps.other hk
  | cons w k ih =>
    unfold State.pbStart
    split
    · exact ih (State.pbEnd_keeps hk)
    · with_reducible exact Keeps.other hk

theorem State.pbRequest_keeps {r : State} {s : State} {w : PbJob × Bool} (hk : Keeps r s) :
    Keeps r (State.pbRequest s w) := by
  unfold State.pbRequest
  repeat' first
    | intro _
    | (with_reducible first | assumption | exact Keeps.refl _ | apply State.pbStart_keeps | apply Keeps.cond)
    | extract_lets | split
    | (with_reducible first | apply Keeps.other)

theorem execPbTransaction_keeps {r : State} {firmware : Option PbJob} {s : State} (hk : Keeps r s) :
    OutKeeps r (execPbTransaction firmware s) := by
  unfold execPbTransaction
  repeat' first
    | intro _
    | (with_reducible first | assumption | exact Keeps.refl _ | apply OutKeeps.next | apply State.pbRequest_keeps | apply State.access_keeps | apply State.wr_keeps | apply OutKeeps.cond | apply Keeps.cond)
    | extract_lets | dsimp only | split

theorem State.pbFinish_keeps {r : State} {s : State} {result : Nat} (hk : Keeps r s) :
    Keeps r (State.pbFinish s result) := by
  unfold State.pbFinish
  repeat' first
    | intro _
    | (with_reducible first | assumption | exact Keeps.refl _ | apply State.pbEnd_keeps | apply State.pbStart_keeps)
    | extract_lets | dsimp only | split

theorem execPbTransactionDone_keeps {r : State} {nack : Bool} {data : BitVec 32} {s : State} (hk : Keeps r s) :
    OutKeeps r (execPbTransactionDone nack data s) := by
  unfold execPbTransactionDone
  repeat' first
    | intro _
    | (with_reducible first | assumption | exact Keeps.refl _ | apply OutKeeps.next | apply State.pbFinish_keeps | apply State.wr_keeps | apply Keeps.when | apply OutKeeps.cond | apply Keeps.cond)
    | extract_lets | dsimp only | split

theorem execPbTimeout_keeps {r : State} {s : State} (hk : Keeps r s) :
    OutKeeps r (execPbTimeout s) := by
  unfold execPbTimeout
  repeat' first
    | intro _
    | (with_reducible first | assumption | exact Keeps.refl _ | apply OutKeeps.next | apply State.pbFinish_keeps)
    | extract_lets

end Sys2Proof.Machine
end

