-- ==== Sys2Proof/Laws/KeepsHost.lean ====
section
/-!
SUPPORT. The operations of Host keep the queue and the invariant.
-/
set_option Elab.async false
set_option linter.all false
namespace Sys2Proof.Machine

theorem State.groupTrain_keeps {r : State} {s : State} {g : PortGroup} (hk : Keeps r s) :
    Keeps r (State.groupTrain s g) := by
  unfold State.groupTrain
  repeat' first
    | intro _
    | (with_reducible first | assumption | exact Keeps.refl _ | apply State.wr_keeps | apply State.hifToTrain_keeps | apply Keeps.each | apply Keeps.cond)
    | extract_lets | dsimp only | split

theorem State.ehmFallback_keeps {r : State} {s : State} {g : PortGroup} (hk : Keeps r s) :
    Keeps r (State.ehmFallback s g) := by
  unfold State.ehmFallback
  repeat' first
    | intro _
    | (with_reducible first | assumption | exact Keeps.refl _ | apply State.setEhm_keeps | apply State.bump_keeps | apply State.raise_keeps | apply State.wr_keeps | apply State.groupTrain_keeps)
    | extract_lets | split

theorem State.ehmSwitch_keeps {r : State} {s : State} {g : PortGroup} (hk : Keeps r s) :
    Keeps r (State.ehmSwitch s g) := by
  unfold State.ehmSwitch
  repeat' first
    | intro _
    | (with_reducible first | assumption | exact Keeps.refl _ | apply State.setEhm_keeps | apply State.wr_keeps | apply State.hifSet_keeps | apply State.hifTrainStart_keeps | apply State.hifOff_keeps | apply Keeps.each | apply Keeps.cond)
    | extract_lets | dsimp only | split

theorem State.groupTrained_keeps {r : State} {s : State} {g : PortGroup} (hk : Keeps r s) :
    Keeps r (State.groupTrained s g) := by
  unfold State.groupTrained
  repeat' first
    | intro _
    | (with_reducible first | assumption | exact Keeps.refl _ | apply State.setEhm_keeps | apply State.raise_keeps | apply State.wr_keeps | apply State.hifToAlign_keeps | apply State.ehmSwitch_keeps | apply Keeps.each | apply Keeps.cond)
    | extract_lets | dsimp only | split

theorem State.hifEnableOn_keeps {r : State} {s : State} {h : Nat} (hk : Keeps r s) :
    Keeps r (State.hifEnableOn s h) := by
  unfold State.hifEnableOn
  repeat' first
    | intro _
    | (with_reducible first | assumption | exact Keeps.refl _ | apply State.wr_keeps | apply State.hifStart_keeps | apply Keeps.cond)
    | extract_lets | split

theorem execHifEnable_keeps {r : State} {h : HostLane} {s : State} (hk : Keeps r s) :
    OutKeeps r (execHifEnable h s) := by
  unfold execHifEnable
  repeat' first
    | intro _
    | (with_reducible first | assumption | exact Keeps.refl _ | apply OutKeeps.next | apply State.access_keeps | apply State.wr_keeps | apply State.hostService_keeps | apply State.hifEnableOn_keeps | apply Keeps.when)
    | extract_lets | dsimp only | split

theorem execHifDisable_keeps {r : State} {h : HostLane} {s : State} (hk : Keeps r s) :
    OutKeeps r (execHifDisable h s) := by
  unfold execHifDisable
  repeat' first
    | intro _
    | (with_reducible first | assumption | exact Keeps.refl _ | apply OutKeeps.next | apply State.access_keeps | apply State.wr_keeps | apply State.hifOff_keeps | apply State.clearLastings_keeps | apply State.ehmReset_keeps | apply Keeps.when | apply OptKeeps.getD)
    | extract_lets | dsimp only | split
    | (with_reducible first | apply Keeps.other)

theorem State.hifRetrainNow_keeps {r : State} {s : State} {h : Nat} (hk : Keeps r s) :
    Keeps r (State.hifRetrainNow s h) := by
  unfold State.hifRetrainNow
  repeat' first
    | intro _
    | (with_reducible first | assumption | exact Keeps.refl _ | apply State.wr_keeps | apply State.setEhm_keeps | apply State.groupTrain_keeps | apply State.hifToTrain_keeps | apply Keeps.cond)
    | extract_lets | dsimp only | split

theorem execHifRetrain_keeps {r : State} {h : HostLane} {s : State} (hk : Keeps r s) :
    OutKeeps r (execHifRetrain h s) := by
  unfold execHifRetrain
  repeat' first
    | intro _
    | (with_reducible first | assumption | exact Keeps.refl _ | apply OutKeeps.next | apply State.access_keeps | apply State.hostService_keeps | apply State.hifRetrainNow_keeps)
    | extract_lets | dsimp only | split

theorem State.hifCommitNow_keeps {r : State} {s : State} {h : Nat} (hk : Keeps r s) :
    Keeps r (State.hifCommitNow s h) := by
  unfold State.hifCommitNow
  repeat' first
    | intro _
    | (with_reducible first | assumption | exact Keeps.refl _ | apply State.wr_keeps | apply State.raise_keeps | apply State.hifApply_keeps | apply Keeps.cond)
    | extract_lets | split

theorem execHifCommit_keeps {r : State} {h : HostLane} {s : State} (hk : Keeps r s) :
    OutKeeps r (execHifCommit h s) := by
  unfold execHifCommit
  repeat' first
    | intro _
    | (with_reducible first | assumption | exact Keeps.refl _ | apply OutKeeps.next | apply State.access_keeps | apply State.hostService_keeps | apply State.hifCommitNow_keeps)
    | extract_lets | dsimp only | split

theorem State.slipSkew_keeps {r : State} {s : State} {n : Nat} (hk : Keeps r s) :
    Keeps r (State.slipSkew s n) := by
  unfold State.slipSkew
  repeat' first
    | intro _
    | (with_reducible first | assumption | exact Keeps.refl _ | apply State.wrInt_keeps | apply Keeps.when)
    | extract_lets | dsimp only | split

theorem execHifSlip_keeps {r : State} {h : HostLane} {s : State} (hk : Keeps r s) :
    OutKeeps r (execHifSlip h s) := by
  unfold execHifSlip
  repeat' first
    | intro _
    | (with_reducible first | assumption | exact Keeps.refl _ | apply OutKeeps.next | apply State.access_keeps | apply State.raise_keeps | apply State.wr_keeps | apply State.slipSkew_keeps | apply OutKeeps.cond | apply Keeps.cond)
    | extract_lets | dsimp only | split

theorem execAlignDoneWrite_keeps {r : State} {h : HostLane} {s : State} (hk : Keeps r s) :
    OutKeeps r (execAlignDoneWrite h s) := by
  unfold execAlignDoneWrite
  repeat' first
    | intro _
    | (with_reducible first | assumption | exact Keeps.refl _ | apply OutKeeps.next | apply State.access_keeps | apply State.wr_keeps | apply State.hifSet_keeps | apply Keeps.each | apply OutKeeps.cond | apply Keeps.cond)
    | extract_lets | dsimp only | split

theorem execHifCntClr_keeps {r : State} {h : HostLane} {s : State} (hk : Keeps r s) :
    OutKeeps r (execHifCntClr h s) := by
  unfold execHifCntClr
  repeat' first
    | intro _
    | (with_reducible first | assumption | exact Keeps.refl _ | apply OutKeeps.next | apply State.access_keeps | apply State.clear_keeps)
    | extract_lets | dsimp only | split

theorem execHifGlbCntClr_keeps {r : State} {s : State} (hk : Keeps r s) :
    OutKeeps r (execHifGlbCntClr s) := by
  unfold execHifGlbCntClr
  repeat' first
    | intro _
    | (with_reducible first | assumption | exact Keeps.refl _ | apply OutKeeps.next | apply State.access_keeps | apply State.wr_keeps | apply Keeps.each)
    | extract_lets | dsimp only | split

theorem execHostCalDone_keeps {r : State} {h : HostLane} {linRx linTx : BitVec 1024} {s : State} (hk : Keeps r s) :
    OutKeeps r (execHostCalDone h linRx linTx s) := by
  unfold execHostCalDone
  repeat' first
    | intro _
    | (with_reducible first | assumption | exact Keeps.refl _ | apply OutKeeps.next | apply State.linMeasured_keeps | apply State.wr_keeps | apply State.hifToTrain_keeps | apply OutKeeps.cond | apply Keeps.cond)
    | extract_lets | split

theorem execHostCalTimeout_keeps {r : State} {h : HostLane} {s : State} (hk : Keeps r s) :
    OutKeeps r (execHostCalTimeout h s) := by
  unfold execHostCalTimeout
  repeat' first
    | intro _
    | (with_reducible first | assumption | exact Keeps.refl _ | apply OutKeeps.next | apply State.hifFault_keeps | apply OutKeeps.cond | apply Keeps.cond)
    | extract_lets | split

theorem execTrainingFrameRx_keeps {r : State} {h : HostLane} {req : TrainReq} {advertises : Bool} {s : State} (hk : Keeps r s) :
    OutKeeps r (execTrainingFrameRx h req advertises s) := by
  unfold execTrainingFrameRx
  repeat' first
    | intro _
    | (with_reducible first | assumption | exact Keeps.refl _ | apply OutKeeps.next | apply State.wr_keeps | apply State.hifSetTap_keeps | apply Keeps.each | apply Keeps.when | apply OutKeeps.cond | apply Keeps.cond | apply Keeps.cond_snd | apply OptKeeps.getD)
    | extract_lets | dsimp only | split

theorem State.hifTuneEnd_keeps {r : State} {s : State} {h : Nat} (hk : Keeps r s) :
    Keeps r (State.hifTuneEnd s h) := by
  unfold State.hifTuneEnd
  repeat' first
    | intro _
    | (with_reducible first | assumption | exact Keeps.refl _ | apply State.puts_keeps | apply State.wrb_keeps)
    | extract_lets | split

theorem State.hifTuneAsk_keeps {r : State} {s : State} {h kind : Nat} {next : State → State} (hgnext : ∀ u, Keeps r u → Keeps r (next u)) (hk : Keeps r s) :
    Keeps r (State.hifTuneAsk s h kind next) := by
  unfold State.hifTuneAsk
  repeat' first
    | intro _
    | (with_reducible first | apply hgnext | assumption | exact Keeps.refl _ | apply State.hifTuneEnd_keeps | apply State.bump_keeps | apply State.puts_keeps | apply Keeps.cond | apply OptKeeps.getD)
    | extract_lets | split

theorem State.hifTuneTry_keeps {r : State} {s : State} {h : Nat} (hk : Keeps r s) :
    Keeps r (State.hifTuneTry s h) := by
  unfold State.hifTuneTry
  repeat' first
    | intro _
    | (with_reducible first | assumption | exact Keeps.refl _ | apply State.hifTuneAsk_keeps | apply State.wr_keeps)
    | extract_lets | dsimp only | split

theorem State.hifTuneNext_keeps {r : State} {s : State} {h : Nat} (hk : Keeps r s) :
    Keeps r (State.hifTuneNext s h) := by
  unfold State.hifTuneNext
  repeat' first
    | intro _
    | (with_reducible first | assumption | exact Keeps.refl _ | apply State.hifTuneEnd_keeps | apply State.wr_keeps | apply State.hifTuneTry_keeps | apply Keeps.when | apply Keeps.cond)
    | extract_lets | dsimp only | split

theorem State.hifTuneStep_keeps {r : State} {s : State} {h : Nat} (hk : Keeps r s) :
    Keeps r (State.hifTuneStep s h) := by
  unfold State.hifTuneStep
  repeat' first
    | intro _
    | (with_reducible first | assumption | exact Keeps.refl _ | apply State.puts_keeps | apply State.hifTuneNext_keeps | apply State.hifTuneAsk_keeps | apply State.wr_keeps | apply Keeps.cond)
    | extract_lets | dsimp only | split

theorem State.hifTuneFirst_keeps {r : State} {s : State} {h : Nat} (hk : Keeps r s) :
    Keeps r (State.hifTuneFirst s h) := by
  unfold State.hifTuneFirst
  repeat' first
    | intro _
    | (with_reducible first | assumption | exact Keeps.refl _ | apply State.wr_keeps | apply State.hifTuneTry_keeps)
    | extract_lets | split

theorem State.hifSweepStep_keeps {r : State} {s : State} {h : Nat} (hk : Keeps r s) :
    Keeps r (State.hifSweepStep s h) := by
  unfold State.hifSweepStep
  repeat' first
    | intro _
    | (with_reducible first | assumption | exact Keeps.refl _ | apply State.puts_keeps | apply State.wr_keeps | apply State.hifTuneEnd_keeps | apply Keeps.when | apply Keeps.cond)
    | extract_lets | dsimp only | split

theorem State.hifDfe_keeps {r : State} {s : State} {h : Nat} {accD1 accD2 : Int} (hk : Keeps r s) :
    Keeps r (State.hifDfe s h accD1 accD2) := by
  unfold State.hifDfe
  repeat' first
    | intro _
    | (with_reducible first | assumption | exact Keeps.refl _ | apply State.puts_keeps | apply State.wrInt_keeps | apply Keeps.cond)
    | extract_lets | split

theorem State.hifVgaStep_keeps {r : State} {s : State} {h : Nat} {err : Int} (hk : Keeps r s) :
    Keeps r (State.hifVgaStep s h err) := by
  unfold State.hifVgaStep
  repeat' first
    | intro _
    | (with_reducible first | assumption | exact Keeps.refl _ | apply State.wr_keeps | apply Keeps.cond)
    | extract_lets | split

theorem State.hifTrainWindow_keeps {r : State} {s : State} {h : Nat} {acked : Bool} (hk : Keeps r s) :
    Keeps r (State.hifTrainWindow s h acked) := by
  unfold State.hifTrainWindow
  repeat' first
    | intro _
    | (with_reducible first | assumption | exact Keeps.refl _ | apply State.hifAskPreset_keeps | apply State.hifSweepStep_keeps | apply State.hifTuneFirst_keeps | apply State.hifTuneStep_keeps | apply State.wrb_keeps | apply Keeps.when | apply Keeps.cond)
    | extract_lets | dsimp only | split

theorem execHostFomWindowEnd_keeps {r : State} {h : HostLane} {errSq : Nat} {acked : Bool} {lvl accD1 accD2 : Int} {s : State} (hk : Keeps r s) :
    OutKeeps r (execHostFomWindowEnd h errSq acked lvl accD1 accD2 s) := by
  unfold execHostFomWindowEnd
  repeat' first
    | intro _
    | (with_reducible first | assumption | exact Keeps.refl _ | apply OutKeeps.next | apply State.fomOf_keeps | apply State.puts_keeps | apply State.hifDfe_keeps | apply State.hifVgaStep_keeps | apply State.hifTrainWindow_keeps | apply OutKeeps.cond | apply Keeps.cond | apply Keeps.cond_snd)
    | extract_lets | dsimp only | split

theorem execTrainingComplete_keeps {r : State} {h : HostLane} {s : State} (hk : Keeps r s) :
    OutKeeps r (execTrainingComplete h s) := by
  unfold execTrainingComplete
  repeat' first
    | intro _
    | (with_reducible first | assumption | exact Keeps.refl _ | apply OutKeeps.next | apply State.wr_keeps | apply State.raise_keeps | apply State.hifToAlign_keeps | apply State.groupTrained_keeps | apply State.setEhm_keeps | apply Keeps.when | apply OutKeeps.cond | apply Keeps.cond)
    | extract_lets | dsimp only | split

theorem execTrainingAttemptFail_keeps {r : State} {h : HostLane} {s : State} (hk : Keeps r s) :
    OutKeeps r (execTrainingAttemptFail h s) := by
  unfold execTrainingAttemptFail
  repeat' first
    | intro _
    | (with_reducible first | assumption | exact Keeps.refl _ | apply OutKeeps.next | apply State.ehmFallback_keeps | apply State.bump_keeps | apply State.raise_keeps | apply State.hifFault_keeps | apply State.wr_keeps | apply State.hifTrainStart_keeps | apply OutKeeps.cond | apply Keeps.cond | apply OptKeeps.getD)
    | extract_lets | split

theorem execEhmTrainTimeout_keeps {r : State} {n : Lane} {s : State} (hk : Keeps r s) :
    OutKeeps r (execEhmTrainTimeout n s) := by
  unfold execEhmTrainTimeout
  repeat' first
    | intro _
    | (with_reducible first | assumption | exact Keeps.refl _ | apply OutKeeps.next | apply State.ehmFallback_keeps | apply OutKeeps.cond | apply Keeps.cond)
    | extract_lets | split

theorem State.deskewPut_keeps {r : State} {s : State} {a b : Nat} {k : Int} (hk : Keeps r s) :
    Keeps r (State.deskewPut s a b k) := by
  unfold State.deskewPut
  repeat' first
    | intro _
    | (with_reducible first | assumption | exact Keeps.refl _ | apply State.wr_keeps)
    | extract_lets | split

theorem State.pairSkew_keeps {r : State} {s : State} {n : Nat} (hk : Keeps r s) :
    Keeps r (State.pairSkew s n) := by
  unfold State.pairSkew
  repeat' first
    | intro _
    | (with_reducible first | assumption | exact Keeps.refl _ | apply State.wrInt_keeps | apply State.wr_keeps | apply State.raise_keeps | apply State.hifFault_keeps | apply State.pairFollow_keeps | apply State.wrb_keeps | apply State.deskewPut_keeps | apply Keeps.when | apply Keeps.cond)
    | extract_lets | dsimp only | split

theorem State.pairGearbox_keeps {r : State} {s : State} {n : Nat} {wasReady : Bool} (hk : Keeps r s) :
    Keeps r (State.pairGearbox s n wasReady) := by
  unfold State.pairGearbox
  repeat' first
    | intro _
    | (with_reducible first | assumption | exact Keeps.refl _ | apply State.wr_keeps | apply Keeps.when)
    | extract_lets | dsimp only | split

theorem execAmPeriod_keeps {r : State} {h : HostLane} {errBits : Nat} {samePos : Bool} {arrival : Nat} {s : State} (hk : Keeps r s) :
    OutKeeps r (execAmPeriod h errBits samePos arrival s) := by
  unfold execAmPeriod
  repeat' first
    | intro _
    | (with_reducible first | assumption | exact Keeps.refl _ | apply OutKeeps.next | apply State.driftApply_keeps | apply State.puts_keeps | apply State.hifSet_keeps | apply State.wr_keeps | apply State.bump_keeps | apply State.raise_keeps | apply State.hifToAlign_keeps | apply State.pairSkew_keeps | apply State.pairGearbox_keeps | apply OutKeeps.cond | apply Keeps.cond)
    | extract_lets | dsimp only | split

theorem execAlignTimeout_keeps {r : State} {h : HostLane} {s : State} (hk : Keeps r s) :
    OutKeeps r (execAlignTimeout h s) := by
  unfold execAlignTimeout
  repeat' first
    | intro _
    | (with_reducible first | assumption | exact Keeps.refl _ | apply OutKeeps.next | apply State.hifFault_keeps | apply OutKeeps.cond | apply Keeps.cond | apply OptKeeps.getD)
    | extract_lets | split

theorem State.hifCdrLoss_keeps {r : State} {s : State} {h : Nat} (hk : Keeps r s) :
    Keeps r (State.hifCdrLoss s h) := by
  unfold State.hifCdrLoss
  repeat' first
    | intro _
    | (with_reducible first | assumption | exact Keeps.refl _ | apply State.wr_keeps | apply State.bump_keeps | apply State.raise_keeps | apply State.hifRelock_keeps | apply State.faultEvent_keeps | apply Keeps.cond)
    | extract_lets | split

theorem State.hifCdrRun_keeps {r : State} {s : State} {h : Nat} {errs : List Int} (hk : Keeps r s) :
    Keeps r (State.hifCdrRun s h errs).1 := by
  unfold State.hifCdrRun
  repeat' first
    | intro _
    | (with_reducible first | assumption | exact Keeps.refl _ | apply State.wrInt_keeps)
    | extract_lets | dsimp only | split

theorem State.hifCdrLocked_keeps {r : State} {s : State} {h : Nat} (hk : Keeps r s) :
    Keeps r (State.hifCdrLocked s h) := by
  unfold State.hifCdrLocked
  repeat' first
    | intro _
    | (with_reducible first | assumption | exact Keeps.refl _ | apply State.puts_keeps | apply State.hifAmDone_keeps | apply Keeps.cond)
    | extract_lets | split

theorem execHostCdrLockInterval_keeps {r : State} {h : HostLane} {errs : List Int} {s : State} (hk : Keeps r s) :
    OutKeeps r (execHostCdrLockInterval h errs s) := by
  unfold execHostCdrLockInterval
  repeat' first
    | intro _
    | (with_reducible first | assumption | exact Keeps.refl _ | apply OutKeeps.next | apply State.hifCdrRun_keeps | apply State.puts_keeps | apply State.hifCdrLoss_keeps | apply State.hifCdrLocked_keeps | apply State.wr_keeps | apply OutKeeps.cond | apply Keeps.cond | apply Keeps.cond_snd)
    | extract_lets | dsimp only | split

theorem execRelockTimeout_keeps {r : State} {h : HostLane} {s : State} (hk : Keeps r s) :
    OutKeeps r (execRelockTimeout h s) := by
  unfold execRelockTimeout
  repeat' first
    | intro _
    | (with_reducible first | assumption | exact Keeps.refl _ | apply OutKeeps.next | apply State.hifFault_keeps | apply OutKeeps.cond | apply Keeps.cond)
    | extract_lets | split

theorem execHostFaultAutoRestart_keeps {r : State} {h : HostLane} {s : State} (hk : Keeps r s) :
    OutKeeps r (execHostFaultAutoRestart h s) := by
  unfold execHostFaultAutoRestart
  repeat' first
    | intro _
    | (with_reducible first | assumption | exact Keeps.refl _ | apply OutKeeps.next | apply State.hifToCal_keeps | apply State.hifRelock_keeps | apply State.hifToTrain_keeps | apply OutKeeps.cond | apply Keeps.cond)
    | extract_lets | dsimp only | split

theorem execHostSleepWake_keeps {r : State} {h : HostLane} {tx ok relocked recOk : Bool} {s : State} (hk : Keeps r s) :
    OutKeeps r (execHostSleepWake h tx ok relocked recOk s) := by
  unfold execHostSleepWake
  repeat' first
    | intro _
    | (with_reducible first | assumption | exact Keeps.refl _ | apply OutKeeps.next | apply State.recordBad_keeps | apply State.hifToCal_keeps | apply State.puts_keeps | apply State.raise_keeps | apply State.bump_keeps | apply State.hifToAlign_keeps | apply State.wr_keeps | apply State.hifToTrain_keeps | apply OutKeeps.cond | apply Keeps.cond)
    | extract_lets | split

theorem execRsCodewordMonitor_keeps {r : State} {n : Lane} {egress inRange : Bool} {symErr : Option (Fin 16)} {s : State} (hk : Keeps r s) :
    OutKeeps r (execRsCodewordMonitor n egress inRange symErr s) := by
  unfold execRsCodewordMonitor
  repeat' first
    | intro _
    | (with_reducible first | assumption | exact Keeps.refl _ | apply OutKeeps.next | apply State.wr_keeps | apply State.raise_keeps | apply State.bump_keeps | apply Keeps.when | apply OutKeeps.cond | apply Keeps.cond)
    | extract_lets | dsimp only | split

end Sys2Proof.Machine
end

