-- ==== Sys2Proof/Laws/KeepsCommitOps.lean ====
section
/-!
SUPPORT. The operations of CommitOps keep the queue and the invariant.
-/
set_option Elab.async false
set_option linter.all false
namespace Sys2Proof.Machine

theorem State.loadSteal_keeps {r : State} {s : State} {i : Image} {n : Nat} (hk : Keeps r s) :
    Keeps r (State.loadSteal s i n) := by
  unfold State.loadSteal
  repeat' first
    | intro _
    | (with_reducible first | assumption | exact Keeps.refl _ | apply State.puts_keeps | apply Keeps.each)
    | extract_lets | dsimp only

theorem State.loadLane_keeps {r : State} {s : State} {i : Image} {n : Nat} (hk : Keeps r s) :
    Keeps r (State.loadLane s i n) := by
  unfold State.loadLane
  repeat' first
    | intro _
    | (with_reducible first | assumption | exact Keeps.refl _ | apply State.puts_keeps | apply State.wr_keeps | apply State.wrb_keeps | apply Keeps.cond | apply Keeps.cond_snd | apply OptKeeps.getD)
    | extract_lets | dsimp only | split

theorem State.loadSkipped_keeps {r : State} {s : State} {i : Image} (hk : Keeps r s) :
    Keeps r (State.loadSkipped s i) := by
  unfold State.loadSkipped
  repeat' first
    | intro _
    | (with_reducible first | assumption | exact Keeps.refl _ | apply State.wr_keeps | apply State.raise_keeps | apply Keeps.when)
    | extract_lets | dsimp only

theorem State.remapHosts_keeps {r : State} {s : State} {old : State} {g : PortGroup} (hk : Keeps r s) :
    Keeps r (State.remapHosts s old g) := by
  unfold State.remapHosts
  repeat' first
    | intro _
    | (with_reducible first | assumption | exact Keeps.refl _ | apply State.setEhm_keeps | apply State.wr_keeps | apply State.groupTrain_keeps | apply State.hifOff_keeps | apply State.hifReturn_keeps | apply State.hifToAlign_keeps | apply State.hifTrainStart_keeps | apply Keeps.each | apply Keeps.when | apply Keeps.cond)
    | extract_lets | dsimp only | split

theorem State.pcTables_keeps {r : State} {s : State} {i : Image} (hk : Keeps r s) :
    Keeps r (State.pcTables s i) := by
  unfold State.pcTables
  repeat' first
    | intro _
    | (with_reducible first | assumption | exact Keeps.refl _ | apply State.loadLane_keeps | apply State.remapHosts_keeps | apply State.pairFollow_keeps | apply Keeps.each)
    | extract_lets | dsimp only

theorem State.pcFinish_keeps {r : State} {s : State} (hk : Keeps r s) :
    Keeps r (State.pcFinish s) := by
  unfold State.pcFinish
  repeat' first
    | intro _
    | (with_reducible first | assumption | exact Keeps.refl _ | apply State.loadSteal_keeps | apply State.wr_keeps | apply State.homeLow_keeps | apply State.bump_keeps | apply State.puts_keeps | apply State.loadSkipped_keeps | apply State.imgEnd_keeps | apply Keeps.each)
    | extract_lets | dsimp only | split

end Sys2Proof.Machine
end

