-- ==== Sys2Proof/Laws/KeepsThermal.lean ====
section
/-!
SUPPORT. The operations of Thermal keep the queue and the invariant.
-/
set_option Elab.async false
set_option linter.all false
namespace Sys2Proof.Machine

theorem State.rcStep_keeps {r : State} {s : State} {power : Nat → Int} (hk : Keeps r s) :
    Keeps r (State.rcStep s power) := by
  unfold State.rcStep
  repeat' first
    | intro _
    | (with_reducible first | assumption | exact Keeps.refl _ | apply State.wrInt_keeps | apply Keeps.each)
    | extract_lets | dsimp only

theorem State.thmSet_keeps {r : State} {s : State} {st : Nat} (hk : Keeps r s) :
    Keeps r (State.thmSet s st) := by
  unfold State.thmSet
  repeat' first
    | intro _
    | (with_reducible first | assumption | exact Keeps.refl _ | apply State.wr_keeps | apply State.emit_keeps | apply Keeps.cond)
    | extract_lets | split

theorem State.sensorBroken_keeps {r : State} {s : State} {islands : List Nat} (hk : Keeps r s) :
    Keeps r (State.sensorBroken s islands) := by
  unfold State.sensorBroken
  repeat' first
    | intro _
    | (with_reducible first | assumption | exact Keeps.refl _ | apply State.wr_keeps | apply State.bump_keeps | apply State.raise_keeps | apply Keeps.each)
    | extract_lets | dsimp only

theorem State.critStandby_keeps {r : State} {s : State} (hk : Keeps r s) :
    Keeps r (State.critStandby s) := by
  unfold State.critStandby
  repeat' first
    | intro _
    | (with_reducible first | assumption | exact Keeps.refl _ | apply State.wr_keeps | apply State.pcFinish_keeps | apply State.pcAbort_keeps | apply State.standbyEnter_keeps | apply State.puts_keeps | apply State.abortTests_keeps | apply Keeps.cond)
    | extract_lets | split

theorem State.critical_keeps {r : State} {s : State} (hk : Keeps r s) :
    Keeps r (State.critical s) := by
  unfold State.critical
  repeat' first
    | intro _
    | (with_reducible first | assumption | exact Keeps.refl _ | apply State.ltxFault_keeps | apply State.puts_keeps | apply State.bump_keeps | apply State.raise_keeps | apply State.thmSet_keeps | apply State.wr_keeps | apply State.critStandby_keeps | apply Keeps.each | apply Keeps.cond)
    | extract_lets | dsimp only | split

theorem State.critClear_keeps {r : State} {s : State} (hk : Keeps r s) :
    Keeps r (State.critClear s) := by
  unfold State.critClear
  repeat' first
    | intro _
    | (with_reducible first | assumption | exact Keeps.refl _ | apply State.puts_keeps | apply State.raise_keeps | apply State.wr_keeps | apply State.thmSet_keeps | apply State.dvfsKick_keeps | apply State.standbyRelease_keeps | apply Keeps.each | apply Keeps.cond)
    | extract_lets | dsimp only | split
    | (with_reducible first | apply Keeps.other)

theorem execCritClr_keeps {r : State} {s : State} (hk : Keeps r s) :
    OutKeeps r (execCritClr s) := by
  unfold execCritClr
  repeat' first
    | intro _
    | (with_reducible first | assumption | exact Keeps.refl _ | apply OutKeeps.next | apply State.access_keeps | apply State.critClear_keeps | apply OutKeeps.cond | apply Keeps.cond)
    | extract_lets | dsimp only | split

theorem execCritAutoClear_keeps {r : State} {s : State} (hk : Keeps r s) :
    OutKeeps r (execCritAutoClear s) := by
  unfold execCritAutoClear
  repeat' first
    | intro _
    | (with_reducible first | assumption | exact Keeps.refl _ | apply OutKeeps.next | apply State.critClear_keeps | apply OutKeeps.cond | apply Keeps.cond)
    | extract_lets | split

theorem State.stepTaken_keeps {r : State} {s : State} {k : StepKind} {n old : Nat} (hk : Keeps r s) :
    Keeps r (State.stepTaken s k n old) := by
  unfold State.stepTaken
  repeat' first
    | intro _
    | (with_reducible first | assumption | exact Keeps.refl _ | apply State.bump_keeps | apply State.raise_keeps)
    | extract_lets
    | (with_reducible first | apply Keeps.other)

theorem State.stepOn_keeps {r s : State} {n : Nat} (hk : Keeps r s) : OptKeeps r (s.stepOn n) := by
  unfold State.stepOn
  split
  · exact OptKeeps.none
  · extract_lets prof forced
    have hf : OptKeeps r forced := by
      dsimp only [forced]
      split
      · exact State.profForce_keeps hk
      · exact OptKeeps.none
    clear_value forced
    split
    · have ht := OptKeeps.elim hf rfl
      apply OptKeeps.some
      refine State.stepTaken_keeps (State.wr_keeps (Keeps.when ht (fun u hu => State.wr_keeps hu)))
    · refine OptKeeps.cond ?_ ?_
      · exact OptKeeps.some (State.stepTaken_keeps (State.dvfsKick_keeps (State.wr_keeps hk)))
      · exact OptKeeps.some (State.stepTaken_keeps (Keeps.each (State.lrxOff_keeps (State.wr_keeps hk))
          (fun h u hu => State.hifOff_keeps hu)))

theorem OptKeeps.findSome {α : Type} {r : State} {l : List α} {f : α → Option State} (hf : ∀ a, OptKeeps r (f a)) :
    OptKeeps r (l.findSome? f) := by
  induction l with
  | nil => exact OptKeeps.none
  | cons a l ih =>
    have ha := hf a
    unfold List.findSome?
    split
    · rename_i h; rw [h] at ha; exact ha
    · exact ih

theorem State.enforce_keeps {r s : State} (hk : Keeps r s) : Keeps r s.enforce := by
  unfold State.enforce
  split
  · exact State.wr_keeps hk
  · with_reducible refine OptKeeps.getD ?_ hk
    with_reducible apply OptKeeps.findSome
    intro n
    exact State.stepOn_keeps hk

theorem execGraceExpiry_keeps {r : State} {s : State} (hk : Keeps r s) :
    OutKeeps r (execGraceExpiry s) := by
  unfold execGraceExpiry
  repeat' first
    | intro _
    | (with_reducible first | assumption | exact Keeps.refl _ | apply OutKeeps.next | apply State.thmSet_keeps | apply State.enforce_keeps | apply OutKeeps.cond | apply Keeps.cond)
    | extract_lets | split

theorem execThrottleStep_keeps {r : State} {s : State} (hk : Keeps r s) :
    OutKeeps r (execThrottleStep s) := by
  unfold execThrottleStep
  repeat' first
    | intro _
    | (with_reducible first | assumption | exact Keeps.refl _ | apply OutKeeps.next | apply State.enforce_keeps | apply OutKeeps.cond | apply Keeps.cond)
    | extract_lets | split

theorem State.undo_keeps {r s : State} (hk : Keeps r s) : OptKeeps r s.undo := by
  unfold State.undo
  split
  · exact OptKeeps.none
  · rename_i n old l h
    have hf : OptKeeps r (s.profForce n old) := State.profForce_keeps hk
    cases hq : s.profForce n old with
    | none => exact OptKeeps.none
    | some t => exact OptKeeps.some (State.raise_keeps (Keeps.other (State.wr_keeps (OptKeeps.elim hf hq))))
  · exact OptKeeps.some (State.raise_keeps (State.dvfsKick_keeps (State.wr_keeps (Keeps.other hk))))
  · extract_lets s1 s2 s3 s4
    refine OptKeeps.some (State.raise_keeps (Keeps.each (Keeps.when (Keeps.each (State.setDomain_keeps (State.wr_keeps
      (Keeps.other hk))) ?_) ?_) ?_))
    · intro h u hu
      exact Keeps.when hu (fun v hv => State.setDomain_keeps hv)
    · exact fun u hu => State.lrxEnableOn_keeps hu
    · intro h u hu
      exact Keeps.when hu (fun v hv => State.hifEnableOn_keeps hv)

theorem State.thmSettle_keeps {r : State} {s : State} (hk : Keeps r s) :
    Keeps r (State.thmSettle s) := by
  unfold State.thmSettle
  repeat' first
    | intro _
    | (with_reducible first | assumption | exact Keeps.refl _ | apply State.thmSet_keeps | apply Keeps.cond)
    | extract_lets | split

theorem execRecoverExpiry_keeps {r : State} {s : State} (hk : Keeps r s) :
    OutKeeps r (execRecoverExpiry s) := by
  unfold execRecoverExpiry
  repeat' first
    | intro _
    | (with_reducible first | assumption | exact Keeps.refl _ | apply OutKeeps.next | apply State.undo_keeps | apply State.thmSettle_keeps | apply OutKeeps.cond | apply Keeps.cond | apply OptKeeps.getD)
    | extract_lets | split | (with_reducible refine OptKeeps.elim (State.undo_keeps ?_) (by assumption))

theorem State.undoAll_keeps {r s : State} {k : Nat} (hk : Keeps r s) : Keeps r (s.undoAll k) := by
  induction k generalizing s with
  | zero => exact hk
  | succ k ih =>
    unfold State.undoAll
    split
    · exact ih (OptKeeps.elim (State.undo_keeps hk) (by assumption))
    · exact hk

theorem execRestore_keeps {r : State} {s : State} (hk : Keeps r s) :
    OutKeeps r (execRestore s) := by
  unfold execRestore
  repeat' first
    | intro _
    | (with_reducible first | assumption | exact Keeps.refl _ | apply OutKeeps.next | apply State.access_keeps | apply State.undoAll_keeps | apply State.thmSettle_keeps | apply OutKeeps.cond | apply Keeps.cond)
    | extract_lets | dsimp only | split

theorem State.levelChange_keeps {r : State} {s : State} {k : Nat} {on : Bool} (hk : Keeps r s) :
    Keeps r (State.levelChange s k on) := by
  unfold State.levelChange
  repeat' first
    | intro _
    | (with_reducible first | assumption | exact Keeps.refl _ | apply State.wr_keeps | apply State.raise_keeps | apply State.cmis_keeps | apply State.bump_keeps | apply State.thmSet_keeps | apply State.critical_keeps | apply Keeps.cond)
    | extract_lets | dsimp only | split

theorem State.levelCheck_keeps {r : State} {s : State} {k : Nat} (hk : Keeps r s) :
    Keeps r (State.levelCheck s k) := by
  unfold State.levelCheck
  repeat' first
    | intro _
    | (with_reducible first | assumption | exact Keeps.refl _ | apply State.wr_keeps | apply State.levelChange_keeps | apply Keeps.cond)
    | extract_lets | split

theorem State.railRead_keeps {r : State} {s : State} {counts : List Nat} {k : Nat} {ma : Int} (hk : Keeps r s) :
    Keeps r (State.railRead s counts k ma) := by
  unfold State.railRead
  repeat' first
    | intro _
    | (with_reducible first | assumption | exact Keeps.refl _ | apply State.wr_keeps | apply State.sensorBroken_keeps | apply Keeps.when | apply Keeps.cond)
    | extract_lets | dsimp only | split

theorem State.islandReport_keeps {r : State} {s : State} {i : Nat} {mw : Int} (hk : Keeps r s) :
    Keeps r (State.islandReport s i mw) := by
  unfold State.islandReport
  repeat' first
    | intro _
    | (with_reducible first | assumption | exact Keeps.refl _ | apply State.wrInt_keeps | apply State.wr_keeps | apply Keeps.cond)
    | extract_lets | split

theorem execThermalModelUpdate_keeps {r : State} {counts : List Nat} {rails : List Int} {s : State} (hk : Keeps r s) :
    OutKeeps r (execThermalModelUpdate counts rails s) := by
  unfold execThermalModelUpdate
  repeat' first
    | intro _
    | (with_reducible first | assumption | exact Keeps.refl _ | apply OutKeeps.next | apply State.railRead_keeps | apply State.rcStep_keeps | apply State.islandReport_keeps | apply State.wrInt_keeps | apply State.wr_keeps | apply State.levelCheck_keeps | apply Keeps.each | apply Keeps.foldl | apply OutKeeps.cond | apply Keeps.cond | apply Keeps.cond_snd)
    | extract_lets | dsimp only | split

theorem State.diodeRead_keeps {r : State} {s : State} {k : Nat} {d : DiodeReading} (hk : Keeps r s) :
    Keeps r (State.diodeRead s k d) := by
  unfold State.diodeRead
  repeat' first
    | intro _
    | (with_reducible first | assumption | exact Keeps.refl _ | apply State.wrInt_keeps | apply State.wr_keeps | apply State.sensorBroken_keeps | apply State.critical_keeps | apply Keeps.cond)
    | extract_lets | dsimp only | split

theorem execDiodeMeasure_keeps {r : State} {ds : List DiodeReading} {s : State} (hk : Keeps r s) :
    OutKeeps r (execDiodeMeasure ds s) := by
  unfold execDiodeMeasure
  repeat' first
    | intro _
    | (with_reducible first | assumption | exact Keeps.refl _ | apply OutKeeps.next | apply State.diodeRead_keeps | apply Keeps.each | apply OutKeeps.cond | apply Keeps.cond | apply Keeps.cond_snd)
    | extract_lets | dsimp only | split

theorem execAonDiodeCompare_keeps {r : State} {temps : List Int} {s : State} (hk : Keeps r s) :
    OutKeeps r (execAonDiodeCompare temps s) := by
  unfold execAonDiodeCompare
  repeat' first
    | intro _
    | (with_reducible first | assumption | exact Keeps.refl _ | apply OutKeeps.next | apply State.critical_keeps | apply OutKeeps.cond | apply Keeps.cond)
    | extract_lets | dsimp only | split

theorem execAonThermalCrossing_keeps {r : State} {before after : Int} {s : State} (hk : Keeps r s) :
    OutKeeps r (execAonThermalCrossing before after s) := by
  unfold execAonThermalCrossing
  repeat' first
    | intro _
    | (with_reducible first | assumption | exact Keeps.refl _ | apply OutKeeps.next | apply State.wakeDevice_keeps | apply OutKeeps.cond | apply Keeps.cond)
    | extract_lets | split

theorem execThmCntClr_keeps {r : State} {s : State} (hk : Keeps r s) :
    OutKeeps r (execThmCntClr s) := by
  unfold execThmCntClr
  repeat' first
    | intro _
    | (with_reducible first | assumption | exact Keeps.refl _ | apply OutKeeps.next | apply State.access_keeps | apply State.clear_keeps)
    | extract_lets | dsimp only

end Sys2Proof.Machine
end

