-- ==== Sys2Proof/Laws/KeepsPower.lean ====
section
/-!
SUPPORT. The operations of Power keep the queue and the invariant.
-/
set_option Elab.async false
set_option linter.all false
namespace Sys2Proof.Machine

theorem State.setPhase_keeps {r : State} {s : State} {o : VoteObject} {p : Nat} (hk : Keeps r s) :
    Keeps r (State.setPhase s o p) := by
  unfold State.setPhase
  repeat' first
    | intro _
    | (with_reducible first | assumption | exact Keeps.refl _ | apply State.wr_keeps | apply Keeps.cond)
    | extract_lets | dsimp only | split

theorem State.recordRefusal_keeps {r : State} {s : State} {o : VoteObject} {v : Voter} {reason target : Nat} {late : Bool} (hk : Keeps r s) :
    Keeps r (State.recordRefusal s o v reason target late) := by
  unfold State.recordRefusal
  repeat' first
    | intro _
    | (with_reducible first | assumption | exact Keeps.refl _ | apply State.puts_keeps | apply State.bump_keeps | apply State.raise_keeps | apply State.emit_keeps | apply State.wr_keeps | apply Keeps.cond)
    | extract_lets | dsimp only | split

theorem State.voteStart_keeps {r : State} {s : State} {o : VoteObject} (hk : Keeps r s) :
    Keeps r (State.voteStart s o) := by
  unfold State.voteStart
  repeat' first
    | intro _
    | (with_reducible first | assumption | exact Keeps.refl _ | apply State.setPhase_keeps | apply State.wr_keeps | apply Keeps.when | apply Keeps.cond)
    | extract_lets | dsimp only | split

theorem State.deviceRequest_keeps {r : State} {s : State} {target : Nat} (hk : Keeps r s) :
    Keeps r (State.deviceRequest s target) := by
  unfold State.deviceRequest
  repeat' first
    | intro _
    | (with_reducible first | assumption | exact Keeps.refl _ | apply State.puts_keeps | apply State.voteStart_keeps)
    | extract_lets

theorem State.sleepRequest_keeps {r : State} {s : State} {n : Nat} {egress : Bool} (hk : Keeps r s) :
    Keeps r (State.sleepRequest s n egress) := by
  unfold State.sleepRequest
  repeat' first
    | intro _
    | (with_reducible first | assumption | exact Keeps.refl _ | apply State.wr_keeps | apply State.puts_keeps | apply State.voteStart_keeps | apply Keeps.when | apply Keeps.cond)
    | extract_lets | dsimp only | split

theorem execSleepRequest_keeps {r : State} {n : Lane} {egress : Bool} {s : State} (hk : Keeps r s) :
    OutKeeps r (execSleepRequest n egress s) := by
  unfold execSleepRequest
  repeat' first
    | intro _
    | (with_reducible first | assumption | exact Keeps.refl _ | apply OutKeeps.next | apply State.access_keeps | apply State.laneService_keeps | apply State.sleepRequest_keeps)
    | extract_lets | dsimp only

theorem execSleepRequestClear_keeps {r : State} {n : Lane} {egress : Bool} {s : State} (hk : Keeps r s) :
    OutKeeps r (execSleepRequestClear n egress s) := by
  unfold execSleepRequestClear
  repeat' first
    | intro _
    | (with_reducible first | assumption | exact Keeps.refl _ | apply OutKeeps.next | apply State.access_keeps | apply State.wr_keeps | apply State.wakeDir_keeps | apply OutKeeps.cond | apply Keeps.cond)
    | extract_lets | dsimp only | split
    | (with_reducible first | apply Keeps.other)

theorem State.budgetWake_keeps {r : State} {s : State} {n : Nat} {egress : Bool} (hk : Keeps r s) :
    Keeps r (State.budgetWake s n egress) := by
  unfold State.budgetWake
  repeat' first
    | intro _
    | (with_reducible first | assumption | exact Keeps.refl _ | apply State.wakeDir_keeps | apply State.trimEnd_keeps | apply State.wakeRecords_keeps | apply State.wakeLine_keeps | apply State.wakeHost_keeps | apply State.wr_keeps | apply Keeps.each | apply Keeps.when | apply Keeps.cond)
    | extract_lets | dsimp only | split

theorem execBudgetWrite_keeps {r : State} {n : Lane} {egress : Bool} {us : BitVec 16} {s : State} (hk : Keeps r s) :
    OutKeeps r (execBudgetWrite n egress us s) := by
  unfold execBudgetWrite
  repeat' first
    | intro _
    | (with_reducible first | assumption | exact Keeps.refl _ | apply OutKeeps.next | apply State.access_keeps | apply State.puts_keeps | apply State.budgetWake_keeps | apply State.voteStart_keeps | apply OutKeeps.cond | apply Keeps.cond)
    | extract_lets | dsimp only | split

theorem execVotePrepare_keeps {r : State} {obj : VoteObject} {s : State} (hk : Keeps r s) :
    OutKeeps r (execVotePrepare obj s) := by
  unfold execVotePrepare
  repeat' first
    | intro _
    | (with_reducible first | assumption | exact Keeps.refl _ | apply OutKeeps.next | apply State.voteStart_keeps | apply State.setPhase_keeps | apply State.recordRefusal_keeps | apply State.endTest_keeps | apply Keeps.each | apply OutKeeps.cond | apply Keeps.cond | apply OptKeeps.getD)
    | extract_lets | dsimp only | split
    | (with_reducible first | apply Keeps.other)

theorem execVoteTimeout_keeps {r : State} {obj : VoteObject} {block : Fin 9} {inst : Fin 16} {s : State} (hk : Keeps r s) :
    OutKeeps r (execVoteTimeout obj block inst s) := by
  unfold execVoteTimeout
  repeat' first
    | intro _
    | (with_reducible first | assumption | exact Keeps.refl _ | apply OutKeeps.next | apply State.recordRefusal_keeps | apply State.setPhase_keeps | apply OutKeeps.cond | apply Keeps.cond)
    | extract_lets | split

theorem State.commitBlock_keeps {r : State} {s : State} {st : SleepStep} (hk : Keeps r s) :
    Keeps r (State.commitBlock s st) := by
  unfold State.commitBlock
  repeat' first
    | intro _
    | (with_reducible first | assumption | exact Keeps.refl _ | apply State.lrxAbandon_keeps | apply State.trimEnd_keeps | apply State.puts_keeps | apply State.saveRecord_keeps | apply State.leqFollow_keeps | apply State.ltxAbandon_keeps | apply State.raise_keeps | apply State.maskDiscard_keeps | apply State.wr_keeps | apply Keeps.when | apply Keeps.cond)
    | extract_lets | dsimp only | split

theorem State.commitDevice_keeps {r : State} {s : State} {st : SleepStep} (hk : Keeps r s) :
    Keeps r (State.commitDevice s st) := by
  unfold State.commitDevice
  repeat' first
    | intro _
    | (with_reducible first | assumption | exact Keeps.refl _ | apply State.laneSave_keeps | apply State.lrxOff_keeps | apply State.ltxDisable_keeps | apply State.hifOff_keeps | apply Keeps.cond)
    | extract_lets | dsimp only | split

theorem State.voteEnd_keeps {r : State} {s : State} {o : VoteObject} {target : Nat} (hk : Keeps r s) :
    Keeps r (State.voteEnd s o target) := by
  unfold State.voteEnd
  repeat' first
    | intro _
    | (with_reducible first | assumption | exact Keeps.refl _ | apply State.setPhase_keeps | apply State.wr_keeps | apply State.deepEnter_keeps | apply State.standbyEnter_keeps | apply Keeps.when | apply Keeps.cond)
    | extract_lets | dsimp only | split
    | (with_reducible first | apply Keeps.other)

theorem State.refuseLate_keeps {r : State} {s : State} {o : VoteObject} {v : Vote} {who : Voter} {reason : Nat} (hk : Keeps r s) :
    Keeps r (State.refuseLate s o v who reason) := by
  unfold State.refuseLate
  repeat' first
    | intro _
    | (with_reducible first | assumption | exact Keeps.refl _ | apply State.wakeDone_keeps | apply State.recordRefusal_keeps | apply State.setPhase_keeps)
    | extract_lets | dsimp only
    | (with_reducible first | apply Keeps.other)

theorem execVoteCommitStep_keeps {r : State} {obj : VoteObject} {s : State} (hk : Keeps r s) :
    OutKeeps r (execVoteCommitStep obj s) := by
  unfold execVoteCommitStep
  repeat' first
    | intro _
    | (with_reducible first | assumption | exact Keeps.refl _ | apply OutKeeps.next | apply State.voteEnd_keeps | apply State.refuseLate_keeps | apply State.commitDevice_keeps | apply State.commitBlock_keeps | apply OutKeeps.cond | apply Keeps.cond)
    | extract_lets | dsimp only | split
    | (with_reducible first | apply Keeps.other)

theorem execLateRefusal_keeps {r : State} {obj : VoteObject} {block : Fin 9} {inst : Fin 16} {s : State} (hk : Keeps r s) :
    OutKeeps r (execLateRefusal obj block inst s) := by
  unfold execLateRefusal
  repeat' first
    | intro _
    | (with_reducible first | assumption | exact Keeps.refl _ | apply OutKeeps.next | apply State.refuseLate_keeps)
    | extract_lets | dsimp only | split

theorem execSleepRetry_keeps {r : State} {obj : VoteObject} {s : State} (hk : Keeps r s) :
    OutKeeps r (execSleepRetry obj s) := by
  unfold execSleepRetry
  repeat' first
    | intro _
    | (with_reducible first | assumption | exact Keeps.refl _ | apply OutKeeps.next | apply State.wr_keeps | apply State.voteStart_keeps | apply State.raise_keeps | apply OutKeeps.cond | apply Keeps.cond)
    | extract_lets | dsimp only | split

theorem execTrimEntry_keeps {r : State} {n : Lane} {s : State} (hk : Keeps r s) :
    OutKeeps r (execTrimEntry n s) := by
  unfold execTrimEntry
  repeat' first
    | intro _
    | (with_reducible first | assumption | exact Keeps.refl _ | apply OutKeeps.next | apply State.wr_keeps | apply State.dvfsKick_keeps | apply Keeps.when | apply OutKeeps.cond | apply Keeps.cond)
    | extract_lets | dsimp only | split

theorem execWakeTimerExpiry_keeps {r : State} {s : State} (hk : Keeps r s) :
    OutKeeps r (execWakeTimerExpiry s) := by
  unfold execWakeTimerExpiry
  repeat' first
    | intro _
    | (with_reducible first | assumption | exact Keeps.refl _ | apply OutKeeps.next | apply State.wakeDevice_keeps | apply OutKeeps.cond | apply Keeps.cond)
    | extract_lets | split

theorem State.standbyRequest_keeps {r : State} {s : State} (hk : Keeps r s) :
    Keeps r (State.standbyRequest s) := by
  unfold State.standbyRequest
  repeat' first
    | intro _
    | (with_reducible first | assumption | exact Keeps.refl _ | apply State.wr_keeps | apply State.deviceRequest_keeps | apply Keeps.cond)
    | extract_lets | split

theorem execLpmodeAssert_keeps {r : State} {s : State} (hk : Keeps r s) :
    OutKeeps r (execLpmodeAssert s) := by
  unfold execLpmodeAssert
  repeat' first
    | intro _
    | (with_reducible first | assumption | exact Keeps.refl _ | apply OutKeeps.next | apply State.wr_keeps | apply State.standbyRequest_keeps | apply OutKeeps.cond | apply Keeps.cond)
    | extract_lets | split

theorem execLpmodeDeassert_keeps {r : State} {s : State} (hk : Keeps r s) :
    OutKeeps r (execLpmodeDeassert s) := by
  unfold execLpmodeDeassert
  repeat' first
    | intro _
    | (with_reducible first | assumption | exact Keeps.refl _ | apply OutKeeps.next | apply State.wr_keeps | apply State.wakeHeld_keeps | apply State.standbyRelease_keeps | apply State.deviceAbandon_keeps | apply OutKeeps.cond | apply Keeps.cond)
    | extract_lets | split

theorem execStandbySwWrite_keeps {r : State} {s : State} (hk : Keeps r s) :
    OutKeeps r (execStandbySwWrite s) := by
  unfold execStandbySwWrite
  repeat' first
    | intro _
    | (with_reducible first | assumption | exact Keeps.refl _ | apply OutKeeps.next | apply State.access_keeps | apply State.wr_keeps | apply State.standbyRequest_keeps)
    | extract_lets | dsimp only

theorem execDeep_keeps {r : State} {s : State} (hk : Keeps r s) :
    OutKeeps r (execDeep s) := by
  unfold execDeep
  repeat' first
    | intro _
    | (with_reducible first | assumption | exact Keeps.refl _ | apply OutKeeps.next | apply State.access_keeps | apply State.raise_keeps | apply State.wr_keeps | apply State.deviceRequest_keeps | apply OutKeeps.cond | apply Keeps.cond)
    | extract_lets | dsimp only | split
    | (with_reducible first | apply Keeps.other)

theorem execDeepWakeEvent_keeps {r : State} {src : Fin 8} {s : State} (hk : Keeps r s) :
    OutKeeps r (execDeepWakeEvent src s) := by
  unfold execDeepWakeEvent
  repeat' first
    | intro _
    | (with_reducible first | assumption | exact Keeps.refl _ | apply OutKeeps.next | apply State.wakeDevice_keeps | apply OutKeeps.cond | apply Keeps.cond)
    | extract_lets | split

theorem State.writePoints_keeps {r : State} {s : State} {req : Nat} (hk : Keeps r s) :
    Keeps r (State.writePoints s req) := by
  unfold State.writePoints
  repeat' first
    | intro _
    | (with_reducible first | assumption | exact Keeps.refl _ | apply State.wr_keeps | apply State.dvfsKick_keeps | apply State.raise_keeps | apply State.puts_keeps | apply Keeps.cond)
    | extract_lets | dsimp only | split

theorem State.writeVout_keeps {r : State} {s : State} {mv : Nat} (hk : Keeps r s) :
    Keeps r (State.writeVout s mv) := by
  unfold State.writeVout
  repeat' first
    | intro _
    | (with_reducible first | assumption | exact Keeps.refl _ | apply State.wr_keeps | apply State.puts_keeps | apply State.raise_keeps | apply Keeps.cond)
    | extract_lets | dsimp only | split

theorem execDvfsRequest_keeps {r : State} {req : BitVec 16} {s : State} (hk : Keeps r s) :
    OutKeeps r (execDvfsRequest req s) := by
  unfold execDvfsRequest
  repeat' first
    | intro _
    | (with_reducible first | assumption | exact Keeps.refl _ | apply OutKeeps.next | apply State.access_keeps | apply State.writePoints_keeps)
    | extract_lets | dsimp only

theorem execDvfsExpertWrite_keeps {r : State} {w : DvfsWrite} {s : State} (hk : Keeps r s) :
    OutKeeps r (execDvfsExpertWrite w s) := by
  unfold execDvfsExpertWrite
  repeat' first
    | intro _
    | (with_reducible first | assumption | exact Keeps.refl _ | apply OutKeeps.next | apply State.access_keeps | apply State.writePoints_keeps | apply State.writeVout_keeps)
    | extract_lets | dsimp only | split

theorem State.dvfsSettle_keeps {r : State} {s : State} (hk : Keeps r s) :
    Keeps r (State.dvfsSettle s) := by
  unfold State.dvfsSettle
  repeat' first
    | intro _
    | (with_reducible first | assumption | exact Keeps.refl _ | apply State.puts_keeps | apply State.wr_keeps | apply Keeps.cond)
    | extract_lets | split

theorem execDvfsVoutConfirmed_keeps {r : State} {s : State} (hk : Keeps r s) :
    OutKeeps r (execDvfsVoutConfirmed s) := by
  unfold execDvfsVoutConfirmed
  repeat' first
    | intro _
    | (with_reducible first | assumption | exact Keeps.refl _ | apply OutKeeps.next | apply State.puts_keeps | apply State.wr_keeps | apply State.dvfsSettle_keeps | apply OutKeeps.cond | apply Keeps.cond)
    | extract_lets | split

theorem execDvfsStepDwell_keeps {r : State} {s : State} (hk : Keeps r s) :
    OutKeeps r (execDvfsStepDwell s) := by
  unfold execDvfsStepDwell
  repeat' first
    | intro _
    | (with_reducible first | assumption | exact Keeps.refl _ | apply OutKeeps.next | apply State.dvfsStep_keeps | apply State.dvfsSettle_keeps | apply OutKeeps.cond | apply Keeps.cond)
    | extract_lets | split

theorem execDvfsTimeout_keeps {r : State} {s : State} (hk : Keeps r s) :
    OutKeeps r (execDvfsTimeout s) := by
  unfold execDvfsTimeout
  repeat' first
    | intro _
    | (with_reducible first | assumption | exact Keeps.refl _ | apply OutKeeps.next | apply State.puts_keeps | apply State.raise_keeps | apply OutKeeps.cond | apply Keeps.cond)
    | extract_lets | split

theorem execPmAlert_keeps {r : State} {s : State} (hk : Keeps r s) :
    OutKeeps r (execPmAlert s) := by
  unfold execPmAlert
  repeat' first
    | intro _
    | (with_reducible first | assumption | exact Keeps.refl _ | apply OutKeeps.next | apply State.raise_keeps | apply State.faultEvent_keeps)
    | extract_lets

theorem State.deviceReset_keeps {r : State} {s : State} {cause rail : Nat} (hk : Keeps r s) :
    Keeps r (State.deviceReset s cause rail) := by
  unfold State.deviceReset
  repeat' first
    | intro _
    | (with_reducible first | assumption | exact Keeps.refl _ | apply State.resetOutsideAon_keeps | apply State.resetFields_keeps | apply State.puts_keeps)
    | extract_lets | dsimp only
    | (with_reducible first | refine Keeps.records ?_ (fun _ => rfl) | apply Keeps.other)

theorem State.puts_pending (s : State) (l : List (Field × Nat)) (n : Nat) : (s.puts l n).pending = s.pending :=
  (State.puts_keeps (Keeps.refl s)).queue

theorem execSupplyMonitorReset_keeps {r s : State} {rail : Fin 7} {mv : BitVec 12} (hk : Keeps r s) :
    OutKeeps r (execSupplyMonitorReset rail mv s) := by
  unfold execSupplyMonitorReset
  apply OutKeeps.next
  split
  · exact hk
  · split
    · apply State.puts_keeps
      refine ⟨hk.queue, fun i => ⟨?_, ⟨rfl, rfl, rfl⟩, Nat.zero_le _⟩⟩
      have hw := (hk.inv i).1
      simp only [State.wf, Bool.and_eq_true] at hw ⊢
      exact ⟨⟨⟨⟨⟨⟨rfl, rfl⟩, hw.1.1.1.1.2⟩, rfl⟩, rfl⟩, rfl⟩, hw.2⟩
    · exact State.puts_keeps (State.deviceReset_keeps hk)

theorem execResetNAssert_keeps {r : State} {s : State} (hk : Keeps r s) :
    OutKeeps r (execResetNAssert s) := by
  unfold execResetNAssert
  repeat' first
    | intro _
    | (with_reducible first | assumption | exact Keeps.refl _ | apply OutKeeps.next | apply State.deviceReset_keeps | apply State.wr_keeps)
    | extract_lets

theorem execResetNRelease_keeps {r : State} {s : State} (hk : Keeps r s) :
    OutKeeps r (execResetNRelease s) := by
  unfold execResetNRelease
  repeat' first
    | intro _
    | (with_reducible first | assumption | exact Keeps.refl _ | apply OutKeeps.next | apply State.puts_keeps | apply OutKeeps.cond | apply Keeps.cond)
    | extract_lets | split

theorem State.pllsOff_keeps {r : State} {s : State} (hk : Keeps r s) :
    Keeps r (State.pllsOff s) := by
  unfold State.pllsOff
  repeat' first
    | intro _
    | (with_reducible first | assumption | exact Keeps.refl _ | apply State.puts_keeps | apply State.setMask_keeps | apply State.capStop_keeps | apply State.wr_keeps | apply State.refreshRun_keeps | apply Keeps.each)
    | extract_lets | dsimp only

theorem State.shutdownDomain_keeps {r : State} {s : State} (hk : Keeps r s) :
    Keeps r (State.shutdownDomain s) := by
  unfold State.shutdownDomain
  repeat' first
    | intro _
    | (with_reducible first | assumption | exact Keeps.refl _ | apply State.setDomain_keeps | apply OptKeeps.getD)
    | extract_lets | dsimp only | split

theorem State.entryEnd_keeps {r : State} {s : State} (hk : Keeps r s) :
    Keeps r (State.entryEnd s) := by
  unfold State.entryEnd
  repeat' first
    | intro _
    | (with_reducible first | assumption | exact Keeps.refl _ | apply State.wr_keeps | apply State.deepEnter_keeps | apply State.deepWakeStart_keeps | apply State.standbyWakeStart_keeps | apply Keeps.when | apply Keeps.cond)
    | extract_lets | dsimp only | split

theorem execDomainStaggerStep_keeps {r : State} {s : State} (hk : Keeps r s) :
    OutKeeps r (execDomainStaggerStep s) := by
  unfold execDomainStaggerStep
  repeat' first
    | intro _
    | (with_reducible first | assumption | exact Keeps.refl _ | apply OutKeeps.next | apply State.setDomain_keeps | apply State.puts_keeps | apply State.wr_keeps | apply State.pllsOff_keeps | apply State.entryEnd_keeps | apply State.shutdownDomain_keeps | apply OutKeeps.cond | apply Keeps.cond)
    | extract_lets | split

theorem execPwrCntClr_keeps {r : State} {s : State} (hk : Keeps r s) :
    OutKeeps r (execPwrCntClr s) := by
  unfold execPwrCntClr
  repeat' first
    | intro _
    | (with_reducible first | assumption | exact Keeps.refl _ | apply OutKeeps.next | apply State.access_keeps | apply State.clear_keeps)
    | extract_lets | dsimp only

end Sys2Proof.Machine
end

