-- ==== Sys2Proof/Laws/KeepsHealth.lean ====
section
/-!
SUPPORT. The operations of Health keep the queue and the invariant.
-/
set_option Elab.async false
set_option linter.all false
namespace Sys2Proof.Machine

theorem execFaultSourceEvent_keeps {r : State} {src inst : Fin 16} {k : BitVec 10} {s : State} (hk : Keeps r s) :
    OutKeeps r (execFaultSourceEvent src inst k s) := by
  unfold execFaultSourceEvent
  repeat' first
    | intro _
    | (with_reducible first | assumption | exact Keeps.refl _ | apply OutKeeps.next | apply State.countEvent_keeps | apply State.lrxFault_keeps | apply State.ltxFaultWindow_keeps | apply State.hifFault_keeps | apply State.objectAction_keeps | apply Keeps.when | apply OutKeeps.cond | apply Keeps.cond | apply Keeps.cond_snd)
    | extract_lets | dsimp only | split

theorem execFaultWindowClose_keeps {r : State} {src inst : Fin 16} {s : State} (hk : Keeps r s) :
    OutKeeps r (execFaultWindowClose src inst s) := by
  unfold execFaultWindowClose
  repeat' first
    | intro _
    | (with_reducible first | assumption | exact Keeps.refl _ | apply OutKeeps.next | apply State.wr_keeps)
    | extract_lets

theorem execLastingClear_keeps {r : State} {src : Fin 16} {mask : BitVec 16} {s : State} (hk : Keeps r s) :
    OutKeeps r (execLastingClear src mask s) := by
  unfold execLastingClear
  repeat' first
    | intro _
    | (with_reducible first | assumption | exact Keeps.refl _ | apply OutKeeps.next | apply State.access_keeps | apply State.clearLasting_keeps | apply Keeps.each)
    | extract_lets | dsimp only

theorem State.bistGo_keeps {r : State} {s : State} {kind unit : Nat} {preempt : Bool} (hk : Keeps r s) :
    Keeps r (State.bistGo s kind unit preempt) := by
  unfold State.bistGo
  repeat' first
    | intro _
    | (with_reducible first | assumption | exact Keeps.refl _ | apply State.puts_keeps | apply State.wr_keeps | apply State.testResult_keeps | apply Keeps.cond)
    | extract_lets | split
    | (with_reducible first | apply Keeps.other)

theorem execBistEngine_keeps {r : State} {unit : BitVec 7} {preempt : Bool} {s : State} (hk : Keeps r s) :
    OutKeeps r (execBistEngine unit preempt s) := by
  unfold execBistEngine
  repeat' first
    | intro _
    | (with_reducible first | assumption | exact Keeps.refl _ | apply OutKeeps.next | apply State.access_keeps | apply State.bistGo_keeps)
    | extract_lets | dsimp only

theorem execBistLane_keeps {r : State} {unit : BitVec 7} {preempt : Bool} {s : State} (hk : Keeps r s) :
    OutKeeps r (execBistLane unit preempt s) := by
  unfold execBistLane
  repeat' first
    | intro _
    | (with_reducible first | assumption | exact Keeps.refl _ | apply OutKeeps.next | apply State.access_keeps | apply State.bistGo_keeps)
    | extract_lets | dsimp only

theorem execBistHost_keeps {r : State} {unit : BitVec 7} {preempt : Bool} {s : State} (hk : Keeps r s) :
    OutKeeps r (execBistHost unit preempt s) := by
  unfold execBistHost
  repeat' first
    | intro _
    | (with_reducible first | assumption | exact Keeps.refl _ | apply OutKeeps.next | apply State.access_keeps | apply State.bistGo_keeps)
    | extract_lets | dsimp only

theorem execBistXbar_keeps {r : State} {unit : BitVec 7} {preempt : Bool} {s : State} (hk : Keeps r s) :
    OutKeeps r (execBistXbar unit preempt s) := by
  unfold execBistXbar
  repeat' first
    | intro _
    | (with_reducible first | assumption | exact Keeps.refl _ | apply OutKeeps.next | apply State.access_keeps | apply State.bistGo_keeps)
    | extract_lets | dsimp only

theorem execBistCtrlDac_keeps {r : State} {unit : BitVec 7} {preempt : Bool} {s : State} (hk : Keeps r s) :
    OutKeeps r (execBistCtrlDac unit preempt s) := by
  unfold execBistCtrlDac
  repeat' first
    | intro _
    | (with_reducible first | assumption | exact Keeps.refl _ | apply OutKeeps.next | apply State.access_keeps | apply State.bistGo_keeps)
    | extract_lets | dsimp only

theorem execBistMonAdc_keeps {r : State} {unit : BitVec 7} {preempt : Bool} {s : State} (hk : Keeps r s) :
    OutKeeps r (execBistMonAdc unit preempt s) := by
  unfold execBistMonAdc
  repeat' first
    | intro _
    | (with_reducible first | assumption | exact Keeps.refl _ | apply OutKeeps.next | apply State.access_keeps | apply State.bistGo_keeps)
    | extract_lets | dsimp only

theorem execBistKeystore_keeps {r : State} {unit : BitVec 7} {preempt : Bool} {s : State} (hk : Keeps r s) :
    OutKeeps r (execBistKeystore unit preempt s) := by
  unfold execBistKeystore
  repeat' first
    | intro _
    | (with_reducible first | assumption | exact Keeps.refl _ | apply OutKeeps.next | apply State.access_keeps | apply State.bistGo_keeps)
    | extract_lets | dsimp only

theorem execBistEnvelope_keeps {r : State} {unit : BitVec 7} {preempt : Bool} {s : State} (hk : Keeps r s) :
    OutKeeps r (execBistEnvelope unit preempt s) := by
  unfold execBistEnvelope
  repeat' first
    | intro _
    | (with_reducible first | assumption | exact Keeps.refl _ | apply OutKeeps.next | apply State.access_keeps | apply State.bistGo_keeps)
    | extract_lets | dsimp only

theorem State.bootTests_keeps {r : State} {s : State} (hk : Keeps r s) :
    Keeps r (State.bootTests s) := by
  unfold State.bootTests
  repeat' first
    | intro _
    | (with_reducible first | assumption | exact Keeps.refl _)
    | extract_lets | dsimp only
    | (with_reducible first | apply Keeps.other)

theorem State.clearSecrets_keeps {r : State} {s : State} (hk : Keeps r s) :
    Keeps r (State.clearSecrets s) := by
  unfold State.clearSecrets
  repeat' first
    | intro _
    | (with_reducible first | assumption | exact Keeps.refl _ | apply State.puts_keeps | apply State.wr_keeps | apply Keeps.each)
    | extract_lets | dsimp only

theorem State.loadSecrets_keeps {r : State} {s : State} (hk : Keeps r s) :
    Keeps r (State.loadSecrets s) := by
  unfold State.loadSecrets
  repeat' first
    | intro _
    | (with_reducible first | assumption | exact Keeps.refl _ | apply State.wr_keeps | apply Keeps.each)
    | extract_lets | dsimp only

theorem State.reloadSecrets_keeps {r : State} {s : State} (hk : Keeps r s) :
    Keeps r (State.reloadSecrets s) := by
  unfold State.reloadSecrets
  repeat' first
    | intro _
    | (with_reducible first | assumption | exact Keeps.refl _ | apply State.loadSecrets_keeps | apply State.wrb_keeps | apply Keeps.when)
    | extract_lets

theorem State.testIsolate_keeps {r : State} {s : State} {t : BistTest} (hk : Keeps r s) :
    Keeps r (State.testIsolate s t) := by
  unfold State.testIsolate
  repeat' first
    | intro _
    | (with_reducible first | assumption | exact Keeps.refl _ | apply State.engAbandon_keeps | apply State.setEng_keeps | apply State.wr_keeps | apply State.ltxOff_keeps | apply State.lrxOff_keeps | apply State.optClamp_keeps | apply State.setDomain_keeps | apply State.hifOff_keeps | apply State.clearSecrets_keeps | apply Keeps.each | apply Keeps.cond)
    | extract_lets | dsimp only | split
    | (with_reducible first | apply Keeps.other)

theorem execBistStart_keeps {r : State} {slot : TestSlot} {clockOk : Bool} {mv : BitVec 10} {s : State} (hk : Keeps r s) :
    OutKeeps r (execBistStart slot clockOk mv s) := by
  unfold execBistStart
  repeat' first
    | intro _
    | (with_reducible first | assumption | exact Keeps.refl _ | apply OutKeeps.next | apply State.testIsolate_keeps | apply State.wr_keeps | apply Keeps.when | apply Keeps.foldl | apply OutKeeps.cond | apply Keeps.cond)
    | extract_lets | dsimp only | split
    | (with_reducible first | apply Keeps.other)

theorem execBistWaitTimeout_keeps {r : State} {s : State} (hk : Keeps r s) :
    OutKeeps r (execBistWaitTimeout s) := by
  unfold execBistWaitTimeout
  repeat' first
    | intro _
    | (with_reducible first | assumption | exact Keeps.refl _ | apply OutKeeps.next | apply State.wr_keeps | apply State.bump_keeps | apply State.testResult_keeps)
    | extract_lets | dsimp only | split
    | (with_reducible first | apply Keeps.other)

theorem execBistConditionLost_keeps {r : State} {kind : Fin 8} {unit : BitVec 7} {s : State} (hk : Keeps r s) :
    OutKeeps r (execBistConditionLost kind unit s) := by
  unfold execBistConditionLost
  repeat' first
    | intro _
    | (with_reducible first | assumption | exact Keeps.refl _ | apply OutKeeps.next | apply State.endTest_keeps)
    | extract_lets

theorem State.laneHold_keeps {r : State} {s : State} {n : Nat} (hk : Keeps r s) :
    Keeps r (State.laneHold s n) := by
  unfold State.laneHold
  repeat' first
    | intro _
    | (with_reducible first | assumption | exact Keeps.refl _ | apply State.lrxOff_keeps | apply State.puts_keeps | apply State.ltxRecheck_keeps | apply State.setMask_keeps)
    | extract_lets

theorem State.testFailed_keeps {r0 : State} {s : State} {kind unit : Nat} {r : BistReport} (hk : Keeps r0 s) :
    Keeps r0 (State.testFailed s kind unit r) := by
  unfold State.testFailed
  repeat' first
    | intro _
    | (with_reducible first | assumption | exact Keeps.refl _ | apply State.engFail_keeps | apply State.sliceFail_keeps | apply State.cellFail_keeps | apply State.laneHold_keeps | apply State.wr_keeps | apply State.setMask_keeps | apply State.puts_keeps | apply Keeps.each | apply Keeps.when)
    | extract_lets | dsimp only | split

theorem execBistDone_keeps {r0 : State} {kind : Fin 8} {unit : BitVec 7} {r : BistReport} {s : State} (hk : Keeps r0 s) :
    OutKeeps r0 (execBistDone kind unit r s) := by
  unfold execBistDone
  repeat' first
    | intro _
    | (with_reducible first | assumption | exact Keeps.refl _ | apply OutKeeps.next | apply State.testReinit_keeps | apply State.bump_keeps | apply State.wr_keeps | apply State.raise_keeps | apply State.testFailed_keeps | apply State.testResult_keeps | apply Keeps.when | apply OutKeeps.cond | apply Keeps.cond)
    | extract_lets | dsimp only | split

theorem State.serve_keeps {r0 : State} {s : State} {r : SvcReq} (hk : Keeps r0 s) :
    Keeps r0 (State.serve s r) := by
  unfold State.serve
  repeat' first
    | intro _
    | (with_reducible first | assumption | exact Keeps.refl _ | apply State.lrxEnableOn_keeps | apply State.ltxEnableOn_keeps | apply State.lrxRestartNow_keeps | apply State.ltxRestartNow_keeps | apply State.renegNow_keeps | apply State.profChangeNow_keeps | apply State.lrxCommitNow_keeps | apply State.leqCommitNow_keeps | apply State.ltxCommitNow_keeps | apply State.hifEnableOn_keeps | apply State.hifRetrainNow_keeps | apply State.hifCommitNow_keeps | apply State.sleepRequest_keeps)
    | extract_lets | dsimp only | split

theorem State.testRestart_keeps {r : State} {s : State} {kind unit : Nat} (hk : Keeps r s) :
    Keeps r (State.testRestart s kind unit) := by
  unfold State.testRestart
  repeat' first
    | intro _
    | (with_reducible first | assumption | exact Keeps.refl _ | apply State.loadStores_keeps | apply State.setEng_keeps | apply State.lrxToCal_keeps | apply State.ltxRecheck_keeps | apply State.hifStart_keeps | apply State.straitFlush_keeps | apply State.reloadSecrets_keeps | apply Keeps.each | apply Keeps.cond)
    | extract_lets | dsimp only | split
    | (with_reducible first | apply Keeps.other)

theorem execBistReinitDone_keeps {r : State} {kind : Fin 8} {unit : BitVec 7} {s : State} (hk : Keeps r s) :
    OutKeeps r (execBistReinitDone kind unit s) := by
  unfold execBistReinitDone
  repeat' first
    | intro _
    | (with_reducible first | assumption | exact Keeps.refl _ | apply OutKeeps.next | apply State.wr_keeps | apply State.testRestart_keeps | apply State.serve_keeps | apply Keeps.each | apply Keeps.when | apply OutKeeps.cond | apply Keeps.cond)
    | extract_lets | dsimp only | split
    | (with_reducible first | apply Keeps.other)

theorem execBgBistDue_keeps {r : State} {e : Fin 128} {s : State} (hk : Keeps r s) :
    OutKeeps r (execBgBistDue e s) := by
  unfold execBgBistDue
  repeat' first
    | intro _
    | (with_reducible first | assumption | exact Keeps.refl _ | apply OutKeeps.next | apply OutKeeps.cond | apply Keeps.cond)
    | extract_lets | dsimp only | split
    | (with_reducible first | apply Keeps.other)

theorem execAdcStepDue_keeps {r : State} {n : Lane} {s : State} (hk : Keeps r s) :
    OutKeeps r (execAdcStepDue n s) := by
  unfold execAdcStepDue
  repeat' first
    | intro _
    | (with_reducible first | assumption | exact Keeps.refl _ | apply OutKeeps.next | apply State.wr_keeps | apply State.adcAdmit_keeps | apply Keeps.when)
    | extract_lets | dsimp only

theorem State.dacAdmit_keeps {r : State} {s : State} (hk : Keeps r s) :
    Keeps r (State.dacAdmit s) := by
  unfold State.dacAdmit
  repeat' first
    | intro _
    | (with_reducible first | assumption | exact Keeps.refl _ | apply State.puts_keeps | apply State.wr_keeps | apply Keeps.each)
    | extract_lets | dsimp only

theorem execDacStepDue_keeps {r : State} {n : Lane} {s : State} (hk : Keeps r s) :
    OutKeeps r (execDacStepDue n s) := by
  unfold execDacStepDue
  repeat' first
    | intro _
    | (with_reducible first | assumption | exact Keeps.refl _ | apply OutKeeps.next | apply State.wr_keeps | apply State.dacAdmit_keeps | apply Keeps.when)
    | extract_lets | dsimp only

theorem execHealthWindowTick_keeps {r : State} {s : State} (hk : Keeps r s) :
    OutKeeps r (execHealthWindowTick s) := by
  unfold execHealthWindowTick
  repeat' first
    | intro _
    | (with_reducible first | assumption | exact Keeps.refl _ | apply OutKeeps.next | apply State.bgAge_keeps | apply State.dacAdmit_keeps | apply State.adcAdmit_keeps | apply State.adcStart_keeps | apply State.wr_keeps | apply Keeps.each | apply OutKeeps.cond | apply Keeps.cond)
    | extract_lets | dsimp only | split

theorem execHltCntClr_keeps {r : State} {s : State} (hk : Keeps r s) :
    OutKeeps r (execHltCntClr s) := by
  unfold execHltCntClr
  repeat' first
    | intro _
    | (with_reducible first | assumption | exact Keeps.refl _ | apply OutKeeps.next | apply State.access_keeps | apply State.clear_keeps | apply State.resetFields_keeps | apply Keeps.each)
    | extract_lets | dsimp only

end Sys2Proof.Machine
end

