-- ==== Sys2Proof/Laws/KeepsFifo.lean ====
section
/-!
SUPPORT. The operations of Fifo keep the queue and the invariant.
-/
set_option Elab.async false
set_option linter.all false
namespace Sys2Proof.Machine

theorem State.answerWord_keeps {r : State} {s : State} {w : Nat} (hk : Keeps r s) :
    Keeps r (State.answerWord s w) := by
  unfold State.answerWord
  repeat' first
    | intro _
    | (with_reducible first | assumption | exact Keeps.refl _ | apply State.wr_keeps)
    | extract_lets
    | (with_reducible first | apply Keeps.other)

theorem State.evfSettle_keeps {r : State} {s : State} (hk : Keeps r s) :
    Keeps r (State.evfSettle s) := by
  unfold State.evfSettle
  repeat' first
    | intro _
    | (with_reducible first | assumption | exact Keeps.refl _ | apply State.puts_keeps | apply Keeps.cond)
    | extract_lets | split

theorem State.evfXoffFollow_keeps {r : State} {s : State} (hk : Keeps r s) :
    Keeps r (State.evfXoffFollow s) := by
  unfold State.evfXoffFollow
  repeat' first
    | intro _
    | (with_reducible first | assumption | exact Keeps.refl _ | apply State.wr_keeps | apply Keeps.when)
    | extract_lets | dsimp only

theorem State.evfPop_keeps {r s : State} (hk : Keeps r s) : Keeps r s.evfPop.2 := by
  unfold State.evfPop
  split
  · exact hk
  · rename_i w rest h
    refine State.evfSettle_keeps (State.evfXoffFollow_keeps (State.wr_keeps (Keeps.evf hk ?_)))
    rw [h]
    exact fun w => Nat.le_of_succ_le w

theorem execEvfRead_keeps {r : State} {s : State} (hk : Keeps r s) :
    OutKeeps r (execEvfRead s) := by
  unfold execEvfRead
  repeat' first
    | intro _
    | (with_reducible first | assumption | exact Keeps.refl _ | apply OutKeeps.next | apply State.access_keeps | apply State.evfPop_keeps | apply State.answerWord_keeps)
    | extract_lets | dsimp only

theorem State.evfFlushNow_keeps {r : State} {s : State} (hk : Keeps r s) :
    Keeps r (State.evfFlushNow s) := by
  unfold State.evfFlushNow
  repeat' first
    | intro _
    | (with_reducible first | assumption | exact Keeps.refl _ | apply State.wr_keeps | apply State.evfXoffFollow_keeps | apply State.evfSettle_keeps)
    | extract_lets
    | (with_reducible first | refine Keeps.evf ?_ (fun _ => Nat.zero_le _) | apply Keeps.other)

theorem execEvfFlush_keeps {r : State} {s : State} (hk : Keeps r s) :
    OutKeeps r (execEvfFlush s) := by
  unfold execEvfFlush
  repeat' first
    | intro _
    | (with_reducible first | assumption | exact Keeps.refl _ | apply OutKeeps.next | apply State.access_keeps | apply State.evfFlushNow_keeps)
    | extract_lets | dsimp only

theorem State.evfFormatSet_keeps {r : State} {s : State} {v : Nat} (hk : Keeps r s) :
    Keeps r (State.evfFormatSet s v) := by
  unfold State.evfFormatSet
  repeat' first
    | intro _
    | (with_reducible first | assumption | exact Keeps.refl _ | apply State.puts_keeps | apply Keeps.cond)
    | extract_lets | split

theorem execEvfFormatWrite_keeps {r : State} {format2 : Bool} {s : State} (hk : Keeps r s) :
    OutKeeps r (execEvfFormatWrite format2 s) := by
  unfold execEvfFormatWrite
  repeat' first
    | intro _
    | (with_reducible first | assumption | exact Keeps.refl _ | apply OutKeeps.next | apply State.access_keeps | apply State.evfFormatSet_keeps)
    | extract_lets | dsimp only

theorem execMgtCntClr_keeps {r : State} {s : State} (hk : Keeps r s) :
    OutKeeps r (execMgtCntClr s) := by
  unfold execMgtCntClr
  repeat' first
    | intro _
    | (with_reducible first | assumption | exact Keeps.refl _ | apply OutKeeps.next | apply State.access_keeps | apply State.clear_keeps)
    | extract_lets | dsimp only

theorem State.mbxWord_keeps {r : State} {s : State} {w : Nat} (hk : Keeps r s) :
    Keeps r (State.mbxWord s w) := by
  unfold State.mbxWord
  repeat' first
    | intro _
    | (with_reducible first | assumption | exact Keeps.refl _ | apply State.wr_keeps | apply State.puts_keeps | apply State.raise_keeps | apply State.bump_keeps | apply Keeps.cond)
    | extract_lets | dsimp only | split
    | (with_reducible first | apply Keeps.other)

theorem execMbxInWordWrite_keeps {r : State} {w : Word} {s : State} (hk : Keeps r s) :
    OutKeeps r (execMbxInWordWrite w s) := by
  unfold execMbxInWordWrite
  repeat' first
    | intro _
    | (with_reducible first | assumption | exact Keeps.refl _ | apply OutKeeps.next | apply State.access_keeps | apply State.mbxWord_keeps)
    | extract_lets | dsimp only

theorem State.mbxRewind_keeps {r : State} {s : State} (hk : Keeps r s) :
    Keeps r (State.mbxRewind s) := by
  unfold State.mbxRewind
  repeat' first
    | intro _
    | (with_reducible first | assumption | exact Keeps.refl _ | apply State.puts_keeps)
    | extract_lets
    | (with_reducible first | apply Keeps.other)

theorem execMbxTimeout_keeps {r : State} {s : State} (hk : Keeps r s) :
    OutKeeps r (execMbxTimeout s) := by
  unfold execMbxTimeout
  repeat' first
    | intro _
    | (with_reducible first | assumption | exact Keeps.refl _ | apply OutKeeps.next | apply State.mbxRewind_keeps | apply State.wr_keeps | apply OutKeeps.cond | apply Keeps.cond)
    | extract_lets | split

theorem State.mbxAbort_keeps {r : State} {s : State} (hk : Keeps r s) :
    Keeps r (State.mbxAbort s) := by
  unfold State.mbxAbort
  repeat' first
    | intro _
    | (with_reducible first | assumption | exact Keeps.refl _ | apply State.mbxRewind_keeps | apply State.wr_keeps)
    | extract_lets

theorem execMbxInAbort_keeps {r : State} {s : State} (hk : Keeps r s) :
    OutKeeps r (execMbxInAbort s) := by
  unfold execMbxInAbort
  repeat' first
    | intro _
    | (with_reducible first | assumption | exact Keeps.refl _ | apply OutKeeps.next | apply State.access_keeps | apply State.mbxAbort_keeps)
    | extract_lets | dsimp only

theorem State.mbxResize_keeps {r : State} {s : State} {v : Nat} (hk : Keeps r s) :
    Keeps r (State.mbxResize s v) := by
  unfold State.mbxResize
  repeat' first
    | intro _
    | (with_reducible first | assumption | exact Keeps.refl _ | apply State.wr_keeps | apply State.raise_keeps | apply Keeps.cond)
    | extract_lets | split

theorem execMbxSizeWrite_keeps {r : State} {v : BitVec 2} {s : State} (hk : Keeps r s) :
    OutKeeps r (execMbxSizeWrite v s) := by
  unfold execMbxSizeWrite
  repeat' first
    | intro _
    | (with_reducible first | assumption | exact Keeps.refl _ | apply OutKeeps.next | apply State.access_keeps | apply State.mbxResize_keeps)
    | extract_lets | dsimp only

theorem State.mbxPop_keeps {r : State} {s : State} (hk : Keeps r s) :
    Keeps r (State.mbxPop s).2 := by
  unfold State.mbxPop
  repeat' first
    | intro _
    | (with_reducible first | assumption | exact Keeps.refl _ | apply Keeps.cond_snd | apply Keeps.cond)
    | extract_lets | dsimp only | split
    | (with_reducible first | apply Keeps.other)

theorem execMbxOutRead_keeps {r : State} {s : State} (hk : Keeps r s) :
    OutKeeps r (execMbxOutRead s) := by
  unfold execMbxOutRead
  repeat' first
    | intro _
    | (with_reducible first | assumption | exact Keeps.refl _ | apply OutKeeps.next | apply State.access_keeps | apply State.mbxPop_keeps | apply State.answerWord_keeps)
    | extract_lets | dsimp only

theorem State.mbxReply_keeps {r : State} {s : State} {status : Nat} {body : List Nat} (hk : Keeps r s) :
    Keeps r (State.mbxReply s status body) := by
  unfold State.mbxReply
  repeat' first
    | intro _
    | (with_reducible first | assumption | exact Keeps.refl _ | apply State.raise_keeps | apply OptKeeps.getD)
    | extract_lets | dsimp only | split
    | (with_reducible first | apply Keeps.other)

theorem State.mbxTake_keeps {r : State} {s : State} {type : Nat → Bool} {g : List Nat → State → State} (hgg : ∀ a u, Keeps r u → Keeps r (g a u)) (hk : Keeps r s) :
    Keeps r (State.mbxTake s type g) := by
  unfold State.mbxTake
  repeat' first
    | intro _
    | (with_reducible first | apply hgg | assumption | exact Keeps.refl _ | apply Keeps.cond | apply OptKeeps.getD)
    | extract_lets | dsimp only | split

theorem execMsgVersion_keeps {r : State} {s : State} (hk : Keeps r s) :
    OutKeeps r (execMsgVersion s) := by
  unfold execMsgVersion
  repeat' first
    | intro _
    | (with_reducible first | assumption | exact Keeps.refl _ | apply OutKeeps.next | apply State.mbxTake_keeps | apply State.mbxReply_keeps)
    | extract_lets | dsimp only

theorem State.takeRecords_keeps {r s : State} {room fuel : Nat} (hk : Keeps r s) :
    Keeps r (s.takeRecords room fuel).2 := by
  induction fuel generalizing s room with
  | zero => exact hk
  | succ fuel ih =>
    unfold State.takeRecords
    split
    · exact hk
    · dsimp only
      split
      · exact hk
      · refine ih (State.evfSettle_keeps (State.evfXoffFollow_keeps (State.wr_keeps (Keeps.evf hk ?_))))
        intro w
        rw [List.length_drop]
        exact Nat.le_trans (Nat.sub_le _ _) w

theorem execMsgEventRead_keeps {r : State} {s : State} (hk : Keeps r s) :
    OutKeeps r (execMsgEventRead s) := by
  unfold execMsgEventRead
  repeat' first
    | intro _
    | (with_reducible first | assumption | exact Keeps.refl _ | apply OutKeeps.next | apply State.mbxTake_keeps | apply State.mbxReply_keeps | apply State.takeRecords_keeps | apply OutKeeps.cond | apply Keeps.cond | apply Keeps.cond_snd | apply OptKeeps.getD)
    | extract_lets | dsimp only | split

theorem execMsgInfoRead_keeps {r : State} {s : State} (hk : Keeps r s) :
    OutKeeps r (execMsgInfoRead s) := by
  unfold execMsgInfoRead
  repeat' first
    | intro _
    | (with_reducible first | assumption | exact Keeps.refl _ | apply OutKeeps.next | apply State.mbxTake_keeps | apply State.mbxReply_keeps | apply OutKeeps.cond | apply Keeps.cond | apply OptKeeps.getD)
    | extract_lets | dsimp only | split

theorem execMsgInfoWrite_keeps {r : State} {s : State} (hk : Keeps r s) :
    OutKeeps r (execMsgInfoWrite s) := by
  unfold execMsgInfoWrite
  repeat' first
    | intro _
    | (with_reducible first | assumption | exact Keeps.refl _ | apply OutKeeps.next | apply State.mbxTake_keeps | apply State.mbxReply_keeps | apply State.setMask_keeps | apply OutKeeps.cond | apply Keeps.cond | apply OptKeeps.getD)
    | extract_lets | dsimp only | split

theorem State.infoDone_keeps {r : State} {s : State} {ok : Bool} (hk : Keeps r s) :
    Keeps r (State.infoDone s ok) := by
  unfold State.infoDone
  repeat' first
    | intro _
    | (with_reducible first | assumption | exact Keeps.refl _ | apply State.setMask_keeps | apply State.mbxReply_keeps | apply State.free_keeps | apply Keeps.cond | apply Keeps.cond_snd | apply OptKeeps.getD)
    | extract_lets | dsimp only | split
    | (with_reducible first | refine Keeps.info ?_ (fun w => Memory.wf_setMany _ _ _ w) | apply Keeps.other)

theorem execMsgTypeUnknown_keeps {r : State} {s : State} (hk : Keeps r s) :
    OutKeeps r (execMsgTypeUnknown s) := by
  unfold execMsgTypeUnknown
  repeat' first
    | intro _
    | (with_reducible first | assumption | exact Keeps.refl _ | apply OutKeeps.next | apply State.mbxTake_keeps | apply State.mbxReply_keeps)
    | extract_lets | dsimp only

end Sys2Proof.Machine
end

