-- ==== Sys2Proof/Laws/KeepsSecurity.lean ====
section
/-!
SUPPORT. The operations of Security keep the queue and the invariant.
-/
set_option Elab.async false
set_option linter.all false
namespace Sys2Proof.Machine

theorem State.storeSlot_keeps {r : State} {s : State} {k st flags point : Nat} (hk : Keeps r s) :
    Keeps r (State.storeSlot s k st flags point) := by
  unfold State.storeSlot
  repeat' first
    | intro _
    | (with_reducible first | assumption | exact Keeps.refl _ | apply State.nvmSet_keeps | apply State.wr_keeps)
    | extract_lets

theorem State.secEnd_keeps {r0 : State} {s : State} {r : Nat} (hk : Keeps r0 s) :
    Keeps r0 (State.secEnd s r) := by
  unfold State.secEnd
  repeat' first
    | intro _
    | (with_reducible first | assumption | exact Keeps.refl _ | apply State.puts_keeps | apply State.setMask_keeps | apply State.raise_keeps | apply Keeps.cond)
    | extract_lets | split

theorem State.secWrite_keeps {r : State} {s : State} (hk : Keeps r s) :
    Keeps r (State.secWrite s) := by
  unfold State.secWrite
  repeat' first
    | intro _
    | (with_reducible first | assumption | exact Keeps.refl _ | apply State.puts_keeps | apply State.setMask_keeps)
    | extract_lets

theorem State.tokenCheck_keeps {r : State} {s : State} {flags : Nat} {other : Option Nat} (hk : Keeps r s) :
    Keeps r (State.tokenCheck s flags other) := by
  unfold State.tokenCheck
  repeat' first
    | intro _
    | (with_reducible first | assumption | exact Keeps.refl _ | apply State.secEnd_keeps | apply State.wr_keeps | apply State.puts_keeps | apply Keeps.cond)
    | extract_lets | split

theorem State.lcAdvance_keeps {r : State} {s : State} {target : Nat} (hk : Keeps r s) :
    Keeps r (State.lcAdvance s target) := by
  unfold State.lcAdvance
  repeat' first
    | intro _
    | (with_reducible first | assumption | exact Keeps.refl _ | apply State.secEnd_keeps | apply State.secWrite_keeps | apply State.tokenCheck_keeps | apply Keeps.cond)
    | extract_lets | split

theorem State.keyProgram_keeps {r : State} {s : State} {slot : Nat} (hk : Keeps r s) :
    Keeps r (State.keyProgram s slot) := by
  unfold State.keyProgram
  repeat' first
    | intro _
    | (with_reducible first | assumption | exact Keeps.refl _ | apply State.secEnd_keeps | apply State.secWrite_keeps | apply Keeps.cond)
    | extract_lets | split

theorem State.keyRevoke_keeps {r : State} {s : State} {slot : Nat} (hk : Keeps r s) :
    Keeps r (State.keyRevoke s slot) := by
  unfold State.keyRevoke
  repeat' first
    | intro _
    | (with_reducible first | assumption | exact Keeps.refl _ | apply State.secEnd_keeps | apply State.secWrite_keeps | apply State.tokenCheck_keeps | apply Keeps.cond)
    | extract_lets | dsimp only | split

theorem State.debugOpen_keeps {r : State} {s : State} {scope : Nat} (hk : Keeps r s) :
    Keeps r (State.debugOpen s scope) := by
  unfold State.debugOpen
  repeat' first
    | intro _
    | (with_reducible first | assumption | exact Keeps.refl _ | apply State.clearSecrets_keeps | apply State.puts_keeps | apply State.wr_keeps | apply State.raise_keeps | apply Keeps.when)
    | extract_lets | dsimp only

theorem State.debugUnlock_keeps {r : State} {s : State} {scope : Nat} (hk : Keeps r s) :
    Keeps r (State.debugUnlock s scope) := by
  unfold State.debugUnlock
  repeat' first
    | intro _
    | (with_reducible first | assumption | exact Keeps.refl _ | apply State.debugOpen_keeps | apply State.secEnd_keeps | apply State.tokenCheck_keeps | apply Keeps.cond)
    | extract_lets | split

theorem State.rollbackSet_keeps {r : State} {s : State} (hk : Keeps r s) :
    Keeps r (State.rollbackSet s) := by
  unfold State.rollbackSet
  repeat' first
    | intro _
    | (with_reducible first | assumption | exact Keeps.refl _ | apply State.secEnd_keeps | apply State.secWrite_keeps | apply Keeps.cond)
    | extract_lets | split

theorem State.nonceDraw_keeps {r : State} {s : State} (hk : Keeps r s) :
    Keeps r (State.nonceDraw s) := by
  unfold State.nonceDraw
  repeat' first
    | intro _
    | (with_reducible first | assumption | exact Keeps.refl _ | apply State.secEnd_keeps | apply State.wrFree_keeps | apply State.wr_keeps | apply Keeps.cond)
    | extract_lets | split

theorem State.secGo_keeps {r : State} {s : State} {op arg flags : Nat} (hk : Keeps r s) :
    Keeps r (State.secGo s op arg flags) := by
  unfold State.secGo
  repeat' first
    | intro _
    | (with_reducible first | assumption | exact Keeps.refl _ | apply State.puts_keeps | apply State.wr_keeps | apply State.raise_keeps | apply State.lcAdvance_keeps | apply State.nonceDraw_keeps | apply State.keyProgram_keeps | apply State.keyRevoke_keeps | apply State.debugUnlock_keeps | apply State.rollbackSet_keeps | apply State.secWrite_keeps | apply State.secEnd_keeps | apply Keeps.cond)
    | extract_lets | dsimp only | split

theorem execLcAdvance_keeps {r : State} {target : BitVec 4} {flags : BitVec 3} {s : State} (hk : Keeps r s) :
    OutKeeps r (execLcAdvance target flags s) := by
  unfold execLcAdvance
  repeat' first
    | intro _
    | (with_reducible first | assumption | exact Keeps.refl _ | apply OutKeeps.next | apply State.access_keeps | apply State.secGo_keeps)
    | extract_lets | dsimp only

theorem execNonce_keeps {r : State} {arg : BitVec 4} {flags : BitVec 3} {s : State} (hk : Keeps r s) :
    OutKeeps r (execNonce arg flags s) := by
  unfold execNonce
  repeat' first
    | intro _
    | (with_reducible first | assumption | exact Keeps.refl _ | apply OutKeeps.next | apply State.access_keeps | apply State.secGo_keeps)
    | extract_lets | dsimp only

theorem execNonceExpiry_keeps {r : State} {s : State} (hk : Keeps r s) :
    OutKeeps r (execNonceExpiry s) := by
  unfold execNonceExpiry
  repeat' first
    | intro _
    | (with_reducible first | assumption | exact Keeps.refl _ | apply OutKeeps.next | apply State.wr_keeps)
    | extract_lets

theorem execKeyProgram_keeps {r : State} {slot : BitVec 4} {flags : BitVec 3} {s : State} (hk : Keeps r s) :
    OutKeeps r (execKeyProgram slot flags s) := by
  unfold execKeyProgram
  repeat' first
    | intro _
    | (with_reducible first | assumption | exact Keeps.refl _ | apply OutKeeps.next | apply State.access_keeps | apply State.secGo_keeps)
    | extract_lets | dsimp only

theorem execKeyRevoke_keeps {r : State} {slot : BitVec 4} {flags : BitVec 3} {s : State} (hk : Keeps r s) :
    OutKeeps r (execKeyRevoke slot flags s) := by
  unfold execKeyRevoke
  repeat' first
    | intro _
    | (with_reducible first | assumption | exact Keeps.refl _ | apply OutKeeps.next | apply State.access_keeps | apply State.secGo_keeps)
    | extract_lets | dsimp only

theorem execDebugUnlock_keeps {r : State} {scope : BitVec 4} {flags : BitVec 3} {s : State} (hk : Keeps r s) :
    OutKeeps r (execDebugUnlock scope flags s) := by
  unfold execDebugUnlock
  repeat' first
    | intro _
    | (with_reducible first | assumption | exact Keeps.refl _ | apply OutKeeps.next | apply State.access_keeps | apply State.secGo_keeps)
    | extract_lets | dsimp only

theorem execRollbackSet_keeps {r : State} {arg : BitVec 4} {flags : BitVec 3} {s : State} (hk : Keeps r s) :
    OutKeeps r (execRollbackSet arg flags s) := by
  unfold execRollbackSet
  repeat' first
    | intro _
    | (with_reducible first | assumption | exact Keeps.refl _ | apply OutKeeps.next | apply State.access_keeps | apply State.secGo_keeps)
    | extract_lets | dsimp only

theorem execFactorySave_keeps {r : State} {arg : BitVec 4} {flags : BitVec 3} {s : State} (hk : Keeps r s) :
    OutKeeps r (execFactorySave arg flags s) := by
  unfold execFactorySave
  repeat' first
    | intro _
    | (with_reducible first | assumption | exact Keeps.refl _ | apply OutKeeps.next | apply State.access_keeps | apply State.secGo_keeps)
    | extract_lets | dsimp only

theorem execSecOpInvalid_keeps {r : State} {op : Option (Fin 8)} {arg : BitVec 4} {flags : BitVec 3} {s : State} (hk : Keeps r s) :
    OutKeeps r (execSecOpInvalid op arg flags s) := by
  unfold execSecOpInvalid
  repeat' first
    | intro _
    | (with_reducible first | assumption | exact Keeps.refl _ | apply OutKeeps.next | apply State.access_keeps | apply State.secGo_keeps)
    | extract_lets | dsimp only | split

theorem execTokenVerifyDone_keeps {r : State} {s : State} (hk : Keeps r s) :
    OutKeeps r (execTokenVerifyDone s) := by
  unfold execTokenVerifyDone
  repeat' first
    | intro _
    | (with_reducible first | assumption | exact Keeps.refl _ | apply OutKeeps.next | apply State.wr_keeps | apply State.raise_keeps | apply State.secEnd_keeps | apply State.debugOpen_keeps | apply State.secWrite_keeps | apply OutKeeps.cond | apply Keeps.cond)
    | extract_lets | split

theorem State.lcEnter_keeps {r : State} {s : State} {st : Nat} (hk : Keeps r s) :
    Keeps r (State.lcEnter s st) := by
  unfold State.lcEnter
  repeat' first
    | intro _
    | (with_reducible first | assumption | exact Keeps.refl _ | apply State.wr_keeps | apply State.nvmSet_keeps | apply State.storeSlot_keeps | apply State.free_keeps | apply Keeps.each | apply Keeps.cond | apply Keeps.cond_snd)
    | extract_lets | dsimp only | split

theorem State.lcCopy_keeps {r : State} {s : State} (hk : Keeps r s) :
    Keeps r (State.lcCopy s) := by
  unfold State.lcCopy
  repeat' first
    | intro _
    | (with_reducible first | assumption | exact Keeps.refl _ | apply State.nvmSet_keeps | apply State.wr_keeps | apply State.lcEnter_keeps | apply State.raise_keeps | apply State.secEnd_keeps | apply Keeps.when | apply Keeps.cond)
    | extract_lets | dsimp only | split

theorem State.secStore_keeps {r : State} {s : State} (hk : Keeps r s) :
    Keeps r (State.secStore s) := by
  unfold State.secStore
  repeat' first
    | intro _
    | (with_reducible first | assumption | exact Keeps.refl _ | apply State.lcCopy_keeps | apply State.storeSlot_keeps | apply State.secEnd_keeps | apply State.nvmSet_keeps | apply State.wr_keeps | apply Keeps.each)
    | extract_lets | dsimp only | split

theorem State.envStore_keeps {r s : State} (hk : Keeps r s) : Keeps r s.envStore := by
  unfold State.envStore
  exact Keeps.nvm hk (fun _ w => Store.wf_foldl_set _ _ (Store.wf_filter _ _ w))

theorem execNvmWriteDone_keeps {r : State} {job : NvmJob} {ok : Bool} {s : State} (hk : Keeps r s) :
    OutKeeps r (execNvmWriteDone job ok s) := by
  unfold execNvmWriteDone
  repeat' first
    | intro _
    | (with_reducible first | assumption | exact Keeps.refl _ | apply OutKeeps.next | apply State.secStore_keeps | apply State.secEnd_keeps | apply State.puts_keeps | apply State.envStore_keeps | apply State.raise_keeps | apply State.setMask_keeps | apply State.nvmSet_keeps | apply State.cdbEnd_keeps | apply State.infoDone_keeps | apply OutKeeps.cond | apply Keeps.cond)
    | extract_lets | dsimp only | split

end Sys2Proof.Machine
end

