-- ==== Sys2Proof/Laws/KeepsImages.lean ====
section
/-!
SUPPORT. The operations of Images keep the queue and the invariant.
-/
set_option Elab.async false
set_option linter.all false
namespace Sys2Proof.Machine

theorem State.activeImage_keeps {r : State} {s : State} {i : Image} {slot : Nat} {fallback : Bool} (hk : Keeps r s) :
    Keeps r (State.activeImage s i slot fallback) := by
  unfold State.activeImage
  repeat' first
    | intro _
    | (with_reducible first | assumption | exact Keeps.refl _ | apply State.puts_keeps)
    | extract_lets

theorem State.laneDefaults_keeps {r : State} {s : State} {i : Image} (hk : Keeps r s) :
    Keeps r (State.laneDefaults s i) := by
  unfold State.laneDefaults
  repeat' first
    | intro _
    | (with_reducible first | assumption | exact Keeps.refl _ | apply State.presetWrite_keeps | apply Keeps.each)
    | extract_lets | dsimp only

theorem State.loadImage_keeps {r : State} {s : State} {i : Image} {slot : Nat} {fallback : Bool} (hk : Keeps r s) :
    Keeps r (State.loadImage s i slot fallback) := by
  unfold State.loadImage
  repeat' first
    | intro _
    | (with_reducible first | assumption | exact Keeps.refl _ | apply State.arcClusterOff_keeps | apply State.xbarOff_keeps | apply State.loadStores_keeps | apply State.resetFields_keeps | apply State.mapsOfMarks_keeps | apply State.puts_keeps | apply State.activeImage_keeps | apply State.loadSkipped_keeps | apply State.loadLane_keeps | apply State.loadSteal_keeps | apply State.wr_keeps | apply State.laneDefaults_keeps | apply State.dvfsKick_keeps | apply Keeps.each)
    | extract_lets | dsimp only | split
    | (with_reducible first | apply Keeps.other)

theorem State.imgRefuse_keeps {r : State} {s : State} {op code : Nat} {lane : Option Nat} (hk : Keeps r s) :
    Keeps r (State.imgRefuse s op code lane) := by
  unfold State.imgRefuse
  repeat' first
    | intro _
    | (with_reducible first | assumption | exact Keeps.refl _ | apply State.imgFail_keeps | apply State.imgReport_keeps | apply State.wr_keeps | apply Keeps.cond)
    | extract_lets | split

theorem State.imgBegin_keeps {r : State} {s : State} {op slot lead st : Nat} (hk : Keeps r s) :
    Keeps r (State.imgBegin s op slot lead st) := by
  unfold State.imgBegin
  repeat' first
    | intro _
    | (with_reducible first | assumption | exact Keeps.refl _ | apply State.puts_keeps)
    | extract_lets

theorem State.imgCommitFullNow_keeps {r : State} {s : State} (hk : Keeps r s) :
    Keeps r (State.imgCommitFullNow s) := by
  unfold State.imgCommitFullNow
  repeat' first
    | intro _
    | (with_reducible first | assumption | exact Keeps.refl _ | apply State.imgRefuse_keeps | apply State.imgBegin_keeps | apply State.abortTests_keeps | apply State.puts_keeps | apply State.lrxOff_keeps | apply State.hifOff_keeps | apply Keeps.each | apply Keeps.cond)
    | extract_lets | dsimp only | split

theorem State.imgCommitPartialNow_keeps {r : State} {s : State} {lead : Nat} (hk : Keeps r s) :
    Keeps r (State.imgCommitPartialNow s lead) := by
  unfold State.imgCommitPartialNow
  repeat' first
    | intro _
    | (with_reducible first | assumption | exact Keeps.refl _ | apply State.imgRefuse_keeps | apply State.imgBegin_keeps | apply State.puts_keeps | apply Keeps.cond)
    | extract_lets | dsimp only | split

theorem State.imgGo_keeps {r : State} {s : State} {op slot lead : Nat} (hk : Keeps r s) :
    Keeps r (State.imgGo s op slot lead) := by
  unfold State.imgGo
  repeat' first
    | intro _
    | (with_reducible first | assumption | exact Keeps.refl _ | apply State.puts_keeps | apply State.pcAbort_keeps | apply State.imgRefuse_keeps | apply State.wr_keeps | apply State.free_keeps | apply State.imgBegin_keeps | apply State.imgCommitFullNow_keeps | apply State.imgCommitPartialNow_keeps | apply Keeps.cond | apply Keeps.cond_snd)
    | extract_lets | dsimp only | split

theorem execImgValidate_keeps {r : State} {slot : BitVec 1} {s : State} (hk : Keeps r s) :
    OutKeeps r (execImgValidate slot s) := by
  unfold execImgValidate
  repeat' first
    | intro _
    | (with_reducible first | assumption | exact Keeps.refl _ | apply OutKeeps.next | apply State.access_keeps | apply State.imgGo_keeps)
    | extract_lets | dsimp only

theorem execImgCommitFull_keeps {r : State} {slot : BitVec 1} {s : State} (hk : Keeps r s) :
    OutKeeps r (execImgCommitFull slot s) := by
  unfold execImgCommitFull
  repeat' first
    | intro _
    | (with_reducible first | assumption | exact Keeps.refl _ | apply OutKeeps.next | apply State.access_keeps | apply State.imgGo_keeps)
    | extract_lets | dsimp only

theorem execImgCommitPartial_keeps {r : State} {slot : BitVec 1} {lead : Lane} {s : State} (hk : Keeps r s) :
    OutKeeps r (execImgCommitPartial slot lead s) := by
  unfold execImgCommitPartial
  repeat' first
    | intro _
    | (with_reducible first | assumption | exact Keeps.refl _ | apply OutKeeps.next | apply State.access_keeps | apply State.imgGo_keeps)
    | extract_lets | dsimp only

theorem execImgAbort_keeps {r : State} {s : State} (hk : Keeps r s) :
    OutKeeps r (execImgAbort s) := by
  unfold execImgAbort
  repeat' first
    | intro _
    | (with_reducible first | assumption | exact Keeps.refl _ | apply OutKeeps.next | apply State.access_keeps | apply State.imgGo_keeps)
    | extract_lets | dsimp only

theorem execImgMakeBoot_keeps {r : State} {slot : BitVec 1} {s : State} (hk : Keeps r s) :
    OutKeeps r (execImgMakeBoot slot s) := by
  unfold execImgMakeBoot
  repeat' first
    | intro _
    | (with_reducible first | assumption | exact Keeps.refl _ | apply OutKeeps.next | apply State.access_keeps | apply State.imgGo_keeps)
    | extract_lets | dsimp only

theorem execImgOpInvalid_keeps {r : State} {op : BitVec 4} {slot : BitVec 2} {lead : Lane} {s : State} (hk : Keeps r s) :
    OutKeeps r (execImgOpInvalid op slot lead s) := by
  unfold execImgOpInvalid
  repeat' first
    | intro _
    | (with_reducible first | assumption | exact Keeps.refl _ | apply OutKeeps.next | apply State.access_keeps | apply State.imgGo_keeps | apply OutKeeps.cond | apply Keeps.cond)
    | extract_lets | dsimp only | split

theorem State.noImage_keeps {r : State} {s : State} (hk : Keeps r s) :
    Keeps r (State.noImage s) := by
  unfold State.noImage
  repeat' first
    | intro _
    | (with_reducible first | assumption | exact Keeps.refl _ | apply State.wr_keeps | apply State.lrxOff_keeps | apply State.ltxFaultEnd_keeps | apply State.hifOff_keeps | apply State.puts_keeps | apply State.raise_keeps | apply Keeps.each)
    | extract_lets | dsimp only | split
    | (with_reducible first | apply Keeps.other)

theorem State.bootValidated_keeps {r : State} {s : State} {i : Image} (hk : Keeps r s) :
    Keeps r (State.bootValidated s i) := by
  unfold State.bootValidated
  repeat' first
    | intro _
    | (with_reducible first | assumption | exact Keeps.refl _ | apply State.puts_keeps | apply State.raise_keeps | apply State.imgFail_keeps | apply State.wr_keeps | apply State.noImage_keeps | apply Keeps.cond)
    | extract_lets | dsimp only | split
    | (with_reducible first | apply Keeps.other)

theorem execImgValidationDone_keeps {r : State} {f : ImageFile} {s : State} (hk : Keeps r s) :
    OutKeeps r (execImgValidationDone f s) := by
  unfold execImgValidationDone
  repeat' first
    | intro _
    | (with_reducible first | assumption | exact Keeps.refl _ | apply OutKeeps.next | apply State.bootValidated_keeps | apply State.wr_keeps | apply State.puts_keeps | apply State.imgEnd_keeps | apply State.imgFail_keeps | apply OutKeeps.cond | apply Keeps.cond)
    | extract_lets | dsimp only | split
    | (with_reducible first | apply Keeps.other)

theorem execPcIsolate_keeps {r : State} {s : State} (hk : Keeps r s) :
    OutKeeps r (execPcIsolate s) := by
  unfold execPcIsolate
  repeat' first
    | intro _
    | (with_reducible first | assumption | exact Keeps.refl _ | apply OutKeeps.next | apply State.wr_keeps | apply State.endTest_keeps | apply Keeps.each | apply OutKeeps.cond | apply Keeps.cond)
    | extract_lets | dsimp only | split

theorem execPcPause_keeps {r : State} {n : Lane} {egress : Bool} {s : State} (hk : Keeps r s) :
    OutKeeps r (execPcPause n egress s) := by
  unfold execPcPause
  repeat' first
    | intro _
    | (with_reducible first | assumption | exact Keeps.refl _ | apply OutKeeps.next | apply State.puts_keeps | apply State.setMask_keeps | apply State.fillMark_keeps | apply Keeps.when | apply OutKeeps.cond | apply Keeps.cond)
    | extract_lets | dsimp only | split

theorem execPcTableWrite_keeps {r : State} {s : State} (hk : Keeps r s) :
    OutKeeps r (execPcTableWrite s) := by
  unfold execPcTableWrite
  repeat' first
    | intro _
    | (with_reducible first | assumption | exact Keeps.refl _ | apply OutKeeps.next | apply State.loadStores_keeps | apply State.bgDone_keeps | apply State.pcTables_keeps | apply State.wr_keeps | apply State.dvfsKick_keeps | apply State.lrxFault_keeps | apply State.critStandby_keeps | apply State.enforce_keeps | apply Keeps.each | apply Keeps.when | apply OutKeeps.cond | apply Keeps.cond)
    | extract_lets | dsimp only | split
    | (with_reducible first | apply Keeps.other)

theorem execPcResume_keeps {r : State} {n : Lane} {egress : Bool} {s : State} (hk : Keeps r s) :
    OutKeeps r (execPcResume n egress s) := by
  unfold execPcResume
  repeat' first
    | intro _
    | (with_reducible first | assumption | exact Keeps.refl _ | apply OutKeeps.next | apply State.setMask_keeps | apply State.fillMark_keeps | apply State.bump_keeps | apply State.wr_keeps | apply State.pcFinish_keeps | apply Keeps.when | apply OutKeeps.cond | apply Keeps.cond)
    | extract_lets | dsimp only | split

theorem execImgPcClr_keeps {r : State} {s : State} (hk : Keeps r s) :
    OutKeeps r (execImgPcClr s) := by
  unfold execImgPcClr
  repeat' first
    | intro _
    | (with_reducible first | assumption | exact Keeps.refl _ | apply OutKeeps.next | apply State.access_keeps | apply State.puts_keeps)
    | extract_lets | dsimp only

theorem State.putRecord_keeps {r : State} {s : State} {c slot seq : Nat} (hk : Keeps r s) :
    Keeps r (State.putRecord s c slot seq) := by
  unfold State.putRecord
  repeat' first
    | intro _
    | (with_reducible first | assumption | exact Keeps.refl _ | apply State.nvmSet_keeps)
    | extract_lets

theorem State.spoilRecord_keeps {r : State} {s : State} {c : Nat} (hk : Keeps r s) :
    Keeps r (State.spoilRecord s c) := by
  unfold State.spoilRecord
  repeat' first
    | intro _
    | (with_reducible first | assumption | exact Keeps.refl _ | apply State.nvmSet_keeps)
    | extract_lets

theorem execFlashWriteDone_keeps {r : State} {bootRecord ok : Bool} {s : State} (hk : Keeps r s) :
    OutKeeps r (execFlashWriteDone bootRecord ok s) := by
  unfold execFlashWriteDone
  repeat' first
    | intro _
    | (with_reducible first | assumption | exact Keeps.refl _ | apply OutKeeps.next | apply State.putRecord_keeps | apply State.imgEnd_keeps | apply State.spoilRecord_keeps | apply State.imgFail_keeps | apply State.wr_keeps | apply State.cdbEnd_keeps | apply OutKeeps.cond | apply Keeps.cond)
    | extract_lets | split

theorem execWatchdogMiss_keeps {r : State} {core : Fin 4} {s : State} (hk : Keeps r s) :
    OutKeeps r (execWatchdogMiss core s) := by
  unfold execWatchdogMiss
  repeat' first
    | intro _
    | (with_reducible first | assumption | exact Keeps.refl _ | apply OutKeeps.next | apply State.puts_keeps | apply State.raise_keeps | apply OutKeeps.cond | apply Keeps.cond)
    | extract_lets | split

theorem execFwRestartDone_keeps {r : State} {bytes : List (BitVec 8)} {s : State} (hk : Keeps r s) :
    OutKeeps r (execFwRestartDone bytes s) := by
  unfold execFwRestartDone
  repeat' first
    | intro _
    | (with_reducible first | assumption | exact Keeps.refl _ | apply OutKeeps.next | apply State.wr_keeps | apply State.bump_keeps | apply State.raise_keeps | apply State.emit_keeps | apply State.noImage_keeps | apply OutKeeps.cond | apply Keeps.cond)
    | extract_lets | dsimp only | split

end Sys2Proof.Machine
end

