-- ==== Sys2Proof/Laws/KeepsBoot.lean ====
section
/-!
SUPPORT. The operations of Boot keep the queue and the invariant.
-/
set_option Elab.async false
set_option linter.all false
namespace Sys2Proof.Machine

theorem execVddAonPowerGood_keeps {r : State} {s : State} (hk : Keeps r s) :
    OutKeeps r (execVddAonPowerGood s) := by
  unfold execVddAonPowerGood
  repeat' first
    | intro _
    | (with_reducible first | assumption | exact Keeps.refl _ | apply OutKeeps.next | apply State.puts_keeps | apply OutKeeps.cond | apply Keeps.cond)
    | extract_lets | split

theorem State.loadLifecycle_keeps {r : State} {s : State} (hk : Keeps r s) :
    Keeps r (State.loadLifecycle s) := by
  unfold State.loadLifecycle
  repeat' first
    | intro _
    | (with_reducible first | assumption | exact Keeps.refl _ | apply State.wr_keeps | apply State.nvmSet_keeps | apply State.puts_keeps | apply Keeps.cond)
    | extract_lets | split

theorem State.loadFloor_keeps {r : State} {s : State} {ok : BitVec 3} (hk : Keeps r s) :
    Keeps r (State.loadFloor s ok) := by
  unfold State.loadFloor
  repeat' first
    | intro _
    | (with_reducible first | assumption | exact Keeps.refl _ | apply State.wr_keeps | apply State.wrb_keeps | apply Keeps.foldl)
    | extract_lets | dsimp only

theorem State.loadSafety_keeps {r : State} {s : State} {ok : Bool} (hk : Keeps r s) :
    Keeps r (State.loadSafety s ok) := by
  unfold State.loadSafety
  repeat' first
    | intro _
    | (with_reducible first | assumption | exact Keeps.refl _ | apply State.wr_keeps | apply State.puts_keeps | apply State.raise_keeps | apply Keeps.each | apply Keeps.cond | apply Keeps.cond_snd)
    | extract_lets | dsimp only | split

theorem State.powerUpValues_keeps {r : State} {s : State} (hk : Keeps r s) :
    Keeps r (State.powerUpValues s) := by
  unfold State.powerUpValues
  repeat' first
    | intro _
    | (with_reducible first | assumption | exact Keeps.refl _ | apply State.puts_keeps | apply State.wr_keeps | apply Keeps.each | apply Keeps.cond)
    | extract_lets | dsimp only | split

theorem State.loadFactory_keeps {r : State} {s : State} {ok : Bool} (hk : Keeps r s) :
    Keeps r (State.loadFactory s ok) := by
  unfold State.loadFactory
  repeat' first
    | intro _
    | (with_reducible first | assumption | exact Keeps.refl _ | apply State.wr_keeps | apply State.puts_keeps | apply Keeps.each | apply Keeps.cond)
    | extract_lets | dsimp only | split

theorem State.nvmLoad_keeps {r : State} {s : State} {l : NvmLoad} (hk : Keeps r s) :
    Keeps r (State.nvmLoad s l) := by
  unfold State.nvmLoad
  repeat' first
    | intro _
    | (with_reducible first | assumption | exact Keeps.refl _ | apply State.loadLifecycle_keeps | apply State.loadSecrets_keeps | apply State.loadFloor_keeps | apply State.loadSafety_keeps | apply State.wr_keeps | apply State.puts_keeps | apply State.loadFactory_keeps | apply State.raise_keeps | apply State.powerUpValues_keeps | apply State.debugOpen_keeps | apply Keeps.each | apply Keeps.when | apply Keeps.cond)
    | extract_lets | dsimp only | split

theorem execNvmLoadDone_keeps {r : State} {l : NvmLoad} {s : State} (hk : Keeps r s) :
    OutKeeps r (execNvmLoadDone l s) := by
  unfold execNvmLoadDone
  repeat' first
    | intro _
    | (with_reducible first | assumption | exact Keeps.refl _ | apply OutKeeps.next | apply State.nvmLoad_keeps | apply State.puts_keeps | apply OutKeeps.cond | apply Keeps.cond)
    | extract_lets | split

theorem State.loadPages_keeps {r : State} {s : State} (hk : Keeps r s) :
    Keeps r (State.loadPages s) := by
  unfold State.loadPages
  repeat' first
    | intro _
    | (with_reducible first | assumption | exact Keeps.refl _ | apply Keeps.cond)
    | extract_lets | split
    | (with_reducible first | refine Keeps.pages ?_ (fun w => Memory.wf_set _ _ _ w) | refine Keeps.pages ?_ (fun w => Memory.wf_setMany _ _ _ w) | apply Keeps.other)

theorem execSupplyReady_keeps {r : State} {voutLinear : Bool} {s : State} (hk : Keeps r s) :
    OutKeeps r (execSupplyReady voutLinear s) := by
  unfold execSupplyReady
  repeat' first
    | intro _
    | (with_reducible first | assumption | exact Keeps.refl _ | apply OutKeeps.next | apply State.puts_keeps | apply State.emit_keeps | apply State.raise_keeps | apply State.loadPages_keeps | apply State.pllCalStart_keeps | apply State.refreshRun_keeps | apply Keeps.when | apply OutKeeps.cond | apply Keeps.cond)
    | extract_lets | dsimp only | split

theorem State.wakeFailed_keeps {r : State} {s : State} (hk : Keeps r s) :
    Keeps r (State.wakeFailed s) := by
  unfold State.wakeFailed
  repeat' first
    | intro _
    | (with_reducible first | assumption | exact Keeps.refl _ | apply State.deepEnter_keeps | apply State.puts_keeps | apply State.wr_keeps | apply State.bump_keeps | apply State.raise_keeps | apply Keeps.when | apply Keeps.cond)
    | extract_lets | dsimp only | split

theorem execSupplyReadyTimeout_keeps {r : State} {s : State} (hk : Keeps r s) :
    OutKeeps r (execSupplyReadyTimeout s) := by
  unfold execSupplyReadyTimeout
  repeat' first
    | intro _
    | (with_reducible first | assumption | exact Keeps.refl _ | apply OutKeeps.next | apply State.puts_keeps | apply State.wakeFailed_keeps | apply State.wr_keeps | apply OutKeeps.cond | apply Keeps.cond)
    | extract_lets | split

theorem execWakeRetry_keeps {r : State} {s : State} (hk : Keeps r s) :
    OutKeeps r (execWakeRetry s) := by
  unfold execWakeRetry
  repeat' first
    | intro _
    | (with_reducible first | assumption | exact Keeps.refl _ | apply OutKeeps.next | apply State.puts_keeps | apply OutKeeps.cond | apply Keeps.cond)
    | extract_lets | split

theorem execDeepImageRereadDone_keeps {r : State} {bytes : List (BitVec 8)} {recOk : Bool} {s : State} (hk : Keeps r s) :
    OutKeeps r (execDeepImageRereadDone bytes recOk s) := by
  unfold execDeepImageRereadDone
  repeat' first
    | intro _
    | (with_reducible first | assumption | exact Keeps.refl _ | apply OutKeeps.next | apply State.wr_keeps | apply State.raise_keeps | apply State.puts_keeps | apply OutKeeps.cond | apply Keeps.cond)
    | extract_lets | dsimp only | split
    | (with_reducible first | apply Keeps.other)

theorem State.startLanes_keeps {r : State} {s : State} (hk : Keeps r s) :
    Keeps r (State.startLanes s) := by
  unfold State.startLanes
  repeat' first
    | intro _
    | (with_reducible first | assumption | exact Keeps.refl _ | apply State.wr_keeps | apply State.standbyEnter_keeps | apply State.puts_keeps | apply State.lrxEnableOn_keeps | apply State.ltxEnableOn_keeps | apply State.hifEnableOn_keeps | apply State.activeCheck_keeps | apply Keeps.each | apply Keeps.when | apply Keeps.cond)
    | extract_lets | dsimp only | split

theorem State.pllsRestart_keeps {r : State} {s : State} (hk : Keeps r s) :
    Keeps r (State.pllsRestart s) := by
  unfold State.pllsRestart
  repeat' first
    | intro _
    | (with_reducible first | assumption | exact Keeps.refl _ | apply State.pllsOff_keeps | apply State.wr_keeps | apply State.pllCalStart_keeps)
    | extract_lets

theorem State.recordLost_keeps {r : State} {s : State} {kind : RecordKind} {n : Nat} (hk : Keeps r s) :
    Keeps r (State.recordLost s kind n) := by
  unfold State.recordLost
  repeat' first
    | intro _
    | (with_reducible first | assumption | exact Keeps.refl _ | apply State.recordBad_keeps | apply State.resetFields_keeps | apply State.access_keeps)
    | extract_lets | dsimp only

theorem State.restoreRecords_keeps {r : State} {s : State} {badLrx badLtx : BitVec 8} (hk : Keeps r s) :
    Keeps r (State.restoreRecords s badLrx badLtx) := by
  unfold State.restoreRecords
  repeat' first
    | intro _
    | (with_reducible first | assumption | exact Keeps.refl _ | apply State.recordLost_keeps | apply State.wrb_keeps | apply State.wrNow_keeps | apply State.mapsOfMarks_keeps | apply Keeps.each | apply Keeps.when | apply Keeps.cond | apply Keeps.cond_snd)
    | extract_lets | dsimp only | split

theorem State.dropRecords_keeps {r s : State} (hk : Keeps r s) : Keeps r s.dropRecords := by
  unfold State.dropRecords
  exact Keeps.retained hk (fun i => Store.wf_filter _ _ i.retained_wf)

theorem execBootCommitDone_keeps {r : State} {badLrx badLtx : BitVec 8} {s : State} (hk : Keeps r s) :
    OutKeeps r (execBootCommitDone badLrx badLtx s) := by
  unfold execBootCommitDone
  repeat' first
    | intro _
    | (with_reducible first | assumption | exact Keeps.refl _ | apply OutKeeps.next | apply State.loadImage_keeps | apply State.setDomain_keeps | apply State.puts_keeps | apply State.xbarFollow_keeps | apply State.restoreRecords_keeps | apply State.startLanes_keeps | apply State.bootTests_keeps | apply State.dropRecords_keeps | apply State.imgEnd_keeps | apply State.pllsRestart_keeps | apply Keeps.each | apply Keeps.when | apply OutKeeps.cond | apply Keeps.cond | apply Keeps.cond_snd)
    | extract_lets | dsimp only | split
    | (with_reducible first | refine Keeps.records ?_ (fun _ => rfl) | apply Keeps.other)

theorem execStandbyWake_keeps {r : State} {badLrx badLtx : BitVec 8} {s : State} (hk : Keeps r s) :
    OutKeeps r (execStandbyWake badLrx badLtx s) := by
  unfold execStandbyWake
  repeat' first
    | intro _
    | (with_reducible first | assumption | exact Keeps.refl _ | apply OutKeeps.next | apply State.setDomain_keeps | apply State.puts_keeps | apply State.pllCalStart_keeps | apply State.restoreRecords_keeps | apply State.startLanes_keeps | apply State.lrxToCal_keeps | apply State.ltxRecheck_keeps | apply State.hifStart_keeps | apply State.activeCheck_keeps | apply Keeps.each | apply OutKeeps.cond | apply Keeps.cond)
    | extract_lets | dsimp only | split

theorem execBootBistDone_keeps {r : State} {s : State} (hk : Keeps r s) :
    OutKeeps r (execBootBistDone s) := by
  unfold execBootBistDone
  repeat' first
    | intro _
    | (with_reducible first | assumption | exact Keeps.refl _ | apply OutKeeps.next | apply State.raise_keeps | apply State.wr_keeps | apply State.startLanes_keeps | apply OutKeeps.cond | apply Keeps.cond)
    | extract_lets | dsimp only | split
    | (with_reducible first | apply Keeps.other)

end Sys2Proof.Machine
end

