-- ==== Sys2Proof/Laws/KeepsPages.lean ====
section
/-!
SUPPORT. The operations of Pages keep the queue and the invariant.
-/
set_option Elab.async false
set_option linter.all false
namespace Sys2Proof.Machine

theorem State.setCmisMask_keeps {r : State} {s : State} {k : CmisFlag} {n : Nat} {b : Bool} (hk : Keeps r s) :
    Keeps r (State.setCmisMask s k n b) := by
  unfold State.setCmisMask
  repeat' first
    | intro _
    | (with_reducible first | assumption | exact Keeps.refl _ | apply State.wrb_keeps | apply State.raise_keeps | apply Keeps.when)
    | extract_lets | dsimp only

theorem State.pageTouch_keeps {r : State} {s : State} {bank page off : Nat} (hk : Keeps r s) :
    Keeps r (State.pageTouch s bank page off) := by
  unfold State.pageTouch
  repeat' first
    | intro _
    | (with_reducible first | assumption | exact Keeps.refl _ | apply State.wr_keeps | apply Keeps.each | apply Keeps.cond)
    | extract_lets | dsimp only | split

theorem State.pageRead_keeps {r : State} {s : State} {bank page off k : Nat} (hk : Keeps r s) :
    Keeps r (State.pageRead s bank page off k).2 := by
  unfold State.pageRead
  repeat' first
    | intro _
    | (with_reducible first | assumption | exact Keeps.refl _ | apply State.pageTouch_keeps | apply Keeps.each)
    | extract_lets | dsimp only

theorem State.winWrite_keeps {r : State} {s : State} {off v : Nat} (hk : Keeps r s) :
    Keeps r (State.winWrite s off v) := by
  unfold State.winWrite
  repeat' first
    | intro _
    | (with_reducible first | assumption | exact Keeps.refl _ | apply Keeps.cond)
    | extract_lets | split
    | (with_reducible first | refine Keeps.pages ?_ (fun w => Memory.wf_set _ _ _ w) | refine Keeps.pages ?_ (fun w => Memory.wf_setMany _ _ _ w) | apply Keeps.other)

theorem State.deviceWrite_keeps {r : State} {s : State} {bank page off v : Nat} (hk : Keeps r s) :
    Keeps r (State.deviceWrite s bank page off v) := by
  unfold State.deviceWrite
  repeat' first
    | intro _
    | (with_reducible first | assumption | exact Keeps.refl _ | apply State.winWrite_keeps | apply State.setCmisMask_keeps | apply Keeps.each | apply Keeps.cond)
    | extract_lets | dsimp only | split
    | (with_reducible first | refine Keeps.pages ?_ (fun w => Memory.wf_set _ _ _ w) | refine Keeps.pages ?_ (fun w => Memory.wf_setMany _ _ _ w) | apply Keeps.other)

theorem State.lowerWrite_keeps {r : State} {s : State} {off v : Nat} (hk : Keeps r s) :
    Keeps r (State.lowerWrite s off v) := by
  unfold State.lowerWrite
  repeat' first
    | intro _
    | (with_reducible first | assumption | exact Keeps.refl _ | apply State.wr_keeps | apply State.setCmisMask_keeps | apply Keeps.each | apply Keeps.cond | apply Keeps.cond_snd)
    | extract_lets | dsimp only | split
    | (with_reducible first | refine Keeps.pages ?_ (fun w => Memory.wf_set _ _ _ w) | refine Keeps.pages ?_ (fun w => Memory.wf_setMany _ _ _ w) | apply Keeps.other)

theorem State.pageWrite_keeps {r : State} {s : State} {bank page off v : Nat} (hk : Keeps r s) :
    Keeps r (State.pageWrite s bank page off v) := by
  unfold State.pageWrite
  repeat' first
    | intro _
    | (with_reducible first | assumption | exact Keeps.refl _ | apply State.lowerWrite_keeps | apply State.deviceWrite_keeps | apply Keeps.cond)
    | extract_lets | dsimp only | split
    | (with_reducible first | refine Keeps.bufs ?_ (fun w => Memory.wf_set _ _ _ w) | apply Keeps.other)

theorem State.pageWrites_keeps {r : State} {s : State} {bank page off : Nat} {l : List Nat} (hk : Keeps r s) :
    Keeps r (State.pageWrites s bank page off l) := by
  unfold State.pageWrites
  repeat' first
    | intro _
    | (with_reducible first | assumption | exact Keeps.refl _ | apply State.pageWrite_keeps | apply Keeps.each)
    | extract_lets | dsimp only

theorem State.mcHostWrite_keeps {r : State} {s : State} {bank page off : Nat} {l : List Nat} (hk : Keeps r s) :
    Keeps r (State.mcHostWrite s bank page off l) := by
  unfold State.mcHostWrite
  repeat' first
    | intro _
    | (with_reducible first | assumption | exact Keeps.refl _ | apply State.pageWrites_keeps | apply State.setMask_keeps | apply State.raise_keeps | apply State.emit_keeps)
    | extract_lets | dsimp only | split

theorem State.windowSet_keeps {r s : State} {a w : Nat} (hk : Keeps r s) : OptKeeps r (s.windowSet a w) := by
  unfold State.windowSet
  cases windowPlace a with
  | none => exact OptKeeps.none
  | some p => exact OptKeeps.some (State.pageWrites_keeps hk)

end Sys2Proof.Machine
end

