-- ==== Sys2Proof/Laws/KeepsBus.lean ====
section
/-!
SUPPORT. The operations of Bus keep the queue and the invariant.
-/
set_option Elab.async false
set_option linter.all false
namespace Sys2Proof.Machine

theorem State.readReg_keeps {r0 : State} {s : State} {a : Nat} {r : Reg} (hk : Keeps r0 s) :
    Keeps r0 (State.readReg s a r).2 := by
  unfold State.readReg
  repeat' first
    | intro _
    | (with_reducible first | assumption | exact Keeps.refl _ | apply Keeps.foldl | apply Keeps.cond_snd | apply Keeps.cond | apply OptKeeps.getD)
    | extract_lets | dsimp only | split
    | (with_reducible first | apply Keeps.other)

theorem State.did_keeps {r s : State} {g : State → Out} (hk : Keeps r s)
    (hg : ∀ u, Keeps r u → OutKeeps r (g u)) : Keeps r (s.did g) := by
  have h := hg s hk
  unfold State.did
  split
  · rename_i t e; exact h.elim e
  · exact hk
  · exact hk

theorem State.readAt_keeps {r0 : State} {s : State} {a : Nat} {r : Reg} (hk : Keeps r0 s) :
    Keeps r0 (State.readAt s a r).2 := by
  unfold State.readAt
  repeat' first
    | intro _
    | (with_reducible first | assumption | exact Keeps.refl _ | apply State.evfPop_keeps | apply State.mbxPop_keeps | apply State.did_keeps | apply execTsfRead_keeps | apply State.readReg_keeps | apply State.free_keeps | apply Keeps.cond_snd | apply Keeps.cond)
    | extract_lets | dsimp only | split

theorem State.nvmWord_keeps {r : State} {s : State} {a : Nat} (hk : Keeps r s) :
    Keeps r (State.nvmWord s a).2 := by
  unfold State.nvmWord
  repeat' first
    | intro _
    | (with_reducible first | assumption | exact Keeps.refl _ | apply State.free_keeps | apply Keeps.cond_snd | apply Keeps.cond)
    | extract_lets | dsimp only | split

theorem State.windowWord_keeps {r s : State} {a : Nat} {q : Nat × State} (hk : Keeps r s)
    (hq : s.windowWord a = some q) : Keeps r q.2 := by
  unfold State.windowWord at hq
  cases hp : windowPlace a with
  | none => rw [hp] at hq; simp at hq
  | some p =>
    rw [hp] at hq
    simp only [Option.map_some, Option.some.injEq] at hq
    subst hq
    exact State.pageRead_keeps hk

theorem readEnds_keeps {r : State} {e : BusEnd} {q : Nat × State} (h : Keeps r q.2) : Keeps r (readEnds e q).2 := h

theorem State.busRead_keeps {r s : State} {addr : Nat} (hk : Keeps r s) : Keeps r (s.busRead addr).2 := by
  unfold State.busRead
  extract_lets a
  clear_value a
  with_reducible apply Keeps.cond_snd
  · split
    · rename_i q hq
      with_reducible apply readEnds_keeps
      exact State.windowWord_keeps hk hq
    · with_reducible apply readEnds_keeps
      with_reducible exact State.busErr_keeps hk
  · with_reducible apply Keeps.cond_snd
    · with_reducible apply readEnds_keeps
      with_reducible exact State.nvmWord_keeps hk
    · split
      · with_reducible apply readEnds_keeps
        with_reducible exact State.busErr_keeps hk
      · with_reducible apply Keeps.cond_snd
        · with_reducible apply readEnds_keeps
          with_reducible exact State.readAt_keeps hk
        · with_reducible apply readEnds_keeps
          with_reducible exact State.rgStopped_keeps hk

theorem State.putPlain_keeps {r : State} {s : State} {f : Field} {n i v : Nat} (hk : Keeps r s) :
    Keeps r (State.putPlain s f n i v) := by
  unfold State.putPlain
  repeat' first
    | intro _
    | (with_reducible first | assumption | exact Keeps.refl _ | apply State.wr_keeps | apply State.expertMark_keeps)
    | extract_lets

theorem State.standbySw_keeps {r : State} {s : State} {v : Nat} (hk : Keeps r s) :
    Keeps r (State.standbySw s v) := by
  unfold State.standbySw
  repeat' first
    | intro _
    | (with_reducible first | assumption | exact Keeps.refl _ | apply State.did_keeps | apply execStandbySwWrite_keeps | apply State.wr_keeps | apply State.wakeHeld_keeps | apply State.standbyRelease_keeps | apply State.deviceAbandon_keeps | apply Keeps.cond)
    | extract_lets | split

theorem State.dpllSource_keeps {r : State} {s : State} {v : Nat} (hk : Keeps r s) :
    Keeps r (State.dpllSource s v) := by
  unfold State.dpllSource
  repeat' first
    | intro _
    | (with_reducible first | assumption | exact Keeps.refl _ | apply State.puts_keeps | apply State.wr_keeps | apply Keeps.when | apply Keeps.cond)
    | extract_lets | dsimp only | split
    | (with_reducible first | apply Keeps.other)

theorem State.basePut_keeps {r : State} {s : State} {n k v : Nat} (hk : Keeps r s) :
    Keeps r (State.basePut s n k v) := by
  unfold State.basePut
  repeat' first
    | intro _
    | (with_reducible first | assumption | exact Keeps.refl _ | apply State.wr_keeps | apply State.puts_keeps | apply Keeps.cond)
    | extract_lets | split

theorem State.laneMaskPut_keeps {r : State} {s : State} {v : Nat} (hk : Keeps r s) :
    Keeps r (State.laneMaskPut s v) := by
  unfold State.laneMaskPut
  repeat' first
    | intro _
    | (with_reducible first | assumption | exact Keeps.refl _ | apply State.wr_keeps | apply State.envTrip_keeps | apply Keeps.each | apply Keeps.cond)
    | extract_lets | dsimp only | split

theorem State.monEnPut_keeps {r : State} {s : State} {v : Nat} (hk : Keeps r s) :
    Keeps r (State.monEnPut s v) := by
  unfold State.monEnPut
  repeat' first
    | intro _
    | (with_reducible first | assumption | exact Keeps.refl _ | apply State.wr_keeps | apply State.monSwitch_keeps | apply Keeps.each)
    | extract_lets | dsimp only

theorem State.monPut_keeps {r : State} {s : State} {f : Field} {c v : Nat} (hk : Keeps r s) :
    Keeps r (State.monPut s f c v) := by
  unfold State.monPut
  repeat' first
    | intro _
    | (with_reducible first | assumption | exact Keeps.refl _ | apply State.wr_keeps | apply State.monSwitch_keeps | apply Keeps.cond)
    | extract_lets | split

theorem State.enablePut_keeps {r : State} {s : State} {v : Nat} {on off : State → Out} (hgon : ∀ u, Keeps r u → OutKeeps r (on u)) (hgoff : ∀ u, Keeps r u → OutKeeps r (off u)) (hk : Keeps r s) :
    Keeps r (State.enablePut s v on off) := by
  unfold State.enablePut
  repeat' first
    | intro _
    | (with_reducible first | apply hgoff | apply hgon | assumption | exact Keeps.refl _ | apply State.did_keeps | apply Keeps.cond)
    | extract_lets | split

theorem State.sleepPut_keeps {r : State} {s : State} {lane : Lane} {egress : Bool} {v : Nat} (hk : Keeps r s) :
    Keeps r (State.sleepPut s lane egress v) := by
  unfold State.sleepPut
  repeat' first
    | intro _
    | (with_reducible first | assumption | exact Keeps.refl _ | apply State.enablePut_keeps | apply execSleepRequest_keeps | apply execSleepRequestClear_keeps | apply Keeps.cond)
    | extract_lets | split

theorem State.putField_keeps {r : State} {s : State} {f : Field} {n i v : Nat} (hk : Keeps r s) :
    Keeps r (State.putField s f n i v) := by
  unfold State.putField
  repeat' first
    | intro _
    | (with_reducible first | assumption | exact Keeps.refl _ | apply State.presetWrite_keeps | apply State.enablePut_keeps | apply execLrxEnable_keeps | apply execLrxDisable_keeps | apply execTxEnableRequest_keeps | apply execTxDisable_keeps | apply execHifEnable_keeps | apply execHifDisable_keeps | apply State.did_keeps | apply execAlignDoneWrite_keeps | apply State.wr_keeps | apply State.leqFollow_keeps | apply State.wrInt_keeps | apply State.expertMark_keeps | apply State.putPlain_keeps | apply State.sleepPut_keeps | apply execBudgetWrite_keeps | apply State.standbySw_keeps | apply State.standbyRequest_keeps | apply State.dvfsKick_keeps | apply State.writePoints_keeps | apply State.writeVout_keeps | apply State.evfFormatSet_keeps | apply State.mbxResize_keeps | apply State.dpllSource_keeps | apply State.exchClear_keeps | apply State.xbarFollow_keeps | apply State.monEnPut_keeps | apply State.monPut_keeps | apply State.basePut_keeps | apply State.raise_keeps | apply State.laneMaskPut_keeps | apply Keeps.when | apply Keeps.cond)
    | extract_lets | dsimp only | split

theorem State.putSlots_keeps {r0 : State} {s : State} {r : Reg} {v : Nat} (hk : Keeps r0 s) :
    Keeps r0 (State.putSlots s r v) := by
  unfold State.putSlots
  repeat' first
    | intro _
    | (with_reducible first | assumption | exact Keeps.refl _ | apply State.access_keeps | apply State.putField_keeps | apply Keeps.each | apply Keeps.cond)
    | extract_lets | dsimp only | split

theorem State.regSettle_keeps {r0 : State} {s : State} {r : Reg} (hk : Keeps r0 s) :
    Keeps r0 (State.regSettle s r) := by
  unfold State.regSettle
  repeat' first
    | intro _
    | (with_reducible first | assumption | exact Keeps.refl _ | apply State.configSettle_keeps | apply State.wr_keeps | apply State.puts_keeps | apply Keeps.each | apply Keeps.when | apply Keeps.cond)
    | extract_lets | dsimp only | split

theorem State.clearSlots_keeps {r0 : State} {s : State} {r : Reg} {v : Nat} (hk : Keeps r0 s) :
    Keeps r0 (State.clearSlots s r v) := by
  unfold State.clearSlots
  repeat' first
    | intro _
    | (with_reducible first | assumption | exact Keeps.refl _ | apply State.access_keeps | apply State.clearLasting_keeps | apply State.wr_keeps | apply Keeps.each | apply Keeps.cond)
    | extract_lets | dsimp only | split

theorem State.forceSlots_keeps {r0 : State} {s : State} {r : Reg} {v : Nat} (hk : Keeps r0 s) :
    Keeps r0 (State.forceSlots s r v) := by
  unfold State.forceSlots
  repeat' first
    | intro _
    | (with_reducible first | assumption | exact Keeps.refl _ | apply State.access_keeps | apply State.wr_keeps | apply Keeps.each | apply Keeps.cond)
    | extract_lets | dsimp only | split
    | (with_reducible first | apply Keeps.other)

theorem State.bistCmd_keeps {r : State} {s : State} (hk : Keeps r s) :
    Keeps r (State.bistCmd s) := by
  unfold State.bistCmd
  repeat' first
    | intro _
    | (with_reducible first | assumption | exact Keeps.refl _ | apply State.bistGo_keeps)
    | extract_lets

theorem State.todCmd_keeps {r : State} {s : State} (hk : Keeps r s) :
    Keeps r (State.todCmd s) := by
  unfold State.todCmd
  repeat' first
    | intro _
    | (with_reducible first | assumption | exact Keeps.refl _ | apply State.did_keeps | apply execTodSetNow_keeps | apply execTodSetAtTimeIn_keeps | apply execTodStep_keeps | apply execTodSlew_keeps)
    | extract_lets | dsimp only | split

theorem State.startCommand_keeps {r : State} {s : State} {f : Field} {n v : Nat} (hk : Keeps r s) :
    Keeps r (State.startCommand s f n v) := by
  unfold State.startCommand
  repeat' first
    | intro _
    | (with_reducible first | assumption | exact Keeps.refl _ | apply State.did_keeps | apply execStraitErrClr_keeps | apply State.imgGo_keeps | apply execImgPcClr_keeps | apply execLrxCommit_keeps | apply execLrxRestart_keeps | apply execLrxCntClr_keeps | apply execLeqCommit_keeps | apply execCoefSnap_keeps | apply execLeqCntClr_keeps | apply execHistStart_keeps | apply execLtxCommit_keeps | apply execLtxCntClr_keeps | apply execLtxRestart_keeps | apply execWakeSend_keeps | apply execLfrCntClr_keeps | apply execReneg_keeps | apply execProfileChange_keeps | apply execArcCntClr_keeps | apply execArcClCntClr_keeps | apply execHifCommit_keeps | apply execHifCntClr_keeps | apply execHifRetrain_keeps | apply execHifSlip_keeps | apply execHifGlbCntClr_keeps | apply execTimCntClr_keeps | apply State.todCmd_keeps | apply execTsfFlush_keeps | apply execTimLnCntClr_keeps | apply execRestartAvg_keeps | apply execClkCntClr_keeps | apply execPllCalReq_keeps | apply execOptCntClr_keeps | apply execEnvSave_keeps | apply execPbTransaction_keeps | apply execMonCntClr_keeps | apply execMonSwap_keeps | apply execPwrCntClr_keeps | apply execDeep_keeps | apply execThmCntClr_keeps | apply execCritClr_keeps | apply execRestore_keeps | apply execHltCntClr_keeps | apply State.bistCmd_keeps | apply execMgtCntClr_keeps | apply State.mbxAbort_keeps | apply State.evfFlushNow_keeps | apply State.secGo_keeps)
    | extract_lets | dsimp only | split

theorem State.commandSlots_keeps {r0 : State} {s : State} {r : Reg} {v : Nat} (hk : Keeps r0 s) :
    Keeps r0 (State.commandSlots s r v) := by
  unfold State.commandSlots
  repeat' first
    | intro _
    | (with_reducible first | assumption | exact Keeps.refl _ | apply State.access_keeps | apply State.startCommand_keeps | apply State.mbxWord_keeps | apply Keeps.each | apply Keeps.cond)
    | extract_lets | dsimp only | split

theorem State.writeReg_keeps {r0 : State} {s : State} {r : Reg} {v : Nat} (hk : Keeps r0 s) :
    Keeps r0 (State.writeReg s r v) := by
  unfold State.writeReg
  repeat' first
    | intro _
    | (with_reducible first | assumption | exact Keeps.refl _ | apply State.putSlots_keeps | apply State.regSettle_keeps | apply State.clearSlots_keeps | apply State.forceSlots_keeps | apply State.commandSlots_keeps)
    | extract_lets

theorem State.writeAt_keeps {r0 : State} {s : State} {a : Nat} {r : Reg} {w : Nat} (hk : Keeps r0 s) :
    Keeps r0 (State.writeAt s a r w) := by
  unfold State.writeAt
  repeat' first
    | intro _
    | (with_reducible first | assumption | exact Keeps.refl _ | apply State.writeReg_keeps | apply Keeps.cond | apply OptKeeps.getD)
    | extract_lets | dsimp only | split
    | (with_reducible first | apply Keeps.other)

theorem State.busWrite_keeps {r : State} {s : State} {addr w : Nat} (hk : Keeps r s) :
    Keeps r (State.busWrite s addr w).2 := by
  unfold State.busWrite
  repeat' first
    | intro _
    | (with_reducible first | assumption | exact Keeps.refl _ | apply State.windowSet_keeps | apply State.busErr_keeps | apply State.writeAt_keeps | apply State.rgStopped_keeps | apply Keeps.cond_snd | apply Keeps.cond)
    | extract_lets | dsimp only | split | (with_reducible refine OptKeeps.elim (State.windowSet_keeps ?_) (by assumption))

theorem State.fabric_keeps {r : State} {s : State} {g : State → State} (hgg : ∀ u, Keeps r u → Keeps r (g u)) (hk : Keeps r s) :
    Keeps r (State.fabric s g) := by
  unfold State.fabric
  repeat' first
    | intro _
    | (with_reducible first | apply hgg | assumption | exact Keeps.refl _ | apply Keeps.cond)
    | extract_lets | split

theorem execRegisterWrite_keeps {r : State} {a w : Word} {s : State} (hk : Keeps r s) :
    OutKeeps r (execRegisterWrite a w s) := by
  unfold execRegisterWrite
  repeat' first
    | intro _
    | (with_reducible first | assumption | exact Keeps.refl _ | apply OutKeeps.next | apply State.fabric_keeps | apply State.busWrite_keeps)
    | extract_lets | dsimp only

theorem execHltSrcCfgWrite_keeps {r : State} {src : Fin 16} {word1 : Bool} {v : Word} {s : State} (hk : Keeps r s) :
    OutKeeps r (execHltSrcCfgWrite src word1 v s) := by
  unfold execHltSrcCfgWrite
  repeat' first
    | intro _
    | (with_reducible first | assumption | exact Keeps.refl _ | apply OutKeeps.next | apply State.fabric_keeps | apply State.busWrite_keeps)
    | extract_lets | dsimp only

theorem execNarrowAccess_keeps {r : State} {write : Bool} {s : State} (hk : Keeps r s) :
    OutKeeps r (execNarrowAccess write s) := by
  unfold execNarrowAccess
  repeat' first
    | intro _
    | (with_reducible first | assumption | exact Keeps.refl _ | apply OutKeeps.next | apply State.fabric_keeps | apply State.busErr_keeps | apply State.answerWord_keeps | apply OutKeeps.cond | apply Keeps.cond)
    | extract_lets | dsimp only | split

theorem execUnmappedAccess_keeps {r : State} {a : Word} {write : Bool} {s : State} (hk : Keeps r s) :
    OutKeeps r (execUnmappedAccess a write s) := by
  unfold execUnmappedAccess
  repeat' first
    | intro _
    | (with_reducible first | assumption | exact Keeps.refl _ | apply OutKeeps.next | apply State.fabric_keeps | apply State.busErr_keeps | apply State.answerWord_keeps | apply OutKeeps.cond | apply Keeps.cond)
    | extract_lets | dsimp only | split

theorem execSnapshotRead_keeps {r : State} {a : Word} {s : State} (hk : Keeps r s) :
    OutKeeps r (execSnapshotRead a s) := by
  unfold execSnapshotRead
  repeat' first
    | intro _
    | (with_reducible first | assumption | exact Keeps.refl _ | apply OutKeeps.next | apply State.fabric_keeps | apply State.busRead_keeps | apply State.answerWord_keeps)
    | extract_lets | dsimp only

theorem State.writeWhere_keeps {r : State} {s : State} {a w : Nat} {p : Reg → Bool} (hk : Keeps r s) :
    Keeps r (State.writeWhere s a w p) := by
  unfold State.writeWhere
  repeat' first
    | intro _
    | (with_reducible first | assumption | exact Keeps.refl _ | apply State.busWrite_keeps | apply Keeps.cond | apply Keeps.cond_snd)
    | extract_lets | dsimp only | split

theorem execIntStatusClear_keeps {r : State} {a w : Word} {s : State} (hk : Keeps r s) :
    OutKeeps r (execIntStatusClear a w s) := by
  unfold execIntStatusClear
  repeat' first
    | intro _
    | (with_reducible first | assumption | exact Keeps.refl _ | apply OutKeeps.next | apply State.fabric_keeps | apply State.writeWhere_keeps)
    | extract_lets | dsimp only

theorem execIntForceWrite_keeps {r : State} {a w : Word} {s : State} (hk : Keeps r s) :
    OutKeeps r (execIntForceWrite a w s) := by
  unfold execIntForceWrite
  repeat' first
    | intro _
    | (with_reducible first | assumption | exact Keeps.refl _ | apply OutKeeps.next | apply State.fabric_keeps | apply State.writeWhere_keeps | apply State.access_keeps)
    | extract_lets | dsimp only

theorem execExpertOverrideWrite_keeps {r : State} {a w : Word} {s : State} (hk : Keeps r s) :
    OutKeeps r (execExpertOverrideWrite a w s) := by
  unfold execExpertOverrideWrite
  repeat' first
    | intro _
    | (with_reducible first | assumption | exact Keeps.refl _ | apply OutKeeps.next | apply State.fabric_keeps | apply State.writeWhere_keeps)
    | extract_lets | dsimp only

theorem execRgStoppedAccess_keeps {r : State} {a : Word} {write : Bool} {s : State} (hk : Keeps r s) :
    OutKeeps r (execRgStoppedAccess a write s) := by
  unfold execRgStoppedAccess
  repeat' first
    | intro _
    | (with_reducible first | assumption | exact Keeps.refl _ | apply OutKeeps.next | apply State.fabric_keeps | apply State.rgStopped_keeps | apply State.answerWord_keeps | apply OutKeeps.cond | apply Keeps.cond)
    | extract_lets | dsimp only | split

end Sys2Proof.Machine
end

