-- ==== Sys2Proof/Laws/KeepsManagement.lean ====
section
/-!
SUPPORT. The operations of Management keep the queue and the invariant.
-/
set_option Elab.async false
set_option linter.all false
namespace Sys2Proof.Machine

theorem State.answers_keeps {r : State} {s : State} {l : List Nat} (hk : Keeps r s) :
    Keeps r (State.answers s l) := by
  unfold State.answers
  repeat' first
    | intro _
    | (with_reducible first | assumption | exact Keeps.refl _)
    | extract_lets
    | (with_reducible first | apply Keeps.other)

theorem State.hostBus_keeps {r : State} {s : State} {target addr : Nat} {g : State → State} (hgg : ∀ u, Keeps r u → Keeps r (g u)) (hk : Keeps r s) :
    Keeps r (State.hostBus s target addr g) := by
  unfold State.hostBus
  repeat' first
    | intro _
    | (with_reducible first | apply hgg | assumption | exact Keeps.refl _ | apply State.answers_keeps | apply State.wakeDevice_keeps | apply Keeps.when | apply Keeps.cond)
    | extract_lets | dsimp only | split

theorem State.hostWrite_keeps {r : State} {s : State} {off : Nat} {data : List Nat} (hk : Keeps r s) :
    Keeps r (State.hostWrite s off data) := by
  unfold State.hostWrite
  repeat' first
    | intro _
    | (with_reducible first | assumption | exact Keeps.refl _ | apply State.answers_keeps | apply State.pageWrites_keeps | apply State.mcHostWrite_keeps | apply Keeps.cond)
    | extract_lets | split

theorem execHostBusWrite_keeps {r : State} {target : BitVec 7} {off : BitVec 8} {data : List (BitVec 8)} {s : State} (hk : Keeps r s) :
    OutKeeps r (execHostBusWrite target off data s) := by
  unfold execHostBusWrite
  repeat' first
    | intro _
    | (with_reducible first | assumption | exact Keeps.refl _ | apply OutKeeps.next | apply State.hostBus_keeps | apply State.hostWrite_keeps)
    | extract_lets | dsimp only

theorem execHostBusRead_keeps {r : State} {target : BitVec 7} {off : BitVec 8} {count : BitVec 9} {s : State} (hk : Keeps r s) :
    OutKeeps r (execHostBusRead target off count s) := by
  unfold execHostBusRead
  repeat' first
    | intro _
    | (with_reducible first | assumption | exact Keeps.refl _ | apply OutKeeps.next | apply State.hostBus_keeps | apply State.pageRead_keeps | apply State.answers_keeps)
    | extract_lets | dsimp only

theorem State.i3cEnter_keeps {r : State} {s : State} {dyn : Nat} (hk : Keeps r s) :
    Keeps r (State.i3cEnter s dyn) := by
  unfold State.i3cEnter
  repeat' first
    | intro _
    | (with_reducible first | assumption | exact Keeps.refl _ | apply State.puts_keeps)
    | extract_lets

theorem execI3cEntdaa_keeps {r : State} {dyn : BitVec 7} {s : State} (hk : Keeps r s) :
    OutKeeps r (execI3cEntdaa dyn s) := by
  unfold execI3cEntdaa
  repeat' first
    | intro _
    | (with_reducible first | assumption | exact Keeps.refl _ | apply OutKeeps.next | apply State.i3cEnter_keeps | apply OutKeeps.cond | apply Keeps.cond)
    | extract_lets | split

theorem execI3cSetdasa_keeps {r : State} {target dyn : BitVec 7} {s : State} (hk : Keeps r s) :
    OutKeeps r (execI3cSetdasa target dyn s) := by
  unfold execI3cSetdasa
  repeat' first
    | intro _
    | (with_reducible first | assumption | exact Keeps.refl _ | apply OutKeeps.next | apply State.hostBus_keeps | apply State.answers_keeps | apply State.i3cEnter_keeps | apply OutKeeps.cond | apply Keeps.cond)
    | extract_lets | dsimp only | split

theorem State.i3c_keeps {r : State} {s : State} {target : BitVec 7} {g : State → State} (hgg : ∀ u, Keeps r u → Keeps r (g u)) (hk : Keeps r s) :
    Keeps r (State.i3c s target g) := by
  unfold State.i3c
  repeat' first
    | intro _
    | (with_reducible first | apply hgg | assumption | exact Keeps.refl _ | apply State.hostBus_keeps | apply State.answers_keeps | apply Keeps.cond)
    | extract_lets | dsimp only | split

theorem execI3cSetnewda_keeps {r : State} {target dyn : BitVec 7} {s : State} (hk : Keeps r s) :
    OutKeeps r (execI3cSetnewda target dyn s) := by
  unfold execI3cSetnewda
  repeat' first
    | intro _
    | (with_reducible first | assumption | exact Keeps.refl _ | apply OutKeeps.next | apply State.i3c_keeps | apply State.wr_keeps)
    | extract_lets | dsimp only

theorem execI3cRstdaa_keeps {r : State} {s : State} (hk : Keeps r s) :
    OutKeeps r (execI3cRstdaa s) := by
  unfold execI3cRstdaa
  repeat' first
    | intro _
    | (with_reducible first | assumption | exact Keeps.refl _ | apply OutKeeps.next | apply State.puts_keeps | apply OutKeeps.cond | apply Keeps.cond)
    | extract_lets | split

theorem execI3cGetpid_keeps {r : State} {target : BitVec 7} {s : State} (hk : Keeps r s) :
    OutKeeps r (execI3cGetpid target s) := by
  unfold execI3cGetpid
  repeat' first
    | intro _
    | (with_reducible first | assumption | exact Keeps.refl _ | apply OutKeeps.next | apply State.i3c_keeps | apply State.answers_keeps)
    | extract_lets | dsimp only

theorem execI3cGetbcr_keeps {r : State} {target : BitVec 7} {s : State} (hk : Keeps r s) :
    OutKeeps r (execI3cGetbcr target s) := by
  unfold execI3cGetbcr
  repeat' first
    | intro _
    | (with_reducible first | assumption | exact Keeps.refl _ | apply OutKeeps.next | apply State.i3c_keeps | apply State.answers_keeps)
    | extract_lets | dsimp only

theorem execI3cGetdcr_keeps {r : State} {target : BitVec 7} {s : State} (hk : Keeps r s) :
    OutKeeps r (execI3cGetdcr target s) := by
  unfold execI3cGetdcr
  repeat' first
    | intro _
    | (with_reducible first | assumption | exact Keeps.refl _ | apply OutKeeps.next | apply State.i3c_keeps | apply State.answers_keeps)
    | extract_lets | dsimp only

theorem execI3cGetstatus_keeps {r : State} {target : BitVec 7} {s : State} (hk : Keeps r s) :
    OutKeeps r (execI3cGetstatus target s) := by
  unfold execI3cGetstatus
  repeat' first
    | intro _
    | (with_reducible first | assumption | exact Keeps.refl _ | apply OutKeeps.next | apply State.i3c_keeps | apply State.free_keeps | apply State.answers_keeps)
    | extract_lets | dsimp only

theorem execI3cGetmwl_keeps {r : State} {target : BitVec 7} {s : State} (hk : Keeps r s) :
    OutKeeps r (execI3cGetmwl target s) := by
  unfold execI3cGetmwl
  repeat' first
    | intro _
    | (with_reducible first | assumption | exact Keeps.refl _ | apply OutKeeps.next | apply State.i3c_keeps | apply State.answers_keeps)
    | extract_lets | dsimp only

theorem execI3cSetmwl_keeps {r : State} {target : BitVec 7} {v : BitVec 16} {s : State} (hk : Keeps r s) :
    OutKeeps r (execI3cSetmwl target v s) := by
  unfold execI3cSetmwl
  repeat' first
    | intro _
    | (with_reducible first | assumption | exact Keeps.refl _ | apply OutKeeps.next | apply State.i3c_keeps | apply State.wr_keeps)
    | extract_lets | dsimp only

theorem execI3cGetmrl_keeps {r : State} {target : BitVec 7} {s : State} (hk : Keeps r s) :
    OutKeeps r (execI3cGetmrl target s) := by
  unfold execI3cGetmrl
  repeat' first
    | intro _
    | (with_reducible first | assumption | exact Keeps.refl _ | apply OutKeeps.next | apply State.i3c_keeps | apply State.answers_keeps)
    | extract_lets | dsimp only

theorem execI3cSetmrl_keeps {r : State} {target : BitVec 7} {v : BitVec 16} {s : State} (hk : Keeps r s) :
    OutKeeps r (execI3cSetmrl target v s) := by
  unfold execI3cSetmrl
  repeat' first
    | intro _
    | (with_reducible first | assumption | exact Keeps.refl _ | apply OutKeeps.next | apply State.i3c_keeps | apply State.wr_keeps)
    | extract_lets | dsimp only

theorem execI3cUnsupportedCcc_keeps {r : State} {s : State} (hk : Keeps r s) :
    OutKeeps r (execI3cUnsupportedCcc s) := by
  unfold execI3cUnsupportedCcc
  repeat' first
    | intro _
    | (with_reducible first | assumption | exact Keeps.refl _ | apply OutKeeps.next | apply State.answers_keeps)
    | extract_lets

theorem execMcPageHostWrite_keeps {r : State} {bank : BitVec 1} {page : BitVec 8} {off : BitVec 7} {data : List (BitVec 8)} {s : State} (hk : Keeps r s) :
    OutKeeps r (execMcPageHostWrite bank page off data s) := by
  unfold execMcPageHostWrite
  repeat' first
    | intro _
    | (with_reducible first | assumption | exact Keeps.refl _ | apply OutKeeps.next | apply State.mcHostWrite_keeps | apply OutKeeps.cond | apply Keeps.cond)
    | extract_lets | split

theorem State.winDone_keeps {r s : State} {status : Nat} (hk : Keeps r s) : Keeps r (s.winDone status) := by
  unfold State.winDone
  extract_lets inc nx m
  have hm : s.pages.wf = true → m.wf = true := fun w => Memory.wf_set _ _ _ (Memory.wf_set _ _ _ w)
  clear_value m
  with_reducible refine Keeps.pages hk ?_
  intro w
  split
  · exact Memory.wf_setMany _ _ _ (hm w)
  · exact hm w

theorem execWindowRead_keeps {r : State} {s : State} (hk : Keeps r s) :
    OutKeeps r (execWindowRead s) := by
  unfold execWindowRead
  repeat' first
    | intro _
    | (with_reducible first | assumption | exact Keeps.refl _ | apply OutKeeps.next | apply State.winDone_keeps | apply State.busRead_keeps | apply OutKeeps.cond | apply Keeps.cond | apply Keeps.cond_snd)
    | extract_lets | dsimp only | split
    | (with_reducible first | refine Keeps.pages ?_ (fun w => Memory.wf_set _ _ _ w) | refine Keeps.pages ?_ (fun w => Memory.wf_setMany _ _ _ w) | apply Keeps.other)

theorem execWindowWrite_keeps {r : State} {s : State} (hk : Keeps r s) :
    OutKeeps r (execWindowWrite s) := by
  unfold execWindowWrite
  repeat' first
    | intro _
    | (with_reducible first | assumption | exact Keeps.refl _ | apply OutKeeps.next | apply State.winDone_keeps | apply State.busWrite_keeps | apply OutKeeps.cond | apply Keeps.cond | apply Keeps.cond_snd)
    | extract_lets | dsimp only | split

theorem State.spi_keeps {r : State} {s : State} {g : State → State} (hgg : ∀ u, Keeps r u → Keeps r (g u)) (hk : Keeps r s) :
    Keeps r (State.spi s g) := by
  unfold State.spi
  repeat' first
    | intro _
    | (with_reducible first | apply hgg | assumption | exact Keeps.refl _ | apply State.wakeDevice_keeps | apply State.answers_keeps | apply Keeps.when | apply Keeps.cond)
    | extract_lets | dsimp only | split

theorem Keeps.foldl_snd {α β : Type} {r : State} {l : List α} {g : β × State → α → β × State} {b : β × State}
    (h : Keeps r b.2) (hg : ∀ a u, Keeps r u.2 → Keeps r (g u a).2) : Keeps r (l.foldl g b).2 := by
  induction l generalizing b with
  | nil => exact h
  | cons a l ih => exact ih (hg a b h)

theorem State.readMany_keeps {r s : State} {l : List Nat} (hk : Keeps r s) : Keeps r (s.readMany l).2 := by
  unfold State.readMany
  with_reducible apply Keeps.foldl_snd
  · exact hk
  · intro a u hu
    dsimp only
    with_reducible exact State.busRead_keeps hu

theorem execSpiWrite_keeps {r : State} {a : Word} {data : List (BitVec 8)} {s : State} (hk : Keeps r s) :
    OutKeeps r (execSpiWrite a data s) := by
  unfold execSpiWrite
  repeat' first
    | intro _
    | (with_reducible first | assumption | exact Keeps.refl _ | apply OutKeeps.next | apply State.spi_keeps | apply State.busWrite_keeps | apply Keeps.each)
    | extract_lets | dsimp only

theorem execSpiRead_keeps {r : State} {a : Word} {count : BitVec 10} {s : State} (hk : Keeps r s) :
    OutKeeps r (execSpiRead a count s) := by
  unfold execSpiRead
  repeat' first
    | intro _
    | (with_reducible first | assumption | exact Keeps.refl _ | apply OutKeeps.next | apply State.spi_keeps | apply State.readMany_keeps | apply State.answers_keeps)
    | extract_lets | dsimp only

theorem execSpiUnknownCmd_keeps {r : State} {s : State} (hk : Keeps r s) :
    OutKeeps r (execSpiUnknownCmd s) := by
  unfold execSpiUnknownCmd
  repeat' first
    | intro _
    | (with_reducible first | assumption | exact Keeps.refl _ | apply OutKeeps.next | apply State.spi_keeps | apply State.raise_keeps | apply State.answers_keeps)
    | extract_lets | dsimp only

theorem execCmisControlAct_keeps {r : State} {c : CmisControl} {s : State} (hk : Keeps r s) :
    OutKeeps r (execCmisControlAct c s) := by
  unfold execCmisControlAct
  repeat' first
    | intro _
    | (with_reducible first | assumption | exact Keeps.refl _ | apply OutKeeps.next | apply State.putField_keeps | apply State.access_keeps | apply State.configSettle_keeps | apply State.did_keeps | apply execLtxCommit_keeps | apply OutKeeps.cond | apply Keeps.cond)
    | extract_lets | dsimp only | split

theorem execCmisDpdeinit_keeps {r : State} {n : Lane} {v : Bool} {s : State} (hk : Keeps r s) :
    OutKeeps r (execCmisDpdeinit n v s) := by
  unfold execCmisDpdeinit
  repeat' first
    | intro _
    | (with_reducible first | assumption | exact Keeps.refl _ | apply OutKeeps.next | apply State.setMask_keeps | apply State.cmis_keeps | apply State.did_keeps | apply execTxDisable_keeps | apply execLrxDisable_keeps | apply execLrxEnable_keeps | apply execTxEnableRequest_keeps | apply Keeps.when | apply OutKeeps.cond | apply Keeps.cond)
    | extract_lets | dsimp only | split

theorem execCmisApplyDpinit_keeps {r : State} {n : Lane} {c : ControlSet} {s : State} (hk : Keeps r s) :
    OutKeeps r (execCmisApplyDpinit n c s) := by
  unfold execCmisApplyDpinit
  repeat' first
    | intro _
    | (with_reducible first | assumption | exact Keeps.refl _ | apply OutKeeps.next | apply State.access_keeps | apply State.presetWrite_keeps | apply State.wr_keeps | apply State.configSettle_keeps | apply State.puts_keeps | apply State.did_keeps | apply execHifCommit_keeps | apply execLrxCommit_keeps | apply execLeqCommit_keeps | apply execLtxCommit_keeps | apply State.enablePut_keeps | apply execTxEnableRequest_keeps | apply execTxDisable_keeps | apply Keeps.each | apply OutKeeps.cond | apply Keeps.cond)
    | extract_lets | dsimp only | split

theorem execCmisLowpwrRequestSw_keeps {r : State} {v : Bool} {s : State} (hk : Keeps r s) :
    OutKeeps r (execCmisLowpwrRequestSw v s) := by
  unfold execCmisLowpwrRequestSw
  repeat' first
    | intro _
    | (with_reducible first | assumption | exact Keeps.refl _ | apply OutKeeps.next | apply State.putField_keeps | apply OutKeeps.cond | apply Keeps.cond)
    | extract_lets | split

theorem State.cdb_keeps {r : State} {s : State} {rom password : Bool} {g : State → State} (hgg : ∀ u, Keeps r u → Keeps r (g u)) (hk : Keeps r s) :
    Keeps r (State.cdb s rom password g) := by
  unfold State.cdb
  repeat' first
    | intro _
    | (with_reducible first | apply hgg | assumption | exact Keeps.refl _ | apply State.wr_keeps | apply State.cdbEnd_keeps | apply Keeps.cond)
    | extract_lets | split

theorem State.cdbImage_keeps {r : State} {s : State} {op slot lead : Nat} (hk : Keeps r s) :
    Keeps r (State.cdbImage s op slot lead) := by
  unfold State.cdbImage
  repeat' first
    | intro _
    | (with_reducible first | assumption | exact Keeps.refl _ | apply State.free_keeps | apply State.imgGo_keeps | apply State.puts_keeps | apply State.wr_keeps | apply State.cdbEnd_keeps | apply Keeps.cond)
    | extract_lets | split

theorem State.cdbFlashStart_keeps {r : State} {s : State} (hk : Keeps r s) :
    Keeps r (State.cdbFlashStart s) := by
  unfold State.cdbFlashStart
  repeat' first
    | intro _
    | (with_reducible first | assumption | exact Keeps.refl _ | apply State.puts_keeps)
    | extract_lets

theorem execCdbQueryStatus_keeps {r : State} {s : State} (hk : Keeps r s) :
    OutKeeps r (execCdbQueryStatus s) := by
  unfold execCdbQueryStatus
  repeat' first
    | intro _
    | (with_reducible first | assumption | exact Keeps.refl _ | apply OutKeeps.next | apply State.answers_keeps | apply OutKeeps.cond | apply Keeps.cond)
    | extract_lets | split

theorem execCdbEnterPassword_keeps {r : State} {pw : Word} {s : State} (hk : Keeps r s) :
    OutKeeps r (execCdbEnterPassword pw s) := by
  unfold execCdbEnterPassword
  repeat' first
    | intro _
    | (with_reducible first | assumption | exact Keeps.refl _ | apply OutKeeps.next | apply State.cdb_keeps | apply State.wr_keeps | apply State.cdbEnd_keeps | apply OutKeeps.cond | apply Keeps.cond)
    | extract_lets | dsimp only | split

theorem execCdbChangePassword_keeps {r : State} {pw : Word} {s : State} (hk : Keeps r s) :
    OutKeeps r (execCdbChangePassword pw s) := by
  unfold execCdbChangePassword
  repeat' first
    | intro _
    | (with_reducible first | assumption | exact Keeps.refl _ | apply OutKeeps.next | apply State.cdb_keeps | apply State.cdbEnd_keeps | apply State.puts_keeps | apply State.setMask_keeps | apply OutKeeps.cond | apply Keeps.cond)
    | extract_lets | dsimp only | split

theorem execCdbAbort_keeps {r : State} {s : State} (hk : Keeps r s) :
    OutKeeps r (execCdbAbort s) := by
  unfold execCdbAbort
  repeat' first
    | intro _
    | (with_reducible first | assumption | exact Keeps.refl _ | apply OutKeeps.next | apply State.wr_keeps | apply State.cdbEnd_keeps | apply OutKeeps.cond | apply Keeps.cond)
    | extract_lets | split

theorem execCdbModuleFeatures_keeps {r : State} {s : State} (hk : Keeps r s) :
    OutKeeps r (execCdbModuleFeatures s) := by
  unfold execCdbModuleFeatures
  repeat' first
    | intro _
    | (with_reducible first | assumption | exact Keeps.refl _ | apply OutKeeps.next | apply State.cdb_keeps | apply State.answers_keeps | apply State.cdbEnd_keeps)
    | extract_lets | dsimp only

theorem execCdbFwMgmtFeatures_keeps {r : State} {s : State} (hk : Keeps r s) :
    OutKeeps r (execCdbFwMgmtFeatures s) := by
  unfold execCdbFwMgmtFeatures
  repeat' first
    | intro _
    | (with_reducible first | assumption | exact Keeps.refl _ | apply OutKeeps.next | apply State.cdb_keeps | apply State.answers_keeps | apply State.cdbEnd_keeps)
    | extract_lets | dsimp only

theorem execCdbGetFwInfo_keeps {r : State} {a b : List (BitVec 8)} {s : State} (hk : Keeps r s) :
    OutKeeps r (execCdbGetFwInfo a b s) := by
  unfold execCdbGetFwInfo
  repeat' first
    | intro _
    | (with_reducible first | assumption | exact Keeps.refl _ | apply OutKeeps.next | apply State.cdb_keeps | apply State.answers_keeps | apply State.cdbEnd_keeps)
    | extract_lets | dsimp only

theorem execCdbStartFwDownload_keeps {r : State} {size : Word} {s : State} (hk : Keeps r s) :
    OutKeeps r (execCdbStartFwDownload size s) := by
  unfold execCdbStartFwDownload
  repeat' first
    | intro _
    | (with_reducible first | assumption | exact Keeps.refl _ | apply OutKeeps.next | apply State.cdb_keeps | apply State.cdbEnd_keeps | apply State.puts_keeps | apply State.nvmSet_keeps | apply State.cdbFlashStart_keeps | apply OutKeeps.cond | apply Keeps.cond)
    | extract_lets | dsimp only | split

theorem execCdbAbortFwDownload_keeps {r : State} {s : State} (hk : Keeps r s) :
    OutKeeps r (execCdbAbortFwDownload s) := by
  unfold execCdbAbortFwDownload
  repeat' first
    | intro _
    | (with_reducible first | assumption | exact Keeps.refl _ | apply OutKeeps.next | apply State.cdb_keeps | apply State.wr_keeps | apply State.cdbEnd_keeps | apply OutKeeps.cond | apply Keeps.cond)
    | extract_lets | dsimp only | split

theorem State.cdbBlock_keeps {r : State} {s : State} {off len most : Nat} (hk : Keeps r s) :
    Keeps r (State.cdbBlock s off len most) := by
  unfold State.cdbBlock
  repeat' first
    | intro _
    | (with_reducible first | assumption | exact Keeps.refl _ | apply State.cdbEnd_keeps | apply State.cdbFlashStart_keeps | apply Keeps.cond)
    | extract_lets | split

theorem execCdbWriteFwBlockLpl_keeps {r : State} {off : Word} {len : BitVec 8} {s : State} (hk : Keeps r s) :
    OutKeeps r (execCdbWriteFwBlockLpl off len s) := by
  unfold execCdbWriteFwBlockLpl
  repeat' first
    | intro _
    | (with_reducible first | assumption | exact Keeps.refl _ | apply OutKeeps.next | apply State.cdb_keeps | apply State.cdbBlock_keeps)
    | extract_lets | dsimp only

theorem execCdbWriteFwBlockEpl_keeps {r : State} {off : Word} {len : BitVec 12} {s : State} (hk : Keeps r s) :
    OutKeeps r (execCdbWriteFwBlockEpl off len s) := by
  unfold execCdbWriteFwBlockEpl
  repeat' first
    | intro _
    | (with_reducible first | assumption | exact Keeps.refl _ | apply OutKeeps.next | apply State.cdb_keeps | apply State.cdbBlock_keeps)
    | extract_lets | dsimp only

theorem execCdbCompleteFwDownload_keeps {r : State} {s : State} (hk : Keeps r s) :
    OutKeeps r (execCdbCompleteFwDownload s) := by
  unfold execCdbCompleteFwDownload
  repeat' first
    | intro _
    | (with_reducible first | assumption | exact Keeps.refl _ | apply OutKeeps.next | apply State.cdb_keeps | apply State.wr_keeps | apply State.nvmSet_keeps | apply State.setMask_keeps | apply State.cdbImage_keeps | apply State.cdbEnd_keeps | apply OutKeeps.cond | apply Keeps.cond)
    | extract_lets | dsimp only | split

theorem execCdbRunFwImage_keeps {r : State} {s : State} (hk : Keeps r s) :
    OutKeeps r (execCdbRunFwImage s) := by
  unfold execCdbRunFwImage
  repeat' first
    | intro _
    | (with_reducible first | assumption | exact Keeps.refl _ | apply OutKeeps.next | apply State.cdb_keeps | apply State.cdbImage_keeps)
    | extract_lets | dsimp only

theorem execCdbCommitFwImage_keeps {r : State} {s : State} (hk : Keeps r s) :
    OutKeeps r (execCdbCommitFwImage s) := by
  unfold execCdbCommitFwImage
  repeat' first
    | intro _
    | (with_reducible first | assumption | exact Keeps.refl _ | apply OutKeeps.next | apply State.cdb_keeps | apply State.cdbImage_keeps)
    | extract_lets | dsimp only

theorem execCdbTxTapRequest_keeps {r : State} {n : Lane} {taps : List Int} {s : State} (hk : Keeps r s) :
    OutKeeps r (execCdbTxTapRequest n taps s) := by
  unfold execCdbTxTapRequest
  repeat' first
    | intro _
    | (with_reducible first | assumption | exact Keeps.refl _ | apply OutKeeps.next | apply State.cdb_keeps | apply State.svcSend_keeps | apply State.puts_keeps | apply State.cdbEnd_keeps | apply OutKeeps.cond | apply Keeps.cond)
    | extract_lets | dsimp only | split

theorem execCdbTxTapTimeout_keeps {r : State} {s : State} (hk : Keeps r s) :
    OutKeeps r (execCdbTxTapTimeout s) := by
  unfold execCdbTxTapTimeout
  repeat' first
    | intro _
    | (with_reducible first | assumption | exact Keeps.refl _ | apply OutKeeps.next | apply State.cdbEnd_keeps | apply OutKeeps.cond | apply Keeps.cond)
    | extract_lets | split

theorem execCdbPartialCommit_keeps {r : State} {lead : Lane} {s : State} (hk : Keeps r s) :
    OutKeeps r (execCdbPartialCommit lead s) := by
  unfold execCdbPartialCommit
  repeat' first
    | intro _
    | (with_reducible first | assumption | exact Keeps.refl _ | apply OutKeeps.next | apply State.cdb_keeps | apply State.cdbImage_keeps)
    | extract_lets | dsimp only

theorem execCdbUnsupported_keeps {r : State} {s : State} (hk : Keeps r s) :
    OutKeeps r (execCdbUnsupported s) := by
  unfold execCdbUnsupported
  repeat' first
    | intro _
    | (with_reducible first | assumption | exact Keeps.refl _ | apply OutKeeps.next | apply State.cdb_keeps | apply State.cdbEnd_keeps)
    | extract_lets | dsimp only

theorem State.msgRead_keeps {r s : State} {a k : Nat} (hk : Keeps r s) : Keeps r (s.msgRead a k).2 := by
  induction k generalizing s a with
  | zero => exact hk
  | succ k ih =>
    unfold State.msgRead
    dsimp only
    split
    · exact hk
    · split
      · exact State.busRead_keeps hk
      · exact ih (State.busRead_keeps hk)

theorem State.msgWrite_keeps {r s : State} {a : Nat} {l : List Nat} (hk : Keeps r s) : Keeps r (s.msgWrite a l).2 := by
  induction l generalizing s a with
  | nil => exact hk
  | cons w l ih =>
    unfold State.msgWrite
    dsimp only
    split
    · exact hk
    · split
      · exact State.busWrite_keeps hk
      · exact ih (State.busWrite_keeps hk)

theorem execMsgRegRead_keeps {r : State} {s : State} (hk : Keeps r s) :
    OutKeeps r (execMsgRegRead s) := by
  unfold execMsgRegRead
  repeat' first
    | intro _
    | (with_reducible first | assumption | exact Keeps.refl _ | apply OutKeeps.next | apply State.mbxTake_keeps | apply State.mbxReply_keeps | apply State.msgRead_keeps | apply OutKeeps.cond | apply Keeps.cond | apply Keeps.cond_snd | apply OptKeeps.getD)
    | extract_lets | dsimp only | split

theorem execMsgRegWrite_keeps {r : State} {s : State} (hk : Keeps r s) :
    OutKeeps r (execMsgRegWrite s) := by
  unfold execMsgRegWrite
  repeat' first
    | intro _
    | (with_reducible first | assumption | exact Keeps.refl _ | apply OutKeeps.next | apply State.mbxTake_keeps | apply State.mbxReply_keeps | apply State.msgWrite_keeps | apply OutKeeps.cond | apply Keeps.cond | apply Keeps.cond_snd | apply OptKeeps.getD)
    | extract_lets | dsimp only | split

end Sys2Proof.Machine
end

