-- ==== Sys2Proof/Laws/KeepsSupply.lean ====
section
/-!
SUPPORT. The operations of Supply keep the queue and the invariant.
-/
set_option Elab.async false
set_option linter.all false
namespace Sys2Proof.Machine

theorem State.commitsHeld_keeps {r : State} {s : State} {n : Nat} (hk : Keeps r s) :
    Keeps r (State.commitsHeld s n) := by
  unfold State.commitsHeld
  repeat' first
    | intro _
    | (with_reducible first | assumption | exact Keeps.refl _ | apply State.raise_keeps | apply Keeps.when)
    | extract_lets | dsimp only

theorem State.swapDefer_keeps {r : State} {s : State} {n : Nat} (hk : Keeps r s) :
    Keeps r (State.swapDefer s n) := by
  unfold State.swapDefer
  repeat' first
    | intro _
    | (with_reducible first | assumption | exact Keeps.refl _ | apply State.wr_keeps | apply Keeps.when)
    | extract_lets | dsimp only

theorem State.setPointBits_keeps {r : State} {s : State} {rail : Nat} (hk : Keeps r s) :
    Keeps r (State.setPointBits s rail).2 := by
  unfold State.setPointBits
  repeat' first
    | intro _
    | (with_reducible first | assumption | exact Keeps.refl _ | apply State.free_keeps | apply Keeps.cond_snd | apply Keeps.cond)
    | extract_lets | dsimp only

theorem State.warnBegin_keeps {r : State} {s : State} {rail level : Nat} (hk : Keeps r s) :
    Keeps r (State.warnBegin s rail level) := by
  unfold State.warnBegin
  repeat' first
    | intro _
    | (with_reducible first | assumption | exact Keeps.refl _ | apply State.puts_keeps | apply State.bump_keeps | apply State.raise_keeps | apply State.setPointBits_keeps | apply State.emit_keeps | apply State.wr_keeps | apply State.commitsHeld_keeps | apply State.swapDefer_keeps | apply State.leqFollow_keeps | apply State.cmis_keeps | apply State.faultEvent_keeps | apply Keeps.each | apply Keeps.when)
    | extract_lets | dsimp only

theorem State.vddIoSeen_keeps {r : State} {s : State} {rail mv : Nat} (hk : Keeps r s) :
    Keeps r (State.vddIoSeen s rail mv) := by
  unfold State.vddIoSeen
  repeat' first
    | intro _
    | (with_reducible first | assumption | exact Keeps.refl _ | apply State.wr_keeps | apply Keeps.cond)
    | extract_lets | split

theorem execSupplyWarningStart_keeps {r : State} {rail : Fin 7} {mv : BitVec 12} {s : State} (hk : Keeps r s) :
    OutKeeps r (execSupplyWarningStart rail mv s) := by
  unfold execSupplyWarningStart
  repeat' first
    | intro _
    | (with_reducible first | assumption | exact Keeps.refl _ | apply OutKeeps.next | apply State.setMask_keeps | apply State.vddIoSeen_keeps | apply State.wr_keeps | apply State.warnBegin_keeps | apply OutKeeps.cond | apply Keeps.cond)
    | extract_lets | split

theorem State.laneRelease_keeps {r : State} {s : State} {n : Nat} (hk : Keeps r s) :
    Keeps r (State.laneRelease s n) := by
  unfold State.laneRelease
  repeat' first
    | intro _
    | (with_reducible first | assumption | exact Keeps.refl _ | apply State.puts_keeps | apply State.dacCalRelease_keeps | apply State.rxBoundary_keeps | apply State.txBoundary_keeps | apply State.leqFollow_keeps | apply Keeps.when)
    | extract_lets | dsimp only

theorem State.pllRelease_keeps {r : State} {s : State} {p : Nat} (hk : Keeps r s) :
    Keeps r (State.pllRelease s p) := by
  unfold State.pllRelease
  repeat' first
    | intro _
    | (with_reducible first | assumption | exact Keeps.refl _ | apply State.setMask_keeps | apply State.wr_keeps | apply State.pllRequest_keeps | apply State.puts_keeps | apply State.pllCalLocked_keeps | apply Keeps.when | apply Keeps.cond)
    | extract_lets | dsimp only | split

theorem State.warnEnd_keeps {r : State} {s : State} (hk : Keeps r s) :
    Keeps r (State.warnEnd s) := by
  unfold State.warnEnd
  repeat' first
    | intro _
    | (with_reducible first | assumption | exact Keeps.refl _ | apply State.wr_keeps | apply State.raise_keeps | apply State.emit_keeps | apply State.laneRelease_keeps | apply State.hifApply_keeps | apply State.pllRelease_keeps | apply State.writeVout_keeps | apply State.dvfsKick_keeps | apply State.dacAdmit_keeps | apply State.adcAdmit_keeps | apply Keeps.each | apply Keeps.when)
    | extract_lets | dsimp only | split

theorem execSupplyWarningEnd_keeps {r : State} {rail : Fin 7} {lowest mv : BitVec 12} {s : State} (hk : Keeps r s) :
    OutKeeps r (execSupplyWarningEnd rail lowest mv s) := by
  unfold execSupplyWarningEnd
  repeat' first
    | intro _
    | (with_reducible first | assumption | exact Keeps.refl _ | apply OutKeeps.next | apply State.setMask_keeps | apply State.vddIoSeen_keeps | apply State.wr_keeps | apply State.warnEnd_keeps | apply OutKeeps.cond | apply Keeps.cond)
    | extract_lets | split

end Sys2Proof.Machine
end

