-- ==== Sys2Proof/Laws/KeepsTap.lean ====
section
/-!
SUPPORT. The operations of Tap keep the queue and the invariant.
-/
set_option Elab.async false
set_option linter.all false
namespace Sys2Proof.Machine

theorem State.captureBit_keeps {r : State} {s : State} {k : Nat} {b : Bool} (hk : Keeps r s) :
    Keeps r (State.captureBit s k b) := by
  unfold State.captureBit
  repeat' first
    | intro _
    | (with_reducible first | assumption | exact Keeps.refl _)
    | extract_lets | split
    | (with_reducible first | apply Keeps.other)

theorem State.tapCapture_keeps {r : State} {s : State} (hk : Keeps r s) :
    Keeps r (State.tapCapture s) := by
  unfold State.tapCapture
  repeat' first
    | intro _
    | (with_reducible first | assumption | exact Keeps.refl _ | apply State.free_keeps | apply State.captureBit_keeps | apply Keeps.each)
    | extract_lets | dsimp only | split
    | (with_reducible first | apply Keeps.other)

theorem State.tapEdge_keeps {r : State} {s : State} {tdi : Bool} (hk : Keeps r s) :
    Keeps r (State.tapEdge s tdi) := by
  unfold State.tapEdge
  repeat' first
    | intro _
    | (with_reducible first | assumption | exact Keeps.refl _ | apply State.tapCapture_keeps)
    | extract_lets | dsimp only | split
    | (with_reducible first | apply Keeps.other)

theorem State.tapUpdate_keeps {r : State} {s : State} (hk : Keeps r s) :
    Keeps r (State.tapUpdate s) := by
  unfold State.tapUpdate
  repeat' first
    | intro _
    | (with_reducible first | assumption | exact Keeps.refl _)
    | extract_lets | dsimp only | split
    | (with_reducible first | apply Keeps.other)

theorem State.tckCycle_keeps {r : State} {s : State} {c : TckCycle} (hk : Keeps r s) :
    Keeps r (State.tckCycle s c) := by
  unfold State.tckCycle
  repeat' first
    | intro _
    | (with_reducible first | assumption | exact Keeps.refl _ | apply State.tapEdge_keeps | apply State.tapUpdate_keeps | apply Keeps.cond)
    | extract_lets | split
    | (with_reducible first | apply Keeps.other)

theorem State.tapServe_keeps {r : State} {s : State} (hk : Keeps r s) :
    Keeps r (State.tapServe s) := by
  unfold State.tapServe
  repeat' first
    | intro _
    | (with_reducible first | assumption | exact Keeps.refl _ | apply State.tckCycle_keeps | apply Keeps.cond)
    | extract_lets | dsimp only | split
    | (with_reducible first | apply Keeps.other)

theorem State.idle_keeps {r : State} {s : State} (hk : Keeps r s) :
    Keeps r (State.idle s) := by
  unfold State.idle
  repeat' first
    | intro _
    | (with_reducible first | assumption | exact Keeps.refl _ | apply State.tick_keeps | apply State.tapServe_keeps)
    | extract_lets

end Sys2Proof.Machine
end

