-- ==== Sys2Proof/Laws/State.lean ====
section
/-!
SUPPORT. Laws of the state's updates: what each field and each register reads after an update.
-/
set_option Elab.async false
set_option linter.all false
namespace Sys2Proof.Machine

/-! ## Registers after a write -/

theorem Key.mk_inj (f g : Field) (n m i j : Nat) : ((⟨f, n, i⟩ : Key) = ⟨g, m, j⟩) ↔ (f = g ∧ n = m ∧ i = j) := by
  simp

/-- What a field reads after a write of a field. -/
theorem State.rd_wr (s : State) (f g : Field) (v n m i j : Nat) :
    (s.wr f v n i).rd g m j = if g = f ∧ m = n ∧ j = i then v % 2 ^ f.width else s.rd g m j := by
  unfold State.wr State.rd
  rw [Store.get_set]
  simp only [Key.mk_inj]

/-- A field reads what was written to it, cut to its width. -/
@[simp] theorem State.rd_wr_self (s : State) (f : Field) (v n i : Nat) : (s.wr f v n i).rd f n i = v % 2 ^ f.width := by
  rw [State.rd_wr, if_pos ⟨rfl, rfl, rfl⟩]

/-- A write of one field leaves every other field. -/
theorem State.rd_wr_field (s : State) {f g : Field} (v n m i j : Nat) (h : g ≠ f) : (s.wr f v n i).rd g m j = s.rd g m j := by
  rw [State.rd_wr, if_neg (fun e => h e.1)]

/-- A write of one instance leaves every other instance. -/
theorem State.rd_wr_inst (s : State) {f g : Field} (v : Nat) {n m : Nat} (i j : Nat) (h : m ≠ n) :
    (s.wr f v n i).rd g m j = s.rd g m j := by
  rw [State.rd_wr, if_neg (fun e => h e.2.1)]

theorem State.on_eq (s : State) (f : Field) (n i : Nat) : s.on f n i = (s.rd f n i != 0) := rfl

@[simp] theorem State.rd_setUse (s : State) (f g : Field) (v n m i j : Nat) : (s.setUse f v n i).rd g m j = s.rd g m j := rfl
@[simp] theorem State.rd_nvmSet (s : State) (f g : Field) (v n m i j : Nat) : (s.nvmSet f v n i).rd g m j = s.rd g m j := rfl
@[simp] theorem State.use_wr (s : State) (f g : Field) (v n m i j : Nat) : (s.wr f v n i).use g m j = s.use g m j := rfl
@[simp] theorem State.use_nvmSet (s : State) (f g : Field) (v n m i j : Nat) : (s.nvmSet f v n i).use g m j = s.use g m j := rfl
@[simp] theorem State.nvmGet_wr (s : State) (f g : Field) (v n m i j : Nat) : (s.wr f v n i).nvmGet g m j = s.nvmGet g m j := rfl
@[simp] theorem State.nvmGet_setUse (s : State) (f g : Field) (v n m i j : Nat) :
    (s.setUse f v n i).nvmGet g m j = s.nvmGet g m j := rfl

/-- The value in use of a field after a change of one. -/
theorem State.use_setUse (s : State) (f g : Field) (v n m i j : Nat) :
    (s.setUse f v n i).use g m j = if g = f ∧ m = n ∧ j = i then v % 2 ^ f.width else s.use g m j := by
  unfold State.setUse State.use
  rw [Store.get_set]
  simp only [Key.mk_inj]

/-- What the NVM holds after a store. -/
theorem State.nvmGet_nvmSet (s : State) (f g : Field) (v n m i j : Nat) :
    (s.nvmSet f v n i).nvmGet g m j = if g = f ∧ m = n ∧ j = i then v % 2 ^ f.width else s.nvmGet g m j := by
  unfold State.nvmSet State.nvmGet
  rw [Store.get_set]
  simp only [Key.mk_inj]

/-- What a field reads after a reset of fields. -/
theorem State.rd_resetFields (s : State) (p : Key → Bool) (f : Field) (n i : Nat) :
    (s.resetFields p).rd f n i = if p ⟨f, n, i⟩ then f.resetAt i else s.rd f n i := by
  unfold State.resetFields State.rd
  rw [Store.get_resetWhere]
  rfl

/-! ## Operations built on a write -/

/-- What a field reads after a status bit is raised. -/
theorem State.rd_raise (s : State) (f g : Field) (k n m j : Nat) :
    (s.raise f k n).rd g m j = if g = f ∧ m = n ∧ j = 0 then (s.rd f n ||| 2 ^ k) % 2 ^ f.width else s.rd g m j := by
  unfold State.raise
  rw [State.rd_wr]

/-- What a field reads after a counter counts. -/
theorem State.rd_bump (s : State) (f g : Field) (n i k m j : Nat) : (s.bump f n i k).rd g m j =
    if g = f ∧ m = n ∧ j = i then min (s.rd f n i + k) (2 ^ f.width - 1) % 2 ^ f.width else s.rd g m j := by
  unfold State.bump
  rw [State.rd_wr]

@[simp] theorem State.when_true (s : State) (g : State → State) : s.when true g = g s := rfl
@[simp] theorem State.when_false (s : State) (g : State → State) : s.when false g = s := rfl
@[simp] theorem State.each_nil {α : Type} (s : State) (g : α → State → State) : s.each [] g = s := rfl
@[simp] theorem State.each_cons {α : Type} (s : State) (a : α) (l : List α) (g : α → State → State) :
    s.each (a :: l) g = (g a s).each l g := rfl
@[simp] theorem State.puts_nil (s : State) (n : Nat) : s.puts [] n = s := rfl
@[simp] theorem State.puts_cons (s : State) (e : Field × Nat) (l : List (Field × Nat)) (n : Nat) :
    s.puts (e :: l) n = (s.wr e.1 e.2 n).puts l n := rfl
@[simp] theorem State.clear_nil (s : State) (n : Nat) : s.clear [] n = s := rfl
@[simp] theorem State.clear_cons (s : State) (f : Field) (l : List Field) (n : Nat) :
    s.clear (f :: l) n = (s.wr f 0 n).clear l n := rfl

/-- A list of field writes leaves every field that it does not name, and every other instance. -/
theorem State.rd_puts_other (l : List (Field × Nat)) (s : State) (n : Nat) (g : Field) (m j : Nat)
    (h : (∀ e ∈ l, g ≠ e.1) ∨ m ≠ n) : (s.puts l n).rd g m j = s.rd g m j := by
  induction l generalizing s with
  | nil => rfl
  | cons e l ih =>
    rw [State.puts_cons, ih, State.rd_wr, if_neg]
    · rintro ⟨h1, h2, -⟩
      rcases h with h | h
      · exact h e (by simp) h1
      · exact h h2
    · rcases h with h | h
      · exact Or.inl (fun x hx => h x (by simp [hx]))
      · exact Or.inr h

/-- Writing fields changes the registers alone. -/
theorem State.puts_regs (l : List (Field × Nat)) (s : State) (n : Nat) :
    s.puts l n = { s with regs := (s.puts l n).regs } := by
  induction l generalizing s with
  | nil => rfl
  | cons e l ih => rw [State.puts_cons, ih]; rfl

/-- Clearing fields clears them and nothing else. -/
theorem State.rd_clear (l : List Field) (s : State) (n : Nat) (g : Field) (m j : Nat) :
    (s.clear l n).rd g m j = if g ∈ l ∧ m = n ∧ j = 0 then 0 else s.rd g m j := by
  induction l generalizing s with
  | nil => simp
  | cons f l ih =>
    rw [State.clear_cons, ih, State.rd_wr]
    by_cases h1 : g ∈ l ∧ m = n ∧ j = 0
    · rw [if_pos h1, if_pos ⟨by simp [h1.1], h1.2⟩]
    · rw [if_neg h1]
      by_cases h2 : g = f ∧ m = n ∧ j = 0
      · rw [if_pos h2, if_pos ⟨by simp [h2.1], h2.2⟩]; simp
      · rw [if_neg h2, if_neg]
        rintro ⟨h3, h4⟩
        rcases List.mem_cons.mp h3 with h5 | h5
        · exact h2 ⟨h5, h4⟩
        · exact h1 ⟨h5, h4⟩

/-- Clearing fields changes the registers alone. -/
theorem State.clear_regs (l : List Field) (s : State) (n : Nat) :
    s.clear l n = { s with regs := (s.clear l n).regs } := by
  induction l generalizing s with
  | nil => rfl
  | cons f l ih => rw [State.clear_cons, ih]; rfl

/-! ## The parts of the state after a write -/

@[simp] theorem State.wr_pending (s : State) (f : Field) (v n i : Nat) : (s.wr f v n i).pending = s.pending := rfl
@[simp] theorem State.wr_now (s : State) (f : Field) (v n i : Nat) : (s.wr f v n i).now = s.now := rfl
@[simp] theorem State.wr_fresh (s : State) (f : Field) (v n i : Nat) : (s.wr f v n i).fresh = s.fresh := rfl
@[simp] theorem State.wr_live (s : State) (f : Field) (v n i : Nat) : (s.wr f v n i).live = s.live := rfl
@[simp] theorem State.wr_nvm (s : State) (f : Field) (v n i : Nat) : (s.wr f v n i).nvm = s.nvm := rfl
@[simp] theorem State.wr_evf (s : State) (f : Field) (v n i : Nat) : (s.wr f v n i).evf = s.evf := rfl
@[simp] theorem State.wr_running (s : State) (f : Field) (v n i : Nat) : (s.wr f v n i).running = s.running := rfl
@[simp] theorem State.wr_candidate (s : State) (f : Field) (v n i : Nat) : (s.wr f v n i).candidate = s.candidate := rfl
@[simp] theorem State.wr_imgRecord (s : State) (f : Field) (v n i : Nat) : (s.wr f v n i).imgRecord = s.imgRecord := rfl
@[simp] theorem State.wr_retained (s : State) (f : Field) (v n i : Nat) : (s.wr f v n i).retained = s.retained := rfl
@[simp] theorem State.wr_votes (s : State) (f : Field) (v n i : Nat) : (s.wr f v n i).votes = s.votes := rfl
@[simp] theorem State.wr_tests (s : State) (f : Field) (v n i : Nat) : (s.wr f v n i).tests = s.tests := rfl
@[simp] theorem State.wr_deferred (s : State) (f : Field) (v n i : Nat) : (s.wr f v n i).deferred = s.deferred := rfl
@[simp] theorem State.wr_svcQ (s : State) (f : Field) (v n i : Nat) : (s.wr f v n i).svcQ = s.svcQ := rfl
@[simp] theorem State.wr_data (s : State) (f : Field) (v n i : Nat) : (s.wr f v n i).data = s.data := rfl
@[simp] theorem State.wr_straits (s : State) (f : Field) (v n i : Nat) : (s.wr f v n i).straits = s.straits := rfl
@[simp] theorem State.wr_stores (s : State) (f : Field) (v n i : Nat) : (s.wr f v n i).stores = s.stores := rfl
@[simp] theorem State.wr_homeQ (s : State) (f : Field) (v n i : Nat) : (s.wr f v n i).homeQ = s.homeQ := rfl
@[simp] theorem State.wr_work (s : State) (f : Field) (v n i : Nat) : (s.wr f v n i).work = s.work := rfl
@[simp] theorem State.wr_asks (s : State) (f : Field) (v n i : Nat) : (s.wr f v n i).asks = s.asks := rfl
@[simp] theorem State.wr_emits (s : State) (f : Field) (v n i : Nat) : (s.wr f v n i).emits = s.emits := rfl
@[simp] theorem State.wr_ports (s : State) (f : Field) (v n i : Nat) : (s.wr f v n i).ports = s.ports := rfl
@[simp] theorem State.wr_slots (s : State) (f : Field) (v n i : Nat) : (s.wr f v n i).slots = s.slots := rfl
@[simp] theorem State.wr_bg (s : State) (f : Field) (v n i : Nat) : (s.wr f v n i).bg = s.bg := rfl
@[simp] theorem State.wr_tsf (s : State) (f : Field) (v n i : Nat) : (s.wr f v n i).tsf = s.tsf := rfl
@[simp] theorem State.wr_exch (s : State) (f : Field) (v n i : Nat) : (s.wr f v n i).exch = s.exch := rfl
@[simp] theorem State.wr_dpllHist (s : State) (f : Field) (v n i : Nat) : (s.wr f v n i).dpllHist = s.dpllHist := rfl
@[simp] theorem State.wr_thermal (s : State) (f : Field) (v n i : Nat) : (s.wr f v n i).thermal = s.thermal := rfl
@[simp] theorem State.wr_mbxIn (s : State) (f : Field) (v n i : Nat) : (s.wr f v n i).mbxIn = s.mbxIn := rfl
@[simp] theorem State.wr_mbxOpen (s : State) (f : Field) (v n i : Nat) : (s.wr f v n i).mbxOpen = s.mbxOpen := rfl
@[simp] theorem State.wr_mbxOut (s : State) (f : Field) (v n i : Nat) : (s.wr f v n i).mbxOut = s.mbxOut := rfl
@[simp] theorem State.wr_pages (s : State) (f : Field) (v n i : Nat) : (s.wr f v n i).pages = s.pages := rfl
@[simp] theorem State.wr_bufs (s : State) (f : Field) (v n i : Nat) : (s.wr f v n i).bufs = s.bufs := rfl
@[simp] theorem State.wr_info (s : State) (f : Field) (v n i : Nat) : (s.wr f v n i).info = s.info := rfl
@[simp] theorem State.wr_snaps (s : State) (f : Field) (v n i : Nat) : (s.wr f v n i).snaps = s.snaps := rfl
@[simp] theorem State.wr_staged (s : State) (f : Field) (v n i : Nat) : (s.wr f v n i).staged = s.staged := rfl
@[simp] theorem State.wr_answer (s : State) (f : Field) (v n i : Nat) : (s.wr f v n i).answer = s.answer := rfl
@[simp] theorem State.wr_pb (s : State) (f : Field) (v n i : Nat) : (s.wr f v n i).pb = s.pb := rfl
@[simp] theorem State.wr_tap (s : State) (f : Field) (v n i : Nat) : (s.wr f v n i).tap = s.tap := rfl
@[simp] theorem State.wr_tck (s : State) (f : Field) (v n i : Nat) : (s.wr f v n i).tck = s.tck := rfl
@[simp] theorem State.setUse_pending (s : State) (f : Field) (v n i : Nat) : (s.setUse f v n i).pending = s.pending := rfl
@[simp] theorem State.setUse_now (s : State) (f : Field) (v n i : Nat) : (s.setUse f v n i).now = s.now := rfl
@[simp] theorem State.setUse_fresh (s : State) (f : Field) (v n i : Nat) : (s.setUse f v n i).fresh = s.fresh := rfl
@[simp] theorem State.setUse_regs (s : State) (f : Field) (v n i : Nat) : (s.setUse f v n i).regs = s.regs := rfl
@[simp] theorem State.setUse_nvm (s : State) (f : Field) (v n i : Nat) : (s.setUse f v n i).nvm = s.nvm := rfl
@[simp] theorem State.setUse_evf (s : State) (f : Field) (v n i : Nat) : (s.setUse f v n i).evf = s.evf := rfl
@[simp] theorem State.setUse_running (s : State) (f : Field) (v n i : Nat) : (s.setUse f v n i).running = s.running := rfl
@[simp] theorem State.setUse_candidate (s : State) (f : Field) (v n i : Nat) : (s.setUse f v n i).candidate = s.candidate := rfl
@[simp] theorem State.setUse_imgRecord (s : State) (f : Field) (v n i : Nat) : (s.setUse f v n i).imgRecord = s.imgRecord := rfl
@[simp] theorem State.setUse_retained (s : State) (f : Field) (v n i : Nat) : (s.setUse f v n i).retained = s.retained := rfl
@[simp] theorem State.setUse_votes (s : State) (f : Field) (v n i : Nat) : (s.setUse f v n i).votes = s.votes := rfl
@[simp] theorem State.setUse_tests (s : State) (f : Field) (v n i : Nat) : (s.setUse f v n i).tests = s.tests := rfl
@[simp] theorem State.setUse_deferred (s : State) (f : Field) (v n i : Nat) : (s.setUse f v n i).deferred = s.deferred := rfl
@[simp] theorem State.setUse_svcQ (s : State) (f : Field) (v n i : Nat) : (s.setUse f v n i).svcQ = s.svcQ := rfl
@[simp] theorem State.setUse_data (s : State) (f : Field) (v n i : Nat) : (s.setUse f v n i).data = s.data := rfl
@[simp] theorem State.setUse_straits (s : State) (f : Field) (v n i : Nat) : (s.setUse f v n i).straits = s.straits := rfl
@[simp] theorem State.setUse_stores (s : State) (f : Field) (v n i : Nat) : (s.setUse f v n i).stores = s.stores := rfl
@[simp] theorem State.setUse_homeQ (s : State) (f : Field) (v n i : Nat) : (s.setUse f v n i).homeQ = s.homeQ := rfl
@[simp] theorem State.setUse_work (s : State) (f : Field) (v n i : Nat) : (s.setUse f v n i).work = s.work := rfl
@[simp] theorem State.setUse_asks (s : State) (f : Field) (v n i : Nat) : (s.setUse f v n i).asks = s.asks := rfl
@[simp] theorem State.setUse_emits (s : State) (f : Field) (v n i : Nat) : (s.setUse f v n i).emits = s.emits := rfl
@[simp] theorem State.setUse_ports (s : State) (f : Field) (v n i : Nat) : (s.setUse f v n i).ports = s.ports := rfl
@[simp] theorem State.setUse_slots (s : State) (f : Field) (v n i : Nat) : (s.setUse f v n i).slots = s.slots := rfl
@[simp] theorem State.setUse_bg (s : State) (f : Field) (v n i : Nat) : (s.setUse f v n i).bg = s.bg := rfl
@[simp] theorem State.setUse_tsf (s : State) (f : Field) (v n i : Nat) : (s.setUse f v n i).tsf = s.tsf := rfl
@[simp] theorem State.setUse_exch (s : State) (f : Field) (v n i : Nat) : (s.setUse f v n i).exch = s.exch := rfl
@[simp] theorem State.setUse_dpllHist (s : State) (f : Field) (v n i : Nat) : (s.setUse f v n i).dpllHist = s.dpllHist := rfl
@[simp] theorem State.setUse_thermal (s : State) (f : Field) (v n i : Nat) : (s.setUse f v n i).thermal = s.thermal := rfl
@[simp] theorem State.setUse_mbxIn (s : State) (f : Field) (v n i : Nat) : (s.setUse f v n i).mbxIn = s.mbxIn := rfl
@[simp] theorem State.setUse_mbxOpen (s : State) (f : Field) (v n i : Nat) : (s.setUse f v n i).mbxOpen = s.mbxOpen := rfl
@[simp] theorem State.setUse_mbxOut (s : State) (f : Field) (v n i : Nat) : (s.setUse f v n i).mbxOut = s.mbxOut := rfl
@[simp] theorem State.setUse_pages (s : State) (f : Field) (v n i : Nat) : (s.setUse f v n i).pages = s.pages := rfl
@[simp] theorem State.setUse_bufs (s : State) (f : Field) (v n i : Nat) : (s.setUse f v n i).bufs = s.bufs := rfl
@[simp] theorem State.setUse_info (s : State) (f : Field) (v n i : Nat) : (s.setUse f v n i).info = s.info := rfl
@[simp] theorem State.setUse_snaps (s : State) (f : Field) (v n i : Nat) : (s.setUse f v n i).snaps = s.snaps := rfl
@[simp] theorem State.setUse_staged (s : State) (f : Field) (v n i : Nat) : (s.setUse f v n i).staged = s.staged := rfl
@[simp] theorem State.setUse_answer (s : State) (f : Field) (v n i : Nat) : (s.setUse f v n i).answer = s.answer := rfl
@[simp] theorem State.setUse_pb (s : State) (f : Field) (v n i : Nat) : (s.setUse f v n i).pb = s.pb := rfl
@[simp] theorem State.setUse_tap (s : State) (f : Field) (v n i : Nat) : (s.setUse f v n i).tap = s.tap := rfl
@[simp] theorem State.setUse_tck (s : State) (f : Field) (v n i : Nat) : (s.setUse f v n i).tck = s.tck := rfl
@[simp] theorem State.nvmSet_pending (s : State) (f : Field) (v n i : Nat) : (s.nvmSet f v n i).pending = s.pending := rfl
@[simp] theorem State.nvmSet_now (s : State) (f : Field) (v n i : Nat) : (s.nvmSet f v n i).now = s.now := rfl
@[simp] theorem State.nvmSet_fresh (s : State) (f : Field) (v n i : Nat) : (s.nvmSet f v n i).fresh = s.fresh := rfl
@[simp] theorem State.nvmSet_regs (s : State) (f : Field) (v n i : Nat) : (s.nvmSet f v n i).regs = s.regs := rfl
@[simp] theorem State.nvmSet_live (s : State) (f : Field) (v n i : Nat) : (s.nvmSet f v n i).live = s.live := rfl
@[simp] theorem State.nvmSet_evf (s : State) (f : Field) (v n i : Nat) : (s.nvmSet f v n i).evf = s.evf := rfl
@[simp] theorem State.nvmSet_running (s : State) (f : Field) (v n i : Nat) : (s.nvmSet f v n i).running = s.running := rfl
@[simp] theorem State.nvmSet_candidate (s : State) (f : Field) (v n i : Nat) : (s.nvmSet f v n i).candidate = s.candidate := rfl
@[simp] theorem State.nvmSet_imgRecord (s : State) (f : Field) (v n i : Nat) : (s.nvmSet f v n i).imgRecord = s.imgRecord := rfl
@[simp] theorem State.nvmSet_retained (s : State) (f : Field) (v n i : Nat) : (s.nvmSet f v n i).retained = s.retained := rfl
@[simp] theorem State.nvmSet_votes (s : State) (f : Field) (v n i : Nat) : (s.nvmSet f v n i).votes = s.votes := rfl
@[simp] theorem State.nvmSet_tests (s : State) (f : Field) (v n i : Nat) : (s.nvmSet f v n i).tests = s.tests := rfl
@[simp] theorem State.nvmSet_deferred (s : State) (f : Field) (v n i : Nat) : (s.nvmSet f v n i).deferred = s.deferred := rfl
@[simp] theorem State.nvmSet_svcQ (s : State) (f : Field) (v n i : Nat) : (s.nvmSet f v n i).svcQ = s.svcQ := rfl
@[simp] theorem State.nvmSet_data (s : State) (f : Field) (v n i : Nat) : (s.nvmSet f v n i).data = s.data := rfl
@[simp] theorem State.nvmSet_straits (s : State) (f : Field) (v n i : Nat) : (s.nvmSet f v n i).straits = s.straits := rfl
@[simp] theorem State.nvmSet_stores (s : State) (f : Field) (v n i : Nat) : (s.nvmSet f v n i).stores = s.stores := rfl
@[simp] theorem State.nvmSet_homeQ (s : State) (f : Field) (v n i : Nat) : (s.nvmSet f v n i).homeQ = s.homeQ := rfl
@[simp] theorem State.nvmSet_work (s : State) (f : Field) (v n i : Nat) : (s.nvmSet f v n i).work = s.work := rfl
@[simp] theorem State.nvmSet_asks (s : State) (f : Field) (v n i : Nat) : (s.nvmSet f v n i).asks = s.asks := rfl
@[simp] theorem State.nvmSet_emits (s : State) (f : Field) (v n i : Nat) : (s.nvmSet f v n i).emits = s.emits := rfl
@[simp] theorem State.nvmSet_ports (s : State) (f : Field) (v n i : Nat) : (s.nvmSet f v n i).ports = s.ports := rfl
@[simp] theorem State.nvmSet_slots (s : State) (f : Field) (v n i : Nat) : (s.nvmSet f v n i).slots = s.slots := rfl
@[simp] theorem State.nvmSet_bg (s : State) (f : Field) (v n i : Nat) : (s.nvmSet f v n i).bg = s.bg := rfl
@[simp] theorem State.nvmSet_tsf (s : State) (f : Field) (v n i : Nat) : (s.nvmSet f v n i).tsf = s.tsf := rfl
@[simp] theorem State.nvmSet_exch (s : State) (f : Field) (v n i : Nat) : (s.nvmSet f v n i).exch = s.exch := rfl
@[simp] theorem State.nvmSet_dpllHist (s : State) (f : Field) (v n i : Nat) : (s.nvmSet f v n i).dpllHist = s.dpllHist := rfl
@[simp] theorem State.nvmSet_thermal (s : State) (f : Field) (v n i : Nat) : (s.nvmSet f v n i).thermal = s.thermal := rfl
@[simp] theorem State.nvmSet_mbxIn (s : State) (f : Field) (v n i : Nat) : (s.nvmSet f v n i).mbxIn = s.mbxIn := rfl
@[simp] theorem State.nvmSet_mbxOpen (s : State) (f : Field) (v n i : Nat) : (s.nvmSet f v n i).mbxOpen = s.mbxOpen := rfl
@[simp] theorem State.nvmSet_mbxOut (s : State) (f : Field) (v n i : Nat) : (s.nvmSet f v n i).mbxOut = s.mbxOut := rfl
@[simp] theorem State.nvmSet_pages (s : State) (f : Field) (v n i : Nat) : (s.nvmSet f v n i).pages = s.pages := rfl
@[simp] theorem State.nvmSet_bufs (s : State) (f : Field) (v n i : Nat) : (s.nvmSet f v n i).bufs = s.bufs := rfl
@[simp] theorem State.nvmSet_info (s : State) (f : Field) (v n i : Nat) : (s.nvmSet f v n i).info = s.info := rfl
@[simp] theorem State.nvmSet_snaps (s : State) (f : Field) (v n i : Nat) : (s.nvmSet f v n i).snaps = s.snaps := rfl
@[simp] theorem State.nvmSet_staged (s : State) (f : Field) (v n i : Nat) : (s.nvmSet f v n i).staged = s.staged := rfl
@[simp] theorem State.nvmSet_answer (s : State) (f : Field) (v n i : Nat) : (s.nvmSet f v n i).answer = s.answer := rfl
@[simp] theorem State.nvmSet_pb (s : State) (f : Field) (v n i : Nat) : (s.nvmSet f v n i).pb = s.pb := rfl
@[simp] theorem State.nvmSet_tap (s : State) (f : Field) (v n i : Nat) : (s.nvmSet f v n i).tap = s.tap := rfl
@[simp] theorem State.nvmSet_tck (s : State) (f : Field) (v n i : Nat) : (s.nvmSet f v n i).tck = s.tck := rfl
@[simp] theorem State.setEx_pending (s : State) (n : Nat) (e : LinkExchange) : (s.setEx n e).pending = s.pending := rfl
@[simp] theorem State.setEx_now (s : State) (n : Nat) (e : LinkExchange) : (s.setEx n e).now = s.now := rfl
@[simp] theorem State.setEx_fresh (s : State) (n : Nat) (e : LinkExchange) : (s.setEx n e).fresh = s.fresh := rfl
@[simp] theorem State.setEx_regs (s : State) (n : Nat) (e : LinkExchange) : (s.setEx n e).regs = s.regs := rfl
@[simp] theorem State.setEx_live (s : State) (n : Nat) (e : LinkExchange) : (s.setEx n e).live = s.live := rfl
@[simp] theorem State.setEx_nvm (s : State) (n : Nat) (e : LinkExchange) : (s.setEx n e).nvm = s.nvm := rfl
@[simp] theorem State.setEx_evf (s : State) (n : Nat) (e : LinkExchange) : (s.setEx n e).evf = s.evf := rfl
@[simp] theorem State.setEx_running (s : State) (n : Nat) (e : LinkExchange) : (s.setEx n e).running = s.running := rfl
@[simp] theorem State.setEx_candidate (s : State) (n : Nat) (e : LinkExchange) : (s.setEx n e).candidate = s.candidate := rfl
@[simp] theorem State.setEx_imgRecord (s : State) (n : Nat) (e : LinkExchange) : (s.setEx n e).imgRecord = s.imgRecord := rfl
@[simp] theorem State.setEx_retained (s : State) (n : Nat) (e : LinkExchange) : (s.setEx n e).retained = s.retained := rfl
@[simp] theorem State.setEx_votes (s : State) (n : Nat) (e : LinkExchange) : (s.setEx n e).votes = s.votes := rfl
@[simp] theorem State.setEx_tests (s : State) (n : Nat) (e : LinkExchange) : (s.setEx n e).tests = s.tests := rfl
@[simp] theorem State.setEx_deferred (s : State) (n : Nat) (e : LinkExchange) : (s.setEx n e).deferred = s.deferred := rfl
@[simp] theorem State.setEx_svcQ (s : State) (n : Nat) (e : LinkExchange) : (s.setEx n e).svcQ = s.svcQ := rfl
@[simp] theorem State.setEx_data (s : State) (n : Nat) (e : LinkExchange) : (s.setEx n e).data = s.data := rfl
@[simp] theorem State.setEx_straits (s : State) (n : Nat) (e : LinkExchange) : (s.setEx n e).straits = s.straits := rfl
@[simp] theorem State.setEx_stores (s : State) (n : Nat) (e : LinkExchange) : (s.setEx n e).stores = s.stores := rfl
@[simp] theorem State.setEx_homeQ (s : State) (n : Nat) (e : LinkExchange) : (s.setEx n e).homeQ = s.homeQ := rfl
@[simp] theorem State.setEx_work (s : State) (n : Nat) (e : LinkExchange) : (s.setEx n e).work = s.work := rfl
@[simp] theorem State.setEx_asks (s : State) (n : Nat) (e : LinkExchange) : (s.setEx n e).asks = s.asks := rfl
@[simp] theorem State.setEx_emits (s : State) (n : Nat) (e : LinkExchange) : (s.setEx n e).emits = s.emits := rfl
@[simp] theorem State.setEx_ports (s : State) (n : Nat) (e : LinkExchange) : (s.setEx n e).ports = s.ports := rfl
@[simp] theorem State.setEx_slots (s : State) (n : Nat) (e : LinkExchange) : (s.setEx n e).slots = s.slots := rfl
@[simp] theorem State.setEx_bg (s : State) (n : Nat) (e : LinkExchange) : (s.setEx n e).bg = s.bg := rfl
@[simp] theorem State.setEx_tsf (s : State) (n : Nat) (e : LinkExchange) : (s.setEx n e).tsf = s.tsf := rfl
@[simp] theorem State.setEx_dpllHist (s : State) (n : Nat) (e : LinkExchange) : (s.setEx n e).dpllHist = s.dpllHist := rfl
@[simp] theorem State.setEx_thermal (s : State) (n : Nat) (e : LinkExchange) : (s.setEx n e).thermal = s.thermal := rfl
@[simp] theorem State.setEx_mbxIn (s : State) (n : Nat) (e : LinkExchange) : (s.setEx n e).mbxIn = s.mbxIn := rfl
@[simp] theorem State.setEx_mbxOpen (s : State) (n : Nat) (e : LinkExchange) : (s.setEx n e).mbxOpen = s.mbxOpen := rfl
@[simp] theorem State.setEx_mbxOut (s : State) (n : Nat) (e : LinkExchange) : (s.setEx n e).mbxOut = s.mbxOut := rfl
@[simp] theorem State.setEx_pages (s : State) (n : Nat) (e : LinkExchange) : (s.setEx n e).pages = s.pages := rfl
@[simp] theorem State.setEx_bufs (s : State) (n : Nat) (e : LinkExchange) : (s.setEx n e).bufs = s.bufs := rfl
@[simp] theorem State.setEx_info (s : State) (n : Nat) (e : LinkExchange) : (s.setEx n e).info = s.info := rfl
@[simp] theorem State.setEx_snaps (s : State) (n : Nat) (e : LinkExchange) : (s.setEx n e).snaps = s.snaps := rfl
@[simp] theorem State.setEx_staged (s : State) (n : Nat) (e : LinkExchange) : (s.setEx n e).staged = s.staged := rfl
@[simp] theorem State.setEx_answer (s : State) (n : Nat) (e : LinkExchange) : (s.setEx n e).answer = s.answer := rfl
@[simp] theorem State.setEx_pb (s : State) (n : Nat) (e : LinkExchange) : (s.setEx n e).pb = s.pb := rfl
@[simp] theorem State.setEx_tap (s : State) (n : Nat) (e : LinkExchange) : (s.setEx n e).tap = s.tap := rfl
@[simp] theorem State.setEx_tck (s : State) (n : Nat) (e : LinkExchange) : (s.setEx n e).tck = s.tck := rfl
@[simp] theorem State.setLd_pending (s : State) (n : Nat) (d : LaneData) : (s.setLd n d).pending = s.pending := rfl
@[simp] theorem State.setLd_now (s : State) (n : Nat) (d : LaneData) : (s.setLd n d).now = s.now := rfl
@[simp] theorem State.setLd_fresh (s : State) (n : Nat) (d : LaneData) : (s.setLd n d).fresh = s.fresh := rfl
@[simp] theorem State.setLd_regs (s : State) (n : Nat) (d : LaneData) : (s.setLd n d).regs = s.regs := rfl
@[simp] theorem State.setLd_live (s : State) (n : Nat) (d : LaneData) : (s.setLd n d).live = s.live := rfl
@[simp] theorem State.setLd_nvm (s : State) (n : Nat) (d : LaneData) : (s.setLd n d).nvm = s.nvm := rfl
@[simp] theorem State.setLd_evf (s : State) (n : Nat) (d : LaneData) : (s.setLd n d).evf = s.evf := rfl
@[simp] theorem State.setLd_running (s : State) (n : Nat) (d : LaneData) : (s.setLd n d).running = s.running := rfl
@[simp] theorem State.setLd_candidate (s : State) (n : Nat) (d : LaneData) : (s.setLd n d).candidate = s.candidate := rfl
@[simp] theorem State.setLd_imgRecord (s : State) (n : Nat) (d : LaneData) : (s.setLd n d).imgRecord = s.imgRecord := rfl
@[simp] theorem State.setLd_retained (s : State) (n : Nat) (d : LaneData) : (s.setLd n d).retained = s.retained := rfl
@[simp] theorem State.setLd_votes (s : State) (n : Nat) (d : LaneData) : (s.setLd n d).votes = s.votes := rfl
@[simp] theorem State.setLd_tests (s : State) (n : Nat) (d : LaneData) : (s.setLd n d).tests = s.tests := rfl
@[simp] theorem State.setLd_deferred (s : State) (n : Nat) (d : LaneData) : (s.setLd n d).deferred = s.deferred := rfl
@[simp] theorem State.setLd_svcQ (s : State) (n : Nat) (d : LaneData) : (s.setLd n d).svcQ = s.svcQ := rfl
@[simp] theorem State.setLd_straits (s : State) (n : Nat) (d : LaneData) : (s.setLd n d).straits = s.straits := rfl
@[simp] theorem State.setLd_stores (s : State) (n : Nat) (d : LaneData) : (s.setLd n d).stores = s.stores := rfl
@[simp] theorem State.setLd_homeQ (s : State) (n : Nat) (d : LaneData) : (s.setLd n d).homeQ = s.homeQ := rfl
@[simp] theorem State.setLd_work (s : State) (n : Nat) (d : LaneData) : (s.setLd n d).work = s.work := rfl
@[simp] theorem State.setLd_asks (s : State) (n : Nat) (d : LaneData) : (s.setLd n d).asks = s.asks := rfl
@[simp] theorem State.setLd_emits (s : State) (n : Nat) (d : LaneData) : (s.setLd n d).emits = s.emits := rfl
@[simp] theorem State.setLd_ports (s : State) (n : Nat) (d : LaneData) : (s.setLd n d).ports = s.ports := rfl
@[simp] theorem State.setLd_slots (s : State) (n : Nat) (d : LaneData) : (s.setLd n d).slots = s.slots := rfl
@[simp] theorem State.setLd_bg (s : State) (n : Nat) (d : LaneData) : (s.setLd n d).bg = s.bg := rfl
@[simp] theorem State.setLd_tsf (s : State) (n : Nat) (d : LaneData) : (s.setLd n d).tsf = s.tsf := rfl
@[simp] theorem State.setLd_exch (s : State) (n : Nat) (d : LaneData) : (s.setLd n d).exch = s.exch := rfl
@[simp] theorem State.setLd_dpllHist (s : State) (n : Nat) (d : LaneData) : (s.setLd n d).dpllHist = s.dpllHist := rfl
@[simp] theorem State.setLd_thermal (s : State) (n : Nat) (d : LaneData) : (s.setLd n d).thermal = s.thermal := rfl
@[simp] theorem State.setLd_mbxIn (s : State) (n : Nat) (d : LaneData) : (s.setLd n d).mbxIn = s.mbxIn := rfl
@[simp] theorem State.setLd_mbxOpen (s : State) (n : Nat) (d : LaneData) : (s.setLd n d).mbxOpen = s.mbxOpen := rfl
@[simp] theorem State.setLd_mbxOut (s : State) (n : Nat) (d : LaneData) : (s.setLd n d).mbxOut = s.mbxOut := rfl
@[simp] theorem State.setLd_pages (s : State) (n : Nat) (d : LaneData) : (s.setLd n d).pages = s.pages := rfl
@[simp] theorem State.setLd_bufs (s : State) (n : Nat) (d : LaneData) : (s.setLd n d).bufs = s.bufs := rfl
@[simp] theorem State.setLd_info (s : State) (n : Nat) (d : LaneData) : (s.setLd n d).info = s.info := rfl
@[simp] theorem State.setLd_snaps (s : State) (n : Nat) (d : LaneData) : (s.setLd n d).snaps = s.snaps := rfl
@[simp] theorem State.setLd_staged (s : State) (n : Nat) (d : LaneData) : (s.setLd n d).staged = s.staged := rfl
@[simp] theorem State.setLd_answer (s : State) (n : Nat) (d : LaneData) : (s.setLd n d).answer = s.answer := rfl
@[simp] theorem State.setLd_pb (s : State) (n : Nat) (d : LaneData) : (s.setLd n d).pb = s.pb := rfl
@[simp] theorem State.setLd_tap (s : State) (n : Nat) (d : LaneData) : (s.setLd n d).tap = s.tap := rfl
@[simp] theorem State.setLd_tck (s : State) (n : Nat) (d : LaneData) : (s.setLd n d).tck = s.tck := rfl
@[simp] theorem State.free_pending (s : State) : s.free.2.pending = s.pending := rfl
@[simp] theorem State.free_now (s : State) : s.free.2.now = s.now := rfl
@[simp] theorem State.free_regs (s : State) : s.free.2.regs = s.regs := rfl
@[simp] theorem State.free_live (s : State) : s.free.2.live = s.live := rfl
@[simp] theorem State.free_nvm (s : State) : s.free.2.nvm = s.nvm := rfl
@[simp] theorem State.free_evf (s : State) : s.free.2.evf = s.evf := rfl
@[simp] theorem State.free_running (s : State) : s.free.2.running = s.running := rfl
@[simp] theorem State.free_candidate (s : State) : s.free.2.candidate = s.candidate := rfl
@[simp] theorem State.free_imgRecord (s : State) : s.free.2.imgRecord = s.imgRecord := rfl
@[simp] theorem State.free_retained (s : State) : s.free.2.retained = s.retained := rfl
@[simp] theorem State.free_votes (s : State) : s.free.2.votes = s.votes := rfl
@[simp] theorem State.free_tests (s : State) : s.free.2.tests = s.tests := rfl
@[simp] theorem State.free_deferred (s : State) : s.free.2.deferred = s.deferred := rfl
@[simp] theorem State.free_svcQ (s : State) : s.free.2.svcQ = s.svcQ := rfl
@[simp] theorem State.free_data (s : State) : s.free.2.data = s.data := rfl
@[simp] theorem State.free_straits (s : State) : s.free.2.straits = s.straits := rfl
@[simp] theorem State.free_stores (s : State) : s.free.2.stores = s.stores := rfl
@[simp] theorem State.free_homeQ (s : State) : s.free.2.homeQ = s.homeQ := rfl
@[simp] theorem State.free_work (s : State) : s.free.2.work = s.work := rfl
@[simp] theorem State.free_asks (s : State) : s.free.2.asks = s.asks := rfl
@[simp] theorem State.free_emits (s : State) : s.free.2.emits = s.emits := rfl
@[simp] theorem State.free_ports (s : State) : s.free.2.ports = s.ports := rfl
@[simp] theorem State.free_slots (s : State) : s.free.2.slots = s.slots := rfl
@[simp] theorem State.free_bg (s : State) : s.free.2.bg = s.bg := rfl
@[simp] theorem State.free_tsf (s : State) : s.free.2.tsf = s.tsf := rfl
@[simp] theorem State.free_exch (s : State) : s.free.2.exch = s.exch := rfl
@[simp] theorem State.free_dpllHist (s : State) : s.free.2.dpllHist = s.dpllHist := rfl
@[simp] theorem State.free_thermal (s : State) : s.free.2.thermal = s.thermal := rfl
@[simp] theorem State.free_mbxIn (s : State) : s.free.2.mbxIn = s.mbxIn := rfl
@[simp] theorem State.free_mbxOpen (s : State) : s.free.2.mbxOpen = s.mbxOpen := rfl
@[simp] theorem State.free_mbxOut (s : State) : s.free.2.mbxOut = s.mbxOut := rfl
@[simp] theorem State.free_pages (s : State) : s.free.2.pages = s.pages := rfl
@[simp] theorem State.free_bufs (s : State) : s.free.2.bufs = s.bufs := rfl
@[simp] theorem State.free_info (s : State) : s.free.2.info = s.info := rfl
@[simp] theorem State.free_snaps (s : State) : s.free.2.snaps = s.snaps := rfl
@[simp] theorem State.free_staged (s : State) : s.free.2.staged = s.staged := rfl
@[simp] theorem State.free_answer (s : State) : s.free.2.answer = s.answer := rfl
@[simp] theorem State.free_pb (s : State) : s.free.2.pb = s.pb := rfl
@[simp] theorem State.free_tap (s : State) : s.free.2.tap = s.tap := rfl
@[simp] theorem State.free_tck (s : State) : s.free.2.tck = s.tck := rfl

end Sys2Proof.Machine
end

