-- ==== Sys2Proof/Laws/Only.lean ====
section
/-!
SUPPORT. Which blocks' registers an operation may change: one lemma for each operation.
-/
set_option Elab.async false
set_option linter.all false
namespace Sys2Proof.Machine

theorem OnlyIn.refl (l : List Block) (r : State) : OnlyIn l r r := ⟨fun _ _ _ _ => rfl, fun _ _ _ _ => rfl⟩

theorem OnlyIn.trans {l : List Block} {r s t : State} (h : OnlyIn l r s) (g : OnlyIn l s t) : OnlyIn l r t :=
  ⟨fun f n i hf => (g.read f n i hf).trans (h.read f n i hf), fun f n i hf => (g.inUse f n i hf).trans (h.inUse f n i hf)⟩

/-- A command's outcome is a next state, and only registers of the blocks `l` differ there. -/
inductive OutOnlyIn (l : List Block) (r : State) : Out → Prop
  | next {s : State} (h : OnlyIn l r s) : OutOnlyIn l r (.next s)

/-- The same of an operation that may not apply. -/
inductive OptOnlyIn (l : List Block) (r : State) : Option State → Prop
  | none : OptOnlyIn l r .none
  | some {s : State} (h : OnlyIn l r s) : OptOnlyIn l r (.some s)

variable {r s : State} {l : List Block}

theorem OutOnlyIn.elim {o : Out} (h : OutOnlyIn l r o) (e : o = .next s) : OnlyIn l r s := by
  subst e; cases h; assumption

theorem OptOnlyIn.elim {o : Option State} (h : OptOnlyIn l r o) (e : o = .some s) : OnlyIn l r s := by
  subst e; cases h; assumption

theorem OptOnlyIn.getD {o : Option State} (h : OptOnlyIn l r o) (g : OnlyIn l r s) : OnlyIn l r (o.getD s) := by
  cases o with
  | none => exact g
  | some t => exact h.elim rfl

theorem OptOnlyIn.findSome {α : Type} {k : List α} {f : α → Option State} (hf : ∀ a, OptOnlyIn l r (f a)) :
    OptOnlyIn l r (k.findSome? f) := by
  induction k with
  | nil => exact OptOnlyIn.none
  | cons a k ih =>
    have ha := hf a
    unfold List.findSome?
    split
    · rename_i h; rw [h] at ha; exact ha
    · exact ih

theorem OnlyIn.cond {a b : State} {c : Prop} {d : Decidable c} (ha : OnlyIn l r a) (hb : OnlyIn l r b) :
    OnlyIn l r (@ite State c d a b) := by
  cases d <;> assumption

theorem OutOnlyIn.cond {a b : Out} {c : Prop} {d : Decidable c} (ha : OutOnlyIn l r a) (hb : OutOnlyIn l r b) :
    OutOnlyIn l r (@ite Out c d a b) := by
  cases d <;> assumption

theorem OptOnlyIn.cond {a b : Option State} {c : Prop} {d : Decidable c} (ha : OptOnlyIn l r a) (hb : OptOnlyIn l r b) :
    OptOnlyIn l r (@ite (Option State) c d a b) := by
  cases d <;> assumption

theorem OnlyIn.cond_snd {α : Type} {a b : α × State} {c : Prop} {d : Decidable c} (ha : OnlyIn l r a.2)
    (hb : OnlyIn l r b.2) : OnlyIn l r (@ite (α × State) c d a b).2 := by
  cases d <;> assumption

theorem OnlyIn.when {c : Bool} {g : State → State} (h : OnlyIn l r s) (hg : ∀ u, OnlyIn l r u → OnlyIn l r (g u)) :
    OnlyIn l r (s.when c g) := by
  unfold State.when; split
  · exact hg s h
  · exact h

theorem OnlyIn.each {α : Type} {k : List α} {g : α → State → State} (h : OnlyIn l r s)
    (hg : ∀ a u, OnlyIn l r u → OnlyIn l r (g a u)) : OnlyIn l r (s.each k g) := by
  unfold State.each
  induction k generalizing s with
  | nil => exact h
  | cons a k ih => exact ih (hg a s h)

theorem OnlyIn.foldl {α : Type} {k : List α} {g : State → α → State} (h : OnlyIn l r s)
    (hg : ∀ a u, OnlyIn l r u → OnlyIn l r (g u a)) : OnlyIn l r (k.foldl g s) := by
  induction k generalizing s with
  | nil => exact h
  | cons a k ih => exact ih (hg a s h)

theorem OnlyIn.foldl_snd {α β : Type} {k : List α} {g : β × State → α → β × State} {b : β × State}
    (h : OnlyIn l r b.2) (hg : ∀ a u, OnlyIn l r u.2 → OnlyIn l r (g u a).2) : OnlyIn l r (k.foldl g b).2 := by
  induction k generalizing b with
  | nil => exact h
  | cons a k ih => exact ih (hg a b h)

/-- A change of the parts that hold no register. -/
theorem OnlyIn.other {pending now fresh nvm evf running candidate imgRecord retained votes tests deferred svcQ data
    straits stores homeQ work asks emits ports slots bg tsf exch dpllHist thermal mbxIn mbxOpen mbxOut pages bufs info snaps staged answer pb tap tck}
    (h : OnlyIn l r s) :
    OnlyIn l r ⟨pending, now, fresh, s.regs, s.live, nvm, evf, running, candidate, imgRecord, retained, votes, tests,
      deferred, svcQ, data, straits, stores, homeQ, work, asks, emits, ports, slots, bg, tsf, exch, dpllHist, thermal,
      mbxIn, mbxOpen, mbxOut, pages, bufs, info, snaps, staged, answer, pb, tap, tck⟩ := ⟨h.read, h.inUse⟩

theorem State.wr_onlyIn {f : Field} {v n i : Nat} (h : OnlyIn l r s) (hb : f.desc.block ∈ l) :
    OnlyIn l r (s.wr f v n i) :=
  ⟨fun g m j hg => (s.rd_wr_field v n m i j (fun e => hg (by rw [e]; exact hb))).trans (h.read g m j hg), h.inUse⟩

theorem State.setUse_onlyIn {f : Field} {v n i : Nat} (h : OnlyIn l r s) (hb : f.desc.block ∈ l) :
    OnlyIn l r (s.setUse f v n i) := by
  refine ⟨h.read, fun g m j hg => ?_⟩
  have hn : ¬ (g = f ∧ m = n ∧ j = i) := fun e => hg (by rw [e.1]; exact hb)
  rw [State.use_setUse, if_neg hn]
  exact h.inUse g m j hg

theorem State.nvmSet_onlyIn {f : Field} {v n i : Nat} (h : OnlyIn l r s) : OnlyIn l r (s.nvmSet f v n i) := ⟨h.read, h.inUse⟩

theorem State.setLd_onlyIn {n : Nat} {d : LaneData} (h : OnlyIn l r s) : OnlyIn l r (s.setLd n d) := ⟨h.read, h.inUse⟩
theorem State.setEx_onlyIn {n : Nat} {e : LinkExchange} (h : OnlyIn l r s) : OnlyIn l r (s.setEx n e) := ⟨h.read, h.inUse⟩

theorem State.free_onlyIn (h : OnlyIn l r s) : OnlyIn l r s.free.2 := ⟨h.read, h.inUse⟩

/-- Registers put back to reset, of the blocks `l` alone. -/
theorem OnlyIn.resetRegs {p : Key → Bool} (h : OnlyIn l r s) (hp : ∀ k, p k = true → k.f.desc.block ∈ l) :
    OnlyIn l r { s with regs := s.regs.resetWhere p } := by
  refine ⟨fun f n i hf => ?_, h.inUse⟩
  unfold State.rd
  dsimp only
  rw [Store.get_resetWhere, if_neg (fun e => hf (hp _ e))]
  exact h.read f n i hf

theorem OnlyIn.puts_nil {n : Nat} (h : OnlyIn l r s) : OnlyIn l r (s.puts [] n) := h

theorem OnlyIn.puts_cons {f : Field} {v n : Nat} {k : List (Field × Nat)} (h : OnlyIn l r s) (hb : f.desc.block ∈ l)
    (rest : ∀ u, OnlyIn l r u → OnlyIn l r (u.puts k n)) : OnlyIn l r (s.puts ((f, v) :: k) n) :=
  rest _ (State.wr_onlyIn h hb)

theorem OnlyIn.clear_nil {n : Nat} (h : OnlyIn l r s) : OnlyIn l r (s.clear [] n) := h

theorem OnlyIn.clear_cons {f : Field} {n : Nat} {k : List Field} (h : OnlyIn l r s) (hb : f.desc.block ∈ l)
    (rest : ∀ u, OnlyIn l r u → OnlyIn l r (u.clear k n)) : OnlyIn l r (s.clear (f :: k) n) :=
  rest _ (State.wr_onlyIn h hb)

theorem OnlyIn.each_nil {α : Type} {g : α → State → State} (h : OnlyIn l r s) : OnlyIn l r (s.each [] g) := h

theorem OnlyIn.each_cons {α : Type} {g : α → State → State} {a : α} {k : List α} (h : OnlyIn l r s)
    (hg : ∀ u, OnlyIn l r u → OnlyIn l r (g a u)) (rest : ∀ u, OnlyIn l r u → OnlyIn l r (u.each k g)) :
    OnlyIn l r (s.each (a :: k) g) := rest _ (hg _ h)

theorem State.setUses_onlyIn {k : List Field} {n i : Nat} (h : OnlyIn l r s) (hb : ∀ f ∈ k, f.desc.block ∈ l) :
    OnlyIn l r (k.foldl (fun t f => t.setUse f (t.rd f n i) n i) s) := by
  induction k generalizing s with
  | nil => exact h
  | cons f k ih =>
    exact ih (State.setUse_onlyIn h (hb f (by simp))) (fun g hg => hb g (by simp [hg]))

end Sys2Proof.Machine
end

