-- ==== Sys2Proof/Laws/OnlyOps.lean ====
section
/-!
SUPPORT. Which blocks the operations of Ops change.
-/
set_option Elab.async false
set_option linter.all false
namespace Sys2Proof.Machine

theorem State.wrInt_onlyIn {l : List Block} {r : State} {s : State} {f : Field} {v : Int} {n : Nat} {i : Nat} (hk : OnlyIn l r s) (hbf : f.desc.block ∈ l) :
    OnlyIn l r (State.wrInt s f v n i) := by
  unfold State.wrInt
  repeat' first
    | intro _
    | (with_reducible first | assumption | exact OnlyIn.refl _ _ | apply State.wr_onlyIn)
    | extract_lets

theorem State.wrb_onlyIn {l : List Block} {r : State} {s : State} {f : Field} {b : Bool} {n : Nat} {i : Nat} (hk : OnlyIn l r s) (hbf : f.desc.block ∈ l) :
    OnlyIn l r (State.wrb s f b n i) := by
  unfold State.wrb
  repeat' first
    | intro _
    | (with_reducible first | assumption | exact OnlyIn.refl _ _ | apply State.wr_onlyIn)
    | extract_lets

theorem State.resetFields_onlyIn {l : List Block} {r s : State} {p : Key → Bool} (hk : OnlyIn l r s)
    (hp : ∀ k, p k = true → k.f.desc.block ∈ l) : OnlyIn l r (s.resetFields p) := by
  refine ⟨fun f n i hf => ?_, fun f n i hf => ?_⟩
  · rw [State.rd_resetFields, if_neg (fun e => hf (hp _ e))]
    exact hk.read f n i hf
  · unfold State.resetFields State.use
    dsimp only
    rw [Store.get_resetWhere, if_neg (fun e => hf (hp _ e))]
    exact hk.inUse f n i hf

theorem State.bump_onlyIn {l : List Block} {r : State} {s : State} {f : Field} {n : Nat} {i : Nat} {k : Nat} (hk : OnlyIn l r s) (hbf : f.desc.block ∈ l) :
    OnlyIn l r (State.bump s f n i k) := by
  unfold State.bump
  repeat' first
    | intro _
    | (with_reducible first | assumption | exact OnlyIn.refl _ _ | apply State.wr_onlyIn)
    | extract_lets

theorem State.raise_onlyIn {l : List Block} {r : State} {s : State} {f : Field} {k : Nat} {n : Nat} (hk : OnlyIn l r s) (hbf : f.desc.block ∈ l) :
    OnlyIn l r (State.raise s f k n) := by
  unfold State.raise
  repeat' first
    | intro _
    | (with_reducible first | assumption | exact OnlyIn.refl _ _ | apply State.wr_onlyIn)
    | extract_lets

theorem State.setMask_onlyIn {l : List Block} {r : State} {s : State} {f : Field} {k : Nat} {b : Bool} {n : Nat} (hk : OnlyIn l r s) (hbf : f.desc.block ∈ l) :
    OnlyIn l r (State.setMask s f k b n) := by
  unfold State.setMask
  repeat' first
    | intro _
    | (with_reducible first | assumption | exact OnlyIn.refl _ _ | apply State.wr_onlyIn)
    | extract_lets

theorem State.puts_onlyIn {l : List Block} {r s : State} {k : List (Field × Nat)} {n : Nat} (hk : OnlyIn l r s)
    (hb : ∀ e ∈ k, e.1.desc.block ∈ l) : OnlyIn l r (s.puts k n) := by
  induction k generalizing s with
  | nil => exact hk
  | cons e k ih =>
    exact ih (State.wr_onlyIn hk (hb e (by simp))) (fun g hg => hb g (by simp [hg]))

theorem State.setMask'_onlyIn {l : List Block} {r : State} {s : State} {f : Field} {i k : Nat} {b : Bool} (hk : OnlyIn l r s) (hbf : f.desc.block ∈ l) :
    OnlyIn l r (State.setMask' s f i k b) := by
  unfold State.setMask'
  repeat' first
    | intro _
    | (with_reducible first | assumption | exact OnlyIn.refl _ _ | apply State.wr_onlyIn)
    | extract_lets

theorem State.wrNow_onlyIn {l : List Block} {r : State} {s : State} {f : Field} {v : Nat} {n : Nat} {i : Nat} (hk : OnlyIn l r s) (hbf : f.desc.block ∈ l) :
    OnlyIn l r (State.wrNow s f v n i) := by
  unfold State.wrNow
  repeat' first
    | intro _
    | (with_reducible first | assumption | exact OnlyIn.refl _ _ | apply State.wr_onlyIn | apply State.setUse_onlyIn)
    | extract_lets

theorem State.wrFree_onlyIn {l : List Block} {r : State} {s : State} {f : Field} {n : Nat} {i : Nat} (hk : OnlyIn l r s) (hbf : f.desc.block ∈ l) :
    OnlyIn l r (State.wrFree s f n i) := by
  unfold State.wrFree
  repeat' first
    | intro _
    | (with_reducible first | assumption | exact OnlyIn.refl _ _ | apply State.free_onlyIn | apply State.wr_onlyIn)
    | extract_lets | dsimp only

theorem State.evfPut_onlyIn {l : List Block} {r : State} {s : State} {ws : List Nat} (hk : OnlyIn l r s) (h_evf : Block.evf ∈ l) :
    OnlyIn l r (State.evfPut s ws) := by
  unfold State.evfPut
  repeat' first
    | intro _
    | (with_reducible first | assumption | exact OnlyIn.refl _ _ | apply State.wr_onlyIn | apply State.raise_onlyIn | apply OnlyIn.when)
    | extract_lets | dsimp only
    | (with_reducible first | apply OnlyIn.other)
    | exact h_evf

theorem State.evfFail_onlyIn {l : List Block} {r : State} {s : State} {ty : Nat} {payload : List Nat} (hk : OnlyIn l r s) (h_evf : Block.evf ∈ l) :
    OnlyIn l r (State.evfFail s ty payload) := by
  unfold State.evfFail
  repeat' first
    | intro _
    | (with_reducible first | assumption | exact OnlyIn.refl _ _ | apply State.wr_onlyIn | apply State.raise_onlyIn | apply State.bump_onlyIn | apply State.evfPut_onlyIn | apply OnlyIn.cond)
    | extract_lets | split | exact h_evf

theorem State.emit_onlyIn {l : List Block} {r : State} {s : State} {ty obj : Nat} {payload : List Nat} (hk : OnlyIn l r s) (h_evf : Block.evf ∈ l) :
    OnlyIn l r (State.emit s ty obj payload) := by
  unfold State.emit
  repeat' first
    | intro _
    | (with_reducible first | assumption | exact OnlyIn.refl _ _ | apply State.wr_onlyIn | apply State.bump_onlyIn | apply State.evfPut_onlyIn | apply State.evfFail_onlyIn | apply OnlyIn.cond)
    | extract_lets | split | exact h_evf

theorem State.testResult_onlyIn {l : List Block} {r : State} {s : State} {kind unit res : Nat} {origin : TestOrigin} (hk : OnlyIn l r s) (h_evf : Block.evf ∈ l) (h_hlt : Block.hlt ∈ l) :
    OnlyIn l r (State.testResult s kind unit res origin) := by
  unfold State.testResult
  repeat' first
    | intro _
    | (with_reducible first | assumption | exact OnlyIn.refl _ _ | apply State.emit_onlyIn | apply State.raise_onlyIn | apply State.wr_onlyIn | apply OnlyIn.puts_cons | apply OnlyIn.puts_nil | apply OnlyIn.cond)
    | extract_lets | split | exact h_evf | exact h_hlt

theorem State.testReinit_onlyIn {l : List Block} {r : State} {s : State} {kind unit : Nat} (hk : OnlyIn l r s) :
    OnlyIn l r (State.testReinit s kind unit) := by
  unfold State.testReinit
  repeat' first
    | intro _
    | (with_reducible first | assumption | exact OnlyIn.refl _ _ | apply OnlyIn.cond)
    | extract_lets | dsimp only | split
    | (with_reducible first | apply OnlyIn.other)

theorem State.endTest_onlyIn {l : List Block} {r : State} {s : State} {kind unit : Nat} {cnt : Field} (hk : OnlyIn l r s) (h_evf : Block.evf ∈ l) (h_hlt : Block.hlt ∈ l) (hbcnt : cnt.desc.block ∈ l) :
    OnlyIn l r (State.endTest s kind unit cnt) := by
  unfold State.endTest
  repeat' first
    | intro _
    | (with_reducible first | assumption | exact OnlyIn.refl _ _ | apply State.testReinit_onlyIn | apply State.wr_onlyIn | apply State.bump_onlyIn | apply State.raise_onlyIn | apply State.testResult_onlyIn | apply OnlyIn.when | apply OnlyIn.cond)
    | extract_lets | dsimp only | split | exact h_evf | exact h_hlt

theorem State.service_onlyIn {l : List Block} {r0 : State} {s : State} {kind unit : Nat} {flag : Bool} {r : SvcReq} {g : State → State} (hk : OnlyIn l r0 s) (h_evf : Block.evf ∈ l) (h_hlt : Block.hlt ∈ l) (hgg : ∀ u, OnlyIn l r0 u → OnlyIn l r0 (g u)) :
    OnlyIn l r0 (State.service s kind unit flag r g) := by
  unfold State.service
  repeat' first
    | intro _
    | (with_reducible first | apply hgg | assumption | exact OnlyIn.refl _ _ | apply State.endTest_onlyIn | apply OnlyIn.when | apply OnlyIn.cond)
    | extract_lets | dsimp only | split
    | (with_reducible first | apply OnlyIn.other)
    | exact h_evf | exact h_hlt

theorem State.laneService_onlyIn {l : List Block} {r0 : State} {s : State} {n : Nat} {r : SvcReq} {g : State → State} (hk : OnlyIn l r0 s) (h_evf : Block.evf ∈ l) (h_hlt : Block.hlt ∈ l) (hgg : ∀ u, OnlyIn l r0 u → OnlyIn l r0 (g u)) :
    OnlyIn l r0 (State.laneService s n r g) := by
  unfold State.laneService
  repeat' first
    | intro _
    | (with_reducible first | apply hgg | assumption | exact OnlyIn.refl _ _ | apply State.service_onlyIn | apply OnlyIn.cond)
    | extract_lets | split | exact h_evf | exact h_hlt

theorem State.hostService_onlyIn {l : List Block} {r0 : State} {s : State} {h : Nat} {r : SvcReq} {g : State → State} (hk : OnlyIn l r0 s) (h_evf : Block.evf ∈ l) (h_hlt : Block.hlt ∈ l) (hgg : ∀ u, OnlyIn l r0 u → OnlyIn l r0 (g u)) :
    OnlyIn l r0 (State.hostService s h r g) := by
  unfold State.hostService
  repeat' first
    | intro _
    | (with_reducible first | apply hgg | assumption | exact OnlyIn.refl _ _ | apply State.service_onlyIn)
    | extract_lets | exact h_evf | exact h_hlt

theorem State.atcStop_onlyIn {l : List Block} {r : State} {s : State} (hk : OnlyIn l r s) (h_clk : Block.clk ∈ l) :
    OnlyIn l r (State.atcStop s) := by
  unfold State.atcStop
  repeat' first
    | intro _
    | (with_reducible first | assumption | exact OnlyIn.refl _ _ | apply State.wr_onlyIn)
    | extract_lets | exact h_clk

theorem State.atcRun_onlyIn {l : List Block} {r : State} {s : State} (hk : OnlyIn l r s) (h_clk : Block.clk ∈ l) :
    OnlyIn l r (State.atcRun s) := by
  unfold State.atcRun
  repeat' first
    | intro _
    | (with_reducible first | assumption | exact OnlyIn.refl _ _ | apply State.wr_onlyIn | apply OnlyIn.cond)
    | extract_lets | split | exact h_clk

theorem State.straitPut_onlyIn {l : List Block} {r : State} {s : State} {id : Nat} {ws : List StraitWord} (hk : OnlyIn l r s) :
    OnlyIn l r (State.straitPut s id ws) := by
  unfold State.straitPut
  repeat' first
    | intro _
    | (with_reducible first | assumption | exact OnlyIn.refl _ _)
    | extract_lets
    | (with_reducible first | apply OnlyIn.other)

theorem State.straitFlush_onlyIn {l : List Block} {r : State} {s : State} {p : StraitWord → Bool} (hk : OnlyIn l r s) :
    OnlyIn l r (State.straitFlush s p) := by
  unfold State.straitFlush
  repeat' first
    | intro _
    | (with_reducible first | assumption | exact OnlyIn.refl _ _)
    | extract_lets | dsimp only
    | (with_reducible first | apply OnlyIn.other)

theorem State.straitDrop_onlyIn {l : List Block} {r : State} {s : State} {id k : Nat} (hk : OnlyIn l r s) (h_glb : Block.glb ∈ l) :
    OnlyIn l r (State.straitDrop s id k) := by
  unfold State.straitDrop
  repeat' first
    | intro _
    | (with_reducible first | assumption | exact OnlyIn.refl _ _ | apply State.bump_onlyIn | apply State.wr_onlyIn | apply State.raise_onlyIn)
    | extract_lets | exact h_glb

theorem State.arcClusterOff_onlyIn {l : List Block} {r : State} {s : State} {c : Nat} (hk : OnlyIn l r s) :
    OnlyIn l r (State.arcClusterOff s c) := by
  unfold State.arcClusterOff
  repeat' first
    | intro _
    | (with_reducible first | assumption | exact OnlyIn.refl _ _)
    | extract_lets | dsimp only
    | (with_reducible first | apply OnlyIn.other)

theorem State.xbarOff_onlyIn {l : List Block} {r : State} {s : State} (hk : OnlyIn l r s) :
    OnlyIn l r (State.xbarOff s) := by
  unfold State.xbarOff
  repeat' first
    | intro _
    | (with_reducible first | assumption | exact OnlyIn.refl _ _ | apply State.straitFlush_onlyIn)
    | extract_lets | dsimp only
    | (with_reducible first | apply OnlyIn.other)

theorem State.exchClear_onlyIn {l : List Block} {r : State} {s : State} {n : Nat} (hk : OnlyIn l r s) (h_timLn : Block.timLn ∈ l) :
    OnlyIn l r (State.exchClear s n) := by
  unfold State.exchClear
  repeat' first
    | intro _
    | (with_reducible first | assumption | exact OnlyIn.refl _ _ | apply State.setEx_onlyIn | apply State.wr_onlyIn)
    | extract_lets
    | (with_reducible first | apply OnlyIn.other)
    | exact h_timLn

theorem State.exchMiss_onlyIn {l : List Block} {r : State} {s : State} {n : Nat} (hk : OnlyIn l r s) (h_timLn : Block.timLn ∈ l) :
    OnlyIn l r (State.exchMiss s n) := by
  unfold State.exchMiss
  repeat' first
    | intro _
    | (with_reducible first | assumption | exact OnlyIn.refl _ _ | apply State.setEx_onlyIn | apply State.bump_onlyIn)
    | extract_lets
    | (with_reducible first | apply OnlyIn.other)
    | exact h_timLn

theorem State.todDisc_onlyIn {l : List Block} {r : State} {s : State} (hk : OnlyIn l r s) (h_timLn : Block.timLn ∈ l) :
    OnlyIn l r (State.todDisc s) := by
  unfold State.todDisc
  repeat' first
    | intro _
    | (with_reducible first | assumption | exact OnlyIn.refl _ _ | apply State.setEx_onlyIn | apply State.exchClear_onlyIn | apply State.wr_onlyIn | apply OnlyIn.puts_cons | apply OnlyIn.puts_nil | apply OnlyIn.each)
    | extract_lets | dsimp only
    | (with_reducible first | apply OnlyIn.other)
    | exact h_timLn

theorem State.capStop_onlyIn {l : List Block} {r : State} {s : State} {p : Nat} (hk : OnlyIn l r s) (h_tim : Block.tim ∈ l) :
    OnlyIn l r (State.capStop s p) := by
  unfold State.capStop
  repeat' first
    | intro _
    | (with_reducible first | assumption | exact OnlyIn.refl _ _ | apply State.wr_onlyIn | apply OnlyIn.each | apply OnlyIn.cond)
    | extract_lets | dsimp only | split | exact h_tim

theorem State.driftApply_onlyIn {l : List Block} {r : State} {s : State} {p : Nat} (hk : OnlyIn l r s) (h_tim : Block.tim ∈ l) :
    OnlyIn l r (State.driftApply s p) := by
  unfold State.driftApply
  repeat' first
    | intro _
    | (with_reducible first | assumption | exact OnlyIn.refl _ _ | apply State.wr_onlyIn | apply OnlyIn.cond)
    | extract_lets | split | exact h_tim

theorem State.linMeasured_onlyIn {l : List Block} {r : State} {s : State} {p q : Nat} {a b : BitVec 1024} (hk : OnlyIn l r s) (h_tim : Block.tim ∈ l) :
    OnlyIn l r (State.linMeasured s p q a b) := by
  unfold State.linMeasured
  repeat' first
    | intro _
    | (with_reducible first | assumption | exact OnlyIn.refl _ _ | apply State.wr_onlyIn)
    | extract_lets | exact h_tim

end Sys2Proof.Machine
end

