-- ==== Sys2Proof/Laws/OnlyAccess.lean ====
section
/-!
SUPPORT. Which blocks the operations of Access change.
-/
set_option Elab.async false
set_option linter.all false
namespace Sys2Proof.Machine

theorem State.busErr_onlyIn {l : List Block} {r : State} {s : State} (hk : OnlyIn l r s) (h_glb : Block.glb ∈ l) :
    OnlyIn l r (State.busErr s) := by
  unfold State.busErr
  repeat' first
    | intro _
    | (with_reducible first | assumption | exact OnlyIn.refl _ _ | apply State.raise_onlyIn)
    | extract_lets | exact h_glb

theorem State.rgStopped_onlyIn {l : List Block} {r : State} {s : State} (hk : OnlyIn l r s) (h_clk : Block.clk ∈ l) (h_glb : Block.glb ∈ l) :
    OnlyIn l r (State.rgStopped s) := by
  unfold State.rgStopped
  repeat' first
    | intro _
    | (with_reducible first | assumption | exact OnlyIn.refl _ _ | apply State.busErr_onlyIn | apply State.bump_onlyIn)
    | extract_lets | exact h_clk | exact h_glb

theorem State.access_onlyIn {l : List Block} {r : State} {s : State} {b : Block} {n : Nat} {g : State → State} (hk : OnlyIn l r s) (h_clk : Block.clk ∈ l) (h_glb : Block.glb ∈ l) (hgg : ∀ u, OnlyIn l r u → OnlyIn l r (g u)) :
    OnlyIn l r (State.access s b n g) := by
  unfold State.access
  repeat' first
    | intro _
    | (with_reducible first | apply hgg | assumption | exact OnlyIn.refl _ _ | apply State.rgStopped_onlyIn | apply OnlyIn.cond)
    | extract_lets | split | exact h_clk | exact h_glb

end Sys2Proof.Machine
end

