-- ==== Sys2Proof/Laws/OnlyOperands.lean ====
section
/-!
SUPPORT. Which blocks the operations of Operands change.
-/
set_option Elab.async false
set_option linter.all false
namespace Sys2Proof.Machine

theorem State.fomOf_onlyIn {l : List Block} {r : State} {s : State} {mse : Nat} (hk : OnlyIn l r s) :
    OnlyIn l r (State.fomOf s mse).2 := by
  unfold State.fomOf
  repeat' first
    | intro _
    | (with_reducible first | assumption | exact OnlyIn.refl _ _ | apply State.free_onlyIn | apply OnlyIn.cond_snd | apply OnlyIn.cond)
    | extract_lets | dsimp only | split

end Sys2Proof.Machine
end

