-- ==== Sys2Proof/Laws/OnlyStructure.lean ====
section
/-!
SUPPORT. Which blocks the operations of Structure change.
-/
set_option Elab.async false
set_option linter.all false
namespace Sys2Proof.Machine

theorem State.loadStores_onlyIn {l : List Block} {r : State} {s : State} {engs : List Nat} (hk : OnlyIn l r s) :
    OnlyIn l r (State.loadStores s engs) := by
  unfold State.loadStores
  repeat' first
    | intro _
    | (with_reducible first | assumption | exact OnlyIn.refl _ _ | apply OnlyIn.foldl)
    | extract_lets | dsimp only
    | (with_reducible first | apply OnlyIn.other)

theorem State.clearStores_onlyIn {l : List Block} {r : State} {s : State} {c : Nat} (hk : OnlyIn l r s) :
    OnlyIn l r (State.clearStores s c) := by
  unfold State.clearStores
  repeat' first
    | intro _
    | (with_reducible first | assumption | exact OnlyIn.refl _ _ | apply OnlyIn.foldl)
    | extract_lets | dsimp only
    | (with_reducible first | apply OnlyIn.other)

end Sys2Proof.Machine
end

