-- ==== Sys2Proof/Laws/OnlyLaneOps.lean ====
section
/-!
SUPPORT. Which blocks the operations of LaneOps change.
-/
set_option Elab.async false
set_option linter.all false
namespace Sys2Proof.Machine

theorem State.cmis_onlyIn {l : List Block} {r : State} {s : State} {k : CmisFlag} {n : Nat} (hk : OnlyIn l r s) (h_mgt : Block.mgt ∈ l) :
    OnlyIn l r (State.cmis s k n) := by
  unfold State.cmis
  repeat' first
    | intro _
    | (with_reducible first | assumption | exact OnlyIn.refl _ _ | apply State.wr_onlyIn | apply State.raise_onlyIn | apply OnlyIn.when)
    | extract_lets | dsimp only | exact h_mgt

theorem sourceCmis_onlyIn {l : List Block} {r : State} {src inst : Nat} {s : State} (hk : OnlyIn l r s) (h_mgt : Block.mgt ∈ l) :
    OnlyIn l r (sourceCmis src inst s) := by
  unfold sourceCmis
  repeat' first
    | intro _
    | (with_reducible first | assumption | exact OnlyIn.refl _ _ | apply State.cmis_onlyIn | apply OnlyIn.cond)
    | extract_lets | split | exact h_mgt

theorem State.countEvent_onlyIn {l : List Block} {r : State} {s : State} {src inst : Nat} {k : Nat} (hk : OnlyIn l r s) (h_evf : Block.evf ∈ l) (h_hlt : Block.hlt ∈ l) (h_mgt : Block.mgt ∈ l) :
    OnlyIn l r (State.countEvent s src inst k).1 := by
  unfold State.countEvent
  repeat' first
    | intro _
    | (with_reducible first | assumption | exact OnlyIn.refl _ _ | apply State.bump_onlyIn | apply State.wr_onlyIn | apply State.setMask'_onlyIn | apply State.raise_onlyIn | apply State.emit_onlyIn | apply sourceCmis_onlyIn | apply OnlyIn.cond | apply OnlyIn.cond)
    | extract_lets | split | exact h_evf | exact h_hlt | exact h_mgt

theorem State.clearLasting_onlyIn {l : List Block} {r : State} {s : State} {src inst : Nat} (hk : OnlyIn l r s) (h_hlt : Block.hlt ∈ l) :
    OnlyIn l r (State.clearLasting s src inst) := by
  unfold State.clearLasting
  repeat' first
    | intro _
    | (with_reducible first | assumption | exact OnlyIn.refl _ _ | apply State.setMask'_onlyIn | apply State.wr_onlyIn | apply OnlyIn.cond)
    | extract_lets | split | exact h_hlt

theorem State.clearLastings_onlyIn {l : List Block} {r : State} {s : State} {srcs : List Nat} {inst : Nat} (hk : OnlyIn l r s) (h_hlt : Block.hlt ∈ l) :
    OnlyIn l r (State.clearLastings s srcs inst) := by
  unfold State.clearLastings
  repeat' first
    | intro _
    | (with_reducible first | assumption | exact OnlyIn.refl _ _ | apply State.clearLasting_onlyIn | apply OnlyIn.each)
    | extract_lets | dsimp only | exact h_hlt

theorem State.leqStart_onlyIn {l : List Block} {r : State} {s : State} {n : Nat} (hk : OnlyIn l r s) (h_leq : Block.leq ∈ l) :
    OnlyIn l r (State.leqStart s n) := by
  unfold State.leqStart
  repeat' first
    | intro _
    | (with_reducible first | assumption | exact OnlyIn.refl _ _ | apply State.wr_onlyIn | apply OnlyIn.puts_cons | apply OnlyIn.puts_nil | apply OnlyIn.each | apply OnlyIn.cond)
    | extract_lets | dsimp only | split | exact h_leq

theorem State.leqFollow_onlyIn {l : List Block} {r : State} {s : State} {n : Nat} (hk : OnlyIn l r s) (h_leq : Block.leq ∈ l) :
    OnlyIn l r (State.leqFollow s n) := by
  unfold State.leqFollow
  repeat' first
    | intro _
    | (with_reducible first | assumption | exact OnlyIn.refl _ _ | apply State.wr_onlyIn | apply OnlyIn.puts_cons | apply OnlyIn.puts_nil | apply OnlyIn.cond)
    | extract_lets | split | exact h_leq

theorem State.leqD1Put_onlyIn {l : List Block} {r : State} {s : State} {n : Nat} {d : Int} (hk : OnlyIn l r s) (h_leq : Block.leq ∈ l) :
    OnlyIn l r (State.leqD1Put s n d) := by
  unfold State.leqD1Put
  repeat' first
    | intro _
    | (with_reducible first | assumption | exact OnlyIn.refl _ _ | apply State.wrInt_onlyIn | apply State.wrb_onlyIn)
    | extract_lets | exact h_leq

theorem State.mlsePut_onlyIn {l : List Block} {r : State} {s : State} {n : Nat} (hk : OnlyIn l r s) (h_leq : Block.leq ∈ l) :
    OnlyIn l r (State.mlsePut s n) := by
  unfold State.mlsePut
  repeat' first
    | intro _
    | (with_reducible first | assumption | exact OnlyIn.refl _ _ | apply State.leqD1Put_onlyIn | apply State.wr_onlyIn | apply OnlyIn.puts_cons | apply OnlyIn.puts_nil | apply OnlyIn.when)
    | extract_lets | dsimp only | exact h_leq

theorem State.mlseApply_onlyIn {l : List Block} {r : State} {s : State} {n : Nat} (hk : OnlyIn l r s) (h_leq : Block.leq ∈ l) :
    OnlyIn l r (State.mlseApply s n) := by
  unfold State.mlseApply
  repeat' first
    | intro _
    | (with_reducible first | assumption | exact OnlyIn.refl _ _ | apply State.mlsePut_onlyIn | apply State.raise_onlyIn)
    | extract_lets | exact h_leq

theorem State.applyShadow_onlyIn {l : List Block} {r s : State} {k : List Field} {n i : Nat} (hk : OnlyIn l r s)
    (hb : ∀ f ∈ k, f.desc.block ∈ l) : OnlyIn l r (s.applyShadow k n i) := by
  unfold State.applyShadow State.each
  exact State.setUses_onlyIn hk hb

theorem State.shadow_onlyIn {l : List Block} {r s : State} {k : List Field} {n i : Nat} {b : Block} (hk : OnlyIn l r s)
    (hb : ∀ f ∈ k, f.desc.block = b) (h : b ∈ l) : OnlyIn l r (s.applyShadow k n i) :=
  State.applyShadow_onlyIn hk (fun f hf => by rw [hb f hf]; exact h)

theorem State.leqRestore_onlyIn {l : List Block} {r : State} {s : State} {n : Nat} (hk : OnlyIn l r s) (h_leq : Block.leq ∈ l) :
    OnlyIn l r (State.leqRestore s n) := by
  unfold State.leqRestore
  repeat' first
    | intro _
    | (with_reducible first | assumption | exact OnlyIn.refl _ _ | apply State.wr_onlyIn | apply State.leqD1Put_onlyIn | apply OnlyIn.each | apply OnlyIn.cond)
    | extract_lets | dsimp only | split | exact h_leq

theorem State.thrManual_onlyIn {l : List Block} {r : State} {s : State} {n : Nat} (hk : OnlyIn l r s) (h_leq : Block.leq ∈ l) :
    OnlyIn l r (State.thrManual s n) := by
  unfold State.thrManual
  repeat' first
    | intro _
    | (with_reducible first | assumption | exact OnlyIn.refl _ _ | apply State.wr_onlyIn | apply OnlyIn.puts_cons | apply OnlyIn.puts_nil | apply OnlyIn.when)
    | extract_lets | dsimp only | exact h_leq

theorem State.leqApplyOf_onlyIn {bl : List Block} {r s : State} {n : Nat} {l : List Field} {taps : List Nat}
    (hk : OnlyIn bl r s) (hl : ∀ f ∈ l, f.desc.block = .leq) (h_leq : Block.leq ∈ bl) : OnlyIn bl r (s.leqApplyOf n l taps) := by
  unfold State.leqApplyOf
  extract_lets _ l2
  have h2 : ∀ f ∈ l2, f.desc.block = .leq := by
    intro f hf
    dsimp only [l2] at hf
    split at hf
    · exact hl f hf
    · exact hl f (List.mem_filter.mp hf).1
  clear_value l2
  repeat' first
    | intro _
    | (with_reducible first | assumption | apply State.wrInt_onlyIn | apply State.wr_onlyIn | apply State.leqD1Put_onlyIn | apply State.mlseApply_onlyIn | apply State.wrb_onlyIn | apply State.thrManual_onlyIn | apply OnlyIn.each | apply OnlyIn.when | apply OnlyIn.cond)
    | (refine State.shadow_onlyIn (b := .leq) ?_ h2 (by assumption)) | (refine State.shadow_onlyIn (b := .leq) ?_ (by decide) (by assumption)) | extract_lets | dsimp only | exact h_leq

theorem State.leqCommitApply_onlyIn {l : List Block} {r s : State} {n : Nat} (hk : OnlyIn l r s) (h_leq : Block.leq ∈ l) :
    OnlyIn l r (s.leqCommitApply n) :=
  State.wr_onlyIn (State.leqApplyOf_onlyIn hk (by decide) h_leq) h_leq

theorem State.leqAdaptApply_onlyIn {l : List Block} {r : State} {s : State} {n : Nat} (hk : OnlyIn l r s) (h_leq : Block.leq ∈ l) :
    OnlyIn l r (State.leqAdaptApply s n) := by
  unfold State.leqAdaptApply
  repeat' first
    | intro _
    | (with_reducible first | assumption | exact OnlyIn.refl _ _ | apply State.wrInt_onlyIn | apply State.wr_onlyIn | apply State.leqD1Put_onlyIn | apply State.raise_onlyIn | apply OnlyIn.puts_cons | apply OnlyIn.puts_nil | apply OnlyIn.each | apply OnlyIn.when)
    | extract_lets | dsimp only | exact h_leq

theorem State.leqAdaptDrop_onlyIn {l : List Block} {r : State} {s : State} {n : Nat} (hk : OnlyIn l r s) (h_leq : Block.leq ∈ l) :
    OnlyIn l r (State.leqAdaptDrop s n) := by
  unfold State.leqAdaptDrop
  repeat' first
    | intro _
    | (with_reducible first | assumption | exact OnlyIn.refl _ _ | apply State.wr_onlyIn | apply OnlyIn.puts_cons | apply OnlyIn.puts_nil | apply OnlyIn.each)
    | extract_lets | dsimp only | exact h_leq

theorem State.leqSnapshot_onlyIn {l : List Block} {r : State} {s : State} {n : Nat} (hk : OnlyIn l r s) (h_leq : Block.leq ∈ l) :
    OnlyIn l r (State.leqSnapshot s n) := by
  unfold State.leqSnapshot
  repeat' first
    | intro _
    | (with_reducible first | assumption | exact OnlyIn.refl _ _ | apply State.wr_onlyIn | apply OnlyIn.puts_cons | apply OnlyIn.puts_nil | apply OnlyIn.each)
    | extract_lets | dsimp only | exact h_leq

theorem State.thrTake_onlyIn {l : List Block} {r : State} {s : State} {n : Nat} (hk : OnlyIn l r s) (h_leq : Block.leq ∈ l) :
    OnlyIn l r (State.thrTake s n) := by
  unfold State.thrTake
  repeat' first
    | intro _
    | (with_reducible first | assumption | exact OnlyIn.refl _ _ | apply State.wr_onlyIn | apply OnlyIn.puts_cons | apply OnlyIn.puts_nil | apply OnlyIn.when)
    | extract_lets | dsimp only | exact h_leq

theorem State.leqBoundary_onlyIn {l : List Block} {r : State} {s : State} {n : Nat} (hk : OnlyIn l r s) (h_leq : Block.leq ∈ l) :
    OnlyIn l r (State.leqBoundary s n) := by
  unfold State.leqBoundary
  repeat' first
    | intro _
    | (with_reducible first | assumption | exact OnlyIn.refl _ _ | apply State.leqRestore_onlyIn | apply State.leqAdaptDrop_onlyIn | apply State.leqCommitApply_onlyIn | apply State.leqAdaptApply_onlyIn | apply State.thrTake_onlyIn | apply State.leqSnapshot_onlyIn | apply OnlyIn.when | apply OnlyIn.cond)
    | extract_lets | dsimp only | split | exact h_leq

theorem State.pairFollow_onlyIn {l : List Block} {r : State} {s : State} (hk : OnlyIn l r s) (h_hifGlb : Block.hifGlb ∈ l) :
    OnlyIn l r (State.pairFollow s) := by
  unfold State.pairFollow
  repeat' first
    | intro _
    | (with_reducible first | assumption | exact OnlyIn.refl _ _ | apply State.wrb_onlyIn | apply State.wr_onlyIn | apply OnlyIn.each | apply OnlyIn.when)
    | extract_lets | dsimp only | split | exact h_hifGlb

theorem State.hifSet_onlyIn {l : List Block} {r : State} {s : State} {h st : Nat} (hk : OnlyIn l r s) (h_evf : Block.evf ∈ l) (h_hif : Block.hif ∈ l) (h_hifGlb : Block.hifGlb ∈ l) (h_mgt : Block.mgt ∈ l) :
    OnlyIn l r (State.hifSet s h st) := by
  unfold State.hifSet
  repeat' first
    | intro _
    | (with_reducible first | assumption | exact OnlyIn.refl _ _ | apply State.wr_onlyIn | apply State.raise_onlyIn | apply State.emit_onlyIn | apply State.wrFree_onlyIn | apply State.cmis_onlyIn | apply State.pairFollow_onlyIn | apply OnlyIn.puts_cons | apply OnlyIn.puts_nil | apply OnlyIn.when | apply OnlyIn.cond)
    | extract_lets | dsimp only | split | exact h_evf | exact h_hif | exact h_hifGlb | exact h_mgt

theorem State.hifFault_onlyIn {l : List Block} {r : State} {s : State} {h cause : Nat} (hk : OnlyIn l r s) (h_evf : Block.evf ∈ l) (h_hif : Block.hif ∈ l) (h_hifGlb : Block.hifGlb ∈ l) (h_hlt : Block.hlt ∈ l) (h_mgt : Block.mgt ∈ l) :
    OnlyIn l r (State.hifFault s h cause) := by
  unfold State.hifFault
  repeat' first
    | intro _
    | (with_reducible first | assumption | exact OnlyIn.refl _ _ | apply State.wr_onlyIn | apply State.hifSet_onlyIn | apply State.raise_onlyIn | apply State.wrb_onlyIn | apply State.countEvent_onlyIn | apply OnlyIn.cond | apply OnlyIn.cond_snd)
    | extract_lets | dsimp only | split | exact h_evf | exact h_hif | exact h_hifGlb | exact h_hlt | exact h_mgt

theorem State.hifToCal_onlyIn {l : List Block} {r : State} {s : State} {h : Nat} (hk : OnlyIn l r s) (h_evf : Block.evf ∈ l) (h_hif : Block.hif ∈ l) (h_hifGlb : Block.hifGlb ∈ l) (h_mgt : Block.mgt ∈ l) :
    OnlyIn l r (State.hifToCal s h) := by
  unfold State.hifToCal
  repeat' first
    | intro _
    | (with_reducible first | assumption | exact OnlyIn.refl _ _ | apply State.straitFlush_onlyIn | apply State.hifSet_onlyIn | apply State.wr_onlyIn | apply OnlyIn.puts_cons | apply OnlyIn.puts_nil)
    | extract_lets | dsimp only | split | exact h_evf | exact h_hif | exact h_hifGlb | exact h_mgt

theorem State.hifAskPreset_onlyIn {l : List Block} {r : State} {s : State} {h : Nat} (hk : OnlyIn l r s) (h_hif : Block.hif ∈ l) :
    OnlyIn l r (State.hifAskPreset s h) := by
  unfold State.hifAskPreset
  repeat' first
    | intro _
    | (with_reducible first | assumption | exact OnlyIn.refl _ _ | apply State.wr_onlyIn | apply OnlyIn.puts_cons | apply OnlyIn.puts_nil | apply OnlyIn.cond)
    | extract_lets | split | exact h_hif

theorem State.hifTrainStart_onlyIn {l : List Block} {r : State} {s : State} {h : Nat} (hk : OnlyIn l r s) (h_hif : Block.hif ∈ l) :
    OnlyIn l r (State.hifTrainStart s h) := by
  unfold State.hifTrainStart
  repeat' first
    | intro _
    | (with_reducible first | assumption | exact OnlyIn.refl _ _ | apply State.hifAskPreset_onlyIn | apply State.wr_onlyIn | apply OnlyIn.puts_cons | apply OnlyIn.puts_nil | apply OnlyIn.cond)
    | extract_lets | split | exact h_hif

theorem State.hifAmDone_onlyIn {l : List Block} {r : State} {s : State} {h : Nat} (hk : OnlyIn l r s) (h_evf : Block.evf ∈ l) (h_hif : Block.hif ∈ l) (h_hifGlb : Block.hifGlb ∈ l) (h_mgt : Block.mgt ∈ l) :
    OnlyIn l r (State.hifAmDone s h) := by
  unfold State.hifAmDone
  repeat' first
    | intro _
    | (with_reducible first | assumption | exact OnlyIn.refl _ _ | apply State.hifSet_onlyIn | apply OnlyIn.cond)
    | extract_lets | dsimp only | split | exact h_evf | exact h_hif | exact h_hifGlb | exact h_mgt

theorem State.hifAmStart_onlyIn {l : List Block} {r : State} {s : State} {h : Nat} (hk : OnlyIn l r s) (h_evf : Block.evf ∈ l) (h_hif : Block.hif ∈ l) (h_hifGlb : Block.hifGlb ∈ l) (h_mgt : Block.mgt ∈ l) :
    OnlyIn l r (State.hifAmStart s h) := by
  unfold State.hifAmStart
  repeat' first
    | intro _
    | (with_reducible first | assumption | exact OnlyIn.refl _ _ | apply State.hifAmDone_onlyIn | apply State.wr_onlyIn | apply OnlyIn.puts_cons | apply OnlyIn.puts_nil)
    | extract_lets | split | exact h_evf | exact h_hif | exact h_hifGlb | exact h_mgt

theorem State.hifToTrain_onlyIn {l : List Block} {r : State} {s : State} {h : Nat} (hk : OnlyIn l r s) (h_evf : Block.evf ∈ l) (h_hif : Block.hif ∈ l) (h_hifGlb : Block.hifGlb ∈ l) (h_mgt : Block.mgt ∈ l) :
    OnlyIn l r (State.hifToTrain s h) := by
  unfold State.hifToTrain
  repeat' first
    | intro _
    | (with_reducible first | assumption | exact OnlyIn.refl _ _ | apply State.wr_onlyIn | apply State.hifSet_onlyIn | apply State.hifTrainStart_onlyIn | apply OnlyIn.puts_cons | apply OnlyIn.puts_nil | apply OnlyIn.when)
    | extract_lets | dsimp only | split | exact h_evf | exact h_hif | exact h_hifGlb | exact h_mgt

theorem State.hifToAlign_onlyIn {l : List Block} {r : State} {s : State} {h : Nat} (hk : OnlyIn l r s) (h_evf : Block.evf ∈ l) (h_hif : Block.hif ∈ l) (h_hifGlb : Block.hifGlb ∈ l) (h_mgt : Block.mgt ∈ l) :
    OnlyIn l r (State.hifToAlign s h) := by
  unfold State.hifToAlign
  repeat' first
    | intro _
    | (with_reducible first | assumption | exact OnlyIn.refl _ _ | apply State.hifSet_onlyIn | apply State.hifAmStart_onlyIn | apply State.wr_onlyIn | apply OnlyIn.puts_cons | apply OnlyIn.puts_nil)
    | extract_lets | split | exact h_evf | exact h_hif | exact h_hifGlb | exact h_mgt

theorem State.hifRelock_onlyIn {l : List Block} {r : State} {s : State} {h : Nat} (hk : OnlyIn l r s) (h_evf : Block.evf ∈ l) (h_hif : Block.hif ∈ l) (h_hifGlb : Block.hifGlb ∈ l) (h_mgt : Block.mgt ∈ l) :
    OnlyIn l r (State.hifRelock s h) := by
  unfold State.hifRelock
  repeat' first
    | intro _
    | (with_reducible first | assumption | exact OnlyIn.refl _ _ | apply State.hifToAlign_onlyIn | apply State.wr_onlyIn | apply OnlyIn.puts_cons | apply OnlyIn.puts_nil)
    | extract_lets | split | exact h_evf | exact h_hif | exact h_hifGlb | exact h_mgt

theorem State.hifSetTap_onlyIn {l : List Block} {r : State} {s : State} {h i : Nat} {v : Int} (hk : OnlyIn l r s) (h_hif : Block.hif ∈ l) :
    OnlyIn l r (State.hifSetTap s h i v) := by
  unfold State.hifSetTap
  repeat' first
    | intro _
    | (with_reducible first | assumption | exact OnlyIn.refl _ _ | apply State.wrInt_onlyIn | apply OnlyIn.foldl | apply OnlyIn.cond)
    | extract_lets | dsimp only | split | exact h_hif

theorem State.hifApplyOf_onlyIn {bl : List Block} {r s : State} {h : Nat} {l : List Field} {taps : List Nat}
    (hk : OnlyIn bl r s) (hl : ∀ f ∈ l, f.desc.block = .hif) (h_hif : Block.hif ∈ bl) : OnlyIn bl r (s.hifApplyOf h l taps) := by
  unfold State.hifApplyOf
  repeat' first
    | intro _
    | (with_reducible first | assumption | apply State.hifSetTap_onlyIn | apply State.wrInt_onlyIn | apply State.wr_onlyIn | apply OnlyIn.puts_cons | apply OnlyIn.puts_nil | apply OnlyIn.each | apply OnlyIn.when | apply OnlyIn.cond)
    | (refine State.shadow_onlyIn (b := .hif) ?_ hl (by assumption)) | extract_lets | dsimp only | exact h_hif

theorem State.hifApply_onlyIn {l : List Block} {r s : State} {h : Nat} (hk : OnlyIn l r s) (h_hif : Block.hif ∈ l) :
    OnlyIn l r (s.hifApply h) :=
  State.wr_onlyIn (State.hifApplyOf_onlyIn hk (by decide) h_hif) h_hif

theorem State.hifOff_onlyIn {l : List Block} {r : State} {s : State} {h : Nat} (hk : OnlyIn l r s) (h_evf : Block.evf ∈ l) (h_hif : Block.hif ∈ l) (h_hifGlb : Block.hifGlb ∈ l) (h_mgt : Block.mgt ∈ l) :
    OnlyIn l r (State.hifOff s h) := by
  unfold State.hifOff
  repeat' first
    | intro _
    | (with_reducible first | assumption | exact OnlyIn.refl _ _ | apply State.hifSet_onlyIn | apply State.hifApply_onlyIn | apply State.wr_onlyIn | apply OnlyIn.puts_cons | apply OnlyIn.puts_nil)
    | extract_lets | split | exact h_evf | exact h_hif | exact h_hifGlb | exact h_mgt

theorem State.setEhm_onlyIn {l : List Block} {r : State} {s : State} {g : PortGroup} {v : Nat} (hk : OnlyIn l r s) (h_hifGlb : Block.hifGlb ∈ l) :
    OnlyIn l r (State.setEhm s g v) := by
  unfold State.setEhm
  repeat' first
    | intro _
    | (with_reducible first | assumption | exact OnlyIn.refl _ _ | apply State.wr_onlyIn | apply OnlyIn.each)
    | extract_lets | dsimp only | split | exact h_hifGlb

theorem State.hostsCompat_onlyIn {l : List Block} {r : State} {s : State} {g : PortGroup} (hk : OnlyIn l r s) (h_evf : Block.evf ∈ l) (h_hif : Block.hif ∈ l) (h_hifGlb : Block.hifGlb ∈ l) (h_mgt : Block.mgt ∈ l) :
    OnlyIn l r (State.hostsCompat s g) := by
  unfold State.hostsCompat
  repeat' first
    | intro _
    | (with_reducible first | assumption | exact OnlyIn.refl _ _ | apply State.wr_onlyIn | apply State.hifOff_onlyIn | apply State.hifToTrain_onlyIn | apply State.setEhm_onlyIn | apply State.pairFollow_onlyIn | apply OnlyIn.each | apply OnlyIn.when)
    | extract_lets | dsimp only | split | exact h_evf | exact h_hif | exact h_hifGlb | exact h_mgt

theorem State.hifReturn_onlyIn {l : List Block} {r : State} {s : State} {n h : Nat} (hk : OnlyIn l r s) (h_evf : Block.evf ∈ l) (h_hif : Block.hif ∈ l) (h_hifGlb : Block.hifGlb ∈ l) (h_mgt : Block.mgt ∈ l) :
    OnlyIn l r (State.hifReturn s n h) := by
  unfold State.hifReturn
  repeat' first
    | intro _
    | (with_reducible first | assumption | exact OnlyIn.refl _ _ | apply State.hifToCal_onlyIn | apply OnlyIn.when)
    | extract_lets | dsimp only | split | exact h_evf | exact h_hif | exact h_hifGlb | exact h_mgt

theorem State.hostsNative_onlyIn {l : List Block} {r : State} {s : State} {g : PortGroup} (hk : OnlyIn l r s) (h_evf : Block.evf ∈ l) (h_hif : Block.hif ∈ l) (h_hifGlb : Block.hifGlb ∈ l) (h_mgt : Block.mgt ∈ l) :
    OnlyIn l r (State.hostsNative s g) := by
  unfold State.hostsNative
  repeat' first
    | intro _
    | (with_reducible first | assumption | exact OnlyIn.refl _ _ | apply State.wr_onlyIn | apply State.hifReturn_onlyIn | apply State.pairFollow_onlyIn | apply OnlyIn.each | apply OnlyIn.when)
    | extract_lets | dsimp only | split | exact h_evf | exact h_hif | exact h_hifGlb | exact h_mgt

theorem State.ehmReset_onlyIn {l : List Block} {r : State} {s : State} {g : PortGroup} (hk : OnlyIn l r s) (h_hifGlb : Block.hifGlb ∈ l) :
    OnlyIn l r (State.ehmReset s g) := by
  unfold State.ehmReset
  repeat' first
    | intro _
    | (with_reducible first | assumption | exact OnlyIn.refl _ _ | apply State.wr_onlyIn | apply State.setEhm_onlyIn | apply OnlyIn.each | apply OnlyIn.cond)
    | extract_lets | dsimp only | split | exact h_hifGlb

theorem State.hifStart_onlyIn {l : List Block} {r : State} {s : State} {h : Nat} (hk : OnlyIn l r s) (h_evf : Block.evf ∈ l) (h_hif : Block.hif ∈ l) (h_hifGlb : Block.hifGlb ∈ l) (h_mgt : Block.mgt ∈ l) :
    OnlyIn l r (State.hifStart s h) := by
  unfold State.hifStart
  repeat' first
    | intro _
    | (with_reducible first | assumption | exact OnlyIn.refl _ _ | apply State.ehmReset_onlyIn | apply State.hifToCal_onlyIn | apply OnlyIn.when | apply OnlyIn.cond | apply OptOnlyIn.getD)
    | extract_lets | dsimp only | split | exact h_evf | exact h_hif | exact h_hifGlb | exact h_mgt

theorem State.svcSend_onlyIn {l : List Block} {r : State} {s : State} {n type len body : Nat} {tag : Nat} (hk : OnlyIn l r s) (h_lfr : Block.lfr ∈ l) :
    OnlyIn l r (State.svcSend s n type len body tag) := by
  unfold State.svcSend
  repeat' first
    | intro _
    | (with_reducible first | assumption | exact OnlyIn.refl _ _ | apply State.wr_onlyIn | apply OnlyIn.puts_cons | apply OnlyIn.puts_nil | apply OnlyIn.cond)
    | extract_lets | split
    | (with_reducible first | apply OnlyIn.other)
    | exact h_lfr

theorem State.svcDrop_onlyIn {l : List Block} {r : State} {s : State} {n : Nat} (hk : OnlyIn l r s) (h_lfr : Block.lfr ∈ l) :
    OnlyIn l r (State.svcDrop s n) := by
  unfold State.svcDrop
  repeat' first
    | intro _
    | (with_reducible first | assumption | exact OnlyIn.refl _ _ | apply State.wr_onlyIn)
    | extract_lets | dsimp only
    | (with_reducible first | apply OnlyIn.other)
    | exact h_lfr

theorem State.cdbEnd_onlyIn {l : List Block} {r : State} {s : State} {status : Nat} (hk : OnlyIn l r s) (h_mgt : Block.mgt ∈ l) :
    OnlyIn l r (State.cdbEnd s status) := by
  unfold State.cdbEnd
  repeat' first
    | intro _
    | (with_reducible first | assumption | exact OnlyIn.refl _ _ | apply State.wr_onlyIn | apply OnlyIn.puts_cons | apply OnlyIn.puts_nil)
    | extract_lets | exact h_mgt

theorem State.asymFollow_onlyIn {l : List Block} {r : State} {s : State} {n : Nat} (hk : OnlyIn l r s) (h_lfr : Block.lfr ∈ l) :
    OnlyIn l r (State.asymFollow s n) := by
  unfold State.asymFollow
  repeat' first
    | intro _
    | (with_reducible first | assumption | exact OnlyIn.refl _ _ | apply State.wrb_onlyIn)
    | extract_lets | exact h_lfr

theorem State.profEnd_onlyIn {l : List Block} {r : State} {s : State} {n status side : Nat} (hk : OnlyIn l r s) (h_evf : Block.evf ∈ l) (h_lfr : Block.lfr ∈ l) :
    OnlyIn l r (State.profEnd s n status side) := by
  unfold State.profEnd
  repeat' first
    | intro _
    | (with_reducible first | assumption | exact OnlyIn.refl _ _ | apply State.emit_onlyIn | apply State.raise_onlyIn | apply State.wr_onlyIn | apply OnlyIn.puts_cons | apply OnlyIn.puts_nil | apply OnlyIn.cond)
    | extract_lets | split | exact h_evf | exact h_lfr

theorem State.profAbort_onlyIn {l : List Block} {r : State} {s : State} {n : Nat} (hk : OnlyIn l r s) (h_evf : Block.evf ∈ l) (h_lfr : Block.lfr ∈ l) :
    OnlyIn l r (State.profAbort s n) := by
  unfold State.profAbort
  repeat' first
    | intro _
    | (with_reducible first | assumption | exact OnlyIn.refl _ _ | apply State.wr_onlyIn | apply State.profEnd_onlyIn | apply OnlyIn.puts_cons | apply OnlyIn.puts_nil | apply OnlyIn.when)
    | extract_lets | dsimp only | exact h_evf | exact h_lfr

theorem State.ingressUnlock_onlyIn {l : List Block} {r : State} {s : State} {n : Nat} (hk : OnlyIn l r s) (h_hifGlb : Block.hifGlb ∈ l) :
    OnlyIn l r (State.ingressUnlock s n) := by
  unfold State.ingressUnlock
  repeat' first
    | intro _
    | (with_reducible first | assumption | exact OnlyIn.refl _ _ | apply State.wr_onlyIn)
    | extract_lets | split | exact h_hifGlb

theorem State.lfrLeave_onlyIn {l : List Block} {r : State} {s : State} {n : Nat} (hk : OnlyIn l r s) (h_evf : Block.evf ∈ l) (h_hifGlb : Block.hifGlb ∈ l) (h_lfr : Block.lfr ∈ l) (h_mgt : Block.mgt ∈ l) (h_timLn : Block.timLn ∈ l) :
    OnlyIn l r (State.lfrLeave s n) := by
  unfold State.lfrLeave
  repeat' first
    | intro _
    | (with_reducible first | assumption | exact OnlyIn.refl _ _ | apply State.profAbort_onlyIn | apply State.svcDrop_onlyIn | apply State.exchMiss_onlyIn | apply State.ingressUnlock_onlyIn | apply State.cdbEnd_onlyIn | apply State.wr_onlyIn | apply OnlyIn.puts_cons | apply OnlyIn.puts_nil | apply OnlyIn.when)
    | extract_lets | dsimp only | exact h_evf | exact h_hifGlb | exact h_lfr | exact h_mgt | exact h_timLn

theorem State.compatFormat_onlyIn {l : List Block} {r : State} {s : State} {n : Nat} {compat : Bool} (hk : OnlyIn l r s) (h_lfr : Block.lfr ∈ l) :
    OnlyIn l r (State.compatFormat s n compat) := by
  unfold State.compatFormat
  repeat' first
    | intro _
    | (with_reducible first | assumption | exact OnlyIn.refl _ _ | apply State.wrb_onlyIn | apply State.wr_onlyIn | apply OnlyIn.puts_cons | apply OnlyIn.puts_nil | apply OnlyIn.cond)
    | extract_lets | split | exact h_lfr

theorem State.lfrLatch_onlyIn {l : List Block} {r : State} {s : State} {n : Nat} (hk : OnlyIn l r s) (h_lfr : Block.lfr ∈ l) :
    OnlyIn l r (State.lfrLatch s n) := by
  unfold State.lfrLatch
  repeat' first
    | intro _
    | (with_reducible first | assumption | exact OnlyIn.refl _ _ | apply State.setUse_onlyIn | apply State.wrb_onlyIn | apply State.compatFormat_onlyIn | apply OnlyIn.each_cons | apply OnlyIn.each_nil | apply OnlyIn.each | apply OnlyIn.cond | apply OnlyIn.cond_snd)
    | extract_lets | dsimp only | split | exact h_lfr

theorem State.setGroupMode_onlyIn {l : List Block} {r : State} {s : State} {n mode : Nat} (hk : OnlyIn l r s) (h_evf : Block.evf ∈ l) (h_hif : Block.hif ∈ l) (h_hifGlb : Block.hifGlb ∈ l) (h_lfr : Block.lfr ∈ l) (h_mgt : Block.mgt ∈ l) :
    OnlyIn l r (State.setGroupMode s n mode) := by
  unfold State.setGroupMode
  repeat' first
    | intro _
    | (with_reducible first | assumption | exact OnlyIn.refl _ _ | apply State.compatFormat_onlyIn | apply State.hostsCompat_onlyIn | apply State.hostsNative_onlyIn | apply State.wr_onlyIn | apply OnlyIn.puts_cons | apply OnlyIn.puts_nil | apply OnlyIn.each | apply OnlyIn.cond | apply OnlyIn.cond_snd)
    | extract_lets | dsimp only | split | exact h_evf | exact h_hif | exact h_hifGlb | exact h_lfr | exact h_mgt

theorem State.lrxSet_onlyIn {l : List Block} {r : State} {s : State} {n st : Nat} (hk : OnlyIn l r s) (h_evf : Block.evf ∈ l) (h_hifGlb : Block.hifGlb ∈ l) (h_leq : Block.leq ∈ l) (h_lfr : Block.lfr ∈ l) (h_lrx : Block.lrx ∈ l) (h_mgt : Block.mgt ∈ l) (h_pwrLn : Block.pwrLn ∈ l) (h_timLn : Block.timLn ∈ l) :
    OnlyIn l r (State.lrxSet s n st) := by
  unfold State.lrxSet
  repeat' first
    | intro _
    | (with_reducible first | assumption | exact OnlyIn.refl _ _ | apply State.lfrLeave_onlyIn | apply State.wr_onlyIn | apply State.cmis_onlyIn | apply State.raise_onlyIn | apply State.emit_onlyIn | apply OnlyIn.puts_cons | apply OnlyIn.puts_nil | apply OnlyIn.when | apply OnlyIn.cond)
    | extract_lets | dsimp only | split | exact h_evf | exact h_hifGlb | exact h_leq | exact h_lfr | exact h_lrx | exact h_mgt | exact h_pwrLn | exact h_timLn

theorem State.lrxAbandon_onlyIn {l : List Block} {r : State} {s : State} {n : Nat} (hk : OnlyIn l r s) (h_hltLn : Block.hltLn ∈ l) (h_lrx : Block.lrx ∈ l) :
    OnlyIn l r (State.lrxAbandon s n) := by
  unfold State.lrxAbandon
  repeat' first
    | intro _
    | (with_reducible first | assumption | exact OnlyIn.refl _ _ | apply State.wr_onlyIn | apply OnlyIn.when)
    | extract_lets | dsimp only | exact h_hltLn | exact h_lrx

theorem State.lrxApplyOf_onlyIn {bl : List Block} {r s : State} {n : Nat} {l : List Field}
    (hk : OnlyIn bl r s) (hl : ∀ f ∈ l, f.desc.block = .lrx) (h_hltLn : Block.hltLn ∈ bl) (h_lrx : Block.lrx ∈ bl) :
    OnlyIn bl r (s.lrxApplyOf n l) := by
  unfold State.lrxApplyOf
  repeat' first
    | intro _
    | (with_reducible first | assumption | apply State.lrxAbandon_onlyIn | apply State.wrInt_onlyIn | apply State.wr_onlyIn | apply OnlyIn.puts_cons | apply OnlyIn.puts_nil | apply OnlyIn.each | apply OnlyIn.when | apply OnlyIn.cond)
    | (refine State.shadow_onlyIn (b := .lrx) ?_ hl (by assumption)) | extract_lets | dsimp only | split | exact h_hltLn | exact h_lrx

theorem State.lrxApply_onlyIn {l : List Block} {r s : State} {n : Nat} (hk : OnlyIn l r s) (h_hltLn : Block.hltLn ∈ l)
    (h_lrx : Block.lrx ∈ l) : OnlyIn l r (s.lrxApply n) :=
  State.wr_onlyIn (State.lrxApplyOf_onlyIn hk (by decide) h_hltLn h_lrx) h_lrx

theorem State.trimApply_onlyIn {l : List Block} {r : State} {s : State} {n : Nat} (hk : OnlyIn l r s) (h_lrx : Block.lrx ∈ l) :
    OnlyIn l r (State.trimApply s n) := by
  unfold State.trimApply
  repeat' first
    | intro _
    | (with_reducible first | assumption | exact OnlyIn.refl _ _ | apply State.wr_onlyIn | apply State.wrInt_onlyIn | apply OnlyIn.cond)
    | extract_lets | split | exact h_lrx

theorem State.adcStart_onlyIn {l : List Block} {r : State} {s : State} {n : Nat} {esc : Bool} (hk : OnlyIn l r s) (h_hlt : Block.hlt ∈ l) (h_hltLn : Block.hltLn ∈ l) (h_lrx : Block.lrx ∈ l) :
    OnlyIn l r (State.adcStart s n esc) := by
  unfold State.adcStart
  repeat' first
    | intro _
    | (with_reducible first | assumption | exact OnlyIn.refl _ _ | apply State.bump_onlyIn | apply State.raise_onlyIn | apply State.wr_onlyIn | apply OnlyIn.puts_cons | apply OnlyIn.puts_nil | apply OnlyIn.when)
    | extract_lets | dsimp only | exact h_hlt | exact h_hltLn | exact h_lrx

theorem State.adcAdmit_onlyIn {l : List Block} {r s : State} {k : Nat} (hk : OnlyIn l r s)
    (h_hlt : Block.hlt ∈ l) (h_hltLn : Block.hltLn ∈ l) (h_lrx : Block.lrx ∈ l) : OnlyIn l r (s.adcAdmit k) := by
  induction k generalizing s with
  | zero => exact hk
  | succ k ih =>
    unfold State.adcAdmit
    dsimp only
    split
    · split
      · exact ih (by apply State.adcStart_onlyIn <;> assumption)
      · exact hk
    · exact hk

theorem State.sliceSwap_onlyIn {l : List Block} {r : State} {s : State} {n : Nat} (hk : OnlyIn l r s) (h_hlt : Block.hlt ∈ l) (h_hltLn : Block.hltLn ∈ l) (h_lrx : Block.lrx ∈ l) :
    OnlyIn l r (State.sliceSwap s n) := by
  unfold State.sliceSwap
  repeat' first
    | intro _
    | (with_reducible first | assumption | exact OnlyIn.refl _ _ | apply State.wr_onlyIn | apply State.bump_onlyIn | apply State.adcAdmit_onlyIn | apply OnlyIn.puts_cons | apply OnlyIn.puts_nil)
    | extract_lets | exact h_hlt | exact h_hltLn | exact h_lrx

theorem State.rxBoundary_onlyIn {l : List Block} {r : State} {s : State} {n : Nat} (hk : OnlyIn l r s) (h_hlt : Block.hlt ∈ l) (h_hltLn : Block.hltLn ∈ l) (h_leq : Block.leq ∈ l) (h_lrx : Block.lrx ∈ l) :
    OnlyIn l r (State.rxBoundary s n) := by
  unfold State.rxBoundary
  repeat' first
    | intro _
    | (with_reducible first | assumption | exact OnlyIn.refl _ _ | apply State.leqBoundary_onlyIn | apply State.lrxApply_onlyIn | apply State.trimApply_onlyIn | apply State.sliceSwap_onlyIn | apply State.wr_onlyIn | apply OnlyIn.puts_cons | apply OnlyIn.puts_nil | apply OnlyIn.when | apply OnlyIn.cond)
    | extract_lets | dsimp only | split | exact h_hlt | exact h_hltLn | exact h_leq | exact h_lrx

theorem State.lrxAcquireAt_onlyIn {l : List Block} {r : State} {s : State} {n ph : Nat} (hk : OnlyIn l r s) (h_evf : Block.evf ∈ l) (h_hifGlb : Block.hifGlb ∈ l) (h_hltLn : Block.hltLn ∈ l) (h_leq : Block.leq ∈ l) (h_lfr : Block.lfr ∈ l) (h_lrx : Block.lrx ∈ l) (h_mgt : Block.mgt ∈ l) (h_pwrLn : Block.pwrLn ∈ l) (h_timLn : Block.timLn ∈ l) :
    OnlyIn l r (State.lrxAcquireAt s n ph) := by
  unfold State.lrxAcquireAt
  repeat' first
    | intro _
    | (with_reducible first | assumption | exact OnlyIn.refl _ _ | apply State.lrxAbandon_onlyIn | apply State.wr_onlyIn | apply State.lrxSet_onlyIn | apply State.leqFollow_onlyIn | apply OnlyIn.puts_cons | apply OnlyIn.puts_nil)
    | extract_lets | exact h_evf | exact h_hifGlb | exact h_hltLn | exact h_leq | exact h_lfr | exact h_lrx | exact h_mgt | exact h_pwrLn | exact h_timLn

theorem State.cdrStart_onlyIn {l : List Block} {r : State} {s : State} {n : Nat} (hk : OnlyIn l r s) (h_lrx : Block.lrx ∈ l) :
    OnlyIn l r (State.cdrStart s n) := by
  unfold State.cdrStart
  repeat' first
    | intro _
    | (with_reducible first | assumption | exact OnlyIn.refl _ _ | apply State.wr_onlyIn | apply OnlyIn.puts_cons | apply OnlyIn.puts_nil)
    | extract_lets | exact h_lrx

theorem State.lrxStartAgc_onlyIn {l : List Block} {r : State} {s : State} {n : Nat} (hk : OnlyIn l r s) (h_evf : Block.evf ∈ l) (h_hifGlb : Block.hifGlb ∈ l) (h_hltLn : Block.hltLn ∈ l) (h_leq : Block.leq ∈ l) (h_lfr : Block.lfr ∈ l) (h_lrx : Block.lrx ∈ l) (h_mgt : Block.mgt ∈ l) (h_pwrLn : Block.pwrLn ∈ l) (h_timLn : Block.timLn ∈ l) :
    OnlyIn l r (State.lrxStartAgc s n) := by
  unfold State.lrxStartAgc
  repeat' first
    | intro _
    | (with_reducible first | assumption | exact OnlyIn.refl _ _ | apply State.lrxAcquireAt_onlyIn | apply State.wr_onlyIn | apply State.cdrStart_onlyIn | apply State.leqStart_onlyIn | apply State.leqFollow_onlyIn | apply OnlyIn.puts_cons | apply OnlyIn.puts_nil | apply OnlyIn.cond)
    | extract_lets | split | exact h_evf | exact h_hifGlb | exact h_hltLn | exact h_leq | exact h_lfr | exact h_lrx | exact h_mgt | exact h_pwrLn | exact h_timLn

theorem State.lrxWaitSd_onlyIn {l : List Block} {r : State} {s : State} {n : Nat} (hk : OnlyIn l r s) (h_evf : Block.evf ∈ l) (h_hifGlb : Block.hifGlb ∈ l) (h_hltLn : Block.hltLn ∈ l) (h_leq : Block.leq ∈ l) (h_lfr : Block.lfr ∈ l) (h_lrx : Block.lrx ∈ l) (h_mgt : Block.mgt ∈ l) (h_pwrLn : Block.pwrLn ∈ l) (h_timLn : Block.timLn ∈ l) :
    OnlyIn l r (State.lrxWaitSd s n) := by
  unfold State.lrxWaitSd
  repeat' first
    | intro _
    | (with_reducible first | assumption | exact OnlyIn.refl _ _ | apply State.leqStart_onlyIn | apply State.wr_onlyIn | apply State.lrxStartAgc_onlyIn | apply State.lrxAcquireAt_onlyIn | apply OnlyIn.cond)
    | extract_lets | split | exact h_evf | exact h_hifGlb | exact h_hltLn | exact h_leq | exact h_lfr | exact h_lrx | exact h_mgt | exact h_pwrLn | exact h_timLn

theorem State.lrxCdrPhase_onlyIn {l : List Block} {r : State} {s : State} {n : Nat} (hk : OnlyIn l r s) (h_evf : Block.evf ∈ l) (h_hifGlb : Block.hifGlb ∈ l) (h_hltLn : Block.hltLn ∈ l) (h_leq : Block.leq ∈ l) (h_lfr : Block.lfr ∈ l) (h_lrx : Block.lrx ∈ l) (h_mgt : Block.mgt ∈ l) (h_pwrLn : Block.pwrLn ∈ l) (h_timLn : Block.timLn ∈ l) :
    OnlyIn l r (State.lrxCdrPhase s n) := by
  unfold State.lrxCdrPhase
  repeat' first
    | intro _
    | (with_reducible first | assumption | exact OnlyIn.refl _ _ | apply State.lrxAcquireAt_onlyIn | apply State.wr_onlyIn | apply State.leqFollow_onlyIn | apply OnlyIn.when)
    | extract_lets | dsimp only | exact h_evf | exact h_hifGlb | exact h_hltLn | exact h_leq | exact h_lfr | exact h_lrx | exact h_mgt | exact h_pwrLn | exact h_timLn

theorem State.lrxFfePhase_onlyIn {l : List Block} {r : State} {s : State} {n : Nat} (hk : OnlyIn l r s) (h_evf : Block.evf ∈ l) (h_hifGlb : Block.hifGlb ∈ l) (h_hltLn : Block.hltLn ∈ l) (h_leq : Block.leq ∈ l) (h_lfr : Block.lfr ∈ l) (h_lrx : Block.lrx ∈ l) (h_mgt : Block.mgt ∈ l) (h_pwrLn : Block.pwrLn ∈ l) (h_timLn : Block.timLn ∈ l) :
    OnlyIn l r (State.lrxFfePhase s n) := by
  unfold State.lrxFfePhase
  repeat' first
    | intro _
    | (with_reducible first | assumption | exact OnlyIn.refl _ _ | apply State.lrxAcquireAt_onlyIn | apply State.mlseApply_onlyIn | apply State.leqD1Put_onlyIn | apply State.leqFollow_onlyIn | apply State.wr_onlyIn | apply OnlyIn.puts_cons | apply OnlyIn.puts_nil | apply OnlyIn.when)
    | extract_lets | dsimp only | exact h_evf | exact h_hifGlb | exact h_hltLn | exact h_leq | exact h_lfr | exact h_lrx | exact h_mgt | exact h_pwrLn | exact h_timLn

theorem State.ratePut_onlyIn {l : List Block} {r : State} {s : State} {n rate : Nat} (hk : OnlyIn l r s) (h_evf : Block.evf ∈ l) (h_hifGlb : Block.hifGlb ∈ l) (h_hltLn : Block.hltLn ∈ l) (h_leq : Block.leq ∈ l) (h_lfr : Block.lfr ∈ l) (h_lrx : Block.lrx ∈ l) (h_mgt : Block.mgt ∈ l) (h_pwrLn : Block.pwrLn ∈ l) (h_timLn : Block.timLn ∈ l) :
    OnlyIn l r (State.ratePut s n rate) := by
  unfold State.ratePut
  repeat' first
    | intro _
    | (with_reducible first | assumption | exact OnlyIn.refl _ _ | apply State.wr_onlyIn | apply State.lrxStartAgc_onlyIn | apply OnlyIn.each | apply OnlyIn.cond)
    | extract_lets | dsimp only | split | exact h_evf | exact h_hifGlb | exact h_hltLn | exact h_leq | exact h_lfr | exact h_lrx | exact h_mgt | exact h_pwrLn | exact h_timLn

theorem State.lrxToCal_onlyIn {l : List Block} {r : State} {s : State} {n : Nat} (hk : OnlyIn l r s) (h_evf : Block.evf ∈ l) (h_hifGlb : Block.hifGlb ∈ l) (h_hlt : Block.hlt ∈ l) (h_hltLn : Block.hltLn ∈ l) (h_leq : Block.leq ∈ l) (h_lfr : Block.lfr ∈ l) (h_lrx : Block.lrx ∈ l) (h_mgt : Block.mgt ∈ l) (h_pwrLn : Block.pwrLn ∈ l) (h_timLn : Block.timLn ∈ l) :
    OnlyIn l r (State.lrxToCal s n) := by
  unfold State.lrxToCal
  repeat' first
    | intro _
    | (with_reducible first | assumption | exact OnlyIn.refl _ _ | apply State.lrxAbandon_onlyIn | apply State.lrxSet_onlyIn | apply State.lfrLatch_onlyIn | apply State.straitFlush_onlyIn | apply State.ratePut_onlyIn | apply State.wr_onlyIn | apply State.leqStart_onlyIn | apply State.leqFollow_onlyIn | apply State.rxBoundary_onlyIn | apply OnlyIn.puts_cons | apply OnlyIn.puts_nil)
    | extract_lets | dsimp only | split | exact h_evf | exact h_hifGlb | exact h_hlt | exact h_hltLn | exact h_leq | exact h_lfr | exact h_lrx | exact h_mgt | exact h_pwrLn | exact h_timLn

theorem State.lrxFault_onlyIn {l : List Block} {r : State} {s : State} {n cause : Nat} (hk : OnlyIn l r s) (h_evf : Block.evf ∈ l) (h_hifGlb : Block.hifGlb ∈ l) (h_hlt : Block.hlt ∈ l) (h_hltLn : Block.hltLn ∈ l) (h_leq : Block.leq ∈ l) (h_lfr : Block.lfr ∈ l) (h_lrx : Block.lrx ∈ l) (h_mgt : Block.mgt ∈ l) (h_pwrLn : Block.pwrLn ∈ l) (h_timLn : Block.timLn ∈ l) :
    OnlyIn l r (State.lrxFault s n cause) := by
  unfold State.lrxFault
  repeat' first
    | intro _
    | (with_reducible first | assumption | exact OnlyIn.refl _ _ | apply State.wr_onlyIn | apply State.lrxAbandon_onlyIn | apply State.lrxSet_onlyIn | apply State.raise_onlyIn | apply State.wrb_onlyIn | apply State.countEvent_onlyIn | apply State.leqFollow_onlyIn | apply State.rxBoundary_onlyIn | apply OnlyIn.cond | apply OnlyIn.cond_snd)
    | extract_lets | dsimp only | split | exact h_evf | exact h_hifGlb | exact h_hlt | exact h_hltLn | exact h_leq | exact h_lfr | exact h_lrx | exact h_mgt | exact h_pwrLn | exact h_timLn

theorem State.rateAlternate_onlyIn {l : List Block} {r : State} {s : State} {n : Nat} (hk : OnlyIn l r s) (h_evf : Block.evf ∈ l) (h_hifGlb : Block.hifGlb ∈ l) (h_hltLn : Block.hltLn ∈ l) (h_leq : Block.leq ∈ l) (h_lfr : Block.lfr ∈ l) (h_lrx : Block.lrx ∈ l) (h_mgt : Block.mgt ∈ l) (h_pwrLn : Block.pwrLn ∈ l) (h_timLn : Block.timLn ∈ l) :
    OnlyIn l r (State.rateAlternate s n) := by
  unfold State.rateAlternate
  repeat' first
    | intro _
    | (with_reducible first | assumption | exact OnlyIn.refl _ _ | apply State.ratePut_onlyIn | apply OnlyIn.cond | apply OnlyIn.cond_snd)
    | extract_lets | dsimp only | split | exact h_evf | exact h_hifGlb | exact h_hltLn | exact h_leq | exact h_lfr | exact h_lrx | exact h_mgt | exact h_pwrLn | exact h_timLn

theorem State.lrxAttemptFail_onlyIn {l : List Block} {r : State} {s : State} {n cause : Nat} (hk : OnlyIn l r s) (h_evf : Block.evf ∈ l) (h_hifGlb : Block.hifGlb ∈ l) (h_hlt : Block.hlt ∈ l) (h_hltLn : Block.hltLn ∈ l) (h_leq : Block.leq ∈ l) (h_lfr : Block.lfr ∈ l) (h_lrx : Block.lrx ∈ l) (h_mgt : Block.mgt ∈ l) (h_pwrLn : Block.pwrLn ∈ l) (h_timLn : Block.timLn ∈ l) :
    OnlyIn l r (State.lrxAttemptFail s n cause) := by
  unfold State.lrxAttemptFail
  repeat' first
    | intro _
    | (with_reducible first | assumption | exact OnlyIn.refl _ _ | apply State.bump_onlyIn | apply State.wr_onlyIn | apply State.rateAlternate_onlyIn | apply State.lrxStartAgc_onlyIn | apply State.lrxFault_onlyIn | apply OnlyIn.cond)
    | extract_lets | split | exact h_evf | exact h_hifGlb | exact h_hlt | exact h_hltLn | exact h_leq | exact h_lfr | exact h_lrx | exact h_mgt | exact h_pwrLn | exact h_timLn

theorem State.optClamp_onlyIn {l : List Block} {r : State} {s : State} {n : Nat} (hk : OnlyIn l r s) (h_optLn : Block.optLn ∈ l) :
    OnlyIn l r (State.optClamp s n) := by
  unfold State.optClamp
  repeat' first
    | intro _
    | (with_reducible first | assumption | exact OnlyIn.refl _ _ | apply State.wr_onlyIn)
    | extract_lets | exact h_optLn

theorem State.ltxSet_onlyIn {l : List Block} {r : State} {s : State} {n st : Nat} (hk : OnlyIn l r s) (h_evf : Block.evf ∈ l) (h_ltx : Block.ltx ∈ l) (h_pwrLn : Block.pwrLn ∈ l) :
    OnlyIn l r (State.ltxSet s n st) := by
  unfold State.ltxSet
  repeat' first
    | intro _
    | (with_reducible first | assumption | exact OnlyIn.refl _ _ | apply State.raise_onlyIn | apply State.emit_onlyIn | apply State.wr_onlyIn | apply OnlyIn.puts_cons | apply OnlyIn.puts_nil | apply OnlyIn.cond)
    | extract_lets | split | exact h_evf | exact h_ltx | exact h_pwrLn

theorem State.maskDiscard_onlyIn {l : List Block} {r : State} {s : State} {n : Nat} (hk : OnlyIn l r s) (h_ltx : Block.ltx ∈ l) :
    OnlyIn l r (State.maskDiscard s n) := by
  unfold State.maskDiscard
  repeat' first
    | intro _
    | (with_reducible first | assumption | exact OnlyIn.refl _ _ | apply State.wr_onlyIn | apply OnlyIn.each)
    | extract_lets | dsimp only | exact h_ltx

theorem State.eachShadow_onlyIn {bl : List Block} {r s : State} {n : Nat} {b : Block} {l : List (Field × Nat)} (hk : OnlyIn bl r s)
    (hl : ∀ e ∈ l, e.1.desc.block = b) (h : b ∈ bl) : OnlyIn bl r (s.each l (fun e t => t.applyShadow [e.1] n e.2)) := by
  induction l generalizing s with
  | nil => exact hk
  | cons e l ih =>
    refine ih ?_ (fun g hg => hl g (List.mem_cons_of_mem _ hg))
    refine State.shadow_onlyIn (b := b) hk (fun f hf => ?_) h
    rw [List.mem_singleton.mp hf]
    exact hl e List.mem_cons_self

theorem State.ltxApplyOf_onlyIn {bl : List Block} {r s : State} {n : Nat} {l : List (Field × Nat)}
    (hk : OnlyIn bl r s) (hl : ∀ e ∈ l, e.1.desc.block = .ltx) (h_ltx : Block.ltx ∈ bl) : OnlyIn bl r (s.ltxApplyOf n l) := by
  unfold State.ltxApplyOf
  have ht : OnlyIn bl r (s.each l (fun e t => t.applyShadow [e.1] n e.2)) := State.eachShadow_onlyIn hk hl h_ltx
  repeat' first
    | intro _
    | (with_reducible first | assumption | apply State.maskDiscard_onlyIn | apply State.wr_onlyIn | apply OnlyIn.when)
    | extract_lets | exact h_ltx

theorem ltxShadowed_block : ∀ e ∈ ltxShadowed, e.1.desc.block = .ltx := by
  intro e he
  simp only [ltxShadowed, List.mem_append, List.mem_map, List.mem_flatMap] at he
  rcases he with (((⟨f, hf, rfl⟩ | ⟨i, _, rfl⟩) | ⟨i, _, f, hf, rfl⟩) | ⟨i, _, rfl⟩) | ⟨i, _, rfl⟩
  · simp only [List.mem_cons, List.not_mem_nil, or_false] at hf
    rcases hf with rfl | rfl | rfl | rfl | rfl | rfl | rfl | rfl <;> rfl
  · rfl
  · simp only [List.mem_cons, List.not_mem_nil, or_false] at hf
    rcases hf with rfl | rfl | rfl | rfl <;> rfl
  · rfl
  · rfl

theorem State.patApply_onlyIn {l : List Block} {r : State} {s : State} {n : Nat} (hk : OnlyIn l r s) (h_ltx : Block.ltx ∈ l) :
    OnlyIn l r (State.patApply s n) := by
  unfold State.patApply
  repeat' first
    | intro _
    | (with_reducible first | assumption | exact OnlyIn.refl _ _ | apply State.maskDiscard_onlyIn | apply State.wr_onlyIn | apply State.setUse_onlyIn | apply OnlyIn.when)
    | extract_lets | dsimp only | exact h_ltx

theorem State.ltxApply_onlyIn {l : List Block} {r s : State} {n : Nat} (hk : OnlyIn l r s) (h_ltx : Block.ltx ∈ l) :
    OnlyIn l r (s.ltxApply n) := by
  unfold State.ltxApply
  extract_lets t u
  have ht : OnlyIn l r t := State.wr_onlyIn (State.ltxApplyOf_onlyIn hk ltxShadowed_block h_ltx) h_ltx
  clear_value t
  repeat' first
    | intro _
    | (with_reducible first | assumption | apply State.patApply_onlyIn | apply State.wrb_onlyIn | apply State.wr_onlyIn | apply OnlyIn.cond)
    | (dsimp only [u]) | exact h_ltx

theorem State.setOutCells_onlyIn {bl : List Block} {r : State} {s : State} {n : Nat} {l : List Nat} (hk : OnlyIn bl r s) (h_ltx : Block.ltx ∈ bl) :
    OnlyIn bl r (State.setOutCells s n l) := by
  unfold State.setOutCells
  repeat' first
    | intro _
    | (with_reducible first | assumption | exact OnlyIn.refl _ _ | apply State.wr_onlyIn | apply OnlyIn.each | apply OptOnlyIn.getD)
    | extract_lets | dsimp only | split | exact h_ltx

theorem State.cellRepair_onlyIn {l : List Block} {r : State} {s : State} {n : Nat} (hk : OnlyIn l r s) (h_ltx : Block.ltx ∈ l) :
    OnlyIn l r (State.cellRepair s n) := by
  unfold State.cellRepair
  repeat' first
    | intro _
    | (with_reducible first | assumption | exact OnlyIn.refl _ _ | apply State.wr_onlyIn | apply State.setOutCells_onlyIn | apply OnlyIn.each | apply OnlyIn.cond)
    | extract_lets | dsimp only | split | exact h_ltx

theorem State.mapsOfMarks_onlyIn {l : List Block} {r : State} {s : State} {n : Nat} (hk : OnlyIn l r s) (h_lrx : Block.lrx ∈ l) (h_ltx : Block.ltx ∈ l) :
    OnlyIn l r (State.mapsOfMarks s n) := by
  unfold State.mapsOfMarks
  repeat' first
    | intro _
    | (with_reducible first | assumption | exact OnlyIn.refl _ _ | apply State.wr_onlyIn | apply State.setOutCells_onlyIn | apply State.cellRepair_onlyIn | apply OnlyIn.when)
    | extract_lets | dsimp only | exact h_lrx | exact h_ltx

theorem State.cellSwap_onlyIn {l : List Block} {r : State} {s : State} {n : Nat} (hk : OnlyIn l r s) (h_hltLn : Block.hltLn ∈ l) (h_ltx : Block.ltx ∈ l) :
    OnlyIn l r (State.cellSwap s n) := by
  unfold State.cellSwap
  repeat' first
    | intro _
    | (with_reducible first | assumption | exact OnlyIn.refl _ _ | apply State.wr_onlyIn | apply State.setOutCells_onlyIn | apply State.bump_onlyIn | apply OnlyIn.puts_cons | apply OnlyIn.puts_nil | apply OnlyIn.cond)
    | extract_lets | dsimp only | split | exact h_hltLn | exact h_ltx

theorem State.txBoundary_onlyIn {l : List Block} {r : State} {s : State} {n : Nat} (hk : OnlyIn l r s) (h_hltLn : Block.hltLn ∈ l) (h_ltx : Block.ltx ∈ l) :
    OnlyIn l r (State.txBoundary s n) := by
  unfold State.txBoundary
  repeat' first
    | intro _
    | (with_reducible first | assumption | exact OnlyIn.refl _ _ | apply State.ltxApply_onlyIn | apply State.cellRepair_onlyIn | apply State.wr_onlyIn | apply State.cellSwap_onlyIn | apply OnlyIn.when | apply OnlyIn.cond)
    | extract_lets | dsimp only | split | exact h_hltLn | exact h_ltx

theorem State.ltxAbandon_onlyIn {l : List Block} {r : State} {s : State} {n : Nat} (hk : OnlyIn l r s) (h_hltLn : Block.hltLn ∈ l) (h_ltx : Block.ltx ∈ l) :
    OnlyIn l r (State.ltxAbandon s n) := by
  unfold State.ltxAbandon
  repeat' first
    | intro _
    | (with_reducible first | assumption | exact OnlyIn.refl _ _ | apply State.wr_onlyIn | apply OnlyIn.when)
    | extract_lets | dsimp only | exact h_hltLn | exact h_ltx

theorem State.ltxOff_onlyIn {l : List Block} {r : State} {s : State} {n : Nat} (hk : OnlyIn l r s) (h_evf : Block.evf ∈ l) (h_hltLn : Block.hltLn ∈ l) (h_ltx : Block.ltx ∈ l) (h_pwrLn : Block.pwrLn ∈ l) :
    OnlyIn l r (State.ltxOff s n) := by
  unfold State.ltxOff
  repeat' first
    | intro _
    | (with_reducible first | assumption | exact OnlyIn.refl _ _ | apply State.ltxAbandon_onlyIn | apply State.wr_onlyIn | apply State.ltxSet_onlyIn | apply State.patApply_onlyIn | apply State.txBoundary_onlyIn | apply OnlyIn.puts_cons | apply OnlyIn.puts_nil | apply OnlyIn.when)
    | extract_lets | dsimp only | exact h_evf | exact h_hltLn | exact h_ltx | exact h_pwrLn

theorem State.ltxToCal_onlyIn {l : List Block} {r : State} {s : State} {n : Nat} (hk : OnlyIn l r s) (h_evf : Block.evf ∈ l) (h_ltx : Block.ltx ∈ l) (h_pwrLn : Block.pwrLn ∈ l) :
    OnlyIn l r (State.ltxToCal s n) := by
  unfold State.ltxToCal
  repeat' first
    | intro _
    | (with_reducible first | assumption | exact OnlyIn.refl _ _ | apply State.wr_onlyIn | apply State.ltxSet_onlyIn | apply OnlyIn.puts_cons | apply OnlyIn.puts_nil | apply OnlyIn.cond)
    | extract_lets | split | exact h_evf | exact h_ltx | exact h_pwrLn

theorem State.ltxRecheck_onlyIn {l : List Block} {r : State} {s : State} {n : Nat} (hk : OnlyIn l r s) (h_evf : Block.evf ∈ l) (h_ltx : Block.ltx ∈ l) (h_pwrLn : Block.pwrLn ∈ l) :
    OnlyIn l r (State.ltxRecheck s n) := by
  unfold State.ltxRecheck
  repeat' first
    | intro _
    | (with_reducible first | assumption | exact OnlyIn.refl _ _ | apply State.ltxToCal_onlyIn | apply State.raise_onlyIn | apply State.wrb_onlyIn | apply State.wr_onlyIn | apply OnlyIn.when | apply OnlyIn.cond)
    | extract_lets | dsimp only | split | exact h_evf | exact h_ltx | exact h_pwrLn

theorem State.ltxFault_onlyIn {l : List Block} {r : State} {s : State} {n cause : Nat} (hk : OnlyIn l r s) (h_evf : Block.evf ∈ l) (h_hlt : Block.hlt ∈ l) (h_hltLn : Block.hltLn ∈ l) (h_ltx : Block.ltx ∈ l) (h_mgt : Block.mgt ∈ l) (h_optLn : Block.optLn ∈ l) (h_pwrLn : Block.pwrLn ∈ l) :
    OnlyIn l r (State.ltxFault s n cause) := by
  unfold State.ltxFault
  repeat' first
    | intro _
    | (with_reducible first | assumption | exact OnlyIn.refl _ _ | apply State.bump_onlyIn | apply State.wr_onlyIn | apply State.wrb_onlyIn | apply State.ltxAbandon_onlyIn | apply State.optClamp_onlyIn | apply State.ltxSet_onlyIn | apply State.raise_onlyIn | apply State.cmis_onlyIn | apply State.countEvent_onlyIn | apply OnlyIn.cond | apply OnlyIn.cond_snd)
    | extract_lets | dsimp only | split | exact h_evf | exact h_hlt | exact h_hltLn | exact h_ltx | exact h_mgt | exact h_optLn | exact h_pwrLn

theorem State.ltxFaultWindow_onlyIn {l : List Block} {r : State} {s : State} {n : Nat} (hk : OnlyIn l r s) (h_evf : Block.evf ∈ l) (h_hlt : Block.hlt ∈ l) (h_hltLn : Block.hltLn ∈ l) (h_ltx : Block.ltx ∈ l) (h_mgt : Block.mgt ∈ l) (h_optLn : Block.optLn ∈ l) (h_pwrLn : Block.pwrLn ∈ l) :
    OnlyIn l r (State.ltxFaultWindow s n) := by
  unfold State.ltxFaultWindow
  repeat' first
    | intro _
    | (with_reducible first | assumption | exact OnlyIn.refl _ _ | apply State.wr_onlyIn | apply State.ltxFault_onlyIn | apply OnlyIn.cond)
    | extract_lets | split | exact h_evf | exact h_hlt | exact h_hltLn | exact h_ltx | exact h_mgt | exact h_optLn | exact h_pwrLn

theorem State.ltxDisableEnd_onlyIn {l : List Block} {r : State} {s : State} {n : Nat} (hk : OnlyIn l r s) (h_evf : Block.evf ∈ l) (h_hltLn : Block.hltLn ∈ l) (h_ltx : Block.ltx ∈ l) (h_pwrLn : Block.pwrLn ∈ l) :
    OnlyIn l r (State.ltxDisableEnd s n) := by
  unfold State.ltxDisableEnd
  repeat' first
    | intro _
    | (with_reducible first | assumption | exact OnlyIn.refl _ _ | apply State.wr_onlyIn | apply State.ltxOff_onlyIn | apply State.ltxRecheck_onlyIn | apply State.ltxSet_onlyIn | apply OnlyIn.cond)
    | extract_lets | split | exact h_evf | exact h_hltLn | exact h_ltx | exact h_pwrLn

theorem State.ltxLaserOff_onlyIn {l : List Block} {r : State} {s : State} {n : Nat} (hk : OnlyIn l r s) (h_ltx : Block.ltx ∈ l) (h_optLn : Block.optLn ∈ l) :
    OnlyIn l r (State.ltxLaserOff s n) := by
  unfold State.ltxLaserOff
  repeat' first
    | intro _
    | (with_reducible first | assumption | exact OnlyIn.refl _ _ | apply State.wr_onlyIn)
    | extract_lets | exact h_ltx | exact h_optLn

theorem State.ltxDisable_onlyIn {l : List Block} {r : State} {s : State} {n : Nat} (hk : OnlyIn l r s) (h_evf : Block.evf ∈ l) (h_hltLn : Block.hltLn ∈ l) (h_ltx : Block.ltx ∈ l) (h_optLn : Block.optLn ∈ l) (h_pwrLn : Block.pwrLn ∈ l) :
    OnlyIn l r (State.ltxDisable s n) := by
  unfold State.ltxDisable
  repeat' first
    | intro _
    | (with_reducible first | assumption | exact OnlyIn.refl _ _ | apply State.ltxAbandon_onlyIn | apply State.ltxSet_onlyIn | apply State.wr_onlyIn | apply State.ltxDisableEnd_onlyIn | apply State.ltxLaserOff_onlyIn | apply State.ltxOff_onlyIn | apply State.ltxRecheck_onlyIn | apply OnlyIn.cond)
    | extract_lets | split | exact h_evf | exact h_hltLn | exact h_ltx | exact h_optLn | exact h_pwrLn

theorem State.ltxFaultEnd_onlyIn {l : List Block} {r : State} {s : State} {n : Nat} (hk : OnlyIn l r s) (h_evf : Block.evf ∈ l) (h_hltLn : Block.hltLn ∈ l) (h_ltx : Block.ltx ∈ l) (h_pwrLn : Block.pwrLn ∈ l) :
    OnlyIn l r (State.ltxFaultEnd s n) := by
  unfold State.ltxFaultEnd
  repeat' first
    | intro _
    | (with_reducible first | assumption | exact OnlyIn.refl _ _ | apply State.ltxOff_onlyIn | apply State.wr_onlyIn | apply OnlyIn.puts_cons | apply OnlyIn.puts_nil | apply OnlyIn.cond)
    | extract_lets | split | exact h_evf | exact h_hltLn | exact h_ltx | exact h_pwrLn

theorem State.histEnd_onlyIn {l : List Block} {r : State} {s : State} {n : Nat} (hk : OnlyIn l r s) (h_leq : Block.leq ∈ l) :
    OnlyIn l r (State.histEnd s n) := by
  unfold State.histEnd
  repeat' first
    | intro _
    | (with_reducible first | assumption | exact OnlyIn.refl _ _ | apply State.wrFree_onlyIn | apply State.wr_onlyIn | apply OnlyIn.puts_cons | apply OnlyIn.puts_nil | apply OnlyIn.each | apply OnlyIn.cond)
    | extract_lets | dsimp only | split | exact h_leq

theorem State.lrxOff_onlyIn {l : List Block} {r : State} {s : State} {n : Nat} (hk : OnlyIn l r s) (h_evf : Block.evf ∈ l) (h_hif : Block.hif ∈ l) (h_hifGlb : Block.hifGlb ∈ l) (h_hlt : Block.hlt ∈ l) (h_hltLn : Block.hltLn ∈ l) (h_leq : Block.leq ∈ l) (h_lfr : Block.lfr ∈ l) (h_lrx : Block.lrx ∈ l) (h_ltx : Block.ltx ∈ l) (h_mgt : Block.mgt ∈ l) (h_optLn : Block.optLn ∈ l) (h_pwrLn : Block.pwrLn ∈ l) (h_timLn : Block.timLn ∈ l) :
    OnlyIn l r (State.lrxOff s n) := by
  unfold State.lrxOff
  repeat' first
    | intro _
    | (with_reducible first | assumption | exact OnlyIn.refl _ _ | apply State.lrxAbandon_onlyIn | apply State.wr_onlyIn | apply State.lrxSet_onlyIn | apply State.histEnd_onlyIn | apply State.leqStart_onlyIn | apply State.setGroupMode_onlyIn | apply State.leqFollow_onlyIn | apply State.rxBoundary_onlyIn | apply State.ltxDisable_onlyIn | apply OnlyIn.puts_cons | apply OnlyIn.puts_nil | apply OnlyIn.when)
    | extract_lets | dsimp only | exact h_evf | exact h_hif | exact h_hifGlb | exact h_hlt | exact h_hltLn | exact h_leq | exact h_lfr | exact h_lrx | exact h_ltx | exact h_mgt | exact h_optLn | exact h_pwrLn | exact h_timLn

theorem State.envTrip_onlyIn {l : List Block} {r : State} {s : State} {n cause : Nat} (hk : OnlyIn l r s) (h_evf : Block.evf ∈ l) (h_hlt : Block.hlt ∈ l) (h_hltLn : Block.hltLn ∈ l) (h_ltx : Block.ltx ∈ l) (h_mgt : Block.mgt ∈ l) (h_optLn : Block.optLn ∈ l) (h_pwrLn : Block.pwrLn ∈ l) :
    OnlyIn l r (State.envTrip s n cause) := by
  unfold State.envTrip
  repeat' first
    | intro _
    | (with_reducible first | assumption | exact OnlyIn.refl _ _ | apply State.optClamp_onlyIn | apply State.wr_onlyIn | apply State.bump_onlyIn | apply State.raise_onlyIn | apply State.emit_onlyIn | apply State.ltxFault_onlyIn | apply State.ltxRecheck_onlyIn | apply OnlyIn.puts_cons | apply OnlyIn.puts_nil | apply OnlyIn.cond)
    | extract_lets | split | exact h_evf | exact h_hlt | exact h_hltLn | exact h_ltx | exact h_mgt | exact h_optLn | exact h_pwrLn

end Sys2Proof.Machine
end

