-- ==== Sys2Proof/Laws/OnlyFaults.lean ====
section
/-!
SUPPORT. Which blocks the operations of Faults change.
-/
set_option Elab.async false
set_option linter.all false
namespace Sys2Proof.Machine

theorem State.refreshRun_onlyIn {l : List Block} {r : State} {s : State} (hk : OnlyIn l r s) (h_glb : Block.glb ∈ l) :
    OnlyIn l r (State.refreshRun s) := by
  unfold State.refreshRun
  repeat' first
    | intro _
    | (with_reducible first | assumption | exact OnlyIn.refl _ _ | apply State.wr_onlyIn | apply OnlyIn.puts_cons | apply OnlyIn.puts_nil | apply OnlyIn.cond)
    | extract_lets | split | exact h_glb

theorem State.xbarFollow_onlyIn {l : List Block} {r : State} {s : State} (hk : OnlyIn l r s) (h_clk : Block.clk ∈ l) (h_glb : Block.glb ∈ l) :
    OnlyIn l r (State.xbarFollow s) := by
  unfold State.xbarFollow
  repeat' first
    | intro _
    | (with_reducible first | assumption | exact OnlyIn.refl _ _ | apply State.straitFlush_onlyIn | apply State.wr_onlyIn | apply State.refreshRun_onlyIn | apply OnlyIn.when | apply OnlyIn.cond)
    | extract_lets | dsimp only | split | exact h_clk | exact h_glb

theorem State.pllSet_onlyIn {l : List Block} {r : State} {s : State} {p st : Nat} (hk : OnlyIn l r s) (h_clk : Block.clk ∈ l) (h_evf : Block.evf ∈ l) (h_glb : Block.glb ∈ l) (h_pll : Block.pll ∈ l) :
    OnlyIn l r (State.pllSet s p st) := by
  unfold State.pllSet
  repeat' first
    | intro _
    | (with_reducible first | assumption | exact OnlyIn.refl _ _ | apply State.xbarFollow_onlyIn | apply State.wr_onlyIn | apply State.emit_onlyIn | apply OnlyIn.cond)
    | extract_lets | split | exact h_clk | exact h_evf | exact h_glb | exact h_pll

theorem State.pllGate_onlyIn {l : List Block} {r : State} {s : State} {p : Nat} (hk : OnlyIn l r s) (h_arc : Block.arc ∈ l) (h_clk : Block.clk ∈ l) (h_glb : Block.glb ∈ l) (h_pll : Block.pll ∈ l) (h_tim : Block.tim ∈ l) :
    OnlyIn l r (State.pllGate s p) := by
  unfold State.pllGate
  repeat' first
    | intro _
    | (with_reducible first | assumption | exact OnlyIn.refl _ _ | apply State.atcStop_onlyIn | apply State.wr_onlyIn | apply State.capStop_onlyIn | apply State.arcClusterOff_onlyIn | apply State.xbarFollow_onlyIn | apply OnlyIn.each | apply OnlyIn.when)
    | extract_lets | dsimp only | exact h_arc | exact h_clk | exact h_glb | exact h_pll | exact h_tim

theorem State.pllFailed_onlyIn {l : List Block} {r : State} {s : State} {p : Nat} (hk : OnlyIn l r s) (h_arc : Block.arc ∈ l) (h_clk : Block.clk ∈ l) (h_evf : Block.evf ∈ l) (h_glb : Block.glb ∈ l) (h_pll : Block.pll ∈ l) (h_tim : Block.tim ∈ l) :
    OnlyIn l r (State.pllFailed s p) := by
  unfold State.pllFailed
  repeat' first
    | intro _
    | (with_reducible first | assumption | exact OnlyIn.refl _ _ | apply State.pllSet_onlyIn | apply State.pllGate_onlyIn | apply State.wr_onlyIn | apply OnlyIn.puts_cons | apply OnlyIn.puts_nil)
    | extract_lets | exact h_arc | exact h_clk | exact h_evf | exact h_glb | exact h_pll | exact h_tim

theorem State.objectAction_onlyIn {l : List Block} {r : State} {s : State} {src inst : Nat} (hk : OnlyIn l r s) (h_arc : Block.arc ∈ l) (h_clk : Block.clk ∈ l) (h_evf : Block.evf ∈ l) (h_glb : Block.glb ∈ l) (h_hif : Block.hif ∈ l) (h_hifGlb : Block.hifGlb ∈ l) (h_hlt : Block.hlt ∈ l) (h_hltLn : Block.hltLn ∈ l) (h_leq : Block.leq ∈ l) (h_lfr : Block.lfr ∈ l) (h_lrx : Block.lrx ∈ l) (h_ltx : Block.ltx ∈ l) (h_mgt : Block.mgt ∈ l) (h_optLn : Block.optLn ∈ l) (h_pll : Block.pll ∈ l) (h_pwrLn : Block.pwrLn ∈ l) (h_tim : Block.tim ∈ l) (h_timLn : Block.timLn ∈ l) :
    OnlyIn l r (State.objectAction s src inst) := by
  unfold State.objectAction
  repeat' first
    | intro _
    | (with_reducible first | assumption | exact OnlyIn.refl _ _ | apply State.lrxFault_onlyIn | apply State.ltxFaultWindow_onlyIn | apply State.hifFault_onlyIn | apply State.pllFailed_onlyIn | apply State.envTrip_onlyIn)
    | extract_lets | dsimp only | split | exact h_arc | exact h_clk | exact h_evf | exact h_glb | exact h_hif | exact h_hifGlb | exact h_hlt | exact h_hltLn | exact h_leq | exact h_lfr | exact h_lrx | exact h_ltx | exact h_mgt | exact h_optLn | exact h_pll | exact h_pwrLn | exact h_tim | exact h_timLn

theorem State.faultEvent_onlyIn {l : List Block} {r : State} {s : State} {src inst : Nat} {k : Nat} (hk : OnlyIn l r s) (h_arc : Block.arc ∈ l) (h_clk : Block.clk ∈ l) (h_evf : Block.evf ∈ l) (h_glb : Block.glb ∈ l) (h_hif : Block.hif ∈ l) (h_hifGlb : Block.hifGlb ∈ l) (h_hlt : Block.hlt ∈ l) (h_hltLn : Block.hltLn ∈ l) (h_leq : Block.leq ∈ l) (h_lfr : Block.lfr ∈ l) (h_lrx : Block.lrx ∈ l) (h_ltx : Block.ltx ∈ l) (h_mgt : Block.mgt ∈ l) (h_optLn : Block.optLn ∈ l) (h_pll : Block.pll ∈ l) (h_pwrLn : Block.pwrLn ∈ l) (h_tim : Block.tim ∈ l) (h_timLn : Block.timLn ∈ l) :
    OnlyIn l r (State.faultEvent s src inst k) := by
  unfold State.faultEvent
  repeat' first
    | intro _
    | (with_reducible first | assumption | exact OnlyIn.refl _ _ | apply State.countEvent_onlyIn | apply State.objectAction_onlyIn | apply OnlyIn.cond | apply OnlyIn.cond_snd)
    | extract_lets | dsimp only | split | exact h_arc | exact h_clk | exact h_evf | exact h_glb | exact h_hif | exact h_hifGlb | exact h_hlt | exact h_hltLn | exact h_leq | exact h_lfr | exact h_lrx | exact h_ltx | exact h_mgt | exact h_optLn | exact h_pll | exact h_pwrLn | exact h_tim | exact h_timLn

end Sys2Proof.Machine
end

