-- ==== Sys2Proof/Laws/OnlyPowerOps.lean ====
section
/-!
SUPPORT. Which blocks the operations of PowerOps change.
-/
set_option Elab.async false
set_option linter.all false
namespace Sys2Proof.Machine

theorem State.dvfsKick_onlyIn {l : List Block} {r : State} {s : State} (hk : OnlyIn l r s) (h_pwr : Block.pwr ∈ l) :
    OnlyIn l r (State.dvfsKick s) := by
  unfold State.dvfsKick
  repeat' first
    | intro _
    | (with_reducible first | assumption | exact OnlyIn.refl _ _ | apply State.wr_onlyIn | apply OnlyIn.puts_cons | apply OnlyIn.puts_nil | apply OnlyIn.when | apply OnlyIn.cond)
    | extract_lets | dsimp only | split | exact h_pwr

theorem State.dvfsStep_onlyIn {l : List Block} {r : State} {s : State} (hk : OnlyIn l r s) (h_pwr : Block.pwr ∈ l) :
    OnlyIn l r (State.dvfsStep s) := by
  unfold State.dvfsStep
  repeat' first
    | intro _
    | (with_reducible first | assumption | exact OnlyIn.refl _ _ | apply State.wr_onlyIn | apply OnlyIn.cond)
    | extract_lets | dsimp only | split | exact h_pwr

theorem State.wakeRecord_onlyIn {l : List Block} {r : State} {s : State} {src obj frm ticks : Nat} {held : Bool} (hk : OnlyIn l r s) (h_evf : Block.evf ∈ l) (h_pwr : Block.pwr ∈ l) :
    OnlyIn l r (State.wakeRecord s src obj frm ticks held) := by
  unfold State.wakeRecord
  repeat' first
    | intro _
    | (with_reducible first | assumption | exact OnlyIn.refl _ _ | apply State.raise_onlyIn | apply State.emit_onlyIn | apply State.wr_onlyIn | apply OnlyIn.puts_cons | apply OnlyIn.puts_nil)
    | extract_lets | exact h_evf | exact h_pwr

theorem State.wakeLine_onlyIn {l : List Block} {r : State} {s : State} {n : Nat} {egress : Bool} (hk : OnlyIn l r s) (h_lrx : Block.lrx ∈ l) (h_ltx : Block.ltx ∈ l) :
    OnlyIn l r (State.wakeLine s n egress) := by
  unfold State.wakeLine
  repeat' first
    | intro _
    | (with_reducible first | assumption | exact OnlyIn.refl _ _ | apply State.wr_onlyIn | apply OnlyIn.when | apply OnlyIn.cond)
    | extract_lets | dsimp only | split | exact h_lrx | exact h_ltx

theorem State.wakeHost_onlyIn {l : List Block} {r : State} {s : State} {h : Nat} {egress : Bool} (hk : OnlyIn l r s) (h_hif : Block.hif ∈ l) :
    OnlyIn l r (State.wakeHost s h egress) := by
  unfold State.wakeHost
  repeat' first
    | intro _
    | (with_reducible first | assumption | exact OnlyIn.refl _ _ | apply State.wr_onlyIn | apply OnlyIn.when)
    | extract_lets | dsimp only | exact h_hif | (unfold hostSleepField; split <;> assumption) | (unfold hostWakeField; split <;> assumption)

theorem State.wakeBlocks_onlyIn {l : List Block} {r : State} {s : State} {n : Nat} {egress : Bool} (hk : OnlyIn l r s) (h_hif : Block.hif ∈ l) (h_lrx : Block.lrx ∈ l) (h_ltx : Block.ltx ∈ l) (h_pwrLn : Block.pwrLn ∈ l) :
    OnlyIn l r (State.wakeBlocks s n egress) := by
  unfold State.wakeBlocks
  repeat' first
    | intro _
    | (with_reducible first | assumption | exact OnlyIn.refl _ _ | apply State.wr_onlyIn | apply State.wakeLine_onlyIn | apply State.wakeHost_onlyIn | apply OnlyIn.each)
    | extract_lets | dsimp only
    | (with_reducible first | apply OnlyIn.other)
    | exact h_hif | exact h_lrx | exact h_ltx | exact h_pwrLn | (unfold phaseField; split <;> assumption)

theorem State.trimEnd_onlyIn {l : List Block} {r : State} {s : State} {n : Nat} (hk : OnlyIn l r s) (h_pwr : Block.pwr ∈ l) (h_pwrLn : Block.pwrLn ∈ l) :
    OnlyIn l r (State.trimEnd s n) := by
  unfold State.trimEnd
  repeat' first
    | intro _
    | (with_reducible first | assumption | exact OnlyIn.refl _ _ | apply State.wr_onlyIn | apply State.dvfsKick_onlyIn | apply OnlyIn.when)
    | extract_lets | dsimp only | exact h_pwr | exact h_pwrLn

theorem State.wakeRecords_onlyIn {l : List Block} {r : State} {s : State} {src n : Nat} {egress : Bool} {leaves : Nat → Bool} (hk : OnlyIn l r s) (h_evf : Block.evf ∈ l) (h_pwr : Block.pwr ∈ l) :
    OnlyIn l r (State.wakeRecords s src n egress leaves) := by
  unfold State.wakeRecords
  repeat' first
    | intro _
    | (with_reducible first | assumption | exact OnlyIn.refl _ _ | apply State.wakeRecord_onlyIn | apply OnlyIn.each | apply OnlyIn.cond | apply OnlyIn.cond_snd)
    | extract_lets | dsimp only | split | exact h_evf | exact h_pwr

theorem State.wakeDir_onlyIn {l : List Block} {r : State} {s : State} {src n : Nat} {egress : Bool} (hk : OnlyIn l r s) (h_evf : Block.evf ∈ l) (h_hif : Block.hif ∈ l) (h_lrx : Block.lrx ∈ l) (h_ltx : Block.ltx ∈ l) (h_pwr : Block.pwr ∈ l) (h_pwrLn : Block.pwrLn ∈ l) :
    OnlyIn l r (State.wakeDir s src n egress) := by
  unfold State.wakeDir
  repeat' first
    | intro _
    | (with_reducible first | assumption | exact OnlyIn.refl _ _ | apply State.wakeRecords_onlyIn | apply State.wr_onlyIn | apply State.trimEnd_onlyIn | apply State.wakeBlocks_onlyIn | apply OnlyIn.when | apply OnlyIn.cond)
    | extract_lets | dsimp only | split | exact h_evf | exact h_hif | exact h_lrx | exact h_ltx | exact h_pwr | exact h_pwrLn

theorem State.trimLoad_onlyIn {l : List Block} {r : State} {s : State} {n : Nat} (hk : OnlyIn l r s) (h_evf : Block.evf ∈ l) (h_pwr : Block.pwr ∈ l) (h_pwrLn : Block.pwrLn ∈ l) :
    OnlyIn l r (State.trimLoad s n) := by
  unfold State.trimLoad
  repeat' first
    | intro _
    | (with_reducible first | assumption | exact OnlyIn.refl _ _ | apply State.wakeRecord_onlyIn | apply State.trimEnd_onlyIn | apply OnlyIn.cond)
    | extract_lets | split | exact h_evf | exact h_pwr | exact h_pwrLn

theorem State.wakeDone_onlyIn {l : List Block} {r : State} {s : State} {device : Bool} {done : List SleepStep} (hk : OnlyIn l r s) (h_evf : Block.evf ∈ l) (h_hif : Block.hif ∈ l) (h_hifGlb : Block.hifGlb ∈ l) (h_hlt : Block.hlt ∈ l) (h_hltLn : Block.hltLn ∈ l) (h_leq : Block.leq ∈ l) (h_lfr : Block.lfr ∈ l) (h_lrx : Block.lrx ∈ l) (h_ltx : Block.ltx ∈ l) (h_mgt : Block.mgt ∈ l) (h_pwrLn : Block.pwrLn ∈ l) (h_timLn : Block.timLn ∈ l) :
    OnlyIn l r (State.wakeDone s device done) := by
  unfold State.wakeDone
  repeat' first
    | intro _
    | (with_reducible first | assumption | exact OnlyIn.refl _ _ | apply State.lrxToCal_onlyIn | apply State.ltxRecheck_onlyIn | apply State.wakeLine_onlyIn | apply State.hifStart_onlyIn | apply State.wakeHost_onlyIn | apply OnlyIn.each | apply OnlyIn.when | apply OnlyIn.cond)
    | extract_lets | dsimp only | split | exact h_evf | exact h_hif | exact h_hifGlb | exact h_hlt | exact h_hltLn | exact h_leq | exact h_lfr | exact h_lrx | exact h_ltx | exact h_mgt | exact h_pwrLn | exact h_timLn

theorem State.standbyWakeStart_onlyIn {l : List Block} {r : State} {s : State} {src : Nat} (hk : OnlyIn l r s) (h_evf : Block.evf ∈ l) (h_pwr : Block.pwr ∈ l) :
    OnlyIn l r (State.standbyWakeStart s src) := by
  unfold State.standbyWakeStart
  repeat' first
    | intro _
    | (with_reducible first | assumption | exact OnlyIn.refl _ _ | apply State.wakeRecord_onlyIn | apply State.wr_onlyIn | apply OnlyIn.puts_cons | apply OnlyIn.puts_nil)
    | extract_lets | dsimp only
    | (with_reducible first | apply OnlyIn.other)
    | exact h_evf | exact h_pwr

theorem State.standbyRelease_onlyIn {l : List Block} {r : State} {s : State} {src : Nat} (hk : OnlyIn l r s) (h_evf : Block.evf ∈ l) (h_pwr : Block.pwr ∈ l) :
    OnlyIn l r (State.standbyRelease s src) := by
  unfold State.standbyRelease
  repeat' first
    | intro _
    | (with_reducible first | assumption | exact OnlyIn.refl _ _ | apply State.standbyWakeStart_onlyIn | apply State.wr_onlyIn | apply OnlyIn.puts_cons | apply OnlyIn.puts_nil | apply OnlyIn.cond)
    | extract_lets | split | exact h_evf | exact h_pwr

theorem State.wakeHeld_onlyIn {l : List Block} {r : State} {s : State} {src : Nat} (hk : OnlyIn l r s) (h_evf : Block.evf ∈ l) (h_pwr : Block.pwr ∈ l) :
    OnlyIn l r (State.wakeHeld s src) := by
  unfold State.wakeHeld
  repeat' first
    | intro _
    | (with_reducible first | assumption | exact OnlyIn.refl _ _ | apply State.wakeRecord_onlyIn | apply OnlyIn.cond)
    | extract_lets | split | exact h_evf | exact h_pwr

theorem State.deviceAbandon_onlyIn {l : List Block} {r : State} {s : State} {src : Nat} (hk : OnlyIn l r s) (h_evf : Block.evf ∈ l) (h_hif : Block.hif ∈ l) (h_hifGlb : Block.hifGlb ∈ l) (h_hlt : Block.hlt ∈ l) (h_hltLn : Block.hltLn ∈ l) (h_leq : Block.leq ∈ l) (h_lfr : Block.lfr ∈ l) (h_lrx : Block.lrx ∈ l) (h_ltx : Block.ltx ∈ l) (h_mgt : Block.mgt ∈ l) (h_pwr : Block.pwr ∈ l) (h_pwrLn : Block.pwrLn ∈ l) (h_timLn : Block.timLn ∈ l) :
    OnlyIn l r (State.deviceAbandon s src) := by
  unfold State.deviceAbandon
  repeat' first
    | intro _
    | (with_reducible first | assumption | exact OnlyIn.refl _ _ | apply State.wakeRecord_onlyIn | apply State.wakeDone_onlyIn | apply State.wr_onlyIn | apply OnlyIn.puts_cons | apply OnlyIn.puts_nil | apply OnlyIn.when | apply OptOnlyIn.getD)
    | extract_lets | dsimp only
    | (with_reducible first | apply OnlyIn.other)
    | exact h_evf | exact h_hif | exact h_hifGlb | exact h_hlt | exact h_hltLn | exact h_leq | exact h_lfr | exact h_lrx | exact h_ltx | exact h_mgt | exact h_pwr | exact h_pwrLn | exact h_timLn

theorem State.deepWakeStart_onlyIn {l : List Block} {r : State} {s : State} {src : Nat} (hk : OnlyIn l r s) (h_evf : Block.evf ∈ l) (h_pwr : Block.pwr ∈ l) :
    OnlyIn l r (State.deepWakeStart s src) := by
  unfold State.deepWakeStart
  repeat' first
    | intro _
    | (with_reducible first | assumption | exact OnlyIn.refl _ _ | apply State.wakeRecord_onlyIn | apply State.wr_onlyIn | apply OnlyIn.puts_cons | apply OnlyIn.puts_nil)
    | extract_lets | exact h_evf | exact h_pwr

theorem State.wakeDevice_onlyIn {l : List Block} {r : State} {s : State} {src : Nat} (hk : OnlyIn l r s) (h_evf : Block.evf ∈ l) (h_hif : Block.hif ∈ l) (h_hifGlb : Block.hifGlb ∈ l) (h_hlt : Block.hlt ∈ l) (h_hltLn : Block.hltLn ∈ l) (h_leq : Block.leq ∈ l) (h_lfr : Block.lfr ∈ l) (h_lrx : Block.lrx ∈ l) (h_ltx : Block.ltx ∈ l) (h_mgt : Block.mgt ∈ l) (h_pwr : Block.pwr ∈ l) (h_pwrLn : Block.pwrLn ∈ l) (h_timLn : Block.timLn ∈ l) :
    OnlyIn l r (State.wakeDevice s src) := by
  unfold State.wakeDevice
  repeat' first
    | intro _
    | (with_reducible first | assumption | exact OnlyIn.refl _ _ | apply State.wakeHeld_onlyIn | apply State.standbyRelease_onlyIn | apply State.wr_onlyIn | apply State.deepWakeStart_onlyIn | apply State.deviceAbandon_onlyIn | apply OnlyIn.cond)
    | extract_lets | split | exact h_evf | exact h_hif | exact h_hifGlb | exact h_hlt | exact h_hltLn | exact h_leq | exact h_lfr | exact h_lrx | exact h_ltx | exact h_mgt | exact h_pwr | exact h_pwrLn | exact h_timLn

theorem State.lineWake_onlyIn {l : List Block} {r : State} {s : State} {src n : Nat} (hk : OnlyIn l r s) (h_evf : Block.evf ∈ l) (h_hif : Block.hif ∈ l) (h_hifGlb : Block.hifGlb ∈ l) (h_hlt : Block.hlt ∈ l) (h_hltLn : Block.hltLn ∈ l) (h_leq : Block.leq ∈ l) (h_lfr : Block.lfr ∈ l) (h_lrx : Block.lrx ∈ l) (h_ltx : Block.ltx ∈ l) (h_mgt : Block.mgt ∈ l) (h_pwr : Block.pwr ∈ l) (h_pwrLn : Block.pwrLn ∈ l) (h_timLn : Block.timLn ∈ l) :
    OnlyIn l r (State.lineWake s src n) := by
  unfold State.lineWake
  repeat' first
    | intro _
    | (with_reducible first | assumption | exact OnlyIn.refl _ _ | apply State.wakeDevice_onlyIn | apply State.wakeDir_onlyIn | apply OnlyIn.when | apply OnlyIn.cond)
    | extract_lets | dsimp only | split | exact h_evf | exact h_hif | exact h_hifGlb | exact h_hlt | exact h_hltLn | exact h_leq | exact h_lfr | exact h_lrx | exact h_ltx | exact h_mgt | exact h_pwr | exact h_pwrLn | exact h_timLn

theorem State.laneReload_onlyIn {l : List Block} {r : State} {s : State} {n : Nat} (hk : OnlyIn l r s) (h_leq : Block.leq ∈ l) (h_lrx : Block.lrx ∈ l) :
    OnlyIn l r (State.laneReload s n) := by
  unfold State.laneReload
  repeat' first
    | intro _
    | (with_reducible first | assumption | exact OnlyIn.refl _ _ | apply State.wr_onlyIn | apply State.mlsePut_onlyIn | apply State.thrManual_onlyIn | apply State.leqStart_onlyIn | apply OnlyIn.when)
    | extract_lets | dsimp only | exact h_leq | exact h_lrx

theorem inDomain_block {d : Nat} {b : Block} {n : Nat} (h : inDomain d b n = true) :
    b = .hifGlb ∨ b = .arcCl ∨ b = .lrx ∨ b = .leq ∨ b = .ltx ∨ b = .lfr ∨ b = .hif := by
  unfold inDomain at h
  cases b <;> simp at h ⊢

theorem State.setDomain_onlyIn {l : List Block} {r s : State} {d : Nat} {up : Bool} (hk : OnlyIn l r s)
    (h_arc : Block.arc ∈ l) (h_arcCl : Block.arcCl ∈ l) (h_glb : Block.glb ∈ l) (h_hif : Block.hif ∈ l)
    (h_hifGlb : Block.hifGlb ∈ l) (h_leq : Block.leq ∈ l) (h_lfr : Block.lfr ∈ l) (h_lrx : Block.lrx ∈ l)
    (h_ltx : Block.ltx ∈ l) (h_pwr : Block.pwr ∈ l) : OnlyIn l r (s.setDomain d up) := by
  unfold State.setDomain
  apply State.refreshRun_onlyIn _ h_glb
  repeat' first
    | intro _
    | (with_reducible first | assumption | apply State.wrb_onlyIn | apply State.setMask_onlyIn | apply State.wr_onlyIn | apply State.loadStores_onlyIn | apply State.clearStores_onlyIn | apply State.xbarOff_onlyIn | apply State.arcClusterOff_onlyIn | apply State.laneReload_onlyIn | apply OnlyIn.each | apply OnlyIn.when | apply OnlyIn.cond)
    | (with_reducible refine OnlyIn.resetRegs (by assumption) ?_
       intro k e
       rw [Bool.and_eq_true] at e
       rcases inDomain_block e.1 with h | h | h | h | h | h | h <;> rw [h] <;> assumption)
    | exact h_arc | exact h_arcCl | exact h_leq | exact h_lrx | exact h_pwr

theorem State.saveRecord_onlyIn {l : List Block} {r : State} {s : State} {kind : RecordKind} {n : Nat} (hk : OnlyIn l r s) (h_pwr : Block.pwr ∈ l) (h_pwrLn : Block.pwrLn ∈ l) :
    OnlyIn l r (State.saveRecord s kind n) := by
  unfold State.saveRecord
  repeat' first
    | intro _
    | (with_reducible first | assumption | exact OnlyIn.refl _ _ | apply State.wrInt_onlyIn | apply State.wr_onlyIn | apply State.setMask_onlyIn | apply OnlyIn.foldl)
    | extract_lets | dsimp only | split
    | (with_reducible first | apply OnlyIn.other)
    | exact h_pwr | exact h_pwrLn

theorem State.recordBad_onlyIn {l : List Block} {r : State} {s : State} {kind : RecordKind} {n : Nat} (hk : OnlyIn l r s) (h_pwr : Block.pwr ∈ l) (h_pwrLn : Block.pwrLn ∈ l) :
    OnlyIn l r (State.recordBad s kind n) := by
  unfold State.recordBad
  repeat' first
    | intro _
    | (with_reducible first | assumption | exact OnlyIn.refl _ _ | apply State.wr_onlyIn | apply State.raise_onlyIn | apply State.setMask_onlyIn)
    | extract_lets | dsimp only | split | exact h_pwr | exact h_pwrLn

theorem State.abortTests_onlyIn {l : List Block} {r : State} {s : State} (hk : OnlyIn l r s) (h_evf : Block.evf ∈ l) (h_hlt : Block.hlt ∈ l) :
    OnlyIn l r (State.abortTests s) := by
  unfold State.abortTests
  repeat' first
    | intro _
    | (with_reducible first | assumption | exact OnlyIn.refl _ _ | apply State.endTest_onlyIn | apply OnlyIn.each)
    | extract_lets | dsimp only | exact h_evf | exact h_hlt

theorem State.imgFail_onlyIn {l : List Block} {r : State} {s : State} {code : Nat} {lane sec det : Option Nat} (hk : OnlyIn l r s) (h_img : Block.img ∈ l) :
    OnlyIn l r (State.imgFail s code lane sec det) := by
  unfold State.imgFail
  repeat' first
    | intro _
    | (with_reducible first | assumption | exact OnlyIn.refl _ _ | apply State.wr_onlyIn | apply State.wrFree_onlyIn | apply State.free_onlyIn | apply OnlyIn.puts_cons | apply OnlyIn.puts_nil)
    | extract_lets | dsimp only | split | exact h_img

theorem State.imgReport_onlyIn {l : List Block} {r : State} {s : State} {op err : Nat} (hk : OnlyIn l r s) (h_evf : Block.evf ∈ l) (h_img : Block.img ∈ l) :
    OnlyIn l r (State.imgReport s op err) := by
  unfold State.imgReport
  repeat' first
    | intro _
    | (with_reducible first | assumption | exact OnlyIn.refl _ _ | apply State.emit_onlyIn | apply State.raise_onlyIn | apply OnlyIn.cond)
    | extract_lets | split | exact h_evf | exact h_img

theorem State.imgEnd_onlyIn {l : List Block} {r : State} {s : State} {err : Nat} (hk : OnlyIn l r s) (h_evf : Block.evf ∈ l) (h_img : Block.img ∈ l) (h_mgt : Block.mgt ∈ l) :
    OnlyIn l r (State.imgEnd s err) := by
  unfold State.imgEnd
  repeat' first
    | intro _
    | (with_reducible first | assumption | exact OnlyIn.refl _ _ | apply State.imgReport_onlyIn | apply State.cdbEnd_onlyIn | apply State.wr_onlyIn | apply OnlyIn.puts_cons | apply OnlyIn.puts_nil | apply OnlyIn.when | apply OnlyIn.cond)
    | extract_lets | dsimp only | split | exact h_evf | exact h_img | exact h_mgt

theorem State.pcAbort_onlyIn {l : List Block} {r : State} {s : State} (hk : OnlyIn l r s) (h_arcCl : Block.arcCl ∈ l) (h_evf : Block.evf ∈ l) (h_img : Block.img ∈ l) (h_mgt : Block.mgt ∈ l) :
    OnlyIn l r (State.pcAbort s) := by
  unfold State.pcAbort
  repeat' first
    | intro _
    | (with_reducible first | assumption | exact OnlyIn.refl _ _ | apply State.wr_onlyIn | apply State.imgFail_onlyIn | apply State.imgEnd_onlyIn | apply OnlyIn.each | apply OnlyIn.cond)
    | extract_lets | dsimp only | split | exact h_arcCl | exact h_evf | exact h_img | exact h_mgt

theorem State.laneSave_onlyIn {l : List Block} {r : State} {s : State} {n : Nat} {egress : Bool} (hk : OnlyIn l r s) (h_pwr : Block.pwr ∈ l) (h_pwrLn : Block.pwrLn ∈ l) :
    OnlyIn l r (State.laneSave s n egress) := by
  unfold State.laneSave
  repeat' first
    | intro _
    | (with_reducible first | assumption | exact OnlyIn.refl _ _ | apply State.saveRecord_onlyIn | apply OnlyIn.when | apply OnlyIn.cond)
    | extract_lets | dsimp only | split | exact h_pwr | exact h_pwrLn

theorem State.standbyEnter_onlyIn {l : List Block} {r : State} {s : State} (hk : OnlyIn l r s) (h_evf : Block.evf ∈ l) (h_hif : Block.hif ∈ l) (h_hifGlb : Block.hifGlb ∈ l) (h_hlt : Block.hlt ∈ l) (h_hltLn : Block.hltLn ∈ l) (h_leq : Block.leq ∈ l) (h_lfr : Block.lfr ∈ l) (h_lrx : Block.lrx ∈ l) (h_ltx : Block.ltx ∈ l) (h_mgt : Block.mgt ∈ l) (h_optLn : Block.optLn ∈ l) (h_pwr : Block.pwr ∈ l) (h_pwrLn : Block.pwrLn ∈ l) (h_timLn : Block.timLn ∈ l) :
    OnlyIn l r (State.standbyEnter s) := by
  unfold State.standbyEnter
  repeat' first
    | intro _
    | (with_reducible first | assumption | exact OnlyIn.refl _ _ | apply State.abortTests_onlyIn | apply State.laneSave_onlyIn | apply State.lrxOff_onlyIn | apply State.optClamp_onlyIn | apply State.hifOff_onlyIn | apply State.wr_onlyIn | apply OnlyIn.puts_cons | apply OnlyIn.puts_nil | apply OnlyIn.each)
    | extract_lets | dsimp only | split
    | (with_reducible first | apply OnlyIn.other)
    | exact h_evf | exact h_hif | exact h_hifGlb | exact h_hlt | exact h_hltLn | exact h_leq | exact h_lfr | exact h_lrx | exact h_ltx | exact h_mgt | exact h_optLn | exact h_pwr | exact h_pwrLn | exact h_timLn

theorem State.activeCheck_onlyIn {l : List Block} {r : State} {s : State} (hk : OnlyIn l r s) (h_glb : Block.glb ∈ l) (h_pwr : Block.pwr ∈ l) :
    OnlyIn l r (State.activeCheck s) := by
  unfold State.activeCheck
  repeat' first
    | intro _
    | (with_reducible first | assumption | exact OnlyIn.refl _ _ | apply State.wr_onlyIn | apply OnlyIn.puts_cons | apply OnlyIn.puts_nil | apply OnlyIn.cond)
    | extract_lets | dsimp only | split | exact h_glb | exact h_pwr

end Sys2Proof.Machine
end

