-- ==== Sys2Proof/Laws/OnlyLineRx.lean ====
section
/-!
SUPPORT. Which blocks the operations of LineRx change.
-/
set_option Elab.async false
set_option linter.all false
namespace Sys2Proof.Machine

theorem State.lrxEnableOn_onlyIn {l : List Block} {r : State} {s : State} {n : Nat} (hk : OnlyIn l r s) (h_evf : Block.evf ∈ l) (h_hifGlb : Block.hifGlb ∈ l) (h_hlt : Block.hlt ∈ l) (h_hltLn : Block.hltLn ∈ l) (h_leq : Block.leq ∈ l) (h_lfr : Block.lfr ∈ l) (h_lrx : Block.lrx ∈ l) (h_ltx : Block.ltx ∈ l) (h_mgt : Block.mgt ∈ l) (h_pwrLn : Block.pwrLn ∈ l) (h_timLn : Block.timLn ∈ l) :
    OnlyIn l r (State.lrxEnableOn s n) := by
  unfold State.lrxEnableOn
  repeat' first
    | intro _
    | (with_reducible first | assumption | exact OnlyIn.refl _ _ | apply State.wr_onlyIn | apply State.lrxToCal_onlyIn | apply State.ltxRecheck_onlyIn | apply OnlyIn.cond)
    | extract_lets | split | exact h_evf | exact h_hifGlb | exact h_hlt | exact h_hltLn | exact h_leq | exact h_lfr | exact h_lrx | exact h_ltx | exact h_mgt | exact h_pwrLn | exact h_timLn

theorem execLrxEnable_onlyIn {l : List Block} {r : State} {n : Lane} {s : State} (hk : OnlyIn l r s) (h_clk : Block.clk ∈ l) (h_evf : Block.evf ∈ l) (h_glb : Block.glb ∈ l) (h_hifGlb : Block.hifGlb ∈ l) (h_hlt : Block.hlt ∈ l) (h_hltLn : Block.hltLn ∈ l) (h_leq : Block.leq ∈ l) (h_lfr : Block.lfr ∈ l) (h_lrx : Block.lrx ∈ l) (h_ltx : Block.ltx ∈ l) (h_mgt : Block.mgt ∈ l) (h_pwrLn : Block.pwrLn ∈ l) (h_timLn : Block.timLn ∈ l) :
    OutOnlyIn l r (execLrxEnable n s) := by
  unfold execLrxEnable
  repeat' first
    | intro _
    | (with_reducible first | assumption | exact OnlyIn.refl _ _ | apply OutOnlyIn.next | apply State.access_onlyIn | apply State.wr_onlyIn | apply State.laneService_onlyIn | apply State.lrxEnableOn_onlyIn | apply OnlyIn.when)
    | extract_lets | dsimp only | exact h_clk | exact h_evf | exact h_glb | exact h_hifGlb | exact h_hlt | exact h_hltLn | exact h_leq | exact h_lfr | exact h_lrx | exact h_ltx | exact h_mgt | exact h_pwrLn | exact h_timLn

theorem execLrxDisable_onlyIn {l : List Block} {r : State} {n : Lane} {s : State} (hk : OnlyIn l r s) (h_clk : Block.clk ∈ l) (h_evf : Block.evf ∈ l) (h_glb : Block.glb ∈ l) (h_hif : Block.hif ∈ l) (h_hifGlb : Block.hifGlb ∈ l) (h_hlt : Block.hlt ∈ l) (h_hltLn : Block.hltLn ∈ l) (h_leq : Block.leq ∈ l) (h_lfr : Block.lfr ∈ l) (h_lrx : Block.lrx ∈ l) (h_ltx : Block.ltx ∈ l) (h_mgt : Block.mgt ∈ l) (h_optLn : Block.optLn ∈ l) (h_pwr : Block.pwr ∈ l) (h_pwrLn : Block.pwrLn ∈ l) (h_timLn : Block.timLn ∈ l) :
    OutOnlyIn l r (execLrxDisable n s) := by
  unfold execLrxDisable
  repeat' first
    | intro _
    | (with_reducible first | assumption | exact OnlyIn.refl _ _ | apply OutOnlyIn.next | apply State.access_onlyIn | apply State.wr_onlyIn | apply State.lrxOff_onlyIn | apply State.clearLastings_onlyIn | apply State.activeCheck_onlyIn)
    | extract_lets | dsimp only
    | (with_reducible first | apply OnlyIn.other)
    | exact h_clk | exact h_evf | exact h_glb | exact h_hif | exact h_hifGlb | exact h_hlt | exact h_hltLn | exact h_leq | exact h_lfr | exact h_lrx | exact h_ltx | exact h_mgt | exact h_optLn | exact h_pwr | exact h_pwrLn | exact h_timLn

theorem State.lrxRestartNow_onlyIn {l : List Block} {r : State} {s : State} {n : Nat} (hk : OnlyIn l r s) (h_evf : Block.evf ∈ l) (h_hifGlb : Block.hifGlb ∈ l) (h_hlt : Block.hlt ∈ l) (h_hltLn : Block.hltLn ∈ l) (h_leq : Block.leq ∈ l) (h_lfr : Block.lfr ∈ l) (h_lrx : Block.lrx ∈ l) (h_mgt : Block.mgt ∈ l) (h_pwrLn : Block.pwrLn ∈ l) (h_timLn : Block.timLn ∈ l) :
    OnlyIn l r (State.lrxRestartNow s n) := by
  unfold State.lrxRestartNow
  repeat' first
    | intro _
    | (with_reducible first | assumption | exact OnlyIn.refl _ _ | apply State.wr_onlyIn | apply State.clearLastings_onlyIn | apply State.lrxWaitSd_onlyIn | apply State.lrxToCal_onlyIn | apply State.svcSend_onlyIn | apply OnlyIn.puts_cons | apply OnlyIn.puts_nil | apply OnlyIn.when | apply OnlyIn.cond)
    | extract_lets | dsimp only | split | exact h_evf | exact h_hifGlb | exact h_hlt | exact h_hltLn | exact h_leq | exact h_lfr | exact h_lrx | exact h_mgt | exact h_pwrLn | exact h_timLn

theorem execLrxRestart_onlyIn {l : List Block} {r : State} {n : Lane} {s : State} (hk : OnlyIn l r s) (h_clk : Block.clk ∈ l) (h_evf : Block.evf ∈ l) (h_glb : Block.glb ∈ l) (h_hifGlb : Block.hifGlb ∈ l) (h_hlt : Block.hlt ∈ l) (h_hltLn : Block.hltLn ∈ l) (h_leq : Block.leq ∈ l) (h_lfr : Block.lfr ∈ l) (h_lrx : Block.lrx ∈ l) (h_mgt : Block.mgt ∈ l) (h_pwrLn : Block.pwrLn ∈ l) (h_timLn : Block.timLn ∈ l) :
    OutOnlyIn l r (execLrxRestart n s) := by
  unfold execLrxRestart
  repeat' first
    | intro _
    | (with_reducible first | assumption | exact OnlyIn.refl _ _ | apply OutOnlyIn.next | apply State.access_onlyIn | apply State.laneService_onlyIn | apply State.lrxRestartNow_onlyIn)
    | extract_lets | dsimp only | exact h_clk | exact h_evf | exact h_glb | exact h_hifGlb | exact h_hlt | exact h_hltLn | exact h_leq | exact h_lfr | exact h_lrx | exact h_mgt | exact h_pwrLn | exact h_timLn

theorem State.lrxCommitNow_onlyIn {l : List Block} {r : State} {s : State} {n : Nat} (hk : OnlyIn l r s) (h_hltLn : Block.hltLn ∈ l) (h_lrx : Block.lrx ∈ l) :
    OnlyIn l r (State.lrxCommitNow s n) := by
  unfold State.lrxCommitNow
  repeat' first
    | intro _
    | (with_reducible first | assumption | exact OnlyIn.refl _ _ | apply State.wr_onlyIn | apply State.lrxApply_onlyIn | apply OnlyIn.cond)
    | extract_lets | split | exact h_hltLn | exact h_lrx

theorem execLrxCommit_onlyIn {l : List Block} {r : State} {n : Lane} {s : State} (hk : OnlyIn l r s) (h_clk : Block.clk ∈ l) (h_evf : Block.evf ∈ l) (h_glb : Block.glb ∈ l) (h_hlt : Block.hlt ∈ l) (h_hltLn : Block.hltLn ∈ l) (h_lrx : Block.lrx ∈ l) :
    OutOnlyIn l r (execLrxCommit n s) := by
  unfold execLrxCommit
  repeat' first
    | intro _
    | (with_reducible first | assumption | exact OnlyIn.refl _ _ | apply OutOnlyIn.next | apply State.access_onlyIn | apply State.laneService_onlyIn | apply State.lrxCommitNow_onlyIn)
    | extract_lets | dsimp only | exact h_clk | exact h_evf | exact h_glb | exact h_hlt | exact h_hltLn | exact h_lrx

theorem execLrxCntClr_onlyIn {l : List Block} {r : State} {n : Lane} {s : State} (hk : OnlyIn l r s) (h_clk : Block.clk ∈ l) (h_glb : Block.glb ∈ l) (h_lrx : Block.lrx ∈ l) :
    OutOnlyIn l r (execLrxCntClr n s) := by
  unfold execLrxCntClr
  repeat' first
    | intro _
    | (with_reducible first | assumption | exact OnlyIn.refl _ _ | apply OutOnlyIn.next | apply State.access_onlyIn | apply State.wr_onlyIn | apply OnlyIn.clear_cons | apply OnlyIn.clear_nil)
    | extract_lets | dsimp only | exact h_clk | exact h_glb | exact h_lrx

theorem State.setSlice_onlyIn {l : List Block} {r : State} {s : State} {n i : Nat} {offset gain skew : Int} (hk : OnlyIn l r s) (h_lrx : Block.lrx ∈ l) :
    OnlyIn l r (State.setSlice s n i offset gain skew) := by
  unfold State.setSlice
  repeat' first
    | intro _
    | (with_reducible first | assumption | exact OnlyIn.refl _ _ | apply State.wrInt_onlyIn)
    | extract_lets | exact h_lrx

theorem State.sliceFail_onlyIn {l : List Block} {r : State} {s : State} {n i : Nat} (hk : OnlyIn l r s) (h_evf : Block.evf ∈ l) (h_hifGlb : Block.hifGlb ∈ l) (h_hlt : Block.hlt ∈ l) (h_hltLn : Block.hltLn ∈ l) (h_leq : Block.leq ∈ l) (h_lfr : Block.lfr ∈ l) (h_lrx : Block.lrx ∈ l) (h_mgt : Block.mgt ∈ l) (h_pwrLn : Block.pwrLn ∈ l) (h_timLn : Block.timLn ∈ l) :
    OnlyIn l r (State.sliceFail s n i) := by
  unfold State.sliceFail
  repeat' first
    | intro _
    | (with_reducible first | assumption | exact OnlyIn.refl _ _ | apply State.wr_onlyIn | apply State.lrxFault_onlyIn | apply State.lrxAbandon_onlyIn | apply State.raise_onlyIn | apply OnlyIn.puts_cons | apply OnlyIn.puts_nil | apply OnlyIn.cond)
    | extract_lets | dsimp only | split | exact h_evf | exact h_hifGlb | exact h_hlt | exact h_hltLn | exact h_leq | exact h_lfr | exact h_lrx | exact h_mgt | exact h_pwrLn | exact h_timLn

theorem State.ofsPut_onlyIn {l : List Block} {r : State} {s : State} {n : Nat} {code : Int} (hk : OnlyIn l r s) (h_lrx : Block.lrx ∈ l) :
    OnlyIn l r (State.ofsPut s n code) := by
  unfold State.ofsPut
  repeat' first
    | intro _
    | (with_reducible first | assumption | exact OnlyIn.refl _ _ | apply State.wrInt_onlyIn | apply State.raise_onlyIn | apply OnlyIn.when)
    | extract_lets | dsimp only | exact h_lrx

theorem execLrxCalDone_onlyIn {l : List Block} {r : State} {n : Lane} {est : List SliceEst} {ofs : BitVec 8} {linRx linTx : BitVec 1024} {s : State} (hk : OnlyIn l r s) (h_evf : Block.evf ∈ l) (h_glb : Block.glb ∈ l) (h_hifGlb : Block.hifGlb ∈ l) (h_hlt : Block.hlt ∈ l) (h_hltLn : Block.hltLn ∈ l) (h_leq : Block.leq ∈ l) (h_lfr : Block.lfr ∈ l) (h_lrx : Block.lrx ∈ l) (h_mgt : Block.mgt ∈ l) (h_pwr : Block.pwr ∈ l) (h_pwrLn : Block.pwrLn ∈ l) (h_tim : Block.tim ∈ l) (h_timLn : Block.timLn ∈ l) :
    OutOnlyIn l r (execLrxCalDone n est ofs linRx linTx s) := by
  unfold execLrxCalDone
  repeat' first
    | intro _
    | (with_reducible first | assumption | exact OnlyIn.refl _ _ | apply OutOnlyIn.next | apply State.linMeasured_onlyIn | apply State.setSlice_onlyIn | apply State.sliceFail_onlyIn | apply State.bump_onlyIn | apply State.wr_onlyIn | apply State.ofsPut_onlyIn | apply State.lrxWaitSd_onlyIn | apply State.activeCheck_onlyIn | apply OnlyIn.puts_cons | apply OnlyIn.puts_nil | apply OnlyIn.each | apply OnlyIn.when | apply OutOnlyIn.cond | apply OnlyIn.cond)
    | extract_lets | dsimp only | split | exact h_evf | exact h_glb | exact h_hifGlb | exact h_hlt | exact h_hltLn | exact h_leq | exact h_lfr | exact h_lrx | exact h_mgt | exact h_pwr | exact h_pwrLn | exact h_tim | exact h_timLn

theorem execLrxCalTimeout_onlyIn {l : List Block} {r : State} {n : Lane} {s : State} (hk : OnlyIn l r s) (h_evf : Block.evf ∈ l) (h_glb : Block.glb ∈ l) (h_hifGlb : Block.hifGlb ∈ l) (h_hlt : Block.hlt ∈ l) (h_hltLn : Block.hltLn ∈ l) (h_leq : Block.leq ∈ l) (h_lfr : Block.lfr ∈ l) (h_lrx : Block.lrx ∈ l) (h_mgt : Block.mgt ∈ l) (h_pwr : Block.pwr ∈ l) (h_pwrLn : Block.pwrLn ∈ l) (h_timLn : Block.timLn ∈ l) :
    OutOnlyIn l r (execLrxCalTimeout n s) := by
  unfold execLrxCalTimeout
  repeat' first
    | intro _
    | (with_reducible first | assumption | exact OnlyIn.refl _ _ | apply OutOnlyIn.next | apply State.lrxFault_onlyIn | apply State.activeCheck_onlyIn | apply OutOnlyIn.cond | apply OnlyIn.cond)
    | extract_lets | split | exact h_evf | exact h_glb | exact h_hifGlb | exact h_hlt | exact h_hltLn | exact h_leq | exact h_lfr | exact h_lrx | exact h_mgt | exact h_pwr | exact h_pwrLn | exact h_timLn

theorem execAdcShadowDone_onlyIn {l : List Block} {r : State} {n : Lane} {offset gain skew : Int} {s : State} (hk : OnlyIn l r s) (h_evf : Block.evf ∈ l) (h_hifGlb : Block.hifGlb ∈ l) (h_hlt : Block.hlt ∈ l) (h_hltLn : Block.hltLn ∈ l) (h_leq : Block.leq ∈ l) (h_lfr : Block.lfr ∈ l) (h_lrx : Block.lrx ∈ l) (h_mgt : Block.mgt ∈ l) (h_pwrLn : Block.pwrLn ∈ l) (h_timLn : Block.timLn ∈ l) :
    OutOnlyIn l r (execAdcShadowDone n offset gain skew s) := by
  unfold execAdcShadowDone
  repeat' first
    | intro _
    | (with_reducible first | assumption | exact OnlyIn.refl _ _ | apply OutOnlyIn.next | apply State.sliceFail_onlyIn | apply State.wrInt_onlyIn | apply State.wr_onlyIn | apply OnlyIn.puts_cons | apply OnlyIn.puts_nil | apply OutOnlyIn.cond | apply OnlyIn.cond)
    | extract_lets | split | exact h_evf | exact h_hifGlb | exact h_hlt | exact h_hltLn | exact h_leq | exact h_lfr | exact h_lrx | exact h_mgt | exact h_pwrLn | exact h_timLn

theorem execSwapDeferExpiry_onlyIn {l : List Block} {r : State} {n : Lane} {tx : Bool} {s : State} (hk : OnlyIn l r s) (h_lrx : Block.lrx ∈ l) (h_ltx : Block.ltx ∈ l) :
    OutOnlyIn l r (execSwapDeferExpiry n tx s) := by
  unfold execSwapDeferExpiry
  repeat' first
    | intro _
    | (with_reducible first | assumption | exact OnlyIn.refl _ _ | apply OutOnlyIn.next | apply State.wr_onlyIn | apply OnlyIn.puts_cons | apply OnlyIn.puts_nil | apply OutOnlyIn.cond | apply OnlyIn.cond)
    | extract_lets | split | exact h_lrx | exact h_ltx

theorem execAdcOverrange_onlyIn {l : List Block} {r : State} {n : Lane} {s : State} (hk : OnlyIn l r s) (h_arc : Block.arc ∈ l) (h_clk : Block.clk ∈ l) (h_evf : Block.evf ∈ l) (h_glb : Block.glb ∈ l) (h_hif : Block.hif ∈ l) (h_hifGlb : Block.hifGlb ∈ l) (h_hlt : Block.hlt ∈ l) (h_hltLn : Block.hltLn ∈ l) (h_leq : Block.leq ∈ l) (h_lfr : Block.lfr ∈ l) (h_lrx : Block.lrx ∈ l) (h_ltx : Block.ltx ∈ l) (h_mgt : Block.mgt ∈ l) (h_optLn : Block.optLn ∈ l) (h_pll : Block.pll ∈ l) (h_pwrLn : Block.pwrLn ∈ l) (h_tim : Block.tim ∈ l) (h_timLn : Block.timLn ∈ l) :
    OutOnlyIn l r (execAdcOverrange n s) := by
  unfold execAdcOverrange
  repeat' first
    | intro _
    | (with_reducible first | assumption | exact OnlyIn.refl _ _ | apply OutOnlyIn.next | apply State.bump_onlyIn | apply State.faultEvent_onlyIn | apply OutOnlyIn.cond | apply OnlyIn.cond)
    | extract_lets | split | exact h_arc | exact h_clk | exact h_evf | exact h_glb | exact h_hif | exact h_hifGlb | exact h_hlt | exact h_hltLn | exact h_leq | exact h_lfr | exact h_lrx | exact h_ltx | exact h_mgt | exact h_optLn | exact h_pll | exact h_pwrLn | exact h_tim | exact h_timLn

theorem execSdAssert_onlyIn {l : List Block} {r : State} {n : Lane} {s : State} (hk : OnlyIn l r s) (h_evf : Block.evf ∈ l) (h_hif : Block.hif ∈ l) (h_hifGlb : Block.hifGlb ∈ l) (h_hlt : Block.hlt ∈ l) (h_hltLn : Block.hltLn ∈ l) (h_leq : Block.leq ∈ l) (h_lfr : Block.lfr ∈ l) (h_lrx : Block.lrx ∈ l) (h_ltx : Block.ltx ∈ l) (h_mgt : Block.mgt ∈ l) (h_pwr : Block.pwr ∈ l) (h_pwrLn : Block.pwrLn ∈ l) (h_timLn : Block.timLn ∈ l) :
    OutOnlyIn l r (execSdAssert n s) := by
  unfold execSdAssert
  repeat' first
    | intro _
    | (with_reducible first | assumption | exact OnlyIn.refl _ _ | apply OutOnlyIn.next | apply State.wr_onlyIn | apply State.raise_onlyIn | apply State.lineWake_onlyIn | apply State.lrxStartAgc_onlyIn | apply OutOnlyIn.cond | apply OnlyIn.cond)
    | extract_lets | split | exact h_evf | exact h_hif | exact h_hifGlb | exact h_hlt | exact h_hltLn | exact h_leq | exact h_lfr | exact h_lrx | exact h_ltx | exact h_mgt | exact h_pwr | exact h_pwrLn | exact h_timLn

theorem execSdDeassert_onlyIn {l : List Block} {r : State} {n : Lane} {s : State} (hk : OnlyIn l r s) (h_evf : Block.evf ∈ l) (h_hifGlb : Block.hifGlb ∈ l) (h_hltLn : Block.hltLn ∈ l) (h_leq : Block.leq ∈ l) (h_lfr : Block.lfr ∈ l) (h_lrx : Block.lrx ∈ l) (h_mgt : Block.mgt ∈ l) (h_pwrLn : Block.pwrLn ∈ l) (h_timLn : Block.timLn ∈ l) :
    OutOnlyIn l r (execSdDeassert n s) := by
  unfold execSdDeassert
  repeat' first
    | intro _
    | (with_reducible first | assumption | exact OnlyIn.refl _ _ | apply OutOnlyIn.next | apply State.wr_onlyIn | apply State.cmis_onlyIn | apply State.bump_onlyIn | apply State.raise_onlyIn | apply State.lrxWaitSd_onlyIn | apply OutOnlyIn.cond | apply OnlyIn.cond)
    | extract_lets | split | exact h_evf | exact h_hifGlb | exact h_hltLn | exact h_leq | exact h_lfr | exact h_lrx | exact h_mgt | exact h_pwrLn | exact h_timLn

theorem execWakePatternDetect_onlyIn {l : List Block} {r : State} {n : Lane} {s : State} (hk : OnlyIn l r s) (h_evf : Block.evf ∈ l) (h_hif : Block.hif ∈ l) (h_hifGlb : Block.hifGlb ∈ l) (h_hlt : Block.hlt ∈ l) (h_hltLn : Block.hltLn ∈ l) (h_leq : Block.leq ∈ l) (h_lfr : Block.lfr ∈ l) (h_lrx : Block.lrx ∈ l) (h_ltx : Block.ltx ∈ l) (h_mgt : Block.mgt ∈ l) (h_pwr : Block.pwr ∈ l) (h_pwrLn : Block.pwrLn ∈ l) (h_timLn : Block.timLn ∈ l) :
    OutOnlyIn l r (execWakePatternDetect n s) := by
  unfold execWakePatternDetect
  repeat' first
    | intro _
    | (with_reducible first | assumption | exact OnlyIn.refl _ _ | apply OutOnlyIn.next | apply State.raise_onlyIn | apply State.lineWake_onlyIn | apply OutOnlyIn.cond | apply OnlyIn.cond)
    | extract_lets | split | exact h_evf | exact h_hif | exact h_hifGlb | exact h_hlt | exact h_hltLn | exact h_leq | exact h_lfr | exact h_lrx | exact h_ltx | exact h_mgt | exact h_pwr | exact h_pwrLn | exact h_timLn

theorem State.reacquire_onlyIn {l : List Block} {r : State} {s : State} {src n : Nat} {g : State → State} (hk : OnlyIn l r s) (h_evf : Block.evf ∈ l) (h_hifGlb : Block.hifGlb ∈ l) (h_hlt : Block.hlt ∈ l) (h_hltLn : Block.hltLn ∈ l) (h_leq : Block.leq ∈ l) (h_lfr : Block.lfr ∈ l) (h_lrx : Block.lrx ∈ l) (h_mgt : Block.mgt ∈ l) (h_pwrLn : Block.pwrLn ∈ l) (h_timLn : Block.timLn ∈ l) (hgg : ∀ u, OnlyIn l r u → OnlyIn l r (g u)) :
    OnlyIn l r (State.reacquire s src n g) := by
  unfold State.reacquire
  repeat' first
    | intro _
    | (with_reducible first | apply hgg | assumption | exact OnlyIn.refl _ _ | apply State.countEvent_onlyIn | apply State.lrxFault_onlyIn | apply OnlyIn.cond | apply OnlyIn.cond_snd)
    | extract_lets | dsimp only | split | exact h_evf | exact h_hifGlb | exact h_hlt | exact h_hltLn | exact h_leq | exact h_lfr | exact h_lrx | exact h_mgt | exact h_pwrLn | exact h_timLn

theorem State.agcRun_onlyIn {l : List Block} {r : State} {s : State} {n : Nat} {err : Int} (hk : OnlyIn l r s) (h_evf : Block.evf ∈ l) (h_hifGlb : Block.hifGlb ∈ l) (h_hltLn : Block.hltLn ∈ l) (h_leq : Block.leq ∈ l) (h_lfr : Block.lfr ∈ l) (h_lrx : Block.lrx ∈ l) (h_mgt : Block.mgt ∈ l) (h_pwrLn : Block.pwrLn ∈ l) (h_timLn : Block.timLn ∈ l) :
    OnlyIn l r (State.agcRun s n err) := by
  unfold State.agcRun
  repeat' first
    | intro _
    | (with_reducible first | assumption | exact OnlyIn.refl _ _ | apply State.wr_onlyIn | apply State.lrxCdrPhase_onlyIn | apply OnlyIn.puts_cons | apply OnlyIn.puts_nil | apply OnlyIn.cond)
    | extract_lets | split | exact h_evf | exact h_hifGlb | exact h_hltLn | exact h_leq | exact h_lfr | exact h_lrx | exact h_mgt | exact h_pwrLn | exact h_timLn

theorem State.acqCapture_onlyIn {l : List Block} {r : State} {s : State} {n : Nat} (hk : OnlyIn l r s) (h_evf : Block.evf ∈ l) (h_hifGlb : Block.hifGlb ∈ l) (h_hlt : Block.hlt ∈ l) (h_hltLn : Block.hltLn ∈ l) (h_leq : Block.leq ∈ l) (h_lfr : Block.lfr ∈ l) (h_lrx : Block.lrx ∈ l) (h_mgt : Block.mgt ∈ l) (h_pwrLn : Block.pwrLn ∈ l) (h_timLn : Block.timLn ∈ l) :
    OnlyIn l r (State.acqCapture s n) := by
  unfold State.acqCapture
  repeat' first
    | intro _
    | (with_reducible first | assumption | exact OnlyIn.refl _ _ | apply State.bump_onlyIn | apply State.wr_onlyIn | apply State.lrxAttemptFail_onlyIn | apply State.lrxStartAgc_onlyIn | apply OnlyIn.cond)
    | extract_lets | split | exact h_evf | exact h_hifGlb | exact h_hlt | exact h_hltLn | exact h_leq | exact h_lfr | exact h_lrx | exact h_mgt | exact h_pwrLn | exact h_timLn

theorem State.agcService_onlyIn {l : List Block} {r : State} {s : State} {n : Nat} {err : Int} (hk : OnlyIn l r s) (h_evf : Block.evf ∈ l) (h_hifGlb : Block.hifGlb ∈ l) (h_hlt : Block.hlt ∈ l) (h_hltLn : Block.hltLn ∈ l) (h_leq : Block.leq ∈ l) (h_lfr : Block.lfr ∈ l) (h_lrx : Block.lrx ∈ l) (h_mgt : Block.mgt ∈ l) (h_pwrLn : Block.pwrLn ∈ l) (h_timLn : Block.timLn ∈ l) :
    OnlyIn l r (State.agcService s n err) := by
  unfold State.agcService
  repeat' first
    | intro _
    | (with_reducible first | assumption | exact OnlyIn.refl _ _ | apply State.wr_onlyIn | apply State.bump_onlyIn | apply State.raise_onlyIn | apply State.reacquire_onlyIn | apply State.lrxStartAgc_onlyIn | apply OnlyIn.puts_cons | apply OnlyIn.puts_nil | apply OnlyIn.when | apply OnlyIn.cond)
    | extract_lets | dsimp only | split | exact h_evf | exact h_hifGlb | exact h_hlt | exact h_hltLn | exact h_leq | exact h_lfr | exact h_lrx | exact h_mgt | exact h_pwrLn | exact h_timLn

theorem State.ofsLoop_onlyIn {l : List Block} {r : State} {s : State} {n : Nat} {step : Int} (hk : OnlyIn l r s) (h_lrx : Block.lrx ∈ l) :
    OnlyIn l r (State.ofsLoop s n step) := by
  unfold State.ofsLoop
  repeat' first
    | intro _
    | (with_reducible first | assumption | exact OnlyIn.refl _ _ | apply State.ofsPut_onlyIn)
    | extract_lets | exact h_lrx

theorem execAgcWindow_onlyIn {l : List Block} {r : State} {n : Lane} {level : Nat} {ofsStep : Int} {s : State} (hk : OnlyIn l r s) (h_evf : Block.evf ∈ l) (h_hifGlb : Block.hifGlb ∈ l) (h_hlt : Block.hlt ∈ l) (h_hltLn : Block.hltLn ∈ l) (h_leq : Block.leq ∈ l) (h_lfr : Block.lfr ∈ l) (h_lrx : Block.lrx ∈ l) (h_mgt : Block.mgt ∈ l) (h_pwrLn : Block.pwrLn ∈ l) (h_timLn : Block.timLn ∈ l) :
    OutOnlyIn l r (execAgcWindow n level ofsStep s) := by
  unfold execAgcWindow
  repeat' first
    | intro _
    | (with_reducible first | assumption | exact OnlyIn.refl _ _ | apply OutOnlyIn.next | apply State.wr_onlyIn | apply State.ofsLoop_onlyIn | apply State.agcService_onlyIn | apply State.lrxCdrPhase_onlyIn | apply State.agcRun_onlyIn | apply State.acqCapture_onlyIn | apply OutOnlyIn.cond | apply OnlyIn.cond)
    | extract_lets | split | exact h_evf | exact h_hifGlb | exact h_hlt | exact h_hltLn | exact h_leq | exact h_lfr | exact h_lrx | exact h_mgt | exact h_pwrLn | exact h_timLn

theorem execAgcTrimStep_onlyIn {l : List Block} {r : State} {n : Lane} {avgErr : Int} {s : State} (hk : OnlyIn l r s) (h_lrx : Block.lrx ∈ l) :
    OutOnlyIn l r (execAgcTrimStep n avgErr s) := by
  unfold execAgcTrimStep
  repeat' first
    | intro _
    | (with_reducible first | assumption | exact OnlyIn.refl _ _ | apply OutOnlyIn.next | apply State.raise_onlyIn | apply State.wr_onlyIn | apply OutOnlyIn.cond | apply OnlyIn.cond)
    | extract_lets | split | exact h_lrx

theorem State.lrxCdrLoss_onlyIn {l : List Block} {r : State} {s : State} {n : Nat} (hk : OnlyIn l r s) (h_evf : Block.evf ∈ l) (h_hifGlb : Block.hifGlb ∈ l) (h_hlt : Block.hlt ∈ l) (h_hltLn : Block.hltLn ∈ l) (h_leq : Block.leq ∈ l) (h_lfr : Block.lfr ∈ l) (h_lrx : Block.lrx ∈ l) (h_mgt : Block.mgt ∈ l) (h_pwrLn : Block.pwrLn ∈ l) (h_timLn : Block.timLn ∈ l) :
    OnlyIn l r (State.lrxCdrLoss s n) := by
  unfold State.lrxCdrLoss
  repeat' first
    | intro _
    | (with_reducible first | assumption | exact OnlyIn.refl _ _ | apply State.bump_onlyIn | apply State.raise_onlyIn | apply State.reacquire_onlyIn | apply State.cdrStart_onlyIn | apply State.lrxCdrPhase_onlyIn | apply State.lrxAttemptFail_onlyIn | apply State.wr_onlyIn | apply OnlyIn.puts_cons | apply OnlyIn.puts_nil | apply OnlyIn.cond)
    | extract_lets | dsimp only | split | exact h_evf | exact h_hifGlb | exact h_hlt | exact h_hltLn | exact h_leq | exact h_lfr | exact h_lrx | exact h_mgt | exact h_pwrLn | exact h_timLn

theorem State.cdrRun_onlyIn {l : List Block} {r : State} {s : State} {n : Nat} {hold : Bool} {errs : List Int} (hk : OnlyIn l r s) (h_evf : Block.evf ∈ l) (h_hifGlb : Block.hifGlb ∈ l) (h_hltLn : Block.hltLn ∈ l) (h_leq : Block.leq ∈ l) (h_lfr : Block.lfr ∈ l) (h_lrx : Block.lrx ∈ l) (h_mgt : Block.mgt ∈ l) (h_pwrLn : Block.pwrLn ∈ l) (h_timLn : Block.timLn ∈ l) :
    OnlyIn l r (State.cdrRun s n hold errs).1 := by
  unfold State.cdrRun
  repeat' first
    | intro _
    | (with_reducible first | assumption | exact OnlyIn.refl _ _ | apply State.wrInt_onlyIn | apply State.lrxCdrPhase_onlyIn | apply State.wr_onlyIn | apply OnlyIn.puts_cons | apply OnlyIn.puts_nil | apply OnlyIn.cond | apply OnlyIn.cond | apply OnlyIn.cond_snd)
    | extract_lets | dsimp only | split | exact h_evf | exact h_hifGlb | exact h_hltLn | exact h_leq | exact h_lfr | exact h_lrx | exact h_mgt | exact h_pwrLn | exact h_timLn

theorem execCdrLockInterval_onlyIn {l : List Block} {r : State} {n : Lane} {errs : List Int} {s : State} (hk : OnlyIn l r s) (h_evf : Block.evf ∈ l) (h_hifGlb : Block.hifGlb ∈ l) (h_hlt : Block.hlt ∈ l) (h_hltLn : Block.hltLn ∈ l) (h_leq : Block.leq ∈ l) (h_lfr : Block.lfr ∈ l) (h_lrx : Block.lrx ∈ l) (h_mgt : Block.mgt ∈ l) (h_pwrLn : Block.pwrLn ∈ l) (h_timLn : Block.timLn ∈ l) :
    OutOnlyIn l r (execCdrLockInterval n errs s) := by
  unfold execCdrLockInterval
  repeat' first
    | intro _
    | (with_reducible first | assumption | exact OnlyIn.refl _ _ | apply OutOnlyIn.next | apply State.cdrRun_onlyIn | apply State.lrxCdrLoss_onlyIn | apply State.lrxFfePhase_onlyIn | apply State.leqFollow_onlyIn | apply State.wr_onlyIn | apply OnlyIn.puts_cons | apply OnlyIn.puts_nil | apply OutOnlyIn.cond | apply OnlyIn.cond | apply OnlyIn.cond_snd)
    | extract_lets | dsimp only | split | exact h_evf | exact h_hifGlb | exact h_hlt | exact h_hltLn | exact h_leq | exact h_lfr | exact h_lrx | exact h_mgt | exact h_pwrLn | exact h_timLn

theorem execAcqTimeout_onlyIn {l : List Block} {r : State} {n : Lane} {phase : Fin 5} {s : State} (hk : OnlyIn l r s) (h_evf : Block.evf ∈ l) (h_hifGlb : Block.hifGlb ∈ l) (h_hlt : Block.hlt ∈ l) (h_hltLn : Block.hltLn ∈ l) (h_leq : Block.leq ∈ l) (h_lfr : Block.lfr ∈ l) (h_lrx : Block.lrx ∈ l) (h_mgt : Block.mgt ∈ l) (h_pwrLn : Block.pwrLn ∈ l) (h_timLn : Block.timLn ∈ l) :
    OutOnlyIn l r (execAcqTimeout n phase s) := by
  unfold execAcqTimeout
  repeat' first
    | intro _
    | (with_reducible first | assumption | exact OnlyIn.refl _ _ | apply OutOnlyIn.next | apply State.lrxAttemptFail_onlyIn | apply OutOnlyIn.cond | apply OnlyIn.cond)
    | extract_lets | split | exact h_evf | exact h_hifGlb | exact h_hlt | exact h_hltLn | exact h_leq | exact h_lfr | exact h_lrx | exact h_mgt | exact h_pwrLn | exact h_timLn

theorem execTrainTimeout_onlyIn {l : List Block} {r : State} {n : Lane} {s : State} (hk : OnlyIn l r s) (h_evf : Block.evf ∈ l) (h_hifGlb : Block.hifGlb ∈ l) (h_hlt : Block.hlt ∈ l) (h_hltLn : Block.hltLn ∈ l) (h_leq : Block.leq ∈ l) (h_lfr : Block.lfr ∈ l) (h_lrx : Block.lrx ∈ l) (h_mgt : Block.mgt ∈ l) (h_pwrLn : Block.pwrLn ∈ l) (h_timLn : Block.timLn ∈ l) :
    OutOnlyIn l r (execTrainTimeout n s) := by
  unfold execTrainTimeout
  repeat' first
    | intro _
    | (with_reducible first | assumption | exact OnlyIn.refl _ _ | apply OutOnlyIn.next | apply State.lrxFault_onlyIn | apply OutOnlyIn.cond | apply OnlyIn.cond)
    | extract_lets | split | exact h_evf | exact h_hifGlb | exact h_hlt | exact h_hltLn | exact h_leq | exact h_lfr | exact h_lrx | exact h_mgt | exact h_pwrLn | exact h_timLn

theorem execLrxFaultAutoRestart_onlyIn {l : List Block} {r : State} {n : Lane} {s : State} (hk : OnlyIn l r s) (h_evf : Block.evf ∈ l) (h_hifGlb : Block.hifGlb ∈ l) (h_hlt : Block.hlt ∈ l) (h_hltLn : Block.hltLn ∈ l) (h_leq : Block.leq ∈ l) (h_lfr : Block.lfr ∈ l) (h_lrx : Block.lrx ∈ l) (h_mgt : Block.mgt ∈ l) (h_pwrLn : Block.pwrLn ∈ l) (h_timLn : Block.timLn ∈ l) :
    OutOnlyIn l r (execLrxFaultAutoRestart n s) := by
  unfold execLrxFaultAutoRestart
  repeat' first
    | intro _
    | (with_reducible first | assumption | exact OnlyIn.refl _ _ | apply OutOnlyIn.next | apply State.lrxToCal_onlyIn | apply State.lrxWaitSd_onlyIn | apply State.wr_onlyIn | apply OnlyIn.puts_cons | apply OnlyIn.puts_nil | apply OutOnlyIn.cond | apply OnlyIn.cond)
    | extract_lets | split | exact h_evf | exact h_hifGlb | exact h_hlt | exact h_hltLn | exact h_leq | exact h_lfr | exact h_lrx | exact h_mgt | exact h_pwrLn | exact h_timLn

theorem execLockedToService_onlyIn {l : List Block} {r : State} {n : Lane} {s : State} (hk : OnlyIn l r s) (h_evf : Block.evf ∈ l) (h_hifGlb : Block.hifGlb ∈ l) (h_leq : Block.leq ∈ l) (h_lfr : Block.lfr ∈ l) (h_lrx : Block.lrx ∈ l) (h_mgt : Block.mgt ∈ l) (h_pwrLn : Block.pwrLn ∈ l) (h_timLn : Block.timLn ∈ l) :
    OutOnlyIn l r (execLockedToService n s) := by
  unfold execLockedToService
  repeat' first
    | intro _
    | (with_reducible first | assumption | exact OnlyIn.refl _ _ | apply OutOnlyIn.next | apply State.lrxSet_onlyIn | apply OutOnlyIn.cond | apply OnlyIn.cond)
    | extract_lets | dsimp only | split | exact h_evf | exact h_hifGlb | exact h_leq | exact h_lfr | exact h_lrx | exact h_mgt | exact h_pwrLn | exact h_timLn

theorem execServiceExit_onlyIn {l : List Block} {r : State} {n : Lane} {s : State} (hk : OnlyIn l r s) (h_evf : Block.evf ∈ l) (h_hifGlb : Block.hifGlb ∈ l) (h_leq : Block.leq ∈ l) (h_lfr : Block.lfr ∈ l) (h_lrx : Block.lrx ∈ l) (h_mgt : Block.mgt ∈ l) (h_pwrLn : Block.pwrLn ∈ l) (h_timLn : Block.timLn ∈ l) :
    OutOnlyIn l r (execServiceExit n s) := by
  unfold execServiceExit
  repeat' first
    | intro _
    | (with_reducible first | assumption | exact OnlyIn.refl _ _ | apply OutOnlyIn.next | apply State.lrxSet_onlyIn | apply OutOnlyIn.cond | apply OnlyIn.cond)
    | extract_lets | split | exact h_evf | exact h_hifGlb | exact h_leq | exact h_lfr | exact h_lrx | exact h_mgt | exact h_pwrLn | exact h_timLn

theorem execRxSleepWake_onlyIn {l : List Block} {r : State} {n : Lane} {s : State} (hk : OnlyIn l r s) (h_lrx : Block.lrx ∈ l) :
    OutOnlyIn l r (execRxSleepWake n s) := by
  unfold execRxSleepWake
  repeat' first
    | intro _
    | (with_reducible first | assumption | exact OnlyIn.refl _ _ | apply OutOnlyIn.next | apply State.wr_onlyIn | apply OutOnlyIn.cond | apply OnlyIn.cond)
    | extract_lets | split | exact h_lrx

theorem execRxResumeDone_onlyIn {l : List Block} {r : State} {n : Lane} {ok recOk : Bool} {s : State} (hk : OnlyIn l r s) (h_evf : Block.evf ∈ l) (h_hifGlb : Block.hifGlb ∈ l) (h_hlt : Block.hlt ∈ l) (h_hltLn : Block.hltLn ∈ l) (h_leq : Block.leq ∈ l) (h_lfr : Block.lfr ∈ l) (h_lrx : Block.lrx ∈ l) (h_mgt : Block.mgt ∈ l) (h_pwr : Block.pwr ∈ l) (h_pwrLn : Block.pwrLn ∈ l) (h_timLn : Block.timLn ∈ l) :
    OutOnlyIn l r (execRxResumeDone n ok recOk s) := by
  unfold execRxResumeDone
  repeat' first
    | intro _
    | (with_reducible first | assumption | exact OnlyIn.refl _ _ | apply OutOnlyIn.next | apply State.recordBad_onlyIn | apply State.wr_onlyIn | apply State.lrxToCal_onlyIn | apply State.leqFollow_onlyIn | apply State.bump_onlyIn | apply State.lrxStartAgc_onlyIn | apply State.lrxCdrPhase_onlyIn | apply OnlyIn.puts_cons | apply OnlyIn.puts_nil | apply OnlyIn.when | apply OutOnlyIn.cond | apply OnlyIn.cond)
    | extract_lets | dsimp only | split | exact h_evf | exact h_hifGlb | exact h_hlt | exact h_hltLn | exact h_leq | exact h_lfr | exact h_lrx | exact h_mgt | exact h_pwr | exact h_pwrLn | exact h_timLn

end Sys2Proof.Machine
end

