-- ==== Sys2Proof/Laws/OnlyLineTx.lean ====
section
/-!
SUPPORT. Which blocks the operations of LineTx change.
-/
set_option Elab.async false
set_option linter.all false
namespace Sys2Proof.Machine

theorem State.ltxEnableOn_onlyIn {l : List Block} {r : State} {s : State} {n : Nat} (hk : OnlyIn l r s) (h_evf : Block.evf ∈ l) (h_ltx : Block.ltx ∈ l) (h_pwrLn : Block.pwrLn ∈ l) :
    OnlyIn l r (State.ltxEnableOn s n) := by
  unfold State.ltxEnableOn
  repeat' first
    | intro _
    | (with_reducible first | assumption | exact OnlyIn.refl _ _ | apply State.wr_onlyIn | apply State.ltxRecheck_onlyIn | apply OnlyIn.cond)
    | extract_lets | split | exact h_evf | exact h_ltx | exact h_pwrLn

theorem execTxEnableRequest_onlyIn {l : List Block} {r : State} {n : Lane} {s : State} (hk : OnlyIn l r s) (h_clk : Block.clk ∈ l) (h_evf : Block.evf ∈ l) (h_glb : Block.glb ∈ l) (h_hlt : Block.hlt ∈ l) (h_ltx : Block.ltx ∈ l) (h_pwrLn : Block.pwrLn ∈ l) :
    OutOnlyIn l r (execTxEnableRequest n s) := by
  unfold execTxEnableRequest
  repeat' first
    | intro _
    | (with_reducible first | assumption | exact OnlyIn.refl _ _ | apply OutOnlyIn.next | apply State.access_onlyIn | apply State.wr_onlyIn | apply State.laneService_onlyIn | apply State.ltxEnableOn_onlyIn | apply OnlyIn.when)
    | extract_lets | dsimp only | exact h_clk | exact h_evf | exact h_glb | exact h_hlt | exact h_ltx | exact h_pwrLn

theorem execTxEnableGo_onlyIn {l : List Block} {r : State} {n : Lane} {s : State} (hk : OnlyIn l r s) (h_evf : Block.evf ∈ l) (h_hlt : Block.hlt ∈ l) (h_hltLn : Block.hltLn ∈ l) (h_ltx : Block.ltx ∈ l) (h_mgt : Block.mgt ∈ l) (h_optLn : Block.optLn ∈ l) (h_pwrLn : Block.pwrLn ∈ l) :
    OutOnlyIn l r (execTxEnableGo n s) := by
  unfold execTxEnableGo
  repeat' first
    | intro _
    | (with_reducible first | assumption | exact OnlyIn.refl _ _ | apply OutOnlyIn.next | apply State.ltxSet_onlyIn | apply State.wr_onlyIn | apply State.ltxFault_onlyIn | apply OnlyIn.puts_cons | apply OnlyIn.puts_nil | apply OutOnlyIn.cond | apply OnlyIn.cond)
    | extract_lets | split | exact h_evf | exact h_hlt | exact h_hltLn | exact h_ltx | exact h_mgt | exact h_optLn | exact h_pwrLn

theorem execTxenTimeout_onlyIn {l : List Block} {r : State} {n : Lane} {s : State} (hk : OnlyIn l r s) (h_evf : Block.evf ∈ l) (h_hlt : Block.hlt ∈ l) (h_hltLn : Block.hltLn ∈ l) (h_ltx : Block.ltx ∈ l) (h_mgt : Block.mgt ∈ l) (h_optLn : Block.optLn ∈ l) (h_pwrLn : Block.pwrLn ∈ l) :
    OutOnlyIn l r (execTxenTimeout n s) := by
  unfold execTxenTimeout
  repeat' first
    | intro _
    | (with_reducible first | assumption | exact OnlyIn.refl _ _ | apply OutOnlyIn.next | apply State.ltxFault_onlyIn | apply OutOnlyIn.cond | apply OnlyIn.cond)
    | extract_lets | split | exact h_evf | exact h_hlt | exact h_hltLn | exact h_ltx | exact h_mgt | exact h_optLn | exact h_pwrLn

theorem State.laserOn_onlyIn {l : List Block} {r : State} {s : State} {n : Nat} (hk : OnlyIn l r s) (h_ltx : Block.ltx ∈ l) (h_optLn : Block.optLn ∈ l) :
    OnlyIn l r (State.laserOn s n) := by
  unfold State.laserOn
  repeat' first
    | intro _
    | (with_reducible first | assumption | exact OnlyIn.refl _ _ | apply State.wr_onlyIn | apply OnlyIn.puts_cons | apply OnlyIn.puts_nil | apply OnlyIn.when)
    | extract_lets | dsimp only | exact h_ltx | exact h_optLn

theorem State.drvLow_onlyIn {l : List Block} {r : State} {s : State} {n : Nat} (hk : OnlyIn l r s) (h_ltx : Block.ltx ∈ l) :
    OnlyIn l r (State.drvLow s n) := by
  unfold State.drvLow
  repeat' first
    | intro _
    | (with_reducible first | assumption | exact OnlyIn.refl _ _ | apply State.bump_onlyIn | apply State.raise_onlyIn)
    | extract_lets | exact h_ltx

theorem execDrvSettleExpiry_onlyIn {l : List Block} {r : State} {n : Lane} {drvFltHigh : Bool} {s : State} (hk : OnlyIn l r s) (h_evf : Block.evf ∈ l) (h_hlt : Block.hlt ∈ l) (h_hltLn : Block.hltLn ∈ l) (h_ltx : Block.ltx ∈ l) (h_mgt : Block.mgt ∈ l) (h_optLn : Block.optLn ∈ l) (h_pwrLn : Block.pwrLn ∈ l) :
    OutOnlyIn l r (execDrvSettleExpiry n drvFltHigh s) := by
  unfold execDrvSettleExpiry
  repeat' first
    | intro _
    | (with_reducible first | assumption | exact OnlyIn.refl _ _ | apply OutOnlyIn.next | apply State.drvLow_onlyIn | apply State.ltxFault_onlyIn | apply State.laserOn_onlyIn | apply State.ltxSet_onlyIn | apply OutOnlyIn.cond | apply OnlyIn.cond)
    | extract_lets | split | exact h_evf | exact h_hlt | exact h_hltLn | exact h_ltx | exact h_mgt | exact h_optLn | exact h_pwrLn

theorem execBiasTimeout_onlyIn {l : List Block} {r : State} {n : Lane} {s : State} (hk : OnlyIn l r s) (h_evf : Block.evf ∈ l) (h_hlt : Block.hlt ∈ l) (h_hltLn : Block.hltLn ∈ l) (h_ltx : Block.ltx ∈ l) (h_mgt : Block.mgt ∈ l) (h_optLn : Block.optLn ∈ l) (h_pwrLn : Block.pwrLn ∈ l) :
    OutOnlyIn l r (execBiasTimeout n s) := by
  unfold execBiasTimeout
  repeat' first
    | intro _
    | (with_reducible first | assumption | exact OnlyIn.refl _ _ | apply OutOnlyIn.next | apply State.ltxFault_onlyIn | apply OutOnlyIn.cond | apply OnlyIn.cond)
    | extract_lets | split | exact h_evf | exact h_hlt | exact h_hltLn | exact h_ltx | exact h_mgt | exact h_optLn | exact h_pwrLn

theorem execTxActivate_onlyIn {l : List Block} {r : State} {n : Lane} {s : State} (hk : OnlyIn l r s) (h_evf : Block.evf ∈ l) (h_ltx : Block.ltx ∈ l) (h_optLn : Block.optLn ∈ l) (h_pwrLn : Block.pwrLn ∈ l) :
    OutOnlyIn l r (execTxActivate n s) := by
  unfold execTxActivate
  repeat' first
    | intro _
    | (with_reducible first | assumption | exact OnlyIn.refl _ _ | apply OutOnlyIn.next | apply State.ltxSet_onlyIn | apply State.wrFree_onlyIn | apply State.raise_onlyIn | apply State.wr_onlyIn | apply OnlyIn.puts_cons | apply OnlyIn.puts_nil | apply OutOnlyIn.cond | apply OnlyIn.cond)
    | extract_lets | split | exact h_evf | exact h_ltx | exact h_optLn | exact h_pwrLn

theorem State.ltxEnableOff_onlyIn {l : List Block} {r : State} {s : State} {n : Nat} (hk : OnlyIn l r s) (h_evf : Block.evf ∈ l) (h_hlt : Block.hlt ∈ l) (h_hltLn : Block.hltLn ∈ l) (h_ltx : Block.ltx ∈ l) (h_optLn : Block.optLn ∈ l) (h_pwrLn : Block.pwrLn ∈ l) :
    OnlyIn l r (State.ltxEnableOff s n) := by
  unfold State.ltxEnableOff
  repeat' first
    | intro _
    | (with_reducible first | assumption | exact OnlyIn.refl _ _ | apply State.wr_onlyIn | apply State.ltxDisable_onlyIn | apply State.ltxFaultEnd_onlyIn | apply State.clearLastings_onlyIn)
    | extract_lets
    | (with_reducible first | apply OnlyIn.other)
    | exact h_evf | exact h_hlt | exact h_hltLn | exact h_ltx | exact h_optLn | exact h_pwrLn

theorem execTxDisable_onlyIn {l : List Block} {r : State} {n : Lane} {trigger : DisableTrigger} {s : State} (hk : OnlyIn l r s) (h_clk : Block.clk ∈ l) (h_evf : Block.evf ∈ l) (h_glb : Block.glb ∈ l) (h_hlt : Block.hlt ∈ l) (h_hltLn : Block.hltLn ∈ l) (h_ltx : Block.ltx ∈ l) (h_optLn : Block.optLn ∈ l) (h_pwrLn : Block.pwrLn ∈ l) :
    OutOnlyIn l r (execTxDisable n trigger s) := by
  unfold execTxDisable
  repeat' first
    | intro _
    | (with_reducible first | assumption | exact OnlyIn.refl _ _ | apply OutOnlyIn.next | apply State.access_onlyIn | apply State.ltxEnableOff_onlyIn | apply State.ltxDisable_onlyIn | apply State.wr_onlyIn | apply OutOnlyIn.cond | apply OnlyIn.cond)
    | extract_lets | dsimp only | split | exact h_clk | exact h_evf | exact h_glb | exact h_hlt | exact h_hltLn | exact h_ltx | exact h_optLn | exact h_pwrLn

theorem execTxDisableMute_onlyIn {l : List Block} {r : State} {n : Lane} {s : State} (hk : OnlyIn l r s) (h_ltx : Block.ltx ∈ l) (h_optLn : Block.optLn ∈ l) :
    OutOnlyIn l r (execTxDisableMute n s) := by
  unfold execTxDisableMute
  repeat' first
    | intro _
    | (with_reducible first | assumption | exact OnlyIn.refl _ _ | apply OutOnlyIn.next | apply State.ltxLaserOff_onlyIn | apply OutOnlyIn.cond | apply OnlyIn.cond)
    | extract_lets | split | exact h_ltx | exact h_optLn

theorem execDrvHoldExpiry_onlyIn {l : List Block} {r : State} {n : Lane} {s : State} (hk : OnlyIn l r s) (h_evf : Block.evf ∈ l) (h_hltLn : Block.hltLn ∈ l) (h_ltx : Block.ltx ∈ l) (h_pwrLn : Block.pwrLn ∈ l) :
    OutOnlyIn l r (execDrvHoldExpiry n s) := by
  unfold execDrvHoldExpiry
  repeat' first
    | intro _
    | (with_reducible first | assumption | exact OnlyIn.refl _ _ | apply OutOnlyIn.next | apply State.ltxDisableEnd_onlyIn | apply OutOnlyIn.cond | apply OnlyIn.cond)
    | extract_lets | split | exact h_evf | exact h_hltLn | exact h_ltx | exact h_pwrLn

theorem State.ltxLeaveFault_onlyIn {l : List Block} {r : State} {s : State} {n : Nat} (hk : OnlyIn l r s) (h_evf : Block.evf ∈ l) (h_ltx : Block.ltx ∈ l) (h_pwrLn : Block.pwrLn ∈ l) :
    OnlyIn l r (State.ltxLeaveFault s n) := by
  unfold State.ltxLeaveFault
  repeat' first
    | intro _
    | (with_reducible first | assumption | exact OnlyIn.refl _ _ | apply State.wr_onlyIn | apply State.ltxSet_onlyIn | apply OnlyIn.puts_cons | apply OnlyIn.puts_nil | apply OnlyIn.when)
    | extract_lets | dsimp only | exact h_evf | exact h_ltx | exact h_pwrLn

theorem State.ltxRestartNow_onlyIn {l : List Block} {r : State} {s : State} {n : Nat} (hk : OnlyIn l r s) (h_evf : Block.evf ∈ l) (h_hlt : Block.hlt ∈ l) (h_ltx : Block.ltx ∈ l) (h_pwrLn : Block.pwrLn ∈ l) :
    OnlyIn l r (State.ltxRestartNow s n) := by
  unfold State.ltxRestartNow
  repeat' first
    | intro _
    | (with_reducible first | assumption | exact OnlyIn.refl _ _ | apply State.ltxLeaveFault_onlyIn | apply State.clearLastings_onlyIn | apply State.ltxRecheck_onlyIn | apply OnlyIn.cond)
    | extract_lets | split | exact h_evf | exact h_hlt | exact h_ltx | exact h_pwrLn

theorem execLtxRestart_onlyIn {l : List Block} {r : State} {n : Lane} {s : State} (hk : OnlyIn l r s) (h_clk : Block.clk ∈ l) (h_evf : Block.evf ∈ l) (h_glb : Block.glb ∈ l) (h_hlt : Block.hlt ∈ l) (h_ltx : Block.ltx ∈ l) (h_pwrLn : Block.pwrLn ∈ l) :
    OutOnlyIn l r (execLtxRestart n s) := by
  unfold execLtxRestart
  repeat' first
    | intro _
    | (with_reducible first | assumption | exact OnlyIn.refl _ _ | apply OutOnlyIn.next | apply State.access_onlyIn | apply State.laneService_onlyIn | apply State.ltxRestartNow_onlyIn)
    | extract_lets | dsimp only | exact h_clk | exact h_evf | exact h_glb | exact h_hlt | exact h_ltx | exact h_pwrLn

theorem State.ltxCommitNow_onlyIn {l : List Block} {r : State} {s : State} {n : Nat} (hk : OnlyIn l r s) (h_ltx : Block.ltx ∈ l) :
    OnlyIn l r (State.ltxCommitNow s n) := by
  unfold State.ltxCommitNow
  repeat' first
    | intro _
    | (with_reducible first | assumption | exact OnlyIn.refl _ _ | apply State.wr_onlyIn | apply State.raise_onlyIn | apply State.ltxApply_onlyIn | apply OnlyIn.cond)
    | extract_lets | split | exact h_ltx

theorem execLtxCommit_onlyIn {l : List Block} {r : State} {n : Lane} {s : State} (hk : OnlyIn l r s) (h_clk : Block.clk ∈ l) (h_evf : Block.evf ∈ l) (h_glb : Block.glb ∈ l) (h_hlt : Block.hlt ∈ l) (h_ltx : Block.ltx ∈ l) :
    OutOnlyIn l r (execLtxCommit n s) := by
  unfold execLtxCommit
  repeat' first
    | intro _
    | (with_reducible first | assumption | exact OnlyIn.refl _ _ | apply OutOnlyIn.next | apply State.access_onlyIn | apply State.laneService_onlyIn | apply State.ltxCommitNow_onlyIn)
    | extract_lets | dsimp only | exact h_clk | exact h_evf | exact h_glb | exact h_hlt | exact h_ltx

theorem execLtxCntClr_onlyIn {l : List Block} {r : State} {n : Lane} {s : State} (hk : OnlyIn l r s) (h_clk : Block.clk ∈ l) (h_glb : Block.glb ∈ l) (h_ltx : Block.ltx ∈ l) :
    OutOnlyIn l r (execLtxCntClr n s) := by
  unfold execLtxCntClr
  repeat' first
    | intro _
    | (with_reducible first | assumption | exact OnlyIn.refl _ _ | apply OutOnlyIn.next | apply State.access_onlyIn | apply State.wr_onlyIn | apply OnlyIn.clear_cons | apply OnlyIn.clear_nil)
    | extract_lets | dsimp only | exact h_clk | exact h_glb | exact h_ltx

theorem execDrvFault_onlyIn {l : List Block} {r : State} {n : Lane} {s : State} (hk : OnlyIn l r s) (h_evf : Block.evf ∈ l) (h_hlt : Block.hlt ∈ l) (h_hltLn : Block.hltLn ∈ l) (h_ltx : Block.ltx ∈ l) (h_mgt : Block.mgt ∈ l) (h_optLn : Block.optLn ∈ l) (h_pwrLn : Block.pwrLn ∈ l) :
    OutOnlyIn l r (execDrvFault n s) := by
  unfold execDrvFault
  repeat' first
    | intro _
    | (with_reducible first | assumption | exact OnlyIn.refl _ _ | apply OutOnlyIn.next | apply State.drvLow_onlyIn | apply State.ltxFault_onlyIn | apply OutOnlyIn.cond | apply OnlyIn.cond)
    | extract_lets | split | exact h_evf | exact h_hlt | exact h_hltLn | exact h_ltx | exact h_mgt | exact h_optLn | exact h_pwrLn

theorem execTxFaultDacOff_onlyIn {l : List Block} {r : State} {n : Lane} {s : State} (hk : OnlyIn l r s) (h_ltx : Block.ltx ∈ l) :
    OutOnlyIn l r (execTxFaultDacOff n s) := by
  unfold execTxFaultDacOff
  repeat' first
    | intro _
    | (with_reducible first | assumption | exact OnlyIn.refl _ _ | apply OutOnlyIn.next | apply State.wr_onlyIn | apply OnlyIn.puts_cons | apply OnlyIn.puts_nil | apply OutOnlyIn.cond | apply OnlyIn.cond)
    | extract_lets | split | exact h_ltx

theorem execTxFaultAutoRestart_onlyIn {l : List Block} {r : State} {n : Lane} {s : State} (hk : OnlyIn l r s) (h_evf : Block.evf ∈ l) (h_ltx : Block.ltx ∈ l) (h_pwrLn : Block.pwrLn ∈ l) :
    OutOnlyIn l r (execTxFaultAutoRestart n s) := by
  unfold execTxFaultAutoRestart
  repeat' first
    | intro _
    | (with_reducible first | assumption | exact OnlyIn.refl _ _ | apply OutOnlyIn.next | apply State.ltxLeaveFault_onlyIn | apply State.ltxRecheck_onlyIn | apply OutOnlyIn.cond | apply OnlyIn.cond)
    | extract_lets | split | exact h_evf | exact h_ltx | exact h_pwrLn

theorem State.cellFail_onlyIn {l : List Block} {r : State} {s : State} {n c : Nat} (hk : OnlyIn l r s) (h_evf : Block.evf ∈ l) (h_hlt : Block.hlt ∈ l) (h_hltLn : Block.hltLn ∈ l) (h_ltx : Block.ltx ∈ l) (h_mgt : Block.mgt ∈ l) (h_optLn : Block.optLn ∈ l) (h_pwrLn : Block.pwrLn ∈ l) :
    OnlyIn l r (State.cellFail s n c) := by
  unfold State.cellFail
  repeat' first
    | intro _
    | (with_reducible first | assumption | exact OnlyIn.refl _ _ | apply State.wr_onlyIn | apply State.raise_onlyIn | apply State.setOutCells_onlyIn | apply State.cellRepair_onlyIn | apply State.ltxFault_onlyIn | apply OnlyIn.puts_cons | apply OnlyIn.puts_nil | apply OnlyIn.when | apply OnlyIn.cond)
    | extract_lets | dsimp only | split | exact h_evf | exact h_hlt | exact h_hltLn | exact h_ltx | exact h_mgt | exact h_optLn | exact h_pwrLn

theorem State.dacCalApply_onlyIn {l : List Block} {r : State} {s : State} {n : Nat} {trims : List (Nat × Int)} {intlv : Int} (hk : OnlyIn l r s) (h_evf : Block.evf ∈ l) (h_hlt : Block.hlt ∈ l) (h_hltLn : Block.hltLn ∈ l) (h_ltx : Block.ltx ∈ l) (h_mgt : Block.mgt ∈ l) (h_optLn : Block.optLn ∈ l) (h_pwrLn : Block.pwrLn ∈ l) :
    OnlyIn l r (State.dacCalApply s n trims intlv) := by
  unfold State.dacCalApply
  repeat' first
    | intro _
    | (with_reducible first | assumption | exact OnlyIn.refl _ _ | apply State.wrInt_onlyIn | apply State.cellFail_onlyIn | apply State.wr_onlyIn | apply State.ltxRecheck_onlyIn | apply State.ltxFault_onlyIn | apply OnlyIn.puts_cons | apply OnlyIn.puts_nil | apply OnlyIn.each | apply OnlyIn.cond | apply OnlyIn.cond_snd)
    | extract_lets | dsimp only | split | exact h_evf | exact h_hlt | exact h_hltLn | exact h_ltx | exact h_mgt | exact h_optLn | exact h_pwrLn

theorem execDacCalDone_onlyIn {l : List Block} {r : State} {n : Lane} {trims : List Int} {intlv : Int} {s : State} (hk : OnlyIn l r s) (h_evf : Block.evf ∈ l) (h_hlt : Block.hlt ∈ l) (h_hltLn : Block.hltLn ∈ l) (h_ltx : Block.ltx ∈ l) (h_mgt : Block.mgt ∈ l) (h_optLn : Block.optLn ∈ l) (h_pwrLn : Block.pwrLn ∈ l) :
    OutOnlyIn l r (execDacCalDone n trims intlv s) := by
  unfold execDacCalDone
  repeat' first
    | intro _
    | (with_reducible first | assumption | exact OnlyIn.refl _ _ | apply OutOnlyIn.next | apply State.wr_onlyIn | apply State.wrInt_onlyIn | apply State.dacCalApply_onlyIn | apply OnlyIn.each | apply OutOnlyIn.cond | apply OnlyIn.cond | apply OnlyIn.cond_snd)
    | extract_lets | dsimp only | split | exact h_evf | exact h_hlt | exact h_hltLn | exact h_ltx | exact h_mgt | exact h_optLn | exact h_pwrLn

theorem State.dacCalRelease_onlyIn {l : List Block} {r : State} {s : State} {n : Nat} (hk : OnlyIn l r s) (h_evf : Block.evf ∈ l) (h_hlt : Block.hlt ∈ l) (h_hltLn : Block.hltLn ∈ l) (h_ltx : Block.ltx ∈ l) (h_mgt : Block.mgt ∈ l) (h_optLn : Block.optLn ∈ l) (h_pwrLn : Block.pwrLn ∈ l) :
    OnlyIn l r (State.dacCalRelease s n) := by
  unfold State.dacCalRelease
  repeat' first
    | intro _
    | (with_reducible first | assumption | exact OnlyIn.refl _ _ | apply State.dacCalApply_onlyIn | apply State.wr_onlyIn | apply OnlyIn.cond | apply OnlyIn.cond_snd)
    | extract_lets | dsimp only | split | exact h_evf | exact h_hlt | exact h_hltLn | exact h_ltx | exact h_mgt | exact h_optLn | exact h_pwrLn

theorem execDacCellTrimDone_onlyIn {l : List Block} {r : State} {n : Lane} {trim : Int} {s : State} (hk : OnlyIn l r s) (h_evf : Block.evf ∈ l) (h_hlt : Block.hlt ∈ l) (h_hltLn : Block.hltLn ∈ l) (h_ltx : Block.ltx ∈ l) (h_mgt : Block.mgt ∈ l) (h_optLn : Block.optLn ∈ l) (h_pwrLn : Block.pwrLn ∈ l) :
    OutOnlyIn l r (execDacCellTrimDone n trim s) := by
  unfold execDacCellTrimDone
  repeat' first
    | intro _
    | (with_reducible first | assumption | exact OnlyIn.refl _ _ | apply OutOnlyIn.next | apply State.wrInt_onlyIn | apply State.wr_onlyIn | apply State.cellFail_onlyIn | apply OutOnlyIn.cond | apply OnlyIn.cond)
    | extract_lets | split | exact h_evf | exact h_hlt | exact h_hltLn | exact h_ltx | exact h_mgt | exact h_optLn | exact h_pwrLn

theorem execDacClip_onlyIn {l : List Block} {r : State} {n : Lane} {s : State} (hk : OnlyIn l r s) (h_ltx : Block.ltx ∈ l) :
    OutOnlyIn l r (execDacClip n s) := by
  unfold execDacClip
  repeat' first
    | intro _
    | (with_reducible first | assumption | exact OnlyIn.refl _ _ | apply OutOnlyIn.next | apply State.bump_onlyIn | apply State.raise_onlyIn | apply OutOnlyIn.cond | apply OnlyIn.cond)
    | extract_lets | split | exact h_ltx

theorem State.maskReport_onlyIn {l : List Block} {r : State} {s : State} {n : Nat} (hk : OnlyIn l r s) (h_arc : Block.arc ∈ l) (h_clk : Block.clk ∈ l) (h_evf : Block.evf ∈ l) (h_glb : Block.glb ∈ l) (h_hif : Block.hif ∈ l) (h_hifGlb : Block.hifGlb ∈ l) (h_hlt : Block.hlt ∈ l) (h_hltLn : Block.hltLn ∈ l) (h_leq : Block.leq ∈ l) (h_lfr : Block.lfr ∈ l) (h_lrx : Block.lrx ∈ l) (h_ltx : Block.ltx ∈ l) (h_mgt : Block.mgt ∈ l) (h_optLn : Block.optLn ∈ l) (h_pll : Block.pll ∈ l) (h_pwrLn : Block.pwrLn ∈ l) (h_tim : Block.tim ∈ l) (h_timLn : Block.timLn ∈ l) :
    OnlyIn l r (State.maskReport s n) := by
  unfold State.maskReport
  repeat' first
    | intro _
    | (with_reducible first | assumption | exact OnlyIn.refl _ _ | apply State.wrInt_onlyIn | apply State.wr_onlyIn | apply State.maskDiscard_onlyIn | apply State.bump_onlyIn | apply State.raise_onlyIn | apply State.faultEvent_onlyIn | apply OnlyIn.puts_cons | apply OnlyIn.puts_nil | apply OnlyIn.each | apply OnlyIn.when | apply OnlyIn.cond | apply OnlyIn.cond_snd)
    | extract_lets | dsimp only | split | exact h_arc | exact h_clk | exact h_evf | exact h_glb | exact h_hif | exact h_hifGlb | exact h_hlt | exact h_hltLn | exact h_leq | exact h_lfr | exact h_lrx | exact h_ltx | exact h_mgt | exact h_optLn | exact h_pll | exact h_pwrLn | exact h_tim | exact h_timLn

theorem State.maskBlock_onlyIn {l : List Block} {r : State} {s : State} {n : Nat} {b : MaskBlock} (hk : OnlyIn l r s) (h_arc : Block.arc ∈ l) (h_clk : Block.clk ∈ l) (h_evf : Block.evf ∈ l) (h_glb : Block.glb ∈ l) (h_hif : Block.hif ∈ l) (h_hifGlb : Block.hifGlb ∈ l) (h_hlt : Block.hlt ∈ l) (h_hltLn : Block.hltLn ∈ l) (h_leq : Block.leq ∈ l) (h_lfr : Block.lfr ∈ l) (h_lrx : Block.lrx ∈ l) (h_ltx : Block.ltx ∈ l) (h_mgt : Block.mgt ∈ l) (h_optLn : Block.optLn ∈ l) (h_pll : Block.pll ∈ l) (h_pwrLn : Block.pwrLn ∈ l) (h_tim : Block.tim ∈ l) (h_timLn : Block.timLn ∈ l) :
    OnlyIn l r (State.maskBlock s n b) := by
  unfold State.maskBlock
  repeat' first
    | intro _
    | (with_reducible first | assumption | exact OnlyIn.refl _ _ | apply State.wr_onlyIn | apply State.bump_onlyIn | apply State.maskReport_onlyIn | apply OnlyIn.each | apply OnlyIn.cond | apply OnlyIn.cond_snd)
    | extract_lets | dsimp only | split | exact h_arc | exact h_clk | exact h_evf | exact h_glb | exact h_hif | exact h_hifGlb | exact h_hlt | exact h_hltLn | exact h_leq | exact h_lfr | exact h_lrx | exact h_ltx | exact h_mgt | exact h_optLn | exact h_pll | exact h_pwrLn | exact h_tim | exact h_timLn

theorem execMaskAverageEnd_onlyIn {l : List Block} {r : State} {n : Lane} {blocks : List (List (Option (BitVec 7)))} {s : State} (hk : OnlyIn l r s) (h_arc : Block.arc ∈ l) (h_clk : Block.clk ∈ l) (h_evf : Block.evf ∈ l) (h_glb : Block.glb ∈ l) (h_hif : Block.hif ∈ l) (h_hifGlb : Block.hifGlb ∈ l) (h_hlt : Block.hlt ∈ l) (h_hltLn : Block.hltLn ∈ l) (h_leq : Block.leq ∈ l) (h_lfr : Block.lfr ∈ l) (h_lrx : Block.lrx ∈ l) (h_ltx : Block.ltx ∈ l) (h_mgt : Block.mgt ∈ l) (h_optLn : Block.optLn ∈ l) (h_pll : Block.pll ∈ l) (h_pwrLn : Block.pwrLn ∈ l) (h_tim : Block.tim ∈ l) (h_timLn : Block.timLn ∈ l) :
    OutOnlyIn l r (execMaskAverageEnd n blocks s) := by
  unfold execMaskAverageEnd
  repeat' first
    | intro _
    | (with_reducible first | assumption | exact OnlyIn.refl _ _ | apply OutOnlyIn.next | apply State.maskBlock_onlyIn | apply OnlyIn.each | apply OutOnlyIn.cond | apply OnlyIn.cond)
    | extract_lets | dsimp only | split | exact h_arc | exact h_clk | exact h_evf | exact h_glb | exact h_hif | exact h_hifGlb | exact h_hlt | exact h_hltLn | exact h_leq | exact h_lfr | exact h_lrx | exact h_ltx | exact h_mgt | exact h_optLn | exact h_pll | exact h_pwrLn | exact h_tim | exact h_timLn

theorem execWakeSend_onlyIn {l : List Block} {r : State} {n : Lane} {s : State} (hk : OnlyIn l r s) (h_clk : Block.clk ∈ l) (h_glb : Block.glb ∈ l) (h_hltLn : Block.hltLn ∈ l) (h_ltx : Block.ltx ∈ l) :
    OutOnlyIn l r (execWakeSend n s) := by
  unfold execWakeSend
  repeat' first
    | intro _
    | (with_reducible first | assumption | exact OnlyIn.refl _ _ | apply OutOnlyIn.next | apply State.access_onlyIn | apply State.ltxAbandon_onlyIn | apply State.wr_onlyIn | apply OnlyIn.puts_cons | apply OnlyIn.puts_nil | apply OnlyIn.when | apply OutOnlyIn.cond | apply OnlyIn.cond)
    | extract_lets | dsimp only | split | exact h_clk | exact h_glb | exact h_hltLn | exact h_ltx

theorem execWakePatternEnd_onlyIn {l : List Block} {r : State} {n : Lane} {s : State} (hk : OnlyIn l r s) (h_ltx : Block.ltx ∈ l) :
    OutOnlyIn l r (execWakePatternEnd n s) := by
  unfold execWakePatternEnd
  repeat' first
    | intro _
    | (with_reducible first | assumption | exact OnlyIn.refl _ _ | apply OutOnlyIn.next | apply State.raise_onlyIn | apply State.bump_onlyIn | apply State.wr_onlyIn | apply OnlyIn.puts_cons | apply OnlyIn.puts_nil | apply OutOnlyIn.cond | apply OnlyIn.cond)
    | extract_lets | split | exact h_ltx

theorem execTxSleepWake_onlyIn {l : List Block} {r : State} {n : Lane} {drvFltHigh recOk : Bool} {s : State} (hk : OnlyIn l r s) (h_evf : Block.evf ∈ l) (h_hlt : Block.hlt ∈ l) (h_hltLn : Block.hltLn ∈ l) (h_ltx : Block.ltx ∈ l) (h_mgt : Block.mgt ∈ l) (h_optLn : Block.optLn ∈ l) (h_pwr : Block.pwr ∈ l) (h_pwrLn : Block.pwrLn ∈ l) :
    OutOnlyIn l r (execTxSleepWake n drvFltHigh recOk s) := by
  unfold execTxSleepWake
  repeat' first
    | intro _
    | (with_reducible first | assumption | exact OnlyIn.refl _ _ | apply OutOnlyIn.next | apply State.recordBad_onlyIn | apply State.ltxDisable_onlyIn | apply State.ltxFault_onlyIn | apply State.wr_onlyIn | apply State.drvLow_onlyIn | apply State.raise_onlyIn | apply OnlyIn.puts_cons | apply OnlyIn.puts_nil | apply OnlyIn.when | apply OutOnlyIn.cond | apply OnlyIn.cond)
    | extract_lets | dsimp only | split | exact h_evf | exact h_hlt | exact h_hltLn | exact h_ltx | exact h_mgt | exact h_optLn | exact h_pwr | exact h_pwrLn

end Sys2Proof.Machine
end

