-- ==== Sys2Proof/Laws/OnlyLineEq.lean ====
section
/-!
SUPPORT. Which blocks the operations of LineEq change.
-/
set_option Elab.async false
set_option linter.all false
namespace Sys2Proof.Machine

theorem State.leqCommitNow_onlyIn {l : List Block} {r : State} {s : State} {n : Nat} (hk : OnlyIn l r s) (h_leq : Block.leq ∈ l) :
    OnlyIn l r (State.leqCommitNow s n) := by
  unfold State.leqCommitNow
  repeat' first
    | intro _
    | (with_reducible first | assumption | exact OnlyIn.refl _ _ | apply State.wr_onlyIn | apply State.raise_onlyIn | apply State.leqCommitApply_onlyIn | apply OnlyIn.cond)
    | extract_lets | split | exact h_leq

theorem execLeqCommit_onlyIn {l : List Block} {r : State} {n : Lane} {s : State} (hk : OnlyIn l r s) (h_clk : Block.clk ∈ l) (h_evf : Block.evf ∈ l) (h_glb : Block.glb ∈ l) (h_hlt : Block.hlt ∈ l) (h_leq : Block.leq ∈ l) :
    OutOnlyIn l r (execLeqCommit n s) := by
  unfold execLeqCommit
  repeat' first
    | intro _
    | (with_reducible first | assumption | exact OnlyIn.refl _ _ | apply OutOnlyIn.next | apply State.access_onlyIn | apply State.laneService_onlyIn | apply State.leqCommitNow_onlyIn)
    | extract_lets | dsimp only | exact h_clk | exact h_evf | exact h_glb | exact h_hlt | exact h_leq

theorem execCoefSnap_onlyIn {l : List Block} {r : State} {n : Lane} {s : State} (hk : OnlyIn l r s) (h_clk : Block.clk ∈ l) (h_glb : Block.glb ∈ l) (h_leq : Block.leq ∈ l) :
    OutOnlyIn l r (execCoefSnap n s) := by
  unfold execCoefSnap
  repeat' first
    | intro _
    | (with_reducible first | assumption | exact OnlyIn.refl _ _ | apply OutOnlyIn.next | apply State.access_onlyIn | apply State.wr_onlyIn | apply State.leqSnapshot_onlyIn | apply OutOnlyIn.cond | apply OnlyIn.cond)
    | extract_lets | dsimp only | split | exact h_clk | exact h_glb | exact h_leq

theorem execLeqCntClr_onlyIn {l : List Block} {r : State} {n : Lane} {s : State} (hk : OnlyIn l r s) (h_clk : Block.clk ∈ l) (h_glb : Block.glb ∈ l) (h_leq : Block.leq ∈ l) :
    OutOnlyIn l r (execLeqCntClr n s) := by
  unfold execLeqCntClr
  repeat' first
    | intro _
    | (with_reducible first | assumption | exact OnlyIn.refl _ _ | apply OutOnlyIn.next | apply State.access_onlyIn | apply State.wr_onlyIn | apply OnlyIn.clear_cons | apply OnlyIn.clear_nil)
    | extract_lets | dsimp only | exact h_clk | exact h_glb | exact h_leq

theorem execHistStart_onlyIn {l : List Block} {r : State} {n : Lane} {s : State} (hk : OnlyIn l r s) (h_clk : Block.clk ∈ l) (h_glb : Block.glb ∈ l) (h_leq : Block.leq ∈ l) :
    OutOnlyIn l r (execHistStart n s) := by
  unfold execHistStart
  repeat' first
    | intro _
    | (with_reducible first | assumption | exact OnlyIn.refl _ _ | apply OutOnlyIn.next | apply State.access_onlyIn | apply State.wr_onlyIn | apply OnlyIn.puts_cons | apply OnlyIn.puts_nil | apply OnlyIn.each | apply OutOnlyIn.cond | apply OnlyIn.cond)
    | extract_lets | dsimp only | split | exact h_clk | exact h_glb | exact h_leq

theorem execHistDone_onlyIn {l : List Block} {r : State} {n : Lane} {bins : List Nat} {s : State} (hk : OnlyIn l r s) (h_leq : Block.leq ∈ l) :
    OutOnlyIn l r (execHistDone n bins s) := by
  unfold execHistDone
  repeat' first
    | intro _
    | (with_reducible first | assumption | exact OnlyIn.refl _ _ | apply OutOnlyIn.next | apply State.wr_onlyIn | apply State.raise_onlyIn | apply OnlyIn.puts_cons | apply OnlyIn.puts_nil | apply OnlyIn.each | apply OutOnlyIn.cond | apply OnlyIn.cond | apply OptOnlyIn.getD)
    | extract_lets | dsimp only | split | exact h_leq

theorem State.leqPend_onlyIn {l : List Block} {r : State} {s : State} {n sh : Nat} {dd : Bool} {accs : List Int} {accD : Int} (hk : OnlyIn l r s) (h_leq : Block.leq ∈ l) :
    OnlyIn l r (State.leqPend s n sh dd accs accD) := by
  unfold State.leqPend
  repeat' first
    | intro _
    | (with_reducible first | assumption | exact OnlyIn.refl _ _ | apply State.wrInt_onlyIn | apply State.wr_onlyIn | apply OnlyIn.each | apply OnlyIn.when | apply OnlyIn.cond | apply OptOnlyIn.getD)
    | extract_lets | dsimp only | split | exact h_leq

theorem execLeqAdaptUpdate_onlyIn {l : List Block} {r : State} {n : Lane} {accs : List Int} {accD : Int} {s : State} (hk : OnlyIn l r s) (h_leq : Block.leq ∈ l) :
    OutOnlyIn l r (execLeqAdaptUpdate n accs accD s) := by
  unfold execLeqAdaptUpdate
  repeat' first
    | intro _
    | (with_reducible first | assumption | exact OnlyIn.refl _ _ | apply OutOnlyIn.next | apply State.leqFollow_onlyIn | apply State.leqPend_onlyIn | apply State.wr_onlyIn | apply OutOnlyIn.cond | apply OnlyIn.cond)
    | extract_lets | split | exact h_leq

theorem State.leqConverge_onlyIn {l : List Block} {r : State} {s : State} {n : Nat} (hk : OnlyIn l r s) (h_leq : Block.leq ∈ l) (h_lrx : Block.lrx ∈ l) :
    OnlyIn l r (State.leqConverge s n) := by
  unfold State.leqConverge
  repeat' first
    | intro _
    | (with_reducible first | assumption | exact OnlyIn.refl _ _ | apply State.wr_onlyIn | apply State.raise_onlyIn | apply State.leqFollow_onlyIn | apply OnlyIn.puts_cons | apply OnlyIn.puts_nil | apply OnlyIn.each)
    | extract_lets | dsimp only | exact h_leq | exact h_lrx

theorem State.leqBlindWindow_onlyIn {l : List Block} {r : State} {s : State} {n fom : Nat} (hk : OnlyIn l r s) (h_leq : Block.leq ∈ l) (h_lrx : Block.lrx ∈ l) :
    OnlyIn l r (State.leqBlindWindow s n fom) := by
  unfold State.leqBlindWindow
  repeat' first
    | intro _
    | (with_reducible first | assumption | exact OnlyIn.refl _ _ | apply State.leqConverge_onlyIn | apply State.wr_onlyIn | apply OnlyIn.cond)
    | extract_lets | split | exact h_leq | exact h_lrx

theorem State.leqGuard_onlyIn {l : List Block} {r : State} {s : State} {n fom : Nat} (hk : OnlyIn l r s) (h_leq : Block.leq ∈ l) :
    OnlyIn l r (State.leqGuard s n fom) := by
  unfold State.leqGuard
  repeat' first
    | intro _
    | (with_reducible first | assumption | exact OnlyIn.refl _ _ | apply State.wr_onlyIn | apply State.bump_onlyIn | apply State.raise_onlyIn | apply OnlyIn.puts_cons | apply OnlyIn.puts_nil | apply OnlyIn.each | apply OnlyIn.cond)
    | extract_lets | dsimp only | split | exact h_leq

theorem State.fomLow_onlyIn {l : List Block} {r : State} {s : State} {n fom : Nat} (hk : OnlyIn l r s) (h_leq : Block.leq ∈ l) :
    OnlyIn l r (State.fomLow s n fom) := by
  unfold State.fomLow
  repeat' first
    | intro _
    | (with_reducible first | assumption | exact OnlyIn.refl _ _ | apply State.wr_onlyIn | apply State.bump_onlyIn | apply State.raise_onlyIn | apply OnlyIn.puts_cons | apply OnlyIn.puts_nil | apply OnlyIn.cond)
    | extract_lets | split | exact h_leq

theorem State.levelStats_onlyIn {l : List Block} {r : State} {s : State} {n : Nat} {levels : List LevelStat} (hk : OnlyIn l r s) (h_leq : Block.leq ∈ l) :
    OnlyIn l r (State.levelStats s n levels) := by
  unfold State.levelStats
  dsimp only
  repeat' first
    | intro _
    | (with_reducible first | assumption | exact OnlyIn.refl _ _ | apply State.wrInt_onlyIn | apply State.wr_onlyIn | apply State.free_onlyIn | apply OnlyIn.each | apply OnlyIn.foldl | apply OnlyIn.cond | apply OnlyIn.cond_snd | apply OptOnlyIn.getD)
    | extract_lets | dsimp only | split | exact h_leq

theorem State.trainToLocked_onlyIn {l : List Block} {r : State} {s : State} {n : Nat} (hk : OnlyIn l r s) (h_evf : Block.evf ∈ l) (h_hifGlb : Block.hifGlb ∈ l) (h_leq : Block.leq ∈ l) (h_lfr : Block.lfr ∈ l) (h_lrx : Block.lrx ∈ l) (h_mgt : Block.mgt ∈ l) (h_pwrLn : Block.pwrLn ∈ l) (h_timLn : Block.timLn ∈ l) :
    OnlyIn l r (State.trainToLocked s n) := by
  unfold State.trainToLocked
  repeat' first
    | intro _
    | (with_reducible first | assumption | exact OnlyIn.refl _ _ | apply State.lrxSet_onlyIn | apply State.wr_onlyIn | apply OnlyIn.puts_cons | apply OnlyIn.puts_nil | apply OnlyIn.cond)
    | extract_lets | split | exact h_evf | exact h_hifGlb | exact h_leq | exact h_lfr | exact h_lrx | exact h_mgt | exact h_pwrLn | exact h_timLn

theorem execFomWindowEnd_onlyIn {l : List Block} {r : State} {n : Lane} {mse : Nat} {levels : List LevelStat} {s : State} (hk : OnlyIn l r s) (h_evf : Block.evf ∈ l) (h_hifGlb : Block.hifGlb ∈ l) (h_leq : Block.leq ∈ l) (h_lfr : Block.lfr ∈ l) (h_lrx : Block.lrx ∈ l) (h_mgt : Block.mgt ∈ l) (h_pwrLn : Block.pwrLn ∈ l) (h_timLn : Block.timLn ∈ l) :
    OutOnlyIn l r (execFomWindowEnd n mse levels s) := by
  unfold execFomWindowEnd
  repeat' first
    | intro _
    | (with_reducible first | assumption | exact OnlyIn.refl _ _ | apply OutOnlyIn.next | apply State.fomOf_onlyIn | apply State.levelStats_onlyIn | apply State.wr_onlyIn | apply State.thrTake_onlyIn | apply State.leqBlindWindow_onlyIn | apply State.leqGuard_onlyIn | apply State.fomLow_onlyIn | apply State.trainToLocked_onlyIn | apply OnlyIn.puts_cons | apply OnlyIn.puts_nil | apply OnlyIn.when | apply OutOnlyIn.cond | apply OnlyIn.cond | apply OnlyIn.cond_snd)
    | extract_lets | dsimp only | split | exact h_evf | exact h_hifGlb | exact h_leq | exact h_lfr | exact h_lrx | exact h_mgt | exact h_pwrLn | exact h_timLn

theorem execDfeBurst_onlyIn {l : List Block} {r : State} {n : Lane} {s : State} (hk : OnlyIn l r s) (h_leq : Block.leq ∈ l) :
    OutOnlyIn l r (execDfeBurst n s) := by
  unfold execDfeBurst
  repeat' first
    | intro _
    | (with_reducible first | assumption | exact OnlyIn.refl _ _ | apply OutOnlyIn.next | apply State.bump_onlyIn)
    | extract_lets | exact h_leq

end Sys2Proof.Machine
end

