-- ==== Sys2Proof/Laws/OnlyIcrisOps.lean ====
section
/-!
SUPPORT. Which blocks the operations of IcrisOps change.
-/
set_option Elab.async false
set_option linter.all false
namespace Sys2Proof.Machine

theorem State.recordV1_onlyIn {l : List Block} {r : State} {s : State} {n : Nat} (hk : OnlyIn l r s) (h_timLn : Block.timLn ∈ l) :
    OnlyIn l r (State.recordV1 s n) := by
  unfold State.recordV1
  repeat' first
    | intro _
    | (with_reducible first | assumption | exact OnlyIn.refl _ _ | apply State.setEx_onlyIn | apply State.wrInt_onlyIn | apply State.wr_onlyIn | apply OnlyIn.puts_cons | apply OnlyIn.puts_nil | apply OptOnlyIn.getD)
    | extract_lets | dsimp only
    | (with_reducible first | apply OnlyIn.other)
    | exact h_timLn

theorem State.icrisIn_onlyIn {l : List Block} {r0 : State} {s : State} {n : Nat} {r : IcrisRecord} {arr : Option Nat} {sus broken : Bool} {dep : Nat} (hk : OnlyIn l r0 s) (h_timLn : Block.timLn ∈ l) :
    OnlyIn l r0 (State.icrisIn s n r arr sus broken dep) := by
  unfold State.icrisIn
  repeat' first
    | intro _
    | (with_reducible first | assumption | exact OnlyIn.refl _ _ | apply State.bump_onlyIn | apply State.exchClear_onlyIn | apply State.setEx_onlyIn | apply OnlyIn.when | apply OnlyIn.cond)
    | extract_lets | dsimp only | split
    | (with_reducible first | apply OnlyIn.other)
    | exact h_timLn

end Sys2Proof.Machine
end

