-- ==== Sys2Proof/Laws/OnlyPresets.lean ====
section
/-!
SUPPORT. Which blocks the operations of Presets change.
-/
set_option Elab.async false
set_option linter.all false
namespace Sys2Proof.Machine

theorem State.configSettle_onlyIn {bl : List Block} {r s : State} {b : PresetBlock} {n : Nat} {l : List (Field × Nat)}
    (hk : OnlyIn bl r s) (hl : ∀ e ∈ l, e.1.desc.block = presetBlock b) (h_hif : Block.hif ∈ bl) (h_hltLn : Block.hltLn ∈ bl)
    (h_leq : Block.leq ∈ bl) (h_lrx : Block.lrx ∈ bl) (h_ltx : Block.ltx ∈ bl) : OnlyIn bl r (s.configSettle b n l) := by
  unfold State.configSettle
  cases b
  · refine OnlyIn.cond (State.lrxApplyOf_onlyIn hk ?_ h_hltLn h_lrx) hk
    intro f hf
    obtain ⟨e, he, rfl⟩ := List.mem_map.mp hf
    exact hl e he
  · refine OnlyIn.cond (State.leqApplyOf_onlyIn hk ?_ h_leq) hk
    intro f hf
    obtain ⟨e, he, rfl⟩ := List.mem_map.mp hf
    exact hl e (List.mem_filter.mp he).1
  · refine OnlyIn.cond (OnlyIn.when (State.ltxApplyOf_onlyIn hk hl h_ltx) (fun u hu => ?_)) hk
    exact State.patApply_onlyIn (State.wr_onlyIn hu h_ltx) h_ltx
  · refine OnlyIn.cond (State.hifApplyOf_onlyIn hk ?_ h_hif) hk
    intro f hf
    obtain ⟨e, he, rfl⟩ := List.mem_map.mp hf
    exact hl e (List.mem_filter.mp he).1

theorem lrxPresetVals_block (v : Nat) : ∀ e ∈ lrxPresetVals v, e.1.desc.block = .lrx := by
  intro e he
  by_cases h : v = 3
  · simp only [lrxPresetVals, h, if_true, List.mem_append, List.mem_cons, List.not_mem_nil, or_false] at he
    rcases he with (rfl | rfl) | rfl | rfl | rfl | rfl | rfl <;> rfl
  · simp only [lrxPresetVals, h, if_false, List.mem_append, List.mem_cons, List.not_mem_nil, or_false] at he
    rcases he with (rfl | rfl) | rfl | rfl | rfl | rfl | rfl <;> rfl

theorem leqPresetVals_block (v : Nat) : ∀ e ∈ leqPresetVals v, e.1.desc.block = .leq := by
  intro e he
  simp only [leqPresetVals, List.mem_cons, List.not_mem_nil, or_false] at he
  rcases he with rfl | rfl | rfl | rfl | rfl | rfl | rfl | rfl | rfl <;> rfl

theorem hifPresetVals_block (v : Nat) : ∀ e ∈ hifPresetVals v, e.1.desc.block = .hif := by
  intro e he
  unfold hifPresetVals at he
  split at he <;> simp only [List.mem_cons, List.not_mem_nil, or_false] at he <;>
    rcases he with rfl | rfl | rfl | rfl | rfl | rfl <;> rfl

theorem State.presetWrite_onlyIn {l : List Block} {r s : State} {b : PresetBlock} {n v : Nat} (hk : OnlyIn l r s)
    (h_hif : Block.hif ∈ l) (h_hltLn : Block.hltLn ∈ l) (h_leq : Block.leq ∈ l) (h_lrx : Block.lrx ∈ l) (h_ltx : Block.ltx ∈ l) :
    OnlyIn l r (s.presetWrite b n v) := by
  have own : ∀ (c p : Field) (w : Nat) (k : List (Field × Nat)), c.desc.block = presetBlock b → p.desc.block = presetBlock b →
      (∀ e ∈ k, e.1.desc.block = presetBlock b) → presetBlock b ∈ l →
      OnlyIn l r ((s.puts ((c, 0) :: (p, w) :: k) n).configSettle b n (((p, w) :: k).map (fun e => (e.1, 0)))) := by
    intro c p w k hc hp hb hm
    apply State.configSettle_onlyIn
    · refine State.puts_onlyIn hk (fun e he => ?_)
      rcases List.mem_cons.mp he with rfl | he
      · exact hc ▸ hm
      · rcases List.mem_cons.mp he with rfl | he
        · exact hp ▸ hm
        · exact hb e he ▸ hm
    · intro e he
      obtain ⟨g, hg, rfl⟩ := List.mem_map.mp he
      rcases List.mem_cons.mp hg with rfl | hg
      · exact hp
      · exact hb g hg
    all_goals assumption
  unfold State.presetWrite
  cases b
  · exact own _ _ _ _ rfl rfl (lrxPresetVals_block v) h_lrx
  · exact own _ _ _ _ rfl rfl (leqPresetVals_block v) h_leq
  · dsimp only
    apply State.configSettle_onlyIn
    · with_reducible apply OnlyIn.each
      · apply State.puts_onlyIn hk
        intro e he
        simp only [List.mem_cons, List.not_mem_nil, or_false] at he
        rcases he with rfl | rfl | rfl | rfl <;> exact h_ltx
      · intro i u hu
        exact State.wr_onlyIn hu h_ltx
    · intro e he
      simp only [List.mem_append, List.mem_cons, List.not_mem_nil, or_false, List.mem_map] at he
      rcases he with (rfl | rfl) | ⟨i, _, rfl⟩ <;> rfl
    all_goals assumption
  · exact own _ _ _ _ rfl rfl (hifPresetVals_block _) h_hif

theorem execPresetWrite_onlyIn {l : List Block} {r : State} {b : PresetBlock} {n : HostLane} {v : BitVec 2} {s : State} (hk : OnlyIn l r s) (h_clk : Block.clk ∈ l) (h_glb : Block.glb ∈ l) (h_hif : Block.hif ∈ l) (h_hltLn : Block.hltLn ∈ l) (h_leq : Block.leq ∈ l) (h_lrx : Block.lrx ∈ l) (h_ltx : Block.ltx ∈ l) :
    OutOnlyIn l r (execPresetWrite b n v s) := by
  unfold execPresetWrite
  repeat' first
    | intro _
    | (with_reducible first | assumption | exact OnlyIn.refl _ _ | apply OutOnlyIn.next | apply State.access_onlyIn | apply State.presetWrite_onlyIn | apply OutOnlyIn.cond | apply OnlyIn.cond)
    | extract_lets | dsimp only | split | exact h_clk | exact h_glb | exact h_hif | exact h_hltLn | exact h_leq | exact h_lrx | exact h_ltx

theorem State.expertMark_onlyIn {l : List Block} {r s : State} {n : Nat} (hk : OnlyIn l r s) (h_ltx : Block.ltx ∈ l) :
    OnlyIn l r (s.expertMark .ltxFirTap n) := State.setMask_onlyIn hk h_ltx

end Sys2Proof.Machine
end

