-- ==== Sys2Proof/Laws/OnlyFraming.lean ====
section
/-!
SUPPORT. Which blocks the operations of Framing change.
-/
set_option Elab.async false
set_option linter.all false
namespace Sys2Proof.Machine

theorem State.negApply_onlyIn {l : List Block} {r : State} {s : State} {n : Nat} (hk : OnlyIn l r s) (h_lfr : Block.lfr ∈ l) (h_timLn : Block.timLn ∈ l) :
    OnlyIn l r (State.negApply s n) := by
  unfold State.negApply
  repeat' first
    | intro _
    | (with_reducible first | assumption | exact OnlyIn.refl _ _ | apply State.exchClear_onlyIn | apply State.wr_onlyIn | apply OnlyIn.puts_cons | apply OnlyIn.puts_nil | apply OnlyIn.when | apply OnlyIn.cond)
    | extract_lets | dsimp only | split | exact h_lfr | exact h_timLn

theorem State.precodeApply_onlyIn {l : List Block} {r : State} {s : State} {n : Nat} (hk : OnlyIn l r s) (h_ltx : Block.ltx ∈ l) :
    OnlyIn l r (State.precodeApply s n) := by
  unfold State.precodeApply
  repeat' first
    | intro _
    | (with_reducible first | assumption | exact OnlyIn.refl _ _ | apply State.wrb_onlyIn)
    | extract_lets | exact h_ltx

theorem State.setNegResult_onlyIn {l : List Block} {r : State} {s : State} {n w : Nat} (hk : OnlyIn l r s) (h_lfr : Block.lfr ∈ l) :
    OnlyIn l r (State.setNegResult s n w) := by
  unfold State.setNegResult
  repeat' first
    | intro _
    | (with_reducible first | assumption | exact OnlyIn.refl _ _ | apply State.wr_onlyIn | apply OnlyIn.puts_cons | apply OnlyIn.puts_nil)
    | extract_lets | exact h_lfr

theorem State.negFail_onlyIn {l : List Block} {r : State} {s : State} {n err : Nat} (hk : OnlyIn l r s) (h_lfr : Block.lfr ∈ l) :
    OnlyIn l r (State.negFail s n err) := by
  unfold State.negFail
  repeat' first
    | intro _
    | (with_reducible first | assumption | exact OnlyIn.refl _ _ | apply State.raise_onlyIn | apply State.svcSend_onlyIn | apply State.wr_onlyIn | apply OnlyIn.puts_cons | apply OnlyIn.puts_nil)
    | extract_lets | exact h_lfr

theorem State.negStart_onlyIn {l : List Block} {r : State} {s : State} {n state : Nat} (hk : OnlyIn l r s) (h_lfr : Block.lfr ∈ l) :
    OnlyIn l r (State.negStart s n state) := by
  unfold State.negStart
  repeat' first
    | intro _
    | (with_reducible first | assumption | exact OnlyIn.refl _ _ | apply State.svcSend_onlyIn | apply State.wr_onlyIn | apply OnlyIn.puts_cons | apply OnlyIn.puts_nil)
    | extract_lets | exact h_lfr

theorem State.negBegin_onlyIn {l : List Block} {r : State} {s : State} {n : Nat} (hk : OnlyIn l r s) (h_lfr : Block.lfr ∈ l) :
    OnlyIn l r (State.negBegin s n) := by
  unfold State.negBegin
  repeat' first
    | intro _
    | (with_reducible first | assumption | exact OnlyIn.refl _ _ | apply State.wr_onlyIn | apply State.negStart_onlyIn | apply OnlyIn.puts_cons | apply OnlyIn.puts_nil | apply OnlyIn.when | apply OnlyIn.cond)
    | extract_lets | dsimp only | split | exact h_lfr

theorem State.negRetry_onlyIn {l : List Block} {r : State} {s : State} {n err : Nat} (hk : OnlyIn l r s) (h_lfr : Block.lfr ∈ l) :
    OnlyIn l r (State.negRetry s n err).1 := by
  unfold State.negRetry
  repeat' first
    | intro _
    | (with_reducible first | assumption | exact OnlyIn.refl _ _ | apply State.wr_onlyIn | apply State.negStart_onlyIn | apply State.negFail_onlyIn | apply OnlyIn.cond | apply OnlyIn.cond)
    | extract_lets | split | exact h_lfr

theorem State.trainEnter_onlyIn {l : List Block} {r : State} {s : State} {n : Nat} (hk : OnlyIn l r s) (h_evf : Block.evf ∈ l) (h_hifGlb : Block.hifGlb ∈ l) (h_leq : Block.leq ∈ l) (h_lfr : Block.lfr ∈ l) (h_lrx : Block.lrx ∈ l) (h_mgt : Block.mgt ∈ l) (h_pwrLn : Block.pwrLn ∈ l) (h_timLn : Block.timLn ∈ l) :
    OnlyIn l r (State.trainEnter s n) := by
  unfold State.trainEnter
  repeat' first
    | intro _
    | (with_reducible first | assumption | exact OnlyIn.refl _ _ | apply State.lrxSet_onlyIn | apply State.svcDrop_onlyIn | apply State.leqFollow_onlyIn | apply State.negBegin_onlyIn | apply State.wr_onlyIn | apply OnlyIn.puts_cons | apply OnlyIn.puts_nil | apply OnlyIn.when)
    | extract_lets | dsimp only | exact h_evf | exact h_hifGlb | exact h_leq | exact h_lfr | exact h_lrx | exact h_mgt | exact h_pwrLn | exact h_timLn

theorem State.renegNow_onlyIn {l : List Block} {r : State} {s : State} {n : Nat} {reason : Option Nat} (hk : OnlyIn l r s) (h_evf : Block.evf ∈ l) (h_hif : Block.hif ∈ l) (h_hifGlb : Block.hifGlb ∈ l) (h_hltLn : Block.hltLn ∈ l) (h_leq : Block.leq ∈ l) (h_lfr : Block.lfr ∈ l) (h_lrx : Block.lrx ∈ l) (h_mgt : Block.mgt ∈ l) (h_pwrLn : Block.pwrLn ∈ l) (h_timLn : Block.timLn ∈ l) :
    OnlyIn l r (State.renegNow s n reason) := by
  unfold State.renegNow
  repeat' first
    | intro _
    | (with_reducible first | assumption | exact OnlyIn.refl _ _ | apply State.profAbort_onlyIn | apply State.svcSend_onlyIn | apply State.lfrLatch_onlyIn | apply State.setGroupMode_onlyIn | apply State.lrxWaitSd_onlyIn | apply State.lrxSet_onlyIn | apply State.leqFollow_onlyIn | apply State.negBegin_onlyIn | apply State.wr_onlyIn | apply OnlyIn.puts_cons | apply OnlyIn.puts_nil | apply OnlyIn.each | apply OnlyIn.when | apply OnlyIn.cond)
    | extract_lets | dsimp only | split | exact h_evf | exact h_hif | exact h_hifGlb | exact h_hltLn | exact h_leq | exact h_lfr | exact h_lrx | exact h_mgt | exact h_pwrLn | exact h_timLn

theorem State.modeRestart_onlyIn {l : List Block} {r : State} {s : State} {n : Nat} (hk : OnlyIn l r s) (h_evf : Block.evf ∈ l) (h_hifGlb : Block.hifGlb ∈ l) (h_hltLn : Block.hltLn ∈ l) (h_leq : Block.leq ∈ l) (h_lfr : Block.lfr ∈ l) (h_lrx : Block.lrx ∈ l) (h_mgt : Block.mgt ∈ l) (h_pwrLn : Block.pwrLn ∈ l) (h_timLn : Block.timLn ∈ l) :
    OnlyIn l r (State.modeRestart s n) := by
  unfold State.modeRestart
  repeat' first
    | intro _
    | (with_reducible first | assumption | exact OnlyIn.refl _ _ | apply State.lrxWaitSd_onlyIn | apply State.lrxStartAgc_onlyIn | apply OnlyIn.each | apply OnlyIn.cond)
    | extract_lets | dsimp only | split | exact h_evf | exact h_hifGlb | exact h_hltLn | exact h_leq | exact h_lfr | exact h_lrx | exact h_mgt | exact h_pwrLn | exact h_timLn

theorem State.negDone_onlyIn {l : List Block} {r : State} {s : State} {n w : Nat} (hk : OnlyIn l r s) (h_evf : Block.evf ∈ l) (h_hif : Block.hif ∈ l) (h_hifGlb : Block.hifGlb ∈ l) (h_hltLn : Block.hltLn ∈ l) (h_leq : Block.leq ∈ l) (h_lfr : Block.lfr ∈ l) (h_lrx : Block.lrx ∈ l) (h_mgt : Block.mgt ∈ l) (h_pwrLn : Block.pwrLn ∈ l) (h_timLn : Block.timLn ∈ l) :
    OnlyIn l r (State.negDone s n w) := by
  unfold State.negDone
  repeat' first
    | intro _
    | (with_reducible first | assumption | exact OnlyIn.refl _ _ | apply State.setNegResult_onlyIn | apply State.wr_onlyIn | apply State.raise_onlyIn | apply State.emit_onlyIn | apply State.renegNow_onlyIn | apply State.setGroupMode_onlyIn | apply State.modeRestart_onlyIn | apply State.trainToLocked_onlyIn | apply OnlyIn.each | apply OnlyIn.cond)
    | extract_lets | dsimp only | split | exact h_evf | exact h_hif | exact h_hifGlb | exact h_hltLn | exact h_leq | exact h_lfr | exact h_lrx | exact h_mgt | exact h_pwrLn | exact h_timLn

theorem State.negCheck_onlyIn {l : List Block} {r : State} {s : State} {n : Nat} (hk : OnlyIn l r s) (h_evf : Block.evf ∈ l) (h_hif : Block.hif ∈ l) (h_hifGlb : Block.hifGlb ∈ l) (h_hltLn : Block.hltLn ∈ l) (h_leq : Block.leq ∈ l) (h_lfr : Block.lfr ∈ l) (h_lrx : Block.lrx ∈ l) (h_mgt : Block.mgt ∈ l) (h_pwrLn : Block.pwrLn ∈ l) (h_timLn : Block.timLn ∈ l) :
    OnlyIn l r (State.negCheck s n) := by
  unfold State.negCheck
  repeat' first
    | intro _
    | (with_reducible first | assumption | exact OnlyIn.refl _ _ | apply State.negRetry_onlyIn | apply State.negDone_onlyIn | apply OnlyIn.cond)
    | extract_lets | dsimp only | split | exact h_evf | exact h_hif | exact h_hifGlb | exact h_hltLn | exact h_leq | exact h_lfr | exact h_lrx | exact h_mgt | exact h_pwrLn | exact h_timLn

theorem State.negPage_onlyIn {l : List Block} {r : State} {s : State} {n : Nat} (hk : OnlyIn l r s) (h_evf : Block.evf ∈ l) (h_hif : Block.hif ∈ l) (h_hifGlb : Block.hifGlb ∈ l) (h_hltLn : Block.hltLn ∈ l) (h_leq : Block.leq ∈ l) (h_lfr : Block.lfr ∈ l) (h_lrx : Block.lrx ∈ l) (h_mgt : Block.mgt ∈ l) (h_pwrLn : Block.pwrLn ∈ l) (h_timLn : Block.timLn ∈ l) :
    OnlyIn l r (State.negPage s n) := by
  unfold State.negPage
  repeat' first
    | intro _
    | (with_reducible first | assumption | exact OnlyIn.refl _ _ | apply State.negFail_onlyIn | apply State.svcSend_onlyIn | apply State.negCheck_onlyIn | apply State.wr_onlyIn | apply OnlyIn.puts_cons | apply OnlyIn.puts_nil)
    | extract_lets | dsimp only | split | exact h_evf | exact h_hif | exact h_hifGlb | exact h_hltLn | exact h_leq | exact h_lfr | exact h_lrx | exact h_mgt | exact h_pwrLn | exact h_timLn

theorem State.frameLock_onlyIn {l : List Block} {r : State} {s : State} {n : Nat} (hk : OnlyIn l r s) (h_evf : Block.evf ∈ l) (h_hif : Block.hif ∈ l) (h_hifGlb : Block.hifGlb ∈ l) (h_leq : Block.leq ∈ l) (h_lfr : Block.lfr ∈ l) (h_lrx : Block.lrx ∈ l) (h_mgt : Block.mgt ∈ l) (h_pwrLn : Block.pwrLn ∈ l) (h_timLn : Block.timLn ∈ l) :
    OnlyIn l r (State.frameLock s n) := by
  unfold State.frameLock
  repeat' first
    | intro _
    | (with_reducible first | assumption | exact OnlyIn.refl _ _ | apply State.raise_onlyIn | apply State.setGroupMode_onlyIn | apply State.trainEnter_onlyIn | apply State.wr_onlyIn | apply OnlyIn.puts_cons | apply OnlyIn.puts_nil | apply OnlyIn.when)
    | extract_lets | dsimp only | exact h_evf | exact h_hif | exact h_hifGlb | exact h_leq | exact h_lfr | exact h_lrx | exact h_mgt | exact h_pwrLn | exact h_timLn

theorem State.uiStart_onlyIn {l : List Block} {r : State} {s : State} {n : Nat} (hk : OnlyIn l r s) (h_lfr : Block.lfr ∈ l) :
    OnlyIn l r (State.uiStart s n) := by
  unfold State.uiStart
  repeat' first
    | intro _
    | (with_reducible first | assumption | exact OnlyIn.refl _ _ | apply State.wr_onlyIn | apply OnlyIn.puts_cons | apply OnlyIn.puts_nil)
    | extract_lets | dsimp only
    | (with_reducible first | apply OnlyIn.other)
    | exact h_lfr

theorem State.shadowTake_onlyIn {l : List Block} {r : State} {s : State} {n pos count m arrival : Nat} (hk : OnlyIn l r s) (h_evf : Block.evf ∈ l) (h_hif : Block.hif ∈ l) (h_hifGlb : Block.hifGlb ∈ l) (h_leq : Block.leq ∈ l) (h_lfr : Block.lfr ∈ l) (h_lrx : Block.lrx ∈ l) (h_mgt : Block.mgt ∈ l) (h_pwrLn : Block.pwrLn ∈ l) (h_timLn : Block.timLn ∈ l) :
    OnlyIn l r (State.shadowTake s n pos count m arrival) := by
  unfold State.shadowTake
  repeat' first
    | intro _
    | (with_reducible first | assumption | exact OnlyIn.refl _ _ | apply State.wr_onlyIn | apply State.uiStart_onlyIn | apply State.bump_onlyIn | apply State.raise_onlyIn | apply State.frameLock_onlyIn | apply OnlyIn.puts_cons | apply OnlyIn.puts_nil | apply OnlyIn.cond)
    | extract_lets | split | exact h_evf | exact h_hif | exact h_hifGlb | exact h_leq | exact h_lfr | exact h_lrx | exact h_mgt | exact h_pwrLn | exact h_timLn

theorem State.frameLoss_onlyIn {l : List Block} {r : State} {s : State} {n arrival : Nat} (hk : OnlyIn l r s) (h_evf : Block.evf ∈ l) (h_hif : Block.hif ∈ l) (h_hifGlb : Block.hifGlb ∈ l) (h_hlt : Block.hlt ∈ l) (h_hltLn : Block.hltLn ∈ l) (h_leq : Block.leq ∈ l) (h_lfr : Block.lfr ∈ l) (h_lrx : Block.lrx ∈ l) (h_mgt : Block.mgt ∈ l) (h_pwrLn : Block.pwrLn ∈ l) (h_timLn : Block.timLn ∈ l) :
    OnlyIn l r (State.frameLoss s n arrival) := by
  unfold State.frameLoss
  repeat' first
    | intro _
    | (with_reducible first | assumption | exact OnlyIn.refl _ _ | apply State.bump_onlyIn | apply State.raise_onlyIn | apply State.reacquire_onlyIn | apply State.lrxAcquireAt_onlyIn | apply State.wr_onlyIn | apply State.shadowTake_onlyIn | apply OnlyIn.when | apply OnlyIn.cond)
    | extract_lets | dsimp only | split | exact h_evf | exact h_hif | exact h_hifGlb | exact h_hlt | exact h_hltLn | exact h_leq | exact h_lfr | exact h_lrx | exact h_mgt | exact h_pwrLn | exact h_timLn

theorem execMarkerCandidate_onlyIn {l : List Block} {r : State} {n : Lane} {pos : BitVec 19} {bits : BitVec 256} {s : State} (hk : OnlyIn l r s) (h_lfr : Block.lfr ∈ l) :
    OutOnlyIn l r (execMarkerCandidate n pos bits s) := by
  unfold execMarkerCandidate
  repeat' first
    | intro _
    | (with_reducible first | assumption | exact OnlyIn.refl _ _ | apply OutOnlyIn.next | apply State.wr_onlyIn | apply OnlyIn.puts_cons | apply OnlyIn.puts_nil | apply OutOnlyIn.cond | apply OnlyIn.cond)
    | extract_lets | split | exact h_lfr

theorem execFrameMarkerCheck_onlyIn {l : List Block} {r : State} {n : Lane} {shadow : Bool} {bits : BitVec 256} {ago : BitVec 20} {s : State} (hk : OnlyIn l r s) (h_evf : Block.evf ∈ l) (h_hif : Block.hif ∈ l) (h_hifGlb : Block.hifGlb ∈ l) (h_hlt : Block.hlt ∈ l) (h_hltLn : Block.hltLn ∈ l) (h_leq : Block.leq ∈ l) (h_lfr : Block.lfr ∈ l) (h_lrx : Block.lrx ∈ l) (h_mgt : Block.mgt ∈ l) (h_pwrLn : Block.pwrLn ∈ l) (h_timLn : Block.timLn ∈ l) :
    OutOnlyIn l r (execFrameMarkerCheck n shadow bits ago s) := by
  unfold execFrameMarkerCheck
  repeat' first
    | intro _
    | (with_reducible first | assumption | exact OnlyIn.refl _ _ | apply OutOnlyIn.next | apply State.wr_onlyIn | apply State.uiStart_onlyIn | apply State.frameLock_onlyIn | apply State.bump_onlyIn | apply State.frameLoss_onlyIn | apply OnlyIn.puts_cons | apply OnlyIn.puts_nil | apply OutOnlyIn.cond | apply OnlyIn.cond)
    | extract_lets | split | exact h_evf | exact h_hif | exact h_hifGlb | exact h_hlt | exact h_hltLn | exact h_leq | exact h_lfr | exact h_lrx | exact h_mgt | exact h_pwrLn | exact h_timLn

theorem State.contentIn_onlyIn {l : List Block} {r : State} {s : State} {n : Nat} {c : List Nat} {arrival : Option Nat} (hk : OnlyIn l r s) (h_lfr : Block.lfr ∈ l) (h_timLn : Block.timLn ∈ l) :
    OnlyIn l r (State.contentIn s n c arrival) := by
  unfold State.contentIn
  repeat' first
    | intro _
    | (with_reducible first | assumption | exact OnlyIn.refl _ _ | apply State.wr_onlyIn | apply State.raise_onlyIn | apply State.bump_onlyIn | apply State.wrb_onlyIn | apply State.icrisIn_onlyIn | apply OnlyIn.when | apply OnlyIn.cond | apply OptOnlyIn.getD)
    | extract_lets | dsimp only | split | exact h_lfr | exact h_timLn

theorem execServiceFrameReceived_onlyIn {l : List Block} {r : State} {n : Lane} {bits : BitVec 3840} {s : State} (hk : OnlyIn l r s) (h_lfr : Block.lfr ∈ l) (h_timLn : Block.timLn ∈ l) :
    OutOnlyIn l r (execServiceFrameReceived n bits s) := by
  unfold execServiceFrameReceived
  repeat' first
    | intro _
    | (with_reducible first | assumption | exact OnlyIn.refl _ _ | apply OutOnlyIn.next | apply State.wr_onlyIn | apply State.bump_onlyIn | apply State.raise_onlyIn | apply State.contentIn_onlyIn | apply OutOnlyIn.cond | apply OnlyIn.cond | apply OnlyIn.cond_snd)
    | extract_lets | dsimp only | split | exact h_lfr | exact h_timLn

theorem State.msgTake_onlyIn {l : List Block} {r : State} {s : State} {n : Nat} {seq : Nat} {g : State → State} (hk : OnlyIn l r s) (h_lfr : Block.lfr ∈ l) (hgg : ∀ u, OnlyIn l r u → OnlyIn l r (g u)) :
    OnlyIn l r (State.msgTake s n seq g) := by
  unfold State.msgTake
  repeat' first
    | intro _
    | (with_reducible first | apply hgg | assumption | exact OnlyIn.refl _ _ | apply State.wr_onlyIn | apply OnlyIn.cond)
    | extract_lets | split | exact h_lfr

theorem State.msgAcked_onlyIn {l : List Block} {r : State} {s : State} {n ack : Nat} (hk : OnlyIn l r s) (h_evf : Block.evf ∈ l) (h_hif : Block.hif ∈ l) (h_hifGlb : Block.hifGlb ∈ l) (h_hltLn : Block.hltLn ∈ l) (h_leq : Block.leq ∈ l) (h_lfr : Block.lfr ∈ l) (h_lrx : Block.lrx ∈ l) (h_mgt : Block.mgt ∈ l) (h_pwrLn : Block.pwrLn ∈ l) (h_timLn : Block.timLn ∈ l) :
    OnlyIn l r (State.msgAcked s n ack) := by
  unfold State.msgAcked
  repeat' first
    | intro _
    | (with_reducible first | assumption | exact OnlyIn.refl _ _ | apply State.wr_onlyIn | apply State.svcSend_onlyIn | apply State.negCheck_onlyIn | apply State.asymFollow_onlyIn | apply OnlyIn.puts_cons | apply OnlyIn.puts_nil | apply OnlyIn.cond)
    | extract_lets | dsimp only | split
    | (with_reducible first | apply OnlyIn.other)
    | exact h_evf | exact h_hif | exact h_hifGlb | exact h_hltLn | exact h_leq | exact h_lfr | exact h_lrx | exact h_mgt | exact h_pwrLn | exact h_timLn

theorem execMsgAckRx_onlyIn {l : List Block} {r : State} {n : Lane} {ack : BitVec 8} {s : State} (hk : OnlyIn l r s) (h_evf : Block.evf ∈ l) (h_hif : Block.hif ∈ l) (h_hifGlb : Block.hifGlb ∈ l) (h_hltLn : Block.hltLn ∈ l) (h_leq : Block.leq ∈ l) (h_lfr : Block.lfr ∈ l) (h_lrx : Block.lrx ∈ l) (h_mgt : Block.mgt ∈ l) (h_pwrLn : Block.pwrLn ∈ l) (h_timLn : Block.timLn ∈ l) :
    OutOnlyIn l r (execMsgAckRx n ack s) := by
  unfold execMsgAckRx
  repeat' first
    | intro _
    | (with_reducible first | assumption | exact OnlyIn.refl _ _ | apply OutOnlyIn.next | apply State.msgAcked_onlyIn)
    | extract_lets | exact h_evf | exact h_hif | exact h_hifGlb | exact h_hltLn | exact h_leq | exact h_lfr | exact h_lrx | exact h_mgt | exact h_pwrLn | exact h_timLn

theorem State.rxAbility_onlyIn {l : List Block} {r : State} {s : State} {n page : Nat} (hk : OnlyIn l r s) (h_evf : Block.evf ∈ l) (h_hif : Block.hif ∈ l) (h_hifGlb : Block.hifGlb ∈ l) (h_hltLn : Block.hltLn ∈ l) (h_leq : Block.leq ∈ l) (h_lfr : Block.lfr ∈ l) (h_lrx : Block.lrx ∈ l) (h_mgt : Block.mgt ∈ l) (h_pwrLn : Block.pwrLn ∈ l) (h_timLn : Block.timLn ∈ l) :
    OnlyIn l r (State.rxAbility s n page) := by
  unfold State.rxAbility
  repeat' first
    | intro _
    | (with_reducible first | assumption | exact OnlyIn.refl _ _ | apply State.wr_onlyIn | apply State.negPage_onlyIn | apply State.negRetry_onlyIn | apply OnlyIn.each | apply OnlyIn.cond | apply OnlyIn.cond_snd)
    | extract_lets | dsimp only | split | exact h_evf | exact h_hif | exact h_hifGlb | exact h_hltLn | exact h_leq | exact h_lfr | exact h_lrx | exact h_mgt | exact h_pwrLn | exact h_timLn

theorem execMsgAbilityRx_onlyIn {l : List Block} {r : State} {n : Lane} {seq : BitVec 8} {page : BitVec 128} {s : State} (hk : OnlyIn l r s) (h_evf : Block.evf ∈ l) (h_hif : Block.hif ∈ l) (h_hifGlb : Block.hifGlb ∈ l) (h_hltLn : Block.hltLn ∈ l) (h_leq : Block.leq ∈ l) (h_lfr : Block.lfr ∈ l) (h_lrx : Block.lrx ∈ l) (h_mgt : Block.mgt ∈ l) (h_pwrLn : Block.pwrLn ∈ l) (h_timLn : Block.timLn ∈ l) :
    OutOnlyIn l r (execMsgAbilityRx n seq page s) := by
  unfold execMsgAbilityRx
  repeat' first
    | intro _
    | (with_reducible first | assumption | exact OnlyIn.refl _ _ | apply OutOnlyIn.next | apply State.msgTake_onlyIn | apply State.rxAbility_onlyIn)
    | extract_lets | dsimp only | exact h_evf | exact h_hif | exact h_hifGlb | exact h_hltLn | exact h_leq | exact h_lfr | exact h_lrx | exact h_mgt | exact h_pwrLn | exact h_timLn

theorem State.rxConfirm_onlyIn {l : List Block} {r : State} {s : State} {n w : Nat} (hk : OnlyIn l r s) (h_evf : Block.evf ∈ l) (h_hif : Block.hif ∈ l) (h_hifGlb : Block.hifGlb ∈ l) (h_hltLn : Block.hltLn ∈ l) (h_leq : Block.leq ∈ l) (h_lfr : Block.lfr ∈ l) (h_lrx : Block.lrx ∈ l) (h_mgt : Block.mgt ∈ l) (h_pwrLn : Block.pwrLn ∈ l) (h_timLn : Block.timLn ∈ l) :
    OnlyIn l r (State.rxConfirm s n w) := by
  unfold State.rxConfirm
  repeat' first
    | intro _
    | (with_reducible first | assumption | exact OnlyIn.refl _ _ | apply State.negCheck_onlyIn | apply State.wr_onlyIn | apply OnlyIn.puts_cons | apply OnlyIn.puts_nil | apply OnlyIn.cond)
    | extract_lets | split | exact h_evf | exact h_hif | exact h_hifGlb | exact h_hltLn | exact h_leq | exact h_lfr | exact h_lrx | exact h_mgt | exact h_pwrLn | exact h_timLn

theorem execMsgConfirmRx_onlyIn {l : List Block} {r : State} {n : Lane} {seq : BitVec 8} {result : BitVec 32} {s : State} (hk : OnlyIn l r s) (h_evf : Block.evf ∈ l) (h_hif : Block.hif ∈ l) (h_hifGlb : Block.hifGlb ∈ l) (h_hltLn : Block.hltLn ∈ l) (h_leq : Block.leq ∈ l) (h_lfr : Block.lfr ∈ l) (h_lrx : Block.lrx ∈ l) (h_mgt : Block.mgt ∈ l) (h_pwrLn : Block.pwrLn ∈ l) (h_timLn : Block.timLn ∈ l) :
    OutOnlyIn l r (execMsgConfirmRx n seq result s) := by
  unfold execMsgConfirmRx
  repeat' first
    | intro _
    | (with_reducible first | assumption | exact OnlyIn.refl _ _ | apply OutOnlyIn.next | apply State.msgTake_onlyIn | apply State.rxConfirm_onlyIn)
    | extract_lets | dsimp only | exact h_evf | exact h_hif | exact h_hifGlb | exact h_hltLn | exact h_leq | exact h_lfr | exact h_lrx | exact h_mgt | exact h_pwrLn | exact h_timLn

theorem State.rxReneg_onlyIn {l : List Block} {r : State} {s : State} {n : Nat} (hk : OnlyIn l r s) (h_evf : Block.evf ∈ l) (h_hif : Block.hif ∈ l) (h_hifGlb : Block.hifGlb ∈ l) (h_hltLn : Block.hltLn ∈ l) (h_leq : Block.leq ∈ l) (h_lfr : Block.lfr ∈ l) (h_lrx : Block.lrx ∈ l) (h_mgt : Block.mgt ∈ l) (h_pwrLn : Block.pwrLn ∈ l) (h_timLn : Block.timLn ∈ l) :
    OnlyIn l r (State.rxReneg s n) := by
  unfold State.rxReneg
  repeat' first
    | intro _
    | (with_reducible first | assumption | exact OnlyIn.refl _ _ | apply State.bump_onlyIn | apply State.raise_onlyIn | apply State.renegNow_onlyIn | apply OnlyIn.cond)
    | extract_lets | split | exact h_evf | exact h_hif | exact h_hifGlb | exact h_hltLn | exact h_leq | exact h_lfr | exact h_lrx | exact h_mgt | exact h_pwrLn | exact h_timLn

theorem execMsgRenegRx_onlyIn {l : List Block} {r : State} {n : Lane} {seq : BitVec 8} {_reason : BitVec 8} {s : State} (hk : OnlyIn l r s) (h_evf : Block.evf ∈ l) (h_hif : Block.hif ∈ l) (h_hifGlb : Block.hifGlb ∈ l) (h_hltLn : Block.hltLn ∈ l) (h_leq : Block.leq ∈ l) (h_lfr : Block.lfr ∈ l) (h_lrx : Block.lrx ∈ l) (h_mgt : Block.mgt ∈ l) (h_pwrLn : Block.pwrLn ∈ l) (h_timLn : Block.timLn ∈ l) :
    OutOnlyIn l r (execMsgRenegRx n seq _reason s) := by
  unfold execMsgRenegRx
  repeat' first
    | intro _
    | (with_reducible first | assumption | exact OnlyIn.refl _ _ | apply OutOnlyIn.next | apply State.msgTake_onlyIn | apply State.rxReneg_onlyIn)
    | extract_lets | dsimp only | exact h_evf | exact h_hif | exact h_hifGlb | exact h_hltLn | exact h_leq | exact h_lfr | exact h_lrx | exact h_mgt | exact h_pwrLn | exact h_timLn

theorem State.profOpen_onlyIn {l : List Block} {r : State} {s : State} {n prof : Nat} {forced : Bool} (hk : OnlyIn l r s) (h_lfr : Block.lfr ∈ l) :
    OnlyIn l r (State.profOpen s n prof forced) := by
  unfold State.profOpen
  repeat' first
    | intro _
    | (with_reducible first | assumption | exact OnlyIn.refl _ _ | apply State.svcSend_onlyIn | apply State.wr_onlyIn | apply OnlyIn.puts_cons | apply OnlyIn.puts_nil)
    | extract_lets | exact h_lfr

theorem State.profChangeNow_onlyIn {l : List Block} {r : State} {s : State} {n : Nat} (hk : OnlyIn l r s) (h_evf : Block.evf ∈ l) (h_lfr : Block.lfr ∈ l) :
    OnlyIn l r (State.profChangeNow s n) := by
  unfold State.profChangeNow
  repeat' first
    | intro _
    | (with_reducible first | assumption | exact OnlyIn.refl _ _ | apply State.wr_onlyIn | apply State.raise_onlyIn | apply State.profEnd_onlyIn | apply State.profOpen_onlyIn | apply OnlyIn.puts_cons | apply OnlyIn.puts_nil | apply OnlyIn.cond)
    | extract_lets | dsimp only | split | exact h_evf | exact h_lfr

theorem execProfileChange_onlyIn {l : List Block} {r : State} {n : Lane} {s : State} (hk : OnlyIn l r s) (h_clk : Block.clk ∈ l) (h_evf : Block.evf ∈ l) (h_glb : Block.glb ∈ l) (h_hlt : Block.hlt ∈ l) (h_lfr : Block.lfr ∈ l) :
    OutOnlyIn l r (execProfileChange n s) := by
  unfold execProfileChange
  repeat' first
    | intro _
    | (with_reducible first | assumption | exact OnlyIn.refl _ _ | apply OutOnlyIn.next | apply State.access_onlyIn | apply State.laneService_onlyIn | apply State.profChangeNow_onlyIn)
    | extract_lets | dsimp only | exact h_clk | exact h_evf | exact h_glb | exact h_hlt | exact h_lfr

theorem State.profForce_onlyIn {l : List Block} {r : State} {s : State} {n prof : Nat} (hk : OnlyIn l r s) (h_evf : Block.evf ∈ l) (h_lfr : Block.lfr ∈ l) :
    OptOnlyIn l r (State.profForce s n prof) := by
  unfold State.profForce
  repeat' first
    | intro _
    | (with_reducible first | assumption | exact OnlyIn.refl _ _ | apply State.profAbort_onlyIn | apply State.profOpen_onlyIn | apply State.wr_onlyIn | apply OnlyIn.puts_cons | apply OnlyIn.puts_nil)
    | exact OptOnlyIn.none
    | (with_reducible first | apply OptOnlyIn.some)
    | extract_lets | dsimp only | split | exact h_evf | exact h_lfr

theorem execProfileTimeout_onlyIn {l : List Block} {r : State} {n : Lane} {s : State} (hk : OnlyIn l r s) (h_evf : Block.evf ∈ l) (h_lfr : Block.lfr ∈ l) :
    OutOnlyIn l r (execProfileTimeout n s) := by
  unfold execProfileTimeout
  repeat' first
    | intro _
    | (with_reducible first | assumption | exact OnlyIn.refl _ _ | apply OutOnlyIn.next | apply State.profEnd_onlyIn | apply OutOnlyIn.cond | apply OnlyIn.cond)
    | extract_lets | split | exact h_evf | exact h_lfr

theorem State.profSwitch_onlyIn {l : List Block} {r : State} {s : State} {n : Nat} (hk : OnlyIn l r s) (h_lfr : Block.lfr ∈ l) (h_pwr : Block.pwr ∈ l) :
    OnlyIn l r (State.profSwitch s n) := by
  unfold State.profSwitch
  repeat' first
    | intro _
    | (with_reducible first | assumption | exact OnlyIn.refl _ _ | apply State.wr_onlyIn | apply State.asymFollow_onlyIn | apply State.dvfsKick_onlyIn | apply OnlyIn.puts_cons | apply OnlyIn.puts_nil | apply OnlyIn.when | apply OnlyIn.cond)
    | extract_lets | dsimp only | split | exact h_lfr | exact h_pwr

theorem execProfileSwitch_onlyIn {l : List Block} {r : State} {n : Lane} {s : State} (hk : OnlyIn l r s) (h_lfr : Block.lfr ∈ l) (h_pwr : Block.pwr ∈ l) :
    OutOnlyIn l r (execProfileSwitch n s) := by
  unfold execProfileSwitch
  repeat' first
    | intro _
    | (with_reducible first | assumption | exact OnlyIn.refl _ _ | apply OutOnlyIn.next | apply State.profSwitch_onlyIn)
    | extract_lets | exact h_lfr | exact h_pwr

theorem State.profReleased_onlyIn {l : List Block} {r : State} {s : State} {n : Nat} (hk : OnlyIn l r s) (h_evf : Block.evf ∈ l) (h_lfr : Block.lfr ∈ l) :
    OnlyIn l r (State.profReleased s n) := by
  unfold State.profReleased
  repeat' first
    | intro _
    | (with_reducible first | assumption | exact OnlyIn.refl _ _ | apply State.wr_onlyIn | apply State.profEnd_onlyIn | apply OnlyIn.cond)
    | extract_lets | split | exact h_evf | exact h_lfr

theorem State.rxProfChange_onlyIn {l : List Block} {r : State} {s : State} {n prof txn : Nat} {forced : Bool} (hk : OnlyIn l r s) (h_evf : Block.evf ∈ l) (h_lfr : Block.lfr ∈ l) :
    OnlyIn l r (State.rxProfChange s n prof txn forced) := by
  unfold State.rxProfChange
  repeat' first
    | intro _
    | (with_reducible first | assumption | exact OnlyIn.refl _ _ | apply State.svcSend_onlyIn | apply State.wr_onlyIn | apply State.asymFollow_onlyIn | apply State.profEnd_onlyIn | apply OnlyIn.puts_cons | apply OnlyIn.puts_nil | apply OnlyIn.cond)
    | extract_lets | dsimp only | split | exact h_evf | exact h_lfr

theorem execMsgProfileChangeRx_onlyIn {l : List Block} {r : State} {n : Lane} {seq : BitVec 8} {prof : Fin 3} {forced : Bool} {txn : BitVec 8} {s : State} (hk : OnlyIn l r s) (h_evf : Block.evf ∈ l) (h_lfr : Block.lfr ∈ l) :
    OutOnlyIn l r (execMsgProfileChangeRx n seq prof forced txn s) := by
  unfold execMsgProfileChangeRx
  repeat' first
    | intro _
    | (with_reducible first | assumption | exact OnlyIn.refl _ _ | apply OutOnlyIn.next | apply State.msgTake_onlyIn | apply State.rxProfChange_onlyIn)
    | extract_lets | dsimp only | exact h_evf | exact h_lfr

theorem State.rxProfReply_onlyIn {l : List Block} {r : State} {s : State} {n : Nat} {refuse : Bool} {status txn : Nat} (hk : OnlyIn l r s) (h_evf : Block.evf ∈ l) (h_lfr : Block.lfr ∈ l) :
    OnlyIn l r (State.rxProfReply s n refuse status txn) := by
  unfold State.rxProfReply
  repeat' first
    | intro _
    | (with_reducible first | assumption | exact OnlyIn.refl _ _ | apply State.profEnd_onlyIn | apply State.wr_onlyIn | apply OnlyIn.puts_cons | apply OnlyIn.puts_nil | apply OnlyIn.cond)
    | extract_lets | split | exact h_evf | exact h_lfr

theorem execMsgProfileReplyRx_onlyIn {l : List Block} {r : State} {n : Lane} {seq : BitVec 8} {refuse : Bool} {status : Fin 9} {txn : BitVec 8} {s : State} (hk : OnlyIn l r s) (h_evf : Block.evf ∈ l) (h_lfr : Block.lfr ∈ l) :
    OutOnlyIn l r (execMsgProfileReplyRx n seq refuse status txn s) := by
  unfold execMsgProfileReplyRx
  repeat' first
    | intro _
    | (with_reducible first | assumption | exact OnlyIn.refl _ _ | apply OutOnlyIn.next | apply State.msgTake_onlyIn | apply State.rxProfReply_onlyIn)
    | extract_lets | dsimp only | exact h_evf | exact h_lfr

theorem State.rxTapReq_onlyIn {l : List Block} {r : State} {s : State} {n : Nat} {taps : List Int} (hk : OnlyIn l r s) (h_lfr : Block.lfr ∈ l) (h_ltx : Block.ltx ∈ l) :
    OnlyIn l r (State.rxTapReq s n taps) := by
  unfold State.rxTapReq
  repeat' first
    | intro _
    | (with_reducible first | assumption | exact OnlyIn.refl _ _ | apply State.wrInt_onlyIn | apply State.expertMark_onlyIn | apply State.ltxCommitNow_onlyIn | apply State.svcSend_onlyIn | apply OnlyIn.each | apply OnlyIn.cond | apply OnlyIn.cond_snd)
    | extract_lets | dsimp only | split | exact h_lfr | exact h_ltx

theorem execMsgTxTapReqRx_onlyIn {l : List Block} {r : State} {n : Lane} {seq : BitVec 8} {taps : List Int} {s : State} (hk : OnlyIn l r s) (h_lfr : Block.lfr ∈ l) (h_ltx : Block.ltx ∈ l) :
    OutOnlyIn l r (execMsgTxTapReqRx n seq taps s) := by
  unfold execMsgTxTapReqRx
  repeat' first
    | intro _
    | (with_reducible first | assumption | exact OnlyIn.refl _ _ | apply OutOnlyIn.next | apply State.msgTake_onlyIn | apply State.rxTapReq_onlyIn)
    | extract_lets | dsimp only | exact h_lfr | exact h_ltx

theorem State.rxTapReply_onlyIn {l : List Block} {r : State} {s : State} {n : Nat} {applied : Bool} (hk : OnlyIn l r s) (h_mgt : Block.mgt ∈ l) :
    OnlyIn l r (State.rxTapReply s n applied) := by
  unfold State.rxTapReply
  repeat' first
    | intro _
    | (with_reducible first | assumption | exact OnlyIn.refl _ _ | apply State.wr_onlyIn | apply State.cdbEnd_onlyIn | apply OnlyIn.cond)
    | extract_lets | split | exact h_mgt

theorem execMsgTxTapReplyRx_onlyIn {l : List Block} {r : State} {n : Lane} {seq : BitVec 8} {applied : Bool} {s : State} (hk : OnlyIn l r s) (h_lfr : Block.lfr ∈ l) (h_mgt : Block.mgt ∈ l) :
    OutOnlyIn l r (execMsgTxTapReplyRx n seq applied s) := by
  unfold execMsgTxTapReplyRx
  repeat' first
    | intro _
    | (with_reducible first | assumption | exact OnlyIn.refl _ _ | apply OutOnlyIn.next | apply State.msgTake_onlyIn | apply State.rxTapReply_onlyIn)
    | extract_lets | dsimp only | exact h_lfr | exact h_mgt

theorem execMsgUnknownRx_onlyIn {l : List Block} {r : State} {n : Lane} {seq : BitVec 8} {s : State} (hk : OnlyIn l r s) (h_lfr : Block.lfr ∈ l) :
    OutOnlyIn l r (execMsgUnknownRx n seq s) := by
  unfold execMsgUnknownRx
  repeat' first
    | intro _
    | (with_reducible first | assumption | exact OnlyIn.refl _ _ | apply OutOnlyIn.next | apply State.msgTake_onlyIn | apply State.bump_onlyIn)
    | extract_lets | dsimp only | exact h_lfr

theorem State.rxMessage_onlyIn {l : List Block} {r : State} {s : State} {n type body : Nat} (hk : OnlyIn l r s) (h_evf : Block.evf ∈ l) (h_hif : Block.hif ∈ l) (h_hifGlb : Block.hifGlb ∈ l) (h_hltLn : Block.hltLn ∈ l) (h_leq : Block.leq ∈ l) (h_lfr : Block.lfr ∈ l) (h_lrx : Block.lrx ∈ l) (h_ltx : Block.ltx ∈ l) (h_mgt : Block.mgt ∈ l) (h_pwrLn : Block.pwrLn ∈ l) (h_timLn : Block.timLn ∈ l) :
    OnlyIn l r (State.rxMessage s n type body) := by
  unfold State.rxMessage
  repeat' first
    | intro _
    | (with_reducible first | assumption | exact OnlyIn.refl _ _ | apply State.rxAbility_onlyIn | apply State.rxConfirm_onlyIn | apply State.rxReneg_onlyIn | apply State.rxProfChange_onlyIn | apply State.rxProfReply_onlyIn | apply State.rxTapReq_onlyIn | apply State.rxTapReply_onlyIn | apply State.bump_onlyIn)
    | extract_lets | dsimp only | split | exact h_evf | exact h_hif | exact h_hifGlb | exact h_hltLn | exact h_leq | exact h_lfr | exact h_lrx | exact h_ltx | exact h_mgt | exact h_pwrLn | exact h_timLn

theorem execSideChannelFrameRx_onlyIn {l : List Block} {r : State} {n : Lane} {frame : BitVec 256} {s : State} (hk : OnlyIn l r s) (h_evf : Block.evf ∈ l) (h_hif : Block.hif ∈ l) (h_hifGlb : Block.hifGlb ∈ l) (h_hltLn : Block.hltLn ∈ l) (h_leq : Block.leq ∈ l) (h_lfr : Block.lfr ∈ l) (h_lrx : Block.lrx ∈ l) (h_ltx : Block.ltx ∈ l) (h_mgt : Block.mgt ∈ l) (h_pwrLn : Block.pwrLn ∈ l) (h_timLn : Block.timLn ∈ l) :
    OutOnlyIn l r (execSideChannelFrameRx n frame s) := by
  unfold execSideChannelFrameRx
  repeat' first
    | intro _
    | (with_reducible first | assumption | exact OnlyIn.refl _ _ | apply OutOnlyIn.next | apply State.bump_onlyIn | apply State.wr_onlyIn | apply State.msgAcked_onlyIn | apply State.icrisIn_onlyIn | apply State.msgTake_onlyIn | apply State.rxMessage_onlyIn | apply OutOnlyIn.cond | apply OnlyIn.cond | apply OptOnlyIn.getD)
    | extract_lets | dsimp only | split | exact h_evf | exact h_hif | exact h_hifGlb | exact h_hltLn | exact h_leq | exact h_lfr | exact h_lrx | exact h_ltx | exact h_mgt | exact h_pwrLn | exact h_timLn

theorem execNegTimeout_onlyIn {l : List Block} {r : State} {n : Lane} {s : State} (hk : OnlyIn l r s) (h_lfr : Block.lfr ∈ l) :
    OutOnlyIn l r (execNegTimeout n s) := by
  unfold execNegTimeout
  repeat' first
    | intro _
    | (with_reducible first | assumption | exact OnlyIn.refl _ _ | apply OutOnlyIn.next | apply State.negRetry_onlyIn | apply OutOnlyIn.cond | apply OnlyIn.cond)
    | extract_lets | dsimp only | split | exact h_lfr

theorem execHelloTimeout_onlyIn {l : List Block} {r : State} {n : Lane} {s : State} (hk : OnlyIn l r s) (h_evf : Block.evf ∈ l) (h_hif : Block.hif ∈ l) (h_hifGlb : Block.hifGlb ∈ l) (h_hltLn : Block.hltLn ∈ l) (h_leq : Block.leq ∈ l) (h_lfr : Block.lfr ∈ l) (h_lrx : Block.lrx ∈ l) (h_mgt : Block.mgt ∈ l) (h_pwrLn : Block.pwrLn ∈ l) (h_timLn : Block.timLn ∈ l) :
    OutOnlyIn l r (execHelloTimeout n s) := by
  unfold execHelloTimeout
  repeat' first
    | intro _
    | (with_reducible first | assumption | exact OnlyIn.refl _ _ | apply OutOnlyIn.next | apply State.wr_onlyIn | apply State.svcDrop_onlyIn | apply State.negDone_onlyIn | apply OutOnlyIn.cond | apply OnlyIn.cond)
    | extract_lets | split | exact h_evf | exact h_hif | exact h_hifGlb | exact h_hltLn | exact h_leq | exact h_lfr | exact h_lrx | exact h_mgt | exact h_pwrLn | exact h_timLn

theorem execReneg_onlyIn {l : List Block} {r : State} {n : Lane} {s : State} (hk : OnlyIn l r s) (h_clk : Block.clk ∈ l) (h_evf : Block.evf ∈ l) (h_glb : Block.glb ∈ l) (h_hif : Block.hif ∈ l) (h_hifGlb : Block.hifGlb ∈ l) (h_hlt : Block.hlt ∈ l) (h_hltLn : Block.hltLn ∈ l) (h_leq : Block.leq ∈ l) (h_lfr : Block.lfr ∈ l) (h_lrx : Block.lrx ∈ l) (h_mgt : Block.mgt ∈ l) (h_pwrLn : Block.pwrLn ∈ l) (h_timLn : Block.timLn ∈ l) :
    OutOnlyIn l r (execReneg n s) := by
  unfold execReneg
  repeat' first
    | intro _
    | (with_reducible first | assumption | exact OnlyIn.refl _ _ | apply OutOnlyIn.next | apply State.access_onlyIn | apply State.laneService_onlyIn | apply State.renegNow_onlyIn)
    | extract_lets | dsimp only | exact h_clk | exact h_evf | exact h_glb | exact h_hif | exact h_hifGlb | exact h_hlt | exact h_hltLn | exact h_leq | exact h_lfr | exact h_lrx | exact h_mgt | exact h_pwrLn | exact h_timLn

theorem execLfrCntClr_onlyIn {l : List Block} {r : State} {n : Lane} {s : State} (hk : OnlyIn l r s) (h_clk : Block.clk ∈ l) (h_glb : Block.glb ∈ l) (h_lfr : Block.lfr ∈ l) :
    OutOnlyIn l r (execLfrCntClr n s) := by
  unfold execLfrCntClr
  repeat' first
    | intro _
    | (with_reducible first | assumption | exact OnlyIn.refl _ _ | apply OutOnlyIn.next | apply State.access_onlyIn | apply State.wr_onlyIn | apply OnlyIn.clear_cons | apply OnlyIn.clear_nil)
    | extract_lets | dsimp only | exact h_clk | exact h_glb | exact h_lfr

theorem execCompatFormatSwitch_onlyIn {l : List Block} {r : State} {n : Lane} {s : State} (hk : OnlyIn l r s) (h_lfr : Block.lfr ∈ l) (h_ltx : Block.ltx ∈ l) :
    OutOnlyIn l r (execCompatFormatSwitch n s) := by
  unfold execCompatFormatSwitch
  repeat' first
    | intro _
    | (with_reducible first | assumption | exact OnlyIn.refl _ _ | apply OutOnlyIn.next | apply State.precodeApply_onlyIn | apply State.wr_onlyIn | apply OnlyIn.puts_cons | apply OnlyIn.puts_nil | apply OnlyIn.when | apply OutOnlyIn.cond | apply OnlyIn.cond)
    | extract_lets | dsimp only | split | exact h_lfr | exact h_ltx

theorem State.outStart_onlyIn {l : List Block} {r : State} {s : State} {n : Nat} (hk : OnlyIn l r s) (h_lfr : Block.lfr ∈ l) :
    OnlyIn l r (State.outStart s n) := by
  unfold State.outStart
  repeat' first
    | intro _
    | (with_reducible first | assumption | exact OnlyIn.refl _ _ | apply State.wr_onlyIn)
    | extract_lets | exact h_lfr

theorem State.fillMark_onlyIn {l : List Block} {r : State} {s : State} {n : Nat} {fill : Bool} (hk : OnlyIn l r s) (h_lfr : Block.lfr ∈ l) :
    OnlyIn l r (State.fillMark s n fill) := by
  unfold State.fillMark
  repeat' first
    | intro _
    | (with_reducible first | assumption | exact OnlyIn.refl _ _ | apply State.wrb_onlyIn | apply State.wr_onlyIn | apply OnlyIn.when)
    | extract_lets | dsimp only | exact h_lfr

theorem State.outRegion_onlyIn {l : List Block} {r : State} {s : State} {n : Nat} (hk : OnlyIn l r s) (h_lfr : Block.lfr ∈ l) :
    OnlyIn l r (State.outRegion s n) := by
  unfold State.outRegion
  repeat' first
    | intro _
    | (with_reducible first | assumption | exact OnlyIn.refl _ _ | apply State.wr_onlyIn)
    | extract_lets | exact h_lfr

theorem State.sideRun_onlyIn {l : List Block} {r : State} {s : State} {n : Nat} (hk : OnlyIn l r s) (h_lfr : Block.lfr ∈ l) (h_timLn : Block.timLn ∈ l) :
    OnlyIn l r (State.sideRun s n) := by
  unfold State.sideRun
  repeat' first
    | intro _
    | (with_reducible first | assumption | exact OnlyIn.refl _ _ | apply State.wr_onlyIn | apply State.recordV1_onlyIn | apply OnlyIn.puts_cons | apply OnlyIn.puts_nil | apply OnlyIn.when | apply OnlyIn.cond)
    | extract_lets | dsimp only | split | exact h_lfr | exact h_timLn

theorem execCodewordBoundaryApply_onlyIn {l : List Block} {r : State} {n : Lane} {tx : Bool} {s : State} (hk : OnlyIn l r s) (h_hlt : Block.hlt ∈ l) (h_hltLn : Block.hltLn ∈ l) (h_leq : Block.leq ∈ l) (h_lrx : Block.lrx ∈ l) (h_ltx : Block.ltx ∈ l) :
    OutOnlyIn l r (execCodewordBoundaryApply n tx s) := by
  unfold execCodewordBoundaryApply
  repeat' first
    | intro _
    | (with_reducible first | assumption | exact OnlyIn.refl _ _ | apply OutOnlyIn.next | apply State.txBoundary_onlyIn | apply State.rxBoundary_onlyIn | apply OutOnlyIn.cond | apply OnlyIn.cond)
    | extract_lets | split | exact h_hlt | exact h_hltLn | exact h_leq | exact h_lrx | exact h_ltx

theorem State.profNegotiated_onlyIn {l : List Block} {r : State} {s : State} {n : Nat} (hk : OnlyIn l r s) (h_lfr : Block.lfr ∈ l) (h_lrx : Block.lrx ∈ l) (h_pwr : Block.pwr ∈ l) :
    OnlyIn l r (State.profNegotiated s n) := by
  unfold State.profNegotiated
  repeat' first
    | intro _
    | (with_reducible first | assumption | exact OnlyIn.refl _ _ | apply State.asymFollow_onlyIn | apply State.dvfsKick_onlyIn | apply State.wr_onlyIn | apply OnlyIn.puts_cons | apply OnlyIn.puts_nil | apply OnlyIn.cond)
    | extract_lets | split | exact h_lfr | exact h_lrx | exact h_pwr

theorem execFrameBoundaryApply_onlyIn {l : List Block} {r : State} {n : Lane} {s : State} (hk : OnlyIn l r s) (h_hlt : Block.hlt ∈ l) (h_hltLn : Block.hltLn ∈ l) (h_leq : Block.leq ∈ l) (h_lfr : Block.lfr ∈ l) (h_lrx : Block.lrx ∈ l) (h_pwr : Block.pwr ∈ l) (h_tim : Block.tim ∈ l) (h_timLn : Block.timLn ∈ l) :
    OutOnlyIn l r (execFrameBoundaryApply n s) := by
  unfold execFrameBoundaryApply
  repeat' first
    | intro _
    | (with_reducible first | assumption | exact OnlyIn.refl _ _ | apply OutOnlyIn.next | apply State.profNegotiated_onlyIn | apply State.profSwitch_onlyIn | apply State.negApply_onlyIn | apply State.driftApply_onlyIn | apply State.rxBoundary_onlyIn | apply State.wr_onlyIn | apply OnlyIn.puts_cons | apply OnlyIn.puts_nil | apply OutOnlyIn.cond | apply OnlyIn.cond)
    | extract_lets | split | exact h_hlt | exact h_hltLn | exact h_leq | exact h_lfr | exact h_lrx | exact h_pwr | exact h_tim | exact h_timLn

theorem State.chkRun_onlyIn {l : List Block} {r : State} {s : State} {h : Nat} (hk : OnlyIn l r s) (h_hif : Block.hif ∈ l) :
    OnlyIn l r (State.chkRun s h) := by
  unfold State.chkRun
  repeat' first
    | intro _
    | (with_reducible first | assumption | exact OnlyIn.refl _ _ | apply State.wrFree_onlyIn | apply State.free_onlyIn | apply State.bump_onlyIn | apply OnlyIn.cond | apply OnlyIn.cond_snd)
    | extract_lets | dsimp only | split | exact h_hif

theorem State.matchRun_onlyIn {l : List Block} {r : State} {s : State} {n a b : Nat} (hk : OnlyIn l r s) (h_hif : Block.hif ∈ l) (h_hifGlb : Block.hifGlb ∈ l) :
    OnlyIn l r (State.matchRun s n a b) := by
  unfold State.matchRun
  repeat' first
    | intro _
    | (with_reducible first | assumption | exact OnlyIn.refl _ _ | apply State.bump_onlyIn | apply OnlyIn.when)
    | extract_lets | dsimp only | split | exact h_hif | exact h_hifGlb

theorem State.txFrameStart_onlyIn {l : List Block} {r : State} {s : State} {n : Nat} (hk : OnlyIn l r s) (h_hltLn : Block.hltLn ∈ l) (h_lfr : Block.lfr ∈ l) (h_ltx : Block.ltx ∈ l) (h_tim : Block.tim ∈ l) :
    OnlyIn l r (State.txFrameStart s n) := by
  unfold State.txFrameStart
  repeat' first
    | intro _
    | (with_reducible first | assumption | exact OnlyIn.refl _ _ | apply State.wr_onlyIn | apply State.driftApply_onlyIn | apply State.precodeApply_onlyIn | apply State.txBoundary_onlyIn | apply State.patApply_onlyIn | apply OnlyIn.puts_cons | apply OnlyIn.puts_nil | apply OnlyIn.when)
    | extract_lets | dsimp only | split | exact h_hltLn | exact h_lfr | exact h_ltx | exact h_tim

theorem execTxFrameBoundary_onlyIn {l : List Block} {r : State} {n : Lane} {a b : BitVec 983072} {s : State} (hk : OnlyIn l r s) (h_hif : Block.hif ∈ l) (h_hifGlb : Block.hifGlb ∈ l) (h_hltLn : Block.hltLn ∈ l) (h_lfr : Block.lfr ∈ l) (h_ltx : Block.ltx ∈ l) (h_tim : Block.tim ∈ l) (h_timLn : Block.timLn ∈ l) :
    OutOnlyIn l r (execTxFrameBoundary n a b s) := by
  unfold execTxFrameBoundary
  repeat' first
    | intro _
    | (with_reducible first | assumption | exact OnlyIn.refl _ _ | apply OutOnlyIn.next | apply State.chkRun_onlyIn | apply State.matchRun_onlyIn | apply State.txFrameStart_onlyIn | apply State.wrb_onlyIn | apply State.wr_onlyIn | apply State.setLd_onlyIn | apply State.outStart_onlyIn | apply OnlyIn.each | apply OutOnlyIn.cond | apply OnlyIn.cond)
    | extract_lets | dsimp only | split
    | (with_reducible first | apply OnlyIn.other)
    | exact h_hif | exact h_hifGlb | exact h_hltLn | exact h_lfr | exact h_ltx | exact h_tim | exact h_timLn

theorem State.straitEffect_onlyIn {l : List Block} {r : State} {s : State} {id lanes : Nat} (hk : OnlyIn l r s) (h_evf : Block.evf ∈ l) (h_hif : Block.hif ∈ l) (h_hifGlb : Block.hifGlb ∈ l) (h_hlt : Block.hlt ∈ l) (h_hltLn : Block.hltLn ∈ l) (h_leq : Block.leq ∈ l) (h_lfr : Block.lfr ∈ l) (h_lrx : Block.lrx ∈ l) (h_ltx : Block.ltx ∈ l) (h_mgt : Block.mgt ∈ l) (h_optLn : Block.optLn ∈ l) (h_pwrLn : Block.pwrLn ∈ l) (h_tim : Block.tim ∈ l) (h_timLn : Block.timLn ∈ l) :
    OnlyIn l r (State.straitEffect s id lanes) := by
  unfold State.straitEffect
  repeat' first
    | intro _
    | (with_reducible first | assumption | exact OnlyIn.refl _ _ | apply State.hifFault_onlyIn | apply State.lrxFault_onlyIn | apply State.ltxFault_onlyIn | apply State.bump_onlyIn | apply State.raise_onlyIn | apply OnlyIn.each | apply OnlyIn.when | apply OnlyIn.cond)
    | extract_lets | dsimp only | split | exact h_evf | exact h_hif | exact h_hifGlb | exact h_hlt | exact h_hltLn | exact h_leq | exact h_lfr | exact h_lrx | exact h_ltx | exact h_mgt | exact h_optLn | exact h_pwrLn | exact h_tim | exact h_timLn

theorem State.straitLoss_onlyIn {l : List Block} {r : State} {s : State} {id lanes k : Nat} (hk : OnlyIn l r s) (h_evf : Block.evf ∈ l) (h_glb : Block.glb ∈ l) (h_hif : Block.hif ∈ l) (h_hifGlb : Block.hifGlb ∈ l) (h_hlt : Block.hlt ∈ l) (h_hltLn : Block.hltLn ∈ l) (h_leq : Block.leq ∈ l) (h_lfr : Block.lfr ∈ l) (h_lrx : Block.lrx ∈ l) (h_ltx : Block.ltx ∈ l) (h_mgt : Block.mgt ∈ l) (h_optLn : Block.optLn ∈ l) (h_pwrLn : Block.pwrLn ∈ l) (h_tim : Block.tim ∈ l) (h_timLn : Block.timLn ∈ l) :
    OnlyIn l r (State.straitLoss s id lanes k) := by
  unfold State.straitLoss
  repeat' first
    | intro _
    | (with_reducible first | assumption | exact OnlyIn.refl _ _ | apply State.straitDrop_onlyIn | apply State.straitEffect_onlyIn)
    | extract_lets | exact h_evf | exact h_glb | exact h_hif | exact h_hifGlb | exact h_hlt | exact h_hltLn | exact h_leq | exact h_lfr | exact h_lrx | exact h_ltx | exact h_mgt | exact h_optLn | exact h_pwrLn | exact h_tim | exact h_timLn

theorem execStraitOverflow_onlyIn {l : List Block} {r : State} {id : BitVec 7} {lanes : BitVec 4} {s : State} (hk : OnlyIn l r s) (h_evf : Block.evf ∈ l) (h_glb : Block.glb ∈ l) (h_hif : Block.hif ∈ l) (h_hifGlb : Block.hifGlb ∈ l) (h_hlt : Block.hlt ∈ l) (h_hltLn : Block.hltLn ∈ l) (h_leq : Block.leq ∈ l) (h_lfr : Block.lfr ∈ l) (h_lrx : Block.lrx ∈ l) (h_ltx : Block.ltx ∈ l) (h_mgt : Block.mgt ∈ l) (h_optLn : Block.optLn ∈ l) (h_pwrLn : Block.pwrLn ∈ l) (h_tim : Block.tim ∈ l) (h_timLn : Block.timLn ∈ l) :
    OutOnlyIn l r (execStraitOverflow id lanes s) := by
  unfold execStraitOverflow
  repeat' first
    | intro _
    | (with_reducible first | assumption | exact OnlyIn.refl _ _ | apply OutOnlyIn.next | apply State.straitLoss_onlyIn | apply OutOnlyIn.cond | apply OnlyIn.cond)
    | extract_lets | split | exact h_evf | exact h_glb | exact h_hif | exact h_hifGlb | exact h_hlt | exact h_hltLn | exact h_leq | exact h_lfr | exact h_lrx | exact h_ltx | exact h_mgt | exact h_optLn | exact h_pwrLn | exact h_tim | exact h_timLn

theorem execStraitErrClr_onlyIn {l : List Block} {r : State} {s : State} (hk : OnlyIn l r s) (h_clk : Block.clk ∈ l) (h_glb : Block.glb ∈ l) :
    OutOnlyIn l r (execStraitErrClr s) := by
  unfold execStraitErrClr
  repeat' first
    | intro _
    | (with_reducible first | assumption | exact OnlyIn.refl _ _ | apply OutOnlyIn.next | apply State.access_onlyIn | apply State.wr_onlyIn | apply OnlyIn.puts_cons | apply OnlyIn.puts_nil)
    | extract_lets | dsimp only | exact h_clk | exact h_glb

end Sys2Proof.Machine
end

