-- ==== Sys2Proof/Laws/OnlyArchipelago.lean ====
section
/-!
SUPPORT. Which blocks the operations of Archipelago change.
-/
set_option Elab.async false
set_option linter.all false
namespace Sys2Proof.Machine

theorem State.latestStart_onlyIn {l : List Block} {r : State} {s : State} {c : Nat} {cw : Codeword} (hk : OnlyIn l r s) :
    OnlyIn l r (State.latestStart s c cw).2 := by
  unfold State.latestStart
  repeat' first
    | intro _
    | (with_reducible first | assumption | exact OnlyIn.refl _ _ | apply State.free_onlyIn | apply OnlyIn.cond_snd | apply OnlyIn.cond)
    | extract_lets | dsimp only | split

theorem State.cwEnd_onlyIn {l : List Block} {r : State} {s : State} {c : Nat} {cw : Codeword} {o : CwOutcome} (hk : OnlyIn l r s) (h_arc : Block.arc ∈ l) (h_arcCl : Block.arcCl ∈ l) (h_clk : Block.clk ∈ l) (h_evf : Block.evf ∈ l) (h_glb : Block.glb ∈ l) (h_hif : Block.hif ∈ l) (h_hifGlb : Block.hifGlb ∈ l) (h_hlt : Block.hlt ∈ l) (h_hltLn : Block.hltLn ∈ l) (h_leq : Block.leq ∈ l) (h_lfr : Block.lfr ∈ l) (h_lrx : Block.lrx ∈ l) (h_ltx : Block.ltx ∈ l) (h_mgt : Block.mgt ∈ l) (h_optLn : Block.optLn ∈ l) (h_pll : Block.pll ∈ l) (h_pwr : Block.pwr ∈ l) (h_pwrLn : Block.pwrLn ∈ l) (h_tim : Block.tim ∈ l) (h_timLn : Block.timLn ∈ l) :
    OnlyIn l r (State.cwEnd s c cw o) := by
  unfold State.cwEnd
  repeat' first
    | intro _
    | (with_reducible first | assumption | exact OnlyIn.refl _ _ | apply State.bump_onlyIn | apply State.raise_onlyIn | apply State.faultEvent_onlyIn | apply State.trimLoad_onlyIn)
    | extract_lets | dsimp only | split | exact h_arc | exact h_arcCl | exact h_clk | exact h_evf | exact h_glb | exact h_hif | exact h_hifGlb | exact h_hlt | exact h_hltLn | exact h_leq | exact h_lfr | exact h_lrx | exact h_ltx | exact h_mgt | exact h_optLn | exact h_pll | exact h_pwr | exact h_pwrLn | exact h_tim | exact h_timLn

theorem State.askPort_onlyIn {l : List Block} {r : State} {s : State} {e : Emission} (hk : OnlyIn l r s) :
    OnlyIn l r (State.askPort s e) := by
  unfold State.askPort
  repeat' first
    | intro _
    | (with_reducible first | assumption | exact OnlyIn.refl _ _)
    | extract_lets
    | (with_reducible first | apply OnlyIn.other)

theorem State.serviceIn_onlyIn {l : List Block} {r : State} {s : State} {cw : Codeword} {bits : Nat} (hk : OnlyIn l r s) (h_evf : Block.evf ∈ l) (h_hlt : Block.hlt ∈ l) :
    OnlyIn l r (State.serviceIn s cw bits) := by
  unfold State.serviceIn
  repeat' first
    | intro _
    | (with_reducible first | assumption | exact OnlyIn.refl _ _ | apply State.service_onlyIn | apply State.setLd_onlyIn)
    | extract_lets | dsimp only
    | (with_reducible first | apply OnlyIn.other)
    | exact h_evf | exact h_hlt

theorem State.sendHard_onlyIn {l : List Block} {r : State} {s : State} {c eng : Nat} {bypass : Bool} {cw : Codeword} {hard : List Nat} (hk : OnlyIn l r s) (h_evf : Block.evf ∈ l) (h_hlt : Block.hlt ∈ l) :
    OnlyIn l r (State.sendHard s c eng bypass cw hard) := by
  unfold State.sendHard
  repeat' first
    | intro _
    | (with_reducible first | assumption | exact OnlyIn.refl _ _ | apply State.askPort_onlyIn | apply State.serviceIn_onlyIn | apply OptOnlyIn.getD)
    | extract_lets | exact h_evf | exact h_hlt

theorem State.expireQ_onlyIn {l : List Block} {r : State} {s : State} {cw : Codeword} (hk : OnlyIn l r s) (h_arc : Block.arc ∈ l) (h_arcCl : Block.arcCl ∈ l) (h_clk : Block.clk ∈ l) (h_evf : Block.evf ∈ l) (h_glb : Block.glb ∈ l) (h_hif : Block.hif ∈ l) (h_hifGlb : Block.hifGlb ∈ l) (h_hlt : Block.hlt ∈ l) (h_hltLn : Block.hltLn ∈ l) (h_leq : Block.leq ∈ l) (h_lfr : Block.lfr ∈ l) (h_lrx : Block.lrx ∈ l) (h_ltx : Block.ltx ∈ l) (h_mgt : Block.mgt ∈ l) (h_optLn : Block.optLn ∈ l) (h_pll : Block.pll ∈ l) (h_pwr : Block.pwr ∈ l) (h_pwrLn : Block.pwrLn ∈ l) (h_tim : Block.tim ∈ l) (h_timLn : Block.timLn ∈ l) :
    OnlyIn l r (State.expireQ s cw) := by
  unfold State.expireQ
  repeat' first
    | intro _
    | (with_reducible first | assumption | exact OnlyIn.refl _ _ | apply State.cwEnd_onlyIn | apply State.sendHard_onlyIn)
    | extract_lets | exact h_arc | exact h_arcCl | exact h_clk | exact h_evf | exact h_glb | exact h_hif | exact h_hifGlb | exact h_hlt | exact h_hltLn | exact h_leq | exact h_lfr | exact h_lrx | exact h_ltx | exact h_mgt | exact h_optLn | exact h_pll | exact h_pwr | exact h_pwrLn | exact h_tim | exact h_timLn

theorem State.enqueue_onlyIn {l : List Block} {r : State} {s : State} {v index : Nat} {samples : List Int} (hk : OnlyIn l r s) (h_arc : Block.arc ∈ l) (h_arcCl : Block.arcCl ∈ l) (h_clk : Block.clk ∈ l) (h_evf : Block.evf ∈ l) (h_glb : Block.glb ∈ l) (h_hif : Block.hif ∈ l) (h_hifGlb : Block.hifGlb ∈ l) (h_hlt : Block.hlt ∈ l) (h_hltLn : Block.hltLn ∈ l) (h_leq : Block.leq ∈ l) (h_lfr : Block.lfr ∈ l) (h_lrx : Block.lrx ∈ l) (h_ltx : Block.ltx ∈ l) (h_mgt : Block.mgt ∈ l) (h_optLn : Block.optLn ∈ l) (h_pll : Block.pll ∈ l) (h_pwr : Block.pwr ∈ l) (h_pwrLn : Block.pwrLn ∈ l) (h_tim : Block.tim ∈ l) (h_timLn : Block.timLn ∈ l) :
    OnlyIn l r (State.enqueue s v index samples) := by
  unfold State.enqueue
  repeat' first
    | intro _
    | (with_reducible first | assumption | exact OnlyIn.refl _ _ | apply State.askPort_onlyIn | apply State.sendHard_onlyIn | apply State.wr_onlyIn | apply State.raise_onlyIn | apply State.expireQ_onlyIn | apply State.trimLoad_onlyIn | apply OnlyIn.when | apply OnlyIn.cond | apply OnlyIn.cond_snd)
    | extract_lets | dsimp only | split
    | (with_reducible first | apply OnlyIn.other)
    | exact h_arc | exact h_arcCl | exact h_clk | exact h_evf | exact h_glb | exact h_hif | exact h_hifGlb | exact h_hlt | exact h_hltLn | exact h_leq | exact h_lfr | exact h_lrx | exact h_ltx | exact h_mgt | exact h_optLn | exact h_pll | exact h_pwr | exact h_pwrLn | exact h_tim | exact h_timLn

theorem State.straitStopped_onlyIn {l : List Block} {r : State} {s : State} {v index : Nat} {samples : List Int} (hk : OnlyIn l r s) (h_evf : Block.evf ∈ l) (h_glb : Block.glb ∈ l) (h_hif : Block.hif ∈ l) (h_hifGlb : Block.hifGlb ∈ l) (h_hlt : Block.hlt ∈ l) (h_hltLn : Block.hltLn ∈ l) (h_leq : Block.leq ∈ l) (h_lfr : Block.lfr ∈ l) (h_lrx : Block.lrx ∈ l) (h_ltx : Block.ltx ∈ l) (h_mgt : Block.mgt ∈ l) (h_optLn : Block.optLn ∈ l) (h_pwrLn : Block.pwrLn ∈ l) (h_tim : Block.tim ∈ l) (h_timLn : Block.timLn ∈ l) :
    OnlyIn l r (State.straitStopped s v index samples) := by
  unfold State.straitStopped
  repeat' first
    | intro _
    | (with_reducible first | assumption | exact OnlyIn.refl _ _ | apply State.straitPut_onlyIn | apply State.straitLoss_onlyIn | apply OnlyIn.when)
    | extract_lets | dsimp only | exact h_evf | exact h_glb | exact h_hif | exact h_hifGlb | exact h_hlt | exact h_hltLn | exact h_leq | exact h_lfr | exact h_lrx | exact h_ltx | exact h_mgt | exact h_optLn | exact h_pwrLn | exact h_tim | exact h_timLn

theorem execCodewordEnqueue_onlyIn {l : List Block} {r : State} {n : Lane} {index : BitVec 8} {samples : List Int} {s : State} (hk : OnlyIn l r s) (h_arc : Block.arc ∈ l) (h_arcCl : Block.arcCl ∈ l) (h_clk : Block.clk ∈ l) (h_evf : Block.evf ∈ l) (h_glb : Block.glb ∈ l) (h_hif : Block.hif ∈ l) (h_hifGlb : Block.hifGlb ∈ l) (h_hlt : Block.hlt ∈ l) (h_hltLn : Block.hltLn ∈ l) (h_img : Block.img ∈ l) (h_leq : Block.leq ∈ l) (h_lfr : Block.lfr ∈ l) (h_lrx : Block.lrx ∈ l) (h_ltx : Block.ltx ∈ l) (h_mgt : Block.mgt ∈ l) (h_optLn : Block.optLn ∈ l) (h_pll : Block.pll ∈ l) (h_pwr : Block.pwr ∈ l) (h_pwrLn : Block.pwrLn ∈ l) (h_tim : Block.tim ∈ l) (h_timLn : Block.timLn ∈ l) :
    OutOnlyIn l r (execCodewordEnqueue n index samples s) := by
  unfold execCodewordEnqueue
  repeat' first
    | intro _
    | (with_reducible first | assumption | exact OnlyIn.refl _ _ | apply OutOnlyIn.next | apply State.wr_onlyIn | apply State.bump_onlyIn | apply State.straitStopped_onlyIn | apply State.enqueue_onlyIn | apply OnlyIn.when | apply OutOnlyIn.cond | apply OnlyIn.cond)
    | extract_lets | dsimp only | split | exact h_arc | exact h_arcCl | exact h_clk | exact h_evf | exact h_glb | exact h_hif | exact h_hifGlb | exact h_hlt | exact h_hltLn | exact h_img | exact h_leq | exact h_lfr | exact h_lrx | exact h_ltx | exact h_mgt | exact h_optLn | exact h_pll | exact h_pwr | exact h_pwrLn | exact h_tim | exact h_timLn

theorem execCodewordExpiry_onlyIn {l : List Block} {r : State} {n : Lane} {phase : Int} {s : State} (hk : OnlyIn l r s) (h_arc : Block.arc ∈ l) (h_arcCl : Block.arcCl ∈ l) (h_clk : Block.clk ∈ l) (h_evf : Block.evf ∈ l) (h_glb : Block.glb ∈ l) (h_hif : Block.hif ∈ l) (h_hifGlb : Block.hifGlb ∈ l) (h_hlt : Block.hlt ∈ l) (h_hltLn : Block.hltLn ∈ l) (h_leq : Block.leq ∈ l) (h_lfr : Block.lfr ∈ l) (h_lrx : Block.lrx ∈ l) (h_ltx : Block.ltx ∈ l) (h_mgt : Block.mgt ∈ l) (h_optLn : Block.optLn ∈ l) (h_pll : Block.pll ∈ l) (h_pwr : Block.pwr ∈ l) (h_pwrLn : Block.pwrLn ∈ l) (h_tim : Block.tim ∈ l) (h_timLn : Block.timLn ∈ l) :
    OutOnlyIn l r (execCodewordExpiry n phase s) := by
  unfold execCodewordExpiry
  repeat' first
    | intro _
    | (with_reducible first | assumption | exact OnlyIn.refl _ _ | apply OutOnlyIn.next | apply State.latestStart_onlyIn | apply State.expireQ_onlyIn | apply OutOnlyIn.cond | apply OnlyIn.cond | apply OnlyIn.cond_snd)
    | extract_lets | dsimp only | split
    | (with_reducible first | apply OnlyIn.other)
    | exact h_arc | exact h_arcCl | exact h_clk | exact h_evf | exact h_glb | exact h_hif | exact h_hifGlb | exact h_hlt | exact h_hltLn | exact h_leq | exact h_lfr | exact h_lrx | exact h_ltx | exact h_mgt | exact h_optLn | exact h_pll | exact h_pwr | exact h_pwrLn | exact h_tim | exact h_timLn

theorem State.setEng_onlyIn {l : List Block} {r : State} {s : State} {e st : Nat} (hk : OnlyIn l r s) (h_arc : Block.arc ∈ l) :
    OnlyIn l r (State.setEng s e st) := by
  unfold State.setEng
  repeat' first
    | intro _
    | (with_reducible first | assumption | exact OnlyIn.refl _ _ | apply State.wr_onlyIn)
    | extract_lets | exact h_arc

theorem State.homeOffer_onlyIn {l : List Block} {r : State} {s : State} {e atc : Nat} (hk : OnlyIn l r s) :
    OnlyIn l r (State.homeOffer s e atc).2 := by
  unfold State.homeOffer
  repeat' first
    | intro _
    | (with_reducible first | assumption | exact OnlyIn.refl _ _ | apply State.latestStart_onlyIn | apply OnlyIn.cond_snd | apply OnlyIn.cond)
    | extract_lets | dsimp only | split

theorem State.bgServe_onlyIn {l : List Block} {r : State} {s : State} {e : Nat} {b : BgTask} (hk : OnlyIn l r s) (h_arc : Block.arc ∈ l) :
    OnlyIn l r (State.bgServe s e b) := by
  unfold State.bgServe
  repeat' first
    | intro _
    | (with_reducible first | assumption | exact OnlyIn.refl _ _ | apply State.setEng_onlyIn | apply State.wr_onlyIn | apply OnlyIn.cond)
    | extract_lets | dsimp only | split
    | (with_reducible first | apply OnlyIn.other)
    | exact h_arc

theorem execEngineRequest_onlyIn {l : List Block} {r : State} {e : Fin 128} {phase : Int} {s : State} (hk : OnlyIn l r s) (h_arc : Block.arc ∈ l) :
    OutOnlyIn l r (execEngineRequest e phase s) := by
  unfold execEngineRequest
  dsimp only
  repeat' first
    | intro _
    | (with_reducible first | assumption | exact OnlyIn.refl _ _ | apply OutOnlyIn.next | apply State.bgServe_onlyIn | apply State.homeOffer_onlyIn | apply OnlyIn.foldl | apply OutOnlyIn.cond | apply OnlyIn.cond | apply OnlyIn.cond_snd)
    | extract_lets | dsimp only | split
    | (with_reducible first | apply OnlyIn.other)
    | exact h_arc

theorem State.raceLost_onlyIn {l : List Block} {r : State} {s : State} {e : Nat} (hk : OnlyIn l r s) (h_arcCl : Block.arcCl ∈ l) :
    OnlyIn l r (State.raceLost s e) := by
  unfold State.raceLost
  repeat' first
    | intro _
    | (with_reducible first | assumption | exact OnlyIn.refl _ _ | apply State.bump_onlyIn)
    | extract_lets | exact h_arcCl

theorem State.grant_onlyIn {l : List Block} {r : State} {s : State} {v e : Nat} {cw : Codeword} {path : List (Nat × Nat)} {atc : Nat} (hk : OnlyIn l r s) (h_arc : Block.arc ∈ l) (h_arcCl : Block.arcCl ∈ l) :
    OnlyIn l r (State.grant s v e cw path atc) := by
  unfold State.grant
  repeat' first
    | intro _
    | (with_reducible first | assumption | exact OnlyIn.refl _ _ | apply State.setEng_onlyIn | apply State.bump_onlyIn | apply OnlyIn.when | apply OnlyIn.cond)
    | extract_lets | dsimp only | split
    | (with_reducible first | apply OnlyIn.other)
    | exact h_arc | exact h_arcCl

theorem execQueueGrant_onlyIn {l : List Block} {r : State} {n : Lane} {phase : Int} {s : State} (hk : OnlyIn l r s) (h_arc : Block.arc ∈ l) (h_arcCl : Block.arcCl ∈ l) (h_clk : Block.clk ∈ l) (h_evf : Block.evf ∈ l) (h_glb : Block.glb ∈ l) (h_hif : Block.hif ∈ l) (h_hifGlb : Block.hifGlb ∈ l) (h_hlt : Block.hlt ∈ l) (h_hltLn : Block.hltLn ∈ l) (h_leq : Block.leq ∈ l) (h_lfr : Block.lfr ∈ l) (h_lrx : Block.lrx ∈ l) (h_ltx : Block.ltx ∈ l) (h_mgt : Block.mgt ∈ l) (h_optLn : Block.optLn ∈ l) (h_pll : Block.pll ∈ l) (h_pwr : Block.pwr ∈ l) (h_pwrLn : Block.pwrLn ∈ l) (h_tim : Block.tim ∈ l) (h_timLn : Block.timLn ∈ l) :
    OutOnlyIn l r (execQueueGrant n phase s) := by
  unfold execQueueGrant
  repeat' first
    | intro _
    | (with_reducible first | assumption | exact OnlyIn.refl _ _ | apply OutOnlyIn.next | apply State.raceLost_onlyIn | apply State.latestStart_onlyIn | apply State.expireQ_onlyIn | apply State.grant_onlyIn | apply OnlyIn.each | apply OnlyIn.foldl | apply OutOnlyIn.cond | apply OnlyIn.cond | apply OnlyIn.cond_snd)
    | extract_lets | dsimp only | split
    | (with_reducible first | apply OnlyIn.other)
    | exact h_arc | exact h_arcCl | exact h_clk | exact h_evf | exact h_glb | exact h_hif | exact h_hifGlb | exact h_hlt | exact h_hltLn | exact h_leq | exact h_lfr | exact h_lrx | exact h_ltx | exact h_mgt | exact h_optLn | exact h_pll | exact h_pwr | exact h_pwrLn | exact h_tim | exact h_timLn

theorem State.setWork_onlyIn {l : List Block} {r : State} {s : State} {e : Nat} {g : EngWork → EngWork} (hk : OnlyIn l r s) :
    OnlyIn l r (State.setWork s e g) := by
  unfold State.setWork
  repeat' first
    | intro _
    | (with_reducible first | assumption | exact OnlyIn.refl _ _ | apply OnlyIn.cond)
    | extract_lets | dsimp only | split
    | (with_reducible first | apply OnlyIn.other)

theorem execStealTransferDone_onlyIn {l : List Block} {r : State} {e : Fin 128} {s : State} (hk : OnlyIn l r s) (h_arc : Block.arc ∈ l) :
    OutOnlyIn l r (execStealTransferDone e s) := by
  unfold execStealTransferDone
  repeat' first
    | intro _
    | (with_reducible first | assumption | exact OnlyIn.refl _ _ | apply OutOnlyIn.next | apply State.setWork_onlyIn | apply State.setEng_onlyIn | apply OutOnlyIn.cond | apply OnlyIn.cond)
    | extract_lets | dsimp only | split
    | (with_reducible first | apply OnlyIn.other)
    | exact h_arc

theorem State.decodeEnd_onlyIn {l : List Block} {r : State} {s : State} {e : Nat} {w : EngWork} {o : CwOutcome} {hard : List Nat} (hk : OnlyIn l r s) (h_arc : Block.arc ∈ l) (h_arcCl : Block.arcCl ∈ l) (h_clk : Block.clk ∈ l) (h_evf : Block.evf ∈ l) (h_glb : Block.glb ∈ l) (h_hif : Block.hif ∈ l) (h_hifGlb : Block.hifGlb ∈ l) (h_hlt : Block.hlt ∈ l) (h_hltLn : Block.hltLn ∈ l) (h_leq : Block.leq ∈ l) (h_lfr : Block.lfr ∈ l) (h_lrx : Block.lrx ∈ l) (h_ltx : Block.ltx ∈ l) (h_mgt : Block.mgt ∈ l) (h_optLn : Block.optLn ∈ l) (h_pll : Block.pll ∈ l) (h_pwr : Block.pwr ∈ l) (h_pwrLn : Block.pwrLn ∈ l) (h_tim : Block.tim ∈ l) (h_timLn : Block.timLn ∈ l) :
    OnlyIn l r (State.decodeEnd s e w o hard) := by
  unfold State.decodeEnd
  repeat' first
    | intro _
    | (with_reducible first | assumption | exact OnlyIn.refl _ _ | apply State.setWork_onlyIn | apply State.cwEnd_onlyIn | apply State.sendHard_onlyIn)
    | extract_lets | dsimp only
    | (with_reducible first | apply OnlyIn.other)
    | exact h_arc | exact h_arcCl | exact h_clk | exact h_evf | exact h_glb | exact h_hif | exact h_hifGlb | exact h_hlt | exact h_hltLn | exact h_leq | exact h_lfr | exact h_lrx | exact h_ltx | exact h_mgt | exact h_optLn | exact h_pll | exact h_pwr | exact h_pwrLn | exact h_tim | exact h_timLn

theorem execEngineLoadDone_onlyIn {l : List Block} {r : State} {e : Fin 128} {s : State} (hk : OnlyIn l r s) (h_arc : Block.arc ∈ l) (h_arcCl : Block.arcCl ∈ l) (h_clk : Block.clk ∈ l) (h_evf : Block.evf ∈ l) (h_glb : Block.glb ∈ l) (h_hif : Block.hif ∈ l) (h_hifGlb : Block.hifGlb ∈ l) (h_hlt : Block.hlt ∈ l) (h_hltLn : Block.hltLn ∈ l) (h_leq : Block.leq ∈ l) (h_lfr : Block.lfr ∈ l) (h_lrx : Block.lrx ∈ l) (h_ltx : Block.ltx ∈ l) (h_mgt : Block.mgt ∈ l) (h_optLn : Block.optLn ∈ l) (h_pll : Block.pll ∈ l) (h_pwr : Block.pwr ∈ l) (h_pwrLn : Block.pwrLn ∈ l) (h_tim : Block.tim ∈ l) (h_timLn : Block.timLn ∈ l) :
    OutOnlyIn l r (execEngineLoadDone e s) := by
  unfold execEngineLoadDone
  repeat' first
    | intro _
    | (with_reducible first | assumption | exact OnlyIn.refl _ _ | apply OutOnlyIn.next | apply State.decodeEnd_onlyIn | apply State.setWork_onlyIn | apply OutOnlyIn.cond | apply OnlyIn.cond)
    | extract_lets | dsimp only | split
    | (with_reducible first | apply OnlyIn.other)
    | exact h_arc | exact h_arcCl | exact h_clk | exact h_evf | exact h_glb | exact h_hif | exact h_hifGlb | exact h_hlt | exact h_hltLn | exact h_leq | exact h_lfr | exact h_lrx | exact h_ltx | exact h_mgt | exact h_optLn | exact h_pll | exact h_pwr | exact h_pwrLn | exact h_tim | exact h_timLn

theorem execEngineIterationDone_onlyIn {l : List Block} {r : State} {e : Fin 128} {s : State} (hk : OnlyIn l r s) (h_arc : Block.arc ∈ l) (h_arcCl : Block.arcCl ∈ l) (h_clk : Block.clk ∈ l) (h_evf : Block.evf ∈ l) (h_glb : Block.glb ∈ l) (h_hif : Block.hif ∈ l) (h_hifGlb : Block.hifGlb ∈ l) (h_hlt : Block.hlt ∈ l) (h_hltLn : Block.hltLn ∈ l) (h_leq : Block.leq ∈ l) (h_lfr : Block.lfr ∈ l) (h_lrx : Block.lrx ∈ l) (h_ltx : Block.ltx ∈ l) (h_mgt : Block.mgt ∈ l) (h_optLn : Block.optLn ∈ l) (h_pll : Block.pll ∈ l) (h_pwr : Block.pwr ∈ l) (h_pwrLn : Block.pwrLn ∈ l) (h_tim : Block.tim ∈ l) (h_timLn : Block.timLn ∈ l) :
    OutOnlyIn l r (execEngineIterationDone e s) := by
  unfold execEngineIterationDone
  repeat' first
    | intro _
    | (with_reducible first | assumption | exact OnlyIn.refl _ _ | apply OutOnlyIn.next | apply State.setWork_onlyIn | apply State.decodeEnd_onlyIn | apply OutOnlyIn.cond | apply OnlyIn.cond | apply OnlyIn.cond_snd)
    | extract_lets | dsimp only | split
    | (with_reducible first | apply OnlyIn.other)
    | exact h_arc | exact h_arcCl | exact h_clk | exact h_evf | exact h_glb | exact h_hif | exact h_hifGlb | exact h_hlt | exact h_hltLn | exact h_leq | exact h_lfr | exact h_lrx | exact h_ltx | exact h_mgt | exact h_optLn | exact h_pll | exact h_pwr | exact h_pwrLn | exact h_tim | exact h_timLn

theorem execEngineStopPoint_onlyIn {l : List Block} {r : State} {e : Fin 128} {phase : Int} {s : State} (hk : OnlyIn l r s) (h_arc : Block.arc ∈ l) (h_arcCl : Block.arcCl ∈ l) (h_clk : Block.clk ∈ l) (h_evf : Block.evf ∈ l) (h_glb : Block.glb ∈ l) (h_hif : Block.hif ∈ l) (h_hifGlb : Block.hifGlb ∈ l) (h_hlt : Block.hlt ∈ l) (h_hltLn : Block.hltLn ∈ l) (h_leq : Block.leq ∈ l) (h_lfr : Block.lfr ∈ l) (h_lrx : Block.lrx ∈ l) (h_ltx : Block.ltx ∈ l) (h_mgt : Block.mgt ∈ l) (h_optLn : Block.optLn ∈ l) (h_pll : Block.pll ∈ l) (h_pwr : Block.pwr ∈ l) (h_pwrLn : Block.pwrLn ∈ l) (h_tim : Block.tim ∈ l) (h_timLn : Block.timLn ∈ l) :
    OutOnlyIn l r (execEngineStopPoint e phase s) := by
  unfold execEngineStopPoint
  repeat' first
    | intro _
    | (with_reducible first | assumption | exact OnlyIn.refl _ _ | apply OutOnlyIn.next | apply State.decodeEnd_onlyIn | apply OutOnlyIn.cond | apply OnlyIn.cond)
    | extract_lets | dsimp only | split | exact h_arc | exact h_arcCl | exact h_clk | exact h_evf | exact h_glb | exact h_hif | exact h_hifGlb | exact h_hlt | exact h_hltLn | exact h_leq | exact h_lfr | exact h_lrx | exact h_ltx | exact h_mgt | exact h_optLn | exact h_pll | exact h_pwr | exact h_pwrLn | exact h_tim | exact h_timLn

theorem execEmitPortGrant_onlyIn {l : List Block} {r : State} {n : Lane} {s : State} (hk : OnlyIn l r s) (h_arc : Block.arc ∈ l) (h_evf : Block.evf ∈ l) :
    OutOnlyIn l r (execEmitPortGrant n s) := by
  unfold execEmitPortGrant
  repeat' first
    | intro _
    | (with_reducible first | assumption | exact OnlyIn.refl _ _ | apply OutOnlyIn.next | apply State.setWork_onlyIn | apply State.emit_onlyIn | apply State.setEng_onlyIn | apply OutOnlyIn.cond | apply OnlyIn.cond)
    | extract_lets | dsimp only | split
    | (with_reducible first | apply OnlyIn.other)
    | exact h_arc | exact h_evf

theorem execEmitDone_onlyIn {l : List Block} {r : State} {n : Lane} {s : State} (hk : OnlyIn l r s) (h_arc : Block.arc ∈ l) :
    OutOnlyIn l r (execEmitDone n s) := by
  unfold execEmitDone
  repeat' first
    | intro _
    | (with_reducible first | assumption | exact OnlyIn.refl _ _ | apply OutOnlyIn.next | apply State.straitPut_onlyIn | apply State.setEng_onlyIn | apply OutOnlyIn.cond | apply OnlyIn.cond)
    | extract_lets | dsimp only | split
    | (with_reducible first | apply OnlyIn.other)
    | exact h_arc

theorem State.homeLow_onlyIn {l : List Block} {r : State} {s : State} {lanes : List Nat} (hk : OnlyIn l r s) (h_arc : Block.arc ∈ l) (h_arcCl : Block.arcCl ∈ l) :
    OnlyIn l r (State.homeLow s lanes) := by
  unfold State.homeLow
  repeat' first
    | intro _
    | (with_reducible first | assumption | exact OnlyIn.refl _ _ | apply State.wrb_onlyIn | apply State.raise_onlyIn | apply OnlyIn.each | apply OnlyIn.when)
    | extract_lets | dsimp only | exact h_arc | exact h_arcCl

theorem State.engFail_onlyIn {l : List Block} {r : State} {s : State} {e : Nat} (hk : OnlyIn l r s) (h_arc : Block.arc ∈ l) (h_arcCl : Block.arcCl ∈ l) :
    OnlyIn l r (State.engFail s e) := by
  unfold State.engFail
  repeat' first
    | intro _
    | (with_reducible first | assumption | exact OnlyIn.refl _ _ | apply State.wr_onlyIn | apply State.raise_onlyIn | apply State.homeLow_onlyIn | apply OnlyIn.cond)
    | extract_lets | dsimp only | split
    | (with_reducible first | apply OnlyIn.other)
    | exact h_arc | exact h_arcCl

theorem execEngineDeadlineFail_onlyIn {l : List Block} {r : State} {e : Fin 128} {phase : Int} {s : State} (hk : OnlyIn l r s) (h_arc : Block.arc ∈ l) (h_arcCl : Block.arcCl ∈ l) :
    OutOnlyIn l r (execEngineDeadlineFail e phase s) := by
  unfold execEngineDeadlineFail
  repeat' first
    | intro _
    | (with_reducible first | assumption | exact OnlyIn.refl _ _ | apply OutOnlyIn.next | apply State.engFail_onlyIn | apply OutOnlyIn.cond | apply OnlyIn.cond)
    | extract_lets | dsimp only | split | exact h_arc | exact h_arcCl

theorem State.engAbandon_onlyIn {l : List Block} {r : State} {s : State} {e : Nat} {hard : EngWork → List Nat} (hk : OnlyIn l r s) (h_arc : Block.arc ∈ l) (h_arcCl : Block.arcCl ∈ l) (h_clk : Block.clk ∈ l) (h_evf : Block.evf ∈ l) (h_glb : Block.glb ∈ l) (h_hif : Block.hif ∈ l) (h_hifGlb : Block.hifGlb ∈ l) (h_hlt : Block.hlt ∈ l) (h_hltLn : Block.hltLn ∈ l) (h_leq : Block.leq ∈ l) (h_lfr : Block.lfr ∈ l) (h_lrx : Block.lrx ∈ l) (h_ltx : Block.ltx ∈ l) (h_mgt : Block.mgt ∈ l) (h_optLn : Block.optLn ∈ l) (h_pll : Block.pll ∈ l) (h_pwr : Block.pwr ∈ l) (h_pwrLn : Block.pwrLn ∈ l) (h_tim : Block.tim ∈ l) (h_timLn : Block.timLn ∈ l) :
    OnlyIn l r (State.engAbandon s e hard) := by
  unfold State.engAbandon
  repeat' first
    | intro _
    | (with_reducible first | assumption | exact OnlyIn.refl _ _ | apply State.free_onlyIn | apply State.emit_onlyIn | apply State.cwEnd_onlyIn | apply State.sendHard_onlyIn | apply OnlyIn.cond)
    | extract_lets | dsimp only | split
    | (with_reducible first | apply OnlyIn.other)
    | exact h_arc | exact h_arcCl | exact h_clk | exact h_evf | exact h_glb | exact h_hif | exact h_hifGlb | exact h_hlt | exact h_hltLn | exact h_leq | exact h_lfr | exact h_lrx | exact h_ltx | exact h_mgt | exact h_optLn | exact h_pll | exact h_pwr | exact h_pwrLn | exact h_tim | exact h_timLn

theorem execMicrocodeEccError_onlyIn {l : List Block} {r : State} {e : Fin 128} {double : Bool} {s : State} (hk : OnlyIn l r s) (h_arc : Block.arc ∈ l) (h_arcCl : Block.arcCl ∈ l) (h_clk : Block.clk ∈ l) (h_evf : Block.evf ∈ l) (h_glb : Block.glb ∈ l) (h_hif : Block.hif ∈ l) (h_hifGlb : Block.hifGlb ∈ l) (h_hlt : Block.hlt ∈ l) (h_hltLn : Block.hltLn ∈ l) (h_leq : Block.leq ∈ l) (h_lfr : Block.lfr ∈ l) (h_lrx : Block.lrx ∈ l) (h_ltx : Block.ltx ∈ l) (h_mgt : Block.mgt ∈ l) (h_optLn : Block.optLn ∈ l) (h_pll : Block.pll ∈ l) (h_pwr : Block.pwr ∈ l) (h_pwrLn : Block.pwrLn ∈ l) (h_tim : Block.tim ∈ l) (h_timLn : Block.timLn ∈ l) :
    OutOnlyIn l r (execMicrocodeEccError e double s) := by
  unfold execMicrocodeEccError
  repeat' first
    | intro _
    | (with_reducible first | assumption | exact OnlyIn.refl _ _ | apply OutOnlyIn.next | apply State.bump_onlyIn | apply State.raise_onlyIn | apply State.engAbandon_onlyIn | apply State.engFail_onlyIn | apply State.wr_onlyIn | apply State.setEng_onlyIn | apply OutOnlyIn.cond | apply OnlyIn.cond)
    | extract_lets | dsimp only | split
    | (with_reducible first | apply OnlyIn.other)
    | exact h_arc | exact h_arcCl | exact h_clk | exact h_evf | exact h_glb | exact h_hif | exact h_hifGlb | exact h_hlt | exact h_hltLn | exact h_leq | exact h_lfr | exact h_lrx | exact h_ltx | exact h_mgt | exact h_optLn | exact h_pll | exact h_pwr | exact h_pwrLn | exact h_tim | exact h_timLn

theorem execReleaseBufferWrite_onlyIn {l : List Block} {r : State} {n : Lane} {s : State} (hk : OnlyIn l r s) (h_arcCl : Block.arcCl ∈ l) :
    OutOnlyIn l r (execReleaseBufferWrite n s) := by
  unfold execReleaseBufferWrite
  repeat' first
    | intro _
    | (with_reducible first | assumption | exact OnlyIn.refl _ _ | apply OutOnlyIn.next | apply State.bump_onlyIn | apply State.raise_onlyIn | apply OutOnlyIn.cond | apply OnlyIn.cond)
    | extract_lets | dsimp only | split
    | (with_reducible first | apply OnlyIn.other)
    | exact h_arcCl

theorem State.ingressAm_onlyIn {l : List Block} {r : State} {s : State} {n : Nat} {a : AmSeen} (hk : OnlyIn l r s) (h_hifGlb : Block.hifGlb ∈ l) :
    OnlyIn l r (State.ingressAm s n a) := by
  unfold State.ingressAm
  repeat' first
    | intro _
    | (with_reducible first | assumption | exact OnlyIn.refl _ _ | apply State.wr_onlyIn | apply State.ingressUnlock_onlyIn | apply OnlyIn.when | apply OnlyIn.cond)
    | extract_lets | dsimp only | split | exact h_hifGlb

theorem State.dealOut_onlyIn {l : List Block} {r : State} {s : State} {n payload : Nat} (hk : OnlyIn l r s) (h_arcCl : Block.arcCl ∈ l) :
    OnlyIn l r (State.dealOut s n payload) := by
  unfold State.dealOut
  repeat' first
    | intro _
    | (with_reducible first | assumption | exact OnlyIn.refl _ _ | apply State.setLd_onlyIn | apply State.wr_onlyIn | apply OnlyIn.cond | apply OnlyIn.cond_snd)
    | extract_lets | dsimp only | split
    | (with_reducible first | apply OnlyIn.other)
    | exact h_arcCl

theorem execCodewordRelease_onlyIn {l : List Block} {r : State} {n : Lane} {ui : BitVec 24} {am : Option AmSeen} {s : State} (hk : OnlyIn l r s) (h_arc : Block.arc ∈ l) (h_arcCl : Block.arcCl ∈ l) (h_clk : Block.clk ∈ l) (h_evf : Block.evf ∈ l) (h_glb : Block.glb ∈ l) (h_hif : Block.hif ∈ l) (h_hifGlb : Block.hifGlb ∈ l) (h_hlt : Block.hlt ∈ l) (h_hltLn : Block.hltLn ∈ l) (h_leq : Block.leq ∈ l) (h_lfr : Block.lfr ∈ l) (h_lrx : Block.lrx ∈ l) (h_ltx : Block.ltx ∈ l) (h_mgt : Block.mgt ∈ l) (h_optLn : Block.optLn ∈ l) (h_pll : Block.pll ∈ l) (h_pwrLn : Block.pwrLn ∈ l) (h_tim : Block.tim ∈ l) (h_timLn : Block.timLn ∈ l) :
    OutOnlyIn l r (execCodewordRelease n ui am s) := by
  unfold execCodewordRelease
  repeat' first
    | intro _
    | (with_reducible first | assumption | exact OnlyIn.refl _ _ | apply OutOnlyIn.next | apply State.bump_onlyIn | apply State.raise_onlyIn | apply State.faultEvent_onlyIn | apply State.dealOut_onlyIn | apply State.ingressAm_onlyIn | apply State.wr_onlyIn | apply State.profReleased_onlyIn | apply OnlyIn.when | apply OutOnlyIn.cond | apply OnlyIn.cond)
    | extract_lets | dsimp only | split
    | (with_reducible first | apply OnlyIn.other)
    | exact h_arc | exact h_arcCl | exact h_clk | exact h_evf | exact h_glb | exact h_hif | exact h_hifGlb | exact h_hlt | exact h_hltLn | exact h_leq | exact h_lfr | exact h_lrx | exact h_ltx | exact h_mgt | exact h_optLn | exact h_pll | exact h_pwrLn | exact h_tim | exact h_timLn

theorem State.starve_onlyIn {l : List Block} {r : State} {s : State} {b : BgTask} (hk : OnlyIn l r s) (h_arcCl : Block.arcCl ∈ l) (h_hlt : Block.hlt ∈ l) :
    OnlyIn l r (State.starve s b) := by
  unfold State.starve
  dsimp only
  repeat' first
    | intro _
    | (with_reducible first | assumption | exact OnlyIn.refl _ _ | apply State.bump_onlyIn | apply State.raise_onlyIn | apply OnlyIn.when | apply OnlyIn.cond)
    | extract_lets | dsimp only | split
    | (with_reducible first | apply OnlyIn.other)
    | exact h_arcCl | exact h_hlt

theorem State.starveAll_onlyIn {l : List Block} {r s : State} {limit k : Nat} (hk : OnlyIn l r s) (h_arcCl : Block.arcCl ∈ l)
    (h_hlt : Block.hlt ∈ l) : OnlyIn l r (s.starveAll limit k) := by
  induction k generalizing s with
  | zero => exact hk
  | succ k ih =>
    unfold State.starveAll
    split
    · exact ih (by apply State.starve_onlyIn <;> assumption)
    · exact hk

theorem State.bgAge_onlyIn {l : List Block} {r : State} {s : State} (hk : OnlyIn l r s) (h_arcCl : Block.arcCl ∈ l) (h_hlt : Block.hlt ∈ l) :
    OnlyIn l r (State.bgAge s) := by
  unfold State.bgAge
  repeat' first
    | intro _
    | (with_reducible first | assumption | exact OnlyIn.refl _ _ | apply State.starveAll_onlyIn | apply OnlyIn.cond)
    | extract_lets | dsimp only | split
    | (with_reducible first | apply OnlyIn.other)
    | exact h_arcCl | exact h_hlt

theorem State.bgDone_onlyIn {l : List Block} {r : State} {s : State} {e : Nat} (hk : OnlyIn l r s) (h_arc : Block.arc ∈ l) (h_arcCl : Block.arcCl ∈ l) (h_hlt : Block.hlt ∈ l) :
    OnlyIn l r (State.bgDone s e) := by
  unfold State.bgDone
  repeat' first
    | intro _
    | (with_reducible first | assumption | exact OnlyIn.refl _ _ | apply State.setEng_onlyIn | apply State.wr_onlyIn | apply State.starveAll_onlyIn)
    | extract_lets | dsimp only
    | (with_reducible first | apply OnlyIn.other)
    | exact h_arc | exact h_arcCl | exact h_hlt

theorem execBgTaskDue_onlyIn {l : List Block} {r : State} {e : Fin 128} {refresh : Bool} {s : State} (hk : OnlyIn l r s) :
    OutOnlyIn l r (execBgTaskDue e refresh s) := by
  unfold execBgTaskDue
  repeat' first
    | intro _
    | (with_reducible first | assumption | exact OnlyIn.refl _ _ | apply OutOnlyIn.next | apply OutOnlyIn.cond | apply OnlyIn.cond)
    | extract_lets | dsimp only | split
    | (with_reducible first | apply OnlyIn.other)

theorem execEngineRefreshDone_onlyIn {l : List Block} {r : State} {e : Fin 128} {s : State} (hk : OnlyIn l r s) (h_arc : Block.arc ∈ l) (h_arcCl : Block.arcCl ∈ l) (h_hlt : Block.hlt ∈ l) :
    OutOnlyIn l r (execEngineRefreshDone e s) := by
  unfold execEngineRefreshDone
  repeat' first
    | intro _
    | (with_reducible first | assumption | exact OnlyIn.refl _ _ | apply OutOnlyIn.next | apply State.loadStores_onlyIn | apply State.bgDone_onlyIn | apply OutOnlyIn.cond | apply OnlyIn.cond)
    | extract_lets | split | exact h_arc | exact h_arcCl | exact h_hlt

theorem execHistGatherDone_onlyIn {l : List Block} {r : State} {e : Fin 128} {s : State} (hk : OnlyIn l r s) (h_arc : Block.arc ∈ l) (h_arcCl : Block.arcCl ∈ l) (h_hlt : Block.hlt ∈ l) :
    OutOnlyIn l r (execHistGatherDone e s) := by
  unfold execHistGatherDone
  repeat' first
    | intro _
    | (with_reducible first | assumption | exact OnlyIn.refl _ _ | apply OutOnlyIn.next | apply State.bump_onlyIn | apply State.wr_onlyIn | apply State.bgDone_onlyIn | apply OnlyIn.each | apply OutOnlyIn.cond | apply OnlyIn.cond)
    | extract_lets | dsimp only | split | exact h_arc | exact h_arcCl | exact h_hlt

theorem State.arcClClear_onlyIn {l : List Block} {r : State} {s : State} {c : Nat} (hk : OnlyIn l r s) (h_arcCl : Block.arcCl ∈ l) :
    OnlyIn l r (State.arcClClear s c) := by
  unfold State.arcClClear
  repeat' first
    | intro _
    | (with_reducible first | assumption | exact OnlyIn.refl _ _ | apply State.wr_onlyIn | apply OnlyIn.clear_cons | apply OnlyIn.clear_nil | apply OnlyIn.each)
    | extract_lets | dsimp only | exact h_arcCl

theorem execArcClCntClr_onlyIn {l : List Block} {r : State} {n : Lane} {s : State} (hk : OnlyIn l r s) (h_arcCl : Block.arcCl ∈ l) (h_clk : Block.clk ∈ l) (h_glb : Block.glb ∈ l) :
    OutOnlyIn l r (execArcClCntClr n s) := by
  unfold execArcClCntClr
  repeat' first
    | intro _
    | (with_reducible first | assumption | exact OnlyIn.refl _ _ | apply OutOnlyIn.next | apply State.access_onlyIn | apply State.arcClClear_onlyIn)
    | extract_lets | dsimp only | exact h_arcCl | exact h_clk | exact h_glb

theorem execArcCntClr_onlyIn {l : List Block} {r : State} {s : State} (hk : OnlyIn l r s) (h_arc : Block.arc ∈ l) (h_arcCl : Block.arcCl ∈ l) (h_clk : Block.clk ∈ l) (h_glb : Block.glb ∈ l) :
    OutOnlyIn l r (execArcCntClr s) := by
  unfold execArcCntClr
  repeat' first
    | intro _
    | (with_reducible first | assumption | exact OnlyIn.refl _ _ | apply OutOnlyIn.next | apply State.access_onlyIn | apply State.arcClClear_onlyIn | apply State.wr_onlyIn | apply OnlyIn.each)
    | extract_lets | dsimp only | exact h_arc | exact h_arcCl | exact h_clk | exact h_glb

end Sys2Proof.Machine
end

