-- ==== Sys2Proof/Laws/OnlyIcris.lean ====
section
/-!
SUPPORT. Which blocks the operations of Icris change.
-/
set_option Elab.async false
set_option linter.all false
namespace Sys2Proof.Machine

theorem State.setTodFull_onlyIn {l : List Block} {r : State} {s : State} {v : Int} (hk : OnlyIn l r s) (h_tim : Block.tim ∈ l) :
    OnlyIn l r (State.setTodFull s v) := by
  unfold State.setTodFull
  repeat' first
    | intro _
    | (with_reducible first | assumption | exact OnlyIn.refl _ _ | apply State.wr_onlyIn | apply OnlyIn.puts_cons | apply OnlyIn.puts_nil)
    | extract_lets | exact h_tim

theorem State.slewCancel_onlyIn {l : List Block} {r : State} {s : State} (hk : OnlyIn l r s) (h_tim : Block.tim ∈ l) (h_timLn : Block.timLn ∈ l) :
    OnlyIn l r (State.slewCancel s) := by
  unfold State.slewCancel
  repeat' first
    | intro _
    | (with_reducible first | assumption | exact OnlyIn.refl _ _ | apply State.todDisc_onlyIn | apply State.wr_onlyIn | apply OnlyIn.puts_cons | apply OnlyIn.puts_nil | apply OnlyIn.cond)
    | extract_lets | split | exact h_tim | exact h_timLn

theorem State.todDone_onlyIn {l : List Block} {r : State} {s : State} (hk : OnlyIn l r s) (h_tim : Block.tim ∈ l) :
    OnlyIn l r (State.todDone s) := by
  unfold State.todDone
  repeat' first
    | intro _
    | (with_reducible first | assumption | exact OnlyIn.refl _ _ | apply State.raise_onlyIn | apply State.wr_onlyIn | apply OnlyIn.puts_cons | apply OnlyIn.puts_nil)
    | extract_lets | exact h_tim

theorem State.todJump_onlyIn {l : List Block} {r : State} {s : State} {d : Int} (hk : OnlyIn l r s) (h_tim : Block.tim ∈ l) (h_timLn : Block.timLn ∈ l) :
    OnlyIn l r (State.todJump s d) := by
  unfold State.todJump
  repeat' first
    | intro _
    | (with_reducible first | assumption | exact OnlyIn.refl _ _ | apply State.wrInt_onlyIn | apply State.setTodFull_onlyIn | apply State.bump_onlyIn | apply State.todDisc_onlyIn)
    | extract_lets | exact h_tim | exact h_timLn

theorem State.todSetTo_onlyIn {l : List Block} {r : State} {s : State} {v : Int} (hk : OnlyIn l r s) (h_tim : Block.tim ∈ l) (h_timLn : Block.timLn ∈ l) :
    OnlyIn l r (State.todSetTo s v) := by
  unfold State.todSetTo
  repeat' first
    | intro _
    | (with_reducible first | assumption | exact OnlyIn.refl _ _ | apply State.slewCancel_onlyIn | apply State.todJump_onlyIn | apply State.wr_onlyIn)
    | extract_lets | exact h_tim | exact h_timLn

theorem State.todStepBy_onlyIn {l : List Block} {r : State} {s : State} {d : Int} (hk : OnlyIn l r s) (h_tim : Block.tim ∈ l) (h_timLn : Block.timLn ∈ l) :
    OnlyIn l r (State.todStepBy s d) := by
  unfold State.todStepBy
  repeat' first
    | intro _
    | (with_reducible first | assumption | exact OnlyIn.refl _ _ | apply State.todJump_onlyIn)
    | extract_lets | exact h_tim | exact h_timLn

theorem State.tick_onlyIn {l : List Block} {r : State} {s : State} (hk : OnlyIn l r s) (h_tim : Block.tim ∈ l) (h_timLn : Block.timLn ∈ l) :
    OnlyIn l r (State.tick s) := by
  unfold State.tick
  repeat' first
    | intro _
    | (with_reducible first | assumption | exact OnlyIn.refl _ _ | apply State.wr_onlyIn | apply State.todSetTo_onlyIn | apply State.todDone_onlyIn | apply State.bump_onlyIn | apply State.free_onlyIn | apply State.setTodFull_onlyIn | apply State.wrInt_onlyIn | apply OnlyIn.cond | apply OnlyIn.cond_snd)
    | extract_lets | dsimp only | split
    | (with_reducible first | apply OnlyIn.other)
    | exact h_tim | exact h_timLn

theorem execTodSetNow_onlyIn {l : List Block} {r : State} {s : State} (hk : OnlyIn l r s) (h_clk : Block.clk ∈ l) (h_glb : Block.glb ∈ l) (h_tim : Block.tim ∈ l) (h_timLn : Block.timLn ∈ l) :
    OutOnlyIn l r (execTodSetNow s) := by
  unfold execTodSetNow
  repeat' first
    | intro _
    | (with_reducible first | assumption | exact OnlyIn.refl _ _ | apply OutOnlyIn.next | apply State.access_onlyIn | apply State.slewCancel_onlyIn | apply State.wr_onlyIn | apply OnlyIn.puts_cons | apply OnlyIn.puts_nil)
    | extract_lets | dsimp only | exact h_clk | exact h_glb | exact h_tim | exact h_timLn

theorem execTodSetAtTimeIn_onlyIn {l : List Block} {r : State} {s : State} (hk : OnlyIn l r s) (h_clk : Block.clk ∈ l) (h_glb : Block.glb ∈ l) (h_tim : Block.tim ∈ l) (h_timLn : Block.timLn ∈ l) :
    OutOnlyIn l r (execTodSetAtTimeIn s) := by
  unfold execTodSetAtTimeIn
  repeat' first
    | intro _
    | (with_reducible first | assumption | exact OnlyIn.refl _ _ | apply OutOnlyIn.next | apply State.access_onlyIn | apply State.slewCancel_onlyIn | apply State.wr_onlyIn | apply OnlyIn.puts_cons | apply OnlyIn.puts_nil)
    | extract_lets | dsimp only | exact h_clk | exact h_glb | exact h_tim | exact h_timLn

theorem execTodSetTimeout_onlyIn {l : List Block} {r : State} {s : State} (hk : OnlyIn l r s) (h_tim : Block.tim ∈ l) :
    OutOnlyIn l r (execTodSetTimeout s) := by
  unfold execTodSetTimeout
  repeat' first
    | intro _
    | (with_reducible first | assumption | exact OnlyIn.refl _ _ | apply OutOnlyIn.next | apply State.raise_onlyIn | apply State.wr_onlyIn | apply OnlyIn.puts_cons | apply OnlyIn.puts_nil | apply OutOnlyIn.cond | apply OnlyIn.cond)
    | extract_lets | split | exact h_tim

theorem State.adjust_onlyIn {l : List Block} {r : State} {s : State} {g : State → State} (hk : OnlyIn l r s) (h_tim : Block.tim ∈ l) (hgg : ∀ u, OnlyIn l r u → OnlyIn l r (g u)) :
    OnlyIn l r (State.adjust s g) := by
  unfold State.adjust
  repeat' first
    | intro _
    | (with_reducible first | apply hgg | assumption | exact OnlyIn.refl _ _ | apply State.wr_onlyIn | apply State.raise_onlyIn | apply OnlyIn.cond)
    | extract_lets | split | exact h_tim

theorem execTodStep_onlyIn {l : List Block} {r : State} {s : State} (hk : OnlyIn l r s) (h_clk : Block.clk ∈ l) (h_glb : Block.glb ∈ l) (h_tim : Block.tim ∈ l) (h_timLn : Block.timLn ∈ l) :
    OutOnlyIn l r (execTodStep s) := by
  unfold execTodStep
  repeat' first
    | intro _
    | (with_reducible first | assumption | exact OnlyIn.refl _ _ | apply OutOnlyIn.next | apply State.access_onlyIn | apply State.adjust_onlyIn | apply State.todStepBy_onlyIn | apply State.todDone_onlyIn)
    | extract_lets | dsimp only | exact h_clk | exact h_glb | exact h_tim | exact h_timLn

theorem execTodSlew_onlyIn {l : List Block} {r : State} {s : State} (hk : OnlyIn l r s) (h_clk : Block.clk ∈ l) (h_glb : Block.glb ∈ l) (h_tim : Block.tim ∈ l) (h_timLn : Block.timLn ∈ l) :
    OutOnlyIn l r (execTodSlew s) := by
  unfold execTodSlew
  repeat' first
    | intro _
    | (with_reducible first | assumption | exact OnlyIn.refl _ _ | apply OutOnlyIn.next | apply State.access_onlyIn | apply State.adjust_onlyIn | apply State.wrInt_onlyIn | apply State.todDisc_onlyIn | apply State.wr_onlyIn | apply OnlyIn.puts_cons | apply OnlyIn.puts_nil)
    | extract_lets | dsimp only | exact h_clk | exact h_glb | exact h_tim | exact h_timLn

theorem execTodSlewDone_onlyIn {l : List Block} {r : State} {s : State} (hk : OnlyIn l r s) (h_tim : Block.tim ∈ l) (h_timLn : Block.timLn ∈ l) :
    OutOnlyIn l r (execTodSlewDone s) := by
  unfold execTodSlewDone
  repeat' first
    | intro _
    | (with_reducible first | assumption | exact OnlyIn.refl _ _ | apply OutOnlyIn.next | apply State.setTodFull_onlyIn | apply State.todDisc_onlyIn | apply State.todDone_onlyIn | apply State.wr_onlyIn | apply OnlyIn.puts_cons | apply OnlyIn.puts_nil | apply OutOnlyIn.cond | apply OnlyIn.cond)
    | extract_lets | split | exact h_tim | exact h_timLn

theorem State.tsfPut_onlyIn {l : List Block} {r : State} {s : State} {kind index line time frame : Nat} (hk : OnlyIn l r s) (h_tim : Block.tim ∈ l) :
    OnlyIn l r (State.tsfPut s kind index line time frame) := by
  unfold State.tsfPut
  repeat' first
    | intro _
    | (with_reducible first | assumption | exact OnlyIn.refl _ _ | apply State.wr_onlyIn | apply State.bump_onlyIn | apply State.raise_onlyIn | apply OnlyIn.puts_cons | apply OnlyIn.puts_nil | apply OnlyIn.when | apply OnlyIn.cond)
    | extract_lets | dsimp only | split
    | (with_reducible first | apply OnlyIn.other)
    | exact h_tim

theorem State.stampRx_onlyIn {l : List Block} {r : State} {s : State} {n t ordinal age : Nat} {broken : Bool} (hk : OnlyIn l r s) (h_tim : Block.tim ∈ l) (h_timLn : Block.timLn ∈ l) :
    OnlyIn l r (State.stampRx s n t ordinal age broken) := by
  unfold State.stampRx
  repeat' first
    | intro _
    | (with_reducible first | assumption | exact OnlyIn.refl _ _ | apply State.wrb_onlyIn | apply State.wr_onlyIn | apply State.tsfPut_onlyIn | apply OnlyIn.puts_cons | apply OnlyIn.puts_nil | apply OnlyIn.when)
    | extract_lets | dsimp only | exact h_tim | exact h_timLn

theorem State.stampTx_onlyIn {l : List Block} {r : State} {s : State} {n t ordinal : Nat} {steady : Int} {broken : Bool} (hk : OnlyIn l r s) (h_tim : Block.tim ∈ l) (h_timLn : Block.timLn ∈ l) :
    OnlyIn l r (State.stampTx s n t ordinal steady broken) := by
  unfold State.stampTx
  repeat' first
    | intro _
    | (with_reducible first | assumption | exact OnlyIn.refl _ _ | apply State.setEx_onlyIn | apply State.tsfPut_onlyIn | apply State.wr_onlyIn | apply OnlyIn.puts_cons | apply OnlyIn.puts_nil | apply OnlyIn.when)
    | extract_lets | dsimp only
    | (with_reducible first | apply OnlyIn.other)
    | exact h_tim | exact h_timLn

theorem State.stamp_onlyIn {l : List Block} {r0 : State} {s : State} {r : PointReport} {index t : Nat} {steady : Frac} (hk : OnlyIn l r0 s) (h_tim : Block.tim ∈ l) (h_timHost : Block.timHost ∈ l) (h_timLn : Block.timLn ∈ l) :
    OnlyIn l r0 (State.stamp s r index t steady) := by
  unfold State.stamp
  repeat' first
    | intro _
    | (with_reducible first | assumption | exact OnlyIn.refl _ _ | apply State.bump_onlyIn | apply State.stampRx_onlyIn | apply State.stampTx_onlyIn | apply State.tsfPut_onlyIn | apply State.wr_onlyIn | apply OnlyIn.puts_cons | apply OnlyIn.puts_nil | apply OnlyIn.when | apply OptOnlyIn.getD)
    | extract_lets | dsimp only | split | exact h_tim | exact h_timHost | exact h_timLn

theorem execTimestampEvent_onlyIn {l : List Block} {r0 : State} {r : PointReport} {s : State} (hk : OnlyIn l r0 s) (h_evf : Block.evf ∈ l) (h_glb : Block.glb ∈ l) (h_hif : Block.hif ∈ l) (h_hifGlb : Block.hifGlb ∈ l) (h_hlt : Block.hlt ∈ l) (h_hltLn : Block.hltLn ∈ l) (h_leq : Block.leq ∈ l) (h_lfr : Block.lfr ∈ l) (h_lrx : Block.lrx ∈ l) (h_ltx : Block.ltx ∈ l) (h_mgt : Block.mgt ∈ l) (h_optLn : Block.optLn ∈ l) (h_pwrLn : Block.pwrLn ∈ l) (h_tim : Block.tim ∈ l) (h_timHost : Block.timHost ∈ l) (h_timLn : Block.timLn ∈ l) :
    OutOnlyIn l r0 (execTimestampEvent r s) := by
  unfold execTimestampEvent
  repeat' first
    | intro _
    | (with_reducible first | assumption | exact OnlyIn.refl _ _ | apply OutOnlyIn.next | apply State.straitLoss_onlyIn | apply State.stamp_onlyIn | apply OutOnlyIn.cond | apply OnlyIn.cond)
    | extract_lets | split | exact h_evf | exact h_glb | exact h_hif | exact h_hifGlb | exact h_hlt | exact h_hltLn | exact h_leq | exact h_lfr | exact h_lrx | exact h_ltx | exact h_mgt | exact h_optLn | exact h_pwrLn | exact h_tim | exact h_timHost | exact h_timLn

theorem execCrossCapture_onlyIn {l : List Block} {r : State} {island : Fin 12} {count : BitVec 64} {interval : BitVec 12} {s : State} (hk : OnlyIn l r s) (h_tim : Block.tim ∈ l) :
    OutOnlyIn l r (execCrossCapture island count interval s) := by
  unfold execCrossCapture
  repeat' first
    | intro _
    | (with_reducible first | assumption | exact OnlyIn.refl _ _ | apply OutOnlyIn.next | apply State.wr_onlyIn | apply State.wrInt_onlyIn | apply OutOnlyIn.cond | apply OnlyIn.cond)
    | extract_lets | split | exact h_tim

theorem execDriftMonitor_onlyIn {l : List Block} {r : State} {point : Fin 48} {delta : Int} {ana : BitVec 16} {s : State} (hk : OnlyIn l r s) (h_tim : Block.tim ∈ l) (h_timLn : Block.timLn ∈ l) :
    OutOnlyIn l r (execDriftMonitor point delta ana s) := by
  unfold execDriftMonitor
  repeat' first
    | intro _
    | (with_reducible first | assumption | exact OnlyIn.refl _ _ | apply OutOnlyIn.next | apply State.wrInt_onlyIn | apply State.wr_onlyIn | apply OnlyIn.puts_cons | apply OnlyIn.puts_nil | apply OnlyIn.when | apply OutOnlyIn.cond | apply OnlyIn.cond)
    | extract_lets | dsimp only | split | exact h_tim | exact h_timLn

theorem execTsfRead_onlyIn {l : List Block} {r : State} {s : State} (hk : OnlyIn l r s) (h_clk : Block.clk ∈ l) (h_glb : Block.glb ∈ l) (h_tim : Block.tim ∈ l) :
    OutOnlyIn l r (execTsfRead s) := by
  unfold execTsfRead
  repeat' first
    | intro _
    | (with_reducible first | assumption | exact OnlyIn.refl _ _ | apply OutOnlyIn.next | apply State.access_onlyIn | apply State.wr_onlyIn | apply OnlyIn.puts_cons | apply OnlyIn.puts_nil)
    | extract_lets | dsimp only | split
    | (with_reducible first | apply OnlyIn.other)
    | exact h_clk | exact h_glb | exact h_tim

theorem execTsfFlush_onlyIn {l : List Block} {r : State} {s : State} (hk : OnlyIn l r s) (h_clk : Block.clk ∈ l) (h_glb : Block.glb ∈ l) (h_tim : Block.tim ∈ l) :
    OutOnlyIn l r (execTsfFlush s) := by
  unfold execTsfFlush
  repeat' first
    | intro _
    | (with_reducible first | assumption | exact OnlyIn.refl _ _ | apply OutOnlyIn.next | apply State.access_onlyIn | apply State.wr_onlyIn)
    | extract_lets | dsimp only
    | (with_reducible first | apply OnlyIn.other)
    | exact h_clk | exact h_glb | exact h_tim

theorem execTimCntClr_onlyIn {l : List Block} {r : State} {s : State} (hk : OnlyIn l r s) (h_clk : Block.clk ∈ l) (h_glb : Block.glb ∈ l) (h_tim : Block.tim ∈ l) :
    OutOnlyIn l r (execTimCntClr s) := by
  unfold execTimCntClr
  repeat' first
    | intro _
    | (with_reducible first | assumption | exact OnlyIn.refl _ _ | apply OutOnlyIn.next | apply State.access_onlyIn | apply State.wr_onlyIn | apply OnlyIn.clear_cons | apply OnlyIn.clear_nil)
    | extract_lets | dsimp only | exact h_clk | exact h_glb | exact h_tim

theorem execTimLnCntClr_onlyIn {l : List Block} {r : State} {n : Lane} {s : State} (hk : OnlyIn l r s) (h_clk : Block.clk ∈ l) (h_glb : Block.glb ∈ l) (h_timLn : Block.timLn ∈ l) :
    OutOnlyIn l r (execTimLnCntClr n s) := by
  unfold execTimLnCntClr
  repeat' first
    | intro _
    | (with_reducible first | assumption | exact OnlyIn.refl _ _ | apply OutOnlyIn.next | apply State.access_onlyIn | apply State.wr_onlyIn | apply OnlyIn.clear_cons | apply OnlyIn.clear_nil)
    | extract_lets | dsimp only | exact h_clk | exact h_glb | exact h_timLn

theorem execLedgerPublish_onlyIn {l : List Block} {r : State} {n : Lane} {s : State} (hk : OnlyIn l r s) (h_tim : Block.tim ∈ l) (h_timLn : Block.timLn ∈ l) :
    OutOnlyIn l r (execLedgerPublish n s) := by
  unfold execLedgerPublish
  repeat' first
    | intro _
    | (with_reducible first | assumption | exact OnlyIn.refl _ _ | apply OutOnlyIn.next | apply State.raise_onlyIn | apply State.wr_onlyIn | apply State.wrInt_onlyIn | apply OnlyIn.puts_cons | apply OnlyIn.puts_nil | apply OnlyIn.when | apply OutOnlyIn.cond | apply OnlyIn.cond | apply OptOnlyIn.getD)
    | extract_lets | dsimp only | split | exact h_tim | exact h_timLn

theorem State.regionV2_onlyIn {l : List Block} {r : State} {s : State} {n : Nat} {late : Bool} (hk : OnlyIn l r s) (h_timLn : Block.timLn ∈ l) :
    OnlyIn l r (State.regionV2 s n late) := by
  unfold State.regionV2
  repeat' first
    | intro _
    | (with_reducible first | assumption | exact OnlyIn.refl _ _ | apply State.setEx_onlyIn | apply State.bump_onlyIn | apply State.wr_onlyIn | apply OnlyIn.puts_cons | apply OnlyIn.puts_nil | apply OnlyIn.when | apply OnlyIn.cond | apply OptOnlyIn.getD)
    | extract_lets | dsimp only | split
    | (with_reducible first | apply OnlyIn.other)
    | exact h_timLn

theorem execIcrisRegionWrite_onlyIn {l : List Block} {r : State} {n : Lane} {late : Bool} {s : State} (hk : OnlyIn l r s) (h_lfr : Block.lfr ∈ l) (h_timLn : Block.timLn ∈ l) :
    OutOnlyIn l r (execIcrisRegionWrite n late s) := by
  unfold execIcrisRegionWrite
  repeat' first
    | intro _
    | (with_reducible first | assumption | exact OnlyIn.refl _ _ | apply OutOnlyIn.next | apply State.bump_onlyIn | apply State.regionV2_onlyIn | apply State.outRegion_onlyIn | apply OutOnlyIn.cond | apply OnlyIn.cond)
    | extract_lets | split | exact h_lfr | exact h_timLn

theorem execIcrisInitiate_onlyIn {l : List Block} {r : State} {n : Lane} {s : State} (hk : OnlyIn l r s) :
    OutOnlyIn l r (execIcrisInitiate n s) := by
  unfold execIcrisInitiate
  repeat' first
    | intro _
    | (with_reducible first | assumption | exact OnlyIn.refl _ _ | apply OutOnlyIn.next | apply State.setEx_onlyIn | apply OutOnlyIn.cond | apply OnlyIn.cond)
    | extract_lets | split
    | (with_reducible first | apply OnlyIn.other)

theorem execInitiationMiss_onlyIn {l : List Block} {r : State} {n : Lane} {seq : BitVec 16} {s : State} (hk : OnlyIn l r s) (h_timLn : Block.timLn ∈ l) :
    OutOnlyIn l r (execInitiationMiss n seq s) := by
  unfold execInitiationMiss
  repeat' first
    | intro _
    | (with_reducible first | assumption | exact OnlyIn.refl _ _ | apply OutOnlyIn.next | apply State.setEx_onlyIn | apply State.bump_onlyIn | apply OutOnlyIn.cond | apply OnlyIn.cond)
    | extract_lets | dsimp only | split
    | (with_reducible first | apply OnlyIn.other)
    | exact h_timLn

theorem execExchStale_onlyIn {l : List Block} {r : State} {n : Lane} {s : State} (hk : OnlyIn l r s) (h_tim : Block.tim ∈ l) (h_timLn : Block.timLn ∈ l) :
    OutOnlyIn l r (execExchStale n s) := by
  unfold execExchStale
  repeat' first
    | intro _
    | (with_reducible first | assumption | exact OnlyIn.refl _ _ | apply OutOnlyIn.next | apply State.wr_onlyIn | apply State.raise_onlyIn | apply OutOnlyIn.cond | apply OnlyIn.cond)
    | extract_lets | split | exact h_tim | exact h_timLn

theorem execRestartAvg_onlyIn {l : List Block} {r : State} {n : Lane} {s : State} (hk : OnlyIn l r s) (h_clk : Block.clk ∈ l) (h_glb : Block.glb ∈ l) (h_timLn : Block.timLn ∈ l) :
    OutOnlyIn l r (execRestartAvg n s) := by
  unfold execRestartAvg
  repeat' first
    | intro _
    | (with_reducible first | assumption | exact OnlyIn.refl _ _ | apply OutOnlyIn.next | apply State.access_onlyIn | apply State.exchClear_onlyIn)
    | extract_lets | dsimp only | exact h_clk | exact h_glb | exact h_timLn

theorem State.results_onlyIn {l : List Block} {r : State} {s : State} {n : Nat} (hk : OnlyIn l r s) (h_timLn : Block.timLn ∈ l) :
    OnlyIn l r (State.results s n) := by
  unfold State.results
  repeat' first
    | intro _
    | (with_reducible first | assumption | exact OnlyIn.refl _ _ | apply State.wrInt_onlyIn | apply State.wr_onlyIn)
    | extract_lets | exact h_timLn

theorem State.ranging_onlyIn {l : List Block} {r : State} {s : State} (hk : OnlyIn l r s) (h_tim : Block.tim ∈ l) (h_timLn : Block.timLn ∈ l) :
    OnlyIn l r (State.ranging s) := by
  unfold State.ranging
  repeat' first
    | intro _
    | (with_reducible first | assumption | exact OnlyIn.refl _ _ | apply State.wrInt_onlyIn | apply State.wrFree_onlyIn | apply State.wr_onlyIn | apply State.wrb_onlyIn | apply State.raise_onlyIn | apply OnlyIn.puts_cons | apply OnlyIn.puts_nil | apply OnlyIn.each | apply OnlyIn.when | apply OnlyIn.foldl | apply OnlyIn.cond | apply OnlyIn.cond_snd | apply OptOnlyIn.getD)
    | extract_lets | dsimp only | split | exact h_tim | exact h_timLn

theorem State.phaseError_onlyIn {l : List Block} {r : State} {s : State} {e : Int} (hk : OnlyIn l r s) (h_tim : Block.tim ∈ l) :
    OnlyIn l r (State.phaseError s e) := by
  unfold State.phaseError
  repeat' first
    | intro _
    | (with_reducible first | assumption | exact OnlyIn.refl _ _ | apply State.wr_onlyIn | apply State.wrInt_onlyIn)
    | extract_lets | exact h_tim

theorem State.exchange_onlyIn {l : List Block} {r : State} {s : State} {n : Nat} {t1 : Nat} {e : EchoIn} {v1 : Bool} (hk : OnlyIn l r s) (h_tim : Block.tim ∈ l) (h_timLn : Block.timLn ∈ l) :
    OnlyIn l r (State.exchange s n t1 e v1) := by
  unfold State.exchange
  repeat' first
    | intro _
    | (with_reducible first | assumption | exact OnlyIn.refl _ _ | apply State.setEx_onlyIn | apply State.free_onlyIn | apply State.bump_onlyIn | apply State.wr_onlyIn | apply State.results_onlyIn | apply State.ranging_onlyIn | apply State.phaseError_onlyIn | apply OnlyIn.when | apply OnlyIn.cond | apply OnlyIn.cond_snd | apply OptOnlyIn.getD)
    | extract_lets | dsimp only | split
    | (with_reducible first | apply OnlyIn.other)
    | exact h_tim | exact h_timLn

theorem execEchoReceived_onlyIn {l : List Block} {r : State} {n : Lane} {s : State} (hk : OnlyIn l r s) (h_tim : Block.tim ∈ l) (h_timLn : Block.timLn ∈ l) :
    OutOnlyIn l r (execEchoReceived n s) := by
  unfold execEchoReceived
  repeat' first
    | intro _
    | (with_reducible first | assumption | exact OnlyIn.refl _ _ | apply OutOnlyIn.next | apply State.setEx_onlyIn | apply State.exchClear_onlyIn | apply State.bump_onlyIn | apply State.wr_onlyIn | apply State.exchange_onlyIn | apply OutOnlyIn.cond | apply OnlyIn.cond)
    | extract_lets | dsimp only | split
    | (with_reducible first | apply OnlyIn.other)
    | exact h_tim | exact h_timLn

theorem State.steer_onlyIn {l : List Block} {r : State} {s : State} (hk : OnlyIn l r s) (h_tim : Block.tim ∈ l) :
    OnlyIn l r (State.steer s) := by
  unfold State.steer
  repeat' first
    | intro _
    | (with_reducible first | assumption | exact OnlyIn.refl _ _ | apply State.free_onlyIn | apply State.wrInt_onlyIn)
    | extract_lets | dsimp only
    | (with_reducible first | apply OnlyIn.other)
    | exact h_tim

theorem execDpllUpdate_onlyIn {l : List Block} {r : State} {s : State} (hk : OnlyIn l r s) (h_tim : Block.tim ∈ l) (h_timLn : Block.timLn ∈ l) :
    OutOnlyIn l r (execDpllUpdate s) := by
  unfold execDpllUpdate
  repeat' first
    | intro _
    | (with_reducible first | assumption | exact OnlyIn.refl _ _ | apply OutOnlyIn.next | apply State.wr_onlyIn | apply State.free_onlyIn | apply State.wrInt_onlyIn | apply State.todStepBy_onlyIn | apply State.raise_onlyIn | apply State.steer_onlyIn | apply OnlyIn.puts_cons | apply OnlyIn.puts_nil | apply OnlyIn.when | apply OutOnlyIn.cond | apply OnlyIn.cond | apply OnlyIn.cond_snd)
    | extract_lets | dsimp only | split | exact h_tim | exact h_timLn

theorem execDpllMissedUpdate_onlyIn {l : List Block} {r : State} {s : State} (hk : OnlyIn l r s) (h_tim : Block.tim ∈ l) :
    OutOnlyIn l r (execDpllMissedUpdate s) := by
  unfold execDpllMissedUpdate
  repeat' first
    | intro _
    | (with_reducible first | assumption | exact OnlyIn.refl _ _ | apply OutOnlyIn.next | apply State.wr_onlyIn | apply State.raise_onlyIn | apply State.free_onlyIn | apply State.wrInt_onlyIn | apply OnlyIn.puts_cons | apply OnlyIn.puts_nil | apply OnlyIn.foldl | apply OutOnlyIn.cond | apply OnlyIn.cond | apply OnlyIn.cond_snd)
    | extract_lets | dsimp only | split | exact h_tim

theorem State.psUnits_onlyIn {l : List Block} {r : State} {s : State} {ps : Int} (hk : OnlyIn l r s) :
    OnlyIn l r (State.psUnits s ps).2 := by
  unfold State.psUnits
  repeat' first
    | intro _
    | (with_reducible first | assumption | exact OnlyIn.refl _ _ | apply State.free_onlyIn | apply OnlyIn.cond_snd | apply OnlyIn.cond)
    | extract_lets | dsimp only | split

theorem execTimeInEdge_onlyIn {l : List Block} {r : State} {offset : BitVec 17} {s : State} (hk : OnlyIn l r s) (h_evf : Block.evf ∈ l) (h_hif : Block.hif ∈ l) (h_hifGlb : Block.hifGlb ∈ l) (h_hlt : Block.hlt ∈ l) (h_hltLn : Block.hltLn ∈ l) (h_leq : Block.leq ∈ l) (h_lfr : Block.lfr ∈ l) (h_lrx : Block.lrx ∈ l) (h_ltx : Block.ltx ∈ l) (h_mgt : Block.mgt ∈ l) (h_pwr : Block.pwr ∈ l) (h_pwrLn : Block.pwrLn ∈ l) (h_tim : Block.tim ∈ l) (h_timLn : Block.timLn ∈ l) :
    OutOnlyIn l r (execTimeInEdge offset s) := by
  unfold execTimeInEdge
  repeat' first
    | intro _
    | (with_reducible first | assumption | exact OnlyIn.refl _ _ | apply OutOnlyIn.next | apply State.wakeDevice_onlyIn | apply State.bump_onlyIn | apply State.psUnits_onlyIn | apply State.wr_onlyIn | apply State.tsfPut_onlyIn | apply State.phaseError_onlyIn | apply State.todSetTo_onlyIn | apply State.todDone_onlyIn | apply OnlyIn.puts_cons | apply OnlyIn.puts_nil | apply OnlyIn.when | apply OutOnlyIn.cond | apply OnlyIn.cond | apply OnlyIn.cond_snd)
    | extract_lets | dsimp only | split | exact h_evf | exact h_hif | exact h_hifGlb | exact h_hlt | exact h_hltLn | exact h_leq | exact h_lfr | exact h_lrx | exact h_ltx | exact h_mgt | exact h_pwr | exact h_pwrLn | exact h_tim | exact h_timLn

theorem execTimeInMiss_onlyIn {l : List Block} {r : State} {s : State} (hk : OnlyIn l r s) (h_tim : Block.tim ∈ l) :
    OutOnlyIn l r (execTimeInMiss s) := by
  unfold execTimeInMiss
  repeat' first
    | intro _
    | (with_reducible first | assumption | exact OnlyIn.refl _ _ | apply OutOnlyIn.next | apply State.raise_onlyIn | apply OutOnlyIn.cond | apply OnlyIn.cond)
    | extract_lets | split | exact h_tim

theorem execTimeOutPulse_onlyIn {l : List Block} {r : State} {s : State} (hk : OnlyIn l r s) (h_tim : Block.tim ∈ l) :
    OutOnlyIn l r (execTimeOutPulse s) := by
  unfold execTimeOutPulse
  repeat' first
    | intro _
    | (with_reducible first | assumption | exact OnlyIn.refl _ _ | apply OutOnlyIn.next | apply State.psUnits_onlyIn | apply State.wr_onlyIn | apply OnlyIn.puts_cons | apply OnlyIn.puts_nil | apply OutOnlyIn.cond | apply OnlyIn.cond | apply OnlyIn.cond_snd)
    | extract_lets | dsimp only | split | exact h_tim

theorem execSuspectEnd_onlyIn {l : List Block} {r : State} {s : State} (hk : OnlyIn l r s) (h_tim : Block.tim ∈ l) :
    OutOnlyIn l r (execSuspectEnd s) := by
  unfold execSuspectEnd
  repeat' first
    | intro _
    | (with_reducible first | assumption | exact OnlyIn.refl _ _ | apply OutOnlyIn.next | apply State.wr_onlyIn | apply OutOnlyIn.cond | apply OnlyIn.cond)
    | extract_lets | split | exact h_tim

end Sys2Proof.Machine
end

