-- ==== Sys2Proof/Laws/OnlyClocks.lean ====
section
/-!
SUPPORT. Which blocks the operations of Clocks change.
-/
set_option Elab.async false
set_option linter.all false
namespace Sys2Proof.Machine

theorem State.pllEffects_onlyIn {l : List Block} {r : State} {s : State} {p : Nat} {lol : Bool} (hk : OnlyIn l r s) (h_evf : Block.evf ∈ l) (h_hif : Block.hif ∈ l) (h_hifGlb : Block.hifGlb ∈ l) (h_hlt : Block.hlt ∈ l) (h_hltLn : Block.hltLn ∈ l) (h_leq : Block.leq ∈ l) (h_lfr : Block.lfr ∈ l) (h_lrx : Block.lrx ∈ l) (h_ltx : Block.ltx ∈ l) (h_mgt : Block.mgt ∈ l) (h_optLn : Block.optLn ∈ l) (h_pwrLn : Block.pwrLn ∈ l) (h_tim : Block.tim ∈ l) (h_timLn : Block.timLn ∈ l) :
    OnlyIn l r (State.pllEffects s p lol) := by
  unfold State.pllEffects
  repeat' first
    | intro _
    | (with_reducible first | assumption | exact OnlyIn.refl _ _ | apply State.capStop_onlyIn | apply State.lrxToCal_onlyIn | apply State.ltxFault_onlyIn | apply State.wr_onlyIn | apply State.ltxRecheck_onlyIn | apply State.hifToCal_onlyIn | apply OnlyIn.puts_cons | apply OnlyIn.puts_nil | apply OnlyIn.each | apply OnlyIn.when | apply OnlyIn.cond)
    | extract_lets | dsimp only | split | exact h_evf | exact h_hif | exact h_hifGlb | exact h_hlt | exact h_hltLn | exact h_leq | exact h_lfr | exact h_lrx | exact h_ltx | exact h_mgt | exact h_optLn | exact h_pwrLn | exact h_tim | exact h_timLn

theorem State.pllCalStart_onlyIn {l : List Block} {r : State} {s : State} {p : Nat} (hk : OnlyIn l r s) (h_arc : Block.arc ∈ l) (h_clk : Block.clk ∈ l) (h_evf : Block.evf ∈ l) (h_glb : Block.glb ∈ l) (h_pll : Block.pll ∈ l) (h_tim : Block.tim ∈ l) :
    OnlyIn l r (State.pllCalStart s p) := by
  unfold State.pllCalStart
  repeat' first
    | intro _
    | (with_reducible first | assumption | exact OnlyIn.refl _ _ | apply State.setMask_onlyIn | apply State.wr_onlyIn | apply State.pllSet_onlyIn | apply State.pllGate_onlyIn | apply OnlyIn.puts_cons | apply OnlyIn.puts_nil | apply OnlyIn.when | apply OnlyIn.cond)
    | extract_lets | dsimp only | split | exact h_arc | exact h_clk | exact h_evf | exact h_glb | exact h_pll | exact h_tim

theorem State.pllLockedNow_onlyIn {l : List Block} {r : State} {s : State} {p : Nat} (hk : OnlyIn l r s) (h_clk : Block.clk ∈ l) (h_evf : Block.evf ∈ l) (h_glb : Block.glb ∈ l) (h_ltx : Block.ltx ∈ l) (h_pll : Block.pll ∈ l) (h_pwrLn : Block.pwrLn ∈ l) :
    OnlyIn l r (State.pllLockedNow s p) := by
  unfold State.pllLockedNow
  repeat' first
    | intro _
    | (with_reducible first | assumption | exact OnlyIn.refl _ _ | apply State.atcRun_onlyIn | apply State.straitFlush_onlyIn | apply State.pllSet_onlyIn | apply State.wr_onlyIn | apply State.xbarFollow_onlyIn | apply State.ltxRecheck_onlyIn | apply OnlyIn.puts_cons | apply OnlyIn.puts_nil | apply OnlyIn.each | apply OnlyIn.when)
    | extract_lets | dsimp only | exact h_clk | exact h_evf | exact h_glb | exact h_ltx | exact h_pll | exact h_pwrLn

theorem State.pllLol_onlyIn {l : List Block} {r : State} {s : State} {p : Nat} (hk : OnlyIn l r s) (h_arc : Block.arc ∈ l) (h_clk : Block.clk ∈ l) (h_evf : Block.evf ∈ l) (h_glb : Block.glb ∈ l) (h_hif : Block.hif ∈ l) (h_hifGlb : Block.hifGlb ∈ l) (h_hlt : Block.hlt ∈ l) (h_hltLn : Block.hltLn ∈ l) (h_leq : Block.leq ∈ l) (h_lfr : Block.lfr ∈ l) (h_lrx : Block.lrx ∈ l) (h_ltx : Block.ltx ∈ l) (h_mgt : Block.mgt ∈ l) (h_optLn : Block.optLn ∈ l) (h_pll : Block.pll ∈ l) (h_pwrLn : Block.pwrLn ∈ l) (h_tim : Block.tim ∈ l) (h_timLn : Block.timLn ∈ l) :
    OnlyIn l r (State.pllLol s p) := by
  unfold State.pllLol
  repeat' first
    | intro _
    | (with_reducible first | assumption | exact OnlyIn.refl _ _ | apply State.bump_onlyIn | apply State.wr_onlyIn | apply State.raise_onlyIn | apply State.pllEffects_onlyIn | apply State.faultEvent_onlyIn)
    | extract_lets | exact h_arc | exact h_clk | exact h_evf | exact h_glb | exact h_hif | exact h_hifGlb | exact h_hlt | exact h_hltLn | exact h_leq | exact h_lfr | exact h_lrx | exact h_ltx | exact h_mgt | exact h_optLn | exact h_pll | exact h_pwrLn | exact h_tim | exact h_timLn

theorem execPllLockWindow_onlyIn {l : List Block} {r : State} {p : Fin 5} {errPpm : Int} {phaseOk slip : Bool} {s : State} (hk : OnlyIn l r s) (h_arc : Block.arc ∈ l) (h_clk : Block.clk ∈ l) (h_evf : Block.evf ∈ l) (h_glb : Block.glb ∈ l) (h_hif : Block.hif ∈ l) (h_hifGlb : Block.hifGlb ∈ l) (h_hlt : Block.hlt ∈ l) (h_hltLn : Block.hltLn ∈ l) (h_leq : Block.leq ∈ l) (h_lfr : Block.lfr ∈ l) (h_lrx : Block.lrx ∈ l) (h_ltx : Block.ltx ∈ l) (h_mgt : Block.mgt ∈ l) (h_optLn : Block.optLn ∈ l) (h_pll : Block.pll ∈ l) (h_pwrLn : Block.pwrLn ∈ l) (h_tim : Block.tim ∈ l) (h_timLn : Block.timLn ∈ l) :
    OutOnlyIn l r (execPllLockWindow p errPpm phaseOk slip s) := by
  unfold execPllLockWindow
  repeat' first
    | intro _
    | (with_reducible first | assumption | exact OnlyIn.refl _ _ | apply OutOnlyIn.next | apply State.wrInt_onlyIn | apply State.pllGate_onlyIn | apply State.pllSet_onlyIn | apply State.pllLol_onlyIn | apply State.pllCalStart_onlyIn | apply State.wr_onlyIn | apply State.pllLockedNow_onlyIn | apply OnlyIn.when | apply OutOnlyIn.cond | apply OnlyIn.cond)
    | extract_lets | dsimp only | split | exact h_arc | exact h_clk | exact h_evf | exact h_glb | exact h_hif | exact h_hifGlb | exact h_hlt | exact h_hltLn | exact h_leq | exact h_lfr | exact h_lrx | exact h_ltx | exact h_mgt | exact h_optLn | exact h_pll | exact h_pwrLn | exact h_tim | exact h_timLn

theorem State.pllRequest_onlyIn {l : List Block} {r : State} {s : State} {p : Nat} (hk : OnlyIn l r s) (h_evf : Block.evf ∈ l) (h_hltLn : Block.hltLn ∈ l) (h_ltx : Block.ltx ∈ l) (h_optLn : Block.optLn ∈ l) (h_pll : Block.pll ∈ l) (h_pwrLn : Block.pwrLn ∈ l) :
    OnlyIn l r (State.pllRequest s p) := by
  unfold State.pllRequest
  repeat' first
    | intro _
    | (with_reducible first | assumption | exact OnlyIn.refl _ _ | apply State.ltxDisable_onlyIn | apply State.wr_onlyIn | apply OnlyIn.puts_cons | apply OnlyIn.puts_nil | apply OnlyIn.each | apply OnlyIn.cond)
    | extract_lets | dsimp only | split | exact h_evf | exact h_hltLn | exact h_ltx | exact h_optLn | exact h_pll | exact h_pwrLn

theorem execPllCalReq_onlyIn {l : List Block} {r : State} {mask : BitVec 5} {s : State} (hk : OnlyIn l r s) (h_clk : Block.clk ∈ l) (h_evf : Block.evf ∈ l) (h_glb : Block.glb ∈ l) (h_hltLn : Block.hltLn ∈ l) (h_ltx : Block.ltx ∈ l) (h_optLn : Block.optLn ∈ l) (h_pll : Block.pll ∈ l) (h_pwrLn : Block.pwrLn ∈ l) :
    OutOnlyIn l r (execPllCalReq mask s) := by
  unfold execPllCalReq
  repeat' first
    | intro _
    | (with_reducible first | assumption | exact OnlyIn.refl _ _ | apply OutOnlyIn.next | apply State.access_onlyIn | apply State.setMask_onlyIn | apply State.wr_onlyIn | apply State.pllRequest_onlyIn | apply OnlyIn.each | apply OutOnlyIn.cond | apply OnlyIn.cond)
    | extract_lets | dsimp only | split | exact h_clk | exact h_evf | exact h_glb | exact h_hltLn | exact h_ltx | exact h_optLn | exact h_pll | exact h_pwrLn

theorem execPllCalStart_onlyIn {l : List Block} {r : State} {p : Fin 5} {s : State} (hk : OnlyIn l r s) (h_arc : Block.arc ∈ l) (h_clk : Block.clk ∈ l) (h_evf : Block.evf ∈ l) (h_glb : Block.glb ∈ l) (h_hif : Block.hif ∈ l) (h_hifGlb : Block.hifGlb ∈ l) (h_hlt : Block.hlt ∈ l) (h_hltLn : Block.hltLn ∈ l) (h_leq : Block.leq ∈ l) (h_lfr : Block.lfr ∈ l) (h_lrx : Block.lrx ∈ l) (h_ltx : Block.ltx ∈ l) (h_mgt : Block.mgt ∈ l) (h_optLn : Block.optLn ∈ l) (h_pll : Block.pll ∈ l) (h_pwrLn : Block.pwrLn ∈ l) (h_tim : Block.tim ∈ l) (h_timLn : Block.timLn ∈ l) :
    OutOnlyIn l r (execPllCalStart p s) := by
  unfold execPllCalStart
  repeat' first
    | intro _
    | (with_reducible first | assumption | exact OnlyIn.refl _ _ | apply OutOnlyIn.next | apply State.pllCalStart_onlyIn | apply State.pllEffects_onlyIn | apply OutOnlyIn.cond | apply OnlyIn.cond)
    | extract_lets | split | exact h_arc | exact h_clk | exact h_evf | exact h_glb | exact h_hif | exact h_hifGlb | exact h_hlt | exact h_hltLn | exact h_leq | exact h_lfr | exact h_lrx | exact h_ltx | exact h_mgt | exact h_optLn | exact h_pll | exact h_pwrLn | exact h_tim | exact h_timLn

theorem State.pllServed_onlyIn {l : List Block} {r : State} {s : State} {p : Nat} (hk : OnlyIn l r s) (h_hlt : Block.hlt ∈ l) (h_pll : Block.pll ∈ l) :
    OnlyIn l r (State.pllServed s p) := by
  unfold State.pllServed
  repeat' first
    | intro _
    | (with_reducible first | assumption | exact OnlyIn.refl _ _ | apply State.wr_onlyIn | apply State.clearLasting_onlyIn | apply OnlyIn.when)
    | extract_lets | dsimp only | exact h_hlt | exact h_pll

theorem State.pllCalLocked_onlyIn {l : List Block} {r : State} {s : State} {p band : Nat} (hk : OnlyIn l r s) (h_clk : Block.clk ∈ l) (h_evf : Block.evf ∈ l) (h_glb : Block.glb ∈ l) (h_hlt : Block.hlt ∈ l) (h_ltx : Block.ltx ∈ l) (h_pll : Block.pll ∈ l) (h_pwrLn : Block.pwrLn ∈ l) :
    OnlyIn l r (State.pllCalLocked s p band) := by
  unfold State.pllCalLocked
  repeat' first
    | intro _
    | (with_reducible first | assumption | exact OnlyIn.refl _ _ | apply State.pllServed_onlyIn | apply State.pllLockedNow_onlyIn | apply State.wr_onlyIn | apply OnlyIn.puts_cons | apply OnlyIn.puts_nil)
    | extract_lets | exact h_clk | exact h_evf | exact h_glb | exact h_hlt | exact h_ltx | exact h_pll | exact h_pwrLn

theorem execPllCalDone_onlyIn {l : List Block} {r : State} {p : Fin 5} {band : BitVec 6} {s : State} (hk : OnlyIn l r s) (h_arc : Block.arc ∈ l) (h_clk : Block.clk ∈ l) (h_evf : Block.evf ∈ l) (h_glb : Block.glb ∈ l) (h_hlt : Block.hlt ∈ l) (h_ltx : Block.ltx ∈ l) (h_pll : Block.pll ∈ l) (h_pwrLn : Block.pwrLn ∈ l) (h_tim : Block.tim ∈ l) :
    OutOnlyIn l r (execPllCalDone p band s) := by
  unfold execPllCalDone
  repeat' first
    | intro _
    | (with_reducible first | assumption | exact OnlyIn.refl _ _ | apply OutOnlyIn.next | apply State.bump_onlyIn | apply State.raise_onlyIn | apply State.wr_onlyIn | apply State.pllSet_onlyIn | apply State.pllCalLocked_onlyIn | apply State.pllCalStart_onlyIn | apply OnlyIn.puts_cons | apply OnlyIn.puts_nil | apply OnlyIn.each | apply OnlyIn.when | apply OutOnlyIn.cond | apply OnlyIn.cond)
    | extract_lets | dsimp only | split | exact h_arc | exact h_clk | exact h_evf | exact h_glb | exact h_hlt | exact h_ltx | exact h_pll | exact h_pwrLn | exact h_tim

theorem State.refOutage_onlyIn {l : List Block} {r : State} {s : State} (hk : OnlyIn l r s) (h_clk : Block.clk ∈ l) (h_evf : Block.evf ∈ l) (h_glb : Block.glb ∈ l) (h_pll : Block.pll ∈ l) :
    OnlyIn l r (State.refOutage s) := by
  unfold State.refOutage
  repeat' first
    | intro _
    | (with_reducible first | assumption | exact OnlyIn.refl _ _ | apply State.raise_onlyIn | apply State.wr_onlyIn | apply State.wrb_onlyIn | apply State.pllSet_onlyIn | apply OnlyIn.puts_cons | apply OnlyIn.puts_nil | apply OnlyIn.each | apply OnlyIn.when)
    | extract_lets | dsimp only | exact h_clk | exact h_evf | exact h_glb | exact h_pll

theorem execRefLost_onlyIn {l : List Block} {r : State} {s : State} (hk : OnlyIn l r s) (h_clk : Block.clk ∈ l) (h_evf : Block.evf ∈ l) (h_glb : Block.glb ∈ l) (h_pll : Block.pll ∈ l) :
    OutOnlyIn l r (execRefLost s) := by
  unfold execRefLost
  repeat' first
    | intro _
    | (with_reducible first | assumption | exact OnlyIn.refl _ _ | apply OutOnlyIn.next | apply State.raise_onlyIn | apply State.refOutage_onlyIn | apply State.wr_onlyIn | apply OnlyIn.puts_cons | apply OnlyIn.puts_nil | apply OutOnlyIn.cond | apply OnlyIn.cond)
    | extract_lets | split | exact h_clk | exact h_evf | exact h_glb | exact h_pll

theorem execRefCountDone_onlyIn {l : List Block} {r : State} {count : BitVec 16} {s : State} (hk : OnlyIn l r s) (h_clk : Block.clk ∈ l) (h_evf : Block.evf ∈ l) (h_glb : Block.glb ∈ l) (h_pll : Block.pll ∈ l) :
    OutOnlyIn l r (execRefCountDone count s) := by
  unfold execRefCountDone
  repeat' first
    | intro _
    | (with_reducible first | assumption | exact OnlyIn.refl _ _ | apply OutOnlyIn.next | apply State.wr_onlyIn | apply State.raise_onlyIn | apply State.refOutage_onlyIn | apply OnlyIn.puts_cons | apply OnlyIn.puts_nil | apply OnlyIn.when | apply OutOnlyIn.cond | apply OnlyIn.cond)
    | extract_lets | dsimp only | split | exact h_clk | exact h_evf | exact h_glb | exact h_pll

theorem State.refLoss_onlyIn {l : List Block} {r : State} {s : State} (hk : OnlyIn l r s) (h_arc : Block.arc ∈ l) (h_clk : Block.clk ∈ l) (h_evf : Block.evf ∈ l) (h_glb : Block.glb ∈ l) (h_hif : Block.hif ∈ l) (h_hifGlb : Block.hifGlb ∈ l) (h_hlt : Block.hlt ∈ l) (h_hltLn : Block.hltLn ∈ l) (h_leq : Block.leq ∈ l) (h_lfr : Block.lfr ∈ l) (h_lrx : Block.lrx ∈ l) (h_ltx : Block.ltx ∈ l) (h_mgt : Block.mgt ∈ l) (h_optLn : Block.optLn ∈ l) (h_pll : Block.pll ∈ l) (h_pwrLn : Block.pwrLn ∈ l) (h_tim : Block.tim ∈ l) (h_timLn : Block.timLn ∈ l) :
    OnlyIn l r (State.refLoss s) := by
  unfold State.refLoss
  repeat' first
    | intro _
    | (with_reducible first | assumption | exact OnlyIn.refl _ _ | apply State.wr_onlyIn | apply State.bump_onlyIn | apply State.pllLol_onlyIn | apply OnlyIn.each | apply OnlyIn.cond)
    | extract_lets | dsimp only | split | exact h_arc | exact h_clk | exact h_evf | exact h_glb | exact h_hif | exact h_hifGlb | exact h_hlt | exact h_hltLn | exact h_leq | exact h_lfr | exact h_lrx | exact h_ltx | exact h_mgt | exact h_optLn | exact h_pll | exact h_pwrLn | exact h_tim | exact h_timLn

theorem execRefBack_onlyIn {l : List Block} {r : State} {s : State} (hk : OnlyIn l r s) (h_arc : Block.arc ∈ l) (h_clk : Block.clk ∈ l) (h_evf : Block.evf ∈ l) (h_glb : Block.glb ∈ l) (h_hif : Block.hif ∈ l) (h_hifGlb : Block.hifGlb ∈ l) (h_hlt : Block.hlt ∈ l) (h_hltLn : Block.hltLn ∈ l) (h_leq : Block.leq ∈ l) (h_lfr : Block.lfr ∈ l) (h_lrx : Block.lrx ∈ l) (h_ltx : Block.ltx ∈ l) (h_mgt : Block.mgt ∈ l) (h_optLn : Block.optLn ∈ l) (h_pll : Block.pll ∈ l) (h_pwrLn : Block.pwrLn ∈ l) (h_tim : Block.tim ∈ l) (h_timLn : Block.timLn ∈ l) :
    OutOnlyIn l r (execRefBack s) := by
  unfold execRefBack
  repeat' first
    | intro _
    | (with_reducible first | assumption | exact OnlyIn.refl _ _ | apply OutOnlyIn.next | apply State.refLoss_onlyIn | apply State.wr_onlyIn | apply State.bump_onlyIn | apply State.raise_onlyIn | apply State.pllSet_onlyIn | apply State.pllServed_onlyIn | apply OnlyIn.puts_cons | apply OnlyIn.puts_nil | apply OnlyIn.each | apply OnlyIn.when | apply OutOnlyIn.cond | apply OnlyIn.cond)
    | extract_lets | dsimp only | split | exact h_arc | exact h_clk | exact h_evf | exact h_glb | exact h_hif | exact h_hifGlb | exact h_hlt | exact h_hltLn | exact h_leq | exact h_lfr | exact h_lrx | exact h_ltx | exact h_mgt | exact h_optLn | exact h_pll | exact h_pwrLn | exact h_tim | exact h_timLn

theorem execRefOk_onlyIn {l : List Block} {r : State} {s : State} (hk : OnlyIn l r s) (h_clk : Block.clk ∈ l) (h_evf : Block.evf ∈ l) (h_glb : Block.glb ∈ l) (h_pll : Block.pll ∈ l) :
    OutOnlyIn l r (execRefOk s) := by
  unfold execRefOk
  repeat' first
    | intro _
    | (with_reducible first | assumption | exact OnlyIn.refl _ _ | apply OutOnlyIn.next | apply State.wr_onlyIn | apply State.raise_onlyIn | apply State.pllSet_onlyIn | apply OnlyIn.each | apply OutOnlyIn.cond | apply OnlyIn.cond)
    | extract_lets | dsimp only | split | exact h_clk | exact h_evf | exact h_glb | exact h_pll

theorem execRefHoldExpiry_onlyIn {l : List Block} {r : State} {s : State} (hk : OnlyIn l r s) (h_arc : Block.arc ∈ l) (h_clk : Block.clk ∈ l) (h_evf : Block.evf ∈ l) (h_glb : Block.glb ∈ l) (h_hif : Block.hif ∈ l) (h_hifGlb : Block.hifGlb ∈ l) (h_hlt : Block.hlt ∈ l) (h_hltLn : Block.hltLn ∈ l) (h_leq : Block.leq ∈ l) (h_lfr : Block.lfr ∈ l) (h_lrx : Block.lrx ∈ l) (h_ltx : Block.ltx ∈ l) (h_mgt : Block.mgt ∈ l) (h_optLn : Block.optLn ∈ l) (h_pll : Block.pll ∈ l) (h_pwrLn : Block.pwrLn ∈ l) (h_tim : Block.tim ∈ l) (h_timLn : Block.timLn ∈ l) :
    OutOnlyIn l r (execRefHoldExpiry s) := by
  unfold execRefHoldExpiry
  repeat' first
    | intro _
    | (with_reducible first | assumption | exact OnlyIn.refl _ _ | apply OutOnlyIn.next | apply State.refLoss_onlyIn | apply OutOnlyIn.cond | apply OnlyIn.cond)
    | extract_lets | split | exact h_arc | exact h_clk | exact h_evf | exact h_glb | exact h_hif | exact h_hifGlb | exact h_hlt | exact h_hltLn | exact h_leq | exact h_lfr | exact h_lrx | exact h_ltx | exact h_mgt | exact h_optLn | exact h_pll | exact h_pwrLn | exact h_tim | exact h_timLn

theorem execPllRelockTimeout_onlyIn {l : List Block} {r : State} {p : Fin 5} {s : State} (hk : OnlyIn l r s) (h_arc : Block.arc ∈ l) (h_clk : Block.clk ∈ l) (h_evf : Block.evf ∈ l) (h_glb : Block.glb ∈ l) (h_pll : Block.pll ∈ l) (h_tim : Block.tim ∈ l) :
    OutOnlyIn l r (execPllRelockTimeout p s) := by
  unfold execPllRelockTimeout
  repeat' first
    | intro _
    | (with_reducible first | assumption | exact OnlyIn.refl _ _ | apply OutOnlyIn.next | apply State.pllCalStart_onlyIn | apply OutOnlyIn.cond | apply OnlyIn.cond)
    | extract_lets | split | exact h_arc | exact h_clk | exact h_evf | exact h_glb | exact h_pll | exact h_tim

theorem execClkCntClr_onlyIn {l : List Block} {r : State} {s : State} (hk : OnlyIn l r s) (h_clk : Block.clk ∈ l) (h_glb : Block.glb ∈ l) (h_pll : Block.pll ∈ l) :
    OutOnlyIn l r (execClkCntClr s) := by
  unfold execClkCntClr
  repeat' first
    | intro _
    | (with_reducible first | assumption | exact OnlyIn.refl _ _ | apply OutOnlyIn.next | apply State.access_onlyIn | apply State.wr_onlyIn | apply OnlyIn.clear_cons | apply OnlyIn.clear_nil | apply OnlyIn.each)
    | extract_lets | dsimp only | exact h_clk | exact h_glb | exact h_pll

end Sys2Proof.Machine
end

