-- ==== Sys2Proof/Laws/OnlyOptics.lean ====
section
/-!
SUPPORT. Which blocks the operations of Optics change.
-/
set_option Elab.async false
set_option linter.all false
namespace Sys2Proof.Machine

theorem State.monBanks_onlyIn {l : List Block} {r : State} {s : State} {c : Nat} (hk : OnlyIn l r s) (h_monCh : Block.monCh ∈ l) :
    OnlyIn l r (State.monBanks s c) := by
  unfold State.monBanks
  repeat' first
    | intro _
    | (with_reducible first | assumption | exact OnlyIn.refl _ _ | apply State.wr_onlyIn | apply State.setUse_onlyIn | apply OnlyIn.puts_cons | apply OnlyIn.puts_nil | apply OnlyIn.each)
    | extract_lets | dsimp only | exact h_monCh

theorem State.monEvent_onlyIn {l : List Block} {r : State} {s : State} {c : Nat} (hk : OnlyIn l r s) (h_monCh : Block.monCh ∈ l) :
    OnlyIn l r (State.monEvent s c) := by
  unfold State.monEvent
  repeat' first
    | intro _
    | (with_reducible first | assumption | exact OnlyIn.refl _ _ | apply State.wr_onlyIn)
    | extract_lets | exact h_monCh

theorem State.monSwitch_onlyIn {l : List Block} {r : State} {s : State} {c : Nat} (hk : OnlyIn l r s) (h_monCh : Block.monCh ∈ l) :
    OnlyIn l r (State.monSwitch s c) := by
  unfold State.monSwitch
  repeat' first
    | intro _
    | (with_reducible first | assumption | exact OnlyIn.refl _ _ | apply State.monBanks_onlyIn | apply State.monEvent_onlyIn | apply OnlyIn.when)
    | extract_lets | dsimp only | exact h_monCh

theorem State.monStep_onlyIn {l : List Block} {r : State} {s : State} {out : Nat} {range : Bool} {change : Nat} (hk : OnlyIn l r s) (h_monCh : Block.monCh ∈ l) :
    OnlyIn l r (State.monStep s out range change) := by
  unfold State.monStep
  repeat' first
    | intro _
    | (with_reducible first | assumption | exact OnlyIn.refl _ _ | apply State.monEvent_onlyIn | apply OnlyIn.each | apply OnlyIn.when)
    | extract_lets | dsimp only | exact h_monCh

theorem execMonOutput_onlyIn {l : List Block} {r : State} {c : Fin 24} {codes : List (BitVec 12)} {s : State} (hk : OnlyIn l r s) (h_mon : Block.mon ∈ l) (h_monCh : Block.monCh ∈ l) :
    OutOnlyIn l r (execMonOutput c codes s) := by
  unfold execMonOutput
  repeat' first
    | intro _
    | (with_reducible first | assumption | exact OnlyIn.refl _ _ | apply OutOnlyIn.next | apply State.wr_onlyIn | apply State.monBanks_onlyIn | apply State.raise_onlyIn | apply State.wrb_onlyIn | apply OnlyIn.puts_cons | apply OnlyIn.puts_nil | apply OnlyIn.when | apply OutOnlyIn.cond | apply OnlyIn.cond | apply OnlyIn.cond_snd)
    | extract_lets | dsimp only | split | exact h_mon | exact h_monCh

theorem execMonSwap_onlyIn {l : List Block} {r : State} {c : Fin 24} {s : State} (hk : OnlyIn l r s) (h_clk : Block.clk ∈ l) (h_glb : Block.glb ∈ l) (h_monCh : Block.monCh ∈ l) :
    OutOnlyIn l r (execMonSwap c s) := by
  unfold execMonSwap
  repeat' first
    | intro _
    | (with_reducible first | assumption | exact OnlyIn.refl _ _ | apply OutOnlyIn.next | apply State.access_onlyIn | apply State.wr_onlyIn)
    | extract_lets | dsimp only | exact h_clk | exact h_glb | exact h_monCh

theorem execMonCntClr_onlyIn {l : List Block} {r : State} {s : State} (hk : OnlyIn l r s) (h_clk : Block.clk ∈ l) (h_glb : Block.glb ∈ l) (h_monCh : Block.monCh ∈ l) :
    OutOnlyIn l r (execMonCntClr s) := by
  unfold execMonCntClr
  repeat' first
    | intro _
    | (with_reducible first | assumption | exact OnlyIn.refl _ _ | apply OutOnlyIn.next | apply State.access_onlyIn | apply State.wr_onlyIn | apply OnlyIn.each)
    | extract_lets | dsimp only | exact h_clk | exact h_glb | exact h_monCh

theorem State.rangeApply_onlyIn {l : List Block} {r : State} {s : State} {n k : Nat} (hk : OnlyIn l r s) (h_monCh : Block.monCh ∈ l) (h_optLn : Block.optLn ∈ l) :
    OnlyIn l r (State.rangeApply s n k) := by
  unfold State.rangeApply
  repeat' first
    | intro _
    | (with_reducible first | assumption | exact OnlyIn.refl _ _ | apply State.wr_onlyIn | apply State.raise_onlyIn | apply State.monStep_onlyIn | apply OnlyIn.when | apply OnlyIn.cond)
    | extract_lets | dsimp only | split | exact h_monCh | exact h_optLn

theorem State.rampStep_onlyIn {l : List Block} {r : State} {s : State} {n : Nat} (hk : OnlyIn l r s) (h_optLn : Block.optLn ∈ l) :
    OnlyIn l r (State.rampStep s n) := by
  unfold State.rampStep
  repeat' first
    | intro _
    | (with_reducible first | assumption | exact OnlyIn.refl _ _ | apply State.wr_onlyIn | apply OnlyIn.puts_cons | apply OnlyIn.puts_nil | apply OnlyIn.when | apply OnlyIn.cond)
    | extract_lets | dsimp only | split | exact h_optLn

theorem State.biasReady_onlyIn {l : List Block} {r : State} {s : State} {n : Nat} (hk : OnlyIn l r s) (h_ltx : Block.ltx ∈ l) (h_optLn : Block.optLn ∈ l) :
    OnlyIn l r (State.biasReady s n) := by
  unfold State.biasReady
  repeat' first
    | intro _
    | (with_reducible first | assumption | exact OnlyIn.refl _ _ | apply State.wr_onlyIn | apply State.raise_onlyIn | apply OnlyIn.when | apply OnlyIn.cond)
    | extract_lets | dsimp only | split | exact h_ltx | exact h_optLn

theorem State.condTrack_onlyIn {l : List Block} {r : State} {s : State} {n : Nat} {compliance openLoop : Bool} (hk : OnlyIn l r s) (h_optLn : Block.optLn ∈ l) :
    OnlyIn l r (State.condTrack s n compliance openLoop) := by
  unfold State.condTrack
  repeat' first
    | intro _
    | (with_reducible first | assumption | exact OnlyIn.refl _ _ | apply State.wr_onlyIn | apply OnlyIn.when | apply OnlyIn.cond)
    | extract_lets | dsimp only | split | exact h_optLn

theorem State.biasCode_onlyIn {l : List Block} {r : State} {s : State} {n : Nat} {chip : Bool} (hk : OnlyIn l r s) (h_optLn : Block.optLn ∈ l) :
    OnlyIn l r (State.biasCode s n chip).2 := by
  unfold State.biasCode
  repeat' first
    | intro _
    | (with_reducible first | assumption | exact OnlyIn.refl _ _ | apply State.raise_onlyIn | apply State.wrb_onlyIn | apply OnlyIn.when | apply OnlyIn.cond_snd | apply OnlyIn.cond)
    | extract_lets | dsimp only | split | exact h_optLn

theorem State.biasDrive_onlyIn {l : List Block} {r : State} {s : State} {n : Nat} (hk : OnlyIn l r s) (h_monCh : Block.monCh ∈ l) (h_optLn : Block.optLn ∈ l) :
    OnlyIn l r (State.biasDrive s n) := by
  unfold State.biasDrive
  repeat' first
    | intro _
    | (with_reducible first | assumption | exact OnlyIn.refl _ _ | apply State.wr_onlyIn | apply State.monStep_onlyIn | apply State.biasCode_onlyIn | apply State.bump_onlyIn | apply State.raise_onlyIn | apply OnlyIn.when | apply OnlyIn.cond | apply OnlyIn.cond_snd)
    | extract_lets | dsimp only | split | exact h_monCh | exact h_optLn

theorem State.auxDrive_onlyIn {l : List Block} {r : State} {s : State} {n k : Nat} (hk : OnlyIn l r s) (h_monCh : Block.monCh ∈ l) (h_optLn : Block.optLn ∈ l) :
    OnlyIn l r (State.auxDrive s n k) := by
  unfold State.auxDrive
  repeat' first
    | intro _
    | (with_reducible first | assumption | exact OnlyIn.refl _ _ | apply State.wr_onlyIn | apply State.monStep_onlyIn | apply OnlyIn.cond)
    | extract_lets | split | exact h_monCh | exact h_optLn

theorem execOptTrigger_onlyIn {l : List Block} {r : State} {n : Lane} {compliance openLoop : Bool} {s : State} (hk : OnlyIn l r s) (h_lfr : Block.lfr ∈ l) (h_ltx : Block.ltx ∈ l) (h_monCh : Block.monCh ∈ l) (h_optLn : Block.optLn ∈ l) (h_timLn : Block.timLn ∈ l) :
    OutOnlyIn l r (execOptTrigger n compliance openLoop s) := by
  unfold execOptTrigger
  repeat' first
    | intro _
    | (with_reducible first | assumption | exact OnlyIn.refl _ _ | apply OutOnlyIn.next | apply State.optClamp_onlyIn | apply State.wr_onlyIn | apply State.rangeApply_onlyIn | apply State.condTrack_onlyIn | apply State.rampStep_onlyIn | apply State.biasReady_onlyIn | apply State.sideRun_onlyIn | apply State.biasDrive_onlyIn | apply State.auxDrive_onlyIn | apply OnlyIn.each | apply OnlyIn.when | apply OutOnlyIn.cond | apply OnlyIn.cond)
    | extract_lets | dsimp only | split | exact h_lfr | exact h_ltx | exact h_monCh | exact h_optLn | exact h_timLn

theorem execObiasConditionEvent_onlyIn {l : List Block} {r : State} {n : Lane} {openLoop : Bool} {s : State} (hk : OnlyIn l r s) (h_arc : Block.arc ∈ l) (h_clk : Block.clk ∈ l) (h_evf : Block.evf ∈ l) (h_glb : Block.glb ∈ l) (h_hif : Block.hif ∈ l) (h_hifGlb : Block.hifGlb ∈ l) (h_hlt : Block.hlt ∈ l) (h_hltLn : Block.hltLn ∈ l) (h_leq : Block.leq ∈ l) (h_lfr : Block.lfr ∈ l) (h_lrx : Block.lrx ∈ l) (h_ltx : Block.ltx ∈ l) (h_mgt : Block.mgt ∈ l) (h_optLn : Block.optLn ∈ l) (h_pll : Block.pll ∈ l) (h_pwrLn : Block.pwrLn ∈ l) (h_tim : Block.tim ∈ l) (h_timLn : Block.timLn ∈ l) :
    OutOnlyIn l r (execObiasConditionEvent n openLoop s) := by
  unfold execObiasConditionEvent
  repeat' first
    | intro _
    | (with_reducible first | assumption | exact OnlyIn.refl _ _ | apply OutOnlyIn.next | apply State.bump_onlyIn | apply State.raise_onlyIn | apply State.faultEvent_onlyIn | apply State.wr_onlyIn | apply OnlyIn.puts_cons | apply OnlyIn.puts_nil | apply OutOnlyIn.cond | apply OnlyIn.cond)
    | extract_lets | split | exact h_arc | exact h_clk | exact h_evf | exact h_glb | exact h_hif | exact h_hifGlb | exact h_hlt | exact h_hltLn | exact h_leq | exact h_lfr | exact h_lrx | exact h_ltx | exact h_mgt | exact h_optLn | exact h_pll | exact h_pwrLn | exact h_tim | exact h_timLn

theorem execEnvelopeTrip_onlyIn {l : List Block} {r : State} {n : Lane} {c : EnvCondition} {s : State} (hk : OnlyIn l r s) (h_evf : Block.evf ∈ l) (h_hlt : Block.hlt ∈ l) (h_hltLn : Block.hltLn ∈ l) (h_ltx : Block.ltx ∈ l) (h_mgt : Block.mgt ∈ l) (h_optLn : Block.optLn ∈ l) (h_pwrLn : Block.pwrLn ∈ l) :
    OutOnlyIn l r (execEnvelopeTrip n c s) := by
  unfold execEnvelopeTrip
  repeat' first
    | intro _
    | (with_reducible first | assumption | exact OnlyIn.refl _ _ | apply OutOnlyIn.next | apply State.envTrip_onlyIn | apply OutOnlyIn.cond | apply OnlyIn.cond)
    | extract_lets | split | exact h_evf | exact h_hlt | exact h_hltLn | exact h_ltx | exact h_mgt | exact h_optLn | exact h_pwrLn

theorem execProbeTimeout_onlyIn {l : List Block} {r : State} {n : Lane} {s : State} (hk : OnlyIn l r s) (h_evf : Block.evf ∈ l) (h_hlt : Block.hlt ∈ l) (h_hltLn : Block.hltLn ∈ l) (h_ltx : Block.ltx ∈ l) (h_mgt : Block.mgt ∈ l) (h_optLn : Block.optLn ∈ l) (h_pwrLn : Block.pwrLn ∈ l) :
    OutOnlyIn l r (execProbeTimeout n s) := by
  unfold execProbeTimeout
  repeat' first
    | intro _
    | (with_reducible first | assumption | exact OnlyIn.refl _ _ | apply OutOnlyIn.next | apply State.envTrip_onlyIn | apply OutOnlyIn.cond | apply OnlyIn.cond)
    | extract_lets | split | exact h_evf | exact h_hlt | exact h_hltLn | exact h_ltx | exact h_mgt | exact h_optLn | exact h_pwrLn

theorem execOffTimeExpiry_onlyIn {l : List Block} {r : State} {n : Lane} {s : State} (hk : OnlyIn l r s) (h_evf : Block.evf ∈ l) (h_ltx : Block.ltx ∈ l) (h_optLn : Block.optLn ∈ l) (h_pwrLn : Block.pwrLn ∈ l) :
    OutOnlyIn l r (execOffTimeExpiry n s) := by
  unfold execOffTimeExpiry
  repeat' first
    | intro _
    | (with_reducible first | assumption | exact OnlyIn.refl _ _ | apply OutOnlyIn.next | apply State.ltxRecheck_onlyIn | apply State.wr_onlyIn | apply OnlyIn.puts_cons | apply OnlyIn.puts_nil | apply OutOnlyIn.cond | apply OnlyIn.cond)
    | extract_lets | split | exact h_evf | exact h_ltx | exact h_optLn | exact h_pwrLn

theorem execEnvSave_onlyIn {l : List Block} {r : State} {s : State} (hk : OnlyIn l r s) (h_clk : Block.clk ∈ l) (h_glb : Block.glb ∈ l) (h_optGlb : Block.optGlb ∈ l) :
    OutOnlyIn l r (execEnvSave s) := by
  unfold execEnvSave
  repeat' first
    | intro _
    | (with_reducible first | assumption | exact OnlyIn.refl _ _ | apply OutOnlyIn.next | apply State.access_onlyIn | apply State.wr_onlyIn | apply OnlyIn.puts_cons | apply OnlyIn.puts_nil | apply OutOnlyIn.cond | apply OnlyIn.cond)
    | extract_lets | dsimp only | split | exact h_clk | exact h_glb | exact h_optGlb

theorem execOptCntClr_onlyIn {l : List Block} {r : State} {n : Lane} {s : State} (hk : OnlyIn l r s) (h_clk : Block.clk ∈ l) (h_glb : Block.glb ∈ l) (h_optLn : Block.optLn ∈ l) :
    OutOnlyIn l r (execOptCntClr n s) := by
  unfold execOptCntClr
  repeat' first
    | intro _
    | (with_reducible first | assumption | exact OnlyIn.refl _ _ | apply OutOnlyIn.next | apply State.access_onlyIn | apply State.wr_onlyIn | apply OnlyIn.clear_cons | apply OnlyIn.clear_nil)
    | extract_lets | dsimp only | exact h_clk | exact h_glb | exact h_optLn

theorem State.pbEnd_onlyIn {l : List Block} {r : State} {s : State} {firmware : Bool} {result : Nat} (hk : OnlyIn l r s) (h_optGlb : Block.optGlb ∈ l) :
    OnlyIn l r (State.pbEnd s firmware result) := by
  unfold State.pbEnd
  repeat' first
    | intro _
    | (with_reducible first | assumption | exact OnlyIn.refl _ _ | apply State.wr_onlyIn | apply State.raise_onlyIn | apply OnlyIn.when)
    | extract_lets | dsimp only | exact h_optGlb

theorem State.pbStart_onlyIn {l : List Block} {r s : State} {k : List (PbJob × Bool)} (hk : OnlyIn l r s)
    (h_optGlb : Block.optGlb ∈ l) : OnlyIn l r (s.pbStart k) := by
  induction k generalizing s with
  | nil =>
    unfold State.pbStart
    with_reducible exact OnlyIn.other hk
  | cons w k ih =>
    unfold State.pbStart
    split
    · exact ih (by apply State.pbEnd_onlyIn <;> assumption)
    · with_reducible exact OnlyIn.other hk

theorem State.pbRequest_onlyIn {l : List Block} {r : State} {s : State} {w : PbJob × Bool} (hk : OnlyIn l r s) (h_optGlb : Block.optGlb ∈ l) :
    OnlyIn l r (State.pbRequest s w) := by
  unfold State.pbRequest
  repeat' first
    | intro _
    | (with_reducible first | assumption | exact OnlyIn.refl _ _ | apply State.pbStart_onlyIn | apply OnlyIn.cond)
    | extract_lets | split
    | (with_reducible first | apply OnlyIn.other)
    | exact h_optGlb

theorem execPbTransaction_onlyIn {l : List Block} {r : State} {firmware : Option PbJob} {s : State} (hk : OnlyIn l r s) (h_clk : Block.clk ∈ l) (h_glb : Block.glb ∈ l) (h_optGlb : Block.optGlb ∈ l) :
    OutOnlyIn l r (execPbTransaction firmware s) := by
  unfold execPbTransaction
  repeat' first
    | intro _
    | (with_reducible first | assumption | exact OnlyIn.refl _ _ | apply OutOnlyIn.next | apply State.pbRequest_onlyIn | apply State.access_onlyIn | apply State.wr_onlyIn | apply OutOnlyIn.cond | apply OnlyIn.cond)
    | extract_lets | dsimp only | split | exact h_clk | exact h_glb | exact h_optGlb

theorem State.pbFinish_onlyIn {l : List Block} {r : State} {s : State} {result : Nat} (hk : OnlyIn l r s) (h_optGlb : Block.optGlb ∈ l) :
    OnlyIn l r (State.pbFinish s result) := by
  unfold State.pbFinish
  repeat' first
    | intro _
    | (with_reducible first | assumption | exact OnlyIn.refl _ _ | apply State.pbEnd_onlyIn | apply State.pbStart_onlyIn)
    | extract_lets | dsimp only | split | exact h_optGlb

theorem execPbTransactionDone_onlyIn {l : List Block} {r : State} {nack : Bool} {data : BitVec 32} {s : State} (hk : OnlyIn l r s) (h_optGlb : Block.optGlb ∈ l) :
    OutOnlyIn l r (execPbTransactionDone nack data s) := by
  unfold execPbTransactionDone
  repeat' first
    | intro _
    | (with_reducible first | assumption | exact OnlyIn.refl _ _ | apply OutOnlyIn.next | apply State.pbFinish_onlyIn | apply State.wr_onlyIn | apply OnlyIn.when | apply OutOnlyIn.cond | apply OnlyIn.cond)
    | extract_lets | dsimp only | split | exact h_optGlb

theorem execPbTimeout_onlyIn {l : List Block} {r : State} {s : State} (hk : OnlyIn l r s) (h_optGlb : Block.optGlb ∈ l) :
    OutOnlyIn l r (execPbTimeout s) := by
  unfold execPbTimeout
  repeat' first
    | intro _
    | (with_reducible first | assumption | exact OnlyIn.refl _ _ | apply OutOnlyIn.next | apply State.pbFinish_onlyIn)
    | extract_lets | exact h_optGlb

end Sys2Proof.Machine
end

