-- ==== Sys2Proof/Laws/OnlyHost.lean ====
section
/-!
SUPPORT. Which blocks the operations of Host change.
-/
set_option Elab.async false
set_option linter.all false
namespace Sys2Proof.Machine

theorem State.groupTrain_onlyIn {l : List Block} {r : State} {s : State} {g : PortGroup} (hk : OnlyIn l r s) (h_evf : Block.evf ∈ l) (h_hif : Block.hif ∈ l) (h_hifGlb : Block.hifGlb ∈ l) (h_mgt : Block.mgt ∈ l) :
    OnlyIn l r (State.groupTrain s g) := by
  unfold State.groupTrain
  repeat' first
    | intro _
    | (with_reducible first | assumption | exact OnlyIn.refl _ _ | apply State.wr_onlyIn | apply State.hifToTrain_onlyIn | apply OnlyIn.each | apply OnlyIn.cond)
    | extract_lets | dsimp only | split | exact h_evf | exact h_hif | exact h_hifGlb | exact h_mgt

theorem State.ehmFallback_onlyIn {l : List Block} {r : State} {s : State} {g : PortGroup} (hk : OnlyIn l r s) (h_evf : Block.evf ∈ l) (h_hif : Block.hif ∈ l) (h_hifGlb : Block.hifGlb ∈ l) (h_mgt : Block.mgt ∈ l) :
    OnlyIn l r (State.ehmFallback s g) := by
  unfold State.ehmFallback
  repeat' first
    | intro _
    | (with_reducible first | assumption | exact OnlyIn.refl _ _ | apply State.setEhm_onlyIn | apply State.bump_onlyIn | apply State.raise_onlyIn | apply State.wr_onlyIn | apply State.groupTrain_onlyIn)
    | extract_lets | split | exact h_evf | exact h_hif | exact h_hifGlb | exact h_mgt

theorem State.ehmSwitch_onlyIn {l : List Block} {r : State} {s : State} {g : PortGroup} (hk : OnlyIn l r s) (h_evf : Block.evf ∈ l) (h_hif : Block.hif ∈ l) (h_hifGlb : Block.hifGlb ∈ l) (h_mgt : Block.mgt ∈ l) :
    OnlyIn l r (State.ehmSwitch s g) := by
  unfold State.ehmSwitch
  repeat' first
    | intro _
    | (with_reducible first | assumption | exact OnlyIn.refl _ _ | apply State.setEhm_onlyIn | apply State.wr_onlyIn | apply State.hifSet_onlyIn | apply State.hifTrainStart_onlyIn | apply State.hifOff_onlyIn | apply OnlyIn.each | apply OnlyIn.cond)
    | extract_lets | dsimp only | split | exact h_evf | exact h_hif | exact h_hifGlb | exact h_mgt

theorem State.groupTrained_onlyIn {l : List Block} {r : State} {s : State} {g : PortGroup} (hk : OnlyIn l r s) (h_evf : Block.evf ∈ l) (h_hif : Block.hif ∈ l) (h_hifGlb : Block.hifGlb ∈ l) (h_mgt : Block.mgt ∈ l) :
    OnlyIn l r (State.groupTrained s g) := by
  unfold State.groupTrained
  repeat' first
    | intro _
    | (with_reducible first | assumption | exact OnlyIn.refl _ _ | apply State.setEhm_onlyIn | apply State.raise_onlyIn | apply State.wr_onlyIn | apply State.hifToAlign_onlyIn | apply State.ehmSwitch_onlyIn | apply OnlyIn.each | apply OnlyIn.cond)
    | extract_lets | dsimp only | split | exact h_evf | exact h_hif | exact h_hifGlb | exact h_mgt

theorem State.hifEnableOn_onlyIn {l : List Block} {r : State} {s : State} {h : Nat} (hk : OnlyIn l r s) (h_evf : Block.evf ∈ l) (h_hif : Block.hif ∈ l) (h_hifGlb : Block.hifGlb ∈ l) (h_mgt : Block.mgt ∈ l) :
    OnlyIn l r (State.hifEnableOn s h) := by
  unfold State.hifEnableOn
  repeat' first
    | intro _
    | (with_reducible first | assumption | exact OnlyIn.refl _ _ | apply State.wr_onlyIn | apply State.hifStart_onlyIn | apply OnlyIn.cond)
    | extract_lets | split | exact h_evf | exact h_hif | exact h_hifGlb | exact h_mgt

theorem execHifEnable_onlyIn {l : List Block} {r : State} {h : HostLane} {s : State} (hk : OnlyIn l r s) (h_clk : Block.clk ∈ l) (h_evf : Block.evf ∈ l) (h_glb : Block.glb ∈ l) (h_hif : Block.hif ∈ l) (h_hifGlb : Block.hifGlb ∈ l) (h_hlt : Block.hlt ∈ l) (h_mgt : Block.mgt ∈ l) :
    OutOnlyIn l r (execHifEnable h s) := by
  unfold execHifEnable
  repeat' first
    | intro _
    | (with_reducible first | assumption | exact OnlyIn.refl _ _ | apply OutOnlyIn.next | apply State.access_onlyIn | apply State.wr_onlyIn | apply State.hostService_onlyIn | apply State.hifEnableOn_onlyIn | apply OnlyIn.when)
    | extract_lets | dsimp only | split | exact h_clk | exact h_evf | exact h_glb | exact h_hif | exact h_hifGlb | exact h_hlt | exact h_mgt

theorem execHifDisable_onlyIn {l : List Block} {r : State} {h : HostLane} {s : State} (hk : OnlyIn l r s) (h_clk : Block.clk ∈ l) (h_evf : Block.evf ∈ l) (h_glb : Block.glb ∈ l) (h_hif : Block.hif ∈ l) (h_hifGlb : Block.hifGlb ∈ l) (h_hlt : Block.hlt ∈ l) (h_mgt : Block.mgt ∈ l) :
    OutOnlyIn l r (execHifDisable h s) := by
  unfold execHifDisable
  repeat' first
    | intro _
    | (with_reducible first | assumption | exact OnlyIn.refl _ _ | apply OutOnlyIn.next | apply State.access_onlyIn | apply State.wr_onlyIn | apply State.hifOff_onlyIn | apply State.clearLastings_onlyIn | apply State.ehmReset_onlyIn | apply OnlyIn.when | apply OptOnlyIn.getD)
    | extract_lets | dsimp only | split
    | (with_reducible first | apply OnlyIn.other)
    | exact h_clk | exact h_evf | exact h_glb | exact h_hif | exact h_hifGlb | exact h_hlt | exact h_mgt

theorem State.hifRetrainNow_onlyIn {l : List Block} {r : State} {s : State} {h : Nat} (hk : OnlyIn l r s) (h_evf : Block.evf ∈ l) (h_hif : Block.hif ∈ l) (h_hifGlb : Block.hifGlb ∈ l) (h_mgt : Block.mgt ∈ l) :
    OnlyIn l r (State.hifRetrainNow s h) := by
  unfold State.hifRetrainNow
  repeat' first
    | intro _
    | (with_reducible first | assumption | exact OnlyIn.refl _ _ | apply State.wr_onlyIn | apply State.setEhm_onlyIn | apply State.groupTrain_onlyIn | apply State.hifToTrain_onlyIn | apply OnlyIn.cond)
    | extract_lets | dsimp only | split | exact h_evf | exact h_hif | exact h_hifGlb | exact h_mgt

theorem execHifRetrain_onlyIn {l : List Block} {r : State} {h : HostLane} {s : State} (hk : OnlyIn l r s) (h_clk : Block.clk ∈ l) (h_evf : Block.evf ∈ l) (h_glb : Block.glb ∈ l) (h_hif : Block.hif ∈ l) (h_hifGlb : Block.hifGlb ∈ l) (h_hlt : Block.hlt ∈ l) (h_mgt : Block.mgt ∈ l) :
    OutOnlyIn l r (execHifRetrain h s) := by
  unfold execHifRetrain
  repeat' first
    | intro _
    | (with_reducible first | assumption | exact OnlyIn.refl _ _ | apply OutOnlyIn.next | apply State.access_onlyIn | apply State.hostService_onlyIn | apply State.hifRetrainNow_onlyIn)
    | extract_lets | dsimp only | split | exact h_clk | exact h_evf | exact h_glb | exact h_hif | exact h_hifGlb | exact h_hlt | exact h_mgt

theorem State.hifCommitNow_onlyIn {l : List Block} {r : State} {s : State} {h : Nat} (hk : OnlyIn l r s) (h_hif : Block.hif ∈ l) :
    OnlyIn l r (State.hifCommitNow s h) := by
  unfold State.hifCommitNow
  repeat' first
    | intro _
    | (with_reducible first | assumption | exact OnlyIn.refl _ _ | apply State.wr_onlyIn | apply State.raise_onlyIn | apply State.hifApply_onlyIn | apply OnlyIn.cond)
    | extract_lets | split | exact h_hif

theorem execHifCommit_onlyIn {l : List Block} {r : State} {h : HostLane} {s : State} (hk : OnlyIn l r s) (h_clk : Block.clk ∈ l) (h_evf : Block.evf ∈ l) (h_glb : Block.glb ∈ l) (h_hif : Block.hif ∈ l) (h_hlt : Block.hlt ∈ l) :
    OutOnlyIn l r (execHifCommit h s) := by
  unfold execHifCommit
  repeat' first
    | intro _
    | (with_reducible first | assumption | exact OnlyIn.refl _ _ | apply OutOnlyIn.next | apply State.access_onlyIn | apply State.hostService_onlyIn | apply State.hifCommitNow_onlyIn)
    | extract_lets | dsimp only | split | exact h_clk | exact h_evf | exact h_glb | exact h_hif | exact h_hlt

theorem State.slipSkew_onlyIn {l : List Block} {r : State} {s : State} {n : Nat} (hk : OnlyIn l r s) (h_hifGlb : Block.hifGlb ∈ l) :
    OnlyIn l r (State.slipSkew s n) := by
  unfold State.slipSkew
  repeat' first
    | intro _
    | (with_reducible first | assumption | exact OnlyIn.refl _ _ | apply State.wrInt_onlyIn | apply OnlyIn.when)
    | extract_lets | dsimp only | split | exact h_hifGlb

theorem execHifSlip_onlyIn {l : List Block} {r : State} {h : HostLane} {s : State} (hk : OnlyIn l r s) (h_clk : Block.clk ∈ l) (h_glb : Block.glb ∈ l) (h_hif : Block.hif ∈ l) (h_hifGlb : Block.hifGlb ∈ l) :
    OutOnlyIn l r (execHifSlip h s) := by
  unfold execHifSlip
  repeat' first
    | intro _
    | (with_reducible first | assumption | exact OnlyIn.refl _ _ | apply OutOnlyIn.next | apply State.access_onlyIn | apply State.raise_onlyIn | apply State.wr_onlyIn | apply State.slipSkew_onlyIn | apply OutOnlyIn.cond | apply OnlyIn.cond)
    | extract_lets | dsimp only | split | exact h_clk | exact h_glb | exact h_hif | exact h_hifGlb

theorem execAlignDoneWrite_onlyIn {l : List Block} {r : State} {h : HostLane} {s : State} (hk : OnlyIn l r s) (h_clk : Block.clk ∈ l) (h_evf : Block.evf ∈ l) (h_glb : Block.glb ∈ l) (h_hif : Block.hif ∈ l) (h_hifGlb : Block.hifGlb ∈ l) (h_mgt : Block.mgt ∈ l) :
    OutOnlyIn l r (execAlignDoneWrite h s) := by
  unfold execAlignDoneWrite
  repeat' first
    | intro _
    | (with_reducible first | assumption | exact OnlyIn.refl _ _ | apply OutOnlyIn.next | apply State.access_onlyIn | apply State.wr_onlyIn | apply State.hifSet_onlyIn | apply OnlyIn.each | apply OutOnlyIn.cond | apply OnlyIn.cond)
    | extract_lets | dsimp only | split | exact h_clk | exact h_evf | exact h_glb | exact h_hif | exact h_hifGlb | exact h_mgt

theorem execHifCntClr_onlyIn {l : List Block} {r : State} {h : HostLane} {s : State} (hk : OnlyIn l r s) (h_clk : Block.clk ∈ l) (h_glb : Block.glb ∈ l) (h_hif : Block.hif ∈ l) :
    OutOnlyIn l r (execHifCntClr h s) := by
  unfold execHifCntClr
  repeat' first
    | intro _
    | (with_reducible first | assumption | exact OnlyIn.refl _ _ | apply OutOnlyIn.next | apply State.access_onlyIn | apply State.wr_onlyIn | apply OnlyIn.clear_cons | apply OnlyIn.clear_nil)
    | extract_lets | dsimp only | split | exact h_clk | exact h_glb | exact h_hif

theorem execHifGlbCntClr_onlyIn {l : List Block} {r : State} {s : State} (hk : OnlyIn l r s) (h_clk : Block.clk ∈ l) (h_glb : Block.glb ∈ l) (h_hifGlb : Block.hifGlb ∈ l) :
    OutOnlyIn l r (execHifGlbCntClr s) := by
  unfold execHifGlbCntClr
  repeat' first
    | intro _
    | (with_reducible first | assumption | exact OnlyIn.refl _ _ | apply OutOnlyIn.next | apply State.access_onlyIn | apply State.wr_onlyIn | apply OnlyIn.each_cons | apply OnlyIn.each_nil | apply OnlyIn.each)
    | extract_lets | dsimp only | split | exact h_clk | exact h_glb | exact h_hifGlb

theorem execHostCalDone_onlyIn {l : List Block} {r : State} {h : HostLane} {linRx linTx : BitVec 1024} {s : State} (hk : OnlyIn l r s) (h_evf : Block.evf ∈ l) (h_hif : Block.hif ∈ l) (h_hifGlb : Block.hifGlb ∈ l) (h_mgt : Block.mgt ∈ l) (h_tim : Block.tim ∈ l) :
    OutOnlyIn l r (execHostCalDone h linRx linTx s) := by
  unfold execHostCalDone
  repeat' first
    | intro _
    | (with_reducible first | assumption | exact OnlyIn.refl _ _ | apply OutOnlyIn.next | apply State.linMeasured_onlyIn | apply State.wr_onlyIn | apply State.hifToTrain_onlyIn | apply OutOnlyIn.cond | apply OnlyIn.cond)
    | extract_lets | split | exact h_evf | exact h_hif | exact h_hifGlb | exact h_mgt | exact h_tim

theorem execHostCalTimeout_onlyIn {l : List Block} {r : State} {h : HostLane} {s : State} (hk : OnlyIn l r s) (h_evf : Block.evf ∈ l) (h_hif : Block.hif ∈ l) (h_hifGlb : Block.hifGlb ∈ l) (h_hlt : Block.hlt ∈ l) (h_mgt : Block.mgt ∈ l) :
    OutOnlyIn l r (execHostCalTimeout h s) := by
  unfold execHostCalTimeout
  repeat' first
    | intro _
    | (with_reducible first | assumption | exact OnlyIn.refl _ _ | apply OutOnlyIn.next | apply State.hifFault_onlyIn | apply OutOnlyIn.cond | apply OnlyIn.cond)
    | extract_lets | split | exact h_evf | exact h_hif | exact h_hifGlb | exact h_hlt | exact h_mgt

theorem execTrainingFrameRx_onlyIn {l : List Block} {r : State} {h : HostLane} {req : TrainReq} {advertises : Bool} {s : State} (hk : OnlyIn l r s) (h_hif : Block.hif ∈ l) :
    OutOnlyIn l r (execTrainingFrameRx h req advertises s) := by
  unfold execTrainingFrameRx
  repeat' first
    | intro _
    | (with_reducible first | assumption | exact OnlyIn.refl _ _ | apply OutOnlyIn.next | apply State.wr_onlyIn | apply State.hifSetTap_onlyIn | apply OnlyIn.each | apply OnlyIn.when | apply OutOnlyIn.cond | apply OnlyIn.cond | apply OnlyIn.cond_snd | apply OptOnlyIn.getD)
    | extract_lets | dsimp only | split | exact h_hif

theorem State.hifTuneEnd_onlyIn {l : List Block} {r : State} {s : State} {h : Nat} (hk : OnlyIn l r s) (h_hif : Block.hif ∈ l) :
    OnlyIn l r (State.hifTuneEnd s h) := by
  unfold State.hifTuneEnd
  repeat' first
    | intro _
    | (with_reducible first | assumption | exact OnlyIn.refl _ _ | apply State.wrb_onlyIn | apply State.wr_onlyIn | apply OnlyIn.puts_cons | apply OnlyIn.puts_nil)
    | extract_lets | split | exact h_hif

theorem State.hifTuneAsk_onlyIn {l : List Block} {r : State} {s : State} {h kind : Nat} {next : State → State} (hk : OnlyIn l r s) (h_hif : Block.hif ∈ l) (hgnext : ∀ u, OnlyIn l r u → OnlyIn l r (next u)) :
    OnlyIn l r (State.hifTuneAsk s h kind next) := by
  unfold State.hifTuneAsk
  repeat' first
    | intro _
    | (with_reducible first | apply hgnext | assumption | exact OnlyIn.refl _ _ | apply State.hifTuneEnd_onlyIn | apply State.bump_onlyIn | apply State.wr_onlyIn | apply OnlyIn.puts_cons | apply OnlyIn.puts_nil | apply OnlyIn.cond | apply OptOnlyIn.getD)
    | extract_lets | split | exact h_hif

theorem State.hifTuneTry_onlyIn {l : List Block} {r : State} {s : State} {h : Nat} (hk : OnlyIn l r s) (h_hif : Block.hif ∈ l) :
    OnlyIn l r (State.hifTuneTry s h) := by
  unfold State.hifTuneTry
  repeat' first
    | intro _
    | (with_reducible first | assumption | exact OnlyIn.refl _ _ | apply State.hifTuneAsk_onlyIn | apply State.wr_onlyIn)
    | extract_lets | dsimp only | split | exact h_hif

theorem State.hifTuneNext_onlyIn {l : List Block} {r : State} {s : State} {h : Nat} (hk : OnlyIn l r s) (h_hif : Block.hif ∈ l) :
    OnlyIn l r (State.hifTuneNext s h) := by
  unfold State.hifTuneNext
  repeat' first
    | intro _
    | (with_reducible first | assumption | exact OnlyIn.refl _ _ | apply State.hifTuneEnd_onlyIn | apply State.wr_onlyIn | apply State.hifTuneTry_onlyIn | apply OnlyIn.when | apply OnlyIn.cond)
    | extract_lets | dsimp only | split | exact h_hif

theorem State.hifTuneStep_onlyIn {l : List Block} {r : State} {s : State} {h : Nat} (hk : OnlyIn l r s) (h_hif : Block.hif ∈ l) :
    OnlyIn l r (State.hifTuneStep s h) := by
  unfold State.hifTuneStep
  repeat' first
    | intro _
    | (with_reducible first | assumption | exact OnlyIn.refl _ _ | apply State.hifTuneNext_onlyIn | apply State.hifTuneAsk_onlyIn | apply State.wr_onlyIn | apply OnlyIn.puts_cons | apply OnlyIn.puts_nil | apply OnlyIn.cond)
    | extract_lets | dsimp only | split | exact h_hif

theorem State.hifTuneFirst_onlyIn {l : List Block} {r : State} {s : State} {h : Nat} (hk : OnlyIn l r s) (h_hif : Block.hif ∈ l) :
    OnlyIn l r (State.hifTuneFirst s h) := by
  unfold State.hifTuneFirst
  repeat' first
    | intro _
    | (with_reducible first | assumption | exact OnlyIn.refl _ _ | apply State.wr_onlyIn | apply State.hifTuneTry_onlyIn)
    | extract_lets | split | exact h_hif

theorem State.hifSweepStep_onlyIn {l : List Block} {r : State} {s : State} {h : Nat} (hk : OnlyIn l r s) (h_hif : Block.hif ∈ l) :
    OnlyIn l r (State.hifSweepStep s h) := by
  unfold State.hifSweepStep
  repeat' first
    | intro _
    | (with_reducible first | assumption | exact OnlyIn.refl _ _ | apply State.wr_onlyIn | apply State.hifTuneEnd_onlyIn | apply OnlyIn.puts_cons | apply OnlyIn.puts_nil | apply OnlyIn.when | apply OnlyIn.cond)
    | extract_lets | dsimp only | split | exact h_hif

theorem State.hifDfe_onlyIn {l : List Block} {r : State} {s : State} {h : Nat} {accD1 accD2 : Int} (hk : OnlyIn l r s) (h_hif : Block.hif ∈ l) :
    OnlyIn l r (State.hifDfe s h accD1 accD2) := by
  unfold State.hifDfe
  repeat' first
    | intro _
    | (with_reducible first | assumption | exact OnlyIn.refl _ _ | apply State.wrInt_onlyIn | apply State.wr_onlyIn | apply OnlyIn.puts_cons | apply OnlyIn.puts_nil | apply OnlyIn.cond)
    | extract_lets | split | exact h_hif

theorem State.hifVgaStep_onlyIn {l : List Block} {r : State} {s : State} {h : Nat} {err : Int} (hk : OnlyIn l r s) (h_hif : Block.hif ∈ l) :
    OnlyIn l r (State.hifVgaStep s h err) := by
  unfold State.hifVgaStep
  repeat' first
    | intro _
    | (with_reducible first | assumption | exact OnlyIn.refl _ _ | apply State.wr_onlyIn | apply OnlyIn.cond)
    | extract_lets | split | exact h_hif

theorem State.hifTrainWindow_onlyIn {l : List Block} {r : State} {s : State} {h : Nat} {acked : Bool} (hk : OnlyIn l r s) (h_hif : Block.hif ∈ l) :
    OnlyIn l r (State.hifTrainWindow s h acked) := by
  unfold State.hifTrainWindow
  repeat' first
    | intro _
    | (with_reducible first | assumption | exact OnlyIn.refl _ _ | apply State.hifAskPreset_onlyIn | apply State.hifSweepStep_onlyIn | apply State.hifTuneFirst_onlyIn | apply State.hifTuneStep_onlyIn | apply State.wrb_onlyIn | apply OnlyIn.when | apply OnlyIn.cond)
    | extract_lets | dsimp only | split | exact h_hif

theorem execHostFomWindowEnd_onlyIn {l : List Block} {r : State} {h : HostLane} {errSq : Nat} {acked : Bool} {lvl accD1 accD2 : Int} {s : State} (hk : OnlyIn l r s) (h_hif : Block.hif ∈ l) :
    OutOnlyIn l r (execHostFomWindowEnd h errSq acked lvl accD1 accD2 s) := by
  unfold execHostFomWindowEnd
  repeat' first
    | intro _
    | (with_reducible first | assumption | exact OnlyIn.refl _ _ | apply OutOnlyIn.next | apply State.fomOf_onlyIn | apply State.hifDfe_onlyIn | apply State.hifVgaStep_onlyIn | apply State.hifTrainWindow_onlyIn | apply State.wr_onlyIn | apply OnlyIn.puts_cons | apply OnlyIn.puts_nil | apply OutOnlyIn.cond | apply OnlyIn.cond | apply OnlyIn.cond_snd)
    | extract_lets | dsimp only | split | exact h_hif

theorem execTrainingComplete_onlyIn {l : List Block} {r : State} {h : HostLane} {s : State} (hk : OnlyIn l r s) (h_evf : Block.evf ∈ l) (h_hif : Block.hif ∈ l) (h_hifGlb : Block.hifGlb ∈ l) (h_mgt : Block.mgt ∈ l) :
    OutOnlyIn l r (execTrainingComplete h s) := by
  unfold execTrainingComplete
  repeat' first
    | intro _
    | (with_reducible first | assumption | exact OnlyIn.refl _ _ | apply OutOnlyIn.next | apply State.wr_onlyIn | apply State.raise_onlyIn | apply State.hifToAlign_onlyIn | apply State.groupTrained_onlyIn | apply State.setEhm_onlyIn | apply OnlyIn.when | apply OutOnlyIn.cond | apply OnlyIn.cond)
    | extract_lets | dsimp only | split | exact h_evf | exact h_hif | exact h_hifGlb | exact h_mgt

theorem execTrainingAttemptFail_onlyIn {l : List Block} {r : State} {h : HostLane} {s : State} (hk : OnlyIn l r s) (h_evf : Block.evf ∈ l) (h_hif : Block.hif ∈ l) (h_hifGlb : Block.hifGlb ∈ l) (h_hlt : Block.hlt ∈ l) (h_mgt : Block.mgt ∈ l) :
    OutOnlyIn l r (execTrainingAttemptFail h s) := by
  unfold execTrainingAttemptFail
  repeat' first
    | intro _
    | (with_reducible first | assumption | exact OnlyIn.refl _ _ | apply OutOnlyIn.next | apply State.ehmFallback_onlyIn | apply State.bump_onlyIn | apply State.raise_onlyIn | apply State.hifFault_onlyIn | apply State.wr_onlyIn | apply State.hifTrainStart_onlyIn | apply OutOnlyIn.cond | apply OnlyIn.cond | apply OptOnlyIn.getD)
    | extract_lets | split | exact h_evf | exact h_hif | exact h_hifGlb | exact h_hlt | exact h_mgt

theorem execEhmTrainTimeout_onlyIn {l : List Block} {r : State} {n : Lane} {s : State} (hk : OnlyIn l r s) (h_evf : Block.evf ∈ l) (h_hif : Block.hif ∈ l) (h_hifGlb : Block.hifGlb ∈ l) (h_mgt : Block.mgt ∈ l) :
    OutOnlyIn l r (execEhmTrainTimeout n s) := by
  unfold execEhmTrainTimeout
  repeat' first
    | intro _
    | (with_reducible first | assumption | exact OnlyIn.refl _ _ | apply OutOnlyIn.next | apply State.ehmFallback_onlyIn | apply OutOnlyIn.cond | apply OnlyIn.cond)
    | extract_lets | split | exact h_evf | exact h_hif | exact h_hifGlb | exact h_mgt

theorem State.deskewPut_onlyIn {l : List Block} {r : State} {s : State} {a b : Nat} {k : Int} (hk : OnlyIn l r s) (h_hif : Block.hif ∈ l) :
    OnlyIn l r (State.deskewPut s a b k) := by
  unfold State.deskewPut
  repeat' first
    | intro _
    | (with_reducible first | assumption | exact OnlyIn.refl _ _ | apply State.wr_onlyIn)
    | extract_lets | split | exact h_hif

theorem State.pairSkew_onlyIn {l : List Block} {r : State} {s : State} {n : Nat} (hk : OnlyIn l r s) (h_evf : Block.evf ∈ l) (h_hif : Block.hif ∈ l) (h_hifGlb : Block.hifGlb ∈ l) (h_hlt : Block.hlt ∈ l) (h_mgt : Block.mgt ∈ l) :
    OnlyIn l r (State.pairSkew s n) := by
  unfold State.pairSkew
  repeat' first
    | intro _
    | (with_reducible first | assumption | exact OnlyIn.refl _ _ | apply State.wrInt_onlyIn | apply State.wr_onlyIn | apply State.raise_onlyIn | apply State.hifFault_onlyIn | apply State.pairFollow_onlyIn | apply State.wrb_onlyIn | apply State.deskewPut_onlyIn | apply OnlyIn.when | apply OnlyIn.cond)
    | extract_lets | dsimp only | split | exact h_evf | exact h_hif | exact h_hifGlb | exact h_hlt | exact h_mgt

theorem State.pairGearbox_onlyIn {l : List Block} {r : State} {s : State} {n : Nat} {wasReady : Bool} (hk : OnlyIn l r s) (h_hifGlb : Block.hifGlb ∈ l) :
    OnlyIn l r (State.pairGearbox s n wasReady) := by
  unfold State.pairGearbox
  repeat' first
    | intro _
    | (with_reducible first | assumption | exact OnlyIn.refl _ _ | apply State.wr_onlyIn | apply OnlyIn.when)
    | extract_lets | dsimp only | split | exact h_hifGlb

theorem execAmPeriod_onlyIn {l : List Block} {r : State} {h : HostLane} {errBits : Nat} {samePos : Bool} {arrival : Nat} {s : State} (hk : OnlyIn l r s) (h_evf : Block.evf ∈ l) (h_hif : Block.hif ∈ l) (h_hifGlb : Block.hifGlb ∈ l) (h_hlt : Block.hlt ∈ l) (h_mgt : Block.mgt ∈ l) (h_tim : Block.tim ∈ l) :
    OutOnlyIn l r (execAmPeriod h errBits samePos arrival s) := by
  unfold execAmPeriod
  repeat' first
    | intro _
    | (with_reducible first | assumption | exact OnlyIn.refl _ _ | apply OutOnlyIn.next | apply State.driftApply_onlyIn | apply State.hifSet_onlyIn | apply State.wr_onlyIn | apply State.bump_onlyIn | apply State.raise_onlyIn | apply State.hifToAlign_onlyIn | apply State.pairSkew_onlyIn | apply State.pairGearbox_onlyIn | apply OnlyIn.puts_cons | apply OnlyIn.puts_nil | apply OutOnlyIn.cond | apply OnlyIn.cond)
    | extract_lets | dsimp only | split | exact h_evf | exact h_hif | exact h_hifGlb | exact h_hlt | exact h_mgt | exact h_tim

theorem execAlignTimeout_onlyIn {l : List Block} {r : State} {h : HostLane} {s : State} (hk : OnlyIn l r s) (h_evf : Block.evf ∈ l) (h_hif : Block.hif ∈ l) (h_hifGlb : Block.hifGlb ∈ l) (h_hlt : Block.hlt ∈ l) (h_mgt : Block.mgt ∈ l) :
    OutOnlyIn l r (execAlignTimeout h s) := by
  unfold execAlignTimeout
  repeat' first
    | intro _
    | (with_reducible first | assumption | exact OnlyIn.refl _ _ | apply OutOnlyIn.next | apply State.hifFault_onlyIn | apply OutOnlyIn.cond | apply OnlyIn.cond | apply OptOnlyIn.getD)
    | extract_lets | split | exact h_evf | exact h_hif | exact h_hifGlb | exact h_hlt | exact h_mgt

theorem State.hifCdrLoss_onlyIn {l : List Block} {r : State} {s : State} {h : Nat} (hk : OnlyIn l r s) (h_arc : Block.arc ∈ l) (h_clk : Block.clk ∈ l) (h_evf : Block.evf ∈ l) (h_glb : Block.glb ∈ l) (h_hif : Block.hif ∈ l) (h_hifGlb : Block.hifGlb ∈ l) (h_hlt : Block.hlt ∈ l) (h_hltLn : Block.hltLn ∈ l) (h_leq : Block.leq ∈ l) (h_lfr : Block.lfr ∈ l) (h_lrx : Block.lrx ∈ l) (h_ltx : Block.ltx ∈ l) (h_mgt : Block.mgt ∈ l) (h_optLn : Block.optLn ∈ l) (h_pll : Block.pll ∈ l) (h_pwrLn : Block.pwrLn ∈ l) (h_tim : Block.tim ∈ l) (h_timLn : Block.timLn ∈ l) :
    OnlyIn l r (State.hifCdrLoss s h) := by
  unfold State.hifCdrLoss
  repeat' first
    | intro _
    | (with_reducible first | assumption | exact OnlyIn.refl _ _ | apply State.wr_onlyIn | apply State.bump_onlyIn | apply State.raise_onlyIn | apply State.hifRelock_onlyIn | apply State.faultEvent_onlyIn | apply OnlyIn.cond)
    | extract_lets | split | exact h_arc | exact h_clk | exact h_evf | exact h_glb | exact h_hif | exact h_hifGlb | exact h_hlt | exact h_hltLn | exact h_leq | exact h_lfr | exact h_lrx | exact h_ltx | exact h_mgt | exact h_optLn | exact h_pll | exact h_pwrLn | exact h_tim | exact h_timLn

theorem State.hifCdrRun_onlyIn {l : List Block} {r : State} {s : State} {h : Nat} {errs : List Int} (hk : OnlyIn l r s) (h_hif : Block.hif ∈ l) :
    OnlyIn l r (State.hifCdrRun s h errs).1 := by
  unfold State.hifCdrRun
  repeat' first
    | intro _
    | (with_reducible first | assumption | exact OnlyIn.refl _ _ | apply State.wrInt_onlyIn)
    | extract_lets | split | exact h_hif

theorem State.hifCdrLocked_onlyIn {l : List Block} {r : State} {s : State} {h : Nat} (hk : OnlyIn l r s) (h_evf : Block.evf ∈ l) (h_hif : Block.hif ∈ l) (h_hifGlb : Block.hifGlb ∈ l) (h_mgt : Block.mgt ∈ l) :
    OnlyIn l r (State.hifCdrLocked s h) := by
  unfold State.hifCdrLocked
  repeat' first
    | intro _
    | (with_reducible first | assumption | exact OnlyIn.refl _ _ | apply State.hifAmDone_onlyIn | apply State.wr_onlyIn | apply OnlyIn.puts_cons | apply OnlyIn.puts_nil | apply OnlyIn.cond)
    | extract_lets | split | exact h_evf | exact h_hif | exact h_hifGlb | exact h_mgt

theorem execHostCdrLockInterval_onlyIn {l : List Block} {r : State} {h : HostLane} {errs : List Int} {s : State} (hk : OnlyIn l r s) (h_arc : Block.arc ∈ l) (h_clk : Block.clk ∈ l) (h_evf : Block.evf ∈ l) (h_glb : Block.glb ∈ l) (h_hif : Block.hif ∈ l) (h_hifGlb : Block.hifGlb ∈ l) (h_hlt : Block.hlt ∈ l) (h_hltLn : Block.hltLn ∈ l) (h_leq : Block.leq ∈ l) (h_lfr : Block.lfr ∈ l) (h_lrx : Block.lrx ∈ l) (h_ltx : Block.ltx ∈ l) (h_mgt : Block.mgt ∈ l) (h_optLn : Block.optLn ∈ l) (h_pll : Block.pll ∈ l) (h_pwrLn : Block.pwrLn ∈ l) (h_tim : Block.tim ∈ l) (h_timLn : Block.timLn ∈ l) :
    OutOnlyIn l r (execHostCdrLockInterval h errs s) := by
  unfold execHostCdrLockInterval
  repeat' first
    | intro _
    | (with_reducible first | assumption | exact OnlyIn.refl _ _ | apply OutOnlyIn.next | apply State.hifCdrRun_onlyIn | apply State.hifCdrLoss_onlyIn | apply State.hifCdrLocked_onlyIn | apply State.wr_onlyIn | apply OnlyIn.puts_cons | apply OnlyIn.puts_nil | apply OutOnlyIn.cond | apply OnlyIn.cond | apply OnlyIn.cond_snd)
    | extract_lets | dsimp only | split | exact h_arc | exact h_clk | exact h_evf | exact h_glb | exact h_hif | exact h_hifGlb | exact h_hlt | exact h_hltLn | exact h_leq | exact h_lfr | exact h_lrx | exact h_ltx | exact h_mgt | exact h_optLn | exact h_pll | exact h_pwrLn | exact h_tim | exact h_timLn

theorem execRelockTimeout_onlyIn {l : List Block} {r : State} {h : HostLane} {s : State} (hk : OnlyIn l r s) (h_evf : Block.evf ∈ l) (h_hif : Block.hif ∈ l) (h_hifGlb : Block.hifGlb ∈ l) (h_hlt : Block.hlt ∈ l) (h_mgt : Block.mgt ∈ l) :
    OutOnlyIn l r (execRelockTimeout h s) := by
  unfold execRelockTimeout
  repeat' first
    | intro _
    | (with_reducible first | assumption | exact OnlyIn.refl _ _ | apply OutOnlyIn.next | apply State.hifFault_onlyIn | apply OutOnlyIn.cond | apply OnlyIn.cond)
    | extract_lets | split | exact h_evf | exact h_hif | exact h_hifGlb | exact h_hlt | exact h_mgt

theorem execHostFaultAutoRestart_onlyIn {l : List Block} {r : State} {h : HostLane} {s : State} (hk : OnlyIn l r s) (h_evf : Block.evf ∈ l) (h_hif : Block.hif ∈ l) (h_hifGlb : Block.hifGlb ∈ l) (h_mgt : Block.mgt ∈ l) :
    OutOnlyIn l r (execHostFaultAutoRestart h s) := by
  unfold execHostFaultAutoRestart
  repeat' first
    | intro _
    | (with_reducible first | assumption | exact OnlyIn.refl _ _ | apply OutOnlyIn.next | apply State.hifToCal_onlyIn | apply State.hifRelock_onlyIn | apply State.hifToTrain_onlyIn | apply OutOnlyIn.cond | apply OnlyIn.cond)
    | extract_lets | dsimp only | split | exact h_evf | exact h_hif | exact h_hifGlb | exact h_mgt

theorem execHostSleepWake_onlyIn {l : List Block} {r : State} {h : HostLane} {tx ok relocked recOk : Bool} {s : State} (hk : OnlyIn l r s) (h_evf : Block.evf ∈ l) (h_hif : Block.hif ∈ l) (h_hifGlb : Block.hifGlb ∈ l) (h_mgt : Block.mgt ∈ l) (h_pwr : Block.pwr ∈ l) (h_pwrLn : Block.pwrLn ∈ l) :
    OutOnlyIn l r (execHostSleepWake h tx ok relocked recOk s) := by
  unfold execHostSleepWake
  repeat' first
    | intro _
    | (with_reducible first | assumption | exact OnlyIn.refl _ _ | apply OutOnlyIn.next | apply State.recordBad_onlyIn | apply State.hifToCal_onlyIn | apply State.raise_onlyIn | apply State.bump_onlyIn | apply State.hifToAlign_onlyIn | apply State.wr_onlyIn | apply State.hifToTrain_onlyIn | apply OnlyIn.puts_cons | apply OnlyIn.puts_nil | apply OutOnlyIn.cond | apply OnlyIn.cond)
    | extract_lets | split | exact h_evf | exact h_hif | exact h_hifGlb | exact h_mgt | exact h_pwr | exact h_pwrLn

theorem execRsCodewordMonitor_onlyIn {l : List Block} {r : State} {n : Lane} {egress inRange : Bool} {symErr : Option (Fin 16)} {s : State} (hk : OnlyIn l r s) (h_hifGlb : Block.hifGlb ∈ l) :
    OutOnlyIn l r (execRsCodewordMonitor n egress inRange symErr s) := by
  unfold execRsCodewordMonitor
  repeat' first
    | intro _
    | (with_reducible first | assumption | exact OnlyIn.refl _ _ | apply OutOnlyIn.next | apply State.wr_onlyIn | apply State.raise_onlyIn | apply State.bump_onlyIn | apply OnlyIn.when | apply OutOnlyIn.cond | apply OnlyIn.cond)
    | extract_lets | dsimp only | split | exact h_hifGlb

end Sys2Proof.Machine
end

