-- ==== Sys2Proof/Laws/OnlyCommitOps.lean ====
section
/-!
SUPPORT. Which blocks the operations of CommitOps change.
-/
set_option Elab.async false
set_option linter.all false
namespace Sys2Proof.Machine

theorem State.loadSteal_onlyIn {l : List Block} {r : State} {s : State} {i : Image} {n : Nat} (hk : OnlyIn l r s) (h_arcCl : Block.arcCl ∈ l) :
    OnlyIn l r (State.loadSteal s i n) := by
  unfold State.loadSteal
  repeat' first
    | intro _
    | (with_reducible first | assumption | exact OnlyIn.refl _ _ | apply State.wr_onlyIn | apply OnlyIn.puts_cons | apply OnlyIn.puts_nil | apply OnlyIn.each)
    | extract_lets | dsimp only | exact h_arcCl

theorem State.loadLane_onlyIn {l : List Block} {r : State} {s : State} {i : Image} {n : Nat} (hk : OnlyIn l r s) (h_arcCl : Block.arcCl ∈ l) (h_hifGlb : Block.hifGlb ∈ l) :
    OnlyIn l r (State.loadLane s i n) := by
  unfold State.loadLane
  repeat' first
    | intro _
    | (with_reducible first | assumption | exact OnlyIn.refl _ _ | apply State.wr_onlyIn | apply State.wrb_onlyIn | apply OnlyIn.puts_cons | apply OnlyIn.puts_nil | apply OnlyIn.cond | apply OnlyIn.cond_snd | apply OptOnlyIn.getD)
    | extract_lets | dsimp only | split | exact h_arcCl | exact h_hifGlb

theorem State.loadSkipped_onlyIn {l : List Block} {r : State} {s : State} {i : Image} (hk : OnlyIn l r s) (h_img : Block.img ∈ l) :
    OnlyIn l r (State.loadSkipped s i) := by
  unfold State.loadSkipped
  repeat' first
    | intro _
    | (with_reducible first | assumption | exact OnlyIn.refl _ _ | apply State.wr_onlyIn | apply State.raise_onlyIn | apply OnlyIn.when)
    | extract_lets | dsimp only | exact h_img

theorem State.remapHosts_onlyIn {l : List Block} {r : State} {s : State} {old : State} {g : PortGroup} (hk : OnlyIn l r s) (h_evf : Block.evf ∈ l) (h_hif : Block.hif ∈ l) (h_hifGlb : Block.hifGlb ∈ l) (h_mgt : Block.mgt ∈ l) :
    OnlyIn l r (State.remapHosts s old g) := by
  unfold State.remapHosts
  repeat' first
    | intro _
    | (with_reducible first | assumption | exact OnlyIn.refl _ _ | apply State.setEhm_onlyIn | apply State.wr_onlyIn | apply State.groupTrain_onlyIn | apply State.hifOff_onlyIn | apply State.hifReturn_onlyIn | apply State.hifToAlign_onlyIn | apply State.hifTrainStart_onlyIn | apply OnlyIn.each | apply OnlyIn.when | apply OnlyIn.cond)
    | extract_lets | dsimp only | split | exact h_evf | exact h_hif | exact h_hifGlb | exact h_mgt

theorem State.pcTables_onlyIn {l : List Block} {r : State} {s : State} {i : Image} (hk : OnlyIn l r s) (h_arcCl : Block.arcCl ∈ l) (h_evf : Block.evf ∈ l) (h_hif : Block.hif ∈ l) (h_hifGlb : Block.hifGlb ∈ l) (h_mgt : Block.mgt ∈ l) :
    OnlyIn l r (State.pcTables s i) := by
  unfold State.pcTables
  repeat' first
    | intro _
    | (with_reducible first | assumption | exact OnlyIn.refl _ _ | apply State.loadLane_onlyIn | apply State.remapHosts_onlyIn | apply State.pairFollow_onlyIn | apply OnlyIn.each)
    | extract_lets | dsimp only | exact h_arcCl | exact h_evf | exact h_hif | exact h_hifGlb | exact h_mgt

theorem State.pcFinish_onlyIn {l : List Block} {r : State} {s : State} (hk : OnlyIn l r s) (h_arc : Block.arc ∈ l) (h_arcCl : Block.arcCl ∈ l) (h_evf : Block.evf ∈ l) (h_img : Block.img ∈ l) (h_lfr : Block.lfr ∈ l) (h_mgt : Block.mgt ∈ l) :
    OnlyIn l r (State.pcFinish s) := by
  unfold State.pcFinish
  repeat' first
    | intro _
    | (with_reducible first | assumption | exact OnlyIn.refl _ _ | apply State.loadSteal_onlyIn | apply State.wr_onlyIn | apply State.homeLow_onlyIn | apply State.bump_onlyIn | apply State.loadSkipped_onlyIn | apply State.imgEnd_onlyIn | apply OnlyIn.puts_cons | apply OnlyIn.puts_nil | apply OnlyIn.each)
    | extract_lets | dsimp only | split | exact h_arc | exact h_arcCl | exact h_evf | exact h_img | exact h_lfr | exact h_mgt

end Sys2Proof.Machine
end

