-- ==== Sys2Proof/Laws/OnlyThermal.lean ====
section
/-!
SUPPORT. Which blocks the operations of Thermal change.
-/
set_option Elab.async false
set_option linter.all false
namespace Sys2Proof.Machine

theorem State.rcStep_onlyIn {l : List Block} {r : State} {s : State} {power : Nat → Int} (hk : OnlyIn l r s) (h_thm : Block.thm ∈ l) :
    OnlyIn l r (State.rcStep s power) := by
  unfold State.rcStep
  repeat' first
    | intro _
    | (with_reducible first | assumption | exact OnlyIn.refl _ _ | apply State.wrInt_onlyIn | apply OnlyIn.each)
    | extract_lets | dsimp only | exact h_thm | (unfold nodeField; split <;> assumption)

theorem State.thmSet_onlyIn {l : List Block} {r : State} {s : State} {st : Nat} (hk : OnlyIn l r s) (h_evf : Block.evf ∈ l) (h_thm : Block.thm ∈ l) :
    OnlyIn l r (State.thmSet s st) := by
  unfold State.thmSet
  repeat' first
    | intro _
    | (with_reducible first | assumption | exact OnlyIn.refl _ _ | apply State.wr_onlyIn | apply State.emit_onlyIn | apply OnlyIn.cond)
    | extract_lets | split | exact h_evf | exact h_thm

theorem State.sensorBroken_onlyIn {l : List Block} {r : State} {s : State} {islands : List Nat} (hk : OnlyIn l r s) (h_thm : Block.thm ∈ l) :
    OnlyIn l r (State.sensorBroken s islands) := by
  unfold State.sensorBroken
  repeat' first
    | intro _
    | (with_reducible first | assumption | exact OnlyIn.refl _ _ | apply State.wr_onlyIn | apply State.bump_onlyIn | apply State.raise_onlyIn | apply OnlyIn.each)
    | extract_lets | dsimp only | exact h_thm

theorem State.critStandby_onlyIn {l : List Block} {r : State} {s : State} (hk : OnlyIn l r s) (h_arc : Block.arc ∈ l) (h_arcCl : Block.arcCl ∈ l) (h_evf : Block.evf ∈ l) (h_hif : Block.hif ∈ l) (h_hifGlb : Block.hifGlb ∈ l) (h_hlt : Block.hlt ∈ l) (h_hltLn : Block.hltLn ∈ l) (h_img : Block.img ∈ l) (h_leq : Block.leq ∈ l) (h_lfr : Block.lfr ∈ l) (h_lrx : Block.lrx ∈ l) (h_ltx : Block.ltx ∈ l) (h_mgt : Block.mgt ∈ l) (h_optLn : Block.optLn ∈ l) (h_pwr : Block.pwr ∈ l) (h_pwrLn : Block.pwrLn ∈ l) (h_thm : Block.thm ∈ l) (h_timLn : Block.timLn ∈ l) :
    OnlyIn l r (State.critStandby s) := by
  unfold State.critStandby
  repeat' first
    | intro _
    | (with_reducible first | assumption | exact OnlyIn.refl _ _ | apply State.wr_onlyIn | apply State.pcFinish_onlyIn | apply State.pcAbort_onlyIn | apply State.standbyEnter_onlyIn | apply State.abortTests_onlyIn | apply OnlyIn.puts_cons | apply OnlyIn.puts_nil | apply OnlyIn.cond)
    | extract_lets | split | exact h_arc | exact h_arcCl | exact h_evf | exact h_hif | exact h_hifGlb | exact h_hlt | exact h_hltLn | exact h_img | exact h_leq | exact h_lfr | exact h_lrx | exact h_ltx | exact h_mgt | exact h_optLn | exact h_pwr | exact h_pwrLn | exact h_thm | exact h_timLn

theorem State.critical_onlyIn {l : List Block} {r : State} {s : State} (hk : OnlyIn l r s) (h_arc : Block.arc ∈ l) (h_arcCl : Block.arcCl ∈ l) (h_evf : Block.evf ∈ l) (h_hif : Block.hif ∈ l) (h_hifGlb : Block.hifGlb ∈ l) (h_hlt : Block.hlt ∈ l) (h_hltLn : Block.hltLn ∈ l) (h_img : Block.img ∈ l) (h_leq : Block.leq ∈ l) (h_lfr : Block.lfr ∈ l) (h_lrx : Block.lrx ∈ l) (h_ltx : Block.ltx ∈ l) (h_mgt : Block.mgt ∈ l) (h_optLn : Block.optLn ∈ l) (h_pwr : Block.pwr ∈ l) (h_pwrLn : Block.pwrLn ∈ l) (h_thm : Block.thm ∈ l) (h_timLn : Block.timLn ∈ l) :
    OnlyIn l r (State.critical s) := by
  unfold State.critical
  repeat' first
    | intro _
    | (with_reducible first | assumption | exact OnlyIn.refl _ _ | apply State.ltxFault_onlyIn | apply State.bump_onlyIn | apply State.raise_onlyIn | apply State.thmSet_onlyIn | apply State.wr_onlyIn | apply State.critStandby_onlyIn | apply OnlyIn.puts_cons | apply OnlyIn.puts_nil | apply OnlyIn.each | apply OnlyIn.cond)
    | extract_lets | dsimp only | split | exact h_arc | exact h_arcCl | exact h_evf | exact h_hif | exact h_hifGlb | exact h_hlt | exact h_hltLn | exact h_img | exact h_leq | exact h_lfr | exact h_lrx | exact h_ltx | exact h_mgt | exact h_optLn | exact h_pwr | exact h_pwrLn | exact h_thm | exact h_timLn

theorem State.critClear_onlyIn {l : List Block} {r : State} {s : State} (hk : OnlyIn l r s) (h_evf : Block.evf ∈ l) (h_pwr : Block.pwr ∈ l) (h_thm : Block.thm ∈ l) :
    OnlyIn l r (State.critClear s) := by
  unfold State.critClear
  repeat' first
    | intro _
    | (with_reducible first | assumption | exact OnlyIn.refl _ _ | apply State.raise_onlyIn | apply State.wr_onlyIn | apply State.thmSet_onlyIn | apply State.dvfsKick_onlyIn | apply State.standbyRelease_onlyIn | apply OnlyIn.puts_cons | apply OnlyIn.puts_nil | apply OnlyIn.each | apply OnlyIn.cond)
    | extract_lets | dsimp only | split
    | (with_reducible first | apply OnlyIn.other)
    | exact h_evf | exact h_pwr | exact h_thm

theorem execCritClr_onlyIn {l : List Block} {r : State} {s : State} (hk : OnlyIn l r s) (h_clk : Block.clk ∈ l) (h_evf : Block.evf ∈ l) (h_glb : Block.glb ∈ l) (h_pwr : Block.pwr ∈ l) (h_thm : Block.thm ∈ l) :
    OutOnlyIn l r (execCritClr s) := by
  unfold execCritClr
  repeat' first
    | intro _
    | (with_reducible first | assumption | exact OnlyIn.refl _ _ | apply OutOnlyIn.next | apply State.access_onlyIn | apply State.critClear_onlyIn | apply OutOnlyIn.cond | apply OnlyIn.cond)
    | extract_lets | dsimp only | split | exact h_clk | exact h_evf | exact h_glb | exact h_pwr | exact h_thm

theorem execCritAutoClear_onlyIn {l : List Block} {r : State} {s : State} (hk : OnlyIn l r s) (h_evf : Block.evf ∈ l) (h_pwr : Block.pwr ∈ l) (h_thm : Block.thm ∈ l) :
    OutOnlyIn l r (execCritAutoClear s) := by
  unfold execCritAutoClear
  repeat' first
    | intro _
    | (with_reducible first | assumption | exact OnlyIn.refl _ _ | apply OutOnlyIn.next | apply State.critClear_onlyIn | apply OutOnlyIn.cond | apply OnlyIn.cond)
    | extract_lets | split | exact h_evf | exact h_pwr | exact h_thm

theorem State.stepTaken_onlyIn {l : List Block} {r : State} {s : State} {k : StepKind} {n old : Nat} (hk : OnlyIn l r s) (h_thm : Block.thm ∈ l) :
    OnlyIn l r (State.stepTaken s k n old) := by
  unfold State.stepTaken
  repeat' first
    | intro _
    | (with_reducible first | assumption | exact OnlyIn.refl _ _ | apply State.bump_onlyIn | apply State.raise_onlyIn)
    | extract_lets
    | (with_reducible first | apply OnlyIn.other)
    | exact h_thm

theorem State.stepOn_onlyIn {l : List Block} {r s : State} {n : Nat} (hk : OnlyIn l r s) (h_evf : Block.evf ∈ l) (h_hif : Block.hif ∈ l) (h_hifGlb : Block.hifGlb ∈ l) (h_hlt : Block.hlt ∈ l) (h_hltLn : Block.hltLn ∈ l) (h_leq : Block.leq ∈ l) (h_lfr : Block.lfr ∈ l) (h_lrx : Block.lrx ∈ l) (h_ltx : Block.ltx ∈ l) (h_mgt : Block.mgt ∈ l) (h_optLn : Block.optLn ∈ l) (h_pwr : Block.pwr ∈ l) (h_pwrLn : Block.pwrLn ∈ l) (h_thm : Block.thm ∈ l) (h_timLn : Block.timLn ∈ l) :
    OptOnlyIn l r (s.stepOn n) := by
  unfold State.stepOn
  split
  · exact OptOnlyIn.none
  · extract_lets prof forced
    have hf : OptOnlyIn l r forced := by
      dsimp only [forced]
      split
      · apply State.profForce_onlyIn <;> assumption
      · exact OptOnlyIn.none
    clear_value forced
    split
    · have ht := OptOnlyIn.elim hf rfl
      apply OptOnlyIn.some
      with_reducible apply State.stepTaken_onlyIn
      · with_reducible apply State.wr_onlyIn
        · exact OnlyIn.when ht (fun u hu => State.wr_onlyIn hu h_thm)
        · exact h_thm
      all_goals assumption
    · refine OptOnlyIn.cond ?_ ?_
      · apply OptOnlyIn.some
        with_reducible apply State.stepTaken_onlyIn
        · with_reducible apply State.dvfsKick_onlyIn
          · exact State.wr_onlyIn hk h_thm
          all_goals assumption
        all_goals assumption
      · apply OptOnlyIn.some
        with_reducible apply State.stepTaken_onlyIn
        · with_reducible apply OnlyIn.each
          · with_reducible apply State.lrxOff_onlyIn
            · exact State.wr_onlyIn hk h_thm
            all_goals assumption
          · intro h u hu
            apply State.hifOff_onlyIn <;> assumption
        all_goals assumption

theorem State.enforce_onlyIn {l : List Block} {r s : State} (hk : OnlyIn l r s) (h_evf : Block.evf ∈ l) (h_hif : Block.hif ∈ l) (h_hifGlb : Block.hifGlb ∈ l) (h_hlt : Block.hlt ∈ l) (h_hltLn : Block.hltLn ∈ l) (h_leq : Block.leq ∈ l) (h_lfr : Block.lfr ∈ l) (h_lrx : Block.lrx ∈ l) (h_ltx : Block.ltx ∈ l) (h_mgt : Block.mgt ∈ l) (h_optLn : Block.optLn ∈ l) (h_pwr : Block.pwr ∈ l) (h_pwrLn : Block.pwrLn ∈ l) (h_thm : Block.thm ∈ l) (h_timLn : Block.timLn ∈ l) :
    OnlyIn l r s.enforce := by
  unfold State.enforce
  split
  · exact State.wr_onlyIn hk h_thm
  · with_reducible refine OptOnlyIn.getD ?_ hk
    with_reducible apply OptOnlyIn.findSome
    intro n
    apply State.stepOn_onlyIn <;> assumption

theorem execGraceExpiry_onlyIn {l : List Block} {r : State} {s : State} (hk : OnlyIn l r s) (h_evf : Block.evf ∈ l) (h_hif : Block.hif ∈ l) (h_hifGlb : Block.hifGlb ∈ l) (h_hlt : Block.hlt ∈ l) (h_hltLn : Block.hltLn ∈ l) (h_leq : Block.leq ∈ l) (h_lfr : Block.lfr ∈ l) (h_lrx : Block.lrx ∈ l) (h_ltx : Block.ltx ∈ l) (h_mgt : Block.mgt ∈ l) (h_optLn : Block.optLn ∈ l) (h_pwr : Block.pwr ∈ l) (h_pwrLn : Block.pwrLn ∈ l) (h_thm : Block.thm ∈ l) (h_timLn : Block.timLn ∈ l) :
    OutOnlyIn l r (execGraceExpiry s) := by
  unfold execGraceExpiry
  repeat' first
    | intro _
    | (with_reducible first | assumption | exact OnlyIn.refl _ _ | apply OutOnlyIn.next | apply State.thmSet_onlyIn | apply State.enforce_onlyIn | apply OutOnlyIn.cond | apply OnlyIn.cond)
    | extract_lets | split | exact h_evf | exact h_hif | exact h_hifGlb | exact h_hlt | exact h_hltLn | exact h_leq | exact h_lfr | exact h_lrx | exact h_ltx | exact h_mgt | exact h_optLn | exact h_pwr | exact h_pwrLn | exact h_thm | exact h_timLn

theorem execThrottleStep_onlyIn {l : List Block} {r : State} {s : State} (hk : OnlyIn l r s) (h_evf : Block.evf ∈ l) (h_hif : Block.hif ∈ l) (h_hifGlb : Block.hifGlb ∈ l) (h_hlt : Block.hlt ∈ l) (h_hltLn : Block.hltLn ∈ l) (h_leq : Block.leq ∈ l) (h_lfr : Block.lfr ∈ l) (h_lrx : Block.lrx ∈ l) (h_ltx : Block.ltx ∈ l) (h_mgt : Block.mgt ∈ l) (h_optLn : Block.optLn ∈ l) (h_pwr : Block.pwr ∈ l) (h_pwrLn : Block.pwrLn ∈ l) (h_thm : Block.thm ∈ l) (h_timLn : Block.timLn ∈ l) :
    OutOnlyIn l r (execThrottleStep s) := by
  unfold execThrottleStep
  repeat' first
    | intro _
    | (with_reducible first | assumption | exact OnlyIn.refl _ _ | apply OutOnlyIn.next | apply State.enforce_onlyIn | apply OutOnlyIn.cond | apply OnlyIn.cond)
    | extract_lets | split | exact h_evf | exact h_hif | exact h_hifGlb | exact h_hlt | exact h_hltLn | exact h_leq | exact h_lfr | exact h_lrx | exact h_ltx | exact h_mgt | exact h_optLn | exact h_pwr | exact h_pwrLn | exact h_thm | exact h_timLn

theorem State.undo_onlyIn {l : List Block} {r s : State} (hk : OnlyIn l r s) (h_arc : Block.arc ∈ l) (h_arcCl : Block.arcCl ∈ l) (h_evf : Block.evf ∈ l) (h_glb : Block.glb ∈ l) (h_hif : Block.hif ∈ l) (h_hifGlb : Block.hifGlb ∈ l) (h_hlt : Block.hlt ∈ l) (h_hltLn : Block.hltLn ∈ l) (h_leq : Block.leq ∈ l) (h_lfr : Block.lfr ∈ l) (h_lrx : Block.lrx ∈ l) (h_ltx : Block.ltx ∈ l) (h_mgt : Block.mgt ∈ l) (h_optLn : Block.optLn ∈ l) (h_pwr : Block.pwr ∈ l) (h_pwrLn : Block.pwrLn ∈ l) (h_thm : Block.thm ∈ l) (h_timLn : Block.timLn ∈ l) : OptOnlyIn l r s.undo := by
  unfold State.undo
  split
  · exact OptOnlyIn.none
  · rename_i n old k h
    have hf : OptOnlyIn l r (s.profForce n old) := by apply State.profForce_onlyIn <;> assumption
    cases hq : s.profForce n old with
    | none => exact OptOnlyIn.none
    | some t =>
      exact OptOnlyIn.some (State.raise_onlyIn (OnlyIn.other (State.wr_onlyIn (OptOnlyIn.elim hf hq) h_thm)) h_thm)
  · apply OptOnlyIn.some
    with_reducible apply State.raise_onlyIn
    · with_reducible apply State.dvfsKick_onlyIn
      · exact State.wr_onlyIn (OnlyIn.other hk) h_thm
      all_goals assumption
    · exact h_thm
  · extract_lets s1 s2 s3 s4
    apply OptOnlyIn.some
    with_reducible apply State.raise_onlyIn
    · with_reducible apply OnlyIn.each
      · with_reducible apply OnlyIn.when
        · with_reducible apply OnlyIn.each
          · with_reducible apply State.setDomain_onlyIn
            · exact State.wr_onlyIn (OnlyIn.other hk) h_thm
            all_goals assumption
          · intro h u hu
            with_reducible apply OnlyIn.when hu
            intro v hv
            apply State.setDomain_onlyIn <;> assumption
        · intro u hu
          apply State.lrxEnableOn_onlyIn <;> assumption
      · intro h u hu
        with_reducible apply OnlyIn.when hu
        intro v hv
        apply State.hifEnableOn_onlyIn <;> assumption
    · exact h_thm

theorem State.thmSettle_onlyIn {l : List Block} {r : State} {s : State} (hk : OnlyIn l r s) (h_evf : Block.evf ∈ l) (h_thm : Block.thm ∈ l) :
    OnlyIn l r (State.thmSettle s) := by
  unfold State.thmSettle
  repeat' first
    | intro _
    | (with_reducible first | assumption | exact OnlyIn.refl _ _ | apply State.thmSet_onlyIn | apply OnlyIn.cond)
    | extract_lets | split | exact h_evf | exact h_thm

theorem execRecoverExpiry_onlyIn {l : List Block} {r : State} {s : State} (hk : OnlyIn l r s) (h_arc : Block.arc ∈ l) (h_arcCl : Block.arcCl ∈ l) (h_evf : Block.evf ∈ l) (h_glb : Block.glb ∈ l) (h_hif : Block.hif ∈ l) (h_hifGlb : Block.hifGlb ∈ l) (h_hlt : Block.hlt ∈ l) (h_hltLn : Block.hltLn ∈ l) (h_leq : Block.leq ∈ l) (h_lfr : Block.lfr ∈ l) (h_lrx : Block.lrx ∈ l) (h_ltx : Block.ltx ∈ l) (h_mgt : Block.mgt ∈ l) (h_optLn : Block.optLn ∈ l) (h_pwr : Block.pwr ∈ l) (h_pwrLn : Block.pwrLn ∈ l) (h_thm : Block.thm ∈ l) (h_timLn : Block.timLn ∈ l) :
    OutOnlyIn l r (execRecoverExpiry s) := by
  unfold execRecoverExpiry
  repeat' first
    | intro _
    | (with_reducible first | assumption | exact OnlyIn.refl _ _ | apply OutOnlyIn.next | apply State.undo_onlyIn | apply State.thmSettle_onlyIn | apply OutOnlyIn.cond | apply OnlyIn.cond | apply OptOnlyIn.getD)
    | extract_lets | split | (with_reducible refine OptOnlyIn.elim (by apply State.undo_onlyIn <;> assumption) (by assumption)) | exact h_arc | exact h_arcCl | exact h_evf | exact h_glb | exact h_hif | exact h_hifGlb | exact h_hlt | exact h_hltLn | exact h_leq | exact h_lfr | exact h_lrx | exact h_ltx | exact h_mgt | exact h_optLn | exact h_pwr | exact h_pwrLn | exact h_thm | exact h_timLn

theorem State.undoAll_onlyIn {l : List Block} {r s : State} {k : Nat} (hk : OnlyIn l r s) (h_arc : Block.arc ∈ l) (h_arcCl : Block.arcCl ∈ l) (h_evf : Block.evf ∈ l) (h_glb : Block.glb ∈ l) (h_hif : Block.hif ∈ l) (h_hifGlb : Block.hifGlb ∈ l) (h_hlt : Block.hlt ∈ l) (h_hltLn : Block.hltLn ∈ l) (h_leq : Block.leq ∈ l) (h_lfr : Block.lfr ∈ l) (h_lrx : Block.lrx ∈ l) (h_ltx : Block.ltx ∈ l) (h_mgt : Block.mgt ∈ l) (h_optLn : Block.optLn ∈ l) (h_pwr : Block.pwr ∈ l) (h_pwrLn : Block.pwrLn ∈ l) (h_thm : Block.thm ∈ l) (h_timLn : Block.timLn ∈ l) :
    OnlyIn l r (s.undoAll k) := by
  induction k generalizing s with
  | zero => exact hk
  | succ k ih =>
    unfold State.undoAll
    split
    · have h : OptOnlyIn l r s.undo := by apply State.undo_onlyIn <;> assumption
      exact ih (OptOnlyIn.elim h (by assumption))
    · exact hk

theorem execRestore_onlyIn {l : List Block} {r : State} {s : State} (hk : OnlyIn l r s) (h_arc : Block.arc ∈ l) (h_arcCl : Block.arcCl ∈ l) (h_clk : Block.clk ∈ l) (h_evf : Block.evf ∈ l) (h_glb : Block.glb ∈ l) (h_hif : Block.hif ∈ l) (h_hifGlb : Block.hifGlb ∈ l) (h_hlt : Block.hlt ∈ l) (h_hltLn : Block.hltLn ∈ l) (h_leq : Block.leq ∈ l) (h_lfr : Block.lfr ∈ l) (h_lrx : Block.lrx ∈ l) (h_ltx : Block.ltx ∈ l) (h_mgt : Block.mgt ∈ l) (h_optLn : Block.optLn ∈ l) (h_pwr : Block.pwr ∈ l) (h_pwrLn : Block.pwrLn ∈ l) (h_thm : Block.thm ∈ l) (h_timLn : Block.timLn ∈ l) :
    OutOnlyIn l r (execRestore s) := by
  unfold execRestore
  repeat' first
    | intro _
    | (with_reducible first | assumption | exact OnlyIn.refl _ _ | apply OutOnlyIn.next | apply State.access_onlyIn | apply State.undoAll_onlyIn | apply State.thmSettle_onlyIn | apply OutOnlyIn.cond | apply OnlyIn.cond)
    | extract_lets | dsimp only | split | exact h_arc | exact h_arcCl | exact h_clk | exact h_evf | exact h_glb | exact h_hif | exact h_hifGlb | exact h_hlt | exact h_hltLn | exact h_leq | exact h_lfr | exact h_lrx | exact h_ltx | exact h_mgt | exact h_optLn | exact h_pwr | exact h_pwrLn | exact h_thm | exact h_timLn

theorem State.levelChange_onlyIn {l : List Block} {r : State} {s : State} {k : Nat} {on : Bool} (hk : OnlyIn l r s) (h_arc : Block.arc ∈ l) (h_arcCl : Block.arcCl ∈ l) (h_evf : Block.evf ∈ l) (h_hif : Block.hif ∈ l) (h_hifGlb : Block.hifGlb ∈ l) (h_hlt : Block.hlt ∈ l) (h_hltLn : Block.hltLn ∈ l) (h_img : Block.img ∈ l) (h_leq : Block.leq ∈ l) (h_lfr : Block.lfr ∈ l) (h_lrx : Block.lrx ∈ l) (h_ltx : Block.ltx ∈ l) (h_mgt : Block.mgt ∈ l) (h_optLn : Block.optLn ∈ l) (h_pwr : Block.pwr ∈ l) (h_pwrLn : Block.pwrLn ∈ l) (h_thm : Block.thm ∈ l) (h_timLn : Block.timLn ∈ l) :
    OnlyIn l r (State.levelChange s k on) := by
  unfold State.levelChange
  repeat' first
    | intro _
    | (with_reducible first | assumption | exact OnlyIn.refl _ _ | apply State.wr_onlyIn | apply State.raise_onlyIn | apply State.cmis_onlyIn | apply State.bump_onlyIn | apply State.thmSet_onlyIn | apply State.critical_onlyIn | apply OnlyIn.cond)
    | extract_lets | dsimp only | split | exact h_arc | exact h_arcCl | exact h_evf | exact h_hif | exact h_hifGlb | exact h_hlt | exact h_hltLn | exact h_img | exact h_leq | exact h_lfr | exact h_lrx | exact h_ltx | exact h_mgt | exact h_optLn | exact h_pwr | exact h_pwrLn | exact h_thm | exact h_timLn

theorem State.levelCheck_onlyIn {l : List Block} {r : State} {s : State} {k : Nat} (hk : OnlyIn l r s) (h_arc : Block.arc ∈ l) (h_arcCl : Block.arcCl ∈ l) (h_evf : Block.evf ∈ l) (h_hif : Block.hif ∈ l) (h_hifGlb : Block.hifGlb ∈ l) (h_hlt : Block.hlt ∈ l) (h_hltLn : Block.hltLn ∈ l) (h_img : Block.img ∈ l) (h_leq : Block.leq ∈ l) (h_lfr : Block.lfr ∈ l) (h_lrx : Block.lrx ∈ l) (h_ltx : Block.ltx ∈ l) (h_mgt : Block.mgt ∈ l) (h_optLn : Block.optLn ∈ l) (h_pwr : Block.pwr ∈ l) (h_pwrLn : Block.pwrLn ∈ l) (h_thm : Block.thm ∈ l) (h_timLn : Block.timLn ∈ l) :
    OnlyIn l r (State.levelCheck s k) := by
  unfold State.levelCheck
  repeat' first
    | intro _
    | (with_reducible first | assumption | exact OnlyIn.refl _ _ | apply State.wr_onlyIn | apply State.levelChange_onlyIn | apply OnlyIn.cond)
    | extract_lets | split | exact h_arc | exact h_arcCl | exact h_evf | exact h_hif | exact h_hifGlb | exact h_hlt | exact h_hltLn | exact h_img | exact h_leq | exact h_lfr | exact h_lrx | exact h_ltx | exact h_mgt | exact h_optLn | exact h_pwr | exact h_pwrLn | exact h_thm | exact h_timLn

theorem State.railRead_onlyIn {l : List Block} {r : State} {s : State} {counts : List Nat} {k : Nat} {ma : Int} (hk : OnlyIn l r s) (h_thm : Block.thm ∈ l) :
    OnlyIn l r (State.railRead s counts k ma) := by
  unfold State.railRead
  repeat' first
    | intro _
    | (with_reducible first | assumption | exact OnlyIn.refl _ _ | apply State.wr_onlyIn | apply State.sensorBroken_onlyIn | apply OnlyIn.when | apply OnlyIn.cond)
    | extract_lets | dsimp only | split | exact h_thm

theorem State.islandReport_onlyIn {l : List Block} {r : State} {s : State} {i : Nat} {mw : Int} (hk : OnlyIn l r s) (h_thm : Block.thm ∈ l) :
    OnlyIn l r (State.islandReport s i mw) := by
  unfold State.islandReport
  repeat' first
    | intro _
    | (with_reducible first | assumption | exact OnlyIn.refl _ _ | apply State.wrInt_onlyIn | apply State.wr_onlyIn | apply OnlyIn.cond)
    | extract_lets | split | exact h_thm

theorem execThermalModelUpdate_onlyIn {l : List Block} {r : State} {counts : List Nat} {rails : List Int} {s : State} (hk : OnlyIn l r s) (h_arc : Block.arc ∈ l) (h_arcCl : Block.arcCl ∈ l) (h_evf : Block.evf ∈ l) (h_hif : Block.hif ∈ l) (h_hifGlb : Block.hifGlb ∈ l) (h_hlt : Block.hlt ∈ l) (h_hltLn : Block.hltLn ∈ l) (h_img : Block.img ∈ l) (h_leq : Block.leq ∈ l) (h_lfr : Block.lfr ∈ l) (h_lrx : Block.lrx ∈ l) (h_ltx : Block.ltx ∈ l) (h_mgt : Block.mgt ∈ l) (h_optLn : Block.optLn ∈ l) (h_pwr : Block.pwr ∈ l) (h_pwrLn : Block.pwrLn ∈ l) (h_thm : Block.thm ∈ l) (h_timLn : Block.timLn ∈ l) :
    OutOnlyIn l r (execThermalModelUpdate counts rails s) := by
  unfold execThermalModelUpdate
  repeat' first
    | intro _
    | (with_reducible first | assumption | exact OnlyIn.refl _ _ | apply OutOnlyIn.next | apply State.railRead_onlyIn | apply State.rcStep_onlyIn | apply State.islandReport_onlyIn | apply State.wrInt_onlyIn | apply State.wr_onlyIn | apply State.levelCheck_onlyIn | apply OnlyIn.each | apply OnlyIn.foldl | apply OutOnlyIn.cond | apply OnlyIn.cond | apply OnlyIn.cond_snd)
    | extract_lets | dsimp only | split | exact h_arc | exact h_arcCl | exact h_evf | exact h_hif | exact h_hifGlb | exact h_hlt | exact h_hltLn | exact h_img | exact h_leq | exact h_lfr | exact h_lrx | exact h_ltx | exact h_mgt | exact h_optLn | exact h_pwr | exact h_pwrLn | exact h_thm | exact h_timLn

theorem State.diodeRead_onlyIn {l : List Block} {r : State} {s : State} {k : Nat} {d : DiodeReading} (hk : OnlyIn l r s) (h_arc : Block.arc ∈ l) (h_arcCl : Block.arcCl ∈ l) (h_evf : Block.evf ∈ l) (h_hif : Block.hif ∈ l) (h_hifGlb : Block.hifGlb ∈ l) (h_hlt : Block.hlt ∈ l) (h_hltLn : Block.hltLn ∈ l) (h_img : Block.img ∈ l) (h_leq : Block.leq ∈ l) (h_lfr : Block.lfr ∈ l) (h_lrx : Block.lrx ∈ l) (h_ltx : Block.ltx ∈ l) (h_mgt : Block.mgt ∈ l) (h_optLn : Block.optLn ∈ l) (h_pwr : Block.pwr ∈ l) (h_pwrLn : Block.pwrLn ∈ l) (h_thm : Block.thm ∈ l) (h_timLn : Block.timLn ∈ l) :
    OnlyIn l r (State.diodeRead s k d) := by
  unfold State.diodeRead
  repeat' first
    | intro _
    | (with_reducible first | assumption | exact OnlyIn.refl _ _ | apply State.wrInt_onlyIn | apply State.wr_onlyIn | apply State.sensorBroken_onlyIn | apply State.critical_onlyIn | apply OnlyIn.cond)
    | extract_lets | dsimp only | split | exact h_arc | exact h_arcCl | exact h_evf | exact h_hif | exact h_hifGlb | exact h_hlt | exact h_hltLn | exact h_img | exact h_leq | exact h_lfr | exact h_lrx | exact h_ltx | exact h_mgt | exact h_optLn | exact h_pwr | exact h_pwrLn | exact h_thm | exact h_timLn

theorem execDiodeMeasure_onlyIn {l : List Block} {r : State} {ds : List DiodeReading} {s : State} (hk : OnlyIn l r s) (h_arc : Block.arc ∈ l) (h_arcCl : Block.arcCl ∈ l) (h_evf : Block.evf ∈ l) (h_hif : Block.hif ∈ l) (h_hifGlb : Block.hifGlb ∈ l) (h_hlt : Block.hlt ∈ l) (h_hltLn : Block.hltLn ∈ l) (h_img : Block.img ∈ l) (h_leq : Block.leq ∈ l) (h_lfr : Block.lfr ∈ l) (h_lrx : Block.lrx ∈ l) (h_ltx : Block.ltx ∈ l) (h_mgt : Block.mgt ∈ l) (h_optLn : Block.optLn ∈ l) (h_pwr : Block.pwr ∈ l) (h_pwrLn : Block.pwrLn ∈ l) (h_thm : Block.thm ∈ l) (h_timLn : Block.timLn ∈ l) :
    OutOnlyIn l r (execDiodeMeasure ds s) := by
  unfold execDiodeMeasure
  repeat' first
    | intro _
    | (with_reducible first | assumption | exact OnlyIn.refl _ _ | apply OutOnlyIn.next | apply State.diodeRead_onlyIn | apply OnlyIn.each | apply OutOnlyIn.cond | apply OnlyIn.cond | apply OnlyIn.cond_snd)
    | extract_lets | dsimp only | split | exact h_arc | exact h_arcCl | exact h_evf | exact h_hif | exact h_hifGlb | exact h_hlt | exact h_hltLn | exact h_img | exact h_leq | exact h_lfr | exact h_lrx | exact h_ltx | exact h_mgt | exact h_optLn | exact h_pwr | exact h_pwrLn | exact h_thm | exact h_timLn

theorem execAonDiodeCompare_onlyIn {l : List Block} {r : State} {temps : List Int} {s : State} (hk : OnlyIn l r s) (h_arc : Block.arc ∈ l) (h_arcCl : Block.arcCl ∈ l) (h_evf : Block.evf ∈ l) (h_hif : Block.hif ∈ l) (h_hifGlb : Block.hifGlb ∈ l) (h_hlt : Block.hlt ∈ l) (h_hltLn : Block.hltLn ∈ l) (h_img : Block.img ∈ l) (h_leq : Block.leq ∈ l) (h_lfr : Block.lfr ∈ l) (h_lrx : Block.lrx ∈ l) (h_ltx : Block.ltx ∈ l) (h_mgt : Block.mgt ∈ l) (h_optLn : Block.optLn ∈ l) (h_pwr : Block.pwr ∈ l) (h_pwrLn : Block.pwrLn ∈ l) (h_thm : Block.thm ∈ l) (h_timLn : Block.timLn ∈ l) :
    OutOnlyIn l r (execAonDiodeCompare temps s) := by
  unfold execAonDiodeCompare
  repeat' first
    | intro _
    | (with_reducible first | assumption | exact OnlyIn.refl _ _ | apply OutOnlyIn.next | apply State.critical_onlyIn | apply OutOnlyIn.cond | apply OnlyIn.cond)
    | extract_lets | dsimp only | split | exact h_arc | exact h_arcCl | exact h_evf | exact h_hif | exact h_hifGlb | exact h_hlt | exact h_hltLn | exact h_img | exact h_leq | exact h_lfr | exact h_lrx | exact h_ltx | exact h_mgt | exact h_optLn | exact h_pwr | exact h_pwrLn | exact h_thm | exact h_timLn

theorem execAonThermalCrossing_onlyIn {l : List Block} {r : State} {before after : Int} {s : State} (hk : OnlyIn l r s) (h_evf : Block.evf ∈ l) (h_hif : Block.hif ∈ l) (h_hifGlb : Block.hifGlb ∈ l) (h_hlt : Block.hlt ∈ l) (h_hltLn : Block.hltLn ∈ l) (h_leq : Block.leq ∈ l) (h_lfr : Block.lfr ∈ l) (h_lrx : Block.lrx ∈ l) (h_ltx : Block.ltx ∈ l) (h_mgt : Block.mgt ∈ l) (h_pwr : Block.pwr ∈ l) (h_pwrLn : Block.pwrLn ∈ l) (h_timLn : Block.timLn ∈ l) :
    OutOnlyIn l r (execAonThermalCrossing before after s) := by
  unfold execAonThermalCrossing
  repeat' first
    | intro _
    | (with_reducible first | assumption | exact OnlyIn.refl _ _ | apply OutOnlyIn.next | apply State.wakeDevice_onlyIn | apply OutOnlyIn.cond | apply OnlyIn.cond)
    | extract_lets | split | exact h_evf | exact h_hif | exact h_hifGlb | exact h_hlt | exact h_hltLn | exact h_leq | exact h_lfr | exact h_lrx | exact h_ltx | exact h_mgt | exact h_pwr | exact h_pwrLn | exact h_timLn

theorem execThmCntClr_onlyIn {l : List Block} {r : State} {s : State} (hk : OnlyIn l r s) (h_clk : Block.clk ∈ l) (h_glb : Block.glb ∈ l) (h_thm : Block.thm ∈ l) :
    OutOnlyIn l r (execThmCntClr s) := by
  unfold execThmCntClr
  repeat' first
    | intro _
    | (with_reducible first | assumption | exact OnlyIn.refl _ _ | apply OutOnlyIn.next | apply State.access_onlyIn | apply State.wr_onlyIn | apply OnlyIn.clear_cons | apply OnlyIn.clear_nil)
    | extract_lets | dsimp only | exact h_clk | exact h_glb | exact h_thm

end Sys2Proof.Machine
end

