-- ==== Sys2Proof/Laws/OnlyPower.lean ====
section
/-!
SUPPORT. Which blocks the operations of Power change.
-/
set_option Elab.async false
set_option linter.all false
namespace Sys2Proof.Machine

theorem State.setPhase_onlyIn {l : List Block} {r : State} {s : State} {o : VoteObject} {p : Nat} (hk : OnlyIn l r s) (h_pwr : Block.pwr ∈ l) (h_pwrLn : Block.pwrLn ∈ l) :
    OnlyIn l r (State.setPhase s o p) := by
  unfold State.setPhase
  repeat' first
    | intro _
    | (with_reducible first | assumption | exact OnlyIn.refl _ _ | apply State.wr_onlyIn | apply OnlyIn.cond)
    | extract_lets | dsimp only | split | exact h_pwr | exact h_pwrLn

theorem State.recordRefusal_onlyIn {l : List Block} {r : State} {s : State} {o : VoteObject} {v : Voter} {reason target : Nat} {late : Bool} (hk : OnlyIn l r s) (h_evf : Block.evf ∈ l) (h_pwr : Block.pwr ∈ l) (h_pwrLn : Block.pwrLn ∈ l) :
    OnlyIn l r (State.recordRefusal s o v reason target late) := by
  unfold State.recordRefusal
  repeat' first
    | intro _
    | (with_reducible first | assumption | exact OnlyIn.refl _ _ | apply State.bump_onlyIn | apply State.raise_onlyIn | apply State.emit_onlyIn | apply State.wr_onlyIn | apply OnlyIn.puts_cons | apply OnlyIn.puts_nil | apply OnlyIn.cond)
    | extract_lets | dsimp only | split | exact h_evf | exact h_pwr | exact h_pwrLn

theorem State.voteStart_onlyIn {l : List Block} {r : State} {s : State} {o : VoteObject} (hk : OnlyIn l r s) (h_pwr : Block.pwr ∈ l) (h_pwrLn : Block.pwrLn ∈ l) :
    OnlyIn l r (State.voteStart s o) := by
  unfold State.voteStart
  repeat' first
    | intro _
    | (with_reducible first | assumption | exact OnlyIn.refl _ _ | apply State.setPhase_onlyIn | apply State.wr_onlyIn | apply OnlyIn.when | apply OnlyIn.cond)
    | extract_lets | dsimp only | split | exact h_pwr | exact h_pwrLn

theorem State.deviceRequest_onlyIn {l : List Block} {r : State} {s : State} {target : Nat} (hk : OnlyIn l r s) (h_pwr : Block.pwr ∈ l) (h_pwrLn : Block.pwrLn ∈ l) :
    OnlyIn l r (State.deviceRequest s target) := by
  unfold State.deviceRequest
  repeat' first
    | intro _
    | (with_reducible first | assumption | exact OnlyIn.refl _ _ | apply State.voteStart_onlyIn | apply State.wr_onlyIn | apply OnlyIn.puts_cons | apply OnlyIn.puts_nil)
    | extract_lets | exact h_pwr | exact h_pwrLn

theorem State.sleepRequest_onlyIn {l : List Block} {r : State} {s : State} {n : Nat} {egress : Bool} (hk : OnlyIn l r s) (h_pwr : Block.pwr ∈ l) (h_pwrLn : Block.pwrLn ∈ l) :
    OnlyIn l r (State.sleepRequest s n egress) := by
  unfold State.sleepRequest
  repeat' first
    | intro _
    | (with_reducible first | assumption | exact OnlyIn.refl _ _ | apply State.wr_onlyIn | apply State.voteStart_onlyIn | apply OnlyIn.puts_cons | apply OnlyIn.puts_nil | apply OnlyIn.when | apply OnlyIn.cond)
    | extract_lets | dsimp only | split | exact h_pwr | exact h_pwrLn

theorem execSleepRequest_onlyIn {l : List Block} {r : State} {n : Lane} {egress : Bool} {s : State} (hk : OnlyIn l r s) (h_clk : Block.clk ∈ l) (h_evf : Block.evf ∈ l) (h_glb : Block.glb ∈ l) (h_hlt : Block.hlt ∈ l) (h_pwr : Block.pwr ∈ l) (h_pwrLn : Block.pwrLn ∈ l) :
    OutOnlyIn l r (execSleepRequest n egress s) := by
  unfold execSleepRequest
  repeat' first
    | intro _
    | (with_reducible first | assumption | exact OnlyIn.refl _ _ | apply OutOnlyIn.next | apply State.access_onlyIn | apply State.laneService_onlyIn | apply State.sleepRequest_onlyIn)
    | extract_lets | dsimp only | exact h_clk | exact h_evf | exact h_glb | exact h_hlt | exact h_pwr | exact h_pwrLn

theorem execSleepRequestClear_onlyIn {l : List Block} {r : State} {n : Lane} {egress : Bool} {s : State} (hk : OnlyIn l r s) (h_clk : Block.clk ∈ l) (h_evf : Block.evf ∈ l) (h_glb : Block.glb ∈ l) (h_hif : Block.hif ∈ l) (h_lrx : Block.lrx ∈ l) (h_ltx : Block.ltx ∈ l) (h_pwr : Block.pwr ∈ l) (h_pwrLn : Block.pwrLn ∈ l) :
    OutOnlyIn l r (execSleepRequestClear n egress s) := by
  unfold execSleepRequestClear
  repeat' first
    | intro _
    | (with_reducible first | assumption | exact OnlyIn.refl _ _ | apply OutOnlyIn.next | apply State.access_onlyIn | apply State.wr_onlyIn | apply State.wakeDir_onlyIn | apply OutOnlyIn.cond | apply OnlyIn.cond)
    | extract_lets | dsimp only | split
    | (with_reducible first | apply OnlyIn.other)
    | exact h_clk | exact h_evf | exact h_glb | exact h_hif | exact h_lrx | exact h_ltx | exact h_pwr | exact h_pwrLn

theorem State.budgetWake_onlyIn {l : List Block} {r : State} {s : State} {n : Nat} {egress : Bool} (hk : OnlyIn l r s) (h_evf : Block.evf ∈ l) (h_hif : Block.hif ∈ l) (h_lrx : Block.lrx ∈ l) (h_ltx : Block.ltx ∈ l) (h_pwr : Block.pwr ∈ l) (h_pwrLn : Block.pwrLn ∈ l) :
    OnlyIn l r (State.budgetWake s n egress) := by
  unfold State.budgetWake
  repeat' first
    | intro _
    | (with_reducible first | assumption | exact OnlyIn.refl _ _ | apply State.wakeDir_onlyIn | apply State.trimEnd_onlyIn | apply State.wakeRecords_onlyIn | apply State.wakeLine_onlyIn | apply State.wakeHost_onlyIn | apply State.wr_onlyIn | apply OnlyIn.each | apply OnlyIn.when | apply OnlyIn.cond)
    | extract_lets | dsimp only | split | exact h_evf | exact h_hif | exact h_lrx | exact h_ltx | exact h_pwr | exact h_pwrLn | (unfold phaseField; split <;> assumption)

theorem execBudgetWrite_onlyIn {l : List Block} {r : State} {n : Lane} {egress : Bool} {us : BitVec 16} {s : State} (hk : OnlyIn l r s) (h_clk : Block.clk ∈ l) (h_evf : Block.evf ∈ l) (h_glb : Block.glb ∈ l) (h_hif : Block.hif ∈ l) (h_lrx : Block.lrx ∈ l) (h_ltx : Block.ltx ∈ l) (h_pwr : Block.pwr ∈ l) (h_pwrLn : Block.pwrLn ∈ l) :
    OutOnlyIn l r (execBudgetWrite n egress us s) := by
  unfold execBudgetWrite
  repeat' first
    | intro _
    | (with_reducible first | assumption | exact OnlyIn.refl _ _ | apply OutOnlyIn.next | apply State.access_onlyIn | apply State.budgetWake_onlyIn | apply State.voteStart_onlyIn | apply State.wr_onlyIn | apply OnlyIn.puts_cons | apply OnlyIn.puts_nil | apply OutOnlyIn.cond | apply OnlyIn.cond)
    | extract_lets | dsimp only | split | exact h_clk | exact h_evf | exact h_glb | exact h_hif | exact h_lrx | exact h_ltx | exact h_pwr | exact h_pwrLn

theorem execVotePrepare_onlyIn {l : List Block} {r : State} {obj : VoteObject} {s : State} (hk : OnlyIn l r s) (h_evf : Block.evf ∈ l) (h_hlt : Block.hlt ∈ l) (h_pwr : Block.pwr ∈ l) (h_pwrLn : Block.pwrLn ∈ l) :
    OutOnlyIn l r (execVotePrepare obj s) := by
  unfold execVotePrepare
  repeat' first
    | intro _
    | (with_reducible first | assumption | exact OnlyIn.refl _ _ | apply OutOnlyIn.next | apply State.voteStart_onlyIn | apply State.setPhase_onlyIn | apply State.recordRefusal_onlyIn | apply State.endTest_onlyIn | apply OnlyIn.each | apply OutOnlyIn.cond | apply OnlyIn.cond | apply OptOnlyIn.getD)
    | extract_lets | dsimp only | split
    | (with_reducible first | apply OnlyIn.other)
    | exact h_evf | exact h_hlt | exact h_pwr | exact h_pwrLn

theorem execVoteTimeout_onlyIn {l : List Block} {r : State} {obj : VoteObject} {block : Fin 9} {inst : Fin 16} {s : State} (hk : OnlyIn l r s) (h_evf : Block.evf ∈ l) (h_pwr : Block.pwr ∈ l) (h_pwrLn : Block.pwrLn ∈ l) :
    OutOnlyIn l r (execVoteTimeout obj block inst s) := by
  unfold execVoteTimeout
  repeat' first
    | intro _
    | (with_reducible first | assumption | exact OnlyIn.refl _ _ | apply OutOnlyIn.next | apply State.recordRefusal_onlyIn | apply State.setPhase_onlyIn | apply OutOnlyIn.cond | apply OnlyIn.cond)
    | extract_lets | split | exact h_evf | exact h_pwr | exact h_pwrLn

theorem State.commitBlock_onlyIn {l : List Block} {r : State} {s : State} {st : SleepStep} (hk : OnlyIn l r s) (h_hif : Block.hif ∈ l) (h_hltLn : Block.hltLn ∈ l) (h_leq : Block.leq ∈ l) (h_lrx : Block.lrx ∈ l) (h_ltx : Block.ltx ∈ l) (h_pwr : Block.pwr ∈ l) (h_pwrLn : Block.pwrLn ∈ l) :
    OnlyIn l r (State.commitBlock s st) := by
  unfold State.commitBlock
  have hs : (hostSleepField st.egress).desc.block ∈ l := by unfold hostSleepField; split <;> exact h_hif
  repeat' first
    | intro _
    | (with_reducible first | assumption | exact OnlyIn.refl _ _ | apply State.lrxAbandon_onlyIn | apply State.trimEnd_onlyIn | apply State.saveRecord_onlyIn | apply State.leqFollow_onlyIn | apply State.ltxAbandon_onlyIn | apply State.raise_onlyIn | apply State.maskDiscard_onlyIn | apply State.wr_onlyIn | apply OnlyIn.puts_cons | apply OnlyIn.puts_nil | apply OnlyIn.when | apply OnlyIn.cond)
    | extract_lets | dsimp only | split | exact h_hif | exact h_hltLn | exact h_leq | exact h_lrx | exact h_ltx | exact h_pwr | exact h_pwrLn | (unfold hostSleepField; split <;> assumption)

theorem State.commitDevice_onlyIn {l : List Block} {r : State} {s : State} {st : SleepStep} (hk : OnlyIn l r s) (h_evf : Block.evf ∈ l) (h_hif : Block.hif ∈ l) (h_hifGlb : Block.hifGlb ∈ l) (h_hlt : Block.hlt ∈ l) (h_hltLn : Block.hltLn ∈ l) (h_leq : Block.leq ∈ l) (h_lfr : Block.lfr ∈ l) (h_lrx : Block.lrx ∈ l) (h_ltx : Block.ltx ∈ l) (h_mgt : Block.mgt ∈ l) (h_optLn : Block.optLn ∈ l) (h_pwr : Block.pwr ∈ l) (h_pwrLn : Block.pwrLn ∈ l) (h_timLn : Block.timLn ∈ l) :
    OnlyIn l r (State.commitDevice s st) := by
  unfold State.commitDevice
  repeat' first
    | intro _
    | (with_reducible first | assumption | exact OnlyIn.refl _ _ | apply State.laneSave_onlyIn | apply State.lrxOff_onlyIn | apply State.ltxDisable_onlyIn | apply State.hifOff_onlyIn | apply OnlyIn.cond)
    | extract_lets | dsimp only | split | exact h_evf | exact h_hif | exact h_hifGlb | exact h_hlt | exact h_hltLn | exact h_leq | exact h_lfr | exact h_lrx | exact h_ltx | exact h_mgt | exact h_optLn | exact h_pwr | exact h_pwrLn | exact h_timLn

theorem State.refuseLate_onlyIn {l : List Block} {r : State} {s : State} {o : VoteObject} {v : Vote} {who : Voter} {reason : Nat} (hk : OnlyIn l r s) (h_evf : Block.evf ∈ l) (h_hif : Block.hif ∈ l) (h_hifGlb : Block.hifGlb ∈ l) (h_hlt : Block.hlt ∈ l) (h_hltLn : Block.hltLn ∈ l) (h_leq : Block.leq ∈ l) (h_lfr : Block.lfr ∈ l) (h_lrx : Block.lrx ∈ l) (h_ltx : Block.ltx ∈ l) (h_mgt : Block.mgt ∈ l) (h_pwr : Block.pwr ∈ l) (h_pwrLn : Block.pwrLn ∈ l) (h_timLn : Block.timLn ∈ l) :
    OnlyIn l r (State.refuseLate s o v who reason) := by
  unfold State.refuseLate
  repeat' first
    | intro _
    | (with_reducible first | assumption | exact OnlyIn.refl _ _ | apply State.wakeDone_onlyIn | apply State.recordRefusal_onlyIn | apply State.setPhase_onlyIn)
    | extract_lets | dsimp only
    | (with_reducible first | apply OnlyIn.other)
    | exact h_evf | exact h_hif | exact h_hifGlb | exact h_hlt | exact h_hltLn | exact h_leq | exact h_lfr | exact h_lrx | exact h_ltx | exact h_mgt | exact h_pwr | exact h_pwrLn | exact h_timLn

theorem execLateRefusal_onlyIn {l : List Block} {r : State} {obj : VoteObject} {block : Fin 9} {inst : Fin 16} {s : State} (hk : OnlyIn l r s) (h_evf : Block.evf ∈ l) (h_hif : Block.hif ∈ l) (h_hifGlb : Block.hifGlb ∈ l) (h_hlt : Block.hlt ∈ l) (h_hltLn : Block.hltLn ∈ l) (h_leq : Block.leq ∈ l) (h_lfr : Block.lfr ∈ l) (h_lrx : Block.lrx ∈ l) (h_ltx : Block.ltx ∈ l) (h_mgt : Block.mgt ∈ l) (h_pwr : Block.pwr ∈ l) (h_pwrLn : Block.pwrLn ∈ l) (h_timLn : Block.timLn ∈ l) :
    OutOnlyIn l r (execLateRefusal obj block inst s) := by
  unfold execLateRefusal
  repeat' first
    | intro _
    | (with_reducible first | assumption | exact OnlyIn.refl _ _ | apply OutOnlyIn.next | apply State.refuseLate_onlyIn)
    | extract_lets | dsimp only | split | exact h_evf | exact h_hif | exact h_hifGlb | exact h_hlt | exact h_hltLn | exact h_leq | exact h_lfr | exact h_lrx | exact h_ltx | exact h_mgt | exact h_pwr | exact h_pwrLn | exact h_timLn

theorem execSleepRetry_onlyIn {l : List Block} {r : State} {obj : VoteObject} {s : State} (hk : OnlyIn l r s) (h_pwr : Block.pwr ∈ l) (h_pwrLn : Block.pwrLn ∈ l) :
    OutOnlyIn l r (execSleepRetry obj s) := by
  unfold execSleepRetry
  repeat' first
    | intro _
    | (with_reducible first | assumption | exact OnlyIn.refl _ _ | apply OutOnlyIn.next | apply State.wr_onlyIn | apply State.voteStart_onlyIn | apply State.raise_onlyIn | apply OutOnlyIn.cond | apply OnlyIn.cond)
    | extract_lets | dsimp only | split | exact h_pwr | exact h_pwrLn

theorem execTrimEntry_onlyIn {l : List Block} {r : State} {n : Lane} {s : State} (hk : OnlyIn l r s) (h_pwr : Block.pwr ∈ l) (h_pwrLn : Block.pwrLn ∈ l) :
    OutOnlyIn l r (execTrimEntry n s) := by
  unfold execTrimEntry
  repeat' first
    | intro _
    | (with_reducible first | assumption | exact OnlyIn.refl _ _ | apply OutOnlyIn.next | apply State.wr_onlyIn | apply State.dvfsKick_onlyIn | apply OnlyIn.when | apply OutOnlyIn.cond | apply OnlyIn.cond)
    | extract_lets | dsimp only | split | exact h_pwr | exact h_pwrLn

theorem execWakeTimerExpiry_onlyIn {l : List Block} {r : State} {s : State} (hk : OnlyIn l r s) (h_evf : Block.evf ∈ l) (h_hif : Block.hif ∈ l) (h_hifGlb : Block.hifGlb ∈ l) (h_hlt : Block.hlt ∈ l) (h_hltLn : Block.hltLn ∈ l) (h_leq : Block.leq ∈ l) (h_lfr : Block.lfr ∈ l) (h_lrx : Block.lrx ∈ l) (h_ltx : Block.ltx ∈ l) (h_mgt : Block.mgt ∈ l) (h_pwr : Block.pwr ∈ l) (h_pwrLn : Block.pwrLn ∈ l) (h_timLn : Block.timLn ∈ l) :
    OutOnlyIn l r (execWakeTimerExpiry s) := by
  unfold execWakeTimerExpiry
  repeat' first
    | intro _
    | (with_reducible first | assumption | exact OnlyIn.refl _ _ | apply OutOnlyIn.next | apply State.wakeDevice_onlyIn | apply OutOnlyIn.cond | apply OnlyIn.cond)
    | extract_lets | split | exact h_evf | exact h_hif | exact h_hifGlb | exact h_hlt | exact h_hltLn | exact h_leq | exact h_lfr | exact h_lrx | exact h_ltx | exact h_mgt | exact h_pwr | exact h_pwrLn | exact h_timLn

theorem State.standbyRequest_onlyIn {l : List Block} {r : State} {s : State} (hk : OnlyIn l r s) (h_pwr : Block.pwr ∈ l) (h_pwrLn : Block.pwrLn ∈ l) :
    OnlyIn l r (State.standbyRequest s) := by
  unfold State.standbyRequest
  repeat' first
    | intro _
    | (with_reducible first | assumption | exact OnlyIn.refl _ _ | apply State.wr_onlyIn | apply State.deviceRequest_onlyIn | apply OnlyIn.cond)
    | extract_lets | split | exact h_pwr | exact h_pwrLn

theorem execLpmodeAssert_onlyIn {l : List Block} {r : State} {s : State} (hk : OnlyIn l r s) (h_pwr : Block.pwr ∈ l) (h_pwrLn : Block.pwrLn ∈ l) :
    OutOnlyIn l r (execLpmodeAssert s) := by
  unfold execLpmodeAssert
  repeat' first
    | intro _
    | (with_reducible first | assumption | exact OnlyIn.refl _ _ | apply OutOnlyIn.next | apply State.wr_onlyIn | apply State.standbyRequest_onlyIn | apply OutOnlyIn.cond | apply OnlyIn.cond)
    | extract_lets | split | exact h_pwr | exact h_pwrLn

theorem execLpmodeDeassert_onlyIn {l : List Block} {r : State} {s : State} (hk : OnlyIn l r s) (h_evf : Block.evf ∈ l) (h_hif : Block.hif ∈ l) (h_hifGlb : Block.hifGlb ∈ l) (h_hlt : Block.hlt ∈ l) (h_hltLn : Block.hltLn ∈ l) (h_leq : Block.leq ∈ l) (h_lfr : Block.lfr ∈ l) (h_lrx : Block.lrx ∈ l) (h_ltx : Block.ltx ∈ l) (h_mgt : Block.mgt ∈ l) (h_pwr : Block.pwr ∈ l) (h_pwrLn : Block.pwrLn ∈ l) (h_timLn : Block.timLn ∈ l) :
    OutOnlyIn l r (execLpmodeDeassert s) := by
  unfold execLpmodeDeassert
  repeat' first
    | intro _
    | (with_reducible first | assumption | exact OnlyIn.refl _ _ | apply OutOnlyIn.next | apply State.wr_onlyIn | apply State.wakeHeld_onlyIn | apply State.standbyRelease_onlyIn | apply State.deviceAbandon_onlyIn | apply OutOnlyIn.cond | apply OnlyIn.cond)
    | extract_lets | split | exact h_evf | exact h_hif | exact h_hifGlb | exact h_hlt | exact h_hltLn | exact h_leq | exact h_lfr | exact h_lrx | exact h_ltx | exact h_mgt | exact h_pwr | exact h_pwrLn | exact h_timLn

theorem execStandbySwWrite_onlyIn {l : List Block} {r : State} {s : State} (hk : OnlyIn l r s) (h_clk : Block.clk ∈ l) (h_glb : Block.glb ∈ l) (h_pwr : Block.pwr ∈ l) (h_pwrLn : Block.pwrLn ∈ l) :
    OutOnlyIn l r (execStandbySwWrite s) := by
  unfold execStandbySwWrite
  repeat' first
    | intro _
    | (with_reducible first | assumption | exact OnlyIn.refl _ _ | apply OutOnlyIn.next | apply State.access_onlyIn | apply State.wr_onlyIn | apply State.standbyRequest_onlyIn)
    | extract_lets | dsimp only | exact h_clk | exact h_glb | exact h_pwr | exact h_pwrLn

theorem execDeep_onlyIn {l : List Block} {r : State} {s : State} (hk : OnlyIn l r s) (h_clk : Block.clk ∈ l) (h_glb : Block.glb ∈ l) (h_pwr : Block.pwr ∈ l) (h_pwrLn : Block.pwrLn ∈ l) :
    OutOnlyIn l r (execDeep s) := by
  unfold execDeep
  repeat' first
    | intro _
    | (with_reducible first | assumption | exact OnlyIn.refl _ _ | apply OutOnlyIn.next | apply State.access_onlyIn | apply State.raise_onlyIn | apply State.wr_onlyIn | apply State.deviceRequest_onlyIn | apply OutOnlyIn.cond | apply OnlyIn.cond)
    | extract_lets | dsimp only | split
    | (with_reducible first | apply OnlyIn.other)
    | exact h_clk | exact h_glb | exact h_pwr | exact h_pwrLn

theorem execDeepWakeEvent_onlyIn {l : List Block} {r : State} {src : Fin 8} {s : State} (hk : OnlyIn l r s) (h_evf : Block.evf ∈ l) (h_hif : Block.hif ∈ l) (h_hifGlb : Block.hifGlb ∈ l) (h_hlt : Block.hlt ∈ l) (h_hltLn : Block.hltLn ∈ l) (h_leq : Block.leq ∈ l) (h_lfr : Block.lfr ∈ l) (h_lrx : Block.lrx ∈ l) (h_ltx : Block.ltx ∈ l) (h_mgt : Block.mgt ∈ l) (h_pwr : Block.pwr ∈ l) (h_pwrLn : Block.pwrLn ∈ l) (h_timLn : Block.timLn ∈ l) :
    OutOnlyIn l r (execDeepWakeEvent src s) := by
  unfold execDeepWakeEvent
  repeat' first
    | intro _
    | (with_reducible first | assumption | exact OnlyIn.refl _ _ | apply OutOnlyIn.next | apply State.wakeDevice_onlyIn | apply OutOnlyIn.cond | apply OnlyIn.cond)
    | extract_lets | split | exact h_evf | exact h_hif | exact h_hifGlb | exact h_hlt | exact h_hltLn | exact h_leq | exact h_lfr | exact h_lrx | exact h_ltx | exact h_mgt | exact h_pwr | exact h_pwrLn | exact h_timLn

theorem State.writePoints_onlyIn {l : List Block} {r : State} {s : State} {req : Nat} (hk : OnlyIn l r s) (h_pwr : Block.pwr ∈ l) :
    OnlyIn l r (State.writePoints s req) := by
  unfold State.writePoints
  repeat' first
    | intro _
    | (with_reducible first | assumption | exact OnlyIn.refl _ _ | apply State.wr_onlyIn | apply State.dvfsKick_onlyIn | apply State.raise_onlyIn | apply OnlyIn.puts_cons | apply OnlyIn.puts_nil | apply OnlyIn.cond)
    | extract_lets | dsimp only | split | exact h_pwr

theorem State.writeVout_onlyIn {l : List Block} {r : State} {s : State} {mv : Nat} (hk : OnlyIn l r s) (h_pwr : Block.pwr ∈ l) :
    OnlyIn l r (State.writeVout s mv) := by
  unfold State.writeVout
  repeat' first
    | intro _
    | (with_reducible first | assumption | exact OnlyIn.refl _ _ | apply State.wr_onlyIn | apply State.raise_onlyIn | apply OnlyIn.puts_cons | apply OnlyIn.puts_nil | apply OnlyIn.cond)
    | extract_lets | dsimp only | split | exact h_pwr

theorem execDvfsRequest_onlyIn {l : List Block} {r : State} {req : BitVec 16} {s : State} (hk : OnlyIn l r s) (h_clk : Block.clk ∈ l) (h_glb : Block.glb ∈ l) (h_pwr : Block.pwr ∈ l) :
    OutOnlyIn l r (execDvfsRequest req s) := by
  unfold execDvfsRequest
  repeat' first
    | intro _
    | (with_reducible first | assumption | exact OnlyIn.refl _ _ | apply OutOnlyIn.next | apply State.access_onlyIn | apply State.writePoints_onlyIn)
    | extract_lets | dsimp only | exact h_clk | exact h_glb | exact h_pwr

theorem execDvfsExpertWrite_onlyIn {l : List Block} {r : State} {w : DvfsWrite} {s : State} (hk : OnlyIn l r s) (h_clk : Block.clk ∈ l) (h_glb : Block.glb ∈ l) (h_pwr : Block.pwr ∈ l) :
    OutOnlyIn l r (execDvfsExpertWrite w s) := by
  unfold execDvfsExpertWrite
  repeat' first
    | intro _
    | (with_reducible first | assumption | exact OnlyIn.refl _ _ | apply OutOnlyIn.next | apply State.access_onlyIn | apply State.writePoints_onlyIn | apply State.writeVout_onlyIn)
    | extract_lets | dsimp only | split | exact h_clk | exact h_glb | exact h_pwr

theorem State.dvfsSettle_onlyIn {l : List Block} {r : State} {s : State} (hk : OnlyIn l r s) (h_pwr : Block.pwr ∈ l) :
    OnlyIn l r (State.dvfsSettle s) := by
  unfold State.dvfsSettle
  repeat' first
    | intro _
    | (with_reducible first | assumption | exact OnlyIn.refl _ _ | apply State.wr_onlyIn | apply OnlyIn.puts_cons | apply OnlyIn.puts_nil | apply OnlyIn.cond)
    | extract_lets | split | exact h_pwr

theorem execDvfsVoutConfirmed_onlyIn {l : List Block} {r : State} {s : State} (hk : OnlyIn l r s) (h_pwr : Block.pwr ∈ l) :
    OutOnlyIn l r (execDvfsVoutConfirmed s) := by
  unfold execDvfsVoutConfirmed
  repeat' first
    | intro _
    | (with_reducible first | assumption | exact OnlyIn.refl _ _ | apply OutOnlyIn.next | apply State.wr_onlyIn | apply State.dvfsSettle_onlyIn | apply OnlyIn.puts_cons | apply OnlyIn.puts_nil | apply OutOnlyIn.cond | apply OnlyIn.cond)
    | extract_lets | split | exact h_pwr

theorem execDvfsStepDwell_onlyIn {l : List Block} {r : State} {s : State} (hk : OnlyIn l r s) (h_pwr : Block.pwr ∈ l) :
    OutOnlyIn l r (execDvfsStepDwell s) := by
  unfold execDvfsStepDwell
  repeat' first
    | intro _
    | (with_reducible first | assumption | exact OnlyIn.refl _ _ | apply OutOnlyIn.next | apply State.dvfsStep_onlyIn | apply State.dvfsSettle_onlyIn | apply OutOnlyIn.cond | apply OnlyIn.cond)
    | extract_lets | split | exact h_pwr

theorem execDvfsTimeout_onlyIn {l : List Block} {r : State} {s : State} (hk : OnlyIn l r s) (h_pwr : Block.pwr ∈ l) :
    OutOnlyIn l r (execDvfsTimeout s) := by
  unfold execDvfsTimeout
  repeat' first
    | intro _
    | (with_reducible first | assumption | exact OnlyIn.refl _ _ | apply OutOnlyIn.next | apply State.raise_onlyIn | apply State.wr_onlyIn | apply OnlyIn.puts_cons | apply OnlyIn.puts_nil | apply OutOnlyIn.cond | apply OnlyIn.cond)
    | extract_lets | split | exact h_pwr

theorem execPmAlert_onlyIn {l : List Block} {r : State} {s : State} (hk : OnlyIn l r s) (h_arc : Block.arc ∈ l) (h_clk : Block.clk ∈ l) (h_evf : Block.evf ∈ l) (h_glb : Block.glb ∈ l) (h_hif : Block.hif ∈ l) (h_hifGlb : Block.hifGlb ∈ l) (h_hlt : Block.hlt ∈ l) (h_hltLn : Block.hltLn ∈ l) (h_leq : Block.leq ∈ l) (h_lfr : Block.lfr ∈ l) (h_lrx : Block.lrx ∈ l) (h_ltx : Block.ltx ∈ l) (h_mgt : Block.mgt ∈ l) (h_optLn : Block.optLn ∈ l) (h_pll : Block.pll ∈ l) (h_pwr : Block.pwr ∈ l) (h_pwrLn : Block.pwrLn ∈ l) (h_tim : Block.tim ∈ l) (h_timLn : Block.timLn ∈ l) :
    OutOnlyIn l r (execPmAlert s) := by
  unfold execPmAlert
  repeat' first
    | intro _
    | (with_reducible first | assumption | exact OnlyIn.refl _ _ | apply OutOnlyIn.next | apply State.raise_onlyIn | apply State.faultEvent_onlyIn)
    | extract_lets | exact h_arc | exact h_clk | exact h_evf | exact h_glb | exact h_hif | exact h_hifGlb | exact h_hlt | exact h_hltLn | exact h_leq | exact h_lfr | exact h_lrx | exact h_ltx | exact h_mgt | exact h_optLn | exact h_pll | exact h_pwr | exact h_pwrLn | exact h_tim | exact h_timLn

theorem execResetNRelease_onlyIn {l : List Block} {r : State} {s : State} (hk : OnlyIn l r s) (h_glb : Block.glb ∈ l) :
    OutOnlyIn l r (execResetNRelease s) := by
  unfold execResetNRelease
  repeat' first
    | intro _
    | (with_reducible first | assumption | exact OnlyIn.refl _ _ | apply OutOnlyIn.next | apply State.wr_onlyIn | apply OnlyIn.puts_cons | apply OnlyIn.puts_nil | apply OutOnlyIn.cond | apply OnlyIn.cond)
    | extract_lets | split | exact h_glb

theorem State.pllsOff_onlyIn {l : List Block} {r : State} {s : State} (hk : OnlyIn l r s) (h_clk : Block.clk ∈ l) (h_glb : Block.glb ∈ l) (h_pll : Block.pll ∈ l) (h_tim : Block.tim ∈ l) :
    OnlyIn l r (State.pllsOff s) := by
  unfold State.pllsOff
  repeat' first
    | intro _
    | (with_reducible first | assumption | exact OnlyIn.refl _ _ | apply State.setMask_onlyIn | apply State.capStop_onlyIn | apply State.wr_onlyIn | apply State.refreshRun_onlyIn | apply OnlyIn.puts_cons | apply OnlyIn.puts_nil | apply OnlyIn.each)
    | extract_lets | dsimp only | exact h_clk | exact h_glb | exact h_pll | exact h_tim

theorem State.shutdownDomain_onlyIn {l : List Block} {r : State} {s : State} (hk : OnlyIn l r s) (h_arc : Block.arc ∈ l) (h_arcCl : Block.arcCl ∈ l) (h_glb : Block.glb ∈ l) (h_hif : Block.hif ∈ l) (h_hifGlb : Block.hifGlb ∈ l) (h_leq : Block.leq ∈ l) (h_lfr : Block.lfr ∈ l) (h_lrx : Block.lrx ∈ l) (h_ltx : Block.ltx ∈ l) (h_pwr : Block.pwr ∈ l) :
    OnlyIn l r (State.shutdownDomain s) := by
  unfold State.shutdownDomain
  repeat' first
    | intro _
    | (with_reducible first | assumption | exact OnlyIn.refl _ _ | apply State.setDomain_onlyIn | apply OptOnlyIn.getD)
    | extract_lets | dsimp only | split | exact h_arc | exact h_arcCl | exact h_glb | exact h_hif | exact h_hifGlb | exact h_leq | exact h_lfr | exact h_lrx | exact h_ltx | exact h_pwr

theorem execPwrCntClr_onlyIn {l : List Block} {r : State} {s : State} (hk : OnlyIn l r s) (h_clk : Block.clk ∈ l) (h_glb : Block.glb ∈ l) (h_pwr : Block.pwr ∈ l) :
    OutOnlyIn l r (execPwrCntClr s) := by
  unfold execPwrCntClr
  repeat' first
    | intro _
    | (with_reducible first | assumption | exact OnlyIn.refl _ _ | apply OutOnlyIn.next | apply State.access_onlyIn | apply State.wr_onlyIn | apply OnlyIn.clear_cons | apply OnlyIn.clear_nil)
    | extract_lets | dsimp only | exact h_clk | exact h_glb | exact h_pwr

end Sys2Proof.Machine
end

