-- ==== Sys2Proof/Laws/OnlyHealth.lean ====
section
/-!
SUPPORT. Which blocks the operations of Health change.
-/
set_option Elab.async false
set_option linter.all false
namespace Sys2Proof.Machine

theorem execFaultSourceEvent_onlyIn {l : List Block} {r : State} {src inst : Fin 16} {k : BitVec 10} {s : State} (hk : OnlyIn l r s) (h_arc : Block.arc ∈ l) (h_clk : Block.clk ∈ l) (h_evf : Block.evf ∈ l) (h_glb : Block.glb ∈ l) (h_hif : Block.hif ∈ l) (h_hifGlb : Block.hifGlb ∈ l) (h_hlt : Block.hlt ∈ l) (h_hltLn : Block.hltLn ∈ l) (h_leq : Block.leq ∈ l) (h_lfr : Block.lfr ∈ l) (h_lrx : Block.lrx ∈ l) (h_ltx : Block.ltx ∈ l) (h_mgt : Block.mgt ∈ l) (h_optLn : Block.optLn ∈ l) (h_pll : Block.pll ∈ l) (h_pwrLn : Block.pwrLn ∈ l) (h_tim : Block.tim ∈ l) (h_timLn : Block.timLn ∈ l) :
    OutOnlyIn l r (execFaultSourceEvent src inst k s) := by
  unfold execFaultSourceEvent
  repeat' first
    | intro _
    | (with_reducible first | assumption | exact OnlyIn.refl _ _ | apply OutOnlyIn.next | apply State.countEvent_onlyIn | apply State.lrxFault_onlyIn | apply State.ltxFaultWindow_onlyIn | apply State.hifFault_onlyIn | apply State.objectAction_onlyIn | apply OnlyIn.when | apply OutOnlyIn.cond | apply OnlyIn.cond | apply OnlyIn.cond_snd)
    | extract_lets | dsimp only | split | exact h_arc | exact h_clk | exact h_evf | exact h_glb | exact h_hif | exact h_hifGlb | exact h_hlt | exact h_hltLn | exact h_leq | exact h_lfr | exact h_lrx | exact h_ltx | exact h_mgt | exact h_optLn | exact h_pll | exact h_pwrLn | exact h_tim | exact h_timLn

theorem execFaultWindowClose_onlyIn {l : List Block} {r : State} {src inst : Fin 16} {s : State} (hk : OnlyIn l r s) (h_hlt : Block.hlt ∈ l) :
    OutOnlyIn l r (execFaultWindowClose src inst s) := by
  unfold execFaultWindowClose
  repeat' first
    | intro _
    | (with_reducible first | assumption | exact OnlyIn.refl _ _ | apply OutOnlyIn.next | apply State.wr_onlyIn)
    | extract_lets | exact h_hlt

theorem execLastingClear_onlyIn {l : List Block} {r : State} {src : Fin 16} {mask : BitVec 16} {s : State} (hk : OnlyIn l r s) (h_clk : Block.clk ∈ l) (h_glb : Block.glb ∈ l) (h_hlt : Block.hlt ∈ l) :
    OutOnlyIn l r (execLastingClear src mask s) := by
  unfold execLastingClear
  repeat' first
    | intro _
    | (with_reducible first | assumption | exact OnlyIn.refl _ _ | apply OutOnlyIn.next | apply State.access_onlyIn | apply State.clearLasting_onlyIn | apply OnlyIn.each)
    | extract_lets | dsimp only | exact h_clk | exact h_glb | exact h_hlt

theorem State.bistGo_onlyIn {l : List Block} {r : State} {s : State} {kind unit : Nat} {preempt : Bool} (hk : OnlyIn l r s) (h_evf : Block.evf ∈ l) (h_hlt : Block.hlt ∈ l) :
    OnlyIn l r (State.bistGo s kind unit preempt) := by
  unfold State.bistGo
  repeat' first
    | intro _
    | (with_reducible first | assumption | exact OnlyIn.refl _ _ | apply State.wr_onlyIn | apply State.testResult_onlyIn | apply OnlyIn.puts_cons | apply OnlyIn.puts_nil | apply OnlyIn.cond)
    | extract_lets | split
    | (with_reducible first | apply OnlyIn.other)
    | exact h_evf | exact h_hlt

theorem execBistEngine_onlyIn {l : List Block} {r : State} {unit : BitVec 7} {preempt : Bool} {s : State} (hk : OnlyIn l r s) (h_clk : Block.clk ∈ l) (h_evf : Block.evf ∈ l) (h_glb : Block.glb ∈ l) (h_hlt : Block.hlt ∈ l) :
    OutOnlyIn l r (execBistEngine unit preempt s) := by
  unfold execBistEngine
  repeat' first
    | intro _
    | (with_reducible first | assumption | exact OnlyIn.refl _ _ | apply OutOnlyIn.next | apply State.access_onlyIn | apply State.bistGo_onlyIn)
    | extract_lets | dsimp only | exact h_clk | exact h_evf | exact h_glb | exact h_hlt

theorem execBistLane_onlyIn {l : List Block} {r : State} {unit : BitVec 7} {preempt : Bool} {s : State} (hk : OnlyIn l r s) (h_clk : Block.clk ∈ l) (h_evf : Block.evf ∈ l) (h_glb : Block.glb ∈ l) (h_hlt : Block.hlt ∈ l) :
    OutOnlyIn l r (execBistLane unit preempt s) := by
  unfold execBistLane
  repeat' first
    | intro _
    | (with_reducible first | assumption | exact OnlyIn.refl _ _ | apply OutOnlyIn.next | apply State.access_onlyIn | apply State.bistGo_onlyIn)
    | extract_lets | dsimp only | exact h_clk | exact h_evf | exact h_glb | exact h_hlt

theorem execBistHost_onlyIn {l : List Block} {r : State} {unit : BitVec 7} {preempt : Bool} {s : State} (hk : OnlyIn l r s) (h_clk : Block.clk ∈ l) (h_evf : Block.evf ∈ l) (h_glb : Block.glb ∈ l) (h_hlt : Block.hlt ∈ l) :
    OutOnlyIn l r (execBistHost unit preempt s) := by
  unfold execBistHost
  repeat' first
    | intro _
    | (with_reducible first | assumption | exact OnlyIn.refl _ _ | apply OutOnlyIn.next | apply State.access_onlyIn | apply State.bistGo_onlyIn)
    | extract_lets | dsimp only | exact h_clk | exact h_evf | exact h_glb | exact h_hlt

theorem execBistXbar_onlyIn {l : List Block} {r : State} {unit : BitVec 7} {preempt : Bool} {s : State} (hk : OnlyIn l r s) (h_clk : Block.clk ∈ l) (h_evf : Block.evf ∈ l) (h_glb : Block.glb ∈ l) (h_hlt : Block.hlt ∈ l) :
    OutOnlyIn l r (execBistXbar unit preempt s) := by
  unfold execBistXbar
  repeat' first
    | intro _
    | (with_reducible first | assumption | exact OnlyIn.refl _ _ | apply OutOnlyIn.next | apply State.access_onlyIn | apply State.bistGo_onlyIn)
    | extract_lets | dsimp only | exact h_clk | exact h_evf | exact h_glb | exact h_hlt

theorem execBistCtrlDac_onlyIn {l : List Block} {r : State} {unit : BitVec 7} {preempt : Bool} {s : State} (hk : OnlyIn l r s) (h_clk : Block.clk ∈ l) (h_evf : Block.evf ∈ l) (h_glb : Block.glb ∈ l) (h_hlt : Block.hlt ∈ l) :
    OutOnlyIn l r (execBistCtrlDac unit preempt s) := by
  unfold execBistCtrlDac
  repeat' first
    | intro _
    | (with_reducible first | assumption | exact OnlyIn.refl _ _ | apply OutOnlyIn.next | apply State.access_onlyIn | apply State.bistGo_onlyIn)
    | extract_lets | dsimp only | exact h_clk | exact h_evf | exact h_glb | exact h_hlt

theorem execBistMonAdc_onlyIn {l : List Block} {r : State} {unit : BitVec 7} {preempt : Bool} {s : State} (hk : OnlyIn l r s) (h_clk : Block.clk ∈ l) (h_evf : Block.evf ∈ l) (h_glb : Block.glb ∈ l) (h_hlt : Block.hlt ∈ l) :
    OutOnlyIn l r (execBistMonAdc unit preempt s) := by
  unfold execBistMonAdc
  repeat' first
    | intro _
    | (with_reducible first | assumption | exact OnlyIn.refl _ _ | apply OutOnlyIn.next | apply State.access_onlyIn | apply State.bistGo_onlyIn)
    | extract_lets | dsimp only | exact h_clk | exact h_evf | exact h_glb | exact h_hlt

theorem execBistKeystore_onlyIn {l : List Block} {r : State} {unit : BitVec 7} {preempt : Bool} {s : State} (hk : OnlyIn l r s) (h_clk : Block.clk ∈ l) (h_evf : Block.evf ∈ l) (h_glb : Block.glb ∈ l) (h_hlt : Block.hlt ∈ l) :
    OutOnlyIn l r (execBistKeystore unit preempt s) := by
  unfold execBistKeystore
  repeat' first
    | intro _
    | (with_reducible first | assumption | exact OnlyIn.refl _ _ | apply OutOnlyIn.next | apply State.access_onlyIn | apply State.bistGo_onlyIn)
    | extract_lets | dsimp only | exact h_clk | exact h_evf | exact h_glb | exact h_hlt

theorem execBistEnvelope_onlyIn {l : List Block} {r : State} {unit : BitVec 7} {preempt : Bool} {s : State} (hk : OnlyIn l r s) (h_clk : Block.clk ∈ l) (h_evf : Block.evf ∈ l) (h_glb : Block.glb ∈ l) (h_hlt : Block.hlt ∈ l) :
    OutOnlyIn l r (execBistEnvelope unit preempt s) := by
  unfold execBistEnvelope
  repeat' first
    | intro _
    | (with_reducible first | assumption | exact OnlyIn.refl _ _ | apply OutOnlyIn.next | apply State.access_onlyIn | apply State.bistGo_onlyIn)
    | extract_lets | dsimp only | exact h_clk | exact h_evf | exact h_glb | exact h_hlt

theorem State.bootTests_onlyIn {l : List Block} {r : State} {s : State} (hk : OnlyIn l r s) :
    OnlyIn l r (State.bootTests s) := by
  unfold State.bootTests
  repeat' first
    | intro _
    | (with_reducible first | assumption | exact OnlyIn.refl _ _)
    | extract_lets | dsimp only
    | (with_reducible first | apply OnlyIn.other)

theorem State.clearSecrets_onlyIn {l : List Block} {r : State} {s : State} (hk : OnlyIn l r s) (h_sec : Block.sec ∈ l) :
    OnlyIn l r (State.clearSecrets s) := by
  unfold State.clearSecrets
  repeat' first
    | intro _
    | (with_reducible first | assumption | exact OnlyIn.refl _ _ | apply State.wr_onlyIn | apply OnlyIn.puts_cons | apply OnlyIn.puts_nil | apply OnlyIn.each)
    | extract_lets | dsimp only | exact h_sec

theorem State.loadSecrets_onlyIn {l : List Block} {r : State} {s : State} (hk : OnlyIn l r s) (h_sec : Block.sec ∈ l) :
    OnlyIn l r (State.loadSecrets s) := by
  unfold State.loadSecrets
  repeat' first
    | intro _
    | (with_reducible first | assumption | exact OnlyIn.refl _ _ | apply State.wr_onlyIn | apply OnlyIn.each)
    | extract_lets | dsimp only | exact h_sec

theorem State.reloadSecrets_onlyIn {l : List Block} {r : State} {s : State} (hk : OnlyIn l r s) (h_sec : Block.sec ∈ l) :
    OnlyIn l r (State.reloadSecrets s) := by
  unfold State.reloadSecrets
  repeat' first
    | intro _
    | (with_reducible first | assumption | exact OnlyIn.refl _ _ | apply State.loadSecrets_onlyIn | apply State.wrb_onlyIn | apply OnlyIn.when)
    | extract_lets | exact h_sec

theorem State.testIsolate_onlyIn {l : List Block} {r : State} {s : State} {t : BistTest} (hk : OnlyIn l r s) (h_arc : Block.arc ∈ l) (h_arcCl : Block.arcCl ∈ l) (h_clk : Block.clk ∈ l) (h_evf : Block.evf ∈ l) (h_glb : Block.glb ∈ l) (h_hif : Block.hif ∈ l) (h_hifGlb : Block.hifGlb ∈ l) (h_hlt : Block.hlt ∈ l) (h_hltLn : Block.hltLn ∈ l) (h_leq : Block.leq ∈ l) (h_lfr : Block.lfr ∈ l) (h_lrx : Block.lrx ∈ l) (h_ltx : Block.ltx ∈ l) (h_mgt : Block.mgt ∈ l) (h_optLn : Block.optLn ∈ l) (h_pll : Block.pll ∈ l) (h_pwr : Block.pwr ∈ l) (h_pwrLn : Block.pwrLn ∈ l) (h_sec : Block.sec ∈ l) (h_tim : Block.tim ∈ l) (h_timLn : Block.timLn ∈ l) :
    OnlyIn l r (State.testIsolate s t) := by
  unfold State.testIsolate
  repeat' first
    | intro _
    | (with_reducible first | assumption | exact OnlyIn.refl _ _ | apply State.engAbandon_onlyIn | apply State.setEng_onlyIn | apply State.wr_onlyIn | apply State.ltxOff_onlyIn | apply State.lrxOff_onlyIn | apply State.optClamp_onlyIn | apply State.setDomain_onlyIn | apply State.hifOff_onlyIn | apply State.clearSecrets_onlyIn | apply OnlyIn.each | apply OnlyIn.cond)
    | extract_lets | dsimp only | split
    | (with_reducible first | apply OnlyIn.other)
    | exact h_arc | exact h_arcCl | exact h_clk | exact h_evf | exact h_glb | exact h_hif | exact h_hifGlb | exact h_hlt | exact h_hltLn | exact h_leq | exact h_lfr | exact h_lrx | exact h_ltx | exact h_mgt | exact h_optLn | exact h_pll | exact h_pwr | exact h_pwrLn | exact h_sec | exact h_tim | exact h_timLn

theorem execBistStart_onlyIn {l : List Block} {r : State} {slot : TestSlot} {clockOk : Bool} {mv : BitVec 10} {s : State} (hk : OnlyIn l r s) (h_arc : Block.arc ∈ l) (h_arcCl : Block.arcCl ∈ l) (h_clk : Block.clk ∈ l) (h_evf : Block.evf ∈ l) (h_glb : Block.glb ∈ l) (h_hif : Block.hif ∈ l) (h_hifGlb : Block.hifGlb ∈ l) (h_hlt : Block.hlt ∈ l) (h_hltLn : Block.hltLn ∈ l) (h_leq : Block.leq ∈ l) (h_lfr : Block.lfr ∈ l) (h_lrx : Block.lrx ∈ l) (h_ltx : Block.ltx ∈ l) (h_mgt : Block.mgt ∈ l) (h_optLn : Block.optLn ∈ l) (h_pll : Block.pll ∈ l) (h_pwr : Block.pwr ∈ l) (h_pwrLn : Block.pwrLn ∈ l) (h_sec : Block.sec ∈ l) (h_tim : Block.tim ∈ l) (h_timLn : Block.timLn ∈ l) :
    OutOnlyIn l r (execBistStart slot clockOk mv s) := by
  unfold execBistStart
  repeat' first
    | intro _
    | (with_reducible first | assumption | exact OnlyIn.refl _ _ | apply OutOnlyIn.next | apply State.testIsolate_onlyIn | apply State.wr_onlyIn | apply OnlyIn.when | apply OnlyIn.foldl | apply OutOnlyIn.cond | apply OnlyIn.cond)
    | extract_lets | dsimp only | split
    | (with_reducible first | apply OnlyIn.other)
    | exact h_arc | exact h_arcCl | exact h_clk | exact h_evf | exact h_glb | exact h_hif | exact h_hifGlb | exact h_hlt | exact h_hltLn | exact h_leq | exact h_lfr | exact h_lrx | exact h_ltx | exact h_mgt | exact h_optLn | exact h_pll | exact h_pwr | exact h_pwrLn | exact h_sec | exact h_tim | exact h_timLn

theorem execBistWaitTimeout_onlyIn {l : List Block} {r : State} {s : State} (hk : OnlyIn l r s) (h_evf : Block.evf ∈ l) (h_hlt : Block.hlt ∈ l) :
    OutOnlyIn l r (execBistWaitTimeout s) := by
  unfold execBistWaitTimeout
  repeat' first
    | intro _
    | (with_reducible first | assumption | exact OnlyIn.refl _ _ | apply OutOnlyIn.next | apply State.wr_onlyIn | apply State.bump_onlyIn | apply State.testResult_onlyIn)
    | extract_lets | dsimp only | split
    | (with_reducible first | apply OnlyIn.other)
    | exact h_evf | exact h_hlt

theorem execBistConditionLost_onlyIn {l : List Block} {r : State} {kind : Fin 8} {unit : BitVec 7} {s : State} (hk : OnlyIn l r s) (h_evf : Block.evf ∈ l) (h_hlt : Block.hlt ∈ l) :
    OutOnlyIn l r (execBistConditionLost kind unit s) := by
  unfold execBistConditionLost
  repeat' first
    | intro _
    | (with_reducible first | assumption | exact OnlyIn.refl _ _ | apply OutOnlyIn.next | apply State.endTest_onlyIn)
    | extract_lets | exact h_evf | exact h_hlt

theorem State.laneHold_onlyIn {l : List Block} {r : State} {s : State} {n : Nat} (hk : OnlyIn l r s) (h_evf : Block.evf ∈ l) (h_hif : Block.hif ∈ l) (h_hifGlb : Block.hifGlb ∈ l) (h_hlt : Block.hlt ∈ l) (h_hltLn : Block.hltLn ∈ l) (h_leq : Block.leq ∈ l) (h_lfr : Block.lfr ∈ l) (h_lrx : Block.lrx ∈ l) (h_ltx : Block.ltx ∈ l) (h_mgt : Block.mgt ∈ l) (h_optLn : Block.optLn ∈ l) (h_pwrLn : Block.pwrLn ∈ l) (h_timLn : Block.timLn ∈ l) :
    OnlyIn l r (State.laneHold s n) := by
  unfold State.laneHold
  repeat' first
    | intro _
    | (with_reducible first | assumption | exact OnlyIn.refl _ _ | apply State.lrxOff_onlyIn | apply State.ltxRecheck_onlyIn | apply State.setMask_onlyIn | apply State.wr_onlyIn | apply OnlyIn.puts_cons | apply OnlyIn.puts_nil)
    | extract_lets | exact h_evf | exact h_hif | exact h_hifGlb | exact h_hlt | exact h_hltLn | exact h_leq | exact h_lfr | exact h_lrx | exact h_ltx | exact h_mgt | exact h_optLn | exact h_pwrLn | exact h_timLn

theorem State.testFailed_onlyIn {l : List Block} {r0 : State} {s : State} {kind unit : Nat} {r : BistReport} (hk : OnlyIn l r0 s) (h_arc : Block.arc ∈ l) (h_arcCl : Block.arcCl ∈ l) (h_evf : Block.evf ∈ l) (h_hif : Block.hif ∈ l) (h_hifGlb : Block.hifGlb ∈ l) (h_hlt : Block.hlt ∈ l) (h_hltLn : Block.hltLn ∈ l) (h_leq : Block.leq ∈ l) (h_lfr : Block.lfr ∈ l) (h_lrx : Block.lrx ∈ l) (h_ltx : Block.ltx ∈ l) (h_mgt : Block.mgt ∈ l) (h_optLn : Block.optLn ∈ l) (h_pwrLn : Block.pwrLn ∈ l) (h_sec : Block.sec ∈ l) (h_timLn : Block.timLn ∈ l) :
    OnlyIn l r0 (State.testFailed s kind unit r) := by
  unfold State.testFailed
  repeat' first
    | intro _
    | (with_reducible first | assumption | exact OnlyIn.refl _ _ | apply State.engFail_onlyIn | apply State.sliceFail_onlyIn | apply State.cellFail_onlyIn | apply State.laneHold_onlyIn | apply State.wr_onlyIn | apply State.setMask_onlyIn | apply OnlyIn.puts_cons | apply OnlyIn.puts_nil | apply OnlyIn.each | apply OnlyIn.when)
    | extract_lets | dsimp only | split | exact h_arc | exact h_arcCl | exact h_evf | exact h_hif | exact h_hifGlb | exact h_hlt | exact h_hltLn | exact h_leq | exact h_lfr | exact h_lrx | exact h_ltx | exact h_mgt | exact h_optLn | exact h_pwrLn | exact h_sec | exact h_timLn

theorem execBistDone_onlyIn {l : List Block} {r0 : State} {kind : Fin 8} {unit : BitVec 7} {r : BistReport} {s : State} (hk : OnlyIn l r0 s) (h_arc : Block.arc ∈ l) (h_arcCl : Block.arcCl ∈ l) (h_evf : Block.evf ∈ l) (h_glb : Block.glb ∈ l) (h_hif : Block.hif ∈ l) (h_hifGlb : Block.hifGlb ∈ l) (h_hlt : Block.hlt ∈ l) (h_hltLn : Block.hltLn ∈ l) (h_leq : Block.leq ∈ l) (h_lfr : Block.lfr ∈ l) (h_lrx : Block.lrx ∈ l) (h_ltx : Block.ltx ∈ l) (h_mgt : Block.mgt ∈ l) (h_optLn : Block.optLn ∈ l) (h_pwrLn : Block.pwrLn ∈ l) (h_sec : Block.sec ∈ l) (h_timLn : Block.timLn ∈ l) :
    OutOnlyIn l r0 (execBistDone kind unit r s) := by
  unfold execBistDone
  repeat' first
    | intro _
    | (with_reducible first | assumption | exact OnlyIn.refl _ _ | apply OutOnlyIn.next | apply State.testReinit_onlyIn | apply State.bump_onlyIn | apply State.wr_onlyIn | apply State.raise_onlyIn | apply State.testFailed_onlyIn | apply State.testResult_onlyIn | apply OnlyIn.when | apply OutOnlyIn.cond | apply OnlyIn.cond)
    | extract_lets | dsimp only | split | exact h_arc | exact h_arcCl | exact h_evf | exact h_glb | exact h_hif | exact h_hifGlb | exact h_hlt | exact h_hltLn | exact h_leq | exact h_lfr | exact h_lrx | exact h_ltx | exact h_mgt | exact h_optLn | exact h_pwrLn | exact h_sec | exact h_timLn

theorem State.serve_onlyIn {l : List Block} {r0 : State} {s : State} {r : SvcReq} (hk : OnlyIn l r0 s) (h_evf : Block.evf ∈ l) (h_hif : Block.hif ∈ l) (h_hifGlb : Block.hifGlb ∈ l) (h_hlt : Block.hlt ∈ l) (h_hltLn : Block.hltLn ∈ l) (h_leq : Block.leq ∈ l) (h_lfr : Block.lfr ∈ l) (h_lrx : Block.lrx ∈ l) (h_ltx : Block.ltx ∈ l) (h_mgt : Block.mgt ∈ l) (h_pwr : Block.pwr ∈ l) (h_pwrLn : Block.pwrLn ∈ l) (h_timLn : Block.timLn ∈ l) :
    OnlyIn l r0 (State.serve s r) := by
  unfold State.serve
  repeat' first
    | intro _
    | (with_reducible first | assumption | exact OnlyIn.refl _ _ | apply State.lrxEnableOn_onlyIn | apply State.ltxEnableOn_onlyIn | apply State.lrxRestartNow_onlyIn | apply State.ltxRestartNow_onlyIn | apply State.renegNow_onlyIn | apply State.profChangeNow_onlyIn | apply State.lrxCommitNow_onlyIn | apply State.leqCommitNow_onlyIn | apply State.ltxCommitNow_onlyIn | apply State.hifEnableOn_onlyIn | apply State.hifRetrainNow_onlyIn | apply State.hifCommitNow_onlyIn | apply State.sleepRequest_onlyIn)
    | extract_lets | dsimp only | split | exact h_evf | exact h_hif | exact h_hifGlb | exact h_hlt | exact h_hltLn | exact h_leq | exact h_lfr | exact h_lrx | exact h_ltx | exact h_mgt | exact h_pwr | exact h_pwrLn | exact h_timLn

theorem State.testRestart_onlyIn {l : List Block} {r : State} {s : State} {kind unit : Nat} (hk : OnlyIn l r s) (h_arc : Block.arc ∈ l) (h_evf : Block.evf ∈ l) (h_hif : Block.hif ∈ l) (h_hifGlb : Block.hifGlb ∈ l) (h_hlt : Block.hlt ∈ l) (h_hltLn : Block.hltLn ∈ l) (h_leq : Block.leq ∈ l) (h_lfr : Block.lfr ∈ l) (h_lrx : Block.lrx ∈ l) (h_ltx : Block.ltx ∈ l) (h_mgt : Block.mgt ∈ l) (h_pwrLn : Block.pwrLn ∈ l) (h_sec : Block.sec ∈ l) (h_timLn : Block.timLn ∈ l) :
    OnlyIn l r (State.testRestart s kind unit) := by
  unfold State.testRestart
  repeat' first
    | intro _
    | (with_reducible first | assumption | exact OnlyIn.refl _ _ | apply State.loadStores_onlyIn | apply State.setEng_onlyIn | apply State.lrxToCal_onlyIn | apply State.ltxRecheck_onlyIn | apply State.hifStart_onlyIn | apply State.straitFlush_onlyIn | apply State.reloadSecrets_onlyIn | apply OnlyIn.each | apply OnlyIn.cond)
    | extract_lets | dsimp only | split
    | (with_reducible first | apply OnlyIn.other)
    | exact h_arc | exact h_evf | exact h_hif | exact h_hifGlb | exact h_hlt | exact h_hltLn | exact h_leq | exact h_lfr | exact h_lrx | exact h_ltx | exact h_mgt | exact h_pwrLn | exact h_sec | exact h_timLn

theorem execBistReinitDone_onlyIn {l : List Block} {r : State} {kind : Fin 8} {unit : BitVec 7} {s : State} (hk : OnlyIn l r s) (h_arc : Block.arc ∈ l) (h_evf : Block.evf ∈ l) (h_hif : Block.hif ∈ l) (h_hifGlb : Block.hifGlb ∈ l) (h_hlt : Block.hlt ∈ l) (h_hltLn : Block.hltLn ∈ l) (h_leq : Block.leq ∈ l) (h_lfr : Block.lfr ∈ l) (h_lrx : Block.lrx ∈ l) (h_ltx : Block.ltx ∈ l) (h_mgt : Block.mgt ∈ l) (h_pwr : Block.pwr ∈ l) (h_pwrLn : Block.pwrLn ∈ l) (h_sec : Block.sec ∈ l) (h_timLn : Block.timLn ∈ l) :
    OutOnlyIn l r (execBistReinitDone kind unit s) := by
  unfold execBistReinitDone
  repeat' first
    | intro _
    | (with_reducible first | assumption | exact OnlyIn.refl _ _ | apply OutOnlyIn.next | apply State.wr_onlyIn | apply State.testRestart_onlyIn | apply State.serve_onlyIn | apply OnlyIn.each | apply OnlyIn.when | apply OutOnlyIn.cond | apply OnlyIn.cond)
    | extract_lets | dsimp only | split
    | (with_reducible first | apply OnlyIn.other)
    | exact h_arc | exact h_evf | exact h_hif | exact h_hifGlb | exact h_hlt | exact h_hltLn | exact h_leq | exact h_lfr | exact h_lrx | exact h_ltx | exact h_mgt | exact h_pwr | exact h_pwrLn | exact h_sec | exact h_timLn

theorem execBgBistDue_onlyIn {l : List Block} {r : State} {e : Fin 128} {s : State} (hk : OnlyIn l r s) :
    OutOnlyIn l r (execBgBistDue e s) := by
  unfold execBgBistDue
  repeat' first
    | intro _
    | (with_reducible first | assumption | exact OnlyIn.refl _ _ | apply OutOnlyIn.next | apply OutOnlyIn.cond | apply OnlyIn.cond)
    | extract_lets | dsimp only | split
    | (with_reducible first | apply OnlyIn.other)

theorem execAdcStepDue_onlyIn {l : List Block} {r : State} {n : Lane} {s : State} (hk : OnlyIn l r s) (h_hlt : Block.hlt ∈ l) (h_hltLn : Block.hltLn ∈ l) (h_lrx : Block.lrx ∈ l) :
    OutOnlyIn l r (execAdcStepDue n s) := by
  unfold execAdcStepDue
  repeat' first
    | intro _
    | (with_reducible first | assumption | exact OnlyIn.refl _ _ | apply OutOnlyIn.next | apply State.wr_onlyIn | apply State.adcAdmit_onlyIn | apply OnlyIn.when)
    | extract_lets | dsimp only | exact h_hlt | exact h_hltLn | exact h_lrx

theorem State.dacAdmit_onlyIn {l : List Block} {r : State} {s : State} (hk : OnlyIn l r s) (h_hltLn : Block.hltLn ∈ l) (h_ltx : Block.ltx ∈ l) :
    OnlyIn l r (State.dacAdmit s) := by
  unfold State.dacAdmit
  repeat' first
    | intro _
    | (with_reducible first | assumption | exact OnlyIn.refl _ _ | apply State.wr_onlyIn | apply OnlyIn.puts_cons | apply OnlyIn.puts_nil | apply OnlyIn.each)
    | extract_lets | dsimp only | exact h_hltLn | exact h_ltx

theorem execDacStepDue_onlyIn {l : List Block} {r : State} {n : Lane} {s : State} (hk : OnlyIn l r s) (h_hltLn : Block.hltLn ∈ l) (h_ltx : Block.ltx ∈ l) :
    OutOnlyIn l r (execDacStepDue n s) := by
  unfold execDacStepDue
  repeat' first
    | intro _
    | (with_reducible first | assumption | exact OnlyIn.refl _ _ | apply OutOnlyIn.next | apply State.wr_onlyIn | apply State.dacAdmit_onlyIn | apply OnlyIn.when)
    | extract_lets | dsimp only | exact h_hltLn | exact h_ltx

theorem execHealthWindowTick_onlyIn {l : List Block} {r : State} {s : State} (hk : OnlyIn l r s) (h_arcCl : Block.arcCl ∈ l) (h_hlt : Block.hlt ∈ l) (h_hltLn : Block.hltLn ∈ l) (h_lrx : Block.lrx ∈ l) (h_ltx : Block.ltx ∈ l) :
    OutOnlyIn l r (execHealthWindowTick s) := by
  unfold execHealthWindowTick
  repeat' first
    | intro _
    | (with_reducible first | assumption | exact OnlyIn.refl _ _ | apply OutOnlyIn.next | apply State.bgAge_onlyIn | apply State.dacAdmit_onlyIn | apply State.adcAdmit_onlyIn | apply State.adcStart_onlyIn | apply State.wr_onlyIn | apply OnlyIn.each | apply OutOnlyIn.cond | apply OnlyIn.cond)
    | extract_lets | dsimp only | split | exact h_arcCl | exact h_hlt | exact h_hltLn | exact h_lrx | exact h_ltx

theorem execHltCntClr_onlyIn {l : List Block} {r s : State} (hk : OnlyIn l r s) (h_clk : Block.clk ∈ l) (h_glb : Block.glb ∈ l)
    (h_hlt : Block.hlt ∈ l) (h_hltLn : Block.hltLn ∈ l) : OutOnlyIn l r (execHltCntClr s) := by
  unfold execHltCntClr
  apply OutOnlyIn.next
  apply State.access_onlyIn hk h_clk h_glb
  intro u hu
  apply State.resetFields_onlyIn
  · repeat' first
      | intro _
      | (with_reducible first | assumption | apply OnlyIn.clear_cons | apply OnlyIn.clear_nil | apply OnlyIn.each)
      | exact h_hlt | exact h_hltLn
  · intro k hk
    rw [eq_of_beq hk]
    exact h_hlt

end Sys2Proof.Machine
end

