-- ==== Sys2Proof/Laws/OnlyFifo.lean ====
section
/-!
SUPPORT. Which blocks the operations of Fifo change.
-/
set_option Elab.async false
set_option linter.all false
namespace Sys2Proof.Machine

theorem State.answerWord_onlyIn {l : List Block} {r : State} {s : State} {w : Nat} (hk : OnlyIn l r s) (h_glb : Block.glb ∈ l) :
    OnlyIn l r (State.answerWord s w) := by
  unfold State.answerWord
  repeat' first
    | intro _
    | (with_reducible first | assumption | exact OnlyIn.refl _ _ | apply State.wr_onlyIn)
    | extract_lets
    | (with_reducible first | apply OnlyIn.other)
    | exact h_glb

theorem State.evfSettle_onlyIn {l : List Block} {r : State} {s : State} (hk : OnlyIn l r s) (h_evf : Block.evf ∈ l) :
    OnlyIn l r (State.evfSettle s) := by
  unfold State.evfSettle
  repeat' first
    | intro _
    | (with_reducible first | assumption | exact OnlyIn.refl _ _ | apply State.wr_onlyIn | apply OnlyIn.puts_cons | apply OnlyIn.puts_nil | apply OnlyIn.cond)
    | extract_lets | split | exact h_evf

theorem State.evfXoffFollow_onlyIn {l : List Block} {r : State} {s : State} (hk : OnlyIn l r s) (h_evf : Block.evf ∈ l) :
    OnlyIn l r (State.evfXoffFollow s) := by
  unfold State.evfXoffFollow
  repeat' first
    | intro _
    | (with_reducible first | assumption | exact OnlyIn.refl _ _ | apply State.wr_onlyIn | apply OnlyIn.when)
    | extract_lets | dsimp only | exact h_evf

theorem State.evfPop_onlyIn {l : List Block} {r : State} {s : State} (hk : OnlyIn l r s) (h_evf : Block.evf ∈ l) :
    OnlyIn l r (State.evfPop s).2 := by
  unfold State.evfPop
  repeat' first
    | intro _
    | (with_reducible first | assumption | exact OnlyIn.refl _ _ | apply State.wr_onlyIn | apply State.evfXoffFollow_onlyIn | apply State.evfSettle_onlyIn)
    | extract_lets | dsimp only | split
    | (with_reducible first | apply OnlyIn.other)
    | exact h_evf

theorem execEvfRead_onlyIn {l : List Block} {r : State} {s : State} (hk : OnlyIn l r s) (h_clk : Block.clk ∈ l) (h_evf : Block.evf ∈ l) (h_glb : Block.glb ∈ l) :
    OutOnlyIn l r (execEvfRead s) := by
  unfold execEvfRead
  repeat' first
    | intro _
    | (with_reducible first | assumption | exact OnlyIn.refl _ _ | apply OutOnlyIn.next | apply State.access_onlyIn | apply State.evfPop_onlyIn | apply State.answerWord_onlyIn)
    | extract_lets | dsimp only | exact h_clk | exact h_evf | exact h_glb

theorem State.evfFlushNow_onlyIn {l : List Block} {r : State} {s : State} (hk : OnlyIn l r s) (h_evf : Block.evf ∈ l) :
    OnlyIn l r (State.evfFlushNow s) := by
  unfold State.evfFlushNow
  repeat' first
    | intro _
    | (with_reducible first | assumption | exact OnlyIn.refl _ _ | apply State.wr_onlyIn | apply State.evfXoffFollow_onlyIn | apply State.evfSettle_onlyIn)
    | extract_lets
    | (with_reducible first | apply OnlyIn.other)
    | exact h_evf

theorem execEvfFlush_onlyIn {l : List Block} {r : State} {s : State} (hk : OnlyIn l r s) (h_clk : Block.clk ∈ l) (h_evf : Block.evf ∈ l) (h_glb : Block.glb ∈ l) :
    OutOnlyIn l r (execEvfFlush s) := by
  unfold execEvfFlush
  repeat' first
    | intro _
    | (with_reducible first | assumption | exact OnlyIn.refl _ _ | apply OutOnlyIn.next | apply State.access_onlyIn | apply State.evfFlushNow_onlyIn)
    | extract_lets | dsimp only | exact h_clk | exact h_evf | exact h_glb

theorem State.evfFormatSet_onlyIn {l : List Block} {r : State} {s : State} {v : Nat} (hk : OnlyIn l r s) (h_evf : Block.evf ∈ l) :
    OnlyIn l r (State.evfFormatSet s v) := by
  unfold State.evfFormatSet
  repeat' first
    | intro _
    | (with_reducible first | assumption | exact OnlyIn.refl _ _ | apply State.wr_onlyIn | apply OnlyIn.puts_cons | apply OnlyIn.puts_nil | apply OnlyIn.cond)
    | extract_lets | split | exact h_evf

theorem execEvfFormatWrite_onlyIn {l : List Block} {r : State} {format2 : Bool} {s : State} (hk : OnlyIn l r s) (h_clk : Block.clk ∈ l) (h_evf : Block.evf ∈ l) (h_glb : Block.glb ∈ l) :
    OutOnlyIn l r (execEvfFormatWrite format2 s) := by
  unfold execEvfFormatWrite
  repeat' first
    | intro _
    | (with_reducible first | assumption | exact OnlyIn.refl _ _ | apply OutOnlyIn.next | apply State.access_onlyIn | apply State.evfFormatSet_onlyIn)
    | extract_lets | dsimp only | exact h_clk | exact h_evf | exact h_glb

theorem execMgtCntClr_onlyIn {l : List Block} {r : State} {s : State} (hk : OnlyIn l r s) (h_clk : Block.clk ∈ l) (h_evf : Block.evf ∈ l) (h_glb : Block.glb ∈ l) (h_mgt : Block.mgt ∈ l) :
    OutOnlyIn l r (execMgtCntClr s) := by
  unfold execMgtCntClr
  repeat' first
    | intro _
    | (with_reducible first | assumption | exact OnlyIn.refl _ _ | apply OutOnlyIn.next | apply State.access_onlyIn | apply State.wr_onlyIn | apply OnlyIn.clear_cons | apply OnlyIn.clear_nil)
    | extract_lets | dsimp only | exact h_clk | exact h_evf | exact h_glb | exact h_mgt

theorem State.mbxWord_onlyIn {l : List Block} {r : State} {s : State} {w : Nat} (hk : OnlyIn l r s) (h_mgt : Block.mgt ∈ l) :
    OnlyIn l r (State.mbxWord s w) := by
  unfold State.mbxWord
  repeat' first
    | intro _
    | (with_reducible first | assumption | exact OnlyIn.refl _ _ | apply State.wr_onlyIn | apply State.raise_onlyIn | apply State.bump_onlyIn | apply OnlyIn.puts_cons | apply OnlyIn.puts_nil | apply OnlyIn.cond)
    | extract_lets | dsimp only | split
    | (with_reducible first | apply OnlyIn.other)
    | exact h_mgt

theorem execMbxInWordWrite_onlyIn {l : List Block} {r : State} {w : Word} {s : State} (hk : OnlyIn l r s) (h_clk : Block.clk ∈ l) (h_glb : Block.glb ∈ l) (h_mgt : Block.mgt ∈ l) :
    OutOnlyIn l r (execMbxInWordWrite w s) := by
  unfold execMbxInWordWrite
  repeat' first
    | intro _
    | (with_reducible first | assumption | exact OnlyIn.refl _ _ | apply OutOnlyIn.next | apply State.access_onlyIn | apply State.mbxWord_onlyIn)
    | extract_lets | dsimp only | exact h_clk | exact h_glb | exact h_mgt

theorem State.mbxRewind_onlyIn {l : List Block} {r : State} {s : State} (hk : OnlyIn l r s) (h_mgt : Block.mgt ∈ l) :
    OnlyIn l r (State.mbxRewind s) := by
  unfold State.mbxRewind
  repeat' first
    | intro _
    | (with_reducible first | assumption | exact OnlyIn.refl _ _ | apply State.wr_onlyIn | apply OnlyIn.puts_cons | apply OnlyIn.puts_nil)
    | extract_lets
    | (with_reducible first | apply OnlyIn.other)
    | exact h_mgt

theorem execMbxTimeout_onlyIn {l : List Block} {r : State} {s : State} (hk : OnlyIn l r s) (h_mgt : Block.mgt ∈ l) :
    OutOnlyIn l r (execMbxTimeout s) := by
  unfold execMbxTimeout
  repeat' first
    | intro _
    | (with_reducible first | assumption | exact OnlyIn.refl _ _ | apply OutOnlyIn.next | apply State.mbxRewind_onlyIn | apply State.wr_onlyIn | apply OutOnlyIn.cond | apply OnlyIn.cond)
    | extract_lets | split | exact h_mgt

theorem State.mbxAbort_onlyIn {l : List Block} {r : State} {s : State} (hk : OnlyIn l r s) (h_mgt : Block.mgt ∈ l) :
    OnlyIn l r (State.mbxAbort s) := by
  unfold State.mbxAbort
  repeat' first
    | intro _
    | (with_reducible first | assumption | exact OnlyIn.refl _ _ | apply State.mbxRewind_onlyIn | apply State.wr_onlyIn)
    | extract_lets | exact h_mgt

theorem execMbxInAbort_onlyIn {l : List Block} {r : State} {s : State} (hk : OnlyIn l r s) (h_clk : Block.clk ∈ l) (h_glb : Block.glb ∈ l) (h_mgt : Block.mgt ∈ l) :
    OutOnlyIn l r (execMbxInAbort s) := by
  unfold execMbxInAbort
  repeat' first
    | intro _
    | (with_reducible first | assumption | exact OnlyIn.refl _ _ | apply OutOnlyIn.next | apply State.access_onlyIn | apply State.mbxAbort_onlyIn)
    | extract_lets | dsimp only | exact h_clk | exact h_glb | exact h_mgt

theorem State.mbxResize_onlyIn {l : List Block} {r : State} {s : State} {v : Nat} (hk : OnlyIn l r s) (h_mgt : Block.mgt ∈ l) :
    OnlyIn l r (State.mbxResize s v) := by
  unfold State.mbxResize
  repeat' first
    | intro _
    | (with_reducible first | assumption | exact OnlyIn.refl _ _ | apply State.wr_onlyIn | apply State.raise_onlyIn | apply OnlyIn.cond)
    | extract_lets | split | exact h_mgt

theorem execMbxSizeWrite_onlyIn {l : List Block} {r : State} {v : BitVec 2} {s : State} (hk : OnlyIn l r s) (h_clk : Block.clk ∈ l) (h_glb : Block.glb ∈ l) (h_mgt : Block.mgt ∈ l) :
    OutOnlyIn l r (execMbxSizeWrite v s) := by
  unfold execMbxSizeWrite
  repeat' first
    | intro _
    | (with_reducible first | assumption | exact OnlyIn.refl _ _ | apply OutOnlyIn.next | apply State.access_onlyIn | apply State.mbxResize_onlyIn)
    | extract_lets | dsimp only | exact h_clk | exact h_glb | exact h_mgt

theorem State.mbxPop_onlyIn {l : List Block} {r : State} {s : State} (hk : OnlyIn l r s) :
    OnlyIn l r (State.mbxPop s).2 := by
  unfold State.mbxPop
  repeat' first
    | intro _
    | (with_reducible first | assumption | exact OnlyIn.refl _ _ | apply OnlyIn.cond_snd | apply OnlyIn.cond)
    | extract_lets | dsimp only | split
    | (with_reducible first | apply OnlyIn.other)

theorem execMbxOutRead_onlyIn {l : List Block} {r : State} {s : State} (hk : OnlyIn l r s) (h_clk : Block.clk ∈ l) (h_glb : Block.glb ∈ l) :
    OutOnlyIn l r (execMbxOutRead s) := by
  unfold execMbxOutRead
  repeat' first
    | intro _
    | (with_reducible first | assumption | exact OnlyIn.refl _ _ | apply OutOnlyIn.next | apply State.access_onlyIn | apply State.mbxPop_onlyIn | apply State.answerWord_onlyIn)
    | extract_lets | dsimp only | exact h_clk | exact h_glb

theorem State.mbxReply_onlyIn {l : List Block} {r : State} {s : State} {status : Nat} {body : List Nat} (hk : OnlyIn l r s) (h_mgt : Block.mgt ∈ l) :
    OnlyIn l r (State.mbxReply s status body) := by
  unfold State.mbxReply
  repeat' first
    | intro _
    | (with_reducible first | assumption | exact OnlyIn.refl _ _ | apply State.raise_onlyIn | apply OptOnlyIn.getD)
    | extract_lets | dsimp only | split
    | (with_reducible first | apply OnlyIn.other)
    | exact h_mgt

theorem State.mbxTake_onlyIn {l : List Block} {r : State} {s : State} {type : Nat → Bool} {g : List Nat → State → State} (hk : OnlyIn l r s) (hgg : ∀ a u, OnlyIn l r u → OnlyIn l r (g a u)) :
    OnlyIn l r (State.mbxTake s type g) := by
  unfold State.mbxTake
  repeat' first
    | intro _
    | (with_reducible first | apply hgg | assumption | exact OnlyIn.refl _ _ | apply OnlyIn.cond | apply OptOnlyIn.getD)
    | extract_lets | dsimp only | split

theorem execMsgVersion_onlyIn {l : List Block} {r : State} {s : State} (hk : OnlyIn l r s) (h_mgt : Block.mgt ∈ l) :
    OutOnlyIn l r (execMsgVersion s) := by
  unfold execMsgVersion
  repeat' first
    | intro _
    | (with_reducible first | assumption | exact OnlyIn.refl _ _ | apply OutOnlyIn.next | apply State.mbxTake_onlyIn | apply State.mbxReply_onlyIn)
    | extract_lets | dsimp only | exact h_mgt

theorem State.takeRecords_onlyIn {l : List Block} {r s : State} {room fuel : Nat} (hk : OnlyIn l r s)
    (h_evf : Block.evf ∈ l) : OnlyIn l r (s.takeRecords room fuel).2 := by
  induction fuel generalizing s room with
  | zero => exact hk
  | succ fuel ih =>
    unfold State.takeRecords
    split
    · exact hk
    · dsimp only
      split
      · exact hk
      · refine ih ?_
        with_reducible apply State.evfSettle_onlyIn
        · with_reducible apply State.evfXoffFollow_onlyIn
          · exact State.wr_onlyIn (OnlyIn.other hk) h_evf
          · exact h_evf
        · exact h_evf

theorem execMsgEventRead_onlyIn {l : List Block} {r : State} {s : State} (hk : OnlyIn l r s) (h_evf : Block.evf ∈ l) (h_mgt : Block.mgt ∈ l) :
    OutOnlyIn l r (execMsgEventRead s) := by
  unfold execMsgEventRead
  repeat' first
    | intro _
    | (with_reducible first | assumption | exact OnlyIn.refl _ _ | apply OutOnlyIn.next | apply State.mbxTake_onlyIn | apply State.mbxReply_onlyIn | apply State.takeRecords_onlyIn | apply OutOnlyIn.cond | apply OnlyIn.cond | apply OnlyIn.cond_snd | apply OptOnlyIn.getD)
    | extract_lets | dsimp only | split | exact h_evf | exact h_mgt

theorem execMsgInfoRead_onlyIn {l : List Block} {r : State} {s : State} (hk : OnlyIn l r s) (h_mgt : Block.mgt ∈ l) :
    OutOnlyIn l r (execMsgInfoRead s) := by
  unfold execMsgInfoRead
  repeat' first
    | intro _
    | (with_reducible first | assumption | exact OnlyIn.refl _ _ | apply OutOnlyIn.next | apply State.mbxTake_onlyIn | apply State.mbxReply_onlyIn | apply OutOnlyIn.cond | apply OnlyIn.cond | apply OptOnlyIn.getD)
    | extract_lets | dsimp only | split | exact h_mgt

theorem execMsgInfoWrite_onlyIn {l : List Block} {r : State} {s : State} (hk : OnlyIn l r s) (h_mgt : Block.mgt ∈ l) (h_sec : Block.sec ∈ l) :
    OutOnlyIn l r (execMsgInfoWrite s) := by
  unfold execMsgInfoWrite
  repeat' first
    | intro _
    | (with_reducible first | assumption | exact OnlyIn.refl _ _ | apply OutOnlyIn.next | apply State.mbxTake_onlyIn | apply State.mbxReply_onlyIn | apply State.setMask_onlyIn | apply OutOnlyIn.cond | apply OnlyIn.cond | apply OptOnlyIn.getD)
    | extract_lets | dsimp only | split | exact h_mgt | exact h_sec

theorem State.infoDone_onlyIn {l : List Block} {r : State} {s : State} {ok : Bool} (hk : OnlyIn l r s) (h_mgt : Block.mgt ∈ l) (h_sec : Block.sec ∈ l) :
    OnlyIn l r (State.infoDone s ok) := by
  unfold State.infoDone
  repeat' first
    | intro _
    | (with_reducible first | assumption | exact OnlyIn.refl _ _ | apply State.setMask_onlyIn | apply State.mbxReply_onlyIn | apply State.free_onlyIn | apply OnlyIn.cond | apply OnlyIn.cond_snd | apply OptOnlyIn.getD)
    | extract_lets | dsimp only | split
    | (with_reducible first | apply OnlyIn.other)
    | exact h_mgt | exact h_sec

theorem execMsgTypeUnknown_onlyIn {l : List Block} {r : State} {s : State} (hk : OnlyIn l r s) (h_mgt : Block.mgt ∈ l) :
    OutOnlyIn l r (execMsgTypeUnknown s) := by
  unfold execMsgTypeUnknown
  repeat' first
    | intro _
    | (with_reducible first | assumption | exact OnlyIn.refl _ _ | apply OutOnlyIn.next | apply State.mbxTake_onlyIn | apply State.mbxReply_onlyIn)
    | extract_lets | dsimp only | exact h_mgt

end Sys2Proof.Machine
end

