-- ==== Sys2Proof/Laws/OnlySecurity.lean ====
section
/-!
SUPPORT. Which blocks the operations of Security change.
-/
set_option Elab.async false
set_option linter.all false
namespace Sys2Proof.Machine

theorem State.storeSlot_onlyIn {l : List Block} {r : State} {s : State} {k st flags point : Nat} (hk : OnlyIn l r s) (h_sec : Block.sec ∈ l) :
    OnlyIn l r (State.storeSlot s k st flags point) := by
  unfold State.storeSlot
  repeat' first
    | intro _
    | (with_reducible first | assumption | exact OnlyIn.refl _ _ | apply State.nvmSet_onlyIn | apply State.wr_onlyIn)
    | extract_lets | exact h_sec

theorem State.secEnd_onlyIn {l : List Block} {r0 : State} {s : State} {r : Nat} (hk : OnlyIn l r0 s) (h_sec : Block.sec ∈ l) :
    OnlyIn l r0 (State.secEnd s r) := by
  unfold State.secEnd
  repeat' first
    | intro _
    | (with_reducible first | assumption | exact OnlyIn.refl _ _ | apply State.setMask_onlyIn | apply State.raise_onlyIn | apply State.wr_onlyIn | apply OnlyIn.puts_cons | apply OnlyIn.puts_nil | apply OnlyIn.cond)
    | extract_lets | split | exact h_sec

theorem State.secWrite_onlyIn {l : List Block} {r : State} {s : State} (hk : OnlyIn l r s) (h_sec : Block.sec ∈ l) :
    OnlyIn l r (State.secWrite s) := by
  unfold State.secWrite
  repeat' first
    | intro _
    | (with_reducible first | assumption | exact OnlyIn.refl _ _ | apply State.setMask_onlyIn | apply State.wr_onlyIn | apply OnlyIn.puts_cons | apply OnlyIn.puts_nil)
    | extract_lets | exact h_sec

theorem State.tokenCheck_onlyIn {l : List Block} {r : State} {s : State} {flags : Nat} {other : Option Nat} (hk : OnlyIn l r s) (h_sec : Block.sec ∈ l) :
    OnlyIn l r (State.tokenCheck s flags other) := by
  unfold State.tokenCheck
  repeat' first
    | intro _
    | (with_reducible first | assumption | exact OnlyIn.refl _ _ | apply State.secEnd_onlyIn | apply State.wr_onlyIn | apply OnlyIn.puts_cons | apply OnlyIn.puts_nil | apply OnlyIn.cond)
    | extract_lets | split | exact h_sec

theorem State.lcAdvance_onlyIn {l : List Block} {r : State} {s : State} {target : Nat} (hk : OnlyIn l r s) (h_sec : Block.sec ∈ l) :
    OnlyIn l r (State.lcAdvance s target) := by
  unfold State.lcAdvance
  repeat' first
    | intro _
    | (with_reducible first | assumption | exact OnlyIn.refl _ _ | apply State.secEnd_onlyIn | apply State.secWrite_onlyIn | apply State.tokenCheck_onlyIn | apply OnlyIn.cond)
    | extract_lets | split | exact h_sec

theorem State.keyProgram_onlyIn {l : List Block} {r : State} {s : State} {slot : Nat} (hk : OnlyIn l r s) (h_sec : Block.sec ∈ l) :
    OnlyIn l r (State.keyProgram s slot) := by
  unfold State.keyProgram
  repeat' first
    | intro _
    | (with_reducible first | assumption | exact OnlyIn.refl _ _ | apply State.secEnd_onlyIn | apply State.secWrite_onlyIn | apply OnlyIn.cond)
    | extract_lets | split | exact h_sec

theorem State.keyRevoke_onlyIn {l : List Block} {r : State} {s : State} {slot : Nat} (hk : OnlyIn l r s) (h_sec : Block.sec ∈ l) :
    OnlyIn l r (State.keyRevoke s slot) := by
  unfold State.keyRevoke
  repeat' first
    | intro _
    | (with_reducible first | assumption | exact OnlyIn.refl _ _ | apply State.secEnd_onlyIn | apply State.secWrite_onlyIn | apply State.tokenCheck_onlyIn | apply OnlyIn.cond)
    | extract_lets | dsimp only | split | exact h_sec

theorem State.debugOpen_onlyIn {l : List Block} {r : State} {s : State} {scope : Nat} (hk : OnlyIn l r s) (h_mgt : Block.mgt ∈ l) (h_sec : Block.sec ∈ l) :
    OnlyIn l r (State.debugOpen s scope) := by
  unfold State.debugOpen
  repeat' first
    | intro _
    | (with_reducible first | assumption | exact OnlyIn.refl _ _ | apply State.clearSecrets_onlyIn | apply State.wr_onlyIn | apply State.raise_onlyIn | apply OnlyIn.puts_cons | apply OnlyIn.puts_nil | apply OnlyIn.when)
    | extract_lets | dsimp only | exact h_mgt | exact h_sec

theorem State.debugUnlock_onlyIn {l : List Block} {r : State} {s : State} {scope : Nat} (hk : OnlyIn l r s) (h_mgt : Block.mgt ∈ l) (h_sec : Block.sec ∈ l) :
    OnlyIn l r (State.debugUnlock s scope) := by
  unfold State.debugUnlock
  repeat' first
    | intro _
    | (with_reducible first | assumption | exact OnlyIn.refl _ _ | apply State.debugOpen_onlyIn | apply State.secEnd_onlyIn | apply State.tokenCheck_onlyIn | apply OnlyIn.cond)
    | extract_lets | split | exact h_mgt | exact h_sec

theorem State.rollbackSet_onlyIn {l : List Block} {r : State} {s : State} (hk : OnlyIn l r s) (h_sec : Block.sec ∈ l) :
    OnlyIn l r (State.rollbackSet s) := by
  unfold State.rollbackSet
  repeat' first
    | intro _
    | (with_reducible first | assumption | exact OnlyIn.refl _ _ | apply State.secEnd_onlyIn | apply State.secWrite_onlyIn | apply OnlyIn.cond)
    | extract_lets | split | exact h_sec

theorem State.nonceDraw_onlyIn {l : List Block} {r : State} {s : State} (hk : OnlyIn l r s) (h_sec : Block.sec ∈ l) :
    OnlyIn l r (State.nonceDraw s) := by
  unfold State.nonceDraw
  repeat' first
    | intro _
    | (with_reducible first | assumption | exact OnlyIn.refl _ _ | apply State.secEnd_onlyIn | apply State.wrFree_onlyIn | apply State.wr_onlyIn | apply OnlyIn.cond)
    | extract_lets | split | exact h_sec

theorem State.secGo_onlyIn {l : List Block} {r : State} {s : State} {op arg flags : Nat} (hk : OnlyIn l r s) (h_mgt : Block.mgt ∈ l) (h_sec : Block.sec ∈ l) :
    OnlyIn l r (State.secGo s op arg flags) := by
  unfold State.secGo
  repeat' first
    | intro _
    | (with_reducible first | assumption | exact OnlyIn.refl _ _ | apply State.wr_onlyIn | apply State.raise_onlyIn | apply State.lcAdvance_onlyIn | apply State.nonceDraw_onlyIn | apply State.keyProgram_onlyIn | apply State.keyRevoke_onlyIn | apply State.debugUnlock_onlyIn | apply State.rollbackSet_onlyIn | apply State.secWrite_onlyIn | apply State.secEnd_onlyIn | apply OnlyIn.puts_cons | apply OnlyIn.puts_nil | apply OnlyIn.cond)
    | extract_lets | dsimp only | split | exact h_mgt | exact h_sec

theorem execLcAdvance_onlyIn {l : List Block} {r : State} {target : BitVec 4} {flags : BitVec 3} {s : State} (hk : OnlyIn l r s) (h_clk : Block.clk ∈ l) (h_glb : Block.glb ∈ l) (h_mgt : Block.mgt ∈ l) (h_sec : Block.sec ∈ l) :
    OutOnlyIn l r (execLcAdvance target flags s) := by
  unfold execLcAdvance
  repeat' first
    | intro _
    | (with_reducible first | assumption | exact OnlyIn.refl _ _ | apply OutOnlyIn.next | apply State.access_onlyIn | apply State.secGo_onlyIn)
    | extract_lets | dsimp only | exact h_clk | exact h_glb | exact h_mgt | exact h_sec

theorem execNonce_onlyIn {l : List Block} {r : State} {arg : BitVec 4} {flags : BitVec 3} {s : State} (hk : OnlyIn l r s) (h_clk : Block.clk ∈ l) (h_glb : Block.glb ∈ l) (h_mgt : Block.mgt ∈ l) (h_sec : Block.sec ∈ l) :
    OutOnlyIn l r (execNonce arg flags s) := by
  unfold execNonce
  repeat' first
    | intro _
    | (with_reducible first | assumption | exact OnlyIn.refl _ _ | apply OutOnlyIn.next | apply State.access_onlyIn | apply State.secGo_onlyIn)
    | extract_lets | dsimp only | exact h_clk | exact h_glb | exact h_mgt | exact h_sec

theorem execNonceExpiry_onlyIn {l : List Block} {r : State} {s : State} (hk : OnlyIn l r s) (h_sec : Block.sec ∈ l) :
    OutOnlyIn l r (execNonceExpiry s) := by
  unfold execNonceExpiry
  repeat' first
    | intro _
    | (with_reducible first | assumption | exact OnlyIn.refl _ _ | apply OutOnlyIn.next | apply State.wr_onlyIn)
    | extract_lets | exact h_sec

theorem execKeyProgram_onlyIn {l : List Block} {r : State} {slot : BitVec 4} {flags : BitVec 3} {s : State} (hk : OnlyIn l r s) (h_clk : Block.clk ∈ l) (h_glb : Block.glb ∈ l) (h_mgt : Block.mgt ∈ l) (h_sec : Block.sec ∈ l) :
    OutOnlyIn l r (execKeyProgram slot flags s) := by
  unfold execKeyProgram
  repeat' first
    | intro _
    | (with_reducible first | assumption | exact OnlyIn.refl _ _ | apply OutOnlyIn.next | apply State.access_onlyIn | apply State.secGo_onlyIn)
    | extract_lets | dsimp only | exact h_clk | exact h_glb | exact h_mgt | exact h_sec

theorem execKeyRevoke_onlyIn {l : List Block} {r : State} {slot : BitVec 4} {flags : BitVec 3} {s : State} (hk : OnlyIn l r s) (h_clk : Block.clk ∈ l) (h_glb : Block.glb ∈ l) (h_mgt : Block.mgt ∈ l) (h_sec : Block.sec ∈ l) :
    OutOnlyIn l r (execKeyRevoke slot flags s) := by
  unfold execKeyRevoke
  repeat' first
    | intro _
    | (with_reducible first | assumption | exact OnlyIn.refl _ _ | apply OutOnlyIn.next | apply State.access_onlyIn | apply State.secGo_onlyIn)
    | extract_lets | dsimp only | exact h_clk | exact h_glb | exact h_mgt | exact h_sec

theorem execDebugUnlock_onlyIn {l : List Block} {r : State} {scope : BitVec 4} {flags : BitVec 3} {s : State} (hk : OnlyIn l r s) (h_clk : Block.clk ∈ l) (h_glb : Block.glb ∈ l) (h_mgt : Block.mgt ∈ l) (h_sec : Block.sec ∈ l) :
    OutOnlyIn l r (execDebugUnlock scope flags s) := by
  unfold execDebugUnlock
  repeat' first
    | intro _
    | (with_reducible first | assumption | exact OnlyIn.refl _ _ | apply OutOnlyIn.next | apply State.access_onlyIn | apply State.secGo_onlyIn)
    | extract_lets | dsimp only | exact h_clk | exact h_glb | exact h_mgt | exact h_sec

theorem execRollbackSet_onlyIn {l : List Block} {r : State} {arg : BitVec 4} {flags : BitVec 3} {s : State} (hk : OnlyIn l r s) (h_clk : Block.clk ∈ l) (h_glb : Block.glb ∈ l) (h_mgt : Block.mgt ∈ l) (h_sec : Block.sec ∈ l) :
    OutOnlyIn l r (execRollbackSet arg flags s) := by
  unfold execRollbackSet
  repeat' first
    | intro _
    | (with_reducible first | assumption | exact OnlyIn.refl _ _ | apply OutOnlyIn.next | apply State.access_onlyIn | apply State.secGo_onlyIn)
    | extract_lets | dsimp only | exact h_clk | exact h_glb | exact h_mgt | exact h_sec

theorem execFactorySave_onlyIn {l : List Block} {r : State} {arg : BitVec 4} {flags : BitVec 3} {s : State} (hk : OnlyIn l r s) (h_clk : Block.clk ∈ l) (h_glb : Block.glb ∈ l) (h_mgt : Block.mgt ∈ l) (h_sec : Block.sec ∈ l) :
    OutOnlyIn l r (execFactorySave arg flags s) := by
  unfold execFactorySave
  repeat' first
    | intro _
    | (with_reducible first | assumption | exact OnlyIn.refl _ _ | apply OutOnlyIn.next | apply State.access_onlyIn | apply State.secGo_onlyIn)
    | extract_lets | dsimp only | exact h_clk | exact h_glb | exact h_mgt | exact h_sec

theorem execSecOpInvalid_onlyIn {l : List Block} {r : State} {op : Option (Fin 8)} {arg : BitVec 4} {flags : BitVec 3} {s : State} (hk : OnlyIn l r s) (h_clk : Block.clk ∈ l) (h_glb : Block.glb ∈ l) (h_mgt : Block.mgt ∈ l) (h_sec : Block.sec ∈ l) :
    OutOnlyIn l r (execSecOpInvalid op arg flags s) := by
  unfold execSecOpInvalid
  repeat' first
    | intro _
    | (with_reducible first | assumption | exact OnlyIn.refl _ _ | apply OutOnlyIn.next | apply State.access_onlyIn | apply State.secGo_onlyIn)
    | extract_lets | dsimp only | split | exact h_clk | exact h_glb | exact h_mgt | exact h_sec

theorem execTokenVerifyDone_onlyIn {l : List Block} {r : State} {s : State} (hk : OnlyIn l r s) (h_mgt : Block.mgt ∈ l) (h_sec : Block.sec ∈ l) :
    OutOnlyIn l r (execTokenVerifyDone s) := by
  unfold execTokenVerifyDone
  repeat' first
    | intro _
    | (with_reducible first | assumption | exact OnlyIn.refl _ _ | apply OutOnlyIn.next | apply State.wr_onlyIn | apply State.raise_onlyIn | apply State.secEnd_onlyIn | apply State.debugOpen_onlyIn | apply State.secWrite_onlyIn | apply OutOnlyIn.cond | apply OnlyIn.cond)
    | extract_lets | split | exact h_mgt | exact h_sec

theorem State.lcEnter_onlyIn {l : List Block} {r : State} {s : State} {st : Nat} (hk : OnlyIn l r s) (h_sec : Block.sec ∈ l) :
    OnlyIn l r (State.lcEnter s st) := by
  unfold State.lcEnter
  repeat' first
    | intro _
    | (with_reducible first | assumption | exact OnlyIn.refl _ _ | apply State.wr_onlyIn | apply State.nvmSet_onlyIn | apply State.storeSlot_onlyIn | apply State.free_onlyIn | apply OnlyIn.each | apply OnlyIn.cond | apply OnlyIn.cond_snd)
    | extract_lets | dsimp only | split | exact h_sec

theorem State.lcCopy_onlyIn {l : List Block} {r : State} {s : State} (hk : OnlyIn l r s) (h_sec : Block.sec ∈ l) :
    OnlyIn l r (State.lcCopy s) := by
  unfold State.lcCopy
  repeat' first
    | intro _
    | (with_reducible first | assumption | exact OnlyIn.refl _ _ | apply State.nvmSet_onlyIn | apply State.wr_onlyIn | apply State.lcEnter_onlyIn | apply State.raise_onlyIn | apply State.secEnd_onlyIn | apply OnlyIn.when | apply OnlyIn.cond)
    | extract_lets | dsimp only | split | exact h_sec

theorem State.secStore_onlyIn {l : List Block} {r : State} {s : State} (hk : OnlyIn l r s) (h_sec : Block.sec ∈ l) :
    OnlyIn l r (State.secStore s) := by
  unfold State.secStore
  repeat' first
    | intro _
    | (with_reducible first | assumption | exact OnlyIn.refl _ _ | apply State.lcCopy_onlyIn | apply State.storeSlot_onlyIn | apply State.secEnd_onlyIn | apply State.nvmSet_onlyIn | apply State.wr_onlyIn | apply OnlyIn.each)
    | extract_lets | dsimp only | split | exact h_sec

theorem State.envStore_onlyIn {l : List Block} {r : State} {s : State} (hk : OnlyIn l r s) :
    OnlyIn l r (State.envStore s) := by
  unfold State.envStore
  repeat' first
    | intro _
    | (with_reducible first | assumption | exact OnlyIn.refl _ _ | apply OnlyIn.foldl)
    | extract_lets | dsimp only
    | (with_reducible first | apply OnlyIn.other)

theorem execNvmWriteDone_onlyIn {l : List Block} {r : State} {job : NvmJob} {ok : Bool} {s : State} (hk : OnlyIn l r s) (h_mgt : Block.mgt ∈ l) (h_optGlb : Block.optGlb ∈ l) (h_sec : Block.sec ∈ l) :
    OutOnlyIn l r (execNvmWriteDone job ok s) := by
  unfold execNvmWriteDone
  repeat' first
    | intro _
    | (with_reducible first | assumption | exact OnlyIn.refl _ _ | apply OutOnlyIn.next | apply State.secStore_onlyIn | apply State.secEnd_onlyIn | apply State.envStore_onlyIn | apply State.raise_onlyIn | apply State.setMask_onlyIn | apply State.nvmSet_onlyIn | apply State.cdbEnd_onlyIn | apply State.infoDone_onlyIn | apply State.wr_onlyIn | apply OnlyIn.puts_cons | apply OnlyIn.puts_nil | apply OutOnlyIn.cond | apply OnlyIn.cond)
    | extract_lets | dsimp only | split | exact h_mgt | exact h_optGlb | exact h_sec

end Sys2Proof.Machine
end

