-- ==== Sys2Proof/Laws/OnlyImages.lean ====
section
/-!
SUPPORT. Which blocks the operations of Images change.
-/
set_option Elab.async false
set_option linter.all false
namespace Sys2Proof.Machine

theorem State.activeImage_onlyIn {l : List Block} {r : State} {s : State} {i : Image} {slot : Nat} {fallback : Bool} (hk : OnlyIn l r s) (h_img : Block.img ∈ l) :
    OnlyIn l r (State.activeImage s i slot fallback) := by
  unfold State.activeImage
  repeat' first
    | intro _
    | (with_reducible first | assumption | exact OnlyIn.refl _ _ | apply State.wr_onlyIn | apply OnlyIn.puts_cons | apply OnlyIn.puts_nil)
    | extract_lets | exact h_img

theorem State.laneDefaults_onlyIn {l : List Block} {r : State} {s : State} {i : Image} (hk : OnlyIn l r s) (h_hif : Block.hif ∈ l) (h_hltLn : Block.hltLn ∈ l) (h_leq : Block.leq ∈ l) (h_lrx : Block.lrx ∈ l) (h_ltx : Block.ltx ∈ l) :
    OnlyIn l r (State.laneDefaults s i) := by
  unfold State.laneDefaults
  repeat' first
    | intro _
    | (with_reducible first | assumption | exact OnlyIn.refl _ _ | apply State.presetWrite_onlyIn | apply OnlyIn.each)
    | extract_lets | dsimp only | exact h_hif | exact h_hltLn | exact h_leq | exact h_lrx | exact h_ltx

theorem State.imgRefuse_onlyIn {l : List Block} {r : State} {s : State} {op code : Nat} {lane : Option Nat} (hk : OnlyIn l r s) (h_evf : Block.evf ∈ l) (h_img : Block.img ∈ l) :
    OnlyIn l r (State.imgRefuse s op code lane) := by
  unfold State.imgRefuse
  repeat' first
    | intro _
    | (with_reducible first | assumption | exact OnlyIn.refl _ _ | apply State.imgFail_onlyIn | apply State.imgReport_onlyIn | apply State.wr_onlyIn | apply OnlyIn.cond)
    | extract_lets | split | exact h_evf | exact h_img

theorem State.imgBegin_onlyIn {l : List Block} {r : State} {s : State} {op slot lead st : Nat} (hk : OnlyIn l r s) (h_img : Block.img ∈ l) :
    OnlyIn l r (State.imgBegin s op slot lead st) := by
  unfold State.imgBegin
  repeat' first
    | intro _
    | (with_reducible first | assumption | exact OnlyIn.refl _ _ | apply State.wr_onlyIn | apply OnlyIn.puts_cons | apply OnlyIn.puts_nil)
    | extract_lets | exact h_img

theorem State.imgCommitFullNow_onlyIn {l : List Block} {r : State} {s : State} (hk : OnlyIn l r s) (h_evf : Block.evf ∈ l) (h_hif : Block.hif ∈ l) (h_hifGlb : Block.hifGlb ∈ l) (h_hlt : Block.hlt ∈ l) (h_hltLn : Block.hltLn ∈ l) (h_img : Block.img ∈ l) (h_leq : Block.leq ∈ l) (h_lfr : Block.lfr ∈ l) (h_lrx : Block.lrx ∈ l) (h_ltx : Block.ltx ∈ l) (h_mgt : Block.mgt ∈ l) (h_optLn : Block.optLn ∈ l) (h_pwrLn : Block.pwrLn ∈ l) (h_timLn : Block.timLn ∈ l) :
    OnlyIn l r (State.imgCommitFullNow s) := by
  unfold State.imgCommitFullNow
  repeat' first
    | intro _
    | (with_reducible first | assumption | exact OnlyIn.refl _ _ | apply State.imgRefuse_onlyIn | apply State.imgBegin_onlyIn | apply State.abortTests_onlyIn | apply State.lrxOff_onlyIn | apply State.hifOff_onlyIn | apply State.wr_onlyIn | apply OnlyIn.puts_cons | apply OnlyIn.puts_nil | apply OnlyIn.each | apply OnlyIn.cond)
    | extract_lets | dsimp only | split | exact h_evf | exact h_hif | exact h_hifGlb | exact h_hlt | exact h_hltLn | exact h_img | exact h_leq | exact h_lfr | exact h_lrx | exact h_ltx | exact h_mgt | exact h_optLn | exact h_pwrLn | exact h_timLn

theorem State.imgCommitPartialNow_onlyIn {l : List Block} {r : State} {s : State} {lead : Nat} (hk : OnlyIn l r s) (h_evf : Block.evf ∈ l) (h_img : Block.img ∈ l) :
    OnlyIn l r (State.imgCommitPartialNow s lead) := by
  unfold State.imgCommitPartialNow
  repeat' first
    | intro _
    | (with_reducible first | assumption | exact OnlyIn.refl _ _ | apply State.imgRefuse_onlyIn | apply State.imgBegin_onlyIn | apply State.wr_onlyIn | apply OnlyIn.puts_cons | apply OnlyIn.puts_nil | apply OnlyIn.cond)
    | extract_lets | dsimp only | split | exact h_evf | exact h_img

theorem State.imgGo_onlyIn {l : List Block} {r : State} {s : State} {op slot lead : Nat} (hk : OnlyIn l r s) (h_arcCl : Block.arcCl ∈ l) (h_evf : Block.evf ∈ l) (h_hif : Block.hif ∈ l) (h_hifGlb : Block.hifGlb ∈ l) (h_hlt : Block.hlt ∈ l) (h_hltLn : Block.hltLn ∈ l) (h_img : Block.img ∈ l) (h_leq : Block.leq ∈ l) (h_lfr : Block.lfr ∈ l) (h_lrx : Block.lrx ∈ l) (h_ltx : Block.ltx ∈ l) (h_mgt : Block.mgt ∈ l) (h_optLn : Block.optLn ∈ l) (h_pwrLn : Block.pwrLn ∈ l) (h_timLn : Block.timLn ∈ l) :
    OnlyIn l r (State.imgGo s op slot lead) := by
  unfold State.imgGo
  repeat' first
    | intro _
    | (with_reducible first | assumption | exact OnlyIn.refl _ _ | apply State.pcAbort_onlyIn | apply State.imgRefuse_onlyIn | apply State.wr_onlyIn | apply State.free_onlyIn | apply State.imgBegin_onlyIn | apply State.imgCommitFullNow_onlyIn | apply State.imgCommitPartialNow_onlyIn | apply OnlyIn.puts_cons | apply OnlyIn.puts_nil | apply OnlyIn.cond | apply OnlyIn.cond_snd)
    | extract_lets | dsimp only | split | exact h_arcCl | exact h_evf | exact h_hif | exact h_hifGlb | exact h_hlt | exact h_hltLn | exact h_img | exact h_leq | exact h_lfr | exact h_lrx | exact h_ltx | exact h_mgt | exact h_optLn | exact h_pwrLn | exact h_timLn

theorem execImgValidate_onlyIn {l : List Block} {r : State} {slot : BitVec 1} {s : State} (hk : OnlyIn l r s) (h_arcCl : Block.arcCl ∈ l) (h_clk : Block.clk ∈ l) (h_evf : Block.evf ∈ l) (h_glb : Block.glb ∈ l) (h_hif : Block.hif ∈ l) (h_hifGlb : Block.hifGlb ∈ l) (h_hlt : Block.hlt ∈ l) (h_hltLn : Block.hltLn ∈ l) (h_img : Block.img ∈ l) (h_leq : Block.leq ∈ l) (h_lfr : Block.lfr ∈ l) (h_lrx : Block.lrx ∈ l) (h_ltx : Block.ltx ∈ l) (h_mgt : Block.mgt ∈ l) (h_optLn : Block.optLn ∈ l) (h_pwrLn : Block.pwrLn ∈ l) (h_timLn : Block.timLn ∈ l) :
    OutOnlyIn l r (execImgValidate slot s) := by
  unfold execImgValidate
  repeat' first
    | intro _
    | (with_reducible first | assumption | exact OnlyIn.refl _ _ | apply OutOnlyIn.next | apply State.access_onlyIn | apply State.imgGo_onlyIn)
    | extract_lets | dsimp only | exact h_arcCl | exact h_clk | exact h_evf | exact h_glb | exact h_hif | exact h_hifGlb | exact h_hlt | exact h_hltLn | exact h_img | exact h_leq | exact h_lfr | exact h_lrx | exact h_ltx | exact h_mgt | exact h_optLn | exact h_pwrLn | exact h_timLn

theorem execImgCommitFull_onlyIn {l : List Block} {r : State} {slot : BitVec 1} {s : State} (hk : OnlyIn l r s) (h_arcCl : Block.arcCl ∈ l) (h_clk : Block.clk ∈ l) (h_evf : Block.evf ∈ l) (h_glb : Block.glb ∈ l) (h_hif : Block.hif ∈ l) (h_hifGlb : Block.hifGlb ∈ l) (h_hlt : Block.hlt ∈ l) (h_hltLn : Block.hltLn ∈ l) (h_img : Block.img ∈ l) (h_leq : Block.leq ∈ l) (h_lfr : Block.lfr ∈ l) (h_lrx : Block.lrx ∈ l) (h_ltx : Block.ltx ∈ l) (h_mgt : Block.mgt ∈ l) (h_optLn : Block.optLn ∈ l) (h_pwrLn : Block.pwrLn ∈ l) (h_timLn : Block.timLn ∈ l) :
    OutOnlyIn l r (execImgCommitFull slot s) := by
  unfold execImgCommitFull
  repeat' first
    | intro _
    | (with_reducible first | assumption | exact OnlyIn.refl _ _ | apply OutOnlyIn.next | apply State.access_onlyIn | apply State.imgGo_onlyIn)
    | extract_lets | dsimp only | exact h_arcCl | exact h_clk | exact h_evf | exact h_glb | exact h_hif | exact h_hifGlb | exact h_hlt | exact h_hltLn | exact h_img | exact h_leq | exact h_lfr | exact h_lrx | exact h_ltx | exact h_mgt | exact h_optLn | exact h_pwrLn | exact h_timLn

theorem execImgCommitPartial_onlyIn {l : List Block} {r : State} {slot : BitVec 1} {lead : Lane} {s : State} (hk : OnlyIn l r s) (h_arcCl : Block.arcCl ∈ l) (h_clk : Block.clk ∈ l) (h_evf : Block.evf ∈ l) (h_glb : Block.glb ∈ l) (h_hif : Block.hif ∈ l) (h_hifGlb : Block.hifGlb ∈ l) (h_hlt : Block.hlt ∈ l) (h_hltLn : Block.hltLn ∈ l) (h_img : Block.img ∈ l) (h_leq : Block.leq ∈ l) (h_lfr : Block.lfr ∈ l) (h_lrx : Block.lrx ∈ l) (h_ltx : Block.ltx ∈ l) (h_mgt : Block.mgt ∈ l) (h_optLn : Block.optLn ∈ l) (h_pwrLn : Block.pwrLn ∈ l) (h_timLn : Block.timLn ∈ l) :
    OutOnlyIn l r (execImgCommitPartial slot lead s) := by
  unfold execImgCommitPartial
  repeat' first
    | intro _
    | (with_reducible first | assumption | exact OnlyIn.refl _ _ | apply OutOnlyIn.next | apply State.access_onlyIn | apply State.imgGo_onlyIn)
    | extract_lets | dsimp only | exact h_arcCl | exact h_clk | exact h_evf | exact h_glb | exact h_hif | exact h_hifGlb | exact h_hlt | exact h_hltLn | exact h_img | exact h_leq | exact h_lfr | exact h_lrx | exact h_ltx | exact h_mgt | exact h_optLn | exact h_pwrLn | exact h_timLn

theorem execImgAbort_onlyIn {l : List Block} {r : State} {s : State} (hk : OnlyIn l r s) (h_arcCl : Block.arcCl ∈ l) (h_clk : Block.clk ∈ l) (h_evf : Block.evf ∈ l) (h_glb : Block.glb ∈ l) (h_hif : Block.hif ∈ l) (h_hifGlb : Block.hifGlb ∈ l) (h_hlt : Block.hlt ∈ l) (h_hltLn : Block.hltLn ∈ l) (h_img : Block.img ∈ l) (h_leq : Block.leq ∈ l) (h_lfr : Block.lfr ∈ l) (h_lrx : Block.lrx ∈ l) (h_ltx : Block.ltx ∈ l) (h_mgt : Block.mgt ∈ l) (h_optLn : Block.optLn ∈ l) (h_pwrLn : Block.pwrLn ∈ l) (h_timLn : Block.timLn ∈ l) :
    OutOnlyIn l r (execImgAbort s) := by
  unfold execImgAbort
  repeat' first
    | intro _
    | (with_reducible first | assumption | exact OnlyIn.refl _ _ | apply OutOnlyIn.next | apply State.access_onlyIn | apply State.imgGo_onlyIn)
    | extract_lets | dsimp only | exact h_arcCl | exact h_clk | exact h_evf | exact h_glb | exact h_hif | exact h_hifGlb | exact h_hlt | exact h_hltLn | exact h_img | exact h_leq | exact h_lfr | exact h_lrx | exact h_ltx | exact h_mgt | exact h_optLn | exact h_pwrLn | exact h_timLn

theorem execImgMakeBoot_onlyIn {l : List Block} {r : State} {slot : BitVec 1} {s : State} (hk : OnlyIn l r s) (h_arcCl : Block.arcCl ∈ l) (h_clk : Block.clk ∈ l) (h_evf : Block.evf ∈ l) (h_glb : Block.glb ∈ l) (h_hif : Block.hif ∈ l) (h_hifGlb : Block.hifGlb ∈ l) (h_hlt : Block.hlt ∈ l) (h_hltLn : Block.hltLn ∈ l) (h_img : Block.img ∈ l) (h_leq : Block.leq ∈ l) (h_lfr : Block.lfr ∈ l) (h_lrx : Block.lrx ∈ l) (h_ltx : Block.ltx ∈ l) (h_mgt : Block.mgt ∈ l) (h_optLn : Block.optLn ∈ l) (h_pwrLn : Block.pwrLn ∈ l) (h_timLn : Block.timLn ∈ l) :
    OutOnlyIn l r (execImgMakeBoot slot s) := by
  unfold execImgMakeBoot
  repeat' first
    | intro _
    | (with_reducible first | assumption | exact OnlyIn.refl _ _ | apply OutOnlyIn.next | apply State.access_onlyIn | apply State.imgGo_onlyIn)
    | extract_lets | dsimp only | exact h_arcCl | exact h_clk | exact h_evf | exact h_glb | exact h_hif | exact h_hifGlb | exact h_hlt | exact h_hltLn | exact h_img | exact h_leq | exact h_lfr | exact h_lrx | exact h_ltx | exact h_mgt | exact h_optLn | exact h_pwrLn | exact h_timLn

theorem execImgOpInvalid_onlyIn {l : List Block} {r : State} {op : BitVec 4} {slot : BitVec 2} {lead : Lane} {s : State} (hk : OnlyIn l r s) (h_arcCl : Block.arcCl ∈ l) (h_clk : Block.clk ∈ l) (h_evf : Block.evf ∈ l) (h_glb : Block.glb ∈ l) (h_hif : Block.hif ∈ l) (h_hifGlb : Block.hifGlb ∈ l) (h_hlt : Block.hlt ∈ l) (h_hltLn : Block.hltLn ∈ l) (h_img : Block.img ∈ l) (h_leq : Block.leq ∈ l) (h_lfr : Block.lfr ∈ l) (h_lrx : Block.lrx ∈ l) (h_ltx : Block.ltx ∈ l) (h_mgt : Block.mgt ∈ l) (h_optLn : Block.optLn ∈ l) (h_pwrLn : Block.pwrLn ∈ l) (h_timLn : Block.timLn ∈ l) :
    OutOnlyIn l r (execImgOpInvalid op slot lead s) := by
  unfold execImgOpInvalid
  repeat' first
    | intro _
    | (with_reducible first | assumption | exact OnlyIn.refl _ _ | apply OutOnlyIn.next | apply State.access_onlyIn | apply State.imgGo_onlyIn | apply OutOnlyIn.cond | apply OnlyIn.cond)
    | extract_lets | dsimp only | split | exact h_arcCl | exact h_clk | exact h_evf | exact h_glb | exact h_hif | exact h_hifGlb | exact h_hlt | exact h_hltLn | exact h_img | exact h_leq | exact h_lfr | exact h_lrx | exact h_ltx | exact h_mgt | exact h_optLn | exact h_pwrLn | exact h_timLn

theorem State.noImage_onlyIn {l : List Block} {r : State} {s : State} (hk : OnlyIn l r s) (h_evf : Block.evf ∈ l) (h_glb : Block.glb ∈ l) (h_hif : Block.hif ∈ l) (h_hifGlb : Block.hifGlb ∈ l) (h_hlt : Block.hlt ∈ l) (h_hltLn : Block.hltLn ∈ l) (h_img : Block.img ∈ l) (h_leq : Block.leq ∈ l) (h_lfr : Block.lfr ∈ l) (h_lrx : Block.lrx ∈ l) (h_ltx : Block.ltx ∈ l) (h_mgt : Block.mgt ∈ l) (h_optLn : Block.optLn ∈ l) (h_pwrLn : Block.pwrLn ∈ l) (h_timLn : Block.timLn ∈ l) :
    OnlyIn l r (State.noImage s) := by
  unfold State.noImage
  repeat' first
    | intro _
    | (with_reducible first | assumption | exact OnlyIn.refl _ _ | apply State.wr_onlyIn | apply State.lrxOff_onlyIn | apply State.ltxFaultEnd_onlyIn | apply State.hifOff_onlyIn | apply State.raise_onlyIn | apply OnlyIn.puts_cons | apply OnlyIn.puts_nil | apply OnlyIn.each)
    | extract_lets | dsimp only | split
    | (with_reducible first | apply OnlyIn.other)
    | exact h_evf | exact h_glb | exact h_hif | exact h_hifGlb | exact h_hlt | exact h_hltLn | exact h_img | exact h_leq | exact h_lfr | exact h_lrx | exact h_ltx | exact h_mgt | exact h_optLn | exact h_pwrLn | exact h_timLn

theorem State.bootValidated_onlyIn {l : List Block} {r : State} {s : State} {i : Image} (hk : OnlyIn l r s) (h_evf : Block.evf ∈ l) (h_glb : Block.glb ∈ l) (h_hif : Block.hif ∈ l) (h_hifGlb : Block.hifGlb ∈ l) (h_hlt : Block.hlt ∈ l) (h_hltLn : Block.hltLn ∈ l) (h_img : Block.img ∈ l) (h_leq : Block.leq ∈ l) (h_lfr : Block.lfr ∈ l) (h_lrx : Block.lrx ∈ l) (h_ltx : Block.ltx ∈ l) (h_mgt : Block.mgt ∈ l) (h_optLn : Block.optLn ∈ l) (h_pwrLn : Block.pwrLn ∈ l) (h_sec : Block.sec ∈ l) (h_timLn : Block.timLn ∈ l) :
    OnlyIn l r (State.bootValidated s i) := by
  unfold State.bootValidated
  repeat' first
    | intro _
    | (with_reducible first | assumption | exact OnlyIn.refl _ _ | apply State.raise_onlyIn | apply State.imgFail_onlyIn | apply State.wr_onlyIn | apply State.noImage_onlyIn | apply OnlyIn.puts_cons | apply OnlyIn.puts_nil | apply OnlyIn.cond)
    | extract_lets | dsimp only | split
    | (with_reducible first | apply OnlyIn.other)
    | exact h_evf | exact h_glb | exact h_hif | exact h_hifGlb | exact h_hlt | exact h_hltLn | exact h_img | exact h_leq | exact h_lfr | exact h_lrx | exact h_ltx | exact h_mgt | exact h_optLn | exact h_pwrLn | exact h_sec | exact h_timLn

theorem execImgValidationDone_onlyIn {l : List Block} {r : State} {f : ImageFile} {s : State} (hk : OnlyIn l r s) (h_evf : Block.evf ∈ l) (h_glb : Block.glb ∈ l) (h_hif : Block.hif ∈ l) (h_hifGlb : Block.hifGlb ∈ l) (h_hlt : Block.hlt ∈ l) (h_hltLn : Block.hltLn ∈ l) (h_img : Block.img ∈ l) (h_leq : Block.leq ∈ l) (h_lfr : Block.lfr ∈ l) (h_lrx : Block.lrx ∈ l) (h_ltx : Block.ltx ∈ l) (h_mgt : Block.mgt ∈ l) (h_optLn : Block.optLn ∈ l) (h_pwrLn : Block.pwrLn ∈ l) (h_sec : Block.sec ∈ l) (h_timLn : Block.timLn ∈ l) :
    OutOnlyIn l r (execImgValidationDone f s) := by
  unfold execImgValidationDone
  repeat' first
    | intro _
    | (with_reducible first | assumption | exact OnlyIn.refl _ _ | apply OutOnlyIn.next | apply State.bootValidated_onlyIn | apply State.wr_onlyIn | apply State.imgEnd_onlyIn | apply State.imgFail_onlyIn | apply OnlyIn.puts_cons | apply OnlyIn.puts_nil | apply OutOnlyIn.cond | apply OnlyIn.cond)
    | extract_lets | dsimp only | split
    | (with_reducible first | apply OnlyIn.other)
    | exact h_evf | exact h_glb | exact h_hif | exact h_hifGlb | exact h_hlt | exact h_hltLn | exact h_img | exact h_leq | exact h_lfr | exact h_lrx | exact h_ltx | exact h_mgt | exact h_optLn | exact h_pwrLn | exact h_sec | exact h_timLn

theorem execPcIsolate_onlyIn {l : List Block} {r : State} {s : State} (hk : OnlyIn l r s) (h_arcCl : Block.arcCl ∈ l) (h_evf : Block.evf ∈ l) (h_hlt : Block.hlt ∈ l) (h_img : Block.img ∈ l) :
    OutOnlyIn l r (execPcIsolate s) := by
  unfold execPcIsolate
  repeat' first
    | intro _
    | (with_reducible first | assumption | exact OnlyIn.refl _ _ | apply OutOnlyIn.next | apply State.wr_onlyIn | apply State.endTest_onlyIn | apply OnlyIn.each | apply OutOnlyIn.cond | apply OnlyIn.cond)
    | extract_lets | dsimp only | split | exact h_arcCl | exact h_evf | exact h_hlt | exact h_img

theorem execPcPause_onlyIn {l : List Block} {r : State} {n : Lane} {egress : Bool} {s : State} (hk : OnlyIn l r s) (h_img : Block.img ∈ l) (h_lfr : Block.lfr ∈ l) :
    OutOnlyIn l r (execPcPause n egress s) := by
  unfold execPcPause
  repeat' first
    | intro _
    | (with_reducible first | assumption | exact OnlyIn.refl _ _ | apply OutOnlyIn.next | apply State.setMask_onlyIn | apply State.fillMark_onlyIn | apply State.wr_onlyIn | apply OnlyIn.puts_cons | apply OnlyIn.puts_nil | apply OnlyIn.when | apply OutOnlyIn.cond | apply OnlyIn.cond)
    | extract_lets | dsimp only | split | exact h_img | exact h_lfr

theorem execPcTableWrite_onlyIn {l : List Block} {r : State} {s : State} (hk : OnlyIn l r s) (h_arc : Block.arc ∈ l) (h_arcCl : Block.arcCl ∈ l) (h_evf : Block.evf ∈ l) (h_hif : Block.hif ∈ l) (h_hifGlb : Block.hifGlb ∈ l) (h_hlt : Block.hlt ∈ l) (h_hltLn : Block.hltLn ∈ l) (h_img : Block.img ∈ l) (h_leq : Block.leq ∈ l) (h_lfr : Block.lfr ∈ l) (h_lrx : Block.lrx ∈ l) (h_ltx : Block.ltx ∈ l) (h_mgt : Block.mgt ∈ l) (h_optLn : Block.optLn ∈ l) (h_pwr : Block.pwr ∈ l) (h_pwrLn : Block.pwrLn ∈ l) (h_thm : Block.thm ∈ l) (h_timLn : Block.timLn ∈ l) :
    OutOnlyIn l r (execPcTableWrite s) := by
  unfold execPcTableWrite
  repeat' first
    | intro _
    | (with_reducible first | assumption | exact OnlyIn.refl _ _ | apply OutOnlyIn.next | apply State.loadStores_onlyIn | apply State.bgDone_onlyIn | apply State.pcTables_onlyIn | apply State.wr_onlyIn | apply State.dvfsKick_onlyIn | apply State.lrxFault_onlyIn | apply State.critStandby_onlyIn | apply State.enforce_onlyIn | apply OnlyIn.each | apply OnlyIn.when | apply OutOnlyIn.cond | apply OnlyIn.cond)
    | extract_lets | dsimp only | split
    | (with_reducible first | apply OnlyIn.other)
    | exact h_arc | exact h_arcCl | exact h_evf | exact h_hif | exact h_hifGlb | exact h_hlt | exact h_hltLn | exact h_img | exact h_leq | exact h_lfr | exact h_lrx | exact h_ltx | exact h_mgt | exact h_optLn | exact h_pwr | exact h_pwrLn | exact h_thm | exact h_timLn

theorem execPcResume_onlyIn {l : List Block} {r : State} {n : Lane} {egress : Bool} {s : State} (hk : OnlyIn l r s) (h_arc : Block.arc ∈ l) (h_arcCl : Block.arcCl ∈ l) (h_evf : Block.evf ∈ l) (h_img : Block.img ∈ l) (h_lfr : Block.lfr ∈ l) (h_mgt : Block.mgt ∈ l) :
    OutOnlyIn l r (execPcResume n egress s) := by
  unfold execPcResume
  repeat' first
    | intro _
    | (with_reducible first | assumption | exact OnlyIn.refl _ _ | apply OutOnlyIn.next | apply State.setMask_onlyIn | apply State.fillMark_onlyIn | apply State.bump_onlyIn | apply State.wr_onlyIn | apply State.pcFinish_onlyIn | apply OnlyIn.when | apply OutOnlyIn.cond | apply OnlyIn.cond)
    | extract_lets | dsimp only | split | exact h_arc | exact h_arcCl | exact h_evf | exact h_img | exact h_lfr | exact h_mgt

theorem execImgPcClr_onlyIn {l : List Block} {r : State} {s : State} (hk : OnlyIn l r s) (h_clk : Block.clk ∈ l) (h_glb : Block.glb ∈ l) (h_img : Block.img ∈ l) :
    OutOnlyIn l r (execImgPcClr s) := by
  unfold execImgPcClr
  repeat' first
    | intro _
    | (with_reducible first | assumption | exact OnlyIn.refl _ _ | apply OutOnlyIn.next | apply State.access_onlyIn | apply State.wr_onlyIn | apply OnlyIn.puts_cons | apply OnlyIn.puts_nil)
    | extract_lets | dsimp only | exact h_clk | exact h_glb | exact h_img

theorem State.putRecord_onlyIn {l : List Block} {r : State} {s : State} {c slot seq : Nat} (hk : OnlyIn l r s) :
    OnlyIn l r (State.putRecord s c slot seq) := by
  unfold State.putRecord
  repeat' first
    | intro _
    | (with_reducible first | assumption | exact OnlyIn.refl _ _ | apply State.nvmSet_onlyIn)
    | extract_lets

theorem State.spoilRecord_onlyIn {l : List Block} {r : State} {s : State} {c : Nat} (hk : OnlyIn l r s) :
    OnlyIn l r (State.spoilRecord s c) := by
  unfold State.spoilRecord
  repeat' first
    | intro _
    | (with_reducible first | assumption | exact OnlyIn.refl _ _ | apply State.nvmSet_onlyIn)
    | extract_lets

theorem execFlashWriteDone_onlyIn {l : List Block} {r : State} {bootRecord ok : Bool} {s : State} (hk : OnlyIn l r s) (h_evf : Block.evf ∈ l) (h_img : Block.img ∈ l) (h_mgt : Block.mgt ∈ l) :
    OutOnlyIn l r (execFlashWriteDone bootRecord ok s) := by
  unfold execFlashWriteDone
  repeat' first
    | intro _
    | (with_reducible first | assumption | exact OnlyIn.refl _ _ | apply OutOnlyIn.next | apply State.putRecord_onlyIn | apply State.imgEnd_onlyIn | apply State.spoilRecord_onlyIn | apply State.imgFail_onlyIn | apply State.wr_onlyIn | apply State.cdbEnd_onlyIn | apply OutOnlyIn.cond | apply OnlyIn.cond)
    | extract_lets | split | exact h_evf | exact h_img | exact h_mgt

theorem execWatchdogMiss_onlyIn {l : List Block} {r : State} {core : Fin 4} {s : State} (hk : OnlyIn l r s) (h_mgt : Block.mgt ∈ l) :
    OutOnlyIn l r (execWatchdogMiss core s) := by
  unfold execWatchdogMiss
  repeat' first
    | intro _
    | (with_reducible first | assumption | exact OnlyIn.refl _ _ | apply OutOnlyIn.next | apply State.raise_onlyIn | apply State.wr_onlyIn | apply OnlyIn.puts_cons | apply OnlyIn.puts_nil | apply OutOnlyIn.cond | apply OnlyIn.cond)
    | extract_lets | split | exact h_mgt

theorem execFwRestartDone_onlyIn {l : List Block} {r : State} {bytes : List (BitVec 8)} {s : State} (hk : OnlyIn l r s) (h_evf : Block.evf ∈ l) (h_glb : Block.glb ∈ l) (h_hif : Block.hif ∈ l) (h_hifGlb : Block.hifGlb ∈ l) (h_hlt : Block.hlt ∈ l) (h_hltLn : Block.hltLn ∈ l) (h_img : Block.img ∈ l) (h_leq : Block.leq ∈ l) (h_lfr : Block.lfr ∈ l) (h_lrx : Block.lrx ∈ l) (h_ltx : Block.ltx ∈ l) (h_mgt : Block.mgt ∈ l) (h_optLn : Block.optLn ∈ l) (h_pwrLn : Block.pwrLn ∈ l) (h_timLn : Block.timLn ∈ l) :
    OutOnlyIn l r (execFwRestartDone bytes s) := by
  unfold execFwRestartDone
  repeat' first
    | intro _
    | (with_reducible first | assumption | exact OnlyIn.refl _ _ | apply OutOnlyIn.next | apply State.wr_onlyIn | apply State.bump_onlyIn | apply State.raise_onlyIn | apply State.emit_onlyIn | apply State.noImage_onlyIn | apply OutOnlyIn.cond | apply OnlyIn.cond)
    | extract_lets | dsimp only | split | exact h_evf | exact h_glb | exact h_hif | exact h_hifGlb | exact h_hlt | exact h_hltLn | exact h_img | exact h_leq | exact h_lfr | exact h_lrx | exact h_ltx | exact h_mgt | exact h_optLn | exact h_pwrLn | exact h_timLn

end Sys2Proof.Machine
end

