-- ==== Sys2Proof/Laws/OnlyBoot.lean ====
section
/-!
SUPPORT. Which blocks the operations of Boot change.
-/
set_option Elab.async false
set_option linter.all false
namespace Sys2Proof.Machine

theorem execVddAonPowerGood_onlyIn {l : List Block} {r : State} {s : State} (hk : OnlyIn l r s) (h_glb : Block.glb ∈ l) (h_pwr : Block.pwr ∈ l) :
    OutOnlyIn l r (execVddAonPowerGood s) := by
  unfold execVddAonPowerGood
  repeat' first
    | intro _
    | (with_reducible first | assumption | exact OnlyIn.refl _ _ | apply OutOnlyIn.next | apply State.wr_onlyIn | apply OnlyIn.puts_cons | apply OnlyIn.puts_nil | apply OutOnlyIn.cond | apply OnlyIn.cond)
    | extract_lets | split | exact h_glb | exact h_pwr

theorem State.loadLifecycle_onlyIn {l : List Block} {r : State} {s : State} (hk : OnlyIn l r s) (h_glb : Block.glb ∈ l) (h_sec : Block.sec ∈ l) :
    OnlyIn l r (State.loadLifecycle s) := by
  unfold State.loadLifecycle
  repeat' first
    | intro _
    | (with_reducible first | assumption | exact OnlyIn.refl _ _ | apply State.wr_onlyIn | apply State.nvmSet_onlyIn | apply OnlyIn.puts_cons | apply OnlyIn.puts_nil | apply OnlyIn.cond)
    | extract_lets | split | exact h_glb | exact h_sec

theorem State.loadFloor_onlyIn {l : List Block} {r : State} {s : State} {ok : BitVec 3} (hk : OnlyIn l r s) (h_sec : Block.sec ∈ l) :
    OnlyIn l r (State.loadFloor s ok) := by
  unfold State.loadFloor
  repeat' first
    | intro _
    | (with_reducible first | assumption | exact OnlyIn.refl _ _ | apply State.wr_onlyIn | apply State.wrb_onlyIn | apply OnlyIn.foldl)
    | extract_lets | dsimp only | exact h_sec

theorem State.powerUpValues_onlyIn {l : List Block} {r : State} {s : State} (hk : OnlyIn l r s) (h_optLn : Block.optLn ∈ l) :
    OnlyIn l r (State.powerUpValues s) := by
  unfold State.powerUpValues
  repeat' first
    | intro _
    | (with_reducible first | assumption | exact OnlyIn.refl _ _ | apply State.wr_onlyIn | apply OnlyIn.puts_cons | apply OnlyIn.puts_nil | apply OnlyIn.each | apply OnlyIn.cond)
    | extract_lets | dsimp only | split | exact h_optLn

theorem State.loadFactory_onlyIn {l : List Block} {r : State} {s : State} {ok : Bool} (hk : OnlyIn l r s) (h_tim : Block.tim ∈ l) (h_timLn : Block.timLn ∈ l) :
    OnlyIn l r (State.loadFactory s ok) := by
  unfold State.loadFactory
  repeat' first
    | intro _
    | (with_reducible first | assumption | exact OnlyIn.refl _ _ | apply State.wr_onlyIn | apply OnlyIn.puts_cons | apply OnlyIn.puts_nil | apply OnlyIn.each | apply OnlyIn.cond)
    | extract_lets | dsimp only | split | exact h_tim | exact h_timLn

theorem State.loadPages_onlyIn {l : List Block} {r : State} {s : State} (hk : OnlyIn l r s) :
    OnlyIn l r (State.loadPages s) := by
  unfold State.loadPages
  repeat' first
    | intro _
    | (with_reducible first | assumption | exact OnlyIn.refl _ _ | apply OnlyIn.cond)
    | extract_lets | split
    | (with_reducible first | apply OnlyIn.other)

theorem execSupplyReady_onlyIn {l : List Block} {r : State} {voutLinear : Bool} {s : State} (hk : OnlyIn l r s) (h_arc : Block.arc ∈ l) (h_clk : Block.clk ∈ l) (h_evf : Block.evf ∈ l) (h_glb : Block.glb ∈ l) (h_img : Block.img ∈ l) (h_mgt : Block.mgt ∈ l) (h_pll : Block.pll ∈ l) (h_pwr : Block.pwr ∈ l) (h_tim : Block.tim ∈ l) :
    OutOnlyIn l r (execSupplyReady voutLinear s) := by
  unfold execSupplyReady
  repeat' first
    | intro _
    | (with_reducible first | assumption | exact OnlyIn.refl _ _ | apply OutOnlyIn.next | apply State.emit_onlyIn | apply State.raise_onlyIn | apply State.loadPages_onlyIn | apply State.pllCalStart_onlyIn | apply State.refreshRun_onlyIn | apply State.wr_onlyIn | apply OnlyIn.puts_cons | apply OnlyIn.puts_nil | apply OnlyIn.when | apply OutOnlyIn.cond | apply OnlyIn.cond)
    | extract_lets | dsimp only | split | exact h_arc | exact h_clk | exact h_evf | exact h_glb | exact h_img | exact h_mgt | exact h_pll | exact h_pwr | exact h_tim

theorem execWakeRetry_onlyIn {l : List Block} {r : State} {s : State} (hk : OnlyIn l r s) (h_pwr : Block.pwr ∈ l) :
    OutOnlyIn l r (execWakeRetry s) := by
  unfold execWakeRetry
  repeat' first
    | intro _
    | (with_reducible first | assumption | exact OnlyIn.refl _ _ | apply OutOnlyIn.next | apply State.wr_onlyIn | apply OnlyIn.puts_cons | apply OnlyIn.puts_nil | apply OutOnlyIn.cond | apply OnlyIn.cond)
    | extract_lets | split | exact h_pwr

theorem execDeepImageRereadDone_onlyIn {l : List Block} {r : State} {bytes : List (BitVec 8)} {recOk : Bool} {s : State} (hk : OnlyIn l r s) (h_glb : Block.glb ∈ l) (h_pwr : Block.pwr ∈ l) :
    OutOnlyIn l r (execDeepImageRereadDone bytes recOk s) := by
  unfold execDeepImageRereadDone
  repeat' first
    | intro _
    | (with_reducible first | assumption | exact OnlyIn.refl _ _ | apply OutOnlyIn.next | apply State.wr_onlyIn | apply State.raise_onlyIn | apply OnlyIn.puts_cons | apply OnlyIn.puts_nil | apply OutOnlyIn.cond | apply OnlyIn.cond)
    | extract_lets | dsimp only | split
    | (with_reducible first | apply OnlyIn.other)
    | exact h_glb | exact h_pwr

theorem State.startLanes_onlyIn {l : List Block} {r : State} {s : State} (hk : OnlyIn l r s) (h_evf : Block.evf ∈ l) (h_glb : Block.glb ∈ l) (h_hif : Block.hif ∈ l) (h_hifGlb : Block.hifGlb ∈ l) (h_hlt : Block.hlt ∈ l) (h_hltLn : Block.hltLn ∈ l) (h_leq : Block.leq ∈ l) (h_lfr : Block.lfr ∈ l) (h_lrx : Block.lrx ∈ l) (h_ltx : Block.ltx ∈ l) (h_mgt : Block.mgt ∈ l) (h_optLn : Block.optLn ∈ l) (h_pwr : Block.pwr ∈ l) (h_pwrLn : Block.pwrLn ∈ l) (h_timLn : Block.timLn ∈ l) :
    OnlyIn l r (State.startLanes s) := by
  unfold State.startLanes
  repeat' first
    | intro _
    | (with_reducible first | assumption | exact OnlyIn.refl _ _ | apply State.wr_onlyIn | apply State.standbyEnter_onlyIn | apply State.lrxEnableOn_onlyIn | apply State.ltxEnableOn_onlyIn | apply State.hifEnableOn_onlyIn | apply State.activeCheck_onlyIn | apply OnlyIn.puts_cons | apply OnlyIn.puts_nil | apply OnlyIn.each | apply OnlyIn.when | apply OnlyIn.cond)
    | extract_lets | dsimp only | split | exact h_evf | exact h_glb | exact h_hif | exact h_hifGlb | exact h_hlt | exact h_hltLn | exact h_leq | exact h_lfr | exact h_lrx | exact h_ltx | exact h_mgt | exact h_optLn | exact h_pwr | exact h_pwrLn | exact h_timLn

theorem State.pllsRestart_onlyIn {l : List Block} {r : State} {s : State} (hk : OnlyIn l r s) (h_arc : Block.arc ∈ l) (h_clk : Block.clk ∈ l) (h_evf : Block.evf ∈ l) (h_glb : Block.glb ∈ l) (h_img : Block.img ∈ l) (h_pll : Block.pll ∈ l) (h_tim : Block.tim ∈ l) :
    OnlyIn l r (State.pllsRestart s) := by
  unfold State.pllsRestart
  repeat' first
    | intro _
    | (with_reducible first | assumption | exact OnlyIn.refl _ _ | apply State.pllsOff_onlyIn | apply State.wr_onlyIn | apply State.pllCalStart_onlyIn)
    | extract_lets | exact h_arc | exact h_clk | exact h_evf | exact h_glb | exact h_img | exact h_pll | exact h_tim

theorem State.dropRecords_onlyIn {l : List Block} {r : State} {s : State} (hk : OnlyIn l r s) :
    OnlyIn l r (State.dropRecords s) := by
  unfold State.dropRecords
  repeat' first
    | intro _
    | (with_reducible first | assumption | exact OnlyIn.refl _ _)
    | extract_lets | dsimp only
    | (with_reducible first | apply OnlyIn.other)

theorem execBootBistDone_onlyIn {l : List Block} {r : State} {s : State} (hk : OnlyIn l r s) (h_evf : Block.evf ∈ l) (h_glb : Block.glb ∈ l) (h_hif : Block.hif ∈ l) (h_hifGlb : Block.hifGlb ∈ l) (h_hlt : Block.hlt ∈ l) (h_hltLn : Block.hltLn ∈ l) (h_img : Block.img ∈ l) (h_leq : Block.leq ∈ l) (h_lfr : Block.lfr ∈ l) (h_lrx : Block.lrx ∈ l) (h_ltx : Block.ltx ∈ l) (h_mgt : Block.mgt ∈ l) (h_optLn : Block.optLn ∈ l) (h_pwr : Block.pwr ∈ l) (h_pwrLn : Block.pwrLn ∈ l) (h_timLn : Block.timLn ∈ l) :
    OutOnlyIn l r (execBootBistDone s) := by
  unfold execBootBistDone
  repeat' first
    | intro _
    | (with_reducible first | assumption | exact OnlyIn.refl _ _ | apply OutOnlyIn.next | apply State.raise_onlyIn | apply State.wr_onlyIn | apply State.startLanes_onlyIn | apply OutOnlyIn.cond | apply OnlyIn.cond)
    | extract_lets | dsimp only | split
    | (with_reducible first | apply OnlyIn.other)
    | exact h_evf | exact h_glb | exact h_hif | exact h_hifGlb | exact h_hlt | exact h_hltLn | exact h_img | exact h_leq | exact h_lfr | exact h_lrx | exact h_ltx | exact h_mgt | exact h_optLn | exact h_pwr | exact h_pwrLn | exact h_timLn

end Sys2Proof.Machine
end

