-- ==== Sys2Proof/Laws/OnlyPages.lean ====
section
/-!
SUPPORT. Which blocks the operations of Pages change.
-/
set_option Elab.async false
set_option linter.all false
namespace Sys2Proof.Machine

theorem State.setCmisMask_onlyIn {l : List Block} {r : State} {s : State} {k : CmisFlag} {n : Nat} {b : Bool} (hk : OnlyIn l r s) (h_mgt : Block.mgt ∈ l) :
    OnlyIn l r (State.setCmisMask s k n b) := by
  unfold State.setCmisMask
  repeat' first
    | intro _
    | (with_reducible first | assumption | exact OnlyIn.refl _ _ | apply State.wrb_onlyIn | apply State.raise_onlyIn | apply OnlyIn.when)
    | extract_lets | dsimp only | exact h_mgt

theorem State.pageTouch_onlyIn {l : List Block} {r : State} {s : State} {bank page off : Nat} (hk : OnlyIn l r s) (h_mgt : Block.mgt ∈ l) :
    OnlyIn l r (State.pageTouch s bank page off) := by
  unfold State.pageTouch
  repeat' first
    | intro _
    | (with_reducible first | assumption | exact OnlyIn.refl _ _ | apply State.wr_onlyIn | apply OnlyIn.each | apply OnlyIn.cond)
    | extract_lets | dsimp only | split | exact h_mgt

theorem State.pageRead_onlyIn {l : List Block} {r : State} {s : State} {bank page off k : Nat} (hk : OnlyIn l r s) (h_mgt : Block.mgt ∈ l) :
    OnlyIn l r (State.pageRead s bank page off k).2 := by
  unfold State.pageRead
  repeat' first
    | intro _
    | (with_reducible first | assumption | exact OnlyIn.refl _ _ | apply State.pageTouch_onlyIn | apply OnlyIn.each)
    | extract_lets | dsimp only | exact h_mgt

theorem State.winWrite_onlyIn {l : List Block} {r : State} {s : State} {off v : Nat} (hk : OnlyIn l r s) :
    OnlyIn l r (State.winWrite s off v) := by
  unfold State.winWrite
  repeat' first
    | intro _
    | (with_reducible first | assumption | exact OnlyIn.refl _ _ | apply OnlyIn.cond)
    | extract_lets | split
    | (with_reducible first | apply OnlyIn.other)

theorem State.deviceWrite_onlyIn {l : List Block} {r : State} {s : State} {bank page off v : Nat} (hk : OnlyIn l r s) (h_mgt : Block.mgt ∈ l) :
    OnlyIn l r (State.deviceWrite s bank page off v) := by
  unfold State.deviceWrite
  repeat' first
    | intro _
    | (with_reducible first | assumption | exact OnlyIn.refl _ _ | apply State.winWrite_onlyIn | apply State.setCmisMask_onlyIn | apply OnlyIn.each | apply OnlyIn.cond)
    | extract_lets | dsimp only | split
    | (with_reducible first | apply OnlyIn.other)
    | exact h_mgt

theorem State.lowerWrite_onlyIn {l : List Block} {r : State} {s : State} {off v : Nat} (hk : OnlyIn l r s) (h_mgt : Block.mgt ∈ l) :
    OnlyIn l r (State.lowerWrite s off v) := by
  unfold State.lowerWrite
  repeat' first
    | intro _
    | (with_reducible first | assumption | exact OnlyIn.refl _ _ | apply State.wr_onlyIn | apply State.setCmisMask_onlyIn | apply OnlyIn.each | apply OnlyIn.cond | apply OnlyIn.cond_snd)
    | extract_lets | dsimp only | split
    | (with_reducible first | apply OnlyIn.other)
    | exact h_mgt

theorem State.pageWrite_onlyIn {l : List Block} {r : State} {s : State} {bank page off v : Nat} (hk : OnlyIn l r s) (h_mgt : Block.mgt ∈ l) :
    OnlyIn l r (State.pageWrite s bank page off v) := by
  unfold State.pageWrite
  repeat' first
    | intro _
    | (with_reducible first | assumption | exact OnlyIn.refl _ _ | apply State.lowerWrite_onlyIn | apply State.deviceWrite_onlyIn | apply OnlyIn.cond)
    | extract_lets | dsimp only | split
    | (with_reducible first | apply OnlyIn.other)
    | exact h_mgt

theorem State.pageWrites_onlyIn {bl : List Block} {r : State} {s : State} {bank page off : Nat} {l : List Nat} (hk : OnlyIn bl r s) (h_mgt : Block.mgt ∈ bl) :
    OnlyIn bl r (State.pageWrites s bank page off l) := by
  unfold State.pageWrites
  repeat' first
    | intro _
    | (with_reducible first | assumption | exact OnlyIn.refl _ _ | apply State.pageWrite_onlyIn | apply OnlyIn.each)
    | extract_lets | dsimp only | exact h_mgt

theorem State.mcHostWrite_onlyIn {bl : List Block} {r : State} {s : State} {bank page off : Nat} {l : List Nat} (hk : OnlyIn bl r s) (h_evf : Block.evf ∈ bl) (h_mgt : Block.mgt ∈ bl) :
    OnlyIn bl r (State.mcHostWrite s bank page off l) := by
  unfold State.mcHostWrite
  repeat' first
    | intro _
    | (with_reducible first | assumption | exact OnlyIn.refl _ _ | apply State.pageWrites_onlyIn | apply State.setMask_onlyIn | apply State.raise_onlyIn | apply State.emit_onlyIn)
    | extract_lets | dsimp only | split | exact h_evf | exact h_mgt

theorem State.windowSet_onlyIn {l : List Block} {r s : State} {a w : Nat} (hk : OnlyIn l r s) (h_mgt : Block.mgt ∈ l) :
    OptOnlyIn l r (s.windowSet a w) := by
  unfold State.windowSet
  cases windowPlace a with
  | none => exact OptOnlyIn.none
  | some p => exact OptOnlyIn.some (State.pageWrites_onlyIn hk h_mgt)

end Sys2Proof.Machine
end

