-- ==== Sys2Proof/Laws/OnlyBus.lean ====
section
/-!
SUPPORT. Which blocks the operations of Bus change.
-/
set_option Elab.async false
set_option linter.all false
namespace Sys2Proof.Machine

theorem State.readReg_onlyIn {l : List Block} {r0 : State} {s : State} {a : Nat} {r : Reg} (hk : OnlyIn l r0 s) :
    OnlyIn l r0 (State.readReg s a r).2 := by
  unfold State.readReg
  repeat' first
    | intro _
    | (with_reducible first | assumption | exact OnlyIn.refl _ _ | apply OnlyIn.foldl | apply OnlyIn.cond_snd | apply OnlyIn.cond | apply OptOnlyIn.getD)
    | extract_lets | dsimp only | split
    | (with_reducible first | apply OnlyIn.other)

theorem State.did_onlyIn {l : List Block} {r s : State} {g : State → Out} (hk : OnlyIn l r s)
    (hg : ∀ u, OnlyIn l r u → OutOnlyIn l r (g u)) : OnlyIn l r (s.did g) := by
  have h := hg s hk
  unfold State.did
  split
  · rename_i t e; exact h.elim e
  · exact hk
  · exact hk

theorem State.readAt_onlyIn {l : List Block} {r0 : State} {s : State} {a : Nat} {r : Reg} (hk : OnlyIn l r0 s) (h_clk : Block.clk ∈ l) (h_evf : Block.evf ∈ l) (h_glb : Block.glb ∈ l) (h_tim : Block.tim ∈ l) :
    OnlyIn l r0 (State.readAt s a r).2 := by
  unfold State.readAt
  repeat' first
    | intro _
    | (with_reducible first | assumption | exact OnlyIn.refl _ _ | apply State.evfPop_onlyIn | apply State.mbxPop_onlyIn | apply State.did_onlyIn | apply execTsfRead_onlyIn | apply State.readReg_onlyIn | apply State.free_onlyIn | apply OnlyIn.cond_snd | apply OnlyIn.cond)
    | extract_lets | dsimp only | split | exact h_clk | exact h_evf | exact h_glb | exact h_tim

theorem State.nvmWord_onlyIn {l : List Block} {r : State} {s : State} {a : Nat} (hk : OnlyIn l r s) :
    OnlyIn l r (State.nvmWord s a).2 := by
  unfold State.nvmWord
  repeat' first
    | intro _
    | (with_reducible first | assumption | exact OnlyIn.refl _ _ | apply State.free_onlyIn | apply OnlyIn.cond_snd | apply OnlyIn.cond)
    | extract_lets | dsimp only | split

theorem State.windowWord_onlyIn {l : List Block} {r s : State} {a : Nat} {q : Nat × State} (hk : OnlyIn l r s)
    (hq : s.windowWord a = some q) (h_mgt : Block.mgt ∈ l) : OnlyIn l r q.2 := by
  unfold State.windowWord at hq
  cases hp : windowPlace a with
  | none => rw [hp] at hq; simp at hq
  | some p =>
    rw [hp] at hq
    simp only [Option.map_some, Option.some.injEq] at hq
    subst hq
    apply State.pageRead_onlyIn <;> assumption

theorem readEnds_onlyIn {l : List Block} {r : State} {e : BusEnd} {q : Nat × State} (h : OnlyIn l r q.2) :
    OnlyIn l r (readEnds e q).2 := h

theorem State.busRead_onlyIn {l : List Block} {r s : State} {addr : Nat} (hk : OnlyIn l r s) (h_clk : Block.clk ∈ l)
    (h_evf : Block.evf ∈ l) (h_glb : Block.glb ∈ l) (h_mgt : Block.mgt ∈ l) (h_tim : Block.tim ∈ l) :
    OnlyIn l r (s.busRead addr).2 := by
  unfold State.busRead
  extract_lets a
  clear_value a
  with_reducible apply OnlyIn.cond_snd
  · split
    · rename_i q hq
      with_reducible apply readEnds_onlyIn
      exact State.windowWord_onlyIn hk hq h_mgt
    · with_reducible apply readEnds_onlyIn
      with_reducible apply State.busErr_onlyIn hk
      exact h_glb
  · with_reducible apply OnlyIn.cond_snd
    · with_reducible apply readEnds_onlyIn
      with_reducible apply State.nvmWord_onlyIn hk
    · split
      · with_reducible apply readEnds_onlyIn
        with_reducible apply State.busErr_onlyIn hk
        exact h_glb
      · with_reducible apply OnlyIn.cond_snd
        · with_reducible apply readEnds_onlyIn
          with_reducible apply State.readAt_onlyIn hk
          all_goals assumption
        · with_reducible apply readEnds_onlyIn
          with_reducible apply State.rgStopped_onlyIn hk
          all_goals assumption

theorem State.standbySw_onlyIn {l : List Block} {r : State} {s : State} {v : Nat} (hk : OnlyIn l r s) (h_clk : Block.clk ∈ l) (h_evf : Block.evf ∈ l) (h_glb : Block.glb ∈ l) (h_hif : Block.hif ∈ l) (h_hifGlb : Block.hifGlb ∈ l) (h_hlt : Block.hlt ∈ l) (h_hltLn : Block.hltLn ∈ l) (h_leq : Block.leq ∈ l) (h_lfr : Block.lfr ∈ l) (h_lrx : Block.lrx ∈ l) (h_ltx : Block.ltx ∈ l) (h_mgt : Block.mgt ∈ l) (h_pwr : Block.pwr ∈ l) (h_pwrLn : Block.pwrLn ∈ l) (h_timLn : Block.timLn ∈ l) :
    OnlyIn l r (State.standbySw s v) := by
  unfold State.standbySw
  repeat' first
    | intro _
    | (with_reducible first | assumption | exact OnlyIn.refl _ _ | apply State.did_onlyIn | apply execStandbySwWrite_onlyIn | apply State.wr_onlyIn | apply State.wakeHeld_onlyIn | apply State.standbyRelease_onlyIn | apply State.deviceAbandon_onlyIn | apply OnlyIn.cond)
    | extract_lets | split | exact h_clk | exact h_evf | exact h_glb | exact h_hif | exact h_hifGlb | exact h_hlt | exact h_hltLn | exact h_leq | exact h_lfr | exact h_lrx | exact h_ltx | exact h_mgt | exact h_pwr | exact h_pwrLn | exact h_timLn

theorem State.dpllSource_onlyIn {l : List Block} {r : State} {s : State} {v : Nat} (hk : OnlyIn l r s) (h_tim : Block.tim ∈ l) :
    OnlyIn l r (State.dpllSource s v) := by
  unfold State.dpllSource
  repeat' first
    | intro _
    | (with_reducible first | assumption | exact OnlyIn.refl _ _ | apply State.wr_onlyIn | apply OnlyIn.puts_cons | apply OnlyIn.puts_nil | apply OnlyIn.when | apply OnlyIn.cond)
    | extract_lets | dsimp only | split
    | (with_reducible first | apply OnlyIn.other)
    | exact h_tim

theorem State.basePut_onlyIn {l : List Block} {r : State} {s : State} {n k v : Nat} (hk : OnlyIn l r s) (h_optLn : Block.optLn ∈ l) :
    OnlyIn l r (State.basePut s n k v) := by
  unfold State.basePut
  repeat' first
    | intro _
    | (with_reducible first | assumption | exact OnlyIn.refl _ _ | apply State.wr_onlyIn | apply OnlyIn.puts_cons | apply OnlyIn.puts_nil | apply OnlyIn.cond)
    | extract_lets | split | exact h_optLn

theorem State.laneMaskPut_onlyIn {l : List Block} {r : State} {s : State} {v : Nat} (hk : OnlyIn l r s) (h_evf : Block.evf ∈ l) (h_hlt : Block.hlt ∈ l) (h_hltLn : Block.hltLn ∈ l) (h_ltx : Block.ltx ∈ l) (h_mgt : Block.mgt ∈ l) (h_optGlb : Block.optGlb ∈ l) (h_optLn : Block.optLn ∈ l) (h_pwrLn : Block.pwrLn ∈ l) :
    OnlyIn l r (State.laneMaskPut s v) := by
  unfold State.laneMaskPut
  repeat' first
    | intro _
    | (with_reducible first | assumption | exact OnlyIn.refl _ _ | apply State.wr_onlyIn | apply State.envTrip_onlyIn | apply OnlyIn.each | apply OnlyIn.cond)
    | extract_lets | dsimp only | split | exact h_evf | exact h_hlt | exact h_hltLn | exact h_ltx | exact h_mgt | exact h_optGlb | exact h_optLn | exact h_pwrLn

theorem State.monEnPut_onlyIn {l : List Block} {r : State} {s : State} {v : Nat} (hk : OnlyIn l r s) (h_mon : Block.mon ∈ l) (h_monCh : Block.monCh ∈ l) :
    OnlyIn l r (State.monEnPut s v) := by
  unfold State.monEnPut
  repeat' first
    | intro _
    | (with_reducible first | assumption | exact OnlyIn.refl _ _ | apply State.wr_onlyIn | apply State.monSwitch_onlyIn | apply OnlyIn.each)
    | extract_lets | dsimp only | exact h_mon | exact h_monCh

theorem State.monPut_onlyIn {l : List Block} {r : State} {s : State} {f : Field} {c v : Nat} (hk : OnlyIn l r s) (h_monCh : Block.monCh ∈ l) (hbf : f.desc.block ∈ l) :
    OnlyIn l r (State.monPut s f c v) := by
  unfold State.monPut
  repeat' first
    | intro _
    | (with_reducible first | assumption | exact OnlyIn.refl _ _ | apply State.wr_onlyIn | apply State.monSwitch_onlyIn | apply OnlyIn.cond)
    | extract_lets | split | exact h_monCh

theorem State.enablePut_onlyIn {l : List Block} {r : State} {s : State} {v : Nat} {on off : State → Out} (hk : OnlyIn l r s) (hgon : ∀ u, OnlyIn l r u → OutOnlyIn l r (on u)) (hgoff : ∀ u, OnlyIn l r u → OutOnlyIn l r (off u)) :
    OnlyIn l r (State.enablePut s v on off) := by
  unfold State.enablePut
  repeat' first
    | intro _
    | (with_reducible first | apply hgoff | apply hgon | assumption | exact OnlyIn.refl _ _ | apply State.did_onlyIn | apply OnlyIn.cond)
    | extract_lets | split

theorem State.sleepPut_onlyIn {l : List Block} {r : State} {s : State} {lane : Lane} {egress : Bool} {v : Nat} (hk : OnlyIn l r s) (h_clk : Block.clk ∈ l) (h_evf : Block.evf ∈ l) (h_glb : Block.glb ∈ l) (h_hif : Block.hif ∈ l) (h_hlt : Block.hlt ∈ l) (h_lrx : Block.lrx ∈ l) (h_ltx : Block.ltx ∈ l) (h_pwr : Block.pwr ∈ l) (h_pwrLn : Block.pwrLn ∈ l) :
    OnlyIn l r (State.sleepPut s lane egress v) := by
  unfold State.sleepPut
  repeat' first
    | intro _
    | (with_reducible first | assumption | exact OnlyIn.refl _ _ | apply State.enablePut_onlyIn | apply execSleepRequest_onlyIn | apply execSleepRequestClear_onlyIn | apply OnlyIn.cond)
    | extract_lets | split | exact h_clk | exact h_evf | exact h_glb | exact h_hif | exact h_hlt | exact h_lrx | exact h_ltx | exact h_pwr | exact h_pwrLn

theorem State.bistCmd_onlyIn {l : List Block} {r : State} {s : State} (hk : OnlyIn l r s) (h_evf : Block.evf ∈ l) (h_hlt : Block.hlt ∈ l) :
    OnlyIn l r (State.bistCmd s) := by
  unfold State.bistCmd
  repeat' first
    | intro _
    | (with_reducible first | assumption | exact OnlyIn.refl _ _ | apply State.bistGo_onlyIn)
    | extract_lets | exact h_evf | exact h_hlt

theorem State.todCmd_onlyIn {l : List Block} {r : State} {s : State} (hk : OnlyIn l r s) (h_clk : Block.clk ∈ l) (h_glb : Block.glb ∈ l) (h_tim : Block.tim ∈ l) (h_timLn : Block.timLn ∈ l) :
    OnlyIn l r (State.todCmd s) := by
  unfold State.todCmd
  repeat' first
    | intro _
    | (with_reducible first | assumption | exact OnlyIn.refl _ _ | apply State.did_onlyIn | apply execTodSetNow_onlyIn | apply execTodSetAtTimeIn_onlyIn | apply execTodStep_onlyIn | apply execTodSlew_onlyIn)
    | extract_lets | dsimp only | split | exact h_clk | exact h_glb | exact h_tim | exact h_timLn

theorem State.fabric_onlyIn {l : List Block} {r : State} {s : State} {g : State → State} (hk : OnlyIn l r s) (hgg : ∀ u, OnlyIn l r u → OnlyIn l r (g u)) :
    OnlyIn l r (State.fabric s g) := by
  unfold State.fabric
  repeat' first
    | intro _
    | (with_reducible first | apply hgg | assumption | exact OnlyIn.refl _ _ | apply OnlyIn.cond)
    | extract_lets | split

theorem execNarrowAccess_onlyIn {l : List Block} {r : State} {write : Bool} {s : State} (hk : OnlyIn l r s) (h_glb : Block.glb ∈ l) :
    OutOnlyIn l r (execNarrowAccess write s) := by
  unfold execNarrowAccess
  repeat' first
    | intro _
    | (with_reducible first | assumption | exact OnlyIn.refl _ _ | apply OutOnlyIn.next | apply State.fabric_onlyIn | apply State.busErr_onlyIn | apply State.answerWord_onlyIn | apply OutOnlyIn.cond | apply OnlyIn.cond)
    | extract_lets | dsimp only | split | exact h_glb

theorem execUnmappedAccess_onlyIn {l : List Block} {r : State} {a : Word} {write : Bool} {s : State} (hk : OnlyIn l r s) (h_glb : Block.glb ∈ l) :
    OutOnlyIn l r (execUnmappedAccess a write s) := by
  unfold execUnmappedAccess
  repeat' first
    | intro _
    | (with_reducible first | assumption | exact OnlyIn.refl _ _ | apply OutOnlyIn.next | apply State.fabric_onlyIn | apply State.busErr_onlyIn | apply State.answerWord_onlyIn | apply OutOnlyIn.cond | apply OnlyIn.cond)
    | extract_lets | dsimp only | split | exact h_glb

theorem execSnapshotRead_onlyIn {l : List Block} {r : State} {a : Word} {s : State} (hk : OnlyIn l r s) (h_clk : Block.clk ∈ l) (h_evf : Block.evf ∈ l) (h_glb : Block.glb ∈ l) (h_mgt : Block.mgt ∈ l) (h_tim : Block.tim ∈ l) :
    OutOnlyIn l r (execSnapshotRead a s) := by
  unfold execSnapshotRead
  repeat' first
    | intro _
    | (with_reducible first | assumption | exact OnlyIn.refl _ _ | apply OutOnlyIn.next | apply State.fabric_onlyIn | apply State.busRead_onlyIn | apply State.answerWord_onlyIn)
    | extract_lets | dsimp only | exact h_clk | exact h_evf | exact h_glb | exact h_mgt | exact h_tim

theorem execRgStoppedAccess_onlyIn {l : List Block} {r : State} {a : Word} {write : Bool} {s : State} (hk : OnlyIn l r s) (h_clk : Block.clk ∈ l) (h_glb : Block.glb ∈ l) :
    OutOnlyIn l r (execRgStoppedAccess a write s) := by
  unfold execRgStoppedAccess
  repeat' first
    | intro _
    | (with_reducible first | assumption | exact OnlyIn.refl _ _ | apply OutOnlyIn.next | apply State.fabric_onlyIn | apply State.rgStopped_onlyIn | apply State.answerWord_onlyIn | apply OutOnlyIn.cond | apply OnlyIn.cond)
    | extract_lets | dsimp only | split | exact h_clk | exact h_glb

end Sys2Proof.Machine
end

