-- ==== Sys2Proof/Laws/OnlyManagement.lean ====
section
/-!
SUPPORT. Which blocks the operations of Management change.
-/
set_option Elab.async false
set_option linter.all false
namespace Sys2Proof.Machine

theorem State.answers_onlyIn {bl : List Block} {r : State} {s : State} {l : List Nat} (hk : OnlyIn bl r s) :
    OnlyIn bl r (State.answers s l) := by
  unfold State.answers
  repeat' first
    | intro _
    | (with_reducible first | assumption | exact OnlyIn.refl _ _)
    | extract_lets
    | (with_reducible first | apply OnlyIn.other)

theorem State.hostBus_onlyIn {l : List Block} {r : State} {s : State} {target addr : Nat} {g : State → State} (hk : OnlyIn l r s) (h_evf : Block.evf ∈ l) (h_hif : Block.hif ∈ l) (h_hifGlb : Block.hifGlb ∈ l) (h_hlt : Block.hlt ∈ l) (h_hltLn : Block.hltLn ∈ l) (h_leq : Block.leq ∈ l) (h_lfr : Block.lfr ∈ l) (h_lrx : Block.lrx ∈ l) (h_ltx : Block.ltx ∈ l) (h_mgt : Block.mgt ∈ l) (h_pwr : Block.pwr ∈ l) (h_pwrLn : Block.pwrLn ∈ l) (h_timLn : Block.timLn ∈ l) (hgg : ∀ u, OnlyIn l r u → OnlyIn l r (g u)) :
    OnlyIn l r (State.hostBus s target addr g) := by
  unfold State.hostBus
  repeat' first
    | intro _
    | (with_reducible first | apply hgg | assumption | exact OnlyIn.refl _ _ | apply State.answers_onlyIn | apply State.wakeDevice_onlyIn | apply OnlyIn.when | apply OnlyIn.cond)
    | extract_lets | dsimp only | split | exact h_evf | exact h_hif | exact h_hifGlb | exact h_hlt | exact h_hltLn | exact h_leq | exact h_lfr | exact h_lrx | exact h_ltx | exact h_mgt | exact h_pwr | exact h_pwrLn | exact h_timLn

theorem State.hostWrite_onlyIn {l : List Block} {r : State} {s : State} {off : Nat} {data : List Nat} (hk : OnlyIn l r s) (h_evf : Block.evf ∈ l) (h_mgt : Block.mgt ∈ l) :
    OnlyIn l r (State.hostWrite s off data) := by
  unfold State.hostWrite
  repeat' first
    | intro _
    | (with_reducible first | assumption | exact OnlyIn.refl _ _ | apply State.answers_onlyIn | apply State.pageWrites_onlyIn | apply State.mcHostWrite_onlyIn | apply OnlyIn.cond)
    | extract_lets | split | exact h_evf | exact h_mgt

theorem execHostBusWrite_onlyIn {l : List Block} {r : State} {target : BitVec 7} {off : BitVec 8} {data : List (BitVec 8)} {s : State} (hk : OnlyIn l r s) (h_evf : Block.evf ∈ l) (h_hif : Block.hif ∈ l) (h_hifGlb : Block.hifGlb ∈ l) (h_hlt : Block.hlt ∈ l) (h_hltLn : Block.hltLn ∈ l) (h_leq : Block.leq ∈ l) (h_lfr : Block.lfr ∈ l) (h_lrx : Block.lrx ∈ l) (h_ltx : Block.ltx ∈ l) (h_mgt : Block.mgt ∈ l) (h_pwr : Block.pwr ∈ l) (h_pwrLn : Block.pwrLn ∈ l) (h_timLn : Block.timLn ∈ l) :
    OutOnlyIn l r (execHostBusWrite target off data s) := by
  unfold execHostBusWrite
  repeat' first
    | intro _
    | (with_reducible first | assumption | exact OnlyIn.refl _ _ | apply OutOnlyIn.next | apply State.hostBus_onlyIn | apply State.hostWrite_onlyIn)
    | extract_lets | dsimp only | exact h_evf | exact h_hif | exact h_hifGlb | exact h_hlt | exact h_hltLn | exact h_leq | exact h_lfr | exact h_lrx | exact h_ltx | exact h_mgt | exact h_pwr | exact h_pwrLn | exact h_timLn

theorem execHostBusRead_onlyIn {l : List Block} {r : State} {target : BitVec 7} {off : BitVec 8} {count : BitVec 9} {s : State} (hk : OnlyIn l r s) (h_evf : Block.evf ∈ l) (h_hif : Block.hif ∈ l) (h_hifGlb : Block.hifGlb ∈ l) (h_hlt : Block.hlt ∈ l) (h_hltLn : Block.hltLn ∈ l) (h_leq : Block.leq ∈ l) (h_lfr : Block.lfr ∈ l) (h_lrx : Block.lrx ∈ l) (h_ltx : Block.ltx ∈ l) (h_mgt : Block.mgt ∈ l) (h_pwr : Block.pwr ∈ l) (h_pwrLn : Block.pwrLn ∈ l) (h_timLn : Block.timLn ∈ l) :
    OutOnlyIn l r (execHostBusRead target off count s) := by
  unfold execHostBusRead
  repeat' first
    | intro _
    | (with_reducible first | assumption | exact OnlyIn.refl _ _ | apply OutOnlyIn.next | apply State.hostBus_onlyIn | apply State.pageRead_onlyIn | apply State.answers_onlyIn)
    | extract_lets | dsimp only | exact h_evf | exact h_hif | exact h_hifGlb | exact h_hlt | exact h_hltLn | exact h_leq | exact h_lfr | exact h_lrx | exact h_ltx | exact h_mgt | exact h_pwr | exact h_pwrLn | exact h_timLn

theorem State.i3cEnter_onlyIn {l : List Block} {r : State} {s : State} {dyn : Nat} (hk : OnlyIn l r s) (h_mgt : Block.mgt ∈ l) :
    OnlyIn l r (State.i3cEnter s dyn) := by
  unfold State.i3cEnter
  repeat' first
    | intro _
    | (with_reducible first | assumption | exact OnlyIn.refl _ _ | apply State.wr_onlyIn | apply OnlyIn.puts_cons | apply OnlyIn.puts_nil)
    | extract_lets | exact h_mgt

theorem execI3cEntdaa_onlyIn {l : List Block} {r : State} {dyn : BitVec 7} {s : State} (hk : OnlyIn l r s) (h_mgt : Block.mgt ∈ l) :
    OutOnlyIn l r (execI3cEntdaa dyn s) := by
  unfold execI3cEntdaa
  repeat' first
    | intro _
    | (with_reducible first | assumption | exact OnlyIn.refl _ _ | apply OutOnlyIn.next | apply State.i3cEnter_onlyIn | apply OutOnlyIn.cond | apply OnlyIn.cond)
    | extract_lets | split | exact h_mgt

theorem execI3cSetdasa_onlyIn {l : List Block} {r : State} {target dyn : BitVec 7} {s : State} (hk : OnlyIn l r s) (h_evf : Block.evf ∈ l) (h_hif : Block.hif ∈ l) (h_hifGlb : Block.hifGlb ∈ l) (h_hlt : Block.hlt ∈ l) (h_hltLn : Block.hltLn ∈ l) (h_leq : Block.leq ∈ l) (h_lfr : Block.lfr ∈ l) (h_lrx : Block.lrx ∈ l) (h_ltx : Block.ltx ∈ l) (h_mgt : Block.mgt ∈ l) (h_pwr : Block.pwr ∈ l) (h_pwrLn : Block.pwrLn ∈ l) (h_timLn : Block.timLn ∈ l) :
    OutOnlyIn l r (execI3cSetdasa target dyn s) := by
  unfold execI3cSetdasa
  repeat' first
    | intro _
    | (with_reducible first | assumption | exact OnlyIn.refl _ _ | apply OutOnlyIn.next | apply State.hostBus_onlyIn | apply State.answers_onlyIn | apply State.i3cEnter_onlyIn | apply OutOnlyIn.cond | apply OnlyIn.cond)
    | extract_lets | dsimp only | split | exact h_evf | exact h_hif | exact h_hifGlb | exact h_hlt | exact h_hltLn | exact h_leq | exact h_lfr | exact h_lrx | exact h_ltx | exact h_mgt | exact h_pwr | exact h_pwrLn | exact h_timLn

theorem State.i3c_onlyIn {l : List Block} {r : State} {s : State} {target : BitVec 7} {g : State → State} (hk : OnlyIn l r s) (h_evf : Block.evf ∈ l) (h_hif : Block.hif ∈ l) (h_hifGlb : Block.hifGlb ∈ l) (h_hlt : Block.hlt ∈ l) (h_hltLn : Block.hltLn ∈ l) (h_leq : Block.leq ∈ l) (h_lfr : Block.lfr ∈ l) (h_lrx : Block.lrx ∈ l) (h_ltx : Block.ltx ∈ l) (h_mgt : Block.mgt ∈ l) (h_pwr : Block.pwr ∈ l) (h_pwrLn : Block.pwrLn ∈ l) (h_timLn : Block.timLn ∈ l) (hgg : ∀ u, OnlyIn l r u → OnlyIn l r (g u)) :
    OnlyIn l r (State.i3c s target g) := by
  unfold State.i3c
  repeat' first
    | intro _
    | (with_reducible first | apply hgg | assumption | exact OnlyIn.refl _ _ | apply State.hostBus_onlyIn | apply State.answers_onlyIn | apply OnlyIn.cond)
    | extract_lets | dsimp only | split | exact h_evf | exact h_hif | exact h_hifGlb | exact h_hlt | exact h_hltLn | exact h_leq | exact h_lfr | exact h_lrx | exact h_ltx | exact h_mgt | exact h_pwr | exact h_pwrLn | exact h_timLn

theorem execI3cSetnewda_onlyIn {l : List Block} {r : State} {target dyn : BitVec 7} {s : State} (hk : OnlyIn l r s) (h_evf : Block.evf ∈ l) (h_hif : Block.hif ∈ l) (h_hifGlb : Block.hifGlb ∈ l) (h_hlt : Block.hlt ∈ l) (h_hltLn : Block.hltLn ∈ l) (h_leq : Block.leq ∈ l) (h_lfr : Block.lfr ∈ l) (h_lrx : Block.lrx ∈ l) (h_ltx : Block.ltx ∈ l) (h_mgt : Block.mgt ∈ l) (h_pwr : Block.pwr ∈ l) (h_pwrLn : Block.pwrLn ∈ l) (h_timLn : Block.timLn ∈ l) :
    OutOnlyIn l r (execI3cSetnewda target dyn s) := by
  unfold execI3cSetnewda
  repeat' first
    | intro _
    | (with_reducible first | assumption | exact OnlyIn.refl _ _ | apply OutOnlyIn.next | apply State.i3c_onlyIn | apply State.wr_onlyIn)
    | extract_lets | dsimp only | exact h_evf | exact h_hif | exact h_hifGlb | exact h_hlt | exact h_hltLn | exact h_leq | exact h_lfr | exact h_lrx | exact h_ltx | exact h_mgt | exact h_pwr | exact h_pwrLn | exact h_timLn

theorem execI3cRstdaa_onlyIn {l : List Block} {r : State} {s : State} (hk : OnlyIn l r s) (h_mgt : Block.mgt ∈ l) :
    OutOnlyIn l r (execI3cRstdaa s) := by
  unfold execI3cRstdaa
  repeat' first
    | intro _
    | (with_reducible first | assumption | exact OnlyIn.refl _ _ | apply OutOnlyIn.next | apply State.wr_onlyIn | apply OnlyIn.puts_cons | apply OnlyIn.puts_nil | apply OutOnlyIn.cond | apply OnlyIn.cond)
    | extract_lets | split | exact h_mgt

theorem execI3cGetpid_onlyIn {l : List Block} {r : State} {target : BitVec 7} {s : State} (hk : OnlyIn l r s) (h_evf : Block.evf ∈ l) (h_hif : Block.hif ∈ l) (h_hifGlb : Block.hifGlb ∈ l) (h_hlt : Block.hlt ∈ l) (h_hltLn : Block.hltLn ∈ l) (h_leq : Block.leq ∈ l) (h_lfr : Block.lfr ∈ l) (h_lrx : Block.lrx ∈ l) (h_ltx : Block.ltx ∈ l) (h_mgt : Block.mgt ∈ l) (h_pwr : Block.pwr ∈ l) (h_pwrLn : Block.pwrLn ∈ l) (h_timLn : Block.timLn ∈ l) :
    OutOnlyIn l r (execI3cGetpid target s) := by
  unfold execI3cGetpid
  repeat' first
    | intro _
    | (with_reducible first | assumption | exact OnlyIn.refl _ _ | apply OutOnlyIn.next | apply State.i3c_onlyIn | apply State.answers_onlyIn)
    | extract_lets | dsimp only | exact h_evf | exact h_hif | exact h_hifGlb | exact h_hlt | exact h_hltLn | exact h_leq | exact h_lfr | exact h_lrx | exact h_ltx | exact h_mgt | exact h_pwr | exact h_pwrLn | exact h_timLn

theorem execI3cGetbcr_onlyIn {l : List Block} {r : State} {target : BitVec 7} {s : State} (hk : OnlyIn l r s) (h_evf : Block.evf ∈ l) (h_hif : Block.hif ∈ l) (h_hifGlb : Block.hifGlb ∈ l) (h_hlt : Block.hlt ∈ l) (h_hltLn : Block.hltLn ∈ l) (h_leq : Block.leq ∈ l) (h_lfr : Block.lfr ∈ l) (h_lrx : Block.lrx ∈ l) (h_ltx : Block.ltx ∈ l) (h_mgt : Block.mgt ∈ l) (h_pwr : Block.pwr ∈ l) (h_pwrLn : Block.pwrLn ∈ l) (h_timLn : Block.timLn ∈ l) :
    OutOnlyIn l r (execI3cGetbcr target s) := by
  unfold execI3cGetbcr
  repeat' first
    | intro _
    | (with_reducible first | assumption | exact OnlyIn.refl _ _ | apply OutOnlyIn.next | apply State.i3c_onlyIn | apply State.answers_onlyIn)
    | extract_lets | dsimp only | exact h_evf | exact h_hif | exact h_hifGlb | exact h_hlt | exact h_hltLn | exact h_leq | exact h_lfr | exact h_lrx | exact h_ltx | exact h_mgt | exact h_pwr | exact h_pwrLn | exact h_timLn

theorem execI3cGetdcr_onlyIn {l : List Block} {r : State} {target : BitVec 7} {s : State} (hk : OnlyIn l r s) (h_evf : Block.evf ∈ l) (h_hif : Block.hif ∈ l) (h_hifGlb : Block.hifGlb ∈ l) (h_hlt : Block.hlt ∈ l) (h_hltLn : Block.hltLn ∈ l) (h_leq : Block.leq ∈ l) (h_lfr : Block.lfr ∈ l) (h_lrx : Block.lrx ∈ l) (h_ltx : Block.ltx ∈ l) (h_mgt : Block.mgt ∈ l) (h_pwr : Block.pwr ∈ l) (h_pwrLn : Block.pwrLn ∈ l) (h_timLn : Block.timLn ∈ l) :
    OutOnlyIn l r (execI3cGetdcr target s) := by
  unfold execI3cGetdcr
  repeat' first
    | intro _
    | (with_reducible first | assumption | exact OnlyIn.refl _ _ | apply OutOnlyIn.next | apply State.i3c_onlyIn | apply State.answers_onlyIn)
    | extract_lets | dsimp only | exact h_evf | exact h_hif | exact h_hifGlb | exact h_hlt | exact h_hltLn | exact h_leq | exact h_lfr | exact h_lrx | exact h_ltx | exact h_mgt | exact h_pwr | exact h_pwrLn | exact h_timLn

theorem execI3cGetstatus_onlyIn {l : List Block} {r : State} {target : BitVec 7} {s : State} (hk : OnlyIn l r s) (h_evf : Block.evf ∈ l) (h_hif : Block.hif ∈ l) (h_hifGlb : Block.hifGlb ∈ l) (h_hlt : Block.hlt ∈ l) (h_hltLn : Block.hltLn ∈ l) (h_leq : Block.leq ∈ l) (h_lfr : Block.lfr ∈ l) (h_lrx : Block.lrx ∈ l) (h_ltx : Block.ltx ∈ l) (h_mgt : Block.mgt ∈ l) (h_pwr : Block.pwr ∈ l) (h_pwrLn : Block.pwrLn ∈ l) (h_timLn : Block.timLn ∈ l) :
    OutOnlyIn l r (execI3cGetstatus target s) := by
  unfold execI3cGetstatus
  repeat' first
    | intro _
    | (with_reducible first | assumption | exact OnlyIn.refl _ _ | apply OutOnlyIn.next | apply State.i3c_onlyIn | apply State.free_onlyIn | apply State.answers_onlyIn)
    | extract_lets | dsimp only | exact h_evf | exact h_hif | exact h_hifGlb | exact h_hlt | exact h_hltLn | exact h_leq | exact h_lfr | exact h_lrx | exact h_ltx | exact h_mgt | exact h_pwr | exact h_pwrLn | exact h_timLn

theorem execI3cGetmwl_onlyIn {l : List Block} {r : State} {target : BitVec 7} {s : State} (hk : OnlyIn l r s) (h_evf : Block.evf ∈ l) (h_hif : Block.hif ∈ l) (h_hifGlb : Block.hifGlb ∈ l) (h_hlt : Block.hlt ∈ l) (h_hltLn : Block.hltLn ∈ l) (h_leq : Block.leq ∈ l) (h_lfr : Block.lfr ∈ l) (h_lrx : Block.lrx ∈ l) (h_ltx : Block.ltx ∈ l) (h_mgt : Block.mgt ∈ l) (h_pwr : Block.pwr ∈ l) (h_pwrLn : Block.pwrLn ∈ l) (h_timLn : Block.timLn ∈ l) :
    OutOnlyIn l r (execI3cGetmwl target s) := by
  unfold execI3cGetmwl
  repeat' first
    | intro _
    | (with_reducible first | assumption | exact OnlyIn.refl _ _ | apply OutOnlyIn.next | apply State.i3c_onlyIn | apply State.answers_onlyIn)
    | extract_lets | dsimp only | exact h_evf | exact h_hif | exact h_hifGlb | exact h_hlt | exact h_hltLn | exact h_leq | exact h_lfr | exact h_lrx | exact h_ltx | exact h_mgt | exact h_pwr | exact h_pwrLn | exact h_timLn

theorem execI3cSetmwl_onlyIn {l : List Block} {r : State} {target : BitVec 7} {v : BitVec 16} {s : State} (hk : OnlyIn l r s) (h_evf : Block.evf ∈ l) (h_hif : Block.hif ∈ l) (h_hifGlb : Block.hifGlb ∈ l) (h_hlt : Block.hlt ∈ l) (h_hltLn : Block.hltLn ∈ l) (h_leq : Block.leq ∈ l) (h_lfr : Block.lfr ∈ l) (h_lrx : Block.lrx ∈ l) (h_ltx : Block.ltx ∈ l) (h_mgt : Block.mgt ∈ l) (h_pwr : Block.pwr ∈ l) (h_pwrLn : Block.pwrLn ∈ l) (h_timLn : Block.timLn ∈ l) :
    OutOnlyIn l r (execI3cSetmwl target v s) := by
  unfold execI3cSetmwl
  repeat' first
    | intro _
    | (with_reducible first | assumption | exact OnlyIn.refl _ _ | apply OutOnlyIn.next | apply State.i3c_onlyIn | apply State.wr_onlyIn)
    | extract_lets | dsimp only | exact h_evf | exact h_hif | exact h_hifGlb | exact h_hlt | exact h_hltLn | exact h_leq | exact h_lfr | exact h_lrx | exact h_ltx | exact h_mgt | exact h_pwr | exact h_pwrLn | exact h_timLn

theorem execI3cGetmrl_onlyIn {l : List Block} {r : State} {target : BitVec 7} {s : State} (hk : OnlyIn l r s) (h_evf : Block.evf ∈ l) (h_hif : Block.hif ∈ l) (h_hifGlb : Block.hifGlb ∈ l) (h_hlt : Block.hlt ∈ l) (h_hltLn : Block.hltLn ∈ l) (h_leq : Block.leq ∈ l) (h_lfr : Block.lfr ∈ l) (h_lrx : Block.lrx ∈ l) (h_ltx : Block.ltx ∈ l) (h_mgt : Block.mgt ∈ l) (h_pwr : Block.pwr ∈ l) (h_pwrLn : Block.pwrLn ∈ l) (h_timLn : Block.timLn ∈ l) :
    OutOnlyIn l r (execI3cGetmrl target s) := by
  unfold execI3cGetmrl
  repeat' first
    | intro _
    | (with_reducible first | assumption | exact OnlyIn.refl _ _ | apply OutOnlyIn.next | apply State.i3c_onlyIn | apply State.answers_onlyIn)
    | extract_lets | dsimp only | exact h_evf | exact h_hif | exact h_hifGlb | exact h_hlt | exact h_hltLn | exact h_leq | exact h_lfr | exact h_lrx | exact h_ltx | exact h_mgt | exact h_pwr | exact h_pwrLn | exact h_timLn

theorem execI3cSetmrl_onlyIn {l : List Block} {r : State} {target : BitVec 7} {v : BitVec 16} {s : State} (hk : OnlyIn l r s) (h_evf : Block.evf ∈ l) (h_hif : Block.hif ∈ l) (h_hifGlb : Block.hifGlb ∈ l) (h_hlt : Block.hlt ∈ l) (h_hltLn : Block.hltLn ∈ l) (h_leq : Block.leq ∈ l) (h_lfr : Block.lfr ∈ l) (h_lrx : Block.lrx ∈ l) (h_ltx : Block.ltx ∈ l) (h_mgt : Block.mgt ∈ l) (h_pwr : Block.pwr ∈ l) (h_pwrLn : Block.pwrLn ∈ l) (h_timLn : Block.timLn ∈ l) :
    OutOnlyIn l r (execI3cSetmrl target v s) := by
  unfold execI3cSetmrl
  repeat' first
    | intro _
    | (with_reducible first | assumption | exact OnlyIn.refl _ _ | apply OutOnlyIn.next | apply State.i3c_onlyIn | apply State.wr_onlyIn)
    | extract_lets | dsimp only | exact h_evf | exact h_hif | exact h_hifGlb | exact h_hlt | exact h_hltLn | exact h_leq | exact h_lfr | exact h_lrx | exact h_ltx | exact h_mgt | exact h_pwr | exact h_pwrLn | exact h_timLn

theorem execI3cUnsupportedCcc_onlyIn {l : List Block} {r : State} {s : State} (hk : OnlyIn l r s) :
    OutOnlyIn l r (execI3cUnsupportedCcc s) := by
  unfold execI3cUnsupportedCcc
  repeat' first
    | intro _
    | (with_reducible first | assumption | exact OnlyIn.refl _ _ | apply OutOnlyIn.next | apply State.answers_onlyIn)
    | extract_lets

theorem execMcPageHostWrite_onlyIn {l : List Block} {r : State} {bank : BitVec 1} {page : BitVec 8} {off : BitVec 7} {data : List (BitVec 8)} {s : State} (hk : OnlyIn l r s) (h_evf : Block.evf ∈ l) (h_mgt : Block.mgt ∈ l) :
    OutOnlyIn l r (execMcPageHostWrite bank page off data s) := by
  unfold execMcPageHostWrite
  repeat' first
    | intro _
    | (with_reducible first | assumption | exact OnlyIn.refl _ _ | apply OutOnlyIn.next | apply State.mcHostWrite_onlyIn | apply OutOnlyIn.cond | apply OnlyIn.cond)
    | extract_lets | split | exact h_evf | exact h_mgt

theorem State.winDone_onlyIn {l : List Block} {r s : State} {status : Nat} (hk : OnlyIn l r s) :
    OnlyIn l r (s.winDone status) := by
  unfold State.winDone
  exact OnlyIn.other hk

theorem execWindowRead_onlyIn {l : List Block} {r : State} {s : State} (hk : OnlyIn l r s) (h_clk : Block.clk ∈ l) (h_evf : Block.evf ∈ l) (h_glb : Block.glb ∈ l) (h_mgt : Block.mgt ∈ l) (h_tim : Block.tim ∈ l) :
    OutOnlyIn l r (execWindowRead s) := by
  unfold execWindowRead
  repeat' first
    | intro _
    | (with_reducible first | assumption | exact OnlyIn.refl _ _ | apply OutOnlyIn.next | apply State.winDone_onlyIn | apply State.busRead_onlyIn | apply OutOnlyIn.cond | apply OnlyIn.cond | apply OnlyIn.cond_snd)
    | extract_lets | dsimp only | split
    | (with_reducible first | apply OnlyIn.other)
    | exact h_clk | exact h_evf | exact h_glb | exact h_mgt | exact h_tim

theorem State.spi_onlyIn {l : List Block} {r : State} {s : State} {g : State → State} (hk : OnlyIn l r s) (h_evf : Block.evf ∈ l) (h_hif : Block.hif ∈ l) (h_hifGlb : Block.hifGlb ∈ l) (h_hlt : Block.hlt ∈ l) (h_hltLn : Block.hltLn ∈ l) (h_leq : Block.leq ∈ l) (h_lfr : Block.lfr ∈ l) (h_lrx : Block.lrx ∈ l) (h_ltx : Block.ltx ∈ l) (h_mgt : Block.mgt ∈ l) (h_pwr : Block.pwr ∈ l) (h_pwrLn : Block.pwrLn ∈ l) (h_timLn : Block.timLn ∈ l) (hgg : ∀ u, OnlyIn l r u → OnlyIn l r (g u)) :
    OnlyIn l r (State.spi s g) := by
  unfold State.spi
  repeat' first
    | intro _
    | (with_reducible first | apply hgg | assumption | exact OnlyIn.refl _ _ | apply State.wakeDevice_onlyIn | apply State.answers_onlyIn | apply OnlyIn.when | apply OnlyIn.cond)
    | extract_lets | dsimp only | split | exact h_evf | exact h_hif | exact h_hifGlb | exact h_hlt | exact h_hltLn | exact h_leq | exact h_lfr | exact h_lrx | exact h_ltx | exact h_mgt | exact h_pwr | exact h_pwrLn | exact h_timLn

theorem State.readMany_onlyIn {bl : List Block} {r s : State} {l : List Nat} (hk : OnlyIn bl r s) (h_clk : Block.clk ∈ bl)
    (h_evf : Block.evf ∈ bl) (h_glb : Block.glb ∈ bl) (h_mgt : Block.mgt ∈ bl) (h_tim : Block.tim ∈ bl) :
    OnlyIn bl r (s.readMany l).2 := by
  unfold State.readMany
  with_reducible apply OnlyIn.foldl_snd
  · exact hk
  · intro a u hu
    dsimp only
    with_reducible apply State.busRead_onlyIn hu
    all_goals assumption

theorem execSpiRead_onlyIn {l : List Block} {r : State} {a : Word} {count : BitVec 10} {s : State} (hk : OnlyIn l r s) (h_clk : Block.clk ∈ l) (h_evf : Block.evf ∈ l) (h_glb : Block.glb ∈ l) (h_hif : Block.hif ∈ l) (h_hifGlb : Block.hifGlb ∈ l) (h_hlt : Block.hlt ∈ l) (h_hltLn : Block.hltLn ∈ l) (h_leq : Block.leq ∈ l) (h_lfr : Block.lfr ∈ l) (h_lrx : Block.lrx ∈ l) (h_ltx : Block.ltx ∈ l) (h_mgt : Block.mgt ∈ l) (h_pwr : Block.pwr ∈ l) (h_pwrLn : Block.pwrLn ∈ l) (h_tim : Block.tim ∈ l) (h_timLn : Block.timLn ∈ l) :
    OutOnlyIn l r (execSpiRead a count s) := by
  unfold execSpiRead
  repeat' first
    | intro _
    | (with_reducible first | assumption | exact OnlyIn.refl _ _ | apply OutOnlyIn.next | apply State.spi_onlyIn | apply State.readMany_onlyIn | apply State.answers_onlyIn)
    | extract_lets | dsimp only | exact h_clk | exact h_evf | exact h_glb | exact h_hif | exact h_hifGlb | exact h_hlt | exact h_hltLn | exact h_leq | exact h_lfr | exact h_lrx | exact h_ltx | exact h_mgt | exact h_pwr | exact h_pwrLn | exact h_tim | exact h_timLn

theorem execSpiUnknownCmd_onlyIn {l : List Block} {r : State} {s : State} (hk : OnlyIn l r s) (h_evf : Block.evf ∈ l) (h_hif : Block.hif ∈ l) (h_hifGlb : Block.hifGlb ∈ l) (h_hlt : Block.hlt ∈ l) (h_hltLn : Block.hltLn ∈ l) (h_leq : Block.leq ∈ l) (h_lfr : Block.lfr ∈ l) (h_lrx : Block.lrx ∈ l) (h_ltx : Block.ltx ∈ l) (h_mgt : Block.mgt ∈ l) (h_pwr : Block.pwr ∈ l) (h_pwrLn : Block.pwrLn ∈ l) (h_timLn : Block.timLn ∈ l) :
    OutOnlyIn l r (execSpiUnknownCmd s) := by
  unfold execSpiUnknownCmd
  repeat' first
    | intro _
    | (with_reducible first | assumption | exact OnlyIn.refl _ _ | apply OutOnlyIn.next | apply State.spi_onlyIn | apply State.raise_onlyIn | apply State.answers_onlyIn)
    | extract_lets | dsimp only | exact h_evf | exact h_hif | exact h_hifGlb | exact h_hlt | exact h_hltLn | exact h_leq | exact h_lfr | exact h_lrx | exact h_ltx | exact h_mgt | exact h_pwr | exact h_pwrLn | exact h_timLn

theorem execCmisDpdeinit_onlyIn {l : List Block} {r : State} {n : Lane} {v : Bool} {s : State} (hk : OnlyIn l r s) (h_clk : Block.clk ∈ l) (h_evf : Block.evf ∈ l) (h_glb : Block.glb ∈ l) (h_hif : Block.hif ∈ l) (h_hifGlb : Block.hifGlb ∈ l) (h_hlt : Block.hlt ∈ l) (h_hltLn : Block.hltLn ∈ l) (h_leq : Block.leq ∈ l) (h_lfr : Block.lfr ∈ l) (h_lrx : Block.lrx ∈ l) (h_ltx : Block.ltx ∈ l) (h_mgt : Block.mgt ∈ l) (h_optLn : Block.optLn ∈ l) (h_pwr : Block.pwr ∈ l) (h_pwrLn : Block.pwrLn ∈ l) (h_timLn : Block.timLn ∈ l) :
    OutOnlyIn l r (execCmisDpdeinit n v s) := by
  unfold execCmisDpdeinit
  repeat' first
    | intro _
    | (with_reducible first | assumption | exact OnlyIn.refl _ _ | apply OutOnlyIn.next | apply State.setMask_onlyIn | apply State.cmis_onlyIn | apply State.did_onlyIn | apply execTxDisable_onlyIn | apply execLrxDisable_onlyIn | apply execLrxEnable_onlyIn | apply execTxEnableRequest_onlyIn | apply OnlyIn.when | apply OutOnlyIn.cond | apply OnlyIn.cond)
    | extract_lets | dsimp only | split | exact h_clk | exact h_evf | exact h_glb | exact h_hif | exact h_hifGlb | exact h_hlt | exact h_hltLn | exact h_leq | exact h_lfr | exact h_lrx | exact h_ltx | exact h_mgt | exact h_optLn | exact h_pwr | exact h_pwrLn | exact h_timLn

theorem execCmisApplyDpinit_onlyIn {l : List Block} {r : State} {n : Lane} {c : ControlSet} {s : State} (hk : OnlyIn l r s) (h_clk : Block.clk ∈ l) (h_evf : Block.evf ∈ l) (h_glb : Block.glb ∈ l) (h_hif : Block.hif ∈ l) (h_hlt : Block.hlt ∈ l) (h_hltLn : Block.hltLn ∈ l) (h_leq : Block.leq ∈ l) (h_lrx : Block.lrx ∈ l) (h_ltx : Block.ltx ∈ l) (h_optLn : Block.optLn ∈ l) (h_pwrLn : Block.pwrLn ∈ l) :
    OutOnlyIn l r (execCmisApplyDpinit n c s) := by
  unfold execCmisApplyDpinit
  repeat' first
    | intro _
    | (with_reducible first | assumption | exact OnlyIn.refl _ _ | apply OutOnlyIn.next | apply State.access_onlyIn | apply State.presetWrite_onlyIn | apply State.wr_onlyIn | apply State.did_onlyIn | apply execHifCommit_onlyIn | apply execLrxCommit_onlyIn | apply execLeqCommit_onlyIn | apply execLtxCommit_onlyIn | apply State.enablePut_onlyIn | apply execTxEnableRequest_onlyIn | apply execTxDisable_onlyIn | apply OnlyIn.puts_cons | apply OnlyIn.puts_nil | apply OnlyIn.each | apply OutOnlyIn.cond | apply OnlyIn.cond)
    | (refine State.configSettle_onlyIn ?_ (by decide) (by assumption) (by assumption) (by assumption) (by assumption) (by assumption)) | extract_lets | dsimp only | split | exact h_clk | exact h_evf | exact h_glb | exact h_hif | exact h_hlt | exact h_hltLn | exact h_leq | exact h_lrx | exact h_ltx | exact h_optLn | exact h_pwrLn

theorem State.cdb_onlyIn {l : List Block} {r : State} {s : State} {rom password : Bool} {g : State → State} (hk : OnlyIn l r s) (h_mgt : Block.mgt ∈ l) (hgg : ∀ u, OnlyIn l r u → OnlyIn l r (g u)) :
    OnlyIn l r (State.cdb s rom password g) := by
  unfold State.cdb
  repeat' first
    | intro _
    | (with_reducible first | apply hgg | assumption | exact OnlyIn.refl _ _ | apply State.wr_onlyIn | apply State.cdbEnd_onlyIn | apply OnlyIn.cond)
    | extract_lets | split | exact h_mgt

theorem State.cdbImage_onlyIn {l : List Block} {r : State} {s : State} {op slot lead : Nat} (hk : OnlyIn l r s) (h_arcCl : Block.arcCl ∈ l) (h_evf : Block.evf ∈ l) (h_hif : Block.hif ∈ l) (h_hifGlb : Block.hifGlb ∈ l) (h_hlt : Block.hlt ∈ l) (h_hltLn : Block.hltLn ∈ l) (h_img : Block.img ∈ l) (h_leq : Block.leq ∈ l) (h_lfr : Block.lfr ∈ l) (h_lrx : Block.lrx ∈ l) (h_ltx : Block.ltx ∈ l) (h_mgt : Block.mgt ∈ l) (h_optLn : Block.optLn ∈ l) (h_pwrLn : Block.pwrLn ∈ l) (h_timLn : Block.timLn ∈ l) :
    OnlyIn l r (State.cdbImage s op slot lead) := by
  unfold State.cdbImage
  repeat' first
    | intro _
    | (with_reducible first | assumption | exact OnlyIn.refl _ _ | apply State.free_onlyIn | apply State.imgGo_onlyIn | apply State.wr_onlyIn | apply State.cdbEnd_onlyIn | apply OnlyIn.puts_cons | apply OnlyIn.puts_nil | apply OnlyIn.cond)
    | extract_lets | split | exact h_arcCl | exact h_evf | exact h_hif | exact h_hifGlb | exact h_hlt | exact h_hltLn | exact h_img | exact h_leq | exact h_lfr | exact h_lrx | exact h_ltx | exact h_mgt | exact h_optLn | exact h_pwrLn | exact h_timLn

theorem State.cdbFlashStart_onlyIn {l : List Block} {r : State} {s : State} (hk : OnlyIn l r s) (h_mgt : Block.mgt ∈ l) :
    OnlyIn l r (State.cdbFlashStart s) := by
  unfold State.cdbFlashStart
  repeat' first
    | intro _
    | (with_reducible first | assumption | exact OnlyIn.refl _ _ | apply State.wr_onlyIn | apply OnlyIn.puts_cons | apply OnlyIn.puts_nil)
    | extract_lets | exact h_mgt

theorem execCdbQueryStatus_onlyIn {l : List Block} {r : State} {s : State} (hk : OnlyIn l r s) :
    OutOnlyIn l r (execCdbQueryStatus s) := by
  unfold execCdbQueryStatus
  repeat' first
    | intro _
    | (with_reducible first | assumption | exact OnlyIn.refl _ _ | apply OutOnlyIn.next | apply State.answers_onlyIn | apply OutOnlyIn.cond | apply OnlyIn.cond)
    | extract_lets | split

theorem execCdbEnterPassword_onlyIn {l : List Block} {r : State} {pw : Word} {s : State} (hk : OnlyIn l r s) (h_mgt : Block.mgt ∈ l) :
    OutOnlyIn l r (execCdbEnterPassword pw s) := by
  unfold execCdbEnterPassword
  repeat' first
    | intro _
    | (with_reducible first | assumption | exact OnlyIn.refl _ _ | apply OutOnlyIn.next | apply State.cdb_onlyIn | apply State.wr_onlyIn | apply State.cdbEnd_onlyIn | apply OutOnlyIn.cond | apply OnlyIn.cond)
    | extract_lets | dsimp only | split | exact h_mgt

theorem execCdbChangePassword_onlyIn {l : List Block} {r : State} {pw : Word} {s : State} (hk : OnlyIn l r s) (h_mgt : Block.mgt ∈ l) (h_sec : Block.sec ∈ l) :
    OutOnlyIn l r (execCdbChangePassword pw s) := by
  unfold execCdbChangePassword
  repeat' first
    | intro _
    | (with_reducible first | assumption | exact OnlyIn.refl _ _ | apply OutOnlyIn.next | apply State.cdb_onlyIn | apply State.cdbEnd_onlyIn | apply State.setMask_onlyIn | apply State.wr_onlyIn | apply OnlyIn.puts_cons | apply OnlyIn.puts_nil | apply OutOnlyIn.cond | apply OnlyIn.cond)
    | extract_lets | dsimp only | split | exact h_mgt | exact h_sec

theorem execCdbAbort_onlyIn {l : List Block} {r : State} {s : State} (hk : OnlyIn l r s) (h_mgt : Block.mgt ∈ l) :
    OutOnlyIn l r (execCdbAbort s) := by
  unfold execCdbAbort
  repeat' first
    | intro _
    | (with_reducible first | assumption | exact OnlyIn.refl _ _ | apply OutOnlyIn.next | apply State.wr_onlyIn | apply State.cdbEnd_onlyIn | apply OutOnlyIn.cond | apply OnlyIn.cond)
    | extract_lets | split | exact h_mgt

theorem execCdbModuleFeatures_onlyIn {l : List Block} {r : State} {s : State} (hk : OnlyIn l r s) (h_mgt : Block.mgt ∈ l) :
    OutOnlyIn l r (execCdbModuleFeatures s) := by
  unfold execCdbModuleFeatures
  repeat' first
    | intro _
    | (with_reducible first | assumption | exact OnlyIn.refl _ _ | apply OutOnlyIn.next | apply State.cdb_onlyIn | apply State.answers_onlyIn | apply State.cdbEnd_onlyIn)
    | extract_lets | dsimp only | exact h_mgt

theorem execCdbFwMgmtFeatures_onlyIn {l : List Block} {r : State} {s : State} (hk : OnlyIn l r s) (h_mgt : Block.mgt ∈ l) :
    OutOnlyIn l r (execCdbFwMgmtFeatures s) := by
  unfold execCdbFwMgmtFeatures
  repeat' first
    | intro _
    | (with_reducible first | assumption | exact OnlyIn.refl _ _ | apply OutOnlyIn.next | apply State.cdb_onlyIn | apply State.answers_onlyIn | apply State.cdbEnd_onlyIn)
    | extract_lets | dsimp only | exact h_mgt

theorem execCdbGetFwInfo_onlyIn {l : List Block} {r : State} {a b : List (BitVec 8)} {s : State} (hk : OnlyIn l r s) (h_mgt : Block.mgt ∈ l) :
    OutOnlyIn l r (execCdbGetFwInfo a b s) := by
  unfold execCdbGetFwInfo
  repeat' first
    | intro _
    | (with_reducible first | assumption | exact OnlyIn.refl _ _ | apply OutOnlyIn.next | apply State.cdb_onlyIn | apply State.answers_onlyIn | apply State.cdbEnd_onlyIn)
    | extract_lets | dsimp only | exact h_mgt

theorem execCdbStartFwDownload_onlyIn {l : List Block} {r : State} {size : Word} {s : State} (hk : OnlyIn l r s) (h_mgt : Block.mgt ∈ l) :
    OutOnlyIn l r (execCdbStartFwDownload size s) := by
  unfold execCdbStartFwDownload
  repeat' first
    | intro _
    | (with_reducible first | assumption | exact OnlyIn.refl _ _ | apply OutOnlyIn.next | apply State.cdb_onlyIn | apply State.cdbEnd_onlyIn | apply State.nvmSet_onlyIn | apply State.cdbFlashStart_onlyIn | apply State.wr_onlyIn | apply OnlyIn.puts_cons | apply OnlyIn.puts_nil | apply OutOnlyIn.cond | apply OnlyIn.cond)
    | extract_lets | dsimp only | split | exact h_mgt

theorem execCdbAbortFwDownload_onlyIn {l : List Block} {r : State} {s : State} (hk : OnlyIn l r s) (h_mgt : Block.mgt ∈ l) :
    OutOnlyIn l r (execCdbAbortFwDownload s) := by
  unfold execCdbAbortFwDownload
  repeat' first
    | intro _
    | (with_reducible first | assumption | exact OnlyIn.refl _ _ | apply OutOnlyIn.next | apply State.cdb_onlyIn | apply State.wr_onlyIn | apply State.cdbEnd_onlyIn | apply OutOnlyIn.cond | apply OnlyIn.cond)
    | extract_lets | dsimp only | split | exact h_mgt

theorem State.cdbBlock_onlyIn {l : List Block} {r : State} {s : State} {off len most : Nat} (hk : OnlyIn l r s) (h_mgt : Block.mgt ∈ l) :
    OnlyIn l r (State.cdbBlock s off len most) := by
  unfold State.cdbBlock
  repeat' first
    | intro _
    | (with_reducible first | assumption | exact OnlyIn.refl _ _ | apply State.cdbEnd_onlyIn | apply State.cdbFlashStart_onlyIn | apply OnlyIn.cond)
    | extract_lets | split | exact h_mgt

theorem execCdbWriteFwBlockLpl_onlyIn {l : List Block} {r : State} {off : Word} {len : BitVec 8} {s : State} (hk : OnlyIn l r s) (h_mgt : Block.mgt ∈ l) :
    OutOnlyIn l r (execCdbWriteFwBlockLpl off len s) := by
  unfold execCdbWriteFwBlockLpl
  repeat' first
    | intro _
    | (with_reducible first | assumption | exact OnlyIn.refl _ _ | apply OutOnlyIn.next | apply State.cdb_onlyIn | apply State.cdbBlock_onlyIn)
    | extract_lets | dsimp only | exact h_mgt

theorem execCdbWriteFwBlockEpl_onlyIn {l : List Block} {r : State} {off : Word} {len : BitVec 12} {s : State} (hk : OnlyIn l r s) (h_mgt : Block.mgt ∈ l) :
    OutOnlyIn l r (execCdbWriteFwBlockEpl off len s) := by
  unfold execCdbWriteFwBlockEpl
  repeat' first
    | intro _
    | (with_reducible first | assumption | exact OnlyIn.refl _ _ | apply OutOnlyIn.next | apply State.cdb_onlyIn | apply State.cdbBlock_onlyIn)
    | extract_lets | dsimp only | exact h_mgt

theorem execCdbCompleteFwDownload_onlyIn {l : List Block} {r : State} {s : State} (hk : OnlyIn l r s) (h_arcCl : Block.arcCl ∈ l) (h_evf : Block.evf ∈ l) (h_hif : Block.hif ∈ l) (h_hifGlb : Block.hifGlb ∈ l) (h_hlt : Block.hlt ∈ l) (h_hltLn : Block.hltLn ∈ l) (h_img : Block.img ∈ l) (h_leq : Block.leq ∈ l) (h_lfr : Block.lfr ∈ l) (h_lrx : Block.lrx ∈ l) (h_ltx : Block.ltx ∈ l) (h_mgt : Block.mgt ∈ l) (h_optLn : Block.optLn ∈ l) (h_pwrLn : Block.pwrLn ∈ l) (h_timLn : Block.timLn ∈ l) :
    OutOnlyIn l r (execCdbCompleteFwDownload s) := by
  unfold execCdbCompleteFwDownload
  repeat' first
    | intro _
    | (with_reducible first | assumption | exact OnlyIn.refl _ _ | apply OutOnlyIn.next | apply State.cdb_onlyIn | apply State.wr_onlyIn | apply State.nvmSet_onlyIn | apply State.setMask_onlyIn | apply State.cdbImage_onlyIn | apply State.cdbEnd_onlyIn | apply OutOnlyIn.cond | apply OnlyIn.cond)
    | extract_lets | dsimp only | split | exact h_arcCl | exact h_evf | exact h_hif | exact h_hifGlb | exact h_hlt | exact h_hltLn | exact h_img | exact h_leq | exact h_lfr | exact h_lrx | exact h_ltx | exact h_mgt | exact h_optLn | exact h_pwrLn | exact h_timLn

theorem execCdbRunFwImage_onlyIn {l : List Block} {r : State} {s : State} (hk : OnlyIn l r s) (h_arcCl : Block.arcCl ∈ l) (h_evf : Block.evf ∈ l) (h_hif : Block.hif ∈ l) (h_hifGlb : Block.hifGlb ∈ l) (h_hlt : Block.hlt ∈ l) (h_hltLn : Block.hltLn ∈ l) (h_img : Block.img ∈ l) (h_leq : Block.leq ∈ l) (h_lfr : Block.lfr ∈ l) (h_lrx : Block.lrx ∈ l) (h_ltx : Block.ltx ∈ l) (h_mgt : Block.mgt ∈ l) (h_optLn : Block.optLn ∈ l) (h_pwrLn : Block.pwrLn ∈ l) (h_timLn : Block.timLn ∈ l) :
    OutOnlyIn l r (execCdbRunFwImage s) := by
  unfold execCdbRunFwImage
  repeat' first
    | intro _
    | (with_reducible first | assumption | exact OnlyIn.refl _ _ | apply OutOnlyIn.next | apply State.cdb_onlyIn | apply State.cdbImage_onlyIn)
    | extract_lets | dsimp only | exact h_arcCl | exact h_evf | exact h_hif | exact h_hifGlb | exact h_hlt | exact h_hltLn | exact h_img | exact h_leq | exact h_lfr | exact h_lrx | exact h_ltx | exact h_mgt | exact h_optLn | exact h_pwrLn | exact h_timLn

theorem execCdbCommitFwImage_onlyIn {l : List Block} {r : State} {s : State} (hk : OnlyIn l r s) (h_arcCl : Block.arcCl ∈ l) (h_evf : Block.evf ∈ l) (h_hif : Block.hif ∈ l) (h_hifGlb : Block.hifGlb ∈ l) (h_hlt : Block.hlt ∈ l) (h_hltLn : Block.hltLn ∈ l) (h_img : Block.img ∈ l) (h_leq : Block.leq ∈ l) (h_lfr : Block.lfr ∈ l) (h_lrx : Block.lrx ∈ l) (h_ltx : Block.ltx ∈ l) (h_mgt : Block.mgt ∈ l) (h_optLn : Block.optLn ∈ l) (h_pwrLn : Block.pwrLn ∈ l) (h_timLn : Block.timLn ∈ l) :
    OutOnlyIn l r (execCdbCommitFwImage s) := by
  unfold execCdbCommitFwImage
  repeat' first
    | intro _
    | (with_reducible first | assumption | exact OnlyIn.refl _ _ | apply OutOnlyIn.next | apply State.cdb_onlyIn | apply State.cdbImage_onlyIn)
    | extract_lets | dsimp only | exact h_arcCl | exact h_evf | exact h_hif | exact h_hifGlb | exact h_hlt | exact h_hltLn | exact h_img | exact h_leq | exact h_lfr | exact h_lrx | exact h_ltx | exact h_mgt | exact h_optLn | exact h_pwrLn | exact h_timLn

theorem execCdbTxTapRequest_onlyIn {l : List Block} {r : State} {n : Lane} {taps : List Int} {s : State} (hk : OnlyIn l r s) (h_lfr : Block.lfr ∈ l) (h_mgt : Block.mgt ∈ l) :
    OutOnlyIn l r (execCdbTxTapRequest n taps s) := by
  unfold execCdbTxTapRequest
  repeat' first
    | intro _
    | (with_reducible first | assumption | exact OnlyIn.refl _ _ | apply OutOnlyIn.next | apply State.cdb_onlyIn | apply State.svcSend_onlyIn | apply State.cdbEnd_onlyIn | apply State.wr_onlyIn | apply OnlyIn.puts_cons | apply OnlyIn.puts_nil | apply OutOnlyIn.cond | apply OnlyIn.cond)
    | extract_lets | dsimp only | split | exact h_lfr | exact h_mgt

theorem execCdbTxTapTimeout_onlyIn {l : List Block} {r : State} {s : State} (hk : OnlyIn l r s) (h_mgt : Block.mgt ∈ l) :
    OutOnlyIn l r (execCdbTxTapTimeout s) := by
  unfold execCdbTxTapTimeout
  repeat' first
    | intro _
    | (with_reducible first | assumption | exact OnlyIn.refl _ _ | apply OutOnlyIn.next | apply State.cdbEnd_onlyIn | apply OutOnlyIn.cond | apply OnlyIn.cond)
    | extract_lets | split | exact h_mgt

theorem execCdbPartialCommit_onlyIn {l : List Block} {r : State} {lead : Lane} {s : State} (hk : OnlyIn l r s) (h_arcCl : Block.arcCl ∈ l) (h_evf : Block.evf ∈ l) (h_hif : Block.hif ∈ l) (h_hifGlb : Block.hifGlb ∈ l) (h_hlt : Block.hlt ∈ l) (h_hltLn : Block.hltLn ∈ l) (h_img : Block.img ∈ l) (h_leq : Block.leq ∈ l) (h_lfr : Block.lfr ∈ l) (h_lrx : Block.lrx ∈ l) (h_ltx : Block.ltx ∈ l) (h_mgt : Block.mgt ∈ l) (h_optLn : Block.optLn ∈ l) (h_pwrLn : Block.pwrLn ∈ l) (h_timLn : Block.timLn ∈ l) :
    OutOnlyIn l r (execCdbPartialCommit lead s) := by
  unfold execCdbPartialCommit
  repeat' first
    | intro _
    | (with_reducible first | assumption | exact OnlyIn.refl _ _ | apply OutOnlyIn.next | apply State.cdb_onlyIn | apply State.cdbImage_onlyIn)
    | extract_lets | dsimp only | exact h_arcCl | exact h_evf | exact h_hif | exact h_hifGlb | exact h_hlt | exact h_hltLn | exact h_img | exact h_leq | exact h_lfr | exact h_lrx | exact h_ltx | exact h_mgt | exact h_optLn | exact h_pwrLn | exact h_timLn

theorem execCdbUnsupported_onlyIn {l : List Block} {r : State} {s : State} (hk : OnlyIn l r s) (h_mgt : Block.mgt ∈ l) :
    OutOnlyIn l r (execCdbUnsupported s) := by
  unfold execCdbUnsupported
  repeat' first
    | intro _
    | (with_reducible first | assumption | exact OnlyIn.refl _ _ | apply OutOnlyIn.next | apply State.cdb_onlyIn | apply State.cdbEnd_onlyIn)
    | extract_lets | dsimp only | exact h_mgt

theorem State.msgRead_onlyIn {l : List Block} {r s : State} {a k : Nat} (hk : OnlyIn l r s) (h_clk : Block.clk ∈ l)
    (h_evf : Block.evf ∈ l) (h_glb : Block.glb ∈ l) (h_mgt : Block.mgt ∈ l) (h_tim : Block.tim ∈ l) :
    OnlyIn l r (s.msgRead a k).2 := by
  induction k generalizing s a with
  | zero => exact hk
  | succ k ih =>
    have hb : OnlyIn l r (s.busRead a).2 := by apply State.busRead_onlyIn hk <;> assumption
    unfold State.msgRead
    dsimp only
    split
    · exact hk
    · split
      · exact hb
      · exact ih hb

theorem execMsgRegRead_onlyIn {l : List Block} {r : State} {s : State} (hk : OnlyIn l r s) (h_clk : Block.clk ∈ l) (h_evf : Block.evf ∈ l) (h_glb : Block.glb ∈ l) (h_mgt : Block.mgt ∈ l) (h_tim : Block.tim ∈ l) :
    OutOnlyIn l r (execMsgRegRead s) := by
  unfold execMsgRegRead
  repeat' first
    | intro _
    | (with_reducible first | assumption | exact OnlyIn.refl _ _ | apply OutOnlyIn.next | apply State.mbxTake_onlyIn | apply State.mbxReply_onlyIn | apply State.msgRead_onlyIn | apply OutOnlyIn.cond | apply OnlyIn.cond | apply OnlyIn.cond_snd | apply OptOnlyIn.getD)
    | extract_lets | dsimp only | split | exact h_clk | exact h_evf | exact h_glb | exact h_mgt | exact h_tim

end Sys2Proof.Machine
end

