-- ==== Sys2Proof/Laws/OnlySupply.lean ====
section
/-!
SUPPORT. Which blocks the operations of Supply change.
-/
set_option Elab.async false
set_option linter.all false
namespace Sys2Proof.Machine

theorem State.commitsHeld_onlyIn {l : List Block} {r : State} {s : State} {n : Nat} (hk : OnlyIn l r s) (h_leq : Block.leq ∈ l) (h_ltx : Block.ltx ∈ l) :
    OnlyIn l r (State.commitsHeld s n) := by
  unfold State.commitsHeld
  repeat' first
    | intro _
    | (with_reducible first | assumption | exact OnlyIn.refl _ _ | apply State.raise_onlyIn | apply OnlyIn.when)
    | extract_lets | dsimp only | exact h_leq | exact h_ltx

theorem State.swapDefer_onlyIn {l : List Block} {r : State} {s : State} {n : Nat} (hk : OnlyIn l r s) (h_lrx : Block.lrx ∈ l) :
    OnlyIn l r (State.swapDefer s n) := by
  unfold State.swapDefer
  repeat' first
    | intro _
    | (with_reducible first | assumption | exact OnlyIn.refl _ _ | apply State.wr_onlyIn | apply OnlyIn.when)
    | extract_lets | dsimp only | exact h_lrx

theorem State.setPointBits_onlyIn {l : List Block} {r : State} {s : State} {rail : Nat} (hk : OnlyIn l r s) :
    OnlyIn l r (State.setPointBits s rail).2 := by
  unfold State.setPointBits
  repeat' first
    | intro _
    | (with_reducible first | assumption | exact OnlyIn.refl _ _ | apply State.free_onlyIn | apply OnlyIn.cond_snd | apply OnlyIn.cond)
    | extract_lets | dsimp only

theorem State.warnBegin_onlyIn {l : List Block} {r : State} {s : State} {rail level : Nat} (hk : OnlyIn l r s) (h_arc : Block.arc ∈ l) (h_clk : Block.clk ∈ l) (h_evf : Block.evf ∈ l) (h_glb : Block.glb ∈ l) (h_hif : Block.hif ∈ l) (h_hifGlb : Block.hifGlb ∈ l) (h_hlt : Block.hlt ∈ l) (h_hltLn : Block.hltLn ∈ l) (h_leq : Block.leq ∈ l) (h_lfr : Block.lfr ∈ l) (h_lrx : Block.lrx ∈ l) (h_ltx : Block.ltx ∈ l) (h_mgt : Block.mgt ∈ l) (h_optLn : Block.optLn ∈ l) (h_pll : Block.pll ∈ l) (h_pwr : Block.pwr ∈ l) (h_pwrLn : Block.pwrLn ∈ l) (h_tim : Block.tim ∈ l) (h_timLn : Block.timLn ∈ l) :
    OnlyIn l r (State.warnBegin s rail level) := by
  unfold State.warnBegin
  repeat' first
    | intro _
    | (with_reducible first | assumption | exact OnlyIn.refl _ _ | apply State.bump_onlyIn | apply State.raise_onlyIn | apply State.setPointBits_onlyIn | apply State.emit_onlyIn | apply State.wr_onlyIn | apply State.commitsHeld_onlyIn | apply State.swapDefer_onlyIn | apply State.leqFollow_onlyIn | apply State.cmis_onlyIn | apply State.faultEvent_onlyIn | apply OnlyIn.puts_cons | apply OnlyIn.puts_nil | apply OnlyIn.each | apply OnlyIn.when)
    | extract_lets | dsimp only | exact h_arc | exact h_clk | exact h_evf | exact h_glb | exact h_hif | exact h_hifGlb | exact h_hlt | exact h_hltLn | exact h_leq | exact h_lfr | exact h_lrx | exact h_ltx | exact h_mgt | exact h_optLn | exact h_pll | exact h_pwr | exact h_pwrLn | exact h_tim | exact h_timLn | (unfold phaseField; split <;> assumption)

theorem State.vddIoSeen_onlyIn {l : List Block} {r : State} {s : State} {rail mv : Nat} (hk : OnlyIn l r s) (h_pwr : Block.pwr ∈ l) :
    OnlyIn l r (State.vddIoSeen s rail mv) := by
  unfold State.vddIoSeen
  repeat' first
    | intro _
    | (with_reducible first | assumption | exact OnlyIn.refl _ _ | apply State.wr_onlyIn | apply OnlyIn.cond)
    | extract_lets | split | exact h_pwr

theorem execSupplyWarningStart_onlyIn {l : List Block} {r : State} {rail : Fin 7} {mv : BitVec 12} {s : State} (hk : OnlyIn l r s) (h_arc : Block.arc ∈ l) (h_clk : Block.clk ∈ l) (h_evf : Block.evf ∈ l) (h_glb : Block.glb ∈ l) (h_hif : Block.hif ∈ l) (h_hifGlb : Block.hifGlb ∈ l) (h_hlt : Block.hlt ∈ l) (h_hltLn : Block.hltLn ∈ l) (h_leq : Block.leq ∈ l) (h_lfr : Block.lfr ∈ l) (h_lrx : Block.lrx ∈ l) (h_ltx : Block.ltx ∈ l) (h_mgt : Block.mgt ∈ l) (h_optLn : Block.optLn ∈ l) (h_pll : Block.pll ∈ l) (h_pwr : Block.pwr ∈ l) (h_pwrLn : Block.pwrLn ∈ l) (h_tim : Block.tim ∈ l) (h_timLn : Block.timLn ∈ l) :
    OutOnlyIn l r (execSupplyWarningStart rail mv s) := by
  unfold execSupplyWarningStart
  repeat' first
    | intro _
    | (with_reducible first | assumption | exact OnlyIn.refl _ _ | apply OutOnlyIn.next | apply State.setMask_onlyIn | apply State.vddIoSeen_onlyIn | apply State.wr_onlyIn | apply State.warnBegin_onlyIn | apply OutOnlyIn.cond | apply OnlyIn.cond)
    | extract_lets | split | exact h_arc | exact h_clk | exact h_evf | exact h_glb | exact h_hif | exact h_hifGlb | exact h_hlt | exact h_hltLn | exact h_leq | exact h_lfr | exact h_lrx | exact h_ltx | exact h_mgt | exact h_optLn | exact h_pll | exact h_pwr | exact h_pwrLn | exact h_tim | exact h_timLn

theorem State.laneRelease_onlyIn {l : List Block} {r : State} {s : State} {n : Nat} (hk : OnlyIn l r s) (h_evf : Block.evf ∈ l) (h_hlt : Block.hlt ∈ l) (h_hltLn : Block.hltLn ∈ l) (h_leq : Block.leq ∈ l) (h_lrx : Block.lrx ∈ l) (h_ltx : Block.ltx ∈ l) (h_mgt : Block.mgt ∈ l) (h_optLn : Block.optLn ∈ l) (h_pwrLn : Block.pwrLn ∈ l) :
    OnlyIn l r (State.laneRelease s n) := by
  unfold State.laneRelease
  repeat' first
    | intro _
    | (with_reducible first | assumption | exact OnlyIn.refl _ _ | apply State.dacCalRelease_onlyIn | apply State.rxBoundary_onlyIn | apply State.txBoundary_onlyIn | apply State.leqFollow_onlyIn | apply State.wr_onlyIn | apply OnlyIn.puts_cons | apply OnlyIn.puts_nil | apply OnlyIn.when)
    | extract_lets | dsimp only | exact h_evf | exact h_hlt | exact h_hltLn | exact h_leq | exact h_lrx | exact h_ltx | exact h_mgt | exact h_optLn | exact h_pwrLn

theorem State.pllRelease_onlyIn {l : List Block} {r : State} {s : State} {p : Nat} (hk : OnlyIn l r s) (h_clk : Block.clk ∈ l) (h_evf : Block.evf ∈ l) (h_glb : Block.glb ∈ l) (h_hlt : Block.hlt ∈ l) (h_hltLn : Block.hltLn ∈ l) (h_ltx : Block.ltx ∈ l) (h_optLn : Block.optLn ∈ l) (h_pll : Block.pll ∈ l) (h_pwrLn : Block.pwrLn ∈ l) :
    OnlyIn l r (State.pllRelease s p) := by
  unfold State.pllRelease
  repeat' first
    | intro _
    | (with_reducible first | assumption | exact OnlyIn.refl _ _ | apply State.setMask_onlyIn | apply State.wr_onlyIn | apply State.pllRequest_onlyIn | apply State.pllCalLocked_onlyIn | apply OnlyIn.puts_cons | apply OnlyIn.puts_nil | apply OnlyIn.when | apply OnlyIn.cond)
    | extract_lets | dsimp only | split | exact h_clk | exact h_evf | exact h_glb | exact h_hlt | exact h_hltLn | exact h_ltx | exact h_optLn | exact h_pll | exact h_pwrLn

theorem State.warnEnd_onlyIn {l : List Block} {r : State} {s : State} (hk : OnlyIn l r s) (h_clk : Block.clk ∈ l) (h_evf : Block.evf ∈ l) (h_glb : Block.glb ∈ l) (h_hif : Block.hif ∈ l) (h_hlt : Block.hlt ∈ l) (h_hltLn : Block.hltLn ∈ l) (h_leq : Block.leq ∈ l) (h_lrx : Block.lrx ∈ l) (h_ltx : Block.ltx ∈ l) (h_mgt : Block.mgt ∈ l) (h_optLn : Block.optLn ∈ l) (h_pll : Block.pll ∈ l) (h_pwr : Block.pwr ∈ l) (h_pwrLn : Block.pwrLn ∈ l) :
    OnlyIn l r (State.warnEnd s) := by
  unfold State.warnEnd
  repeat' first
    | intro _
    | (with_reducible first | assumption | exact OnlyIn.refl _ _ | apply State.wr_onlyIn | apply State.raise_onlyIn | apply State.emit_onlyIn | apply State.laneRelease_onlyIn | apply State.hifApply_onlyIn | apply State.pllRelease_onlyIn | apply State.writeVout_onlyIn | apply State.dvfsKick_onlyIn | apply State.dacAdmit_onlyIn | apply State.adcAdmit_onlyIn | apply OnlyIn.each | apply OnlyIn.when)
    | extract_lets | dsimp only | split | exact h_clk | exact h_evf | exact h_glb | exact h_hif | exact h_hlt | exact h_hltLn | exact h_leq | exact h_lrx | exact h_ltx | exact h_mgt | exact h_optLn | exact h_pll | exact h_pwr | exact h_pwrLn

theorem execSupplyWarningEnd_onlyIn {l : List Block} {r : State} {rail : Fin 7} {lowest mv : BitVec 12} {s : State} (hk : OnlyIn l r s) (h_clk : Block.clk ∈ l) (h_evf : Block.evf ∈ l) (h_glb : Block.glb ∈ l) (h_hif : Block.hif ∈ l) (h_hlt : Block.hlt ∈ l) (h_hltLn : Block.hltLn ∈ l) (h_leq : Block.leq ∈ l) (h_lrx : Block.lrx ∈ l) (h_ltx : Block.ltx ∈ l) (h_mgt : Block.mgt ∈ l) (h_optLn : Block.optLn ∈ l) (h_pll : Block.pll ∈ l) (h_pwr : Block.pwr ∈ l) (h_pwrLn : Block.pwrLn ∈ l) :
    OutOnlyIn l r (execSupplyWarningEnd rail lowest mv s) := by
  unfold execSupplyWarningEnd
  repeat' first
    | intro _
    | (with_reducible first | assumption | exact OnlyIn.refl _ _ | apply OutOnlyIn.next | apply State.setMask_onlyIn | apply State.vddIoSeen_onlyIn | apply State.wr_onlyIn | apply State.warnEnd_onlyIn | apply OutOnlyIn.cond | apply OnlyIn.cond)
    | extract_lets | split | exact h_clk | exact h_evf | exact h_glb | exact h_hif | exact h_hlt | exact h_hltLn | exact h_leq | exact h_lrx | exact h_ltx | exact h_mgt | exact h_optLn | exact h_pll | exact h_pwr | exact h_pwrLn

end Sys2Proof.Machine
end

