-- ==== Sys2Proof/Laws/OnlyTap.lean ====
section
/-!
SUPPORT. Which blocks the operations of Tap change.
-/
set_option Elab.async false
set_option linter.all false
namespace Sys2Proof.Machine

theorem State.captureBit_onlyIn {l : List Block} {r : State} {s : State} {k : Nat} {b : Bool} (hk : OnlyIn l r s) :
    OnlyIn l r (State.captureBit s k b) := by
  unfold State.captureBit
  repeat' first
    | intro _
    | (with_reducible first | assumption | exact OnlyIn.refl _ _)
    | extract_lets | split
    | (with_reducible first | apply OnlyIn.other)

theorem State.tapCapture_onlyIn {l : List Block} {r : State} {s : State} (hk : OnlyIn l r s) :
    OnlyIn l r (State.tapCapture s) := by
  unfold State.tapCapture
  repeat' first
    | intro _
    | (with_reducible first | assumption | exact OnlyIn.refl _ _ | apply State.free_onlyIn | apply State.captureBit_onlyIn | apply OnlyIn.each)
    | extract_lets | dsimp only | split
    | (with_reducible first | apply OnlyIn.other)

theorem State.tapEdge_onlyIn {l : List Block} {r : State} {s : State} {tdi : Bool} (hk : OnlyIn l r s) :
    OnlyIn l r (State.tapEdge s tdi) := by
  unfold State.tapEdge
  repeat' first
    | intro _
    | (with_reducible first | assumption | exact OnlyIn.refl _ _ | apply State.tapCapture_onlyIn)
    | extract_lets | dsimp only | split
    | (with_reducible first | apply OnlyIn.other)

theorem State.tapUpdate_onlyIn {l : List Block} {r : State} {s : State} (hk : OnlyIn l r s) :
    OnlyIn l r (State.tapUpdate s) := by
  unfold State.tapUpdate
  repeat' first
    | intro _
    | (with_reducible first | assumption | exact OnlyIn.refl _ _)
    | extract_lets | dsimp only | split
    | (with_reducible first | apply OnlyIn.other)

theorem State.tckCycle_onlyIn {l : List Block} {r : State} {s : State} {c : TckCycle} (hk : OnlyIn l r s) :
    OnlyIn l r (State.tckCycle s c) := by
  unfold State.tckCycle
  repeat' first
    | intro _
    | (with_reducible first | assumption | exact OnlyIn.refl _ _ | apply State.tapEdge_onlyIn | apply State.tapUpdate_onlyIn | apply OnlyIn.cond)
    | extract_lets | split
    | (with_reducible first | apply OnlyIn.other)

theorem State.tapServe_onlyIn {l : List Block} {r : State} {s : State} (hk : OnlyIn l r s) :
    OnlyIn l r (State.tapServe s) := by
  unfold State.tapServe
  repeat' first
    | intro _
    | (with_reducible first | assumption | exact OnlyIn.refl _ _ | apply State.tckCycle_onlyIn | apply OnlyIn.cond)
    | extract_lets | dsimp only | split
    | (with_reducible first | apply OnlyIn.other)

theorem State.idle_onlyIn {l : List Block} {r : State} {s : State} (hk : OnlyIn l r s) (h_tim : Block.tim ∈ l) (h_timLn : Block.timLn ∈ l) :
    OnlyIn l r (State.idle s) := by
  unfold State.idle
  repeat' first
    | intro _
    | (with_reducible first | assumption | exact OnlyIn.refl _ _ | apply State.tick_onlyIn | apply State.tapServe_onlyIn)
    | extract_lets | exact h_tim | exact h_timLn

end Sys2Proof.Machine
end

