-- ==== Sys2Proof/Laws/Step.lean ====
section
/-!
SUPPORT. What one step does.
-/

set_option Elab.async false
set_option linter.all false

namespace Sys2Proof.Machine

theorem step_nil (s : State) (h : s.pending = []) : step s = .next s.idle := by
  unfold step; rw [h]

theorem step_cons (s : State) (c : Instr) (l : List Instr) (h : s.pending = c :: l) :
    step s = exec c { s with pending := l } := by
  unfold step; rw [h]

end Sys2Proof.Machine
end

