-- ==== Sys2Proof/Laws/Stored.lean ====
section
/-!
SUPPORT. Which operations leave the NVM: one lemma for each.
-/
set_option Elab.async false
set_option linter.all false
namespace Sys2Proof.Machine

theorem SameNvm.refl (r : State) : SameNvm r r := ⟨rfl, rfl⟩

theorem SameNvm.trans {r s t : State} (h : SameNvm r s) (g : SameNvm s t) : SameNvm r t :=
  ⟨g.nvm.trans h.nvm, g.info.trans h.info⟩

/-- A command's outcome is a next state with the same NVM. -/
inductive OutSameNvm  (r : State) : Out → Prop
  | next {s : State} (h : SameNvm r s) : OutSameNvm r (.next s)

/-- The same of an operation that may not apply. -/
inductive OptSameNvm  (r : State) : Option State → Prop
  | none : OptSameNvm r .none
  | some {s : State} (h : SameNvm r s) : OptSameNvm r (.some s)

variable {r s : State} 

theorem OutSameNvm.elim {o : Out} (h : OutSameNvm r o) (e : o = .next s) : SameNvm r s := by
  subst e; cases h; assumption

theorem OptSameNvm.elim {o : Option State} (h : OptSameNvm r o) (e : o = .some s) : SameNvm r s := by
  subst e; cases h; assumption

theorem OptSameNvm.getD {o : Option State} (h : OptSameNvm r o) (g : SameNvm r s) : SameNvm r (o.getD s) := by
  cases o with
  | none => exact g
  | some t => exact h.elim rfl

theorem OptSameNvm.findSome {α : Type} {k : List α} {f : α → Option State} (hf : ∀ a, OptSameNvm r (f a)) :
    OptSameNvm r (k.findSome? f) := by
  induction k with
  | nil => exact OptSameNvm.none
  | cons a k ih =>
    have ha := hf a
    unfold List.findSome?
    split
    · rename_i h; rw [h] at ha; exact ha
    · exact ih

theorem SameNvm.cond {a b : State} {c : Prop} {d : Decidable c} (ha : SameNvm r a) (hb : SameNvm r b) :
    SameNvm r (@ite State c d a b) := by
  cases d <;> assumption

theorem OutSameNvm.cond {a b : Out} {c : Prop} {d : Decidable c} (ha : OutSameNvm r a) (hb : OutSameNvm r b) :
    OutSameNvm r (@ite Out c d a b) := by
  cases d <;> assumption

theorem OptSameNvm.cond {a b : Option State} {c : Prop} {d : Decidable c} (ha : OptSameNvm r a) (hb : OptSameNvm r b) :
    OptSameNvm r (@ite (Option State) c d a b) := by
  cases d <;> assumption

theorem SameNvm.cond_snd {α : Type} {a b : α × State} {c : Prop} {d : Decidable c} (ha : SameNvm r a.2)
    (hb : SameNvm r b.2) : SameNvm r (@ite (α × State) c d a b).2 := by
  cases d <;> assumption

theorem SameNvm.when {c : Bool} {g : State → State} (h : SameNvm r s) (hg : ∀ u, SameNvm r u → SameNvm r (g u)) :
    SameNvm r (s.when c g) := by
  unfold State.when; split
  · exact hg s h
  · exact h

theorem SameNvm.each {α : Type} {k : List α} {g : α → State → State} (h : SameNvm r s)
    (hg : ∀ a u, SameNvm r u → SameNvm r (g a u)) : SameNvm r (s.each k g) := by
  unfold State.each
  induction k generalizing s with
  | nil => exact h
  | cons a k ih => exact ih (hg a s h)

theorem SameNvm.foldl {α : Type} {k : List α} {g : State → α → State} (h : SameNvm r s)
    (hg : ∀ a u, SameNvm r u → SameNvm r (g u a)) : SameNvm r (k.foldl g s) := by
  induction k generalizing s with
  | nil => exact h
  | cons a k ih => exact ih (hg a s h)

theorem SameNvm.foldl_snd {α β : Type} {k : List α} {g : β × State → α → β × State} {b : β × State}
    (h : SameNvm r b.2) (hg : ∀ a u, SameNvm r u.2 → SameNvm r (g u a).2) : SameNvm r (k.foldl g b).2 := by
  induction k generalizing b with
  | nil => exact h
  | cons a k ih => exact ih (hg a b h)

/-- A change of the parts other than the NVM. -/
theorem SameNvm.other {pending now fresh regs live evf running candidate imgRecord retained votes tests deferred svcQ data
    straits stores homeQ work asks emits ports slots bg tsf exch dpllHist thermal mbxIn mbxOpen mbxOut pages bufs snaps staged answer}
    (h : SameNvm r s) :
    SameNvm r ⟨pending, now, fresh, regs, live, s.nvm, evf, running, candidate, imgRecord, retained, votes, tests,
      deferred, svcQ, data, straits, stores, homeQ, work, asks, emits, ports, slots, bg, tsf, exch, dpllHist, thermal,
      mbxIn, mbxOpen, mbxOut, pages, bufs, s.info, snaps, staged, answer, pb, tap, tck⟩ := ⟨h.nvm, h.info⟩

theorem State.wr_sameNvm {f : Field} {v n i : Nat} (h : SameNvm r s) : SameNvm r (s.wr f v n i) := ⟨h.nvm, h.info⟩
theorem State.setUse_sameNvm {f : Field} {v n i : Nat} (h : SameNvm r s) : SameNvm r (s.setUse f v n i) := ⟨h.nvm, h.info⟩
theorem State.setLd_sameNvm {n : Nat} {d : LaneData} (h : SameNvm r s) : SameNvm r (s.setLd n d) := ⟨h.nvm, h.info⟩
theorem State.setEx_sameNvm {n : Nat} {e : LinkExchange} (h : SameNvm r s) : SameNvm r (s.setEx n e) := ⟨h.nvm, h.info⟩
theorem State.free_sameNvm (h : SameNvm r s) : SameNvm r s.free.2 := ⟨h.nvm, h.info⟩
theorem State.resetFields_sameNvm {p : Key → Bool} (h : SameNvm r s) : SameNvm r (s.resetFields p) := ⟨h.nvm, h.info⟩

end Sys2Proof.Machine
end

