-- ==== Sys2Proof/Laws/StoredOps.lean ====
section
/-!
SUPPORT. The operations of Ops that leave the NVM.
-/
set_option Elab.async false
set_option linter.all false
namespace Sys2Proof.Machine

theorem State.wrInt_sameNvm {r : State} {s : State} {f : Field} {v : Int} {n : Nat} {i : Nat} (hk : SameNvm r s) :
    SameNvm r (State.wrInt s f v n i) := by
  unfold State.wrInt
  repeat' first
    | intro _
    | (with_reducible first | assumption | exact SameNvm.refl _ | apply State.wr_sameNvm)
    | extract_lets

theorem State.wrb_sameNvm {r : State} {s : State} {f : Field} {b : Bool} {n : Nat} {i : Nat} (hk : SameNvm r s) :
    SameNvm r (State.wrb s f b n i) := by
  unfold State.wrb
  repeat' first
    | intro _
    | (with_reducible first | assumption | exact SameNvm.refl _ | apply State.wr_sameNvm)
    | extract_lets

theorem State.bump_sameNvm {r : State} {s : State} {f : Field} {n : Nat} {i : Nat} {k : Nat} (hk : SameNvm r s) :
    SameNvm r (State.bump s f n i k) := by
  unfold State.bump
  repeat' first
    | intro _
    | (with_reducible first | assumption | exact SameNvm.refl _ | apply State.wr_sameNvm)
    | extract_lets

theorem State.clear_sameNvm {r : State} {s : State} {l : List Field} {n : Nat} (hk : SameNvm r s) :
    SameNvm r (State.clear s l n) := by
  unfold State.clear
  repeat' first
    | intro _
    | (with_reducible first | assumption | exact SameNvm.refl _ | apply State.wr_sameNvm | apply SameNvm.each)
    | extract_lets | dsimp only

theorem State.raise_sameNvm {r : State} {s : State} {f : Field} {k : Nat} {n : Nat} (hk : SameNvm r s) :
    SameNvm r (State.raise s f k n) := by
  unfold State.raise
  repeat' first
    | intro _
    | (with_reducible first | assumption | exact SameNvm.refl _ | apply State.wr_sameNvm)
    | extract_lets

theorem State.setMask_sameNvm {r : State} {s : State} {f : Field} {k : Nat} {b : Bool} {n : Nat} (hk : SameNvm r s) :
    SameNvm r (State.setMask s f k b n) := by
  unfold State.setMask
  repeat' first
    | intro _
    | (with_reducible first | assumption | exact SameNvm.refl _ | apply State.wr_sameNvm)
    | extract_lets

theorem State.puts_sameNvm {r : State} {s : State} {l : List (Field × Nat)} {n : Nat} (hk : SameNvm r s) :
    SameNvm r (State.puts s l n) := by
  unfold State.puts
  repeat' first
    | intro _
    | (with_reducible first | assumption | exact SameNvm.refl _ | apply State.wr_sameNvm | apply SameNvm.each)
    | extract_lets | dsimp only

theorem State.setMask'_sameNvm {r : State} {s : State} {f : Field} {i k : Nat} {b : Bool} (hk : SameNvm r s) :
    SameNvm r (State.setMask' s f i k b) := by
  unfold State.setMask'
  repeat' first
    | intro _
    | (with_reducible first | assumption | exact SameNvm.refl _ | apply State.wr_sameNvm)
    | extract_lets

theorem State.wrNow_sameNvm {r : State} {s : State} {f : Field} {v : Nat} {n : Nat} {i : Nat} (hk : SameNvm r s) :
    SameNvm r (State.wrNow s f v n i) := by
  unfold State.wrNow
  repeat' first
    | intro _
    | (with_reducible first | assumption | exact SameNvm.refl _ | apply State.wr_sameNvm | apply State.setUse_sameNvm)
    | extract_lets

theorem State.wrFree_sameNvm {r : State} {s : State} {f : Field} {n : Nat} {i : Nat} (hk : SameNvm r s) :
    SameNvm r (State.wrFree s f n i) := by
  unfold State.wrFree
  repeat' first
    | intro _
    | (with_reducible first | assumption | exact SameNvm.refl _ | apply State.free_sameNvm | apply State.wr_sameNvm)
    | extract_lets | dsimp only

theorem State.evfPut_sameNvm {r : State} {s : State} {ws : List Nat} (hk : SameNvm r s) :
    SameNvm r (State.evfPut s ws) := by
  unfold State.evfPut
  repeat' first
    | intro _
    | (with_reducible first | assumption | exact SameNvm.refl _ | apply State.wr_sameNvm | apply State.raise_sameNvm | apply SameNvm.when)
    | extract_lets | dsimp only
    | (with_reducible first | apply SameNvm.other)

theorem State.evfFail_sameNvm {r : State} {s : State} {ty : Nat} {payload : List Nat} (hk : SameNvm r s) :
    SameNvm r (State.evfFail s ty payload) := by
  unfold State.evfFail
  repeat' first
    | intro _
    | (with_reducible first | assumption | exact SameNvm.refl _ | apply State.wr_sameNvm | apply State.raise_sameNvm | apply State.bump_sameNvm | apply State.evfPut_sameNvm | apply SameNvm.cond)
    | extract_lets | split

theorem State.emit_sameNvm {r : State} {s : State} {ty obj : Nat} {payload : List Nat} (hk : SameNvm r s) :
    SameNvm r (State.emit s ty obj payload) := by
  unfold State.emit
  repeat' first
    | intro _
    | (with_reducible first | assumption | exact SameNvm.refl _ | apply State.wr_sameNvm | apply State.bump_sameNvm | apply State.evfPut_sameNvm | apply State.evfFail_sameNvm | apply SameNvm.cond)
    | extract_lets | split

theorem State.testResult_sameNvm {r : State} {s : State} {kind unit res : Nat} {origin : TestOrigin} (hk : SameNvm r s) :
    SameNvm r (State.testResult s kind unit res origin) := by
  unfold State.testResult
  repeat' first
    | intro _
    | (with_reducible first | assumption | exact SameNvm.refl _ | apply State.emit_sameNvm | apply State.puts_sameNvm | apply State.raise_sameNvm | apply SameNvm.cond)
    | extract_lets | split

theorem State.testReinit_sameNvm {r : State} {s : State} {kind unit : Nat} (hk : SameNvm r s) :
    SameNvm r (State.testReinit s kind unit) := by
  unfold State.testReinit
  repeat' first
    | intro _
    | (with_reducible first | assumption | exact SameNvm.refl _ | apply SameNvm.cond)
    | extract_lets | dsimp only | split
    | (with_reducible first | apply SameNvm.other)

theorem State.endTest_sameNvm {r : State} {s : State} {kind unit : Nat} {cnt : Field} (hk : SameNvm r s) :
    SameNvm r (State.endTest s kind unit cnt) := by
  unfold State.endTest
  repeat' first
    | intro _
    | (with_reducible first | assumption | exact SameNvm.refl _ | apply State.testReinit_sameNvm | apply State.wr_sameNvm | apply State.bump_sameNvm | apply State.raise_sameNvm | apply State.testResult_sameNvm | apply SameNvm.when | apply SameNvm.cond)
    | extract_lets | dsimp only | split

theorem State.service_sameNvm {r0 : State} {s : State} {kind unit : Nat} {flag : Bool} {r : SvcReq} {g : State → State} (hk : SameNvm r0 s) (hgg : ∀ u, SameNvm r0 u → SameNvm r0 (g u)) :
    SameNvm r0 (State.service s kind unit flag r g) := by
  unfold State.service
  repeat' first
    | intro _
    | (with_reducible first | apply hgg | assumption | exact SameNvm.refl _ | apply State.endTest_sameNvm | apply SameNvm.when | apply SameNvm.cond)
    | extract_lets | dsimp only | split
    | (with_reducible first | apply SameNvm.other)

theorem State.laneService_sameNvm {r0 : State} {s : State} {n : Nat} {r : SvcReq} {g : State → State} (hk : SameNvm r0 s) (hgg : ∀ u, SameNvm r0 u → SameNvm r0 (g u)) :
    SameNvm r0 (State.laneService s n r g) := by
  unfold State.laneService
  repeat' first
    | intro _
    | (with_reducible first | apply hgg | assumption | exact SameNvm.refl _ | apply State.service_sameNvm | apply SameNvm.cond)
    | extract_lets | split

theorem State.hostService_sameNvm {r0 : State} {s : State} {h : Nat} {r : SvcReq} {g : State → State} (hk : SameNvm r0 s) (hgg : ∀ u, SameNvm r0 u → SameNvm r0 (g u)) :
    SameNvm r0 (State.hostService s h r g) := by
  unfold State.hostService
  repeat' first
    | intro _
    | (with_reducible first | apply hgg | assumption | exact SameNvm.refl _ | apply State.service_sameNvm)
    | extract_lets

theorem State.atcStop_sameNvm {r : State} {s : State} (hk : SameNvm r s) :
    SameNvm r (State.atcStop s) := by
  unfold State.atcStop
  repeat' first
    | intro _
    | (with_reducible first | assumption | exact SameNvm.refl _ | apply State.wr_sameNvm)
    | extract_lets

theorem State.atcRun_sameNvm {r : State} {s : State} (hk : SameNvm r s) :
    SameNvm r (State.atcRun s) := by
  unfold State.atcRun
  repeat' first
    | intro _
    | (with_reducible first | assumption | exact SameNvm.refl _ | apply State.wr_sameNvm | apply SameNvm.cond)
    | extract_lets | split

theorem State.straitPut_sameNvm {r : State} {s : State} {id : Nat} {ws : List StraitWord} (hk : SameNvm r s) :
    SameNvm r (State.straitPut s id ws) := by
  unfold State.straitPut
  repeat' first
    | intro _
    | (with_reducible first | assumption | exact SameNvm.refl _)
    | extract_lets
    | (with_reducible first | apply SameNvm.other)

theorem State.straitFlush_sameNvm {r : State} {s : State} {p : StraitWord → Bool} (hk : SameNvm r s) :
    SameNvm r (State.straitFlush s p) := by
  unfold State.straitFlush
  repeat' first
    | intro _
    | (with_reducible first | assumption | exact SameNvm.refl _)
    | extract_lets | dsimp only
    | (with_reducible first | apply SameNvm.other)

theorem State.straitDrop_sameNvm {r : State} {s : State} {id k : Nat} (hk : SameNvm r s) :
    SameNvm r (State.straitDrop s id k) := by
  unfold State.straitDrop
  repeat' first
    | intro _
    | (with_reducible first | assumption | exact SameNvm.refl _ | apply State.bump_sameNvm | apply State.wr_sameNvm | apply State.raise_sameNvm)
    | extract_lets

theorem State.arcClusterOff_sameNvm {r : State} {s : State} {c : Nat} (hk : SameNvm r s) :
    SameNvm r (State.arcClusterOff s c) := by
  unfold State.arcClusterOff
  repeat' first
    | intro _
    | (with_reducible first | assumption | exact SameNvm.refl _)
    | extract_lets | dsimp only
    | (with_reducible first | apply SameNvm.other)

theorem State.xbarOff_sameNvm {r : State} {s : State} (hk : SameNvm r s) :
    SameNvm r (State.xbarOff s) := by
  unfold State.xbarOff
  repeat' first
    | intro _
    | (with_reducible first | assumption | exact SameNvm.refl _ | apply State.straitFlush_sameNvm)
    | extract_lets | dsimp only
    | (with_reducible first | apply SameNvm.other)

theorem State.exchClear_sameNvm {r : State} {s : State} {n : Nat} (hk : SameNvm r s) :
    SameNvm r (State.exchClear s n) := by
  unfold State.exchClear
  repeat' first
    | intro _
    | (with_reducible first | assumption | exact SameNvm.refl _ | apply State.setEx_sameNvm | apply State.wr_sameNvm)
    | extract_lets
    | (with_reducible first | apply SameNvm.other)

theorem State.exchMiss_sameNvm {r : State} {s : State} {n : Nat} (hk : SameNvm r s) :
    SameNvm r (State.exchMiss s n) := by
  unfold State.exchMiss
  repeat' first
    | intro _
    | (with_reducible first | assumption | exact SameNvm.refl _ | apply State.setEx_sameNvm | apply State.bump_sameNvm)
    | extract_lets
    | (with_reducible first | apply SameNvm.other)

theorem State.todDisc_sameNvm {r : State} {s : State} (hk : SameNvm r s) :
    SameNvm r (State.todDisc s) := by
  unfold State.todDisc
  repeat' first
    | intro _
    | (with_reducible first | assumption | exact SameNvm.refl _ | apply State.puts_sameNvm | apply State.setEx_sameNvm | apply State.exchClear_sameNvm | apply SameNvm.each)
    | extract_lets | dsimp only
    | (with_reducible first | apply SameNvm.other)

theorem State.capStop_sameNvm {r : State} {s : State} {p : Nat} (hk : SameNvm r s) :
    SameNvm r (State.capStop s p) := by
  unfold State.capStop
  repeat' first
    | intro _
    | (with_reducible first | assumption | exact SameNvm.refl _ | apply State.wr_sameNvm | apply SameNvm.each | apply SameNvm.cond)
    | extract_lets | dsimp only | split

theorem State.driftApply_sameNvm {r : State} {s : State} {p : Nat} (hk : SameNvm r s) :
    SameNvm r (State.driftApply s p) := by
  unfold State.driftApply
  repeat' first
    | intro _
    | (with_reducible first | assumption | exact SameNvm.refl _ | apply State.wr_sameNvm | apply SameNvm.cond)
    | extract_lets | split

theorem State.linMeasured_sameNvm {r : State} {s : State} {p q : Nat} {a b : BitVec 1024} (hk : SameNvm r s) :
    SameNvm r (State.linMeasured s p q a b) := by
  unfold State.linMeasured
  repeat' first
    | intro _
    | (with_reducible first | assumption | exact SameNvm.refl _ | apply State.wr_sameNvm)
    | extract_lets

end Sys2Proof.Machine
end

