-- ==== Sys2Proof/Laws/StoredAccess.lean ====
section
/-!
SUPPORT. The operations of Access that leave the NVM.
-/
set_option Elab.async false
set_option linter.all false
namespace Sys2Proof.Machine

theorem State.busErr_sameNvm {r : State} {s : State} (hk : SameNvm r s) :
    SameNvm r (State.busErr s) := by
  unfold State.busErr
  repeat' first
    | intro _
    | (with_reducible first | assumption | exact SameNvm.refl _ | apply State.raise_sameNvm)
    | extract_lets

theorem State.rgStopped_sameNvm {r : State} {s : State} (hk : SameNvm r s) :
    SameNvm r (State.rgStopped s) := by
  unfold State.rgStopped
  repeat' first
    | intro _
    | (with_reducible first | assumption | exact SameNvm.refl _ | apply State.busErr_sameNvm | apply State.bump_sameNvm)
    | extract_lets

theorem State.access_sameNvm {r : State} {s : State} {b : Block} {n : Nat} {g : State → State} (hk : SameNvm r s) (hgg : ∀ u, SameNvm r u → SameNvm r (g u)) :
    SameNvm r (State.access s b n g) := by
  unfold State.access
  repeat' first
    | intro _
    | (with_reducible first | apply hgg | assumption | exact SameNvm.refl _ | apply State.rgStopped_sameNvm | apply SameNvm.cond)
    | extract_lets | split

end Sys2Proof.Machine
end

