-- ==== Sys2Proof/Laws/StoredOperands.lean ====
section
/-!
SUPPORT. The operations of Operands that leave the NVM.
-/
set_option Elab.async false
set_option linter.all false
namespace Sys2Proof.Machine

theorem State.fomOf_sameNvm {r : State} {s : State} {mse : Nat} (hk : SameNvm r s) :
    SameNvm r (State.fomOf s mse).2 := by
  unfold State.fomOf
  repeat' first
    | intro _
    | (with_reducible first | assumption | exact SameNvm.refl _ | apply State.free_sameNvm | apply SameNvm.cond_snd | apply SameNvm.cond)
    | extract_lets | dsimp only | split

end Sys2Proof.Machine
end

