-- ==== Sys2Proof/Laws/StoredStructure.lean ====
section
/-!
SUPPORT. The operations of Structure that leave the NVM.
-/
set_option Elab.async false
set_option linter.all false
namespace Sys2Proof.Machine

theorem State.loadStores_sameNvm {r : State} {s : State} {engs : List Nat} (hk : SameNvm r s) :
    SameNvm r (State.loadStores s engs) := by
  unfold State.loadStores
  repeat' first
    | intro _
    | (with_reducible first | assumption | exact SameNvm.refl _ | apply SameNvm.foldl)
    | extract_lets | dsimp only
    | (with_reducible first | apply SameNvm.other)

theorem State.clearStores_sameNvm {r : State} {s : State} {c : Nat} (hk : SameNvm r s) :
    SameNvm r (State.clearStores s c) := by
  unfold State.clearStores
  repeat' first
    | intro _
    | (with_reducible first | assumption | exact SameNvm.refl _ | apply SameNvm.foldl)
    | extract_lets | dsimp only
    | (with_reducible first | apply SameNvm.other)

end Sys2Proof.Machine
end

