-- ==== Sys2Proof/Laws/StoredLaneOps.lean ====
section
/-!
SUPPORT. The operations of LaneOps that leave the NVM.
-/
set_option Elab.async false
set_option linter.all false
namespace Sys2Proof.Machine

theorem State.cmis_sameNvm {r : State} {s : State} {k : CmisFlag} {n : Nat} (hk : SameNvm r s) :
    SameNvm r (State.cmis s k n) := by
  unfold State.cmis
  repeat' first
    | intro _
    | (with_reducible first | assumption | exact SameNvm.refl _ | apply State.wr_sameNvm | apply State.raise_sameNvm | apply SameNvm.when)
    | extract_lets | dsimp only

theorem sourceCmis_sameNvm {r : State} {src inst : Nat} {s : State} (hk : SameNvm r s) :
    SameNvm r (sourceCmis src inst s) := by
  unfold sourceCmis
  repeat' first
    | intro _
    | (with_reducible first | assumption | exact SameNvm.refl _ | apply State.cmis_sameNvm | apply SameNvm.cond)
    | extract_lets | split

theorem State.countEvent_sameNvm {r : State} {s : State} {src inst : Nat} {k : Nat} (hk : SameNvm r s) :
    SameNvm r (State.countEvent s src inst k).1 := by
  unfold State.countEvent
  repeat' first
    | intro _
    | (with_reducible first | assumption | exact SameNvm.refl _ | apply State.bump_sameNvm | apply State.wr_sameNvm | apply State.setMask'_sameNvm | apply State.raise_sameNvm | apply State.emit_sameNvm | apply sourceCmis_sameNvm | apply SameNvm.cond | apply SameNvm.cond)
    | extract_lets | split

theorem State.clearLasting_sameNvm {r : State} {s : State} {src inst : Nat} (hk : SameNvm r s) :
    SameNvm r (State.clearLasting s src inst) := by
  unfold State.clearLasting
  repeat' first
    | intro _
    | (with_reducible first | assumption | exact SameNvm.refl _ | apply State.setMask'_sameNvm | apply State.wr_sameNvm | apply SameNvm.cond)
    | extract_lets | split

theorem State.clearLastings_sameNvm {r : State} {s : State} {srcs : List Nat} {inst : Nat} (hk : SameNvm r s) :
    SameNvm r (State.clearLastings s srcs inst) := by
  unfold State.clearLastings
  repeat' first
    | intro _
    | (with_reducible first | assumption | exact SameNvm.refl _ | apply State.clearLasting_sameNvm | apply SameNvm.each)
    | extract_lets | dsimp only

theorem State.leqStart_sameNvm {r : State} {s : State} {n : Nat} (hk : SameNvm r s) :
    SameNvm r (State.leqStart s n) := by
  unfold State.leqStart
  repeat' first
    | intro _
    | (with_reducible first | assumption | exact SameNvm.refl _ | apply State.wr_sameNvm | apply State.puts_sameNvm | apply SameNvm.each | apply SameNvm.cond)
    | extract_lets | dsimp only | split

theorem State.leqFollow_sameNvm {r : State} {s : State} {n : Nat} (hk : SameNvm r s) :
    SameNvm r (State.leqFollow s n) := by
  unfold State.leqFollow
  repeat' first
    | intro _
    | (with_reducible first | assumption | exact SameNvm.refl _ | apply State.puts_sameNvm | apply SameNvm.cond)
    | extract_lets | split

theorem State.leqD1Put_sameNvm {r : State} {s : State} {n : Nat} {d : Int} (hk : SameNvm r s) :
    SameNvm r (State.leqD1Put s n d) := by
  unfold State.leqD1Put
  repeat' first
    | intro _
    | (with_reducible first | assumption | exact SameNvm.refl _ | apply State.wrInt_sameNvm | apply State.wrb_sameNvm)
    | extract_lets

theorem State.mlsePut_sameNvm {r : State} {s : State} {n : Nat} (hk : SameNvm r s) :
    SameNvm r (State.mlsePut s n) := by
  unfold State.mlsePut
  repeat' first
    | intro _
    | (with_reducible first | assumption | exact SameNvm.refl _ | apply State.puts_sameNvm | apply State.leqD1Put_sameNvm | apply SameNvm.when)
    | extract_lets | dsimp only

theorem State.mlseApply_sameNvm {r : State} {s : State} {n : Nat} (hk : SameNvm r s) :
    SameNvm r (State.mlseApply s n) := by
  unfold State.mlseApply
  repeat' first
    | intro _
    | (with_reducible first | assumption | exact SameNvm.refl _ | apply State.mlsePut_sameNvm | apply State.raise_sameNvm)
    | extract_lets

theorem State.applyShadow_sameNvm {r : State} {s : State} {l : List Field} {n : Nat} {i : Nat} (hk : SameNvm r s) :
    SameNvm r (State.applyShadow s l n i) := by
  unfold State.applyShadow
  repeat' first
    | intro _
    | (with_reducible first | assumption | exact SameNvm.refl _ | apply State.setUse_sameNvm | apply SameNvm.each)
    | extract_lets | dsimp only

theorem State.leqRestore_sameNvm {r : State} {s : State} {n : Nat} (hk : SameNvm r s) :
    SameNvm r (State.leqRestore s n) := by
  unfold State.leqRestore
  repeat' first
    | intro _
    | (with_reducible first | assumption | exact SameNvm.refl _ | apply State.wr_sameNvm | apply State.leqD1Put_sameNvm | apply SameNvm.each | apply SameNvm.cond)
    | extract_lets | dsimp only | split

theorem State.thrManual_sameNvm {r : State} {s : State} {n : Nat} (hk : SameNvm r s) :
    SameNvm r (State.thrManual s n) := by
  unfold State.thrManual
  repeat' first
    | intro _
    | (with_reducible first | assumption | exact SameNvm.refl _ | apply State.puts_sameNvm | apply SameNvm.when)
    | extract_lets | dsimp only

theorem State.leqApplyOf_sameNvm {r : State} {s : State} {n : Nat} {l : List Field} {taps : List Nat} (hk : SameNvm r s) :
    SameNvm r (State.leqApplyOf s n l taps) := by
  unfold State.leqApplyOf
  repeat' first
    | intro _
    | (with_reducible first | assumption | exact SameNvm.refl _ | apply State.applyShadow_sameNvm | apply State.wrInt_sameNvm | apply State.wr_sameNvm | apply State.leqD1Put_sameNvm | apply State.mlseApply_sameNvm | apply State.wrb_sameNvm | apply State.thrManual_sameNvm | apply SameNvm.each | apply SameNvm.when | apply SameNvm.cond)
    | extract_lets | dsimp only | split

theorem State.leqCommitApply_sameNvm {r : State} {s : State} {n : Nat} (hk : SameNvm r s) :
    SameNvm r (State.leqCommitApply s n) := by
  unfold State.leqCommitApply
  repeat' first
    | intro _
    | (with_reducible first | assumption | exact SameNvm.refl _ | apply State.leqApplyOf_sameNvm | apply State.wr_sameNvm)
    | extract_lets

theorem State.leqAdaptApply_sameNvm {r : State} {s : State} {n : Nat} (hk : SameNvm r s) :
    SameNvm r (State.leqAdaptApply s n) := by
  unfold State.leqAdaptApply
  repeat' first
    | intro _
    | (with_reducible first | assumption | exact SameNvm.refl _ | apply State.wrInt_sameNvm | apply State.wr_sameNvm | apply State.leqD1Put_sameNvm | apply State.raise_sameNvm | apply State.puts_sameNvm | apply SameNvm.each | apply SameNvm.when)
    | extract_lets | dsimp only

theorem State.leqAdaptDrop_sameNvm {r : State} {s : State} {n : Nat} (hk : SameNvm r s) :
    SameNvm r (State.leqAdaptDrop s n) := by
  unfold State.leqAdaptDrop
  repeat' first
    | intro _
    | (with_reducible first | assumption | exact SameNvm.refl _ | apply State.wr_sameNvm | apply State.puts_sameNvm | apply SameNvm.each)
    | extract_lets | dsimp only

theorem State.leqSnapshot_sameNvm {r : State} {s : State} {n : Nat} (hk : SameNvm r s) :
    SameNvm r (State.leqSnapshot s n) := by
  unfold State.leqSnapshot
  repeat' first
    | intro _
    | (with_reducible first | assumption | exact SameNvm.refl _ | apply State.wr_sameNvm | apply State.puts_sameNvm | apply SameNvm.each)
    | extract_lets | dsimp only

theorem State.thrTake_sameNvm {r : State} {s : State} {n : Nat} (hk : SameNvm r s) :
    SameNvm r (State.thrTake s n) := by
  unfold State.thrTake
  repeat' first
    | intro _
    | (with_reducible first | assumption | exact SameNvm.refl _ | apply State.puts_sameNvm | apply SameNvm.when)
    | extract_lets | dsimp only

theorem State.leqBoundary_sameNvm {r : State} {s : State} {n : Nat} (hk : SameNvm r s) :
    SameNvm r (State.leqBoundary s n) := by
  unfold State.leqBoundary
  repeat' first
    | intro _
    | (with_reducible first | assumption | exact SameNvm.refl _ | apply State.leqRestore_sameNvm | apply State.leqAdaptDrop_sameNvm | apply State.leqCommitApply_sameNvm | apply State.leqAdaptApply_sameNvm | apply State.thrTake_sameNvm | apply State.leqSnapshot_sameNvm | apply SameNvm.when | apply SameNvm.cond)
    | extract_lets | dsimp only | split

theorem State.pairFollow_sameNvm {r : State} {s : State} (hk : SameNvm r s) :
    SameNvm r (State.pairFollow s) := by
  unfold State.pairFollow
  repeat' first
    | intro _
    | (with_reducible first | assumption | exact SameNvm.refl _ | apply State.wrb_sameNvm | apply State.wr_sameNvm | apply SameNvm.each | apply SameNvm.when)
    | extract_lets | dsimp only | split

theorem State.hifSet_sameNvm {r : State} {s : State} {h st : Nat} (hk : SameNvm r s) :
    SameNvm r (State.hifSet s h st) := by
  unfold State.hifSet
  repeat' first
    | intro _
    | (with_reducible first | assumption | exact SameNvm.refl _ | apply State.wr_sameNvm | apply State.raise_sameNvm | apply State.emit_sameNvm | apply State.wrFree_sameNvm | apply State.cmis_sameNvm | apply State.puts_sameNvm | apply State.pairFollow_sameNvm | apply SameNvm.when | apply SameNvm.cond)
    | extract_lets | dsimp only | split

theorem State.hifFault_sameNvm {r : State} {s : State} {h cause : Nat} (hk : SameNvm r s) :
    SameNvm r (State.hifFault s h cause) := by
  unfold State.hifFault
  repeat' first
    | intro _
    | (with_reducible first | assumption | exact SameNvm.refl _ | apply State.wr_sameNvm | apply State.hifSet_sameNvm | apply State.raise_sameNvm | apply State.wrb_sameNvm | apply State.countEvent_sameNvm | apply SameNvm.cond | apply SameNvm.cond_snd)
    | extract_lets | dsimp only | split

theorem State.hifToCal_sameNvm {r : State} {s : State} {h : Nat} (hk : SameNvm r s) :
    SameNvm r (State.hifToCal s h) := by
  unfold State.hifToCal
  repeat' first
    | intro _
    | (with_reducible first | assumption | exact SameNvm.refl _ | apply State.straitFlush_sameNvm | apply State.puts_sameNvm | apply State.hifSet_sameNvm)
    | extract_lets | dsimp only | split

theorem State.hifAskPreset_sameNvm {r : State} {s : State} {h : Nat} (hk : SameNvm r s) :
    SameNvm r (State.hifAskPreset s h) := by
  unfold State.hifAskPreset
  repeat' first
    | intro _
    | (with_reducible first | assumption | exact SameNvm.refl _ | apply State.puts_sameNvm | apply SameNvm.cond)
    | extract_lets | split

theorem State.hifTrainStart_sameNvm {r : State} {s : State} {h : Nat} (hk : SameNvm r s) :
    SameNvm r (State.hifTrainStart s h) := by
  unfold State.hifTrainStart
  repeat' first
    | intro _
    | (with_reducible first | assumption | exact SameNvm.refl _ | apply State.puts_sameNvm | apply State.hifAskPreset_sameNvm | apply SameNvm.cond)
    | extract_lets | split

theorem State.hifAmDone_sameNvm {r : State} {s : State} {h : Nat} (hk : SameNvm r s) :
    SameNvm r (State.hifAmDone s h) := by
  unfold State.hifAmDone
  repeat' first
    | intro _
    | (with_reducible first | assumption | exact SameNvm.refl _ | apply State.hifSet_sameNvm | apply SameNvm.cond)
    | extract_lets | dsimp only | split

theorem State.hifAmStart_sameNvm {r : State} {s : State} {h : Nat} (hk : SameNvm r s) :
    SameNvm r (State.hifAmStart s h) := by
  unfold State.hifAmStart
  repeat' first
    | intro _
    | (with_reducible first | assumption | exact SameNvm.refl _ | apply State.puts_sameNvm | apply State.hifAmDone_sameNvm)
    | extract_lets | split

theorem State.hifToTrain_sameNvm {r : State} {s : State} {h : Nat} (hk : SameNvm r s) :
    SameNvm r (State.hifToTrain s h) := by
  unfold State.hifToTrain
  repeat' first
    | intro _
    | (with_reducible first | assumption | exact SameNvm.refl _ | apply State.puts_sameNvm | apply State.wr_sameNvm | apply State.hifSet_sameNvm | apply State.hifTrainStart_sameNvm | apply SameNvm.when)
    | extract_lets | dsimp only | split

theorem State.hifToAlign_sameNvm {r : State} {s : State} {h : Nat} (hk : SameNvm r s) :
    SameNvm r (State.hifToAlign s h) := by
  unfold State.hifToAlign
  repeat' first
    | intro _
    | (with_reducible first | assumption | exact SameNvm.refl _ | apply State.puts_sameNvm | apply State.hifSet_sameNvm | apply State.hifAmStart_sameNvm)
    | extract_lets | split

theorem State.hifRelock_sameNvm {r : State} {s : State} {h : Nat} (hk : SameNvm r s) :
    SameNvm r (State.hifRelock s h) := by
  unfold State.hifRelock
  repeat' first
    | intro _
    | (with_reducible first | assumption | exact SameNvm.refl _ | apply State.puts_sameNvm | apply State.hifToAlign_sameNvm | apply State.wr_sameNvm)
    | extract_lets | split

theorem State.hifSetTap_sameNvm {r : State} {s : State} {h i : Nat} {v : Int} (hk : SameNvm r s) :
    SameNvm r (State.hifSetTap s h i v) := by
  unfold State.hifSetTap
  repeat' first
    | intro _
    | (with_reducible first | assumption | exact SameNvm.refl _ | apply State.wrInt_sameNvm | apply SameNvm.foldl | apply SameNvm.cond)
    | extract_lets | dsimp only | split

theorem State.hifApplyOf_sameNvm {r : State} {s : State} {h : Nat} {l : List Field} {taps : List Nat} (hk : SameNvm r s) :
    SameNvm r (State.hifApplyOf s h l taps) := by
  unfold State.hifApplyOf
  repeat' first
    | intro _
    | (with_reducible first | assumption | exact SameNvm.refl _ | apply State.applyShadow_sameNvm | apply State.puts_sameNvm | apply State.wr_sameNvm | apply State.hifSetTap_sameNvm | apply SameNvm.each | apply SameNvm.cond | apply SameNvm.cond_snd)
    | extract_lets | dsimp only | split

theorem State.hifApply_sameNvm {r : State} {s : State} {h : Nat} (hk : SameNvm r s) :
    SameNvm r (State.hifApply s h) := by
  unfold State.hifApply
  repeat' first
    | intro _
    | (with_reducible first | assumption | exact SameNvm.refl _ | apply State.hifApplyOf_sameNvm | apply State.wr_sameNvm)
    | extract_lets | split

theorem State.hifOff_sameNvm {r : State} {s : State} {h : Nat} (hk : SameNvm r s) :
    SameNvm r (State.hifOff s h) := by
  unfold State.hifOff
  repeat' first
    | intro _
    | (with_reducible first | assumption | exact SameNvm.refl _ | apply State.puts_sameNvm | apply State.hifSet_sameNvm | apply State.hifApply_sameNvm)
    | extract_lets | split

theorem State.setEhm_sameNvm {r : State} {s : State} {g : PortGroup} {v : Nat} (hk : SameNvm r s) :
    SameNvm r (State.setEhm s g v) := by
  unfold State.setEhm
  repeat' first
    | intro _
    | (with_reducible first | assumption | exact SameNvm.refl _ | apply State.wr_sameNvm | apply SameNvm.each)
    | extract_lets | dsimp only | split

theorem State.hostsCompat_sameNvm {r : State} {s : State} {g : PortGroup} (hk : SameNvm r s) :
    SameNvm r (State.hostsCompat s g) := by
  unfold State.hostsCompat
  repeat' first
    | intro _
    | (with_reducible first | assumption | exact SameNvm.refl _ | apply State.wr_sameNvm | apply State.hifOff_sameNvm | apply State.hifToTrain_sameNvm | apply State.setEhm_sameNvm | apply State.pairFollow_sameNvm | apply SameNvm.each | apply SameNvm.when)
    | extract_lets | dsimp only | split

theorem State.hifReturn_sameNvm {r : State} {s : State} {n h : Nat} (hk : SameNvm r s) :
    SameNvm r (State.hifReturn s n h) := by
  unfold State.hifReturn
  repeat' first
    | intro _
    | (with_reducible first | assumption | exact SameNvm.refl _ | apply State.hifToCal_sameNvm | apply SameNvm.when)
    | extract_lets | dsimp only | split

theorem State.hostsNative_sameNvm {r : State} {s : State} {g : PortGroup} (hk : SameNvm r s) :
    SameNvm r (State.hostsNative s g) := by
  unfold State.hostsNative
  repeat' first
    | intro _
    | (with_reducible first | assumption | exact SameNvm.refl _ | apply State.wr_sameNvm | apply State.hifReturn_sameNvm | apply State.pairFollow_sameNvm | apply SameNvm.each | apply SameNvm.when)
    | extract_lets | dsimp only | split

theorem State.ehmReset_sameNvm {r : State} {s : State} {g : PortGroup} (hk : SameNvm r s) :
    SameNvm r (State.ehmReset s g) := by
  unfold State.ehmReset
  repeat' first
    | intro _
    | (with_reducible first | assumption | exact SameNvm.refl _ | apply State.wr_sameNvm | apply State.setEhm_sameNvm | apply SameNvm.each | apply SameNvm.cond)
    | extract_lets | dsimp only | split

theorem State.hifStart_sameNvm {r : State} {s : State} {h : Nat} (hk : SameNvm r s) :
    SameNvm r (State.hifStart s h) := by
  unfold State.hifStart
  repeat' first
    | intro _
    | (with_reducible first | assumption | exact SameNvm.refl _ | apply State.ehmReset_sameNvm | apply State.hifToCal_sameNvm | apply SameNvm.when | apply SameNvm.cond | apply OptSameNvm.getD)
    | extract_lets | dsimp only | split

theorem State.svcSend_sameNvm {r : State} {s : State} {n type len body : Nat} {tag : Nat} (hk : SameNvm r s) :
    SameNvm r (State.svcSend s n type len body tag) := by
  unfold State.svcSend
  repeat' first
    | intro _
    | (with_reducible first | assumption | exact SameNvm.refl _ | apply State.puts_sameNvm | apply SameNvm.cond)
    | extract_lets | split
    | (with_reducible first | apply SameNvm.other)

theorem State.svcDrop_sameNvm {r : State} {s : State} {n : Nat} (hk : SameNvm r s) :
    SameNvm r (State.svcDrop s n) := by
  unfold State.svcDrop
  repeat' first
    | intro _
    | (with_reducible first | assumption | exact SameNvm.refl _ | apply State.wr_sameNvm)
    | extract_lets | dsimp only
    | (with_reducible first | apply SameNvm.other)

theorem State.cdbEnd_sameNvm {r : State} {s : State} {status : Nat} (hk : SameNvm r s) :
    SameNvm r (State.cdbEnd s status) := by
  unfold State.cdbEnd
  repeat' first
    | intro _
    | (with_reducible first | assumption | exact SameNvm.refl _ | apply State.puts_sameNvm)
    | extract_lets

theorem State.asymFollow_sameNvm {r : State} {s : State} {n : Nat} (hk : SameNvm r s) :
    SameNvm r (State.asymFollow s n) := by
  unfold State.asymFollow
  repeat' first
    | intro _
    | (with_reducible first | assumption | exact SameNvm.refl _ | apply State.wrb_sameNvm)
    | extract_lets

theorem State.profEnd_sameNvm {r : State} {s : State} {n status side : Nat} (hk : SameNvm r s) :
    SameNvm r (State.profEnd s n status side) := by
  unfold State.profEnd
  repeat' first
    | intro _
    | (with_reducible first | assumption | exact SameNvm.refl _ | apply State.puts_sameNvm | apply State.emit_sameNvm | apply State.raise_sameNvm | apply SameNvm.cond)
    | extract_lets | split

theorem State.profAbort_sameNvm {r : State} {s : State} {n : Nat} (hk : SameNvm r s) :
    SameNvm r (State.profAbort s n) := by
  unfold State.profAbort
  repeat' first
    | intro _
    | (with_reducible first | assumption | exact SameNvm.refl _ | apply State.wr_sameNvm | apply State.profEnd_sameNvm | apply State.puts_sameNvm | apply SameNvm.when)
    | extract_lets | dsimp only

theorem State.ingressUnlock_sameNvm {r : State} {s : State} {n : Nat} (hk : SameNvm r s) :
    SameNvm r (State.ingressUnlock s n) := by
  unfold State.ingressUnlock
  repeat' first
    | intro _
    | (with_reducible first | assumption | exact SameNvm.refl _ | apply State.wr_sameNvm)
    | extract_lets | split

theorem State.lfrLeave_sameNvm {r : State} {s : State} {n : Nat} (hk : SameNvm r s) :
    SameNvm r (State.lfrLeave s n) := by
  unfold State.lfrLeave
  repeat' first
    | intro _
    | (with_reducible first | assumption | exact SameNvm.refl _ | apply State.profAbort_sameNvm | apply State.svcDrop_sameNvm | apply State.exchMiss_sameNvm | apply State.ingressUnlock_sameNvm | apply State.cdbEnd_sameNvm | apply State.puts_sameNvm | apply SameNvm.when)
    | extract_lets | dsimp only

theorem State.compatFormat_sameNvm {r : State} {s : State} {n : Nat} {compat : Bool} (hk : SameNvm r s) :
    SameNvm r (State.compatFormat s n compat) := by
  unfold State.compatFormat
  repeat' first
    | intro _
    | (with_reducible first | assumption | exact SameNvm.refl _ | apply State.wrb_sameNvm | apply State.puts_sameNvm | apply SameNvm.cond)
    | extract_lets | split

theorem State.lfrLatch_sameNvm {r : State} {s : State} {n : Nat} (hk : SameNvm r s) :
    SameNvm r (State.lfrLatch s n) := by
  unfold State.lfrLatch
  repeat' first
    | intro _
    | (with_reducible first | assumption | exact SameNvm.refl _ | apply State.setUse_sameNvm | apply State.wrb_sameNvm | apply State.compatFormat_sameNvm | apply SameNvm.each | apply SameNvm.cond | apply SameNvm.cond_snd)
    | extract_lets | dsimp only | split

theorem State.setGroupMode_sameNvm {r : State} {s : State} {n mode : Nat} (hk : SameNvm r s) :
    SameNvm r (State.setGroupMode s n mode) := by
  unfold State.setGroupMode
  repeat' first
    | intro _
    | (with_reducible first | assumption | exact SameNvm.refl _ | apply State.puts_sameNvm | apply State.compatFormat_sameNvm | apply State.hostsCompat_sameNvm | apply State.hostsNative_sameNvm | apply SameNvm.each | apply SameNvm.cond | apply SameNvm.cond_snd)
    | extract_lets | dsimp only | split

theorem State.lrxSet_sameNvm {r : State} {s : State} {n st : Nat} (hk : SameNvm r s) :
    SameNvm r (State.lrxSet s n st) := by
  unfold State.lrxSet
  repeat' first
    | intro _
    | (with_reducible first | assumption | exact SameNvm.refl _ | apply State.puts_sameNvm | apply State.lfrLeave_sameNvm | apply State.wr_sameNvm | apply State.cmis_sameNvm | apply State.raise_sameNvm | apply State.emit_sameNvm | apply SameNvm.when | apply SameNvm.cond)
    | extract_lets | dsimp only | split

theorem State.lrxAbandon_sameNvm {r : State} {s : State} {n : Nat} (hk : SameNvm r s) :
    SameNvm r (State.lrxAbandon s n) := by
  unfold State.lrxAbandon
  repeat' first
    | intro _
    | (with_reducible first | assumption | exact SameNvm.refl _ | apply State.wr_sameNvm | apply SameNvm.when)
    | extract_lets | dsimp only

theorem State.lrxApplyOf_sameNvm {r : State} {s : State} {n : Nat} {l : List Field} (hk : SameNvm r s) :
    SameNvm r (State.lrxApplyOf s n l) := by
  unfold State.lrxApplyOf
  repeat' first
    | intro _
    | (with_reducible first | assumption | exact SameNvm.refl _ | apply State.applyShadow_sameNvm | apply State.wr_sameNvm | apply State.puts_sameNvm | apply State.lrxAbandon_sameNvm | apply SameNvm.when | apply SameNvm.cond)
    | extract_lets | dsimp only | split

theorem State.lrxApply_sameNvm {r : State} {s : State} {n : Nat} (hk : SameNvm r s) :
    SameNvm r (State.lrxApply s n) := by
  unfold State.lrxApply
  repeat' first
    | intro _
    | (with_reducible first | assumption | exact SameNvm.refl _ | apply State.lrxApplyOf_sameNvm | apply State.wr_sameNvm)
    | extract_lets

theorem State.trimApply_sameNvm {r : State} {s : State} {n : Nat} (hk : SameNvm r s) :
    SameNvm r (State.trimApply s n) := by
  unfold State.trimApply
  repeat' first
    | intro _
    | (with_reducible first | assumption | exact SameNvm.refl _ | apply State.wr_sameNvm | apply State.wrInt_sameNvm | apply SameNvm.cond)
    | extract_lets | split

theorem State.adcStart_sameNvm {r : State} {s : State} {n : Nat} {esc : Bool} (hk : SameNvm r s) :
    SameNvm r (State.adcStart s n esc) := by
  unfold State.adcStart
  repeat' first
    | intro _
    | (with_reducible first | assumption | exact SameNvm.refl _ | apply State.puts_sameNvm | apply State.bump_sameNvm | apply State.raise_sameNvm | apply SameNvm.when)
    | extract_lets | dsimp only

theorem State.adcAdmit_sameNvm {r s : State} {k : Nat} (hk : SameNvm r s) : SameNvm r (s.adcAdmit k) := by
  induction k generalizing s with
  | zero => exact hk
  | succ k ih =>
    unfold State.adcAdmit
    dsimp only
    split
    · split
      · exact ih (State.adcStart_sameNvm hk)
      · exact hk
    · exact hk

theorem State.sliceSwap_sameNvm {r : State} {s : State} {n : Nat} (hk : SameNvm r s) :
    SameNvm r (State.sliceSwap s n) := by
  unfold State.sliceSwap
  repeat' first
    | intro _
    | (with_reducible first | assumption | exact SameNvm.refl _ | apply State.wr_sameNvm | apply State.puts_sameNvm | apply State.bump_sameNvm | apply State.adcAdmit_sameNvm)
    | extract_lets

theorem State.rxBoundary_sameNvm {r : State} {s : State} {n : Nat} (hk : SameNvm r s) :
    SameNvm r (State.rxBoundary s n) := by
  unfold State.rxBoundary
  repeat' first
    | intro _
    | (with_reducible first | assumption | exact SameNvm.refl _ | apply State.leqBoundary_sameNvm | apply State.lrxApply_sameNvm | apply State.puts_sameNvm | apply State.trimApply_sameNvm | apply State.sliceSwap_sameNvm | apply SameNvm.when | apply SameNvm.cond)
    | extract_lets | dsimp only | split

theorem State.lrxAcquireAt_sameNvm {r : State} {s : State} {n ph : Nat} (hk : SameNvm r s) :
    SameNvm r (State.lrxAcquireAt s n ph) := by
  unfold State.lrxAcquireAt
  repeat' first
    | intro _
    | (with_reducible first | assumption | exact SameNvm.refl _ | apply State.lrxAbandon_sameNvm | apply State.wr_sameNvm | apply State.puts_sameNvm | apply State.lrxSet_sameNvm | apply State.leqFollow_sameNvm)
    | extract_lets

theorem State.cdrStart_sameNvm {r : State} {s : State} {n : Nat} (hk : SameNvm r s) :
    SameNvm r (State.cdrStart s n) := by
  unfold State.cdrStart
  repeat' first
    | intro _
    | (with_reducible first | assumption | exact SameNvm.refl _ | apply State.puts_sameNvm)
    | extract_lets

theorem State.lrxStartAgc_sameNvm {r : State} {s : State} {n : Nat} (hk : SameNvm r s) :
    SameNvm r (State.lrxStartAgc s n) := by
  unfold State.lrxStartAgc
  repeat' first
    | intro _
    | (with_reducible first | assumption | exact SameNvm.refl _ | apply State.lrxAcquireAt_sameNvm | apply State.wr_sameNvm | apply State.cdrStart_sameNvm | apply State.puts_sameNvm | apply State.leqStart_sameNvm | apply State.leqFollow_sameNvm | apply SameNvm.cond)
    | extract_lets | split

theorem State.lrxWaitSd_sameNvm {r : State} {s : State} {n : Nat} (hk : SameNvm r s) :
    SameNvm r (State.lrxWaitSd s n) := by
  unfold State.lrxWaitSd
  repeat' first
    | intro _
    | (with_reducible first | assumption | exact SameNvm.refl _ | apply State.leqStart_sameNvm | apply State.wr_sameNvm | apply State.lrxStartAgc_sameNvm | apply State.lrxAcquireAt_sameNvm | apply SameNvm.cond)
    | extract_lets | split

theorem State.lrxCdrPhase_sameNvm {r : State} {s : State} {n : Nat} (hk : SameNvm r s) :
    SameNvm r (State.lrxCdrPhase s n) := by
  unfold State.lrxCdrPhase
  repeat' first
    | intro _
    | (with_reducible first | assumption | exact SameNvm.refl _ | apply State.lrxAcquireAt_sameNvm | apply State.wr_sameNvm | apply State.leqFollow_sameNvm | apply SameNvm.when)
    | extract_lets | dsimp only

theorem State.lrxFfePhase_sameNvm {r : State} {s : State} {n : Nat} (hk : SameNvm r s) :
    SameNvm r (State.lrxFfePhase s n) := by
  unfold State.lrxFfePhase
  repeat' first
    | intro _
    | (with_reducible first | assumption | exact SameNvm.refl _ | apply State.lrxAcquireAt_sameNvm | apply State.mlseApply_sameNvm | apply State.puts_sameNvm | apply State.leqD1Put_sameNvm | apply State.leqFollow_sameNvm | apply SameNvm.when)
    | extract_lets | dsimp only

theorem State.ratePut_sameNvm {r : State} {s : State} {n rate : Nat} (hk : SameNvm r s) :
    SameNvm r (State.ratePut s n rate) := by
  unfold State.ratePut
  repeat' first
    | intro _
    | (with_reducible first | assumption | exact SameNvm.refl _ | apply State.wr_sameNvm | apply State.lrxStartAgc_sameNvm | apply SameNvm.each | apply SameNvm.cond)
    | extract_lets | dsimp only | split

theorem State.lrxToCal_sameNvm {r : State} {s : State} {n : Nat} (hk : SameNvm r s) :
    SameNvm r (State.lrxToCal s n) := by
  unfold State.lrxToCal
  repeat' first
    | intro _
    | (with_reducible first | assumption | exact SameNvm.refl _ | apply State.lrxAbandon_sameNvm | apply State.lrxSet_sameNvm | apply State.lfrLatch_sameNvm | apply State.straitFlush_sameNvm | apply State.ratePut_sameNvm | apply State.wr_sameNvm | apply State.leqStart_sameNvm | apply State.puts_sameNvm | apply State.leqFollow_sameNvm | apply State.rxBoundary_sameNvm)
    | extract_lets | dsimp only | split

theorem State.lrxFault_sameNvm {r : State} {s : State} {n cause : Nat} (hk : SameNvm r s) :
    SameNvm r (State.lrxFault s n cause) := by
  unfold State.lrxFault
  repeat' first
    | intro _
    | (with_reducible first | assumption | exact SameNvm.refl _ | apply State.wr_sameNvm | apply State.lrxAbandon_sameNvm | apply State.lrxSet_sameNvm | apply State.raise_sameNvm | apply State.wrb_sameNvm | apply State.countEvent_sameNvm | apply State.leqFollow_sameNvm | apply State.rxBoundary_sameNvm | apply SameNvm.cond | apply SameNvm.cond_snd)
    | extract_lets | dsimp only | split

theorem State.rateAlternate_sameNvm {r : State} {s : State} {n : Nat} (hk : SameNvm r s) :
    SameNvm r (State.rateAlternate s n) := by
  unfold State.rateAlternate
  repeat' first
    | intro _
    | (with_reducible first | assumption | exact SameNvm.refl _ | apply State.ratePut_sameNvm | apply SameNvm.cond | apply SameNvm.cond_snd)
    | extract_lets | dsimp only | split

theorem State.lrxAttemptFail_sameNvm {r : State} {s : State} {n cause : Nat} (hk : SameNvm r s) :
    SameNvm r (State.lrxAttemptFail s n cause) := by
  unfold State.lrxAttemptFail
  repeat' first
    | intro _
    | (with_reducible first | assumption | exact SameNvm.refl _ | apply State.bump_sameNvm | apply State.wr_sameNvm | apply State.rateAlternate_sameNvm | apply State.lrxStartAgc_sameNvm | apply State.lrxFault_sameNvm | apply SameNvm.cond)
    | extract_lets | split

theorem State.optClamp_sameNvm {r : State} {s : State} {n : Nat} (hk : SameNvm r s) :
    SameNvm r (State.optClamp s n) := by
  unfold State.optClamp
  repeat' first
    | intro _
    | (with_reducible first | assumption | exact SameNvm.refl _ | apply State.wr_sameNvm)
    | extract_lets

theorem State.ltxSet_sameNvm {r : State} {s : State} {n st : Nat} (hk : SameNvm r s) :
    SameNvm r (State.ltxSet s n st) := by
  unfold State.ltxSet
  repeat' first
    | intro _
    | (with_reducible first | assumption | exact SameNvm.refl _ | apply State.puts_sameNvm | apply State.raise_sameNvm | apply State.emit_sameNvm | apply SameNvm.cond)
    | extract_lets | split

theorem State.maskDiscard_sameNvm {r : State} {s : State} {n : Nat} (hk : SameNvm r s) :
    SameNvm r (State.maskDiscard s n) := by
  unfold State.maskDiscard
  repeat' first
    | intro _
    | (with_reducible first | assumption | exact SameNvm.refl _ | apply State.wr_sameNvm | apply SameNvm.each)
    | extract_lets | dsimp only

theorem State.ltxApplyOf_sameNvm {r : State} {s : State} {n : Nat} {l : List (Field × Nat)} (hk : SameNvm r s) :
    SameNvm r (State.ltxApplyOf s n l) := by
  unfold State.ltxApplyOf
  repeat' first
    | intro _
    | (with_reducible first | assumption | exact SameNvm.refl _ | apply State.applyShadow_sameNvm | apply State.wr_sameNvm | apply State.maskDiscard_sameNvm | apply SameNvm.each | apply SameNvm.when)
    | extract_lets | dsimp only

theorem State.patApply_sameNvm {r : State} {s : State} {n : Nat} (hk : SameNvm r s) :
    SameNvm r (State.patApply s n) := by
  unfold State.patApply
  repeat' first
    | intro _
    | (with_reducible first | assumption | exact SameNvm.refl _ | apply State.maskDiscard_sameNvm | apply State.wr_sameNvm | apply State.setUse_sameNvm | apply SameNvm.when)
    | extract_lets | dsimp only

theorem State.ltxApply_sameNvm {r : State} {s : State} {n : Nat} (hk : SameNvm r s) :
    SameNvm r (State.ltxApply s n) := by
  unfold State.ltxApply
  repeat' first
    | intro _
    | (with_reducible first | assumption | exact SameNvm.refl _ | apply State.ltxApplyOf_sameNvm | apply State.wr_sameNvm | apply State.patApply_sameNvm | apply State.wrb_sameNvm | apply SameNvm.cond)
    | extract_lets | split

theorem State.setOutCells_sameNvm {r : State} {s : State} {n : Nat} {l : List Nat} (hk : SameNvm r s) :
    SameNvm r (State.setOutCells s n l) := by
  unfold State.setOutCells
  repeat' first
    | intro _
    | (with_reducible first | assumption | exact SameNvm.refl _ | apply State.wr_sameNvm | apply SameNvm.each | apply OptSameNvm.getD)
    | extract_lets | dsimp only | split

theorem State.cellRepair_sameNvm {r : State} {s : State} {n : Nat} (hk : SameNvm r s) :
    SameNvm r (State.cellRepair s n) := by
  unfold State.cellRepair
  repeat' first
    | intro _
    | (with_reducible first | assumption | exact SameNvm.refl _ | apply State.wr_sameNvm | apply State.setOutCells_sameNvm | apply SameNvm.each | apply SameNvm.cond)
    | extract_lets | dsimp only | split

theorem State.mapsOfMarks_sameNvm {r : State} {s : State} {n : Nat} (hk : SameNvm r s) :
    SameNvm r (State.mapsOfMarks s n) := by
  unfold State.mapsOfMarks
  repeat' first
    | intro _
    | (with_reducible first | assumption | exact SameNvm.refl _ | apply State.wr_sameNvm | apply State.setOutCells_sameNvm | apply State.cellRepair_sameNvm | apply SameNvm.when)
    | extract_lets | dsimp only

theorem State.cellSwap_sameNvm {r : State} {s : State} {n : Nat} (hk : SameNvm r s) :
    SameNvm r (State.cellSwap s n) := by
  unfold State.cellSwap
  repeat' first
    | intro _
    | (with_reducible first | assumption | exact SameNvm.refl _ | apply State.puts_sameNvm | apply State.wr_sameNvm | apply State.setOutCells_sameNvm | apply State.bump_sameNvm | apply SameNvm.cond)
    | extract_lets | dsimp only | split

theorem State.txBoundary_sameNvm {r : State} {s : State} {n : Nat} (hk : SameNvm r s) :
    SameNvm r (State.txBoundary s n) := by
  unfold State.txBoundary
  repeat' first
    | intro _
    | (with_reducible first | assumption | exact SameNvm.refl _ | apply State.ltxApply_sameNvm | apply State.cellRepair_sameNvm | apply State.wr_sameNvm | apply State.cellSwap_sameNvm | apply SameNvm.when | apply SameNvm.cond)
    | extract_lets | dsimp only | split

theorem State.ltxAbandon_sameNvm {r : State} {s : State} {n : Nat} (hk : SameNvm r s) :
    SameNvm r (State.ltxAbandon s n) := by
  unfold State.ltxAbandon
  repeat' first
    | intro _
    | (with_reducible first | assumption | exact SameNvm.refl _ | apply State.wr_sameNvm | apply SameNvm.when)
    | extract_lets | dsimp only

theorem State.ltxOff_sameNvm {r : State} {s : State} {n : Nat} (hk : SameNvm r s) :
    SameNvm r (State.ltxOff s n) := by
  unfold State.ltxOff
  repeat' first
    | intro _
    | (with_reducible first | assumption | exact SameNvm.refl _ | apply State.ltxAbandon_sameNvm | apply State.wr_sameNvm | apply State.puts_sameNvm | apply State.ltxSet_sameNvm | apply State.patApply_sameNvm | apply State.txBoundary_sameNvm | apply SameNvm.when)
    | extract_lets | dsimp only

theorem State.ltxToCal_sameNvm {r : State} {s : State} {n : Nat} (hk : SameNvm r s) :
    SameNvm r (State.ltxToCal s n) := by
  unfold State.ltxToCal
  repeat' first
    | intro _
    | (with_reducible first | assumption | exact SameNvm.refl _ | apply State.puts_sameNvm | apply State.wr_sameNvm | apply State.ltxSet_sameNvm | apply SameNvm.cond)
    | extract_lets | split

theorem State.ltxRecheck_sameNvm {r : State} {s : State} {n : Nat} (hk : SameNvm r s) :
    SameNvm r (State.ltxRecheck s n) := by
  unfold State.ltxRecheck
  repeat' first
    | intro _
    | (with_reducible first | assumption | exact SameNvm.refl _ | apply State.ltxToCal_sameNvm | apply State.raise_sameNvm | apply State.wrb_sameNvm | apply State.wr_sameNvm | apply SameNvm.when | apply SameNvm.cond)
    | extract_lets | dsimp only | split

theorem State.ltxFault_sameNvm {r : State} {s : State} {n cause : Nat} (hk : SameNvm r s) :
    SameNvm r (State.ltxFault s n cause) := by
  unfold State.ltxFault
  repeat' first
    | intro _
    | (with_reducible first | assumption | exact SameNvm.refl _ | apply State.bump_sameNvm | apply State.wr_sameNvm | apply State.wrb_sameNvm | apply State.ltxAbandon_sameNvm | apply State.optClamp_sameNvm | apply State.ltxSet_sameNvm | apply State.raise_sameNvm | apply State.cmis_sameNvm | apply State.countEvent_sameNvm | apply SameNvm.cond | apply SameNvm.cond_snd)
    | extract_lets | dsimp only | split

theorem State.ltxFaultWindow_sameNvm {r : State} {s : State} {n : Nat} (hk : SameNvm r s) :
    SameNvm r (State.ltxFaultWindow s n) := by
  unfold State.ltxFaultWindow
  repeat' first
    | intro _
    | (with_reducible first | assumption | exact SameNvm.refl _ | apply State.wr_sameNvm | apply State.ltxFault_sameNvm | apply SameNvm.cond)
    | extract_lets | split

theorem State.ltxDisableEnd_sameNvm {r : State} {s : State} {n : Nat} (hk : SameNvm r s) :
    SameNvm r (State.ltxDisableEnd s n) := by
  unfold State.ltxDisableEnd
  repeat' first
    | intro _
    | (with_reducible first | assumption | exact SameNvm.refl _ | apply State.wr_sameNvm | apply State.ltxOff_sameNvm | apply State.ltxRecheck_sameNvm | apply State.ltxSet_sameNvm | apply SameNvm.cond)
    | extract_lets | split

theorem State.ltxLaserOff_sameNvm {r : State} {s : State} {n : Nat} (hk : SameNvm r s) :
    SameNvm r (State.ltxLaserOff s n) := by
  unfold State.ltxLaserOff
  repeat' first
    | intro _
    | (with_reducible first | assumption | exact SameNvm.refl _ | apply State.wr_sameNvm)
    | extract_lets

theorem State.ltxDisable_sameNvm {r : State} {s : State} {n : Nat} (hk : SameNvm r s) :
    SameNvm r (State.ltxDisable s n) := by
  unfold State.ltxDisable
  repeat' first
    | intro _
    | (with_reducible first | assumption | exact SameNvm.refl _ | apply State.ltxAbandon_sameNvm | apply State.ltxSet_sameNvm | apply State.wr_sameNvm | apply State.ltxDisableEnd_sameNvm | apply State.ltxLaserOff_sameNvm | apply State.ltxOff_sameNvm | apply State.ltxRecheck_sameNvm | apply SameNvm.cond)
    | extract_lets | split

theorem State.ltxFaultEnd_sameNvm {r : State} {s : State} {n : Nat} (hk : SameNvm r s) :
    SameNvm r (State.ltxFaultEnd s n) := by
  unfold State.ltxFaultEnd
  repeat' first
    | intro _
    | (with_reducible first | assumption | exact SameNvm.refl _ | apply State.puts_sameNvm | apply State.ltxOff_sameNvm | apply SameNvm.cond)
    | extract_lets | split

theorem State.histEnd_sameNvm {r : State} {s : State} {n : Nat} (hk : SameNvm r s) :
    SameNvm r (State.histEnd s n) := by
  unfold State.histEnd
  repeat' first
    | intro _
    | (with_reducible first | assumption | exact SameNvm.refl _ | apply State.wrFree_sameNvm | apply State.puts_sameNvm | apply SameNvm.each | apply SameNvm.cond)
    | extract_lets | dsimp only | split

theorem State.lrxOff_sameNvm {r : State} {s : State} {n : Nat} (hk : SameNvm r s) :
    SameNvm r (State.lrxOff s n) := by
  unfold State.lrxOff
  repeat' first
    | intro _
    | (with_reducible first | assumption | exact SameNvm.refl _ | apply State.lrxAbandon_sameNvm | apply State.wr_sameNvm | apply State.lrxSet_sameNvm | apply State.puts_sameNvm | apply State.histEnd_sameNvm | apply State.leqStart_sameNvm | apply State.setGroupMode_sameNvm | apply State.leqFollow_sameNvm | apply State.rxBoundary_sameNvm | apply State.ltxDisable_sameNvm | apply SameNvm.when)
    | extract_lets | dsimp only

theorem State.envTrip_sameNvm {r : State} {s : State} {n cause : Nat} (hk : SameNvm r s) :
    SameNvm r (State.envTrip s n cause) := by
  unfold State.envTrip
  repeat' first
    | intro _
    | (with_reducible first | assumption | exact SameNvm.refl _ | apply State.optClamp_sameNvm | apply State.wr_sameNvm | apply State.bump_sameNvm | apply State.raise_sameNvm | apply State.puts_sameNvm | apply State.emit_sameNvm | apply State.ltxFault_sameNvm | apply State.ltxRecheck_sameNvm | apply SameNvm.cond)
    | extract_lets | split

end Sys2Proof.Machine
end

