-- ==== Sys2Proof/Laws/StoredFaults.lean ====
section
/-!
SUPPORT. The operations of Faults that leave the NVM.
-/
set_option Elab.async false
set_option linter.all false
namespace Sys2Proof.Machine

theorem State.refreshRun_sameNvm {r : State} {s : State} (hk : SameNvm r s) :
    SameNvm r (State.refreshRun s) := by
  unfold State.refreshRun
  repeat' first
    | intro _
    | (with_reducible first | assumption | exact SameNvm.refl _ | apply State.puts_sameNvm | apply SameNvm.cond)
    | extract_lets | split

theorem State.xbarFollow_sameNvm {r : State} {s : State} (hk : SameNvm r s) :
    SameNvm r (State.xbarFollow s) := by
  unfold State.xbarFollow
  repeat' first
    | intro _
    | (with_reducible first | assumption | exact SameNvm.refl _ | apply State.straitFlush_sameNvm | apply State.wr_sameNvm | apply State.refreshRun_sameNvm | apply SameNvm.when | apply SameNvm.cond)
    | extract_lets | dsimp only | split

theorem State.pllSet_sameNvm {r : State} {s : State} {p st : Nat} (hk : SameNvm r s) :
    SameNvm r (State.pllSet s p st) := by
  unfold State.pllSet
  repeat' first
    | intro _
    | (with_reducible first | assumption | exact SameNvm.refl _ | apply State.xbarFollow_sameNvm | apply State.wr_sameNvm | apply State.emit_sameNvm | apply SameNvm.cond)
    | extract_lets | split

theorem State.pllGate_sameNvm {r : State} {s : State} {p : Nat} (hk : SameNvm r s) :
    SameNvm r (State.pllGate s p) := by
  unfold State.pllGate
  repeat' first
    | intro _
    | (with_reducible first | assumption | exact SameNvm.refl _ | apply State.atcStop_sameNvm | apply State.wr_sameNvm | apply State.capStop_sameNvm | apply State.arcClusterOff_sameNvm | apply State.xbarFollow_sameNvm | apply SameNvm.each | apply SameNvm.when)
    | extract_lets | dsimp only

theorem State.pllFailed_sameNvm {r : State} {s : State} {p : Nat} (hk : SameNvm r s) :
    SameNvm r (State.pllFailed s p) := by
  unfold State.pllFailed
  repeat' first
    | intro _
    | (with_reducible first | assumption | exact SameNvm.refl _ | apply State.puts_sameNvm | apply State.pllSet_sameNvm | apply State.pllGate_sameNvm)
    | extract_lets

theorem State.objectAction_sameNvm {r : State} {s : State} {src inst : Nat} (hk : SameNvm r s) :
    SameNvm r (State.objectAction s src inst) := by
  unfold State.objectAction
  repeat' first
    | intro _
    | (with_reducible first | assumption | exact SameNvm.refl _ | apply State.lrxFault_sameNvm | apply State.ltxFaultWindow_sameNvm | apply State.hifFault_sameNvm | apply State.pllFailed_sameNvm | apply State.envTrip_sameNvm)
    | extract_lets | dsimp only | split

theorem State.faultEvent_sameNvm {r : State} {s : State} {src inst : Nat} {k : Nat} (hk : SameNvm r s) :
    SameNvm r (State.faultEvent s src inst k) := by
  unfold State.faultEvent
  repeat' first
    | intro _
    | (with_reducible first | assumption | exact SameNvm.refl _ | apply State.countEvent_sameNvm | apply State.objectAction_sameNvm | apply SameNvm.cond | apply SameNvm.cond_snd)
    | extract_lets | dsimp only | split

end Sys2Proof.Machine
end

