-- ==== Sys2Proof/Laws/StoredPowerOps.lean ====
section
/-!
SUPPORT. The operations of PowerOps that leave the NVM.
-/
set_option Elab.async false
set_option linter.all false
namespace Sys2Proof.Machine

theorem State.dvfsKick_sameNvm {r : State} {s : State} (hk : SameNvm r s) :
    SameNvm r (State.dvfsKick s) := by
  unfold State.dvfsKick
  repeat' first
    | intro _
    | (with_reducible first | assumption | exact SameNvm.refl _ | apply State.wr_sameNvm | apply State.puts_sameNvm | apply SameNvm.when | apply SameNvm.cond)
    | extract_lets | dsimp only | split

theorem State.dvfsStep_sameNvm {r : State} {s : State} (hk : SameNvm r s) :
    SameNvm r (State.dvfsStep s) := by
  unfold State.dvfsStep
  repeat' first
    | intro _
    | (with_reducible first | assumption | exact SameNvm.refl _ | apply State.wr_sameNvm | apply SameNvm.cond)
    | extract_lets | dsimp only | split

theorem State.wakeRecord_sameNvm {r : State} {s : State} {src obj frm ticks : Nat} {held : Bool} (hk : SameNvm r s) :
    SameNvm r (State.wakeRecord s src obj frm ticks held) := by
  unfold State.wakeRecord
  repeat' first
    | intro _
    | (with_reducible first | assumption | exact SameNvm.refl _ | apply State.puts_sameNvm | apply State.raise_sameNvm | apply State.emit_sameNvm)
    | extract_lets

theorem State.wakeLine_sameNvm {r : State} {s : State} {n : Nat} {egress : Bool} (hk : SameNvm r s) :
    SameNvm r (State.wakeLine s n egress) := by
  unfold State.wakeLine
  repeat' first
    | intro _
    | (with_reducible first | assumption | exact SameNvm.refl _ | apply State.wr_sameNvm | apply SameNvm.when | apply SameNvm.cond)
    | extract_lets | dsimp only | split

theorem State.wakeHost_sameNvm {r : State} {s : State} {h : Nat} {egress : Bool} (hk : SameNvm r s) :
    SameNvm r (State.wakeHost s h egress) := by
  unfold State.wakeHost
  repeat' first
    | intro _
    | (with_reducible first | assumption | exact SameNvm.refl _ | apply State.wr_sameNvm | apply SameNvm.when)
    | extract_lets | dsimp only

theorem State.wakeBlocks_sameNvm {r : State} {s : State} {n : Nat} {egress : Bool} (hk : SameNvm r s) :
    SameNvm r (State.wakeBlocks s n egress) := by
  unfold State.wakeBlocks
  repeat' first
    | intro _
    | (with_reducible first | assumption | exact SameNvm.refl _ | apply State.wr_sameNvm | apply State.wakeLine_sameNvm | apply State.wakeHost_sameNvm | apply SameNvm.each)
    | extract_lets | dsimp only
    | (with_reducible first | apply SameNvm.other)

theorem State.trimEnd_sameNvm {r : State} {s : State} {n : Nat} (hk : SameNvm r s) :
    SameNvm r (State.trimEnd s n) := by
  unfold State.trimEnd
  repeat' first
    | intro _
    | (with_reducible first | assumption | exact SameNvm.refl _ | apply State.wr_sameNvm | apply State.dvfsKick_sameNvm | apply SameNvm.when)
    | extract_lets | dsimp only

theorem State.wakeRecords_sameNvm {r : State} {s : State} {src n : Nat} {egress : Bool} {leaves : Nat → Bool} (hk : SameNvm r s) :
    SameNvm r (State.wakeRecords s src n egress leaves) := by
  unfold State.wakeRecords
  repeat' first
    | intro _
    | (with_reducible first | assumption | exact SameNvm.refl _ | apply State.wakeRecord_sameNvm | apply SameNvm.each | apply SameNvm.cond | apply SameNvm.cond_snd)
    | extract_lets | dsimp only | split

theorem State.wakeDir_sameNvm {r : State} {s : State} {src n : Nat} {egress : Bool} (hk : SameNvm r s) :
    SameNvm r (State.wakeDir s src n egress) := by
  unfold State.wakeDir
  repeat' first
    | intro _
    | (with_reducible first | assumption | exact SameNvm.refl _ | apply State.wakeRecords_sameNvm | apply State.wr_sameNvm | apply State.trimEnd_sameNvm | apply State.wakeBlocks_sameNvm | apply SameNvm.when | apply SameNvm.cond)
    | extract_lets | dsimp only | split

theorem State.trimLoad_sameNvm {r : State} {s : State} {n : Nat} (hk : SameNvm r s) :
    SameNvm r (State.trimLoad s n) := by
  unfold State.trimLoad
  repeat' first
    | intro _
    | (with_reducible first | assumption | exact SameNvm.refl _ | apply State.wakeRecord_sameNvm | apply State.trimEnd_sameNvm | apply SameNvm.cond)
    | extract_lets | split

theorem State.wakeDone_sameNvm {r : State} {s : State} {device : Bool} {done : List SleepStep} (hk : SameNvm r s) :
    SameNvm r (State.wakeDone s device done) := by
  unfold State.wakeDone
  repeat' first
    | intro _
    | (with_reducible first | assumption | exact SameNvm.refl _ | apply State.lrxToCal_sameNvm | apply State.ltxRecheck_sameNvm | apply State.wakeLine_sameNvm | apply State.hifStart_sameNvm | apply State.wakeHost_sameNvm | apply SameNvm.each | apply SameNvm.when | apply SameNvm.cond)
    | extract_lets | dsimp only | split

theorem State.standbyWakeStart_sameNvm {r : State} {s : State} {src : Nat} (hk : SameNvm r s) :
    SameNvm r (State.standbyWakeStart s src) := by
  unfold State.standbyWakeStart
  repeat' first
    | intro _
    | (with_reducible first | assumption | exact SameNvm.refl _ | apply State.wakeRecord_sameNvm | apply State.puts_sameNvm)
    | extract_lets | dsimp only
    | (with_reducible first | apply SameNvm.other)

theorem State.standbyRelease_sameNvm {r : State} {s : State} {src : Nat} (hk : SameNvm r s) :
    SameNvm r (State.standbyRelease s src) := by
  unfold State.standbyRelease
  repeat' first
    | intro _
    | (with_reducible first | assumption | exact SameNvm.refl _ | apply State.standbyWakeStart_sameNvm | apply State.puts_sameNvm | apply SameNvm.cond)
    | extract_lets | split

theorem State.wakeHeld_sameNvm {r : State} {s : State} {src : Nat} (hk : SameNvm r s) :
    SameNvm r (State.wakeHeld s src) := by
  unfold State.wakeHeld
  repeat' first
    | intro _
    | (with_reducible first | assumption | exact SameNvm.refl _ | apply State.wakeRecord_sameNvm | apply SameNvm.cond)
    | extract_lets | split

theorem State.deviceAbandon_sameNvm {r : State} {s : State} {src : Nat} (hk : SameNvm r s) :
    SameNvm r (State.deviceAbandon s src) := by
  unfold State.deviceAbandon
  repeat' first
    | intro _
    | (with_reducible first | assumption | exact SameNvm.refl _ | apply State.wakeRecord_sameNvm | apply State.puts_sameNvm | apply State.wakeDone_sameNvm | apply SameNvm.when | apply OptSameNvm.getD)
    | extract_lets | dsimp only
    | (with_reducible first | apply SameNvm.other)

theorem State.deepWakeStart_sameNvm {r : State} {s : State} {src : Nat} (hk : SameNvm r s) :
    SameNvm r (State.deepWakeStart s src) := by
  unfold State.deepWakeStart
  repeat' first
    | intro _
    | (with_reducible first | assumption | exact SameNvm.refl _ | apply State.wakeRecord_sameNvm | apply State.puts_sameNvm)
    | extract_lets

theorem State.wakeDevice_sameNvm {r : State} {s : State} {src : Nat} (hk : SameNvm r s) :
    SameNvm r (State.wakeDevice s src) := by
  unfold State.wakeDevice
  repeat' first
    | intro _
    | (with_reducible first | assumption | exact SameNvm.refl _ | apply State.wakeHeld_sameNvm | apply State.standbyRelease_sameNvm | apply State.wr_sameNvm | apply State.deepWakeStart_sameNvm | apply State.deviceAbandon_sameNvm | apply SameNvm.cond)
    | extract_lets | split

theorem State.lineWake_sameNvm {r : State} {s : State} {src n : Nat} (hk : SameNvm r s) :
    SameNvm r (State.lineWake s src n) := by
  unfold State.lineWake
  repeat' first
    | intro _
    | (with_reducible first | assumption | exact SameNvm.refl _ | apply State.wakeDevice_sameNvm | apply State.wakeDir_sameNvm | apply SameNvm.when | apply SameNvm.cond)
    | extract_lets | dsimp only | split

theorem State.laneReload_sameNvm {r : State} {s : State} {n : Nat} (hk : SameNvm r s) :
    SameNvm r (State.laneReload s n) := by
  unfold State.laneReload
  repeat' first
    | intro _
    | (with_reducible first | assumption | exact SameNvm.refl _ | apply State.wr_sameNvm | apply State.mlsePut_sameNvm | apply State.thrManual_sameNvm | apply State.leqStart_sameNvm | apply SameNvm.when)
    | extract_lets | dsimp only

theorem State.setDomain_sameNvm {r : State} {s : State} {d : Nat} {up : Bool} (hk : SameNvm r s) :
    SameNvm r (State.setDomain s d up) := by
  unfold State.setDomain
  repeat' first
    | intro _
    | (with_reducible first | assumption | exact SameNvm.refl _ | apply State.wrb_sameNvm | apply State.setMask_sameNvm | apply State.laneReload_sameNvm | apply State.arcClusterOff_sameNvm | apply State.wr_sameNvm | apply State.loadStores_sameNvm | apply State.clearStores_sameNvm | apply State.xbarOff_sameNvm | apply State.refreshRun_sameNvm | apply SameNvm.each | apply SameNvm.when | apply SameNvm.cond)
    | extract_lets | dsimp only | split
    | (with_reducible first | apply SameNvm.other)

theorem State.saveRecord_sameNvm {r : State} {s : State} {kind : RecordKind} {n : Nat} (hk : SameNvm r s) :
    SameNvm r (State.saveRecord s kind n) := by
  unfold State.saveRecord
  repeat' first
    | intro _
    | (with_reducible first | assumption | exact SameNvm.refl _ | apply State.wrInt_sameNvm | apply State.wr_sameNvm | apply State.setMask_sameNvm | apply SameNvm.foldl)
    | extract_lets | dsimp only | split
    | (with_reducible first | apply SameNvm.other)

theorem State.recordBad_sameNvm {r : State} {s : State} {kind : RecordKind} {n : Nat} (hk : SameNvm r s) :
    SameNvm r (State.recordBad s kind n) := by
  unfold State.recordBad
  repeat' first
    | intro _
    | (with_reducible first | assumption | exact SameNvm.refl _ | apply State.wr_sameNvm | apply State.raise_sameNvm | apply State.setMask_sameNvm)
    | extract_lets | dsimp only | split

theorem State.abortTests_sameNvm {r : State} {s : State} (hk : SameNvm r s) :
    SameNvm r (State.abortTests s) := by
  unfold State.abortTests
  repeat' first
    | intro _
    | (with_reducible first | assumption | exact SameNvm.refl _ | apply State.endTest_sameNvm | apply SameNvm.each)
    | extract_lets | dsimp only

theorem State.imgFail_sameNvm {r : State} {s : State} {code : Nat} {lane sec det : Option Nat} (hk : SameNvm r s) :
    SameNvm r (State.imgFail s code lane sec det) := by
  unfold State.imgFail
  repeat' first
    | intro _
    | (with_reducible first | assumption | exact SameNvm.refl _ | apply State.wr_sameNvm | apply State.wrFree_sameNvm | apply State.free_sameNvm | apply State.puts_sameNvm)
    | extract_lets | dsimp only | split

theorem State.imgReport_sameNvm {r : State} {s : State} {op err : Nat} (hk : SameNvm r s) :
    SameNvm r (State.imgReport s op err) := by
  unfold State.imgReport
  repeat' first
    | intro _
    | (with_reducible first | assumption | exact SameNvm.refl _ | apply State.emit_sameNvm | apply State.raise_sameNvm | apply SameNvm.cond)
    | extract_lets | split

theorem State.imgEnd_sameNvm {r : State} {s : State} {err : Nat} (hk : SameNvm r s) :
    SameNvm r (State.imgEnd s err) := by
  unfold State.imgEnd
  repeat' first
    | intro _
    | (with_reducible first | assumption | exact SameNvm.refl _ | apply State.puts_sameNvm | apply State.imgReport_sameNvm | apply State.cdbEnd_sameNvm | apply SameNvm.when | apply SameNvm.cond)
    | extract_lets | dsimp only | split

theorem State.pcAbort_sameNvm {r : State} {s : State} (hk : SameNvm r s) :
    SameNvm r (State.pcAbort s) := by
  unfold State.pcAbort
  repeat' first
    | intro _
    | (with_reducible first | assumption | exact SameNvm.refl _ | apply State.wr_sameNvm | apply State.imgFail_sameNvm | apply State.imgEnd_sameNvm | apply SameNvm.each | apply SameNvm.cond)
    | extract_lets | dsimp only | split

theorem State.laneSave_sameNvm {r : State} {s : State} {n : Nat} {egress : Bool} (hk : SameNvm r s) :
    SameNvm r (State.laneSave s n egress) := by
  unfold State.laneSave
  repeat' first
    | intro _
    | (with_reducible first | assumption | exact SameNvm.refl _ | apply State.saveRecord_sameNvm | apply SameNvm.when | apply SameNvm.cond)
    | extract_lets | dsimp only | split

theorem State.standbyEnter_sameNvm {r : State} {s : State} (hk : SameNvm r s) :
    SameNvm r (State.standbyEnter s) := by
  unfold State.standbyEnter
  repeat' first
    | intro _
    | (with_reducible first | assumption | exact SameNvm.refl _ | apply State.abortTests_sameNvm | apply State.laneSave_sameNvm | apply State.lrxOff_sameNvm | apply State.optClamp_sameNvm | apply State.hifOff_sameNvm | apply State.puts_sameNvm | apply SameNvm.each)
    | extract_lets | dsimp only | split
    | (with_reducible first | apply SameNvm.other)

theorem State.resetOutsideAon_sameNvm {r : State} {s : State} (hk : SameNvm r s) :
    SameNvm r (State.resetOutsideAon s) := by
  unfold State.resetOutsideAon
  repeat' first
    | intro _
    | (with_reducible first | assumption | exact SameNvm.refl _ | apply State.resetFields_sameNvm | apply State.arcClusterOff_sameNvm | apply State.clearStores_sameNvm | apply State.xbarOff_sameNvm | apply SameNvm.each)
    | extract_lets | dsimp only
    | (with_reducible first | apply SameNvm.other)

theorem State.deepEnter_sameNvm {r : State} {s : State} (hk : SameNvm r s) :
    SameNvm r (State.deepEnter s) := by
  unfold State.deepEnter
  repeat' first
    | intro _
    | (with_reducible first | assumption | exact SameNvm.refl _ | apply State.puts_sameNvm | apply State.resetOutsideAon_sameNvm | apply State.wrNow_sameNvm | apply SameNvm.each)
    | extract_lets | dsimp only
    | (with_reducible first | apply SameNvm.other)

theorem State.activeCheck_sameNvm {r : State} {s : State} (hk : SameNvm r s) :
    SameNvm r (State.activeCheck s) := by
  unfold State.activeCheck
  repeat' first
    | intro _
    | (with_reducible first | assumption | exact SameNvm.refl _ | apply State.wr_sameNvm | apply State.puts_sameNvm | apply SameNvm.cond)
    | extract_lets | dsimp only | split

end Sys2Proof.Machine
end

