-- ==== Sys2Proof/Laws/StoredLineRx.lean ====
section
/-!
SUPPORT. The operations of LineRx that leave the NVM.
-/
set_option Elab.async false
set_option linter.all false
namespace Sys2Proof.Machine

theorem State.lrxEnableOn_sameNvm {r : State} {s : State} {n : Nat} (hk : SameNvm r s) :
    SameNvm r (State.lrxEnableOn s n) := by
  unfold State.lrxEnableOn
  repeat' first
    | intro _
    | (with_reducible first | assumption | exact SameNvm.refl _ | apply State.wr_sameNvm | apply State.lrxToCal_sameNvm | apply State.ltxRecheck_sameNvm | apply SameNvm.cond)
    | extract_lets | split

theorem execLrxEnable_sameNvm {r : State} {n : Lane} {s : State} (hk : SameNvm r s) :
    OutSameNvm r (execLrxEnable n s) := by
  unfold execLrxEnable
  repeat' first
    | intro _
    | (with_reducible first | assumption | exact SameNvm.refl _ | apply OutSameNvm.next | apply State.access_sameNvm | apply State.wr_sameNvm | apply State.laneService_sameNvm | apply State.lrxEnableOn_sameNvm | apply SameNvm.when)
    | extract_lets | dsimp only

theorem execLrxDisable_sameNvm {r : State} {n : Lane} {s : State} (hk : SameNvm r s) :
    OutSameNvm r (execLrxDisable n s) := by
  unfold execLrxDisable
  repeat' first
    | intro _
    | (with_reducible first | assumption | exact SameNvm.refl _ | apply OutSameNvm.next | apply State.access_sameNvm | apply State.wr_sameNvm | apply State.lrxOff_sameNvm | apply State.clearLastings_sameNvm | apply State.activeCheck_sameNvm)
    | extract_lets | dsimp only
    | (with_reducible first | apply SameNvm.other)

theorem State.lrxRestartNow_sameNvm {r : State} {s : State} {n : Nat} (hk : SameNvm r s) :
    SameNvm r (State.lrxRestartNow s n) := by
  unfold State.lrxRestartNow
  repeat' first
    | intro _
    | (with_reducible first | assumption | exact SameNvm.refl _ | apply State.wr_sameNvm | apply State.clearLastings_sameNvm | apply State.puts_sameNvm | apply State.lrxWaitSd_sameNvm | apply State.lrxToCal_sameNvm | apply State.svcSend_sameNvm | apply SameNvm.when | apply SameNvm.cond)
    | extract_lets | dsimp only | split

theorem execLrxRestart_sameNvm {r : State} {n : Lane} {s : State} (hk : SameNvm r s) :
    OutSameNvm r (execLrxRestart n s) := by
  unfold execLrxRestart
  repeat' first
    | intro _
    | (with_reducible first | assumption | exact SameNvm.refl _ | apply OutSameNvm.next | apply State.access_sameNvm | apply State.laneService_sameNvm | apply State.lrxRestartNow_sameNvm)
    | extract_lets | dsimp only

theorem State.lrxCommitNow_sameNvm {r : State} {s : State} {n : Nat} (hk : SameNvm r s) :
    SameNvm r (State.lrxCommitNow s n) := by
  unfold State.lrxCommitNow
  repeat' first
    | intro _
    | (with_reducible first | assumption | exact SameNvm.refl _ | apply State.wr_sameNvm | apply State.lrxApply_sameNvm | apply SameNvm.cond)
    | extract_lets | split

theorem execLrxCommit_sameNvm {r : State} {n : Lane} {s : State} (hk : SameNvm r s) :
    OutSameNvm r (execLrxCommit n s) := by
  unfold execLrxCommit
  repeat' first
    | intro _
    | (with_reducible first | assumption | exact SameNvm.refl _ | apply OutSameNvm.next | apply State.access_sameNvm | apply State.laneService_sameNvm | apply State.lrxCommitNow_sameNvm)
    | extract_lets | dsimp only

theorem execLrxCntClr_sameNvm {r : State} {n : Lane} {s : State} (hk : SameNvm r s) :
    OutSameNvm r (execLrxCntClr n s) := by
  unfold execLrxCntClr
  repeat' first
    | intro _
    | (with_reducible first | assumption | exact SameNvm.refl _ | apply OutSameNvm.next | apply State.access_sameNvm | apply State.clear_sameNvm)
    | extract_lets | dsimp only

theorem State.setSlice_sameNvm {r : State} {s : State} {n i : Nat} {offset gain skew : Int} (hk : SameNvm r s) :
    SameNvm r (State.setSlice s n i offset gain skew) := by
  unfold State.setSlice
  repeat' first
    | intro _
    | (with_reducible first | assumption | exact SameNvm.refl _ | apply State.wrInt_sameNvm)
    | extract_lets

theorem State.sliceFail_sameNvm {r : State} {s : State} {n i : Nat} (hk : SameNvm r s) :
    SameNvm r (State.sliceFail s n i) := by
  unfold State.sliceFail
  repeat' first
    | intro _
    | (with_reducible first | assumption | exact SameNvm.refl _ | apply State.wr_sameNvm | apply State.lrxFault_sameNvm | apply State.lrxAbandon_sameNvm | apply State.puts_sameNvm | apply State.raise_sameNvm | apply SameNvm.cond)
    | extract_lets | dsimp only | split

theorem State.ofsPut_sameNvm {r : State} {s : State} {n : Nat} {code : Int} (hk : SameNvm r s) :
    SameNvm r (State.ofsPut s n code) := by
  unfold State.ofsPut
  repeat' first
    | intro _
    | (with_reducible first | assumption | exact SameNvm.refl _ | apply State.wrInt_sameNvm | apply State.raise_sameNvm | apply SameNvm.when)
    | extract_lets | dsimp only

theorem execLrxCalDone_sameNvm {r : State} {n : Lane} {est : List SliceEst} {ofs : BitVec 8} {linRx linTx : BitVec 1024} {s : State} (hk : SameNvm r s) :
    OutSameNvm r (execLrxCalDone n est ofs linRx linTx s) := by
  unfold execLrxCalDone
  repeat' first
    | intro _
    | (with_reducible first | assumption | exact SameNvm.refl _ | apply OutSameNvm.next | apply State.linMeasured_sameNvm | apply State.setSlice_sameNvm | apply State.sliceFail_sameNvm | apply State.bump_sameNvm | apply State.wr_sameNvm | apply State.ofsPut_sameNvm | apply State.puts_sameNvm | apply State.lrxWaitSd_sameNvm | apply State.activeCheck_sameNvm | apply SameNvm.each | apply SameNvm.when | apply OutSameNvm.cond | apply SameNvm.cond)
    | extract_lets | dsimp only | split

theorem execLrxCalTimeout_sameNvm {r : State} {n : Lane} {s : State} (hk : SameNvm r s) :
    OutSameNvm r (execLrxCalTimeout n s) := by
  unfold execLrxCalTimeout
  repeat' first
    | intro _
    | (with_reducible first | assumption | exact SameNvm.refl _ | apply OutSameNvm.next | apply State.lrxFault_sameNvm | apply State.activeCheck_sameNvm | apply OutSameNvm.cond | apply SameNvm.cond)
    | extract_lets | split

theorem execAdcShadowDone_sameNvm {r : State} {n : Lane} {offset gain skew : Int} {s : State} (hk : SameNvm r s) :
    OutSameNvm r (execAdcShadowDone n offset gain skew s) := by
  unfold execAdcShadowDone
  repeat' first
    | intro _
    | (with_reducible first | assumption | exact SameNvm.refl _ | apply OutSameNvm.next | apply State.sliceFail_sameNvm | apply State.wrInt_sameNvm | apply State.puts_sameNvm | apply OutSameNvm.cond | apply SameNvm.cond)
    | extract_lets | split

theorem execSwapDeferExpiry_sameNvm {r : State} {n : Lane} {tx : Bool} {s : State} (hk : SameNvm r s) :
    OutSameNvm r (execSwapDeferExpiry n tx s) := by
  unfold execSwapDeferExpiry
  repeat' first
    | intro _
    | (with_reducible first | assumption | exact SameNvm.refl _ | apply OutSameNvm.next | apply State.puts_sameNvm | apply OutSameNvm.cond | apply SameNvm.cond)
    | extract_lets | split

theorem execAdcOverrange_sameNvm {r : State} {n : Lane} {s : State} (hk : SameNvm r s) :
    OutSameNvm r (execAdcOverrange n s) := by
  unfold execAdcOverrange
  repeat' first
    | intro _
    | (with_reducible first | assumption | exact SameNvm.refl _ | apply OutSameNvm.next | apply State.bump_sameNvm | apply State.faultEvent_sameNvm | apply OutSameNvm.cond | apply SameNvm.cond)
    | extract_lets | split

theorem execSdAssert_sameNvm {r : State} {n : Lane} {s : State} (hk : SameNvm r s) :
    OutSameNvm r (execSdAssert n s) := by
  unfold execSdAssert
  repeat' first
    | intro _
    | (with_reducible first | assumption | exact SameNvm.refl _ | apply OutSameNvm.next | apply State.wr_sameNvm | apply State.raise_sameNvm | apply State.lineWake_sameNvm | apply State.lrxStartAgc_sameNvm | apply OutSameNvm.cond | apply SameNvm.cond)
    | extract_lets | split

theorem execSdDeassert_sameNvm {r : State} {n : Lane} {s : State} (hk : SameNvm r s) :
    OutSameNvm r (execSdDeassert n s) := by
  unfold execSdDeassert
  repeat' first
    | intro _
    | (with_reducible first | assumption | exact SameNvm.refl _ | apply OutSameNvm.next | apply State.wr_sameNvm | apply State.cmis_sameNvm | apply State.bump_sameNvm | apply State.raise_sameNvm | apply State.lrxWaitSd_sameNvm | apply OutSameNvm.cond | apply SameNvm.cond)
    | extract_lets | split

theorem execWakePatternDetect_sameNvm {r : State} {n : Lane} {s : State} (hk : SameNvm r s) :
    OutSameNvm r (execWakePatternDetect n s) := by
  unfold execWakePatternDetect
  repeat' first
    | intro _
    | (with_reducible first | assumption | exact SameNvm.refl _ | apply OutSameNvm.next | apply State.raise_sameNvm | apply State.lineWake_sameNvm | apply OutSameNvm.cond | apply SameNvm.cond)
    | extract_lets | split

theorem State.reacquire_sameNvm {r : State} {s : State} {src n : Nat} {g : State → State} (hk : SameNvm r s) (hgg : ∀ u, SameNvm r u → SameNvm r (g u)) :
    SameNvm r (State.reacquire s src n g) := by
  unfold State.reacquire
  repeat' first
    | intro _
    | (with_reducible first | apply hgg | assumption | exact SameNvm.refl _ | apply State.countEvent_sameNvm | apply State.lrxFault_sameNvm | apply SameNvm.cond | apply SameNvm.cond_snd)
    | extract_lets | dsimp only | split

theorem State.agcRun_sameNvm {r : State} {s : State} {n : Nat} {err : Int} (hk : SameNvm r s) :
    SameNvm r (State.agcRun s n err) := by
  unfold State.agcRun
  repeat' first
    | intro _
    | (with_reducible first | assumption | exact SameNvm.refl _ | apply State.wr_sameNvm | apply State.puts_sameNvm | apply State.lrxCdrPhase_sameNvm | apply SameNvm.cond)
    | extract_lets | split

theorem State.acqCapture_sameNvm {r : State} {s : State} {n : Nat} (hk : SameNvm r s) :
    SameNvm r (State.acqCapture s n) := by
  unfold State.acqCapture
  repeat' first
    | intro _
    | (with_reducible first | assumption | exact SameNvm.refl _ | apply State.bump_sameNvm | apply State.wr_sameNvm | apply State.lrxAttemptFail_sameNvm | apply State.lrxStartAgc_sameNvm | apply SameNvm.cond)
    | extract_lets | split

theorem State.agcService_sameNvm {r : State} {s : State} {n : Nat} {err : Int} (hk : SameNvm r s) :
    SameNvm r (State.agcService s n err) := by
  unfold State.agcService
  repeat' first
    | intro _
    | (with_reducible first | assumption | exact SameNvm.refl _ | apply State.wr_sameNvm | apply State.puts_sameNvm | apply State.bump_sameNvm | apply State.raise_sameNvm | apply State.reacquire_sameNvm | apply State.lrxStartAgc_sameNvm | apply SameNvm.when | apply SameNvm.cond)
    | extract_lets | dsimp only | split

theorem State.ofsLoop_sameNvm {r : State} {s : State} {n : Nat} {step : Int} (hk : SameNvm r s) :
    SameNvm r (State.ofsLoop s n step) := by
  unfold State.ofsLoop
  repeat' first
    | intro _
    | (with_reducible first | assumption | exact SameNvm.refl _ | apply State.ofsPut_sameNvm)
    | extract_lets

theorem execAgcWindow_sameNvm {r : State} {n : Lane} {level : Nat} {ofsStep : Int} {s : State} (hk : SameNvm r s) :
    OutSameNvm r (execAgcWindow n level ofsStep s) := by
  unfold execAgcWindow
  repeat' first
    | intro _
    | (with_reducible first | assumption | exact SameNvm.refl _ | apply OutSameNvm.next | apply State.wr_sameNvm | apply State.ofsLoop_sameNvm | apply State.agcService_sameNvm | apply State.lrxCdrPhase_sameNvm | apply State.agcRun_sameNvm | apply State.acqCapture_sameNvm | apply OutSameNvm.cond | apply SameNvm.cond)
    | extract_lets | split

theorem execAgcTrimStep_sameNvm {r : State} {n : Lane} {avgErr : Int} {s : State} (hk : SameNvm r s) :
    OutSameNvm r (execAgcTrimStep n avgErr s) := by
  unfold execAgcTrimStep
  repeat' first
    | intro _
    | (with_reducible first | assumption | exact SameNvm.refl _ | apply OutSameNvm.next | apply State.raise_sameNvm | apply State.wr_sameNvm | apply OutSameNvm.cond | apply SameNvm.cond)
    | extract_lets | split

theorem State.lrxCdrLoss_sameNvm {r : State} {s : State} {n : Nat} (hk : SameNvm r s) :
    SameNvm r (State.lrxCdrLoss s n) := by
  unfold State.lrxCdrLoss
  repeat' first
    | intro _
    | (with_reducible first | assumption | exact SameNvm.refl _ | apply State.puts_sameNvm | apply State.bump_sameNvm | apply State.raise_sameNvm | apply State.reacquire_sameNvm | apply State.cdrStart_sameNvm | apply State.lrxCdrPhase_sameNvm | apply State.lrxAttemptFail_sameNvm | apply SameNvm.cond)
    | extract_lets | dsimp only | split

theorem State.cdrRun_sameNvm {r : State} {s : State} {n : Nat} {hold : Bool} {errs : List Int} (hk : SameNvm r s) :
    SameNvm r (State.cdrRun s n hold errs).1 := by
  unfold State.cdrRun
  repeat' first
    | intro _
    | (with_reducible first | assumption | exact SameNvm.refl _ | apply State.wrInt_sameNvm | apply State.puts_sameNvm | apply State.lrxCdrPhase_sameNvm | apply SameNvm.cond | apply SameNvm.cond | apply SameNvm.cond_snd)
    | extract_lets | dsimp only | split

theorem execCdrLockInterval_sameNvm {r : State} {n : Lane} {errs : List Int} {s : State} (hk : SameNvm r s) :
    OutSameNvm r (execCdrLockInterval n errs s) := by
  unfold execCdrLockInterval
  repeat' first
    | intro _
    | (with_reducible first | assumption | exact SameNvm.refl _ | apply OutSameNvm.next | apply State.cdrRun_sameNvm | apply State.lrxCdrLoss_sameNvm | apply State.puts_sameNvm | apply State.lrxFfePhase_sameNvm | apply State.leqFollow_sameNvm | apply State.wr_sameNvm | apply OutSameNvm.cond | apply SameNvm.cond | apply SameNvm.cond_snd)
    | extract_lets | dsimp only | split

theorem execAcqTimeout_sameNvm {r : State} {n : Lane} {phase : Fin 5} {s : State} (hk : SameNvm r s) :
    OutSameNvm r (execAcqTimeout n phase s) := by
  unfold execAcqTimeout
  repeat' first
    | intro _
    | (with_reducible first | assumption | exact SameNvm.refl _ | apply OutSameNvm.next | apply State.lrxAttemptFail_sameNvm | apply OutSameNvm.cond | apply SameNvm.cond)
    | extract_lets | split

theorem execTrainTimeout_sameNvm {r : State} {n : Lane} {s : State} (hk : SameNvm r s) :
    OutSameNvm r (execTrainTimeout n s) := by
  unfold execTrainTimeout
  repeat' first
    | intro _
    | (with_reducible first | assumption | exact SameNvm.refl _ | apply OutSameNvm.next | apply State.lrxFault_sameNvm | apply OutSameNvm.cond | apply SameNvm.cond)
    | extract_lets | split

theorem execLrxFaultAutoRestart_sameNvm {r : State} {n : Lane} {s : State} (hk : SameNvm r s) :
    OutSameNvm r (execLrxFaultAutoRestart n s) := by
  unfold execLrxFaultAutoRestart
  repeat' first
    | intro _
    | (with_reducible first | assumption | exact SameNvm.refl _ | apply OutSameNvm.next | apply State.puts_sameNvm | apply State.lrxToCal_sameNvm | apply State.lrxWaitSd_sameNvm | apply OutSameNvm.cond | apply SameNvm.cond)
    | extract_lets | split

theorem execLockedToService_sameNvm {r : State} {n : Lane} {s : State} (hk : SameNvm r s) :
    OutSameNvm r (execLockedToService n s) := by
  unfold execLockedToService
  repeat' first
    | intro _
    | (with_reducible first | assumption | exact SameNvm.refl _ | apply OutSameNvm.next | apply State.lrxSet_sameNvm | apply OutSameNvm.cond | apply SameNvm.cond)
    | extract_lets | dsimp only | split

theorem execServiceExit_sameNvm {r : State} {n : Lane} {s : State} (hk : SameNvm r s) :
    OutSameNvm r (execServiceExit n s) := by
  unfold execServiceExit
  repeat' first
    | intro _
    | (with_reducible first | assumption | exact SameNvm.refl _ | apply OutSameNvm.next | apply State.lrxSet_sameNvm | apply OutSameNvm.cond | apply SameNvm.cond)
    | extract_lets | split

theorem execRxSleepWake_sameNvm {r : State} {n : Lane} {s : State} (hk : SameNvm r s) :
    OutSameNvm r (execRxSleepWake n s) := by
  unfold execRxSleepWake
  repeat' first
    | intro _
    | (with_reducible first | assumption | exact SameNvm.refl _ | apply OutSameNvm.next | apply State.wr_sameNvm | apply OutSameNvm.cond | apply SameNvm.cond)
    | extract_lets | split

theorem execRxResumeDone_sameNvm {r : State} {n : Lane} {ok recOk : Bool} {s : State} (hk : SameNvm r s) :
    OutSameNvm r (execRxResumeDone n ok recOk s) := by
  unfold execRxResumeDone
  repeat' first
    | intro _
    | (with_reducible first | assumption | exact SameNvm.refl _ | apply OutSameNvm.next | apply State.puts_sameNvm | apply State.recordBad_sameNvm | apply State.wr_sameNvm | apply State.lrxToCal_sameNvm | apply State.leqFollow_sameNvm | apply State.bump_sameNvm | apply State.lrxStartAgc_sameNvm | apply State.lrxCdrPhase_sameNvm | apply SameNvm.when | apply OutSameNvm.cond | apply SameNvm.cond)
    | extract_lets | dsimp only | split

end Sys2Proof.Machine
end

