-- ==== Sys2Proof/Laws/StoredLineTx.lean ====
section
/-!
SUPPORT. The operations of LineTx that leave the NVM.
-/
set_option Elab.async false
set_option linter.all false
namespace Sys2Proof.Machine

theorem State.ltxEnableOn_sameNvm {r : State} {s : State} {n : Nat} (hk : SameNvm r s) :
    SameNvm r (State.ltxEnableOn s n) := by
  unfold State.ltxEnableOn
  repeat' first
    | intro _
    | (with_reducible first | assumption | exact SameNvm.refl _ | apply State.wr_sameNvm | apply State.ltxRecheck_sameNvm | apply SameNvm.cond)
    | extract_lets | split

theorem execTxEnableRequest_sameNvm {r : State} {n : Lane} {s : State} (hk : SameNvm r s) :
    OutSameNvm r (execTxEnableRequest n s) := by
  unfold execTxEnableRequest
  repeat' first
    | intro _
    | (with_reducible first | assumption | exact SameNvm.refl _ | apply OutSameNvm.next | apply State.access_sameNvm | apply State.wr_sameNvm | apply State.laneService_sameNvm | apply State.ltxEnableOn_sameNvm | apply SameNvm.when)
    | extract_lets | dsimp only

theorem execTxEnableGo_sameNvm {r : State} {n : Lane} {s : State} (hk : SameNvm r s) :
    OutSameNvm r (execTxEnableGo n s) := by
  unfold execTxEnableGo
  repeat' first
    | intro _
    | (with_reducible first | assumption | exact SameNvm.refl _ | apply OutSameNvm.next | apply State.puts_sameNvm | apply State.ltxSet_sameNvm | apply State.wr_sameNvm | apply State.ltxFault_sameNvm | apply OutSameNvm.cond | apply SameNvm.cond)
    | extract_lets | split

theorem execTxenTimeout_sameNvm {r : State} {n : Lane} {s : State} (hk : SameNvm r s) :
    OutSameNvm r (execTxenTimeout n s) := by
  unfold execTxenTimeout
  repeat' first
    | intro _
    | (with_reducible first | assumption | exact SameNvm.refl _ | apply OutSameNvm.next | apply State.ltxFault_sameNvm | apply OutSameNvm.cond | apply SameNvm.cond)
    | extract_lets | split

theorem State.laserOn_sameNvm {r : State} {s : State} {n : Nat} (hk : SameNvm r s) :
    SameNvm r (State.laserOn s n) := by
  unfold State.laserOn
  repeat' first
    | intro _
    | (with_reducible first | assumption | exact SameNvm.refl _ | apply State.puts_sameNvm | apply SameNvm.when)
    | extract_lets | dsimp only

theorem State.drvLow_sameNvm {r : State} {s : State} {n : Nat} (hk : SameNvm r s) :
    SameNvm r (State.drvLow s n) := by
  unfold State.drvLow
  repeat' first
    | intro _
    | (with_reducible first | assumption | exact SameNvm.refl _ | apply State.bump_sameNvm | apply State.raise_sameNvm)
    | extract_lets

theorem execDrvSettleExpiry_sameNvm {r : State} {n : Lane} {drvFltHigh : Bool} {s : State} (hk : SameNvm r s) :
    OutSameNvm r (execDrvSettleExpiry n drvFltHigh s) := by
  unfold execDrvSettleExpiry
  repeat' first
    | intro _
    | (with_reducible first | assumption | exact SameNvm.refl _ | apply OutSameNvm.next | apply State.drvLow_sameNvm | apply State.ltxFault_sameNvm | apply State.laserOn_sameNvm | apply State.ltxSet_sameNvm | apply OutSameNvm.cond | apply SameNvm.cond)
    | extract_lets | split

theorem execBiasTimeout_sameNvm {r : State} {n : Lane} {s : State} (hk : SameNvm r s) :
    OutSameNvm r (execBiasTimeout n s) := by
  unfold execBiasTimeout
  repeat' first
    | intro _
    | (with_reducible first | assumption | exact SameNvm.refl _ | apply OutSameNvm.next | apply State.ltxFault_sameNvm | apply OutSameNvm.cond | apply SameNvm.cond)
    | extract_lets | split

theorem execTxActivate_sameNvm {r : State} {n : Lane} {s : State} (hk : SameNvm r s) :
    OutSameNvm r (execTxActivate n s) := by
  unfold execTxActivate
  repeat' first
    | intro _
    | (with_reducible first | assumption | exact SameNvm.refl _ | apply OutSameNvm.next | apply State.puts_sameNvm | apply State.ltxSet_sameNvm | apply State.wrFree_sameNvm | apply State.raise_sameNvm | apply OutSameNvm.cond | apply SameNvm.cond)
    | extract_lets | split

theorem State.ltxEnableOff_sameNvm {r : State} {s : State} {n : Nat} (hk : SameNvm r s) :
    SameNvm r (State.ltxEnableOff s n) := by
  unfold State.ltxEnableOff
  repeat' first
    | intro _
    | (with_reducible first | assumption | exact SameNvm.refl _ | apply State.wr_sameNvm | apply State.ltxDisable_sameNvm | apply State.ltxFaultEnd_sameNvm | apply State.clearLastings_sameNvm)
    | extract_lets
    | (with_reducible first | apply SameNvm.other)

theorem execTxDisable_sameNvm {r : State} {n : Lane} {trigger : DisableTrigger} {s : State} (hk : SameNvm r s) :
    OutSameNvm r (execTxDisable n trigger s) := by
  unfold execTxDisable
  repeat' first
    | intro _
    | (with_reducible first | assumption | exact SameNvm.refl _ | apply OutSameNvm.next | apply State.access_sameNvm | apply State.ltxEnableOff_sameNvm | apply State.ltxDisable_sameNvm | apply State.wr_sameNvm | apply OutSameNvm.cond | apply SameNvm.cond)
    | extract_lets | dsimp only | split

theorem execTxDisableMute_sameNvm {r : State} {n : Lane} {s : State} (hk : SameNvm r s) :
    OutSameNvm r (execTxDisableMute n s) := by
  unfold execTxDisableMute
  repeat' first
    | intro _
    | (with_reducible first | assumption | exact SameNvm.refl _ | apply OutSameNvm.next | apply State.ltxLaserOff_sameNvm | apply OutSameNvm.cond | apply SameNvm.cond)
    | extract_lets | split

theorem execDrvHoldExpiry_sameNvm {r : State} {n : Lane} {s : State} (hk : SameNvm r s) :
    OutSameNvm r (execDrvHoldExpiry n s) := by
  unfold execDrvHoldExpiry
  repeat' first
    | intro _
    | (with_reducible first | assumption | exact SameNvm.refl _ | apply OutSameNvm.next | apply State.ltxDisableEnd_sameNvm | apply OutSameNvm.cond | apply SameNvm.cond)
    | extract_lets | split

theorem State.ltxLeaveFault_sameNvm {r : State} {s : State} {n : Nat} (hk : SameNvm r s) :
    SameNvm r (State.ltxLeaveFault s n) := by
  unfold State.ltxLeaveFault
  repeat' first
    | intro _
    | (with_reducible first | assumption | exact SameNvm.refl _ | apply State.puts_sameNvm | apply State.wr_sameNvm | apply State.ltxSet_sameNvm | apply SameNvm.when)
    | extract_lets | dsimp only

theorem State.ltxRestartNow_sameNvm {r : State} {s : State} {n : Nat} (hk : SameNvm r s) :
    SameNvm r (State.ltxRestartNow s n) := by
  unfold State.ltxRestartNow
  repeat' first
    | intro _
    | (with_reducible first | assumption | exact SameNvm.refl _ | apply State.ltxLeaveFault_sameNvm | apply State.clearLastings_sameNvm | apply State.ltxRecheck_sameNvm | apply SameNvm.cond)
    | extract_lets | split

theorem execLtxRestart_sameNvm {r : State} {n : Lane} {s : State} (hk : SameNvm r s) :
    OutSameNvm r (execLtxRestart n s) := by
  unfold execLtxRestart
  repeat' first
    | intro _
    | (with_reducible first | assumption | exact SameNvm.refl _ | apply OutSameNvm.next | apply State.access_sameNvm | apply State.laneService_sameNvm | apply State.ltxRestartNow_sameNvm)
    | extract_lets | dsimp only

theorem State.ltxCommitNow_sameNvm {r : State} {s : State} {n : Nat} (hk : SameNvm r s) :
    SameNvm r (State.ltxCommitNow s n) := by
  unfold State.ltxCommitNow
  repeat' first
    | intro _
    | (with_reducible first | assumption | exact SameNvm.refl _ | apply State.wr_sameNvm | apply State.raise_sameNvm | apply State.ltxApply_sameNvm | apply SameNvm.cond)
    | extract_lets | split

theorem execLtxCommit_sameNvm {r : State} {n : Lane} {s : State} (hk : SameNvm r s) :
    OutSameNvm r (execLtxCommit n s) := by
  unfold execLtxCommit
  repeat' first
    | intro _
    | (with_reducible first | assumption | exact SameNvm.refl _ | apply OutSameNvm.next | apply State.access_sameNvm | apply State.laneService_sameNvm | apply State.ltxCommitNow_sameNvm)
    | extract_lets | dsimp only

theorem execLtxCntClr_sameNvm {r : State} {n : Lane} {s : State} (hk : SameNvm r s) :
    OutSameNvm r (execLtxCntClr n s) := by
  unfold execLtxCntClr
  repeat' first
    | intro _
    | (with_reducible first | assumption | exact SameNvm.refl _ | apply OutSameNvm.next | apply State.access_sameNvm | apply State.clear_sameNvm)
    | extract_lets | dsimp only

theorem execDrvFault_sameNvm {r : State} {n : Lane} {s : State} (hk : SameNvm r s) :
    OutSameNvm r (execDrvFault n s) := by
  unfold execDrvFault
  repeat' first
    | intro _
    | (with_reducible first | assumption | exact SameNvm.refl _ | apply OutSameNvm.next | apply State.drvLow_sameNvm | apply State.ltxFault_sameNvm | apply OutSameNvm.cond | apply SameNvm.cond)
    | extract_lets | split

theorem execTxFaultDacOff_sameNvm {r : State} {n : Lane} {s : State} (hk : SameNvm r s) :
    OutSameNvm r (execTxFaultDacOff n s) := by
  unfold execTxFaultDacOff
  repeat' first
    | intro _
    | (with_reducible first | assumption | exact SameNvm.refl _ | apply OutSameNvm.next | apply State.puts_sameNvm | apply OutSameNvm.cond | apply SameNvm.cond)
    | extract_lets | split

theorem execTxFaultAutoRestart_sameNvm {r : State} {n : Lane} {s : State} (hk : SameNvm r s) :
    OutSameNvm r (execTxFaultAutoRestart n s) := by
  unfold execTxFaultAutoRestart
  repeat' first
    | intro _
    | (with_reducible first | assumption | exact SameNvm.refl _ | apply OutSameNvm.next | apply State.ltxLeaveFault_sameNvm | apply State.ltxRecheck_sameNvm | apply OutSameNvm.cond | apply SameNvm.cond)
    | extract_lets | split

theorem State.cellFail_sameNvm {r : State} {s : State} {n c : Nat} (hk : SameNvm r s) :
    SameNvm r (State.cellFail s n c) := by
  unfold State.cellFail
  repeat' first
    | intro _
    | (with_reducible first | assumption | exact SameNvm.refl _ | apply State.wr_sameNvm | apply State.raise_sameNvm | apply State.setOutCells_sameNvm | apply State.puts_sameNvm | apply State.cellRepair_sameNvm | apply State.ltxFault_sameNvm | apply SameNvm.when | apply SameNvm.cond)
    | extract_lets | dsimp only | split

theorem State.dacCalApply_sameNvm {r : State} {s : State} {n : Nat} {trims : List (Nat × Int)} {intlv : Int} (hk : SameNvm r s) :
    SameNvm r (State.dacCalApply s n trims intlv) := by
  unfold State.dacCalApply
  repeat' first
    | intro _
    | (with_reducible first | assumption | exact SameNvm.refl _ | apply State.wrInt_sameNvm | apply State.cellFail_sameNvm | apply State.puts_sameNvm | apply State.wr_sameNvm | apply State.ltxRecheck_sameNvm | apply State.ltxFault_sameNvm | apply SameNvm.each | apply SameNvm.cond | apply SameNvm.cond_snd)
    | extract_lets | dsimp only | split

theorem execDacCalDone_sameNvm {r : State} {n : Lane} {trims : List Int} {intlv : Int} {s : State} (hk : SameNvm r s) :
    OutSameNvm r (execDacCalDone n trims intlv s) := by
  unfold execDacCalDone
  repeat' first
    | intro _
    | (with_reducible first | assumption | exact SameNvm.refl _ | apply OutSameNvm.next | apply State.wr_sameNvm | apply State.wrInt_sameNvm | apply State.dacCalApply_sameNvm | apply SameNvm.each | apply OutSameNvm.cond | apply SameNvm.cond | apply SameNvm.cond_snd)
    | extract_lets | dsimp only | split

theorem State.dacCalRelease_sameNvm {r : State} {s : State} {n : Nat} (hk : SameNvm r s) :
    SameNvm r (State.dacCalRelease s n) := by
  unfold State.dacCalRelease
  repeat' first
    | intro _
    | (with_reducible first | assumption | exact SameNvm.refl _ | apply State.dacCalApply_sameNvm | apply State.wr_sameNvm | apply SameNvm.cond | apply SameNvm.cond_snd)
    | extract_lets | dsimp only | split

theorem execDacCellTrimDone_sameNvm {r : State} {n : Lane} {trim : Int} {s : State} (hk : SameNvm r s) :
    OutSameNvm r (execDacCellTrimDone n trim s) := by
  unfold execDacCellTrimDone
  repeat' first
    | intro _
    | (with_reducible first | assumption | exact SameNvm.refl _ | apply OutSameNvm.next | apply State.wrInt_sameNvm | apply State.wr_sameNvm | apply State.cellFail_sameNvm | apply OutSameNvm.cond | apply SameNvm.cond)
    | extract_lets | split

theorem execDacClip_sameNvm {r : State} {n : Lane} {s : State} (hk : SameNvm r s) :
    OutSameNvm r (execDacClip n s) := by
  unfold execDacClip
  repeat' first
    | intro _
    | (with_reducible first | assumption | exact SameNvm.refl _ | apply OutSameNvm.next | apply State.bump_sameNvm | apply State.raise_sameNvm | apply OutSameNvm.cond | apply SameNvm.cond)
    | extract_lets | split

theorem State.maskReport_sameNvm {r : State} {s : State} {n : Nat} (hk : SameNvm r s) :
    SameNvm r (State.maskReport s n) := by
  unfold State.maskReport
  repeat' first
    | intro _
    | (with_reducible first | assumption | exact SameNvm.refl _ | apply State.wrInt_sameNvm | apply State.wr_sameNvm | apply State.maskDiscard_sameNvm | apply State.puts_sameNvm | apply State.bump_sameNvm | apply State.raise_sameNvm | apply State.faultEvent_sameNvm | apply SameNvm.each | apply SameNvm.when | apply SameNvm.cond | apply SameNvm.cond_snd)
    | extract_lets | dsimp only | split

theorem State.maskBlock_sameNvm {r : State} {s : State} {n : Nat} {b : MaskBlock} (hk : SameNvm r s) :
    SameNvm r (State.maskBlock s n b) := by
  unfold State.maskBlock
  repeat' first
    | intro _
    | (with_reducible first | assumption | exact SameNvm.refl _ | apply State.wr_sameNvm | apply State.bump_sameNvm | apply State.maskReport_sameNvm | apply SameNvm.each | apply SameNvm.cond | apply SameNvm.cond_snd)
    | extract_lets | dsimp only | split

theorem execMaskAverageEnd_sameNvm {r : State} {n : Lane} {blocks : List (List (Option (BitVec 7)))} {s : State} (hk : SameNvm r s) :
    OutSameNvm r (execMaskAverageEnd n blocks s) := by
  unfold execMaskAverageEnd
  repeat' first
    | intro _
    | (with_reducible first | assumption | exact SameNvm.refl _ | apply OutSameNvm.next | apply State.maskBlock_sameNvm | apply SameNvm.each | apply OutSameNvm.cond | apply SameNvm.cond)
    | extract_lets | dsimp only | split

theorem execWakeSend_sameNvm {r : State} {n : Lane} {s : State} (hk : SameNvm r s) :
    OutSameNvm r (execWakeSend n s) := by
  unfold execWakeSend
  repeat' first
    | intro _
    | (with_reducible first | assumption | exact SameNvm.refl _ | apply OutSameNvm.next | apply State.access_sameNvm | apply State.ltxAbandon_sameNvm | apply State.puts_sameNvm | apply State.wr_sameNvm | apply SameNvm.when | apply OutSameNvm.cond | apply SameNvm.cond)
    | extract_lets | dsimp only | split

theorem execWakePatternEnd_sameNvm {r : State} {n : Lane} {s : State} (hk : SameNvm r s) :
    OutSameNvm r (execWakePatternEnd n s) := by
  unfold execWakePatternEnd
  repeat' first
    | intro _
    | (with_reducible first | assumption | exact SameNvm.refl _ | apply OutSameNvm.next | apply State.puts_sameNvm | apply State.raise_sameNvm | apply State.bump_sameNvm | apply OutSameNvm.cond | apply SameNvm.cond)
    | extract_lets | split

theorem execTxSleepWake_sameNvm {r : State} {n : Lane} {drvFltHigh recOk : Bool} {s : State} (hk : SameNvm r s) :
    OutSameNvm r (execTxSleepWake n drvFltHigh recOk s) := by
  unfold execTxSleepWake
  repeat' first
    | intro _
    | (with_reducible first | assumption | exact SameNvm.refl _ | apply OutSameNvm.next | apply State.recordBad_sameNvm | apply State.puts_sameNvm | apply State.ltxDisable_sameNvm | apply State.ltxFault_sameNvm | apply State.wr_sameNvm | apply State.drvLow_sameNvm | apply State.raise_sameNvm | apply SameNvm.when | apply OutSameNvm.cond | apply SameNvm.cond)
    | extract_lets | dsimp only | split

end Sys2Proof.Machine
end

