-- ==== Sys2Proof/Laws/StoredLineEq.lean ====
section
/-!
SUPPORT. The operations of LineEq that leave the NVM.
-/
set_option Elab.async false
set_option linter.all false
namespace Sys2Proof.Machine

theorem State.leqCommitNow_sameNvm {r : State} {s : State} {n : Nat} (hk : SameNvm r s) :
    SameNvm r (State.leqCommitNow s n) := by
  unfold State.leqCommitNow
  repeat' first
    | intro _
    | (with_reducible first | assumption | exact SameNvm.refl _ | apply State.wr_sameNvm | apply State.raise_sameNvm | apply State.leqCommitApply_sameNvm | apply SameNvm.cond)
    | extract_lets | split

theorem execLeqCommit_sameNvm {r : State} {n : Lane} {s : State} (hk : SameNvm r s) :
    OutSameNvm r (execLeqCommit n s) := by
  unfold execLeqCommit
  repeat' first
    | intro _
    | (with_reducible first | assumption | exact SameNvm.refl _ | apply OutSameNvm.next | apply State.access_sameNvm | apply State.laneService_sameNvm | apply State.leqCommitNow_sameNvm)
    | extract_lets | dsimp only

theorem execCoefSnap_sameNvm {r : State} {n : Lane} {s : State} (hk : SameNvm r s) :
    OutSameNvm r (execCoefSnap n s) := by
  unfold execCoefSnap
  repeat' first
    | intro _
    | (with_reducible first | assumption | exact SameNvm.refl _ | apply OutSameNvm.next | apply State.access_sameNvm | apply State.wr_sameNvm | apply State.leqSnapshot_sameNvm | apply OutSameNvm.cond | apply SameNvm.cond)
    | extract_lets | dsimp only | split

theorem execLeqCntClr_sameNvm {r : State} {n : Lane} {s : State} (hk : SameNvm r s) :
    OutSameNvm r (execLeqCntClr n s) := by
  unfold execLeqCntClr
  repeat' first
    | intro _
    | (with_reducible first | assumption | exact SameNvm.refl _ | apply OutSameNvm.next | apply State.access_sameNvm | apply State.clear_sameNvm)
    | extract_lets | dsimp only

theorem execHistStart_sameNvm {r : State} {n : Lane} {s : State} (hk : SameNvm r s) :
    OutSameNvm r (execHistStart n s) := by
  unfold execHistStart
  repeat' first
    | intro _
    | (with_reducible first | assumption | exact SameNvm.refl _ | apply OutSameNvm.next | apply State.access_sameNvm | apply State.wr_sameNvm | apply State.puts_sameNvm | apply SameNvm.each | apply OutSameNvm.cond | apply SameNvm.cond)
    | extract_lets | dsimp only | split

theorem execHistDone_sameNvm {r : State} {n : Lane} {bins : List Nat} {s : State} (hk : SameNvm r s) :
    OutSameNvm r (execHistDone n bins s) := by
  unfold execHistDone
  repeat' first
    | intro _
    | (with_reducible first | assumption | exact SameNvm.refl _ | apply OutSameNvm.next | apply State.wr_sameNvm | apply State.puts_sameNvm | apply State.raise_sameNvm | apply SameNvm.each | apply OutSameNvm.cond | apply SameNvm.cond | apply OptSameNvm.getD)
    | extract_lets | dsimp only | split

theorem State.leqPend_sameNvm {r : State} {s : State} {n sh : Nat} {dd : Bool} {accs : List Int} {accD : Int} (hk : SameNvm r s) :
    SameNvm r (State.leqPend s n sh dd accs accD) := by
  unfold State.leqPend
  repeat' first
    | intro _
    | (with_reducible first | assumption | exact SameNvm.refl _ | apply State.wrInt_sameNvm | apply State.wr_sameNvm | apply SameNvm.each | apply SameNvm.when | apply SameNvm.cond | apply OptSameNvm.getD)
    | extract_lets | dsimp only | split

theorem execLeqAdaptUpdate_sameNvm {r : State} {n : Lane} {accs : List Int} {accD : Int} {s : State} (hk : SameNvm r s) :
    OutSameNvm r (execLeqAdaptUpdate n accs accD s) := by
  unfold execLeqAdaptUpdate
  repeat' first
    | intro _
    | (with_reducible first | assumption | exact SameNvm.refl _ | apply OutSameNvm.next | apply State.leqFollow_sameNvm | apply State.leqPend_sameNvm | apply State.wr_sameNvm | apply OutSameNvm.cond | apply SameNvm.cond)
    | extract_lets | split

theorem State.leqConverge_sameNvm {r : State} {s : State} {n : Nat} (hk : SameNvm r s) :
    SameNvm r (State.leqConverge s n) := by
  unfold State.leqConverge
  repeat' first
    | intro _
    | (with_reducible first | assumption | exact SameNvm.refl _ | apply State.wr_sameNvm | apply State.puts_sameNvm | apply State.raise_sameNvm | apply State.leqFollow_sameNvm | apply SameNvm.each)
    | extract_lets | dsimp only

theorem State.leqBlindWindow_sameNvm {r : State} {s : State} {n fom : Nat} (hk : SameNvm r s) :
    SameNvm r (State.leqBlindWindow s n fom) := by
  unfold State.leqBlindWindow
  repeat' first
    | intro _
    | (with_reducible first | assumption | exact SameNvm.refl _ | apply State.leqConverge_sameNvm | apply State.wr_sameNvm | apply SameNvm.cond)
    | extract_lets | split

theorem State.leqGuard_sameNvm {r : State} {s : State} {n fom : Nat} (hk : SameNvm r s) :
    SameNvm r (State.leqGuard s n fom) := by
  unfold State.leqGuard
  repeat' first
    | intro _
    | (with_reducible first | assumption | exact SameNvm.refl _ | apply State.wr_sameNvm | apply State.puts_sameNvm | apply State.bump_sameNvm | apply State.raise_sameNvm | apply SameNvm.each | apply SameNvm.cond)
    | extract_lets | dsimp only | split

theorem State.fomLow_sameNvm {r : State} {s : State} {n fom : Nat} (hk : SameNvm r s) :
    SameNvm r (State.fomLow s n fom) := by
  unfold State.fomLow
  repeat' first
    | intro _
    | (with_reducible first | assumption | exact SameNvm.refl _ | apply State.puts_sameNvm | apply State.wr_sameNvm | apply State.bump_sameNvm | apply State.raise_sameNvm | apply SameNvm.cond)
    | extract_lets | split

theorem State.levelStats_sameNvm {r : State} {s : State} {n : Nat} {levels : List LevelStat} (hk : SameNvm r s) :
    SameNvm r (State.levelStats s n levels) := by
  unfold State.levelStats
  dsimp only
  repeat' first
    | intro _
    | (with_reducible first | assumption | exact SameNvm.refl _ | apply State.wrInt_sameNvm | apply State.wr_sameNvm | apply State.free_sameNvm | apply SameNvm.each | apply SameNvm.foldl | apply SameNvm.cond | apply SameNvm.cond_snd | apply OptSameNvm.getD)
    | extract_lets | dsimp only | split

theorem State.trainToLocked_sameNvm {r : State} {s : State} {n : Nat} (hk : SameNvm r s) :
    SameNvm r (State.trainToLocked s n) := by
  unfold State.trainToLocked
  repeat' first
    | intro _
    | (with_reducible first | assumption | exact SameNvm.refl _ | apply State.lrxSet_sameNvm | apply State.puts_sameNvm | apply SameNvm.cond)
    | extract_lets | split

theorem execFomWindowEnd_sameNvm {r : State} {n : Lane} {mse : Nat} {levels : List LevelStat} {s : State} (hk : SameNvm r s) :
    OutSameNvm r (execFomWindowEnd n mse levels s) := by
  unfold execFomWindowEnd
  repeat' first
    | intro _
    | (with_reducible first | assumption | exact SameNvm.refl _ | apply OutSameNvm.next | apply State.fomOf_sameNvm | apply State.puts_sameNvm | apply State.levelStats_sameNvm | apply State.wr_sameNvm | apply State.thrTake_sameNvm | apply State.leqBlindWindow_sameNvm | apply State.leqGuard_sameNvm | apply State.fomLow_sameNvm | apply State.trainToLocked_sameNvm | apply SameNvm.when | apply OutSameNvm.cond | apply SameNvm.cond | apply SameNvm.cond_snd)
    | extract_lets | dsimp only | split

theorem execDfeBurst_sameNvm {r : State} {n : Lane} {s : State} (hk : SameNvm r s) :
    OutSameNvm r (execDfeBurst n s) := by
  unfold execDfeBurst
  repeat' first
    | intro _
    | (with_reducible first | assumption | exact SameNvm.refl _ | apply OutSameNvm.next | apply State.bump_sameNvm)
    | extract_lets

end Sys2Proof.Machine
end

