-- ==== Sys2Proof/Laws/StoredIcrisOps.lean ====
section
/-!
SUPPORT. The operations of IcrisOps that leave the NVM.
-/
set_option Elab.async false
set_option linter.all false
namespace Sys2Proof.Machine

theorem State.recordV1_sameNvm {r : State} {s : State} {n : Nat} (hk : SameNvm r s) :
    SameNvm r (State.recordV1 s n) := by
  unfold State.recordV1
  repeat' first
    | intro _
    | (with_reducible first | assumption | exact SameNvm.refl _ | apply State.setEx_sameNvm | apply State.puts_sameNvm | apply State.wrInt_sameNvm | apply OptSameNvm.getD)
    | extract_lets | dsimp only
    | (with_reducible first | apply SameNvm.other)

theorem State.icrisIn_sameNvm {r0 : State} {s : State} {n : Nat} {r : IcrisRecord} {arr : Option Nat} {sus broken : Bool} {dep : Nat} (hk : SameNvm r0 s) :
    SameNvm r0 (State.icrisIn s n r arr sus broken dep) := by
  unfold State.icrisIn
  repeat' first
    | intro _
    | (with_reducible first | assumption | exact SameNvm.refl _ | apply State.bump_sameNvm | apply State.exchClear_sameNvm | apply State.setEx_sameNvm | apply SameNvm.when | apply SameNvm.cond)
    | extract_lets | dsimp only | split
    | (with_reducible first | apply SameNvm.other)

end Sys2Proof.Machine
end

