-- ==== Sys2Proof/Laws/StoredPresets.lean ====
section
/-!
SUPPORT. The operations of Presets that leave the NVM.
-/
set_option Elab.async false
set_option linter.all false
namespace Sys2Proof.Machine

theorem State.configSettle_sameNvm {r : State} {s : State} {b : PresetBlock} {n : Nat} {l : List (Field × Nat)} (hk : SameNvm r s) :
    SameNvm r (State.configSettle s b n l) := by
  unfold State.configSettle
  repeat' first
    | intro _
    | (with_reducible first | assumption | exact SameNvm.refl _ | apply State.lrxApplyOf_sameNvm | apply State.leqApplyOf_sameNvm | apply State.ltxApplyOf_sameNvm | apply State.wr_sameNvm | apply State.patApply_sameNvm | apply State.hifApplyOf_sameNvm | apply SameNvm.when | apply SameNvm.cond | apply SameNvm.cond_snd)
    | extract_lets | dsimp only | split

theorem State.presetWrite_sameNvm {r : State} {s : State} {b : PresetBlock} {n v : Nat} (hk : SameNvm r s) :
    SameNvm r (State.presetWrite s b n v) := by
  unfold State.presetWrite
  repeat' first
    | intro _
    | (with_reducible first | assumption | exact SameNvm.refl _ | apply State.puts_sameNvm | apply State.configSettle_sameNvm | apply State.wr_sameNvm | apply SameNvm.each | apply SameNvm.cond)
    | extract_lets | dsimp only | split

theorem execPresetWrite_sameNvm {r : State} {b : PresetBlock} {n : HostLane} {v : BitVec 2} {s : State} (hk : SameNvm r s) :
    OutSameNvm r (execPresetWrite b n v s) := by
  unfold execPresetWrite
  repeat' first
    | intro _
    | (with_reducible first | assumption | exact SameNvm.refl _ | apply OutSameNvm.next | apply State.access_sameNvm | apply State.presetWrite_sameNvm | apply OutSameNvm.cond | apply SameNvm.cond)
    | extract_lets | dsimp only | split

theorem State.expertMark_sameNvm {r : State} {s : State} {f : Field} {n : Nat} (hk : SameNvm r s) :
    SameNvm r (State.expertMark s f n) := by
  unfold State.expertMark
  repeat' first
    | intro _
    | (with_reducible first | assumption | exact SameNvm.refl _ | apply State.setMask_sameNvm)
    | extract_lets | dsimp only | split

end Sys2Proof.Machine
end

