-- ==== Sys2Proof/Laws/StoredFraming.lean ====
section
/-!
SUPPORT. The operations of Framing that leave the NVM.
-/
set_option Elab.async false
set_option linter.all false
namespace Sys2Proof.Machine

theorem State.negApply_sameNvm {r : State} {s : State} {n : Nat} (hk : SameNvm r s) :
    SameNvm r (State.negApply s n) := by
  unfold State.negApply
  repeat' first
    | intro _
    | (with_reducible first | assumption | exact SameNvm.refl _ | apply State.exchClear_sameNvm | apply State.puts_sameNvm | apply SameNvm.when | apply SameNvm.cond)
    | extract_lets | dsimp only | split

theorem State.precodeApply_sameNvm {r : State} {s : State} {n : Nat} (hk : SameNvm r s) :
    SameNvm r (State.precodeApply s n) := by
  unfold State.precodeApply
  repeat' first
    | intro _
    | (with_reducible first | assumption | exact SameNvm.refl _ | apply State.wrb_sameNvm)
    | extract_lets

theorem State.setNegResult_sameNvm {r : State} {s : State} {n w : Nat} (hk : SameNvm r s) :
    SameNvm r (State.setNegResult s n w) := by
  unfold State.setNegResult
  repeat' first
    | intro _
    | (with_reducible first | assumption | exact SameNvm.refl _ | apply State.puts_sameNvm)
    | extract_lets

theorem State.negFail_sameNvm {r : State} {s : State} {n err : Nat} (hk : SameNvm r s) :
    SameNvm r (State.negFail s n err) := by
  unfold State.negFail
  repeat' first
    | intro _
    | (with_reducible first | assumption | exact SameNvm.refl _ | apply State.puts_sameNvm | apply State.raise_sameNvm | apply State.svcSend_sameNvm)
    | extract_lets

theorem State.negStart_sameNvm {r : State} {s : State} {n state : Nat} (hk : SameNvm r s) :
    SameNvm r (State.negStart s n state) := by
  unfold State.negStart
  repeat' first
    | intro _
    | (with_reducible first | assumption | exact SameNvm.refl _ | apply State.puts_sameNvm | apply State.svcSend_sameNvm)
    | extract_lets

theorem State.negBegin_sameNvm {r : State} {s : State} {n : Nat} (hk : SameNvm r s) :
    SameNvm r (State.negBegin s n) := by
  unfold State.negBegin
  repeat' first
    | intro _
    | (with_reducible first | assumption | exact SameNvm.refl _ | apply State.wr_sameNvm | apply State.puts_sameNvm | apply State.negStart_sameNvm | apply SameNvm.when | apply SameNvm.cond)
    | extract_lets | dsimp only | split

theorem State.negRetry_sameNvm {r : State} {s : State} {n err : Nat} (hk : SameNvm r s) :
    SameNvm r (State.negRetry s n err).1 := by
  unfold State.negRetry
  repeat' first
    | intro _
    | (with_reducible first | assumption | exact SameNvm.refl _ | apply State.wr_sameNvm | apply State.negStart_sameNvm | apply State.negFail_sameNvm | apply SameNvm.cond | apply SameNvm.cond)
    | extract_lets | split

theorem State.trainEnter_sameNvm {r : State} {s : State} {n : Nat} (hk : SameNvm r s) :
    SameNvm r (State.trainEnter s n) := by
  unfold State.trainEnter
  repeat' first
    | intro _
    | (with_reducible first | assumption | exact SameNvm.refl _ | apply State.lrxSet_sameNvm | apply State.svcDrop_sameNvm | apply State.puts_sameNvm | apply State.leqFollow_sameNvm | apply State.negBegin_sameNvm | apply SameNvm.when)
    | extract_lets | dsimp only

theorem State.renegNow_sameNvm {r : State} {s : State} {n : Nat} {reason : Option Nat} (hk : SameNvm r s) :
    SameNvm r (State.renegNow s n reason) := by
  unfold State.renegNow
  repeat' first
    | intro _
    | (with_reducible first | assumption | exact SameNvm.refl _ | apply State.profAbort_sameNvm | apply State.puts_sameNvm | apply State.svcSend_sameNvm | apply State.lfrLatch_sameNvm | apply State.setGroupMode_sameNvm | apply State.lrxWaitSd_sameNvm | apply State.lrxSet_sameNvm | apply State.leqFollow_sameNvm | apply State.negBegin_sameNvm | apply SameNvm.each | apply SameNvm.when | apply SameNvm.cond)
    | extract_lets | dsimp only | split

theorem State.modeRestart_sameNvm {r : State} {s : State} {n : Nat} (hk : SameNvm r s) :
    SameNvm r (State.modeRestart s n) := by
  unfold State.modeRestart
  repeat' first
    | intro _
    | (with_reducible first | assumption | exact SameNvm.refl _ | apply State.lrxWaitSd_sameNvm | apply State.lrxStartAgc_sameNvm | apply SameNvm.each | apply SameNvm.cond)
    | extract_lets | dsimp only | split

theorem State.negDone_sameNvm {r : State} {s : State} {n w : Nat} (hk : SameNvm r s) :
    SameNvm r (State.negDone s n w) := by
  unfold State.negDone
  repeat' first
    | intro _
    | (with_reducible first | assumption | exact SameNvm.refl _ | apply State.setNegResult_sameNvm | apply State.wr_sameNvm | apply State.raise_sameNvm | apply State.emit_sameNvm | apply State.renegNow_sameNvm | apply State.setGroupMode_sameNvm | apply State.modeRestart_sameNvm | apply State.trainToLocked_sameNvm | apply SameNvm.each | apply SameNvm.cond)
    | extract_lets | dsimp only | split

theorem State.negCheck_sameNvm {r : State} {s : State} {n : Nat} (hk : SameNvm r s) :
    SameNvm r (State.negCheck s n) := by
  unfold State.negCheck
  repeat' first
    | intro _
    | (with_reducible first | assumption | exact SameNvm.refl _ | apply State.negRetry_sameNvm | apply State.negDone_sameNvm | apply SameNvm.cond)
    | extract_lets | dsimp only | split

theorem State.negPage_sameNvm {r : State} {s : State} {n : Nat} (hk : SameNvm r s) :
    SameNvm r (State.negPage s n) := by
  unfold State.negPage
  repeat' first
    | intro _
    | (with_reducible first | assumption | exact SameNvm.refl _ | apply State.negFail_sameNvm | apply State.puts_sameNvm | apply State.svcSend_sameNvm | apply State.negCheck_sameNvm)
    | extract_lets | dsimp only | split

theorem State.frameLock_sameNvm {r : State} {s : State} {n : Nat} (hk : SameNvm r s) :
    SameNvm r (State.frameLock s n) := by
  unfold State.frameLock
  repeat' first
    | intro _
    | (with_reducible first | assumption | exact SameNvm.refl _ | apply State.puts_sameNvm | apply State.raise_sameNvm | apply State.setGroupMode_sameNvm | apply State.trainEnter_sameNvm | apply SameNvm.when)
    | extract_lets | dsimp only

theorem State.uiStart_sameNvm {r : State} {s : State} {n : Nat} (hk : SameNvm r s) :
    SameNvm r (State.uiStart s n) := by
  unfold State.uiStart
  repeat' first
    | intro _
    | (with_reducible first | assumption | exact SameNvm.refl _ | apply State.puts_sameNvm)
    | extract_lets | dsimp only
    | (with_reducible first | apply SameNvm.other)

theorem State.shadowTake_sameNvm {r : State} {s : State} {n pos count m arrival : Nat} (hk : SameNvm r s) :
    SameNvm r (State.shadowTake s n pos count m arrival) := by
  unfold State.shadowTake
  repeat' first
    | intro _
    | (with_reducible first | assumption | exact SameNvm.refl _ | apply State.puts_sameNvm | apply State.wr_sameNvm | apply State.uiStart_sameNvm | apply State.bump_sameNvm | apply State.raise_sameNvm | apply State.frameLock_sameNvm | apply SameNvm.cond)
    | extract_lets | split

theorem State.frameLoss_sameNvm {r : State} {s : State} {n arrival : Nat} (hk : SameNvm r s) :
    SameNvm r (State.frameLoss s n arrival) := by
  unfold State.frameLoss
  repeat' first
    | intro _
    | (with_reducible first | assumption | exact SameNvm.refl _ | apply State.bump_sameNvm | apply State.raise_sameNvm | apply State.reacquire_sameNvm | apply State.lrxAcquireAt_sameNvm | apply State.wr_sameNvm | apply State.shadowTake_sameNvm | apply SameNvm.when | apply SameNvm.cond)
    | extract_lets | dsimp only | split

theorem execMarkerCandidate_sameNvm {r : State} {n : Lane} {pos : BitVec 19} {bits : BitVec 256} {s : State} (hk : SameNvm r s) :
    OutSameNvm r (execMarkerCandidate n pos bits s) := by
  unfold execMarkerCandidate
  repeat' first
    | intro _
    | (with_reducible first | assumption | exact SameNvm.refl _ | apply OutSameNvm.next | apply State.wr_sameNvm | apply State.puts_sameNvm | apply OutSameNvm.cond | apply SameNvm.cond)
    | extract_lets | split

theorem execFrameMarkerCheck_sameNvm {r : State} {n : Lane} {shadow : Bool} {bits : BitVec 256} {ago : BitVec 20} {s : State} (hk : SameNvm r s) :
    OutSameNvm r (execFrameMarkerCheck n shadow bits ago s) := by
  unfold execFrameMarkerCheck
  repeat' first
    | intro _
    | (with_reducible first | assumption | exact SameNvm.refl _ | apply OutSameNvm.next | apply State.puts_sameNvm | apply State.wr_sameNvm | apply State.uiStart_sameNvm | apply State.frameLock_sameNvm | apply State.bump_sameNvm | apply State.frameLoss_sameNvm | apply OutSameNvm.cond | apply SameNvm.cond)
    | extract_lets | split

theorem State.contentIn_sameNvm {r : State} {s : State} {n : Nat} {c : List Nat} {arrival : Option Nat} (hk : SameNvm r s) :
    SameNvm r (State.contentIn s n c arrival) := by
  unfold State.contentIn
  repeat' first
    | intro _
    | (with_reducible first | assumption | exact SameNvm.refl _ | apply State.wr_sameNvm | apply State.raise_sameNvm | apply State.bump_sameNvm | apply State.wrb_sameNvm | apply State.icrisIn_sameNvm | apply SameNvm.when | apply SameNvm.cond | apply OptSameNvm.getD)
    | extract_lets | dsimp only | split

theorem execServiceFrameReceived_sameNvm {r : State} {n : Lane} {bits : BitVec 3840} {s : State} (hk : SameNvm r s) :
    OutSameNvm r (execServiceFrameReceived n bits s) := by
  unfold execServiceFrameReceived
  repeat' first
    | intro _
    | (with_reducible first | assumption | exact SameNvm.refl _ | apply OutSameNvm.next | apply State.wr_sameNvm | apply State.bump_sameNvm | apply State.raise_sameNvm | apply State.contentIn_sameNvm | apply OutSameNvm.cond | apply SameNvm.cond | apply SameNvm.cond_snd)
    | extract_lets | dsimp only | split

theorem State.msgTake_sameNvm {r : State} {s : State} {n : Nat} {seq : Nat} {g : State → State} (hk : SameNvm r s) (hgg : ∀ u, SameNvm r u → SameNvm r (g u)) :
    SameNvm r (State.msgTake s n seq g) := by
  unfold State.msgTake
  repeat' first
    | intro _
    | (with_reducible first | apply hgg | assumption | exact SameNvm.refl _ | apply State.wr_sameNvm | apply SameNvm.cond)
    | extract_lets | split

theorem State.msgAcked_sameNvm {r : State} {s : State} {n ack : Nat} (hk : SameNvm r s) :
    SameNvm r (State.msgAcked s n ack) := by
  unfold State.msgAcked
  repeat' first
    | intro _
    | (with_reducible first | assumption | exact SameNvm.refl _ | apply State.wr_sameNvm | apply State.svcSend_sameNvm | apply State.negCheck_sameNvm | apply State.asymFollow_sameNvm | apply State.puts_sameNvm | apply SameNvm.cond)
    | extract_lets | dsimp only | split
    | (with_reducible first | apply SameNvm.other)

theorem execMsgAckRx_sameNvm {r : State} {n : Lane} {ack : BitVec 8} {s : State} (hk : SameNvm r s) :
    OutSameNvm r (execMsgAckRx n ack s) := by
  unfold execMsgAckRx
  repeat' first
    | intro _
    | (with_reducible first | assumption | exact SameNvm.refl _ | apply OutSameNvm.next | apply State.msgAcked_sameNvm)
    | extract_lets

theorem State.rxAbility_sameNvm {r : State} {s : State} {n page : Nat} (hk : SameNvm r s) :
    SameNvm r (State.rxAbility s n page) := by
  unfold State.rxAbility
  repeat' first
    | intro _
    | (with_reducible first | assumption | exact SameNvm.refl _ | apply State.wr_sameNvm | apply State.negPage_sameNvm | apply State.negRetry_sameNvm | apply SameNvm.each | apply SameNvm.cond | apply SameNvm.cond_snd)
    | extract_lets | dsimp only | split

theorem execMsgAbilityRx_sameNvm {r : State} {n : Lane} {seq : BitVec 8} {page : BitVec 128} {s : State} (hk : SameNvm r s) :
    OutSameNvm r (execMsgAbilityRx n seq page s) := by
  unfold execMsgAbilityRx
  repeat' first
    | intro _
    | (with_reducible first | assumption | exact SameNvm.refl _ | apply OutSameNvm.next | apply State.msgTake_sameNvm | apply State.rxAbility_sameNvm)
    | extract_lets | dsimp only

theorem State.rxConfirm_sameNvm {r : State} {s : State} {n w : Nat} (hk : SameNvm r s) :
    SameNvm r (State.rxConfirm s n w) := by
  unfold State.rxConfirm
  repeat' first
    | intro _
    | (with_reducible first | assumption | exact SameNvm.refl _ | apply State.puts_sameNvm | apply State.negCheck_sameNvm | apply SameNvm.cond)
    | extract_lets | split

theorem execMsgConfirmRx_sameNvm {r : State} {n : Lane} {seq : BitVec 8} {result : BitVec 32} {s : State} (hk : SameNvm r s) :
    OutSameNvm r (execMsgConfirmRx n seq result s) := by
  unfold execMsgConfirmRx
  repeat' first
    | intro _
    | (with_reducible first | assumption | exact SameNvm.refl _ | apply OutSameNvm.next | apply State.msgTake_sameNvm | apply State.rxConfirm_sameNvm)
    | extract_lets | dsimp only

theorem State.rxReneg_sameNvm {r : State} {s : State} {n : Nat} (hk : SameNvm r s) :
    SameNvm r (State.rxReneg s n) := by
  unfold State.rxReneg
  repeat' first
    | intro _
    | (with_reducible first | assumption | exact SameNvm.refl _ | apply State.bump_sameNvm | apply State.raise_sameNvm | apply State.renegNow_sameNvm | apply SameNvm.cond)
    | extract_lets | split

theorem execMsgRenegRx_sameNvm {r : State} {n : Lane} {seq : BitVec 8} {_reason : BitVec 8} {s : State} (hk : SameNvm r s) :
    OutSameNvm r (execMsgRenegRx n seq _reason s) := by
  unfold execMsgRenegRx
  repeat' first
    | intro _
    | (with_reducible first | assumption | exact SameNvm.refl _ | apply OutSameNvm.next | apply State.msgTake_sameNvm | apply State.rxReneg_sameNvm)
    | extract_lets | dsimp only

theorem State.profOpen_sameNvm {r : State} {s : State} {n prof : Nat} {forced : Bool} (hk : SameNvm r s) :
    SameNvm r (State.profOpen s n prof forced) := by
  unfold State.profOpen
  repeat' first
    | intro _
    | (with_reducible first | assumption | exact SameNvm.refl _ | apply State.puts_sameNvm | apply State.svcSend_sameNvm)
    | extract_lets

theorem State.profChangeNow_sameNvm {r : State} {s : State} {n : Nat} (hk : SameNvm r s) :
    SameNvm r (State.profChangeNow s n) := by
  unfold State.profChangeNow
  repeat' first
    | intro _
    | (with_reducible first | assumption | exact SameNvm.refl _ | apply State.wr_sameNvm | apply State.raise_sameNvm | apply State.profEnd_sameNvm | apply State.puts_sameNvm | apply State.profOpen_sameNvm | apply SameNvm.cond)
    | extract_lets | dsimp only | split

theorem execProfileChange_sameNvm {r : State} {n : Lane} {s : State} (hk : SameNvm r s) :
    OutSameNvm r (execProfileChange n s) := by
  unfold execProfileChange
  repeat' first
    | intro _
    | (with_reducible first | assumption | exact SameNvm.refl _ | apply OutSameNvm.next | apply State.access_sameNvm | apply State.laneService_sameNvm | apply State.profChangeNow_sameNvm)
    | extract_lets | dsimp only

theorem State.profForce_sameNvm {r : State} {s : State} {n prof : Nat} (hk : SameNvm r s) :
    OptSameNvm r (State.profForce s n prof) := by
  unfold State.profForce
  repeat' first
    | intro _
    | (with_reducible first | assumption | exact SameNvm.refl _ | apply State.profAbort_sameNvm | apply State.profOpen_sameNvm | apply State.puts_sameNvm)
    | exact OptSameNvm.none
    | (with_reducible first | apply OptSameNvm.some)
    | extract_lets | dsimp only | split

theorem execProfileTimeout_sameNvm {r : State} {n : Lane} {s : State} (hk : SameNvm r s) :
    OutSameNvm r (execProfileTimeout n s) := by
  unfold execProfileTimeout
  repeat' first
    | intro _
    | (with_reducible first | assumption | exact SameNvm.refl _ | apply OutSameNvm.next | apply State.profEnd_sameNvm | apply OutSameNvm.cond | apply SameNvm.cond)
    | extract_lets | split

theorem State.profSwitch_sameNvm {r : State} {s : State} {n : Nat} (hk : SameNvm r s) :
    SameNvm r (State.profSwitch s n) := by
  unfold State.profSwitch
  repeat' first
    | intro _
    | (with_reducible first | assumption | exact SameNvm.refl _ | apply State.puts_sameNvm | apply State.wr_sameNvm | apply State.asymFollow_sameNvm | apply State.dvfsKick_sameNvm | apply SameNvm.when | apply SameNvm.cond)
    | extract_lets | dsimp only | split

theorem execProfileSwitch_sameNvm {r : State} {n : Lane} {s : State} (hk : SameNvm r s) :
    OutSameNvm r (execProfileSwitch n s) := by
  unfold execProfileSwitch
  repeat' first
    | intro _
    | (with_reducible first | assumption | exact SameNvm.refl _ | apply OutSameNvm.next | apply State.profSwitch_sameNvm)
    | extract_lets

theorem State.profReleased_sameNvm {r : State} {s : State} {n : Nat} (hk : SameNvm r s) :
    SameNvm r (State.profReleased s n) := by
  unfold State.profReleased
  repeat' first
    | intro _
    | (with_reducible first | assumption | exact SameNvm.refl _ | apply State.wr_sameNvm | apply State.profEnd_sameNvm | apply SameNvm.cond)
    | extract_lets | split

theorem State.rxProfChange_sameNvm {r : State} {s : State} {n prof txn : Nat} {forced : Bool} (hk : SameNvm r s) :
    SameNvm r (State.rxProfChange s n prof txn forced) := by
  unfold State.rxProfChange
  repeat' first
    | intro _
    | (with_reducible first | assumption | exact SameNvm.refl _ | apply State.svcSend_sameNvm | apply State.puts_sameNvm | apply State.wr_sameNvm | apply State.asymFollow_sameNvm | apply State.profEnd_sameNvm | apply SameNvm.cond)
    | extract_lets | dsimp only | split

theorem execMsgProfileChangeRx_sameNvm {r : State} {n : Lane} {seq : BitVec 8} {prof : Fin 3} {forced : Bool} {txn : BitVec 8} {s : State} (hk : SameNvm r s) :
    OutSameNvm r (execMsgProfileChangeRx n seq prof forced txn s) := by
  unfold execMsgProfileChangeRx
  repeat' first
    | intro _
    | (with_reducible first | assumption | exact SameNvm.refl _ | apply OutSameNvm.next | apply State.msgTake_sameNvm | apply State.rxProfChange_sameNvm)
    | extract_lets | dsimp only

theorem State.rxProfReply_sameNvm {r : State} {s : State} {n : Nat} {refuse : Bool} {status txn : Nat} (hk : SameNvm r s) :
    SameNvm r (State.rxProfReply s n refuse status txn) := by
  unfold State.rxProfReply
  repeat' first
    | intro _
    | (with_reducible first | assumption | exact SameNvm.refl _ | apply State.profEnd_sameNvm | apply State.puts_sameNvm | apply SameNvm.cond)
    | extract_lets | split

theorem execMsgProfileReplyRx_sameNvm {r : State} {n : Lane} {seq : BitVec 8} {refuse : Bool} {status : Fin 9} {txn : BitVec 8} {s : State} (hk : SameNvm r s) :
    OutSameNvm r (execMsgProfileReplyRx n seq refuse status txn s) := by
  unfold execMsgProfileReplyRx
  repeat' first
    | intro _
    | (with_reducible first | assumption | exact SameNvm.refl _ | apply OutSameNvm.next | apply State.msgTake_sameNvm | apply State.rxProfReply_sameNvm)
    | extract_lets | dsimp only

theorem State.rxTapReq_sameNvm {r : State} {s : State} {n : Nat} {taps : List Int} (hk : SameNvm r s) :
    SameNvm r (State.rxTapReq s n taps) := by
  unfold State.rxTapReq
  repeat' first
    | intro _
    | (with_reducible first | assumption | exact SameNvm.refl _ | apply State.wrInt_sameNvm | apply State.expertMark_sameNvm | apply State.ltxCommitNow_sameNvm | apply State.svcSend_sameNvm | apply SameNvm.each | apply SameNvm.cond | apply SameNvm.cond_snd)
    | extract_lets | dsimp only | split

theorem execMsgTxTapReqRx_sameNvm {r : State} {n : Lane} {seq : BitVec 8} {taps : List Int} {s : State} (hk : SameNvm r s) :
    OutSameNvm r (execMsgTxTapReqRx n seq taps s) := by
  unfold execMsgTxTapReqRx
  repeat' first
    | intro _
    | (with_reducible first | assumption | exact SameNvm.refl _ | apply OutSameNvm.next | apply State.msgTake_sameNvm | apply State.rxTapReq_sameNvm)
    | extract_lets | dsimp only

theorem State.rxTapReply_sameNvm {r : State} {s : State} {n : Nat} {applied : Bool} (hk : SameNvm r s) :
    SameNvm r (State.rxTapReply s n applied) := by
  unfold State.rxTapReply
  repeat' first
    | intro _
    | (with_reducible first | assumption | exact SameNvm.refl _ | apply State.wr_sameNvm | apply State.cdbEnd_sameNvm | apply SameNvm.cond)
    | extract_lets | split

theorem execMsgTxTapReplyRx_sameNvm {r : State} {n : Lane} {seq : BitVec 8} {applied : Bool} {s : State} (hk : SameNvm r s) :
    OutSameNvm r (execMsgTxTapReplyRx n seq applied s) := by
  unfold execMsgTxTapReplyRx
  repeat' first
    | intro _
    | (with_reducible first | assumption | exact SameNvm.refl _ | apply OutSameNvm.next | apply State.msgTake_sameNvm | apply State.rxTapReply_sameNvm)
    | extract_lets | dsimp only

theorem execMsgUnknownRx_sameNvm {r : State} {n : Lane} {seq : BitVec 8} {s : State} (hk : SameNvm r s) :
    OutSameNvm r (execMsgUnknownRx n seq s) := by
  unfold execMsgUnknownRx
  repeat' first
    | intro _
    | (with_reducible first | assumption | exact SameNvm.refl _ | apply OutSameNvm.next | apply State.msgTake_sameNvm | apply State.bump_sameNvm)
    | extract_lets | dsimp only

theorem State.rxMessage_sameNvm {r : State} {s : State} {n type body : Nat} (hk : SameNvm r s) :
    SameNvm r (State.rxMessage s n type body) := by
  unfold State.rxMessage
  repeat' first
    | intro _
    | (with_reducible first | assumption | exact SameNvm.refl _ | apply State.rxAbility_sameNvm | apply State.rxConfirm_sameNvm | apply State.rxReneg_sameNvm | apply State.rxProfChange_sameNvm | apply State.rxProfReply_sameNvm | apply State.rxTapReq_sameNvm | apply State.rxTapReply_sameNvm | apply State.bump_sameNvm)
    | extract_lets | dsimp only | split

theorem execSideChannelFrameRx_sameNvm {r : State} {n : Lane} {frame : BitVec 256} {s : State} (hk : SameNvm r s) :
    OutSameNvm r (execSideChannelFrameRx n frame s) := by
  unfold execSideChannelFrameRx
  repeat' first
    | intro _
    | (with_reducible first | assumption | exact SameNvm.refl _ | apply OutSameNvm.next | apply State.bump_sameNvm | apply State.wr_sameNvm | apply State.msgAcked_sameNvm | apply State.icrisIn_sameNvm | apply State.msgTake_sameNvm | apply State.rxMessage_sameNvm | apply OutSameNvm.cond | apply SameNvm.cond | apply OptSameNvm.getD)
    | extract_lets | dsimp only | split

theorem execNegTimeout_sameNvm {r : State} {n : Lane} {s : State} (hk : SameNvm r s) :
    OutSameNvm r (execNegTimeout n s) := by
  unfold execNegTimeout
  repeat' first
    | intro _
    | (with_reducible first | assumption | exact SameNvm.refl _ | apply OutSameNvm.next | apply State.negRetry_sameNvm | apply OutSameNvm.cond | apply SameNvm.cond)
    | extract_lets | dsimp only | split

theorem execHelloTimeout_sameNvm {r : State} {n : Lane} {s : State} (hk : SameNvm r s) :
    OutSameNvm r (execHelloTimeout n s) := by
  unfold execHelloTimeout
  repeat' first
    | intro _
    | (with_reducible first | assumption | exact SameNvm.refl _ | apply OutSameNvm.next | apply State.wr_sameNvm | apply State.svcDrop_sameNvm | apply State.negDone_sameNvm | apply OutSameNvm.cond | apply SameNvm.cond)
    | extract_lets | split

theorem execReneg_sameNvm {r : State} {n : Lane} {s : State} (hk : SameNvm r s) :
    OutSameNvm r (execReneg n s) := by
  unfold execReneg
  repeat' first
    | intro _
    | (with_reducible first | assumption | exact SameNvm.refl _ | apply OutSameNvm.next | apply State.access_sameNvm | apply State.laneService_sameNvm | apply State.renegNow_sameNvm)
    | extract_lets | dsimp only

theorem execLfrCntClr_sameNvm {r : State} {n : Lane} {s : State} (hk : SameNvm r s) :
    OutSameNvm r (execLfrCntClr n s) := by
  unfold execLfrCntClr
  repeat' first
    | intro _
    | (with_reducible first | assumption | exact SameNvm.refl _ | apply OutSameNvm.next | apply State.access_sameNvm | apply State.clear_sameNvm)
    | extract_lets | dsimp only

theorem execCompatFormatSwitch_sameNvm {r : State} {n : Lane} {s : State} (hk : SameNvm r s) :
    OutSameNvm r (execCompatFormatSwitch n s) := by
  unfold execCompatFormatSwitch
  repeat' first
    | intro _
    | (with_reducible first | assumption | exact SameNvm.refl _ | apply OutSameNvm.next | apply State.puts_sameNvm | apply State.precodeApply_sameNvm | apply SameNvm.when | apply OutSameNvm.cond | apply SameNvm.cond)
    | extract_lets | dsimp only | split

theorem State.outStart_sameNvm {r : State} {s : State} {n : Nat} (hk : SameNvm r s) :
    SameNvm r (State.outStart s n) := by
  unfold State.outStart
  repeat' first
    | intro _
    | (with_reducible first | assumption | exact SameNvm.refl _ | apply State.wr_sameNvm)
    | extract_lets

theorem State.fillMark_sameNvm {r : State} {s : State} {n : Nat} {fill : Bool} (hk : SameNvm r s) :
    SameNvm r (State.fillMark s n fill) := by
  unfold State.fillMark
  repeat' first
    | intro _
    | (with_reducible first | assumption | exact SameNvm.refl _ | apply State.wrb_sameNvm | apply State.wr_sameNvm | apply SameNvm.when)
    | extract_lets | dsimp only

theorem State.outRegion_sameNvm {r : State} {s : State} {n : Nat} (hk : SameNvm r s) :
    SameNvm r (State.outRegion s n) := by
  unfold State.outRegion
  repeat' first
    | intro _
    | (with_reducible first | assumption | exact SameNvm.refl _ | apply State.wr_sameNvm)
    | extract_lets

theorem State.sideRun_sameNvm {r : State} {s : State} {n : Nat} (hk : SameNvm r s) :
    SameNvm r (State.sideRun s n) := by
  unfold State.sideRun
  repeat' first
    | intro _
    | (with_reducible first | assumption | exact SameNvm.refl _ | apply State.wr_sameNvm | apply State.recordV1_sameNvm | apply State.puts_sameNvm | apply SameNvm.when | apply SameNvm.cond)
    | extract_lets | dsimp only | split

theorem execCodewordBoundaryApply_sameNvm {r : State} {n : Lane} {tx : Bool} {s : State} (hk : SameNvm r s) :
    OutSameNvm r (execCodewordBoundaryApply n tx s) := by
  unfold execCodewordBoundaryApply
  repeat' first
    | intro _
    | (with_reducible first | assumption | exact SameNvm.refl _ | apply OutSameNvm.next | apply State.txBoundary_sameNvm | apply State.rxBoundary_sameNvm | apply OutSameNvm.cond | apply SameNvm.cond)
    | extract_lets | split

theorem State.profNegotiated_sameNvm {r : State} {s : State} {n : Nat} (hk : SameNvm r s) :
    SameNvm r (State.profNegotiated s n) := by
  unfold State.profNegotiated
  repeat' first
    | intro _
    | (with_reducible first | assumption | exact SameNvm.refl _ | apply State.puts_sameNvm | apply State.asymFollow_sameNvm | apply State.dvfsKick_sameNvm | apply SameNvm.cond)
    | extract_lets | split

theorem execFrameBoundaryApply_sameNvm {r : State} {n : Lane} {s : State} (hk : SameNvm r s) :
    OutSameNvm r (execFrameBoundaryApply n s) := by
  unfold execFrameBoundaryApply
  repeat' first
    | intro _
    | (with_reducible first | assumption | exact SameNvm.refl _ | apply OutSameNvm.next | apply State.puts_sameNvm | apply State.profNegotiated_sameNvm | apply State.profSwitch_sameNvm | apply State.negApply_sameNvm | apply State.driftApply_sameNvm | apply State.rxBoundary_sameNvm | apply OutSameNvm.cond | apply SameNvm.cond)
    | extract_lets | split

theorem State.chkRun_sameNvm {r : State} {s : State} {h : Nat} (hk : SameNvm r s) :
    SameNvm r (State.chkRun s h) := by
  unfold State.chkRun
  repeat' first
    | intro _
    | (with_reducible first | assumption | exact SameNvm.refl _ | apply State.wrFree_sameNvm | apply State.free_sameNvm | apply State.bump_sameNvm | apply SameNvm.cond | apply SameNvm.cond_snd)
    | extract_lets | dsimp only | split

theorem State.matchRun_sameNvm {r : State} {s : State} {n a b : Nat} (hk : SameNvm r s) :
    SameNvm r (State.matchRun s n a b) := by
  unfold State.matchRun
  repeat' first
    | intro _
    | (with_reducible first | assumption | exact SameNvm.refl _ | apply State.bump_sameNvm | apply SameNvm.when)
    | extract_lets | dsimp only | split

theorem State.txFrameStart_sameNvm {r : State} {s : State} {n : Nat} (hk : SameNvm r s) :
    SameNvm r (State.txFrameStart s n) := by
  unfold State.txFrameStart
  repeat' first
    | intro _
    | (with_reducible first | assumption | exact SameNvm.refl _ | apply State.wr_sameNvm | apply State.driftApply_sameNvm | apply State.precodeApply_sameNvm | apply State.txBoundary_sameNvm | apply State.patApply_sameNvm | apply State.puts_sameNvm | apply SameNvm.when)
    | extract_lets | dsimp only | split

theorem execTxFrameBoundary_sameNvm {r : State} {n : Lane} {a b : BitVec 983072} {s : State} (hk : SameNvm r s) :
    OutSameNvm r (execTxFrameBoundary n a b s) := by
  unfold execTxFrameBoundary
  repeat' first
    | intro _
    | (with_reducible first | assumption | exact SameNvm.refl _ | apply OutSameNvm.next | apply State.chkRun_sameNvm | apply State.matchRun_sameNvm | apply State.txFrameStart_sameNvm | apply State.wrb_sameNvm | apply State.wr_sameNvm | apply State.setLd_sameNvm | apply State.outStart_sameNvm | apply SameNvm.each | apply OutSameNvm.cond | apply SameNvm.cond)
    | extract_lets | dsimp only | split
    | (with_reducible first | apply SameNvm.other)

theorem State.straitEffect_sameNvm {r : State} {s : State} {id lanes : Nat} (hk : SameNvm r s) :
    SameNvm r (State.straitEffect s id lanes) := by
  unfold State.straitEffect
  repeat' first
    | intro _
    | (with_reducible first | assumption | exact SameNvm.refl _ | apply State.hifFault_sameNvm | apply State.lrxFault_sameNvm | apply State.ltxFault_sameNvm | apply State.bump_sameNvm | apply State.raise_sameNvm | apply SameNvm.each | apply SameNvm.when | apply SameNvm.cond)
    | extract_lets | dsimp only | split

theorem State.straitLoss_sameNvm {r : State} {s : State} {id lanes k : Nat} (hk : SameNvm r s) :
    SameNvm r (State.straitLoss s id lanes k) := by
  unfold State.straitLoss
  repeat' first
    | intro _
    | (with_reducible first | assumption | exact SameNvm.refl _ | apply State.straitDrop_sameNvm | apply State.straitEffect_sameNvm)
    | extract_lets

theorem execStraitOverflow_sameNvm {r : State} {id : BitVec 7} {lanes : BitVec 4} {s : State} (hk : SameNvm r s) :
    OutSameNvm r (execStraitOverflow id lanes s) := by
  unfold execStraitOverflow
  repeat' first
    | intro _
    | (with_reducible first | assumption | exact SameNvm.refl _ | apply OutSameNvm.next | apply State.straitLoss_sameNvm | apply OutSameNvm.cond | apply SameNvm.cond)
    | extract_lets | split

theorem execStraitErrClr_sameNvm {r : State} {s : State} (hk : SameNvm r s) :
    OutSameNvm r (execStraitErrClr s) := by
  unfold execStraitErrClr
  repeat' first
    | intro _
    | (with_reducible first | assumption | exact SameNvm.refl _ | apply OutSameNvm.next | apply State.access_sameNvm | apply State.puts_sameNvm)
    | extract_lets | dsimp only

end Sys2Proof.Machine
end

