-- ==== Sys2Proof/Laws/StoredArchipelago.lean ====
section
/-!
SUPPORT. The operations of Archipelago that leave the NVM.
-/
set_option Elab.async false
set_option linter.all false
namespace Sys2Proof.Machine

theorem State.latestStart_sameNvm {r : State} {s : State} {c : Nat} {cw : Codeword} (hk : SameNvm r s) :
    SameNvm r (State.latestStart s c cw).2 := by
  unfold State.latestStart
  repeat' first
    | intro _
    | (with_reducible first | assumption | exact SameNvm.refl _ | apply State.free_sameNvm | apply SameNvm.cond_snd | apply SameNvm.cond)
    | extract_lets | dsimp only | split

theorem State.cwEnd_sameNvm {r : State} {s : State} {c : Nat} {cw : Codeword} {o : CwOutcome} (hk : SameNvm r s) :
    SameNvm r (State.cwEnd s c cw o) := by
  unfold State.cwEnd
  repeat' first
    | intro _
    | (with_reducible first | assumption | exact SameNvm.refl _ | apply State.bump_sameNvm | apply State.raise_sameNvm | apply State.faultEvent_sameNvm | apply State.trimLoad_sameNvm)
    | extract_lets | dsimp only | split

theorem State.askPort_sameNvm {r : State} {s : State} {e : Emission} (hk : SameNvm r s) :
    SameNvm r (State.askPort s e) := by
  unfold State.askPort
  repeat' first
    | intro _
    | (with_reducible first | assumption | exact SameNvm.refl _)
    | extract_lets
    | (with_reducible first | apply SameNvm.other)

theorem State.serviceIn_sameNvm {r : State} {s : State} {cw : Codeword} {bits : Nat} (hk : SameNvm r s) :
    SameNvm r (State.serviceIn s cw bits) := by
  unfold State.serviceIn
  repeat' first
    | intro _
    | (with_reducible first | assumption | exact SameNvm.refl _ | apply State.service_sameNvm | apply State.setLd_sameNvm)
    | extract_lets | dsimp only
    | (with_reducible first | apply SameNvm.other)

theorem State.sendHard_sameNvm {r : State} {s : State} {c eng : Nat} {bypass : Bool} {cw : Codeword} {hard : List Nat} (hk : SameNvm r s) :
    SameNvm r (State.sendHard s c eng bypass cw hard) := by
  unfold State.sendHard
  repeat' first
    | intro _
    | (with_reducible first | assumption | exact SameNvm.refl _ | apply State.askPort_sameNvm | apply State.serviceIn_sameNvm | apply OptSameNvm.getD)
    | extract_lets

theorem State.expireQ_sameNvm {r : State} {s : State} {cw : Codeword} (hk : SameNvm r s) :
    SameNvm r (State.expireQ s cw) := by
  unfold State.expireQ
  repeat' first
    | intro _
    | (with_reducible first | assumption | exact SameNvm.refl _ | apply State.cwEnd_sameNvm | apply State.sendHard_sameNvm)
    | extract_lets

theorem State.enqueue_sameNvm {r : State} {s : State} {v index : Nat} {samples : List Int} (hk : SameNvm r s) :
    SameNvm r (State.enqueue s v index samples) := by
  unfold State.enqueue
  repeat' first
    | intro _
    | (with_reducible first | assumption | exact SameNvm.refl _ | apply State.askPort_sameNvm | apply State.sendHard_sameNvm | apply State.wr_sameNvm | apply State.raise_sameNvm | apply State.expireQ_sameNvm | apply State.trimLoad_sameNvm | apply SameNvm.when | apply SameNvm.cond | apply SameNvm.cond_snd)
    | extract_lets | dsimp only | split
    | (with_reducible first | apply SameNvm.other)

theorem State.straitStopped_sameNvm {r : State} {s : State} {v index : Nat} {samples : List Int} (hk : SameNvm r s) :
    SameNvm r (State.straitStopped s v index samples) := by
  unfold State.straitStopped
  repeat' first
    | intro _
    | (with_reducible first | assumption | exact SameNvm.refl _ | apply State.straitPut_sameNvm | apply State.straitLoss_sameNvm | apply SameNvm.when)
    | extract_lets | dsimp only

theorem execCodewordEnqueue_sameNvm {r : State} {n : Lane} {index : BitVec 8} {samples : List Int} {s : State} (hk : SameNvm r s) :
    OutSameNvm r (execCodewordEnqueue n index samples s) := by
  unfold execCodewordEnqueue
  repeat' first
    | intro _
    | (with_reducible first | assumption | exact SameNvm.refl _ | apply OutSameNvm.next | apply State.wr_sameNvm | apply State.bump_sameNvm | apply State.straitStopped_sameNvm | apply State.enqueue_sameNvm | apply SameNvm.when | apply OutSameNvm.cond | apply SameNvm.cond)
    | extract_lets | dsimp only | split

theorem execCodewordExpiry_sameNvm {r : State} {n : Lane} {phase : Int} {s : State} (hk : SameNvm r s) :
    OutSameNvm r (execCodewordExpiry n phase s) := by
  unfold execCodewordExpiry
  repeat' first
    | intro _
    | (with_reducible first | assumption | exact SameNvm.refl _ | apply OutSameNvm.next | apply State.latestStart_sameNvm | apply State.expireQ_sameNvm | apply OutSameNvm.cond | apply SameNvm.cond | apply SameNvm.cond_snd)
    | extract_lets | dsimp only | split
    | (with_reducible first | apply SameNvm.other)

theorem State.setEng_sameNvm {r : State} {s : State} {e st : Nat} (hk : SameNvm r s) :
    SameNvm r (State.setEng s e st) := by
  unfold State.setEng
  repeat' first
    | intro _
    | (with_reducible first | assumption | exact SameNvm.refl _ | apply State.wr_sameNvm)
    | extract_lets

theorem State.homeOffer_sameNvm {r : State} {s : State} {e atc : Nat} (hk : SameNvm r s) :
    SameNvm r (State.homeOffer s e atc).2 := by
  unfold State.homeOffer
  repeat' first
    | intro _
    | (with_reducible first | assumption | exact SameNvm.refl _ | apply State.latestStart_sameNvm | apply SameNvm.cond_snd | apply SameNvm.cond)
    | extract_lets | dsimp only | split

theorem State.bgServe_sameNvm {r : State} {s : State} {e : Nat} {b : BgTask} (hk : SameNvm r s) :
    SameNvm r (State.bgServe s e b) := by
  unfold State.bgServe
  repeat' first
    | intro _
    | (with_reducible first | assumption | exact SameNvm.refl _ | apply State.setEng_sameNvm | apply State.wr_sameNvm | apply SameNvm.cond)
    | extract_lets | dsimp only | split
    | (with_reducible first | apply SameNvm.other)

theorem execEngineRequest_sameNvm {r : State} {e : Fin 128} {phase : Int} {s : State} (hk : SameNvm r s) :
    OutSameNvm r (execEngineRequest e phase s) := by
  unfold execEngineRequest
  dsimp only
  repeat' first
    | intro _
    | (with_reducible first | assumption | exact SameNvm.refl _ | apply OutSameNvm.next | apply State.bgServe_sameNvm | apply State.homeOffer_sameNvm | apply SameNvm.foldl | apply OutSameNvm.cond | apply SameNvm.cond | apply SameNvm.cond_snd)
    | extract_lets | dsimp only | split
    | (with_reducible first | apply SameNvm.other)

theorem State.raceLost_sameNvm {r : State} {s : State} {e : Nat} (hk : SameNvm r s) :
    SameNvm r (State.raceLost s e) := by
  unfold State.raceLost
  repeat' first
    | intro _
    | (with_reducible first | assumption | exact SameNvm.refl _ | apply State.bump_sameNvm)
    | extract_lets

theorem State.grant_sameNvm {r : State} {s : State} {v e : Nat} {cw : Codeword} {path : List (Nat × Nat)} {atc : Nat} (hk : SameNvm r s) :
    SameNvm r (State.grant s v e cw path atc) := by
  unfold State.grant
  repeat' first
    | intro _
    | (with_reducible first | assumption | exact SameNvm.refl _ | apply State.setEng_sameNvm | apply State.bump_sameNvm | apply SameNvm.when | apply SameNvm.cond)
    | extract_lets | dsimp only | split
    | (with_reducible first | apply SameNvm.other)

theorem execQueueGrant_sameNvm {r : State} {n : Lane} {phase : Int} {s : State} (hk : SameNvm r s) :
    OutSameNvm r (execQueueGrant n phase s) := by
  unfold execQueueGrant
  repeat' first
    | intro _
    | (with_reducible first | assumption | exact SameNvm.refl _ | apply OutSameNvm.next | apply State.raceLost_sameNvm | apply State.latestStart_sameNvm | apply State.expireQ_sameNvm | apply State.grant_sameNvm | apply SameNvm.each | apply SameNvm.foldl | apply OutSameNvm.cond | apply SameNvm.cond | apply SameNvm.cond_snd)
    | extract_lets | dsimp only | split
    | (with_reducible first | apply SameNvm.other)

theorem State.setWork_sameNvm {r : State} {s : State} {e : Nat} {g : EngWork → EngWork} (hk : SameNvm r s) :
    SameNvm r (State.setWork s e g) := by
  unfold State.setWork
  repeat' first
    | intro _
    | (with_reducible first | assumption | exact SameNvm.refl _ | apply SameNvm.cond)
    | extract_lets | dsimp only | split
    | (with_reducible first | apply SameNvm.other)

theorem execStealTransferDone_sameNvm {r : State} {e : Fin 128} {s : State} (hk : SameNvm r s) :
    OutSameNvm r (execStealTransferDone e s) := by
  unfold execStealTransferDone
  repeat' first
    | intro _
    | (with_reducible first | assumption | exact SameNvm.refl _ | apply OutSameNvm.next | apply State.setWork_sameNvm | apply State.setEng_sameNvm | apply OutSameNvm.cond | apply SameNvm.cond)
    | extract_lets | dsimp only | split
    | (with_reducible first | apply SameNvm.other)

theorem State.decodeEnd_sameNvm {r : State} {s : State} {e : Nat} {w : EngWork} {o : CwOutcome} {hard : List Nat} (hk : SameNvm r s) :
    SameNvm r (State.decodeEnd s e w o hard) := by
  unfold State.decodeEnd
  repeat' first
    | intro _
    | (with_reducible first | assumption | exact SameNvm.refl _ | apply State.setWork_sameNvm | apply State.cwEnd_sameNvm | apply State.sendHard_sameNvm)
    | extract_lets | dsimp only
    | (with_reducible first | apply SameNvm.other)

theorem execEngineLoadDone_sameNvm {r : State} {e : Fin 128} {s : State} (hk : SameNvm r s) :
    OutSameNvm r (execEngineLoadDone e s) := by
  unfold execEngineLoadDone
  repeat' first
    | intro _
    | (with_reducible first | assumption | exact SameNvm.refl _ | apply OutSameNvm.next | apply State.decodeEnd_sameNvm | apply State.setWork_sameNvm | apply OutSameNvm.cond | apply SameNvm.cond)
    | extract_lets | dsimp only | split
    | (with_reducible first | apply SameNvm.other)

theorem execEngineIterationDone_sameNvm {r : State} {e : Fin 128} {s : State} (hk : SameNvm r s) :
    OutSameNvm r (execEngineIterationDone e s) := by
  unfold execEngineIterationDone
  repeat' first
    | intro _
    | (with_reducible first | assumption | exact SameNvm.refl _ | apply OutSameNvm.next | apply State.setWork_sameNvm | apply State.decodeEnd_sameNvm | apply OutSameNvm.cond | apply SameNvm.cond | apply SameNvm.cond_snd)
    | extract_lets | dsimp only | split
    | (with_reducible first | apply SameNvm.other)

theorem execEngineStopPoint_sameNvm {r : State} {e : Fin 128} {phase : Int} {s : State} (hk : SameNvm r s) :
    OutSameNvm r (execEngineStopPoint e phase s) := by
  unfold execEngineStopPoint
  repeat' first
    | intro _
    | (with_reducible first | assumption | exact SameNvm.refl _ | apply OutSameNvm.next | apply State.decodeEnd_sameNvm | apply OutSameNvm.cond | apply SameNvm.cond)
    | extract_lets | dsimp only | split

theorem execEmitPortGrant_sameNvm {r : State} {n : Lane} {s : State} (hk : SameNvm r s) :
    OutSameNvm r (execEmitPortGrant n s) := by
  unfold execEmitPortGrant
  repeat' first
    | intro _
    | (with_reducible first | assumption | exact SameNvm.refl _ | apply OutSameNvm.next | apply State.setWork_sameNvm | apply State.emit_sameNvm | apply State.setEng_sameNvm | apply OutSameNvm.cond | apply SameNvm.cond)
    | extract_lets | dsimp only | split
    | (with_reducible first | apply SameNvm.other)

theorem execEmitDone_sameNvm {r : State} {n : Lane} {s : State} (hk : SameNvm r s) :
    OutSameNvm r (execEmitDone n s) := by
  unfold execEmitDone
  repeat' first
    | intro _
    | (with_reducible first | assumption | exact SameNvm.refl _ | apply OutSameNvm.next | apply State.straitPut_sameNvm | apply State.setEng_sameNvm | apply OutSameNvm.cond | apply SameNvm.cond)
    | extract_lets | dsimp only | split
    | (with_reducible first | apply SameNvm.other)

theorem State.homeLow_sameNvm {r : State} {s : State} {lanes : List Nat} (hk : SameNvm r s) :
    SameNvm r (State.homeLow s lanes) := by
  unfold State.homeLow
  repeat' first
    | intro _
    | (with_reducible first | assumption | exact SameNvm.refl _ | apply State.wrb_sameNvm | apply State.raise_sameNvm | apply SameNvm.each | apply SameNvm.when)
    | extract_lets | dsimp only

theorem State.engFail_sameNvm {r : State} {s : State} {e : Nat} (hk : SameNvm r s) :
    SameNvm r (State.engFail s e) := by
  unfold State.engFail
  repeat' first
    | intro _
    | (with_reducible first | assumption | exact SameNvm.refl _ | apply State.wr_sameNvm | apply State.raise_sameNvm | apply State.homeLow_sameNvm | apply SameNvm.cond)
    | extract_lets | dsimp only | split
    | (with_reducible first | apply SameNvm.other)

theorem execEngineDeadlineFail_sameNvm {r : State} {e : Fin 128} {phase : Int} {s : State} (hk : SameNvm r s) :
    OutSameNvm r (execEngineDeadlineFail e phase s) := by
  unfold execEngineDeadlineFail
  repeat' first
    | intro _
    | (with_reducible first | assumption | exact SameNvm.refl _ | apply OutSameNvm.next | apply State.engFail_sameNvm | apply OutSameNvm.cond | apply SameNvm.cond)
    | extract_lets | dsimp only | split

theorem State.engAbandon_sameNvm {r : State} {s : State} {e : Nat} {hard : EngWork → List Nat} (hk : SameNvm r s) :
    SameNvm r (State.engAbandon s e hard) := by
  unfold State.engAbandon
  repeat' first
    | intro _
    | (with_reducible first | assumption | exact SameNvm.refl _ | apply State.free_sameNvm | apply State.emit_sameNvm | apply State.cwEnd_sameNvm | apply State.sendHard_sameNvm | apply SameNvm.cond)
    | extract_lets | dsimp only | split
    | (with_reducible first | apply SameNvm.other)

theorem execMicrocodeEccError_sameNvm {r : State} {e : Fin 128} {double : Bool} {s : State} (hk : SameNvm r s) :
    OutSameNvm r (execMicrocodeEccError e double s) := by
  unfold execMicrocodeEccError
  repeat' first
    | intro _
    | (with_reducible first | assumption | exact SameNvm.refl _ | apply OutSameNvm.next | apply State.bump_sameNvm | apply State.raise_sameNvm | apply State.engAbandon_sameNvm | apply State.engFail_sameNvm | apply State.wr_sameNvm | apply State.setEng_sameNvm | apply OutSameNvm.cond | apply SameNvm.cond)
    | extract_lets | dsimp only | split
    | (with_reducible first | apply SameNvm.other)

theorem execReleaseBufferWrite_sameNvm {r : State} {n : Lane} {s : State} (hk : SameNvm r s) :
    OutSameNvm r (execReleaseBufferWrite n s) := by
  unfold execReleaseBufferWrite
  repeat' first
    | intro _
    | (with_reducible first | assumption | exact SameNvm.refl _ | apply OutSameNvm.next | apply State.bump_sameNvm | apply State.raise_sameNvm | apply OutSameNvm.cond | apply SameNvm.cond)
    | extract_lets | dsimp only | split
    | (with_reducible first | apply SameNvm.other)

theorem State.ingressAm_sameNvm {r : State} {s : State} {n : Nat} {a : AmSeen} (hk : SameNvm r s) :
    SameNvm r (State.ingressAm s n a) := by
  unfold State.ingressAm
  repeat' first
    | intro _
    | (with_reducible first | assumption | exact SameNvm.refl _ | apply State.wr_sameNvm | apply State.ingressUnlock_sameNvm | apply SameNvm.when | apply SameNvm.cond)
    | extract_lets | dsimp only | split

theorem State.dealOut_sameNvm {r : State} {s : State} {n payload : Nat} (hk : SameNvm r s) :
    SameNvm r (State.dealOut s n payload) := by
  unfold State.dealOut
  repeat' first
    | intro _
    | (with_reducible first | assumption | exact SameNvm.refl _ | apply State.setLd_sameNvm | apply State.wr_sameNvm | apply SameNvm.cond | apply SameNvm.cond_snd)
    | extract_lets | dsimp only | split
    | (with_reducible first | apply SameNvm.other)

theorem execCodewordRelease_sameNvm {r : State} {n : Lane} {ui : BitVec 24} {am : Option AmSeen} {s : State} (hk : SameNvm r s) :
    OutSameNvm r (execCodewordRelease n ui am s) := by
  unfold execCodewordRelease
  repeat' first
    | intro _
    | (with_reducible first | assumption | exact SameNvm.refl _ | apply OutSameNvm.next | apply State.bump_sameNvm | apply State.raise_sameNvm | apply State.faultEvent_sameNvm | apply State.dealOut_sameNvm | apply State.ingressAm_sameNvm | apply State.wr_sameNvm | apply State.profReleased_sameNvm | apply SameNvm.when | apply OutSameNvm.cond | apply SameNvm.cond)
    | extract_lets | dsimp only | split
    | (with_reducible first | apply SameNvm.other)

theorem State.starve_sameNvm {r : State} {s : State} {b : BgTask} (hk : SameNvm r s) :
    SameNvm r (State.starve s b) := by
  unfold State.starve
  dsimp only
  repeat' first
    | intro _
    | (with_reducible first | assumption | exact SameNvm.refl _ | apply State.bump_sameNvm | apply State.raise_sameNvm | apply SameNvm.when | apply SameNvm.cond)
    | extract_lets | dsimp only | split
    | (with_reducible first | apply SameNvm.other)

theorem State.starveAll_sameNvm {r s : State} {limit k : Nat} (hk : SameNvm r s) : SameNvm r (s.starveAll limit k) := by
  induction k generalizing s with
  | zero => exact hk
  | succ k ih =>
    unfold State.starveAll
    split
    · exact ih (State.starve_sameNvm hk)
    · exact hk

theorem State.bgAge_sameNvm {r : State} {s : State} (hk : SameNvm r s) :
    SameNvm r (State.bgAge s) := by
  unfold State.bgAge
  repeat' first
    | intro _
    | (with_reducible first | assumption | exact SameNvm.refl _ | apply State.starveAll_sameNvm | apply SameNvm.cond)
    | extract_lets | dsimp only | split
    | (with_reducible first | apply SameNvm.other)

theorem State.bgDone_sameNvm {r : State} {s : State} {e : Nat} (hk : SameNvm r s) :
    SameNvm r (State.bgDone s e) := by
  unfold State.bgDone
  repeat' first
    | intro _
    | (with_reducible first | assumption | exact SameNvm.refl _ | apply State.setEng_sameNvm | apply State.wr_sameNvm | apply State.starveAll_sameNvm)
    | extract_lets | dsimp only
    | (with_reducible first | apply SameNvm.other)

theorem execBgTaskDue_sameNvm {r : State} {e : Fin 128} {refresh : Bool} {s : State} (hk : SameNvm r s) :
    OutSameNvm r (execBgTaskDue e refresh s) := by
  unfold execBgTaskDue
  repeat' first
    | intro _
    | (with_reducible first | assumption | exact SameNvm.refl _ | apply OutSameNvm.next | apply OutSameNvm.cond | apply SameNvm.cond)
    | extract_lets | dsimp only | split
    | (with_reducible first | apply SameNvm.other)

theorem execEngineRefreshDone_sameNvm {r : State} {e : Fin 128} {s : State} (hk : SameNvm r s) :
    OutSameNvm r (execEngineRefreshDone e s) := by
  unfold execEngineRefreshDone
  repeat' first
    | intro _
    | (with_reducible first | assumption | exact SameNvm.refl _ | apply OutSameNvm.next | apply State.loadStores_sameNvm | apply State.bgDone_sameNvm | apply OutSameNvm.cond | apply SameNvm.cond)
    | extract_lets | split

theorem execHistGatherDone_sameNvm {r : State} {e : Fin 128} {s : State} (hk : SameNvm r s) :
    OutSameNvm r (execHistGatherDone e s) := by
  unfold execHistGatherDone
  repeat' first
    | intro _
    | (with_reducible first | assumption | exact SameNvm.refl _ | apply OutSameNvm.next | apply State.bump_sameNvm | apply State.wr_sameNvm | apply State.bgDone_sameNvm | apply SameNvm.each | apply OutSameNvm.cond | apply SameNvm.cond)
    | extract_lets | dsimp only | split

theorem State.arcClClear_sameNvm {r : State} {s : State} {c : Nat} (hk : SameNvm r s) :
    SameNvm r (State.arcClClear s c) := by
  unfold State.arcClClear
  repeat' first
    | intro _
    | (with_reducible first | assumption | exact SameNvm.refl _ | apply State.clear_sameNvm | apply State.wr_sameNvm | apply SameNvm.each)
    | extract_lets | dsimp only

theorem execArcClCntClr_sameNvm {r : State} {n : Lane} {s : State} (hk : SameNvm r s) :
    OutSameNvm r (execArcClCntClr n s) := by
  unfold execArcClCntClr
  repeat' first
    | intro _
    | (with_reducible first | assumption | exact SameNvm.refl _ | apply OutSameNvm.next | apply State.access_sameNvm | apply State.arcClClear_sameNvm)
    | extract_lets | dsimp only

theorem execArcCntClr_sameNvm {r : State} {s : State} (hk : SameNvm r s) :
    OutSameNvm r (execArcCntClr s) := by
  unfold execArcCntClr
  repeat' first
    | intro _
    | (with_reducible first | assumption | exact SameNvm.refl _ | apply OutSameNvm.next | apply State.access_sameNvm | apply State.arcClClear_sameNvm | apply State.wr_sameNvm | apply SameNvm.each)
    | extract_lets | dsimp only

end Sys2Proof.Machine
end

