-- ==== Sys2Proof/Laws/StoredIcris.lean ====
section
/-!
SUPPORT. The operations of Icris that leave the NVM.
-/
set_option Elab.async false
set_option linter.all false
namespace Sys2Proof.Machine

theorem State.setTodFull_sameNvm {r : State} {s : State} {v : Int} (hk : SameNvm r s) :
    SameNvm r (State.setTodFull s v) := by
  unfold State.setTodFull
  repeat' first
    | intro _
    | (with_reducible first | assumption | exact SameNvm.refl _ | apply State.puts_sameNvm)
    | extract_lets

theorem State.slewCancel_sameNvm {r : State} {s : State} (hk : SameNvm r s) :
    SameNvm r (State.slewCancel s) := by
  unfold State.slewCancel
  repeat' first
    | intro _
    | (with_reducible first | assumption | exact SameNvm.refl _ | apply State.puts_sameNvm | apply State.todDisc_sameNvm | apply SameNvm.cond)
    | extract_lets | split

theorem State.todDone_sameNvm {r : State} {s : State} (hk : SameNvm r s) :
    SameNvm r (State.todDone s) := by
  unfold State.todDone
  repeat' first
    | intro _
    | (with_reducible first | assumption | exact SameNvm.refl _ | apply State.puts_sameNvm | apply State.raise_sameNvm)
    | extract_lets

theorem State.todJump_sameNvm {r : State} {s : State} {d : Int} (hk : SameNvm r s) :
    SameNvm r (State.todJump s d) := by
  unfold State.todJump
  repeat' first
    | intro _
    | (with_reducible first | assumption | exact SameNvm.refl _ | apply State.wrInt_sameNvm | apply State.setTodFull_sameNvm | apply State.bump_sameNvm | apply State.todDisc_sameNvm)
    | extract_lets

theorem State.todSetTo_sameNvm {r : State} {s : State} {v : Int} (hk : SameNvm r s) :
    SameNvm r (State.todSetTo s v) := by
  unfold State.todSetTo
  repeat' first
    | intro _
    | (with_reducible first | assumption | exact SameNvm.refl _ | apply State.slewCancel_sameNvm | apply State.todJump_sameNvm | apply State.wr_sameNvm)
    | extract_lets

theorem State.todStepBy_sameNvm {r : State} {s : State} {d : Int} (hk : SameNvm r s) :
    SameNvm r (State.todStepBy s d) := by
  unfold State.todStepBy
  repeat' first
    | intro _
    | (with_reducible first | assumption | exact SameNvm.refl _ | apply State.todJump_sameNvm)
    | extract_lets

theorem State.tick_sameNvm {r : State} {s : State} (hk : SameNvm r s) :
    SameNvm r (State.tick s) := by
  unfold State.tick
  repeat' first
    | intro _
    | (with_reducible first | assumption | exact SameNvm.refl _ | apply State.wr_sameNvm | apply State.todSetTo_sameNvm | apply State.todDone_sameNvm | apply State.bump_sameNvm | apply State.free_sameNvm | apply State.setTodFull_sameNvm | apply State.wrInt_sameNvm | apply SameNvm.cond | apply SameNvm.cond_snd)
    | extract_lets | dsimp only | split
    | (with_reducible first | apply SameNvm.other)

theorem execTodSetNow_sameNvm {r : State} {s : State} (hk : SameNvm r s) :
    OutSameNvm r (execTodSetNow s) := by
  unfold execTodSetNow
  repeat' first
    | intro _
    | (with_reducible first | assumption | exact SameNvm.refl _ | apply OutSameNvm.next | apply State.access_sameNvm | apply State.slewCancel_sameNvm | apply State.puts_sameNvm)
    | extract_lets | dsimp only

theorem execTodSetAtTimeIn_sameNvm {r : State} {s : State} (hk : SameNvm r s) :
    OutSameNvm r (execTodSetAtTimeIn s) := by
  unfold execTodSetAtTimeIn
  repeat' first
    | intro _
    | (with_reducible first | assumption | exact SameNvm.refl _ | apply OutSameNvm.next | apply State.access_sameNvm | apply State.slewCancel_sameNvm | apply State.puts_sameNvm)
    | extract_lets | dsimp only

theorem execTodSetTimeout_sameNvm {r : State} {s : State} (hk : SameNvm r s) :
    OutSameNvm r (execTodSetTimeout s) := by
  unfold execTodSetTimeout
  repeat' first
    | intro _
    | (with_reducible first | assumption | exact SameNvm.refl _ | apply OutSameNvm.next | apply State.puts_sameNvm | apply State.raise_sameNvm | apply OutSameNvm.cond | apply SameNvm.cond)
    | extract_lets | split

theorem State.adjust_sameNvm {r : State} {s : State} {g : State → State} (hk : SameNvm r s) (hgg : ∀ u, SameNvm r u → SameNvm r (g u)) :
    SameNvm r (State.adjust s g) := by
  unfold State.adjust
  repeat' first
    | intro _
    | (with_reducible first | apply hgg | assumption | exact SameNvm.refl _ | apply State.wr_sameNvm | apply State.raise_sameNvm | apply SameNvm.cond)
    | extract_lets | split

theorem execTodStep_sameNvm {r : State} {s : State} (hk : SameNvm r s) :
    OutSameNvm r (execTodStep s) := by
  unfold execTodStep
  repeat' first
    | intro _
    | (with_reducible first | assumption | exact SameNvm.refl _ | apply OutSameNvm.next | apply State.access_sameNvm | apply State.adjust_sameNvm | apply State.todStepBy_sameNvm | apply State.todDone_sameNvm)
    | extract_lets | dsimp only

theorem execTodSlew_sameNvm {r : State} {s : State} (hk : SameNvm r s) :
    OutSameNvm r (execTodSlew s) := by
  unfold execTodSlew
  repeat' first
    | intro _
    | (with_reducible first | assumption | exact SameNvm.refl _ | apply OutSameNvm.next | apply State.access_sameNvm | apply State.adjust_sameNvm | apply State.puts_sameNvm | apply State.wrInt_sameNvm | apply State.todDisc_sameNvm)
    | extract_lets | dsimp only

theorem execTodSlewDone_sameNvm {r : State} {s : State} (hk : SameNvm r s) :
    OutSameNvm r (execTodSlewDone s) := by
  unfold execTodSlewDone
  repeat' first
    | intro _
    | (with_reducible first | assumption | exact SameNvm.refl _ | apply OutSameNvm.next | apply State.setTodFull_sameNvm | apply State.puts_sameNvm | apply State.todDisc_sameNvm | apply State.todDone_sameNvm | apply OutSameNvm.cond | apply SameNvm.cond)
    | extract_lets | split

theorem State.tsfPut_sameNvm {r : State} {s : State} {kind index line time frame : Nat} (hk : SameNvm r s) :
    SameNvm r (State.tsfPut s kind index line time frame) := by
  unfold State.tsfPut
  repeat' first
    | intro _
    | (with_reducible first | assumption | exact SameNvm.refl _ | apply State.wr_sameNvm | apply State.bump_sameNvm | apply State.raise_sameNvm | apply State.puts_sameNvm | apply SameNvm.when | apply SameNvm.cond)
    | extract_lets | dsimp only | split
    | (with_reducible first | apply SameNvm.other)

theorem State.stampRx_sameNvm {r : State} {s : State} {n t ordinal age : Nat} {broken : Bool} (hk : SameNvm r s) :
    SameNvm r (State.stampRx s n t ordinal age broken) := by
  unfold State.stampRx
  repeat' first
    | intro _
    | (with_reducible first | assumption | exact SameNvm.refl _ | apply State.wrb_sameNvm | apply State.puts_sameNvm | apply State.wr_sameNvm | apply State.tsfPut_sameNvm | apply SameNvm.when)
    | extract_lets | dsimp only

theorem State.stampTx_sameNvm {r : State} {s : State} {n t ordinal : Nat} {steady : Int} {broken : Bool} (hk : SameNvm r s) :
    SameNvm r (State.stampTx s n t ordinal steady broken) := by
  unfold State.stampTx
  repeat' first
    | intro _
    | (with_reducible first | assumption | exact SameNvm.refl _ | apply State.puts_sameNvm | apply State.setEx_sameNvm | apply State.tsfPut_sameNvm | apply SameNvm.when)
    | extract_lets | dsimp only
    | (with_reducible first | apply SameNvm.other)

theorem State.stamp_sameNvm {r0 : State} {s : State} {r : PointReport} {index t : Nat} {steady : Frac} (hk : SameNvm r0 s) :
    SameNvm r0 (State.stamp s r index t steady) := by
  unfold State.stamp
  repeat' first
    | intro _
    | (with_reducible first | assumption | exact SameNvm.refl _ | apply State.bump_sameNvm | apply State.stampRx_sameNvm | apply State.stampTx_sameNvm | apply State.puts_sameNvm | apply State.tsfPut_sameNvm | apply SameNvm.when | apply OptSameNvm.getD)
    | extract_lets | dsimp only | split

theorem execTimestampEvent_sameNvm {r0 : State} {r : PointReport} {s : State} (hk : SameNvm r0 s) :
    OutSameNvm r0 (execTimestampEvent r s) := by
  unfold execTimestampEvent
  repeat' first
    | intro _
    | (with_reducible first | assumption | exact SameNvm.refl _ | apply OutSameNvm.next | apply State.straitLoss_sameNvm | apply State.stamp_sameNvm | apply OutSameNvm.cond | apply SameNvm.cond)
    | extract_lets | split

theorem execCrossCapture_sameNvm {r : State} {island : Fin 12} {count : BitVec 64} {interval : BitVec 12} {s : State} (hk : SameNvm r s) :
    OutSameNvm r (execCrossCapture island count interval s) := by
  unfold execCrossCapture
  repeat' first
    | intro _
    | (with_reducible first | assumption | exact SameNvm.refl _ | apply OutSameNvm.next | apply State.wr_sameNvm | apply State.wrInt_sameNvm | apply OutSameNvm.cond | apply SameNvm.cond)
    | extract_lets | split

theorem execDriftMonitor_sameNvm {r : State} {point : Fin 48} {delta : Int} {ana : BitVec 16} {s : State} (hk : SameNvm r s) :
    OutSameNvm r (execDriftMonitor point delta ana s) := by
  unfold execDriftMonitor
  repeat' first
    | intro _
    | (with_reducible first | assumption | exact SameNvm.refl _ | apply OutSameNvm.next | apply State.wrInt_sameNvm | apply State.wr_sameNvm | apply State.puts_sameNvm | apply SameNvm.when | apply OutSameNvm.cond | apply SameNvm.cond)
    | extract_lets | dsimp only | split

theorem execTsfRead_sameNvm {r : State} {s : State} (hk : SameNvm r s) :
    OutSameNvm r (execTsfRead s) := by
  unfold execTsfRead
  repeat' first
    | intro _
    | (with_reducible first | assumption | exact SameNvm.refl _ | apply OutSameNvm.next | apply State.access_sameNvm | apply State.wr_sameNvm | apply State.puts_sameNvm)
    | extract_lets | dsimp only | split
    | (with_reducible first | apply SameNvm.other)

theorem execTsfFlush_sameNvm {r : State} {s : State} (hk : SameNvm r s) :
    OutSameNvm r (execTsfFlush s) := by
  unfold execTsfFlush
  repeat' first
    | intro _
    | (with_reducible first | assumption | exact SameNvm.refl _ | apply OutSameNvm.next | apply State.access_sameNvm | apply State.wr_sameNvm)
    | extract_lets | dsimp only
    | (with_reducible first | apply SameNvm.other)

theorem execTimCntClr_sameNvm {r : State} {s : State} (hk : SameNvm r s) :
    OutSameNvm r (execTimCntClr s) := by
  unfold execTimCntClr
  repeat' first
    | intro _
    | (with_reducible first | assumption | exact SameNvm.refl _ | apply OutSameNvm.next | apply State.access_sameNvm | apply State.clear_sameNvm)
    | extract_lets | dsimp only

theorem execTimLnCntClr_sameNvm {r : State} {n : Lane} {s : State} (hk : SameNvm r s) :
    OutSameNvm r (execTimLnCntClr n s) := by
  unfold execTimLnCntClr
  repeat' first
    | intro _
    | (with_reducible first | assumption | exact SameNvm.refl _ | apply OutSameNvm.next | apply State.access_sameNvm | apply State.clear_sameNvm)
    | extract_lets | dsimp only

theorem execLedgerPublish_sameNvm {r : State} {n : Lane} {s : State} (hk : SameNvm r s) :
    OutSameNvm r (execLedgerPublish n s) := by
  unfold execLedgerPublish
  repeat' first
    | intro _
    | (with_reducible first | assumption | exact SameNvm.refl _ | apply OutSameNvm.next | apply State.raise_sameNvm | apply State.wr_sameNvm | apply State.puts_sameNvm | apply State.wrInt_sameNvm | apply SameNvm.when | apply OutSameNvm.cond | apply SameNvm.cond | apply OptSameNvm.getD)
    | extract_lets | dsimp only | split

theorem State.regionV2_sameNvm {r : State} {s : State} {n : Nat} {late : Bool} (hk : SameNvm r s) :
    SameNvm r (State.regionV2 s n late) := by
  unfold State.regionV2
  repeat' first
    | intro _
    | (with_reducible first | assumption | exact SameNvm.refl _ | apply State.setEx_sameNvm | apply State.puts_sameNvm | apply State.bump_sameNvm | apply SameNvm.when | apply SameNvm.cond | apply OptSameNvm.getD)
    | extract_lets | dsimp only | split
    | (with_reducible first | apply SameNvm.other)

theorem execIcrisRegionWrite_sameNvm {r : State} {n : Lane} {late : Bool} {s : State} (hk : SameNvm r s) :
    OutSameNvm r (execIcrisRegionWrite n late s) := by
  unfold execIcrisRegionWrite
  repeat' first
    | intro _
    | (with_reducible first | assumption | exact SameNvm.refl _ | apply OutSameNvm.next | apply State.bump_sameNvm | apply State.regionV2_sameNvm | apply State.outRegion_sameNvm | apply OutSameNvm.cond | apply SameNvm.cond)
    | extract_lets | split

theorem execIcrisInitiate_sameNvm {r : State} {n : Lane} {s : State} (hk : SameNvm r s) :
    OutSameNvm r (execIcrisInitiate n s) := by
  unfold execIcrisInitiate
  repeat' first
    | intro _
    | (with_reducible first | assumption | exact SameNvm.refl _ | apply OutSameNvm.next | apply State.setEx_sameNvm | apply OutSameNvm.cond | apply SameNvm.cond)
    | extract_lets | split
    | (with_reducible first | apply SameNvm.other)

theorem execInitiationMiss_sameNvm {r : State} {n : Lane} {seq : BitVec 16} {s : State} (hk : SameNvm r s) :
    OutSameNvm r (execInitiationMiss n seq s) := by
  unfold execInitiationMiss
  repeat' first
    | intro _
    | (with_reducible first | assumption | exact SameNvm.refl _ | apply OutSameNvm.next | apply State.setEx_sameNvm | apply State.bump_sameNvm | apply OutSameNvm.cond | apply SameNvm.cond)
    | extract_lets | dsimp only | split
    | (with_reducible first | apply SameNvm.other)

theorem execExchStale_sameNvm {r : State} {n : Lane} {s : State} (hk : SameNvm r s) :
    OutSameNvm r (execExchStale n s) := by
  unfold execExchStale
  repeat' first
    | intro _
    | (with_reducible first | assumption | exact SameNvm.refl _ | apply OutSameNvm.next | apply State.wr_sameNvm | apply State.raise_sameNvm | apply OutSameNvm.cond | apply SameNvm.cond)
    | extract_lets | split

theorem execRestartAvg_sameNvm {r : State} {n : Lane} {s : State} (hk : SameNvm r s) :
    OutSameNvm r (execRestartAvg n s) := by
  unfold execRestartAvg
  repeat' first
    | intro _
    | (with_reducible first | assumption | exact SameNvm.refl _ | apply OutSameNvm.next | apply State.access_sameNvm | apply State.exchClear_sameNvm)
    | extract_lets | dsimp only

theorem State.results_sameNvm {r : State} {s : State} {n : Nat} (hk : SameNvm r s) :
    SameNvm r (State.results s n) := by
  unfold State.results
  repeat' first
    | intro _
    | (with_reducible first | assumption | exact SameNvm.refl _ | apply State.wrInt_sameNvm | apply State.wr_sameNvm)
    | extract_lets

theorem State.ranging_sameNvm {r : State} {s : State} (hk : SameNvm r s) :
    SameNvm r (State.ranging s) := by
  unfold State.ranging
  repeat' first
    | intro _
    | (with_reducible first | assumption | exact SameNvm.refl _ | apply State.wrInt_sameNvm | apply State.puts_sameNvm | apply State.wrFree_sameNvm | apply State.wr_sameNvm | apply State.wrb_sameNvm | apply State.raise_sameNvm | apply SameNvm.each | apply SameNvm.when | apply SameNvm.foldl | apply SameNvm.cond | apply SameNvm.cond_snd | apply OptSameNvm.getD)
    | extract_lets | dsimp only | split

theorem State.phaseError_sameNvm {r : State} {s : State} {e : Int} (hk : SameNvm r s) :
    SameNvm r (State.phaseError s e) := by
  unfold State.phaseError
  repeat' first
    | intro _
    | (with_reducible first | assumption | exact SameNvm.refl _ | apply State.wr_sameNvm | apply State.wrInt_sameNvm)
    | extract_lets

theorem State.exchange_sameNvm {r : State} {s : State} {n : Nat} {t1 : Nat} {e : EchoIn} {v1 : Bool} (hk : SameNvm r s) :
    SameNvm r (State.exchange s n t1 e v1) := by
  unfold State.exchange
  repeat' first
    | intro _
    | (with_reducible first | assumption | exact SameNvm.refl _ | apply State.setEx_sameNvm | apply State.free_sameNvm | apply State.bump_sameNvm | apply State.wr_sameNvm | apply State.results_sameNvm | apply State.ranging_sameNvm | apply State.phaseError_sameNvm | apply SameNvm.when | apply SameNvm.cond | apply SameNvm.cond_snd | apply OptSameNvm.getD)
    | extract_lets | dsimp only | split
    | (with_reducible first | apply SameNvm.other)

theorem execEchoReceived_sameNvm {r : State} {n : Lane} {s : State} (hk : SameNvm r s) :
    OutSameNvm r (execEchoReceived n s) := by
  unfold execEchoReceived
  repeat' first
    | intro _
    | (with_reducible first | assumption | exact SameNvm.refl _ | apply OutSameNvm.next | apply State.setEx_sameNvm | apply State.exchClear_sameNvm | apply State.bump_sameNvm | apply State.wr_sameNvm | apply State.exchange_sameNvm | apply OutSameNvm.cond | apply SameNvm.cond)
    | extract_lets | dsimp only | split
    | (with_reducible first | apply SameNvm.other)

theorem State.steer_sameNvm {r : State} {s : State} (hk : SameNvm r s) :
    SameNvm r (State.steer s) := by
  unfold State.steer
  repeat' first
    | intro _
    | (with_reducible first | assumption | exact SameNvm.refl _ | apply State.free_sameNvm | apply State.wrInt_sameNvm)
    | extract_lets | dsimp only
    | (with_reducible first | apply SameNvm.other)

theorem execDpllUpdate_sameNvm {r : State} {s : State} (hk : SameNvm r s) :
    OutSameNvm r (execDpllUpdate s) := by
  unfold execDpllUpdate
  repeat' first
    | intro _
    | (with_reducible first | assumption | exact SameNvm.refl _ | apply OutSameNvm.next | apply State.wr_sameNvm | apply State.free_sameNvm | apply State.puts_sameNvm | apply State.wrInt_sameNvm | apply State.todStepBy_sameNvm | apply State.raise_sameNvm | apply State.steer_sameNvm | apply SameNvm.when | apply OutSameNvm.cond | apply SameNvm.cond | apply SameNvm.cond_snd)
    | extract_lets | dsimp only | split

theorem execDpllMissedUpdate_sameNvm {r : State} {s : State} (hk : SameNvm r s) :
    OutSameNvm r (execDpllMissedUpdate s) := by
  unfold execDpllMissedUpdate
  repeat' first
    | intro _
    | (with_reducible first | assumption | exact SameNvm.refl _ | apply OutSameNvm.next | apply State.wr_sameNvm | apply State.puts_sameNvm | apply State.raise_sameNvm | apply State.free_sameNvm | apply State.wrInt_sameNvm | apply SameNvm.foldl | apply OutSameNvm.cond | apply SameNvm.cond | apply SameNvm.cond_snd)
    | extract_lets | dsimp only | split

theorem State.psUnits_sameNvm {r : State} {s : State} {ps : Int} (hk : SameNvm r s) :
    SameNvm r (State.psUnits s ps).2 := by
  unfold State.psUnits
  repeat' first
    | intro _
    | (with_reducible first | assumption | exact SameNvm.refl _ | apply State.free_sameNvm | apply SameNvm.cond_snd | apply SameNvm.cond)
    | extract_lets | dsimp only | split

theorem execTimeInEdge_sameNvm {r : State} {offset : BitVec 17} {s : State} (hk : SameNvm r s) :
    OutSameNvm r (execTimeInEdge offset s) := by
  unfold execTimeInEdge
  repeat' first
    | intro _
    | (with_reducible first | assumption | exact SameNvm.refl _ | apply OutSameNvm.next | apply State.wakeDevice_sameNvm | apply State.bump_sameNvm | apply State.puts_sameNvm | apply State.psUnits_sameNvm | apply State.wr_sameNvm | apply State.tsfPut_sameNvm | apply State.phaseError_sameNvm | apply State.todSetTo_sameNvm | apply State.todDone_sameNvm | apply SameNvm.when | apply OutSameNvm.cond | apply SameNvm.cond | apply SameNvm.cond_snd)
    | extract_lets | dsimp only | split

theorem execTimeInMiss_sameNvm {r : State} {s : State} (hk : SameNvm r s) :
    OutSameNvm r (execTimeInMiss s) := by
  unfold execTimeInMiss
  repeat' first
    | intro _
    | (with_reducible first | assumption | exact SameNvm.refl _ | apply OutSameNvm.next | apply State.raise_sameNvm | apply OutSameNvm.cond | apply SameNvm.cond)
    | extract_lets | split

theorem execTimeOutPulse_sameNvm {r : State} {s : State} (hk : SameNvm r s) :
    OutSameNvm r (execTimeOutPulse s) := by
  unfold execTimeOutPulse
  repeat' first
    | intro _
    | (with_reducible first | assumption | exact SameNvm.refl _ | apply OutSameNvm.next | apply State.psUnits_sameNvm | apply State.puts_sameNvm | apply OutSameNvm.cond | apply SameNvm.cond | apply SameNvm.cond_snd)
    | extract_lets | dsimp only | split

theorem execSuspectEnd_sameNvm {r : State} {s : State} (hk : SameNvm r s) :
    OutSameNvm r (execSuspectEnd s) := by
  unfold execSuspectEnd
  repeat' first
    | intro _
    | (with_reducible first | assumption | exact SameNvm.refl _ | apply OutSameNvm.next | apply State.wr_sameNvm | apply OutSameNvm.cond | apply SameNvm.cond)
    | extract_lets | split

end Sys2Proof.Machine
end

