-- ==== Sys2Proof/Laws/StoredClocks.lean ====
section
/-!
SUPPORT. The operations of Clocks that leave the NVM.
-/
set_option Elab.async false
set_option linter.all false
namespace Sys2Proof.Machine

theorem State.pllEffects_sameNvm {r : State} {s : State} {p : Nat} {lol : Bool} (hk : SameNvm r s) :
    SameNvm r (State.pllEffects s p lol) := by
  unfold State.pllEffects
  repeat' first
    | intro _
    | (with_reducible first | assumption | exact SameNvm.refl _ | apply State.capStop_sameNvm | apply State.lrxToCal_sameNvm | apply State.ltxFault_sameNvm | apply State.wr_sameNvm | apply State.puts_sameNvm | apply State.ltxRecheck_sameNvm | apply State.hifToCal_sameNvm | apply SameNvm.each | apply SameNvm.when | apply SameNvm.cond)
    | extract_lets | dsimp only | split

theorem State.pllCalStart_sameNvm {r : State} {s : State} {p : Nat} (hk : SameNvm r s) :
    SameNvm r (State.pllCalStart s p) := by
  unfold State.pllCalStart
  repeat' first
    | intro _
    | (with_reducible first | assumption | exact SameNvm.refl _ | apply State.setMask_sameNvm | apply State.wr_sameNvm | apply State.puts_sameNvm | apply State.pllSet_sameNvm | apply State.pllGate_sameNvm | apply SameNvm.when | apply SameNvm.cond)
    | extract_lets | dsimp only | split

theorem State.pllLockedNow_sameNvm {r : State} {s : State} {p : Nat} (hk : SameNvm r s) :
    SameNvm r (State.pllLockedNow s p) := by
  unfold State.pllLockedNow
  repeat' first
    | intro _
    | (with_reducible first | assumption | exact SameNvm.refl _ | apply State.atcRun_sameNvm | apply State.straitFlush_sameNvm | apply State.puts_sameNvm | apply State.pllSet_sameNvm | apply State.wr_sameNvm | apply State.xbarFollow_sameNvm | apply State.ltxRecheck_sameNvm | apply SameNvm.each | apply SameNvm.when)
    | extract_lets | dsimp only

theorem State.pllLol_sameNvm {r : State} {s : State} {p : Nat} (hk : SameNvm r s) :
    SameNvm r (State.pllLol s p) := by
  unfold State.pllLol
  repeat' first
    | intro _
    | (with_reducible first | assumption | exact SameNvm.refl _ | apply State.bump_sameNvm | apply State.wr_sameNvm | apply State.raise_sameNvm | apply State.pllEffects_sameNvm | apply State.faultEvent_sameNvm)
    | extract_lets

theorem execPllLockWindow_sameNvm {r : State} {p : Fin 5} {errPpm : Int} {phaseOk slip : Bool} {s : State} (hk : SameNvm r s) :
    OutSameNvm r (execPllLockWindow p errPpm phaseOk slip s) := by
  unfold execPllLockWindow
  repeat' first
    | intro _
    | (with_reducible first | assumption | exact SameNvm.refl _ | apply OutSameNvm.next | apply State.wrInt_sameNvm | apply State.pllGate_sameNvm | apply State.pllSet_sameNvm | apply State.pllLol_sameNvm | apply State.pllCalStart_sameNvm | apply State.wr_sameNvm | apply State.pllLockedNow_sameNvm | apply SameNvm.when | apply OutSameNvm.cond | apply SameNvm.cond)
    | extract_lets | dsimp only | split

theorem State.pllRequest_sameNvm {r : State} {s : State} {p : Nat} (hk : SameNvm r s) :
    SameNvm r (State.pllRequest s p) := by
  unfold State.pllRequest
  repeat' first
    | intro _
    | (with_reducible first | assumption | exact SameNvm.refl _ | apply State.puts_sameNvm | apply State.ltxDisable_sameNvm | apply SameNvm.each | apply SameNvm.cond)
    | extract_lets | dsimp only | split

theorem execPllCalReq_sameNvm {r : State} {mask : BitVec 5} {s : State} (hk : SameNvm r s) :
    OutSameNvm r (execPllCalReq mask s) := by
  unfold execPllCalReq
  repeat' first
    | intro _
    | (with_reducible first | assumption | exact SameNvm.refl _ | apply OutSameNvm.next | apply State.access_sameNvm | apply State.setMask_sameNvm | apply State.wr_sameNvm | apply State.pllRequest_sameNvm | apply SameNvm.each | apply OutSameNvm.cond | apply SameNvm.cond)
    | extract_lets | dsimp only | split

theorem execPllCalStart_sameNvm {r : State} {p : Fin 5} {s : State} (hk : SameNvm r s) :
    OutSameNvm r (execPllCalStart p s) := by
  unfold execPllCalStart
  repeat' first
    | intro _
    | (with_reducible first | assumption | exact SameNvm.refl _ | apply OutSameNvm.next | apply State.pllCalStart_sameNvm | apply State.pllEffects_sameNvm | apply OutSameNvm.cond | apply SameNvm.cond)
    | extract_lets | split

theorem State.pllServed_sameNvm {r : State} {s : State} {p : Nat} (hk : SameNvm r s) :
    SameNvm r (State.pllServed s p) := by
  unfold State.pllServed
  repeat' first
    | intro _
    | (with_reducible first | assumption | exact SameNvm.refl _ | apply State.wr_sameNvm | apply State.clearLasting_sameNvm | apply SameNvm.when)
    | extract_lets | dsimp only

theorem State.pllCalLocked_sameNvm {r : State} {s : State} {p band : Nat} (hk : SameNvm r s) :
    SameNvm r (State.pllCalLocked s p band) := by
  unfold State.pllCalLocked
  repeat' first
    | intro _
    | (with_reducible first | assumption | exact SameNvm.refl _ | apply State.puts_sameNvm | apply State.pllServed_sameNvm | apply State.pllLockedNow_sameNvm)
    | extract_lets

theorem execPllCalDone_sameNvm {r : State} {p : Fin 5} {band : BitVec 6} {s : State} (hk : SameNvm r s) :
    OutSameNvm r (execPllCalDone p band s) := by
  unfold execPllCalDone
  repeat' first
    | intro _
    | (with_reducible first | assumption | exact SameNvm.refl _ | apply OutSameNvm.next | apply State.puts_sameNvm | apply State.bump_sameNvm | apply State.raise_sameNvm | apply State.wr_sameNvm | apply State.pllSet_sameNvm | apply State.pllCalLocked_sameNvm | apply State.pllCalStart_sameNvm | apply SameNvm.each | apply SameNvm.when | apply OutSameNvm.cond | apply SameNvm.cond)
    | extract_lets | dsimp only | split

theorem State.refOutage_sameNvm {r : State} {s : State} (hk : SameNvm r s) :
    SameNvm r (State.refOutage s) := by
  unfold State.refOutage
  repeat' first
    | intro _
    | (with_reducible first | assumption | exact SameNvm.refl _ | apply State.puts_sameNvm | apply State.raise_sameNvm | apply State.wr_sameNvm | apply State.wrb_sameNvm | apply State.pllSet_sameNvm | apply SameNvm.each | apply SameNvm.when)
    | extract_lets | dsimp only

theorem execRefLost_sameNvm {r : State} {s : State} (hk : SameNvm r s) :
    OutSameNvm r (execRefLost s) := by
  unfold execRefLost
  repeat' first
    | intro _
    | (with_reducible first | assumption | exact SameNvm.refl _ | apply OutSameNvm.next | apply State.puts_sameNvm | apply State.raise_sameNvm | apply State.refOutage_sameNvm | apply State.wr_sameNvm | apply OutSameNvm.cond | apply SameNvm.cond)
    | extract_lets | split

theorem execRefCountDone_sameNvm {r : State} {count : BitVec 16} {s : State} (hk : SameNvm r s) :
    OutSameNvm r (execRefCountDone count s) := by
  unfold execRefCountDone
  repeat' first
    | intro _
    | (with_reducible first | assumption | exact SameNvm.refl _ | apply OutSameNvm.next | apply State.wr_sameNvm | apply State.puts_sameNvm | apply State.raise_sameNvm | apply State.refOutage_sameNvm | apply SameNvm.when | apply OutSameNvm.cond | apply SameNvm.cond)
    | extract_lets | dsimp only | split

theorem State.refLoss_sameNvm {r : State} {s : State} (hk : SameNvm r s) :
    SameNvm r (State.refLoss s) := by
  unfold State.refLoss
  repeat' first
    | intro _
    | (with_reducible first | assumption | exact SameNvm.refl _ | apply State.wr_sameNvm | apply State.bump_sameNvm | apply State.pllLol_sameNvm | apply SameNvm.each | apply SameNvm.cond)
    | extract_lets | dsimp only | split

theorem execRefBack_sameNvm {r : State} {s : State} (hk : SameNvm r s) :
    OutSameNvm r (execRefBack s) := by
  unfold execRefBack
  repeat' first
    | intro _
    | (with_reducible first | assumption | exact SameNvm.refl _ | apply OutSameNvm.next | apply State.refLoss_sameNvm | apply State.puts_sameNvm | apply State.wr_sameNvm | apply State.bump_sameNvm | apply State.raise_sameNvm | apply State.pllSet_sameNvm | apply State.pllServed_sameNvm | apply SameNvm.each | apply SameNvm.when | apply OutSameNvm.cond | apply SameNvm.cond)
    | extract_lets | dsimp only | split

theorem execRefOk_sameNvm {r : State} {s : State} (hk : SameNvm r s) :
    OutSameNvm r (execRefOk s) := by
  unfold execRefOk
  repeat' first
    | intro _
    | (with_reducible first | assumption | exact SameNvm.refl _ | apply OutSameNvm.next | apply State.wr_sameNvm | apply State.raise_sameNvm | apply State.pllSet_sameNvm | apply SameNvm.each | apply OutSameNvm.cond | apply SameNvm.cond)
    | extract_lets | dsimp only | split

theorem execRefHoldExpiry_sameNvm {r : State} {s : State} (hk : SameNvm r s) :
    OutSameNvm r (execRefHoldExpiry s) := by
  unfold execRefHoldExpiry
  repeat' first
    | intro _
    | (with_reducible first | assumption | exact SameNvm.refl _ | apply OutSameNvm.next | apply State.refLoss_sameNvm | apply OutSameNvm.cond | apply SameNvm.cond)
    | extract_lets | split

theorem execPllRelockTimeout_sameNvm {r : State} {p : Fin 5} {s : State} (hk : SameNvm r s) :
    OutSameNvm r (execPllRelockTimeout p s) := by
  unfold execPllRelockTimeout
  repeat' first
    | intro _
    | (with_reducible first | assumption | exact SameNvm.refl _ | apply OutSameNvm.next | apply State.pllCalStart_sameNvm | apply OutSameNvm.cond | apply SameNvm.cond)
    | extract_lets | split

theorem execClkCntClr_sameNvm {r : State} {s : State} (hk : SameNvm r s) :
    OutSameNvm r (execClkCntClr s) := by
  unfold execClkCntClr
  repeat' first
    | intro _
    | (with_reducible first | assumption | exact SameNvm.refl _ | apply OutSameNvm.next | apply State.access_sameNvm | apply State.clear_sameNvm | apply SameNvm.each)
    | extract_lets | dsimp only

end Sys2Proof.Machine
end

