-- ==== Sys2Proof/Laws/StoredOptics.lean ====
section
/-!
SUPPORT. The operations of Optics that leave the NVM.
-/
set_option Elab.async false
set_option linter.all false
namespace Sys2Proof.Machine

theorem State.monBanks_sameNvm {r : State} {s : State} {c : Nat} (hk : SameNvm r s) :
    SameNvm r (State.monBanks s c) := by
  unfold State.monBanks
  repeat' first
    | intro _
    | (with_reducible first | assumption | exact SameNvm.refl _ | apply State.wr_sameNvm | apply State.setUse_sameNvm | apply State.puts_sameNvm | apply SameNvm.each)
    | extract_lets | dsimp only

theorem State.monEvent_sameNvm {r : State} {s : State} {c : Nat} (hk : SameNvm r s) :
    SameNvm r (State.monEvent s c) := by
  unfold State.monEvent
  repeat' first
    | intro _
    | (with_reducible first | assumption | exact SameNvm.refl _ | apply State.wr_sameNvm)
    | extract_lets

theorem State.monSwitch_sameNvm {r : State} {s : State} {c : Nat} (hk : SameNvm r s) :
    SameNvm r (State.monSwitch s c) := by
  unfold State.monSwitch
  repeat' first
    | intro _
    | (with_reducible first | assumption | exact SameNvm.refl _ | apply State.monBanks_sameNvm | apply State.monEvent_sameNvm | apply SameNvm.when)
    | extract_lets | dsimp only

theorem State.monStep_sameNvm {r : State} {s : State} {out : Nat} {range : Bool} {change : Nat} (hk : SameNvm r s) :
    SameNvm r (State.monStep s out range change) := by
  unfold State.monStep
  repeat' first
    | intro _
    | (with_reducible first | assumption | exact SameNvm.refl _ | apply State.monEvent_sameNvm | apply SameNvm.each | apply SameNvm.when)
    | extract_lets | dsimp only

theorem execMonOutput_sameNvm {r : State} {c : Fin 24} {codes : List (BitVec 12)} {s : State} (hk : SameNvm r s) :
    OutSameNvm r (execMonOutput c codes s) := by
  unfold execMonOutput
  repeat' first
    | intro _
    | (with_reducible first | assumption | exact SameNvm.refl _ | apply OutSameNvm.next | apply State.puts_sameNvm | apply State.wr_sameNvm | apply State.monBanks_sameNvm | apply State.raise_sameNvm | apply State.wrb_sameNvm | apply SameNvm.when | apply OutSameNvm.cond | apply SameNvm.cond | apply SameNvm.cond_snd)
    | extract_lets | dsimp only | split

theorem execMonSwap_sameNvm {r : State} {c : Fin 24} {s : State} (hk : SameNvm r s) :
    OutSameNvm r (execMonSwap c s) := by
  unfold execMonSwap
  repeat' first
    | intro _
    | (with_reducible first | assumption | exact SameNvm.refl _ | apply OutSameNvm.next | apply State.access_sameNvm | apply State.wr_sameNvm)
    | extract_lets | dsimp only

theorem execMonCntClr_sameNvm {r : State} {s : State} (hk : SameNvm r s) :
    OutSameNvm r (execMonCntClr s) := by
  unfold execMonCntClr
  repeat' first
    | intro _
    | (with_reducible first | assumption | exact SameNvm.refl _ | apply OutSameNvm.next | apply State.access_sameNvm | apply State.wr_sameNvm | apply SameNvm.each)
    | extract_lets | dsimp only

theorem State.rangeApply_sameNvm {r : State} {s : State} {n k : Nat} (hk : SameNvm r s) :
    SameNvm r (State.rangeApply s n k) := by
  unfold State.rangeApply
  repeat' first
    | intro _
    | (with_reducible first | assumption | exact SameNvm.refl _ | apply State.wr_sameNvm | apply State.raise_sameNvm | apply State.monStep_sameNvm | apply SameNvm.when | apply SameNvm.cond)
    | extract_lets | dsimp only | split

theorem State.rampStep_sameNvm {r : State} {s : State} {n : Nat} (hk : SameNvm r s) :
    SameNvm r (State.rampStep s n) := by
  unfold State.rampStep
  repeat' first
    | intro _
    | (with_reducible first | assumption | exact SameNvm.refl _ | apply State.wr_sameNvm | apply State.puts_sameNvm | apply SameNvm.when | apply SameNvm.cond)
    | extract_lets | dsimp only | split

theorem State.biasReady_sameNvm {r : State} {s : State} {n : Nat} (hk : SameNvm r s) :
    SameNvm r (State.biasReady s n) := by
  unfold State.biasReady
  repeat' first
    | intro _
    | (with_reducible first | assumption | exact SameNvm.refl _ | apply State.wr_sameNvm | apply State.raise_sameNvm | apply SameNvm.when | apply SameNvm.cond)
    | extract_lets | dsimp only | split

theorem State.condTrack_sameNvm {r : State} {s : State} {n : Nat} {compliance openLoop : Bool} (hk : SameNvm r s) :
    SameNvm r (State.condTrack s n compliance openLoop) := by
  unfold State.condTrack
  repeat' first
    | intro _
    | (with_reducible first | assumption | exact SameNvm.refl _ | apply State.wr_sameNvm | apply SameNvm.when | apply SameNvm.cond)
    | extract_lets | dsimp only | split

theorem State.biasCode_sameNvm {r : State} {s : State} {n : Nat} {chip : Bool} (hk : SameNvm r s) :
    SameNvm r (State.biasCode s n chip).2 := by
  unfold State.biasCode
  repeat' first
    | intro _
    | (with_reducible first | assumption | exact SameNvm.refl _ | apply State.raise_sameNvm | apply State.wrb_sameNvm | apply SameNvm.when | apply SameNvm.cond_snd | apply SameNvm.cond)
    | extract_lets | dsimp only | split

theorem State.biasDrive_sameNvm {r : State} {s : State} {n : Nat} (hk : SameNvm r s) :
    SameNvm r (State.biasDrive s n) := by
  unfold State.biasDrive
  repeat' first
    | intro _
    | (with_reducible first | assumption | exact SameNvm.refl _ | apply State.wr_sameNvm | apply State.monStep_sameNvm | apply State.biasCode_sameNvm | apply State.bump_sameNvm | apply State.raise_sameNvm | apply SameNvm.when | apply SameNvm.cond | apply SameNvm.cond_snd)
    | extract_lets | dsimp only | split

theorem State.auxDrive_sameNvm {r : State} {s : State} {n k : Nat} (hk : SameNvm r s) :
    SameNvm r (State.auxDrive s n k) := by
  unfold State.auxDrive
  repeat' first
    | intro _
    | (with_reducible first | assumption | exact SameNvm.refl _ | apply State.wr_sameNvm | apply State.monStep_sameNvm | apply SameNvm.cond)
    | extract_lets | split

theorem execOptTrigger_sameNvm {r : State} {n : Lane} {compliance openLoop : Bool} {s : State} (hk : SameNvm r s) :
    OutSameNvm r (execOptTrigger n compliance openLoop s) := by
  unfold execOptTrigger
  repeat' first
    | intro _
    | (with_reducible first | assumption | exact SameNvm.refl _ | apply OutSameNvm.next | apply State.optClamp_sameNvm | apply State.wr_sameNvm | apply State.rangeApply_sameNvm | apply State.condTrack_sameNvm | apply State.rampStep_sameNvm | apply State.biasReady_sameNvm | apply State.sideRun_sameNvm | apply State.biasDrive_sameNvm | apply State.auxDrive_sameNvm | apply SameNvm.each | apply SameNvm.when | apply OutSameNvm.cond | apply SameNvm.cond)
    | extract_lets | dsimp only | split

theorem execObiasConditionEvent_sameNvm {r : State} {n : Lane} {openLoop : Bool} {s : State} (hk : SameNvm r s) :
    OutSameNvm r (execObiasConditionEvent n openLoop s) := by
  unfold execObiasConditionEvent
  repeat' first
    | intro _
    | (with_reducible first | assumption | exact SameNvm.refl _ | apply OutSameNvm.next | apply State.puts_sameNvm | apply State.bump_sameNvm | apply State.raise_sameNvm | apply State.faultEvent_sameNvm | apply OutSameNvm.cond | apply SameNvm.cond)
    | extract_lets | split

theorem execEnvelopeTrip_sameNvm {r : State} {n : Lane} {c : EnvCondition} {s : State} (hk : SameNvm r s) :
    OutSameNvm r (execEnvelopeTrip n c s) := by
  unfold execEnvelopeTrip
  repeat' first
    | intro _
    | (with_reducible first | assumption | exact SameNvm.refl _ | apply OutSameNvm.next | apply State.envTrip_sameNvm | apply OutSameNvm.cond | apply SameNvm.cond)
    | extract_lets | split

theorem execProbeTimeout_sameNvm {r : State} {n : Lane} {s : State} (hk : SameNvm r s) :
    OutSameNvm r (execProbeTimeout n s) := by
  unfold execProbeTimeout
  repeat' first
    | intro _
    | (with_reducible first | assumption | exact SameNvm.refl _ | apply OutSameNvm.next | apply State.envTrip_sameNvm | apply OutSameNvm.cond | apply SameNvm.cond)
    | extract_lets | split

theorem execOffTimeExpiry_sameNvm {r : State} {n : Lane} {s : State} (hk : SameNvm r s) :
    OutSameNvm r (execOffTimeExpiry n s) := by
  unfold execOffTimeExpiry
  repeat' first
    | intro _
    | (with_reducible first | assumption | exact SameNvm.refl _ | apply OutSameNvm.next | apply State.puts_sameNvm | apply State.ltxRecheck_sameNvm | apply OutSameNvm.cond | apply SameNvm.cond)
    | extract_lets | split

theorem execEnvSave_sameNvm {r : State} {s : State} (hk : SameNvm r s) :
    OutSameNvm r (execEnvSave s) := by
  unfold execEnvSave
  repeat' first
    | intro _
    | (with_reducible first | assumption | exact SameNvm.refl _ | apply OutSameNvm.next | apply State.access_sameNvm | apply State.puts_sameNvm | apply OutSameNvm.cond | apply SameNvm.cond)
    | extract_lets | dsimp only | split

theorem execOptCntClr_sameNvm {r : State} {n : Lane} {s : State} (hk : SameNvm r s) :
    OutSameNvm r (execOptCntClr n s) := by
  unfold execOptCntClr
  repeat' first
    | intro _
    | (with_reducible first | assumption | exact SameNvm.refl _ | apply OutSameNvm.next | apply State.access_sameNvm | apply State.clear_sameNvm)
    | extract_lets | dsimp only

theorem State.pbEnd_sameNvm {r : State} {s : State} {firmware : Bool} {result : Nat} (hk : SameNvm r s) :
    SameNvm r (State.pbEnd s firmware result) := by
  unfold State.pbEnd
  repeat' first
    | intro _
    | (with_reducible first | assumption | exact SameNvm.refl _ | apply State.wr_sameNvm | apply State.raise_sameNvm | apply SameNvm.when)
    | extract_lets | dsimp only

theorem State.pbStart_sameNvm {r s : State} {k : List (PbJob × Bool)} (hk : SameNvm r s) : SameNvm r (s.pbStart k) := by
  induction k generalizing s with
  | nil =>
    unfold State.pbStart
    with_reducible exact SameNvm.other hk
  | cons w k ih =>
    unfold State.pbStart
    split
    · exact ih (State.pbEnd_sameNvm hk)
    · with_reducible exact SameNvm.other hk

theorem State.pbRequest_sameNvm {r : State} {s : State} {w : PbJob × Bool} (hk : SameNvm r s) :
    SameNvm r (State.pbRequest s w) := by
  unfold State.pbRequest
  repeat' first
    | intro _
    | (with_reducible first | assumption | exact SameNvm.refl _ | apply State.pbStart_sameNvm | apply SameNvm.cond)
    | extract_lets | split
    | (with_reducible first | apply SameNvm.other)

theorem execPbTransaction_sameNvm {r : State} {firmware : Option PbJob} {s : State} (hk : SameNvm r s) :
    OutSameNvm r (execPbTransaction firmware s) := by
  unfold execPbTransaction
  repeat' first
    | intro _
    | (with_reducible first | assumption | exact SameNvm.refl _ | apply OutSameNvm.next | apply State.pbRequest_sameNvm | apply State.access_sameNvm | apply State.wr_sameNvm | apply OutSameNvm.cond | apply SameNvm.cond)
    | extract_lets | dsimp only | split

theorem State.pbFinish_sameNvm {r : State} {s : State} {result : Nat} (hk : SameNvm r s) :
    SameNvm r (State.pbFinish s result) := by
  unfold State.pbFinish
  repeat' first
    | intro _
    | (with_reducible first | assumption | exact SameNvm.refl _ | apply State.pbEnd_sameNvm | apply State.pbStart_sameNvm)
    | extract_lets | dsimp only | split

theorem execPbTransactionDone_sameNvm {r : State} {nack : Bool} {data : BitVec 32} {s : State} (hk : SameNvm r s) :
    OutSameNvm r (execPbTransactionDone nack data s) := by
  unfold execPbTransactionDone
  repeat' first
    | intro _
    | (with_reducible first | assumption | exact SameNvm.refl _ | apply OutSameNvm.next | apply State.pbFinish_sameNvm | apply State.wr_sameNvm | apply SameNvm.when | apply OutSameNvm.cond | apply SameNvm.cond)
    | extract_lets | dsimp only | split

theorem execPbTimeout_sameNvm {r : State} {s : State} (hk : SameNvm r s) :
    OutSameNvm r (execPbTimeout s) := by
  unfold execPbTimeout
  repeat' first
    | intro _
    | (with_reducible first | assumption | exact SameNvm.refl _ | apply OutSameNvm.next | apply State.pbFinish_sameNvm)
    | extract_lets

end Sys2Proof.Machine
end

