-- ==== Sys2Proof/Laws/StoredHost.lean ====
section
/-!
SUPPORT. The operations of Host that leave the NVM.
-/
set_option Elab.async false
set_option linter.all false
namespace Sys2Proof.Machine

theorem State.groupTrain_sameNvm {r : State} {s : State} {g : PortGroup} (hk : SameNvm r s) :
    SameNvm r (State.groupTrain s g) := by
  unfold State.groupTrain
  repeat' first
    | intro _
    | (with_reducible first | assumption | exact SameNvm.refl _ | apply State.wr_sameNvm | apply State.hifToTrain_sameNvm | apply SameNvm.each | apply SameNvm.cond)
    | extract_lets | dsimp only | split

theorem State.ehmFallback_sameNvm {r : State} {s : State} {g : PortGroup} (hk : SameNvm r s) :
    SameNvm r (State.ehmFallback s g) := by
  unfold State.ehmFallback
  repeat' first
    | intro _
    | (with_reducible first | assumption | exact SameNvm.refl _ | apply State.setEhm_sameNvm | apply State.bump_sameNvm | apply State.raise_sameNvm | apply State.wr_sameNvm | apply State.groupTrain_sameNvm)
    | extract_lets | split

theorem State.ehmSwitch_sameNvm {r : State} {s : State} {g : PortGroup} (hk : SameNvm r s) :
    SameNvm r (State.ehmSwitch s g) := by
  unfold State.ehmSwitch
  repeat' first
    | intro _
    | (with_reducible first | assumption | exact SameNvm.refl _ | apply State.setEhm_sameNvm | apply State.wr_sameNvm | apply State.hifSet_sameNvm | apply State.hifTrainStart_sameNvm | apply State.hifOff_sameNvm | apply SameNvm.each | apply SameNvm.cond)
    | extract_lets | dsimp only | split

theorem State.groupTrained_sameNvm {r : State} {s : State} {g : PortGroup} (hk : SameNvm r s) :
    SameNvm r (State.groupTrained s g) := by
  unfold State.groupTrained
  repeat' first
    | intro _
    | (with_reducible first | assumption | exact SameNvm.refl _ | apply State.setEhm_sameNvm | apply State.raise_sameNvm | apply State.wr_sameNvm | apply State.hifToAlign_sameNvm | apply State.ehmSwitch_sameNvm | apply SameNvm.each | apply SameNvm.cond)
    | extract_lets | dsimp only | split

theorem State.hifEnableOn_sameNvm {r : State} {s : State} {h : Nat} (hk : SameNvm r s) :
    SameNvm r (State.hifEnableOn s h) := by
  unfold State.hifEnableOn
  repeat' first
    | intro _
    | (with_reducible first | assumption | exact SameNvm.refl _ | apply State.wr_sameNvm | apply State.hifStart_sameNvm | apply SameNvm.cond)
    | extract_lets | split

theorem execHifEnable_sameNvm {r : State} {h : HostLane} {s : State} (hk : SameNvm r s) :
    OutSameNvm r (execHifEnable h s) := by
  unfold execHifEnable
  repeat' first
    | intro _
    | (with_reducible first | assumption | exact SameNvm.refl _ | apply OutSameNvm.next | apply State.access_sameNvm | apply State.wr_sameNvm | apply State.hostService_sameNvm | apply State.hifEnableOn_sameNvm | apply SameNvm.when)
    | extract_lets | dsimp only | split

theorem execHifDisable_sameNvm {r : State} {h : HostLane} {s : State} (hk : SameNvm r s) :
    OutSameNvm r (execHifDisable h s) := by
  unfold execHifDisable
  repeat' first
    | intro _
    | (with_reducible first | assumption | exact SameNvm.refl _ | apply OutSameNvm.next | apply State.access_sameNvm | apply State.wr_sameNvm | apply State.hifOff_sameNvm | apply State.clearLastings_sameNvm | apply State.ehmReset_sameNvm | apply SameNvm.when | apply OptSameNvm.getD)
    | extract_lets | dsimp only | split
    | (with_reducible first | apply SameNvm.other)

theorem State.hifRetrainNow_sameNvm {r : State} {s : State} {h : Nat} (hk : SameNvm r s) :
    SameNvm r (State.hifRetrainNow s h) := by
  unfold State.hifRetrainNow
  repeat' first
    | intro _
    | (with_reducible first | assumption | exact SameNvm.refl _ | apply State.wr_sameNvm | apply State.setEhm_sameNvm | apply State.groupTrain_sameNvm | apply State.hifToTrain_sameNvm | apply SameNvm.cond)
    | extract_lets | dsimp only | split

theorem execHifRetrain_sameNvm {r : State} {h : HostLane} {s : State} (hk : SameNvm r s) :
    OutSameNvm r (execHifRetrain h s) := by
  unfold execHifRetrain
  repeat' first
    | intro _
    | (with_reducible first | assumption | exact SameNvm.refl _ | apply OutSameNvm.next | apply State.access_sameNvm | apply State.hostService_sameNvm | apply State.hifRetrainNow_sameNvm)
    | extract_lets | dsimp only | split

theorem State.hifCommitNow_sameNvm {r : State} {s : State} {h : Nat} (hk : SameNvm r s) :
    SameNvm r (State.hifCommitNow s h) := by
  unfold State.hifCommitNow
  repeat' first
    | intro _
    | (with_reducible first | assumption | exact SameNvm.refl _ | apply State.wr_sameNvm | apply State.raise_sameNvm | apply State.hifApply_sameNvm | apply SameNvm.cond)
    | extract_lets | split

theorem execHifCommit_sameNvm {r : State} {h : HostLane} {s : State} (hk : SameNvm r s) :
    OutSameNvm r (execHifCommit h s) := by
  unfold execHifCommit
  repeat' first
    | intro _
    | (with_reducible first | assumption | exact SameNvm.refl _ | apply OutSameNvm.next | apply State.access_sameNvm | apply State.hostService_sameNvm | apply State.hifCommitNow_sameNvm)
    | extract_lets | dsimp only | split

theorem State.slipSkew_sameNvm {r : State} {s : State} {n : Nat} (hk : SameNvm r s) :
    SameNvm r (State.slipSkew s n) := by
  unfold State.slipSkew
  repeat' first
    | intro _
    | (with_reducible first | assumption | exact SameNvm.refl _ | apply State.wrInt_sameNvm | apply SameNvm.when)
    | extract_lets | dsimp only | split

theorem execHifSlip_sameNvm {r : State} {h : HostLane} {s : State} (hk : SameNvm r s) :
    OutSameNvm r (execHifSlip h s) := by
  unfold execHifSlip
  repeat' first
    | intro _
    | (with_reducible first | assumption | exact SameNvm.refl _ | apply OutSameNvm.next | apply State.access_sameNvm | apply State.raise_sameNvm | apply State.wr_sameNvm | apply State.slipSkew_sameNvm | apply OutSameNvm.cond | apply SameNvm.cond)
    | extract_lets | dsimp only | split

theorem execAlignDoneWrite_sameNvm {r : State} {h : HostLane} {s : State} (hk : SameNvm r s) :
    OutSameNvm r (execAlignDoneWrite h s) := by
  unfold execAlignDoneWrite
  repeat' first
    | intro _
    | (with_reducible first | assumption | exact SameNvm.refl _ | apply OutSameNvm.next | apply State.access_sameNvm | apply State.wr_sameNvm | apply State.hifSet_sameNvm | apply SameNvm.each | apply OutSameNvm.cond | apply SameNvm.cond)
    | extract_lets | dsimp only | split

theorem execHifCntClr_sameNvm {r : State} {h : HostLane} {s : State} (hk : SameNvm r s) :
    OutSameNvm r (execHifCntClr h s) := by
  unfold execHifCntClr
  repeat' first
    | intro _
    | (with_reducible first | assumption | exact SameNvm.refl _ | apply OutSameNvm.next | apply State.access_sameNvm | apply State.clear_sameNvm)
    | extract_lets | dsimp only | split

theorem execHifGlbCntClr_sameNvm {r : State} {s : State} (hk : SameNvm r s) :
    OutSameNvm r (execHifGlbCntClr s) := by
  unfold execHifGlbCntClr
  repeat' first
    | intro _
    | (with_reducible first | assumption | exact SameNvm.refl _ | apply OutSameNvm.next | apply State.access_sameNvm | apply State.wr_sameNvm | apply SameNvm.each)
    | extract_lets | dsimp only | split

theorem execHostCalDone_sameNvm {r : State} {h : HostLane} {linRx linTx : BitVec 1024} {s : State} (hk : SameNvm r s) :
    OutSameNvm r (execHostCalDone h linRx linTx s) := by
  unfold execHostCalDone
  repeat' first
    | intro _
    | (with_reducible first | assumption | exact SameNvm.refl _ | apply OutSameNvm.next | apply State.linMeasured_sameNvm | apply State.wr_sameNvm | apply State.hifToTrain_sameNvm | apply OutSameNvm.cond | apply SameNvm.cond)
    | extract_lets | split

theorem execHostCalTimeout_sameNvm {r : State} {h : HostLane} {s : State} (hk : SameNvm r s) :
    OutSameNvm r (execHostCalTimeout h s) := by
  unfold execHostCalTimeout
  repeat' first
    | intro _
    | (with_reducible first | assumption | exact SameNvm.refl _ | apply OutSameNvm.next | apply State.hifFault_sameNvm | apply OutSameNvm.cond | apply SameNvm.cond)
    | extract_lets | split

theorem execTrainingFrameRx_sameNvm {r : State} {h : HostLane} {req : TrainReq} {advertises : Bool} {s : State} (hk : SameNvm r s) :
    OutSameNvm r (execTrainingFrameRx h req advertises s) := by
  unfold execTrainingFrameRx
  repeat' first
    | intro _
    | (with_reducible first | assumption | exact SameNvm.refl _ | apply OutSameNvm.next | apply State.wr_sameNvm | apply State.hifSetTap_sameNvm | apply SameNvm.each | apply SameNvm.when | apply OutSameNvm.cond | apply SameNvm.cond | apply SameNvm.cond_snd | apply OptSameNvm.getD)
    | extract_lets | dsimp only | split

theorem State.hifTuneEnd_sameNvm {r : State} {s : State} {h : Nat} (hk : SameNvm r s) :
    SameNvm r (State.hifTuneEnd s h) := by
  unfold State.hifTuneEnd
  repeat' first
    | intro _
    | (with_reducible first | assumption | exact SameNvm.refl _ | apply State.puts_sameNvm | apply State.wrb_sameNvm)
    | extract_lets | split

theorem State.hifTuneAsk_sameNvm {r : State} {s : State} {h kind : Nat} {next : State → State} (hk : SameNvm r s) (hgnext : ∀ u, SameNvm r u → SameNvm r (next u)) :
    SameNvm r (State.hifTuneAsk s h kind next) := by
  unfold State.hifTuneAsk
  repeat' first
    | intro _
    | (with_reducible first | apply hgnext | assumption | exact SameNvm.refl _ | apply State.hifTuneEnd_sameNvm | apply State.bump_sameNvm | apply State.puts_sameNvm | apply SameNvm.cond | apply OptSameNvm.getD)
    | extract_lets | split

theorem State.hifTuneTry_sameNvm {r : State} {s : State} {h : Nat} (hk : SameNvm r s) :
    SameNvm r (State.hifTuneTry s h) := by
  unfold State.hifTuneTry
  repeat' first
    | intro _
    | (with_reducible first | assumption | exact SameNvm.refl _ | apply State.hifTuneAsk_sameNvm | apply State.wr_sameNvm)
    | extract_lets | dsimp only | split

theorem State.hifTuneNext_sameNvm {r : State} {s : State} {h : Nat} (hk : SameNvm r s) :
    SameNvm r (State.hifTuneNext s h) := by
  unfold State.hifTuneNext
  repeat' first
    | intro _
    | (with_reducible first | assumption | exact SameNvm.refl _ | apply State.hifTuneEnd_sameNvm | apply State.wr_sameNvm | apply State.hifTuneTry_sameNvm | apply SameNvm.when | apply SameNvm.cond)
    | extract_lets | dsimp only | split

theorem State.hifTuneStep_sameNvm {r : State} {s : State} {h : Nat} (hk : SameNvm r s) :
    SameNvm r (State.hifTuneStep s h) := by
  unfold State.hifTuneStep
  repeat' first
    | intro _
    | (with_reducible first | assumption | exact SameNvm.refl _ | apply State.puts_sameNvm | apply State.hifTuneNext_sameNvm | apply State.hifTuneAsk_sameNvm | apply State.wr_sameNvm | apply SameNvm.cond)
    | extract_lets | dsimp only | split

theorem State.hifTuneFirst_sameNvm {r : State} {s : State} {h : Nat} (hk : SameNvm r s) :
    SameNvm r (State.hifTuneFirst s h) := by
  unfold State.hifTuneFirst
  repeat' first
    | intro _
    | (with_reducible first | assumption | exact SameNvm.refl _ | apply State.wr_sameNvm | apply State.hifTuneTry_sameNvm)
    | extract_lets | split

theorem State.hifSweepStep_sameNvm {r : State} {s : State} {h : Nat} (hk : SameNvm r s) :
    SameNvm r (State.hifSweepStep s h) := by
  unfold State.hifSweepStep
  repeat' first
    | intro _
    | (with_reducible first | assumption | exact SameNvm.refl _ | apply State.puts_sameNvm | apply State.wr_sameNvm | apply State.hifTuneEnd_sameNvm | apply SameNvm.when | apply SameNvm.cond)
    | extract_lets | dsimp only | split

theorem State.hifDfe_sameNvm {r : State} {s : State} {h : Nat} {accD1 accD2 : Int} (hk : SameNvm r s) :
    SameNvm r (State.hifDfe s h accD1 accD2) := by
  unfold State.hifDfe
  repeat' first
    | intro _
    | (with_reducible first | assumption | exact SameNvm.refl _ | apply State.puts_sameNvm | apply State.wrInt_sameNvm | apply SameNvm.cond)
    | extract_lets | split

theorem State.hifVgaStep_sameNvm {r : State} {s : State} {h : Nat} {err : Int} (hk : SameNvm r s) :
    SameNvm r (State.hifVgaStep s h err) := by
  unfold State.hifVgaStep
  repeat' first
    | intro _
    | (with_reducible first | assumption | exact SameNvm.refl _ | apply State.wr_sameNvm | apply SameNvm.cond)
    | extract_lets | split

theorem State.hifTrainWindow_sameNvm {r : State} {s : State} {h : Nat} {acked : Bool} (hk : SameNvm r s) :
    SameNvm r (State.hifTrainWindow s h acked) := by
  unfold State.hifTrainWindow
  repeat' first
    | intro _
    | (with_reducible first | assumption | exact SameNvm.refl _ | apply State.hifAskPreset_sameNvm | apply State.hifSweepStep_sameNvm | apply State.hifTuneFirst_sameNvm | apply State.hifTuneStep_sameNvm | apply State.wrb_sameNvm | apply SameNvm.when | apply SameNvm.cond)
    | extract_lets | dsimp only | split

theorem execHostFomWindowEnd_sameNvm {r : State} {h : HostLane} {errSq : Nat} {acked : Bool} {lvl accD1 accD2 : Int} {s : State} (hk : SameNvm r s) :
    OutSameNvm r (execHostFomWindowEnd h errSq acked lvl accD1 accD2 s) := by
  unfold execHostFomWindowEnd
  repeat' first
    | intro _
    | (with_reducible first | assumption | exact SameNvm.refl _ | apply OutSameNvm.next | apply State.fomOf_sameNvm | apply State.puts_sameNvm | apply State.hifDfe_sameNvm | apply State.hifVgaStep_sameNvm | apply State.hifTrainWindow_sameNvm | apply OutSameNvm.cond | apply SameNvm.cond | apply SameNvm.cond_snd)
    | extract_lets | dsimp only | split

theorem execTrainingComplete_sameNvm {r : State} {h : HostLane} {s : State} (hk : SameNvm r s) :
    OutSameNvm r (execTrainingComplete h s) := by
  unfold execTrainingComplete
  repeat' first
    | intro _
    | (with_reducible first | assumption | exact SameNvm.refl _ | apply OutSameNvm.next | apply State.wr_sameNvm | apply State.raise_sameNvm | apply State.hifToAlign_sameNvm | apply State.groupTrained_sameNvm | apply State.setEhm_sameNvm | apply SameNvm.when | apply OutSameNvm.cond | apply SameNvm.cond)
    | extract_lets | dsimp only | split

theorem execTrainingAttemptFail_sameNvm {r : State} {h : HostLane} {s : State} (hk : SameNvm r s) :
    OutSameNvm r (execTrainingAttemptFail h s) := by
  unfold execTrainingAttemptFail
  repeat' first
    | intro _
    | (with_reducible first | assumption | exact SameNvm.refl _ | apply OutSameNvm.next | apply State.ehmFallback_sameNvm | apply State.bump_sameNvm | apply State.raise_sameNvm | apply State.hifFault_sameNvm | apply State.wr_sameNvm | apply State.hifTrainStart_sameNvm | apply OutSameNvm.cond | apply SameNvm.cond | apply OptSameNvm.getD)
    | extract_lets | split

theorem execEhmTrainTimeout_sameNvm {r : State} {n : Lane} {s : State} (hk : SameNvm r s) :
    OutSameNvm r (execEhmTrainTimeout n s) := by
  unfold execEhmTrainTimeout
  repeat' first
    | intro _
    | (with_reducible first | assumption | exact SameNvm.refl _ | apply OutSameNvm.next | apply State.ehmFallback_sameNvm | apply OutSameNvm.cond | apply SameNvm.cond)
    | extract_lets | split

theorem State.deskewPut_sameNvm {r : State} {s : State} {a b : Nat} {k : Int} (hk : SameNvm r s) :
    SameNvm r (State.deskewPut s a b k) := by
  unfold State.deskewPut
  repeat' first
    | intro _
    | (with_reducible first | assumption | exact SameNvm.refl _ | apply State.wr_sameNvm)
    | extract_lets | split

theorem State.pairSkew_sameNvm {r : State} {s : State} {n : Nat} (hk : SameNvm r s) :
    SameNvm r (State.pairSkew s n) := by
  unfold State.pairSkew
  repeat' first
    | intro _
    | (with_reducible first | assumption | exact SameNvm.refl _ | apply State.wrInt_sameNvm | apply State.wr_sameNvm | apply State.raise_sameNvm | apply State.hifFault_sameNvm | apply State.pairFollow_sameNvm | apply State.wrb_sameNvm | apply State.deskewPut_sameNvm | apply SameNvm.when | apply SameNvm.cond)
    | extract_lets | dsimp only | split

theorem State.pairGearbox_sameNvm {r : State} {s : State} {n : Nat} {wasReady : Bool} (hk : SameNvm r s) :
    SameNvm r (State.pairGearbox s n wasReady) := by
  unfold State.pairGearbox
  repeat' first
    | intro _
    | (with_reducible first | assumption | exact SameNvm.refl _ | apply State.wr_sameNvm | apply SameNvm.when)
    | extract_lets | dsimp only | split

theorem execAmPeriod_sameNvm {r : State} {h : HostLane} {errBits : Nat} {samePos : Bool} {arrival : Nat} {s : State} (hk : SameNvm r s) :
    OutSameNvm r (execAmPeriod h errBits samePos arrival s) := by
  unfold execAmPeriod
  repeat' first
    | intro _
    | (with_reducible first | assumption | exact SameNvm.refl _ | apply OutSameNvm.next | apply State.driftApply_sameNvm | apply State.puts_sameNvm | apply State.hifSet_sameNvm | apply State.wr_sameNvm | apply State.bump_sameNvm | apply State.raise_sameNvm | apply State.hifToAlign_sameNvm | apply State.pairSkew_sameNvm | apply State.pairGearbox_sameNvm | apply OutSameNvm.cond | apply SameNvm.cond)
    | extract_lets | dsimp only | split

theorem execAlignTimeout_sameNvm {r : State} {h : HostLane} {s : State} (hk : SameNvm r s) :
    OutSameNvm r (execAlignTimeout h s) := by
  unfold execAlignTimeout
  repeat' first
    | intro _
    | (with_reducible first | assumption | exact SameNvm.refl _ | apply OutSameNvm.next | apply State.hifFault_sameNvm | apply OutSameNvm.cond | apply SameNvm.cond | apply OptSameNvm.getD)
    | extract_lets | split

theorem State.hifCdrLoss_sameNvm {r : State} {s : State} {h : Nat} (hk : SameNvm r s) :
    SameNvm r (State.hifCdrLoss s h) := by
  unfold State.hifCdrLoss
  repeat' first
    | intro _
    | (with_reducible first | assumption | exact SameNvm.refl _ | apply State.wr_sameNvm | apply State.bump_sameNvm | apply State.raise_sameNvm | apply State.hifRelock_sameNvm | apply State.faultEvent_sameNvm | apply SameNvm.cond)
    | extract_lets | split

theorem State.hifCdrRun_sameNvm {r : State} {s : State} {h : Nat} {errs : List Int} (hk : SameNvm r s) :
    SameNvm r (State.hifCdrRun s h errs).1 := by
  unfold State.hifCdrRun
  repeat' first
    | intro _
    | (with_reducible first | assumption | exact SameNvm.refl _ | apply State.wrInt_sameNvm)
    | extract_lets | split

theorem State.hifCdrLocked_sameNvm {r : State} {s : State} {h : Nat} (hk : SameNvm r s) :
    SameNvm r (State.hifCdrLocked s h) := by
  unfold State.hifCdrLocked
  repeat' first
    | intro _
    | (with_reducible first | assumption | exact SameNvm.refl _ | apply State.puts_sameNvm | apply State.hifAmDone_sameNvm | apply SameNvm.cond)
    | extract_lets | split

theorem execHostCdrLockInterval_sameNvm {r : State} {h : HostLane} {errs : List Int} {s : State} (hk : SameNvm r s) :
    OutSameNvm r (execHostCdrLockInterval h errs s) := by
  unfold execHostCdrLockInterval
  repeat' first
    | intro _
    | (with_reducible first | assumption | exact SameNvm.refl _ | apply OutSameNvm.next | apply State.hifCdrRun_sameNvm | apply State.puts_sameNvm | apply State.hifCdrLoss_sameNvm | apply State.hifCdrLocked_sameNvm | apply State.wr_sameNvm | apply OutSameNvm.cond | apply SameNvm.cond | apply SameNvm.cond_snd)
    | extract_lets | dsimp only | split

theorem execRelockTimeout_sameNvm {r : State} {h : HostLane} {s : State} (hk : SameNvm r s) :
    OutSameNvm r (execRelockTimeout h s) := by
  unfold execRelockTimeout
  repeat' first
    | intro _
    | (with_reducible first | assumption | exact SameNvm.refl _ | apply OutSameNvm.next | apply State.hifFault_sameNvm | apply OutSameNvm.cond | apply SameNvm.cond)
    | extract_lets | split

theorem execHostFaultAutoRestart_sameNvm {r : State} {h : HostLane} {s : State} (hk : SameNvm r s) :
    OutSameNvm r (execHostFaultAutoRestart h s) := by
  unfold execHostFaultAutoRestart
  repeat' first
    | intro _
    | (with_reducible first | assumption | exact SameNvm.refl _ | apply OutSameNvm.next | apply State.hifToCal_sameNvm | apply State.hifRelock_sameNvm | apply State.hifToTrain_sameNvm | apply OutSameNvm.cond | apply SameNvm.cond)
    | extract_lets | dsimp only | split

theorem execHostSleepWake_sameNvm {r : State} {h : HostLane} {tx ok relocked recOk : Bool} {s : State} (hk : SameNvm r s) :
    OutSameNvm r (execHostSleepWake h tx ok relocked recOk s) := by
  unfold execHostSleepWake
  repeat' first
    | intro _
    | (with_reducible first | assumption | exact SameNvm.refl _ | apply OutSameNvm.next | apply State.recordBad_sameNvm | apply State.hifToCal_sameNvm | apply State.puts_sameNvm | apply State.raise_sameNvm | apply State.bump_sameNvm | apply State.hifToAlign_sameNvm | apply State.wr_sameNvm | apply State.hifToTrain_sameNvm | apply OutSameNvm.cond | apply SameNvm.cond)
    | extract_lets | split

theorem execRsCodewordMonitor_sameNvm {r : State} {n : Lane} {egress inRange : Bool} {symErr : Option (Fin 16)} {s : State} (hk : SameNvm r s) :
    OutSameNvm r (execRsCodewordMonitor n egress inRange symErr s) := by
  unfold execRsCodewordMonitor
  repeat' first
    | intro _
    | (with_reducible first | assumption | exact SameNvm.refl _ | apply OutSameNvm.next | apply State.wr_sameNvm | apply State.raise_sameNvm | apply State.bump_sameNvm | apply SameNvm.when | apply OutSameNvm.cond | apply SameNvm.cond)
    | extract_lets | dsimp only | split

end Sys2Proof.Machine
end

