-- ==== Sys2Proof/Laws/StoredCommitOps.lean ====
section
/-!
SUPPORT. The operations of CommitOps that leave the NVM.
-/
set_option Elab.async false
set_option linter.all false
namespace Sys2Proof.Machine

theorem State.loadSteal_sameNvm {r : State} {s : State} {i : Image} {n : Nat} (hk : SameNvm r s) :
    SameNvm r (State.loadSteal s i n) := by
  unfold State.loadSteal
  repeat' first
    | intro _
    | (with_reducible first | assumption | exact SameNvm.refl _ | apply State.puts_sameNvm | apply SameNvm.each)
    | extract_lets | dsimp only

theorem State.loadLane_sameNvm {r : State} {s : State} {i : Image} {n : Nat} (hk : SameNvm r s) :
    SameNvm r (State.loadLane s i n) := by
  unfold State.loadLane
  repeat' first
    | intro _
    | (with_reducible first | assumption | exact SameNvm.refl _ | apply State.puts_sameNvm | apply State.wr_sameNvm | apply State.wrb_sameNvm | apply SameNvm.cond | apply SameNvm.cond_snd | apply OptSameNvm.getD)
    | extract_lets | dsimp only | split

theorem State.loadSkipped_sameNvm {r : State} {s : State} {i : Image} (hk : SameNvm r s) :
    SameNvm r (State.loadSkipped s i) := by
  unfold State.loadSkipped
  repeat' first
    | intro _
    | (with_reducible first | assumption | exact SameNvm.refl _ | apply State.wr_sameNvm | apply State.raise_sameNvm | apply SameNvm.when)
    | extract_lets | dsimp only

theorem State.remapHosts_sameNvm {r : State} {s : State} {old : State} {g : PortGroup} (hk : SameNvm r s) :
    SameNvm r (State.remapHosts s old g) := by
  unfold State.remapHosts
  repeat' first
    | intro _
    | (with_reducible first | assumption | exact SameNvm.refl _ | apply State.setEhm_sameNvm | apply State.wr_sameNvm | apply State.groupTrain_sameNvm | apply State.hifOff_sameNvm | apply State.hifReturn_sameNvm | apply State.hifToAlign_sameNvm | apply State.hifTrainStart_sameNvm | apply SameNvm.each | apply SameNvm.when | apply SameNvm.cond)
    | extract_lets | dsimp only | split

theorem State.pcTables_sameNvm {r : State} {s : State} {i : Image} (hk : SameNvm r s) :
    SameNvm r (State.pcTables s i) := by
  unfold State.pcTables
  repeat' first
    | intro _
    | (with_reducible first | assumption | exact SameNvm.refl _ | apply State.loadLane_sameNvm | apply State.remapHosts_sameNvm | apply State.pairFollow_sameNvm | apply SameNvm.each)
    | extract_lets | dsimp only

theorem State.pcFinish_sameNvm {r : State} {s : State} (hk : SameNvm r s) :
    SameNvm r (State.pcFinish s) := by
  unfold State.pcFinish
  repeat' first
    | intro _
    | (with_reducible first | assumption | exact SameNvm.refl _ | apply State.loadSteal_sameNvm | apply State.wr_sameNvm | apply State.homeLow_sameNvm | apply State.bump_sameNvm | apply State.puts_sameNvm | apply State.loadSkipped_sameNvm | apply State.imgEnd_sameNvm | apply SameNvm.each)
    | extract_lets | dsimp only | split

end Sys2Proof.Machine
end

