-- ==== Sys2Proof/Laws/StoredThermal.lean ====
section
/-!
SUPPORT. The operations of Thermal that leave the NVM.
-/
set_option Elab.async false
set_option linter.all false
namespace Sys2Proof.Machine

theorem State.rcStep_sameNvm {r : State} {s : State} {power : Nat → Int} (hk : SameNvm r s) :
    SameNvm r (State.rcStep s power) := by
  unfold State.rcStep
  repeat' first
    | intro _
    | (with_reducible first | assumption | exact SameNvm.refl _ | apply State.wrInt_sameNvm | apply SameNvm.each)
    | extract_lets | dsimp only

theorem State.thmSet_sameNvm {r : State} {s : State} {st : Nat} (hk : SameNvm r s) :
    SameNvm r (State.thmSet s st) := by
  unfold State.thmSet
  repeat' first
    | intro _
    | (with_reducible first | assumption | exact SameNvm.refl _ | apply State.wr_sameNvm | apply State.emit_sameNvm | apply SameNvm.cond)
    | extract_lets | split

theorem State.sensorBroken_sameNvm {r : State} {s : State} {islands : List Nat} (hk : SameNvm r s) :
    SameNvm r (State.sensorBroken s islands) := by
  unfold State.sensorBroken
  repeat' first
    | intro _
    | (with_reducible first | assumption | exact SameNvm.refl _ | apply State.wr_sameNvm | apply State.bump_sameNvm | apply State.raise_sameNvm | apply SameNvm.each)
    | extract_lets | dsimp only

theorem State.critStandby_sameNvm {r : State} {s : State} (hk : SameNvm r s) :
    SameNvm r (State.critStandby s) := by
  unfold State.critStandby
  repeat' first
    | intro _
    | (with_reducible first | assumption | exact SameNvm.refl _ | apply State.wr_sameNvm | apply State.pcFinish_sameNvm | apply State.pcAbort_sameNvm | apply State.standbyEnter_sameNvm | apply State.puts_sameNvm | apply State.abortTests_sameNvm | apply SameNvm.cond)
    | extract_lets | split

theorem State.critical_sameNvm {r : State} {s : State} (hk : SameNvm r s) :
    SameNvm r (State.critical s) := by
  unfold State.critical
  repeat' first
    | intro _
    | (with_reducible first | assumption | exact SameNvm.refl _ | apply State.ltxFault_sameNvm | apply State.puts_sameNvm | apply State.bump_sameNvm | apply State.raise_sameNvm | apply State.thmSet_sameNvm | apply State.wr_sameNvm | apply State.critStandby_sameNvm | apply SameNvm.each | apply SameNvm.cond)
    | extract_lets | dsimp only | split

theorem State.critClear_sameNvm {r : State} {s : State} (hk : SameNvm r s) :
    SameNvm r (State.critClear s) := by
  unfold State.critClear
  repeat' first
    | intro _
    | (with_reducible first | assumption | exact SameNvm.refl _ | apply State.puts_sameNvm | apply State.raise_sameNvm | apply State.wr_sameNvm | apply State.thmSet_sameNvm | apply State.dvfsKick_sameNvm | apply State.standbyRelease_sameNvm | apply SameNvm.each | apply SameNvm.cond)
    | extract_lets | dsimp only | split
    | (with_reducible first | apply SameNvm.other)

theorem execCritClr_sameNvm {r : State} {s : State} (hk : SameNvm r s) :
    OutSameNvm r (execCritClr s) := by
  unfold execCritClr
  repeat' first
    | intro _
    | (with_reducible first | assumption | exact SameNvm.refl _ | apply OutSameNvm.next | apply State.access_sameNvm | apply State.critClear_sameNvm | apply OutSameNvm.cond | apply SameNvm.cond)
    | extract_lets | dsimp only | split

theorem execCritAutoClear_sameNvm {r : State} {s : State} (hk : SameNvm r s) :
    OutSameNvm r (execCritAutoClear s) := by
  unfold execCritAutoClear
  repeat' first
    | intro _
    | (with_reducible first | assumption | exact SameNvm.refl _ | apply OutSameNvm.next | apply State.critClear_sameNvm | apply OutSameNvm.cond | apply SameNvm.cond)
    | extract_lets | split

theorem State.stepTaken_sameNvm {r : State} {s : State} {k : StepKind} {n old : Nat} (hk : SameNvm r s) :
    SameNvm r (State.stepTaken s k n old) := by
  unfold State.stepTaken
  repeat' first
    | intro _
    | (with_reducible first | assumption | exact SameNvm.refl _ | apply State.bump_sameNvm | apply State.raise_sameNvm)
    | extract_lets
    | (with_reducible first | apply SameNvm.other)

theorem State.stepOn_sameNvm {r s : State} {n : Nat} (hk : SameNvm r s) : OptSameNvm r (s.stepOn n) := by
  unfold State.stepOn
  split
  · exact OptSameNvm.none
  · extract_lets prof forced
    have hf : OptSameNvm r forced := by
      dsimp only [forced]
      split
      · exact State.profForce_sameNvm hk
      · exact OptSameNvm.none
    clear_value forced
    split
    · have ht := OptSameNvm.elim hf rfl
      apply OptSameNvm.some
      refine State.stepTaken_sameNvm (State.wr_sameNvm (SameNvm.when ht (fun u hu => State.wr_sameNvm hu)))
    · refine OptSameNvm.cond ?_ ?_
      · exact OptSameNvm.some (State.stepTaken_sameNvm (State.dvfsKick_sameNvm (State.wr_sameNvm hk)))
      · exact OptSameNvm.some (State.stepTaken_sameNvm (SameNvm.each (State.lrxOff_sameNvm (State.wr_sameNvm hk))
          (fun h u hu => State.hifOff_sameNvm hu)))

theorem State.enforce_sameNvm {r s : State} (hk : SameNvm r s) : SameNvm r s.enforce := by
  unfold State.enforce
  split
  · exact State.wr_sameNvm hk
  · with_reducible refine OptSameNvm.getD ?_ hk
    with_reducible apply OptSameNvm.findSome
    intro n
    exact State.stepOn_sameNvm hk

theorem execGraceExpiry_sameNvm {r : State} {s : State} (hk : SameNvm r s) :
    OutSameNvm r (execGraceExpiry s) := by
  unfold execGraceExpiry
  repeat' first
    | intro _
    | (with_reducible first | assumption | exact SameNvm.refl _ | apply OutSameNvm.next | apply State.thmSet_sameNvm | apply State.enforce_sameNvm | apply OutSameNvm.cond | apply SameNvm.cond)
    | extract_lets | split

theorem execThrottleStep_sameNvm {r : State} {s : State} (hk : SameNvm r s) :
    OutSameNvm r (execThrottleStep s) := by
  unfold execThrottleStep
  repeat' first
    | intro _
    | (with_reducible first | assumption | exact SameNvm.refl _ | apply OutSameNvm.next | apply State.enforce_sameNvm | apply OutSameNvm.cond | apply SameNvm.cond)
    | extract_lets | split

theorem State.undo_sameNvm {r s : State} (hk : SameNvm r s) : OptSameNvm r s.undo := by
  unfold State.undo
  split
  · exact OptSameNvm.none
  · rename_i n old l h
    have hf : OptSameNvm r (s.profForce n old) := State.profForce_sameNvm hk
    cases hq : s.profForce n old with
    | none => exact OptSameNvm.none
    | some t => exact OptSameNvm.some (State.raise_sameNvm (SameNvm.other (State.wr_sameNvm (OptSameNvm.elim hf hq))))
  · exact OptSameNvm.some (State.raise_sameNvm (State.dvfsKick_sameNvm (State.wr_sameNvm (SameNvm.other hk))))
  · extract_lets s1 s2 s3 s4
    refine OptSameNvm.some (State.raise_sameNvm (SameNvm.each (SameNvm.when (SameNvm.each (State.setDomain_sameNvm (State.wr_sameNvm
      (SameNvm.other hk))) ?_) ?_) ?_))
    · intro h u hu
      exact SameNvm.when hu (fun v hv => State.setDomain_sameNvm hv)
    · exact fun u hu => State.lrxEnableOn_sameNvm hu
    · intro h u hu
      exact SameNvm.when hu (fun v hv => State.hifEnableOn_sameNvm hv)

theorem State.thmSettle_sameNvm {r : State} {s : State} (hk : SameNvm r s) :
    SameNvm r (State.thmSettle s) := by
  unfold State.thmSettle
  repeat' first
    | intro _
    | (with_reducible first | assumption | exact SameNvm.refl _ | apply State.thmSet_sameNvm | apply SameNvm.cond)
    | extract_lets | split

theorem execRecoverExpiry_sameNvm {r : State} {s : State} (hk : SameNvm r s) :
    OutSameNvm r (execRecoverExpiry s) := by
  unfold execRecoverExpiry
  repeat' first
    | intro _
    | (with_reducible first | assumption | exact SameNvm.refl _ | apply OutSameNvm.next | apply State.undo_sameNvm | apply State.thmSettle_sameNvm | apply OutSameNvm.cond | apply SameNvm.cond | apply OptSameNvm.getD)
    | extract_lets | split | (with_reducible refine OptSameNvm.elim (State.undo_sameNvm ?_) (by assumption))

theorem State.undoAll_sameNvm {r s : State} {k : Nat} (hk : SameNvm r s) : SameNvm r (s.undoAll k) := by
  induction k generalizing s with
  | zero => exact hk
  | succ k ih =>
    unfold State.undoAll
    split
    · exact ih (OptSameNvm.elim (State.undo_sameNvm hk) (by assumption))
    · exact hk

theorem execRestore_sameNvm {r : State} {s : State} (hk : SameNvm r s) :
    OutSameNvm r (execRestore s) := by
  unfold execRestore
  repeat' first
    | intro _
    | (with_reducible first | assumption | exact SameNvm.refl _ | apply OutSameNvm.next | apply State.access_sameNvm | apply State.undoAll_sameNvm | apply State.thmSettle_sameNvm | apply OutSameNvm.cond | apply SameNvm.cond)
    | extract_lets | dsimp only | split

theorem State.levelChange_sameNvm {r : State} {s : State} {k : Nat} {on : Bool} (hk : SameNvm r s) :
    SameNvm r (State.levelChange s k on) := by
  unfold State.levelChange
  repeat' first
    | intro _
    | (with_reducible first | assumption | exact SameNvm.refl _ | apply State.wr_sameNvm | apply State.raise_sameNvm | apply State.cmis_sameNvm | apply State.bump_sameNvm | apply State.thmSet_sameNvm | apply State.critical_sameNvm | apply SameNvm.cond)
    | extract_lets | dsimp only | split

theorem State.levelCheck_sameNvm {r : State} {s : State} {k : Nat} (hk : SameNvm r s) :
    SameNvm r (State.levelCheck s k) := by
  unfold State.levelCheck
  repeat' first
    | intro _
    | (with_reducible first | assumption | exact SameNvm.refl _ | apply State.wr_sameNvm | apply State.levelChange_sameNvm | apply SameNvm.cond)
    | extract_lets | split

theorem State.railRead_sameNvm {r : State} {s : State} {counts : List Nat} {k : Nat} {ma : Int} (hk : SameNvm r s) :
    SameNvm r (State.railRead s counts k ma) := by
  unfold State.railRead
  repeat' first
    | intro _
    | (with_reducible first | assumption | exact SameNvm.refl _ | apply State.wr_sameNvm | apply State.sensorBroken_sameNvm | apply SameNvm.when | apply SameNvm.cond)
    | extract_lets | dsimp only | split

theorem State.islandReport_sameNvm {r : State} {s : State} {i : Nat} {mw : Int} (hk : SameNvm r s) :
    SameNvm r (State.islandReport s i mw) := by
  unfold State.islandReport
  repeat' first
    | intro _
    | (with_reducible first | assumption | exact SameNvm.refl _ | apply State.wrInt_sameNvm | apply State.wr_sameNvm | apply SameNvm.cond)
    | extract_lets | split

theorem execThermalModelUpdate_sameNvm {r : State} {counts : List Nat} {rails : List Int} {s : State} (hk : SameNvm r s) :
    OutSameNvm r (execThermalModelUpdate counts rails s) := by
  unfold execThermalModelUpdate
  repeat' first
    | intro _
    | (with_reducible first | assumption | exact SameNvm.refl _ | apply OutSameNvm.next | apply State.railRead_sameNvm | apply State.rcStep_sameNvm | apply State.islandReport_sameNvm | apply State.wrInt_sameNvm | apply State.wr_sameNvm | apply State.levelCheck_sameNvm | apply SameNvm.each | apply SameNvm.foldl | apply OutSameNvm.cond | apply SameNvm.cond | apply SameNvm.cond_snd)
    | extract_lets | dsimp only | split

theorem State.diodeRead_sameNvm {r : State} {s : State} {k : Nat} {d : DiodeReading} (hk : SameNvm r s) :
    SameNvm r (State.diodeRead s k d) := by
  unfold State.diodeRead
  repeat' first
    | intro _
    | (with_reducible first | assumption | exact SameNvm.refl _ | apply State.wrInt_sameNvm | apply State.wr_sameNvm | apply State.sensorBroken_sameNvm | apply State.critical_sameNvm | apply SameNvm.cond)
    | extract_lets | dsimp only | split

theorem execDiodeMeasure_sameNvm {r : State} {ds : List DiodeReading} {s : State} (hk : SameNvm r s) :
    OutSameNvm r (execDiodeMeasure ds s) := by
  unfold execDiodeMeasure
  repeat' first
    | intro _
    | (with_reducible first | assumption | exact SameNvm.refl _ | apply OutSameNvm.next | apply State.diodeRead_sameNvm | apply SameNvm.each | apply OutSameNvm.cond | apply SameNvm.cond | apply SameNvm.cond_snd)
    | extract_lets | dsimp only | split

theorem execAonDiodeCompare_sameNvm {r : State} {temps : List Int} {s : State} (hk : SameNvm r s) :
    OutSameNvm r (execAonDiodeCompare temps s) := by
  unfold execAonDiodeCompare
  repeat' first
    | intro _
    | (with_reducible first | assumption | exact SameNvm.refl _ | apply OutSameNvm.next | apply State.critical_sameNvm | apply OutSameNvm.cond | apply SameNvm.cond)
    | extract_lets | dsimp only | split

theorem execAonThermalCrossing_sameNvm {r : State} {before after : Int} {s : State} (hk : SameNvm r s) :
    OutSameNvm r (execAonThermalCrossing before after s) := by
  unfold execAonThermalCrossing
  repeat' first
    | intro _
    | (with_reducible first | assumption | exact SameNvm.refl _ | apply OutSameNvm.next | apply State.wakeDevice_sameNvm | apply OutSameNvm.cond | apply SameNvm.cond)
    | extract_lets | split

theorem execThmCntClr_sameNvm {r : State} {s : State} (hk : SameNvm r s) :
    OutSameNvm r (execThmCntClr s) := by
  unfold execThmCntClr
  repeat' first
    | intro _
    | (with_reducible first | assumption | exact SameNvm.refl _ | apply OutSameNvm.next | apply State.access_sameNvm | apply State.clear_sameNvm)
    | extract_lets | dsimp only

end Sys2Proof.Machine
end

