-- ==== Sys2Proof/Laws/StoredPower.lean ====
section
/-!
SUPPORT. The operations of Power that leave the NVM.
-/
set_option Elab.async false
set_option linter.all false
namespace Sys2Proof.Machine

theorem State.setPhase_sameNvm {r : State} {s : State} {o : VoteObject} {p : Nat} (hk : SameNvm r s) :
    SameNvm r (State.setPhase s o p) := by
  unfold State.setPhase
  repeat' first
    | intro _
    | (with_reducible first | assumption | exact SameNvm.refl _ | apply State.wr_sameNvm | apply SameNvm.cond)
    | extract_lets | dsimp only | split

theorem State.recordRefusal_sameNvm {r : State} {s : State} {o : VoteObject} {v : Voter} {reason target : Nat} {late : Bool} (hk : SameNvm r s) :
    SameNvm r (State.recordRefusal s o v reason target late) := by
  unfold State.recordRefusal
  repeat' first
    | intro _
    | (with_reducible first | assumption | exact SameNvm.refl _ | apply State.puts_sameNvm | apply State.bump_sameNvm | apply State.raise_sameNvm | apply State.emit_sameNvm | apply State.wr_sameNvm | apply SameNvm.cond)
    | extract_lets | dsimp only | split

theorem State.voteStart_sameNvm {r : State} {s : State} {o : VoteObject} (hk : SameNvm r s) :
    SameNvm r (State.voteStart s o) := by
  unfold State.voteStart
  repeat' first
    | intro _
    | (with_reducible first | assumption | exact SameNvm.refl _ | apply State.setPhase_sameNvm | apply State.wr_sameNvm | apply SameNvm.when | apply SameNvm.cond)
    | extract_lets | dsimp only | split

theorem State.deviceRequest_sameNvm {r : State} {s : State} {target : Nat} (hk : SameNvm r s) :
    SameNvm r (State.deviceRequest s target) := by
  unfold State.deviceRequest
  repeat' first
    | intro _
    | (with_reducible first | assumption | exact SameNvm.refl _ | apply State.puts_sameNvm | apply State.voteStart_sameNvm)
    | extract_lets

theorem State.sleepRequest_sameNvm {r : State} {s : State} {n : Nat} {egress : Bool} (hk : SameNvm r s) :
    SameNvm r (State.sleepRequest s n egress) := by
  unfold State.sleepRequest
  repeat' first
    | intro _
    | (with_reducible first | assumption | exact SameNvm.refl _ | apply State.wr_sameNvm | apply State.puts_sameNvm | apply State.voteStart_sameNvm | apply SameNvm.when | apply SameNvm.cond)
    | extract_lets | dsimp only | split

theorem execSleepRequest_sameNvm {r : State} {n : Lane} {egress : Bool} {s : State} (hk : SameNvm r s) :
    OutSameNvm r (execSleepRequest n egress s) := by
  unfold execSleepRequest
  repeat' first
    | intro _
    | (with_reducible first | assumption | exact SameNvm.refl _ | apply OutSameNvm.next | apply State.access_sameNvm | apply State.laneService_sameNvm | apply State.sleepRequest_sameNvm)
    | extract_lets | dsimp only

theorem execSleepRequestClear_sameNvm {r : State} {n : Lane} {egress : Bool} {s : State} (hk : SameNvm r s) :
    OutSameNvm r (execSleepRequestClear n egress s) := by
  unfold execSleepRequestClear
  repeat' first
    | intro _
    | (with_reducible first | assumption | exact SameNvm.refl _ | apply OutSameNvm.next | apply State.access_sameNvm | apply State.wr_sameNvm | apply State.wakeDir_sameNvm | apply OutSameNvm.cond | apply SameNvm.cond)
    | extract_lets | dsimp only | split
    | (with_reducible first | apply SameNvm.other)

theorem State.budgetWake_sameNvm {r : State} {s : State} {n : Nat} {egress : Bool} (hk : SameNvm r s) :
    SameNvm r (State.budgetWake s n egress) := by
  unfold State.budgetWake
  repeat' first
    | intro _
    | (with_reducible first | assumption | exact SameNvm.refl _ | apply State.wakeDir_sameNvm | apply State.trimEnd_sameNvm | apply State.wakeRecords_sameNvm | apply State.wakeLine_sameNvm | apply State.wakeHost_sameNvm | apply State.wr_sameNvm | apply SameNvm.each | apply SameNvm.when | apply SameNvm.cond)
    | extract_lets | dsimp only | split

theorem execBudgetWrite_sameNvm {r : State} {n : Lane} {egress : Bool} {us : BitVec 16} {s : State} (hk : SameNvm r s) :
    OutSameNvm r (execBudgetWrite n egress us s) := by
  unfold execBudgetWrite
  repeat' first
    | intro _
    | (with_reducible first | assumption | exact SameNvm.refl _ | apply OutSameNvm.next | apply State.access_sameNvm | apply State.puts_sameNvm | apply State.budgetWake_sameNvm | apply State.voteStart_sameNvm | apply OutSameNvm.cond | apply SameNvm.cond)
    | extract_lets | dsimp only | split

theorem execVotePrepare_sameNvm {r : State} {obj : VoteObject} {s : State} (hk : SameNvm r s) :
    OutSameNvm r (execVotePrepare obj s) := by
  unfold execVotePrepare
  repeat' first
    | intro _
    | (with_reducible first | assumption | exact SameNvm.refl _ | apply OutSameNvm.next | apply State.voteStart_sameNvm | apply State.setPhase_sameNvm | apply State.recordRefusal_sameNvm | apply State.endTest_sameNvm | apply SameNvm.each | apply OutSameNvm.cond | apply SameNvm.cond | apply OptSameNvm.getD)
    | extract_lets | dsimp only | split
    | (with_reducible first | apply SameNvm.other)

theorem execVoteTimeout_sameNvm {r : State} {obj : VoteObject} {block : Fin 9} {inst : Fin 16} {s : State} (hk : SameNvm r s) :
    OutSameNvm r (execVoteTimeout obj block inst s) := by
  unfold execVoteTimeout
  repeat' first
    | intro _
    | (with_reducible first | assumption | exact SameNvm.refl _ | apply OutSameNvm.next | apply State.recordRefusal_sameNvm | apply State.setPhase_sameNvm | apply OutSameNvm.cond | apply SameNvm.cond)
    | extract_lets | split

theorem State.commitBlock_sameNvm {r : State} {s : State} {st : SleepStep} (hk : SameNvm r s) :
    SameNvm r (State.commitBlock s st) := by
  unfold State.commitBlock
  repeat' first
    | intro _
    | (with_reducible first | assumption | exact SameNvm.refl _ | apply State.lrxAbandon_sameNvm | apply State.trimEnd_sameNvm | apply State.puts_sameNvm | apply State.saveRecord_sameNvm | apply State.leqFollow_sameNvm | apply State.ltxAbandon_sameNvm | apply State.raise_sameNvm | apply State.maskDiscard_sameNvm | apply State.wr_sameNvm | apply SameNvm.when | apply SameNvm.cond)
    | extract_lets | dsimp only | split

theorem State.commitDevice_sameNvm {r : State} {s : State} {st : SleepStep} (hk : SameNvm r s) :
    SameNvm r (State.commitDevice s st) := by
  unfold State.commitDevice
  repeat' first
    | intro _
    | (with_reducible first | assumption | exact SameNvm.refl _ | apply State.laneSave_sameNvm | apply State.lrxOff_sameNvm | apply State.ltxDisable_sameNvm | apply State.hifOff_sameNvm | apply SameNvm.cond)
    | extract_lets | dsimp only | split

theorem State.voteEnd_sameNvm {r : State} {s : State} {o : VoteObject} {target : Nat} (hk : SameNvm r s) :
    SameNvm r (State.voteEnd s o target) := by
  unfold State.voteEnd
  repeat' first
    | intro _
    | (with_reducible first | assumption | exact SameNvm.refl _ | apply State.setPhase_sameNvm | apply State.wr_sameNvm | apply State.deepEnter_sameNvm | apply State.standbyEnter_sameNvm | apply SameNvm.when | apply SameNvm.cond)
    | extract_lets | dsimp only | split
    | (with_reducible first | apply SameNvm.other)

theorem State.refuseLate_sameNvm {r : State} {s : State} {o : VoteObject} {v : Vote} {who : Voter} {reason : Nat} (hk : SameNvm r s) :
    SameNvm r (State.refuseLate s o v who reason) := by
  unfold State.refuseLate
  repeat' first
    | intro _
    | (with_reducible first | assumption | exact SameNvm.refl _ | apply State.wakeDone_sameNvm | apply State.recordRefusal_sameNvm | apply State.setPhase_sameNvm)
    | extract_lets | dsimp only
    | (with_reducible first | apply SameNvm.other)

theorem execVoteCommitStep_sameNvm {r : State} {obj : VoteObject} {s : State} (hk : SameNvm r s) :
    OutSameNvm r (execVoteCommitStep obj s) := by
  unfold execVoteCommitStep
  repeat' first
    | intro _
    | (with_reducible first | assumption | exact SameNvm.refl _ | apply OutSameNvm.next | apply State.voteEnd_sameNvm | apply State.refuseLate_sameNvm | apply State.commitDevice_sameNvm | apply State.commitBlock_sameNvm | apply OutSameNvm.cond | apply SameNvm.cond)
    | extract_lets | dsimp only | split
    | (with_reducible first | apply SameNvm.other)

theorem execLateRefusal_sameNvm {r : State} {obj : VoteObject} {block : Fin 9} {inst : Fin 16} {s : State} (hk : SameNvm r s) :
    OutSameNvm r (execLateRefusal obj block inst s) := by
  unfold execLateRefusal
  repeat' first
    | intro _
    | (with_reducible first | assumption | exact SameNvm.refl _ | apply OutSameNvm.next | apply State.refuseLate_sameNvm)
    | extract_lets | dsimp only | split

theorem execSleepRetry_sameNvm {r : State} {obj : VoteObject} {s : State} (hk : SameNvm r s) :
    OutSameNvm r (execSleepRetry obj s) := by
  unfold execSleepRetry
  repeat' first
    | intro _
    | (with_reducible first | assumption | exact SameNvm.refl _ | apply OutSameNvm.next | apply State.wr_sameNvm | apply State.voteStart_sameNvm | apply State.raise_sameNvm | apply OutSameNvm.cond | apply SameNvm.cond)
    | extract_lets | dsimp only | split

theorem execTrimEntry_sameNvm {r : State} {n : Lane} {s : State} (hk : SameNvm r s) :
    OutSameNvm r (execTrimEntry n s) := by
  unfold execTrimEntry
  repeat' first
    | intro _
    | (with_reducible first | assumption | exact SameNvm.refl _ | apply OutSameNvm.next | apply State.wr_sameNvm | apply State.dvfsKick_sameNvm | apply SameNvm.when | apply OutSameNvm.cond | apply SameNvm.cond)
    | extract_lets | dsimp only | split

theorem execWakeTimerExpiry_sameNvm {r : State} {s : State} (hk : SameNvm r s) :
    OutSameNvm r (execWakeTimerExpiry s) := by
  unfold execWakeTimerExpiry
  repeat' first
    | intro _
    | (with_reducible first | assumption | exact SameNvm.refl _ | apply OutSameNvm.next | apply State.wakeDevice_sameNvm | apply OutSameNvm.cond | apply SameNvm.cond)
    | extract_lets | split

theorem State.standbyRequest_sameNvm {r : State} {s : State} (hk : SameNvm r s) :
    SameNvm r (State.standbyRequest s) := by
  unfold State.standbyRequest
  repeat' first
    | intro _
    | (with_reducible first | assumption | exact SameNvm.refl _ | apply State.wr_sameNvm | apply State.deviceRequest_sameNvm | apply SameNvm.cond)
    | extract_lets | split

theorem execLpmodeAssert_sameNvm {r : State} {s : State} (hk : SameNvm r s) :
    OutSameNvm r (execLpmodeAssert s) := by
  unfold execLpmodeAssert
  repeat' first
    | intro _
    | (with_reducible first | assumption | exact SameNvm.refl _ | apply OutSameNvm.next | apply State.wr_sameNvm | apply State.standbyRequest_sameNvm | apply OutSameNvm.cond | apply SameNvm.cond)
    | extract_lets | split

theorem execLpmodeDeassert_sameNvm {r : State} {s : State} (hk : SameNvm r s) :
    OutSameNvm r (execLpmodeDeassert s) := by
  unfold execLpmodeDeassert
  repeat' first
    | intro _
    | (with_reducible first | assumption | exact SameNvm.refl _ | apply OutSameNvm.next | apply State.wr_sameNvm | apply State.wakeHeld_sameNvm | apply State.standbyRelease_sameNvm | apply State.deviceAbandon_sameNvm | apply OutSameNvm.cond | apply SameNvm.cond)
    | extract_lets | split

theorem execStandbySwWrite_sameNvm {r : State} {s : State} (hk : SameNvm r s) :
    OutSameNvm r (execStandbySwWrite s) := by
  unfold execStandbySwWrite
  repeat' first
    | intro _
    | (with_reducible first | assumption | exact SameNvm.refl _ | apply OutSameNvm.next | apply State.access_sameNvm | apply State.wr_sameNvm | apply State.standbyRequest_sameNvm)
    | extract_lets | dsimp only

theorem execDeep_sameNvm {r : State} {s : State} (hk : SameNvm r s) :
    OutSameNvm r (execDeep s) := by
  unfold execDeep
  repeat' first
    | intro _
    | (with_reducible first | assumption | exact SameNvm.refl _ | apply OutSameNvm.next | apply State.access_sameNvm | apply State.raise_sameNvm | apply State.wr_sameNvm | apply State.deviceRequest_sameNvm | apply OutSameNvm.cond | apply SameNvm.cond)
    | extract_lets | dsimp only | split
    | (with_reducible first | apply SameNvm.other)

theorem execDeepWakeEvent_sameNvm {r : State} {src : Fin 8} {s : State} (hk : SameNvm r s) :
    OutSameNvm r (execDeepWakeEvent src s) := by
  unfold execDeepWakeEvent
  repeat' first
    | intro _
    | (with_reducible first | assumption | exact SameNvm.refl _ | apply OutSameNvm.next | apply State.wakeDevice_sameNvm | apply OutSameNvm.cond | apply SameNvm.cond)
    | extract_lets | split

theorem State.writePoints_sameNvm {r : State} {s : State} {req : Nat} (hk : SameNvm r s) :
    SameNvm r (State.writePoints s req) := by
  unfold State.writePoints
  repeat' first
    | intro _
    | (with_reducible first | assumption | exact SameNvm.refl _ | apply State.wr_sameNvm | apply State.dvfsKick_sameNvm | apply State.raise_sameNvm | apply State.puts_sameNvm | apply SameNvm.cond)
    | extract_lets | dsimp only | split

theorem State.writeVout_sameNvm {r : State} {s : State} {mv : Nat} (hk : SameNvm r s) :
    SameNvm r (State.writeVout s mv) := by
  unfold State.writeVout
  repeat' first
    | intro _
    | (with_reducible first | assumption | exact SameNvm.refl _ | apply State.wr_sameNvm | apply State.puts_sameNvm | apply State.raise_sameNvm | apply SameNvm.cond)
    | extract_lets | dsimp only | split

theorem execDvfsRequest_sameNvm {r : State} {req : BitVec 16} {s : State} (hk : SameNvm r s) :
    OutSameNvm r (execDvfsRequest req s) := by
  unfold execDvfsRequest
  repeat' first
    | intro _
    | (with_reducible first | assumption | exact SameNvm.refl _ | apply OutSameNvm.next | apply State.access_sameNvm | apply State.writePoints_sameNvm)
    | extract_lets | dsimp only

theorem execDvfsExpertWrite_sameNvm {r : State} {w : DvfsWrite} {s : State} (hk : SameNvm r s) :
    OutSameNvm r (execDvfsExpertWrite w s) := by
  unfold execDvfsExpertWrite
  repeat' first
    | intro _
    | (with_reducible first | assumption | exact SameNvm.refl _ | apply OutSameNvm.next | apply State.access_sameNvm | apply State.writePoints_sameNvm | apply State.writeVout_sameNvm)
    | extract_lets | dsimp only | split

theorem State.dvfsSettle_sameNvm {r : State} {s : State} (hk : SameNvm r s) :
    SameNvm r (State.dvfsSettle s) := by
  unfold State.dvfsSettle
  repeat' first
    | intro _
    | (with_reducible first | assumption | exact SameNvm.refl _ | apply State.puts_sameNvm | apply State.wr_sameNvm | apply SameNvm.cond)
    | extract_lets | split

theorem execDvfsVoutConfirmed_sameNvm {r : State} {s : State} (hk : SameNvm r s) :
    OutSameNvm r (execDvfsVoutConfirmed s) := by
  unfold execDvfsVoutConfirmed
  repeat' first
    | intro _
    | (with_reducible first | assumption | exact SameNvm.refl _ | apply OutSameNvm.next | apply State.puts_sameNvm | apply State.wr_sameNvm | apply State.dvfsSettle_sameNvm | apply OutSameNvm.cond | apply SameNvm.cond)
    | extract_lets | split

theorem execDvfsStepDwell_sameNvm {r : State} {s : State} (hk : SameNvm r s) :
    OutSameNvm r (execDvfsStepDwell s) := by
  unfold execDvfsStepDwell
  repeat' first
    | intro _
    | (with_reducible first | assumption | exact SameNvm.refl _ | apply OutSameNvm.next | apply State.dvfsStep_sameNvm | apply State.dvfsSettle_sameNvm | apply OutSameNvm.cond | apply SameNvm.cond)
    | extract_lets | split

theorem execDvfsTimeout_sameNvm {r : State} {s : State} (hk : SameNvm r s) :
    OutSameNvm r (execDvfsTimeout s) := by
  unfold execDvfsTimeout
  repeat' first
    | intro _
    | (with_reducible first | assumption | exact SameNvm.refl _ | apply OutSameNvm.next | apply State.puts_sameNvm | apply State.raise_sameNvm | apply OutSameNvm.cond | apply SameNvm.cond)
    | extract_lets | split

theorem execPmAlert_sameNvm {r : State} {s : State} (hk : SameNvm r s) :
    OutSameNvm r (execPmAlert s) := by
  unfold execPmAlert
  repeat' first
    | intro _
    | (with_reducible first | assumption | exact SameNvm.refl _ | apply OutSameNvm.next | apply State.raise_sameNvm | apply State.faultEvent_sameNvm)
    | extract_lets

theorem State.deviceReset_sameNvm {r : State} {s : State} {cause rail : Nat} (hk : SameNvm r s) :
    SameNvm r (State.deviceReset s cause rail) := by
  unfold State.deviceReset
  repeat' first
    | intro _
    | (with_reducible first | assumption | exact SameNvm.refl _ | apply State.resetOutsideAon_sameNvm | apply State.resetFields_sameNvm | apply State.puts_sameNvm)
    | extract_lets | dsimp only
    | (with_reducible first | apply SameNvm.other)

theorem execResetNAssert_sameNvm {r : State} {s : State} (hk : SameNvm r s) :
    OutSameNvm r (execResetNAssert s) := by
  unfold execResetNAssert
  repeat' first
    | intro _
    | (with_reducible first | assumption | exact SameNvm.refl _ | apply OutSameNvm.next | apply State.deviceReset_sameNvm | apply State.wr_sameNvm)
    | extract_lets

theorem execResetNRelease_sameNvm {r : State} {s : State} (hk : SameNvm r s) :
    OutSameNvm r (execResetNRelease s) := by
  unfold execResetNRelease
  repeat' first
    | intro _
    | (with_reducible first | assumption | exact SameNvm.refl _ | apply OutSameNvm.next | apply State.puts_sameNvm | apply OutSameNvm.cond | apply SameNvm.cond)
    | extract_lets | split

theorem State.pllsOff_sameNvm {r : State} {s : State} (hk : SameNvm r s) :
    SameNvm r (State.pllsOff s) := by
  unfold State.pllsOff
  repeat' first
    | intro _
    | (with_reducible first | assumption | exact SameNvm.refl _ | apply State.puts_sameNvm | apply State.setMask_sameNvm | apply State.capStop_sameNvm | apply State.wr_sameNvm | apply State.refreshRun_sameNvm | apply SameNvm.each)
    | extract_lets | dsimp only

theorem State.shutdownDomain_sameNvm {r : State} {s : State} (hk : SameNvm r s) :
    SameNvm r (State.shutdownDomain s) := by
  unfold State.shutdownDomain
  repeat' first
    | intro _
    | (with_reducible first | assumption | exact SameNvm.refl _ | apply State.setDomain_sameNvm | apply OptSameNvm.getD)
    | extract_lets | dsimp only | split

theorem State.entryEnd_sameNvm {r : State} {s : State} (hk : SameNvm r s) :
    SameNvm r (State.entryEnd s) := by
  unfold State.entryEnd
  repeat' first
    | intro _
    | (with_reducible first | assumption | exact SameNvm.refl _ | apply State.wr_sameNvm | apply State.deepEnter_sameNvm | apply State.deepWakeStart_sameNvm | apply State.standbyWakeStart_sameNvm | apply SameNvm.when | apply SameNvm.cond)
    | extract_lets | dsimp only | split

theorem execDomainStaggerStep_sameNvm {r : State} {s : State} (hk : SameNvm r s) :
    OutSameNvm r (execDomainStaggerStep s) := by
  unfold execDomainStaggerStep
  repeat' first
    | intro _
    | (with_reducible first | assumption | exact SameNvm.refl _ | apply OutSameNvm.next | apply State.setDomain_sameNvm | apply State.puts_sameNvm | apply State.wr_sameNvm | apply State.pllsOff_sameNvm | apply State.entryEnd_sameNvm | apply State.shutdownDomain_sameNvm | apply OutSameNvm.cond | apply SameNvm.cond)
    | extract_lets | split

theorem execPwrCntClr_sameNvm {r : State} {s : State} (hk : SameNvm r s) :
    OutSameNvm r (execPwrCntClr s) := by
  unfold execPwrCntClr
  repeat' first
    | intro _
    | (with_reducible first | assumption | exact SameNvm.refl _ | apply OutSameNvm.next | apply State.access_sameNvm | apply State.clear_sameNvm)
    | extract_lets | dsimp only

end Sys2Proof.Machine
end

