-- ==== Sys2Proof/Laws/StoredHealth.lean ====
section
/-!
SUPPORT. The operations of Health that leave the NVM.
-/
set_option Elab.async false
set_option linter.all false
namespace Sys2Proof.Machine

theorem execFaultSourceEvent_sameNvm {r : State} {src inst : Fin 16} {k : BitVec 10} {s : State} (hk : SameNvm r s) :
    OutSameNvm r (execFaultSourceEvent src inst k s) := by
  unfold execFaultSourceEvent
  repeat' first
    | intro _
    | (with_reducible first | assumption | exact SameNvm.refl _ | apply OutSameNvm.next | apply State.countEvent_sameNvm | apply State.lrxFault_sameNvm | apply State.ltxFaultWindow_sameNvm | apply State.hifFault_sameNvm | apply State.objectAction_sameNvm | apply SameNvm.when | apply OutSameNvm.cond | apply SameNvm.cond | apply SameNvm.cond_snd)
    | extract_lets | dsimp only | split

theorem execFaultWindowClose_sameNvm {r : State} {src inst : Fin 16} {s : State} (hk : SameNvm r s) :
    OutSameNvm r (execFaultWindowClose src inst s) := by
  unfold execFaultWindowClose
  repeat' first
    | intro _
    | (with_reducible first | assumption | exact SameNvm.refl _ | apply OutSameNvm.next | apply State.wr_sameNvm)
    | extract_lets

theorem execLastingClear_sameNvm {r : State} {src : Fin 16} {mask : BitVec 16} {s : State} (hk : SameNvm r s) :
    OutSameNvm r (execLastingClear src mask s) := by
  unfold execLastingClear
  repeat' first
    | intro _
    | (with_reducible first | assumption | exact SameNvm.refl _ | apply OutSameNvm.next | apply State.access_sameNvm | apply State.clearLasting_sameNvm | apply SameNvm.each)
    | extract_lets | dsimp only

theorem State.bistGo_sameNvm {r : State} {s : State} {kind unit : Nat} {preempt : Bool} (hk : SameNvm r s) :
    SameNvm r (State.bistGo s kind unit preempt) := by
  unfold State.bistGo
  repeat' first
    | intro _
    | (with_reducible first | assumption | exact SameNvm.refl _ | apply State.puts_sameNvm | apply State.wr_sameNvm | apply State.testResult_sameNvm | apply SameNvm.cond)
    | extract_lets | split
    | (with_reducible first | apply SameNvm.other)

theorem execBistEngine_sameNvm {r : State} {unit : BitVec 7} {preempt : Bool} {s : State} (hk : SameNvm r s) :
    OutSameNvm r (execBistEngine unit preempt s) := by
  unfold execBistEngine
  repeat' first
    | intro _
    | (with_reducible first | assumption | exact SameNvm.refl _ | apply OutSameNvm.next | apply State.access_sameNvm | apply State.bistGo_sameNvm)
    | extract_lets | dsimp only

theorem execBistLane_sameNvm {r : State} {unit : BitVec 7} {preempt : Bool} {s : State} (hk : SameNvm r s) :
    OutSameNvm r (execBistLane unit preempt s) := by
  unfold execBistLane
  repeat' first
    | intro _
    | (with_reducible first | assumption | exact SameNvm.refl _ | apply OutSameNvm.next | apply State.access_sameNvm | apply State.bistGo_sameNvm)
    | extract_lets | dsimp only

theorem execBistHost_sameNvm {r : State} {unit : BitVec 7} {preempt : Bool} {s : State} (hk : SameNvm r s) :
    OutSameNvm r (execBistHost unit preempt s) := by
  unfold execBistHost
  repeat' first
    | intro _
    | (with_reducible first | assumption | exact SameNvm.refl _ | apply OutSameNvm.next | apply State.access_sameNvm | apply State.bistGo_sameNvm)
    | extract_lets | dsimp only

theorem execBistXbar_sameNvm {r : State} {unit : BitVec 7} {preempt : Bool} {s : State} (hk : SameNvm r s) :
    OutSameNvm r (execBistXbar unit preempt s) := by
  unfold execBistXbar
  repeat' first
    | intro _
    | (with_reducible first | assumption | exact SameNvm.refl _ | apply OutSameNvm.next | apply State.access_sameNvm | apply State.bistGo_sameNvm)
    | extract_lets | dsimp only

theorem execBistCtrlDac_sameNvm {r : State} {unit : BitVec 7} {preempt : Bool} {s : State} (hk : SameNvm r s) :
    OutSameNvm r (execBistCtrlDac unit preempt s) := by
  unfold execBistCtrlDac
  repeat' first
    | intro _
    | (with_reducible first | assumption | exact SameNvm.refl _ | apply OutSameNvm.next | apply State.access_sameNvm | apply State.bistGo_sameNvm)
    | extract_lets | dsimp only

theorem execBistMonAdc_sameNvm {r : State} {unit : BitVec 7} {preempt : Bool} {s : State} (hk : SameNvm r s) :
    OutSameNvm r (execBistMonAdc unit preempt s) := by
  unfold execBistMonAdc
  repeat' first
    | intro _
    | (with_reducible first | assumption | exact SameNvm.refl _ | apply OutSameNvm.next | apply State.access_sameNvm | apply State.bistGo_sameNvm)
    | extract_lets | dsimp only

theorem execBistKeystore_sameNvm {r : State} {unit : BitVec 7} {preempt : Bool} {s : State} (hk : SameNvm r s) :
    OutSameNvm r (execBistKeystore unit preempt s) := by
  unfold execBistKeystore
  repeat' first
    | intro _
    | (with_reducible first | assumption | exact SameNvm.refl _ | apply OutSameNvm.next | apply State.access_sameNvm | apply State.bistGo_sameNvm)
    | extract_lets | dsimp only

theorem execBistEnvelope_sameNvm {r : State} {unit : BitVec 7} {preempt : Bool} {s : State} (hk : SameNvm r s) :
    OutSameNvm r (execBistEnvelope unit preempt s) := by
  unfold execBistEnvelope
  repeat' first
    | intro _
    | (with_reducible first | assumption | exact SameNvm.refl _ | apply OutSameNvm.next | apply State.access_sameNvm | apply State.bistGo_sameNvm)
    | extract_lets | dsimp only

theorem State.bootTests_sameNvm {r : State} {s : State} (hk : SameNvm r s) :
    SameNvm r (State.bootTests s) := by
  unfold State.bootTests
  repeat' first
    | intro _
    | (with_reducible first | assumption | exact SameNvm.refl _)
    | extract_lets | dsimp only
    | (with_reducible first | apply SameNvm.other)

theorem State.clearSecrets_sameNvm {r : State} {s : State} (hk : SameNvm r s) :
    SameNvm r (State.clearSecrets s) := by
  unfold State.clearSecrets
  repeat' first
    | intro _
    | (with_reducible first | assumption | exact SameNvm.refl _ | apply State.puts_sameNvm | apply State.wr_sameNvm | apply SameNvm.each)
    | extract_lets | dsimp only

theorem State.loadSecrets_sameNvm {r : State} {s : State} (hk : SameNvm r s) :
    SameNvm r (State.loadSecrets s) := by
  unfold State.loadSecrets
  repeat' first
    | intro _
    | (with_reducible first | assumption | exact SameNvm.refl _ | apply State.wr_sameNvm | apply SameNvm.each)
    | extract_lets | dsimp only

theorem State.reloadSecrets_sameNvm {r : State} {s : State} (hk : SameNvm r s) :
    SameNvm r (State.reloadSecrets s) := by
  unfold State.reloadSecrets
  repeat' first
    | intro _
    | (with_reducible first | assumption | exact SameNvm.refl _ | apply State.loadSecrets_sameNvm | apply State.wrb_sameNvm | apply SameNvm.when)
    | extract_lets

theorem State.testIsolate_sameNvm {r : State} {s : State} {t : BistTest} (hk : SameNvm r s) :
    SameNvm r (State.testIsolate s t) := by
  unfold State.testIsolate
  repeat' first
    | intro _
    | (with_reducible first | assumption | exact SameNvm.refl _ | apply State.engAbandon_sameNvm | apply State.setEng_sameNvm | apply State.wr_sameNvm | apply State.ltxOff_sameNvm | apply State.lrxOff_sameNvm | apply State.optClamp_sameNvm | apply State.setDomain_sameNvm | apply State.hifOff_sameNvm | apply State.clearSecrets_sameNvm | apply SameNvm.each | apply SameNvm.cond)
    | extract_lets | dsimp only | split
    | (with_reducible first | apply SameNvm.other)

theorem execBistStart_sameNvm {r : State} {slot : TestSlot} {clockOk : Bool} {mv : BitVec 10} {s : State} (hk : SameNvm r s) :
    OutSameNvm r (execBistStart slot clockOk mv s) := by
  unfold execBistStart
  repeat' first
    | intro _
    | (with_reducible first | assumption | exact SameNvm.refl _ | apply OutSameNvm.next | apply State.testIsolate_sameNvm | apply State.wr_sameNvm | apply SameNvm.when | apply SameNvm.foldl | apply OutSameNvm.cond | apply SameNvm.cond)
    | extract_lets | dsimp only | split
    | (with_reducible first | apply SameNvm.other)

theorem execBistWaitTimeout_sameNvm {r : State} {s : State} (hk : SameNvm r s) :
    OutSameNvm r (execBistWaitTimeout s) := by
  unfold execBistWaitTimeout
  repeat' first
    | intro _
    | (with_reducible first | assumption | exact SameNvm.refl _ | apply OutSameNvm.next | apply State.wr_sameNvm | apply State.bump_sameNvm | apply State.testResult_sameNvm)
    | extract_lets | dsimp only | split
    | (with_reducible first | apply SameNvm.other)

theorem execBistConditionLost_sameNvm {r : State} {kind : Fin 8} {unit : BitVec 7} {s : State} (hk : SameNvm r s) :
    OutSameNvm r (execBistConditionLost kind unit s) := by
  unfold execBistConditionLost
  repeat' first
    | intro _
    | (with_reducible first | assumption | exact SameNvm.refl _ | apply OutSameNvm.next | apply State.endTest_sameNvm)
    | extract_lets

theorem State.laneHold_sameNvm {r : State} {s : State} {n : Nat} (hk : SameNvm r s) :
    SameNvm r (State.laneHold s n) := by
  unfold State.laneHold
  repeat' first
    | intro _
    | (with_reducible first | assumption | exact SameNvm.refl _ | apply State.lrxOff_sameNvm | apply State.puts_sameNvm | apply State.ltxRecheck_sameNvm | apply State.setMask_sameNvm)
    | extract_lets

theorem State.testFailed_sameNvm {r0 : State} {s : State} {kind unit : Nat} {r : BistReport} (hk : SameNvm r0 s) :
    SameNvm r0 (State.testFailed s kind unit r) := by
  unfold State.testFailed
  repeat' first
    | intro _
    | (with_reducible first | assumption | exact SameNvm.refl _ | apply State.engFail_sameNvm | apply State.sliceFail_sameNvm | apply State.cellFail_sameNvm | apply State.laneHold_sameNvm | apply State.wr_sameNvm | apply State.setMask_sameNvm | apply State.puts_sameNvm | apply SameNvm.each | apply SameNvm.when)
    | extract_lets | dsimp only | split

theorem execBistDone_sameNvm {r0 : State} {kind : Fin 8} {unit : BitVec 7} {r : BistReport} {s : State} (hk : SameNvm r0 s) :
    OutSameNvm r0 (execBistDone kind unit r s) := by
  unfold execBistDone
  repeat' first
    | intro _
    | (with_reducible first | assumption | exact SameNvm.refl _ | apply OutSameNvm.next | apply State.testReinit_sameNvm | apply State.bump_sameNvm | apply State.wr_sameNvm | apply State.raise_sameNvm | apply State.testFailed_sameNvm | apply State.testResult_sameNvm | apply SameNvm.when | apply OutSameNvm.cond | apply SameNvm.cond)
    | extract_lets | dsimp only | split

theorem State.serve_sameNvm {r0 : State} {s : State} {r : SvcReq} (hk : SameNvm r0 s) :
    SameNvm r0 (State.serve s r) := by
  unfold State.serve
  repeat' first
    | intro _
    | (with_reducible first | assumption | exact SameNvm.refl _ | apply State.lrxEnableOn_sameNvm | apply State.ltxEnableOn_sameNvm | apply State.lrxRestartNow_sameNvm | apply State.ltxRestartNow_sameNvm | apply State.renegNow_sameNvm | apply State.profChangeNow_sameNvm | apply State.lrxCommitNow_sameNvm | apply State.leqCommitNow_sameNvm | apply State.ltxCommitNow_sameNvm | apply State.hifEnableOn_sameNvm | apply State.hifRetrainNow_sameNvm | apply State.hifCommitNow_sameNvm | apply State.sleepRequest_sameNvm)
    | extract_lets | dsimp only | split

theorem State.testRestart_sameNvm {r : State} {s : State} {kind unit : Nat} (hk : SameNvm r s) :
    SameNvm r (State.testRestart s kind unit) := by
  unfold State.testRestart
  repeat' first
    | intro _
    | (with_reducible first | assumption | exact SameNvm.refl _ | apply State.loadStores_sameNvm | apply State.setEng_sameNvm | apply State.lrxToCal_sameNvm | apply State.ltxRecheck_sameNvm | apply State.hifStart_sameNvm | apply State.straitFlush_sameNvm | apply State.reloadSecrets_sameNvm | apply SameNvm.each | apply SameNvm.cond)
    | extract_lets | dsimp only | split
    | (with_reducible first | apply SameNvm.other)

theorem execBistReinitDone_sameNvm {r : State} {kind : Fin 8} {unit : BitVec 7} {s : State} (hk : SameNvm r s) :
    OutSameNvm r (execBistReinitDone kind unit s) := by
  unfold execBistReinitDone
  repeat' first
    | intro _
    | (with_reducible first | assumption | exact SameNvm.refl _ | apply OutSameNvm.next | apply State.wr_sameNvm | apply State.testRestart_sameNvm | apply State.serve_sameNvm | apply SameNvm.each | apply SameNvm.when | apply OutSameNvm.cond | apply SameNvm.cond)
    | extract_lets | dsimp only | split
    | (with_reducible first | apply SameNvm.other)

theorem execBgBistDue_sameNvm {r : State} {e : Fin 128} {s : State} (hk : SameNvm r s) :
    OutSameNvm r (execBgBistDue e s) := by
  unfold execBgBistDue
  repeat' first
    | intro _
    | (with_reducible first | assumption | exact SameNvm.refl _ | apply OutSameNvm.next | apply OutSameNvm.cond | apply SameNvm.cond)
    | extract_lets | dsimp only | split
    | (with_reducible first | apply SameNvm.other)

theorem execAdcStepDue_sameNvm {r : State} {n : Lane} {s : State} (hk : SameNvm r s) :
    OutSameNvm r (execAdcStepDue n s) := by
  unfold execAdcStepDue
  repeat' first
    | intro _
    | (with_reducible first | assumption | exact SameNvm.refl _ | apply OutSameNvm.next | apply State.wr_sameNvm | apply State.adcAdmit_sameNvm | apply SameNvm.when)
    | extract_lets | dsimp only

theorem State.dacAdmit_sameNvm {r : State} {s : State} (hk : SameNvm r s) :
    SameNvm r (State.dacAdmit s) := by
  unfold State.dacAdmit
  repeat' first
    | intro _
    | (with_reducible first | assumption | exact SameNvm.refl _ | apply State.puts_sameNvm | apply State.wr_sameNvm | apply SameNvm.each)
    | extract_lets | dsimp only

theorem execDacStepDue_sameNvm {r : State} {n : Lane} {s : State} (hk : SameNvm r s) :
    OutSameNvm r (execDacStepDue n s) := by
  unfold execDacStepDue
  repeat' first
    | intro _
    | (with_reducible first | assumption | exact SameNvm.refl _ | apply OutSameNvm.next | apply State.wr_sameNvm | apply State.dacAdmit_sameNvm | apply SameNvm.when)
    | extract_lets | dsimp only

theorem execHealthWindowTick_sameNvm {r : State} {s : State} (hk : SameNvm r s) :
    OutSameNvm r (execHealthWindowTick s) := by
  unfold execHealthWindowTick
  repeat' first
    | intro _
    | (with_reducible first | assumption | exact SameNvm.refl _ | apply OutSameNvm.next | apply State.bgAge_sameNvm | apply State.dacAdmit_sameNvm | apply State.adcAdmit_sameNvm | apply State.adcStart_sameNvm | apply State.wr_sameNvm | apply SameNvm.each | apply OutSameNvm.cond | apply SameNvm.cond)
    | extract_lets | dsimp only | split

theorem execHltCntClr_sameNvm {r : State} {s : State} (hk : SameNvm r s) :
    OutSameNvm r (execHltCntClr s) := by
  unfold execHltCntClr
  repeat' first
    | intro _
    | (with_reducible first | assumption | exact SameNvm.refl _ | apply OutSameNvm.next | apply State.access_sameNvm | apply State.clear_sameNvm | apply State.resetFields_sameNvm | apply SameNvm.each)
    | extract_lets | dsimp only

end Sys2Proof.Machine
end

