-- ==== Sys2Proof/Laws/StoredFifo.lean ====
section
/-!
SUPPORT. The operations of Fifo that leave the NVM.
-/
set_option Elab.async false
set_option linter.all false
namespace Sys2Proof.Machine

theorem State.answerWord_sameNvm {r : State} {s : State} {w : Nat} (hk : SameNvm r s) :
    SameNvm r (State.answerWord s w) := by
  unfold State.answerWord
  repeat' first
    | intro _
    | (with_reducible first | assumption | exact SameNvm.refl _ | apply State.wr_sameNvm)
    | extract_lets
    | (with_reducible first | apply SameNvm.other)

theorem State.evfSettle_sameNvm {r : State} {s : State} (hk : SameNvm r s) :
    SameNvm r (State.evfSettle s) := by
  unfold State.evfSettle
  repeat' first
    | intro _
    | (with_reducible first | assumption | exact SameNvm.refl _ | apply State.puts_sameNvm | apply SameNvm.cond)
    | extract_lets | split

theorem State.evfXoffFollow_sameNvm {r : State} {s : State} (hk : SameNvm r s) :
    SameNvm r (State.evfXoffFollow s) := by
  unfold State.evfXoffFollow
  repeat' first
    | intro _
    | (with_reducible first | assumption | exact SameNvm.refl _ | apply State.wr_sameNvm | apply SameNvm.when)
    | extract_lets | dsimp only

theorem State.evfPop_sameNvm {r : State} {s : State} (hk : SameNvm r s) :
    SameNvm r (State.evfPop s).2 := by
  unfold State.evfPop
  repeat' first
    | intro _
    | (with_reducible first | assumption | exact SameNvm.refl _ | apply State.wr_sameNvm | apply State.evfXoffFollow_sameNvm | apply State.evfSettle_sameNvm)
    | extract_lets | dsimp only | split
    | (with_reducible first | apply SameNvm.other)

theorem execEvfRead_sameNvm {r : State} {s : State} (hk : SameNvm r s) :
    OutSameNvm r (execEvfRead s) := by
  unfold execEvfRead
  repeat' first
    | intro _
    | (with_reducible first | assumption | exact SameNvm.refl _ | apply OutSameNvm.next | apply State.access_sameNvm | apply State.evfPop_sameNvm | apply State.answerWord_sameNvm)
    | extract_lets | dsimp only

theorem State.evfFlushNow_sameNvm {r : State} {s : State} (hk : SameNvm r s) :
    SameNvm r (State.evfFlushNow s) := by
  unfold State.evfFlushNow
  repeat' first
    | intro _
    | (with_reducible first | assumption | exact SameNvm.refl _ | apply State.wr_sameNvm | apply State.evfXoffFollow_sameNvm | apply State.evfSettle_sameNvm)
    | extract_lets
    | (with_reducible first | apply SameNvm.other)

theorem execEvfFlush_sameNvm {r : State} {s : State} (hk : SameNvm r s) :
    OutSameNvm r (execEvfFlush s) := by
  unfold execEvfFlush
  repeat' first
    | intro _
    | (with_reducible first | assumption | exact SameNvm.refl _ | apply OutSameNvm.next | apply State.access_sameNvm | apply State.evfFlushNow_sameNvm)
    | extract_lets | dsimp only

theorem State.evfFormatSet_sameNvm {r : State} {s : State} {v : Nat} (hk : SameNvm r s) :
    SameNvm r (State.evfFormatSet s v) := by
  unfold State.evfFormatSet
  repeat' first
    | intro _
    | (with_reducible first | assumption | exact SameNvm.refl _ | apply State.puts_sameNvm | apply SameNvm.cond)
    | extract_lets | split

theorem execEvfFormatWrite_sameNvm {r : State} {format2 : Bool} {s : State} (hk : SameNvm r s) :
    OutSameNvm r (execEvfFormatWrite format2 s) := by
  unfold execEvfFormatWrite
  repeat' first
    | intro _
    | (with_reducible first | assumption | exact SameNvm.refl _ | apply OutSameNvm.next | apply State.access_sameNvm | apply State.evfFormatSet_sameNvm)
    | extract_lets | dsimp only

theorem execMgtCntClr_sameNvm {r : State} {s : State} (hk : SameNvm r s) :
    OutSameNvm r (execMgtCntClr s) := by
  unfold execMgtCntClr
  repeat' first
    | intro _
    | (with_reducible first | assumption | exact SameNvm.refl _ | apply OutSameNvm.next | apply State.access_sameNvm | apply State.clear_sameNvm)
    | extract_lets | dsimp only

theorem State.mbxWord_sameNvm {r : State} {s : State} {w : Nat} (hk : SameNvm r s) :
    SameNvm r (State.mbxWord s w) := by
  unfold State.mbxWord
  repeat' first
    | intro _
    | (with_reducible first | assumption | exact SameNvm.refl _ | apply State.wr_sameNvm | apply State.puts_sameNvm | apply State.raise_sameNvm | apply State.bump_sameNvm | apply SameNvm.cond)
    | extract_lets | dsimp only | split
    | (with_reducible first | apply SameNvm.other)

theorem execMbxInWordWrite_sameNvm {r : State} {w : Word} {s : State} (hk : SameNvm r s) :
    OutSameNvm r (execMbxInWordWrite w s) := by
  unfold execMbxInWordWrite
  repeat' first
    | intro _
    | (with_reducible first | assumption | exact SameNvm.refl _ | apply OutSameNvm.next | apply State.access_sameNvm | apply State.mbxWord_sameNvm)
    | extract_lets | dsimp only

theorem State.mbxRewind_sameNvm {r : State} {s : State} (hk : SameNvm r s) :
    SameNvm r (State.mbxRewind s) := by
  unfold State.mbxRewind
  repeat' first
    | intro _
    | (with_reducible first | assumption | exact SameNvm.refl _ | apply State.puts_sameNvm)
    | extract_lets
    | (with_reducible first | apply SameNvm.other)

theorem execMbxTimeout_sameNvm {r : State} {s : State} (hk : SameNvm r s) :
    OutSameNvm r (execMbxTimeout s) := by
  unfold execMbxTimeout
  repeat' first
    | intro _
    | (with_reducible first | assumption | exact SameNvm.refl _ | apply OutSameNvm.next | apply State.mbxRewind_sameNvm | apply State.wr_sameNvm | apply OutSameNvm.cond | apply SameNvm.cond)
    | extract_lets | split

theorem State.mbxAbort_sameNvm {r : State} {s : State} (hk : SameNvm r s) :
    SameNvm r (State.mbxAbort s) := by
  unfold State.mbxAbort
  repeat' first
    | intro _
    | (with_reducible first | assumption | exact SameNvm.refl _ | apply State.mbxRewind_sameNvm | apply State.wr_sameNvm)
    | extract_lets

theorem execMbxInAbort_sameNvm {r : State} {s : State} (hk : SameNvm r s) :
    OutSameNvm r (execMbxInAbort s) := by
  unfold execMbxInAbort
  repeat' first
    | intro _
    | (with_reducible first | assumption | exact SameNvm.refl _ | apply OutSameNvm.next | apply State.access_sameNvm | apply State.mbxAbort_sameNvm)
    | extract_lets | dsimp only

theorem State.mbxResize_sameNvm {r : State} {s : State} {v : Nat} (hk : SameNvm r s) :
    SameNvm r (State.mbxResize s v) := by
  unfold State.mbxResize
  repeat' first
    | intro _
    | (with_reducible first | assumption | exact SameNvm.refl _ | apply State.wr_sameNvm | apply State.raise_sameNvm | apply SameNvm.cond)
    | extract_lets | split

theorem execMbxSizeWrite_sameNvm {r : State} {v : BitVec 2} {s : State} (hk : SameNvm r s) :
    OutSameNvm r (execMbxSizeWrite v s) := by
  unfold execMbxSizeWrite
  repeat' first
    | intro _
    | (with_reducible first | assumption | exact SameNvm.refl _ | apply OutSameNvm.next | apply State.access_sameNvm | apply State.mbxResize_sameNvm)
    | extract_lets | dsimp only

theorem State.mbxPop_sameNvm {r : State} {s : State} (hk : SameNvm r s) :
    SameNvm r (State.mbxPop s).2 := by
  unfold State.mbxPop
  repeat' first
    | intro _
    | (with_reducible first | assumption | exact SameNvm.refl _ | apply SameNvm.cond_snd | apply SameNvm.cond)
    | extract_lets | dsimp only | split
    | (with_reducible first | apply SameNvm.other)

theorem execMbxOutRead_sameNvm {r : State} {s : State} (hk : SameNvm r s) :
    OutSameNvm r (execMbxOutRead s) := by
  unfold execMbxOutRead
  repeat' first
    | intro _
    | (with_reducible first | assumption | exact SameNvm.refl _ | apply OutSameNvm.next | apply State.access_sameNvm | apply State.mbxPop_sameNvm | apply State.answerWord_sameNvm)
    | extract_lets | dsimp only

theorem State.mbxReply_sameNvm {r : State} {s : State} {status : Nat} {body : List Nat} (hk : SameNvm r s) :
    SameNvm r (State.mbxReply s status body) := by
  unfold State.mbxReply
  repeat' first
    | intro _
    | (with_reducible first | assumption | exact SameNvm.refl _ | apply State.raise_sameNvm | apply OptSameNvm.getD)
    | extract_lets | dsimp only | split
    | (with_reducible first | apply SameNvm.other)

theorem State.mbxTake_sameNvm {r : State} {s : State} {type : Nat → Bool} {g : List Nat → State → State} (hk : SameNvm r s) (hgg : ∀ a u, SameNvm r u → SameNvm r (g a u)) :
    SameNvm r (State.mbxTake s type g) := by
  unfold State.mbxTake
  repeat' first
    | intro _
    | (with_reducible first | apply hgg | assumption | exact SameNvm.refl _ | apply SameNvm.cond | apply OptSameNvm.getD)
    | extract_lets | dsimp only | split

theorem execMsgVersion_sameNvm {r : State} {s : State} (hk : SameNvm r s) :
    OutSameNvm r (execMsgVersion s) := by
  unfold execMsgVersion
  repeat' first
    | intro _
    | (with_reducible first | assumption | exact SameNvm.refl _ | apply OutSameNvm.next | apply State.mbxTake_sameNvm | apply State.mbxReply_sameNvm)
    | extract_lets | dsimp only

theorem State.takeRecords_sameNvm {r s : State} {room fuel : Nat} (hk : SameNvm r s) :
    SameNvm r (s.takeRecords room fuel).2 := by
  induction fuel generalizing s room with
  | zero => exact hk
  | succ fuel ih =>
    unfold State.takeRecords
    split
    · exact hk
    · dsimp only
      split
      · exact hk
      · refine ih (State.evfSettle_sameNvm (State.evfXoffFollow_sameNvm (State.wr_sameNvm (SameNvm.other hk))))

theorem execMsgEventRead_sameNvm {r : State} {s : State} (hk : SameNvm r s) :
    OutSameNvm r (execMsgEventRead s) := by
  unfold execMsgEventRead
  repeat' first
    | intro _
    | (with_reducible first | assumption | exact SameNvm.refl _ | apply OutSameNvm.next | apply State.mbxTake_sameNvm | apply State.mbxReply_sameNvm | apply State.takeRecords_sameNvm | apply OutSameNvm.cond | apply SameNvm.cond | apply SameNvm.cond_snd | apply OptSameNvm.getD)
    | extract_lets | dsimp only | split

theorem execMsgInfoRead_sameNvm {r : State} {s : State} (hk : SameNvm r s) :
    OutSameNvm r (execMsgInfoRead s) := by
  unfold execMsgInfoRead
  repeat' first
    | intro _
    | (with_reducible first | assumption | exact SameNvm.refl _ | apply OutSameNvm.next | apply State.mbxTake_sameNvm | apply State.mbxReply_sameNvm | apply OutSameNvm.cond | apply SameNvm.cond | apply OptSameNvm.getD)
    | extract_lets | dsimp only | split

theorem execMsgInfoWrite_sameNvm {r : State} {s : State} (hk : SameNvm r s) :
    OutSameNvm r (execMsgInfoWrite s) := by
  unfold execMsgInfoWrite
  repeat' first
    | intro _
    | (with_reducible first | assumption | exact SameNvm.refl _ | apply OutSameNvm.next | apply State.mbxTake_sameNvm | apply State.mbxReply_sameNvm | apply State.setMask_sameNvm | apply OutSameNvm.cond | apply SameNvm.cond | apply OptSameNvm.getD)
    | extract_lets | dsimp only | split

theorem execMsgTypeUnknown_sameNvm {r : State} {s : State} (hk : SameNvm r s) :
    OutSameNvm r (execMsgTypeUnknown s) := by
  unfold execMsgTypeUnknown
  repeat' first
    | intro _
    | (with_reducible first | assumption | exact SameNvm.refl _ | apply OutSameNvm.next | apply State.mbxTake_sameNvm | apply State.mbxReply_sameNvm)
    | extract_lets | dsimp only

end Sys2Proof.Machine
end

