-- ==== Sys2Proof/Laws/StoredSecurity.lean ====
section
/-!
SUPPORT. The operations of Security that leave the NVM.
-/
set_option Elab.async false
set_option linter.all false
namespace Sys2Proof.Machine

theorem State.secEnd_sameNvm {r0 : State} {s : State} {r : Nat} (hk : SameNvm r0 s) :
    SameNvm r0 (State.secEnd s r) := by
  unfold State.secEnd
  repeat' first
    | intro _
    | (with_reducible first | assumption | exact SameNvm.refl _ | apply State.puts_sameNvm | apply State.setMask_sameNvm | apply State.raise_sameNvm | apply SameNvm.cond)
    | extract_lets | split

theorem State.secWrite_sameNvm {r : State} {s : State} (hk : SameNvm r s) :
    SameNvm r (State.secWrite s) := by
  unfold State.secWrite
  repeat' first
    | intro _
    | (with_reducible first | assumption | exact SameNvm.refl _ | apply State.puts_sameNvm | apply State.setMask_sameNvm)
    | extract_lets

theorem State.tokenCheck_sameNvm {r : State} {s : State} {flags : Nat} {other : Option Nat} (hk : SameNvm r s) :
    SameNvm r (State.tokenCheck s flags other) := by
  unfold State.tokenCheck
  repeat' first
    | intro _
    | (with_reducible first | assumption | exact SameNvm.refl _ | apply State.secEnd_sameNvm | apply State.wr_sameNvm | apply State.puts_sameNvm | apply SameNvm.cond)
    | extract_lets | split

theorem State.lcAdvance_sameNvm {r : State} {s : State} {target : Nat} (hk : SameNvm r s) :
    SameNvm r (State.lcAdvance s target) := by
  unfold State.lcAdvance
  repeat' first
    | intro _
    | (with_reducible first | assumption | exact SameNvm.refl _ | apply State.secEnd_sameNvm | apply State.secWrite_sameNvm | apply State.tokenCheck_sameNvm | apply SameNvm.cond)
    | extract_lets | split

theorem State.keyProgram_sameNvm {r : State} {s : State} {slot : Nat} (hk : SameNvm r s) :
    SameNvm r (State.keyProgram s slot) := by
  unfold State.keyProgram
  repeat' first
    | intro _
    | (with_reducible first | assumption | exact SameNvm.refl _ | apply State.secEnd_sameNvm | apply State.secWrite_sameNvm | apply SameNvm.cond)
    | extract_lets | split

theorem State.keyRevoke_sameNvm {r : State} {s : State} {slot : Nat} (hk : SameNvm r s) :
    SameNvm r (State.keyRevoke s slot) := by
  unfold State.keyRevoke
  repeat' first
    | intro _
    | (with_reducible first | assumption | exact SameNvm.refl _ | apply State.secEnd_sameNvm | apply State.secWrite_sameNvm | apply State.tokenCheck_sameNvm | apply SameNvm.cond)
    | extract_lets | dsimp only | split

theorem State.debugOpen_sameNvm {r : State} {s : State} {scope : Nat} (hk : SameNvm r s) :
    SameNvm r (State.debugOpen s scope) := by
  unfold State.debugOpen
  repeat' first
    | intro _
    | (with_reducible first | assumption | exact SameNvm.refl _ | apply State.clearSecrets_sameNvm | apply State.puts_sameNvm | apply State.wr_sameNvm | apply State.raise_sameNvm | apply SameNvm.when)
    | extract_lets | dsimp only

theorem State.debugUnlock_sameNvm {r : State} {s : State} {scope : Nat} (hk : SameNvm r s) :
    SameNvm r (State.debugUnlock s scope) := by
  unfold State.debugUnlock
  repeat' first
    | intro _
    | (with_reducible first | assumption | exact SameNvm.refl _ | apply State.debugOpen_sameNvm | apply State.secEnd_sameNvm | apply State.tokenCheck_sameNvm | apply SameNvm.cond)
    | extract_lets | split

theorem State.rollbackSet_sameNvm {r : State} {s : State} (hk : SameNvm r s) :
    SameNvm r (State.rollbackSet s) := by
  unfold State.rollbackSet
  repeat' first
    | intro _
    | (with_reducible first | assumption | exact SameNvm.refl _ | apply State.secEnd_sameNvm | apply State.secWrite_sameNvm | apply SameNvm.cond)
    | extract_lets | split

theorem State.nonceDraw_sameNvm {r : State} {s : State} (hk : SameNvm r s) :
    SameNvm r (State.nonceDraw s) := by
  unfold State.nonceDraw
  repeat' first
    | intro _
    | (with_reducible first | assumption | exact SameNvm.refl _ | apply State.secEnd_sameNvm | apply State.wrFree_sameNvm | apply State.wr_sameNvm | apply SameNvm.cond)
    | extract_lets | split

theorem State.secGo_sameNvm {r : State} {s : State} {op arg flags : Nat} (hk : SameNvm r s) :
    SameNvm r (State.secGo s op arg flags) := by
  unfold State.secGo
  repeat' first
    | intro _
    | (with_reducible first | assumption | exact SameNvm.refl _ | apply State.puts_sameNvm | apply State.wr_sameNvm | apply State.raise_sameNvm | apply State.lcAdvance_sameNvm | apply State.nonceDraw_sameNvm | apply State.keyProgram_sameNvm | apply State.keyRevoke_sameNvm | apply State.debugUnlock_sameNvm | apply State.rollbackSet_sameNvm | apply State.secWrite_sameNvm | apply State.secEnd_sameNvm | apply SameNvm.cond)
    | extract_lets | dsimp only | split

theorem execLcAdvance_sameNvm {r : State} {target : BitVec 4} {flags : BitVec 3} {s : State} (hk : SameNvm r s) :
    OutSameNvm r (execLcAdvance target flags s) := by
  unfold execLcAdvance
  repeat' first
    | intro _
    | (with_reducible first | assumption | exact SameNvm.refl _ | apply OutSameNvm.next | apply State.access_sameNvm | apply State.secGo_sameNvm)
    | extract_lets | dsimp only

theorem execNonce_sameNvm {r : State} {arg : BitVec 4} {flags : BitVec 3} {s : State} (hk : SameNvm r s) :
    OutSameNvm r (execNonce arg flags s) := by
  unfold execNonce
  repeat' first
    | intro _
    | (with_reducible first | assumption | exact SameNvm.refl _ | apply OutSameNvm.next | apply State.access_sameNvm | apply State.secGo_sameNvm)
    | extract_lets | dsimp only

theorem execNonceExpiry_sameNvm {r : State} {s : State} (hk : SameNvm r s) :
    OutSameNvm r (execNonceExpiry s) := by
  unfold execNonceExpiry
  repeat' first
    | intro _
    | (with_reducible first | assumption | exact SameNvm.refl _ | apply OutSameNvm.next | apply State.wr_sameNvm)
    | extract_lets

theorem execKeyProgram_sameNvm {r : State} {slot : BitVec 4} {flags : BitVec 3} {s : State} (hk : SameNvm r s) :
    OutSameNvm r (execKeyProgram slot flags s) := by
  unfold execKeyProgram
  repeat' first
    | intro _
    | (with_reducible first | assumption | exact SameNvm.refl _ | apply OutSameNvm.next | apply State.access_sameNvm | apply State.secGo_sameNvm)
    | extract_lets | dsimp only

theorem execKeyRevoke_sameNvm {r : State} {slot : BitVec 4} {flags : BitVec 3} {s : State} (hk : SameNvm r s) :
    OutSameNvm r (execKeyRevoke slot flags s) := by
  unfold execKeyRevoke
  repeat' first
    | intro _
    | (with_reducible first | assumption | exact SameNvm.refl _ | apply OutSameNvm.next | apply State.access_sameNvm | apply State.secGo_sameNvm)
    | extract_lets | dsimp only

theorem execDebugUnlock_sameNvm {r : State} {scope : BitVec 4} {flags : BitVec 3} {s : State} (hk : SameNvm r s) :
    OutSameNvm r (execDebugUnlock scope flags s) := by
  unfold execDebugUnlock
  repeat' first
    | intro _
    | (with_reducible first | assumption | exact SameNvm.refl _ | apply OutSameNvm.next | apply State.access_sameNvm | apply State.secGo_sameNvm)
    | extract_lets | dsimp only

theorem execRollbackSet_sameNvm {r : State} {arg : BitVec 4} {flags : BitVec 3} {s : State} (hk : SameNvm r s) :
    OutSameNvm r (execRollbackSet arg flags s) := by
  unfold execRollbackSet
  repeat' first
    | intro _
    | (with_reducible first | assumption | exact SameNvm.refl _ | apply OutSameNvm.next | apply State.access_sameNvm | apply State.secGo_sameNvm)
    | extract_lets | dsimp only

theorem execFactorySave_sameNvm {r : State} {arg : BitVec 4} {flags : BitVec 3} {s : State} (hk : SameNvm r s) :
    OutSameNvm r (execFactorySave arg flags s) := by
  unfold execFactorySave
  repeat' first
    | intro _
    | (with_reducible first | assumption | exact SameNvm.refl _ | apply OutSameNvm.next | apply State.access_sameNvm | apply State.secGo_sameNvm)
    | extract_lets | dsimp only

theorem execSecOpInvalid_sameNvm {r : State} {op : Option (Fin 8)} {arg : BitVec 4} {flags : BitVec 3} {s : State} (hk : SameNvm r s) :
    OutSameNvm r (execSecOpInvalid op arg flags s) := by
  unfold execSecOpInvalid
  repeat' first
    | intro _
    | (with_reducible first | assumption | exact SameNvm.refl _ | apply OutSameNvm.next | apply State.access_sameNvm | apply State.secGo_sameNvm)
    | extract_lets | dsimp only | split

theorem execTokenVerifyDone_sameNvm {r : State} {s : State} (hk : SameNvm r s) :
    OutSameNvm r (execTokenVerifyDone s) := by
  unfold execTokenVerifyDone
  repeat' first
    | intro _
    | (with_reducible first | assumption | exact SameNvm.refl _ | apply OutSameNvm.next | apply State.wr_sameNvm | apply State.raise_sameNvm | apply State.secEnd_sameNvm | apply State.debugOpen_sameNvm | apply State.secWrite_sameNvm | apply OutSameNvm.cond | apply SameNvm.cond)
    | extract_lets | split

end Sys2Proof.Machine
end

