-- ==== Sys2Proof/Laws/StoredImages.lean ====
section
/-!
SUPPORT. The operations of Images that leave the NVM.
-/
set_option Elab.async false
set_option linter.all false
namespace Sys2Proof.Machine

theorem State.activeImage_sameNvm {r : State} {s : State} {i : Image} {slot : Nat} {fallback : Bool} (hk : SameNvm r s) :
    SameNvm r (State.activeImage s i slot fallback) := by
  unfold State.activeImage
  repeat' first
    | intro _
    | (with_reducible first | assumption | exact SameNvm.refl _ | apply State.puts_sameNvm)
    | extract_lets

theorem State.laneDefaults_sameNvm {r : State} {s : State} {i : Image} (hk : SameNvm r s) :
    SameNvm r (State.laneDefaults s i) := by
  unfold State.laneDefaults
  repeat' first
    | intro _
    | (with_reducible first | assumption | exact SameNvm.refl _ | apply State.presetWrite_sameNvm | apply SameNvm.each)
    | extract_lets | dsimp only

theorem State.loadImage_sameNvm {r : State} {s : State} {i : Image} {slot : Nat} {fallback : Bool} (hk : SameNvm r s) :
    SameNvm r (State.loadImage s i slot fallback) := by
  unfold State.loadImage
  repeat' first
    | intro _
    | (with_reducible first | assumption | exact SameNvm.refl _ | apply State.arcClusterOff_sameNvm | apply State.xbarOff_sameNvm | apply State.loadStores_sameNvm | apply State.resetFields_sameNvm | apply State.mapsOfMarks_sameNvm | apply State.puts_sameNvm | apply State.activeImage_sameNvm | apply State.loadSkipped_sameNvm | apply State.loadLane_sameNvm | apply State.loadSteal_sameNvm | apply State.wr_sameNvm | apply State.laneDefaults_sameNvm | apply State.dvfsKick_sameNvm | apply SameNvm.each)
    | extract_lets | dsimp only | split
    | (with_reducible first | apply SameNvm.other)

theorem State.imgRefuse_sameNvm {r : State} {s : State} {op code : Nat} {lane : Option Nat} (hk : SameNvm r s) :
    SameNvm r (State.imgRefuse s op code lane) := by
  unfold State.imgRefuse
  repeat' first
    | intro _
    | (with_reducible first | assumption | exact SameNvm.refl _ | apply State.imgFail_sameNvm | apply State.imgReport_sameNvm | apply State.wr_sameNvm | apply SameNvm.cond)
    | extract_lets | split

theorem State.imgBegin_sameNvm {r : State} {s : State} {op slot lead st : Nat} (hk : SameNvm r s) :
    SameNvm r (State.imgBegin s op slot lead st) := by
  unfold State.imgBegin
  repeat' first
    | intro _
    | (with_reducible first | assumption | exact SameNvm.refl _ | apply State.puts_sameNvm)
    | extract_lets

theorem State.imgCommitFullNow_sameNvm {r : State} {s : State} (hk : SameNvm r s) :
    SameNvm r (State.imgCommitFullNow s) := by
  unfold State.imgCommitFullNow
  repeat' first
    | intro _
    | (with_reducible first | assumption | exact SameNvm.refl _ | apply State.imgRefuse_sameNvm | apply State.imgBegin_sameNvm | apply State.abortTests_sameNvm | apply State.puts_sameNvm | apply State.lrxOff_sameNvm | apply State.hifOff_sameNvm | apply SameNvm.each | apply SameNvm.cond)
    | extract_lets | dsimp only | split

theorem State.imgCommitPartialNow_sameNvm {r : State} {s : State} {lead : Nat} (hk : SameNvm r s) :
    SameNvm r (State.imgCommitPartialNow s lead) := by
  unfold State.imgCommitPartialNow
  repeat' first
    | intro _
    | (with_reducible first | assumption | exact SameNvm.refl _ | apply State.imgRefuse_sameNvm | apply State.imgBegin_sameNvm | apply State.puts_sameNvm | apply SameNvm.cond)
    | extract_lets | dsimp only | split

theorem State.imgGo_sameNvm {r : State} {s : State} {op slot lead : Nat} (hk : SameNvm r s) :
    SameNvm r (State.imgGo s op slot lead) := by
  unfold State.imgGo
  repeat' first
    | intro _
    | (with_reducible first | assumption | exact SameNvm.refl _ | apply State.puts_sameNvm | apply State.pcAbort_sameNvm | apply State.imgRefuse_sameNvm | apply State.wr_sameNvm | apply State.free_sameNvm | apply State.imgBegin_sameNvm | apply State.imgCommitFullNow_sameNvm | apply State.imgCommitPartialNow_sameNvm | apply SameNvm.cond | apply SameNvm.cond_snd)
    | extract_lets | dsimp only | split

theorem execImgValidate_sameNvm {r : State} {slot : BitVec 1} {s : State} (hk : SameNvm r s) :
    OutSameNvm r (execImgValidate slot s) := by
  unfold execImgValidate
  repeat' first
    | intro _
    | (with_reducible first | assumption | exact SameNvm.refl _ | apply OutSameNvm.next | apply State.access_sameNvm | apply State.imgGo_sameNvm)
    | extract_lets | dsimp only

theorem execImgCommitFull_sameNvm {r : State} {slot : BitVec 1} {s : State} (hk : SameNvm r s) :
    OutSameNvm r (execImgCommitFull slot s) := by
  unfold execImgCommitFull
  repeat' first
    | intro _
    | (with_reducible first | assumption | exact SameNvm.refl _ | apply OutSameNvm.next | apply State.access_sameNvm | apply State.imgGo_sameNvm)
    | extract_lets | dsimp only

theorem execImgCommitPartial_sameNvm {r : State} {slot : BitVec 1} {lead : Lane} {s : State} (hk : SameNvm r s) :
    OutSameNvm r (execImgCommitPartial slot lead s) := by
  unfold execImgCommitPartial
  repeat' first
    | intro _
    | (with_reducible first | assumption | exact SameNvm.refl _ | apply OutSameNvm.next | apply State.access_sameNvm | apply State.imgGo_sameNvm)
    | extract_lets | dsimp only

theorem execImgAbort_sameNvm {r : State} {s : State} (hk : SameNvm r s) :
    OutSameNvm r (execImgAbort s) := by
  unfold execImgAbort
  repeat' first
    | intro _
    | (with_reducible first | assumption | exact SameNvm.refl _ | apply OutSameNvm.next | apply State.access_sameNvm | apply State.imgGo_sameNvm)
    | extract_lets | dsimp only

theorem execImgMakeBoot_sameNvm {r : State} {slot : BitVec 1} {s : State} (hk : SameNvm r s) :
    OutSameNvm r (execImgMakeBoot slot s) := by
  unfold execImgMakeBoot
  repeat' first
    | intro _
    | (with_reducible first | assumption | exact SameNvm.refl _ | apply OutSameNvm.next | apply State.access_sameNvm | apply State.imgGo_sameNvm)
    | extract_lets | dsimp only

theorem execImgOpInvalid_sameNvm {r : State} {op : BitVec 4} {slot : BitVec 2} {lead : Lane} {s : State} (hk : SameNvm r s) :
    OutSameNvm r (execImgOpInvalid op slot lead s) := by
  unfold execImgOpInvalid
  repeat' first
    | intro _
    | (with_reducible first | assumption | exact SameNvm.refl _ | apply OutSameNvm.next | apply State.access_sameNvm | apply State.imgGo_sameNvm | apply OutSameNvm.cond | apply SameNvm.cond)
    | extract_lets | dsimp only | split

theorem State.noImage_sameNvm {r : State} {s : State} (hk : SameNvm r s) :
    SameNvm r (State.noImage s) := by
  unfold State.noImage
  repeat' first
    | intro _
    | (with_reducible first | assumption | exact SameNvm.refl _ | apply State.wr_sameNvm | apply State.lrxOff_sameNvm | apply State.ltxFaultEnd_sameNvm | apply State.hifOff_sameNvm | apply State.puts_sameNvm | apply State.raise_sameNvm | apply SameNvm.each)
    | extract_lets | dsimp only | split
    | (with_reducible first | apply SameNvm.other)

theorem State.bootValidated_sameNvm {r : State} {s : State} {i : Image} (hk : SameNvm r s) :
    SameNvm r (State.bootValidated s i) := by
  unfold State.bootValidated
  repeat' first
    | intro _
    | (with_reducible first | assumption | exact SameNvm.refl _ | apply State.puts_sameNvm | apply State.raise_sameNvm | apply State.imgFail_sameNvm | apply State.wr_sameNvm | apply State.noImage_sameNvm | apply SameNvm.cond)
    | extract_lets | dsimp only | split
    | (with_reducible first | apply SameNvm.other)

theorem execImgValidationDone_sameNvm {r : State} {f : ImageFile} {s : State} (hk : SameNvm r s) :
    OutSameNvm r (execImgValidationDone f s) := by
  unfold execImgValidationDone
  repeat' first
    | intro _
    | (with_reducible first | assumption | exact SameNvm.refl _ | apply OutSameNvm.next | apply State.bootValidated_sameNvm | apply State.wr_sameNvm | apply State.puts_sameNvm | apply State.imgEnd_sameNvm | apply State.imgFail_sameNvm | apply OutSameNvm.cond | apply SameNvm.cond)
    | extract_lets | dsimp only | split
    | (with_reducible first | apply SameNvm.other)

theorem execPcIsolate_sameNvm {r : State} {s : State} (hk : SameNvm r s) :
    OutSameNvm r (execPcIsolate s) := by
  unfold execPcIsolate
  repeat' first
    | intro _
    | (with_reducible first | assumption | exact SameNvm.refl _ | apply OutSameNvm.next | apply State.wr_sameNvm | apply State.endTest_sameNvm | apply SameNvm.each | apply OutSameNvm.cond | apply SameNvm.cond)
    | extract_lets | dsimp only | split

theorem execPcPause_sameNvm {r : State} {n : Lane} {egress : Bool} {s : State} (hk : SameNvm r s) :
    OutSameNvm r (execPcPause n egress s) := by
  unfold execPcPause
  repeat' first
    | intro _
    | (with_reducible first | assumption | exact SameNvm.refl _ | apply OutSameNvm.next | apply State.puts_sameNvm | apply State.setMask_sameNvm | apply State.fillMark_sameNvm | apply SameNvm.when | apply OutSameNvm.cond | apply SameNvm.cond)
    | extract_lets | dsimp only | split

theorem execPcTableWrite_sameNvm {r : State} {s : State} (hk : SameNvm r s) :
    OutSameNvm r (execPcTableWrite s) := by
  unfold execPcTableWrite
  repeat' first
    | intro _
    | (with_reducible first | assumption | exact SameNvm.refl _ | apply OutSameNvm.next | apply State.loadStores_sameNvm | apply State.bgDone_sameNvm | apply State.pcTables_sameNvm | apply State.wr_sameNvm | apply State.dvfsKick_sameNvm | apply State.lrxFault_sameNvm | apply State.critStandby_sameNvm | apply State.enforce_sameNvm | apply SameNvm.each | apply SameNvm.when | apply OutSameNvm.cond | apply SameNvm.cond)
    | extract_lets | dsimp only | split
    | (with_reducible first | apply SameNvm.other)

theorem execPcResume_sameNvm {r : State} {n : Lane} {egress : Bool} {s : State} (hk : SameNvm r s) :
    OutSameNvm r (execPcResume n egress s) := by
  unfold execPcResume
  repeat' first
    | intro _
    | (with_reducible first | assumption | exact SameNvm.refl _ | apply OutSameNvm.next | apply State.setMask_sameNvm | apply State.fillMark_sameNvm | apply State.bump_sameNvm | apply State.wr_sameNvm | apply State.pcFinish_sameNvm | apply SameNvm.when | apply OutSameNvm.cond | apply SameNvm.cond)
    | extract_lets | dsimp only | split

theorem execImgPcClr_sameNvm {r : State} {s : State} (hk : SameNvm r s) :
    OutSameNvm r (execImgPcClr s) := by
  unfold execImgPcClr
  repeat' first
    | intro _
    | (with_reducible first | assumption | exact SameNvm.refl _ | apply OutSameNvm.next | apply State.access_sameNvm | apply State.puts_sameNvm)
    | extract_lets | dsimp only

theorem execWatchdogMiss_sameNvm {r : State} {core : Fin 4} {s : State} (hk : SameNvm r s) :
    OutSameNvm r (execWatchdogMiss core s) := by
  unfold execWatchdogMiss
  repeat' first
    | intro _
    | (with_reducible first | assumption | exact SameNvm.refl _ | apply OutSameNvm.next | apply State.puts_sameNvm | apply State.raise_sameNvm | apply OutSameNvm.cond | apply SameNvm.cond)
    | extract_lets | split

theorem execFwRestartDone_sameNvm {r : State} {bytes : List (BitVec 8)} {s : State} (hk : SameNvm r s) :
    OutSameNvm r (execFwRestartDone bytes s) := by
  unfold execFwRestartDone
  repeat' first
    | intro _
    | (with_reducible first | assumption | exact SameNvm.refl _ | apply OutSameNvm.next | apply State.wr_sameNvm | apply State.bump_sameNvm | apply State.raise_sameNvm | apply State.emit_sameNvm | apply State.noImage_sameNvm | apply OutSameNvm.cond | apply SameNvm.cond)
    | extract_lets | dsimp only | split

end Sys2Proof.Machine
end

