-- ==== Sys2Proof/Laws/StoredBoot.lean ====
section
/-!
SUPPORT. The operations of Boot that leave the NVM.
-/
set_option Elab.async false
set_option linter.all false
namespace Sys2Proof.Machine

theorem execVddAonPowerGood_sameNvm {r : State} {s : State} (hk : SameNvm r s) :
    OutSameNvm r (execVddAonPowerGood s) := by
  unfold execVddAonPowerGood
  repeat' first
    | intro _
    | (with_reducible first | assumption | exact SameNvm.refl _ | apply OutSameNvm.next | apply State.puts_sameNvm | apply OutSameNvm.cond | apply SameNvm.cond)
    | extract_lets | split

theorem State.loadFloor_sameNvm {r : State} {s : State} {ok : BitVec 3} (hk : SameNvm r s) :
    SameNvm r (State.loadFloor s ok) := by
  unfold State.loadFloor
  repeat' first
    | intro _
    | (with_reducible first | assumption | exact SameNvm.refl _ | apply State.wr_sameNvm | apply State.wrb_sameNvm | apply SameNvm.foldl)
    | extract_lets | dsimp only

theorem State.loadSafety_sameNvm {r : State} {s : State} {ok : Bool} (hk : SameNvm r s) :
    SameNvm r (State.loadSafety s ok) := by
  unfold State.loadSafety
  repeat' first
    | intro _
    | (with_reducible first | assumption | exact SameNvm.refl _ | apply State.wr_sameNvm | apply State.puts_sameNvm | apply State.raise_sameNvm | apply SameNvm.each | apply SameNvm.cond | apply SameNvm.cond_snd)
    | extract_lets | dsimp only | split

theorem State.powerUpValues_sameNvm {r : State} {s : State} (hk : SameNvm r s) :
    SameNvm r (State.powerUpValues s) := by
  unfold State.powerUpValues
  repeat' first
    | intro _
    | (with_reducible first | assumption | exact SameNvm.refl _ | apply State.puts_sameNvm | apply State.wr_sameNvm | apply SameNvm.each | apply SameNvm.cond)
    | extract_lets | dsimp only | split

theorem State.loadFactory_sameNvm {r : State} {s : State} {ok : Bool} (hk : SameNvm r s) :
    SameNvm r (State.loadFactory s ok) := by
  unfold State.loadFactory
  repeat' first
    | intro _
    | (with_reducible first | assumption | exact SameNvm.refl _ | apply State.wr_sameNvm | apply State.puts_sameNvm | apply SameNvm.each | apply SameNvm.cond)
    | extract_lets | dsimp only | split

theorem State.loadPages_sameNvm {r : State} {s : State} (hk : SameNvm r s) :
    SameNvm r (State.loadPages s) := by
  unfold State.loadPages
  repeat' first
    | intro _
    | (with_reducible first | assumption | exact SameNvm.refl _ | apply SameNvm.cond)
    | extract_lets | split
    | (with_reducible first | apply SameNvm.other)

theorem execSupplyReady_sameNvm {r : State} {voutLinear : Bool} {s : State} (hk : SameNvm r s) :
    OutSameNvm r (execSupplyReady voutLinear s) := by
  unfold execSupplyReady
  repeat' first
    | intro _
    | (with_reducible first | assumption | exact SameNvm.refl _ | apply OutSameNvm.next | apply State.puts_sameNvm | apply State.emit_sameNvm | apply State.raise_sameNvm | apply State.loadPages_sameNvm | apply State.pllCalStart_sameNvm | apply State.refreshRun_sameNvm | apply SameNvm.when | apply OutSameNvm.cond | apply SameNvm.cond)
    | extract_lets | dsimp only | split

theorem State.wakeFailed_sameNvm {r : State} {s : State} (hk : SameNvm r s) :
    SameNvm r (State.wakeFailed s) := by
  unfold State.wakeFailed
  repeat' first
    | intro _
    | (with_reducible first | assumption | exact SameNvm.refl _ | apply State.deepEnter_sameNvm | apply State.puts_sameNvm | apply State.wr_sameNvm | apply State.bump_sameNvm | apply State.raise_sameNvm | apply SameNvm.when | apply SameNvm.cond)
    | extract_lets | dsimp only | split

theorem execSupplyReadyTimeout_sameNvm {r : State} {s : State} (hk : SameNvm r s) :
    OutSameNvm r (execSupplyReadyTimeout s) := by
  unfold execSupplyReadyTimeout
  repeat' first
    | intro _
    | (with_reducible first | assumption | exact SameNvm.refl _ | apply OutSameNvm.next | apply State.puts_sameNvm | apply State.wakeFailed_sameNvm | apply State.wr_sameNvm | apply OutSameNvm.cond | apply SameNvm.cond)
    | extract_lets | split

theorem execWakeRetry_sameNvm {r : State} {s : State} (hk : SameNvm r s) :
    OutSameNvm r (execWakeRetry s) := by
  unfold execWakeRetry
  repeat' first
    | intro _
    | (with_reducible first | assumption | exact SameNvm.refl _ | apply OutSameNvm.next | apply State.puts_sameNvm | apply OutSameNvm.cond | apply SameNvm.cond)
    | extract_lets | split

theorem execDeepImageRereadDone_sameNvm {r : State} {bytes : List (BitVec 8)} {recOk : Bool} {s : State} (hk : SameNvm r s) :
    OutSameNvm r (execDeepImageRereadDone bytes recOk s) := by
  unfold execDeepImageRereadDone
  repeat' first
    | intro _
    | (with_reducible first | assumption | exact SameNvm.refl _ | apply OutSameNvm.next | apply State.wr_sameNvm | apply State.raise_sameNvm | apply State.puts_sameNvm | apply OutSameNvm.cond | apply SameNvm.cond)
    | extract_lets | dsimp only | split
    | (with_reducible first | apply SameNvm.other)

theorem State.startLanes_sameNvm {r : State} {s : State} (hk : SameNvm r s) :
    SameNvm r (State.startLanes s) := by
  unfold State.startLanes
  repeat' first
    | intro _
    | (with_reducible first | assumption | exact SameNvm.refl _ | apply State.wr_sameNvm | apply State.standbyEnter_sameNvm | apply State.puts_sameNvm | apply State.lrxEnableOn_sameNvm | apply State.ltxEnableOn_sameNvm | apply State.hifEnableOn_sameNvm | apply State.activeCheck_sameNvm | apply SameNvm.each | apply SameNvm.when | apply SameNvm.cond)
    | extract_lets | dsimp only | split

theorem State.pllsRestart_sameNvm {r : State} {s : State} (hk : SameNvm r s) :
    SameNvm r (State.pllsRestart s) := by
  unfold State.pllsRestart
  repeat' first
    | intro _
    | (with_reducible first | assumption | exact SameNvm.refl _ | apply State.pllsOff_sameNvm | apply State.wr_sameNvm | apply State.pllCalStart_sameNvm)
    | extract_lets

theorem State.recordLost_sameNvm {r : State} {s : State} {kind : RecordKind} {n : Nat} (hk : SameNvm r s) :
    SameNvm r (State.recordLost s kind n) := by
  unfold State.recordLost
  repeat' first
    | intro _
    | (with_reducible first | assumption | exact SameNvm.refl _ | apply State.recordBad_sameNvm | apply State.resetFields_sameNvm | apply State.access_sameNvm)
    | extract_lets | dsimp only

theorem State.restoreRecords_sameNvm {r : State} {s : State} {badLrx badLtx : BitVec 8} (hk : SameNvm r s) :
    SameNvm r (State.restoreRecords s badLrx badLtx) := by
  unfold State.restoreRecords
  repeat' first
    | intro _
    | (with_reducible first | assumption | exact SameNvm.refl _ | apply State.recordLost_sameNvm | apply State.wrb_sameNvm | apply State.wrNow_sameNvm | apply State.mapsOfMarks_sameNvm | apply SameNvm.each | apply SameNvm.when | apply SameNvm.cond | apply SameNvm.cond_snd)
    | extract_lets | dsimp only | split

theorem State.dropRecords_sameNvm {r : State} {s : State} (hk : SameNvm r s) :
    SameNvm r (State.dropRecords s) := by
  unfold State.dropRecords
  repeat' first
    | intro _
    | (with_reducible first | assumption | exact SameNvm.refl _)
    | extract_lets | dsimp only
    | (with_reducible first | apply SameNvm.other)

theorem execBootCommitDone_sameNvm {r : State} {badLrx badLtx : BitVec 8} {s : State} (hk : SameNvm r s) :
    OutSameNvm r (execBootCommitDone badLrx badLtx s) := by
  unfold execBootCommitDone
  repeat' first
    | intro _
    | (with_reducible first | assumption | exact SameNvm.refl _ | apply OutSameNvm.next | apply State.loadImage_sameNvm | apply State.setDomain_sameNvm | apply State.puts_sameNvm | apply State.xbarFollow_sameNvm | apply State.restoreRecords_sameNvm | apply State.startLanes_sameNvm | apply State.bootTests_sameNvm | apply State.dropRecords_sameNvm | apply State.imgEnd_sameNvm | apply State.pllsRestart_sameNvm | apply SameNvm.each | apply SameNvm.when | apply OutSameNvm.cond | apply SameNvm.cond | apply SameNvm.cond_snd)
    | extract_lets | dsimp only | split
    | (with_reducible first | apply SameNvm.other)

theorem execStandbyWake_sameNvm {r : State} {badLrx badLtx : BitVec 8} {s : State} (hk : SameNvm r s) :
    OutSameNvm r (execStandbyWake badLrx badLtx s) := by
  unfold execStandbyWake
  repeat' first
    | intro _
    | (with_reducible first | assumption | exact SameNvm.refl _ | apply OutSameNvm.next | apply State.setDomain_sameNvm | apply State.puts_sameNvm | apply State.pllCalStart_sameNvm | apply State.restoreRecords_sameNvm | apply State.startLanes_sameNvm | apply State.lrxToCal_sameNvm | apply State.ltxRecheck_sameNvm | apply State.hifStart_sameNvm | apply State.activeCheck_sameNvm | apply SameNvm.each | apply OutSameNvm.cond | apply SameNvm.cond)
    | extract_lets | dsimp only | split

theorem execBootBistDone_sameNvm {r : State} {s : State} (hk : SameNvm r s) :
    OutSameNvm r (execBootBistDone s) := by
  unfold execBootBistDone
  repeat' first
    | intro _
    | (with_reducible first | assumption | exact SameNvm.refl _ | apply OutSameNvm.next | apply State.raise_sameNvm | apply State.wr_sameNvm | apply State.startLanes_sameNvm | apply OutSameNvm.cond | apply SameNvm.cond)
    | extract_lets | dsimp only | split
    | (with_reducible first | apply SameNvm.other)

end Sys2Proof.Machine
end

