-- ==== Sys2Proof/Laws/StoredPages.lean ====
section
/-!
SUPPORT. The operations of Pages that leave the NVM.
-/
set_option Elab.async false
set_option linter.all false
namespace Sys2Proof.Machine

theorem State.setCmisMask_sameNvm {r : State} {s : State} {k : CmisFlag} {n : Nat} {b : Bool} (hk : SameNvm r s) :
    SameNvm r (State.setCmisMask s k n b) := by
  unfold State.setCmisMask
  repeat' first
    | intro _
    | (with_reducible first | assumption | exact SameNvm.refl _ | apply State.wrb_sameNvm | apply State.raise_sameNvm | apply SameNvm.when)
    | extract_lets | dsimp only

theorem State.pageTouch_sameNvm {r : State} {s : State} {bank page off : Nat} (hk : SameNvm r s) :
    SameNvm r (State.pageTouch s bank page off) := by
  unfold State.pageTouch
  repeat' first
    | intro _
    | (with_reducible first | assumption | exact SameNvm.refl _ | apply State.wr_sameNvm | apply SameNvm.each | apply SameNvm.cond)
    | extract_lets | dsimp only | split

theorem State.pageRead_sameNvm {r : State} {s : State} {bank page off k : Nat} (hk : SameNvm r s) :
    SameNvm r (State.pageRead s bank page off k).2 := by
  unfold State.pageRead
  repeat' first
    | intro _
    | (with_reducible first | assumption | exact SameNvm.refl _ | apply State.pageTouch_sameNvm | apply SameNvm.each)
    | extract_lets | dsimp only

theorem State.winWrite_sameNvm {r : State} {s : State} {off v : Nat} (hk : SameNvm r s) :
    SameNvm r (State.winWrite s off v) := by
  unfold State.winWrite
  repeat' first
    | intro _
    | (with_reducible first | assumption | exact SameNvm.refl _ | apply SameNvm.cond)
    | extract_lets | split
    | (with_reducible first | apply SameNvm.other)

theorem State.deviceWrite_sameNvm {r : State} {s : State} {bank page off v : Nat} (hk : SameNvm r s) :
    SameNvm r (State.deviceWrite s bank page off v) := by
  unfold State.deviceWrite
  repeat' first
    | intro _
    | (with_reducible first | assumption | exact SameNvm.refl _ | apply State.winWrite_sameNvm | apply State.setCmisMask_sameNvm | apply SameNvm.each | apply SameNvm.cond)
    | extract_lets | dsimp only | split
    | (with_reducible first | apply SameNvm.other)

theorem State.lowerWrite_sameNvm {r : State} {s : State} {off v : Nat} (hk : SameNvm r s) :
    SameNvm r (State.lowerWrite s off v) := by
  unfold State.lowerWrite
  repeat' first
    | intro _
    | (with_reducible first | assumption | exact SameNvm.refl _ | apply State.wr_sameNvm | apply State.setCmisMask_sameNvm | apply SameNvm.each | apply SameNvm.cond | apply SameNvm.cond_snd)
    | extract_lets | dsimp only | split
    | (with_reducible first | apply SameNvm.other)

theorem State.pageWrite_sameNvm {r : State} {s : State} {bank page off v : Nat} (hk : SameNvm r s) :
    SameNvm r (State.pageWrite s bank page off v) := by
  unfold State.pageWrite
  repeat' first
    | intro _
    | (with_reducible first | assumption | exact SameNvm.refl _ | apply State.lowerWrite_sameNvm | apply State.deviceWrite_sameNvm | apply SameNvm.cond)
    | extract_lets | dsimp only | split
    | (with_reducible first | apply SameNvm.other)

theorem State.pageWrites_sameNvm {r : State} {s : State} {bank page off : Nat} {l : List Nat} (hk : SameNvm r s) :
    SameNvm r (State.pageWrites s bank page off l) := by
  unfold State.pageWrites
  repeat' first
    | intro _
    | (with_reducible first | assumption | exact SameNvm.refl _ | apply State.pageWrite_sameNvm | apply SameNvm.each)
    | extract_lets | dsimp only

theorem State.mcHostWrite_sameNvm {r : State} {s : State} {bank page off : Nat} {l : List Nat} (hk : SameNvm r s) :
    SameNvm r (State.mcHostWrite s bank page off l) := by
  unfold State.mcHostWrite
  repeat' first
    | intro _
    | (with_reducible first | assumption | exact SameNvm.refl _ | apply State.pageWrites_sameNvm | apply State.setMask_sameNvm | apply State.raise_sameNvm | apply State.emit_sameNvm)
    | extract_lets | dsimp only | split

theorem State.windowSet_sameNvm {r s : State} {a w : Nat} (hk : SameNvm r s) : OptSameNvm r (s.windowSet a w) := by
  unfold State.windowSet
  cases windowPlace a with
  | none => exact OptSameNvm.none
  | some p => exact OptSameNvm.some (State.pageWrites_sameNvm hk)

end Sys2Proof.Machine
end

