-- ==== Sys2Proof/Laws/StoredBus.lean ====
section
/-!
SUPPORT. The operations of Bus that leave the NVM.
-/
set_option Elab.async false
set_option linter.all false
namespace Sys2Proof.Machine

theorem State.readReg_sameNvm {r0 : State} {s : State} {a : Nat} {r : Reg} (hk : SameNvm r0 s) :
    SameNvm r0 (State.readReg s a r).2 := by
  unfold State.readReg
  repeat' first
    | intro _
    | (with_reducible first | assumption | exact SameNvm.refl _ | apply SameNvm.foldl | apply SameNvm.cond_snd | apply SameNvm.cond | apply OptSameNvm.getD)
    | extract_lets | dsimp only | split
    | (with_reducible first | apply SameNvm.other)

theorem State.did_sameNvm {r s : State} {g : State → Out} (hk : SameNvm r s)
    (hg : ∀ u, SameNvm r u → OutSameNvm r (g u)) : SameNvm r (s.did g) := by
  have h := hg s hk
  unfold State.did
  split
  · rename_i t e; exact h.elim e
  · exact hk
  · exact hk

theorem State.readAt_sameNvm {r0 : State} {s : State} {a : Nat} {r : Reg} (hk : SameNvm r0 s) :
    SameNvm r0 (State.readAt s a r).2 := by
  unfold State.readAt
  repeat' first
    | intro _
    | (with_reducible first | assumption | exact SameNvm.refl _ | apply State.evfPop_sameNvm | apply State.mbxPop_sameNvm | apply State.did_sameNvm | apply execTsfRead_sameNvm | apply State.readReg_sameNvm | apply State.free_sameNvm | apply SameNvm.cond_snd | apply SameNvm.cond)
    | extract_lets | dsimp only | split

theorem State.nvmWord_sameNvm {r : State} {s : State} {a : Nat} (hk : SameNvm r s) :
    SameNvm r (State.nvmWord s a).2 := by
  unfold State.nvmWord
  repeat' first
    | intro _
    | (with_reducible first | assumption | exact SameNvm.refl _ | apply State.free_sameNvm | apply SameNvm.cond_snd | apply SameNvm.cond)
    | extract_lets | dsimp only | split

theorem State.windowWord_sameNvm {r s : State} {a : Nat} {q : Nat × State} (hk : SameNvm r s)
    (hq : s.windowWord a = some q) : SameNvm r q.2 := by
  unfold State.windowWord at hq
  cases hp : windowPlace a with
  | none => rw [hp] at hq; simp at hq
  | some p =>
    rw [hp] at hq
    simp only [Option.map_some, Option.some.injEq] at hq
    subst hq
    exact State.pageRead_sameNvm hk

theorem readEnds_sameNvm {r : State} {e : BusEnd} {q : Nat × State} (h : SameNvm r q.2) : SameNvm r (readEnds e q).2 := h

theorem State.busRead_sameNvm {r s : State} {addr : Nat} (hk : SameNvm r s) : SameNvm r (s.busRead addr).2 := by
  unfold State.busRead
  extract_lets a
  clear_value a
  with_reducible apply SameNvm.cond_snd
  · split
    · rename_i q hq
      with_reducible apply readEnds_sameNvm
      exact State.windowWord_sameNvm hk hq
    · with_reducible apply readEnds_sameNvm
      with_reducible exact State.busErr_sameNvm hk
  · with_reducible apply SameNvm.cond_snd
    · with_reducible apply readEnds_sameNvm
      with_reducible exact State.nvmWord_sameNvm hk
    · split
      · with_reducible apply readEnds_sameNvm
        with_reducible exact State.busErr_sameNvm hk
      · with_reducible apply SameNvm.cond_snd
        · with_reducible apply readEnds_sameNvm
          with_reducible exact State.readAt_sameNvm hk
        · with_reducible apply readEnds_sameNvm
          with_reducible exact State.rgStopped_sameNvm hk

theorem State.putPlain_sameNvm {r : State} {s : State} {f : Field} {n i v : Nat} (hk : SameNvm r s) :
    SameNvm r (State.putPlain s f n i v) := by
  unfold State.putPlain
  repeat' first
    | intro _
    | (with_reducible first | assumption | exact SameNvm.refl _ | apply State.wr_sameNvm | apply State.expertMark_sameNvm)
    | extract_lets

theorem State.standbySw_sameNvm {r : State} {s : State} {v : Nat} (hk : SameNvm r s) :
    SameNvm r (State.standbySw s v) := by
  unfold State.standbySw
  repeat' first
    | intro _
    | (with_reducible first | assumption | exact SameNvm.refl _ | apply State.did_sameNvm | apply execStandbySwWrite_sameNvm | apply State.wr_sameNvm | apply State.wakeHeld_sameNvm | apply State.standbyRelease_sameNvm | apply State.deviceAbandon_sameNvm | apply SameNvm.cond)
    | extract_lets | split

theorem State.dpllSource_sameNvm {r : State} {s : State} {v : Nat} (hk : SameNvm r s) :
    SameNvm r (State.dpllSource s v) := by
  unfold State.dpllSource
  repeat' first
    | intro _
    | (with_reducible first | assumption | exact SameNvm.refl _ | apply State.puts_sameNvm | apply State.wr_sameNvm | apply SameNvm.when | apply SameNvm.cond)
    | extract_lets | dsimp only | split
    | (with_reducible first | apply SameNvm.other)

theorem State.basePut_sameNvm {r : State} {s : State} {n k v : Nat} (hk : SameNvm r s) :
    SameNvm r (State.basePut s n k v) := by
  unfold State.basePut
  repeat' first
    | intro _
    | (with_reducible first | assumption | exact SameNvm.refl _ | apply State.wr_sameNvm | apply State.puts_sameNvm | apply SameNvm.cond)
    | extract_lets | split

theorem State.laneMaskPut_sameNvm {r : State} {s : State} {v : Nat} (hk : SameNvm r s) :
    SameNvm r (State.laneMaskPut s v) := by
  unfold State.laneMaskPut
  repeat' first
    | intro _
    | (with_reducible first | assumption | exact SameNvm.refl _ | apply State.wr_sameNvm | apply State.envTrip_sameNvm | apply SameNvm.each | apply SameNvm.cond)
    | extract_lets | dsimp only | split

theorem State.monEnPut_sameNvm {r : State} {s : State} {v : Nat} (hk : SameNvm r s) :
    SameNvm r (State.monEnPut s v) := by
  unfold State.monEnPut
  repeat' first
    | intro _
    | (with_reducible first | assumption | exact SameNvm.refl _ | apply State.wr_sameNvm | apply State.monSwitch_sameNvm | apply SameNvm.each)
    | extract_lets | dsimp only

theorem State.monPut_sameNvm {r : State} {s : State} {f : Field} {c v : Nat} (hk : SameNvm r s) :
    SameNvm r (State.monPut s f c v) := by
  unfold State.monPut
  repeat' first
    | intro _
    | (with_reducible first | assumption | exact SameNvm.refl _ | apply State.wr_sameNvm | apply State.monSwitch_sameNvm | apply SameNvm.cond)
    | extract_lets | split

theorem State.enablePut_sameNvm {r : State} {s : State} {v : Nat} {on off : State → Out} (hk : SameNvm r s) (hgon : ∀ u, SameNvm r u → OutSameNvm r (on u)) (hgoff : ∀ u, SameNvm r u → OutSameNvm r (off u)) :
    SameNvm r (State.enablePut s v on off) := by
  unfold State.enablePut
  repeat' first
    | intro _
    | (with_reducible first | apply hgoff | apply hgon | assumption | exact SameNvm.refl _ | apply State.did_sameNvm | apply SameNvm.cond)
    | extract_lets | split

theorem State.sleepPut_sameNvm {r : State} {s : State} {lane : Lane} {egress : Bool} {v : Nat} (hk : SameNvm r s) :
    SameNvm r (State.sleepPut s lane egress v) := by
  unfold State.sleepPut
  repeat' first
    | intro _
    | (with_reducible first | assumption | exact SameNvm.refl _ | apply State.enablePut_sameNvm | apply execSleepRequest_sameNvm | apply execSleepRequestClear_sameNvm | apply SameNvm.cond)
    | extract_lets | split

theorem State.putField_sameNvm {r : State} {s : State} {f : Field} {n i v : Nat} (hk : SameNvm r s) :
    SameNvm r (State.putField s f n i v) := by
  unfold State.putField
  repeat' first
    | intro _
    | (with_reducible first | assumption | exact SameNvm.refl _ | apply State.presetWrite_sameNvm | apply State.enablePut_sameNvm | apply execLrxEnable_sameNvm | apply execLrxDisable_sameNvm | apply execTxEnableRequest_sameNvm | apply execTxDisable_sameNvm | apply execHifEnable_sameNvm | apply execHifDisable_sameNvm | apply State.did_sameNvm | apply execAlignDoneWrite_sameNvm | apply State.wr_sameNvm | apply State.leqFollow_sameNvm | apply State.wrInt_sameNvm | apply State.expertMark_sameNvm | apply State.putPlain_sameNvm | apply State.sleepPut_sameNvm | apply execBudgetWrite_sameNvm | apply State.standbySw_sameNvm | apply State.standbyRequest_sameNvm | apply State.dvfsKick_sameNvm | apply State.writePoints_sameNvm | apply State.writeVout_sameNvm | apply State.evfFormatSet_sameNvm | apply State.mbxResize_sameNvm | apply State.dpllSource_sameNvm | apply State.exchClear_sameNvm | apply State.xbarFollow_sameNvm | apply State.monEnPut_sameNvm | apply State.monPut_sameNvm | apply State.basePut_sameNvm | apply State.raise_sameNvm | apply State.laneMaskPut_sameNvm | apply SameNvm.when | apply SameNvm.cond)
    | extract_lets | dsimp only | split

theorem State.putSlots_sameNvm {r0 : State} {s : State} {r : Reg} {v : Nat} (hk : SameNvm r0 s) :
    SameNvm r0 (State.putSlots s r v) := by
  unfold State.putSlots
  repeat' first
    | intro _
    | (with_reducible first | assumption | exact SameNvm.refl _ | apply State.access_sameNvm | apply State.putField_sameNvm | apply SameNvm.each | apply SameNvm.cond)
    | extract_lets | dsimp only | split

theorem State.regSettle_sameNvm {r0 : State} {s : State} {r : Reg} (hk : SameNvm r0 s) :
    SameNvm r0 (State.regSettle s r) := by
  unfold State.regSettle
  repeat' first
    | intro _
    | (with_reducible first | assumption | exact SameNvm.refl _ | apply State.configSettle_sameNvm | apply State.wr_sameNvm | apply State.puts_sameNvm | apply SameNvm.each | apply SameNvm.when | apply SameNvm.cond)
    | extract_lets | dsimp only | split

theorem State.clearSlots_sameNvm {r0 : State} {s : State} {r : Reg} {v : Nat} (hk : SameNvm r0 s) :
    SameNvm r0 (State.clearSlots s r v) := by
  unfold State.clearSlots
  repeat' first
    | intro _
    | (with_reducible first | assumption | exact SameNvm.refl _ | apply State.access_sameNvm | apply State.clearLasting_sameNvm | apply State.wr_sameNvm | apply SameNvm.each | apply SameNvm.cond)
    | extract_lets | dsimp only | split

theorem State.forceSlots_sameNvm {r0 : State} {s : State} {r : Reg} {v : Nat} (hk : SameNvm r0 s) :
    SameNvm r0 (State.forceSlots s r v) := by
  unfold State.forceSlots
  repeat' first
    | intro _
    | (with_reducible first | assumption | exact SameNvm.refl _ | apply State.access_sameNvm | apply State.wr_sameNvm | apply SameNvm.each | apply SameNvm.cond)
    | extract_lets | dsimp only | split
    | (with_reducible first | apply SameNvm.other)

theorem State.bistCmd_sameNvm {r : State} {s : State} (hk : SameNvm r s) :
    SameNvm r (State.bistCmd s) := by
  unfold State.bistCmd
  repeat' first
    | intro _
    | (with_reducible first | assumption | exact SameNvm.refl _ | apply State.bistGo_sameNvm)
    | extract_lets

theorem State.todCmd_sameNvm {r : State} {s : State} (hk : SameNvm r s) :
    SameNvm r (State.todCmd s) := by
  unfold State.todCmd
  repeat' first
    | intro _
    | (with_reducible first | assumption | exact SameNvm.refl _ | apply State.did_sameNvm | apply execTodSetNow_sameNvm | apply execTodSetAtTimeIn_sameNvm | apply execTodStep_sameNvm | apply execTodSlew_sameNvm)
    | extract_lets | dsimp only | split

theorem State.startCommand_sameNvm {r : State} {s : State} {f : Field} {n v : Nat} (hk : SameNvm r s) :
    SameNvm r (State.startCommand s f n v) := by
  unfold State.startCommand
  repeat' first
    | intro _
    | (with_reducible first | assumption | exact SameNvm.refl _ | apply State.did_sameNvm | apply execStraitErrClr_sameNvm | apply State.imgGo_sameNvm | apply execImgPcClr_sameNvm | apply execLrxCommit_sameNvm | apply execLrxRestart_sameNvm | apply execLrxCntClr_sameNvm | apply execLeqCommit_sameNvm | apply execCoefSnap_sameNvm | apply execLeqCntClr_sameNvm | apply execHistStart_sameNvm | apply execLtxCommit_sameNvm | apply execLtxCntClr_sameNvm | apply execLtxRestart_sameNvm | apply execWakeSend_sameNvm | apply execLfrCntClr_sameNvm | apply execReneg_sameNvm | apply execProfileChange_sameNvm | apply execArcCntClr_sameNvm | apply execArcClCntClr_sameNvm | apply execHifCommit_sameNvm | apply execHifCntClr_sameNvm | apply execHifRetrain_sameNvm | apply execHifSlip_sameNvm | apply execHifGlbCntClr_sameNvm | apply execTimCntClr_sameNvm | apply State.todCmd_sameNvm | apply execTsfFlush_sameNvm | apply execTimLnCntClr_sameNvm | apply execRestartAvg_sameNvm | apply execClkCntClr_sameNvm | apply execPllCalReq_sameNvm | apply execOptCntClr_sameNvm | apply execEnvSave_sameNvm | apply execPbTransaction_sameNvm | apply execMonCntClr_sameNvm | apply execMonSwap_sameNvm | apply execPwrCntClr_sameNvm | apply execDeep_sameNvm | apply execThmCntClr_sameNvm | apply execCritClr_sameNvm | apply execRestore_sameNvm | apply execHltCntClr_sameNvm | apply State.bistCmd_sameNvm | apply execMgtCntClr_sameNvm | apply State.mbxAbort_sameNvm | apply State.evfFlushNow_sameNvm | apply State.secGo_sameNvm)
    | extract_lets | dsimp only | split

theorem State.commandSlots_sameNvm {r0 : State} {s : State} {r : Reg} {v : Nat} (hk : SameNvm r0 s) :
    SameNvm r0 (State.commandSlots s r v) := by
  unfold State.commandSlots
  repeat' first
    | intro _
    | (with_reducible first | assumption | exact SameNvm.refl _ | apply State.access_sameNvm | apply State.startCommand_sameNvm | apply State.mbxWord_sameNvm | apply SameNvm.each | apply SameNvm.cond)
    | extract_lets | dsimp only | split

theorem State.writeReg_sameNvm {r0 : State} {s : State} {r : Reg} {v : Nat} (hk : SameNvm r0 s) :
    SameNvm r0 (State.writeReg s r v) := by
  unfold State.writeReg
  repeat' first
    | intro _
    | (with_reducible first | assumption | exact SameNvm.refl _ | apply State.putSlots_sameNvm | apply State.regSettle_sameNvm | apply State.clearSlots_sameNvm | apply State.forceSlots_sameNvm | apply State.commandSlots_sameNvm)
    | extract_lets

theorem State.writeAt_sameNvm {r0 : State} {s : State} {a : Nat} {r : Reg} {w : Nat} (hk : SameNvm r0 s) :
    SameNvm r0 (State.writeAt s a r w) := by
  unfold State.writeAt
  repeat' first
    | intro _
    | (with_reducible first | assumption | exact SameNvm.refl _ | apply State.writeReg_sameNvm | apply SameNvm.cond | apply OptSameNvm.getD)
    | extract_lets | dsimp only | split
    | (with_reducible first | apply SameNvm.other)

theorem State.busWrite_sameNvm {r : State} {s : State} {addr w : Nat} (hk : SameNvm r s) :
    SameNvm r (State.busWrite s addr w).2 := by
  unfold State.busWrite
  repeat' first
    | intro _
    | (with_reducible first | assumption | exact SameNvm.refl _ | apply State.windowSet_sameNvm | apply State.busErr_sameNvm | apply State.writeAt_sameNvm | apply State.rgStopped_sameNvm | apply SameNvm.cond_snd | apply SameNvm.cond)
    | extract_lets | dsimp only | split | (with_reducible refine OptSameNvm.elim (State.windowSet_sameNvm ?_) (by assumption))

theorem State.fabric_sameNvm {r : State} {s : State} {g : State → State} (hk : SameNvm r s) (hgg : ∀ u, SameNvm r u → SameNvm r (g u)) :
    SameNvm r (State.fabric s g) := by
  unfold State.fabric
  repeat' first
    | intro _
    | (with_reducible first | apply hgg | assumption | exact SameNvm.refl _ | apply SameNvm.cond)
    | extract_lets | split

theorem execRegisterWrite_sameNvm {r : State} {a w : Word} {s : State} (hk : SameNvm r s) :
    OutSameNvm r (execRegisterWrite a w s) := by
  unfold execRegisterWrite
  repeat' first
    | intro _
    | (with_reducible first | assumption | exact SameNvm.refl _ | apply OutSameNvm.next | apply State.fabric_sameNvm | apply State.busWrite_sameNvm)
    | extract_lets | dsimp only

theorem execHltSrcCfgWrite_sameNvm {r : State} {src : Fin 16} {word1 : Bool} {v : Word} {s : State} (hk : SameNvm r s) :
    OutSameNvm r (execHltSrcCfgWrite src word1 v s) := by
  unfold execHltSrcCfgWrite
  repeat' first
    | intro _
    | (with_reducible first | assumption | exact SameNvm.refl _ | apply OutSameNvm.next | apply State.fabric_sameNvm | apply State.busWrite_sameNvm)
    | extract_lets | dsimp only

theorem execNarrowAccess_sameNvm {r : State} {write : Bool} {s : State} (hk : SameNvm r s) :
    OutSameNvm r (execNarrowAccess write s) := by
  unfold execNarrowAccess
  repeat' first
    | intro _
    | (with_reducible first | assumption | exact SameNvm.refl _ | apply OutSameNvm.next | apply State.fabric_sameNvm | apply State.busErr_sameNvm | apply State.answerWord_sameNvm | apply OutSameNvm.cond | apply SameNvm.cond)
    | extract_lets | dsimp only | split

theorem execUnmappedAccess_sameNvm {r : State} {a : Word} {write : Bool} {s : State} (hk : SameNvm r s) :
    OutSameNvm r (execUnmappedAccess a write s) := by
  unfold execUnmappedAccess
  repeat' first
    | intro _
    | (with_reducible first | assumption | exact SameNvm.refl _ | apply OutSameNvm.next | apply State.fabric_sameNvm | apply State.busErr_sameNvm | apply State.answerWord_sameNvm | apply OutSameNvm.cond | apply SameNvm.cond)
    | extract_lets | dsimp only | split

theorem execSnapshotRead_sameNvm {r : State} {a : Word} {s : State} (hk : SameNvm r s) :
    OutSameNvm r (execSnapshotRead a s) := by
  unfold execSnapshotRead
  repeat' first
    | intro _
    | (with_reducible first | assumption | exact SameNvm.refl _ | apply OutSameNvm.next | apply State.fabric_sameNvm | apply State.busRead_sameNvm | apply State.answerWord_sameNvm)
    | extract_lets | dsimp only

theorem State.writeWhere_sameNvm {r : State} {s : State} {a w : Nat} {p : Reg → Bool} (hk : SameNvm r s) :
    SameNvm r (State.writeWhere s a w p) := by
  unfold State.writeWhere
  repeat' first
    | intro _
    | (with_reducible first | assumption | exact SameNvm.refl _ | apply State.busWrite_sameNvm | apply SameNvm.cond | apply SameNvm.cond_snd)
    | extract_lets | dsimp only | split

theorem execIntStatusClear_sameNvm {r : State} {a w : Word} {s : State} (hk : SameNvm r s) :
    OutSameNvm r (execIntStatusClear a w s) := by
  unfold execIntStatusClear
  repeat' first
    | intro _
    | (with_reducible first | assumption | exact SameNvm.refl _ | apply OutSameNvm.next | apply State.fabric_sameNvm | apply State.writeWhere_sameNvm)
    | extract_lets | dsimp only

theorem execIntForceWrite_sameNvm {r : State} {a w : Word} {s : State} (hk : SameNvm r s) :
    OutSameNvm r (execIntForceWrite a w s) := by
  unfold execIntForceWrite
  repeat' first
    | intro _
    | (with_reducible first | assumption | exact SameNvm.refl _ | apply OutSameNvm.next | apply State.fabric_sameNvm | apply State.writeWhere_sameNvm | apply State.access_sameNvm)
    | extract_lets | dsimp only

theorem execExpertOverrideWrite_sameNvm {r : State} {a w : Word} {s : State} (hk : SameNvm r s) :
    OutSameNvm r (execExpertOverrideWrite a w s) := by
  unfold execExpertOverrideWrite
  repeat' first
    | intro _
    | (with_reducible first | assumption | exact SameNvm.refl _ | apply OutSameNvm.next | apply State.fabric_sameNvm | apply State.writeWhere_sameNvm)
    | extract_lets | dsimp only

theorem execRgStoppedAccess_sameNvm {r : State} {a : Word} {write : Bool} {s : State} (hk : SameNvm r s) :
    OutSameNvm r (execRgStoppedAccess a write s) := by
  unfold execRgStoppedAccess
  repeat' first
    | intro _
    | (with_reducible first | assumption | exact SameNvm.refl _ | apply OutSameNvm.next | apply State.fabric_sameNvm | apply State.rgStopped_sameNvm | apply State.answerWord_sameNvm | apply OutSameNvm.cond | apply SameNvm.cond)
    | extract_lets | dsimp only | split

end Sys2Proof.Machine
end

