-- ==== Sys2Proof/Laws/StoredManagement.lean ====
section
/-!
SUPPORT. The operations of Management that leave the NVM.
-/
set_option Elab.async false
set_option linter.all false
namespace Sys2Proof.Machine

theorem State.answers_sameNvm {r : State} {s : State} {l : List Nat} (hk : SameNvm r s) :
    SameNvm r (State.answers s l) := by
  unfold State.answers
  repeat' first
    | intro _
    | (with_reducible first | assumption | exact SameNvm.refl _)
    | extract_lets
    | (with_reducible first | apply SameNvm.other)

theorem State.hostBus_sameNvm {r : State} {s : State} {target addr : Nat} {g : State → State} (hk : SameNvm r s) (hgg : ∀ u, SameNvm r u → SameNvm r (g u)) :
    SameNvm r (State.hostBus s target addr g) := by
  unfold State.hostBus
  repeat' first
    | intro _
    | (with_reducible first | apply hgg | assumption | exact SameNvm.refl _ | apply State.answers_sameNvm | apply State.wakeDevice_sameNvm | apply SameNvm.when | apply SameNvm.cond)
    | extract_lets | dsimp only | split

theorem State.hostWrite_sameNvm {r : State} {s : State} {off : Nat} {data : List Nat} (hk : SameNvm r s) :
    SameNvm r (State.hostWrite s off data) := by
  unfold State.hostWrite
  repeat' first
    | intro _
    | (with_reducible first | assumption | exact SameNvm.refl _ | apply State.answers_sameNvm | apply State.pageWrites_sameNvm | apply State.mcHostWrite_sameNvm | apply SameNvm.cond)
    | extract_lets | split

theorem execHostBusWrite_sameNvm {r : State} {target : BitVec 7} {off : BitVec 8} {data : List (BitVec 8)} {s : State} (hk : SameNvm r s) :
    OutSameNvm r (execHostBusWrite target off data s) := by
  unfold execHostBusWrite
  repeat' first
    | intro _
    | (with_reducible first | assumption | exact SameNvm.refl _ | apply OutSameNvm.next | apply State.hostBus_sameNvm | apply State.hostWrite_sameNvm)
    | extract_lets | dsimp only

theorem execHostBusRead_sameNvm {r : State} {target : BitVec 7} {off : BitVec 8} {count : BitVec 9} {s : State} (hk : SameNvm r s) :
    OutSameNvm r (execHostBusRead target off count s) := by
  unfold execHostBusRead
  repeat' first
    | intro _
    | (with_reducible first | assumption | exact SameNvm.refl _ | apply OutSameNvm.next | apply State.hostBus_sameNvm | apply State.pageRead_sameNvm | apply State.answers_sameNvm)
    | extract_lets | dsimp only

theorem State.i3cEnter_sameNvm {r : State} {s : State} {dyn : Nat} (hk : SameNvm r s) :
    SameNvm r (State.i3cEnter s dyn) := by
  unfold State.i3cEnter
  repeat' first
    | intro _
    | (with_reducible first | assumption | exact SameNvm.refl _ | apply State.puts_sameNvm)
    | extract_lets

theorem execI3cEntdaa_sameNvm {r : State} {dyn : BitVec 7} {s : State} (hk : SameNvm r s) :
    OutSameNvm r (execI3cEntdaa dyn s) := by
  unfold execI3cEntdaa
  repeat' first
    | intro _
    | (with_reducible first | assumption | exact SameNvm.refl _ | apply OutSameNvm.next | apply State.i3cEnter_sameNvm | apply OutSameNvm.cond | apply SameNvm.cond)
    | extract_lets | split

theorem execI3cSetdasa_sameNvm {r : State} {target dyn : BitVec 7} {s : State} (hk : SameNvm r s) :
    OutSameNvm r (execI3cSetdasa target dyn s) := by
  unfold execI3cSetdasa
  repeat' first
    | intro _
    | (with_reducible first | assumption | exact SameNvm.refl _ | apply OutSameNvm.next | apply State.hostBus_sameNvm | apply State.answers_sameNvm | apply State.i3cEnter_sameNvm | apply OutSameNvm.cond | apply SameNvm.cond)
    | extract_lets | dsimp only | split

theorem State.i3c_sameNvm {r : State} {s : State} {target : BitVec 7} {g : State → State} (hk : SameNvm r s) (hgg : ∀ u, SameNvm r u → SameNvm r (g u)) :
    SameNvm r (State.i3c s target g) := by
  unfold State.i3c
  repeat' first
    | intro _
    | (with_reducible first | apply hgg | assumption | exact SameNvm.refl _ | apply State.hostBus_sameNvm | apply State.answers_sameNvm | apply SameNvm.cond)
    | extract_lets | dsimp only | split

theorem execI3cSetnewda_sameNvm {r : State} {target dyn : BitVec 7} {s : State} (hk : SameNvm r s) :
    OutSameNvm r (execI3cSetnewda target dyn s) := by
  unfold execI3cSetnewda
  repeat' first
    | intro _
    | (with_reducible first | assumption | exact SameNvm.refl _ | apply OutSameNvm.next | apply State.i3c_sameNvm | apply State.wr_sameNvm)
    | extract_lets | dsimp only

theorem execI3cRstdaa_sameNvm {r : State} {s : State} (hk : SameNvm r s) :
    OutSameNvm r (execI3cRstdaa s) := by
  unfold execI3cRstdaa
  repeat' first
    | intro _
    | (with_reducible first | assumption | exact SameNvm.refl _ | apply OutSameNvm.next | apply State.puts_sameNvm | apply OutSameNvm.cond | apply SameNvm.cond)
    | extract_lets | split

theorem execI3cGetpid_sameNvm {r : State} {target : BitVec 7} {s : State} (hk : SameNvm r s) :
    OutSameNvm r (execI3cGetpid target s) := by
  unfold execI3cGetpid
  repeat' first
    | intro _
    | (with_reducible first | assumption | exact SameNvm.refl _ | apply OutSameNvm.next | apply State.i3c_sameNvm | apply State.answers_sameNvm)
    | extract_lets | dsimp only

theorem execI3cGetbcr_sameNvm {r : State} {target : BitVec 7} {s : State} (hk : SameNvm r s) :
    OutSameNvm r (execI3cGetbcr target s) := by
  unfold execI3cGetbcr
  repeat' first
    | intro _
    | (with_reducible first | assumption | exact SameNvm.refl _ | apply OutSameNvm.next | apply State.i3c_sameNvm | apply State.answers_sameNvm)
    | extract_lets | dsimp only

theorem execI3cGetdcr_sameNvm {r : State} {target : BitVec 7} {s : State} (hk : SameNvm r s) :
    OutSameNvm r (execI3cGetdcr target s) := by
  unfold execI3cGetdcr
  repeat' first
    | intro _
    | (with_reducible first | assumption | exact SameNvm.refl _ | apply OutSameNvm.next | apply State.i3c_sameNvm | apply State.answers_sameNvm)
    | extract_lets | dsimp only

theorem execI3cGetstatus_sameNvm {r : State} {target : BitVec 7} {s : State} (hk : SameNvm r s) :
    OutSameNvm r (execI3cGetstatus target s) := by
  unfold execI3cGetstatus
  repeat' first
    | intro _
    | (with_reducible first | assumption | exact SameNvm.refl _ | apply OutSameNvm.next | apply State.i3c_sameNvm | apply State.free_sameNvm | apply State.answers_sameNvm)
    | extract_lets | dsimp only

theorem execI3cGetmwl_sameNvm {r : State} {target : BitVec 7} {s : State} (hk : SameNvm r s) :
    OutSameNvm r (execI3cGetmwl target s) := by
  unfold execI3cGetmwl
  repeat' first
    | intro _
    | (with_reducible first | assumption | exact SameNvm.refl _ | apply OutSameNvm.next | apply State.i3c_sameNvm | apply State.answers_sameNvm)
    | extract_lets | dsimp only

theorem execI3cSetmwl_sameNvm {r : State} {target : BitVec 7} {v : BitVec 16} {s : State} (hk : SameNvm r s) :
    OutSameNvm r (execI3cSetmwl target v s) := by
  unfold execI3cSetmwl
  repeat' first
    | intro _
    | (with_reducible first | assumption | exact SameNvm.refl _ | apply OutSameNvm.next | apply State.i3c_sameNvm | apply State.wr_sameNvm)
    | extract_lets | dsimp only

theorem execI3cGetmrl_sameNvm {r : State} {target : BitVec 7} {s : State} (hk : SameNvm r s) :
    OutSameNvm r (execI3cGetmrl target s) := by
  unfold execI3cGetmrl
  repeat' first
    | intro _
    | (with_reducible first | assumption | exact SameNvm.refl _ | apply OutSameNvm.next | apply State.i3c_sameNvm | apply State.answers_sameNvm)
    | extract_lets | dsimp only

theorem execI3cSetmrl_sameNvm {r : State} {target : BitVec 7} {v : BitVec 16} {s : State} (hk : SameNvm r s) :
    OutSameNvm r (execI3cSetmrl target v s) := by
  unfold execI3cSetmrl
  repeat' first
    | intro _
    | (with_reducible first | assumption | exact SameNvm.refl _ | apply OutSameNvm.next | apply State.i3c_sameNvm | apply State.wr_sameNvm)
    | extract_lets | dsimp only

theorem execI3cUnsupportedCcc_sameNvm {r : State} {s : State} (hk : SameNvm r s) :
    OutSameNvm r (execI3cUnsupportedCcc s) := by
  unfold execI3cUnsupportedCcc
  repeat' first
    | intro _
    | (with_reducible first | assumption | exact SameNvm.refl _ | apply OutSameNvm.next | apply State.answers_sameNvm)
    | extract_lets

theorem execMcPageHostWrite_sameNvm {r : State} {bank : BitVec 1} {page : BitVec 8} {off : BitVec 7} {data : List (BitVec 8)} {s : State} (hk : SameNvm r s) :
    OutSameNvm r (execMcPageHostWrite bank page off data s) := by
  unfold execMcPageHostWrite
  repeat' first
    | intro _
    | (with_reducible first | assumption | exact SameNvm.refl _ | apply OutSameNvm.next | apply State.mcHostWrite_sameNvm | apply OutSameNvm.cond | apply SameNvm.cond)
    | extract_lets | split

theorem State.winDone_sameNvm {r s : State} {status : Nat} (hk : SameNvm r s) : SameNvm r (s.winDone status) := by
  unfold State.winDone
  exact SameNvm.other hk

theorem execWindowRead_sameNvm {r : State} {s : State} (hk : SameNvm r s) :
    OutSameNvm r (execWindowRead s) := by
  unfold execWindowRead
  repeat' first
    | intro _
    | (with_reducible first | assumption | exact SameNvm.refl _ | apply OutSameNvm.next | apply State.winDone_sameNvm | apply State.busRead_sameNvm | apply OutSameNvm.cond | apply SameNvm.cond | apply SameNvm.cond_snd)
    | extract_lets | dsimp only | split
    | (with_reducible first | apply SameNvm.other)

theorem execWindowWrite_sameNvm {r : State} {s : State} (hk : SameNvm r s) :
    OutSameNvm r (execWindowWrite s) := by
  unfold execWindowWrite
  repeat' first
    | intro _
    | (with_reducible first | assumption | exact SameNvm.refl _ | apply OutSameNvm.next | apply State.winDone_sameNvm | apply State.busWrite_sameNvm | apply OutSameNvm.cond | apply SameNvm.cond | apply SameNvm.cond_snd)
    | extract_lets | dsimp only | split

theorem State.spi_sameNvm {r : State} {s : State} {g : State → State} (hk : SameNvm r s) (hgg : ∀ u, SameNvm r u → SameNvm r (g u)) :
    SameNvm r (State.spi s g) := by
  unfold State.spi
  repeat' first
    | intro _
    | (with_reducible first | apply hgg | assumption | exact SameNvm.refl _ | apply State.wakeDevice_sameNvm | apply State.answers_sameNvm | apply SameNvm.when | apply SameNvm.cond)
    | extract_lets | dsimp only | split

theorem State.readMany_sameNvm {r s : State} {l : List Nat} (hk : SameNvm r s) : SameNvm r (s.readMany l).2 := by
  unfold State.readMany
  with_reducible apply SameNvm.foldl_snd
  · exact hk
  · intro a u hu
    dsimp only
    with_reducible exact State.busRead_sameNvm hu

theorem execSpiWrite_sameNvm {r : State} {a : Word} {data : List (BitVec 8)} {s : State} (hk : SameNvm r s) :
    OutSameNvm r (execSpiWrite a data s) := by
  unfold execSpiWrite
  repeat' first
    | intro _
    | (with_reducible first | assumption | exact SameNvm.refl _ | apply OutSameNvm.next | apply State.spi_sameNvm | apply State.busWrite_sameNvm | apply SameNvm.each)
    | extract_lets | dsimp only

theorem execSpiRead_sameNvm {r : State} {a : Word} {count : BitVec 10} {s : State} (hk : SameNvm r s) :
    OutSameNvm r (execSpiRead a count s) := by
  unfold execSpiRead
  repeat' first
    | intro _
    | (with_reducible first | assumption | exact SameNvm.refl _ | apply OutSameNvm.next | apply State.spi_sameNvm | apply State.readMany_sameNvm | apply State.answers_sameNvm)
    | extract_lets | dsimp only

theorem execSpiUnknownCmd_sameNvm {r : State} {s : State} (hk : SameNvm r s) :
    OutSameNvm r (execSpiUnknownCmd s) := by
  unfold execSpiUnknownCmd
  repeat' first
    | intro _
    | (with_reducible first | assumption | exact SameNvm.refl _ | apply OutSameNvm.next | apply State.spi_sameNvm | apply State.raise_sameNvm | apply State.answers_sameNvm)
    | extract_lets | dsimp only

theorem execCmisControlAct_sameNvm {r : State} {c : CmisControl} {s : State} (hk : SameNvm r s) :
    OutSameNvm r (execCmisControlAct c s) := by
  unfold execCmisControlAct
  repeat' first
    | intro _
    | (with_reducible first | assumption | exact SameNvm.refl _ | apply OutSameNvm.next | apply State.putField_sameNvm | apply State.access_sameNvm | apply State.configSettle_sameNvm | apply State.did_sameNvm | apply execLtxCommit_sameNvm | apply OutSameNvm.cond | apply SameNvm.cond)
    | extract_lets | dsimp only | split

theorem execCmisDpdeinit_sameNvm {r : State} {n : Lane} {v : Bool} {s : State} (hk : SameNvm r s) :
    OutSameNvm r (execCmisDpdeinit n v s) := by
  unfold execCmisDpdeinit
  repeat' first
    | intro _
    | (with_reducible first | assumption | exact SameNvm.refl _ | apply OutSameNvm.next | apply State.setMask_sameNvm | apply State.cmis_sameNvm | apply State.did_sameNvm | apply execTxDisable_sameNvm | apply execLrxDisable_sameNvm | apply execLrxEnable_sameNvm | apply execTxEnableRequest_sameNvm | apply SameNvm.when | apply OutSameNvm.cond | apply SameNvm.cond)
    | extract_lets | dsimp only | split

theorem execCmisApplyDpinit_sameNvm {r : State} {n : Lane} {c : ControlSet} {s : State} (hk : SameNvm r s) :
    OutSameNvm r (execCmisApplyDpinit n c s) := by
  unfold execCmisApplyDpinit
  repeat' first
    | intro _
    | (with_reducible first | assumption | exact SameNvm.refl _ | apply OutSameNvm.next | apply State.access_sameNvm | apply State.presetWrite_sameNvm | apply State.wr_sameNvm | apply State.configSettle_sameNvm | apply State.puts_sameNvm | apply State.did_sameNvm | apply execHifCommit_sameNvm | apply execLrxCommit_sameNvm | apply execLeqCommit_sameNvm | apply execLtxCommit_sameNvm | apply State.enablePut_sameNvm | apply execTxEnableRequest_sameNvm | apply execTxDisable_sameNvm | apply SameNvm.each | apply OutSameNvm.cond | apply SameNvm.cond)
    | extract_lets | dsimp only | split

theorem execCmisLowpwrRequestSw_sameNvm {r : State} {v : Bool} {s : State} (hk : SameNvm r s) :
    OutSameNvm r (execCmisLowpwrRequestSw v s) := by
  unfold execCmisLowpwrRequestSw
  repeat' first
    | intro _
    | (with_reducible first | assumption | exact SameNvm.refl _ | apply OutSameNvm.next | apply State.putField_sameNvm | apply OutSameNvm.cond | apply SameNvm.cond)
    | extract_lets | split

theorem State.cdb_sameNvm {r : State} {s : State} {rom password : Bool} {g : State → State} (hk : SameNvm r s) (hgg : ∀ u, SameNvm r u → SameNvm r (g u)) :
    SameNvm r (State.cdb s rom password g) := by
  unfold State.cdb
  repeat' first
    | intro _
    | (with_reducible first | apply hgg | assumption | exact SameNvm.refl _ | apply State.wr_sameNvm | apply State.cdbEnd_sameNvm | apply SameNvm.cond)
    | extract_lets | split

theorem State.cdbImage_sameNvm {r : State} {s : State} {op slot lead : Nat} (hk : SameNvm r s) :
    SameNvm r (State.cdbImage s op slot lead) := by
  unfold State.cdbImage
  repeat' first
    | intro _
    | (with_reducible first | assumption | exact SameNvm.refl _ | apply State.free_sameNvm | apply State.imgGo_sameNvm | apply State.puts_sameNvm | apply State.wr_sameNvm | apply State.cdbEnd_sameNvm | apply SameNvm.cond)
    | extract_lets | split

theorem State.cdbFlashStart_sameNvm {r : State} {s : State} (hk : SameNvm r s) :
    SameNvm r (State.cdbFlashStart s) := by
  unfold State.cdbFlashStart
  repeat' first
    | intro _
    | (with_reducible first | assumption | exact SameNvm.refl _ | apply State.puts_sameNvm)
    | extract_lets

theorem execCdbQueryStatus_sameNvm {r : State} {s : State} (hk : SameNvm r s) :
    OutSameNvm r (execCdbQueryStatus s) := by
  unfold execCdbQueryStatus
  repeat' first
    | intro _
    | (with_reducible first | assumption | exact SameNvm.refl _ | apply OutSameNvm.next | apply State.answers_sameNvm | apply OutSameNvm.cond | apply SameNvm.cond)
    | extract_lets | split

theorem execCdbEnterPassword_sameNvm {r : State} {pw : Word} {s : State} (hk : SameNvm r s) :
    OutSameNvm r (execCdbEnterPassword pw s) := by
  unfold execCdbEnterPassword
  repeat' first
    | intro _
    | (with_reducible first | assumption | exact SameNvm.refl _ | apply OutSameNvm.next | apply State.cdb_sameNvm | apply State.wr_sameNvm | apply State.cdbEnd_sameNvm | apply OutSameNvm.cond | apply SameNvm.cond)
    | extract_lets | dsimp only | split

theorem execCdbChangePassword_sameNvm {r : State} {pw : Word} {s : State} (hk : SameNvm r s) :
    OutSameNvm r (execCdbChangePassword pw s) := by
  unfold execCdbChangePassword
  repeat' first
    | intro _
    | (with_reducible first | assumption | exact SameNvm.refl _ | apply OutSameNvm.next | apply State.cdb_sameNvm | apply State.cdbEnd_sameNvm | apply State.puts_sameNvm | apply State.setMask_sameNvm | apply OutSameNvm.cond | apply SameNvm.cond)
    | extract_lets | dsimp only | split

theorem execCdbAbort_sameNvm {r : State} {s : State} (hk : SameNvm r s) :
    OutSameNvm r (execCdbAbort s) := by
  unfold execCdbAbort
  repeat' first
    | intro _
    | (with_reducible first | assumption | exact SameNvm.refl _ | apply OutSameNvm.next | apply State.wr_sameNvm | apply State.cdbEnd_sameNvm | apply OutSameNvm.cond | apply SameNvm.cond)
    | extract_lets | split

theorem execCdbModuleFeatures_sameNvm {r : State} {s : State} (hk : SameNvm r s) :
    OutSameNvm r (execCdbModuleFeatures s) := by
  unfold execCdbModuleFeatures
  repeat' first
    | intro _
    | (with_reducible first | assumption | exact SameNvm.refl _ | apply OutSameNvm.next | apply State.cdb_sameNvm | apply State.answers_sameNvm | apply State.cdbEnd_sameNvm)
    | extract_lets | dsimp only

theorem execCdbFwMgmtFeatures_sameNvm {r : State} {s : State} (hk : SameNvm r s) :
    OutSameNvm r (execCdbFwMgmtFeatures s) := by
  unfold execCdbFwMgmtFeatures
  repeat' first
    | intro _
    | (with_reducible first | assumption | exact SameNvm.refl _ | apply OutSameNvm.next | apply State.cdb_sameNvm | apply State.answers_sameNvm | apply State.cdbEnd_sameNvm)
    | extract_lets | dsimp only

theorem execCdbGetFwInfo_sameNvm {r : State} {a b : List (BitVec 8)} {s : State} (hk : SameNvm r s) :
    OutSameNvm r (execCdbGetFwInfo a b s) := by
  unfold execCdbGetFwInfo
  repeat' first
    | intro _
    | (with_reducible first | assumption | exact SameNvm.refl _ | apply OutSameNvm.next | apply State.cdb_sameNvm | apply State.answers_sameNvm | apply State.cdbEnd_sameNvm)
    | extract_lets | dsimp only

theorem execCdbAbortFwDownload_sameNvm {r : State} {s : State} (hk : SameNvm r s) :
    OutSameNvm r (execCdbAbortFwDownload s) := by
  unfold execCdbAbortFwDownload
  repeat' first
    | intro _
    | (with_reducible first | assumption | exact SameNvm.refl _ | apply OutSameNvm.next | apply State.cdb_sameNvm | apply State.wr_sameNvm | apply State.cdbEnd_sameNvm | apply OutSameNvm.cond | apply SameNvm.cond)
    | extract_lets | dsimp only | split

theorem State.cdbBlock_sameNvm {r : State} {s : State} {off len most : Nat} (hk : SameNvm r s) :
    SameNvm r (State.cdbBlock s off len most) := by
  unfold State.cdbBlock
  repeat' first
    | intro _
    | (with_reducible first | assumption | exact SameNvm.refl _ | apply State.cdbEnd_sameNvm | apply State.cdbFlashStart_sameNvm | apply SameNvm.cond)
    | extract_lets | split

theorem execCdbWriteFwBlockLpl_sameNvm {r : State} {off : Word} {len : BitVec 8} {s : State} (hk : SameNvm r s) :
    OutSameNvm r (execCdbWriteFwBlockLpl off len s) := by
  unfold execCdbWriteFwBlockLpl
  repeat' first
    | intro _
    | (with_reducible first | assumption | exact SameNvm.refl _ | apply OutSameNvm.next | apply State.cdb_sameNvm | apply State.cdbBlock_sameNvm)
    | extract_lets | dsimp only

theorem execCdbWriteFwBlockEpl_sameNvm {r : State} {off : Word} {len : BitVec 12} {s : State} (hk : SameNvm r s) :
    OutSameNvm r (execCdbWriteFwBlockEpl off len s) := by
  unfold execCdbWriteFwBlockEpl
  repeat' first
    | intro _
    | (with_reducible first | assumption | exact SameNvm.refl _ | apply OutSameNvm.next | apply State.cdb_sameNvm | apply State.cdbBlock_sameNvm)
    | extract_lets | dsimp only

theorem execCdbRunFwImage_sameNvm {r : State} {s : State} (hk : SameNvm r s) :
    OutSameNvm r (execCdbRunFwImage s) := by
  unfold execCdbRunFwImage
  repeat' first
    | intro _
    | (with_reducible first | assumption | exact SameNvm.refl _ | apply OutSameNvm.next | apply State.cdb_sameNvm | apply State.cdbImage_sameNvm)
    | extract_lets | dsimp only

theorem execCdbCommitFwImage_sameNvm {r : State} {s : State} (hk : SameNvm r s) :
    OutSameNvm r (execCdbCommitFwImage s) := by
  unfold execCdbCommitFwImage
  repeat' first
    | intro _
    | (with_reducible first | assumption | exact SameNvm.refl _ | apply OutSameNvm.next | apply State.cdb_sameNvm | apply State.cdbImage_sameNvm)
    | extract_lets | dsimp only

theorem execCdbTxTapRequest_sameNvm {r : State} {n : Lane} {taps : List Int} {s : State} (hk : SameNvm r s) :
    OutSameNvm r (execCdbTxTapRequest n taps s) := by
  unfold execCdbTxTapRequest
  repeat' first
    | intro _
    | (with_reducible first | assumption | exact SameNvm.refl _ | apply OutSameNvm.next | apply State.cdb_sameNvm | apply State.svcSend_sameNvm | apply State.puts_sameNvm | apply State.cdbEnd_sameNvm | apply OutSameNvm.cond | apply SameNvm.cond)
    | extract_lets | dsimp only | split

theorem execCdbTxTapTimeout_sameNvm {r : State} {s : State} (hk : SameNvm r s) :
    OutSameNvm r (execCdbTxTapTimeout s) := by
  unfold execCdbTxTapTimeout
  repeat' first
    | intro _
    | (with_reducible first | assumption | exact SameNvm.refl _ | apply OutSameNvm.next | apply State.cdbEnd_sameNvm | apply OutSameNvm.cond | apply SameNvm.cond)
    | extract_lets | split

theorem execCdbPartialCommit_sameNvm {r : State} {lead : Lane} {s : State} (hk : SameNvm r s) :
    OutSameNvm r (execCdbPartialCommit lead s) := by
  unfold execCdbPartialCommit
  repeat' first
    | intro _
    | (with_reducible first | assumption | exact SameNvm.refl _ | apply OutSameNvm.next | apply State.cdb_sameNvm | apply State.cdbImage_sameNvm)
    | extract_lets | dsimp only

theorem execCdbUnsupported_sameNvm {r : State} {s : State} (hk : SameNvm r s) :
    OutSameNvm r (execCdbUnsupported s) := by
  unfold execCdbUnsupported
  repeat' first
    | intro _
    | (with_reducible first | assumption | exact SameNvm.refl _ | apply OutSameNvm.next | apply State.cdb_sameNvm | apply State.cdbEnd_sameNvm)
    | extract_lets | dsimp only

theorem State.msgRead_sameNvm {r s : State} {a k : Nat} (hk : SameNvm r s) : SameNvm r (s.msgRead a k).2 := by
  induction k generalizing s a with
  | zero => exact hk
  | succ k ih =>
    unfold State.msgRead
    dsimp only
    split
    · exact hk
    · split
      · exact State.busRead_sameNvm hk
      · exact ih (State.busRead_sameNvm hk)

theorem State.msgWrite_sameNvm {r s : State} {a : Nat} {l : List Nat} (hk : SameNvm r s) : SameNvm r (s.msgWrite a l).2 := by
  induction l generalizing s a with
  | nil => exact hk
  | cons w l ih =>
    unfold State.msgWrite
    dsimp only
    split
    · exact hk
    · split
      · exact State.busWrite_sameNvm hk
      · exact ih (State.busWrite_sameNvm hk)

theorem execMsgRegRead_sameNvm {r : State} {s : State} (hk : SameNvm r s) :
    OutSameNvm r (execMsgRegRead s) := by
  unfold execMsgRegRead
  repeat' first
    | intro _
    | (with_reducible first | assumption | exact SameNvm.refl _ | apply OutSameNvm.next | apply State.mbxTake_sameNvm | apply State.mbxReply_sameNvm | apply State.msgRead_sameNvm | apply OutSameNvm.cond | apply SameNvm.cond | apply SameNvm.cond_snd | apply OptSameNvm.getD)
    | extract_lets | dsimp only | split

theorem execMsgRegWrite_sameNvm {r : State} {s : State} (hk : SameNvm r s) :
    OutSameNvm r (execMsgRegWrite s) := by
  unfold execMsgRegWrite
  repeat' first
    | intro _
    | (with_reducible first | assumption | exact SameNvm.refl _ | apply OutSameNvm.next | apply State.mbxTake_sameNvm | apply State.mbxReply_sameNvm | apply State.msgWrite_sameNvm | apply OutSameNvm.cond | apply SameNvm.cond | apply SameNvm.cond_snd | apply OptSameNvm.getD)
    | extract_lets | dsimp only | split

end Sys2Proof.Machine
end

