-- ==== Sys2Proof/Laws/StoredSupply.lean ====
section
/-!
SUPPORT. The operations of Supply that leave the NVM.
-/
set_option Elab.async false
set_option linter.all false
namespace Sys2Proof.Machine

theorem State.commitsHeld_sameNvm {r : State} {s : State} {n : Nat} (hk : SameNvm r s) :
    SameNvm r (State.commitsHeld s n) := by
  unfold State.commitsHeld
  repeat' first
    | intro _
    | (with_reducible first | assumption | exact SameNvm.refl _ | apply State.raise_sameNvm | apply SameNvm.when)
    | extract_lets | dsimp only

theorem State.swapDefer_sameNvm {r : State} {s : State} {n : Nat} (hk : SameNvm r s) :
    SameNvm r (State.swapDefer s n) := by
  unfold State.swapDefer
  repeat' first
    | intro _
    | (with_reducible first | assumption | exact SameNvm.refl _ | apply State.wr_sameNvm | apply SameNvm.when)
    | extract_lets | dsimp only

theorem State.setPointBits_sameNvm {r : State} {s : State} {rail : Nat} (hk : SameNvm r s) :
    SameNvm r (State.setPointBits s rail).2 := by
  unfold State.setPointBits
  repeat' first
    | intro _
    | (with_reducible first | assumption | exact SameNvm.refl _ | apply State.free_sameNvm | apply SameNvm.cond_snd | apply SameNvm.cond)
    | extract_lets | dsimp only

theorem State.warnBegin_sameNvm {r : State} {s : State} {rail level : Nat} (hk : SameNvm r s) :
    SameNvm r (State.warnBegin s rail level) := by
  unfold State.warnBegin
  repeat' first
    | intro _
    | (with_reducible first | assumption | exact SameNvm.refl _ | apply State.puts_sameNvm | apply State.bump_sameNvm | apply State.raise_sameNvm | apply State.setPointBits_sameNvm | apply State.emit_sameNvm | apply State.wr_sameNvm | apply State.commitsHeld_sameNvm | apply State.swapDefer_sameNvm | apply State.leqFollow_sameNvm | apply State.cmis_sameNvm | apply State.faultEvent_sameNvm | apply SameNvm.each | apply SameNvm.when)
    | extract_lets | dsimp only

theorem State.vddIoSeen_sameNvm {r : State} {s : State} {rail mv : Nat} (hk : SameNvm r s) :
    SameNvm r (State.vddIoSeen s rail mv) := by
  unfold State.vddIoSeen
  repeat' first
    | intro _
    | (with_reducible first | assumption | exact SameNvm.refl _ | apply State.wr_sameNvm | apply SameNvm.cond)
    | extract_lets | split

theorem execSupplyWarningStart_sameNvm {r : State} {rail : Fin 7} {mv : BitVec 12} {s : State} (hk : SameNvm r s) :
    OutSameNvm r (execSupplyWarningStart rail mv s) := by
  unfold execSupplyWarningStart
  repeat' first
    | intro _
    | (with_reducible first | assumption | exact SameNvm.refl _ | apply OutSameNvm.next | apply State.setMask_sameNvm | apply State.vddIoSeen_sameNvm | apply State.wr_sameNvm | apply State.warnBegin_sameNvm | apply OutSameNvm.cond | apply SameNvm.cond)
    | extract_lets | split

theorem State.laneRelease_sameNvm {r : State} {s : State} {n : Nat} (hk : SameNvm r s) :
    SameNvm r (State.laneRelease s n) := by
  unfold State.laneRelease
  repeat' first
    | intro _
    | (with_reducible first | assumption | exact SameNvm.refl _ | apply State.puts_sameNvm | apply State.dacCalRelease_sameNvm | apply State.rxBoundary_sameNvm | apply State.txBoundary_sameNvm | apply State.leqFollow_sameNvm | apply SameNvm.when)
    | extract_lets | dsimp only

theorem State.pllRelease_sameNvm {r : State} {s : State} {p : Nat} (hk : SameNvm r s) :
    SameNvm r (State.pllRelease s p) := by
  unfold State.pllRelease
  repeat' first
    | intro _
    | (with_reducible first | assumption | exact SameNvm.refl _ | apply State.setMask_sameNvm | apply State.wr_sameNvm | apply State.pllRequest_sameNvm | apply State.puts_sameNvm | apply State.pllCalLocked_sameNvm | apply SameNvm.when | apply SameNvm.cond)
    | extract_lets | dsimp only | split

theorem State.warnEnd_sameNvm {r : State} {s : State} (hk : SameNvm r s) :
    SameNvm r (State.warnEnd s) := by
  unfold State.warnEnd
  repeat' first
    | intro _
    | (with_reducible first | assumption | exact SameNvm.refl _ | apply State.wr_sameNvm | apply State.raise_sameNvm | apply State.emit_sameNvm | apply State.laneRelease_sameNvm | apply State.hifApply_sameNvm | apply State.pllRelease_sameNvm | apply State.writeVout_sameNvm | apply State.dvfsKick_sameNvm | apply State.dacAdmit_sameNvm | apply State.adcAdmit_sameNvm | apply SameNvm.each | apply SameNvm.when)
    | extract_lets | dsimp only | split

theorem execSupplyWarningEnd_sameNvm {r : State} {rail : Fin 7} {lowest mv : BitVec 12} {s : State} (hk : SameNvm r s) :
    OutSameNvm r (execSupplyWarningEnd rail lowest mv s) := by
  unfold execSupplyWarningEnd
  repeat' first
    | intro _
    | (with_reducible first | assumption | exact SameNvm.refl _ | apply OutSameNvm.next | apply State.setMask_sameNvm | apply State.vddIoSeen_sameNvm | apply State.wr_sameNvm | apply State.warnEnd_sameNvm | apply OutSameNvm.cond | apply SameNvm.cond)
    | extract_lets | split

end Sys2Proof.Machine
end

