-- ==== Sys2Proof/Laws/StoredTap.lean ====
section
/-!
SUPPORT. The operations of Tap that leave the NVM.
-/
set_option Elab.async false
set_option linter.all false
namespace Sys2Proof.Machine

theorem State.captureBit_sameNvm {r : State} {s : State} {k : Nat} {b : Bool} (hk : SameNvm r s) :
    SameNvm r (State.captureBit s k b) := by
  unfold State.captureBit
  repeat' first
    | intro _
    | (with_reducible first | assumption | exact SameNvm.refl _)
    | extract_lets | split
    | (with_reducible first | apply SameNvm.other)

theorem State.tapCapture_sameNvm {r : State} {s : State} (hk : SameNvm r s) :
    SameNvm r (State.tapCapture s) := by
  unfold State.tapCapture
  repeat' first
    | intro _
    | (with_reducible first | assumption | exact SameNvm.refl _ | apply State.free_sameNvm | apply State.captureBit_sameNvm | apply SameNvm.each)
    | extract_lets | dsimp only | split
    | (with_reducible first | apply SameNvm.other)

theorem State.tapEdge_sameNvm {r : State} {s : State} {tdi : Bool} (hk : SameNvm r s) :
    SameNvm r (State.tapEdge s tdi) := by
  unfold State.tapEdge
  repeat' first
    | intro _
    | (with_reducible first | assumption | exact SameNvm.refl _ | apply State.tapCapture_sameNvm)
    | extract_lets | dsimp only | split
    | (with_reducible first | apply SameNvm.other)

theorem State.tapUpdate_sameNvm {r : State} {s : State} (hk : SameNvm r s) :
    SameNvm r (State.tapUpdate s) := by
  unfold State.tapUpdate
  repeat' first
    | intro _
    | (with_reducible first | assumption | exact SameNvm.refl _)
    | extract_lets | dsimp only | split
    | (with_reducible first | apply SameNvm.other)

theorem State.tckCycle_sameNvm {r : State} {s : State} {c : TckCycle} (hk : SameNvm r s) :
    SameNvm r (State.tckCycle s c) := by
  unfold State.tckCycle
  repeat' first
    | intro _
    | (with_reducible first | assumption | exact SameNvm.refl _ | apply State.tapEdge_sameNvm | apply State.tapUpdate_sameNvm | apply SameNvm.cond)
    | extract_lets | split
    | (with_reducible first | apply SameNvm.other)

theorem State.tapServe_sameNvm {r : State} {s : State} (hk : SameNvm r s) :
    SameNvm r (State.tapServe s) := by
  unfold State.tapServe
  repeat' first
    | intro _
    | (with_reducible first | assumption | exact SameNvm.refl _ | apply State.tckCycle_sameNvm | apply SameNvm.cond)
    | extract_lets | dsimp only | split
    | (with_reducible first | apply SameNvm.other)

theorem State.idle_sameNvm {r : State} {s : State} (hk : SameNvm r s) :
    SameNvm r (State.idle s) := by
  unfold State.idle
  repeat' first
    | intro _
    | (with_reducible first | assumption | exact SameNvm.refl _ | apply State.tick_sameNvm | apply State.tapServe_sameNvm)
    | extract_lets

end Sys2Proof.Machine
end

