-- ==== Sys2Proof/Machine/LineOut.lean ====
section
/-!
DEFINITION. What a line lane puts on its output, as a function of the state: the symbols at the FIR, the codes of the DAC and its
cells (R161 to R168, R185, R206).
-/
namespace Sys2Proof.Machine

/-- The frame that follows the one under way, as far as it stands now: the waiting pattern, format and precoder in force
(R161, R184). -/
def State.nextFrame (s : State) (n : Nat) : TxFrame := { (s.txFrameStart n).txFrame n with pre := (s.txFrame n).precodeEnd }

/-- The level of symbol `j` of a frame that has not started, ahead of the precoder: its pattern, or the marker, with which a
native frame begins; what a compatibility frame begins with depends on its payload and is open here (R162, R184, R195, R206, log
entry 61). -/
def State.aheadAt (s : State) (f : TxFrame) (j : Nat) : Nat :=
  if f.pattern ≠ 0 then patternLevel f.pattern f.level (frameSymbols * f.patFrame + j)
  else if f.compat then (Config.compatAhead s.now j).toNat
  else grayLevel (symbolBits [markerBits 0] j)

/-- The levels of the first `k` symbols of a frame that has not started (R161, R162). -/
def State.aheadLevels (s : State) (f : TxFrame) (k : Nat) : List Nat :=
  let g := (List.range k).map (fun j => s.aheadAt f j)
  if f.precode then precodeRun f.pre g else g

/-- The symbol a(k) of the frame under way at the FIR: before its start those of the frame before it, beyond its end
those of the next frame; POL_INV negates it (R161, R162, R195). -/
def State.lineSymbol (s : State) (n : Nat) (k : Int) : Int :=
  if k.toNat < frameSymbols then
    let q := if k < 0 then (s.ld n).last.levelAt (frameSymbols + k).toNat else (s.txFrame n).levelAt k.toNat
    symbolOf (invertLevel (s.use .ltxPolInv n != 0) q)
  else
    let j := k.toNat - frameSymbols
    symbolOf (invertLevel ((s.txFrameStart n).use .ltxPolInv n != 0) ((s.aheadLevels (s.nextFrame n) (j + 1)).getD j 0))

/-- The level 0 to 3 of a symbol at the LUT. -/
def levelOf (a : Int) : Nat := ((a + 3) / 2).toNat

/-- Entry `k` of the LUT in use, in quarter codes (R165). -/
def State.lutEntry (s : State) (n k : Nat) : Int :=
  s.useInt (match k % 4 with | 0 => Field.ltxLut0 | 1 => .ltxLut1 | 2 => .ltxLut2 | _ => .ltxLut3) n (k / 4)

/-- The DAC code before clipping for symbol `k` of the frame under way (R162, R163, R165). -/
def State.rawLineCode (s : State) (n k : Nat) : Int :=
  let a (d : Int) : Int := s.lineSymbol n (k + d)
  let fir := firOutput ((List.range 9).map (fun i => s.useInt .ltxFirTap n i)) ((List.range 9).map (fun (i : Nat) => a
    (2 - i)))
  let p := if s.use .ltxLutEn n = 0 then 0 else s.lutEntry n (lutIndex (levelOf (a (-1))) (levelOf (a 0)) (levelOf (a 1)))
  rawCode fir p

/-- The code of DAC sample `k` of the frame under way, nothing while the output is muted: the wake pattern past FIR, LUT and
precoder, or the symbol's code, which the compatibility format holds over the samples within it (R163, R185, R206). -/
def State.dacSample (s : State) (n k : Nat) : Option Nat :=
  if s.on .ltxWakeRun n then
    let at' := frameSymbols * s.rd .ltxWakeFrames n + k
    if at' < 2 * 160 * wakeCycles * s.rd .ltxWakeN n then wakeCode at' else none
  else if s.on .ltxMuted n then none
  else
    let k := if s.on .lfrCompatTx n && s.use .ltxPatSel n == 0 then Config.compatHold k else k
    some (clampInt 0 127 (s.rawLineCode n k)).toNat

/-- The cell at position `pos` of the DAC drives its current in sample `k` (R168). -/
def State.cellOn (s : State) (n pos k : Nat) : Bool :=
  let code (j : Nat) : Nat := (s.dacSample n j).getD 0
  cellOutput (cellLatches (code (k - k % 2)) (code (k - k % 2 + 1)) pos) k

end Sys2Proof.Machine
end

