-- ==== Sys2Proof/WellFormed.lean ====
section
/-!
DEFINITION. Which command terms have operands of a shape the bus or the measurement can deliver. The meanings are total:
a list too short reads as zeros, one too long as its first entries.
-/
namespace Sys2Proof

/-- The operands of a command have the shape its rule gives them: an estimate at most for each slice (R95), 41 FFE taps
(R128), 4 levels (R156), the samples that a codeword and its filters reach (R128, R135), a moment within a TIME cycle
(R225), 128 histogram bins (R157), 64 codes a block of the spectral monitor (R166), 135 DAC cells (R168), 9 transmit
taps (R189), 24 islands and 4 rails (R394, R395), 4 diodes (R396), transfer lengths (R436, R439, R443), line lanes below
8 (R21). -/
def Instr.wellFormed (c : Instr) : Bool :=
  match c with
  | .lrxCalDone _ est .. => decide (est.map SliceEst.slice).Nodup
  | .leqAdaptUpdate _ accs _ => accs.length == 41
  | .fomWindowEnd _ _ levels => levels.length == 4
  | .codewordEnqueue _ _ samples => samples.length == 2184
  | .engineRequest _ phase | .queueGrant _ phase | .codewordExpiry _ phase | .engineStopPoint _ phase
  | .engineDeadlineFail _ phase => decide (-2560 ≤ phase ∧ phase ≤ 9813)
  | .histDone _ bins => bins.length == 128
  | .dacCalDone _ trims _ => trims.length == 135
  | .maskAverageEnd _ blocks => blocks.all (fun b => b.length == 64)
  | .msgTxTapReqRx _ _ taps => taps.length == 9
  | .cdbTxTapRequest _ taps => taps.length == 9
  | .thermalModelUpdate counts rails => counts.length == 24 && rails.length == 4
  | .diodeMeasure ds => ds.length == 4
  | .aonDiodeCompare temps => temps.length == 4
  | .hostBusWrite _ _ data => decide (1 ≤ data.length ∧ data.length ≤ 128)
  | .hostBusRead _ _ count => decide (1 ≤ count.toNat ∧ count.toNat ≤ 256)
  | .mcPageHostWrite _ _ off data => decide (1 ≤ data.length ∧ off.toNat + data.length ≤ 128)
  | .spiWrite _ data => decide (1 ≤ data.length ∧ data.length ≤ 2048)
  | .spiRead _ count => decide (1 ≤ count.toNat ∧ count.toNat ≤ 512)
  | .presetWrite b n _ => b == .host || decide (n.val < 8)
  | _ => true

end Sys2Proof
end

