-- ==== Sys2Proof/Tests/Slice0.lean ====
section
/-!
SUPPORT. Small tests of the model: what WellFormed refuses, worked examples of the spec, and for every statement of
Certificates/Slice0 a state and operands that meet the hypotheses of each of its clauses.
-/

set_option Elab.async false

namespace Sys2Proof.Tests
open Sys2Proof.Machine

/-! ## WellFormed refuses what cannot arrive -/

theorem test_wf_two_estimates_of_a_slice : Instr.wellFormed (.lrxCalDone 0 [⟨3, 0, 0, 0⟩, ⟨3, 0, 0, 0⟩] 0 0 0) = false := by decide +kernel
theorem test_wf_40_taps : Instr.wellFormed (.leqAdaptUpdate 0 (List.replicate 40 0) 0) = false := by decide +kernel
theorem test_wf_three_levels : Instr.wellFormed (.fomWindowEnd 0 0 (List.replicate 3 ⟨true, 0, 0⟩)) = false := by decide +kernel
theorem test_wf_histogram_bins : Instr.wellFormed (.histDone 0 [1]) = false := by decide +kernel
theorem test_wf_dac_cells : Instr.wellFormed (.dacCalDone 0 (List.replicate 134 0) 0) = false := by decide +kernel
theorem test_wf_spectrum_bins : Instr.wellFormed (.maskAverageEnd 0 [List.replicate 63 none]) = false := by decide +kernel
theorem test_wf_codeword_samples : Instr.wellFormed (.codewordEnqueue 0 0 (List.replicate 2048 0)) = false := by decide +kernel
theorem test_wf_stop_phase : Instr.wellFormed (.engineStopPoint 0 9814) = false := by decide +kernel
theorem test_wf_partner_taps : Instr.wellFormed (.msgTxTapReqRx 0 1 [0]) = false := by decide +kernel
theorem test_wf_cdb_taps : Instr.wellFormed (.cdbTxTapRequest 0 [0]) = false := by decide +kernel
theorem test_wf_islands : Instr.wellFormed (.thermalModelUpdate [] (List.replicate 4 0)) = false := by decide +kernel
theorem test_wf_diodes : Instr.wellFormed (.diodeMeasure []) = false := by decide +kernel
theorem test_wf_aon_diodes : Instr.wellFormed (.aonDiodeCompare [0]) = false := by decide +kernel
theorem test_wf_bus_write_129 : Instr.wellFormed (.hostBusWrite 0x50 0 (List.replicate 129 0)) = false := by decide +kernel
theorem test_wf_bus_read_257 : Instr.wellFormed (.hostBusRead 0x50 0 257) = false := by decide +kernel
theorem test_wf_buffer_end : Instr.wellFormed (.mcPageHostWrite 0 0x20 127 [1, 2]) = false := by decide +kernel
theorem test_wf_spi_write_empty : Instr.wellFormed (.spiWrite 0 []) = false := by decide +kernel
theorem test_wf_spi_read_513 : Instr.wellFormed (.spiRead 0 513) = false := by decide +kernel
theorem test_wf_line_preset_lane : Instr.wellFormed (.presetWrite .receive 8 0) = false := by decide +kernel
theorem test_wf_bus_write_128 : Instr.wellFormed (.hostBusWrite 0x50 128 (List.replicate 128 0)) = true := by decide +kernel

/-! ## States for tests -/

/-- A field, its value, the instance and the element. -/
abbrev Put := Field × Nat × Nat × Nat

/-- Write fields. -/
def puts (s : State) (l : List Put) : State := s.each l (fun e t => t.wr e.1 e.2.1 e.2.2.1 e.2.2.2)

/-- Put fields in use. -/
def uses (s : State) (l : List Put) : State := s.each l (fun e t => t.setUse e.1 e.2.1 e.2.2.1 e.2.2.2)

/-- Every domain runs and every PLL is locked. -/
def awake : State := puts State.reset
  [(.pwrDomMgmt, 1, 0, 0), (.pwrDomTime, 1, 0, 0), (.pwrDomXbar, 1, 0, 0), (.pwrDomLane, 255, 0, 0), (.pwrDomDecode, 255,
   0, 0), (.pwrDomHost, 15, 0, 0), (.pllState, 2, 0, 0), (.pllState, 2, 1, 0), (.pllState, 2, 2, 0), (.pllState, 2, 3,
   0), (.pllState, 2, 4, 0)]

/-- That state with other fields, as stored and in use. -/
def at0 (r u : List Put) : State := uses (puts awake r) u

/-- The SHA-384 digest of no bytes (FIPS 180-4). -/
def emptyDigest : Nat :=
  8725231785142640510958974801449281668044511174527971820957835005137448197712608590715499503138764434364488379578715

/-- That digest is what the model computes. -/
theorem test_sha384_empty : sha384 [] = emptyDigest := by decide +kernel

/-- CRC-32 of the digits 1 to 9, the check value of its standard. -/
theorem test_crc32 : crc32 [0x31, 0x32, 0x33, 0x34, 0x35, 0x36, 0x37, 0x38, 0x39] = 0xCBF43926 := by decide +kernel

/-- An image of eight groups of one lane with transparent payload. -/
def timg : Image := ⟨true, 4, 0, 0x3208, 0, 0, 1, 1, true, [], 0, 0, 0, 0,
  (List.range 8).map (fun n => (n, StructRecord.portGroup n 1 3 0 7 1)), [], 0, [], []⟩

/-- An image of four sections with one program and the default structure. -/
def gimg : Image := ⟨true, 4, 0, 0x3208, 0, 512, 7, 9, true, [⟨1, true, 128, 64, true⟩, ⟨2, true, 192, 64, true⟩,
  ⟨3, true, 256, 64, true⟩, ⟨5, true, 320, 64, true⟩], 0, 0, 0, 0, [], [⟨1024, 2 * 2 ^ 40 + 3 * 2 ^ 32⟩], 5, [], []⟩

/-- Those images with the digest of no bytes as their own, and as their firmware's. -/
def timgD : Image := { timg with digest := emptyDigest }

@[inherit_doc timgD]
def gimgD : Image := { gimg with firmware := emptyDigest }

/-- The 452 bytes of such an image in a slot, first byte lowest, with its CRC-32 values and a signature that the key of
its witness verifies (written outside Lean from R61, R62 and the standards they name). -/
def gbytes : Nat :=
  0xc4ce0bd0188dc21313610b84d1257dc4f941f94a3027d0ee45c443d7c744076ca8b2740a33ad53f0222825205ce4d335c4ce0bd0188dc21313610b84d1257dc4f941f94a3027d0ee45c443d7c744076ca8b2740a33ad53f0222825205ce4d335000000000000000000000000000000000000000000000000000000000000000004030205000000000000000000000000000000000000000000000000000000000000000000000000000000000000000000000000000000000000000000000000040302030000000000000000000000000000000000000000000000000000000000000000000000000000000000000000000000000000000000000000000000000403020200000000000000000000000000000000000000000000000000000000000000000000000000000000000000000000000000000000000000000000000004030201395e6c9a0000000400000140000001051c353346000000040000010000000103a489542300000004000000c000000102b63cfbcd00000004000000800000010100000000000000000000000000000000000000000000000000000000e94acbf200000004000000000000000200000007000001c4000032080000000444575943

/-- That slot. -/
def gfile : ImageFile := ⟨(List.range 452).map (fun k => BitVec.ofNat 8 (gbytes / 2 ^ (8 * k))),
  ⟨[], [⟨1024, 2 * 2 ^ 40 + 3 * 2 ^ 32⟩], [], []⟩⟩

/-- What a test asks of the state a command answers. -/
def after (o : Out) (p : State → Bool) : Bool :=
  match o with
  | .next t => p t
  | _ => false

/-! ## Worked examples and tables of the spec -/

/-- 00_scope, number formats: 0x3C0 as Q2.8 is -64/256. -/
theorem test_q_format : signedOf 10 0x3C0 = -64 := by decide

/-- 03_line_receive, worked example, step 2: the codes from 48 with AGC_SH 1 (each level a hair below its code's). -/
theorem test_agc_codes_rise : (List.range 8).foldl (fun (l : List Int) _ => l ++ [l.getLastD 0 - agcStep ((l.getLastD 0 - 152) * 32 - 1) 1])
    [48] = [48, 100, 126, 139, 146, 149, 151, 152, 152] := by decide

/-- The same, step 5: the codes from 152 after a rise of 4.2 dB. -/
theorem test_agc_codes_fall : (List.range 7).foldl (fun (l : List Int) _ => l ++ [l.getLastD 0 - agcStep (1075 + (l.getLastD 0 - 152) * 32) 1])
    [152] = [152, 135, 127, 123, 121, 120, 119, 119] := by decide

/-- The same, step 2, first window: LEVEL 20.62 dB with TARGET 48 takes VGA_CODE 48 to 100. -/
theorem test_agc_window : after (execAgcWindow 5 5279 0 (at0 [(.lrxState, 2, 5, 0), (.lrxAcqPhase, 1, 5, 0), (.lrxVgaCode, 48, 5, 0)]
    [(.lrxAgcTarget, 48, 5, 0), (.lrxAgcSh, 1, 5, 0)])) (fun t => t.rd .lrxVgaCode 5 == 100) = true := by decide +kernel

/-- 02_cyward_image, example: Lungo on lane 4 with HOME_Q 16. ERR 0x0D, ERR_LANE 4, REQUIRED 47, CONFIGURED 16, PROFILE 2. -/
theorem test_depth_refusal : (checkDepths
    { timg with records := (List.range 8).map (fun n => (n, StructRecord.portGroup n 1 0 0 (if n = 4 then 5 else 7) 0)) ++ [(8, StructRecord.depth 4 16 88)] }).map
      (fun f => (f.code, f.lane, f.det)) = some (0x0D, some 4, some (2 * 2 ^ 20 + 47 * 2 ^ 8 + 16)) := by decide +kernel

/-- The same: HOME_Q 48 and RELEASE_BUF 96 on every lane exceed the pool. POOL 1, WHICH 1, PROFILE 0, ERR_LANE 0. -/
theorem test_depth_pool : (checkDepths { timg with records := (List.range 8).map (fun n => (n, StructRecord.depth n 48 96)) }).map
      (fun f => (f.code, f.lane, f.det.map (fun d => (bitsOf d 23 23, bitsOf d 22 22, bitsOf d 21 20)))) =
    some (0x0D, some 0, some (1, 1, 0)) := by decide +kernel

/-- 11_optics_control, worked example, step 2: range 3 to 2 takes BASE 1,640 to 3,280. -/
theorem test_range_change : after (execOptTrigger 3 false false (at0 [(.optGlbPuDone, 1, 0, 0), (.optOutRange, 2, 3, 0),
    (.optRangeOld, 3, 3, 0), (.optOutBase, 1640, 3, 0)] [])) (fun t => t.rd .optOutBase 3 0 == 3280 &&
      !(t.rd .optLnIntStatus 3).testBit Irq.optLnRangeClamp) = true := by decide +kernel

/-- The same, step 7: range 2 to 1 gives 6,560, so BASE 4,095 with RANGE_CLAMP. -/
theorem test_range_clamp : after (execOptTrigger 3 false false (at0 [(.optGlbPuDone, 1, 0, 0), (.optOutRange, 1, 3, 0),
    (.optRangeOld, 2, 3, 0), (.optOutBase, 3280, 3, 0)] [])) (fun t => t.rd .optOutBase 3 0 == 4095 &&
      (t.rd .optLnIntStatus 3).testBit Irq.optLnRangeClamp) = true := by decide +kernel

/-- 10_clocks, worked example, step 3: REF_HOLD_US expires; one loss of lock per PLL, REF_LOSS 1, line receive to CAL. -/
theorem test_reference_outage : after (execRefHoldExpiry (at0 [(.clkRefLost, 1, 0, 0), (.clkOutage, 1, 0, 0), (.lrxState, 5, 2, 0),
    (.pllState, 3, 0, 0), (.pllState, 3, 1, 0), (.pllState, 3, 2, 0), (.pllState, 3, 3, 0), (.pllState, 3, 4, 0)] []))
    (fun t => t.rd .clkRefLossCnt == 1 && t.rd .pllLolCnt 4 == 1 && t.rd .lrxState 2 == 1 && t.rd .pllState 0 == 3) = true := by
  decide +kernel

/-- 12_power_states, worked example, step 7: LRX2 refuses late; reason LATE_EVENT, LATE 1, the done steps wake. -/
theorem test_late_refusal : after (execLateRefusal (.lane 2 false) 0 2 { at0 [(.pwrLnIngSleep, 1, 2, 0)] [] with
    votes := [⟨2, false, 2, [⟨⟨0, 2⟩, true, 2⟩], []⟩] })
    (fun t => t.rd .pwrRefReason == 11 && t.rd .pwrRefLate == 1 && t.rd .pwrRefInstance == 2 && t.votes == []) = true := by
  decide +kernel

/-- 06 and 09: release holds of the three profiles, 352.204 ns + the stages of R237, in line UI. -/
theorem test_release_hold : ([0, 1, 2].map (fun p => (at0 [(.lrxState, 5, 0, 0), (.lfrProfActive, p, 0, 0)] []).holdUi 0)) =
    [5033, 79833, 165966] := by decide +kernel

/-- 19_register_index, address map: LRX_GAIN of lane 3, the third word of an FIFO, an address between the blocks. -/
theorem test_addresses : (regAt 0x130010).map (fun r => (r.block, r.inst, r.base)) = some (.lrx, 3, 0x10) ∧
    (regAt 0x500140).map (fun r => (r.block, r.inst, r.base)) = some (.pll, 2, 0) ∧ regAt 0x20000 = none := by decide +kernel

/-- 00_scope: GLB_STEPPING reads part 0x3208. -/
theorem test_stepping_read : (awake.busRead 0x10004).1.1 / 2 ^ 16 = 0x3208 := by decide +kernel

/-- The opcode table gives no bits. -/
theorem test_no_words : decodeTableWord 8 0 = none := by decide

/-! ## Witnesses -/


/-- The hypotheses of every clause of `LaneReceiveEnableDisable` can be met. -/
theorem witness_LaneReceiveEnableDisable :
  (∃ n : Lane, ∃ s : State, s.reaches .lrx n ∧ s.underTest 1 n = false ∧ s.underTest 4 n = false ∧ s.on .lrxHeldOff n
    = false ∧ s.laneFree n = true ∧ s.rd .lrxState n = 0) ∧
  (∃ n : Lane, ∃ s : State, s.reaches .lrx n ∧ s.underTest 1 n = false ∧ s.underTest 4 n = false ∧ s.on .lrxHeldOff n
    = true) ∧
  (∃ n : Lane, ∃ s : State, s.reaches .lrx n) ∧
  (∃ n : Lane, ∃ s : State, s.reaches .lrx n ∧ s.underTest 1 n = false ∧ s.underTest 4 n = false ∧ (s.lrxInTraffic n =
    true ∨ (s.rd .lrxState n = 7 ∧ s.rd .lrxFaultCause n ≠ 9)) ∧ s.rxPlls n = true) ∧
  (∃ n : Lane, ∃ s : State, s.reaches .lrx n ∧ s.underTest 1 n = false ∧ s.underTest 4 n = false ∧ (s.lrxInTraffic n =
    true ∨ (s.rd .lrxState n = 7 ∧ s.rd .lrxFaultCause n ≠ 9)) ∧ s.rxPlls n = false) ∧
  (∃ n : Lane, ∃ s : State, s.reaches .lrx n ∧ s.underTest 1 n = false ∧ s.underTest 4 n = false ∧ s.lrxInTraffic n =
    false ∧ (s.rd .lrxState n = 7 → s.rd .lrxFaultCause n = 9)) :=
  ⟨⟨3, (at0 [(.lrxState, 0, 3, 0), (.lrxHeldOff, 0, 3, 0), (.pwrDevState, 0, 0, 0), (.thmLnShutdown, 0, 0, 3),
     (.hltFailXbar, 0, 0, 0)] []), by unfold State.reaches; decide +kernel⟩,
   ⟨3, (at0 [(.lrxHeldOff, 1, 3, 0)] []), by unfold State.reaches; decide +kernel⟩,
   ⟨5, (at0 [(.lrxState, 5, 5, 0), (.lrxEnable, 1, 5, 0), (.lrxFaultCause, 3, 5, 0)] []),
     by unfold State.reaches; decide +kernel⟩,
   ⟨2, (at0 [(.lrxState, 4, 2, 0), (.lrxSd, 1, 2, 0), (.lrxRetry, 2, 2, 0)] []), by unfold State.reaches; decide +kernel⟩,
   ⟨2, (at0 [(.lrxState, 7, 2, 0), (.lrxFaultCause, 4, 2, 0), (.pllState, 5, 0, 0)] []),
     by unfold State.reaches; decide +kernel⟩,
   ⟨2, (at0 [(.lrxState, 7, 2, 0), (.lrxFaultCause, 9, 2, 0)] []), by unfold State.reaches; decide +kernel⟩⟩

/-- The hypotheses of every clause of `LaneReceiveCalibrationAndSleep` can be met. -/
theorem witness_LaneReceiveCalibrationAndSleep :
  (∃ n : Lane, ∃ est : List SliceEst, ∃ s : State, s.rd .lrxState n = 1 ∧ s.rxPlls n = true ∧ ((s.on .lrxMapValid n ||
    s.on .lrxRecValid n) = true ∨ ∀ e ∈ est, sliceOk e.offset e.gain e.skew = true)) ∧
  (∃ n : Lane, ∃ s : State, s.rd .lrxState n = 1 ∧ s.rd .hltAction 0 3 ≤ 1) ∧
  (∃ n : Lane, ∃ s : State, s.reaches .lrx n ∧ s.underTest 1 n = false ∧ s.underTest 4 n = false ∧ s.rxGrid n = true) ∧
  (∃ n : Lane, ∃ s : State, s.Inv ∧ s.reaches .lrx n ∧ s.underTest 1 n = false ∧ s.underTest 4 n = false ∧ s.rxGrid n
    = false) ∧
  (∃ n : Lane, ∃ offset : Int, ∃ gain : Int, ∃ skew : Int, ∃ s : State, s.on .lrxCalActive n = true ∧ s.on
    .lrxSwapReady n = false ∧ sliceOk offset gain skew = true) ∧
  (∃ n : Lane, ∃ tx : Bool, ∃ s : State, (tx = true → s.on .ltxSwapDeferred n = true) ∧ (tx = false → s.on
    .lrxSwapDeferred n = true)) ∧
  (∃ n : Lane, ∃ s : State, s.on .lrxSleep n = true) ∧
  (∃ n : Lane, ∃ ok : Bool, ∃ recOk : Bool, ∃ s : State, s.on .lrxSleep n = true ∧ s.on .lrxWakeRun n = true ∧ ok =
    true ∧ (s.rd .pwrLnLrxPstate n = 5 → recOk = true)) ∧
  (∃ n : Lane, ∃ ok : Bool, ∃ recOk : Bool, ∃ s : State, s.on .lrxSleep n = true ∧ s.on .lrxWakeRun n = true ∧ ok =
    false ∧ (s.rd .pwrLnLrxPstate n = 5 → recOk = true)) :=
  ⟨⟨1, [⟨3, 5, -7, 100⟩], (at0 [(.lrxState, 1, 1, 0), (.lrxSd, 1, 1, 0)] []), by decide +kernel⟩,
   ⟨1, (at0 [(.lrxState, 1, 1, 0), (.hltAction, 0, 0, 3)] []), by decide +kernel⟩,
   ⟨4, (at0 [(.lrxState, 3, 4, 0)] []), by unfold State.reaches; decide +kernel⟩,
   ⟨4, (at0 [(.lrxState, 0, 4, 0), (.lrxAgcTarget, 50, 4, 0)] []),
     by unfold State.reaches; unfold State.Inv State.shaped; decide +kernel⟩,
   ⟨6, -100, 500, -512, (at0 [(.lrxCalActive, 1, 6, 0), (.lrxSwapReady, 0, 6, 0), (.pwrWarn, 0, 0, 0), (.lrxAdcSpare, 64,
     6, 0)] []), by decide +kernel⟩,
   ⟨6, true, (at0 [(.ltxSwapDeferred, 1, 6, 0), (.ltxSwapReady, 1, 6, 0)] []), by decide +kernel⟩,
   ⟨7, (at0 [(.lrxSleep, 1, 7, 0)] []), by decide +kernel⟩,
   ⟨7, true, true, (at0 [(.lrxSleep, 1, 7, 0), (.lrxWakeRun, 1, 7, 0), (.lrxState, 5, 7, 0)] []), by decide +kernel⟩,
   ⟨7, false, true, (at0 [(.lrxSleep, 1, 7, 0), (.lrxWakeRun, 1, 7, 0), (.lrxState, 5, 7, 0), (.pwrLnLrxPstate, 4, 7, 0)]
     []), by decide +kernel⟩⟩

/-- The hypotheses of every clause of `LaneReceiveSignalAndService` can be met. -/
theorem witness_LaneReceiveSignalAndService :
  (∃ n : Lane, ∃ s : State, s.sdPowered n = true ∧ s.on .lrxSd n = false ∧ s.rd .lrxState n = 2 ∧ s.rd .lrxAcqPhase n
    = 0 ∧ s.ratePermitted n = true ∧ s.on .lrxSleep n = false ∧ s.rd .pwrDevState ≠ 1 ∧ s.rd .pwrDevState ≠ 2) ∧
  (∃ n : Lane, ∃ s : State, s.sdPowered n = true ∧ s.on .lrxSd n = false) ∧
  (∃ n : Lane, ∃ s : State, s.on .lrxSd n = true) ∧
  (∃ n : Lane, ∃ s : State, s.on .lrxSd n = true ∧ s.on .lrxSleep n = false ∧ s.lrxInTraffic n = true) ∧
  (∃ n : Lane, ∃ s : State, s.sdPowered n = true) ∧
  (∃ n : Lane, ∃ s : State, s.sdPowered n = false) ∧
  (∃ n : Lane, ∃ s : State, 2 ≤ s.rd .lrxState n) ∧
  (∃ n : Lane, ∃ s : State, s.rd .lrxState n ≤ 1) ∧
  (∃ n : Lane, ∃ s : State, s.rd .lrxState n = 4 ∧ s.on .lrxSleep n = false ∧ s.on .lrxReleased n = true ∧ (s.rd
    .timLnLedFlags n).testBit 0 = true ∧ (s.activeHosts n).all (fun h => s.on .hifTxReady h) = true ∧ s.on
    .lrxServiceEn n = true) ∧
  (∃ n : Lane, ∃ s : State, s.rd .lrxState n = 5 ∧ s.on .lrxSleep n = false ∧ s.on .lrxServiceEn n = false) :=
  ⟨⟨0, (at0 [(.lrxEnable, 1, 0, 0), (.lrxState, 2, 0, 0), (.lrxSd, 0, 0, 0), (.lrxAcqPhase, 0, 0, 0), (.lfrNoRate, 0, 0,
     0), (.lrxSleep, 0, 0, 0), (.pwrDevState, 0, 0, 0)] []), by decide +kernel⟩,
   ⟨0, (at0 [(.lrxEnable, 1, 0, 0), (.lrxState, 4, 0, 0), (.lrxSd, 0, 0, 0), (.pwrDevState, 0, 0, 0)] []),
     by decide +kernel⟩,
   ⟨0, (at0 [(.lrxState, 1, 0, 0), (.lrxSd, 1, 0, 0)] []), by decide +kernel⟩,
   ⟨0, (at0 [(.lrxState, 5, 0, 0), (.lrxSd, 1, 0, 0), (.lrxSleep, 0, 0, 0)] []), by decide +kernel⟩,
   ⟨0, (at0 [(.lrxEnable, 1, 0, 0), (.pwrDevState, 0, 0, 0)] []), by decide +kernel⟩,
   ⟨0, (at0 [(.lrxEnable, 0, 0, 0)] []), by decide +kernel⟩,
   ⟨0, (at0 [(.lrxState, 4, 0, 0)] []), by decide +kernel⟩,
   ⟨0, (at0 [(.lrxState, 1, 0, 0)] []), by decide +kernel⟩,
   ⟨3, (at0 [(.lrxState, 4, 3, 0), (.lrxReleased, 1, 3, 0), (.timLnLedFlags, 1, 3, 0), (.hifGlbMapHostA, 6, 0, 3),
     (.hifGlbMapHostB, 7, 0, 3), (.hifTxReady, 1, 6, 0), (.hifTxReady, 1, 7, 0), (.lrxServiceEn, 1, 3, 0)] []),
     by decide +kernel⟩,
   ⟨3, (at0 [(.lrxState, 5, 3, 0), (.lrxServiceEn, 0, 3, 0)] []), by decide +kernel⟩⟩

/-- The hypotheses of every clause of `LaneReceiveAcquisition` can be met. -/
theorem witness_LaneReceiveAcquisition :
  (∃ n : Lane, ∃ level : Nat, ∃ s : State, s.rd .lrxState n = 2 ∧ s.on .lrxSleep n = false ∧ s.rd .lrxAcqPhase n = 1 ∧
    s.rd .lrxAgcState n = 0 ∧ (levelErr (level % 65536) (s.use .lrxAgcTarget n)).natAbs ≥ 129) ∧
  (∃ n : Lane, ∃ avgErr : Int, ∃ s : State, s.lrxInTraffic n = true ∧ s.rd .lrxAgcState n = 2 ∧ s.on .lrxSleep n =
    false ∧ s.use .lrxTrimEn n ≠ 0 ∧ s.warning = false ∧ 64 < avgErr.natAbs ∧ (2 * (s.rdInt .lrxTrim n + (if 0 <
    avgErr then -1 else 1)).natAbs ≤ s.use .lrxTrimRange n)) ∧
  (∃ n : Lane, ∃ errs : List Int, ∃ s : State, s.rd .lrxState n = 2 ∧ s.rd .lrxAcqPhase n = 2 ∧ s.on .lrxSleep n =
    false ∧ s.on .lrxCdrLock n = false ∧ ((cdrInRange lineUi ((CdrLoop.run (s.cdrGains n).1 (s.cdrGains n).2 ⟨s.rdInt
    .lrxCdrInt n, 0, 0, 0⟩ 1450 (if s.use .lrxCdrHold n ≠ 0 then [] else errs)).integ) && cdrQuiet lineUi (s.rdInt
    .lrxCdrInt n) ((CdrLoop.run (s.cdrGains n).1 (s.cdrGains n).2 ⟨s.rdInt .lrxCdrInt n, 0, 0, 0⟩ 1450 (if s.use
    .lrxCdrHold n ≠ 0 then [] else errs)).integ)) = true) ∧ 7 ≤ s.rd .lrxQuietInt n) ∧
  (∃ n : Lane, ∃ errs : List Int, ∃ s : State, s.rd .lrxState n = 2 ∧ s.rd .lrxAcqPhase n = 2 ∧ s.on .lrxSleep n =
    false ∧ s.on .lrxCdrLock n = false ∧ ((cdrInRange lineUi ((CdrLoop.run (s.cdrGains n).1 (s.cdrGains n).2 ⟨s.rdInt
    .lrxCdrInt n, 0, 0, 0⟩ 1450 (if s.use .lrxCdrHold n ≠ 0 then [] else errs)).integ) && cdrQuiet lineUi (s.rdInt
    .lrxCdrInt n) ((CdrLoop.run (s.cdrGains n).1 (s.cdrGains n).2 ⟨s.rdInt .lrxCdrInt n, 0, 0, 0⟩ 1450 (if s.use
    .lrxCdrHold n ≠ 0 then [] else errs)).integ)) = true) ∧ s.rd .lrxQuietInt n < 7) ∧
  (∃ n : Lane, ∃ errs : List Int, ∃ s : State, s.rd .lrxState n = 2 ∧ s.rd .lrxAcqPhase n = 2 ∧ s.on .lrxSleep n =
    false ∧ s.on .lrxCdrLock n = false ∧ ((cdrInRange lineUi ((CdrLoop.run (s.cdrGains n).1 (s.cdrGains n).2 ⟨s.rdInt
    .lrxCdrInt n, 0, 0, 0⟩ 1450 (if s.use .lrxCdrHold n ≠ 0 then [] else errs)).integ) && cdrQuiet lineUi (s.rdInt
    .lrxCdrInt n) ((CdrLoop.run (s.cdrGains n).1 (s.cdrGains n).2 ⟨s.rdInt .lrxCdrInt n, 0, 0, 0⟩ 1450 (if s.use
    .lrxCdrHold n ≠ 0 then [] else errs)).integ)) = false)) ∧
  (∃ n : Lane, ∃ phase : Fin 5, ∃ s : State, s.rd .lrxState n = 2 ∧ phase.val ≠ 0 ∧ s.rd .lrxAcqPhase n = phase.val ∧
    s.rd .lrxRetry n < s.rd .lrxRetryMax n) ∧
  (∃ n : Lane, ∃ phase : Fin 5, ∃ s : State, s.rd .lrxState n = 2 ∧ phase.val ≠ 0 ∧ s.rd .lrxAcqPhase n = phase.val ∧
    s.rd .lrxRetryMax n ≤ s.rd .lrxRetry n ∧ s.rd .hltAction 0 3 ≤ 1) ∧
  (∃ n : Lane, ∃ s : State, s.rd .lrxState n = 3 ∧ s.rd .hltAction 0 3 ≤ 1) ∧
  (∃ n : Lane, ∃ s : State, s.rd .lrxState n = 7 ∧ s.on .lrxRestartArm n = true ∧ s.on .lrxAutoRestart n = true ∧ s.rd
    .lrxFaultCause n ≠ 1 ∧ s.rxPlls n = true) ∧
  (∃ n : Lane, ∃ s : State, s.rd .lrxState n = 7 ∧ s.on .lrxRestartArm n = true ∧ s.on .lrxAutoRestart n = true ∧ s.rd
    .lrxFaultCause n = 1) :=
  ⟨⟨3, 9000, (at0 [(.lrxState, 2, 3, 0), (.lrxAcqPhase, 1, 3, 0), (.lrxAgcState, 0, 3, 0), (.lrxSleep, 0, 3, 0),
     (.lrxVgaCode, 48, 3, 0)] []), by decide +kernel⟩,
   ⟨3, 70, (at0 [(.lrxState, 4, 3, 0), (.lrxAgcState, 2, 3, 0), (.lrxSleep, 0, 3, 0), (.lrxTrim, 0, 3, 0), (.pwrWarn, 0,
     0, 0)] [(.lrxTrimEn, 1, 3, 0), (.lrxTrimRange, 4, 3, 0)]), by decide +kernel⟩,
   ⟨3, [], (at0 [(.lrxState, 2, 3, 0), (.lrxAcqPhase, 2, 3, 0), (.lrxSleep, 0, 3, 0), (.lrxCdrLock, 0, 3, 0),
     (.lrxCdrInt, 0, 3, 0), (.lrxQuietInt, 7, 3, 0)] [(.lrxCdrHold, 0, 3, 0)]), by decide +kernel⟩,
   ⟨3, [], (at0 [(.lrxState, 2, 3, 0), (.lrxAcqPhase, 2, 3, 0), (.lrxSleep, 0, 3, 0), (.lrxCdrLock, 0, 3, 0),
     (.lrxCdrInt, 0, 3, 0), (.lrxQuietInt, 6, 3, 0)] [(.lrxCdrHold, 0, 3, 0)]), by decide +kernel⟩,
   ⟨3, [], (at0 [(.lrxState, 2, 3, 0), (.lrxAcqPhase, 2, 3, 0), (.lrxSleep, 0, 3, 0), (.lrxCdrLock, 0, 3, 0),
     (.lrxCdrInt, 4000000000000000, 3, 0), (.lrxQuietInt, 6, 3, 0)] [(.lrxCdrHold, 0, 3, 0)]), by decide +kernel⟩,
   ⟨3, 2, (at0 [(.lrxState, 2, 3, 0), (.lrxAcqPhase, 2, 3, 0), (.lrxRetry, 0, 3, 0), (.lrxRetryMax, 3, 3, 0)] []),
     by decide +kernel⟩,
   ⟨3, 4, (at0 [(.lrxState, 2, 3, 0), (.lrxAcqPhase, 4, 3, 0), (.lrxRetry, 3, 3, 0), (.lrxRetryMax, 3, 3, 0),
     (.hltAction, 1, 0, 3)] []), by decide +kernel⟩,
   ⟨3, (at0 [(.lrxState, 3, 3, 0), (.hltAction, 1, 0, 3)] []), by decide +kernel⟩,
   ⟨3, (at0 [(.lrxState, 7, 3, 0), (.lrxRestartArm, 1, 3, 0), (.lrxAutoRestart, 1, 3, 0), (.lrxFaultCause, 3, 3, 0)] []),
     by decide +kernel⟩,
   ⟨3, (at0 [(.lrxState, 7, 3, 0), (.lrxRestartArm, 1, 3, 0), (.lrxAutoRestart, 1, 3, 0), (.lrxFaultCause, 1, 3, 0)] []),
     by decide +kernel⟩⟩

/-- The hypotheses of every clause of `LineEqualiser` can be met. -/
theorem witness_LineEqualiser :
  (∃ n : Lane, ∃ s : State, s.reaches .leq n ∧ s.underTest 1 n = false ∧ s.underTest 4 n = false ∧ s.warning = false ∧
    s.rxGrid n = true) ∧
  (∃ n : Lane, ∃ s : State, s.reaches .leq n ∧ s.underTest 1 n = false ∧ s.underTest 4 n = false ∧ s.warning = true) ∧
  (∃ n : Lane, ∃ s : State, s.Inv ∧ s.reaches .leq n ∧ s.underTest 1 n = false ∧ s.underTest 4 n = false ∧ s.warning =
    false ∧ s.rxGrid n = false) ∧
  (∃ n : Lane, ∃ s : State, s.reaches .leq n ∧ s.rxGrid n = true) ∧
  (∃ n : Lane, ∃ s : State, s.reaches .leq n ∧ s.rxGrid n = false) ∧
  (∃ n : Lane, ∃ s : State, s.reaches .leq n ∧ s.rd .lrxState n ≠ 0) ∧
  (∃ n : Lane, ∃ s : State, s.reaches .leq n ∧ s.rd .lrxState n = 0) ∧
  (∃ n : Lane, ∃ s : State, s.on .leqHistRun n = true) ∧
  (∃ n : Lane, ∃ s : State, s.leqDd n = true ∧ s.leqHold n = 0 ∧ s.rd .leqMode n = 2) ∧
  (∃ n : Lane, ∃ s : State, s.leqDd n = true ∧ s.leqHold n ≠ 0 ∧ s.rd .lrxState n ≠ 7) ∧
  (∃ n : Lane, ∃ s : State, s.leqDd n = true ∧ s.leqHold n = 0 ∧ s.rd .leqMode n ≠ 2) ∧
  (∃ n : Lane, ∃ mse : Nat, ∃ s : State, s.rd .lrxState n = 2 ∧ 3 ≤ s.rd .lrxAcqPhase n ∧ s.on .lrxSleep n = false ∧
    fomExact (min mse (2 ^ 24 - 1)) = true) ∧
  (∃ n : Lane, ∃ mse : Nat, ∃ s : State, s.rd .lrxState n = 3 ∧ s.on .lrxSleep n = false ∧ fomExact (min mse (2 ^ 24 -
    1)) = true ∧ (s.groupOf n).lanes.all (fun k => s.rd .lfrNegState k = 3 && s.negWord k == s.negWord n) = true ∧
    s.fomLock n ≤ min (fomFloor (min mse (2 ^ 24 - 1))) 65535) :=
  ⟨⟨2, (at0 [(.lrxState, 4, 2, 0), (.pwrWarn, 0, 0, 0)] []), by unfold State.reaches; decide +kernel⟩,
   ⟨2, (at0 [(.lrxState, 4, 2, 0), (.pwrWarn, 1, 0, 0)] []), by unfold State.reaches; decide +kernel⟩,
   ⟨2, (at0 [(.lrxState, 0, 2, 0), (.pwrWarn, 0, 0, 0), (.leqFomWin, 3, 2, 0)] []),
     by unfold State.reaches; unfold State.Inv State.shaped; decide +kernel⟩,
   ⟨2, (at0 [(.lrxState, 4, 2, 0)] []), by unfold State.reaches; decide +kernel⟩,
   ⟨2, (at0 [(.lrxState, 1, 2, 0), (.leqTapLive, 99, 2, 7)] []), by unfold State.reaches; decide +kernel⟩,
   ⟨2, (at0 [(.lrxState, 4, 2, 0), (.leqHist, 9, 2, 5)] []), by unfold State.reaches; decide +kernel⟩,
   ⟨2, (at0 [(.lrxState, 0, 2, 0)] []), by unfold State.reaches; decide +kernel⟩,
   ⟨2, (at0 [(.leqHistRun, 1, 2, 0)] []), by decide +kernel⟩,
   ⟨4, (at0 [(.lrxState, 4, 4, 0), (.leqAdaptEn, 1, 4, 0), (.lrxCdrLock, 1, 4, 0), (.lrxSleep, 0, 4, 0), (.pwrWarn, 0, 0,
     0), (.leqMode, 2, 4, 0)] []), by decide +kernel⟩,
   ⟨4, (at0 [(.lrxState, 4, 4, 0), (.leqAdaptEn, 0, 4, 0)] []), by decide +kernel⟩,
   ⟨4, (at0 [(.lrxState, 4, 4, 0), (.leqAdaptEn, 1, 4, 0), (.lrxCdrLock, 1, 4, 0), (.lrxSleep, 0, 4, 0), (.pwrWarn, 0, 0,
     0), (.leqMode, 1, 4, 0)] []), by decide +kernel⟩,
   ⟨4, 131072, (at0 [(.lrxState, 2, 4, 0), (.lrxAcqPhase, 4, 4, 0), (.lrxSleep, 0, 4, 0)] []), by decide +kernel⟩,
   ⟨4, 0, (at0 [(.lrxState, 3, 4, 0), (.lrxSleep, 0, 4, 0), (.leqMode, 3, 4, 0), (.lfrNegState, 3, 4, 0)] []),
     by decide +kernel⟩⟩

/-- The hypotheses of every clause of `LaneTransmitEnable` can be met. -/
theorem witness_LaneTransmitEnable :
  (∃ n : Lane, ∃ s : State, s.reaches .ltx n ∧ s.underTest 1 n = false ∧ s.underTest 4 n = false ∧ s.on .ltxHeldOff n
    = false ∧ s.rd .lrxState n = 0 ∧ s.rd .ltxState n = 0) ∧
  (∃ n : Lane, ∃ s : State, s.reaches .ltx n ∧ s.underTest 1 n = false ∧ s.underTest 4 n = false ∧ s.on .ltxHeldOff n
    = true) ∧
  (∃ n : Lane, ∃ s : State, s.rd .ltxState n = 1 ∧ s.on .ltxTxEn n = true ∧ s.ltxHold n = 0 ∧ s.pinsUnderTest n =
    false ∧ s.envGrants n = true) ∧
  (∃ n : Lane, ∃ s : State, s.rd .ltxState n = 1 ∧ s.on .ltxTxEn n = true ∧ s.ltxHold n = 0 ∧ s.pinsUnderTest n =
    false ∧ s.envGrants n = false ∧ s.rd .hltAction 0 8 ≤ 1) ∧
  (∃ n : Lane, ∃ s : State, s.on .ltxTmoRun n = true ∧ s.rd .ltxState n ≠ 7 ∧ s.rd .hltAction 0 8 ≤ 1) ∧
  (∃ n : Lane, ∃ drvFltHigh : Bool, ∃ s : State, s.rd .ltxState n = 2 ∧ s.on .ltxDrvEn n = true ∧ drvFltHigh = true ∧
    s.envGrants n = true) ∧
  (∃ n : Lane, ∃ drvFltHigh : Bool, ∃ s : State, s.rd .ltxState n = 2 ∧ s.on .ltxDrvEn n = true ∧ drvFltHigh = false ∧
    s.rd .hltAction 0 8 ≤ 1) ∧
  (∃ n : Lane, ∃ s : State, s.rd .ltxState n = 3 ∧ s.on .ltxActPend n = false ∧ s.rd .hltAction 0 8 ≤ 1) ∧
  (∃ n : Lane, ∃ s : State, s.rd .ltxState n = 3 ∧ s.on .ltxActPend n = true) :=
  ⟨⟨1, (at0 [(.ltxHeldOff, 0, 1, 0), (.lrxState, 0, 1, 0), (.ltxState, 0, 1, 0)] []),
     by unfold State.reaches; decide +kernel⟩,
   ⟨1, (at0 [(.ltxHeldOff, 1, 1, 0)] []), by unfold State.reaches; decide +kernel⟩,
   ⟨1, (at0 [(.ltxState, 1, 1, 0), (.ltxTxEn, 1, 1, 0), (.lrxState, 2, 1, 0), (.ltxDacCal, 1, 1, 0), (.optLnOffTime, 0,
     1, 0), (.optGlbLaneMask, 255, 0, 0), (.hltFailCtrlDac, 0, 0, 0), (.hltFailEnvelope, 0, 0, 0), (.hltFailMonAdc, 0,
     0, 0)] []), by decide +kernel⟩,
   ⟨1, (at0 [(.ltxState, 1, 1, 0), (.ltxTxEn, 1, 1, 0), (.lrxState, 2, 1, 0), (.ltxDacCal, 1, 1, 0), (.optLnOffTime, 0,
     1, 0), (.optGlbLaneMask, 0, 0, 0), (.hltAction, 1, 0, 8)] []), by decide +kernel⟩,
   ⟨1, (at0 [(.ltxTmoRun, 1, 1, 0), (.ltxState, 0, 1, 0), (.hltAction, 1, 0, 8)] []), by decide +kernel⟩,
   ⟨1, true, (at0 [(.ltxState, 2, 1, 0), (.ltxDrvEn, 1, 1, 0), (.optGlbLaneMask, 255, 0, 0), (.hltFailCtrlDac, 0, 0, 0),
     (.hltFailEnvelope, 0, 0, 0), (.hltFailMonAdc, 0, 0, 0)] []), by decide +kernel⟩,
   ⟨1, false, (at0 [(.ltxState, 2, 1, 0), (.ltxDrvEn, 1, 1, 0), (.hltAction, 1, 0, 8)] []), by decide +kernel⟩,
   ⟨1, (at0 [(.ltxState, 3, 1, 0), (.ltxActPend, 0, 1, 0), (.hltAction, 1, 0, 8)] []), by decide +kernel⟩,
   ⟨1, (at0 [(.ltxState, 3, 1, 0), (.ltxActPend, 1, 1, 0)] []), by decide +kernel⟩⟩

/-- The hypotheses of every clause of `LaneTransmitDisableAndFault` can be met. -/
theorem witness_LaneTransmitDisableAndFault :
  (∃ n : Lane, ∃ trigger : DisableTrigger, ∃ s : State, s.Inv ∧ trigger = .txEnCleared ∧ s.reaches .ltx n ∧ s.rd
    .ltxState n = 4 ∧ s.on .ltxLsrEn n = true ∧ s.on .ltxSleep n = false) ∧
  (∃ n : Lane, ∃ trigger : DisableTrigger, ∃ s : State, trigger = .txEnCleared ∧ s.reaches .ltx n ∧ s.rd .ltxState n =
    7) ∧
  (∃ n : Lane, ∃ s : State, s.rd .ltxState n = 5 ∧ s.on .ltxLsrEn n = true ∧ s.on .ltxHoldRun n = false) ∧
  (∃ n : Lane, ∃ s : State, s.rd .ltxState n = 5 ∧ s.on .ltxHoldRun n = true ∧ s.on .ltxTxEn n = false) ∧
  (∃ n : Lane, ∃ s : State, s.reaches .ltx n ∧ s.underTest 1 n = false ∧ s.underTest 4 n = false ∧ s.rd .ltxState n =
    7 ∧ s.rd .ltxFaultCause n ≠ 8) ∧
  (∃ n : Lane, ∃ s : State, s.reaches .ltx n ∧ s.underTest 1 n = false ∧ s.underTest 4 n = false ∧ (s.rd .ltxState n ≠
    7 ∨ s.rd .ltxFaultCause n = 8)) ∧
  (∃ n : Lane, ∃ s : State, s.on .ltxDrvEn n = true ∧ (s.rd .ltxState n = 2 ∨ s.rd .ltxState n = 3 ∨ s.rd .ltxState n
    = 4) ∧ s.rd .hltAction 0 8 ≤ 1) ∧
  (∃ n : Lane, ∃ s : State, s.rd .ltxState n = 7 ∧ s.on .ltxDacOffRun n = true) ∧
  (∃ n : Lane, ∃ s : State, s.rd .ltxState n = 7 ∧ s.on .ltxRestartArm n = true ∧ s.on .ltxAutoRestart n = true) :=
  ⟨⟨6, .txEnCleared, (at0 [(.ltxState, 4, 6, 0), (.ltxLsrEn, 1, 6, 0), (.ltxSleep, 0, 6, 0), (.ltxDrvEn, 1, 6, 0)] []),
     by unfold State.reaches; unfold State.Inv State.shaped; decide +kernel⟩,
   ⟨6, .txEnCleared, (at0 [(.ltxState, 7, 6, 0), (.ltxFaultCause, 2, 6, 0)] []), by unfold State.reaches; decide +kernel⟩,
   ⟨6, (at0 [(.ltxState, 5, 6, 0), (.ltxLsrEn, 1, 6, 0), (.ltxHoldRun, 0, 6, 0)] []), by decide +kernel⟩,
   ⟨6, (at0 [(.ltxState, 5, 6, 0), (.ltxHoldRun, 1, 6, 0), (.ltxTxEn, 0, 6, 0)] []), by decide +kernel⟩,
   ⟨6, (at0 [(.ltxState, 7, 6, 0), (.ltxFaultCause, 2, 6, 0)] []), by unfold State.reaches; decide +kernel⟩,
   ⟨6, (at0 [(.ltxState, 7, 6, 0), (.ltxFaultCause, 8, 6, 0)] []), by unfold State.reaches; decide +kernel⟩,
   ⟨6, (at0 [(.ltxDrvEn, 1, 6, 0), (.ltxState, 4, 6, 0), (.hltAction, 1, 0, 8)] []), by decide +kernel⟩,
   ⟨6, (at0 [(.ltxState, 7, 6, 0), (.ltxDacOffRun, 1, 6, 0), (.ltxDacOn, 1, 6, 0)] []), by decide +kernel⟩,
   ⟨6, (at0 [(.ltxState, 7, 6, 0), (.ltxRestartArm, 1, 6, 0), (.ltxAutoRestart, 1, 6, 0), (.ltxFaultCause, 6, 6, 0)] []),
     by decide +kernel⟩⟩

/-- The hypotheses of every clause of `LaneTransmitDacMaskAndWake` can be met. -/
theorem witness_LaneTransmitDacMaskAndWake :
  (∃ n : Lane, ∃ s : State, s.reaches .ltx n ∧ s.underTest 1 n = false ∧ s.underTest 4 n = false ∧ s.warning = false ∧
    s.rd .ltxState n ≠ 0) ∧
  (∃ n : Lane, ∃ s : State, s.Inv ∧ s.reaches .ltx n ∧ s.underTest 1 n = false ∧ s.underTest 4 n = false ∧ s.warning =
    false ∧ s.rd .ltxState n = 0) ∧
  (∃ n : Lane, ∃ s : State, s.reaches .ltx n ∧ s.underTest 1 n = false ∧ s.underTest 4 n = false ∧ s.warning = true) ∧
  (∃ n : Lane, ∃ intlv : Int, ∃ s : State, s.rd .ltxState n = 1 ∧ s.rd .ltxDacCalRun n = 2 ∧ s.pllRuns (linePll n) =
    true ∧ s.warning = false ∧ (-64 ≤ intlv ∧ intlv ≤ 63)) ∧
  (∃ n : Lane, ∃ trim : Int, ∃ s : State, s.on .ltxCalActive n = true ∧ s.on .ltxSwapReady n = false ∧ (-32 ≤ trim ∧
    trim ≤ 31)) ∧
  (∃ n : Lane, ∃ trim : Int, ∃ s : State, s.on .ltxCalActive n = true ∧ s.on .ltxSwapReady n = false ∧ (trim < -32 ∨
    31 < trim) ∧ s.on .ltxCellBad n (s.rd .ltxNextIn n) = false) ∧
  (∃ n : Lane, ∃ s : State, s.rd .ltxState n = 4) ∧
  (∃ n : Lane, ∃ b : List (Option (BitVec 7)), ∃ s : State, s.use .ltxMaskEn n ≠ 0 ∧ s.rd .ltxState n ≠ 0 ∧ maskTaken
    (b.map (fun c => c.map BitVec.toNat)) = false) ∧
  (∃ n : Lane, ∃ b : List (Option (BitVec 7)), ∃ s : State, s.use .ltxMaskEn n ≠ 0 ∧ s.rd .ltxState n ≠ 0 ∧ maskTaken
    (b.map (fun c => c.map BitVec.toNat)) = true ∧ s.rd .ltxMaskCnt n + 1 < 2 ^ s.use .ltxMaskAvg n) ∧
  (∃ n : Lane, ∃ b : List (Option (BitVec 7)), ∃ s : State, s.use .ltxMaskEn n ≠ 0 ∧ s.rd .ltxState n ≠ 0 ∧ maskTaken
    (b.map (fun c => c.map BitVec.toNat)) = true ∧ s.rd .ltxMaskCnt n + 1 = 2 ^ s.use .ltxMaskAvg n ∧ s.use
    .ltxMaskAct n = 0) ∧
  (∃ n : Lane, ∃ s : State, s.reaches .ltx n ∧ s.rd .ltxState n = 4 ∧ s.on .ltxWakeSend n = false) ∧
  (∃ n : Lane, ∃ s : State, s.on .ltxWakeRun n = true) ∧
  (∃ n : Lane, ∃ drvFltHigh : Bool, ∃ recOk : Bool, ∃ s : State, s.rd .ltxState n = 4 ∧ s.on .ltxSleep n = true ∧ s.on
    .ltxNapWake n = true ∧ (s.rd .ltxSleep n = 2 → s.envGrants n = true ∧ drvFltHigh = true ∧ recOk = true)) :=
  ⟨⟨0, (at0 [(.ltxState, 4, 0, 0), (.pwrWarn, 0, 0, 0)] []), by unfold State.reaches; decide +kernel⟩,
   ⟨0, (at0 [(.ltxState, 0, 0, 0), (.pwrWarn, 0, 0, 0), (.ltxPolInv, 1, 0, 0), (.ltxPatSel, 3, 0, 0)] []),
     by unfold State.reaches; unfold State.Inv State.shaped; decide +kernel⟩,
   ⟨0, (at0 [(.ltxState, 4, 0, 0), (.pwrWarn, 1, 0, 0)] []), by unfold State.reaches; decide +kernel⟩,
   ⟨0, -60, (at0 [(.ltxState, 1, 0, 0), (.ltxDacCalRun, 2, 0, 0), (.pwrWarn, 0, 0, 0)] []), by decide +kernel⟩,
   ⟨0, -32, (at0 [(.ltxCalActive, 1, 0, 0), (.ltxSwapReady, 0, 0, 0), (.ltxNextIn, 130, 0, 0)] []), by decide +kernel⟩,
   ⟨0, 32, (at0 [(.ltxCalActive, 1, 0, 0), (.ltxSwapReady, 0, 0, 0), (.ltxNextIn, 130, 0, 0)] []), by decide +kernel⟩,
   ⟨0, (at0 [(.ltxState, 4, 0, 0)] []), by decide +kernel⟩,
   ⟨0, none :: List.replicate 63 (some 64), (at0 [(.ltxState, 4, 0, 0)] [(.ltxMaskEn, 1, 0, 0)]), by decide +kernel⟩,
   ⟨0, List.replicate 64 (some 64), (at0 [(.ltxState, 4, 0, 0), (.ltxMaskCnt, 6, 0, 0)] [(.ltxMaskEn, 1, 0, 0),
     (.ltxMaskAvg, 3, 0, 0)]), by decide +kernel⟩,
   ⟨0, List.replicate 64 (some 64), (at0 [(.ltxState, 4, 0, 0), (.ltxMaskCnt, 7, 0, 0)] [(.ltxMaskEn, 1, 0, 0),
     (.ltxMaskAvg, 3, 0, 0), (.ltxMaskAct, 0, 0, 0)]), by decide +kernel⟩,
   ⟨5, (at0 [(.ltxState, 4, 5, 0), (.ltxWakeSend, 0, 5, 0), (.ltxSleep, 1, 5, 0)] []),
     by unfold State.reaches; decide +kernel⟩,
   ⟨5, (at0 [(.ltxWakeRun, 1, 5, 0)] []), by decide +kernel⟩,
   ⟨5, true, true, (at0 [(.ltxState, 4, 5, 0), (.ltxSleep, 1, 5, 0), (.ltxNapWake, 1, 5, 0)] []), by decide +kernel⟩⟩

/-- The hypotheses of every clause of `MarkerHuntAndFrameLock` can be met. -/
theorem witness_MarkerHuntAndFrameLock :
  (∃ n : Lane, ∃ bits : BitVec 256, ∃ s : State, s.hunting n = true ∧ s.on .lrxSleep n = false ∧ s.on .lfrH1Valid n =
    false ∧ s.rd .lfrMarkCand n ≤ markCount bits.toNat) ∧
  (∃ n : Lane, ∃ bits : BitVec 256, ∃ s : State, markCount bits.toNat < s.rd .lfrMarkCand n) ∧
  (∃ n : Lane, ∃ pos : BitVec 19, ∃ bits : BitVec 256, ∃ s : State, s.hunting n = false ∧ s.on .lfrFrameLock n = true
    ∧ pos.toNat ≠ s.rd .lfrH1Pos n ∧ s.on .lfrShadowValid n = false ∧ s.on .lrxSleep n = false ∧ s.rd .lfrMarkCand n ≤
    markCount bits.toNat) ∧
  (∃ n : Lane, ∃ shadow : Bool, ∃ bits : BitVec 256, ∃ s : State, s.on .lrxSleep n = false ∧ s.hunting n = true ∧ s.on
    .lfrH1Valid n = true ∧ shadow = false ∧ s.rd .lfrMarkGood n ≤ markCount bits.toNat ∧ s.rd .lfrH1Count n = 2 ∧
    s.underTest 1 n = false) ∧
  (∃ n : Lane, ∃ shadow : Bool, ∃ bits : BitVec 256, ∃ s : State, s.on .lrxSleep n = false ∧ s.hunting n = true ∧ s.on
    .lfrH1Valid n = true ∧ shadow = false ∧ markCount bits.toNat < s.rd .lfrMarkGood n) ∧
  (∃ n : Lane, ∃ shadow : Bool, ∃ bits : BitVec 256, ∃ s : State, s.on .lrxSleep n = false ∧ s.hunting n = false ∧
    s.on .lfrFrameLock n = true ∧ shadow = false ∧ s.rd .lfrMarkGood n ≤ markCount bits.toNat) ∧
  (∃ n : Lane, ∃ shadow : Bool, ∃ bits : BitVec 256, ∃ s : State, s.Inv ∧ s.on .lrxSleep n = false ∧ s.hunting n =
    false ∧ s.on .lfrFrameLock n = true ∧ shadow = false ∧ markCount bits.toNat < s.rd .lfrMarkGood n ∧ s.rd
    .lfrBadRun n < 3) ∧
  (∃ n : Lane, ∃ shadow : Bool, ∃ bits : BitVec 256, ∃ s : State, s.on .lrxSleep n = false ∧ s.hunting n = false ∧
    s.on .lfrFrameLock n = true ∧ shadow = false ∧ markCount bits.toNat < s.rd .lfrMarkGood n ∧ s.rd .lfrBadRun n = 3
    ∧ s.on .lfrShadowValid n = false ∧ s.rd .lrxState n = 5 ∧ s.rd .hltAction 0 4 ≤ 1) ∧
  (∃ n : Lane, ∃ s : State, s.on .lfrCompatPend n = true ∧ s.rd .ltxState n = 4) ∧
  (∃ n : Lane, ∃ s : State, s.on .lfrCompatPend n = true ∧ s.rd .ltxState n ≠ 4) :=
  ⟨⟨3, BitVec.ofNat 256 ((List.range 16).map (fun j => markerBits j * 2 ^ (16 * j))).sum, (at0 [(.lrxState, 2, 3, 0),
     (.lrxAcqPhase, 4, 3, 0), (.lfrFrameLock, 0, 3, 0), (.lfrH1Valid, 0, 3, 0), (.lfrMarkCand, 200, 3, 0)] []),
     by decide +kernel⟩,
   ⟨3, 0, (at0 [(.lfrMarkCand, 200, 3, 0)] []), by decide +kernel⟩,
   ⟨3, 77, BitVec.ofNat 256 ((List.range 16).map (fun j => markerBits j * 2 ^ (16 * j))).sum, (at0 [(.lrxState, 5, 3, 0),
     (.lfrFrameLock, 1, 3, 0), (.lfrShadowValid, 0, 3, 0), (.lfrH1Pos, 5, 3, 0), (.lfrMarkCand, 200, 3, 0)] []),
     by decide +kernel⟩,
   ⟨3, false, BitVec.ofNat 256 ((List.range 16).map (fun j => markerBits j * 2 ^ (16 * j))).sum, (at0 [(.lrxState, 2, 3,
     0), (.lrxAcqPhase, 4, 3, 0), (.lfrFrameLock, 0, 3, 0), (.lfrH1Valid, 1, 3, 0), (.lfrH1Count, 2, 3, 0),
     (.lfrMarkGood, 200, 3, 0)] []), by decide +kernel⟩,
   ⟨3, false, 0, (at0 [(.lrxState, 2, 3, 0), (.lrxAcqPhase, 4, 3, 0), (.lfrFrameLock, 0, 3, 0), (.lfrH1Valid, 1, 3, 0),
     (.lfrH1Count, 2, 3, 0), (.lfrMarkGood, 200, 3, 0)] []), by decide +kernel⟩,
   ⟨3, false, BitVec.ofNat 256 ((List.range 16).map (fun j => markerBits j * 2 ^ (16 * j))).sum, (at0 [(.lrxState, 5, 3,
     0), (.lfrFrameLock, 1, 3, 0), (.lfrBadRun, 2, 3, 0), (.lfrMarkGood, 200, 3, 0)] []), by decide +kernel⟩,
   ⟨3, false, 0, (at0 [(.lrxState, 5, 3, 0), (.lfrFrameLock, 1, 3, 0), (.lfrBadRun, 2, 3, 0), (.lfrMarkGood, 200, 3, 0)]
     []), by unfold State.Inv State.shaped; decide +kernel⟩,
   ⟨3, false, 0, (at0 [(.lrxState, 5, 3, 0), (.lfrFrameLock, 1, 3, 0), (.lfrBadRun, 3, 3, 0), (.lfrMarkGood, 200, 3, 0),
     (.hltAction, 1, 0, 4)] []), by decide +kernel⟩,
   ⟨3, (at0 [(.lfrCompatPend, 1, 3, 0), (.ltxState, 4, 3, 0), (.lfrCompatTx, 1, 3, 0)] []), by decide +kernel⟩,
   ⟨3, (at0 [(.lfrCompatPend, 1, 3, 0), (.ltxState, 0, 3, 0)] []), by decide +kernel⟩⟩

/-- The hypotheses of every clause of `ServiceChannelMessages` can be met. -/
theorem witness_ServiceChannelMessages :
  (∃ n : Lane, ∃ s : State, (s.on .lfrFrameLock n = false ∨ s.on .lrxSleep n = true)) ∧
  (∃ n : Lane, ∃ s : State, s.on .lfrFrameLock n = true ∧ s.on .lrxSleep n = false) ∧
  (∃ n : Lane, ∃ seq : BitVec 8, ∃ s : State, s.msgOpen n = true ∧ seq.toNat ≠ 0 ∧ seq.toNat ≠ s.rd .lfrRxSeq n) ∧
  (∃ n : Lane, ∃ seq : BitVec 8, ∃ s : State, (s.msgOpen n = false ∨ seq.toNat = 0 ∨ seq.toNat = s.rd .lfrRxSeq n)) ∧
  (∃ n : Lane, ∃ seq : BitVec 8, ∃ s : State, s.msgOpen n = true ∧ seq.toNat ≠ 0 ∧ seq.toNat ≠ s.rd .lfrRxSeq n ∧
    s.use .lfrTapAccept n = 0) ∧
  (∃ n : Lane, ∃ seq : BitVec 8, ∃ taps : List Int, ∃ s : State, s.msgOpen n = true ∧ seq.toNat ≠ 0 ∧ seq.toNat ≠ s.rd
    .lfrRxSeq n ∧ s.use .lfrTapAccept n ≠ 0 ∧ taps.length = 9) ∧
  (∃ n : Lane, ∃ seq : BitVec 8, ∃ s : State, s.msgOpen n = true ∧ seq.toNat ≠ 0 ∧ seq.toNat ≠ s.rd .lfrRxSeq n ∧ s.on
    .cdbTapRun = true ∧ s.rd .cdbTapLane = n) ∧
  (∃ n : Lane, ∃ seq : BitVec 8, ∃ s : State, s.msgOpen n = true ∧ seq.toNat ≠ 0 ∧ seq.toNat ≠ s.rd .lfrRxSeq n ∧ s.on
    .cdbTapRun = false) ∧
  (∃ n : Lane, ∃ ack : BitVec 8, ∃ s : State, s.msgOpen n = true ∧ s.rd .lfrTxType n = 1 ∧ ack.toNat = s.rd .lfrTxSeq
    n ∧ s.svcQ = []) ∧
  (∃ n : Lane, ∃ ack : BitVec 8, ∃ s : State, (s.msgOpen n = false ∨ s.rd .lfrTxType n = 0 ∨ ack.toNat ≠ s.rd
    .lfrTxSeq n)) ∧
  (∃ n : Lane, ∃ frame : BitVec 256, ∃ s : State, s.rd .lfrGroupMode n = 2 ∧ frame.toNat % 65536 = sideSync ∧ sideOk
    frame.toNat = false) ∧
  (∃ n : Lane, ∃ frame : BitVec 256, ∃ s : State, s.rd .lfrGroupMode n = 2 ∧ frame.toNat % 65536 = sideSync ∧ sideOk
    frame.toNat = true ∧ s.msgOpen n = true ∧ 8 ≤ byteOf frame.toNat 2 ∧ byteOf frame.toNat 3 ≠ 0 ∧ byteOf frame.toNat
    3 ≠ s.rd .lfrRxSeq n ∧ s.rd .lfrTxType n = 0) ∧
  (∃ n : Lane, ∃ frame : BitVec 256, ∃ s : State, (s.rd .lfrGroupMode n ≠ 2 ∨ frame.toNat % 65536 ≠ sideSync ∨ (sideOk
    frame.toNat = true ∧ s.lrxInTraffic n = false))) :=
  ⟨⟨3, (at0 [(.lfrFrameLock, 0, 3, 0)] []), by decide +kernel⟩,
   ⟨3, (at0 [(.lfrFrameLock, 1, 3, 0), (.lfrFillRx, 0, 3, 0), (.lfrSvcFailCnt, 4294967295, 3, 0)] []), by decide +kernel⟩,
   ⟨3, 9, (at0 [(.lrxState, 4, 3, 0), (.lfrRxSeq, 8, 3, 0)] []), by decide +kernel⟩,
   ⟨3, 8, (at0 [(.lrxState, 4, 3, 0), (.lfrRxSeq, 8, 3, 0)] []), by decide +kernel⟩,
   ⟨3, 9, (at0 [(.lrxState, 4, 3, 0), (.lfrRxSeq, 8, 3, 0)] [(.lfrTapAccept, 0, 3, 0)]), by decide +kernel⟩,
   ⟨3, 9, [1,-2,1024,30,2000,-2000,0,0,5], (at0 [(.lrxState, 4, 3, 0), (.lfrRxSeq, 8, 3, 0)] [(.lfrTapAccept, 1, 3, 0)]),
     by decide +kernel⟩,
   ⟨3, 9, (at0 [(.lrxState, 4, 3, 0), (.lfrRxSeq, 8, 3, 0), (.cdbTapRun, 1, 0, 0), (.cdbTapLane, 3, 0, 0)] []),
     by decide +kernel⟩,
   ⟨3, 9, (at0 [(.lrxState, 4, 3, 0), (.lfrRxSeq, 8, 3, 0), (.cdbTapRun, 0, 0, 0)] []), by decide +kernel⟩,
   ⟨3, 9, (at0 [(.lrxState, 4, 3, 0), (.lfrTxSeq, 9, 3, 0), (.lfrTxType, 1, 3, 0)] []), by decide +kernel⟩,
   ⟨3, 9, (at0 [(.lrxState, 4, 3, 0), (.lfrTxSeq, 8, 3, 0), (.lfrTxType, 1, 3, 0)] []), by decide +kernel⟩,
   ⟨3, 0x8EB3, (at0 [(.lrxState, 4, 3, 0), (.lfrGroupMode, 2, 3, 0)] []), by decide +kernel⟩,
   ⟨3, 238524353745081884493745162600293999636710326078208559346416837187552710323, (at0 [(.lrxState, 4, 3, 0),
     (.lfrGroupMode, 2, 3, 0), (.lfrTxType, 0, 3, 0)] []), by decide +kernel⟩,
   ⟨3, 0, (at0 [(.lrxState, 4, 3, 0), (.lfrGroupMode, 1, 3, 0)] []), by decide +kernel⟩⟩

/-- The hypotheses of every clause of `Negotiation` can be met. -/
theorem witness_Negotiation :
  (∃ n : Lane, ∃ seq : BitVec 8, ∃ s : State, s.msgOpen n = true ∧ seq.toNat ≠ 0 ∧ seq.toNat ≠ s.rd .lfrRxSeq n ∧ s.rd
    .lfrNegState n = 3) ∧
  (∃ n : Lane, ∃ seq : BitVec 8, ∃ page : BitVec 128, ∃ e : Nat, ∃ s : State, s.msgOpen n = true ∧ seq.toNat ≠ 0 ∧
    seq.toNat ≠ s.rd .lfrRxSeq n ∧ s.rd .lfrNegState n = 1 ∧ negCompute (s.abilityPage n) page.toNat (s.rd
    .lfrGroupMode n != 2) = .inl e) ∧
  (∃ n : Lane, ∃ seq : BitVec 8, ∃ page : BitVec 128, ∃ w : Nat, ∃ s : State, s.msgOpen n = true ∧ seq.toNat ≠ 0 ∧
    seq.toNat ≠ s.rd .lfrRxSeq n ∧ s.rd .lfrNegState n = 1 ∧ s.on .lfrConfGot n = false ∧ negCompute (s.abilityPage n)
    page.toNat (s.rd .lfrGroupMode n != 2) = .inr w) ∧
  (∃ n : Lane, ∃ seq : BitVec 8, ∃ s : State, s.msgOpen n = true ∧ seq.toNat ≠ 0 ∧ seq.toNat ≠ s.rd .lfrRxSeq n ∧ s.rd
    .lfrNegState n = 1) ∧
  (∃ n : Lane, ∃ seq : BitVec 8, ∃ result : BitVec 32, ∃ s : State, s.msgOpen n = true ∧ seq.toNat ≠ 0 ∧ seq.toNat ≠
    s.rd .lfrRxSeq n ∧ s.rd .lfrNegState n = 2 ∧ result.toNat / 2 ^ 22 = s.rd .lfrCand n / 2 ^ 22 ∧ s.on .lfrConfAcked
    n = true ∧ s.rd .lfrCand n % 2 ^ 18 = 0 ∧ (s.groupOf n).lanes = [n.val] ∧ s.rd .lfrCand n / 2 ^ 26 % 4 = s.rd
    .lfrGroupMode n) ∧
  (∃ n : Lane, ∃ seq : BitVec 8, ∃ s : State, s.msgOpen n = true ∧ seq.toNat ≠ 0 ∧ seq.toNat ≠ s.rd .lfrRxSeq n ∧
    (s.rd .lfrNegState n = 1 ∨ s.rd .lfrNegState n = 2)) ∧
  (∃ n : Lane, ∃ seq : BitVec 8, ∃ s : State, s.msgOpen n = true ∧ seq.toNat ≠ 0 ∧ seq.toNat ≠ s.rd .lfrRxSeq n ∧ s.rd
    .lfrNegState n = 3 ∧ s.rd .lfrNativeEn (s.groupOf n).lead = 1 ∧ s.rd .lfrGroupMode n ≠ 2 ∧ (s.groupOf n).lanes =
    [n.val]) ∧
  (∃ n : Lane, ∃ s : State, (s.rd .lfrNegState n = 1 ∨ s.rd .lfrNegState n = 2) ∧ s.rd .lfrAttempt n < s.rd
    .lfrNegRetryMax n) ∧
  (∃ n : Lane, ∃ s : State, (s.rd .lfrNegState n = 1 ∨ s.rd .lfrNegState n = 2) ∧ s.rd .lfrNegRetryMax n ≤ s.rd
    .lfrAttempt n) ∧
  (∃ n : Lane, ∃ s : State, s.rd .lfrNegState n = 5 ∧ s.on .lfrHelloSeen n = true) ∧
  (∃ n : Lane, ∃ s : State, s.rd .lfrNegState n = 5 ∧ s.on .lfrHelloSeen n = false ∧ s.rd .lfrGroupMode n = 2 ∧
    (s.groupOf n).lanes.all (fun k => k == n || s.rd .lfrNegState k != 3) = true) ∧
  (∃ n : Lane, ∃ s : State, s.reaches .lfr n ∧ s.underTest 1 n = false ∧ s.underTest 4 n = false ∧ (s.lrxInTraffic n =
    false ∨ s.on .lrxSleep n = true)) ∧
  (∃ n : Lane, ∃ s : State, s.reaches .lfr n ∧ s.underTest 1 n = false ∧ s.underTest 4 n = false ∧ s.lrxInTraffic n =
    true ∧ s.on .lrxSleep n = false ∧ s.rd .lfrNativeEn (s.groupOf n).lead = 1 ∧ s.rd .lfrGroupMode n ≠ 2 ∧ (s.groupOf
    n).lanes = [n.val]) ∧
  (∃ n : Lane, ∃ s : State, s.reaches .lfr n ∧ s.underTest 1 n = true ∧ s.maskBit .hltSvcPreemptLine n = false) :=
  ⟨⟨3, 9, (at0 [(.lrxState, 4, 3, 0), (.lfrRxSeq, 8, 3, 0), (.lfrNegState, 3, 3, 0)] []), by decide +kernel⟩,
   ⟨3, 9, 0x0101, 1, (at0 [(.lrxState, 3, 3, 0), (.lfrRxSeq, 8, 3, 0), (.lfrNegState, 1, 3, 0)] []), by decide +kernel⟩,
   ⟨3, 9, 1153773631252726275, 881065984, (at0 [(.lrxState, 3, 3, 0), (.lfrRxSeq, 8, 3, 0), (.lfrNegState, 1, 3, 0),
     (.lfrNativeEn, 1, 3, 0), (.lfrGroupMode, 1, 3, 0)] [(.lfrNativeEn, 1, 3, 0)]), by decide +kernel⟩,
   ⟨3, 9, (at0 [(.lrxState, 3, 3, 0), (.lfrRxSeq, 8, 3, 0), (.lfrNegState, 1, 3, 0)] []), by decide +kernel⟩,
   ⟨3, 9, 0, (at0 [(.lrxState, 3, 3, 0), (.lfrRxSeq, 8, 3, 0), (.lfrNegState, 2, 3, 0), (.lfrConfAcked, 1, 3, 0)] []),
     by decide +kernel⟩,
   ⟨3, 9, (at0 [(.lrxState, 3, 3, 0), (.lfrRxSeq, 8, 3, 0), (.lfrNegState, 2, 3, 0)] []), by decide +kernel⟩,
   ⟨3, 9, (at0 [(.lrxState, 4, 3, 0), (.lfrRxSeq, 8, 3, 0), (.lfrNegState, 3, 3, 0), (.lfrNativeEn, 1, 3, 0)]
     [(.lfrNativeEn, 1, 3, 0)]), by decide +kernel⟩,
   ⟨3, (at0 [(.lfrNegState, 2, 3, 0), (.lfrAttempt, 1, 3, 0), (.lfrNegRetryMax, 3, 3, 0)] []), by decide +kernel⟩,
   ⟨3, (at0 [(.lfrNegState, 2, 3, 0), (.lfrAttempt, 3, 3, 0), (.lfrNegRetryMax, 3, 3, 0)] []), by decide +kernel⟩,
   ⟨3, (at0 [(.lfrNegState, 5, 3, 0), (.lfrHelloSeen, 1, 3, 0)] []), by decide +kernel⟩,
   ⟨3, (at0 [(.lfrNegState, 5, 3, 0), (.lfrHelloSeen, 0, 3, 0), (.lfrGroupMode, 2, 3, 0)] []), by decide +kernel⟩,
   ⟨3, (at0 [(.lrxState, 2, 3, 0)] []), by unfold State.reaches; decide +kernel⟩,
   ⟨3, (at0 [(.lrxState, 4, 3, 0), (.lfrNativeEn, 1, 3, 0)] []), by unfold State.reaches; decide +kernel⟩,
   ⟨3, ((fun s : State => { s with tests := [⟨1, 3, .software, .running, false⟩] }) (at0 [] [])),
     by unfold State.reaches; decide +kernel⟩⟩

/-- The hypotheses of every clause of `ProfileChange` can be met. -/
theorem witness_ProfileChange :
  (∃ n : Lane, ∃ s : State, s.reaches .lfr n ∧ s.underTest 1 n = false ∧ s.underTest 4 n = false ∧ s.on .lfrReqOpen n
    = true) ∧
  (∃ n : Lane, ∃ s : State, s.reaches .lfr n ∧ s.underTest 1 n = false ∧ s.underTest 4 n = false ∧ s.on .lfrReqOpen n
    = false ∧ s.rd .lrxState n = 2) ∧
  (∃ n : Lane, ∃ s : State, s.reaches .lfr n ∧ s.underTest 1 n = false ∧ s.underTest 4 n = false ∧ s.on .lfrReqOpen n
    = false ∧ s.profCheck n (s.rd .lfrProfReq n) true = none ∧ s.rd .lfrProfReq n = s.rd .lfrProfActive n) ∧
  (∃ n : Lane, ∃ s : State, s.reaches .lfr n ∧ s.underTest 1 n = false ∧ s.underTest 4 n = false ∧ s.on .lfrReqOpen n
    = false ∧ s.profCheck n (s.rd .lfrProfReq n) true = none ∧ s.rd .lfrProfReq n ≠ s.rd .lfrProfActive n) ∧
  (∃ n : Lane, ∃ s : State, s.on .lfrReqOpen n = true ∧ s.on .lfrReqAcc n = false) ∧
  (∃ n : Lane, ∃ s : State, (s.on .lfrReqOpen n = false ∨ s.on .lfrReqAcc n = true)) ∧
  (∃ n : Lane, ∃ s : State, s.on .lfrSwPend n = false) ∧
  (∃ n : Lane, ∃ s : State, s.Inv ∧ s.on .lfrSwPend n = true) ∧
  (∃ n : Lane, ∃ seq : BitVec 8, ∃ forced : Bool, ∃ s : State, s.msgOpen n = true ∧ seq.toNat ≠ 0 ∧ seq.toNat ≠ s.rd
    .lfrRxSeq n ∧ forced = true ∧ s.rd .lfrTxType n = 0) ∧
  (∃ n : Lane, ∃ seq : BitVec 8, ∃ forced : Bool, ∃ s : State, s.msgOpen n = true ∧ seq.toNat ≠ 0 ∧ seq.toNat ≠ s.rd
    .lfrRxSeq n ∧ forced = false ∧ s.rd .lfrTxType n = 0 ∧ s.on .lfrReqOpen n = false ∧ s.rd .lrxState n = 3) ∧
  (∃ n : Lane, ∃ seq : BitVec 8, ∃ prof : Fin 3, ∃ forced : Bool, ∃ s : State, s.msgOpen n = true ∧ seq.toNat ≠ 0 ∧
    seq.toNat ≠ s.rd .lfrRxSeq n ∧ forced = false ∧ s.rd .lfrTxType n = 0 ∧ s.on .lfrReqOpen n = false ∧ s.profCheck n
    prof true = none) ∧
  (∃ n : Lane, ∃ seq : BitVec 8, ∃ refuse : Bool, ∃ txn : BitVec 8, ∃ s : State, s.Inv ∧ s.msgOpen n = true ∧
    seq.toNat ≠ 0 ∧ seq.toNat ≠ s.rd .lfrRxSeq n ∧ s.on .lfrReqOpen n = true ∧ s.on .lfrReqAcc n = false ∧ txn.toNat =
    s.rd .lfrTxn n ∧ refuse = false) ∧
  (∃ n : Lane, ∃ seq : BitVec 8, ∃ refuse : Bool, ∃ txn : BitVec 8, ∃ s : State, s.msgOpen n = true ∧ seq.toNat ≠ 0 ∧
    seq.toNat ≠ s.rd .lfrRxSeq n ∧ s.on .lfrReqOpen n = true ∧ s.on .lfrReqAcc n = false ∧ txn.toNat = s.rd .lfrTxn n
    ∧ refuse = true) ∧
  (∃ n : Lane, ∃ seq : BitVec 8, ∃ txn : BitVec 8, ∃ s : State, s.msgOpen n = true ∧ seq.toNat ≠ 0 ∧ seq.toNat ≠ s.rd
    .lfrRxSeq n ∧ txn.toNat ≠ s.rd .lfrTxn n) :=
  ⟨⟨3, (at0 [(.lfrReqOpen, 1, 3, 0)] []), by unfold State.reaches; decide +kernel⟩,
   ⟨3, (at0 [(.lfrReqOpen, 0, 3, 0), (.lrxState, 2, 3, 0)] []), by unfold State.reaches; decide +kernel⟩,
   ⟨3, (at0 [(.lfrReqOpen, 0, 3, 0), (.lrxState, 5, 3, 0), (.lfrNegState, 3, 3, 0), (.lfrResMode, 1, 3, 0), (.lfrProfReq,
     1, 3, 0), (.lfrProfActive, 1, 3, 0)] []), by unfold State.reaches; decide +kernel⟩,
   ⟨3, (at0 [(.lfrReqOpen, 0, 3, 0), (.lrxState, 5, 3, 0), (.lfrNegState, 3, 3, 0), (.lfrResMode, 1, 3, 0), (.lfrProfReq,
     2, 3, 0), (.lfrProfActive, 1, 3, 0)] []), by unfold State.reaches; decide +kernel⟩,
   ⟨3, (at0 [(.lfrReqOpen, 1, 3, 0), (.lfrReqAcc, 0, 3, 0)] []), by decide +kernel⟩,
   ⟨3, (at0 [(.lfrReqOpen, 1, 3, 0), (.lfrReqAcc, 1, 3, 0)] []), by decide +kernel⟩,
   ⟨3, (at0 [(.lfrSwPend, 0, 3, 0)] []), by decide +kernel⟩,
   ⟨3, (at0 [(.lfrSwPend, 1, 3, 0), (.lfrSwProf, 2, 3, 0)] []), by unfold State.Inv State.shaped; decide +kernel⟩,
   ⟨3, 9, true, (at0 [(.lrxState, 5, 3, 0), (.lfrRxSeq, 8, 3, 0), (.lfrTxType, 0, 3, 0)] []), by decide +kernel⟩,
   ⟨3, 9, false, (at0 [(.lrxState, 3, 3, 0), (.lfrRxSeq, 8, 3, 0), (.lfrTxType, 0, 3, 0), (.lfrReqOpen, 0, 3, 0)] []),
     by decide +kernel⟩,
   ⟨3, 9, 2, false, (at0 [(.lrxState, 5, 3, 0), (.lfrNegState, 3, 3, 0), (.lfrResMode, 1, 3, 0), (.lfrRxSeq, 8, 3, 0),
     (.lfrTxType, 0, 3, 0), (.lfrReqOpen, 0, 3, 0)] []), by decide +kernel⟩,
   ⟨3, 9, false, 7, (at0 [(.lrxState, 5, 3, 0), (.lfrRxSeq, 8, 3, 0), (.lfrReqOpen, 1, 3, 0), (.lfrReqAcc, 0, 3, 0),
     (.lfrTxn, 7, 3, 0)] []), by unfold State.Inv State.shaped; decide +kernel⟩,
   ⟨3, 9, true, 7, (at0 [(.lrxState, 5, 3, 0), (.lfrRxSeq, 8, 3, 0), (.lfrReqOpen, 1, 3, 0), (.lfrReqAcc, 0, 3, 0),
     (.lfrTxn, 7, 3, 0)] []), by decide +kernel⟩,
   ⟨3, 9, 7, (at0 [(.lrxState, 5, 3, 0), (.lfrRxSeq, 8, 3, 0), (.lfrTxn, 8, 3, 0)] []), by decide +kernel⟩⟩

/-- The hypotheses of every clause of `BoundariesAndStraits` can be met. -/
theorem witness_BoundariesAndStraits :
  (∃ n : Lane, ∃ tx : Bool, ∃ s : State, tx = false ∧ s.rxGrid n = false) ∧
  (∃ n : Lane, ∃ tx : Bool, ∃ s : State, tx = true ∧ s.rd .ltxState n = 0) ∧
  (∃ n : Lane, ∃ tx : Bool, ∃ s : State, s.Inv ∧ tx = false ∧ s.rxGrid n = true ∧ s.on .lrxCommit n = true) ∧
  (∃ n : Lane, ∃ tx : Bool, ∃ s : State, s.Inv ∧ tx = false ∧ s.rxGrid n = true ∧ s.on .leqCommit n = true ∧ s.warning
    = false) ∧
  (∃ n : Lane, ∃ tx : Bool, ∃ s : State, s.Inv ∧ tx = true ∧ s.rd .ltxState n ≠ 0 ∧ s.on .ltxCommit n = true ∧
    s.warning = false) ∧
  (∃ n : Lane, ∃ s : State, (s.on .lfrFrameLock n = false ∨ s.rxGrid n = false)) ∧
  (∃ n : Lane, ∃ s : State, s.Inv ∧ s.on .lfrFrameLock n = true ∧ s.rxGrid n = true ∧ s.on .lrxProfApply n = true ∧
    s.on .lfrSwPend n = false) ∧
  (∃ n : Lane, ∃ s : State, s.Inv ∧ s.on .lfrFrameLock n = true ∧ s.rxGrid n = true ∧ s.on .lrxProfApply n = false ∧
    s.on .lfrSwPend n = true) ∧
  (∃ n : Lane, ∃ s : State, s.rd .ltxState n = 0) ∧
  (∃ n : Lane, ∃ s : State, s.rd .ltxState n ≠ 0 ∧ s.on .lfrCompatTx n = false) ∧
  (∃ n : Lane, ∃ s : State, s.rd .ltxState n ≠ 0 ∧ s.on .lfrCompatTx n = true) ∧
  (∃ id : BitVec 7, dropping id.toNat = false) ∧
  (∃ id : BitVec 7, dropping id.toNat = true) ∧
  (∃ id : BitVec 7, ∃ s : State, id.toNat < 8 ∧ s.rxGrid id.toNat = true ∧ s.rd .hltAction 0 3 ≤ 1) ∧
  (∃ id : BitVec 7, ∃ s : State, id.toNat < 8 ∧ s.rxGrid id.toNat = false) ∧
  (∃ id : BitVec 7, ∃ s : State, 0x20 ≤ id.toNat ∧ id.toNat < 0x28 ∧ s.rd .ltxState (id.toNat - 0x20) = 4 ∧ s.rd
    .hltAction 0 8 ≤ 1) ∧
  (∃ id : BitVec 7, 0x28 ≤ id.toNat ∧ id.toNat < 0x34) ∧
  (∃ s : State, s.reaches .glb 0) :=
  ⟨⟨3, false, (at0 [(.lrxState, 1, 3, 0)] []), by decide +kernel⟩,
   ⟨3, true, (at0 [(.ltxState, 0, 3, 0)] []), by decide +kernel⟩,
   ⟨3, false, (at0 [(.lrxState, 5, 3, 0), (.lrxCommit, 1, 3, 0), (.lrxAgcTarget, 99, 3, 0)] []),
     by unfold State.Inv State.shaped; decide +kernel⟩,
   ⟨3, false, (at0 [(.lrxState, 5, 3, 0), (.leqCommit, 1, 3, 0), (.leqFomWin, 3, 3, 0)] []),
     by unfold State.Inv State.shaped; decide +kernel⟩,
   ⟨3, true, (at0 [(.ltxState, 4, 3, 0), (.ltxCommit, 1, 3, 0), (.ltxFirTap, 1024, 3, 2)] []),
     by unfold State.Inv State.shaped; decide +kernel⟩,
   ⟨3, (at0 [(.lrxState, 5, 3, 0), (.lfrFrameLock, 0, 3, 0)] []), by decide +kernel⟩,
   ⟨3, (at0 [(.lrxState, 4, 3, 0), (.lfrFrameLock, 1, 3, 0), (.lrxProfApply, 1, 3, 0), (.lfrResProfile, 2, 3, 0),
     (.lfrSwPend, 0, 3, 0)] []), by unfold State.Inv State.shaped; decide +kernel⟩,
   ⟨3, (at0 [(.lrxState, 5, 3, 0), (.lfrFrameLock, 1, 3, 0), (.lrxProfApply, 0, 3, 0), (.lfrSwProf, 2, 3, 0),
     (.lfrSwPend, 1, 3, 0)] []), by unfold State.Inv State.shaped; decide +kernel⟩,
   ⟨3, (at0 [(.ltxState, 0, 3, 0)] []), by decide +kernel⟩,
   ⟨3, (at0 [(.ltxPrecodeAct, 0, 3, 0), (.ltxState, 4, 3, 0), (.lfrCompatTx, 0, 3, 0), (.lfrFrameTx, 65535, 3, 0)] []),
     by decide +kernel⟩,
   ⟨3, (at0 [(.ltxPrecodeAct, 0, 3, 0), (.ltxState, 4, 3, 0), (.lfrCompatTx, 1, 3, 0), (.lfrFrameTx, 65535, 3, 0)] []),
     by decide +kernel⟩,
   ⟨0x10, by decide +kernel⟩,
   ⟨0x19, by decide +kernel⟩,
   ⟨0x03, (at0 [(.lrxState, 5, 3, 0), (.hltAction, 1, 0, 3)] []), by decide +kernel⟩,
   ⟨0x03, (at0 [(.lrxState, 0, 3, 0)] []), by decide +kernel⟩,
   ⟨0x23, (at0 [(.ltxState, 4, 3, 0), (.hltAction, 1, 0, 8)] []), by decide +kernel⟩,
   ⟨0x33, by decide +kernel⟩,
   ⟨(at0 [(.glbStraitOvfCount, 5, 0, 0)] []), by unfold State.reaches; decide +kernel⟩⟩

/-- The hypotheses of every clause of `CodewordQueueing` can be met. -/
theorem witness_CodewordQueueing :
  (∃ n : Lane, ∃ s : State, s.rd .lrxState n ≤ 3 ∧ s.rd .lfrGroupMode n ≠ 2) ∧
  (∃ n : Lane, ∃ s : State, s.Inv ∧ s.rd .lrxState n = 5 ∧ s.rd .lfrGroupMode n ≠ 2 ∧ s.on .lrxSleep n = false ∧ s.on
    .lrxProfApply n = false ∧ s.on .lfrPcLeft n = false ∧ s.on .lfrDiscLeft n = true) ∧
  (∃ n : Lane, ∃ s : State, s.rd .lrxState n = 5 ∧ s.rd .lfrGroupMode n ≠ 2 ∧ s.on .lrxSleep n = false ∧ s.on
    .lrxProfApply n = false ∧ s.on .lfrPcLeft n = false ∧ s.on .lfrDiscLeft n = false ∧ s.maskBit .glbDecodeRun n =
    true ∧ s.rd .lfrProfActive n = 0) ∧
  (∃ n : Lane, ∃ s : State, s.rd .lrxState n = 5 ∧ s.rd .lfrGroupMode n = 2 ∧ s.on .lfrFrameLock n = true ∧ s.on
    .lrxSleep n = false ∧ s.on .lrxProfApply n = false ∧ s.on .lfrPcLeft n = false ∧ s.on .lfrDiscLeft n = false ∧
    s.maskBit .glbDecodeRun n = true ∧ s.rd .lfrProfActive n = 3) ∧
  (∃ n : Lane, ∃ s : State, s.rd .lrxState n = 5 ∧ s.rd .lfrGroupMode n ≠ 2 ∧ s.on .lrxSleep n = false ∧ s.on
    .lrxProfApply n = false ∧ s.on .lfrPcLeft n = false ∧ s.on .lfrDiscLeft n = false ∧ s.maskBit .glbDecodeRun n =
    true ∧ (s.rd .lfrProfActive n = 1 ∨ s.rd .lfrProfActive n = 2) ∧ (s.queue n).length < s.homeQDepth n) ∧
  (∃ n : Lane, ∃ s : State, s.rd .lrxState n = 5 ∧ s.rd .lfrGroupMode n ≠ 2 ∧ s.on .lrxSleep n = false ∧ s.on
    .lrxProfApply n = false ∧ s.on .lfrPcLeft n = false ∧ s.on .lfrDiscLeft n = false ∧ s.maskBit .glbDecodeRun n =
    true ∧ (s.rd .lfrProfActive n = 1 ∨ s.rd .lfrProfActive n = 2) ∧ s.homeQDepth n ≤ (s.queue n).length ∧ s.rd
    .hltAction 0 6 ≤ 1 ∧ s.on .pwrLnTrim n = false) ∧
  (∃ n : Lane, ∃ s : State, s.queue n = []) ∧
  (∃ n : Lane, ∃ phase : Int, ∃ cw : Codeword, ∃ q : List Codeword, ∃ s : State, s.queue n = cw :: q ∧ notBefore
    (s.compAtc phase) (s.latestStart n cw).1 = true) ∧
  (∃ n : Lane, ∃ phase : Int, ∃ cw : Codeword, ∃ q : List Codeword, ∃ s : State, s.queue n = cw :: q ∧ notBefore
    (s.compAtc phase) (s.latestStart n cw).1 = false ∧ cw.lane = n ∧ s.rd .hltAction 0 6 ≤ 1 ∧ s.on .pwrLnTrim n =
    false) :=
  ⟨⟨3, (at0 [(.lrxState, 3, 3, 0)] []), by decide +kernel⟩,
   ⟨3, (at0 [(.lrxState, 5, 3, 0), (.lfrDiscLeft, 512, 3, 0), (.lfrDiscCnt, 1, 3, 0)] []),
     by unfold State.Inv State.shaped; decide +kernel⟩,
   ⟨3, (at0 [(.lrxState, 5, 3, 0), (.glbDecodeRun, 255, 0, 0), (.lrxSleep, 0, 3, 0), (.lrxProfApply, 0, 3, 0),
     (.lfrPcLeft, 0, 3, 0), (.lfrDiscLeft, 0, 3, 0), (.lfrProfActive, 0, 3, 0)] []), by decide +kernel⟩,
   ⟨3, (at0 [(.lrxState, 5, 3, 0), (.glbDecodeRun, 255, 0, 0), (.lrxSleep, 0, 3, 0), (.lrxProfApply, 0, 3, 0),
     (.lfrPcLeft, 0, 3, 0), (.lfrDiscLeft, 0, 3, 0), (.lfrProfActive, 3, 3, 0), (.lfrGroupMode, 2, 3, 0),
     (.lfrFrameLock, 1, 3, 0)] []), by decide +kernel⟩,
   ⟨3, (at0 [(.lrxState, 5, 3, 0), (.glbDecodeRun, 255, 0, 0), (.lrxSleep, 0, 3, 0), (.lrxProfApply, 0, 3, 0),
     (.lfrPcLeft, 0, 3, 0), (.lfrDiscLeft, 0, 3, 0), (.lfrProfActive, 1, 3, 0), (.pwrLnTrimWakeQ, 63, 3, 0)] []),
     by decide +kernel⟩,
   ⟨3, ((fun s : State => { s with homeQ := List.replicate 48 ⟨3, 2, 0, 1, 5, 163251, 0, 12, 0⟩ }) (at0 [(.lrxState, 5,
     3, 0), (.glbDecodeRun, 255, 0, 0), (.lrxSleep, 0, 3, 0), (.lrxProfApply, 0, 3, 0), (.lfrPcLeft, 0, 3, 0),
     (.lfrDiscLeft, 0, 3, 0), (.lfrProfActive, 2, 3, 0), (.hltAction, 1, 0, 6), (.pwrLnTrim, 0, 3, 0)] [])),
     by decide +kernel⟩,
   ⟨3, (at0 [] []), by decide +kernel⟩,
   ⟨3, 0, ⟨3, 2, 0, 1, 5, 163251, 0, 12, 0⟩, [], ((fun s : State =>
     { s with homeQ := [⟨3, 2, 0, 1, 5, 163251, 0, 12, 0⟩] }) (at0 [] [])), by decide +kernel⟩,
   ⟨3, 0, ⟨3, 2, 0, 1, 5, 163251, 0, 12, 0⟩, [], ((fun s : State =>
     { s with homeQ := [⟨3, 2, 0, 1, 5, 163251, 0, 12, 0⟩] }) (at0 [(.clkAtcHeld, 163253, 0, 0), (.hltAction, 1, 0,
     6), (.pwrLnTrim, 0, 3, 0)] [])), by decide +kernel⟩⟩

/-- The hypotheses of every clause of `EngineGrants` can be met. -/
theorem witness_EngineGrants :
  (∃ e : Fin 128, ∃ s : State, s.engState e ≠ 0) ∧
  (∃ e : Fin 128, ∃ phase : Int, ∃ s : State, s.engState e = 0 ∧ s.tests = [] ∧ s.bg = [] ∧ (s.homeOffer e (s.compAtc
    phase)).1 = true) ∧
  (∃ e : Fin 128, ∃ s : State, s.engState e = 0 ∧ s.tests = [] ∧ s.homeQ = [] ∧ s.bg = [⟨e.val / 16, 1, e, 0, false,
    none, none, false⟩]) ∧
  (∃ e : Fin 128, ∃ s : State, s.engState e = 0 ∧ s.tests = [] ∧ s.homeQ = [] ∧ s.bg = []) ∧
  (∃ n : Lane, ∃ s : State, (∀ a ∈ s.asks, a.2 ≠ n)) ∧
  (∃ n : Lane, ∃ phase : Int, ∃ e : Fin 128, ∃ cw : Codeword, ∃ q : List Codeword, ∃ s : State, s.asks = [(e.val,
    n.val)] ∧ s.queue n = cw :: q ∧ s.engState e = 0 ∧ e.val / 16 = n ∧ (s.engHome e).1 = n ∧ notBefore (s.compAtc
    phase) (s.latestStart n cw).1 = true) ∧
  (∃ n : Lane, ∃ phase : Int, ∃ e : Fin 128, ∃ cw : Codeword, ∃ q : List Codeword, ∃ s : State, s.asks = [(e.val,
    n.val)] ∧ s.queue n = cw :: q ∧ cw.lane = n ∧ notBefore (s.compAtc phase) (s.latestStart n cw).1 = false) ∧
  (∃ n : Lane, ∃ e : Fin 128, ∃ s : State, s.asks = [(e.val, n.val)] ∧ s.queue n = []) ∧
  (∃ e : Fin 128, ∃ w : EngWork, ∃ s : State, s.workOf e = some w ∧ w.stage = .receive) ∧
  (∃ e : Fin 128, ∃ s : State, s.workOf e = none) :=
  ⟨⟨50, (at0 [(.arcEngSt, 2, 0, 50)] []), by decide +kernel⟩,
   ⟨50, 0, ((fun s : State => { s with homeQ := [⟨3, 2, 0, 1, 5, 163251, 0, 12, 0⟩] }) (at0 [(.lfrProfActive, 2, 3, 0),
     (.glbDecodeRun, 255, 0, 0), (.arcEngSt, 0, 0, 50), (.arcEngBad, 0, 0, 50), (.imgState, 0, 0, 0)] [])),
     by decide +kernel⟩,
   ⟨50, ((fun s : State => { s with bg := [⟨3, 1, 50, 0, false, none, none, false⟩] }) (at0 [(.glbDecodeRun, 255, 0, 0),
     (.arcEngSt, 0, 0, 50), (.arcEngBad, 0, 0, 50), (.imgState, 0, 0, 0)] [])), by decide +kernel⟩,
   ⟨50, (at0 [(.glbDecodeRun, 255, 0, 0), (.arcEngSt, 0, 0, 50), (.arcEngBad, 0, 0, 50), (.imgState, 0, 0, 0)] []),
     by decide +kernel⟩,
   ⟨3, (at0 [] []), by decide +kernel⟩,
   ⟨3, 0, 50, ⟨3, 2, 0, 1, 5, 163251, 0, 12, 0⟩, [], ((fun s : State =>
     { s with homeQ := [⟨3, 2, 0, 1, 5, 163251, 0, 12, 0⟩], asks := [(50, 3)] }) (at0 [(.glbDecodeRun, 255, 0, 0),
     (.arcEngSt, 0, 0, 50), (.arcEngBad, 0, 0, 50), (.imgState, 0, 0, 0)] [])), by decide +kernel⟩,
   ⟨3, 0, 50, ⟨3, 2, 0, 1, 5, 163251, 0, 12, 0⟩, [], ((fun s : State =>
     { s with homeQ := [⟨3, 2, 0, 1, 5, 163251, 0, 12, 0⟩], asks := [(50, 3)] }) (at0 [(.clkAtcHeld, 163253, 0, 0),
     (.glbDecodeRun, 255, 0, 0), (.arcEngSt, 0, 0, 50), (.arcEngBad, 0, 0, 50), (.imgState, 0, 0, 0)] [])),
     by decide +kernel⟩,
   ⟨3, 50, ((fun s : State => { s with asks := [(50, 3)] }) (at0 [] [])), by decide +kernel⟩,
   ⟨50, ⟨50, ⟨3, 2, 0, 1, 5, 163251, 0, 12, 0⟩, .receive, 0, [6], 0, 23040, .empty⟩, ((fun s : State =>
     { s with work := [⟨50, ⟨3, 2, 0, 1, 5, 163251, 0, 12, 0⟩, .receive, 0, [6], 0, 23040, .empty⟩] }) (at0
     [(.arcEngSt, 1, 0, 50)] [])), by decide +kernel⟩,
   ⟨50, (at0 [] []), by decide +kernel⟩⟩

/-- The hypotheses of every clause of `EngineDecodes` can be met. -/
theorem witness_EngineDecodes :
  (∃ e : Fin 128, ∃ w : EngWork, ∃ s : State, s.workOf e = some w ∧ w.stage = .load) ∧
  (∃ e : Fin 128, ∃ s : State, s.workOf e = none) ∧
  (∃ e : Fin 128, ∃ w : EngWork, ∃ s : State, s.workOf e = some w ∧ w.stage = .iterate ∧ syndromeZero (hardDecision
    (decodeIteration (s.minSum e).1 (s.minSum e).2 w.dec) (inputHard w.cw.llr)) = true) ∧
  (∃ e : Fin 128, ∃ w : EngWork, ∃ s : State, s.workOf e = some w ∧ w.stage = .iterate ∧ w.iter + 1 < w.cw.iterLimit) ∧
  (∃ e : Fin 128, ∃ w : EngWork, ∃ s : State, s.workOf e = some w ∧ w.stage = .iterate ∧ w.cw.iterLimit ≤ w.iter + 1 ∧
    s.rd .hltAction 0 5 ≤ 1) ∧
  (∃ e : Fin 128, ∃ s : State, s.workOf e = none) ∧
  (∃ e : Fin 128, ∃ phase : Int, ∃ w : EngWork, ∃ s : State, s.workOf e = some w ∧ (w.stage = .receive ∨ w.stage =
    .load ∨ w.stage = .iterate) ∧ notBefore ((16 * w.cw.deadline + atcSpan - 16 * 320 - (s.aheadOf e w + 8) / 9 %
    atcSpan) % atcSpan) (s.compAtc phase) = true ∧ s.rd .hltAction 0 6 ≤ 1 ∧ s.on .pwrLnTrim w.cw.lane = false) ∧
  (∃ e : Fin 128, ∃ phase : Int, ∃ w : EngWork, ∃ s : State, s.workOf e = some w ∧ (w.stage = .receive ∨ w.stage =
    .load ∨ w.stage = .iterate) ∧ notBefore ((16 * w.cw.deadline + atcSpan - 16 * 320 - (s.aheadOf e w + 8) / 9 %
    atcSpan) % atcSpan) (s.compAtc phase) = false) ∧
  (∃ e : Fin 128, ∃ s : State, s.workOf e = none) ∧
  (∃ n : Lane, ∃ x : Emission, ∃ s : State, s.ports = [] ∧ s.emits = [x] ∧ x.cluster = n ∧ x.bypass = false ∧ x.eng <
    128) ∧
  (∃ n : Lane, ∃ x : Emission, ∃ s : State, s.ports = [] ∧ s.emits = [x] ∧ x.cluster = n ∧ x.eng = 128) ∧
  (∃ n : Lane, ∃ s : State, s.ports.any (fun p => p.cluster = n) = true) ∧
  (∃ n : Lane, ∃ x : Emission, ∃ s : State, s.ports = [x] ∧ x.cluster = n ∧ x.eng < 128 ∧ 8 ≤ x.sent + s.straitRoom (8
    + n)) ∧
  (∃ n : Lane, ∃ x : Emission, ∃ s : State, s.ports = [x] ∧ x.cluster = n ∧ x.sent + s.straitRoom (8 + n) < 8) ∧
  (∃ n : Lane, ∃ s : State, (∀ p ∈ s.ports, p.cluster ≠ n)) ∧
  (∃ e : Fin 128, ∃ phase : Int, ∃ w : EngWork, ∃ s : State, s.workOf e = some w ∧ s.on .glbXbarRun = true ∧ notBefore
    (16 * (w.cw.deadline + 2720)) (s.compAtc phase) = true) ∧
  (∃ e : Fin 128, ∃ phase : Int, ∃ w : EngWork, ∃ s : State, s.workOf e = some w ∧ s.on .glbXbarRun = true ∧ notBefore
    (16 * (w.cw.deadline + 2720)) (s.compAtc phase) = false) ∧
  (∃ e : Fin 128, ∃ s : State, (s.workOf e = none ∨ s.on .glbXbarRun = false)) :=
  ⟨⟨50, ⟨50, ⟨3, 2, 0, 1, 5, 163251, 0, 12, 0⟩, .load, 0, [], 0, 0, .empty⟩, ((fun s : State =>
     { s with work := [⟨50, ⟨3, 2, 0, 1, 5, 163251, 0, 12, 0⟩, .load, 0, [], 0, 0, .empty⟩] }) (at0 [] [])),
     by decide +kernel⟩,
   ⟨50, (at0 [] []), by decide +kernel⟩,
   ⟨50, ⟨50, ⟨3, 2, 0, 1, 5, 163251, 0, 12, 0⟩, .iterate, 3, [], 0, 0, .empty⟩, ((fun s : State =>
     { s with work := [⟨50, ⟨3, 2, 0, 1, 5, 163251, 0, 12, 0⟩, .iterate, 3, [], 0, 0, .empty⟩] }) (at0 [] [])),
     by decide +kernel⟩,
   ⟨50, ⟨50, ⟨3, 2, 0, 1, 5, 163251, 0, 12, 0⟩, .iterate, 3, [], 0, 0, .empty⟩, ((fun s : State =>
     { s with work := [⟨50, ⟨3, 2, 0, 1, 5, 163251, 0, 12, 0⟩, .iterate, 3, [], 0, 0, .empty⟩] }) (at0 [] [])),
     by decide +kernel⟩,
   ⟨50, ⟨50, ⟨3, 2, 0, 1, 5, 163251, 0, 12, 0⟩, .iterate, 11, [], 0, 0, .empty⟩, ((fun s : State =>
     { s with work := [⟨50, ⟨3, 2, 0, 1, 5, 163251, 0, 12, 0⟩, .iterate, 11, [], 0, 0, .empty⟩] }) (at0 [(.hltAction,
     1, 0, 5)] [])), by decide +kernel⟩,
   ⟨50, (at0 [] []), by decide +kernel⟩,
   ⟨50, 0, ⟨50, ⟨3, 2, 0, 1, 5, 163251, 0, 12, 0⟩, .iterate, 3, [], 0, 0, .empty⟩, ((fun s : State =>
     { s with work := [⟨50, ⟨3, 2, 0, 1, 5, 163251, 0, 12, 0⟩, .iterate, 3, [], 0, 0, .empty⟩] }) (at0 [(.clkAtcHeld,
     163253, 0, 0), (.hltAction, 1, 0, 6), (.pwrLnTrim, 0, 3, 0)] [])), by decide +kernel⟩,
   ⟨50, 0, ⟨50, ⟨3, 2, 0, 1, 5, 163251, 0, 12, 0⟩, .iterate, 3, [], 0, 0, .empty⟩, ((fun s : State =>
     { s with work := [⟨50, ⟨3, 2, 0, 1, 5, 163251, 0, 12, 0⟩, .iterate, 3, [], 0, 0, .empty⟩] }) (at0 [] [])),
     by decide +kernel⟩,
   ⟨50, (at0 [] []), by decide +kernel⟩,
   ⟨3, ⟨3, false, 50, ⟨3, 2, 0, 1, 5, 163251, 0, 12, 0⟩, 0, 0⟩, ((fun s : State =>
     { s with emits := [⟨3, false, 50, ⟨3, 2, 0, 1, 5, 163251, 0, 12, 0⟩, 0, 0⟩], work := [⟨50, ⟨3, 2, 0, 1, 5, 163251, 0, 12, 0⟩, .waitPort, 0, [], 0, 0, .empty⟩] })
     (at0 [] [])), by decide +kernel⟩,
   ⟨3, ⟨3, true, 128, ⟨3, 2, 0, 1, 5, 163251, 0, 12, 0⟩, 0, 0⟩, ((fun s : State =>
     { s with emits := [⟨3, true, 128, ⟨3, 2, 0, 1, 5, 163251, 0, 12, 0⟩, 0, 0⟩] }) (at0 [] [])), by decide +kernel⟩,
   ⟨3, ((fun s : State => { s with ports := [⟨3, false, 50, ⟨3, 2, 0, 1, 5, 163251, 0, 12, 0⟩, 0, 0⟩] }) (at0 [] [])),
     by decide +kernel⟩,
   ⟨3, ⟨3, false, 50, ⟨3, 2, 0, 1, 5, 163251, 0, 12, 0⟩, 0, 0⟩, ((fun s : State =>
     { s with ports := [⟨3, false, 50, ⟨3, 2, 0, 1, 5, 163251, 0, 12, 0⟩, 0, 0⟩], work := [⟨50, ⟨3, 2, 0, 1, 5, 163251, 0, 12, 0⟩, .emit, 0, [], 0, 0, .empty⟩] })
     (at0 [(.arcEngSt, 3, 0, 50)] [])), by decide +kernel⟩,
   ⟨3, ⟨3, false, 50, ⟨3, 2, 0, 1, 5, 163251, 0, 12, 0⟩, 0, 0⟩, ((fun s : State =>
     { s with ports := [⟨3, false, 50, ⟨3, 2, 0, 1, 5, 163251, 0, 12, 0⟩, 0, 0⟩], straits := List.replicate 12 ⟨11, 3, 0, 0, 0, 0⟩ })
     (at0 [] [])), by decide +kernel⟩,
   ⟨3, (at0 [] []), by decide +kernel⟩,
   ⟨50, 0, ⟨50, ⟨3, 2, 0, 1, 5, 163251, 0, 12, 0⟩, .iterate, 3, [], 0, 0, .empty⟩, ((fun s : State =>
     { s with work := [⟨50, ⟨3, 2, 0, 1, 5, 163251, 0, 12, 0⟩, .iterate, 3, [], 0, 0, .empty⟩] }) (at0 [(.clkAtcHeld,
     165981, 0, 0), (.glbXbarRun, 1, 0, 0)] [])), by decide +kernel⟩,
   ⟨50, 0, ⟨50, ⟨3, 2, 0, 1, 5, 163251, 0, 12, 0⟩, .iterate, 3, [], 0, 0, .empty⟩, ((fun s : State =>
     { s with work := [⟨50, ⟨3, 2, 0, 1, 5, 163251, 0, 12, 0⟩, .iterate, 3, [], 0, 0, .empty⟩] }) (at0 [(.glbXbarRun,
     1, 0, 0)] [])), by decide +kernel⟩,
   ⟨50, (at0 [] []), by decide +kernel⟩⟩

/-- The hypotheses of every clause of `ReleaseAndBackgroundWork` can be met. -/
theorem witness_ReleaseAndBackgroundWork :
  (∃ n : Lane, ∃ w : StraitWord, ∃ r : RelSlot, ∃ s : State, s.straitHead (8 + n) = some w ∧ s.on .glbXbarRun = true ∧
    s.slots = [r] ∧ r.lane = w.lane ∧ r.frame = w.frame ∧ r.index = w.index) ∧
  (∃ n : Lane, ∃ w : StraitWord, ∃ s : State, s.straitHead (8 + n) = some w ∧ s.on .glbXbarRun = true ∧ s.slots.any
    (fun r => r.lane == w.lane && r.frame == w.frame && r.index == w.index) = false ∧ w.word = 7) ∧
  (∃ n : Lane, ∃ s : State, (s.straitHead (8 + n) = none ∨ s.on .glbXbarRun = false)) ∧
  (∃ n : Lane, ∃ ui : BitVec 24, ∃ r : RelSlot, ∃ q : List RelSlot, ∃ s : State, s.slots = r :: q ∧ r.lane = n ∧ r.due
    = ui.toNat ∧ s.on .glbXbarRun = true ∧ r.words = 8 ∧ r.profile ≠ s.rd .lfrProfActive n) ∧
  (∃ n : Lane, ∃ ui : BitVec 24, ∃ r : RelSlot, ∃ q : List RelSlot, ∃ s : State, s.slots = r :: q ∧ r.lane = n ∧ r.due
    = ui.toNat ∧ s.on .glbXbarRun = true ∧ r.words = 8 ∧ r.profile = s.rd .lfrProfActive n) ∧
  (∃ n : Lane, ∃ ui : BitVec 24, ∃ r : RelSlot, ∃ q : List RelSlot, ∃ s : State, s.slots = r :: q ∧ r.lane = n ∧ r.due
    = ui.toNat ∧ s.on .glbXbarRun = true ∧ r.words ≠ 8 ∧ s.rd .hltAction 0 6 ≤ 1) ∧
  (∃ n : Lane, ∃ ui : BitVec 24, ∃ s : State, (∀ r ∈ s.slots, r.lane = n → r.due ≠ ui.toNat)) ∧
  (∃ e : Fin 128, ∃ double : Bool, ∃ s : State, s.engState e < 7 ∧ double = false) ∧
  (∃ e : Fin 128, ∃ double : Bool, ∃ s : State, s.engState e < 7 ∧ double = true ∧ s.on .arcEngEcc2 0 e = true) ∧
  (∃ e : Fin 128, ∃ double : Bool, ∃ s : State, s.engState e < 7 ∧ double = true ∧ s.on .arcEngEcc2 0 e = false ∧
    s.workOf e = none) ∧
  (∃ e : Fin 128, ∃ s : State, s.maskBit .glbDecodeRun (e / 16) = true ∧ s.engState e ≠ 7 ∧ s.bg = []) ∧
  (∃ e : Fin 128, ∃ refresh : Bool, ∃ s : State, refresh = false ∧ s.bg.any (fun b => b.cluster == e.val / 16 &&
    b.kind == 2) = true) ∧
  (∃ e : Fin 128, ∃ s : State, s.engState e = 4 ∧ s.rd .arcEngRun 0 e = 1 ∧ s.bg = [⟨e.val / 16, 1, e, 0, false, some
    e.val, none, true⟩]) ∧
  (∃ e : Fin 128, ∃ s : State, s.engState e ≠ 4) ∧
  (∃ e : Fin 128, ∃ s : State, s.engState e = 4 ∧ s.rd .arcEngRun 0 e = 2 ∧ s.bg = [⟨e.val / 16, 2, 0, 0, false, some
    e.val, none, true⟩]) :=
  ⟨⟨3, ⟨11, 3, 2, 9, 7, 12345⟩, ⟨3, 2, 9, 1, 500, 7, 1⟩, ((fun s : State =>
     { s with slots := [⟨3, 2, 9, 1, 500, 7, 1⟩], straits := [⟨11, 3, 2, 9, 7, 12345⟩] }) (at0 [(.glbXbarRun, 1, 0,
     0)] [])), by decide +kernel⟩,
   ⟨3, ⟨11, 3, 2, 9, 7, 12345⟩, ((fun s : State => { s with straits := [⟨11, 3, 2, 9, 7, 12345⟩] }) (at0 [(.glbXbarRun,
     1, 0, 0)] [])), by decide +kernel⟩,
   ⟨3, (at0 [] []), by decide +kernel⟩,
   ⟨3, 500, ⟨3, 2, 9, 1, 500, 8, 77⟩, [], ((fun s : State => { s with slots := [⟨3, 2, 9, 1, 500, 8, 77⟩] }) (at0
     [(.lfrProfActive, 2, 3, 0), (.glbXbarRun, 1, 0, 0)] [])), by decide +kernel⟩,
   ⟨3, 500, ⟨3, 2, 9, 1, 500, 8, 77⟩, [], ((fun s : State => { s with slots := [⟨3, 2, 9, 1, 500, 8, 77⟩] }) (at0
     [(.lfrProfActive, 1, 3, 0), (.glbXbarRun, 1, 0, 0)] [])), by decide +kernel⟩,
   ⟨3, 500, ⟨3, 2, 9, 1, 500, 5, 77⟩, [], ((fun s : State => { s with slots := [⟨3, 2, 9, 1, 500, 5, 77⟩] }) (at0
     [(.hltAction, 1, 0, 6), (.glbXbarRun, 1, 0, 0)] [])), by decide +kernel⟩,
   ⟨3, 7, (at0 [] []), by decide +kernel⟩,
   ⟨50, false, (at0 [(.glbDecodeRun, 255, 0, 0), (.arcEngSt, 2, 0, 50), (.arcEngBad, 0, 0, 50), (.imgState, 0, 0, 0)]
     []), by decide +kernel⟩,
   ⟨50, true, (at0 [(.glbDecodeRun, 255, 0, 0), (.arcEngSt, 2, 0, 50), (.arcEngBad, 0, 0, 50), (.imgState, 0, 0, 0),
     (.arcEngEcc2, 1, 0, 50)] []), by decide +kernel⟩,
   ⟨50, true, (at0 [(.glbDecodeRun, 255, 0, 0), (.arcEngSt, 0, 0, 50), (.arcEngBad, 0, 0, 50), (.imgState, 0, 0, 0),
     (.arcEngEcc2, 0, 0, 50)] []), by decide +kernel⟩,
   ⟨50, (at0 [(.glbDecodeRun, 255, 0, 0), (.arcEngBad, 0, 0, 50), (.imgState, 0, 0, 0)] []), by decide +kernel⟩,
   ⟨50, false, ((fun s : State => { s with bg := [⟨3, 2, 0, 0, false, none, none, false⟩] }) (at0 [] [])),
     by decide +kernel⟩,
   ⟨50, ((fun s : State => { s with bg := [⟨3, 1, 50, 0, false, some 50, none, true⟩] }) (at0 [(.arcEngSt, 4, 0, 50),
     (.arcEngRun, 1, 0, 50), (.glbDecodeRun, 255, 0, 0), (.arcEngBad, 0, 0, 50), (.imgState, 0, 0, 0)] [])),
     by decide +kernel⟩,
   ⟨50, (at0 [(.arcEngSt, 2, 0, 50)] []), by decide +kernel⟩,
   ⟨50, ((fun s : State => { s with bg := [⟨3, 2, 0, 0, false, some 50, none, true⟩] }) (at0 [(.arcEngSt, 4, 0, 50),
     (.arcEngRun, 2, 0, 50), (.glbDecodeRun, 255, 0, 0), (.arcEngBad, 0, 0, 50), (.imgState, 0, 0, 0), (.arcTally, 5,
     3, 17), (.arcClHist, 9, 1, 1)] [])), by decide +kernel⟩⟩

/-- The hypotheses of every clause of `HostLaneControl` can be met. -/
theorem witness_HostLaneControl :
  (∃ h : HostLane, ∃ s : State, s.reaches .hif h ∧ s.underTest 2 (h / 4) = false ∧ s.on .hifHeldOff h = true) ∧
  (∃ h : HostLane, ∃ n : Nat, ∃ s : State, s.reaches .hif h ∧ s.underTest 2 (h / 4) = false ∧ s.on .hifHeldOff h =
    false ∧ s.rd .hifState h = 0 ∧ s.lineOf h = some n ∧ s.rd .pwrDevState = 0 ∧ s.on .thmLnShutdown 0 n = false ∧ (∀
    k ∈ List.range 8, s.rd .hifGlbMapGbMode 0 k ≠ 1 ∧ s.rd .hifGlbMapGbMode 0 k ≠ 2)) ∧
  (∃ h : HostLane, ∃ s : State, s.reaches .hif h ∧ s.underTest 2 (h / 4) = false ∧ s.on .hifHeldOff h = false ∧ s.rd
    .hifState h ≠ 0) ∧
  (∃ h : HostLane, ∃ s : State, s.reaches .hif h) ∧
  (∃ h : HostLane, ∃ n : Nat, ∃ s : State, s.reaches .hif h ∧ s.underTest 2 (h / 4) = false ∧ s.lineOf h = some n ∧
    s.ehm (s.groupOf n).lead = 0 ∧ (s.rd .hifState h = 3 ∨ s.rd .hifState h = 4 ∨ (s.rd .hifState h = 7 ∧ s.rd
    .hifFaultCause h ≠ 8))) ∧
  (∃ h : HostLane, ∃ n : Nat, ∃ s : State, s.reaches .hif h ∧ s.underTest 2 (h / 4) = false ∧ s.lineOf h = some n ∧
    s.ehm (s.groupOf n).lead = 0 ∧ (s.rd .hifState h ≤ 2 ∨ (s.rd .hifState h = 7 ∧ s.rd .hifFaultCause h = 8))) ∧
  (∃ h : HostLane, ∃ s : State, s.reaches .hif h ∧ s.underTest 2 (h / 4) = false ∧ s.warning = true) ∧
  (∃ h : HostLane, ∃ s : State, s.Inv ∧ s.reaches .hif h ∧ s.underTest 2 (h / 4) = false ∧ s.warning = false) ∧
  (∃ h : HostLane, ∃ n : Nat, ∃ s : State, s.reaches .hif h ∧ s.lineOf h = some n ∧ s.transparent n = false) ∧
  (∃ h : HostLane, ∃ n : Nat, ∃ s : State, s.reaches .hif h ∧ s.lineOf h = some n ∧ s.transparent n = true ∧ s.on
    .hifSlipDir h = false ∧ s.rd .hifSlipPos h + s.rd .hifSlipBits h ≤ 12287) ∧
  (∃ h : HostLane, ∃ n : Nat, ∃ s : State, s.reaches .hif h ∧ s.lineOf h = some n ∧ s.transparent n = true ∧ s.on
    .hifSlipDir h = false ∧ 12287 < s.rd .hifSlipPos h + s.rd .hifSlipBits h) ∧
  (∃ h : HostLane, ∃ n : Nat, ∃ s : State, s.reaches .hif h ∧ s.lineOf h = some n ∧ s.transparent n = false) ∧
  (∃ h : HostLane, ∃ n : Nat, ∃ s : State, s.reaches .hif h ∧ s.lineOf h = some n ∧ s.transparent n = true ∧ s.rd
    .hifState h = 3 ∧ s.on .hifRelockRun h = false) :=
  ⟨⟨5, (at0 [(.hifHeldOff, 1, 5, 0)] []), by unfold State.reaches; decide +kernel⟩,
   ⟨5, 2, (at0 [(.hifGlbMapHostA, 5, 0, 2), (.hifHeldOff, 0, 5, 0), (.hifState, 0, 5, 0), (.pwrDevState, 0, 0, 0),
     (.thmLnShutdown, 0, 0, 2), (.hifGlbMapGbMode, 0, 0, 0)] []), by unfold State.reaches; decide +kernel⟩,
   ⟨5, (at0 [(.hifHeldOff, 0, 5, 0), (.hifState, 4, 5, 0)] []), by unfold State.reaches; decide +kernel⟩,
   ⟨5, (at0 [(.hifState, 7, 5, 0), (.hifFaultCause, 3, 5, 0), (.hltSrcLasting, 65535, 0, 9)] []),
     by unfold State.reaches; decide +kernel⟩,
   ⟨5, 2, (at0 [(.hifGlbMapHostA, 5, 0, 2), (.hifState, 4, 5, 0), (.hifTrnRetry, 2, 5, 0), (.hifGlbEhmState, 0, 0, 0)]
     []), by unfold State.reaches; decide +kernel⟩,
   ⟨5, 2, (at0 [(.hifGlbMapHostA, 5, 0, 2), (.hifState, 7, 5, 0), (.hifFaultCause, 8, 5, 0), (.hifGlbEhmState, 0, 0, 0)]
     []), by unfold State.reaches; decide +kernel⟩,
   ⟨5, (at0 [(.pwrWarn, 1, 0, 0)] []), by unfold State.reaches; decide +kernel⟩,
   ⟨5, (at0 [(.pwrWarn, 0, 0, 0), (.hifCtleMax, 9, 5, 0)] []),
     by unfold State.reaches; unfold State.Inv State.shaped; decide +kernel⟩,
   ⟨5, 2, (at0 [(.hifGlbMapHostA, 5, 0, 2)] []), by unfold State.reaches; decide +kernel⟩,
   ⟨5, 2, ((fun s : State => { s with running := some timg }) (at0 [(.hifGlbMapHostA, 5, 0, 2), (.hifSlipDir, 0, 5, 0),
     (.hifSlipPos, 100, 5, 0), (.hifSlipBits, 7, 5, 0)] [])), by unfold State.reaches; decide +kernel⟩,
   ⟨5, 2, ((fun s : State => { s with running := some timg }) (at0 [(.hifGlbMapHostA, 5, 0, 2), (.hifSlipDir, 0, 5, 0),
     (.hifSlipPos, 12287, 5, 0), (.hifSlipBits, 7, 5, 0)] [])), by unfold State.reaches; decide +kernel⟩,
   ⟨5, 2, (at0 [(.hifGlbMapHostA, 5, 0, 2)] []), by unfold State.reaches; decide +kernel⟩,
   ⟨5, 2, ((fun s : State => { s with running := some timg }) (at0 [(.hifGlbMapHostA, 5, 0, 2), (.hifState, 3, 5, 0),
     (.hifRelockRun, 0, 5, 0)] [])), by unfold State.reaches; decide +kernel⟩⟩

/-- The hypotheses of every clause of `HostTraining` can be met. -/
theorem witness_HostTraining :
  (∃ h : HostLane, ∃ s : State, s.rd .hifState h = 1 ∧ s.pllRuns (hostPll h) = true) ∧
  (∃ h : HostLane, ∃ s : State, (s.rd .hifState h ≠ 1 ∨ s.pllRuns (hostPll h) = false)) ∧
  (∃ h : HostLane, ∃ s : State, s.rd .hifState h = 1 ∧ s.rd .hltAction 0 9 ≤ 1) ∧
  (∃ h : HostLane, ∃ s : State, (s.rd .hifState h ≠ 2 ∨ s.on .hifTrnEn h = false)) ∧
  (∃ h : HostLane, ∃ req : TrainReq, ∃ s : State, s.rd .hifState h = 2 ∧ s.on .hifTrnEn h = true ∧ req = .hold) ∧
  (∃ h : HostLane, ∃ req : TrainReq, ∃ tap : Fin 5, ∃ d : Int, ∃ s : State, s.rd .hifState h = 2 ∧ s.on .hifTrnEn h =
    true ∧ req = .step tap d) ∧
  (∃ h : HostLane, ∃ s : State, s.rd .hifState h = 4 ∧ s.rd .hifSleepRx h = 0) ∧
  (∃ h : HostLane, ∃ s : State, (s.rd .hifState h ≤ 1 ∨ s.rd .hifState h = 7)) ∧
  (∃ h : HostLane, ∃ n : Nat, ∃ s : State, s.rd .hifState h = 2 ∧ s.on .hifLocalReady h = true ∧ s.lineOf h = some n ∧
    s.ehm (s.groupOf n).lead = 0 ∧ s.ehmOffers (s.groupOf n) = false ∧ s.transparent n = false) ∧
  (∃ h : HostLane, ∃ s : State, (s.rd .hifState h ≠ 2 ∨ s.on .hifLocalReady h = false)) ∧
  (∃ h : HostLane, ∃ s : State, s.Inv ∧ s.rd .hifState h = 2 ∧ s.on .hifRate h = false ∧ s.rd .hifTrnRetry h < s.rd
    .hifTrnRetryMax h) ∧
  (∃ h : HostLane, ∃ s : State, s.rd .hifState h = 2 ∧ s.on .hifRate h = false ∧ s.rd .hifTrnRetryMax h ≤ s.rd
    .hifTrnRetry h ∧ s.rd .hltAction 0 9 ≤ 1) ∧
  (∃ n : Lane, ∃ s : State, s.ehm n ≠ 2) ∧
  (∃ n : Lane, ∃ s : State, s.ehm n = 2) ∧
  (∃ h : HostLane, ∃ s : State, s.rd .hifState h = 7 ∧ s.on .hifRestartArm h = true ∧ s.on .hifAutoRestart h = true ∧
    s.rd .hifFaultCause h = 1) ∧
  (∃ h : HostLane, ∃ s : State, s.rd .hifState h = 7 ∧ s.on .hifRestartArm h = true ∧ s.on .hifAutoRestart h = true ∧
    s.rd .hifFaultCause h = 3) ∧
  (∃ h : HostLane, ∃ s : State, (s.rd .hifState h ≠ 7 ∨ s.on .hifRestartArm h = false ∨ s.on .hifAutoRestart h =
    false)) :=
  ⟨⟨5, (at0 [(.hifState, 1, 5, 0)] []), by decide +kernel⟩,
   ⟨5, (at0 [(.hifState, 2, 5, 0)] []), by decide +kernel⟩,
   ⟨5, (at0 [(.hifState, 1, 5, 0), (.hltAction, 1, 0, 9)] []), by decide +kernel⟩,
   ⟨5, (at0 [(.hifState, 3, 5, 0)] []), by decide +kernel⟩,
   ⟨5, .hold, (at0 [(.hifState, 2, 5, 0), (.hifTrnEn, 1, 5, 0)] []), by decide +kernel⟩,
   ⟨5, .step 1 (-5), 1, -5, (at0 [(.hifState, 2, 5, 0), (.hifTrnEn, 1, 5, 0), (.hifTxTap, 900, 5, 3)] []),
     by decide +kernel⟩,
   ⟨5, (at0 [(.hifState, 4, 5, 0), (.hifSleepRx, 0, 5, 0)] []), by decide +kernel⟩,
   ⟨5, (at0 [(.hifState, 1, 5, 0)] []), by decide +kernel⟩,
   ⟨5, 2, (at0 [(.hifGlbMapHostA, 5, 0, 2), (.hifState, 2, 5, 0), (.hifLocalReady, 1, 5, 0), (.hifGlbEhmState, 0, 0, 0)]
     []), by decide +kernel⟩,
   ⟨5, (at0 [(.hifState, 2, 5, 0), (.hifLocalReady, 0, 5, 0)] []), by decide +kernel⟩,
   ⟨5, (at0 [(.hifState, 2, 5, 0), (.hifRate, 0, 5, 0), (.hifTrnRetry, 1, 5, 0), (.hifTrnRetryMax, 3, 5, 0)] []),
     by unfold State.Inv State.shaped; decide +kernel⟩,
   ⟨5, (at0 [(.hifState, 2, 5, 0), (.hifRate, 0, 5, 0), (.hifTrnRetry, 3, 5, 0), (.hifTrnRetryMax, 3, 5, 0), (.hltAction,
     1, 0, 9)] []), by decide +kernel⟩,
   ⟨2, (at0 [(.hifGlbEhmState, 0, 0, 0)] []), by decide +kernel⟩,
   ⟨2, (at0 [(.hifGlbEhmState, 0x222, 0, 0)] []), by decide +kernel⟩,
   ⟨5, (at0 [(.hifState, 7, 5, 0), (.hifRestartArm, 1, 5, 0), (.hifAutoRestart, 1, 5, 0), (.hifFaultCause, 1, 5, 0)] []),
     by decide +kernel⟩,
   ⟨5, (at0 [(.hifState, 7, 5, 0), (.hifRestartArm, 1, 5, 0), (.hifAutoRestart, 1, 5, 0), (.hifFaultCause, 3, 5, 0)] []),
     by decide +kernel⟩,
   ⟨5, (at0 [(.hifState, 7, 5, 0), (.hifRestartArm, 0, 5, 0)] []), by decide +kernel⟩⟩

/-- The hypotheses of every clause of `HostAlignmentAndClock` can be met. -/
theorem witness_HostAlignmentAndClock :
  (∃ h : HostLane, ∃ errBits : Nat, ∃ samePos : Bool, ∃ n : Nat, ∃ s : State, s.lineOf h = some n ∧ s.transparent n =
    false ∧ s.on .hifCdrLock h = true ∧ s.rd .hifSleepRx h = 0 ∧ s.rd .hifGlbMapGbMode 0 n ≠ 0 ∧ s.rd .hifState h = 3
    ∧ s.on .hifAmLock h = false ∧ errBits ≤ s.rd .hifAmTol ∧ samePos = true ∧ s.rd .hifAmMatch h = 1) ∧
  (∃ h : HostLane, ∃ errBits : Nat, ∃ n : Nat, ∃ s : State, s.lineOf h = some n ∧ s.transparent n = false ∧ s.on
    .hifCdrLock h = true ∧ s.rd .hifSleepRx h = 0 ∧ s.rd .hifGlbMapGbMode 0 n ≠ 0 ∧ s.rd .hifState h = 4 ∧ s.on
    .hifAmLock h = true ∧ s.rd .hifAmTol < errBits ∧ s.rd .hifAmMiss h = 3) ∧
  (∃ h : HostLane, ∃ s : State, (s.lineOf h = none ∨ ((s.on .hifCdrLock h = false ∨ s.rd .hifState h ≤ 2) ∧ s.rd
    .hifLossAt h ≠ s.now + 1))) ∧
  (∃ h : HostLane, ∃ n : Nat, ∃ s : State, s.rd .hifState h = 3 ∧ s.lineOf h = some n ∧ s.transparent n = false ∧ s.rd
    .hltAction 0 9 ≤ 1) ∧
  (∃ h : HostLane, ∃ s : State, s.rd .hifState h ≠ 3) ∧
  (∃ h : HostLane, ∃ s : State, s.on .hifRelockRun h = true ∧ s.on .hifCdrLock h = false ∧ s.rd .hifState h ≠ 7 ∧ s.rd
    .hltAction 0 9 ≤ 1) ∧
  (∃ h : HostLane, ∃ s : State, (s.on .hifRelockRun h = false ∨ s.on .hifCdrLock h = true)) ∧
  (∃ h : HostLane, ∃ errs : List Int, ∃ s : State, s.rd .hifState h = 2 ∧ s.rd .hifSleepRx h = 0 ∧ s.on .hifCdrLock h
    = false ∧ (cdrQuiet (hostUi (s.rd .hifRate h)) (s.rdInt .hifCdrInt h) (CdrLoop.run (s.use .hifKpSh h) (s.use
    .hifKiSh h) ⟨s.rdInt .hifCdrInt h, 0, 0, 0⟩ 850 errs).integ && cdrInRange (hostUi (s.rd .hifRate h)) (CdrLoop.run
    (s.use .hifKpSh h) (s.use .hifKiSh h) ⟨s.rdInt .hifCdrInt h, 0, 0, 0⟩ 850 errs).integ) = true ∧ s.rd .hifQuietInt
    h = 7) ∧
  (∃ h : HostLane, ∃ errs : List Int, ∃ s : State, s.rd .hifState h = 4 ∧ s.rd .hifSleepRx h = 0 ∧ s.on .hifCdrLock h
    = true ∧ cdrLost (hostUi (s.rd .hifRate h)) (CdrLoop.run (s.use .hifKpSh h) (s.use .hifKiSh h) ⟨s.rdInt .hifCdrInt
    h, 0, 0, 0⟩ 850 errs) = true ∧ s.rd .hltAction 0 10 ≤ 1 ∧ (s.lineOf h = none ∨ s.transparent ((s.lineOf h).getD 0)
    = false)) ∧
  (∃ h : HostLane, ∃ s : State, (s.rd .hifState h ≤ 1 ∨ s.rd .hifSleepRx h ≠ 0)) ∧
  (∃ h : HostLane, ∃ tx : Bool, ∃ recOk : Bool, ∃ s : State, recOk = true ∧ tx = true ∧ s.on .hifSleepTx h = true) ∧
  (∃ h : HostLane, ∃ tx : Bool, ∃ ok : Bool, ∃ recOk : Bool, ∃ s : State, recOk = true ∧ tx = false ∧ s.on .hifSleepRx
    h = true ∧ ok = true) ∧
  (∃ h : HostLane, ∃ tx : Bool, ∃ ok : Bool, ∃ relocked : Bool, ∃ recOk : Bool, ∃ s : State, recOk = true ∧ tx = false
    ∧ s.on .hifSleepRx h = true ∧ ok = false ∧ relocked = false) ∧
  (∃ n : Lane, ∃ s : State, s.transparent n = true) ∧
  (∃ n : Lane, ∃ egress : Bool, ∃ inRange : Bool, ∃ symErr : Option (Fin 16), ∃ s : State, (s.groupOf n).payload ≠
    .transparent ∧ s.monLanes (s.groupOf n) egress = true ∧ inRange = true ∧ symErr = none) ∧
  (∃ n : Lane, ∃ egress : Bool, ∃ inRange : Bool, ∃ s : State, (s.groupOf n).payload ≠ .transparent ∧ s.monLanes
    (s.groupOf n) egress = true ∧ inRange = false) ∧
  (∃ n : Lane, ∃ egress : Bool, ∃ s : State, (s.groupOf n).payload ≠ .transparent ∧ s.monLanes (s.groupOf n) egress =
    false) :=
  ⟨⟨5, 0, true, 2, (at0 [(.hifGlbMapHostA, 5, 0, 2), (.hifCdrLock, 1, 5, 0), (.hifSleepRx, 0, 5, 0), (.hifGlbMapGbMode,
     2, 0, 2), (.hifState, 3, 5, 0), (.hifAmLock, 0, 5, 0), (.hifAmMatch, 1, 5, 0), (.hifAmMiss, 3, 5, 0)] []),
     by decide +kernel⟩,
   ⟨5, 4000, 2, (at0 [(.hifGlbMapHostA, 5, 0, 2), (.hifCdrLock, 1, 5, 0), (.hifSleepRx, 0, 5, 0), (.hifGlbMapGbMode, 2,
     0, 2), (.hifState, 4, 5, 0), (.hifAmLock, 1, 5, 0), (.hifAmMatch, 1, 5, 0), (.hifAmMiss, 3, 5, 0)] []),
     by decide +kernel⟩,
   ⟨5, (at0 [(.hifState, 2, 5, 0), (.hifLossAt, 7, 5, 0)] []), by decide +kernel⟩,
   ⟨5, 2, (at0 [(.hifGlbMapHostA, 5, 0, 2), (.hifState, 3, 5, 0), (.hltAction, 1, 0, 9)] []), by decide +kernel⟩,
   ⟨5, (at0 [(.hifState, 4, 5, 0)] []), by decide +kernel⟩,
   ⟨5, (at0 [(.hifRelockRun, 1, 5, 0), (.hifCdrLock, 0, 5, 0), (.hifState, 3, 5, 0), (.hltAction, 1, 0, 9)] []),
     by decide +kernel⟩,
   ⟨5, (at0 [(.hifRelockRun, 1, 5, 0), (.hifCdrLock, 1, 5, 0)] []), by decide +kernel⟩,
   ⟨5, [], (at0 [(.hifState, 2, 5, 0), (.hifSleepRx, 0, 5, 0), (.hifCdrLock, 0, 5, 0), (.hifQuietInt, 7, 5, 0),
     (.hifCdrInt, 3, 5, 0)] [(.hifKpSh, 4, 5, 0), (.hifKiSh, 9, 5, 0)]), by decide +kernel⟩,
   ⟨5, [], (at0 [(.hifState, 4, 5, 0), (.hifSleepRx, 0, 5, 0), (.hifCdrLock, 1, 5, 0), (.hifCdrInt, 60000000000, 5, 0),
     (.hltAction, 1, 0, 10)] []), by decide +kernel⟩,
   ⟨5, (at0 [(.hifState, 1, 5, 0)] []), by decide +kernel⟩,
   ⟨5, true, true, (at0 [(.hifSleepTx, 1, 5, 0)] []), by decide +kernel⟩,
   ⟨5, false, true, true, (at0 [(.hifSleepRx, 1, 5, 0)] []), by decide +kernel⟩,
   ⟨5, false, false, false, true, (at0 [(.hifSleepRx, 1, 5, 0), (.hifState, 4, 5, 0)] []), by decide +kernel⟩,
   ⟨2, ((fun s : State => { s with running := some timg }) (at0 [] [])), by decide +kernel⟩,
   ⟨2, false, true, none, (at0 [(.hifGlbPairAmLockIng, 1, 0, 0), (.hifGlbPairAmLockIng, 1, 0, 1), (.hifGlbPairAmLockIng,
     1, 0, 2), (.hifGlbPairAmLockIng, 1, 0, 3), (.hifGlbPairAmLockIng, 1, 0, 4), (.hifGlbPairAmLockIng, 1, 0, 5),
     (.hifGlbPairAmLockIng, 1, 0, 6), (.hifGlbPairAmLockIng, 1, 0, 7)] []), by decide +kernel⟩,
   ⟨2, false, false, (at0 [(.hifGlbPairAmLockIng, 1, 0, 0), (.hifGlbPairAmLockIng, 1, 0, 1), (.hifGlbPairAmLockIng, 1, 0,
     2), (.hifGlbPairAmLockIng, 1, 0, 3), (.hifGlbPairAmLockIng, 1, 0, 4), (.hifGlbPairAmLockIng, 1, 0, 5),
     (.hifGlbPairAmLockIng, 1, 0, 6), (.hifGlbPairAmLockIng, 1, 0, 7)] []), by decide +kernel⟩,
   ⟨2, true, (at0 [(.hifAmLock, 0, 5, 0), (.hifGlbMapHostA, 5, 0, 2)] []), by decide +kernel⟩⟩

/-- The hypotheses of every clause of `TimeOfDay` can be met. -/
theorem witness_TimeOfDay :
  (∃ s : State, s.reaches .tim 0 ∧ s.on .timSlewing = false) ∧
  (∃ s : State, s.reaches .tim 0 ∧ s.on .timSlewing = true) ∧
  (∃ s : State, s.reaches .tim 0 ∧ s.on .timSlewing = false) ∧
  (∃ s : State, s.on .timTodArm = true) ∧
  (∃ s : State, s.on .timTodArm = false) ∧
  (∃ s : State, s.reaches .tim 0 ∧ s.rd .timDpllSrc ≤ 1 ∧ 0 ≤ (s.todFull : Int) + s.todAdj * 2 ^ 24 ∧ (s.todFull :
    Int) + s.todAdj * 2 ^ 24 < 2 ^ 48 * 1000000000 * 2 ^ 40) ∧
  (∃ s : State, s.reaches .tim 0 ∧ 2 ≤ s.rd .timDpllSrc) ∧
  (∃ s : State, s.Inv ∧ s.reaches .tim 0 ∧ s.rd .timDpllSrc ≤ 1) ∧
  (∃ s : State, s.reaches .tim 0 ∧ 2 ≤ s.rd .timDpllSrc) ∧
  (∃ s : State, s.on .timSlewing = true ∧ 0 ≤ (s.todFull : Int) + s.rdInt .timSlewLeft ∧ (s.todFull : Int) + s.rdInt
    .timSlewLeft < 2 ^ 48 * 1000000000 * 2 ^ 40) ∧
  (∃ s : State, s.on .timSlewing = false) :=
  ⟨⟨(at0 [(.timTodSet, 36893488155714191360, 0, 0), (.timTodArm, 1, 0, 0), (.timSlewing, 0, 0, 0)] []),
     by unfold State.reaches; decide +kernel⟩,
   ⟨(at0 [(.timTodSet, 36893488155714191360, 0, 0), (.timTodArm, 1, 0, 0), (.timSlewing, 1, 0, 0), (.timSlewLeft, 5, 0,
     0)] []), by unfold State.reaches; decide +kernel⟩,
   ⟨(at0 [(.timTodArm, 0, 0, 0)] []), by unfold State.reaches; decide +kernel⟩,
   ⟨(at0 [(.timTodArm, 1, 0, 0)] []), by decide +kernel⟩,
   ⟨(at0 [(.timTodArm, 0, 0, 0)] []), by decide +kernel⟩,
   ⟨(at0 [(.timTodNow, 6553600000, 0, 0), (.timAdjNs, 4294967295, 0, 0), (.timAdjFrac, 7, 0, 0), (.timDpllSrc, 1, 0, 0)]
     []), by unfold State.reaches; decide +kernel⟩,
   ⟨(at0 [(.timDpllSrc, 2, 0, 0)] []), by unfold State.reaches; decide +kernel⟩,
   ⟨(at0 [(.timAdjNs, 4294967295, 0, 0), (.timAdjFrac, 7, 0, 0), (.timDpllSrc, 0, 0, 0)] []),
     by unfold State.reaches; unfold State.Inv State.shaped; decide +kernel⟩,
   ⟨(at0 [(.timDpllSrc, 3, 0, 0)] []), by unfold State.reaches; decide +kernel⟩,
   ⟨(at0 [(.timSlewing, 1, 0, 0), (.timSlewLeft, 77, 0, 0), (.timTodNow, 6553600000, 0, 0)] []), by decide +kernel⟩,
   ⟨(at0 [(.timSlewing, 0, 0, 0)] []), by decide +kernel⟩⟩

/-- The hypotheses of every clause of `TimestampsAndDrift` can be met. -/
theorem witness_TimestampsAndDrift :
  (∃ s : State, s.on .timTsEn = false) ∧
  (∃ r : PointReport, ∃ n : Lane, ∃ s : State, r.kind = 0 ∧ r.index = n.castLE (by decide) ∧ s.pointOn 0 n = true ∧
    r.full = true) ∧
  (∃ r : PointReport, ∃ n : Lane, ∃ s : State, r.kind = 0 ∧ r.index = n.castLE (by decide) ∧ s.pointOn 0 n = true ∧
    r.full = false ∧ s.on .timCapNeed n = false ∧ s.rd .timCapC n 0 < s.rd .timCapC n 1 ∧ s.maskBit .timTsfKinds 0 =
    false ∧ s.rd .lfrGroupMode n ≠ 2) ∧
  (∃ island : Fin 12, ∃ interval : BitVec 12, ∃ s : State, s.on .pwrDomTime = true ∧ s.pllRuns (islandPll island) =
    true ∧ -(2 ^ 159) ≤ (s.todFull - s.rdInt .timJump) * 2000 - interval.toNat * 2 ^ 40 ∧ (s.todFull - s.rdInt
    .timJump) * 2000 - interval.toNat * 2 ^ 40 < 2 ^ 159) ∧
  (∃ island : Fin 12, ∃ s : State, s.pllRuns (islandPll island) = false) ∧
  (∃ delta : Int, ∃ s : State, s.on .pwrDomTime = true ∧ -(2 ^ 15) ≤ delta ∧ delta < 2 ^ 15) ∧
  (∃ s : State, s.on .pwrDomTime = false) ∧
  (∃ s : State, s.reaches .tim 0 ∧ s.tsf = []) ∧
  (∃ e : TsfEntry, ∃ q : List TsfEntry, ∃ s : State, s.reaches .tim 0 ∧ s.tsf = e :: q ∧ e.kind < 8 ∧ e.frame < 65536
    ∧ q.length < 128 ∧ e.time < 2 ^ 112) ∧
  (∃ s : State, s.reaches .tim 0) ∧
  (∃ n : Lane, ∃ s : State, s.on .pwrDomTime = true ∧ s.ingValid n = false) ∧
  (∃ n : Lane, ∃ s : State, s.Inv ∧ s.on .pwrDomTime = true ∧ s.maskBit .imgPcP n = false ∧ s.maskBit .imgPcQ n =
    false ∧ s.on .lfrFillRx n = false ∧ s.dirAsleep n false = false ∧ s.dirAsleep n true = false ∧ s.rd .lfrGroupMode
    n ≠ 2 ∧ s.on .lfrAwaitRel n = false) ∧
  (∃ n : Lane, ∃ s : State, s.on .pwrDomTime = true ∧ s.on .lfrFillRx n = true) :=
  ⟨⟨(at0 [(.timTsEn, 0, 0, 0)] []), by decide +kernel⟩,
   ⟨⟨0, 3, 0, 0, 0, 0, true, 0⟩, 3, (at0 [(.timTsEn, 1, 0, 0), (.lfrFrameLock, 1, 3, 0), (.lfrGroupMode, 1, 3, 0)] []),
     by decide +kernel⟩,
   ⟨⟨0, 3, 1100, 5, 77, 9, false, 0⟩, 3, (at0 [(.timTsEn, 1, 0, 0), (.lfrFrameLock, 1, 3, 0), (.lfrGroupMode, 1, 3, 0),
     (.timCapNeed, 0, 3, 0), (.timCapC, 1000, 3, 0), (.timCapC, 1200, 3, 1), (.timCapT, 9000000000000000, 3, 0),
     (.timCapT, 9900000000000000, 3, 1), (.timTsfKinds, 0, 0, 0)] []), by decide +kernel⟩,
   ⟨9, 4000, (at0 [(.timCapC, 12, 9, 1), (.timTodNow, 6553600000, 0, 0)] []), by decide +kernel⟩,
   ⟨0, (at0 [(.pllState, 1, 0, 0)] []), by decide +kernel⟩,
   ⟨-300, (at0 [] []), by decide +kernel⟩,
   ⟨(at0 [(.pwrDomTime, 0, 0, 0)] []), by decide +kernel⟩,
   ⟨(at0 [(.timTsfNotValid, 0, 0, 0)] []), by unfold State.reaches; decide +kernel⟩,
   ⟨⟨3, 2, true, false, 99999999, 5⟩, [], ((fun s : State => { s with tsf := [⟨3, 2, true, false, 99999999, 5⟩] }) (at0
     [(.timTsfNotValid, 1, 0, 0)] [])), by unfold State.reaches; decide +kernel⟩,
   ⟨((fun s : State => { s with tsf := [⟨3, 2, true, false, 99999999, 5⟩] }) (at0 [(.timTsfLevel, 5, 0, 0)] [])),
     by unfold State.reaches; decide +kernel⟩,
   ⟨3, (at0 [(.lrxState, 5, 3, 0), (.timLnLedFlags, 3, 3, 0), (.timCalValid, 0, 0, 0)] []), by decide +kernel⟩,
   ⟨3, (at0 [(.imgPcQ, 0, 0, 0), (.imgPcP, 0, 0, 0), (.lfrFillRx, 0, 3, 0), (.lfrGroupMode, 1, 3, 0), (.lfrAwaitRel, 0,
     3, 0), (.lfrProfActive, 2, 3, 0), (.timAna, 99, 0, 3)] []), by unfold State.Inv State.shaped; decide +kernel⟩,
   ⟨3, (at0 [(.lfrFillRx, 1, 3, 0)] []), by decide +kernel⟩⟩

/-- The hypotheses of every clause of `IcrisExchange` can be met. -/
theorem witness_IcrisExchange :
  (∃ n : Lane, ∃ s : State, (s.xState n < 2 ∨ s.icrisVer n ≠ 2)) ∧
  (∃ n : Lane, ∃ s : State, s.on .pwrDomTime = true ∧ 2 ≤ s.xState n ∧ s.icrisVer n = 2 ∧ s.maskBit .glbLaneRun n =
    false) ∧
  (∃ n : Lane, ∃ late : Bool, ∃ s : State, s.on .pwrDomTime = true ∧ 2 ≤ s.xState n ∧ s.icrisVer n = 2 ∧ s.maskBit
    .glbLaneRun n = true ∧ late = true) ∧
  (∃ n : Lane, ∃ late : Bool, ∃ s : State, s.on .pwrDomTime = true ∧ 2 ≤ s.xState n ∧ s.icrisVer n = 2 ∧ s.maskBit
    .glbLaneRun n = true ∧ late = false ∧ s.on .timLnTxFresh n = true ∧ (s.ex n).due = true ∧ (s.ex n).echo = none ∧
    s.exch.length = 8) ∧
  (∃ n : Lane, ∃ s : State, 2 ≤ s.xState n ∧ s.icrisVer n = 2) ∧
  (∃ n : Lane, ∃ s : State, s.xState n < 2) ∧
  (∃ n : Lane, ∃ s : State, (s.ex n).got = none) ∧
  (∃ n : Lane, ∃ e : EchoIn, ∃ s : State, (s.ex n).got = some e ∧ s.exch.length = 8 ∧ (s.ex n).out = []) ∧
  (∃ n : Lane, ∃ e : EchoIn, ∃ d : Nat, ∃ s : State, (s.ex n).got = some e ∧ s.exch.length = 8 ∧ (s.ex n).out =
    [⟨e.seq, some d, false, true⟩]) ∧
  (∃ n : Lane, ∃ e : EchoIn, ∃ d : Nat, ∃ s : State, (s.ex n).got = some e ∧ s.exch.length = 8 ∧ (s.ex n).out =
    [⟨e.seq, some d, false, false⟩] ∧ e.disc = false ∧ e.suspect = true) ∧
  (∃ n : Lane, ∃ e : EchoIn, ∃ d : Nat, ∃ s : State, (s.ex n).got = some e ∧ s.exch.length = 8 ∧ (s.ex n).out =
    [⟨e.seq, some d, false, false⟩] ∧ e.disc = false ∧ e.suspect = false ∧ s.icrisVer n = 2 ∧ (s.ex n).hist = []) ∧
  (∃ n : Lane, ∃ seq : BitVec 16, ∃ s : State, (s.ex n).out.any (fun i => i.seq = seq.toNat) = true ∧ s.exch.length =
    8) ∧
  (∃ n : Lane, ∃ s : State, (s.ex n).out = []) ∧
  (∃ n : Lane, ∃ s : State, s.xState n = 3) ∧
  (∃ n : Lane, ∃ s : State, s.xState n ≠ 3) ∧
  (∃ n : Lane, ∃ s : State, s.reaches .timLn n ∧ s.exch.length = 8) :=
  ⟨⟨3, (at0 [(.timLnExchEn, 0, 3, 0)] []), by decide +kernel⟩,
   ⟨3, (at0 [(.lfrFrameLock, 1, 3, 0), (.lfrNegState, 3, 3, 0), (.lfrIcrisUse, 2, 3, 0), (.ltxState, 4, 3, 0),
     (.timLnExchEn, 1, 3, 0), (.lrxSleep, 0, 3, 0), (.ltxSleep, 0, 3, 0), (.glbLaneRun, 255, 0, 0), (.timLnTxFresh, 1,
     3, 0), (.glbLaneRun, 1, 0, 0)] []), by decide +kernel⟩,
   ⟨3, true, (at0 [(.lfrFrameLock, 1, 3, 0), (.lfrNegState, 3, 3, 0), (.lfrIcrisUse, 2, 3, 0), (.ltxState, 4, 3, 0),
     (.timLnExchEn, 1, 3, 0), (.lrxSleep, 0, 3, 0), (.ltxSleep, 0, 3, 0), (.glbLaneRun, 255, 0, 0), (.timLnTxFresh, 1,
     3, 0)] []), by decide +kernel⟩,
   ⟨3, false, ((fun s : State => s.setEx 3 ⟨65535, true, [], none, [], [], 0, false, none, none, none⟩) (at0
     [(.lfrFrameLock, 1, 3, 0), (.lfrNegState, 3, 3, 0), (.lfrIcrisUse, 2, 3, 0), (.ltxState, 4, 3, 0), (.timLnExchEn,
     1, 3, 0), (.lrxSleep, 0, 3, 0), (.ltxSleep, 0, 3, 0), (.glbLaneRun, 255, 0, 0), (.timLnTxFresh, 1, 3, 0)] [])),
     by decide +kernel⟩,
   ⟨3, (at0 [(.lfrFrameLock, 1, 3, 0), (.lfrNegState, 3, 3, 0), (.lfrIcrisUse, 2, 3, 0), (.ltxState, 4, 3, 0),
     (.timLnExchEn, 1, 3, 0), (.lrxSleep, 0, 3, 0), (.ltxSleep, 0, 3, 0), (.glbLaneRun, 255, 0, 0), (.timLnTxFresh, 1,
     3, 0)] []), by decide +kernel⟩,
   ⟨3, (at0 [(.timLnExchEn, 0, 3, 0)] []), by decide +kernel⟩,
   ⟨3, (at0 [] []), by decide +kernel⟩,
   ⟨3, ⟨5, 77, 88, 99, false, false, 1, 2, 123⟩, ((fun s : State => s.setEx 3 ⟨6, false, [], none, [], [], 0, false,
     none, none, (some ⟨5, 77, 88, 99, false, false, 1, 2, 123⟩)⟩) (at0 [] [])), by decide +kernel⟩,
   ⟨3, ⟨5, 77, 88, 99, false, false, 1, 2, 123⟩, 9, ((fun s : State => s.setEx 3 ⟨6, false, [⟨5, some 9, false, true⟩],
     none, [(1, 2)], [], 0, false, none, none, (some ⟨5, 77, 88, 99, false, false, 1, 2, 123⟩)⟩) (at0 [(.lfrFrameLock,
     1, 3, 0), (.lfrNegState, 3, 3, 0), (.lfrIcrisUse, 2, 3, 0), (.ltxState, 4, 3, 0), (.timLnExchEn, 1, 3, 0),
     (.lrxSleep, 0, 3, 0), (.ltxSleep, 0, 3, 0), (.glbLaneRun, 255, 0, 0), (.timLnTxFresh, 1, 3, 0)] [])),
     by decide +kernel⟩,
   ⟨3, ⟨5, 77, 88, 99, true, false, 1, 2, 123⟩, 9, ((fun s : State => s.setEx 3 ⟨6, false, [⟨5, some 9, false, false⟩],
     none, [(1, 2)], [], 0, false, none, none, (some ⟨5, 77, 88, 99, true, false, 1, 2, 123⟩)⟩) (at0 [(.lfrFrameLock,
     1, 3, 0), (.lfrNegState, 3, 3, 0), (.lfrIcrisUse, 2, 3, 0), (.ltxState, 4, 3, 0), (.timLnExchEn, 1, 3, 0),
     (.lrxSleep, 0, 3, 0), (.ltxSleep, 0, 3, 0), (.glbLaneRun, 255, 0, 0), (.timLnTxFresh, 1, 3, 0)] [])),
     by decide +kernel⟩,
   ⟨3, ⟨5, 77, 88, 99, false, false, 1, 2, 123⟩, 9, ((fun s : State => s.setEx 3 ⟨6, false, [⟨5, some 9, false, false⟩],
     none, [], [], 0, false, none, none, (some ⟨5, 77, 88, 99, false, false, 1, 2, 123⟩)⟩) (at0 [(.lfrFrameLock, 1, 3,
     0), (.lfrNegState, 3, 3, 0), (.lfrIcrisUse, 2, 3, 0), (.ltxState, 4, 3, 0), (.timLnExchEn, 1, 3, 0), (.lrxSleep,
     0, 3, 0), (.ltxSleep, 0, 3, 0), (.glbLaneRun, 255, 0, 0), (.timLnTxFresh, 1, 3, 0)] [])), by decide +kernel⟩,
   ⟨3, 5, ((fun s : State => s.setEx 3 ⟨6, false, [⟨5, some 9, false, false⟩, ⟨6, none, false, false⟩], none, [], [], 0,
     false, none, none, none⟩) (at0 [] [])), by decide +kernel⟩,
   ⟨3, (at0 [] []), by decide +kernel⟩,
   ⟨3, ((fun s : State => s.setEx 3 ⟨6, false, [], none, List.replicate 16 (1, 2), [⟨1, 2, 3, 4, 5, 6, 7, 8, 9, 10⟩], 0,
     false, none, none, none⟩) (at0 [(.lfrFrameLock, 1, 3, 0), (.lfrNegState, 3, 3, 0), (.lfrIcrisUse, 2, 3, 0),
     (.ltxState, 4, 3, 0), (.timLnExchEn, 1, 3, 0), (.lrxSleep, 0, 3, 0), (.ltxSleep, 0, 3, 0), (.glbLaneRun, 255, 0,
     0), (.timLnTxFresh, 1, 3, 0), (.timLnStale, 0, 3, 0)] [])), by decide +kernel⟩,
   ⟨3, (at0 [(.lfrFrameLock, 1, 3, 0), (.lfrNegState, 3, 3, 0), (.lfrIcrisUse, 2, 3, 0), (.ltxState, 4, 3, 0),
     (.timLnExchEn, 1, 3, 0), (.lrxSleep, 0, 3, 0), (.ltxSleep, 0, 3, 0), (.glbLaneRun, 255, 0, 0), (.timLnTxFresh, 1,
     3, 0)] []), by decide +kernel⟩,
   ⟨3, ((fun s : State => s.setEx 3 ⟨6, false, [], none, List.replicate 16 (1, 2), [⟨1, 2, 3, 4, 5, 6, 7, 8, 9, 10⟩], 0,
     false, none, none, none⟩) (at0 [(.lfrFrameLock, 1, 3, 0), (.lfrNegState, 3, 3, 0), (.lfrIcrisUse, 2, 3, 0),
     (.ltxState, 4, 3, 0), (.timLnExchEn, 1, 3, 0), (.lrxSleep, 0, 3, 0), (.ltxSleep, 0, 3, 0), (.glbLaneRun, 255, 0,
     0), (.timLnTxFresh, 1, 3, 0), (.timLnStale, 1, 3, 0)] [])), by unfold State.reaches; decide +kernel⟩⟩

/-- The hypotheses of every clause of `TimeDpllAndPins` can be met. -/
theorem witness_TimeDpllAndPins :
  (∃ s : State, (s.on .timDpllDue = false ∨ s.rd .timDpllSrc ≤ 1 ∨ s.warning = true ∨ s.on .clkRefLost = true)) ∧
  (∃ s : State, s.on .timDpllDue = true ∧ 2 ≤ s.rd .timDpllSrc ∧ s.warning = false ∧ s.on .clkRefLost = false ∧ s.on
    .clkRefBad = false ∧ s.rd .timDpllState = 1 ∧ s.on .timDpllStepEn = false ∧ (s.rdInt .timDpllErr).natAbs ≤ s.rd
    .timDpllLockNs * 65536 ∧ s.rd .timDpllRun = 7) ∧
  (∃ s : State, s.rd .timDpllState = 2 ∧ s.warning = false ∧ s.rd .timDpllMiss = 1) ∧
  (∃ s : State, s.rd .timDpllState = 2 ∧ s.warning = false ∧ s.rd .timDpllMiss = 0) ∧
  (∃ s : State, (s.rd .timDpllState = 0 ∨ s.rd .timDpllState = 3 ∨ s.warning = true)) ∧
  (∃ s : State, s.rd .pwrDevState ≠ 5 ∧ s.on .timInEn = false) ∧
  (∃ offset : BitVec 17, ∃ s : State, s.rd .pwrDevState ≠ 5 ∧ s.on .timInEn = true ∧ s.on .pwrDomTime = true ∧ s.on
    .timInHas = false ∧ s.rdInt .timInOfsPs = 0 ∧ s.maskBit .timTsfKinds 4 = false ∧ s.rd .timDpllSrc ≤ 1 ∧ s.on
    .timTodArm = false ∧ s.maskBit .pwrWakeEn 3 = false ∧ s.rd .timTodNow + offset.toNat < 2 ^ 112) ∧
  (∃ s : State, s.rd .pwrDevState ≠ 5 ∧ s.on .timInEn = true ∧ s.on .pwrDomTime = true ∧ s.on .timInHas = true ∧ s.rd
    .timInPeriodMs = 1000 ∧ s.rd .timInLast = s.now * 131072) ∧
  (∃ s : State, s.on .timInEn = true ∧ s.on .pwrDomTime = true) ∧
  (∃ s : State, s.on .timInEn = false) ∧
  (∃ s : State, s.on .timOutEn = true ∧ s.on .pwrDomTime = true ∧ s.rdInt .timOutOfsPs = 0 ∧ s.rd .timTodNow < 2 ^ 112
    ∧ s.rd .timOutWidthUs < s.rd .timOutPeriodMs * 1000) ∧
  (∃ s : State, s.on .timOutEn = false) ∧
  (∃ s : State, s.warning = false) ∧
  (∃ s : State, s.warning = true) :=
  ⟨⟨(at0 [(.timDpllDue, 1, 0, 0), (.timDpllSrc, 2, 0, 0), (.pwrWarn, 1, 0, 0)] []), by decide +kernel⟩,
   ⟨(at0 [(.timDpllDue, 1, 0, 0), (.timDpllSrc, 2, 0, 0), (.timDpllState, 1, 0, 0), (.timDpllErr, 7, 0, 0),
     (.timDpllLockNs, 1, 0, 0), (.timDpllRun, 7, 0, 0), (.timDpllStepEn, 0, 0, 0), (.clkRefLost, 0, 0, 0),
     (.clkRefBad, 0, 0, 0), (.pwrWarn, 0, 0, 0)] []), by decide +kernel⟩,
   ⟨((fun s : State => { s with dpllHist := [4, 8] }) (at0 [(.timDpllState, 2, 0, 0), (.timDpllMiss, 1, 0, 0)] [])),
     by decide +kernel⟩,
   ⟨(at0 [(.timDpllState, 2, 0, 0), (.timDpllMiss, 0, 0, 0)] []), by decide +kernel⟩,
   ⟨(at0 [(.timDpllState, 0, 0, 0)] []), by decide +kernel⟩,
   ⟨(at0 [(.timInEn, 0, 0, 0)] []), by decide +kernel⟩,
   ⟨7, (at0 [(.timInEn, 1, 0, 0), (.timInHas, 0, 0, 0), (.timTodNow, 777777777, 0, 0), (.timTsfKinds, 0, 0, 0),
     (.pwrWakeEn, 0, 0, 0)] []), by decide +kernel⟩,
   ⟨(at0 [(.timInEn, 1, 0, 0), (.timInHas, 1, 0, 0), (.timInPeriodMs, 1000, 0, 0), (.timInLast, 0, 0, 0)] []),
     by decide +kernel⟩,
   ⟨(at0 [(.timInEn, 1, 0, 0)] []), by decide +kernel⟩,
   ⟨(at0 [(.timInEn, 0, 0, 0)] []), by decide +kernel⟩,
   ⟨(at0 [(.timOutEn, 1, 0, 0), (.timTodNow, 77777777777777, 0, 0), (.timOutPeriodMs, 1, 0, 0), (.timOutWidthUs, 10, 0,
     0)] []), by decide +kernel⟩,
   ⟨(at0 [(.timOutEn, 0, 0, 0)] []), by decide +kernel⟩,
   ⟨(at0 [(.timSuspect, 1, 0, 0)] []), by decide +kernel⟩,
   ⟨(at0 [(.timSuspect, 1, 0, 0), (.pwrWarn, 1, 0, 0)] []), by decide +kernel⟩⟩

/-- The hypotheses of every clause of `PllsAndReferenceClock` can be met. -/
theorem witness_PllsAndReferenceClock :
  (∃ p : Fin 5, ∃ s : State, (s.refOut = true ∨ s.rd .pllState p = 0 ∨ s.rd .pllState p = 5 ∨ s.rd .pllState p = 3)) ∧
  (∃ p : Fin 5, ∃ errPpm : Int, ∃ slip : Bool, ∃ s : State, s.refOut = false ∧ s.rd .pllState p = 2 ∧ errPpm.natAbs ≤
    100 ∧ slip = false ∧ errPpm < 128 ∧ -128 ≤ errPpm) ∧
  (∃ p : Fin 5, ∃ errPpm : Int, ∃ phaseOk : Bool, ∃ slip : Bool, ∃ s : State, s.refOut = false ∧ s.rd .pllState p = 4
    ∧ errPpm.natAbs ≤ 20 ∧ phaseOk = true ∧ slip = false ∧ s.rd .pllQuietWin p = 3) ∧
  (∃ p : Fin 5, ∃ errPpm : Int, ∃ slip : Bool, ∃ s : State, s.refOut = false ∧ s.rd .pllState p = 2 ∧ (100 <
    errPpm.natAbs ∨ slip = true) ∧ s.maskBit .clkAutoRelock p = true ∧ s.on .pllReqPend p = false ∧ s.rd .hltAction 0
    11 ≤ 1) ∧
  (∃ p : Fin 5, ∃ slip : Bool, ∃ s : State, s.refOut = false ∧ s.rd .pllState p = 2 ∧ slip = true ∧ s.maskBit
    .clkAutoRelock p = false ∧ s.rd .hltAction 0 11 ≤ 1) ∧
  (∃ p : Fin 5, ∃ errPpm : Int, ∃ phaseOk : Bool, ∃ slip : Bool, ∃ s : State, s.refOut = false ∧ s.rd .pllState p = 1
    ∧ errPpm.natAbs ≤ 20 ∧ phaseOk = true ∧ slip = false ∧ s.rd .pllQuietWin p = 3) ∧
  (∃ mask : BitVec 5, ∃ s : State, s.reaches .clk 0 ∧ mask = 0) ∧
  (∃ mask : BitVec 5, ∃ p : Fin 5, ∃ s : State, s.reaches .clk 0 ∧ s.warning = false ∧ mask.toNat = 2 ^ p.val ∧ s.on
    .pllCalRun p = false ∧ s.rd .pllState p ≠ 0) ∧
  (∃ mask : BitVec 5, ∃ p : Fin 5, ∃ s : State, s.Inv ∧ s.reaches .clk 0 ∧ s.warning = true ∧ mask.toNat = 2 ^ p.val ∧
    s.on .pllCalRun p = false ∧ s.rd .pllState p ≠ 0) ∧
  (∃ mask : BitVec 5, ∃ p : Fin 5, ∃ s : State, s.reaches .clk 0 ∧ mask.toNat = 2 ^ p.val ∧ (s.on .pllCalRun p = true
    ∨ s.rd .pllState p = 0)) ∧
  (∃ p : Fin 5, ∃ s : State, (s.on .pllReqPend p = false ∨ s.on .pllCalRun p = true ∨ s.pllTransmits p = true ∨
    s.refOut = true)) ∧
  (∃ p : Fin 5, ∃ s : State, s.on .pllReqPend p = true ∧ s.on .pllCalRun p = false ∧ s.pllTransmits p = false ∧
    s.refOut = false) ∧
  (∃ p : Fin 5, ∃ s : State, (s.rd .pllCalRun p ≠ 1 ∨ s.refOut = true)) ∧
  (∃ p : Fin 5, ∃ s : State, s.rd .pllCalRun p = 1 ∧ s.refOut = false ∧ s.on .pllLock p = true ∧ s.warning = false ∧ p
    ≠ 4) ∧
  (∃ p : Fin 5, ∃ s : State, s.rd .pllCalRun p = 1 ∧ s.refOut = false ∧ s.on .pllLock p = false ∧ p ≠ 4) ∧
  (∃ p : Fin 5, ∃ band : BitVec 6, ∃ s : State, s.rd .pllCalRun p = 1 ∧ s.refOut = false ∧ s.on .pllLock p = true ∧
    s.warning = true ∧ band.toNat ≠ s.rd .pllBand p ∧ p ≠ 4) ∧
  (∃ p : Fin 5, ∃ s : State, s.rd .pllState p = 4) ∧
  (∃ p : Fin 5, ∃ s : State, s.rd .pllState p ≠ 4) ∧
  (∃ s : State, s.on .clkRefLost = true) ∧
  (∃ s : State, s.refOut = false) ∧
  (∃ count : BitVec 16, 2432 ≤ count.toNat ∧ count.toNat ≤ 2688) ∧
  (∃ count : BitVec 16, ∃ s : State, 2688 < count.toNat ∧ s.refOut = false) ∧
  (∃ s : State, (s.refOut = false ∨ s.on .clkCountOk = false)) ∧
  (∃ p : Fin 5, ∃ s : State, s.refOut = true ∧ s.on .clkCountOk = true ∧ s.on .clkOutage = true ∧ s.rd .pllState p = 3
    ∧ s.on .pllDeclared p = false ∧ s.on .pllBandHeld p = false ∧ 20 ≤ s.rd .clkRefHoldUs) ∧
  (∃ s : State, (s.refOut = true ∨ s.on .clkRefBack = false)) ∧
  (∃ p : Fin 5, ∃ s : State, s.refOut = false ∧ s.on .clkRefBack = true ∧ s.rd .pllState p = 3 ∧ s.on .pllDeclared p =
    true) ∧
  (∃ s : State, (s.on .clkOutage = false ∨ s.refOut = false)) ∧
  (∃ s : State, s.on .clkOutage = true ∧ s.refOut = true ∧ (∀ p ∈ List.range 5, s.rd .pllState p ≠ 3)) ∧
  (∃ p : Fin 5, ∃ s : State, s.on .clkOutage = true ∧ s.refOut = true ∧ s.rd .pllState p = 3 ∧ s.rd .hltAction 0 11 ≤
    1) :=
  ⟨⟨1, (at0 [(.pllState, 5, 1, 0)] []), by decide +kernel⟩,
   ⟨1, -99, false, (at0 [(.pllState, 2, 1, 0), (.clkRefLost, 0, 0, 0), (.clkRefBad, 0, 0, 0)] []), by decide +kernel⟩,
   ⟨1, 20, true, false, (at0 [(.pllState, 4, 1, 0), (.clkRefLost, 0, 0, 0), (.clkRefBad, 0, 0, 0), (.pllQuietWin, 3, 1,
     0)] []), by decide +kernel⟩,
   ⟨1, 500, false, (at0 [(.pllState, 2, 1, 0), (.clkRefLost, 0, 0, 0), (.clkRefBad, 0, 0, 0), (.clkAutoRelock, 31, 0, 0),
     (.pllReqPend, 0, 1, 0), (.hltAction, 1, 0, 11)] []), by decide +kernel⟩,
   ⟨1, true, (at0 [(.pllState, 2, 1, 0), (.clkRefLost, 0, 0, 0), (.clkRefBad, 0, 0, 0), (.clkAutoRelock, 0, 0, 0),
     (.hltAction, 1, 0, 11)] []), by decide +kernel⟩,
   ⟨1, 20, true, false, (at0 [(.pllState, 1, 1, 0), (.clkRefLost, 0, 0, 0), (.clkRefBad, 0, 0, 0), (.pllQuietWin, 3, 1,
     0)] []), by decide +kernel⟩,
   ⟨0, (at0 [] []), by unfold State.reaches; decide +kernel⟩,
   ⟨4, 2, (at0 [(.pllCalRun, 0, 2, 0), (.pllState, 2, 2, 0), (.pwrWarn, 0, 0, 0)] []),
     by unfold State.reaches; decide +kernel⟩,
   ⟨4, 2, (at0 [(.pllCalRun, 0, 2, 0), (.pllState, 2, 2, 0), (.pwrWarn, 1, 0, 0)] []),
     by unfold State.reaches; unfold State.Inv State.shaped; decide +kernel⟩,
   ⟨4, 2, (at0 [(.pllCalRun, 1, 2, 0), (.pllState, 2, 2, 0), (.pwrWarn, 1, 0, 0)] []),
     by unfold State.reaches; decide +kernel⟩,
   ⟨2, (at0 [(.pllReqPend, 0, 2, 0)] []), by decide +kernel⟩,
   ⟨2, (at0 [(.pllReqPend, 1, 2, 0), (.pllCalRun, 0, 2, 0), (.clkRefLost, 0, 0, 0), (.clkRefBad, 0, 0, 0)] []),
     by decide +kernel⟩,
   ⟨2, (at0 [(.pllCalRun, 0, 2, 0)] []), by decide +kernel⟩,
   ⟨2, (at0 [(.pllLock, 1, 2, 0), (.pllCalRun, 1, 2, 0), (.pllState, 1, 2, 0), (.clkRefLost, 0, 0, 0), (.clkRefBad, 0, 0,
     0), (.pwrWarn, 0, 0, 0)] []), by decide +kernel⟩,
   ⟨2, (at0 [(.pllLock, 0, 2, 0), (.pllCalRun, 1, 2, 0), (.pllState, 1, 2, 0), (.clkRefLost, 0, 0, 0), (.clkRefBad, 0, 0,
     0)] []), by decide +kernel⟩,
   ⟨2, 9, (at0 [(.pllLock, 1, 2, 0), (.pllBand, 8, 2, 0), (.pllCalRun, 1, 2, 0), (.pllState, 1, 2, 0), (.clkRefLost, 0,
     0, 0), (.clkRefBad, 0, 0, 0), (.pwrWarn, 1, 0, 0)] []), by decide +kernel⟩,
   ⟨2, (at0 [(.pllState, 4, 2, 0), (.clkRefLost, 0, 0, 0), (.clkRefBad, 0, 0, 0)] []), by decide +kernel⟩,
   ⟨2, (at0 [(.pllState, 2, 2, 0)] []), by decide +kernel⟩,
   ⟨(at0 [(.clkRefLost, 1, 0, 0)] []), by decide +kernel⟩,
   ⟨(at0 [(.clkRefLost, 0, 0, 0), (.clkRefBad, 0, 0, 0), (.pllState, 4, 3, 0)] []), by decide +kernel⟩,
   ⟨2688, by decide +kernel⟩,
   ⟨2689, (at0 [(.clkRefLost, 0, 0, 0), (.clkRefBad, 0, 0, 0)] []), by decide +kernel⟩,
   ⟨(at0 [(.clkRefLost, 0, 0, 0), (.clkRefBad, 0, 0, 0)] []), by decide +kernel⟩,
   ⟨2, (at0 [(.clkRefLost, 1, 0, 0), (.clkCountOk, 1, 0, 0), (.clkOutage, 1, 0, 0), (.pllState, 3, 2, 0), (.pllDeclared,
     0, 2, 0), (.pllBandHeld, 0, 2, 0), (.clkRefHoldUs, 20, 0, 0)] []), by decide +kernel⟩,
   ⟨(at0 [(.clkRefLost, 1, 0, 0)] []), by decide +kernel⟩,
   ⟨2, (at0 [(.clkRefLost, 0, 0, 0), (.clkRefBad, 0, 0, 0), (.clkRefBack, 1, 0, 0), (.pllState, 3, 2, 0), (.pllDeclared,
     1, 2, 0)] []), by decide +kernel⟩,
   ⟨(at0 [(.clkOutage, 0, 0, 0)] []), by decide +kernel⟩,
   ⟨(at0 [(.clkOutage, 1, 0, 0), (.clkRefLost, 1, 0, 0)] []), by decide +kernel⟩,
   ⟨2, (at0 [(.clkOutage, 1, 0, 0), (.clkRefLost, 1, 0, 0), (.pllState, 3, 2, 0), (.hltAction, 1, 0, 11)] []),
     by decide +kernel⟩⟩

/-- The hypotheses of every clause of `OpticsTriggerAndEnvelope` can be met. -/
theorem witness_OpticsTriggerAndEnvelope :
  (∃ s : State, s.on .optGlbPuDone = false) ∧
  (∃ n : Lane, ∃ s : State, s.on .optGlbPuDone = true ∧ s.on .pwrDomMgmt = true ∧ s.underTest 4 n = false ∧ s.rd
    .pwrDevState ≠ 2 ∧ s.on .optLnClamp n = true) ∧
  (∃ n : Lane, ∃ s : State, s.on .optGlbPuDone = true ∧ s.on .pwrDomMgmt = true ∧ s.underTest 4 n = false ∧ s.rd
    .pwrDevState ≠ 2 ∧ s.on .optLnClamp n = false ∧ s.on .ltxLsrEn n = true) ∧
  (∃ n : Lane, ∃ openLoop : Bool, ∃ s : State, (s.on .optLnClamp n = true ∨ s.on .optGlbPuDone = false ∨ s.rd
    .optOutCode n 0 < (if openLoop = true then 64 else 1))) ∧
  (∃ n : Lane, ∃ openLoop : Bool, ∃ s : State, s.on .optLnClamp n = false ∧ s.on .optGlbPuDone = true ∧ openLoop =
    true ∧ 64 ≤ s.rd .optOutCode n 0 ∧ s.rd .hltAction 0 13 ≤ 1) ∧
  (∃ n : Lane, ∃ openLoop : Bool, ∃ s : State, s.on .optLnClamp n = false ∧ s.on .optGlbPuDone = true ∧ openLoop =
    false ∧ 1 ≤ s.rd .optOutCode n 0 ∧ s.rd .hltAction 0 12 ≤ 1) ∧
  (∃ n : Lane, ∃ c : EnvCondition, ∃ s : State, c = .mask ∧ (s.pinsGranted n = false ∨ s.maskBit .optGlbLaneMask n =
    true)) ∧
  (∃ n : Lane, ∃ c : EnvCondition, ∃ d : Nat, ∃ s : State, c = .overCurrent d ∧ 11 * s.rd .optLnMaxBias n + 80 < d ∧
    s.on .optLnClamp n = false ∧ s.rd .hltAction 0 8 ≤ 1) ∧
  (∃ n : Lane, ∃ c : EnvCondition, ∃ d : Nat, ∃ s : State, c = .overCurrent d ∧ (d ≤ 11 * s.rd .optLnMaxBias n + 80 ∨
    s.on .optLnClamp n = true)) ∧
  (∃ n : Lane, ∃ c : EnvCondition, ∃ a : BitVec 12, ∃ b : BitVec 12, ∃ s : State, c = .monOver a b ∧ (s.pinsGranted n
    = false ∨ s.rd .optLnMonCh n = 31 ∨ a.toNat ≤ s.rd .optLnMonMax n ∨ b.toNat ≤ s.rd .optLnMonMax n)) ∧
  (∃ n : Lane, ∃ c : EnvCondition, ∃ a : BitVec 12, ∃ b : BitVec 12, ∃ s : State, c = .monOver a b ∧ s.pinsGranted n =
    true ∧ s.rd .optLnMonCh n ≠ 31 ∧ s.rd .optLnMonMax n < a.toNat ∧ s.rd .optLnMonMax n < b.toNat ∧ s.rd .hltAction 0
    8 ≤ 1) ∧
  (∃ n : Lane, ∃ s : State, (s.on .optProbeRun n = false ∨ s.rd .ltxState n = 4)) ∧
  (∃ n : Lane, ∃ s : State, s.on .optProbeRun n = true ∧ s.rd .ltxState n ≠ 4 ∧ s.rd .hltAction 0 8 ≤ 1) ∧
  (∃ n : Lane, ∃ s : State, s.on .optLnOffTime n = true) ∧
  (∃ n : Lane, ∃ s : State, s.on .optLnOffTime n = false) ∧
  (∃ s : State, s.reaches .optGlb 0 ∧ s.rd .secLcState ≠ 1) ∧
  (∃ s : State, s.reaches .optGlb 0 ∧ s.rd .secLcState = 1) :=
  ⟨⟨(at0 [(.optGlbPuDone, 0, 0, 0)] []), by decide +kernel⟩,
   ⟨3, (at0 [(.optGlbPuDone, 1, 0, 0), (.optLnClamp, 1, 3, 0), (.optOutCode, 77, 3, 0), (.pwrDevState, 0, 0, 0)] []),
     by decide +kernel⟩,
   ⟨3, (at0 [(.optGlbPuDone, 1, 0, 0), (.optLnClamp, 0, 3, 0), (.optOutBase, 4000, 3, 0), (.ltxLsrEn, 1, 3, 0),
     (.optLnMaxBias, 100, 3, 0), (.pwrDevState, 0, 0, 0)] []), by decide +kernel⟩,
   ⟨3, true, (at0 [(.optLnClamp, 1, 3, 0)] []), by decide +kernel⟩,
   ⟨3, true, (at0 [(.optOutCode, 64, 3, 0), (.optLnClamp, 0, 3, 0), (.optGlbPuDone, 1, 0, 0), (.hltAction, 1, 0, 13)]
     []), by decide +kernel⟩,
   ⟨3, false, (at0 [(.optOutCode, 1, 3, 0), (.optLnClamp, 0, 3, 0), (.optGlbPuDone, 1, 0, 0), (.hltAction, 1, 0, 12)]
     []), by decide +kernel⟩,
   ⟨3, .mask, (at0 [(.optGlbLaneMask, 255, 0, 0)] []), by decide +kernel⟩,
   ⟨3, .overCurrent 1181, 1181, (at0 [(.optLnMaxBias, 100, 3, 0), (.optLnClamp, 0, 3, 0), (.ltxLsrEn, 1, 3, 0),
     (.ltxDrvEn, 1, 3, 0), (.ltxState, 4, 3, 0), (.hltAction, 1, 0, 8)] []), by decide +kernel⟩,
   ⟨3, .overCurrent 1180, 1180, (at0 [(.optLnMaxBias, 100, 3, 0)] []), by decide +kernel⟩,
   ⟨3, .monOver 4095 4095, 4095, 4095, (at0 [(.optLnMonMax, 4095, 3, 0)] []), by decide +kernel⟩,
   ⟨3, .monOver 4095 4001, 4095, 4001, (at0 [(.optLnMonMax, 4000, 3, 0), (.optLnMonCh, 2, 3, 0), (.ltxLsrEn, 1, 3, 0),
     (.ltxDrvEn, 1, 3, 0), (.ltxState, 4, 3, 0), (.hltAction, 1, 0, 8)] []), by decide +kernel⟩,
   ⟨3, (at0 [(.ltxState, 4, 3, 0)] []), by decide +kernel⟩,
   ⟨3, (at0 [(.ltxState, 3, 3, 0), (.optProbeRun, 1, 3, 0), (.hltAction, 1, 0, 8), (.ltxLsrEn, 1, 3, 0)] []),
     by decide +kernel⟩,
   ⟨3, (at0 [(.optLnOffTime, 1, 3, 0), (.optLnOffRemainMs, 9, 3, 0)] []), by decide +kernel⟩,
   ⟨3, (at0 [(.optLnOffTime, 0, 3, 0)] []), by decide +kernel⟩,
   ⟨(at0 [(.secLcState, 2, 0, 0)] []), by unfold State.reaches; decide +kernel⟩,
   ⟨(at0 [(.secLcState, 1, 0, 0), (.pwrWarn, 1, 0, 0)] []), by unfold State.reaches; decide +kernel⟩⟩

/-- The hypotheses of every clause of `MonitorChainAndPeripheralBus` can be met. -/
theorem witness_MonitorChainAndPeripheralBus :
  (∃ c : Fin 24, ∃ s : State, s.maskBit .monEn c = false) ∧
  (∃ c : Fin 24, ∃ s : State, s.maskBit .monEn c = true ∧ s.on .pwrDomMgmt = true ∧ s.on .monChXfade c = false ∧ s.on
    .monChSwap c = false) ∧
  (∃ c : Fin 24, ∃ s : State, s.reaches .monCh c) ∧
  (∃ s : State, s.reaches .optGlb 0 ∧ s.on .pbGo = true) ∧
  (∃ s : State, s.reaches .optGlb 0 ∧ s.on .pbGo = false ∧ s.pb = [] ∧ s.pbForbidden s.pbCommand = true) ∧
  (∃ s : State, s.reaches .optGlb 0 ∧ s.on .pbGo = false ∧ s.pb = [] ∧ s.pbForbidden s.pbCommand = false) ∧
  (∃ s : State, s.reaches .optGlb 0 ∧ s.on .pbGo = false ∧ s.pb ≠ []) ∧
  (∃ s : State, s.on .pwrDomMgmt = true ∧ s.pb ≠ []) ∧
  (∃ s : State, s.pb = []) ∧
  (∃ nack : Bool, ∃ j : PbJob, ∃ fw : Bool, ∃ s : State, s.pb = [(j, fw)] ∧ nack = true) ∧
  (∃ nack : Bool, ∃ j : PbJob, ∃ fw : Bool, ∃ s : State, s.pb = [(j, fw)] ∧ nack = false ∧ fw = false ∧ j.read = true) ∧
  (∃ j : PbJob, ∃ fw : Bool, ∃ k : PbJob × Bool, ∃ q : List (PbJob × Bool), ∃ s : State, s.pb = (j, fw) :: k :: q ∧
    s.pbForbidden k.1 = false) ∧
  (∃ j : PbJob, ∃ fw : Bool, ∃ s : State, s.pb = [(j, fw)]) ∧
  (∃ s : State, s.pb = []) :=
  ⟨⟨5, (at0 [(.monEn, 0, 0, 0)] []), by decide +kernel⟩,
   ⟨5, (at0 [(.monEn, 16777215, 0, 0), (.monChXfade, 0, 5, 0), (.monChSwap, 0, 5, 0), (.monChSeq, 65535, 5, 0)] []),
     by decide +kernel⟩,
   ⟨5, (at0 [] []), by unfold State.reaches; decide +kernel⟩,
   ⟨(at0 [(.pbGo, 1, 0, 0)] []), by unfold State.reaches; decide +kernel⟩,
   ⟨(at0 [(.pbGo, 0, 0, 0), (.pbRead, 0, 0, 0), (.pbProtValid, 1, 0, 2), (.pbProtAddr, 5, 0, 2), (.pbAddr, 5, 0, 0),
     (.pbProtReg, 9, 0, 2), (.pbReg, 9, 0, 0), (.pbProtMax, 3, 0, 2), (.pbData, 4, 0, 0)] []),
     by unfold State.reaches; decide +kernel⟩,
   ⟨(at0 [(.pbGo, 0, 0, 0), (.pbData, 77, 0, 0), (.pbProtValid, 0, 0, 0)] []), by unfold State.reaches; decide +kernel⟩,
   ⟨((fun s : State => { s with pb := [(⟨3, 4, 1, true, 9⟩, true)] }) (at0 [(.pbGo, 0, 0, 0)] [])),
     by unfold State.reaches; decide +kernel⟩,
   ⟨((fun s : State => { s with pb := [(⟨3, 4, 1, true, 9⟩, false)] }) (at0 [(.pbGo, 0, 0, 0)] [])), by decide +kernel⟩,
   ⟨(at0 [] []), by decide +kernel⟩,
   ⟨true, ⟨3, 4, 1, true, 9⟩, false, ((fun s : State => { s with pb := [(⟨3, 4, 1, true, 9⟩, false)] }) (at0 [] [])),
     by decide +kernel⟩,
   ⟨false, ⟨3, 4, 1, true, 9⟩, false, ((fun s : State => { s with pb := [(⟨3, 4, 1, true, 9⟩, false)] }) (at0 [] [])),
     by decide +kernel⟩,
   ⟨⟨3, 4, 1, true, 9⟩, true, (⟨5, 4, 1, false, 9⟩, false), [], ((fun s : State =>
     { s with pb := [(⟨3, 4, 1, true, 9⟩, true), (⟨5, 4, 1, false, 9⟩, false)] }) (at0 [] [])), by decide +kernel⟩,
   ⟨⟨3, 4, 1, true, 9⟩, false, ((fun s : State => { s with pb := [(⟨3, 4, 1, true, 9⟩, false)] }) (at0 [] [])),
     by decide +kernel⟩,
   ⟨(at0 [] []), by decide +kernel⟩⟩

/-- The hypotheses of every clause of `SleepRequestsAndVotes` can be met. -/
theorem witness_SleepRequestsAndVotes :
  (∃ n : Lane, ∃ egress : Bool, ∃ s : State, s.reaches .pwrLn n ∧ s.underTest 1 n = false ∧ s.underTest 4 n = false ∧
    egress = false ∧ s.warning = true) ∧
  (∃ n : Lane, ∃ egress : Bool, ∃ s : State, s.reaches .pwrLn n ∧ s.underTest 1 n = false ∧ s.underTest 4 n = false ∧
    egress = true ∧ s.warning = false ∧ s.rd .pwrDevState = 0 ∧ s.sleepPlan n true ≠ [] ∧ s.rd .pwrLnEgrPhase n = 0 ∧
    s.on .pwrLnEgrSleep n = false) ∧
  (∃ n : Lane, ∃ egress : Bool, ∃ s : State, s.reaches .pwrLn n ∧ egress = true) ∧
  (∃ n : Lane, ∃ egress : Bool, ∃ s : State, s.reaches .pwrLn n ∧ egress = false) ∧
  (∃ n : Lane, ∃ egress : Bool, ∃ s : State, s.reaches .pwrLn n ∧ egress = false) ∧
  (∃ n : Lane, ∃ e : Bool, ∃ obj : VoteObject, ∃ s : State, obj = .lane n e ∧ s.requested obj = false ∧ s.phaseOf obj
    = 1) ∧
  (∃ n : Lane, ∃ e : Bool, ∃ obj : VoteObject, ∃ s : State, obj = .lane n e ∧ s.requested obj = true ∧ s.phaseOf obj =
    1 ∧ (s.planOf obj).all (fun st => !s.voterTested st.voter && (s.refusal st.voter).isNone) = true) ∧
  (∃ n : Lane, ∃ obj : VoteObject, ∃ s : State, obj = .lane n true ∧ s.requested obj = true ∧ s.phaseOf obj = 1 ∧
    s.tests = [] ∧ s.sleepPlan n true ≠ [] ∧ s.sleepPlan n true = [⟨⟨3, n⟩, true, 2⟩, ⟨⟨2, n⟩, true, 0⟩] ∧ s.on
    .ltxWakeRun n = false ∧ s.rd .ltxState n = 4 ∧ s.on .ltxWakeSend n = false ∧ s.on .ltxCommit n = true) ∧
  (∃ n : Lane, ∃ e : Bool, ∃ obj : VoteObject, ∃ s : State, obj = .lane n e ∧ s.phaseOf obj = 1) ∧
  (∃ obj : VoteObject, ∃ s : State, s.phaseOf obj ≠ 1) ∧
  (∃ obj : VoteObject, ∃ s : State, s.votes.all (fun v => v.obj != voteObj obj) = true) ∧
  (∃ n : Lane, ∃ obj : VoteObject, ∃ s : State, obj = .lane n true ∧ s.votes = [⟨n, true, 2, [⟨⟨3, n⟩, true, 2⟩], []⟩]
    ∧ s.rd .ltxState n = 4 ∧ s.on .ltxWakeSend n = false ∧ s.on .ltxWakeRun n = false ∧ s.on .ltxCommit n = false) ∧
  (∃ obj : VoteObject, ∃ s : State, s.votes.all (fun v => v.obj != voteObj obj) = true) ∧
  (∃ n : Lane, ∃ obj : VoteObject, ∃ s : State, obj = .lane n true ∧ s.votes = [⟨n, true, 2, [⟨⟨2, n⟩, true, 0⟩],
    [⟨⟨3, n⟩, true, 2⟩]⟩] ∧ s.on .ltxSleep n = true) ∧
  (∃ n : Lane, ∃ obj : VoteObject, ∃ s : State, obj = .lane n true ∧ s.on .pwrEgrRetryArm n = true ∧ s.requested obj =
    true ∧ s.rd .pwrRetryMax ≤ s.rd .pwrLnEgrRetry n) ∧
  (∃ n : Lane, ∃ obj : VoteObject, ∃ s : State, obj = .lane n true ∧ s.on .pwrEgrRetryArm n = false) ∧
  (∃ n : Lane, ∃ s : State, s.on .pwrLnIngSleep n = true ∧ 3 ≤ s.rd .pwrLnIngBudgetUs n ∧ s.on .lrxSleep n = false ∧
    s.on .pwrLnTrim n = false ∧ s.maskBit .pwrDomDecode n = true ∧ s.warning = false) ∧
  (∃ n : Lane, ∃ s : State, (s.on .pwrLnIngSleep n = false ∨ s.rd .pwrLnIngBudgetUs n < 3 ∨ s.warning = true)) :=
  ⟨⟨3, false, (at0 [(.pwrWarn, 1, 0, 0), (.pwrLnIngGiveup, 1, 3, 0)] []), by unfold State.reaches; decide +kernel⟩,
   ⟨3, true, (at0 [(.pwrLnEgrSleep, 0, 3, 0), (.pwrDevState, 0, 0, 0), (.pwrLnEgrPhase, 0, 3, 0), (.ltxState, 4, 3, 0),
     (.ltxWakeSend, 0, 3, 0), (.pwrLnEgrBudgetUs, 5, 3, 0), (.ltxSleep, 0, 3, 0), (.pwrWarn, 0, 0, 0)] []),
     by unfold State.reaches; decide +kernel⟩,
   ⟨3, true, ((fun s : State => { s with votes := [⟨3, true, 2, [], []⟩] }) (at0 [(.ltxSleep, 1, 3, 0), (.pwrLnEgrSleep,
     1, 3, 0)] [])), by unfold State.reaches; decide +kernel⟩,
   ⟨3, false, (at0 [(.lrxSleep, 1, 3, 0), (.pwrLnIngSleep, 1, 3, 0), (.pwrLnTrim, 1, 3, 0)] []),
     by unfold State.reaches; decide +kernel⟩,
   ⟨3, false, (at0 [(.pwrLnIngGiveup, 1, 3, 0), (.pwrLnIngRetry, 2, 3, 0)] []), by unfold State.reaches; decide +kernel⟩,
   ⟨3, false, .lane 3 false, (at0 [(.pwrLnIngSleep, 0, 3, 0), (.pwrLnIngPhase, 1, 3, 0)] []), by decide +kernel⟩,
   ⟨3, true, .lane 3 true, (at0 [(.pwrLnEgrSleep, 1, 3, 0), (.pwrLnEgrPhase, 1, 3, 0), (.ltxState, 4, 3, 0),
     (.ltxWakeSend, 0, 3, 0), (.ltxCommit, 0, 3, 0), (.ltxWakeRun, 0, 3, 0), (.lfrNegState, 3, 3, 0), (.lrxState, 5,
     3, 0), (.lfrProfStatus, 0, 3, 0), (.hifGlbMapHostA, 6, 0, 3), (.pwrLnEgrBudgetUs, 5, 3, 0)] []),
     by decide +kernel⟩,
   ⟨3, .lane 3 true, (at0 [(.pwrLnEgrSleep, 1, 3, 0), (.pwrLnEgrPhase, 1, 3, 0), (.ltxState, 4, 3, 0), (.ltxWakeSend, 0,
     3, 0), (.ltxWakeRun, 0, 3, 0), (.ltxCommit, 1, 3, 0), (.hifGlbMapHostA, 6, 0, 3), (.hifState, 0, 6, 0),
     (.pwrLnEgrBudgetUs, 5, 3, 0), (.ltxSleep, 0, 3, 0)] []), by decide +kernel⟩,
   ⟨3, true, .lane 3 true, (at0 [(.pwrLnEgrPhase, 1, 3, 0)] []), by decide +kernel⟩,
   ⟨.lane 3 true, (at0 [(.pwrLnEgrPhase, 2, 3, 0)] []), by decide +kernel⟩,
   ⟨.lane 3 true, (at0 [] []), by decide +kernel⟩,
   ⟨3, .lane 3 true, ((fun s : State => { s with votes := [⟨3, true, 2, [⟨⟨3, 3⟩, true, 2⟩], []⟩] }) (at0 [(.ltxState, 4,
     3, 0), (.ltxWakeSend, 0, 3, 0), (.ltxWakeRun, 0, 3, 0), (.ltxCommit, 0, 3, 0)] [])), by decide +kernel⟩,
   ⟨.lane 3 true, (at0 [] []), by decide +kernel⟩,
   ⟨3, .lane 3 true, ((fun s : State => { s with votes := [⟨3, true, 2, [⟨⟨2, 3⟩, true, 0⟩], [⟨⟨3, 3⟩, true, 2⟩]⟩] })
     (at0 [(.ltxSleep, 1, 3, 0)] [])), by decide +kernel⟩,
   ⟨3, .lane 3 true, (at0 [(.pwrEgrRetryArm, 1, 3, 0), (.pwrLnEgrSleep, 1, 3, 0), (.pwrRetryMax, 3, 0, 0),
     (.pwrLnEgrRetry, 3, 3, 0)] []), by decide +kernel⟩,
   ⟨3, .lane 3 true, (at0 [(.pwrEgrRetryArm, 0, 3, 0)] []), by decide +kernel⟩,
   ⟨3, (at0 [(.pwrLnIngSleep, 1, 3, 0), (.pwrLnIngBudgetUs, 3, 3, 0), (.lrxSleep, 0, 3, 0), (.pwrLnTrim, 0, 3, 0),
     (.pwrWarn, 0, 0, 0)] []), by decide +kernel⟩,
   ⟨3, (at0 [(.pwrLnIngSleep, 1, 3, 0), (.pwrLnIngBudgetUs, 2, 3, 0)] []), by decide +kernel⟩⟩

/-- The hypotheses of every clause of `StandbyAndDeep` can be met. -/
theorem witness_StandbyAndDeep :
  (∃ s : State, s.on .pwrLpmodeEn = false) ∧
  (∃ s : State, s.on .pwrLpmodeEn = true ∧ s.rd .pwrDevState = 0 ∧ s.warning = false ∧ s.rd .pwrDevTarget = 0 ∧ s.on
    .pwrDevPhase = false) ∧
  (∃ s : State, s.rd .pwrDevState = 2 ∧ s.on .thmCritLatch = false ∧ s.on .pwrStandbySw = false) ∧
  (∃ s : State, s.rd .pwrDevState = 2 ∧ s.on .thmCritLatch = true) ∧
  (∃ s : State, s.rd .pwrDevState = 0 ∧ s.on .pwrStandbySw = false ∧ s.rd .pwrDevTarget ≠ 7) ∧
  (∃ s : State, s.reaches .pwr 0 ∧ s.rd .pwrDevState = 0 ∧ s.warning = false ∧ s.rd .pwrDevTarget = 0 ∧ s.on
    .pwrDevPhase = false) ∧
  (∃ s : State, s.reaches .pwr 0 ∧ s.deepRuns = false ∧ s.deepBlocked = true) ∧
  (∃ s : State, s.reaches .pwr 0 ∧ s.deepRuns = false ∧ s.deepBlocked = false ∧ (s.rd .pwrDevState = 0 ∨ s.rd
    .pwrDevState = 2) ∧ s.on .pwrDevPhase = false ∧ s.warning = false) ∧
  (∃ src : Fin 8, ∃ s : State, s.rd .pwrDevState = 5 ∧ (src.val = 3 ∨ src.val = 4 ∨ src.val = 5 ∨ src.val = 6) ∧
    s.maskBit .pwrWakeEn (src.val - 1) = true) ∧
  (∃ src : Fin 8, ∃ s : State, (s.rd .pwrDevState ≠ 5 ∨ src.val < 3 ∨ src.val = 7 ∨ s.maskBit .pwrWakeEn (src.val - 1)
    = false)) ∧
  (∃ s : State, s.on .pwrWakeTimerMs = true ∧ s.maskBit .pwrWakeEn 4 = true ∧ s.rd .pwrDevState = 2 ∧ s.standbyHeld =
    false) ∧
  (∃ s : State, (s.on .pwrWakeTimerMs = false ∨ (s.rd .pwrDevState = 0 ∧ s.on .pwrDevPhase = false))) ∧
  (∃ s : State, (s.rd .pwrDevState ≠ 3 ∨ s.on .clkRefOk = false)) ∧
  (∃ s : State, s.rd .pwrDevState = 3 ∧ s.on .clkRefOk = true ∧ s.refOut = false ∧ s.rd .glbBootStage = 7 ∧ s.tests =
    [] ∧ (∀ n ∈ List.range 8, s.on .lrxEnable n = false) ∧ (∀ h ∈ List.range 16, s.on .hifEnable h = false) ∧ s.rd
    .pwrStagIdx = 0) :=
  ⟨⟨(at0 [(.pwrLpmodeEn, 0, 0, 0)] []), by decide +kernel⟩,
   ⟨(at0 [(.pwrLpmodeEn, 1, 0, 0), (.pwrDevState, 0, 0, 0), (.pwrWarn, 0, 0, 0)] []), by decide +kernel⟩,
   ⟨(at0 [(.pwrDevState, 2, 0, 0), (.thmCritLatch, 0, 0, 0), (.pwrStandbySw, 0, 0, 0), (.pwrLpmode, 1, 0, 0)] []),
     by decide +kernel⟩,
   ⟨(at0 [(.pwrDevState, 2, 0, 0), (.thmCritLatch, 1, 0, 0), (.pwrLpmode, 1, 0, 0)] []), by decide +kernel⟩,
   ⟨((fun s : State => { s with votes := [⟨8, false, 6, [], []⟩] }) (at0 [(.pwrDevState, 0, 0, 0), (.pwrStandbySw, 0, 0,
     0), (.pwrLpmode, 1, 0, 0), (.pwrDevPhase, 2, 0, 0), (.pwrDevTarget, 6, 0, 0)] [])), by decide +kernel⟩,
   ⟨(at0 [(.pwrDevState, 0, 0, 0), (.pwrWarn, 0, 0, 0)] []), by unfold State.reaches; decide +kernel⟩,
   ⟨(at0 [(.imgState, 3, 0, 0)] []), by unfold State.reaches; decide +kernel⟩,
   ⟨(at0 [(.imgState, 2, 0, 0), (.optSaveBusy, 0, 0, 0), (.secNvmBusy, 0, 0, 0), (.pwrDevState, 2, 0, 0), (.pwrWarn, 0,
     0, 0)] []), by unfold State.reaches; decide +kernel⟩,
   ⟨5, (at0 [(.pwrDevState, 5, 0, 0), (.pwrWakeEn, 255, 0, 0)] []), by decide +kernel⟩,
   ⟨1, (at0 [(.pwrDevState, 5, 0, 0), (.pwrWakeEn, 255, 0, 0)] []), by decide +kernel⟩,
   ⟨(at0 [(.pwrWakeTimerMs, 100, 0, 0), (.pwrWakeEn, 255, 0, 0), (.pwrDevState, 2, 0, 0), (.pwrLpmode, 0, 0, 0),
     (.thmCritLatch, 0, 0, 0)] []), by decide +kernel⟩,
   ⟨(at0 [(.pwrWakeTimerMs, 0, 0, 0)] []), by decide +kernel⟩,
   ⟨(at0 [(.pwrDevState, 2, 0, 0)] []), by decide +kernel⟩,
   ⟨(at0 [(.pwrDevState, 3, 0, 0), (.clkRefOk, 1, 0, 0), (.clkRefLost, 0, 0, 0), (.clkRefBad, 0, 0, 0), (.glbBootStage,
     7, 0, 0), (.pwrStagIdx, 0, 0, 0), (.pwrDomLane, 0, 0, 0)] []), by decide +kernel⟩⟩

/-- The hypotheses of every clause of `OperatingPoints` can be met. -/
theorem witness_OperatingPoints :
  (∃ s : State, s.reaches .pwr 0 ∧ s.on .pwrDvfsMode = false) ∧
  (∃ req : BitVec 16, ∃ s : State, s.reaches .pwr 0 ∧ s.on .pwrDvfsMode = true ∧ (List.range 8).all (fun k => decide
    (pointMv (pointOf req.toNat k) ≤ s.rd .pwrVoutActMv)) = false) ∧
  (∃ w : DvfsWrite, ∃ mv : Nat, ∃ s : State, s.reaches .pwr 0 ∧ w = .vout mv ∧ s.on .pwrDvfsMode = false ∧ 650 ≤ mv ∧
    mv ≤ 800) ∧
  (∃ w : DvfsWrite, ∃ mv : Nat, ∃ s : State, s.Inv ∧ s.reaches .pwr 0 ∧ w = .vout mv ∧ s.on .pwrDvfsMode = true ∧ 650
    ≤ mv ∧ mv ≤ 800 ∧ (List.range 8).all (fun k => decide (pointMv (pointOf (s.rd .pwrDvfsPoint) k) ≤ mv)) = true ∧
    (s.warning = false ∨ s.rd .pwrVoutActMv ≤ mv)) ∧
  (∃ s : State, (s.rd .pwrDvfsPhase = 1 ∨ s.rd .pwrDvfsPhase = 3) ∧ s.rd .pwrVoutTarget < 1024 ∧ s.wantMv ≤ s.rd
    .pwrVoutTarget) ∧
  (∃ s : State, (s.rd .pwrDvfsPhase = 0 ∨ s.rd .pwrDvfsPhase = 2)) ∧
  (∃ s : State, s.rd .pwrDvfsPhase = 2 ∧ s.warning = true) ∧
  (∃ s : State, s.rd .pwrDvfsPhase ≠ 2) ∧
  (∃ s : State, s.Inv ∧ (s.rd .pwrDvfsPhase = 1 ∨ s.rd .pwrDvfsPhase = 3)) ∧
  (∃ s : State, (s.rd .pwrDvfsPhase = 0 ∨ s.rd .pwrDvfsPhase = 2)) ∧
  (∃ w : DvfsWrite, ∃ mv : Nat, ∃ s : State, s.Inv ∧ s.reaches .pwr 0 ∧ w = .vout mv ∧ s.on .pwrDvfsMode = true ∧ 650
    ≤ mv ∧ mv < s.rd .pwrVoutActMv ∧ s.warning = true ∧ mv ≤ 800 ∧ (List.range 8).all (fun k => decide (pointMv
    (pointOf (s.rd .pwrDvfsPoint) k) ≤ mv)) = true) :=
  ⟨⟨(at0 [(.pwrDvfsMode, 0, 0, 0), (.pwrDvfsErr, 2, 0, 0)] []), by unfold State.reaches; decide +kernel⟩,
   ⟨0, (at0 [(.pwrDvfsMode, 1, 0, 0), (.pwrVoutActMv, 700, 0, 0)] []), by unfold State.reaches; decide +kernel⟩,
   ⟨.vout 701, 701, (at0 [(.pwrDvfsMode, 0, 0, 0)] []), by unfold State.reaches; decide +kernel⟩,
   ⟨.vout 750, 750, (at0 [(.pwrDvfsMode, 1, 0, 0), (.pwrVoutActMv, 800, 0, 0), (.pwrDvfsPoint, 0x5555, 0, 0)] []),
     by unfold State.reaches; unfold State.Inv State.shaped; decide +kernel⟩,
   ⟨(at0 [(.pwrDvfsPhase, 1, 0, 0), (.pwrVoutTarget, 800, 0, 0), (.pwrVoutActMv, 700, 0, 0)] []), by decide +kernel⟩,
   ⟨(at0 [(.pwrDvfsPhase, 2, 0, 0)] []), by decide +kernel⟩,
   ⟨(at0 [(.pwrDvfsPhase, 2, 0, 0), (.pwrWarn, 1, 0, 0), (.pwrDvfsPoint, 0x4444, 0, 0), (.pwrDvfsTarget, 0x5551, 0, 0)]
     []), by decide +kernel⟩,
   ⟨(at0 [(.pwrDvfsPhase, 0, 0, 0)] []), by decide +kernel⟩,
   ⟨(at0 [(.pwrDvfsPhase, 1, 0, 0), (.pwrVoutPrev, 700, 0, 0), (.pwrVoutTarget, 800, 0, 0), (.pwrDvfsPoint, 0x5555, 0,
     0)] []), by unfold State.Inv State.shaped; decide +kernel⟩,
   ⟨(at0 [(.pwrDvfsPhase, 0, 0, 0)] []), by decide +kernel⟩,
   ⟨.vout 750, 750, (at0 [(.pwrDvfsMode, 1, 0, 0), (.pwrVoutActMv, 800, 0, 0), (.pwrDvfsPoint, 0x5555, 0, 0), (.pwrWarn,
     1, 0, 0)] []), by unfold State.reaches; unfold State.Inv State.shaped; decide +kernel⟩⟩

/-- The hypotheses of every clause of `ResetsAndDomains` can be met. -/
theorem witness_ResetsAndDomains :
  (∃ s : State, s.Inv) ∧
  (∃ s : State, s.on .glbResetLow = true) ∧
  (∃ s : State, s.on .glbResetLow = false) ∧
  (∃ rail : Fin 7, ∃ mv : BitVec 12, ∃ s : State, (s.monitored rail = false ∨ 88 * s.monitorMv rail ≤ 100 * mv.toNat)) ∧
  (∃ rail : Fin 7, ∃ mv : BitVec 12, ∃ s : State, rail = 5 ∧ 100 * mv.toNat < 88 * s.monitorMv rail) ∧
  (∃ rail : Fin 7, ∃ mv : BitVec 12, ∃ s : State, rail ≠ 5 ∧ s.monitored rail = true ∧ 100 * mv.toNat < 88 *
    s.monitorMv rail) ∧
  (∃ s : State, s.rd .pwrStagDir = 1 ∧ 1 ≤ s.rd .pwrStagIdx ∧ s.rd .pwrStagIdx ≤ 8) ∧
  (∃ s : State, s.rd .pwrStagDir = 2 ∧ s.rd .pwrStagIdx = 12 ∧ s.rd .ltxState 2 ≠ 0 ∧ s.rd .ltxState 2 ≠ 7) ∧
  (∃ s : State, s.rd .pwrStagDir = 2 ∧ s.rd .pwrStagIdx = 12 ∧ s.rd .ltxState 2 = 0) :=
  ⟨⟨((fun s : State => { s with evf := [1, 2] }) (at0 [(.lrxState, 5, 3, 0), (.pwrLpmode, 1, 0, 0)] [])),
     by unfold State.Inv State.shaped; decide +kernel⟩,
   ⟨(at0 [(.glbResetLow, 1, 0, 0)] []), by decide +kernel⟩,
   ⟨(at0 [(.glbResetLow, 0, 0, 0)] []), by decide +kernel⟩,
   ⟨5, 900, (at0 [] []), by decide +kernel⟩,
   ⟨5, 100, (at0 [(.lrxState, 5, 3, 0)] []), by decide +kernel⟩,
   ⟨2, 100, (at0 [(.lrxState, 5, 3, 0)] []), by decide +kernel⟩,
   ⟨(at0 [(.pwrStagDir, 1, 0, 0), (.pwrStagIdx, 3, 0, 0), (.pwrDomDecode, 3, 0, 0)] []), by decide +kernel⟩,
   ⟨(at0 [(.pwrStagDir, 2, 0, 0), (.pwrStagIdx, 12, 0, 0), (.ltxState, 5, 2, 0)] []), by decide +kernel⟩,
   ⟨(at0 [(.pwrStagDir, 2, 0, 0), (.pwrStagIdx, 12, 0, 0), (.ltxState, 0, 2, 0), (.lrxEnable, 1, 2, 0), (.lrxState, 0, 2,
     0)] []), by decide +kernel⟩⟩

/-- The hypotheses of every clause of `TemperaturesAndSensors` can be met. -/
theorem witness_TemperaturesAndSensors :
  (∃ s : State, s.on .pwrDomMgmt = false) ∧
  (∃ s : State, s.on .pwrDomMgmt = true) ∧
  (∃ s : State, s.on .pwrDomMgmt = true) ∧
  (∃ rails : List Int, ∃ ma : Int, ∃ s : State, s.on .pwrDomMgmt = true ∧ rails = [ma] ∧ 28000 < ma ∧ s.on
    .thmRailBroken 0 0 = false) ∧
  (∃ ds : List DiodeReading, ∃ d : DiodeReading, ∃ s : State, s.on .pwrDomMgmt = true ∧ ds = [d] ∧ s.on
    .thmDiodeBroken 0 0 = false ∧ s.on .thmDiodeSeen 0 0 = false ∧ 300 ≤ d.forwardMv ∧ d.forwardMv ≤ 900 ∧ d.temp <
    2048 ∧ -2048 ≤ d.temp) ∧
  (∃ ds : List DiodeReading, ∃ d : DiodeReading, ∃ s : State, s.on .pwrDomMgmt = true ∧ ds = [d] ∧ s.on
    .thmDiodeBroken 0 0 = false ∧ d.forwardMv < 300 ∧ s.on .thmDiodeBroken 0 1 = false) ∧
  (∃ temps : List Int, ∃ s : State, (s.rd .pwrDevState = 5 ∨ temps.all (fun x => decide (x < s.celsius .thmCritC)) =
    true)) ∧
  (∃ temps : List Int, ∃ x : Int, ∃ s : State, s.rd .pwrDevState = 2 ∧ temps = [x] ∧ s.celsius .thmCritC ≤ x ∧ s.on
    .thmCritLatch = false ∧ s.rd .imgState ≠ 4 ∧ s.rd .imgState ≠ 5 ∧ s.rd .hltAction 0 8 ≤ 1) ∧
  (∃ before : Int, ∃ after : Int, ∃ s : State, ((s.on .thmAonDir = true ∧ (s.celsius .thmAonWakeC ≤ after ∨ before <
    s.celsius .thmAonWakeC)) ∨ (s.on .thmAonDir = false ∧ (s.celsius .thmAonWakeC ≤ before ∨ after < s.celsius
    .thmAonWakeC)) ∨ s.maskBit .pwrWakeEn 5 = false)) ∧
  (∃ before : Int, ∃ after : Int, ∃ s : State, s.rd .pwrDevState = 5 ∧ s.on .thmAonDir = true ∧ after < s.celsius
    .thmAonWakeC ∧ s.celsius .thmAonWakeC ≤ before ∧ s.maskBit .pwrWakeEn 5 = true) :=
  ⟨⟨(at0 [(.pwrDomMgmt, 0, 0, 0)] []), by decide +kernel⟩,
   ⟨(at0 [(.thmNode0, 1048576, 0, 3)] []), by decide +kernel⟩,
   ⟨(at0 [(.thmNode0, 1048576, 0, 3)] []), by decide +kernel⟩,
   ⟨[28001], 28001, (at0 [(.thmRailBroken, 0, 0, 0)] []), by decide +kernel⟩,
   ⟨[⟨600, 500⟩], ⟨600, 500⟩, (at0 [(.thmDiodeBroken, 0, 0, 0), (.thmDiodeSeen, 0, 0, 0)] []), by decide +kernel⟩,
   ⟨[⟨100, 500⟩], ⟨100, 500⟩, (at0 [(.thmDiodeBroken, 0, 0, 0)] []), by decide +kernel⟩,
   ⟨[5, 6, 7, 8], (at0 [(.thmCritC, 110, 0, 0)] []), by decide +kernel⟩,
   ⟨[5000], 5000, (at0 [(.thmCritC, 110, 0, 0), (.pwrDevState, 2, 0, 0), (.ltxState, 1, 3, 0), (.imgState, 2, 0, 0),
     (.hltAction, 1, 0, 8), (.thmCritLatch, 0, 0, 0)] []), by decide +kernel⟩,
   ⟨0, 1600, (at0 [(.pwrDevState, 5, 0, 0), (.thmAonDir, 1, 0, 0), (.thmAonWakeC, 50, 0, 0), (.pwrWakeEn, 255, 0, 0)]
     []), by decide +kernel⟩,
   ⟨1600, 0, (at0 [(.thmAonWakeC, 50, 0, 0), (.pwrDevState, 5, 0, 0), (.thmAonDir, 1, 0, 0), (.pwrWakeEn, 255, 0, 0)]
     []), by decide +kernel⟩⟩

/-- The hypotheses of every clause of `ThrottleAndSupplyWarning` can be met. -/
theorem witness_ThrottleAndSupplyWarning :
  (∃ s : State, (s.rd .thmState ≠ 1 ∨ s.on .thmThrottleReq = false)) ∧
  (∃ s : State, s.rd .thmState = 1 ∧ s.on .thmThrottleReq = true ∧ s.rd .imgState ≠ 5 ∧ (∀ n ∈ List.range 8, s.on
    .thmLnShutdown 0 n = true)) ∧
  (∃ s : State, (s.rd .thmState ≠ 2 ∨ s.on .thmThrottleReq = false ∨ s.rdInt .thmHotT < s.celsius .thmThrC)) ∧
  (∃ s : State, s.rd .thmState = 1 ∧ s.on .thmThrottleReq = true ∧ s.rd .imgState ≠ 5 ∧ s.hotLanes.head? = some 0 ∧
    s.on .thmLnShutdown 0 0 = false ∧ s.rd .lfrGroupMode 0 = 2 ∧ s.rd .thmLnDvfsSteps 0 0 < 2) ∧
  (∃ s : State, s.rd .thmState = 2 ∧ s.on .thmThrottleReq = true ∧ s.celsius .thmThrC ≤ s.rdInt .thmHotT ∧ s.rd
    .imgState ≠ 5 ∧ s.hotLanes.head? = some 0 ∧ s.on .thmLnShutdown 0 0 = false ∧ s.rd .lfrGroupMode 0 = 2 ∧ s.rd
    .thmLnDvfsSteps 0 0 < 2) ∧
  (∃ s : State, s.rd .thmState = 2 ∧ s.on .thmThrottleReq = true ∧ s.celsius .thmThrC ≤ s.rdInt .thmHotT ∧ s.rd
    .imgState ≠ 5 ∧ s.hotLanes.head? = some 0 ∧ s.on .thmLnShutdown 0 0 = false ∧ s.rd .lfrGroupMode 0 = 2 ∧ s.rd
    .thmLnDvfsSteps 0 0 = 3) ∧
  (∃ s : State, (s.rd .thmState ≠ 3 ∨ s.on .thmAutoRestore = false ∨ s.mayUndo = false)) ∧
  (∃ n : Lane, ∃ old : Nat, ∃ s : State, s.rd .thmState = 3 ∧ s.on .thmAutoRestore = true ∧ s.mayUndo = true ∧
    s.thermal = [⟨.dvfs, n, old⟩] ∧ old < 4) ∧
  (∃ s : State, s.reaches .thm 0 ∧ s.mayUndo = false) ∧
  (∃ n : Lane, ∃ old : Nat, ∃ s : State, s.reaches .thm 0 ∧ s.mayUndo = true ∧ s.rd .thmState = 3 ∧ s.thermal =
    [⟨.dvfs, n, 1⟩, ⟨.dvfs, n, old⟩] ∧ old < 4) ∧
  (∃ s : State, s.reaches .thm 0 ∧ (s.on .thmCritLatch = false ∨ s.cool = false)) ∧
  (∃ s : State, s.reaches .thm 0 ∧ s.on .thmCritLatch = true ∧ s.cool = true) ∧
  (∃ s : State, (s.on .thmCritLatch = false ∨ s.on .thmCritAuto = false ∨ s.cool = false)) ∧
  (∃ s : State, s.on .thmCritLatch = true ∧ s.on .thmCritAuto = true ∧ s.cool = true) ∧
  (∃ rail : Fin 7, ∃ mv : BitVec 12, ∃ s : State, (s.monitored rail = false ∨ 94 * s.monitorMv rail ≤ 100 * mv.toNat)) ∧
  (∃ rail : Fin 7, ∃ mv : BitVec 12, ∃ s : State, s.monitored rail = true ∧ 100 * mv.toNat < 94 * s.monitorMv rail ∧
    s.warning = true) ∧
  (∃ rail : Fin 7, ∃ mv : BitVec 12, ∃ s : State, s.monitored rail = true ∧ 100 * mv.toNat < 94 * s.monitorMv rail ∧
    s.warning = false ∧ s.rd .hltAction 0 15 ≤ 1) ∧
  (∃ rail : Fin 7, ∃ mv : BitVec 12, ∃ s : State, (s.maskBit .pwrWarnRails rail = false ∨ 100 * mv.toNat ≤ 95 *
    s.monitorMv rail)) ∧
  (∃ rail : Fin 7, ∃ mv : BitVec 12, ∃ other : Fin 7, ∃ s : State, 95 * s.monitorMv rail < 100 * mv.toNat ∧ s.rd
    .pwrWarnRails = 2 ^ rail.val + 2 ^ other.val ∧ other ≠ rail) ∧
  (∃ rail : Fin 7, ∃ mv : BitVec 12, ∃ s : State, 95 * s.monitorMv rail < 100 * mv.toNat ∧ s.rd .pwrWarnRails = 2 ^
    rail.val) :=
  ⟨⟨(at0 [(.thmState, 0, 0, 0)] []), by decide +kernel⟩,
   ⟨(at0 [(.thmState, 1, 0, 0), (.thmThrottleReq, 1, 0, 0), (.imgState, 2, 0, 0), (.thmLnShutdown, 1, 0, 0),
     (.thmLnShutdown, 1, 0, 1), (.thmLnShutdown, 1, 0, 2), (.thmLnShutdown, 1, 0, 3), (.thmLnShutdown, 1, 0, 4),
     (.thmLnShutdown, 1, 0, 5), (.thmLnShutdown, 1, 0, 6), (.thmLnShutdown, 1, 0, 7)] []), by decide +kernel⟩,
   ⟨(at0 [(.thmState, 0, 0, 0)] []), by decide +kernel⟩,
   ⟨(at0 [(.thmState, 1, 0, 0), (.thmThrottleReq, 1, 0, 0), (.imgState, 2, 0, 0), (.lfrGroupMode, 2, 0, 0),
     (.thmLnDvfsSteps, 1, 0, 0), (.thmLnShutdown, 0, 0, 0), (.thmIslandTemp, 1600, 0, 0)] []), by decide +kernel⟩,
   ⟨(at0 [(.thmState, 2, 0, 0), (.thmThrottleReq, 1, 0, 0), (.thmHotT, 1600, 0, 0), (.thmThrC, 100, 0, 0), (.imgState, 2,
     0, 0), (.lfrGroupMode, 2, 0, 0), (.thmLnDvfsSteps, 1, 0, 0), (.thmLnShutdown, 0, 0, 0), (.thmIslandTemp, 1600, 0,
     0), (.thmIslandTemp, 1600, 0, 3)] []), by decide +kernel⟩,
   ⟨(at0 [(.thmState, 2, 0, 0), (.thmThrottleReq, 1, 0, 0), (.thmHotT, 1600, 0, 0), (.thmThrC, 100, 0, 0), (.imgState, 2,
     0, 0), (.lfrGroupMode, 2, 0, 0), (.thmLnDvfsSteps, 3, 0, 0), (.thmLnShutdown, 0, 0, 0), (.lrxState, 5, 0, 0),
     (.thmIslandTemp, 1600, 0, 0)] []), by decide +kernel⟩,
   ⟨(at0 [(.thmState, 2, 0, 0)] []), by decide +kernel⟩,
   ⟨2, 1, ((fun s : State => { s with thermal := [⟨.dvfs, 2, 1⟩] }) (at0 [(.thmState, 3, 0, 0), (.thmAutoRestore, 1, 0,
     0), (.thmThrottleReq, 0, 0, 0), (.thmCritLatch, 0, 0, 0), (.thmHotT, 0, 0, 0), (.thmWarnC, 95, 0, 0)] [])),
     by decide +kernel⟩,
   ⟨(at0 [(.thmThrottleReq, 1, 0, 0)] []), by unfold State.reaches; decide +kernel⟩,
   ⟨2, 0, ((fun s : State => { s with thermal := [⟨.dvfs, 2, 1⟩, ⟨.dvfs, 2, 0⟩] }) (at0 [(.thmState, 3, 0, 0),
     (.thmThrottleReq, 0, 0, 0), (.thmCritLatch, 0, 0, 0), (.thmHotT, 0, 0, 0), (.thmWarnC, 95, 0, 0)] [])),
     by unfold State.reaches; decide +kernel⟩,
   ⟨(at0 [(.thmCritLatch, 0, 0, 0)] []), by unfold State.reaches; decide +kernel⟩,
   ⟨(at0 [(.thmCritLatch, 1, 0, 0), (.thmHotT, 0, 0, 0), (.thmResumeC, 90, 0, 0), (.thmLnShutdown, 1, 0, 3)] []),
     by unfold State.reaches; decide +kernel⟩,
   ⟨(at0 [(.thmCritLatch, 1, 0, 0), (.thmCritAuto, 0, 0, 0)] []), by decide +kernel⟩,
   ⟨(at0 [(.thmCritLatch, 1, 0, 0), (.thmCritAuto, 1, 0, 0), (.thmHotT, 0, 0, 0), (.thmResumeC, 90, 0, 0),
     (.thmLnShutdown, 1, 0, 3)] []), by decide +kernel⟩,
   ⟨3, 4000, (at0 [] []), by decide +kernel⟩,
   ⟨3, 750, (at0 [(.pwrWarn, 1, 0, 0), (.pwrWarnLow, 160, 0, 0)] []), by decide +kernel⟩,
   ⟨3, 750, (at0 [(.pwrWarn, 0, 0, 0), (.pwrLnIngPhase, 1, 2, 0), (.hltAction, 1, 0, 15)] []), by decide +kernel⟩,
   ⟨3, 4000, (at0 [(.pwrWarnRails, 0, 0, 0)] []), by decide +kernel⟩,
   ⟨3, 4000, 1, (at0 [(.pwrWarnRails, 10, 0, 0), (.pwrWarn, 1, 0, 0), (.pwrWarnLow, 120, 0, 0)] []), by decide +kernel⟩,
   ⟨3, 4000, (at0 [(.pwrWarnRails, 8, 0, 0), (.pwrWarn, 1, 0, 0), (.hifCommit, 1, 5, 0), (.optSaveBusy, 1, 0, 0),
     (.clkCalReq, 31, 0, 0)] []), by decide +kernel⟩⟩

/-- The hypotheses of every clause of `FaultWindowsAndPresets` can be met. -/
theorem witness_FaultWindowsAndPresets :
  (∃ src : Fin 16, ∃ inst : Fin 16, ∃ k : BitVec 10, (sourceInstances src ≤ inst.val ∨ k = 0)) ∧
  (∃ src : Fin 16, ∃ inst : Fin 16, ∃ k : BitVec 10, ∃ s : State, inst.val < sourceInstances src ∧ k ≠ 0 ∧ s.maskBit'
    .hltSrcLasting src inst = true) ∧
  (∃ src : Fin 16, ∃ inst : Fin 16, ∃ k : BitVec 10, ∃ s : State, inst.val < sourceInstances src ∧ k ≠ 0 ∧ s.maskBit'
    .hltSrcLasting src inst = false ∧ s.on .hltWinOpen src inst = true ∧ s.rd .hltWinCount src inst + k.toNat < s.rd
    .hltThresh 0 src ∧ s.rd .hltThresh 0 src ≤ 1023) ∧
  (∃ src : Fin 16, ∃ inst : Fin 16, ∃ k : BitVec 10, ∃ s : State, inst.val < sourceInstances src ∧ k ≠ 0 ∧ s.maskBit'
    .hltSrcLasting src inst = false ∧ s.rd .hltThresh 0 src ≤ k.toNat ∧ s.rd .hltAction 0 src = 1) ∧
  (∃ src : Fin 16, ∃ inst : Fin 16, ∃ k : BitVec 10, ∃ s : State, src.val = 5 ∧ inst.val < 8 ∧ k ≠ 0 ∧ s.maskBit'
    .hltSrcLasting src inst = false ∧ s.rd .hltThresh 0 src ≤ k.toNat ∧ s.rd .hltAction 0 src = 2 ∧ s.rd .hltAction 0
    3 ≤ 1 ∧ s.rd .lrxState inst ≠ 7) ∧
  (∃ s : State, s.reaches .hlt 0) ∧
  (∃ b : PresetBlock, ∃ n : HostLane, ∃ s : State, b = .receive ∧ n.val < 8 ∧ s.reaches .lrx n ∧ s.rd .lrxState n = 0) ∧
  (∃ b : PresetBlock, ∃ n : HostLane, ∃ s : State, b = .equaliser ∧ n.val < 8 ∧ s.reaches .leq n ∧ s.rd .lrxState n ≠
    0) ∧
  (∃ b : PresetBlock, ∃ n : HostLane, ∃ s : State, b = .transmit ∧ n.val < 8 ∧ s.reaches .ltx n ∧ s.rd .ltxState n ≠
    0) ∧
  (∃ b : PresetBlock, ∃ n : HostLane, ∃ s : State, b = .host ∧ s.reaches .hif n ∧ s.rd .hifState n ≠ 0) :=
  ⟨⟨15, 1, 3, by decide +kernel⟩,
   ⟨5, 3, 3, (at0 [(.hltSrcLasting, 8, 0, 5)] []), by decide +kernel⟩,
   ⟨5, 3, 3, (at0 [(.hltSrcLasting, 0, 0, 5), (.hltWinOpen, 1, 5, 3), (.hltWinCount, 4, 5, 3), (.hltThresh, 8, 0, 5)]
     []), by decide +kernel⟩,
   ⟨5, 3, 9, (at0 [(.hltSrcLasting, 0, 0, 5), (.hltThresh, 8, 0, 5), (.hltAction, 1, 0, 5)] []), by decide +kernel⟩,
   ⟨5, 3, 9, (at0 [(.hltSrcLasting, 0, 0, 5), (.hltThresh, 8, 0, 5), (.hltAction, 2, 0, 5), (.hltAction, 1, 0, 3),
     (.lrxState, 5, 3, 0)] []), by decide +kernel⟩,
   ⟨(at0 [(.hltSrcLasting, 0xFFFF, 0, 5)] []), by unfold State.reaches; decide +kernel⟩,
   ⟨.receive, 3, (at0 [(.lrxState, 0, 3, 0), (.lrxOverride, 31, 3, 0)] []), by unfold State.reaches; decide +kernel⟩,
   ⟨.equaliser, 3, (at0 [(.lrxState, 5, 3, 0), (.leqOverride, 31, 3, 0)] []), by unfold State.reaches; decide +kernel⟩,
   ⟨.transmit, 3, (at0 [(.ltxState, 4, 3, 0), (.ltxOverride, 3, 3, 0)] []), by unfold State.reaches; decide +kernel⟩,
   ⟨.host, 11, (at0 [(.hifState, 4, 11, 0), (.hifOverride, 15, 11, 0)] []), by unfold State.reaches; decide +kernel⟩⟩

/-- The hypotheses of every clause of `SelfTests` can be met. -/
theorem witness_SelfTests :
  (∃ unit : BitVec 7, ∃ s : State, s.reaches .hlt 0 ∧ s.on .hltBistGo = false ∧ unit.toNat ≤ 127) ∧
  (∃ unit : BitVec 7, ∃ s : State, s.reaches .hlt 0 ∧ s.on .hltBistGo = false ∧ unit.toNat ≤ 7) ∧
  (∃ unit : BitVec 7, ∃ s : State, s.reaches .hlt 0 ∧ s.on .hltBistGo = false ∧ unit.toNat ≤ 3) ∧
  (∃ unit : BitVec 7, ∃ s : State, s.reaches .hlt 0 ∧ s.on .hltBistGo = false ∧ unit.toNat ≤ 0) ∧
  (∃ unit : BitVec 7, ∃ s : State, s.reaches .hlt 0 ∧ s.on .hltBistGo = false ∧ unit.toNat ≤ 7) ∧
  (∃ unit : BitVec 7, ∃ s : State, s.reaches .hlt 0 ∧ s.on .hltBistGo = false ∧ unit.toNat ≤ 0) ∧
  (∃ unit : BitVec 7, ∃ s : State, s.reaches .hlt 0 ∧ s.on .hltBistGo = false ∧ unit = 0 ∧ (s.rd .secLcState = 1 ∨
    s.rd .secLcState = 3)) ∧
  (∃ s : State, s.reaches .hlt 0 ∧ s.on .hltBistGo = false ∧ s.rd .secLcState ≠ 1 ∧ s.rd .secLcState ≠ 3) ∧
  (∃ unit : BitVec 7, ∃ s : State, s.reaches .hlt 0 ∧ s.on .hltBistGo = false ∧ unit = 0 ∧ (s.rd .secLcState = 1 ∨
    s.rd .secLcState = 3)) ∧
  (∃ s : State, s.reaches .hlt 0 ∧ s.on .hltBistGo = false ∧ s.rd .secLcState ≠ 1 ∧ s.rd .secLcState ≠ 3) ∧
  (∃ s : State, s.reaches .hlt 0 ∧ s.on .hltBistGo = true) ∧
  (∃ unit : BitVec 7, ∃ s : State, s.reaches .hlt 0 ∧ s.on .hltBistGo = false ∧ 8 ≤ unit.toNat) ∧
  (∃ x : BistTest, ∃ s : State, s.tests = [x] ∧ x.origin = .software ∧ x.phase = .pending) ∧
  (∃ s : State, s.tests = []) ∧
  (∃ e : Fin 128, ∃ s : State, s.on .hltBgBistEn = true ∧ s.engState e < 7 ∧ s.tests = []) ∧
  (∃ s : State, s.on .hltBgBistEn = false) ∧
  (∃ n : Lane, ∃ s : State, s.maskBit .hltAdcBgEn n = true ∧ s.on .lrxCalActive n = false ∧ s.rd .lrxState n ≤ 2 ∧ (∀
    k ∈ List.range 8, s.adcStartable k = false)) ∧
  (∃ n : Lane, ∃ s : State, s.maskBit .hltAdcBgEn n = false ∧ (∀ k ∈ List.range 8, s.adcStartable k = false)) ∧
  (∃ n : Lane, ∃ s : State, s.maskBit .hltDacBgEn n = true ∧ s.on .ltxCalActive n = false ∧ (∀ k ∈ List.range 8, s.rd
    .ltxState k ≠ 4)) ∧
  (∃ n : Lane, ∃ s : State, s.Inv ∧ s.maskBit .hltDacBgEn n = true ∧ s.on .ltxCalActive n = false ∧ s.rd .ltxState n =
    4 ∧ s.on .ltxWakeSend n = false ∧ s.on .ltxSleep n = false ∧ s.on .ltxNoSpare n = false ∧ s.underTest 1 n = false
    ∧ s.warning = false) ∧
  (∃ n : Lane, ∃ s : State, (∀ b ∈ s.bg, b.server.isSome = true) ∧ (∀ k ∈ List.range 8, s.rd .ltxState k ≠ 4) ∧ (∀ k ∈
    List.range 8, s.adcStartable k = (k == n.val)) ∧ s.rd .hltCalMaxLanes = 0 ∧ s.rd .hltLnAdcAge n + 1 < s.rd
    .hltStarveLimit ∧ s.rd .hltLnAdcAge n < 255) ∧
  (∃ s : State, s.tests = []) ∧
  (∃ clockOk : Bool, ∃ mv : BitVec 10, ∃ s : State, (clockOk = false ∨ mv.toNat < 700 ∨ 800 < mv.toNat ∨ s.warning =
    true)) ∧
  (∃ slot : TestSlot, ∃ clockOk : Bool, ∃ mv : BitVec 10, ∃ s : State, slot = .peripheral ∧ clockOk = true ∧ 700 ≤
    mv.toNat ∧ mv.toNat ≤ 800 ∧ s.warning = false ∧ s.tests = [⟨5, 0, .software, .pending, false⟩]) ∧
  (∃ slot : TestSlot, ∃ clockOk : Bool, ∃ mv : BitVec 10, ∃ n : Lane, ∃ s : State, slot = .island ∧ clockOk = true ∧
    700 ≤ mv.toNat ∧ mv.toNat ≤ 800 ∧ s.warning = false ∧ s.tests = [⟨1, n, .boot, .pending, false⟩] ∧ s.maskBit
    .pwrDomLane n = true ∧ s.rd .lrxState n = 0 ∧ s.rd .ltxState n = 0) ∧
  (∃ s : State, (∀ x ∈ s.tests, x.phase ≠ .running)) ∧
  (∃ kind : Fin 8, ∃ unit : BitVec 7, ∃ r : BistReport, ∃ s : State, s.tests = [⟨kind, unit.toNat, .software,
    .running, false⟩] ∧ reportFails r kind = false) ∧
  (∃ kind : Fin 8, ∃ unit : BitVec 7, ∃ r : BistReport, ∃ s : State, kind = 5 ∧ s.tests = [⟨5, unit.toNat, .software,
    .running, false⟩] ∧ r.logic = true) ∧
  (∃ kind : Fin 8, ∃ unit : BitVec 7, ∃ r : BistReport, ∃ s : State, kind = 1 ∧ unit.toNat < 8 ∧ s.tests = [⟨1,
    unit.toNat, .boot, .running, false⟩] ∧ r = ⟨true, [], [], 0⟩) ∧
  (∃ s : State, (∀ x ∈ s.tests, x.phase ≠ .running)) ∧
  (∃ kind : Fin 8, ∃ unit : BitVec 7, ∃ s : State, s.tests = [⟨kind, unit.toNat, .software, .running, false⟩]) ∧
  (∃ s : State, (∀ x ∈ s.tests, x.phase ≠ .reinit)) ∧
  (∃ kind : Fin 8, ∃ unit : BitVec 7, ∃ n : Lane, ∃ s : State, kind = 1 ∧ unit.toNat = n ∧ s.tests = [⟨1, n,
    .software, .reinit, false⟩] ∧ s.deferred = [.sleep n true, .lrxCommit n] ∧ s.on .lrxEnable n = false ∧ s.rd
    .hltBistState = 3 ∧ s.warning = true ∧ s.rxGrid n = true) :=
  ⟨⟨127, (at0 [(.hltBistGo, 0, 0, 0)] []), by unfold State.reaches; decide +kernel⟩,
   ⟨7, (at0 [(.hltBistGo, 0, 0, 0)] []), by unfold State.reaches; decide +kernel⟩,
   ⟨3, (at0 [(.hltBistGo, 0, 0, 0)] []), by unfold State.reaches; decide +kernel⟩,
   ⟨0, (at0 [(.hltBistGo, 0, 0, 0)] []), by unfold State.reaches; decide +kernel⟩,
   ⟨7, (at0 [(.hltBistGo, 0, 0, 0)] []), by unfold State.reaches; decide +kernel⟩,
   ⟨0, (at0 [(.hltBistGo, 0, 0, 0)] []), by unfold State.reaches; decide +kernel⟩,
   ⟨0, (at0 [(.hltBistGo, 0, 0, 0), (.secLcState, 1, 0, 0)] []), by unfold State.reaches; decide +kernel⟩,
   ⟨(at0 [(.hltBistGo, 0, 0, 0), (.secLcState, 2, 0, 0)] []), by unfold State.reaches; decide +kernel⟩,
   ⟨0, (at0 [(.hltBistGo, 0, 0, 0), (.secLcState, 1, 0, 0)] []), by unfold State.reaches; decide +kernel⟩,
   ⟨(at0 [(.hltBistGo, 0, 0, 0), (.secLcState, 2, 0, 0)] []), by unfold State.reaches; decide +kernel⟩,
   ⟨(at0 [(.hltBistGo, 1, 0, 0)] []), by unfold State.reaches; decide +kernel⟩,
   ⟨8, (at0 [(.hltBistGo, 0, 0, 0)] []), by unfold State.reaches; decide +kernel⟩,
   ⟨⟨1, 3, .software, .pending, false⟩, ((fun s : State => { s with tests := [⟨1, 3, .software, .pending, false⟩] }) (at0
     [(.hltBistGo, 1, 0, 0)] [])), by decide +kernel⟩,
   ⟨(at0 [(.hltBistGo, 0, 0, 0)] []), by decide +kernel⟩,
   ⟨50, (at0 [(.hltBgBistEn, 1, 0, 0), (.glbDecodeRun, 255, 0, 0), (.arcEngBad, 0, 0, 50), (.arcEngSt, 2, 0, 50)] []),
     by decide +kernel⟩,
   ⟨(at0 [(.hltBgBistEn, 0, 0, 0)] []), by decide +kernel⟩,
   ⟨3, (at0 [(.hltAdcBgEn, 255, 0, 0), (.lrxCalActive, 0, 3, 0), (.lrxState, 2, 3, 0)] []), by decide +kernel⟩,
   ⟨3, (at0 [(.hltAdcBgEn, 0, 0, 0)] []), by decide +kernel⟩,
   ⟨3, (at0 [(.hltDacBgEn, 255, 0, 0), (.ltxCalActive, 0, 3, 0), (.ltxState, 1, 3, 0)] []), by decide +kernel⟩,
   ⟨3, (at0 [(.hltDacBgEn, 255, 0, 0), (.ltxCalActive, 0, 3, 0), (.ltxState, 4, 3, 0), (.ltxWakeSend, 0, 3, 0),
     (.ltxSleep, 0, 3, 0), (.ltxNoSpare, 0, 3, 0), (.pwrWarn, 0, 0, 0)] []),
     by unfold State.Inv State.shaped; decide +kernel⟩,
   ⟨3, (at0 [(.hltAdcBgEn, 255, 0, 0), (.hltAdcDue, 1, 3, 0), (.lrxState, 5, 3, 0), (.lrxAgcState, 2, 3, 0), (.lrxSleep,
     0, 3, 0), (.lrxNoSpare, 0, 3, 0), (.hltCalMaxLanes, 0, 0, 0), (.hltStarveLimit, 8, 0, 0), (.hltLnAdcAge, 2, 3,
     0), (.pwrWarn, 0, 0, 0)] []), by decide +kernel⟩,
   ⟨(at0 [] []), by decide +kernel⟩,
   ⟨true, 801, ((fun s : State => { s with tests := [⟨1, 3, .software, .pending, false⟩] }) (at0 [] [])),
     by decide +kernel⟩,
   ⟨.peripheral, true, 800, ((fun s : State => { s with tests := [⟨5, 0, .software, .pending, false⟩] }) (at0 [(.pwrWarn,
     0, 0, 0)] [])), by decide +kernel⟩,
   ⟨.island, true, 700, 3, ((fun s : State => { s with tests := [⟨1, 3, .boot, .pending, false⟩] }) (at0 [(.lrxState, 0,
     3, 0), (.ltxState, 0, 3, 0), (.pwrWarn, 0, 0, 0)] [])), by decide +kernel⟩,
   ⟨((fun s : State => { s with tests := [⟨5, 0, .software, .pending, false⟩] }) (at0 [] [])), by decide +kernel⟩,
   ⟨5, 0, ⟨false, [], [], 0⟩, ((fun s : State => { s with tests := [⟨5, 0, .software, .running, false⟩] }) (at0 [] [])),
     by decide +kernel⟩,
   ⟨5, 0, ⟨true, [], [], 0⟩, ((fun s : State => { s with tests := [⟨5, 0, .software, .running, false⟩] }) (at0 [] [])),
     by decide +kernel⟩,
   ⟨1, 3, ⟨true, [], [], 0⟩, ((fun s : State => { s with tests := [⟨1, 3, .boot, .running, false⟩] }) (at0 [(.lrxEnable,
     1, 3, 0)] [])), by decide +kernel⟩,
   ⟨(at0 [] []), by decide +kernel⟩,
   ⟨5, 0, ((fun s : State => { s with tests := [⟨5, 0, .software, .running, false⟩] }) (at0 [] [])), by decide +kernel⟩,
   ⟨(at0 [] []), by decide +kernel⟩,
   ⟨1, 3, 3, ((fun s : State =>
     { s with tests := [⟨1, 3, .software, .reinit, false⟩], deferred := [.sleep 3 true, .lrxCommit 3] }) (at0
     [(.lrxEnable, 0, 3, 0), (.lrxState, 2, 3, 0), (.hltBistState, 3, 0, 0), (.pwrWarn, 1, 0, 0)] [])),
     by decide +kernel⟩⟩

/-- The hypotheses of every clause of `SecurityCommands` can be met. -/
theorem witness_SecurityCommands :
  (∃ s : State, s.reaches .sec 0 ∧ s.on .secBusy = true) ∧
  (∃ s : State, s.reaches .sec 0 ∧ s.on .secBusy = false ∧ s.rd .secLcState < 4) ∧
  (∃ target : BitVec 4, ∃ s : State, s.reaches .sec 0 ∧ s.on .secBusy = false ∧ s.rd .secLcState = 0 ∧ target = 1 ∧
    s.imgBusy = false) ∧
  (∃ target : BitVec 4, ∃ s : State, s.reaches .sec 0 ∧ s.on .secBusy = false ∧ s.rd .secLcState = 1 ∧ target = 3) ∧
  (∃ s : State, s.reaches .sec 0 ∧ s.on .secBusy = false ∧ 2 ≤ s.rd .secLcState) ∧
  (∃ slot : BitVec 4, ∃ s : State, s.reaches .sec 0 ∧ s.on .secBusy = false ∧ s.rd .secLcState < 2 ∧ s.on .secKsFail =
    false ∧ s.secOpen = false ∧ slot.toNat < 4 ∧ s.rd .secKeyState 0 slot.toNat = 0 ∧ onCurve (s.rd .secKeyData) =
    true) ∧
  (∃ slot : BitVec 4, ∃ s : State, s.reaches .sec 0 ∧ s.on .secBusy = false ∧ s.rd .secLcState < 2 ∧ s.on .secKsFail =
    false ∧ s.secOpen = false ∧ slot.toNat < 4 ∧ s.rd .secKeyState 0 slot.toNat = 1 ∧ (List.range 4).any (fun k => k
    != slot.toNat && s.bootSlot k) = true) ∧
  (∃ slot : BitVec 4, ∃ s : State, s.reaches .sec 0 ∧ s.on .secBusy = false ∧ s.rd .secLcState < 2 ∧ s.on .secKsFail =
    false ∧ s.secOpen = false ∧ slot.toNat < 4 ∧ s.rd .secKeyState 0 slot.toNat ≠ 1) ∧
  (∃ s : State, s.reaches .sec 0 ∧ s.on .secBusy = false ∧ s.rd .secLcState ≤ 1) ∧
  (∃ s : State, s.reaches .sec 0 ∧ s.on .secBusy = false ∧ s.rd .secLcState = 2) ∧
  (∃ s : State, s.reaches .sec 0 ∧ s.on .secBusy = false ∧ s.rd .secLcState < 4 ∧ s.rd .secRollbackFloor ≤ s.rd
    .secRollbackNew ∧ s.rd .secRollbackNew ≤ s.rd .imgActiveSeq) ∧
  (∃ s : State, s.reaches .sec 0 ∧ s.on .secBusy = false ∧ s.rd .secLcState < 4 ∧ s.rd .secRollbackNew < s.rd
    .secRollbackFloor) ∧
  (∃ s : State, s.reaches .sec 0 ∧ s.on .secBusy = false ∧ s.rd .secLcState = 1) ∧
  (∃ s : State, s.reaches .sec 0 ∧ s.on .secBusy = false ∧ s.rd .secLcState ≠ 1) ∧
  (∃ s : State, s.reaches .sec 0 ∧ s.on .secBusy = false) :=
  ⟨⟨(at0 [(.secBusy, 1, 0, 0)] []), by unfold State.reaches; decide +kernel⟩,
   ⟨(at0 [(.secBusy, 0, 0, 0), (.secLcState, 2, 0, 0)] []), by unfold State.reaches; decide +kernel⟩,
   ⟨1, (at0 [(.secBusy, 0, 0, 0), (.secLcState, 0, 0, 0), (.imgState, 2, 0, 0)] []),
     by unfold State.reaches; decide +kernel⟩,
   ⟨3, (at0 [(.secBusy, 0, 0, 0), (.secLcState, 1, 0, 0)] []), by unfold State.reaches; decide +kernel⟩,
   ⟨(at0 [(.secBusy, 0, 0, 0), (.secLcState, 2, 0, 0)] []), by unfold State.reaches; decide +kernel⟩,
   ⟨1, (at0 [(.secBusy, 0, 0, 0), (.secLcState, 1, 0, 0), (.secKsFail, 0, 0, 0), (.secKeyState, 0, 0, 1), (.secKeyData,
     328049714893980196778294046873145828291983639046152866485147364517009514157912568816391546526767532435081296562763126194755641214038309350629052019310841289066808195939248425945454710511468975523535320411192848388414054733383600823,
     0, 0)] []), by unfold State.reaches; decide +kernel⟩,
   ⟨1, (at0 [(.secBusy, 0, 0, 0), (.secLcState, 1, 0, 0), (.secKsFail, 0, 0, 0), (.secKeyState, 1, 0, 1), (.secKeyState,
     1, 0, 2), (.secKeyFlags, 1, 0, 2)] []), by unfold State.reaches; decide +kernel⟩,
   ⟨1, (at0 [(.secBusy, 0, 0, 0), (.secLcState, 1, 0, 0), (.secKsFail, 0, 0, 0), (.secKeyState, 2, 0, 1)] []),
     by unfold State.reaches; decide +kernel⟩,
   ⟨(at0 [(.secBusy, 0, 0, 0), (.secLcState, 1, 0, 0), (.secKeyData, 99, 0, 0)] []),
     by unfold State.reaches; decide +kernel⟩,
   ⟨(at0 [(.secBusy, 0, 0, 0), (.secLcState, 2, 0, 0)] []), by unfold State.reaches; decide +kernel⟩,
   ⟨(at0 [(.secBusy, 0, 0, 0), (.secLcState, 2, 0, 0), (.secRollbackFloor, 3, 0, 0), (.secRollbackNew, 5, 0, 0),
     (.imgActiveSeq, 5, 0, 0)] []), by unfold State.reaches; decide +kernel⟩,
   ⟨(at0 [(.secBusy, 0, 0, 0), (.secLcState, 2, 0, 0), (.secRollbackFloor, 3, 0, 0), (.secRollbackNew, 2, 0, 0),
     (.imgActiveSeq, 5, 0, 0)] []), by unfold State.reaches; decide +kernel⟩,
   ⟨(at0 [(.secBusy, 0, 0, 0), (.secLcState, 1, 0, 0)] []), by unfold State.reaches; decide +kernel⟩,
   ⟨(at0 [(.secBusy, 0, 0, 0), (.secLcState, 2, 0, 0)] []), by unfold State.reaches; decide +kernel⟩,
   ⟨(at0 [(.secBusy, 0, 0, 0)] []), by unfold State.reaches; decide +kernel⟩⟩

/-- The hypotheses of every clause of `TokensAndNvmWrites` can be met. -/
theorem witness_TokensAndNvmWrites :
  (∃ s : State, s.rd .secPhase ≠ 1) ∧
  (∃ s : State, s.rd .secPhase = 1 ∧ s.tokenOk = false) ∧
  (∃ s : State, s.rd .secPhase = 1 ∧ s.tokenOk = true ∧ s.rd .secOpRun = 5 ∧ (s.rd .secArgRun).testBit 0 = true) ∧
  (∃ s : State, s.rd .secPhase = 1 ∧ s.tokenOk = true ∧ s.rd .secOpRun ≠ 5) ∧
  (∃ s : State, s.warning = true) ∧
  (∃ job : NvmJob, ∃ ok : Bool, ∃ s : State, s.warning = false ∧ job = .sec ∧ s.rd .secPhase = 2 ∧ ok = false) ∧
  (∃ job : NvmJob, ∃ ok : Bool, ∃ s : State, s.Inv ∧ s.warning = false ∧ job = .sec ∧ s.rd .secPhase = 2 ∧ ok = true ∧
    s.rd .secOpRun = 3 ∧ s.rd .secArgRun < 4) ∧
  (∃ job : NvmJob, ∃ ok : Bool, ∃ s : State, s.Inv ∧ s.warning = false ∧ job = .sec ∧ s.rd .secPhase = 2 ∧ ok = true ∧
    s.rd .secOpRun = 6) ∧
  (∃ job : NvmJob, ∃ ok : Bool, ∃ s : State, s.warning = false ∧ job = .sec ∧ s.rd .secPhase = 2 ∧ ok = true ∧ s.rd
    .secOpRun = 1 ∧ s.rd .secLcCopy = 1 ∧ s.rd .secArgRun < 4) ∧
  (∃ job : NvmJob, ∃ ok : Bool, ∃ s : State, s.Inv ∧ s.warning = false ∧ job = .envSave ∧ s.on .optSaveBusy = true ∧
    ok = true) ∧
  (∃ job : NvmJob, ∃ ok : Bool, ∃ s : State, s.warning = false ∧ job = .password ∧ s.maskBit .secNvmBusy 1 = true ∧ ok
    = true) :=
  ⟨⟨(at0 [(.secPhase, 0, 0, 0)] []), by decide +kernel⟩,
   ⟨(at0 [(.secPhase, 1, 0, 0), (.secNonceValid, 1, 0, 0), (.secTokenR, 0, 0, 0)] []), by decide +kernel⟩,
   ⟨(at0 [(.secPhase, 1, 0, 0), (.secOpRun, 5, 0, 0), (.secArgRun, 1, 0, 0), (.secFlagsRun, 0, 0, 0), (.secUid, 0, 0, 0),
     (.secNonce, 1, 0, 0), (.secTokenR,
     22362428248829593679494869115573756555863634695475867898489136397638631654856523824389470724264685033686456678406451,
     0, 0), (.secTokenS,
     22362428248829593679494869115573756555863634695475867898489136397638631654856523824389470724264685033686456678406451,
     0, 0), (.secKeyIndex, 2, 0, 0), (.secKeyPoint,
     465066965309832309506384521057732512339650433857156837097926804610466939546243575574494230304331055707599702061797783255689967727927136164063913030960436280881465221853663918061514799250343903657070362557257264463883619973843732446,
     0, 2)] []), by decide +kernel⟩,
   ⟨(at0 [(.secPhase, 1, 0, 0), (.secOpRun, 1, 0, 0), (.secArgRun, 3, 0, 0), (.secFlagsRun, 0, 0, 0), (.secUid, 0, 0, 0),
     (.secNonce, 1, 0, 0), (.secTokenR,
     28597918050243335975194470205164172723360907900785154587398196701567945803238009558398225576658952234669245073029042,
     0, 0), (.secTokenS,
     28597918050243335975194470205164172723360907900785154587398196701567945803238009558398225576658952234669245073029042,
     0, 0), (.secKeyIndex, 2, 0, 0), (.secKeyPoint,
     418425293705255722202937473974559908644739296771303516533916402976727471681834900013868844022332374720870859696023598444356722492277769065172904836532073431800466927550478973838822120255674427894510193161603011050803023270988158219,
     0, 2)] []), by decide +kernel⟩,
   ⟨(at0 [(.pwrWarn, 1, 0, 0), (.secPhase, 2, 0, 0)] []), by decide +kernel⟩,
   ⟨.sec, false, (at0 [(.pwrWarn, 0, 0, 0), (.secPhase, 2, 0, 0), (.secNvmBusy, 1, 0, 0)] []), by decide +kernel⟩,
   ⟨.sec, true, (at0 [(.pwrWarn, 0, 0, 0), (.secPhase, 2, 0, 0), (.secOpRun, 3, 0, 0), (.secArgRun, 2, 0, 0),
     (.secKeyData, 77, 0, 0)] []), by unfold State.Inv State.shaped; decide +kernel⟩,
   ⟨.sec, true, (at0 [(.pwrWarn, 0, 0, 0), (.secPhase, 2, 0, 0), (.secOpRun, 6, 0, 0), (.secRollbackNew, 9, 0, 0)] []),
     by unfold State.Inv State.shaped; decide +kernel⟩,
   ⟨.sec, true, (at0 [(.pwrWarn, 0, 0, 0), (.secPhase, 2, 0, 0), (.secOpRun, 1, 0, 0), (.secLcCopy, 1, 0, 0),
     (.secArgRun, 1, 0, 0), (.secLcState, 0, 0, 0)] []), by decide +kernel⟩,
   ⟨.envSave, true, (at0 [(.pwrWarn, 0, 0, 0), (.optSaveBusy, 1, 0, 0), (.optLnMaxBias, 500, 3, 0)] []),
     by unfold State.Inv State.shaped; decide +kernel⟩,
   ⟨.password, true, (at0 [(.pwrWarn, 0, 0, 0), (.secNvmBusy, 2, 0, 0), (.cdbNewPw, 12345, 0, 0)] []), by decide +kernel⟩⟩

/-- The hypotheses of every clause of `EventFifoAndMailbox` can be met. -/
theorem witness_EventFifoAndMailbox :
  (∃ s : State, s.reaches .evf 0 ∧ s.evf = []) ∧
  (∃ w : Nat, ∃ q : List Nat, ∃ s : State, s.reaches .evf 0 ∧ s.evf = w :: q ∧ q ≠ [] ∧ s.rd .evfLwm < q.length) ∧
  (∃ s : State, s.reaches .evf 0) ∧
  (∃ s : State, s.reaches .evf 0 ∧ s.evf = []) ∧
  (∃ s : State, s.reaches .evf 0 ∧ s.evf ≠ []) ∧
  (∃ s : State, s.mbxIn = []) ∧
  (∃ tag : Nat, ∃ s : State, s.mbxIn = [[2 + 4 * 2 ^ 8 + 12 * 2 ^ 16, tag, 510]] ∧ tag < 65536 ∧ s.fwUp = true ∧
    s.maskBit .secNvmBusy 2 = false ∧ s.mbxOut = [] ∧ s.evf = []) ∧
  (∃ tag : Nat, ∃ s : State, s.mbxIn = [[2 + 4 * 2 ^ 8 + 12 * 2 ^ 16, tag, 510]] ∧ tag < 65536 ∧ s.fwUp = true ∧
    s.maskBit .secNvmBusy 2 = false ∧ s.mbxOut = [] ∧ s.evf = [0x21100100, 5, 6, 9] ∧ s.on .evfFormat = true) ∧
  (∃ w : Word, ∃ s : State, s.reaches .mgt 0 ∧ s.on .mbxDiscardAll = false ∧ s.on .mbxDiscard = false ∧ s.on
    .mgtMbxOpen = false ∧ s.headerRefusal w.toNat = none) ∧
  (∃ s : State, s.reaches .mgt 0 ∧ s.on .mbxDiscardAll = false ∧ s.on .mbxDiscard = false ∧ s.on .mgtMbxOpen = true ∧
    s.rd .mbxLeft = 1) ∧
  (∃ w : Word, ∃ s : State, s.reaches .mgt 0 ∧ s.on .mbxDiscardAll = false ∧ s.on .mbxDiscard = false ∧ s.on
    .mgtMbxOpen = false ∧ w.toNat % 256 = 3) ∧
  (∃ s : State, s.reaches .mgt 0 ∧ s.on .mbxDiscardAll = true) ∧
  (∃ s : State, s.on .mgtMbxOpen = true) ∧
  (∃ s : State, s.on .mgtMbxOpen = false) ∧
  (∃ s : State, s.reaches .mgt 0) ∧
  (∃ s : State, s.reaches .mgt 0 ∧ s.mbxIn = [] ∧ s.mbxOut = [] ∧ s.on .mgtMbxOpen = false) ∧
  (∃ s : State, s.reaches .mgt 0 ∧ s.mbxOut ≠ []) ∧
  (∃ s : State, s.reaches .mgt 0 ∧ s.mbxOut = []) ∧
  (∃ w : Nat, ∃ v : Nat, ∃ q : List (List Nat), ∃ s : State, s.reaches .mgt 0 ∧ s.mbxOut = [w, v] :: q) ∧
  (∃ w : Nat, ∃ q : List (List Nat), ∃ s : State, s.reaches .mgt 0 ∧ s.mbxOut = [w] :: q) ∧
  (∃ tag : Nat, ∃ s : State, s.mbxIn = [[2 + 1 * 2 ^ 8 + 8 * 2 ^ 16, tag]] ∧ tag < 65536 ∧ s.fwUp = true ∧ s.maskBit
    .secNvmBusy 2 = false ∧ s.mbxOut = []) ∧
  (∃ s : State, s.fwUp = false) ∧
  (∃ tag : Nat, ∃ s : State, s.mbxIn = [[2 + 9 * 2 ^ 8 + 8 * 2 ^ 16, tag]] ∧ tag < 65536 ∧ s.fwUp = true ∧ s.maskBit
    .secNvmBusy 2 = false ∧ s.mbxOut = []) ∧
  (∃ tag : Nat, ∃ off : Nat, ∃ s : State, s.mbxIn = [[2 + 5 * 2 ^ 8 + 16 * 2 ^ 16, tag, off, 4]] ∧ tag < 65536 ∧ off +
    4 ≤ infoBytes ∧ s.fwUp = true ∧ s.maskBit .secNvmBusy 2 = false ∧ s.mbxOut = []) ∧
  (∃ tag : Nat, ∃ off : Nat, ∃ s : State, s.mbxIn = [[2 + 5 * 2 ^ 8 + 16 * 2 ^ 16, tag, off, 4]] ∧ tag < 65536 ∧
    infoBytes < off + 4 ∧ s.fwUp = true ∧ s.maskBit .secNvmBusy 2 = false ∧ s.mbxOut = []) ∧
  (∃ tag : Nat, ∃ w : Nat, ∃ s : State, s.mbxIn = [[2 + 6 * 2 ^ 8 + 20 * 2 ^ 16, tag, 0, 4, w]] ∧ s.rd .secLcState = 1
    ∧ s.fwUp = true ∧ s.maskBit .secNvmBusy 2 = false ∧ s.mbxOut = []) ∧
  (∃ tag : Nat, ∃ w : Nat, ∃ s : State, s.mbxIn = [[2 + 6 * 2 ^ 8 + 20 * 2 ^ 16, tag, 0, 4, w]] ∧ tag < 65536 ∧ s.rd
    .secLcState ≠ 1 ∧ s.fwUp = true ∧ s.maskBit .secNvmBusy 2 = false ∧ s.mbxOut = []) :=
  ⟨⟨(at0 [(.evfRptr, 6, 0, 0)] []), by unfold State.reaches; decide +kernel⟩,
   ⟨77, [1, 2], ((fun s : State => { s with evf := [77, 1, 2] }) (at0 [(.evfLwm, 1, 0, 0), (.evfRptr, 32766, 0, 0)] [])),
     by unfold State.reaches; decide +kernel⟩,
   ⟨((fun s : State => { s with evf := [77, 1, 2] }) (at0 [(.evfWptr, 6, 0, 0), (.evfXoff, 1, 0, 0)] [])),
     by unfold State.reaches; decide +kernel⟩,
   ⟨(at0 [(.evfFormat, 1, 0, 0)] []), by unfold State.reaches; decide +kernel⟩,
   ⟨((fun s : State => { s with evf := [77, 1, 2] }) (at0 [(.evfFormat, 1, 0, 0)] [])),
     by unfold State.reaches; decide +kernel⟩,
   ⟨(at0 [(.evfFormat, 1, 0, 0)] []), by decide +kernel⟩,
   ⟨7, ((fun s : State => { s with mbxIn := [[2 + 4 * 2 ^ 8 + 12 * 2 ^ 16, 7, 510]] }) (at0 [(.mgtRomFw, 0, 0, 0),
     (.mgtFwDown, 0, 0, 0), (.mgtFwHalt, 0, 0, 0), (.secNvmBusy, 0, 0, 0)] [])), by decide +kernel⟩,
   ⟨7, ((fun s : State => { s with mbxIn := [[2 + 4 * 2 ^ 8 + 12 * 2 ^ 16, 7, 510]], evf := [0x21100100, 5, 6, 9] }) (at0
     [(.evfFormat, 1, 0, 0), (.mgtRomFw, 0, 0, 0), (.mgtFwDown, 0, 0, 0), (.mgtFwHalt, 0, 0, 0), (.secNvmBusy, 0, 0,
     0)] [])), by decide +kernel⟩,
   ⟨0x00080102, (at0 [(.mbxDiscardAll, 0, 0, 0), (.mbxDiscard, 0, 0, 0), (.mgtMbxOpen, 0, 0, 0)] []),
     by unfold State.reaches; decide +kernel⟩,
   ⟨((fun s : State => { s with mbxOpen := [0x00080102] }) (at0 [(.mbxDiscardAll, 0, 0, 0), (.mbxDiscard, 0, 0, 0),
     (.mgtMbxOpen, 1, 0, 0), (.mbxLeft, 1, 0, 0)] [])), by unfold State.reaches; decide +kernel⟩,
   ⟨0x00080103, (at0 [(.mbxDiscardAll, 0, 0, 0), (.mbxDiscard, 0, 0, 0), (.mgtMbxOpen, 0, 0, 0)] []),
     by unfold State.reaches; decide +kernel⟩,
   ⟨(at0 [(.mbxDiscardAll, 1, 0, 0)] []), by unfold State.reaches; decide +kernel⟩,
   ⟨((fun s : State => { s with mbxOpen := [0x00080102] }) (at0 [(.mgtMbxOpen, 1, 0, 0)] [])), by decide +kernel⟩,
   ⟨(at0 [(.mgtMbxOpen, 0, 0, 0)] []), by decide +kernel⟩,
   ⟨((fun s : State => { s with mbxOpen := [0x00080102] }) (at0 [(.mgtMbxOpen, 1, 0, 0), (.mbxDiscardAll, 1, 0, 0)] [])),
     by unfold State.reaches; decide +kernel⟩,
   ⟨(at0 [(.mgtMbxOpen, 0, 0, 0)] []), by unfold State.reaches; decide +kernel⟩,
   ⟨((fun s : State => { s with mbxOut := [[1, 2]] }) (at0 [] [])), by unfold State.reaches; decide +kernel⟩,
   ⟨(at0 [(.mgtMbxOpen, 0, 0, 0)] []), by unfold State.reaches; decide +kernel⟩,
   ⟨5, 6, [[7]], ((fun s : State => { s with mbxOut := [[5, 6], [7]] }) (at0 [] [])),
     by unfold State.reaches; decide +kernel⟩,
   ⟨5, [[7]], ((fun s : State => { s with mbxOut := [[5], [7]] }) (at0 [] [])), by unfold State.reaches; decide +kernel⟩,
   ⟨7, ((fun s : State => { s with mbxIn := [[2 + 1 * 2 ^ 8 + 8 * 2 ^ 16, 7]] }) (at0 [(.mgtRomFw, 0, 0, 0), (.mgtFwDown,
     0, 0, 0), (.mgtFwHalt, 0, 0, 0), (.secNvmBusy, 0, 0, 0)] [])), by decide +kernel⟩,
   ⟨((fun s : State => { s with mbxIn := [[2 + 1 * 2 ^ 8 + 8 * 2 ^ 16, 7]] }) (at0 [(.mgtFwHalt, 1, 0, 0)] [])),
     by decide +kernel⟩,
   ⟨7, ((fun s : State => { s with mbxIn := [[2 + 9 * 2 ^ 8 + 8 * 2 ^ 16, 7]] }) (at0 [(.mgtRomFw, 0, 0, 0), (.mgtFwDown,
     0, 0, 0), (.mgtFwHalt, 0, 0, 0), (.secNvmBusy, 0, 0, 0)] [])), by decide +kernel⟩,
   ⟨7, 2, ((fun s : State => { s with mbxIn := [[2 + 5 * 2 ^ 8 + 16 * 2 ^ 16, 7, 2, 4]], info := [(3, 9)] }) (at0
     [(.mgtRomFw, 0, 0, 0), (.mgtFwDown, 0, 0, 0), (.mgtFwHalt, 0, 0, 0), (.secNvmBusy, 0, 0, 0)] [])),
     by decide +kernel⟩,
   ⟨7, 458749, ((fun s : State => { s with mbxIn := [[2 + 5 * 2 ^ 8 + 16 * 2 ^ 16, 7, 458749, 4]] }) (at0 [(.mgtRomFw, 0,
     0, 0), (.mgtFwDown, 0, 0, 0), (.mgtFwHalt, 0, 0, 0), (.secNvmBusy, 0, 0, 0)] [])), by decide +kernel⟩,
   ⟨7, 99, ((fun s : State => { s with mbxIn := [[2 + 6 * 2 ^ 8 + 20 * 2 ^ 16, 7, 0, 4, 99]] }) (at0 [(.secLcState, 1, 0,
     0), (.mgtRomFw, 0, 0, 0), (.mgtFwDown, 0, 0, 0), (.mgtFwHalt, 0, 0, 0), (.secNvmBusy, 0, 0, 0)] [])),
     by decide +kernel⟩,
   ⟨7, 99, ((fun s : State => { s with mbxIn := [[2 + 6 * 2 ^ 8 + 20 * 2 ^ 16, 7, 0, 4, 99]] }) (at0 [(.secLcState, 2, 0,
     0), (.mgtRomFw, 0, 0, 0), (.mgtFwDown, 0, 0, 0), (.mgtFwHalt, 0, 0, 0), (.secNvmBusy, 0, 0, 0)] [])),
     by decide +kernel⟩⟩

/-- The hypotheses of every clause of `ImageCommands` can be met. -/
theorem witness_ImageCommands :
  (∃ s : State, s.reaches .img 0 ∧ s.rd .imgState = 2 ∧ s.secOpen = false) ∧
  (∃ s : State, s.reaches .img 0 ∧ s.rd .imgState = 4) ∧
  (∃ s : State, s.reaches .img 0 ∧ s.rd .imgState = 2 ∧ s.secOpen = false) ∧
  (∃ s : State, s.reaches .img 0 ∧ s.rd .imgState = 2 ∧ (s.candidate = none ∨ (s.running = none ∧ s.on .imgCandNew =
    false))) ∧
  (∃ i : Image, ∃ s : State, s.reaches .img 0 ∧ s.rd .imgState = 2 ∧ s.candidate = some i ∧ (s.running ≠ none ∨ s.on
    .imgCandNew = true)) ∧
  (∃ s : State, s.reaches .img 0 ∧ s.rd .imgState = 2 ∧ s.candidate = none) ∧
  (∃ lead : Lane, ∃ i : Image, ∃ s : State, s.reaches .img 0 ∧ s.rd .imgState = 2 ∧ s.candidate = some i ∧ s.running =
    some i ∧ i.fmtMajor = 4 ∧ (i.groupOf lead).lead = lead ∧ (i.groupOf lead).lanes = [lead.val] ∧ s.rd .lfrProfActive
    lead < 3 ∧ (i.groupOf lead).profiles.testBit (s.rd .lfrProfActive lead) = true ∧ sameOutside i i [lead.val] = true
    ∧ s.on .lfrReqAcc lead = false ∧ s.on .lfrSwPend lead = false ∧ s.on .lfrAwaitRel lead = false ∧ s.on
    .lfrReplyWait lead = false) ∧
  (∃ s : State, s.reaches .img 0 ∧ s.rd .imgState = 4 ∧ s.rd .imgOpRun = 3 ∧ s.running = none ∧ s.on .cdbImg = false) ∧
  (∃ s : State, s.reaches .img 0 ∧ s.rd .imgState = 2) ∧
  (∃ op : BitVec 4, ∃ slot : BitVec 2, ∃ s : State, s.reaches .img 0 ∧ s.rd .imgState = 2 ∧ (op = 0 ∨ 5 < op.toNat ∨ 2
    ≤ slot.toNat) ∧ op ≠ 4 ∧ op ≠ 3) ∧
  (∃ f : ImageFile, ∃ s : State, s.rd .imgState = 3 ∧ s.rd .imgOpRun = 1 ∧ s.validate (s.slotImage (Image.ofFile f))
    false = none ∧ s.running = none ∧ s.on .cdbImg = false) ∧
  (∃ f : ImageFile, ∃ e : ImgFailure, ∃ s : State, s.rd .imgState = 3 ∧ s.rd .imgOpRun = 1 ∧ s.validate (s.slotImage
    (Image.ofFile f)) false = some e ∧ e.code < 256 ∧ s.running = none ∧ s.on .cdbImg = false) ∧
  (∃ s : State, s.rd .imgState ≠ 1 ∧ s.rd .imgState ≠ 3) ∧
  (∃ f : ImageFile, ∃ s : State, s.rd .imgState = 3 ∧ s.rd .imgOpRun = 5 ∧ s.validate (s.slotImage (Image.ofFile f))
    false = none) :=
  ⟨⟨(at0 [(.imgState, 2, 0, 0), (.secDebugOpen, 0, 0, 0), (.secScanOpen, 0, 0, 0)] []),
     by unfold State.reaches; decide +kernel⟩,
   ⟨(at0 [(.imgState, 4, 0, 0)] []), by unfold State.reaches; decide +kernel⟩,
   ⟨(at0 [(.imgState, 2, 0, 0), (.secDebugOpen, 0, 0, 0), (.secScanOpen, 0, 0, 0)] []),
     by unfold State.reaches; decide +kernel⟩,
   ⟨(at0 [(.imgState, 2, 0, 0)] []), by unfold State.reaches; decide +kernel⟩,
   ⟨gimg, ((fun s : State => { s with candidate := some gimg }) (at0 [(.imgState, 2, 0, 0), (.lrxState, 5, 3, 0),
     (.ltxState, 1, 3, 0), (.imgCandNew, 1, 0, 0)] [])), by unfold State.reaches; decide +kernel⟩,
   ⟨(at0 [(.imgState, 2, 0, 0)] []), by unfold State.reaches; decide +kernel⟩,
   ⟨3, gimg, ((fun s : State => { s with candidate := some gimg, running := some gimg }) (at0 [(.imgState, 2, 0, 0),
     (.lfrProfActive, 2, 3, 0)] [])), by unfold State.reaches; decide +kernel⟩,
   ⟨(at0 [(.imgState, 4, 0, 0), (.imgOpRun, 3, 0, 0), (.cdbImg, 0, 0, 0)] []), by unfold State.reaches; decide +kernel⟩,
   ⟨(at0 [(.imgState, 2, 0, 0)] []), by unfold State.reaches; decide +kernel⟩,
   ⟨9, 1, (at0 [(.imgState, 2, 0, 0)] []), by unfold State.reaches; decide +kernel⟩,
   ⟨gfile, (at0 [(.imgState, 3, 0, 0), (.imgOpRun, 1, 0, 0), (.cdbImg, 0, 0, 0), (.secKeyState, 1, 0, 0), (.secKeyFlags,
     1, 0, 0), (.secLcState, 2, 0, 0), (.secKeyPoint,
     593429243209225224490044936801021615494699966016384936694046706367828434873912688288778594944787153668630190482502472688723581863015693415079381094711155335440623232593224929953705436651625349568698961712001422460070809504763329239,
     0, 0), (.imgSlotBad, 0, 0, 0)] []), by decide +kernel⟩,
   ⟨⟨[], ⟨[], [], [], []⟩⟩, ⟨1, none, some 255, none⟩, ((fun s : State => { s with candidate := some gimg }) (at0
     [(.imgState, 3, 0, 0), (.imgOpRun, 1, 0, 0), (.cdbImg, 0, 0, 0), (.secKeyState, 0, 0, 0)] [])),
     by decide +kernel⟩,
   ⟨(at0 [(.imgState, 2, 0, 0)] []), by decide +kernel⟩,
   ⟨gfile, (at0 [(.imgState, 3, 0, 0), (.imgOpRun, 5, 0, 0), (.secKeyState, 1, 0, 0), (.secKeyFlags, 1, 0, 0),
     (.secLcState, 2, 0, 0), (.secKeyPoint,
     593429243209225224490044936801021615494699966016384936694046706367828434873912688288778594944787153668630190482502472688723581863015693415079381094711155335440623232593224929953705436651625349568698961712001422460070809504763329239,
     0, 0), (.imgSlotBad, 0, 0, 0)] []), by decide +kernel⟩⟩

/-- The hypotheses of every clause of `PartialCommitAndFlash` can be met. -/
theorem witness_PartialCommitAndFlash :
  (∃ s : State, (s.rd .imgState ≠ 4 ∨ s.on .imgPcIso = true)) ∧
  (∃ n : Lane, ∃ s : State, s.rd .imgState = 4 ∧ s.on .imgPcIso = false ∧ s.rd .imgPcLanes = 2 ^ n.val ∧ s.tests = []) ∧
  (∃ n : Lane, ∃ egress : Bool, ∃ s : State, s.rd .imgState = 4 ∧ s.on .imgPcIso = true ∧ s.rd .imgOpLead = n ∧
    s.warning = false ∧ egress = false ∧ s.maskBit .imgPcLanes n = true ∧ s.maskBit .imgPcP n = false) ∧
  (∃ n : Lane, ∃ egress : Bool, ∃ s : State, s.rd .imgState = 5 ∧ egress = true ∧ s.maskBit .imgPcLanes n = true ∧
    s.maskBit .imgPcQ n = false) ∧
  (∃ s : State, s.rd .imgState = 2) ∧
  (∃ i : Image, ∃ s : State, s.candidate = some i ∧ s.rd .imgState = 5 ∧ s.on .imgPcWritten = false ∧ s.rd .imgPcP =
    s.rd .imgPcLanes ∧ s.slots = [] ∧ s.on .thmCritWait = false ∧ s.on .thmStepWait = false ∧ (∀ n ∈ List.range 8,
    s.on .lrxFaultWait n = false) ∧ (∀ e ∈ List.range 128, s.rd .arcEngSt 0 e ≠ 4)) ∧
  (∃ s : State, s.candidate = none) ∧
  (∃ n : Lane, ∃ egress : Bool, ∃ s : State, egress = true ∧ s.maskBit .imgPcQ n = true ∧ s.maskBit .imgPcQEnd n =
    false ∧ s.on .imgPcWritten = true ∧ s.rd .ltxState n = 4) ∧
  (∃ n : Lane, ∃ egress : Bool, ∃ i : Image, ∃ s : State, egress = false ∧ s.rd .imgState = 5 ∧ s.on .imgPcWritten =
    true ∧ s.rd .imgPcLanes = 2 ^ n.val ∧ s.rd .imgPcP = 2 ^ n.val ∧ s.rd .imgPcPEnd = 0 ∧ s.running = some i ∧ s.rd
    .imgOpRun = 3 ∧ s.on .cdbImg = false ∧ i.records = [] ∧ i.fmtMajor = 4 ∧ s.rd .imgPcOldExt = 0) ∧
  (∃ s : State, s.reaches .img 0) ∧
  (∃ bootRecord : Bool, ∃ ok : Bool, ∃ s : State, bootRecord = true ∧ s.rd .imgState = 7 ∧ ok = true ∧ s.rd .imgOpSlot
    < 2 ∧ s.recordSeq + 1 < 2 ^ 32 ∧ s.running = none ∧ s.on .cdbImg = false) ∧
  (∃ bootRecord : Bool, ∃ ok : Bool, ∃ s : State, bootRecord = true ∧ s.rd .imgState = 7 ∧ ok = false ∧ s.running =
    none ∧ s.on .cdbImg = false ∧ s.rd .imgOpRun = 5) ∧
  (∃ bootRecord : Bool, ∃ s : State, bootRecord = false ∧ s.on .cdbFlash = true) ∧
  (∃ s : State, s.on .pwrDomMgmt = true ∧ s.on .mgtFwHalt = false ∧ s.on .mgtFwMissed = false) ∧
  (∃ s : State, s.on .pwrDomMgmt = true ∧ s.on .mgtFwHalt = false ∧ s.on .mgtFwMissed = true ∧ s.rd .mgtFwMissAt ≤
    s.now ∧ s.now - s.rd .mgtFwMissAt < 5000000000) ∧
  (∃ s : State, s.on .mgtFwDown = false) ∧
  (∃ bytes : List (BitVec 8), ∃ s : State, s.on .mgtFwDown = true ∧ s.running.any (fun i => i.firmware == sha384
    (bytes.map BitVec.toNat)) = true) ∧
  (∃ bytes : List (BitVec 8), ∃ s : State, s.on .mgtFwDown = true ∧ s.running.any (fun i => i.firmware == sha384
    (bytes.map BitVec.toNat)) = false) :=
  ⟨⟨(at0 [(.imgState, 2, 0, 0)] []), by decide +kernel⟩,
   ⟨3, (at0 [(.imgState, 4, 0, 0), (.imgPcIso, 0, 0, 0), (.imgPcLanes, 8, 0, 0)] []), by decide +kernel⟩,
   ⟨3, false, (at0 [(.imgState, 4, 0, 0), (.imgPcIso, 1, 0, 0), (.imgOpLead, 3, 0, 0), (.imgPcLanes, 8, 0, 0), (.imgPcP,
     0, 0, 0), (.pwrWarn, 0, 0, 0)] []), by decide +kernel⟩,
   ⟨3, true, (at0 [(.imgState, 5, 0, 0), (.imgPcLanes, 8, 0, 0), (.imgPcQ, 0, 0, 0)] []), by decide +kernel⟩,
   ⟨(at0 [(.imgState, 2, 0, 0)] []), by decide +kernel⟩,
   ⟨gimg, ((fun s : State => { s with candidate := some gimg }) (at0 [(.imgState, 5, 0, 0), (.imgPcP, 8, 0, 0),
     (.imgPcLanes, 8, 0, 0), (.imgPcWritten, 0, 0, 0)] [])), by decide +kernel⟩,
   ⟨(at0 [(.imgState, 5, 0, 0)] []), by decide +kernel⟩,
   ⟨3, true, (at0 [(.imgPcQ, 8, 0, 0), (.imgPcWritten, 1, 0, 0), (.ltxState, 4, 3, 0)] []), by decide +kernel⟩,
   ⟨3, false, gimg, ((fun s : State => { s with running := some gimg }) (at0 [(.imgState, 5, 0, 0), (.imgPcWritten, 1, 0,
     0), (.imgPcP, 8, 0, 0), (.imgPcLanes, 8, 0, 0), (.imgOpRun, 3, 0, 0), (.arcClIsolated, 1, 3, 0)] [])),
     by decide +kernel⟩,
   ⟨(at0 [(.imgPcCount, 5, 0, 0)] []), by unfold State.reaches; decide +kernel⟩,
   ⟨true, true, (at0 [(.imgState, 7, 0, 0), (.imgOpSlot, 1, 0, 0), (.imgOpRun, 5, 0, 0)] []), by decide +kernel⟩,
   ⟨true, false, (at0 [(.imgState, 7, 0, 0), (.imgOpSlot, 1, 0, 0), (.imgOpRun, 5, 0, 0)] []), by decide +kernel⟩,
   ⟨false, (at0 [(.cdbFlash, 1, 0, 0)] []), by decide +kernel⟩,
   ⟨(at0 [(.mgtFwHalt, 0, 0, 0), (.mgtFwMissed, 0, 0, 0)] []), by decide +kernel⟩,
   ⟨(at0 [(.mgtFwHalt, 0, 0, 0), (.mgtFwMissed, 1, 0, 0), (.mgtFwMissAt, 0, 0, 0)] []), by decide +kernel⟩,
   ⟨(at0 [(.mgtFwDown, 0, 0, 0)] []), by decide +kernel⟩,
   ⟨[], ((fun s : State => { s with running := some gimgD }) (at0 [(.mgtFwDown, 1, 0, 0)] [])), by decide +kernel⟩,
   ⟨[], (at0 [(.mgtFwDown, 1, 0, 0), (.lrxState, 5, 3, 0)] []), by decide +kernel⟩⟩

/-- The hypotheses of every clause of `StartUpSteps` can be met. -/
theorem witness_StartUpSteps :
  (∃ s : State, s.rd .glbSeqStep = 0) ∧
  (∃ s : State, s.rd .glbSeqStep ≠ 0) ∧
  (∃ s : State, (s.rd .pwrDevState ≠ 6 ∨ s.on .optGlbPuDone = true ∨ s.on .glbResetLow = true ∨ s.warning = true)) ∧
  (∃ l : NvmLoad, ∃ s : State, s.rd .pwrDevState = 6 ∧ s.on .optGlbPuDone = false ∧ s.on .glbResetLow = false ∧
    s.warning = false ∧ l.testMode = false ∧ s.on .pwrStartup = true ∧ s.rd .glbSeqStep ≤ 2 ∧ s.nvmGet .secLcState 0 0
    = s.nvmGet .secLcState 0 1 ∧ s.nvmGet .secLcState 0 0 < 8) ∧
  (∃ l : NvmLoad, ∃ s : State, s.rd .pwrDevState = 6 ∧ s.on .optGlbPuDone = false ∧ s.on .glbResetLow = false ∧
    s.warning = false ∧ l.testMode = false ∧ s.on .pwrStartup = false ∧ s.rd .glbSeqStep ≤ 2 ∧ s.nvmGet .secLcState 0
    0 = s.nvmGet .secLcState 0 1 ∧ s.nvmGet .secLcState 0 0 < 8) ∧
  (∃ s : State, (s.rd .pwrDevState ≠ 6 ∨ s.on .pwrSupplyWait = false ∨ s.on .clkRefOk = false)) ∧
  (∃ s : State, s.rd .pwrDevState = 6 ∧ s.on .pwrSupplyWait = true ∧ s.on .clkRefOk = true ∧ s.rd .pllState 4 = 0) ∧
  (∃ s : State, (s.rd .pwrDevState ≠ 6 ∨ s.on .pwrSupplyWait = false) ∧ (s.rd .pwrDevState ≠ 3 ∨ s.on .clkRefOk =
    true)) ∧
  (∃ s : State, s.rd .pwrDevState = 6 ∧ s.on .pwrSupplyWait = true ∧ s.rd .pwrWakeTries < 3) ∧
  (∃ s : State, s.rd .pwrDevState = 6 ∧ s.on .pwrSupplyWait = true ∧ 3 ≤ s.rd .pwrWakeTries) ∧
  (∃ s : State, s.rd .pwrDevState = 3 ∧ s.on .clkRefOk = false ∧ s.rd .pwrWakeTries < 3) ∧
  (∃ s : State, s.rd .pwrDevState = 3 ∧ s.on .clkRefOk = false ∧ 3 ≤ s.rd .pwrWakeTries) ∧
  (∃ s : State, s.on .pwrRegOffWait = true) ∧
  (∃ s : State, s.on .pwrRegOffWait = false) :=
  ⟨⟨(at0 [(.glbSeqStep, 0, 0, 0)] []), by decide +kernel⟩,
   ⟨(at0 [(.glbSeqStep, 1, 0, 0)] []), by decide +kernel⟩,
   ⟨(at0 [(.optGlbPuDone, 1, 0, 0)] []), by decide +kernel⟩,
   ⟨⟨true, true, true, 7#3, true, false, true, false⟩, (at0 [(.pwrDevState, 6, 0, 0), (.pwrStartup, 1, 0, 0),
     (.glbSeqStep, 1, 0, 0), (.glbResetLow, 0, 0, 0), (.pwrWarn, 0, 0, 0), (.optGlbPuDone, 0, 0, 0)] []),
     by decide +kernel⟩,
   ⟨⟨true, true, true, 7#3, true, false, true, false⟩, (at0 [(.pwrDevState, 6, 0, 0), (.pwrStartup, 0, 0, 0),
     (.glbSeqStep, 1, 0, 0), (.glbResetLow, 0, 0, 0), (.pwrWarn, 0, 0, 0), (.optGlbPuDone, 0, 0, 0)] []),
     by decide +kernel⟩,
   ⟨(at0 [(.pwrDevState, 0, 0, 0)] []), by decide +kernel⟩,
   ⟨(at0 [(.pwrDevState, 6, 0, 0), (.pwrSupplyWait, 1, 0, 0), (.clkRefOk, 1, 0, 0), (.pwrStartup, 1, 0, 0), (.pllState,
     0, 4, 0)] []), by decide +kernel⟩,
   ⟨(at0 [(.pwrDevState, 0, 0, 0)] []), by decide +kernel⟩,
   ⟨(at0 [(.pwrDevState, 6, 0, 0), (.pwrSupplyWait, 1, 0, 0), (.pwrWakeTries, 2, 0, 0)] []), by decide +kernel⟩,
   ⟨(at0 [(.pwrDevState, 6, 0, 0), (.pwrSupplyWait, 1, 0, 0), (.pwrWakeTries, 3, 0, 0), (.pwrStartup, 1, 0, 0)] []),
     by decide +kernel⟩,
   ⟨(at0 [(.pwrDevState, 3, 0, 0), (.clkRefOk, 0, 0, 0), (.pwrWakeTries, 2, 0, 0)] []), by decide +kernel⟩,
   ⟨(at0 [(.pwrDevState, 3, 0, 0), (.clkRefOk, 0, 0, 0), (.pwrWakeTries, 3, 0, 0)] []), by decide +kernel⟩,
   ⟨(at0 [(.pwrRegOffWait, 1, 0, 0)] []), by decide +kernel⟩,
   ⟨(at0 [(.pwrRegOffWait, 0, 0, 0)] []), by decide +kernel⟩⟩

/-- The hypotheses of every clause of `BootCommitAndLaneEnable` can be met. -/
theorem witness_BootCommitAndLaneEnable :
  (∃ s : State, s.imgRecord = none) ∧
  (∃ s : State, (s.rd .imgState ≠ 1 ∨ s.rd .glbBootStage ≠ 3)) ∧
  (∃ bytes : List (BitVec 8), ∃ recOk : Bool, ∃ i : Image, ∃ s : State, s.imgRecord = some i ∧ s.rd .imgState = 1 ∧
    s.rd .glbBootStage = 3 ∧ recOk = true ∧ sha384 ((bytes.take (i.imgLen - 128)).map BitVec.toNat) = i.digest) ∧
  (∃ bytes : List (BitVec 8), ∃ recOk : Bool, ∃ i : Image, ∃ s : State, s.imgRecord = some i ∧ s.rd .imgState = 1 ∧
    s.rd .glbBootStage = 3 ∧ recOk = true ∧ sha384 ((bytes.take (i.imgLen - 128)).map BitVec.toNat) ≠ i.digest) ∧
  (∃ recOk : Bool, ∃ s : State, s.imgRecord ≠ none ∧ s.rd .imgState = 1 ∧ s.rd .glbBootStage = 3 ∧ recOk = false) ∧
  (∃ s : State, (s.candidate = none ∨ ((s.rd .imgState ≠ 1 ∨ s.rd .glbBootStage ≠ 4 ∨ s.pllsSettled = false) ∧ (s.rd
    .imgState ≠ 6 ∨ (List.range 8).all s.txQuiet = false)))) ∧
  (∃ i : Image, ∃ s : State, s.candidate = some i ∧ s.rd .imgState = 1 ∧ s.rd .glbBootStage = 4 ∧ s.pllsSettled = true
    ∧ s.imgRecord = none) ∧
  (∃ i : Image, ∃ s : State, s.candidate = some i ∧ s.rd .imgState = 1 ∧ s.rd .glbBootStage = 4 ∧ s.pllsSettled = true
    ∧ s.imgRecord ≠ none ∧ s.standbyHeld = false ∧ s.on .pwrStandbySw = false ∧ s.rd .pwrRecImgSlot < 2) ∧
  (∃ i : Image, ∃ s : State, s.Inv ∧ s.candidate = some i ∧ s.rd .imgState = 6 ∧ (List.range 8).all s.txQuiet = true) ∧
  (∃ s : State, ((s.rd .glbBootStage ≠ 5 ∧ s.on .imgRestart = false) ∨ s.pllsSettled = false ∨ s.tests.all (fun t =>
    !s.bootTestOpen t) = false)) ∧
  (∃ s : State, s.rd .glbBootStage = 5 ∧ s.pllsSettled = true ∧ s.tests = [] ∧ s.standbyHeld = false ∧ s.on
    .pwrStandbySw = false ∧ (∀ n ∈ List.range 8, s.on .lrxHeldOff n = false)) ∧
  (∃ s : State, s.rd .glbBootStage = 5 ∧ s.pllsSettled = true ∧ s.tests = [] ∧ s.on .pwrLpmode = true ∧ s.on
    .pwrLpmodeEn = true) :=
  ⟨⟨(at0 [] []), by decide +kernel⟩,
   ⟨((fun s : State => { s with imgRecord := some timg }) (at0 [(.imgState, 2, 0, 0)] [])), by decide +kernel⟩,
   ⟨[], true, timgD, ((fun s : State => { s with imgRecord := some timgD }) (at0 [(.imgState, 1, 0, 0), (.glbBootStage,
     3, 0, 0)] [])), by decide +kernel⟩,
   ⟨[], true, timg, ((fun s : State => { s with imgRecord := some timg }) (at0 [(.imgState, 1, 0, 0), (.glbBootStage, 3,
     0, 0)] [])), by decide +kernel⟩,
   ⟨false, ((fun s : State => { s with imgRecord := some timgD }) (at0 [(.imgState, 1, 0, 0), (.glbBootStage, 3, 0, 0)]
     [])), by decide +kernel⟩,
   ⟨((fun s : State => { s with candidate := some timg }) (at0 [(.imgState, 2, 0, 0)] [])), by decide +kernel⟩,
   ⟨timg, ((fun s : State => { s with candidate := some timg }) (at0 [(.imgState, 1, 0, 0), (.glbBootStage, 4, 0, 0)]
     [])), by decide +kernel⟩,
   ⟨timg, ((fun s : State => { s with candidate := some timg, imgRecord := some timg }) (at0 [(.imgState, 1, 0, 0),
     (.glbBootStage, 4, 0, 0), (.pwrRecImgSlot, 1, 0, 0)] [])), by decide +kernel⟩,
   ⟨timg, ((fun s : State => { s with candidate := some timg }) (at0 [(.imgState, 6, 0, 0), (.imgOpSlot, 1, 0, 0),
     (.glbBootStage, 7, 0, 0)] [])), by unfold State.Inv State.shaped; decide +kernel⟩,
   ⟨(at0 [(.glbBootStage, 7, 0, 0)] []), by decide +kernel⟩,
   ⟨(at0 [(.glbBootStage, 5, 0, 0)] []), by decide +kernel⟩,
   ⟨(at0 [(.glbBootStage, 5, 0, 0), (.pwrLpmodeEn, 1, 0, 0), (.pwrLpmode, 1, 0, 0)] []), by decide +kernel⟩⟩

/-- The hypotheses of every clause of `RegisterFabric` can be met. -/
theorem witness_RegisterFabric :
  (∃ s : State, s.on .pwrDomMgmt = false) ∧
  (∃ s : State, s.on .pwrDomMgmt = false) ∧
  (∃ s : State, s.on .pwrDomMgmt = false) ∧
  (∃ s : State, s.on .pwrDomMgmt = false) ∧
  (∃ s : State, s.on .pwrDomMgmt = false) ∧
  (∃ s : State, s.on .pwrDomMgmt = false) ∧
  (∃ s : State, s.on .pwrDomMgmt = false) ∧
  (∃ s : State, s.on .pwrDomMgmt = false) ∧
  (∃ s : State, s.on .pwrDomMgmt = false) ∧
  (∃ s : State, s.on .pwrDomMgmt = true) ∧
  (∃ a : Word, ∃ s : State, s.on .pwrDomMgmt = true ∧ unmappedAt a.toNat = true) ∧
  (∃ a : Word, unmappedAt a.toNat = false) ∧
  (∃ a : Word, ∃ s : State, s.on .pwrDomMgmt = true ∧ unmappedAt a.toNat = true) ∧
  (∃ a : Word, ∃ s : State, s.on .pwrDomMgmt = true ∧ inCmis a.toNat = false ∧ inNvm a.toNat = true) ∧
  (∃ a : Word, ∃ r : Reg, ∃ s : State, s.on .pwrDomMgmt = true ∧ inCmis a.toNat = false ∧ inNvm a.toNat = false ∧
    regAt a.toNat = some r ∧ s.powered r.block r.inst = false) ∧
  (∃ a : Word, ∃ r : Reg, ∃ s : State, s.on .pwrDomMgmt = true ∧ regAt a.toNat = some r ∧ s.powered r.block r.inst =
    false) ∧
  (∃ a : Word, ∃ r : Reg, ∃ s : State, regAt a.toNat = some r ∧ s.powered r.block r.inst = true) ∧
  (∃ a : Word, regAt a.toNat = none) ∧
  (∃ a : Word, ∃ s : State, s.on .pwrDomMgmt = true ∧ a.toNat = 0x710004) ∧
  (∃ a : Word, ∃ w : Word, ∃ s : State, s.on .pwrDomMgmt = true ∧ a.toNat = 0x10044 ∧ 2 ^ 31 ≤ w.toNat ∧ s.on
    .glbStraitClr = false) ∧
  (∃ a : Word, ∃ w : Word, ∃ s : State, s.on .pwrDomMgmt = true ∧ a.toNat = 0x10044 ∧ w.toNat < 2 ^ 31) ∧
  (∃ a : Word, ∃ n : Lane, ∃ s : State, s.on .pwrDomMgmt = true ∧ s.powered .lrx n = true ∧ s.underTest 1 n = false ∧
    s.underTest 4 n = false ∧ a.toNat = 0x100010 + 0x10000 * n ∧ 1 ≤ s.rd .lrxState n) ∧
  (∃ a : Word, ∃ n : Lane, ∃ s : State, s.on .pwrDomMgmt = true ∧ s.powered .lrx n = true ∧ s.underTest 1 n = false ∧
    s.underTest 4 n = false ∧ a.toNat = 0x100010 + 0x10000 * n ∧ 1 ≤ s.rd .lrxState n) ∧
  (∃ a : Word, ∃ r : Reg, regAt a.toNat = some r ∧ r.slots.any (fun l => (presetOwner l.field).isSome) = false) ∧
  (∃ a : Word, ∃ n : Lane, ∃ s : State, s.Inv ∧ s.on .pwrDomMgmt = true ∧ s.powered .lrx n = true ∧ a.toNat = 0x1000F0
    + 0x10000 * n) ∧
  (∃ a : Word, ∃ r : Reg, regAt a.toNat = some r ∧ r.isStatus = false) ∧
  (∃ a : Word, ∃ n : Lane, ∃ s : State, s.Inv ∧ s.on .pwrDomMgmt = true ∧ s.powered .lrx n = true ∧ a.toNat = 0x1000F8
    + 0x10000 * n) ∧
  (∃ a : Word, regAt a.toNat = none) ∧
  (∃ a : Word, ∃ s : State, s.on .pwrDomMgmt = true ∧ s.on .pwrDomTime = true ∧ a.toNat = 0x400010) ∧
  (∃ a : Word, ∃ v : Nat, ∃ s : State, s.on .pwrDomMgmt = true ∧ s.on .pwrDomTime = true ∧ a.toNat = 0x400014 ∧ wordIn
    s.snaps 0x400014 = some v) ∧
  (∃ a : Word, ∃ s : State, s.on .pwrDomMgmt = true ∧ inCmis a.toNat = false ∧ inNvm a.toNat = false ∧ regAt a.toNat =
    none) ∧
  (∃ x : Bool, ∃ s : State, s.on .pwrDomMgmt = true ∧ x = false ∧ s.staged = []) ∧
  (∃ i : Fin 16, ∃ x : Bool, ∃ v : Word, ∃ s : State, s.on .pwrDomMgmt = true ∧ x = true ∧ s.staged = [(0x720100 + 8 *
    i.val, v.toNat)]) :=
  ⟨⟨(at0 [(.pwrDomMgmt, 0, 0, 0)] []), by decide +kernel⟩,
   ⟨(at0 [(.pwrDomMgmt, 0, 0, 0)] []), by decide +kernel⟩,
   ⟨(at0 [(.pwrDomMgmt, 0, 0, 0)] []), by decide +kernel⟩,
   ⟨(at0 [(.pwrDomMgmt, 0, 0, 0)] []), by decide +kernel⟩,
   ⟨(at0 [(.pwrDomMgmt, 0, 0, 0)] []), by decide +kernel⟩,
   ⟨(at0 [(.pwrDomMgmt, 0, 0, 0)] []), by decide +kernel⟩,
   ⟨(at0 [(.pwrDomMgmt, 0, 0, 0)] []), by decide +kernel⟩,
   ⟨(at0 [(.pwrDomMgmt, 0, 0, 0)] []), by decide +kernel⟩,
   ⟨(at0 [(.pwrDomMgmt, 0, 0, 0)] []), by decide +kernel⟩,
   ⟨(at0 [] []), by decide +kernel⟩,
   ⟨0x20000, (at0 [] []), by decide +kernel⟩,
   ⟨0x10004, by decide +kernel⟩,
   ⟨0x20000, (at0 [] []), by decide +kernel⟩,
   ⟨0xB00004, (at0 [] []), by decide +kernel⟩,
   ⟨0x130010, ⟨.lrx, 3, 0x10, 1, 0⟩, (at0 [(.pwrDomLane, 0, 0, 0), (.pllState, 0, 3, 0)] []), by decide +kernel⟩,
   ⟨0x130010, ⟨.lrx, 3, 0x10, 1, 0⟩, (at0 [(.pwrDomLane, 0, 0, 0), (.pllState, 0, 3, 0)] []), by decide +kernel⟩,
   ⟨0x130010, ⟨.lrx, 3, 0x10, 1, 0⟩, (at0 [] []), by decide +kernel⟩,
   ⟨0x20000, by decide +kernel⟩,
   ⟨0x710004, (at0 [(.secLcState, 1, 0, 0)] []), by decide +kernel⟩,
   ⟨0x10044, 0x80000000, (at0 [(.glbStraitOvfCount, 7, 0, 0)] []), by decide +kernel⟩,
   ⟨0x10044, 0x7FFFFFFF, (at0 [] []), by decide +kernel⟩,
   ⟨0x130010, 3, (at0 [(.lrxState, 5, 3, 0)] []), by decide +kernel⟩,
   ⟨0x130010, 3, (at0 [(.lrxState, 5, 3, 0)] []), by decide +kernel⟩,
   ⟨0x710004, ⟨.thm, 0, 4, 1, 0⟩, by decide +kernel⟩,
   ⟨0x1300F0, 3, (at0 [(.lrxIntStatus, 7, 3, 0)] []), by unfold State.Inv State.shaped; decide +kernel⟩,
   ⟨0x710004, ⟨.thm, 0, 4, 1, 0⟩, by decide +kernel⟩,
   ⟨0x1300F8, 3, (at0 [(.lrxIntStatus, 2, 3, 0)] []), by unfold State.Inv State.shaped; decide +kernel⟩,
   ⟨0x20000, by decide +kernel⟩,
   ⟨0x400010, (at0 [(.timTodValid, 1, 0, 0)] []), by decide +kernel⟩,
   ⟨0x400014, 77, ((fun s : State => { s with snaps := [(0x400014, 77)] }) (at0 [] [])), by decide +kernel⟩,
   ⟨0x20000, (at0 [] []), by decide +kernel⟩,
   ⟨false, (at0 [] []), by decide +kernel⟩,
   ⟨15, true, 1000, ((fun s : State => { s with staged := [(0x720178, 1000)] }) (at0 [(.hltWinOpen, 1, 15, 3)] [])),
     by decide +kernel⟩⟩

/-- The hypotheses of every clause of `HostBusAndI3c` can be met. -/
theorem witness_HostBusAndI3c :
  (∃ g : BitVec 7, ∃ s : State, g.toNat ≠ s.busAddr) ∧
  (∃ g : BitVec 7, ∃ s : State, g.toNat ≠ s.busAddr) ∧
  (∃ g : BitVec 7, ∃ s : State, g.toNat = s.busAddr ∧ s.on .pwrDomMgmt = false ∧ s.rd .pwrDevState ≠ 5) ∧
  (∃ g : BitVec 7, ∃ s : State, g.toNat = s.busAddr ∧ s.on .pwrDomMgmt = false ∧ s.rd .pwrDevState = 5 ∧ s.maskBit
    .pwrWakeEn 2 = true) ∧
  (∃ g : BitVec 7, ∃ s : State, g.toNat = s.busAddr ∧ s.on .pwrDomMgmt = true ∧ s.on .mgtFwDown = true) ∧
  (∃ g : BitVec 7, ∃ off : BitVec 8, ∃ d : List (BitVec 8), ∃ b : BitVec 8, ∃ p : BitVec 8, ∃ s : State, g.toNat =
    s.busAddr ∧ s.on .pwrDomMgmt = true ∧ s.on .mgtFwDown = false ∧ off = 126 ∧ d = [b, p]) ∧
  (∃ g : BitVec 7, ∃ off : BitVec 8, ∃ d : List (BitVec 8), ∃ s : State, g.toNat = s.busAddr ∧ s.on .pwrDomMgmt = true
    ∧ s.on .mgtFwDown = false ∧ s.rd .hbPage = 0xA0 ∧ 128 ≤ off.toNat ∧ off.toNat + d.length ≤ 256) ∧
  (∃ g : BitVec 7, ∃ off : BitVec 8, ∃ d : List (BitVec 8), ∃ v : BitVec 8, ∃ w : BitVec 8, ∃ s : State, g.toNat =
    s.busAddr ∧ s.on .pwrDomMgmt = true ∧ s.on .mgtFwDown = false ∧ s.rd .hbPage = 0xA0 ∧ off = 255 ∧ d = [v, w]) ∧
  (∃ g : BitVec 7, ∃ s : State, g.toNat = s.busAddr ∧ s.on .pwrDomMgmt = true) ∧
  (∃ b : BitVec 1, ∃ p : BitVec 8, ∃ s : State, (s.on .pwrDomMgmt = false ∨ s.on .mgtFwDown = true ∨ s.pageServed
    p.toNat = false ∨ devicePage p.toNat = true ∨ s.mcBuffer b.toNat p.toNat = none)) ∧
  (∃ b : BitVec 1, ∃ p : BitVec 8, ∃ off : BitVec 7, ∃ d : List (BitVec 8), ∃ m : Nat, ∃ s : State, s.on .pwrDomMgmt =
    true ∧ s.on .mgtFwDown = false ∧ s.pageServed p.toNat = true ∧ devicePage p.toNat = false ∧ s.mcBuffer b.toNat
    p.toNat = some m ∧ off.toNat + d.length ≤ 128) ∧
  (∃ s : State, s.on .pwrDomMgmt = true ∧ s.on .mgtI3cMode = false) ∧
  (∃ s : State, (s.on .pwrDomMgmt = false ∨ s.on .mgtI3cMode = true)) ∧
  (∃ g : BitVec 7, ∃ s : State, s.on .pwrDomMgmt = true ∧ g.toNat = s.rd .mgtHbAddr ∧ s.on .mgtI3cMode = false) ∧
  (∃ g : BitVec 7, ∃ s : State, s.on .pwrDomMgmt = true ∧ g.toNat = s.rd .hbDyn ∧ s.on .mgtI3cMode = true) ∧
  (∃ s : State, s.on .pwrDomMgmt = true) ∧
  (∃ g : BitVec 7, ∃ s : State, s.on .pwrDomMgmt = true ∧ g.toNat = s.rd .hbDyn ∧ s.on .mgtI3cMode = true) ∧
  (∃ g : BitVec 7, ∃ s : State, s.on .pwrDomMgmt = true ∧ g.toNat = s.rd .hbDyn ∧ s.on .mgtI3cMode = true) ∧
  (∃ g : BitVec 7, ∃ s : State, s.on .pwrDomMgmt = true ∧ g.toNat = s.rd .hbDyn ∧ s.on .mgtI3cMode = true) ∧
  (∃ g : BitVec 7, ∃ s : State, s.on .pwrDomMgmt = true ∧ g.toNat = s.rd .hbDyn ∧ s.on .mgtI3cMode = true) ∧
  (∃ g : BitVec 7, ∃ s : State, s.on .pwrDomMgmt = true ∧ g.toNat = s.rd .hbDyn ∧ s.on .mgtI3cMode = true) ∧
  (∃ g : BitVec 7, ∃ s : State, s.on .pwrDomMgmt = true ∧ g.toNat = s.rd .hbDyn ∧ s.on .mgtI3cMode = true) ∧
  (∃ g : BitVec 7, ∃ s : State, s.on .pwrDomMgmt = true ∧ g.toNat = s.rd .hbDyn ∧ s.on .mgtI3cMode = true) ∧
  (∃ g : BitVec 7, ∃ s : State, s.on .pwrDomMgmt = true ∧ g.toNat = s.rd .hbDyn ∧ s.on .mgtI3cMode = true) ∧
  (∃ g : BitVec 7, ∃ s : State, s.on .pwrDomMgmt = true ∧ g.toNat = s.busAddr ∧ s.on .mgtI3cMode = false) ∧
  (∃ g : BitVec 7, ∃ s : State, s.on .pwrDomMgmt = true ∧ g.toNat = s.busAddr ∧ s.on .mgtI3cMode = false) ∧
  (∃ g : BitVec 7, ∃ s : State, s.on .pwrDomMgmt = true ∧ g.toNat = s.busAddr ∧ s.on .mgtI3cMode = false) ∧
  (∃ g : BitVec 7, ∃ s : State, s.on .pwrDomMgmt = true ∧ g.toNat = s.busAddr ∧ s.on .mgtI3cMode = false) :=
  ⟨⟨0x51, (at0 [(.mgtI3cMode, 0, 0, 0), (.mgtHbAddr, 80, 0, 0)] []), by decide +kernel⟩,
   ⟨0x51, (at0 [(.mgtI3cMode, 0, 0, 0), (.mgtHbAddr, 80, 0, 0)] []), by decide +kernel⟩,
   ⟨0x50, (at0 [(.mgtI3cMode, 0, 0, 0), (.mgtHbAddr, 80, 0, 0), (.pwrDomMgmt, 0, 0, 0), (.pwrDevState, 0, 0, 0)] []),
     by decide +kernel⟩,
   ⟨0x50, (at0 [(.mgtI3cMode, 0, 0, 0), (.mgtHbAddr, 80, 0, 0), (.pwrDomMgmt, 0, 0, 0), (.pwrDevState, 5, 0, 0),
     (.pwrWakeEn, 255, 0, 0)] []), by decide +kernel⟩,
   ⟨0x50, (at0 [(.mgtI3cMode, 0, 0, 0), (.mgtHbAddr, 80, 0, 0), (.mgtFwDown, 1, 0, 0)] []), by decide +kernel⟩,
   ⟨0x50, 126, [1, 0x11], 1, 0x11, (at0 [(.mgtI3cMode, 0, 0, 0), (.mgtHbAddr, 80, 0, 0), (.mgtFwDown, 0, 0, 0)] []),
     by decide +kernel⟩,
   ⟨0x50, 0xFE, [7, 9], (at0 [(.mgtI3cMode, 0, 0, 0), (.mgtHbAddr, 80, 0, 0), (.mgtFwDown, 0, 0, 0), (.hbPage, 0xA0, 0,
     0)] []), by decide +kernel⟩,
   ⟨0x50, 0xFF, [7, 9], 7, 9, (at0 [(.mgtI3cMode, 0, 0, 0), (.mgtHbAddr, 80, 0, 0), (.mgtFwDown, 0, 0, 0), (.hbPage,
     0xA0, 0, 0)] []), by decide +kernel⟩,
   ⟨0x50, (at0 [(.mgtI3cMode, 0, 0, 0), (.mgtHbAddr, 80, 0, 0), (.hbPage, 0xA0, 0, 0)] []), by decide +kernel⟩,
   ⟨0, 0x10, (at0 [] []), by decide +kernel⟩,
   ⟨1, 0x21, 126, [5, 6], 4, (at0 [(.mgtFwDown, 0, 0, 0), (.mgtModMonMcPresent, 1, 0, 0), (.mgtMcPageValid, 1, 0, 4),
     (.mgtMcPagePage, 0x21, 0, 4), (.mgtMcPageBank, 1, 0, 4), (.mgtRomFw, 0, 0, 0)] []), by decide +kernel⟩,
   ⟨(at0 [(.mgtI3cMode, 0, 0, 0)] []), by decide +kernel⟩,
   ⟨(at0 [(.mgtI3cMode, 1, 0, 0)] []), by decide +kernel⟩,
   ⟨80, (at0 [(.mgtI3cMode, 0, 0, 0), (.mgtHbAddr, 80, 0, 0)] []), by decide +kernel⟩,
   ⟨9, (at0 [(.hbDyn, 9, 0, 0), (.mgtI3cMode, 1, 0, 0)] []), by decide +kernel⟩,
   ⟨(at0 [(.mgtI3cMode, 1, 0, 0), (.hbDyn, 9, 0, 0)] []), by decide +kernel⟩,
   ⟨9, (at0 [(.hbDyn, 9, 0, 0), (.mgtI3cMode, 1, 0, 0)] []), by decide +kernel⟩,
   ⟨9, (at0 [(.hbDyn, 9, 0, 0), (.mgtI3cMode, 1, 0, 0)] []), by decide +kernel⟩,
   ⟨9, (at0 [(.hbDyn, 9, 0, 0), (.mgtI3cMode, 1, 0, 0)] []), by decide +kernel⟩,
   ⟨9, (at0 [(.hbDyn, 9, 0, 0), (.mgtI3cMode, 1, 0, 0)] []), by decide +kernel⟩,
   ⟨9, (at0 [(.hbDyn, 9, 0, 0), (.mgtI3cMode, 1, 0, 0), (.hbMwl, 128, 0, 0)] []), by decide +kernel⟩,
   ⟨9, (at0 [(.hbDyn, 9, 0, 0), (.mgtI3cMode, 1, 0, 0), (.hbMrl, 256, 0, 0)] []), by decide +kernel⟩,
   ⟨9, (at0 [(.hbDyn, 9, 0, 0), (.mgtI3cMode, 1, 0, 0)] []), by decide +kernel⟩,
   ⟨9, (at0 [(.hbDyn, 9, 0, 0), (.mgtI3cMode, 1, 0, 0)] []), by decide +kernel⟩,
   ⟨80, (at0 [(.mgtI3cMode, 0, 0, 0), (.mgtHbAddr, 80, 0, 0)] []), by decide +kernel⟩,
   ⟨80, (at0 [(.mgtI3cMode, 0, 0, 0), (.mgtHbAddr, 80, 0, 0)] []), by decide +kernel⟩,
   ⟨80, (at0 [(.mgtI3cMode, 0, 0, 0), (.mgtHbAddr, 80, 0, 0)] []), by decide +kernel⟩,
   ⟨80, (at0 [(.mgtI3cMode, 0, 0, 0), (.mgtHbAddr, 80, 0, 0)] []), by decide +kernel⟩⟩

/-- The hypotheses of every clause of `WindowSpiAndControls` can be met. -/
theorem witness_WindowSpiAndControls :
  (∃ s : State, (s.fwUp = false ∨ s.winCode ≠ 1)) ∧
  (∃ s : State, s.fwUp = true ∧ s.winCode = 1 ∧ deniedAt s.winAddr = true) ∧
  (∃ s : State, s.Inv ∧ s.fwUp = true ∧ s.winCode = 1 ∧ s.winAddr = 0x10004 ∧ s.pages.get 0x5808 = 0x81) ∧
  (∃ s : State, (s.fwUp = false ∨ s.winCode ≠ 2)) ∧
  (∃ s : State, s.fwUp = true ∧ s.winCode = 2 ∧ deniedAt s.winAddr = true) ∧
  (∃ s : State, s.fwUp = true ∧ s.winCode = 2 ∧ s.winAddr = 0x7100E0) ∧
  (∃ s : State, s.on .pwrDomMgmt = false ∧ s.rd .pwrDevState ≠ 5) ∧
  (∃ a : Word, ∃ d : List (BitVec 8), ∃ v : Word, ∃ w : Word, ∃ s : State, s.on .pwrDomMgmt = true ∧ a = 0x71000C ∧
    wholeWords (d.map BitVec.toNat) = [v.toNat, w.toNat]) ∧
  (∃ a : Word, ∃ k : BitVec 10, ∃ s : State, s.on .pwrDomMgmt = true ∧ a = 0x808000 ∧ k = 2 ∧ s.evf = []) ∧
  (∃ a : Word, ∃ k : BitVec 10, ∃ u : Nat, ∃ v : Nat, ∃ x : Nat, ∃ s : State, s.on .pwrDomMgmt = true ∧ a = 0x808000 ∧
    k = 2 ∧ s.evf = [u, v, x] ∧ s.on .evfXoff = false) ∧
  (∃ s : State, s.on .pwrDomMgmt = true) ∧
  (∃ s : State, s.fwUp = false) ∧
  (∃ x : CmisControl, ∃ b : Bool, ∃ s : State, s.fwUp = true ∧ x = .lowPwrAllowHw b ∧ s.on .pwrLpmode = false) ∧
  (∃ x : CmisControl, ∃ n : Lane, ∃ v : BitVec 3, ∃ s : State, s.fwUp = true ∧ x = .linePattern n v ∧ s.powered .ltx n
    = true ∧ s.rd .ltxState n = 0) ∧
  (∃ x : CmisControl, ∃ h : HostLane, ∃ v : BitVec 3, ∃ w : BitVec 3, ∃ s : State, s.fwUp = true ∧ x = .hostPattern h
    v w ∧ s.powered .hif h = true) ∧
  (∃ s : State, s.fwUp = false) ∧
  (∃ s : State, s.fwUp = true ∧ s.rd .glbSeqStep < 11) ∧
  (∃ n : Lane, ∃ v : Bool, ∃ s : State, s.fwUp = true ∧ 11 ≤ s.rd .glbSeqStep ∧ v = true ∧ s.powered .lrx n = true ∧
    s.underTest 1 n = false ∧ s.underTest 4 n = false ∧ s.rd .ltxState n = 0) ∧
  (∃ n : Lane, ∃ v : Bool, ∃ s : State, s.fwUp = true ∧ 11 ≤ s.rd .glbSeqStep ∧ v = false ∧ s.on .lrxHeldOff n = false
    ∧ s.powered .lrx n = true ∧ s.underTest 1 n = false ∧ s.underTest 4 n = false ∧ s.rd .lrxState n = 0) ∧
  (∃ n : Lane, ∃ x : ControlSet, ∃ s : State, s.fwUp = true ∧ s.powered .lrx n = true ∧ s.underTest 1 n = false ∧
    s.underTest 4 n = false ∧ s.rd .lrxState n = 0 ∧ s.rd .ltxState n = 0 ∧ x.txEn = false) ∧
  (∃ s : State, s.fwUp = false) ∧
  (∃ v : Bool, ∃ s : State, s.fwUp = true ∧ s.rd .pwrStandbySw = bit v) ∧
  (∃ v : Bool, ∃ s : State, s.fwUp = true ∧ v = true ∧ s.rd .pwrStandbySw = 0) ∧
  (∃ s : State, s.mbxIn = []) ∧
  (∃ tag : Nat, ∃ s : State, s.Inv ∧ s.mbxIn = [[2 + 2 * 2 ^ 8 + 16 * 2 ^ 16, tag, 0x10004, 1]] ∧ tag < 65536 ∧ s.fwUp
    = true ∧ s.maskBit .secNvmBusy 2 = false ∧ s.mbxOut = []) ∧
  (∃ tag : Nat, ∃ s : State, s.mbxIn = [[2 + 2 * 2 ^ 8 + 16 * 2 ^ 16, tag, 0x900010, 1]] ∧ tag < 65536 ∧ s.fwUp = true
    ∧ s.maskBit .secNvmBusy 2 = false ∧ s.mbxOut = []) ∧
  (∃ s : State, s.mbxIn = []) ∧
  (∃ tag : Nat, ∃ w : Nat, ∃ s : State, s.mbxIn = [[2 + 3 * 2 ^ 8 + 20 * 2 ^ 16, tag, 0x7100E0, 1, w]] ∧ tag < 65536 ∧
    w < 2 ^ 32 ∧ s.fwUp = true ∧ s.maskBit .secNvmBusy 2 = false ∧ s.mbxOut = []) ∧
  (∃ tag : Nat, ∃ w : Nat, ∃ s : State, s.mbxIn = [[2 + 3 * 2 ^ 8 + 20 * 2 ^ 16, tag, 0x900010, 1, w]] ∧ tag < 65536 ∧
    s.fwUp = true ∧ s.maskBit .secNvmBusy 2 = false ∧ s.mbxOut = []) :=
  ⟨⟨(at0 [(.mgtRomFw, 0, 0, 0), (.mgtFwDown, 0, 0, 0), (.mgtFwHalt, 0, 0, 0)] []), by decide +kernel⟩,
   ⟨((fun s : State => { s with pages := ((s.pages.setMany 0x5800 (bytesOf 0x900010)).set 0x5808 1) }) (at0 [(.mgtRomFw,
     0, 0, 0), (.mgtFwDown, 0, 0, 0), (.mgtFwHalt, 0, 0, 0)] [])), by decide +kernel⟩,
   ⟨((fun s : State => { s with pages := ((s.pages.setMany 0x5800 (bytesOf 0x10004)).set 0x5808 0x81) }) (at0
     [(.mgtRomFw, 0, 0, 0), (.mgtFwDown, 0, 0, 0), (.mgtFwHalt, 0, 0, 0), (.glbStepMajor, 2, 0, 0), (.glbStepMinor, 1,
     0, 0), (.glbPart, 0x3208, 0, 0)] [])), by unfold State.Inv State.shaped; decide +kernel⟩,
   ⟨(at0 [(.mgtRomFw, 0, 0, 0), (.mgtFwDown, 0, 0, 0), (.mgtFwHalt, 0, 0, 0)] []), by decide +kernel⟩,
   ⟨((fun s : State => { s with pages := ((s.pages.setMany 0x5800 (bytesOf 0x900010)).set 0x5808 2) }) (at0 [(.mgtRomFw,
     0, 0, 0), (.mgtFwDown, 0, 0, 0), (.mgtFwHalt, 0, 0, 0)] [])), by decide +kernel⟩,
   ⟨((fun s : State =>
     { s with pages := ((s.pages.setMany 0x5800 (bytesOf 0x7100E0)).setMany 0x5804 (bytesOf 0x155)).set 0x5808 2 })
     (at0 [(.mgtRomFw, 0, 0, 0), (.mgtFwDown, 0, 0, 0), (.mgtFwHalt, 0, 0, 0)] [])), by decide +kernel⟩,
   ⟨(at0 [(.pwrDomMgmt, 0, 0, 0), (.pwrDevState, 0, 0, 0)] []), by decide +kernel⟩,
   ⟨0x71000C, [0, 1, 0x60, 0, 0x6A, 3, 0, 0, 5], 0x600100, 0x36A, (at0 [] []), by decide +kernel⟩,
   ⟨0x808000, 2, (at0 [] []), by decide +kernel⟩,
   ⟨0x808000, 2, 5, 6, 8, ((fun s : State => { s with evf := [5, 6, 8] }) (at0 [(.evfXoff, 0, 0, 0)] [])),
     by decide +kernel⟩,
   ⟨(at0 [(.mgtIntStatus, 0, 0, 0)] []), by decide +kernel⟩,
   ⟨(at0 [(.mgtFwHalt, 1, 0, 0)] []), by decide +kernel⟩,
   ⟨.lowPwrAllowHw true, true, (at0 [(.pwrLpmode, 0, 0, 0), (.mgtRomFw, 0, 0, 0), (.mgtFwDown, 0, 0, 0), (.mgtFwHalt, 0,
     0, 0)] []), by decide +kernel⟩,
   ⟨.linePattern 3 5, 3, 5, (at0 [(.ltxState, 0, 3, 0), (.mgtRomFw, 0, 0, 0), (.mgtFwDown, 0, 0, 0), (.mgtFwHalt, 0, 0,
     0)] []), by decide +kernel⟩,
   ⟨.hostPattern 9 3 2, 9, 3, 2, (at0 [(.mgtRomFw, 0, 0, 0), (.mgtFwDown, 0, 0, 0), (.mgtFwHalt, 0, 0, 0)] []),
     by decide +kernel⟩,
   ⟨(at0 [(.mgtFwHalt, 1, 0, 0)] []), by decide +kernel⟩,
   ⟨(at0 [(.glbSeqStep, 10, 0, 0), (.mgtRomFw, 0, 0, 0), (.mgtFwDown, 0, 0, 0), (.mgtFwHalt, 0, 0, 0)] []),
     by decide +kernel⟩,
   ⟨3, true, (at0 [(.glbSeqStep, 11, 0, 0), (.lrxState, 5, 3, 0), (.lrxEnable, 1, 3, 0), (.ltxTxEn, 1, 3, 0), (.mgtRomFw,
     0, 0, 0), (.mgtFwDown, 0, 0, 0), (.mgtFwHalt, 0, 0, 0)] []), by decide +kernel⟩,
   ⟨3, false, (at0 [(.glbSeqStep, 11, 0, 0), (.mgtRomFw, 0, 0, 0), (.mgtFwDown, 0, 0, 0), (.mgtFwHalt, 0, 0, 0)] []),
     by decide +kernel⟩,
   ⟨3, ⟨1, 2, 1, 2, false, true, false, false⟩, (at0 [(.mgtRomFw, 0, 0, 0), (.mgtFwDown, 0, 0, 0), (.mgtFwHalt, 0, 0, 0)]
     []), by decide +kernel⟩,
   ⟨(at0 [(.mgtFwHalt, 1, 0, 0)] []), by decide +kernel⟩,
   ⟨true, (at0 [(.pwrStandbySw, 1, 0, 0), (.mgtRomFw, 0, 0, 0), (.mgtFwDown, 0, 0, 0), (.mgtFwHalt, 0, 0, 0)] []),
     by decide +kernel⟩,
   ⟨true, (at0 [(.pwrStandbySw, 0, 0, 0), (.mgtRomFw, 0, 0, 0), (.mgtFwDown, 0, 0, 0), (.mgtFwHalt, 0, 0, 0)] []),
     by decide +kernel⟩,
   ⟨(at0 [(.hbMwl, 1, 0, 0)] []), by decide +kernel⟩,
   ⟨7, ((fun s : State => { s with mbxIn := [[2 + 2 * 2 ^ 8 + 16 * 2 ^ 16, 7, 0x10004, 1]] }) (at0 [(.glbStepMajor, 2, 0,
     0), (.glbStepMinor, 1, 0, 0), (.glbPart, 0x3208, 0, 0), (.mgtRomFw, 0, 0, 0), (.mgtFwDown, 0, 0, 0), (.mgtFwHalt,
     0, 0, 0), (.secNvmBusy, 0, 0, 0)] [])), by unfold State.Inv State.shaped; decide +kernel⟩,
   ⟨7, ((fun s : State => { s with mbxIn := [[2 + 2 * 2 ^ 8 + 16 * 2 ^ 16, 7, 0x900010, 1]] }) (at0 [(.mgtRomFw, 0, 0,
     0), (.mgtFwDown, 0, 0, 0), (.mgtFwHalt, 0, 0, 0), (.secNvmBusy, 0, 0, 0)] [])), by decide +kernel⟩,
   ⟨(at0 [(.hbMwl, 1, 0, 0)] []), by decide +kernel⟩,
   ⟨7, 0x150, ((fun s : State => { s with mbxIn := [[2 + 3 * 2 ^ 8 + 20 * 2 ^ 16, 7, 0x7100E0, 1, 0x150]] }) (at0
     [(.mgtRomFw, 0, 0, 0), (.mgtFwDown, 0, 0, 0), (.mgtFwHalt, 0, 0, 0), (.secNvmBusy, 0, 0, 0)] [])),
     by decide +kernel⟩,
   ⟨7, 5, ((fun s : State => { s with mbxIn := [[2 + 3 * 2 ^ 8 + 20 * 2 ^ 16, 7, 0x900010, 1, 5]] }) (at0 [(.mgtRomFw, 0,
     0, 0), (.mgtFwDown, 0, 0, 0), (.mgtFwHalt, 0, 0, 0), (.secNvmBusy, 0, 0, 0)] [])), by decide +kernel⟩⟩

/-- The hypotheses of every clause of `CdbCommands` can be met. -/
theorem witness_CdbCommands :
  (∃ s : State, s.on .pwrDomMgmt = true ∧ s.on .mgtFwDown = false ∧ s.on .mgtFwHalt = false) ∧
  (∃ pw : Word, ∃ s : State, s.on .pwrDomMgmt = true ∧ s.on .mgtFwDown = false ∧ s.on .mgtFwHalt = false ∧ s.rd
    .cdbStatus ≠ 0x83 ∧ s.on .mgtRomFw = false ∧ s.on .secSecretIn = true ∧ s.nvmGet .secPwSet = 1 ∧ s.nvmGet
    .secPassword = s.passwordMac pw.toNat) ∧
  (∃ pw : Word, ∃ s : State, s.on .pwrDomMgmt = true ∧ s.on .mgtFwDown = false ∧ s.on .mgtFwHalt = false ∧ s.rd
    .cdbStatus ≠ 0x83 ∧ s.on .mgtRomFw = false ∧ (s.on .secSecretIn = false ∨ s.nvmGet .secPwSet ≠ 1 ∨ s.nvmGet
    .secPassword ≠ s.passwordMac pw.toNat)) ∧
  (∃ s : State, s.on .pwrDomMgmt = true ∧ s.on .mgtFwDown = false ∧ s.on .mgtFwHalt = false ∧ s.rd .cdbStatus ≠ 0x83 ∧
    s.on .mgtRomFw = false ∧ s.on .secSecretClosed = true) ∧
  (∃ s : State, s.on .pwrDomMgmt = true ∧ s.on .mgtFwDown = false ∧ s.on .mgtFwHalt = false ∧ s.rd .cdbStatus ≠ 0x83 ∧
    s.on .mgtRomFw = false ∧ s.on .secSecretClosed = false) ∧
  (∃ s : State, s.on .pwrDomMgmt = true ∧ s.on .mgtFwDown = false ∧ s.on .cdbFlash = true) ∧
  (∃ s : State, s.on .cdbFlash = false) ∧
  (∃ s : State, s.on .pwrDomMgmt = true ∧ s.on .mgtFwDown = false ∧ s.on .mgtFwHalt = false ∧ s.rd .cdbStatus ≠ 0x83 ∧
    s.on .mgtRomFw = false) ∧
  (∃ s : State, s.on .pwrDomMgmt = true ∧ s.on .mgtFwDown = false ∧ s.on .mgtFwHalt = false ∧ s.rd .cdbStatus ≠ 0x83 ∧
    s.on .mgtRomFw = false) ∧
  (∃ s : State, s.on .pwrDomMgmt = true ∧ s.on .mgtFwDown = false ∧ s.on .mgtFwHalt = false ∧ s.rd .cdbStatus ≠ 0x83 ∧
    s.on .mgtRomFw = false) ∧
  (∃ v : Word, ∃ s : State, s.on .pwrDomMgmt = true ∧ s.on .mgtFwDown = false ∧ s.on .mgtFwHalt = false ∧ s.rd
    .cdbStatus ≠ 0x83 ∧ s.on .mgtRomFw = false ∧ s.on .cdbPwReq = false ∧ s.rd .secLcState ≠ 4 ∧ v.toNat ≤ slotBytes) ∧
  (∃ v : Word, ∃ s : State, s.on .pwrDomMgmt = true ∧ s.on .mgtFwDown = false ∧ s.on .mgtFwHalt = false ∧ s.rd
    .cdbStatus ≠ 0x83 ∧ s.on .mgtRomFw = false ∧ s.on .cdbPwReq = false ∧ s.rd .secLcState ≠ 4 ∧ slotBytes < v.toNat) ∧
  (∃ s : State, s.on .pwrDomMgmt = true ∧ s.on .mgtFwDown = false ∧ s.on .mgtFwHalt = false ∧ s.rd .cdbStatus ≠ 0x83 ∧
    s.on .mgtRomFw = false ∧ s.on .cdbPwReq = true ∧ s.on .cdbPwOk = false) ∧
  (∃ s : State, s.on .pwrDomMgmt = true ∧ s.on .mgtFwDown = false ∧ s.on .mgtFwHalt = false ∧ s.rd .cdbStatus ≠ 0x83 ∧
    s.on .mgtRomFw = false ∧ s.on .cdbPwReq = false ∧ s.on .cdbDlOpen = true) ∧
  (∃ o : Word, ∃ k : BitVec 8, ∃ s : State, s.on .pwrDomMgmt = true ∧ s.on .mgtFwDown = false ∧ s.on .mgtFwHalt =
    false ∧ s.rd .cdbStatus ≠ 0x83 ∧ s.on .mgtRomFw = false ∧ s.on .cdbPwReq = false ∧ s.on .cdbDlOpen = true ∧ 1 ≤
    k.toNat ∧ k.toNat ≤ 116 ∧ o.toNat + k.toNat ≤ slotBytes) ∧
  (∃ o : Word, ∃ k : BitVec 8, ∃ s : State, s.on .pwrDomMgmt = true ∧ s.on .mgtFwDown = false ∧ s.on .mgtFwHalt =
    false ∧ s.rd .cdbStatus ≠ 0x83 ∧ s.on .mgtRomFw = false ∧ s.on .cdbPwReq = false ∧ s.on .cdbDlOpen = true ∧ (116 <
    k.toNat ∨ slotBytes < o.toNat + k.toNat)) ∧
  (∃ s : State, s.on .pwrDomMgmt = true ∧ s.on .mgtFwDown = false ∧ s.on .mgtFwHalt = false ∧ s.rd .cdbStatus ≠ 0x83 ∧
    s.on .mgtRomFw = false ∧ s.on .cdbPwReq = false ∧ s.on .cdbDlOpen = false) ∧
  (∃ o : Word, ∃ k : BitVec 12, ∃ s : State, s.on .pwrDomMgmt = true ∧ s.on .mgtFwDown = false ∧ s.on .mgtFwHalt =
    false ∧ s.rd .cdbStatus ≠ 0x83 ∧ s.on .mgtRomFw = false ∧ s.on .cdbPwReq = false ∧ s.on .cdbDlOpen = true ∧ 1 ≤
    k.toNat ∧ k.toNat ≤ 2048 ∧ o.toNat + k.toNat ≤ slotBytes) ∧
  (∃ o : Word, ∃ k : BitVec 12, ∃ s : State, s.on .pwrDomMgmt = true ∧ s.on .mgtFwDown = false ∧ s.on .mgtFwHalt =
    false ∧ s.rd .cdbStatus ≠ 0x83 ∧ s.on .mgtRomFw = false ∧ s.on .cdbPwReq = false ∧ s.on .cdbDlOpen = true ∧ (2048
    < k.toNat ∨ slotBytes < o.toNat + k.toNat)) ∧
  (∃ s : State, s.on .pwrDomMgmt = true ∧ s.on .mgtFwDown = false ∧ s.on .mgtFwHalt = false ∧ s.rd .cdbStatus ≠ 0x83 ∧
    s.on .mgtRomFw = false ∧ s.on .cdbPwReq = false ∧ s.on .cdbDlOpen = false) ∧
  (∃ s : State, s.on .pwrDomMgmt = true ∧ s.on .mgtFwDown = false ∧ s.on .mgtFwHalt = false ∧ s.rd .cdbStatus ≠ 0x83 ∧
    s.on .mgtRomFw = false ∧ s.on .cdbPwReq = false ∧ s.on .cdbDlOpen = true ∧ s.rd .imgState = 2 ∧ s.secOpen = false
    ∧ s.rd .cdbDlSlot < 2) ∧
  (∃ s : State, s.on .pwrDomMgmt = true ∧ s.on .mgtFwDown = false ∧ s.on .mgtFwHalt = false ∧ s.rd .cdbStatus ≠ 0x83 ∧
    s.on .mgtRomFw = false ∧ s.on .cdbPwReq = false ∧ s.on .cdbDlOpen = false) ∧
  (∃ s : State, s.on .pwrDomMgmt = true ∧ s.on .mgtFwDown = false ∧ s.on .mgtFwHalt = false ∧ s.rd .cdbStatus ≠ 0x83 ∧
    s.on .mgtRomFw = false ∧ s.on .cdbPwReq = false ∧ s.rd .imgState = 2 ∧ (s.candidate = none ∨ (s.running = none ∧
    s.on .imgCandNew = false)) ∧ s.rd .imgCandidateSlot < 2) ∧
  (∃ i : Image, ∃ s : State, s.on .pwrDomMgmt = true ∧ s.on .mgtFwDown = false ∧ s.on .mgtFwHalt = false ∧ s.rd
    .cdbStatus ≠ 0x83 ∧ s.on .mgtRomFw = false ∧ s.on .cdbPwReq = false ∧ s.rd .imgState = 2 ∧ s.candidate = some i ∧
    (s.running ≠ none ∨ s.on .imgCandNew = true) ∧ s.rd .imgCandidateSlot < 2) ∧
  (∃ s : State, s.Inv ∧ s.on .pwrDomMgmt = true ∧ s.on .mgtFwDown = false ∧ s.on .mgtFwHalt = false ∧ s.rd .cdbStatus
    ≠ 0x83 ∧ s.on .mgtRomFw = false ∧ s.on .cdbPwReq = false ∧ s.rd .imgState = 2 ∧ s.secOpen = false) ∧
  (∃ s : State, s.on .pwrDomMgmt = true ∧ s.on .mgtFwDown = false ∧ s.on .mgtFwHalt = false ∧ s.rd .cdbStatus ≠ 0x83 ∧
    s.on .mgtRomFw = false ∧ s.on .cdbPwReq = false ∧ s.rd .imgState = 2 ∧ s.candidate = none ∧ s.rd .imgCandidateSlot
    < 2) ∧
  (∃ n : Lane, ∃ q : List Int, ∃ s : State, s.on .pwrDomMgmt = true ∧ s.on .mgtFwDown = false ∧ s.on .mgtFwHalt =
    false ∧ s.rd .cdbStatus ≠ 0x83 ∧ s.on .mgtRomFw = false ∧ q.length = 9 ∧ 3 ≤ s.rd .lrxState n ∧ s.rd .lrxState n ≤
    5 ∧ s.rd .lfrTxType n = 0) ∧
  (∃ n : Lane, ∃ q : List Int, ∃ s : State, s.on .pwrDomMgmt = true ∧ s.on .mgtFwDown = false ∧ s.on .mgtFwHalt =
    false ∧ s.rd .cdbStatus ≠ 0x83 ∧ s.on .mgtRomFw = false ∧ q.length = 9 ∧ (s.rd .lrxState n < 3 ∨ 5 < s.rd
    .lrxState n)) ∧
  (∃ s : State, s.on .cdbTapRun = true) ∧
  (∃ s : State, s.on .cdbTapRun = false) ∧
  (∃ s : State, s.on .pwrDomMgmt = true ∧ s.on .mgtFwDown = false ∧ s.on .mgtFwHalt = false ∧ s.rd .cdbStatus ≠ 0x83 ∧
    s.on .mgtRomFw = false) :=
  ⟨⟨(at0 [(.mgtRomFw, 0, 0, 0), (.mgtFwDown, 0, 0, 0), (.mgtFwHalt, 0, 0, 0), (.cdbStatus, 1, 0, 0)] []),
     by decide +kernel⟩,
   ⟨9, ((fun s : State => (s.nvmSet .secPwSet 1).nvmSet .secPassword
     35121941162508732263905858056380837169393451392675172527296520175894142102386911053805598785581230046139771397881975)
     (at0 [(.secSecretIn, 1, 0, 0), (.mgtRomFw, 0, 0, 0), (.mgtFwDown, 0, 0, 0), (.mgtFwHalt, 0, 0, 0), (.cdbStatus,
     1, 0, 0)] [])), by decide +kernel⟩,
   ⟨9, (at0 [(.secSecretIn, 1, 0, 0), (.mgtRomFw, 0, 0, 0), (.mgtFwDown, 0, 0, 0), (.mgtFwHalt, 0, 0, 0), (.cdbStatus, 1,
     0, 0)] []), by decide +kernel⟩,
   ⟨(at0 [(.secSecretClosed, 1, 0, 0), (.mgtRomFw, 0, 0, 0), (.mgtFwDown, 0, 0, 0), (.mgtFwHalt, 0, 0, 0), (.cdbStatus,
     1, 0, 0)] []), by decide +kernel⟩,
   ⟨(at0 [(.secSecretClosed, 0, 0, 0), (.mgtRomFw, 0, 0, 0), (.mgtFwDown, 0, 0, 0), (.mgtFwHalt, 0, 0, 0), (.cdbStatus,
     1, 0, 0)] []), by decide +kernel⟩,
   ⟨(at0 [(.cdbFlash, 1, 0, 0), (.mgtRomFw, 0, 0, 0), (.mgtFwDown, 0, 0, 0), (.mgtFwHalt, 0, 0, 0), (.cdbStatus, 1, 0,
     0)] []), by decide +kernel⟩,
   ⟨(at0 [(.cdbFlash, 0, 0, 0), (.mgtRomFw, 0, 0, 0), (.mgtFwDown, 0, 0, 0), (.mgtFwHalt, 0, 0, 0), (.cdbStatus, 1, 0,
     0)] []), by decide +kernel⟩,
   ⟨(at0 [(.mgtRomFw, 0, 0, 0), (.mgtFwDown, 0, 0, 0), (.mgtFwHalt, 0, 0, 0), (.cdbStatus, 1, 0, 0)] []),
     by decide +kernel⟩,
   ⟨(at0 [(.mgtRomFw, 0, 0, 0), (.mgtFwDown, 0, 0, 0), (.mgtFwHalt, 0, 0, 0), (.cdbStatus, 1, 0, 0)] []),
     by decide +kernel⟩,
   ⟨(at0 [(.mgtRomFw, 0, 0, 0), (.mgtFwDown, 0, 0, 0), (.mgtFwHalt, 0, 0, 0), (.cdbStatus, 1, 0, 0)] []),
     by decide +kernel⟩,
   ⟨1000, (at0 [(.secLcState, 1, 0, 0), (.imgActiveSlot, 0, 0, 0), (.mgtRomFw, 0, 0, 0), (.mgtFwDown, 0, 0, 0),
     (.mgtFwHalt, 0, 0, 0), (.cdbStatus, 1, 0, 0), (.cdbPwReq, 0, 0, 0)] []), by decide +kernel⟩,
   ⟨8323073, (at0 [(.secLcState, 1, 0, 0), (.mgtRomFw, 0, 0, 0), (.mgtFwDown, 0, 0, 0), (.mgtFwHalt, 0, 0, 0),
     (.cdbStatus, 1, 0, 0), (.cdbPwReq, 0, 0, 0)] []), by decide +kernel⟩,
   ⟨(at0 [(.cdbPwReq, 1, 0, 0), (.cdbPwOk, 0, 0, 0), (.mgtRomFw, 0, 0, 0), (.mgtFwDown, 0, 0, 0), (.mgtFwHalt, 0, 0, 0),
     (.cdbStatus, 1, 0, 0)] []), by decide +kernel⟩,
   ⟨(at0 [(.cdbDlOpen, 1, 0, 0), (.mgtRomFw, 0, 0, 0), (.mgtFwDown, 0, 0, 0), (.mgtFwHalt, 0, 0, 0), (.cdbStatus, 1, 0,
     0), (.cdbPwReq, 0, 0, 0)] []), by decide +kernel⟩,
   ⟨8323000, 72, (at0 [(.cdbDlOpen, 1, 0, 0), (.mgtRomFw, 0, 0, 0), (.mgtFwDown, 0, 0, 0), (.mgtFwHalt, 0, 0, 0),
     (.cdbStatus, 1, 0, 0), (.cdbPwReq, 0, 0, 0)] []), by decide +kernel⟩,
   ⟨8323000, 73, (at0 [(.cdbDlOpen, 1, 0, 0), (.mgtRomFw, 0, 0, 0), (.mgtFwDown, 0, 0, 0), (.mgtFwHalt, 0, 0, 0),
     (.cdbStatus, 1, 0, 0), (.cdbPwReq, 0, 0, 0)] []), by decide +kernel⟩,
   ⟨(at0 [(.cdbDlOpen, 0, 0, 0), (.mgtRomFw, 0, 0, 0), (.mgtFwDown, 0, 0, 0), (.mgtFwHalt, 0, 0, 0), (.cdbStatus, 1, 0,
     0), (.cdbPwReq, 0, 0, 0)] []), by decide +kernel⟩,
   ⟨8323000, 72, (at0 [(.cdbDlOpen, 1, 0, 0), (.mgtRomFw, 0, 0, 0), (.mgtFwDown, 0, 0, 0), (.mgtFwHalt, 0, 0, 0),
     (.cdbStatus, 1, 0, 0), (.cdbPwReq, 0, 0, 0)] []), by decide +kernel⟩,
   ⟨8323000, 73, (at0 [(.cdbDlOpen, 1, 0, 0), (.mgtRomFw, 0, 0, 0), (.mgtFwDown, 0, 0, 0), (.mgtFwHalt, 0, 0, 0),
     (.cdbStatus, 1, 0, 0), (.cdbPwReq, 0, 0, 0)] []), by decide +kernel⟩,
   ⟨(at0 [(.cdbDlOpen, 0, 0, 0), (.mgtRomFw, 0, 0, 0), (.mgtFwDown, 0, 0, 0), (.mgtFwHalt, 0, 0, 0), (.cdbStatus, 1, 0,
     0), (.cdbPwReq, 0, 0, 0)] []), by decide +kernel⟩,
   ⟨(at0 [(.cdbDlOpen, 1, 0, 0), (.cdbDlSlot, 1, 0, 0), (.imgState, 2, 0, 0), (.secDebugOpen, 0, 0, 0), (.secScanOpen, 0,
     0, 0), (.mgtRomFw, 0, 0, 0), (.mgtFwDown, 0, 0, 0), (.mgtFwHalt, 0, 0, 0), (.cdbStatus, 1, 0, 0), (.cdbPwReq, 0,
     0, 0)] []), by decide +kernel⟩,
   ⟨(at0 [(.cdbDlOpen, 0, 0, 0), (.mgtRomFw, 0, 0, 0), (.mgtFwDown, 0, 0, 0), (.mgtFwHalt, 0, 0, 0), (.cdbStatus, 1, 0,
     0), (.cdbPwReq, 0, 0, 0)] []), by decide +kernel⟩,
   ⟨(at0 [(.imgState, 2, 0, 0), (.mgtRomFw, 0, 0, 0), (.mgtFwDown, 0, 0, 0), (.mgtFwHalt, 0, 0, 0), (.cdbStatus, 1, 0,
     0), (.cdbPwReq, 0, 0, 0)] []), by decide +kernel⟩,
   ⟨gimg, ((fun s : State => { s with candidate := some gimg }) (at0 [(.imgState, 2, 0, 0), (.imgCandNew, 1, 0, 0),
     (.secKeyState, 1, 0, 0), (.secKeyFlags, 1, 0, 0), (.secLcState, 2, 0, 0), (.mgtRomFw, 0, 0, 0), (.mgtFwDown, 0,
     0, 0), (.mgtFwHalt, 0, 0, 0), (.cdbStatus, 1, 0, 0), (.cdbPwReq, 0, 0, 0)] [])), by decide +kernel⟩,
   ⟨(at0 [(.imgState, 2, 0, 0), (.imgActiveSlot, 1, 0, 0), (.secDebugOpen, 0, 0, 0), (.secScanOpen, 0, 0, 0), (.mgtRomFw,
     0, 0, 0), (.mgtFwDown, 0, 0, 0), (.mgtFwHalt, 0, 0, 0), (.cdbStatus, 1, 0, 0), (.cdbPwReq, 0, 0, 0)] []),
     by unfold State.Inv State.shaped; decide +kernel⟩,
   ⟨(at0 [(.imgState, 2, 0, 0), (.mgtRomFw, 0, 0, 0), (.mgtFwDown, 0, 0, 0), (.mgtFwHalt, 0, 0, 0), (.cdbStatus, 1, 0,
     0), (.cdbPwReq, 0, 0, 0)] []), by decide +kernel⟩,
   ⟨3, [0, 0, -5, 9, 60, 0, 0, 0, 1], (at0 [(.lrxState, 5, 3, 0), (.lfrTxType, 0, 3, 0), (.mgtRomFw, 0, 0, 0),
     (.mgtFwDown, 0, 0, 0), (.mgtFwHalt, 0, 0, 0), (.cdbStatus, 1, 0, 0)] []), by decide +kernel⟩,
   ⟨3, [0, 0, -5, 9, 60, 0, 0, 0, 1], (at0 [(.lrxState, 0, 3, 0), (.mgtRomFw, 0, 0, 0), (.mgtFwDown, 0, 0, 0),
     (.mgtFwHalt, 0, 0, 0), (.cdbStatus, 1, 0, 0)] []), by decide +kernel⟩,
   ⟨(at0 [(.cdbTapRun, 1, 0, 0), (.mgtRomFw, 0, 0, 0), (.mgtFwDown, 0, 0, 0), (.mgtFwHalt, 0, 0, 0), (.cdbStatus, 1, 0,
     0)] []), by decide +kernel⟩,
   ⟨(at0 [(.cdbTapRun, 0, 0, 0), (.mgtRomFw, 0, 0, 0), (.mgtFwDown, 0, 0, 0), (.mgtFwHalt, 0, 0, 0), (.cdbStatus, 1, 0,
     0)] []), by decide +kernel⟩,
   ⟨(at0 [(.mgtRomFw, 0, 0, 0), (.mgtFwDown, 0, 0, 0), (.mgtFwHalt, 0, 0, 0), (.cdbStatus, 1, 0, 0)] []),
     by decide +kernel⟩⟩

/-- The hypotheses of every clause of `CounterClears` can be met. -/
theorem witness_CounterClears :
  (∃ n : Lane, ∃ s : State, s.reaches .lrx n) ∧
  (∃ n : Lane, ∃ s : State, s.reaches .leq n) ∧
  (∃ n : Lane, ∃ s : State, s.reaches .ltx n) ∧
  (∃ n : Lane, ∃ s : State, s.reaches .lfr n) ∧
  (∃ n : Lane, ∃ s : State, s.reaches .timLn n) ∧
  (∃ n : Lane, ∃ s : State, s.reaches .optLn n) ∧
  (∃ n : HostLane, ∃ s : State, s.reaches .hif n) ∧
  (∃ s : State, s.reaches .mgt 0) ∧
  (∃ s : State, s.reaches .tim 0) ∧
  (∃ s : State, s.reaches .pwr 0) ∧
  (∃ s : State, s.reaches .thm 0) ∧
  (∃ s : State, s.reaches .clk 0) ∧
  (∃ s : State, s.reaches .mon 0) ∧
  (∃ n : Lane, ∃ s : State, s.reaches .arcCl n) ∧
  (∃ s : State, s.reaches .arc 0) ∧
  (∃ s : State, s.reaches .hifGlb 0) ∧
  (∃ s : State, s.reaches .hlt 0) ∧
  (∃ n : Lane, ∃ s : State, s.on .pwrDomMgmt = true ∧ s.powered .lrx n = false) ∧
  (∃ n : HostLane, ∃ s : State, s.on .pwrDomMgmt = true ∧ s.powered .hif n = false) ∧
  (∃ n : Lane, ∃ s : State, s.on .pwrDomMgmt = true ∧ s.powered .arcCl n = false) ∧
  (∃ s : State, s.on .pwrDomMgmt = true ∧ s.powered .tim 0 = false) :=
  ⟨⟨3, (at0 [(.lrxOvrCnt, 1, 3, 0), (.lrxCaptureSvcCnt, 1, 3, 0), (.lrxCdrLolCnt, 1, 3, 0), (.lrxSdLossCnt, 1, 3, 0),
     (.lrxAcqRetryCnt, 1, 3, 0), (.lrxAcqCaptureCnt, 1, 3, 0), (.lrxWarmFailCnt, 1, 3, 0), (.lrxLevelDropCnt, 1, 3,
     0)] []), by unfold State.reaches; decide +kernel⟩,
   ⟨3, (at0 [(.leqDivergeCnt, 1, 3, 0), (.leqFomLowCnt, 1, 3, 0), (.leqDfeBurstCnt, 1, 3, 0)] []),
     by unfold State.reaches; decide +kernel⟩,
   ⟨3, (at0 [(.ltxClipCnt, 1, 3, 0), (.ltxMaskViolCnt, 1, 3, 0), (.ltxFaultCnt, 1, 3, 0), (.ltxDrvFltCnt, 1, 3, 0),
     (.ltxWakeSent, 1, 3, 0)] []), by unfold State.reaches; decide +kernel⟩,
   ⟨3, (at0 [(.lfrMarkBadCnt, 1, 3, 0), (.lfrLolCnt, 1, 3, 0), (.lfrFrameSlipCnt, 1, 3, 0), (.lfrRenegRxCnt, 1, 3, 0),
     (.lfrSvcCorrCnt, 1, 3, 0), (.lfrSvcFailCnt, 1, 3, 0), (.lfrSvcCrcCnt, 1, 3, 0), (.lfrFillRxCnt, 1, 3, 0),
     (.lfrMsgUnknownCnt, 1, 3, 0), (.lfrPcDiscardCnt, 1, 3, 0)] []), by unfold State.reaches; decide +kernel⟩,
   ⟨3, (at0 [(.timLnExchOkCnt, 1, 3, 0), (.timLnExchMissCnt, 1, 3, 0), (.timLnExchRejectCnt, 1, 3, 0),
     (.timLnExchSuspectCnt, 1, 3, 0), (.timLnRegionLateCnt, 1, 3, 0)] []), by unfold State.reaches; decide +kernel⟩,
   ⟨3, (at0 [(.optLnTripCnt, 1, 3, 0), (.optLnEnvClampCnt, 1, 3, 0), (.optLnComplianceCnt, 1, 3, 0), (.optLnOpenCnt, 1,
     3, 0)] []), by unfold State.reaches; decide +kernel⟩,
   ⟨3, (at0 [(.hifCdrLolCnt, 1, 3, 0), (.hifAmLolCnt, 1, 3, 0), (.hifTrnFailCnt, 1, 3, 0), (.hifAlignHitsCnt, 1, 3, 0),
     (.hifPrbsErrCnt, 1, 3, 0), (.hifWarmFailCnt, 1, 3, 0)] []), by unfold State.reaches; decide +kernel⟩,
   ⟨(at0 [(.mgtRefusedCnt, 1, 0, 0), (.mgtFwRestartCnt, 1, 0, 0), (.evfDroppedCnt, 1, 0, 0), (.evfDeferredCnt, 1, 0, 0),
     (.evfOverrun, 1, 0, 0)] []), by unfold State.reaches; decide +kernel⟩,
   ⟨(at0 [(.timTsLostCnt, 1, 0, 0), (.timInGlitchCnt, 1, 0, 0), (.timTsSuspectCnt, 1, 0, 0), (.timTsfOvfCnt, 1, 0, 0),
     (.timTodStepsCnt, 1, 0, 0)] []), by unfold State.reaches; decide +kernel⟩,
   ⟨(at0 [(.pwrWarnCnt, 1, 0, 0), (.pwrRefusalCnt, 1, 0, 0), (.pwrWakeFailCnt, 1, 0, 0)] []),
     by unfold State.reaches; decide +kernel⟩,
   ⟨(at0 [(.thmThrottleCnt, 1, 0, 0), (.thmCritCnt, 1, 0, 0), (.thmStepCnt, 1, 0, 0), (.thmSensorFailCnt, 1, 0, 0)] []),
     by unfold State.reaches; decide +kernel⟩,
   ⟨(at0 [(.pllLolCnt, 4, 3, 0)] []), by unfold State.reaches; decide +kernel⟩,
   ⟨(at0 [(.monChSeq, 4, 3, 0)] []), by unfold State.reaches; decide +kernel⟩,
   ⟨3, (at0 [(.arcClDecodedCnt, 4, 3, 0)] []), by unfold State.reaches; decide +kernel⟩,
   ⟨(at0 [(.arcEngEcc, 3, 0, 77)] []), by unfold State.reaches; decide +kernel⟩,
   ⟨(at0 [(.hifGlbRsCwCorr, 4, 0, 3)] []), by unfold State.reaches; decide +kernel⟩,
   ⟨(at0 [(.hltEscCnt, 3, 0, 0)] []), by unfold State.reaches; decide +kernel⟩,
   ⟨3, (at0 [(.pwrDomLane, 0, 0, 0)] []), by decide +kernel⟩,
   ⟨3, (at0 [(.pwrDomHost, 0, 0, 0)] []), by decide +kernel⟩,
   ⟨3, (at0 [(.pwrDomDecode, 0, 0, 0)] []), by decide +kernel⟩,
   ⟨(at0 [(.pwrDomTime, 0, 0, 0)] []), by decide +kernel⟩⟩

/-- The hypotheses of `StepServesQueue`. -/
theorem witness_StepServesQueue : (∃ (c : Instr) (q : List Instr) (s : State), s.pending = c :: q) ∧
    (∃ s : State, s.pending = [] ∧ s.tck = [] ∧ s.on .pwrDomTime = false) ∧
    (∃ s : State, s.Inv ∧ s.pending = [] ∧ s.tck = [] ∧ s.on .pwrDomTime = true ∧ s.on .timSlewing = false ∧ s.on .timTodPend = false) ∧
    (∃ s : State, s.Inv ∧ s.pending = [] ∧ s.tck = [] ∧ s.on .pwrDomTime = true ∧ s.on .timTodPend = true) ∧
    (∃ (c : TckCycle) (rest : List TckCycle) (s : State), s.pending = [] ∧ s.tck = c :: rest ∧ s.unpowered = false ∧ c.trstN = false) ∧
    (∃ (c : TckCycle) (rest : List TckCycle) (s : State), s.pending = [] ∧ s.tck = c :: rest ∧ s.unpowered = false ∧ c.trstN = true) :=
  ⟨⟨.arcCntClr, [], { State.reset with pending := [.arcCntClr] }, rfl⟩, ⟨State.reset, by decide +kernel⟩,
   ⟨awake, by unfold State.Inv State.shaped; decide +kernel⟩,
   ⟨at0 [(.timTodPend, 1, 0, 0)] [], by unfold State.Inv State.shaped; decide +kernel⟩,
   ⟨⟨false, true, false⟩, [], { (at0 [(.glbSeqStep, 7, 0, 0)] []) with tck := [⟨false, true, false⟩] }, rfl, rfl, by decide +kernel, rfl⟩,
   ⟨⟨false, true, true⟩, [], { (at0 [(.glbSeqStep, 7, 0, 0)] []) with tck := [⟨false, true, true⟩] }, rfl, rfl, by decide +kernel, rfl⟩⟩

/-- A step from a state that meets the invariants answers a next state. -/
theorem witness_StepKeepsInvariant : ∃ s t : State, s.Inv ∧ step s = .next t :=
  ⟨State.reset, _, by unfold State.Inv State.shaped; decide +kernel, step_nil _ rfl⟩

/-- A state that meets the invariant. -/
theorem witness_FieldsKeepTheirWidth : ∃ s : State, s.Inv := ⟨awake, by unfold State.Inv State.shaped; decide +kernel⟩

/-- A command with a list of blocks. -/
theorem witness_CommandsStayInTheirBlocks : ∃ (c : Instr) (s t : State) (l : List Block), touches c = some l ∧ exec c s = .next t :=
  ⟨.pmAlert, State.reset, _, _, rfl, rfl⟩

/-- A command that does not write the NVM. -/
theorem witness_NvmWriters : ∃ (c : Instr) (s t : State), writesNvm c = false ∧ exec c s = .next t :=
  ⟨.pmAlert, State.reset, _, rfl, rfl⟩

/-- A state with a lane in each of OFF, DRV_ON and ACTIVE. -/
theorem witness_TransmitEnablesFollowStates : ∃ s t : State, s.Inv ∧ s.pinsFollow ∧ step s = .next t :=
  ⟨at0 [(.ltxState, 2, 1, 0), (.ltxDrvEn, 1, 1, 0), (.ltxState, 4, 2, 0), (.ltxDrvEn, 1, 2, 0), (.ltxLsrEn, 1, 2, 0)] [], _,
   by unfold State.Inv State.shaped; decide +kernel, by unfold State.pinsFollow; decide +kernel, step_nil _ rfl⟩

/-- Copies that agree, copies that do not, and a state that answers reads. -/
theorem witness_LifecycleStateOfTheCopies :
    (∃ (_l : NvmLoad) (s : State) (v : Nat), s.Inv ∧ s.rd .pwrDevState = 6 ∧ s.on .optGlbPuDone = false ∧
      s.on .glbResetLow = false ∧ s.warning = false ∧
      2 ≤ ((List.range 3).filter (fun i => s.nvmGet .secLcState 0 i == v)).length) ∧
    (∃ (_l : NvmLoad) (s : State), s.rd .pwrDevState = 6 ∧ s.on .optGlbPuDone = false ∧ s.on .glbResetLow = false ∧
      s.warning = false ∧ s.nvmGet .secLcState 0 0 ≠ s.nvmGet .secLcState 0 1 ∧
      s.nvmGet .secLcState 0 0 ≠ s.nvmGet .secLcState 0 2 ∧ s.nvmGet .secLcState 0 1 ≠ s.nvmGet .secLcState 0 2) ∧
    (∃ s : State, s.Inv ∧ s.on .pwrDomMgmt = true) :=
  ⟨⟨⟨true, true, true, 7, true, true, true, false⟩, (at0 [(.pwrDevState, 6, 0, 0)] []).nvmSet .secLcState 2 0 1 |>.nvmSet .secLcState 2 0 2,
      2, by unfold State.Inv State.shaped; decide +kernel⟩,
   ⟨⟨true, true, true, 7, true, true, true, false⟩, (at0 [(.pwrDevState, 6, 0, 0)] []).nvmSet .secLcState 2 0 1 |>.nvmSet .secLcState 3 0 2,
      by decide +kernel⟩,
   ⟨awake, by unfold State.Inv State.shaped; decide +kernel⟩⟩

/-- Both sides of the driver enable. -/
theorem witness_DriverFaultMonitor : (∃ (n : Lane) (s : State), s.on .ltxDrvEn n = false) ∧
    (∃ (n : Lane) (s : State), s.on .ltxDrvEn n = true ∧ 2 ≤ s.rd .ltxState n ∧ s.rd .ltxState n ≤ 4 ∧ s.rd .hltAction 0 8 ≤ 1) ∧
    (∃ (n : Lane) (s : State), s.on .ltxDrvEn n = true ∧ 4 < s.rd .ltxState n) :=
  ⟨⟨6, awake, by decide +kernel⟩, ⟨6, at0 [(.ltxDrvEn, 1, 6, 0), (.ltxState, 4, 6, 0), (.hltAction, 1, 0, 8)] [], by decide +kernel⟩,
   ⟨6, at0 [(.ltxDrvEn, 1, 6, 0), (.ltxState, 5, 6, 0)] [], by decide +kernel⟩⟩

/-- Both commands. -/
theorem witness_ResetDiscardsRetention : (∃ (c : Instr) (_rail : Fin 7) (_s : State), c = .resetNAssert) ∧
    (∃ (rail : Fin 7) (s : State) (mv : BitVec 12), s.monitored rail = true ∧ 100 * mv.toNat < 88 * s.monitorMv rail) :=
  ⟨⟨.resetNAssert, 0, State.reset, rfl⟩, ⟨5, awake, 100, by decide +kernel⟩⟩


end Sys2Proof.Tests
end

/-!
PROOFS. What holds of every command and of every step: the invariant, the width of every field, an answer to every
command, and the register blocks a command may change (O4 to O7).
-/
namespace Sys2Proof.Machine

/-! ## Every command keeps the queue and the invariant -/

/-- Every command answers a next state with the queue and the invariant of the state before it: one arm per command, each
by the law of its meaning. -/
theorem exec_keeps (c : Instr) (s : State) : OutKeeps s (exec c s) :=
  match c with
  | .registerWrite .. => execRegisterWrite_keeps (Keeps.refl s)
  | .narrowAccess .. => execNarrowAccess_keeps (Keeps.refl s)
  | .unmappedAccess .. => execUnmappedAccess_keeps (Keeps.refl s)
  | .snapshotRead .. => execSnapshotRead_keeps (Keeps.refl s)
  | .intStatusClear .. => execIntStatusClear_keeps (Keeps.refl s)
  | .intForceWrite .. => execIntForceWrite_keeps (Keeps.refl s)
  | .presetWrite .. => execPresetWrite_keeps (Keeps.refl s)
  | .expertOverrideWrite .. => execExpertOverrideWrite_keeps (Keeps.refl s)
  | .straitOverflow .. => execStraitOverflow_keeps (Keeps.refl s)
  | .straitErrClr => execStraitErrClr_keeps (Keeps.refl s)
  | .rgStoppedAccess .. => execRgStoppedAccess_keeps (Keeps.refl s)
  | .codewordBoundaryApply .. => execCodewordBoundaryApply_keeps (Keeps.refl s)
  | .frameBoundaryApply .. => execFrameBoundaryApply_keeps (Keeps.refl s)
  | .txFrameBoundary .. => execTxFrameBoundary_keeps (Keeps.refl s)
  | .vddAonPowerGood => execVddAonPowerGood_keeps (Keeps.refl s)
  | .nvmLoadDone .. => execNvmLoadDone_keeps (Keeps.refl s)
  | .supplyReady .. => execSupplyReady_keeps (Keeps.refl s)
  | .supplyReadyTimeout => execSupplyReadyTimeout_keeps (Keeps.refl s)
  | .wakeRetry => execWakeRetry_keeps (Keeps.refl s)
  | .imgValidationDone .. => execImgValidationDone_keeps (Keeps.refl s)
  | .bootCommitDone .. => execBootCommitDone_keeps (Keeps.refl s)
  | .bootBistDone => execBootBistDone_keeps (Keeps.refl s)
  | .imgValidate .. => execImgValidate_keeps (Keeps.refl s)
  | .imgCommitFull .. => execImgCommitFull_keeps (Keeps.refl s)
  | .imgCommitPartial .. => execImgCommitPartial_keeps (Keeps.refl s)
  | .imgAbort => execImgAbort_keeps (Keeps.refl s)
  | .imgMakeBoot .. => execImgMakeBoot_keeps (Keeps.refl s)
  | .imgOpInvalid .. => execImgOpInvalid_keeps (Keeps.refl s)
  | .pcIsolate => execPcIsolate_keeps (Keeps.refl s)
  | .pcPause .. => execPcPause_keeps (Keeps.refl s)
  | .pcTableWrite => execPcTableWrite_keeps (Keeps.refl s)
  | .pcResume .. => execPcResume_keeps (Keeps.refl s)
  | .imgPcClr => execImgPcClr_keeps (Keeps.refl s)
  | .lrxEnable .. => execLrxEnable_keeps (Keeps.refl s)
  | .lrxDisable .. => execLrxDisable_keeps (Keeps.refl s)
  | .lrxRestart .. => execLrxRestart_keeps (Keeps.refl s)
  | .lrxCommit .. => execLrxCommit_keeps (Keeps.refl s)
  | .lrxCntClr .. => execLrxCntClr_keeps (Keeps.refl s)
  | .lrxCalDone .. => execLrxCalDone_keeps (Keeps.refl s)
  | .lrxCalTimeout .. => execLrxCalTimeout_keeps (Keeps.refl s)
  | .sdAssert .. => execSdAssert_keeps (Keeps.refl s)
  | .sdDeassert .. => execSdDeassert_keeps (Keeps.refl s)
  | .agcWindow .. => execAgcWindow_keeps (Keeps.refl s)
  | .agcTrimStep .. => execAgcTrimStep_keeps (Keeps.refl s)
  | .cdrLockInterval .. => execCdrLockInterval_keeps (Keeps.refl s)
  | .acqTimeout .. => execAcqTimeout_keeps (Keeps.refl s)
  | .trainTimeout .. => execTrainTimeout_keeps (Keeps.refl s)
  | .lrxFaultAutoRestart .. => execLrxFaultAutoRestart_keeps (Keeps.refl s)
  | .adcOverrange .. => execAdcOverrange_keeps (Keeps.refl s)
  | .adcShadowDone .. => execAdcShadowDone_keeps (Keeps.refl s)
  | .swapDeferExpiry .. => execSwapDeferExpiry_keeps (Keeps.refl s)
  | .wakePatternDetect .. => execWakePatternDetect_keeps (Keeps.refl s)
  | .lockedToService .. => execLockedToService_keeps (Keeps.refl s)
  | .serviceExit .. => execServiceExit_keeps (Keeps.refl s)
  | .rxSleepWake .. => execRxSleepWake_keeps (Keeps.refl s)
  | .rxResumeDone .. => execRxResumeDone_keeps (Keeps.refl s)
  | .leqCommit .. => execLeqCommit_keeps (Keeps.refl s)
  | .coefSnap .. => execCoefSnap_keeps (Keeps.refl s)
  | .leqCntClr .. => execLeqCntClr_keeps (Keeps.refl s)
  | .histStart .. => execHistStart_keeps (Keeps.refl s)
  | .histDone .. => execHistDone_keeps (Keeps.refl s)
  | .leqAdaptUpdate .. => execLeqAdaptUpdate_keeps (Keeps.refl s)
  | .fomWindowEnd .. => execFomWindowEnd_keeps (Keeps.refl s)
  | .dfeBurst .. => execDfeBurst_keeps (Keeps.refl s)
  | .txEnableRequest .. => execTxEnableRequest_keeps (Keeps.refl s)
  | .txEnableGo .. => execTxEnableGo_keeps (Keeps.refl s)
  | .txenTimeout .. => execTxenTimeout_keeps (Keeps.refl s)
  | .drvSettleExpiry .. => execDrvSettleExpiry_keeps (Keeps.refl s)
  | .biasTimeout .. => execBiasTimeout_keeps (Keeps.refl s)
  | .txActivate .. => execTxActivate_keeps (Keeps.refl s)
  | .txDisable .. => execTxDisable_keeps (Keeps.refl s)
  | .txDisableMute .. => execTxDisableMute_keeps (Keeps.refl s)
  | .drvHoldExpiry .. => execDrvHoldExpiry_keeps (Keeps.refl s)
  | .ltxRestart .. => execLtxRestart_keeps (Keeps.refl s)
  | .ltxCommit .. => execLtxCommit_keeps (Keeps.refl s)
  | .ltxCntClr .. => execLtxCntClr_keeps (Keeps.refl s)
  | .drvFault .. => execDrvFault_keeps (Keeps.refl s)
  | .txFaultDacOff .. => execTxFaultDacOff_keeps (Keeps.refl s)
  | .txFaultAutoRestart .. => execTxFaultAutoRestart_keeps (Keeps.refl s)
  | .dacCalDone .. => execDacCalDone_keeps (Keeps.refl s)
  | .dacCellTrimDone .. => execDacCellTrimDone_keeps (Keeps.refl s)
  | .dacClip .. => execDacClip_keeps (Keeps.refl s)
  | .maskAverageEnd .. => execMaskAverageEnd_keeps (Keeps.refl s)
  | .wakeSend .. => execWakeSend_keeps (Keeps.refl s)
  | .wakePatternEnd .. => execWakePatternEnd_keeps (Keeps.refl s)
  | .txSleepWake .. => execTxSleepWake_keeps (Keeps.refl s)
  | .markerCandidate .. => execMarkerCandidate_keeps (Keeps.refl s)
  | .frameMarkerCheck .. => execFrameMarkerCheck_keeps (Keeps.refl s)
  | .serviceFrameReceived .. => execServiceFrameReceived_keeps (Keeps.refl s)
  | .msgAckRx .. => execMsgAckRx_keeps (Keeps.refl s)
  | .msgAbilityRx .. => execMsgAbilityRx_keeps (Keeps.refl s)
  | .msgConfirmRx .. => execMsgConfirmRx_keeps (Keeps.refl s)
  | .msgRenegRx _ _ reason => execMsgRenegRx_keeps (_reason := reason) (Keeps.refl s)
  | .msgProfileChangeRx .. => execMsgProfileChangeRx_keeps (Keeps.refl s)
  | .msgProfileReplyRx .. => execMsgProfileReplyRx_keeps (Keeps.refl s)
  | .msgTxTapReqRx .. => execMsgTxTapReqRx_keeps (Keeps.refl s)
  | .msgTxTapReplyRx .. => execMsgTxTapReplyRx_keeps (Keeps.refl s)
  | .msgUnknownRx .. => execMsgUnknownRx_keeps (Keeps.refl s)
  | .sideChannelFrameRx .. => execSideChannelFrameRx_keeps (Keeps.refl s)
  | .negTimeout .. => execNegTimeout_keeps (Keeps.refl s)
  | .helloTimeout .. => execHelloTimeout_keeps (Keeps.refl s)
  | .reneg .. => execReneg_keeps (Keeps.refl s)
  | .lfrCntClr .. => execLfrCntClr_keeps (Keeps.refl s)
  | .profileChange .. => execProfileChange_keeps (Keeps.refl s)
  | .profileTimeout .. => execProfileTimeout_keeps (Keeps.refl s)
  | .profileSwitch .. => execProfileSwitch_keeps (Keeps.refl s)
  | .compatFormatSwitch .. => execCompatFormatSwitch_keeps (Keeps.refl s)
  | .codewordEnqueue .. => execCodewordEnqueue_keeps (Keeps.refl s)
  | .engineRequest .. => execEngineRequest_keeps (Keeps.refl s)
  | .queueGrant .. => execQueueGrant_keeps (Keeps.refl s)
  | .codewordExpiry .. => execCodewordExpiry_keeps (Keeps.refl s)
  | .stealTransferDone .. => execStealTransferDone_keeps (Keeps.refl s)
  | .engineLoadDone .. => execEngineLoadDone_keeps (Keeps.refl s)
  | .engineIterationDone .. => execEngineIterationDone_keeps (Keeps.refl s)
  | .engineStopPoint .. => execEngineStopPoint_keeps (Keeps.refl s)
  | .emitPortGrant .. => execEmitPortGrant_keeps (Keeps.refl s)
  | .emitDone .. => execEmitDone_keeps (Keeps.refl s)
  | .releaseBufferWrite .. => execReleaseBufferWrite_keeps (Keeps.refl s)
  | .codewordRelease .. => execCodewordRelease_keeps (Keeps.refl s)
  | .engineDeadlineFail .. => execEngineDeadlineFail_keeps (Keeps.refl s)
  | .microcodeEccError .. => execMicrocodeEccError_keeps (Keeps.refl s)
  | .bgTaskDue .. => execBgTaskDue_keeps (Keeps.refl s)
  | .engineRefreshDone .. => execEngineRefreshDone_keeps (Keeps.refl s)
  | .histGatherDone .. => execHistGatherDone_keeps (Keeps.refl s)
  | .healthWindowTick => execHealthWindowTick_keeps (Keeps.refl s)
  | .arcCntClr => execArcCntClr_keeps (Keeps.refl s)
  | .arcClCntClr .. => execArcClCntClr_keeps (Keeps.refl s)
  | .hifEnable .. => execHifEnable_keeps (Keeps.refl s)
  | .hifDisable .. => execHifDisable_keeps (Keeps.refl s)
  | .hifRetrain .. => execHifRetrain_keeps (Keeps.refl s)
  | .hifCommit .. => execHifCommit_keeps (Keeps.refl s)
  | .hifSlip .. => execHifSlip_keeps (Keeps.refl s)
  | .alignDoneWrite .. => execAlignDoneWrite_keeps (Keeps.refl s)
  | .hifCntClr .. => execHifCntClr_keeps (Keeps.refl s)
  | .hifGlbCntClr => execHifGlbCntClr_keeps (Keeps.refl s)
  | .hostCalDone .. => execHostCalDone_keeps (Keeps.refl s)
  | .hostCalTimeout .. => execHostCalTimeout_keeps (Keeps.refl s)
  | .trainingFrameRx .. => execTrainingFrameRx_keeps (Keeps.refl s)
  | .hostFomWindowEnd .. => execHostFomWindowEnd_keeps (Keeps.refl s)
  | .trainingComplete .. => execTrainingComplete_keeps (Keeps.refl s)
  | .trainingAttemptFail .. => execTrainingAttemptFail_keeps (Keeps.refl s)
  | .ehmTrainTimeout .. => execEhmTrainTimeout_keeps (Keeps.refl s)
  | .amPeriod .. => execAmPeriod_keeps (Keeps.refl s)
  | .alignTimeout .. => execAlignTimeout_keeps (Keeps.refl s)
  | .hostCdrLockInterval .. => execHostCdrLockInterval_keeps (Keeps.refl s)
  | .relockTimeout .. => execRelockTimeout_keeps (Keeps.refl s)
  | .hostFaultAutoRestart .. => execHostFaultAutoRestart_keeps (Keeps.refl s)
  | .hostSleepWake .. => execHostSleepWake_keeps (Keeps.refl s)
  | .rsCodewordMonitor .. => execRsCodewordMonitor_keeps (Keeps.refl s)
  | .todSetNow => execTodSetNow_keeps (Keeps.refl s)
  | .todSetAtTimeIn => execTodSetAtTimeIn_keeps (Keeps.refl s)
  | .todSetTimeout => execTodSetTimeout_keeps (Keeps.refl s)
  | .todStep => execTodStep_keeps (Keeps.refl s)
  | .todSlew => execTodSlew_keeps (Keeps.refl s)
  | .todSlewDone => execTodSlewDone_keeps (Keeps.refl s)
  | .timestampEvent .. => execTimestampEvent_keeps (Keeps.refl s)
  | .crossCapture .. => execCrossCapture_keeps (Keeps.refl s)
  | .driftMonitor .. => execDriftMonitor_keeps (Keeps.refl s)
  | .tsfRead => execTsfRead_keeps (Keeps.refl s)
  | .tsfFlush => execTsfFlush_keeps (Keeps.refl s)
  | .timCntClr => execTimCntClr_keeps (Keeps.refl s)
  | .timLnCntClr .. => execTimLnCntClr_keeps (Keeps.refl s)
  | .ledgerPublish .. => execLedgerPublish_keeps (Keeps.refl s)
  | .icrisRegionWrite .. => execIcrisRegionWrite_keeps (Keeps.refl s)
  | .icrisInitiate .. => execIcrisInitiate_keeps (Keeps.refl s)
  | .echoReceived .. => execEchoReceived_keeps (Keeps.refl s)
  | .initiationMiss .. => execInitiationMiss_keeps (Keeps.refl s)
  | .exchStale .. => execExchStale_keeps (Keeps.refl s)
  | .restartAvg .. => execRestartAvg_keeps (Keeps.refl s)
  | .dpllUpdate => execDpllUpdate_keeps (Keeps.refl s)
  | .dpllMissedUpdate => execDpllMissedUpdate_keeps (Keeps.refl s)
  | .timeInEdge .. => execTimeInEdge_keeps (Keeps.refl s)
  | .timeInMiss => execTimeInMiss_keeps (Keeps.refl s)
  | .timeOutPulse => execTimeOutPulse_keeps (Keeps.refl s)
  | .suspectEnd => execSuspectEnd_keeps (Keeps.refl s)
  | .refLost => execRefLost_keeps (Keeps.refl s)
  | .refCountDone .. => execRefCountDone_keeps (Keeps.refl s)
  | .refBack => execRefBack_keeps (Keeps.refl s)
  | .refOk => execRefOk_keeps (Keeps.refl s)
  | .refHoldExpiry => execRefHoldExpiry_keeps (Keeps.refl s)
  | .pllRelockTimeout .. => execPllRelockTimeout_keeps (Keeps.refl s)
  | .pllLockWindow .. => execPllLockWindow_keeps (Keeps.refl s)
  | .pllCalReq .. => execPllCalReq_keeps (Keeps.refl s)
  | .pllCalStart .. => execPllCalStart_keeps (Keeps.refl s)
  | .pllCalDone .. => execPllCalDone_keeps (Keeps.refl s)
  | .clkCntClr => execClkCntClr_keeps (Keeps.refl s)
  | .optTrigger .. => execOptTrigger_keeps (Keeps.refl s)
  | .obiasConditionEvent .. => execObiasConditionEvent_keeps (Keeps.refl s)
  | .envelopeTrip .. => execEnvelopeTrip_keeps (Keeps.refl s)
  | .probeTimeout .. => execProbeTimeout_keeps (Keeps.refl s)
  | .offTimeExpiry .. => execOffTimeExpiry_keeps (Keeps.refl s)
  | .envSave => execEnvSave_keeps (Keeps.refl s)
  | .optCntClr .. => execOptCntClr_keeps (Keeps.refl s)
  | .monOutput .. => execMonOutput_keeps (Keeps.refl s)
  | .monSwap .. => execMonSwap_keeps (Keeps.refl s)
  | .monCntClr => execMonCntClr_keeps (Keeps.refl s)
  | .pbTransaction .. => execPbTransaction_keeps (Keeps.refl s)
  | .pbTransactionDone .. => execPbTransactionDone_keeps (Keeps.refl s)
  | .pbTimeout => execPbTimeout_keeps (Keeps.refl s)
  | .sleepRequest .. => execSleepRequest_keeps (Keeps.refl s)
  | .sleepRequestClear .. => execSleepRequestClear_keeps (Keeps.refl s)
  | .budgetWrite .. => execBudgetWrite_keeps (Keeps.refl s)
  | .votePrepare .. => execVotePrepare_keeps (Keeps.refl s)
  | .voteTimeout .. => execVoteTimeout_keeps (Keeps.refl s)
  | .voteCommitStep .. => execVoteCommitStep_keeps (Keeps.refl s)
  | .lateRefusal .. => execLateRefusal_keeps (Keeps.refl s)
  | .sleepRetry .. => execSleepRetry_keeps (Keeps.refl s)
  | .trimEntry .. => execTrimEntry_keeps (Keeps.refl s)
  | .wakeTimerExpiry => execWakeTimerExpiry_keeps (Keeps.refl s)
  | .lpmodeAssert => execLpmodeAssert_keeps (Keeps.refl s)
  | .lpmodeDeassert => execLpmodeDeassert_keeps (Keeps.refl s)
  | .standbySwWrite => execStandbySwWrite_keeps (Keeps.refl s)
  | .standbyWake .. => execStandbyWake_keeps (Keeps.refl s)
  | .deep => execDeep_keeps (Keeps.refl s)
  | .deepWakeEvent .. => execDeepWakeEvent_keeps (Keeps.refl s)
  | .deepImageRereadDone .. => execDeepImageRereadDone_keeps (Keeps.refl s)
  | .dvfsRequest .. => execDvfsRequest_keeps (Keeps.refl s)
  | .dvfsVoutConfirmed => execDvfsVoutConfirmed_keeps (Keeps.refl s)
  | .dvfsStepDwell => execDvfsStepDwell_keeps (Keeps.refl s)
  | .dvfsTimeout => execDvfsTimeout_keeps (Keeps.refl s)
  | .dvfsExpertWrite .. => execDvfsExpertWrite_keeps (Keeps.refl s)
  | .pmAlert => execPmAlert_keeps (Keeps.refl s)
  | .supplyWarningStart .. => execSupplyWarningStart_keeps (Keeps.refl s)
  | .supplyWarningEnd .. => execSupplyWarningEnd_keeps (Keeps.refl s)
  | .supplyMonitorReset .. => execSupplyMonitorReset_keeps (Keeps.refl s)
  | .resetNAssert => execResetNAssert_keeps (Keeps.refl s)
  | .resetNRelease => execResetNRelease_keeps (Keeps.refl s)
  | .domainStaggerStep => execDomainStaggerStep_keeps (Keeps.refl s)
  | .pwrCntClr => execPwrCntClr_keeps (Keeps.refl s)
  | .thermalModelUpdate .. => execThermalModelUpdate_keeps (Keeps.refl s)
  | .diodeMeasure .. => execDiodeMeasure_keeps (Keeps.refl s)
  | .aonDiodeCompare .. => execAonDiodeCompare_keeps (Keeps.refl s)
  | .aonThermalCrossing .. => execAonThermalCrossing_keeps (Keeps.refl s)
  | .graceExpiry => execGraceExpiry_keeps (Keeps.refl s)
  | .throttleStep => execThrottleStep_keeps (Keeps.refl s)
  | .recoverExpiry => execRecoverExpiry_keeps (Keeps.refl s)
  | .restore => execRestore_keeps (Keeps.refl s)
  | .critClr => execCritClr_keeps (Keeps.refl s)
  | .critAutoClear => execCritAutoClear_keeps (Keeps.refl s)
  | .thmCntClr => execThmCntClr_keeps (Keeps.refl s)
  | .faultSourceEvent .. => execFaultSourceEvent_keeps (Keeps.refl s)
  | .faultWindowClose .. => execFaultWindowClose_keeps (Keeps.refl s)
  | .hltSrcCfgWrite .. => execHltSrcCfgWrite_keeps (Keeps.refl s)
  | .lastingClear .. => execLastingClear_keeps (Keeps.refl s)
  | .bistEngine .. => execBistEngine_keeps (Keeps.refl s)
  | .bistLane .. => execBistLane_keeps (Keeps.refl s)
  | .bistHost .. => execBistHost_keeps (Keeps.refl s)
  | .bistXbar .. => execBistXbar_keeps (Keeps.refl s)
  | .bistCtrlDac .. => execBistCtrlDac_keeps (Keeps.refl s)
  | .bistMonAdc .. => execBistMonAdc_keeps (Keeps.refl s)
  | .bistKeystore .. => execBistKeystore_keeps (Keeps.refl s)
  | .bistEnvelope .. => execBistEnvelope_keeps (Keeps.refl s)
  | .bistStart .. => execBistStart_keeps (Keeps.refl s)
  | .bistWaitTimeout => execBistWaitTimeout_keeps (Keeps.refl s)
  | .bistConditionLost .. => execBistConditionLost_keeps (Keeps.refl s)
  | .bistDone .. => execBistDone_keeps (Keeps.refl s)
  | .bistReinitDone .. => execBistReinitDone_keeps (Keeps.refl s)
  | .bgBistDue .. => execBgBistDue_keeps (Keeps.refl s)
  | .adcStepDue .. => execAdcStepDue_keeps (Keeps.refl s)
  | .dacStepDue .. => execDacStepDue_keeps (Keeps.refl s)
  | .hltCntClr => execHltCntClr_keeps (Keeps.refl s)
  | .watchdogMiss .. => execWatchdogMiss_keeps (Keeps.refl s)
  | .fwRestartDone .. => execFwRestartDone_keeps (Keeps.refl s)
  | .hostBusWrite .. => execHostBusWrite_keeps (Keeps.refl s)
  | .hostBusRead .. => execHostBusRead_keeps (Keeps.refl s)
  | .i3cEntdaa .. => execI3cEntdaa_keeps (Keeps.refl s)
  | .i3cSetdasa .. => execI3cSetdasa_keeps (Keeps.refl s)
  | .i3cSetnewda .. => execI3cSetnewda_keeps (Keeps.refl s)
  | .i3cRstdaa => execI3cRstdaa_keeps (Keeps.refl s)
  | .i3cGetpid .. => execI3cGetpid_keeps (Keeps.refl s)
  | .i3cGetbcr .. => execI3cGetbcr_keeps (Keeps.refl s)
  | .i3cGetdcr .. => execI3cGetdcr_keeps (Keeps.refl s)
  | .i3cGetstatus .. => execI3cGetstatus_keeps (Keeps.refl s)
  | .i3cGetmwl .. => execI3cGetmwl_keeps (Keeps.refl s)
  | .i3cSetmwl .. => execI3cSetmwl_keeps (Keeps.refl s)
  | .i3cGetmrl .. => execI3cGetmrl_keeps (Keeps.refl s)
  | .i3cSetmrl .. => execI3cSetmrl_keeps (Keeps.refl s)
  | .i3cUnsupportedCcc => execI3cUnsupportedCcc_keeps (Keeps.refl s)
  | .windowRead => execWindowRead_keeps (Keeps.refl s)
  | .windowWrite => execWindowWrite_keeps (Keeps.refl s)
  | .spiWrite .. => execSpiWrite_keeps (Keeps.refl s)
  | .spiRead .. => execSpiRead_keeps (Keeps.refl s)
  | .spiUnknownCmd => execSpiUnknownCmd_keeps (Keeps.refl s)
  | .cmisControlAct .. => execCmisControlAct_keeps (Keeps.refl s)
  | .cmisDpdeinit .. => execCmisDpdeinit_keeps (Keeps.refl s)
  | .cmisApplyDpinit .. => execCmisApplyDpinit_keeps (Keeps.refl s)
  | .cmisLowpwrRequestSw .. => execCmisLowpwrRequestSw_keeps (Keeps.refl s)
  | .mcPageHostWrite .. => execMcPageHostWrite_keeps (Keeps.refl s)
  | .cdbQueryStatus => execCdbQueryStatus_keeps (Keeps.refl s)
  | .cdbEnterPassword .. => execCdbEnterPassword_keeps (Keeps.refl s)
  | .cdbChangePassword .. => execCdbChangePassword_keeps (Keeps.refl s)
  | .cdbAbort => execCdbAbort_keeps (Keeps.refl s)
  | .cdbModuleFeatures => execCdbModuleFeatures_keeps (Keeps.refl s)
  | .cdbFwMgmtFeatures => execCdbFwMgmtFeatures_keeps (Keeps.refl s)
  | .cdbGetFwInfo .. => execCdbGetFwInfo_keeps (Keeps.refl s)
  | .cdbStartFwDownload .. => execCdbStartFwDownload_keeps (Keeps.refl s)
  | .cdbAbortFwDownload => execCdbAbortFwDownload_keeps (Keeps.refl s)
  | .cdbWriteFwBlockLpl .. => execCdbWriteFwBlockLpl_keeps (Keeps.refl s)
  | .cdbWriteFwBlockEpl .. => execCdbWriteFwBlockEpl_keeps (Keeps.refl s)
  | .cdbCompleteFwDownload => execCdbCompleteFwDownload_keeps (Keeps.refl s)
  | .cdbRunFwImage => execCdbRunFwImage_keeps (Keeps.refl s)
  | .cdbCommitFwImage => execCdbCommitFwImage_keeps (Keeps.refl s)
  | .cdbTxTapRequest .. => execCdbTxTapRequest_keeps (Keeps.refl s)
  | .cdbPartialCommit .. => execCdbPartialCommit_keeps (Keeps.refl s)
  | .cdbUnsupported => execCdbUnsupported_keeps (Keeps.refl s)
  | .cdbTxTapTimeout => execCdbTxTapTimeout_keeps (Keeps.refl s)
  | .evfRead => execEvfRead_keeps (Keeps.refl s)
  | .evfFlush => execEvfFlush_keeps (Keeps.refl s)
  | .evfFormatWrite .. => execEvfFormatWrite_keeps (Keeps.refl s)
  | .mgtCntClr => execMgtCntClr_keeps (Keeps.refl s)
  | .mbxInWordWrite .. => execMbxInWordWrite_keeps (Keeps.refl s)
  | .mbxTimeout => execMbxTimeout_keeps (Keeps.refl s)
  | .mbxInAbort => execMbxInAbort_keeps (Keeps.refl s)
  | .mbxSizeWrite .. => execMbxSizeWrite_keeps (Keeps.refl s)
  | .mbxOutRead => execMbxOutRead_keeps (Keeps.refl s)
  | .msgVersion => execMsgVersion_keeps (Keeps.refl s)
  | .msgRegRead => execMsgRegRead_keeps (Keeps.refl s)
  | .msgRegWrite => execMsgRegWrite_keeps (Keeps.refl s)
  | .msgEventRead => execMsgEventRead_keeps (Keeps.refl s)
  | .msgInfoRead => execMsgInfoRead_keeps (Keeps.refl s)
  | .msgInfoWrite => execMsgInfoWrite_keeps (Keeps.refl s)
  | .msgTypeUnknown => execMsgTypeUnknown_keeps (Keeps.refl s)
  | .lcAdvance .. => execLcAdvance_keeps (Keeps.refl s)
  | .nonce .. => execNonce_keeps (Keeps.refl s)
  | .nonceExpiry => execNonceExpiry_keeps (Keeps.refl s)
  | .keyProgram .. => execKeyProgram_keeps (Keeps.refl s)
  | .keyRevoke .. => execKeyRevoke_keeps (Keeps.refl s)
  | .debugUnlock .. => execDebugUnlock_keeps (Keeps.refl s)
  | .rollbackSet .. => execRollbackSet_keeps (Keeps.refl s)
  | .factorySave .. => execFactorySave_keeps (Keeps.refl s)
  | .secOpInvalid .. => execSecOpInvalid_keeps (Keeps.refl s)
  | .tokenVerifyDone => execTokenVerifyDone_keeps (Keeps.refl s)
  | .nvmWriteDone .. => execNvmWriteDone_keeps (Keeps.refl s)
  | .flashWriteDone .. => execFlashWriteDone_keeps (Keeps.refl s)

/-- The invariant does not look at the queue. -/
theorem State.Inv.withPending {s : State} (h : s.Inv) (q : List Instr) : State.Inv { s with pending := q } := h

/-- Settles O4: an idle step keeps the invariant, and a command does, whatever waits behind it. -/
theorem stepKeepsInvariant : Obligations.StepKeepsInvariant := by
  intro s t hs ht
  cases hq : s.pending with
  | nil =>
    rw [step_nil s hq] at ht
    cases ht
    exact (State.idle_keeps (Keeps.refl s)).inv_of hs
  | cons c q =>
    rw [step_cons s c q hq] at ht
    exact ((exec_keeps c _).elim ht).inv_of (hs.withPending q)

/-- Settles O6: the answer that `exec_keeps` gives has the queue of the state before. -/
theorem everyCommandAnswers : Obligations.EveryCommandAnswers := by
  intro c s
  obtain ⟨t, ht, hk⟩ := (exec_keeps c s).answers
  exact ⟨t, ht, hk.queue⟩

/-! ## The blocks a command may change -/

/-- A command with a list of blocks changes registers of these alone: one arm per command, each by the law of its meaning,
whose blocks are looked up in the list. -/
theorem exec_onlyIn {c : Instr} {s : State} {l : List Block} (h : touches c = some l) : OutOnlyIn l s (exec c s) := by
  have r := OnlyIn.refl l s
  cases c with
  | registerWrite => cases h
  | narrowAccess => cases h; exact execNarrowAccess_onlyIn r (by decide)
  | unmappedAccess => cases h; exact execUnmappedAccess_onlyIn r (by decide)
  | snapshotRead => cases h; apply execSnapshotRead_onlyIn r <;> decide
  | intStatusClear => cases h
  | intForceWrite => cases h
  | presetWrite => cases h; apply execPresetWrite_onlyIn r <;> decide
  | expertOverrideWrite => cases h
  | straitOverflow => cases h; apply execStraitOverflow_onlyIn r <;> decide
  | straitErrClr => cases h; apply execStraitErrClr_onlyIn r <;> decide
  | rgStoppedAccess => cases h; apply execRgStoppedAccess_onlyIn r <;> decide
  | codewordBoundaryApply => cases h; apply execCodewordBoundaryApply_onlyIn r <;> decide
  | frameBoundaryApply => cases h; apply execFrameBoundaryApply_onlyIn r <;> decide
  | txFrameBoundary => cases h; apply execTxFrameBoundary_onlyIn r <;> decide
  | vddAonPowerGood => cases h; apply execVddAonPowerGood_onlyIn r <;> decide
  | nvmLoadDone => cases h
  | supplyReady => cases h; apply execSupplyReady_onlyIn r <;> decide
  | supplyReadyTimeout => cases h
  | wakeRetry => cases h; exact execWakeRetry_onlyIn r (by decide)
  | imgValidationDone => cases h; apply execImgValidationDone_onlyIn r <;> decide
  | bootCommitDone => cases h
  | bootBistDone => cases h; apply execBootBistDone_onlyIn r <;> decide
  | imgValidate => cases h; apply execImgValidate_onlyIn r <;> decide
  | imgCommitFull => cases h; apply execImgCommitFull_onlyIn r <;> decide
  | imgCommitPartial => cases h; apply execImgCommitPartial_onlyIn r <;> decide
  | imgAbort => cases h; apply execImgAbort_onlyIn r <;> decide
  | imgMakeBoot => cases h; apply execImgMakeBoot_onlyIn r <;> decide
  | imgOpInvalid => cases h; apply execImgOpInvalid_onlyIn r <;> decide
  | pcIsolate => cases h; apply execPcIsolate_onlyIn r <;> decide
  | pcPause => cases h; apply execPcPause_onlyIn r <;> decide
  | pcTableWrite => cases h; apply execPcTableWrite_onlyIn r <;> decide
  | pcResume => cases h; apply execPcResume_onlyIn r <;> decide
  | imgPcClr => cases h; apply execImgPcClr_onlyIn r <;> decide
  | lrxEnable => cases h; apply execLrxEnable_onlyIn r <;> decide
  | lrxDisable => cases h; apply execLrxDisable_onlyIn r <;> decide
  | lrxRestart => cases h; apply execLrxRestart_onlyIn r <;> decide
  | lrxCommit => cases h; apply execLrxCommit_onlyIn r <;> decide
  | lrxCntClr => cases h; apply execLrxCntClr_onlyIn r <;> decide
  | lrxCalDone => cases h; apply execLrxCalDone_onlyIn r <;> decide
  | lrxCalTimeout => cases h; apply execLrxCalTimeout_onlyIn r <;> decide
  | sdAssert => cases h; apply execSdAssert_onlyIn r <;> decide
  | sdDeassert => cases h; apply execSdDeassert_onlyIn r <;> decide
  | agcWindow => cases h; apply execAgcWindow_onlyIn r <;> decide
  | agcTrimStep => cases h; exact execAgcTrimStep_onlyIn r (by decide)
  | cdrLockInterval => cases h; apply execCdrLockInterval_onlyIn r <;> decide
  | acqTimeout => cases h; apply execAcqTimeout_onlyIn r <;> decide
  | trainTimeout => cases h; apply execTrainTimeout_onlyIn r <;> decide
  | lrxFaultAutoRestart => cases h; apply execLrxFaultAutoRestart_onlyIn r <;> decide
  | adcOverrange => cases h; apply execAdcOverrange_onlyIn r <;> decide
  | adcShadowDone => cases h; apply execAdcShadowDone_onlyIn r <;> decide
  | swapDeferExpiry => cases h; apply execSwapDeferExpiry_onlyIn r <;> decide
  | wakePatternDetect => cases h; apply execWakePatternDetect_onlyIn r <;> decide
  | lockedToService => cases h; apply execLockedToService_onlyIn r <;> decide
  | serviceExit => cases h; apply execServiceExit_onlyIn r <;> decide
  | rxSleepWake => cases h; exact execRxSleepWake_onlyIn r (by decide)
  | rxResumeDone => cases h; apply execRxResumeDone_onlyIn r <;> decide
  | leqCommit => cases h; apply execLeqCommit_onlyIn r <;> decide
  | coefSnap => cases h; apply execCoefSnap_onlyIn r <;> decide
  | leqCntClr => cases h; apply execLeqCntClr_onlyIn r <;> decide
  | histStart => cases h; apply execHistStart_onlyIn r <;> decide
  | histDone => cases h; exact execHistDone_onlyIn r (by decide)
  | leqAdaptUpdate => cases h; exact execLeqAdaptUpdate_onlyIn r (by decide)
  | fomWindowEnd => cases h; apply execFomWindowEnd_onlyIn r <;> decide
  | dfeBurst => cases h; exact execDfeBurst_onlyIn r (by decide)
  | txEnableRequest => cases h; apply execTxEnableRequest_onlyIn r <;> decide
  | txEnableGo => cases h; apply execTxEnableGo_onlyIn r <;> decide
  | txenTimeout => cases h; apply execTxenTimeout_onlyIn r <;> decide
  | drvSettleExpiry => cases h; apply execDrvSettleExpiry_onlyIn r <;> decide
  | biasTimeout => cases h; apply execBiasTimeout_onlyIn r <;> decide
  | txActivate => cases h; apply execTxActivate_onlyIn r <;> decide
  | txDisable => cases h; apply execTxDisable_onlyIn r <;> decide
  | txDisableMute => cases h; apply execTxDisableMute_onlyIn r <;> decide
  | drvHoldExpiry => cases h; apply execDrvHoldExpiry_onlyIn r <;> decide
  | ltxRestart => cases h; apply execLtxRestart_onlyIn r <;> decide
  | ltxCommit => cases h; apply execLtxCommit_onlyIn r <;> decide
  | ltxCntClr => cases h; apply execLtxCntClr_onlyIn r <;> decide
  | drvFault => cases h; apply execDrvFault_onlyIn r <;> decide
  | txFaultDacOff => cases h; exact execTxFaultDacOff_onlyIn r (by decide)
  | txFaultAutoRestart => cases h; apply execTxFaultAutoRestart_onlyIn r <;> decide
  | dacCalDone => cases h; apply execDacCalDone_onlyIn r <;> decide
  | dacCellTrimDone => cases h; apply execDacCellTrimDone_onlyIn r <;> decide
  | dacClip => cases h; exact execDacClip_onlyIn r (by decide)
  | maskAverageEnd => cases h; apply execMaskAverageEnd_onlyIn r <;> decide
  | wakeSend => cases h; apply execWakeSend_onlyIn r <;> decide
  | wakePatternEnd => cases h; exact execWakePatternEnd_onlyIn r (by decide)
  | txSleepWake => cases h; apply execTxSleepWake_onlyIn r <;> decide
  | markerCandidate => cases h; exact execMarkerCandidate_onlyIn r (by decide)
  | frameMarkerCheck => cases h; apply execFrameMarkerCheck_onlyIn r <;> decide
  | serviceFrameReceived => cases h; apply execServiceFrameReceived_onlyIn r <;> decide
  | msgAckRx => cases h; apply execMsgAckRx_onlyIn r <;> decide
  | msgAbilityRx => cases h; apply execMsgAbilityRx_onlyIn r <;> decide
  | msgConfirmRx => cases h; apply execMsgConfirmRx_onlyIn r <;> decide
  | msgRenegRx n seq reason => cases h; apply execMsgRenegRx_onlyIn (_reason := reason) r <;> decide
  | msgProfileChangeRx => cases h; apply execMsgProfileChangeRx_onlyIn r <;> decide
  | msgProfileReplyRx => cases h; apply execMsgProfileReplyRx_onlyIn r <;> decide
  | msgTxTapReqRx => cases h; apply execMsgTxTapReqRx_onlyIn r <;> decide
  | msgTxTapReplyRx => cases h; apply execMsgTxTapReplyRx_onlyIn r <;> decide
  | msgUnknownRx => cases h; exact execMsgUnknownRx_onlyIn r (by decide)
  | sideChannelFrameRx => cases h; apply execSideChannelFrameRx_onlyIn r <;> decide
  | negTimeout => cases h; exact execNegTimeout_onlyIn r (by decide)
  | helloTimeout => cases h; apply execHelloTimeout_onlyIn r <;> decide
  | reneg => cases h; apply execReneg_onlyIn r <;> decide
  | lfrCntClr => cases h; apply execLfrCntClr_onlyIn r <;> decide
  | profileChange => cases h; apply execProfileChange_onlyIn r <;> decide
  | profileTimeout => cases h; apply execProfileTimeout_onlyIn r <;> decide
  | profileSwitch => cases h; apply execProfileSwitch_onlyIn r <;> decide
  | compatFormatSwitch => cases h; apply execCompatFormatSwitch_onlyIn r <;> decide
  | codewordEnqueue => cases h; apply execCodewordEnqueue_onlyIn r <;> decide
  | engineRequest => cases h; exact execEngineRequest_onlyIn r (by decide)
  | queueGrant => cases h; apply execQueueGrant_onlyIn r <;> decide
  | codewordExpiry => cases h; apply execCodewordExpiry_onlyIn r <;> decide
  | stealTransferDone => cases h; exact execStealTransferDone_onlyIn r (by decide)
  | engineLoadDone => cases h; apply execEngineLoadDone_onlyIn r <;> decide
  | engineIterationDone => cases h; apply execEngineIterationDone_onlyIn r <;> decide
  | engineStopPoint => cases h; apply execEngineStopPoint_onlyIn r <;> decide
  | emitPortGrant => cases h; apply execEmitPortGrant_onlyIn r <;> decide
  | emitDone => cases h; exact execEmitDone_onlyIn r (by decide)
  | releaseBufferWrite => cases h; exact execReleaseBufferWrite_onlyIn r (by decide)
  | codewordRelease => cases h; apply execCodewordRelease_onlyIn r <;> decide
  | engineDeadlineFail => cases h; apply execEngineDeadlineFail_onlyIn r <;> decide
  | microcodeEccError => cases h; apply execMicrocodeEccError_onlyIn r <;> decide
  | bgTaskDue => cases h; exact execBgTaskDue_onlyIn r
  | engineRefreshDone => cases h; apply execEngineRefreshDone_onlyIn r <;> decide
  | histGatherDone => cases h; apply execHistGatherDone_onlyIn r <;> decide
  | healthWindowTick => cases h; apply execHealthWindowTick_onlyIn r <;> decide
  | arcCntClr => cases h; apply execArcCntClr_onlyIn r <;> decide
  | arcClCntClr => cases h; apply execArcClCntClr_onlyIn r <;> decide
  | hifEnable => cases h; apply execHifEnable_onlyIn r <;> decide
  | hifDisable => cases h; apply execHifDisable_onlyIn r <;> decide
  | hifRetrain => cases h; apply execHifRetrain_onlyIn r <;> decide
  | hifCommit => cases h; apply execHifCommit_onlyIn r <;> decide
  | hifSlip => cases h; apply execHifSlip_onlyIn r <;> decide
  | alignDoneWrite => cases h; apply execAlignDoneWrite_onlyIn r <;> decide
  | hifCntClr => cases h; apply execHifCntClr_onlyIn r <;> decide
  | hifGlbCntClr => cases h; apply execHifGlbCntClr_onlyIn r <;> decide
  | hostCalDone => cases h; apply execHostCalDone_onlyIn r <;> decide
  | hostCalTimeout => cases h; apply execHostCalTimeout_onlyIn r <;> decide
  | trainingFrameRx => cases h; exact execTrainingFrameRx_onlyIn r (by decide)
  | hostFomWindowEnd => cases h; exact execHostFomWindowEnd_onlyIn r (by decide)
  | trainingComplete => cases h; apply execTrainingComplete_onlyIn r <;> decide
  | trainingAttemptFail => cases h; apply execTrainingAttemptFail_onlyIn r <;> decide
  | ehmTrainTimeout => cases h; apply execEhmTrainTimeout_onlyIn r <;> decide
  | amPeriod => cases h; apply execAmPeriod_onlyIn r <;> decide
  | alignTimeout => cases h; apply execAlignTimeout_onlyIn r <;> decide
  | hostCdrLockInterval => cases h; apply execHostCdrLockInterval_onlyIn r <;> decide
  | relockTimeout => cases h; apply execRelockTimeout_onlyIn r <;> decide
  | hostFaultAutoRestart => cases h; apply execHostFaultAutoRestart_onlyIn r <;> decide
  | hostSleepWake => cases h; apply execHostSleepWake_onlyIn r <;> decide
  | rsCodewordMonitor => cases h; exact execRsCodewordMonitor_onlyIn r (by decide)
  | todSetNow => cases h; apply execTodSetNow_onlyIn r <;> decide
  | todSetAtTimeIn => cases h; apply execTodSetAtTimeIn_onlyIn r <;> decide
  | todSetTimeout => cases h; exact execTodSetTimeout_onlyIn r (by decide)
  | todStep => cases h; apply execTodStep_onlyIn r <;> decide
  | todSlew => cases h; apply execTodSlew_onlyIn r <;> decide
  | todSlewDone => cases h; apply execTodSlewDone_onlyIn r <;> decide
  | timestampEvent => cases h; apply execTimestampEvent_onlyIn r <;> decide
  | crossCapture => cases h; exact execCrossCapture_onlyIn r (by decide)
  | driftMonitor => cases h; apply execDriftMonitor_onlyIn r <;> decide
  | tsfRead => cases h; apply execTsfRead_onlyIn r <;> decide
  | tsfFlush => cases h; apply execTsfFlush_onlyIn r <;> decide
  | timCntClr => cases h; apply execTimCntClr_onlyIn r <;> decide
  | timLnCntClr => cases h; apply execTimLnCntClr_onlyIn r <;> decide
  | ledgerPublish => cases h; apply execLedgerPublish_onlyIn r <;> decide
  | icrisRegionWrite => cases h; apply execIcrisRegionWrite_onlyIn r <;> decide
  | icrisInitiate => cases h; exact execIcrisInitiate_onlyIn r
  | echoReceived => cases h; apply execEchoReceived_onlyIn r <;> decide
  | initiationMiss => cases h; exact execInitiationMiss_onlyIn r (by decide)
  | exchStale => cases h; apply execExchStale_onlyIn r <;> decide
  | restartAvg => cases h; apply execRestartAvg_onlyIn r <;> decide
  | dpllUpdate => cases h; apply execDpllUpdate_onlyIn r <;> decide
  | dpllMissedUpdate => cases h; exact execDpllMissedUpdate_onlyIn r (by decide)
  | timeInEdge => cases h; apply execTimeInEdge_onlyIn r <;> decide
  | timeInMiss => cases h; exact execTimeInMiss_onlyIn r (by decide)
  | timeOutPulse => cases h; exact execTimeOutPulse_onlyIn r (by decide)
  | suspectEnd => cases h; exact execSuspectEnd_onlyIn r (by decide)
  | refLost => cases h; apply execRefLost_onlyIn r <;> decide
  | refCountDone => cases h; apply execRefCountDone_onlyIn r <;> decide
  | refBack => cases h; apply execRefBack_onlyIn r <;> decide
  | refOk => cases h; apply execRefOk_onlyIn r <;> decide
  | refHoldExpiry => cases h; apply execRefHoldExpiry_onlyIn r <;> decide
  | pllRelockTimeout => cases h; apply execPllRelockTimeout_onlyIn r <;> decide
  | pllLockWindow => cases h; apply execPllLockWindow_onlyIn r <;> decide
  | pllCalReq => cases h; apply execPllCalReq_onlyIn r <;> decide
  | pllCalStart => cases h; apply execPllCalStart_onlyIn r <;> decide
  | pllCalDone => cases h; apply execPllCalDone_onlyIn r <;> decide
  | clkCntClr => cases h; apply execClkCntClr_onlyIn r <;> decide
  | optTrigger => cases h; apply execOptTrigger_onlyIn r <;> decide
  | obiasConditionEvent => cases h; apply execObiasConditionEvent_onlyIn r <;> decide
  | envelopeTrip => cases h; apply execEnvelopeTrip_onlyIn r <;> decide
  | probeTimeout => cases h; apply execProbeTimeout_onlyIn r <;> decide
  | offTimeExpiry => cases h; apply execOffTimeExpiry_onlyIn r <;> decide
  | envSave => cases h; apply execEnvSave_onlyIn r <;> decide
  | optCntClr => cases h; apply execOptCntClr_onlyIn r <;> decide
  | monOutput => cases h; apply execMonOutput_onlyIn r <;> decide
  | monSwap => cases h; apply execMonSwap_onlyIn r <;> decide
  | monCntClr => cases h; apply execMonCntClr_onlyIn r <;> decide
  | pbTransaction => cases h; apply execPbTransaction_onlyIn r <;> decide
  | pbTransactionDone => cases h; exact execPbTransactionDone_onlyIn r (by decide)
  | pbTimeout => cases h; exact execPbTimeout_onlyIn r (by decide)
  | sleepRequest => cases h; apply execSleepRequest_onlyIn r <;> decide
  | sleepRequestClear => cases h; apply execSleepRequestClear_onlyIn r <;> decide
  | budgetWrite => cases h; apply execBudgetWrite_onlyIn r <;> decide
  | votePrepare => cases h; apply execVotePrepare_onlyIn r <;> decide
  | voteTimeout => cases h; apply execVoteTimeout_onlyIn r <;> decide
  | voteCommitStep => cases h
  | lateRefusal => cases h; apply execLateRefusal_onlyIn r <;> decide
  | sleepRetry => cases h; apply execSleepRetry_onlyIn r <;> decide
  | trimEntry => cases h; apply execTrimEntry_onlyIn r <;> decide
  | wakeTimerExpiry => cases h; apply execWakeTimerExpiry_onlyIn r <;> decide
  | lpmodeAssert => cases h; apply execLpmodeAssert_onlyIn r <;> decide
  | lpmodeDeassert => cases h; apply execLpmodeDeassert_onlyIn r <;> decide
  | standbySwWrite => cases h; apply execStandbySwWrite_onlyIn r <;> decide
  | standbyWake => cases h
  | deep => cases h; apply execDeep_onlyIn r <;> decide
  | deepWakeEvent => cases h; apply execDeepWakeEvent_onlyIn r <;> decide
  | deepImageRereadDone => cases h; apply execDeepImageRereadDone_onlyIn r <;> decide
  | dvfsRequest => cases h; apply execDvfsRequest_onlyIn r <;> decide
  | dvfsVoutConfirmed => cases h; exact execDvfsVoutConfirmed_onlyIn r (by decide)
  | dvfsStepDwell => cases h; exact execDvfsStepDwell_onlyIn r (by decide)
  | dvfsTimeout => cases h; exact execDvfsTimeout_onlyIn r (by decide)
  | dvfsExpertWrite => cases h; apply execDvfsExpertWrite_onlyIn r <;> decide
  | pmAlert => cases h; apply execPmAlert_onlyIn r <;> decide
  | supplyWarningStart => cases h; apply execSupplyWarningStart_onlyIn r <;> decide
  | supplyWarningEnd => cases h; apply execSupplyWarningEnd_onlyIn r <;> decide
  | supplyMonitorReset => cases h
  | resetNAssert => cases h
  | resetNRelease => cases h; exact execResetNRelease_onlyIn r (by decide)
  | domainStaggerStep => cases h
  | pwrCntClr => cases h; apply execPwrCntClr_onlyIn r <;> decide
  | thermalModelUpdate => cases h; apply execThermalModelUpdate_onlyIn r <;> decide
  | diodeMeasure => cases h; apply execDiodeMeasure_onlyIn r <;> decide
  | aonDiodeCompare => cases h; apply execAonDiodeCompare_onlyIn r <;> decide
  | aonThermalCrossing => cases h; apply execAonThermalCrossing_onlyIn r <;> decide
  | graceExpiry => cases h; apply execGraceExpiry_onlyIn r <;> decide
  | throttleStep => cases h; apply execThrottleStep_onlyIn r <;> decide
  | recoverExpiry => cases h; apply execRecoverExpiry_onlyIn r <;> decide
  | restore => cases h; apply execRestore_onlyIn r <;> decide
  | critClr => cases h; apply execCritClr_onlyIn r <;> decide
  | critAutoClear => cases h; apply execCritAutoClear_onlyIn r <;> decide
  | thmCntClr => cases h; apply execThmCntClr_onlyIn r <;> decide
  | faultSourceEvent => cases h; apply execFaultSourceEvent_onlyIn r <;> decide
  | faultWindowClose => cases h; exact execFaultWindowClose_onlyIn r (by decide)
  | hltSrcCfgWrite => cases h
  | lastingClear => cases h; apply execLastingClear_onlyIn r <;> decide
  | bistEngine => cases h; apply execBistEngine_onlyIn r <;> decide
  | bistLane => cases h; apply execBistLane_onlyIn r <;> decide
  | bistHost => cases h; apply execBistHost_onlyIn r <;> decide
  | bistXbar => cases h; apply execBistXbar_onlyIn r <;> decide
  | bistCtrlDac => cases h; apply execBistCtrlDac_onlyIn r <;> decide
  | bistMonAdc => cases h; apply execBistMonAdc_onlyIn r <;> decide
  | bistKeystore => cases h; apply execBistKeystore_onlyIn r <;> decide
  | bistEnvelope => cases h; apply execBistEnvelope_onlyIn r <;> decide
  | bistStart => cases h; apply execBistStart_onlyIn r <;> decide
  | bistWaitTimeout => cases h; apply execBistWaitTimeout_onlyIn r <;> decide
  | bistConditionLost => cases h; apply execBistConditionLost_onlyIn r <;> decide
  | bistDone => cases h; apply execBistDone_onlyIn r <;> decide
  | bistReinitDone => cases h; apply execBistReinitDone_onlyIn r <;> decide
  | bgBistDue => cases h; exact execBgBistDue_onlyIn r
  | adcStepDue => cases h; apply execAdcStepDue_onlyIn r <;> decide
  | dacStepDue => cases h; apply execDacStepDue_onlyIn r <;> decide
  | hltCntClr => cases h; apply execHltCntClr_onlyIn r <;> decide
  | watchdogMiss => cases h; exact execWatchdogMiss_onlyIn r (by decide)
  | fwRestartDone => cases h; apply execFwRestartDone_onlyIn r <;> decide
  | hostBusWrite => cases h; apply execHostBusWrite_onlyIn r <;> decide
  | hostBusRead => cases h; apply execHostBusRead_onlyIn r <;> decide
  | i3cEntdaa => cases h; exact execI3cEntdaa_onlyIn r (by decide)
  | i3cSetdasa => cases h; apply execI3cSetdasa_onlyIn r <;> decide
  | i3cSetnewda => cases h; apply execI3cSetnewda_onlyIn r <;> decide
  | i3cRstdaa => cases h; exact execI3cRstdaa_onlyIn r (by decide)
  | i3cGetpid => cases h; apply execI3cGetpid_onlyIn r <;> decide
  | i3cGetbcr => cases h; apply execI3cGetbcr_onlyIn r <;> decide
  | i3cGetdcr => cases h; apply execI3cGetdcr_onlyIn r <;> decide
  | i3cGetstatus => cases h; apply execI3cGetstatus_onlyIn r <;> decide
  | i3cGetmwl => cases h; apply execI3cGetmwl_onlyIn r <;> decide
  | i3cSetmwl => cases h; apply execI3cSetmwl_onlyIn r <;> decide
  | i3cGetmrl => cases h; apply execI3cGetmrl_onlyIn r <;> decide
  | i3cSetmrl => cases h; apply execI3cSetmrl_onlyIn r <;> decide
  | i3cUnsupportedCcc => cases h; exact execI3cUnsupportedCcc_onlyIn r
  | windowRead => cases h; apply execWindowRead_onlyIn r <;> decide
  | windowWrite => cases h
  | spiWrite => cases h
  | spiRead => cases h; apply execSpiRead_onlyIn r <;> decide
  | spiUnknownCmd => cases h; apply execSpiUnknownCmd_onlyIn r <;> decide
  | cmisControlAct => cases h
  | cmisDpdeinit => cases h; apply execCmisDpdeinit_onlyIn r <;> decide
  | cmisApplyDpinit => cases h; apply execCmisApplyDpinit_onlyIn r <;> decide
  | cmisLowpwrRequestSw => cases h
  | mcPageHostWrite => cases h; apply execMcPageHostWrite_onlyIn r <;> decide
  | cdbQueryStatus => cases h; exact execCdbQueryStatus_onlyIn r
  | cdbEnterPassword => cases h; exact execCdbEnterPassword_onlyIn r (by decide)
  | cdbChangePassword => cases h; apply execCdbChangePassword_onlyIn r <;> decide
  | cdbAbort => cases h; exact execCdbAbort_onlyIn r (by decide)
  | cdbModuleFeatures => cases h; exact execCdbModuleFeatures_onlyIn r (by decide)
  | cdbFwMgmtFeatures => cases h; exact execCdbFwMgmtFeatures_onlyIn r (by decide)
  | cdbGetFwInfo => cases h; exact execCdbGetFwInfo_onlyIn r (by decide)
  | cdbStartFwDownload => cases h; exact execCdbStartFwDownload_onlyIn r (by decide)
  | cdbAbortFwDownload => cases h; exact execCdbAbortFwDownload_onlyIn r (by decide)
  | cdbWriteFwBlockLpl => cases h; exact execCdbWriteFwBlockLpl_onlyIn r (by decide)
  | cdbWriteFwBlockEpl => cases h; exact execCdbWriteFwBlockEpl_onlyIn r (by decide)
  | cdbCompleteFwDownload => cases h; apply execCdbCompleteFwDownload_onlyIn r <;> decide
  | cdbRunFwImage => cases h; apply execCdbRunFwImage_onlyIn r <;> decide
  | cdbCommitFwImage => cases h; apply execCdbCommitFwImage_onlyIn r <;> decide
  | cdbTxTapRequest => cases h; apply execCdbTxTapRequest_onlyIn r <;> decide
  | cdbPartialCommit => cases h; apply execCdbPartialCommit_onlyIn r <;> decide
  | cdbUnsupported => cases h; exact execCdbUnsupported_onlyIn r (by decide)
  | cdbTxTapTimeout => cases h; exact execCdbTxTapTimeout_onlyIn r (by decide)
  | evfRead => cases h; apply execEvfRead_onlyIn r <;> decide
  | evfFlush => cases h; apply execEvfFlush_onlyIn r <;> decide
  | evfFormatWrite => cases h; apply execEvfFormatWrite_onlyIn r <;> decide
  | mgtCntClr => cases h; apply execMgtCntClr_onlyIn r <;> decide
  | mbxInWordWrite => cases h; apply execMbxInWordWrite_onlyIn r <;> decide
  | mbxTimeout => cases h; exact execMbxTimeout_onlyIn r (by decide)
  | mbxInAbort => cases h; apply execMbxInAbort_onlyIn r <;> decide
  | mbxSizeWrite => cases h; apply execMbxSizeWrite_onlyIn r <;> decide
  | mbxOutRead => cases h; apply execMbxOutRead_onlyIn r <;> decide
  | msgVersion => cases h; exact execMsgVersion_onlyIn r (by decide)
  | msgRegRead => cases h; apply execMsgRegRead_onlyIn r <;> decide
  | msgRegWrite => cases h
  | msgEventRead => cases h; apply execMsgEventRead_onlyIn r <;> decide
  | msgInfoRead => cases h; exact execMsgInfoRead_onlyIn r (by decide)
  | msgInfoWrite => cases h; apply execMsgInfoWrite_onlyIn r <;> decide
  | msgTypeUnknown => cases h; exact execMsgTypeUnknown_onlyIn r (by decide)
  | lcAdvance => cases h; apply execLcAdvance_onlyIn r <;> decide
  | nonce => cases h; apply execNonce_onlyIn r <;> decide
  | nonceExpiry => cases h; exact execNonceExpiry_onlyIn r (by decide)
  | keyProgram => cases h; apply execKeyProgram_onlyIn r <;> decide
  | keyRevoke => cases h; apply execKeyRevoke_onlyIn r <;> decide
  | debugUnlock => cases h; apply execDebugUnlock_onlyIn r <;> decide
  | rollbackSet => cases h; apply execRollbackSet_onlyIn r <;> decide
  | factorySave => cases h; apply execFactorySave_onlyIn r <;> decide
  | secOpInvalid => cases h; apply execSecOpInvalid_onlyIn r <;> decide
  | tokenVerifyDone => cases h; apply execTokenVerifyDone_onlyIn r <;> decide
  | nvmWriteDone => cases h; apply execNvmWriteDone_onlyIn r <;> decide
  | flashWriteDone => cases h; apply execFlashWriteDone_onlyIn r <;> decide

/-- Settles O7, by the law of each command. -/
theorem commandsStayInTheirBlocks : Obligations.CommandsStayInTheirBlocks :=
  fun _ _ _ _ hl ht => (exec_onlyIn hl).elim ht

/-! ## The width of every field -/

/-- No field has a number of 1400 or more. -/
theorem Field.ctorIdx_lt (f : Field) : f.ctorIdx < 1400 := by cases f <;> decide

/-- The table of reset values and widths, looked up field by field. -/
theorem Field.reset_table : (List.range 1400).all
    (fun k => decide ((Field.ofNat k).desc.reset < 2 ^ (Field.ofNat k).width)) = true := by decide +kernel

theorem Field.desc_reset_lt (f : Field) : f.desc.reset < 2 ^ f.width := by
  have h := List.all_eq_true.mp Field.reset_table f.ctorIdx (List.mem_range.mpr f.ctorIdx_lt)
  rw [Field.ofNat_ctorIdx] at h
  exact of_decide_eq_true h

theorem sourceDefault_lt (i : Nat) :
    (sourceDefault i).1 < 2 ^ 26 ∧ (sourceDefault i).2.1 < 2 ^ 10 ∧ (sourceDefault i).2.2 < 2 ^ 2 := by
  unfold sourceDefault
  split <;> decide

theorem ltxPresetTap_lt (p i : Nat) : ltxPresetTap p i < 2 ^ 12 := by
  unfold ltxPresetTap
  split <;> decide

/-- Every element of a field resets to a value of the field's width. -/
theorem Field.resetAt_lt (f : Field) (i : Nat) : f.resetAt i < 2 ^ f.width := by
  unfold Field.resetAt
  split
  case h_1 | h_2 | h_5 => split <;> decide
  case h_3 => exact ltxPresetTap_lt 0 i
  case h_4 =>
    split
    · decide
    · split <;> decide
  case h_6 => exact (sourceDefault_lt i).1
  case h_7 => exact (sourceDefault_lt i).2.1
  case h_8 => exact (sourceDefault_lt i).2.2
  case h_9 | h_10 => exact Nat.mod_lt _ (by decide)
  case h_11 =>
    show (if i < 8 then 127 + i else 255) < 256
    split <;> omega
  case h_12 | h_13 | h_14 | h_15 => decide
  case h_16 => exact Field.desc_reset_lt _

/-- A store in canonical form holds at each place a value of the place's width. -/
theorem Store.get_lt {m : Store} (h : m.wf = true) (k : Key) : m.get k < 2 ^ k.f.width := by
  unfold Store.get
  split
  next e he =>
    have hk : e.1 = k := by simpa using List.find?_some he
    have hok : entryOk e = true :=
      List.all_eq_true.mp (Bool.and_eq_true_iff.mp h).2 e (List.mem_of_find?_eq_some he)
    rw [← hk]
    exact of_decide_eq_true (Bool.and_eq_true_iff.mp hok).1
  next => exact Field.resetAt_lt k.f k.i

theorem State.Inv.live_wf {s : State} (h : s.Inv) : s.live.wf = true := by
  have hw := h.1
  simp only [State.wf, Bool.and_eq_true] at hw
  obtain ⟨⟨⟨⟨⟨⟨-, hlive⟩, -⟩, -⟩, -⟩, -⟩, -⟩ := hw
  exact hlive

theorem State.Inv.nvm_wf {s : State} (h : s.Inv) : s.nvm.wf = true := by
  have hw := h.1
  simp only [State.wf, Bool.and_eq_true] at hw
  obtain ⟨⟨⟨⟨⟨-, hnvm⟩, -⟩, -⟩, -⟩, -⟩ := hw
  exact hnvm

theorem State.Inv.rd_lt {s : State} (h : s.Inv) (f : Field) (n i : Nat) : s.rd f n i < 2 ^ f.width :=
  Store.get_lt h.regs_wf ⟨f, n, i⟩

theorem State.Inv.use_lt {s : State} (h : s.Inv) (f : Field) (n i : Nat) : s.use f n i < 2 ^ f.width :=
  Store.get_lt h.live_wf ⟨f, n, i⟩

theorem State.Inv.nvmGet_lt {s : State} (h : s.Inv) (f : Field) (n i : Nat) : s.nvmGet f n i < 2 ^ f.width :=
  Store.get_lt h.nvm_wf ⟨f, n, i⟩

/-- Settles O5: each store is in canonical form, so an entry fits its field; a place not listed reads its reset value,
which fits by the register tables. -/
theorem fieldsKeepTheirWidth : Obligations.FieldsKeepTheirWidth :=
  fun _ f n i h => ⟨h.rd_lt f n i, h.use_lt f n i, h.nvmGet_lt f n i⟩

end Sys2Proof.Machine

/-!
PROOFS. One step of the machine: the command at the front of the queue, the cycle of the TIME clock with its time of day,
and the TCK cycle of a tester (O1).
-/
namespace Sys2Proof.Machine

/-! ## What a TIME clock cycle leaves of the tester's port -/

/-- The count of clock cycles, the TAP and the TCK cycles of a tester are as in `r`. -/
structure SameTester (r s : State) : Prop where
  now : s.now = r.now
  tap : s.tap = r.tap
  tck : s.tck = r.tck

theorem SameTester.refl (r : State) : SameTester r r := ⟨rfl, rfl, rfl⟩

theorem SameTester.wr {r s : State} {f : Field} {v n i : Nat} (h : SameTester r s) : SameTester r (s.wr f v n i) :=
  ⟨h.now, h.tap, h.tck⟩

theorem SameTester.puts {r s : State} {l : List (Field × Nat)} {n : Nat} (h : SameTester r s) :
    SameTester r (s.puts l n) := by
  rw [State.puts_regs]
  exact ⟨h.now, h.tap, h.tck⟩

theorem SameTester.each {α : Type} {r s : State} {l : List α} {g : α → State → State} (h : SameTester r s)
    (hg : ∀ a u, SameTester r u → SameTester r (g a u)) : SameTester r (s.each l g) := by
  induction l generalizing s with
  | nil => exact h
  | cons a l ih => exact ih (hg a s h)

theorem SameTester.setEx {r s : State} {n : Nat} {e : LinkExchange} (h : SameTester r s) : SameTester r (s.setEx n e) :=
  ⟨h.now, h.tap, h.tck⟩

theorem SameTester.todDisc {r s : State} (h : SameTester r s) : SameTester r s.todDisc :=
  h.each fun _ _ hu => hu.puts.setEx.setEx.wr

theorem SameTester.slewCancel {r s : State} (h : SameTester r s) : SameTester r s.slewCancel := by
  unfold State.slewCancel
  split
  · exact h.puts.todDisc
  · exact h

theorem SameTester.setTodFull {r s : State} {v : Int} (h : SameTester r s) : SameTester r (s.setTodFull v) := h.puts

theorem SameTester.todSetTo {r s : State} {v : Int} (h : SameTester r s) : SameTester r (s.todSetTo v) :=
  h.slewCancel.wr.wr.wr.setTodFull.wr.todDisc.wr

theorem SameTester.todDone {r s : State} (h : SameTester r s) : SameTester r s.todDone := h.puts.wr

/-- A TIME clock cycle counts, and leaves the TAP and the TCK cycles. -/
theorem State.tick_sameTester (s : State) : SameTester { s with now := s.now + 1 } s.tick := by
  have h := SameTester.refl { s with now := s.now + 1 }
  unfold State.tick
  extract_lets s'
  split
  · exact h
  split
  · exact h.wr.todSetTo.todDone
  split
  · refine SameTester.wr (SameTester.setTodFull ?_)
    rename_i part _ _ _ _ _ _
    show SameTester _ (if part % 1000000 = 0 then s' else s'.free.2)
    split
    · exact h
    · exact ⟨h.now, h.tap, h.tck⟩
  · exact h.setTodFull

/-! ## The time of day (R25, R285, R286) -/

/-- How many units of 2^-40 ns the TOD counts before its 48 bits of seconds wrap. -/
def todSpan : Nat := 2 ^ 48 * 1000000000 * 2 ^ 40

/-- The TOD takes the value it is put at, wrapped. -/
theorem State.todFull_setTodFull (s : State) (v : Int) : ((s.setTodFull v).todFull : Int) = v % todSpan := by
  have hpos : 0 ≤ v % (todSpan : Int) := Int.emod_nonneg v (by decide)
  have hlt : v % (todSpan : Int) < todSpan := Int.emod_lt_of_pos v (by decide)
  have hw : State.todFull (s.setTodFull v) =
      (v % (todSpan : Int)).toNat / 2 ^ 24 % 2 ^ 112 * 2 ^ 24 + (v % (todSpan : Int)).toNat % 2 ^ 24 % 2 ^ 24 := by
    unfold State.todFull
    congr 2
    · unfold State.setTodFull
      simp only [State.puts_cons, State.puts_nil]
      rw [State.rd_wr_field _ _ _ _ _ _ (by decide), State.rd_wr_self]
      rfl
    · unfold State.setTodFull
      simp only [State.puts_cons, State.puts_nil]
      rw [State.rd_wr_self]
      rfl
  rw [hw]
  generalize hx : v % (todSpan : Int) = x at *
  unfold todSpan at hlt
  omega

theorem State.todFull_setTodFull_nat (s : State) (v : Nat) : (s.setTodFull v).todFull = v % todSpan := by
  have h := s.todFull_setTodFull v
  exact_mod_cast h

/-- Putting the TOD changes its two fields alone. -/
theorem State.setTodFull_changes (s : State) (v : Int) : Changes s (s.setTodFull v) 0 [.timTodNow, .timTodLow] := by
  refine ⟨State.puts_regs _ s 0, fun f m i hm => State.rd_puts_other _ s 0 f m i ?_⟩
  by_cases hf : f ∈ [Field.timTodNow, .timTodLow]
  · exact Or.inr (hm hf)
  · refine Or.inl fun e he h => hf ?_
    simp only [List.mem_cons, List.not_mem_nil, or_false] at he ⊢
    rcases he with rfl | rfl
    · exact Or.inl h
    · exact Or.inr h

theorem State.tick_off (s : State) (ht : s.on .pwrDomTime = false) : s.tick = { s with now := s.now + 1 } :=
  if_pos (congrArg (!·) ht)

theorem State.tick_advance (s : State) (ht : s.on .pwrDomTime = true) (hp : s.on .timTodPend = false)
    (hs : s.on .timSlewing = false) : s.tick = State.setTodFull { s with now := s.now + 1 } ((s.todFull + 2 ^ 41 : Nat)) := by
  have ht' : State.on { s with now := s.now + 1 } .pwrDomTime = true := ht
  have hp' : State.on { s with now := s.now + 1 } .timTodPend = false := hp
  have hs' : State.on { s with now := s.now + 1 } .timSlewing = false := hs
  unfold State.tick
  simp only [ht', hp', hs']
  rfl

theorem State.tick_set (s : State) (ht : s.on .pwrDomTime = true) (hp : s.on .timTodPend = true) : s.tick =
    ((State.wr { s with now := s.now + 1 } .timTodPend 0).todSetTo (unpackTime (s.rd .timTodSet) * 2 ^ 24 : Nat)).todDone := by
  have ht' : State.on { s with now := s.now + 1 } .pwrDomTime = true := ht
  have hp' : State.on { s with now := s.now + 1 } .timTodPend = true := hp
  unfold State.tick
  simp only [ht', hp']
  rfl

/-! ## A set of the TOD (R285, R286) -/

theorem State.rd_todDisc (s : State) {f : Field} (n i : Nat) (h : f.desc.block ≠ .timLn) :
    s.todDisc.rd f n i = s.rd f n i :=
  (State.todDisc_onlyIn (OnlyIn.refl [.timLn] s) (by decide)).read f n i (by simpa using h)

theorem State.rd_slewCancel (s : State) {f : Field} (n i : Nat) (h : f.desc.block ≠ .timLn)
    (hf : f ∉ [Field.timSlewing, .timSlewLeft]) : s.slewCancel.rd f n i = s.rd f n i := by
  unfold State.slewCancel
  split
  · rw [State.rd_todDisc _ _ _ h]
    exact State.rd_puts_other _ s 0 f n i (Or.inl fun e he => by
      simp only [List.mem_cons, List.not_mem_nil, or_false, not_or] at he hf
      rcases he with rfl | rfl
      · exact hf.1
      · exact hf.2)
  · rfl

theorem State.rd_setTodFull (s : State) (v : Int) {f : Field} (n i : Nat) (hf : f ∉ [Field.timTodNow, .timTodLow]) :
    (s.setTodFull v).rd f n i = s.rd f n i :=
  (s.setTodFull_changes v).2 f n i fun h => absurd h hf

/-- A jump of the TOD leaves the fields that it does not name. -/
theorem State.rd_todJump (s : State) (d : Int) {f : Field} (n i : Nat) (h : f.desc.block ≠ .timLn)
    (hf : f ∉ [Field.timJumpAt, .timJumpOld, .timJump, .timTodStepsCnt, .timTodNow, .timTodLow]) :
    (s.todJump d).rd f n i = s.rd f n i := by
  simp only [List.mem_cons, List.not_mem_nil, or_false, not_or] at hf
  obtain ⟨hat, hold, hjump, hcnt, hnow, hlow⟩ := hf
  unfold State.todJump
  rw [State.rd_todDisc _ _ _ h, State.rd_bump, if_neg (fun e => hcnt e.1), State.rd_setTodFull _ _ _ _ (by simp [hnow, hlow])]
  unfold State.wrInt
  rw [State.rd_wr_field _ _ _ _ _ _ hjump, State.rd_wr_field _ _ _ _ _ _ hold, State.rd_wr_field _ _ _ _ _ _ hat]

/-- A jump of the TOD counts in TOD_STEPS. -/
theorem State.rd_todJump_steps (s : State) (d : Int) : (s.todJump d).rd .timTodStepsCnt =
    min (s.rd .timTodStepsCnt + 1) (2 ^ Field.width .timTodStepsCnt - 1) := by
  unfold State.todJump State.wrInt
  rw [State.rd_todDisc _ _ _ (by decide), State.rd_bump, if_pos ⟨rfl, rfl, rfl⟩, State.rd_setTodFull _ _ _ _ (by decide),
    State.rd_wr_field _ _ _ _ _ _ (by decide), State.rd_wr_field _ _ _ _ _ _ (by decide),
    State.rd_wr_field _ _ _ _ _ _ (by decide)]
  exact Nat.mod_eq_of_lt (Nat.lt_of_le_of_lt (Nat.min_le_right _ _) (by decide))

/-- The TOD of two states with the same two fields is the same. -/
theorem State.todFull_congr {s t : State} (hnow : t.rd .timTodNow = s.rd .timTodNow)
    (hlow : t.rd .timTodLow = s.rd .timTodLow) : t.todFull = s.todFull := by
  unfold State.todFull
  rw [hnow, hlow]

theorem State.todFull_todJump (s : State) (d : Int) : ((s.todJump d).todFull : Int) = (s.todFull + d) % todSpan := by
  unfold State.todJump
  extract_lets old u
  have hu : u.todFull = s.todFull := by
    show State.todFull (State.wr (State.wr (State.wr s _ _) _ _) _ _) = _
    refine State.todFull_congr ?_ ?_ <;>
      rw [State.rd_wr_field _ _ _ _ _ _ (by decide), State.rd_wr_field _ _ _ _ _ _ (by decide),
        State.rd_wr_field _ _ _ _ _ _ (by decide)]
  have ht : (((u.setTodFull (u.todFull + d)).bump .timTodStepsCnt).todDisc).todFull =
      (u.setTodFull (u.todFull + d)).todFull := by
    refine State.todFull_congr ?_ ?_ <;>
      rw [State.rd_todDisc _ _ _ (by decide), State.rd_bump, if_neg (by decide)]
  rw [ht, State.todFull_setTodFull, hu]

/-- A set puts the TOD at its value, wrapped. -/
theorem State.todFull_todSetTo (s : State) (v : Nat) : (s.todSetTo v).todFull = v % todSpan := by
  have h : (s.todSetTo v).todFull = (s.slewCancel.todJump (v - s.slewCancel.todFull)).todFull :=
    State.todFull_congr (State.rd_wr_field _ _ _ _ _ _ (by decide)) (State.rd_wr_field _ _ _ _ _ _ (by decide))
  have hj := State.todFull_todJump s.slewCancel (v - s.slewCancel.todFull)
  rw [show (s.slewCancel.todFull : Int) + (v - s.slewCancel.todFull) = v by omega, ← h] at hj
  exact_mod_cast hj

theorem State.rd_todSetTo_steps (s : State) (v : Int) : (s.todSetTo v).rd .timTodStepsCnt =
    min (s.rd .timTodStepsCnt + 1) (2 ^ Field.width .timTodStepsCnt - 1) := by
  unfold State.todSetTo
  rw [State.rd_wr_field _ _ _ _ _ _ (by decide), State.rd_todJump_steps, State.rd_slewCancel _ _ _ (by decide) (by decide)]

theorem State.rd_todDone (s : State) {f : Field} (n i : Nat) (hf : f ∉ [Field.timTodGo, .timTodArm, .timIntStatus]) :
    s.todDone.rd f n i = s.rd f n i := by
  simp only [List.mem_cons, List.not_mem_nil, or_false, not_or] at hf
  obtain ⟨hgo, harm, hint⟩ := hf
  unfold State.todDone
  rw [State.rd_raise, if_neg (fun e => hint e.1), State.puts_cons, State.puts_cons, State.puts_nil,
    State.rd_wr_field _ _ _ _ _ _ harm, State.rd_wr_field _ _ _ _ _ _ hgo]

theorem State.todDone_clears_go (s : State) : s.todDone.rd .timTodGo = 0 := by
  unfold State.todDone
  rw [State.rd_raise, if_neg (by decide), State.puts_cons, State.puts_cons, State.puts_nil,
    State.rd_wr_field _ _ _ _ _ _ (by decide), State.rd_wr_self]
  rfl

/-- A status bit that is raised reads 1. -/
theorem State.testBit_rd_raise (s : State) (f : Field) (k n : Nat) (hk : k < f.width) :
    ((s.raise f k n).rd f n).testBit k = true := by
  rw [State.rd_raise, if_pos ⟨rfl, rfl, rfl⟩, Nat.testBit_mod_two_pow, Nat.testBit_or, Nat.testBit_two_pow_self]
  simp [hk]

/-! ## One TCK cycle (R469) -/

/-- The registers and the TCK cycles that wait are as in `r`, and the TAP controller is in its state. -/
structure SameCtl (r s : State) : Prop where
  regs : s.regs = r.regs
  tck : s.tck = r.tck
  ctl : s.tap.ctl = r.tap.ctl

theorem SameCtl.refl (r : State) : SameCtl r r := ⟨rfl, rfl, rfl⟩

theorem SameCtl.each {α : Type} {r s : State} {l : List α} {g : α → State → State} (h : SameCtl r s)
    (hg : ∀ a u, SameCtl r u → SameCtl r (g a u)) : SameCtl r (s.each l g) := by
  induction l generalizing s with
  | nil => exact h
  | cons a l ih => exact ih (hg a s h)

theorem State.tapCapture_sameCtl (s : State) : SameCtl s s.tapCapture := by
  unfold State.tapCapture
  split
  · exact ⟨rfl, rfl, rfl⟩
  · exact ⟨rfl, rfl, rfl⟩
  · exact ⟨rfl, rfl, rfl⟩
  · refine SameCtl.each ⟨rfl, rfl, rfl⟩ fun k u hu => ?_
    split <;> exact ⟨hu.regs, hu.tck, hu.ctl⟩

theorem State.tapEdge_sameCtl (s : State) (tdi : Bool) : SameCtl s (s.tapEdge tdi) := by
  unfold State.tapEdge
  split
  · exact ⟨rfl, rfl, rfl⟩
  · exact ⟨rfl, rfl, rfl⟩
  · exact s.tapCapture_sameCtl
  · exact ⟨rfl, rfl, rfl⟩
  · exact SameCtl.refl s

theorem State.tapUpdate_sameCtl (s : State) : SameCtl s s.tapUpdate := by
  unfold State.tapUpdate
  split
  · exact ⟨rfl, rfl, rfl⟩
  · exact ⟨rfl, rfl, rfl⟩
  · split <;> exact ⟨rfl, rfl, rfl⟩
  · exact SameCtl.refl s

/-- With TRST_N low the controller is in Test-Logic-Reset and BYPASS is selected. -/
theorem State.tckCycle_reset (s : State) {c : TckCycle} (hc : c.trstN = false) :
    s.tckCycle c = { s with tap := { s.tap with ctl := .reset, instr := .bypass } } :=
  if_pos (congrArg (!·) hc)

/-- With TRST_N high the controller takes the state that TMS selects. -/
theorem State.tckCycle_ctl (s : State) {c : TckCycle} (hc : c.trstN = true) :
    (s.tckCycle c).tap.ctl = s.tap.ctl.next c.tms := by
  have he := s.tapEdge_sameCtl c.tdi
  unfold State.tckCycle
  rw [if_neg (by simp [hc]), (State.tapUpdate_sameCtl _).ctl]
  exact congrArg (TapState.next c.tms) he.ctl

/-- A TCK cycle reaches no register, and no cycle after it. -/
theorem State.tckCycle_regs_tck (s : State) (c : TckCycle) : (s.tckCycle c).regs = s.regs ∧ (s.tckCycle c).tck = s.tck := by
  cases hc : c.trstN with
  | false => rw [s.tckCycle_reset hc]; exact ⟨rfl, rfl⟩
  | true =>
    have he := s.tapEdge_sameCtl c.tdi
    unfold State.tckCycle
    rw [if_neg (by simp [hc])]
    exact ⟨(State.tapUpdate_sameCtl _).regs.trans he.regs, (State.tapUpdate_sameCtl _).tck.trans he.tck⟩

theorem State.tapServe_nil (s : State) (h : s.tck = []) : s.tapServe = s := by
  unfold State.tapServe
  rw [h]

theorem State.tapServe_cons (s : State) {c : TckCycle} {l : List TckCycle} (h : s.tck = c :: l)
    (hp : s.unpowered = false) : s.tapServe = State.tckCycle { s with tck := l } c := by
  have hp' : State.unpowered { s with tck := l } = false := hp
  unfold State.tapServe
  rw [h]
  simp only [hp']
  rfl

/-- A TIME clock cycle leaves the presence of VDD_AON. -/
theorem State.tick_unpowered (s : State) : s.tick.unpowered = s.unpowered := by
  unfold State.unpowered
  rw [(State.tick_onlyIn (OnlyIn.refl [.tim, .timLn] s) (by decide) (by decide)).read .glbSeqStep 0 0 (by decide)]

/-! ## The step of an empty queue -/

/-- With no TCK cycle waiting the step of an empty queue is the clock cycle. -/
theorem step_idle_tick (s : State) (hq : s.pending = []) (ht : s.tck = []) : step s = .next s.tick := by
  rw [step_nil s hq]
  exact congrArg _ (s.tick.tapServe_nil (s.tick_sameTester.tck.trans ht))

/-- The step that takes the value of a TOD_SET_NOW. -/
theorem step_takes_todSet (s : State) (hq : s.pending = []) (hc : s.tck = []) (ht : s.on .pwrDomTime = true)
    (hp : s.on .timTodPend = true) : ∃ t, step s = .next t ∧
    t.todFull = unpackTime (s.rd .timTodSet) * 2 ^ 24 % todSpan ∧ t.now = s.now + 1 ∧
    t.rd .timTodPend = 0 ∧ t.rd .timTodValid = 1 ∧ t.rd .timTodGo = 0 ∧ (t.rd .timIntStatus).testBit Irq.timTodDone = true ∧
    t.rd .timTodStepsCnt = min (s.rd .timTodStepsCnt + 1) (2 ^ Field.width .timTodStepsCnt - 1) ∧
    OnlyIn [.tim, .timLn] s t := by
  have hset := s.tick_set ht hp
  refine ⟨s.tick, step_idle_tick s hq hc, ?_, s.tick_sameTester.now, ?_, ?_, ?_, ?_, ?_,
    State.tick_onlyIn (OnlyIn.refl _ s) (by decide) (by decide)⟩
  · rw [hset, ← State.todFull_todSetTo _ _]
    exact State.todFull_congr (State.rd_todDone _ _ _ (by decide)) (State.rd_todDone _ _ _ (by decide))
  · rw [hset, State.rd_todDone _ _ _ (by decide)]
    unfold State.todSetTo
    rw [State.rd_wr_field _ _ _ _ _ _ (by decide), State.rd_todJump _ _ _ _ (by decide) (by decide),
      State.rd_slewCancel _ _ _ (by decide) (by decide), State.rd_wr_self]
    rfl
  · rw [hset, State.rd_todDone _ _ _ (by decide)]
    exact State.rd_wr_self _ _ _ _ _
  · rw [hset]
    exact State.todDone_clears_go _
  · rw [hset]
    exact State.testBit_rd_raise _ _ _ _ (by decide)
  · rw [hset, State.rd_todDone _ _ _ (by decide), State.rd_todSetTo_steps, State.rd_wr_field _ _ _ _ _ _ (by decide)]
    rfl

/-- The step of an empty queue that serves a TCK cycle. -/
theorem step_serves_tck (s : State) {c : TckCycle} {l : List TckCycle} (hq : s.pending = []) (hc : s.tck = c :: l)
    (hp : s.unpowered = false) : ∃ t, step s = .next t ∧ t.tck = l ∧ t.regs = s.tick.regs ∧
    (c.trstN = false → t.tap.ctl = .reset ∧ t.tap.instr = .bypass) ∧
    (c.trstN = true → t.tap.ctl = s.tap.ctl.next c.tms) := by
  have htester := s.tick_sameTester
  have hserve := s.tick.tapServe_cons (htester.tck.trans hc) (s.tick_unpowered.trans hp)
  obtain ⟨hregs, htck⟩ := State.tckCycle_regs_tck { s.tick with tck := l } c
  refine ⟨_, (step_nil s hq).trans (congrArg _ hserve), htck, hregs, fun h => ?_, fun h => ?_⟩
  · rw [State.tckCycle_reset _ h]
    exact ⟨rfl, rfl⟩
  · rw [State.tckCycle_ctl _ h]
    exact congrArg (fun tap : Tap => tap.ctl.next c.tms) htester.tap

/-- Settles O1: the command at the front is served by definition; with none waiting, the clock cycle by what `State.tick`
does in each case, and the TCK cycle after it. -/
theorem stepServesQueue : Obligations.StepServesQueue := by
  refine ⟨fun c q s => step_cons s c q, ?_, ?_, ?_, ?_⟩
  · intro s hq hc ht
    rw [step_idle_tick s hq hc, s.tick_off ht]
  · intro s _ hq hc ht hs hp
    have hadv := s.tick_advance ht hp hs
    refine ⟨s.tick, step_idle_tick s hq hc, ?_, s.tick_sameTester.now, ?_⟩
    · rw [hadv, State.todFull_setTodFull_nat]
      rfl
    · rw [hadv]
      exact State.setTodFull_changes _ _
  · intro s _ hq hc ht hp
    exact step_takes_todSet s hq hc ht hp
  · intro c l s hq hc hp
    exact step_serves_tck s hq hc hp

end Sys2Proof.Machine

/-!
PROOFS. Two statements that fail: a fault of a line receiver waits during a partial commit (O47), and a write of a status
register settles the receiver's configuration in OFF (O56).
-/
namespace Sys2Proof.Machine

/-- Line lane 0, in SERVICE, is in the lane set of a partial commit whose tables are not written (R75 to R79); fault source 5
acts on its object and source 3 does not (R411). -/
def commitUnderWay : State :=
  ((State.reset.puts [(.imgState, 5), (.imgPcLanes, 1), (.lrxState, 5)]).wr .hltAction 2 0 5).wr .hltAction 1 0 3

/-- At its threshold source 5 leaves line lane 0 in SERVICE while the tables of a partial commit are not written: the entry
to FAULT waits (R79, log entry 66). -/
theorem faultSourceEvent_waits_for_tables :
    ∃ t, exec (.faultSourceEvent 5 0 16) commitUnderWay = .next t ∧ t.rd .lrxState = 5 ∧ t.rd .lrxFaultWait = 9 :=
  ⟨_, rfl, by decide +kernel, by decide +kernel⟩

/-- Refutes O47: an event of source 5 at its threshold with action 2 does not take the line receiver to FAULT in
`commitUnderWay`; by R79 the cause waits for the table writes, and the statement has no premise on `imgState`. -/
theorem not_faultWindowsAndPresets : ¬ Obligations.FaultWindowsAndPresets := by
  unfold Obligations.FaultWindowsAndPresets
  rintro ⟨-, -, -, -, hfault, -⟩
  obtain ⟨t, ht, -, hstate, -⟩ := hfault 5 0 16 commitUnderWay rfl (by decide) (by decide) (by decide +kernel)
    (by decide +kernel) (by decide +kernel) (by decide +kernel) (by decide +kernel)
  obtain ⟨u, hu, hwaits, -⟩ := faultSourceEvent_waits_for_tables
  obtain rfl : t = u := Host.Outcome.next.inj (ht.symm.trans hu)
  exact absurd (hwaits.symm.trans hstate) (by decide)

/-- MGMT and the island of line lane 0 run, lane 0 is in OFF with VGA_MAN_EN in use, and its AGC state reads RUN. -/
def manualInOff : State :=
  (State.reset.puts [(.pwrDomMgmt, 1), (.pwrDomLane, 1)]).setUse .lrxVgaManEn 1

/-- A write of 0 to the interrupt status register of line lane 0 in OFF puts its AGC in MANUAL: every write to a register of
the block settles the block's configuration. -/
theorem intStatusClear_settles_agc :
    ∃ t, exec (.intStatusClear 0x1000F0 0) manualInOff = .next t ∧ t.rd .lrxAgcState = 3 :=
  ⟨_, rfl, by decide +kernel⟩

/-- Refutes O56: from `manualInOff` a write of a line receiver's interrupt status changes `lrxAgcState`, where the statement
lets `lrxIntStatus` alone differ. -/
theorem not_registerFabric : ¬ Obligations.RegisterFabric := by
  unfold Obligations.RegisterFabric
  rintro ⟨-, -, -, -, -, -, -, -, -, -, -, -, -, -, -, -, -, -, -, -, -, -, -, -, hclear, -⟩
  have hinv : manualInOff.Inv := by unfold State.Inv State.shaped; decide +kernel
  obtain ⟨t, ht, -, hsame⟩ := hclear 0x1000F0 0 0 manualInOff hinv (by decide +kernel) (by decide +kernel) (by decide)
  obtain ⟨u, hu, hmanual⟩ := intStatusClear_settles_agc
  obtain rfl : t = u := Host.Outcome.next.inj (ht.symm.trans hu)
  have hrun := hsame.2 .lrxAgcState 0 0 (fun h => absurd h (by decide))
  exact absurd (hmanual.symm.trans hrun) (by decide +kernel)

end Sys2Proof.Machine

/-!
PROOFS. Codewords on their way into and out of the home queues of the archipelago (O27).
-/
namespace Sys2Proof.Machine

/-! ## What an event leaves of the queues, the port requests and the release buffers -/

/-- The home queues, the requests for the S-DX ports and the release buffers are as in `r`. -/
structure SameQueues (r s : State) : Prop where
  homeQ : s.homeQ = r.homeQ
  emits : s.emits = r.emits
  slots : s.slots = r.slots

namespace SameQueues

variable {r s : State}

theorem refl (r : State) : SameQueues r r := ⟨rfl, rfl, rfl⟩

theorem wr {f : Field} {v n i : Nat} (h : SameQueues r s) : SameQueues r (s.wr f v n i) := ⟨h.homeQ, h.emits, h.slots⟩

theorem bump {f : Field} {n i k : Nat} (h : SameQueues r s) : SameQueues r (s.bump f n i k) := h.wr

theorem raise {f : Field} {k n : Nat} (h : SameQueues r s) : SameQueues r (s.raise f k n) := h.wr

theorem puts {l : List (Field × Nat)} {n : Nat} (h : SameQueues r s) : SameQueues r (s.puts l n) := by
  rw [State.puts_regs]
  exact ⟨h.homeQ, h.emits, h.slots⟩

theorem when {c : Bool} {g : State → State} (h : SameQueues r s) (hg : ∀ u, SameQueues r u → SameQueues r (g u)) :
    SameQueues r (s.when c g) := by
  cases c
  · exact h
  · exact hg s h

theorem latestStart {c : Nat} {cw : Codeword} (h : SameQueues r s) : SameQueues r (s.latestStart c cw).2 := by
  unfold State.latestStart
  extract_lets need down
  split
  · exact h
  · exact ⟨h.homeQ, h.emits, h.slots⟩

theorem evfPut {ws : List Nat} (h : SameQueues r s) : SameQueues r (s.evfPut ws) := by
  have hw : SameQueues r (State.wr { s with evf := s.evf ++ ws } .evfWptr (s.rd .evfWptr + 2 * ws.length)) :=
    ⟨h.homeQ, h.emits, h.slots⟩
  exact (hw.when fun _ hu => hu.raise).when fun _ hu => hu.wr.raise

theorem evfFail {ty : Nat} {payload : List Nat} (h : SameQueues r s) : SameQueues r (s.evfFail ty payload) := by
  unfold State.evfFail
  extract_lets room t
  have ht : SameQueues r t := h.wr.raise
  split
  · exact ht.bump.raise
  split
  · exact ht.bump.raise
  split
  · exact ht.evfPut
  · exact ht.evfPut

theorem emit {ty obj : Nat} {payload : List Nat} (h : SameQueues r s) : SameQueues r (s.emit ty obj payload) := by
  unfold State.emit
  extract_lets t ws
  have ht : SameQueues r t := h.wr
  split
  · exact ht.bump
  split
  · exact ht.evfPut
  · exact ht.evfFail

theorem sourceCmis {src inst : Nat} (h : SameQueues r s) : SameQueues r (Machine.sourceCmis src inst s) := by
  unfold Machine.sourceCmis
  split
  · exact h.wr.when fun _ hu => hu.raise
  split
  · exact h.wr.when fun _ hu => hu.raise
  · exact h

theorem countEvent {src inst k : Nat} (h : SameQueues r s) : SameQueues r (s.countEvent src inst k).1 := by
  unfold State.countEvent
  extract_lets t count u w action w' v
  have ht : SameQueues r t := h.bump
  have hu : SameQueues r u := by
    unfold u
    split
    · exact ht
    · exact ht.wr.wr
  have hw : SameQueues r w := hu.wr
  split
  · exact ht
  split
  · exact SameQueues.sourceCmis hw.wr.wr.wr.raise.emit
  · exact hw

theorem dvfsKick (h : SameQueues r s) : SameQueues r s.dvfsKick := by
  unfold State.dvfsKick
  extract_lets target mv t go
  have ht : SameQueues r t := h.wr
  have hgo (p : Nat) : SameQueues r (go p) := ht.puts
  split
  · exact ht.when fun _ hu => hu.wr
  split
  · exact ht
  split
  · exact (hgo 1).puts
  split
  · exact hgo 2
  split
  · exact (hgo 3).puts
  · exact ht

theorem trimLoad {n : Nat} (h : SameQueues r s) : SameQueues r (s.trimLoad n) := by
  unfold State.trimLoad
  split
  · exact h.puts.raise.emit.when fun _ hu => hu.wr.dvfsKick
  · exact h

end SameQueues

theorem State.rd_latestStart (s : State) (c : Nat) (cw : Codeword) (f : Field) (n i : Nat) :
    (s.latestStart c cw).2.rd f n i = s.rd f n i := by
  unfold State.latestStart
  extract_lets need down
  split <;> rfl

/-! ## Writes of the fields of one unit -/

theorem Changes.refl (s : State) (n : Nat) (l : List Field) : Changes s s n l := ⟨rfl, fun _ _ _ _ => rfl⟩

theorem Changes.wr {s t : State} {n : Nat} {l : List Field} (h : Changes s t n l) {f : Field} {v i : Nat} (hf : f ∈ l) :
    Changes s (t.wr f v n i) n l := by
  refine ⟨congrArg (fun u => State.wr u f v n i) h.1, fun g m j hg => ?_⟩
  rw [State.rd_wr, if_neg (by rintro ⟨rfl, rfl, -⟩; exact hg hf rfl)]
  exact h.2 g m j hg

theorem Changes.when {s t : State} {n : Nat} {l : List Field} (h : Changes s t n l) {c : Bool} {g : State → State}
    (hg : ∀ u, Changes s u n l → Changes s (g u) n l) : Changes s (t.when c g) n l := by
  cases c
  · exact h
  · exact hg t h

/-! ## An event of a source that takes no action (R410, R411) -/

theorem State.countEvent_without_action (s : State) (src inst k : Nat) (h : s.rd .hltAction 0 src ≤ 1) :
    (s.countEvent src inst k).2 = false := by
  unfold State.countEvent
  extract_lets t count u w action w' v
  have hu : u.rd .hltAction 0 src = t.rd .hltAction 0 src := by
    unfold u
    split
    · rfl
    · rw [State.rd_wr_field _ _ _ _ _ _ (by decide), State.rd_wr_field _ _ _ _ _ _ (by decide)]
  have haction : action = s.rd .hltAction 0 src := by
    unfold action w
    rw [State.rd_wr_field _ _ _ _ _ _ (by decide), hu]
    exact State.rd_wr_field _ _ _ _ _ _ (by decide)
  split
  · rfl
  split
  · exact decide_eq_false (by omega)
  · rfl

/-- Where a source has no object action, an event of it is counted and nothing more. -/
theorem State.faultEvent_without_action (s : State) (src inst k : Nat) (h : s.rd .hltAction 0 src ≤ 1) :
    s.faultEvent src inst k = (s.countEvent src inst k).1 :=
  if_neg (by rw [s.countEvent_without_action src inst k h]; decide)

/-! ## Status bits and counters (R17, R18) -/

/-- A status bit that is set stays set. -/
theorem State.testBit_rd_raise_of_set (s : State) (f : Field) (j k n : Nat) (hj : j < f.width)
    (h : (s.rd f n).testBit j = true) : ((s.raise f k n).rd f n).testBit j = true := by
  rw [State.rd_raise, if_pos ⟨rfl, rfl, rfl⟩, Nat.testBit_mod_two_pow, Nat.testBit_or, h]
  simp [hj]

/-- What a saturating counter reads after it counts. -/
theorem State.rd_bump_self (s : State) (f : Field) (n i k : Nat) :
    (s.bump f n i k).rd f n i = min (s.rd f n i + k) (2 ^ f.width - 1) := by
  rw [State.rd_bump, if_pos ⟨rfl, rfl, rfl⟩]
  have hpos : 0 < 2 ^ f.width := Nat.two_pow_pos _
  exact Nat.mod_eq_of_lt (by omega)

/-! ## Requests for the S-DX port (R222, R229) -/

@[simp] theorem State.askPort_emits (s : State) (e : Emission) : (s.askPort e).emits = s.emits ++ [e] := rfl

@[simp] theorem State.askPort_homeQ (s : State) (e : Emission) : (s.askPort e).homeQ = s.homeQ := rfl

@[simp] theorem State.rd_askPort (s : State) (e : Emission) (f : Field) (n i : Nat) :
    (s.askPort e).rd f n i = s.rd f n i := rfl

@[simp] theorem State.askPort_slots (s : State) (e : Emission) : (s.askPort e).slots = s.slots := rfl

section
variable (s : State) (c eng : Nat) (bypass : Bool) (cw : Codeword) (hard : List Nat)

@[simp] theorem State.sendHard_emits : (s.sendHard c eng bypass cw hard).emits =
    s.emits ++ [⟨c, bypass, eng, cw, payloadOf hard, 0⟩] := rfl

@[simp] theorem State.sendHard_homeQ : (s.sendHard c eng bypass cw hard).homeQ = s.homeQ := rfl

@[simp] theorem State.rd_sendHard (f : Field) (n i : Nat) :
    (s.sendHard c eng bypass cw hard).rd f n i = s.rd f n i := rfl

@[simp] theorem State.sendHard_slots : (s.sendHard c eng bypass cw hard).slots = s.slots := rfl

end

/-! ## Expiry of a queued codeword (R224, R227, R228) -/

/-- EXP_Q of a codeword in the tally of cluster `c`, in the count of its lane and in the lane's interrupt status. -/
def State.expQMark (s : State) (c : Nat) (cw : Codeword) : State :=
  ((s.bump .arcTally c (16 * cw.lane + 15)).bump .arcClExpQCnt cw.lane).raise .arcClIntStatus Irq.arcClExpQ cw.lane

theorem State.expQMark_count (s : State) (c : Nat) (cw : Codeword) : (s.expQMark c cw).rd .arcClExpQCnt cw.lane =
    min (s.rd .arcClExpQCnt cw.lane + 1) (2 ^ Field.width .arcClExpQCnt - 1) := by
  unfold State.expQMark
  rw [State.rd_raise, if_neg (by simp), State.rd_bump_self, State.rd_bump, if_neg (by simp)]

theorem State.expQMark_flag (s : State) (c : Nat) (cw : Codeword) :
    ((s.expQMark c cw).rd .arcClIntStatus cw.lane).testBit Irq.arcClExpQ = true :=
  State.testBit_rd_raise _ _ _ _ (by decide)

theorem State.expQMark_keeps_flag (s : State) (c : Nat) (cw : Codeword) (j : Nat) (hj : j < Field.width .arcClIntStatus)
    (h : (s.rd .arcClIntStatus cw.lane).testBit j = true) :
    ((s.expQMark c cw).rd .arcClIntStatus cw.lane).testBit j = true := by
  refine State.testBit_rd_raise_of_set _ _ _ _ _ hj ?_
  rw [State.rd_bump, if_neg (by simp), State.rd_bump, if_neg (by simp)]
  exact h

theorem State.rd_expQMark (s : State) (c : Nat) (cw : Codeword) {f : Field} (n i : Nat)
    (hf : f ∉ [Field.arcTally, .arcClExpQCnt, .arcClIntStatus]) : (s.expQMark c cw).rd f n i = s.rd f n i := by
  simp only [List.mem_cons, List.not_mem_nil, or_false, not_or] at hf
  obtain ⟨htally, hcount, hstatus⟩ := hf
  unfold State.expQMark
  rw [State.rd_raise, if_neg (fun e => hstatus e.1), State.rd_bump, if_neg (fun e => hcount e.1), State.rd_bump,
    if_neg (fun e => htally e.1)]

/-- An expired codeword of lane `v` is counted and flagged alone: source 6 has no object action, and the lane is not in
Trim (R368, R411). -/
structure State.QuietExpiry (s : State) (v : Nat) : Prop where
  action : s.rd .hltAction 0 6 ≤ 1
  trim : s.on .pwrLnTrim v = false

theorem State.QuietExpiry.of_rd {s t : State} {v : Nat} (h : s.QuietExpiry v)
    (ha : t.rd .hltAction 0 6 = s.rd .hltAction 0 6) (ht : t.rd .pwrLnTrim v = s.rd .pwrLnTrim v) : t.QuietExpiry v :=
  ⟨ha ▸ h.action, (congrArg (· != 0) ht).trans h.trim⟩

theorem State.QuietExpiry.wr {s : State} {v : Nat} (h : s.QuietExpiry v) {f : Field} (x n i : Nat)
    (hf : f ≠ .hltAction ∧ f ≠ .pwrLnTrim) : (s.wr f x n i).QuietExpiry v :=
  h.of_rd (State.rd_wr_field _ _ _ _ _ _ hf.1.symm) (State.rd_wr_field _ _ _ _ _ _ hf.2.symm)

section
variable {s : State} {c : Nat} {cw : Codeword} (h : s.QuietExpiry cw.lane)
include h

/-- With no action of its source and the lane not in Trim, EXP_Q marks the lane and counts an event. -/
theorem State.cwEnd_expQ : s.cwEnd c cw .expQ = ((s.expQMark c cw).countEvent 6 cw.lane).1 := by
  have hm : (s.expQMark c cw).QuietExpiry cw.lane :=
    h.of_rd (State.rd_expQMark _ _ _ _ _ (by decide)) (State.rd_expQMark _ _ _ _ _ (by decide))
  have honly : OnlyIn [.evf, .hlt, .mgt] (s.expQMark c cw) ((s.expQMark c cw).countEvent 6 cw.lane).1 :=
    State.countEvent_onlyIn (OnlyIn.refl _ _) (by decide) (by decide) (by decide)
  have ht : ((s.expQMark c cw).countEvent 6 cw.lane).1.on .pwrLnTrim cw.lane = false :=
    (congrArg (· != 0) (honly.read .pwrLnTrim _ _ (by decide))).trans hm.trim
  calc s.cwEnd c cw .expQ
      = ((s.expQMark c cw).faultEvent 6 cw.lane).trimLoad cw.lane := rfl
    _ = ((s.expQMark c cw).countEvent 6 cw.lane).1.trimLoad cw.lane := by
        rw [State.faultEvent_without_action _ _ _ _ hm.action]
    _ = ((s.expQMark c cw).countEvent 6 cw.lane).1 := if_neg (by rw [ht]; decide)

theorem State.cwEnd_expQ_sameQueues : SameQueues s (s.cwEnd c cw .expQ) := by
  rw [State.cwEnd_expQ h]
  exact (SameQueues.refl s).bump.bump.raise.countEvent

theorem State.expireQ_homeQ : (s.expireQ cw).homeQ = s.homeQ := by
  rw [State.expireQ, State.sendHard_homeQ, (State.cwEnd_expQ_sameQueues h).homeQ]

theorem State.expireQ_emits : (s.expireQ cw).emits =
    s.emits ++ [⟨cw.lane, false, 128, cw, payloadOf (inputHard cw.llr), 0⟩] := by
  rw [State.expireQ, State.sendHard_emits, (State.cwEnd_expQ_sameQueues h).emits]

/-- What a register of a cluster's block reads after an expiry. -/
theorem State.rd_expireQ {f : Field} (n i : Nat) (hf : f.desc.block = .arcCl) :
    (s.expireQ cw).rd f n i = (s.expQMark cw.lane cw).rd f n i := by
  rw [State.expireQ, State.rd_sendHard, State.cwEnd_expQ h]
  have honly : OnlyIn [.evf, .hlt, .mgt] (s.expQMark cw.lane cw) ((s.expQMark cw.lane cw).countEvent 6 cw.lane).1 :=
    State.countEvent_onlyIn (OnlyIn.refl _ _) (by decide) (by decide) (by decide)
  exact honly.read f n i (by rw [hf]; decide)

theorem State.expireQ_count : (s.expireQ cw).rd .arcClExpQCnt cw.lane =
    min (s.rd .arcClExpQCnt cw.lane + 1) (2 ^ Field.width .arcClExpQCnt - 1) :=
  (State.rd_expireQ h _ _ rfl).trans (s.expQMark_count _ _)

theorem State.expireQ_flag : ((s.expireQ cw).rd .arcClIntStatus cw.lane).testBit Irq.arcClExpQ = true := by
  rw [State.rd_expireQ h _ _ rfl]
  exact s.expQMark_flag _ _

theorem State.expireQ_keeps_flag (j : Nat) (hj : j < Field.width .arcClIntStatus)
    (hset : (s.rd .arcClIntStatus cw.lane).testBit j = true) :
    ((s.expireQ cw).rd .arcClIntStatus cw.lane).testBit j = true := by
  rw [State.rd_expireQ h _ _ rfl]
  exact s.expQMark_keeps_flag _ _ j hj hset

end

/-! ## What a lane hands over (R48, R226, R239, R240) -/

/-- The descriptor with which codeword `index` of the frame under way enters the archipelago. -/
def State.codewordOf (s : State) (v index : Nat) (samples : List Int) : Codeword :=
  { lane := v
    profile := s.rd .lfrProfActive v
    frame := s.rd .lfrRxFrame v % 256
    index := index
    arrival := (s.arrivalOf v index).2
    deadline := ((s.arrivalOf v index).2 + (if s.rd .lfrProfActive v = 1 then 77113 else 163246)) % 2 ^ 24
    llrMap := s.rd .arcClMag0 v + 32 * (s.rd .arcClMag1 v + 32 * (s.rd .arcClMag2 v + 32 * s.rd .arcClMag3 v))
    iterLimit := if s.rd .lfrProfActive v = 1 then s.rd .arcClIterLimitE v else s.rd .arcClIterLimitL v
    llr := s.softCodes v samples }

@[simp] theorem State.codewordOf_llr (s : State) (v index : Nat) (samples : List Int) :
    (s.codewordOf v index samples).llr = s.softCodes v samples := by
  simp only [State.codewordOf]

/-- The slot of the release buffer that awaits the codeword, due the hold of its profile after its arrival. -/
def State.slotOf (s : State) (v index : Nat) : RelSlot :=
  { lane := v
    frame := s.rd .lfrRxFrame v % 256
    index := index
    profile := s.rd .lfrProfActive v
    due := ((s.arrivalOf v index).1 + holdOf (s.rd .lfrProfActive v)) % 2 ^ 24
    words := 0
    data := 0 }

/-- The codeword takes its slot. -/
def State.takeSlot (s : State) (v index : Nat) : State := { s with slots := s.slots ++ [s.slotOf v index] }

/-- The last slot is the codeword's, due after a hold that its profile gives. -/
theorem State.takeSlot_last (s : State) (v index hold : Nat) (hh : holdOf (s.rd .lfrProfActive v) = hold) :
    ((s.takeSlot v index).slots.getLast?).map (fun r => (r.lane, r.index, r.due, r.words)) =
      some (v, index, ((s.arrivalOf v index).1 + hold) % 2 ^ 24, 0) := by
  subst hh
  exact congrArg (Option.map _) List.getLast?_concat

@[simp] theorem State.rd_takeSlot (s : State) (v index : Nat) (f : Field) (n i : Nat) :
    (s.takeSlot v index).rd f n i = s.rd f n i := rfl

@[simp] theorem State.takeSlot_homeQ (s : State) (v index : Nat) : (s.takeSlot v index).homeQ = s.homeQ := rfl

theorem State.takeSlot_length (s : State) (v index : Nat) : (s.takeSlot v index).slots.length = s.slots.length + 1 :=
  List.length_append

/-- The codeword joins the end of the home queue of its lane. -/
def State.joinQueue (s : State) (cw : Codeword) : State := { s with homeQ := s.homeQ ++ [cw] }

@[simp] theorem State.joinQueue_homeQ (s : State) (cw : Codeword) : (s.joinQueue cw).homeQ = s.homeQ ++ [cw] := rfl

theorem State.queue_joinQueue (s : State) (cw : Codeword) :
    ((s.joinQueue cw).queue cw.lane).length = (s.queue cw.lane).length + 1 := by
  simp [State.queue, State.joinQueue, List.filter_append]

/-- Q_FULL of lane `v` with its interrupt. -/
def State.noteFull (s : State) (v : Nat) : State := (s.wr .arcClQFull 1 v).raise .arcClIntStatus Irq.arcClQFull v

/-- The codeword finds the home queue full: it expires at once (R228). -/
def State.meetFull (s : State) (cw : Codeword) : State := (s.noteFull cw.lane).expireQ cw

/-- The codeword is queued: the high-water mark follows, and a queue past its threshold ends Trim (R228, R368). -/
def State.queueUp (s : State) (cw : Codeword) : State :=
  let depth := ((s.joinQueue cw).queue cw.lane).length
  let t := (s.joinQueue cw).wr .arcClQHwm (max (s.rd .arcClQHwm cw.lane) depth) cw.lane
  t.when (decide (t.rd .pwrLnTrimWakeQ cw.lane < depth)) (fun u => u.trimLoad cw.lane)

theorem State.queueUp_sameQueues (s : State) (cw : Codeword) : SameQueues (s.joinQueue cw) (s.queueUp cw) := by
  unfold State.queueUp
  extract_lets depth t
  have ht : SameQueues (s.joinQueue cw) t := (SameQueues.refl _).wr
  exact ht.when fun _ hu => hu.trimLoad

theorem State.queueUp_highWater (s : State) (cw : Codeword) : (s.queueUp cw).rd .arcClQHwm cw.lane =
    max (s.rd .arcClQHwm cw.lane) ((s.queue cw.lane).length + 1) % 2 ^ Field.width .arcClQHwm := by
  unfold State.queueUp
  extract_lets depth t
  have honly : OnlyIn [.evf, .pwr, .pwrLn] t
      (t.when (decide (t.rd .pwrLnTrimWakeQ cw.lane < depth)) (fun u => u.trimLoad cw.lane)) :=
    (OnlyIn.refl _ _).when fun _ hu => State.trimLoad_onlyIn hu (by decide) (by decide) (by decide)
  rw [honly.read .arcClQHwm _ _ (by decide), ← s.queue_joinQueue cw]
  exact State.rd_wr_self _ _ _ _ _

section
variable {s : State} {cw : Codeword} (h : s.QuietExpiry cw.lane)
include h

theorem State.QuietExpiry.noteFull : (s.noteFull cw.lane).QuietExpiry cw.lane :=
  (h.wr _ _ _ (by decide)).wr _ _ _ (by decide)

theorem State.meetFull_homeQ : (s.meetFull cw).homeQ = s.homeQ := by
  rw [State.meetFull, State.expireQ_homeQ h.noteFull]
  rfl

theorem State.meetFull_emits : (s.meetFull cw).emits =
    s.emits ++ [⟨cw.lane, false, 128, cw, payloadOf (inputHard cw.llr), 0⟩] := by
  rw [State.meetFull, State.expireQ_emits h.noteFull]
  rfl

theorem State.meetFull_qFull : (s.meetFull cw).rd .arcClQFull cw.lane = 1 := by
  rw [State.meetFull, State.rd_expireQ h.noteFull _ _ rfl, State.rd_expQMark _ _ _ _ _ (by decide), State.noteFull,
    State.rd_raise, if_neg (by simp), State.rd_wr_self]
  rfl

theorem State.meetFull_count : (s.meetFull cw).rd .arcClExpQCnt cw.lane =
    min (s.rd .arcClExpQCnt cw.lane + 1) (2 ^ Field.width .arcClExpQCnt - 1) := by
  rw [State.meetFull, State.expireQ_count h.noteFull, State.noteFull, State.rd_raise, if_neg (by simp),
    State.rd_wr_field _ _ _ _ _ _ (by decide)]

theorem State.meetFull_flags : ((s.meetFull cw).rd .arcClIntStatus cw.lane).testBit Irq.arcClQFull = true ∧
    ((s.meetFull cw).rd .arcClIntStatus cw.lane).testBit Irq.arcClExpQ = true :=
  ⟨State.expireQ_keeps_flag h.noteFull _ (by decide) (State.testBit_rd_raise _ _ _ _ (by decide)),
    State.expireQ_flag h.noteFull⟩

end

/-- A codeword takes its slot and then the path of its profile. -/
theorem State.enqueue_eq (s : State) (v index : Nat) (samples : List Int) : s.enqueue v index samples =
    if s.rd .lfrProfActive v = 3 then (s.takeSlot v index).askPort
      ⟨v, true, 128, s.codewordOf v index samples, (Config.compatPayload samples).toNat, 0⟩
    else if s.rd .lfrProfActive v = 0 then (s.takeSlot v index).sendHard v 128 true (s.codewordOf v index samples)
      (inputHard (s.codewordOf v index samples).llr)
    else if s.homeQDepth v ≤ (s.queue v).length then (s.takeSlot v index).meetFull (s.codewordOf v index samples)
    else (s.takeSlot v index).queueUp (s.codewordOf v index samples) := rfl

/-- Of a codeword in compatibility mode no register but the count of units tells. -/
theorem State.compatEntered_changes (s t : State) (n index x : Nat) (e : Emission)
    (ht : t = ((s.wr .lfrUnits x n).takeSlot n index).askPort e) :
    Changes { s with slots := t.slots, emits := t.emits } t n [.lfrUnits] := by
  subst ht
  exact (Changes.refl _ n _).wr (by decide)

/-! ## When framing hands it over (R48, R120, R216, R332) -/

theorem exec_codewordEnqueue (n : Lane) (index : BitVec 8) (samples : List Int) (s : State) :
    exec (.codewordEnqueue n index samples) s = execCodewordEnqueue n index samples s := rfl

/-- A lane under frame lock in compatibility mode counts the unit that ends. -/
def State.countUnit (s : State) (n : Nat) : State :=
  s.when (s.rd .lfrGroupMode n == 2 && s.on .lfrFrameLock n) (fun t => t.wr .lfrUnits (t.rd .lfrUnits n + 1) n)

theorem State.countUnit_native (s : State) (n : Nat) (h : s.rd .lfrGroupMode n ≠ 2) : s.countUnit n = s := by
  simp [State.countUnit, beq_eq_false_iff_ne.mpr h]

theorem State.countUnit_compat (s : State) (n : Nat) (h : s.rd .lfrGroupMode n = 2) (hl : s.on .lfrFrameLock n = true) :
    s.countUnit n = s.wr .lfrUnits (s.rd .lfrUnits n + 1) n := by
  simp [State.countUnit, h, hl]

theorem State.rd_countUnit (s : State) (n : Nat) {f : Field} (m i : Nat) (hf : f ≠ .lfrUnits) :
    (s.countUnit n).rd f m i = s.rd f m i := by
  unfold State.countUnit
  cases s.rd .lfrGroupMode n == 2 && s.on .lfrFrameLock n
  · rfl
  · exact State.rd_wr_field _ _ _ _ _ _ hf

theorem State.on_countUnit (s : State) (n : Nat) {f : Field} (m i : Nat) (hf : f ≠ .lfrUnits) :
    (s.countUnit n).on f m i = s.on f m i := congrArg (· != 0) (s.rd_countUnit n m i hf)

/-- The first codeword of a discard window goes, counted where the window counts (R120, R216). -/
def State.discardOne (s : State) (n : Nat) : State :=
  (s.wr .lfrDiscLeft (s.rd .lfrDiscLeft n - 1) n).when (s.on .lfrDiscCnt n) (fun t => t.bump .lfrPcDiscardCnt n)

theorem State.discardOne_left (s : State) (hs : s.Inv) (n : Nat) :
    (s.discardOne n).rd .lfrDiscLeft n = s.rd .lfrDiscLeft n - 1 := by
  have hw : (s.wr .lfrDiscLeft (s.rd .lfrDiscLeft n - 1) n).rd .lfrDiscLeft n = s.rd .lfrDiscLeft n - 1 := by
    rw [State.rd_wr_self]
    exact Nat.mod_eq_of_lt (Nat.lt_of_le_of_lt (Nat.sub_le _ _) (hs.rd_lt .lfrDiscLeft n 0))
  unfold State.discardOne
  cases s.on .lfrDiscCnt n
  · exact hw
  · exact (State.rd_wr_field _ _ _ _ _ _ (by decide)).trans hw

theorem State.discardOne_count (s : State) (n : Nat) (hc : s.on .lfrDiscCnt n = true) :
    (s.discardOne n).rd .lfrPcDiscardCnt n =
      min (s.rd .lfrPcDiscardCnt n + 1) (2 ^ Field.width .lfrPcDiscardCnt - 1) := by
  unfold State.discardOne
  rw [hc, State.when_true, State.rd_bump_self, State.rd_wr_field _ _ _ _ _ _ (by decide)]

theorem State.discardOne_changes (s : State) (n : Nat) :
    Changes s (s.discardOne n) n [.lfrDiscLeft, .lfrPcDiscardCnt] :=
  ((Changes.refl s n _).wr (by decide)).when fun _ hu => hu.wr (by decide)

/-- Outside LOCKED and SERVICE a codeword goes no further. -/
theorem exec_codewordEnqueue_dropped {s : State} {n : Lane} (index : BitVec 8) (samples : List Int)
    (h : s.rd .lrxState n ≤ 3) : exec (.codewordEnqueue n index samples) s = .next (s.countUnit n) := by
  have hstate : ¬ (s.rd .lrxState n = 4 ∨ s.rd .lrxState n = 5) := by omega
  have hdrop : (!decide ((s.rd .lrxState n = 4 ∨ s.rd .lrxState n = 5) ∧
      (!(s.countUnit n).on .lrxSleep n) = true ∧ (!(s.countUnit n).on .lrxProfApply n) = true)) = true := by
    simp [hstate]
  exact (exec_codewordEnqueue n index samples s).trans (congrArg Host.Outcome.next (if_pos hdrop))

/-- The lane is LOCKED and awake, and no profile change or partial commit is at work on it. -/
structure State.Carries (s : State) (n : Nat) : Prop where
  locked : s.rd .lrxState n = 5
  awake : s.on .lrxSleep n = false
  settled : s.on .lrxProfApply n = false
  unpaused : s.on .lfrPcLeft n = false

section
variable {s : State} {n : Lane} (h : s.Carries n) (index : BitVec 8) (samples : List Int)
include h

theorem State.Carries.not_dropped : ¬ (!decide ((s.rd .lrxState n = 4 ∨ s.rd .lrxState n = 5) ∧
    (!(s.countUnit n).on .lrxSleep n) = true ∧ (!(s.countUnit n).on .lrxProfApply n) = true)) = true := by
  simp [h.locked, State.on_countUnit, h.awake, h.settled]

theorem State.Carries.not_paused : ¬ (s.countUnit n).on .lfrPcLeft n = true := by
  simp [State.on_countUnit, h.unpaused]

/-- A codeword within a discard window goes no further. -/
theorem exec_codewordEnqueue_discarded (hd : s.on .lfrDiscLeft n = true) :
    exec (.codewordEnqueue n index samples) s = .next ((s.countUnit n).discardOne n) := by
  have hdisc : (s.countUnit n).on .lfrDiscLeft n = true := by simp [State.on_countUnit, hd]
  exact (exec_codewordEnqueue n index samples s).trans (congrArg Host.Outcome.next
    ((if_neg h.not_dropped).trans ((if_neg h.not_paused).trans (if_pos hdisc))))

/-- A codeword outside a discard window reaches a running archipelago. -/
theorem exec_codewordEnqueue_entered (hd : s.on .lfrDiscLeft n = false) (hr : s.maskBit .glbDecodeRun n = true) :
    exec (.codewordEnqueue n index samples) s = .next ((s.countUnit n).enqueue n index.toNat samples) := by
  have hdisc : ¬ (s.countUnit n).on .lfrDiscLeft n = true := by simp [State.on_countUnit, hd]
  have hrun : ¬ (!(s.countUnit n).maskBit .glbDecodeRun n) = true := by
    unfold State.maskBit at hr ⊢
    simp [State.rd_countUnit, hr]
  exact (exec_codewordEnqueue n index samples s).trans (congrArg Host.Outcome.next
    ((if_neg h.not_dropped).trans ((if_neg h.not_paused).trans ((if_neg hdisc).trans (if_neg hrun)))))

end

/-! ## The head of a queue (R227) -/

/-- The codeword leaves its home queue. -/
def State.leaveQueue (s : State) (cw : Codeword) : State := { s with homeQ := s.homeQ.erase cw }

theorem exec_codewordExpiry (n : Lane) (phase : Int) (s : State) :
    exec (.codewordExpiry n phase) s = execCodewordExpiry n phase s := rfl

theorem exec_codewordExpiry_nil (n : Lane) (phase : Int) (s : State) (hq : s.queue n = []) :
    exec (.codewordExpiry n phase) s = .next s := by
  rw [exec_codewordExpiry]
  unfold execCodewordExpiry
  rw [hq]

/-- The head of the queue expires where its latest start has passed. -/
theorem exec_codewordExpiry_cons (n : Lane) (phase : Int) (s : State) (cw : Codeword) (q : List Codeword)
    (hq : s.queue n = cw :: q) : exec (.codewordExpiry n phase) s = .next
      (if notBefore (s.compAtc phase) (s.latestStart n cw).1 then (s.latestStart n cw).2
      else ((s.latestStart n cw).2.leaveQueue cw).expireQ cw) := by
  rw [exec_codewordExpiry]
  unfold execCodewordExpiry
  rw [hq]
  rfl

/-- Settles O27: each codeword that framing hands over by the state and the profile of its lane, each head by its latest
start time. -/
theorem codewordQueueing : Obligations.CodewordQueueing := by
  unfold Obligations.CodewordQueueing
  refine ⟨?dropped, ?discarded, ?ristretto, ?compat, ?queued, ?full, ?empty, ?early, ?late⟩
  case dropped =>
    intro n index samples s hst hm
    rw [exec_codewordEnqueue_dropped index samples hst, s.countUnit_native n hm]
  case discarded =>
    intro n index samples s hs hst hm hsleep hprof hpc hd
    have hrun := exec_codewordEnqueue_discarded ⟨hst, hsleep, hprof, hpc⟩ index samples hd
    rw [s.countUnit_native n hm] at hrun
    exact ⟨_, hrun, s.discardOne_left hs n, s.discardOne_count n, s.discardOne_changes n⟩
  case ristretto =>
    intro n index samples s hst hm hsleep hprof hpc hd hr hp
    have hrun := exec_codewordEnqueue_entered ⟨hst, hsleep, hprof, hpc⟩ index samples hd hr
    rw [s.countUnit_native n hm, s.enqueue_eq, if_neg (by omega), if_pos hp, State.codewordOf_llr] at hrun
    refine ⟨_, hrun, rfl, ?_, ?_, ?_, ?_, ?_, rfl⟩
    · exact List.take_left
    · exact s.takeSlot_length n _
    · rw [State.sendHard_slots]
      exact s.takeSlot_last n _ 5033 (by rw [hp]; rfl)
    · rw [State.sendHard_emits, List.getLast?_concat]
      rfl
    · rw [State.sendHard_emits, List.length_append]
      rfl
  case compat =>
    intro n index samples s hst hm hlock hsleep hprof hpc hd hr hp
    have hrun := exec_codewordEnqueue_entered ⟨hst, hsleep, hprof, hpc⟩ index samples hd hr
    have hp' : (s.countUnit n).rd .lfrProfActive n = 3 := (s.rd_countUnit n _ _ (by decide)).trans hp
    rw [State.enqueue_eq, if_pos hp', s.countUnit_compat n hm hlock] at hrun
    rw [s.countUnit_compat n hm hlock] at hp'
    refine ⟨_, hrun, ?_, ?_, ?_, ?_, ?_, ?_⟩
    · rw [State.askPort_homeQ, State.takeSlot_homeQ, State.wr_homeQ]
    · rw [State.askPort_slots, State.takeSlot_length, State.wr_slots]
    · rw [State.askPort_slots]
      exact State.takeSlot_last _ n _ 10240 (by rw [hp']; rfl)
    · rw [State.askPort_emits, List.getLast?_concat, Option.map_some]
      rfl
    · rw [State.rd_askPort, State.rd_takeSlot, State.rd_wr_self]
    · exact s.compatEntered_changes _ n index.toNat _ _ rfl
  case queued =>
    intro n index samples s hst hm hsleep hprof hpc hd hr hp hq
    have hrun := exec_codewordEnqueue_entered ⟨hst, hsleep, hprof, hpc⟩ index samples hd hr
    rw [s.countUnit_native n hm, s.enqueue_eq, if_neg (by omega), if_neg (by omega), if_neg (by omega)] at hrun
    have hsame := State.queueUp_sameQueues (s.takeSlot n index.toNat) (s.codewordOf n index.toNat samples)
    refine ⟨_, hrun, ?_, ?_, ?_, hsame.emits, ?_, ?_⟩
    · rw [hsame.homeQ]
      exact List.take_left
    · rw [hsame.homeQ, State.joinQueue_homeQ, List.getLast?_concat]
      simp only [State.codewordOf, Option.map_some]
    · rw [hsame.homeQ, State.joinQueue_homeQ, List.length_append]
      rfl
    · rw [hsame.slots]
      exact s.takeSlot_last n _ _ (by rcases hp with hp | hp <;> rw [hp] <;> rfl)
    · exact State.queueUp_highWater (s.takeSlot n index.toNat) (s.codewordOf n index.toNat samples)
  case full =>
    intro n index samples s hst hm hsleep hprof hpc hd hr hp hq haction htrim
    have hrun := exec_codewordEnqueue_entered ⟨hst, hsleep, hprof, hpc⟩ index samples hd hr
    rw [s.countUnit_native n hm, s.enqueue_eq, if_neg (by omega), if_neg (by omega), if_pos hq] at hrun
    have hquiet : (s.takeSlot n index.toNat).QuietExpiry (s.codewordOf n index.toNat samples).lane := ⟨haction, htrim⟩
    obtain ⟨hfull, hexp⟩ := State.meetFull_flags hquiet
    refine ⟨_, hrun, State.meetFull_qFull hquiet, State.meetFull_count hquiet, hfull, hexp,
      State.meetFull_homeQ hquiet, ?_⟩
    rw [State.meetFull_emits hquiet, List.length_append]
    rfl
  case empty => exact fun n phase s hq => exec_codewordExpiry_nil n phase s hq
  case early =>
    intro n phase cw q s hq hb
    exact ⟨_, (exec_codewordExpiry_cons n phase s cw q hq).trans (congrArg _ (if_pos hb)), rfl⟩
  case late =>
    intro n phase cw q s hq hb hlane haction htrim
    have hrun := (exec_codewordExpiry_cons n phase s cw q hq).trans (congrArg _ (if_neg (by rw [hb]; decide)))
    have hstart : SameQueues s (s.latestStart n cw).2 := (SameQueues.refl s).latestStart
    have hquiet : ((s.latestStart n cw).2.leaveQueue cw).QuietExpiry cw.lane := by
      rw [hlane]
      exact (⟨haction, htrim⟩ : s.QuietExpiry n).of_rd (s.rd_latestStart _ _ _ _ _) (s.rd_latestStart _ _ _ _ _)
    have hcount := State.expireQ_count hquiet
    have hflag := State.expireQ_flag hquiet
    have hemits := State.expireQ_emits hquiet
    rw [hlane] at hcount hflag hemits
    refine ⟨_, hrun, ?_, ?_, hflag, ?_⟩
    · exact (State.expireQ_homeQ hquiet).trans (congrArg (List.erase · cw) hstart.homeQ)
    · rwa [← s.rd_latestStart n cw .arcClExpQCnt]
    · rwa [← hstart.emits]

end Sys2Proof.Machine

/-!
PROOFS. Two statements that fail: a commit of LLR edges that do not rise keeps the edges in use (O26), and an engine
under test fetches no microcode (O30).
-/
namespace Sys2Proof.Machine

/-- Line lane 0 is in SERVICE with a commit of its equaliser waiting, and software has written the edge B1 as high as
B2. -/
def flatEdges : State := State.reset.puts [(.lrxState, 5), (.leqCommit, 1), (.leqB1, 0x28)]

/-- The receive codeword boundary applies the commit and keeps the edge B1 in use, as B1 < B2 < B3 does not hold
(R159). -/
theorem codewordBoundaryApply_keeps_edges :
    ∃ t, exec (.codewordBoundaryApply 0 false) flatEdges = .next t ∧ t.rd .leqCommit = 0 ∧ t.use .leqB1 = 0x10 :=
  ⟨_, rfl, by decide +kernel, by decide +kernel⟩

/-- Refutes O26: at a boundary of line lane 0 in `flatEdges` the edge B1 stays at its value in use, where the statement
has every shadowed field of the equaliser applied. -/
theorem not_boundariesAndStraits : ¬ Obligations.BoundariesAndStraits := by
  unfold Obligations.BoundariesAndStraits
  rintro ⟨-, -, -, hcommit, -⟩
  have hinv : flatEdges.Inv := by unfold State.Inv State.shaped; decide +kernel
  obtain ⟨t, ht, -, happlied⟩ := hcommit 0 false flatEdges hinv rfl (by decide +kernel) (by decide +kernel)
    (by decide +kernel)
  obtain ⟨u, hu, -, hkept⟩ := codewordBoundaryApply_keeps_edges
  obtain rfl : t = u := Host.Outcome.next.inj (ht.symm.trans hu)
  exact absurd (hkept.symm.trans (happlied .leqB1 (by decide))) (by decide +kernel)

/-- An engine that is out of the pool fetches no microcode: an error of its store changes nothing (R220, R244). -/
theorem microcodeEccError_out_of_pool (e : Fin 128) (double : Bool) (s : State) (h : 5 ≤ s.engState e) :
    exec (.microcodeEccError e double) s = .next s :=
  congrArg Host.Outcome.next (if_pos h)

/-- Decode island 0 runs and engine 0 is in BIST. -/
def engineUnderTest : State := State.reset.puts [(.glbDecodeRun, 1), (.arcEngSt, 5)]

/-- Refutes O30: a single error at engine 0 in `engineUnderTest` is not counted, where the statement counts it in every
state of an engine below FAILED, BIST and ISOLATED among them. -/
theorem not_releaseAndBackgroundWork : ¬ Obligations.ReleaseAndBackgroundWork := by
  unfold Obligations.ReleaseAndBackgroundWork
  rintro ⟨-, -, -, -, -, -, -, hsingle, -⟩
  have htest : engineUnderTest.engState 0 = 5 := by decide +kernel
  have hbelow : engineUnderTest.engState (0 : Fin 128) < 7 := Nat.lt_of_le_of_lt (Nat.le_of_eq htest) (by decide)
  obtain ⟨t, ht, hcounted, -⟩ := hsingle 0 false engineUnderTest hbelow rfl
  have hsame := microcodeEccError_out_of_pool 0 false engineUnderTest (Nat.le_of_eq htest.symm)
  obtain rfl : t = engineUnderTest := Host.Outcome.next.inj (ht.symm.trans hsame)
  exact absurd hcounted (by decide +kernel)

end Sys2Proof.Machine

/-!
PROOFS. The commands of the common data block (O59).
-/
namespace Sys2Proof.Machine

/-! ## Writes of several fields -/

/-- A field reads a value that fits it as it was written. -/
theorem State.rd_wr_fits (s : State) (f : Field) (v n i : Nat) (h : v < 2 ^ f.width) : (s.wr f v n i).rd f n i = v := by
  rw [State.rd_wr_self, Nat.mod_eq_of_lt h]

/-- A field that a list of writes names once reads the value written to it. -/
theorem State.rd_puts_of_mem {s : State} {l : List (Field × Nat)} {n : Nat} {f : Field} {v : Nat} (hmem : (f, v) ∈ l)
    (honce : (l.map Prod.fst).Nodup) (h : v < 2 ^ f.width) : (s.puts l n).rd f n = v := by
  induction l generalizing s with
  | nil => simp at hmem
  | cons e l ih =>
    obtain ⟨hnew, hrest⟩ := List.nodup_cons.mp honce
    rcases List.mem_cons.mp hmem with rfl | hmem
    · refine (State.rd_puts_other l _ n _ n 0 (Or.inl fun x hx hf => hnew ?_)).trans (s.rd_wr_fits _ _ _ _ h)
      exact List.mem_map.mpr ⟨x, hx, hf.symm⟩
    · exact ih hmem hrest

theorem Changes.puts {s t : State} {n : Nat} {l : List Field} (h : Changes s t n l) {k : List (Field × Nat)}
    (hk : ∀ e ∈ k, e.1 ∈ l) : Changes s (t.puts k n) n l := by
  induction k generalizing t with
  | nil => exact h
  | cons e k ih => exact ih (h.wr (hk e (by simp))) (fun x hx => hk x (by simp [hx]))

/-- A list of blocks may grow and change its order. -/
theorem OnlyIn.mono {l k : List Block} {r s : State} (h : OnlyIn l r s) (hk : ∀ b ∈ l, b ∈ k) : OnlyIn k r s :=
  ⟨fun f n i hf => h.read f n i (fun e => hf (hk _ e)), fun f n i hf => h.inUse f n i (fun e => hf (hk _ e))⟩

/-! ## When a CDB command is served (R60, R446, R477) -/

/-- A CDB command is served: MGMT and the firmware run, no command is in progress, and the ROM firmware is not at work. -/
structure State.CdbServes (s : State) : Prop where
  mgmt : s.on .pwrDomMgmt = true
  up : s.on .mgtFwDown = false
  going : s.on .mgtFwHalt = false
  idle : s.rd .cdbStatus ≠ 0x83
  committed : s.on .mgtRomFw = false

theorem State.CdbServes.cdb_eq {s : State} (h : s.CdbServes) (rom password : Bool) (g : State → State) :
    s.cdb rom password g = if password && s.on .cdbPwReq && !s.on .cdbPwOk then s.cdbEnd 0x46 else g s := by
  have hserved : (!s.on .pwrDomMgmt || s.on .mgtFwDown || s.on .mgtFwHalt || s.rd .cdbStatus == 0x83) = false := by
    simp [h.mgmt, h.up, h.going, h.idle]
  have hrom : (s.on .mgtRomFw && !rom) = false := by rw [h.committed]; rfl
  rw [State.cdb, hserved, hrom]
  rfl

section
variable {s : State} (h : s.CdbServes)
include h

/-- A command without a password runs. -/
theorem State.CdbServes.served (rom : Bool) (g : State → State) : s.cdb rom false g = g s := h.cdb_eq rom false g

/-- A protected command runs where no password is required. -/
theorem State.CdbServes.unlocked (hreq : s.on .cdbPwReq = false) (rom : Bool) (g : State → State) :
    s.cdb rom true g = g s := by
  rw [h.cdb_eq, hreq]
  rfl

/-- A protected command ends where the password is required and was not given. -/
theorem State.CdbServes.locked (hreq : s.on .cdbPwReq = true) (hok : s.on .cdbPwOk = false) (rom : Bool)
    (g : State → State) : s.cdb rom true g = s.cdbEnd 0x46 := by
  rw [h.cdb_eq, hreq, hok]
  rfl

end

/-! ## The end of a CDB command (R446) -/

theorem State.rd_cdbEnd (s : State) (status : Nat) {f : Field} (n i : Nat) (hf : f ∉ [Field.cdbStatus, .cdbTapRun]) :
    (s.cdbEnd status).rd f n i = s.rd f n i :=
  State.rd_puts_other _ _ _ _ _ _ (Or.inl (by simpa using hf))

theorem State.cdbEnd_status (s : State) {status : Nat} (h : status < 256) : (s.cdbEnd status).rd .cdbStatus = status :=
  State.rd_puts_of_mem (by simp) (by simp) h

theorem Changes.cdbEnd {s t : State} {l : List Field} (h : Changes s t 0 l) (status : Nat) (hs : Field.cdbStatus ∈ l)
    (ht : Field.cdbTapRun ∈ l) : Changes s (t.cdbEnd status) 0 l :=
  h.puts (by simp [hs, ht])

/-- A command whose whole effect is its end with a status. -/
theorem cdb_ends {c : Instr} {s : State} {status : Nat} (hrun : exec c s = .next (s.cdbEnd status)) (h : status < 256) :
    ∃ t, exec c s = .next t ∧ t.rd .cdbStatus = status ∧ Changes s t 0 [.cdbStatus, .cdbTapRun] :=
  ⟨_, hrun, s.cdbEnd_status h, (Changes.refl s 0 _).cdbEnd _ (by decide) (by decide)⟩

/-- The same of a download command, of which the NVM is as it was (R447). -/
theorem cdb_ends_with_nvm {c : Instr} {s : State} {status : Nat} (hrun : exec c s = .next (s.cdbEnd status))
    (h : status < 256) :
    ∃ t, exec c s = .next t ∧ t.nvm = s.nvm ∧ t.rd .cdbStatus = status ∧ Changes s t 0 [.cdbStatus, .cdbTapRun] :=
  ⟨_, hrun, rfl, s.cdbEnd_status h, (Changes.refl s 0 _).cdbEnd _ (by decide) (by decide)⟩

/-- A command that answers and ends with success. -/
theorem cdb_answers {c : Instr} {s : State} {l : List Nat} (hrun : exec c s = .next ((s.answers l).cdbEnd 0x01)) :
    ∃ t, exec c s = .next t ∧ t.answer = l ∧ t.rd .cdbStatus = 1 ∧
      Changes { s with answer := t.answer } t 0 [.cdbStatus, .cdbTapRun] :=
  ⟨_, hrun, rfl, State.cdbEnd_status _ (by decide), (Changes.refl (s.answers l) 0 _).cdbEnd _ (by decide) (by decide)⟩

/-- A command that waits for the flash. -/
theorem cdb_waits_for_flash {c : Instr} {s : State} (hrun : exec c s = .next s.cdbFlashStart) :
    ∃ t, exec c s = .next t ∧ t.rd .cdbFlash = 1 ∧ t.rd .cdbStatus = 0x83 ∧ Changes s t 0 [.cdbFlash, .cdbStatus] :=
  ⟨_, hrun, State.rd_puts_of_mem (by simp) (by simp) (by decide), State.rd_puts_of_mem (by simp) (by simp) (by decide),
    (Changes.refl s 0 _).puts (by simp)⟩

/-! ## Blocks of a download (R446, R447) -/

section
variable {c : Instr} {s : State} {off len most : Nat} (hrun : exec c s = .next (s.cdbBlock off len most))
include hrun

/-- With no download open. -/
theorem cdbBlock_ends_closed (h : s.on .cdbDlOpen = false) :
    ∃ t, exec c s = .next t ∧ t.rd .cdbStatus = 0x40 ∧ Changes s t 0 [.cdbStatus, .cdbTapRun] :=
  cdb_ends (hrun.trans (congrArg Host.Outcome.next (if_pos (by rw [h]; rfl)))) (by decide)

/-- With a block that is too long or reaches past the slot. -/
theorem cdbBlock_ends_misfit (h : s.on .cdbDlOpen = true) (hfit : most < len ∨ slotBytes < off + len) :
    ∃ t, exec c s = .next t ∧ t.rd .cdbStatus = 0x42 ∧ Changes s t 0 [.cdbStatus, .cdbTapRun] :=
  cdb_ends (hrun.trans (congrArg Host.Outcome.next ((if_neg (by rw [h]; decide)).trans (if_pos (Or.inr hfit)))))
    (by decide)

/-- With a block that fits. -/
theorem cdbBlock_waits (h : s.on .cdbDlOpen = true) (hpos : 1 ≤ len) (hmost : len ≤ most)
    (hplace : off + len ≤ slotBytes) :
    ∃ t, exec c s = .next t ∧ t.rd .cdbFlash = 1 ∧ t.rd .cdbStatus = 0x83 ∧ Changes s t 0 [.cdbFlash, .cdbStatus] :=
  cdb_waits_for_flash
    (hrun.trans (congrArg Host.Outcome.next ((if_neg (by rw [h]; decide)).trans (if_neg (by omega)))))

end

/-! ## Image commands from RUNNING (R71 to R73, R80, R81) -/

theorem State.imgBusy_of_state {s : State} {k : Nat} (h : s.rd .imgState = k) :
    s.imgBusy = (decide (3 ≤ k) || k == 1) := by
  rw [State.imgBusy, h]

/-- OP, SLOT and GROUP_LEAD as software wrote them to IMG_CMD (R81). -/
def State.imgAsk (s : State) (op slot lead : Nat) : State :=
  s.puts [(.imgCmdOp, op), (.imgCmdSlot, slot), (.imgCmdGroupLead, lead)]

theorem State.rd_imgAsk (s : State) (op slot lead : Nat) {f : Field} (n i : Nat)
    (hf : f ∉ [Field.imgCmdOp, .imgCmdSlot, .imgCmdGroupLead]) : (s.imgAsk op slot lead).rd f n i = s.rd f n i :=
  State.rd_puts_other _ _ _ _ _ _ (Or.inl (by simpa using hf))

theorem State.on_imgAsk (s : State) (op slot lead : Nat) {f : Field} (n i : Nat)
    (hf : f ∉ [Field.imgCmdOp, .imgCmdSlot, .imgCmdGroupLead]) : (s.imgAsk op slot lead).on f n i = s.on f n i :=
  congrArg (· != 0) (s.rd_imgAsk op slot lead n i hf)

section
variable {s : State} {slot lead : Nat} (hidle : s.rd .imgState = 2)
include hidle

theorem State.rd_imgAsk_state (op : Nat) : (s.imgAsk op slot lead).rd .imgState = 2 :=
  (s.rd_imgAsk op slot lead _ _ (by decide)).trans hidle

theorem State.imgAsk_idle (op : Nat) : (s.imgAsk op slot lead).imgBusy = false :=
  State.imgBusy_of_state (State.rd_imgAsk_state hidle op)

/-- VALIDATE and MAKE_BOOT of a slot start checking it, with no debug scope open. -/
theorem State.imgGo_checks {op : Nat} (hop : op = 1 ∨ op = 5) (hslot : slot < 2) (hsec : s.secOpen = false) :
    s.imgGo op slot lead = (s.imgAsk op slot lead).imgBegin op slot lead 3 := by
  have hbusy := State.imgAsk_idle (slot := slot) (lead := lead) hidle op
  have hopen : (s.imgAsk op slot lead).secOpen = false := by
    rw [State.secOpen, State.on_imgAsk _ _ _ _ _ _ (by decide), State.on_imgAsk _ _ _ _ _ _ (by decide)]
    exact hsec
  unfold State.imgGo
  rw [← State.imgAsk]
  simp only [hbusy, hopen]
  rcases hop with rfl | rfl <;> simp [show ¬ 2 ≤ slot by omega]

/-- COMMIT_FULL goes to its own conditions. -/
theorem State.imgGo_commits_full (hslot : slot < 2) :
    s.imgGo 2 slot lead = (s.imgAsk 2 slot lead).imgCommitFullNow := by
  have hbusy := State.imgAsk_idle (slot := slot) (lead := lead) hidle 2
  unfold State.imgGo
  rw [← State.imgAsk]
  simp [hbusy, show ¬ 2 ≤ slot by omega]

/-- COMMIT_PARTIAL goes to its own conditions. -/
theorem State.imgGo_commits_part (hslot : slot < 2) :
    s.imgGo 3 slot lead = (s.imgAsk 3 slot lead).imgCommitPartialNow lead := by
  have hbusy := State.imgAsk_idle (slot := slot) (lead := lead) hidle 3
  unfold State.imgGo
  rw [← State.imgAsk]
  simp [hbusy, show ¬ 2 ≤ slot by omega]

end

/-! ## An image command begins or is refused (R81) -/

section
variable (s : State) (op slot lead st : Nat)

theorem State.imgBegin_state (h : st < 16) : (s.imgBegin op slot lead st).rd .imgState = st :=
  State.rd_puts_of_mem (by simp) (by simp) h

theorem State.imgBegin_op (h : op < 16) : (s.imgBegin op slot lead st).rd .imgOpRun = op :=
  State.rd_puts_of_mem (by simp) (by simp) h

theorem State.imgBegin_slot (h : slot < 4) : (s.imgBegin op slot lead st).rd .imgOpSlot = slot :=
  State.rd_puts_of_mem (by simp) (by simp) h

end

section
variable (s : State) (op code : Nat)

/-- A failure that names neither lane, section nor detail leaves its code and touches the report registers alone. -/
theorem State.rd_imgFail {f : Field} (n i : Nat)
    (hf : f ∉ [Field.imgErrLane, .imgErrSection, .imgDetRaw, .imgDetPool, .imgDetWhich, .imgDetProfile, .imgDetMid,
      .imgDetRequired, .imgDetConfigured]) :
    (s.imgFail code none none none).rd f n i = (s.wr .imgErr code).rd f n i := by
  simp only [List.mem_cons, List.not_mem_nil, or_false, not_or] at hf
  obtain ⟨hlane, hsec, hdet⟩ := hf
  unfold State.imgFail
  refine (State.rd_puts_other _ _ _ _ _ _ (Or.inl (by simpa using hdet))).trans ?_
  exact (State.rd_wr_field _ _ _ _ _ _ hsec).trans (State.rd_wr_field _ _ _ _ _ _ hlane)

/-- The report of a command raises a status bit and leaves a record. -/
theorem State.rd_imgReport {f : Field} (n i : Nat) (hf : f.desc.block ≠ .evf) (hs : f ≠ .imgIntStatus) :
    (s.imgReport op code).rd f n i = s.rd f n i :=
  (State.rd_wr_field _ _ _ _ _ _ hs).trans
    ((State.emit_onlyIn (l := [.evf]) (OnlyIn.refl _ s) (by decide)).read f n i (by simpa using hf))

/-- What a refusal leaves: its code, the report, and GO cleared where no command runs. -/
theorem State.rd_imgRefuse {f : Field} (n i : Nat) (hf : f ≠ .imgCmdGo) : (s.imgRefuse op code).rd f n i =
    ((s.imgFail code none none none).imgReport op code).rd f n i := by
  unfold State.imgRefuse
  extract_lets t
  split
  · rfl
  · exact State.rd_wr_field _ _ _ _ _ _ hf

theorem State.imgRefuse_err (h : code < 256) : (s.imgRefuse op code).rd .imgErr = code := by
  rw [State.rd_imgRefuse _ _ _ _ _ (by decide), State.rd_imgReport _ _ _ _ _ (by decide) (by decide),
    State.rd_imgFail _ _ _ _ (by decide)]
  exact State.rd_wr_fits _ _ _ _ _ h

theorem State.imgRefuse_state : (s.imgRefuse op code).rd .imgState = s.rd .imgState := by
  rw [State.rd_imgRefuse _ _ _ _ _ (by decide), State.rd_imgReport _ _ _ _ _ (by decide) (by decide),
    State.rd_imgFail _ _ _ _ (by decide)]
  exact State.rd_wr_field _ _ _ _ _ _ (by decide)

/-- A refused COMMIT_PARTIAL sets PC_FAIL. -/
theorem State.imgRefuse_pcFail (h : code ≠ 0) :
    ((s.imgRefuse 3 code).rd .imgIntStatus).testBit Irq.imgPcFail = true := by
  rw [State.rd_imgRefuse _ _ _ _ _ (by decide)]
  unfold State.imgReport
  rw [if_pos rfl, if_neg h]
  exact State.testBit_rd_raise _ _ _ _ (by decide)

end

/-- COMMIT_FULL without a candidate that may run is refused (R60, R81). -/
theorem State.imgCommitFullNow_refused {s : State} (h : s.candidate = none ∨ (s.running = none ∧ s.on .imgCandNew = false)) :
    s.imgCommitFullNow = s.imgRefuse 2 0x15 :=
  if_pos (by simpa using h)

/-- COMMIT_FULL of a candidate that may run begins, and what takes the lanes to OFF leaves the image controller (R72). -/
theorem State.imgCommitFullNow_begins {s : State} {i : Image} (hc : s.candidate = some i)
    (hnew : s.running ≠ none ∨ s.on .imgCandNew = true) :
    OnlyIn [.evf, .hif, .hifGlb, .hlt, .hltLn, .leq, .lfr, .lrx, .ltx, .mgt, .optLn, .pwrLn, .timLn]
      (s.imgBegin 2 (s.rd .imgCandidateSlot) 0 6) s.imgCommitFullNow := by
  have hmay : ¬ (s.candidate.isNone = true ∨ (s.running.isNone = true ∧ (!s.on .imgCandNew) = true)) := by
    rcases hnew with h | h <;> simp [hc, h]
  unfold State.imgCommitFullNow
  rw [if_neg hmay]
  refine OnlyIn.each (OnlyIn.each (State.abortTests_onlyIn (OnlyIn.refl _ _) ?_ ?_) fun n u hu => ?_) fun h u hu => ?_
  · decide
  · decide
  · apply State.lrxOff_onlyIn (State.puts_onlyIn hu (by decide)) <;> decide
  · apply State.hifOff_onlyIn hu <;> decide

theorem State.imgCommitPartialNow_none {s : State} (lead : Nat) (h : s.candidate = none) :
    s.imgCommitPartialNow lead = s.imgRefuse 3 0x15 := by
  unfold State.imgCommitPartialNow
  rw [h]

/-! ## CDB commands that wait for an image operation (R79, R446) -/

section
variable {s : State} {op slot lead : Nat}

/-- The operation began: the command is in progress, and the rest is the operation's. -/
theorem State.cdbImage_started (hidle : s.rd .imgState = 2) (hbusy : (s.imgGo op slot lead).imgBusy = true) :
    s.cdbImage op slot lead = (s.imgGo op slot lead).puts [(.cdbImg, 1), (.cdbStatus, 0x83)] :=
  if_pos ⟨by rw [State.imgBusy_of_state hidle]; rfl, hbusy⟩

/-- What a command in progress shows. -/
theorem State.cdbImage_started_reads (hidle : s.rd .imgState = 2) (hbusy : (s.imgGo op slot lead).imgBusy = true) :
    (s.cdbImage op slot lead).rd .cdbStatus = 0x83 ∧ (s.cdbImage op slot lead).rd .cdbImg = 1 ∧
      ∀ f n i, f ∉ [Field.cdbImg, .cdbStatus] → (s.cdbImage op slot lead).rd f n i = (s.imgGo op slot lead).rd f n i := by
  rw [State.cdbImage_started hidle hbusy]
  refine ⟨State.rd_puts_of_mem (by simp) (by simp) (by decide), State.rd_puts_of_mem (by simp) (by simp) (by decide),
    fun f n i hf => State.rd_puts_other _ _ _ _ _ _ (Or.inl (by simpa using hf))⟩

/-- What a command shows whose operation was refused: ERR in the first byte of the reply. -/
theorem State.cdbImage_refused_reads {t : State} {code : Nat} (hgo : s.imgGo op slot lead = t.imgRefuse op code)
    (hidle : t.rd .imgState = 2) (hcode : code < 256) :
    (s.cdbImage op slot lead).rd .cdbStatus = 0x40 ∧ (s.cdbImage op slot lead).rd .cdbReply0 = code ∧
      ∀ f n i, f ∉ [Field.cdbReply0, .cdbStatus, .cdbTapRun] →
        (s.cdbImage op slot lead).rd f n i = (t.imgRefuse op code).rd f n i := by
  have hbusy : (t.imgRefuse op code).imgBusy = false :=
    State.imgBusy_of_state ((t.imgRefuse_state op code).trans hidle)
  have himage : s.cdbImage op slot lead =
      ((t.imgRefuse op code).wr .cdbReply0 ((t.imgRefuse op code).rd .imgErr)).cdbEnd 0x40 := by
    rw [← hgo] at hbusy ⊢
    exact if_neg (by rw [hbusy]; simp)
  rw [himage, t.imgRefuse_err op code hcode]
  refine ⟨State.cdbEnd_status _ (by decide), ?_, fun f n i hf => ?_⟩
  · exact (State.rd_cdbEnd _ _ _ _ (by decide)).trans (State.rd_wr_fits _ _ _ _ _ hcode)
  · simp only [List.mem_cons, List.not_mem_nil, or_false, not_or] at hf
    obtain ⟨hreply, hend⟩ := hf
    exact (State.rd_cdbEnd _ _ _ _ (by simpa using hend)).trans (State.rd_wr_field _ _ _ _ _ _ hreply)

end

/-! ## Each command that waits for an image operation, from RUNNING -/

section
variable {s : State} {slot lead : Nat} (hidle : s.rd .imgState = 2) (hslot : slot < 2)
include hidle hslot

section
variable {op : Nat} (hop : op = 1 ∨ op = 5) (hsec : s.secOpen = false)
include hop hsec

/-- VALIDATE and MAKE_BOOT start; what the CDB does not mark is as the operation's start leaves it. -/
theorem State.cdbImage_checks_reads :
    (s.cdbImage op slot lead).rd .cdbStatus = 0x83 ∧ (s.cdbImage op slot lead).rd .cdbImg = 1 ∧
      ∀ f n i, f ∉ [Field.cdbImg, .cdbStatus] →
        (s.cdbImage op slot lead).rd f n i = ((s.imgAsk op slot lead).imgBegin op slot lead 3).rd f n i := by
  have hgo := State.imgGo_checks (lead := lead) hidle hop hslot hsec
  have hstate := (s.imgAsk op slot lead).imgBegin_state op slot lead 3 (by decide)
  rw [← hgo] at hstate ⊢
  exact State.cdbImage_started_reads hidle (State.imgBusy_of_state hstate)

/-- What VALIDATE or MAKE_BOOT of a slot shows once it started. -/
theorem State.cdbImage_checks :
    (s.cdbImage op slot lead).rd .cdbStatus = 0x83 ∧ (s.cdbImage op slot lead).rd .cdbImg = 1 ∧
      (s.cdbImage op slot lead).rd .imgState = 3 ∧ (s.cdbImage op slot lead).rd .imgOpRun = op ∧
      (s.cdbImage op slot lead).rd .imgOpSlot = slot := by
  obtain ⟨hstatus, himg, hrest⟩ := State.cdbImage_checks_reads (lead := lead) hidle hslot hop hsec
  exact ⟨hstatus, himg, (hrest _ _ _ (by decide)).trans (State.imgBegin_state _ _ _ _ _ (by decide)),
    (hrest _ _ _ (by decide)).trans (State.imgBegin_op _ _ _ _ _ (by omega)),
    (hrest _ _ _ (by decide)).trans (State.imgBegin_slot _ _ _ _ _ (by omega))⟩

/-- The start of a check leaves the other registers outside the image controller. -/
theorem State.rd_cdbImage_checks {f : Field} (n i : Nat)
    (hf : f ∉ [Field.cdbImg, .cdbStatus] ∧ f.desc.block ≠ .img) : (s.cdbImage op slot lead).rd f n i = s.rd f n i := by
  obtain ⟨-, -, hrest⟩ := State.cdbImage_checks_reads (lead := lead) hidle hslot hop hsec
  have honly : OnlyIn [.img] s ((s.imgAsk op slot lead).imgBegin op slot lead 3) :=
    State.puts_onlyIn (State.puts_onlyIn (OnlyIn.refl _ _) (by simp; decide)) (by simp; decide)
  exact (hrest f n i hf.1).trans (honly.read f n i (by simpa using hf.2))

end

/-- COMMIT_FULL of a candidate that may run starts. -/
theorem State.cdbImage_commits_full {i : Image} (hc : s.candidate = some i)
    (hnew : s.running ≠ none ∨ s.on .imgCandNew = true) :
    (s.cdbImage 2 slot lead).rd .cdbStatus = 0x83 ∧ (s.cdbImage 2 slot lead).rd .cdbImg = 1 ∧
      (s.cdbImage 2 slot lead).rd .imgState = 6 ∧ (s.cdbImage 2 slot lead).rd .imgOpRun = 2 := by
  have hbegins := State.imgCommitFullNow_begins (s := s.imgAsk 2 slot lead) hc
    (by rwa [State.on_imgAsk _ _ _ _ _ _ (by decide)])
  rw [← State.imgGo_commits_full hidle hslot] at hbegins
  have hstate : (s.imgGo 2 slot lead).rd .imgState = 6 :=
    (hbegins.read .imgState _ _ (by decide)).trans (State.imgBegin_state _ _ _ _ _ (by decide))
  have hop : (s.imgGo 2 slot lead).rd .imgOpRun = 2 :=
    (hbegins.read .imgOpRun _ _ (by decide)).trans (State.imgBegin_op _ _ _ _ _ (by decide))
  obtain ⟨hstatus, himg, hrest⟩ := State.cdbImage_started_reads hidle (State.imgBusy_of_state hstate)
  exact ⟨hstatus, himg, (hrest _ _ _ (by decide)).trans hstate, (hrest _ _ _ (by decide)).trans hop⟩

/-- COMMIT_FULL without one ends with ERR 0x15. -/
theorem State.cdbImage_refuses_full (h : s.candidate = none ∨ (s.running = none ∧ s.on .imgCandNew = false)) :
    (s.cdbImage 2 slot lead).rd .cdbStatus = 0x40 ∧ (s.cdbImage 2 slot lead).rd .cdbReply0 = 0x15 ∧
      (s.cdbImage 2 slot lead).rd .imgState = 2 := by
  have hask := State.rd_imgAsk_state (slot := slot) (lead := lead) hidle 2
  have hgo : s.imgGo 2 slot lead = (s.imgAsk 2 slot lead).imgRefuse 2 0x15 :=
    (State.imgGo_commits_full hidle hslot).trans
      (State.imgCommitFullNow_refused (by rwa [State.on_imgAsk _ _ _ _ _ _ (by decide)]))
  obtain ⟨hstatus, hreply, hrest⟩ := State.cdbImage_refused_reads hgo hask (by decide)
  exact ⟨hstatus, hreply, (hrest _ _ _ (by decide)).trans ((State.imgRefuse_state _ _ _).trans hask)⟩

/-- COMMIT_PARTIAL without a candidate ends with ERR 0x15 and PC_FAIL. -/
theorem State.cdbImage_refuses_part (h : s.candidate = none) :
    (s.cdbImage 3 slot lead).rd .cdbStatus = 0x40 ∧ (s.cdbImage 3 slot lead).rd .cdbReply0 = 0x15 ∧
      ((s.cdbImage 3 slot lead).rd .imgIntStatus).testBit Irq.imgPcFail = true := by
  have hask := State.rd_imgAsk_state (slot := slot) (lead := lead) hidle 3
  have hgo : s.imgGo 3 slot lead = (s.imgAsk 3 slot lead).imgRefuse 3 0x15 :=
    (State.imgGo_commits_part hidle hslot).trans (State.imgCommitPartialNow_none _ h)
  obtain ⟨hstatus, hreply, hrest⟩ := State.cdbImage_refused_reads hgo hask (by decide)
  refine ⟨hstatus, hreply, ?_⟩
  rw [hrest .imgIntStatus _ _ (by decide)]
  exact State.imgRefuse_pcFail _ _ (by decide)

end

/-! ## Password, download and tap request (R203, R446, R447) -/

/-- The password entered is the one that the NVM verifies. -/
def State.passwordMatches (s : State) (pw : Word) : Prop :=
  s.on .secSecretIn = true ∧ s.nvmGet .secPwSet = 1 ∧ s.nvmGet .secPassword = s.passwordMac pw.toNat

section
variable {s : State} (h : s.CdbServes)
include h

theorem exec_cdbEnterPassword_right {pw : Word} (hpw : s.passwordMatches pw) :
    exec (.cdbEnterPassword pw) s = .next ((s.wr .cdbPwOk 1).cdbEnd 0x01) :=
  congrArg Host.Outcome.next ((h.served _ _).trans (if_pos hpw))

theorem exec_cdbEnterPassword_wrong {pw : Word} (hpw : ¬ s.passwordMatches pw) :
    exec (.cdbEnterPassword pw) s = .next (s.cdbEnd 0x46) :=
  congrArg Host.Outcome.next ((h.served _ _).trans (if_neg hpw))

theorem exec_cdbChangePassword_closed {pw : Word} (hclosed : s.on .secSecretClosed = true) :
    exec (.cdbChangePassword pw) s = .next (s.cdbEnd 0x40) :=
  congrArg Host.Outcome.next ((h.served _ _).trans (if_pos hclosed))

theorem exec_cdbChangePassword_open {pw : Word} (hopen : s.on .secSecretClosed = false) :
    exec (.cdbChangePassword pw) s =
      .next ((s.puts [(.cdbNewPw, pw.toNat), (.cdbStatus, 0x83)]).setMask .secNvmBusy 1 true) :=
  congrArg Host.Outcome.next ((h.served _ _).trans (if_neg (by rw [hopen]; decide)))

end

/-- A bit of a mask that was set reads 1. -/
theorem State.maskBit_setMask_true (s : State) (f : Field) (k n : Nat) (h : k < f.width) :
    (s.setMask f k true n).maskBit f k n = true :=
  s.testBit_rd_raise f k n h

/-- The target slot named and erased, with a download open (R447). -/
def State.dlOpened (s : State) : State :=
  (s.puts [(.cdbDlOpen, 1), (.cdbDlSlot, 1 - s.rd .imgActiveSlot)]).nvmSet .imgSlotBad 1 0 (1 - s.rd .imgActiveSlot)

theorem State.dlOpened_slotBad (s : State) : s.dlOpened.nvmGet .imgSlotBad 0 (1 - s.rd .imgActiveSlot) = 1 := by
  rw [State.dlOpened, State.nvmGet_nvmSet, if_pos ⟨rfl, rfl, rfl⟩]
  rfl

/-- The bytes of the target slot count, with no download open (R71, R446). -/
def State.dlCompleted (s : State) : State :=
  ((s.wr .cdbDlOpen 0).nvmSet .imgSlotBad 0 0 (s.rd .cdbDlSlot)).setMask .imgSlotNew (s.rd .cdbDlSlot) true

theorem State.rd_dlCompleted (s : State) {f : Field} (n i : Nat) (hf : f ∉ [Field.cdbDlOpen, .imgSlotNew]) :
    s.dlCompleted.rd f n i = s.rd f n i := by
  simp only [List.mem_cons, List.not_mem_nil, or_false, not_or] at hf
  obtain ⟨hopen, hnew⟩ := hf
  refine (State.rd_wr_field _ _ _ _ _ _ hnew).trans ((State.rd_nvmSet _ _ _ _ _ _ _ _).trans ?_)
  exact State.rd_wr_field _ _ _ _ _ _ hopen

theorem State.dlCompleted_slotBad (s : State) : s.dlCompleted.nvmGet .imgSlotBad 0 (s.rd .cdbDlSlot) = 0 := by
  rw [State.dlCompleted, State.setMask, State.nvmGet_wr, State.nvmGet_nvmSet, if_pos ⟨rfl, rfl, rfl⟩, Nat.zero_mod]

theorem State.dlCompleted_open (s : State) : s.dlCompleted.rd .cdbDlOpen = 0 := by
  refine (State.rd_wr_field _ _ _ _ _ _ (by decide)).trans ((State.rd_nvmSet _ _ _ _ _ _ _ _).trans ?_)
  exact State.rd_wr_fits _ _ _ _ _ (by decide)

theorem State.dlCompleted_secOpen (s : State) : s.dlCompleted.secOpen = s.secOpen := by
  simp only [State.secOpen, State.on, State.rd_dlCompleted s _ _ (by decide : Field.secDebugOpen ∉ _),
    State.rd_dlCompleted s _ _ (by decide : Field.secScanOpen ∉ _)]

section
variable {s : State} (h : s.CdbServes) (hreq : s.on .cdbPwReq = false)
include h hreq

theorem exec_cdbStartFwDownload_fits {size : Word} (hlc : s.rd .secLcState ≠ 4) (hsize : size.toNat ≤ slotBytes) :
    exec (.cdbStartFwDownload size) s = .next s.dlOpened.cdbFlashStart :=
  congrArg Host.Outcome.next ((h.unlocked hreq _ _).trans ((if_neg hlc).trans (if_neg (by omega))))

theorem exec_cdbStartFwDownload_long {size : Word} (hlc : s.rd .secLcState ≠ 4) (hsize : slotBytes < size.toNat) :
    exec (.cdbStartFwDownload size) s = .next (s.cdbEnd 0x42) :=
  congrArg Host.Outcome.next ((h.unlocked hreq _ _).trans ((if_neg hlc).trans (if_pos hsize)))

theorem exec_cdbAbortFwDownload_open (hdl : s.on .cdbDlOpen = true) :
    exec .cdbAbortFwDownload s = .next ((s.wr .cdbDlOpen 0).cdbEnd 0x01) :=
  congrArg Host.Outcome.next ((h.unlocked hreq _ _).trans (if_pos hdl))

theorem exec_cdbWriteFwBlockLpl (o : Word) (k : BitVec 8) :
    exec (.cdbWriteFwBlockLpl o k) s = .next (s.cdbBlock o.toNat k.toNat 116) :=
  congrArg Host.Outcome.next (h.unlocked hreq _ _)

theorem exec_cdbWriteFwBlockEpl (o : Word) (k : BitVec 12) :
    exec (.cdbWriteFwBlockEpl o k) s = .next (s.cdbBlock o.toNat k.toNat 2048) :=
  congrArg Host.Outcome.next (h.unlocked hreq _ _)

theorem exec_cdbCompleteFwDownload_open (hdl : s.on .cdbDlOpen = true) :
    exec .cdbCompleteFwDownload s = .next (s.dlCompleted.cdbImage 1 (s.rd .cdbDlSlot) 0) :=
  congrArg Host.Outcome.next ((h.unlocked hreq _ _).trans (if_pos hdl))

theorem exec_cdbCompleteFwDownload_closed (hdl : s.on .cdbDlOpen = false) :
    exec .cdbCompleteFwDownload s = .next (s.cdbEnd 0x40) :=
  congrArg Host.Outcome.next ((h.unlocked hreq _ _).trans (if_neg (by rw [hdl]; decide)))

theorem exec_cdbRunFwImage : exec .cdbRunFwImage s = .next (s.cdbImage 2 (s.rd .imgCandidateSlot) 0) :=
  congrArg Host.Outcome.next (h.unlocked hreq _ _)

theorem exec_cdbCommitFwImage : exec .cdbCommitFwImage s = .next (s.cdbImage 5 (s.rd .imgActiveSlot) 0) :=
  congrArg Host.Outcome.next (h.unlocked hreq _ _)

theorem exec_cdbPartialCommit (n : Lane) :
    exec (.cdbPartialCommit n) s = .next (s.cdbImage 3 (s.rd .imgCandidateSlot) n) :=
  congrArg Host.Outcome.next (h.unlocked hreq _ _)

end

/-! ## The tap request (R203, R446) -/

/-- The body of a TX_TAP_REQ: nine coefficients of two bytes (R203). -/
def tapBody (taps : List Int) : Nat := bytesLe (taps.flatMap (fun h => (bytesHigh 2 (ofSigned 16 h)).reverse))

/-- A message goes out at once where none is in flight. -/
theorem State.rd_svcSend_free {s : State} {n : Nat} (h : s.rd .lfrTxType n = 0) {type len : Nat} (body : Nat)
    (htype : type < 256) (hlen : len < 256) :
    (s.svcSend n type len body).rd .lfrTxType n = type ∧ (s.svcSend n type len body).rd .lfrTxLen n = len := by
  unfold State.svcSend
  rw [if_pos h]
  exact ⟨State.rd_puts_of_mem (by simp) (by simp) htype, State.rd_puts_of_mem (by simp) (by simp) hlen⟩

section
variable {s : State} (h : s.CdbServes) {n : Lane} {taps : List Int} (htaps : taps.length = 9)
include h htaps

theorem exec_cdbTxTapRequest_sent (hlow : 3 ≤ s.rd .lrxState n) (hhigh : s.rd .lrxState n ≤ 5) :
    exec (.cdbTxTapRequest n taps) s = .next
      ((s.svcSend n 6 18 (tapBody taps)).puts [(.cdbTapRun, 1), (.cdbTapLane, n), (.cdbStatus, 0x83)]) :=
  congrArg Host.Outcome.next ((h.served _ _).trans (if_pos ⟨htaps, hlow, hhigh⟩))

theorem exec_cdbTxTapRequest_outside (hout : s.rd .lrxState n < 3 ∨ 5 < s.rd .lrxState n) :
    exec (.cdbTxTapRequest n taps) s = .next (s.cdbEnd 0x40) := by
  refine congrArg Host.Outcome.next ((h.served _ _).trans ((if_neg (by omega)).trans ?_))
  rw [if_pos htaps]

end

/-- Settles O59: a command that is served does what its lemma above says, by the state and the operands. -/
theorem cdbCommands : Obligations.CdbCommands := by
  unfold Obligations.CdbCommands
  refine ⟨?status, ?right, ?wrong, ?changeClosed, ?change, ?abort, ?noAbort, ?features, ?fwFeatures, ?info, ?start, ?long,
    ?startLocked, ?dlAbort, ?lpl, ?lplMisfit, ?lplClosed, ?epl, ?eplMisfit, ?eplClosed, ?complete, ?completeClosed,
    ?runRefused, ?run, ?commit, ?part, ?tap, ?tapOutside, ?tapTimeout, ?noTapTimeout, ?unsupported⟩
  case status =>
    intro s hm hd hh
    exact ⟨_, congrArg Host.Outcome.next (if_pos (by simp [hm, hd, hh])), rfl⟩
  case right =>
    intro pw s hm hd hh hi hr hin hset hmac
    refine ⟨_, exec_cdbEnterPassword_right ⟨hm, hd, hh, hi, hr⟩ ⟨hin, hset, hmac⟩, ?_,
      State.cdbEnd_status _ (by decide), ?_⟩
    · exact (State.rd_cdbEnd _ _ _ _ (by decide)).trans (State.rd_wr_fits _ _ _ _ _ (by decide))
    · exact ((Changes.refl s 0 _).wr (by decide)).cdbEnd _ (by decide) (by decide)
  case wrong =>
    intro pw s hm hd hh hi hr hpw
    have hno : ¬ s.passwordMatches pw := by
      rintro ⟨hin, hset, hmac⟩
      simp [hin, hset, hmac] at hpw
    exact cdb_ends (exec_cdbEnterPassword_wrong ⟨hm, hd, hh, hi, hr⟩ hno) (by decide)
  case changeClosed =>
    intro pw s hm hd hh hi hr hclosed
    exact cdb_ends (exec_cdbChangePassword_closed ⟨hm, hd, hh, hi, hr⟩ hclosed) (by decide)
  case change =>
    intro pw s hm hd hh hi hr hopen
    refine ⟨_, exec_cdbChangePassword_open ⟨hm, hd, hh, hi, hr⟩ hopen, ?_, ?_, ?_, ?_⟩
    · exact (State.rd_wr_field _ _ _ _ _ _ (by decide)).trans (State.rd_puts_of_mem (by simp) (by simp) pw.isLt)
    · exact (State.rd_wr_field _ _ _ _ _ _ (by decide)).trans (State.rd_puts_of_mem (by simp) (by simp) (by decide))
    · exact State.maskBit_setMask_true _ _ _ _ (by decide)
    · exact ((Changes.refl s 0 _).puts (by simp)).wr (by decide)
  case abort =>
    intro s hm hd hf
    refine ⟨_, congrArg Host.Outcome.next (if_pos (by simp [hm, hd, hf])), ?_, State.cdbEnd_status _ (by decide), ?_⟩
    · exact (State.rd_cdbEnd _ _ _ _ (by decide)).trans (State.rd_wr_fits _ _ _ _ _ (by decide))
    · exact ((Changes.refl s 0 _).wr (by decide)).cdbEnd _ (by decide) (by decide)
  case noAbort => exact fun s hf => congrArg Host.Outcome.next (if_neg (by simp [hf]))
  case features =>
    intro s hm hd hh hi hr
    exact cdb_answers (congrArg Host.Outcome.next (State.CdbServes.served ⟨hm, hd, hh, hi, hr⟩ _ _))
  case fwFeatures =>
    intro s hm hd hh hi hr
    exact cdb_answers (congrArg Host.Outcome.next (State.CdbServes.served ⟨hm, hd, hh, hi, hr⟩ _ _))
  case info =>
    intro a b s hm hd hh hi hr
    exact cdb_answers (congrArg Host.Outcome.next (State.CdbServes.served ⟨hm, hd, hh, hi, hr⟩ _ _))
  case start =>
    intro size s hm hd hh hi hr hreq hlc hsize
    have hrun := exec_cdbStartFwDownload_fits ⟨hm, hd, hh, hi, hr⟩ hreq hlc hsize
    refine ⟨_, hrun, ?_, ?_, State.rd_puts_of_mem (by simp) (by simp) (by decide),
      State.rd_puts_of_mem (by simp) (by simp) (by decide), ?_, commandsStayInTheirBlocks _ _ _ _ rfl hrun⟩
    · exact (State.rd_puts_other _ _ _ _ _ _ (Or.inl (by simp))).trans
        (State.rd_puts_of_mem (by simp) (by simp) (by decide))
    · exact (State.rd_puts_other _ _ _ _ _ _ (Or.inl (by simp))).trans
        (State.rd_puts_of_mem (by simp) (by simp) (show _ < 2 by omega))
    · exact s.dlOpened_slotBad
  case long =>
    intro size s hm hd hh hi hr hreq hlc hsize
    exact cdb_ends_with_nvm (exec_cdbStartFwDownload_long ⟨hm, hd, hh, hi, hr⟩ hreq hlc hsize) (by decide)
  case startLocked =>
    intro size s hm hd hh hi hr hreq hok
    exact cdb_ends_with_nvm
      (congrArg Host.Outcome.next (State.CdbServes.locked ⟨hm, hd, hh, hi, hr⟩ hreq hok _ _)) (by decide)
  case dlAbort =>
    intro s hm hd hh hi hr hreq hdl
    refine ⟨_, exec_cdbAbortFwDownload_open ⟨hm, hd, hh, hi, hr⟩ hreq hdl, ?_, State.cdbEnd_status _ (by decide), rfl, ?_⟩
    · exact (State.rd_cdbEnd _ _ _ _ (by decide)).trans (State.rd_wr_fits _ _ _ _ _ (by decide))
    · exact ((Changes.refl s 0 _).wr (by decide)).cdbEnd _ (by decide) (by decide)
  case lpl =>
    intro o k s hm hd hh hi hr hreq hdl hpos hmost hplace
    exact cdbBlock_waits (exec_cdbWriteFwBlockLpl ⟨hm, hd, hh, hi, hr⟩ hreq o k) hdl hpos hmost hplace
  case lplMisfit =>
    intro o k s hm hd hh hi hr hreq hdl hfit
    exact cdbBlock_ends_misfit (exec_cdbWriteFwBlockLpl ⟨hm, hd, hh, hi, hr⟩ hreq o k) hdl hfit
  case lplClosed =>
    intro o k s hm hd hh hi hr hreq hdl
    exact cdbBlock_ends_closed (exec_cdbWriteFwBlockLpl ⟨hm, hd, hh, hi, hr⟩ hreq o k) hdl
  case epl =>
    intro o k s hm hd hh hi hr hreq hdl hpos hmost hplace
    exact cdbBlock_waits (exec_cdbWriteFwBlockEpl ⟨hm, hd, hh, hi, hr⟩ hreq o k) hdl hpos hmost hplace
  case eplMisfit =>
    intro o k s hm hd hh hi hr hreq hdl hfit
    exact cdbBlock_ends_misfit (exec_cdbWriteFwBlockEpl ⟨hm, hd, hh, hi, hr⟩ hreq o k) hdl hfit
  case eplClosed =>
    intro o k s hm hd hh hi hr hreq hdl
    exact cdbBlock_ends_closed (exec_cdbWriteFwBlockEpl ⟨hm, hd, hh, hi, hr⟩ hreq o k) hdl
  case complete =>
    intro s hm hd hh hi hr hreq hdl hidle hsec hslot
    have hidle' : s.dlCompleted.rd .imgState = 2 := (s.rd_dlCompleted _ _ (by decide)).trans hidle
    have hsec' : s.dlCompleted.secOpen = false := s.dlCompleted_secOpen.trans hsec
    obtain ⟨hstatus, -, hstate, hop, hopSlot⟩ := State.cdbImage_checks (lead := 0) hidle' hslot (Or.inl rfl) hsec'
    refine ⟨_, exec_cdbCompleteFwDownload_open ⟨hm, hd, hh, hi, hr⟩ hreq hdl, ?_, ?_, hstate, hop, hopSlot, hstatus⟩
    · exact (State.rd_cdbImage_checks hidle' hslot (Or.inl rfl) hsec' _ _ (by decide)).trans s.dlCompleted_open
    · have hnvm := (State.cdbImage_sameNvm (op := 1) (slot := s.rd .cdbDlSlot) (lead := 0)
        (SameNvm.refl s.dlCompleted)).nvm
      rw [State.nvmGet, hnvm]
      exact s.dlCompleted_slotBad
  case completeClosed =>
    intro s hm hd hh hi hr hreq hdl
    exact cdb_ends_with_nvm (exec_cdbCompleteFwDownload_closed ⟨hm, hd, hh, hi, hr⟩ hreq hdl) (by decide)
  case runRefused =>
    intro s hm hd hh hi hr hreq hidle hno hslot
    exact ⟨_, exec_cdbRunFwImage ⟨hm, hd, hh, hi, hr⟩ hreq, State.cdbImage_refuses_full hidle hslot hno⟩
  case run =>
    intro i s hm hd hh hi hr hreq hidle hc hnew hslot
    exact ⟨_, exec_cdbRunFwImage ⟨hm, hd, hh, hi, hr⟩ hreq, State.cdbImage_commits_full hidle hslot hc hnew⟩
  case commit =>
    intro s hinv hm hd hh hi hr hreq hidle hsec
    exact ⟨_, exec_cdbCommitFwImage ⟨hm, hd, hh, hi, hr⟩ hreq,
      State.cdbImage_checks hidle (hinv.rd_lt .imgActiveSlot 0 0) (Or.inr rfl) hsec⟩
  case part =>
    intro n s hm hd hh hi hr hreq hidle hc hslot
    exact ⟨_, exec_cdbPartialCommit ⟨hm, hd, hh, hi, hr⟩ hreq n, State.cdbImage_refuses_part hidle hslot hc⟩
  case tap =>
    intro n taps s hm hd hh hi hr htaps hlow hhigh hfree
    have hrun := exec_cdbTxTapRequest_sent ⟨hm, hd, hh, hi, hr⟩ htaps hlow hhigh
    obtain ⟨htype, hlen⟩ := State.rd_svcSend_free hfree (type := 6) (len := 18) (tapBody taps) (by decide) (by decide)
    refine ⟨_, hrun, State.rd_puts_of_mem (by simp) (by simp) (by decide),
      State.rd_puts_of_mem (by simp) (by simp) n.isLt, State.rd_puts_of_mem (by simp) (by simp) (by decide), ?_, ?_,
      (commandsStayInTheirBlocks _ _ _ _ rfl hrun).mono (by decide)⟩
    · exact (State.rd_puts_other _ _ _ _ _ _ (Or.inl (by simp))).trans htype
    · exact (State.rd_puts_other _ _ _ _ _ _ (Or.inl (by simp))).trans hlen
  case tapOutside =>
    intro n taps s hm hd hh hi hr htaps hout
    exact cdb_ends (exec_cdbTxTapRequest_outside ⟨hm, hd, hh, hi, hr⟩ htaps hout) (by decide)
  case tapTimeout => exact fun s htap => cdb_ends (congrArg Host.Outcome.next (if_pos htap)) (by decide)
  case noTapTimeout => exact fun s htap => congrArg Host.Outcome.next (if_neg (by rw [htap]; decide))
  case unsupported =>
    intro s hm hd hh hi hr
    exact cdb_ends (congrArg Host.Outcome.next (State.CdbServes.served ⟨hm, hd, hh, hi, hr⟩ _ _)) (by decide)

end Sys2Proof.Machine

/-!
PROOFS. Two statements that fail: the egress resume of a partial commit ends FILL (O53), and a boot that enables no lane
passes step 11 at once (O55).
-/
namespace Sys2Proof.Machine

/-- The egress of line lane 0 is in the pause of a partial commit whose tables are written; the lane is ACTIVE, and its pair
of host lanes is ready and runs (R75, R205, R272). -/
def egressPaused : State :=
  State.reset.puts [(.imgState, 5), (.imgPcLanes, 1), (.imgPcQ, 1), (.imgPcWritten, 1), (.ltxState, 4),
    (.hifGlbPairReady, 1), (.hifPairRun, 1)]

/-- With the egress resume of line lane 0 the frame under way carries payload again (R75, R205). -/
theorem pcResume_ends_fill : ∃ t, exec (.pcResume 0 true) egressPaused = .next t ∧ t.rd .lfrFillTx = 0 :=
  ⟨_, rfl, by decide +kernel⟩

/-- Refutes O53: after the egress resume of `egressPaused` FILL_TX reads 0, where the statement gives it the value that FILL
has before the resume, which the pause makes 1. -/
theorem not_partialCommitAndFlash : ¬ Obligations.PartialCommitAndFlash := by
  unfold Obligations.PartialCommitAndFlash
  rintro ⟨-, -, -, -, -, -, -, hresume, -⟩
  obtain ⟨t, ht, -, -, hfill, -⟩ := hresume 0 true egressPaused rfl (by decide +kernel) (by decide +kernel)
    (by decide +kernel) (by decide +kernel)
  obtain ⟨u, hu, hpayload⟩ := pcResume_ends_fill
  obtain rfl : t = u := Host.Outcome.next.inj (ht.symm.trans hu)
  exact absurd (hpayload.symm.trans hfill) (by decide +kernel)

/-- Start-up stands at self-test with no test open and every PLL locked, and DPDeinit of every line lane is 1 (R444, R477,
R478). -/
def allDeinitialised : State :=
  (State.reset.puts [(.glbBootStage, 5), (.glbSeqStep, 10), (.pwrDevState, 6), (.pwrStartup, 1), (.cmisDpDeinit, 255)]).each
    plls (fun p t => t.wr .pllState 2 p)

/-- The end of the boot tests enables no lane, so no enabled lane has CAL to leave, and start-up is complete at step 12
(R373, R477). -/
theorem bootBistDone_completes_start_up :
    ∃ t, exec .bootBistDone allDeinitialised = .next t ∧ t.rd .glbSeqStep = 12 :=
  ⟨_, rfl, by decide +kernel⟩

/-- Refutes O55: the end of the boot tests takes `allDeinitialised` to step 12, where the statement, which allows stage 7,
has step 11 in every such state. -/
theorem not_bootCommitAndLaneEnable : ¬ Obligations.BootCommitAndLaneEnable := by
  unfold Obligations.BootCommitAndLaneEnable
  rintro ⟨-, -, -, -, -, -, -, -, -, -, hbist, -⟩
  obtain ⟨t, ht, -, -, hstep, -⟩ := hbist allDeinitialised (by decide +kernel) (by decide +kernel) rfl
    (by decide +kernel) (by decide +kernel) (by decide +kernel)
  obtain ⟨u, hu, hlast⟩ := bootBistDone_completes_start_up
  obtain rfl : t = u := Host.Outcome.next.inj (ht.symm.trans hu)
  exact absurd (hlast.symm.trans hstep) (by decide)

end Sys2Proof.Machine

/-!
PROOFS. A statement that fails: a commit of the equaliser's LLR edges at once, where they do not rise (O18).
-/
namespace Sys2Proof.Machine

/-- MGMT and the island of line lane 0 run, the lane is in CAL, where no receive boundary comes, and software has written
the edge B1 as high as B2. -/
def flatEdgesInCal : State := State.reset.puts [(.pwrDomMgmt, 1), (.pwrDomLane, 1), (.lrxState, 1), (.leqB1, 0x28)]

/-- LEQ_COMMIT applies at once and keeps the edge B1 in use, as B1 < B2 < B3 does not hold (R151, register table of
R159). -/
theorem leqCommit_keeps_edges :
    ∃ t, exec (.leqCommit 0) flatEdgesInCal = .next t ∧ t.rd .leqCommit = 0 ∧ t.use .leqB1 = 0x10 :=
  ⟨_, rfl, by decide +kernel, by decide +kernel⟩

/-- Refutes O18: LEQ_COMMIT of line lane 0 in `flatEdgesInCal` leaves the edge B1 at its value in use, where the statement
has every shadowed field of the equaliser applied and has no premise that the written edges rise. -/
theorem not_lineEqualiser : ¬ Obligations.LineEqualiser := by
  unfold Obligations.LineEqualiser
  rintro ⟨-, -, hatOnce, -⟩
  have hinv : flatEdgesInCal.Inv := by unfold State.Inv State.shaped; decide +kernel
  have hreaches : flatEdgesInCal.reaches .leq (0 : Lane) := by unfold State.reaches; decide +kernel
  obtain ⟨t, ht, -, happlied, -⟩ := hatOnce 0 flatEdgesInCal hinv hreaches (by decide +kernel) (by decide +kernel)
    (by decide +kernel) (by decide +kernel)
  obtain ⟨u, hu, -, hkept⟩ := leqCommit_keeps_edges
  obtain rfl : t = u := Host.Outcome.next.inj (ht.symm.trans hu)
  exact absurd (hkept.symm.trans (happlied .leqB1 (by decide))) (by decide +kernel)

end Sys2Proof.Machine

/-!
PROOFS. The state right after reset (O2, O3).
-/
namespace Sys2Proof.Machine

/-- Right after reset every field reads its reset value. -/
theorem State.rd_reset (f : Field) (n i : Nat) : State.reset.rd f n i = f.resetAt i := rfl

/-- An unpowered device drives each ball itself: no boundary cell reaches it (R489). -/
theorem State.pin_of_unpowered {s : State} (h : s.unpowered = true) (p : Pin) : s.pin p = s.ownPin p := by
  unfold State.pin
  split
  · exact if_pos h
  · rfl

theorem State.reset_unpowered : State.reset.unpowered = true := rfl

theorem State.reset_pin (p : Pin) : State.reset.pin p = State.reset.ownPin p :=
  State.pin_of_unpowered State.reset_unpowered p

/-- Settles O2: each register reads its reset value, and each ball shows what the unpowered device puts on it. -/
theorem resetState : Obligations.ResetState := by
  unfold Obligations.ResetState
  simp only [State.rd_reset, State.reset_pin]
  refine ⟨rfl, rfl, by decide, fun _ _ => ⟨rfl, rfl, rfl, rfl, rfl⟩, fun _ _ => rfl, fun _ _ => rfl, rfl, rfl, rfl, rfl, rfl,
    rfl, rfl, rfl, fun _ => ⟨rfl, rfl, rfl, rfl, rfl, rfl⟩, rfl, rfl⟩

theorem State.reset_inv : State.reset.Inv := ⟨rfl, ⟨rfl, rfl, rfl⟩, Nat.zero_le _⟩

/-- Every transmit direction is in OFF with both enables low, and no record is retained (R173, R508). -/
theorem State.reset_pinsFollow : State.reset.pinsFollow := ⟨rfl, by decide⟩

/-- Settles O3: the stores of the reset state list nothing, and every transmit direction is in OFF. -/
theorem resetInvariants : Obligations.ResetInvariants := ⟨State.reset_inv, State.reset_pinsFollow⟩

end Sys2Proof.Machine

/-!
PROOFS. The enable, disable and fault sequences of a line transmitter (O11, O19, O20).
-/
namespace Sys2Proof.Machine

/-! ## Fields that an operation leaves -/

/-- Each of the fields `l`, in every unit and element, reads as in `r`. -/
def SameReads (l : List Field) (r s : State) : Prop := ∀ f ∈ l, ∀ n i, s.rd f n i = r.rd f n i

namespace SameReads

variable {l : List Field} {r s : State}

theorem refl (l : List Field) (r : State) : SameReads l r r := fun _ _ _ _ => rfl

theorem wr {f : Field} {v n i : Nat} (h : SameReads l r s) (hf : f ∉ l) : SameReads l r (s.wr f v n i) := fun g hg m j =>
  (s.rd_wr_field v n m i j (by rintro rfl; exact hf hg)).trans (h g hg m j)

theorem bump {f : Field} {n i k : Nat} (h : SameReads l r s) (hf : f ∉ l) : SameReads l r (s.bump f n i k) := h.wr hf

theorem setUse {f : Field} {v n i : Nat} (h : SameReads l r s) : SameReads l r (s.setUse f v n i) := h

theorem when {c : Bool} {g : State → State} (h : SameReads l r s) (hg : ∀ u, SameReads l r u → SameReads l r (g u)) :
    SameReads l r (s.when c g) := by
  cases c
  · exact h
  · exact hg s h

theorem each {α : Type} {k : List α} {g : α → State → State} (h : SameReads l r s)
    (hg : ∀ a u, SameReads l r u → SameReads l r (g a u)) : SameReads l r (s.each k g) := by
  induction k generalizing s with
  | nil => exact h
  | cons a k ih => exact ih (hg a s h)

theorem puts {k : List (Field × Nat)} {n : Nat} (h : SameReads l r s) (hk : ∀ e ∈ k, e.1 ∉ l) :
    SameReads l r (s.puts k n) := by
  induction k generalizing s with
  | nil => exact h
  | cons e k ih => exact ih (h.wr (hk e (by simp))) (fun x hx => hk x (by simp [hx]))

end SameReads

/-- The fields of the transmit sequences that nothing which waits for a codeword boundary writes: the enable, the state with
its cause, the driver, laser and DAC outputs, the status bits and the count of driver faults (R173 to R181, R190). -/
def sequenceFields : List Field :=
  [.ltxTxEn, .ltxState, .ltxFaultCause, .ltxDrvEn, .ltxLsrEn, .ltxMuted, .ltxDacOn, .ltxIntStatus, .ltxDrvFltCnt]

section
variable {r s : State} {n : Nat}

theorem State.maskDiscard_sequence (h : SameReads sequenceFields r s) : SameReads sequenceFields r (s.maskDiscard n) :=
  (h.each fun _ _ hu => hu.wr (by decide)).wr (by decide)

theorem State.ltxApplyOf_sequence {l : List (Field × Nat)} (h : SameReads sequenceFields r s) :
    SameReads sequenceFields r (s.ltxApplyOf n l) :=
  (((h.each fun _ _ hu => hu.each fun _ _ hv => hv.setUse).when fun _ hu => hu.wr (by decide)).when
    fun _ hu => State.maskDiscard_sequence hu).when fun _ hu => State.maskDiscard_sequence (hu.wr (by decide))

theorem State.patApply_sequence (h : SameReads sequenceFields r s) : SameReads sequenceFields r (s.patApply n) :=
  (h.when fun _ hu => (State.maskDiscard_sequence hu).wr (by decide)).setUse.wr (by decide)

theorem State.ltxApply_sequence (h : SameReads sequenceFields r s) : SameReads sequenceFields r (s.ltxApply n) := by
  unfold State.ltxApply
  extract_lets t u
  have ht : SameReads sequenceFields r t := (State.ltxApplyOf_sequence h).wr (by decide)
  have hu : SameReads sequenceFields r u := by
    unfold u
    split
    · exact State.patApply_sequence ht
    · exact ht.wr (by decide)
  exact hu.wr (by decide)

theorem State.setOutCells_sequence {l : List Nat} (h : SameReads sequenceFields r s) :
    SameReads sequenceFields r (s.setOutCells n l) := by
  unfold State.setOutCells
  extract_lets t
  have ht : SameReads sequenceFields r t := h.each fun _ _ hu => hu.wr (by decide)
  split
  · exact ht.wr (by decide)
  · exact ht

theorem State.cellRepair_sequence (h : SameReads sequenceFields r s) : SameReads sequenceFields r (s.cellRepair n) := by
  refine h.each fun p u hu => ?_
  split
  · split
    · exact State.setOutCells_sequence (hu.wr (by decide))
    · exact hu
  · exact hu

theorem State.cellSwap_sequence (h : SameReads sequenceFields r s) : SameReads sequenceFields r (s.cellSwap n) := by
  unfold State.cellSwap
  split
  · exact h.puts (by decide)
  · extract_lets p old t u
    have ht : SameReads sequenceFields r t := State.setOutCells_sequence ((h.wr (by decide)).wr (by decide))
    have hu : SameReads sequenceFields r u := ht.puts (by simp [sequenceFields])
    exact (hu.bump (by decide)).wr (by decide)

/-- What waits for a codeword boundary writes none of the fields of the sequences. -/
theorem State.txBoundary_sequence (h : SameReads sequenceFields r s) : SameReads sequenceFields r (s.txBoundary n) := by
  unfold State.txBoundary
  extract_lets t u
  have ht : SameReads sequenceFields r t := h.when fun _ hv => State.ltxApply_sequence hv
  have hu : SameReads sequenceFields r u := State.cellRepair_sequence ht
  refine hu.when fun u hu => ?_
  split
  · exact hu.wr (by decide)
  · exact State.cellSwap_sequence hu

theorem State.ltxAbandon_sequence (h : SameReads sequenceFields r s) : SameReads sequenceFields r (s.ltxAbandon n) :=
  (((((h.when fun _ hu => hu.wr (by decide)).wr (by decide)).wr (by decide)).wr (by decide)).wr (by decide)).wr
    (by decide) |>.wr (by decide)

end

/-! ## A move of the transmit state (R173) -/

theorem State.rd_emit (s : State) (ty obj : Nat) (payload : List Nat) {f : Field} (n i : Nat) (h : f.desc.block ≠ .evf) :
    (s.emit ty obj payload).rd f n i = s.rd f n i :=
  (State.emit_onlyIn (OnlyIn.refl [.evf] s) (by decide)).read f n i (by simpa using h)

section
variable (s : State) (n st : Nat)

theorem State.rd_ltxSet {f : Field} (m i : Nat)
    (hf : f ∉ [Field.ltxState, .ltxSleep, .ltxNapWake, .pwrLnLtxPstate, .ltxIntStatus]) (hb : f.desc.block ≠ .evf) :
    (s.ltxSet n st).rd f m i = s.rd f m i := by
  simp only [List.mem_cons, List.not_mem_nil, or_false, not_or] at hf
  obtain ⟨hstate, hsleep, hnap, hpstate, hstatus⟩ := hf
  unfold State.ltxSet
  extract_lets old
  split
  · rfl
  · rw [State.rd_emit _ _ _ _ _ _ hb]
    refine (State.rd_wr_field _ _ _ _ _ _ hstatus).trans (State.rd_puts_other _ _ _ _ _ _ (Or.inl ?_))
    simp [hstate, hsleep, hnap, hpstate]

theorem State.ltxSet_state (h : st < 16) : (s.ltxSet n st).rd .ltxState n = st := by
  unfold State.ltxSet
  extract_lets old
  split
  · assumption
  · rw [State.rd_emit _ _ _ _ _ _ (by decide)]
    refine (State.rd_wr_field _ _ _ _ _ _ (by decide)).trans (State.rd_puts_of_mem (by simp) (by simp) h)

theorem State.ltxSet_keeps_flag {j : Nat} (hj : j < Field.width .ltxIntStatus)
    (h : (s.rd .ltxIntStatus n).testBit j = true) : ((s.ltxSet n st).rd .ltxIntStatus n).testBit j = true := by
  unfold State.ltxSet
  extract_lets old
  split
  · exact h
  · rw [State.rd_emit _ _ _ _ _ _ (by decide)]
    refine State.testBit_rd_raise_of_set _ _ _ _ _ hj ?_
    rw [State.rd_puts_other _ _ _ _ _ _ (Or.inl (by simp))]
    exact h

end

/-! ## Power down to OFF (R177) -/

/-- Driver, laser and DAC off, with no calibration or timer of the direction running (R177). -/
def State.ltxSilence (s : State) (n : Nat) : State :=
  let s := s.ltxAbandon n
  let s := ((((s.wr .ltxDrvEn 0 n).wr .ltxLsrEn 0 n).wr .ltxMuted 1 n).wr .ltxDacOn 0 n).wr .ltxDacCal 0 n
  let s := s.puts [(.ltxDacCalRun, 0), (.ltxCalWait, 0), (.ltxHoldRun, 0), (.ltxActPend, 0)] n
  s.wr .ltxPrecodeAct 0 n

/-- What applies at once in OFF leaves the direction silent and in OFF (R45, R177). -/
theorem State.ltxOff_sequence (s : State) (n : Nat) : SameReads sequenceFields ((s.ltxSilence n).ltxSet n 0) (s.ltxOff n) :=
  State.txBoundary_sequence ((SameReads.refl _ ((s.ltxSilence n).ltxSet n 0)).when fun _ hu => State.patApply_sequence hu)

/-- The direction is in OFF with driver, laser and DAC off (R173). -/
structure State.LtxIsOff (s : State) (n : Nat) : Prop where
  state : s.rd .ltxState n = 0
  drvEn : s.rd .ltxDrvEn n = 0
  lsrEn : s.rd .ltxLsrEn n = 0
  dacOn : s.rd .ltxDacOn n = 0

theorem State.ltxOff_isOff (s : State) (n : Nat) : (s.ltxOff n).LtxIsOff n := by
  have hsame := s.ltxOff_sequence n
  constructor
  · rw [hsame _ (by decide)]
    exact State.ltxSet_state _ _ _ (by decide)
  all_goals
    rw [hsame _ (by decide), State.rd_ltxSet _ _ _ _ _ (by decide) (by decide)]
    unfold State.ltxSilence
    simp (disch := decide) only [State.puts_cons, State.puts_nil, State.rd_wr_field, State.rd_wr_self]
    rfl

theorem State.rd_ltxOff (s : State) (n : Nat) {f : Field} (m i : Nat) (hf : f ∈ [Field.ltxTxEn, .ltxFaultCause]) :
    (s.ltxOff n).rd f m i = s.rd f m i := by
  have habandon := State.ltxAbandon_sequence (n := n) (SameReads.refl sequenceFields s)
  simp only [List.mem_cons, List.not_mem_nil, or_false] at hf
  rcases hf with rfl | rfl
  all_goals
    rw [s.ltxOff_sequence n _ (by decide), State.rd_ltxSet _ _ _ _ _ (by decide) (by decide)]
    unfold State.ltxSilence
    simp (disch := decide) only [State.puts_cons, State.puts_nil, State.rd_wr_field]
    exact habandon _ (by decide) _ _

/-! ## What waits in OFF and CAL (R174, R175) -/

/-- A wanted direction in OFF or CAL waits for a condition of R174. -/
def State.ltxWaits (s : State) (n : Nat) : Bool :=
  s.on .ltxTxEn n && decide (s.rd .ltxState n ≤ 1) && s.ltxHold n != 0

/-- The pending flag, its interrupt, HOLD_REASON and the pending timer show whether the direction waits (R174, R175). -/
def State.ltxShowWait (s : State) (n : Nat) : State :=
  let r := s.ltxHold n
  let pend := s.ltxWaits n
  let s := s.when (pend && !s.on .ltxTxenPending n) (fun t => t.raise .ltxIntStatus Irq.ltxTxenPending n)
  let s := (s.wrb .ltxTxenPending pend n).wr .ltxHoldReason (if pend then r else 0) n
  s.wrb .ltxTmoRun (pend && (r.testBit 1 || r.testBit 2)) n

/-- A direction that does not leave OFF for CAL only has its pending status renewed. -/
theorem State.ltxRecheck_of_stays {s : State} {n : Nat}
    (h : s.on .ltxTxEn n = true → s.rd .ltxState n = 0 → s.rd .lrxState n = 0) : s.ltxRecheck n = s.ltxShowWait n := by
  have hstays : (s.on .ltxTxEn n && s.rd .ltxState n = 0 && s.rd .lrxState n != 0 && !s.on .ltxHeldOff n) = false := by
    refine Bool.eq_false_iff.mpr fun hgo => ?_
    simp only [Bool.and_eq_true, decide_eq_true_eq, bne_iff_ne] at hgo
    obtain ⟨⟨⟨hen, hoff⟩, hrx⟩, -⟩ := hgo
    exact hrx (h hen hoff)
  unfold State.ltxRecheck
  rw [hstays]
  rfl

section
variable (s : State) (n : Nat)

theorem State.rd_ltxShowWait {f : Field} (m i : Nat)
    (hf : f ∉ [Field.ltxIntStatus, .ltxTxenPending, .ltxHoldReason, .ltxTmoRun]) :
    (s.ltxShowWait n).rd f m i = s.rd f m i := by
  simp only [List.mem_cons, List.not_mem_nil, or_false, not_or] at hf
  obtain ⟨hstatus, hpending, hreason, htimer⟩ := hf
  refine (State.rd_wr_field _ _ _ _ _ _ htimer).trans ((State.rd_wr_field _ _ _ _ _ _ hreason).trans
    ((State.rd_wr_field _ _ _ _ _ _ hpending).trans ?_))
  unfold State.when
  split
  · exact State.rd_wr_field _ _ _ _ _ _ hstatus
  · rfl

theorem State.ltxShowWait_pending : (s.ltxShowWait n).rd .ltxTxenPending n = bit (s.ltxWaits n) := by
  refine (State.rd_wr_field _ _ _ _ _ _ (by decide)).trans ((State.rd_wr_field _ _ _ _ _ _ (by decide)).trans
    (State.rd_wr_fits _ _ _ _ _ ?_))
  cases s.ltxWaits n <;> decide

theorem State.ltxHold_lt : s.ltxHold n < 16 := by
  have hbit (b : Bool) : bit b ≤ 1 := by cases b <;> decide
  have h0 := hbit (s.rd .lrxState n = 0)
  have h1 := hbit (!s.pllRuns (linePll n) || s.on .pllReqPend (linePll n))
  have h2 := hbit (!s.on .ltxDacCal n)
  have h3 := hbit (s.on .optLnOffTime n)
  unfold State.ltxHold
  omega

theorem State.ltxShowWait_reason (h : s.ltxWaits n = true) : (s.ltxShowWait n).rd .ltxHoldReason n = s.ltxHold n := by
  refine (State.rd_wr_field _ _ _ _ _ _ (by decide)).trans ?_
  rw [h]
  exact State.rd_wr_fits _ _ _ _ _ (s.ltxHold_lt n)

end

/-! ## The fault sequence (R178, R180) -/

/-- The output muted, both enables dropped, OBIAS clamped and the DAC's power-down armed, with the cause on record (R178). -/
def State.ltxCutOff (s : State) (n cause : Nat) : State :=
  let s := (((s.ltxAbandon n).wr .ltxLsrEn 0 n).wr .ltxMuted 1 n).wr .ltxDrvEn 0 n
  let s := (((s.optClamp n).wr .optFault 1 n).wr .optReleased 0 n)
  let s := ((s.wr .ltxHoldRun 0 n).wr .ltxActPend 0 n).wr .ltxDacOffRun 1 n
  s.wr .ltxFaultCause cause n

/-- The direction in FAULT, before the window of the transmit faults counts the event (R178, R410). -/
def State.ltxFaultEntry (s : State) (n cause : Nat) : State :=
  let s := ((s.ltxCutOff n cause).ltxSet n 7).raise .ltxIntStatus Irq.ltxFault n
  let s := ((s.bump .ltxFaultCnt n).wrb .ltxRestartArm (ltxAutoCause cause) n).wr .ltxTxenPending 0 n
  ((s.wr .ltxHoldReason 0 n).wr .ltxTmoRun 0 n).cmis .txFault n

section
variable {s : State} {n cause : Nat}

/-- Outside FAULT the fault sequence enters FAULT and counts the event; the cause becomes WINDOW where the window acts. -/
theorem State.ltxFault_enters (h : s.rd .ltxState n ≠ 7) : s.ltxFault n cause =
    if ((s.ltxFaultEntry n cause).countEvent 8 n).2 then
      (((s.ltxFaultEntry n cause).countEvent 8 n).1.wr .ltxFaultCause 0xA n).wr .ltxRestartArm 0 n
    else ((s.ltxFaultEntry n cause).countEvent 8 n).1 :=
  if_neg h

theorem State.rd_countEvent (s : State) (src inst k : Nat) {f : Field} (m i : Nat)
    (hb : f.desc.block ∉ [Block.evf, .hlt, .mgt]) : (s.countEvent src inst k).1.rd f m i = s.rd f m i :=
  (State.countEvent_onlyIn (OnlyIn.refl [.evf, .hlt, .mgt] s) (by decide) (by decide) (by decide)).read f m i hb

theorem State.rd_cmis (s : State) (k : CmisFlag) (n : Nat) {f : Field} (m i : Nat) (hb : f.desc.block ≠ .mgt) :
    (s.cmis k n).rd f m i = s.rd f m i :=
  (State.cmis_onlyIn (OnlyIn.refl [.mgt] s) (by decide)).read f m i (by simpa using hb)

/-- The count of the window leaves what FAULT was entered with, but for its cause. -/
theorem State.rd_ltxFault (h : s.rd .ltxState n ≠ 7) {f : Field} (m i : Nat)
    (hf : f ∉ [Field.ltxFaultCause, .ltxRestartArm]) (hb : f.desc.block ∉ [Block.evf, .hlt, .mgt]) :
    (s.ltxFault n cause).rd f m i = (s.ltxFaultEntry n cause).rd f m i := by
  simp only [List.mem_cons, List.not_mem_nil, or_false, not_or] at hf
  obtain ⟨hcause, harm⟩ := hf
  rw [State.ltxFault_enters h]
  split
  · rw [State.rd_wr_field _ _ _ _ _ _ harm, State.rd_wr_field _ _ _ _ _ _ hcause, State.rd_countEvent _ _ _ _ _ _ hb]
  · exact State.rd_countEvent _ _ _ _ _ _ hb

/-- The direction is in FAULT: its output muted, driver and laser enables low, OBIAS clamped (R178). -/
structure State.LtxFaulted (s : State) (n : Nat) : Prop where
  state : s.rd .ltxState n = 7
  muted : s.rd .ltxMuted n = 1
  drvEn : s.rd .ltxDrvEn n = 0
  lsrEn : s.rd .ltxLsrEn n = 0
  clamped : s.rd .optLnClamp n = 1

/-- Of what a fault writes, the entry leaves the outputs as they were cut off. -/
theorem State.rd_ltxFaultEntry (s : State) (n cause : Nat) {f : Field} (m i : Nat)
    (hf : f ∉ [Field.ltxState, .ltxSleep, .ltxNapWake, .pwrLnLtxPstate, .ltxIntStatus, .ltxFaultCnt, .ltxRestartArm,
      .ltxTxenPending, .ltxHoldReason, .ltxTmoRun]) (hb : f.desc.block ∉ [Block.evf, .mgt]) :
    (s.ltxFaultEntry n cause).rd f m i = (s.ltxCutOff n cause).rd f m i := by
  simp only [List.mem_cons, List.not_mem_nil, or_false, not_or] at hf hb
  obtain ⟨hstate, hsleep, hnap, hpstate, hstatus, hcnt, harm, hpending, hreason, htimer⟩ := hf
  unfold State.ltxFaultEntry
  rw [State.rd_cmis _ _ _ _ _ hb.2, State.rd_wr_field _ _ _ _ _ _ htimer, State.rd_wr_field _ _ _ _ _ _ hreason,
    State.rd_wr_field _ _ _ _ _ _ hpending]
  refine (State.rd_wr_field _ _ _ _ _ _ harm).trans ((State.rd_wr_field _ _ _ _ _ _ hcnt).trans
    ((State.rd_wr_field _ _ _ _ _ _ hstatus).trans ?_))
  exact State.rd_ltxSet _ _ _ _ _ (by simp [hstate, hsleep, hnap, hpstate, hstatus]) hb.1

theorem State.ltxFault_faulted (h : s.rd .ltxState n ≠ 7) : (s.ltxFault n cause).LtxFaulted n := by
  constructor
  case state =>
    rw [State.rd_ltxFault h _ _ (by decide) (by decide)]
    unfold State.ltxFaultEntry
    simp (disch := decide) only [State.rd_cmis, State.wrb, State.bump, State.raise, State.rd_wr_field, State.ltxSet_state]
  all_goals
    rw [State.rd_ltxFault h _ _ (by decide) (by decide), State.rd_ltxFaultEntry _ _ _ _ _ (by decide) (by decide)]
    unfold State.ltxCutOff State.optClamp
    simp (disch := decide) only [State.rd_wr_field, State.rd_wr_self]
    rfl

theorem State.rd_ltxAbandon (s : State) (n : Nat) {f : Field} (m i : Nat) (hb : f.desc.block ∉ [Block.hltLn, .ltx]) :
    (s.ltxAbandon n).rd f m i = s.rd f m i :=
  (State.ltxAbandon_onlyIn (OnlyIn.refl [.hltLn, .ltx] s) (by decide) (by decide)).read f m i hb

theorem State.ltxFaultEntry_action : (s.ltxFaultEntry n cause).rd .hltAction 0 8 = s.rd .hltAction 0 8 := by
  rw [State.rd_ltxFaultEntry _ _ _ _ _ (by decide) (by decide)]
  unfold State.ltxCutOff State.optClamp
  simp (disch := decide) only [State.rd_wr_field, State.rd_ltxAbandon]

/-- Where the window has no object action, FAULT keeps the cause it was entered with (R178, R411). -/
theorem State.ltxFault_cause (h : s.rd .ltxState n ≠ 7) (hquiet : s.rd .hltAction 0 8 ≤ 1) (hc : cause < 16) :
    (s.ltxFault n cause).rd .ltxFaultCause n = cause := by
  have hcount := State.countEvent_without_action (s.ltxFaultEntry n cause) 8 n 1 (by
    rwa [State.ltxFaultEntry_action])
  rw [State.ltxFault_enters h, if_neg (by simp [hcount]), State.rd_countEvent _ _ _ _ _ _ (by decide),
    State.rd_ltxFaultEntry _ _ _ _ _ (by decide) (by decide)]
  exact State.rd_wr_fits _ _ _ _ _ hc

/-- Cutting the outputs off leaves the count of driver faults and the status bits. -/
theorem State.rd_ltxCutOff (s : State) (n cause : Nat) {f : Field} (hf : f ∈ [Field.ltxDrvFltCnt, .ltxIntStatus]) :
    (s.ltxCutOff n cause).rd f n = s.rd f n := by
  have habandon := State.ltxAbandon_sequence (n := n) (SameReads.refl sequenceFields s)
  simp only [List.mem_cons, List.not_mem_nil, or_false] at hf
  unfold State.ltxCutOff State.optClamp
  rcases hf with rfl | rfl
  all_goals
    simp (disch := decide) only [State.rd_wr_field]
    exact habandon _ (by decide) _ _

theorem State.ltxFault_drvFltCnt (h : s.rd .ltxState n ≠ 7) :
    (s.ltxFault n cause).rd .ltxDrvFltCnt n = s.rd .ltxDrvFltCnt n := by
  rw [State.rd_ltxFault h _ _ (by decide) (by decide), State.rd_ltxFaultEntry _ _ _ _ _ (by decide) (by decide),
    State.rd_ltxCutOff _ _ _ (by decide)]

/-- The status bits after a fault are those after the move to FAULT, with LTX_FAULT raised (R178, R190). -/
theorem State.ltxFault_status (h : s.rd .ltxState n ≠ 7) : (s.ltxFault n cause).rd .ltxIntStatus n =
    (((s.ltxCutOff n cause).ltxSet n 7).raise .ltxIntStatus Irq.ltxFault n).rd .ltxIntStatus n := by
  rw [State.rd_ltxFault h _ _ (by decide) (by decide)]
  unfold State.ltxFaultEntry
  simp (disch := decide) only [State.rd_cmis, State.wrb, State.bump, State.rd_wr_field]

theorem State.ltxFault_flag (h : s.rd .ltxState n ≠ 7) :
    ((s.ltxFault n cause).rd .ltxIntStatus n).testBit Irq.ltxFault = true := by
  rw [State.ltxFault_status h]
  exact State.testBit_rd_raise _ _ _ _ (by decide)

theorem State.ltxFault_keeps_flag (h : s.rd .ltxState n ≠ 7) {j : Nat} (hj : j < Field.width .ltxIntStatus)
    (hset : (s.rd .ltxIntStatus n).testBit j = true) : ((s.ltxFault n cause).rd .ltxIntStatus n).testBit j = true := by
  rw [State.ltxFault_status h]
  refine State.testBit_rd_raise_of_set _ _ _ _ _ hj (State.ltxSet_keeps_flag _ _ _ hj ?_)
  rwa [State.rd_ltxCutOff _ _ _ (by decide)]

end

/-! ## A driver fault (R179) -/

section
variable (s : State) (n : Nat)

theorem State.rd_drvLow {f : Field} (m i : Nat) (hf : f ∉ [Field.ltxDrvFltCnt, .ltxIntStatus]) :
    (s.drvLow n).rd f m i = s.rd f m i := by
  simp only [List.mem_cons, List.not_mem_nil, or_false, not_or] at hf
  exact (State.rd_wr_field _ _ _ _ _ _ hf.2).trans (State.rd_wr_field _ _ _ _ _ _ hf.1)

theorem State.drvLow_count :
    (s.drvLow n).rd .ltxDrvFltCnt n = min (s.rd .ltxDrvFltCnt n + 1) (2 ^ Field.width .ltxDrvFltCnt - 1) :=
  (State.rd_wr_field _ _ _ _ _ _ (by decide)).trans (s.rd_bump_self _ _ _ _)

theorem State.drvLow_flag : ((s.drvLow n).rd .ltxIntStatus n).testBit Irq.ltxDrvFlt = true :=
  State.testBit_rd_raise _ _ _ _ (by decide)

end

section
variable {s : State} {n : Lane}

theorem exec_drvFault_unmonitored (h : s.on .ltxDrvEn n = false) : exec (.drvFault n) s = .next s :=
  congrArg Host.Outcome.next (if_neg (by rw [h]; decide))

/-- A monitored fault counts, and takes a direction whose driver is on its way or at work to FAULT. -/
theorem exec_drvFault_monitored (h : s.on .ltxDrvEn n = true) : exec (.drvFault n) s =
    .next (if 2 ≤ s.rd .ltxState n ∧ s.rd .ltxState n ≤ 4 then (s.drvLow n).ltxFault n 2 else s.drvLow n) := by
  have hstate : (s.drvLow n).rd .ltxState n = s.rd .ltxState n := s.rd_drvLow n _ _ (by decide)
  have hin : (s.rd .ltxState n = 2 ∨ s.rd .ltxState n = 3 ∨ s.rd .ltxState n = 4) ↔
      2 ≤ s.rd .ltxState n ∧ s.rd .ltxState n ≤ 4 := by omega
  refine congrArg Host.Outcome.next ((if_pos h).trans ?_)
  simp only [hstate, hin]

/-- What a monitored fault does in DRV_ON, LSR_ON and ACTIVE (R178, R179). -/
theorem drvFault_faults (hon : s.on .ltxDrvEn n = true) (hlow : 2 ≤ s.rd .ltxState n) (hhigh : s.rd .ltxState n ≤ 4) :
    ∃ t, exec (.drvFault n) s = .next t ∧ t.LtxFaulted n ∧
      t.rd .ltxDrvFltCnt n = min (s.rd .ltxDrvFltCnt n + 1) (2 ^ Field.width .ltxDrvFltCnt - 1) ∧
      (t.rd .ltxIntStatus n).testBit Irq.ltxDrvFlt = true ∧ (s.rd .hltAction 0 8 ≤ 1 → t.rd .ltxFaultCause n = 2) := by
  have hstate : (s.drvLow n).rd .ltxState n ≠ 7 := by
    rw [State.rd_drvLow _ _ _ _ (by decide)]
    omega
  refine ⟨_, (exec_drvFault_monitored hon).trans (congrArg _ (if_pos ⟨hlow, hhigh⟩)), State.ltxFault_faulted hstate, ?_,
    State.ltxFault_keeps_flag hstate (by decide) (s.drvLow_flag n), fun hquiet => ?_⟩
  · rw [State.ltxFault_drvFltCnt hstate, State.drvLow_count]
  · refine State.ltxFault_cause hstate ?_ (by decide)
    rwa [State.rd_drvLow _ _ _ _ (by decide)]

end

/-- Settles O11: by whether DRV_EN is high, and with it high by whether the state is one that a driver fault ends. -/
theorem driverFaultMonitor : Obligations.DriverFaultMonitor := by
  unfold Obligations.DriverFaultMonitor
  refine fun n s => ⟨exec_drvFault_unmonitored, fun hon => ?_⟩
  by_cases hin : 2 ≤ s.rd .ltxState n ∧ s.rd .ltxState n ≤ 4
  · obtain ⟨t, ht, hfault, hcount, hflag, hcause⟩ := drvFault_faults hon hin.1 hin.2
    exact ⟨t, ht, hcount, hflag, fun _ _ => ⟨hfault.state, hcause⟩, fun hout => by omega⟩
  · refine ⟨_, (exec_drvFault_monitored hon).trans (congrArg _ (if_neg hin)), s.drvLow_count n, s.drvLow_flag n,
      fun hlow hhigh => absurd ⟨hlow, hhigh⟩ hin, fun _ => s.rd_drvLow n _ _ (by decide)⟩

/-! ## The enable sequence (R174 to R176) -/

/-- An access to a block that it reaches does what it asks for (R334). -/
theorem State.access_of_reaches {s : State} {b : Block} {n : Nat} (h : s.reaches b n) (g : State → State) :
    s.access b n g = g s := by
  obtain ⟨hmgmt, hpower⟩ := h
  unfold State.access
  rw [hmgmt, hpower]
  rfl

/-- A service request to a lane of which no test runs is carried out (R423). -/
theorem State.laneService_of_free {s : State} {n : Nat} (hlane : s.underTest 1 n = false) (hdac : s.underTest 4 n = false)
    (r : SvcReq) (g : State → State) : s.laneService n r g = g s := by
  unfold State.laneService State.service
  simp [hlane, hdac]

section
variable {s : State} {n : Lane}

theorem exec_txEnableRequest (hreach : s.reaches .ltx n) (hlane : s.underTest 1 n = false)
    (hdac : s.underTest 4 n = false) : exec (.txEnableRequest n) s = .next (s.ltxEnableOn n) := by
  refine congrArg Host.Outcome.next ((State.access_of_reaches hreach _).trans ?_)
  simp only [hlane, Bool.false_and, State.when_false]
  exact State.laneService_of_free hlane hdac _ _

/-- TX_EN on record changes none of the conditions of R174. -/
theorem State.ltxHold_wr_txEn (s : State) (v n m : Nat) : (s.wr .ltxTxEn v n).ltxHold m = s.ltxHold m := by
  unfold State.ltxHold State.pllRuns State.pllLocked
  simp (disch := decide) only [State.on_eq, State.rd_wr_field]

/-- With the line receiver in OFF, a direction in OFF records TX_EN and waits (R174). -/
theorem State.ltxEnableOn_waits (hfree : s.on .ltxHeldOff n = false) (hrx : s.rd .lrxState n = 0)
    (hoff : s.rd .ltxState n = 0) : s.ltxEnableOn n = (s.wr .ltxTxEn 1 n).ltxShowWait n ∧
      (s.wr .ltxTxEn 1 n).ltxWaits n = true := by
  have hstate : (s.wr .ltxTxEn 1 n).rd .ltxState n = 0 := (State.rd_wr_field _ _ _ _ _ _ (by decide)).trans hoff
  have hrecv : (s.wr .ltxTxEn 1 n).rd .lrxState n = 0 := (State.rd_wr_field _ _ _ _ _ _ (by decide)).trans hrx
  have hen : (s.wr .ltxTxEn 1 n).on .ltxTxEn n = true := by
    rw [State.on_eq, State.rd_wr_self]
    rfl
  have hreason : s.ltxHold n ≠ 0 := by
    unfold State.ltxHold
    rw [hrx]
    simp [bit]
  constructor
  · exact (if_neg (by rw [hfree]; decide)).trans (State.ltxRecheck_of_stays fun _ _ => hrecv)
  · unfold State.ltxWaits
    rw [hen, hstate, State.ltxHold_wr_txEn]
    simp [hreason]

/-- The blocks that a move of the transmit state writes. -/
theorem State.ltxSet_onlyIn_self (s : State) (n st : Nat) : OnlyIn [.ltx, .pwrLn, .evf] s (s.ltxSet n st) :=
  State.ltxSet_onlyIn (OnlyIn.refl _ s) (by decide) (by decide) (by decide)

/-- The grants of the envelope stand outside the transmit block (R349). -/
theorem State.envGrants_of_onlyIn {t : State} (h : OnlyIn [.ltx, .pwrLn, .evf] s t) (n : Nat) :
    t.envGrants n = s.envGrants n := by
  unfold State.envGrants State.maskBit
  simp (disch := decide) only [State.on_eq, h.read]

/-- DRV_ON is entered with the DAC muted and nothing pending (R176). -/
def State.ltxDriveOn (s : State) (n : Nat) : State :=
  (s.puts [(.ltxTxenPending, 0), (.ltxHoldReason, 0), (.ltxTmoRun, 0), (.ltxMuted, 1)] n).ltxSet n 2

theorem State.ltxDriveOn_onlyIn (s : State) (n : Nat) : OnlyIn [.ltx, .pwrLn, .evf] s (s.ltxDriveOn n) :=
  State.ltxSet_onlyIn (State.puts_onlyIn (OnlyIn.refl _ s) (by decide)) (by decide) (by decide) (by decide)

theorem State.ltxDriveOn_state (s : State) (n : Nat) : (s.ltxDriveOn n).rd .ltxState n = 2 :=
  State.ltxSet_state _ _ _ (by decide)

theorem exec_txEnableGo (hcal : s.rd .ltxState n = 1) (hen : s.on .ltxTxEn n = true) (hhold : s.ltxHold n = 0)
    (hpins : s.pinsUnderTest n = false) : exec (.txEnableGo n) s =
    .next (if s.envGrants n then (s.ltxDriveOn n).wr .ltxDrvEn 1 n else (s.ltxDriveOn n).ltxFault n 5) := by
  have hgo : s.rd .ltxState n = 1 ∧ s.on .ltxTxEn n ∧ s.ltxHold n = 0 ∧ !s.pinsUnderTest n :=
    ⟨hcal, hen, hhold, by rw [hpins]; rfl⟩
  have hgrants := State.envGrants_of_onlyIn (s.ltxDriveOn_onlyIn n) n
  refine congrArg Host.Outcome.next ((if_pos hgo).trans ?_)
  rw [← hgrants]
  rfl

theorem exec_txenTimeout (h : s.on .ltxTmoRun n = true) : exec (.txenTimeout n) s = .next (s.ltxFault n 1) :=
  congrArg Host.Outcome.next (if_pos h)

section
variable (hstate : s.rd .ltxState n = 2) (hon : s.on .ltxDrvEn n = true)
include hstate hon

theorem exec_drvSettleExpiry_low : exec (.drvSettleExpiry n false) s = .next ((s.drvLow n).ltxFault n 2) :=
  congrArg Host.Outcome.next (if_pos ⟨hstate, hon⟩)

theorem exec_drvSettleExpiry_granted (hgrant : s.envGrants n = true) :
    exec (.drvSettleExpiry n true) s = .next ((s.laserOn n).ltxSet n 3) :=
  congrArg Host.Outcome.next ((if_pos ⟨hstate, hon⟩).trans ((if_neg (by decide)).trans (if_neg (by rw [hgrant]; decide))))

end

/-- The laser is granted: its enable high, the clamp open and the bias ramping (R176, R346). -/
theorem State.laserOn_reads (s : State) (n : Nat) : (s.laserOn n).rd .ltxLsrEn n = 1 ∧
    (s.laserOn n).rd .optLnClamp n = 0 ∧ (s.laserOn n).rd .optLnRamp n = 1 := by
  unfold State.laserOn
  extract_lets t
  have hprobe : SameReads [.ltxLsrEn, .optLnClamp, .optLnRamp] t
      (t.when (t.on .optTripped n) fun u => u.puts [(.optProbeRun, 1), (.optLnProbe, 1)] n) :=
    (SameReads.refl _ t).when fun _ hu => hu.puts (by decide)
  refine ⟨?_, ?_, ?_⟩
  all_goals
    rw [hprobe _ (by decide)]
    exact State.rd_puts_of_mem (by simp) (by simp) (by decide)

theorem exec_biasTimeout (hstate : s.rd .ltxState n = 3) (hbias : s.on .ltxActPend n = false) :
    exec (.biasTimeout n) s = .next (s.ltxFault n 3) :=
  congrArg Host.Outcome.next (if_pos ⟨hstate, by rw [hbias]; rfl⟩)

theorem exec_txActivate (hstate : s.rd .ltxState n = 3) (hbias : s.on .ltxActPend n = true) : exec (.txActivate n) s =
    .next ((((s.puts [(.ltxActPend, 0), (.ltxMuted, 0), (.optTripped, 0), (.optProbeRun, 0), (.optLnProbe, 0)] n).ltxSet n
      4).wrFree .ltxFifoPhase n).raise .ltxIntStatus Irq.ltxTxActive n) :=
  congrArg Host.Outcome.next (if_pos ⟨hstate, hbias⟩)

/-- A field left free leaves every other field. -/
theorem State.rd_wrFree_field (s : State) {f g : Field} (n m i j : Nat) (h : g ≠ f) :
    (s.wrFree f n i).rd g m j = s.rd g m j :=
  State.rd_wr_field _ _ _ _ _ _ h

/-- With the line receiver in OFF the request is on record, and HOLD_REASON shows what it waits for (R174). -/
theorem txEnableRequest_waits (hreach : s.reaches .ltx n) (hlane : s.underTest 1 n = false)
    (hdac : s.underTest 4 n = false) (hfree : s.on .ltxHeldOff n = false) (hrx : s.rd .lrxState n = 0)
    (hoff : s.rd .ltxState n = 0) : ∃ t, exec (.txEnableRequest n) s = .next t ∧ t.rd .ltxTxEn n = 1 ∧
      t.rd .ltxTxenPending n = 1 ∧ t.rd .ltxHoldReason n = s.ltxHold n ∧ t.rd .ltxState n = 0 := by
  obtain ⟨hrun, hwaits⟩ := State.ltxEnableOn_waits hfree hrx hoff
  refine ⟨_, (exec_txEnableRequest hreach hlane hdac).trans (congrArg _ hrun), ?_, ?_, ?_, ?_⟩
  · rw [State.rd_ltxShowWait _ _ _ _ (by decide)]
    exact State.rd_wr_fits _ _ _ _ _ (by decide)
  · rw [State.ltxShowWait_pending, hwaits]
    rfl
  · rw [State.ltxShowWait_reason _ _ hwaits, State.ltxHold_wr_txEn]
  · rw [State.rd_ltxShowWait _ _ _ _ (by decide), State.rd_wr_field _ _ _ _ _ _ (by decide), hoff]

section
variable (hcal : s.rd .ltxState n = 1) (hen : s.on .ltxTxEn n = true) (hhold : s.ltxHold n = 0)
  (hpins : s.pinsUnderTest n = false)
include hcal hen hhold hpins

/-- With the envelope's grant the direction is in DRV_ON, muted, with DRV_EN high (R176, R349). -/
theorem txEnableGo_drives (hgrant : s.envGrants n = true) : ∃ t, exec (.txEnableGo n) s = .next t ∧
    t.rd .ltxState n = 2 ∧ t.rd .ltxDrvEn n = 1 ∧ t.rd .ltxMuted n = 1 ∧ t.rd .ltxTxenPending n = 0 ∧
      OnlyIn [.ltx, .pwrLn, .evf] s t := by
  refine ⟨_, (exec_txEnableGo hcal hen hhold hpins).trans (congrArg _ (if_pos hgrant)), ?_,
    State.rd_wr_fits _ _ _ _ _ (by decide), ?_, ?_, State.wr_onlyIn (s.ltxDriveOn_onlyIn n) (by decide)⟩
  all_goals rw [State.rd_wr_field _ _ _ _ _ _ (by decide)]
  · exact s.ltxDriveOn_state n
  all_goals
    refine (State.rd_ltxSet _ _ _ _ _ (by decide) (by decide)).trans ?_
    exact State.rd_puts_of_mem (by simp) (by simp) (by decide)

/-- Refused by the envelope, the direction is in FAULT (R349). -/
theorem txEnableGo_refused (hgrant : s.envGrants n = false) (hquiet : s.rd .hltAction 0 8 ≤ 1) :
    ∃ t, exec (.txEnableGo n) s = .next t ∧ t.LtxFaulted n ∧ t.rd .ltxFaultCause n = 5 := by
  have hstate : (s.ltxDriveOn n).rd .ltxState n ≠ 7 := by
    rw [s.ltxDriveOn_state]
    decide
  refine ⟨_, (exec_txEnableGo hcal hen hhold hpins).trans (congrArg _ (if_neg (by rw [hgrant]; decide))),
    State.ltxFault_faulted hstate, State.ltxFault_cause hstate ?_ (by decide)⟩
  rwa [(s.ltxDriveOn_onlyIn n).read _ _ _ (by decide)]

end

section
variable (hstate : s.rd .ltxState n = 2) (hon : s.on .ltxDrvEn n = true)
include hstate hon

/-- With DRV_FLT high and the envelope's grant the laser is on and the bias ramps (R176, R341, R346). -/
theorem drvSettleExpiry_lases (hgrant : s.envGrants n = true) : ∃ t, exec (.drvSettleExpiry n true) s = .next t ∧
    t.rd .ltxState n = 3 ∧ t.rd .ltxLsrEn n = 1 ∧ t.rd .optLnClamp n = 0 ∧ t.rd .optLnRamp n = 1 ∧
      OnlyIn [.ltx, .optLn, .pwrLn, .evf] s t := by
  obtain ⟨hlaser, hclamp, hramp⟩ := s.laserOn_reads n
  refine ⟨_, exec_drvSettleExpiry_granted hstate hon hgrant, State.ltxSet_state _ _ _ (by decide), ?_, ?_, ?_,
    State.ltxSet_onlyIn (State.laserOn_onlyIn (OnlyIn.refl _ s) (by decide) (by decide)) (by decide) (by decide)
      (by decide)⟩
  · exact (State.rd_ltxSet _ _ _ _ _ (by decide) (by decide)).trans hlaser
  · exact (State.rd_ltxSet _ _ _ _ _ (by decide) (by decide)).trans hclamp
  · exact (State.rd_ltxSet _ _ _ _ _ (by decide) (by decide)).trans hramp

/-- With DRV_FLT low the direction is in FAULT (R176, R179). -/
theorem drvSettleExpiry_faults (hquiet : s.rd .hltAction 0 8 ≤ 1) : ∃ t, exec (.drvSettleExpiry n false) s = .next t ∧
    t.LtxFaulted n ∧ t.rd .ltxFaultCause n = 2 := by
  have hlow : (s.drvLow n).rd .ltxState n ≠ 7 := by
    rw [State.rd_drvLow _ _ _ _ (by decide), hstate]
    decide
  refine ⟨_, exec_drvSettleExpiry_low hstate hon, State.ltxFault_faulted hlow, State.ltxFault_cause hlow ?_ (by decide)⟩
  rwa [State.rd_drvLow _ _ _ _ (by decide)]

end

/-- A command that is the fault sequence of its cause enters FAULT with it, unless the window acts (R178). -/
theorem faults_of_exec {c : Instr} {cause : Nat} (hrun : exec c s = .next (s.ltxFault n cause))
    (hstate : s.rd .ltxState n ≠ 7) (hquiet : s.rd .hltAction 0 8 ≤ 1) (hc : cause < 16) : ∃ t, exec c s = .next t ∧
      t.LtxFaulted n ∧ t.rd .ltxFaultCause n = cause ∧ (t.rd .ltxIntStatus n).testBit Irq.ltxFault = true :=
  ⟨_, hrun, State.ltxFault_faulted hstate, State.ltxFault_cause hstate hquiet hc, State.ltxFault_flag hstate⟩

/-- After bias ready the direction is in ACTIVE, unmuted, with its status bit and no probe window (R176, R351). -/
theorem txActivate_activates (hstate : s.rd .ltxState n = 3) (hbias : s.on .ltxActPend n = true) :
    ∃ t, exec (.txActivate n) s = .next t ∧ t.rd .ltxState n = 4 ∧ t.rd .ltxMuted n = 0 ∧
      (t.rd .ltxIntStatus n).testBit Irq.ltxTxActive = true ∧ t.rd .optLnProbe n = 0 ∧
      OnlyIn [.ltx, .optLn, .pwrLn, .evf] s t := by
  refine ⟨_, exec_txActivate hstate hbias, ?_, ?_, State.testBit_rd_raise _ _ _ _ (by decide), ?_, ?_⟩
  case refine_4 =>
    have hputs := State.puts_onlyIn (n := n) (k := [(.ltxActPend, 0), (.ltxMuted, 0), (.optTripped, 0), (.optProbeRun, 0),
      (.optLnProbe, 0)]) (OnlyIn.refl [.ltx, .optLn, .pwrLn, .evf] s) (by decide)
    have hmoved := State.ltxSet_onlyIn (n := n) (st := 4) hputs (by decide) (by decide) (by decide)
    exact State.raise_onlyIn (State.wrFree_onlyIn hmoved (by decide)) (by decide)
  all_goals
    refine (State.rd_wr_field _ _ _ _ _ _ (by decide)).trans ((State.rd_wrFree_field _ _ _ _ _ (by decide)).trans ?_)
  · exact State.ltxSet_state _ _ _ (by decide)
  all_goals
    rw [State.rd_ltxSet _ _ _ _ _ (by decide) (by decide)]
    exact State.rd_puts_of_mem (by simp) (by simp) (by decide)

end

/-- Settles O19: each command of the enable sequence takes its own step, or the fault sequence with its own cause. -/
theorem laneTransmitEnable : Obligations.LaneTransmitEnable := by
  unfold Obligations.LaneTransmitEnable
  refine ⟨fun n s => txEnableRequest_waits, ?heldOff, fun n s => txEnableGo_drives, ?refused, ?pendingTimeout, ?settled,
    ?settleFault, ?biasTimeout, fun n s => txActivate_activates⟩
  case heldOff =>
    intro n s hreach hlane hdac hheld
    exact (exec_txEnableRequest hreach hlane hdac).trans (congrArg _ (if_pos hheld))
  case refused =>
    intro n s hcal hen hhold hpins hgrant hquiet
    obtain ⟨t, ht, hfault, hcause⟩ := txEnableGo_refused hcal hen hhold hpins hgrant hquiet
    exact ⟨t, ht, hfault.state, hcause, hfault.drvEn, hfault.lsrEn⟩
  case pendingTimeout =>
    intro n s hrun hstate hquiet
    obtain ⟨t, ht, hfault, hcause, hflag⟩ := faults_of_exec (exec_txenTimeout hrun) hstate hquiet (by decide)
    exact ⟨t, ht, hfault.state, hcause, hflag⟩
  case settled =>
    rintro n _ s hstate hon rfl hgrant
    exact drvSettleExpiry_lases hstate hon hgrant
  case settleFault =>
    rintro n _ s hstate hon rfl hquiet
    obtain ⟨t, ht, hfault, hcause⟩ := drvSettleExpiry_faults hstate hon hquiet
    exact ⟨t, ht, hfault.state, hcause, hfault.lsrEn⟩
  case biasTimeout =>
    intro n s hstate hbias hquiet
    obtain ⟨t, ht, hfault, hcause, -⟩ := faults_of_exec (exec_biasTimeout hstate hbias) (by omega) hquiet (by decide)
    exact ⟨t, ht, hfault.state, hcause, hfault.clamped⟩

/-! ## The disable sequence (R177, R181) -/

/-- The request for the transmit direction is withdrawn: TX_EN 0, and no request of it deferred (R177, R423). -/
def State.ltxWithdraw (s : State) (n : Nat) : State :=
  State.wr { s with deferred := s.deferred.filter (· ≠ SvcReq.txEnable n) } .ltxTxEn 0 n

theorem State.rd_ltxWithdraw (s : State) (n : Nat) {f : Field} (m i : Nat) (hf : f ≠ .ltxTxEn) :
    (s.ltxWithdraw n).rd f m i = s.rd f m i :=
  State.rd_wr_field _ _ _ _ _ _ hf

theorem State.ltxWithdraw_txEn (s : State) (n : Nat) : (s.ltxWithdraw n).rd .ltxTxEn n = 0 :=
  State.rd_wr_fits _ _ _ _ _ (by decide)

theorem State.rd_clearLastings (s : State) (srcs : List Nat) (inst : Nat) {f : Field} (m i : Nat)
    (hb : f.desc.block ≠ .hlt) : (s.clearLastings srcs inst).rd f m i = s.rd f m i :=
  (State.clearLastings_onlyIn (OnlyIn.refl [.hlt] s) (by decide)).read f m i (by simpa using hb)

/-- A direction that is not wanted does not leave OFF for CAL, and waits for nothing. -/
theorem State.ltxRecheck_of_unwanted {s : State} {n : Nat} (h : s.rd .ltxTxEn n = 0) :
    s.ltxRecheck n = s.ltxShowWait n ∧ s.ltxWaits n = false := by
  have hoff : s.on .ltxTxEn n = false := by
    rw [State.on_eq, h]
    rfl
  refine ⟨State.ltxRecheck_of_stays fun hen => absurd (hen.symm.trans hoff) (by decide), ?_⟩
  unfold State.ltxWaits
  rw [hoff]
  rfl

section
variable {s : State} {n : Nat}

/-- A trigger that finds the direction in ACTIVE, awake, with the laser on moves it to DISABLE (R177). -/
theorem State.ltxDisable_of_active (hstate : s.rd .ltxState n = 4) (hlaser : s.on .ltxLsrEn n = true)
    (hawake : s.on .ltxSleep n = false) : s.ltxDisable n = ((s.ltxAbandon n).ltxSet n 5).wr .ltxActPend 0 n := by
  have hkeeps : (((s.ltxAbandon n).ltxSet n 5).wr .ltxActPend 0 n).on .ltxLsrEn n = true := by
    rw [State.on_eq, State.rd_wr_field _ _ _ _ _ _ (by decide), State.rd_ltxSet _ _ _ _ _ (by decide) (by decide),
      State.ltxAbandon_sequence (SameReads.refl _ s) _ (by decide)]
    exact hlaser
  refine (if_pos (Or.inr (Or.inr hstate))).trans ((if_neg (by rw [hkeeps]; decide)).trans (if_neg ?_))
  rw [hawake]
  decide

/-- OFF is the same whatever status and lasting faults show. -/
theorem State.LtxIsOff.of_clearLastings (h : s.LtxIsOff n) {srcs : List Nat} {inst : Nat} :
    (s.clearLastings srcs inst).LtxIsOff n := by
  have hkept {f : Field} (hb : f.desc.block ≠ .hlt) := s.rd_clearLastings srcs inst n 0 hb
  exact ⟨(hkept (by decide)).trans h.state, (hkept (by decide)).trans h.drvEn, (hkept (by decide)).trans h.lsrEn,
    (hkept (by decide)).trans h.dacOn⟩

theorem State.LtxIsOff.of_showWait (h : s.LtxIsOff n) : (s.ltxShowWait n).LtxIsOff n := by
  have hkept {f : Field} (hf : f ∉ [Field.ltxIntStatus, .ltxTxenPending, .ltxHoldReason, .ltxTmoRun]) :=
    s.rd_ltxShowWait n n 0 hf
  exact ⟨(hkept (by decide)).trans h.state, (hkept (by decide)).trans h.drvEn, (hkept (by decide)).trans h.lsrEn,
    (hkept (by decide)).trans h.dacOn⟩

/-- A trigger in FAULT moves nothing: FAULT is left by TX_EN or RESTART (R181). -/
theorem State.ltxDisable_of_fault (hstate : s.rd .ltxState n = 7) : s.ltxDisable n = s.ltxRecheck n :=
  (if_neg (by rw [hstate]; decide)).trans (if_neg (by rw [hstate]; decide))

end

section
variable {s : State} {n : Lane}

theorem exec_txDisable_txEnCleared (hreach : s.reaches .ltx n) : exec (.txDisable n .txEnCleared) s =
    .next ((((s.ltxWithdraw n).ltxDisable n).ltxFaultEnd n).clearLastings [7, 8, 12, 13] n) :=
  congrArg Host.Outcome.next (State.access_of_reaches hreach _)

/-- TX_EN cleared in ACTIVE, awake with the laser on: DISABLE, with both enables as they were (R177). -/
theorem txDisable_disables (hlaser : s.on .ltxLsrEn n = true) (hreach : s.reaches .ltx n) (hstate : s.rd .ltxState n = 4)
    (hawake : s.on .ltxSleep n = false) : ∃ t, exec (.txDisable n .txEnCleared) s = .next t ∧ t.rd .ltxTxEn n = 0 ∧
      t.rd .ltxState n = 5 ∧ t.rd .ltxLsrEn n = s.rd .ltxLsrEn n ∧ t.rd .ltxDrvEn n = s.rd .ltxDrvEn n := by
  have hdisable : (s.ltxWithdraw n).ltxDisable n =
      (((s.ltxWithdraw n).ltxAbandon n).ltxSet n 5).wr .ltxActPend 0 n := by
    refine State.ltxDisable_of_active ?_ ?_ ?_
    · rwa [State.rd_ltxWithdraw _ _ _ _ (by decide)]
    · rwa [State.on_eq, State.rd_ltxWithdraw _ _ _ _ (by decide)]
    · rwa [State.on_eq, State.rd_ltxWithdraw _ _ _ _ (by decide)]
  have hmoved : ((((s.ltxWithdraw n).ltxAbandon n).ltxSet n 5).wr .ltxActPend 0 n).rd .ltxState n = 5 :=
    (State.rd_wr_field _ _ _ _ _ _ (by decide)).trans (State.ltxSet_state _ _ _ (by decide))
  have hrun := exec_txDisable_txEnCleared hreach
  rw [hdisable, State.ltxFaultEnd, if_neg (by rw [hmoved]; decide)] at hrun
  have habandon := State.ltxAbandon_sequence (n := n) (SameReads.refl sequenceFields (s.ltxWithdraw n))
  have hkept {f : Field} (hseq : f ∈ [Field.ltxTxEn, .ltxLsrEn, .ltxDrvEn]) :
      ((((s.ltxWithdraw n).ltxAbandon n).ltxSet n 5).wr .ltxActPend 0 n).rd f n = (s.ltxWithdraw n).rd f n := by
    simp only [List.mem_cons, List.not_mem_nil, or_false] at hseq
    rcases hseq with rfl | rfl | rfl
    all_goals
      rw [State.rd_wr_field _ _ _ _ _ _ (by decide), State.rd_ltxSet _ _ _ _ _ (by decide) (by decide)]
      exact habandon _ (by decide) _ _
  refine ⟨_, hrun, ?_, (State.rd_clearLastings _ _ _ _ _ (by decide)).trans hmoved, ?_, ?_⟩
  all_goals rw [State.rd_clearLastings _ _ _ _ _ (by decide), hkept (by decide)]
  · exact s.ltxWithdraw_txEn n
  all_goals exact s.rd_ltxWithdraw n _ _ (by decide)

/-- TX_EN cleared in FAULT: OFF, with the cause cleared (R181). -/
theorem txDisable_leaves_fault (hreach : s.reaches .ltx n) (hstate : s.rd .ltxState n = 7) :
    ∃ t, exec (.txDisable n .txEnCleared) s = .next t ∧ t.LtxIsOff n ∧ t.rd .ltxTxEn n = 0 ∧
      t.rd .ltxFaultCause n = 0 := by
  have hfault : (s.ltxWithdraw n).rd .ltxState n = 7 := (s.rd_ltxWithdraw n _ _ (by decide)).trans hstate
  have hshow : ((s.ltxWithdraw n).ltxShowWait n).rd .ltxState n = 7 := by
    rwa [State.rd_ltxShowWait _ _ _ _ (by decide)]
  have hrun := exec_txDisable_txEnCleared hreach
  rw [State.ltxDisable_of_fault hfault, (State.ltxRecheck_of_unwanted (s.ltxWithdraw_txEn n)).1, State.ltxFaultEnd,
    if_pos hshow] at hrun
  refine ⟨_, hrun, (State.ltxOff_isOff _ _).of_clearLastings, ?_, ?_⟩
  all_goals rw [State.rd_clearLastings _ _ _ _ _ (by decide), State.rd_ltxOff _ _ _ _ (by decide)]
  · rw [State.rd_puts_other _ _ _ _ _ _ (Or.inl (by simp)), State.rd_ltxShowWait _ _ _ _ (by decide)]
    exact s.ltxWithdraw_txEn n
  · exact State.rd_puts_of_mem (by simp) (by simp) (by decide)

/-- At the codeword boundary of the disable sequence the DAC mutes and the laser enable drops (R177, R341). -/
theorem txDisableMute_mutes (hstate : s.rd .ltxState n = 5) (hlaser : s.on .ltxLsrEn n = true)
    (hhold : s.on .ltxHoldRun n = false) : ∃ t, exec (.txDisableMute n) s = .next t ∧ t.rd .ltxMuted n = 1 ∧
      t.rd .ltxLsrEn n = 0 ∧ t.rd .ltxHoldRun n = 1 ∧ t.rd .optLnRamp n = 1 ∧ t.rd .optLnBiasReady n = 0 ∧
      Changes s t n [.ltxMuted, .ltxLsrEn, .ltxHoldRun, .optRampDown, .optLnRamp, .optLnBiasReady] := by
  refine ⟨s.ltxLaserOff n, congrArg Host.Outcome.next (if_pos ⟨hstate, hlaser, by rw [hhold]; rfl⟩), ?_, ?_, ?_, ?_, ?_, ?_⟩
  case refine_6 =>
    exact ((((((Changes.refl s n _).wr (by decide)).wr (by decide)).wr (by decide)).wr (by decide)).wr (by decide)).wr
      (by decide)
  all_goals
    unfold State.ltxLaserOff
    simp (disch := decide) only [State.rd_wr_field, State.rd_wr_self]
    rfl

/-- The hold of the driver ends a disable that is wanted: OFF, with nothing pending (R177). -/
theorem drvHoldExpiry_ends (hstate : s.rd .ltxState n = 5) (hhold : s.on .ltxHoldRun n = true)
    (hen : s.on .ltxTxEn n = false) : ∃ t, exec (.drvHoldExpiry n) s = .next t ∧ t.LtxIsOff n ∧
      t.rd .ltxTxenPending n = 0 := by
  have hoff : s.rd .ltxTxEn n = 0 := by simpa [State.on_eq] using hen
  have hdrop : ((s.wr .ltxDrvEn 0 n).wr .ltxHoldRun 0 n).rd .ltxTxEn n = 0 := by
    rwa [State.rd_wr_field _ _ _ _ _ _ (by decide), State.rd_wr_field _ _ _ _ _ _ (by decide)]
  obtain ⟨hrecheck, hwaits⟩ := State.ltxRecheck_of_unwanted (n := n) ((State.rd_ltxOff _ _ _ _ (by decide)).trans hdrop)
  have hrun : exec (.drvHoldExpiry n) s =
      .next ((((s.wr .ltxDrvEn 0 n).wr .ltxHoldRun 0 n).ltxOff n).ltxRecheck n) := by
    refine congrArg Host.Outcome.next ((if_pos ⟨hstate, hhold⟩).trans ?_)
    unfold State.ltxDisableEnd
    exact if_pos (by rw [State.on_eq, hdrop]; rfl)
  refine ⟨_, hrun.trans (congrArg _ hrecheck), (State.ltxOff_isOff _ _).of_showWait, ?_⟩
  rw [State.ltxShowWait_pending, hwaits]
  rfl

end

/-! ## Restart from FAULT (R180, R181) -/

/-- The number with bit `k` cleared has 0 there. -/
theorem testBit_withBit_false (v k : Nat) : (withBit v k false).testBit k = false := by
  unfold withBit
  by_cases h : v.testBit k = true
  · have hflip := Nat.testBit_two_pow_add_eq (v - 2 ^ k) k
    rw [Nat.add_sub_cancel' (Nat.ge_two_pow_of_testBit h), h] at hflip
    simpa [h] using hflip
  · simp [h]

section
variable (s : State) (inst : Nat)

theorem State.clearLasting_clears (src : Nat) :
    ((s.clearLasting src inst).rd .hltSrcLasting 0 src).testBit inst = false := by
  unfold State.clearLasting
  split
  · simp (disch := decide) only [State.setMask', State.rd_wr_field, State.rd_wr_self]
    rw [Nat.testBit_mod_two_pow, testBit_withBit_false, Bool.and_false]
  case isFalse h => simpa [State.maskBit'] using h

/-- A lasting fault that is clear stays clear. -/
theorem State.clearLasting_keeps_clear (src k : Nat) (h : (s.rd .hltSrcLasting 0 k).testBit inst = false) :
    ((s.clearLasting src inst).rd .hltSrcLasting 0 k).testBit inst = false := by
  by_cases hk : k = src
  · subst hk
    exact s.clearLasting_clears inst k
  · unfold State.clearLasting
    split
    · simp (disch := decide) only [State.setMask', State.rd_wr_field]
      rwa [State.rd_wr, if_neg (fun e => hk e.2.2)]
    · exact h

theorem State.clearLastings_clears (srcs : List Nat) : ∀ k, (k ∈ srcs ∨ (s.rd .hltSrcLasting 0 k).testBit inst = false) →
    ((s.clearLastings srcs inst).rd .hltSrcLasting 0 k).testBit inst = false := by
  induction srcs generalizing s with
  | nil => exact fun k hk => hk.resolve_left (by simp)
  | cons src srcs ih =>
    intro k hk
    refine ih (s.clearLasting src inst) k ?_
    by_cases hsrc : k = src
    · exact Or.inr (hsrc ▸ s.clearLasting_clears inst src)
    · exact hk.imp (fun h => (List.mem_cons.mp h).resolve_left hsrc) (s.clearLasting_keeps_clear inst src k)

end

/-- The direction has left FAULT for CAL, with no cause, no restart armed and its DAC on (R169, R181). -/
structure State.LtxInCal (s : State) (n : Nat) : Prop where
  state : s.rd .ltxState n = 1
  cause : s.rd .ltxFaultCause n = 0
  disarmed : s.rd .ltxRestartArm n = 0
  dacOn : s.rd .ltxDacOn n = 1

theorem State.ltxLeaveFault_inCal (s : State) (n : Nat) : (s.ltxLeaveFault n).LtxInCal n := by
  unfold State.ltxLeaveFault
  extract_lets t u
  have hu : SameReads [.ltxFaultCause, .ltxRestartArm, .ltxDacOn] t u :=
    (SameReads.refl _ t).when fun _ hv => hv.wr (by decide)
  constructor
  · exact State.ltxSet_state _ _ _ (by decide)
  all_goals
    rw [State.rd_ltxSet _ _ _ _ _ (by decide) (by decide), hu _ (by decide)]
    exact State.rd_puts_of_mem (by simp) (by simp) (by decide)

/-- CAL is the same whatever status and lasting faults show. -/
theorem State.LtxInCal.of_clearLastings {s : State} {n : Nat} (h : s.LtxInCal n) {srcs : List Nat} {inst : Nat} :
    (s.clearLastings srcs inst).LtxInCal n := by
  have hkept {f : Field} (hb : f.desc.block ≠ .hlt) := s.rd_clearLastings srcs inst n 0 hb
  exact ⟨(hkept (by decide)).trans h.state, (hkept (by decide)).trans h.cause, (hkept (by decide)).trans h.disarmed,
    (hkept (by decide)).trans h.dacOn⟩

/-- A direction in CAL stays there and shows what it waits for. -/
theorem State.LtxInCal.recheck_eq {s : State} {n : Nat} (h : s.LtxInCal n) : s.ltxRecheck n = s.ltxShowWait n :=
  State.ltxRecheck_of_stays fun _ hoff => absurd (h.state.symm.trans hoff) (by decide)

theorem State.LtxInCal.recheck {s : State} {n : Nat} (h : s.LtxInCal n) : (s.ltxRecheck n).LtxInCal n := by
  rw [h.recheck_eq]
  have hkept {f : Field} (hf : f ∉ [Field.ltxIntStatus, .ltxTxenPending, .ltxHoldReason, .ltxTmoRun]) :=
    s.rd_ltxShowWait n n 0 hf
  exact ⟨(hkept (by decide)).trans h.state, (hkept (by decide)).trans h.cause, (hkept (by decide)).trans h.disarmed,
    (hkept (by decide)).trans h.dacOn⟩

section
variable {s : State} {n : Lane}

theorem exec_ltxRestart (hreach : s.reaches .ltx n) (hlane : s.underTest 1 n = false) (hdac : s.underTest 4 n = false) :
    exec (.ltxRestart n) s = .next (s.ltxRestartNow n) :=
  congrArg Host.Outcome.next ((State.access_of_reaches hreach _).trans (State.laneService_of_free hlane hdac _ _))

/-- RESTART in FAULT: CAL, with the lasting faults of the transmit sources cleared (R181, R413). -/
theorem ltxRestart_restarts (hreach : s.reaches .ltx n) (hlane : s.underTest 1 n = false) (hdac : s.underTest 4 n = false)
    (hstate : s.rd .ltxState n = 7) (hcause : s.rd .ltxFaultCause n ≠ 8) : ∃ t, exec (.ltxRestart n) s = .next t ∧
      t.LtxInCal n ∧ ([7, 8, 12, 13].all (fun k => !(t.rd .hltSrcLasting 0 k).testBit n)) = true := by
  have hcal := (s.ltxLeaveFault_inCal n).of_clearLastings (srcs := [7, 8, 12, 13]) (inst := n)
  refine ⟨_, (exec_ltxRestart hreach hlane hdac).trans (congrArg _ (if_pos ⟨hstate, hcause⟩)), hcal.recheck, ?_⟩
  refine List.all_eq_true.mpr fun k hk => ?_
  rw [hcal.recheck_eq, State.rd_ltxShowWait _ _ _ _ (by decide), State.clearLastings_clears _ _ _ k (Or.inl hk)]
  rfl

theorem ltxRestart_ignored (hreach : s.reaches .ltx n) (hlane : s.underTest 1 n = false) (hdac : s.underTest 4 n = false)
    (hout : s.rd .ltxState n ≠ 7 ∨ s.rd .ltxFaultCause n = 8) : exec (.ltxRestart n) s = .next s :=
  (exec_ltxRestart hreach hlane hdac).trans (congrArg _ (if_neg (by omega)))

/-- The DAC's power-down of the fault sequence (R178). -/
theorem txFaultDacOff_powers_down (hstate : s.rd .ltxState n = 7) (hrun : s.on .ltxDacOffRun n = true) :
    ∃ t, exec (.txFaultDacOff n) s = .next t ∧ t.rd .ltxDacOn n = 0 ∧ Changes s t n [.ltxDacOn, .ltxDacOffRun] :=
  ⟨_, congrArg Host.Outcome.next (if_pos ⟨hstate, hrun⟩), State.rd_puts_of_mem (by simp) (by simp) (by decide),
    (Changes.refl s n _).puts (by simp)⟩

theorem txFaultAutoRestart_restarts (hstate : s.rd .ltxState n = 7) (harm : s.on .ltxRestartArm n = true)
    (hauto : s.on .ltxAutoRestart n = true) : ∃ t, exec (.txFaultAutoRestart n) s = .next t ∧ t.LtxInCal n :=
  ⟨_, congrArg Host.Outcome.next (if_pos ⟨hstate, harm, hauto⟩), (s.ltxLeaveFault_inCal n).recheck⟩

end

/-- Settles O20: TX_EN and the steps of a disable lead to OFF, a driver fault to FAULT, and a restart to CAL. -/
theorem laneTransmitDisableAndFault : Obligations.LaneTransmitDisableAndFault := by
  unfold Obligations.LaneTransmitDisableAndFault
  refine ⟨?disable, ?faultOff, fun n s => txDisableMute_mutes, ?holdEnd, ?restart, fun n s => ltxRestart_ignored, ?drvFault,
    fun n s => txFaultDacOff_powers_down, ?autoRestart⟩
  case disable =>
    rintro n _ s hinv rfl hreach hstate hlaser hawake
    obtain ⟨t, ht, hen, hmoved, hkept, hdrv⟩ := txDisable_disables hlaser hreach hstate hawake
    have hone : s.rd .ltxLsrEn n = 1 := by
      have hlt : s.rd .ltxLsrEn n < 2 := hinv.rd_lt .ltxLsrEn n 0
      have hne : s.rd .ltxLsrEn n ≠ 0 := by simpa [State.on_eq] using hlaser
      omega
    exact ⟨t, ht, hen, hmoved, hkept.trans hone, hdrv⟩
  case faultOff =>
    rintro n _ s rfl hreach hstate
    obtain ⟨t, ht, hoff, hen, hcause⟩ := txDisable_leaves_fault hreach hstate
    exact ⟨t, ht, hen, hoff.state, hcause, hoff.drvEn, hoff.lsrEn⟩
  case holdEnd =>
    intro n s hstate hhold hen
    obtain ⟨t, ht, hoff, hpending⟩ := drvHoldExpiry_ends hstate hhold hen
    exact ⟨t, ht, hoff.state, hoff.drvEn, hoff.lsrEn, hoff.dacOn, hpending⟩
  case restart =>
    intro n s hreach hlane hdac hstate hcause
    obtain ⟨t, ht, hcal, hlasting⟩ := ltxRestart_restarts hreach hlane hdac hstate hcause
    exact ⟨t, ht, hcal.state, hcal.cause, hlasting⟩
  case drvFault =>
    intro n s hon hstate hquiet
    obtain ⟨t, ht, hfault, hcount, -, hcause⟩ := drvFault_faults hon (by omega) (by omega)
    exact ⟨t, ht, hcount, hfault.state, hcause hquiet, hfault.drvEn, hfault.lsrEn, hfault.muted, hfault.clamped⟩
  case autoRestart =>
    intro n s hstate harm hauto
    obtain ⟨t, ht, hcal⟩ := txFaultAutoRestart_restarts hstate harm hauto
    exact ⟨t, ht, hcal.state, hcal.cause, hcal.disarmed, hcal.dacOn⟩

end Sys2Proof.Machine

/-!
PROOFS. Two statements that fail: no host lane leaves OFF without an image (O31), and a fallback that trains a READY lane
again latches a CMIS flag (O32).
-/
namespace Sys2Proof.Machine

/-- In the no-image state no host lane leaves OFF (R60). -/
theorem State.hifStart_without_image {s : State} (h : Nat) (hstage : s.rd .glbBootStage = 9) : s.hifStart h = s :=
  if_neg fun ⟨_, _, _, _, _, _, hrun⟩ => hrun hstage

/-- A service request to a host lane whose island is under no test is carried out (R423). -/
theorem State.hostService_of_free {s : State} {h : Nat} (htest : s.underTest 2 (h / 4) = false) (r : SvcReq)
    (g : State → State) : s.hostService h r g = g s :=
  if_neg (by rw [htest]; decide)

/-- In the no-image state ENABLE written 1 is recorded and nothing else changes (R60, R251). -/
theorem exec_hifEnable_without_image {s : State} {h : HostLane} (hreach : s.reaches .hif h)
    (htest : s.underTest 2 (h / 4) = false) (hfree : s.on .hifHeldOff h = false) (hstage : s.rd .glbBootStage = 9) :
    exec (.hifEnable h) s = .next (s.wr .hifEnable 1 h) := by
  have hnow : s.hifEnableOn h = s.wr .hifEnable 1 h := by
    unfold State.hifEnableOn
    rw [hfree]
    exact State.hifStart_without_image _ ((s.rd_wr_field _ _ _ _ _ (by decide)).trans hstage)
  refine congrArg Host.Outcome.next ((State.access_of_reaches hreach _).trans ?_)
  rw [htest]
  exact (State.hostService_of_free htest _ _).trans hnow

/-- The no-image state with MGMT and host island 0 running; host lane 0, which the map gives to line lane 0, is in OFF
(R43, R60). -/
def withoutImage : State := State.reset.puts [(.pwrDomMgmt, 1), (.pwrDomHost, 1), (.glbBootStage, 9)]

/-- Refutes O31: ENABLE written 1 leaves host lane 0 of `withoutImage` in OFF, where the statement takes it to CAL and has no
premise that an image runs. -/
theorem not_hostLaneControl : ¬ Obligations.HostLaneControl := by
  unfold Obligations.HostLaneControl
  rintro ⟨-, henable, -⟩
  have hreach : withoutImage.reaches .hif (0 : HostLane) := by unfold State.reaches; decide +kernel
  have htest : withoutImage.underTest 2 ((0 : HostLane) / 4) = false := rfl
  have hfree : withoutImage.on .hifHeldOff (0 : HostLane) = false := by decide +kernel
  obtain ⟨t, ht, -, hcal, -⟩ := henable 0 0 withoutImage hreach htest hfree (by decide +kernel) (by decide +kernel)
    (by decide +kernel) (by decide +kernel) (by decide +kernel)
  have hkept := exec_hifEnable_without_image hreach htest hfree (by decide +kernel)
  obtain rfl : t = withoutImage.wr .hifEnable 1 (0 : HostLane) := Host.Outcome.next.inj (ht.symm.trans hkept)
  exact absurd hcal (by decide +kernel)

/-- An image whose one port group is line lane 0 with 400GbE and permits Extended Host Mode (R66). -/
def extendedImage : Image :=
  ⟨true, 4, 0, 0x3208, 0, 0, 1, 1, true, [], 0, 0, 0, 0, [(0, .portGroup 0 1 0 1 7 1)], [], 0, [], []⟩

/-- The group of line lane 0 is in extended training, and its enabled host lane 0, which a restart from FAULT took past TRAIN,
is READY and awake (R254, R264). -/
def readyInExtendedTraining : State :=
  { State.reset.puts [(.hifGlbEhmState, 2), (.hifGlbMapGbMode, 1), (.hifEnable, 1), (.hifRate, 1), (.hifState, 4),
      (.hifRxReady, 1), (.hifTxReady, 1)] with running := some extendedImage }

/-- The fallback takes host lane 0 from READY back to TRAIN, and its CMIS flag for the loss of the host's signal latches
(R264, R445). -/
theorem ehmTrainTimeout_latches_flag : ∃ t, exec (.ehmTrainTimeout 0) readyInExtendedTraining = .next t ∧
    t.rd .hifState = 2 ∧ t.rd .cmisFlag 0 CmisFlag.hostTxLos.ctorIdx = 1 :=
  ⟨_, rfl, by decide +kernel, by decide +kernel⟩

/-- Refutes O32: the end of extended training in `readyInExtendedTraining` latches a CMIS flag, a field of the management
block, where the statement lets only the host blocks and the event FIFO differ. -/
theorem not_hostTraining : ¬ Obligations.HostTraining := by
  unfold Obligations.HostTraining
  rintro ⟨-, -, -, -, -, -, -, -, -, -, -, -, -, htimeout, -⟩
  obtain ⟨t, ht, -, -, -, hframe⟩ := htimeout 0 readyInExtendedTraining (by decide +kernel)
  obtain ⟨u, hu, -, hflag⟩ := ehmTrainTimeout_latches_flag
  obtain rfl : t = u := Host.Outcome.next.inj (ht.symm.trans hu)
  exact absurd (hflag.symm.trans (hframe.read .cmisFlag 0 CmisFlag.hostTxLos.ctorIdx (by decide))) (by decide +kernel)

end Sys2Proof.Machine

/-!
PROOFS. Initiations, regions and echoes of an exchange (O36).
-/
namespace Sys2Proof.Machine

/-! ## The exchange of a lane after an operation -/

@[simp] theorem State.ex_wr (s : State) (f : Field) (v n i m : Nat) : (s.wr f v n i).ex m = s.ex m := rfl

@[simp] theorem State.ex_bump (s : State) (f : Field) (n i k m : Nat) : (s.bump f n i k).ex m = s.ex m := rfl

@[simp] theorem State.rd_setEx (s : State) (n : Nat) (x : LinkExchange) (f : Field) (m i : Nat) :
    (s.setEx n x).rd f m i = s.rd f m i := rfl

theorem State.ex_puts (s : State) (l : List (Field × Nat)) (n m : Nat) : (s.puts l n).ex m = s.ex m := by
  rw [State.puts_regs]
  rfl

theorem State.ex_setEx {s : State} {n : Nat} (h : n < s.exch.length) (x : LinkExchange) : (s.setEx n x).ex n = x := by
  simp [State.ex, State.setEx, h]

/-- A part that the new exchange of a lane has in common with the old one stays, whether or not the device has the
lane. -/
theorem State.ex_setEx_part {α : Type} (part : LinkExchange → α) {s : State} {n : Nat} {x : LinkExchange}
    (h : part x = part (s.ex n)) : part ((s.setEx n x).ex n) = part (s.ex n) := by
  by_cases hn : n < s.exch.length
  · rw [State.ex_setEx hn, h]
  · simp [State.ex, State.setEx, hn]

theorem State.setEx_setEx (s : State) (n : Nat) (x y : LinkExchange) : (s.setEx n x).setEx n y = s.setEx n y := by
  simp [State.setEx]

/-- Each of the eight lanes has its exchange. -/
theorem State.lane_lt_exch {s : State} (h : s.exch.length = 8) (n : Lane) : n.val < s.exch.length := by omega

theorem State.ex_exchClear {s : State} {n : Nat} (h : n < s.exch.length) :
    (s.exchClear n).ex n = { s.ex n with hist := [], acc := [], rejects := 0 } :=
  State.ex_setEx h _

theorem State.rd_exchClear (s : State) (n : Nat) {f : Field} (m i : Nat) (hf : f ≠ .timLnStale) :
    (s.exchClear n).rd f m i = s.rd f m i :=
  State.rd_wr_field _ _ _ _ _ _ hf

/-! ## The region of a frame (R299, R300) -/

theorem State.ex_outRegion (s : State) (n m : Nat) : (s.outRegion n).ex m = s.ex m := by
  unfold State.outRegion
  rw [State.ex_wr]

theorem State.rd_outRegion (s : State) (n : Nat) {f : Field} (m i : Nat) (hf : f ≠ .lfrOutFrame) :
    (s.outRegion n).rd f m i = s.rd f m i :=
  State.rd_wr_field _ _ _ _ _ _ hf

/-- A lane's exchange and its region as a frame leaves them, the region counted where it is late. -/
def State.sendRegion (s : State) (n : Nat) (x : LinkExchange) (region : Nat) (late : Bool) : State :=
  ((s.setEx n x).puts [(.timLnRegion, region), (.timLnTxFresh, 0)] n).when late
    (fun t => t.bump .timLnRegionLateCnt n)

/-- An initiation that is due enters a region that is not late and whose marker left a timestamp. -/
def State.initiates (s : State) (n : Nat) (late : Bool) : Bool :=
  !(late || !s.on .timLnTxFresh n) && (s.ex n).due

/-- The first byte of a region is the version, bit 8 says whether an initiation enters it. One that does takes the next
sequence number and waits for its echo. -/
theorem State.regionV2_sends (s : State) (n : Nat) (late : Bool) : ∃ x region,
    s.regionV2 n late = s.sendRegion n x region (late || !s.on .timLnTxFresh n) ∧
    region % 2 ^ 9 = 2 + 256 * bit (s.initiates n late) ∧
    (s.initiates n late = false → x.seq = (s.ex n).seq ∧ x.out = (s.ex n).out) ∧
    (s.initiates n late = true → (s.ex n).echo = none → x.seq = ((s.ex n).seq + 1) % 65536 ∧ x.due = false ∧
      x.out = (s.ex n).out ++ [⟨((s.ex n).seq + 1) % 65536, some (unpackTime (s.rd .timLnTsLtx n)),
        s.on .timLnSusTx n, (s.ex n).disc || s.on .timLnDiscTx n⟩]) := by
  refine ⟨_, _, rfl, ?bits, ?kept, ?entered⟩
  case bits =>
    have hbit : bit (s.initiates n late) ≤ 1 := by cases s.initiates n late <;> decide
    unfold State.initiates at hbit ⊢
    omega
  case kept =>
    intro hinit
    unfold State.initiates at hinit
    simp only [hinit, Bool.false_eq_true, if_false, and_self]
  case entered =>
    intro hinit hecho
    unfold State.initiates at hinit
    simp only [hinit, hecho, if_true, Option.filter_none, ite_self, Option.map_none, Option.getD_none, Bool.or_false,
      Bool.not_true, Bool.and_false, Bool.false_and, and_self]

section
variable (s : State) (n : Nat) (x : LinkExchange) (region : Nat)

theorem State.ex_sendRegion (late : Bool) : (s.sendRegion n x region late).ex n = (s.setEx n x).ex n := by
  unfold State.sendRegion
  cases late
  · exact State.ex_puts _ _ _ _
  · exact (State.ex_bump _ _ _ _ _ _).trans (State.ex_puts _ _ _ _)

/-- A region of 384 bits keeps its low bits. -/
theorem State.sendRegion_region (late : Bool) :
    (s.sendRegion n x region late).rd .timLnRegion n % 2 ^ 9 = region % 2 ^ 9 := by
  have hput : ((s.setEx n x).puts [(.timLnRegion, region), (.timLnTxFresh, 0)] n).rd .timLnRegion n =
      region % 2 ^ Field.width .timLnRegion :=
    (State.rd_wr_field _ _ _ _ _ _ (by decide)).trans (State.rd_wr_self _ _ _ _ _)
  have hlow : region % 2 ^ Field.width .timLnRegion % 2 ^ 9 = region % 2 ^ 9 :=
    Nat.mod_mod_of_dvd _ (Nat.pow_dvd_pow 2 (by decide))
  unfold State.sendRegion
  cases late
  · rw [State.when_false, hput, hlow]
  · rw [State.when_true, State.bump, State.rd_wr_field _ _ _ _ _ _ (by decide), hput, hlow]

theorem State.sendRegion_late : (s.sendRegion n x region true).rd .timLnRegionLateCnt n =
    min (s.rd .timLnRegionLateCnt n + 1) (2 ^ Field.width .timLnRegionLateCnt - 1) := by
  refine (State.rd_bump_self _ _ _ _ _).trans ?_
  rw [State.rd_puts_other _ _ _ _ _ _ (Or.inl (by simp)), State.rd_setEx]

end

section
variable {s : State} {n : Lane} (late : Bool)

/-- In OFF and WAIT, and in version 1, no region is written (R300, R304, R305). -/
theorem exec_icrisRegionWrite_idle (h : s.xState n < 2 ∨ s.icrisVer n ≠ 2) :
    exec (.icrisRegionWrite n late) s = .next s :=
  congrArg Host.Outcome.next (if_neg fun ⟨_, hstate, hver⟩ => h.elim (fun hlow => by omega) (fun hne => hne hver))

variable (htime : s.on .pwrDomTime = true) (hstate : 2 ≤ s.xState n) (hver : s.icrisVer n = 2)
include htime hstate hver

/-- A stopped LANEn takes nothing over S-TL: the region is counted late (R332). -/
theorem exec_icrisRegionWrite_stopped (hrun : s.maskBit .glbLaneRun n = false) :
    exec (.icrisRegionWrite n late) s = .next (s.bump .timLnRegionLateCnt n) :=
  congrArg Host.Outcome.next ((if_pos ⟨htime, hstate, hver⟩).trans (if_pos (by rw [hrun]; rfl)))

theorem exec_icrisRegionWrite_running (hrun : s.maskBit .glbLaneRun n = true) :
    exec (.icrisRegionWrite n late) s = .next ((s.regionV2 n late).outRegion n) :=
  congrArg Host.Outcome.next ((if_pos ⟨htime, hstate, hver⟩).trans (if_neg (by rw [hrun]; decide)))

end

/-! ## An echo that answers the one initiation in flight (R301 to R304) -/

/-- The exchange of a lane whose echo has come for its one initiation. -/
def State.takeEcho (s : State) (n : Nat) : State := s.setEx n { s.ex n with got := none, out := [] }

theorem State.ex_takeEcho {s : State} {n : Nat} (h : n < s.exch.length) :
    (s.takeEcho n).ex n = { s.ex n with got := none, out := [] } :=
  State.ex_setEx h _

theorem State.takeEcho_exch_length (s : State) (n : Nat) : (s.takeEcho n).exch.length = s.exch.length :=
  List.length_set

theorem State.takeEcho_onlyIn (s : State) (n : Nat) (l : List Block) : OnlyIn l s (s.takeEcho n) :=
  State.setEx_onlyIn (OnlyIn.refl l s)

theorem exec_echoReceived (n : Lane) (s : State) : exec (.echoReceived n) s = execEchoReceived n s := rfl

/-- With no echo received nothing happens. -/
theorem exec_echoReceived_none {s : State} {n : Lane} (hgot : (s.ex n).got = none) :
    exec (.echoReceived n) s = .next s := by
  rw [exec_echoReceived]
  unfold execEchoReceived
  rw [hgot]

section
variable {s : State} {n : Lane} {e : EchoIn} (hgot : (s.ex n).got = some e)
include hgot

/-- An echo that answers no initiation is dropped. -/
theorem exec_echoReceived_unknown (hout : (s.ex n).out = []) :
    exec (.echoReceived n) s = .next (s.setEx n { s.ex n with got := none }) := by
  rw [exec_echoReceived]
  unfold execEchoReceived
  simp only [hgot, hout, List.find?_nil]

/-- An echo that answers the one initiation in flight is rejected, excluded or joins the exchange. -/
theorem exec_echoReceived_answer {d : Nat} {sus disc : Bool} (hout : (s.ex n).out = [⟨e.seq, some d, sus, disc⟩]) :
    exec (.echoReceived n) s = .next
      (if disc || e.disc then ((s.takeEcho n).exchClear n).bump .timLnExchRejectCnt n
      else if sus || e.suspect then ((s.takeEcho n).wr .timLnSuspect 1 n).bump .timLnExchSuspectCnt n
      else ((s.takeEcho n).wr .timLnSuspect 0 n).exchange n d e (s.icrisVer n = 1)) := by
  rw [exec_echoReceived]
  unfold execEchoReceived
  simp only [hgot, hout, State.setEx_setEx, List.find?_cons, List.filter_cons, List.filter_nil, decide_true, ne_eq,
    not_true_eq_false, decide_false, Bool.false_eq_true, if_false]
  rfl

end

/-- The first exchange of version 2 begins the rate ratio, which 16 must establish, and names the partner (R302,
R309). -/
theorem State.exchange_first {s : State} {n : Nat} (hver : s.icrisVer n = 2) (hhist : (s.ex n).hist = []) (t1 : Nat)
    (e : EchoIn) : s.exchange n t1 e false =
      s.setEx n { s.ex n with hist := [(t1, e.t2)], partner := some e.device } := by
  have hspan : s.ratioSpan n = 16 := if_neg (by omega)
  unfold State.exchange
  simp only [hspan, hhist]
  exact if_pos (Or.inl (by simp))

section
variable {s : State} {n : Lane} {e : EchoIn} {d : Nat} (hgot : (s.ex n).got = some e) (hlen : s.exch.length = 8)
include hgot hlen

/-- After a discontinuity the average and the ratio clear, and a reject is counted (R303, R304). -/
theorem echoReceived_rejects (hout : (s.ex n).out = [⟨e.seq, some d, false, true⟩]) :
    ∃ t, exec (.echoReceived n) s = .next t ∧
      (t.ex n).out = [] ∧ (t.ex n).got = none ∧ (t.ex n).acc = [] ∧ (t.ex n).hist = [] ∧
      t.rd .timLnExchRejectCnt n = min (s.rd .timLnExchRejectCnt n + 1) (2 ^ Field.width .timLnExchRejectCnt - 1) ∧
      OnlyIn [.timLn] s t := by
  have htaken := State.ex_takeEcho (State.lane_lt_exch hlen n)
  have hlane : n.val < (s.takeEcho n).exch.length := State.lane_lt_exch ((s.takeEcho_exch_length n).trans hlen) n
  have hex : (((s.takeEcho n).exchClear n).bump .timLnExchRejectCnt n).ex n =
      { s.ex n with got := none, out := [], hist := [], acc := [], rejects := 0 } := by
    rw [State.ex_bump, State.ex_exchClear hlane, htaken]
  refine ⟨_, (exec_echoReceived_answer hgot hout).trans (congrArg _ (if_pos rfl)), ?out, ?got, ?acc, ?hist, ?count,
    ?frame⟩
  case frame =>
    exact State.bump_onlyIn (State.exchClear_onlyIn (s.takeEcho_onlyIn n _) (by decide)) (by decide)
  case count =>
    rw [State.rd_bump_self, State.rd_exchClear _ _ _ _ (by decide)]
    rfl
  all_goals rw [hex]

/-- An echo with a suspect time is excluded and counted, and SUSPECT shows it (R303, R316). -/
theorem echoReceived_excludes (hout : (s.ex n).out = [⟨e.seq, some d, false, false⟩]) (hdisc : e.disc = false)
    (hsus : e.suspect = true) : ∃ t, exec (.echoReceived n) s = .next t ∧
      (t.ex n).out = [] ∧ (t.ex n).got = none ∧ (t.ex n).acc = (s.ex n).acc ∧ (t.ex n).hist = (s.ex n).hist ∧
      t.rd .timLnSuspect n = 1 ∧
      t.rd .timLnExchSuspectCnt n = min (s.rd .timLnExchSuspectCnt n + 1) (2 ^ Field.width .timLnExchSuspectCnt - 1) ∧
      OnlyIn [.timLn] s t := by
  have htaken := State.ex_takeEcho (State.lane_lt_exch hlen n)
  have hex : (((s.takeEcho n).wr .timLnSuspect 1 n).bump .timLnExchSuspectCnt n).ex n =
      { s.ex n with got := none, out := [] } := by
    rw [State.ex_bump, State.ex_wr, htaken]
  have hdrop : ¬ (false || e.disc) = true := by rw [hdisc]; decide
  refine ⟨_, (exec_echoReceived_answer hgot hout).trans (congrArg _ ((if_neg hdrop).trans (if_pos hsus))), ?out, ?got,
    ?acc, ?hist, ?suspect, ?count, ?frame⟩
  case suspect =>
    exact (State.rd_wr_field _ _ _ _ _ _ (by decide)).trans (State.rd_wr_fits _ _ _ _ _ (by decide))
  case count =>
    refine (State.rd_bump_self _ _ _ _ _).trans ?_
    rw [State.rd_wr_field _ _ _ _ _ _ (by decide)]
    rfl
  case frame => exact State.bump_onlyIn (State.wr_onlyIn (s.takeEcho_onlyIn n _) (by decide)) (by decide)
  all_goals rw [hex]

/-- A good first echo of version 2 joins the rate ratio and names its partner (R302, R309). -/
theorem echoReceived_joins (hout : (s.ex n).out = [⟨e.seq, some d, false, false⟩]) (hdisc : e.disc = false)
    (hsus : e.suspect = false) (hver : s.icrisVer n = 2) (hhist : (s.ex n).hist = []) :
    ∃ t, exec (.echoReceived n) s = .next t ∧
      (t.ex n).out = [] ∧ (t.ex n).got = none ∧ (t.ex n).hist = [(d, e.t2)] ∧ (t.ex n).partner = some e.device ∧
      t.rd .timLnSuspect n = 0 ∧ OnlyIn [.timLn] s t := by
  have htaken := State.ex_takeEcho (State.lane_lt_exch hlen n)
  have hsuspect : OnlyIn [.timLn] s ((s.takeEcho n).wr .timLnSuspect 0 n) :=
    State.wr_onlyIn (s.takeEcho_onlyIn n _) (by decide)
  have hver' : ((s.takeEcho n).wr .timLnSuspect 0 n).icrisVer n = 2 := by
    rw [← hver]
    unfold State.icrisVer
    simp (disch := decide) only [hsuspect.read]
  have hrun : exec (.echoReceived n) s = .next (((s.takeEcho n).wr .timLnSuspect 0 n).exchange n d e false) := by
    rw [exec_echoReceived_answer hgot hout, hdisc, hsus, hver]
    rfl
  have hjoin := State.exchange_first hver' (by rw [State.ex_wr, htaken]; exact hhist) d e
  have hlane : n.val < ((s.takeEcho n).wr .timLnSuspect 0 n).exch.length :=
    State.lane_lt_exch ((s.takeEcho_exch_length n).trans hlen) n
  have hex : (((s.takeEcho n).wr .timLnSuspect 0 n).exchange n d e false).ex n =
      { s.ex n with got := none, out := [], hist := [(d, e.t2)], partner := some e.device } := by
    rw [hjoin, State.ex_setEx hlane, State.ex_wr, htaken]
  refine ⟨_, hrun, ?out, ?got, ?hist, ?partner, ?suspect, ?frame⟩
  case suspect =>
    rw [hjoin, State.rd_setEx]
    exact State.rd_wr_fits _ _ _ _ _ (by decide)
  case frame =>
    rw [hjoin]
    exact State.setEx_onlyIn hsuspect
  all_goals rw [hex]

end

/-! ## The other commands of an exchange (R301, R304) -/

section
variable {s : State} {n : Lane}

theorem exec_icrisInitiate_due (hstate : 2 ≤ s.xState n) (hver : s.icrisVer n = 2) :
    exec (.icrisInitiate n) s = .next (s.setEx n { s.ex n with due := true }) :=
  congrArg Host.Outcome.next (if_pos ⟨hstate, hver⟩)

theorem exec_icrisInitiate_idle (hstate : s.xState n < 2) : exec (.icrisInitiate n) s = .next s :=
  congrArg Host.Outcome.next (if_neg fun ⟨hhigh, _⟩ => by omega)

theorem exec_initiationMiss_unknown (seq : BitVec 16) (hout : (s.ex n).out = []) :
    exec (.initiationMiss n seq) s = .next s :=
  congrArg Host.Outcome.next (if_neg (by rw [hout]; simp))

/-- The initiation leaves the list, and a miss is counted (R301). -/
theorem initiationMiss_drops {seq : BitVec 16} (hany : (s.ex n).out.any (fun i => i.seq = seq.toNat) = true)
    (hlen : s.exch.length = 8) : ∃ t, exec (.initiationMiss n seq) s = .next t ∧
      (t.ex n).out = (s.ex n).out.filter (fun i => i.seq ≠ seq.toNat) ∧
      t.rd .timLnExchMissCnt n = min (s.rd .timLnExchMissCnt n + 1) (2 ^ Field.width .timLnExchMissCnt - 1) ∧
      OnlyIn [.timLn] s t :=
  ⟨_, congrArg Host.Outcome.next (if_pos hany),
    congrArg LinkExchange.out (State.ex_setEx (State.lane_lt_exch hlen n) _),
    State.rd_bump_self _ _ _ _ _, State.bump_onlyIn (State.setEx_onlyIn (OnlyIn.refl _ s)) (by decide)⟩

/-- A result that ages in RUN is STALE (R304). -/
theorem exchStale_ages (hstate : s.xState n = 3) : ∃ t, exec (.exchStale n) s = .next t ∧
    t.rd .timLnStale n = 1 ∧ (t.rd .timIntStatus).testBit Irq.timExchStale = true ∧ OnlyIn [.tim, .timLn] s t :=
  ⟨_, congrArg Host.Outcome.next (if_pos hstate),
    (State.rd_wr_field _ _ _ _ _ _ (by decide)).trans (State.rd_wr_fits _ _ _ _ _ (by decide)),
    State.testBit_rd_raise _ _ _ _ (by decide),
    State.raise_onlyIn (State.wr_onlyIn (OnlyIn.refl _ s) (by decide)) (by decide)⟩

theorem exec_exchStale_other (hstate : s.xState n ≠ 3) : exec (.exchStale n) s = .next s :=
  congrArg Host.Outcome.next (if_neg hstate)

/-- RESTART_AVG clears the average, the ratio and STALE (R304). -/
theorem restartAvg_clears (hreach : s.reaches .timLn n) (hlen : s.exch.length = 8) :
    ∃ t, exec (.restartAvg n) s = .next t ∧ (t.ex n).acc = [] ∧ (t.ex n).hist = [] ∧ t.rd .timLnStale n = 0 ∧
      Changes { s with exch := t.exch } t n [.timLnStale] := by
  have hex := State.ex_exchClear (State.lane_lt_exch hlen n)
  exact ⟨_, congrArg Host.Outcome.next (State.access_of_reaches hreach _), congrArg LinkExchange.acc hex,
    congrArg LinkExchange.hist hex, State.rd_wr_fits _ _ _ _ _ (by decide), (Changes.refl _ n _).wr (by decide)⟩

end

section
variable {s : State} {n : Lane} (htime : s.on .pwrDomTime = true) (hstate : 2 ≤ s.xState n) (hver : s.icrisVer n = 2)
  (hrun : s.maskBit .glbLaneRun n = true)
include htime hstate hver hrun

/-- A late region goes out without an initiation (R300). -/
theorem icrisRegionWrite_late : ∃ t, exec (.icrisRegionWrite n true) s = .next t ∧
    t.rd .timLnRegionLateCnt n = min (s.rd .timLnRegionLateCnt n + 1) (2 ^ Field.width .timLnRegionLateCnt - 1) ∧
    (t.ex n).out = (s.ex n).out ∧ (t.ex n).seq = (s.ex n).seq ∧ t.rd .timLnRegion n % 256 = 2 ∧
    OnlyIn [.timLn, .lfr] s t := by
  have honly : OnlyIn [.timLn, .lfr] s ((s.regionV2 n true).outRegion n) :=
    State.outRegion_onlyIn (State.regionV2_onlyIn (OnlyIn.refl _ s) (by decide)) (by decide)
  obtain ⟨x, region, hsent, hfirst, hkept, -⟩ := s.regionV2_sends n true
  obtain ⟨hseq, hout⟩ := hkept rfl
  refine ⟨_, exec_icrisRegionWrite_running true htime hstate hver hrun, ?count, ?out, ?seq, ?version, honly⟩
  all_goals rw [hsent]
  case count => exact (State.rd_outRegion _ _ _ _ (by decide)).trans (s.sendRegion_late n x region)
  case out =>
    rw [State.ex_outRegion, State.ex_sendRegion]
    exact State.ex_setEx_part LinkExchange.out hout
  case seq =>
    rw [State.ex_outRegion, State.ex_sendRegion]
    exact State.ex_setEx_part LinkExchange.seq hseq
  case version =>
    have hlow := (s.sendRegion_region n x region (true || !s.on .timLnTxFresh n)).trans hfirst
    rw [State.rd_outRegion _ _ _ _ (by decide)]
    omega

/-- An initiation that is due enters the region and waits for its echo (R299, R301). -/
theorem icrisRegionWrite_initiates (hfresh : s.on .timLnTxFresh n = true) (hdue : (s.ex n).due = true)
    (hecho : (s.ex n).echo = none) (hlen : s.exch.length = 8) : ∃ t, exec (.icrisRegionWrite n false) s = .next t ∧
      (t.ex n).seq = ((s.ex n).seq + 1) % 65536 ∧ (t.ex n).due = false ∧
      (t.ex n).out = (s.ex n).out ++ [⟨((s.ex n).seq + 1) % 65536, some (unpackTime (s.rd .timLnTsLtx n)),
        s.on .timLnSusTx n, (s.ex n).disc || s.on .timLnDiscTx n⟩] ∧ (t.rd .timLnRegion n).testBit 8 = true := by
  have hinit : s.initiates n false = true := by simp [State.initiates, hfresh, hdue]
  obtain ⟨x, region, hsent, hbit, -, hnew⟩ := s.regionV2_sends n false
  obtain ⟨hseq, hended, hout⟩ := hnew hinit hecho
  refine ⟨_, exec_icrisRegionWrite_running false htime hstate hver hrun, ?seq, ?due, ?out, ?flag⟩
  all_goals rw [hsent]
  case flag =>
    have hlow := (s.sendRegion_region n x region (false || !s.on .timLnTxFresh n)).trans hbit
    rw [hinit, bit, if_pos rfl] at hlow
    rw [State.rd_outRegion _ _ _ _ (by decide), Nat.testBit_eq_decide_div_mod_eq, decide_eq_true_eq]
    omega
  all_goals rw [State.ex_outRegion, State.ex_sendRegion, State.ex_setEx (State.lane_lt_exch hlen n)]
  case seq => exact hseq
  case due => exact hended
  case out => exact hout

end

/-- Settles O36: each command of an exchange, by the state and the version of its lane and by the initiation that an
echo answers. -/
theorem icrisExchange : Obligations.IcrisExchange := by
  unfold Obligations.IcrisExchange
  refine ⟨fun n late s => exec_icrisRegionWrite_idle late, ?stopped, ?late, ?initiates, ?due,
    fun n s => exec_icrisInitiate_idle, fun n s => exec_echoReceived_none, ?unknownEcho,
    fun n e d s => echoReceived_rejects, fun n e d s => echoReceived_excludes, fun n e d s => echoReceived_joins,
    fun n seq s => initiationMiss_drops, fun n seq s => exec_initiationMiss_unknown seq,
    fun n s => exchStale_ages, fun n s => exec_exchStale_other, fun n s => restartAvg_clears⟩
  case stopped =>
    intro n late s htime hstate hver hrun
    exact ⟨_, exec_icrisRegionWrite_stopped late htime hstate hver hrun, State.rd_bump_self _ _ _ _ _, rfl,
      (Changes.refl s n _).wr (by decide)⟩
  case late =>
    rintro n late s htime hstate hver hrun rfl
    exact icrisRegionWrite_late htime hstate hver hrun
  case initiates =>
    rintro n late s htime hstate hver hrun rfl
    exact icrisRegionWrite_initiates htime hstate hver hrun
  case due => exact fun n s hstate hver => ⟨_, exec_icrisInitiate_due hstate hver, rfl⟩
  case unknownEcho => exact fun n e s hgot _ hout => ⟨_, exec_echoReceived_unknown hgot hout, rfl⟩

end Sys2Proof.Machine

/-!
PROOFS. Lock and calibration of the PLLs, and the loss and return of the reference clock (O38).
-/
namespace Sys2Proof.Machine

/-! ## Relations between the reads of two states -/

namespace SameReads

variable {l : List Field} {r s t : State}

theorem trans (h : SameReads l r s) (g : SameReads l s t) : SameReads l r t := fun f hf n i =>
  (g f hf n i).trans (h f hf n i)

theorem mono {k : List Field} (h : SameReads l r s) (hk : k ⊆ l) : SameReads k r s := fun f hf => h f (hk hf)

theorem raise {f : Field} {k n : Nat} (h : SameReads l r s) (hf : f ∉ l) : SameReads l r (s.raise f k n) := h.wr hf

theorem wr_congr {f : Field} {v n i : Nat} (h : SameReads l r s) : SameReads l (r.wr f v n i) (s.wr f v n i) :=
  fun g hg m j => by rw [State.rd_wr, State.rd_wr, h g hg]

theorem puts_congr {k : List (Field × Nat)} {n : Nat} (h : SameReads l r s) :
    SameReads l (r.puts k n) (s.puts k n) := by
  induction k generalizing r s with
  | nil => exact h
  | cons e k ih => exact ih h.wr_congr

/-- An operation that writes registers of the blocks `b` alone leaves the fields of other blocks. -/
theorem onlyIn {b : List Block} (h : SameReads l r s) (ht : OnlyIn b s t) (hl : ∀ f ∈ l, f.desc.block ∉ b) :
    SameReads l r t := fun f hf n i => (ht.read f n i (hl f hf)).trans (h f hf n i)

end SameReads

/-- Where one element of a list brings something about and no other one disturbs it, it holds at the end of the list. -/
theorem State.each_establishes {α : Type} {l : List α} {g : α → State → State} {a : α} {before after : State → Prop}
    (hl : l.Nodup) (ha : a ∈ l) (hbefore : ∀ b ≠ a, ∀ t, before t → before (g b t))
    (hact : ∀ t, before t → after (g a t)) (hafter : ∀ b ≠ a, ∀ t, after t → after (g b t)) {s : State}
    (h : before s) : after (s.each l g) := by
  have hrest {k : List α} (hk : a ∉ k) : ∀ {t : State}, after t → after (t.each k g) := by
    induction k with
    | nil => exact id
    | cons b k ih =>
      rw [List.mem_cons, not_or] at hk
      exact fun ht => ih hk.2 (hafter b (Ne.symm hk.1) _ ht)
  induction l generalizing s with
  | nil => exact absurd ha (by simp)
  | cons b l ih =>
    obtain ⟨hb, hl⟩ := List.nodup_cons.mp hl
    rcases List.mem_cons.mp ha with rfl | hmem
    · exact hrest hb (hact _ h)
    · exact ih hl hmem (hbefore b (by rintro rfl; exact hb hmem) _ h)

/-! ## What the clocks' users leave of the clocks (R320 to R330) -/

/-- The PLLs' states, gates, counts and requests, the flags of the reference, the supply warning and the actions of the
fault sources: nothing that happens in the blocks that a PLL serves writes them. -/
def clockFields : List Field :=
  [.pllState, .pllBand, .pllBandHeld, .pllLock, .pllCalRun, .pllCalPend, .pllReqPend, .pllQuietWin, .pllDeclared,
   .pllGated, .pllLolCnt, .pllCalCnt, .pllCalTime, .clkRefLost, .clkRefBad, .clkRefOk, .clkRefBack, .clkOutage,
   .clkRefGlitchCnt, .clkIntStatus, .clkCalReq, .clkAutoRelock, .pwrWarn, .hltAction]

section
variable {r s : State}

theorem State.refreshRun_clock (h : SameReads clockFields r s) : SameReads clockFields r s.refreshRun :=
  h.puts (by simp [clockFields])

theorem State.xbarFollow_clock (h : SameReads clockFields r s) : SameReads clockFields r s.xbarFollow :=
  State.refreshRun_clock (SameReads.wr (f := .clkXbarSrc) (h.when fun _ hu => hu) (by decide))

theorem State.emit_clock {ty obj : Nat} {payload : List Nat} (h : SameReads clockFields r s) :
    SameReads clockFields r (s.emit ty obj payload) :=
  h.onlyIn (State.emit_onlyIn (OnlyIn.refl [.evf] s) (by decide)) (by decide)

theorem State.capStop_clock {p : Nat} (h : SameReads clockFields r s) : SameReads clockFields r (s.capStop p) :=
  h.each fun _ _ hu => hu.wr (by decide)

/-- A move of a PLL writes its state. -/
theorem State.pllSet_clock (s : State) (p : Nat) {st : Nat} (hst : st < 8) :
    SameReads clockFields (s.wr .pllState st p) (s.pllSet p st) := by
  unfold State.pllSet
  split
  case isTrue h =>
    refine State.xbarFollow_clock fun f _ n i => ?_
    rw [State.rd_wr]
    split
    case isTrue hsame =>
      obtain ⟨rfl, rfl, rfl⟩ := hsame
      exact h.trans (Nat.mod_eq_of_lt hst).symm
    · rfl
  · exact State.xbarFollow_clock (State.emit_clock (SameReads.refl _ _))

/-- The gate of a PLL's outputs writes its mark. -/
theorem State.pllGate_clock (s : State) (p : Nat) : SameReads clockFields (s.wr .pllGated 1 p) (s.pllGate p) := by
  unfold State.pllGate
  extract_lets gated stopped
  have hstop : SameReads clockFields s (s.when (p == 4 && !s.on .pllGated 4) State.atcStop) :=
    (SameReads.refl _ s).when fun _ hu => hu.wr (by decide)
  have hgated : SameReads clockFields (s.wr .pllGated 1 p) gated := State.capStop_clock hstop.wr_congr
  refine State.xbarFollow_clock (hgated.when fun u hu => ?_)
  extract_lets emptied
  have hemptied : SameReads clockFields (s.wr .pllGated 1 p) emptied := (hu.wr (by decide)).each fun _ _ hv => hv
  exact hemptied.each fun _ _ hv => (hv.wr (by decide)).wr (by decide)

/-! ## What a loss of lock does to the served blocks (R326) -/

theorem sourceCmis_clock {src inst : Nat} (h : SameReads clockFields r s) :
    SameReads clockFields r (sourceCmis src inst s) :=
  h.onlyIn (sourceCmis_onlyIn (OnlyIn.refl [.mgt] s) (by decide)) (by decide)

theorem State.countEvent_clock {src inst k : Nat} (h : SameReads clockFields r s) :
    SameReads clockFields r (s.countEvent src inst k).1 := by
  unfold State.countEvent
  extract_lets t count u w action v x
  have ht : SameReads clockFields r t := h.bump (by decide)
  have hu : SameReads clockFields r u := by
    unfold u
    split
    · exact ht
    · exact (ht.wr (by decide)).wr (by decide)
  have hw : SameReads clockFields r w := hu.wr (by decide)
  split
  · exact ht
  split
  · exact sourceCmis_clock (State.emit_clock ((((hw.wr (by decide)).wr (by decide)).wr (by decide)).raise (by decide)))
  · exact hw

theorem State.clearLasting_clock {src inst : Nat} (h : SameReads clockFields r s) :
    SameReads clockFields r (s.clearLasting src inst) := by
  unfold State.clearLasting
  split
  · exact ((h.wr (by decide)).wr (by decide)).wr (by decide)
  · exact h

theorem State.adcStart_clock {n : Nat} {esc : Bool} (h : SameReads clockFields r s) :
    SameReads clockFields r (s.adcStart n esc) :=
  ((h.puts (by simp [clockFields])).puts (by simp [clockFields])).when fun _ hu =>
    (hu.bump (by decide)).raise (by decide)

theorem State.adcAdmit_clock (k : Nat) {r s : State} (h : SameReads clockFields r s) :
    SameReads clockFields r (s.adcAdmit k) := by
  induction k generalizing s with
  | zero => exact h
  | succ k ih =>
    unfold State.adcAdmit
    dsimp only
    split
    · split
      · exact ih (State.adcStart_clock h)
      · exact h
    · exact h

theorem State.sliceSwap_clock {n : Nat} (h : SameReads clockFields r s) : SameReads clockFields r (s.sliceSwap n) := by
  unfold State.sliceSwap
  extract_lets spare p old t u
  have ht : SameReads clockFields r t := ((h.wr (by decide)).wr (by decide)).wr (by decide)
  have hu : SameReads clockFields r u := (ht.wr (by decide)).puts (by simp [clockFields])
  exact State.adcAdmit_clock 1 ((hu.bump (by decide)).wr (by decide))

theorem State.rxBoundary_clock {n : Nat} (h : SameReads clockFields r s) :
    SameReads clockFields r (s.rxBoundary n) := by
  unfold State.rxBoundary
  extract_lets a b c d
  have ha : SameReads clockFields r a :=
    h.onlyIn (State.leqBoundary_onlyIn (OnlyIn.refl [.leq] s) (by decide)) (by decide)
  have hb : SameReads clockFields r b := ha.when fun u hu =>
    hu.onlyIn (State.lrxApply_onlyIn (OnlyIn.refl [.hltLn, .lrx] u) (by decide) (by decide)) (by decide)
  have hc : SameReads clockFields r c := hb.when fun _ hu => hu.puts (by simp [clockFields])
  have hd : SameReads clockFields r d := hc.when fun u hu => by
    split
    · exact hu
    · exact hu.onlyIn (State.trimApply_onlyIn (OnlyIn.refl [.lrx] u) (by decide)) (by decide)
  exact hd.when fun _ hu => State.sliceSwap_clock hu

theorem State.lrxToCal_clock {n : Nat} (h : SameReads clockFields r s) : SameReads clockFields r (s.lrxToCal n) := by
  unfold State.lrxToCal
  extract_lets left rated unlocked started
  have hleft : OnlyIn [.evf, .hifGlb, .hltLn, .leq, .lfr, .lrx, .mgt, .pwrLn, .timLn] s left :=
    State.straitFlush_onlyIn (State.lfrLatch_onlyIn (State.lrxSet_onlyIn (State.lrxAbandon_onlyIn (OnlyIn.refl _ s)
      (by decide) (by decide)) (by decide) (by decide) (by decide) (by decide) (by decide) (by decide) (by decide)
      (by decide)) (by decide))
  have hrated : SameReads clockFields r rated := (h.onlyIn hleft (by decide)).onlyIn
    (State.ratePut_onlyIn (OnlyIn.refl [.evf, .hifGlb, .hltLn, .leq, .lfr, .lrx, .mgt, .pwrLn, .timLn] left) (by decide)
      (by decide) (by decide) (by decide) (by decide) (by decide) (by decide) (by decide) (by decide)) (by decide)
  have hstarted : OnlyIn [.leq, .lfr, .lrx] rated started :=
    State.wr_onlyIn (State.wr_onlyIn (State.leqStart_onlyIn (State.wr_onlyIn (OnlyIn.refl _ rated) (by decide))
      (by decide)) (by decide)) (by decide)
  refine State.rxBoundary_clock (SameReads.onlyIn ?_ (State.leqFollow_onlyIn (OnlyIn.refl [.leq] _) (by decide))
    (by decide))
  exact (hrated.onlyIn hstarted (by decide)).puts (by simp [clockFields])

theorem State.hifToCal_clock {k : Nat} (h : SameReads clockFields r s) : SameReads clockFields r (s.hifToCal k) :=
  h.onlyIn (State.hifToCal_onlyIn (OnlyIn.refl [.evf, .hif, .hifGlb, .mgt] s) (by decide) (by decide) (by decide)
    (by decide)) (by decide)

theorem State.ltxRecheck_clock {n : Nat} (h : SameReads clockFields r s) : SameReads clockFields r (s.ltxRecheck n) :=
  h.onlyIn (State.ltxRecheck_onlyIn (OnlyIn.refl [.evf, .ltx, .pwrLn] s) (by decide) (by decide) (by decide))
    (by decide)

theorem State.ltxCutOff_clock {n cause : Nat} (h : SameReads clockFields r s) :
    SameReads clockFields r (s.ltxCutOff n cause) := by
  unfold State.ltxCutOff
  extract_lets dark clamped timed
  have hended : SameReads clockFields r (s.ltxAbandon n) :=
    h.onlyIn (State.ltxAbandon_onlyIn (OnlyIn.refl [.hltLn, .ltx] s) (by decide) (by decide)) (by decide)
  have hdark : SameReads clockFields r dark := ((hended.wr (by decide)).wr (by decide)).wr (by decide)
  have hclamped : SameReads clockFields r clamped :=
    ((hdark.onlyIn (State.optClamp_onlyIn (OnlyIn.refl [.optLn] dark) (by decide)) (by decide)).wr (by decide)).wr
      (by decide)
  have htimed : SameReads clockFields r timed := ((hclamped.wr (by decide)).wr (by decide)).wr (by decide)
  exact htimed.wr (by decide)

theorem State.ltxFaultEntry_clock {n cause : Nat} (h : SameReads clockFields r s) :
    SameReads clockFields r (s.ltxFaultEntry n cause) := by
  unfold State.ltxFaultEntry
  extract_lets moved counted
  have hmoved : SameReads clockFields r moved :=
    ((State.ltxCutOff_clock h).onlyIn (State.ltxSet_onlyIn_self _ n 7) (by decide)).raise (by decide)
  have hcounted : SameReads clockFields r counted := ((hmoved.bump (by decide)).wr (by decide)).wr (by decide)
  exact ((hcounted.wr (by decide)).wr (by decide)).onlyIn (State.cmis_onlyIn (OnlyIn.refl [.mgt] _) (by decide))
    (by decide)

theorem State.ltxFault_clock {n cause : Nat} (h : SameReads clockFields r s) :
    SameReads clockFields r (s.ltxFault n cause) := by
  by_cases hfault : s.rd .ltxState n = 7
  · unfold State.ltxFault
    rw [if_pos hfault]
    extract_lets counted
    have hcounted : SameReads clockFields r counted := h.bump (by decide)
    split
    · exact (hcounted.wr (by decide)).wr (by decide)
    · exact hcounted
  · have hcount := State.countEvent_clock (src := 8) (inst := n) (k := 1)
      (State.ltxFaultEntry_clock (n := n) (cause := cause) h)
    rw [State.ltxFault_enters hfault]
    split
    · exact (hcount.wr (by decide)).wr (by decide)
    · exact hcount

/-- What a loss of lock or a calibration does to the served blocks leaves the clocks as they are. -/
theorem State.pllEffects_clock {p : Nat} {lol : Bool} (h : SameReads clockFields r s) :
    SameReads clockFields r (s.pllEffects p lol) := by
  unfold State.pllEffects
  extract_lets stopped toCal restarted cut
  have htoCal (n : Nat) (t : State) (ht : SameReads clockFields r t) : SameReads clockFields r (toCal n t) :=
    ht.when fun _ hu => State.lrxToCal_clock hu
  have hstopped : SameReads clockFields r stopped := State.capStop_clock h
  have hrestarted : SameReads clockFields r restarted := by
    unfold restarted
    split
    · exact hstopped.each htoCal
    · exact hstopped.each htoCal
  have hcut : SameReads clockFields r cut := hrestarted.each fun n t ht => by
    extract_lets st faulted voided
    have hfaulted : SameReads clockFields r faulted := SameReads.wr (f := .ltxCalWait)
      (ht.when fun _ hu => State.ltxFault_clock hu) (by decide)
    exact State.ltxRecheck_clock (hfaulted.when fun _ hu => hu.puts (by simp [clockFields]))
  exact hcut.each fun _ _ ht => ht.when fun _ hu => State.hifToCal_clock hu

/-- The requests that a calibration serves leave the clocks as they are. -/
theorem State.pllServed_clock {p : Nat} (h : SameReads clockFields r s) : SameReads clockFields r (s.pllServed p) :=
  h.when fun _ hu => State.clearLasting_clock (hu.wr (by decide))

end

/-! ## The moves of a PLL in the fields of the clocks (R322 to R329) -/

/-- A loss of lock on record: counted, LOCK 0, the status bit set (R326). -/
def State.lolMark (s : State) (p : Nat) : State :=
  ((s.bump .pllLolCnt p).wr .pllLock 0 p).raise .clkIntStatus (Irq.clkPllLol + p)

/-- A running calibration, which takes over the request that waits for the supply (R322, R330). -/
def State.calMark (s : State) (p : Nat) : State :=
  let s := s.when (s.maskBit .clkCalReq p) (fun t => (t.setMask .clkCalReq p false).wr .pllReqPend 1 p)
  ((s.puts [(.pllCalRun, if s.refOut then 2 else 1), (.pllCalPend, 0), (.pllLock, 0), (.pllQuietWin, 0),
    (.pllDeclared, 0), (.pllBandHeld, 0)] p).wr .pllState 1 p).wr .pllGated 1 p

/-- A locked PLL with its outputs running (R324, R326). -/
def State.lockMark (s : State) (p : Nat) : State :=
  (s.puts [(.pllLock, 1), (.pllGated, 0), (.pllDeclared, 0)] p).wr .pllState 2 p

/-- The outputs gated, LOCKED left for a calibration or, with AUTO_RELOCK 0, FAILED, and the loss on record (R326). -/
def State.unlockMark (s : State) (p : Nat) : State :=
  ((s.wr .pllGated 1 p).wr .pllState (if s.maskBit .clkAutoRelock p then 1 else 5) p).lolMark p

/-- A PLL in LOCKED loses lock (R326). -/
def State.pllUnlock (s : State) (p : Nat) : State :=
  let s := s.pllGate p
  (s.pllSet p (if s.maskBit .clkAutoRelock p then 1 else 5)).pllLol p

section
variable {r s : State} {p : Nat}

theorem SameReads.lolMark_congr (h : SameReads clockFields r s) :
    SameReads clockFields (r.lolMark p) (s.lolMark p) := by
  have hcount : SameReads clockFields ((r.bump .pllLolCnt p).wr .pllLock 0 p)
      ((s.bump .pllLolCnt p).wr .pllLock 0 p) := by
    unfold State.bump
    rw [h .pllLolCnt (by decide)]
    exact h.wr_congr.wr_congr
  unfold State.lolMark State.raise
  rw [hcount .clkIntStatus (by decide)]
  exact hcount.wr_congr

theorem State.lolMark_action (s : State) (p i : Nat) : (s.lolMark p).rd .hltAction 0 i = s.rd .hltAction 0 i := by
  unfold State.lolMark
  simp (disch := decide) only [State.raise, State.bump, State.rd_wr_field]

/-- Where the window of losses has no object action, a loss of lock is put on record and nothing more of the clocks
changes (R326, R411). -/
theorem State.pllLol_clock (hquiet : s.rd .hltAction 0 11 ≤ 1) : SameReads clockFields (s.lolMark p) (s.pllLol p) := by
  have heffects : SameReads clockFields (s.lolMark p) ((s.lolMark p).pllEffects p true) :=
    State.pllEffects_clock (SameReads.refl _ _)
  have hstill : ((s.lolMark p).pllEffects p true).rd .hltAction 0 11 ≤ 1 := by
    rwa [heffects .hltAction (by decide), State.lolMark_action]
  have hcount : s.pllLol p = (((s.lolMark p).pllEffects p true).countEvent 11 p).1 :=
    State.faultEvent_without_action _ _ _ _ hstill
  rw [hcount]
  exact State.countEvent_clock heffects

theorem State.pllUnlock_clock (hquiet : s.rd .hltAction 0 11 ≤ 1) :
    SameReads clockFields (s.unlockMark p) (s.pllUnlock p) := by
  have hgate := s.pllGate_clock p
  have hmask : (s.pllGate p).maskBit .clkAutoRelock p = s.maskBit .clkAutoRelock p := by
    unfold State.maskBit
    rw [hgate .clkAutoRelock (by decide), State.rd_wr_field _ _ _ _ _ _ (by decide)]
  have hset : SameReads clockFields ((s.wr .pllGated 1 p).wr .pllState (if s.maskBit .clkAutoRelock p then 1 else 5) p)
      ((s.pllGate p).pllSet p (if s.maskBit .clkAutoRelock p then 1 else 5)) :=
    hgate.wr_congr.trans (State.pllSet_clock _ _ (by split <;> decide))
  unfold State.pllUnlock
  extract_lets gated
  rw [hmask]
  refine hset.lolMark_congr.trans (State.pllLol_clock ?_)
  rwa [hset .hltAction (by decide), State.rd_wr_field _ _ _ _ _ _ (by decide),
    State.rd_wr_field _ _ _ _ _ _ (by decide)]

theorem State.pllCalStart_clock (s : State) (p : Nat) : SameReads clockFields (s.calMark p) (s.pllCalStart p) :=
  (State.pllSet_clock _ p (by decide)).wr_congr.trans (State.pllGate_clock _ p)

theorem State.pllLockedNow_clock (s : State) (p : Nat) : SameReads clockFields (s.lockMark p) (s.pllLockedNow p) := by
  unfold State.pllLockedNow
  extract_lets resumed moved primary
  have hresumed : SameReads clockFields s resumed := (SameReads.refl _ s).when fun u hu => by
    have hrun : SameReads clockFields s u.atcRun := by
      unfold State.atcRun
      split
      · exact hu.wr (by decide)
      · exact hu
    exact hrun
  have hmoved : SameReads clockFields (s.lockMark p) moved :=
    hresumed.puts_congr.wr_congr.trans (State.pllSet_clock _ p (by decide))
  have hprimary : SameReads clockFields (s.lockMark p) primary := hmoved.when fun _ hu => hu.wr (by decide)
  exact (State.xbarFollow_clock hprimary).each fun _ _ hu => State.ltxRecheck_clock hu

end

/-! ## What the moves leave to be read -/

section
variable (s : State) (p : Nat)

theorem State.rd_lolMark {f : Field} (m i : Nat) (hf : f ∉ [Field.pllLolCnt, .pllLock, .clkIntStatus]) :
    (s.lolMark p).rd f m i = s.rd f m i := by
  simp only [List.mem_cons, List.not_mem_nil, or_false, not_or] at hf
  obtain ⟨hcount, hlock, hstatus⟩ := hf
  exact (State.rd_wr_field _ _ _ _ _ _ hstatus).trans ((State.rd_wr_field _ _ _ _ _ _ hlock).trans
    (State.rd_wr_field _ _ _ _ _ _ hcount))

theorem State.lolMark_count : (s.lolMark p).rd .pllLolCnt p =
    min (s.rd .pllLolCnt p + 1) (2 ^ Field.width .pllLolCnt - 1) := by
  refine (State.rd_wr_field _ _ _ _ _ _ (by decide)).trans ((State.rd_wr_field _ _ _ _ _ _ (by decide)).trans ?_)
  exact State.rd_bump_self _ _ _ _ _

theorem State.lolMark_lock : (s.lolMark p).rd .pllLock p = 0 :=
  (State.rd_wr_field _ _ _ _ _ _ (by decide)).trans (State.rd_wr_fits _ _ _ _ _ (by decide))

theorem State.lolMark_lock_other {q : Nat} (hq : q ≠ p) : (s.lolMark p).rd .pllLock q = s.rd .pllLock q :=
  (State.rd_wr_field _ _ _ _ _ _ (by decide)).trans ((State.rd_wr_inst _ _ _ _ hq).trans
    (State.rd_wr_field _ _ _ _ _ _ (by decide)))

theorem State.lolMark_flag {p : Nat} (hp : p < 5) :
    ((s.lolMark p).rd .clkIntStatus).testBit (Irq.clkPllLol + p) = true :=
  State.testBit_rd_raise _ _ _ _ (show Irq.clkPllLol + p < 13 by unfold Irq.clkPllLol; omega)

theorem State.lolMark_keeps_flag {j : Nat} (hj : j < Field.width .clkIntStatus)
    (h : (s.rd .clkIntStatus).testBit j = true) : ((s.lolMark p).rd .clkIntStatus).testBit j = true := by
  refine State.testBit_rd_raise_of_set _ _ _ _ _ hj ?_
  rwa [State.rd_wr_field _ _ _ _ _ _ (by decide), State.bump, State.rd_wr_field _ _ _ _ _ _ (by decide)]

end

/-- Two states in which the flags of the reference read the same have it present or not alike. -/
theorem State.refOut_congr {s t : State} (hlost : t.rd .clkRefLost = s.rd .clkRefLost)
    (hbad : t.rd .clkRefBad = s.rd .clkRefBad) : t.refOut = s.refOut := by
  simp only [State.refOut, State.on_eq, hlost, hbad]

/-- PLL `p` has begun a calibration, for which it counts no loss (R322, R323). -/
structure State.PllCalibrates (s t : State) (p : Nat) : Prop where
  state : t.rd .pllState p = 1
  lock : t.rd .pllLock p = 0
  gated : t.rd .pllGated p = 1
  run : t.rd .pllCalRun p = if s.refOut = true then 2 else 1
  pend : t.rd .pllCalPend p = 0
  losses : t.rd .pllLolCnt p = s.rd .pllLolCnt p
  status : t.rd .clkIntStatus = s.rd .clkIntStatus

theorem State.calMark_calibrates (s : State) (p : Nat) : s.PllCalibrates (s.calMark p) p := by
  have hserved : SameReads [.clkRefLost, .clkRefBad, .pllLolCnt, .clkIntStatus] s
      (s.when (s.maskBit .clkCalReq p) (fun t => (t.setMask .clkCalReq p false).wr .pllReqPend 1 p)) :=
    (SameReads.refl _ s).when fun _ hu =>
      SameReads.wr (f := .pllReqPend) (SameReads.wr (f := .clkCalReq) hu (by decide)) (by decide)
  have hout := State.refOut_congr (hserved .clkRefLost (by decide) 0 0) (hserved .clkRefBad (by decide) 0 0)
  constructor
  all_goals
    unfold State.calMark
    simp (disch := decide) only [State.puts_cons, State.puts_nil, State.rd_wr_field, State.rd_wr_self, hout]
  case losses => exact hserved _ (by decide) _ _
  case status => exact hserved _ (by decide) _ _
  case run => split <;> rfl
  all_goals rfl

theorem State.PllCalibrates.of_clock {s u t : State} {p : Nat} (h : s.PllCalibrates u p)
    (hu : SameReads clockFields u t) : s.PllCalibrates t p :=
  ⟨(hu _ (by decide) _ _).trans h.state, (hu _ (by decide) _ _).trans h.lock, (hu _ (by decide) _ _).trans h.gated,
    (hu _ (by decide) _ _).trans h.run, (hu _ (by decide) _ _).trans h.pend, (hu _ (by decide) _ _).trans h.losses,
    (hu _ (by decide) _ _).trans h.status⟩

theorem State.pllCalStart_calibrates (s : State) (p : Nat) : s.PllCalibrates (s.pllCalStart p) p :=
  (s.calMark_calibrates p).of_clock (s.pllCalStart_clock p)

/-! ## A lock window (R324, R326) -/

/-- The frequency error of a window on record. -/
def State.windowMark (s : State) (p : Nat) (errPpm : Int) : State :=
  s.wrInt .pllLockErrPpm (clampInt (-128) 127 errPpm) p

/-- A frequency error within the range of its register reads as it was measured. -/
theorem State.rdInt_windowMark (s : State) (p : Nat) {errPpm : Int} (hlow : -128 ≤ errPpm) (hhigh : errPpm < 128) :
    (s.windowMark p errPpm).rdInt .pllLockErrPpm p = errPpm := by
  have hclamp : clampInt (-128) 127 errPpm = errPpm := by
    unfold clampInt
    rw [if_neg (by omega), if_neg (by omega)]
  have hsigned : signedOf 8 (ofSigned 8 errPpm % 2 ^ 8) = errPpm := by
    unfold signedOf ofSigned
    split <;> omega
  unfold State.rdInt State.windowMark State.wrInt
  rw [State.rd_wr_self, hclamp]
  exact hsigned

section
variable {s : State} {p : Fin 5} {errPpm : Int} {phaseOk slip : Bool}

theorem exec_pllLockWindow_idle
    (h : s.refOut = true ∨ s.rd .pllState p = 0 ∨ s.rd .pllState p = 5 ∨ s.rd .pllState p = 3) :
    exec (.pllLockWindow p errPpm phaseOk slip) s = .next s :=
  congrArg Host.Outcome.next (if_pos h)

theorem exec_pllLockWindow_locked (hpresent : s.refOut = false) (hstate : s.rd .pllState p = 2) :
    exec (.pllLockWindow p errPpm phaseOk slip) s = .next (
      if 100 < errPpm.natAbs ∨ slip = true then
        let t := (s.windowMark p errPpm).pllUnlock p
        if t.rd .pllState p = 5 ∨ (t.on .pllReqPend p = true ∧ t.pllTransmits p = true) then t else t.pllCalStart p
      else s.windowMark p errPpm) :=
  congrArg Host.Outcome.next ((if_neg (by rw [hpresent, hstate]; decide)).trans (if_pos hstate))

theorem exec_pllLockWindow_good (hpresent : s.refOut = false) (hstate : s.rd .pllState p = 1 ∨ s.rd .pllState p = 4)
    (herr : errPpm.natAbs ≤ 20) (hphase : phaseOk = true) (hslip : slip = false) (hquiet : s.rd .pllQuietWin p = 3) :
    exec (.pllLockWindow p errPpm phaseOk slip) s = .next (
      if s.rd .pllState p = 4 then ((s.windowMark p errPpm).wr .pllQuietWin 4 p).pllLockedNow p
      else ((s.windowMark p errPpm).wr .pllQuietWin 4 p).wr .pllLock 1 p) := by
  have hactive : ¬ (s.refOut = true ∨ s.rd .pllState p = 0 ∨ s.rd .pllState p = 5 ∨ s.rd .pllState p = 3) := by
    rw [hpresent]
    simp only [Bool.false_eq_true, false_or]
    omega
  have hsteady : (decide (100 < errPpm.natAbs) || slip) = false := by
    rw [hslip, decide_eq_false (by omega)]
    rfl
  show execPllLockWindow p errPpm phaseOk slip s = _
  unfold execPllLockWindow
  extract_lets index st measured gated moved lost q counted
  have hq : q = 4 := by
    have hrun : measured.rd .pllQuietWin index = 3 := (State.rd_wr_field _ _ _ _ _ _ (by decide)).trans hquiet
    unfold q
    rw [if_pos ⟨herr, hphase, by rw [hslip]; rfl⟩, hrun]
    rfl
  have hcounted : counted = (s.windowMark p errPpm).wr .pllQuietWin 4 p := by
    unfold counted
    rw [hsteady, hq]
    rfl
  have hmoving : st ≠ 2 := show s.rd .pllState p ≠ 2 by omega
  rw [if_neg hactive, if_neg hmoving, if_neg (show ¬ q < 4 by rw [hq]; decide), hcounted]

/-- A window within 100 ppm without a slip leaves LOCKED as it is (R326). -/
theorem pllLockWindow_measures (hpresent : s.refOut = false) (hstate : s.rd .pllState p = 2)
    (herr : errPpm.natAbs ≤ 100) (hslip : slip = false) (hhigh : errPpm < 128) (hlow : -128 ≤ errPpm) :
    ∃ t, exec (.pllLockWindow p errPpm phaseOk slip) s = .next t ∧
      t.rdInt .pllLockErrPpm p = errPpm ∧ Changes s t p [.pllLockErrPpm] := by
  have hgood : ¬ (100 < errPpm.natAbs ∨ slip = true) := by
    rw [hslip]
    simpa using herr
  exact ⟨_, (exec_pllLockWindow_locked hpresent hstate).trans (congrArg _ (if_neg hgood)),
    s.rdInt_windowMark p hlow hhigh, (Changes.refl s p _).wr (by decide)⟩

/-- The fourth good window of a relock locks (R324, R327). -/
theorem pllLockWindow_relocks (hpresent : s.refOut = false) (hstate : s.rd .pllState p = 4) (herr : errPpm.natAbs ≤ 20)
    (hphase : phaseOk = true) (hslip : slip = false) (hquiet : s.rd .pllQuietWin p = 3) :
    ∃ t, exec (.pllLockWindow p errPpm phaseOk slip) s = .next t ∧
      t.rd .pllState p = 2 ∧ t.rd .pllLock p = 1 ∧ t.rd .pllGated p = 0 ∧ t.rd .pllQuietWin p = 4 ∧
      t.rd .pllDeclared p = 0 := by
  refine ⟨_, (exec_pllLockWindow_good hpresent (Or.inr hstate) herr hphase hslip hquiet).trans
    (congrArg _ (if_pos hstate)), ?_⟩
  have hlock := ((s.windowMark p errPpm).wr .pllQuietWin 4 p).pllLockedNow_clock p
  refine ⟨?_, ?_, ?_, ?_, ?_⟩
  all_goals
    rw [hlock _ (by decide)]
    unfold State.lockMark
    simp (disch := decide) only [State.puts_cons, State.puts_nil, State.rd_wr_field, State.rd_wr_self]
    rfl

/-- The fourth good window of a calibration passes the lock test (R322, R324). -/
theorem pllLockWindow_passes (hpresent : s.refOut = false) (hstate : s.rd .pllState p = 1) (herr : errPpm.natAbs ≤ 20)
    (hphase : phaseOk = true) (hslip : slip = false) (hquiet : s.rd .pllQuietWin p = 3) :
    ∃ t, exec (.pllLockWindow p errPpm phaseOk slip) s = .next t ∧
      t.rd .pllState p = 1 ∧ t.rd .pllLock p = 1 ∧ t.rd .pllQuietWin p = 4 ∧
      Changes s t p [.pllLockErrPpm, .pllQuietWin, .pllLock] := by
  refine ⟨_, (exec_pllLockWindow_good hpresent (Or.inl hstate) herr hphase hslip hquiet).trans
    (congrArg _ (if_neg (by omega))), ?_, State.rd_wr_fits _ _ _ _ _ (by decide), ?_,
    (((Changes.refl s p _).wr (by decide)).wr (by decide)).wr (by decide)⟩
  · unfold State.windowMark State.wrInt
    simpa (disch := decide) only [State.rd_wr_field] using hstate
  · exact (State.rd_wr_field _ _ _ _ _ _ (by decide)).trans (State.rd_wr_fits _ _ _ _ _ (by decide))

theorem State.rd_windowMark (s : State) (p : Nat) (errPpm : Int) {f : Field} (m i : Nat) (hf : f ≠ .pllLockErrPpm) :
    (s.windowMark p errPpm).rd f m i = s.rd f m i :=
  State.rd_wr_field _ _ _ _ _ _ hf

/-- PLL `p` has lost lock from LOCKED: its outputs gated and the loss counted with its interrupt (R326). -/
structure State.PllUnlocked (s t : State) (p : Nat) : Prop where
  state : t.rd .pllState p = if s.maskBit .clkAutoRelock p then 1 else 5
  lock : t.rd .pllLock p = 0
  gated : t.rd .pllGated p = 1
  count : t.rd .pllLolCnt p = min (s.rd .pllLolCnt p + 1) (2 ^ Field.width .pllLolCnt - 1)
  flag : (t.rd .clkIntStatus).testBit (Irq.clkPllLol + p) = true
  kept : SameReads [.pllReqPend, .clkRefLost, .clkRefBad] s t

theorem State.pllUnlock_unlocks (hquiet : s.rd .hltAction 0 11 ≤ 1) : s.PllUnlocked (s.pllUnlock p) p := by
  have hclock := State.pllUnlock_clock (p := p) hquiet
  constructor
  case kept =>
    refine fun f hf n i => (hclock.mono (k := [.pllReqPend, .clkRefLost, .clkRefBad]) (by decide) f hf n i).trans ?_
    simp only [List.mem_cons, List.not_mem_nil, or_false] at hf
    rcases hf with rfl | rfl | rfl
    all_goals exact (State.rd_lolMark _ _ _ _ (by decide)).trans ((State.rd_wr_field _ _ _ _ _ _ (by decide)).trans
      (State.rd_wr_field _ _ _ _ _ _ (by decide)))
  all_goals rw [hclock _ (by decide), State.unlockMark]
  case state =>
    rw [State.rd_lolMark _ _ _ _ (by decide)]
    exact State.rd_wr_fits _ _ _ _ _ (by split <;> decide)
  case lock => exact State.lolMark_lock _ _
  case gated =>
    rw [State.rd_lolMark _ _ _ _ (by decide), State.rd_wr_field _ _ _ _ _ _ (by decide)]
    exact State.rd_wr_fits _ _ _ _ _ (by decide)
  case count =>
    rw [State.lolMark_count, State.rd_wr_field _ _ _ _ _ _ (by decide), State.rd_wr_field _ _ _ _ _ _ (by decide)]
  case flag => exact State.lolMark_flag _ p.isLt

/-- A loss of lock recalibrates where AUTO_RELOCK allows it and no request waits (R326). -/
theorem pllLockWindow_recalibrates (hpresent : s.refOut = false) (hstate : s.rd .pllState p = 2)
    (hbad : 100 < errPpm.natAbs ∨ slip = true) (hauto : s.maskBit .clkAutoRelock p = true)
    (hidle : s.on .pllReqPend p = false) (hquiet : s.rd .hltAction 0 11 ≤ 1) :
    ∃ t, exec (.pllLockWindow p errPpm phaseOk slip) s = .next t ∧
      t.rd .pllState p = 1 ∧ t.rd .pllLock p = 0 ∧ t.rd .pllGated p = 1 ∧ t.rd .pllCalRun p = 1 ∧
      t.rd .pllLolCnt p = min (s.rd .pllLolCnt p + 1) (2 ^ Field.width .pllLolCnt - 1) ∧
      (t.rd .clkIntStatus).testBit (Irq.clkPllLol + p) = true := by
  have hmark {f : Field} := @State.rd_windowMark s p errPpm f
  have hun : (s.windowMark p errPpm).PllUnlocked ((s.windowMark p errPpm).pllUnlock p) p :=
    State.pllUnlock_unlocks (by rwa [hmark _ _ (by decide)])
  have hcal : ((s.windowMark p errPpm).pllUnlock p).rd .pllState p = 1 := by
    rw [hun.state, State.maskBit, hmark _ _ (by decide)]
    exact if_pos hauto
  have hreq : ((s.windowMark p errPpm).pllUnlock p).on .pllReqPend p = false := by
    rwa [State.on_eq, hun.kept _ (by decide), hmark _ _ (by decide)]
  have hout : ((s.windowMark p errPpm).pllUnlock p).refOut = false := by
    refine (State.refOut_congr ?_ ?_).trans hpresent <;> rw [hun.kept _ (by decide), hmark _ _ (by decide)]
  have hstart := ((s.windowMark p errPpm).pllUnlock p).pllCalStart_calibrates p
  refine ⟨_, (exec_pllLockWindow_locked hpresent hstate).trans (congrArg _ ((if_pos hbad).trans (if_neg ?_))),
    hstart.state, hstart.lock, hstart.gated, ?_, ?_, ?_⟩
  · simp [hcal, hreq]
  · rw [hstart.run, hout]
    rfl
  · rw [hstart.losses, hun.count, hmark _ _ (by decide)]
  · rw [hstart.status]
    exact hun.flag

/-- With AUTO_RELOCK 0 a loss of lock fails (R326). -/
theorem pllLockWindow_fails (hpresent : s.refOut = false) (hstate : s.rd .pllState p = 2) (hslip : slip = true)
    (hauto : s.maskBit .clkAutoRelock p = false) (hquiet : s.rd .hltAction 0 11 ≤ 1) :
    ∃ t, exec (.pllLockWindow p errPpm phaseOk slip) s = .next t ∧
      t.rd .pllState p = 5 ∧ t.rd .pllLock p = 0 ∧ t.rd .pllGated p = 1 ∧
      (t.rd .clkIntStatus).testBit (Irq.clkPllLol + p) = true := by
  have hmark {f : Field} := @State.rd_windowMark s p errPpm f
  have hun : (s.windowMark p errPpm).PllUnlocked ((s.windowMark p errPpm).pllUnlock p) p :=
    State.pllUnlock_unlocks (by rwa [hmark _ _ (by decide)])
  have hfailed : ((s.windowMark p errPpm).pllUnlock p).rd .pllState p = 5 := by
    rw [hun.state, State.maskBit, hmark _ _ (by decide)]
    exact if_neg (by rw [← State.maskBit, hauto]; decide)
  exact ⟨_, (exec_pllLockWindow_locked hpresent hstate).trans
    (congrArg _ ((if_pos (Or.inr hslip)).trans (if_pos (Or.inl hfailed)))), hfailed, hun.lock, hun.gated, hun.flag⟩

end

/-! ## The disable of a served transmit direction (R177, R323) -/

/-- The state and the laser enable of transmit direction `m` read as in `r`. -/
structure SameDrive (m : Nat) (r s : State) : Prop where
  state : s.rd .ltxState m = r.rd .ltxState m
  laser : s.rd .ltxLsrEn m = r.rd .ltxLsrEn m

namespace SameDrive

variable {m n : Nat} {r s t : State}

theorem refl (m : Nat) (r : State) : SameDrive m r r := ⟨rfl, rfl⟩

theorem sequence (h : SameDrive m r s) (ht : SameReads sequenceFields s t) : SameDrive m r t :=
  ⟨(ht _ (by decide) _ _).trans h.state, (ht _ (by decide) _ _).trans h.laser⟩

/-- A write of another direction. -/
theorem wr {f : Field} {v i : Nat} (h : SameDrive m r s) (hm : m ≠ n) : SameDrive m r (s.wr f v n i) :=
  ⟨(State.rd_wr_inst _ _ _ _ hm).trans h.state, (State.rd_wr_inst _ _ _ _ hm).trans h.laser⟩

theorem puts {l : List (Field × Nat)} (h : SameDrive m r s) (hm : m ≠ n) : SameDrive m r (s.puts l n) :=
  ⟨(State.rd_puts_other _ _ _ _ _ _ (Or.inr hm)).trans h.state,
    (State.rd_puts_other _ _ _ _ _ _ (Or.inr hm)).trans h.laser⟩

theorem emit {ty obj : Nat} {payload : List Nat} (h : SameDrive m r s) : SameDrive m r (s.emit ty obj payload) :=
  ⟨(State.rd_emit _ _ _ _ _ _ (by decide)).trans h.state, (State.rd_emit _ _ _ _ _ _ (by decide)).trans h.laser⟩

theorem when {c : Bool} {g : State → State} (h : SameDrive m r s) (hg : ∀ u, SameDrive m r u → SameDrive m r (g u)) :
    SameDrive m r (s.when c g) := by
  cases c
  · exact h
  · exact hg s h

section
variable (h : SameDrive m r s) (hm : m ≠ n)
include h hm

theorem ltxSet {st : Nat} : SameDrive m r (s.ltxSet n st) := by
  unfold State.ltxSet
  extract_lets old
  split
  · exact h
  · exact (SameDrive.wr (f := .ltxIntStatus) (h.puts hm) hm).emit

theorem ltxSilence : SameDrive m r (s.ltxSilence n) := by
  have hended : SameDrive m r (s.ltxAbandon n) := h.sequence (State.ltxAbandon_sequence (SameReads.refl _ s))
  exact ((((((hended.wr hm).wr hm).wr hm).wr hm).wr hm).puts hm).wr hm

theorem ltxOff : SameDrive m r (s.ltxOff n) := ((h.ltxSilence hm).ltxSet hm).sequence (s.ltxOff_sequence n)

theorem ltxRecheck : SameDrive m r (s.ltxRecheck n) := by
  unfold State.ltxRecheck
  extract_lets entered hold pend raised shown
  have hentered : SameDrive m r entered := h.when fun _ hu => ((hu.puts hm).wr hm).ltxSet hm
  have hraised : SameDrive m r raised := hentered.when fun _ hu => hu.wr hm
  exact ((hraised.wr hm).wr hm).wr hm

theorem ltxDisableEnd : SameDrive m r (s.ltxDisableEnd n) := by
  unfold State.ltxDisableEnd
  extract_lets dropped
  have hdropped : SameDrive m r dropped := (h.wr hm).wr hm
  split
  · exact (hdropped.ltxOff hm).ltxRecheck hm
  · exact (hdropped.ltxSet hm).ltxRecheck hm

/-- A disable of one direction leaves every other one. -/
theorem ltxDisable : SameDrive m r (s.ltxDisable n) := by
  unfold State.ltxDisable
  extract_lets st asleep disabling
  have hended : SameDrive m r (s.ltxAbandon n) := h.sequence (State.ltxAbandon_sequence (SameReads.refl _ s))
  have hdisabling : SameDrive m r disabling := (hended.ltxSet hm).wr hm
  split
  · split
    · exact hdisabling.ltxDisableEnd hm
    split
    · exact ((((((hdisabling.wr hm).wr hm).wr hm).wr hm).wr hm).wr hm)
    · exact hdisabling
  split
  · split
    · exact (h.ltxOff hm).ltxRecheck hm
    · exact h.ltxRecheck hm
  · exact h.ltxRecheck hm

end

end SameDrive

/-- A direction that transmits with its laser on goes to DISABLE, awake or asleep (R177). -/
theorem State.ltxDisable_disables {s : State} {n : Nat} (hlow : 2 ≤ s.rd .ltxState n) (hhigh : s.rd .ltxState n ≤ 4)
    (hlaser : s.on .ltxLsrEn n = true) : (s.ltxDisable n).rd .ltxState n = 5 := by
  unfold State.ltxDisable
  extract_lets st asleep disabling
  have hstate : disabling.rd .ltxState n = 5 :=
    (State.rd_wr_field _ _ _ _ _ _ (by decide)).trans (State.ltxSet_state _ _ _ (by decide))
  have hon : disabling.on .ltxLsrEn n = true := by
    rw [State.on_eq, State.rd_wr_field _ _ _ _ _ _ (by decide), State.rd_ltxSet _ _ _ _ _ (by decide) (by decide),
      State.ltxAbandon_sequence (SameReads.refl _ s) _ (by decide)]
    exact hlaser
  rw [if_pos (show st = 2 ∨ st = 3 ∨ st = 4 by unfold st; omega), if_neg (by rw [hon]; decide)]
  split
  · unfold State.ltxLaserOff
    simpa (disch := decide) only [State.rd_wr_field] using hstate
  · exact hstate

/-! ## A request for a calibration (R323, R330) -/

/-- CAL_REQ of a PLL in operation, which waits for the transmit directions that it serves (R323). -/
def State.pllRequested (s : State) (p : Nat) : State :=
  (s.puts [(.pllReqPend, 1), (.pllCalPend, 1)] p).each (pllLines p) (fun n t => t.ltxDisable n)

/-- CAL_REQ of a PLL below supply warning, which the supply holds (R330). -/
def State.pllRequestHeld (s : State) (p : Nat) : State := (s.setMask .clkCalReq p true).wr .pllCalPend 1 p

theorem pllLines_nodup (p : Nat) : (pllLines p).Nodup := List.nodup_range.filter _

/-- The mask of one PLL names that PLL. -/
theorem plls_of_mask (p : Fin 5) : plls.filter (fun k => (2 ^ p.val).testBit k) = [p.val] := by
  revert p
  decide

theorem State.pllRequested_clock (s : State) (p : Nat) :
    SameReads clockFields (s.puts [(.pllReqPend, 1), (.pllCalPend, 1)] p) (s.pllRequested p) :=
  (SameReads.refl _ _).each fun n u hu => hu.onlyIn (State.ltxDisable_onlyIn (n := n)
    (OnlyIn.refl [.evf, .hltLn, .ltx, .optLn, .pwrLn] u) (by decide) (by decide) (by decide) (by decide) (by decide))
    (by decide)

/-- Each served direction that transmits with its laser on goes to DISABLE (R323). -/
theorem State.pllRequested_disables {s : State} {p n : Nat} (hn : n ∈ pllLines p) (hlow : 2 ≤ s.rd .ltxState n)
    (hhigh : s.rd .ltxState n ≤ 4) (hlaser : s.on .ltxLsrEn n = true) : (s.pllRequested p).rd .ltxState n = 5 := by
  have hsame : SameDrive n s (s.puts [(.pllReqPend, 1), (.pllCalPend, 1)] p) := by
    constructor <;> exact State.rd_puts_other _ _ _ _ _ _ (Or.inl (by simp))
  refine State.each_establishes (before := SameDrive n s) (after := fun t => t.rd .ltxState n = 5) (pllLines_nodup p) hn
    (fun m hm t ht => ht.ltxDisable hm.symm) (fun t ht => ?_)
    (fun m hm t ht => ((SameDrive.refl n t).ltxDisable hm.symm).state.trans ht) hsame
  refine State.ltxDisable_disables ?_ ?_ ?_
  · rwa [ht.state]
  · rwa [ht.state]
  · rwa [State.on_eq, ht.laser]

section
variable {s : State} {p : Fin 5} {mask : BitVec 5}

theorem exec_pllCalReq_none (hreach : s.reaches .clk 0) (hmask : mask = 0) : exec (.pllCalReq mask) s = .next s := by
  refine congrArg Host.Outcome.next ((State.access_of_reaches hreach _).trans ?_)
  have hnone : plls.filter (fun k => mask.toNat.testBit k) = [] := by
    rw [hmask]
    decide
  rw [hnone, State.each_nil]

theorem exec_pllCalReq_one (hreach : s.reaches .clk 0) (hmask : mask.toNat = 2 ^ p.val) :
    exec (.pllCalReq mask) s = .next (
      if s.warning = true ∧ (!s.on .pllCalRun p) = true ∧ s.rd .pllState p ≠ 0 then s.pllRequestHeld p
      else s.pllRequest p) := by
  refine congrArg Host.Outcome.next ((State.access_of_reaches hreach _).trans ?_)
  rw [hmask, plls_of_mask p, State.each_cons, State.each_nil]
  rfl

theorem exec_pllCalReq_ignored (hreach : s.reaches .clk 0) (hmask : mask.toNat = 2 ^ p.val)
    (hout : s.on .pllCalRun p = true ∨ s.rd .pllState p = 0) : exec (.pllCalReq mask) s = .next s := by
  refine (exec_pllCalReq_one hreach hmask).trans (congrArg _ ((if_neg ?_).trans (if_pos hout)))
  rintro ⟨-, hidle, hstate⟩
  rcases hout with hrun | hoff
  · rw [hrun] at hidle
    exact absurd hidle (by decide)
  · exact hstate hoff

/-- With the supply good the request waits for the transmit directions, which disable (R323). -/
theorem pllCalReq_waits (hreach : s.reaches .clk 0) (hsupply : s.warning = false) (hmask : mask.toNat = 2 ^ p.val)
    (hidle : s.on .pllCalRun p = false) (hstate : s.rd .pllState p ≠ 0) :
    ∃ t, exec (.pllCalReq mask) s = .next t ∧
      t.rd .pllReqPend p = 1 ∧ t.rd .pllCalPend p = 1 ∧ t.rd .pllState p = s.rd .pllState p ∧
      (∀ n ∈ pllLines p, 2 ≤ s.rd .ltxState n → s.rd .ltxState n ≤ 4 → s.on .ltxLsrEn n = true → s.on .ltxSleep n =
        false → t.rd .ltxState n = 5) := by
  have hclock := s.pllRequested_clock p
  refine ⟨s.pllRequested p, (exec_pllCalReq_one hreach hmask).trans (congrArg _ ((if_neg ?_).trans (if_neg ?_))),
    ?_, ?_, ?_, fun n hn hlow hhigh hlaser _ => State.pllRequested_disables hn hlow hhigh hlaser⟩
  · simp [hsupply]
  · simp [hidle, hstate]
  · exact (hclock _ (by decide) _ _).trans (State.rd_puts_of_mem (by simp) (by simp) (by decide))
  · exact (hclock _ (by decide) _ _).trans (State.rd_puts_of_mem (by simp) (by simp) (by decide))
  · exact (hclock _ (by decide) _ _).trans (State.rd_puts_other _ _ _ _ _ _ (Or.inl (by simp)))

/-- Below supply warning the request is held (R330). -/
theorem pllCalReq_held (hreach : s.reaches .clk 0) (hsupply : s.warning = true) (hmask : mask.toNat = 2 ^ p.val)
    (hidle : s.on .pllCalRun p = false) (hstate : s.rd .pllState p ≠ 0) :
    ∃ t, exec (.pllCalReq mask) s = .next t ∧
      (t.rd .clkCalReq).testBit p = true ∧ t.rd .pllCalPend p = 1 ∧ t.rd .pllReqPend p = s.rd .pllReqPend p ∧
      OnlyIn [.clk, .pll] s t := by
  refine ⟨s.pllRequestHeld p, (exec_pllCalReq_one hreach hmask).trans
    (congrArg _ (if_pos ⟨hsupply, by rw [hidle]; rfl, hstate⟩)), ?_, State.rd_wr_fits _ _ _ _ _ (by decide), ?_,
    State.wr_onlyIn (State.setMask_onlyIn (OnlyIn.refl _ s) (by decide)) (by decide)⟩
  · rw [State.pllRequestHeld, State.rd_wr_field _ _ _ _ _ _ (by decide)]
    exact State.maskBit_setMask_true s .clkCalReq p 0 p.isLt
  · rw [State.pllRequestHeld, State.rd_wr_field _ _ _ _ _ _ (by decide)]
    exact State.rd_wr_field _ _ _ _ _ _ (by decide)

/-! ## The start of a calibration (R323, R327) -/

theorem exec_pllCalStart_waits
    (h : s.on .pllReqPend p = false ∨ s.on .pllCalRun p = true ∨ s.pllTransmits p = true ∨ s.refOut = true) :
    exec (.pllCalStart p) s = .next s := by
  refine congrArg Host.Outcome.next (if_neg ?_)
  rintro ⟨hreq, hidle, hquiet, hpresent⟩
  rcases h with h | h | h | h <;> simp_all

theorem pllCalStart_calibrates (hreq : s.on .pllReqPend p = true) (hidle : s.on .pllCalRun p = false)
    (hquiet : s.pllTransmits p = false) (hpresent : s.refOut = false) :
    ∃ t, exec (.pllCalStart p) s = .next t ∧ s.PllCalibrates t p := by
  have hmet : s.on .pllReqPend p = true ∧ (!s.on .pllCalRun p) = true ∧ (!s.pllTransmits p) = true ∧
      (!s.refOut) = true := ⟨hreq, by rw [hidle]; rfl, by rw [hquiet]; rfl, by rw [hpresent]; rfl⟩
  refine ⟨_, congrArg Host.Outcome.next (if_pos hmet), ?_⟩
  have hstart := s.pllCalStart_calibrates p
  extract_lets lost started
  split
  · exact hstart
  · exact hstart.of_clock (State.pllEffects_clock (SameReads.refl _ _))

theorem pllRelockTimeout_calibrates (hstate : s.rd .pllState p = 4) :
    ∃ t, exec (.pllRelockTimeout p) s = .next t ∧ s.PllCalibrates t p :=
  ⟨_, congrArg Host.Outcome.next (if_pos hstate), s.pllCalStart_calibrates p⟩

theorem exec_pllRelockTimeout_other (hstate : s.rd .pllState p ≠ 4) : exec (.pllRelockTimeout p) s = .next s :=
  congrArg Host.Outcome.next (if_neg hstate)

end

/-! ## The end of a calibration (R322, R324, R329) -/

/-- A calibration that has run to its end, with its count, time and interrupt (R322, R335). -/
def State.calEnd (s : State) (p : Nat) : State :=
  ((s.puts [(.pllCalRun, 0), (.pllReqServed, bit (s.on .pllLock p && s.on .pllReqPend p)), (.pllReqPend, 0),
    (.pllCalTime, s.todWords)] p).bump .pllCalCnt p).raise .clkIntStatus (Irq.clkCalDone + p)

section
variable {s : State} {p : Fin 5} {band : BitVec 6}

theorem State.rd_calEnd (s : State) (p : Nat) {f : Field} (m i : Nat)
    (hf : f ∉ [Field.pllCalRun, .pllReqServed, .pllReqPend, .pllCalTime, .pllCalCnt, .clkIntStatus]) :
    (s.calEnd p).rd f m i = s.rd f m i := by
  simp only [List.mem_cons, List.not_mem_nil, or_false, not_or] at hf
  obtain ⟨hrun, hserved, hreq, htime, hcount, hstatus⟩ := hf
  refine (State.rd_wr_field _ _ _ _ _ _ hstatus).trans ((State.rd_wr_field _ _ _ _ _ _ hcount).trans ?_)
  exact State.rd_puts_other _ _ _ _ _ _ (Or.inl (by simp [hrun, hserved, hreq, htime]))

theorem State.calEnd_count (s : State) (p : Nat) : (s.calEnd p).rd .pllCalCnt p =
    min (s.rd .pllCalCnt p + 1) (2 ^ Field.width .pllCalCnt - 1) := by
  refine (State.rd_wr_field _ _ _ _ _ _ (by decide)).trans ((State.rd_bump_self _ _ _ _ _).trans ?_)
  rw [State.rd_puts_other _ _ _ _ _ _ (Or.inl (by simp))]

theorem State.calEnd_idle (s : State) (p : Nat) : (s.calEnd p).rd .pllCalRun p = 0 ∧ (s.calEnd p).rd .pllReqPend p = 0 ∧
    (s.calEnd p).rd .pllCalTime p = s.todWords % 2 ^ Field.width .pllCalTime := by
  unfold State.calEnd State.raise State.bump
  simp (disch := decide) only [State.puts_cons, State.puts_nil, State.rd_wr_field, State.rd_wr_self]
  exact ⟨rfl, rfl, trivial⟩

theorem State.calEnd_flag (s : State) (p : Fin 5) :
    ((s.calEnd p).rd .clkIntStatus).testBit (Irq.clkCalDone + p) = true :=
  State.testBit_rd_raise _ _ _ _ (show Irq.clkCalDone + p.val < 13 by unfold Irq.clkCalDone; omega)

theorem exec_pllCalDone_idle (h : s.rd .pllCalRun p ≠ 1 ∨ s.refOut = true) : exec (.pllCalDone p band) s = .next s := by
  refine congrArg Host.Outcome.next (if_neg ?_)
  rintro ⟨hrun, hpresent⟩
  rcases h with h | h <;> simp_all

/-- The end of a calibration of a line or host PLL: LOCKED, a new band held for the supply, or FAILED. -/
theorem exec_pllCalDone (hrun : s.rd .pllCalRun p = 1) (hpresent : s.refOut = false) (hp : p ≠ 4) :
    exec (.pllCalDone p band) s = .next (
      if (!s.on .pllLock p) = true then
        (((s.calEnd p).when ((s.calEnd p).on .pwrStartup) (fun t => t.wr .glbBootFailStage 3)).wr .pllLock 0 p).pllSet
          p 5
      else if (s.calEnd p).warning = true ∧ band.toNat ≠ (s.calEnd p).rd .pllBand p then
        ((s.calEnd p).wr .pllBandHeld (64 + band.toNat) p).pllSet p 3
      else (s.calEnd p).pllCalLocked p band.toNat) := by
  have hcore : (p.val == 4) = false := by
    rw [beq_eq_false_iff_ne]
    exact fun h => hp (Fin.ext h)
  have hmet : s.rd .pllCalRun p = 1 ∧ (!s.refOut) = true := ⟨hrun, by rw [hpresent]; rfl⟩
  show execPllCalDone p band s = _
  unfold execPllCalDone State.calEnd
  extract_lets index ok counted ended decided
  rw [if_pos hmet, hcore, Bool.false_and, State.when_false]

/-- The lock test passed: LOCKED in the band (R322). -/
theorem pllCalDone_locks (hrun : s.rd .pllCalRun p = 1) (hpresent : s.refOut = false) (hlock : s.on .pllLock p = true)
    (hsupply : s.warning = false) (hp : p ≠ 4) : ∃ t, exec (.pllCalDone p band) s = .next t ∧
      t.rd .pllState p = 2 ∧ t.rd .pllBand p = band.toNat ∧ t.rd .pllLock p = 1 ∧ t.rd .pllGated p = 0 ∧
      t.rd .pllCalRun p = 0 ∧ t.rd .pllReqPend p = 0 ∧
      t.rd .pllCalCnt p = min (s.rd .pllCalCnt p + 1) (2 ^ Field.width .pllCalCnt - 1) ∧
      t.rd .pllCalTime p = s.todWords % 2 ^ Field.width .pllCalTime ∧
      (t.rd .clkIntStatus).testBit (Irq.clkCalDone + p) = true := by
  have hgood : ¬ ((s.calEnd p).warning = true ∧ band.toNat ≠ (s.calEnd p).rd .pllBand p) := by
    rw [State.warning, State.on_eq, State.rd_calEnd _ _ _ _ (by decide), ← State.on_eq, ← State.warning, hsupply]
    simp
  refine ⟨_, (exec_pllCalDone hrun hpresent hp).trans
    (congrArg _ ((if_neg (by rw [hlock]; decide)).trans (if_neg hgood))), ?_⟩
  have hclock : SameReads clockFields
      (((s.calEnd p).puts [(.pllBand, band.toNat), (.pllNoRelock, 0), (.pllBandHeld, 0)] p).lockMark p)
      ((s.calEnd p).pllCalLocked p band.toNat) :=
    (State.pllServed_clock (SameReads.refl _ _)).puts_congr.wr_congr.trans (State.pllLockedNow_clock _ p)
  obtain ⟨hidle, hserved, htime⟩ := s.calEnd_idle p
  refine ⟨?_, ?_, ?_, ?_, ?_, ?_, ?_, ?_, ?_⟩
  all_goals
    rw [hclock _ (by decide)]
    unfold State.lockMark
    simp (disch := decide) only [State.puts_cons, State.puts_nil, State.rd_wr_field, State.rd_wr_self]
  case refine_2 => exact Nat.mod_eq_of_lt band.isLt
  case refine_5 => exact hidle
  case refine_6 => exact hserved
  case refine_7 => exact s.calEnd_count p
  case refine_8 => exact htime
  case refine_9 => exact s.calEnd_flag p
  all_goals rfl

/-- No band locked: FAILED, the band kept (R322). -/
theorem pllCalDone_fails (hrun : s.rd .pllCalRun p = 1) (hpresent : s.refOut = false) (hlock : s.on .pllLock p = false)
    (hp : p ≠ 4) : ∃ t, exec (.pllCalDone p band) s = .next t ∧
      t.rd .pllState p = 5 ∧ t.rd .pllLock p = 0 ∧ t.rd .pllCalRun p = 0 ∧
      (t.rd .clkIntStatus).testBit (Irq.clkCalDone + p) = true ∧ t.rd .pllBand p = s.rd .pllBand p := by
  refine ⟨_, (exec_pllCalDone hrun hpresent hp).trans (congrArg _ (if_pos (by rw [hlock]; rfl))), ?_⟩
  have hboot : SameReads clockFields (s.calEnd p)
      ((s.calEnd p).when ((s.calEnd p).on .pwrStartup) (fun t => t.wr .glbBootFailStage 3)) :=
    (SameReads.refl _ _).when fun _ hu => hu.wr (by decide)
  have hclock := (hboot.wr_congr (f := .pllLock) (v := 0) (n := p) (i := 0)).wr_congr.trans
    (State.pllSet_clock _ p (show 5 < 8 by decide))
  obtain ⟨hidle, -, -⟩ := s.calEnd_idle p
  refine ⟨?_, ?_, ?_, ?_, ?_⟩
  all_goals
    rw [hclock _ (by decide)]
    simp (disch := decide) only [State.rd_wr_field, State.rd_wr_self]
  case refine_3 => exact hidle
  case refine_4 => exact s.calEnd_flag p
  case refine_5 => exact s.rd_calEnd _ _ _ (by decide)
  all_goals rfl

/-- Below supply warning a new band waits in HOLD (R330). -/
theorem pllCalDone_holds (hrun : s.rd .pllCalRun p = 1) (hpresent : s.refOut = false) (hlock : s.on .pllLock p = true)
    (hsupply : s.warning = true) (hband : band.toNat ≠ s.rd .pllBand p) (hp : p ≠ 4) :
    ∃ t, exec (.pllCalDone p band) s = .next t ∧
      t.rd .pllState p = 3 ∧ t.rd .pllBand p = s.rd .pllBand p ∧ t.rd .pllBandHeld p = 64 + band.toNat ∧
      t.rd .pllCalRun p = 0 := by
  have hwaits : (s.calEnd p).warning = true ∧ band.toNat ≠ (s.calEnd p).rd .pllBand p := by
    rw [State.warning, State.on_eq, State.rd_calEnd _ _ _ _ (by decide), State.rd_calEnd _ _ _ _ (by decide)]
    exact ⟨hsupply, hband⟩
  refine ⟨_, (exec_pllCalDone hrun hpresent hp).trans
    (congrArg _ ((if_neg (by rw [hlock]; decide)).trans (if_pos hwaits))), ?_⟩
  have hclock := ((s.calEnd p).wr .pllBandHeld (64 + band.toNat) p).pllSet_clock p (show 3 < 8 by decide)
  obtain ⟨hidle, -, -⟩ := s.calEnd_idle p
  have hfits : 64 + band.toNat < 2 ^ 7 := by omega
  refine ⟨?_, ?_, ?_, ?_⟩
  all_goals
    rw [hclock _ (by decide)]
    simp (disch := decide) only [State.rd_wr_field, State.rd_wr_self]
  case refine_1 => rfl
  case refine_2 => exact s.rd_calEnd _ _ _ (by decide)
  case refine_3 => exact Nat.mod_eq_of_lt hfits
  case refine_4 => exact hidle

end

/-! ## The PLLs through an outage of the reference (R327, R330) -/

theorem State.each_unchanged {α : Type} {l : List α} {g : α → State → State} {s : State} (h : ∀ a ∈ l, g a s = s) :
    s.each l g = s := by
  induction l with
  | nil => rfl
  | cons a l ih =>
    rw [State.each_cons, h a (by simp)]
    exact ih fun b hb => h b (by simp [hb])

theorem plls_nodup : plls.Nodup := List.nodup_range

theorem mem_plls (p : Fin 5) : p.val ∈ plls := List.mem_range.mpr p.isLt

/-- The flags, the count and the status of the reference, which a move of a PLL to another state leaves. -/
def referenceFields : List Field :=
  [.clkRefLost, .clkRefBad, .clkRefOk, .clkRefBack, .clkOutage, .clkRefGlitchCnt, .clkIntStatus]

theorem State.pllSet_state (s : State) (p : Nat) {st : Nat} (hst : st < 8) : (s.pllSet p st).rd .pllState p = st :=
  (s.pllSet_clock p hst _ (by decide) p 0).trans (State.rd_wr_fits _ _ _ _ _ hst)

theorem State.pllSet_reference {r s : State} {p st : Nat} (h : SameReads referenceFields r s) (hst : st < 8) :
    SameReads referenceFields r (s.pllSet p st) :=
  (SameReads.wr (f := .pllState) h (by decide)).trans ((s.pllSet_clock p hst).mono (by decide))

/-- The fields of PLL `p` in which it holds its setting through an outage read as in `r`. -/
structure SameHold (p : Nat) (r s : State) : Prop where
  state : s.rd .pllState p = r.rd .pllState p
  declared : s.rd .pllDeclared p = r.rd .pllDeclared p
  bandHeld : s.rd .pllBandHeld p = r.rd .pllBandHeld p
  quietWin : s.rd .pllQuietWin p = r.rd .pllQuietWin p
  lock : s.rd .pllLock p = r.rd .pllLock p

namespace SameHold

variable {p q : Nat} {r s t : State}

theorem refl (p : Nat) (r : State) : SameHold p r r := ⟨rfl, rfl, rfl, rfl, rfl⟩

theorem clock (h : SameHold p r s) (ht : SameReads clockFields s t) : SameHold p r t :=
  ⟨(ht _ (by decide) _ _).trans h.state, (ht _ (by decide) _ _).trans h.declared,
    (ht _ (by decide) _ _).trans h.bandHeld, (ht _ (by decide) _ _).trans h.quietWin,
    (ht _ (by decide) _ _).trans h.lock⟩

/-- A write of another PLL. -/
theorem wr {f : Field} {v i : Nat} (h : SameHold p r s) (hq : p ≠ q) : SameHold p r (s.wr f v q i) :=
  ⟨(State.rd_wr_inst _ _ _ _ hq).trans h.state, (State.rd_wr_inst _ _ _ _ hq).trans h.declared,
    (State.rd_wr_inst _ _ _ _ hq).trans h.bandHeld, (State.rd_wr_inst _ _ _ _ hq).trans h.quietWin,
    (State.rd_wr_inst _ _ _ _ hq).trans h.lock⟩

theorem puts {l : List (Field × Nat)} (h : SameHold p r s) (hq : p ≠ q) : SameHold p r (s.puts l q) := by
  induction l generalizing s with
  | nil => exact h
  | cons e l ih => exact ih (h.wr hq)

theorem when {c : Bool} {g : State → State} (h : SameHold p r s) (hg : ∀ u, SameHold p r u → SameHold p r (g u)) :
    SameHold p r (s.when c g) := by
  cases c
  · exact h
  · exact hg s h

theorem pllSet {st : Nat} (h : SameHold p r s) (hq : p ≠ q) (hst : st < 8) : SameHold p r (s.pllSet q st) :=
  (h.wr hq).clock (s.pllSet_clock q hst)

end SameHold

/-- A PLL that runs holds, and a running calibration stops (R327, R330). -/
def State.pllHold (s : State) (p : Nat) : State :=
  let s := s.when (s.rd .pllCalRun p == 1) (fun u => u.puts [(.pllCalRun, 2), (.pllQuietWin, 0), (.pllLock, 0)] p)
  s.when (s.rd .pllState p == 2 || s.rd .pllState p == 4) (fun u =>
    (u.wrb .pllDeclared (u.rd .pllState p == 4) p).pllSet p 3)

/-- A held PLL whose loss is not declared and that no band awaits closes its loop again (R327). -/
def State.pllReclose (s : State) (p : Nat) : State :=
  if s.rd .pllState p = 3 ∧ !s.on .pllDeclared p ∧ !s.on .pllBandHeld p then (s.pllSet p 2).pllServed p else s

/-- A PLL whose loss was declared relocks, and a stopped calibration starts again (R327, R330). -/
def State.pllResume (s : State) (p : Nat) : State :=
  if s.rd .pllState p = 3 ∧ s.on .pllDeclared p then (s.wr .pllQuietWin 0 p).pllSet p 4
  else if s.rd .pllCalRun p = 2 then (s.wr .pllCalRun 1 p).pllSet p 1
  else s

/-- A held PLL declares its loss of lock (R327). -/
def State.pllDeclare (s : State) (p : Nat) : State :=
  if s.rd .pllState p = 3 then (s.wr .pllDeclared 1 p).pllLol p else s

section
variable {p q : Nat} {r s : State}

theorem SameHold.pllHold (h : SameHold p r s) (hq : p ≠ q) : SameHold p r (s.pllHold q) := by
  unfold State.pllHold
  extract_lets stopped
  have hstopped : SameHold p r stopped := h.when fun _ hu => hu.puts hq
  exact hstopped.when fun _ hu => (hu.wr hq).pllSet hq (by decide)

theorem SameHold.pllReclose (h : SameHold p r s) (hq : p ≠ q) : SameHold p r (s.pllReclose q) := by
  unfold State.pllReclose
  split
  · exact (h.pllSet hq (by decide)).clock (State.pllServed_clock (SameReads.refl _ _))
  · exact h

theorem SameHold.pllResume (h : SameHold p r s) (hq : p ≠ q) : SameHold p r (s.pllResume q) := by
  unfold State.pllResume
  split
  · exact (h.wr hq).pllSet hq (by decide)
  split
  · exact (h.wr hq).pllSet hq (by decide)
  · exact h

theorem State.pllHold_reference (h : SameReads referenceFields r s) : SameReads referenceFields r (s.pllHold p) := by
  unfold State.pllHold
  extract_lets stopped
  have hstopped : SameReads referenceFields r stopped := h.when fun _ hu => hu.puts (by simp [referenceFields])
  exact hstopped.when fun _ hu => State.pllSet_reference (SameReads.wr (f := .pllDeclared) hu (by decide)) (by decide)

theorem State.pllReclose_reference (h : SameReads referenceFields r s) :
    SameReads referenceFields r (s.pllReclose p) := by
  unfold State.pllReclose
  split
  · exact (State.pllSet_reference h (by decide)).trans ((State.pllServed_clock (SameReads.refl _ _)).mono (by decide))
  · exact h

theorem State.pllResume_reference (h : SameReads referenceFields r s) :
    SameReads referenceFields r (s.pllResume p) := by
  unfold State.pllResume
  split
  · exact State.pllSet_reference (h.wr (by decide)) (by decide)
  split
  · exact State.pllSet_reference (h.wr (by decide)) (by decide)
  · exact h

/-- A PLL in LOCKED holds, its loss not declared (R327). -/
theorem State.pllHold_holds (h : s.rd .pllState p = 2) :
    (s.pllHold p).rd .pllState p = 3 ∧ (s.pllHold p).rd .pllDeclared p = 0 := by
  unfold State.pllHold
  extract_lets stopped
  have hstopped : stopped.rd .pllState p = 2 := by
    unfold stopped State.when
    split
    · exact (State.rd_puts_other _ _ _ _ _ _ (Or.inl (by simp))).trans h
    · exact h
  rw [hstopped]
  refine ⟨State.pllSet_state _ _ (by decide), ?_⟩
  refine (State.pllSet_clock _ _ (by decide) _ (by decide) _ _).trans ?_
  rw [State.rd_wr_field _ _ _ _ _ _ (by decide), State.wrb, hstopped]
  exact State.rd_wr_fits _ _ _ _ _ (by decide)

theorem State.pllReclose_locks (hstate : s.rd .pllState p = 3) (hdeclared : s.rd .pllDeclared p = 0)
    (hband : s.rd .pllBandHeld p = 0) : (s.pllReclose p).rd .pllState p = 2 := by
  unfold State.pllReclose
  rw [if_pos ⟨hstate, by simp [State.on_eq, hdeclared], by simp [State.on_eq, hband]⟩,
    State.pllServed_clock (SameReads.refl _ _) _ (by decide)]
  exact State.pllSet_state _ _ (by decide)

theorem State.pllResume_relocks (hstate : s.rd .pllState p = 3) (hdeclared : s.on .pllDeclared p = true) :
    (s.pllResume p).rd .pllState p = 4 ∧ (s.pllResume p).rd .pllQuietWin p = 0 := by
  unfold State.pllResume
  rw [if_pos ⟨hstate, hdeclared⟩]
  refine ⟨State.pllSet_state _ _ (by decide), (State.pllSet_clock _ _ (by decide) _ (by decide) _ _).trans ?_⟩
  rw [State.rd_wr_field _ _ _ _ _ _ (by decide)]
  exact State.rd_wr_fits _ _ _ _ _ (by decide)

/-! ## The loss of the reference (R320, R327) -/

/-- An outage on record, with its interrupt (R320, R327). -/
def State.outageMark (s : State) : State :=
  ((s.puts [(.clkRefOk, 0), (.clkRefBack, 0), (.clkCountOk, 0)]).raise .clkIntStatus Irq.clkRefLost).wr .clkOutage 1

theorem State.refOutage_eq (s : State) : s.refOutage = s.outageMark.each plls (fun p t => t.pllHold p) := rfl

theorem State.refOutage_reference (s : State) : SameReads referenceFields s.outageMark s.refOutage :=
  (SameReads.refl _ _).each fun _ _ hu => State.pllHold_reference hu

/-- The flag, the outage and the interrupt that begin with the loss of the reference (R320). -/
structure State.OutageBegun (s : State) : Prop where
  notOk : s.rd .clkRefOk = 0
  outage : s.rd .clkOutage = 1
  flag : (s.rd .clkIntStatus).testBit Irq.clkRefLost = true

theorem State.refOutage_begins (s : State) : s.refOutage.OutageBegun := by
  have hsame := s.refOutage_reference
  constructor
  all_goals
    rw [hsame _ (by decide)]
    unfold State.outageMark
  · rw [State.rd_wr_field _ _ _ _ _ _ (by decide), State.raise, State.rd_wr_field _ _ _ _ _ _ (by decide)]
    exact State.rd_puts_of_mem (by simp) (by simp) (by decide)
  · exact State.rd_wr_fits _ _ _ _ _ (by decide)
  · rw [State.rd_wr_field _ _ _ _ _ _ (by decide)]
    exact State.testBit_rd_raise _ _ _ _ (by decide)

theorem State.rd_outageMark (s : State) {f : Field} (m i : Nat)
    (hf : f ∉ [Field.clkRefOk, .clkRefBack, .clkCountOk, .clkIntStatus, .clkOutage]) :
    s.outageMark.rd f m i = s.rd f m i := by
  simp only [List.mem_cons, List.not_mem_nil, or_false, not_or] at hf
  obtain ⟨hok, hback, hcount, hstatus, houtage⟩ := hf
  refine (State.rd_wr_field _ _ _ _ _ _ houtage).trans ((State.rd_wr_field _ _ _ _ _ _ hstatus).trans ?_)
  exact State.rd_puts_other _ _ _ _ _ _ (Or.inl (by simp [hok, hback, hcount]))

/-- Every PLL in LOCKED holds (R327). -/
theorem State.refOutage_holds {p : Nat} (hp : p ∈ plls) (h : s.rd .pllState p = 2) :
    s.refOutage.rd .pllState p = 3 ∧ s.refOutage.rd .pllDeclared p = 0 := by
  rw [State.refOutage_eq]
  refine State.each_establishes (before := fun t => t.rd .pllState p = 2)
    (after := fun t => t.rd .pllState p = 3 ∧ t.rd .pllDeclared p = 0) plls_nodup hp ?_
    (fun t ht => State.pllHold_holds ht) ?_ ((s.rd_outageMark _ _ (by decide)).trans h)
  · exact fun q hq t ht => ((SameHold.refl p t).pllHold hq.symm).state.trans ht
  · rintro q hq t ⟨hstate, hdeclared⟩
    have hsame := (SameHold.refl p t).pllHold hq.symm
    exact ⟨hsame.state.trans hstate, hsame.declared.trans hdeclared⟩

theorem State.refOut_false (h : s.refOut = false) : s.on .clkRefLost = false ∧ s.on .clkRefBad = false := by
  simpa [State.refOut] using h

theorem exec_refLost_lost (h : s.on .clkRefLost = true) : exec .refLost s = .next s :=
  congrArg Host.Outcome.next (if_pos h)

/-- The first REF_LOST begins an outage, in which every locked PLL holds (R320, R327). -/
theorem refLost_begins (hpresent : s.refOut = false) : ∃ t, exec .refLost s = .next t ∧
    t.rd .clkRefLost = 1 ∧ t.rd .clkRefOk = 0 ∧ t.rd .clkOutage = 1 ∧
    (t.rd .clkIntStatus).testBit Irq.clkRefLost = true ∧
    (∀ p ∈ List.range 5, s.rd .pllState p = 2 → t.rd .pllState p = 3 ∧ t.rd .pllDeclared p = 0) := by
  obtain ⟨hlost, hbad⟩ := State.refOut_false hpresent
  have hbegun := s.refOutage_begins
  have hkept {f : Field} (m : Nat) (hf : f ≠ .clkRefLost) :
      (s.refOutage.wr .clkRefLost 1).rd f m = s.refOutage.rd f m :=
    State.rd_wr_field _ _ _ _ _ _ hf
  refine ⟨s.refOutage.wr .clkRefLost 1, congrArg Host.Outcome.next
    ((if_neg (by rw [hlost]; decide)).trans (if_neg (by rw [hbad]; decide))), State.rd_wr_fits _ _ _ _ _ (by decide),
    (hkept _ (by decide)).trans hbegun.notOk, (hkept _ (by decide)).trans hbegun.outage, ?_, fun p hp hstate => ?_⟩
  · rw [hkept _ (by decide)]
    exact hbegun.flag
  · rw [hkept _ (by decide), hkept _ (by decide)]
    exact State.refOutage_holds hp hstate

/-! ## The count of reference cycles (R320) -/

theorem refCountDone_good {count : BitVec 16} (hlow : 2432 ≤ count.toNat) (hhigh : count.toNat ≤ 2688) :
    ∃ t, exec (.refCountDone count) s = .next t ∧ t.rd .clkCountOk = 1 ∧ Changes s t 0 [.clkCountOk] := by
  have hnear : decide (128 < ((count.toNat : Int) - 2560).natAbs) = false := decide_eq_false (by omega)
  exact ⟨s.wr .clkCountOk 1, congrArg Host.Outcome.next (if_pos (by rw [hnear]; rfl)),
    State.rd_wr_fits _ _ _ _ _ (by decide), (Changes.refl s 0 _).wr (by decide)⟩

/-- A count too high while the reference is present sets REF_BAD and begins an outage (R320). -/
theorem refCountDone_bad {count : BitVec 16} (hhigh : 2688 < count.toNat) (hpresent : s.refOut = false) :
    ∃ t, exec (.refCountDone count) s = .next t ∧
      t.rd .clkRefBad = 1 ∧ t.rd .clkRefLost = 0 ∧ (t.rd .clkIntStatus).testBit Irq.clkRefLost = true ∧
      t.rd .clkOutage = 1 := by
  obtain ⟨hlost, -⟩ := State.refOut_false hpresent
  have hbegun := s.refOutage_begins
  have hkept {f : Field} (hf : f ≠ .clkRefBad) : (s.refOutage.wr .clkRefBad 1).rd f = s.refOutage.rd f :=
    State.rd_wr_field _ _ _ _ _ _ hf
  have hfar : decide (128 < ((count.toNat : Int) - 2560).natAbs) = true := decide_eq_true (by omega)
  refine ⟨s.refOutage.wr .clkRefBad 1, congrArg Host.Outcome.next
    ((if_neg (by rw [hfar]; decide)).trans (if_neg (by rw [hpresent]; decide))),
    State.rd_wr_fits _ _ _ _ _ (by decide), ?_, ?_, (hkept (by decide)).trans hbegun.outage⟩
  · rw [hkept (by decide), s.refOutage_reference _ (by decide), s.rd_outageMark _ _ (by decide)]
    simpa [State.on_eq] using hlost
  · rw [hkept (by decide)]
    exact hbegun.flag

/-! ## The return of the reference (R320, R327) -/

theorem exec_refBack_ignored (h : s.refOut = false ∨ s.on .clkCountOk = false) : exec .refBack s = .next s := by
  refine congrArg Host.Outcome.next (if_neg ?_)
  rintro ⟨hout, hcount⟩
  rcases h with h | h <;> simp_all

/-- An outage on record as a glitch, with its interrupt (R327). -/
def State.glitchMark (s : State) : State :=
  (((s.puts [(.clkRefBack, 1), (.clkRefLost, 0), (.clkRefBad, 0)]).wr .clkOutage 0).bump .clkRefGlitchCnt).raise
    .clkIntStatus Irq.clkRefGlitch

/-- Within the hold time the outage is a glitch, after which held PLLs close their loops again. -/
theorem exec_refBack_glitch (hout : s.refOut = true) (hcount : s.on .clkCountOk = true)
    (houtage : s.on .clkOutage = true) (hhold : 20 ≤ s.rd .clkRefHoldUs) :
    exec .refBack s = .next (s.glitchMark.each plls (fun p t => t.pllReclose p)) := by
  have hshort : (s.on .clkOutage && decide (s.rd .clkRefHoldUs < 20)) = false := by
    rw [houtage, decide_eq_false (by omega)]
    rfl
  have hstill : (s.puts [(.clkRefBack, 1), (.clkRefLost, 0), (.clkRefBad, 0)]).on .clkOutage = true := by
    rw [State.on_eq, State.rd_puts_other _ _ _ _ _ _ (Or.inl (by simp))]
    exact houtage
  refine congrArg Host.Outcome.next ((if_pos ⟨hout, hcount⟩).trans ?_)
  rw [hshort]
  exact if_pos hstill

theorem State.glitchMark_hold (s : State) (p : Nat) : SameHold p s s.glitchMark := by
  have hput {f : Field} (hf : f ∉ [Field.clkRefBack, .clkRefLost, .clkRefBad, .clkOutage, .clkRefGlitchCnt,
      .clkIntStatus]) : s.glitchMark.rd f p = s.rd f p := by
    simp only [List.mem_cons, List.not_mem_nil, or_false, not_or] at hf
    obtain ⟨hback, hlost, hbad, houtage, hcount, hstatus⟩ := hf
    refine (State.rd_wr_field _ _ _ _ _ _ hstatus).trans ((State.rd_wr_field _ _ _ _ _ _ hcount).trans
      ((State.rd_wr_field _ _ _ _ _ _ houtage).trans ?_))
    exact State.rd_puts_other _ _ _ _ _ _ (Or.inl (by simp [hback, hlost, hbad]))
  exact ⟨hput (by decide), hput (by decide), hput (by decide), hput (by decide), hput (by decide)⟩

theorem State.pllReclose_onlyIn {t : State} (h : OnlyIn [.clk, .pll, .evf, .hlt, .glb, .ltx] s t) :
    OnlyIn [.clk, .pll, .evf, .hlt, .glb, .ltx] s (t.pllReclose p) :=
  OnlyIn.cond (State.pllServed_onlyIn (State.pllSet_onlyIn h (by decide) (by decide) (by decide) (by decide))
    (by decide) (by decide)) h

/-- A glitch of the reference returns a held PLL, undeclared and with no band waiting, to LOCKED (R327). -/
theorem refBack_recloses {p : Fin 5} (hout : s.refOut = true) (hcount : s.on .clkCountOk = true)
    (houtage : s.on .clkOutage = true) (hstate : s.rd .pllState p = 3) (hdeclared : s.on .pllDeclared p = false)
    (hband : s.on .pllBandHeld p = false) (hhold : 20 ≤ s.rd .clkRefHoldUs) : ∃ t, exec .refBack s = .next t ∧
      t.rd .clkRefLost = 0 ∧ t.rd .clkRefBad = 0 ∧ t.rd .clkRefBack = 1 ∧ t.rd .pllState p = 2 ∧ t.rd .clkOutage = 0 ∧
      t.rd .clkRefGlitchCnt = min (s.rd .clkRefGlitchCnt + 1) (2 ^ Field.width .clkRefGlitchCnt - 1) ∧
      (t.rd .clkIntStatus).testBit Irq.clkRefGlitch = true ∧ OnlyIn [.clk, .pll, .evf, .hlt, .glb, .ltx] s t := by
  have hsame : SameReads referenceFields s.glitchMark (s.glitchMark.each plls (fun p t => t.pllReclose p)) :=
    (SameReads.refl _ _).each fun _ _ hu => State.pllReclose_reference hu
  have hmark : OnlyIn [.clk, .pll, .evf, .hlt, .glb, .ltx] s s.glitchMark :=
    State.raise_onlyIn (State.bump_onlyIn (State.wr_onlyIn (State.wr_onlyIn (State.wr_onlyIn (State.wr_onlyIn
      (OnlyIn.refl _ s) (by decide)) (by decide)) (by decide)) (by decide)) (by decide)) (by decide)
  refine ⟨_, exec_refBack_glitch hout hcount houtage hhold, ?lost, ?bad, ?back, ?state, ?outage, ?glitches, ?flag,
    hmark.each fun _ _ hu => State.pllReclose_onlyIn hu⟩
  case state =>
    refine State.each_establishes (before := SameHold p s) (after := fun t => t.rd .pllState p = 2) plls_nodup
      (mem_plls p) (fun q hq t ht => ht.pllReclose hq.symm) (fun t ht => ?_)
      (fun q hq t ht => ((SameHold.refl p.val t).pllReclose hq.symm).state.trans ht) (s.glitchMark_hold p)
    refine State.pllReclose_locks (ht.state.trans hstate) (ht.declared.trans ?_) (ht.bandHeld.trans ?_)
    · simpa [State.on_eq] using hdeclared
    · simpa [State.on_eq] using hband
  all_goals
    rw [hsame _ (by decide)]
    unfold State.glitchMark
  case glitches =>
    refine (State.rd_wr_field _ _ _ _ _ _ (by decide)).trans ((State.rd_bump_self _ _ _ _ _).trans ?_)
    rw [State.rd_wr_field _ _ _ _ _ _ (by decide), State.rd_puts_other _ _ _ _ _ _ (Or.inl (by simp))]
  case flag => exact State.testBit_rd_raise _ _ _ _ (by decide)
  all_goals
    simp (disch := decide) only [State.raise, State.bump, State.puts_cons, State.puts_nil, State.rd_wr_field,
      State.rd_wr_self]
    rfl

theorem exec_refOk_ignored (h : s.refOut = true ∨ s.on .clkRefBack = false) : exec .refOk s = .next s := by
  refine congrArg Host.Outcome.next (if_pos (h.imp_right fun hback => ?_))
  rw [hback]
  rfl

/-- REF_OK on record, with its interrupt (R320). -/
def State.okMark (s : State) : State := (s.wr .clkRefOk 1).raise .clkIntStatus Irq.clkRefOk

theorem exec_refOk (hpresent : s.refOut = false) (hback : s.on .clkRefBack = true) :
    exec .refOk s = .next (s.okMark.each plls (fun p t => t.pllResume p)) :=
  congrArg Host.Outcome.next (if_neg (by rw [hpresent, hback]; decide))

theorem State.rd_okMark (s : State) {f : Field} (m i : Nat) (hf : f ∉ [Field.clkRefOk, .clkIntStatus]) :
    s.okMark.rd f m i = s.rd f m i := by
  simp only [List.mem_cons, List.not_mem_nil, or_false, not_or] at hf
  exact (State.rd_wr_field _ _ _ _ _ _ hf.2).trans (State.rd_wr_field _ _ _ _ _ _ hf.1)

/-- A PLL whose loss was declared relocks once the reference is good (R327). -/
theorem refOk_relocks {p : Fin 5} (hpresent : s.refOut = false) (hback : s.on .clkRefBack = true)
    (hstate : s.rd .pllState p = 3) (hdeclared : s.on .pllDeclared p = true) : ∃ t, exec .refOk s = .next t ∧
      t.rd .clkRefOk = 1 ∧ (t.rd .clkIntStatus).testBit Irq.clkRefOk = true ∧ t.rd .pllState p = 4 ∧
      t.rd .pllQuietWin p = 0 := by
  have hsame : SameReads referenceFields s.okMark (s.okMark.each plls (fun p t => t.pllResume p)) :=
    (SameReads.refl _ _).each fun _ _ hu => State.pllResume_reference hu
  have hhold : SameHold p s s.okMark := ⟨s.rd_okMark _ _ (by decide), s.rd_okMark _ _ (by decide),
    s.rd_okMark _ _ (by decide), s.rd_okMark _ _ (by decide), s.rd_okMark _ _ (by decide)⟩
  refine ⟨_, exec_refOk hpresent hback, ?_, ?_, ?_⟩
  · rw [hsame _ (by decide)]
    exact (State.rd_wr_field _ _ _ _ _ _ (by decide)).trans (State.rd_wr_fits _ _ _ _ _ (by decide))
  · rw [hsame _ (by decide)]
    exact State.testBit_rd_raise _ _ _ _ (by decide)
  · refine State.each_establishes (before := SameHold p s)
      (after := fun t => t.rd .pllState p = 4 ∧ t.rd .pllQuietWin p = 0) plls_nodup (mem_plls p)
      (fun q hq t ht => ht.pllResume hq.symm) (fun t ht => ?_) ?_ hhold
    · refine State.pllResume_relocks (ht.state.trans hstate) ?_
      rwa [State.on_eq, ht.declared]
    · rintro q hq t ⟨hmoved, hquiet⟩
      have hkept := (SameHold.refl p.val t).pllResume hq.symm
      exact ⟨hkept.state.trans hmoved, hkept.quietWin.trans hquiet⟩

/-! ## The hold's expiry (R327) -/

/-- The outage on record as a loss of the reference (R327). -/
def State.lossMark (s : State) : State := (s.wr .clkOutage 0).bump .clkRefLossCnt

theorem exec_refHoldExpiry_idle (h : s.on .clkOutage = false ∨ s.refOut = false) :
    exec .refHoldExpiry s = .next s := by
  refine congrArg Host.Outcome.next (if_neg ?_)
  rintro ⟨houtage, hout⟩
  rcases h with h | h <;> simp_all

theorem exec_refHoldExpiry (houtage : s.on .clkOutage = true) (hout : s.refOut = true) :
    exec .refHoldExpiry s = .next (s.lossMark.each plls (fun p t => t.pllDeclare p)) :=
  congrArg Host.Outcome.next (if_pos ⟨houtage, hout⟩)

theorem State.rd_lossMark (s : State) {f : Field} (m i : Nat) (hf : f ∉ [Field.clkOutage, .clkRefLossCnt]) :
    s.lossMark.rd f m i = s.rd f m i := by
  simp only [List.mem_cons, List.not_mem_nil, or_false, not_or] at hf
  exact (State.rd_wr_field _ _ _ _ _ _ hf.2).trans (State.rd_wr_field _ _ _ _ _ _ hf.1)

theorem State.lossMark_outage (s : State) : s.lossMark.rd .clkOutage = 0 :=
  (State.rd_wr_field _ _ _ _ _ _ (by decide)).trans (State.rd_wr_fits _ _ _ _ _ (by decide))

/-- With no PLL in HOLD the loss of the reference is only counted. -/
theorem refHoldExpiry_counts (houtage : s.on .clkOutage = true) (hout : s.refOut = true)
    (hnone : ∀ p ∈ List.range 5, s.rd .pllState p ≠ 3) : ∃ t, exec .refHoldExpiry s = .next t ∧
      t.rd .clkOutage = 0 ∧ t.rd .clkRefLossCnt = min (s.rd .clkRefLossCnt + 1) (2 ^ Field.width .clkRefLossCnt - 1) ∧
      Changes s t 0 [.clkOutage, .clkRefLossCnt] := by
  have hstill : s.lossMark.each plls (fun p t => t.pllDeclare p) = s.lossMark :=
    State.each_unchanged fun p hp => if_neg (by rw [s.rd_lossMark _ _ (by decide)]; exact hnone p hp)
  refine ⟨s.lossMark, (exec_refHoldExpiry houtage hout).trans (congrArg _ hstill), s.lossMark_outage, ?_,
    ((Changes.refl s 0 _).wr (by decide)).wr (by decide)⟩
  refine (State.rd_bump_self _ _ _ _ _).trans ?_
  rw [State.rd_wr_field _ _ _ _ _ _ (by decide)]

/-- The window of losses of lock has no object action, and the outage is over (R327, R411). -/
structure State.QuietLoss (s : State) : Prop where
  action : s.rd .hltAction 0 11 ≤ 1
  outage : s.rd .clkOutage = 0

/-- A declared PLL is its mark and the loss on record. -/
theorem State.pllDeclare_clock (h : s.QuietLoss) (hstate : s.rd .pllState p = 3) :
    SameReads clockFields ((s.wr .pllDeclared 1 p).lolMark p) (s.pllDeclare p) := by
  unfold State.pllDeclare
  rw [if_pos hstate]
  refine State.pllLol_clock ?_
  rw [State.rd_wr_field _ _ _ _ _ _ (by decide)]
  exact h.action

theorem State.QuietLoss.pllDeclare (h : s.QuietLoss) (p : Nat) : (s.pllDeclare p).QuietLoss := by
  by_cases hstate : s.rd .pllState p = 3
  · have hclock := State.pllDeclare_clock h hstate
    constructor
    · rw [hclock _ (by decide), State.lolMark_action, State.rd_wr_field _ _ _ _ _ _ (by decide)]
      exact h.action
    · rw [hclock _ (by decide), State.rd_lolMark _ _ _ _ (by decide), State.rd_wr_field _ _ _ _ _ _ (by decide)]
      exact h.outage
  · rwa [State.pllDeclare, if_neg hstate]

/-- PLL `p` in HOLD has declared its loss of lock, with its interrupt (R327). -/
structure State.LossDeclared (s : State) (p : Nat) : Prop where
  declared : s.rd .pllDeclared p = 1
  state : s.rd .pllState p = 3
  lock : s.rd .pllLock p = 0
  flag : (s.rd .clkIntStatus).testBit (Irq.clkPllLol + p) = true

theorem State.QuietLoss.declares (h : s.QuietLoss) (hp : p < 5) (hstate : s.rd .pllState p = 3) :
    (s.pllDeclare p).LossDeclared p := by
  have hclock := State.pllDeclare_clock h hstate
  constructor
  all_goals rw [hclock _ (by decide)]
  · rw [State.rd_lolMark _ _ _ _ (by decide)]
    exact State.rd_wr_fits _ _ _ _ _ (by decide)
  · rw [State.rd_lolMark _ _ _ _ (by decide), State.rd_wr_field _ _ _ _ _ _ (by decide), hstate]
  · exact State.lolMark_lock _ _
  · exact State.lolMark_flag _ hp

theorem SameHold.pllDeclare {t : State} (h : SameHold p s t) (hquiet : t.QuietLoss) (hq : p ≠ q) :
    SameHold p s (t.pllDeclare q) := by
  by_cases hstate : t.rd .pllState q = 3
  · have hmark : SameHold p s ((t.wr .pllDeclared 1 q).lolMark q) := by
      have hset := h.wr (f := .pllDeclared) (v := 1) (i := 0) hq
      have hkept {f : Field} (hf : f ∉ [Field.pllLolCnt, .pllLock, .clkIntStatus]) :=
        (t.wr .pllDeclared 1 q).rd_lolMark q p 0 hf
      exact ⟨(hkept (by decide)).trans hset.state, (hkept (by decide)).trans hset.declared,
        (hkept (by decide)).trans hset.bandHeld, (hkept (by decide)).trans hset.quietWin,
        (State.lolMark_lock_other _ _ hq).trans hset.lock⟩
    exact hmark.clock (State.pllDeclare_clock hquiet hstate)
  · rwa [State.pllDeclare, if_neg hstate]

/-- A status bit that is set stays set when a PLL declares its loss. -/
theorem State.QuietLoss.keeps_flag (h : s.QuietLoss) {j : Nat} (hj : j < Field.width .clkIntStatus)
    (hflag : (s.rd .clkIntStatus).testBit j = true) : ((s.pllDeclare p).rd .clkIntStatus).testBit j = true := by
  by_cases hstate : s.rd .pllState p = 3
  · rw [State.pllDeclare_clock h hstate _ (by decide)]
    refine State.lolMark_keeps_flag _ _ hj ?_
    rwa [State.rd_wr_field _ _ _ _ _ _ (by decide)]
  · rwa [State.pllDeclare, if_neg hstate]

/-- Held PLLs declare their loss of lock when the hold expires (R327). -/
theorem refHoldExpiry_declares {p : Fin 5} (houtage : s.on .clkOutage = true) (hout : s.refOut = true)
    (hstate : s.rd .pllState p = 3) (hquiet : s.rd .hltAction 0 11 ≤ 1) :
    ∃ t, exec .refHoldExpiry s = .next t ∧ t.QuietLoss ∧ t.LossDeclared p := by
  have hstart : s.lossMark.QuietLoss := ⟨by rwa [s.rd_lossMark _ _ (by decide)], s.lossMark_outage⟩
  refine ⟨_, exec_refHoldExpiry houtage hout, ?_⟩
  refine State.each_establishes (before := fun t => t.QuietLoss ∧ t.rd .pllState p = 3)
    (after := fun t => t.QuietLoss ∧ t.LossDeclared p) plls_nodup (mem_plls p) ?_ ?_ ?_
    ⟨hstart, (s.rd_lossMark _ _ (by decide)).trans hstate⟩
  · rintro q hq t ⟨ht, hheld⟩
    exact ⟨ht.pllDeclare q, ((SameHold.refl p.val t).pllDeclare ht hq.symm).state.trans hheld⟩
  · rintro t ⟨ht, hheld⟩
    exact ⟨ht.pllDeclare p, ht.declares p.isLt hheld⟩
  · rintro q hq t ⟨ht, hdone⟩
    have hsame := (SameHold.refl p.val t).pllDeclare ht hq.symm
    have hwidth : Irq.clkPllLol + p.val < Field.width .clkIntStatus :=
      show Irq.clkPllLol + p.val < 13 by unfold Irq.clkPllLol; omega
    exact ⟨ht.pllDeclare q, hsame.declared.trans hdone.declared, hsame.state.trans hdone.state,
      hsame.lock.trans hdone.lock, ht.keeps_flag hwidth hdone.flag⟩

end

/-- Settles O38: each command of the PLLs and of the reference clock, by the state of the PLL, the reference and the
request or outage under way. -/
theorem pllsAndReferenceClock : Obligations.PllsAndReferenceClock := by
  unfold Obligations.PllsAndReferenceClock
  refine ⟨fun p e ph sl s => exec_pllLockWindow_idle, fun p e ph sl s => pllLockWindow_measures,
    fun p e ph sl s => pllLockWindow_relocks, fun p e ph sl s => pllLockWindow_recalibrates,
    fun p e ph sl s => pllLockWindow_fails, fun p e ph sl s => pllLockWindow_passes,
    fun mask s => exec_pllCalReq_none, fun mask p s => pllCalReq_waits, fun mask p s _ => pllCalReq_held,
    fun mask p s => exec_pllCalReq_ignored, fun p s => exec_pllCalStart_waits, ?start,
    fun p band s => exec_pllCalDone_idle, fun p band s => pllCalDone_locks, fun p band s => pllCalDone_fails,
    fun p band s => pllCalDone_holds, ?timeout, fun p s => exec_pllRelockTimeout_other, fun s => exec_refLost_lost,
    fun s => refLost_begins, fun count s => refCountDone_good, fun count s => refCountDone_bad,
    fun s => exec_refBack_ignored, fun p s => refBack_recloses, fun s => exec_refOk_ignored, fun p s => refOk_relocks,
    fun s => exec_refHoldExpiry_idle, fun s => refHoldExpiry_counts, ?expiry⟩
  case start =>
    intro p s hreq hidle hquiet hpresent
    obtain ⟨t, ht, hcal⟩ := pllCalStart_calibrates hreq hidle hquiet hpresent
    have hrun : t.rd .pllCalRun p = 1 := hcal.run.trans (if_neg (by rw [hpresent]; decide))
    exact ⟨t, ht, hcal.state, hrun, hcal.pend, hcal.lock, hcal.gated, hcal.losses⟩
  case timeout =>
    intro p s hstate
    obtain ⟨t, ht, hcal⟩ := pllRelockTimeout_calibrates hstate
    exact ⟨t, ht, hcal.state, hcal.gated, hcal.run⟩
  case expiry =>
    intro p s houtage hout hstate hquiet
    obtain ⟨t, ht, hloss, hdone⟩ := refHoldExpiry_declares houtage hout hstate hquiet
    exact ⟨t, ht, hloss.outage, hdone.declared, hdone.state, hdone.lock, hdone.flag⟩

end Sys2Proof.Machine
